-- ==== Sys2Proof/Word.lean ====
section
/-! DEFINITION. The words of the register space and of the wire: 32-bit registers (R8), bytes, and byte strings. -/

namespace Sys2Proof

/-- A register of the register space: 32 bits (R8). -/
abbrev Word := BitVec 32

/-- A byte. -/
abbrev Byte := BitVec 8

/-- A string of bytes, first byte first. -/
abbrev Bytes := List Byte

/-- A digest of SHA-256 (FIPS 180-4), or any other 32-byte value. -/
abbrev Digest := BitVec 256

end Sys2Proof
end

