-- ==== Sys2Proof/Machine/Operands.lean ====
section
/-! DEFINITION. The forms of the commands' operands: what a row's summary and the rules behind it name. What an outside
agent decides or measures (a status a drive returns, the bytes of a received message, whether a signature or a tag
verifies, a measured voltage) is an operand. -/


namespace Sys2Proof

/-- A keyed SGL data block descriptor (R47, R105): remote address, length, key, and the Invalidate Key subtype. -/
structure Sgl where
  va : Nat
  len : Nat
  rkey : Nat
  invalidate : Bool
deriving DecidableEq, Repr, Inhabited

/-- The queue entry fields that every I/O command carries (R45, R50). -/
structure IoHdr where
  cntlid : Nat
  sqid : Nat
  cid : Nat
  nsid : Nat
deriving DecidableEq, Repr, Inhabited

/-- An admin command's controller and command identifier. -/
structure Admin where
  cntlid : Nat
  cid : Nat
deriving DecidableEq, Repr, Inhabited

/-- A request of the management protocol as it reaches the unit, complete under R385: the port (0 MA, 1 MB), the session,
its SEQ, and whether every fragment's tag verifies under the session key (R384). -/
structure Req where
  port : Fin 2
  session : Nat
  seq : Nat
  tagOk : Bool
deriving DecidableEq, Repr, Inhabited

/-- How a drive ends an I/O command: success, a failure of the command, or a Reservation Conflict (R207, R213). -/
inductive DriveResult where
  | ok | failed | conflict
deriving DecidableEq, Repr, Inhabited

/-- A connection-management REQ (R85): the requester's QPN, PSN, path MTU code and responder resources, its addresses, the
port it came in on, whether it names a migration service, and the RECFMT and HSQSIZE of its private data. -/
structure CmReq where
  qpn : Nat
  psn : Nat
  pmtu : Nat
  resources : Nat
  remoteIp : Nat
  remoteMac : Nat
  vlan : Nat
  lport : Nat
  dscp : Nat
  sport : Nat
  tenant : Nat
  migration : Bool
  recfmt : Nat
  hsqsize : Nat
deriving DecidableEq, Repr, Inhabited

/-- An inbound request packet: the local QPN, its PSN, its AckReq bit and its ECN Congestion Experienced mark (R83, R94). -/
structure Pkt where
  qpn : Nat
  psn : Nat
  ackReq : Bool
  ecn : Bool
deriving DecidableEq, Repr, Inhabited

/-- The virtual address, key and length that the first packet of an RDMA operation carries. -/
structure Reth where
  va : Nat
  rkey : Nat
  len : Nat
deriving DecidableEq, Repr, Inhabited

/-- A work request of the pool (R117). -/
structure WorkReq where
  opcode : Nat
  flags : Nat
  qpn : Nat
  localAddr : Nat
  remoteVa : Nat
  rkey : Nat
  length : Nat
  imm : Nat
  next : Nat
  args : Bytes
deriving DecidableEq, Repr, Inhabited

/-- The operations of the bulk lanes (R279 to R281). -/
inductive CipherMode where
  | xtsSeal | xtsOpen | gcmSeal | gcmOpen
deriving DecidableEq, Repr, Inhabited

/-- A request to the cipher complex (R281, R282): the requester's page, the page and handle of the key it names, the 16-byte
tweak or the IV, the AAD, the data, the tag received for an open, whether it is a class 0 data unit, and the work chain it
comes from. -/
structure CipherReq where
  page : Nat
  keyPage : Nat
  handle : Nat
  mode : CipherMode
  iv : Bytes
  aad : Bytes
  data : Bytes
  tag : Bytes
  urgent : Bool
  chain : Option (Nat × Nat)
deriving DecidableEq, Repr, Inhabited

/-- What a drive's initialisation finds (R197, R200 to R203, R208): its Max_Payload_Size capability in bytes, CAP.CSS, CAP.MQES,
namespace 1, its formats and its capacity in blocks of 4,096 bytes, reservations, CMIC bit 0, CAP.AMS, MDTS in bytes (0 for
none), whether it is formatted with 4,096-byte blocks, the first and the last superblock block as read, and the key of another
unit that holds the reservation. -/
structure DriveFacts where
  mpsCap : Nat
  nvm : Bool
  mqes : Nat
  nsActive : Bool
  offers4k : Bool
  lbaCount : Nat
  reservations : Bool
  multiPort : Bool
  urgentPrio : Bool
  mdts : Nat
  formatted4k : Bool
  superblocks : Bytes × Bytes
  holderKey : Option Nat
deriving DecidableEq, Repr, Inhabited

/-- A unit of a row as it is read: its index, its stripe header where its set is sealed, and its bytes (R157). -/
structure UnitRead where
  unit : Nat
  header : Bytes
  data : Bytes
deriving DecidableEq, Repr, Inhabited

/-- A write under way to a drive, as its completion names it: a unit of a command's entry, or, of a write that belongs to no
command, its first LBA. -/
inductive WriteId where
  | unit (entry set row unit : Nat)
  | other (lba : Nat)
deriving DecidableEq, Repr, Inhabited

/-- A transmit time stamp of a PTP event message the unit sent (R229, R232): its GTS, sequenceId, messageType and
domainNumber. -/
structure TxStamp where
  gts : Nat
  seqId : Nat
  msgType : Nat
  domain : Nat
deriving DecidableEq, Repr, Inhabited

/-- What host software has set in a function's configuration space and MSI-X table by the time of the command that carries
it (R317, R323, R326 to R329): Bus Master Enable, the MSI-X and MSI enables with the messages allocated, the unmasked MSI-X
vectors as bits and the function mask; and of PF1 the read request and payload sizes in bytes, 10-Bit Tag Requester Enable
and the Completion Timeout Value. -/
structure HostCfg where
  bme : Bool
  msix : Bool
  msi : Bool
  messages : Nat
  unmasked : Nat
  fnMask : Bool
  mrrs : Nat
  mps : Nat
  tag10 : Bool
  cto : Nat
  relaxed : Bool
deriving DecidableEq, Repr, Inhabited

/-- How a PCIe completion ends (R324, R325). -/
inductive CplStatus where
  | ok | ur | ca | poisoned
deriving DecidableEq, Repr, Inhabited

/-- The header of a received Leash frame (R344): its link (0 LA, 1 LB), LSEQ, ACK_LSEQ, the roles, EPOCH, and whether its
header, its TYPE and its payload's CRC are good. -/
structure LeashHdr where
  link : Fin 2
  lseq : Nat
  ack : Nat
  src : Nat
  dst : Nat
  epoch : Nat
  crcOk : Bool
deriving DecidableEq, Repr, Inhabited

/-- A vote of an ECHO (R353). -/
structure Vote where
  jseq : Nat
  rcrc : Nat
  agree : Bool
deriving DecidableEq, Repr, Inhabited

/-- An outbound notice (R350), with its completion's status and dword 0 apart. -/
structure Notice where
  qpn : Nat
  kind : Nat
  psn : Nat
  packets : Nat
  cntlid : Nat
  sqid : Nat
  cid : Nat
  length : Nat
  va : Nat
  rkey : Nat
  offset : Nat
  sct : Nat
  sc : Nat
  dnr : Bool
  dw0 : Nat
  gts : Nat
deriving DecidableEq, Repr, Inhabited

/-- A leg's samples at a control tick (R407): VOUT and gate sense in mV, at every fourth tick, and the current in mA. -/
structure LegSample where
  leg : Fin 48
  sense : Option (Nat × Nat)
  i : Nat
deriving DecidableEq, Repr, Inhabited

/-- A feed's samples at a control tick (R422): its voltage in mV, its current in mA, and the diode's temperature in °C. -/
structure FeedSample where
  feed : Fin 4
  v : Nat
  i : Int
  t : Nat
deriving DecidableEq, Repr, Inhabited

/-- How RECEIPT_GET and CUSTODY_EXPORT name a leaf (R388): by batch and index, or by namespace and key or LBA. -/
inductive LeafName where
  | index (seq leaf : Nat)
  | key (nsid : Nat) (key : Bytes)
  | lba (nsid lba : Nat)
deriving DecidableEq, Repr, Inhabited

/-- A landing region of a migration (R111, R182): its index in the region table, its key byte, its address in HBM and its
length. -/
structure Landing where
  index : Nat
  key : Nat
  base : Nat
  length : Nat
deriving DecidableEq, Repr, Inhabited

/-- Where source firmware puts a window (R186): the first of its work requests, which follow one another in the pool; the HBM
addresses of its manifest entries, plaintexts, envelopes, custody bundle and GO message, and of the trigger's manifest buffer;
which of the job's landing regions it uses; and the job slot at the target. -/
structure WindowPlace where
  first : Nat
  entries : Nat
  plain : Nat
  envs : Nat
  bundle : Nat
  go : Nat
  mbuf : Nat
  region : Nat
  peerSlot : Fin 16
deriving DecidableEq, Repr, Inhabited

/-- Where target firmware puts a window (R186): the first of its work requests, the HBM addresses of the manifest buffer and of
the plaintexts, the landing region, and where each entry's records begin in the bundle. -/
structure TargetPlace where
  first : Nat
  mbuf : Nat
  plain : Nat
  region : Nat
  offsets : List Nat
deriving DecidableEq, Repr, Inhabited

/-- The items of MIG_JOB_CREATE (R182): the job's side, the namespaces of both shelves, the job's UID, the connection, the
page and handle of the migration key, and the landing regions of the target. -/
structure MigItems where
  target : Bool
  uid : Nat
  nsid : Nat
  peerNsid : Nat
  qpn : Nat
  page : Nat
  handle : Nat
  regions : List Landing
deriving DecidableEq, Repr, Inhabited

end Sys2Proof
end

