-- ==== Sys2Proof/Machine/Bits.lean ====
section
/-! DEFINITION. Bit fields, byte orders and saturation: the notation of R3 to R7. -/

namespace Sys2Proof.Machine

/-- Bits [hi:lo] of a number, bit 0 the least significant (R6). -/
def bitsOf (n hi lo : Nat) : Nat := (n / 2 ^ lo) % 2 ^ (hi - lo + 1)

/-- `n` with bits [hi:lo] replaced by the low bits of `v` (R6). -/
def setBits (n hi lo v : Nat) : Nat :=
  n - bitsOf n hi lo * 2 ^ lo + (v % 2 ^ (hi - lo + 1)) * 2 ^ lo

/-- Bit `i` of a number. -/
def bitAt (n i : Nat) : Bool := (n / 2 ^ i) % 2 == 1

/-- `n` with bit `i` set to `b`. -/
def setBit (n i : Nat) (b : Bool) : Nat := setBits n i i (if b then 1 else 0)

/-- 1 for true, 0 for false. -/
def b2n (b : Bool) : Nat := if b then 1 else 0

/-- A count that stops at `max` (a "saturating" count). -/
def sat (max n : Nat) : Nat := min max n

/-- The little-endian bytes of a number, `k` of them (R7: structures in HBM, MRAM and on drives). -/
def leBytes : Nat → Nat → Bytes
  | 0, _ => []
  | k + 1, n => BitVec.ofNat 8 n :: leBytes k (n / 256)

/-- The number that little-endian bytes hold (R7). -/
def ofLe : Bytes → Nat
  | [] => 0
  | b :: bs => b.toNat + 256 * ofLe bs

/-- The big-endian bytes of a number, `k` of them (R7: Abelm messages on a wire). -/
def beBytes (k n : Nat) : Bytes := (leBytes k n).reverse

/-- The number that big-endian bytes hold (R7). -/
def ofBe (bs : Bytes) : Nat := ofLe bs.reverse

/-- The 32 bytes of a digest in the order of its standard (R165). -/
def digestBytes (d : Digest) : Bytes := beBytes 32 d.toNat

/-- The bytes of `bs` from offset `o`, `k` of them. -/
def slice (bs : Bytes) (o k : Nat) : Bytes := (bs.drop o).take k

/-- `bs` followed by zero bytes up to length `k`. -/
def padTo (k : Nat) (bs : Bytes) : Bytes := bs ++ List.replicate (k - bs.length) 0

/-- A list to which one element has just been added, as a log or a ring of `n` places keeps it: the oldest leaves. -/
def keepLast {α : Type} (n : Nat) (l : List α) : List α := if n < l.length then l.tail else l

end Sys2Proof.Machine
end

