-- ==== Sys2Proof/Machine/Tab.lean ====
section
/-! DEFINITION. Sparse tables: a list of key and value pairs in one canonical form, the keys strictly rising and no
entry equal to what an unlisted key reads as. Every array and every large table of the block is one of these. -/

namespace Sys2Proof.Machine

/-- A sparse table: pairs of a key and a value. -/
abbrev Tab (α : Type) := List (Nat × α)

/-- The entry listed for a key. -/
def Tab.look {α : Type} : Tab α → Nat → Option α
  | [], _ => none
  | (k, v) :: t, j => if j = k then some v else Tab.look t j

/-- The table with the entry of a key replaced or inserted in its place. -/
def Tab.ins {α : Type} : Tab α → Nat → α → Tab α
  | [], j, x => [(j, x)]
  | (k, v) :: t, j, x =>
    if j < k then (j, x) :: (k, v) :: t
    else if j = k then (k, x) :: t
    else (k, v) :: Tab.ins t j x

/-- The table without the entry of a key. -/
def Tab.del {α : Type} (t : Tab α) (j : Nat) : Tab α := t.filter fun e => e.1 ≠ j

/-- What a key reads as when `d` stands for the unlisted keys. -/
def Tab.getD {α : Type} (t : Tab α) (d : α) (k : Nat) : α := (t.look k).getD d

/-- The table with a key's value set, when `d` stands for the unlisted keys: writing `d` removes the entry. -/
def Tab.setD {α : Type} [DecidableEq α] (t : Tab α) (d : α) (k : Nat) (x : α) : Tab α :=
  if x = d then t.del k else t.ins k x

/-- What a key reads as, the type's default standing for the unlisted keys. -/
def Tab.at {α : Type} [Inhabited α] (t : Tab α) (k : Nat) : α := t.getD default k

/-- The table with a key's value set, the type's default standing for the unlisted keys. -/
def Tab.put {α : Type} [Inhabited α] [DecidableEq α] (t : Tab α) (k : Nat) (x : α) : Tab α :=
  t.setD default k x

/-- The table with a key's value changed by a function. -/
def Tab.upd {α : Type} [Inhabited α] [DecidableEq α] (t : Tab α) (k : Nat) (f : α → α) : Tab α :=
  t.put k (f (t.at k))

/-- The listed keys whose value meets a test, in rising order. -/
def Tab.keysWhere {α : Type} (t : Tab α) (p : Nat → α → Bool) : List Nat :=
  (t.filter fun e => p e.1 e.2).map (·.1)

/-- The listed entries whose value meets a test. -/
def Tab.countWhere {α : Type} (t : Tab α) (p : Nat → α → Bool) : Nat := (t.keysWhere p).length

/-- The first of the `n` numbers from `k` on that meets a test. -/
def seek (p : Nat → Bool) : Nat → Nat → Option Nat
  | 0, _ => none
  | n + 1, k => if p k then some k else seek p n (k + 1)

/-- The first of the keys 0 to n − 1 whose value meets a test. -/
def Tab.firstKey {α : Type} [Inhabited α] (t : Tab α) (n : Nat) (p : α → Bool) : Option Nat :=
  seek (fun k => p (t.at k)) n 0

/-- The smallest key from `k` on that is not listed. -/
def Tab.gap {α : Type} : Tab α → Nat → Nat
  | [], k => k
  | (j, _) :: t, k => if j < k then Tab.gap t k else if j = k then Tab.gap t (k + 1) else k

/-- Each entry changed by a function; an entry that becomes the default is removed. -/
def Tab.mapAll {α : Type} [Inhabited α] [DecidableEq α] (t : Tab α) (f : Nat → α → α) : Tab α :=
  (t.map fun e => (e.1, f e.1 e.2)).filter fun e => e.2 ≠ default

/-- The canonical form: keys strictly rising and no value equal to the default. -/
def Tab.wf {α : Type} [Inhabited α] [DecidableEq α] (t : Tab α) : Bool :=
  (t.all fun e => e.2 ≠ default) && decide ((t.map (·.1)).Pairwise (· < ·))

end Sys2Proof.Machine
end

