-- ==== Sys2Proof/Machine/State/Base.lean ====
section
/-! DEFINITION. State of the device-wide machinery of chapters 01, 12, 14 and 15: global time, event records, rings and
the critical event log, access paths, fences, sessions, the Bone, images and stores, counters, samplers, boot. -/

namespace Sys2Proof.Machine

/-- An event record (R30). -/
structure EventRec where
  gts : Nat
  source : Nat
  severity : Nat
  event : Nat
  data : Nat
deriving DecidableEq, Repr, Inhabited

/-- Global time (R24 to R26). `now` is GTS in ns; `ppm` the rate correction in force, in units of 10⁻⁶, and `frac` the
part of a nanosecond gathered, in the same units; `good` counts consecutive measurements below 100 ns; `present` and
`enabled` list the priorities of R25 that are present and that the image enables; `secondsSet` marks a seconds count
written and not applied yet. -/
structure Gts where
  now : Nat
  ppm : Int
  frac : Nat
  source : Nat
  locked : Bool
  good : Nat
  present : List Nat
  enabled : List Nat
  secondsSet : Bool
deriving DecidableEq, Repr, Inhabited

/-- The pair snapshot and staging register of an access path (R15 to R17). `lastRead` is the address of the path's most
recent register read; `staged` the address of a low word and the word staged for it. -/
structure PathState where
  lastRead : Option Nat
  snapshot : Word
  staged : Option (Nat × Word)
deriving DecidableEq, Repr, Inhabited

/-- The fences of a block's group of identical units and its counted accesses (R35, R42). -/
structure BlockState where
  fenced : Nat
  lastValid : Bool
  lastUnit : Nat
  lastReason : Nat
  unmapped : Nat
deriving DecidableEq, Repr, Inhabited

/-- A message of a session's ring that waits for its acknowledgement (R400). -/
structure RingMsg where
  first : Nat
  count : Nat
  seq : Nat
deriving DecidableEq, Repr, Inhabited

/-- An event ring (R397 to R400). `recs` are the unread records, oldest first, with their sequence numbers; `total` is
how many records the ring has numbered since cold reset; `lost` how many it dropped since it last had space. -/
structure Ring where
  recs : List (Nat × EventRec)
  total : Nat
  lost : Nat
  /-- log2 of the size in force since the last image application, 0 for the reset size 16 (R398) -/
  sizeLog : Nat
  reader : Nat
  session : Nat
  unacked : List RingMsg
  snap : Option EventRec
deriving DecidableEq, Repr, Inhabited

/-- What a response of the management protocol carries (R388). -/
inductive Reply where
  | none
  | gts (now : Nat)
  | words (l : List Word)
  /-- one status byte per pair of a REG_WRITE (R390) -/
  | statuses (l : List Nat)
  /-- the Bone's holder: path code and session -/
  | holder (path session : Nat)
  /-- the reason of R375 -/
  | reason (n : Nat)
  | digest (d : Digest)
  /-- per profile slot: valid, length, digest and NAME -/
  | profiles (l : List (Bool × Nat × Digest × Bytes))
  /-- a ring's next record sequence, a count, or a job slot -/
  | number (n : Nat)
  | records (l : List EventRec)
  /-- blobs, receipts and certificates, in their stored byte order -/
  | blobs (l : List Bytes)
  /-- a certificate: its body, which the issuer's signature follows (R301) -/
  | signed (body : Bytes)
  /-- a quote: its body, the boot count whose session attestation key signs it and what hedges the signature, then the session
  certificate (R307, R310) -/
  | quote (body : Bytes) (bootCount : Nat) (seed : Option Nat) (cert : Bytes)
  /-- handles of class 9 chains -/
  | handles (l : List Nat)
  /-- a migration job: state, target flag, pass, counts, and the objects failed by extent identifier -/
  | job (state : Nat) (target : Bool) (pass failed objects : Nat) (list : List Nat)
deriving DecidableEq, Repr, Inhabited

/-- A stored response (R385): the request's SEQ, its opcode, the status, the payload, and the fragments it left in. -/
structure Answer where
  seq : Nat
  op : Nat
  status : Nat
  payload : Reply
  wire : List Bytes
deriving DecidableEq, Repr, Inhabited

/-- A management session (R385 to R387): its port, its principal, the highest SEQ served, the last 16 responses,
the unit's next SEQ, and the times R387 measures. -/
structure Session where
  port : Nat
  principal : Nat
  highSeq : Nat
  recent : List Answer
  sendSeq : Nat
  lastMsg : Nat
  idleS : Nat
  keySlot : Nat
deriving DecidableEq, Repr, Inhabited

/-- The Bone (R394): the holder's path code and session, and the GTS at which the lease ends. -/
structure Bone where
  held : Bool
  path : Nat
  session : Nat
  leaseEnd : Nat
  leaseLen : Nat
deriving DecidableEq, Repr, Inhabited

/-- A principal record (R386). -/
structure Principal where
  valid : Bool
  rights : Nat
  ports : Nat
  key : Bytes
  wrapHandle : Nat
  name : Bytes
deriving DecidableEq, Repr, Inhabited

/-- A profile or firmware slot in MRAM (R378 to R380): its verified content, and the digest measured at the commit. -/
structure ImageSlot where
  valid : Bool
  content : Bytes
  digest : Digest
  svn : Nat
deriving DecidableEq, Repr, Inhabited

/-- A store in progress (R380, R466): who stores (a session, or the I3C path code + 1 with session 0), what and where. -/
structure StoreJob where
  path : Nat
  session : Nat
  kind : Nat
  slot : Nat
  length : Nat
  content : Bytes
deriving DecidableEq, Repr, Inhabited

/-- A write of a register at some GTS, kept while GTS stands there (R396). -/
structure WriteMark where
  gts : Nat
  addr : Nat
  path : Fin 5
  session : Nat
  value : Word
deriving DecidableEq, Repr, Inhabited

/-- The control cluster's state. -/
structure Ctl where
  gts : Gts
  paths : Tab PathState
  blocks : Tab BlockState
  /-- records emitted that have not reached the router yet, oldest first -/
  inflight : List EventRec
  /-- records the router holds (R33) -/
  held : List EventRec
  rings : Tab Ring
  ringMap : Option Bytes
  clog : List EventRec
  sessions : Tab Session
  bone : Bone
  principals : Tab Principal
  profiles : Tab ImageSlot
  firmware : Tab ImageSlot
  stores : List StoreJob
  running : Option Nat
  conflictNext : Nat
  marks : List WriteMark
  shelfUuid : Bytes
  udpPort : Nat
  mgmtAddrs : Bytes
  image : Bytes
  coreTasks : Tab Nat
deriving DecidableEq, Repr, Inhabited

/-- A sampler (R442, R443). `down` is the down-count, which reaches zero or falls below it at an overflow. -/
structure Sampler where
  down : Int
  armed : Bool
  skid : Nat
  merged : Nat
  value : Nat
deriving DecidableEq, Repr, Inhabited

/-- A sample record (R444). -/
structure Sample where
  gts : Nat
  value : Nat
  counter : Nat
  sampler : Nat
  skid : Nat
  merged : Nat
  cmdValid : Bool
  entry : Bytes
  cause : Nat
deriving DecidableEq, Repr, Inhabited

/-- Telemetry: the counters of R431 and R434, the snapshot bank of R440, the samplers and the sample ring. -/
structure Tel where
  cnt : Tab Nat
  snap : Tab Nat
  /-- the emissions counted at GTS `curGts`, which a snapshot taken then leaves out (R440) -/
  cur : Tab Nat
  curGts : Nat
  samplers : Tab Sampler
  samples : List Sample
  sampleSnap : Option Sample
  dropGts : Nat
  dropInSecond : List Nat
  dropReported : Bool
deriving DecidableEq, Repr, Inhabited

/-- The kind of reset in force (R453), or none. -/
inductive ResetKind where
  | none | cold | warm
deriving DecidableEq, Repr, Inhabited

/-- The recovery record of R464. -/
structure RecoveryRecord where
  valid : Bool
  addrs : Bytes
  udpPort : Nat
  principals : Tab Principal
deriving DecidableEq, Repr, Inhabited

/-- Boot and reset: chapter 15. `step` is the step of R457, 10 after BOOT_DONE; `restartDue` is the warm reset R465
schedules; the pins are levels, `pgood` bit n for group n + 1. -/
structure Boot where
  inReset : ResetKind
  step : Nat
  cause : Nat
  recovery : Nat
  warm : Bool
  fwSlot : Nat
  bootMs : Nat
  releaseGts : Nat
  profileSel : Nat
  roleSel : Nat
  bootMode : Nat
  pinProfileSel : Nat
  pinRoleSel : Nat
  pinBootMode : Nat
  lastProfile : Option Nat
  preferredFw : Nat
  record : RecoveryRecord
  restartDue : Bool
  pgood : Nat
  sysRstHigh : Bool
  warmRstHigh : Bool
  thermTrip : Bool
  clocksLost : List Nat
  watchdogOn : Bool
  m1Digest : Digest
  m2Digest : Digest
deriving DecidableEq, Repr, Inhabited

end Sys2Proof.Machine
end

