-- ==== Sys2Proof/Machine/State/Cip.lean ====
section
/-! DEFINITION. State of the cipher complex and of device trust: chapter 09. -/

namespace Sys2Proof.Machine

/-- A slot of the key table with its entry of the MRAM key store (R289, R290): `state` 0 none, 1 valid,
2 destroyed, the slot free again and its key zeroed; `lost` where both
copies failed; `oekId` of an escrow key; `seals` under a GCM key since it was loaded (R282). -/
structure KeySlot where
  typ : Nat
  state : Nat
  tenant : Nat
  handle : Nat
  nsid : Nat
  keyGen : Nat
  seq : Nat
  createGts : Nat
  key : Bytes
  oekId : Nat
  seals : Nat
  lost : Bool
deriving DecidableEq, Repr, Inhabited

/-- An entry of a tenant page (R288): its generation and the key-table slot it names, plus one; 0 for a free entry. -/
structure HandleEntry where
  gen : Nat
  slot : Nat
deriving DecidableEq, Repr, Inhabited

/-- The key order in progress (R292), with its result where it has already taken effect. -/
structure KeyOrder where
  op : Nat
  typ : Nat
  page : Nat
  handle : Nat
  wrap : Nat
  session : Nat
  result : Nat
deriving DecidableEq, Repr, Inhabited

/-- A segment of a cipher operation at work or queued on a lane (R284). -/
structure CSeg where
  op : Nat
  index : Nat
  urgent : Bool
deriving DecidableEq, Repr, Inhabited

/-- A cipher operation dispatched to the lanes, with the key it was dispatched with (R282, R284, R294). One with `entry` is the
data of a command, whose segments are XTS data units, an operation each (R280, R284). -/
structure CipherOp where
  req : CipherReq
  key : Bytes
  left : Nat
  entry : Option Nat
deriving DecidableEq, Repr, Inhabited

/-- The cipher complex. `genTop` is the highest KEY_GEN used in each page (R291). -/
structure Cip where
  slots : Tab KeySlot
  entries : Tab HandleEntry
  genTop : Tab Nat
  order : Option KeyOrder
  mailbox : Bytes
  mailboxSession : Nat
  escrow : List Bytes
  ops : Nat
  running : Tab CipherOp
  opNext : Nat
  lanes : Tab (List CSeg)
deriving DecidableEq, Repr, Inhabited

/-- Device trust. `notBefore` lists the rotations made for the shelf with the GTS from which each signs; `imageSigner` is the
index of the enrolled key that signed the active image; `sessionKeyMade` and `sessionGts` say whether the session attestation
key is made, and at what GTS (R300, R304). -/
structure Tru where
  fuseSvn : Nat
  bootCount : Nat
  meas : List Digest
  rotation : Nat
  notBefore : Tab Nat
  imageKeys : Tab Bytes
  imageSigner : Option Nat
  sessionKeyMade : Bool
  sessionGts : Nat
deriving DecidableEq, Repr, Inhabited

end Sys2Proof.Machine
end

