-- ==== Sys2Proof/Machine/State/Cmd.lean ====
section
/-! DEFINITION. State of the command engine: chapter 02. -/

namespace Sys2Proof.Machine

/-- A completion status: status code type, status code and DNR (R493). -/
structure Status where
  sct : Nat
  sc : Nat
  dnr : Bool
deriving DecidableEq, Repr, Inhabited

/-- A command capsule of an I/O queue. `ranges` are the block ranges of a Dataset Management. `hold` marks a capsule
held during an activation (R72 step 6); `late` one that arrived after a normal shutdown began (R69). -/
structure Capsule where
  cntlid : Nat
  sqid : Nat
  cid : Nat
  opc : Nat
  nsid : Nat
  port : Nat
  cls : Nat
  gtsIn : Nat
  slba : Nat
  xlen : Nat
  key : Bytes
  ranges : List (Nat × Nat)
  sgl : List Sgl
  inline : Bytes
  hold : Bool
  late : Bool
  /-- the unit was not in PS0 when the capsule arrived, so that the command has no bound (R57, R62) -/
  noBound : Bool
  /-- what the opcode or the attributes alone complete the command with (R45), for a command that is not accepted -/
  refusal : Option Status
  /-- the capsule came during an exit to PS0, and its tests wait for PS0 (R77) -/
  untested : Bool
deriving DecidableEq, Repr, Inhabited

/-- What a live entry waits on (R438), or `ready`. -/
inductive Wait where
  | ready | host | cipher | layout | submit | drive | journal | egress | vote | hbm
deriving DecidableEq, Repr, Inhabited

/-- The states of a live entry, with the codes of R51. -/
inductive CmdState where
  | queued | granted | fetching | encoding | drive | journal | committed | returning | posting
deriving DecidableEq, Repr, Inhabited

/-- Rows of one set allocated to a command: one extent (R134). -/
structure Alloc where
  set : Nat
  firstRow : Nat
  rows : Nat
  extent : Nat
  bytes : Nat
deriving DecidableEq, Repr, Inhabited

/-- A unit write of a command on its way to a drive (R138 step 1). -/
structure UnitIo where
  slot : Nat
  set : Nat
  row : Nat
  unit : Nat
  data : Bytes
deriving DecidableEq, Repr, Inhabited

/-- A part of a read's result (R142): bytes from `lo` on of an extent, or zeros where no entry covers the range. -/
structure Seg where
  zero : Bool
  len : Nat
  set : Nat
  firstRow : Nat
  lo : Nat
  extent : Nat
deriving DecidableEq, Repr, Inhabited

/-- An entry of the command table (R50, R51) with what the engine keeps beside its 32 bytes: the data in its cells, the
rows allocated, the unit work outstanding, the intervals of R56, whether R37 exempts it from the bound, and the tally of
R436. -/
structure Entry where
  live : Bool
  cap : Capsule
  state : CmdState
  abortPending : Bool
  ended : Bool
  ticket : Nat
  granted : Nat
  tally : Nat
  wait : Wait
  data : Bytes
  wanted : Nat
  digest : Digest
  allocs : List Alloc
  crcs : List (List (List Nat))
  unitsOut : List UnitIo
  readsOut : List UnitIo
  got : List UnitIo
  /-- the parts a read returns, and the units (set, row, unit) that failed their check -/
  segs : List Seg
  bad : List (Nat × Nat × Nat)
  status : Status
  dw0 : Nat
  hostIv : Nat
  hostStart : Nat
  driveIv : Nat
  driveStart : Nat
  exempt : Bool
  /-- strict mode stood when the command was granted (R101, R124) -/
  strict : Bool
  /-- the source leaf hash of a migrated object (R188) -/
  link : Option Digest
  /-- the set and the extent that an entry of reclamation copies (R153) -/
  moves : Option (Nat × Nat)
  /-- GTS at which read data began to leave, 0 before (R56) -/
  outGts : Nat
  /-- the cells of the RDMA payload fetched so far (R36, R253) -/
  cells : List Nat
deriving DecidableEq, Repr, Inhabited

/-- A capsule slot with a capsule in it: the command it holds and its cells (R104). -/
structure CapSlot where
  cntlid : Nat
  sqid : Nat
  cid : Nat
  cells : List Nat
deriving DecidableEq, Repr, Inhabited

/-- A controller (R46, R69 to R71). `state` is the code of R69: 0 DISABLED, 1 ENABLING, 2 READY, 3 SHUTTING,
4 SHUTDOWN, 5 DISABLING; a DELETED controller is not listed. -/
structure Controller where
  exists_ : Bool
  host : Nat
  fn : Option Nat
  state : Nat
  cc : Nat
  le : Bool
  ld : Bool
  shst : Nat
  cfs : Bool
  kato : Nat
  kaStart : Nat
  queues : Nat
  pm : Nat
  features : Tab Nat
  aers : List Nat
  notices : List Nat
deriving DecidableEq, Repr, Inhabited

/-- An admin or I/O queue of a controller (R46, R52). For a PCIe queue `conn` is 0 and `cq` names the completion queue
(R318, R328). -/
structure Queue where
  exists_ : Bool
  size : Nat
  cls : Nat
  port : Nat
  conn : Nat
  pcie : Bool
  cq : Nat
deriving DecidableEq, Repr, Inhabited

/-- A namespace record of R159, with its ANA state (R49): 0 Optimized, 1 Inaccessible, 2 Persistent Loss. -/
structure Namespace where
  valid : Bool
  kv : Bool
  geom : Nat
  cipher : Bool
  lbaShift : Nat
  tenant : Nat
  keyGen : Nat
  capacity : Nat
  nguid : Bytes
  ana : Nat
  cutover : Bool
deriving DecidableEq, Repr, Inhabited

/-- An entry of the image's class map (R52). -/
structure ClassMap where
  host : Nat
  first : Nat
  last : Nat
  cls : Nat
deriving DecidableEq, Repr, Inhabited

/-- The arbiter of a logical port (R53, R54): the credits of classes 1 to 3 left in the round, the BURST the round began with
(R81), the queue last served in each class with the grants it took in the visit, and the
class 0 bucket in units of 1/8,000,000 byte. -/
structure Arbiter where
  credits : Tab Nat
  lastQueue : Tab Nat
  visit : Tab Nat
  turn : Nat
  burst : Nat
  used : Nat
  refilled : Nat
deriving DecidableEq, Repr, Inhabited

/-- The activation of R72: step 0 when idle. `reply` names the port, session and SEQ that wait for the response of R381;
`staged` is the image or firmware that step 4 applies. -/
structure Activation where
  step : Nat
  kind : Nat
  slot : Nat
  result : Nat
  stopGts : Nat
  stopUs : Nat
  reply : Option (Nat × Nat × Nat)
  staged : Bytes
deriving DecidableEq, Repr, Inhabited

/-- What a device self-test covers (R78): known-answer tests of the cipher and the layout lanes, a march test of one buffer
bank, the health of every drive, the journal's head, 1% of the stripes (of one namespace, or of all with 0xFFFFFFFF), and the
compare of the extent map with its checkpoint. -/
inductive TestItem where
  | cipherLanes | layoutLanes | march (bank : Nat) | driveHealth | journalHead | stripes (nsid : Nat) | mapCompare
deriving DecidableEq, Repr, Inhabited

/-- A device self-test (R78, R79) with what it covers, the bank whose turn the next march test is, and the log page 0x06 as a
list of test code and result, latest first. -/
structure SelfTest where
  code : Nat
  cntlid : Nat
  nsid : Nat
  items : List TestItem
  bank : Nat
  log : List (Nat × Nat)
deriving DecidableEq, Repr, Inhabited

/-- The command engine's state. -/
structure Cmd where
  ctrls : Tab Controller
  queues : Tab Queue
  namespaces : Tab Namespace
  hostNqns : List Bytes
  classMap : List ClassMap
  lastCntlid : Nat
  queued : List Capsule
  /-- the cells of the capsules held in queue slots and entries (R104) -/
  slots : List CapSlot
  table : Tab Entry
  arbiters : Tab Arbiter
  act : Activation
  boundStat : Nat
  ps : Nat
  exiting : Bool
  idleFrom : Nat
  test : SelfTest
  /-- the ANA changes that log page 0x0C counts (R49) -/
  anaChanges : Nat
deriving DecidableEq, Repr, Inhabited

end Sys2Proof.Machine
end

