-- ==== Sys2Proof/Machine/State/Fix.lean ====
section
/-! DEFINITION. State of the fixity engine: chapter 05. -/

namespace Sys2Proof.Machine

/-- A leaf (R168). `key` is the key, or the first LBA as 8 little-endian bytes. -/
structure Leaf where
  typ : Nat
  keyLen : Nat
  lbaShift : Nat
  nsid : Nat
  length : Nat
  key : Bytes
  extent : Nat
  jseq : Nat
  gts : Nat
  digest : Digest
  link : Digest
deriving DecidableEq, Repr, Inhabited

/-- A batch (R169 to R175). `leaves` have their index; `fresh` follow them in the order of R170, which later leaves may
still enter. `seq`, `statement` and `closedGts` are set when it closes, `seed` is what its signature is randomised with, if anything (R310), and
`object` the statement, public key and signature once it is signed. `written` counts the leaf chunks written so far (R176). -/
structure Batch where
  start : Nat
  stop : Nat
  leaves : List Leaf
  fresh : List Leaf
  early : Bool
  late : Bool
  seq : Nat
  statement : Bytes
  rotation : Nat
  seed : Option Nat
  object : Bytes
  closedGts : Nat
  written : Nat
deriving DecidableEq, Repr, Inhabited

/-- An object of a migration (R182): a live map entry of the source namespace, or a removal. -/
structure MigObj where
  jseq : Nat
  extent : Nat
  kv : Bool
  key : Bytes
  start : Nat
  length : Nat
  removed : Bool
  retries : Nat
  forced : Bool
deriving DecidableEq, Repr, Inhabited

/-- A window in flight (R182, R186): its number, its trigger entry, its landing region and its objects in entry order. -/
structure MigWindow where
  number : Nat
  trigger : Nat
  region : Nat
  objs : List MigObj
deriving DecidableEq, Repr, Inhabited

/-- A migration job (R182, R192). `state` is the code of FIX_MIG_STAT. `todo` are the objects of the pass not planned yet,
`passJseq` the JSEQ up to which the pass goes, `counted` whether its end has been counted in `pass`, `report` the objects
failed. -/
structure MigJob where
  state : Nat
  target : Bool
  uid : Nat
  nsid : Nat
  peerNsid : Nat
  qpn : Nat
  page : Nat
  handle : Nat
  regions : List Landing
  pass : Nat
  counted : Bool
  passJseq : Nat
  todo : List MigObj
  windows : List MigWindow
  windowNext : Nat
  failed : Nat
  objs : Nat
  ordered : Bool
  cutoverMs : Nat
  report : List MigObj
deriving DecidableEq, Repr, Inhabited

/-- The fixity engine's state. The open batches stand oldest first; so do the closed and the sealed ones. `closedTo` is
the END_GTS of the last batch closed. `periodQs` is the period in force, and `nextQs` the one from GTS `nextFrom` on
(R169). While leaves are recomputed, those of records below `replayTo` are (R177). `custody` holds the custody records and
bundles of the fixity store by key (R176), `custodyWait` the LINK and record of each whose leaf has no index yet, and
`storeWait` the writes and removals of the store that wait for the journal (R140). -/
structure Fix where
  opened : List Batch
  closed : List Batch
  sealed : List Batch
  lastSeq : Nat
  prevHash : Digest
  closedTo : Nat
  periodQs : Nat
  nextQs : Nat
  nextFrom : Nat
  recomputing : Bool
  replayTo : Nat
  custody : List (Bytes × Bytes)
  custodyWait : List (Digest × Bytes)
  storeWait : List (Bytes × Option Bytes)
  audited : List Nat
  suspects : List Nat
  jobs : Tab MigJob
  /-- manifests delivered to firmware: the connection and the payload -/
  received : List (Nat × Bytes)
deriving DecidableEq, Repr, Inhabited

end Sys2Proof.Machine
end

