-- ==== Sys2Proof/Machine/State/Lay.lean ====
section
/-! DEFINITION. State of the layout engine: chapter 04. -/

namespace Sys2Proof.Machine

/-- A geometry (R125); k is 0 where the image defines none. -/
structure Geometry where
  k : Nat
  m : Nat
  uShift : Nat
deriving DecidableEq, Repr, Inhabited

/-- A member of a set (R131): the slot of its drive in the drive table, its chunk, and whether it is lost. -/
structure Member where
  slot : Nat
  chunk : Nat
  lost : Bool
deriving DecidableEq, Repr, Inhabited

/-- What is known of a row (R157): its stripe header's fields, common to its units, and its unit CRCs in unit order. -/
structure RowInfo where
  dataUnits : Nat
  extent : Nat
  rowInExtent : Nat
  rowBytes : Nat
  unitCrcs : List Nat
  jseq : Nat
  commitGts : Nat
  suspect : Bool
deriving DecidableEq, Repr, Inhabited

/-- The states of a set (R133), with the codes of R159. -/
inductive SetState where
  | free | opened | sealing | sealed | reclaiming
deriving DecidableEq, Repr, Inhabited

/-- A set (R131 to R134). -/
structure SetRec where
  state : SetState
  gen : Nat
  geom : Nat
  nsid : Nat
  rowsUsed : Nat
  members : List Member
  reason : Nat
  uncommitted : Nat
  lastWrite : Nat
  sealSent : Bool
  sealDurable : Bool
  rows : Tab RowInfo
deriving DecidableEq, Repr, Inhabited

/-- A drive of the drive table (R150, R155, R164), kept under the slot it stands in, or under a number from 48 on while it is
absent and another drive stands in its slot: its place in the drive table of the checkpoint, and STATE as LAY_DRIVE_STATE.
`joining` marks a drive whose checkpoint is not durable yet. -/
structure Drive where
  index : Nat
  uuid : Nat
  state : Nat
  lbaCount : Nat
  chunkCount : Nat
  used : List Nat
  joining : Bool
  sbGen : Nat
  foreign : Bool
deriving DecidableEq, Repr, Inhabited

/-- An entry of the extent map (R142, R159). A removal is kept as an entry with `removed` until no record with a lower
JSEQ can commit any more (R139). -/
structure MapEntry where
  nsid : Nat
  kv : Bool
  key : Bytes
  start : Nat
  length : Nat
  set : Nat
  firstRow : Nat
  offset : Nat
  extent : Nat
  jseq : Nat
  empty : Bool
  removed : Bool
deriving DecidableEq, Repr, Inhabited

/-- A copy of a journal record: its drive, whether its write has completed, its first block in the ring and the blocks of
the pad record before it (R137, R158). -/
structure JCopy where
  slot : Nat
  done : Bool
  pos : Nat
  pad : Nat
deriving DecidableEq, Repr, Inhabited

/-- A journal record that is not retired (R137 to R140). `copies` lists the drives with a copy and whether the copy has
completed; `setRec` is the set record of
type 4 as (SET_ID, live rows, the set); `owner` is the command-table entry it commits, or none. -/
structure JRec where
  jseq : Nat
  typ : Nat
  blocks : Nat
  gts : Nat
  nsid : Nat
  copies : List JCopy
  sets : List Nat
  entries : List MapEntry
  runs : List Alloc
  crcs : List Nat
  setRec : Option (Nat × Nat × SetRec)
  owner : Option Nat
  committed : Bool
  votes : List (Nat × Nat)
deriving DecidableEq, Repr, Inhabited

/-- What a checkpoint holds that journal records change (R143): the map, the sets and NEXT_EXTENT_ID, as they stand after every
record up to a JSEQ and none after it. -/
structure Tables where
  map : List MapEntry
  sets : Tab SetRec
  extentNext : Nat
deriving DecidableEq, Repr, Inhabited

/-- A checkpoint in progress (R143, R144), and the durable one. `image` is what every copy of the one in progress holds,
`next` its tables, and `base` the tables of the durable one. -/
structure Checkpoint where
  busy : Bool
  gen : Nat
  regionB : Bool
  jseq : Nat
  startGts : Nat
  pendingSlots : List Nat
  doneSlots : List Nat
  forDrives : List Nat
  image : Bytes
  next : Tables
  base : Tables
  durableGen : Nat
  durableJseq : Nat
  lastS : Nat
deriving DecidableEq, Repr, Inhabited

/-- The rebuild of lost drives (R147, R148): the drives whose rebuild has started with the sets rebuilt for each, the set
at work with its lost member's index and the replacement, whether its units are written and its record submitted, the sets
that wait for a chunk, and the rows done, by namespace. -/
structure Rebuild where
  started : List Nat
  doneBy : Tab Nat
  target : Option (Nat × Nat × Member)
  written : Bool
  waiting : Nat
  doneRows : Tab Nat
deriving DecidableEq, Repr, Inhabited

/-- A slice at work on a layout lane (R130). -/
structure Slice where
  entry : Nat
  index : Nat
  decode : Bool
deriving DecidableEq, Repr, Inhabited

/-- The layout engine's state. `scrubSet` is the set whose rows scrub is reading; the rows scrubbed and the units repaired are
counted by namespace; `replayEnded` tells that the shelf's state is known (R141, R494). -/
structure Lay where
  geoms : Tab Geometry
  sets : Tab SetRec
  drives : Tab Drive
  map : List MapEntry
  jseqNext : Nat
  extentNext : Nat
  journal : List JRec
  throttle : Bool
  full : Bool
  ckpt : Checkpoint
  rebuild : Rebuild
  lanes : Tab Slice
  laneQueue : List Slice
  repairs : List (Nat × Nat × Nat)
  scrubStart : Nat
  scrubSet : Option Nat
  scrubRows : Tab Nat
  scrubRepairs : Tab Nat
  replayEnded : Bool
  ringPos : Tab Nat
  waitingJournal : List Nat
  deferred : List JRec
deriving DecidableEq, Repr, Inhabited

end Sys2Proof.Machine
end

