-- ==== Sys2Proof/Machine/State/Xpt.lean ====
section
/-! DEFINITION. State of the transport: chapter 03. -/

namespace Sys2Proof.Machine

/-- A RoCEv2 message or packet the transport sends on a connection (R83). PSNs are those of the first packet.
The last packet of a Send, a Write and a Read Request asks for an acknowledgement (R101; notes/assumptions/90.md). -/
inductive Packet where
  /-- an acknowledgement with the PSN of the latest packet received in sequence, and the MSN (R95) -/
  | ack (psn msn : Nat)
  /-- NAK PSN Sequence Error carrying EPSN (R94) -/
  | nakSequence (psn : Nat)
  /-- NAK Invalid Request (R84) -/
  | nakInvalid (psn : Nat)
  /-- NAK Remote Access Error (R112) -/
  | nakAccess (psn : Nat)
  /-- RNR NAK with the RNR timer field (R104) -/
  | nakRnr (psn timer : Nat)
  /-- a congestion notification (R110) -/
  | cnp
  /-- a Send, with immediate data or the key it invalidates (R105) -/
  | send (psn : Nat) (payload : Bytes) (imm : Option Nat) (invalidates : Option Nat)
  /-- an RDMA Write, with immediate data -/
  | write (psn va rkey : Nat) (data : Bytes) (imm : Option Nat)
  /-- an RDMA Read Request -/
  | readRequest (psn va rkey len : Nat)
  /-- the responses to an RDMA Read Request of a peer, from a PSN on, with the data they carry (R83, R100) -/
  | readResponse (psn : Nat) (data : Bytes)
  /-- the response capsule of a command, with the key it invalidates (R105) -/
  | response (psn cid : Nat) (status : Status) (dw0 : Nat) (invalidates : Option Nat)
  /-- further packets of a message that pacing held back, from a PSN on (R106) -/
  | more (psn : Nat)
  /-- the resend by go-back-N of every packet from a PSN (R96) -/
  | resend (psn : Nat)
deriving DecidableEq, Repr, Inhabited

/-- A message posted on a connection (R98): its PSNs are taken when its first packet leaves. `len` counts the bytes whose
packets take PSNs, `tag` names the command or work request whose data it carries; `data` is whether its packets bear data, and
`own` is false for the responses to a peer's read, which have the peer's PSNs. -/
structure Posted where
  packet : Packet
  len : Nat
  tag : Nat
  data : Bool
  own : Bool
deriving DecidableEq, Repr, Inhabited

/-- A connection context (R88, R89). `state` is the code of R89: 0 FREE, 1 INIT, 2 RTR, 3 RTS, 4 DRAIN, 5 ERROR. Beside
the fields of R88 stand the state the manual keeps apart from the 128 bytes: the read ring (PSN and packet count of each
inbound Read Request with its key, address and length), packets not yet acknowledged (R95), the GTS of the last CNP
(R110), the acknowledgements held by R122, the messages in progress toward the peer, and the pacing bucket (R106). -/
structure Context where
  state : Nat
  class0 : Bool
  trigOnly : Bool
  destQpn : Nat
  pmtu : Nat
  remoteIp : Nat
  remoteMac : Nat
  vlan : Nat
  lport : Nat
  dscp : Nat
  sport : Nat
  tenant : Nat
  cntlid : Nat
  sqid : Nat
  initDepth : Nat
  readsOut : Nat
  spsn : Nat
  retryLeft : Nat
  rnrLeft : Nat
  unaPsn : Nat
  epsn : Nat
  nakSent : Bool
  msn : Nat
  sqHead : Nat
  sqTail : Nat
  rqHead : Nat
  rqTail : Nat
  rate : Nat
  baseRtt : Nat
  lastRtt : Nat
  sampleGts : Nat
  samplePsn : Nat
  sampleOn : Bool
  baseStart : Nat
  lastChange : Nat
  timerGts : Nat
  wRkey : Nat
  wVa : Nat
  wLeft : Nat
  epochSeq : Nat
  readRing : List (Nat × Nat × Nat × Nat × Nat)
  unackedPkts : Nat
  cnpGts : Nat
  cnpSent : Bool
  minRateGts : Nat
  minRateSaid : Bool
  held : Nat
  rnrWait : Bool
  rxBuf : Bytes
  wRegion : Option Nat
  sends : List (Nat × Nat × Nat)
  /-- the messages posted and not yet sent whole, in the order posted (R98), and how many packets of the first have left -/
  work : List Posted
  workSent : Nat
  /-- the messages sent and not yet acknowledged, by their first PSN (R96) -/
  kept : Tab Packet
  /-- the messages, by first PSN, that are ready to be sent again after a takeover and wait for lower PSNs (R363) -/
  resume : List Nat
  /-- the pacing bucket: what it lacks, in units of 1/80 byte, and when it last changed (R106) -/
  paceUsed : Nat
  paceGts : Nat
  /-- XPT_CC_LIMITS.MIN_RATE as it applies since the connection's last sample (R124) -/
  minRate : Nat
  /-- a migration connection, whose messages go to firmware (R85, R184) -/
  migration : Bool
deriving DecidableEq, Repr, Inhabited

/-- A set of the context cache (R91): the contexts cached, most recently used first, with their dirty bit. -/
structure CacheSet where
  ways : List (Nat × Bool)
deriving DecidableEq, Repr, Inhabited

/-- A region of the region table (R111): STATE 0 FREE, 1 VALID, 2 INVALIDATING. -/
structure Region where
  base : Nat
  length : Nat
  key : Nat
  access : Nat
  tenant : Nat
  state : Nat
  straddle : Nat
  applyGts : Nat
  byCtrl : Bool
  /-- the limit of step 4a was reached (R113) -/
  forced : Bool
  /-- connections with a message validated against the region and not yet ended (R113 step 2) -/
  users : List Nat
deriving DecidableEq, Repr, Inhabited

/-- An entry of the trigger table (R116): STATE 0 EMPTY, 1 ARMED, 2 RUNNING, 3 DONE, 4 FAILED. -/
structure Trigger where
  tag : Nat
  qpn : Nat
  state : Nat
  head : Nat
  mbufLen : Nat
  mbuf : Nat
  armGts : Nat
deriving DecidableEq, Repr, Inhabited

/-- A running chain (R117, R120): requests in progress, the index of each within the chain, the next request to start,
and the failure that stopped it. -/
structure Chain where
  running : Bool
  inProgress : List (Nat × Nat)
  next : Option Nat
  index : Nat
  failed : Option (Nat × Nat)
deriving DecidableEq, Repr, Inhabited

/-- The transport's state. -/
structure Xpt where
  ctx : Tab Context
  cache : Tab CacheSet
  victims : List Nat
  fills : List (Nat × Bool)
  misses : Nat
  regions : Tab Region
  invCtrl : Option Nat
  triggers : Tab Trigger
  pool : Tab WorkReq
  chains : Tab Chain
  waiting : List Nat
  migPeers : List Nat
  hbm : Tab Byte
deriving DecidableEq, Repr, Inhabited

end Sys2Proof.Machine
end

