-- ==== Sys2Proof/Machine/State/Leash.lean ====
section
/-! DEFINITION. What crosses the Leash (chapter 11): epoch records with their entries, the objects of a resynchronisation,
and the frames of R345. -/

namespace Sys2Proof.Machine

/-- A controller record (R349): KIND 1 to 3 carry the controller as it now stands, KIND 4 the queue made. -/
inductive CtrlRec where
  | ctrl (kind cntlid : Nat) (c : Controller)
  | queueMade (cntlid qid : Nat) (q : Queue)
  | queueGone (cntlid qid : Nat)
  | gone (cntlid : Nat)
deriving DecidableEq, Repr, Inhabited

/-- A commit record (R349): KIND 1 write committed, 2 remove committed, 3 command ended. -/
structure CommitRec where
  cntlid : Nat
  sqid : Nat
  cid : Nat
  kind : Nat
  jseq : Nat
  rcrc : Nat
  gts : Nat
  extent : Nat
  digest : Digest
  runs : List Alloc
  crcs : List Nat
deriving DecidableEq, Repr, Inhabited

/-- A key record (R349, R368): TYPE, page, handle, generation, namespace or job, and the key wrapped under the pair key;
none where the key was destroyed. -/
structure KeyRec where
  typ : Nat
  tenant : Nat
  handle : Nat
  keyGen : Nat
  nsid : Nat
  wrapped : Option Bytes
deriving DecidableEq, Repr, Inhabited

/-- An epoch record (R348). A delta names a context and holds it as it now stands. -/
structure EpochRec where
  epoch : Nat
  handover : Bool
  role : Nat
  ctrls : List CtrlRec
  caps : List Capsule
  commits : List CommitRec
  deltas : List (Nat × Context)
  leaves : List Leaf
  keys : List KeyRec
deriving DecidableEq, Repr, Inhabited

/-- An object of a resynchronisation (R367). -/
inductive BulkObj where
  | ns (nsid : Nat) (n : Namespace)
  | geom (i : Nat) (g : Geometry)
  | set (id : Nat) (r : SetRec)
  | drive (slot : Nat) (d : Drive)
  | entry (e : MapEntry)
  | ctx (index : Nat) (c : Context)
  | region (i : Nat) (r : Region)
  | ctrl (cntlid : Nat) (c : Controller)
  | queue (key : Nat) (q : Queue)
  | capsule (c : Capsule)
  | leaf (l : Leaf)
  | job (j : Nat) (x : MigJob)
  | key (k : KeyRec)
  | positions (jseqNext extentNext : Nat) (ringPos : Tab Nat) (lastSeq : Nat) (prevHash : Digest) (closedTo : Nat)
deriving DecidableEq, Repr, Inhabited

/-- A frame of the Leash (R345). -/
inductive LeashFrame where
  | idle (gts : Option Nat)
  /-- a fragment of an epoch record, its bytes, and whether it is the last (R345) -/
  | epoch (r : EpochRec) (last : Bool) (part : Bytes)
  | notice (n : Notice)
  | echo (epoch : Nat) (votes : List Vote)
  | probe (about : Nat)
  | probeReply (about misses : Nat) (heel : Bool)
  | join (mode epochUs : Nat) (digest : Digest) (hasKey : Bool)
  | joinReply (epoch : Nat) (refused : Option Nat)
  | fence (role : Nat)
  | takeover (epoch : Nat)
  | handoverDone
  | bulk (epoch : Nat) (objs : List BulkObj)
  | query (kind slot : Nat) (reply : Option Bool)
deriving DecidableEq, Repr, Inhabited

end Sys2Proof.Machine
end

