-- ==== Sys2Proof/Syntax.lean ====
section
/-! DEFINITION. The commands the block takes: one constructor per row of the operation table. -/

namespace Sys2Proof

open Machine
/-- The commands: one constructor per row of the operation table. -/
inductive Instr where
  /-- REGISTER_WRITE (R34): A write on any access path to a register that has no row of its own, applied in ordering-key order within 2 µs. -/
  | registerWrite (path : Fin 5) (session : Nat) (addr : Nat) (value : Word)
  /-- RC_FIELD_READ (R11): A read of a register with an RC field returns the value and clears the field, keeping a setting made in the same cycle. -/
  | rcFieldRead (path : Fin 5) (addr : Nat)
  /-- PAIR_LOW_WORD_READ (R15): A read of the low word of a 64-bit pair copies the high word into the path's snapshot. -/
  | pairLowWordRead (path : Fin 5) (addr : Nat)
  /-- PAIR_HIGH_WORD_READ (R15): A read of the high word of a pair returns the snapshot if the path's last read was that pair's low word, else the live word. -/
  | pairHighWordRead (path : Fin 5) (addr : Nat)
  /-- PAIR_LOW_WORD_WRITE (R16): A write of the low word of a pair is held in the path's staging register. -/
  | pairLowWordWrite (path : Fin 5) (session : Nat) (addr : Nat) (value : Word)
  /-- PAIR_HIGH_WORD_WRITE (R16): A write of the high word of a pair commits both words in one cycle, with the staged or current low word. -/
  | pairHighWordWrite (path : Fin 5) (session : Nat) (addr : Nat) (value : Word)
  /-- ADDR_UNMAPPED (R41): An access to an unmapped offset reads zero or writes nothing, counts in PREFIX_UNMAPPED_COUNT and emits ADDR_UNMAPPED. -/
  | addrUnmapped (path : Fin 5) (addr : Nat) (isWrite : Bool)
  /-- UNSUPPORTED_REQUEST_BAR0 (R8): An access through HEP PF0 BAR0 that is not a single DW with all byte enables completes with Unsupported Request and is not performed. -/
  | unsupportedRequestBar0 (addr : Nat)
  /-- GTS_MEASUREMENT (R26): A time measurement from the selected GTS source adjusts the GTS rate or steps it forward. -/
  | gtsMeasurement (offset : Int)
  /-- GTS_MEASUREMENT_TIMEOUT (R26): No measurement for 8 s unlocks GTS and selects the next source. -/
  | gtsMeasurementTimeout
  /-- PPS_IN_EDGE (R25): A rising edge on PPS_IN aligns GTS to a whole second, using the seconds count from management software. -/
  | ppsInEdge
  /-- PPS_OUT_EDGE (R27): PPS_OUT rises when GTS reaches a whole multiple of 1,000,000,000. -/
  | ppsOutEdge
  /-- EVENT_RECORD (R33): An event record reaches the event router and is held for 1 µs after its GTS. -/
  | eventRecord
  /-- RECORD_RELEASE (R32): At the end of its hold the router releases a record in ordering-key order into its rings and streams. -/
  | recordRelease
  /-- UNIT_FENCED (R35): A detected failure of one of a group of identical units fences it and emits UNIT_FENCED. -/
  | unitFenced (block : Fin 16) (unit : Nat) (reason : Nat) (request : Option (Req × Nat))
  /-- CONTROL_CORE_WATCHDOG (R36): A control core's 10 ms watchdog expires, the core is fenced and its task restarts on another core. -/
  | controlCoreWatchdog (core : Fin 16) (onto : Fin 16) (request : Option (Req × Nat))
  /-- PREFIX_FENCE_ORDER (R43): A management order fences a named unit with reason 0x08, unless refused for the Bone, the unit or the floor. -/
  | prefixFenceOrder (path : Fin 5) (session : Nat) (block : Fin 16) (unit : Nat)
  /-- CONNECT (R46): A Fabrics Connect creates a controller or an I/O queue after the tests of R46. -/
  | connect (conn : Nat) (nqn : Bytes) (qid : Nat) (size : Nat) (cntlid : Nat) (cid : Nat) (kato : Nat)
  /-- PROPERTY_GET (R69): A Property Get returns a controller property such as CSTS.RDY. -/
  | propertyGet (a : Admin) (offset : Nat)
  /-- PROPERTY_SET (R69): A Property Set records controller property fields other than CC.EN and CC.SHN. -/
  | propertySet (a : Admin) (offset : Nat) (value : Nat)
  /-- CC_EN_WRITTEN_1 (R69): A write that sets CC.EN checks CC and enables the controller, or latches the enable while shutting or disabling. -/
  | ccEnWritten1 (cntlid : Nat) (cid : Option Nat) (cc : Nat) (aqa : Nat) (asq : Nat) (acq : Nat)
  /-- CC_EN_WRITTEN_0 (R69): A write that clears CC.EN stops granting and ends the controller's commands, or latches the disable. -/
  | ccEnWritten0 (cntlid : Nat) (cid : Option Nat) (cc : Nat)
  /-- CC_SHN_NORMAL_SHUTDOWN (R69): A write of CC.SHN 01b in READY starts a normal shutdown that drains granted and queued commands. -/
  | ccShnNormalShutdown (cntlid : Nat) (cid : Option Nat) (cc : Nat)
  /-- CC_SHN_ABRUPT_SHUTDOWN (R69): A write of CC.SHN 10b in READY starts an abrupt shutdown that ends the commands. -/
  | ccShnAbruptShutdown (cntlid : Nat) (cid : Option Nat) (cc : Nat)
  /-- DISCONNECT (R69): A Disconnect of the admin queue deletes the controller, and of an I/O queue deletes that queue. -/
  | disconnect (a : Admin) (sqid : Nat)
  /-- IDENTIFY (R45): An Identify returns controller or namespace data such as the parameters of R47 and R68. -/
  | identify (a : Admin) (cns : Nat) (nsid : Nat)
  /-- GET_LOG_PAGE (R162): A Get Log Page returns a log page such as ANA, self-test or vendor page 0xC0. -/
  | getLogPage (a : Admin) (lid : Nat) (nsid : Nat)
  /-- SET_FEATURES (R75): A Set Features stores a feature value such as Power Management, Number of Queues or Arbitration. -/
  | setFeatures (a : Admin) (fid : Nat) (value : Nat)
  /-- GET_FEATURES (R55): A Get Features returns a stored feature value. -/
  | getFeatures (a : Admin) (fid : Nat) (value : Nat)
  /-- KEEP_ALIVE (R71): A Keep Alive restarts the controller's Keep Alive timer. -/
  | keepAlive (a : Admin)
  /-- ABORT (R64): An Abort looks up a command by SQID and CID and aborts it if it has not reached JOURNAL or POSTING. -/
  | abort (a : Admin) (sqid : Nat) (target : Nat) (others : Nat)
  /-- ASYNCHRONOUS_EVENT_REQUEST (R45): An Asynchronous Event Request is held outstanding until an event such as an ANA change completes it. -/
  | asynchronousEventRequest (a : Admin)
  /-- DEVICE_SELF_TEST_SHORT (R78): A Device Self-test with code 0x1 starts the short test. -/
  | deviceSelfTestShort (a : Admin) (nsid : Nat)
  /-- DEVICE_SELF_TEST_EXTENDED (R78): A Device Self-test with code 0x2 starts the extended test. -/
  | deviceSelfTestExtended (a : Admin) (nsid : Nat)
  /-- DEVICE_SELF_TEST_ABORT (R78): A Device Self-test with code 0xF aborts the running test. -/
  | deviceSelfTestAbort (a : Admin)
  /-- READ (R59): An NVM Read capsule is admitted and queued for a grant, then read from the drives and returned by RDMA Write. -/
  | read (h : IoHdr) (slba : Nat) (nlb : Nat) (sgl : List Sgl)
  /-- WRITE (R58): An NVM Write capsule is admitted and queued for a grant, then fetched, encrypted, encoded and journalled. -/
  | write (h : IoHdr) (slba : Nat) (nlb : Nat) (sgl : List Sgl) (inline : Bytes)
  /-- FLUSH (R67): A Flush completes once its entry is checked against writes completed before its submission GTS. -/
  | flush (h : IoHdr)
  /-- COMPARE (R45): An NVM Compare reads the named blocks and compares them with host data. -/
  | compare (h : IoHdr) (slba : Nat) (nlb : Nat) (sgl : List Sgl) (inline : Bytes)
  /-- VERIFY (R53): An NVM Verify reads and checks the named blocks without returning data. -/
  | verify (h : IoHdr) (slba : Nat) (nlb : Nat)
  /-- WRITE_ZEROES (R142): A Write Zeroes removes a block range by a journal record of type 2 so that it reads as zeros. -/
  | writeZeroes (h : IoHdr) (slba : Nat) (nlb : Nat)
  /-- DATASET_MANAGEMENT (R142): A Dataset Management with the deallocate attribute removes block ranges by a type 2 journal record. -/
  | datasetManagement (h : IoHdr) (deallocate : Bool) (ranges : List (Nat × Nat))
  /-- KV_STORE (R48): A Key Value Store writes a value under a key, following the write path. -/
  | kvStore (h : IoHdr) (key : Bytes) (len : Nat) (sgl : List Sgl) (inline : Bytes)
  /-- KV_RETRIEVE (R142): A Key Value Retrieve reads a value, or fails with Key Does Not Exist. -/
  | kvRetrieve (h : IoHdr) (key : Bytes) (bufLen : Nat) (sgl : List Sgl)
  /-- KV_DELETE (R59): A Key Value Delete removes a key by a journal record. -/
  | kvDelete (h : IoHdr) (key : Bytes)
  /-- KV_EXIST (R59): A Key Value Exist reports whether a key has an entry. -/
  | kvExist (h : IoHdr) (key : Bytes)
  /-- KV_LIST (R48): A Key Value List returns keys in ascending byte order up to the host buffer length. -/
  | kvList (h : IoHdr) (key : Bytes) (bufLen : Nat) (sgl : List Sgl)
  /-- KV_FLUSH (R67): A Key Value Flush completes as an NVM Flush does. -/
  | kvFlush (h : IoHdr)
  /-- INVALID_COMMAND_OPCODE (R45): A command with an opcode not accepted completes with Invalid Command Opcode. -/
  | invalidCommandOpcode (a : Admin) (sqid : Nat) (opc : Nat)
  /-- CREATE_IO_SUBMISSION_QUEUE (R318): A PCIe controller creates an I/O submission queue, or fails with Invalid Queue Identifier. -/
  | createIoSubmissionQueue (a : Admin) (qid : Nat) (size : Nat) (cqid : Nat) (contiguous : Bool) (base : Nat)
  /-- CREATE_IO_COMPLETION_QUEUE (R328): A PCIe controller creates an I/O completion queue, or fails with Invalid Queue Identifier or Invalid Interrupt Vector. -/
  | createIoCompletionQueue (a : Admin) (qid : Nat) (size : Nat) (vector : Nat) (interrupts : Bool) (contiguous : Bool)
    (base : Nat)
  /-- ARBITER_GRANT (R54): A port's arbiter grants a queued command, which allocates a command-table entry and starts its work. -/
  | arbiterGrant (port : Fin 65)
  /-- LAST_DATA_CELL_STORED (R51): The last data cell of a write's RDMA Read is stored and the command moves to ENCODING. -/
  | lastDataCellStored (entry : Nat)
  /-- LAST_PARITY_CELL_READY (R51): The last parity cell is ready and DRV submits the units of the write. -/
  | lastParityCellReady (entry : Nat)
  /-- UNIT_WRITE_COMPLETION (R138): A drive completes a unit write; when all have completed the journal record copies are submitted, and a failure rewrites the rows. -/
  | unitWriteCompletion (write : WriteId) (slot : Fin 48) (result : DriveResult)
  /-- DRIVE_READ_COMPLETION (R51): A drive completes a read; units are checked and decoded if needed, then decrypted and returned. -/
  | driveReadCompletion (entry : Nat) (set : Nat) (row : Nat) (unit : Nat) (header : Bytes) (data : Bytes) (result : DriveResult)
  /-- JOURNAL_COMPLETION (R138): A drive completes a journal record copy; the last copy is the commit point of the write. -/
  | journalCompletion (jseq : Nat) (slot : Fin 48) (result : DriveResult)
  /-- RDMA_WRITE_ACKNOWLEDGED (R101): In strict mode the acknowledgement of a read's data Write lets the command build its completion. -/
  | rdmaWriteAcknowledged (entry : Nat)
  /-- COMPLETION_HANDED_TO_XPT (R63): CMD hands a completion to XPT, releases the entry and cells, and measures the class 0 added latency. -/
  | completionHandedToXpt (entry : Nat)
  /-- DRAIN_FINISHED (R70): A controller's shutdown or disable drain finishes and it moves to SHUTDOWN, DISABLED or ENABLING. -/
  | drainFinished (cntlid : Nat)
  /-- KEEP_ALIVE_TIMEOUT (R71): A controller's Keep Alive timer expires and the controller is deleted. -/
  | keepAliveTimeout (cntlid : Nat)
  /-- ACTIVATE_IMAGE (R72): CMD_ACT_CTRL with KIND 1 starts the activation of a profile image and stops all grants. -/
  | activateImage (path : Fin 5) (session : Nat) (value : Word)
  /-- ACTIVATE_FIRMWARE (R72): CMD_ACT_CTRL with KIND 2 starts the activation of a firmware slot and stops all grants. -/
  | activateFirmware (path : Fin 5) (session : Nat) (value : Word)
  /-- ACT_DRAINED (R72): The command table becomes empty during activation and the image or firmware is applied. -/
  | actDrained
  /-- ACT_DEFERRED (R72): The activation drain limit is reached with entries in use; grants resume and the activation is deferred. -/
  | actDeferred
  /-- ACT_DONE (R72): The image or firmware has been applied, grants resume and ACT_DONE is emitted. -/
  | actDone
  /-- BOUND_RESUMED (R72): Every capsule held during activation has completed; ACT clears and BOUND_RESUMED is emitted. -/
  | boundResumed
  /-- IDLE_TIMER_EXPIRY (R75): An idle timer expires and the unit moves one power state deeper. -/
  | idleTimerExpiry
  /-- POWER_STATE_EXIT_DONE (R77): An exit to PS0 completes and commands that arrived during it are served. -/
  | powerStateExitDone
  /-- SELFTEST_DONE (R79): A self-test ends, writes the self-test log and emits SELFTEST_DONE. -/
  | selftestDone (result : Nat) (failed : List (Nat × Nat))
  /-- SELFTEST_TIMEOUT (R79): A short self-test not finished within 2 minutes stops with result 0x8. -/
  | selftestTimeout
  /-- CM_REQ (R85): A connection-management REQ is accepted with a REP and a new context, or rejected. -/
  | cmReq (r : CmReq)
  /-- CM_RTU (R89): An RTU moves a context from RTR to RTS. -/
  | cmRtu (qpn : Nat)
  /-- CM_DREQ (R89): A DREQ moves a context from RTS to DRAIN. -/
  | cmDreq (qpn : Nat)
  /-- CM_DREP (R89): A DREP frees a context in ERROR. -/
  | cmDrep (qpn : Nat)
  /-- CONTEXT_DRAIN_TIMEOUT (R89): 100 ms in DRAIN elapse; DREP is sent, remaining work is flushed and the context is freed. -/
  | contextDrainTimeout (qpn : Nat)
  /-- CONTEXT_ERROR_TIMEOUT (R89): 2 s in ERROR elapse and the context is released. -/
  | contextErrorTimeout (qpn : Nat)
  /-- SEND_RECEIVED (R104): An inbound Send packet lands in a posted buffer or capsule slot, or is answered with an RNR NAK. -/
  | sendReceived (p : Pkt) (last : Bool) (payload : Bytes)
  /-- SEND_WITH_IMMEDIATE_RECEIVED (R118): An inbound Send with Immediate fires a matching trigger entry or is unmatched. -/
  | sendWithImmediateReceived (p : Pkt) (imm : Nat) (payload : Bytes)
  /-- SEND_WITH_INVALIDATE_RECEIVED (R113): An inbound Send with Invalidate starts a remote invalidation when it becomes visible. -/
  | sendWithInvalidateReceived (p : Pkt) (key : Nat) (payload : Bytes)
  /-- RDMA_WRITE_RECEIVED (R112): An inbound RDMA Write packet is validated against its region and placed. -/
  | rdmaWriteReceived (p : Pkt) (reth : Option Reth) (last : Bool) (data : Bytes)
  /-- RDMA_WRITE_WITH_IMMEDIATE_RECEIVED (R97): An inbound RDMA Write with Immediate is placed and delivered once earlier messages are visible. -/
  | rdmaWriteWithImmediateReceived (p : Pkt) (reth : Option Reth) (imm : Nat) (data : Bytes)
  /-- RDMA_READ_REQUEST_RECEIVED (R100): An inbound RDMA Read Request is validated and its responses generated. -/
  | rdmaReadRequestReceived (p : Pkt) (reth : Reth)
  /-- RDMA_READ_RESPONSE_RECEIVED (R99): A response to an RDMA Read issued by XPT lands in cells and frees a read credit. -/
  | rdmaReadResponseReceived (qpn : Nat) (psn : Nat) (ecn : Bool) (data : Bytes)
  /-- ACKNOWLEDGE_RECEIVED (R96): An acknowledgement advances UNA_PSN, restores retry counts and may end a congestion sample. -/
  | acknowledgeReceived (qpn : Nat) (psn : Nat) (ecn : Bool) (ofReads : Bool)
  /-- NAK_PSN_SEQUENCE_ERROR_RECEIVED (R96): A sequence NAK makes the requester resend from the named PSN by go-back-N. -/
  | nakPsnSequenceErrorReceived (qpn : Nat) (psn : Nat)
  /-- RNR_NAK_RECEIVED (R96): An RNR NAK uses one RNR retry and schedules a resend after the named RNR time. -/
  | rnrNakReceived (qpn : Nat) (psn : Nat) (timer : Fin 32)
  /-- NAK_REMOTE_ACCESS_ERROR_RECEIVED (R90): A received Remote Access Error NAK sends the context to ERROR with cause 3. -/
  | nakRemoteAccessErrorReceived (qpn : Nat) (psn : Nat)
  /-- NAK_INVALID_REQUEST_RECEIVED (R90): A received Invalid Request NAK sends the context to ERROR with cause 5. -/
  | nakInvalidRequestReceived (qpn : Nat) (psn : Nat)
  /-- CNP_RECEIVED (R110): A CNP arriving at the unit is handled as a congestion sample of base plus twice the target. -/
  | cnpReceived (qpn : Nat)
  /-- INVALID_OPCODE_PACKET (R84): A packet with an unsupported opcode or not accepted in the context's state is answered with NAK Invalid Request. -/
  | invalidOpcodePacket (p : Pkt) (opcode : Nat)
  /-- ACK_TIMEOUT (R96): The ACK timer expires; the requester resends from UNA_PSN, halves its rate, or enters ERROR when retries are exhausted. -/
  | ackTimeout (qpn : Nat)
  /-- RNR_WAIT_EXPIRY (R96): The RNR time named by an RNR NAK elapses and the requester resends. -/
  | rnrWaitExpiry (qpn : Nat)
  /-- ACK_COALESCING_TIMEOUT (R95): 2 µs after the oldest unacknowledged packet the responder sends a coalesced acknowledgement. -/
  | ackCoalescingTimeout (qpn : Nat)
  /-- CONTEXT_FILL (R91): A context cache miss fill from HBM completes and is verified by its CHECK CRC. -/
  | contextFill (ctx : Nat) (dirty : Bool) (checkOk : Bool)
  /-- VICTIM_WRITE_BACK (R91): A dirty victim context is written back to HBM, freeing a way for a waiting fill. -/
  | victimWriteBack
  /-- XPT_INV_CTRL (R113): A write of a remote key to XPT_INV_CTRL starts the invalidation of its region, or is refused while busy. -/
  | xptInvCtrl (path : Fin 5) (session : Nat) (value : Word)
  /-- INV_LIMIT_REACHED (R113): The invalidation limit passes with straddling messages; their connections enter ERROR with cause 8. -/
  | invLimitReached (region : Nat)
  /-- XPT_CTX_SEL (R124): A write of a QPN copies that context into XPT_CTX_DATA and sets DONE. -/
  | xptCtxSel (path : Fin 5) (session : Nat) (value : Word)
  /-- TRIGGER_ARM (R121): Firmware arms a trigger table entry. -/
  | triggerArm (entry : Fin 16384) (tag : Nat) (qpn : Nat) (head : Nat) (mbufLen : Nat) (mbuf : Nat) (posts : List (Nat × WorkReq))
  /-- TRIGGER_DISARM (R121): Firmware disarms a trigger entry that is not RUNNING. -/
  | triggerDisarm (entry : Fin 16384)
  /-- TRIGGER_RECLAIM (R121): Firmware reclaims a finished trigger entry. -/
  | triggerReclaim (entry : Fin 16384)
  /-- CHAIN_START (R117): A fired trigger that waited for one of the 4,096 running chains starts its chain. -/
  | chainStart
  /-- WORK_REQUEST_COMPLETION (R120): A chained work request completes or fails and the chain continues, ends or fails. -/
  | workRequestCompletion (chain : Fin 16384) (wr : Nat) (status : Fin 8)
  /-- WR_RDMA_WRITE (R117): A chained work request 0x01 issues an RDMA Write. -/
  | wrRdmaWrite (chain : Fin 16384)
  /-- WR_RDMA_WRITE_WITH_IMMEDIATE (R117): A chained work request 0x02 issues an RDMA Write with Immediate. -/
  | wrRdmaWriteWithImmediate (chain : Fin 16384)
  /-- WR_SEND (R117): A chained work request 0x03 issues a Send carrying IMM. -/
  | wrSend (chain : Fin 16384)
  /-- WR_RDMA_READ (R117): A chained work request 0x04 issues an RDMA Read. -/
  | wrRdmaRead (chain : Fin 16384)
  /-- WR_DRIVE_READ (R187): A chained work request 0x10 reads an extent through LAY and delivers plaintext. -/
  | wrDriveRead (chain : Fin 16384)
  /-- WR_DRIVE_WRITE (R188): A chained work request 0x11 writes or removes an object through LAY, completing at its commit point. -/
  | wrDriveWrite (chain : Fin 16384)
  /-- WR_DIGEST_CHECK (R187): A chained work request 0x12 has FIX compare a digest, failing with status 4 on mismatch. -/
  | wrDigestCheck (chain : Fin 16384)
  /-- WR_CUSTODY_RECORD (R189): A chained work request 0x13 stores an object's custody record and the window's bundle. -/
  | wrCustodyRecord (chain : Fin 16384)
  /-- WR_ENVELOPE_SEAL (R187): A chained work request 0x14 has CIP seal an object into a GCM envelope. -/
  | wrEnvelopeSeal (chain : Fin 16384)
  /-- WR_ENVELOPE_OPEN (R187): A chained work request 0x15 has CIP open an envelope, releasing plaintext only on a matching tag. -/
  | wrEnvelopeOpen (chain : Fin 16384)
  /-- WR_WAIT_UNTIL_GTS (R117): A chained work request 0x20 starts a wait until a named GTS. -/
  | wrWaitUntilGts (chain : Fin 16384)
  /-- WAIT_GTS_REACHED (R117): The GTS named by a wait request is reached and the request completes. -/
  | waitGtsReached (chain : Fin 16384) (wr : Nat)
  /-- WR_NOTIFY (R117): A chained work request 0x3F notifies firmware. -/
  | wrNotify (chain : Fin 16384)
  /-- LAYOUT_SLICE_DONE (R130): A layout lane finishes an encode or decode slice and checks it, fencing the lane on a mismatch. -/
  | layoutSliceDone (lane : Fin 16) (ok : Bool)
  /-- SEAL_IDLE_TIMEOUT (R133): An OPEN set with no row committed for SEAL_IDLE_S seconds starts sealing. -/
  | sealIdleTimeout (set : Nat)
  /-- SET_SEALED (R133): A sealing set's rows are resolved, headers written and its seal record durable; it becomes SEALED. -/
  | setSealed (set : Nat)
  /-- RECLAIM_DONE (R153): The last live extent of a RECLAIMING set is relocated and its chunks are released. -/
  | reclaimDone (set : Nat) (units : List (Nat × UnitRead))
  /-- JOURNAL_REPLAY_DONE (R494): The journal replay after restart ends, open sets are sealed and each drive of the table is settled. -/
  | journalReplayDone (regions : List (Bool × Bytes)) (tail : List JRec) (headers : List (Nat × Nat × RowInfo)) (store : List (Bytes × Bytes))
  /-- CKPT_INTERVAL (R143): The checkpoint interval elapses and a checkpoint starts. -/
  | ckptInterval
  /-- LAY_CKPT_CTRL_START (R143): A write of START to LAY_CKPT_CTRL starts a checkpoint unless one is busy. -/
  | layCkptCtrlStart (path : Fin 5) (session : Nat) (value : Word)
  /-- CHECKPOINT_WRITE_COMPLETION (R143): A checkpoint copy's write completes; when every trailer completes the checkpoint is durable. -/
  | checkpointWriteCompletion (slot : Fin 48) (result : DriveResult)
  /-- REBUILD_SET_DONE (R147): The rebuild of one set's lost member completes with a membership record of a new generation. -/
  | rebuildSetDone (rows : List (List UnitRead))
  /-- READ_REPAIR (R146): A unit that failed its check on a read is rewritten in place once the background queue admits it. -/
  | readRepair (set : Nat) (row : Nat) (unit : Nat) (units : List UnitRead)
  /-- DRIVE_RETURNED (R150): A returning drive finishes its check, sets take it back and it enters service. -/
  | driveReturned (slot : Fin 48)
  /-- SCRUB_ROW (R151): Scrub reads and checks one used row of a sealed set. -/
  | scrubRow (set : Nat) (row : Nat) (units : List UnitRead)
  /-- LAY_FORMAT_ORDER (R164): A confirmed order formats the drive in a named slot whose state is 0 or 4. -/
  | layFormatOrder (path : Fin 5) (session : Nat) (value : Word)
  /-- BATCH_CLOSED (R170): 10 µs after a batch's END_GTS FIX closes it and forms its statement, unless 64 batches are unsealed. -/
  | batchClosed
  /-- BATCH_SEALED (R174): A batch's statement, signature and leaves are durable and the batch is sealed. -/
  | batchSealed (signMs : Nat)
  /-- LEAVES_RECOMPUTED (R177): Recomputation of leaves after a restart ends and LEAVES_RECOMPUTED is emitted. -/
  | leavesRecomputed (units : List (Nat × Nat × UnitRead))
  /-- FIXITY_AUDIT_OBJECT (R181): The fixity audit reads, decrypts and hashes one live object and compares it with its leaf. -/
  | fixityAuditObject (extent : Nat) (units : List (Nat × Nat × UnitRead))
  /-- MIG_WINDOW_PLANNED (R186): Source firmware plans a window, arms the source chain and sends the PLAN. -/
  | migWindowPlanned (job : Fin 16) (count : Nat) (trigger : Fin 16384) (place : WindowPlace) (units : List (Nat × Nat × UnitRead))
  /-- MANIFEST_PLAN (R186): A received PLAN manifest makes target firmware arm the target chain and send a REQUEST. -/
  | manifestPlan (job : Fin 16) (peerSlot : Fin 16) (window : Nat) (entries : List Bytes) (trigger : Fin 16384) (place : TargetPlace)
  /-- MANIFEST_ACK (R191): A received ACK gives each entry's status and the source replans, retries or fails objects. -/
  | manifestAck (job : Fin 16) (window : Nat) (statuses : List Nat)
  /-- MANIFEST_VOID (R186): A received VOID makes target firmware disarm its chain and reply with an ACK. -/
  | manifestVoid (job : Fin 16) (window : Nat) (statuses : List Nat)
  /-- MANIFEST_FINAL (R192): A received FINAL ends the target's job and makes its namespace Optimized. -/
  | manifestFinal (job : Fin 16)
  /-- MIG_REGIONS_REGISTERED (R192): Landing regions are registered on both sides and the job enters COPYING. -/
  | migRegionsRegistered (job : Fin 16) (regions : List Landing)
  /-- MIG_CUTOVER_ORDER (R192): FIX_MIG_CTRL ORDER 1 orders a cut-over of a job. -/
  | migCutoverOrder (path : Fin 5) (session : Nat) (value : Word)
  /-- MIG_ABORT_ORDER (R192): FIX_MIG_CTRL ORDER 2 aborts a job, disarming its chains. -/
  | migAbortOrder (path : Fin 5) (session : Nat) (value : Word)
  /-- CUTOVER_TIMEOUT (R192): CUTOVER_MS passes without the final pass acknowledged; the job returns to CATCHUP. -/
  | cutoverTimeout (job : Fin 16)
  /-- MIG_CONNECTION_ERROR_TIMEOUT (R192): A job's connection has been in ERROR for 10 s and the job enters FAILED. -/
  | migConnectionErrorTimeout (job : Fin 16)
  /-- PRESENCE_SEATED (R214): Both presence contacts have read low for 50 ms; the slot is seated and its leg starts. -/
  | presenceSeated (slot : Fin 48)
  /-- PRESENCE_REMOVAL (R206): A presence contact reads high; the port ends its commands and returns to EMPTY, and the leg turns off. -/
  | presenceRemoval (slot : Fin 48) (low0 : Bool) (low1 : Bool) (line : Bool)
  /-- PERST_RELEASE_TIMER (R206): 100 ms after power good in RESET, PERST# is released and the port trains. -/
  | perstReleaseTimer (slot : Fin 48)
  /-- DRIVE_LINK_UP (R208): A root port's link comes up and initialisation starts. -/
  | driveLinkUp (slot : Fin 48) (rate : Nat) (width : Nat) (corrected : Nat)
  /-- TRAINING_TIMEOUT (R206): No link within 1 s; the port retries, or after the third attempt fails under R209. -/
  | trainingTimeout (slot : Fin 48)
  /-- DRIVE_ADMIN_COMPLETION (R208): A drive admin command or CSTS.RDY wait completes and initialisation moves to its next step. -/
  | driveAdminCompletion (slot : Fin 48) (facts : DriveFacts)
  /-- INIT_STEP_TIMEOUT (R208): An initialisation step overruns its limit and the drive fails with the step's cause. -/
  | initStepTimeout (slot : Fin 48) (cfs : Bool)
  /-- IO_COMMAND_TIMEOUT (R207): An I/O command to a drive is not completed within IO_TMO_MS and the drive is declared failed. -/
  | ioCommandTimeout (slot : Fin 48)
  /-- ADMIN_COMMAND_TIMEOUT (R207): An admin command to a ready drive is not completed within ADMIN_TMO_MS and the drive fails. -/
  | adminCommandTimeout (slot : Fin 48)
  /-- CONTROLLER_FATAL_STATUS (R207): A drive reports CSTS.CFS and is declared failed. -/
  | controllerFatalStatus (slot : Fin 48)
  /-- DRIVE_LINK_DOWN (R207): A root port's link goes down or reports an uncorrectable error, and the drive fails after failed retraining. -/
  | driveLinkDown (slot : Fin 48) (retrained : Option (Nat × Nat)) (corrected : Nat)
  /-- DMA_FAULT (R198): A drive request to an unmapped window page is refused and the drive is declared failed. -/
  | dmaFault (slot : Fin 48) (start : Nat) (len : Nat)
  /-- PREEMPT_COMPLETION (R212): A reservation preempt completes; after round 1 the other drives are preempted and writes may flow. -/
  | preemptCompletion (slot : Fin 48) (conflict : Bool)
  /-- DRV_PORT_RETRAIN (R218): DRV_PORT_ORDER with ORDER 1 retrains a port. -/
  | drvPortRetrain (path : Fin 5) (session : Nat) (value : Word)
  /-- DRV_PORT_DISABLE (R206): DRV_PORT_ORDER with ORDER 2 disables a port, keeping the leg on. -/
  | drvPortDisable (path : Fin 5) (session : Nat) (value : Word)
  /-- DRV_PORT_ENABLE (R206): DRV_PORT_ORDER with ORDER 3 returns a disabled port to RESET. -/
  | drvPortEnable (path : Fin 5) (session : Nat) (value : Word)
  /-- DRV_PORT_RECOVER (R210): DRV_PORT_ORDER with ORDER 4 starts recovery of a FAILED port. -/
  | drvPortRecover (path : Fin 5) (session : Nat) (value : Word)
  /-- DRV_PWRDIS_ORDER (R215): A confirmed order asserts PWRDIS on a slot for HOLD_MS and handles the port as disabled. -/
  | drvPwrdisOrder (path : Fin 5) (session : Nat) (value : Word)
  /-- PWRDIS_RELEASE (R215): HOLD_MS elapses, PWRDIS is released and the port returns to RESET. -/
  | pwrdisRelease (slot : Fin 48)
  /-- LEG_PG_WAIT_TIMEOUT (R206): The own leg has not asserted power good 100 ms after seating, so DRV queries the partner's leg. -/
  | legPgWaitTimeout (slot : Fin 48)
  /-- SMBUS_POLL (R216): A slot's SMBus poll reads the drive's NVMe-MI basic management data. -/
  | smbusPoll (slot : Fin 48) (reply : Option (Nat × Nat × Nat)) (serial : Option Nat)
  /-- FRAME_RECEIVED (R224): A frame received on a logical port is checked, parsed, looked up in the TCAM and stored, forwarded, handed on or punted. -/
  | frameReceived (lport : Fin 64) (frame : Bytes) (fcsOk : Bool)
  /-- LINK_UP (R221): A logical port's PCS reports link status OK and LINK_UP is emitted. -/
  | linkUp (lport : Fin 64)
  /-- LINK_DOWN (R221): A logical port loses link status and LINK_DOWN is emitted. -/
  | linkDown (lport : Fin 64) (cause : Fin 2) (partialFrame : Bool)
  /-- FEC_DEGRADED (R222): A logical port counts 16 uncorrectable codewords within a second and FEC_DEGRADED is set. -/
  | fecDegraded (lport : Fin 64) (codewords : Nat)
  /-- FEC_DEGRADED_CLEARED (R222): A whole second passes with no uncorrectable codeword and FEC_DEGRADED clears. -/
  | fecDegradedCleared (lport : Fin 64)
  /-- PFC_FRAME_RECEIVED (R227): A received PFC frame pauses or releases the enabled priorities it names. -/
  | pfcFrameReceived (lport : Fin 64) (timers : List (Fin 8 × Nat))
  /-- PFC_PAUSE_EXPIRY (R227): A priority's PFC pause quanta elapse and the priority may send again. -/
  | pfcPauseExpiry (lport : Fin 64) (prio : Fin 8)
  /-- PFC_REFRESH (R228): Every half quanta time PRT resends the PFC frame of a held-off priority. -/
  | pfcRefresh (lport : Fin 64) (prio : Fin 8)
  /-- FRAME_TRANSMITTED (R266): A frame's transmission on a port ends and TMG selects the port's next frame. -/
  | frameTransmitted (lport : Fin 64) (ptp : Option Bytes)
  /-- PRT_TS_CTRL (R232): A write of a logical port moves the oldest transmit time stamp of its FIFO into PRT_TS_DATA. -/
  | prtTsCtrl (path : Fin 5) (session : Nat) (value : Word)
  /-- WAKE_MATCH (R235): A frame in PS4 matching a wake filter is dropped and starts the exit from PS4. -/
  | wakeMatch (lport : Fin 64) (frame : Bytes)
  /-- CLS_RULE_READ (R241): CLS_RULE_CTRL OP 1 reads a TCAM entry into CLS_RULE_DATA. -/
  | clsRuleRead (path : Fin 5) (session : Nat) (value : Word)
  /-- CLS_RULE_WRITE (R241): CLS_RULE_CTRL OP 2 writes a TCAM entry from CLS_RULE_DATA, unless the image lock is set. -/
  | clsRuleWrite (path : Fin 5) (session : Nat) (value : Word)
  /-- CLS_RULE_INVALIDATE (R241): CLS_RULE_CTRL OP 3 invalidates a TCAM entry, unless the image lock is set. -/
  | clsRuleInvalidate (path : Fin 5) (session : Nat) (value : Word)
  /-- BLOODHOUND_PASS (R256): The Bloodhound walks a bank's free list and ownership records and reports corruption, orphans and leaks. -/
  | bloodhoundPass (bank : Fin 64)
  /-- SWC_MC_READ (R263): SWC_MC_SEL OP 1 loads a multicast group into SWC_MC_DATA. -/
  | swcMcRead (path : Fin 5) (session : Nat) (value : Word)
  /-- SWC_MC_WRITE (R263): SWC_MC_SEL OP 2 replaces a multicast group's bitmap and flags together. -/
  | swcMcWrite (path : Fin 5) (session : Nat) (value : Word)
  /-- TMG_Q_READ (R264): TMG_Q_SEL OP 1 loads a queue or node entry into TMG_Q_DATA. -/
  | tmgQRead (path : Fin 5) (session : Nat) (value : Word)
  /-- TMG_Q_WRITE (R267): TMG_Q_SEL OP 2 writes a queue or node entry, refused under the lock or for a move of a non-empty queue. -/
  | tmgQWrite (path : Fin 5) (session : Nat) (value : Word)
  /-- TMG_POL_READ (R268): TMG_POL_SEL OP 1 loads a policer into TMG_POL_DATA. -/
  | tmgPolRead (path : Fin 5) (session : Nat) (value : Word)
  /-- TMG_POL_WRITE (R268): TMG_POL_SEL OP 2 writes a policer whole. -/
  | tmgPolWrite (path : Fin 5) (session : Nat) (value : Word)
  /-- TMG_GATE_READ (R271): TMG_GATE_SEL OP 1 reads a gate entry of the active bank. -/
  | tmgGateRead (path : Fin 5) (session : Nat) (value : Word)
  /-- TMG_GATE_WRITE (R271): TMG_GATE_SEL OP 2 writes a gate entry of the inactive bank, refused while a commit is pending. -/
  | tmgGateWrite (path : Fin 5) (session : Nat) (value : Word)
  /-- TMG_GATE_COMMIT (R271): TMG_GATE_COMMIT with ENABLE set makes the inactive gate bank pending for its time T. -/
  | tmgGateCommit (path : Fin 5) (session : Nat) (value : Word)
  /-- TMG_GATE_STOP (R271): TMG_GATE_COMMIT with ENABLE clear stops the gate list at the end of the running cycle. -/
  | tmgGateStop (path : Fin 5) (session : Nat) (value : Word)
  /-- GATE_SWITCH (R271): A pending gate bank becomes active at time T and GATE_SWITCH is emitted. -/
  | gateSwitch (lport : Fin 64)
  /-- GATE_LIST_STOPPED (R271): A stopped gate list ends at the end of its cycle and every gate opens. -/
  | gateListStopped (lport : Fin 64)
  /-- GATE_ENTRY_END (R270): A gate entry's duration ends and the list moves to its next entry. -/
  | gateEntryEnd (lport : Fin 64)
  /-- TMG_HIST_SEL (R274): A write of a queue copies its histograms into TMG_HIST_DATA and optionally clears them. -/
  | tmgHistSel (path : Fin 5) (session : Nat) (value : Word)
  /-- MEDIA_QUEUE_GRANT (R273): The background media queue's shaper holds enough tokens and a waiting rebuild, repair, scrub or audit I/O proceeds. -/
  | mediaQueueGrant (bytes : Nat)
  /-- CIPHER_REQUEST (R282): A requester submits an XTS or GCM operation, which CIP checks before dispatching its segments. -/
  | cipherRequest (r : CipherReq)
  /-- CIPHER_SEGMENT_DONE (R284): A cipher lane finishes a segment; the last segment completes the operation. -/
  | cipherSegmentDone (lane : Fin 64) (ok : Bool)
  /-- LANE_KNOWN_ANSWER_TEST (R286): A cipher lane's 1 ms known-answer test runs at a segment boundary and fences the lane on failure. -/
  | laneKnownAnswerTest (lane : Fin 64) (ok : Bool)
  /-- KEY_GENERATE (R292): CIP_KEY_ORDER OP 1 generates a migration key. -/
  | keyGenerate (path : Fin 5) (session : Nat) (value : Word)
  /-- KEY_IMPORT (R292): CIP_KEY_ORDER OP 2 imports a wrapped key from the key mailbox. -/
  | keyImport (path : Fin 5) (session : Nat) (value : Word)
  /-- KEY_EXPORT (R292): CIP_KEY_ORDER OP 3 places a wrapped migration key in the mailbox. -/
  | keyExport (path : Fin 5) (session : Nat) (value : Word)
  /-- KEY_DESTROY (R294): CIP_KEY_ORDER OP 4 destroys a key unless it is in use. -/
  | keyDestroy (path : Fin 5) (session : Nat) (value : Word)
  /-- KEY_ESCROW_AGAIN (R297): CIP_KEY_ORDER OP 5 forms escrow blobs afresh for every data key of a page. -/
  | keyEscrowAgain (path : Fin 5) (session : Nat) (value : Word)
  /-- KEY_ORDER_DONE (R292): The key engine completes a key order and reports its result. -/
  | keyOrderDone
  /-- TRU_ROTATE (R303): TRU_ORDER OP 1 makes the next fixity key rotation. -/
  | truRotate (path : Fin 5) (session : Nat) (value : Word)
  /-- TRU_ROLLBACK (R305): TRU_ORDER OP 2 raises the rollback counter unless a slot holds a lower SVN. -/
  | truRollback (path : Fin 5) (session : Nat) (value : Word)
  /-- TRU_ENROL_IMAGE_KEY (R313): TRU_ORDER OP 3 enrols the image key in the mailbox. -/
  | truEnrolImageKey (path : Fin 5) (session : Nat) (value : Word)
  /-- TRU_REMOVE_IMAGE_KEY (R313): TRU_ORDER OP 4 removes an image key unless it signed the active image. -/
  | truRemoveImageKey (path : Fin 5) (session : Nat) (value : Word)
  /-- ENTROPY_FAIL (R310): An entropy health test fails; key generation and sessions are refused and signing turns deterministic. -/
  | entropyFail (test : Fin 2)
  /-- ENTROPY_OK (R310): 1,024 consecutive samples pass; TRU reseeds and restores hedged signing. -/
  | entropyOk
  /-- HE_LINK_UP (R314): The host endpoint link trains and comes up. -/
  | heLinkUp (speed : Nat) (width : Nat) (flit : Bool) (cfg : HostCfg)
  /-- HE_LINK_DOWN (R330): The host endpoint link goes down, acting as a hot reset. -/
  | heLinkDown
  /-- HE_FUNDAMENTAL_RESET (R330): HE_PERST# asserts a fundamental reset of every HEP function. -/
  | heFundamentalReset
  /-- HE_HOT_RESET (R330): A hot reset received by training resets every HEP function. -/
  | heHotReset
  /-- FLR_PF1 (R330): An FLR of PF1 resets PF1 and every VF and clears VF Enable. -/
  | flrPf1
  /-- FLR_VF (R330): An FLR of a VF resets that VF's controller and quarantines its tags. -/
  | flrVf (vf : Fin 64)
  /-- FLR_PF0 (R330): An FLR of PF0 resets PF0 and clears its pair snapshot and staging. -/
  | flrPf0
  /-- FLR_COMPLETE (R331): An FLR completes within 1 ms and the function accepts accesses again. -/
  | flrComplete (fn : Fin 66) (cfg : HostCfg)
  /-- VF_ENABLE (R317): Setting or clearing VF Enable creates the VFs or ends every VF controller. -/
  | vfEnable (numVfs : Nat) (enable : Bool) (cfg : HostCfg)
  /-- BME_CLEARED (R333): Clearing Bus Master Enable stops the function's requests, ends its commands and sets CSTS.CFS. -/
  | bmeCleared (fn : Fin 65)
  /-- SUBMISSION_QUEUE_DOORBELL (R322): A submission doorbell write makes HEP fetch submission entries, or is ignored with an Invalid Doorbell event. -/
  | submissionQueueDoorbell (fn : Fin 65) (qid : Nat) (tail : Nat)
  /-- COMPLETION_QUEUE_DOORBELL (R322): A completion queue head doorbell write frees completion entries, or is ignored if invalid. -/
  | completionQueueDoorbell (fn : Fin 65) (qid : Nat) (head : Nat)
  /-- HOST_READ_COMPLETION (R324): A completion piece for a HEP memory read is placed; the last piece ends the request. -/
  | hostReadCompletion (tag : Fin 1024) (status : CplStatus) (byteCount : Nat) (data : Bytes)
  /-- CPL_TIMEOUT (R325): A HEP read request reaches its completion timeout and ends with an error, or a quarantined tag is held. -/
  | cplTimeout (tag : Fin 1024)
  /-- TAG_HOLD_EXPIRY (R332): A timed-out quarantined tag's hold of one further timeout ends and the tag is freed. -/
  | tagHoldExpiry (tag : Fin 1024)
  /-- MSIX_UNMASK (R329): Unmasking an MSI-X vector or function sends the pending message. -/
  | msixUnmask (fn : Fin 66) (vector : Option Nat)
  /-- PEER_MEMORY_REQUEST (R335): A memory request to the peer aperture is translated through a window and the peer page table, or refused. -/
  | peerMemoryRequest (offset : Nat) (len : Nat) (write : Option Bytes)
  /-- HEP_PWIN_COMMIT (R337): A write of MASK copies the named shadow windows into staging, or is refused as a whole. -/
  | hepPwinCommit (path : Fin 5) (session : Nat) (value : Word)
  /-- PWIN_COMMIT (R336): Staged windows are applied together at the next TLP header boundary. -/
  | pwinCommit
  /-- HEP_PPT_READ (R336): HEP_PPT_SEL OP 1 loads a peer page table entry into HEP_PPT_DATA. -/
  | hepPptRead (path : Fin 5) (session : Nat) (value : Word)
  /-- HEP_PPT_WRITE (R336): HEP_PPT_SEL OP 2 writes a peer page table entry between two TLP headers. -/
  | hepPptWrite (path : Fin 5) (session : Nat) (value : Word)
  /-- LEASH_UP (R343): A Leash link completes training and comes up. -/
  | leashUp (link : Fin 2) (role : Nat)
  /-- LEASH_LOCK_LOST (R343): A Leash link's PCS loses lock and the link goes down. -/
  | leashLockLost (link : Fin 2)
  /-- LEASH_SILENCE (R343): No valid frame is received on a Leash link for 5 µs and the link goes down. -/
  | leashSilence (link : Fin 2)
  /-- LEASH_RESEND_TIMEOUT (R346): ACK_LSEQ has not advanced for 2 µs and the sender resends; after 16 resends the link goes down. -/
  | leashResendTimeout (link : Fin 2)
  /-- IDLE_FRAME_TIMER (R343): 500 ns without sending make a Leash end send an IDLE frame. -/
  | idleFrameTimer (link : Fin 2)
  /-- IDLE_FRAME_RECEIVED (R346): A received IDLE frame carrying the active's GTS disciplines a tracking unit's GTS. -/
  | idleFrameReceived (h : LeashHdr) (gts : Option Nat)
  /-- EPOCH_END (R348): An epoch ends and the active unit forms and sends its epoch record to every peer in HEEL or RESYNC. -/
  | epochEnd
  /-- EPOCH_FRAME_RECEIVED (R352): A received epoch record fragment is collected; a whole record is applied in Heel and echoed with votes. -/
  | epochFrameReceived (h : LeashHdr) (rec_ : Option EpochRec)
  /-- NOTICE_FRAME_RECEIVED (R350): Received outbound notices are stored, and a response notice marks its command complete. -/
  | noticeFrameReceived (h : LeashHdr) (ns : List Notice)
  /-- ECHO_RECEIVED (R354): A follower's ECHO votes are applied and a write commits, or a dissenter is fenced. -/
  | echoReceived (h : LeashHdr) (epoch : Nat) (votes : List Vote)
  /-- VOTE_MISSED (R355): A follower sends no ECHO within two epochs; after three misses it leaves the quorum. -/
  | voteMissed (role : Fin 3)
  /-- EPOCH_MISS (R360): A record deadline passes without the record; after three misses the peer seeks confirmation. -/
  | epochMiss
  /-- PROBE_RECEIVED (R361): A PROBE about a named unit is answered with a PROBE_REPLY carrying the miss count. -/
  | probeReceived (h : LeashHdr) (about : Nat)
  /-- PROBE_REPLY_RECEIVED (R361): A PROBE_REPLY decides between takeover and a link failure. -/
  | probeReplyReceived (h : LeashHdr) (about : Nat) (misses : Nat) (heel : Bool)
  /-- PROBE_TIMEOUT (R361): PROBE_US passes without a reply and the failure is confirmed. -/
  | probeTimeout
  /-- TAKEOVER_REPLAY_DONE (R362): The journal tail is replayed during takeover; grants resume and pending commands are re-executed or answered. -/
  | takeoverReplayDone (tail : List JRec) (ckpt : Option (Nat × Bool × Nat)) (store : List (Bytes × Bytes)) (driveNs : Nat)
  /-- TAKEOVER_DONE (R362): Every retransmitted message is acknowledged, or 1 ms passes; FAILOVER clears. -/
  | takeoverDone
  /-- FENCE_RECEIVED (R357): A CONTROL FENCE from a majority fences the unit. -/
  | fenceReceived (h : LeashHdr) (role : Nat)
  /-- TAKEOVER_RECEIVED (R363): A CONTROL TAKEOVER makes unit C compare its last epoch and resynchronise if it differs. -/
  | takeoverReceived (h : LeashHdr) (epoch : Nat)
  /-- HANDOVER_DONE_RECEIVED (R345): A CONTROL HANDOVER_DONE frame is received from the new active unit. -/
  | handoverDoneReceived (h : LeashHdr)
  /-- JOIN_RECEIVED (R359): A JOIN is accepted with JOIN_REPLY and resynchronisation starts, or refused. -/
  | joinReceived (h : LeashHdr) (mode : Nat) (epochUs : Nat) (digest : Digest) (hasKey : Bool)
  /-- JOIN_REPLY_RECEIVED (R357): A JOIN_REPLY from an active unit moves a joining unit to RESYNC. -/
  | joinReplyReceived (h : LeashHdr) (epoch : Nat) (refused : Option Nat)
  /-- BULK_RECEIVED (R367): A BULK frame of a resynchronisation copies objects into the joiner. -/
  | bulkReceived (h : LeashHdr) (epoch : Nat) (percent : Nat) (last : Bool) (objs : List BulkObj)
  /-- QUERY_RECEIVED (R209): A QUERY about a slot's port or leg, or its reply, is answered or acted on. -/
  | queryReceived (h : LeashHdr) (kind : Nat) (slot : Fin 48) (reply : Option Bool)
  /-- JOIN_TIMER (R357): Every 1 ms a joining unit sends JOIN on every link. -/
  | joinTimer
  /-- JOIN_TIME_EXPIRY (R359): A joining unit A or B hears no active unit within its join time and becomes active. -/
  | joinTimeExpiry
  /-- RESERVATION_CHECK (R365): An active unit with a silent Leash reads the drive reservation and stands down if it lost it. -/
  | reservationCheck (held : Bool)
  /-- RED_ROLE_SWITCH (R366): RED_ROLE_ORDER OP 1 hands the active role to a unit in HEEL after a drain. -/
  | redRoleSwitch (path : Fin 5) (session : Nat) (value : Word)
  /-- RED_ROLE_FENCE (R370): RED_ROLE_ORDER OP 2 fences the target unit. -/
  | redRoleFence (path : Fin 5) (session : Nat) (value : Word)
  /-- RED_ROLE_RELEASE (R357): RED_ROLE_ORDER OP 3 releases the target from FENCED or STOOD_DOWN to JOINING. -/
  | redRoleRelease (path : Fin 5) (session : Nat) (value : Word)
  /-- RED_ROLE_STAND_DOWN (R370): RED_ROLE_ORDER OP 4 stands this active unit down. -/
  | redRoleStandDown (path : Fin 5) (session : Nat) (value : Word)
  /-- HANDOVER (R366): A planned handover's drain finishes; the active unit sends a HANDOVER record and enters HEEL. -/
  | handover
  /-- HANDOVER_DRAIN_LIMIT (R366): The drain limit is reached during a handover; grants resume and the order ends with RESULT 5. -/
  | handoverDrainLimit
  /-- HELLO (R386): A HELLO opens a management session with a WELCOME, or fails with AUTH_FAILED, ENTROPY or SESSION_LIMIT. -/
  | hello (port : Fin 2) (payload : Bytes) (sigOk : Bool)
  /-- PING (R388): PING returns GTS and renews the session and its Bone lease. -/
  | ping (r : Req)
  /-- REG_READ (R388): REG_READ returns 1 to 256 register words. -/
  | regRead (r : Req) (addr count : Nat)
  /-- REG_WRITE (R390): REG_WRITE applies 1 to 256 address and value pairs in list order with one status each. -/
  | regWrite (r : Req) (pairs : List (Nat × Word))
  /-- BONE_ACQUIRE (R394): BONE_ACQUIRE grants the Bone to the session, or fails with BONE_HELD. -/
  | boneAcquire (r : Req) (lease : Nat)
  /-- BONE_RELEASE (R394): BONE_RELEASE frees the Bone held by the session. -/
  | boneRelease (r : Req)
  /-- IMAGE_BEGIN (R380): IMAGE_BEGIN starts storing a profile or firmware into a slot, or is refused. -/
  | imageBegin (r : Req) (kind slot length : Nat)
  /-- IMAGE_DATA (R380): IMAGE_DATA writes up to 8,000 bytes of a store into free MRAM space. -/
  | imageData (r : Req) (offset : Nat) (data : Bytes)
  /-- IMAGE_COMMIT (R380): IMAGE_COMMIT verifies the stored content and switches the slot to it in one word write. -/
  | imageCommit (r : Req)
  /-- PROFILE_ACTIVATE (R381): PROFILE_ACTIVATE verifies a profile, builds it in staging and starts the activation of R72. -/
  | profileActivate (r : Req) (kind slot : Nat)
  /-- PROFILE_ERASE (R380): PROFILE_ERASE frees a profile slot that is not running. -/
  | profileErase (r : Req) (slot : Nat)
  /-- PROFILE_LIST (R388): PROFILE_LIST returns each slot's validity, length, digest and name. -/
  | profileList (r : Req)
  /-- EVENT_SUBSCRIBE (R399): EVENT_SUBSCRIBE binds a ring to the session, or fails with BUSY. -/
  | eventSubscribe (r : Req) (ring : Nat)
  /-- EVENT_ACK (R400): EVENT_ACK frees a ring's records up to a sequence. -/
  | eventAck (r : Req) (ring seq : Nat)
  /-- EVENT_UNSUBSCRIBE (R399): EVENT_UNSUBSCRIBE releases a ring, keeping its unread records. -/
  | eventUnsubscribe (r : Req) (ring : Nat)
  /-- CLOG_READ (R402): CLOG_READ returns up to 500 records of the critical event log. -/
  | clogRead (r : Req) (first count : Nat)
  /-- KEY_PUT (R293): KEY_PUT places a wrapped blob into the key mailbox. -/
  | keyPut (r : Req) (blob : Bytes)
  /-- KEY_GET (R293): KEY_GET returns the blob from the key mailbox. -/
  | keyGet (r : Req)
  /-- ESCROW_COLLECT (R297): ESCROW_COLLECT returns queued escrow blobs. -/
  | escrowCollect (r : Req) (count : Nat)
  /-- RECEIPT_GET (R179): RECEIPT_GET builds and returns the receipt of a leaf of a sealed batch. -/
  | receiptGet (r : Req) (name : LeafName)
  /-- CUSTODY_EXPORT (R190): CUSTODY_EXPORT returns a receipt and its stored custody chain records. -/
  | custodyExport (r : Req) (name : LeafName)
  /-- CERT_GET (R302): CERT_GET returns a device, session or fixity certificate of a rotation. -/
  | certGet (r : Req) (kind rotation : Nat)
  /-- QUOTE (R307): QUOTE returns a signed quote over the nonce and measurements with the session certificate. -/
  | quote (r : Req) (nonce : Bytes)
  /-- MIG_JOB_CREATE (R182): MIG_JOB_CREATE creates a migration job in a job slot and exchanges its items. -/
  | migJobCreate (r : Req) (items : MigItems)
  /-- MIG_JOB_REPORT (R388): MIG_JOB_REPORT returns a job's states, counts and failed objects. -/
  | migJobReport (r : Req) (slot : Nat)
  /-- CELLS_ALLOC (R334): CELLS_ALLOC allocates class 9 chains for peer windows and returns their handles. -/
  | cellsAlloc (r : Req) (pages : Nat)
  /-- CELLS_FREE (R388): CELLS_FREE releases class 9 chains. -/
  | cellsFree (r : Req) (handles : List Nat)
  /-- SESSION_CLOSE (R387): SESSION_CLOSE closes the session, releasing its Bone and rings. -/
  | sessionClose (r : Req)
  /-- BAD_OPCODE (R389): A request with an opcode not in R388, or not served in recovery, is answered BAD_OPCODE. -/
  | badOpcode (r : Req) (opcode : Nat)
  /-- SESSION_IDLE_TIMEOUT (R387): No message arrives for IDLE_S seconds and the session closes. -/
  | sessionIdleTimeout (session : Nat)
  /-- MGMT_LINK_LOSS (R387): A management Ethernet lane loses link and its sessions close. -/
  | mgmtLinkLoss (port : Fin 2)
  /-- EVENT_MESSAGE_RESEND (R400): An event message unacknowledged for 100 ms is sent again with a new SEQ. -/
  | eventMessageResend (ring : Fin 8) (seq : Nat)
  /-- I3C_READ (R391): I3C command 0x01 returns 1 to 16 register words. -/
  | i3cRead (port : Fin 2) (addr count : Nat)
  /-- I3C_WRITE (R391): I3C command 0x02 writes 1 to 16 words, only while the image permits it and never to protected registers. -/
  | i3cWrite (port : Fin 2) (addr : Nat) (words : List Word)
  /-- I3C_STATUS (R391): I3C command 0x03 returns CTL_PATH_STAT of the path. -/
  | i3cStatus (port : Fin 2)
  /-- I3C_COMMISSION (R387): I3C command 0x05 stores a principal's wrap key while COMMISSION is set and page 0 holds no type 5 key. -/
  | i3cCommission (port : Fin 2) (principal : Nat) (key : Bytes)
  /-- STORE_BEGIN (R466): In recovery, I3C command 0x06 starts a store as IMAGE_BEGIN does. -/
  | storeBegin (port : Fin 2) (kind slot length : Nat)
  /-- STORE_DATA (R466): In recovery, I3C command 0x07 writes 1 to 64 words of a store. -/
  | storeData (port : Fin 2) (offset : Nat) (words : List Word)
  /-- STORE_COMMIT (R466): In recovery, I3C command 0x08 commits a store as IMAGE_COMMIT does. -/
  | storeCommit (port : Fin 2)
  /-- I3C_RESTART (R466): In recovery, I3C command 0x09 starts a warm reset with CAUSE 6. -/
  | i3cRestart (port : Fin 2)
  /-- BONE_REQ_ACQUIRE (R394): A PF0 write of CTL_BONE_REQ OP 1 takes the Bone while the image permits it. -/
  | boneReqAcquire (path : Fin 5) (session : Nat) (value : Word)
  /-- BONE_REQ_RELEASE (R394): A PF0 write of CTL_BONE_REQ OP 2 releases the Bone. -/
  | boneReqRelease (path : Fin 5) (session : Nat) (value : Word)
  /-- BONE_REQ_RENEW (R394): A PF0 write of CTL_BONE_REQ OP 3 renews the Bone lease. -/
  | boneReqRenew (path : Fin 5) (session : Nat) (value : Word)
  /-- BONE_EXPIRED (R394): The Bone lease expires and the Bone is freed. -/
  | boneExpired
  /-- CTL_LOCK_SET (R404): A write of 1 to CTL_LOCK.IMAGE_LOCK by the Bone holder locks every RWL field. -/
  | ctlLockSet (path : Fin 5) (session : Nat) (value : Word)
  /-- RING_READER_BIND (R399): A write of CTL_RING_CFG.READER binds PF0 to a free ring or releases it. -/
  | ringReaderBind (path : Fin 5) (session : Nat) (ring : Fin 8) (value : Word)
  /-- RING_READ_SNAPSHOT (R399): A read of CTL_RING_READ word 0 snapshots the oldest record of a PF0 ring. -/
  | ringReadSnapshot (path : Fin 5) (ring : Fin 8)
  /-- RING_READ_REMOVE (R399): A read of CTL_RING_READ word 3 removes the oldest record of a PF0 ring. -/
  | ringReadRemove (path : Fin 5) (ring : Fin 8)
  /-- FAST_TRIP (R412): The fast-trip comparator pulls the gate down and the leg latches at the end of the tick. -/
  | fastTrip (leg : Fin 48)
  /-- FAULT_TIMER_EXPIRY (R411): A leg's fault timer reaches FAULT and the leg latches with cause 1. -/
  | faultTimerExpiry (leg : Fin 48)
  /-- MODEL_TEMPERATURE_LIMIT (R413): A leg's model temperature reaches TJ_LIMIT_C and the leg latches with cause 2. -/
  | modelTemperatureLimit (leg : Fin 48)
  /-- RAMP_TIME_LIMIT (R410): A leg stays in RAMP beyond its time limit and latches with cause 4. -/
  | rampTimeLimit (leg : Fin 48)
  /-- RAMP_COMPLETE (R410): VOUT reaches VIN minus 0.3 V and the leg enters ON with the gate check started. -/
  | rampComplete (leg : Fin 48)
  /-- GATE_CHECK_FAIL (R414): Gate sense fails to exceed VOUT plus 4 V for 2 ms and the leg is fenced. -/
  | gateCheckFail (leg : Fin 48)
  /-- DRAIN_SOURCE_SHORT (R415): VOUT stays at or above 2 V for 10 ms with the gate off and the leg is fenced. -/
  | drainSourceShort (leg : Fin 48)
  /-- LEG_PG (R416): The qualification count reaches QUAL_MS in ON and power good asserts. -/
  | legPg (leg : Fin 48)
  /-- LEG_PG_WITHDRAWN (R416): VOUT stays out of window for 50 µs and power good is withdrawn. -/
  | legPgWithdrawn (leg : Fin 48)
  /-- LEG_DISCHARGED (R418): A leg with a pending start becomes discharged and starts its ramp. -/
  | legDischarged (leg : Fin 48)
  /-- LEG_RETRY (R417): A latched leg meets the retry conditions and restarts. -/
  | legRetry (leg : Fin 48)
  /-- RETRY_COUNT_CLEAR (R417): Power good held for 60 s clears the leg's retry count. -/
  | retryCountClear (leg : Fin 48)
  /-- PWR_LEG_ON_ORDER (R420): PWR_LEG_ORDER OP 1 clears HELD_OFF, the latch and retries and requests a start. -/
  | pwrLegOnOrder (path : Fin 5) (session : Nat) (value : Word)
  /-- PWR_LEG_OFF_ORDER (R420): PWR_LEG_ORDER OP 2 turns the gate off and sets HELD_OFF. -/
  | pwrLegOffOrder (path : Fin 5) (session : Nat) (value : Word)
  /-- FEED_FAULT (R422): A feed leaves its window, carries reverse current or overheats, and its FET turns off. -/
  | feedFault (feed : Fin 4) (cause : Fin 5) (mv : Nat)
  /-- FEED_OK (R422): A faulted feed's conditions all hold again and its FET turns on. -/
  | feedOk (feed : Fin 4)
  /-- SENSOR_POLL (R424): At each poll PWR reads every enabled temperature sensor and evaluates the die thresholds. -/
  | sensorPoll (readings : List (Option Int))
  /-- FAN_FAIL (R426): A fan channel stays below its minimum speed for 2 s and fails. -/
  | fanFail (channel : Fin 12) (rpm : Nat)
  /-- FAN_RECOVERED (R426): A failed fan channel runs at or above its minimum for 2 s and recovers. -/
  | fanRecovered (channel : Fin 12) (rpm : Nat)
  /-- THERM_TRIP (R484): The analog comparator sees 120 °C, drives THERMTRIP# low and holds the in-reset pin states. -/
  | thermTrip
  /-- TEL_SNAP_START (R440): A write of START to TEL_SNAP_CTRL takes a snapshot of every counter at GTS T, or is refused while busy. -/
  | telSnapStart (path : Fin 5) (session : Nat) (value : Word)
  /-- SNAP_DONE (R440): A snapshot is complete, DONE is set and SNAP_DONE is emitted. -/
  | snapDone
  /-- SAMPLER_OVERFLOW (R442): A sampler's down-count reaches zero, reloads and arms a capture. -/
  | samplerOverflow (sampler : Fin 16)
  /-- SAMPLE_CAPTURE_TIMEOUT (R443): No grant arrives within 1 ms of an overflow and the sample is written without an entry. -/
  | sampleCaptureTimeout (sampler : Fin 16)
  /-- SAMPLE_READ_SNAPSHOT (R445): A read of TEL_SAMPLE_READ word 0 snapshots the oldest sample record. -/
  | sampleReadSnapshot (path : Fin 5)
  /-- SAMPLE_READ_REMOVE (R445): A read of TEL_SAMPLE_READ word 15 removes the oldest sample record. -/
  | sampleReadRemove (path : Fin 5)
  /-- TEL_SAMPLER_WRITE (R446): A write to a sampler's COUNTER, EN, PORT_EN or PORT reloads its down-count and discards an armed capture. -/
  | telSamplerWrite (path : Fin 5) (session : Nat) (sampler : Fin 16) (value : Word)
  /-- POWER_ON_RESET (R453): PGOOD[0] rises or VDD_AON falls below its threshold, resetting the whole unit. -/
  | powerOnReset
  /-- FUNDAMENTAL_RESET (R453): SYS_RST# held low for 10 µs or more resets the whole unit. -/
  | fundamentalReset
  /-- POWER_GOOD_LOSS (R451): PGOOD[3:1] falls with SYS_RST# high; pins take reset states and POWER_FAIL is logged. -/
  | powerGoodLoss (pgood : Fin 16)
  /-- WARM_RESET_PIN (R453): WARM_RST# held low for 10 µs or more starts a warm reset of the warm scope. -/
  | warmResetPin
  /-- SYSTEM_WATCHDOG_EXPIRY (R453): The system watchdog is not restarted for 1 s and a warm reset follows. -/
  | systemWatchdogExpiry
  /-- BOOT_START (R457): A reset is released; straps are sampled on a cold boot and the boot sequence starts. -/
  | bootStart (profileSel : Fin 8) (roleSel bootMode : Fin 4) (warmLow : Bool)
  /-- PLL_LOCKED (R457): The PLLs lock and the boot runs its self-test, verification, key store, profile and release steps. -/
  | pllLocked (failing : List (Nat × Nat)) (entropy : Option (Fin 2)) (copies : List (Nat × Bytes × Bytes))
  /-- BOOT_DONE (R457): RED and every seated port settle; the unit runs replay and accepts Connects. -/
  | bootDone
  /-- RECOVERY_RESTART (R465): 100 ms after a successful commit in recovery 3 a warm reset starts with CAUSE 6. -/
  | recoveryRestart
  /-- CLOCK_LOST (R477): A reference clock shows no edge for 1 µs and its lanes or the unit react as R477 gives. -/
  | clockLost (clock : Fin 7)
  /-- CLOCK_PRESENT (R477): A lost clock has shown edges for 1 ms and its lanes retrain. -/
  | clockPresent (clock : Fin 7)
  /-- CONTROL_TICK (R408): At each 5 µs control tick PWR samples every leg and feed, runs the current-limit and fault-timer counts, updates the FET thermal model and adds each feed's energy. -/
  | controlTick (legs : List LegSample) (feeds : List FeedSample) (tach : List (Fin 12 × Nat))
  /-- CORE_CLOCK_EDGE (R434): At every core clock edge TEL advances CYCLES, charges each command-table slot and waiting capsule to its ledger account, and TMG samples the next queue's histograms. -/
  | coreClockEdge (steps : List Nat)
  /-- EPOCH_RECORD_SENT (R351): The last frame of an epoch record leaves on the link to every peer in HEEL, so the record counts as sent and the acknowledgements that R122 held are released. -/
  | epochRecordSent
  /-- INTERRUPT_COALESCING_TIMEOUT (R329): The aggregation time of the Interrupt Coalescing feature runs out and the held interrupt of a completion queue is sent. -/
  | interruptCoalescingTimeout (fn : Fin 65) (vector : Nat)
  /-- MGMT_NEIGHBOUR_DISCOVERY (R383): An IPv6 neighbour discovery frame received on the MA or MB Ethernet lane is answered, and every other non-protocol frame is discarded. -/
  | mgmtNeighbourDiscovery (port : Fin 2) (solicitation : Bool) (target : Bytes)
deriving DecidableEq, Repr, Inhabited

end Sys2Proof
end

