-- ==== Sys2Proof/Decode.lean ====
section
/-! DEFINITION. Commands from words. No row of the operation table has bits: the block's commands arrive as events, register
accesses, messages and frames, whose layouts the meanings read. -/

namespace Sys2Proof

/-- The command that a word spells by the table's bits: none, since no row gives bits (notes/assumptions/1.md). -/
def decodeTableWord (_nbits _w : Nat) : Option Instr := none

end Sys2Proof
end

