-- ==== Sys2Proof/Machine/Codes.lean ====
section
/-! DEFINITION. The codes the specification gives in full: the CRCs of R88, R154 and R233, and the Reed-Solomon code over
GF(2^8) of R127 to R129. -/

namespace Sys2Proof.Machine

/-- One bit of a reflected CRC register. -/
def crcBit (poly r : Nat) : Nat := if r % 2 = 1 then (r / 2) ^^^ poly else r / 2

/-- One byte into a reflected CRC register. -/
def crcByte (poly r : Nat) (b : Byte) : Nat := (List.range 8).foldl (fun x _ => crcBit poly x) (r ^^^ b.toNat)

/-- A reflected 32-bit CRC with initial value and final XOR of all ones. -/
def crcReflected (poly : Nat) (bs : Bytes) : Nat := bs.foldl (crcByte poly) 0xFFFFFFFF ^^^ 0xFFFFFFFF

/-- CRC-32C: polynomial 0x1EDC_6F41, reflected (R154). -/
def crc32c (bs : Bytes) : Nat := crcReflected 0x82F63B78 bs

/-- CRC-32 of the IEEE polynomial 0x04C1_1DB7, reflected (R88, R233). -/
def crc32 (bs : Bytes) : Nat := crcReflected 0xEDB88320 bs

/-- One step of the product of R127: (product, a, b). -/
def gmulStep (x : Nat × Nat × Nat) : Nat × Nat × Nat :=
  let (p, a, b) := x
  let p := if b % 2 = 1 then p ^^^ a else p
  let a := 2 * a
  (p, if bitAt a 8 then a ^^^ 0x11D else a, b / 2)

/-- The product in GF(2^8) with polynomial 0x11D (R127). -/
def gmul (a b : Nat) : Nat := ((List.range 8).foldl (fun x _ => gmulStep x) (0, a % 256, b % 256)).1

/-- The inverse in GF(2^8): the z with gmul x z = 1 (R127); 0 for x = 0, which has none. -/
def ginv (x : Nat) : Nat := ((List.range 256).find? fun z => gmul x z == 1).getD 0

/-- The coefficient a(j, i) = y · (j XOR y)⁻¹ with y = m + i (R127). -/
def coeff (m j i : Nat) : Nat := gmul (m + i) (ginv (j ^^^ (m + i)))

/-- Byte-wise sum (XOR) of two byte strings, the longer one's tail kept. -/
def xorBytes : Bytes → Bytes → Bytes
  | [], bs => bs
  | as, [] => as
  | a :: as, b :: bs => (a ^^^ b) :: xorBytes as bs

/-- A byte string times a constant of GF(2^8). -/
def scaleBytes (c : Nat) (bs : Bytes) : Bytes := bs.map fun b => BitVec.ofNat 8 (gmul c b.toNat)

/-- The sum over i of c_i · d_i. -/
def combine (u : Nat) (cs : List Nat) (ds : List Bytes) : Bytes :=
  (cs.zip ds).foldl (fun acc x => xorBytes acc (scaleBytes x.1 x.2)) (List.replicate u 0)

/-- Parity j of a row's data units of u bytes each; an absent unit counts as u bytes of zero (R127, R128). -/
def parityUnit (m u j : Nat) (ds : List Bytes) : Bytes :=
  combine u ((List.range ds.length).map (coeff m j)) ds

/-- The m parity units of a row. -/
def parities (m u : Nat) (ds : List Bytes) : List Bytes := (List.range m).map fun j => parityUnit m u j ds

/-- The generator row of unit n of a (k, m) code (R129). -/
def genRow (k m n : Nat) : List Nat :=
  if n < k then (List.range k).map fun i => if i = n then 1 else 0
  else (List.range k).map (coeff m (n - k))

/-- A row operation: row minus c times pivot row. -/
def rowSub (c : Nat) (pivot row : List Nat × Bytes) : List Nat × Bytes :=
  ((row.1.zip pivot.1).map fun x => x.1 ^^^ gmul c x.2, xorBytes row.2 (scaleBytes c pivot.2))

/-- One column of the elimination: the rows solved so far and the rows left. -/
def eliminate (st : List (List Nat × Bytes) × List (List Nat × Bytes)) (col : Nat) :
    List (List Nat × Bytes) × List (List Nat × Bytes) :=
  match st.2.find? fun r => r.1.getD col 0 != 0 with
  | none => st
  | some p =>
    let inv := ginv (p.1.getD col 0)
    let p' := (p.1.map (gmul inv), scaleBytes inv p.2)
    let cut := fun r : List Nat × Bytes => rowSub (r.1.getD col 0) p' r
    ((st.1.map cut) ++ [p'], (st.2.erase p).map cut)

/-- The k data units of a row from any k known units, given as (unit number, bytes): the inverse of the k × k matrix of
their generator rows times the bytes (R129). -/
def decodeRow (k m : Nat) (known : List (Nat × Bytes)) : List Bytes :=
  let rows := (known.take k).map fun x => (genRow k m x.1, x.2)
  (((List.range k).foldl eliminate ([], rows)).1).map (·.2)

/-- The syndrome of a whole row: each parity as read against the parity of the data units (R129). -/
def syndromeZero (k m u : Nat) (units : List Bytes) : Bool :=
  parities m u (units.take k) == (units.drop k).take m

/-- ROW_CRC: CRC-32C over the unit CRCs of a row in unit order, each as 4 little-endian bytes (R157). -/
def rowCrc (crcs : List Nat) : Nat := crc32c (crcs.flatMap (leBytes 4))

end Sys2Proof.Machine
end

