-- ==== Sys2Proof/Config.lean ====
section
/-! DEFINITION. What an implementation fixes and the specification leaves open: free values, the standards' functions
the specification only names, and the values fused at manufacture. None of them has a body: a claim holds whatever
they are. -/

namespace Sys2Proof.Config

/-- The n-th free value (a value the specification leaves open, or random): see notes/assumptions/3.md. -/
opaque freeValue : Nat → BitVec 256

/-- What a read beyond the 48 GiB of HBM (R1) returns: the specification gives no value. -/
opaque beyondHbm : Nat → Byte

/-- SHA-256 of FIPS 180-4, which the specification names and does not describe. -/
opaque sha256 : Bytes → Digest

/-- AES-256-XTS of IEEE 1619 on one data unit: byte `i` of the result from the key, the 16-byte tweak and the data. -/
opaque xtsByte : Bytes → Bytes → Bytes → Nat → Byte

/-- The inverse direction of AES-256-XTS. -/
opaque xtsOpenByte : Bytes → Bytes → Bytes → Nat → Byte

/-- A data unit sealed under AES-256-XTS: as long as the data. -/
def xtsSeal (key tweak data : Bytes) : Bytes := (List.range data.length).map (xtsByte key tweak data)

/-- A data unit opened under AES-256-XTS: as long as the data. -/
def xtsOpen (key tweak data : Bytes) : Bytes := (List.range data.length).map (xtsOpenByte key tweak data)

/-- AES-256-GCM (NIST SP 800-38D): byte `i` of the text from the key, the IV and the input; sealing and opening are one
function of the key stream. -/
opaque gcmByte : Bytes → Bytes → Bytes → Nat → Byte

/-- Byte `i` of the GCM tag over the AAD and the ciphertext. -/
opaque gcmTagByte : Bytes → Bytes → Bytes → Bytes → Nat → Byte

/-- A text sealed or opened under AES-256-GCM. -/
def gcmText (key iv data : Bytes) : Bytes := (List.range data.length).map (gcmByte key iv data)

/-- The 16-byte tag of a ciphertext. -/
def gcmTag (key iv aad cipher : Bytes) : Bytes := (List.range 16).map (gcmTagByte key iv aad cipher)

/-- AES key wrap (NIST SP 800-38F, KW): byte `i` of the wrapped form of a key. -/
opaque kwByte : Bytes → Bytes → Nat → Byte

/-- Does a wrapped blob open under a key? -/
opaque kwOk : Bytes → Bytes → Bool

/-- Byte `i` of what a wrapped blob opens to. -/
opaque kwOpenByte : Bytes → Bytes → Nat → Byte

/-- A key wrapped: eight bytes longer. -/
def kwWrap (kek key : Bytes) : Bytes := (List.range (key.length + 8)).map (kwByte kek key)

/-- A wrapped blob opened, or none. -/
def kwOpen (kek blob : Bytes) : Option Bytes :=
  if kwOk kek blob then some ((List.range (blob.length - 8)).map (kwOpenByte kek blob)) else none

/-- The 16-byte record of a trust change whose digest extends M3, from the operation, its argument and GTS (R306): the
specification gives its length and not its layout. -/
opaque trustRecord : Nat → Nat → Nat → Bytes

/-- The device serial (R299). -/
opaque serial : BitVec 128

/-- SHA-256 of the device identity public key (R313). -/
opaque identityKeyHash : Digest

/-- The fixity public key of a shelf and rotation (R299, R300): 64 bytes. -/
opaque fixityKey : Bytes → Nat → BitVec 512

/-- Byte `i` of the hedged SLH-DSA-SHA2-256s signature of a batch statement by the fixity key of a rotation (R174), from the
randomness of the hedge; without it in the deterministic variant (R310). -/
opaque fixitySignatureByte : Bytes → Nat → Option Nat → Nat → Byte

/-- The 29,792 bytes of a batch statement's signature (R174). -/
def fixitySignature (statement : Bytes) (rotation : Nat) (seed : Option Nat) : Bytes :=
  (List.range 29792).map (fixitySignatureByte statement rotation seed)

/-- Byte `i` of the SLH-DSA-SHA2-256s signature of the device identity key over a certificate's body (R300, R301). -/
opaque deviceSignatureByte : Bytes → Nat → Byte

/-- The 29,792 bytes of that signature. -/
def deviceSignature (body : Bytes) : Bytes := (List.range 29792).map (deviceSignatureByte body)

/-- Byte `i` of the SLH-DSA-SHA2-192f signature by the session attestation key of a boot count (R300, R307, R309), from the
randomness of the hedge, if any, and the bytes signed with their context string. -/
opaque sessionSignatureByte : Nat → Option Nat → Bytes → Nat → Byte

/-- The 35,664 bytes of that signature. -/
def sessionSignature (bootCount : Nat) (seed : Option Nat) (m : Bytes) : Bytes :=
  (List.range 35664).map (sessionSignatureByte bootCount seed m)

/-- The store key of the device, under which the MRAM key store holds every key (R290, R299). -/
opaque storeKey : Bytes

/-- The quanta of the PFC frames that the unit sends (R228 gives no value). -/
opaque pfcQuanta : BitVec 16

/-- Does a firmware's signature verify under Abelm's firmware key (R304 step 2)? -/
opaque firmwareOk : Bytes → Bool

/-- The security version that a firmware carries (R304, R305). -/
opaque firmwareSvn : Bytes → Nat

/-- The digest of the boot ROM, which extends M0 (R304). -/
opaque bootRomDigest : Digest

/-- The certificate that Abelm wrote to MRAM at manufacture (R300), and the session attestation public key of a boot count. -/
opaque deviceCertificate : Bytes
opaque sessionPublicKey : Nat → Bytes

/-- PLL_LOSS (R477), which the specification names without a row of its own: event number, source by clock, severity and data
by clock. -/
opaque pllLossEvent : BitVec 12
opaque pllLossSource : Nat → BitVec 12
opaque pllLossSeverity : Fin 5
opaque pllLossData : Nat → BitVec 36

end Sys2Proof.Config
end

