-- ==== Sys2Proof/Machine/RegMap.lean ====
section
/-! DEFINITION. The register map: every register row and field of the blocks' register tables (R42, R81, R124,
R164, R194, R218, R247, R248, R276, R277, R312, R313, R339, R370, R404, R430, R448, R470), with the access code
of R9, the reset value of R14 and the "treated as" limits of R491. Where the elements of an array have different
fields, the array stands as several rows with a stride. The common header of R42 is in `Machine/RegFile.lean`. -/

namespace Sys2Proof.Machine

/-- The access codes of R9. -/
inductive Acc where
  | ro | rw | rws | rwl | rc | w1c | w1s | wo
deriving DecidableEq, Repr, Inhabited

/-- How a written value is treated before it is stored (R491). -/
inductive Treat where
  /-- stored as written -/
  | none
  /-- values below `lo` are treated as `lo`, values above `hi` as `hi` -/
  | clamp (lo hi : Nat)
  /-- values outside `lo` to `hi` are treated as `v` -/
  | other (lo hi v : Nat)
  /-- 0 is treated as `v` -/
  | zeroAs (v : Nat)
deriving DecidableEq, Repr, Inhabited

/-- A field of a register or of each element of an array of registers: the address of element 0, the distance of
the elements, the bits of R6, the access code and the treatment. -/
structure Fld where
  base : Nat
  stride : Nat
  hi : Nat
  lo : Nat
  acc : Acc
  treat : Treat
deriving DecidableEq, Repr, Inhabited

/-- A row of a register table. -/
structure RegRow where
  name : String
  base : Nat
  count : Nat
  stride : Nat
  reset : Nat
  fields : List Fld
deriving DecidableEq, Repr, Inhabited

namespace F

def CTL_CFG_LEASE_S : Fld := ⟨0x00000040, 4, 31, 16, .rwl, (.clamp 1 3600)⟩
def CTL_CFG_IDLE_S : Fld := ⟨0x00000040, 4, 15, 8, .rwl, (.clamp 1 0xFFFFFFFF)⟩
def CTL_CFG_I3C_WRITE : Fld := ⟨0x00000040, 4, 2, 2, .ro, .none⟩
def CTL_CFG_PF0_BONE : Fld := ⟨0x00000040, 4, 1, 1, .ro, .none⟩
def CTL_CFG_COMMISSION : Fld := ⟨0x00000040, 4, 0, 0, .ro, .none⟩
def CTL_LOCK_IMAGE_LOCK : Fld := ⟨0x00000044, 4, 0, 0, .w1s, .none⟩
def CTL_BONE_HELD : Fld := ⟨0x00000048, 4, 31, 31, .ro, .none⟩
def CTL_BONE_PATH : Fld := ⟨0x00000048, 4, 30, 28, .ro, .none⟩
def CTL_BONE_SESSION : Fld := ⟨0x00000048, 4, 15, 0, .ro, .none⟩
def CTL_BONE_LEASE_REMAIN_MS : Fld := ⟨0x0000004C, 4, 31, 0, .ro, .none⟩
def CTL_BONE_REQ_OP : Fld := ⟨0x00000050, 4, 1, 0, .wo, .none⟩
def CTL_GTS_LO_GTS : Fld := ⟨0x00000054, 4, 31, 0, .ro, .none⟩
def CTL_GTS_HI_GTS : Fld := ⟨0x00000058, 4, 31, 0, .ro, .none⟩
def CTL_GTS_STAT_LOCKED : Fld := ⟨0x0000005C, 4, 31, 31, .ro, .none⟩
def CTL_GTS_STAT_SOURCE : Fld := ⟨0x0000005C, 4, 30, 28, .ro, .none⟩
def CTL_GTS_STAT_STEPS : Fld := ⟨0x0000005C, 4, 15, 0, .rc, .none⟩
def CTL_PPS_SEC_LO_SECONDS : Fld := ⟨0x00000060, 4, 31, 0, .rw, .none⟩
def CTL_PPS_SEC_HI_SECONDS : Fld := ⟨0x00000064, 4, 31, 0, .rw, .none⟩
def CTL_PROFILE_STAT_VALID : Fld := ⟨0x00000068, 4, 31, 31, .ro, .none⟩
def CTL_PROFILE_STAT_PINS : Fld := ⟨0x00000068, 4, 26, 24, .ro, .none⟩
def CTL_PROFILE_STAT_SLOT : Fld := ⟨0x00000068, 4, 18, 16, .ro, .none⟩
def CTL_SESSIONS_AUTH_FAILS : Fld := ⟨0x0000006C, 4, 31, 16, .rc, .none⟩
def CTL_SESSIONS_MB : Fld := ⟨0x0000006C, 4, 7, 4, .ro, .none⟩
def CTL_SESSIONS_MA : Fld := ⟨0x0000006C, 4, 3, 0, .ro, .none⟩
def CTL_CONFLICT_COUNT_COUNT : Fld := ⟨0x00000070, 4, 31, 0, .rc, .none⟩
def CTL_CLOG_COUNT_COUNT : Fld := ⟨0x00000074, 4, 31, 0, .ro, .none⟩
def CTL_RESET_STAT_BOOT_MS : Fld := ⟨0x00000078, 4, 31, 16, .ro, .none⟩
def CTL_RESET_STAT_STEP : Fld := ⟨0x00000078, 4, 15, 12, .ro, .none⟩
def CTL_RESET_STAT_FW_SLOT : Fld := ⟨0x00000078, 4, 8, 8, .ro, .none⟩
def CTL_RESET_STAT_RECOVERY : Fld := ⟨0x00000078, 4, 7, 6, .ro, .none⟩
def CTL_RESET_STAT_BOOT_MODE : Fld := ⟨0x00000078, 4, 5, 4, .ro, .none⟩
def CTL_RESET_STAT_CAUSE : Fld := ⟨0x00000078, 4, 3, 0, .ro, .none⟩
def CTL_PROFILE_INFO_VALID : Fld := ⟨0x00000100, 4, 31, 31, .ro, .none⟩
def CTL_PROFILE_INFO_RUNNING : Fld := ⟨0x00000100, 4, 30, 30, .ro, .none⟩
def CTL_PROFILE_INFO_STORING : Fld := ⟨0x00000100, 4, 29, 29, .ro, .none⟩
def CTL_PROFILE_INFO_LENGTH_KIB : Fld := ⟨0x00000100, 4, 13, 0, .ro, .none⟩
def CTL_PATH_STAT_NOT_HOLDER : Fld := ⟨0x00000140, 4, 31, 31, .w1c, .none⟩
def CTL_PATH_STAT_LOCKED : Fld := ⟨0x00000140, 4, 30, 30, .w1c, .none⟩
def CTL_PATH_STAT_NO_RIGHT : Fld := ⟨0x00000140, 4, 29, 29, .w1c, .none⟩
def CTL_PATH_STAT_TAG_FAIL : Fld := ⟨0x00000140, 4, 28, 28, .w1c, .none⟩
def CTL_PATH_STAT_CONFLICT : Fld := ⟨0x00000140, 4, 27, 27, .w1c, .none⟩
def CTL_PATH_STAT_REFUSED : Fld := ⟨0x00000140, 4, 15, 0, .rc, .none⟩
def CTL_RING_CFG_READER : Fld := ⟨0x00000200, 4, 31, 30, .rw, .none⟩
def CTL_RING_CFG_IBI_MA : Fld := ⟨0x00000200, 4, 29, 29, .rwl, .none⟩
def CTL_RING_CFG_SIZE_LOG2 : Fld := ⟨0x00000200, 4, 28, 24, .rwl, (.clamp 10 20)⟩
def CTL_RING_CFG_IBI_MB : Fld := ⟨0x00000200, 4, 23, 23, .rwl, .none⟩
def CTL_RING_CFG_MIN_SEV : Fld := ⟨0x00000200, 4, 18, 16, .rwl, .none⟩
def CTL_RING_CFG_SESSION : Fld := ⟨0x00000200, 4, 15, 0, .ro, .none⟩
def CTL_RING_STAT_DROPPED : Fld := ⟨0x00000240, 4, 31, 24, .rc, .none⟩
def CTL_RING_STAT_QUEUED : Fld := ⟨0x00000240, 4, 20, 0, .ro, .none⟩
def CTL_RING_READ_DATA : Fld := ⟨0x00000280, 4, 31, 0, .ro, .none⟩
def CTL_CONFLICT_LOG0_FIRST_PATH : Fld := ⟨0x00000300, 16, 31, 29, .ro, .none⟩
def CTL_CONFLICT_LOG0_SECOND_PATH : Fld := ⟨0x00000300, 16, 28, 26, .ro, .none⟩
def CTL_CONFLICT_LOG0_ADDR : Fld := ⟨0x00000300, 16, 25, 0, .ro, .none⟩
def CTL_CONFLICT_LOG1_FIRST_VALUE : Fld := ⟨0x00000304, 16, 31, 0, .ro, .none⟩
def CTL_CONFLICT_LOG2_SECOND_VALUE : Fld := ⟨0x00000308, 16, 31, 0, .ro, .none⟩
def CTL_CONFLICT_LOG3_GTS_LOW : Fld := ⟨0x0000030C, 16, 31, 0, .ro, .none⟩
def PRT_WAKE_CFG_B_EN : Fld := ⟨0x01000040, 4, 12, 12, .rwl, .none⟩
def PRT_WAKE_CFG_PORT_B : Fld := ⟨0x01000040, 4, 11, 8, .rwl, .none⟩
def PRT_WAKE_CFG_A_EN : Fld := ⟨0x01000040, 4, 4, 4, .rwl, .none⟩
def PRT_WAKE_CFG_PORT_A : Fld := ⟨0x01000040, 4, 3, 0, .rwl, .none⟩
def PRT_PTP_CFG_DOMAIN : Fld := ⟨0x01000044, 4, 31, 24, .rwl, .none⟩
def PRT_PTP_CFG_TRANSPORT : Fld := ⟨0x01000044, 4, 9, 8, .rwl, (.other 0 2 0)⟩
def PRT_PTP_CFG_ONE_STEP : Fld := ⟨0x01000044, 4, 7, 7, .rwl, .none⟩
def PRT_PTP_CFG_ENABLE : Fld := ⟨0x01000044, 4, 6, 6, .rwl, .none⟩
def PRT_PTP_CFG_LPORT : Fld := ⟨0x01000044, 4, 5, 0, .rwl, .none⟩
def PRT_TS_CTRL_DONE : Fld := ⟨0x01000048, 4, 31, 31, .ro, .none⟩
def PRT_TS_CTRL_EMPTY : Fld := ⟨0x01000048, 4, 30, 30, .ro, .none⟩
def PRT_TS_CTRL_LPORT : Fld := ⟨0x01000048, 4, 5, 0, .wo, .none⟩
def PRT_TS_DATA_GTS : Fld := ⟨0x01000050, 4, 31, 0, .ro, .none⟩
def PRT_TS_DATA2_SEQ_ID : Fld := ⟨0x01000058, 4, 31, 16, .ro, .none⟩
def PRT_TS_DATA2_MSG_TYPE : Fld := ⟨0x01000058, 4, 15, 12, .ro, .none⟩
def PRT_TS_DATA2_DOMAIN : Fld := ⟨0x01000058, 4, 7, 0, .ro, .none⟩
def PRT_TS_DATA3_VALID : Fld := ⟨0x0100005C, 4, 31, 31, .ro, .none⟩
def PRT_TS_DATA3_LPORT : Fld := ⟨0x0100005C, 4, 5, 0, .ro, .none⟩
def PRT_PORT_CFG_AN_EN : Fld := ⟨0x01000100, 4, 8, 8, .ro, .none⟩
def PRT_PORT_CFG_INTF : Fld := ⟨0x01000100, 4, 5, 4, .ro, .none⟩
def PRT_PORT_CFG_MODE : Fld := ⟨0x01000100, 4, 2, 0, .ro, .none⟩
def PRT_LPORT_CFG_ASYM_NS : Fld := ⟨0x01000200, 4, 31, 24, .rwl, .none⟩
def PRT_LPORT_CFG_PFC_EN : Fld := ⟨0x01000200, 4, 23, 16, .rwl, .none⟩
def PRT_LPORT_CFG_MAX_FRAME : Fld := ⟨0x01000200, 4, 13, 0, .rwl, (.clamp 1518 9216)⟩
def PRT_LPORT_STAT_LINK_UP : Fld := ⟨0x01000300, 4, 31, 31, .ro, .none⟩
def PRT_LPORT_STAT_FEC_DEGRADED : Fld := ⟨0x01000300, 4, 30, 30, .ro, .none⟩
def PRT_LPORT_STAT_SPEED : Fld := ⟨0x01000300, 4, 27, 24, .ro, .none⟩
def PRT_LPORT_STAT_PAUSED : Fld := ⟨0x01000300, 4, 23, 16, .ro, .none⟩
def PRT_LPORT_STAT_LINK_DOWNS : Fld := ⟨0x01000300, 4, 15, 0, .rc, .none⟩
def PRT_LPORT_RXERR_FCS : Fld := ⟨0x01000400, 4, 31, 24, .rc, .none⟩
def PRT_LPORT_RXERR_LENGTH : Fld := ⟨0x01000400, 4, 23, 16, .rc, .none⟩
def PRT_LPORT_RXERR_IPCSUM : Fld := ⟨0x01000400, 4, 15, 8, .rc, .none⟩
def PRT_LPORT_RXERR_L4 : Fld := ⟨0x01000400, 4, 7, 0, .rc, .none⟩
def PRT_STATION_LO_ADDR_LO : Fld := ⟨0x01000800, 8, 31, 0, .ro, .none⟩
def PRT_STATION_HI_VALID : Fld := ⟨0x01000804, 8, 31, 31, .ro, .none⟩
def PRT_STATION_HI_ADDR_HI : Fld := ⟨0x01000804, 8, 15, 0, .ro, .none⟩
def PRT_WAKE_MASK_MASK : Fld := ⟨0x01001000, 4, 31, 0, .rwl, .none⟩
def PRT_WAKE_CHECK_CHECK : Fld := ⟨0x01005000, 4, 31, 0, .rwl, .none⟩
def PRT_WAKE_EN_MATCHED : Fld := ⟨0x01005200, 4, 15, 8, .w1c, .none⟩
def PRT_WAKE_EN_EN : Fld := ⟨0x01005200, 4, 7, 0, .rwl, .none⟩
def CLS_CFG_SCENT_EN : Fld := ⟨0x02000040, 4, 31, 31, .ro, .none⟩
def CLS_CFG_DEEP : Fld := ⟨0x02000040, 4, 30, 30, .ro, .none⟩
def CLS_CFG_PATTERNS : Fld := ⟨0x02000040, 4, 26, 16, .ro, .none⟩
def CLS_CFG_NODES : Fld := ⟨0x02000040, 4, 8, 0, .ro, .none⟩
def CLS_TCAM_USE_VALID : Fld := ⟨0x02000044, 4, 16, 0, .ro, .none⟩
def CLS_RULE_CTRL_OP : Fld := ⟨0x02000048, 4, 31, 28, .wo, .none⟩
def CLS_RULE_CTRL_INDEX : Fld := ⟨0x02000048, 4, 15, 0, .wo, .none⟩
def CLS_RULE_STAT_BUSY : Fld := ⟨0x0200004C, 4, 31, 31, .ro, .none⟩
def CLS_RULE_STAT_REFUSED : Fld := ⟨0x0200004C, 4, 30, 30, .w1c, .none⟩
def CLS_RULE_STAT_VALID : Fld := ⟨0x0200004C, 4, 0, 0, .ro, .none⟩
def CLS_RULE_DATA_DATA : Fld := ⟨0x02000100, 4, 31, 0, .rwl, .none⟩
def CLS_PUNT_CFG_RATE : Fld := ⟨0x02000200, 4, 31, 12, .rwl, (.clamp 0 1000000)⟩
def CLS_PUNT_CFG_BURST : Fld := ⟨0x02000200, 4, 11, 0, .rwl, (.clamp 1 0xFFFFFFFF)⟩
def CLS_PUNT_STAT_DROPPED : Fld := ⟨0x02000240, 4, 31, 16, .rc, .none⟩
def CLS_PUNT_STAT_DEPTH : Fld := ⟨0x02000240, 4, 12, 0, .ro, .none⟩
def SWC_CFG_BH_PERIOD_MS : Fld := ⟨0x03000040, 4, 31, 16, .rwl, (.clamp 100 0xFFFFFFFF)⟩
def SWC_CFG_CT_START_CELLS : Fld := ⟨0x03000040, 4, 15, 8, .rwl, (.clamp 1 0xFFFFFFFF)⟩
def SWC_CFG_BH_RECLAIM : Fld := ⟨0x03000040, 4, 2, 2, .rwl, .none⟩
def SWC_CFG_BH_EN : Fld := ⟨0x03000040, 4, 1, 1, .rwl, .none⟩
def SWC_CFG_CT_EN : Fld := ⟨0x03000040, 4, 0, 0, .rwl, .none⟩
def SWC_FREE_CELLS_COUNT : Fld := ⟨0x03000044, 4, 20, 0, .ro, .none⟩
def SWC_FREE_MIN_COUNT : Fld := ⟨0x03000048, 4, 20, 0, .rc, .none⟩
def SWC_C0_FLOOR_COUNT : Fld := ⟨0x0300004C, 4, 20, 0, .rwl, .none⟩
def SWC_BH_STAT_CORRUPT : Fld := ⟨0x03000050, 4, 31, 24, .rc, .none⟩
def SWC_BH_STAT_ORPHANS : Fld := ⟨0x03000050, 4, 23, 16, .rc, .none⟩
def SWC_BH_STAT_LEAKS : Fld := ⟨0x03000050, 4, 15, 8, .rc, .none⟩
def SWC_BH_STAT_STALE : Fld := ⟨0x03000050, 4, 7, 0, .rc, .none⟩
def SWC_MC_SEL_DONE : Fld := ⟨0x03000054, 4, 31, 31, .ro, .none⟩
def SWC_MC_SEL_REFUSED : Fld := ⟨0x03000054, 4, 30, 30, .w1c, .none⟩
def SWC_MC_SEL_OP : Fld := ⟨0x03000054, 4, 29, 27, .wo, .none⟩
def SWC_MC_SEL_GROUP : Fld := ⟨0x03000054, 4, 11, 0, .wo, .none⟩
def SWC_MC_DATA0_MEMBERS_LO : Fld := ⟨0x03000058, 4, 31, 0, .rwl, .none⟩
def SWC_MC_DATA1_MEMBERS_HI : Fld := ⟨0x0300005C, 4, 31, 0, .rwl, .none⟩
def SWC_MC_DATA2_VALID : Fld := ⟨0x03000060, 4, 31, 31, .rwl, .none⟩
def SWC_MC_DATA2_SELF : Fld := ⟨0x03000060, 4, 30, 30, .rwl, .none⟩
def SWC_HOLD_LIMIT1_LIMIT_MS : Fld := ⟨0x03000104, 4, 15, 0, .rwl, .none⟩
def SWC_HOLD_LIMIT2_LIMIT_MS : Fld := ⟨0x03000108, 4, 15, 0, .rwl, .none⟩
def SWC_HOLD_LIMIT3_LIMIT_MS : Fld := ⟨0x0300010C, 4, 15, 0, .rwl, .none⟩
def SWC_HOLD_LIMIT4_LIMIT_MS : Fld := ⟨0x03000110, 4, 15, 0, .rwl, .none⟩
def SWC_HOLD_LIMIT5_LIMIT_MS : Fld := ⟨0x03000114, 4, 15, 0, .rwl, .none⟩
def SWC_HOLD_LIMIT6_LIMIT_MS : Fld := ⟨0x03000118, 4, 15, 0, .rwl, .none⟩
def SWC_HOLD_LIMIT7_LIMIT_MS : Fld := ⟨0x0300011C, 4, 15, 0, .rwl, .none⟩
def SWC_HOLD_LIMIT8_LIMIT_MS : Fld := ⟨0x03000120, 4, 15, 0, .rwl, .none⟩
def SWC_HOLD_LIMIT9_LIMIT_MS : Fld := ⟨0x03000124, 4, 15, 0, .rwl, .none⟩
def SWC_HOLD_LIMIT10_LIMIT_MS : Fld := ⟨0x03000128, 4, 15, 0, .rwl, .none⟩
def SWC_HOLD_LIMIT11_LIMIT_MS : Fld := ⟨0x0300012C, 4, 15, 0, .rwl, .none⟩
def SWC_HOLD_LIMIT12_LIMIT_MS : Fld := ⟨0x03000130, 4, 15, 0, .rwl, .none⟩
def SWC_HOLD_LIMIT13_LIMIT_MS : Fld := ⟨0x03000134, 4, 15, 0, .rwl, .none⟩
def SWC_HOLD_LIMIT14_LIMIT_MS : Fld := ⟨0x03000138, 4, 15, 0, .rwl, .none⟩
def SWC_HOLD_LIMIT15_LIMIT_MS : Fld := ⟨0x0300013C, 4, 15, 0, .rwl, .none⟩
def SWC_PFC_CFG_XOFF_CELLS : Fld := ⟨0x03000200, 4, 31, 20, .rwl, .none⟩
def SWC_PFC_CFG_XON_CELLS : Fld := ⟨0x03000200, 4, 19, 8, .rwl, .none⟩
def SWC_PFC_CFG_HDRM : Fld := ⟨0x03000200, 4, 7, 0, .rwl, .none⟩
def SWC_PFC_STAT_XOFF : Fld := ⟨0x03000300, 4, 23, 16, .ro, .none⟩
def SWC_PFC_STAT_HDRM_DROPS : Fld := ⟨0x03000300, 4, 15, 0, .rc, .none⟩
def SWC_PORT_DROP_MC_DOWN : Fld := ⟨0x03000400, 4, 31, 24, .rc, .none⟩
def SWC_PORT_DROP_MC_LIMIT : Fld := ⟨0x03000400, 4, 23, 16, .rc, .none⟩
def SWC_PORT_DROP_MC_GATE : Fld := ⟨0x03000400, 4, 15, 8, .rc, .none⟩
def SWC_PORT_DROP_STOMPED : Fld := ⟨0x03000400, 4, 7, 0, .rc, .none⟩
def TMG_CFG_HIST_EN : Fld := ⟨0x04000040, 4, 1, 1, .rwl, .none⟩
def TMG_CFG_ECN_EN : Fld := ⟨0x04000040, 4, 0, 0, .rwl, .none⟩
def TMG_Q_SEL_DONE : Fld := ⟨0x04000044, 4, 31, 31, .ro, .none⟩
def TMG_Q_SEL_REFUSED : Fld := ⟨0x04000044, 4, 30, 30, .w1c, .none⟩
def TMG_Q_SEL_OP : Fld := ⟨0x04000044, 4, 29, 27, .wo, .none⟩
def TMG_Q_SEL_NODE : Fld := ⟨0x04000044, 4, 26, 26, .wo, .none⟩
def TMG_Q_SEL_INDEX : Fld := ⟨0x04000044, 4, 25, 0, .wo, .none⟩
def TMG_Q_DATA0_VALID : Fld := ⟨0x04000048, 4, 31, 31, .rwl, .none⟩
def TMG_Q_DATA0_ECN_EN : Fld := ⟨0x04000048, 4, 30, 30, .rwl, .none⟩
def TMG_Q_DATA0_LPORT : Fld := ⟨0x04000048, 4, 29, 24, .rwl, .none⟩
def TMG_Q_DATA0_NODE : Fld := ⟨0x04000048, 4, 23, 20, .rwl, .none⟩
def TMG_Q_DATA0_TC : Fld := ⟨0x04000048, 4, 19, 17, .rwl, .none⟩
def TMG_Q_DATA0_PRIO : Fld := ⟨0x04000048, 4, 16, 14, .rwl, .none⟩
def TMG_Q_DATA0_WEIGHT : Fld := ⟨0x04000048, 4, 7, 0, .rwl, .none⟩
def TMG_Q_DATA1_ALPHA : Fld := ⟨0x0400004C, 4, 31, 28, .rwl, .none⟩
def TMG_Q_DATA1_YELLOW : Fld := ⟨0x0400004C, 4, 27, 24, .rwl, .none⟩
def TMG_Q_DATA1_MAX_CELLS : Fld := ⟨0x0400004C, 4, 19, 0, .rwl, .none⟩
def TMG_Q_DATA2_ECN_MAX : Fld := ⟨0x04000050, 4, 31, 16, .rwl, .none⟩
def TMG_Q_DATA2_ECN_MIN : Fld := ⟨0x04000050, 4, 15, 0, .rwl, .none⟩
def TMG_Q_DATA3_PMAX : Fld := ⟨0x04000054, 4, 31, 24, .rwl, .none⟩
def TMG_Q_DATA3_RATE : Fld := ⟨0x04000054, 4, 23, 0, .rwl, .none⟩
def TMG_Q_DATA4_BURST_KIB : Fld := ⟨0x04000058, 4, 15, 0, .rwl, (.zeroAs 16)⟩
def TMG_Q_DATA5_DEPTH : Fld := ⟨0x0400005C, 4, 19, 0, .ro, .none⟩
def TMG_POL_SEL_DONE : Fld := ⟨0x04000060, 4, 31, 31, .ro, .none⟩
def TMG_POL_SEL_REFUSED : Fld := ⟨0x04000060, 4, 30, 30, .w1c, .none⟩
def TMG_POL_SEL_OP : Fld := ⟨0x04000060, 4, 29, 27, .wo, .none⟩
def TMG_POL_SEL_INDEX : Fld := ⟨0x04000060, 4, 25, 0, .wo, .none⟩
def TMG_POL_DATA0_VALID : Fld := ⟨0x04000064, 4, 31, 31, .rwl, .none⟩
def TMG_POL_DATA0_MODE : Fld := ⟨0x04000064, 4, 30, 30, .rwl, .none⟩
def TMG_POL_DATA0_AWARE : Fld := ⟨0x04000064, 4, 29, 29, .rwl, .none⟩
def TMG_POL_DATA0_CIR : Fld := ⟨0x04000064, 4, 23, 0, .rwl, .none⟩
def TMG_POL_DATA1_PIR : Fld := ⟨0x04000068, 4, 23, 0, .rwl, .none⟩
def TMG_POL_DATA2_CBS_KIB : Fld := ⟨0x0400006C, 4, 31, 16, .rwl, (.zeroAs 16)⟩
def TMG_POL_DATA2_EPBS_KIB : Fld := ⟨0x0400006C, 4, 15, 0, .rwl, .none⟩
def TMG_POL_DATA3_YELLOW_FRAMES : Fld := ⟨0x04000070, 4, 31, 16, .rc, .none⟩
def TMG_POL_DATA3_RED_FRAMES : Fld := ⟨0x04000070, 4, 15, 0, .rc, .none⟩
def TMG_GATE_SEL_DONE : Fld := ⟨0x04000074, 4, 31, 31, .ro, .none⟩
def TMG_GATE_SEL_REFUSED : Fld := ⟨0x04000074, 4, 30, 30, .w1c, .none⟩
def TMG_GATE_SEL_OP : Fld := ⟨0x04000074, 4, 29, 27, .wo, .none⟩
def TMG_GATE_SEL_INDEX : Fld := ⟨0x04000074, 4, 25, 0, .wo, .none⟩
def TMG_GATE_DATA_GATES : Fld := ⟨0x04000078, 4, 31, 24, .rwl, .none⟩
def TMG_GATE_DATA_DURATION_NS : Fld := ⟨0x04000078, 4, 23, 0, .rwl, (.clamp 1 0xFFFFFFFF)⟩
def TMG_GATE_BASE_LO_BASE : Fld := ⟨0x0400007C, 4, 31, 0, .rwl, .none⟩
def TMG_GATE_BASE_HI_BASE : Fld := ⟨0x04000080, 4, 31, 0, .rwl, .none⟩
def TMG_GATE_COMMIT_ENABLE : Fld := ⟨0x04000084, 4, 31, 31, .wo, .none⟩
def TMG_GATE_COMMIT_LAST : Fld := ⟨0x04000084, 4, 25, 16, .wo, .none⟩
def TMG_GATE_COMMIT_LPORT : Fld := ⟨0x04000084, 4, 5, 0, .wo, .none⟩
def TMG_BG_CFG_RATE : Fld := ⟨0x04000088, 4, 31, 16, .rwl, (.clamp 1 0xFFFFFFFF)⟩
def TMG_BG_CFG_BURST_MIB : Fld := ⟨0x04000088, 4, 15, 0, .rwl, (.clamp 1 0xFFFFFFFF)⟩
def TMG_HIST_SEL_DONE : Fld := ⟨0x0400008C, 4, 31, 31, .ro, .none⟩
def TMG_HIST_SEL_CLEAR : Fld := ⟨0x0400008C, 4, 30, 30, .wo, .none⟩
def TMG_HIST_SEL_QUEUE : Fld := ⟨0x0400008C, 4, 15, 0, .wo, .none⟩
def TMG_HIST_DATA_COUNT : Fld := ⟨0x04000100, 4, 31, 0, .ro, .none⟩
def TMG_PORT_CFG_MAX_GATE_WAIT_US : Fld := ⟨0x04000200, 4, 31, 16, .rwl, .none⟩
def TMG_GATE_STAT_ENABLED : Fld := ⟨0x04000300, 4, 31, 31, .ro, .none⟩
def TMG_GATE_STAT_PENDING : Fld := ⟨0x04000300, 4, 30, 30, .ro, .none⟩
def TMG_GATE_STAT_BANK : Fld := ⟨0x04000300, 4, 29, 29, .ro, .none⟩
def TMG_GATE_STAT_C0_CLOSED : Fld := ⟨0x04000300, 4, 28, 28, .ro, .none⟩
def TMG_GATE_STAT_OVERSIZE : Fld := ⟨0x04000300, 4, 15, 0, .rc, .none⟩
def XPT_CFG_INIT_DEPTH : Fld := ⟨0x05000040, 4, 20, 16, .rwl, (.clamp 1 16)⟩
def XPT_CFG_PMTU_MAX : Fld := ⟨0x05000040, 4, 10, 8, .rwl, (.other 3 5 5)⟩
def XPT_CFG_CC_EN : Fld := ⟨0x05000040, 4, 2, 2, .rwl, .none⟩
def XPT_CFG_CNP_EN : Fld := ⟨0x05000040, 4, 1, 1, .rwl, .none⟩
def XPT_CFG_STRICT : Fld := ⟨0x05000040, 4, 0, 0, .rwl, .none⟩
def XPT_CTX_INUSE_COUNT : Fld := ⟨0x05000044, 4, 21, 0, .ro, .none⟩
def XPT_CTX_HWM_HWM : Fld := ⟨0x05000048, 4, 21, 0, .rc, .none⟩
def XPT_MR_INUSE_COUNT : Fld := ⟨0x0500004C, 4, 16, 0, .ro, .none⟩
def XPT_CACHE_MISS_LO_MISSES : Fld := ⟨0x05000050, 4, 31, 0, .ro, .none⟩
def XPT_CACHE_MISS_HI_MISSES : Fld := ⟨0x05000054, 4, 31, 0, .ro, .none⟩
def XPT_CACHE_STALL_STALLS : Fld := ⟨0x05000058, 4, 31, 0, .rc, .none⟩
def XPT_TRIG_STAT_MISSES : Fld := ⟨0x0500005C, 4, 31, 16, .rc, .none⟩
def XPT_TRIG_STAT_ARMED : Fld := ⟨0x0500005C, 4, 14, 0, .ro, .none⟩
def XPT_RETRY_CFG_RNR_TIMER : Fld := ⟨0x05000060, 4, 20, 16, .rwl, .none⟩
def XPT_RETRY_CFG_RNR_RETRY : Fld := ⟨0x05000060, 4, 14, 12, .rwl, .none⟩
def XPT_RETRY_CFG_RETRY_CNT : Fld := ⟨0x05000060, 4, 10, 8, .rwl, .none⟩
def XPT_RETRY_CFG_ACK_EXP : Fld := ⟨0x05000060, 4, 4, 0, .rwl, (.clamp 1 0xFFFFFFFF)⟩
def XPT_CC_CFG_AI_STEP : Fld := ⟨0x05000064, 4, 31, 24, .rwl, .none⟩
def XPT_CC_CFG_BETA : Fld := ⟨0x05000064, 4, 23, 16, .rwl, .none⟩
def XPT_CC_CFG_TARGET_NS : Fld := ⟨0x05000064, 4, 15, 0, .rwl, .none⟩
def XPT_CC_LIMITS_BASE_WIN_MS : Fld := ⟨0x05000068, 4, 31, 16, .rwl, (.clamp 1 0xFFFFFFFF)⟩
def XPT_CC_LIMITS_MIN_RATE : Fld := ⟨0x05000068, 4, 15, 0, .rwl, (.clamp 1 0xFFFFFFFF)⟩
def XPT_INV_CTRL_RKEY : Fld := ⟨0x0500006C, 4, 31, 0, .wo, .none⟩
def XPT_INV_STATUS_BUSY : Fld := ⟨0x05000070, 4, 31, 31, .ro, .none⟩
def XPT_INV_STATUS_FORCED : Fld := ⟨0x05000070, 4, 30, 30, .w1c, .none⟩
def XPT_INV_STATUS_REFUSED : Fld := ⟨0x05000070, 4, 29, 29, .w1c, .none⟩
def XPT_INV_STATUS_STRADDLING : Fld := ⟨0x05000070, 4, 15, 0, .ro, .none⟩
def XPT_INV_LIMIT_LIMIT_US : Fld := ⟨0x05000074, 4, 23, 0, .rwl, (.clamp 1 0xFFFFFFFF)⟩
def XPT_CTX_SEL_DONE : Fld := ⟨0x05000078, 4, 31, 31, .ro, .none⟩
def XPT_CTX_SEL_QPN : Fld := ⟨0x05000078, 4, 23, 0, .rw, .none⟩
def XPT_CTX_DATA_DATA : Fld := ⟨0x05000200, 4, 31, 0, .ro, .none⟩
def CMD_CFG_PS0_HOLD : Fld := ⟨0x06000040, 4, 4, 4, .rwl, .none⟩
def CMD_CFG_C0_EN : Fld := ⟨0x06000040, 4, 0, 0, .rwl, .none⟩
def CMD_OBJ_COUNT_NAMESPACES : Fld := ⟨0x06000044, 4, 30, 16, .ro, .none⟩
def CMD_OBJ_COUNT_HOSTS : Fld := ⟨0x06000044, 4, 12, 0, .ro, .none⟩
def CMD_CTRL_COUNT_CONTROLLERS : Fld := ⟨0x06000048, 4, 13, 0, .ro, .none⟩
def CMD_BOUND_STAT_JOURNAL : Fld := ⟨0x0600004C, 4, 5, 5, .ro, .none⟩
def CMD_BOUND_STAT_EPOCH : Fld := ⟨0x0600004C, 4, 4, 4, .ro, .none⟩
def CMD_BOUND_STAT_FLOOR : Fld := ⟨0x0600004C, 4, 3, 3, .ro, .none⟩
def CMD_BOUND_STAT_RESYNC : Fld := ⟨0x0600004C, 4, 2, 2, .ro, .none⟩
def CMD_BOUND_STAT_FAILOVER : Fld := ⟨0x0600004C, 4, 1, 1, .ro, .none⟩
def CMD_BOUND_STAT_ACT : Fld := ⟨0x0600004C, 4, 0, 0, .ro, .none⟩
def CMD_PS_STATE_EXITING : Fld := ⟨0x06000050, 4, 8, 8, .ro, .none⟩
def CMD_PS_STATE_STATE : Fld := ⟨0x06000050, 4, 2, 0, .ro, .none⟩
def CMD_PS_CFG_PS4_EN : Fld := ⟨0x06000054, 4, 0, 0, .rwl, .none⟩
def CMD_ACT_CTRL_KIND : Fld := ⟨0x06000058, 4, 7, 4, .wo, .none⟩
def CMD_ACT_CTRL_SLOT : Fld := ⟨0x06000058, 4, 2, 0, .wo, .none⟩
def CMD_ACT_STATUS_RESULT : Fld := ⟨0x0600005C, 4, 31, 30, .ro, .none⟩
def CMD_ACT_STATUS_STEP : Fld := ⟨0x0600005C, 4, 29, 27, .ro, .none⟩
def CMD_ACT_STATUS_STOP_US : Fld := ⟨0x0600005C, 4, 16, 0, .ro, .none⟩
def CMD_ACT_DRAIN_LIMIT_LIMIT_US : Fld := ⟨0x06000060, 4, 16, 0, .rwl, (.clamp 1 80000)⟩
def CMD_SELFTEST_STAT_PERCENT : Fld := ⟨0x06000064, 4, 14, 8, .ro, .none⟩
def CMD_SELFTEST_STAT_CODE : Fld := ⟨0x06000064, 4, 3, 0, .ro, .none⟩
def CMD_IDLE_TIMER0_IDLE_US : Fld := ⟨0x06000070, 4, 31, 0, .rwl, .none⟩
def CMD_IDLE_TIMER1_IDLE_US : Fld := ⟨0x06000074, 4, 31, 0, .rwl, .none⟩
def CMD_IDLE_TIMER2_IDLE_US : Fld := ⟨0x06000078, 4, 31, 0, .rwl, .none⟩
def CMD_IDLE_TIMER3_IDLE_US : Fld := ⟨0x0600007C, 4, 31, 0, .rwl, .none⟩
def CMD_ARB_WEIGHT_BURST : Fld := ⟨0x06000100, 4, 26, 24, .rwl, .none⟩
def CMD_ARB_WEIGHT_LOW : Fld := ⟨0x06000100, 4, 23, 16, .rwl, .none⟩
def CMD_ARB_WEIGHT_MEDIUM : Fld := ⟨0x06000100, 4, 15, 8, .rwl, .none⟩
def CMD_ARB_WEIGHT_HIGH : Fld := ⟨0x06000100, 4, 7, 0, .rwl, .none⟩
def CMD_C0_BUDGET_DEPTH_KIB : Fld := ⟨0x06000200, 4, 28, 16, .rwl, (.clamp 128 4096)⟩
def CMD_C0_BUDGET_RATE : Fld := ⟨0x06000200, 4, 9, 0, .rwl, (.clamp 0 1000)⟩
def CMD_C0_STAT_REFUSED : Fld := ⟨0x06000300, 4, 31, 16, .rc, .none⟩
def CMD_C0_STAT_OUTSTANDING : Fld := ⟨0x06000300, 4, 8, 0, .ro, .none⟩
def CMD_C0_LAT_MAX_MAX_NS : Fld := ⟨0x06000400, 4, 31, 0, .rc, .none⟩
def LAY_CFG_SEAL_IDLE_S : Fld := ⟨0x07000040, 4, 23, 16, .rwl, (.clamp 1 0xFFFFFFFF)⟩
def LAY_CFG_AUTO_FORMAT : Fld := ⟨0x07000040, 4, 3, 3, .rwl, .none⟩
def LAY_CFG_AUTO_REBUILD : Fld := ⟨0x07000040, 4, 2, 2, .rwl, .none⟩
def LAY_CFG_RECLAIM_EN : Fld := ⟨0x07000040, 4, 1, 1, .rwl, .none⟩
def LAY_CFG_SCRUB_EN : Fld := ⟨0x07000040, 4, 0, 0, .rwl, .none⟩
def LAY_STATE_COPIES : Fld := ⟨0x07000044, 4, 31, 28, .ro, .none⟩
def LAY_STATE_DRIVES : Fld := ⟨0x07000044, 4, 27, 22, .ro, .none⟩
def LAY_STATE_SHELF : Fld := ⟨0x07000044, 4, 21, 20, .ro, .none⟩
def LAY_STATE_OPEN_SETS : Fld := ⟨0x07000044, 4, 10, 0, .ro, .none⟩
def LAY_MAP_USE_COUNT : Fld := ⟨0x07000048, 4, 31, 0, .ro, .none⟩
def LAY_SET_USE_COUNT : Fld := ⟨0x0700004C, 4, 31, 0, .ro, .none⟩
def LAY_CHUNK_FREE_COUNT : Fld := ⟨0x07000050, 4, 31, 0, .ro, .none⟩
def LAY_JRNL_STAT_FULL : Fld := ⟨0x07000054, 4, 9, 9, .ro, .none⟩
def LAY_JRNL_STAT_THROTTLE : Fld := ⟨0x07000054, 4, 8, 8, .ro, .none⟩
def LAY_JRNL_STAT_FILL_PCT : Fld := ⟨0x07000054, 4, 6, 0, .ro, .none⟩
def LAY_CKPT_CTRL_START : Fld := ⟨0x07000058, 4, 0, 0, .wo, .none⟩
def LAY_CKPT_CFG_JRNL_PCT : Fld := ⟨0x0700005C, 4, 23, 16, .rwl, (.clamp 1 70)⟩
def LAY_CKPT_CFG_INTERVAL_S : Fld := ⟨0x0700005C, 4, 15, 0, .rwl, .none⟩
def LAY_CKPT_STAT_BUSY : Fld := ⟨0x07000060, 4, 31, 31, .ro, .none⟩
def LAY_CKPT_STAT_FAILED : Fld := ⟨0x07000060, 4, 30, 30, .w1c, .none⟩
def LAY_CKPT_STAT_LAST_S : Fld := ⟨0x07000060, 4, 15, 0, .ro, .none⟩
def LAY_CKPT_JSEQ_LO_JSEQ : Fld := ⟨0x07000064, 4, 31, 0, .ro, .none⟩
def LAY_CKPT_JSEQ_HI_JSEQ : Fld := ⟨0x07000068, 4, 31, 0, .ro, .none⟩
def LAY_REBUILD_STAT_ACTIVE : Fld := ⟨0x0700006C, 4, 31, 31, .ro, .none⟩
def LAY_REBUILD_STAT_WAITING_SPARE : Fld := ⟨0x0700006C, 4, 30, 30, .ro, .none⟩
def LAY_REBUILD_STAT_SLOT : Fld := ⟨0x0700006C, 4, 29, 24, .ro, .none⟩
def LAY_REBUILD_STAT_PERCENT : Fld := ⟨0x0700006C, 4, 6, 0, .ro, .none⟩
def LAY_SCRUB_CFG_CYCLE_DAYS : Fld := ⟨0x07000070, 4, 15, 0, .rwl, (.clamp 1 0xFFFFFFFF)⟩
def LAY_SCRUB_STAT_REPAIRS : Fld := ⟨0x07000074, 4, 31, 16, .rc, .none⟩
def LAY_SCRUB_STAT_PERCENT : Fld := ⟨0x07000074, 4, 6, 0, .ro, .none⟩
def LAY_RECLAIM_CFG_SPARE_DRIVES : Fld := ⟨0x07000078, 4, 11, 8, .rwl, (.clamp 0 8)⟩
def LAY_RECLAIM_CFG_LIVE_PCT : Fld := ⟨0x07000078, 4, 7, 0, .rwl, (.clamp 0 90)⟩
def LAY_DECODE_COUNT_COUNT : Fld := ⟨0x0700007C, 4, 31, 0, .rc, .none⟩
def LAY_CHECK_FAIL_COUNT : Fld := ⟨0x07000080, 4, 31, 0, .rc, .none⟩
def LAY_FORMAT_ORDER_CONFIRM : Fld := ⟨0x07000084, 4, 31, 24, .wo, .none⟩
def LAY_FORMAT_ORDER_SLOT : Fld := ⟨0x07000084, 4, 5, 0, .wo, .none⟩
def LAY_GEOM_VALID : Fld := ⟨0x07000100, 4, 31, 31, .ro, .none⟩
def LAY_GEOM_U_SHIFT : Fld := ⟨0x07000100, 4, 20, 16, .ro, .none⟩
def LAY_GEOM_M : Fld := ⟨0x07000100, 4, 15, 8, .ro, .none⟩
def LAY_GEOM_K : Fld := ⟨0x07000100, 4, 7, 0, .ro, .none⟩
def LAY_DRIVE_STATE_FREE_CHUNKS : Fld := ⟨0x07000200, 4, 31, 8, .ro, .none⟩
def LAY_DRIVE_STATE_STATE : Fld := ⟨0x07000200, 4, 2, 0, .ro, .none⟩
def FIX_CFG_PERIOD_QS : Fld := ⟨0x08000040, 4, 7, 0, .rwl, (.clamp 1 240)⟩
def FIX_STAT_RECOMPUTING : Fld := ⟨0x08000044, 4, 31, 31, .ro, .none⟩
def FIX_STAT_BACKLOG : Fld := ⟨0x08000044, 4, 30, 30, .ro, .none⟩
def FIX_STAT_UNSEALED : Fld := ⟨0x08000044, 4, 6, 0, .ro, .none⟩
def FIX_SEALED_SEQ_LO_SEQ : Fld := ⟨0x08000048, 4, 31, 0, .ro, .none⟩
def FIX_SEALED_SEQ_HI_SEQ : Fld := ⟨0x0800004C, 4, 31, 0, .ro, .none⟩
def FIX_OPEN_LEAVES_COUNT : Fld := ⟨0x08000050, 4, 31, 0, .ro, .none⟩
def FIX_SIGN_TIME_MAX_MS : Fld := ⟨0x08000054, 4, 31, 16, .rc, .none⟩
def FIX_SIGN_TIME_LAST_MS : Fld := ⟨0x08000054, 4, 15, 0, .ro, .none⟩
def FIX_AUDIT_CFG_CYCLE_DAYS : Fld := ⟨0x08000058, 4, 15, 0, .rwl, .none⟩
def FIX_AUDIT_STAT_MISMATCHES : Fld := ⟨0x0800005C, 4, 31, 16, .rc, .none⟩
def FIX_AUDIT_STAT_PERCENT : Fld := ⟨0x0800005C, 4, 6, 0, .ro, .none⟩
def FIX_MIG_CFG_RETRIES : Fld := ⟨0x08000060, 4, 31, 24, .rwl, .none⟩
def FIX_MIG_CFG_WINDOWS : Fld := ⟨0x08000060, 4, 23, 16, .rwl, (.clamp 1 16)⟩
def FIX_MIG_CFG_FAIL_STOP : Fld := ⟨0x08000060, 4, 15, 15, .rwl, .none⟩
def FIX_MIG_CFG_AUTO_CUTOVER : Fld := ⟨0x08000060, 4, 14, 14, .rwl, .none⟩
def FIX_MIG_CFG_WINDOW_MIB : Fld := ⟨0x08000060, 4, 7, 0, .rwl, (.clamp 17 0xFFFFFFFF)⟩
def FIX_MIG_LIMITS_CUTOVER_MS : Fld := ⟨0x08000064, 4, 31, 16, .rwl, (.clamp 1 0xFFFFFFFF)⟩
def FIX_MIG_LIMITS_CATCHUP_MAX : Fld := ⟨0x08000064, 4, 15, 0, .rwl, .none⟩
def FIX_MIG_CTRL_ORDER : Fld := ⟨0x08000068, 4, 31, 28, .wo, .none⟩
def FIX_MIG_CTRL_JOB : Fld := ⟨0x08000068, 4, 3, 0, .wo, .none⟩
def FIX_MIG_STAT_STATE : Fld := ⟨0x08000100, 4, 31, 28, .ro, .none⟩
def FIX_MIG_STAT_TARGET : Fld := ⟨0x08000100, 4, 27, 27, .ro, .none⟩
def FIX_MIG_STAT_PASS : Fld := ⟨0x08000100, 4, 19, 16, .ro, .none⟩
def FIX_MIG_STAT_FAILED : Fld := ⟨0x08000100, 4, 15, 0, .ro, .none⟩
def FIX_MIG_OBJS_COUNT : Fld := ⟨0x08000140, 4, 31, 0, .ro, .none⟩
def DRV_CFG_NORMAL_CAP : Fld := ⟨0x09000040, 4, 15, 8, .rwl, (.clamp 1 0xFFFFFFFF)⟩
def DRV_CFG_L1_PS3 : Fld := ⟨0x09000040, 4, 5, 5, .rwl, .none⟩
def DRV_CFG_ALLOW_SINGLE : Fld := ⟨0x09000040, 4, 4, 4, .rwl, .none⟩
def DRV_CFG_SPEED_MAX : Fld := ⟨0x09000040, 4, 3, 0, .rwl, (.other 1 6 6)⟩
def DRV_TMO_CFG_ADMIN_TMO_MS : Fld := ⟨0x09000044, 4, 31, 16, .rwl, (.clamp 100 0xFFFFFFFF)⟩
def DRV_TMO_CFG_IO_TMO_MS : Fld := ⟨0x09000044, 4, 15, 0, .rwl, (.clamp 100 0xFFFFFFFF)⟩
def DRV_ERR_CFG_RECOVER_WIN_S : Fld := ⟨0x09000048, 4, 23, 16, .rwl, .none⟩
def DRV_ERR_CFG_MEDIA_LIMIT : Fld := ⟨0x09000048, 4, 7, 0, .rwl, (.clamp 1 0xFFFFFFFF)⟩
def DRV_SMB_CFG_PEC : Fld := ⟨0x0900004C, 4, 17, 17, .rwl, .none⟩
def DRV_SMB_CFG_FAST : Fld := ⟨0x0900004C, 4, 16, 16, .rwl, .none⟩
def DRV_SMB_CFG_POLL_MS : Fld := ⟨0x0900004C, 4, 15, 0, .rwl, (.clamp 100 0xFFFFFFFF)⟩
def DRV_PRESENT_LO_MAP : Fld := ⟨0x09000050, 4, 31, 0, .ro, .none⟩
def DRV_PRESENT_HI_MAP : Fld := ⟨0x09000054, 4, 31, 0, .ro, .none⟩
def DRV_READY_LO_MAP : Fld := ⟨0x09000058, 4, 31, 0, .ro, .none⟩
def DRV_READY_HI_MAP : Fld := ⟨0x0900005C, 4, 31, 0, .ro, .none⟩
def DRV_PORT_ORDER_ORDER : Fld := ⟨0x09000060, 4, 31, 28, .wo, .none⟩
def DRV_PORT_ORDER_SLOT : Fld := ⟨0x09000060, 4, 5, 0, .wo, .none⟩
def DRV_PWRDIS_ORDER_CONFIRM : Fld := ⟨0x09000064, 4, 31, 24, .wo, .none⟩
def DRV_PWRDIS_ORDER_HOLD_MS : Fld := ⟨0x09000064, 4, 23, 8, .wo, (.clamp 1000 0xFFFFFFFF)⟩
def DRV_PWRDIS_ORDER_SLOT : Fld := ⟨0x09000064, 4, 5, 0, .wo, .none⟩
def DRV_PORT_STAT_STATE : Fld := ⟨0x09000100, 4, 31, 28, .ro, .none⟩
def DRV_PORT_STAT_SPEED : Fld := ⟨0x09000100, 4, 27, 24, .ro, .none⟩
def DRV_PORT_STAT_WIDTH : Fld := ⟨0x09000100, 4, 23, 20, .ro, .none⟩
def DRV_PORT_STAT_HOLDER : Fld := ⟨0x09000100, 4, 19, 19, .ro, .none⟩
def DRV_PORT_STAT_DUAL : Fld := ⟨0x09000100, 4, 18, 18, .ro, .none⟩
def DRV_PORT_STAT_URGENT_PRIO : Fld := ⟨0x09000100, 4, 17, 17, .ro, .none⟩
def DRV_PORT_STAT_RETRAINS : Fld := ⟨0x09000100, 4, 7, 0, .rc, .none⟩
def DRV_SLOT_STAT_PRSNT0 : Fld := ⟨0x09000200, 4, 31, 31, .ro, .none⟩
def DRV_SLOT_STAT_PRSNT1 : Fld := ⟨0x09000200, 4, 30, 30, .ro, .none⟩
def DRV_SLOT_STAT_PWRDIS : Fld := ⟨0x09000200, 4, 29, 29, .ro, .none⟩
def DRV_SLOT_STAT_SMB_OK : Fld := ⟨0x09000200, 4, 28, 28, .ro, .none⟩
def DRV_SLOT_STAT_CRIT_WARN : Fld := ⟨0x09000200, 4, 23, 16, .ro, .none⟩
def DRV_SLOT_STAT_PCT_USED : Fld := ⟨0x09000200, 4, 15, 8, .ro, .none⟩
def DRV_SLOT_STAT_TEMP : Fld := ⟨0x09000200, 4, 7, 0, .ro, .none⟩
def DRV_ERR_COUNT_MEDIA : Fld := ⟨0x09000300, 4, 31, 16, .rc, .none⟩
def DRV_ERR_COUNT_TIMEOUTS : Fld := ⟨0x09000300, 4, 15, 8, .rc, .none⟩
def DRV_ERR_COUNT_CORR : Fld := ⟨0x09000300, 4, 7, 0, .rc, .none⟩
def CIP_KE_CFG_DUMMY : Fld := ⟨0x0A000040, 4, 4, 0, .rwl, (.clamp 4 16)⟩
def CIP_KEY_ARG_WRAP_HANDLE : Fld := ⟨0x0A000044, 4, 31, 16, .rw, .none⟩
def CIP_KEY_ARG_HANDLE : Fld := ⟨0x0A000044, 4, 15, 0, .rw, .none⟩
def CIP_KEY_ORDER_OP : Fld := ⟨0x0A000048, 4, 31, 28, .wo, .none⟩
def CIP_KEY_ORDER_TYPE : Fld := ⟨0x0A000048, 4, 27, 24, .wo, .none⟩
def CIP_KEY_ORDER_PAGE : Fld := ⟨0x0A000048, 4, 11, 0, .wo, .none⟩
def CIP_KEY_STAT_BUSY : Fld := ⟨0x0A00004C, 4, 31, 31, .ro, .none⟩
def CIP_KEY_STAT_REFUSED : Fld := ⟨0x0A00004C, 4, 30, 30, .w1c, .none⟩
def CIP_KEY_STAT_RESULT : Fld := ⟨0x0A00004C, 4, 27, 24, .ro, .none⟩
def CIP_KEY_STAT_HANDLE : Fld := ⟨0x0A00004C, 4, 15, 0, .ro, .none⟩
def CIP_SLOT_USE_SLOTS : Fld := ⟨0x0A000050, 4, 16, 0, .ro, .none⟩
def CIP_ESCROW_STAT_DROPPED : Fld := ⟨0x0A000054, 4, 31, 16, .rc, .none⟩
def CIP_ESCROW_STAT_QUEUED : Fld := ⟨0x0A000054, 4, 15, 0, .ro, .none⟩
def CIP_ERR_COUNT_PAGE : Fld := ⟨0x0A000058, 4, 31, 24, .rc, .none⟩
def CIP_ERR_COUNT_HANDLE : Fld := ⟨0x0A000058, 4, 23, 16, .rc, .none⟩
def CIP_ERR_COUNT_LENGTH : Fld := ⟨0x0A000058, 4, 15, 8, .rc, .none⟩
def CIP_ERR_COUNT_TAG : Fld := ⟨0x0A000058, 4, 7, 0, .rc, .none⟩
def CIP_OPS_LO_OPS : Fld := ⟨0x0A00005C, 4, 31, 0, .ro, .none⟩
def CIP_OPS_HI_OPS : Fld := ⟨0x0A000060, 4, 31, 0, .ro, .none⟩
def TRU_STAT_ENTROPY_OK : Fld := ⟨0x0B000040, 4, 31, 31, .ro, .none⟩
def TRU_STAT_DETERMINISTIC : Fld := ⟨0x0B000040, 4, 30, 30, .ro, .none⟩
def TRU_STAT_ROTATION : Fld := ⟨0x0B000040, 4, 29, 24, .ro, .none⟩
def TRU_STAT_FW_SVN : Fld := ⟨0x0B000040, 4, 23, 16, .ro, .none⟩
def TRU_STAT_FUSE_SVN : Fld := ⟨0x0B000040, 4, 15, 8, .ro, .none⟩
def TRU_STAT_IMAGE_KEYS : Fld := ⟨0x0B000040, 4, 2, 0, .ro, .none⟩
def TRU_ORDER_OP : Fld := ⟨0x0B000044, 4, 31, 28, .wo, .none⟩
def TRU_ORDER_INDEX : Fld := ⟨0x0B000044, 4, 1, 0, .wo, .none⟩
def TRU_ORDER_STAT_BUSY : Fld := ⟨0x0B000048, 4, 31, 31, .ro, .none⟩
def TRU_ORDER_STAT_REFUSED : Fld := ⟨0x0B000048, 4, 30, 30, .w1c, .none⟩
def TRU_ORDER_STAT_RESULT : Fld := ⟨0x0B000048, 4, 27, 24, .ro, .none⟩
def TRU_SIGN_STAT_Q256 : Fld := ⟨0x0B00004C, 4, 31, 24, .ro, .none⟩
def TRU_SIGN_STAT_Q192 : Fld := ⟨0x0B00004C, 4, 23, 16, .ro, .none⟩
def TRU_SIGN_STAT_MAX_192F_MS : Fld := ⟨0x0B00004C, 4, 15, 0, .rc, .none⟩
def TRU_BOOT_COUNT_COUNT : Fld := ⟨0x0B000050, 4, 31, 0, .ro, .none⟩
def TRU_MEAS_DATA : Fld := ⟨0x0B000100, 4, 31, 0, .ro, .none⟩
def TRU_SERIAL_DATA : Fld := ⟨0x0B000180, 4, 31, 0, .ro, .none⟩
def TRU_DIK_HASH_DATA : Fld := ⟨0x0B0001A0, 4, 31, 0, .ro, .none⟩
def TRU_FXK_HASH_DATA : Fld := ⟨0x0B0001C0, 4, 31, 0, .ro, .none⟩
def PWR_CFG_SENS_POLL_MS : Fld := ⟨0x0C000040, 4, 31, 16, .rwl, (.clamp 10 0xFFFFFFFF)⟩
def PWR_CFG_DRIVE_OFFSET_C : Fld := ⟨0x0C000040, 4, 15, 8, .rwl, .none⟩
def PWR_CFG_DRIVE_ZONE : Fld := ⟨0x0C000040, 4, 5, 4, .rwl, .none⟩
def PWR_CFG_FAN_AUTO : Fld := ⟨0x0C000040, 4, 0, 0, .rwl, .none⟩
def PWR_LEG_ORDER_CONFIRM : Fld := ⟨0x0C000044, 4, 31, 24, .wo, .none⟩
def PWR_LEG_ORDER_OP : Fld := ⟨0x0C000044, 4, 23, 20, .wo, .none⟩
def PWR_LEG_ORDER_LEG : Fld := ⟨0x0C000044, 4, 5, 0, .wo, .none⟩
def PWR_ORDER_STAT_RESULT : Fld := ⟨0x0C000048, 4, 27, 24, .ro, .none⟩
def PWR_ORDER_STAT_LEG : Fld := ⟨0x0C000048, 4, 5, 0, .ro, .none⟩
def PWR_PG_LO_MAP : Fld := ⟨0x0C00004C, 4, 31, 0, .ro, .none⟩
def PWR_PG_HI_MAP : Fld := ⟨0x0C000050, 4, 31, 0, .ro, .none⟩
def PWR_LATCH_LO_MAP : Fld := ⟨0x0C000054, 4, 31, 0, .ro, .none⟩
def PWR_LATCH_HI_MAP : Fld := ⟨0x0C000058, 4, 31, 0, .ro, .none⟩
def PWR_LEG_CFG_AUTO_START : Fld := ⟨0x0C000100, 4, 31, 31, .rwl, .none⟩
def PWR_LEG_CFG_RETRY_EN : Fld := ⟨0x0C000100, 4, 30, 30, .rwl, .none⟩
def PWR_LEG_CFG_RETRY_MAX : Fld := ⟨0x0C000100, 4, 29, 27, .rwl, .none⟩
def PWR_LEG_CFG_MODEL : Fld := ⟨0x0C000100, 4, 26, 25, .rwl, .none⟩
def PWR_LEG_CFG_FEED : Fld := ⟨0x0C000100, 4, 24, 23, .rwl, .none⟩
def PWR_LEG_CFG_DVDT : Fld := ⟨0x0C000100, 4, 22, 16, .rwl, (.clamp 1 50)⟩
def PWR_LEG_CFG_FAST_X : Fld := ⟨0x0C000100, 4, 15, 12, .rwl, (.clamp 3 10)⟩
def PWR_LEG_CFG_ILIM : Fld := ⟨0x0C000100, 4, 7, 0, .rwl, (.clamp 20 160)⟩
def PWR_LEG_TIME_FAULT : Fld := ⟨0x0C000200, 4, 31, 24, .rwl, (.clamp 1 0xFFFFFFFF)⟩
def PWR_LEG_TIME_QUAL_MS : Fld := ⟨0x0C000200, 4, 23, 16, .rwl, (.clamp 2 100)⟩
def PWR_LEG_TIME_OFF_MS : Fld := ⟨0x0C000200, 4, 15, 0, .rwl, (.clamp 100 0xFFFFFFFF)⟩
def PWR_LEG_STAT_STATE : Fld := ⟨0x0C000300, 4, 31, 28, .ro, .none⟩
def PWR_LEG_STAT_PG : Fld := ⟨0x0C000300, 4, 27, 27, .ro, .none⟩
def PWR_LEG_STAT_LIMITING : Fld := ⟨0x0C000300, 4, 26, 26, .ro, .none⟩
def PWR_LEG_STAT_TIMER_RUN : Fld := ⟨0x0C000300, 4, 25, 25, .ro, .none⟩
def PWR_LEG_STAT_PENDING : Fld := ⟨0x0C000300, 4, 24, 24, .ro, .none⟩
def PWR_LEG_STAT_HELD_OFF : Fld := ⟨0x0C000300, 4, 23, 23, .ro, .none⟩
def PWR_LEG_STAT_RETRIES : Fld := ⟨0x0C000300, 4, 22, 20, .ro, .none⟩
def PWR_LEG_STAT_CAUSE : Fld := ⟨0x0C000300, 4, 19, 16, .ro, .none⟩
def PWR_LEG_STAT_TRIPS : Fld := ⟨0x0C000300, 4, 15, 8, .rc, .none⟩
def PWR_LEG_STAT_TJ_C : Fld := ⟨0x0C000300, 4, 7, 0, .ro, .none⟩
def PWR_LEG_MEAS_VOUT_MV : Fld := ⟨0x0C000400, 4, 31, 16, .ro, .none⟩
def PWR_LEG_MEAS_I_MA : Fld := ⟨0x0C000400, 4, 15, 0, .ro, .none⟩
def PWR_MODEL0_R_MCW : Fld := ⟨0x0C000500, 16, 31, 16, .rwl, .none⟩
def PWR_MODEL0_TAU_US : Fld := ⟨0x0C000500, 16, 15, 0, .rwl, (.clamp 20 0xFFFFFFFF)⟩
def PWR_MODEL1_R_MCW : Fld := ⟨0x0C000504, 16, 31, 16, .rwl, .none⟩
def PWR_MODEL1_TAU_US : Fld := ⟨0x0C000504, 16, 15, 0, .rwl, (.clamp 20 0xFFFFFFFF)⟩
def PWR_MODEL2_R_MCW : Fld := ⟨0x0C000508, 16, 31, 16, .rwl, .none⟩
def PWR_MODEL2_TAU_US : Fld := ⟨0x0C000508, 16, 15, 0, .rwl, (.clamp 20 0xFFFFFFFF)⟩
def PWR_MODEL3_TJ_LIMIT_C : Fld := ⟨0x0C00050C, 16, 31, 24, .rwl, .none⟩
def PWR_MODEL3_COOL_C : Fld := ⟨0x0C00050C, 16, 23, 16, .rwl, .none⟩
def PWR_MODEL3_AMB_SENSOR : Fld := ⟨0x0C00050C, 16, 15, 8, .rwl, .none⟩
def PWR_MODEL3_AMB_DEFAULT_C : Fld := ⟨0x0C00050C, 16, 7, 0, .rwl, .none⟩
def PWR_FEED_CFG_EN : Fld := ⟨0x0C000600, 4, 31, 31, .rwl, .none⟩
def PWR_FEED_CFG_UV : Fld := ⟨0x0C000600, 4, 27, 20, .rwl, .none⟩
def PWR_FEED_CFG_OV : Fld := ⟨0x0C000600, 4, 19, 12, .rwl, .none⟩
def PWR_FEED_CFG_OT_C : Fld := ⟨0x0C000600, 4, 11, 4, .rwl, .none⟩
def PWR_FEED_MEAS0_V_MV : Fld := ⟨0x0C000610, 8, 31, 16, .ro, .none⟩
def PWR_FEED_MEAS0_I_10MA : Fld := ⟨0x0C000610, 8, 15, 0, .ro, .none⟩
def PWR_FEED_MEAS1_P_100MW : Fld := ⟨0x0C000614, 8, 31, 16, .ro, .none⟩
def PWR_FEED_MEAS1_T_C : Fld := ⟨0x0C000614, 8, 15, 8, .ro, .none⟩
def PWR_FEED_ENERGY_ENERGY : Fld := ⟨0x0C000630, 4, 31, 0, .ro, .none⟩
def PWR_FEED_STAT_FET_ON : Fld := ⟨0x0C000650, 4, 31, 31, .ro, .none⟩
def PWR_FEED_STAT_CAUSE : Fld := ⟨0x0C000650, 4, 30, 28, .ro, .none⟩
def PWR_FEED_STAT_FAULTS : Fld := ⟨0x0C000650, 4, 15, 0, .rc, .none⟩
def PWR_FAN_CFG_EN : Fld := ⟨0x0C000700, 4, 31, 31, .rwl, .none⟩
def PWR_FAN_CFG_PPR : Fld := ⟨0x0C000700, 4, 30, 29, .rwl, .none⟩
def PWR_FAN_CFG_MIN_RPM : Fld := ⟨0x0C000700, 4, 23, 16, .rwl, .none⟩
def PWR_FAN_CFG_MANUAL : Fld := ⟨0x0C000700, 4, 15, 8, .rwl, .none⟩
def PWR_FAN_CFG_ZONE : Fld := ⟨0x0C000700, 4, 1, 0, .rwl, .none⟩
def PWR_FAN_CURVE0_T3 : Fld := ⟨0x0C000740, 8, 31, 24, .rwl, .none⟩
def PWR_FAN_CURVE0_T2 : Fld := ⟨0x0C000740, 8, 23, 16, .rwl, .none⟩
def PWR_FAN_CURVE0_T1 : Fld := ⟨0x0C000740, 8, 15, 8, .rwl, .none⟩
def PWR_FAN_CURVE0_T0 : Fld := ⟨0x0C000740, 8, 7, 0, .rwl, .none⟩
def PWR_FAN_CURVE1_D3 : Fld := ⟨0x0C000744, 8, 31, 24, .rwl, .none⟩
def PWR_FAN_CURVE1_D2 : Fld := ⟨0x0C000744, 8, 23, 16, .rwl, .none⟩
def PWR_FAN_CURVE1_D1 : Fld := ⟨0x0C000744, 8, 15, 8, .rwl, .none⟩
def PWR_FAN_CURVE1_D0 : Fld := ⟨0x0C000744, 8, 7, 0, .rwl, .none⟩
def PWR_FAN_STAT_FAIL : Fld := ⟨0x0C0007C0, 4, 31, 31, .ro, .none⟩
def PWR_FAN_STAT_FORCED : Fld := ⟨0x0C0007C0, 4, 30, 30, .ro, .none⟩
def PWR_FAN_STAT_DUTY : Fld := ⟨0x0C0007C0, 4, 23, 16, .ro, .none⟩
def PWR_FAN_STAT_RPM : Fld := ⟨0x0C0007C0, 4, 15, 0, .ro, .none⟩
def PWR_SENS_CFG_EN : Fld := ⟨0x0C000800, 4, 31, 31, .rwl, .none⟩
def PWR_SENS_CFG_ZONE : Fld := ⟨0x0C000800, 4, 29, 28, .rwl, .none⟩
def PWR_SENS_CFG_ADDR : Fld := ⟨0x0C000800, 4, 23, 17, .rwl, .none⟩
def PWR_SENS_CFG_REG : Fld := ⟨0x0C000800, 4, 15, 8, .rwl, .none⟩
def PWR_SENS_CFG_OFFSET_C : Fld := ⟨0x0C000800, 4, 7, 0, .rwl, .none⟩
def PWR_SENS_CFG31_EN : Fld := ⟨0x0C00087C, 4, 31, 31, .rwl, .none⟩
def PWR_SENS_CFG31_ZONE : Fld := ⟨0x0C00087C, 4, 29, 28, .rwl, .none⟩
def PWR_SENS_CFG31_ADDR : Fld := ⟨0x0C00087C, 4, 23, 17, .rwl, .none⟩
def PWR_SENS_CFG31_REG : Fld := ⟨0x0C00087C, 4, 15, 8, .rwl, .none⟩
def PWR_SENS_CFG31_OFFSET_C : Fld := ⟨0x0C00087C, 4, 7, 0, .rwl, .none⟩
def PWR_SENS_STAT_VALID : Fld := ⟨0x0C000880, 4, 31, 31, .ro, .none⟩
def PWR_SENS_STAT_LOST : Fld := ⟨0x0C000880, 4, 30, 30, .ro, .none⟩
def PWR_SENS_STAT_TEMP : Fld := ⟨0x0C000880, 4, 15, 0, .ro, .none⟩
def HEP_CFG_PEER_EN : Fld := ⟨0x0D000040, 4, 8, 8, .rwl, .none⟩
def HEP_CFG_WIDTH_MAX : Fld := ⟨0x0D000040, 4, 7, 4, .rwl, (.other 1 5 5)⟩
def HEP_CFG_SPEED_MAX : Fld := ⟨0x0D000040, 4, 3, 0, .rwl, (.other 1 6 6)⟩
def HEP_LINK_STAT_UP : Fld := ⟨0x0D000044, 4, 31, 31, .ro, .none⟩
def HEP_LINK_STAT_FLIT : Fld := ⟨0x0D000044, 4, 30, 30, .ro, .none⟩
def HEP_LINK_STAT_SPEED : Fld := ⟨0x0D000044, 4, 27, 24, .ro, .none⟩
def HEP_LINK_STAT_WIDTH : Fld := ⟨0x0D000044, 4, 23, 20, .ro, .none⟩
def HEP_LINK_STAT_DOWNS : Fld := ⟨0x0D000044, 4, 15, 0, .rc, .none⟩
def HEP_ARB_WEIGHT_BURST : Fld := ⟨0x0D000048, 4, 26, 24, .rwl, .none⟩
def HEP_ARB_WEIGHT_LOW : Fld := ⟨0x0D000048, 4, 23, 16, .rwl, .none⟩
def HEP_ARB_WEIGHT_MEDIUM : Fld := ⟨0x0D000048, 4, 15, 8, .rwl, .none⟩
def HEP_ARB_WEIGHT_HIGH : Fld := ⟨0x0D000048, 4, 7, 0, .rwl, .none⟩
def HEP_TAG_STAT_QUARANTINED : Fld := ⟨0x0D00004C, 4, 26, 16, .ro, .none⟩
def HEP_TAG_STAT_IN_USE : Fld := ⟨0x0D00004C, 4, 10, 0, .ro, .none⟩
def HEP_ERR_COUNT_UR_CA : Fld := ⟨0x0D000050, 4, 31, 24, .rc, .none⟩
def HEP_ERR_COUNT_POISONED : Fld := ⟨0x0D000050, 4, 23, 16, .rc, .none⟩
def HEP_ERR_COUNT_TIMEOUTS : Fld := ⟨0x0D000050, 4, 15, 8, .rc, .none⟩
def HEP_ERR_COUNT_LATE : Fld := ⟨0x0D000050, 4, 7, 0, .rc, .none⟩
def HEP_PWIN_COMMIT_MASK : Fld := ⟨0x0D000054, 4, 31, 0, .wo, .none⟩
def HEP_PWIN_STAT_PENDING : Fld := ⟨0x0D000058, 4, 31, 31, .ro, .none⟩
def HEP_PWIN_STAT_REFUSED : Fld := ⟨0x0D000058, 4, 30, 30, .w1c, .none⟩
def HEP_PWIN_STAT_REASON : Fld := ⟨0x0D000058, 4, 29, 27, .ro, .none⟩
def HEP_PWIN_STAT_FAULTS : Fld := ⟨0x0D000058, 4, 15, 0, .rc, .none⟩
def HEP_PPT_SEL_DONE : Fld := ⟨0x0D00005C, 4, 31, 31, .ro, .none⟩
def HEP_PPT_SEL_OP : Fld := ⟨0x0D00005C, 4, 29, 28, .wo, .none⟩
def HEP_PPT_SEL_INDEX : Fld := ⟨0x0D00005C, 4, 15, 0, .wo, .none⟩
def HEP_PPT_DATA_VALID : Fld := ⟨0x0D000060, 4, 31, 31, .rw, .none⟩
def HEP_PPT_DATA_WRITE_OK : Fld := ⟨0x0D000060, 4, 30, 30, .rw, .none⟩
def HEP_PPT_DATA_HANDLE : Fld := ⟨0x0D000060, 4, 23, 0, .rw, .none⟩
def HEP_PWIN_SHADOW0_ENABLE : Fld := ⟨0x0D000100, 8, 31, 31, .rw, .none⟩
def HEP_PWIN_SHADOW0_WRITE_OK : Fld := ⟨0x0D000100, 8, 30, 30, .rw, .none⟩
def HEP_PWIN_SHADOW0_READ_OK : Fld := ⟨0x0D000100, 8, 29, 29, .rw, .none⟩
def HEP_PWIN_SHADOW0_SIZE_SHIFT : Fld := ⟨0x0D000100, 8, 28, 24, .rw, .none⟩
def HEP_PWIN_SHADOW0_OFFSET : Fld := ⟨0x0D000100, 8, 11, 0, .rw, .none⟩
def HEP_PWIN_SHADOW1_TABLE_BASE : Fld := ⟨0x0D000104, 8, 15, 0, .rw, .none⟩
def HEP_PWIN_LIVE0_ENABLE : Fld := ⟨0x0D000200, 8, 31, 31, .ro, .none⟩
def HEP_PWIN_LIVE0_WRITE_OK : Fld := ⟨0x0D000200, 8, 30, 30, .ro, .none⟩
def HEP_PWIN_LIVE0_READ_OK : Fld := ⟨0x0D000200, 8, 29, 29, .ro, .none⟩
def HEP_PWIN_LIVE0_SIZE_SHIFT : Fld := ⟨0x0D000200, 8, 28, 24, .ro, .none⟩
def HEP_PWIN_LIVE0_OFFSET : Fld := ⟨0x0D000200, 8, 11, 0, .ro, .none⟩
def HEP_PWIN_LIVE1_TABLE_BASE : Fld := ⟨0x0D000204, 8, 15, 0, .ro, .none⟩
def HEP_FN_STAT_BME : Fld := ⟨0x0D000300, 4, 31, 31, .ro, .none⟩
def HEP_FN_STAT_FLR : Fld := ⟨0x0D000300, 4, 30, 30, .ro, .none⟩
def HEP_FN_STAT_INT_MODE : Fld := ⟨0x0D000300, 4, 29, 28, .ro, .none⟩
def HEP_FN_STAT_CFS : Fld := ⟨0x0D000300, 4, 27, 27, .ro, .none⟩
def HEP_FN_STAT_ENABLED : Fld := ⟨0x0D000300, 4, 26, 26, .ro, .none⟩
def HEP_FN_STAT_CNTLID : Fld := ⟨0x0D000300, 4, 15, 0, .ro, .none⟩
def RED_MODE_ROLE : Fld := ⟨0x0E000040, 4, 17, 16, .ro, .none⟩
def RED_MODE_EPOCH_US : Fld := ⟨0x0E000040, 4, 12, 8, .ro, .none⟩
def RED_MODE_MODE : Fld := ⟨0x0E000040, 4, 1, 0, .ro, .none⟩
def RED_CFG_PROBE_US : Fld := ⟨0x0E000044, 4, 31, 24, .rwl, (.clamp 1 0xFFFFFFFF)⟩
def RED_CFG_GRACE_100NS : Fld := ⟨0x0E000044, 4, 23, 16, .rwl, (.clamp 1 0xFFFFFFFF)⟩
def RED_CFG_JOIN_100MS : Fld := ⟨0x0E000044, 4, 15, 8, .rwl, (.clamp 1 0xFFFFFFFF)⟩
def RED_CFG_RESYNC_10GBPS : Fld := ⟨0x0E000044, 4, 7, 0, .rwl, (.clamp 1 80)⟩
def RED_STAT_STATE : Fld := ⟨0x0E000048, 4, 31, 28, .ro, .none⟩
def RED_STAT_ACTIVE_ROLE : Fld := ⟨0x0E000048, 4, 27, 26, .ro, .none⟩
def RED_STAT_ACTIVE_VALID : Fld := ⟨0x0E000048, 4, 25, 25, .ro, .none⟩
def RED_STAT_HEEL : Fld := ⟨0x0E000048, 4, 22, 20, .ro, .none⟩
def RED_STAT_FENCED : Fld := ⟨0x0E000048, 4, 18, 16, .ro, .none⟩
def RED_STAT_QUORUM : Fld := ⟨0x0E000048, 4, 1, 0, .ro, .none⟩
def RED_EPOCH_LO_EPOCH : Fld := ⟨0x0E00004C, 4, 31, 0, .ro, .none⟩
def RED_EPOCH_HI_EPOCH : Fld := ⟨0x0E000050, 4, 31, 0, .ro, .none⟩
def RED_ROLE_ORDER_OP : Fld := ⟨0x0E000054, 4, 31, 28, .wo, .none⟩
def RED_ROLE_ORDER_TARGET : Fld := ⟨0x0E000054, 4, 1, 0, .wo, .none⟩
def RED_ORDER_STAT_BUSY : Fld := ⟨0x0E000058, 4, 31, 31, .ro, .none⟩
def RED_ORDER_STAT_REFUSED : Fld := ⟨0x0E000058, 4, 30, 30, .w1c, .none⟩
def RED_ORDER_STAT_RESULT : Fld := ⟨0x0E000058, 4, 27, 24, .ro, .none⟩
def RED_TAKEOVER_STAT_COUNT : Fld := ⟨0x0E00005C, 4, 31, 24, .ro, .none⟩
def RED_TAKEOVER_STAT_LAST_US : Fld := ⟨0x0E00005C, 4, 19, 0, .ro, .none⟩
def RED_RESYNC_STAT_ACTIVE : Fld := ⟨0x0E000060, 4, 31, 31, .ro, .none⟩
def RED_RESYNC_STAT_STEP : Fld := ⟨0x0E000060, 4, 30, 28, .ro, .none⟩
def RED_RESYNC_STAT_PERCENT : Fld := ⟨0x0E000060, 4, 6, 0, .ro, .none⟩
def RED_BACKLOG_MAX : Fld := ⟨0x0E000064, 4, 31, 16, .rc, .none⟩
def RED_BACKLOG_QUEUED : Fld := ⟨0x0E000064, 4, 15, 0, .ro, .none⟩
def RED_PAIR_KEY_HANDLE : Fld := ⟨0x0E000068, 4, 15, 0, .rwl, .none⟩
def RED_PEER_STAT_STATE : Fld := ⟨0x0E000100, 4, 31, 28, .ro, .none⟩
def RED_PEER_STAT_MISSES : Fld := ⟨0x0E000100, 4, 27, 24, .ro, .none⟩
def RED_PEER_STAT_LAST_EPOCH : Fld := ⟨0x0E000100, 4, 23, 0, .ro, .none⟩
def RED_LINK_STAT_UP : Fld := ⟨0x0E000110, 4, 31, 31, .ro, .none⟩
def RED_LINK_STAT_PEER : Fld := ⟨0x0E000110, 4, 30, 28, .ro, .none⟩
def RED_LINK_STAT_RETX : Fld := ⟨0x0E000110, 4, 15, 8, .rc, .none⟩
def RED_LINK_STAT_CRC_ERR : Fld := ⟨0x0E000110, 4, 7, 0, .rc, .none⟩
def TEL_CFG_SAMPLE_EN : Fld := ⟨0x0F000040, 4, 0, 0, .rwl, .none⟩
def TEL_SNAP_CTRL_START : Fld := ⟨0x0F000044, 4, 0, 0, .wo, .none⟩
def TEL_SNAP_STAT_BUSY : Fld := ⟨0x0F000048, 4, 31, 31, .ro, .none⟩
def TEL_SNAP_STAT_DONE : Fld := ⟨0x0F000048, 4, 30, 30, .ro, .none⟩
def TEL_SNAP_STAT_REFUSED : Fld := ⟨0x0F000048, 4, 29, 29, .w1c, .none⟩
def TEL_SNAP_GTS_LO_GTS : Fld := ⟨0x0F00004C, 4, 31, 0, .ro, .none⟩
def TEL_SNAP_GTS_HI_GTS : Fld := ⟨0x0F000050, 4, 31, 0, .ro, .none⟩
def TEL_SAMPLE_STAT_DROPPED : Fld := ⟨0x0F000054, 4, 31, 16, .rc, .none⟩
def TEL_SAMPLE_STAT_QUEUED : Fld := ⟨0x0F000054, 4, 14, 0, .ro, .none⟩
def TEL_SAMPLER_EN : Fld := ⟨0x0F000060, 4, 31, 31, .rwl, .none⟩
def TEL_SAMPLER_PORT_EN : Fld := ⟨0x0F000060, 4, 30, 30, .rwl, .none⟩
def TEL_SAMPLER_PORT : Fld := ⟨0x0F000060, 4, 29, 24, .rwl, .none⟩
def TEL_SAMPLER_COUNTER : Fld := ⟨0x0F000060, 4, 11, 0, .rwl, .none⟩
def TEL_SAMPLER_PERIOD_PERIOD : Fld := ⟨0x0F0000A0, 4, 31, 0, .rwl, (.clamp 1 0xFFFFFFFF)⟩
def TEL_SAMPLE_READ_DATA : Fld := ⟨0x0F000100, 4, 31, 0, .ro, .none⟩
def TEL_CNT_COUNT : Fld := ⟨0x0F010000, 4, 31, 0, .ro, .none⟩
def TEL_SNAP_COUNT : Fld := ⟨0x0F020000, 4, 31, 0, .ro, .none⟩

end F

/-- The rows of block 0 (CTL). -/
def rowsCTL : List RegRow := [
  ⟨"CTL_CFG", 0x00000040, 1, 4, 0x001E3C00,
    [F.CTL_CFG_LEASE_S, F.CTL_CFG_IDLE_S, F.CTL_CFG_I3C_WRITE, F.CTL_CFG_PF0_BONE, F.CTL_CFG_COMMISSION]⟩,
  ⟨"CTL_LOCK", 0x00000044, 1, 4, 0x00000000,
    [F.CTL_LOCK_IMAGE_LOCK]⟩,
  ⟨"CTL_BONE", 0x00000048, 1, 4, 0x00000000,
    [F.CTL_BONE_HELD, F.CTL_BONE_PATH, F.CTL_BONE_SESSION]⟩,
  ⟨"CTL_BONE_LEASE", 0x0000004C, 1, 4, 0x00000000,
    [F.CTL_BONE_LEASE_REMAIN_MS]⟩,
  ⟨"CTL_BONE_REQ", 0x00000050, 1, 4, 0x00000000,
    [F.CTL_BONE_REQ_OP]⟩,
  ⟨"CTL_GTS_LO", 0x00000054, 1, 4, 0x00000000,
    [F.CTL_GTS_LO_GTS]⟩,
  ⟨"CTL_GTS_HI", 0x00000058, 1, 4, 0x00000000,
    [F.CTL_GTS_HI_GTS]⟩,
  ⟨"CTL_GTS_STAT", 0x0000005C, 1, 4, 0x40000000,
    [F.CTL_GTS_STAT_LOCKED, F.CTL_GTS_STAT_SOURCE, F.CTL_GTS_STAT_STEPS]⟩,
  ⟨"CTL_PPS_SEC_LO", 0x00000060, 1, 4, 0x00000000,
    [F.CTL_PPS_SEC_LO_SECONDS]⟩,
  ⟨"CTL_PPS_SEC_HI", 0x00000064, 1, 4, 0x00000000,
    [F.CTL_PPS_SEC_HI_SECONDS]⟩,
  ⟨"CTL_PROFILE_STAT", 0x00000068, 1, 4, 0x00000000,
    [F.CTL_PROFILE_STAT_VALID, F.CTL_PROFILE_STAT_PINS, F.CTL_PROFILE_STAT_SLOT]⟩,
  ⟨"CTL_SESSIONS", 0x0000006C, 1, 4, 0x00000000,
    [F.CTL_SESSIONS_AUTH_FAILS, F.CTL_SESSIONS_MB, F.CTL_SESSIONS_MA]⟩,
  ⟨"CTL_CONFLICT_COUNT", 0x00000070, 1, 4, 0x00000000,
    [F.CTL_CONFLICT_COUNT_COUNT]⟩,
  ⟨"CTL_CLOG_COUNT", 0x00000074, 1, 4, 0x00000000,
    [F.CTL_CLOG_COUNT_COUNT]⟩,
  ⟨"CTL_RESET_STAT", 0x00000078, 1, 4, 0x00001000,
    [F.CTL_RESET_STAT_BOOT_MS, F.CTL_RESET_STAT_STEP, F.CTL_RESET_STAT_FW_SLOT, F.CTL_RESET_STAT_RECOVERY, F.CTL_RESET_STAT_BOOT_MODE, F.CTL_RESET_STAT_CAUSE]⟩,
  ⟨"CTL_PROFILE_INFO", 0x00000100, 8, 4, 0x00000000,
    [F.CTL_PROFILE_INFO_VALID, F.CTL_PROFILE_INFO_RUNNING, F.CTL_PROFILE_INFO_STORING, F.CTL_PROFILE_INFO_LENGTH_KIB]⟩,
  ⟨"CTL_PATH_STAT", 0x00000140, 5, 4, 0x00000000,
    [F.CTL_PATH_STAT_NOT_HOLDER, F.CTL_PATH_STAT_LOCKED, F.CTL_PATH_STAT_NO_RIGHT, F.CTL_PATH_STAT_TAG_FAIL, F.CTL_PATH_STAT_CONFLICT, F.CTL_PATH_STAT_REFUSED]⟩,
  ⟨"CTL_RING_CFG", 0x00000200, 8, 4, 0x10000000,
    [F.CTL_RING_CFG_READER, F.CTL_RING_CFG_IBI_MA, F.CTL_RING_CFG_SIZE_LOG2, F.CTL_RING_CFG_IBI_MB, F.CTL_RING_CFG_MIN_SEV, F.CTL_RING_CFG_SESSION]⟩,
  ⟨"CTL_RING_STAT", 0x00000240, 8, 4, 0x00000000,
    [F.CTL_RING_STAT_DROPPED, F.CTL_RING_STAT_QUEUED]⟩,
  ⟨"CTL_RING_READ", 0x00000280, 32, 4, 0x00000000,
    [F.CTL_RING_READ_DATA]⟩,
  ⟨"CTL_CONFLICT_LOG0", 0x00000300, 16, 16, 0x00000000,
    [F.CTL_CONFLICT_LOG0_FIRST_PATH, F.CTL_CONFLICT_LOG0_SECOND_PATH, F.CTL_CONFLICT_LOG0_ADDR]⟩,
  ⟨"CTL_CONFLICT_LOG1", 0x00000304, 16, 16, 0x00000000,
    [F.CTL_CONFLICT_LOG1_FIRST_VALUE]⟩,
  ⟨"CTL_CONFLICT_LOG2", 0x00000308, 16, 16, 0x00000000,
    [F.CTL_CONFLICT_LOG2_SECOND_VALUE]⟩,
  ⟨"CTL_CONFLICT_LOG3", 0x0000030C, 16, 16, 0x00000000,
    [F.CTL_CONFLICT_LOG3_GTS_LOW]⟩]

/-- The rows of block 1 (PRT). -/
def rowsPRT : List RegRow := [
  ⟨"PRT_WAKE_CFG", 0x01000040, 1, 4, 0x00000000,
    [F.PRT_WAKE_CFG_B_EN, F.PRT_WAKE_CFG_PORT_B, F.PRT_WAKE_CFG_A_EN, F.PRT_WAKE_CFG_PORT_A]⟩,
  ⟨"PRT_PTP_CFG", 0x01000044, 1, 4, 0x00000000,
    [F.PRT_PTP_CFG_DOMAIN, F.PRT_PTP_CFG_TRANSPORT, F.PRT_PTP_CFG_ONE_STEP, F.PRT_PTP_CFG_ENABLE, F.PRT_PTP_CFG_LPORT]⟩,
  ⟨"PRT_TS_CTRL", 0x01000048, 1, 4, 0x00000000,
    [F.PRT_TS_CTRL_DONE, F.PRT_TS_CTRL_EMPTY, F.PRT_TS_CTRL_LPORT]⟩,
  ⟨"PRT_TS_DATA", 0x01000050, 2, 4, 0x00000000,
    [F.PRT_TS_DATA_GTS]⟩,
  ⟨"PRT_TS_DATA2", 0x01000058, 1, 4, 0x00000000,
    [F.PRT_TS_DATA2_SEQ_ID, F.PRT_TS_DATA2_MSG_TYPE, F.PRT_TS_DATA2_DOMAIN]⟩,
  ⟨"PRT_TS_DATA3", 0x0100005C, 1, 4, 0x00000000,
    [F.PRT_TS_DATA3_VALID, F.PRT_TS_DATA3_LPORT]⟩,
  ⟨"PRT_PORT_CFG", 0x01000100, 16, 4, 0x00000007,
    [F.PRT_PORT_CFG_AN_EN, F.PRT_PORT_CFG_INTF, F.PRT_PORT_CFG_MODE]⟩,
  ⟨"PRT_LPORT_CFG", 0x01000200, 64, 4, 0x00002400,
    [F.PRT_LPORT_CFG_ASYM_NS, F.PRT_LPORT_CFG_PFC_EN, F.PRT_LPORT_CFG_MAX_FRAME]⟩,
  ⟨"PRT_LPORT_STAT", 0x01000300, 64, 4, 0x00000000,
    [F.PRT_LPORT_STAT_LINK_UP, F.PRT_LPORT_STAT_FEC_DEGRADED, F.PRT_LPORT_STAT_SPEED, F.PRT_LPORT_STAT_PAUSED, F.PRT_LPORT_STAT_LINK_DOWNS]⟩,
  ⟨"PRT_LPORT_RXERR", 0x01000400, 64, 4, 0x00000000,
    [F.PRT_LPORT_RXERR_FCS, F.PRT_LPORT_RXERR_LENGTH, F.PRT_LPORT_RXERR_IPCSUM, F.PRT_LPORT_RXERR_L4]⟩,
  ⟨"PRT_STATION_LO", 0x01000800, 256, 8, 0x00000000,
    [F.PRT_STATION_LO_ADDR_LO]⟩,
  ⟨"PRT_STATION_HI", 0x01000804, 256, 8, 0x00000000,
    [F.PRT_STATION_HI_VALID, F.PRT_STATION_HI_ADDR_HI]⟩,
  ⟨"PRT_WAKE_MASK", 0x01001000, 4096, 4, 0x00000000,
    [F.PRT_WAKE_MASK_MASK]⟩,
  ⟨"PRT_WAKE_CHECK", 0x01005000, 128, 4, 0x00000000,
    [F.PRT_WAKE_CHECK_CHECK]⟩,
  ⟨"PRT_WAKE_EN", 0x01005200, 16, 4, 0x00000000,
    [F.PRT_WAKE_EN_MATCHED, F.PRT_WAKE_EN_EN]⟩]

/-- The rows of block 2 (CLS). -/
def rowsCLS : List RegRow := [
  ⟨"CLS_CFG", 0x02000040, 1, 4, 0x00000000,
    [F.CLS_CFG_SCENT_EN, F.CLS_CFG_DEEP, F.CLS_CFG_PATTERNS, F.CLS_CFG_NODES]⟩,
  ⟨"CLS_TCAM_USE", 0x02000044, 1, 4, 0x00000000,
    [F.CLS_TCAM_USE_VALID]⟩,
  ⟨"CLS_RULE_CTRL", 0x02000048, 1, 4, 0x00000000,
    [F.CLS_RULE_CTRL_OP, F.CLS_RULE_CTRL_INDEX]⟩,
  ⟨"CLS_RULE_STAT", 0x0200004C, 1, 4, 0x00000000,
    [F.CLS_RULE_STAT_BUSY, F.CLS_RULE_STAT_REFUSED, F.CLS_RULE_STAT_VALID]⟩,
  ⟨"CLS_RULE_DATA", 0x02000100, 42, 4, 0x00000000,
    [F.CLS_RULE_DATA_DATA]⟩,
  ⟨"CLS_PUNT_CFG", 0x02000200, 8, 4, 0x02710100,
    [F.CLS_PUNT_CFG_RATE, F.CLS_PUNT_CFG_BURST]⟩,
  ⟨"CLS_PUNT_STAT", 0x02000240, 8, 4, 0x00000000,
    [F.CLS_PUNT_STAT_DROPPED, F.CLS_PUNT_STAT_DEPTH]⟩]

/-- The rows of block 3 (SWC). -/
def rowsSWC : List RegRow := [
  ⟨"SWC_CFG", 0x03000040, 1, 4, 0x03E80203,
    [F.SWC_CFG_BH_PERIOD_MS, F.SWC_CFG_CT_START_CELLS, F.SWC_CFG_BH_RECLAIM, F.SWC_CFG_BH_EN, F.SWC_CFG_CT_EN]⟩,
  ⟨"SWC_FREE_CELLS", 0x03000044, 1, 4, 0x00100000,
    [F.SWC_FREE_CELLS_COUNT]⟩,
  ⟨"SWC_FREE_MIN", 0x03000048, 1, 4, 0x00100000,
    [F.SWC_FREE_MIN_COUNT]⟩,
  ⟨"SWC_C0_FLOOR", 0x0300004C, 1, 4, 0x00010000,
    [F.SWC_C0_FLOOR_COUNT]⟩,
  ⟨"SWC_BH_STAT", 0x03000050, 1, 4, 0x00000000,
    [F.SWC_BH_STAT_CORRUPT, F.SWC_BH_STAT_ORPHANS, F.SWC_BH_STAT_LEAKS, F.SWC_BH_STAT_STALE]⟩,
  ⟨"SWC_MC_SEL", 0x03000054, 1, 4, 0x00000000,
    [F.SWC_MC_SEL_DONE, F.SWC_MC_SEL_REFUSED, F.SWC_MC_SEL_OP, F.SWC_MC_SEL_GROUP]⟩,
  ⟨"SWC_MC_DATA0", 0x03000058, 1, 4, 0x00000000,
    [F.SWC_MC_DATA0_MEMBERS_LO]⟩,
  ⟨"SWC_MC_DATA1", 0x0300005C, 1, 4, 0x00000000,
    [F.SWC_MC_DATA1_MEMBERS_HI]⟩,
  ⟨"SWC_MC_DATA2", 0x03000060, 1, 4, 0x00000000,
    [F.SWC_MC_DATA2_VALID, F.SWC_MC_DATA2_SELF]⟩,
  ⟨"SWC_HOLD_LIMIT0", 0x03000100, 1, 4, 0x00000000,
    []⟩,
  ⟨"SWC_HOLD_LIMIT1", 0x03000104, 1, 4, 0x0000000A,
    [F.SWC_HOLD_LIMIT1_LIMIT_MS]⟩,
  ⟨"SWC_HOLD_LIMIT2", 0x03000108, 1, 4, 0x000003E8,
    [F.SWC_HOLD_LIMIT2_LIMIT_MS]⟩,
  ⟨"SWC_HOLD_LIMIT3", 0x0300010C, 1, 4, 0x00004E20,
    [F.SWC_HOLD_LIMIT3_LIMIT_MS]⟩,
  ⟨"SWC_HOLD_LIMIT4", 0x03000110, 1, 4, 0x00000000,
    [F.SWC_HOLD_LIMIT4_LIMIT_MS]⟩,
  ⟨"SWC_HOLD_LIMIT5", 0x03000114, 1, 4, 0x00004E20,
    [F.SWC_HOLD_LIMIT5_LIMIT_MS]⟩,
  ⟨"SWC_HOLD_LIMIT6", 0x03000118, 1, 4, 0x00004E20,
    [F.SWC_HOLD_LIMIT6_LIMIT_MS]⟩,
  ⟨"SWC_HOLD_LIMIT7", 0x0300011C, 1, 4, 0x000003E8,
    [F.SWC_HOLD_LIMIT7_LIMIT_MS]⟩,
  ⟨"SWC_HOLD_LIMIT8", 0x03000120, 1, 4, 0x00000064,
    [F.SWC_HOLD_LIMIT8_LIMIT_MS]⟩,
  ⟨"SWC_HOLD_LIMIT9", 0x03000124, 1, 4, 0x00000000,
    [F.SWC_HOLD_LIMIT9_LIMIT_MS]⟩,
  ⟨"SWC_HOLD_LIMIT10", 0x03000128, 1, 4, 0x00000000,
    [F.SWC_HOLD_LIMIT10_LIMIT_MS]⟩,
  ⟨"SWC_HOLD_LIMIT11", 0x0300012C, 1, 4, 0x00000000,
    [F.SWC_HOLD_LIMIT11_LIMIT_MS]⟩,
  ⟨"SWC_HOLD_LIMIT12", 0x03000130, 1, 4, 0x00000000,
    [F.SWC_HOLD_LIMIT12_LIMIT_MS]⟩,
  ⟨"SWC_HOLD_LIMIT13", 0x03000134, 1, 4, 0x00000000,
    [F.SWC_HOLD_LIMIT13_LIMIT_MS]⟩,
  ⟨"SWC_HOLD_LIMIT14", 0x03000138, 1, 4, 0x00000000,
    [F.SWC_HOLD_LIMIT14_LIMIT_MS]⟩,
  ⟨"SWC_HOLD_LIMIT15", 0x0300013C, 1, 4, 0x00000000,
    [F.SWC_HOLD_LIMIT15_LIMIT_MS]⟩,
  ⟨"SWC_PFC_CFG", 0x03000200, 64, 4, 0x40030040,
    [F.SWC_PFC_CFG_XOFF_CELLS, F.SWC_PFC_CFG_XON_CELLS, F.SWC_PFC_CFG_HDRM]⟩,
  ⟨"SWC_PFC_STAT", 0x03000300, 64, 4, 0x00000000,
    [F.SWC_PFC_STAT_XOFF, F.SWC_PFC_STAT_HDRM_DROPS]⟩,
  ⟨"SWC_PORT_DROP", 0x03000400, 64, 4, 0x00000000,
    [F.SWC_PORT_DROP_MC_DOWN, F.SWC_PORT_DROP_MC_LIMIT, F.SWC_PORT_DROP_MC_GATE, F.SWC_PORT_DROP_STOMPED]⟩]

/-- The rows of block 4 (TMG). -/
def rowsTMG : List RegRow := [
  ⟨"TMG_CFG", 0x04000040, 1, 4, 0x00000003,
    [F.TMG_CFG_HIST_EN, F.TMG_CFG_ECN_EN]⟩,
  ⟨"TMG_Q_SEL", 0x04000044, 1, 4, 0x00000000,
    [F.TMG_Q_SEL_DONE, F.TMG_Q_SEL_REFUSED, F.TMG_Q_SEL_OP, F.TMG_Q_SEL_NODE, F.TMG_Q_SEL_INDEX]⟩,
  ⟨"TMG_Q_DATA0", 0x04000048, 1, 4, 0x00000000,
    [F.TMG_Q_DATA0_VALID, F.TMG_Q_DATA0_ECN_EN, F.TMG_Q_DATA0_LPORT, F.TMG_Q_DATA0_NODE, F.TMG_Q_DATA0_TC, F.TMG_Q_DATA0_PRIO, F.TMG_Q_DATA0_WEIGHT]⟩,
  ⟨"TMG_Q_DATA1", 0x0400004C, 1, 4, 0x00000000,
    [F.TMG_Q_DATA1_ALPHA, F.TMG_Q_DATA1_YELLOW, F.TMG_Q_DATA1_MAX_CELLS]⟩,
  ⟨"TMG_Q_DATA2", 0x04000050, 1, 4, 0x00000000,
    [F.TMG_Q_DATA2_ECN_MAX, F.TMG_Q_DATA2_ECN_MIN]⟩,
  ⟨"TMG_Q_DATA3", 0x04000054, 1, 4, 0x00000000,
    [F.TMG_Q_DATA3_PMAX, F.TMG_Q_DATA3_RATE]⟩,
  ⟨"TMG_Q_DATA4", 0x04000058, 1, 4, 0x00000000,
    [F.TMG_Q_DATA4_BURST_KIB]⟩,
  ⟨"TMG_Q_DATA5", 0x0400005C, 1, 4, 0x00000000,
    [F.TMG_Q_DATA5_DEPTH]⟩,
  ⟨"TMG_POL_SEL", 0x04000060, 1, 4, 0x00000000,
    [F.TMG_POL_SEL_DONE, F.TMG_POL_SEL_REFUSED, F.TMG_POL_SEL_OP, F.TMG_POL_SEL_INDEX]⟩,
  ⟨"TMG_POL_DATA0", 0x04000064, 1, 4, 0x00000000,
    [F.TMG_POL_DATA0_VALID, F.TMG_POL_DATA0_MODE, F.TMG_POL_DATA0_AWARE, F.TMG_POL_DATA0_CIR]⟩,
  ⟨"TMG_POL_DATA1", 0x04000068, 1, 4, 0x00000000,
    [F.TMG_POL_DATA1_PIR]⟩,
  ⟨"TMG_POL_DATA2", 0x0400006C, 1, 4, 0x00000000,
    [F.TMG_POL_DATA2_CBS_KIB, F.TMG_POL_DATA2_EPBS_KIB]⟩,
  ⟨"TMG_POL_DATA3", 0x04000070, 1, 4, 0x00000000,
    [F.TMG_POL_DATA3_YELLOW_FRAMES, F.TMG_POL_DATA3_RED_FRAMES]⟩,
  ⟨"TMG_GATE_SEL", 0x04000074, 1, 4, 0x00000000,
    [F.TMG_GATE_SEL_DONE, F.TMG_GATE_SEL_REFUSED, F.TMG_GATE_SEL_OP, F.TMG_GATE_SEL_INDEX]⟩,
  ⟨"TMG_GATE_DATA", 0x04000078, 1, 4, 0x00000000,
    [F.TMG_GATE_DATA_GATES, F.TMG_GATE_DATA_DURATION_NS]⟩,
  ⟨"TMG_GATE_BASE_LO", 0x0400007C, 1, 4, 0x00000000,
    [F.TMG_GATE_BASE_LO_BASE]⟩,
  ⟨"TMG_GATE_BASE_HI", 0x04000080, 1, 4, 0x00000000,
    [F.TMG_GATE_BASE_HI_BASE]⟩,
  ⟨"TMG_GATE_COMMIT", 0x04000084, 1, 4, 0x00000000,
    [F.TMG_GATE_COMMIT_ENABLE, F.TMG_GATE_COMMIT_LAST, F.TMG_GATE_COMMIT_LPORT]⟩,
  ⟨"TMG_BG_CFG", 0x04000088, 1, 4, 0x00C80040,
    [F.TMG_BG_CFG_RATE, F.TMG_BG_CFG_BURST_MIB]⟩,
  ⟨"TMG_HIST_SEL", 0x0400008C, 1, 4, 0x00000000,
    [F.TMG_HIST_SEL_DONE, F.TMG_HIST_SEL_CLEAR, F.TMG_HIST_SEL_QUEUE]⟩,
  ⟨"TMG_HIST_DATA", 0x04000100, 32, 4, 0x00000000,
    [F.TMG_HIST_DATA_COUNT]⟩,
  ⟨"TMG_PORT_CFG", 0x04000200, 64, 4, 0x03E80000,
    [F.TMG_PORT_CFG_MAX_GATE_WAIT_US]⟩,
  ⟨"TMG_GATE_STAT", 0x04000300, 64, 4, 0x00000000,
    [F.TMG_GATE_STAT_ENABLED, F.TMG_GATE_STAT_PENDING, F.TMG_GATE_STAT_BANK, F.TMG_GATE_STAT_C0_CLOSED, F.TMG_GATE_STAT_OVERSIZE]⟩]

/-- The rows of block 5 (XPT). -/
def rowsXPT : List RegRow := [
  ⟨"XPT_CFG", 0x05000040, 1, 4, 0x00100507,
    [F.XPT_CFG_INIT_DEPTH, F.XPT_CFG_PMTU_MAX, F.XPT_CFG_CC_EN, F.XPT_CFG_CNP_EN, F.XPT_CFG_STRICT]⟩,
  ⟨"XPT_CTX_INUSE", 0x05000044, 1, 4, 0x00000000,
    [F.XPT_CTX_INUSE_COUNT]⟩,
  ⟨"XPT_CTX_HWM", 0x05000048, 1, 4, 0x00000000,
    [F.XPT_CTX_HWM_HWM]⟩,
  ⟨"XPT_MR_INUSE", 0x0500004C, 1, 4, 0x00000000,
    [F.XPT_MR_INUSE_COUNT]⟩,
  ⟨"XPT_CACHE_MISS_LO", 0x05000050, 1, 4, 0x00000000,
    [F.XPT_CACHE_MISS_LO_MISSES]⟩,
  ⟨"XPT_CACHE_MISS_HI", 0x05000054, 1, 4, 0x00000000,
    [F.XPT_CACHE_MISS_HI_MISSES]⟩,
  ⟨"XPT_CACHE_STALL", 0x05000058, 1, 4, 0x00000000,
    [F.XPT_CACHE_STALL_STALLS]⟩,
  ⟨"XPT_TRIG_STAT", 0x0500005C, 1, 4, 0x00000000,
    [F.XPT_TRIG_STAT_MISSES, F.XPT_TRIG_STAT_ARMED]⟩,
  ⟨"XPT_RETRY_CFG", 0x05000060, 1, 4, 0x00127708,
    [F.XPT_RETRY_CFG_RNR_TIMER, F.XPT_RETRY_CFG_RNR_RETRY, F.XPT_RETRY_CFG_RETRY_CNT, F.XPT_RETRY_CFG_ACK_EXP]⟩,
  ⟨"XPT_CC_CFG", 0x05000064, 1, 4, 0x0A8007D0,
    [F.XPT_CC_CFG_AI_STEP, F.XPT_CC_CFG_BETA, F.XPT_CC_CFG_TARGET_NS]⟩,
  ⟨"XPT_CC_LIMITS", 0x05000068, 1, 4, 0x00640001,
    [F.XPT_CC_LIMITS_BASE_WIN_MS, F.XPT_CC_LIMITS_MIN_RATE]⟩,
  ⟨"XPT_INV_CTRL", 0x0500006C, 1, 4, 0x00000000,
    [F.XPT_INV_CTRL_RKEY]⟩,
  ⟨"XPT_INV_STATUS", 0x05000070, 1, 4, 0x00000000,
    [F.XPT_INV_STATUS_BUSY, F.XPT_INV_STATUS_FORCED, F.XPT_INV_STATUS_REFUSED, F.XPT_INV_STATUS_STRADDLING]⟩,
  ⟨"XPT_INV_LIMIT", 0x05000074, 1, 4, 0x00002710,
    [F.XPT_INV_LIMIT_LIMIT_US]⟩,
  ⟨"XPT_CTX_SEL", 0x05000078, 1, 4, 0x00000000,
    [F.XPT_CTX_SEL_DONE, F.XPT_CTX_SEL_QPN]⟩,
  ⟨"XPT_CTX_DATA", 0x05000200, 32, 4, 0x00000000,
    [F.XPT_CTX_DATA_DATA]⟩]

/-- The rows of block 6 (CMD). -/
def rowsCMD : List RegRow := [
  ⟨"CMD_CFG", 0x06000040, 1, 4, 0x00000011,
    [F.CMD_CFG_PS0_HOLD, F.CMD_CFG_C0_EN]⟩,
  ⟨"CMD_OBJ_COUNT", 0x06000044, 1, 4, 0x00000000,
    [F.CMD_OBJ_COUNT_NAMESPACES, F.CMD_OBJ_COUNT_HOSTS]⟩,
  ⟨"CMD_CTRL_COUNT", 0x06000048, 1, 4, 0x00000000,
    [F.CMD_CTRL_COUNT_CONTROLLERS]⟩,
  ⟨"CMD_BOUND_STAT", 0x0600004C, 1, 4, 0x00000000,
    [F.CMD_BOUND_STAT_JOURNAL, F.CMD_BOUND_STAT_EPOCH, F.CMD_BOUND_STAT_FLOOR, F.CMD_BOUND_STAT_RESYNC, F.CMD_BOUND_STAT_FAILOVER, F.CMD_BOUND_STAT_ACT]⟩,
  ⟨"CMD_PS_STATE", 0x06000050, 1, 4, 0x00000000,
    [F.CMD_PS_STATE_EXITING, F.CMD_PS_STATE_STATE]⟩,
  ⟨"CMD_PS_CFG", 0x06000054, 1, 4, 0x00000000,
    [F.CMD_PS_CFG_PS4_EN]⟩,
  ⟨"CMD_ACT_CTRL", 0x06000058, 1, 4, 0x00000000,
    [F.CMD_ACT_CTRL_KIND, F.CMD_ACT_CTRL_SLOT]⟩,
  ⟨"CMD_ACT_STATUS", 0x0600005C, 1, 4, 0x00000000,
    [F.CMD_ACT_STATUS_RESULT, F.CMD_ACT_STATUS_STEP, F.CMD_ACT_STATUS_STOP_US]⟩,
  ⟨"CMD_ACT_DRAIN_LIMIT", 0x06000060, 1, 4, 0x00013880,
    [F.CMD_ACT_DRAIN_LIMIT_LIMIT_US]⟩,
  ⟨"CMD_SELFTEST_STAT", 0x06000064, 1, 4, 0x00000000,
    [F.CMD_SELFTEST_STAT_PERCENT, F.CMD_SELFTEST_STAT_CODE]⟩,
  ⟨"CMD_IDLE_TIMER0", 0x06000070, 1, 4, 0x00000064,
    [F.CMD_IDLE_TIMER0_IDLE_US]⟩,
  ⟨"CMD_IDLE_TIMER1", 0x06000074, 1, 4, 0x000F4240,
    [F.CMD_IDLE_TIMER1_IDLE_US]⟩,
  ⟨"CMD_IDLE_TIMER2", 0x06000078, 1, 4, 0x03938700,
    [F.CMD_IDLE_TIMER2_IDLE_US]⟩,
  ⟨"CMD_IDLE_TIMER3", 0x0600007C, 1, 4, 0x00000000,
    [F.CMD_IDLE_TIMER3_IDLE_US]⟩,
  ⟨"CMD_ARB_WEIGHT", 0x06000100, 64, 4, 0x0303070F,
    [F.CMD_ARB_WEIGHT_BURST, F.CMD_ARB_WEIGHT_LOW, F.CMD_ARB_WEIGHT_MEDIUM, F.CMD_ARB_WEIGHT_HIGH]⟩,
  ⟨"CMD_C0_BUDGET", 0x06000200, 64, 4, 0x0400007D,
    [F.CMD_C0_BUDGET_DEPTH_KIB, F.CMD_C0_BUDGET_RATE]⟩,
  ⟨"CMD_C0_STAT", 0x06000300, 64, 4, 0x00000000,
    [F.CMD_C0_STAT_REFUSED, F.CMD_C0_STAT_OUTSTANDING]⟩,
  ⟨"CMD_C0_LAT_MAX", 0x06000400, 64, 4, 0x00000000,
    [F.CMD_C0_LAT_MAX_MAX_NS]⟩]

/-- The rows of block 7 (LAY). -/
def rowsLAY : List RegRow := [
  ⟨"LAY_CFG", 0x07000040, 1, 4, 0x000A000F,
    [F.LAY_CFG_SEAL_IDLE_S, F.LAY_CFG_AUTO_FORMAT, F.LAY_CFG_AUTO_REBUILD, F.LAY_CFG_RECLAIM_EN, F.LAY_CFG_SCRUB_EN]⟩,
  ⟨"LAY_STATE", 0x07000044, 1, 4, 0x00000000,
    [F.LAY_STATE_COPIES, F.LAY_STATE_DRIVES, F.LAY_STATE_SHELF, F.LAY_STATE_OPEN_SETS]⟩,
  ⟨"LAY_MAP_USE", 0x07000048, 1, 4, 0x00000000,
    [F.LAY_MAP_USE_COUNT]⟩,
  ⟨"LAY_SET_USE", 0x0700004C, 1, 4, 0x00000000,
    [F.LAY_SET_USE_COUNT]⟩,
  ⟨"LAY_CHUNK_FREE", 0x07000050, 1, 4, 0x00000000,
    [F.LAY_CHUNK_FREE_COUNT]⟩,
  ⟨"LAY_JRNL_STAT", 0x07000054, 1, 4, 0x00000000,
    [F.LAY_JRNL_STAT_FULL, F.LAY_JRNL_STAT_THROTTLE, F.LAY_JRNL_STAT_FILL_PCT]⟩,
  ⟨"LAY_CKPT_CTRL", 0x07000058, 1, 4, 0x00000000,
    [F.LAY_CKPT_CTRL_START]⟩,
  ⟨"LAY_CKPT_CFG", 0x0700005C, 1, 4, 0x0032003C,
    [F.LAY_CKPT_CFG_JRNL_PCT, F.LAY_CKPT_CFG_INTERVAL_S]⟩,
  ⟨"LAY_CKPT_STAT", 0x07000060, 1, 4, 0x00000000,
    [F.LAY_CKPT_STAT_BUSY, F.LAY_CKPT_STAT_FAILED, F.LAY_CKPT_STAT_LAST_S]⟩,
  ⟨"LAY_CKPT_JSEQ_LO", 0x07000064, 1, 4, 0x00000000,
    [F.LAY_CKPT_JSEQ_LO_JSEQ]⟩,
  ⟨"LAY_CKPT_JSEQ_HI", 0x07000068, 1, 4, 0x00000000,
    [F.LAY_CKPT_JSEQ_HI_JSEQ]⟩,
  ⟨"LAY_REBUILD_STAT", 0x0700006C, 1, 4, 0x00000000,
    [F.LAY_REBUILD_STAT_ACTIVE, F.LAY_REBUILD_STAT_WAITING_SPARE, F.LAY_REBUILD_STAT_SLOT, F.LAY_REBUILD_STAT_PERCENT]⟩,
  ⟨"LAY_SCRUB_CFG", 0x07000070, 1, 4, 0x0000001E,
    [F.LAY_SCRUB_CFG_CYCLE_DAYS]⟩,
  ⟨"LAY_SCRUB_STAT", 0x07000074, 1, 4, 0x00000000,
    [F.LAY_SCRUB_STAT_REPAIRS, F.LAY_SCRUB_STAT_PERCENT]⟩,
  ⟨"LAY_RECLAIM_CFG", 0x07000078, 1, 4, 0x00000219,
    [F.LAY_RECLAIM_CFG_SPARE_DRIVES, F.LAY_RECLAIM_CFG_LIVE_PCT]⟩,
  ⟨"LAY_DECODE_COUNT", 0x0700007C, 1, 4, 0x00000000,
    [F.LAY_DECODE_COUNT_COUNT]⟩,
  ⟨"LAY_CHECK_FAIL", 0x07000080, 1, 4, 0x00000000,
    [F.LAY_CHECK_FAIL_COUNT]⟩,
  ⟨"LAY_FORMAT_ORDER", 0x07000084, 1, 4, 0x00000000,
    [F.LAY_FORMAT_ORDER_CONFIRM, F.LAY_FORMAT_ORDER_SLOT]⟩,
  ⟨"LAY_GEOM", 0x07000100, 16, 4, 0x00000000,
    [F.LAY_GEOM_VALID, F.LAY_GEOM_U_SHIFT, F.LAY_GEOM_M, F.LAY_GEOM_K]⟩,
  ⟨"LAY_DRIVE_STATE", 0x07000200, 48, 4, 0x00000000,
    [F.LAY_DRIVE_STATE_FREE_CHUNKS, F.LAY_DRIVE_STATE_STATE]⟩]

/-- The rows of block 8 (FIX). -/
def rowsFIX : List RegRow := [
  ⟨"FIX_CFG", 0x08000040, 1, 4, 0x00000004,
    [F.FIX_CFG_PERIOD_QS]⟩,
  ⟨"FIX_STAT", 0x08000044, 1, 4, 0x00000000,
    [F.FIX_STAT_RECOMPUTING, F.FIX_STAT_BACKLOG, F.FIX_STAT_UNSEALED]⟩,
  ⟨"FIX_SEALED_SEQ_LO", 0x08000048, 1, 4, 0x00000000,
    [F.FIX_SEALED_SEQ_LO_SEQ]⟩,
  ⟨"FIX_SEALED_SEQ_HI", 0x0800004C, 1, 4, 0x00000000,
    [F.FIX_SEALED_SEQ_HI_SEQ]⟩,
  ⟨"FIX_OPEN_LEAVES", 0x08000050, 1, 4, 0x00000000,
    [F.FIX_OPEN_LEAVES_COUNT]⟩,
  ⟨"FIX_SIGN_TIME", 0x08000054, 1, 4, 0x00000000,
    [F.FIX_SIGN_TIME_MAX_MS, F.FIX_SIGN_TIME_LAST_MS]⟩,
  ⟨"FIX_AUDIT_CFG", 0x08000058, 1, 4, 0x0000016D,
    [F.FIX_AUDIT_CFG_CYCLE_DAYS]⟩,
  ⟨"FIX_AUDIT_STAT", 0x0800005C, 1, 4, 0x00000000,
    [F.FIX_AUDIT_STAT_MISMATCHES, F.FIX_AUDIT_STAT_PERCENT]⟩,
  ⟨"FIX_MIG_CFG", 0x08000060, 1, 4, 0x02100040,
    [F.FIX_MIG_CFG_RETRIES, F.FIX_MIG_CFG_WINDOWS, F.FIX_MIG_CFG_FAIL_STOP, F.FIX_MIG_CFG_AUTO_CUTOVER, F.FIX_MIG_CFG_WINDOW_MIB]⟩,
  ⟨"FIX_MIG_LIMITS", 0x08000064, 1, 4, 0x13881000,
    [F.FIX_MIG_LIMITS_CUTOVER_MS, F.FIX_MIG_LIMITS_CATCHUP_MAX]⟩,
  ⟨"FIX_MIG_CTRL", 0x08000068, 1, 4, 0x00000000,
    [F.FIX_MIG_CTRL_ORDER, F.FIX_MIG_CTRL_JOB]⟩,
  ⟨"FIX_MIG_STAT", 0x08000100, 16, 4, 0x00000000,
    [F.FIX_MIG_STAT_STATE, F.FIX_MIG_STAT_TARGET, F.FIX_MIG_STAT_PASS, F.FIX_MIG_STAT_FAILED]⟩,
  ⟨"FIX_MIG_OBJS", 0x08000140, 16, 4, 0x00000000,
    [F.FIX_MIG_OBJS_COUNT]⟩]

/-- The rows of block 9 (DRV). -/
def rowsDRV : List RegRow := [
  ⟨"DRV_CFG", 0x09000040, 1, 4, 0x00008026,
    [F.DRV_CFG_NORMAL_CAP, F.DRV_CFG_L1_PS3, F.DRV_CFG_ALLOW_SINGLE, F.DRV_CFG_SPEED_MAX]⟩,
  ⟨"DRV_TMO_CFG", 0x09000044, 1, 4, 0x07D01F40,
    [F.DRV_TMO_CFG_ADMIN_TMO_MS, F.DRV_TMO_CFG_IO_TMO_MS]⟩,
  ⟨"DRV_ERR_CFG", 0x09000048, 1, 4, 0x003C0010,
    [F.DRV_ERR_CFG_RECOVER_WIN_S, F.DRV_ERR_CFG_MEDIA_LIMIT]⟩,
  ⟨"DRV_SMB_CFG", 0x0900004C, 1, 4, 0x000203E8,
    [F.DRV_SMB_CFG_PEC, F.DRV_SMB_CFG_FAST, F.DRV_SMB_CFG_POLL_MS]⟩,
  ⟨"DRV_PRESENT_LO", 0x09000050, 1, 4, 0x00000000,
    [F.DRV_PRESENT_LO_MAP]⟩,
  ⟨"DRV_PRESENT_HI", 0x09000054, 1, 4, 0x00000000,
    [F.DRV_PRESENT_HI_MAP]⟩,
  ⟨"DRV_READY_LO", 0x09000058, 1, 4, 0x00000000,
    [F.DRV_READY_LO_MAP]⟩,
  ⟨"DRV_READY_HI", 0x0900005C, 1, 4, 0x00000000,
    [F.DRV_READY_HI_MAP]⟩,
  ⟨"DRV_PORT_ORDER", 0x09000060, 1, 4, 0x00000000,
    [F.DRV_PORT_ORDER_ORDER, F.DRV_PORT_ORDER_SLOT]⟩,
  ⟨"DRV_PWRDIS_ORDER", 0x09000064, 1, 4, 0x00000000,
    [F.DRV_PWRDIS_ORDER_CONFIRM, F.DRV_PWRDIS_ORDER_HOLD_MS, F.DRV_PWRDIS_ORDER_SLOT]⟩,
  ⟨"DRV_PORT_STAT", 0x09000100, 48, 4, 0x00000000,
    [F.DRV_PORT_STAT_STATE, F.DRV_PORT_STAT_SPEED, F.DRV_PORT_STAT_WIDTH, F.DRV_PORT_STAT_HOLDER, F.DRV_PORT_STAT_DUAL, F.DRV_PORT_STAT_URGENT_PRIO, F.DRV_PORT_STAT_RETRAINS]⟩,
  ⟨"DRV_SLOT_STAT", 0x09000200, 48, 4, 0x00000000,
    [F.DRV_SLOT_STAT_PRSNT0, F.DRV_SLOT_STAT_PRSNT1, F.DRV_SLOT_STAT_PWRDIS, F.DRV_SLOT_STAT_SMB_OK, F.DRV_SLOT_STAT_CRIT_WARN, F.DRV_SLOT_STAT_PCT_USED, F.DRV_SLOT_STAT_TEMP]⟩,
  ⟨"DRV_ERR_COUNT", 0x09000300, 48, 4, 0x00000000,
    [F.DRV_ERR_COUNT_MEDIA, F.DRV_ERR_COUNT_TIMEOUTS, F.DRV_ERR_COUNT_CORR]⟩]

/-- The rows of block 10 (CIP). -/
def rowsCIP : List RegRow := [
  ⟨"CIP_KE_CFG", 0x0A000040, 1, 4, 0x0000000A,
    [F.CIP_KE_CFG_DUMMY]⟩,
  ⟨"CIP_KEY_ARG", 0x0A000044, 1, 4, 0x00000000,
    [F.CIP_KEY_ARG_WRAP_HANDLE, F.CIP_KEY_ARG_HANDLE]⟩,
  ⟨"CIP_KEY_ORDER", 0x0A000048, 1, 4, 0x00000000,
    [F.CIP_KEY_ORDER_OP, F.CIP_KEY_ORDER_TYPE, F.CIP_KEY_ORDER_PAGE]⟩,
  ⟨"CIP_KEY_STAT", 0x0A00004C, 1, 4, 0x00000000,
    [F.CIP_KEY_STAT_BUSY, F.CIP_KEY_STAT_REFUSED, F.CIP_KEY_STAT_RESULT, F.CIP_KEY_STAT_HANDLE]⟩,
  ⟨"CIP_SLOT_USE", 0x0A000050, 1, 4, 0x00000000,
    [F.CIP_SLOT_USE_SLOTS]⟩,
  ⟨"CIP_ESCROW_STAT", 0x0A000054, 1, 4, 0x00000000,
    [F.CIP_ESCROW_STAT_DROPPED, F.CIP_ESCROW_STAT_QUEUED]⟩,
  ⟨"CIP_ERR_COUNT", 0x0A000058, 1, 4, 0x00000000,
    [F.CIP_ERR_COUNT_PAGE, F.CIP_ERR_COUNT_HANDLE, F.CIP_ERR_COUNT_LENGTH, F.CIP_ERR_COUNT_TAG]⟩,
  ⟨"CIP_OPS_LO", 0x0A00005C, 1, 4, 0x00000000,
    [F.CIP_OPS_LO_OPS]⟩,
  ⟨"CIP_OPS_HI", 0x0A000060, 1, 4, 0x00000000,
    [F.CIP_OPS_HI_OPS]⟩]

/-- The rows of block 11 (TRU). -/
def rowsTRU : List RegRow := [
  ⟨"TRU_STAT", 0x0B000040, 1, 4, 0x00000000,
    [F.TRU_STAT_ENTROPY_OK, F.TRU_STAT_DETERMINISTIC, F.TRU_STAT_ROTATION, F.TRU_STAT_FW_SVN, F.TRU_STAT_FUSE_SVN, F.TRU_STAT_IMAGE_KEYS]⟩,
  ⟨"TRU_ORDER", 0x0B000044, 1, 4, 0x00000000,
    [F.TRU_ORDER_OP, F.TRU_ORDER_INDEX]⟩,
  ⟨"TRU_ORDER_STAT", 0x0B000048, 1, 4, 0x00000000,
    [F.TRU_ORDER_STAT_BUSY, F.TRU_ORDER_STAT_REFUSED, F.TRU_ORDER_STAT_RESULT]⟩,
  ⟨"TRU_SIGN_STAT", 0x0B00004C, 1, 4, 0x00000000,
    [F.TRU_SIGN_STAT_Q256, F.TRU_SIGN_STAT_Q192, F.TRU_SIGN_STAT_MAX_192F_MS]⟩,
  ⟨"TRU_BOOT_COUNT", 0x0B000050, 1, 4, 0x00000000,
    [F.TRU_BOOT_COUNT_COUNT]⟩,
  ⟨"TRU_MEAS", 0x0B000100, 32, 4, 0x00000000,
    [F.TRU_MEAS_DATA]⟩,
  ⟨"TRU_SERIAL", 0x0B000180, 4, 4, 0x00000000,
    [F.TRU_SERIAL_DATA]⟩,
  ⟨"TRU_DIK_HASH", 0x0B0001A0, 8, 4, 0x00000000,
    [F.TRU_DIK_HASH_DATA]⟩,
  ⟨"TRU_FXK_HASH", 0x0B0001C0, 8, 4, 0x00000000,
    [F.TRU_FXK_HASH_DATA]⟩]

/-- The rows of block 12 (PWR). -/
def rowsPWR : List RegRow := [
  ⟨"PWR_CFG", 0x0C000040, 1, 4, 0x00641401,
    [F.PWR_CFG_SENS_POLL_MS, F.PWR_CFG_DRIVE_OFFSET_C, F.PWR_CFG_DRIVE_ZONE, F.PWR_CFG_FAN_AUTO]⟩,
  ⟨"PWR_LEG_ORDER", 0x0C000044, 1, 4, 0x00000000,
    [F.PWR_LEG_ORDER_CONFIRM, F.PWR_LEG_ORDER_OP, F.PWR_LEG_ORDER_LEG]⟩,
  ⟨"PWR_ORDER_STAT", 0x0C000048, 1, 4, 0x00000000,
    [F.PWR_ORDER_STAT_RESULT, F.PWR_ORDER_STAT_LEG]⟩,
  ⟨"PWR_PG_LO", 0x0C00004C, 1, 4, 0x00000000,
    [F.PWR_PG_LO_MAP]⟩,
  ⟨"PWR_PG_HI", 0x0C000050, 1, 4, 0x00000000,
    [F.PWR_PG_HI_MAP]⟩,
  ⟨"PWR_LATCH_LO", 0x0C000054, 1, 4, 0x00000000,
    [F.PWR_LATCH_LO_MAP]⟩,
  ⟨"PWR_LATCH_HI", 0x0C000058, 1, 4, 0x00000000,
    [F.PWR_LATCH_HI_MAP]⟩,
  ⟨"PWR_LEG_CFG", 0x0C000100, 48, 4, 0x980A6050,
    [F.PWR_LEG_CFG_AUTO_START, F.PWR_LEG_CFG_RETRY_EN, F.PWR_LEG_CFG_RETRY_MAX, F.PWR_LEG_CFG_MODEL, F.PWR_LEG_CFG_FEED, F.PWR_LEG_CFG_DVDT, F.PWR_LEG_CFG_FAST_X, F.PWR_LEG_CFG_ILIM]⟩,
  ⟨"PWR_LEG_TIME", 0x0C000200, 48, 4, 0x320A01F4,
    [F.PWR_LEG_TIME_FAULT, F.PWR_LEG_TIME_QUAL_MS, F.PWR_LEG_TIME_OFF_MS]⟩,
  ⟨"PWR_LEG_STAT", 0x0C000300, 48, 4, 0x00000000,
    [F.PWR_LEG_STAT_STATE, F.PWR_LEG_STAT_PG, F.PWR_LEG_STAT_LIMITING, F.PWR_LEG_STAT_TIMER_RUN, F.PWR_LEG_STAT_PENDING, F.PWR_LEG_STAT_HELD_OFF, F.PWR_LEG_STAT_RETRIES, F.PWR_LEG_STAT_CAUSE, F.PWR_LEG_STAT_TRIPS, F.PWR_LEG_STAT_TJ_C]⟩,
  ⟨"PWR_LEG_MEAS", 0x0C000400, 48, 4, 0x00000000,
    [F.PWR_LEG_MEAS_VOUT_MV, F.PWR_LEG_MEAS_I_MA]⟩,
  ⟨"PWR_MODEL0", 0x0C000500, 4, 16, 0x012C00C8,
    [F.PWR_MODEL0_R_MCW, F.PWR_MODEL0_TAU_US]⟩,
  ⟨"PWR_MODEL1", 0x0C000504, 4, 16, 0x03200BB8,
    [F.PWR_MODEL1_R_MCW, F.PWR_MODEL1_TAU_US]⟩,
  ⟨"PWR_MODEL2", 0x0C000508, 4, 16, 0x05DC9C40,
    [F.PWR_MODEL2_R_MCW, F.PWR_MODEL2_TAU_US]⟩,
  ⟨"PWR_MODEL3", 0x0C00050C, 4, 16, 0x963C0046,
    [F.PWR_MODEL3_TJ_LIMIT_C, F.PWR_MODEL3_COOL_C, F.PWR_MODEL3_AMB_SENSOR, F.PWR_MODEL3_AMB_DEFAULT_C]⟩,
  ⟨"PWR_FEED_CFG", 0x0C000600, 4, 4, 0x86C847D0,
    [F.PWR_FEED_CFG_EN, F.PWR_FEED_CFG_UV, F.PWR_FEED_CFG_OV, F.PWR_FEED_CFG_OT_C]⟩,
  ⟨"PWR_FEED_MEAS0", 0x0C000610, 4, 8, 0x00000000,
    [F.PWR_FEED_MEAS0_V_MV, F.PWR_FEED_MEAS0_I_10MA]⟩,
  ⟨"PWR_FEED_MEAS1", 0x0C000614, 4, 8, 0x00000000,
    [F.PWR_FEED_MEAS1_P_100MW, F.PWR_FEED_MEAS1_T_C]⟩,
  ⟨"PWR_FEED_ENERGY", 0x0C000630, 8, 4, 0x00000000,
    [F.PWR_FEED_ENERGY_ENERGY]⟩,
  ⟨"PWR_FEED_STAT", 0x0C000650, 4, 4, 0x00000000,
    [F.PWR_FEED_STAT_FET_ON, F.PWR_FEED_STAT_CAUSE, F.PWR_FEED_STAT_FAULTS]⟩,
  ⟨"PWR_FAN_CFG", 0x0C000700, 12, 4, 0xA00AFF00,
    [F.PWR_FAN_CFG_EN, F.PWR_FAN_CFG_PPR, F.PWR_FAN_CFG_MIN_RPM, F.PWR_FAN_CFG_MANUAL, F.PWR_FAN_CFG_ZONE]⟩,
  ⟨"PWR_FAN_CURVE0", 0x0C000740, 12, 8, 0x3C32281E,
    [F.PWR_FAN_CURVE0_T3, F.PWR_FAN_CURVE0_T2, F.PWR_FAN_CURVE0_T1, F.PWR_FAN_CURVE0_T0]⟩,
  ⟨"PWR_FAN_CURVE1", 0x0C000744, 12, 8, 0xFFB3804D,
    [F.PWR_FAN_CURVE1_D3, F.PWR_FAN_CURVE1_D2, F.PWR_FAN_CURVE1_D1, F.PWR_FAN_CURVE1_D0]⟩,
  ⟨"PWR_FAN_STAT", 0x0C0007C0, 12, 4, 0x00000000,
    [F.PWR_FAN_STAT_FAIL, F.PWR_FAN_STAT_FORCED, F.PWR_FAN_STAT_DUTY, F.PWR_FAN_STAT_RPM]⟩,
  ⟨"PWR_SENS_CFG", 0x0C000800, 31, 4, 0x00000000,
    [F.PWR_SENS_CFG_EN, F.PWR_SENS_CFG_ZONE, F.PWR_SENS_CFG_ADDR, F.PWR_SENS_CFG_REG, F.PWR_SENS_CFG_OFFSET_C]⟩,
  ⟨"PWR_SENS_CFG31", 0x0C00087C, 1, 4, 0x80000023,
    [F.PWR_SENS_CFG31_EN, F.PWR_SENS_CFG31_ZONE, F.PWR_SENS_CFG31_ADDR, F.PWR_SENS_CFG31_REG, F.PWR_SENS_CFG31_OFFSET_C]⟩,
  ⟨"PWR_SENS_STAT", 0x0C000880, 32, 4, 0x00000000,
    [F.PWR_SENS_STAT_VALID, F.PWR_SENS_STAT_LOST, F.PWR_SENS_STAT_TEMP]⟩]

/-- The rows of block 13 (HEP). -/
def rowsHEP : List RegRow := [
  ⟨"HEP_CFG", 0x0D000040, 1, 4, 0x00000156,
    [F.HEP_CFG_PEER_EN, F.HEP_CFG_WIDTH_MAX, F.HEP_CFG_SPEED_MAX]⟩,
  ⟨"HEP_LINK_STAT", 0x0D000044, 1, 4, 0x00000000,
    [F.HEP_LINK_STAT_UP, F.HEP_LINK_STAT_FLIT, F.HEP_LINK_STAT_SPEED, F.HEP_LINK_STAT_WIDTH, F.HEP_LINK_STAT_DOWNS]⟩,
  ⟨"HEP_ARB_WEIGHT", 0x0D000048, 1, 4, 0x0303070F,
    [F.HEP_ARB_WEIGHT_BURST, F.HEP_ARB_WEIGHT_LOW, F.HEP_ARB_WEIGHT_MEDIUM, F.HEP_ARB_WEIGHT_HIGH]⟩,
  ⟨"HEP_TAG_STAT", 0x0D00004C, 1, 4, 0x00000000,
    [F.HEP_TAG_STAT_QUARANTINED, F.HEP_TAG_STAT_IN_USE]⟩,
  ⟨"HEP_ERR_COUNT", 0x0D000050, 1, 4, 0x00000000,
    [F.HEP_ERR_COUNT_UR_CA, F.HEP_ERR_COUNT_POISONED, F.HEP_ERR_COUNT_TIMEOUTS, F.HEP_ERR_COUNT_LATE]⟩,
  ⟨"HEP_PWIN_COMMIT", 0x0D000054, 1, 4, 0x00000000,
    [F.HEP_PWIN_COMMIT_MASK]⟩,
  ⟨"HEP_PWIN_STAT", 0x0D000058, 1, 4, 0x00000000,
    [F.HEP_PWIN_STAT_PENDING, F.HEP_PWIN_STAT_REFUSED, F.HEP_PWIN_STAT_REASON, F.HEP_PWIN_STAT_FAULTS]⟩,
  ⟨"HEP_PPT_SEL", 0x0D00005C, 1, 4, 0x00000000,
    [F.HEP_PPT_SEL_DONE, F.HEP_PPT_SEL_OP, F.HEP_PPT_SEL_INDEX]⟩,
  ⟨"HEP_PPT_DATA", 0x0D000060, 1, 4, 0x00000000,
    [F.HEP_PPT_DATA_VALID, F.HEP_PPT_DATA_WRITE_OK, F.HEP_PPT_DATA_HANDLE]⟩,
  ⟨"HEP_PWIN_SHADOW0", 0x0D000100, 32, 8, 0x00000000,
    [F.HEP_PWIN_SHADOW0_ENABLE, F.HEP_PWIN_SHADOW0_WRITE_OK, F.HEP_PWIN_SHADOW0_READ_OK, F.HEP_PWIN_SHADOW0_SIZE_SHIFT, F.HEP_PWIN_SHADOW0_OFFSET]⟩,
  ⟨"HEP_PWIN_SHADOW1", 0x0D000104, 32, 8, 0x00000000,
    [F.HEP_PWIN_SHADOW1_TABLE_BASE]⟩,
  ⟨"HEP_PWIN_LIVE0", 0x0D000200, 32, 8, 0x00000000,
    [F.HEP_PWIN_LIVE0_ENABLE, F.HEP_PWIN_LIVE0_WRITE_OK, F.HEP_PWIN_LIVE0_READ_OK, F.HEP_PWIN_LIVE0_SIZE_SHIFT, F.HEP_PWIN_LIVE0_OFFSET]⟩,
  ⟨"HEP_PWIN_LIVE1", 0x0D000204, 32, 8, 0x00000000,
    [F.HEP_PWIN_LIVE1_TABLE_BASE]⟩,
  ⟨"HEP_FN_STAT", 0x0D000300, 65, 4, 0x00000000,
    [F.HEP_FN_STAT_BME, F.HEP_FN_STAT_FLR, F.HEP_FN_STAT_INT_MODE, F.HEP_FN_STAT_CFS, F.HEP_FN_STAT_ENABLED, F.HEP_FN_STAT_CNTLID]⟩]

/-- The rows of block 14 (RED). -/
def rowsRED : List RegRow := [
  ⟨"RED_MODE", 0x0E000040, 1, 4, 0x00000400,
    [F.RED_MODE_ROLE, F.RED_MODE_EPOCH_US, F.RED_MODE_MODE]⟩,
  ⟨"RED_CFG", 0x0E000044, 1, 4, 0x0A0A143C,
    [F.RED_CFG_PROBE_US, F.RED_CFG_GRACE_100NS, F.RED_CFG_JOIN_100MS, F.RED_CFG_RESYNC_10GBPS]⟩,
  ⟨"RED_STAT", 0x0E000048, 1, 4, 0x00000000,
    [F.RED_STAT_STATE, F.RED_STAT_ACTIVE_ROLE, F.RED_STAT_ACTIVE_VALID, F.RED_STAT_HEEL, F.RED_STAT_FENCED, F.RED_STAT_QUORUM]⟩,
  ⟨"RED_EPOCH_LO", 0x0E00004C, 1, 4, 0x00000000,
    [F.RED_EPOCH_LO_EPOCH]⟩,
  ⟨"RED_EPOCH_HI", 0x0E000050, 1, 4, 0x00000000,
    [F.RED_EPOCH_HI_EPOCH]⟩,
  ⟨"RED_ROLE_ORDER", 0x0E000054, 1, 4, 0x00000000,
    [F.RED_ROLE_ORDER_OP, F.RED_ROLE_ORDER_TARGET]⟩,
  ⟨"RED_ORDER_STAT", 0x0E000058, 1, 4, 0x00000000,
    [F.RED_ORDER_STAT_BUSY, F.RED_ORDER_STAT_REFUSED, F.RED_ORDER_STAT_RESULT]⟩,
  ⟨"RED_TAKEOVER_STAT", 0x0E00005C, 1, 4, 0x00000000,
    [F.RED_TAKEOVER_STAT_COUNT, F.RED_TAKEOVER_STAT_LAST_US]⟩,
  ⟨"RED_RESYNC_STAT", 0x0E000060, 1, 4, 0x00000000,
    [F.RED_RESYNC_STAT_ACTIVE, F.RED_RESYNC_STAT_STEP, F.RED_RESYNC_STAT_PERCENT]⟩,
  ⟨"RED_BACKLOG", 0x0E000064, 1, 4, 0x00000000,
    [F.RED_BACKLOG_MAX, F.RED_BACKLOG_QUEUED]⟩,
  ⟨"RED_PAIR_KEY", 0x0E000068, 1, 4, 0x00000000,
    [F.RED_PAIR_KEY_HANDLE]⟩,
  ⟨"RED_PEER_STAT", 0x0E000100, 3, 4, 0x00000000,
    [F.RED_PEER_STAT_STATE, F.RED_PEER_STAT_MISSES, F.RED_PEER_STAT_LAST_EPOCH]⟩,
  ⟨"RED_LINK_STAT", 0x0E000110, 2, 4, 0x00000000,
    [F.RED_LINK_STAT_UP, F.RED_LINK_STAT_PEER, F.RED_LINK_STAT_RETX, F.RED_LINK_STAT_CRC_ERR]⟩]

/-- The rows of block 15 (TEL). -/
def rowsTEL : List RegRow := [
  ⟨"TEL_CFG", 0x0F000040, 1, 4, 0x00000001,
    [F.TEL_CFG_SAMPLE_EN]⟩,
  ⟨"TEL_SNAP_CTRL", 0x0F000044, 1, 4, 0x00000000,
    [F.TEL_SNAP_CTRL_START]⟩,
  ⟨"TEL_SNAP_STAT", 0x0F000048, 1, 4, 0x00000000,
    [F.TEL_SNAP_STAT_BUSY, F.TEL_SNAP_STAT_DONE, F.TEL_SNAP_STAT_REFUSED]⟩,
  ⟨"TEL_SNAP_GTS_LO", 0x0F00004C, 1, 4, 0x00000000,
    [F.TEL_SNAP_GTS_LO_GTS]⟩,
  ⟨"TEL_SNAP_GTS_HI", 0x0F000050, 1, 4, 0x00000000,
    [F.TEL_SNAP_GTS_HI_GTS]⟩,
  ⟨"TEL_SAMPLE_STAT", 0x0F000054, 1, 4, 0x00000000,
    [F.TEL_SAMPLE_STAT_DROPPED, F.TEL_SAMPLE_STAT_QUEUED]⟩,
  ⟨"TEL_SAMPLER", 0x0F000060, 16, 4, 0x00000000,
    [F.TEL_SAMPLER_EN, F.TEL_SAMPLER_PORT_EN, F.TEL_SAMPLER_PORT, F.TEL_SAMPLER_COUNTER]⟩,
  ⟨"TEL_SAMPLER_PERIOD", 0x0F0000A0, 16, 4, 0x00000000,
    [F.TEL_SAMPLER_PERIOD_PERIOD]⟩,
  ⟨"TEL_SAMPLE_READ", 0x0F000100, 16, 4, 0x00000000,
    [F.TEL_SAMPLE_READ_DATA]⟩,
  ⟨"TEL_CNT", 0x0F010000, 8192, 4, 0x00000000,
    [F.TEL_CNT_COUNT]⟩,
  ⟨"TEL_SNAP", 0x0F020000, 8192, 4, 0x00000000,
    [F.TEL_SNAP_COUNT]⟩]

/-- The rows of a block by its index in R40. -/
def rowsOf : Nat → List RegRow
  | 0 => rowsCTL
  | 1 => rowsPRT
  | 2 => rowsCLS
  | 3 => rowsSWC
  | 4 => rowsTMG
  | 5 => rowsXPT
  | 6 => rowsCMD
  | 7 => rowsLAY
  | 8 => rowsFIX
  | 9 => rowsDRV
  | 10 => rowsCIP
  | 11 => rowsTRU
  | 12 => rowsPWR
  | 13 => rowsHEP
  | 14 => rowsRED
  | 15 => rowsTEL
  | _ => []

end Sys2Proof.Machine
end

