-- ==== Sys2Proof/Machine/RegFile.lean ====
section
/-! DEFINITION. The register file: finding a register of the map, its reset word, and the plain effect of a read and a
write on its fields by their access codes (R9, R13, R14, R491). -/

namespace Sys2Proof.Machine

/-- The row of the register at an address, with the element (R40, R41). -/
def findReg (addr : Nat) : Option (RegRow × Nat) :=
  ((rowsOf (addr / 0x1000000)).find? fun r =>
    decide (r.base ≤ addr) && (addr - r.base) % r.stride == 0 && decide ((addr - r.base) / r.stride < r.count)).map
    fun r => (r, (addr - r.base) / r.stride)

/-- The reset word of a register (R14); 0 where no register is defined. -/
def resetWord (addr : Nat) : Word :=
  match findReg addr with
  | some (r, _) => BitVec.ofNat 32 r.reset
  | none => 0

/-- The stored word of a register: its reset word while it is unlisted. -/
def rawWord (regs : Tab Word) (addr : Nat) : Word := regs.getD (resetWord addr) addr

/-- The register file with a register's stored word set. -/
def setRawWord (regs : Tab Word) (addr : Nat) (w : Word) : Tab Word := regs.setD (resetWord addr) addr w

/-- The canonical form of a register file: words rising by address, none equal to its reset word. -/
abbrev regsWf (regs : Tab Word) : Prop :=
  (∀ e ∈ regs, e.2 ≠ resetWord e.1) ∧ (regs.map (·.1)).Pairwise (· < ·)

/-- The address of element `i` of a field's register, which never leaves the block (R40). -/
def Fld.addr (f : Fld) (i : Nat) : Nat := f.base - f.base % 0x1000000 + (f.base + f.stride * i) % 0x1000000

/-- A field's stored value. -/
def fldGet (regs : Tab Word) (f : Fld) (i : Nat) : Nat := bitsOf (rawWord regs (f.addr i)).toNat f.hi f.lo

/-- The register file with a field's stored value set. -/
def fldSet (regs : Tab Word) (f : Fld) (i v : Nat) : Tab Word :=
  setRawWord regs (f.addr i) (BitVec.ofNat 32 (setBits (rawWord regs (f.addr i)).toNat f.hi f.lo v))

/-- The largest value a field holds. -/
def Fld.max (f : Fld) : Nat := 2 ^ (f.hi - f.lo + 1) - 1

/-- A written value as it is stored (R491). -/
def Treat.apply : Treat → Nat → Nat
  | .none, v => v
  | .clamp lo hi, v => if v < lo then lo else if hi < v then hi else v
  | .other lo hi d, v => if lo ≤ v ∧ v ≤ hi then v else d
  | .zeroAs d, v => if v = 0 then d else v

/-- The stored word after a write of `new` over `old` changes one field (R9, R12): `lock` is the image lock. -/
def fieldWrite (lock : Bool) (new : Nat) (old : Nat) (f : Fld) : Nat :=
  let v := bitsOf new f.hi f.lo
  match f.acc with
  | .rw | .rws => setBits old f.hi f.lo (f.treat.apply v)
  | .rwl => if lock then old else setBits old f.hi f.lo (f.treat.apply v)
  | .w1c => setBits old f.hi f.lo (bitsOf old f.hi f.lo - (bitsOf old f.hi f.lo &&& v))
  | .w1s => setBits old f.hi f.lo (bitsOf old f.hi f.lo ||| v)
  | .ro | .rc | .wo => old

/-- The stored word after a write to a register with these fields; reserved bits are ignored (R13). -/
def wordWrite (lock : Bool) (fields : List Fld) (new old : Nat) : Nat := fields.foldl (fieldWrite lock new) old

/-- A write under the image lock is refused only if some RWL field would change (R12). -/
def lockRefuses (lock : Bool) (fields : List Fld) (new old : Nat) : Bool :=
  lock && fields.any fun f => f.acc == .rwl && bitsOf new f.hi f.lo != bitsOf old f.hi f.lo

/-- What a read returns of a stored word: write-only fields read zero (R9). -/
def wordRead (fields : List Fld) (w : Nat) : Nat :=
  fields.foldl (fun a f => if f.acc = .wo then a else setBits a f.hi f.lo (bitsOf w f.hi f.lo)) 0

/-- The stored word after a read: RC fields are cleared (R9, R11). -/
def wordAfterRead (fields : List Fld) (w : Nat) : Nat :=
  fields.foldl (fun a f => if f.acc = .rc then setBits a f.hi f.lo 0 else a) w

end Sys2Proof.Machine
end

