-- ==== Sys2Proof/Machine/State/Output.lean ====
section
/-! DEFINITION. What the block sends: every message, frame, transfer, drive command, interrupt and pin change that
leaves the unit, in the order in which it leaves (a field of the model's own, notes/assumptions/4.md). -/

namespace Sys2Proof.Machine

/-- One thing the block sends or drives. -/
inductive Output where
  /-- the value a register read returns on an access path (R15, R17) -/
  | regRead (path addr : Nat) (value : Word)
  /-- a completion with Unsupported Request on BAR0 (R8) -/
  | unsupportedRequest (addr : Nat)
  /-- a response of the management protocol, with the fragments in which it leaves (R384, R385, R388, R389) -/
  | mgmt (port session reqSeq opcode status : Nat) (payload : Reply) (wire : List Bytes)
  /-- a WELCOME: its session and the bytes of R386 up to the end of the certificate's body; or a refused HELLO, with session 0
  and its status (R386, R389); each with the fragments in which it leaves (R384) -/
  | handshake (port session status : Nat) (payload : Bytes) (wire : List Bytes)
  /-- a KIND 3 message of a session's ring, with its fragments (R384, R400) -/
  | ringMessage (port session seq ring first : Nat) (records : List EventRec) (wire : List Bytes)
  /-- a KIND 3 message with ring 0xFF, with the 16-byte extension of a CONFLICT, and its fragments (R384, R401) -/
  | direct (port session : Nat) (record : EventRec) (extension : Bytes) (wire : List Bytes)
  /-- the status byte and words of a private read over I3C (R391, R466) -/
  | i3c (path status : Nat) (words : List Word)
  /-- an In-Band Interrupt of an I3C target (R391) -/
  | ibi (path ring : Nat)
  /-- an MSI-X message of a PCIe function (R316, R329) -/
  | msix (fn vector : Nat)
  /-- an answer to IPv6 neighbour discovery (R383) -/
  | neighbourAdvert (port : Nat) (target : Bytes)
  /-- a rise of PPS_OUT (R27) -/
  | ppsOut
  /-- a register write refused, as the path that carried it sees it (R12, R298, R390) -/
  | writeStatus (path addr status : Nat)
  /-- a packet or message on a connection (chapter 03), with the frames in which it leaves now (R82, R225) -/
  | packet (qpn : Nat) (p : Packet) (frames : List Bytes)
  /-- a connection-management REP with the unit's QPN, PSN, path MTU code, initiator depth and 16 responder resources,
  and the CRQSIZE of an NVMe connection (R85) -/
  | cmRep (qpn psn pmtu depth resources crqsize : Nat)
  /-- a connection-management REJ with its reason (R87) -/
  | cmRej (reason : Nat)
  /-- a connection-management DREQ or DREP (R89) -/
  | cmDreq (qpn : Nat)
  | cmDrep (qpn : Nat)
  /-- the completion of an NVMe command: controller, queue, command, status and dword 0 (R45, R493) -/
  | completion (cntlid sqid cid : Nat) (status : Status) (dw0 : Nat)
  /-- data returned by an admin command: a property value, an identify page, a log page -/
  | adminData (cntlid cid : Nat) (data : Bytes)
  /-- a read, write or deallocation of a drive's blocks; `urgent` names the submission queue (R199, R203) -/
  | driveWrite (slot lba : Nat) (data : Bytes) (urgent : Bool)
  | driveRead (slot lba blocks : Nat) (urgent : Bool)
  /-- an admin command to a drive: its operation by name and its argument (R201, R208, R211, R212) -/
  | driveAdmin (slot : Nat) (op : String) (arg : Nat)
  /-- a drive's configuration space is set: Max_Payload_Size and Max_Read_Request_Size in bytes, Bus Master Enable, and BAR0
  mapped (R197, R208) -/
  | driveConfig (slot mps mrrs : Nat)
  /-- a queue of a drive is set up: its number, 0 for the admin pair, whether it is the completion queue, its depth, its urgent
  priority, whether its interrupts are enabled, and the window page of its ring (R202, R203) -/
  | driveQueue (slot qid : Nat) (completion : Bool) (depth : Nat) (urgent interrupts : Bool) (page : Nat)
  /-- ASPM L1 of a root port's link is enabled or disabled (R195) -/
  | driveL1 (slot : Nat) (on : Bool)
  /-- a read of two bytes of a temperature sensor's register on the sensors' bus, reached by its static address (R424) -/
  | sensorRead (sensor addr reg : Nat)
  /-- an SMBus read of a slot: the target address, the command code with the bytes read where the rule gives them, packet error
  checking, and 400 kHz instead of 100 kHz (R216) -/
  | smbusRead (slot target : Nat) (code : Option (Nat × Nat)) (pec fast : Bool)
  /-- the result of a cipher request: 0 with the output (and the tag of a seal), or a code of R282 alone (R283) -/
  | cipher (page handle code : Nat) (data tag : Bytes)
  /-- a chain's notice to firmware with its parameter (R117) -/
  | notify (chain imm : Nat)
  /-- a frame begins to leave on a logical port, with its congestion mark where it has one (R226): its bytes up to the FCS -/
  | frame (lport : Nat) (frame : Bytes)
  /-- the FCS that ends a frame on a logical port: that of its bytes, or its inverse (R225, R226, R262) -/
  | fcs (lport : Nat) (value : Nat)
  /-- a PTP event message that the unit itself sends leaves on a logical port (R225, R229, R231) -/
  | ptp (lport : Nat) (wire : Bytes)
  /-- a PFC frame that holds a priority off, or releases it, with its bytes (R225, R228) -/
  | pfc (lport prio : Nat) (hold : Bool) (wire : Bytes)
  /-- a punted frame reaches CTL: its logical port, reason, TCAM index or 0xFFFF, and receive time stamp (R230, R244) -/
  | punted (lport reason index gts : Nat) (frame : Bytes)
  /-- an MSI message of a PCIe function (R328) -/
  | msi (fn message : Nat)
  /-- a memory read request to the host, with its tag (R323) -/
  | hostRead (fn tag addr len : Nat)
  /-- a posted write to host memory, with Relaxed Ordering or not (R327) -/
  | hostWrite (fn addr : Nat) (data : Bytes) (relaxed : Bool)
  /-- an error that a function reports through AER: 0 UR, 1 CA, 2 poisoned, 3 completion timeout (R325) -/
  | aer (fn code : Nat)
  /-- the completion of a peer's read: 0 with the data, 1 UR, 2 CA (R335) -/
  | peerRead (status : Nat) (data : Bytes)
  /-- a received frame handed to XPT (R260) -/
  | toXpt (lport : Nat) (frame : Bytes)
  /-- a frame leaves on a Leash link: its LSEQ, ACK_LSEQ, RETX, the role it is for and its EPOCH (R344, R345), with
  its bytes where the specification lays its payload out in full -/
  | leash (link lseq ack : Nat) (retx : Bool) (dst epoch : Nat) (frame : LeashFrame) (wire : Bytes)
  /-- a gratuitous ARP and an unsolicited neighbour advertisement of a logical port, with their bytes (R225, R362) -/
  | gratuitousArp (lport ipv4 : Nat) (wire : Bytes)
  | unsolicitedAdvert (lport ipv6 : Nat) (wire : Bytes)
deriving DecidableEq, Repr, Inhabited

end Sys2Proof.Machine
end

