-- ==== Sys2Proof/Machine/State/Drv.lean ====
section
/-! DEFINITION. State of the drive root ports and the slot sideband: chapter 06. -/

namespace Sys2Proof.Machine

/-- A root port (R195 to R213). `state` is the code of R206. `step` is the step of R208 at work, 0 for none; `relinking`
marks a port in READY whose link retrains; `recovering` a recovery under way and `returnGts` the GTS of the last return
from one; `trip8` a failure by cause 8; `asked` the QUERY to the partner that waits for its reply, 1 for the leg and 2 for
the port. `urgentOut` and `normalOut` count the commands in the rings with the window pages they hold; the lists hold what
waits for a ring, for pages, or for the preempt of R212, oldest first. -/
structure DrvPort where
  state : Nat
  speed : Nat
  width : Nat
  holder : Bool
  dual : Bool
  urgentPrio : Bool
  depth : Nat
  mdts : Nat
  lbaCount : Nat
  superblock : Option (Bool × Nat)
  step : Nat
  attempts : Nat
  relinking : Bool
  recovering : Bool
  returnGts : Nat
  trip8 : Bool
  asked : Nat
  perstReleased : Bool
  refClock : Bool
  mediaTimes : List Nat
  failSerial : Option Nat
  urgentOut : Nat
  urgentPages : Nat
  normalOut : Nat
  normalPages : Nat
  urgentWait : List Output
  normalWait : List Output
  heldWrites : List Output
  /-- the NVMe commands in the rings, each with the window pages of its data (R198) -/
  inRing : List (Output × List Nat)
  /-- the writes under way that belong to no command: first LBA, blocks, and whether urgent -/
  back : List (Nat × Nat × Bool)
  /-- Max_Payload_Size, 0 before step 1 of R208 (R197) -/
  mps : Nat
  /-- ASPM L1 is enabled (R195) -/
  l1 : Bool
  /-- the partner's leg for the slot has power good, as the partner last reported (R206) -/
  partnerPg : Bool
deriving DecidableEq, Repr, Inhabited

/-- A slot's sideband (R214 to R216). -/
structure DrvSlot where
  prsnt0 : Bool
  prsnt1 : Bool
  seated : Bool
  pwrdis : Bool
  partnerPwrdis : Bool
  releaseGts : Nat
  smbOk : Bool
  naks : Nat
  crit : Nat
  pctUsed : Nat
  temp : Nat
  serial : Option Nat
  /-- the FRU data has been read since the insertion (R216) -/
  fru : Bool
deriving DecidableEq, Repr, Inhabited

/-- The drives' part of the state. `stopped` is the end of all I/O of R213; `round` the round of R212 under way, and
`preempting` the slots whose preempt has not completed. -/
structure Drv where
  ports : Tab DrvPort
  slots : Tab DrvSlot
  stopped : Bool
  round : Nat
  preempting : List Nat
deriving DecidableEq, Repr, Inhabited

end Sys2Proof.Machine
end

