-- ==== Sys2Proof/Machine/State/Hep.lean ====
section
/-! DEFINITION. State of the PCIe host endpoint: chapter 10. Functions are numbered 0 for PF1, n for VFn and 65 for PF0. -/

namespace Sys2Proof.Machine

/-- A function's configuration and MSI-X state (R328, R329, R339), its controller's AQA, ASQ and ACQ (R319), and
whether the host enables Relaxed Ordering (R327). -/
structure HepFn where
  present : Bool
  flr : Bool
  bme : Bool
  msix : Bool
  msi : Bool
  messages : Nat
  unmasked : Nat
  fnMask : Bool
  pba : Nat
  aqa : Nat
  asq : Nat
  acq : Nat
  relaxed : Bool
deriving DecidableEq, Repr, Inhabited

/-- What a read request fetches (R322, R323): data of a command-table entry from an offset on, under the number of its fetch,
or entries of a submission queue. -/
inductive ReadFor where
  | data (entry fetch offset : Nat)
  | entries (queue count : Nat)
deriving DecidableEq, Repr, Inhabited

/-- A memory read request: function, address, length and what it is for. -/
structure HostRead where
  fn : Nat
  addr : Nat
  len : Nat
  what : ReadFor
deriving DecidableEq, Repr, Inhabited

/-- The state of a tag (R332). -/
inductive TagState where
  | free | outstanding | quarantined | held
deriving DecidableEq, Repr, Inhabited

/-- A tag with its request and the bytes placed so far. -/
structure HepTag where
  state : TagState
  req : HostRead
  buf : Bytes
deriving DecidableEq, Repr, Inhabited

/-- A command's fetch: its number, its bytes as they are placed, and the requests still to end. -/
structure Fetch where
  id : Nat
  buf : Bytes
  left : Nat
deriving DecidableEq, Repr, Inhabited

/-- A submission queue's pointers (R322). -/
structure SqState where
  base : Nat
  tail : Nat
  fetched : Nat
deriving DecidableEq, Repr, Inhabited

/-- A completion that waits for space in its completion queue. -/
structure HeldCpl where
  sqid : Nat
  cid : Nat
  sct : Nat
  sc : Nat
  dnr : Bool
  dw0 : Nat
deriving DecidableEq, Repr, Inhabited

/-- A completion queue (R322, R327, R328): its address in host memory, size, vector, interrupts enabled, head, tail, the passes
its tail has made, and completions that wait for space. -/
structure CqState where
  exists_ : Bool
  size : Nat
  vector : Nat
  interrupts : Bool
  head : Nat
  tail : Nat
  base : Nat
  passes : Nat
  waiting : List HeldCpl
deriving DecidableEq, Repr, Inhabited

/-- The host endpoint's state. -/
structure Hep where
  fns : Tab HepFn
  numVfs : Nat
  vfEnabled : Bool
  mrrs : Nat
  mps : Nat
  tag10 : Bool
  cto : Nat
  tags : Tab HepTag
  /-- tags from this number on have never been used; `released` lists the freed ones, least recently freed first -/
  fresh : Nat
  released : List Nat
  /-- requests that wait for a tag -/
  waiting : List HostRead
  fetches : Tab Fetch
  fetchNext : Nat
  sqs : Tab SqState
  cqs : Tab CqState
  /-- completions not signalled yet under Interrupt Coalescing: key 256 × function + vector -/
  coalesced : Tab Nat
  /-- the Host NQN index that the image gives each function -/
  hosts : Tab Nat
  /-- windows staged by a commit: MASK and the shadow words -/
  staged : Option (Nat × List Nat)
  ppt : Tab Nat
  /-- bytes of peer pages: key 4,096 × cell number of the page's first cell + offset -/
  peerMem : Tab Byte
deriving DecidableEq, Repr, Inhabited

end Sys2Proof.Machine
end

