-- ==== Sys2Proof/Machine/State/Net.lean ====
section
/-! DEFINITION. State of the network side: ports and the classifier (chapter 07), the shared buffer, queues, policers and
gates (chapter 08). Link state, pauses and counts live in the registers of those blocks. -/

namespace Sys2Proof.Machine

/-- A node of the parse graph (R236): its length (`fixed`, plus a field of the header at a bit offset, of a width, shifted
left), the select field, the edges (value, mask, next), the default, the extracts (header byte, count, byte of EXTRACT) and
the flags. -/
structure ParseNode where
  fixed : Nat
  field : Option (Nat × Nat × Nat)
  selOff : Nat
  selWidth : Nat
  edges : List (Nat × Nat × Nat)
  default_ : Option Nat
  extracts : List (Nat × Nat × Nat)
  terminal : Bool
  ipv4 : Bool
  vlan : Bool
  scan : Bool
deriving DecidableEq, Repr, Inhabited

/-- A TCAM entry (R239). -/
structure TcamEntry where
  valid : Bool
  value : BitVec 640
  mask : BitVec 640
  action : BitVec 64
deriving DecidableEq, Repr, Inhabited

/-- A Scent pattern (R242): bytes with their masks, the window of starting offsets, the group. -/
structure Pattern where
  bytes : List (Byte × Byte)
  window : Option (Nat × Nat)
  group : Nat
deriving DecidableEq, Repr, Inhabited

/-- A token bucket: what is missing below its depth, and when it was last filled. A full bucket is all zero. -/
structure Bucket where
  used : Nat
  stamp : Nat
deriving DecidableEq, Repr, Inhabited

/-- A stored frame, as a queue's descriptor or in a punt queue: its bytes, its length with the FCS as stored, its cells'
handles, its receiving port and priority, whether it is counted under R259, its enqueue GTS (of a punted frame its receive time
stamp) and its congestion mark. -/
structure Desc where
  frame : Bytes
  len : Nat
  cells : List Nat
  lport : Nat
  prio : Nat
  counted : Bool
  gts : Nat
  ecn : Bool
deriving DecidableEq, Repr, Inhabited

/-- A frame in a punt queue (R244) with its TCAM index or 0xFFFF and its receive GTS. -/
structure Punted where
  desc : Desc
  index : Nat
deriving DecidableEq, Repr, Inhabited

/-- A cell's ownership record (R252) with what the Bloodhound keeps for it (R256). `misfiled` marks a cell whose presence on
its bank's free list does not agree with OWNER; `freed` is one more than the GTS at which it was last freed, 0 before. -/
structure Cell where
  owner : Nat
  gen : Nat
  refs : Nat
  age : Nat
  misfiled : Bool
  suspect : Bool
  lastGen : Nat
  reported : Bool
  freed : Nat
deriving DecidableEq, Repr, Inhabited

/-- A multicast group (R263). -/
structure McGroup where
  members : Nat
  valid : Bool
  self_ : Bool
deriving DecidableEq, Repr, Inhabited

/-- A queue or node entry (R264): the words of TMG_Q_DATA 0 to 4. -/
structure QEntry where
  d0 : Nat
  d1 : Nat
  d2 : Nat
  d3 : Nat
  d4 : Nat
deriving DecidableEq, Repr, Inhabited

/-- A policer (R268): the words of TMG_POL_DATA 0 to 2, what its two buckets lack, and its counts. -/
structure Policer where
  d0 : Nat
  d1 : Nat
  d2 : Nat
  usedC : Nat
  usedE : Nat
  stamp : Nat
  yellow : Nat
  red : Nat
deriving DecidableEq, Repr, Inhabited

/-- A port's gate list (R270, R271): the last entry of the active list, the GTS at which its cycle and its present entry
began, the pending commit (T and LAST), and whether it stops at the end of its cycle. -/
structure Gates where
  last : Nat
  cycleStart : Nat
  entry : Nat
  entryStart : Nat
  pending : Option (Nat × Nat)
  stopping : Bool
deriving DecidableEq, Repr, Inhabited

/-- The state of the network side. -/
structure Net where
  nodes : List ParseNode
  tcam : Tab TcamEntry
  patterns : List Pattern
  punt : Tab (List Punted)
  puntBucket : Tab Bucket
  /-- when PUNT_DROP was last emitted for a reason (GTS + 1), and when each frame was dropped in the second that ends now -/
  puntSaid : Tab Nat
  puntLost : Tab (List Nat)
  stamps : Tab (List TxStamp)
  /-- the wake registers as the last entry into PS4 latched them, by address -/
  wake : Tab Word
  /-- frames dropped in PS4 by physical port (R76, R235) -/
  wakeDropped : Tab Nat
  cells : Tab Cell
  /-- the bank after the most recent allocation, by receiving port (R250) -/
  nextBank : Tab Nat
  /-- cells counted for a port and priority, and whether the count holds it off (R259): key 8 × port + priority -/
  rxCells : Tab Nat
  rxHeld : Tab Bool
  /-- SWC_FREE_MIN has been read, which clears it, and the free count has not changed since (R9, R276) -/
  freeMinRead : Bool
  /-- an allocation has failed at the floor and the free count has not risen far enough since (R257) -/
  squeezed : Bool
  /-- class 0 frames that wait for a cell (R257) -/
  waitC0 : List (Nat × Bytes)
  groups : Tab McGroup
  queueCfg : Tab QEntry
  nodeCfg : Tab QEntry
  queues : Tab (List Desc)
  deficit : Tab Nat
  nodeDeficit : Tab Nat
  shaper : Tab Bucket
  nodeShaper : Tab Bucket
  /-- the item last served under a parent at a priority: key 8 × port + priority, and 512 + 8 × node + priority -/
  served : Tab Nat
  /-- the frame each port is sending, and whether it is to be ended with the inverse FCS (R262) -/
  line : Tab (Option Desc)
  stomp : Tab Bool
  policers : Tab Policer
  /-- gate entries: key 2,048 × port + 1,024 × bank + entry, gates in [31:24] and the duration in [23:0] -/
  gateCfg : Tab Nat
  gates : Tab Gates
  media : Bucket
  /-- the chains of owner class 9 that management holds, by the handle of their first cell (R334) -/
  peerChains : Tab (List Nat)
  /-- histogram bins: key 32 × queue + bin (R274) -/
  hist : Tab Nat
  histNext : Nat
deriving DecidableEq, Repr, Inhabited

end Sys2Proof.Machine
end

