-- ==== Sys2Proof/Machine/State/Pwr.lean ====
section
/-! DEFINITION. State of slot power and shelf measurement (chapter 13) beside its registers. -/

namespace Sys2Proof.Machine

/-- A leg: the latest samples of VOUT and gate sense (mV), the fault timer and the power-good qualification in ticks, the
three terms of the model in units of 1/256 °C (R413), whether the gate is driven, when it was last turned off, and when RAMP
was entered. -/
structure Leg where
  vout : Nat
  gsns : Nat
  timer : Nat
  qual : Nat
  z0 : Int
  z1 : Int
  z2 : Int
  gateOn : Bool
  offGts : Nat
  rampGts : Nat
deriving DecidableEq, Repr, Inhabited

/-- A feed: its energy in units of 2^-16 µJ (R423), and whether a condition of R422 has turned its FET off. -/
structure Feed where
  energy : Nat
  faulted : Bool
deriving DecidableEq, Repr, Inhabited

/-- Slot power and shelf measurement: consecutive failed reads of each sensor, and whether the die's warning and critical
events have been said (R424, R484), and the words of the fans' curves and the sensors' configuration as the last poll found
them (R430). -/
structure Pwr where
  legs : Tab Leg
  feeds : Tab Feed
  sensFails : Tab Nat
  warned : Bool
  critical : Bool
  polled : Tab Word
deriving DecidableEq, Repr, Inhabited

end Sys2Proof.Machine
end

