-- ==== Sys2Proof/Machine/State/Red.lean ====
section
/-! DEFINITION. State of the redundancy block (chapter 11) beside its registers. -/

namespace Sys2Proof.Machine

/-- One direction pair of a Leash link (R346): the last LSEQ sent, the last received in order, the highest acknowledged, the
consecutive resends, and the frames not acknowledged. -/
structure LeashLink where
  tx : Nat
  rx : Nat
  acked : Nat
  resends : Nat
  sent : List (Nat × LeashFrame)
deriving DecidableEq, Repr, Inhabited

/-- A record queued for sending (R351), with the acknowledgements that it holds (R122): connection, PSN and MSN. -/
structure QueuedRec where
  epoch : Nat
  acks : List (Nat × Nat × Nat)
deriving DecidableEq, Repr, Inhabited

/-- A pending command of a replica (R352, R363): `done` where a notice completed it, `committed` where a commit record did,
with its status in dword 0. -/
structure PendCmd where
  cap : Capsule
  done : Bool
  committed : Bool
deriving DecidableEq, Repr, Inhabited

/-- What the probe under way asks about (R361). -/
inductive Probing where
  | none | active | viaC
deriving DecidableEq, Repr, Inhabited

/-- Redundancy. `caps`, `commits` and `leaves` are the entries of the epoch under way; `ctrls`, `queues`, `ctx` and `keys` the
objects as the last record left them. `copied` are the objects a resynchronisation has copied, as (kind, number). `stations`
and `addrs` are what the image gives for this unit's ports: station words by register address, IPv4 and IPv6 addresses by
port. `nextEpochUs` is a new epoch length with the GTS from which it holds. `outOfStep` are the times at which the replica fell
out of step. `takeoverFrom` is the GTS of the third miss. `order` is the target of a switch under way. -/
structure Red where
  links : Tab LeashLink
  recordLink : Nat
  caps : List Capsule
  commits : List CommitRec
  leaves : List Leaf
  ctrls : Tab Controller
  queues : Tab Queue
  ctx : Tab Context
  keys : Tab KeySlot
  backlog : List QueuedRec
  backlogSaid : Nat
  inQuorum : List Nat
  pend : List PendCmd
  notices : List Notice
  copied : List (Nat × Nat)
  bulkDone : Bool
  probing : Probing
  joinFrom : Nat
  lastJoinA : Nat
  outOfStep : List Nat
  takeoverFrom : Nat
  takeoverCause : Nat
  failedRole : Nat
  disputed : List Nat
  order : Option Nat
  stations : Tab Word
  addrs : Tab (Nat × Nat)
  nextEpochUs : Option (Nat × Nat)
deriving DecidableEq, Repr, Inhabited

end Sys2Proof.Machine
end

