-- ==== Sys2Proof/Machine/State.lean ====
section
/-! DEFINITION. The state of the block as plain data: one part per subsystem, the register file, what has been sent, the
counter of free values and the queue of waiting commands; the state after reset; the outcomes that stop. -/

namespace Sys2Proof.Machine

/-- The block's state. -/
structure State where
  ctl : Ctl
  tel : Tel
  boot : Boot
  cmd : Cmd
  xpt : Xpt
  lay : Lay
  cip : Cip
  tru : Tru
  fix : Fix
  drv : Drv
  net : Net
  hep : Hep
  red : Red
  pwr : Pwr
  /-- the stored words of the registers, by address: an unlisted register holds its reset word -/
  regs : Tab Word
  /-- everything sent so far, first sent first (the model's own field) -/
  out : List Output
  /-- how many free values have been drawn (the model's own field) -/
  free : Nat
  /-- admin and Fabrics commands that came during an exit to PS0 and wait for it, first in first out (R77) -/
  waiting : List Instr
  /-- the commands waiting, first in first out -/
  pending : List Instr
deriving DecidableEq, Repr, Inhabited

/-- Why a step can stop with a fault. -/
inductive Fault where
  /-- No meaning raises this: every command of the table has an effect on every operand (safe: the model never stops). -/
  | none
deriving DecidableEq, Repr

/-- Why a step can be refused. -/
inductive Refusal where
  /-- Raised by the dispatch for a command that has no meaning yet (safe). -/
  | notModelled (mnemonic : String)
deriving DecidableEq, Repr

/-- The state right after a power-on reset, before the boot starts: every part empty, GTS free-running from zero (R25),
boot step 1 (R470) with CAUSE 1 (R453), journal sequence numbers from 1 (R137). The host endpoint's request and payload sizes are
those of the PCIe standard (PRESUMED, notes/assumptions/108.md). -/
def State.reset : State :=
  { (default : State) with
    ctl := { (default : Ctl) with gts := { (default : Gts) with source := 4 } }
    boot := { (default : Boot) with step := 1, cause := 1, inReset := .cold, pgood := 15 }
    tru := { (default : Tru) with meas := [0, 0, 0, 0] }
    lay := { (default : Lay) with jseqNext := 1, extentNext := 1 }
    fix := { (default : Fix) with periodQs := 4, nextQs := 4 }
    hep := { (default : Hep) with mrrs := 512, mps := 128 } }

end Sys2Proof.Machine
end

