-- ==== Sys2Proof/Machine/Ops.lean ====
section
/-! DEFINITION. The named operations every meaning is built from: global time, register fields, sending, free values,
counters, event emission (R30, R431), fences (R35, R38) and power of the event router (R31 to R33). -/

namespace Sys2Proof.Machine

/-- What a meaning answers. -/
abbrev Result := Host.Outcome State Fault Refusal

/-- GTS, in ns (R24). -/
def State.now (s : State) : Nat := s.ctl.gts.now

/-- The state after sending one thing. -/
def State.send (s : State) (o : Output) : State := { s with out := s.out ++ [o] }

/-- A fresh free value (notes/assumptions/3.md). -/
def State.freeVal (s : State) : BitVec 256 := Config.freeValue s.free

/-- The state after a free value has been taken. -/
def State.drawn (s : State) : State := { s with free := s.free + 1 }

/-- Bytes that nothing determines, `n` of them. -/
def freeBytes (n : Nat) (s : State) : Bytes × State :=
  ((List.range n).map fun i => (Config.freeValue (s.free + i)).setWidth 8, { s with free := s.free + n })

/-- A field of a register, element `i`. -/
def State.fldI (s : State) (f : Fld) (i : Nat) : Nat := fldGet s.regs f i

/-- A field of a register. -/
def State.fld (s : State) (f : Fld) : Nat := fldGet s.regs f 0

/-- The state with a field of element `i` set by the device. -/
def State.setFldI (s : State) (f : Fld) (i v : Nat) : State := { s with regs := fldSet s.regs f i v }

/-- The state with a field set by the device. -/
def State.setFld (s : State) (f : Fld) (v : Nat) : State := s.setFldI f 0 v

/-- The state with a counting field of element `i` raised by `n`, saturating at its width. -/
def State.bumpI (s : State) (f : Fld) (i n : Nat) : State := s.setFldI f i (min f.max (s.fldI f i + n))

/-- The state with a counting field raised by one, saturating. -/
def State.bump (s : State) (f : Fld) : State := s.bumpI f 0 1

/-- The state with the control cluster's part changed. -/
def State.onCtl (s : State) (f : Ctl → Ctl) : State := { s with ctl := f s.ctl }

/-- The state with the command engine's part changed. -/
def State.onCmd (s : State) (f : Cmd → Cmd) : State := { s with cmd := f s.cmd }

/-- The state with the transport's part changed. -/
def State.onXpt (s : State) (f : Xpt → Xpt) : State := { s with xpt := f s.xpt }

/-- The state with the layout engine's part changed. -/
def State.onLay (s : State) (f : Lay → Lay) : State := { s with lay := f s.lay }

/-- The state with the fixity engine's part changed. -/
def State.onFix (s : State) (f : Fix → Fix) : State := { s with fix := f s.fix }

/-- The state with telemetry's part changed. -/
def State.onTel (s : State) (f : Tel → Tel) : State := { s with tel := f s.tel }

/-- The state with the boot controller's part changed. -/
def State.onBoot (s : State) (f : Boot → Boot) : State := { s with boot := f s.boot }

/-- Does sampler `i` watch emissions of event `e` from source `src` (R442)? -/
def watches (s : State) (e src i : Nat) : Bool :=
  s.fld F.TEL_CFG_SAMPLE_EN == 1 && s.fldI F.TEL_SAMPLER_EN i == 1 && s.fldI F.TEL_SAMPLER_COUNTER i == e &&
    (s.fldI F.TEL_SAMPLER_PORT_EN i == 0 || src == 0x100 + s.fldI F.TEL_SAMPLER_PORT i)

/-- The samplers after `n` increments of counter `e` by source `src`: each one that watches it counts down (R442). -/
def samplersCount (s : State) (e src n : Nat) : Tab Sampler :=
  (List.range 16).foldl
    (fun t i => if watches s e src i then t.upd i fun m => { m with down := m.down - n } else t) s.tel.samplers

/-- Counter `e` raised by `n`, wrapping at 2^64 (R431, R432), with the samplers that watch it. -/
def countBy (e src n : Nat) (s : State) : State :=
  { s with tel := { s.tel with
      cnt := s.tel.cnt.put e ((s.tel.cnt.at e + n) % 2 ^ 64)
      cur := if s.tel.curGts = s.now then s.tel.cur.upd e (· + n) else Tab.put [] e n
      curGts := s.now
      samplers := samplersCount s e src n } }

/-- The record of an emission now (R23, R30). -/
def mkRec (s : State) (src sev ev data : Nat) : EventRec :=
  ⟨s.now, src, sev, ev, data % 2 ^ 36⟩

/-- Emit an event: its counter counts it and its record sets out for the router (R30, R33, R431). -/
def emit (src ev sev data : Nat) (s : State) : State :=
  let s := countBy ev src 1 s
  s.onCtl fun c => { c with inflight := c.inflight ++ [mkRec s src sev ev data] }

/-- An event that is counted only: it adds to its counter and has no record (R246, R431). -/
def countOnly (src ev : Nat) (s : State) : State := countBy ev src 1 s

/-- The 16 bytes of an event record (R30). -/
def EventRec.bytes (r : EventRec) : Bytes :=
  leBytes 8 r.gts ++ leBytes 8 (r.source % 4096 + r.severity % 16 * 2 ^ 12 + r.event % 4096 * 2 ^ 16 + r.data % 2 ^ 36 * 2 ^ 28)

/-- The ordering key of R32: GTS, then source number. -/
def EventRec.before (a b : EventRec) : Bool :=
  decide (a.gts < b.gts) || (a.gts == b.gts && decide (a.source < b.source))

/-- The number of identical units of a block (R42). -/
def unitsOf (block : Nat) : Nat :=
  match block with
  | 0 => 16 | 3 => 64 | 7 => 16 | 9 => 48 | 10 => 64 | 12 => 48 | _ => 0

/-- The floor of a block's group (R38), 0 for none. -/
def floorOf (block : Nat) : Nat :=
  match block with
  | 0 => 12 | 3 => 56 | 7 => 12 | 10 => 48 | _ => 0

/-- The state with the cipher complex's part changed. -/
def State.onCip (s : State) (f : Cip → Cip) : State := { s with cip := f s.cip }

/-- The state with one block's fences and counts changed. -/
def onBlock (b : Nat) (f : BlockState → BlockState) (s : State) : State :=
  s.onCtl fun c => { c with blocks := c.blocks.upd b f }

/-- Is a unit of a block fenced (R42)? -/
def fencedUnit (s : State) (block unit : Nat) : Bool := bitAt (s.ctl.blocks.at block).fenced unit

/-- The units of a block that are not fenced. -/
def unitsLeft (s : State) (block : Nat) : Nat :=
  ((List.range (unitsOf block)).filter fun u => !fencedUnit s block u).length

/-- Is the group of a block below its floor (R38)? -/
def groupBelow (s : State) (block : Nat) : Bool := decide (unitsLeft s block < floorOf block)

/-- Is any group of identical units below its floor (R38)? -/
def belowFloor (s : State) : Bool := [0, 3, 7, 10].any (groupBelow s)

/-- The block's first source number (R29). -/
def blockSrc (block : Nat) : Nat := 0x500 + 16 * block

/-- How far the self-test under way has come, in percent: the specification gives no measure of it (R78). -/
def testPercent (s : State) : Nat := if s.cmd.test.code = 0 then 0 else s.freeVal.toNat % 101

/-- The image lock (R12, R404). -/
def State.locked (s : State) : Bool := s.fld F.CTL_LOCK_IMAGE_LOCK == 1

/-! Modes, roles and states (R340, R342, R357). -/

/-- The redundancy mode: 0 single, 1 pair, 2 trio. -/
def redMode (s : State) : Nat := s.fld F.RED_MODE_MODE

/-- This unit's role: 0 A, 1 B, 2 C. -/
def role (s : State) : Nat := s.fld F.RED_MODE_ROLE

/-- Is a role part of the image's mode (R340)? -/
def roleInMode (s : State) (r : Nat) : Bool := decide (r ≤ redMode s)

/-- The state code of R357. -/
def redState (s : State) : Nat := s.fld F.RED_STAT_STATE

/-- Is the unit one of a pair or trio? -/
def inGroup (s : State) : Bool := redMode s != 0

/-- Is the unit active in its group? -/
def groupActive (s : State) : Bool := inGroup s && redState s == 6

/-- Is the unit single or active: does it serve hosts (R338, R356)? -/
def isActive (s : State) : Bool := !inGroup s || redState s == 6

end Sys2Proof.Machine
end

