-- ==== Sys2Proof/Machine/Wire.lean ====
section
/-! DEFINITION. Frames byte by byte: header fields, checksums, ICRC and FCS (R224 to R226), and the frames of the transport's
packets (R82, R83). The formats of Ethernet, IP, UDP and RoCEv2 are those of their standards: notes/assumptions/90.md. -/

namespace Sys2Proof.Machine

/-! Fields of a frame. -/

/-- A byte of a frame; zero beyond its end. -/
def byteAt (f : Bytes) (i : Nat) : Nat := (f.getD i 0).toNat

/-- A big-endian 16-bit field of a frame. -/
def half (f : Bytes) (i : Nat) : Nat := byteAt f i * 256 + byteAt f (i + 1)

/-- Bytes put in place of those from an offset on. -/
def patch (f : Bytes) (at_ : Nat) (bs : Bytes) : Bytes := f.take at_ ++ bs ++ f.drop (at_ + bs.length)

/-- Where a frame's EtherType stands, behind at most two VLAN tags. -/
def etherAt (f : Bytes) : Nat :=
  let tagged := fun o => half f o == 0x8100 || half f o == 0x88A8
  if tagged 12 then (if tagged 16 then 20 else 16) else 12

/-- Does a frame carry IPv4? -/
def isIpv4 (f : Bytes) : Bool := half f (etherAt f) == 0x0800

/-- Does a frame carry IPv6? -/
def isIpv6 (f : Bytes) : Bool := half f (etherAt f) == 0x86DD

/-- Where a frame's IP header begins. -/
def ipAt (f : Bytes) : Nat := etherAt f + 2

/-- The length of a frame's IP header. -/
def ipLen (f : Bytes) : Nat := if isIpv4 f then byteAt f (ipAt f) % 16 * 4 else 40

/-- The protocol an IP header names. -/
def ipProto (f : Bytes) : Nat := if isIpv4 f then byteAt f (ipAt f + 9) else byteAt f (ipAt f + 6)

/-- Where the header that follows IP begins. -/
def l4At (f : Bytes) : Nat := ipAt f + ipLen f

/-- The bytes that follow IP, by the length its header gives. -/
def l4Len (f : Bytes) : Nat := if isIpv4 f then half f (ipAt f + 2) - ipLen f else half f (ipAt f + 4)

/-- Does a frame carry IP with a protocol? -/
def carries (f : Bytes) (proto : Nat) : Bool := (isIpv4 f || isIpv6 f) && ipProto f == proto

/-- Does a frame carry RoCEv2: UDP to port 4791 (R82)? -/
def isRoce (f : Bytes) : Bool := carries f 17 && half f (l4At f + 2) == 4791

/-- The ECN field of a frame; 0 where it carries no IP. -/
def ecnField (f : Bytes) : Nat :=
  if isIpv4 f then byteAt f (ipAt f + 1) % 4 else if isIpv6 f then byteAt f (ipAt f + 1) / 16 % 4 else 0

/-! Checksums. -/

/-- The ones' complement sum of bytes as 16-bit fields, an odd one padded with zero. -/
def onesSum (bs : Bytes) : Nat :=
  let n := ((List.range ((bs.length + 1) / 2)).map fun i => half bs (2 * i)).sum
  let n := n % 65536 + n / 65536
  n % 65536 + n / 65536

/-- The internet checksum test over the bytes of a header: the ones' complement sum is all ones. -/
def ipChecksumOk (h : Bytes) : Bool := onesSum (h.take (h.length / 2 * 2)) == 65535

/-- The IPv4 header checksum of a frame. -/
def ipv4Checksum (f : Bytes) : Nat := 65535 - onesSum (patch (slice f (ipAt f) (ipLen f)) 10 [0, 0])

/-- The pseudo header of a frame's IP header. -/
def pseudoHeader (f : Bytes) : Bytes :=
  if isIpv4 f then slice f (ipAt f + 12) 8 ++ [0] ++ beBytes 1 (ipProto f) ++ beBytes 2 (l4Len f)
  else slice f (ipAt f + 8) 32 ++ beBytes 4 (l4Len f) ++ [0, 0, 0] ++ beBytes 1 (ipProto f)

/-- The UDP or TCP checksum of a frame, whose field stands `o` bytes into that header; a UDP checksum of zero is sent as all
ones. -/
def l4Checksum (f : Bytes) (o : Nat) : Nat :=
  let n := 65535 - onesSum (pseudoHeader f ++ patch (slice f (l4At f) (l4Len f)) o [0, 0])
  if n = 0 ∧ o = 6 then 65535 else n

/-- The ICRC of a RoCEv2 frame over what precedes its place: the fields that may change on the way are masked with ones. -/
def icrc (f : Bytes) : Nat :=
  let a := ipAt f
  let g := if isIpv4 f then patch (patch (patch f (a + 1) [0xFF]) (a + 8) [0xFF]) (a + 10) [0xFF, 0xFF]
    else patch (patch f a [0x6F, 0xFF, 0xFF, 0xFF]) (a + 7) [0xFF]
  let g := patch (patch g (l4At f + 6) [0xFF, 0xFF]) (l4At f + 12) [0xFF]
  crc32 (List.replicate 8 0xFF ++ slice g a (ipLen f + l4Len f - 4))

/-- PRT completes a frame that the unit itself sends (R225): the IPv4 header checksum, the zero UDP checksum and the ICRC of
RoCEv2, any other UDP or TCP checksum where the descriptor asks for it, and the FCS, behind the padding to 64 bytes. The frame is
given without its ICRC and FCS. -/
def completeFrame (asks : Bool) (f : Bytes) : Bytes :=
  let f := if isIpv4 f then patch f (ipAt f + 10) (beBytes 2 (ipv4Checksum f)) else f
  let f :=
    if isRoce f then
      let f := patch f (l4At f + 6) [0, 0]
      f ++ leBytes 4 (icrc f)
    else if asks && carries f 17 then patch f (l4At f + 6) (beBytes 2 (l4Checksum f 6))
    else if asks && carries f 6 then patch f (l4At f + 16) (beBytes 2 (l4Checksum f 16))
    else f
  let f := padTo 60 f
  f ++ leBytes 4 (crc32 f)

/-- Check 5 of R224: a UDP checksum that is not zero is right. -/
def udpSumOk (f : Bytes) : Bool :=
  !carries f 17 || half f (l4At f + 6) == 0 || half f (l4At f + 6) == l4Checksum f 6

/-- Check 6 of R224: the ICRC of a RoCEv2 frame is right. -/
def icrcOk (f : Bytes) : Bool :=
  !isRoce f || slice f (l4At f + l4Len f - 4) 4 == leBytes 4 (icrc f)

/-- A transit frame marked for congestion (R226): its ECN field becomes 11b, and the IPv4 header checksum is updated
incrementally. -/
def ecnMark (f : Bytes) : Bytes :=
  let a := ipAt f
  if isIpv4 f then
    let old := half f a
    let new := old / 4 * 4 + 3
    let sum := (65535 - half f (a + 10)) + (65535 - old) + new
    let sum := sum % 65536 + sum / 65536
    let sum := sum % 65536 + sum / 65536
    patch (patch f a (beBytes 2 new)) (a + 10) (beBytes 2 (65535 - sum))
  else if isIpv6 f then patch f (a + 1) [BitVec.ofNat 8 (byteAt f (a + 1) % 16 + 48 + byteAt f (a + 1) / 64 * 64)]
  else f

/-! Other frames that the unit itself sends (R225). -/

/-- The first valid station address of a logical port (R223); zero where it has none. -/
def stationOf (s : State) (lport : Nat) : Nat :=
  match (List.range 4).find? fun j => s.fldI F.PRT_STATION_HI_VALID (4 * lport + j) == 1 with
  | some j => s.fldI F.PRT_STATION_HI_ADDR_HI (4 * lport + j) * 2 ^ 32 + s.fldI F.PRT_STATION_LO_ADDR_LO (4 * lport + j)
  | none => 0

/-- A PFC frame (R227, R228): it names one priority, with the quanta of the unit, or 0 to release it. -/
def pfcFrame (s : State) (lport prio : Nat) (hold : Bool) : Bytes :=
  completeFrame false ([0x01, 0x80, 0xC2, 0, 0, 0x01] ++ beBytes 6 (stationOf s lport) ++ [0x88, 0x08, 0x01, 0x01] ++
    beBytes 2 (2 ^ prio) ++ (List.range 8).flatMap fun p => beBytes 2 (if p = prio ∧ hold then Config.pfcQuanta.toNat else 0))

/-- A gratuitous ARP of a logical port's IPv4 address (R362). -/
def arpFrame (s : State) (lport ipv4 : Nat) : Bytes :=
  let mac := beBytes 6 (stationOf s lport)
  completeFrame false (List.replicate 6 0xFF ++ mac ++ [0x08, 0x06, 0, 1, 0x08, 0, 6, 4, 0, 1] ++ mac ++ beBytes 4 ipv4 ++
    List.replicate 6 0 ++ beBytes 4 ipv4)

/-- An unsolicited neighbour advertisement of a logical port's IPv6 address, to all nodes (R362). -/
def advertFrame (s : State) (lport ipv6 : Nat) : Bytes :=
  let mac := beBytes 6 (stationOf s lport)
  let f := [0x33, 0x33, 0, 0, 0, 1] ++ mac ++ [0x86, 0xDD, 0x60, 0, 0, 0, 0, 32, 58, 255] ++ beBytes 16 ipv6 ++
    [0xFF, 0x02] ++ List.replicate 13 0 ++ [1] ++ [136, 0, 0, 0, 0x20, 0, 0, 0] ++ beBytes 16 ipv6 ++ [2, 1] ++ mac
  completeFrame false (patch f (l4At f + 2) (beBytes 2 (l4Checksum f 2)))

/-! PTP event messages (R229). -/

/-- Where the PTP message of a frame begins, over Layer 2 or UDP to the event port. -/
def ptpAt (f : Bytes) : Option Nat :=
  if half f (etherAt f) = 0x88F7 then some (etherAt f + 2)
  else if carries f 17 ∧ half f (l4At f + 2) = 319 then some (l4At f + 8)
  else none

/-- The messageType of a PTP event message that a frame carries: 0 Sync, 1 Delay_Req, 2 Pdelay_Req, 3 Pdelay_Resp. -/
def ptpEvent (f : Bytes) : Option (Nat × Nat) :=
  match ptpAt f with
  | some p => if byteAt f p % 16 ≤ 3 then some (p, byteAt f p % 16) else none
  | none => none

/-- A Sync message that leaves at a GTS in one-step operation: originTimestamp is the GTS, in whole seconds and nanoseconds, and
the residual below a nanosecond is none; over IPv4 the UDP checksum is zero (R231). -/
def stampSync (f : Bytes) (p gts : Nat) : Bytes :=
  let f := patch f (p + 34) (beBytes 6 (gts / 1000000000) ++ beBytes 4 (gts % 1000000000))
  if isIpv4 f then patch f (l4At f + 6) [0, 0] else f

/-! The frames of the transport. -/

/-- The path MTU in bytes (R82, R88). -/
def mtuBytes (code : Nat) : Nat := 2 ^ (code + 7)

/-- The packets a message of `len` bytes takes. -/
def packetsOf (code len : Nat) : Nat := max 1 ((len + mtuBytes code - 1) / mtuBytes code)

/-- PSN arithmetic modulo 2^24. -/
def psnAdd (a n : Nat) : Nat := (a + n) % 2 ^ 24

/-- The frame of one packet of a connection, from its base transport header and what follows it: RoCEv2 over UDP port 4791 on
IPv4 where the remote address is IPv4-mapped, else on IPv6 (R82, R88). -/
def roceFrame (s : State) (c : Context) (body : Bytes) : Bytes :=
  let v4 := c.remoteIp / 2 ^ 32 == 0xFFFF
  let addr := s.red.addrs.at c.lport
  let tos := c.dscp % 64 * 4 + 2
  let udp := beBytes 2 c.sport ++ beBytes 2 4791 ++ beBytes 2 (8 + body.length + 4) ++ [0, 0]
  let ip := if v4 then
      [0x45] ++ beBytes 1 tos ++ beBytes 2 (28 + body.length + 4) ++ [0, 0, 0x40, 0, 64, 17, 0, 0] ++ beBytes 4 addr.1 ++
        beBytes 4 (c.remoteIp % 2 ^ 32)
    else beBytes 4 (6 * 2 ^ 28 + tos * 2 ^ 20) ++ beBytes 2 (8 + body.length + 4) ++ [17, 64] ++ beBytes 16 addr.2 ++
        beBytes 16 c.remoteIp
  let tag := if c.vlan = 0 then [] else [0x81, 0x00] ++ beBytes 2 c.vlan
  completeFrame false (beBytes 6 c.remoteMac ++ beBytes 6 (stationOf s c.lport) ++ tag ++
    (if v4 then [0x08, 0x00] else [0x86, 0xDD]) ++ ip ++ udp ++ body)

/-- A base transport header with what follows it, the payload padded to four bytes (R83). -/
def bthBody (c : Context) (op : Nat) (ackReq : Bool) (psn : Nat) (ext payload : Bytes) : Bytes :=
  let pad := (4 - payload.length % 4) % 4
  beBytes 1 op ++ beBytes 1 (pad * 16) ++ [0xFF, 0xFF] ++ beBytes 1 (if op = 0x81 then 64 else 0) ++ beBytes 3 c.destQpn ++
    beBytes 1 (b2n ackReq * 128) ++ beBytes 3 psn ++ ext ++ payload ++ List.replicate pad 0

/-- An RDMA extended transport header. -/
def reth (va rkey len : Nat) : Bytes := beBytes 8 va ++ beBytes 4 rkey ++ beBytes 4 len

/-- An ACK extended transport header: the syndrome and the MSN (R95). -/
def aeth (c : Context) (syndrome : Nat) : Bytes := beBytes 1 syndrome ++ beBytes 3 c.msn

/-- A 16-byte completion queue entry (R47, R493). -/
def cqeBytes (dw0 sqid cid sct sc : Nat) (dnr : Bool) : Bytes :=
  leBytes 4 dw0 ++ leBytes 4 0 ++ leBytes 2 0 ++ leBytes 2 sqid ++ leBytes 2 cid ++
    leBytes 2 (sc * 2 + sct * 2 ^ 9 + b2n dnr * 2 ^ 15)

/-- The bodies of the packets of a message: opcodes First, Middle, Last and Only, `head` in the first packet and `tail` in the
last; the last asks for an acknowledgement where `ack` says so (R83, R101). -/
def messageBodies (c : Context) (ops : Nat × Nat × Nat × Nat) (psn : Nat) (head tail : Bytes) (ack : Bool) (data : Bytes) :
    List Bytes :=
  let n := packetsOf c.pmtu data.length
  (List.range n).map fun i =>
    let op := if n = 1 then ops.2.2.2 else if i = 0 then ops.1 else if i + 1 = n then ops.2.2.1 else ops.2.1
    bthBody c op (ack && decide (i + 1 = n)) (psnAdd psn i)
      ((if i = 0 then head else []) ++ if i + 1 = n then tail else []) (slice data (i * mtuBytes c.pmtu) (mtuBytes c.pmtu))

/-- The bodies of a Send message (R83, R105). -/
def sendBodies (c : Context) (psn : Nat) (data : Bytes) (imm inv : Option Nat) : List Bytes :=
  match imm, inv with
  | some x, _ => messageBodies c (0, 1, 3, 5) psn [] (beBytes 4 x) true data
  | none, some k => messageBodies c (0, 1, 0x16, 0x17) psn [] (beBytes 4 k) true data
  | none, none => messageBodies c (0, 1, 2, 4) psn [] [] true data

/-- The bodies of an RDMA Write message (R83). -/
def writeBodies (c : Context) (psn va rkey : Nat) (data : Bytes) (imm : Option Nat) : List Bytes :=
  let head := reth va rkey data.length
  match imm with
  | some x => messageBodies c (6, 7, 9, 0x0B) psn head (beBytes 4 x) true data
  | none => messageBodies c (6, 7, 8, 0x0A) psn head [] true data

/-- The bodies of the responses to a Read Request: an ACK extended header in the first and the last (R83). -/
def responseBodies (c : Context) (psn : Nat) (data : Bytes) : List Bytes :=
  let a := aeth c 0x1F
  messageBodies c (0x0D, 0x0E, 0x0F, 0x10) psn a (if packetsOf c.pmtu data.length = 1 then [] else a) false data

/-- The bodies of the packets that a message or an acknowledgement is sent in (R83, R94, R95, R104, R112). -/
def Packet.bodies (c : Context) : Packet → List Bytes
  | .ack psn _ => [bthBody c 0x11 false psn (aeth c 0x1F) []]
  | .nakSequence psn => [bthBody c 0x11 false psn (aeth c 0x60) []]
  | .nakInvalid psn => [bthBody c 0x11 false psn (aeth c 0x61) []]
  | .nakAccess psn => [bthBody c 0x11 false psn (aeth c 0x62) []]
  | .nakRnr psn timer => [bthBody c 0x11 false psn (aeth c (0x20 + timer % 32)) []]
  | .cnp => [bthBody c 0x81 false 0 (List.replicate 16 0) []]
  | .send psn payload imm inv => sendBodies c psn payload imm inv
  | .write psn va rkey data imm => writeBodies c psn va rkey data imm
  | .readRequest psn va rkey len => [bthBody c 0x0C true psn (reth va rkey len) []]
  | .readResponse psn data => responseBodies c psn data
  | .response psn cid st dw0 inv => sendBodies c psn (cqeBytes dw0 c.sqid cid st.sct st.sc st.dnr) none inv
  | .more _ => []
  | .resend _ => []

/-- The frames of a message or an acknowledgement. -/
def Packet.frames (s : State) (qpn : Nat) (p : Packet) : List Bytes :=
  let c := s.xpt.ctx.at (qpn - 0x200000)
  (p.bodies c).map (roceFrame s c)

/-- Send an acknowledgement or a notification on a connection; in PS4 the ports send nothing (R234). -/
def sendPacket (qpn : Nat) (p : Packet) (s : State) : State :=
  if s.cmd.ps = 4 then s else s.send (.packet qpn p (p.frames s qpn))

end Sys2Proof.Machine
end

