-- ==== Sys2Proof/Machine/OpsHost.lean ====
section
/-! DEFINITION. Interrupts and completion entries of the host endpoint (R327 to R329, R333). -/

namespace Sys2Proof.Machine

/-- The state with the host endpoint's part changed. -/
def State.onHep (s : State) (f : Hep → Hep) : State := { s with hep := f s.hep }

/-- A function. -/
def fnOf (s : State) (k : Nat) : HepFn := s.hep.fns.at k

/-- The state with a function changed. -/
def onFn (k : Nat) (f : HepFn → HepFn) (s : State) : State := s.onHep fun h => { h with fns := h.fns.upd k f }

/-- PF0's number among the functions. -/
def pf0 : Nat := 65

/-- The function of a PCIe controller (R318): 0xFF00 is PF1's CNTLID, 0xFF00 + n VFn's. -/
def fnOfCntlid (cntlid : Nat) : Option Nat := if 0xFF00 ≤ cntlid ∧ cntlid ≤ 0xFF40 then some (cntlid - 0xFF00) else none

/-- A completion queue, keyed as its controller's queues: 256 × CNTLID + its number. -/
def cqOf (s : State) (key : Nat) : CqState := s.hep.cqs.at key

/-- The state with a completion queue changed. -/
def onCq (key : Nat) (f : CqState → CqState) (s : State) : State := s.onHep fun h => { h with cqs := h.cqs.upd key f }

/-- A function signals a vector (R328, R329): MSI-X while it is enabled, a masked vector setting its PBA bit; MSI while it
alone is enabled, folded onto the messages allocated; else nothing. No interrupt leaves while BME is clear (R333). -/
def raiseVector (k vector : Nat) (s : State) : State :=
  let f := fnOf s k
  if !f.bme then s
  else if f.msix then
    if f.fnMask || !bitAt f.unmasked vector then onFn k (fun f => { f with pba := setBit f.pba vector true }) s
    else s.send (.msix k vector)
  else if f.msi then s.send (.msi k (vector % max 1 f.messages))
  else s

/-- A completion entry's interrupt: at once, or gathered under Interrupt Coalescing, feature 0x08 (threshold in [7:0], time in
[15:8]), unless Interrupt Vector Configuration, feature 0x09, disables it for the vector (bit 16); vector 0, the admin
queue's, is never coalesced (R329). -/
def signalCq (key : Nat) (s : State) : State :=
  let c := cqOf s key
  let k := key / 256 - 0xFF00
  let features := (s.cmd.ctrls.at (key / 256)).features
  let coal := features.at 0x08
  let n := s.hep.coalesced.at (256 * k + c.vector) + 1
  let gathers := bitsOf coal 15 8 != 0 && bitsOf coal 7 0 != 0 && c.vector != 0 && !bitAt (features.at (0x900 + c.vector)) 16
  if !c.interrupts then s
  else if gathers ∧ n ≤ bitsOf coal 7 0 then
    s.onHep fun h => { h with coalesced := h.coalesced.put (256 * k + c.vector) n }
  else raiseVector k c.vector (s.onHep fun h => { h with coalesced := h.coalesced.put (256 * k + c.vector) 0 })

/-- Is a completion queue full? -/
def CqState.full (c : CqState) : Bool := (c.tail + 1) % max 1 c.size == c.head

/-- A completion entry in host memory: the head of its submission queue as far as its entries were read, and the phase tag,
which is inverted with every pass over the queue (NVMe; notes/assumptions/99.md). -/
def pcieCqe (s : State) (c : CqState) (cntlid sqid cid : Nat) (st : Status) (dw0 : Nat) : Bytes :=
  leBytes 4 dw0 ++ leBytes 4 0 ++ leBytes 2 (s.hep.sqs.at (cntlid * 256 + sqid)).fetched ++ leBytes 2 sqid ++ leBytes 2 cid ++
    leBytes 2 ((c.passes + 1) % 2 + st.sc * 2 + st.sct * 2 ^ 9 + b2n st.dnr * 2 ^ 15)

/-- Write a completion entry to a PCIe queue (R327): dropped while BME is clear or an FLR is in progress (R331, R333); it waits
for space in a full queue. -/
def hostPost (cntlid sqid cid : Nat) (st : Status) (dw0 cqid : Nat) (s : State) : State :=
  let key := cntlid * 256 + cqid
  let f := fnOf s (cntlid - 0xFF00)
  let c := cqOf s key
  if !f.bme ∨ f.flr ∨ !c.exists_ then s
  else if c.full then onCq key (fun c => { c with waiting := c.waiting ++ [⟨sqid, cid, st.sct, st.sc, st.dnr, dw0⟩] }) s
  else
    let entry := Output.hostWrite (cntlid - 0xFF00) (c.base + 16 * c.tail) (pcieCqe s c cntlid sqid cid st dw0) false
    let wraps := decide (c.size ≤ c.tail + 1)
    signalCq key (onCq key (fun c => { c with
      tail := if wraps then 0 else c.tail + 1, passes := if wraps then c.passes + 1 else c.passes })
      ((s.send entry).send (.completion cntlid sqid cid st dw0)))

end Sys2Proof.Machine
end

