-- ==== Sys2Proof/Machine/RouterOps.lean ====
section
/-! DEFINITION. The event router, the rings and the critical event log (R31 to R33, R397 to R402), and messages that the
unit sends to its sessions. -/

namespace Sys2Proof.Machine

/-- The records a ring can hold (R397). -/
def Ring.capacity (r : Ring) : Nat := 2 ^ (if r.sizeLog = 0 then 16 else r.sizeLog)

/-- The state with a ring changed. -/
def onRing (v : Nat) (f : Ring → Ring) (s : State) : State := s.onCtl fun c => { c with rings := c.rings.upd v f }

/-- The unit's next sequence number in a session, bit 63 set (R384). -/
def Session.nextSeq (x : Session) : Nat := 2 ^ 63 + x.sendSeq

/-- The state after a session has used a sequence number for a message of the unit. -/
def usedSeq (id : Nat) (s : State) : State :=
  s.onCtl fun c => { c with sessions := c.sessions.upd id fun x => { x with sendSeq := x.sendSeq + 1 } }

/-- Is the session open? -/
def sessionOpen (s : State) (id : Nat) : Bool := (s.ctl.sessions.look id).isSome

/-! The wire form of a message (R384, R385). -/

/-- A fragment: the 32-byte header, big-endian, the payload sealed under the session key, and the tag. -/
def mgmtFragment (key : Bytes) (kind session frag seq reqSeq op status : Nat) (payload : Bytes) : Bytes :=
  let h := [0x41, 0x4D] ++ beBytes 1 1 ++ beBytes 1 kind ++ beBytes 2 session ++ beBytes 2 frag ++ beBytes 8 seq ++
    beBytes 8 reqSeq ++ beBytes 2 op ++ beBytes 2 status ++ beBytes 4 payload.length
  let iv := beBytes 2 session ++ beBytes 2 frag ++ beBytes 8 seq
  let c := Config.gcmText key iv payload
  h ++ c ++ Config.gcmTag key iv h c

/-- A handshake message in the clear, as fragments (R384, R386). -/
def helloWire (session status : Nat) (payload : Bytes) : List Bytes :=
  let n := max 1 ((payload.length + 8143) / 8144)
  (List.range n).map fun i =>
    let p := slice payload (8144 * i) 8144
    [0x41, 0x4D, 1, 4] ++ beBytes 2 session ++ beBytes 2 ((if i + 1 = n then 0 else 0x8000) + i) ++ beBytes 8 (2 ^ 63) ++
      beBytes 8 0 ++ beBytes 2 0 ++ beBytes 2 status ++ beBytes 4 p.length ++ p

/-- A message of the unit in a session as fragments that share its sequence number, MORE set in all but the last. -/
def mgmtWire (s : State) (session kind reqSeq op status : Nat) (payload : Bytes) : List Bytes :=
  let x := s.ctl.sessions.at session
  let n := max 1 ((payload.length + 8143) / 8144)
  (List.range n).map fun i => mgmtFragment (s.cip.slots.at x.keySlot).key kind session
    ((if i + 1 = n then 0 else 0x8000) + i) x.nextSeq reqSeq op status (slice payload (8144 * i) 8144)

/-- The payload of a KIND 3 message (R400): the ring, the count, the first record's sequence number, and the records in their
stored byte order. -/
def ringPayload (ring first : Nat) (recs : List EventRec) : Bytes :=
  beBytes 1 ring ++ [0] ++ beBytes 2 recs.length ++ beBytes 8 first ++ recs.flatMap EventRec.bytes

/-- Send the next KIND 3 message of a session's ring, if it has records not yet sent and fewer than four messages are
unacknowledged (R400). -/
def sendRing (v : Nat) (s : State) : State :=
  let r := s.ctl.rings.at v
  let sent := (r.unacked.map (·.count)).sum
  let todo := (r.recs.drop sent).take 500
  if r.reader = 2 ∧ r.unacked.length < 4 ∧ todo ≠ [] then
    let x := s.ctl.sessions.at r.session
    let first := (todo.headD (0, default)).1
    let recs := todo.map (·.2)
    let s := s.send (.ringMessage x.port r.session x.nextSeq v first recs
      (mgmtWire s r.session 3 0 0 0 (ringPayload v first recs)))
    usedSeq r.session (onRing v (fun r => { r with unacked := r.unacked ++ [⟨first, todo.length, x.nextSeq⟩] }) s)
  else s

/-- A record enters a ring that has space (R397): the In-Band Interrupts of R391, the interrupt of a PF0 ring that turns
non-empty (R316, R399) and the message of a session's ring (R400) go with it. -/
def ringPush (v : Nat) (rec : EventRec) (s : State) : State :=
  let r := s.ctl.rings.at v
  let s := onRing v (fun r => { r with recs := r.recs ++ [(r.total + 1, rec)], total := r.total + 1 }) s
  let s := if decide (3 ≤ rec.severity) && s.fldI F.CTL_RING_CFG_IBI_MA v == 1 then s.send (.ibi 1 v) else s
  let s := if decide (3 ≤ rec.severity) && s.fldI F.CTL_RING_CFG_IBI_MB v == 1 then s.send (.ibi 3 v) else s
  let s := if r.reader = 1 ∧ r.recs = [] then raiseVector pf0 v s else s
  sendRing v s

/-- A ring with space again takes RING_OVERFLOW as its next record, which carries the records it dropped (R398). -/
def ringReport (v : Nat) (s : State) : State :=
  let r := s.ctl.rings.at v
  if r.lost ≠ 0 ∧ r.recs.length < r.capacity then
    let s := countBy 0x012 0x002 1 s
    let rec_ := mkRec s 0x002 2 0x012 (v * 2 ^ 32 + min r.lost (2 ^ 32 - 1))
    ringPush v rec_ (onRing v (fun r => { r with lost := 0 }) s)
  else s

/-- A record reaches a ring: it enters it, or is dropped for that ring alone and counted (R398). -/
def ringEnter (rec : EventRec) (s : State) (v : Nat) : State :=
  let s := ringReport v s
  let r := s.ctl.rings.at v
  if r.recs.length < r.capacity then ringPush v rec s
  else (onRing v (fun r => { r with lost := r.lost + 1 }) s).bumpI F.CTL_RING_STAT_DROPPED v 1

/-- Does the ring map send an event to ring `v` (R397)? Without an EVENTS section every record enters ring 0. -/
def ringMapped (s : State) (event v : Nat) : Bool :=
  match s.ctl.ringMap with
  | none => v == 0
  | some m => bitAt (m.getD event 0).toNat v

/-- Release a record into its rings (R32, R397). -/
def deliver (rec : EventRec) (s : State) : State :=
  ((List.range 8).filter fun v =>
    ringMapped s rec.event v && decide (s.fldI F.CTL_RING_CFG_MIN_SEV v ≤ rec.severity)).foldl (ringEnter rec) s

/-- A record of severity 4 is written to the critical event log, which keeps the last 65,536 (R31, R402). -/
def logCritical (rec : EventRec) (s : State) : State :=
  if rec.severity = 4 then
    (s.onCtl fun c => { c with clog := keepLast 65536 (c.clog ++ [rec]) }).bump F.CTL_CLOG_COUNT_COUNT
  else s

/-- The held record that the ordering key puts first; among equal keys the one that arrived first (R32). -/
def firstHeld : List EventRec → Option EventRec
  | [] => none
  | r :: rs =>
    match firstHeld rs with
    | none => some r
    | some q => if q.before r then some q else some r

/-- Send a record at once to a session that it names (R401). -/
def direct (id : Nat) (rec : EventRec) (ext : Bytes) (s : State) : State :=
  if sessionOpen s id then
    usedSeq id (s.send (.direct (s.ctl.sessions.at id).port id rec ext
      (mgmtWire s id 3 0 0 0 (ringPayload 0xFF 0 [rec] ++ ext))))
  else s

/-- The ports of the two management lanes by path code (R392): 0 for MA, 1 for MB. -/
def portOfPath (path : Nat) : Nat := path / 2

/-- The source of a path (R34, R392). -/
def pathSrc (path : Nat) : Nat := if path = 4 then 0x5D0 else 0x010 + path / 2

end Sys2Proof.Machine
end

