-- ==== Sys2Proof/Machine/OpsDrive.lean ====
section
/-! DEFINITION. The queues toward each drive (R198, R199, R202 to R204, R212, R213): what LAY submits enters a ring, or
waits. -/

namespace Sys2Proof.Machine

/-- A root port. -/
def portOf (s : State) (slot : Nat) : DrvPort := s.drv.ports.at slot

/-- The state with the drives' part changed. -/
def State.onDrv (s : State) (f : Drv → Drv) : State := { s with drv := f s.drv }

/-- The state with a root port changed. -/
def onPort (slot : Nat) (f : DrvPort → DrvPort) (s : State) : State := s.onDrv fun d => { d with ports := d.ports.upd slot f }

/-- The state with a slot's sideband changed. -/
def onSlotBand (slot : Nat) (f : DrvSlot → DrvSlot) (s : State) : State :=
  s.onDrv fun d => { d with slots := d.slots.upd slot f }

/-- The 4,096-byte pages that a drive command's data takes (R198). -/
def Output.pages : Output → Nat
  | .driveWrite _ _ d _ => max 1 ((d.length + 4095) / 4096)
  | .driveRead _ _ n _ => max 1 n
  | _ => 1

/-- Is it a write? -/
def Output.isWrite : Output → Bool
  | .driveWrite _ _ _ _ => true
  | _ => false

/-- The pages of one NVMe command: the smaller of the drive's MDTS and 1 MiB (R199). -/
def DrvPort.cmdPages (p : DrvPort) : Nat := if p.mdts = 0 then 256 else max 1 (min 256 (p.mdts / 4096))

/-- The depth of an I/O queue: the smaller of 1,024 and CAP.MQES + 1 (R202). -/
def DrvPort.ring (p : DrvPort) : Nat := if p.depth = 0 then 1024 else p.depth

/-- How many NVMe commands a run of pages becomes (R199). -/
def DrvPort.pieces (p : DrvPort) (pages : Nat) : Nat := (pages + p.cmdPages - 1) / p.cmdPages

/-- The NVMe commands of a run, in order (R199). -/
def DrvPort.split (p : DrvPort) (o : Output) : List Output :=
  let n := p.pieces o.pages
  if n ≤ 1 then [o]
  else
    match o with
    | .driveWrite slot lba d u => (List.range n).map fun i =>
        .driveWrite slot (lba + i * p.cmdPages) (slice d (i * p.cmdPages * 4096) (p.cmdPages * 4096)) u
    | .driveRead slot lba k u => (List.range n).map fun i =>
        .driveRead slot (lba + i * p.cmdPages) (min p.cmdPages (k - i * p.cmdPages)) u
    | o => [o]

/-- The window pages that `q` queue pairs' rings take (R202): entries of 64 and 16 bytes. -/
def DrvPort.ringPages (p : DrvPort) (q : Nat) : Nat := q * ((p.ring * 64 + 4095) / 4096 + (p.ring * 16 + 4095) / 4096)

/-- The window pages before the data of a class (R198, R199): the rings of the two urgent pairs in the reserved range; past it
the rings of the admin pair, two pages, and of the eight normal pairs. -/
def DrvPort.dataFrom (p : DrvPort) (urgent : Bool) : Nat := if urgent then p.ringPages 2 else 4096 + 2 + p.ringPages 8

/-- The window pages mapped to data. -/
def DrvPort.dataPages (p : DrvPort) : List Nat := p.inRing.flatMap (·.2)

/-- Have the I/O queues been created (R202, R208)? -/
def DrvPort.queuesUp (p : DrvPort) : Bool := p.state == 5 || (p.state == 4 && decide (5 ≤ p.step))

/-- Is a page of the window mapped: to a ring, or to the data of a command in a ring (R198)? The rings of the admin pair are the
first two pages past the urgent range. -/
def DrvPort.mapped (p : DrvPort) (page : Nat) : Bool :=
  page == 4096 || page == 4097 || p.dataPages.contains page ||
    (p.queuesUp && (decide (page < p.dataFrom true) || (decide (4096 ≤ page) && decide (page < p.dataFrom false))))

/-- The `n` lowest pages from `page` on that are not in use; `fuel` bounds the pages looked at. -/
def pagesFree (used : List Nat) : Nat → Nat → Nat → List Nat
  | 0, _, _ => []
  | _, 0, _ => []
  | fuel + 1, n + 1, page =>
    if used.contains page then pagesFree used fuel (n + 1) (page + 1) else page :: pagesFree used fuel n (page + 1)

/-- Does an NVMe command take the urgent queues? -/
def Output.isUrgent : Output → Bool
  | .driveWrite _ _ _ u => u
  | .driveRead _ _ _ u => u
  | _ => false

/-- The first LBA of an NVMe command. -/
def Output.lba : Output → Nat
  | .driveWrite _ l _ _ => l
  | .driveRead _ l _ _ => l
  | _ => 0

/-- May an urgent NVMe command be submitted now: a place in the two urgent rings, pages of the reserved range (R199, R204)? -/
def DrvPort.urgentFits (p : DrvPort) (o : Output) : Bool :=
  decide (p.urgentOut < 2 * p.ring) && decide (p.urgentPages + o.pages + p.dataFrom true ≤ 4096)

/-- May a normal NVMe command be submitted now: a place in the eight rings, pages, and NORMAL_CAP while urgent commands are
outstanding on a drive without the urgent priority class (R199, R203)? -/
def DrvPort.normalFits (p : DrvPort) (cap : Nat) (o : Output) : Bool :=
  decide (p.normalOut < 8 * p.ring) && decide (p.normalPages + o.pages + p.dataFrom false ≤ 65536) &&
    (p.urgentPrio || p.urgentOut == 0 || decide (p.normalOut < cap))

/-- A port with an NVMe command more in its rings, its data in the lowest free pages of its range. -/
def DrvPort.enter (p : DrvPort) (o : Output) : DrvPort :=
  let used := p.dataPages
  let here := pagesFree used (used.length + o.pages) o.pages (p.dataFrom o.isUrgent)
  let p := { p with inRing := p.inRing ++ [(o, here)] }
  if o.isUrgent then { p with urgentOut := p.urgentOut + 1, urgentPages := p.urgentPages + o.pages }
  else { p with normalOut := p.normalOut + 1, normalPages := p.normalPages + o.pages }

/-- Put an NVMe command into the rings. -/
def enterRing (slot : Nat) (o : Output) (s : State) : State := (onPort slot (·.enter o) s).send o

/-- What waits goes on in arrival order while it fits (R199, R203, R204); nothing after the end of all I/O (R213). -/
def drainWaits (slot : Nat) : Nat → State → State
  | 0, s => s
  | fuel + 1, s =>
    let p := portOf s slot
    if s.drv.stopped then s
    else if (p.urgentWait.head?.any p.urgentFits) then
      match p.urgentWait with
      | o :: os => drainWaits slot fuel (enterRing slot o (onPort slot (fun p => { p with urgentWait := os }) s))
      | [] => s
    else
      match p.normalWait with
      | n :: rest =>
        if p.normalFits (s.fld F.DRV_CFG_NORMAL_CAP) n then
          drainWaits slot fuel (enterRing slot n (onPort slot (fun p => { p with normalWait := rest }) s))
        else s
      | [] => s

/-- Everything that waits at a port, as a bound for `drainWaits`. -/
def DrvPort.waits (p : DrvPort) : Nat := p.urgentWait.length + p.normalWait.length

/-- May this unit's drive I/O run: not after the end of all I/O (R213); of a group, only that of the unit which is active or
takes over, since a standby issues admin commands alone (R212)? -/
def mayDrive (s : State) : Bool := !s.drv.stopped && (isActive s || redState s == 5)

/-- Submit a run to a drive as the NVMe commands it becomes (R199); a write waits for the drive's preempt (R212). -/
def drvSubmit (slot : Nat) (urgent : Bool) (o : Output) (s : State) : State :=
  if !mayDrive s then s
  else if o.isWrite ∧ s.drv.preempting.contains slot then onPort slot (fun p => { p with heldWrites := p.heldWrites ++ [o] }) s
  else
    let s := onPort slot (fun p =>
      if urgent then { p with urgentWait := p.urgentWait ++ p.split o } else { p with normalWait := p.normalWait ++ p.split o }) s
    drainWaits slot (portOf s slot).waits s

/-- Submit a write that belongs to no command of the table: a header area, a pad record, a unit that rebuild, repair or scrub
writes, a superblock. -/
def drvWrite (slot : Nat) (urgent : Bool) (lba : Nat) (data : Bytes) (s : State) : State :=
  if !mayDrive s then s
  else drvSubmit slot urgent (.driveWrite slot lba data urgent)
    (onPort slot (fun p => { p with back := p.back ++ [(lba, (data.length + 4095) / 4096, urgent)] }) s)

/-- The NVMe command of a class that begins at an LBA leaves the port: the oldest such in the rings with its pages, else the
oldest that waits. -/
def DrvPort.leave (urgent write : Bool) (p : DrvPort) (lba : Nat) : DrvPort :=
  let is := fun (o : Output) => o.isUrgent == urgent && o.isWrite == write && o.lba == lba
  match p.inRing.find? fun x => is x.1, urgent with
  | some x, true => { p with
      inRing := p.inRing.erase x, urgentOut := p.urgentOut - 1, urgentPages := p.urgentPages - x.1.pages }
  | some x, false => { p with
      inRing := p.inRing.erase x, normalOut := p.normalOut - 1, normalPages := p.normalPages - x.1.pages }
  | none, true => { p with urgentWait := p.urgentWait.eraseP is }
  | none, false => { p with normalWait := p.normalWait.eraseP is }

/-- A run of `pages` pages from `lba` on has completed: its ring entries and pages are free (R199, R204). -/
def drvDone (slot : Nat) (urgent write : Bool) (lba pages : Nat) (s : State) : State :=
  let s := onPort slot (fun p =>
    ((List.range (max 1 (p.pieces pages))).map fun i => lba + i * p.cmdPages).foldl (DrvPort.leave urgent write) p) s
  drainWaits slot (portOf s slot).waits s

/-- ASPM L1 of the links follows the power state and DRV_CFG.L1_PS3: enabled in PS3 alone, while L1_PS3 is 1 (R195). -/
def followL1 (s : State) : State :=
  let on := s.cmd.ps == 3 && s.fld F.DRV_CFG_L1_PS3 == 1
  (s.drv.ports.keysWhere fun _ p => p.speed != 0 && p.l1 != on).foldl (fun s n =>
    (onPort n (fun p => { p with l1 := on }) s).send (.driveL1 n on)) s

/-- A drive's preempt has completed: the writes held for it are submitted (R212). -/
def releaseWrites (slot : Nat) (s : State) : State :=
  let os := (portOf s slot).heldWrites
  let s := onPort slot (fun p => { p with heldWrites := [] }) s
  os.foldl (fun s o => drvSubmit slot o.isUrgent o s) s

end Sys2Proof.Machine
end

