-- ==== Sys2Proof/Machine/OpsPort.lean ====
section
/-! DEFINITION. Logical ports as the other subsystems see them (R219, R221, R234, R272). -/

namespace Sys2Proof.Machine

/-- The state with the network side's part changed. -/
def State.onNet (s : State) (f : Net → Net) : State := { s with net := f s.net }

/-- The breakout mode of a logical port's physical port (R219). -/
def modeOf (s : State) (lport : Nat) : Nat := s.fldI F.PRT_PORT_CFG_MODE (lport / 4)

/-- The speed code of a logical port in its mode: 4 for 800G, 3 for 400G, 2 for 200G, 1 for 100G; 0 for an absent port
(R219). -/
def speedCode (s : State) (lport : Nat) : Nat :=
  match modeOf s lport, lport % 4 with
  | 0, 0 => 4
  | 1, 0 => 3
  | 1, 2 => 3
  | 2, _ => 2
  | 3, _ => 1
  | _, _ => 0

/-- Does the logical port exist (R219)? -/
def portExists (s : State) (lport : Nat) : Bool := speedCode s lport != 0

/-- The rate of a logical port, Mb/s; 0 for an absent one. -/
def portMbps (s : State) (lport : Nat) : Nat :=
  match speedCode s lport with
  | 0 => 0
  | c => 100000 * 2 ^ (c - 1)

/-- Is the link of a logical port up (R221)? -/
def linkIsUp (s : State) (lport : Nat) : Bool := s.fldI F.PRT_LPORT_STAT_LINK_UP lport == 1

/-- Does the port's gate list, if it has one, leave class 0's gate always open (R57, R272)? -/
def gateOpen (s : State) (lport : Nat) : Bool := s.fldI F.TMG_GATE_STAT_C0_CLOSED lport == 0

/-- The source of a logical port (R246). -/
def portSrc (lport : Nat) : Nat := 0x100 + lport

/-- A logical port's link is down. -/
def dropLink (lport : Nat) (s : State) : State :=
  if linkIsUp s lport then
    (((s.setFldI F.PRT_LPORT_STAT_LINK_UP lport 0).setFldI F.PRT_LPORT_STAT_SPEED lport 0).setFldI
      F.PRT_LPORT_STAT_PAUSED lport 0).bumpI F.PRT_LPORT_STAT_LINK_DOWNS lport 1
  else s

/-- A logical port loses its link, with its cause (R221, R246). -/
def loseLink (lport cause : Nat) (s : State) : State :=
  if linkIsUp s lport then emit (portSrc lport) 0x102 2 (cause * 16) (dropLink lport s) else s

/-- The wake ports: physical ports kept up in PS4, as the last entry into PS4 latched them (R234). -/
def wakePorts (w : Word) : List Nat :=
  (if bitAt w.toNat 4 then [bitsOf w.toNat 3 0] else []) ++ (if bitAt w.toNat 12 then [bitsOf w.toNat 11 8] else [])

/-- A wake register as the last entry into PS4 latched it. -/
def wakeWord (s : State) (addr : Nat) : Word := s.net.wake.at addr

/-- May the unit enter PS4: does an enabled wake port have an enabled filter (R234)? -/
def wakeReady (s : State) : Bool :=
  (wakePorts (rawWord s.regs (F.PRT_WAKE_CFG_A_EN.addr 0))).any fun n => s.fldI F.PRT_WAKE_EN_EN n != 0

/-- Is an address one of the wake registers that apply at the next entry into PS4 (R247)? -/
def isWakeReg (a : Nat) : Bool := a == 0x1000040 || (decide (0x1001000 ≤ a) && decide (a < 0x1005240))

/-- A physical port goes off: its links are down, and it emits LINK_DOWN with cause 2; a disabled one emits nothing (R234,
R246). -/
def portOff (n : Nat) (s : State) : State :=
  let s := [0, 1, 2, 3].foldl (fun s i => dropLink (4 * n + i) s) s
  if modeOf s (4 * n) = 7 then s else emit (portSrc (4 * n)) 0x102 2 (2 * 16) s

/-- Entry into PS4 (R234): the wake registers are latched, and every other physical port goes off. -/
def enterPs4 (s : State) : State :=
  let s := s.onNet fun n => { n with wake := s.regs.filter fun e => isWakeReg e.1 && e.2 != 0 }
  let up := wakePorts (wakeWord s 0x1000040)
  (List.range 16).foldl (fun s n => if up.contains n then s else portOff n s) s

end Sys2Proof.Machine
end

