-- ==== Sys2Proof/Machine/OpsLeash.lean ====
section
/-! DEFINITION. The Leash (chapter 11) as every other subsystem sees it: modes and roles, links and frames, what the epoch
record collects, and notices. -/

namespace Sys2Proof.Machine

/-- The state with redundancy's part changed. -/
def State.onRed (s : State) (f : Red → Red) : State := { s with red := f s.red }

/-- Do writes wait for a vote: trio mode with a follower in the quorum (R354, R355)? -/
def needsVote (s : State) : Bool := redMode s == 2 && redState s == 6 && decide (2 ≤ s.fld F.RED_STAT_QUORUM)

/-- Does redundancy hold every grant: a unit of a group that is not active, or a switch order that drains (R362, R366)? -/
def redHolds (s : State) : Bool := inGroup s && (redState s != 6 || s.red.order.isSome)

/-- The epoch length, ns (R347). -/
def epochNs (s : State) : Nat := max 2 (s.fld F.RED_MODE_EPOCH_US) * 1000

/-- The epoch under way. -/
def epochNow (s : State) : Nat := s.now / epochNs s

/-- The bound of R57 for a command: 8 µs, and for a write in a trio that votes 16 µs, or 8 µs plus two epochs where they are
longer than 4 µs (R60). -/
def boundNs (s : State) (write : Bool) : Nat := if needsVote s && write then 8000 + 2 * max 4000 (epochNs s) else 8000

/-! Wire forms (R344, R350, R353). -/

/-- The 32-byte header of a Leash frame: TYPE, the FLAGS byte, LSEQ, ACK_LSEQ, the roles, LEN and EPOCH. -/
def leashHeader (typ flags lseq ack src dst len epoch : Nat) : Bytes :=
  let b := [0x4C, 0x48] ++ beBytes 1 typ ++ beBytes 1 flags ++ beBytes 4 lseq ++ beBytes 4 ack ++ beBytes 1 src ++
    beBytes 1 dst ++ beBytes 2 len ++ beBytes 8 epoch ++ beBytes 4 0
  b ++ beBytes 4 (crc32c b)

/-- The 64 bytes of a notice; its completion holds dword 0, the queue, the command and the status (R493). -/
def noticeBytes (n : Notice) : Bytes :=
  beBytes 4 (n.qpn + n.kind * 2 ^ 24) ++ beBytes 4 n.psn ++ beBytes 4 n.packets ++ beBytes 2 n.cntlid ++ beBytes 2 n.sqid ++
    beBytes 2 n.cid ++ beBytes 2 0 ++ beBytes 4 n.length ++ beBytes 8 n.va ++ beBytes 4 n.rkey ++ beBytes 4 n.offset ++
    cqeBytes n.dw0 n.sqid n.cid n.sct n.sc n.dnr ++ beBytes 8 n.gts

/-- The payload of an ECHO. -/
def echoBytes (epoch : Nat) (votes : List Vote) : Bytes :=
  beBytes 8 epoch ++ beBytes 4 votes.length ++
    votes.flatMap fun v => beBytes 8 v.jseq ++ beBytes 4 v.rcrc ++ beBytes 1 (b2n v.agree) ++ beBytes 3 0

/-- The TYPE of a frame (R345). -/
def LeashFrame.typ : LeashFrame → Nat
  | .idle _ => 0 | .epoch _ _ _ => 1 | .notice _ => 2 | .echo _ _ => 3 | .probe _ => 4 | .probeReply _ _ _ => 5
  | .join _ _ _ _ => 6 | .joinReply _ _ => 6 | .fence _ => 6 | .takeover _ => 6 | .handoverDone => 6
  | .bulk _ _ => 7 | .query _ _ _ => 8

/-- The payload of a frame whose layout the specification gives in full. -/
def LeashFrame.payload : LeashFrame → Option Bytes
  | .idle none => some []
  | .idle (some g) => some (beBytes 8 g)
  | .epoch _ _ part => some part
  | .notice n => some (noticeBytes n)
  | .echo e vs => some (echoBytes e vs)
  | .handoverDone => some [5]
  | _ => none

/-- FLAGS [0]: is it the last frame of a record? -/
def LeashFrame.isLast : LeashFrame → Bool
  | .epoch _ last _ => last
  | _ => false

/-- The bytes of a frame on the wire where its payload's layout is given in full, and none otherwise. -/
def LeashFrame.wire (lseq ack src dst epoch : Nat) (retx : Bool) (f : LeashFrame) : Bytes :=
  match f.payload with
  | none => []
  | some p => leashHeader f.typ (2 * b2n retx + b2n f.isLast) lseq ack src dst p.length epoch ++
      (if p = [] then [] else p ++ beBytes 4 (crc32c p))

/-! Links (R341). -/

/-- The role at the other end of a link as the mode wires it. -/
def linkPeer (s : State) (link : Nat) : Option Nat :=
  match redMode s, role s, link with
  | 1, 0, _ => some 1
  | 1, 1, _ => some 0
  | 2, 0, 0 => some 1
  | 2, 0, _ => some 2
  | 2, 1, 0 => some 0
  | 2, 1, _ => some 2
  | 2, 2, 0 => some 0
  | 2, 2, _ => some 1
  | _, _, _ => none

/-- Is a Leash link up (R343)? -/
def leashUp (s : State) (link : Nat) : Bool := s.fldI F.RED_LINK_STAT_UP link == 1

/-- The link to a unit: in a pair the one that carries records, in a trio the one that joins the two. -/
def linkTo (s : State) (r : Nat) : Nat :=
  if redMode s = 1 then s.red.recordLink
  else ([0, 1].find? fun l => linkPeer s l == some r).getD 0

/-- The state with a link changed. -/
def onLeash (link : Nat) (f : LeashLink → LeashLink) (s : State) : State :=
  s.onRed fun r => { r with links := r.links.upd link f }

/-- Send a frame on a link that is up, kept until it is acknowledged (R346). -/
def leashSend (link epoch : Nat) (f : LeashFrame) (s : State) : State :=
  if leashUp s link then
    let l := s.red.links.at link
    let s := onLeash link (fun l => { l with tx := l.tx + 1, sent := l.sent ++ [(l.tx + 1, f)] }) s
    let dst := (linkPeer s link).getD 3
    s.send (.leash link (l.tx + 1) l.rx false dst epoch f (f.wire (l.tx + 1) l.rx (role s) dst epoch false))
  else s

/-- Send a frame to a unit. -/
def sendTo (r : Nat) (f : LeashFrame) (s : State) : State := leashSend (linkTo s r) (epochNow s) f s

/-- Send a frame on every link. -/
def sendAll (f : LeashFrame) (s : State) : State := leashSend 1 (epochNow s) f (leashSend 0 (epochNow s) f s)

/-- Ask the partner with a QUERY frame about a slot's leg (1) or root port (2) (R206, R209). -/
def queryPartner (kind slot : Nat) (s : State) : State := sendTo (1 - role s) (.query kind slot none) s

/-! Peers. -/

/-- The peers in HEEL. -/
def peersInHeel (s : State) : List Nat :=
  (List.range 3).filter fun r => r != role s && bitAt (s.fld F.RED_STAT_HEEL) r

/-- The joiner of a resynchronisation under way on the active unit. -/
def joiners (s : State) : List Nat :=
  (List.range 3).filter fun r => r != role s && s.fldI F.RED_PEER_STAT_STATE r == 3

/-- Do epoch records go out: an active unit with a peer in HEEL or RESYNC (R348)? -/
def recordsRun (s : State) : Bool := groupActive s && !(peersInHeel s ++ joiners s).isEmpty

/-- Are acknowledgements of messages held for the epoch record (R122, R348)? -/
def holdsAcks (s : State) : Bool := recordsRun s

/-- A role's bit of RED_STAT.HEEL or FENCED. -/
def setRoleBit (f : Fld) (r : Nat) (b : Bool) (s : State) : State := s.setFld f (setBit (s.fld f) r b)

/-! What an epoch record collects (R348, R349). -/

/-- A capsule received in the epoch. -/
def noteCapsule (c : Capsule) (s : State) : State :=
  if recordsRun s then s.onRed fun r => { r with caps := r.caps ++ [c] } else s

/-- A commit record of the epoch. -/
def noteCommit (c : CommitRec) (s : State) : State :=
  if recordsRun s then s.onRed fun r => { r with commits := r.commits ++ [c] } else s

/-- A command that ended without a commit: a commit record of KIND 3. -/
def noteEnded (c : Capsule) (s : State) : State :=
  noteCommit { (default : CommitRec) with cntlid := c.cntlid, sqid := c.sqid, cid := c.cid, kind := 3, gts := s.now } s

/-- A leaf committed in the epoch (R178). -/
def noteLeaf (l : Leaf) (s : State) : State :=
  if recordsRun s then s.onRed fun r => { r with leaves := r.leaves ++ [l] } else s

/-! Notices (R350). -/

/-- The offset within a command's data of a host address of one of its descriptors. -/
def sglOffset (va rkey : Nat) : List Sgl → Nat
  | [] => 0
  | d :: ds => if d.rkey = rkey ∧ d.va ≤ va ∧ va < d.va + d.len then va - d.va else d.len + sglOffset va rkey ds

/-- The command that a message's tag names: entry `tag` − 1. -/
def tagCommand (s : State) (tag : Nat) : Entry := s.cmd.table.at (tag % 2 ^ 40 - 1)

/-- The notice of a message, where its kind has one. -/
def noticeOf (s : State) (qpn packets tag : Nat) (p : Packet) : Option Notice :=
  let c := s.xpt.ctx.at (qpn - 0x200000)
  let cap := (tagCommand s tag).cap
  let base : Notice := { (default : Notice) with
    qpn := qpn, packets := packets, cntlid := c.cntlid, sqid := c.sqid, cid := cap.cid, gts := s.now }
  match p with
  | .readRequest psn va rkey len => some { base with
      kind := 1, psn := psn, length := len, va := va, rkey := rkey, offset := sglOffset va rkey cap.sgl }
  | .write psn va rkey data _ => some { base with
      kind := 2, psn := psn, length := data.length, va := va, rkey := rkey, offset := sglOffset va rkey cap.sgl }
  | .response psn cid st dw0 inv => some { base with
      kind := if inv.isSome then 4 else 3, psn := psn, cid := cid, length := 16, rkey := inv.getD 0
      sct := st.sct, sc := st.sc, dnr := st.dnr, dw0 := dw0 }
  | _ => none

/-- Before a message of an NVMe connection leaves, its notice leaves on every link to a peer in HEEL; migration connections
have none. -/
def sendNotice (qpn packets tag : Nat) (p : Packet) (s : State) : State :=
  let c := s.xpt.ctx.at (qpn - 0x200000)
  if !groupActive s ∨ c.sqid = 0xFFFF then s
  else
    match noticeOf s qpn packets tag p with
    | none => s
    | some n => (peersInHeel s).foldl (fun s r => sendTo r (.notice n) s) s

end Sys2Proof.Machine
end

