-- ==== Sys2Proof/Machine/OpsXpt.lean ====
section
/-! DEFINITION. Shared operations of the transport (chapter 03): contexts, PSN arithmetic, sending, retransmission and the
congestion control of R106 to R108. -/

namespace Sys2Proof.Machine

/-- The context of a QPN (R86): 0x20_0000 + c names context c. -/
def ctxIndex (qpn : Nat) : Option Nat :=
  if 0x200000 ≤ qpn ∧ qpn < 0x400000 then some (qpn - 0x200000) else none

/-- The context of a QPN; a FREE context where the QPN names none. -/
def ctxOf (s : State) (qpn : Nat) : Context := s.xpt.ctx.at (qpn - 0x200000)

/-- The state with a connection's context changed. -/
def onCtx (qpn : Nat) (f : Context → Context) (s : State) : State :=
  s.onXpt fun x => { x with ctx := x.ctx.upd (qpn - 0x200000) f }

/-- The distance from `b` to `a` modulo 2^24 (R94). -/
def psnSub (a b : Nat) : Nat := (a + 2 ^ 24 - b % 2 ^ 24) % 2 ^ 24

/-- Contexts that are not FREE (R124). -/
def ctxInUse (s : State) : Nat := s.xpt.ctx.countWhere fun _ c => c.state != 0

/-- XPT_CTX_HWM rises with the contexts in use (R124). -/
def raiseHwm (s : State) : State :=
  if s.fld F.XPT_CTX_HWM_HWM < ctxInUse s then s.setFld F.XPT_CTX_HWM_HWM (ctxInUse s) else s

/-- The ACK timeout of R96, ns. -/
def ackTimeout (s : State) : Nat := 4096 * 2 ^ s.fld F.XPT_RETRY_CFG_ACK_EXP

/-- The PSN the last packet of a message of `n` packets from `psn` has. -/
def lastPsn (psn n : Nat) : Nat := psnAdd psn (n - 1)

/-- Take the PSNs of a message of `n` packets: the ACK timer starts if none runs, and the message is kept until it is
acknowledged (R96). `tag` is the command-table entry + 1 whose data it carries. -/
def takePsns (qpn n tag : Nat) (p : Packet) (s : State) : State :=
  onCtx qpn (fun c => { c with
    sends := c.sends ++ [(c.spsn, n, tag)]
    kept := c.kept.put c.spsn p
    sqTail := (c.sqTail + 1) % 65536
    timerGts := if c.timerGts = 0 then s.now + ackTimeout s else c.timerGts
    spsn := psnAdd c.spsn n }) s

/-- Is a message of kind, address and key the one a notice names (R363)? -/
def noticeFits (s : State) (qpn tag : Nat) (p : Packet) (n : Notice) : Bool :=
  match noticeOf s qpn n.packets tag p with
  | some m => m.kind == n.kind && m.qpn == n.qpn && m.cntlid == n.cntlid && m.sqid == n.sqid && m.cid == n.cid &&
      m.va == n.va && m.length == n.length
  | none => false

/-- A message with its first PSN. -/
def Packet.withPsn (psn : Nat) : Packet → Packet
  | .send _ payload imm inv => .send psn payload imm inv
  | .write _ va rkey data imm => .write psn va rkey data imm
  | .readRequest _ va rkey len => .readRequest psn va rkey len
  | .response _ cid st dw0 inv => .response psn cid st dw0 inv
  | p => p

/-- The first PSN of a message. -/
def Packet.psn : Packet → Nat
  | .send psn _ _ _ => psn
  | .write psn _ _ _ _ => psn
  | .readRequest psn _ _ _ => psn
  | .readResponse psn _ => psn
  | .response psn _ _ _ _ => psn
  | _ => 0

/-- What marks the tag of a message that is a read request. -/
def readMark : Nat := 2 ^ 40

/-- What marks the tag of a Write whose command's response has been sent (R103). -/
def answeredMark : Nat := 2 ^ 41

/-- Is a notice of a connection left whose message has not been sent again, with a PSN below one (R363)? -/
def noticeBelow (s : State) (qpn psn : Nat) : Bool :=
  let una := (ctxOf s qpn).unaPsn
  s.red.notices.any fun n => n.qpn == qpn && decide (psnSub n.psn una < psnSub psn una)

/-- After a takeover the messages of a connection are sent again in PSN order (R122, R363): those that are ready leave as far as
no notice below them is left. -/
def resumeMany : Nat → Nat → State → State
  | 0, _, s => s
  | fuel + 1, qpn, s =>
    let c := ctxOf s qpn
    match c.sends.find? fun m => c.resume.contains m.1 with
    | none => s
    | some m =>
      if noticeBelow s qpn m.1 then s
      else
        let s := onCtx qpn (fun c => { c with resume := c.resume.filter (· != m.1) }) s
        resumeMany fuel qpn (match c.kept.look m.1 with | some p => sendPacket qpn p s | none => s)

/-- Send again what may leave of the messages of a connection that are ready (R363). -/
def resumeSends (qpn : Nat) (s : State) : State := resumeMany (ctxOf s qpn).resume.length qpn s

/-- Send again a message that a notice names, with its original PSNs and in their order (R122, R363). -/
def sendNoticed (qpn tag : Nat) (p : Packet) (n : Notice) (s : State) : State :=
  let s := s.onRed fun r => { r with notices := r.notices.filter (· != n) }
  let c := ctxOf s qpn
  let before := c.sends.takeWhile fun x => decide (psnSub x.1 c.unaPsn < psnSub n.psn c.unaPsn)
  let p := p.withPsn n.psn
  let s := onCtx qpn (fun c => { c with
    sends := before ++ (n.psn, n.packets, tag) :: c.sends.drop before.length
    kept := c.kept.put n.psn p, resume := n.psn :: c.resume
    timerGts := if c.timerGts = 0 then s.now + ackTimeout s else c.timerGts }) s
  resumeSends qpn s

/-! Pacing (R106, R109). -/

/-- The depth of the pacing bucket, 16 KiB, in units of 1/80 byte: RATE units of 100 Mb/s give RATE of them in each ns. -/
def paceDepth : Nat := 16384 * 80

/-- What the pacing bucket of a connection lacks now. -/
def paceLack (s : State) (c : Context) : Nat := c.paceUsed - (s.now - c.paceGts) * c.rate

/-- Is a message paced: data-bearing, on a connection that is not class 0, while CC_EN is 1 (R106, R109)? -/
def isPaced (s : State) (c : Context) (data : Bool) : Bool := data && !c.class0 && s.fld F.XPT_CFG_CC_EN == 1

/-- How many packets in front of a list of payload lengths the bucket has room for. -/
def packetsThatFit : List Nat → Nat → Nat
  | [], _ => 0
  | l :: ls, lack => if lack + 80 * l ≤ paceDepth then packetsThatFit ls (lack + 80 * l) + 1 else 0

/-- The payload lengths of a message's packets. -/
def payloadLens (code len : Nat) : List Nat :=
  (List.range (packetsOf code len)).map fun i => min (mtuBytes code) (len - i * mtuBytes code)

/-- Packets of payload lengths leave a connection: the bucket is charged where they are paced. -/
def chargePace (qpn : Nat) (data : Bool) (lens : List Nat) (s : State) : State :=
  let c := ctxOf s qpn
  if isPaced s c data then onCtx qpn (fun c => { c with paceUsed := paceLack s c + 80 * lens.sum, paceGts := s.now }) s
  else s

/-- Is a posted message a read request? -/
def Posted.isRead (x : Posted) : Bool := match x.packet with | .readRequest _ _ _ _ => true | _ => false

/-- Are messages of a connection still to be sent again after a takeover (R363)? -/
def resuming (s : State) (qpn : Nat) : Bool := !(ctxOf s qpn).resume.isEmpty || s.red.notices.any fun n => n.qpn == qpn

/-- How many packets of the first posted message may leave now: none behind messages that are still to be sent again (R363), none
of a read without a credit (R99), of a paced message as many as the bucket has room for (R106), of any other all of them. -/
def mayLeave (s : State) (qpn : Nat) (x : Posted) : Nat :=
  let c := ctxOf s qpn
  let lens := (payloadLens c.pmtu x.len).drop c.workSent
  if x.own && resuming s qpn then 0
  else if x.isRead then (if c.readsOut < c.initDepth then lens.length else 0)
  else if isPaced s c x.data then packetsThatFit lens (paceLack s c) else lens.length

/-- A message begins to leave: its notice leaves first (R350), its PSNs are taken, a read takes its credit (R99). -/
def beginMessage (qpn : Nat) (x : Posted) (s : State) : State :=
  if !x.own then s
  else
    let c := ctxOf s qpn
    let n := packetsOf c.pmtu x.len
    let p := x.packet.withPsn c.spsn
    let s := takePsns qpn n x.tag p (sendNotice qpn n x.tag p s)
    onCtx qpn (fun c => { c with
      work := { x with packet := p } :: c.work.tail
      readsOut := if x.isRead then c.readsOut + 1 else c.readsOut }) s

/-- The last packet of a data message has left, with AckReq: it becomes the sample where none is outstanding (R107). -/
def startSample (qpn : Nat) (x : Posted) (s : State) : State :=
  if !(x.data && x.own) then s
  else onCtx qpn (fun c => if c.sampleOn then c else { c with
    sampleOn := true, sampleGts := s.now % 2 ^ 32, samplePsn := lastPsn x.packet.psn (packetsOf c.pmtu x.len) }) s

/-- The next `n` packets of the first posted message leave; with the last one the message is sent. In PS4 the ports send
nothing (R234). -/
def sendPart (qpn n : Nat) (s : State) : State :=
  let c := ctxOf s qpn
  match c.work with
  | [] => s
  | x :: rest =>
    let lens := payloadLens c.pmtu x.len
    let out : Output := if c.workSent = 0 then .packet qpn x.packet ((x.packet.frames s qpn).take n)
      else .packet qpn (.more (psnAdd x.packet.psn c.workSent)) (((x.packet.frames s qpn).drop c.workSent).take n)
    let s := chargePace qpn x.data ((lens.drop c.workSent).take n) (if s.cmd.ps = 4 then s else s.send out)
    if c.workSent + n < lens.length then onCtx qpn (fun c => { c with workSent := c.workSent + n }) s
    else startSample qpn x (onCtx qpn (fun c => { c with work := rest, workSent := 0 }) s)

/-- The messages posted on a connection leave in the order posted, as far as credits and pacing let them (R98, R99, R106). -/
def pumpMany : Nat → Nat → State → State
  | 0, _, s => s
  | fuel + 1, qpn, s =>
    let c := ctxOf s qpn
    match c.work with
    | [] => s
    | x :: _ =>
      let n := mayLeave s qpn x
      if n = 0 then s
      else pumpMany fuel qpn (sendPart qpn n (if c.workSent = 0 then beginMessage qpn x s else s))

/-- Send what a connection may send. -/
def pump (qpn : Nat) (s : State) : State := pumpMany ((ctxOf s qpn).work.length + 1) qpn s

/-- Send what every connection may send: time has passed (R106). -/
def pumpAll (s : State) : State :=
  (s.xpt.ctx.keysWhere fun _ c => !c.work.isEmpty).foldl (fun s i => pump (i + 0x200000) s) s

/-- Post a message on a connection, behind those posted before it (R98). -/
def postWork (qpn : Nat) (x : Posted) (s : State) : State :=
  pump qpn (onCtx qpn (fun c => { c with work := c.work ++ [x] }) s)

/-- Post a message with a payload of `len` bytes; after a takeover a message that a notice names keeps its PSNs (R363). -/
def sendMessage (qpn len tag : Nat) (p : Packet) (s : State) : State :=
  let c := ctxOf s qpn
  match s.red.notices.find? (noticeFits s qpn tag (p.withPsn c.spsn)) with
  | some n => pump qpn (sendNoticed qpn tag p n s)
  | none => postWork qpn ⟨p, len, tag, true, true⟩ s

/-- Send a Send message (R83, R105). -/
def sendSend (qpn : Nat) (payload : Bytes) (imm inv : Option Nat) (s : State) : State :=
  sendMessage qpn payload.length 0 (.send 0 payload imm inv) s

/-- Send an RDMA Write (R83); `tag` as in `takePsns`. -/
def sendWrite (qpn va rkey tag : Nat) (data : Bytes) (imm : Option Nat) (s : State) : State :=
  sendMessage qpn data.length tag (.write 0 va rkey data imm) s

/-- Send a response capsule (R83, R105). -/
def sendResponse (qpn cid : Nat) (st : Status) (dw0 : Nat) (inv : Option Nat) (s : State) : State :=
  sendMessage qpn 16 0 (.response 0 cid st dw0 inv) s

/-- Answer a peer's Read Request from a PSN on (R83, R106). -/
def sendReadResponse (qpn psn : Nat) (data : Bytes) (s : State) : State :=
  postWork qpn ⟨.readResponse psn data, data.length, 0, true, false⟩ s

/-- Issue an RDMA Read of at most 1 MiB, which waits for a read credit (R99). -/
def issueRead (qpn va rkey len tag : Nat) (s : State) : State :=
  sendMessage qpn len (tag + readMark) (.readRequest 0 va rkey len) s

/-- Issue the reads of a descriptor, each of at most 1 MiB (R99). -/
def issueReads : Nat → Nat → Nat → Nat → Nat → Nat → State → State
  | 0, _, _, _, _, _, s => s
  | n + 1, qpn, va, rkey, len, tag, s =>
    if len = 0 then s
    else issueReads n qpn (va + 0x100000) rkey (len - min len 0x100000) tag (issueRead qpn va rkey (min len 0x100000) tag s)

/-- One read credit is freed: what waited for it goes on (R99). -/
def freeReadCredit (qpn : Nat) (s : State) : State := pump qpn (onCtx qpn (fun c => { c with readsOut := c.readsOut - 1 }) s)

/-- The messages of a command whose entry is freed (R70, R103): its reads run on for nobody, and reads not yet issued are not
issued; a Write still unacknowledged is that of a command answered, or, where the command ended without a completion, of none,
and what of it has not begun to leave is not sent. -/
def Context.forget (c : Context) (i : Nat) (answered : Bool) : Context :=
  let begun := c.work.take (if c.workSent = 0 then 0 else 1)
  let gone := fun (x : Posted) => x.tag == i + 1 + readMark || (x.tag == i + 1 && !answered)
  let tag := fun (t : Nat) =>
    if t = i + 1 + readMark then readMark else if t = i + 1 then (if answered then answeredMark + i + 1 else 0) else t
  { c with
    sends := c.sends.map fun m => (m.1, m.2.1, tag m.2.2)
    work := (begun ++ (c.work.drop begun.length).filter fun x => !gone x).map fun x => { x with tag := tag x.tag } }

/-- No message of any connection belongs to entry `i` any more. -/
def forgetEntry (i : Nat) (answered : Bool) (s : State) : State :=
  s.onXpt fun x => { x with ctx := x.ctx.mapAll fun _ c => c.forget i answered }

/-- Send an acknowledgement of everything received in sequence (R95), or hold it under R122. -/
def sendAck (qpn : Nat) (s : State) : State :=
  let c := ctxOf s qpn
  if holdsAcks s then onCtx qpn (fun c => { c with held := c.held + 1, unackedPkts := 0 }) s
  else onCtx qpn (fun c => { c with unackedPkts := 0 }) (sendPacket qpn (.ack (psnSub c.epsn 1) c.msn) s)

/-- A packet has been received in sequence: EPSN advances and the packet is acknowledged at once with AckReq, or at the
16th packet not acknowledged (R94, R95). -/
def received (qpn : Nat) (ackReq : Bool) (s : State) : State :=
  let s := onCtx qpn (fun c =>
    { c with epsn := psnAdd c.epsn 1, nakSent := false, unackedPkts := c.unackedPkts + 1
             state := if c.state = 2 then 3 else c.state }) s
  if ackReq || decide (16 ≤ (ctxOf s qpn).unackedPkts) then sendAck qpn s else s

/-- An out-of-sequence packet: one NAK PSN Sequence Error until the expected PSN arrives (R94). -/
def outOfSequence (qpn : Nat) (s : State) : State :=
  let c := ctxOf s qpn
  if c.nakSent then s
  else onCtx qpn (fun c => { c with nakSent := true }) (sendPacket qpn (.nakSequence c.epsn) s)

/-- A duplicate Send or Write packet: acknowledged, never placed (R100); the acknowledgement may be held (R122). -/
def duplicate (qpn : Nat) (s : State) : State := sendAck qpn (emit 0x552 0x503 0 qpn s)

/-- How R94 classifies a request packet. -/
inductive PsnClass where
  | expected | ahead | duplicate
deriving DecidableEq, Repr

/-- The class of a packet by d = (PSN − EPSN) mod 2^24 (R94). -/
def classify (c : Context) (psn : Nat) : PsnClass :=
  let d := psnSub psn c.epsn
  if d = 0 then .expected else if d < 2 ^ 23 then .ahead else .duplicate

/-- The floor of a connection's rate: XPT_CC_LIMITS.MIN_RATE, and for a connection what it was at its last sample (R106,
R124). -/
def minRate (s : State) : Nat := s.fld F.XPT_CC_LIMITS_MIN_RATE

/-- CC_RATE_MIN when RATE reaches MIN_RATE, once in each base window, which BASE_START names (R108). -/
def sayRateMin (qpn : Nat) (old : Nat) (s : State) : State :=
  let c := ctxOf s qpn
  if c.rate = c.minRate ∧ old ≠ c.rate ∧ (!c.minRateSaid ∨ c.minRateGts ≠ c.baseStart) then
    emit 0x553 0x50C 0 qpn (onCtx qpn (fun c => { c with minRateSaid := true, minRateGts := c.baseStart }) s)
  else s

/-- The elapsed time since a stored low half of GTS (R88). -/
def since32 (now stamp : Nat) : Nat := (now + 2 ^ 32 - stamp) % 2 ^ 32

/-- The procedure of R107 on a sample of `smp` ns: `portRate` in units of 100 Mb/s. DESIGN CHOICE: a BASE_RTT of 0 is that of a
connection without a sample yet, whose first sample opens a base window (notes/assumptions/91.md). -/
def onSample (qpn smp portRate : Nat) (s : State) : State :=
  let now := s.now % 2 ^ 32
  let win := s.fld F.XPT_CC_LIMITS_BASE_WIN_MS * 1000000
  let target := s.fld F.XPT_CC_CFG_TARGET_NS
  let beta := s.fld F.XPT_CC_CFG_BETA
  let ai := s.fld F.XPT_CC_CFG_AI_STEP
  let old := (ctxOf s qpn).rate
  let s := onCtx qpn (fun c =>
    let c := { c with minRate := minRate s, paceUsed := paceLack s c, paceGts := s.now }
    let c := if win ≤ since32 now c.baseStart ∨ c.baseRtt = 0 then { c with baseStart := now, baseRtt := smp } else c
    let c := { c with baseRtt := min c.baseRtt smp, lastRtt := smp }
    if since32 now c.lastChange < smp then c
    else
      let c := { c with lastChange := now }
      if smp ≤ c.baseRtt + target then { c with rate := min (c.rate + ai) portRate }
      else
        let excess := smp - c.baseRtt - target
        { c with rate := max (c.rate * (256 * smp - beta * excess) / (256 * smp)) c.minRate }) s
  sayRateMin qpn old s

/-- A retransmission halves RATE, at most once per RTT (R108). -/
def halveRate (qpn : Nat) (s : State) : State :=
  let now := s.now % 2 ^ 32
  let old := (ctxOf s qpn).rate
  let s := onCtx qpn (fun c =>
    if since32 now c.lastChange < c.lastRtt then c
    else { c with
      lastChange := now, rate := max (c.rate / 2) c.minRate, paceUsed := paceLack s c, paceGts := s.now }) s
  sayRateMin qpn old s

/-- The packets of a kept message from a PSN on that have been sent: those of the message in progress stop where it does. -/
def sentFrames (s : State) (qpn psn : Nat) (m : Nat × Nat × Nat) : List Bytes :=
  let c := ctxOf s qpn
  match c.kept.look m.1 with
  | none => []
  | some p =>
    let fs := p.frames s qpn
    let fs := match c.work with
      | x :: _ => if c.workSent ≠ 0 ∧ x.packet.psn = m.1 then fs.take c.workSent else fs
      | [] => fs
    if psnSub psn m.1 < m.2.1 ∧ fs.length = m.2.1 then fs.drop (psnSub psn m.1) else fs

/-- The messages with a packet at or after a PSN. -/
def messagesFrom (c : Context) (psn : Nat) : List (Nat × Nat × Nat) :=
  c.sends.filter fun m => decide (psnSub (lastPsn m.1 m.2.1) psn < 2 ^ 23)

/-- Resend every packet from a PSN (R96). A Write whose command's response has already been sent, as only relaxed mode lets it
be, emits RELAXED_RETX (R103). The packets leave at once and are charged to the pacing bucket. -/
def resendFrom (qpn psn : Nat) (s : State) : State :=
  let ms := messagesFrom (ctxOf s qpn) psn
  let fs := ms.flatMap (sentFrames s qpn psn)
  let s := if s.cmd.ps = 4 then s else s.send (.packet qpn (.resend psn) fs)
  let s := chargePace qpn true (fs.map (·.length)) s
  let s := onCtx qpn (fun c => { c with timerGts := s.now + ackTimeout s }) s
  (ms.filter fun m => decide (answeredMark ≤ m.2.2)).foldl (fun s _ => emit 0x552 0x504 2 qpn s) s

/-- A region's remote key (R111). -/
def regionIndex (rkey : Nat) : Nat := rkey / 256

/-- R112: the reason a range of a region fails for an operation (`bit` 0 write, 1 read), or none. -/
def regionCheck (s : State) (rkey va len bit tenant : Nat) : Option Nat :=
  let r := s.xpt.regions.at (regionIndex rkey)
  if 65536 ≤ regionIndex rkey then some 1
  else if r.state = 2 then some 2
  else if r.state = 0 ∨ r.key ≠ rkey % 256 then some 1
  else if va < r.base ∨ r.base + r.length < va + len then some 3
  else if !bitAt r.access bit then some 4
  else if r.tenant ≠ tenant then some 5
  else none

/-- The state with a region changed. -/
def onRegion (i : Nat) (f : Region → Region) (s : State) : State :=
  s.onXpt fun x => { x with regions := x.regions.upd i f }

/-- Step 4 of R113: with no straddling message left the region is FREE, its key moves on and INV_DONE is emitted. -/
def finishInvalidation (i : Nat) (s : State) : State :=
  let r := s.xpt.regions.at i
  if r.state = 2 ∧ r.users = [] then
    let s := onRegion i (fun r => { r with
      state := 0, key := (r.key + 1) % 256, straddle := 0, byCtrl := false, forced := false }) s
    let s := if r.byCtrl then s.onXpt fun x => { x with invCtrl := none } else s
    emit 0x554 0x507 0 (b2n r.forced * 2 ^ 35 + i * 256 + r.key) s
  else s

/-- A message validated against a region ends, or its connection leaves (R113 step 3). -/
def endStraddle (i qpn : Nat) (s : State) : State :=
  finishInvalidation i
    (onRegion i (fun r => { r with users := r.users.erase qpn, straddle := if r.state = 2 then (r.users.erase qpn).length else 0 }) s)

/-- Steps 1 and 2 of R113 on a VALID region. -/
def startInvalidation (i : Nat) (byCtrl : Bool) (s : State) : State :=
  let r := s.xpt.regions.at i
  let s := onRegion i (fun r => { r with state := 2, applyGts := s.now, straddle := r.users.length, byCtrl := byCtrl }) s
  let s := if byCtrl then
      (s.onXpt fun x => { x with invCtrl := some (i * 256 + r.key) }).setFld F.XPT_INV_STATUS_FORCED 0 else s
  finishInvalidation i (emit 0x554 0x506 0 (i * 256 + r.key) s)

/-- The regions with a straddling message of a connection, a read counted under the QPN with bit 24 set. -/
def straddled (s : State) (qpn : Nat) : List Nat :=
  s.xpt.regions.keysWhere fun _ r => r.users.any fun u => u % 2 ^ 24 == qpn

/-- The messages of a connection that straddle end with it (R113 step 3). -/
def endStraddles (qpn : Nat) (s : State) : State :=
  (straddled s qpn).foldl (fun s i =>
    let us := (s.xpt.regions.at i).users.filter fun u => u % 2 ^ 24 == qpn
    us.foldl (fun s u => endStraddle i u s) s) s

/-- Release a context (R89). -/
def freeContext (qpn : Nat) (s : State) : State :=
  s.onXpt fun x => { x with
    ctx := x.ctx.put (qpn - 0x200000) default
    cache := x.cache.mapAll fun _ w => { w with ways := w.ways.filter fun e => e.1 != qpn - 0x200000 } }

/-- Is a message of a connection in flight, sent or posted and unacknowledged, or arriving (R89)? -/
def Context.inFlight (c : Context) : Bool := !(c.sends.isEmpty && c.work.isEmpty && c.wRegion.isNone && c.rxBuf.isEmpty)

/-- A drained context is released with a DREP (R89). -/
def drainedFree (qpn : Nat) (s : State) : State := freeContext qpn (endStraddles qpn (s.send (.cmDrep qpn)))

/-- A local disconnect of a connection whose queue is deleted (R89): in RTS it drains, and with no message in flight it is
released at once. -/
def localDisconnect (qpn : Nat) (s : State) : State :=
  let c := ctxOf s qpn
  if (ctxIndex qpn).isNone ∨ c.state ≠ 3 then s
  else if c.inFlight then onCtx qpn (fun c => { c with state := 4 }) s
  else drainedFree qpn s

/-- The bytes of HBM (R1): 48 GiB. -/
def hbmBytes : Nat := 48 * 2 ^ 30

/-- A byte range written to HBM; what lies beyond its 48 GiB is not stored (R1; notes/assumptions/86.md). -/
def hbmWrite (base : Nat) (data : Bytes) (s : State) : State :=
  s.onXpt fun x => { x with hbm :=
    ((List.range data.length).zip data).foldl (fun t p => if base + p.1 < hbmBytes then t.put (base + p.1) p.2 else t) x.hbm }

/-- A byte of HBM: what nothing has written reads zero (notes/assumptions/8.md), and beyond the 48 GiB a free value
(notes/assumptions/86.md). -/
def hbmAt (s : State) (a : Nat) : Byte := if a < hbmBytes then s.xpt.hbm.at a else Config.beyondHbm a

/-- Bytes read from HBM. -/
def hbmRead (s : State) (base len : Nat) : Bytes := (List.range len).map fun i => hbmAt s (base + i)

end Sys2Proof.Machine
end

