-- ==== Sys2Proof/Machine/OpsLay.lean ====
section
/-! DEFINITION. Shared operations of the layout engine (chapter 04): geometries, the on-drive format, placement, the
journal, the extent map and drive state. -/

namespace Sys2Proof.Machine

/-- The geometry of a namespace (R125). -/
def nsGeom (s : State) (nsid : Nat) : Geometry := s.lay.geoms.at (s.cmd.namespaces.at nsid).geom

/-- The stripe-unit size in bytes (R125). -/
def Geometry.u (g : Geometry) : Nat := 2 ^ g.uShift

/-- The rows of a set: 64 MiB / u (R131). -/
def Geometry.rows (g : Geometry) : Nat := 0x4000000 / g.u

/-- The geometry of a set. -/
def setGeom (s : State) (id : Nat) : Geometry := s.lay.geoms.at (s.lay.sets.at id).geom

/-- The state with a set changed. -/
def onSet (id : Nat) (f : SetRec → SetRec) (s : State) : State :=
  s.onLay fun l => { l with sets := l.sets.upd id f }

/-- The state with a drive of the drive table changed. -/
def onDrive (slot : Nat) (f : Drive → Drive) (s : State) : State :=
  s.onLay fun l => { l with drives := l.drives.upd slot f }

/-- Is the drive in service (STATE 1, R164)? -/
def Drive.inService (d : Drive) : Bool := d.state == 1

/-- The free chunks of a drive. -/
def Drive.free (d : Drive) : Nat := d.chunkCount - d.used.length

/-- The slots of the drives in service, in rising order. -/
def slotsInService (s : State) : List Nat := s.lay.drives.keysWhere fun _ d => d.inService

/-- C, the copies of every journal record: one more than the largest m among the image's geometries (R137). -/
def copiesC (s : State) : Nat :=
  1 + ((List.range 16).map fun g => (s.lay.geoms.at g).m).foldl max 0

/-- The spare reserve of R148, in chunks. -/
def spareReserve (s : State) : Nat :=
  s.fld F.LAY_RECLAIM_CFG_SPARE_DRIVES * ((slotsInService s).map fun d => (s.lay.drives.at d).chunkCount).foldl max 0

/-- The free chunks over all drives in service together (R132). -/
def freeChunks (s : State) : Nat := ((slotsInService s).map fun d => (s.lay.drives.at d).free).sum

/-- The lowest free chunk of a drive (R132). -/
def lowestChunk (d : Drive) : Nat :=
  ((List.range (d.used.length + 1)).find? fun c => !d.used.contains c).getD 0

/-- May new members be placed on the drive: in service, its joining checkpoint durable (R150), a free chunk left? -/
def Drive.placeable (d : Drive) : Bool := d.inService && !d.joining && decide (0 < d.free)

/-- Insert a slot in the ranking of R132: most free chunks first, ties to the lower slot. -/
def rankInsert (s : State) (slot : Nat) : List Nat → List Nat
  | [] => [slot]
  | x :: xs =>
    if (s.lay.drives.at slot).free > (s.lay.drives.at x).free ∨
        ((s.lay.drives.at slot).free = (s.lay.drives.at x).free ∧ slot < x) then slot :: x :: xs
    else x :: rankInsert s slot xs

/-- The drives that may take a member, as R132 ranks them. -/
def ranking (s : State) : List Nat :=
  ((s.lay.drives.keysWhere fun _ d => d.placeable)).foldl (fun l d => rankInsert s d l) []

/-- The member that takes the lowest free chunk of a drive. -/
def memberOn (s : State) (slot : Nat) : Member := ⟨slot, lowestChunk (s.lay.drives.at slot), false⟩

/-- Mark the chunk of a member used. -/
def takeChunk (s : State) (m : Member) : State := onDrive m.slot (fun d => { d with used := m.chunk :: d.used }) s

/-- Give the chunk of a member back. -/
def releaseChunk (s : State) (m : Member) : State :=
  onDrive m.slot (fun d => { d with used := d.used.erase m.chunk }) s

/-- The first data LBA of a drive: the end of the header area rounded up to a multiple of 16,384 (R155). -/
def dataStart (chunkCount : Nat) : Nat := (11796736 + chunkCount * 64 + 16383) / 16384 * 16384

/-- CHUNK_COUNT: the largest value whose data area ends at or below LBA_COUNT − 256, at most 16,777,215 (R155). -/
def chunkCountOf (lbaCount : Nat) : Nat :=
  let guess := min 16777215 ((lbaCount - 256 - 11796736) / 16448)
  if dataStart guess + guess * 16384 ≤ lbaCount - 256 then guess else guess - 1

/-- The first LBA of a chunk's header area (R155). -/
def headerLba (chunk : Nat) : Nat := 11796736 + chunk * 64

/-- The first LBA of a unit: row r of a chunk holds bytes r × u onward (R131, R155). -/
def unitLba (s : State) (m : Member) (u row : Nat) : Nat :=
  dataStart (s.lay.drives.at m.slot).chunkCount + m.chunk * 16384 + row * u / 4096

/-- The CRC-32C of a unit's u bytes: a unit shorter than u is zero beyond its data (R130, R157). -/
def unitCrc (u : Nat) (data : Bytes) : Nat := crc32c (padTo u data)

/-- A stripe header of 64 bytes (R157); a row that is unused has no unit CRC but 0. -/
def stripeHeader (k m id geom nsid row unit : Nat) (cipher : Bool) (r : RowInfo) : Bytes :=
  let crc := r.unitCrcs.getD unit 0
  let absent := r.dataUnits == 0 || (decide (r.dataUnits ≤ unit) && decide (unit < k))
  let b := [0x48, 0x53] ++ leBytes 1 unit ++ leBytes 1 r.dataUnits ++ leBytes 4 id ++ leBytes 2 row ++ leBytes 1 geom ++
    leBytes 1 (b2n cipher + 2 * b2n absent) ++ leBytes 4 nsid ++ leBytes 8 r.extent ++ leBytes 4 r.rowInExtent ++
    leBytes 4 crc ++ leBytes 4 r.rowBytes ++
    leBytes 4 (rowCrc (r.unitCrcs ++ List.replicate (k + m - r.unitCrcs.length) 0)) ++ leBytes 8 r.jseq ++ leBytes 8 r.commitGts ++
    leBytes 4 0
  b ++ leBytes 4 (crc32c b)

/-- A map entry of 64 bytes (R159); a removal names SET_ID 0xFFFF_FFFF (R158). -/
def MapEntry.bytes (e : MapEntry) : Bytes :=
  let b := leBytes 4 e.nsid ++ leBytes 1 (if e.kv then 2 else 1) ++ leBytes 1 (if e.kv then e.key.length else 0) ++
    leBytes 2 0 ++ (if e.kv then padTo 16 e.key else leBytes 8 e.start ++ leBytes 8 0) ++
    leBytes 4 (if e.removed && e.kv then 0 else e.length) ++
    leBytes 4 (if e.removed || e.empty then 0xFFFFFFFF else e.set) ++ leBytes 2 e.firstRow ++ leBytes 2 0 ++
    leBytes 4 e.offset ++ leBytes 8 e.extent ++ leBytes 8 e.jseq ++ leBytes 4 0
  b ++ leBytes 4 (crc32c b)

/-- The data units of a row of an extent of `bytes` bytes, for its row number from 0 (R128, R134). -/
def rowUnits (g : Geometry) (bytes row : Nat) : Nat :=
  min g.k ((bytes - row * (g.k * g.u) + g.u - 1) / g.u)

/-- A row run of 32 bytes (R158). -/
def runBytes (s : State) (a : Alloc) : Bytes :=
  let g := setGeom s a.set
  leBytes 4 a.set ++ leBytes 2 a.firstRow ++ leBytes 2 a.rows ++ leBytes 1 (rowUnits g a.bytes (a.rows - 1)) ++
    leBytes 1 (s.lay.sets.at a.set).geom ++ leBytes 2 0 ++ leBytes 4 (a.bytes - (a.rows - 1) * (g.k * g.u)) ++
    leBytes 8 a.extent ++ leBytes 8 0

/-- A set record of 336 bytes (R159): a member names its drive by its place in the drive table (R150). -/
def setRecBytes (s : State) (id live : Nat) (r : SetRec) : Bytes :=
  let st := match r.state with | .free => 0 | .opened => 1 | .sealing => 2 | .sealed => 3 | .reclaiming => 4
  leBytes 4 id ++ leBytes 2 r.gen ++ leBytes 1 r.geom ++ leBytes 1 st ++ leBytes 4 r.nsid ++ leBytes 2 r.rowsUsed ++
    leBytes 2 live ++
    padTo 320 (r.members.flatMap fun m => leBytes 1 (s.lay.drives.at m.slot).index ++ leBytes 1 (b2n m.lost) ++ leBytes 2 0 ++ leBytes 4 m.chunk)

/-- The blocks of a record: header, map entries, runs, unit CRCs and its CRC, in blocks of 4,096 bytes (R158). -/
def recBlocks (nMap nRun nCrc extra : Nat) : Nat := (64 + 64 * nMap + 32 * nRun + 4 * nCrc + extra + 4 + 4095) / 4096

/-- A copy of a journal record (R158). -/
def recordBytes (s : State) (r : JRec) (copy : Nat) : Bytes :=
  let body := [0x4A, 0x52, 0x4E, 0x4C] ++ leBytes 1 r.typ ++ leBytes 1 r.blocks ++ leBytes 1 copy ++
    leBytes 1 (copiesC s) ++ leBytes 8 r.jseq ++ leBytes 8 r.gts ++ leBytes 4 r.nsid ++ leBytes 2 r.entries.length ++
    leBytes 2 r.runs.length ++ leBytes 4 r.crcs.length ++ leBytes 28 0 ++ r.entries.flatMap MapEntry.bytes ++
    r.runs.flatMap (runBytes s) ++ (match r.setRec with | some (id, live, x) => setRecBytes s id live x | none => []) ++
    r.crcs.flatMap (leBytes 4)
  let body := padTo (r.blocks * 4096 - 4) body
  body ++ leBytes 4 (crc32c body)

/-- A pad record that fills a ring to its end (R158): that of the record which follows it. -/
def padBytes (s : State) (r : JRec) (copy pad : Nat) : Bytes :=
  let body := padTo (pad * 4096 - 4) ([0x4A, 0x52, 0x4E, 0x4C] ++ leBytes 1 0 ++ leBytes 1 pad ++ leBytes 1 copy ++
    leBytes 1 (copiesC s) ++ leBytes 8 0 ++ leBytes 8 r.gts)
  body ++ leBytes 4 (crc32c body)

/-- The blocks of a journal ring (R155). -/
def ringBlocks : Nat := 262144

/-- The block at which a copy, or the pad record before it, begins. -/
def JCopy.first (c : JCopy) : Nat := if c.pad = 0 then c.pos else ringBlocks - c.pad

/-- The blocks of a drive's ring that new records may not take: from the oldest record not yet retired to the place of the next
one (R140). -/
def ringUsed (s : State) (slot : Nat) : Nat :=
  let spans := s.lay.journal.flatMap fun r => (r.copies.filter fun c => c.slot == slot).map fun c =>
    let n := (s.lay.ringPos.at slot + ringBlocks - c.first) % ringBlocks
    if n = 0 then ringBlocks else n
  spans.foldl max 0

/-- The blocks held in the fullest ring (R140). -/
def fullestRing (s : State) : Nat := ((List.range 48).map (ringUsed s)).foldl max 0

/-- The fill of the fullest ring, percent (R164). -/
def fillPct (s : State) : Nat := fullestRing s * 100 / ringBlocks

/-- CMD_BOUND_STAT: the whole-unit conditions with EPOCH, which shows that the bound of a trio with an epoch above 4 µs
applies (R57, R60, R61). -/
def boundWord (s : State) : Nat :=
  setBit s.cmd.boundStat 4 (needsVote s && decide (4 < s.fld F.RED_MODE_EPOCH_US))

/-- Entering a whole-unit condition of R61 sets its bit of CMD_BOUND_STAT and emits BOUND_SUSPENDED. -/
def boundEnter (bit : Nat) (s : State) : State :=
  if bitAt s.cmd.boundStat bit then s
  else
    let s := s.onCmd fun c => { c with boundStat := setBit c.boundStat bit true }
    emit 0x560 0x602 1 (boundWord s) s

/-- Leaving a whole-unit condition; the return of every condition emits BOUND_RESUMED (R61). -/
def boundLeave (bit : Nat) (s : State) : State :=
  if !bitAt s.cmd.boundStat bit then s
  else
    let s := s.onCmd fun c => { c with boundStat := setBit c.boundStat bit false }
    if s.cmd.boundStat = 0 then emit 0x560 0x603 1 0 s else s

/-- The thresholds of R140 that hold or release writes, from the fill of the rings. -/
def journalThresholds (s : State) : State :=
  let used := fullestRing s
  let s :=
    if !s.lay.throttle ∧ 75 * ringBlocks ≤ used * 100 then
      emit 0x571 0x70C 2 (fillPct s) (s.onLay fun l => { l with throttle := true })
    else if s.lay.throttle ∧ used * 100 < 70 * ringBlocks then s.onLay fun l => { l with throttle := false }
    else s
  if !s.lay.full ∧ 15 * ringBlocks ≤ used * 16 then
    boundEnter 5 (emit 0x571 0x70D 3 (fillPct s) (s.onLay fun l => { l with full := true }))
  else if s.lay.full ∧ used * 8 < 7 * ringBlocks then boundLeave 5 (s.onLay fun l => { l with full := false })
  else s

/-- The namespace table, geometry table, set table and map as a checkpoint holds them (R159), each padded to blocks. -/
def padBlock (bs : Bytes) : Bytes := padTo ((bs.length + 4095) / 4096 * 4096) bs

/-- A namespace record of 64 bytes (R159). -/
def nsRecBytes (nsid : Nat) (n : Namespace) : Bytes :=
  padTo 64 (leBytes 4 nsid ++ leBytes 1 (if n.kv then 2 else 1) ++ leBytes 1 n.geom ++ leBytes 1 (b2n n.cipher) ++
    leBytes 1 n.lbaShift ++ leBytes 2 n.tenant ++ leBytes 2 n.keyGen ++ leBytes 4 0 ++ leBytes 8 n.capacity ++
    padTo 16 n.nguid)

/-- The rows that a map entry refers to in a set of a geometry. -/
def entryRows (s : State) (g : Geometry) (e : MapEntry) : List Nat :=
  let w := g.k * g.u
  let n := s.cmd.namespaces.at e.nsid
  let lo := if e.kv then 0 else e.offset * 2 ^ n.lbaShift
  let hi := if e.kv then e.length else lo + e.length * 2 ^ n.lbaShift
  if e.removed ∨ e.empty ∨ w = 0 ∨ hi = 0 then []
  else (List.range ((hi - 1) / w + 1 - lo / w)).map fun i => e.firstRow + lo / w + i

/-- The live rows of a set of a geometry under a map (R133, R153). -/
def liveRowsIn (s : State) (map : List MapEntry) (g : Geometry) (id : Nat) : Nat :=
  (((map.filter fun e => e.set == id).flatMap (entryRows s g)).eraseDups).length

/-- The live rows of a set. -/
def liveRows (s : State) (id : Nat) : Nat := liveRowsIn s s.lay.map (setGeom s id) id

/-- The sections of a checkpoint with tables `t` in order: namespaces, geometries, sets, map (R159). -/
def ckptSections (s : State) (t : Tables) : List Bytes :=
  [ padBlock (s.cmd.namespaces.flatMap fun e => nsRecBytes e.1 e.2),
    padBlock ((List.range 16).flatMap fun g =>
      let x := s.lay.geoms.at g
      padTo 16 (leBytes 1 x.k ++ leBytes 1 x.m ++ leBytes 1 x.uShift)),
    padBlock ((t.sets.filter fun e => e.2.state != .free).flatMap fun e =>
      setRecBytes s e.1 (liveRowsIn s t.map (s.lay.geoms.at e.2.geom) e.1) e.2),
    padBlock (t.map.flatMap MapEntry.bytes) ]

/-- The drive at a place of the drive table, with its slot (R150, R159). -/
def driveAt (s : State) (i : Nat) : Option (Nat × Drive) := s.lay.drives.find? fun e => e.2.index == i && e.2.chunkCount != 0

/-- An entry of the drive table of a checkpoint (R159). -/
def driveRecBytes : Option (Nat × Drive) → Bytes
  | some (slot, x) =>
    leBytes 16 x.uuid ++ leBytes 1 slot ++ leBytes 1 x.state ++ leBytes 2 0 ++ leBytes 4 x.chunkCount ++ leBytes 8 0
  | none => leBytes 32 0

/-- The header block of a checkpoint (R159). -/
def ckptHeader (s : State) (gen jseq gts : Nat) (t : Tables) : Bytes :=
  let b := [0x43, 0x4B, 0x50, 0x54] ++ leBytes 4 1 ++ leBytes 8 gen ++ leBytes 8 jseq ++ leBytes 8 gts ++
    leBytes 8 t.extentNext ++ leBytes 4 s.cmd.namespaces.length ++
    leBytes 4 (t.sets.countWhere fun _ r => r.state != .free) ++
    leBytes 8 t.map.length ++ leBytes 8 0 ++
    (List.range 48).flatMap fun i => driveRecBytes (driveAt s i)
  let b := padTo 4092 b
  b ++ leBytes 4 (crc32c b)

/-- The trailer block of a checkpoint (R159). DESIGN CHOICE: a section's bytes are those of its blocks, the zeros that fill its
last block included (notes/assumptions/93.md). -/
def ckptTrailer (gen : Nat) (sections : List Bytes) : Bytes :=
  padTo 4096 ([0x45, 0x4E, 0x44, 0x43] ++ leBytes 4 0 ++ leBytes 8 gen ++ sections.flatMap fun x => leBytes 4 (crc32c x))

/-- A whole checkpoint as it is written to a region (R143, R159). -/
def ckptBytes (s : State) (gen jseq gts : Nat) (t : Tables) : Bytes :=
  ckptHeader s gen jseq gts t ++ (ckptSections s t).flatten ++ ckptTrailer gen (ckptSections s t)

/-- The first LBA of checkpoint region A or B (R155). -/
def regionLba (b : Bool) : Nat := if b then 6029568 else 262400

/-- The last JSEQ below which every record has committed, so that the map equals the state after applying them (R143). -/
def ckptJseq (s : State) : Nat :=
  match (s.lay.journal.filter fun r => !r.committed).map (·.jseq) with
  | [] => s.lay.jseqNext - 1
  | j :: js => js.foldl min j - 1

/-- The parts of a range [a, a + n) that a range [b, b + m) leaves, as (start, length). -/
def rangeMinus (a n b m : Nat) : List (Nat × Nat) :=
  (if a < b then [(a, min n (b - a))] else []) ++
  (if b + m < a + n then [(max a (b + m), a + n - max a (b + m))] else [])

/-- A block entry cut to a part of its range: OFFSET moves with START_LBA (R159). -/
def MapEntry.cut (e : MapEntry) (start len : Nat) : MapEntry :=
  { e with start := start, length := len, offset := e.offset + (start - e.start) }

/-- What an entry keeps against a competing entry with a higher JSEQ (R139). -/
def MapEntry.minus (e w : MapEntry) : List MapEntry :=
  if e.nsid ≠ w.nsid ∨ e.kv ≠ w.kv then [e]
  else if e.kv then (if e.key = w.key then [] else [e])
  else (rangeMinus e.start e.length w.start w.length).map fun p => e.cut p.1 p.2

/-- Apply one map entry: among competing entries the one with the higher JSEQ stands (R139). -/
def mapApply (map : List MapEntry) (e : MapEntry) : List MapEntry :=
  let winners := map.filter fun x => decide (e.jseq < x.jseq)
  let kept := winners.foldl (fun ps w => ps.flatMap (·.minus w)) [e]
  (map.flatMap fun x => if e.jseq < x.jseq then [x] else x.minus e) ++ kept

/-- A set as its record of type 4 gives it (R158, R159). -/
def SetRec.recorded (x : SetRec) : SetRec :=
  { (default : SetRec) with
    state := x.state, gen := x.gen, geom := x.geom, nsid := x.nsid, rowsUsed := x.rowsUsed, members := x.members }

/-- The tables after one more record (R143, R158). -/
def Tables.apply (t : Tables) (r : JRec) : Tables :=
  let t := { t with map := r.entries.foldl mapApply t.map }
  if r.typ = 3 then
    { t with sets := r.runs.foldl (fun m a => m.upd a.set fun x => { x with state := .sealed, rowsUsed := a.rows }) t.sets }
  else if r.typ = 4 then
    match r.setRec with
    | some (id, _, x) => { t with sets := t.sets.put id (if x.state = .free then { (default : SetRec) with gen := x.gen } else x.recorded) }
    | none => t
  else
    { t with
      sets := r.runs.foldl (fun m a => m.upd a.set fun x => { x with rowsUsed := max x.rowsUsed (a.firstRow + a.rows) }) t.sets
      extentNext := r.runs.foldl (fun n a => max n (a.extent + 1)) t.extentNext }

/-- The tables after every record up to a JSEQ and none after it (R143): those of the durable checkpoint with the journal's
records since, in JSEQ order (R139). -/
def tablesAt (s : State) (jseq : Nat) : Tables :=
  let t := (s.lay.journal.filter fun r => decide (s.lay.ckpt.durableJseq < r.jseq) && decide (r.jseq ≤ jseq)).foldl
    Tables.apply s.lay.ckpt.base
  { t with map := t.map.filter fun e => !e.removed }

/-- Start a checkpoint as C copies on C drives in service (R143), unless one is busy, too few drives serve, or the shelf's state
is not known. -/
def startCheckpoint (s : State) : State :=
  let slots := (slotsInService s).take (copiesC s)
  if s.lay.ckpt.busy ∨ slots.length < copiesC s ∨ !s.lay.replayEnded then s
  else
    let c := s.lay.ckpt
    let gen := c.gen + 1
    let t := tablesAt s (ckptJseq s)
    let b := ckptBytes s gen (ckptJseq s) s.now t
    let s := s.onLay fun l => { l with ckpt := { c with
      busy := true, gen := gen, jseq := ckptJseq s, startGts := s.now, pendingSlots := slots, doneSlots := []
      image := b, next := t
      forDrives := s.lay.drives.keysWhere fun _ d => d.joining } }
    slots.foldl (fun s d => drvSubmit d false (.driveWrite d (regionLba c.regionB) b false) s) s

/-- At LAY_CKPT_CFG.JRNL_PCT percent a checkpoint starts (R140, R143); then the holding thresholds. -/
def afterJournal (s : State) : State :=
  let s := if s.fld F.LAY_CKPT_CFG_JRNL_PCT ≤ fillPct s then startCheckpoint s else s
  journalThresholds s

/-- The drives that take the C copies of a record: the drives in service in rotation from JSEQ, which spreads the copies
evenly (R137; the order of the rotation is the model's, notes/assumptions/9.md). -/
def copySlots (s : State) (jseq : Nat) : List Nat :=
  let ds := slotsInService s
  let n := ds.length
  if n = 0 then [] else ((List.range (min n (copiesC s))).map fun i => ds.getD ((jseq + i) % n) 0)

/-- Does a record belong to a class 0 command, so that it takes the urgent queues (R202)? -/
def JRec.urgent (r : JRec) (s : State) : Bool :=
  match r.owner with
  | some i => (s.cmd.table.at i).cap.cls == 0
  | none => false

/-- Write one copy of a record to a drive's ring, after a pad record where it would run past the end (R158). -/
def writeCopy (r : JRec) (copy slot : Nat) (s : State) : State × JCopy :=
  let pos := s.lay.ringPos.at slot
  let pad := if ringBlocks < pos + r.blocks then ringBlocks - pos else 0
  let at_ := if pad = 0 then pos else 0
  let u := r.urgent s
  let s := if pad = 0 then s else drvWrite slot u (256 + pos) (padBytes s r copy pad) s
  let s := drvSubmit slot u (.driveWrite slot (256 + at_) (recordBytes s r copy) u) s
  (s.onLay fun l => { l with ringPos := l.ringPos.put slot ((at_ + r.blocks) % ringBlocks) }, ⟨slot, false, at_, pad⟩)

/-- Write copies of a record to the given drives. -/
def writeCopies (r : JRec) : Nat → List Nat → State → State × List JCopy
  | _, [], s => (s, [])
  | i, d :: ds, s =>
    let (s, c) := writeCopy r i d s
    let (s, cs) := writeCopies r (i + 1) ds s
    (s, c :: cs)

/-- May a record of so many blocks be written now: C drives are in service (R137), and the rings of those that would take it have
room beside records not yet retired (R140)? -/
def journalTakes (s : State) (blocks : Nat) : Bool :=
  decide (copiesC s ≤ (slotsInService s).length) &&
    (copySlots s s.lay.jseqNext).all fun d =>
      let pos := s.lay.ringPos.at d
      let pad := if ringBlocks < pos + blocks then ringBlocks - pos else 0
      decide (ringUsed s d + pad + blocks ≤ ringBlocks)

/-- Submit a journal record: it takes the next JSEQ and its C copies go to C drives (R137, R138). While fewer than C
drives are in service no record is written and it waits (R137). -/
def submitRecord (r : JRec) (s : State) : State :=
  if !journalTakes s r.blocks then s.onLay fun l => { l with deferred := l.deferred ++ [r] }
  else
    let j := s.lay.jseqNext
    let r := { r with jseq := j, gts := s.now, entries := r.entries.map fun e => { e with jseq := j } }
    let s := s.onLay fun l => { l with jseqNext := j + 1 }
    let (s, cs) := writeCopies r 0 (copySlots s j) s
    afterJournal (s.onLay fun l => { l with journal := l.journal ++ [{ r with copies := cs }] })

/-- A record of type 3 or 4: a seal with the rows used, or a set's membership (R133, R158). -/
def setRecord (typ id : Nat) (s : State) : JRec :=
  let r := s.lay.sets.at id
  { (default : JRec) with
    typ := typ, blocks := 1, nsid := r.nsid, sets := [id]
    runs := if typ = 3 then [⟨id, 0, r.rowsUsed, 0, 0⟩] else []
    setRec := if typ = 4 then some (id, liveRows s id, r.recorded) else none }

/-- The sets in a state. -/
def setsIn (s : State) (st : SetState) : List Nat := s.lay.sets.keysWhere fun _ r => r.state == st

/-- Once every row allocated before a seal has committed or been released, the header areas are written on every present
member and the seal record is submitted (R133, R157). -/
def sealIfResolved (id : Nat) (s : State) : State :=
  let r := s.lay.sets.at id
  let g := setGeom s id
  if r.state = .sealing ∧ r.uncommitted = 0 ∧ !r.sealSent then
    let cipher := (s.cmd.namespaces.at r.nsid).cipher
    let hdr := fun unit => (List.range g.rows).flatMap fun row =>
      stripeHeader g.k g.m id r.geom r.nsid row unit cipher (r.rows.at row)
    let s := ((List.range r.members.length).zip r.members).foldl
      (fun s x => if x.2.lost then s else drvWrite x.2.slot false (headerLba x.2.chunk) (hdr x.1) s) s
    submitRecord (setRecord 3 id s) (onSet id (fun r => { r with sealSent := true }) s)
  else s

/-- An OPEN set starts sealing for a reason of R133. -/
def startSeal (id reason : Nat) (s : State) : State :=
  if (s.lay.sets.at id).state = .opened then
    sealIfResolved id (onSet id (fun r => { r with state := .sealing, reason := reason }) s)
  else s

/-- Rows of a set are resolved: committed or released (R133). -/
def resolveRows (id rows : Nat) (s : State) : State :=
  sealIfResolved id (onSet id (fun r => { r with uncommitted := r.uncommitted - rows }) s)

/-- Release the rows a command was allocated and never committed: they stay unused (R134). -/
def releaseAllocs (as : List Alloc) (s : State) : State := as.foldl (fun s a => resolveRows a.set a.rows s) s

/-- The OPEN set least recently written (R133 reason 2). -/
def oldestOpen (s : State) : Option Nat :=
  (setsIn s .opened).foldl (fun best id =>
    match best with
    | none => some id
    | some b => if (s.lay.sets.at id).lastWrite < (s.lay.sets.at b).lastWrite then some id else some b) none

/-- Why a write-type command cannot be placed (R136): `chunks`, `sets` or `map` is Capacity Exceeded with that code in
SPACE_EXHAUSTED; `notReady` is Namespace Not Ready. -/
inductive NoSpace where
  | chunks | sets | map | notReady
deriving DecidableEq, Repr

/-- Can a new set of a geometry be taken (R132, R136)? -/
def newSetTest (s : State) (g : Geometry) : Option NoSpace :=
  let n := g.k + g.m
  if (slotsInService s).length < n ∨ (slotsInService s).length < copiesC s then some .notReady
  else if (ranking s).length < n ∨ freeChunks s < n + spareReserve s then some .chunks
  else if 16777216 ≤ s.lay.sets.countWhere (fun _ r => r.state != .free) then some .sets
  else none

/-- The lowest SET_ID of a FREE set (which one is the model's choice: notes/assumptions/14.md). -/
def freeSetId (s : State) : Nat :=
  match s.lay.sets.keysWhere fun _ r => r.state == .free with
  | [] => s.lay.sets.gap 0
  | i :: _ => min i (s.lay.sets.gap 0)

/-- Open a new set for a namespace (R132, R133): its members are chosen, and a record of type 4 names them. -/
def openSet (nsid : Nat) (s : State) : State × Nat :=
  let s := if 1024 ≤ (setsIn s .opened).length then
      (match oldestOpen s with | some id => startSeal id 2 s | none => s) else s
  let n := s.cmd.namespaces.at nsid
  let g := nsGeom s nsid
  let id := freeSetId s
  let ms := ((ranking s).take (g.k + g.m)).map (memberOn s)
  let s := ms.foldl takeChunk s
  let s := onSet id (fun r => { r with
    state := .opened, gen := r.gen + 1, geom := n.geom, nsid := nsid, rowsUsed := 0, members := ms, reason := 0
    uncommitted := 0, lastWrite := s.now
    sealSent := false, sealDurable := false, rows := [] }) s
  (submitRecord (setRecord 4 id s) s, id)

/-- Rows of an extent of `bytes` bytes (R134). -/
def rowsFor (g : Geometry) (bytes : Nat) : Nat := (bytes + g.k * g.u - 1) / (g.k * g.u)

/-- Take `rows` rows of a set for one extent; a set whose last row is allocated starts sealing (R133, R134). -/
def takeRows (id rows bytes : Nat) (s : State) : State × Alloc :=
  let r := s.lay.sets.at id
  let a : Alloc := ⟨id, r.rowsUsed, rows, s.lay.extentNext, bytes⟩
  let s := s.onLay fun l => { l with extentNext := l.extentNext + 1 }
  let s := onSet id (fun r => { r with
    rowsUsed := r.rowsUsed + rows, uncommitted := r.uncommitted + rows, lastWrite := s.now }) s
  let s := if (s.lay.sets.at id).rowsUsed = (setGeom s id).rows then startSeal id 0 s else s
  (s, a)

/-- The OPEN set of a namespace with rows left. -/
def openSetOf (s : State) (nsid : Nat) : Option Nat :=
  (setsIn s .opened).find? fun id =>
    (s.lay.sets.at id).nsid == nsid && decide ((s.lay.sets.at id).rowsUsed < (setGeom s id).rows)

/-- Allocate rows for `bytes` bytes of a namespace: one extent, or a second one in a new set where the open set's rows do
not hold it (R134). `fuel` bounds the sets used. -/
def allocate : Nat → Nat → Nat → State → Except NoSpace (State × List Alloc)
  | 0, _, _, _ => .error .sets
  | fuel + 1, nsid, bytes, s =>
    let g := nsGeom s nsid
    if bytes = 0 then .ok (s, [])
    else
      match openSetOf s nsid with
      | some id =>
        let room := g.rows - (s.lay.sets.at id).rowsUsed
        let rows := min room (rowsFor g bytes)
        let here := min bytes (rows * (g.k * g.u))
        let (s, a) := takeRows id rows here s
        match allocate fuel nsid (bytes - here) s with
        | .error e => .error e
        | .ok (s, as) => .ok (s, a :: as)
      | none =>
        match newSetTest s g with
        | some e => .error e
        | none => allocate fuel nsid bytes (openSet nsid s).1

/-- Forget removals that no record still to commit can compete with. A unit that follows knows no such record, and keeps them
(R139). -/
def mapPrune (s : State) : State :=
  let low := (s.lay.journal.filter fun r => !r.committed).foldl (fun m r => min m r.jseq) s.lay.jseqNext
  if isActive s then s.onLay fun l => { l with map := l.map.filter fun e => !e.removed || decide (low < e.jseq) } else s

/-- The map entry of a key. -/
def findKey (s : State) (nsid : Nat) (key : Bytes) : Option MapEntry :=
  s.lay.map.find? fun e => e.nsid == nsid && e.kv && e.key == key && !e.removed

/-- The block entries that overlap a range. -/
def findBlocks (s : State) (nsid slba n : Nat) : List MapEntry :=
  s.lay.map.filter fun e => e.nsid == nsid && !e.kv && !e.removed && decide (e.start < slba + n) &&
    decide (slba < e.start + e.length)

/-- The data units (set, row, unit) that hold bytes lo to hi − 1 of an extent (R134). -/
def unitsOfRange (s : State) (set firstRow lo hi : Nat) : List (Nat × Nat × Nat) :=
  let g := setGeom s set
  if hi ≤ lo ∨ g.u = 0 ∨ g.k = 0 then []
  else (List.range ((hi - 1) / g.u + 1 - lo / g.u)).map fun i =>
    let n := lo / g.u + i
    (set, firstRow + n / g.k, n % g.k)

/-- The row facts of an extent, one per row, from its unit CRCs in unit order, absent units 0 (R157). -/
def rowInfos (g : Geometry) (a : Alloc) (crcs : Nat → List Nat) (jseq gts : Nat) : List (Nat × RowInfo) :=
  (List.range a.rows).map fun i =>
    (a.firstRow + i,
      { (default : RowInfo) with
        dataUnits := rowUnits g a.bytes i, extent := a.extent, rowInExtent := i
        rowBytes := min (g.k * g.u) (a.bytes - i * (g.k * g.u)), unitCrcs := crcs i, jseq := jseq, commitGts := gts })

/-- Record the rows of an extent in its set. -/
def setRows (id : Nat) (rows : List (Nat × RowInfo)) (s : State) : State :=
  onSet id (fun r => { r with rows := rows.foldl (fun t x => t.put x.1 x.2) r.rows }) s

/-- A record retires when the durable checkpoint covers it, every set it names is SEALED or gone (R140), and no copy of it is
still on its way. -/
def retire (s : State) : State :=
  journalThresholds (s.onLay fun l => { l with journal := l.journal.filter fun r =>
    !(r.committed && r.copies.all (·.done) && decide (r.jseq ≤ l.ckpt.durableJseq) && r.sets.all fun id =>
      (l.sets.at id).state == .sealed || (l.sets.at id).state == .free || (l.sets.at id).state == .reclaiming) })

/-- The lost members of a set. -/
def lostCount (r : SetRec) : Nat := (r.members.filter (·.lost)).length

/-- The rows to rebuild of the sets that meet a test: of a set the used rows, once for each lost member, of sets that can still
be rebuilt (R147, R162). -/
def rowsToRebuild (s : State) (p : SetRec → Bool) : Nat :=
  ((s.lay.sets.filter fun e => e.2.state != .free && p e.2 && decide (lostCount e.2 ≤ (s.lay.geoms.at e.2.geom).m)).map fun e =>
    lostCount e.2 * e.2.rowsUsed).sum

/-- What a table by namespace counts: of one, or of all with 0xFFFFFFFF (R162). -/
def countOf (t : Tab Nat) (nsid : Nat) : Nat := if nsid = 0xFFFFFFFF then (t.map (·.2)).sum else t.at nsid

/-- The slot under which a drive of the table is told: its own, or, of an absent drive whose slot another has taken, its place in
the table (notes/assumptions/95.md). -/
def slotTold (s : State) (k : Nat) : Nat := if k < 48 then k else (s.lay.drives.at k).index

/-- The STATE of log page 0xC0: 0 optimal, 1 degraded, 2 rebuilding, 3 data lost (R162). -/
def shelfState (s : State) : Nat :=
  if s.lay.sets.any fun e => decide ((s.lay.geoms.at e.2.geom).m < lostCount e.2) then 3
  else if s.lay.rebuild.target.isSome then 2
  else if s.lay.sets.any fun e => decide (0 < lostCount e.2) then 1 else 0

end Sys2Proof.Machine
end

