-- ==== Sys2Proof/Machine/OpsNet.lean ====
section
/-! DEFINITION. The shared buffer and traffic management: cells and their free lists (R249 to R255, R257), receive counts and
flow control (R259), shapers and policers (R267, R268), gates (R270), and the choice of a port's next frame (R265). -/

namespace Sys2Proof.Machine

/-! Token buckets. -/

/-- What a bucket lacks now, at `rate` units in each nanosecond. -/
def Bucket.lacks (b : Bucket) (now rate : Nat) : Nat := b.used - (now - b.stamp) * rate

/-- A bucket filled up to now. -/
def Bucket.fill (b : Bucket) (now rate : Nat) : Bucket := ⟨b.lacks now rate, now⟩

/-! Cells. -/

/-- Is a cell on its bank's free list (R254)? -/
def Cell.onList (c : Cell) : Bool := (c.owner == 0) != c.misfiled

/-- The first cell from `k` on below `hi` that is on its free list and was not freed in this cycle (R251). -/
def freeFrom (now : Nat) : Tab Cell → Nat → Nat → Option Nat
  | [], k, hi => if k < hi then some k else none
  | (j, c) :: t, k, hi =>
    if j < k then freeFrom now t k hi
    else if hi ≤ k then none
    else if k < j then some k
    else if c.onList && c.freed != now + 1 then some k
    else freeFrom now t (k + 1) hi

/-- A bank's next free cell, as its number in the buffer: bank × 16,384 + index (R249); none in a fenced bank. -/
def freeIn (s : State) (bank : Nat) : Option Nat :=
  if fencedUnit s 3 bank then none else freeFrom s.now s.net.cells (bank * 16384) (bank * 16384 + 16384)

/-- The number of a handle's cell (R252). -/
def cellOf (handle : Nat) : Nat := handle / 16

/-- The bank of a handle (R252). -/
def bankOf (handle : Nat) : Nat := handle / 2 ^ 18 % 64

/-- The free cells (R276). -/
def freeCells (s : State) : Nat := s.fld F.SWC_FREE_CELLS_COUNT

/-- The state with another free count; the lowest since the last read follows (R276). A read has cleared SWC_FREE_MIN (R9):
the first change after it takes the lower of the count before and after. -/
def setFree (n : Nat) (s : State) : State :=
  let low := if s.net.freeMinRead then freeCells s else s.fld F.SWC_FREE_MIN_COUNT
  let s := s.setFld F.SWC_FREE_CELLS_COUNT n
  (s.setFld F.SWC_FREE_MIN_COUNT (min n low)).onNet fun m => { m with freeMinRead := false }

/-- Allocate a cell of the next bank in rotation that has one (R250, R252). -/
def allocCell (port owner refs : Nat) (s : State) : Option (Nat × State) :=
  let start := s.net.nextBank.at port
  match ((List.range 64).map fun i => (start + i) % 64).findSome? (freeIn s) with
  | none => none
  | some a =>
    let g := ((s.net.cells.at a).gen + 1) % 16
    let s := s.onNet fun n => { n with
      nextBank := n.nextBank.put port ((a / 16384 + 1) % 64)
      cells := n.cells.upd a fun c => { c with
        owner := owner, gen := g, refs := refs, age := s.now / 2 ^ 21 % 2 ^ 17, misfiled := false, reported := false } }
    some (a * 16 + g, setFree (freeCells s - 1) s)

/-- Allocate `n` cells as one chain, or none of them. -/
def allocChain (port owner refs : Nat) : Nat → State → Option (List Nat × State)
  | 0, s => some ([], s)
  | n + 1, s =>
    match allocCell port owner refs s with
    | none => none
    | some (h, s) => (allocChain port owner refs n s).map fun r => (h :: r.1, r.2)

/-- The cells of a frame of `len` bytes. -/
def cellsFor (len : Nat) : Nat := (len + 255) / 256

/-- A handle whose generation differs from its cell's (R252). -/
def stale (s : State) (h : Nat) : Bool := (s.net.cells.at (cellOf h)).gen != h % 16

/-- HANDLE_STALE: an access by an owner of a class with an old handle (R252). -/
def handleStale (owner h : Nat) (s : State) : State :=
  emit 0x531 0x305 3 (owner % 16 * 2 ^ 24 + h) (s.bump F.SWC_BH_STAT_STALE)

/-- Release a handle (R254): one holder less, or the cell returns to its bank's free list; a cell of a fenced bank is lost. -/
def releaseCell (h : Nat) (s : State) : State :=
  if stale s h ∨ (s.net.cells.at (cellOf h)).owner = 0 then s
  else
    let c := s.net.cells.at (cellOf h)
    if 1 < c.refs then s.onNet fun n => { n with cells := n.cells.put (cellOf h) { c with refs := c.refs - 1 } }
    else
      let s := s.onNet fun n => { n with
        cells := n.cells.put (cellOf h) { c with owner := 0, refs := 0, age := 0, misfiled := false, freed := s.now + 1 } }
      if fencedUnit s 3 (bankOf h) then s else setFree (freeCells s + 1) s

/-- Give a handle to an owner of another class (R254), with its count of holders. -/
def giveCell (owner refs h : Nat) (s : State) : State :=
  s.onNet fun n => { n with cells := n.cells.upd (cellOf h) fun c => { c with owner := owner, refs := refs } }

/-! Flow control (R257, R259). -/

/-- The priorities of a port with PFC (R227). -/
def pfcEnabled (s : State) (lport prio : Nat) : Bool := bitAt (s.fldI F.PRT_LPORT_CFG_PFC_EN lport) prio

/-- The priorities that the unit should hold off on a port. -/
def xoffWanted (s : State) (lport : Nat) : Nat :=
  ((List.range 8).map fun p =>
    if pfcEnabled s lport p && (s.net.rxHeld.at (8 * lport + p) || s.net.squeezed) then 2 ^ p else 0).sum

/-- Ask PRT for the PFC frames that bring a port's held-off priorities up to what is wanted (R228, R259). A port that does
not exist, or a unit in PS4, sends none (R234). -/
def syncPfc (lport : Nat) (s : State) : State :=
  let old := s.fldI F.SWC_PFC_STAT_XOFF lport
  let new := xoffWanted s lport
  if old = new ∨ !portExists s lport then s
  else
    (List.range 8).foldl (fun s p =>
      if bitAt old p == bitAt new p || s.cmd.ps == 4 then s else s.send (.pfc lport p (bitAt new p) (pfcFrame s lport p (bitAt new p))))
      (s.setFldI F.SWC_PFC_STAT_XOFF lport new)

/-- Bring every port's held-off priorities up to what is wanted. -/
def syncAllPfc (s : State) : State := (List.range 64).foldl (fun s l => syncPfc l s) s

/-- The floor of R257. -/
def c0Floor (s : State) : Nat := s.fld F.SWC_C0_FLOOR_COUNT

/-- An allocation for work that is not class 0 has failed at the floor (R257). -/
def squeeze (s : State) : State :=
  if s.net.squeezed then s else syncAllPfc (s.onNet fun n => { n with squeezed := true })

/-- The free count has risen above the floor by 4,096 cells (R257). -/
def unsqueeze (s : State) : State :=
  if s.net.squeezed ∧ c0Floor s + 4096 < freeCells s then syncAllPfc (s.onNet fun n => { n with squeezed := false }) else s

/-- A port's count of cells received with a priority has changed to `n`: it holds the priority off at XOFF_CELLS and releases
it at XON_CELLS (R259). -/
def setRxCells (lport prio n : Nat) (s : State) : State :=
  let k := 8 * lport + prio
  let old := s.net.rxCells.at k
  let held := s.net.rxHeld.at k
  let held := if old < n ∧ s.fldI F.SWC_PFC_CFG_XOFF_CELLS lport ≤ n then true
    else if n < old ∧ n ≤ s.fldI F.SWC_PFC_CFG_XON_CELLS lport then false else held
  syncPfc lport (s.onNet fun x => { x with rxCells := x.rxCells.put k n, rxHeld := x.rxHeld.put k held })

/-- May a frame of `n` cells still be accepted with its priority (R259)? -/
def headroom (s : State) (lport prio n : Nat) : Bool :=
  !s.net.rxHeld.at (8 * lport + prio) ||
    decide (s.net.rxCells.at (8 * lport + prio) + n ≤
      s.fldI F.SWC_PFC_CFG_XOFF_CELLS lport + 16 * s.fldI F.SWC_PFC_CFG_HDRM lport)

/-- Class 0 frames that waited for cells are stored and handed to XPT in the first cycle that finds enough (R251, R257, R260). -/
def serveC0 : Nat → State → State
  | 0, s => s
  | fuel + 1, s =>
    match s.net.waitC0 with
    | [] => s
    | (lport, f) :: rest =>
      match allocChain lport 1 1 (cellsFor (f.length + 4)) s with
      | none => s
      | some (hs, s) =>
        let s := s.onNet fun n => { n with waitC0 := rest }
        let s := hs.foldl (fun s h => giveCell 3 1 h s) s
        serveC0 fuel (hs.foldl (fun s h => releaseCell h s) (s.send (.toXpt lport f)))

/-- The cells of a frame no longer count for its priority: it has been transmitted, dropped or handed to an internal consumer
(R259). -/
def uncount (d : Desc) (s : State) : State :=
  if d.counted then setRxCells d.lport d.prio (s.net.rxCells.at (8 * d.lport + d.prio) - d.cells.length) s else s

/-- A stored frame, or one copy of it, is done with: its cells are released, and once the last copy has gone its cells no
longer count for its priority (R254, R259). -/
def releaseDesc (d : Desc) (s : State) : State :=
  let last := d.cells.all fun h => decide ((s.net.cells.at (cellOf h)).refs ≤ 1)
  let s := d.cells.foldl (fun s h => releaseCell h s) s
  unsqueeze (if last then uncount d s else s)

/-- Cells that the unit itself holds are released (R254). -/
def releaseCells (hs : List Nat) (s : State) : State :=
  if hs = [] then s else unsqueeze (hs.foldl (fun s h => releaseCell h s) s)

/-- A chain of cells of an owner class for what the unit has received, where the buffer has them. -/
def holdCells (port owner n : Nat) (s : State) : List Nat × State := (allocChain port owner 1 n s).getD ([], s)

/-! Queues and nodes (R264). -/

/-- A field of an entry's word. -/
def QEntry.valid (e : QEntry) : Bool := bitAt e.d0 31
def QEntry.ecnEn (e : QEntry) : Bool := bitAt e.d0 30
def QEntry.lport (e : QEntry) : Nat := bitsOf e.d0 29 24
def QEntry.node (e : QEntry) : Nat := bitsOf e.d0 23 20
def QEntry.tc (e : QEntry) : Nat := bitsOf e.d0 19 17
def QEntry.prio (e : QEntry) : Nat := bitsOf e.d0 16 14
def QEntry.weight (e : QEntry) : Nat := bitsOf e.d0 7 0
def QEntry.alpha (e : QEntry) : Nat := bitsOf e.d1 31 28
def QEntry.yellow (e : QEntry) : Nat := bitsOf e.d1 27 24
def QEntry.maxCells (e : QEntry) : Nat := bitsOf e.d1 19 0
def QEntry.ecnMax (e : QEntry) : Nat := bitsOf e.d2 31 16
def QEntry.ecnMin (e : QEntry) : Nat := bitsOf e.d2 15 0
def QEntry.pmax (e : QEntry) : Nat := bitsOf e.d3 31 24
def QEntry.rate (e : QEntry) : Nat := bitsOf e.d3 23 0
/-- The shaper's depth in bytes: 0 is treated as 16 KiB (R277). -/
def QEntry.burst (e : QEntry) : Nat := (if bitsOf e.d4 15 0 = 0 then 16 else bitsOf e.d4 15 0) * 1024

/-- A queue's entry. -/
def queueEntry (s : State) (q : Nat) : QEntry := s.net.queueCfg.at q

/-- The port of a queue (R264). -/
def queuePort (s : State) (q : Nat) : Nat := if q < 512 then q / 8 else (queueEntry s q).lport

/-- The traffic class of a queue (R264). -/
def queueTc (s : State) (q : Nat) : Nat := if q < 512 then q % 8 else (queueEntry s q).tc

/-- Is it a class 0 queue (R264)? -/
def isC0Queue (q : Nat) : Bool := decide (q < 512) && q % 8 == 7

/-- The node a queue is attached to (R265). -/
def queueNode (s : State) (q : Nat) : Nat := 16 * queuePort s q + (queueEntry s q).node

/-- The frames of a queue. -/
def framesIn (s : State) (q : Nat) : List Desc := s.net.queues.at q

/-- A queue's depth in cells. -/
def queueDepth (s : State) (q : Nat) : Nat := ((framesIn s q).map (·.cells.length)).sum

/-- The limit of R258 on a queue, for a yellow frame or not. -/
def queueLimit (s : State) (q : Nat) (yellow : Bool) : Nat :=
  let e := queueEntry s q
  let l := min e.maxCells ((freeCells s - c0Floor s) * 2 ^ e.alpha / 256)
  if yellow then l * e.yellow / 16 else l

/-- Is a frame of `n` cells admitted to a queue (R258)? A queue whose entry is not in use admits none, nor do the background
media queue, which holds no frames (R273), and the reserved ones. -/
def admits (s : State) (q n : Nat) (yellow : Bool) : Bool :=
  decide (q < 65280) && (queueEntry s q).valid && decide (queueDepth s q + n ≤ queueLimit s q yellow)

/-! Gates (R270). -/

/-- A port's gate list. -/
def gatesOf (s : State) (lport : Nat) : Gates := s.net.gates.at lport

/-- The state with a port's gate list changed. -/
def onGates (lport : Nat) (f : Gates → Gates) (s : State) : State := s.onNet fun n => { n with gates := n.gates.upd lport f }

/-- Is a list active on the port (R271)? -/
def listActive (s : State) (lport : Nat) : Bool := s.fldI F.TMG_GATE_STAT_ENABLED lport == 1

/-- The port's active bank. -/
def activeBank (s : State) (lport : Nat) : Nat := s.fldI F.TMG_GATE_STAT_BANK lport

/-- A gate entry: its gates and its duration, 0 treated as 1 (R277). -/
def gateEntry (s : State) (lport bank i : Nat) : Nat × Nat :=
  let w := s.net.gateCfg.at (2048 * lport + 1024 * bank + i)
  (bitsOf w 31 24, max 1 (bitsOf w 23 0))

/-- Entries 0 to LAST of a bank. -/
def gateList (s : State) (lport bank last : Nat) : List (Nat × Nat) :=
  (List.range (last + 1)).map (gateEntry s lport bank)

/-- The active list. -/
def activeList (s : State) (lport : Nat) : List (Nat × Nat) :=
  gateList s lport (activeBank s lport) (gatesOf s lport).last

/-- A list turned so that it begins at an entry. -/
def turned {α : Type} (l : List α) (i : Nat) : List α := l.drop i ++ l.take i

/-- The ns for which a gate stays open from the start of a list. -/
def openRun (tc : Nat) : List (Nat × Nat) → Nat
  | [] => 0
  | (g, d) :: l => if bitAt g tc then d + openRun tc l else 0

/-- Is a gate open in every entry? -/
def alwaysOpen (tc : Nat) (l : List (Nat × Nat)) : Bool := l.all fun e => bitAt e.1 tc

/-- Does a frame of `len` bytes with its 20 bytes on the wire fit into `ns` at the port's rate (R270)? -/
def fits (s : State) (lport len ns : Nat) : Bool := decide ((len + 20) * 8000 ≤ ns * portMbps s lport)

/-- The ns left of the present entry. -/
def entryLeft (s : State) (lport : Nat) : Nat :=
  let g := gatesOf s lport
  g.entryStart + (gateEntry s lport (activeBank s lport) g.entry).2 - s.now

/-- The list from the present entry on, the present entry with what is left of it. -/
def listFromNow (s : State) (lport : Nat) : List (Nat × Nat) :=
  match turned (activeList s lport) (gatesOf s lport).entry with
  | [] => []
  | (g, _) :: l => (g, entryLeft s lport) :: l

/-- May a frame of a class start now, by its gate (R270)? -/
def gateAllows (s : State) (lport tc len : Nat) : Bool :=
  !listActive s lport || alwaysOpen tc (activeList s lport) || fits s lport len (openRun tc (listFromNow s lport))

/-- Can a frame of a class never start, being longer than the longest open run (R270)? -/
def neverFits (s : State) (lport tc len : Nat) : Bool :=
  let l := activeList s lport
  listActive s lport && !alwaysOpen tc l &&
    (List.range l.length).all fun i => !fits s lport len (openRun tc (turned l i))

/-- After how many ns a frame of a class may start (R263), looking `n` entries ahead from a list, `t` ns from now. -/
def startAfter (s : State) (lport tc len : Nat) : Nat → Nat → List (Nat × Nat) → Option Nat
  | 0, _, _ => none
  | _ + 1, _, [] => none
  | n + 1, t, (g, d) :: l =>
    if fits s lport len (openRun tc ((g, d) :: l)) then some t else startAfter s lport tc len n (t + d) l

/-- The wait until a copy's gate next lets it start; none if it never does. -/
def gateWait (s : State) (lport tc len : Nat) : Option Nat :=
  if gateAllows s lport tc len then some 0
  else startAfter s lport tc len ((gatesOf s lport).last + 2) 0 (listFromNow s lport ++ activeList s lport ++ activeList s lport)

/-! Selection (R265). -/

/-- What an entry's shaper lacks now, in 1/8,000 byte; none where it is unshaped (R267). -/
def shaperLacks (e : QEntry) (b : Bucket) (now : Nat) : Nat := if e.rate = 0 then 0 else b.lacks now e.rate

/-- Are a shaper's tokens negative (R265)? -/
def overdrawn (e : QEntry) (b : Bucket) (now : Nat) : Bool := decide (e.burst * 8000 < shaperLacks e b now)

/-- A shaper charged with a frame of `len` bytes and the 20 bytes of preamble, SFD and gap (R267). -/
def charge (e : QEntry) (len now : Nat) (b : Bucket) : Bucket :=
  if e.rate = 0 then b else ⟨b.lacks now e.rate + (len + 20) * 8000, now⟩

/-- The length of a queue's head frame. -/
def headLen (s : State) (q : Nat) : Nat := ((framesIn s q).headD default).len

/-- Is a queue eligible (R265)? -/
def queueEligible (s : State) (q : Nat) : Bool :=
  framesIn s q != [] &&
    (isC0Queue q || !overdrawn (queueEntry s q) (s.net.shaper.at q) s.now) &&
    !bitAt (s.fldI F.PRT_LPORT_STAT_PAUSED (queuePort s q)) (queueTc s q) &&
    gateAllows s (queuePort s q) (queueTc s q) (headLen s q)

/-- The queues of a port that hold frames, the class 0 queue left out. -/
def portQueues (s : State) (lport : Nat) : List Nat :=
  s.net.queues.keysWhere fun q ds => ds != [] && queuePort s q == lport && !isC0Queue q

/-- The eligible queues of a node. -/
def nodeQueues (s : State) (node : Nat) : List Nat :=
  (portQueues s (node / 16)).filter fun q => queueNode s q == node && queueEligible s q

/-- Items in round robin from the last served. -/
def robin (last : Nat) (l : List Nat) : List Nat := l.filter (fun i => decide (last ≤ i)) ++ l.filter fun i => decide (i < last)

/-- The loop of R265 over items (number, weight, head length): the item served, with the deficits. -/
def dwrr : Nat → List (Nat × Nat × Nat) → Tab Nat → Option Nat × Tab Nat
  | 0, _, d => (none, d)
  | _ + 1, [], d => (none, d)
  | n + 1, (i, w, len) :: rest, d =>
    if len ≤ d.at i then (some i, d) else dwrr n (rest ++ [(i, w, len)]) (d.put i (d.at i + (w + 1) * 512))

/-- `pick` of R265: the items of the highest priority, deficit round robin among them. `key` names the parent. -/
def pick (s : State) (key : Nat) (entry : Nat → QEntry) (len : Nat → Nat) (items : List Nat) (d : Tab Nat) :
    Option (Nat × Nat) × Tab Nat :=
  let p := (items.map fun i => (entry i).prio).foldl max 0
  let top := robin (s.net.served.at (key + p)) (items.filter fun i => (entry i).prio == p)
  let r := dwrr (32 * top.length) (top.map fun i => (i, (entry i).weight, len i)) d
  (r.1.map fun i => (i, p), r.2)

/-- The queue that a node would serve, its priority, and the queue deficits after. -/
def pickQueue (s : State) (node : Nat) : Option (Nat × Nat) × Tab Nat :=
  pick s (512 + 8 * node) (queueEntry s) (headLen s) (nodeQueues s node) s.net.deficit

/-- The length of a node's head frame: that of the queue it would serve. -/
def nodeLen (s : State) (node : Nat) : Nat :=
  match (pickQueue s node).1 with
  | some (q, _) => headLen s q
  | none => 0

/-- The eligible nodes of a port. -/
def eligibleNodes (s : State) (lport : Nat) : List Nat :=
  ((List.range 16).map (16 * lport + ·)).filter fun n =>
    nodeQueues s n != [] && !overdrawn (s.net.nodeCfg.at n) (s.net.nodeShaper.at n) s.now

/-- The state with the head frame of a queue taken off; a queue that becomes empty has its deficit reset (R265). -/
def popQueue (q : Nat) (s : State) : State :=
  let rest := (framesIn s q).drop 1
  s.onNet fun n => { n with
    queues := n.queues.put q rest, deficit := if rest = [] then n.deficit.put q 0 else n.deficit }

/-- A frame as it leaves, up to its FCS: as it arrived, but for its congestion mark (R226). -/
def Desc.sent (d : Desc) : Bytes := if d.ecn then ecnMark d.frame else d.frame

/-- Put the head frame of a queue on the line. -/
def startFrame (lport q : Nat) (s : State) : State :=
  match framesIn s q with
  | [] => s
  | d :: _ =>
    let s := popQueue q s
    (s.onNet fun n => { n with line := n.line.put lport (some d) }).send (.frame lport d.sent)

/-- A frame of `len` bytes is taken from a queue and its node: deficits and shapers (R265, R267). -/
def chargeItems (q node len : Nat) (s : State) : State :=
  s.onNet fun n => { n with
    deficit := n.deficit.put q (n.deficit.at q - len)
    nodeDeficit := n.nodeDeficit.put node (n.nodeDeficit.at node - len)
    shaper := n.shaper.upd q (charge (queueEntry s q) len s.now)
    nodeShaper := n.nodeShaper.upd node (charge (s.net.nodeCfg.at node) len s.now) }

/-- `select` of R265: the class 0 queue always first, then a node, then one of its queues. -/
def selectNext (lport : Nat) (s : State) : State :=
  let c0 := 8 * lport + 7
  if queueEligible s c0 then startFrame lport c0 s
  else
    match pick s (8 * lport) (fun n => s.net.nodeCfg.at n) (nodeLen s) (eligibleNodes s lport) s.net.nodeDeficit with
    | (none, _) => s
    | (some (node, np), nd) =>
      match pickQueue s node with
      | (none, _) => s
      | (some (q, qp), qd) =>
        let len := headLen s q
        let s := s.onNet fun n => { n with
          nodeDeficit := nd, deficit := qd
          served := (n.served.put (8 * lport + np) node).put (512 + 8 * node + qp) q }
        let s := startFrame lport q (chargeItems q node len s)
        if (portQueues s lport).any fun q => queueNode s q == node then s
        else s.onNet fun n => { n with nodeDeficit := n.nodeDeficit.put node 0 }

/-- The handle by which a chain is lost: a stale one, or one in a fenced bank (R252, R255). -/
def lostBy (s : State) (d : Desc) : Option (Nat × Bool) :=
  match d.cells.find? (stale s) with
  | some h => some (h, true)
  | none => (d.cells.find? fun h => fencedUnit s 3 (bankOf h)).map fun h => (h, false)

/-- Frames that reach the head of a queue and cannot leave are discarded: lost chains (R255), and frames longer than the
longest open run of their class (R270). -/
def cleanHead (lport q : Nat) : Nat → State → State
  | 0, s => s
  | fuel + 1, s =>
    match framesIn s q with
    | [] => s
    | d :: _ =>
      match lostBy s d with
      | some (h, old) =>
        let s := if old then handleStale 2 h s else countOnly (portSrc lport) 0x309 s
        cleanHead lport q fuel (releaseDesc d (popQueue q s))
      | none =>
        if neverFits s lport (queueTc s q) d.len then
          let s := countOnly (portSrc lport) 0x404 (s.bumpI F.TMG_GATE_STAT_OVERSIZE lport 1)
          cleanHead lport q fuel (releaseDesc d (popQueue q s))
        else s

/-- A port whose line is free takes its next frame (R265, R266): its link is up and the unit is not in PS4. -/
def kick (lport : Nat) (s : State) : State :=
  if (s.net.line.at lport).isSome ∨ !linkIsUp s lport ∨ s.cmd.ps = 4 then s
  else
    selectNext lport ((portQueues s lport ++ [8 * lport + 7]).foldl (fun s q => cleanHead lport q (framesIn s q).length s) s)

/-- A frame on the line is to be ended with the inverse FCS (R262). -/
def stompLine (lport : Nat) (s : State) : State :=
  match s.net.line.at lport with
  | none => s
  | some _ =>
    if s.net.stomp.at lport then s
    else
      countOnly (portSrc lport) 0x307
        ((s.onNet fun n => { n with stomp := n.stomp.put lport true }).bumpI F.SWC_PORT_DROP_STOMPED lport 1)

/-- A bank has been fenced (R254, R255): its free cells leave the free count, and a frame on a line that holds one of its
cells is stomped. -/
def bankFenced (bank : Nat) (s : State) : State :=
  let used := (s.net.cells.filter fun e => e.1 / 16384 == bank && !e.2.onList).length
  let s := setFree (freeCells s - (16384 - used)) s
  (List.range 64).foldl (fun s l =>
    match s.net.line.at l with
    | some d => if d.cells.any (fun h => bankOf h == bank) then stompLine l s else s
    | none => s) s

/-! Policers (R268). -/

/-- The colours of R268. -/
inductive Colour where
  | green | yellow | red
deriving DecidableEq, Repr

/-- The two buckets of a policer in 1/8,000 byte, filled up to now: CBS, then EBS (RFC 2697: what overflows the first) or
PBS at PIR (RFC 2698). -/
def Policer.fillNow (p : Policer) (now : Nat) : Policer :=
  let got := (now - p.stamp) * bitsOf p.d0 23 0
  if bitAt p.d0 30 then
    { p with usedC := p.usedC - got, usedE := p.usedE - (now - p.stamp) * bitsOf p.d1 23 0, stamp := now }
  else { p with usedC := p.usedC - got, usedE := p.usedE - (got - p.usedC), stamp := now }

/-- A policer's depth CBS, 0 treated as 16 KiB, in 1/8,000 byte. -/
def Policer.cbs (p : Policer) : Nat := (if bitsOf p.d2 31 16 = 0 then 16 else bitsOf p.d2 31 16) * 1024 * 8000

/-- A policer's depth EBS or PBS in 1/8,000 byte. -/
def Policer.epbs (p : Policer) : Nat := bitsOf p.d2 15 0 * 1024 * 8000

/-- A policer meters a frame of `len` bytes whose input colour is yellow or green (RFC 2697, RFC 2698, R268). -/
def Policer.meter (p : Policer) (len : Nat) (dei : Bool) (now : Nat) : Colour × Policer :=
  let p := p.fillNow now
  let b := len * 8000
  let aware := bitAt p.d0 29 && dei
  let c := decide (p.usedC + b ≤ p.cbs)
  let e := decide (p.usedE + b ≤ p.epbs)
  if bitAt p.d0 30 then
    if !e then (.red, p)
    else if aware || !c then (.yellow, { p with usedE := p.usedE + b })
    else (.green, { p with usedC := p.usedC + b, usedE := p.usedE + b })
  else if c && !aware then (.green, { p with usedC := p.usedC + b })
  else if e then (.yellow, { p with usedE := p.usedE + b })
  else (.red, p)

/-- Meter a frame at a policer and count its colour; an invalid policer meters nothing (R268, R277). -/
def police (i len : Nat) (dei : Bool) (s : State) : Colour × State :=
  let p := s.net.policers.at i
  if !bitAt p.d0 31 then (.green, s)
  else
    let r := p.meter len dei s.now
    let q := match r.1 with
      | .green => r.2
      | .yellow => { r.2 with yellow := min 65535 (r.2.yellow + 1) }
      | .red => { r.2 with red := min 65535 (r.2.red + 1) }
    (r.1, s.onNet fun n => { n with policers := n.policers.put i q })

end Sys2Proof.Machine
end

