-- ==== Sys2Proof/Machine/OpsCmd.lean ====
section
/-! DEFINITION. Shared operations of the command engine (chapter 02): completions, queues, entries, admission, the ledger's
resolutions, controllers and power states. -/

namespace Sys2Proof.Machine

/-- The statuses of R493. -/
def stOk : Status := ⟨0, 0, false⟩
def stInvalidOpcode : Status := ⟨0, 0x01, true⟩
def stInvalidField : Status := ⟨0, 0x02, true⟩
def stDataTransfer : Status := ⟨0, 0x04, false⟩
def stInternal : Status := ⟨0, 0x06, false⟩
def stAborted : Status := ⟨0, 0x07, false⟩
def stSequence : Status := ⟨0, 0x0C, false⟩
def stSglType : Status := ⟨0, 0x11, true⟩
def stTooLong : Status := ⟨0, 0x81, true⟩
def stNoSpace : Status := ⟨0, 0x81, false⟩
def stNotReady : Status := ⟨0, 0x82, false⟩
def stInvalidQueue : Status := ⟨1, 0x01, true⟩
def stAbortLimit : Status := ⟨1, 0x03, false⟩
def stInvalidVector : Status := ⟨1, 0x08, true⟩
def stSelfTest : Status := ⟨1, 0x1D, false⟩
def stConnBusy : Status := ⟨1, 0x81, false⟩
def stConnParam : Status := ⟨1, 0x82, true⟩
def stConnHost : Status := ⟨1, 0x84, true⟩
/-- Asynchronous Event Request Limit Exceeded, as the standards number it: notes/assumptions/12.md. -/
def stAerLimit : Status := ⟨1, 0x05, false⟩
/-- Class 0 refusals (R53). -/
def stC0Size : Status := ⟨7, 0xC2, true⟩
def stC0Limit : Status := ⟨7, 0xC1, false⟩
def stC0Budget : Status := ⟨7, 0xC0, false⟩
/-- Statuses the standards define and this specification does not list: notes/assumptions/11.md. -/
def stKeyMissing : Status := ⟨0, 0x87, true⟩
def stKeyExists : Status := ⟨0, 0x89, true⟩
def stUnrecovered : Status := ⟨2, 0x81, false⟩
def stCompare : Status := ⟨2, 0x85, true⟩
def stInaccessible : Status := ⟨3, 0x02, false⟩
def stPersistentLoss : Status := ⟨3, 0x01, false⟩

/-- The key of a queue in the queue table: 256 × CNTLID + SQID. -/
def qKey (cntlid sqid : Nat) : Nat := cntlid * 256 + sqid

/-- A queue. -/
def queueOf (s : State) (cntlid sqid : Nat) : Queue := s.cmd.queues.at (qKey cntlid sqid)

/-- A controller. -/
def ctrlOf (s : State) (cntlid : Nat) : Controller := s.cmd.ctrls.at cntlid

/-- The state with a controller changed. -/
def onCtrl (cntlid : Nat) (f : Controller → Controller) (s : State) : State :=
  s.onCmd fun c => { c with ctrls := c.ctrls.upd cntlid f }

/-- The state with an entry of the command table changed. -/
def onEntry (i : Nat) (f : Entry → Entry) (s : State) : State :=
  s.onCmd fun c => { c with table := c.table.upd i f }

/-- An entry of the command table. -/
def entryOf (s : State) (i : Nat) : Entry := s.cmd.table.at i

/-- Post the completion of a command that holds no entry: to a PCIe queue, or as a response capsule (R45, R105). -/
def post (cntlid sqid cid : Nat) (st : Status) (dw0 : Nat) (inv : Option Nat) (s : State) : State :=
  let q := queueOf s cntlid sqid
  if q.pcie then hostPost cntlid sqid cid st dw0 q.cq s
  else
  let s := s.send (.completion cntlid sqid cid st dw0)
  if q.conn = 0 then s
  else sendResponse q.conn cid st dw0 inv s

/-- The completion of an admin command. -/
def postAdmin (a : Admin) (st : Status) (dw0 : Nat) (s : State) : State := post a.cntlid 0 a.cid st dw0 none s

/-- The key a command's response invalidates: its first descriptor with the Invalidate Key subtype (R105). -/
def invKey (sgl : List Sgl) : Option Nat := (sgl.find? (·.invalidate)).map (·.rkey)

/-- Is an opcode of the NVM or Key Value set write-type (R51, R64)? NVM Write 0x01, Write Zeroes 0x08, Dataset Management
0x09; Key Value Store 0x81 and Delete 0x90 as this model numbers them (notes/assumptions/10.md). -/
def writeType (opc : Nat) : Bool := [0x01, 0x08, 0x09, 0x81, 0x90].contains opc

/-- The class of entry `i`'s range of the ledger (R434, R435). -/
def inC0Range (i : Nat) : Bool := decide (i < 16384)

/-- The account an entry's tally resolves to (R436, R437). -/
inductive Resolution where
  | done | aborted | ended | redone
deriving DecidableEq, Repr

/-- The ledger counter of a resolution (R434). -/
def Resolution.counter : Resolution → Nat
  | .done => 0xF11 | .aborted => 0xF12 | .ended => 0xF13 | .redone => 0xF14

/-- A ledger counter changed by a signed amount, wrapping (R434). -/
def ledger (counter : Nat) (n : Int) (s : State) : State :=
  let v := ((s.tel.cnt.at counter : Int) + n) % 2 ^ 64
  { s with tel := { s.tel with
      cnt := s.tel.cnt.put counter v.toNat
      samplers := if 0 < n then samplersCount s counter 0x5F1 n.toNat else s.tel.samplers } }

/-- An entry's tally leaves UNRESOLVED and is charged (R436, R437); the tally restarts at zero. -/
def resolve (i : Nat) (r : Resolution) (s : State) : State :=
  let t := (entryOf s i).tally
  let s := onEntry i (fun e => { e with tally := 0 }) s
  if t = 0 then s else ledger r.counter t (ledger 0xF10 (-(t : Int)) s)

/-! The layout lanes (R130). -/

/-- Is an entry's command class 0 (R52)? -/
def Entry.urgent (e : Entry) : Bool := e.cap.cls == 0

/-- Put slices in the queue of the lanes: class 0 slices ahead of all others (R130). -/
def queueSlices (urgent : Bool) (xs : List Slice) (s : State) : State :=
  s.onLay fun l => { l with
    laneQueue :=
      if urgent then
        (l.laneQueue.filter fun x => (entryOf s x.entry).urgent) ++ xs ++ l.laneQueue.filter fun x => !(entryOf s x.entry).urgent
      else l.laneQueue ++ xs }

/-- The idle lanes that are not fenced. -/
def idleLanes (s : State) : List Nat :=
  (List.range 16).filter fun i => !fencedUnit s 7 i && (s.lay.lanes.look i).isNone

/-- Idle lanes take the slices at the head of the queue (R130). -/
def dispatchSlices (s : State) : State :=
  let ls := idleLanes s
  (ls.zip s.lay.laneQueue).foldl (fun s p =>
    s.onLay fun l => { l with lanes := l.lanes.ins p.1 p.2, laneQueue := l.laneQueue.drop 1 }) s

/-- The lanes work no more for an entry. -/
def dropLanes (i : Nat) (s : State) : State :=
  let s := if s.lay.laneQueue.isEmpty ∧ s.lay.lanes.isEmpty then s else dispatchSlices (s.onLay fun l => { l with
    laneQueue := l.laneQueue.filter fun x => x.entry != i, lanes := l.lanes.filter fun p => p.2.entry != i })
  match s.cip.running.keysWhere fun _ o => o.entry == some i with
  | [] => s
  | ids => s.onCip fun c => { c with
      running := c.running.filter fun o => !ids.contains o.1
      lanes := c.lanes.mapAll fun _ q => q.filter fun x => !ids.contains x.op }

/-! The cells of commands (R104, R253). -/

/-- Does a slot hold a capsule? -/
def CapSlot.holds (x : CapSlot) (c : Capsule) : Bool := x.cntlid == c.cntlid && x.sqid == c.sqid && x.cid == c.cid

/-- Is the capsule of a slot still waiting, or its command in the table? -/
def slotInUse (s : State) (x : CapSlot) : Bool :=
  s.cmd.queued.any x.holds || s.cmd.table.any fun p => decide (p.1 < 32768) && p.2.live && x.holds p.2.cap

/-- The slots whose command's entry has been freed, or whose queue has been deleted, release their cells (R104). -/
def sweepSlots (s : State) : State :=
  if s.cmd.slots = [] then s
  else
    let gone := s.cmd.slots.filter fun x => !slotInUse s x
    releaseCells (gone.flatMap (·.cells)) (s.onCmd fun c => { c with slots := c.slots.filter (slotInUse s) })

/-- Free an entry with its cells; its messages are no longer a command's, its tally is charged, and the idle timers start when no I/O command is left (R75). -/
def freeEntry (i : Nat) (r : Resolution) (s : State) : State :=
  let s := dropLanes i (forgetEntry i (r == .done) (resolve i r s))
  let s := s.onLay fun l => { l with waitingJournal := l.waitingJournal.filter (· != i) }
  let hs := (entryOf s i).cells
  sweepSlots (releaseCells hs (s.onCmd fun c => { c with table := c.table.put i default, idleFrom := s.now }))

/-- A command that works on its data again counts its tally as redone and is exempt from the bound (R37, R437). -/
def redo (i : Nat) (s : State) : State := onEntry i (fun e => { e with exempt := true }) (resolve i .redone s)

/-- Has an entry's journal record been submitted (R64, R70)? -/
def Entry.submitted (e : Entry) : Bool := e.state == .journal || e.state == .committed || (e.state == .posting && writeType e.cap.opc)

/-- End one entry without a completion (R70): a write whose journal record was submitted runs on with no completion to
post; any other is freed and its units discarded. -/
def endEntry (i : Nat) (s : State) : State :=
  let e := entryOf s i
  if !e.live then s
  else if e.submitted && e.state != .posting then onEntry i (fun e => { e with ended := true }) s
  else if e.submitted then freeEntry i .done s
  else freeEntry i .ended (releaseAllocs e.allocs (noteEnded e.cap s))

/-- The live entries that meet a test, in rising order. -/
def entriesWhere (s : State) (p : Entry → Bool) : List Nat := s.cmd.table.keysWhere fun _ e => e.live && p e

/-- End the commands of a queue, queued ones included (R70). -/
def endQueueCommands (cntlid sqid : Nat) (s : State) : State :=
  let gone := s.cmd.queued.filter fun x => x.cntlid == cntlid && x.sqid == sqid
  let s := gone.foldl (fun s x => noteEnded x s) s
  let s := s.onCmd fun c => { c with queued := c.queued.filter fun x => !(x.cntlid == cntlid && x.sqid == sqid) }
  sweepSlots ((entriesWhere s fun e => e.cap.cntlid == cntlid && e.cap.sqid == sqid).foldl (fun s i => endEntry i s) s)

/-- End the commands of a controller (R70). -/
def endCommands (cntlid : Nat) (s : State) : State :=
  let s := (s.cmd.queued.filter fun x => x.cntlid == cntlid).foldl (fun s x => noteEnded x s) s
  let s := s.onCmd fun c => { c with queued := c.queued.filter fun x => x.cntlid != cntlid }
  sweepSlots ((entriesWhere s fun e => e.cap.cntlid == cntlid).foldl (fun s i => endEntry i s) s)

/-- CTRL_RESET (R70). -/
def ctrlReset (cntlid kind sqid : Nat) (s : State) : State :=
  emit 0x560 0x609 1 (sqid * 2 ^ 24 + kind * 2 ^ 16 + cntlid) s

/-- A self-test ends: log page 0x06 takes its result and SELFTEST_DONE is emitted (R79). -/
def endSelfTest (result : Nat) (s : State) : State :=
  let t := s.cmd.test
  if t.code = 0 then s
  else
    let s := s.onCmd fun c => { c with test := { c.test with
      code := 0, cntlid := 0, nsid := 0, items := [], log := (t.code, result) :: t.log } }
    emit 0x564 0x60B 1 (t.code * 16 + result) s

/-- A controller reset, of whichever controller, ends the self-test with result 0x2 (R79; notes/assumptions/89.md). -/
def testReset (s : State) : State := endSelfTest 2 s

/-- The connections of the queues that meet a test. -/
def connsOf (s : State) (p : Nat → Bool) : List Nat := ((s.cmd.queues.filter fun e => p e.1).map (·.2.conn)).filter (· != 0)

/-- Delete the I/O queues of a controller, disconnecting their connections (R69, R89). -/
def deleteIoQueues (cntlid : Nat) (s : State) : State :=
  let io := fun (k : Nat) => k / 256 == cntlid && k % 256 != 0
  let conns := connsOf s io
  let s := s.onHep fun h => { h with sqs := h.sqs.filter fun e => !io e.1, cqs := h.cqs.filter fun e => !io e.1 }
  let s := s.onCmd fun c => { c with
    queues := c.queues.filter fun e => !io e.1
    queued := c.queued.filter fun x => x.cntlid != cntlid }
  conns.foldl (fun s q => localDisconnect q s) (sweepSlots s)

/-- A controller enters DELETED: its commands end, it is freed and its connections are disconnected (R69, R89), CTRL_RESET tells
how. -/
def deleteCtrl (cntlid kind : Nat) (s : State) : State :=
  if !(ctrlOf s cntlid).exists_ then s
  else
    let s := testReset (endCommands cntlid s)
    let conns := connsOf s fun k => k / 256 == cntlid
    let s := s.onCmd fun c => { c with
      ctrls := c.ctrls.put cntlid default
      queues := c.queues.filter fun e => e.1 / 256 != cntlid }
    conns.foldl (fun s q => localDisconnect q s) (ctrlReset cntlid kind 0 s)

/-- The number of live class 0 entries of a port (R50, R53). -/
def c0Outstanding (s : State) (port : Nat) : Nat :=
  s.cmd.table.countWhere fun i e => e.live && decide (i / 256 = port) && inC0Range i

/-- The depth of a port's class 0 bucket in its units of 1/8,000,000 byte (R53). -/
def c0Depth (s : State) (port : Nat) : Nat := s.fldI F.CMD_C0_BUDGET_DEPTH_KIB port * 1024 * 8000000

/-- The tokens in a port's class 0 bucket now: what is used refills at RATE tenths of a percent of the port's rate,
`mbps` (R53). A rate of r Mb/s and RATE t give r × t units in each nanosecond. -/
def c0Tokens (s : State) (port mbps : Nat) : Nat :=
  let a := s.cmd.arbiters.at port
  let used := a.used - (s.now - a.refilled) * mbps * s.fldI F.CMD_C0_BUDGET_RATE port
  c0Depth s port - used

/-- Charge a class 0 command against its port's bucket (R53). -/
def c0Charge (port mbps bytes : Nat) (s : State) : State :=
  let used := c0Depth s port - (c0Tokens s port mbps - bytes * 8000000)
  s.onCmd fun c => { c with arbiters := c.arbiters.upd port fun a => { a with used := used, refilled := s.now } }

/-- The admission tests of R53 in order: the status and the test's number, or none. -/
def c0Test (s : State) (port mbps xlen : Nat) : Option (Status × Nat) :=
  if 131072 < xlen then some (stC0Size, 0)
  else if 256 ≤ c0Outstanding s port then some (stC0Limit, 1)
  else if c0Tokens s port mbps < (xlen + 64) * 8000000 then some (stC0Budget, 2)
  else none

/-- Set the power state and emit PS_CHANGE (R76); PS4 takes the ports down but for the wake ports (R234), PS3 has the drives' links
in ASPM L1 (R195); Keep Alive restarts from full on a return to PS2 or shallower (R71). -/
def psChange (new : Nat) (s : State) : State :=
  let old := s.cmd.ps
  let s := followL1 (s.onCmd fun c => { c with ps := new })
  let s := if new = 4 ∧ old ≠ 4 then enterPs4 s else s
  let s := if 3 ≤ old ∧ new ≤ 2 then
      s.onCmd fun c => { c with ctrls := c.ctrls.mapAll fun _ x => { x with kaStart := s.now } } else s
  if old = new then s else emit 0x563 0x608 0 (old * 16 + new) s

/-- A capsule in PS1, PS2 or PS3 starts the exit to PS0; in PS4 only a wake filter does (R76). -/
def startExit (s : State) : State :=
  if 1 ≤ s.cmd.ps ∧ s.cmd.ps ≤ 3 ∧ !s.cmd.exiting then s.onCmd fun c => { c with exiting := true } else s

/-- The smallest Power Management value of the controllers in READY (R75): none limits while none is READY. -/
def pmLimit (s : State) : Nat :=
  ((s.cmd.ctrls.filter fun e => e.2.state == 2).map fun e => e.2.pm).foldl min 4

/-- Does any class 0 queue exist (R62)? -/
def anyC0Queue (s : State) : Bool := s.cmd.queues.any fun e => e.2.exists_ && e.2.cls == 0 && e.1 % 256 != 0

/-- The arbiters hold every grant: steps 2 to 4 of an activation (R72). -/
def actHolds (s : State) : Bool := decide (2 ≤ s.cmd.act.step ∧ s.cmd.act.step ≤ 4)

/-- An asynchronous event for a controller: it completes an outstanding request, or waits for one (R45, R49). -/
def notice (cntlid info : Nat) (s : State) : State :=
  match (ctrlOf s cntlid).aers with
  | [] => onCtrl cntlid (fun c => { c with notices := c.notices ++ [info] }) s
  | cid :: rest =>
    postAdmin ⟨cntlid, cid⟩ stOk info (onCtrl cntlid (fun c => { c with aers := rest }) s)

/-- ANA Change as an asynchronous event: type 2 (notice), information 3, log page 0x0C (R49). -/
def anaNotice : Nat := 0x0C0302

/-- Change a namespace's ANA state: every controller whose Asynchronous Event Configuration has the ANA Change Notices bit
(bit 11) is told, and no other (R49). -/
def setAna (nsid st : Nat) (s : State) : State :=
  if (s.cmd.namespaces.at nsid).ana = st ∨ !(s.cmd.namespaces.at nsid).valid then s
  else
    let s := s.onCmd fun c => { c with
      namespaces := c.namespaces.upd nsid fun n => { n with ana := st }, anaChanges := c.anaChanges + 1 }
    (s.cmd.ctrls.keysWhere fun _ c => bitAt (c.features.at 0x0B) 11).foldl (fun s c => notice c anaNotice s) s

/-- Has a namespace a set with more than m lost members (R49, R149)? -/
def nsLost (s : State) (nsid : Nat) : Bool :=
  s.lay.sets.any fun e => e.2.nsid == nsid && e.2.state != .free && decide ((s.lay.geoms.at e.2.geom).m < lostCount e.2)

/-- The ANA state that R49 gives a namespace now. -/
def anaWanted (s : State) (nsid : Nat) : Nat :=
  if nsLost s nsid then 2
  else if (s.cmd.namespaces.at nsid).cutover ∨ (inGroup s ∧ belowFloor s) then 1 else 0

/-- Bring every namespace's ANA state up to R49. -/
def updateAna (s : State) : State :=
  (s.cmd.namespaces.map (·.1)).foldl (fun s n => setAna n (anaWanted s n) s) s

/-- The bytes of 16 MiB, the largest transfer and value (R47, R48). -/
def maxXfer : Nat := 0x1000000

end Sys2Proof.Machine
end

