-- ==== Sys2Proof/Machine/OpsCip.lean ====
section
/-! DEFINITION. Shared operations of the cipher complex and of device trust: keys and handles, escrow, trust changes
(R282, R287 to R298, R306). -/

namespace Sys2Proof.Machine

/-- The state with device trust's part changed. -/
def State.onTru (s : State) (f : Tru → Tru) : State := { s with tru := f s.tru }

/-- The state with a key slot changed. -/
def onSlot (i : Nat) (f : KeySlot → KeySlot) (s : State) : State :=
  s.onCip fun c => { c with slots := c.slots.upd i f }

/-- The place of a page's handle entry in the table of entries. -/
def entryKey (page idx : Nat) : Nat := page * 64 + idx

/-- A page's handle entry. -/
def handleEntry (s : State) (page idx : Nat) : HandleEntry := s.cip.entries.at (entryKey page idx)

/-- The handle of an entry: generation and index (R288). -/
def handleOf (gen idx : Nat) : Nat := gen % 1024 * 64 + idx

/-- The key slot that a handle of a page names: its entry in use, its generation matching, the key not lost (R282, R290). -/
def slotOf (s : State) (page handle : Nat) : Option Nat :=
  let e := handleEntry s page (handle % 64)
  if e.slot = 0 ∨ e.gen % 1024 ≠ handle / 64 then none
  else if (s.cip.slots.at (e.slot - 1)).lost then none
  else some (e.slot - 1)

/-- The lowest free slot of the key table. -/
def freeSlot (s : State) : Option Nat := s.cip.slots.firstKey 32768 fun k => k.state != 1

/-- The lowest free handle entry of a page for a key type: entry 63 is kept for the page's escrow key (R288). -/
def freeHandle (s : State) (page typ : Nat) : Option Nat :=
  if typ = 4 then (if (handleEntry s page 63).slot = 0 then some 63 else none)
  else (List.range 63).find? fun i => (handleEntry s page i).slot == 0

/-- A data key of a page has been made or brought in with its KEY_GEN (R291). -/
def usedGen (typ page gen : Nat) (s : State) : State :=
  if typ = 1 then s.onCip fun c => { c with genTop := c.genTop.upd page (max gen) } else s

/-- Put a key in the key table and its handle in its page: the result code of CIP_KEY_STAT and the handle (R287, R288). -/
def storeKey (typ page nsid keyGen oekId : Nat) (key : Bytes) (s : State) : State × Nat × Nat :=
  match freeSlot s, freeHandle s page typ with
  | none, _ => (s, 2, 0)
  | _, none => (s, 3, 0)
  | some i, some h =>
    let handle := handleOf (handleEntry s page h).gen h
    let k : KeySlot := {
      typ := typ, state := 1, tenant := page, handle := handle, nsid := nsid, keyGen := keyGen
      seq := (s.cip.slots.at i).seq + 1, createGts := s.now, key := key, oekId := oekId, seals := 0, lost := false }
    let s := s.onCip fun c => { c with
      slots := c.slots.put i k, entries := c.entries.upd (entryKey page h) fun e => { e with slot := i + 1 } }
    (usedGen typ page keyGen s, 1, handle)

/-- Free a key: its slot is zeroed, its store entry is marked destroyed with the key zeroed, its handle's generation moves on
(R288, R290, R294). A session key has no store entry. -/
def freeKey (i : Nat) (s : State) : State :=
  let k := s.cip.slots.at i
  let gone : KeySlot := if k.typ = 3 then default
    else { k with state := 2, key := [], oekId := 0, seq := k.seq + 1, seals := 0, lost := false }
  s.onCip fun c => { c with
    slots := c.slots.put i gone
    entries := c.entries.upd (entryKey k.tenant (k.handle % 64)) fun e => ⟨(e.gen + 1) % 1024, 0⟩ }

/-! The MRAM key store (R290). -/

/-- A copy of an entry: 128 bytes, little-endian, the key wrapped under the store key. -/
def KeySlot.bytes (k : KeySlot) : Bytes :=
  let b := [0x4B, 0x53] ++ leBytes 1 k.typ ++ leBytes 1 k.state ++ leBytes 2 k.tenant ++ leBytes 2 k.handle ++ leBytes 4 k.nsid ++
    leBytes 2 k.keyGen ++ leBytes 2 0 ++ leBytes 8 k.seq ++ leBytes 8 k.createGts ++
    (if k.state = 1 then Config.kwWrap Config.storeKey (padTo 64 k.key) else List.replicate 72 0) ++ List.replicate 20 0
  b ++ leBytes 4 (crc32c b)

/-- Is a copy valid: does its CRC match? -/
def copyOk (b : Bytes) : Bool :=
  b.length == 128 && b.take 2 == [0x4B, 0x53] && ofLe (slice b 124 4) == crc32c (b.take 124)

/-- A copy's SEQ. -/
def copySeq (b : Bytes) : Nat := ofLe (slice b 16 8)

/-- The bytes a key has by its type (R287). -/
def keyLen (typ : Nat) : Nat := if typ = 1 then 64 else 32

/-- The copy that stands is unwrapped into the key table: the entry it was last written with, or an older one. -/
def standCopy (i : Nat) (b : Bytes) (s : State) : State :=
  onSlot i (fun k =>
    if copySeq b = k.seq then k
    else { k with
      typ := ofLe (slice b 2 1), state := ofLe (slice b 3 1), tenant := ofLe (slice b 4 2) % 4096, handle := ofLe (slice b 6 2)
      nsid := ofLe (slice b 8 4), keyGen := ofLe (slice b 12 2), seq := copySeq b, createGts := ofLe (slice b 24 8)
      key := ((Config.kwOpen Config.storeKey (slice b 32 72)).getD []).take (keyLen (ofLe (slice b 2 1))) }) s

/-- The valid keys that meet a test, by slot. -/
def keysWhere (s : State) (p : KeySlot → Bool) : List Nat :=
  s.cip.slots.keysWhere fun _ k => k.state == 1 && p k

/-- The data key of a namespace: type 1, of its page, NSID and generation (R291). -/
def nsKeySlot (s : State) (nsid : Nat) : Option Nat :=
  let n := s.cmd.namespaces.at nsid
  (keysWhere s fun k => k.typ == 1 && k.tenant == n.tenant && k.nsid == nsid && k.keyGen == n.keyGen && !k.lost).head?

/-- The tenant's XTS key of a namespace (R160, R288). -/
def nsKey (s : State) (nsid : Nat) : Bytes :=
  match nsKeySlot s nsid with
  | some i => (s.cip.slots.at i).key
  | none => []

/-- May the data of a namespace be worked on: it is not ciphered, or its key is in the key table? -/
def keyReady (s : State) (nsid : Nat) : Bool :=
  !(s.cmd.namespaces.at nsid).cipher || (nsKeySlot s nsid).isSome

/-- A key of `n` bytes from the DRBG: free values (R310). -/
def randomKey (n : Nat) (s : State) : Bytes × State :=
  ((leBytes 32 s.freeVal.toNat ++ leBytes 32 (Config.freeValue (s.free + 1)).toNat).take n, s.drawn.drawn)

/-- What a signature made now is hedged with: a fresh random value, or nothing while the entropy source is unhealthy (R310). -/
def hedge (s : State) : Option Nat := if s.fld F.TRU_STAT_DETERMINISTIC = 1 then none else some s.freeVal.toNat

/-- A 192f signature takes its time in the signing array, at most 40 ms (R308, R313). -/
def sign192 (s : State) : State :=
  let ms := (Config.freeValue (s.free + 1)).toNat % 41
  s.drawn.drawn.setFld F.TRU_SIGN_STAT_MAX_192F_MS (max ms (s.fld F.TRU_SIGN_STAT_MAX_192F_MS))

/-! Escrow (R296, R297). -/

/-- The escrow key that covers a page: its own, or page 0's. -/
def escrowKey (s : State) (page : Nat) : Option KeySlot :=
  let own := (handleEntry s page 63).slot
  let dev := (handleEntry s 0 63).slot
  if own ≠ 0 then some (s.cip.slots.at (own - 1))
  else if dev ≠ 0 then some (s.cip.slots.at (dev - 1))
  else none

/-- An escrow blob of a type 1 key (R297). -/
def escrowBlob (s : State) (k oek : KeySlot) : Bytes :=
  let head := [0x54, 0x57, 0x4B, 0x45] ++ leBytes 2 1 ++ leBytes 2 k.tenant ++ leBytes 4 k.nsid ++ leBytes 2 k.keyGen ++
    leBytes 1 1 ++ leBytes 1 0 ++ padTo 16 (s.ctl.shelfUuid.take 16) ++ leBytes 8 oek.oekId
  head ++ Config.kwWrap oek.key ((beBytes 32 (Config.sha256 head).toNat).take 16 ++ k.key)

/-- Queue a blob: a full queue drops its oldest (R297). -/
def queueBlob (b : Bytes) (s : State) : State :=
  let full := 16384 ≤ s.cip.escrow.length
  let s := s.onCip fun c => { c with escrow := c.escrow.drop (if full then 1 else 0) ++ [b] }
  if full then s.bump F.CIP_ESCROW_STAT_DROPPED else s

/-- Form blobs for keys that have an escrow key and are not lost: ESCROW_READY tells how many wait (R297). -/
def escrowKeys (slots : List Nat) (s : State) : State :=
  let r := slots.foldl (fun (p : State × Bool) i =>
    let k := p.1.cip.slots.at i
    match escrowKey p.1 k.tenant, k.lost with
    | some oek, false => (queueBlob (escrowBlob p.1 k oek) p.1, true)
    | _, _ => p) (s, false)
  if r.2 then emit 0x5A1 0xA07 1 r.1.cip.escrow.length r.1 else r.1

/-- The keys that an escrow key of a page covers. -/
def coveredBy (s : State) (page : Nat) : List Nat :=
  keysWhere s fun k => k.typ == 1 && (k.tenant == page || (page == 0 && (handleEntry s k.tenant 63).slot == 0))

/-- Make the data key of a ciphered namespace that has none: KEY_GEN one above the highest used in its page (R280, R291),
and ESCROW_MISSING where no escrow key covers it (R296). No key is made while the entropy source is unhealthy (R310), and never
one whose halves are equal. -/
def makeDataKey (nsid : Nat) (s : State) : State :=
  let n := s.cmd.namespaces.at nsid
  let top := s.cip.genTop.at n.tenant
  let (key, t) := randomKey 64 s
  let (t, result, handle) := if key.take 32 = key.drop 32 then (t, 10, 0) else storeKey 1 n.tenant nsid (top + 1) 0 key t
  if s.fld F.TRU_STAT_ENTROPY_OK = 0 then s
  else if result ≠ 1 then t
  else
    let s := t
    let s := s.onCmd fun c => { c with namespaces := c.namespaces.upd nsid fun n => { n with keyGen := top + 1 } }
    match slotOf s n.tenant handle with
    | some i =>
      match escrowKey s n.tenant with
      | some _ => escrowKeys [i] s
      | none => emit 0x5A1 0xA08 2 (n.tenant * 2 ^ 16 + handle) s
    | none => s

/-! Trust changes (R306). -/

/-- Extend a measurement register: M becomes SHA-256(M ‖ d) (R306). -/
def extend (i : Nat) (d : Digest) (s : State) : State :=
  s.onTru fun t => { t with
    meas := t.meas.set i (Config.sha256 (beBytes 32 (t.meas.getD i 0).toNat ++ beBytes 32 d.toNat)) }

/-- A trust change extends M3 and emits TRUST_CHANGE (R306, R311). -/
def trustChange (op arg : Nat) (s : State) : State :=
  emit 0x5B0 0xB07 1 (arg % 64 * 256 + op) (extend 3 (Config.sha256 (Config.trustRecord op arg s.now)) s)

/-! Refusals (R282). -/

/-- Count a refusal and emit its event; the code goes to the requester. -/
def cipRefuse (code page handle : Nat) (s : State) : State :=
  let at_ := page * 2 ^ 16 + handle % 2 ^ 16
  match code with
  | 1 => (emit 0x5A2 0xA03 3 at_ s).bump F.CIP_ERR_COUNT_PAGE
  | 2 | 3 => (emit 0x5A2 0xA04 2 (code * 2 ^ 32 + at_) s).bump F.CIP_ERR_COUNT_HANDLE
  | 4 | 5 | 6 => (emit 0x5A0 0xA01 1 (code * 2 ^ 32 + at_) s).bump F.CIP_ERR_COUNT_LENGTH
  | 7 => (emit 0x5A0 0xA05 2 at_ s).bump F.CIP_ERR_COUNT_LENGTH
  | _ => (emit 0x5A0 0xA02 2 at_ s).bump F.CIP_ERR_COUNT_TAG

/-- Does a key type permit an operation (R287): XTS for data keys, GCM for migration and session keys? -/
def typePermits (typ : Nat) : CipherMode → Bool
  | .xtsSeal | .xtsOpen => typ == 1
  | .gcmSeal | .gcmOpen => typ == 2 || typ == 3

/-- The tests of R282 before a lane starts, in order: a code, or the key's slot. -/
def cipTest (s : State) (r : CipherReq) : Except Nat Nat :=
  if r.keyPage ≠ r.page then .error 1
  else
    match slotOf s r.keyPage r.handle with
    | none => .error 2
    | some i =>
      let k := s.cip.slots.at i
      let xts := r.mode == .xtsSeal || r.mode == .xtsOpen
      if !typePermits k.typ r.mode then .error 3
      else if xts && !(r.data.length == 512 || r.data.length == 4096) then .error 4
      else if !xts && decide (16777216 < r.data.length) then .error 5
      else if !xts && decide (65536 < r.aad.length) then .error 6
      else if r.mode == .gcmSeal && decide (2 ^ 32 ≤ k.seals) then .error 7
      else .ok i

/-- The result of a cipher operation under a key: the output with the tag of a seal, or code 8 where an open's tag differs
(R282, R283). -/
def cipResult (r : CipherReq) (key : Bytes) : Except Nat (Bytes × Bytes) :=
  match r.mode with
  | .xtsSeal => .ok (Config.xtsSeal key r.iv r.data, [])
  | .xtsOpen => .ok (Config.xtsOpen key r.iv r.data, [])
  | .gcmSeal =>
    let c := Config.gcmText key r.iv r.data
    .ok (c, Config.gcmTag key r.iv r.aad c)
  | .gcmOpen =>
    if Config.gcmTag key r.iv r.aad r.data = r.tag then .ok (Config.gcmText key r.iv r.data, []) else .error 8

/-- An operation run to its end at once, as the command pipeline and the chains use it: counted, and refused with its code
and event (R282). -/
def cipRun (r : CipherReq) (s : State) : State × Except Nat (Bytes × Bytes) :=
  match cipTest s r with
  | .error code => (cipRefuse code r.page r.handle s, .error code)
  | .ok i =>
    let s := if r.mode = .gcmSeal then onSlot i (fun k => { k with seals := k.seals + 1 }) s else s
    let s := s.onCip fun c => { c with ops := (c.ops + 1) % 2 ^ 64 }
    match cipResult r (s.cip.slots.at i).key with
    | .error code => (cipRefuse code r.page r.handle s, .error code)
    | .ok x => (s, .ok x)

/-! Lanes (R284, R286). -/

/-- The segments queued on a lane. -/
def laneLoad (s : State) (lane : Nat) : Nat := (s.cip.lanes.at lane).length

/-- The lane with the least work queued among those not fenced, the lowest of equals (R284). -/
def leastLane (s : State) : Option Nat :=
  ((List.range 64).filter fun l => !fencedUnit s 10 l).foldl (fun best l =>
    match best with
    | none => some l
    | some b => if laneLoad s l < laneLoad s b then some l else some b) none

/-- Put a segment on a lane: class 0 ahead of all other segments but the one in progress (R284). -/
def putSegment (s : State) (x : CSeg) : State :=
  match leastLane s with
  | none => s
  | some l =>
    s.onCip fun c => { c with lanes := c.lanes.upd l fun q =>
      match q with
      | [] => [x]
      | h :: t => if x.urgent then h :: t.filter (·.urgent) ++ [x] ++ t.filter (!·.urgent) else q ++ [x] }

/-- The segments of an operation: at most 4,096 bytes each (R284). -/
def segmentCount (len : Nat) : Nat := max 1 ((len + 4095) / 4096)

/-- Dispatch `n` segments of an operation. -/
def dispatchSegs (id n : Nat) (urgent : Bool) (s : State) : State :=
  let s := s.onCip fun c => { c with running := c.running.upd id fun o => { o with left := n } }
  ((List.range n).map fun j => (⟨id, j, urgent⟩ : CSeg)).foldl putSegment s

/-- Dispatch every segment of an operation. -/
def dispatchOp (id : Nat) (s : State) : State :=
  let r := (s.cip.running.at id).req
  dispatchSegs id (segmentCount r.data.length) r.urgent s

/-- The data of a command goes to the lanes: `n` XTS data units under the namespace's key (R280, R284). -/
def cipherEntry (i n : Nat) (s : State) : State :=
  let e := entryOf s i
  let id := s.cip.opNext + 1
  let s := s.onCip fun c => { c with
    opNext := id, running := c.running.put id ⟨default, nsKey s e.cap.nsid, 0, some i⟩ }
  dispatchSegs id n e.urgent (onEntry i (fun e => { e with wait := .cipher }) s)

/-- Work on a fenced lane runs again on other lanes (R36, R286): a GCM operation from its start, of a command's data the data
units that were there; the command's work counts as redone, and it is exempt from the bound (R37). -/
def restartOp (lane : List CSeg) (s : State) (id : Nat) : State :=
  match (s.cip.running.at id).entry with
  | some i => (lane.filter fun x => x.op == id).foldl putSegment (redo i s)
  | none => dispatchOp id (s.onCip fun c => { c with lanes := c.lanes.mapAll fun _ q => q.filter fun x => x.op != id })

end Sys2Proof.Machine
end

