-- ==== Sys2Proof/Machine/OpsFix.lean ====
section
/-! DEFINITION. Shared operations of the fixity engine (R165 to R178, R192): leaves, batches and the tree over them, and
the states of a migration job. -/

namespace Sys2Proof.Machine

/-! Leaves and the tree. -/

/-- The 128 bytes of a leaf (R168). -/
def Leaf.bytes (l : Leaf) : Bytes :=
  [0x46, 0x58, 0x4C, 0x46] ++ leBytes 1 l.typ ++ leBytes 1 l.keyLen ++ leBytes 1 l.lbaShift ++ leBytes 1 0 ++
    leBytes 4 l.nsid ++ leBytes 4 l.length ++ (padTo 16 l.key).take 16 ++ leBytes 8 l.extent ++ leBytes 8 l.jseq ++
    leBytes 8 l.gts ++ digestBytes l.digest ++ digestBytes l.link ++ leBytes 8 0

/-- The leaf hash of 128 bytes (R172). -/
def leafHashOf (b : Bytes) : Digest := Config.sha256 (0 :: b)

/-- The leaf hash (R172). -/
def Leaf.hash (l : Leaf) : Digest := leafHashOf l.bytes

/-- An interior node (R172). -/
def nodeHash (l r : Digest) : Digest := Config.sha256 (1 :: digestBytes l ++ digestBytes r)

/-- One level of the tree: pairs in index order, an unpaired last node promoted (R172). -/
def levelUp : List Digest → List Digest
  | l :: r :: t => nodeHash l r :: levelUp t
  | t => t

/-- The root of a batch's leaf hashes, of which there are at most 2^32 (R171, R172). -/
def treeRoot (hs : List Digest) : Digest := ((List.range 33).foldl (fun l _ => levelUp l) hs).headD 0

/-- The order of R170 among the leaves of a batch. -/
def Leaf.before (a b : Leaf) : Bool :=
  decide (a.gts < b.gts) || (a.gts == b.gts && (decide (a.jseq < b.jseq) || (a.jseq == b.jseq &&
    (decide (a.typ < b.typ) || (a.typ == b.typ && decide (a.hash.toNat < b.hash.toNat))))))

/-- Insert a leaf in the order of R170. -/
def insertLeaf (l : Leaf) : List Leaf → List Leaf
  | [] => [l]
  | x :: xs => if l.before x then l :: x :: xs else x :: insertLeaf l xs

/-- The leaves of a batch in index order. -/
def Batch.all (b : Batch) : List Leaf := b.leaves ++ b.fresh

/-- Put a leaf into a batch at its place; the chunks from that place on are written again (R170, R176). -/
def Batch.insert (b : Batch) (l : Leaf) : Batch :=
  let at_ := b.leaves.length + (b.fresh.takeWhile fun x => !l.before x).length
  { b with fresh := insertLeaf l b.fresh, written := min b.written (at_ / 131072) }

/-! Batches. -/

/-- A batch period in ns (R169). -/
def periodNs (qs : Nat) : Nat := max 1 qs * 250000000

/-- The batch period in force at a GTS, ns (R169). -/
def periodAt (s : State) (gts : Nat) : Nat :=
  periodNs (if s.fix.nextFrom ≤ gts then s.fix.nextQs else s.fix.periodQs)

/-- FIX_CFG is written: the period changes at the first boundary that is a whole multiple of the old and the new one
(R169). -/
def periodChanged (s : State) : State :=
  let f := s.fix
  let cur := if f.nextFrom ≤ s.now then f.nextQs else f.periodQs
  let new := s.fld F.FIX_CFG_PERIOD_QS
  let both := periodNs (Nat.lcm (max 1 cur) (max 1 new))
  s.onFix fun f => { f with periodQs := cur, nextQs := new, nextFrom := (s.now / both + 1) * both }

/-- The batch that a leaf of a GTS opens: from a multiple of the period to the next, and not before what is closed
(R169, R171). -/
def batchFor (s : State) (gts : Nat) : Batch :=
  let p := periodAt s gts
  { (default : Batch) with start := max (gts / p * p) s.fix.closedTo, stop := (gts / p + 1) * p }

/-- Put a leaf into the batch of its GTS; one that has 2^32 leaves ends early with that leaf's GTS (R169, R171). -/
def placeLeaf (s : State) (l : Leaf) : List Batch → List Batch
  | [] => [{ batchFor s l.gts with fresh := [l] }]
  | b :: bs =>
    if l.gts < b.start then { batchFor s l.gts with fresh := [l] } :: { b with written := 0 } :: bs
    else if l.gts < b.stop then
      if b.all.length < 2 ^ 32 then b.insert l :: bs
      else { b with stop := l.gts, early := true } ::
        { (default : Batch) with start := l.gts, stop := b.stop, fresh := [l] } :: bs
    else b :: placeLeaf s l bs

/-- A leaf that arrives after its batch has closed takes the next index of the open batch, and LEAF_LATE tells the batch it
joined (R170). -/
def placeLate (l : Leaf) (s : State) : State :=
  let bs := if s.fix.opened = [] then [batchFor s s.now] else s.fix.opened
  match bs with
  | [] => s
  | b :: rest =>
    let b := { b with leaves := b.all ++ [l], fresh := [], late := true, written := min b.written (b.all.length / 131072) }
    emit 0x581 0x80A 3 (s.fix.lastSeq + 1) (s.onFix fun f => { f with opened := b :: rest })

/-- File a leaf (R167, R170). -/
def addLeaf (s : State) (l : Leaf) : State :=
  if l.gts < s.fix.closedTo then placeLate l s
  else s.onFix fun f => { f with opened := placeLeaf s l f.opened }

/-- The namespace of the fixity store (R176). -/
def storeNsid : Nat := 0xFFFFFFFE

/-- The key field of a leaf for an entry: the key, or the first LBA (R168). -/
def MapEntry.leafKey (m : MapEntry) : Bytes := if m.kv then m.key else leBytes 8 m.start

/-- A leaf of a map entry, with what differs left open. -/
def leafOf (s : State) (m : MapEntry) (typ length jseq : Nat) (digest link : Digest) : Leaf :=
  { typ := typ, keyLen := if m.kv then m.key.length else 0
    lbaShift := if m.kv then 0 else (s.cmd.namespaces.at m.nsid).lbaShift
    nsid := m.nsid, length := length, key := m.leafKey, extent := if typ = 2 then 0 else m.extent
    jseq := jseq, gts := s.now, digest := digest, link := link }

/-- The leaves of a record that commits now (R167, R188): one for a write, one for each entry of a removal. -/
def leavesOf (s : State) (r : JRec) (e : Entry) : List Leaf :=
  if r.typ = 1 then
    match r.entries with
    | [] => []
    | m :: _ =>
      [leafOf s m (if e.link.isSome then 3 else 1) (r.entries.map (·.length)).sum r.jseq e.digest (e.link.getD 0)]
  else r.entries.map fun m => leafOf s m 2 (if m.kv then 0 else m.length) r.jseq 0 (e.link.getD 0)

/-- File the leaves of a committed record of the command that owned it (R167, R176). -/
def fileLeaf (r : JRec) (e : Entry) (s : State) : State :=
  if r.nsid = storeNsid ∨ 3 ≤ r.typ then s else (leavesOf s r e).foldl (fun s l => addLeaf (noteLeaf l s) l) s

/-- The sealed batches, last first, and the leaves they hold. -/
def sealedLeaf (s : State) (p : Leaf → Bool) : Option (Batch × Nat × Leaf) :=
  s.fix.sealed.reverse.findSome? fun b =>
    (((List.range b.all.length).zip b.all).find? fun x => p x.2).map fun x => (b, x.1, x.2)

/-! Migration jobs (R192). -/

/-- A migration job. -/
def jobOf (s : State) (j : Nat) : MigJob := s.fix.jobs.at j

/-- The state with a migration job changed. -/
def onJob (j : Nat) (f : MigJob → MigJob) (s : State) : State := s.onFix fun x => { x with jobs := x.jobs.upd j f }

/-- Is the job of a slot neither IDLE, DONE, FAILED nor ABORTED (R294)? -/
def migBusy (s : State) (job : Nat) : Bool :=
  let st := (jobOf s job).state
  decide (1 ≤ st ∧ st ≤ 4)

/-- A job changes state (R192, R193). -/
def migState (j st : Nat) (s : State) : State :=
  emit 0x583 0x806 1 (j * 2 ^ 32 + st) (onJob j (fun x => { x with state := st }) s)

/-- Make a job's own namespace Inaccessible or Optimized (R49, R192). -/
def migAna (j : Nat) (closed : Bool) (s : State) : State :=
  updateAna (s.onCmd fun c => { c with
    namespaces := c.namespaces.upd (jobOf s j).nsid fun n => { n with cutover := closed } })

/-- The trigger entries of a job's windows are disarmed, and the windows in flight are void (R121, R192). -/
def voidWindows (j : Nat) (s : State) : State :=
  let ws := (jobOf s j).windows
  let s := s.onXpt fun x => { x with triggers := ws.foldl (fun t w =>
    if (t.at w.trigger).state = 1 then t.put w.trigger default else t) x.triggers }
  onJob j (fun x => { x with windows := [], todo := ws.flatMap (·.objs) ++ x.todo }) s

/-- A takeover voids the windows in flight; the job goes on from its last ACK (R192). -/
def migTakeover (s : State) : State :=
  (List.range 16).foldl (fun s j => if migBusy s j then voidWindows j s else s) s

/-- The SHELF_UUID as structures carry it. -/
def shelf16 (s : State) : Bytes := (padTo 16 s.ctl.shelfUuid).take 16

/-- The 64-byte header of a manifest (R184). -/
def manifestHead (s : State) (job typ window n : Nat) : Bytes :=
  padTo 64 ([0x46, 0x58, 0x4D, 0x4E] ++ beBytes 1 1 ++ beBytes 1 typ ++ beBytes 2 job ++ beBytes 4 window ++ beBytes 2 n ++
    beBytes 2 0 ++ shelf16 s ++ beBytes 8 (jobOf s job).uid ++ beBytes 8 s.now)

/-- Send a manifest on the job's migration connection, which must be in RTS (R184). -/
def sendManifest (job typ window n : Nat) (body : Bytes) (imm : Option Nat) (s : State) : State :=
  let qpn := (jobOf s job).qpn
  if (ctxOf s qpn).state = 3 then sendSend qpn (manifestHead s job typ window n ++ body) imm none s else s

/-- An ACK (type 4) or VOID (type 5): one status byte per entry (R184). -/
def sendStatuses (job typ window : Nat) (sts : List Nat) (s : State) : State :=
  sendManifest job typ window sts.length (sts.flatMap (beBytes 1)) none s

/-- A trigger tag: the chain's kind, the job slot and the window (R186). -/
def migTag (kind job window : Nat) : Nat := kind * 2 ^ 28 + job * 2 ^ 24 + window % 2 ^ 24

/-- The window of a job that a tag names. -/
def tagWindow (s : State) (tag : Nat) : Option MigWindow :=
  (jobOf s (bitsOf tag 27 24)).windows.find? fun w => w.number % 2 ^ 24 == tag % 2 ^ 24

/-- The work requests that an object takes in a source chain (R186): nothing is read or checked of a removal, whose DIGEST is
zero, nor read of an empty value. -/
def MigObj.sourceOps (o : MigObj) : List Nat :=
  if o.removed then [0x14, 0x01] else if o.length = 0 then [0x12, 0x14, 0x01] else [0x10, 0x12, 0x14, 0x01]

/-- The work requests that an object takes in a target chain (R186); the plaintext of a removal is empty and is not checked. -/
def MigObj.targetOps (o : MigObj) : List Nat := if o.removed then [0x15, 0x11, 0x13] else [0x15, 0x12, 0x11, 0x13]

/-- The entry to which a request of a chain belongs, counted from `e`, and its opcode. -/
def chainPlace : List (List Nat) → Nat → Nat → Nat × Nat
  | [], e, _ => (e, 0)
  | ops :: rest, e, i => if i < ops.length then (e, ops.getD i 0) else chainPlace rest (e + 1) (i - ops.length)

/-- The statuses of a source chain that failed at a request (R186). -/
def voidStatuses (objs : List MigObj) (index : Nat) : List Nat :=
  let (e, op) := chainPlace (objs.map MigObj.sourceOps) 0 index
  (List.range objs.length).map fun i => if i ≠ e then 4 else if op = 0x12 then 1 else if op = 0x10 then 6 else 4

/-- The statuses of a target chain: committed before the failing entry, not executed after it; the entry itself by the
request that failed, an open 2, a check 3, a write 5 (R186, R191). -/
def ackStatuses (objs : List MigObj) : Option (Nat × Nat) → List Nat
  | none => List.replicate objs.length 0
  | some (_, index) =>
    let (e, op) := chainPlace (objs.map MigObj.targetOps) 0 index
    (List.range objs.length).map fun i =>
      if i < e then 0 else if e < i then 4
      else if op = 0x15 then 2 else if op = 0x12 then 3 else if op = 0x11 then 5 else 4

/-- A chain of a migration window has ended: a target chain's entries are acknowledged and its landing region is free; a
source chain that failed voids the window (R186). -/
def windowEnded (entry : Nat) (failed : Option (Nat × Nat)) (s : State) : State :=
  let tag := (s.xpt.triggers.at entry).tag
  let job := bitsOf tag 27 24
  let j := jobOf s job
  match tagWindow s tag with
  | none => s
  | some w =>
    if w.trigger ≠ entry ∨ !migBusy s job then s
    else if tag / 2 ^ 28 = 2 ∧ j.target then
      onJob job (fun x => { x with windows := x.windows.filter fun v => v.number != w.number })
        (sendStatuses job 4 w.number (ackStatuses w.objs failed) s)
    else if tag / 2 ^ 28 = 1 ∧ !j.target then
      match failed with
      | some (_, index) => sendStatuses job 5 w.number (voidStatuses w.objs index) s
      | none => s
    else s

/-- The job ends in FAILED or ABORTED (R192); a source's cut-over is then over, and its namespace Optimized again (R49). -/
def stopJob (j st : Nat) (s : State) : State :=
  if (jobOf s j).state = 0 ∨ (jobOf s j).state = 5 then s
  else
    let s := if (jobOf s j).state = 4 ∧ !(jobOf s j).target then migAna j false s else s
    migState j st (voidWindows j s)

end Sys2Proof.Machine
end

