-- ==== Sys2Proof/Machine/OpsHep.lean ====
section
/-! DEFINITION. Host memory reads and writes of the host endpoint, and the tags of its reads (R323, R327, R332). -/

namespace Sys2Proof.Machine

/-- The CNTLID of a function (R318). -/
def fnCntlid (k : Nat) : Nat := 0xFF00 + k

/-- A range split at every `max` bytes and every 4 KiB boundary (R323, R327): addresses and lengths. -/
def hostPieces (max : Nat) : Nat → Nat → Nat → List (Nat × Nat)
  | 0, _, _ => []
  | fuel + 1, addr, len =>
    if len = 0 then []
    else
      let n := min len (min (if max = 0 then 128 else max) (4096 - addr % 4096))
      (addr, n) :: hostPieces max fuel (addr + n) (len - n)

/-- How many tags may be outstanding (R323). -/
def tagLimit (s : State) : Nat := if s.hep.tag10 then 1024 else 256

/-- The tag a new request takes: one never used, else the one least recently freed (R332). -/
def nextTag (s : State) : Option Nat :=
  if s.hep.fresh < tagLimit s then some s.hep.fresh else s.hep.released.find? fun t => decide (t < tagLimit s)

/-- Issue a memory read request, or let it wait for a tag (R323); none leaves while BME is clear (R333). -/
def hostReadRequest (r : HostRead) (s : State) : State :=
  if !(fnOf s r.fn).bme ∨ (fnOf s r.fn).flr then s
  else
    match nextTag s with
    | none => s.onHep fun h => { h with waiting := h.waiting ++ [r] }
    | some t =>
      (s.onHep fun h => { h with
        fresh := if t = h.fresh then h.fresh + 1 else h.fresh, released := h.released.filter (· != t)
        tags := h.tags.put t ⟨.outstanding, r, List.replicate r.len 0⟩ }).send (.hostRead r.fn t r.addr r.len)

/-- A tag is free: it is reused last of the free ones, and a waiting request may take one. -/
def freeTag (t : Nat) (s : State) : State :=
  let s := s.onHep fun h => { h with tags := h.tags.put t default, released := h.released ++ [t] }
  match s.hep.waiting with
  | [] => s
  | r :: rest => hostReadRequest r (s.onHep fun h => { h with waiting := rest })

/-- The pieces of a command's data in host memory, with their offsets in the data. -/
def fetchPieces (max : Nat) (sgl : List Sgl) : List (Nat × Nat × Nat) :=
  (sgl.foldl (fun (p : Nat × List (Nat × Nat × Nat)) d =>
    let ps := hostPieces max (d.len + 1) d.va d.len
    (p.1 + d.len, p.2 ++ (ps.foldl (fun (q : Nat × List (Nat × Nat × Nat)) x => (q.1 + x.2, q.2 ++ [(x.1, x.2, q.1)])) (p.1, [])).2))
    (0, [])).2

/-- Fetch a command's data from host memory (R323): its descriptors are the ranges that its PRP or SGL entries name. -/
def hepFetch (i : Nat) (s : State) : State :=
  let e := entryOf s i
  let k := (fnOfCntlid e.cap.cntlid).getD 0
  let ps := fetchPieces s.hep.mrrs e.cap.sgl
  let id := s.hep.fetchNext + 1
  let s := s.onHep fun h => { h with
    fetchNext := id, fetches := h.fetches.put i ⟨id, List.replicate e.wanted 0, ps.length⟩ }
  ps.foldl (fun s p => hostReadRequest ⟨k, p.1, p.2.1, .data i id p.2.2⟩ s) s

/-- Write a command's result to host memory in posted writes (R327). -/
def hepReturn (i : Nat) (data : Bytes) (s : State) : State :=
  let e := entryOf s i
  let k := (fnOfCntlid e.cap.cntlid).getD 0
  if !(fnOf s k).bme then s
  else
    (fetchPieces s.hep.mps e.cap.sgl).foldl (fun s p =>
      let part := slice data p.2.2 p.2.1
      if part.isEmpty then s else s.send (.hostWrite k p.1 part (fnOf s k).relaxed)) s

end Sys2Proof.Machine
end

