-- ==== Sys2Proof/Machine/OpsRed.lean ====
section
/-! DEFINITION. Redundancy's roles (chapter 11): changes of state, leaving the active role, fences, the quorum, links that go
down. -/

namespace Sys2Proof.Machine

/-- The state changes: ROLE_CHANGE tells every change (R357, R369). -/
def setRole (new : Nat) (s : State) : State :=
  let old := redState s
  if old = new then s
  else emit 0x5E0 0xE01 1 (old * 16 + new) (setRoleBit F.RED_STAT_HEEL (role s) (new == 4) (s.setFld F.RED_STAT_STATE new))

/-- The unit knows the active unit, or that there is none. -/
def activeIs (r : Option Nat) (s : State) : State :=
  (s.setFld F.RED_STAT_ACTIVE_ROLE (r.getD 0)).setFld F.RED_STAT_ACTIVE_VALID (b2n r.isSome)

/-- The active unit as this one knows it. -/
def activeRole (s : State) : Nat := s.fld F.RED_STAT_ACTIVE_ROLE

/-- The network ports stop: every link goes down with cause 1 (R357). -/
def portsOff (s : State) : State := (List.range 64).foldl (fun s l => loseLink l 1 s) s

/-- RED_STAT.QUORUM: in trio mode the active unit with the followers in the quorum, else 0 (R355, R370). -/
def countQuorum (s : State) : State :=
  s.setFld F.RED_STAT_QUORUM
    (if redMode s = 2 then (if redState s = 6 then 1 + s.red.inQuorum.length else s.fld F.RED_STAT_QUORUM) else 0)

/-- The unit stands down: no epoch records, network ports and drive I/O stopped (R357). -/
def standDown (s : State) : State :=
  portsOff (countQuorum (setRole 7 (s.onDrv fun d => { d with stopped := true })))

/-- The unit leaves the active role (R213, R357): a unit of a group stands down. -/
def leaveActive (s : State) : State := if groupActive s then standDown s else s

/-- A Reservation Conflict on a write, or on the own first-round preempt: all I/O stops, PREEMPTED names the slot, and the
unit leaves the active role (R213). -/
def preempted (slot : Nat) (s : State) : State :=
  if s.drv.stopped then s
  else
    let s := emit 0x592 0x908 4 slot (s.onDrv fun d => { d with stopped := true })
    if redState s = 5 then standDown s else leaveActive s

/-- PERST# is held on every root port: each port that trains or serves starts again from RESET when it is released (R357). -/
def holdPerst (s : State) : State :=
  s.onDrv fun d => { d with ports := d.ports.mapAll fun _ p =>
    if 2 ≤ p.state ∧ p.state ≤ 5 then
      { p with state := 2, perstReleased := false, speed := 0, width := 0, holder := false, step := 0, attempts := 0
               relinking := false, urgentOut := 0, urgentPages := 0, normalOut := 0, normalPages := 0
               urgentWait := [], normalWait := [], heldWrites := [], inRing := [], back := [], mps := 0, l1 := false }
    else { p with perstReleased := false } }

/-- The unit is fenced: cause 1 by a vote, 2 by an order (R357, R369). -/
def fenceSelf (cause : Nat) (s : State) : State :=
  if redState s = 8 then s
  else
    let s := setRoleBit F.RED_STAT_FENCED (role s) true s
    let s := emit 0x5E0 0xE0A 4 (cause * 16 + role s) (setRole 8 s)
    portsOff (holdPerst (countQuorum (s.onDrv fun d => { d with stopped := true })))

/-- The acknowledgements that the record of this epoch releases (R122). -/
def heldAcks (s : State) : List (Nat × Nat × Nat) :=
  (s.xpt.ctx.filter fun e => e.2.held != 0).map fun e => (e.1 + 0x200000, psnSub e.2.epsn 1, e.2.msn)

/-- RED_EPOCH (R370). -/
def setEpoch (e : Nat) (s : State) : State :=
  (s.setFld F.RED_EPOCH_LO_EPOCH (e % 2 ^ 32)).setFld F.RED_EPOCH_HI_EPOCH (e / 2 ^ 32)

/-- Send acknowledgements: queue pair, PSN and MSN. -/
def sendAcks (acks : List (Nat × Nat × Nat)) (s : State) : State :=
  acks.foldl (fun s a => if (s.xpt.ctx.at (a.1 - 0x200000)).state = 0 then s else sendPacket a.1 (.ack a.2.1 a.2.2) s) s

/-- An active unit with no peer left in HEEL or RESYNC holds no acknowledgement: what its queued records and the present epoch
hold is sent (R122, R348, R351). -/
def releaseHeld (s : State) : State :=
  if !groupActive s ∨ recordsRun s then s
  else
    let acks := s.red.backlog.flatMap (·.acks) ++ heldAcks s
    let s := match s.red.backlog.getLast? with | some q => setEpoch q.epoch s | none => s
    let s := (s.setFld F.RED_BACKLOG_QUEUED 0).onRed fun r => { r with backlog := [], backlogSaid := 0 }
    sendAcks acks (s.onXpt fun x => { x with ctx := x.ctx.map fun p => (p.1, { p.2 with held := 0 }) })

/-- A peer leaves HEEL and the quorum. -/
def dropPeer (r : Nat) (s : State) : State :=
  releaseHeld (countQuorum
    ((setRoleBit F.RED_STAT_HEEL r false s).onRed fun x => { x with inQuorum := x.inQuorum.filter (· != r) }))

/-- The joiner of a resynchronisation is lost with its link: the active unit's part of it ends (R357, R367). -/
def joinerLost (s : State) (r : Nat) : State :=
  let s := ((s.setFld F.RED_RESYNC_STAT_ACTIVE 0).setFld F.RED_RESYNC_STAT_STEP 0).setFldI F.RED_PEER_STAT_STATE r 0
  releaseHeld (boundLeave 2 s)

/-- Another unit is fenced: it leaves the quorum and is told by a CONTROL FENCE (R354, R357). -/
def fencePeer (cause r : Nat) (s : State) : State :=
  let s := setRoleBit F.RED_STAT_FENCED r true (dropPeer r s)
  emit 0x5E0 0xE0A 4 (cause * 16 + r) (sendAll (.fence r) s)

/-- The whole of a partial copy, or of a replica that is of no use, is forgotten (R357). -/
def clearReplica (s : State) : State :=
  let s := s.onRed fun r => { r with pend := [], notices := [], copied := [], bulkDone := false, disputed := [] }
  let s := ((s.setFld F.RED_RESYNC_STAT_ACTIVE 0).setFld F.RED_RESYNC_STAT_STEP 0).setFld F.RED_RESYNC_STAT_PERCENT 0
  boundLeave 2 s

/-- The pair key that RED_PAIR_KEY names in page 0: a valid key of type 5, or none (R368). -/
def pairKeyOf (s : State) : Option Bytes :=
  match slotOf s 0 (s.fld F.RED_PAIR_KEY_HANDLE) with
  | some i => let k := s.cip.slots.at i
              if k.typ = 5 ∧ k.state = 1 ∧ !k.lost then some k.key else none
  | none => none

/-- The unit enters JOINING; one whose role pins the mode does not have says so (R340, R357). -/
def enterJoining (s : State) : State :=
  let s := activeIs none (clearReplica (setRole 2 (s.onDrv fun d => { d with stopped := false })))
  let s := s.onRed fun r => { r with joinFrom := s.now, probing := .none, order := none }
  let s := countQuorum s
  if roleInMode s (role s) then s else emit 0x5E4 0xE12 3 4 s

/-- The replica falls out of step: JOINING, or STOOD_DOWN at the third time within one hour (R357). -/
def replicaLost (s : State) : State :=
  let s := s.onRed fun r => { r with
    outOfStep := (r.outOfStep.filter fun t => decide (s.now < t + 3600000000000)) ++ [s.now] }
  if 3 ≤ s.red.outOfStep.length then standDown s else enterJoining s

/-- Forget every object that a resynchronisation copies. The own keys stay until their copies replace them,
and so do the namespaces and the geometries, which are those of the image that both units run (R359). -/
def wipeObjects (s : State) : State :=
  let s := sweepSlots (s.onCmd fun c => { c with ctrls := [], queues := [], queued := [], table := [] })
  let s := s.onLay fun l => { l with
    sets := [], drives := [], map := [], journal := [], deferred := [], waitingJournal := [], ringPos := []
    ckpt := { l.ckpt with base := default } }
  let s := s.onXpt fun x => { x with ctx := [], regions := [] }
  s.onFix fun f => { f with opened := [], closed := [], jobs := [] }

/-- A resynchronisation fails: the partial copy is forgotten (R357, R369). -/
def resyncFails (cause : Nat) (s : State) : State :=
  enterJoining (wipeObjects (emit 0x5E4 0xE0F 2 cause s))

/-- What a group below its floor does to the unit's role (R38): an active unit stands down, a standby or follower leaves
Heel. -/
def floorRole (s : State) : State :=
  if inGroup s ∧ (redState s = 6 ∨ redState s = 4) then standDown s else s

/-- A unit that enters HEEL or the active role with a group below its floor acts at once as R38 gives. -/
def keepFloor (s : State) : State := if belowFloor s then floorRole s else s

/-- A Leash link goes down with a cause (R343, R346, R369). A resynchronisation over it fails, at either end. -/
def leashDown (link cause : Nat) (s : State) : State :=
  if !leashUp s link then s
  else
    let s := onLeash link (fun _ => default)
      ((s.setFldI F.RED_LINK_STAT_UP link 0).setFldI F.RED_LINK_STAT_PEER link 7)
    let s := emit (0x5E1 + link) 0xE08 2 cause s
    let s := if groupActive s then ((joiners s).filter fun r => linkTo s r == link).foldl joinerLost s else s
    if redState s = 3 ∧ linkTo s (activeRole s) = link then resyncFails 2 s else s

/-- A received frame's header (R345, R346): a bad CRC or TYPE is counted and the frame discarded, as is any frame out of
LSEQ order; a good one acknowledges what this end has sent. The state, and whether the frame is accepted. -/
def leashIn (h : LeashHdr) (s : State) : State × Bool :=
  let link := h.link.val
  if !leashUp s link then (s, false)
  else if !h.crcOk then (s.bumpI F.RED_LINK_STAT_CRC_ERR link 1, false)
  else if h.lseq ≠ (s.red.links.at link).rx + 1 then (s, false)
  else
    let s := onLeash link (fun l => { l with
      rx := h.lseq, resends := if l.acked < h.ack then 0 else l.resends, acked := max l.acked h.ack
      sent := l.sent.filter fun x => decide (max l.acked h.ack < x.1) }) s
    (s.setFldI F.RED_LINK_STAT_PEER link (min h.src 7), true)

/-- A unit's fence bit set, and the last fence noted (R35, R42). -/
def markFenced (block unit reason : Nat) (s : State) : State :=
  onBlock block (fun b =>
    { b with fenced := setBit b.fenced unit true, lastValid := true, lastUnit := unit, lastReason := reason }) s

/-- Fence a unit (R35): it leaves its group, its bit and PREFIX_FENCE_LAST tell it, UNIT_FENCED is emitted with the units
remaining; below the floor BELOW_FLOOR follows and the class 0 bound is suspended (R38, R61). -/
def fenceUnit (block unit reason : Nat) (s : State) : State :=
  if fencedUnit s block unit ∨ unitsOf block ≤ unit then s
  else
    let s := markFenced block unit reason s
    let left := unitsLeft s block
    let s := emit (blockSrc block) 0x004 3 (block * 2 ^ 32 + unit * 2 ^ 24 + reason * 2 ^ 16 + left) s
    if groupBelow s block then
      updateAna (floorRole (boundEnter 3 (emit (blockSrc block) 0x006 4 (block * 2 ^ 32 + left) s)))
    else s

end Sys2Proof.Machine
end

