-- ==== Sys2Proof/Machine/OpsTel.lean ====
section
/-! DEFINITION. Telemetry's samplers (R442 to R444): an overflow arms a capture, and a grant or a time limit takes it. -/

namespace Sys2Proof.Machine

/-- The state with a sampler changed. -/
def onSampler (i : Nat) (f : Sampler → Sampler) (s : State) : State :=
  s.onTel fun t => { t with samplers := t.samplers.upd i f }

/-- A sample reaches the sample ring, or finds it full: then it is dropped and counted, and SAMPLE_DROP is emitted no more
than once per second, with the samples dropped in the second that ends with it (R444). -/
def pushSample (x : Sample) (s : State) : State :=
  if s.tel.samples.length < 16384 then s.onTel fun t => { t with samples := t.samples ++ [x] }
  else
    let lost := s.tel.dropInSecond.filter (fun t => decide (s.now < t + 1000000000)) ++ [s.now]
    let s := (s.bump F.TEL_SAMPLE_STAT_DROPPED).onTel fun t => { t with dropInSecond := lost }
    if s.tel.dropReported ∧ s.now < s.tel.dropGts + 1000000000 then s
    else
      emit 0x5F2 0xF30 1 (min lost.length 65535)
        (s.onTel fun t => { t with dropReported := true, dropGts := s.now })

/-- The account of a live entry's wait (R438). -/
def Wait.account : Wait → Nat
  | .ready => 0 | .host => 0xF04 | .cipher => 0xF05 | .layout => 0xF06 | .submit => 0xF07 | .drive => 0xF08
  | .journal => 0xF09 | .egress => 0xF0A | .vote => 0xF0B | .hbm => 0xF0C

/-- The live entries that wait on an account. -/
def waiting (s : State) (account : Nat) : Nat :=
  s.cmd.table.countWhere fun i e => e.live && decide (i < 32768) && e.wait.account == account

/-- CAUSE of R444: the WAIT account that holds the most live slots, the first of equals; 0 if none waits. -/
def sampleCause (s : State) : Nat :=
  (List.range 9).foldl (fun best i =>
    let a := 0xF04 + i
    if waiting s a = 0 then best else if best = 0 ∨ waiting s best < waiting s a then a else best) 0

/-- The sample of an armed sampler, with the entry of a grant or without (R443). -/
def takeSample (i : Nat) (valid : Bool) (entry : Bytes) (s : State) : State :=
  let m := s.tel.samplers.at i
  pushSample ⟨s.now, m.value, s.fldI F.TEL_SAMPLER_COUNTER i, i, min m.skid 32, min m.merged 255, valid, entry,
      sampleCause s⟩
    (onSampler i (fun m => { m with armed := false, skid := 0, merged := 0 }) s)

/-- A grant on a port is captured by every armed sampler that takes it, in ascending order; for the others it adds one to
the skid (R443). -/
def captureGrant (port : Nat) (entry : Bytes) (s : State) : State :=
  (List.range 16).foldl (fun s i =>
    if (s.tel.samplers.at i).armed then
      if s.fldI F.TEL_SAMPLER_PORT_EN i = 0 ∨ s.fldI F.TEL_SAMPLER_PORT i = port then takeSample i true entry s
      else onSampler i (fun m => { m with skid := m.skid + 1 }) s
    else s) s

/-- A sampler's down-count has reached zero: it is loaded again less the increments beyond zero, and a capture is armed, or
the overflow is merged into the one already armed (R442, R443). -/
def overflow (i : Nat) (s : State) : State :=
  let m := s.tel.samplers.at i
  if m.down ≤ 0 ∧ s.fldI F.TEL_SAMPLER_EN i = 1 then
    onSampler i (fun m =>
      let m := { m with down := m.down + s.fldI F.TEL_SAMPLER_PERIOD_PERIOD i }
      if m.armed then { m with merged := m.merged + 1 }
      else { m with armed := true, skid := 0, merged := 0, value := s.tel.cnt.at (s.fldI F.TEL_SAMPLER_COUNTER i) }) s
  else s

/-- A sampler is loaded afresh and an armed capture discarded (R442). -/
def reloadSampler (i : Nat) (s : State) : State :=
  onSampler i (fun _ => { (default : Sampler) with
    down := if s.fldI F.TEL_SAMPLER_EN i = 1 then s.fldI F.TEL_SAMPLER_PERIOD_PERIOD i else 0 }) s

end Sys2Proof.Machine
end

