-- ==== Sys2Proof/Machine/Restore.lean ====
section
/-! DEFINITION. What LAY reads of the on-drive format (R150, R156, R157, R159): superblocks, stripe headers, and the checkpoint
from which a restart begins (R141, R494). -/

namespace Sys2Proof.Machine

/-- The little-endian integer of `n` bytes at an offset (R154). -/
def leAt (b : Bytes) (off n : Nat) : Nat := ofLe (slice b off n)

/-- Do the last four bytes of a block of `n` bytes hold the CRC-32C of those before them (R154)? -/
def crcHolds (b : Bytes) (n : Nat) : Bool := b.length == n && crc32c (b.take (n - 4)) == leAt b (n - 4) 4

/-! Superblocks (R156). -/

/-- Is a superblock copy valid: its MAGIC and CRC match? -/
def superblockOk (b : Bytes) : Bool :=
  b.take 8 == [0x54, 0x57, 0x52, 0x43, 0x53, 0x42, 0x30, 0x31] && crcHolds b 4096

/-- The superblock that stands: the valid copy, of two the one with the higher SB_GEN. -/
def superblockOf (bs : Bytes × Bytes) : Option Bytes :=
  match superblockOk bs.1, superblockOk bs.2 with
  | true, true => some (if leAt bs.1 88 8 < leAt bs.2 88 8 then bs.2 else bs.1)
  | true, false => some bs.1
  | false, true => some bs.2
  | false, false => none

/-- What a superblock says to this unit: whether it names this shelf, and its DRIVE_UUID. -/
def superblockSays (s : State) (b : Bytes) : Bool × Nat := (slice b 16 16 == padTo 16 (s.ctl.shelfUuid.take 16), leAt b 32 16)

/-! Stripe headers (R157). -/

/-- Is a stripe header that of a unit: its CRC, SET_ID, ROW and UNIT match, and the unit is not absent? -/
def headerOk (set row unit : Nat) (h : Bytes) : Bool :=
  h.take 2 == [0x48, 0x53] && crcHolds h 64 && leAt h 4 4 == set && leAt h 8 2 == row && leAt h 2 1 == unit && !bitAt (leAt h 11 1) 1

/-- Is a set's header area written: is it SEALED, or RECLAIMING? -/
def SetRec.hasHeaders (r : SetRec) : Bool := r.state == .sealed || r.state == .reclaiming

/-- Does a unit pass its check (R157)? Until its set is sealed its header is that of its journal record. -/
def unitPasses (s : State) (set row : Nat) (x : UnitRead) : Bool :=
  let r := s.lay.sets.at set
  let crc := unitCrc (setGeom s set).u x.data
  if r.hasHeaders then headerOk set row x.unit x.header && crc == leAt x.header 28 4
  else crc == (r.rows.at row).unitCrcs.getD x.unit 0

/-! Checkpoints (R159). -/

/-- A drive of the table of a checkpoint: its place, DRIVE_UUID, slot and CHUNK_COUNT. -/
structure TableDrive where
  index : Nat
  uuid : Nat
  slot : Nat
  chunkCount : Nat
deriving DecidableEq, Repr, Inhabited

/-- The blocks of a section of `n` records of `size` bytes. -/
def sectionBytes (n size : Nat) : Nat := (n * size + 4095) / 4096 * 4096

/-- The sections of a checkpoint in order, from the counts of its header. -/
def sectionsOf (b : Bytes) : List Bytes :=
  let ns := sectionBytes (leAt b 40 4) 64
  let sets := sectionBytes (leAt b 44 4) 336
  let map := sectionBytes (leAt b 48 8) 64
  [slice b 4096 ns, slice b (4096 + ns) 4096, slice b (8192 + ns) sets, slice b (8192 + ns + sets) map]

/-- The trailer block of a checkpoint. -/
def trailerOf (b : Bytes) : Bytes := slice b (4096 + ((sectionsOf b).map (·.length)).sum) 4096

/-- Is what a region holds a valid checkpoint: header and trailer carry the same GEN, and every CRC matches? -/
def ckptOk (b : Bytes) : Bool :=
  let t := trailerOf b
  let xs := sectionsOf b
  b.take 4 == [0x43, 0x4B, 0x50, 0x54] && crcHolds (b.take 4096) 4096 && t.length == 4096 &&
    t.take 4 == [0x45, 0x4E, 0x44, 0x43] && leAt t 8 8 == leAt b 8 8 &&
    ((List.range 4).zip xs).all fun p => crc32c p.2 == leAt t (16 + 4 * p.1) 4

/-- The valid checkpoint with the highest GEN among what regions hold, each with whether it is region B (R159, R161). -/
def newestCkpt (regions : List (Bool × Bytes)) : Option (Bool × Bytes) :=
  (regions.filter fun r => ckptOk r.2).foldl (fun best r =>
    match best with
    | none => some r
    | some b => if leAt b.2 8 8 < leAt r.2 8 8 then some r else best) none

/-- The drive table of a checkpoint. -/
def ckptDrives (b : Bytes) : List TableDrive :=
  ((List.range 48).map fun i =>
    let r := slice b (64 + 32 * i) 32
    (⟨i, leAt r 0 16, leAt r 16 1, leAt r 20 4⟩ : TableDrive)).filter fun d => d.chunkCount != 0

/-- The state of a set by its code (R159). -/
def setStateOf : Nat → SetState
  | 1 => .opened | 2 => .sealing | 3 => .sealed | 4 => .reclaiming | _ => .free

/-- A set record: `key` gives the number under which the drive at a place of the table is kept. -/
def readSet (s : State) (key : Nat → Nat) (b : Bytes) : Nat × SetRec :=
  let g := s.lay.geoms.at (leAt b 6 1)
  (leAt b 0 4,
    { (default : SetRec) with
      gen := leAt b 4 2, geom := leAt b 6 1, state := setStateOf (leAt b 7 1), nsid := leAt b 8 4, rowsUsed := leAt b 12 2
      members := (List.range (g.k + g.m)).map fun n =>
        let m := slice b (16 + 8 * n) 8
        (⟨key (leAt m 0 1), leAt m 4 4, bitAt (leAt m 1 1) 0⟩ : Member) })

/-- A map entry (R159). -/
def readEntry (b : Bytes) : MapEntry :=
  let kv := leAt b 4 1 == 2
  { (default : MapEntry) with
    nsid := leAt b 0 4, kv := kv, key := if kv then slice b 8 (leAt b 5 1) else [], start := if kv then 0 else leAt b 8 8
    length := leAt b 24 4, set := if leAt b 28 4 = 0xFFFFFFFF then 0 else leAt b 28 4, firstRow := leAt b 32 2
    offset := leAt b 36 4, extent := leAt b 40 8, jseq := leAt b 48 8, empty := leAt b 28 4 == 0xFFFFFFFF }

/-- The tables of a checkpoint. -/
def ckptTables (s : State) (key : Nat → Nat) (b : Bytes) : Tables :=
  let xs := sectionsOf b
  { map := (List.range (leAt b 48 8)).map fun i => readEntry (slice (xs.getD 3 []) (64 * i) 64)
    sets := (List.range (leAt b 44 4)).foldl (fun t i =>
      let r := readSet s key (slice (xs.getD 2 []) (336 * i) 336)
      t.put r.1 r.2) []
    extentNext := leAt b 32 8 }

end Sys2Proof.Machine
end

