-- ==== Sys2Proof/Machine/Pipeline.lean ====
section
/-! DEFINITION. The command pipeline's shared operations (R50 to R54, R63, R133 to R146): the data path between command
and rows, unit writes, the commit, unit reads with decode, and the arbiters. -/

namespace Sys2Proof.Machine

/-! The data path. -/

/-- The bytes of an XTS data unit of a namespace (R160). -/
def nsDus (s : State) (nsid : Nat) : Nat :=
  let n := s.cmd.namespaces.at nsid
  if n.kv then 4096 else 2 ^ n.lbaShift

/-- The 16-byte tweak of R160. -/
def tweakOf (index extent : Nat) : Bytes := leBytes 8 index ++ leBytes 8 extent

/-- Consecutive data units of an extent from index `first` on, each changed by a function of its tweak. -/
def mapUnits (dus extent first : Nat) (f : Bytes → Bytes → Bytes) (data : Bytes) : Bytes :=
  (List.range (data.length / dus)).flatMap fun i => f (tweakOf (first + i) extent) (slice data (i * dus) dus)

/-- The stored bytes of an extent's data: ciphertext where the namespace's cipher flag is 1 (R160). -/
def sealExtent (s : State) (nsid extent : Nat) (data : Bytes) : Bytes :=
  if (s.cmd.namespaces.at nsid).cipher then
    mapUnits (nsDus s nsid) extent 0 (Config.xtsSeal (nsKey s nsid)) data
  else data

/-- The plaintext of stored bytes that begin at byte `lo` of an extent (R160). -/
def openExtent (s : State) (nsid extent lo : Nat) (data : Bytes) : Bytes :=
  if (s.cmd.namespaces.at nsid).cipher then
    mapUnits (nsDus s nsid) extent (lo / nsDus s nsid) (Config.xtsOpen (nsKey s nsid)) data
  else data

/-- The data units of row `row` of an extent whose stored bytes are `ext`: each u bytes, zeros beyond the data (R130,
R134). -/
def rowData (g : Geometry) (ext : Bytes) (row : Nat) : List Bytes :=
  (List.range (rowUnits g ext.length row)).map fun n => padTo g.u (slice ext ((row * g.k + n) * g.u) g.u)

/-- The unit CRCs of a row in unit order, 0 for an absent unit (R157). -/
def rowCrcs (g : Geometry) (ext : Bytes) (row : Nat) : List Nat :=
  let ds := rowData g ext row
  (ds.map crc32c) ++ List.replicate (g.k - ds.length) 0 ++ (parities g.m g.u ds).map crc32c

/-- What member `unit` stores of the rows of an extent: its present units, row after row (R128, R134). -/
def memberBytes (g : Geometry) (ext : Bytes) (rows unit : Nat) : Bytes :=
  (List.range rows).flatMap fun r =>
    let ds := rowData g ext r
    if unit < g.k then ds.getD unit [] else parityUnit g.m g.u (unit - g.k) ds

/-- The stored bytes of each extent of an entry, with its allocation. -/
def extentsOf (s : State) (e : Entry) : List (Alloc × Bytes) :=
  (e.allocs.foldl (fun (p : Nat × List (Alloc × Bytes)) a =>
    (p.1 + a.bytes, p.2 ++ [(a, sealExtent s e.cap.nsid a.extent (padTo a.bytes (slice e.data p.1 a.bytes)))]))
    (0, [])).2

/-- The unit writes of an extent: consecutive rows on one drive form one write (R138 step 1). -/
def unitWrites (s : State) (a : Alloc) (ext : Bytes) : List UnitIo :=
  let g := setGeom s a.set
  let r := s.lay.sets.at a.set
  (((List.range r.members.length).zip r.members).map fun p =>
    (⟨p.2.slot, a.set, a.firstRow, p.1, if p.2.lost then [] else memberBytes g ext a.rows p.1⟩ : UnitIo)).filter
      fun w => !w.data.isEmpty

/-- The first LBA of a unit of a set. -/
def ioLba (s : State) (set row unit : Nat) : Nat :=
  unitLba s ((s.lay.sets.at set).members.getD unit default) (setGeom s set).u row

/-- Send a unit write to its drive. -/
def sendUnit (urgent : Bool) (s : State) (w : UnitIo) : State :=
  drvSubmit w.slot urgent (.driveWrite w.slot (ioLba s w.set w.row w.unit) w.data urgent) s

/-- The entry goes to POSTING with a status: its completion is built (R51). -/
def toPosting (i : Nat) (st : Status) (dw0 : Nat) (s : State) : State :=
  onEntry i (fun e => { e with state := .posting, status := st, dw0 := dw0, wait := .egress }) s

/-- Submit every present unit of every row of the command (R138 step 1); its rows' CRCs are kept for the record. -/
def submitUnits (i : Nat) (s : State) : State :=
  let e := entryOf s i
  let xs := extentsOf s e
  let ws := xs.flatMap fun x => unitWrites s x.1 x.2
  let s := onEntry i (fun e => { e with
    state := .drive, wait := .drive, unitsOut := ws, driveStart := s.now
    crcs := xs.map fun x => (List.range x.1.rows).map (rowCrcs (setGeom s x.1.set) x.2) }) s
  ws.foldl (sendUnit e.urgent) s

/-- The record of a write or removal (R158): type 1 with its map entries, runs and CRCs, or type 2 with the ranges or the
key removed. -/
def recordFor (s : State) (cap : Capsule) (allocs : List Alloc) (crcs : List Nat) : JRec :=
  let n := s.cmd.namespaces.at cap.nsid
  let base : MapEntry := { (default : MapEntry) with nsid := cap.nsid, kv := n.kv, key := cap.key }
  let bs := 2 ^ n.lbaShift
  if cap.opc = 0x01 ∨ cap.opc = 0x81 then
    let ents :=
      if n.kv then
        match allocs with
        | [] => [{ base with empty := true }]
        | a :: _ => [{ base with length := cap.xlen, set := a.set, firstRow := a.firstRow, extent := a.extent }]
      else (allocs.foldl (fun (p : Nat × List MapEntry) a =>
        (p.1 + a.bytes / bs, p.2 ++ [{ base with
          start := p.1, length := a.bytes / bs, set := a.set, firstRow := a.firstRow, extent := a.extent }]))
        (cap.slba, [])).2
    { (default : JRec) with
      typ := 1, blocks := recBlocks ents.length allocs.length crcs.length 0, nsid := cap.nsid
      sets := (allocs.map (·.set)).eraseDups, entries := ents, runs := allocs, crcs := crcs }
  else
    let ents := if n.kv then [{ base with removed := true }]
      else cap.ranges.map fun r => { base with start := r.1, length := r.2, removed := true }
    { (default : JRec) with typ := 2, blocks := recBlocks ents.length 0 0 0, nsid := cap.nsid, entries := ents }

/-- The place past the command table and the work requests at which LAY's own work stands: objects of the fixity store (R176)
and extents that reclamation copies (R153). -/
def ownFrom : Nat := 2097152

/-- The map entries in use (R136). -/
def mapUse (s : State) : Nat := (s.lay.map.filter fun e => !e.removed).length

/-- Would applying map entries leave more entries in use than the map holds (R136)? -/
def mapFull (s : State) (es : List MapEntry) : Bool :=
  decide (268435456 < ((es.foldl (fun m e => mapApply m { e with jseq := s.lay.jseqNext }) s.lay.map).filter fun e => !e.removed).length)

/-- What the map still refers to of an extent that reclamation copies, at its new place (R153). -/
def movedEntries (s : State) (e : Entry) : List MapEntry :=
  match e.moves, e.allocs with
  | some (set, x), a :: _ => (s.lay.map.filter fun m => m.set == set && m.extent == x && !m.removed && !m.empty).map fun m =>
      { m with set := a.set, firstRow := a.firstRow }
  | _, _ => []

/-- The CRCs of the units of an entry's rows that are present, row by row (R158). -/
def entryCrcs (s : State) (e : Entry) : List Nat :=
  (e.allocs.zip e.crcs).flatMap fun x =>
    ((List.range x.2.length).zip x.2).flatMap fun r =>
      let g := setGeom s x.1.set
      r.2.take (rowUnits g x.1.bytes r.1) ++ r.2.drop g.k

/-- A record of type 5 with map entries, runs and CRCs (R153, R158). -/
def moveRecord (nsid : Nat) (ents : List MapEntry) (runs : List Alloc) (crcs : List Nat) : JRec :=
  { (default : JRec) with
    typ := 5, blocks := recBlocks ents.length runs.length crcs.length 0, nsid := nsid
    sets := ((ents.map (·.set)) ++ runs.map (·.set)).eraseDups, entries := ents, runs := runs, crcs := crcs }

/-- The record of an entry (R158): of a write or removal, or of type 5 with the first 512 map entries of a copied extent, so
that no record is longer than 16 blocks. -/
def buildRecord (s : State) (i : Nat) : JRec :=
  let e := entryOf s i
  let crcs := entryCrcs s e
  let r := if e.moves.isSome then moveRecord e.cap.nsid ((movedEntries s e).take 512) e.allocs crcs
    else recordFor s e.cap e.allocs crcs
  { r with owner := some i }

/-- The records that follow it with the other map entries of a copied extent. -/
def restRecords (s : State) (i : Nat) : List JRec :=
  let ents := (movedEntries s (entryOf s i)).drop 512
  (List.range ((ents.length + 511) / 512)).map fun j => moveRecord (entryOf s i).cap.nsid ((ents.drop (512 * j)).take 512) [] []

/-- Do two map entries compete: overlapping block ranges of a namespace, or the same key (R139)? -/
def MapEntry.meets (a b : MapEntry) : Bool :=
  a.nsid == b.nsid && a.kv == b.kv &&
    if a.kv then a.key == b.key else decide (a.start < b.start + b.length) && decide (b.start < a.start + a.length)

/-- Does a journal record wait at step 2 of R138 (R140): while FULL is set, and, if it is of type 1 or 2 and not class 0's, while
THROTTLE is? A copied extent waits also for records on their way that compete with it, whose JSEQ is lower: what they write
takes precedence (R153). -/
def journalWaits (s : State) (e : Entry) : Bool :=
  s.lay.full || (s.lay.throttle && !e.urgent && e.moves.isNone) ||
    (e.moves.isSome && (movedEntries s e).any fun m => s.lay.journal.any fun r => !r.committed && r.entries.any m.meets)

/-- An entry of LAY's own work ends with nothing written: its rows are released. -/
def dropOwn (i : Nat) (s : State) : State := freeEntry i .done (releaseAllocs (entryOf s i).allocs s)

/-- A command waits for the journal. -/
def waitJournal (i : Nat) (s : State) : State :=
  onEntry i (fun e => { e with wait := .journal }) (s.onLay fun l => { l with
    waitingJournal := if l.waitingJournal.contains i then l.waitingJournal else l.waitingJournal ++ [i] })

/-- Step 2 of R138: the record is built and its C copies are submitted, or the command waits for journal space (R140), or
completes with Namespace Not Ready while fewer than C drives are in service (R136, R137), which LAY's own work waits out; a
copied extent to which no map entry refers any more is dropped (R153). -/
def journalStep (i : Nat) (s : State) : State :=
  let e := entryOf s i
  if e.moves.isSome ∧ (movedEntries s e).isEmpty then dropOwn i s
  else if (slotsInService s).length < copiesC s then
    if ownFrom ≤ i then waitJournal i s
    else toPosting i stNotReady 0 (releaseAllocs e.allocs (onEntry i (fun e => { e with allocs := [] }) s))
  else if journalWaits s e || !journalTakes s (buildRecord s i).blocks then waitJournal i s
  else
    let j := s.lay.jseqNext
    let s := s.onLay fun l => { l with waitingJournal := l.waitingJournal.filter (· != i) }
    let more := restRecords s i
    let s := submitRecord (buildRecord s i)
      (onEntry i (fun e => { e with state := .journal, wait := .drive, ticket := j % 2 ^ 32, driveStart := s.now }) s)
    more.foldl (fun s r => submitRecord r s) s

/-- Commands that waited for journal space go on while it is not refused (R140). -/
def releaseWaiting (s : State) : State := s.lay.waitingJournal.foldl (fun s i => journalStep i s) s

/-- Records of types 3 to 5, and LAY's own work, that waited for C drives in service go on (R137). -/
def releaseDeferred (s : State) : State :=
  if (slotsInService s).length < copiesC s then s
  else
    let rs := s.lay.deferred
    releaseWaiting (rs.foldl (fun s r => submitRecord r s) (s.onLay fun l => { l with deferred := [] }))

/-- A layout lane is fenced: the slice at work on it runs again on another lane, which is work redone, and its command is
exempt from the bound (R36, R37). -/
def fenceLayoutLane (lane reason : Nat) (s : State) : State :=
  let s := fenceUnit 7 lane reason s
  match s.lay.lanes.look lane with
  | none => s
  | some x =>
    let s := redo x.entry (s.onLay fun l => { l with lanes := l.lanes.del lane })
    dispatchSlices (queueSlices (entryOf s x.entry).urgent [x] s)

/-! The commit. -/

/-- The unit CRCs of one run, row by row in unit order with 0 for an absent unit, taken from a record's list (R158), and
the CRCs left. -/
def runCrcs (g : Geometry) (a : Alloc) : Nat → List Nat → List (List Nat) × List Nat
  | 0, cs => ([], cs)
  | n + 1, cs =>
    let row := a.rows - (n + 1)
    let d := rowUnits g a.bytes row
    let here := cs.take d ++ List.replicate (g.k - d) 0 ++ (cs.drop d).take g.m
    let r := runCrcs g a n (cs.drop (d + g.m))
    (here :: r.1, r.2)

/-- The rows of a record's runs become known in their sets (R157). -/
def runRows (jseq gts : Nat) : List Alloc → List Nat → State → State
  | [], _, s => s
  | a :: as, cs, s =>
    let g := setGeom s a.set
    let (rows, rest) := runCrcs g a a.rows cs
    runRows jseq gts as rest (setRows a.set (rowInfos g a (fun i => rows.getD i []) jseq gts) s)

/-- The rows of a record's runs become known in their sets, and are resolved (R133, R157). -/
def commitRuns (jseq gts : Nat) (as : List Alloc) (cs : List Nat) (s : State) : State :=
  releaseAllocs as (runRows jseq gts as cs s)

/-- Is a record's last copy complete? -/
def JRec.durable (r : JRec) : Bool := !r.copies.isEmpty && r.copies.all (·.done)

/-- The record of a JSEQ. -/
def recOf (s : State) (jseq : Nat) : Option JRec := s.lay.journal.find? fun r => r.jseq == jseq

/-- The state with a journal record changed. -/
def onRec (jseq : Nat) (f : JRec → JRec) (s : State) : State :=
  s.onLay fun l => { l with journal := l.journal.map fun r => if r.jseq = jseq then f r else r }

/-- The command of a committed record: COMMITTED and then POSTING (R51); a command that its controller ended is freed with
no completion (R70). Its leaf is filed with FIX. LAY's own work has no completion. -/
def ownerCommitted (r : JRec) (s : State) : State :=
  match r.owner with
  | none => s
  | some i =>
    let e := entryOf s i
    if ownFrom ≤ i then freeEntry i .done s
    else
      let s := fileLeaf r e s
      if e.ended then freeEntry i .done s else toPosting i stOk e.dw0 s

/-- The live rows of a SEALED set fall below LIVE_PCT percent of the rows used: it becomes RECLAIMING (R133). -/
def startReclaim (s : State) : State :=
  if s.fld F.LAY_CFG_RECLAIM_EN = 0 then s
  else
    (setsIn s .sealed).foldl (fun s id =>
      if liveRows s id * 100 < s.fld F.LAY_RECLAIM_CFG_LIVE_PCT * (s.lay.sets.at id).rowsUsed then
        onSet id (fun r => { r with state := .reclaiming }) s
      else s) s

/-- RCRC: the last four bytes of a journal record's first copy (R158, R349). -/
def recordCrc (s : State) (r : JRec) : Nat := ofLe ((recordBytes s r 0).drop (r.blocks * 4096 - 4))

/-- The commit record of a journal record of an entry's command (R349), formed at the receipt of the drive's completion for
it, which gives its GTS (R23). -/
def commitRecOf (s : State) (r : JRec) (e : Entry) : CommitRec :=
  { cntlid := e.cap.cntlid, sqid := e.cap.sqid, cid := e.cap.cid, kind := r.typ, jseq := r.jseq, rcrc := recordCrc s r
    gts := s.now, extent := (r.runs.headD default).extent, digest := e.digest, runs := r.runs, crcs := r.crcs }

/-- The command whose record this is, none where it is a record of LAY's own. -/
def JRec.command (r : JRec) : Option Nat := r.owner.filter fun i => decide (i < ownFrom)

/-- The commit record of a command's record joins the epoch's record: in a pair at the commit, in a trio that votes when
the journal completion is in (R60, R348). -/
def noteRecord (r : JRec) (s : State) : State :=
  match r.command with
  | none => s
  | some i => if recordsRun s then noteCommit (commitRecOf s r (entryOf s i)) s else s

/-- The membership record of a rebuild commits: the set has its new member and generation (R147). -/
def memberCommitted (r : JRec) (s : State) : State :=
  match s.lay.rebuild.target, r.setRec with
  | some (id, n, m), some (id', _, x) =>
    if s.lay.rebuild.written ∧ id = id' ∧ x.members.getD n default = m then
      let q := s.lay.sets.at id
      let slot := (q.members.getD n default).slot
      let s := onSet id (fun q => { q with gen := x.gen, members := q.members.set n m }) s
      updateAna (s.onLay fun l => { l with rebuild := { l.rebuild with
        target := none, written := false, doneBy := l.rebuild.doneBy.upd slot (· + 1)
        doneRows := l.rebuild.doneRows.upd q.nsid (· + q.rowsUsed) } })
    else s
  | _, _ => s

/-- The last live extent of a RECLAIMING set is relocated: the set is FREE, with a record of type 4, and its chunks are released
(R133). While fewer than C drives are in service no record is written, and the set waits (R137). -/
def freeReclaimed (id : Nat) (s : State) : State :=
  let r := s.lay.sets.at id
  if r.state ≠ .reclaiming ∨ liveRows s id ≠ 0 ∨ (slotsInService s).length < copiesC s ∨
      (entriesWhere s fun e => e.moves.any fun x => x.1 == id) ≠ [] then s
  else
    let s := onSet id (fun r => { r with state := .free, gen := r.gen + 1 }) s
    let s := submitRecord (setRecord 4 id s) s
    let s := r.members.foldl releaseChunk (onSet id (fun r => { (default : SetRec) with gen := r.gen }) s)
    emit 0x575 0x710 0 id s

/-- The commit point of a record: its map entries apply in JSEQ order (R139), its rows are known, a seal is durable, a new
membership stands, its command commits (R63, R138 step 3). -/
def commitRecord (jseq : Nat) (s : State) : State :=
  match recOf s jseq with
  | none => s
  | some r =>
    if r.committed then releaseWaiting (retire s)
    else
      let voted : Bool := match r.owner with | some i => (entryOf s i).wait == .vote | none => false
      let s := if voted then s else noteRecord r s
      let s := onRec jseq (fun r => { r with committed := true }) s
      let s := s.onLay fun l => { l with map := r.entries.foldl mapApply l.map }
      let s := if r.typ = 1 ∨ r.typ = 5 then commitRuns jseq s.now r.runs r.crcs s else s
      let s := if r.typ = 3 then r.sets.foldl (fun s id => onSet id (fun x => { x with sealDurable := true }) s) s else s
      let s := if r.typ = 4 then memberCommitted r s else s
      let from_ := r.owner.bind fun i => (entryOf s i).moves
      let s := mapPrune (ownerCommitted r s)
      let s := match from_ with | some (id, _) => freeReclaimed id s | none => s
      releaseWaiting (retire (startReclaim s))

/-- A drive round of an entry ends: its length is subtracted from the added latency (R56). -/
def roundEnds (i : Nat) (s : State) : State := onEntry i (fun e => { e with driveIv := e.driveIv + (s.now - e.driveStart) }) s

/-- Every copy of a record has completed: the drive round ends and the record commits, but a write in trio mode waits for its
vote, which counts (R56, R60, R138). -/
def copiesDone (jseq : Nat) (s : State) : State :=
  match recOf s jseq with
  | none => s
  | some r =>
    let s := match r.owner with | some i => roundEnds i s | none => s
    if needsVote s && r.command.isSome then
      match r.command with
      | some i => onEntry i (fun e => { e with wait := .vote }) (noteRecord r s)
      | none => s
    else commitRecord jseq s

/-! The bound of class 0. -/

/-- Do the conditions of R57 hold for a command: budget, whole-unit conditions, gate, fences and power state? -/
def boundHolds (s : State) (e : Entry) : Bool :=
  decide (s.fldI F.CMD_C0_BUDGET_RATE e.cap.port ≤ 125) && decide (s.fldI F.CMD_C0_BUDGET_DEPTH_KIB e.cap.port ≤ 1024) &&
    decide (s.cmd.boundStat = 0) && !belowFloor s && gateOpen s e.cap.port && !e.exempt && !e.cap.noBound

/-- The added latency of a class 0 command (R56), the largest per port, and BOUND_EXCEEDED (R61). -/
def measure (e : Entry) (s : State) : State :=
  if !e.urgent then s
  else
    let leaves := if e.outGts = 0 then s.now else e.outGts
    let added := leaves - e.cap.gtsIn - e.hostIv - e.driveIv
    let s := if s.fldI F.CMD_C0_LAT_MAX_MAX_NS e.cap.port < added then
        s.setFldI F.CMD_C0_LAT_MAX_MAX_NS e.cap.port (min added 0xFFFFFFFF) else s
    if boundNs s (writeType e.cap.opc) < added ∧ boundHolds s e then
      emit 0x561 0x604 3 (e.cap.port * 2 ^ 30 + min added (2 ^ 30 - 1)) s
    else s

/-! Unit reads. -/

/-- Is a unit of a row missing: its member is lost or it failed its check? -/
def unitGone (s : State) (bad : List (Nat × Nat × Nat)) (set row u : Nat) : Bool :=
  ((s.lay.sets.at set).members.getD u default).lost || bad.contains (set, row, u)

/-- The units of a row to read so that the needed data units are known: those units, or, where one is missing, every other
present data unit and as many of the lowest-numbered present parities as data units are missing (R129). None where too
few units are left. -/
def rowPlan (s : State) (bad : List (Nat × Nat × Nat)) (set row : Nat) (needed : List Nat) : Option (List Nat) :=
  let g := setGeom s set
  let d := ((s.lay.sets.at set).rows.at row).dataUnits
  let missing := (List.range d).filter (unitGone s bad set row)
  if needed.all fun u => !missing.contains u then some needed
  else
    let ps := ((List.range g.m).map (g.k + ·)).filter fun u => !unitGone s bad set row u
    if ps.length < missing.length then none
    else some ((List.range d).filter (fun u => !missing.contains u) ++ ps.take missing.length)

/-- The data units of a row from the units got: as read, or decoded with absent units as zeros (R128, R129). -/
def rowResult (s : State) (got : List UnitIo) (set row : Nat) (needed : List Nat) : List Bytes × Bool :=
  let g := setGeom s set
  let d := ((s.lay.sets.at set).rows.at row).dataUnits
  let known := (got.filter fun x => x.set == set && x.row == row).map fun x => (x.unit, x.data)
  if needed.all fun u => known.any (·.1 == u) then
    ((List.range g.k).map fun u => ((known.find? (·.1 == u)).map (·.2)).getD [], false)
  else
    (decodeRow g.k g.m (known ++ (List.range (g.k - d)).map fun i => (d + i, List.replicate g.u 0)), true)

/-- Is the row consistent with its unit CRCs (R157) in the units decoded? -/
def decodedOk (s : State) (set row : Nat) (needed : List Nat) (ds : List Bytes) : Bool :=
  let crcs := ((s.lay.sets.at set).rows.at row).unitCrcs
  needed.all fun u => crc32c (ds.getD u []) == crcs.getD u 0

/-- The units a list of read parts needs. -/
def segUnits (s : State) (segs : List Seg) : List (Nat × Nat × Nat) :=
  (segs.flatMap fun x => if x.zero then [] else unitsOfRange s x.set x.firstRow x.lo (x.lo + x.len)).eraseDups

/-- The rows among units. -/
def rowsAmong (us : List (Nat × Nat × Nat)) : List (Nat × Nat) := (us.map fun u => (u.1, u.2.1)).eraseDups

/-- The needed units of one row. -/
def neededIn (us : List (Nat × Nat × Nat)) (r : Nat × Nat) : List Nat :=
  (us.filter fun u => u.1 == r.1 && u.2.1 == r.2).map (·.2.2)

/-- The stored bytes of a part, from the data units of its rows. -/
def segBytes (s : State) (rows : List ((Nat × Nat) × List Bytes)) (x : Seg) : Bytes :=
  let g := setGeom s x.set
  let us := unitsOfRange s x.set x.firstRow x.lo (x.lo + x.len)
  let bs := us.flatMap fun u =>
    padTo g.u ((((rows.find? fun r => r.1 == (u.1, u.2.1)).map (·.2)).getD []).getD u.2.2 [])
  slice bs (x.lo % g.u) x.len

/-- The plaintext of a read's parts: zeros where no entry covers the range (R142). -/
def segsPlain (s : State) (nsid : Nat) (rows : List ((Nat × Nat) × List Bytes)) (segs : List Seg) : Bytes :=
  segs.flatMap fun x =>
    if x.zero then List.replicate x.len 0 else openExtent s nsid x.extent x.lo (segBytes s rows x)

/-- Send the result of a read to the host (a work request's, whose entry lies past the table's 32,768, to its HBM address):
one RDMA Write per descriptor, or through HEP; in strict mode the completion
waits for the acknowledgements (R51, R63, R101). -/
def startReturn (i : Nat) (data : Bytes) (dw0 : Nat) (s : State) : State :=
  let e := entryOf s i
  let q := queueOf s e.cap.cntlid e.cap.sqid
  if 32768 ≤ i then
    let w := s.xpt.pool.at (i - 32768)
    toPosting i stOk 0 (hbmWrite w.localAddr (data.take w.length) s)
  else
  let s := onEntry i (fun e => { e with state := .returning, dw0 := dw0, status := stOk, wait := .egress, outGts := s.now }) s
  if q.pcie then toPosting i stOk dw0 (hepReturn i data s)
  else
    let s := (e.cap.sgl.foldl (fun (p : Nat × State) d =>
      let part := slice data p.1 d.len
      (p.1 + d.len, if part.isEmpty then p.2 else sendWrite q.conn d.va d.rkey (i + 1) part none p.2)) (0, s)).2
    if e.strict ∧ data ≠ [] ∧ e.cap.sgl ≠ [] then s else toPosting i stOk dw0 s

/-- The rows of a read, their data units, and whether they were decoded. -/
def readRows (s : State) (e : Entry) : List ((Nat × Nat) × List Bytes × Bool) :=
  let us := segUnits s e.segs
  (rowsAmong us).map fun r => (r, rowResult s e.got r.1 r.2 (neededIn us r))

/-- The slices of a row that carry data: its first unit in steps of 16 KiB of byte offset (R130). -/
def sliceCount (g : Geometry) (rowBytes : Nat) : Nat := (min g.u rowBytes + 16383) / 16384

/-- The slices of a write (R130). -/
def slicesOf (s : State) (e : Entry) (i : Nat) : List Slice :=
  let n := (e.allocs.map fun a =>
    let g := setGeom s a.set
    ((List.range a.rows).map fun r => sliceCount g (a.bytes - r * (g.k * g.u))).sum).sum
  (List.range n).map fun j => ⟨i, j, false⟩

/-- The slices of a read to decode (R130). -/
def decodeSlices (s : State) (i : Nat) : List Slice :=
  let n := (((readRows s (entryOf s i)).filter (·.2.2)).map fun r =>
    sliceCount (setGeom s r.1.1) (((s.lay.sets.at r.1.1).rows.at r.1.2).rowBytes)).sum
  (List.range n).map fun j => ⟨i, j, true⟩

/-- The XTS data units of a command's data: of a write its bytes, of a read the parts that are not zeros (R160, R280). -/
def xtsUnits (s : State) (e : Entry) : Nat :=
  if !(s.cmd.namespaces.at e.cap.nsid).cipher then 0
  else if writeType e.cap.opc then (e.allocs.map (·.bytes)).sum / nsDus s e.cap.nsid
  else ((e.segs.filter (!·.zero)).map (·.len)).sum / nsDus s e.cap.nsid

/-- The plaintext of a read is at hand: the command goes on with it (R51). -/
def readReturn (i : Nat) (s : State) : State :=
  let e := entryOf s i
  let plain := segsPlain s e.cap.nsid ((readRows s e).map fun r => (r.1, r.2.1)) e.segs
  match e.cap.opc with
  | 0x05 => toPosting i (if plain = e.data then stOk else stCompare) 0 s
  | 0x0C => toPosting i stOk 0 s
  | 0x82 => startReturn i ((plain.take e.cap.xlen).take e.wanted) e.cap.xlen s
  | _ => startReturn i plain 0 s

/-- Every row of a read is known and decoded where it must be: decodes are counted, a decode that fails the rows' CRCs is an
unrecovered read error (R146, R157), and ciphertext goes to the cipher lanes (R51, R59). -/
def readChecked (i : Nat) (s : State) : State :=
  let e := entryOf s i
  let rows := readRows s e
  let us := segUnits s e.segs
  let s := s.bumpI F.LAY_DECODE_COUNT_COUNT 0 (rows.filter (·.2.2)).length
  if rows.all fun r => !r.2.2 || decodedOk s r.1.1 r.1.2 (neededIn us r.1) r.2.1 then
    if xtsUnits s e = 0 then readReturn i s else cipherEntry i (xtsUnits s e) s
  else toPosting i stUnrecovered 0 s

/-- Every unit of a read has come: rows to decode go to the layout lanes, class 0 first (R130). -/
def readDone (i : Nat) (s : State) : State :=
  match decodeSlices s i with
  | [] => readChecked i s
  | xs => dispatchSlices (queueSlices (entryOf s i).urgent xs (onEntry i (fun e => { e with wait := .layout }) s))

/-- The lanes have done with a command's ciphertext: a write's goes to the layout lanes, a read's plaintext on its way. -/
def cipherDone (i : Nat) (s : State) : State :=
  let e := entryOf s i
  if e.state = .encoding then
    dispatchSlices (queueSlices e.urgent (slicesOf s e i) (onEntry i (fun e => { e with wait := .layout }) s))
  else readReturn i s

/-- A write's data is complete: it goes to ENCODING with its digest, through the cipher lanes where its namespace is ciphered,
and its slices to the layout lanes (R51, R130). -/
def encodeData (i : Nat) (s : State) : State :=
  let s := onEntry i (fun e => { e with state := .encoding, digest := Config.sha256 e.data }) s
  let n := xtsUnits s (entryOf s i)
  if n = 0 then cipherDone i s else cipherEntry i n s

/-- Read a unit for a command. -/
def sendRead (urgent : Bool) (s : State) (w : UnitIo) : State :=
  drvSubmit w.slot urgent (.driveRead w.slot (ioLba s w.set w.row w.unit) ((setGeom s w.set).u / 4096) urgent) s

/-- Bring a read on: units not asked for yet are read; with none outstanding the read is done; with too few units left it
ends in an unrecovered read error (R129, R146). -/
def advanceRead (i : Nat) (s : State) : State :=
  let e := entryOf s i
  let us := segUnits s e.segs
  let plans := (rowsAmong us).map fun r => (r, rowPlan s e.bad r.1 r.2 (neededIn us r))
  if plans.any fun p => p.2.isNone then toPosting i stUnrecovered 0 s
  else
    let want := plans.flatMap fun p => (p.2.getD []).map fun u => (p.1.1, p.1.2, u)
    let new := want.filter fun u =>
      !(e.got.any fun x => (x.set, x.row, x.unit) == u) && !(e.readsOut.any fun x => (x.set, x.row, x.unit) == u)
    let ios := new.map fun u =>
      (⟨((s.lay.sets.at u.1).members.getD u.2.2 default).slot, u.1, u.2.1, u.2.2, []⟩ : UnitIo)
    let s := ios.foldl (sendRead e.urgent) s
    let s := onEntry i (fun e => { e with readsOut := e.readsOut ++ ios, state := .drive, wait := .drive
                                          driveStart := if ios.isEmpty then e.driveStart else s.now }) s
    if (entryOf s i).readsOut.isEmpty then readDone i s else s

/-- A unit fails its check: UNIT_CHECK_FAIL, the count, and its place in the repair queue, once (R146, R152). -/
def unitCheckFail (set row u : Nat) (s : State) : State :=
  let slot := ((s.lay.sets.at set).members.getD u default).slot
  let s := (emit 0x571 0x707 2 (slot * 2 ^ 30 + set) s).bump F.LAY_CHECK_FAIL_COUNT
  s.onLay fun l => { l with repairs := if l.repairs.contains (set, row, u) then l.repairs else l.repairs ++ [(set, row, u)] }

end Sys2Proof.Machine
end

