-- ==== Sys2Proof/Machine/DriveLoss.lean ====
section
/-! DEFINITION. Drives and the pool (R132, R136, R143 to R150, R155, R156): allocation for a command, loss of a drive,
rebuild, return, format and the checkpoint's completions. -/

namespace Sys2Proof.Machine

/-- Allocate one extent for a Key Value value, whose map entry names one extent: in an open set with room, else in a new
set (R134, R142; notes/assumptions/13.md). -/
def allocateOne (nsid bytes : Nat) (s : State) : Except NoSpace (State × List Alloc) :=
  let g := nsGeom s nsid
  if bytes = 0 then .ok (s, [])
  else
    let n := rowsFor g bytes
    match (setsIn s .opened).find? fun id =>
        (s.lay.sets.at id).nsid == nsid && decide ((s.lay.sets.at id).rowsUsed + n ≤ g.rows) with
    | some id => let (s, a) := takeRows id n bytes s; .ok (s, [a])
    | none =>
      match newSetTest s g with
      | some e => .error e
      | none =>
        let (s, id) := openSet nsid s
        let (s, a) := takeRows id n bytes s
        .ok (s, [a])

/-- The stored bytes of a command's data: a value is padded to a multiple of 4,096 bytes (R135). -/
def storedBytes (s : State) (nsid xlen : Nat) : Nat :=
  if (s.cmd.namespaces.at nsid).kv then (xlen + 4095) / 4096 * 4096 else xlen

/-- Allocate the rows of a write, and see that the map holds its entries (R134, R136). -/
def allocateFor (cap : Capsule) (s : State) : Except NoSpace (State × List Alloc) :=
  let r := if (s.cmd.namespaces.at cap.nsid).kv then allocateOne cap.nsid (storedBytes s cap.nsid cap.xlen) s
    else allocate 4096 cap.nsid cap.xlen s
  match r with
  | .error why => .error why
  | .ok (t, as) => if mapFull s (recordFor t cap as []).entries then .error .map else .ok (t, as)

/-! The fixity store (R176). -/

/-- Is the store's namespace in service? -/
def storeReady (s : State) : Bool := (s.cmd.namespaces.at storeNsid).valid

/-- The capsule that a change of the store works as: class 3, a store of the object or the removal of its key. -/
def storeCap (x : Bytes × Option Bytes) : Capsule :=
  { (default : Capsule) with
    nsid := storeNsid, opc := if x.2.isSome then 0x81 else 0x90, key := x.1, xlen := (x.2.getD []).length, cls := 3 }

/-- Begin a change of the store as work of LAY's own (R176): the object's units are written and then its record, or the record
of its removal; none where no room is found. -/
def storeChange (x : Bytes × Option Bytes) (s : State) : Option State :=
  let i := s.cmd.table.gap ownFrom
  let e : Entry := { (default : Entry) with live := true, cap := storeCap x, data := x.2.getD [] }
  if x.2.isNone then some (journalStep i (onEntry i (fun _ => e) s))
  else
    match allocateFor e.cap s with
    | .error _ => none
    | .ok (s, as) => some (submitUnits i (onEntry i (fun _ => { e with allocs := as }) s))

/-- Is a change of an object of the store under way, or waiting? -/
def storeBusy (s : State) (key : Bytes) : Bool :=
  (s.fix.storeWait.any fun x => x.1 == key) ||
    s.cmd.table.any fun p => p.2.live && decide (ownFrom ≤ p.1) && p.2.cap.nsid == storeNsid && p.2.cap.key == key

/-- The changes of the store that wait begin in order, those of one object one at a time; one that finds no room waits. -/
def releaseStore (s : State) : State :=
  s.fix.storeWait.foldl (fun s x =>
    match (if storeBusy s x.1 then none else storeChange x s) with
    | some t => t
    | none => s.onFix fun f => { f with storeWait := f.storeWait ++ [x] }) (s.onFix fun f => { f with storeWait := [] })

/-- Change the store (R176): write an object, or remove it. Only the unit that works on the drives does (R132). -/
def changeStore (x : Bytes × Option Bytes) (s : State) : State :=
  if !storeReady s || !(isActive s || redState s == 5) then s
  else releaseStore (s.onFix fun f => { f with storeWait := f.storeWait ++ [x] })

/-- Write one object of the store (R176). -/
def storeObject (key data : Bytes) (s : State) : State := changeStore (key, some data) s

/-- Remove an object of the store. -/
def dropObject (s : State) (key : Bytes) : State := changeStore (key, none) s

/-- Is an object of the store durable: has its record committed, with no change of it under way? -/
def stored (s : State) (key : Bytes) : Bool := (findKey s storeNsid key).isSome && !storeBusy s key

/-- LAY's own work fails: a change of the store waits to begin again, a copied extent is left where it is (R153). -/
def failOwn (i : Nat) (s : State) : State :=
  let e := entryOf s i
  let s := dropOwn i s
  if e.moves.isSome then s
  else s.onFix fun f => { f with storeWait := (e.cap.key, if e.cap.opc = 0x81 then some e.data else none) :: f.storeWait }

/-- A command for which no room is found completes as R136 gives. -/
def noSpace (i : Nat) (why : NoSpace) (s : State) : State :=
  let nsid := (entryOf s i).cap.nsid
  match why with
  | .notReady => toPosting i stNotReady 0 s
  | .chunks => toPosting i stNoSpace 0 (emit 0x571 0x70E 3 (nsid * 16 + 0) s)
  | .sets => toPosting i stNoSpace 0 (emit 0x571 0x70E 3 (nsid * 16 + 1) s)
  | .map => toPosting i stNoSpace 0 (emit 0x571 0x70E 3 (nsid * 16 + 2) s)

/-- Rewrite a command's uncommitted rows in new sets (R138 step 3a, R145): the old rows are released, the work counts as
redone, and units already encoded are written again. -/
def rewriteRows (i : Nat) (s : State) : State :=
  let e := entryOf s i
  let again := e.state == .drive || e.state == .journal
  let s := s.onLay fun l => { l with journal := l.journal.filter fun r => !(r.owner == some i && !r.committed) }
  let s := redo i (releaseAllocs e.allocs (onEntry i (fun e => { e with
    allocs := [], unitsOut := [], crcs := [], state := if again then .encoding else e.state }) s))
  if e.moves.isSome then failOwn i s
  else
  match allocateFor e.cap s with
  | .error why => if ownFrom ≤ i then failOwn i s else noSpace i why s
  | .ok (s, as) =>
    let s := onEntry i (fun e => { e with allocs := as }) s
    if again then submitUnits i s else s

/-- The entries whose rows are in a set that meets a test, not yet submitted to the journal. -/
def writersIn (s : State) (p : Nat → Bool) : List Nat :=
  entriesWhere s fun e => !e.submitted && e.state != .posting && e.allocs.any fun a => p a.set

/-- The sets that are not FREE and have a member on a drive, lost or not. -/
def setsOn (s : State) (slot : Nat) : List Nat :=
  s.lay.sets.keysWhere fun _ r => r.state != .free && r.members.any fun m => m.slot == slot

/-- Another drive in service takes a copy of a record that failed on a drive (R138 step 3b); with none the record's command
completes with Namespace Not Ready, a record without a command waits, and a committed one keeps its other copies. -/
def moveCopy (jseq slot : Nat) (s : State) : State :=
  match recOf s jseq with
  | none => s
  | some r =>
    let others := (slotsInService s).filter fun d => d != slot && !(r.copies.any fun c => c.slot == d)
    let idx := (r.copies.findIdx? fun c => c.slot == slot).getD 0
    match others with
    | d :: _ =>
      let (s, c) := writeCopy r idx d s
      onRec jseq (fun r => { r with copies := r.copies.map fun x => if x.slot = slot then c else x }) s
    | [] =>
      match r.owner with
      | some i =>
        let e := entryOf s i
        let s := s.onLay fun l => { l with journal := l.journal.filter fun x => x.jseq != jseq }
        if ownFrom ≤ i then failOwn i s
        else
        let s := releaseAllocs e.allocs (onEntry i (fun e => { e with allocs := [] }) s)
        if e.ended then freeEntry i .done s else toPosting i stNotReady 0 s
      | none =>
        if r.committed then onRec jseq (fun r => { r with copies := r.copies.filter fun c => c.slot != slot }) s
        else
        let s := s.onLay fun l => { l with journal := l.journal.filter fun x => x.jseq != jseq }
        s.onLay fun l => { l with deferred := l.deferred ++ [{ r with copies := [] }] }

/-- A copy write of a record failed because its drive is lost: a command with a unit on the drive is rewritten (3a), any
other record moves its copy (3b). -/
def copyFailed (slot : Nat) (s : State) (jseq : Nat) : State :=
  match recOf s jseq with
  | none => s
  | some r =>
    match r.owner with
    | some i =>
      if (entryOf s i).allocs.any fun a => (s.lay.sets.at a.set).members.any fun m => m.slot == slot then rewriteRows i s
      else moveCopy jseq slot s
    | none => moveCopy jseq slot s

/-- A checkpoint copy's write failed (R144): another drive in service without a copy takes it, or the checkpoint fails. -/
def ckptCopyFailed (slot : Nat) (s : State) : State :=
  let c := s.lay.ckpt
  if !(c.busy && c.pendingSlots.contains slot) then s
  else
    let others := (slotsInService s).filter fun d => d != slot && !(c.pendingSlots.contains d) && !(c.doneSlots.contains d)
    match others with
    | d :: _ =>
      let s := s.onLay fun l => { l with ckpt := { c with pendingSlots := c.pendingSlots.map fun x => if x = slot then d else x } }
      drvSubmit d false (.driveWrite d (regionLba c.regionB) c.image false) s
    | [] =>
      let s := s.onLay fun l => { l with ckpt := { c with
        busy := false, pendingSlots := [], doneSlots := [], image := [], next := default } }
      emit 0x574 0x70B 3 (c.gen % 2 ^ 36) (s.setFld F.LAY_CKPT_STAT_FAILED 1)

/-! Rebuild. -/

/-- The index of a set's first member lost with a drive whose rebuild has started (R147). -/
def firstLost (s : State) (r : SetRec) : Option Nat :=
  r.members.findIdx? fun m => m.lost && s.lay.rebuild.started.contains m.slot

/-- Insert a set in the order of R147: more lost members first, then the lower SET_ID. -/
def rebuildInsert (s : State) (id : Nat) : List Nat → List Nat
  | [] => [id]
  | x :: xs =>
    if lostCount (s.lay.sets.at x) < lostCount (s.lay.sets.at id) ∨
        (lostCount (s.lay.sets.at x) = lostCount (s.lay.sets.at id) ∧ id < x) then id :: x :: xs
    else x :: rebuildInsert s id xs

/-- The sets that rebuild may take, in the order of R147: SEALED, with a lost member of a drive whose rebuild has started,
and not themselves lost. -/
def rebuildOrder (s : State) : List Nat :=
  ((setsIn s .sealed).filter fun id =>
    let r := s.lay.sets.at id
    decide (lostCount r ≤ (s.lay.geoms.at r.geom).m) && r.members.any fun m => m.lost && s.lay.rebuild.started.contains m.slot).foldl
      (fun l id => rebuildInsert s id l) []

/-- The replacement of a lost member: the first drive of the ranking of R132 that holds no member of the set. -/
def replacementFor (s : State) (id : Nat) : Option Member :=
  ((ranking s).find? fun d => !((s.lay.sets.at id).members.any fun m => m.slot == d)).map (memberOn s)

/-- The sets with a member lost on a drive. -/
def lostOn (s : State) (slot : Nat) : List Nat :=
  s.lay.sets.keysWhere fun _ r => r.state != .free && r.members.any fun m => m.lost && m.slot == slot

/-- A lost drive none of whose sets is left to rebuild: REBUILD_DONE (R147). -/
def rebuildEnds (s : State) : State :=
  (s.lay.rebuild.started.filter fun d => (lostOn s d).isEmpty).foldl (fun s d =>
    let n := s.lay.rebuild.doneBy.at d
    let s := s.onLay fun l => { l with rebuild := { l.rebuild with
      started := l.rebuild.started.filter (· != d), doneBy := l.rebuild.doneBy.put d 0 } }
    emit 0x572 0x703 1 (n * 256 + d) s) s

/-- Rebuild takes the next set that finds a replacement chunk; sets that find none wait, and SPARE_EXHAUSTED tells how many
(R147, R148). -/
def nextRebuild (s : State) : State :=
  if s.lay.rebuild.target.isSome then s
  else
    let order := rebuildOrder s
    let stuck := (order.filter fun id => (replacementFor s id).isNone).length
    let s := if s.lay.rebuild.waiting < stuck then emit 0x572 0x705 3 (stuck * 256) s else s
    let s := s.onLay fun l => { l with rebuild := { l.rebuild with waiting := stuck } }
    match order.find? fun id => (replacementFor s id).isSome with
    | none => rebuildEnds s
    | some id =>
      match replacementFor s id, firstLost s (s.lay.sets.at id) with
      | some m, some n =>
        takeChunk (s.onLay fun l => { l with rebuild := { l.rebuild with target := some (id, n, m) } }) m
      | _, _ => s

/-- Rebuild of a lost drive starts while AUTO_REBUILD is 1 (R147). -/
def startRebuild (slot : Nat) (s : State) : State :=
  if s.fld F.LAY_CFG_AUTO_REBUILD = 0 ∨ s.lay.rebuild.started.contains slot then s
  else
    let s := s.onLay fun l => { l with rebuild := { l.rebuild with started := l.rebuild.started ++ [slot], doneRows := [] } }
    nextRebuild (emit 0x572 0x702 1 slot s)

/-- A rebuild whose replacement or set is gone gives its chunk back; a membership record on its way stands for nothing. -/
def dropTarget (p : Nat → Nat → Member → Bool) (s : State) : State :=
  match s.lay.rebuild.target with
  | some (id, n, m) =>
    if p id n m then releaseChunk (s.onLay fun l => { l with rebuild := { l.rebuild with target := none, written := false } }) m
    else s
  | none => s

/-! Loss of a drive. -/

/-- LAY loses a drive (R145): its members are lost, OPEN sets with a member on it start sealing, uncommitted rows of
commands in flight are rewritten in new sets, reads are decoded, journal and checkpoint copies move, sets with more than m
lost members are lost (R149), ANA follows (R49) and rebuild starts (R147). A drive that was refused, and is no drive of the
table, leaves STATE 0 (R164). -/
def layDriveLost (slot : Nat) (s : State) : State :=
  let d := s.lay.drives.at slot
  if d.state = 4 ∧ d.chunkCount = 0 then onDrive slot (fun _ => default) s
  else if d.state ≠ 1 ∧ d.state ≠ 3 then s
  else
    let sets := setsOn s slot
    let before := sets.filter fun id => decide ((setGeom s id).m < lostCount (s.lay.sets.at id))
    let s := onDrive slot (fun d => { d with state := 2, joining := false }) s
    let s := emit 0x572 0x701 3 (sets.length * 256 + slotTold s slot) s
    let s := sets.foldl (fun s id => onSet id (fun r => { r with
      members := r.members.map fun m => if m.slot = slot then { m with lost := true } else m }) s) s
    let s := sets.foldl (fun s id => startSeal id 3 s) s
    let s := dropTarget (fun _ _ m => m.slot == slot) s
    let hit := writersIn s fun id => sets.contains id
    let hit := hit.filter fun i =>
      let e := entryOf s i
      e.state != .drive || e.unitsOut.any fun w => w.slot == slot
    let s := hit.foldl (fun s i => rewriteRows i s) s
    let js := (s.lay.journal.filter fun r => r.copies.any fun c => c.slot == slot && !c.done).map (·.jseq)
    let s := js.foldl (copyFailed slot) s
    let s := ckptCopyFailed slot s
    let readers := entriesWhere s fun e => e.readsOut.any fun w => w.slot == slot
    let s := readers.foldl (fun s i =>
      advanceRead i (onEntry i (fun e => { e with readsOut := e.readsOut.filter fun w => w.slot != slot }) s)) s
    let gone := (setsOn s slot).filter fun id =>
      decide ((setGeom s id).m < lostCount (s.lay.sets.at id)) && !before.contains id
    let s := gone.foldl (fun s id => emit 0x572 0x706 4 id s) s
    startRebuild slot (updateAna s)

/-! Return, format and joining. -/

/-- A superblock (R156). -/
def superblock (s : State) (slot : Nat) (d : Drive) : Bytes :=
  let b := padTo 4092 ([0x54, 0x57, 0x52, 0x43, 0x53, 0x42, 0x30, 0x31] ++ leBytes 4 1 ++ leBytes 4 0 ++
    padTo 16 (s.ctl.shelfUuid.take 16) ++ leBytes 16 d.uuid ++ leBytes 1 slot ++ leBytes 1 (copiesC s) ++ leBytes 6 0 ++
    leBytes 8 d.lbaCount ++ leBytes 8 (dataStart d.chunkCount) ++ leBytes 4 d.chunkCount ++ leBytes 4 0 ++
    leBytes 8 s.now ++ leBytes 8 d.sbGen)
  b ++ leBytes 4 (crc32c b)

/-- A drive known under one number is kept under another: its record, its members, and the journal copies on it. -/
def moveDrive (old new : Nat) (s : State) : State :=
  if old = new then s
  else
    let key := fun (k : Nat) => if k = old then new else k
    let set := fun (r : SetRec) => { r with members := r.members.map fun m => { m with slot := key m.slot } }
    let d := s.lay.drives.at old
    s.onLay fun l => { l with
      drives := (l.drives.put old default).put new d
      sets := l.sets.mapAll fun _ r => set r
      ringPos := (l.ringPos.put old 0).put new (l.ringPos.at old)
      journal := l.journal.map fun r => { r with
        copies := r.copies.map fun c => { c with slot := key c.slot }
        setRec := r.setRec.map fun x => (x.1, x.2.1, set x.2.2) }
      ckpt := { l.ckpt with
        base := { l.ckpt.base with sets := l.ckpt.base.sets.mapAll fun _ r => set r }
        next := { l.ckpt.next with sets := l.ckpt.next.sets.mapAll fun _ r => set r } }
      rebuild := { l.rebuild with
        started := l.rebuild.started.map key, doneBy := (l.rebuild.doneBy.put old 0).put new (l.rebuild.doneBy.at old) } }

/-- Is the drive kept under a number one of the drive table (R150)? -/
def Drive.known (d : Drive) : Bool := d.chunkCount != 0

/-- Another drive stands in the slot of an absent drive of the table, which is kept past the slots from now on (R150). -/
def clearSlot (slot : Nat) (s : State) : State :=
  if (s.lay.drives.at slot).known then moveDrive slot (s.lay.drives.gap 48) s else s

/-- A free place of the drive table: the slot's own, or the lowest (R159). -/
def freeIndex (s : State) (slot : Nat) : Option Nat :=
  (slot :: List.range 48).find? fun i => (driveAt s i).isNone

/-- Format a drive and let it join the pool: both superblock copies with a random DRIVE_UUID, STATE 1, no member until the
checkpoint that starts now is durable (R150, R155, R156). Only drives of at least 1 TiB are formatted (R154). -/
def formatDrive (slot lbaCount : Nat) (s : State) : State :=
  match freeIndex s slot with
  | none => s
  | some i =>
    if lbaCount * 4096 < 2 ^ 40 then s
    else
      let s := clearSlot slot s
      let d : Drive := { (default : Drive) with
        index := i, uuid := s.freeVal.toNat % 2 ^ 128, state := 1, lbaCount := lbaCount, chunkCount := chunkCountOf lbaCount
        joining := true, sbGen := 1 }
      let s := onDrive slot (fun _ => d) s.drawn
      let s := s.onLay fun l => { l with ringPos := l.ringPos.put slot 0 }
      let s := drvWrite slot false 0 (superblock s slot d) s
      let s := drvWrite slot false (lbaCount - 256) (superblock s slot d) s
      nextRebuild (releaseDeferred (startCheckpoint s))

/-- The number under which the drive of a UUID is kept (R150). -/
def indexOfUuid (s : State) (uuid : Nat) : Option Nat :=
  (s.lay.drives.keysWhere fun _ d => d.uuid == uuid && d.known).head?

/-- DRV hands a ready drive to LAY (R150): `sb` is its superblock, none where it has no valid one, else whether it names
this shelf, and its DRIVE_UUID. Until the shelf's state is known, and on a unit that is not active, it waits (`offerDrives`). -/
def layDriveReady (slot lbaCount : Nat) (sb : Option (Bool × Nat)) (s : State) : State :=
  let refused := fun (foreign : Bool) => onDrive slot (fun _ => { (default : Drive) with
    state := 4, lbaCount := lbaCount, foreign := foreign }) (clearSlot slot s)
  if !s.lay.replayEnded || !isActive s then s
  else match sb with
  | none => if s.fld F.LAY_CFG_AUTO_FORMAT = 1 then formatDrive slot lbaCount s else refused false
  | some (false, _) => refused true
  | some (true, uuid) =>
    match indexOfUuid s uuid with
    | none => refused true
    | some old =>
      let s := if old = slot then s else moveDrive old slot (clearSlot slot s)
      if (s.lay.drives.at slot).state = 1 then s
      else onDrive slot (fun d => { d with state := 3, foreign := false, lbaCount := lbaCount }) s

/-- The drives in READY that LAY has not taken up yet are handed to it. -/
def offerDrives (s : State) : State :=
  (s.drv.ports.keysWhere fun _ p => p.state == 5).foldl (fun s n =>
    let d := s.lay.drives.at n
    if d.state = 0 ∨ d.state = 2 then layDriveReady n (portOf s n).lbaCount (portOf s n).superblock s else s) s

/-- The chunks of a drive that sets hold. -/
def chunksHeld (s : State) (slot : Nat) : List Nat :=
  (s.lay.sets.filter fun e => e.2.state != .free).flatMap fun e =>
    (e.2.members.filter fun m => m.slot == slot).map (·.chunk)

/-- A returning drive enters service (R150): every set that still marks its member as lost takes the chunk back under a new
generation, chunks whose set keeps its replacement become free. -/
def driveReturns (slot : Nat) (s : State) : State :=
  if (s.lay.drives.at slot).state ≠ 3 then s
  else
    let back := lostOn s slot
    let flying := s.lay.rebuild.target.bind fun x => if s.lay.rebuild.written then some x.1 else none
    let s := dropTarget (fun id n _ =>
      ((s.lay.sets.at id).members.getD n default).slot == slot) s
    let s := onDrive slot (fun d => { d with state := 1 }) s
    let s := back.foldl (fun s id =>
      let s := onSet id (fun r => { r with
        gen := r.gen + (if flying = some id then 2 else 1)
        members := r.members.map fun m => if m.slot = slot then { m with lost := false } else m }) s
      submitRecord (setRecord 4 id s) s) s
    let s := onDrive slot (fun d => { d with used := chunksHeld s slot }) s
    let s := s.onLay fun l => { l with rebuild := { l.rebuild with
      started := l.rebuild.started.filter (· != slot), doneBy := l.rebuild.doneBy.put slot 0 } }
    nextRebuild (releaseDeferred (updateAna (emit 0x572 0x704 1 (back.length * 256 + slot) s)))

/-- Every copy of the checkpoint is complete: it is durable (R143). A drive that joined meanwhile starts the next one (R150). -/
def ckptDurable (s : State) : State :=
  let c := s.lay.ckpt
  let s := s.onLay fun l => { l with
    ckpt := { c with busy := false, regionB := !c.regionB, durableGen := c.gen, durableJseq := c.jseq, pendingSlots := []
                     doneSlots := [], forDrives := [], image := [], next := default, base := c.next
                     lastS := min 65535 ((s.now - c.startGts) / 1000000000) }
    drives := l.drives.mapAll fun i d => if c.forDrives.contains i then { d with joining := false } else d }
  let s := nextRebuild (releaseStore (releaseWaiting (retire (emit 0x574 0x70A 0 (c.gen % 2 ^ 36) s))))
  if s.lay.drives.any fun e => e.2.joining then startCheckpoint s else s

end Sys2Proof.Machine
end

