-- ==== Sys2Proof/Machine/Pages.lean ====
section
/-! DEFINITION. What Property Get, Identify and Get Log Page return (R47 to R49, R68, R69, R74, R79, R162). Where the
specification names a field and not its place, the place is that of the NVMe base specification (notes/assumptions/12.md). -/

namespace Sys2Proof.Machine

/-- Bytes placed at an offset of a page. -/
def place (page : Bytes) (at_ : Nat) (bs : Bytes) : Bytes :=
  page.take at_ ++ bs ++ page.drop (at_ + bs.length)

/-- A page of `n` bytes with the given fields, each (offset, width, value), every other byte 0. -/
def pageOf (n : Nat) (fields : List (Nat × Nat × Nat)) : Bytes :=
  fields.foldl (fun p f => place p f.1 (leBytes f.2.1 f.2.2)) (List.replicate n 0)

/-- Does CSTS.RDY read 1: READY, SHUTTING and SHUTDOWN (R69)? -/
def Controller.ready (c : Controller) : Bool := c.state == 2 || c.state == 3 || c.state == 4

/-- CSTS: RDY, CFS, SHST. -/
def Controller.csts (c : Controller) : Nat := b2n c.ready + 2 * b2n c.cfs + 4 * c.shst

/-- CAP: MQES 1,023, contiguous queues required, TO 2 (R47), both command sets. -/
def capValue : Nat := 1023 + 2 ^ 16 + 2 * 2 ^ 24 + 2 ^ 37 + 2 ^ 43

/-- A controller property (R69); none where the offset names none. -/
def property (c : Controller) (offset : Nat) : Option Nat :=
  match offset with
  | 0x00 => some capValue
  | 0x08 => some 0x00020000
  | 0x14 => some c.cc
  | 0x1C => some c.csts
  | _ => none

/-- The power state descriptors' MP in units of 0.01 W and EXLAT in µs (R74). -/
def psDescriptors : List (Nat × Nat) := [(42000, 0), (30000, 10), (20000, 2000), (11000, 50000), (4500, 2000000)]

/-- Identify of a controller (R47, R68, R74, R78). -/
def identifyController (cntlid : Nat) : Bytes :=
  pageOf 4096 ([(77, 1, 12), (78, 2, cntlid), (258, 1, 7), (259, 1, 7), (263, 1, 4), (316, 2, 20), (320, 2, 1),
    (512, 1, 0x66), (513, 1, 0x44), (525, 1, 0), (526, 2, 4095), (528, 2, 4095), (1792, 4, 260), (1796, 4, 1), (1803, 1, 16)] ++
    ((List.range 5).zip psDescriptors).flatMap fun p => [(2048 + 32 * p.1, 2, p.2.1), (2056 + 32 * p.1, 4, p.2.2)])

/-- The blocks of a namespace: its record's capacity is in LBAs (R159). -/
def Namespace.blocks (n : Namespace) : Nat := n.capacity

/-- Identify of a namespace (R48, R68): two formats, NSFEAT bit 1, NAWUN and NAWUPF of 16 MiB, NABSN 0. -/
def identifyNamespace (nsid : Nat) (n : Namespace) : Bytes :=
  place (pageOf 4096 [(0, 8, n.blocks), (8, 8, n.blocks), (16, 8, n.blocks), (24, 1, 2), (25, 1, 1),
    (26, 1, if n.lbaShift = 12 then 0 else 1), (34, 2, maxXfer / 2 ^ n.lbaShift - 1),
    (36, 2, maxXfer / 2 ^ n.lbaShift - 1), (38, 2, 0), (92, 4, nsid), (130, 1, 12), (134, 1, 9)]) 104 (padTo 16 n.nguid)

/-- The namespaces in service that controllers expose: all but that of the fixity store (R176). -/
def nsInService (s : State) : List Nat := s.cmd.namespaces.keysWhere fun id n => n.valid && id != 0xFFFFFFFE

/-- An Identify (R45): a controller, a namespace, or the list of namespaces above an NSID; none is Invalid Field. -/
def identifyData (s : State) (cntlid cns nsid : Nat) : Option Bytes :=
  match cns with
  | 0 => if (s.cmd.namespaces.at nsid).valid then some (identifyNamespace nsid (s.cmd.namespaces.at nsid)) else none
  | 1 => some (identifyController cntlid)
  | 2 => some (padTo 4096 ((((nsInService s).filter fun n => decide (nsid < n)).take 1024).flatMap (leBytes 4)))
  | _ => none

/-- The ANA state codes of log page 0x0C. -/
def anaCode (st : Nat) : Nat := if st = 0 then 1 else if st = 1 then 3 else 4

/-- Log page 0x0C: one group per namespace, its ID the NSID (R49). -/
def anaLog (s : State) : Bytes :=
  let ns := nsInService s
  leBytes 8 s.cmd.anaChanges ++ leBytes 2 ns.length ++ leBytes 6 0 ++
    ns.flatMap fun n => leBytes 4 n ++ leBytes 4 1 ++ leBytes 8 s.cmd.anaChanges ++
      padTo 16 (leBytes 1 (anaCode (s.cmd.namespaces.at n).ana)) ++ leBytes 4 n

/-- Log page 0x06: the test in progress and the last 20 results, latest first (R79). -/
def selfTestLog (s : State) : Bytes :=
  padTo 564 (leBytes 1 s.cmd.test.code ++ leBytes 1 (testPercent s) ++ leBytes 2 0 ++
    (s.cmd.test.log.take 20).flatMap fun r => padTo 28 (leBytes 1 (r.1 * 16 + r.2)))

end Sys2Proof.Machine
end

