-- ==== Sys2Proof/Machine/Admission.lean ====
section
/-! DEFINITION. Admission of I/O commands (R45, R48, R52, R53) and the start of their work after a grant (R51). -/

namespace Sys2Proof.Machine

/-- The start of every I/O capsule. -/
def capsule (h : IoHdr) (opc xlen : Nat) : Capsule :=
  { (default : Capsule) with cntlid := h.cntlid, sqid := h.sqid, cid := h.cid, nsid := h.nsid, opc := opc, xlen := xlen }

/-- A capsule with its descriptors and in-capsule data. -/
def Capsule.withData (c : Capsule) (sgl : List Sgl) (inline : Bytes) : Capsule := { c with sgl := sgl, inline := inline }

/-- The bytes of a range of blocks. -/
def blockBytes (s : State) (nsid nlb : Nat) : Nat := nlb * 2 ^ (s.cmd.namespaces.at nsid).lbaShift

/-- Does an opcode move host data: write, read, compare, store, retrieve, list? -/
def movesData (opc : Nat) : Bool := [0x01, 0x02, 0x05, 0x81, 0x82, 0x86].contains opc

/-- Does an opcode name a key: store, retrieve, delete, exist? -/
def namesKey (opc : Nat) : Bool := [0x81, 0x82, 0x90, 0x94].contains opc

/-- The field and namespace tests of a command (R45 to R49, R68): the status it completes with, or none. -/
def fieldTest (s : State) (c : Capsule) : Option Status :=
  let n := s.cmd.namespaces.at c.nsid
  if (c.opc = 0x00 ∨ c.opc = 0x80) ∧ c.nsid = 0xFFFFFFFF then none
  else if !n.valid ∨ c.nsid = storeNsid then some stInvalidField
  else if n.kv ≠ decide (0x80 ≤ c.opc) then some stInvalidField
  else if n.ana = 2 then some stPersistentLoss
  else if n.ana = 1 then some stInaccessible
  else if namesKey c.opc ∧ (c.key = [] ∨ 16 < c.key.length) then some stInvalidField
  else if c.opc = 0x81 ∧ maxXfer < c.xlen then some stTooLong
  else if movesData c.opc ∧ maxXfer < c.xlen then some stInvalidField
  else if (queueOf s c.cntlid c.sqid).pcie ∧ (c.sgl.any fun d => d.invalidate || d.rkey != 0) then some stSglType
  else if !(queueOf s c.cntlid c.sqid).pcie ∧ 16 < c.sgl.length then some stInvalidField
  else if movesData c.opc ∧ c.inline = [] ∧ (c.sgl.map (·.len)).sum < c.xlen then some stInvalidField
  else if c.inline ≠ [] ∧ (c.inline.length < c.xlen ∨ 4096 < c.inline.length) then some stInvalidField
  else if !n.kv ∧ c.ranges.any fun r => r.2 = 0 ∨ n.blocks < r.1 + r.2 then some stInvalidField
  else none

/-- Complete a capsule that holds no entry: its completion, measured as of any class 0 command (R61). -/
def completeCap (c : Capsule) (st : Status) (s : State) : State :=
  measure { (default : Entry) with cap := c } (post c.cntlid c.sqid c.cid st 0 (invKey c.sgl) s)

/-- A class 0 command that admission refuses (R53). -/
def refuseC0 (c : Capsule) (st : Status) (test : Nat) (s : State) : State :=
  let s := s.bumpI F.CMD_C0_STAT_REFUSED c.port 1
  completeCap c st (emit 0x561 0x601 1 (c.port * 2 ^ 30 + test * 2 ^ 28 + c.cntlid) s)

/-- A capsule that came in a Send keeps its cells in its slot, as owner class 4 (R104); one that a host put into its memory has
none. -/
def takeSlot (c : Capsule) (s : State) : State :=
  if (queueOf s c.cntlid c.sqid).pcie ∨ s.cmd.slots.any fun x => x.holds c then s
  else
    let (hs, s) := holdCells c.port 4 (cellsFor (64 + c.inline.length)) s
    s.onCmd fun m => { m with slots := m.slots ++ [⟨c.cntlid, c.sqid, c.cid, hs⟩] }

/-- A capsule joins those that wait for a grant. -/
def enqueueCap (c : Capsule) (s : State) : State :=
  (takeSlot c s).onCmd fun m => { m with queued := m.queued ++ [c] }

/-- The tests of a capsule in PS0: its opcode and attributes (R45), its fields, and the admission of class 0 (R52, R53,
CMD_CFG.C0_EN); then it waits for a grant. -/
def testCap (c : Capsule) (s : State) : State :=
  match c.refusal.or (fieldTest s c) with
  | some st => completeCap c st s
  | none =>
    if c.cls ≠ 0 then enqueueCap c s
    else
      match c0Test s c.port (portMbps s c.port) c.xlen with
      | some (st, test) => refuseC0 c st test s
      | none => enqueueCap c (c0Charge c.port (portMbps s c.port) (c.xlen + 64) s)

/-- A capsule reaches CMD: it starts a power-state exit (R76); a capsule of a controller that is not READY stays in its slot
(R69), and one that comes during an exit until PS0 is reached (R77); any other is tested. A capsule that names no queue, or
arrives in PS4, does nothing. -/
def admitCap (c : Capsule) (s : State) : State :=
  let q := queueOf s c.cntlid c.sqid
  if !q.exists_ ∨ s.cmd.ps = 4 then s
  else
    let cls := if q.cls = 0 ∧ s.fld F.CMD_CFG_C0_EN = 0 then 1 else q.cls
    let c := { c with
      port := q.port, cls := cls, gtsIn := s.now, noBound := s.cmd.ps != 0 || s.cmd.exiting
      late := (ctrlOf s c.cntlid).state != 2, hold := decide (2 ≤ s.cmd.act.step ∧ s.cmd.act.step ≤ 5) }
    let s := noteCapsule c (startExit s)
    if c.late then enqueueCap c s
    else if s.cmd.exiting then enqueueCap { c with untested := true } s
    else testCap c s

/-- PS0 is reached: the capsules that came during the exit are tested, in the order of arrival (R77). -/
def testWaiting (s : State) : State :=
  sweepSlots (s.cmd.queued.foldl (fun s c => if c.untested then testCap { c with untested := false } s else enqueueCap c s)
    (s.onCmd fun m => { m with queued := [] }))

/-- The parts of a block range from `pos` to `stop`, from the map entries that overlap it (R142). -/
def blockSegs (bs : Nat) (es : List MapEntry) : Nat → Nat → Nat → List Seg
  | 0, _, _ => []
  | fuel + 1, pos, stop =>
    if stop ≤ pos then []
    else
      match es.find? fun e => decide (e.start ≤ pos) && decide (pos < e.start + e.length) with
      | some e =>
        let q := min stop (e.start + e.length)
        ⟨false, (q - pos) * bs, e.set, e.firstRow, (e.offset + (pos - e.start)) * bs, e.extent⟩ :: blockSegs bs es fuel q stop
      | none =>
        let q := (es.filter fun e => decide (pos < e.start)).foldl (fun m e => min m e.start) stop
        ⟨true, (q - pos) * bs, 0, 0, 0, 0⟩ :: blockSegs bs es fuel q stop

/-- The parts of a read of blocks. -/
def readSegs (s : State) (nsid slba nlb : Nat) : List Seg :=
  let es := findBlocks s nsid slba nlb
  blockSegs (2 ^ (s.cmd.namespaces.at nsid).lbaShift) es (2 * es.length + 1) slba (slba + nlb)

/-- Does a key come before another in ascending byte order? -/
def keyBefore : Bytes → Bytes → Bool
  | [], [] => false
  | [], _ => true
  | _, [] => false
  | a :: as, b :: bs => decide (a.toNat < b.toNat) || (a == b && keyBefore as bs)

/-- Insert a key in ascending byte order. -/
def keyInsert (k : Bytes) : List Bytes → List Bytes
  | [] => [k]
  | x :: xs => if keyBefore k x then k :: x :: xs else x :: keyInsert k xs

/-- The keys of a namespace from a key on, in ascending byte order (R48). -/
def keysFrom (s : State) (nsid : Nat) (from_ : Bytes) : List Bytes :=
  (((s.lay.map.filter fun e => e.nsid == nsid && e.kv && !e.removed).map (·.key)).filter fun k =>
    !keyBefore k from_).foldl (fun l k => keyInsert k l) []

/-- A List's result of at most `len` bytes: a count, then each key with its length, padded to four bytes
(notes/assumptions/10.md). -/
def listBytes (keys : List Bytes) (len : Nat) : Bytes :=
  let r := keys.foldl (fun (p : Nat × Bytes × Bool) k =>
    let rec_ := leBytes 2 k.length ++ k
    let rec_ := padTo ((rec_.length + 3) / 4 * 4) rec_
    if p.2.2 ∨ len < 4 + p.2.1.length + rec_.length then (p.1, p.2.1, true) else (p.1 + 1, p.2.1 ++ rec_, false)) (0, [], false)
  (leBytes 4 r.1 ++ r.2.1).take len

/-- Fetch a command's host data: in-capsule data is at hand, a fabrics queue issues RDMA Reads, a PCIe queue reads through
HEP (R51, R99). -/
def fetchData (i : Nat) (s : State) : State :=
  let e := entryOf s i
  let q := queueOf s e.cap.cntlid e.cap.sqid
  let s := onEntry i (fun e => { e with
    state := .fetching, wait := .host, wanted := e.cap.xlen, hostStart := s.now, data := e.cap.inline }) s
  if e.cap.inline ≠ [] then s
  else if q.pcie then hepFetch i s
  else e.cap.sgl.foldl (fun s d => issueReads (d.len / 0x100000 + 1) q.conn d.va d.rkey d.len (i + 1) s) s

/-- The work of a granted command begins (R51, R142). -/
def startWork (i : Nat) (s : State) : State :=
  let e := entryOf s i
  let c := e.cap
  if movesData c.opc ∧ c.opc ≠ 0x86 ∧ !keyReady s c.nsid then
    toPosting i stInternal 0 (cipRefuse 2 (s.cmd.namespaces.at c.nsid).tenant 0 s)
  else
  match c.opc with
  | 0x01 | 0x81 =>
    match allocateFor c s with
    | .error why => noSpace i why s
    | .ok (s, as) =>
      let s := onEntry i (fun e => { e with allocs := as }) s
      if c.xlen = 0 then journalStep i (onEntry i (fun e => { e with digest := Config.sha256 [] }) s) else fetchData i s
  | 0x08 | 0x09 => if mapFull s (recordFor s c [] []).entries then noSpace i .map s else journalStep i s
  | 0x90 =>
    match findKey s c.nsid c.key with
    | none => toPosting i stKeyMissing 0 s
    | some _ => journalStep i s
  | 0x02 | 0x0C => advanceRead i (onEntry i (fun e => { e with segs := c.ranges.flatMap fun r => readSegs s c.nsid r.1 r.2 }) s)
  | 0x05 => fetchData i (onEntry i (fun e => { e with segs := c.ranges.flatMap fun r => readSegs s c.nsid r.1 r.2 }) s)
  | 0x82 =>
    match findKey s c.nsid c.key with
    | none => toPosting i stKeyMissing 0 s
    | some m =>
      let segs : List Seg := if m.empty then [] else [⟨false, (m.length + 4095) / 4096 * 4096, m.set, m.firstRow, 0, m.extent⟩]
      advanceRead i (onEntry i (fun e => { e with
        segs := segs, wanted := c.xlen, cap := { c with xlen := m.length } }) s)
  | 0x94 => toPosting i (if (findKey s c.nsid c.key).isSome then stOk else stKeyMissing) 0 s
  | 0x86 => startReturn i (listBytes (keysFrom s c.nsid c.key) c.xlen) 0 s
  | _ => toPosting i stOk 0 s

end Sys2Proof.Machine
end

