-- ==== Sys2Proof/Machine/Connections.lean ====
section
/-! DEFINITION. Connections and their ends: CM_REQ to CONTEXT_ERROR_TIMEOUT (R85 to R90), errors, chains that end with a
connection (R120). -/

namespace Sys2Proof.Machine

/-! Chains. -/

/-- The state with a chain changed. -/
def onChain (entry : Nat) (f : Chain → Chain) (s : State) : State :=
  s.onXpt fun x => { x with chains := x.chains.upd entry f }

/-- The state with a trigger entry changed. -/
def onTrigger (entry : Nat) (f : Trigger → Trigger) (s : State) : State :=
  s.onXpt fun x => { x with triggers := x.triggers.upd entry f }

/-- A chain with nothing in progress ends: FAILED if a request failed, DONE if none is left to start (R120). -/
def endChain (entry : Nat) (s : State) : State :=
  let c := s.xpt.chains.at entry
  if !(c.running && c.inProgress.isEmpty) then s
  else
    match c.failed, c.next with
    | some (status, index), _ =>
      let s := onChain entry (fun _ => default) (onTrigger entry (fun t => { t with state := 4 }) s)
      windowEnded entry (some (status, index)) (emit 0x555 0x50B 2 (status * 2 ^ 32 + index * 2 ^ 16 + entry) s)
    | none, none =>
      windowEnded entry none
        (emit 0x555 0x50A 0 entry (onChain entry (fun _ => default) (onTrigger entry (fun t => { t with state := 3 }) s)))
    | none, some _ => s

/-- A request of a chain fails: the requests not yet started are not executed (R120). -/
def failChain (entry status index : Nat) (s : State) : State :=
  endChain entry (onChain entry (fun c => { c with
    next := none, failed := if c.failed.isNone then some (status, index) else c.failed }) s)

/-- The status of R120 for a connection's end by a cause of R90. -/
def chainStatus (cause : Nat) : Nat := if cause = 3 then 1 else if cause = 1 ∨ cause = 2 then 2 else 7

/-- Is a request of the chain in progress on a connection? -/
def chainUses (s : State) (c : Chain) (qpn : Nat) : Bool :=
  c.inProgress.any fun p => (s.xpt.pool.at p.1).qpn == qpn && decide ((s.xpt.pool.at p.1).opcode ≤ 4)

/-- A connection error during a chain fails the chain (R120). -/
def failChainsOn (qpn cause : Nat) (s : State) : State :=
  (s.xpt.chains.keysWhere fun e c => c.running && (chainUses s c qpn || (s.xpt.triggers.at e).qpn == qpn)).foldl (fun s e =>
    let c := s.xpt.chains.at e
    let mine := c.inProgress.filter fun p => (s.xpt.pool.at p.1).qpn == qpn && decide ((s.xpt.pool.at p.1).opcode ≤ 4)
    let index := (mine.head?.map (·.2)).getD c.index
    failChain e (chainStatus cause) index
      (onChain e (fun c => { c with inProgress := c.inProgress.filter fun p => !mine.contains p }) s)) s

/-! Errors. -/

/-- Delete an I/O queue with its commands (R70); its connection is disconnected (R89). -/
def dropQueue (cntlid sqid : Nat) (s : State) : State :=
  let conn := (queueOf s cntlid sqid).conn
  let s := endQueueCommands cntlid sqid s
  localDisconnect conn (s.onCmd fun c => { c with queues := c.queues.put (qKey cntlid sqid) default })

/-- What CMD does when a bound connection is lost (R69, R90): the admin queue's takes the controller with it, an I/O queue's
its queue; `say` is whether CTRL_RESET tells of the queue. -/
def bindingLost (c : Context) (say : Bool) (s : State) : State :=
  if c.cntlid = 0xFFFF ∨ c.sqid = 0xFFFF then s
  else if c.sqid = 0 then deleteCtrl c.cntlid 4 s
  else if !(queueOf s c.cntlid c.sqid).exists_ then s
  else
    let s := dropQueue c.cntlid c.sqid s
    if say then ctrlReset c.cntlid 6 c.sqid s else s

/-- A connection in RTR or RTS enters ERROR (R89, R90), and with cause 8 one in DRAIN too (step 4a of R113): its work is flushed, a DREQ is sent, CONN_ERROR tells the cause, and
its queue or controller, its straddling messages and its chains end. -/
def connError (qpn cause : Nat) (s : State) : State :=
  let c := ctxOf s qpn
  if (ctxIndex qpn).isNone ∨ !(c.state = 2 ∨ c.state = 3 ∨ (c.state = 4 ∧ cause = 8)) then s
  else
    let s := onCtx qpn (fun c => { c with
      state := 5, sends := [], kept := [], work := [], workSent := 0, resume := [], readsOut := 0, timerGts := 0, rnrWait := false, sampleOn := false
      wRegion := none, wRkey := 0, wVa := 0, wLeft := 0, rxBuf := [], held := 0, unackedPkts := 0 }) s
    let s := emit 0x552 0x502 1 (cause * 2 ^ 32 + qpn) (s.send (.cmDreq qpn))
    failChainsOn qpn cause (endStraddles qpn (bindingLost c true s))

/-- Answer a request packet that is not accepted (R84). -/
def refuseRequest (qpn psn : Nat) (s : State) : State := connError qpn 5 (sendPacket qpn (.nakInvalid psn) s)

/-- DRAIN ends (R89): a bound queue loses its connection, the requests of chains on it are flushed, a DREP leaves and the
context is FREE. -/
def endDrain (qpn : Nat) (s : State) : State := drainedFree qpn (failChainsOn qpn 0 (bindingLost (ctxOf s qpn) false s))

/-- In DRAIN with no message in flight the context is free (R89). -/
def drainCheck (qpn : Nat) (s : State) : State :=
  let c := ctxOf s qpn
  if c.state = 4 ∧ !c.inFlight then endDrain qpn s else s

/-! Connection management. -/

/-- The lowest free context (R86; which one is the model's choice: notes/assumptions/14.md). -/
def freeCtx (s : State) : Option Nat :=
  let i := s.xpt.ctx.gap 0
  if i < 2097152 then some i else none

/-- Is a REQ acceptable (R82, R85): a path MTU of 1,024 bytes or more, a migration service only from a listed address, any other
with the NVMe-oF fields? -/
def reqOk (s : State) (r : CmReq) : Bool :=
  decide (3 ≤ r.pmtu) && if r.migration then s.xpt.migPeers.contains r.remoteIp else r.recfmt == 0

/-- The receive buffers that firmware posts on a migration connection at its set-up (R104; notes/assumptions/18.md). -/
def migBuffers : Nat := 16

/-- CM_REQ (R85 to R89): REP with a new context that goes through INIT to RTR, or REJ. DESIGN CHOICE (notes/assumptions/92.md): a
REQ that is not acceptable is answered with reason 28, CRQSIZE is the REQ's HSQSIZE, and TRIG_ONLY, which no rule sets, is
clear. -/
def execCmReq (r : CmReq) (s : State) : Result :=
  if !reqOk s r then .next (s.send (.cmRej 28))
  else
    match freeCtx s with
    | none => .next (emit 0x556 0x501 2 (ctxInUse s) (s.send (.cmRej 1)))
    | some i =>
      let psn := s.freeVal.toNat % 2 ^ 24
      let depth := min (s.fld F.XPT_CFG_INIT_DEPTH) r.resources
      let pmtu := min r.pmtu (s.fld F.XPT_CFG_PMTU_MAX)
      let c : Context := { (default : Context) with
        state := 2, destQpn := r.qpn, pmtu := pmtu, remoteIp := r.remoteIp, remoteMac := r.remoteMac, vlan := r.vlan
        lport := r.lport, dscp := r.dscp, sport := r.sport, tenant := r.tenant, cntlid := 0xFFFF, sqid := 0xFFFF
        initDepth := depth, spsn := psn, unaPsn := psn, epsn := r.psn % 2 ^ 24
        retryLeft := s.fld F.XPT_RETRY_CFG_RETRY_CNT, rnrLeft := s.fld F.XPT_RETRY_CFG_RNR_RETRY
        rate := portMbps s r.lport / 100, minRate := minRate s, migration := r.migration
        rqTail := if r.migration then migBuffers else 0 }
      let s := s.drawn.onXpt fun x => { x with ctx := x.ctx.put i c }
      let s := raiseHwm s
      .next (s.send (.cmRep (0x200000 + i) psn pmtu depth 16 r.hsqsize))

/-- CM_RTU: RTR becomes RTS (R89). -/
def execCmRtu (qpn : Nat) (s : State) : Result :=
  if (ctxOf s qpn).state = 2 then .next (onCtx qpn (fun c => { c with state := 3 }) s) else .next s

/-- CM_DREQ: RTS becomes DRAIN, and ends at once with nothing in flight (R89). -/
def execCmDreq (qpn : Nat) (s : State) : Result :=
  if (ctxOf s qpn).state = 3 then .next (drainCheck qpn (onCtx qpn (fun c => { c with state := 4 }) s)) else .next s

/-- CM_DREP: a context in ERROR is released (R89). -/
def execCmDrep (qpn : Nat) (s : State) : Result :=
  if (ctxOf s qpn).state = 5 then .next (freeContext qpn s) else .next s

/-- CONTEXT_DRAIN_TIMEOUT (R89). -/
def execContextDrainTimeout (qpn : Nat) (s : State) : Result :=
  if (ctxOf s qpn).state = 4 then .next (endDrain qpn s) else .next s

/-- CONTEXT_ERROR_TIMEOUT (R89). -/
def execContextErrorTimeout (qpn : Nat) (s : State) : Result :=
  if (ctxOf s qpn).state = 5 then .next (freeContext qpn s) else .next s

end Sys2Proof.Machine
end

