-- ==== Sys2Proof/Machine/Admin.lean ====
section
/-! DEFINITION. Controllers and admin commands: CONNECT to DEVICE_SELF_TEST_ABORT, INVALID_COMMAND_OPCODE, DRAIN_FINISHED,
KEEP_ALIVE_TIMEOUT (R45 to R49, R64 to R71, R78). -/

namespace Sys2Proof.Machine

/-- An admin or Fabrics command reaches CMD: in PS1 to PS3 it starts the exit to PS0 (R76), and while an exit runs it waits for
PS0 (R77; `runHeld`); in PS4 the ports drop it (R76). -/
def hold (i : Instr) (run : State → State) (s : State) : State :=
  if s.cmd.ps = 4 then s
  else if s.cmd.ps = 0 ∧ !s.cmd.exiting then run s
  else { startExit s with waiting := s.waiting ++ [i] }

/-- A write of CC: a Property Set is a command as `hold` takes it; a write of a PCIe function's register has no completion and
acts at once, starting the exit (R76, R315). -/
def holdSet (cid : Option Nat) (i : Instr) (run : State → State) (s : State) : State :=
  if cid.isSome then hold i run s else run (startExit s)

/-- The index of a Host NQN in the access list of the image (R46, R80). -/
def hostIndex (s : State) (nqn : Bytes) : Option Nat := s.cmd.hostNqns.findIdx? (· == nqn)

/-- The controllers that exist. -/
def controllers (s : State) : List (Nat × Controller) := s.cmd.ctrls.filter fun e => e.2.exists_

/-- The Host NQNs with at least one controller. -/
def hostsInUse (s : State) : Nat := (((controllers s).map fun e => e.2.host).eraseDups).length

/-- The next CNTLID: after the one most recently assigned, in 1 to 0xFEFF, skipping values in use (R46). -/
def nextCntlid (s : State) : Nat :=
  ((List.range 0xFEFF).map fun i => (s.cmd.lastCntlid + i) % 0xFEFF + 1).find? (fun c => !(ctrlOf s c).exists_) |>.getD 1

/-- The tests of R46 in the order listed, and the standards' tests the table leaves out; until BOOT_DONE every Connect is
answered Connect Controller Busy (R457). PRESUMED: a Connect to an I/O queue that exists is a Command Sequence Error
(notes/assumptions/12.md). -/
def connectTest (s : State) (nqn : Bytes) (qid size cntlid : Nat) : Option Status :=
  if s.boot.step < 10 then some stConnBusy
  else
  match hostIndex s nqn with
  | none => some stConnHost
  | some h =>
    let k := ctrlOf s cntlid
    if (qid = 0 ∧ 32 < size) ∨ (qid ≠ 0 ∧ 1024 < size) then some stConnParam
    else if qid ≠ 0 then
      if !k.exists_ ∨ k.state ≠ 2 then some stSequence
      else if 128 < qid ∨ k.queues < qid then some stConnParam
      else if (queueOf s cntlid qid).exists_ then some stSequence
      else none
    else if cntlid ≠ 0xFFFF then some stConnParam
    else if 4096 ≤ hostsInUse s ∧ !((controllers s).any fun e => e.2.host == h) then some stConnBusy
    else if 8192 ≤ (controllers s).length then some stConnBusy
    else if 64 ≤ ((controllers s).filter fun e => e.2.host == h).length then some stConnBusy
    else none

/-- The class of an I/O queue by the image's class map; a queue it does not name is class 2 (R52). -/
def classOf (s : State) (host qid : Nat) : Nat :=
  match s.cmd.classMap.find? fun m => m.host == host && decide (m.first ≤ qid) && decide (qid ≤ m.last) with
  | some m => m.cls
  | none => 2

/-- Answer a Connect on its connection. -/
def answerConnect (conn cntlid qid cid : Nat) (st : Status) (s : State) : State :=
  let s := s.send (.completion cntlid qid cid st cntlid)
  sendResponse conn cid st cntlid none s

/-- May a connection carry a Connect: it accepts inbound packets (R89) and serves no migration (R86)? -/
def Context.carriesConnect (c : Context) : Bool := (c.state == 2 || c.state == 3) && !c.migration

/-- The effect of CONNECT (R46). A connection carries one queue (R86). PRESUMED: a Connect on a connection that carries one
already is a Command Sequence Error (notes/assumptions/12.md). -/
def runConnect (conn : Nat) (nqn : Bytes) (qid size cntlid cid kato : Nat) (s : State) : State :=
  if !(ctxOf s conn).carriesConnect then s
  else match (if (ctxOf s conn).sqid = 0xFFFF then connectTest s nqn qid size cntlid else some stSequence) with
  | some st =>
    let h := (hostIndex s nqn).getD 0xFFF
    answerConnect conn cntlid qid cid st (emit 0x560 0x60C 1 (st.sc * 2 ^ 16 + h % 4096) s)
  | none =>
    let h := (hostIndex s nqn).getD 0
    let port := (ctxOf s conn).lport
    let id := if qid = 0 then nextCntlid s else cntlid
    let cls := if qid = 0 then 2 else classOf s h qid
    let new : Controller := { (default : Controller) with
      exists_ := true, host := h, kato := kato, kaStart := s.now, queues := 128, pm := 3 }
    let s := if qid = 0 then (onCtrl id (fun _ => new) s).onCmd fun c => { c with lastCntlid := id } else s
    let q : Queue := { (default : Queue) with exists_ := true, size := size, cls := cls, port := port, conn := conn }
    let s := s.onCmd fun c => { c with queues := c.queues.put (qKey id qid) q }
    let s := onCtx conn (fun c => { c with cntlid := id, sqid := qid, class0 := decide (qid ≠ 0 ∧ cls = 0) }) s
    answerConnect conn id qid cid stOk s

/-- CONNECT (R46). -/
def execConnect (conn : Nat) (nqn : Bytes) (qid size cntlid cid kato : Nat) (s : State) : Result :=
  .next (hold (.connect conn nqn qid size cntlid cid kato) (runConnect conn nqn qid size cntlid cid kato) s)

/-- The effect of PROPERTY_GET (R69); a Fabrics command to a PCIe controller is an invalid opcode (R320), as is the next. -/
def runPropertyGet (a : Admin) (offset : Nat) (s : State) : State :=
  if (ctrlOf s a.cntlid).fn.isSome then postAdmin a stInvalidOpcode 0 s
  else
  match property (ctrlOf s a.cntlid) offset with
  | some v => postAdmin a stOk 0 (s.send (.adminData a.cntlid a.cid (leBytes 8 v)))
  | none => postAdmin a stInvalidField 0 s

/-- PROPERTY_GET (R69); a Fabrics command to a PCIe controller is an invalid opcode (R320), as is the next. -/
def execPropertyGet (a : Admin) (offset : Nat) (s : State) : Result :=
  .next (hold (.propertyGet a offset) (runPropertyGet a offset) s)

/-- The check of ENABLING: CC.CSS, CC.IOSQES of 6 and CC.IOCQES of 4 (R69; the values of CSS: notes/assumptions/12.md). -/
def ccValid (cc : Nat) : Bool :=
  (bitsOf cc 6 4 == 0 || bitsOf cc 6 4 == 6) && bitsOf cc 19 16 == 6 && bitsOf cc 23 20 == 4

/-- The ENABLING check of a PCIe controller (R319, R320): AQA gives 2 to 32 entries, ASQ and ACQ are aligned to CC.MPS. -/
def adminQueueOk (f : HepFn) (cc : Nat) : Bool :=
  let page := 2 ^ (12 + bitsOf cc 10 7)
  let inRange := fun n => decide (1 ≤ n) && decide (n ≤ 31)
  decide (bitsOf cc 10 7 ≤ 4) && inRange (bitsOf f.aqa 11 0) && inRange (bitsOf f.aqa 27 16) && f.asq % page == 0 &&
    f.acq % page == 0

/-- Is a controller's CC valid (R69, R320)? -/
def ccOk (s : State) (id : Nat) : Bool :=
  ccValid (ctrlOf s id).cc &&
    match (ctrlOf s id).fn with
    | some k => adminQueueOk (fnOf s k) (ctrlOf s id).cc
    | none => true

/-- A PCIe controller in READY has its admin queues (R319). -/
def openAdminQueue (id : Nat) (s : State) : State :=
  match (ctrlOf s id).fn with
  | none => s
  | some k =>
    let f := fnOf s k
    let q : Queue := { (default : Queue) with exists_ := true, size := bitsOf f.aqa 11 0 + 1, cls := 2, port := 64, pcie := true }
    let c : CqState := { (default : CqState) with exists_ := true, size := bitsOf f.aqa 27 16 + 1, interrupts := true, base := f.acq }
    let s := s.onCmd fun c => { c with queues := c.queues.put (qKey id 0) q }
    s.onHep fun h => { h with cqs := h.cqs.put (qKey id 0) c, sqs := h.sqs.put (qKey id 0) ⟨f.asq, 0, 0⟩ }

/-- ENABLING: READY with a valid CC, else DISABLED again with CTRL_RESET kind 5 (R69); a HEP controller stays in ENABLING
until the image has been applied (R460). -/
def enable (id : Nat) (s : State) : State :=
  if (ctrlOf s id).fn.isSome && decide (s.boot.step < 8) then s
  else if ccOk s id then openAdminQueue id (onCtrl id (fun c => { c with state := 2, kaStart := s.now }) s)
  else ctrlReset id 5 0 (onCtrl id (fun c => { c with state := 0 }) s)

/-- Entry into DISABLING (R69): the commands end and CTRL_RESET tells of it with kind 0. -/
def enterDisabling (id : Nat) (s : State) : State :=
  ctrlReset id 0 0 (testReset (endCommands id (onCtrl id (fun c => { c with state := 5 }) s)))

/-- A change of CC.SHN (R69): in READY it starts a normal (01b) or an abrupt (10b) shutdown. DESIGN CHOICE: entry into SHUTTING
counts as a controller reset that ends a self-test (R79; notes/assumptions/89.md). -/
def shnWritten (id shn : Nat) (s : State) : State :=
  if (ctrlOf s id).state ≠ 2 then s
  else if shn = 1 then ctrlReset id 1 0 (testReset (onCtrl id (fun c => { c with state := 3, shst := 1 }) s))
  else if shn = 2 then
    ctrlReset id 2 0 (testReset (endCommands id (onCtrl id (fun c => { c with state := 3, shst := 1 }) s)))
  else s

/-- A change of CC.EN (R69): recorded as the latched enable, and applied by the controller's state. -/
def enWritten (id : Nat) (en : Bool) (s : State) : State :=
  let st := (ctrlOf s id).state
  let s := onCtrl id (fun c => { c with le := en }) s
  if en then
    if st = 0 then enable id (onCtrl id (fun c => { c with state := 1 }) s)
    else if st = 3 ∨ st = 5 then emit 0x560 0x60A 1 id s
    else s
  else if st = 2 ∨ st = 4 then enterDisabling id s
  else if st = 3 ∨ st = 5 then onCtrl id (fun c => { c with ld := true }) s
  else s

/-- A write of CC in the order of R69: the other fields, then a change of SHN, then a change of EN. -/
def ccWrite (id cc : Nat) (s : State) : State :=
  let old := (ctrlOf s id).cc
  if !(ctrlOf s id).exists_ then s
  else
    let s := onCtrl id (fun c => { c with cc := cc % 2 ^ 32 }) s
    let s := if bitsOf cc 15 14 = bitsOf old 15 14 then s else shnWritten id (bitsOf cc 15 14) s
    if bitAt cc 0 = bitAt old 0 then s else enWritten id (bitAt cc 0) s

/-- Answer a Property Set; a write of a PCIe function's register has no completion. -/
def answerSet (cntlid : Nat) (cid : Option Nat) (s : State) : State :=
  match cid with
  | some c => postAdmin ⟨cntlid, c⟩ stOk 0 s
  | none => s

/-- The effect of PROPERTY_SET (R69). -/
def runPropertySet (a : Admin) (offset value : Nat) (s : State) : State :=
  if (ctrlOf s a.cntlid).fn.isSome then postAdmin a stInvalidOpcode 0 s
  else if offset = 0x14 then postAdmin a stOk 0 (ccWrite a.cntlid value s)
  else postAdmin a stInvalidField 0 s

/-- PROPERTY_SET (R69). -/
def execPropertySet (a : Admin) (offset value : Nat) (s : State) : Result :=
  .next (hold (.propertySet a offset value) (runPropertySet a offset value) s)

/-- The effect of CC_EN_WRITTEN_1 (R69). A PCIe controller is enabled with the AQA, ASQ and ACQ its registers hold, and host software has set
Bus Master Enable by then (R333). -/
def runCcEnWritten1 (cntlid : Nat) (cid : Option Nat) (cc aqa asq acq : Nat) (s : State) : State :=
  let s := match (ctrlOf s cntlid).fn with
    | some k => onFn k (fun f => { f with aqa := aqa, asq := asq, acq := acq, bme := true }) s
    | none => s
  answerSet cntlid cid (ccWrite cntlid (setBits cc 0 0 1) s)

/-- CC_EN_WRITTEN_1 (R69). A PCIe controller is enabled with the AQA, ASQ and ACQ its registers hold, and host software has set
Bus Master Enable by then (R333). -/
def execCcEnWritten1 (cntlid : Nat) (cid : Option Nat) (cc aqa asq acq : Nat) (s : State) : Result :=
  .next (holdSet cid (.ccEnWritten1 cntlid cid cc aqa asq acq) (runCcEnWritten1 cntlid cid cc aqa asq acq) s)

/-- The effect of CC_EN_WRITTEN_0 (R69). -/
def runCcEnWritten0 (cntlid : Nat) (cid : Option Nat) (cc : Nat) (s : State) : State :=
  answerSet cntlid cid (ccWrite cntlid (setBits cc 0 0 0) s)

/-- CC_EN_WRITTEN_0 (R69). -/
def execCcEnWritten0 (cntlid : Nat) (cid : Option Nat) (cc : Nat) (s : State) : Result :=
  .next (holdSet cid (.ccEnWritten0 cntlid cid cc) (runCcEnWritten0 cntlid cid cc) s)

/-- The effect of CC_SHN_NORMAL_SHUTDOWN (R69). -/
def runCcShnNormalShutdown (cntlid : Nat) (cid : Option Nat) (cc : Nat) (s : State) : State :=
  answerSet cntlid cid (ccWrite cntlid (setBits cc 15 14 1) s)

/-- CC_SHN_NORMAL_SHUTDOWN (R69). -/
def execCcShnNormalShutdown (cntlid : Nat) (cid : Option Nat) (cc : Nat) (s : State) : Result :=
  .next (holdSet cid (.ccShnNormalShutdown cntlid cid cc) (runCcShnNormalShutdown cntlid cid cc) s)

/-- The effect of CC_SHN_ABRUPT_SHUTDOWN (R69). -/
def runCcShnAbruptShutdown (cntlid : Nat) (cid : Option Nat) (cc : Nat) (s : State) : State :=
  answerSet cntlid cid (ccWrite cntlid (setBits cc 15 14 2) s)

/-- CC_SHN_ABRUPT_SHUTDOWN (R69). -/
def execCcShnAbruptShutdown (cntlid : Nat) (cid : Option Nat) (cc : Nat) (s : State) : Result :=
  .next (holdSet cid (.ccShnAbruptShutdown cntlid cid cc) (runCcShnAbruptShutdown cntlid cid cc) s)

/-- The effect of DISCONNECT: of the admin queue it deletes the controller with kind 7, of an I/O queue that queue (R69, R70). -/
def runDisconnect (a : Admin) (sqid : Nat) (s : State) : State :=
  if (ctrlOf s a.cntlid).fn.isSome then post a.cntlid sqid a.cid stInvalidOpcode 0 none s
  else
  let s := post a.cntlid sqid a.cid stOk 0 none s
  if sqid = 0 then deleteCtrl a.cntlid 7 s else dropQueue a.cntlid sqid s

/-- DISCONNECT: of the admin queue it deletes the controller with kind 7, of an I/O queue that queue (R69, R70). -/
def execDisconnect (a : Admin) (sqid : Nat) (s : State) : Result :=
  .next (hold (.disconnect a sqid) (runDisconnect a sqid) s)

/-- An admin command other than the Fabrics ones: while CSTS.RDY reads 0 it completes with Command Sequence Error and is not
executed (R69). -/
def adminCommand (a : Admin) (run : State → State) (s : State) : State :=
  if (ctrlOf s a.cntlid).ready then run s else postAdmin a stSequence 0 s

/-- The effect of IDENTIFY (R45, R47, R68). -/
def runIdentify (a : Admin) (cns nsid : Nat) (s : State) : State :=
  adminCommand a (fun s =>
    match identifyData s a.cntlid cns nsid with
    | some d => postAdmin a stOk 0 (s.send (.adminData a.cntlid a.cid d))
    | none => postAdmin a stInvalidField 0 s) s

/-- IDENTIFY (R45, R47, R68). -/
def execIdentify (a : Admin) (cns nsid : Nat) (s : State) : Result :=
  .next (hold (.identify a cns nsid) (runIdentify a cns nsid) s)

/-- Vendor log page 0xC0 (R162). -/
def shelfLog (s : State) (nsid : Nat) : Bytes :=
  let ours := fun (r : SetRec) => nsid == 0xFFFFFFFF || r.nsid == nsid
  let mine := s.lay.sets.filter fun e => e.2.state != .free && ours e.2
  let degraded := (mine.filter fun e => decide (0 < lostCount e.2)).length
  let critical := (mine.filter fun e => lostCount e.2 == (s.lay.geoms.at e.2.geom).m).length
  let lost := (mine.filter fun e => decide ((s.lay.geoms.at e.2.geom).m < lostCount e.2)).length
  let lostDrives := s.lay.drives.keysWhere fun _ d => d.state == 2
  let done := countOf s.lay.rebuild.doneRows nsid
  padTo 512 (leBytes 8 s.now ++ leBytes 1 (shelfState s) ++ leBytes 1 (slotsInService s).length ++
    leBytes 1 lostDrives.length ++ leBytes 5 0 ++ leBytes 8 ((lostDrives.filter (· < 48)).map (2 ^ ·)).sum ++ leBytes 8 degraded ++
    leBytes 8 critical ++ leBytes 8 lost ++ leBytes 8 done ++
    leBytes 8 (done + rowsToRebuild s ours) ++ leBytes 8 s.lay.scrubStart ++ leBytes 8 (countOf s.lay.scrubRows nsid) ++
    leBytes 8 (countOf s.lay.scrubRepairs nsid) ++ leBytes 8 (min (spareReserve s) (freeChunks s)))

/-- The effect of GET_LOG_PAGE: pages 0x06, 0x0C and 0xC0 (R49, R79, R162). -/
def runGetLogPage (a : Admin) (lid nsid : Nat) (s : State) : State :=
  adminCommand a (fun s =>
    match lid with
    | 0x06 => postAdmin a stOk 0 (s.send (.adminData a.cntlid a.cid (selfTestLog s)))
    | 0x0C => postAdmin a stOk 0 (s.send (.adminData a.cntlid a.cid (anaLog s)))
    | 0xC0 => postAdmin a stOk 0 (s.send (.adminData a.cntlid a.cid (shelfLog s nsid)))
    | _ => postAdmin a stInvalidField 0 s) s

/-- GET_LOG_PAGE: pages 0x06, 0x0C and 0xC0 (R49, R79, R162). -/
def execGetLogPage (a : Admin) (lid nsid : Nat) (s : State) : Result :=
  .next (hold (.getLogPage a lid nsid) (runGetLogPage a lid nsid) s)

/-- Store a feature value. -/
def setFeature (id fid value : Nat) (s : State) : State :=
  onCtrl id (fun c => { c with features := c.features.put fid value }) s

/-- The count Number of Queues grants: the smaller of the requested count and the limit (R46); both counts are zero-based.
DESIGN CHOICE: the requested count is that of the submission queues, bits 15:0 (notes/assumptions/12.md). -/
def grantedQueues (limit value : Nat) : Nat := min (bitsOf value 15 0 + 1) limit

/-- The I/O queue pairs a controller offers: a VF's 16 (R318), any other 128. -/
def pairLimit (c : Controller) : Nat :=
  match c.fn with
  | some (_ + 1) => 16
  | _ => 128

/-- The value Number of Queues returns. -/
def queuesDword (n : Nat) : Nat := (n - 1) + (n - 1) * 2 ^ 16

/-- The effect of SET_FEATURES: Arbitration (R55), Power Management (R75), Number of Queues (R46), the asynchronous event configuration
(R49), Keep Alive (R71); interrupt coalescing and vector configuration of a PCIe function (R330); any other feature is
Invalid Field. -/
def runSetFeatures (a : Admin) (fid value : Nat) (s : State) : State :=
  adminCommand a (fun s =>
    let id := a.cntlid
    match fid with
    | 0x01 => postAdmin a stOk 0 (setFeature id 0x01 value s)
    | 0x02 =>
      if 4 ≤ value then postAdmin a stInvalidField 0 s
      else
        let s := onCtrl id (fun c => { c with pm := value }) s
        postAdmin a stOk 0 (if value < s.cmd.ps then startExit s else s)
    | 0x07 =>
      let n := grantedQueues (pairLimit (ctrlOf s id)) value
      postAdmin a stOk (queuesDword n) (onCtrl id (fun c => { c with queues := n }) s)
    | 0x08 | 0x09 =>
      if (ctrlOf s id).fn.isSome then
        postAdmin a stOk 0 (setFeature id (if fid = 0x08 then 0x08 else 0x900 + bitsOf value 15 0) value s)
      else postAdmin a stInvalidField 0 s
    | 0x0B => postAdmin a stOk 0 (setFeature id 0x0B value s)
    | 0x0F => postAdmin a stOk 0 (onCtrl id (fun c => { c with kato := value, kaStart := s.now }) s)
    | _ => postAdmin a stInvalidField 0 s) s

/-- SET_FEATURES: Arbitration (R55), Power Management (R75), Number of Queues (R46), the asynchronous event configuration
(R49), Keep Alive (R71); interrupt coalescing and vector configuration of a PCIe function (R330); any other feature is
Invalid Field. -/
def execSetFeatures (a : Admin) (fid value : Nat) (s : State) : Result :=
  .next (hold (.setFeatures a fid value) (runSetFeatures a fid value) s)

/-- The effect of GET_FEATURES (R55, R75). -/
def runGetFeatures (a : Admin) (fid value : Nat) (s : State) : State :=
  adminCommand a (fun s =>
    let c := ctrlOf s a.cntlid
    match fid with
    | 0x02 => postAdmin a stOk c.pm s
    | 0x07 => postAdmin a stOk (queuesDword c.queues) s
    | 0x0F => postAdmin a stOk c.kato s
    | 0x01 | 0x08 | 0x0B => postAdmin a stOk (c.features.at fid) s
    | 0x09 => postAdmin a stOk (c.features.at (0x900 + bitsOf value 15 0)) s
    | _ => postAdmin a stInvalidField 0 s) s

/-- GET_FEATURES (R55, R75). -/
def execGetFeatures (a : Admin) (fid value : Nat) (s : State) : Result :=
  .next (hold (.getFeatures a fid value) (runGetFeatures a fid value) s)

/-- The effect of KEEP_ALIVE (R71). -/
def runKeepAlive (a : Admin) (s : State) : State :=
  adminCommand a (fun s => postAdmin a stOk 0 (onCtrl a.cntlid (fun c => { c with kaStart := s.now }) s)) s

/-- KEEP_ALIVE (R71). -/
def execKeepAlive (a : Admin) (s : State) : Result :=
  .next (hold (.keepAlive a) (runKeepAlive a) s)

/-- Abort one entry (R64, R65): its target completes with Command Abort Requested, its units are discarded. -/
def abortEntry (i : Nat) (s : State) : State :=
  let e := entryOf s i
  let s := post e.cap.cntlid e.cap.sqid e.cap.cid stAborted 0 (invKey e.cap.sgl) s
  freeEntry i .aborted (releaseAllocs e.allocs (noteEnded e.cap (measure { e with outGts := 0 } s)))

/-- May a live entry still be aborted: a write before JOURNAL, any other command before POSTING (R64)? -/
def Entry.abortable (e : Entry) : Bool := !e.submitted && e.state != .posting && !e.ended

/-- The effect of ABORT (R64 to R66): `others` is how many Aborts of the controller are in progress. -/
def runAbort (a : Admin) (sqid target others : Nat) (s : State) : State :=
  adminCommand a (fun s =>
    if 8 ≤ others then postAdmin a stAbortLimit 0 s
    else if sqid = 0 then
      if (ctrlOf s a.cntlid).aers.contains target then
        postAdmin a stOk 0 (postAdmin ⟨a.cntlid, target⟩ stAborted 0
          (onCtrl a.cntlid (fun c => { c with aers := c.aers.filter (· != target) }) s))
      else postAdmin a stOk 1 s
    else
      match s.cmd.queued.find? fun c => c.cntlid == a.cntlid && c.sqid == sqid && c.cid == target with
      | some c =>
        let s := (noteEnded c s).onCmd fun m => { m with queued := m.queued.filter (· != c) }
        postAdmin a stOk 0 (completeCap c stAborted (sweepSlots s))
      | none =>
        match entriesWhere s fun e => e.cap.cntlid == a.cntlid && e.cap.sqid == sqid && e.cap.cid == target with
        | i :: _ => if (entryOf s i).abortable then postAdmin a stOk 0 (abortEntry i s) else postAdmin a stOk 1 s
        | [] => postAdmin a stOk 1 s) s

/-- ABORT (R64 to R66): `others` is how many Aborts of the controller are in progress. -/
def execAbort (a : Admin) (sqid target others : Nat) (s : State) : Result :=
  .next (hold (.abort a sqid target others) (runAbort a sqid target others) s)

/-- The effect of ASYNCHRONOUS_EVENT_REQUEST: eight may be outstanding (R47). -/
def runAsynchronousEventRequest (a : Admin) (s : State) : State :=
  adminCommand a (fun s =>
    let c := ctrlOf s a.cntlid
    match c.notices with
    | n :: rest => postAdmin a stOk n (onCtrl a.cntlid (fun c => { c with notices := rest }) s)
    | [] =>
      if 8 ≤ c.aers.length then postAdmin a stAerLimit 0 s
      else onCtrl a.cntlid (fun c => { c with aers := c.aers ++ [a.cid] }) s) s

/-- ASYNCHRONOUS_EVENT_REQUEST: eight may be outstanding (R47). -/
def execAsynchronousEventRequest (a : Admin) (s : State) : Result :=
  .next (hold (.asynchronousEventRequest a) (runAsynchronousEventRequest a) s)

/-- The bank whose turn a march test is: the first one not fenced from a bank on (R78). -/
def marchBank (s : State) (from_ : Nat) : Nat :=
  (((List.range 64).map fun i => (from_ + i) % 64).find? fun b => !fencedUnit s 3 b).getD from_

/-- What a test covers (R78): the items of a short test, and with code 2 those of an extended one; an NSID other than 0 and
0xFFFFFFFF confines the stripes to that namespace. -/
def testItems (s : State) (code nsid : Nat) : List TestItem :=
  [.cipherLanes, .layoutLanes, .march (marchBank s s.cmd.test.bank), .driveHealth, .journalHead] ++
    if code = 2 then [.stripes (if nsid = 0 then 0xFFFFFFFF else nsid), .mapCompare] else []

/-- Start a self-test, unless one runs (R78). -/
def startSelfTest (a : Admin) (code nsid : Nat) (s : State) : State :=
  if s.cmd.test.code ≠ 0 then postAdmin a stSelfTest 0 s
  else postAdmin a stOk 0 (s.onCmd fun c => { c with test := { c.test with
    code := code, cntlid := a.cntlid, nsid := nsid, items := testItems s code nsid
    bank := (marchBank s c.test.bank + 1) % 64 } })

/-- The effect of DEVICE_SELF_TEST_SHORT (R78). -/
def runDeviceSelfTestShort (a : Admin) (nsid : Nat) (s : State) : State :=
  adminCommand a (startSelfTest a 1 nsid) s

/-- DEVICE_SELF_TEST_SHORT (R78). -/
def execDeviceSelfTestShort (a : Admin) (nsid : Nat) (s : State) : Result :=
  .next (hold (.deviceSelfTestShort a nsid) (runDeviceSelfTestShort a nsid) s)

/-- The effect of DEVICE_SELF_TEST_EXTENDED (R78). -/
def runDeviceSelfTestExtended (a : Admin) (nsid : Nat) (s : State) : State :=
  adminCommand a (startSelfTest a 2 nsid) s

/-- DEVICE_SELF_TEST_EXTENDED (R78). -/
def execDeviceSelfTestExtended (a : Admin) (nsid : Nat) (s : State) : Result :=
  .next (hold (.deviceSelfTestExtended a nsid) (runDeviceSelfTestExtended a nsid) s)

/-- The effect of DEVICE_SELF_TEST_ABORT: the running test ends with result 0x1 (R78; the code: notes/assumptions/12.md). -/
def runDeviceSelfTestAbort (a : Admin) (s : State) : State :=
  adminCommand a (fun s => postAdmin a stOk 0 (endSelfTest 1 s)) s

/-- DEVICE_SELF_TEST_ABORT: the running test ends with result 0x1 (R78; the code: notes/assumptions/12.md). -/
def execDeviceSelfTestAbort (a : Admin) (s : State) : Result :=
  .next (hold (.deviceSelfTestAbort a) (runDeviceSelfTestAbort a) s)

/-- INVALID_COMMAND_OPCODE (R45): on an I/O queue the capsule goes the way of any other, and its opcode is its refusal. -/
def execInvalidCommandOpcode (a : Admin) (sqid opc : Nat) (s : State) : Result :=
  .next (if sqid = 0 then hold (.invalidCommandOpcode a sqid opc) (adminCommand a (postAdmin a stInvalidOpcode 0)) s
    else admitCap { capsule ⟨a.cntlid, sqid, a.cid, 0⟩ opc 0 with refusal := some stInvalidOpcode } s)

/-- Is nothing of a controller left to drain: no entry, and no queued capsule that is still to be granted (R69)? -/
def drained (s : State) (id : Nat) : Bool :=
  (entriesWhere s fun e => e.cap.cntlid == id).isEmpty && s.cmd.queued.all fun c => c.cntlid != id || c.late

/-- DRAIN_FINISHED (R69): SHUTTING becomes SHUTDOWN, and DISABLING at once where LD is set; DISABLING deletes the I/O queues
and becomes DISABLED, or ENABLING where the latched enable is 1. -/
def execDrainFinished (id : Nat) (s : State) : Result :=
  let c := ctrlOf s id
  if !drained s id then .next s
  else if c.state = 3 then
    let s := onCtrl id (fun c => { c with state := 4, shst := 2 }) s
    .next (if c.ld then enterDisabling id s else s)
  else if c.state = 5 then
    let s := deleteIoQueues id (onCtrl id (fun c => { c with ld := false, shst := 0, state := 0, cfs := false }) s)
    .next (if c.le then enable id (onCtrl id (fun c => { c with state := 1 }) s) else s)
  else .next s

/-- KEEP_ALIVE_TIMEOUT (R69, R71): a KATO of 0 disables the timer, and PS3 and PS4 do not evaluate it. -/
def execKeepAliveTimeout (id : Nat) (s : State) : Result :=
  if (ctrlOf s id).kato = 0 ∨ 3 ≤ s.cmd.ps then .next s else .next (deleteCtrl id 3 s)

end Sys2Proof.Machine
end

