-- ==== Sys2Proof/Machine/Buckets.lean ====
section
/-! DEFINITION. A rewrite of a token bucket's rate or depth applies at its next refill (R53, R248, R267, R277): what the bucket
holds now is kept, held to the new depth, and fills at the new rate from then on. -/

namespace Sys2Proof.Machine

/-- What a bucket lacks of its new depth, when it lacked `lacks` of its old one and keeps its tokens. -/
def settled (oldDepth newDepth lacks : Nat) : Nat := newDepth + lacks - oldDepth

/-- A shaper whose entry goes from `e` to `e'` (R267). -/
def settleShaper (e e' : QEntry) (now : Nat) (b : Bucket) : Bucket :=
  if e.rate = e'.rate ∧ e.burst = e'.burst then b
  else ⟨settled (e.burst * 8000) (e'.burst * 8000) (shaperLacks e b now), now⟩

/-- The depth of a punt reason's bucket, in 10⁻⁹ frame (R244, R248). -/
def puntDepth (s : State) (reason : Nat) : Nat := max 1 (s.fldI F.CLS_PUNT_CFG_BURST reason) * 1000000000

/-- The bucket of a punt reason whose register was written, `old` being the state before. -/
def settlePunt (old : State) (reason : Nat) (s : State) : State :=
  let lacks := (s.net.puntBucket.at reason).lacks s.now (old.fldI F.CLS_PUNT_CFG_RATE reason)
  if puntDepth old reason = puntDepth s reason ∧ old.fldI F.CLS_PUNT_CFG_RATE reason = s.fldI F.CLS_PUNT_CFG_RATE reason then s
  else s.onNet fun n => { n with
    puntBucket := n.puntBucket.put reason ⟨settled (puntDepth old reason) (puntDepth s reason) lacks, s.now⟩ }

/-- The class 0 bucket of a port whose register, or whose rate, was changed. -/
def settleC0 (old : State) (port : Nat) (s : State) : State :=
  if c0Depth old port = c0Depth s port ∧ old.fldI F.CMD_C0_BUDGET_RATE port = s.fldI F.CMD_C0_BUDGET_RATE port ∧
      portMbps old port = portMbps s port then s
  else
    let tokens := c0Tokens old port (portMbps old port)
    s.onCmd fun c => { c with arbiters := c.arbiters.upd port fun a =>
      { a with used := c0Depth s port - tokens, refilled := s.now } }

/-- The depth of the background media shaper, in 1/100 byte (R273). -/
def mediaDepth (s : State) : Nat := s.fld F.TMG_BG_CFG_BURST_MIB * 2 ^ 20 * 100

/-- What the background media shaper lacks (R273): RATE × 10 MB/s is RATE of 1/100 byte in each nanosecond. -/
def mediaLacks (s : State) : Nat := s.net.media.lacks s.now (s.fld F.TMG_BG_CFG_RATE)

/-- The background media shaper after a write of TMG_BG_CFG. -/
def settleMedia (old s : State) : State :=
  s.onNet fun n => { n with media := ⟨settled (mediaDepth old) (mediaDepth s) (mediaLacks old), s.now⟩ }

/-- The bucket that a register's write configures. -/
def settleWrite (addr : Nat) (old s : State) : State :=
  if 0x02000200 ≤ addr ∧ addr < 0x02000220 then settlePunt old ((addr - 0x02000200) / 4) s
  else if 0x06000200 ≤ addr ∧ addr < 0x06000300 then settleC0 old ((addr - 0x06000200) / 4) s
  else if addr = 0x04000088 then settleMedia old s
  else s

/-- Every shaper of a queue or a node whose entry was replaced. -/
def settleShapers (old s : State) : State :=
  s.onNet fun n => { n with
    shaper := n.shaper.mapAll fun q b => settleShaper (queueEntry old q) (queueEntry s q) s.now b
    nodeShaper := n.nodeShaper.mapAll fun k b => settleShaper (old.net.nodeCfg.at k) (s.net.nodeCfg.at k) s.now b }

/-- Every bucket after an image's values have replaced the old ones. -/
def settleAll (old s : State) : State :=
  let s := (List.range 8).foldl (fun s r => settlePunt old r s) (settleShapers old s)
  (List.range 64).foldl (fun s p => settleC0 old p s) (settleMedia old s)

end Sys2Proof.Machine
end

