-- ==== Sys2Proof/Machine/OpsDrv.lean ====
section
/-! DEFINITION. Shared operations of the drive root ports (R206 to R213): failure, recovery, bring-up, fencing, and what the
legs and the partner report. -/

namespace Sys2Proof.Machine

/-- The source of a root port's events (R217). -/
def drvSrc (slot : Nat) : Nat := 0x200 + slot

/-- Has DRV handed the port's drive to LAY? -/
def served (s : State) (slot : Nat) : Bool := (portOf s slot).state == 5

/-- The port leaves its state for `new`: PERST# asserted, its link gone, what was outstanding ended toward LAY, and a drive
in READY lost to LAY (R206). -/
def portDown (slot new : Nat) (s : State) : State :=
  let was := served s slot
  let s := onPort slot (fun p => { p with
    state := new, speed := 0, width := 0, holder := false, step := 0, attempts := 0, relinking := false, asked := 0
    perstReleased := false, urgentOut := 0, urgentPages := 0, normalOut := 0, normalPages := 0
    urgentWait := [], normalWait := [], heldWrites := [], inRing := [], back := [], mps := 0, l1 := false }) s
  if was then layDriveLost slot s else s

/-- The port starts from RESET: the reference clock runs and PERST# is held (R206). -/
def portReset (slot : Nat) (s : State) : State :=
  onPort slot (fun p => { p with state := 2, refClock := true, perstReleased := false, trip8 := false }) s

/-- May recovery follow a failure: not after a leg trip, not while one runs, not within RECOVER_WIN_S of the last return
(R210)? -/
def mayRecover (s : State) (slot cause : Nat) : Bool :=
  let p := portOf s slot
  cause != 8 && !p.recovering &&
    (p.returnGts == 0 || decide (p.returnGts + s.fld F.DRV_ERR_CFG_RECOVER_WIN_S * 1000000000 ≤ s.now))

/-- The port fails with a cause: DRIVE_FAILED, LAY loses a ready drive, and recovery starts where it may (R206, R207,
R210). -/
def portFail (slot cause : Nat) (recover : Bool) (s : State) : State :=
  let again := recover && mayRecover s slot cause
  let s := emit (drvSrc slot) 0x905 3 cause s
  let s := portDown slot 7 s
  let s := onPort slot (fun p => { p with
    recovering := again, trip8 := cause == 8, refClock := if cause = 8 then false else p.refClock }) s
  if again then portReset slot s else s

/-- A drive is declared failed (R207): its port where it is in READY; LAY's drive alone where it is not. -/
def driveFailed (slot cause : Nat) (s : State) : State :=
  if served s slot then portFail slot cause true s else layDriveLost slot s

/-- An Unrecovered Read Error: counted, and MEDIA_LIMIT of them within 24 h fail the drive (R207). -/
def driveReadFailed (slot : Nat) (s : State) : State :=
  let s := s.bumpI F.DRV_ERR_COUNT_MEDIA slot 1
  let s := onPort slot (fun p => { p with
    mediaTimes := (p.mediaTimes.filter fun t => decide (s.now < t + 86400000000000)) ++ [s.now] }) s
  if s.fld F.DRV_ERR_CFG_MEDIA_LIMIT ≤ (portOf s slot).mediaTimes.length then driveFailed slot 6 s else s

/-- A root port is fenced: PERST# held, SerDes off, and a drive in READY lost to LAY (R36, R206). -/
def fenceRootPort (slot reason : Nat) (s : State) : State :=
  if fencedUnit s 9 slot then s else portDown slot 9 (fenceUnit 9 slot reason s)

/-- Power good on a slot, from this unit's leg or by the partner's report (R206, R210). -/
def drvLegPg (slot : Nat) (s : State) : State :=
  let p := portOf s slot
  if p.state = 1 ∨ (p.state = 7 ∧ p.trip8) then portReset slot s else s

/-- The partner's leg has power good after a final trip of this unit's: a port in POWERING goes on (R206); it has none: the
port fails with cause 8. -/
def tripAnswer (slot : Nat) (partnerPg : Bool) (s : State) : State :=
  let p := portOf s slot
  if !(1 ≤ p.state ∧ p.state ≤ 5) then s
  else if partnerPg then (if p.state = 1 then portReset slot s else s)
  else portFail slot 8 false s

/-- A final trip of this unit's leg: in a pair the partner is asked about the slot's other leg, else the port fails with
cause 8 (R206, R207). -/
def drvLegTrip (slot : Nat) (s : State) : State :=
  if inGroup s then
    let p := portOf s slot
    if 1 ≤ p.state ∧ p.state ≤ 5 then queryPartner 1 slot (onPort slot (fun p => { p with asked := 3 }) s) else s
  else tripAnswer slot false s

/-- The partner's answer to a QUERY, or its report about its leg (R206, R209): about the leg, a power good brings the port up, and
after a final trip of this unit's leg its want fails it; about the port, an up port fences this one with reason 0x05, and a
down one fails the drive. -/
def queryAnswer (kind slot : Nat) (up : Bool) (s : State) : State :=
  let asked := (portOf s slot).asked
  if kind = 1 then
    let s := onPort slot (fun p => { p with partnerPg := up, asked := if asked = 2 then 2 else 0 }) s
    if asked = 3 then tripAnswer slot up s else if up then drvLegPg slot s else s
  else if asked ≠ 2 then s
  else
    let s := onPort slot (fun p => { p with asked := 0 }) s
    if up then fenceRootPort slot 5 s else emit (drvSrc slot) 0x905 3 5 s

/-- In a group the partner is told that this unit's leg of a slot has power good, which brings its port up where its own leg does
not (R206, R210; notes/assumptions/94.md). -/
def reportPg (slot : Nat) (s : State) : State := if inGroup s ∧ role s < 2 then sendTo (1 - role s) (.query 1 slot (some true)) s else s

/-- This unit's reservation key: seven bytes of SHELF_UUID and 0xA0 plus the role (R211). -/
def reservationKey (s : State) : Nat := ofLe ((padTo 7 s.ctl.shelfUuid).take 7 ++ leBytes 1 (0xA0 + s.boot.roleSel))

/-- The failed partner's key (R211, R212). -/
def partnerKey (s : State) : Nat := ofLe ((padTo 7 s.ctl.shelfUuid).take 7 ++ leBytes 1 (0xA0 + (1 - s.boot.roleSel)))

/-- Preempt a drive's reservation (R212). -/
def preemptDrive (s : State) (slot : Nat) : State :=
  (s.send (.driveAdmin slot "preempt" (partnerKey s))).onDrv fun d => { d with
    preempting := if d.preempting.contains slot then d.preempting else d.preempting ++ [slot] }

/-- The ports in READY, in rising order. -/
def readyPorts (s : State) : List Nat := s.drv.ports.keysWhere fun _ p => p.state == 5

/-- Take the drives over: the first round preempts on the lowest-numbered drive in READY alone (R212). Writes to every drive
wait for their preempt. -/
def startPreempt (s : State) : State :=
  match readyPorts s with
  | [] => s.onDrv fun d => { d with stopped := false, round := 0 }
  | p :: ps =>
    preemptDrive (s.onDrv fun d => { d with stopped := false, round := 1, preempting := p :: ps }) p

end Sys2Proof.Machine
end

