-- ==== Sys2Proof/Machine/OpsPwr.lean ====
section
/-! DEFINITION. Slot power (chapter 13): the leg's transitions as other subsystems cause and see them. -/

namespace Sys2Proof.Machine

/-- The state with slot power's part changed. -/
def State.onPwr (s : State) (f : Pwr → Pwr) : State := { s with pwr := f s.pwr }

/-- A leg. -/
def legOf (s : State) (leg : Nat) : Leg := s.pwr.legs.at leg

/-- The state with a leg changed. -/
def onLeg (leg : Nat) (f : Leg → Leg) (s : State) : State := s.onPwr fun p => { p with legs := p.legs.upd leg f }

/-- The state of a leg: 0 OFF, 1 RAMP, 2 ON, 3 LATCHED, 4 FENCED (R410). -/
def legState (s : State) (leg : Nat) : Nat := s.fldI F.PWR_LEG_STAT_STATE leg

/-- Does this unit's leg of a slot hold power good (R416)? -/
def legPg (s : State) (leg : Nat) : Bool := s.fldI F.PWR_LEG_STAT_PG leg == 1

/-- The source of a leg's events (R429). -/
def legSrc (leg : Nat) : Nat := 0x300 + leg

/-- A leg's bit of a pair of map registers. -/
def setMap (lo hi : Fld) (leg : Nat) (b : Bool) (s : State) : State :=
  if leg < 32 then s.setFld lo (setBit (s.fld lo) leg b) else s.setFld hi (setBit (s.fld hi) (leg - 32) b)

/-- PWR_PG and PWR_LATCH follow a leg's state (R430). -/
def legMaps (leg : Nat) (s : State) : State :=
  setMap F.PWR_LATCH_LO_MAP F.PWR_LATCH_HI_MAP leg (decide (3 ≤ legState s leg))
    (setMap F.PWR_PG_LO_MAP F.PWR_PG_HI_MAP leg (legPg s leg) s)

/-- A leg's state is set. -/
def setLeg (leg st : Nat) (s : State) : State := legMaps leg (s.setFldI F.PWR_LEG_STAT_STATE leg st)

/-- The feed that gives a leg its VIN, and whether it is enabled (R495). -/
def legFeed (s : State) (leg : Nat) : Nat := s.fldI F.PWR_LEG_CFG_FEED leg
def feedOn (s : State) (feed : Nat) : Bool := s.fldI F.PWR_FEED_CFG_EN feed == 1

/-- Is a leg discharged: its feed enabled, VOUT below 0.5 V, and OFF_MS passed since its gate was turned off (R409, R495)? -/
def discharged (s : State) (leg : Nat) : Bool :=
  let l := legOf s leg
  feedOn s (legFeed s leg) && decide (l.vout < 500) &&
    (l.offGts == 0 || decide (l.offGts + s.fldI F.PWR_LEG_TIME_OFF_MS leg * 1000000 ≤ s.now))

/-- The gate is turned off. -/
def gateOff (leg : Nat) (s : State) : State :=
  if (legOf s leg).gateOn then onLeg leg (fun l => { l with gateOn := false, offGts := s.now }) s else s

/-- The leg enters RAMP: LEG_START with its cause (R410). -/
def startLeg (leg cause : Nat) (s : State) : State :=
  let s := setLeg leg 1 (s.setFldI F.PWR_LEG_STAT_PENDING leg 0)
  emit (legSrc leg) 0xC01 0 cause (onLeg leg (fun l => { l with gateOn := true, rampGts := s.now, timer := 0, qual := 0 }) s)

/-- A start request of a leg in OFF: it starts, or is latched as PENDING (R410, R418). -/
def requestStart (leg cause : Nat) (s : State) : State :=
  if legState s leg ≠ 0 then s
  else if discharged s leg then startLeg leg cause s
  else if s.fldI F.PWR_LEG_STAT_PENDING leg = 1 then s
  else emit (legSrc leg) 0xC06 0 0 (s.setFldI F.PWR_LEG_STAT_PENDING leg 1)

/-- Have the legs been released (step 8 of R457, R463)? -/
def legsReleased (s : State) : Bool := decide (8 ≤ s.boot.step) && s.boot.recovery == 0

/-- Power good is withdrawn: 1 by the window, 2 by a trip (R416). -/
def withdrawPg (leg why : Nat) (s : State) : State :=
  if legPg s leg then
    emit (legSrc leg) 0xC02 1 (why * 16) (legMaps leg (s.setFldI F.PWR_LEG_STAT_PG leg 0))
  else s

/-- LEG_TRIP (R429): the current, the model temperature, FINAL and the cause. -/
def legTrip (leg cause : Nat) (final : Bool) (s : State) : State :=
  emit (legSrc leg) 0xC03 3 (min (s.fldI F.PWR_LEG_MEAS_I_MA leg) 65535 * 2 ^ 20 + s.fldI F.PWR_LEG_STAT_TJ_C leg * 256 +
    b2n final * 16 + cause) s

/-- Has a leg latched by a cause no retry left (R417, R419)? -/
def noRetry (s : State) (leg cause : Nat) : Bool :=
  !(s.fldI F.PWR_LEG_CFG_RETRY_EN leg == 1 && decide (1 ≤ cause) && decide (cause ≤ 4) &&
    decide (s.fldI F.PWR_LEG_STAT_RETRIES leg < s.fldI F.PWR_LEG_CFG_RETRY_MAX leg))

/-- A leg in RAMP or ON latches (R410): its gate is off, power good is gone, DRV hears of a trip with no retry left. -/
def latchLeg (leg cause : Nat) (s : State) : State :=
  if legState s leg ≠ 1 ∧ legState s leg ≠ 2 then s
  else
    let final := noRetry s leg cause
    let s := (s.setFldI F.PWR_LEG_STAT_CAUSE leg cause).bumpI F.PWR_LEG_STAT_TRIPS leg 1
    let s := legTrip leg cause final (withdrawPg leg 2 (setLeg leg 3 (gateOff leg s)))
    if final then drvLegTrip leg s else s

/-- A leg is fenced until the next cold reset (R410), with the reason of R35: 8 by an order, 7 by the boot self-test, else 6. -/
def fenceLeg (leg cause : Nat) (s : State) : State :=
  if legState s leg = 4 then s
  else
    let s := (s.setFldI F.PWR_LEG_STAT_CAUSE leg cause).setFldI F.PWR_LEG_STAT_PENDING leg 0
    let s := legTrip leg cause true (withdrawPg leg 2 (setLeg leg 4 (gateOff leg s)))
    drvLegTrip leg (fenceUnit 12 leg (match cause with | 0 => 8 | 7 => 7 | _ => 6) s)

/-- A leg in RAMP or ON is turned off: 1 by an order, 2 by a removal, 3 by its feed (R410, R495). -/
def legToOff (leg why : Nat) (s : State) : State :=
  if legState s leg = 1 ∨ legState s leg = 2 then
    emit (legSrc leg) 0xC05 1 why (setLeg leg 0 (gateOff leg s))
  else s

/-- The slot is seated: a start request where AUTO_START is 1 and HELD_OFF is 0 (R409). -/
def legSeated (leg : Nat) (s : State) : State :=
  if legsReleased s && s.fldI F.PWR_LEG_CFG_AUTO_START leg == 1 && s.fldI F.PWR_LEG_STAT_HELD_OFF leg == 0 then
    requestStart leg 1 s
  else s

/-- The slot's drive is removed (R410, R417, R418, R420). -/
def legRemoved (leg : Nat) (s : State) : State :=
  let s := legToOff leg 2 s
  let s := if legState s leg = 3 then setLeg leg 0 s else s
  ((s.setFldI F.PWR_LEG_STAT_PENDING leg 0).setFldI F.PWR_LEG_STAT_HELD_OFF leg 0).setFldI F.PWR_LEG_STAT_RETRIES leg 0

end Sys2Proof.Machine
end

