-- ==== Sys2Proof/Machine/Fans.lean ====
section
/-! DEFINITION. The fans' duty (R425), as the sensors, the drives' temperatures and the configuration give it. -/

namespace Sys2Proof.Machine

/-- A sensor's reading in 1/16 °C. -/
def sensTemp (s : State) (i : Nat) : Int := (BitVec.ofNat 16 (s.fldI F.PWR_SENS_STAT_TEMP i)).toInt

/-- A field of a curve or of a sensor's configuration as the last poll found it: a change applies at the next poll (R430). -/
def polledFld (s : State) (f : Fld) (i : Nat) : Nat := fldGet s.pwr.polled f i

/-- A poll takes the curves and the sensors' configuration as they stand. -/
def takePolled (s : State) : State :=
  let addrs := ((List.range 24).map fun i => F.PWR_FAN_CURVE0_T0.addr 0 + 4 * i) ++
    (List.range 32).map fun i => F.PWR_SENS_CFG_EN.addr i
  s.onPwr fun p => { p with polled := addrs.foldl (fun t a => setRawWord t a (rawWord s.regs a)) p.polled }

/-- Is an entry enabled, and does it give a valid reading? -/
def sensEn (s : State) (i : Nat) : Bool := polledFld s F.PWR_SENS_CFG_EN i == 1
def sensGood (s : State) (i : Nat) : Bool :=
  sensEn s i && s.fldI F.PWR_SENS_STAT_VALID i == 1 && s.fldI F.PWR_SENS_STAT_LOST i == 0

/-- The hottest drive's temperature as its basic management data gives it, in °C: a two's complement byte. -/
def driveTemps (s : State) : List Int :=
  (s.drv.slots.filter fun e => e.2.smbOk && e.2.seated).map fun e => (BitVec.ofNat 8 e.2.temp).toInt

/-- The readings that count in a zone, each less its offset, in 1/16 °C. -/
def zoneReadings (s : State) (zone : Nat) : List Int :=
  (((List.range 32).filter fun i => sensGood s i && polledFld s F.PWR_SENS_CFG_ZONE i == zone).map fun i =>
    sensTemp s i - 16 * (polledFld s F.PWR_SENS_CFG_OFFSET_C i : Int)) ++
  (if s.fld F.PWR_CFG_DRIVE_ZONE = zone then
    (driveTemps s).map fun t => 16 * (t - (s.fld F.PWR_CFG_DRIVE_OFFSET_C : Int)) else [])

/-- The zone temperature: the highest reading, or none. -/
def zoneTemp (s : State) (zone : Nat) : Option Int :=
  match zoneReadings s zone with
  | [] => none
  | t :: ts => some (ts.foldl max t)

/-- Between two points of a curve, linear in 1/16 °C and rounded down. -/
def between (t t0 t1 d0 d1 : Int) : Int := if t1 ≤ t0 then d1 else d0 + (t - 16 * t0) * (d1 - d0) / (16 * (t1 - t0))

/-- A channel's curve (R425): D0 at or below T0, D3 at or above T3; a point below its predecessor counts as equal to it. -/
def curveDuty (s : State) (c : Nat) (t : Int) : Nat :=
  let t0 : Int := polledFld s F.PWR_FAN_CURVE0_T0 c
  let t1 : Int := max t0 (polledFld s F.PWR_FAN_CURVE0_T1 c)
  let t2 : Int := max t1 (polledFld s F.PWR_FAN_CURVE0_T2 c)
  let t3 : Int := max t2 (polledFld s F.PWR_FAN_CURVE0_T3 c)
  let d0 : Int := polledFld s F.PWR_FAN_CURVE1_D0 c
  let d1 : Int := polledFld s F.PWR_FAN_CURVE1_D1 c
  let d2 : Int := polledFld s F.PWR_FAN_CURVE1_D2 c
  let d3 : Int := polledFld s F.PWR_FAN_CURVE1_D3 c
  let d := if t ≤ 16 * t0 then d0 else if t ≥ 16 * t3 then d3
    else if t ≤ 16 * t1 then between t t0 t1 d0 d1
    else if t ≤ 16 * t2 then between t t1 t2 d1 d2
    else between t t2 t3 d2 d3
  d.toNat

/-- Is a zone forced to full speed: a sensor of it lost, or a fan of it failed? -/
def zoneForced (s : State) (zone : Nat) : Bool :=
  ((List.range 32).any fun i => sensEn s i && s.fldI F.PWR_SENS_STAT_LOST i == 1 && polledFld s F.PWR_SENS_CFG_ZONE i == zone) ||
  ((List.range 12).any fun c => s.fldI F.PWR_FAN_STAT_FAIL c == 1 && s.fldI F.PWR_FAN_CFG_ZONE c == zone)

/-- Set a channel's duty (R425). -/
def setFan (s : State) (c : Nat) : State :=
  let zone := s.fldI F.PWR_FAN_CFG_ZONE c
  let forced := zoneForced s zone
  let duty :=
    if s.fldI F.PWR_FAN_CFG_EN c = 0 ∨ forced then 255
    else
      match zoneTemp s zone with
      | some t => if s.fld F.PWR_CFG_FAN_AUTO = 1 then curveDuty s c t else s.fldI F.PWR_FAN_CFG_MANUAL c
      | none => s.fldI F.PWR_FAN_CFG_MANUAL c
  (s.setFldI F.PWR_FAN_STAT_DUTY c duty).setFldI F.PWR_FAN_STAT_FORCED c (b2n forced)

/-- Set every channel's duty. -/
def setFans (s : State) : State := (List.range 12).foldl setFan s

/-- PWR_CFG and the channels' configuration, which act at once. -/
def fanReg (addr : Nat) : Bool := addr == 0x0C000040 || (decide (0x0C000700 ≤ addr) && decide (addr < 0x0C000730))

/-- The duty follows a write of such a register. -/
def fansWrite (addr : Nat) (s : State) : State := if fanReg addr then setFans s else s

end Sys2Proof.Machine
end

