-- ==== Sys2Proof/Machine/Batches.lean ====
section
/-! DEFINITION. Batches: their leaf chunks in the fixity store, their statements, closing and sealing, and how a new active
unit and a restart take them up from the store (R169 to R178, R189). -/

namespace Sys2Proof.Machine

/-! The objects of the fixity store (R176). -/

/-- The key of a batch's leaf chunk (R176). -/
def chunkKey (seq chunk : Nat) : Bytes := [0x4C] ++ leBytes 8 seq ++ leBytes 4 chunk

/-- The key of a batch's statement (R176). -/
def sealKey (seq : Nat) : Bytes := [0x42] ++ leBytes 8 seq

/-- The chunks of a batch: up to 131,072 leaves each. -/
def chunksOf (n : Nat) : Nat := (n + 131071) / 131072

/-- Write the leaf chunks `lo` up to `hi` of a batch (R176). -/
def storeChunks (seq lo hi : Nat) (ls : List Leaf) (s : State) : State :=
  (List.range (hi - lo)).foldl (fun s c =>
    storeObject (chunkKey seq (lo + c)) (((ls.drop ((lo + c) * 131072)).take 131072).flatMap Leaf.bytes) s) s

/-- The chunks that the oldest open batch has filled are written (R176). -/
def storeFilled (s : State) : State :=
  match s.fix.opened with
  | [] => s
  | b :: rest =>
    let full := b.all.length / 131072
    if full ≤ b.written ∨ !storeReady s ∨ !isActive s then s
    else storeChunks (s.fix.lastSeq + 1) b.written full b.all (s.onFix fun f => { f with opened := { b with written := full } :: rest })

/-- Store an object of custody: in FIX's record of them and in the store. -/
def storeCustody (key data : Bytes) (s : State) : State :=
  storeObject key data (s.onFix fun f => { f with custody := f.custody.filter (fun x => x.1 != key) ++ [(key, data)] })

/-- The BATCH_SEQ and LEAF_INDEX of the latest leaf with a LINK, in the batches that are closed. -/
def linkedLeaf (s : State) (link : Digest) : Option (Nat × Nat) :=
  (s.fix.sealed ++ s.fix.closed).reverse.findSome? fun b =>
    (((List.range b.all.length).zip b.all).reverse.find? fun x => x.2.link == link).map fun x => (b.seq, x.1)

/-- A custody record goes into the store under the BATCH_SEQ and LEAF_INDEX of the leaf with its LINK; until that leaf's batch
closes its index may change, and the record waits (R170, R189). -/
def placeCustody (s : State) (x : Digest × Bytes) : State :=
  let open_ := s.fix.opened.any fun b => b.all.any fun l => l.link == x.1
  match (if open_ then none else linkedLeaf s x.1) with
  | some (seq, index) => storeCustody ([0x43] ++ leBytes 8 seq ++ leBytes 4 index) x.2 s
  | none => s.onFix fun f => { f with custodyWait := f.custodyWait ++ [x] }

/-! Closing (R170 to R175). -/

/-- The rotation whose fixity key signs a statement formed now (R303). -/
def rotationNow (s : State) : Nat := s.tru.rotation

/-- The 64-byte fixity public key of a rotation (R299). -/
def fixityPublicKey (s : State) (rotation : Nat) : Bytes := beBytes 64 (Config.fixityKey s.ctl.shelfUuid rotation).toNat

/-- The 192-byte statement of a batch that closes now (R173). -/
def statementOf (s : State) (seq : Nat) (b : Batch) : Bytes :=
  let ls := b.all
  let has := fun t => ls.any fun l => l.typ == t
  let jseqs := ls.map (·.jseq)
  let signer := (digestBytes (Config.sha256 (fixityPublicKey s (rotationNow s)))).take 16
  let g := s.ctl.gts
  padTo 192 ([0x46, 0x58, 0x42, 0x41, 0x54, 0x43, 0x48, 0x31] ++ leBytes 4 1 ++
    leBytes 4 (b2n (has 4) + 2 * b2n (has 3) + 4 * b2n b.early + 8 * b2n b.late) ++ shelf16 s ++
    leBytes 8 seq ++ leBytes 8 b.start ++ leBytes 8 b.stop ++ leBytes 8 ls.length ++
    digestBytes (treeRoot (ls.map Leaf.hash)) ++ digestBytes s.fix.prevHash ++
    leBytes 8 (jseqs.foldl min (jseqs.headD 0)) ++ leBytes 8 (jseqs.foldl max 0) ++ signer ++
    leBytes 1 (g.source + 128 * b2n g.locked) ++ leBytes 1 s.boot.roleSel)

/-- Close a batch: its statement is formed, the chunks not written yet are, BATCH_CLOSED tells its leaves, and with 8 unsealed
SIGN_BACKLOG follows (R173, R175, R176). -/
def closeBatch (b : Batch) (rest : List Batch) (s : State) : State :=
  let seq := s.fix.lastSeq + 1
  let st := statementOf s seq b
  let n := chunksOf b.all.length
  let x := { b with
    leaves := b.all, fresh := [], seq := seq, statement := st, rotation := rotationNow s, closedGts := s.now, written := n }
  let wait := s.fix.custodyWait
  let s := s.onFix fun f => { f with
    opened := rest, closed := f.closed ++ [x], lastSeq := seq, prevHash := Config.sha256 st, closedTo := b.stop
    custodyWait := [] }
  let s := wait.foldl placeCustody (storeChunks seq b.written n x.leaves s)
  let s := emit 0x581 0x801 0 (b2n b.early * 2 ^ 35 + min x.leaves.length (2 ^ 32 - 1)) s
  if s.fix.closed.length = 8 then emit 0x581 0x803 2 8 s else s

/-- The oldest open batch goes on to the next boundary, and the leaves up to it join (R175). -/
def extendBatch (b : Batch) (rest : List Batch) (s : State) : State :=
  let p := periodAt s b.stop
  let stop := (b.stop / p + 1) * p
  let (joins, later) := rest.partition fun x => decide (x.start < stop)
  let b := (joins.flatMap Batch.all).foldl Batch.insert { b with stop := stop }
  s.onFix fun f => { f with opened := b :: later }

/-- The boundary of the oldest open batch is reached: it closes, or with 64 unsealed goes on (R175). -/
def boundaryReached (s : State) : State :=
  match s.fix.opened with
  | [] => s
  | b :: rest => if s.fix.closed.length < 64 then closeBatch b rest s else extendBatch b rest s

/-- BATCH_CLOSED: the oldest open batch closes; with 64 unsealed it goes on to the next boundary, and the leaves up to it
join (R170, R175). Only the active unit closes batches (R178). -/
def execBatchClosed (s : State) : Result := if isActive s then .next (boundaryReached s) else .next s

/-! Signing and sealing (R174). -/

/-- A signature of a statement: 29,792 bytes (R174). -/
def signatureOf (b : Batch) : Bytes := Config.fixitySignature b.statement b.rotation b.seed

/-- Statement, public key and signature of a batch, as the store keeps them (R176). -/
def sealedObject (s : State) (b : Batch) : Bytes := b.statement ++ fixityPublicKey s b.rotation ++ signatureOf b

/-- The oldest closed batch not signed yet is signed, and its statement, public key and signature are written (R174, R175). -/
def signBatch (signMs : Nat) (s : State) : State :=
  match s.fix.closed.find? fun b => b.object == [] with
  | none => s
  | some b =>
    let b := { b with seed := hedge s }
    let b := { b with object := sealedObject s b }
    let s := s.drawn.onFix fun f => { f with closed := f.closed.map fun x => if x.seq = b.seq then b else x }
    (storeObject (sealKey b.seq) b.object s).setFld F.FIX_SIGN_TIME_LAST_MS (min signMs 65535)

/-- Are the statement, the signature and all the leaves of a batch durable in the store (R174)? -/
def batchStored (s : State) (b : Batch) : Bool :=
  b.object != [] && stored s (sealKey b.seq) && (List.range (chunksOf b.leaves.length)).all fun c => stored s (chunkKey b.seq c)

/-- The oldest closed batch is sealed once all of it is durable (R174); sealing waits for recomputed batches (R177). -/
def sealOldest (s : State) : State :=
  match s.fix.closed with
  | [] => s
  | b :: rest =>
    if s.fix.recomputing ∨ !batchStored s b then s
    else
      let s := s.onFix fun f => { f with closed := rest, sealed := f.sealed ++ [b] }
      let ms := min ((s.now - b.closedGts) / 1000000) 65535
      emit 0x581 0x802 0 b.seq (s.setFld F.FIX_SIGN_TIME_MAX_MS (max (s.fld F.FIX_SIGN_TIME_MAX_MS) ms))

/-- Every batch that is durable is sealed, in BATCH_SEQ order. -/
def sealBatches (s : State) : State := s.fix.closed.foldl (fun s _ => sealOldest s) s

/-- What the fixity engine does when a record has committed: filled chunks are written, durable batches sealed. -/
def fixAdvance (s : State) : State := sealBatches (storeFilled s)

/-- BATCH_SEALED: the oldest closed batch is signed, in `signMs` milliseconds, and what is durable by now is sealed; a batch whose
objects are still on their way is sealed when the last of them has committed (R174). Only the active unit signs (R178), and not
while leaves are recomputed (R177). -/
def execBatchSealed (signMs : Nat) (s : State) : Result :=
  if isActive s ∧ !s.fix.recomputing then .next (sealBatches (signBatch signMs s)) else .next s

/-! What the store holds (R176 to R178). -/

/-- The leaf of 128 stored bytes at an offset (R168). -/
def leafAt (b : Bytes) (o : Nat) : Leaf :=
  let n := leAt b (o + 5) 1
  { typ := leAt b (o + 4) 1, keyLen := n, lbaShift := leAt b (o + 6) 1, nsid := leAt b (o + 8) 4, length := leAt b (o + 12) 4
    key := slice b (o + 16) (if n = 0 then 8 else min n 16), extent := leAt b (o + 32) 8, jseq := leAt b (o + 40) 8
    gts := leAt b (o + 48) 8, digest := BitVec.ofNat 256 (ofBe (slice b (o + 56) 32))
    link := BitVec.ofNat 256 (ofBe (slice b (o + 88) 32)) }

/-- The value of a key among objects of the store as they are read. -/
def valueOf (store : List (Bytes × Bytes)) (key : Bytes) : Option Bytes := (store.find? fun x => x.1 == key).map (·.2)

/-- The leaves of a batch from its chunks as they are read. -/
def storedLeaves (store : List (Bytes × Bytes)) (seq : Nat) : List Leaf :=
  let b := ((List.range store.length).filterMap fun c => valueOf store (chunkKey seq c)).flatten
  (List.range (b.length / 128)).map fun i => leafAt b (i * 128)

/-- The sealed batch of a statement object; none where leaves of it are not in the store. -/
def storedBatch (store : List (Bytes × Bytes)) (object : Bytes) : Option Batch :=
  let seq := leAt object 32 8
  let ls := storedLeaves store seq
  if leAt object 56 8 = ls.length then
    some { (default : Batch) with
      start := leAt object 40 8, stop := leAt object 48 8, leaves := ls, seq := seq, statement := object.take 192, object := object }
  else none

/-- Insert a batch in the order of BATCH_SEQ. -/
def batchInsert (b : Batch) : List Batch → List Batch
  | [] => [b]
  | x :: xs => if b.seq < x.seq then b :: x :: xs else x :: batchInsert b xs

/-- The sealed batches that the store holds, in the order of BATCH_SEQ. -/
def storedBatches (store : List (Bytes × Bytes)) : List Batch :=
  ((store.filter fun x => x.1.head? == some 0x42).filterMap fun x => storedBatch store x.2).foldl (fun bs b => batchInsert b bs) []

/-- FIX takes up what the store holds: the sealed batches, the custody records and bundles, and where the next batch goes on. -/
def readStore (store : List (Bytes × Bytes)) (s : State) : State :=
  let bs := storedBatches store
  s.onFix fun f => { f with
    sealed := bs, closed := [], opened := [], storeWait := [], custodyWait := []
    custody := store.filter fun x => x.1.head? == some 0x43 || x.1.head? == some 0x57
    lastSeq := (bs.getLast?.map (·.seq)).getD 0, closedTo := (bs.getLast?.map (·.stop)).getD 0
    prevHash := (bs.getLast?.map fun b => Config.sha256 b.statement).getD 0 }

/-- The keys of the leaf chunks in the store of batches past the last sealed one. -/
def looseChunks (s : State) : List Bytes :=
  (s.lay.map.filter fun m => m.nsid == storeNsid && !m.removed && m.key.length == 13 && m.key.head? == some 0x4C &&
    decide (s.fix.lastSeq < leAt m.key 1 8)).map (·.key)

/-- After the replay of a restart FIX takes up the store, discards the leaf chunks of unsealed batches, and recomputes the leaves
of the records replayed (R177). -/
def startRecompute (store : List (Bytes × Bytes)) (s : State) : State :=
  let s := readStore store s
  (looseChunks s).foldl dropObject (s.onFix fun f => { f with recomputing := true, replayTo := s.lay.jseqNext })

/-- A new active unit takes up the store; the leaves that no sealed batch holds go into batches again, and those batches whose
boundary is 10 µs past are closed, in BATCH_SEQ order, with its own SIGNER and ROLE (R178). -/
def fixTakeover (store : List (Bytes × Bytes)) (s : State) : State :=
  let held := (s.fix.closed ++ s.fix.opened).flatMap Batch.all
  let s := readStore store s
  let done := s.fix.sealed.flatMap (·.leaves)
  let s := (held.filter fun l => !done.contains l).foldl addLeaf s
  let due := s.fix.opened.filter fun b => decide (b.stop + 10000 ≤ s.now)
  fixAdvance (due.foldl (fun s _ => boundaryReached s) s)

end Sys2Proof.Machine
end

