-- ==== Sys2Proof/Machine/Grants.lean ====
section
/-! DEFINITION. Arbitration and the pipeline's events: ARBITER_GRANT to COMPLETION_HANDED_TO_XPT (R50, R51, R54, R56, R61,
R63, R138, R146). -/

namespace Sys2Proof.Machine

/-- LAST_DATA_CELL_STORED (R51): a write goes to ENCODING and to the lanes; a Compare reads the blocks it names. -/
def execLastDataCellStored (i : Nat) (s : State) : Result :=
  let e := entryOf s i
  if !(e.live && e.state == .fetching && decide (e.wanted ≤ e.data.length)) then .next s
  else
    let data := e.data.take e.wanted
    let s := onEntry i (fun e => { e with data := data, hostIv := e.hostIv + (s.now - e.hostStart) }) s
    if e.cap.opc = 0x05 then .next (advanceRead i s) else .next (encodeData i s)

/-- LAST_PARITY_CELL_READY (R51, R138 step 1). -/
def execLastParityCellReady (i : Nat) (s : State) : Result :=
  let e := entryOf s i
  if !(e.live && e.state == .encoding) then .next s
  else .next (submitUnits i (dropLanes i s))

/-- How a write to a drive ends: well, or with the loss of the drive (R138, R207), or, in a Reservation Conflict, with the end of
all I/O (R213). -/
def driveWriteEnds (slot : Nat) (result : DriveResult) (ok : State → State) (s : State) : State :=
  match result with
  | .ok => ok s
  | .failed => driveFailed slot 4 s
  | .conflict => preempted slot s

/-- Does a write under way to a drive belong to the replacement chunk of a rebuild: its units or its header area? -/
def inChunk (s : State) (m : Member) (lba : Nat) : Bool :=
  let first := dataStart (s.lay.drives.at m.slot).chunkCount + m.chunk * 16384
  lba == headerLba m.chunk || (decide (first ≤ lba) && decide (lba < first + 16384))

/-- Once the units and the header area of a rebuild are written, the record of type 4 with the set's next generation is
submitted (R147). -/
def rebuildRecord (s : State) : State :=
  match s.lay.rebuild.target with
  | none => s
  | some (id, n, m) =>
    let r := s.lay.sets.at id
    let r := { r with gen := r.gen + 1, members := r.members.set n m }
    let sent := (s.lay.journal ++ s.lay.deferred).any fun x => x.setRec.any fun y =>
      y.1 == id && y.2.2.gen == r.gen && y.2.2.members.getD n default == m
    if !s.lay.rebuild.written || sent || (portOf s m.slot).back.any fun b => inChunk s m b.1 then s
    else submitRecord { setRecord 4 id s with setRec := some (id, liveRows s id, r.recorded) } s

/-- A write that belongs to no command has completed. -/
def backDone (slot lba : Nat) (result : DriveResult) (s : State) : State :=
  match (portOf s slot).back.find? fun b => b.1 == lba with
  | none => s
  | some b =>
    let s := drvDone slot b.2.2 true lba b.2.1 (onPort slot (fun p => { p with back := p.back.erase b }) s)
    driveWriteEnds slot result rebuildRecord s

/-- A unit write of a command has completed: the last one takes it to step 2 (R138). -/
def unitDone (i slot set row unit : Nat) (result : DriveResult) (s : State) : State :=
  let e := entryOf s i
  let is := fun (w : UnitIo) => w.slot == slot && w.set == set && w.row == row && w.unit == unit
  match e.unitsOut.find? is with
  | none => s
  | some w =>
    if !(e.live && e.state == .drive) then s
    else
      let s := drvDone slot e.urgent true (ioLba s set row unit) ((w.data.length + 4095) / 4096) s
      driveWriteEnds slot result (fun s =>
        let s := onEntry i (fun e => { e with unitsOut := e.unitsOut.filter fun w => !is w }) s
        if (entryOf s i).unitsOut.isEmpty then journalStep i (roundEnds i s) else s) s

/-- UNIT_WRITE_COMPLETION (R138, R213). -/
def execUnitWriteCompletion (write : WriteId) (slot : Fin 48) (result : DriveResult) (s : State) : Result :=
  match write with
  | .unit i set row unit => .next (unitDone i slot.val set row unit result s)
  | .other lba => .next (backDone slot.val lba result s)

/-- DRIVE_READ_COMPLETION (R51, R129, R146): the unit is checked; with every unit known the read is done, decoded if needed;
a unit that fails its check, or cannot be read, is decoded from the others. -/
def execDriveReadCompletion (i set row unit : Nat) (header data : Bytes) (result : DriveResult) (s : State) : Result :=
  let e := entryOf s i
  let is := fun (w : UnitIo) => w.set == set && w.row == row && w.unit == unit
  match e.readsOut.find? is with
  | none => .next s
  | some w =>
    let s := drvDone w.slot e.urgent false (ioLba s set row unit) ((setGeom s set).u / 4096) s
    let s := onEntry i (fun e => { e with readsOut := e.readsOut.filter fun w => !is w }) s
    let s := if (entryOf s i).readsOut.isEmpty then roundEnds i s else s
    let bad := onEntry i (fun e => { e with bad := (set, row, unit) :: e.bad })
    match result with
    | .ok =>
      if unitPasses s set row ⟨unit, header, data⟩ then
        .next (advanceRead i (onEntry i (fun e => { e with got := e.got ++ [{ w with data := data }] }) s))
      else .next (advanceRead i (bad (unitCheckFail set row unit s)))
    | .failed => .next (advanceRead i (bad (driveReadFailed w.slot (unitCheckFail set row unit s))))
    | .conflict => .next (preempted w.slot s)

/-- JOURNAL_COMPLETION (R138): the last copy is the commit point; a failed copy loses its drive. -/
def execJournalCompletion (jseq : Nat) (slot : Fin 48) (result : DriveResult) (s : State) : Result :=
  match recOf s jseq with
  | none => .next s
  | some r =>
    match r.copies.find? fun c => c.slot == slot.val && !c.done with
    | none => .next s
    | some c =>
      .next (driveWriteEnds slot.val result (fun s =>
        let s := onRec jseq (fun r => { r with
          copies := r.copies.map fun c => if c.slot = slot.val then { c with done := true } else c }) s
        if (recOf s jseq).any (·.durable) then fixAdvance (nextRebuild (releaseStore (copiesDone jseq s))) else s)
        (drvDone slot.val (r.urgent s) true (256 + c.pos) r.blocks s))

/-- RDMA_WRITE_ACKNOWLEDGED: in strict mode every Write with the command's data is acknowledged (R51, R63). -/
def execRdmaWriteAcknowledged (i : Nat) (s : State) : Result :=
  let e := entryOf s i
  let q := queueOf s e.cap.cntlid e.cap.sqid
  if e.live && e.state == .returning && !((ctxOf s q.conn).sends.any fun x => x.2.2 == i + 1) then
    .next (toPosting i e.status e.dw0 s)
  else .next s

/-- COMPLETION_HANDED_TO_XPT (R50, R51, R63): the completion is posted, measured, and the entry and its cells are free; a
command that its controller ended has no completion (R70). -/
def execCompletionHandedToXpt (i : Nat) (s : State) : Result :=
  let e := entryOf s i
  if !(e.live && e.state == .posting && decide (i < 32768)) then .next s
  else if e.ended then .next (freeEntry i .done s)
  else
    let s := post e.cap.cntlid e.cap.sqid e.cap.cid e.status e.dw0 (invKey e.cap.sgl) s
    .next (freeEntry i .done (measure e s))

/-! The arbiter (R54). -/

/-- The free entry a class takes on a port: the lowest of its range (R50). -/
def freeEntryFor (s : State) (port cls : Nat) : Option Nat :=
  let lo := if cls = 0 then 256 * port else 16384
  let hi := if cls = 0 then 256 * port + 256 else 32768
  let i := s.cmd.table.gap lo
  if i < hi then some i else none

/-- Are all grants held: an activation's fetch stop (R72), a fail-over or resynchronisation (R362, R366), or a power state
that is not PS0 (R77)? -/
def grantsHeld (s : State) : Bool := actHolds s || redHolds s || s.cmd.exiting || s.cmd.ps != 0

/-- May a capsule be granted: it came before a shutdown (R69), an entry is free for its class, and no throttle holds it
(R140)? -/
def grantable (s : State) (c : Capsule) : Bool :=
  !c.late && (freeEntryFor s c.port c.cls).isSome && !(s.lay.throttle && c.cls != 0 && writeType c.opc)

/-- Insert a number in a rising list without repeats. -/
def risingInsert (k : Nat) : List Nat → List Nat
  | [] => [k]
  | x :: xs => if k < x then k :: x :: xs else if k = x then x :: xs else x :: risingInsert k xs

/-- The queues of a port with a capsule of a class to grant, in rising order. -/
def queuesWith (s : State) (port cls : Nat) : List Nat :=
  (s.cmd.queued.filter fun c => c.port == port && c.cls == cls && grantable s c).foldl
    (fun l c => risingInsert (qKey c.cntlid c.sqid) l) []

/-- The next queue of a class by round robin, with the arbiter after the visit: up to 2^BURST commands per visit (R54). -/
def nextQueue (a : Arbiter) (cls burst : Nat) (keys : List Nat) : Nat × Arbiter :=
  let last := a.lastQueue.at cls
  let stay := decide (last ≠ 0) && keys.contains (last - 1) && (burst == 7 || decide (a.visit.at cls < 2 ^ burst))
  let k := if stay then last - 1 else ((keys.find? fun k => decide (last ≤ k)).getD (keys.headD 0))
  (k, { a with
    lastQueue := a.lastQueue.put cls (k + 1), visit := a.visit.put cls (if stay then a.visit.at cls + 1 else 1) })

/-- The weight field of a class on a port (R54), or of the HEP functions' arbiter (R321). -/
def weightOf (s : State) (port cls : Nat) : Nat :=
  if port = 64 then
    match cls with
    | 1 => s.fld F.HEP_ARB_WEIGHT_HIGH
    | 2 => s.fld F.HEP_ARB_WEIGHT_MEDIUM
    | _ => s.fld F.HEP_ARB_WEIGHT_LOW
  else
  match cls with
  | 1 => s.fldI F.CMD_ARB_WEIGHT_HIGH port
  | 2 => s.fldI F.CMD_ARB_WEIGHT_MEDIUM port
  | _ => s.fldI F.CMD_ARB_WEIGHT_LOW port

/-- The BURST field of an arbiter (R54, R321). -/
def burstOf (s : State) (port : Nat) : Nat :=
  if port = 64 then s.fld F.HEP_ARB_WEIGHT_BURST else s.fldI F.CMD_ARB_WEIGHT_BURST port

/-- The class served next: class 0 if one is queued, else classes 1 to 3 by weighted round robin; a class with nothing
queued forfeits the rest of its round, and a new round starts when no class has both credit and commands (R54). The weights
and BURST are those of the round's start (R81). -/
def nextClass (s : State) (port : Nat) (a : Arbiter) : Option (Nat × Arbiter) :=
  let q := fun c => !(queuesWith s port c).isEmpty
  let kept := fun c => if q c then a.credits.at c else 0
  let fresh := kept 1 = 0 ∧ kept 2 = 0 ∧ kept 3 = 0
  let a := if fresh then { a with burst := burstOf s port } else a
  if q 0 then some (0, a)
  else if !(q 1 || q 2 || q 3) then none
  else
    let credit := fun c => if fresh then (if q c then weightOf s port c + 1 else 0) else kept c
    let turn := if fresh then 0 else a.turn
    match [1, 2, 3].find? fun i => decide (0 < credit ((turn + i - 1) % 3 + 1)) with
    | none => none
    | some i =>
      let c := (turn + i - 1) % 3 + 1
      let put := fun (t : Tab Nat) k => t.put k (if k = c then credit k - 1 else credit k)
      some (c, { a with credits := put (put (put a.credits 1) 2) 3, turn := c })

/-- The 32 bytes of an entry (R50). -/
def Entry.bytes (e : Entry) : Bytes :=
  let st := match e.state with
    | .queued => 0 | .granted => 1 | .fetching => 2 | .encoding => 3 | .drive => 4 | .journal => 5 | .committed => 6
    | .returning => 7 | .posting => 8
  leBytes 2 e.cap.cntlid ++ leBytes 2 e.cap.sqid ++ leBytes 2 e.cap.cid ++
    leBytes 1 (st + e.cap.cls * 16 + b2n e.abortPending * 64 + b2n e.ended * 128) ++ leBytes 1 (e.cap.opc % 128) ++
    leBytes 4 e.cap.nsid ++ leBytes 1 e.cap.port ++ leBytes 3 0 ++ leBytes 8 e.cap.gtsIn ++ leBytes 4 e.cap.xlen ++
    leBytes 4 e.ticket

/-- What a port's arbiter grants next, its entry and the arbiter after the visit (R50, R54): none while grants are held or
nothing is left to grant. -/
def grantChoice (s : State) (port : Nat) : Option (Capsule × Nat × Arbiter) :=
  if grantsHeld s then none
  else
    match nextClass s port (s.cmd.arbiters.at port) with
    | none => none
    | some (cls, a) =>
      let (key, a) := nextQueue a cls a.burst (queuesWith s port cls)
      let here := fun (c : Capsule) => c.port == port && c.cls == cls && qKey c.cntlid c.sqid == key && grantable s c
      match s.cmd.queued.find? here, freeEntryFor s port cls with
      | some c, some i => some (c, i, a)
      | _, _ => none

/-- The entry of a command just granted (R50, R51). -/
def grantEntry (s : State) (c : Capsule) : Entry :=
  { (default : Entry) with live := true, cap := c, state := .granted, granted := s.now, strict := s.fld F.XPT_CFG_STRICT == 1 }

/-- ARBITER_GRANT (R54; port 64 is the arbiter of the HEP functions, R321): the port's arbiter takes a command, which gets its
entry (R50, R51), armed samplers capture it (R443) and its work begins. With grants held or nothing to grant, nothing
happens. -/
def execArbiterGrant (port : Fin 65) (s : State) : Result :=
  match grantChoice s port.val with
  | none => .next s
  | some (c, i, a) =>
    let e := grantEntry s c
    let s := s.onCmd fun m => { m with
      queued := m.queued.erase c, arbiters := m.arbiters.put port.val a, table := m.table.put i e }
    .next (startWork i (captureGrant port.val e.bytes s))

end Sys2Proof.Machine
end

