-- ==== Sys2Proof/Machine/OpsReg.lean ====
section
/-! DEFINITION. What every register access goes through: the paths and their rights (R386, R391, R392), the protected groups
(R393), the image lock (R12), conflicts (R396), and the plain effect of a write (R9, R491). -/

namespace Sys2Proof.Machine

/-- A refused write or order (R390): the path's status bit, its count, WRITE_REFUSED, and the message of R401 to the session
it names. `code` is 1 NOT_HOLDER, 2 LOCKED, 3 NO_RIGHT. -/
def refuse (path session addr code : Nat) (s : State) : State :=
  let bit := match code with
    | 1 => F.CTL_PATH_STAT_NOT_HOLDER
    | 2 => F.CTL_PATH_STAT_LOCKED
    | _ => F.CTL_PATH_STAT_NO_RIGHT
  let s := (s.setFldI bit path 1).bumpI F.CTL_PATH_STAT_REFUSED path 1
  let data := path * 2 ^ 33 + code * 2 ^ 30 + addr / 4 % 2 ^ 26
  let s := emit 0x003 0x00B 2 data (s.send (.writeStatus path addr (match code with | 1 => 4 | 2 => 6 | _ => 3)))
  if path % 2 = 0 ∧ path < 4 then direct session (mkRec s 0x003 2 0x00B data) [] s else s

/-- The data of a Bone event: the holder's path and session (R404). -/
def Bone.data (b : Bone) : Nat := b.path * 2 ^ 16 + b.session % 2 ^ 16

/-- The Bone is freed by its holder, or because the holder is gone (R394). -/
def releaseBone (s : State) : State :=
  if s.ctl.bone.held then
    emit 0x004 0x009 1 s.ctl.bone.data (s.onCtl fun c => { c with bone := default })
  else s

/-- Does a path and session hold the Bone (R394)? -/
def holdsBone (s : State) (path session : Nat) : Bool :=
  s.ctl.bone.held && s.ctl.bone.path == path && (path == 4 || s.ctl.bone.session == session)

/-- Does a register belong to the protected groups (R43, R393, R430)? -/
def protectedAddr (addr : Nat) : Bool :=
  addr % 0x1000000 == 0x18 || addr == 0x44 || addr == 0x06000058 || addr == 0x0E000054 || addr == 0x0E000068 ||
    addr == 0x0A000048 || addr == 0x0B000044 || addr == 0x09000060 || addr == 0x09000064 || addr == 0x0C000044 ||
    (decide (0x0C000100 ≤ addr) && decide (addr < 0x0C0001C0)) ||
    (decide (0x0C000200 ≤ addr) && decide (addr < 0x0C0002C0)) ||
    (decide (0x0C000500 ≤ addr) && decide (addr < 0x0C000540))

/-- Is the host endpoint's register path open: the image applied, and no recovery (R460, R463)? -/
def pf0Open (s : State) : Bool := decide (8 ≤ s.boot.step) && s.boot.recovery == 0

/-- Is a path able to carry an access: an Ethernet path by an open session of its port, I3C from step 4 on or in recovery, PF0
once the image has been applied (R386, R460, R463, R467)? -/
def pathLive (s : State) (path session : Nat) : Bool :=
  match path with
  | 0 | 2 => sessionOpen s session && (s.ctl.sessions.at session).port == path / 2
  | 1 | 3 => s.boot.inReset == .none && (decide (4 ≤ s.boot.step) || s.boot.recovery != 0)
  | _ => pf0Open s

/-- A right of a session's principal: 0 READ, 1 OPERATE, 2 BONE, 3 CUSTODY (R386). -/
def hasRight (s : State) (session right : Nat) : Bool :=
  bitAt (s.ctl.principals.at (s.ctl.sessions.at session).principal).rights right

/-- Why a write is not performed: 0 for none, else the code of R403 (R390, R391, R393). -/
def writeRefusal (s : State) (path session addr : Nat) : Nat :=
  if path = 1 ∨ path = 3 then
    if protectedAddr addr then 1
    else if s.fld F.CTL_CFG_I3C_WRITE = 0 ∨ s.boot.recovery = 2 then 3 else 0
  else if path ≠ 4 ∧ !hasRight s session 1 then 3
  else if protectedAddr addr ∧ !holdsBone s path session then 1
  else 0

/-! Conflicts (R396). -/

/-- Word 0 of a conflict entry: the two paths and ADDR[27:2]. -/
def conflictWord (first second addr : Nat) : Nat := first * 2 ^ 29 + second * 2 ^ 26 + addr / 4 % 2 ^ 26

/-- The extension of a CONFLICT message: address, both values, both paths (R401). -/
def conflictExt (m : WriteMark) (path : Nat) (value : Word) : Bytes :=
  beBytes 4 m.addr ++ beBytes 4 m.value.toNat ++ beBytes 4 value.toNat ++ beBytes 1 m.path.val ++ beBytes 1 path ++ [0, 0]

/-- Tell a writing session directly (R401). -/
def tellConflict (path session : Nat) (rec_ : EventRec) (ext : Bytes) (s : State) : State :=
  if path = 0 ∨ path = 2 then direct session rec_ ext s else s

/-- Two paths have written different values at one GTS: the log entry, CONFLICT, and the writers are told. -/
def logConflict (m : WriteMark) (path session : Nat) (value : Word) (s : State) : State :=
  let i := s.ctl.conflictNext % 16
  let w0 := conflictWord m.path.val path m.addr
  let words : List (Nat × Nat) := [(0, w0), (4, m.value.toNat), (8, value.toNat), (12, m.gts)]
  let regs := words.foldl (fun (r : Tab Word) (x : Nat × Nat) =>
    setRawWord r (0x300 + 16 * i + x.1) (BitVec.ofNat 32 x.2)) s.regs
  let s := { s with regs := regs }
  let s := (s.onCtl fun c => { c with conflictNext := (i + 1) % 16 }).bump F.CTL_CONFLICT_COUNT_COUNT
  let s := (s.setFldI F.CTL_PATH_STAT_CONFLICT m.path.val 1).setFldI F.CTL_PATH_STAT_CONFLICT path 1
  let data := i * 2 ^ 32 + w0
  let s := emit 0x003 0x007 1 data s
  let rec_ := mkRec s 0x003 1 0x007 data
  let ext := conflictExt m path value
  tellConflict path session rec_ ext (tellConflict m.path.val m.session rec_ ext s)

/-- A write of an unprotected register is remembered while GTS stands; one that follows another path's with a different value
is a conflict. -/
def noteWrite (path session addr : Nat) (value : Word) (s : State) : State :=
  let marks := s.ctl.marks.filter fun m => m.gts == s.now
  let s := match (marks.filter fun m => m.addr == addr).getLast? with
    | some m => if m.path.val ≠ path ∧ m.value ≠ value then logConflict m path session value s else s
    | none => s
  s.onCtl fun c => { c with marks := marks ++ [⟨s.now, addr, Fin.ofNat 5 path, session, value⟩] }

/-- Would the image lock refuse a part of a write (R12)? -/
def lockHit (s : State) (addr : Nat) (value : Word) : Bool :=
  match findReg addr with
  | some (r, _) => lockRefuses s.locked r.fields value.toNat (rawWord s.regs addr).toNat
  | none => false

/-- The place of a path's source in the ordering key (R34): MA 0x010, MB 0x011, HEP PF0 0x5D0. -/
def pathOrder (path : Nat) : Nat := if path = 4 then 0x5D0 else 0x010 + path / 2

/-- The gate of a register write: the state with what the write leaves behind, and whether it is performed. A write that the
image lock refuses is reported, and its other fields are still written (R12). -/
def writeGate (path session addr : Nat) (value : Word) (s : State) : State × Bool :=
  if !pathLive s path session then (s, false)
  else
    match writeRefusal s path session addr with
    | 0 =>
      let s := if protectedAddr addr then s else noteWrite path session addr value s
      (if lockHit s addr value then refuse path session addr 2 s else s, true)
    | code => (refuse path session addr code s, false)

/-- A register read is answered on its path; the path's last read is remembered for the pairs of R15. -/
def answerRead (path addr : Nat) (v : Word) (s : State) : State :=
  (s.onCtl fun c => { c with paths := c.paths.upd path fun p => { p with lastRead := some addr } }).send (.regRead path addr v)

/-- Values that are treated by another field of the same register (R277, R430, R491): XON_CELLS at or above XOFF_CELLS, ECN_MIN
above ECN_MAX, a fan curve whose points do not ascend. -/
def crossTreat (addr w : Nat) : Nat :=
  if 0x03000200 ≤ addr ∧ addr < 0x03000300 then
    if bitsOf w 31 20 ≤ bitsOf w 19 8 then setBits w 19 8 (bitsOf w 31 20 - 1) else w
  else if addr = 0x04000050 then setBits w 15 0 (min (bitsOf w 15 0) (bitsOf w 31 16))
  else if 0x0C000740 ≤ addr ∧ addr < 0x0C0007A0 ∧ addr % 8 = 0 then
    let t1 := max (bitsOf w 7 0) (bitsOf w 15 8)
    let t2 := max t1 (bitsOf w 23 16)
    setBits (setBits (setBits w 15 8 t1) 23 16 t2) 31 24 (max t2 (bitsOf w 31 24))
  else w

/-- A write's plain effect on the stored fields of a register (R9, R12, R491). -/
def storeWord (addr : Nat) (value : Word) (s : State) : State :=
  match findReg addr with
  | some (r, _) =>
    let w := crossTreat addr (wordWrite s.locked r.fields value.toNat (rawWord s.regs addr).toNat)
    { s with regs := setRawWord s.regs addr (BitVec.ofNat 32 w) }
  | none => s

/-- A write's plain effect in ordering-key order (R34): after it, the writes of the same register at the same GTS from a path
of higher source number take their effect again, so that theirs stands. -/
def storeOrdered (path addr : Nat) (value : Word) (s : State) : State :=
  let later := s.ctl.marks.filter fun m => m.gts == s.now && m.addr == addr && decide (pathOrder path < pathOrder m.path.val)
  later.foldl (fun s m => storeWord addr m.value s) (storeWord addr value s)

/-- Is a register one of CTL_PATH_STAT's? -/
def isPathStat (addr : Nat) : Bool := (List.range 5).any fun p => addr == F.CTL_PATH_STAT_CONFLICT.addr p

end Sys2Proof.Machine
end

