-- ==== Sys2Proof/Machine/HostEndpoint.lean ====
section
/-! DEFINITION. The PCIe host endpoint: HE_LINK_UP to HEP_PPT_WRITE, INTERRUPT_COALESCING_TIMEOUT, and the creation of PCIe
I/O queues (R314 to R339). -/

namespace Sys2Proof.Machine

/-- The source of a function (R338). -/
def fnSrc (k : Nat) : Nat := if k = pf0 then 0x5D0 else 0x400 + k

/-- The values of a PCIe controller's registers that R319 gives: CAP, VS. -/
def pcieCap : Nat := 1023 + 2 ^ 16 + 2 * 2 ^ 24 + 2 ^ 37 + 4 * 2 ^ 52
def pcieVs : Nat := 0x00020000

/-! Functions (R316 to R318). -/

/-- Host software has configured a function. Only PF1 has an MSI capability, of up to 32 messages (R316, R317, R328). -/
def configureFn (k : Nat) (c : HostCfg) (s : State) : State :=
  onFn k (fun f => { f with
    present := true, bme := c.bme, msix := c.msix, msi := c.msi && k == 0, messages := min 32 c.messages, unmasked := c.unmasked
    fnMask := c.fnMask, relaxed := c.relaxed }) s

/-- PF1's sizes, tag enable and timeout, which every function shares (R323, R326, R327); a payload is at most 512 bytes. -/
def configureShared (c : HostCfg) (s : State) : State :=
  s.onHep fun h => { h with mrrs := c.mrrs, mps := min c.mps 512, tag10 := c.tag10, cto := c.cto }

/-- A function's NVMe controller, DISABLED (R318). -/
def createFnCtrl (k : Nat) (s : State) : State :=
  if (ctrlOf s (fnCntlid k)).exists_ then s
  else onCtrl (fnCntlid k) (fun _ => { (default : Controller) with
    exists_ := true, host := s.hep.hosts.at k, fn := some k, queues := if k = 0 then 128 else 16, pm := 3 }) s

/-- The completion timeout HEP uses, in µs (R326). -/
def completionTimeout (s : State) : Nat :=
  match s.hep.cto with
  | 0x1 => 100
  | 0x2 => 10000
  | 0x5 => 55000
  | 0x6 => 210000
  | _ => 50000

/-- A speed code under a limit; limits outside 1 to `top` are treated as `top` (R339). -/
def limited (top limit code : Nat) : Nat := min code (if 1 ≤ limit ∧ limit ≤ top then limit else top)

/-- HE_LINK_UP (R314). In reset the lanes are idle, and in PS4 HEP is powered down (R315, R467). -/
def execHeLinkUp (speed width : Nat) (flit : Bool) (cfg : HostCfg) (s : State) : Result :=
  if s.fld F.HEP_LINK_STAT_UP = 1 ∨ s.boot.inReset ≠ .none ∨ s.cmd.ps = 4 then .next s
  else
    let speed := limited 6 (s.fld F.HEP_CFG_SPEED_MAX) speed
    let width := limited 5 (s.fld F.HEP_CFG_WIDTH_MAX) width
    let s := ((s.setFld F.HEP_LINK_STAT_UP 1).setFld F.HEP_LINK_STAT_FLIT (b2n flit)).setFld F.HEP_LINK_STAT_SPEED speed
    let s := createFnCtrl 0 (configureShared cfg (configureFn 0 cfg (configureFn pf0 cfg
      (s.setFld F.HEP_LINK_STAT_WIDTH width))))
    .next (emit 0x5D0 0xD01 1 (speed + width * 16) s)

/-! Resets (R330 to R332). -/

/-- Every outstanding tag of a function is quarantined, and its waiting requests are gone (R332). -/
def quarantine (k : Nat) (s : State) : State :=
  s.onHep fun h => { h with
    waiting := h.waiting.filter fun r => r.fn != k
    tags := h.tags.mapAll fun _ t => if t.state = .outstanding ∧ t.req.fn = k then { t with state := .quarantined } else t }

/-- The controller of a function is ended (R331): CTRL_RESET kind 4, DISABLED, no queues. -/
def endFnCtrl (k : Nat) (s : State) : State :=
  let id := fnCntlid k
  if !(ctrlOf s id).exists_ then s
  else
    let s := deleteIoQueues id (endCommands id (testReset s))
    let s := s.onHep fun h => { h with
      cqs := h.cqs.put (qKey id 0) default, sqs := h.sqs.put (qKey id 0) default
      coalesced := h.coalesced.filter fun e => e.1 / 256 != k }
    let s := s.onCmd fun c => { c with queues := c.queues.put (qKey id 0) default }
    ctrlReset id 4 0 (onCtrl id (fun c => { c with
      state := 0, cc := 0, le := false, ld := false, shst := 0, cfs := false, aers := [], notices := [], features := [] }) s)

/-- A reset of an NVMe function: its controller, its tags, its configuration, PF1's with what all functions share; `flr` while
an FLR is in progress (R330). The sizes it resets to are those of the PCIe standard (PRESUMED, notes/assumptions/108.md). -/
def resetFn (flr : Bool) (k : Nat) (s : State) : State :=
  if !(fnOf s k).present then s
  else
    let s := if k = 0 then s.onHep fun h => { h with mrrs := 512, mps := 128, tag10 := false, cto := 0 } else s
    onFn k (fun f => { (default : HepFn) with present := f.present, flr := flr }) (quarantine k (endFnCtrl k s))

/-- A reset of PF0: its pair snapshot and staging are cleared, and the Bone it holds is freed (R330, R394). -/
def resetPf0 (flr : Bool) (s : State) : State :=
  let s := s.onCtl fun c => { c with paths := c.paths.put 4 default }
  let s := if s.ctl.bone.path = 4 then releaseBone s else s
  onFn pf0 (fun f => { (default : HepFn) with present := f.present, flr := flr }) s

/-- The VFs exist no more: VF Enable is clear (R317). -/
def removeVfs (s : State) : State :=
  let s := (List.range 64).foldl (fun s i =>
    let s := resetFn false (i + 1) s
    if (ctrlOf s (fnCntlid (i + 1))).exists_ then
      (s.onCmd fun c => { c with ctrls := c.ctrls.put (fnCntlid (i + 1)) default }) else s) s
  s.onHep fun h => { h with vfEnabled := false, numVfs := 0, fns := h.fns.filter fun e => e.1 == 0 || e.1 == pf0 }

/-- A reset of every function. -/
def resetEndpoint (kind : Nat) (s : State) : State :=
  let s := removeVfs s
  emit 0x5D0 0xD03 1 kind (resetPf0 false (resetFn false 0 s))

/-- The data link is down. -/
def dropHeLink (s : State) : State :=
  (((s.setFld F.HEP_LINK_STAT_UP 0).setFld F.HEP_LINK_STAT_FLIT 0).setFld F.HEP_LINK_STAT_SPEED 0).setFld
    F.HEP_LINK_STAT_WIDTH 0

/-- HE_LINK_DOWN: counted, and a hot reset of kind 3 (R330). -/
def execHeLinkDown (s : State) : Result :=
  if s.fld F.HEP_LINK_STAT_UP = 0 then .next s
  else .next (resetEndpoint 3 (emit 0x5D0 0xD02 2 0 ((dropHeLink s).bump F.HEP_LINK_STAT_DOWNS)))

/-- HE_FUNDAMENTAL_RESET (R330). -/
def execHeFundamentalReset (s : State) : Result := .next (resetEndpoint 1 (dropHeLink s))

/-- HE_HOT_RESET (R330). -/
def execHeHotReset (s : State) : Result := .next (resetEndpoint 2 (dropHeLink s))

/-- FLR_PF1: PF1 and every VF; VF Enable clears. An FLR in progress absorbs it (R330, R331). -/
def execFlrPf1 (s : State) : Result :=
  if (fnOf s 0).flr ∨ !(fnOf s 0).present then .next s
  else .next (emit 0x400 0xD03 1 4 (resetFn true 0 (removeVfs s)))

/-- FLR_VF (R330, R331); `vf` 0 is VF1. -/
def execFlrVf (vf : Fin 64) (s : State) : Result :=
  let k := vf.val + 1
  if (fnOf s k).flr ∨ !(fnOf s k).present then .next s else .next (emit (fnSrc k) 0xD03 1 4 (resetFn true k s))

/-- FLR_PF0 (R330). -/
def execFlrPf0 (s : State) : Result :=
  if (fnOf s pf0).flr then .next s else .next (emit 0x5D0 0xD03 1 4 (resetPf0 true s))

/-- FLR_COMPLETE: the function accepts accesses, and host software configures it (R331). -/
def execFlrComplete (fn : Fin 66) (cfg : HostCfg) (s : State) : Result :=
  let k := fn.val
  if !(fnOf s k).flr then .next s
  else
    let s := configureFn k cfg (onFn k (fun f => { f with flr := false }) s)
    .next (if k = 0 then configureShared cfg s else s)

/-- VF_ENABLE (R317): NumVFs above 64 is treated as 64. -/
def execVfEnable (numVfs : Nat) (enable : Bool) (cfg : HostCfg) (s : State) : Result :=
  let n := min numVfs 64
  if !(fnOf s 0).present ∨ s.hep.vfEnabled = enable then .next s
  else if enable then
    let s := (List.range n).foldl (fun s i => createFnCtrl (i + 1) (configureFn (i + 1) cfg s)) s
    .next (emit 0x400 0xD0A 1 (128 + n) (s.onHep fun h => { h with vfEnabled := true, numVfs := n }))
  else
    let n := s.hep.numVfs
    .next (emit 0x400 0xD0A 1 n (removeVfs s))

/-! Bus Master Enable (R333). -/

/-- A live command when BME clears: a write past its fetch runs to its commit with no completion, any other is ended. -/
def bmeEndEntry (s : State) (i : Nat) : State :=
  let e := entryOf s i
  if writeType e.cap.opc ∧ !(e.state = .fetching ∨ e.state = .granted ∨ e.state = .posting) then
    onEntry i (fun e => { e with ended := true }) s
  else if e.state = .posting then freeEntry i .done s
  else freeEntry i .ended (releaseAllocs e.allocs s)

/-- BME_CLEARED: the function issues nothing more, its commands are ended and CSTS.CFS is set. -/
def execBmeCleared (fn : Fin 65) (s : State) : Result :=
  let k := fn.val
  let id := fnCntlid k
  if !(fnOf s k).bme then .next s
  else
    let s := onFn k (fun f => { f with bme := false }) s
    let s := s.onHep fun h => { h with waiting := h.waiting.filter fun r => r.fn != k }
    let live := entriesWhere s fun e => e.cap.cntlid == id
    let queued := (s.cmd.queued.filter fun c => c.cntlid == id).length
    let s := sweepSlots (live.foldl bmeEndEntry (s.onCmd fun c => { c with
      queued := c.queued.filter fun x => x.cntlid != id }))
    let s := onCtrl id (fun c => { c with cfs := true }) s
    .next (emit (fnSrc k) 0xD04 2 (min 65535 (live.length + queued)) s)

/-! Queues and doorbells (R318, R322, R328). -/

/-- The I/O queue numbers a PCIe controller offers (R318). -/
def pairsOf (k : Nat) : Nat := if k = 0 then 128 else 16

/-- The MSI-X vectors a function offers (R328). -/
def vectorsOf (k : Nat) : Nat := if k = 0 then 129 else 17

/-- Completion Queue Invalid and Invalid Queue Size, as the standards number them: notes/assumptions/11.md. -/
def stCqInvalid : Status := ⟨1, 0x00, true⟩
def stQueueSize : Status := ⟨1, 0x02, true⟩

/-- The effect of CREATE_IO_COMPLETION_QUEUE (R318, R328). -/
def runCreateIoCompletionQueue (a : Admin) (qid size vector : Nat) (interrupts contiguous : Bool) (base : Nat) (s : State) :
    State :=
  adminCommand a (fun s =>
    match (ctrlOf s a.cntlid).fn with
    | none => postAdmin a stInvalidOpcode 0 s
    | some k =>
      if qid = 0 ∨ pairsOf k < qid ∨ (cqOf s (qKey a.cntlid qid)).exists_ then postAdmin a stInvalidQueue 0 s
      else if size < 2 ∨ 1024 < size then postAdmin a stQueueSize 0 s
      else if vectorsOf k ≤ vector then postAdmin a stInvalidVector 0 s
      else if !contiguous then postAdmin a stInvalidField 0 s
      else
        let c : CqState := { (default : CqState) with
          exists_ := true, size := size, vector := vector, interrupts := interrupts, base := base }
        postAdmin a stOk 0 (onCq (qKey a.cntlid qid) (fun _ => c) s)) s

/-- CREATE_IO_COMPLETION_QUEUE (R318, R328). -/
def execCreateIoCompletionQueue (a : Admin) (qid size vector : Nat) (interrupts contiguous : Bool) (base : Nat) (s : State) :
    Result :=
  .next (hold (.createIoCompletionQueue a qid size vector interrupts contiguous base)
    (runCreateIoCompletionQueue a qid size vector interrupts contiguous base) s)

/-- The effect of CREATE_IO_SUBMISSION_QUEUE (R318, R321): class 0 is served as class 1. -/
def runCreateIoSubmissionQueue (a : Admin) (qid size cqid : Nat) (contiguous : Bool) (base : Nat) (s : State) : State :=
  adminCommand a (fun s =>
    let c := ctrlOf s a.cntlid
    match c.fn with
    | none => postAdmin a stInvalidOpcode 0 s
    | some k =>
      if qid = 0 ∨ pairsOf k < qid ∨ (queueOf s a.cntlid qid).exists_ then postAdmin a stInvalidQueue 0 s
      else if cqid = 0 ∨ !(cqOf s (qKey a.cntlid cqid)).exists_ then postAdmin a stCqInvalid 0 s
      else if size < 2 ∨ 1024 < size then postAdmin a stQueueSize 0 s
      else if !contiguous then postAdmin a stInvalidField 0 s
      else
        let q : Queue := { (default : Queue) with
          exists_ := true, size := size, cls := max 1 (classOf s c.host qid), port := 64, pcie := true, cq := cqid }
        let s := s.onCmd fun m => { m with queues := m.queues.put (qKey a.cntlid qid) q }
        postAdmin a stOk 0 (s.onHep fun h => { h with sqs := h.sqs.put (qKey a.cntlid qid) ⟨base, 0, 0⟩ })) s

/-- CREATE_IO_SUBMISSION_QUEUE (R318, R321): class 0 is served as class 1. -/
def execCreateIoSubmissionQueue (a : Admin) (qid size cqid : Nat) (contiguous : Bool) (base : Nat) (s : State) : Result :=
  .next (hold (.createIoSubmissionQueue a qid size cqid contiguous base) (runCreateIoSubmissionQueue a qid size cqid contiguous base) s)

/-- An invalid doorbell write: an asynchronous event of type Error, Invalid Doorbell Write Value, log page 0x01 (R322;
notes/assumptions/12.md). -/
def invalidDoorbell (k : Nat) (s : State) : State := notice (fnCntlid k) 0x010100 s

/-- Read `n` submission entries from entry `i` on, up to eight in a read and none across the end of the ring (R322). -/
def fetchEntries (k key base size : Nat) : Nat → Nat → Nat → State → State
  | 0, _, _, s => s
  | fuel + 1, i, n, s =>
    if n = 0 then s
    else
      let m := min n (min 8 (size - i))
      let s := (hostPieces s.hep.mrrs 9 (base + 64 * i) (64 * m)).foldl
        (fun s p => hostReadRequest ⟨k, p.1, p.2, .entries key m⟩ s) s
      fetchEntries k key base size fuel ((i + m) % size) (n - m) s

/-- SUBMISSION_QUEUE_DOORBELL (R315, R322): the new entries are read; they reach CMD as commands of their own. -/
def execSubmissionQueueDoorbell (fn : Fin 65) (qid tail : Nat) (s : State) : Result :=
  let k := fn.val
  let q := queueOf s (fnCntlid k) qid
  let key := qKey (fnCntlid k) qid
  if !(fnOf s k).present ∨ (fnOf s k).flr then .next s
  else if !q.exists_ ∨ q.size ≤ tail then .next (invalidDoorbell k s)
  else
    let x := s.hep.sqs.at key
    let n := (tail + q.size - x.fetched) % q.size
    let s := (startExit s).onHep fun h => { h with sqs := h.sqs.put key { x with tail := tail, fetched := tail } }
    .next (fetchEntries k key x.base q.size 1024 x.fetched n s)

/-- Completions that waited for space in a queue are written while it has some. -/
def drainCq (cntlid cqid : Nat) (s : State) : State :=
  let key := qKey cntlid cqid
  let ws := (cqOf s key).waiting
  ws.foldl (fun s w => hostPost cntlid w.sqid w.cid ⟨w.sct, w.sc, w.dnr⟩ w.dw0 cqid s)
    (onCq key (fun c => { c with waiting := [] }) s)

/-- COMPLETION_QUEUE_DOORBELL (R322). -/
def execCompletionQueueDoorbell (fn : Fin 65) (qid head : Nat) (s : State) : Result :=
  let k := fn.val
  let key := qKey (fnCntlid k) qid
  if !(fnOf s k).present ∨ (fnOf s k).flr then .next s
  else if !(cqOf s key).exists_ ∨ (cqOf s key).size ≤ head then .next (invalidDoorbell k s)
  else .next (drainCq (fnCntlid k) qid (onCq key (fun c => { c with head := head }) s))

/-! Completions of reads (R324 to R326, R332). -/

/-- Is the entry still the command of the function that asked for the data? A controller that was reset gives up its entries. -/
def fetchStands (s : State) (r : HostRead) (i : Nat) : Bool :=
  (entryOf s i).live && (entryOf s i).state == .fetching && fnOfCntlid (entryOf s i).cap.cntlid == some r.fn

/-- A request's bytes are all placed: they go to its command, whose data is complete with its last request. -/
def readEnds (r : HostRead) (buf : Bytes) (s : State) : State :=
  match r.what with
  | .entries _ _ => s
  | .data i id off =>
    let f := s.hep.fetches.at i
    if f.id ≠ id then s
    else
      let whole := f.buf.take off ++ buf ++ f.buf.drop (off + buf.length)
      if f.left ≤ 1 then
        let s := s.onHep fun h => { h with fetches := h.fetches.put i default }
        if fetchStands s r i then onEntry i (fun e => { e with data := whole }) s else s
      else s.onHep fun h => { h with fetches := h.fetches.put i { f with buf := whole, left := f.left - 1 } }

/-- A request ends with an error: the command that needed the data completes with Data Transfer Error and keeps its old data
(R325). -/
def readFails (r : HostRead) (s : State) : State :=
  match r.what with
  | .entries _ _ => s
  | .data i id _ =>
    if (s.hep.fetches.at i).id ≠ id then s
    else
      let s := s.onHep fun h => { h with fetches := h.fetches.put i default }
      let e := entryOf s i
      if fetchStands s r i then
        toPosting i stDataTransfer 0 (onEntry i (fun e => { e with allocs := [] }) (releaseAllocs e.allocs s))
      else s

/-- The state with a tag changed. -/
def onTag (t : Nat) (f : HepTag → HepTag) (s : State) : State := s.onHep fun h => { h with tags := h.tags.upd t f }

/-- A completion with an error, by its code: 0 UR, 1 CA, 2 poisoned (R325, R338). -/
def cplError (t code : Nat) (last : Bool) (s : State) : State :=
  let x := s.hep.tags.at t
  let s := s.bump (if code = 2 then F.HEP_ERR_COUNT_POISONED else F.HEP_ERR_COUNT_UR_CA)
  let s := readFails x.req (emit (fnSrc x.req.fn) 0xD05 2 (t * 65536 + code) (s.send (.aer x.req.fn code)))
  if last then freeTag t s else onTag t (fun x => { x with state := .quarantined }) s

/-- HOST_READ_COMPLETION: a piece of `data` with its Byte Count, or an error. -/
def execHostReadCompletion (tag : Fin 1024) (status : CplStatus) (byteCount : Nat) (data : Bytes) (s : State) : Result :=
  let t := tag.val
  let x := s.hep.tags.at t
  let last := decide (byteCount ≤ data.length)
  match x.state, status with
  | .free, _ => .next (emit 0x5D0 0xD07 1 t (s.bump F.HEP_ERR_COUNT_LATE))
  | .held, _ => .next s
  | .quarantined, .ok => .next (if last then freeTag t s else s)
  | .quarantined, .poisoned => .next (if last then freeTag t s else s)
  | .quarantined, _ => .next (freeTag t s)
  | .outstanding, .ur => .next (cplError t 0 true s)
  | .outstanding, .ca => .next (cplError t 1 true s)
  | .outstanding, .poisoned => .next (cplError t 2 last s)
  | .outstanding, .ok =>
    let off := x.req.len - byteCount
    let buf := (x.buf.take off ++ data ++ x.buf.drop (off + data.length)).take x.req.len
    if last then .next (freeTag t (readEnds x.req buf s)) else .next (onTag t (fun x => { x with buf := buf }) s)

/-- CPL_TIMEOUT: an outstanding request ends with an error; the tag, quarantined or not, is held for one further timeout. -/
def execCplTimeout (tag : Fin 1024) (s : State) : Result :=
  let t := tag.val
  let x := s.hep.tags.at t
  let hold := fun (s : State) => onTag t (fun x => { x with state := .held }) (s.bump F.HEP_ERR_COUNT_TIMEOUTS)
  match x.state with
  | .outstanding => .next (hold (readFails x.req (emit (fnSrc x.req.fn) 0xD06 2 t (s.send (.aer x.req.fn 3)))))
  | .quarantined => .next (hold s)
  | _ => .next s

/-- TAG_HOLD_EXPIRY (R332). -/
def execTagHoldExpiry (tag : Fin 1024) (s : State) : Result :=
  if (s.hep.tags.at tag.val).state = .held then .next (freeTag tag.val s) else .next s

/-! Interrupts (R328, R329). -/

/-- Pending messages that are no longer masked are sent. -/
def sendPending (k : Nat) (s : State) : State :=
  let f := fnOf s k
  if f.fnMask ∨ !f.msix ∨ !f.bme then s
  else
    ((List.range 129).filter fun v => bitAt f.pba v && bitAt f.unmasked v).foldl (fun s v =>
      (onFn k (fun f => { f with pba := setBit f.pba v false }) s).send (.msix k v)) s

/-- MSIX_UNMASK: one vector, or the function where none is named. -/
def execMsixUnmask (fn : Fin 66) (vector : Option Nat) (s : State) : Result :=
  let k := fn.val
  match vector with
  | none => .next (sendPending k (onFn k (fun f => { f with fnMask := false }) s))
  | some v => .next (sendPending k (onFn k (fun f => { f with unmasked := setBit f.unmasked v true }) s))

/-- INTERRUPT_COALESCING_TIMEOUT: the held interrupt of a vector is sent (R329). -/
def execInterruptCoalescingTimeout (fn : Fin 65) (vector : Nat) (s : State) : Result :=
  let key := 256 * fn.val + vector
  if s.hep.coalesced.at key = 0 then .next s
  else .next (raiseVector fn.val vector (s.onHep fun h => { h with coalesced := h.coalesced.put key 0 }))

/-! Peer windows (R334 to R337). -/

/-- A window's two words. -/
structure Window where
  w0 : Nat
  w1 : Nat
deriving DecidableEq, Repr, Inhabited

def Window.enabled (w : Window) : Bool := bitAt w.w0 31
def Window.writeOk (w : Window) : Bool := bitAt w.w0 30
def Window.readOk (w : Window) : Bool := bitAt w.w0 29
def Window.shift (w : Window) : Nat := bitsOf w.w0 28 24
def Window.start (w : Window) : Nat := bitsOf w.w0 11 0 * 65536
def Window.tableBase (w : Window) : Nat := bitsOf w.w1 15 0
def Window.size (w : Window) : Nat := 2 ^ w.shift
def Window.pages (w : Window) : Nat := w.size / 4096

/-- A window of a register array at `base`: the shadow words or the live ones (R339). -/
def windowAt (s : State) (base w : Nat) : Window :=
  ⟨(rawWord s.regs (base + 8 * w)).toNat, (rawWord s.regs (base + 8 * w + 4)).toNat⟩

def shadowBase : Nat := 0x0D000100
def liveBase : Nat := 0x0D000200

/-- Do two windows overlap? -/
def Window.overlaps (a b : Window) : Bool := decide (a.start < b.start + b.size) && decide (b.start < a.start + a.size)

/-- The case in which a commit of MASK is refused (R337, HEP_PWIN_STAT.REASON), the first that holds. -/
def commitRefusal (s : State) (mask : Nat) : Option Nat :=
  let new := fun w => windowAt s (if bitAt mask w then shadowBase else liveBase) w
  let named := ((List.range 32).filter fun w => bitAt mask w && (new w).enabled).map new
  let all := ((List.range 32).map new).filter (·.enabled)
  if s.hep.staged.isSome then some 1
  else if named.any fun w => decide (w.shift < 16) || decide (26 < w.shift) then some 2
  else if named.any fun w => w.start % w.size != 0 || decide (0x10000000 < w.start + w.size) then some 3
  else if named.any fun w => decide (65536 < w.tableBase + w.pages) then some 4
  else if !decide (all.Pairwise fun a b => a.overlaps b = false) then some 5
  else none

/-- HEP_PWIN_COMMIT: the named shadow windows are staged, or the commit is refused as a whole. -/
def execHepPwinCommit (path : Fin 5) (session : Nat) (value : Word) (s : State) : Result :=
  let (s, go) := writeGate path.val session (F.HEP_PWIN_COMMIT_MASK.addr 0) value s
  let mask := value.toNat
  if !go ∨ mask = 0 then .next s
  else
    match commitRefusal s mask with
    | some r => .next ((s.setFld F.HEP_PWIN_STAT_REFUSED 1).setFld F.HEP_PWIN_STAT_REASON r)
    | none =>
      let words := (List.range 64).map fun i => (rawWord s.regs (shadowBase + 4 * i)).toNat
      .next ((s.onHep fun h => { h with staged := some (mask, words) }).setFld F.HEP_PWIN_STAT_PENDING 1)

/-- PWIN_COMMIT: the boundary, at which the staged windows apply together (R336). -/
def execPwinCommit (s : State) : Result :=
  match s.hep.staged with
  | none => .next s
  | some (mask, words) =>
    let regs := (List.range 64).foldl (fun (r : Tab Word) (i : Nat) =>
      if bitAt mask (i / 2) then setRawWord r (liveBase + 4 * i) (BitVec.ofNat 32 (words.getD i 0)) else r) s.regs
    let s := { s with regs := regs }
    let s := (s.onHep fun h => { h with staged := none }).setFld F.HEP_PWIN_STAT_PENDING 0
    .next (emit 0x5D1 0xD08 0 mask s)

/-- A peer page table entry's fields (R339). -/
def pptValid (e : Nat) : Bool := bitAt e 31
def pptWriteOk (e : Nat) : Bool := bitAt e 30
def pptHandle (e : Nat) : Nat := bitsOf e 23 0

/-- The pages of a request within a window: table entry, offset in the page, length. -/
def pagePieces : Nat → Nat → Nat → List (Nat × Nat × Nat)
  | 0, _, _ => []
  | fuel + 1, off, len =>
    if len = 0 then []
    else
      let n := min len (4096 - off % 4096)
      (off / 4096, off % 4096, n) :: pagePieces fuel (off + n) (len - n)

/-- A request to the aperture is refused (R335). -/
def peerRefused (offset : Nat) (read : Bool) (s : State) : State :=
  let s := emit 0x5D1 0xD09 1 (offset % 2 ^ 28) (s.bump F.HEP_PWIN_STAT_FAULTS)
  if read then s.send (.peerRead 1 []) else s

/-- Does the chain of a page hold a cell in a fenced bank, so that it is lost (R36, R255)? -/
def chainLost (s : State) (h : Nat) : Bool := (h :: s.net.peerChains.at h).any fun c => fencedUnit s 3 (bankOf c)

/-- PEER_MEMORY_REQUEST (R334, R335): a write carries its bytes. A page whose chain is lost is refused as one whose handle is
stale, with no HANDLE_STALE (R252, R255). -/
def execPeerMemoryRequest (offset len : Nat) (write : Option Bytes) (s : State) : Result :=
  let read := write.isNone
  let len := match write with | some d => d.length | none => len
  let inWindow := fun (w : Window) => w.enabled && decide (w.start ≤ offset) && decide (offset + len ≤ w.start + w.size)
  match ((List.range 32).map (windowAt s liveBase)).find? inWindow with
  | none => .next (peerRefused offset read s)
  | some w =>
    let pieces := pagePieces (len / 4096 + 2) (offset - w.start) len
    let entry := fun (p : Nat × Nat × Nat) => s.hep.ppt.at (w.tableBase + p.1)
    if s.fld F.HEP_CFG_PEER_EN = 0 ∨ (read ∧ !w.readOk) ∨ (!read ∧ !w.writeOk) ∨
        pieces.any (fun p => !pptValid (entry p) || (!read && !pptWriteOk (entry p))) then .next (peerRefused offset read s)
    else
      match pieces.find? fun p => stale s (pptHandle (entry p)) || chainLost s (pptHandle (entry p)) with
      | some p =>
        let h := pptHandle (entry p)
        let s := if stale s h then handleStale 9 h s else s
        .next (if read then s.send (.peerRead 2 []) else s)
      | none =>
        let addrs := pieces.flatMap fun p =>
          (List.range p.2.2).map fun i => 4096 * cellOf (pptHandle (entry p)) + p.2.1 + i
        match write with
        | none => .next (s.send (.peerRead 0 (addrs.map fun a => s.hep.peerMem.at a)))
        | some d =>
          .next (s.onHep fun h => { h with peerMem := (addrs.zip d).foldl (fun (t : Tab Byte) x => t.put x.1 x.2) h.peerMem })

/-- HEP_PPT_READ. -/
def execHepPptRead (path : Fin 5) (session : Nat) (value : Word) (s : State) : Result :=
  let (s, go) := writeGate path.val session (F.HEP_PPT_SEL_OP.addr 0) value s
  if !go then .next s
  else
    let e := s.hep.ppt.at (bitsOf value.toNat 15 0)
    let s := { s with regs := setRawWord s.regs 0x0D000060 (BitVec.ofNat 32 e) }
    .next (s.setFld F.HEP_PPT_SEL_DONE 1)

/-- HEP_PPT_WRITE (R336). -/
def execHepPptWrite (path : Fin 5) (session : Nat) (value : Word) (s : State) : Result :=
  let (s, go) := writeGate path.val session (F.HEP_PPT_SEL_OP.addr 0) value s
  if !go then .next s
  else
    let w := (rawWord s.regs 0x0D000060).toNat
    .next ((s.onHep fun h => { h with ppt := h.ppt.put (bitsOf value.toNat 15 0) w }).setFld F.HEP_PPT_SEL_DONE 1)

end Sys2Proof.Machine
end

