-- ==== Sys2Proof/Machine/Classify.lean ====
section
/-! DEFINITION. The classifier (R236 to R244): the walk of the parse graph, the lookup key, Scent, the TCAM, and punting; the
CRC of the wake filters (R233). -/

namespace Sys2Proof.Machine

/-- A field of 1 to 16 bits at a bit offset of a header that starts at byte `off` (R236); the first byte's most significant
bit is bit 0. -/
def headerBits (f : Bytes) (off bit width : Nat) : Nat :=
  ofBe (padTo 4 (slice f (off + bit / 8) 4)) / 2 ^ (32 - bit % 8 - width) % 2 ^ width

/-- What a walk gathers: the last node, the first VLAN tag, EXTRACT, whether it passed a SCAN node, and whether an IPv4 header
failed its checksum. -/
structure Walk where
  node : Nat
  tag : Option Nat
  extract : Bytes
  scan : Bool
  badIp : Bool
deriving DecidableEq, Repr, Inhabited

/-- Copy `n` bytes of a frame into EXTRACT. -/
def copyInto (f : Bytes) (src dst : Nat) : Nat → Bytes → Bytes
  | 0, e => e
  | n + 1, e => copyInto f (src + 1) (dst + 1) n (e.set dst (BitVec.ofNat 8 (byteAt f src)))

/-- The length of a node's header. -/
def ParseNode.len (p : ParseNode) (f : Bytes) (off : Nat) : Nat :=
  match p.field with
  | none => p.fixed
  | some (bit, width, shift) => p.fixed + headerBits f off bit width * 2 ^ shift

/-- What a node adds to the walk. -/
def ParseNode.visit (p : ParseNode) (i : Nat) (f : Bytes) (off : Nat) (w : Walk) : Walk :=
  { node := i
    tag := if p.vlan ∧ w.tag = none then some (half f off) else w.tag
    extract := p.extracts.foldl (fun e x => copyInto f (off + x.1) x.2.2 x.2.1 e) w.extract
    scan := w.scan || p.scan
    badIp := w.badIp || (p.ipv4 && !ipChecksumOk (slice f off (p.len f off))) }

/-- The node that follows (R236). -/
def ParseNode.next (p : ParseNode) (f : Bytes) (off : Nat) : Option Nat :=
  let v := headerBits f off p.selOff p.selWidth
  match p.edges.find? fun e => v &&& e.2.1 == e.1 &&& e.2.1 with
  | some e => some e.2.2
  | none => p.default_

/-- The walk of the parse graph from a node on (R236, R237): the reason it fails with, or what it gathered. -/
def walk (nodes : List ParseNode) (f : Bytes) (depth : Nat) : Nat → Nat → Nat → Walk → Nat ⊕ Walk
  | 0, _, _, _ => .inl 2
  | fuel + 1, i, off, w =>
    let p := nodes.getD i default
    let stop := off + p.len f off
    if depth < stop then .inl 2
    else if f.length < stop then .inl 3
    else
      let w := p.visit i f off w
      if p.terminal then .inr w
      else
        match p.next f off with
        | none => .inl 1
        | some j => walk nodes f depth fuel j stop w

/-- The walk of a frame (R237): at most 16 nodes, 256 or 512 bytes. -/
def parse (s : State) (f : Bytes) : Nat ⊕ Walk :=
  walk s.net.nodes f (if s.fld F.CLS_CFG_DEEP = 1 then 512 else 256) 16 0 0 ⟨0, none, List.replicate 74 0, false, false⟩

/-- Does a pattern match at an offset (R242)? -/
def matchAt (f : Bytes) (p : Pattern) (o : Nat) : Bool :=
  decide (o + p.bytes.length ≤ f.length) &&
    ((List.range p.bytes.length).zip p.bytes).all fun x => BitVec.ofNat 8 (byteAt f (o + x.1)) &&& x.2.2 == x.2.1 &&& x.2.2

/-- Does a pattern match anywhere in its window (R242)? -/
def scentMatches (f : Bytes) (p : Pattern) : Bool :=
  let (lo, hi) := p.window.getD (0, 9215)
  (List.range f.length).any fun o => decide (lo ≤ o) && decide (o ≤ hi) && matchAt f p o

/-- The groups Scent matches in a frame (R242). -/
def scent (s : State) (f : Bytes) : Nat :=
  ((List.range 16).map fun g => if s.net.patterns.any fun p => p.group == g && scentMatches f p then 2 ^ g else 0).sum

/-- A station address of a port (R223). -/
def stationIs (s : State) (lport j : Nat) (f : Bytes) : Bool :=
  let i := 4 * lport + j
  s.fldI F.PRT_STATION_HI_VALID i == 1 &&
    s.fldI F.PRT_STATION_HI_ADDR_HI i * 2 ^ 32 + s.fldI F.PRT_STATION_LO_ADDR_LO i == ofBe (padTo 6 (f.take 6))

/-- Is the frame's destination a valid station address of its port (R223)? -/
def isLocal (s : State) (lport : Nat) (f : Bytes) : Bool := (List.range 4).any fun j => stationIs s lport j f

/-- The lookup key of R238. -/
def lookupKey (s : State) (lport : Nat) (f : Bytes) (w : Walk) : BitVec 640 :=
  let tci := w.tag.getD 0
  BitVec.ofNat 640 (lport * 2 ^ 634 + bitsOf tci 15 13 * 2 ^ 631 + b2n w.tag.isSome * 2 ^ 630 + bitsOf tci 11 0 * 2 ^ 618 +
    w.node % 256 * 2 ^ 610 + b2n (isLocal s lport f) * 2 ^ 609 + (if w.scan then scent s f else 0) * 2 ^ 592 + ofBe w.extract)

/-- The valid entry with the lowest index that matches (R239). -/
def lookup (s : State) (key : BitVec 640) : Option (Nat × Nat) :=
  (s.net.tcam.find? fun e => e.2.valid && (e.2.value ^^^ key) &&& e.2.mask == 0).map fun e => (e.1, e.2.action.toNat)

/-- The fields of an action (R240). -/
def actKind (a : Nat) : Nat := bitsOf a 63 60
def actDest (a : Nat) : Nat := bitsOf a 59 54
def actGroup (a : Nat) : Nat := bitsOf a 53 42
def actTc (a : Nat) : Nat := bitsOf a 41 39
def actPolicer (a : Nat) : Nat := bitsOf a 38 25
def actPolice (a : Nat) : Bool := bitAt a 24
def actQueue (a port : Nat) : Nat := if bitAt a 7 then bitsOf a 23 8 else 8 * port + actTc a
def actCut (a : Nat) : Bool := bitAt a 6
/-- The punt reason: 0 to 3 are treated as 4. -/
def actReason (a : Nat) : Nat := max 4 (bitsOf a 5 3)

/-! Punting (R244). -/

/-- A punted frame is dropped: counted, and PUNT_DROP no more than once per second per reason, with the frames dropped in the
second that ends with it. -/
def puntDrop (reason : Nat) (d : Desc) (s : State) : State :=
  let s := releaseDesc d (s.bumpI F.CLS_PUNT_STAT_DROPPED reason 1)
  let lost := (s.net.puntLost.at reason).filter (fun t => decide (s.now < t + 1000000000)) ++ [s.now]
  let s := s.onNet fun n => { n with puntLost := n.puntLost.put reason lost }
  let said := s.net.puntSaid.at reason
  if said = 0 ∨ said - 1 + 1000000000 ≤ s.now then
    emit 0x524 0x201 1 (min lost.length 65535 * 65536 + reason)
      (s.onNet fun n => { n with puntSaid := n.puntSaid.put reason (s.now + 1) })
  else s

/-- The receive time stamp of a frame on a logical port: GTS with the port's asymmetry, in two's complement (R230). -/
def rxStamp (s : State) (lport : Nat) : Nat :=
  let a := s.fldI F.PRT_LPORT_CFG_ASYM_NS lport
  if a < 128 then s.now + a else s.now - (256 - a)

/-- A frame is punted with a reason and a TCAM index (R244). -/
def punt (reason index : Nat) (d : Desc) (s : State) : State :=
  let rate := s.fldI F.CLS_PUNT_CFG_RATE reason
  let b := (s.net.puntBucket.at reason).fill s.now rate
  let depth := max 1 (s.fldI F.CLS_PUNT_CFG_BURST reason) * 1000000000
  let s := s.onNet fun n => { n with puntBucket := n.puntBucket.put reason b }
  if rate = 0 ∨ depth < b.used + 1000000000 then puntDrop reason d s
  else
    let s := s.onNet fun n => { n with puntBucket := n.puntBucket.put reason { b with used := b.used + 1000000000 } }
    if 4096 ≤ (s.net.punt.at reason).length then puntDrop reason d s
    else
      let s := uncount d (d.cells.foldl (fun s h => giveCell 7 1 h s) s)
      s.onNet fun n => { n with punt := n.punt.upd reason (· ++ [⟨{ d with counted := false, gts := rxStamp s d.lport }, index⟩]) }

/-- CTL takes the frames of the punt queues, each with its logical port, reason, TCAM index and receive time stamp. -/
def takePunted (s : State) : State :=
  let ps := s.net.punt.flatMap fun e => e.2.map fun p => (e.1, p)
  ps.foldl (fun s x => releaseDesc x.2.desc (s.send (.punted x.2.desc.lport x.1 x.2.index x.2.desc.gts x.2.desc.frame)))
    (s.onNet fun n => { n with punt := [] })

/-! Wake filters (R233 to R235). -/

/-- Mask byte `i` of filter `f` (R247), as latched at the entry into PS4. -/
def wakeMask (s : State) (f i : Nat) : Nat :=
  bitsOf (wakeWord s (F.PRT_WAKE_MASK_MASK.addr (32 * f + i / 4))).toNat (8 * (i % 4) + 7) (8 * (i % 4))

/-- Does filter `f` match a frame (R233)? -/
def wakeMatches (s : State) (frame : Bytes) (f : Nat) : Bool :=
  crc32 ((List.range 128).map fun i => BitVec.ofNat 8 (byteAt frame i &&& wakeMask s f i)) ==
    (wakeWord s (F.PRT_WAKE_CHECK_CHECK.addr f)).toNat

/-- The enabled filters of a physical port that a frame matches. -/
def wakeHits (s : State) (n : Nat) (frame : Bytes) : List Nat :=
  let en := (wakeWord s (F.PRT_WAKE_EN_EN.addr n)).toNat
  if (wakePorts (wakeWord s 0x1000040)).contains n then
    (List.range 8).filter fun j => bitAt en j && wakeMatches s frame (8 * n + j)
  else []

/-- A frame in PS4 (R234, R235, R76): a match is recorded and starts the exit; any other frame is dropped and counted. -/
def wakeFrame (lport : Nat) (frame : Bytes) (s : State) : State :=
  let n := lport / 4
  match wakeHits s n frame with
  | [] => s.onNet fun x => { x with wakeDropped := x.wakeDropped.upd n (· + 1) }
  | j :: js =>
    let bits := ((j :: js).map (2 ^ ·)).sum
    let s := s.setFldI F.PRT_WAKE_EN_MATCHED n (s.fldI F.PRT_WAKE_EN_MATCHED n ||| bits)
    if s.cmd.exiting then s
    else emit (portSrc (4 * n)) 0x105 1 (n * 16 + j) (s.onCmd fun c => { c with exiting := true })

end Sys2Proof.Machine
end

