-- ==== Sys2Proof/Machine/Layout.lean ====
section
/-! DEFINITION. The layout engine's own events: LAYOUT_SLICE_DONE to LAY_FORMAT_ORDER (R130, R133, R137, R141, R143, R146,
R147, R150 to R153, R494). -/

namespace Sys2Proof.Machine

/-- LAYOUT_SLICE_DONE: the last slice of a read's decode lets the read go on; a slice whose check fails fences the lane with
reason 0x01 and runs again on another (R130). -/
def execLayoutSliceDone (lane : Fin 16) (ok : Bool) (s : State) : Result :=
  match s.lay.lanes.look lane.val with
  | none => .next s
  | some x =>
    if !ok then .next (fenceLayoutLane lane.val 1 s)
    else
      let s := dispatchSlices (s.onLay fun l => { l with lanes := l.lanes.del lane.val })
      if x.decode && !(s.lay.laneQueue.any fun y => y.entry == x.entry) && !(s.lay.lanes.any fun p => p.2.entry == x.entry) then
        .next (readChecked x.entry s)
      else .next s

/-- SEAL_IDLE_TIMEOUT (R133 reason 1). -/
def execSealIdleTimeout (set : Nat) (s : State) : Result := .next (startSeal set 1 s)

/-- Is a header area of a set still on its way to a drive (R133, R157)? -/
def headersOut (s : State) (r : SetRec) : Bool :=
  r.members.any fun m => (portOf s m.slot).back.any fun b => b.1 == headerLba m.chunk

/-- SET_SEALED: with its header areas written and the seal record durable the set is SEALED; records retire, and rebuild and
reclamation may take it (R133, R140, R147). -/
def execSetSealed (set : Nat) (s : State) : Result :=
  let r := s.lay.sets.at set
  if r.state = .sealing ∧ r.sealDurable ∧ !headersOut s r then
    let s := emit 0x571 0x70F 0 (r.reason * 2 ^ 32 + set) (onSet set (fun r => { r with state := .sealed }) s)
    .next (nextRebuild (startReclaim (releaseStore (releaseWaiting (retire s)))))
  else .next s

/-! Units of a row. -/

/-- The units of a row known from those read that pass their check, with the absent units, which are zeros (R129). -/
def knownUnits (s : State) (set row : Nat) (units : List UnitRead) : List (Nat × Bytes) :=
  let g := setGeom s set
  let d := ((s.lay.sets.at set).rows.at row).dataUnits
  ((units.filter (unitPasses s set row)).map fun x => (x.unit, padTo g.u x.data)) ++
    (List.range (g.k - d)).map fun i => (d + i, List.replicate g.u 0)

/-- A unit of a row from its k data units. -/
def unitFrom (g : Geometry) (ds : List Bytes) (unit : Nat) : Bytes :=
  if unit < g.k then ds.getD unit [] else parityUnit g.m g.u (unit - g.k) ds

/-- Does a row whose k data units are `ds` pass its check (R157): do its unit CRCs, computed afresh, give the ROW_CRC in the header
of a unit read, or, of a set that is not sealed, those of its journal record? -/
def rowHolds (s : State) (set row : Nat) (units : List UnitRead) (ds : List Bytes) : Bool :=
  let g := setGeom s set
  let r := s.lay.sets.at set
  let d := (r.rows.at row).dataUnits
  let crcs := (List.range (g.k + g.m)).map fun u => if d ≤ u ∧ u < g.k then 0 else crc32c (unitFrom g ds u)
  if r.hasHeaders then (units.filter (unitPasses s set row)).any fun x => rowCrc crcs == leAt x.header 36 4
  else crcs == (r.rows.at row).unitCrcs

/-- A unit of a row from the other units read that pass their check (R129, R157): decoded, or encoded from the decoded data; none
where fewer than k units are known or the row fails its check. -/
def recoverUnit (s : State) (set row unit : Nat) (units : List UnitRead) : Option Bytes :=
  let g := setGeom s set
  let units := units.filter fun x => x.unit != unit
  let known := knownUnits s set row units
  if known.length < g.k then none
  else
    let ds := decodeRow g.k g.m known
    if rowHolds s set row units ds then some (unitFrom g ds unit) else none

/-- A unit of a row as it was written: as read where it passes its check, else recovered from the others. -/
def unitAsWritten (s : State) (set row unit : Nat) (units : List UnitRead) : Option Bytes :=
  match units.find? fun x => x.unit == unit && unitPasses s set row x with
  | some x => some (padTo (setGeom s set).u x.data)
  | none => recoverUnit s set row unit units

/-- Is unit `unit` of a row one that was written: no data unit beyond the row's data (R128)? -/
def unitWritten (g : Geometry) (info : RowInfo) (unit : Nat) : Bool :=
  info.dataUnits != 0 && (decide (unit < info.dataUnits) || decide (g.k ≤ unit))

/-! Reclamation. -/

/-- The extents of a set that a map entry still refers to: extent, first row and rows (R153). -/
def liveExtents (s : State) (set : Nat) : List (Nat × Nat × Nat) :=
  let es := (s.lay.map.filter fun e => e.set == set && !e.removed && !e.empty).map fun e => (e.extent, e.firstRow)
  es.eraseDups.map fun x => (x.1, x.2, (s.lay.sets.at set).rows.countWhere fun _ r => r.extent == x.1 && decide (0 < r.dataUnits))

/-- The units written of rows `first` to `first + n − 1` of a set, unit by unit, from the units read; none where one cannot be
had. -/
def extentUnits (s : State) (set first n : Nat) (units : List (Nat × UnitRead)) : Option (List Bytes) :=
  let g := setGeom s set
  (List.range (g.k + g.m)).foldr (fun u acc =>
    let parts := (List.range n).map fun i =>
      if unitWritten g ((s.lay.sets.at set).rows.at (first + i)) u then
        unitAsWritten s set (first + i) u ((units.filter fun x => x.1 == first + i).map (·.2))
      else some []
    match acc, parts.all (·.isSome) with
    | some bs, true => some ((parts.flatMap (·.getD [])) :: bs)
    | _, _ => none) (some [])

/-- The copy of one live extent begins as LAY's own work (R153): unit for unit and parity included, into rows of an OPEN set of the
same namespace, keeping its EXTENT_ID and its units' CRCs. A member's lost units are recovered from the others. Where no room is
found, or a unit cannot be had, the extent stays where it is. -/
def relocate (set : Nat) (units : List (Nat × UnitRead)) (s : State) (x : Nat × Nat × Nat) : State :=
  let old := s.lay.sets.at set
  let infos := (List.range x.2.2).map fun i => old.rows.at (x.2.1 + i)
  match extentUnits s set x.2.1 x.2.2 units, allocateOne old.nsid ((infos.map (·.rowBytes)).sum) s with
  | some us, .ok (s, a :: _) =>
    let i := s.cmd.table.gap ownFrom
    let ms := (s.lay.sets.at a.set).members
    let ws := (((List.range us.length).zip us).map fun p =>
      (⟨(ms.getD p.1 default).slot, a.set, a.firstRow, p.1, if (ms.getD p.1 default).lost then [] else p.2⟩ : UnitIo)).filter
        fun w => !w.data.isEmpty
    let s := onEntry i (fun _ => { (default : Entry) with
      live := true, cap := { (default : Capsule) with nsid := old.nsid, cls := 3 }, moves := some (set, x.1), state := .drive
      wait := .drive, driveStart := s.now, allocs := [{ a with extent := x.1 }], unitsOut := ws
      crcs := [infos.map (·.unitCrcs)] }) s
    ws.foldl (sendUnit false) s
  | _, _ => s

/-- Is an extent of a set being copied? -/
def moving (s : State) (set extent : Nat) : Bool := !(entriesWhere s fun e => e.moves == some (set, extent)).isEmpty

/-- RECLAIM_DONE: the units of a RECLAIMING set have been read, as (row, unit), and its live extents are copied to other sets; with
none live the set is FREE and its chunks are released (R133, R153). While the journal is full the writes of reclamation wait
(R140), and so does all of it while fewer than C drives are in service (R137). -/
def execReclaimDone (set : Nat) (units : List (Nat × UnitRead)) (s : State) : Result :=
  if (s.lay.sets.at set).state ≠ .reclaiming ∨ s.lay.full ∨ !mayDrive s ∨ (slotsInService s).length < copiesC s then .next s
  else
    let s := ((liveExtents s set).filter fun x => !moving s set x.1).foldl (relocate set units) s
    .next (nextRebuild (releaseStore (freeReclaimed set s)))

/-! Restart (R141, R494). -/

/-- The number under which a drive of a checkpoint's table is kept: the slot of the port in READY with its DRIVE_UUID; of an absent
drive its own slot, unless another drive stands there, or is named before it (R150). -/
def tableKey (s : State) (ds : List TableDrive) (d : TableDrive) : Nat :=
  match (readyPorts s).find? fun n => (portOf s n).superblock == some (true, d.uuid) with
  | some n => n
  | none =>
    if 48 ≤ d.slot ∨ served s d.slot ∨ ds.any fun x => x.slot == d.slot && decide (x.index < d.index) then 48 + d.index else d.slot

/-- The number under which the drive at a place of the table is kept. -/
def keyAt (s : State) (ds : List TableDrive) (i : Nat) : Nat :=
  match ds.find? fun d => d.index == i with
  | some d => tableKey s ds d
  | none => 48 + i

/-- A journal record as the rings hold it, with the drives it names by their places in the table known under their numbers. -/
def foundRecord (key : Nat → Nat) (r : JRec) : JRec :=
  { r with
    owner := none, committed := true, votes := [], entries := r.entries.map fun e => { e with jseq := r.jseq }
    copies := r.copies.map fun c => { c with done := true }
    setRec := r.setRec.map fun x => (x.1, x.2.1, { x.2.2 with
      members := x.2.2.members.map fun m => { m with slot := key m.slot } }) }

/-- Insert a record in JSEQ order; a copy of one that is there adds its copies. -/
def jseqInsert (r : JRec) : List JRec → List JRec
  | [] => [r]
  | x :: xs =>
    if r.jseq < x.jseq then r :: x :: xs
    else if r.jseq = x.jseq then { x with copies := x.copies ++ r.copies } :: xs
    else x :: jseqInsert r xs

/-- The layout state that a checkpoint and the journal's records give (R141, R150). `headers` are the stripe headers of the sealed
sets as (set, row, facts). Rows of a record take its submission GTS (R157). -/
def restored (b : Bool × Bytes) (tail : List JRec) (headers : List (Nat × Nat × RowInfo)) (s : State) : State :=
  let ds := ckptDrives b.2
  let key := keyAt s ds
  let js := (tail.map (foundRecord key)).foldl (fun l r => jseqInsert r l) []
  let base := ckptTables s key b.2
  let last := leAt b.2 16 8
  let t := (js.filter fun r => decide (last < r.jseq)).foldl Tables.apply base
  let drives := ds.foldl (fun (t : Tab Drive) d => t.put (tableKey s ds d) { (default : Drive) with
    index := d.index, uuid := d.uuid, chunkCount := d.chunkCount }) []
  let s := s.onLay fun l => { l with
    map := t.map, sets := t.sets, extentNext := t.extentNext, drives := drives, journal := js
    jseqNext := js.foldl (fun n r => max n (r.jseq + 1)) (last + 1)
    ringPos := js.foldl (fun p r => r.copies.foldl (fun p c => p.put c.slot ((c.pos + r.blocks) % ringBlocks)) p) []
    ckpt := { (default : Checkpoint) with
      gen := leAt b.2 8 8, regionB := !b.1, durableGen := leAt b.2 8 8, durableJseq := last, base := base } }
  let s := headers.foldl (fun s x => setRows x.1 [(x.2.1, x.2.2)] s) s
  let s := js.foldl (fun s r => if r.typ = 1 ∨ r.typ = 5 then runRows r.jseq r.gts r.runs r.crcs s else s) s
  s.onLay fun l => { l with
    drives := l.drives.mapAll fun k d => { d with used := chunksHeld s k }
    sets := l.sets.mapAll fun _ r =>
      if r.state = .opened then { r with state := .sealing, reason := 4 } else r }

/-- Does the drive kept under a number stand in its slot, its port in READY (R494)? -/
def present (s : State) (k : Nat) : Bool :=
  served s k && (portOf s k).superblock == some (true, (s.lay.drives.at k).uuid)

/-- Each drive of the table is settled after a restart (R494): those present enter STATE 1, or STATE 3 where a set marks them as
lost; the others are lost. -/
def settleDrives (s : State) : State :=
  let here := s.lay.drives.keysWhere fun k _ => present s k
  let gone := s.lay.drives.keysWhere fun k _ => !present s k
  let s := here.foldl (fun s k => onDrive k (fun d => { d with
    state := if (lostOn s k).isEmpty then 1 else 3, lbaCount := (portOf s k).lbaCount }) s) s
  gone.foldl (fun s k => layDriveLost k (onDrive k (fun d => { d with state := 1 }) s)) s

/-- JOURNAL_REPLAY_DONE after a restart (R141, R150, R494): `regions` are the checkpoint regions as read, each with whether it is
region B, `tail` the records found whole in the rings, in which the set record of type 4 names a drive by its place in the table,
and `headers` the stripe headers of sealed sets. From the newest valid checkpoint on the records apply in JSEQ order, every set
that was OPEN is sealed with reason 4, and each drive of the table is settled; then the drives in READY that are none of them are
taken up. With no valid checkpoint there is no table, and a drive of the shelf is refused. FIX then takes up the objects of the
fixity store, `store` as they are read, and recomputation begins (R177). -/
def execJournalReplayDone (regions : List (Bool × Bytes)) (tail : List JRec) (headers : List (Nat × Nat × RowInfo))
    (store : List (Bytes × Bytes)) (s : State) : Result :=
  if s.lay.replayEnded || !isActive s then .next s
  else
    let ended := fun (s : State) => s.onLay fun l => { l with replayEnded := true }
    let s := match newestCkpt regions with
      | some b => settleDrives (ended (restored b tail headers s))
      | none => ended s
    let s := (setsIn s .sealing).foldl (fun s id => sealIfResolved id s) s
    .next (startRecompute store (nextRebuild (updateAna (retire (mapPrune (offerDrives s))))))

/-! Checkpoints (R143, R144, R164). -/

/-- CKPT_INTERVAL: an INTERVAL_S of 0 disables the timer (R143, R164). -/
def execCkptInterval (s : State) : Result :=
  if s.fld F.LAY_CKPT_CFG_INTERVAL_S = 0 then .next s else .next (startCheckpoint s)

/-- LAY_CKPT_CTRL_START (R143, R164). -/
def execLayCkptCtrlStart (path : Fin 5) (session : Nat) (value : Word) (s : State) : Result :=
  let (s, go) := writeGate path.val session (F.LAY_CKPT_CTRL_START.addr 0) value s
  if go && bitAt value.toNat 0 then .next (startCheckpoint s) else .next s

/-- CHECKPOINT_WRITE_COMPLETION: the last copy makes the checkpoint durable; a failure loses the drive (R143, R144). -/
def execCheckpointWriteCompletion (slot : Fin 48) (result : DriveResult) (s : State) : Result :=
  let c := s.lay.ckpt
  if !(c.busy && c.pendingSlots.contains slot.val) then .next s
  else
    .next (driveWriteEnds slot.val result (fun s =>
      let s := s.onLay fun l => { l with ckpt := { l.ckpt with
        pendingSlots := l.ckpt.pendingSlots.filter (· != slot.val), doneSlots := slot.val :: l.ckpt.doneSlots } }
      if s.lay.ckpt.pendingSlots.isEmpty then ckptDurable s else s)
      (drvDone slot.val false true (regionLba c.regionB) (c.image.length / 4096) s))

/-! Rebuild, repair and scrub. -/

/-- REBUILD_SET_DONE: the units of the set's rows have been read, `rows` row by row; the lost unit of every used row goes into the
replacement's chunk with its header area, and once they are written a record of type 4 gives the set its new member and
generation, which stand when it commits (R147). While the journal is full the writes of rebuild wait (R140). -/
def execRebuildSetDone (rows : List (List UnitRead)) (s : State) : Result :=
  match s.lay.rebuild.target with
  | none => .next s
  | some (id, n, m) =>
    if s.lay.full ∨ s.lay.rebuild.written then .next s
    else
      let r := s.lay.sets.at id
      let g := setGeom s id
      let s := s.onLay fun l => { l with rebuild := { l.rebuild with written := true } }
      let s := ((List.range rows.length).zip rows).foldl (fun s p =>
        if !unitWritten g (r.rows.at p.1) n then s
        else match recoverUnit s id p.1 n p.2 with
          | some b => drvWrite m.slot false (unitLba s m g.u p.1) b s
          | none => s) s
      let cipher := (s.cmd.namespaces.at r.nsid).cipher
      let hdr := (List.range g.rows).flatMap fun row => stripeHeader g.k g.m id r.geom r.nsid row n cipher (r.rows.at row)
      .next (drvWrite m.slot false (headerLba m.chunk) hdr s)

/-- The units of a row that are present: written, and of members that are not lost. -/
def presentUnits (s : State) (set row : Nat) : List Nat :=
  let g := setGeom s set
  let r := s.lay.sets.at set
  (List.range (g.k + g.m)).filter fun u => unitWritten g (r.rows.at row) u && !(r.members.getD u default).lost

/-- Is the syndrome of a row zero over the units known (R129): do those past the first k agree with what these k give? -/
def rowConsistent (g : Geometry) (known : List (Nat × Bytes)) : Bool :=
  decide (known.length ≤ g.k) || known.all fun p => p.2 == unitFrom g (decodeRow g.k g.m known) p.1

/-- With every present unit of a row passing its check and the syndrome not zero the row is inconsistent: suspect, and not
repaired (R152). -/
def checkSyndrome (set row : Nat) (units : List UnitRead) (s : State) : State :=
  if ((presentUnits s set row).all fun u => units.any fun x => x.unit == u && unitPasses s set row x) ∧
      !rowConsistent (setGeom s set) (knownUnits s set row units) then
    emit 0x573 0x709 3 (row * 2 ^ 24 + set)
      (onSet set (fun r => { r with rows := r.rows.upd row fun i => { i with suspect := true } }) s)
  else s

/-- A unit queued for repair needs it no more. -/
def repaired (set row unit : Nat) (s : State) : State :=
  s.onLay fun l => { l with repairs := l.repairs.filter (· != (set, row, unit)) }

/-- Rewrite a unit in place (R151). -/
def rewriteUnit (set row unit : Nat) (b : Bytes) (s : State) : State :=
  drvWrite ((s.lay.sets.at set).members.getD unit default).slot false (ioLba s set row unit) b (repaired set row unit s)

/-- READ_REPAIR: a unit that a read queued for repair is recovered from the units read and rewritten, once (R146, R152). -/
def execReadRepair (set row unit : Nat) (units : List UnitRead) (s : State) : Result :=
  if !s.lay.repairs.contains (set, row, unit) then .next s
  else if units.any fun x => x.unit == unit && unitPasses s set row x then
    .next (checkSyndrome set row units (repaired set row unit s))
  else
    match recoverUnit s set row unit units with
    | some b => .next (rewriteUnit set row unit b s)
    | none => .next (repaired set row unit s)

/-- DRIVE_RETURNED (R150). -/
def execDriveReturned (slot : Fin 48) (s : State) : Result := .next (driveReturns slot.val s)

/-- The used rows of every SEALED set: what a scrub cycle reads (R151). -/
def scrubTotal (s : State) : Nat := ((setsIn s .sealed).map fun id => (s.lay.sets.at id).rowsUsed).sum

/-- One more row of a set scrubbed: a set under way is read to its end; after the last row of the cycle the next one begins (R151,
R164). -/
def scrubAdvance (set row : Nat) (s : State) : State :=
  let r := s.lay.sets.at set
  let s := s.onLay fun l => { l with
    scrubSet := if row + 1 < r.rowsUsed then some set else none, scrubRows := l.scrubRows.upd r.nsid (· + 1) }
  if scrubTotal s ≤ countOf s.lay.scrubRows 0xFFFFFFFF then s.onLay fun l => { l with scrubRows := [], scrubStart := s.now } else s

/-- A unit that fails scrub is recovered and rewritten (R151). -/
def scrubUnit (set row : Nat) (units : List UnitRead) (s : State) (unit : Nat) : State :=
  match recoverUnit s set row unit units with
  | none => s
  | some b =>
    let r := s.lay.sets.at set
    let s := (rewriteUnit set row unit b s).bump F.LAY_SCRUB_STAT_REPAIRS
    let s := s.onLay fun l => { l with scrubRepairs := l.scrubRepairs.upd r.nsid (· + 1) }
    emit 0x573 0x708 1 ((r.members.getD unit default).slot * 2 ^ 30 + set) s

/-- SCRUB_ROW (R151, R152): `units` are the present units as read. With SCRUB_EN at 0 no further set is begun (R164). -/
def execScrubRow (set row : Nat) (units : List UnitRead) (s : State) : Result :=
  let r := s.lay.sets.at set
  if (s.fld F.LAY_CFG_SCRUB_EN = 0 ∧ s.lay.scrubSet ≠ some set) ∨ r.state ≠ .sealed ∨ r.rowsUsed ≤ row ∨ !mayDrive s then .next s
  else
    let failed := (units.filter fun x => !unitPasses s set row x).map (·.unit)
    let s := if failed.isEmpty then checkSyndrome set row units s else failed.foldl (scrubUnit set row units) s
    .next (scrubAdvance set row s)

/-- LAY_FORMAT_ORDER (R150, R164): with the confirmation byte, on a single or active unit whose restart replay has ended, the
drive in service at its port of a slot whose STATE is 0 or 4 is formatted. -/
def execLayFormatOrder (path : Fin 5) (session : Nat) (value : Word) (s : State) : Result :=
  let (s, go) := writeGate path.val session (F.LAY_FORMAT_ORDER_CONFIRM.addr 0) value s
  let slot := bitsOf value.toNat 5 0
  let d := s.lay.drives.at slot
  if go && bitsOf value.toNat 31 24 == 0xA5 && decide (slot < 48) && (d.state == 0 || d.state == 4) && isActive s &&
      s.lay.replayEnded && served s slot then
    .next (formatDrive slot (portOf s slot).lbaCount s)
  else .next s

end Sys2Proof.Machine
end

