-- ==== Sys2Proof/Machine/EpochBytes.lean ====
section
/-! DEFINITION. The bytes of a context (R88) and of an epoch record (R348, R349), big-endian but for the structures of other
chapters, which keep their stored order (R7, R344). -/

namespace Sys2Proof.Machine

/-! Contexts. -/

/-- The free capsule slots of an NVMe queue's connection: one for each submission queue entry, less those of the capsules that
are queued or live (R104). -/
def freeSlots (s : State) (c : Context) : Nat :=
  let used := (s.cmd.queued.filter fun x => x.cntlid == c.cntlid && x.sqid == c.sqid).length +
    (entriesWhere s fun e => e.cap.cntlid == c.cntlid && e.cap.sqid == c.sqid && !e.ended).length
  max 1 (queueOf s c.cntlid c.sqid).size - used

/-- RQ_TAIL: the receive ring's tail, RQ_HEAD and the buffers posted (R88, R104). -/
def rqTailOf (s : State) (c : Context) : Nat := if c.migration then c.rqTail else (c.rqHead + freeSlots s c) % 65536

/-- The 128 bytes of a context (R88). -/
def ctxBytes (s : State) (qpn : Nat) (c : Context) : Bytes :=
  let b := leBytes 4 (qpn + c.state * 2 ^ 24 + b2n c.class0 * 2 ^ 28 + b2n c.trigOnly * 2 ^ 29) ++
    leBytes 4 (c.destQpn % 2 ^ 24 + c.pmtu * 2 ^ 24) ++ leBytes 16 c.remoteIp ++ leBytes 6 c.remoteMac ++ leBytes 2 c.vlan ++
    leBytes 1 c.lport ++ leBytes 1 (c.dscp % 64) ++ leBytes 2 c.sport ++ leBytes 2 (c.tenant % 4096) ++ leBytes 2 c.cntlid ++
    leBytes 2 c.sqid ++ leBytes 1 c.initDepth ++ leBytes 1 c.readsOut ++
    leBytes 4 (c.spsn + c.retryLeft * 2 ^ 24 + c.rnrLeft * 2 ^ 27) ++ leBytes 4 c.unaPsn ++
    leBytes 4 (c.epsn + b2n c.nakSent * 2 ^ 24) ++ leBytes 4 c.msn ++ leBytes 4 (c.sqHead + c.sqTail * 2 ^ 16) ++
    leBytes 4 (c.rqHead + rqTailOf s c * 2 ^ 16) ++ leBytes 4 (c.rate % 2 ^ 16) ++ leBytes 4 c.baseRtt ++ leBytes 4 c.lastRtt ++
    leBytes 4 c.sampleGts ++ leBytes 3 c.samplePsn ++ leBytes 1 (b2n c.sampleOn) ++ leBytes 4 c.baseStart ++
    leBytes 4 c.lastChange ++ leBytes 8 c.timerGts ++ leBytes 4 c.wRkey ++ leBytes 8 c.wVa ++ leBytes 4 c.wLeft ++
    leBytes 4 c.epochSeq
  b ++ leBytes 4 (crc32 b)

/-! Records (R348, R349). -/

/-- Bytes filled with zeros to a multiple of eight. -/
def pad8 (b : Bytes) : Bytes := padTo ((b.length + 7) / 8 * 8) b

/-- A controller record: the new values, `v`, have no layout in the specification (notes/assumptions/97.md). -/
def CtrlRec.bytes (v : Bytes) : CtrlRec → Bytes
  | .ctrl kind cntlid c => pad8 (beBytes 2 cntlid ++ beBytes 1 kind ++ beBytes 1 c.state ++ beBytes 4 0 ++ v)
  | .queueMade cntlid qid _ => pad8 (beBytes 2 cntlid ++ [4, 0] ++ beBytes 2 qid ++ beBytes 2 0 ++ v)
  | .queueGone cntlid qid => pad8 (beBytes 2 cntlid ++ [5, 0] ++ beBytes 2 qid ++ beBytes 2 0 ++ v)
  | .gone cntlid => pad8 (beBytes 2 cntlid ++ [6, 0] ++ beBytes 4 0 ++ v)

/-- A capsule: `sqe` its 64-byte submission queue entry as received, of which State holds the fields a command needs. -/
def capBytes (s : State) (c : Capsule) (sqe : Bytes) : Bytes :=
  pad8 (beBytes 4 ((queueOf s c.cntlid c.sqid).conn + c.cls * 2 ^ 24) ++ beBytes 2 c.cntlid ++ beBytes 2 c.sqid ++
    beBytes 8 c.gtsIn ++ beBytes 4 (64 + c.inline.length) ++ beBytes 1 c.port ++ beBytes 3 0 ++ sqe ++ c.inline)

/-- A commit record. -/
def CommitRec.bytes (s : State) (c : CommitRec) : Bytes :=
  pad8 (beBytes 2 c.cntlid ++ beBytes 2 c.sqid ++ beBytes 2 c.cid ++ beBytes 1 c.kind ++ beBytes 1 c.runs.length ++
    beBytes 8 c.jseq ++ beBytes 4 c.rcrc ++ beBytes 4 c.crcs.length ++ beBytes 8 c.gts ++ beBytes 8 c.extent ++ beBytes 8 0 ++
    (if c.kind = 1 then digestBytes c.digest ++ c.runs.flatMap (runBytes s) ++ c.crcs.flatMap (beBytes 4) else []))

/-- A context delta: the 8-byte words in which the context differs from the one of the last record. -/
def deltaBytes (s : State) (old : Tab Context) (d : Nat × Context) : Bytes :=
  let a := ctxBytes s d.1 (old.at (d.1 - 0x200000))
  let b := ctxBytes s d.1 d.2
  let ws := (List.range 16).filter fun w => slice a (8 * w) 8 != slice b (8 * w) 8
  beBytes 4 d.1 ++ beBytes 2 (ws.map (2 ^ ·)).sum ++ beBytes 2 0 ++ ws.flatMap fun w => slice b (8 * w) 8

/-- A key record: 72 bytes of zeros where the key was destroyed. -/
def KeyRec.bytes (k : KeyRec) : Bytes :=
  beBytes 1 k.typ ++ beBytes 1 0 ++ beBytes 2 k.tenant ++ beBytes 2 k.handle ++ beBytes 2 k.keyGen ++ beBytes 4 k.nsid ++
    beBytes 4 0 ++ padTo 72 (k.wrapped.getD []) ++ beBytes 8 0

/-- The bytes of a record. `fresh` gives the bytes that State does not hold: 24 for each controller record, then 64 for each
capsule; `old` the contexts as the last record left them. -/
def recordWire (s : State) (old : Tab Context) (fresh : Bytes) (r : EpochRec) : Bytes :=
  let n := r.ctrls.length
  let body := (r.ctrls.zipIdx.flatMap fun p => p.1.bytes (slice fresh (24 * p.2) 24)) ++
    (r.caps.zipIdx.flatMap fun p => capBytes s p.1 (slice fresh (24 * n + 64 * p.2) 64)) ++
    r.commits.flatMap (CommitRec.bytes s) ++ r.deltas.flatMap (deltaBytes s old) ++ r.leaves.flatMap Leaf.bytes ++
    r.keys.flatMap KeyRec.bytes
  let b := [0x4C, 0x45, 0x52, 0x43] ++ beBytes 8 r.epoch ++ beBytes 8 ((r.epoch + 1) * epochNs s) ++ beBytes 4 n ++
    beBytes 4 r.caps.length ++ beBytes 4 r.commits.length ++ beBytes 4 r.deltas.length ++ beBytes 4 r.leaves.length ++
    beBytes 4 r.keys.length ++ beBytes 4 (64 + body.length + 4) ++ beBytes 1 (b2n r.handover) ++ beBytes 1 r.role ++
    List.replicate 14 0 ++ body
  b ++ beBytes 4 (crc32c b)

/-- The frames of a record: fragments of at most 16,384 bytes (R344, R345), the last with LAST set. -/
def recordFrames (r : EpochRec) (wire : Bytes) : List LeashFrame :=
  let n := (wire.length + 16383) / 16384
  (List.range n).map fun i => .epoch r (i + 1 == n) (slice wire (16384 * i) 16384)

end Sys2Proof.Machine
end

