-- ==== Sys2Proof/Machine/Transport.lean ====
section
/-! DEFINITION. The transport's packets and timers: SEND_RECEIVED to XPT_CTX_SEL (R84, R91 to R115, R118, R119). -/

namespace Sys2Proof.Machine

/-! Chains start (R117, R118). -/

/-- The chains that run. -/
def chainsRunning (s : State) : Nat := s.xpt.chains.countWhere fun _ c => c.running

/-- Start the chain of a fired entry. -/
def startChain (entry : Nat) (s : State) : State :=
  let head := (s.xpt.triggers.at entry).head
  endChain entry (onChain entry (fun _ => { (default : Chain) with
    running := true, next := if head = 0xFFFFFFFF then none else some head }) s)

/-- A trigger fires (R118): the payload is in MBUF, STATE is RUNNING, and the chain starts or waits in arrival order. -/
def fire (entry : Nat) (payload : Bytes) (s : State) : State :=
  let t := s.xpt.triggers.at entry
  let s := emit 0x555 0x508 0 entry (onTrigger entry (fun t => { t with state := 2 }) (hbmWrite t.mbuf payload s))
  if chainsRunning s < 4096 ∧ s.xpt.waiting = [] then startChain entry s
  else s.onXpt fun x => { x with waiting := x.waiting ++ [entry] }

/-! Request packets. -/

/-- A packet that arrives with ECN Congestion Experienced causes a CNP, at most one per connection in 50 µs (R110). -/
def onEcn (qpn : Nat) (ecn : Bool) (s : State) : State :=
  let c := ctxOf s qpn
  if ecn ∧ s.fld F.XPT_CFG_CNP_EN = 1 ∧ (!c.cnpSent ∨ c.cnpGts + 50000 ≤ s.now) then
    emit 0x553 0x50D 0 qpn (onCtx qpn (fun c => { c with cnpSent := true, cnpGts := s.now }) (sendPacket qpn .cnp s))
  else s

/-- Does a context's state accept packets: RTR, RTS and DRAIN (R84, R89)? -/
def Context.accepts (c : Context) : Bool := c.state == 2 || c.state == 3 || c.state == 4

/-- A packet that is no request: refused where the context's state does not accept it (R84). A QPN that names no context names
no connection. -/
def onReply (qpn psn : Nat) (ecn : Bool) (run : State → State) (s : State) : State :=
  if (ctxIndex qpn).isNone then s
  else if !(ctxOf s qpn).accepts then refuseRequest qpn psn s
  else run (onEcn qpn ecn s)

/-- A request packet: refused where the context's state does not accept it (R84), else classified by its PSN (R94). A QPN
that names no context names no connection. The expected PSN clears NAK_SENT (R94), and a message that ends may end a drain
(R89). -/
def onRequest (p : Pkt) (dup run : State → State) (s : State) : State :=
  let c := ctxOf s p.qpn
  if (ctxIndex p.qpn).isNone then s
  else if !c.accepts then refuseRequest p.qpn p.psn s
  else
    let s := onEcn p.qpn p.ecn s
    match classify c p.psn with
    | .duplicate => dup s
    | .ahead => outOfSequence p.qpn s
    | .expected => drainCheck p.qpn (run (onCtx p.qpn (fun c => { c with nakSent := false }) s))

/-- The longest message the next receive buffer takes, or none where no buffer is posted (R104): the capsule slots of an
NVMe queue, or the buffers for the longest manifest that firmware posts on a migration connection
(notes/assumptions/18.md). -/
def bufferFor (s : State) (c : Context) : Option Nat :=
  if rqTailOf s c = c.rqHead then none else some (if c.migration then 15424 else 4160)

/-- What a packet of a Send that is not the last may fill: the next receive buffer, or the manifest buffer of an entry ARMED on
the connection, which a Send with Immediate would fire (R104, R118). -/
def sendRoom (s : State) (qpn : Nat) (last : Bool) : Option Nat :=
  let armed := (s.xpt.triggers.filter fun e => e.2.state == 1 && e.2.qpn == qpn).map (·.2.mbufLen)
  let n := bufferFor s (ctxOf s qpn)
  if last ∨ armed = [] then n else some (armed.foldl max (n.getD 0))

/-- No buffer: an RNR NAK, and nothing is placed (R104). -/
def rnr (p : Pkt) (s : State) : State := sendPacket p.qpn (.nakRnr p.psn (s.fld F.XPT_RETRY_CFG_RNR_TIMER)) s

/-- A message has been received whole: MSN advances and its buffer is used. -/
def messageEnds (p : Pkt) (buffer : Bool) (s : State) : State :=
  received p.qpn p.ackReq (onCtx p.qpn (fun c => { c with
    msn := psnAdd c.msn 1, rxBuf := []
    rqHead := if buffer then (c.rqHead + 1) % 65536 else c.rqHead }) s)

/-- A packet of a Send in sequence (R97, R104); `done` takes the whole payload when the message is visible. -/
def onSend (p : Pkt) (last : Bool) (payload : Bytes) (done : Bytes → State → State) (s : State) : State :=
  let c := ctxOf s p.qpn
  match sendRoom s p.qpn last with
  | none => rnr p s
  | some n =>
    let whole := c.rxBuf ++ payload
    if n < whole.length then refuseRequest p.qpn p.psn s
    else if last then done whole (messageEnds p true s)
    else received p.qpn p.ackReq (onCtx p.qpn (fun c => { c with rxBuf := whole }) s)

/-- A Send is visible: a migration connection's goes to firmware as it came; an NVMe queue's capsule is the command that
follows. -/
def sendVisible (p : Pkt) (whole : Bytes) (s : State) : State :=
  if (ctxOf s p.qpn).migration then s.onFix fun f => { f with received := f.received ++ [(p.qpn, whole)] } else s

/-- SEND_RECEIVED (R94, R97, R104). -/
def execSendReceived (p : Pkt) (last : Bool) (payload : Bytes) (s : State) : Result :=
  .next (onRequest p (duplicate p.qpn) (onSend p last payload (sendVisible p)) s)

/-- The ARMED entry that a Send with Immediate fires (R118), the lowest of several. -/
def matching (s : State) (qpn imm : Nat) : Option Nat :=
  (s.xpt.triggers.keysWhere fun _ t => t.state == 1 && t.qpn == qpn && t.tag == imm).head?

/-- SEND_WITH_IMMEDIATE_RECEIVED (R118, R119). -/
def execSendWithImmediateReceived (p : Pkt) (imm : Nat) (payload : Bytes) (s : State) : Result :=
  .next (onRequest p (duplicate p.qpn) (fun s =>
    let c := ctxOf s p.qpn
    let whole := c.rxBuf ++ payload
    match matching s p.qpn imm with
    | some e =>
      if (s.xpt.triggers.at e).mbufLen < whole.length then refuseRequest p.qpn p.psn s
      else fire e whole (messageEnds p false s)
    | none =>
      let s := (emit 0x555 0x509 1 p.qpn s).bump F.XPT_TRIG_STAT_MISSES
      if c.trigOnly then rnr p s else onSend p true payload (sendVisible p) s) s)

/-- A failed region check (R112): NAK Remote Access Error, the reason, and ERROR with cause 4. -/
def accessNak (p : Pkt) (reason : Nat) (s : State) : State :=
  connError p.qpn 4 (emit 0x554 0x505 1 (reason * 2 ^ 32 + p.qpn) (sendPacket p.qpn (.nakAccess p.psn) s))

/-- SEND_WITH_INVALIDATE_RECEIVED: the invalidation is applied when the Send becomes visible (R105, R113). -/
def execSendWithInvalidateReceived (p : Pkt) (key : Nat) (payload : Bytes) (s : State) : Result :=
  .next (onRequest p (duplicate p.qpn) (fun s =>
    let r := s.xpt.regions.at (regionIndex key)
    if 65536 ≤ regionIndex key ∨ r.state ≠ 1 ∨ r.key ≠ key % 256 then accessNak p (if r.state = 2 then 2 else 1) s
    else if !bitAt r.access 2 then accessNak p 4 s
    else onSend p true payload (fun whole s =>
      startInvalidation (regionIndex key) false (sendVisible p whole s)) s) s)

/-- The message in progress of a connection ends: its region no longer counts it. -/
def writeEnds (qpn : Nat) (s : State) : State :=
  match (ctxOf s qpn).wRegion with
  | none => s
  | some i => endStraddle i qpn (onCtx qpn (fun c => { c with wRegion := none, wRkey := 0, wVa := 0, wLeft := 0 }) s)

/-- Place a packet's data and move the message in progress on. -/
def placeWrite (p : Pkt) (data : Bytes) (s : State) : State :=
  let c := ctxOf s p.qpn
  onCtx p.qpn (fun c => { c with wVa := c.wVa + data.length, wLeft := c.wLeft - data.length }) (hbmWrite c.wVa data s)

/-- The first packet of an RDMA Write is validated (R112); later ones stay within the bounds it established. None where the
packet fails, with the state its refusal leaves. -/
def openWrite (p : Pkt) (reth : Option Reth) (data : Bytes) (s : State) : Except State State :=
  match reth with
  | some r =>
    match regionCheck s r.rkey r.va r.len 0 (ctxOf s p.qpn).tenant with
    | some reason => .error (accessNak p reason s)
    | none =>
      if r.len < data.length then .error (refuseRequest p.qpn p.psn s)
      else
        let i := regionIndex r.rkey
        .ok (onRegion i (fun x => { x with users := p.qpn :: x.users })
          (onCtx p.qpn (fun c => { c with wRegion := some i, wRkey := r.rkey, wVa := r.va, wLeft := r.len }) s))
  | none =>
    if (ctxOf s p.qpn).wRegion.isNone then .error (refuseRequest p.qpn p.psn s)
    else if (ctxOf s p.qpn).wLeft < data.length then .error (accessNak p 3 s)
    else .ok s

/-- RDMA_WRITE_RECEIVED (R97, R112, R114). -/
def execRdmaWriteReceived (p : Pkt) (reth : Option Reth) (last : Bool) (data : Bytes) (s : State) : Result :=
  .next (onRequest p (duplicate p.qpn) (fun s =>
    match openWrite p reth data s with
    | .error t => t
    | .ok s =>
      let s := placeWrite p data s
      if last then writeEnds p.qpn (messageEnds p false s) else received p.qpn p.ackReq s) s)

/-- RDMA_WRITE_WITH_IMMEDIATE_RECEIVED: its last packet also uses a receive buffer (R97, R104). -/
def execRdmaWriteWithImmediateReceived (p : Pkt) (reth : Option Reth) (imm : Nat) (data : Bytes) (s : State) : Result :=
  .next (onRequest p (duplicate p.qpn) (fun s =>
    if (bufferFor s (ctxOf s p.qpn)).isNone then rnr p s
    else
      match openWrite p reth data s with
      | .error t => t
      | .ok s => sendVisible p (leBytes 4 imm) (writeEnds p.qpn (messageEnds p true (placeWrite p data s)))) s)

/-- How a region counts a peer's read whose last response has a PSN (R113 step 2). -/
def readUser (qpn last : Nat) : Nat := qpn + 2 ^ 24 * (last + 1)

/-- The response packets of an RDMA Read Request. -/
def readPackets (s : State) (qpn len : Nat) : Nat := packetsOf (ctxOf s qpn).pmtu len

/-- RDMA_READ_REQUEST_RECEIVED (R94, R100, R112, R113). -/
def execRdmaReadRequestReceived (p : Pkt) (r : Reth) (s : State) : Result :=
  .next (onRequest p
    (fun s =>
      let s := emit 0x552 0x503 0 p.qpn s
      let c := ctxOf s p.qpn
      match c.readRing.find? fun e => decide (psnSub p.psn e.1 < e.2.1) with
      | none => refuseRequest p.qpn p.psn s
      | some e =>
        let skip := psnSub p.psn e.1 * mtuBytes c.pmtu
        let len := e.2.2.2.2 - skip
        match regionCheck s e.2.2.1 (e.2.2.2.1 + skip) len 1 c.tenant with
        | some reason => accessNak p reason s
        | none => sendReadResponse p.qpn p.psn (hbmRead s (e.2.2.2.1 + skip) len) s)
    (fun s =>
      match regionCheck s r.rkey r.va r.len 1 (ctxOf s p.qpn).tenant with
      | some reason => accessNak p reason s
      | none =>
        let n := readPackets s p.qpn r.len
        let s := sendReadResponse p.qpn p.psn (hbmRead s r.va r.len) s
        let s := onRegion (regionIndex r.rkey) (fun x => { x with users := readUser p.qpn (lastPsn p.psn n) :: x.users }) s
        let s := onCtx p.qpn (fun c => { c with
          readRing := keepLast 16 (c.readRing ++ [(p.psn, n, r.rkey, r.va, r.len)])
          epsn := psnAdd c.epsn (n - 1), msn := psnAdd c.msn 1 }) s
        received p.qpn p.ackReq s) s)

/-! The requester. -/

/-- Is a message a read request? -/
def isRead (m : Nat × Nat × Nat) : Bool := decide (readMark ≤ m.2.2)

/-- The messages up to a PSN that an acknowledgement ends: those before the first read request still outstanding. -/
def ackedMessages (c : Context) (psn : Nat) : List (Nat × Nat × Nat) :=
  (c.sends.takeWhile fun m => !isRead m).filter fun m =>
    decide (psnSub (lastPsn m.1 m.2.1) c.unaPsn ≤ psnSub psn c.unaPsn)

/-- UNA_PSN advances past a PSN: messages end, the retry counts are restored, the timer runs on for what is left (R96). -/
def advanceUna (qpn psn : Nat) (ended : List (Nat × Nat × Nat)) (s : State) : State :=
  onCtx qpn (fun c =>
    let left := c.sends.filter fun m => !ended.contains m
    { c with
      sends := left, kept := c.kept.filter fun e => left.any fun m => m.1 == e.1, unaPsn := psnAdd psn 1, sqHead := (c.sqHead + ended.length) % 65536, rnrWait := false
      retryLeft := s.fld F.XPT_RETRY_CFG_RETRY_CNT, rnrLeft := s.fld F.XPT_RETRY_CFG_RNR_RETRY
      timerGts := if left.isEmpty then 0 else s.now + ackTimeout s }) s

/-- The first acknowledgement at or beyond the sample's PSN ends the sample (R107). -/
def endSample (qpn psn : Nat) (s : State) : State :=
  let c := ctxOf s qpn
  if c.sampleOn ∧ psnSub psn c.samplePsn < 2 ^ 23 then
    let s1 := onCtx qpn (fun c => { c with sampleOn := false }) s
    if s.fld F.XPT_CFG_CC_EN = 1 then
      onSample qpn (since32 (s.now % 2 ^ 32) c.sampleGts) (portMbps s c.lport / 100) s1
    else s1
  else s

/-- Is a PSN within UNA_PSN to SPSN − 1 (R96)? -/
def ackInRange (c : Context) (psn : Nat) : Bool := decide (psnSub psn c.unaPsn < psnSub c.spsn c.unaPsn)

/-- The read requests of a peer that straddle an invalidation end when their last response is acknowledged (R113 step 2): those
whose last response has a PSN no later than `psn`. -/
def endReads (qpn psn : Nat) (s : State) : State :=
  let ended := fun (u : Nat) => u % 2 ^ 24 == qpn && decide (2 ^ 24 ≤ u) && decide (psnSub psn (u / 2 ^ 24 - 1) < 2 ^ 23)
  (s.xpt.regions.keysWhere fun _ r => r.users.any ended).foldl
    (fun s i => ((s.xpt.regions.at i).users.filter ended).foldl (fun s u => endStraddle i u s) s) s

/-- An acknowledgement of the unit's own messages (R96, R107): ignored outside UNA_PSN to SPSN − 1. -/
def acknowledge (qpn psn : Nat) (s : State) : State :=
  let c := ctxOf s qpn
  if !ackInRange c psn then s
  else
    let ended := ackedMessages c psn
    let blocked := c.sends.any fun m => isRead m && decide (psnSub m.1 c.unaPsn ≤ psnSub psn c.unaPsn)
    let upTo := if blocked then
        (match c.sends.find? isRead with | some m => psnSub m.1 1 | none => psn) else psn
    let s := if psnSub upTo c.unaPsn < 2 ^ 23 then advanceUna qpn upTo ended s else s
    drainCheck qpn (endSample qpn upTo s)

/-- ACKNOWLEDGE_RECEIVED (R96, R107): of the unit's own messages, or of its responses to the peer's reads, whose PSNs are the
peer's (R113; notes/assumptions/15.md). -/
def execAcknowledgeReceived (qpn psn : Nat) (ecn ofReads : Bool) (s : State) : Result :=
  .next (onReply qpn psn ecn (if ofReads then endReads qpn psn else acknowledge qpn psn) s)

/-- Data of a read response: into a command's cells, or the memory a chained request names. -/
def placeRead (tag off : Nat) (data : Bytes) (s : State) : State :=
  if 2 ^ 20 ≤ tag then hbmWrite ((s.xpt.pool.at (tag - 2 ^ 20)).localAddr + off) data s
  else if tag = 0 then s
  else if (entryOf s (tag - 1)).live ∧ (entryOf s (tag - 1)).state = .fetching then
    let (hs, s) := holdCells (entryOf s (tag - 1)).cap.port 3 (cellsFor data.length) s
    onEntry (tag - 1) (fun e => { e with data := e.data ++ data, cells := e.cells ++ hs }) s
  else s

/-- A response to one of the unit's reads: the next response of the oldest outstanding read is placed; the last one frees its
credit (R99); a response that is not the next one is ignored. -/
def readResponse (qpn psn : Nat) (data : Bytes) (s : State) : State :=
  let c := ctxOf s qpn
  match c.sends.find? isRead with
  | none => s
  | some m =>
    let una := if psnSub c.unaPsn m.1 < m.2.1 then c.unaPsn else m.1
    if psn ≠ una then s
    else
      let off := psnSub psn m.1 * mtuBytes c.pmtu
      let before := c.sends.takeWhile fun x => !isRead x
      let last := psn = lastPsn m.1 m.2.1
      let s := placeRead (m.2.2 - readMark) off data s
      let s := endSample qpn psn (advanceUna qpn psn (if last then before ++ [m] else before) s)
      drainCheck qpn (if last then freeReadCredit qpn s else s)

/-- RDMA_READ_RESPONSE_RECEIVED (R84, R99, R110). -/
def execRdmaReadResponseReceived (qpn psn : Nat) (ecn : Bool) (data : Bytes) (s : State) : Result :=
  .next (onReply qpn psn ecn (readResponse qpn psn data) s)

/-- Use one of the retries (R96): with none left the context enters ERROR, else it resends from a PSN and halves its rate
(R108). -/
def retryFrom (qpn psn : Nat) (s : State) : State :=
  let c := ctxOf s qpn
  let s := onCtx qpn (fun c => { c with retryLeft := c.retryLeft - 1 }) s
  if c.retryLeft ≤ 1 then connError qpn 1 s
  else halveRate qpn (resendFrom qpn psn s)

/-- NAK_PSN_SEQUENCE_ERROR_RECEIVED (R96). -/
def execNakPsnSequenceErrorReceived (qpn psn : Nat) (s : State) : Result :=
  .next (onReply qpn psn false (fun s => if ackInRange (ctxOf s qpn) psn then retryFrom qpn psn s else s) s)

/-- The RNR time a timer field names, in ns, in RoCEv2 encoding (notes/assumptions/16.md). -/
def rnrTime (timer : Nat) : Nat :=
  if timer = 0 then 655360000
  else if timer = 1 then 10000
  else if timer % 2 = 0 then 10000 * 2 ^ (timer / 2)
  else 15000 * 2 ^ (timer / 2)

/-- An RNR NAK uses one of the RNR retries, 7 meaning no limit, and the resend waits for the RNR time (R96). -/
def rnrNak (qpn psn timer : Nat) (s : State) : State :=
  let c := ctxOf s qpn
  if !ackInRange c psn then s
  else if s.fld F.XPT_RETRY_CFG_RNR_RETRY ≠ 7 ∧ c.rnrLeft ≤ 1 then
    connError qpn 2 (onCtx qpn (fun c => { c with rnrLeft := 0 }) s)
  else
    onCtx qpn (fun c => { c with
      rnrLeft := if s.fld F.XPT_RETRY_CFG_RNR_RETRY = 7 then c.rnrLeft else c.rnrLeft - 1
      rnrWait := true, timerGts := s.now + rnrTime timer }) s

/-- RNR_NAK_RECEIVED (R84, R96). -/
def execRnrNakReceived (qpn psn : Nat) (timer : Fin 32) (s : State) : Result :=
  .next (onReply qpn psn false (rnrNak qpn psn timer.val) s)

/-- NAK_REMOTE_ACCESS_ERROR_RECEIVED (R84, R90). -/
def execNakRemoteAccessErrorReceived (qpn psn : Nat) (s : State) : Result := .next (onReply qpn psn false (connError qpn 3) s)

/-- NAK_INVALID_REQUEST_RECEIVED (R84, R90). -/
def execNakInvalidRequestReceived (qpn psn : Nat) (s : State) : Result := .next (onReply qpn psn false (connError qpn 5) s)

/-- CNP_RECEIVED: a sample of base + 2 × target (R110). -/
def execCnpReceived (qpn : Nat) (s : State) : Result :=
  .next (onReply qpn 0 false (fun s =>
    let c := ctxOf s qpn
    if s.fld F.XPT_CFG_CC_EN = 1 then
      onSample qpn (c.baseRtt + 2 * s.fld F.XPT_CC_CFG_TARGET_NS) (portMbps s c.lport / 100) s
    else s) s)

/-- INVALID_OPCODE_PACKET (R84). -/
def execInvalidOpcodePacket (p : Pkt) (_opcode : Nat) (s : State) : Result := .next (refuseRequest p.qpn p.psn s)

/-- ACK_TIMEOUT (R96). -/
def execAckTimeout (qpn : Nat) (s : State) : Result :=
  let c := ctxOf s qpn
  if c.sends = [] ∨ c.rnrWait ∨ !(c.state = 3 ∨ c.state = 4) then .next s else .next (retryFrom qpn c.unaPsn s)

/-- RNR_WAIT_EXPIRY (R96). -/
def execRnrWaitExpiry (qpn : Nat) (s : State) : Result :=
  let c := ctxOf s qpn
  if c.rnrWait then .next (resendFrom qpn c.unaPsn (onCtx qpn (fun c => { c with rnrWait := false }) s)) else .next s

/-- ACK_COALESCING_TIMEOUT (R95). -/
def execAckCoalescingTimeout (qpn : Nat) (s : State) : Result :=
  if 0 < (ctxOf s qpn).unackedPkts then .next (sendAck qpn s) else .next s

/-! The context cache (R91, R93). -/

/-- The set of a context (R91). -/
def cacheSet (ctx : Nat) : Nat := ctx * 0x9E37 % 4096

/-- The state with a cache set changed. -/
def onSet16 (set : Nat) (f : List (Nat × Bool) → List (Nat × Bool)) (s : State) : State :=
  s.onXpt fun x => { x with cache := x.cache.upd set fun w => { w with ways := f w.ways } }

/-- Place a context in its set as the most recently used. -/
def cachePlace (ctx : Nat) (dirty : Bool) (s : State) : State := onSet16 (cacheSet ctx) (fun ws => (ctx, dirty) :: ws) s

/-- The way of a full set that a fill takes: the least recently used; with a full victim buffer the least recently used clean
one (R91). -/
def victimOf (s : State) (set : Nat) : Option (Nat × Bool) :=
  let ws := (s.xpt.cache.at set).ways.reverse
  if s.xpt.victims.length < 1024 then ws.head? else ws.find? fun w => !w.2

/-- A fill takes its way: a dirty victim moves to the victim buffer (R91). -/
def fillWay (ctx : Nat) (dirty : Bool) (s : State) : Option State :=
  let set := cacheSet ctx
  if (s.xpt.cache.at set).ways.length < 16 then some (cachePlace ctx dirty s)
  else
    match victimOf s set with
    | none => none
    | some v =>
      let s := onSet16 set (fun ws => ws.filter (· != v)) s
      let s := if v.2 then s.onXpt fun x => { x with victims := x.victims ++ [v.1] } else s
      some (cachePlace ctx dirty s)

/-- CONTEXT_FILL (R88, R91, R93): a hit only renews the way; a miss counts, fills or waits for a write-back; a fill whose
CHECK does not match sends the context to ERROR with cause 7. `dirty` is whether the access changes the context. -/
def execContextFill (ctx : Nat) (dirty checkOk : Bool) (s : State) : Result :=
  let set := cacheSet ctx
  match (s.xpt.cache.at set).ways.find? fun w => w.1 == ctx with
  | some w =>
    .next (onSet16 set (fun ws => (ctx, w.2 || dirty) :: ws.filter (· != w)) s)
  | none =>
    let s := s.onXpt fun x => { x with misses := (x.misses + 1) % 2 ^ 64 }
    let s := match fillWay ctx dirty s with
      | some t => t
      | none =>
        (emit 0x551 0x50E 0 set (s.onXpt fun x => { x with fills := x.fills ++ [(ctx, dirty)] })).bump
          F.XPT_CACHE_STALL_STALLS
    .next (if checkOk then s else connError (0x200000 + ctx) 7 s)

/-- VICTIM_WRITE_BACK: the oldest victim is in HBM again, and a waiting fill goes on (R91). -/
def execVictimWriteBack (s : State) : Result :=
  let s := s.onXpt fun x => { x with victims := x.victims.drop 1 }
  match s.xpt.fills with
  | [] => .next s
  | (ctx, dirty) :: rest =>
    match fillWay ctx dirty s with
    | some t => .next (t.onXpt fun x => { x with fills := rest })
    | none => .next s

/-! Registers with rows of their own. -/

/-- XPT_INV_CTRL (R113, R115). -/
def execXptInvCtrl (path : Fin 5) (session : Nat) (value : Word) (s : State) : Result :=
  let (s, go) := writeGate path.val session (F.XPT_INV_CTRL_RKEY.addr 0) value s
  let key := value.toNat
  let r := s.xpt.regions.at (regionIndex key)
  if !go then .next s
  else if s.xpt.invCtrl.isSome then .next (s.setFld F.XPT_INV_STATUS_REFUSED 1)
  else if 65536 ≤ regionIndex key ∨ r.state ≠ 1 ∨ r.key ≠ key % 256 then .next s
  else .next (startInvalidation (regionIndex key) true s)

/-- INV_LIMIT_REACHED (R113 step 4a): the connections that still straddle enter ERROR with cause 8. -/
def execInvLimitReached (region : Nat) (s : State) : Result :=
  let r := s.xpt.regions.at region
  if r.state ≠ 2 ∨ r.users = [] then .next s
  else
    let s := onRegion region (fun r => { r with forced := true }) s
    let s := if r.byCtrl then s.setFld F.XPT_INV_STATUS_FORCED 1 else s
    let s := (r.users.map (· % 2 ^ 24)).eraseDups.foldl (fun s q => connError q 8 s) s
    .next (finishInvalidation region (onRegion region (fun r => { r with users := [] }) s))

/-- XPT_CTX_SEL (R124): the context is copied into XPT_CTX_DATA and DONE is set; a QPN outside the contexts' range gives
zeros. -/
def execXptCtxSel (path : Fin 5) (session : Nat) (value : Word) (s : State) : Result :=
  let (s, go) := writeGate path.val session (F.XPT_CTX_SEL_QPN.addr 0) value s
  let qpn := value.toNat % 2 ^ 24
  if !go then .next s
  else
    let b := if (ctxIndex qpn).isSome then ctxBytes s qpn (ctxOf s qpn) else List.replicate 128 0
    let s := (s.setFld F.XPT_CTX_SEL_QPN qpn).setFld F.XPT_CTX_SEL_DONE 1
    .next ((List.range 32).foldl (fun s i => s.setFldI F.XPT_CTX_DATA_DATA i (ofLe (slice b (4 * i) 4))) s)

end Sys2Proof.Machine
end

