-- ==== Sys2Proof/Machine/Triggers.lean ====
section
/-! DEFINITION. Triggered work queues: TRIGGER_ARM to WR_RDMA_READ, WR_WAIT_UNTIL_GTS to WR_NOTIFY (R116 to R121). -/

namespace Sys2Proof.Machine

/-- TRIGGER_ARM: an EMPTY entry is armed, with the work requests that firmware posts with it (R116, R117, R121). -/
def execTriggerArm (entry : Fin 16384) (tag qpn head mbufLen mbuf : Nat) (posts : List (Nat × WorkReq)) (s : State) : Result :=
  if (s.xpt.triggers.at entry.val).state ≠ 0 then .next s
  else
    let s := s.onXpt fun x => { x with pool := posts.foldl (fun t p => t.put (p.1 % 2 ^ 20) p.2) x.pool }
    .next (onTrigger entry.val (fun _ => ⟨tag, qpn, 1, head, min mbufLen 65536, mbuf, s.now⟩) s)

/-- TRIGGER_DISARM: an entry in RUNNING cannot be disarmed (R121). -/
def execTriggerDisarm (entry : Fin 16384) (s : State) : Result :=
  if (s.xpt.triggers.at entry.val).state = 1 then .next (onTrigger entry.val (fun _ => default) s) else .next s

/-- TRIGGER_RECLAIM: a DONE or FAILED entry is EMPTY again (R121). -/
def execTriggerReclaim (entry : Fin 16384) (s : State) : Result :=
  let st := (s.xpt.triggers.at entry.val).state
  if st = 3 ∨ st = 4 then .next (onTrigger entry.val (fun _ => default) s) else .next s

/-- CHAIN_START: the oldest waiting trigger starts its chain (R117). -/
def execChainStart (s : State) : Result :=
  match s.xpt.waiting with
  | [] => .next s
  | e :: rest =>
    if chainsRunning s < 4096 then .next (startChain e (s.onXpt fun x => { x with waiting := rest })) else .next s

/-- The request of a chain that may start now, with its index: a request with FENCE waits until every earlier one has
completed (R117, R118). -/
def nextRequest (s : State) (chain opcode : Nat) : Option (Nat × WorkReq) :=
  let c := s.xpt.chains.at chain
  match c.next with
  | none => none
  | some i =>
    let w := s.xpt.pool.at i
    if !c.running ∨ c.failed.isSome ∨ w.opcode ≠ opcode ∨ (bitAt w.flags 0 ∧ c.inProgress ≠ []) then none else some (i, w)

/-- A request is in progress: the chain's next request is the one it names, none after the last or after the 256th, the most a
chain holds (R117). -/
def requestStarted (chain i : Nat) (w : WorkReq) (s : State) : State :=
  onChain chain (fun c => { c with
    inProgress := c.inProgress ++ [(i, c.index)], index := c.index + 1
    next := if bitAt w.flags 1 ∨ w.next = 0xFFFFFFFF ∨ c.index = 255 then none else some w.next }) s

/-- Start the next request of a chain if it has the opcode; `run` does its work. -/
def startRequest (chain opcode : Nat) (run : Nat → WorkReq → State → State) (s : State) : State :=
  match nextRequest s chain opcode with
  | none => s
  | some (i, w) => run i w (requestStarted chain i w s)

/-- A request in progress ends: with status 0 the chain goes on or ends, with another it fails (R120). -/
def requestEnds (chain wr status : Nat) (s : State) : State :=
  let c := s.xpt.chains.at chain
  match c.inProgress.find? fun p => p.1 == wr with
  | none => s
  | some p =>
    let s := onChain chain (fun c => { c with inProgress := c.inProgress.filter (· != p) }) s
    if status = 0 then endChain chain s else failChain chain status p.2 s

/-- The place past the command table at which the layout engine works on a drive request of a chain, as on a command. -/
def wrSlot (wr : Nat) : Nat := 32768 + wr

/-- A drive request of a chain ends once the layout engine has answered: a read that fails with status 3 of R120, a write
with a status that no rule gives. -/
def driveRequestEnds (chain wr : Nat) (s : State) : State :=
  let e := entryOf s (wrSlot wr)
  if !(e.live && e.state == .posting) then s
  else
    let s := freeEntry (wrSlot wr) .done s
    if e.status = stOk then
      let job := bitsOf (s.xpt.triggers.at chain).tag 27 24
      requestEnds chain wr 0 (if (s.xpt.pool.at wr).opcode = 0x11 ∧ migBusy s job ∧ (jobOf s job).target then
        onJob job (fun x => { x with objs := x.objs + 1 }) s else s)
    else if (s.xpt.pool.at wr).opcode = 0x10 then requestEnds chain wr 3 s
    else requestEnds chain wr (s.freeVal.toNat % 7 + 1) s.drawn

/-- WORK_REQUEST_COMPLETION (R120): a network request ends with the status given, a drive request with the layout engine's
answer. -/
def execWorkRequestCompletion (chain : Fin 16384) (wr : Nat) (status : Fin 8) (s : State) : Result :=
  let op := (s.xpt.pool.at wr).opcode
  if op = 0x10 ∨ op = 0x11 then .next (driveRequestEnds chain.val wr s)
  else .next (requestEnds chain.val wr status.val s)

/-- A network request on a connection that is not in RTS fails with status 7 (R120). -/
def onNetwork (chain : Nat) (run : Nat → WorkReq → State → State) (i : Nat) (w : WorkReq) (s : State) : State :=
  if (ctxOf s w.qpn).state = 3 then run i w s else requestEnds chain i 7 s

/-- The tag of a message that a work request sends. -/
def wrTag (i : Nat) : Nat := 2 ^ 20 + i

/-- WR_RDMA_WRITE. -/
def execWrRdmaWrite (chain : Fin 16384) (s : State) : Result :=
  .next (startRequest chain.val 0x01 (onNetwork chain.val fun i w s =>
    sendWrite w.qpn w.remoteVa w.rkey (wrTag i) (hbmRead s w.localAddr w.length) none s) s)

/-- WR_RDMA_WRITE_WITH_IMMEDIATE. -/
def execWrRdmaWriteWithImmediate (chain : Fin 16384) (s : State) : Result :=
  .next (startRequest chain.val 0x02 (onNetwork chain.val fun i w s =>
    sendWrite w.qpn w.remoteVa w.rkey (wrTag i) (hbmRead s w.localAddr w.length) (some w.imm) s) s)

/-- WR_SEND: a Send carrying IMM. -/
def execWrSend (chain : Fin 16384) (s : State) : Result :=
  .next (startRequest chain.val 0x03 (onNetwork chain.val fun _ w s =>
    sendSend w.qpn (hbmRead s w.localAddr w.length) (some w.imm) none s) s)

/-- WR_RDMA_READ. -/
def execWrRdmaRead (chain : Fin 16384) (s : State) : Result :=
  .next (startRequest chain.val 0x04 (onNetwork chain.val fun i w s =>
    issueReads (w.length / 0x100000 + 1) w.qpn w.remoteVa w.rkey w.length (wrTag i) s) s)

/-- WR_WAIT_UNTIL_GTS: the request waits. -/
def execWrWaitUntilGts (chain : Fin 16384) (s : State) : Result :=
  .next (startRequest chain.val 0x20 (fun _ _ s => s) s)

/-- WAIT_GTS_REACHED: the wait completes. -/
def execWaitGtsReached (chain : Fin 16384) (wr : Nat) (s : State) : Result :=
  if (s.xpt.pool.at wr).opcode = 0x20 then .next (requestEnds chain.val wr 0 s) else .next s

/-- WR_NOTIFY: firmware is told, and the request completes. -/
def execWrNotify (chain : Fin 16384) (s : State) : Result :=
  .next (startRequest chain.val 0x3F (fun i w s => requestEnds chain.val i 0 (s.send (.notify chain.val w.imm))) s)

end Sys2Proof.Machine
end

