-- ==== Sys2Proof/Machine/Fixity.lean ====
section
/-! DEFINITION. The fixity engine and the drive, digest and envelope requests of a chain: WR_DRIVE_READ to WR_ENVELOPE_OPEN,
LEAVES_RECOMPUTED and FIXITY_AUDIT_OBJECT (R165 to R168, R177, R181, R187 to R189). -/

namespace Sys2Proof.Machine

/-! Reading objects. -/

/-- Units as read from drives, by set and row: those that pass their check (R157); the others are as if missing. -/
def passing (s : State) (units : List (Nat × Nat × UnitRead)) : List UnitIo :=
  (units.filter fun x => unitPasses s x.1 x.2.1 x.2.2).map fun x =>
    { (default : UnitIo) with set := x.1, row := x.2.1, unit := x.2.2.unit, data := x.2.2.data }

/-- The units that fail their check are queued for repair (R146). -/
def queueFailing (units : List (Nat × Nat × UnitRead)) (s : State) : State :=
  (units.filter fun x => !unitPasses s x.1 x.2.1 x.2.2).foldl (fun s x => unitCheckFail x.1 x.2.1 x.2.2.unit s) s

/-- Where an extent stands: its set, its first row and its stored bytes. -/
def findExtent (s : State) (extent : Nat) : Option (Nat × Nat × Nat) :=
  match s.lay.map.find? fun m => m.extent == extent && !m.removed && !m.empty with
  | none => none
  | some m =>
    let rs := (s.lay.sets.at m.set).rows
    some (m.set, m.firstRow, ((rs.filter fun r => r.2.extent == extent).map (·.2.rowBytes)).sum)

/-- The parts of the data that a leaf covers: its extent and, where a write continued, the one after it (R134, R167). -/
def leafSegs (s : State) (extent bytes : Nat) : Option (List Seg) :=
  match findExtent s extent with
  | none => none
  | some (set, row, n) =>
    let a : Seg := ⟨false, n, set, row, 0, extent⟩
    if bytes ≤ n then some [a]
    else
      match findExtent s (extent + 1) with
      | some (set2, row2, n2) => if bytes ≤ n + n2 then some [a, ⟨false, n2, set2, row2, 0, extent + 1⟩] else none
      | none => none

/-- The plaintext of parts from the units read that pass their check; none where too few are left. -/
def plainOf (s : State) (nsid : Nat) (segs : List Seg) (got : List UnitIo) : Option Bytes :=
  let us := segUnits s segs
  let rows := (rowsAmong us).map fun r => (r, rowResult s got r.1 r.2 (neededIn us r))
  if rows.all fun r => decodedOk s r.1.1 r.1.2 (neededIn us r.1) r.2.1 then
    some (segsPlain s nsid (rows.map fun r => (r.1, r.2.1)) segs)
  else none

/-- The data bytes a leaf's DIGEST covers (R165, R168). -/
def leafBytesLen (l : Leaf) : Nat := if l.keyLen = 0 then l.length * 2 ^ l.lbaShift else l.length

/-- The records above a JSEQ and below another that committed a write: their JSEQ, map entries and row runs, from the journal,
and where a record has retired from the map without the runs (R177). -/
def writesAbove (s : State) (low high : Nat) : List (Nat × List MapEntry × List Alloc) :=
  let p := fun (nsid jseq : Nat) => decide (low < jseq ∧ jseq < high) && nsid != storeNsid
  let js := (s.lay.journal.filter fun r => r.typ == 1 && r.committed && p r.nsid r.jseq).map
    fun r => (r.jseq, r.entries, r.runs)
  let ms := (s.lay.map.filter fun m => !m.removed && p m.nsid m.jseq).map (·.jseq)
  js ++ (ms.eraseDups.filter fun j => !js.any fun x => x.1 == j).map fun j =>
    (j, s.lay.map.filter (fun m => m.jseq == j && !m.removed), [])

/-- The parts of the data of row runs that still hold their extents. -/
def runSegs (s : State) (runs : List Alloc) : Option (List Seg) :=
  if runs.all fun a => ((s.lay.sets.at a.set).rows.at a.firstRow).extent == a.extent then
    some (runs.map fun a => ⟨false, a.bytes, a.set, a.firstRow, 0, a.extent⟩)
  else none

/-- The plaintext of a record's entries, in the rows of its runs or where the map has them. -/
def recordPlain (s : State) (es : List MapEntry) (runs : List Alloc) (got : List UnitIo) : Option Bytes :=
  match es with
  | [] => none
  | m :: _ =>
    if m.empty then some []
    else
      let len := if m.kv then m.length else (es.map (·.length)).sum * 2 ^ (s.cmd.namespaces.at m.nsid).lbaShift
      match if runs = [] then leafSegs s m.extent len else runSegs s runs with
      | none => none
      | some segs => (plainOf s m.nsid segs got).map (·.take len)

/-- Recompute the leaf of one write record, or say that its data cannot be read (R177): the state and how many leaves. -/
def recompute (got : List UnitIo) (p : State × Nat) (x : Nat × List MapEntry × List Alloc) : State × Nat :=
  match x.2.1, recordPlain p.1 x.2.1 x.2.2 got with
  | m :: _, some data =>
    (addLeaf p.1 (leafOf p.1 m 4 (if m.kv then m.length else (x.2.1.map (·.length)).sum) x.1 (Config.sha256 data) 0), p.2 + 1)
  | _, _ => (emit 0x581 0x80B 4 x.1 p.1, p.2)

/-- LAST_JSEQ of the highest sealed batch (R177). -/
def lastSealedJseq (s : State) : Nat :=
  match s.fix.sealed.getLast? with
  | some b => leAt b.statement 136 8
  | none => 0

/-- LEAVES_RECOMPUTED: with the units of the records' data as read, a leaf of type 4 for each write record above L that was
replayed and one of type 2 for each removal (R177). -/
def execLeavesRecomputed (units : List (Nat × Nat × UnitRead)) (s : State) : Result :=
  if !s.fix.recomputing then .next s
  else
    let low := lastSealedJseq s
    let high := s.fix.replayTo
    let (s, n) := (writesAbove s low high).foldl (recompute (passing s units)) (s, 0)
    let gone := s.lay.journal.filter fun r =>
      r.typ == 2 && r.committed && decide (low < r.jseq ∧ r.jseq < high) && r.nsid != storeNsid
    let s := gone.foldl (fun s r => r.entries.foldl (fun s m =>
      addLeaf s (leafOf s m 2 (if m.kv then 0 else m.length) r.jseq 0 0)) s) s
    .next (fixAdvance (emit 0x581 0x804 2 n (s.onFix fun f => { f with recomputing := false })))

/-! Audit (R181). -/

/-- AUDIT_MISMATCH marks the object suspect. -/
def auditMismatch (extent : Nat) (s : State) : State :=
  let s := (emit 0x582 0x805 4 extent s).bump F.FIX_AUDIT_STAT_MISMATCHES
  s.onFix fun f => { f with suspects := if f.suspects.contains extent then f.suspects else f.suspects ++ [extent] }

/-- The live objects that an audit cycle reads: their extents. -/
def liveObjects (s : State) : List Nat :=
  ((s.lay.map.filter fun m => !m.removed && !m.empty && m.nsid != storeNsid).map (·.extent)).eraseDups

/-- The leaf that covers an extent's data, the latest filed: its own, or that of the write which began in the extent before
(R134, R167). -/
def leafOfExtent (s : State) (extent : Nat) : Option Leaf :=
  let latest := fun (p : Leaf → Bool) => (s.fix.sealed ++ s.fix.closed ++ s.fix.opened).reverse.findSome? fun b =>
    b.all.reverse.find? fun l => l.typ != 5 && l.typ != 2 && p l
  match latest fun l => l.extent == extent with
  | some l => some l
  | none => latest fun l => l.keyLen == 0 && l.extent + 1 == extent &&
      ((leafSegs s l.extent (leafBytesLen l)).getD []).any fun x => x.extent == extent

/-- One more object audited; after the last of the cycle the next begins. -/
def auditAdvance (extent : Nat) (s : State) : State :=
  let done := if s.fix.audited.contains extent then s.fix.audited else extent :: s.fix.audited
  s.onFix fun f => { f with audited := if (liveObjects s).all done.contains then [] else done }

/-- The plaintext of parts decoded without regard to the unit CRCs of the result, which the audit compares by digest; none
where a row has too few units (R129, R181). -/
def plainAny (s : State) (nsid : Nat) (segs : List Seg) (got : List UnitIo) : Option Bytes :=
  let us := segUnits s segs
  let rows := (rowsAmong us).map fun r => (r, rowResult s got r.1 r.2 (neededIn us r))
  let enough := fun (r : Nat × Nat) =>
    decide (((s.lay.sets.at r.1).rows.at r.2).dataUnits ≤ (got.filter fun x => x.set == r.1 && x.row == r.2).length)
  if (rowsAmong us).all enough then some (segsPlain s nsid (rows.map fun r => (r.1, r.2.1)) segs) else none

/-- The audit of a leaf's data where every unit passed its check and the digests differ: the data are decoded again with each
data unit in turn missing; a version that matches has that unit rewritten, none that matches is a mismatch (R181). -/
def auditDecode (extent : Nat) (l : Leaf) (segs : List Seg) (got : List UnitIo) (same : Option Bytes → Bool) (s : State) :
    State :=
  let without := fun (u : Nat × Nat × Nat) => got.filter fun x => (x.set, x.row, x.unit) != u
  match (segUnits s segs).find? fun u => same (plainAny s l.nsid segs (without u)) with
  | some u =>
    let (ds, _) := rowResult s (without u) u.1 u.2.1 (List.range (setGeom s u.1).k)
    auditAdvance extent (rewriteUnit u.1 u.2.1 u.2.2 (ds.getD u.2.2 []) s)
  | none => auditAdvance extent (auditMismatch extent s)

/-- FIXITY_AUDIT_OBJECT: the object of an extent is read and compared with its leaf. `units` are its units as read, parities
among them; one that fails its check is queued for repair, and an object whose digests then differ is read again later. An
object without a leaf has nothing to compare. -/
def execFixityAuditObject (extent : Nat) (units : List (Nat × Nat × UnitRead)) (s : State) : Result :=
  if s.fld F.FIX_AUDIT_CFG_CYCLE_DAYS = 0 ∨ !(liveObjects s).contains extent then .next s
  else
    match leafOfExtent s extent with
    | none => .next (auditAdvance extent s)
    | some l =>
      match leafSegs s l.extent (leafBytesLen l) with
      | none => .next (auditAdvance extent s)
      | some segs =>
        let got := passing s units
        let same := fun (p : Option Bytes) => p.any fun b => Config.sha256 (b.take (leafBytesLen l)) == l.digest
        let t := queueFailing units s
        match plainOf s l.nsid segs got with
        | none => .next t
        | some plain =>
          if same (some plain) then .next (auditAdvance extent t)
          else if got.length ≠ units.length then .next t
          else .next (auditDecode extent l segs got same t)

/-! Custody bundles (R189, R190). -/

/-- The siblings of a leaf from the leaf level upward; a level where the node is promoted contributes none (R179). `fuel`
bounds the levels. -/
def pathUp : Nat → Nat → List Digest → List Digest
  | 0, _, _ => []
  | fuel + 1, i, hs =>
    if hs.length ≤ 1 then []
    else ((hs.drop (if i % 2 = 1 then i - 1 else i + 1)).take 1) ++ pathUp fuel (i / 2) (levelUp hs)

/-- The records of a bundle from an offset on: each record with its statement triple (R189). `fuel` bounds the records. -/
def bundleRecords (b : Bytes) (triples : Nat) : Nat → Nat → List (Bytes × Bytes)
  | 0, _ => []
  | fuel + 1, o =>
    let len := 144 + 32 * leAt b (o + 130) 1
    let st := leAt b (o + 128) 2
    (slice b o len, if st < triples then slice b (16 + 30048 * st) 30048 else []) :: bundleRecords b triples fuel (o + len)

/-- The chain records that a LINK reaches, in link order, each with its statement triple; the extent of a type 5 leaf is not
carried (R190). `fuel` bounds the chain. -/
def followLinks (recs : List (Bytes × Bytes)) : Nat → Digest → List (Bytes × Bytes)
  | 0, _ => []
  | fuel + 1, link =>
    if link = 0 then []
    else match recs.find? fun x => leafHashOf (x.1.take 128) == link with
      | some x => x :: (if leAt x.1 4 1 = 5 then [] else followLinks recs fuel (BitVec.ofNat 256 (ofBe (slice x.1 88 32))))
      | none => []

/-- An object of custody by its key. -/
def custodyAt (s : State) (key : Bytes) : Option Bytes := valueOf s.fix.custody key

/-- The chain of custody of a leaf: its custody record names the window's bundle (R176, R189). -/
def custodyChain (s : State) (seq index : Nat) (l : Leaf) : List (Bytes × Bytes) :=
  match custodyAt s ([0x43] ++ leBytes 8 seq ++ leBytes 4 index) with
  | none => []
  | some c =>
    match custodyAt s ([0x57] ++ slice c 0 12) with
    | none => []
    | some b =>
      let triples := leAt b 4 2
      let n := leAt b 6 2
      followLinks (bundleRecords b triples n (16 + 30048 * triples)) n l.link

/-- The chain record of a sealed leaf with its statement triple (R189). Its statement index is set in the bundle. -/
def chainRecord (b : Batch) (index : Nat) (l : Leaf) : Bytes × Bytes :=
  let path := pathUp 33 index (b.all.map Leaf.hash)
  (l.bytes ++ leBytes 2 0 ++ leBytes 1 path.length ++ leBytes 5 0 ++ leBytes 8 index ++ path.flatMap digestBytes, b.object)

/-- The records of a source leaf and of every leaf that its LINK chain reaches, in link order (R189). -/
def custodyOf (s : State) (x : Batch × Nat × Leaf) : List (Bytes × Bytes) :=
  chainRecord x.1 x.2.1 x.2.2 :: (if x.2.2.typ = 5 then [] else custodyChain s x.1.seq x.2.1 x.2.2)

/-- A custody bundle of records with their statement triples: a triple that several records share is stored once (R189). -/
def bundleOf (recs : List (Bytes × Bytes)) : Bytes :=
  let triples := (recs.map (·.2)).eraseDups
  padTo 16 ([0x46, 0x58, 0x43, 0x42] ++ leBytes 2 triples.length ++ leBytes 2 recs.length) ++ triples.flatten ++
    recs.flatMap fun x => x.1.take 128 ++ leBytes 2 (triples.idxOf x.2) ++ x.1.drop 130

/-! Requests of a chain (R187 to R189). -/

/-- A field of a request's ARGS: bytes `o` of the 64 on, `n` of them (R187). -/
def argLe (w : WorkReq) (o n : Nat) : Nat := ofLe (slice w.args (o - 40) n)

/-- WR_DRIVE_READ: an extent's bytes are read as a command reads them, and delivered at LOCAL; a forced decode takes as many
data units of each row as missing as parity allows (R187). -/
def execWrDriveRead (chain : Fin 16384) (s : State) : Result :=
  .next (startRequest chain.val 0x10 (fun i w s =>
    let nsid := argLe w 40 4
    let set := argLe w 44 4
    let row := argLe w 48 2
    let extent := argLe w 56 8
    let dus := nsDus s nsid
    let seg : Seg := ⟨false, (w.length + dus - 1) / dus * dus, set, row, argLe w 52 4, extent⟩
    let us := segUnits s [seg]
    let bad := if argLe w 50 1 % 2 = 0 then [] else (rowsAmong us).flatMap fun r =>
      ((neededIn us r).take (setGeom s set).m).map fun u => (r.1, r.2, u)
    let c : Capsule := { (default : Capsule) with nsid := nsid, opc := 0x02, xlen := w.length, cls := 3 }
    let s := onEntry (wrSlot i) (fun _ => { (default : Entry) with live := true, cap := c, segs := [seg], bad := bad }) s
    if ((s.lay.sets.at set).rows.at row).extent ≠ extent ∨ !keyReady s nsid then toPosting (wrSlot i) stUnrecovered 0 s
    else advanceRead (wrSlot i) s) s)

/-- The manifest entry of the object that a write request records: that of the custody request which names its index in the
chain (R187). `fuel` bounds the requests looked at. -/
def manifestEntryOf (s : State) (index : Nat) : Nat → Nat → Option Bytes
  | 0, _ => none
  | fuel + 1, i =>
    let w := s.xpt.pool.at i
    if w.opcode = 0x13 ∧ argLe w 48 4 = index then some (hbmRead s (argLe w 40 8) 256)
    else if bitAt w.flags 1 ∨ w.next = 0xFFFFFFFF then none
    else manifestEntryOf s index fuel w.next

/-- WR_DRIVE_WRITE: an object is written or removed as a command writes it, and completes at its commit point (R187,
R188). -/
def execWrDriveWrite (chain : Fin 16384) (s : State) : Result :=
  .next (startRequest chain.val 0x11 (fun i w s =>
    let nsid := argLe w 40 4
    let kv := (s.cmd.namespaces.at nsid).kv
    let remove := argLe w 44 1 == 2
    let data := hbmRead s w.localAddr w.length
    let index := (s.xpt.chains.at chain.val).index - 1
    let link := (manifestEntryOf s index 256 i).map fun b => BitVec.ofNat 256 (ofBe (slice b 128 32))
    let start := argLe w 48 8
    let c : Capsule := { (default : Capsule) with
      nsid := nsid, cls := 3, key := slice w.args 8 (argLe w 45 1), slba := start, xlen := w.length
      opc := if kv then (if remove then 0x90 else 0x81) else (if remove then 0x09 else 0x01)
      ranges := [(start, w.length / 2 ^ (s.cmd.namespaces.at nsid).lbaShift)] }
    let e : Entry := { (default : Entry) with live := true, cap := c, data := data, digest := Config.sha256 data, link := link }
    let k := wrSlot i
    let s := onEntry k (fun _ => e) s
    if remove then journalStep k s
    else if !keyReady s nsid then toPosting k stInternal 0 (cipRefuse 2 (s.cmd.namespaces.at nsid).tenant 0 s)
    else
      match allocateFor c s with
      | .error why => noSpace k why s
      | .ok (s, as) =>
        let s := onEntry k (fun e => { e with allocs := as }) s
        if w.length = 0 then journalStep k s else submitUnits k s) s)

/-- WR_DIGEST_CHECK: the input's digest against the expected one; a mismatch fails with status 4 (R187). -/
def execWrDigestCheck (chain : Fin 16384) (s : State) : Result :=
  .next (startRequest chain.val 0x12 (fun i w s =>
    let ok := digestBytes (Config.sha256 (hbmRead s w.localAddr w.length)) == hbmRead s (argLe w 40 8) 32
    requestEnds chain.val i (if ok then 0 else 4) s) s)

/-- The window of a chain: that of the job and number its trigger's tag names (R186). -/
def chainWindow (s : State) (chain : Nat) : Nat :=
  let t := (s.xpt.triggers.at chain).tag
  ((tagWindow s t).map (·.number)).getD (t % 2 ^ 24)

/-- A custody bundle in a buffer, to its own length (R189): its header counts the statement triples and the records. `fuel` bounds
the records. -/
def bundleEnd (b : Bytes) : Nat → Nat → Nat
  | 0, o => o
  | fuel + 1, o => bundleEnd b fuel (o + 144 + 32 * leAt b (o + 130) 1)

/-- The length of a custody bundle. -/
def bundleLength (b : Bytes) : Nat := bundleEnd b (leAt b 6 2) (16 + 30048 * leAt b 4 2)

/-- WR_CUSTODY_RECORD: the 304-byte record of the object under key 0x43; the first of a window also stores the window's
bundle, which is the input (R189). -/
def execWrCustodyRecord (chain : Fin 16384) (s : State) : Result :=
  .next (startRequest chain.val 0x13 (fun i w s =>
    let entry := hbmRead s (argLe w 40 8) 256
    let index := (argLe w 40 8 - ((s.xpt.triggers.at chain.val).mbuf + 64)) / 256
    let link := BitVec.ofNat 256 (ofBe (slice entry 128 32))
    let window := chainWindow s chain.val
    let uid := argLe w 56 8
    let bundleKey := [0x57] ++ leBytes 8 uid ++ leBytes 4 window
    let rec_ := leBytes 8 uid ++ leBytes 4 window ++ leBytes 2 index ++ leBytes 2 0 ++ slice entry 128 32 ++ entry
    let s := placeCustody s (link, rec_)
    let bundle := hbmRead s w.localAddr w.length
    let s := if s.fix.custody.any fun x => x.1 == bundleKey then s
      else storeCustody bundleKey (bundle.take (bundleLength bundle)) s
    requestEnds chain.val i 0 s) s)

/-- The first 32 bytes of an envelope (R185). -/
def envelopeHead (plainLen window index : Nat) : Bytes :=
  padTo 32 ([0x46, 0x58, 0x45, 0x56] ++ leBytes 4 plainLen ++ leBytes 4 window ++ leBytes 2 index)

/-- A cipher request of a chain under the key that ARGS name (R187). -/
def chainCipher (w : WorkReq) (mode : CipherMode) (head entry data tag : Bytes) : CipherReq :=
  { page := argLe w 40 2, keyPage := argLe w 40 2, handle := argLe w 42 2, mode := mode, iv := slice head 8 12
    aad := entry ++ head, data := data, tag := tag, urgent := false, chain := none }

/-- The status of R120 for a cipher refusal: 5 for a tag, 6 for the others (R282). -/
def cipherStatus (code : Nat) : Nat := if code = 8 then 5 else 6

/-- WR_ENVELOPE_SEAL: the envelope of the input at the output address (R185, R187). -/
def execWrEnvelopeSeal (chain : Fin 16384) (s : State) : Result :=
  .next (startRequest chain.val 0x14 (fun i w s =>
    let head := envelopeHead w.length w.imm (argLe w 44 2)
    let entry := hbmRead s (argLe w 48 8) 256
    match cipRun (chainCipher w .gcmSeal head entry (hbmRead s w.localAddr w.length) []) s with
    | (s, .ok (c, tag)) => requestEnds chain.val i 0 (hbmWrite (argLe w 56 8) (head ++ c ++ tag) s)
    | (s, .error code) => requestEnds chain.val i (cipherStatus code) s) s)

/-- WR_ENVELOPE_OPEN: the plaintext of the envelope at the output address, released only if the tag matches (R187). -/
def execWrEnvelopeOpen (chain : Fin 16384) (s : State) : Result :=
  .next (startRequest chain.val 0x15 (fun i w s =>
    let env := hbmRead s w.localAddr w.length
    let entry := hbmRead s (argLe w 48 8) 256
    if w.length < 48 then requestEnds chain.val i 6 s
    else
      let c := slice env 32 (w.length - 48)
      match cipRun (chainCipher w .gcmOpen (env.take 32) entry c (env.drop (w.length - 16))) s with
      | (s, .ok (p, _)) => requestEnds chain.val i 0 (hbmWrite (argLe w 56 8) p s)
      | (s, .error code) => requestEnds chain.val i (cipherStatus code) s) s)

end Sys2Proof.Machine
end

