-- ==== Sys2Proof/Machine/Image.lean ====
section
/-! DEFINITION. The image container (R371 to R374, R428, R446), the loader's tests (R375, R376) and what applying an image
replaces (R377). The records whose bytes the specification does not lay out are read by functions without a body
(notes/assumptions/20.md). -/

namespace Sys2Proof

/-- What the GLOBAL section sets (R373): the epoch length, the GTS sources enabled, the addresses of MA and MB (their MACs of 6
bytes each, then their IPv6 addresses of 16), and the management UDP port, 0 for none. -/
structure GlobalRec where
  epochUs : Nat
  sources : List Nat
  addrs : Bytes
  udp : Nat
deriving DecidableEq, Repr, Inhabited

/-- The GLOBAL record. -/
opaque Config.imageGlobal : Bytes → GlobalRec

/-- The register words that a section sets, as address and word; the section's type comes first. -/
opaque Config.imageWords : Nat → Bytes → List (Nat × BitVec 32)

/-- The IPv4 and IPv6 addresses of the logical ports, of the PORTS section. -/
opaque Config.imageAddrs : Bytes → List (Nat × Nat × Nat)

/-- The parse nodes of 128 bytes each. -/
opaque Config.imageNode : Bytes → Machine.ParseNode

/-- The Scent patterns of 136 bytes each. -/
opaque Config.imagePattern : Bytes → Machine.Pattern

/-- The multicast groups of the BUFFER section. -/
opaque Config.imageGroups : Bytes → List (Nat × Machine.McGroup)

/-- The queues, nodes and policers of the QUEUES section. -/
opaque Config.imageQueues : Bytes → List (Nat × Machine.QEntry)
opaque Config.imageNodes : Bytes → List (Nat × Machine.QEntry)
opaque Config.imagePolicers : Bytes → List (Nat × Nat × Nat × Nat)

/-- The gate lists of the GATES section: the port and its entries, gates and duration. -/
opaque Config.imageGates : Bytes → List (Nat × List (Nat × Nat))

/-- The peer addresses of the TRANSPORT section. -/
opaque Config.imagePeers : Bytes → List Nat

/-- The Host NQNs, the class map and the functions' NQN indices of the NVME section. -/
opaque Config.imageNqns : Bytes → List Bytes
opaque Config.imageClassMap : Bytes → List Machine.ClassMap
opaque Config.imageFns : Bytes → List (Nat × Nat)

/-- The geometry records that the LAYOUT section begins with. -/
opaque Config.imageGeoms : Bytes → Nat

/-- Does the signature of an image's body verify under the key whose hash is given (R304 step 4)? -/
opaque Config.imageSigned : Bytes → Bytes → Bytes → Bool

/-- SHA-256 of Abelm's image public key (R299). -/
opaque Config.abelmImageKeyHash : Digest

namespace Machine

/-! The container (R371, R372). -/

/-- A number in the header. -/
def imgNum (b : Bytes) (o k : Nat) : Nat := ofLe (slice b o k)

def imgFlags (b : Bytes) : Nat := imgNum b 12 4
def imgLen (b : Bytes) : Nat := imgNum b 16 4
def imgBodyLen (b : Bytes) : Nat := imgNum b 20 4
def imgSections (b : Bytes) : Nat := imgNum b 24 2
def imgMode (b : Bytes) : Nat := imgNum b 26 1
def imgRoles (b : Bytes) : Nat := imgNum b 27 1
def imgUuid (b : Bytes) : Bytes := slice b 32 16
def imgName (b : Bytes) : Bytes := slice b 64 32
def imgSigner (b : Bytes) : Bytes := slice b 96 32

/-- The bytes signed. -/
def imgBody (b : Bytes) : Bytes := b.take (imgBodyLen b)

/-- The image digest: the SHA-256 of the bytes signed. -/
def imgDigest (b : Bytes) : Digest := Config.sha256 (imgBody b)

/-- A section table entry. -/
structure Section where
  typ : Nat
  version : Nat
  offset : Nat
  length : Nat
  records : Nat
  recordLen : Nat
  crc : Nat
deriving DecidableEq, Repr

/-- Entry i of the section table. -/
def sectionAt (b : Bytes) (i : Nat) : Section :=
  let o := 256 + 32 * i
  ⟨imgNum b o 2, imgNum b (o + 2) 2, imgNum b (o + 4) 4, imgNum b (o + 8) 4, imgNum b (o + 12) 4, imgNum b (o + 16) 4,
    imgNum b (o + 20) 4⟩

/-- The section table. -/
def sectionTable (b : Bytes) : List Section := (List.range (imgSections b)).map (sectionAt b)

/-- The bytes of the section of a type; none where the image has none. -/
def sectionOf (b : Bytes) (typ : Nat) : Option Bytes :=
  ((sectionTable b).find? fun x => x.typ == typ).map fun x => slice b x.offset x.length

/-- The fixed-length records of a section's bytes. -/
def recordsOf (len : Nat) (b : Bytes) : List Bytes := (List.range (b.length / len)).map fun i => slice b (i * len) len

/-- The fixed-length records of a section of an image. -/
def imgRecords (b : Bytes) (typ len : Nat) : List Bytes :=
  match sectionOf b typ with
  | some x => recordsOf len x
  | none => []

/-- May the loader take a section's entry: its version, its place, its type, its CRC (R372)? -/
def sectionOk (b : Bytes) (x : Section) : Bool :=
  x.version == 1 && x.offset % 8 == 0 && decide (256 + 32 * imgSections b ≤ x.offset) &&
    decide (x.offset + x.length ≤ imgBodyLen b) && (decide (0x80 ≤ x.typ) || (decide (1 ≤ x.typ) && decide (x.typ ≤ 0x14))) &&
    crc32c (slice b x.offset x.length) == x.crc

/-- Do two sections lie apart, with different types? -/
def sectionsApart (x y : Section) : Bool :=
  x.typ != y.typ && (decide (x.offset + x.length ≤ y.offset) || decide (y.offset + y.length ≤ x.offset))

/-- Is every pair of a list related? -/
def allPairs {α : Type} (p : α → α → Bool) : List α → Bool
  | [] => true
  | x :: xs => xs.all (p x) && allPairs p xs

/-- Reason 1 of R375 does not apply: the header, the placement and the CRCs are good. -/
def imgFormOk (b : Bytes) : Bool :=
  slice b 0 8 == [0x54, 0x57, 0x49, 0x4D, 0x47, 0x30, 0x30, 0x31] && imgNum b 8 4 == 1 &&
    imgLen b == imgBodyLen b + 29792 && b.length == imgLen b && decide (1 ≤ imgSections b) &&
    decide (imgSections b ≤ 32) && decide (256 + 32 * imgSections b ≤ imgBodyLen b) &&
    (sectionTable b).all (sectionOk b) && allPairs sectionsApart (sectionTable b)

/-! Records whose bytes the specification gives. -/

/-- A RULES record (R374): its index, its entry and its length. -/
def ruleAt (b : Bytes) : Nat × TcamEntry × Nat :=
  let n := (b.getD 2 0).toNat
  let groups := recordsOf 4 (slice b 12 (4 * n))
  let put := fun (byte_ : Nat) (acc : Nat) (g : Bytes) =>
    let k := (g.getD 0 0).toNat
    if 80 ≤ k then acc else setBits acc (639 - 8 * k) (632 - 8 * k) (g.getD byte_ 0).toNat
  (imgNum b 0 2, ⟨true, BitVec.ofNat 640 (groups.foldl (put 1) 0), BitVec.ofNat 640 (groups.foldl (put 2) 0),
    BitVec.ofNat 64 (imgNum b 4 8)⟩, (12 + 4 * n + 7) / 8 * 8)

/-- The RULES records from a place on. -/
def rulesFrom : Nat → Bytes → List (Nat × TcamEntry)
  | 0, _ => []
  | fuel + 1, b =>
    if b.length < 12 then []
    else
      let r := ruleAt b
      (r.1, r.2.1) :: rulesFrom fuel (b.drop r.2.2)

/-- The TCAM entries of an image. -/
def imgRules (b : Bytes) : List (Nat × TcamEntry) :=
  match sectionOf b 0x04 with
  | some x => rulesFrom (x.length / 12 + 1) x
  | none => []

/-- A namespace record (R159): the NSID and the namespace. -/
def nsAt (b : Bytes) : Nat × Namespace :=
  (imgNum b 0 4, { (default : Namespace) with
    valid := true, kv := imgNum b 4 1 == 2, geom := imgNum b 5 1, cipher := imgNum b 6 1 == 1, lbaShift := imgNum b 7 1
    tenant := imgNum b 8 2, keyGen := imgNum b 10 2, capacity := imgNum b 16 8, nguid := slice b 24 16 })

/-- The namespaces of an image. -/
def imgNamespaces (b : Bytes) : List (Nat × Namespace) := (imgRecords b 0x0C 64).map nsAt

/-- The geometries of an image (R125, R159): those with k not 0. -/
def imgGeoms (b : Bytes) : List (Nat × Geometry) :=
  match sectionOf b 0x0D with
  | none => []
  | some x =>
    let rs := recordsOf 16 (x.take (16 * min 16 (Config.imageGeoms x)))
    ((List.range rs.length).zip rs).filterMap fun p =>
      let g : Geometry := ⟨imgNum p.2 0 1, imgNum p.2 1 1, imgNum p.2 2 1⟩
      if g.k = 0 then none else some (p.1, g)

/-- The principals of an image (R386). -/
def imgPrincipals (b : Bytes) : List (Nat × Principal) :=
  (imgRecords b 0x13 128).map fun r =>
    (imgNum r 0 1, ⟨true, imgNum r 1 1, imgNum r 2 1, slice r 4 64, imgNum r 68 2, slice r 70 58⟩)

/-- The REGISTERS records: address, value and mask. -/
def imgRegisters (b : Bytes) : List (Nat × Nat × Nat) :=
  (imgRecords b 0x14 12).map fun r => (imgNum r 0 4, imgNum r 4 4, imgNum r 8 4)

/-- The words that a SLOTS record of a kind sets for an element, and the record's length; an element that the kind does not have
sets nothing (R428). -/
def slotWords (kind e : Nat) (w : Nat → Nat) : List (Nat × Nat) × Nat :=
  let have_ := fun (n : Nat) (l : List (Nat × Nat)) => if e < n then l else []
  match kind with
  | 1 => (have_ 48 [(0x0C000100 + 4 * e, w 0), (0x0C000200 + 4 * e, w 1)], 12)
  | 2 => (have_ 4 ([0, 1, 2, 3].map fun (i : Nat) => (0x0C000500 + 16 * e + 4 * i, w i)), 20)
  | 3 => (have_ 4 [(0x0C000600 + 4 * e, w 0)], 8)
  | 4 => (have_ 12 [(0x0C000700 + 4 * e, w 0), (0x0C000740 + 8 * e, w 1), (0x0C000744 + 8 * e, w 2)], 16)
  | 5 => (have_ 32 [(0x0C000800 + 4 * e, w 0)], 8)
  | 6 => ([(0x0C000040, w 0)], 8)
  | _ => ([], 0)

/-- The SLOTS records (R428): the words that they set; records follow each other, up to one of no kind. -/
def slotsFrom : Nat → Bytes → List (Nat × Nat)
  | 0, _ => []
  | fuel + 1, b =>
    if b.length < 8 then []
    else
      let x := slotWords (imgNum b 3 1) (imgNum b 0 1) fun i => imgNum b (4 + 4 * i) 4
      if x.2 = 0 then [] else x.1 ++ slotsFrom fuel (b.drop x.2)

/-- The SLOTS words of an image. -/
def imgSlots (b : Bytes) : List (Nat × Nat) :=
  match sectionOf b 0x0F with
  | some x => slotsFrom (x.length / 8 + 1) x
  | none => []

end Machine
end Sys2Proof
end

