-- ==== Sys2Proof/Machine/Loader.lean ====
section
/-! DEFINITION. The image loader's tests in the order of R375. -/

namespace Sys2Proof.Machine

/-- The logical ports and their rate, in Gb/s, that a breakout mode gives a physical port (R219). -/
def modeGbps (mode : Nat) : Nat := if mode ≤ 2 then 800 else if mode = 3 then 400 else 0

/-- The PRT_PORT_CFG words of an image: the reset word, 1×800G disabled, where it sets none. -/
def imgPortCfg (b : Bytes) (i : Nat) : Nat :=
  match sectionOf b 0x02 with
  | none => 7
  | some x => match (Config.imageWords 0x02 x).find? fun w => w.1 == 0x01000100 + 4 * i with
    | some w => w.2.toNat
    | none => 7

/-- The sum of an image's logical port rates, in Gb/s (R237, R243). -/
def imgGbps (b : Bytes) : Nat := ((List.range 16).map fun i => modeGbps (bitsOf (imgPortCfg b i) 2 0)).sum

/-- The parse nodes and the patterns of an image. -/
def imgNodes (b : Bytes) : List ParseNode := (imgRecords b 0x03 128).map Config.imageNode
def imgPatterns (b : Bytes) : List Pattern := (imgRecords b 0x05 136).map Config.imagePattern

/-- Is a parse node within R236 and R237, in a graph of `n` nodes? -/
def nodeOk (n : Nat) (p : ParseNode) : Bool :=
  let field := match p.field with
    | some (_, w, sh) => decide (w ≤ 8) && decide (sh ≤ 3)
    | none => true
  decide (p.fixed ≤ 255) && field && decide (1 ≤ p.selWidth) && decide (p.selWidth ≤ 16) && decide (p.edges.length ≤ 16) &&
    (p.edges.all fun e => decide (e.2.2 < n)) && (match p.default_ with | some d => decide (d < n) | none => true) &&
    decide (p.extracts.length ≤ 8) &&
    p.extracts.all fun e => decide (1 ≤ e.2.1) && decide (e.2.1 ≤ 16) && decide (e.2.2 + e.2.1 ≤ 74)

/-- Reason 8: the parse graph. -/
def graphOk (b : Bytes) : Bool :=
  let ns := imgNodes b
  decide (ns.length ≤ 256) && ns.all (nodeOk ns.length)

/-- Reason 9: the patterns, of 1 to 64 bytes each (R242, R243). -/
def patternsOk (b : Bytes) : Bool :=
  let ps := imgPatterns b
  ps.isEmpty || (decide (imgGbps b ≤ 6400) && decide (ps.length ≤ 1024) &&
    ps.all fun p => decide (1 ≤ p.bytes.length) && decide (p.bytes.length ≤ 64))

/-- Does an action obey R266? -/
def actionOk (a : Nat) : Bool :=
  !((actKind a == 1 || actKind a == 2) && actTc a == 7) && !(bitAt a 7 && isC0Queue (bitsOf a 23 8))

/-- The words that a section of an image sets. -/
def imgWords (b : Bytes) (typ : Nat) : List (Nat × BitVec 32) :=
  match sectionOf b typ with
  | some x => Config.imageWords typ x
  | none => []

/-- The word an image gives a register through a section, its reset word where it gives none. -/
def imgWord (b : Bytes) (typ addr : Nat) : Nat :=
  match (imgWords b typ).find? fun w => w.1 == addr with
  | some w => w.2.toNat
  | none => (resetWord addr).toNat

/-- Reason 11: SWC_C0_FLOOR holds at least 4 cells for each KiB of the class 0 depths of the ports that have class 0
queues (R257). -/
def floorOk (b : Bytes) : Bool :=
  let qs := match sectionOf b 0x08 with | some x => Config.imageQueues x | none => []
  let ports := (List.range 64).filter fun l => qs.any fun q => q.1 == 8 * l + 7 && bitAt q.2.d0 31
  decide (4 * (ports.map fun l => bitsOf (imgWord b 0x0B (0x06000200 + 4 * l)) 28 16).sum ≤ bitsOf (imgWord b 0x07 0x0300004C) 20 0)

/-- Does an image keep a geometry under its index: the same k, m and u (R125, R126)? -/
def keepsGeom (s : State) (b : Bytes) (i : Nat) : Bool := ((imgGeoms b).find? fun g => g.1 == i).map (·.2) == some (s.lay.geoms.at i)

/-- A namespace with map entries keeps what R376 names. -/
def keeps (s : State) (b : Bytes) (id : Nat) (old : Namespace) : Bool :=
  match (imgNamespaces b).find? fun e => e.1 == id with
  | none => false
  | some (_, n) => n.kv == old.kv && n.geom == old.geom && keepsGeom s b old.geom && n.cipher == old.cipher && n.tenant == old.tenant &&
      n.lbaShift == old.lbaShift && decide (old.capacity ≤ n.capacity)

/-- The namespaces other than the fixity store's that hold a map entry. -/
def nsWithEntries (s : State) : List Nat :=
  ((s.lay.map.filter fun e => !e.removed && e.nsid != storeNsid).map (·.nsid)).eraseDups

/-- Do two entries of the class map clash (R52)? -/
def classClash (x y : ClassMap) : Bool := x.host == y.host && decide (x.first ≤ y.last) && decide (y.first ≤ x.last)

/-- The Host NQNs and the class map of an image. -/
def imgNqns (b : Bytes) : List Bytes := match sectionOf b 0x0B with | some x => Config.imageNqns x | none => []
def imgClassMap (b : Bytes) : List ClassMap := match sectionOf b 0x0B with | some x => Config.imageClassMap x | none => []

/-- Is a namespace record within R46 and R48? -/
def nsRecordOk (b : Bytes) (e : Nat × Namespace) : Bool :=
  decide (1 ≤ e.1) && decide (e.1 ≤ 16384) && (e.2.kv || e.2.lbaShift == 9 || e.2.lbaShift == 12) &&
    (imgGeoms b).any fun g => g.1 == e.2.geom

/-- Reason 12. The fixity store is a namespace of which no image has a record: while it holds map entries its geometry stays
(R126, R376; notes/assumptions/96.md). At boot no map has been read yet, and no namespace holds an entry. -/
def namespacesOk (s : State) (b : Bytes) : Bool :=
  (imgRecords b 0x0C 64).all (fun r => imgNum r 4 1 == 1 || imgNum r 4 1 == 2) && (imgNamespaces b).all (nsRecordOk b) &&
    decide ((imgNqns b).length ≤ 4096) && allPairs (fun x y => !classClash x y) (imgClassMap b) &&
    ((nsWithEntries s).all fun id => keeps s b id (s.cmd.namespaces.at id)) &&
    (!(s.lay.map.any fun e => !e.removed && e.nsid == storeNsid) || keepsGeom s b (s.cmd.namespaces.at storeNsid).geom)

/-- Does a REGISTERS record name RWL fields only, and no protected register? -/
def registerOk (x : Nat × Nat × Nat) : Bool :=
  match findReg x.1 with
  | none => false
  | some (r, _) => !protectedAddr x.1 && r.fields.all fun f => bitsOf x.2.2 f.hi f.lo == 0 || f.acc == .rwl

/-- Reason 14: the principals. -/
def principalsOk (b : Bytes) : Bool :=
  let ps := imgPrincipals b
  allPairs (fun x y => x.1 != y.1) ps && ps.all fun p => bitsOf p.2.rights 3 0 != 0 && bitsOf p.2.ports 1 0 != 0

/-- Reason 15: the breakout modes and interfaces. -/
def portsOk (b : Bytes) : Bool :=
  (List.range 16).all fun i =>
    let m := bitsOf (imgPortCfg b i) 2 0
    !(decide (4 ≤ m) && decide (m ≤ 6)) && bitsOf (imgPortCfg b i) 5 4 != 3

/-- Is a geometry within R125? -/
def geomOk (g : Geometry) : Bool :=
  decide (2 ≤ g.k) && decide (g.k ≤ 32) && decide (1 ≤ g.m) && decide (g.m ≤ 8) && decide (g.k + g.m ≤ 40) &&
    decide (14 ≤ g.uShift) && decide (g.uShift ≤ 20)

/-- May SIGNER sign (R304, R375)? -/
def signerOk (s : State) (b : Bytes) : Bool :=
  if s.tru.imageKeys.isEmpty then imgSigner b == digestBytes Config.abelmImageKeyHash
  else s.tru.imageKeys.any fun k => digestBytes (Config.sha256 k.2) == imgSigner b

/-- Does the signature, the last 29,792 bytes, verify (R371)? -/
def signatureOk (b : Bytes) : Bool := Config.imageSigned (imgSigner b) (imgBody b) (b.drop (imgBodyLen b))

/-- The first reason of R375 that applies, 0 for none. `modeTest` is clear in recovery and at boot, where no image runs. -/
def imageReason (s : State) (modeTest : Bool) (b : Bytes) : Nat :=
  if !imgFormOk b then 1
  else if 8388608 < imgLen b then 2
  else if !signatureOk b then 3
  else if !signerOk s b then 4
  else if (modeTest && imgMode b != redMode s) || !bitAt (imgRoles b) s.boot.roleSel then 5
  else if !((imgUuid b).all (· == 0)) && s.ctl.shelfUuid != [] && imgUuid b != s.ctl.shelfUuid then 6
  else if !((imgGeoms b).all fun g => geomOk g.2) then 7
  else if !graphOk b then 8
  else if !patternsOk b then 9
  else if !((imgRules b).all fun r => actionOk r.2.action.toNat) then 10
  else if !floorOk b then 11
  else if !namespacesOk s b then 12
  else if !(imgRegisters b).all registerOk then 13
  else if !principalsOk b then 14
  else if !portsOk b then 15
  else 0

/-- Is an image tested against the running mode (R375, R465)? -/
def modeTested (s : State) : Bool := s.ctl.running.isSome && s.boot.recovery == 0

end Sys2Proof.Machine
end

