-- ==== Sys2Proof/Machine/Timebase.lean ====
section
/-! DEFINITION. Global time and the event router: GTS_MEASUREMENT to RECORD_RELEASE (R24 to R27, R31 to R33). -/

namespace Sys2Proof.Machine

/-- The state with the time base changed. -/
def onGts (f : Gts → Gts) (s : State) : State := s.onCtl fun c => { c with gts := f c.gts }

/-- The source of R25 in use: the first that is both enabled by the image and present, or 4, free-running. -/
def chooseSource (g : Gts) : Nat := ([1, 2, 3].find? fun p => g.enabled.contains p && g.present.contains p).getD 4

/-- Use the first source of R25, starting its measurements afresh if it is another one. Where a source of higher priority
becomes present while GTS is locked to another, the lock is dropped with no event: R26 names the two causes of GTS_UNLOCKED, and
this is neither (the model's choice, notes/assumptions/88.md). -/
def rechoose (s : State) : State :=
  onGts (fun g =>
    if chooseSource g = g.source then g else { g with source := chooseSource g, locked := false, good := 0 }) s

/-- A source becomes present (R25). -/
def sourcePresent (p : Nat) (s : State) : State :=
  rechoose (onGts (fun g => if g.present.contains p then g else { g with present := p :: g.present }) s)

/-- The source in use is lost: GTS becomes unlocked, GTS_UNLOCKED is emitted if it was locked, and the next source in
the order of R25 is used (R26). -/
def loseSource (s : State) : State :=
  let g := s.ctl.gts
  let s := if g.locked then emit 0x001 0x002 2 g.source s else s
  rechoose (onGts (fun g => { g with locked := false, good := 0, present := g.present.filter (· != g.source) }) s)

/-- PRT_PTP_CFG changes: without ENABLE the PTP source is not available (R25, R247). -/
def ptpFollows (s : State) : State :=
  let g := s.ctl.gts
  if s.fld F.PRT_PTP_CFG_ENABLE = 1 ∨ !g.present.contains 1 then s
  else if g.source = 1 then loseSource s
  else onGts (fun g => { g with present := g.present.filter (· != 1) }) s

/-- A forward correction by a step (R24), counted in CTL_GTS_STAT.STEPS (R404). -/
def stepGts (ns : Nat) (s : State) : State :=
  let s := onGts (fun g => { g with now := g.now + ns }) s
  emit 0x001 0x003 2 (min (ns / 1000) (2 ^ 36 - 1)) (s.bump F.CTL_GTS_STAT_STEPS)

/-- The rate of GTS slewed by at most 500 ppm toward the source (R24, R25); by how much is left open. -/
def slewGts (offset : Int) (s : State) : State :=
  let k : Int := (s.freeVal.toNat % 501 : Nat)
  (onGts (fun g => { g with ppm := if offset < 0 then -k else k }) s).drawn

/-- Correct GTS by a measured offset (source minus GTS): a backward correction only slews; a forward one slews or steps,
which of the two is left open (R24). `align` demands the step of R25's PPS source. -/
def correctGts (offset : Int) (align : Bool) (s : State) : State :=
  if offset = 0 then s
  else if offset < 0 then slewGts offset s
  else if align || s.freeVal.getLsbD 255 then stepGts offset.toNat s.drawn
  else slewGts offset s.drawn

/-- One measurement of the source in use (R26). -/
def measureGts (offset : Int) (align : Bool) (s : State) : State :=
  let g := s.ctl.gts
  if g.source = 4 then s
  else if g.locked ∧ 1000 < offset.natAbs then loseSource s
  else
    let s := correctGts offset align s
    if offset.natAbs < 100 then
      let s := onGts (fun g => { g with good := g.good + 1 }) s
      if g.good + 1 = 16 ∧ !g.locked then
        emit 0x001 0x001 1 g.source (onGts (fun g => { g with locked := true }) s)
      else s
    else onGts (fun g => { g with good := 0 }) s

/-- GTS_MEASUREMENT (R26). -/
def execGtsMeasurement (offset : Int) (s : State) : Result := .next (measureGts offset false s)

/-- GTS_MEASUREMENT_TIMEOUT (R26): no measurement for 8 s. -/
def execGtsMeasurementTimeout (s : State) : Result :=
  .next (if s.ctl.gts.source = 4 then s else loseSource s)

/-- The whole second that a PPS edge marks: the count written to CTL_PPS_SEC, which applies at the next edge (R25, R404),
or else the whole second nearest to GTS. -/
def ppsSecond (s : State) : Nat :=
  if s.ctl.gts.secondsSet then
    (s.fld F.CTL_PPS_SEC_HI_SECONDS * 2 ^ 32 + s.fld F.CTL_PPS_SEC_LO_SECONDS) * 1000000000
  else (s.now + 500000000) / 1000000000 * 1000000000

/-- PPS_IN_EDGE (R25): the PPS input is present; while it is the source in use, GTS is aligned to a whole second. -/
def execPpsInEdge (s : State) : Result :=
  let t := sourcePresent 2 s
  if t.ctl.gts.source = 2 then
    .next (onGts (fun g => { g with secondsSet := false }) (measureGts ((ppsSecond t : Int) - (t.now : Int)) true t))
  else .next t

/-- Is GTS within 5 ns of a whole multiple of 1,000,000,000 (R27)? -/
def atSecond (s : State) : Bool := decide ((s.now + 5) % 1000000000 ≤ 10)

/-- PPS_OUT_EDGE (R27): PPS_OUT rises within 5 ns of a whole multiple of 1,000,000,000. -/
def execPpsOutEdge (s : State) : Result := .next (if atSecond s then s.send .ppsOut else s)

/-- Have the event rings started (step 4 of R457)? -/
def ringsRun (s : State) : Bool := decide (4 ≤ s.boot.step)

/-- EVENT_RECORD (R31, R33): the oldest record under way reaches the router. A record of severity 4 is logged on arrival.
A record more than 1 µs old is released at once and RECORD_LATE is emitted; any other is held. -/
def execEventRecord (s : State) : Result :=
  match s.ctl.inflight with
  | [] => .next s
  | r :: rest =>
    let s := logCritical r (s.onCtl fun c => { c with inflight := rest })
    if 1000 < s.now - r.gts ∧ ringsRun s then
      .next (emit 0x002 0x017 3 (min (s.now - r.gts - 1000) (2 ^ 36 - 1)) (deliver r s))
    else .next (s.onCtl fun c => { c with held := c.held ++ [r] })

/-- RECORD_RELEASE (R32, R33): the held record first in key order is released into its rings and streams. -/
def execRecordRelease (s : State) : Result :=
  match firstHeld s.ctl.held with
  | none => .next s
  | some r =>
    if ringsRun s then .next (deliver r (s.onCtl fun c => { c with held := c.held.erase r })) else .next s

end Sys2Proof.Machine
end

