-- ==== Sys2Proof/Machine/Apply.lean ====
section
/-! DEFINITION. Applying an image: every structure of R373 is replaced whole, every RWL field takes its reset value unless
the image sets it, and the loader's writes ignore the image lock (R377). -/

namespace Sys2Proof.Machine

/-- Registers of the image whose fields are read-only to management software (R219, R220, R223). -/
def imageOnly (addr : Nat) : Bool :=
  (decide (0x01000100 ≤ addr) && decide (addr < 0x01000140)) || (decide (0x01000800 ≤ addr) && decide (addr < 0x01001000))

/-- Does the loader write a field? -/
def loads (addr : Nat) (f : Fld) : Bool := f.acc == .rwl || imageOnly addr

/-- A stored word with every field that the loader writes at its reset value (R377). -/
def resetLoaded (addr w : Nat) : Nat :=
  match findReg addr with
  | some (r, _) => r.fields.foldl (fun a f => if loads addr f then setBits a f.hi f.lo (bitsOf r.reset f.hi f.lo) else a) w
  | none => w

/-- Every such field of the register file at its reset value. -/
def resetImageRegs (regs : Tab Word) : Tab Word :=
  (regs.map (·.1)).foldl (fun t a => setRawWord t a (BitVec.ofNat 32 (resetLoaded a (rawWord t a).toNat))) regs

/-- A word of the image: the fields that the loader writes, under the mask, as a write treats them (R491). -/
def loadMasked (addr value mask : Nat) (s : State) : State :=
  match findReg addr with
  | none => s
  | some (r, _) =>
    let old := (rawWord s.regs addr).toNat
    let new := (value &&& mask) + (old - (old &&& mask))
    let w := r.fields.foldl (fun a f => if loads addr f then setBits a f.hi f.lo (f.treat.apply (bitsOf new f.hi f.lo)) else a) old
    { s with regs := setRawWord s.regs addr (BitVec.ofNat 32 (crossTreat addr w)) }

/-- A whole word of the image. -/
def loadWord (s : State) (x : Nat × BitVec 32) : State := loadMasked x.1 x.2.toNat 0xFFFFFFFF s

/-- The registers that a section sets, as first and last address (R373). -/
def sectionRegs (typ : Nat) : List (Nat × Nat) :=
  match typ with
  | 0x01 => [(0x01000044, 0x01000044)]
  | 0x02 => [(0x01000100, 0x0100013C), (0x01000200, 0x010002FC), (0x01000800, 0x01000FFC)]
  | 0x06 => [(0x02000200, 0x0200021C)]
  | 0x07 => [(0x03000040, 0x03000040), (0x0300004C, 0x0300004C), (0x03000100, 0x0300013C), (0x03000200, 0x030002FC)]
  | 0x0A => [(0x05000040, 0x050001FC)]
  | 0x0B => [(0x06000100, 0x060002FC), (0x0D000048, 0x0D000048)]
  | 0x0D => [(0x07000040, 0x070000FC)]
  | 0x0E => [(0x08000040, 0x080000FC)]
  | 0x10 => [(0x01000040, 0x01000040), (0x01001000, 0x0100523C), (0x06000040, 0x06000040), (0x06000054, 0x06000054),
      (0x06000070, 0x0600007C)]
  | 0x12 => [(0x00000200, 0x0000021C)]
  | _ => []

/-- The register words of a section are loaded. -/
def loadSection (b : Bytes) (s : State) (typ : Nat) : State :=
  ((imgWords b typ).filter fun w => (sectionRegs typ).any fun r => decide (r.1 ≤ w.1) && decide (w.1 ≤ r.2)).foldl loadWord s

/-- A TELEMETRY record (R446). -/
def loadSampler (s : State) (r : Bytes) : State :=
  let i := imgNum r 0 4
  if 16 ≤ i then s
  else
    let flags := imgNum r 6 1
    let w := flags % 2 * 2 ^ 31 + flags / 2 % 2 * 2 ^ 30 + imgNum r 7 1 % 64 * 2 ^ 24 + imgNum r 4 2 % 4096
    loadMasked (0x0F0000A0 + 4 * i) (imgNum r 8 4) 0xFFFFFFFF (loadMasked (0x0F000060 + 4 * i) w 0xFFFFFFFF s)

/-- The registers of an image, sections first and the REGISTERS records last. -/
def loadRegisters (b : Bytes) (s : State) : State :=
  let s := { s with regs := resetImageRegs s.regs }
  let s := [0x01, 0x02, 0x06, 0x07, 0x0A, 0x0B, 0x0D, 0x0E, 0x10, 0x12].foldl (loadSection b) s
  let s := (imgSlots b).foldl (fun s (w : Nat × Nat) => loadMasked w.1 w.2 0xFFFFFFFF s) s
  let s := (imgRecords b 0x11 16).foldl loadSampler s
  let s := (imgRegisters b).foldl (fun s (x : Nat × Nat × Nat) => loadMasked x.1 x.2.1 x.2.2 s) s
  (List.range 16).foldl (fun s i => reloadSampler i s) s

/-- The GLOBAL record of an image; the reset values without one. -/
def imgGlobal (b : Bytes) : GlobalRec :=
  match sectionOf b 0x01 with
  | some x => Config.imageGlobal x
  | none => ⟨4, [], [], 0⟩

/-- A gate list of the image is committed as management software would commit it (R271). -/
def loadGates (s : State) (x : Nat × List (Nat × Nat)) : State :=
  let n := x.1
  if 64 ≤ n ∨ x.2 = [] then s
  else
    let cfg := ((List.range 1024).zip x.2).foldl (fun (t : Tab Nat) (e : Nat × Nat × Nat) =>
      t.put (2048 * n + 1024 + e.1) (e.2.1 % 256 * 2 ^ 24 + max 1 (e.2.2 % 2 ^ 24))) s.net.gateCfg
    let s := s.onNet fun m => { m with gateCfg := cfg }
    (onGates n (fun g => { g with pending := some (s.now + 1000, x.2.length - 1) }) s).setFldI F.TMG_GATE_STAT_PENDING n 1

/-- The gate registers of a port without a list. -/
def clearGateStat (s : State) (n : Nat) : State :=
  (((s.setFldI F.TMG_GATE_STAT_ENABLED n 0).setFldI F.TMG_GATE_STAT_PENDING n 0).setFldI F.TMG_GATE_STAT_BANK n 0).setFldI
    F.TMG_GATE_STAT_C0_CLOSED n 0

/-- A word of an image's queue or policer entry as the register that writes it would store it (R491). -/
def treatWord (addr w : Nat) : Nat :=
  match findReg addr with
  | some (r, _) => crossTreat addr (wordWrite false r.fields w 0)
  | none => w

/-- A queue or node entry of the image, treated (R277, R491). -/
def treatEntry (e : QEntry) : QEntry :=
  ⟨treatWord 0x04000048 e.d0, treatWord 0x0400004C e.d1, treatWord 0x04000050 e.d2, treatWord 0x04000054 e.d3,
    treatWord 0x04000058 e.d4⟩

/-- A policer of the image, treated (R268, R491). -/
def treatPolicer (d0 d1 d2 : Nat) : Policer :=
  { (default : Policer) with d0 := treatWord 0x04000064 d0, d1 := treatWord 0x04000068 d1, d2 := treatWord 0x0400006C d2 }

/-- The classifier, the switch and traffic management take the image's tables (R236 to R243, R263 to R271). -/
def loadNetwork (b : Bytes) (s : State) : State :=
  let queues := match sectionOf b 0x08 with | some x => Config.imageQueues x | none => []
  let nodes := match sectionOf b 0x08 with | some x => Config.imageNodes x | none => []
  let policers := match sectionOf b 0x08 with | some x => Config.imagePolicers x | none => []
  let groups := match sectionOf b 0x07 with | some x => Config.imageGroups x | none => []
  let gates := match sectionOf b 0x09 with | some x => Config.imageGates x | none => []
  let tcam := (imgRules b).foldl (fun (t : Tab TcamEntry) (r : Nat × TcamEntry) => t.put r.1 r.2) []
  let put := fun (l : List (Nat × QEntry)) => l.foldl (fun (t : Tab QEntry) (e : Nat × QEntry) => t.put e.1 (treatEntry e.2)) []
  let pol := policers.foldl (fun (t : Tab Policer) (p : Nat × Nat × Nat × Nat) =>
    t.put p.1 (treatPolicer p.2.1 p.2.2.1 p.2.2.2)) []
  let grp := groups.foldl (fun (t : Tab McGroup) (g : Nat × McGroup) => t.put g.1 g.2) []
  let ps := imgPatterns b
  let s := s.onNet fun n => { n with
    nodes := imgNodes b, tcam := tcam, patterns := ps, groups := grp, queueCfg := put queues, nodeCfg := put nodes
    policers := pol, gateCfg := [], gates := [] }
  let s := (s.setFld F.CLS_CFG_SCENT_EN (b2n !ps.isEmpty)).setFld F.CLS_CFG_PATTERNS ps.length
  let s := s.setFld F.CLS_CFG_DEEP (b2n (decide (imgGbps b ≤ 6400)))
  let s := (List.range 64).foldl clearGateStat s
  syncAllPfc (gates.foldl loadGates s)

/-- The geometry of the fixity store: the largest m, the lowest index among equals (R176); one with map entries keeps its
geometry. -/
def storeGeom (s : State) (gs : List (Nat × Geometry)) : Option Nat :=
  let old := s.cmd.namespaces.at storeNsid
  if old.valid ∧ s.lay.map.any (fun e => !e.removed && e.nsid == storeNsid) then some old.geom
  else (gs.foldl (fun (best : Option (Nat × Geometry)) g => match best with
    | none => some g
    | some x => if x.2.m < g.2.m then some g else best) none).map (·.1)

/-- The KEY_GEN with which a namespace's data key was made, if it has one in the key table (R291). -/
def keyGenOf (s : State) (id : Nat) (n : Namespace) : Nat :=
  match (keysWhere s fun k => k.typ == 1 && k.tenant == n.tenant && k.nsid == id).map fun i => (s.cip.slots.at i).keyGen with
  | [] => n.keyGen
  | gs => gs.foldl max 0

/-- A ciphered namespace with no key for its page and NSID gets one (R291). -/
def ensureKey (s : State) (id : Nat) : State :=
  let n := s.cmd.namespaces.at id
  if n.cipher ∧ (keysWhere s fun k => k.typ == 1 && k.tenant == n.tenant && k.nsid == id).isEmpty then makeDataKey id s else s

/-- The namespaces and the geometries take the image's records. -/
def loadNamespaces (b : Bytes) (s : State) : State :=
  let put := fun (t : Tab Namespace) (e : Nat × Namespace) =>
    let old := s.cmd.namespaces.at e.1
    t.put e.1 { e.2 with ana := old.ana, cutover := old.cutover, keyGen := keyGenOf s e.1 e.2 }
  let ns := (imgNamespaces b).foldl put []
  let gs := imgGeoms b
  let ns := match storeGeom s gs with
    | some g => ns.put storeNsid { (default : Namespace) with valid := true, kv := true, geom := g }
    | none => ns
  let s := s.onCmd fun c => { c with namespaces := ns }
  let s := s.onLay fun l => { l with geoms := gs.foldl (fun (t : Tab Geometry) (g : Nat × Geometry) => t.put g.1 g.2) [] }
  ((imgNamespaces b).map (·.1)).foldl ensureKey s

/-- The ring map and the rings: a change of size empties a ring (R398). -/
def loadRings (b : Bytes) (s : State) : State :=
  let s := s.onCtl fun c => { c with ringMap := (sectionOf b 0x12).map (·.take 4096) }
  (List.range 8).foldl (fun s v =>
    let size := s.fldI F.CTL_RING_CFG_SIZE_LOG2 v
    let old := (s.ctl.rings.at v).sizeLog
    if (if old = 0 then 16 else old) = size then s
    else onRing v (fun r => { r with sizeLog := if size = 16 then 0 else size, recs := [], unacked := [] }) s) s

/-- The epoch length: at once at boot; at run time at the first whole boundary of both lengths (R347). -/
def loadEpoch (boot : Bool) (us : Nat) (s : State) : State :=
  let new := max 2 (min 16 us)
  let old := s.fld F.RED_MODE_EPOCH_US
  if boot then s.setFld F.RED_MODE_EPOCH_US new
  else if new = old then s.onRed fun r => { r with nextEpochUs := none }
  else
    let l := Nat.lcm (max 1 old) new * 1000
    s.onRed fun r => { r with nextEpochUs := some (new, (s.now + l - 1) / l * l) }

/-- The shelf's identity: the image's where it names one, else what the unit holds, else a fresh one, whose value the
specification does not give. A new identity starts its rotations at 0 (R303). -/
def loadShelf (b : Bytes) (s : State) : State :=
  let named := imgUuid b
  if !(named.all (· == 0)) && named == s.ctl.shelfUuid then s
  else if (named.all (· == 0)) && s.ctl.shelfUuid != [] then s
  else
    let (new, s) := if named.all (· == 0) then randomKey 16 s else (named, s)
    let s := s.onCtl fun c => { c with shelfUuid := new }
    s.onTru fun t => { t with rotation := 0, notBefore := Tab.put [] 0 s.now }

/-- Management: addresses, principals, the image's flags and the lock (R371, R373, R377, R383, R386). -/
def loadManagement (b : Bytes) (s : State) : State :=
  let g := imgGlobal b
  let f := imgFlags b
  let s := s.onCtl fun c => { c with
    mgmtAddrs := g.addrs, udpPort := g.udp
    principals := (imgPrincipals b).foldl (fun (t : Tab Principal) (p : Nat × Principal) => t.put p.1 p.2) [] }
  let s := rechoose (ptpFollows (onGts (fun t => { t with enabled := g.sources }) s))
  let s := s.setFld F.CTL_CFG_I3C_WRITE (f / 4 % 2)
  let s := s.setFld F.CTL_CFG_PF0_BONE (f / 2 % 2)
  let s := s.setFld F.CTL_CFG_COMMISSION (f / 8 % 2)
  s.setFld F.CTL_LOCK_IMAGE_LOCK (f % 2)

/-- The access lists, the peers of the transport and the functions' NQNs. -/
def loadAccess (b : Bytes) (s : State) : State :=
  let fns := match sectionOf b 0x0B with | some x => Config.imageFns x | none => []
  let s := s.onCmd fun c => { c with hostNqns := imgNqns b, classMap := imgClassMap b }
  let s := s.onHep fun h => { h with hosts := fns.foldl (fun (t : Tab Nat) (e : Nat × Nat) => t.put e.1 e.2) [] }
  s.onXpt fun x => { x with migPeers := match sectionOf b 0x0A with | some y => Config.imagePeers y | none => [] }

/-- What redundancy keeps of the image: this unit's stations and addresses, the mode, the epoch (R340, R347, R362). -/
def loadRed (boot : Bool) (b : Bytes) (s : State) : State :=
  let stations := (imgWords b 0x02).filter fun w => decide (0x01000800 ≤ w.1) && decide (w.1 < 0x01001000)
  let addrs := match sectionOf b 0x02 with | some x => Config.imageAddrs x | none => []
  let s := s.onRed fun r => { r with
    stations := stations.foldl (fun (t : Tab Word) (w : Nat × Word) => t.put w.1 w.2) []
    addrs := addrs.foldl (fun (t : Tab (Nat × Nat)) (a : Nat × Nat × Nat) => t.put a.1 a.2) [] }
  loadEpoch boot (imgGlobal b).epochUs (s.setFld F.RED_MODE_MODE (imgMode b))

/-- The links of physical ports whose breakout mode changes go down with cause 3 (R221, R246). -/
def dropChangedPorts (b : Bytes) (s : State) : State :=
  (List.range 64).foldl (fun s l => if modeOf s l = bitsOf (imgPortCfg b (l / 4)) 2 0 then s else loseLink l 3 s) s

/-- The recovery record (R464). -/
def recordRecovery (s : State) : State :=
  s.onBoot fun x => { x with record := ⟨true, s.ctl.mgmtAddrs, s.ctl.udpPort, s.ctl.principals⟩ }

/-- Apply the image of a profile slot (R377, R382, R464): at boot, from the pins or not, or by an activation. -/
def applyImage (boot pins : Bool) (slot : Nat) (b : Bytes) (s : State) : State :=
  let old := s
  let s := loadRegisters b (dropChangedPorts b s)
  let s := setFans (loadRings b (settleAll old (loadNetwork b (periodChanged s))))
  let s := loadManagement b (loadShelf b s)
  let s := loadAccess b (loadNamespaces b s)
  let s := loadRed boot b s
  let s := s.onCtl fun c => { c with image := b, running := some slot }
  let signer := (s.tru.imageKeys.find? fun k => digestBytes (Config.sha256 k.2) == imgSigner b).map (·.1)
  let s := s.onTru fun t => { t with imageSigner := signer }
  let s := recordRecovery (s.onBoot fun x => { x with lastProfile := some slot })
  let s := emit 0x005 0x011 1 (b2n pins * 8 + slot) s
  if !boot ∧ redState s = 4 then enterJoining s else s

end Sys2Proof.Machine
end

