-- ==== Sys2Proof/Machine/OpsMgmt.lean ====
section
/-! DEFINITION. The management protocol's machinery: serving a request once (R385), responses, the Bone's lease (R394), and the
close of a session (R387). -/

namespace Sys2Proof.Machine

/-- The state with a session changed. -/
def onSession (id : Nat) (f : Session → Session) (s : State) : State :=
  s.onCtl fun c => { c with sessions := c.sessions.upd id f }

/-- A context string of the signature scheme as bytes (R301, R307, R309). -/
def context (c : String) : Bytes := c.toList.map fun x => BitVec.ofNat 8 x.toNat

/-- The payload of a response: numbers big-endian, event records, leaves, receipts and certificates in their stored order
(R384). The places that R388 does not give are the model's (notes/assumptions/98.md). -/
def Reply.bytes : Reply → Bytes
  | .none => []
  | .gts now => beBytes 8 now
  | .words l => l.flatMap fun w => beBytes 4 w.toNat
  | .statuses l => l.flatMap (beBytes 1)
  | .holder path session => beBytes 2 path ++ beBytes 2 session
  | .reason n => beBytes 4 n
  | .digest d => digestBytes d
  | .profiles l => l.flatMap fun p => beBytes 4 (b2n p.1) ++ beBytes 4 p.2.1 ++ digestBytes p.2.2.1 ++ p.2.2.2
  | .number n => beBytes 8 n
  | .records l => l.flatMap EventRec.bytes
  | .blobs l => l.flatten
  | .signed body => body ++ Config.deviceSignature body
  | .quote body boot seed cert => body ++ Config.sessionSignature boot seed (context "twiric.quote.v1" ++ body) ++ cert ++
      Config.deviceSignature cert
  | .handles l => l.flatMap (beBytes 4)
  | .job state target pass failed objects list =>
    beBytes 1 state ++ beBytes 1 (b2n target) ++ beBytes 2 pass ++ beBytes 4 failed ++ beBytes 4 objects ++
      list.flatMap (beBytes 8)

/-- The response of a request: sent, and stored among the last 16 (R385). -/
def respond (r : Req) (op status : Nat) (p : Reply) (s : State) : State :=
  if sessionOpen s r.session then
    let w := mgmtWire s r.session 2 r.seq op status p.bytes
    let s := s.send (.mgmt r.port.val r.session r.seq op status p w)
    usedSeq r.session (onSession r.session (fun x =>
      { x with recent := keepLast 16 (x.recent ++ [⟨r.seq, op, status, p, w⟩]) }) s)
  else s

/-- The path code of a management port (R392). -/
def pathOf (port : Nat) : Nat := 2 * port

/-- Every message of the holding session renews the lease (R394). -/
def renewBone (path session : Nat) (s : State) : State :=
  if holdsBone s path session then
    s.onCtl fun c => { c with bone := { c.bone with leaseEnd := s.now + c.bone.leaseLen } }
  else s

/-- The Bone is granted (R394): the lease runs from the grant, and the holder is told at once (R401). -/
def grantBone (path session lease : Nat) (s : State) : State :=
  let ns := lease * 1000000000
  let s := s.onCtl fun c => { c with bone := ⟨true, path, session, s.now + ns, ns⟩ }
  let data := s.ctl.bone.data
  let s := emit 0x004 0x008 1 data s
  if path = 4 then s else direct session (mkRec s 0x004 1 0x008 data) [] s

/-- The lease of a grant in seconds: CTL_CFG.LEASE_S where none is asked for. -/
def leaseOf (s : State) (asked : Nat) : Nat := if asked = 0 then s.fld F.CTL_CFG_LEASE_S else asked

/-- A ring is released by its reader and keeps its unread records (R399). -/
def releaseRing (v : Nat) (s : State) : State :=
  onRing v (fun r => { r with reader := 0, session := 0, unacked := [], snap := none }) s

/-- The rings bound to a session. -/
def ringsOf (s : State) (id : Nat) : List Nat :=
  (List.range 8).filter fun v => (s.ctl.rings.at v).reader == 2 && (s.ctl.rings.at v).session == id

/-- A session closes: 1 closed, 2 idle, 3 link, 4 reset (R387, R403). Its Bone, rings, stores, key and mailbox go. -/
def closeSession (cause id : Nat) (s : State) : State :=
  if !sessionOpen s id then s
  else
    let x := s.ctl.sessions.at id
    let s := if holdsBone s (pathOf x.port) id then releaseBone s else s
    let s := (ringsOf s id).foldl (fun s v => releaseRing v s) s
    let s := freeKey x.keySlot s
    let s := if s.cip.mailboxSession = id then s.onCip fun c => { c with mailbox := [], mailboxSession := 0 } else s
    let s := s.onCtl fun c => { c with
      sessions := c.sessions.del id
      stores := c.stores.filter fun j => !(j.path == pathOf x.port && j.session == id) }
    emit (0x010 + x.port) 0x00D 1 (cause * 2 ^ 24 + id) s

/-- A request reaches the unit (R385): a fragment that fails its tag is discarded; a SEQ above every earlier one is served
once; a repeat of one of the 16 most recent requests is answered by its stored response; any other SEQ is discarded. -/
def receive (r : Req) (run : State → State) (s : State) : State :=
  let x := s.ctl.sessions.at r.session
  if !sessionOpen s r.session ∨ x.port ≠ r.port.val then s
  else if !r.tagOk then s.setFldI F.CTL_PATH_STAT_TAG_FAIL (pathOf r.port.val) 1
  else
    let s := onSession r.session (fun x => { x with lastMsg := s.now, idleS := s.fld F.CTL_CFG_IDLE_S }) s
    let s := renewBone (pathOf r.port.val) r.session s
    if x.highSeq < r.seq then run (onSession r.session (fun x => { x with highSeq := r.seq }) s)
    else match x.recent.find? fun a => a.seq == r.seq with
      | some a => s.send (.mgmt r.port.val r.session r.seq a.op a.status a.payload a.wire)
      | none => s

/-- The rights that an opcode of R388 needs, as bits of RIGHTS (R386). -/
def rightsOk (s : State) (session : Nat) (rights : List Nat) : Bool := rights.all (hasRight s session)

/-- Serve a request of an opcode: `rights` it needs, whether it is a protected order, and whether recovery serves it (R388,
R393, R465). `run` answers the status and the payload, or nothing while the response is still to come. -/
def serveLater (op : Nat) (rights : List Nat) (bone recovery : Bool) (r : Req) (run : State → State × Option (Nat × Reply))
    (s : State) : State :=
  receive r (fun s =>
    if s.boot.recovery ≠ 0 ∧ !recovery then respond r op 2 .none s
    else if !rightsOk s r.session rights then respond r op 3 .none s
    else if bone ∧ !holdsBone s (pathOf r.port.val) r.session then respond r op 4 .none s
    else match run s with
      | (s, some (status, p)) => respond r op status p s
      | (s, none) => s) s

/-- Serve a request whose response follows at once. -/
def serve (op : Nat) (rights : List Nat) (bone recovery : Bool) (r : Req) (run : State → State × Nat × Reply) (s : State) :
    State :=
  serveLater op rights bone recovery r (fun s => let (s, status, p) := run s; (s, some (status, p))) s

end Sys2Proof.Machine
end

