-- ==== Sys2Proof/Machine/Activation.lean ====
section
/-! DEFINITION. Activation of an image or firmware at run time: ACTIVATE_IMAGE to BOUND_RESUMED (R72, R73, R304, R381). `act.step`
is the step of R72, and 7 after step 3a. -/

namespace Sys2Proof.Machine

/-- The state with the activation changed. -/
def onAct (f : Activation → Activation) (s : State) : State := s.onCmd fun c => { c with act := f c.act }

/-- Why a firmware is not accepted: 0, or 3 where its signature does not verify or its SVN is below the fused one (R304). -/
def firmwareReason (s : State) (b : Bytes) : Nat :=
  if Config.firmwareOk b && decide (s.tru.fuseSvn ≤ Config.firmwareSvn b) then 0 else 3

/-- The slot that an activation names, where it is valid. -/
def slotContent (s : State) (kind slot : Nat) : Option Bytes :=
  let x := if kind = 1 then s.ctl.profiles.at slot else if slot < 2 then s.ctl.firmware.at slot else default
  if x.valid then some x.content else none

/-- A refused content is told (R403). -/
def imageRefused (reason kind slot : Nat) (s : State) : State :=
  emit 0x005 0x010 3 (reason * 256 + kind * 16 + slot % 8) s

/-- The entries of the command table (R50) in use. -/
def tableInUse (s : State) : Nat := s.cmd.table.countWhere fun i e => e.live && decide (i < 32768)

/-- An activation order: refused BUSY while another runs (R73), refused before anything stops where the content fails (R304,
R381), else steps 1 and 2 of R72, in which the capsules in their slots are held. An image verified is measured as step 4 of R304 measures it. It answers the status of R389, 0
once the activation runs, and the reason of R375. -/
def startActivation (kind slot : Nat) (reply : Option (Nat × Nat × Nat)) (s : State) : State × Nat × Nat :=
  if s.cmd.act.step ≠ 0 then (onAct (fun a => { a with result := 3 }) s, 7, 0)
  else if kind ≠ 1 ∧ kind ≠ 2 then (s, 8, 0)
  else match slotContent s kind slot with
    | none => (s, 0x0B, 0)
    | some b =>
      let reason := if kind = 1 then imageReason s (modeTested s) b else firmwareReason s b
      if reason ≠ 0 then (imageRefused reason kind slot s, 9, reason)
      else
        let s := if kind = 1 then (extend 2 (imgDigest b) s).onBoot fun x => { x with m2Digest := imgDigest b } else s
        let s := emit 0x562 0x605 1 (kind + slot % 8 * 16) s
        let s := (boundEnter 0 s).onCmd fun m => { m with queued := m.queued.map fun c => { c with hold := true } }
        (onAct (fun a => { a with step := 3, kind := kind, slot := slot, stopGts := s.now, reply := reply, staged := b }) s,
          0, 0)

/-- A write of CMD_ACT_CTRL. -/
def actCtrl (kind : Nat) (path : Fin 5) (session : Nat) (value : Word) (s : State) : State :=
  let (s, go) := writeGate path.val session (F.CMD_ACT_CTRL_KIND.addr 0) value s
  if go then (startActivation kind (bitsOf value.toNat 2 0) none s).1 else s

/-- ACTIVATE_IMAGE: CMD_ACT_CTRL with KIND 1. -/
def execActivateImage (path : Fin 5) (session : Nat) (value : Word) (s : State) : Result :=
  .next (actCtrl 1 path session value s)

/-- ACTIVATE_FIRMWARE: CMD_ACT_CTRL with KIND 2. -/
def execActivateFirmware (path : Fin 5) (session : Nat) (value : Word) (s : State) : Result :=
  .next (actCtrl 2 path session value s)

/-- ACT_DRAINED: the command table is empty, and step 4 begins. -/
def execActDrained (s : State) : Result :=
  if s.cmd.act.step = 3 ∧ tableInUse s = 0 then .next (onAct (fun a => { a with step := 4 }) s) else .next s

/-- The response of the PROFILE_ACTIVATE that started the activation (R381). -/
def actReply (status : Nat) (s : State) : State :=
  match s.cmd.act.reply with
  | some (port, session, seq) =>
    onAct (fun a => { a with reply := none }) (respond ⟨if port = 1 then 1 else 0, session, seq, true⟩ 0x33 status .none s)
  | none => s

/-- ACT_DEFERRED: the drain limit is reached with entries in use; grants resume (step 3a). -/
def execActDeferred (s : State) : Result :=
  let n := tableInUse s
  if s.cmd.act.step = 3 ∧ n ≠ 0 then
    let us := min ((s.now - s.cmd.act.stopGts) / 1000) (2 ^ 17 - 1)
    let s := onAct (fun a => { a with step := 7, result := 2, stopUs := us, staged := [] }) s
    let s := emit 0x562 0x607 2 (min n 65535) s
    .next (actReply 0x0F s)
  else .next s

/-- ACT_DONE: step 4 has applied the image or the firmware, and grants resume (step 5). -/
def execActDone (s : State) : Result :=
  let a := s.cmd.act
  if a.step ≠ 4 then .next s
  else
    let s := if a.kind = 1 then applyImage false false a.slot a.staged s else s.onBoot fun x => { x with fwSlot := a.slot }
    let us := min ((s.now - a.stopGts) / 1000) (2 ^ 17 - 1)
    let s := onAct (fun a => { a with step := 6, result := 1, stopUs := us, staged := [] }) s
    .next (actReply 0 (emit 0x562 0x606 1 us s))

/-- Has every capsule held during the fetch stop completed? One that a shutdown discards is never granted (R69). -/
def heldDone (s : State) : Bool := s.cmd.queued.all (fun c => !c.hold || c.late) && s.cmd.table.all fun e => !(e.2.live && e.2.cap.hold)

/-- BOUND_RESUMED: step 6 of R72. -/
def execBoundResumed (s : State) : Result :=
  if (s.cmd.act.step = 6 ∨ s.cmd.act.step = 7) ∧ heldDone s then
    .next (boundLeave 0 (onAct (fun a => { a with step := 0 }) s))
  else .next s

end Sys2Proof.Machine
end

