-- ==== Sys2Proof/Machine/Bone.lean ====
section
/-! DEFINITION. The Bone through CTL_BONE_REQ and its expiry (R394), the image lock (R404), and the rings of PF0 (R399). -/

namespace Sys2Proof.Machine

/-- The state a meaning goes on in. -/
def stateOf (s : State) : Result → State
  | .next t => t
  | _ => s

/-- A write of CTL_BONE_REQ: from PF0 alone (R404). -/
def boneReq (path : Fin 5) (session : Nat) (value : Word) (run : State → State) (s : State) : State :=
  let (s, go) := writeGate path.val session (F.CTL_BONE_REQ_OP.addr 0) value s
  if go ∧ path.val = 4 then run s else s

/-- BONE_REQ_ACQUIRE: PF0 takes a free Bone while the image has PF0_BONE set; otherwise NO_RIGHT is set. While the Bone is held
the acquire fails. -/
def execBoneReqAcquire (path : Fin 5) (session : Nat) (value : Word) (s : State) : Result :=
  .next (boneReq path session value (fun s =>
    if s.fld F.CTL_CFG_PF0_BONE = 0 then s.setFldI F.CTL_PATH_STAT_NO_RIGHT 4 1
    else if s.ctl.bone.held then s
    else grantBone 4 0 (leaseOf s 0) s) s)

/-- BONE_REQ_RELEASE. -/
def execBoneReqRelease (path : Fin 5) (session : Nat) (value : Word) (s : State) : Result :=
  .next (boneReq path session value (fun s => if holdsBone s 4 0 then releaseBone s else s) s)

/-- BONE_REQ_RENEW. -/
def execBoneReqRenew (path : Fin 5) (session : Nat) (value : Word) (s : State) : Result :=
  .next (boneReq path session value (fun s => renewBone 4 0 s) s)

/-- BONE_EXPIRED: the lease runs out; the holder's session is told at once (R394, R401). -/
def execBoneExpired (s : State) : Result :=
  let b := s.ctl.bone
  if !b.held then .next s
  else
    let s := emit 0x004 0x00A 2 b.data (s.onCtl fun c => { c with bone := default })
    .next (if b.path = 4 then s else direct b.session (mkRec s 0x004 2 0x00A b.data) [] s)

/-- CTL_LOCK_SET: the lock is set by the holder of the Bone; writing 0 does nothing (R9, R404). -/
def execCtlLockSet (path : Fin 5) (session : Nat) (value : Word) (s : State) : Result :=
  let (s, go) := writeGate path.val session (F.CTL_LOCK_IMAGE_LOCK.addr 0) value s
  .next (if go then storeWord (F.CTL_LOCK_IMAGE_LOCK.addr 0) value s else s)

/-- RING_READER_BIND: a write of CTL_RING_CFG. Writing 1 to READER binds PF0 to a free ring, writing 0 releases PF0; other
values have no effect. The other fields are written as any register's. -/
def execRingReaderBind (path : Fin 5) (session : Nat) (ring : Fin 8) (value : Word) (s : State) : Result :=
  let v := ring.val
  let (s, go) := writeGate path.val session (F.CTL_RING_CFG_READER.addr v) value s
  if !go then .next s
  else
    let s := storeWord (F.CTL_RING_CFG_READER.addr v) value s
    let r := s.ctl.rings.at v
    let w := bitsOf value.toNat 31 30
    .next (
      if w = 1 ∧ r.reader = 0 then onRing v (fun r => { r with reader := 1 }) s
      else if w = 0 ∧ r.reader = 1 then releaseRing v s
      else s)

/-- A word of the record that the last read of word 0 took; zero where there is none. -/
def ringSnapWord (s : State) (v w : Nat) : Word :=
  match (s.ctl.rings.at v).snap with
  | some r => BitVec.ofNat 32 (ofLe (slice r.bytes (4 * w) 4))
  | none => 0

/-- A read of word 0 of a PF0 ring takes a snapshot of its oldest record. -/
def ringSnapshot (v : Nat) (s : State) : State :=
  if (s.ctl.rings.at v).reader = 1 then onRing v (fun r => { r with snap := r.recs.head?.map (·.2) }) s else s

/-- A read of word 3 removes the record of the snapshot (R399); a ring that lost records tells it once it has space (R398). -/
def ringRemove (v : Nat) (s : State) : State :=
  let r := s.ctl.rings.at v
  if r.reader = 1 ∧ r.snap.isSome then ringReport v (onRing v (fun r => { r with recs := r.recs.drop 1, snap := none }) s)
  else s

/-- May a path read registers: I3C and PF0 as `pathLive` says (R460, R463, R467); a session's reads are requests of the
management protocol, which checks its rights. -/
def readLive (s : State) (path : Nat) : Bool :=
  match path with
  | 0 | 2 => s.boot.inReset == .none && (decide (4 ≤ s.boot.step) || s.boot.recovery != 0)
  | 4 => decide (4 ≤ s.boot.step)
  | _ => pathLive s path 0

/-- RING_READ_SNAPSHOT. -/
def execRingReadSnapshot (path : Fin 5) (ring : Fin 8) (s : State) : Result :=
  if !readLive s path.val then .next s
  else if path.val = 4 ∧ !pf0Open s then .next (answerRead 4 (F.CTL_RING_READ_DATA.addr (4 * ring.val)) 0 s)
  else
    let s := ringSnapshot ring.val s
    .next (answerRead path.val (F.CTL_RING_READ_DATA.addr (4 * ring.val)) (ringSnapWord s ring.val 0) s)

/-- RING_READ_REMOVE. -/
def execRingReadRemove (path : Fin 5) (ring : Fin 8) (s : State) : Result :=
  let a := F.CTL_RING_READ_DATA.addr (4 * ring.val + 3)
  if !readLive s path.val then .next s
  else if path.val = 4 ∧ !pf0Open s then .next (answerRead 4 a 0 s)
  else
    let w := ringSnapWord s ring.val 3
    .next (answerRead path.val a w (ringRemove ring.val s))

end Sys2Proof.Machine
end

