-- ==== Sys2Proof/Machine/Sessions.lean ====
section
/-! DEFINITION. Management sessions: HELLO, PING, the Bone's opcodes, the streams of event rings, and the ends of a session
(R383 to R388, R394, R399 to R402). -/

namespace Sys2Proof.Machine

/-- The body of a certificate (R301): kind, subject algorithm, rotation, start, subject key, hash of the issuer's key. -/
def certBody (s : State) (kind alg rotation notBefore : Nat) (key : Bytes) (issuer : Digest) : Bytes :=
  [0x54, 0x57, 0x43, 0x54] ++ leBytes 1 1 ++ leBytes 1 kind ++ leBytes 1 alg ++ leBytes 1 1 ++
    beBytes 16 Config.serial.toNat ++ shelf16 s ++ leBytes 1 (if s.boot.roleSel ≤ 2 then s.boot.roleSel else 0xFF) ++
    leBytes 1 rotation ++ leBytes 6 0 ++ leBytes 8 notBefore ++ leBytes 8 0 ++ padTo 64 key ++ digestBytes issuer ++
    List.replicate 32 0

/-- The body of the session certificate (R300, R301). -/
def sessionCert (s : State) : Bytes :=
  certBody s 2 2 0 s.tru.sessionGts (Config.sessionPublicKey s.tru.bootCount) Config.identityKeyHash

/-- A handshake fails (R386, R403): 1 unknown, 2 port, 3 signature, 4 wrap key, 5 limit, 6 entropy. -/
def authFail (port principal cause status : Nat) (s : State) : State :=
  let s := s.bump F.CTL_SESSIONS_AUTH_FAILS
  (emit (0x010 + port) 0x00E 3 (principal % 256 * 2 ^ 16 + cause) s).send
    (.handshake port 0 status [] (helloWire 0 status []))

/-- The type 5 key that a principal's record names in page 0. -/
def principalKey (s : State) (p : Principal) : Option Bytes :=
  match slotOf s 0 p.wrapHandle with
  | some i => let k := s.cip.slots.at i
              if k.typ = 5 ∧ k.state = 1 ∧ !k.lost then some k.key else none
  | none => none

/-- Do the Ethernet lanes of MA and MB carry the protocol (R463, R467)? -/
def mgmtLanes (s : State) : Bool := decide (4 ≤ s.boot.step) && s.boot.recovery != 2 && s.boot.inReset == .none

/-- A session opens: its key from the DRBG in page 0, the WELCOME with the key wrapped under the principal's; the session
attestation key signs SHA-256 of the HELLO and of what precedes the signature (R309, R386). -/
def welcome (port principal : Nat) (hello wrap : Bytes) (s : State) : State :=
  let (key, s) := randomKey 32 s
  let (nonce, s) := randomKey 32 s
  let (s, result, handle) := storeKey 3 0 0 0 0 key s
  match slotOf s 0 handle with
  | none => authFail port principal 4 0x11 s
  | some slot =>
    if result ≠ 1 then authFail port principal 4 0x11 s
    else
      let id := s.ctl.sessions.gap 1
      let x : Session := ⟨port, principal, 0, [], 0, s.now, s.fld F.CTL_CFG_IDLE_S, slot⟩
      let s := s.onCtl fun c => { c with sessions := c.sessions.ins id x }
      let bytes := beBytes 2 id ++ [0, 0] ++ nonce ++ Config.kwWrap wrap key ++ sessionCert s
      let all := bytes ++ Config.deviceSignature (sessionCert s)
      let hash := digestBytes (Config.sha256 (hello ++ all))
      let signed := all ++ Config.sessionSignature s.tru.bootCount (hedge s) (context "twiric.mgmt.v1" ++ hash)
      let s := emit (0x010 + port) 0x00C 1 (principal % 256 * 2 ^ 16 + id) (sign192 s)
      s.send (.handshake port id 0 bytes (helloWire id 0 signed))

/-- HELLO (R386): `hello` is its payload, the principal in its first two bytes, and `sigOk` whether its signature verifies against
the principal's public key (R309); the causes are tested in the order of R386. -/
def execHello (port : Fin 2) (hello : Bytes) (sigOk : Bool) (s : State) : Result :=
  let n := port.val
  let principal := ofBe (hello.take 2)
  let p := s.ctl.principals.at principal
  .next (
    if !mgmtLanes s then s
    else if !p.valid then authFail n principal 1 0x11 s
    else if !bitAt p.ports n then authFail n principal 2 0x11 s
    else if !sigOk then authFail n principal 3 0x11 s
    else match principalKey s p with
      | none => authFail n principal 4 0x11 s
      | some k =>
        if 4 ≤ s.ctl.sessions.countWhere fun _ x => x.port == n then authFail n principal 5 0x10 s
        else if s.fld F.TRU_STAT_ENTROPY_OK = 0 then authFail n principal 6 0x12 s
        else welcome n principal hello k s)

/-- PING: GTS; the message has renewed the session and its lease. -/
def execPing (r : Req) (s : State) : Result := .next (serve 0x01 [0] false true r (fun s => (s, 0, .gts s.now)) s)

/-- The Bone's holder as a response names it. -/
def boneHolder (s : State) : Reply := .holder s.ctl.bone.path s.ctl.bone.session

/-- BONE_ACQUIRE (R394): a lease of 0 is CTL_CFG.LEASE_S; while the Bone is held the order fails, also for its holder. -/
def execBoneAcquire (r : Req) (lease : Nat) (s : State) : Result :=
  .next (serve 0x20 [2] false true r (fun s =>
    if s.ctl.bone.held then (s, 5, boneHolder s)
    else
      let s := grantBone (pathOf r.port.val) r.session (leaseOf s lease) s
      (s, 0, boneHolder s)) s)

/-- BONE_RELEASE (R394). -/
def execBoneRelease (r : Req) (s : State) : Result :=
  .next (serve 0x21 [2] false true r (fun s =>
    if holdsBone s (pathOf r.port.val) r.session then (releaseBone s, 0, .none) else (s, 4, .none)) s)

/-! The streams of event rings (R399, R400). -/

/-- Is a ring bound to the session? -/
def ringBound (s : State) (v id : Nat) : Bool := decide (v < 8) && (s.ctl.rings.at v).reader == 2 && (s.ctl.rings.at v).session == id

/-- The sequence number of a ring's oldest unread record, or of its next. -/
def nextRecord (r : Ring) : Nat := match r.recs with
  | (n, _) :: _ => n
  | [] => r.total + 1

/-- EVENT_SUBSCRIBE: a free ring is bound, and its messages follow the response. -/
def execEventSubscribe (r : Req) (ring : Nat) (s : State) : Result :=
  let run := fun (s : State) =>
    if 8 ≤ ring then (s, 8, Reply.none)
    else if (s.ctl.rings.at ring).reader ≠ 0 then (s, 7, .none)
    else (onRing ring (fun x => { x with reader := 2, session := r.session, unacked := [] }) s, 0,
      .number (nextRecord (s.ctl.rings.at ring)))
  let bound := ringBound s ring r.session
  let s := serve 0x40 [1] false false r run s
  .next (if !bound ∧ ringBound s ring r.session then sendRing ring s else s)

/-- What is left unacknowledged of a message once every record up to `seq` is acknowledged. -/
def trimMsg (seq : Nat) (m : RingMsg) : Option RingMsg :=
  if m.first + m.count ≤ seq + 1 then none
  else if m.first ≤ seq then some { m with first := seq + 1, count := m.first + m.count - (seq + 1) }
  else some m

/-- EVENT_ACK: every record up to the sequence is freed; a ring with space again tells what it dropped, and the next
messages leave. -/
def execEventAck (r : Req) (ring seq : Nat) (s : State) : Result :=
  .next (serve 0x41 [1] false false r (fun s =>
    if 8 ≤ ring then (s, 8, .none)
    else if !ringBound s ring r.session then (s, 0x0B, .none)
    else
      let s := onRing ring (fun x =>
        { x with recs := x.recs.filter (fun e => decide (seq < e.1)), unacked := x.unacked.filterMap (trimMsg seq) }) s
      (sendRing ring (ringReport ring s), 0, .none)) s)

/-- EVENT_UNSUBSCRIBE: the ring keeps its unread records. -/
def execEventUnsubscribe (r : Req) (ring : Nat) (s : State) : Result :=
  .next (serve 0x42 [1] false false r (fun s =>
    if 8 ≤ ring then (s, 8, .none)
    else if !ringBound s ring r.session then (s, 0x0B, .none)
    else (releaseRing ring s, 0, .none)) s)

/-- EVENT_MESSAGE_RESEND: a message not acknowledged for 100 ms is sent again with a new SEQ. -/
def execEventMessageResend (ring : Fin 8) (seq : Nat) (s : State) : Result :=
  let v := ring.val
  let r := s.ctl.rings.at v
  match r.unacked.find? fun m => m.seq == seq with
  | none => .next s
  | some m =>
    if r.reader ≠ 2 ∨ !sessionOpen s r.session then .next s
    else
      let x := s.ctl.sessions.at r.session
      let recs := (r.recs.filter fun e => decide (m.first ≤ e.1) && decide (e.1 < m.first + m.count)).map (·.2)
      let s := s.send (.ringMessage x.port r.session x.nextSeq v m.first recs
        (mgmtWire s r.session 3 0 0 0 (ringPayload v m.first recs)))
      let fresh := fun (y : RingMsg) => if y.seq = seq then { y with seq := x.nextSeq } else y
      .next (usedSeq r.session (onRing v (fun r => { r with unacked := r.unacked.map fresh }) s))

/-- CLOG_READ: up to 500 records of the critical event log, the first by its place among those kept, oldest 0 (R402). -/
def execClogRead (r : Req) (first count : Nat) (s : State) : Result :=
  .next (serve 0x43 [0] false true r (fun s =>
    if 500 < count then (s, 8, .none)
    else if s.ctl.clog.length ≤ first then (s, 0x0B, .none)
    else (s, 0, .records ((s.ctl.clog.drop first).take count))) s)

/-! The ends of a session (R387). -/

/-- SESSION_CLOSE: the response leaves, then the session closes. -/
def execSessionClose (r : Req) (s : State) : Result :=
  let served := sessionOpen s r.session && (s.ctl.sessions.at r.session).port == r.port.val && r.tagOk &&
    decide ((s.ctl.sessions.at r.session).highSeq < r.seq)
  let s := serve 0x90 [] false true r (fun s => (s, 0, .none)) s
  .next (if served then closeSession 1 r.session s else s)

/-- BAD_OPCODE: a request with an opcode that R388 does not list, or that recovery does not serve (R389, R465). -/
def execBadOpcode (r : Req) (opcode : Nat) (s : State) : Result := .next (receive r (respond r opcode 2 .none) s)

/-- SESSION_IDLE_TIMEOUT. -/
def execSessionIdleTimeout (session : Nat) (s : State) : Result := .next (closeSession 2 session s)

/-- MGMT_LINK_LOSS: the lane's sessions close. -/
def execMgmtLinkLoss (port : Fin 2) (s : State) : Result :=
  .next ((s.ctl.sessions.keysWhere fun _ x => x.port == port.val).foldl (fun s id => closeSession 3 id s) s)

/-- MGMT_NEIGHBOUR_DISCOVERY: a solicitation of the port's own IPv6 address is answered; every other frame that is not of the
protocol is discarded (R383). -/
def execMgmtNeighbourDiscovery (port : Fin 2) (solicitation : Bool) (target : Bytes) (s : State) : Result :=
  if mgmtLanes s && solicitation && target.length == 16 && target == slice s.ctl.mgmtAddrs (12 + 16 * port.val) 16 then
    .next (s.send (.neighbourAdvert port.val target))
  else .next s

end Sys2Proof.Machine
end

