-- ==== Sys2Proof/Machine/Drives.lean ====
section
/-! DEFINITION. Drive root ports and slot sideband: PRESENCE_SEATED to SMBUS_POLL (R195 to R218). -/

namespace Sys2Proof.Machine

/-- Disable a port: any but EMPTY, FENCED and DETACHED (R206). -/
def disablePort (n : Nat) (s : State) : State :=
  let st := (portOf s n).state
  if st = 0 ∨ st = 9 ∨ st = 10 then s
  else onPort n (fun p => { p with recovering := false, trip8 := false }) (portDown n 8 s)

/-- Is a slot's PWRDIS line asserted: the wired-OR of both units' outputs (R215)? -/
def pwrdisUp (s : State) (n : Nat) : Bool := (s.drv.slots.at n).pwrdis || (s.drv.slots.at n).partnerPwrdis

/-! Presence (R206, R214). -/

/-- PRESENCE_SEATED: both contacts have read low for 50 ms; the slot is seated, its port goes from EMPTY to POWERING, and PWR
starts the leg (R206, R214, R409); while PWRDIS is asserted the port is DISABLED (R215). -/
def execPresenceSeated (slot : Fin 48) (s : State) : Result :=
  let n := slot.val
  if (s.drv.slots.at n).seated then .next s
  else
    let s := onSlotBand n (fun b => { b with prsnt0 := true, prsnt1 := true, seated := true, fru := false }) s
    let s := if (portOf s n).state = 0 then
        emit (drvSrc n) 0x901 0 0 (onPort n (fun p => { p with state := 1 }) s) else s
    let s := if pwrdisUp s n then disablePort n s else s
    .next (legSeated n s)

/-- The drive of a seated slot is gone: the port is EMPTY unless FENCED or DETACHED, and the leg turns off (R206, R410). The
next drive starts with no read error counted (R207). -/
def removeDrive (n : Nat) (s : State) : State :=
  let s := onSlotBand n (fun b => { b with seated := false, serial := none }) s
  let was := (portOf s n).state
  let s := if was = 0 ∨ was = 9 ∨ was = 10 then s
    else
      let s := portDown n 0 (emit (drvSrc n) 0x903 1 was s)
      onPort n (fun p => { p with recovering := false, returnGts := 0, trip8 := false }) s
  legRemoved n (onPort n (fun p => { p with mediaTimes := [] }) s)

/-- The partner asserts or releases its PWRDIS output: the line is the wired-OR of both (R215). -/
def partnerDrives (n : Nat) (line : Bool) (s : State) : State :=
  let was := pwrdisUp s n
  let s := onSlotBand n (fun b => { b with partnerPwrdis := if b.pwrdis then b.partnerPwrdis else line }) s
  if pwrdisUp s n && !was then disablePort n s
  else if was && !pwrdisUp s n && (portOf s n).state == 8 then portReset n s
  else s

/-- PRESENCE_REMOVAL: the slot's contacts and its PWRDIS line as sampled at a control tick, each true while it reads low, or for
the line while it is asserted. A contact of a seated slot that reads high is the removal (R206, R214, R410). -/
def execPresenceRemoval (slot : Fin 48) (low0 low1 line : Bool) (s : State) : Result :=
  let n := slot.val
  let s := partnerDrives n line (onSlotBand n (fun b => { b with prsnt0 := low0, prsnt1 := low1 }) s)
  if (low0 && low1) || !(s.drv.slots.at n).seated then .next s else .next (removeDrive n s)

/-! Bring-up (R206, R208, R209). -/

/-- PERST_RELEASE_TIMER: RESET becomes TRAINING (R206), but PERST# stays held while the unit is fenced (R357). -/
def execPerstReleaseTimer (slot : Fin 48) (s : State) : Result :=
  let n := slot.val
  if (portOf s n).state ≠ 2 ∨ redState s = 8 then .next s
  else .next ((onPort n (fun p => { p with state := 3, perstReleased := true }) s).bumpI F.DRV_PORT_STAT_RETRAINS n 1)

/-- The highest rate a port trains to (R195, R218). -/
def speedMax (s : State) : Nat := s.fld F.DRV_CFG_SPEED_MAX

/-- A link has trained: below 64 GT/s or below ×4 it stays in service with LINK_DEGRADED (R196). -/
def linkTrained (slot rate width : Nat) (s : State) : State :=
  let rate := min rate (speedMax s)
  let s := onPort slot (fun p => { p with speed := rate, width := width, attempts := 0, relinking := false }) s
  followL1 (if rate < 6 ∨ width < 4 then emit (drvSrc slot) 0x906 2 (rate + width * 16) s else s)

/-- Correctable PCIe errors of a link are counted (R197, R218). -/
def countCorrectable (slot n : Nat) (s : State) : State := s.bumpI F.DRV_ERR_COUNT_CORR slot n

/-- DRIVE_LINK_UP: TRAINING becomes INIT and the steps of R208 begin with the reads of configuration space; a port in READY that
retrains stays there. `corrected` counts the correctable errors of the link since it was last told (R197). -/
def execDriveLinkUp (slot : Fin 48) (rate width corrected : Nat) (s : State) : Result :=
  let n := slot.val
  let p := portOf s n
  let s := countCorrectable n corrected s
  if p.state = 3 then
    .next ((linkTrained n rate width (onPort n (fun p => { p with state := 4, step := 1 }) s)).send
      (.driveAdmin n "read configuration" 0))
  else if p.state = 5 ∧ p.relinking then .next (linkTrained n rate width s)
  else .next s

/-- The third training attempt fails (R206, R209): in a pair the partner is asked about its port; else the drive is declared
failed, and a second, different drive in the slot fences the port. -/
def trainingFailed (slot : Nat) (s : State) : State :=
  if inGroup s then
    queryPartner 2 slot (onPort slot (fun p => { p with asked := 2 }) (portDown slot 7 s))
  else
    let old := (portOf s slot).failSerial
    let new := (s.drv.slots.at slot).serial
    let s := portFail slot 5 false s
    match old, new with
    | some a, some b => if a ≠ b then fenceRootPort slot 5 s else s
    | _, _ => onPort slot (fun p => { p with failSerial := if new.isSome then new else p.failSerial }) s

/-- TRAINING_TIMEOUT: fewer than three attempts go back to RESET; a retraining of a port in READY that fails three times
fails the drive with cause 5 (R206, R207). -/
def execTrainingTimeout (slot : Fin 48) (s : State) : Result :=
  let n := slot.val
  let p := portOf s n
  if p.state = 3 then
    if p.attempts < 2 then
      .next (onPort n (fun p => { p with state := 2, perstReleased := false, attempts := p.attempts + 1 }) s)
    else .next (trainingFailed n s)
  else if p.state = 5 ∧ p.relinking then
    let s := s.bumpI F.DRV_PORT_STAT_RETRAINS n 1
    if p.attempts < 2 then .next (onPort n (fun p => { p with attempts := p.attempts + 1 }) s)
    else .next (portFail n 5 true s)
  else .next s

/-- The first test of R200 that a drive fails, in table order. -/
def unsuitable (s : State) (f : DriveFacts) : Option Nat :=
  if !f.nvm ∨ f.mqes < 255 then some 1
  else if !f.nsActive ∨ !f.offers4k then some 2
  else if f.lbaCount < 268435456 then some 3
  else if !f.reservations then some 4
  else if inGroup s ∧ s.fld F.DRV_CFG_ALLOW_SINGLE = 0 ∧ !f.multiPort then some 5
  else none

/-- All steps have passed: READY, DRIVE_READY, and the drive goes to LAY (R206). A recovery has brought it back (R210). -/
def portReady (slot : Nat) (s : State) : State :=
  let p := portOf s slot
  let s := onPort slot (fun p => { p with
    state := 5, step := 0, recovering := false, returnGts := if p.recovering then s.now else p.returnGts }) s
  layDriveReady slot p.lbaCount p.superblock (emit (drvSrc slot) 0x902 1 (p.speed + p.width * 16) s)

/-- Create the I/O queues of a drive (R202, R203): pairs 1 and 2 urgent, 3 to 10 normal, their rings in the window pages before
the data of their class, each completion queue before its submission queue. -/
def createQueues (slot : Nat) (s : State) : State :=
  let p := portOf s slot
  (List.range 10).foldl (fun s i =>
    let urgent := decide (i < 2)
    let first := if urgent then p.ringPages i else 4098 + p.ringPages (i - 2)
    (s.send (.driveQueue slot (i + 1) true p.ring false false (first + (p.ring * 64 + 4095) / 4096))).send
      (.driveQueue slot (i + 1) false p.ring (urgent && p.urgentPrio) false first)) s

/-- The step of R208 that a completion ends is over: what the next one does goes out.
Step 1 has read configuration space, and MPS, MRRS and Bus Master Enable are set (R197); step 2 has CSTS.RDY; step 3 has
identified the drive, which R200 tests; step 4 has registered the key (R211); step 5 has created the queues and read the
superblocks, and a drive without a valid one is formatted where its blocks are not 4,096 bytes (R201). Step 6, on a single or
active unit, acquires the reservation, or preempts that of another unit by its key (R212). -/
def initStep (n : Nat) (facts : DriveFacts) (s : State) : State :=
  let p := portOf s n
  let step := fun (k : Nat) (s : State) => onPort n (fun p => { p with step := k }) s
  match p.step with
  | 1 =>
    let mps := min 512 facts.mpsCap
    let s := (onPort n (fun p => { p with mps := mps }) s).send (.driveConfig n mps 4096)
    let s := (s.send (.driveQueue n 0 true 32 false false 4097)).send (.driveQueue n 0 false 32 false false 4096)
    step 2 (s.send (.driveAdmin n "enable" 0))
  | 2 => step 3 ((s.send (.driveAdmin n "identify controller" 0)).send (.driveAdmin n "identify namespace" 1))
  | 3 =>
    match unsuitable s facts with
    | some t => onDrive n (fun d => { d with state := 0 }) (emit (drvSrc n) 0x904 2 t (portDown n 6 s))
    | none =>
      let s := onPort n (fun p => { p with
        dual := facts.multiPort, urgentPrio := facts.urgentPrio, depth := min 1024 (facts.mqes + 1), mdts := facts.mdts
        lbaCount := facts.lbaCount }) s
      step 4 (s.send (.driveAdmin n "register" (reservationKey s)))
  | 4 =>
    let s := createQueues n s
    step 5 ((s.send (.driveRead n 0 1 false)).send (.driveRead n (p.lbaCount - 256) 1 false))
  | 5 =>
    let sb := superblockOf facts.superblocks
    let s := onPort n (fun p => { p with superblock := sb.map (superblockSays s) }) s
    let s := if !facts.formatted4k ∧ sb.isNone then s.send (.driveAdmin n "format" 4096) else s
    if !isActive s then portReady n s
    else
      match facts.holderKey with
      | some k => step 6 (s.send (.driveAdmin n "preempt" k))
      | none => step 6 (s.send (.driveAdmin n "acquire" (reservationKey s)))
  | 6 => portReady n (onPort n (fun p => { p with holder := true }) s)
  | _ => s

/-- DRIVE_ADMIN_COMPLETION (R208). -/
def execDriveAdminCompletion (slot : Fin 48) (facts : DriveFacts) (s : State) : Result :=
  if (portOf s slot.val).state ≠ 4 then .next s else .next (initStep slot.val facts s)

/-- INIT_STEP_TIMEOUT: the drive fails with cause 5 for step 1, 3 or 2 for step 2, 2 for the others; recovery starts (R206). -/
def execInitStepTimeout (slot : Fin 48) (cfs : Bool) (s : State) : Result :=
  let n := slot.val
  let p := portOf s n
  if p.state ≠ 4 then .next s
  else
    let cause := if p.step = 1 then 5 else if p.step = 2 ∧ cfs then 3 else 2
    .next (portFail n cause true (if 3 ≤ p.step then s.bumpI F.DRV_ERR_COUNT_TIMEOUTS n 1 else s))

/-! Failures in READY (R207). -/

/-- A failure of a port in READY. -/
def readyFails (slot cause : Nat) (s : State) : State := if served s slot then portFail slot cause true s else s

/-- IO_COMMAND_TIMEOUT: cause 1 (R207). -/
def execIoCommandTimeout (slot : Fin 48) (s : State) : Result :=
  if served s slot.val then .next (readyFails slot.val 1 (s.bumpI F.DRV_ERR_COUNT_TIMEOUTS slot.val 1)) else .next s

/-- ADMIN_COMMAND_TIMEOUT: cause 2 (R207). -/
def execAdminCommandTimeout (slot : Fin 48) (s : State) : Result :=
  if served s slot.val then .next (readyFails slot.val 2 (s.bumpI F.DRV_ERR_COUNT_TIMEOUTS slot.val 1)) else .next s

/-- CONTROLLER_FATAL_STATUS: cause 3 (R207). -/
def execControllerFatalStatus (slot : Fin 48) (s : State) : Result := .next (readyFails slot.val 3 s)

/-- DRIVE_LINK_DOWN: the link retrains within three attempts to a rate and width, or the drive fails with cause 5 (R207).
`corrected` counts the correctable errors before it went down (R197). -/
def execDriveLinkDown (slot : Fin 48) (retrained : Option (Nat × Nat)) (corrected : Nat) (s : State) : Result :=
  let n := slot.val
  let s := countCorrectable n corrected s
  if !served s n then .next s
  else
    match retrained with
    | some (rate, width) => .next (linkTrained n rate width (s.bumpI F.DRV_PORT_STAT_RETRAINS n 1))
    | none => .next (readyFails n 5 (s.bumpI F.DRV_PORT_STAT_RETRAINS n 3))

/-- The first page from `page` on, of `n`, that a port's window does not map. -/
def firstUnmapped (p : DrvPort) : Nat → Nat → Option Nat
  | 0, _ => none
  | n + 1, page => if p.mapped page then firstUnmapped p n (page + 1) else some page

/-- DMA_FAULT: a drive's request of `len` bytes from `start` on touches an unmapped page of the window: the request is refused
whole, DMA_FAULT reports the first address of the first such page, and the drive fails with cause 7 (R198). A request that
touches none is served. -/
def execDmaFault (slot : Fin 48) (start len : Nat) (s : State) : Result :=
  let n := slot.val
  let first := start / 4096
  match firstUnmapped (portOf s n) ((start + max 1 len - 1) / 4096 + 1 - first) first with
  | none => .next s
  | some page =>
    if !(served s n || (portOf s n).state == 4) then .next s
    else
      let addr := if first = page then start else page * 4096
      .next (portFail n 7 true (emit (drvSrc n) 0x907 3 (addr % 2 ^ 28) s))

/-- PREEMPT_COMPLETION (R212, R213): the drive is held and its writes flow; after the first round every other drive in READY
is preempted at once; a conflict in the first round stops the unit. -/
def execPreemptCompletion (slot : Fin 48) (conflict : Bool) (s : State) : Result :=
  let n := slot.val
  if !s.drv.preempting.contains n then .next s
  else if conflict ∧ s.drv.round = 1 then .next (preempted n s)
  else
    let first := s.drv.round == 1
    let rest := s.drv.preempting.filter (· != n)
    let s := s.onDrv fun d => { d with preempting := rest, round := if rest = [] then 0 else 2 }
    let s := releaseWrites n (onPort n (fun p => { p with holder := true }) s)
    .next (if first then rest.foldl preemptDrive s else s)

/-! Orders (R206, R210, R215, R218). -/

/-- A port order: for a port below 48 that is not FENCED (R218). -/
def portOrder (order : Nat) (path : Fin 5) (session : Nat) (value : Word) (run : Nat → State → State) (s : State) : State :=
  let (s, go) := writeGate path.val session (F.DRV_PORT_ORDER_ORDER.addr 0) value s
  let n := bitsOf value.toNat 5 0
  if go && bitsOf value.toNat 31 28 == order && decide (n < 48) && (portOf s n).state != 9 then run n s else s

/-- Retrain a port in READY. -/
def retrainPort (n : Nat) (s : State) : State :=
  if served s n then (onPort n (fun p => { p with relinking := true, attempts := 0 }) s).bumpI F.DRV_PORT_STAT_RETRAINS n 1 else s

/-- Enable a DISABLED port; while PWRDIS is asserted it stays so (R206, R215). -/
def enablePort (n : Nat) (s : State) : State :=
  if (portOf s n).state = 8 ∧ !pwrdisUp s n then portReset n s else s

/-- Recover a FAILED port (R210). -/
def recoverPort (n : Nat) (s : State) : State :=
  if (portOf s n).state = 7 then portReset n (onPort n (fun p => { p with recovering := true, returnGts := 0 }) s) else s

/-- DRV_PORT_RETRAIN. -/
def execDrvPortRetrain (path : Fin 5) (session : Nat) (value : Word) (s : State) : Result :=
  .next (portOrder 1 path session value retrainPort s)

/-- DRV_PORT_DISABLE. -/
def execDrvPortDisable (path : Fin 5) (session : Nat) (value : Word) (s : State) : Result :=
  .next (portOrder 2 path session value disablePort s)

/-- DRV_PORT_ENABLE. -/
def execDrvPortEnable (path : Fin 5) (session : Nat) (value : Word) (s : State) : Result :=
  .next (portOrder 3 path session value enablePort s)

/-- DRV_PORT_RECOVER. -/
def execDrvPortRecover (path : Fin 5) (session : Nat) (value : Word) (s : State) : Result :=
  .next (portOrder 4 path session value recoverPort s)

/-- Assert PWRDIS for HOLD_MS, or move the release to the later time; the port is handled as DISABLED (R215). -/
def assertPwrdis (n hold : Nat) (s : State) : State :=
  let end_ := s.now + max 1000 hold * 1000000
  disablePort n (onSlotBand n (fun b => { b with
    pwrdis := true, releaseGts := if b.pwrdis then max b.releaseGts end_ else end_ }) s)

/-- An order through DRV_PWRDIS_ORDER: with the confirmation byte, for a slot below 48 (R215, R218). -/
def pwrdisOrder (path : Nat) (session : Nat) (value : Word) (s : State) : State :=
  let (s, go) := writeGate path session (F.DRV_PWRDIS_ORDER_CONFIRM.addr 0) value s
  let n := bitsOf value.toNat 5 0
  if go && bitsOf value.toNat 31 24 == 0x5A && decide (n < 48) then assertPwrdis n (bitsOf value.toNat 23 8) s else s

/-- DRV_PWRDIS_ORDER. -/
def execDrvPwrdisOrder (path : Fin 5) (session : Nat) (value : Word) (s : State) : Result :=
  .next (pwrdisOrder path.val session value s)

/-- PWRDIS_RELEASE: the output is released, and with the line down a DISABLED port returns to RESET (R215). -/
def execPwrdisRelease (slot : Fin 48) (s : State) : Result :=
  let n := slot.val
  if !(s.drv.slots.at n).pwrdis then .next s
  else
    let s := emit 0x590 0x90A 1 n (onSlotBand n (fun b => { b with pwrdis := false, releaseGts := 0 }) s)
    .next (if (portOf s n).state = 8 ∧ !pwrdisUp s n then portReset n s else s)

/-- LEG_PG_WAIT_TIMEOUT: in a pair, with the own leg still without power good, the partner is asked about its leg (R206). -/
def execLegPgWaitTimeout (slot : Fin 48) (s : State) : Result :=
  let n := slot.val
  if inGroup s ∧ (portOf s n).state = 1 ∧ !legPg s n then
    .next (queryPartner 1 n (onPort n (fun p => { p with asked := 1 }) s))
  else .next s

/-- SMBUS_POLL: the transfers of a poll (R216): eight bytes of basic management data (critical warning, percentage used,
temperature) from code 0 of address 0x6A, and once after an insertion the FRU data at address 0x53, which gives the serial
number (R209). A NAK is the third of which in a row clears SMB_OK; the fans follow the hottest drive (R425). -/
def execSmbusPoll (slot : Fin 48) (reply : Option (Nat × Nat × Nat)) (serial : Option Nat) (s : State) : Result :=
  let n := slot.val
  let pec := s.fld F.DRV_SMB_CFG_PEC == 1
  let fast := s.fld F.DRV_SMB_CFG_FAST == 1
  let s := if (s.drv.slots.at n).fru then s
    else (onSlotBand n (fun b => { b with fru := true, serial := serial }) s).send (.smbusRead n 0x53 none pec fast)
  let s := s.send (.smbusRead n 0x6A (some (0, 8)) pec fast)
  match reply with
  | some (crit, pct, temp) =>
    .next (setFans (onSlotBand n (fun b => { b with
      smbOk := true, naks := 0, crit := crit % 256, pctUsed := pct % 256, temp := temp % 256 }) s))
  | none =>
    let s := onSlotBand n (fun b => { b with naks := b.naks + 1 }) s
    if (s.drv.slots.at n).naks = 3 then
      .next (setFans (emit 0x591 0x909 2 n (onSlotBand n (fun b => { b with smbOk := false }) s)))
    else .next s

end Sys2Proof.Machine
end

