-- ==== Sys2Proof/Machine/Cipher.lean ====
section
/-! DEFINITION. The cipher complex: CIPHER_REQUEST to KEY_ORDER_DONE (R279 to R298). -/

namespace Sys2Proof.Machine

/-- Fence a cipher lane: the operations with a segment on it run again (R36, R286). -/
def fenceCipherLane (lane reason : Nat) (s : State) : State :=
  let q := s.cip.lanes.at lane
  let s := (fenceUnit 10 lane reason s).onCip fun c => { c with lanes := c.lanes.put lane [] }
  ((q.map (·.op)).eraseDups).foldl (restartOp q) s

/-- Answer a cipher request: to a work chain its status (codes 1 to 7 status 6, code 8 status 5), to any requester the
result (R282, R283). -/
def answerCipher (r : CipherReq) (x : Except Nat (Bytes × Bytes)) (s : State) : State :=
  match x with
  | .ok (data, tag) =>
    let s := s.send (.cipher r.page r.handle 0 data tag)
    match r.chain with
    | some (c, w) => requestEnds c w 0 s
    | none => s
  | .error code =>
    let s := cipRefuse code r.page r.handle (s.send (.cipher r.page r.handle code [] []))
    match r.chain with
    | some (c, w) => requestEnds c w (if code = 8 then 5 else 6) s
    | none => s

/-- CIPHER_REQUEST (R282, R284). -/
def execCipherRequest (r : CipherReq) (s : State) : Result :=
  match cipTest s r with
  | .error code => .next (answerCipher r (.error code) s)
  | .ok i =>
    let s := if r.mode = .gcmSeal then onSlot i (fun k => { k with seals := k.seals + 1 }) s else s
    let id := s.cip.opNext + 1
    let s := s.onCip fun c => { c with
      opNext := id, running := c.running.put id ⟨r, (c.slots.at i).key, 0, none⟩ }
    .next (dispatchOp id s)

/-- CIPHER_SEGMENT_DONE: the last segment completes the operation, and each data unit of a command's data is an operation of its
own; a command whose last data unit is done goes on (R280, R284). A lane that fails its check is fenced (R286). -/
def execCipherSegmentDone (lane : Fin 64) (ok : Bool) (s : State) : Result :=
  match s.cip.lanes.at lane.val with
  | [] => .next s
  | x :: rest =>
    if !ok then .next (fenceCipherLane lane.val 1 s)
    else
      let s := s.onCip fun c => { c with
        lanes := c.lanes.put lane.val rest, running := c.running.upd x.op fun o => { o with left := o.left - 1 } }
      let o := s.cip.running.at x.op
      let count := fun (s : State) => s.onCip fun c => { c with ops := (c.ops + 1) % 2 ^ 64 }
      let s := if o.entry.isSome then count s else s
      if o.left ≠ 0 then .next s
      else
        let s := s.onCip fun c => { c with running := c.running.put x.op default }
        match o.entry with
        | some i => .next (cipherDone i s)
        | none => .next (answerCipher o.req (cipResult o.req o.key) (count s))

/-- LANE_KNOWN_ANSWER_TEST (R286). -/
def execLaneKnownAnswerTest (lane : Fin 64) (ok : Bool) (s : State) : Result :=
  if ok then .next s else .next (fenceCipherLane lane.val 1 s)

/-! Key orders (R292 to R298). -/

/-- Take a key order, or refuse it while one is in progress (R292). `now` is what takes effect at once, with its result. -/
def keyOrder (op : Nat) (path : Fin 5) (session : Nat) (value : Word) (now : KeyOrder → State → State × Nat)
    (s : State) : State :=
  let (s, go) := writeGate path.val session (F.CIP_KEY_ORDER_OP.addr 0) value s
  if !go then s
  else if s.cip.order.isSome then s.setFld F.CIP_KEY_STAT_REFUSED 1
  else
    let o : KeyOrder := {
      op := op, typ := bitsOf value.toNat 27 24, page := bitsOf value.toNat 11 0
      handle := s.fld F.CIP_KEY_ARG_HANDLE, wrap := s.fld F.CIP_KEY_ARG_WRAP_HANDLE
      session := if path.val = 4 then 0 else session, result := 0 }
    let (s, r) := now o s
    (s.onCip fun c => { c with order := some { o with result := r } }).setFld F.CIP_KEY_STAT_BUSY 1

/-- An order whose work is all done when it completes. -/
def later (_o : KeyOrder) (s : State) : State × Nat := (s, 0)

/-- KEY_GENERATE (R292). -/
def execKeyGenerate (path : Fin 5) (session : Nat) (value : Word) (s : State) : Result :=
  .next (keyOrder 1 path session value later s)

/-- KEY_IMPORT (R292). -/
def execKeyImport (path : Fin 5) (session : Nat) (value : Word) (s : State) : Result :=
  .next (keyOrder 2 path session value later s)

/-- KEY_EXPORT (R292). -/
def execKeyExport (path : Fin 5) (session : Nat) (value : Word) (s : State) : Result :=
  .next (keyOrder 3 path session value later s)

/-- Does the active image define the namespace of a data key (R294)? -/
def keyDefined (s : State) (k : KeySlot) : Bool :=
  let n := s.cmd.namespaces.at k.nsid
  k.typ == 1 && n.valid && n.tenant == k.tenant && n.keyGen == k.keyGen

/-- Is a key in use, so that Destroy is refused with RESULT 6 (R294)? -/
def keyInUse (s : State) (k : KeySlot) : Bool :=
  keyDefined s k ||
    (k.typ == 2 && (List.range 16).any fun j =>
      migBusy s j && (jobOf s j).page == k.tenant && (jobOf s j).handle == k.handle) ||
    (k.typ == 5 && s.ctl.sessions.any fun e =>
      (s.ctl.principals.at e.2.principal).wrapHandle == k.handle)

/-- Destroy a key at the GTS at which CIP applies the order (R294); removing an escrow key is a trust change (R306). -/
def destroyKey (o : KeyOrder) (s : State) : State × Nat :=
  match slotOf s o.page o.handle with
  | none => (s, 4)
  | some i =>
    let k := s.cip.slots.at i
    if keyInUse s k then (s, 6)
    else
      let s := freeKey i s
      (if k.typ = 4 then trustChange 0 0 s else s, 1)

/-- KEY_DESTROY (R294). -/
def execKeyDestroy (path : Fin 5) (session : Nat) (value : Word) (s : State) : Result :=
  .next (keyOrder 4 path session value destroyKey s)

/-- KEY_ESCROW_AGAIN (R297). -/
def execKeyEscrowAgain (path : Fin 5) (session : Nat) (value : Word) (s : State) : Result :=
  .next (keyOrder 5 path session value later s)

/-- The wrapping key an Import names: the page 0 type 5 key of WRAP_HANDLE, or the ordering session's key. -/
def wrapKey (s : State) (handle : Nat) : Option Bytes :=
  match slotOf s 0 handle with
  | some i => if (s.cip.slots.at i).typ = 5 then some (s.cip.slots.at i).key else none
  | none => none

/-- The session's own key (R309). -/
def sessionKey (s : State) (session : Nat) : Bytes := (s.cip.slots.at (s.ctl.sessions.at session).keySlot).key

/-- Import of a data key from an escrow blob under the escrow key of its page or of page 0 (R298). -/
def importData (o : KeyOrder) (s : State) : State × Nat × Nat :=
  let b := s.cip.mailbox
  let head := b.take 40
  let page := ofLe (slice b 6 2) % 4096
  let nsid := ofLe (slice b 8 4)
  let gen := ofLe (slice b 12 2)
  let n := s.cmd.namespaces.at nsid
  let old := (keysWhere s fun k => k.typ == 1 && k.tenant == page && k.nsid == nsid && k.keyGen == gen).head?
  let wanted := match old with
    | some i => (s.cip.slots.at i).lost
    | none => n.valid && n.tenant == page && n.keyGen == gen
  match [handleEntry s page 63, handleEntry s 0 63].findSome? fun e =>
      if e.slot = 0 then none else Config.kwOpen (s.cip.slots.at (e.slot - 1)).key (slice b 40 88) with
  | none => (s, 8, 0)
  | some x =>
      let key := slice x 16 64
      if !wanted || page != o.page || b.length != 128 || x.take 16 != (beBytes 32 (Config.sha256 head).toNat).take 16 then (s, 8, 0)
      else if key.take 32 = key.drop 32 then (s, 10, 0)
      else
        match old with
        | some i => (onSlot i (fun k => { k with key := key, lost := false, seq := k.seq + 1 }) s, 1, (s.cip.slots.at i).handle)
        | none => storeKey 1 page nsid gen 0 key s

/-- Import (R292): the blob of the mailbox is unwrapped; the keys of types 4 and 5 come in under the session's key. -/
def importKey (o : KeyOrder) (s : State) : State × Nat × Nat :=
  let b := s.cip.mailbox
  if o.session = 0 then (s, 7, 0)
  else if s.cip.mailboxSession ≠ o.session then (s, 8, 0)
  else
    match o.typ with
    | 1 => importData o s
    | 2 =>
      match wrapKey s o.wrap with
      | none => (s, 4, 0)
      | some k =>
        match Config.kwOpen k b with
        | some x => if x.length = 32 then storeKey 2 o.page 0 0 0 x s else (s, 8, 0)
        | none => (s, 8, 0)
    | 4 =>
      match Config.kwOpen (sessionKey s o.session) (b.drop 8) with
      | some x =>
        if x.length ≠ 32 then (s, 8, 0)
        else
          let (s, r, h) := storeKey 4 o.page 0 0 (ofLe (b.take 8)) x s
          if r ≠ 1 then (s, r, h) else (trustChange 0 0 (escrowKeys (coveredBy s o.page) s), r, h)
      | none => (s, 8, 0)
    | 5 =>
      if o.page ≠ 0 then (s, 5, 0)
      else
        match Config.kwOpen ((wrapKey s o.wrap).getD (sessionKey s o.session)) b with
        | some x => if x.length = 32 then storeKey 5 0 0 0 0 x s else (s, 8, 0)
        | none => (s, 8, 0)
    | _ => (s, 5, 0)

/-- Export (R292): a type 2 key wrapped under the named type 5 key is placed in the mailbox. -/
def exportKey (o : KeyOrder) (s : State) : State × Nat × Nat :=
  if o.session = 0 then (s, 7, 0)
  else
    match slotOf s o.page o.handle, wrapKey s o.wrap with
    | some i, some k =>
      if (s.cip.slots.at i).typ ≠ 2 then (s, 5, 0)
      else (s.onCip fun c => { c with
        mailbox := Config.kwWrap k (c.slots.at i).key, mailboxSession := o.session }, 1, o.handle)
    | _, _ => (s, 4, 0)

/-- Generate (R292): a migration key from the DRBG, refused while the entropy source is unhealthy (R310). -/
def generateKey (o : KeyOrder) (s : State) : State × Nat × Nat :=
  if o.typ ≠ 2 then (s, 5, 0)
  else if s.fld F.TRU_STAT_ENTROPY_OK = 0 then (s, 9, 0)
  else
    let (key, s) := randomKey 32 s
    storeKey 2 o.page 0 0 0 key s

/-- The work of a key order when the key engine completes it: the state, the result and the handle. -/
def runKeyOrder (o : KeyOrder) (s : State) : State × Nat × Nat :=
  match o.op with
  | 1 => generateKey o s
  | 2 => importKey o s
  | 3 => exportKey o s
  | 4 => (s, o.result, o.handle)
  | _ => (escrowKeys (keysWhere s fun k => k.typ == 1 && k.tenant == o.page) s, 1, 0)

/-- KEY_ORDER_DONE (R292, R311). -/
def execKeyOrderDone (s : State) : Result :=
  match s.cip.order with
  | none => .next s
  | some o =>
    let (s, r, h) := runKeyOrder o s
    let s := s.onCip fun c => { c with order := none }
    let s := (s.setFld F.CIP_KEY_STAT_BUSY 0).setFld F.CIP_KEY_STAT_RESULT r
    let s := if (o.op = 1 ∨ o.op = 2) ∧ r = 1 then s.setFld F.CIP_KEY_STAT_HANDLE h else s
    .next (emit 0x5A1 0xA06 1 (o.op * 2 ^ 32 + r * 2 ^ 28 + o.page * 2 ^ 16 + h) s)

end Sys2Proof.Machine
end

