-- ==== Sys2Proof/Machine/Power.lean ====
section
/-! DEFINITION. The commands of slot power, feeds, temperatures and fans (chapter 13): FAST_TRIP to FAN_RECOVERED, and
CONTROL_TICK. -/

namespace Sys2Proof.Machine

/-! Legs (R410 to R420). -/

/-- FAST_TRIP: cause 3 (R412). -/
def execFastTrip (leg : Fin 48) (s : State) : Result := .next (latchLeg leg.val 3 s)

/-- FAULT_TIMER_EXPIRY: cause 1 (R411). -/
def execFaultTimerExpiry (leg : Fin 48) (s : State) : Result := .next (latchLeg leg.val 1 s)

/-- MODEL_TEMPERATURE_LIMIT: cause 2 (R413). -/
def execModelTemperatureLimit (leg : Fin 48) (s : State) : Result := .next (latchLeg leg.val 2 s)

/-- RAMP_TIME_LIMIT: a leg in RAMP latches with cause 4 (R410). -/
def execRampTimeLimit (leg : Fin 48) (s : State) : Result :=
  if legState s leg.val = 1 then .next (latchLeg leg.val 4 s) else .next s

/-- RAMP_COMPLETE: RAMP becomes ON (R410). -/
def execRampComplete (leg : Fin 48) (s : State) : Result :=
  if legState s leg.val = 1 then .next (setLeg leg.val 2 s) else .next s

/-- GATE_CHECK_FAIL: a leg in ON is fenced with cause 5 (R410, R414). -/
def execGateCheckFail (leg : Fin 48) (s : State) : Result :=
  if legState s leg.val = 2 then .next (fenceLeg leg.val 5 s) else .next s

/-- DRAIN_SOURCE_SHORT: a leg in OFF is fenced with cause 6 (R410, R415). -/
def execDrainSourceShort (leg : Fin 48) (s : State) : Result :=
  if legState s leg.val = 0 then .next (fenceLeg leg.val 6 s) else .next s

/-- LEG_PG: power good asserts in ON, and DRV acts on it (R206, R416). -/
def execLegPg (leg : Fin 48) (s : State) : Result :=
  let n := leg.val
  if legState s n = 2 ∧ !legPg s n then
    .next (reportPg n (drvLegPg n (emit (legSrc n) 0xC02 1 1 (legMaps n (s.setFldI F.PWR_LEG_STAT_PG n 1)))))
  else .next s

/-- LEG_PG_WITHDRAWN: VOUT out of the window (R416). -/
def execLegPgWithdrawn (leg : Fin 48) (s : State) : Result := .next (withdrawPg leg.val 1 s)

/-- LEG_DISCHARGED: a pending start begins (R410, R418); a leg whose feed is disabled never counts as discharged (R495). -/
def execLegDischarged (leg : Fin 48) (s : State) : Result :=
  let n := leg.val
  if legState s n = 0 ∧ s.fldI F.PWR_LEG_STAT_PENDING n = 1 ∧ feedOn s (legFeed s n) then .next (startLeg n 4 s) else .next s

/-- LEG_RETRY: a latched leg whose cause permits it restarts, the model at or below COOL_C and a retry left (R417). -/
def execLegRetry (leg : Fin 48) (s : State) : Result :=
  let n := leg.val
  if legState s n = 3 ∧ !noRetry s n (s.fldI F.PWR_LEG_STAT_CAUSE n) ∧ feedOn s (legFeed s n) ∧
      s.fldI F.PWR_LEG_STAT_TJ_C n ≤ s.fldI F.PWR_MODEL3_COOL_C (s.fldI F.PWR_LEG_CFG_MODEL n) then
    let s := s.bumpI F.PWR_LEG_STAT_RETRIES n 1
    .next (startLeg n 3 (emit (legSrc n) 0xC04 1 (s.fldI F.PWR_LEG_STAT_RETRIES n) s))
  else .next s

/-- RETRY_COUNT_CLEAR: power good has stayed for 60 s (R417). -/
def execRetryCountClear (leg : Fin 48) (s : State) : Result :=
  if legPg s leg.val then .next (s.setFldI F.PWR_LEG_STAT_RETRIES leg.val 0) else .next s

/-- A leg order: with the confirmation byte, for a leg below 48; a FENCED leg reports RESULT 2 (R420, R430). `run` gives the
RESULT. -/
def legOrder (op : Nat) (path : Fin 5) (session : Nat) (value : Word) (run : Nat → State → State × Nat) (s : State) : State :=
  let (s, go) := writeGate path.val session (F.PWR_LEG_ORDER_OP.addr 0) value s
  let n := bitsOf value.toNat 5 0
  if !(go && bitsOf value.toNat 31 24 == 0x3C && bitsOf value.toNat 23 20 == op && decide (n < 48)) then s
  else
    let (s, res) := if legState s n = 4 then (s, 2) else run n s
    (s.setFld F.PWR_ORDER_STAT_RESULT res).setFld F.PWR_ORDER_STAT_LEG n

/-- PWR_LEG_ON_ORDER (R420). -/
def execPwrLegOnOrder (path : Fin 5) (session : Nat) (value : Word) (s : State) : Result :=
  .next (legOrder 1 path session value (fun n s =>
    let s := s.setFldI F.PWR_LEG_STAT_HELD_OFF n 0
    if !(s.drv.slots.at n).seated then (s, 3)
    else
      let s := s.setFldI F.PWR_LEG_STAT_RETRIES n 0
      let s := if legState s n = 3 then setLeg n 0 s else s
      let s := if legsReleased s then requestStart n 2 s else s
      (s, if s.fldI F.PWR_LEG_STAT_PENDING n = 1 then 4 else 1)) s)

/-- PWR_LEG_OFF_ORDER (R420). -/
def execPwrLegOffOrder (path : Fin 5) (session : Nat) (value : Word) (s : State) : Result :=
  .next (legOrder 2 path session value (fun n s =>
    let s := (legToOff n 1 s).setFldI F.PWR_LEG_STAT_PENDING n 0
    (s.setFldI F.PWR_LEG_STAT_HELD_OFF n 1, 1)) s)

/-! Temperatures (R424, R484). -/

/-- One poll of a sensor: a good reading, or a failed read, the third of which in a row loses the sensor. -/
def pollSensor (i : Nat) (reading : Option Int) (s : State) : State :=
  if !sensEn s i then s
  else
    match reading with
    | some t =>
      let s := s.onPwr fun p => { p with sensFails := p.sensFails.put i 0 }
      ((s.setFldI F.PWR_SENS_STAT_VALID i 1).setFldI F.PWR_SENS_STAT_LOST i 0).setFldI F.PWR_SENS_STAT_TEMP i
        (BitVec.ofInt 16 t).toNat
    | none =>
      let n := s.pwr.sensFails.at i + 1
      let s := s.onPwr fun p => { p with sensFails := p.sensFails.put i n }
      if n = 3 then emit 0x5C2 0xC0A 2 i (s.setFldI F.PWR_SENS_STAT_LOST i 1) else s

/-- A die threshold: its event once on the rise, and again only after the reading has fallen 5 °C below it. -/
def dieThreshold (said : Bool) (limit event sev : Nat) (s : State) : State × Bool :=
  let t := sensTemp s 31
  if t ≥ 16 * (limit : Int) then
    (if said then s else emit 0x5C2 event sev (s.fldI F.PWR_SENS_STAT_TEMP 31) s, true)
  else (s, said && decide (t > 16 * (limit : Int) - 80))

/-- The die's thresholds at a poll (R484, R485). -/
def dieThresholds (s : State) : State :=
  if !sensGood s 31 then s
  else
    let (s, w) := dieThreshold s.pwr.warned 100 0xC0B 2 s
    let (s, c) := dieThreshold s.pwr.critical 105 0xC0C 4 s
    s.onPwr fun p => { p with warned := w, critical := c }

/-- The read of an enabled entry: two bytes of its register on the sensors' bus (R424); entry 31 is on the die. -/
def askSensor (s : State) (i : Nat) : State :=
  if i = 31 ∨ !sensEn s i then s else s.send (.sensorRead i (polledFld s F.PWR_SENS_CFG_ADDR i) (polledFld s F.PWR_SENS_CFG_REG i))

/-- SENSOR_POLL: `readings` are those of entries 0 to 31 in order, `none` for a failed read (R424, R425, R484). -/
def execSensorPoll (readings : List (Option Int)) (s : State) : Result :=
  let s := (List.range 32).foldl askSensor (takePolled s)
  let s := (List.range 32).foldl (fun s i => match readings[i]? with | some r => pollSensor i r s | none => s) s
  .next (setFans (dieThresholds s))

/-- FAN_FAIL: a channel in use at a duty of at least 51 fails (R426). -/
def execFanFail (channel : Fin 12) (rpm : Nat) (s : State) : Result :=
  let c := channel.val
  let s := s.setFldI F.PWR_FAN_STAT_RPM c (min rpm 65535)
  if s.fldI F.PWR_FAN_CFG_EN c = 0 ∨ s.fldI F.PWR_FAN_STAT_DUTY c < 51 ∨ s.fldI F.PWR_FAN_STAT_FAIL c = 1 then .next s
  else .next (setFans (emit 0x5C1 0xC09 3 (min rpm 65535 * 2 ^ 16 + c) (s.setFldI F.PWR_FAN_STAT_FAIL c 1)))

/-- FAN_RECOVERED (R426). -/
def execFanRecovered (channel : Fin 12) (rpm : Nat) (s : State) : Result :=
  let s := s.setFldI F.PWR_FAN_STAT_RPM channel.val (min rpm 65535)
  .next (setFans (s.setFldI F.PWR_FAN_STAT_FAIL channel.val 0))

/-! Feeds (R422, R423). -/

/-- The source of a feed's events (R429). -/
def feedSrc (feed : Nat) : Nat := 0x340 + feed

/-- FEED_FAULT: the FET of an enabled feed turns off; cause 1 undervoltage, 2 overvoltage, 3 reverse current, 4 temperature. -/
def execFeedFault (feed : Fin 4) (cause : Fin 5) (mv : Nat) (s : State) : Result :=
  let f := feed.val
  if !feedOn s f ∨ s.fldI F.PWR_FEED_STAT_FET_ON f = 0 then .next s
  else
    let s := (s.setFldI F.PWR_FEED_STAT_FET_ON f 0).setFldI F.PWR_FEED_STAT_CAUSE f cause.val
    let s := s.onPwr fun p => { p with feeds := p.feeds.upd f fun x => { x with faulted := true } }
    .next (emit (feedSrc f) 0xC07 3 (min mv 65535 * 2 ^ 20 + cause.val) (s.bumpI F.PWR_FEED_STAT_FAULTS f 1))

/-- FEED_OK: the FET turns on again. -/
def execFeedOk (feed : Fin 4) (s : State) : Result :=
  let f := feed.val
  if !feedOn s f ∨ !(s.pwr.feeds.at f).faulted then .next s
  else
    let s := s.onPwr fun p => { p with feeds := p.feeds.upd f fun x => { x with faulted := false } }
    .next (emit (feedSrc f) 0xC08 1 0 (s.setFldI F.PWR_FEED_STAT_FET_ON f 1))

/-- Do the three conditions hold under which a feed's FET is on (R422)? `i` is in mA. -/
def feedGood (s : State) (x : FeedSample) : Bool :=
  let f := x.feed.val
  decide (s.fldI F.PWR_FEED_CFG_UV f * 100 ≤ x.v) && decide (x.v ≤ s.fldI F.PWR_FEED_CFG_OV f * 100) && decide (-1000 ≤ x.i) &&
    decide (x.t < s.fldI F.PWR_FEED_CFG_OT_C f)

/-- A feed at a tick: its readings and its energy, P × 5 µs, where it is enabled (R422, R423); with EN at 0 its FET is off, and a FET that
no fault has turned off turns on at the first tick at which its conditions hold. -/
def tickFeed (s : State) (x : FeedSample) : State :=
  let f := x.feed.val
  if !feedOn s f then
    (s.setFldI F.PWR_FEED_STAT_FET_ON f 0).onPwr fun p => { p with feeds := p.feeds.upd f fun y => { y with faulted := false } }
  else
    let i := x.i.toNat
    let add := x.v * i * 5 * 65536 / 1000000
    let s := s.onPwr fun p => { p with feeds := p.feeds.upd f fun y => { y with energy := min (2 ^ 80 - 1) (y.energy + add) } }
    let uj := (s.pwr.feeds.at f).energy / 65536
    let s := (s.setFldI F.PWR_FEED_ENERGY_ENERGY (2 * f) (uj % 2 ^ 32)).setFldI F.PWR_FEED_ENERGY_ENERGY (2 * f + 1) (uj / 2 ^ 32)
    let s := (s.setFldI F.PWR_FEED_MEAS0_V_MV f (min x.v 65535)).setFldI F.PWR_FEED_MEAS0_I_10MA f (min (i / 10) 65535)
    let s := (s.setFldI F.PWR_FEED_MEAS1_P_100MW f (min (x.v * i / 100000) 65535)).setFldI F.PWR_FEED_MEAS1_T_C f (min x.t 255)
    if (s.pwr.feeds.at f).faulted ∨ !feedGood s x then s else s.setFldI F.PWR_FEED_STAT_FET_ON f 1

/-! The control tick (R408). -/

/-- t_amb of a model set in 1/256 °C (R413). -/
def ambient (s : State) (set : Nat) : Int :=
  let i := s.fldI F.PWR_MODEL3_AMB_SENSOR set % 32
  if s.fldI F.PWR_SENS_STAT_VALID i = 1 ∧ s.fldI F.PWR_SENS_STAT_LOST i = 0 then 16 * sensTemp s i
  else 256 * (s.fldI F.PWR_MODEL3_AMB_DEFAULT_C set : Int)

/-- One pole of the model: z + (p · r − z) · 5 / τ, rounded down to 1/256 °C. `p` is in µW. -/
def pole (z p : Int) (r tau : Nat) : Int := z + (p * (r : Int) * 256 / 1000000000 - z) * 5 / (max 1 tau : Nat)

/-- The window of power good: from UV to OV of the leg's feed (R416, R495). -/
def inWindow (s : State) (leg : Nat) : Bool :=
  let f := legFeed s leg
  decide (s.fldI F.PWR_FEED_CFG_UV f * 100 ≤ (legOf s leg).vout) && decide ((legOf s leg).vout ≤ s.fldI F.PWR_FEED_CFG_OV f * 100)

/-- A leg at a tick: its samples, LIMITING and the fault timer (R411), the qualification count (R416), and the model (R413).
A leg in RAMP or ON whose feed is disabled is turned off (R495). -/
def tickLeg (s : State) (x : LegSample) : State :=
  let n := x.leg.val
  let s := match x.sense with
    | some (v, g) => (onLeg n (fun l => { l with vout := v, gsns := g }) s).setFldI F.PWR_LEG_MEAS_VOUT_MV n (min v 65535)
    | none => s
  let s := s.setFldI F.PWR_LEG_MEAS_I_MA n (min x.i 65535)
  let limiting := decide (s.fldI F.PWR_LEG_CFG_ILIM n * 50 ≤ x.i)
  let s := s.setFldI F.PWR_LEG_STAT_LIMITING n (b2n limiting)
  let s := onLeg n (fun l => { l with timer := if limiting then l.timer + 1 else l.timer - 1 }) s
  let s := s.setFldI F.PWR_LEG_STAT_TIMER_RUN n (b2n ((legOf s n).timer != 0))
  let s := onLeg n (fun l => { l with qual := if inWindow s n && l.timer == 0 then l.qual + 1 else 0 }) s
  let set := s.fldI F.PWR_LEG_CFG_MODEL n
  let vin := if feedOn s (legFeed s n) then s.fldI F.PWR_FEED_MEAS0_V_MV (legFeed s n) else 0
  let p : Int := if (legOf s n).gateOn then ((vin : Int) - ((legOf s n).vout : Int)) * (x.i : Int) else 0
  let s := onLeg n (fun l => { l with
    z0 := pole l.z0 p (s.fldI F.PWR_MODEL0_R_MCW set) (s.fldI F.PWR_MODEL0_TAU_US set)
    z1 := pole l.z1 p (s.fldI F.PWR_MODEL1_R_MCW set) (s.fldI F.PWR_MODEL1_TAU_US set)
    z2 := pole l.z2 p (s.fldI F.PWR_MODEL2_R_MCW set) (s.fldI F.PWR_MODEL2_TAU_US set) }) s
  let tj := ambient s set + (legOf s n).z0 + (legOf s n).z1 + (legOf s n).z2
  let s := s.setFldI F.PWR_LEG_STAT_TJ_C n (min 255 (tj / 256).toNat)
  if feedOn s (legFeed s n) then s else legToOff n 3 s

/-- CONTROL_TICK: every feed and leg sampled, and the fans' tach inputs (channel and rpm); firmware takes a punted frame. -/
def execControlTick (legs : List LegSample) (feeds : List FeedSample) (tach : List (Fin 12 × Nat)) (s : State) : Result :=
  let s := feeds.foldl tickFeed s
  let s := legs.foldl tickLeg s
  let s := tach.foldl (fun s (x : Fin 12 × Nat) => s.setFldI F.PWR_FAN_STAT_RPM x.1.val (min x.2 65535)) s
  .next (takePunted s)

end Sys2Proof.Machine
end

