-- ==== Sys2Proof/Machine/Fences.lean ====
section
/-! DEFINITION. Fences of identical units: UNIT_FENCED to PREFIX_FENCE_ORDER (R35 to R39, R43). -/

namespace Sys2Proof.Machine

/-- The core on which the task of core `i` runs: `ctl.coreTasks` holds it plus one once it has moved. -/
def taskHome (s : State) (i : Nat) : Nat := if s.ctl.coreTasks.at i = 0 then i else s.ctl.coreTasks.at i - 1

/-- A control core is fenced: the tasks on it restart from their checkpoints on another core (R36). -/
def fenceCore (core onto reason : Nat) (s : State) : State :=
  let s := fenceUnit 0 core reason s
  let target := if onto ≠ core ∧ !fencedUnit s 0 onto then onto
    else ((List.range 16).find? fun c => !fencedUnit s 0 c).getD onto
  (List.range 16).foldl (fun s i =>
    if taskHome s i = core then s.onCtl fun c => { c with coreTasks := c.coreTasks.put i (target + 1) } else s) s

/-- RDMA payload of a command not encoded yet is lost with a bank: its RDMA Reads are issued again, and the command is exempt from
the bound (R36, R37). -/
def refetch (s : State) (i : Nat) : State :=
  let hs := (entryOf s i).cells
  let s := redo i (releaseCells hs (dropLanes i (forgetEntry i false s)))
  fetchData i (onEntry i (fun e => { e with cells := [], unitsOut := [], crcs := [] }) s)

/-- A buffer bank is fenced: its frames are lost (R255), and the payload of commands with a cell in it is fetched again. -/
def fenceBank (bank reason : Nat) (s : State) : State :=
  let s := bankFenced bank (fenceUnit 3 bank reason s)
  (entriesWhere s fun e => (e.state == .fetching || e.state == .encoding) && e.cells.any fun h => bankOf h == bank).foldl refetch s

/-- A unit of any group is fenced, with what its group does (R36). A leg's cause is 0 for an order, 7 for the boot self-test,
else 5. -/
def fenceAny (block unit reason : Nat) (s : State) : State :=
  if fencedUnit s block unit ∨ unitsOf block ≤ unit then s
  else match block with
    | 0 => fenceCore unit unit reason s
    | 3 => fenceBank unit reason s
    | 7 => fenceLayoutLane unit reason s
    | 9 => fenceRootPort unit reason s
    | 10 => fenceCipherLane unit reason s
    | 12 => fenceLeg unit (match reason with | 8 => 0 | 7 => 7 | _ => 5) s
    | _ => s

/-- A management order in progress on a control core that is fenced is answered REPEAT (R36). -/
def repeatOrder (request : Option (Req × Nat)) (s : State) : State :=
  match request with
  | some (r, op) => receive r (respond r op 0x0C .none) s
  | none => s

/-- UNIT_FENCED (R35, R36): `request` is the management order in progress on a control core. -/
def execUnitFenced (block : Fin 16) (unit reason : Nat) (request : Option (Req × Nat)) (s : State) : Result :=
  let now := !fencedUnit s block.val unit && decide (unit < unitsOf block.val)
  let s := fenceAny block.val unit reason s
  .next (if now && block.val == 0 then repeatOrder request s else s)

/-- CONTROL_CORE_WATCHDOG (R36): the core is fenced with reason 4, its task restarts on another core, and a management order
in progress on it is answered REPEAT. -/
def execControlCoreWatchdog (core onto : Fin 16) (request : Option (Req × Nat)) (s : State) : Result :=
  if fencedUnit s 0 core.val then .next s
  else
    .next (repeatOrder request (fenceCore core.val onto.val 4 s))

/-- PREFIX_FENCE_ORDER (R43): a fence with reason 8, unless the unit is unknown or fenced, or the group would fall below its
floor. -/
def execPrefixFenceOrder (path : Fin 5) (session : Nat) (block : Fin 16) (unit : Nat) (s : State) : Result :=
  let b := block.val
  let n := unit % 256
  let (s, go) := writeGate path.val session (b * 0x1000000 + 0x18) (BitVec.ofNat 32 n) s
  if !go ∨ unitsOf b ≤ n ∨ fencedUnit s b n then .next s
  else if unitsLeft s b < floorOf b + 1 then
    .next (emit (blockSrc b) 0x006 2 (b * 2 ^ 32 + unitsLeft s b) s)
  else .next (fenceAny b n 8 s)

end Sys2Proof.Machine
end

