-- ==== Sys2Proof/Machine/Switch.lean ====
section
/-! DEFINITION. The Bloodhound, multicast groups, queue and policer entries, gate lists, histograms and the background media
queue: BLOODHOUND_PASS to MEDIA_QUEUE_GRANT (R256, R263 to R277). -/

namespace Sys2Proof.Machine

/-! The Bloodhound (R256). -/

/-- A cell's age in units of 2,097,152 ns (R256). -/
def cellAge (s : State) (c : Cell) : Nat := (s.now / 2 ^ 21 + 2 ^ 17 - c.age % 2 ^ 17) % 2 ^ 17

/-- The hold limit of an owner class in the same units, rounded up; 0 exempts the class (R253, R256). -/
def holdLimit (s : State) (owner : Nat) : Nat :=
  if owner = 0 then 0
  else ((rawWord s.regs (0x03000100 + 4 * owner)).toNat % 65536 * 1000000 + 2 ^ 21 - 1) / 2 ^ 21

/-- Is a cell over its class's hold limit? -/
def overLimit (s : State) (c : Cell) : Bool := holdLimit s c.owner != 0 && decide (holdLimit s c.owner < cellAge s c)

/-- The state with a cell changed. -/
def onCell (a : Nat) (f : Cell → Cell) (s : State) : State := s.onNet fun n => { n with cells := n.cells.upd a f }

/-- A leak: reported once in a generation; a class 1 cell is freed where BH_RECLAIM is set. -/
def reportLeak (a : Nat) (c : Cell) (s : State) : State :=
  let h := a * 16 + c.gen
  let s := if c.reported then s else
      (emit 0x532 0x303 2 (c.owner * 2 ^ 24 + h) (onCell a (fun c => { c with reported := true }) s)).bump F.SWC_BH_STAT_LEAKS
  if s.fld F.SWC_CFG_BH_RECLAIM = 1 ∧ c.owner = 1 then
    emit 0x532 0x304 2 h
      (setFree (freeCells s + 1) (onCell a (fun c => { c with owner := 0, refs := 0, age := 0, suspect := false, freed := s.now + 1 }) s))
  else s

/-- The tests of R256 on one cell. -/
def examineCell (s : State) (a : Nat) : State :=
  let c := s.net.cells.at a
  let h := a * 16 + c.gen
  if c.misfiled ∧ c.owner ≠ 0 then
    let s := setFree (freeCells s - 1) (onCell a (fun c => { c with misfiled := false }) s)
    emit 0x532 0x301 3 h (s.bump F.SWC_BH_STAT_CORRUPT)
  else if c.misfiled then
    let s := setFree (freeCells s + 1) (onCell a (fun c => { c with misfiled := false, freed := s.now + 1 }) s)
    emit 0x532 0x302 2 h (s.bump F.SWC_BH_STAT_ORPHANS)
  else if c.owner = 0 then s
  else if overLimit s c then
    let leak := c.suspect && c.lastGen == c.gen
    let s := onCell a (fun c => { c with suspect := true, lastGen := c.gen }) s
    if leak then reportLeak a c s else s
  else onCell a (fun c => { c with suspect := false, lastGen := c.gen }) s

/-- BLOODHOUND_PASS: one bank, while BH_EN is set; a fenced bank's cells are lost. -/
def execBloodhoundPass (bank : Fin 64) (s : State) : Result :=
  if s.fld F.SWC_CFG_BH_EN = 0 ∨ fencedUnit s 3 bank.val then .next s
  else
    let s := ((s.net.cells.map (·.1)).filter fun a => a / 16384 == bank.val).foldl examineCell s
    .next (unsqueeze s)

/-! Multicast groups (R263). -/

/-- SWC_MC_READ. -/
def execSwcMcRead (path : Fin 5) (session : Nat) (value : Word) (s : State) : Result :=
  let (s, go) := writeGate path.val session (F.SWC_MC_SEL_OP.addr 0) value s
  if !go then .next s
  else
    let s := storeWord (F.SWC_MC_SEL_OP.addr 0) value s
    let g := s.net.groups.at (bitsOf value.toNat 11 0)
    let s := (s.setFld F.SWC_MC_DATA0_MEMBERS_LO (g.members % 2 ^ 32)).setFld F.SWC_MC_DATA1_MEMBERS_HI (g.members / 2 ^ 32)
    .next (((s.setFld F.SWC_MC_DATA2_VALID (b2n g.valid)).setFld F.SWC_MC_DATA2_SELF (b2n g.self_)).setFld
      F.SWC_MC_SEL_DONE 1)

/-- A write through a SEL register that the image lock refuses (R12, R263, R277). -/
def lockRefused (path session : Nat) (refused : Fld) (s : State) : State :=
  refuse path session (refused.addr 0) 2 (s.setFld refused 1)

/-- SWC_MC_WRITE: the bitmap and the flags together; refused under the image lock. -/
def execSwcMcWrite (path : Fin 5) (session : Nat) (value : Word) (s : State) : Result :=
  let (s, go) := writeGate path.val session (F.SWC_MC_SEL_OP.addr 0) value s
  if !go then .next s
  else
    let s := storeWord (F.SWC_MC_SEL_OP.addr 0) value s
    let s := s.setFld F.SWC_MC_SEL_DONE 1
    if s.locked then .next (lockRefused path.val session F.SWC_MC_SEL_REFUSED s)
    else
      let g : McGroup := ⟨s.fld F.SWC_MC_DATA1_MEMBERS_HI * 2 ^ 32 + s.fld F.SWC_MC_DATA0_MEMBERS_LO,
        s.fld F.SWC_MC_DATA2_VALID == 1, s.fld F.SWC_MC_DATA2_SELF == 1⟩
      .next (s.onNet fun n => { n with groups := n.groups.put (bitsOf value.toNat 11 0) g })

/-! Queue and node entries (R264, R267). -/

/-- The words of TMG_Q_DATA 0 to 4 as an entry. -/
def qData (s : State) : QEntry :=
  let w := fun i => (rawWord s.regs (0x04000048 + 4 * i)).toNat
  ⟨w 0, w 1, w 2, w 3, w 4⟩

/-- The state with TMG_Q_DATA loaded. -/
def putQData (e : QEntry) (depth : Nat) (s : State) : State :=
  let words : List (Nat × Nat) := [(0, e.d0), (1, e.d1), (2, e.d2), (3, e.d3), (4, e.d4), (5, depth)]
  let regs := words.foldl (fun (r : Tab Word) (x : Nat × Nat) => setRawWord r (0x04000048 + 4 * x.1) (BitVec.ofNat 32 x.2)) s.regs
  { s with regs := regs }

/-- The parts of an entry that a node has (R277): VALID, PRIO, WEIGHT, RATE and BURST_KIB. -/
def QEntry.nodePart (e : QEntry) : QEntry :=
  ⟨bitsOf e.d0 31 31 * 2 ^ 31 + bitsOf e.d0 16 14 * 2 ^ 14 + bitsOf e.d0 7 0, 0, 0, bitsOf e.d3 23 0, e.d4⟩

/-- ECN_MIN above ECN_MAX is stored as ECN_MAX (R277, R491). -/
def QEntry.treated (e : QEntry) : QEntry := { e with d2 := setBits e.d2 15 0 (min e.ecnMin e.ecnMax) }

/-- TMG_Q_READ. -/
def execTmgQRead (path : Fin 5) (session : Nat) (value : Word) (s : State) : Result :=
  let (s, go) := writeGate path.val session (F.TMG_Q_SEL_OP.addr 0) value s
  if !go then .next s
  else
    let s := storeWord (F.TMG_Q_SEL_OP.addr 0) value s
    let i := bitsOf value.toNat 25 0
    let s := s.setFld F.TMG_Q_SEL_DONE 1
    if bitAt value.toNat 26 then .next (putQData (s.net.nodeCfg.at (i % 1024)).nodePart 0 s)
    else .next (putQData (queueEntry s (i % 65536)) (min (2 ^ 20 - 1) (queueDepth s (i % 65536))) s)

/-- TMG_Q_WRITE: refused under the lock, and for a change of LPORT or NODE of a queue that holds frames (R267). -/
def execTmgQWrite (path : Fin 5) (session : Nat) (value : Word) (s : State) : Result :=
  let (s, go) := writeGate path.val session (F.TMG_Q_SEL_OP.addr 0) value s
  if !go then .next s
  else
    let s := storeWord (F.TMG_Q_SEL_OP.addr 0) value s
    let i := bitsOf value.toNat 25 0
    let q := i % 65536
    let s := s.setFld F.TMG_Q_SEL_DONE 1
    let e := (qData s).treated
    if s.locked then .next (lockRefused path.val session F.TMG_Q_SEL_REFUSED s)
    else if bitAt value.toNat 26 then
      let k := i % 1024
      .next (s.onNet fun n => { n with
        nodeCfg := n.nodeCfg.put k e.nodePart
        nodeShaper := n.nodeShaper.upd k (settleShaper (n.nodeCfg.at k) e.nodePart s.now) })
    else if framesIn s q ≠ [] ∧ (e.lport ≠ (queueEntry s q).lport ∨ e.node ≠ (queueEntry s q).node) then
      .next (s.setFld F.TMG_Q_SEL_REFUSED 1)
    else
      .next (s.onNet fun n => { n with
        queueCfg := n.queueCfg.put q e, shaper := n.shaper.upd q (settleShaper (queueEntry s q) e s.now) })

/-! Policers (R268). -/

/-- TMG_POL_READ: the entry and its counts; the counts it takes start again at zero. -/
def execTmgPolRead (path : Fin 5) (session : Nat) (value : Word) (s : State) : Result :=
  let (s, go) := writeGate path.val session (F.TMG_POL_SEL_OP.addr 0) value s
  if !go then .next s
  else
    let s := storeWord (F.TMG_POL_SEL_OP.addr 0) value s
    let i := bitsOf value.toNat 13 0
    let p := s.net.policers.at i
    let words : List (Nat × Nat) := [(0, p.d0), (1, p.d1), (2, p.d2), (3, p.yellow * 65536 + p.red)]
    let regs := words.foldl (fun (r : Tab Word) (x : Nat × Nat) => setRawWord r (0x04000064 + 4 * x.1) (BitVec.ofNat 32 x.2)) s.regs
    let s := { s with regs := regs }
    .next ((s.onNet fun n => { n with policers := n.policers.upd i fun p => { p with yellow := 0, red := 0 } }).setFld
      F.TMG_POL_SEL_DONE 1)

/-- TMG_POL_WRITE: the entry whole; the buckets keep what they lack, filled to now at the old rates. -/
def execTmgPolWrite (path : Fin 5) (session : Nat) (value : Word) (s : State) : Result :=
  let (s, go) := writeGate path.val session (F.TMG_POL_SEL_OP.addr 0) value s
  if !go then .next s
  else
    let s := storeWord (F.TMG_POL_SEL_OP.addr 0) value s
    let s := s.setFld F.TMG_POL_SEL_DONE 1
    if s.locked then .next (lockRefused path.val session F.TMG_POL_SEL_REFUSED s)
    else
      let w := fun i => (rawWord s.regs (0x04000064 + 4 * i)).toNat
      .next (s.onNet fun n => { n with
        policers := n.policers.upd (bitsOf value.toNat 13 0) fun p =>
          { p.fillNow s.now with d0 := w 0, d1 := w 1, d2 := w 2 } })

/-! Gate lists (R270 to R272). -/

/-- The key of a gate entry. -/
def gateKey (lport bank i : Nat) : Nat := 2048 * lport + 1024 * bank + i

/-- TMG_GATE_READ: an entry of the active bank. -/
def execTmgGateRead (path : Fin 5) (session : Nat) (value : Word) (s : State) : Result :=
  let (s, go) := writeGate path.val session (F.TMG_GATE_SEL_OP.addr 0) value s
  if !go then .next s
  else
    let s := storeWord (F.TMG_GATE_SEL_OP.addr 0) value s
    let lport := bitsOf value.toNat 25 20
    let w := s.net.gateCfg.at (gateKey lport (activeBank s lport) (bitsOf value.toNat 9 0))
    let s := (s.setFld F.TMG_GATE_DATA_GATES (bitsOf w 31 24)).setFld F.TMG_GATE_DATA_DURATION_NS (bitsOf w 23 0)
    .next (s.setFld F.TMG_GATE_SEL_DONE 1)

/-- TMG_GATE_WRITE: an entry of the inactive bank; refused under the lock and while a commit is pending (R271). -/
def execTmgGateWrite (path : Fin 5) (session : Nat) (value : Word) (s : State) : Result :=
  let (s, go) := writeGate path.val session (F.TMG_GATE_SEL_OP.addr 0) value s
  if !go then .next s
  else
    let s := storeWord (F.TMG_GATE_SEL_OP.addr 0) value s
    let lport := bitsOf value.toNat 25 20
    let s := s.setFld F.TMG_GATE_SEL_DONE 1
    if s.locked then .next (lockRefused path.val session F.TMG_GATE_SEL_REFUSED s)
    else if (gatesOf s lport).pending.isSome then .next (s.setFld F.TMG_GATE_SEL_REFUSED 1)
    else
      let w := s.fld F.TMG_GATE_DATA_GATES * 2 ^ 24 + s.fld F.TMG_GATE_DATA_DURATION_NS
      .next (s.onNet fun n => { n with
        gateCfg := n.gateCfg.put (gateKey lport (1 - activeBank s lport) (bitsOf value.toNat 9 0)) w })

/-- The cycle time of a list (R270). -/
def cycleTime (l : List (Nat × Nat)) : Nat := (l.map (·.2)).sum

/-- The first end of a cycle that began at `start` at or after a time. -/
def cycleEnd (start len t : Nat) : Nat :=
  if t ≤ start + len then start + len else start + (t - start + len - 1) / len * len

/-- The time T of a commit (R271). -/
def commitTime (s : State) (lport : Nat) : Nat :=
  let base := s.fld F.TMG_GATE_BASE_HI_BASE * 2 ^ 32 + s.fld F.TMG_GATE_BASE_LO_BASE
  let t := max base (s.now + 1000)
  if listActive s lport then cycleEnd (gatesOf s lport).cycleStart (cycleTime (activeList s lport)) t else t

/-- TMG_GATE_COMMIT with ENABLE set: the inactive bank is pending; it replaces a commit or a stop that is pending. -/
def execTmgGateCommit (path : Fin 5) (session : Nat) (value : Word) (s : State) : Result :=
  let (s, go) := writeGate path.val session (F.TMG_GATE_COMMIT_LPORT.addr 0) value s
  if !go then .next s
  else
    let lport := bitsOf value.toNat 5 0
    let t := commitTime s lport
    .next ((onGates lport (fun g => { g with pending := some (t, bitsOf value.toNat 25 16), stopping := false }) s).setFldI
      F.TMG_GATE_STAT_PENDING lport 1)

/-- TMG_GATE_STOP, the commit with ENABLE clear: it replaces a commit that is pending, and a list that runs stops at the end
of its cycle (R271). -/
def execTmgGateStop (path : Fin 5) (session : Nat) (value : Word) (s : State) : Result :=
  let (s, go) := writeGate path.val session (F.TMG_GATE_COMMIT_LPORT.addr 0) value s
  if !go then .next s
  else
    let lport := bitsOf value.toNat 5 0
    let runs := listActive s lport
    .next ((onGates lport (fun g => { g with pending := none, stopping := runs }) s).setFldI F.TMG_GATE_STAT_PENDING lport 0)

/-- GATE_SWITCH: the pending bank becomes active and its first cycle runs from T (R271); a list that closes TC 7 in an entry
takes the class 0 bound away (R272). -/
def execGateSwitch (lport : Fin 64) (s : State) : Result :=
  let n := lport.val
  match (gatesOf s n).pending with
  | none => .next s
  | some (t, last) =>
    let bank := 1 - activeBank s n
    let s := onGates n (fun _ => ⟨last, t, 0, t, none, false⟩) s
    let s := ((s.setFldI F.TMG_GATE_STAT_BANK n bank).setFldI F.TMG_GATE_STAT_ENABLED n 1).setFldI
      F.TMG_GATE_STAT_PENDING n 0
    let s := emit 0x542 0x405 1 (bank * 65536 + n) s
    let closed := !alwaysOpen 7 (gateList s n bank last)
    let s := s.setFldI F.TMG_GATE_STAT_C0_CLOSED n (b2n closed)
    .next (kick n (if closed then emit 0x542 0x406 2 n s else s))

/-- GATE_LIST_STOPPED: every gate is open (R271). -/
def execGateListStopped (lport : Fin 64) (s : State) : Result :=
  let n := lport.val
  if listActive s n ∧ (gatesOf s n).stopping then
    let s := onGates n (fun g => { g with stopping := false }) s
    .next (kick n ((s.setFldI F.TMG_GATE_STAT_ENABLED n 0).setFldI F.TMG_GATE_STAT_C0_CLOSED n 0))
  else .next s

/-- GATE_ENTRY_END: the list goes to its next entry; after LAST a new cycle begins (R270). -/
def execGateEntryEnd (lport : Fin 64) (s : State) : Result :=
  let n := lport.val
  if !listActive s n then .next s
  else
    let g := gatesOf s n
    let stop := g.entryStart + (gateEntry s n (activeBank s n) g.entry).2
    let wraps := decide (g.last ≤ g.entry)
    .next (kick n (onGates n (fun g => { g with
      entry := if wraps then 0 else g.entry + 1, entryStart := stop
      cycleStart := if wraps then stop else g.cycleStart }) s))

/-! Histograms (R274). -/

/-- The bin of a depth in cells. -/
def depthBin (n : Nat) : Nat := if n = 0 then 0 else min 15 (Nat.log2 n + 1)

/-- The bin of a head delay; none for an empty queue. -/
def delayBin : Option Nat → Nat
  | none => 0
  | some d => if d < 128 then 1 else min 15 (Nat.log2 d - 5)

/-- One sample of one queue, in queue order. -/
def sampleQueue (s : State) : State :=
  if s.fld F.TMG_CFG_HIST_EN = 0 then s
  else
    let q := s.net.histNext
    let up := fun (k : Nat) (t : Tab Nat) => t.upd k fun c => min (2 ^ 32 - 1) (c + 1)
    let delay := (framesIn s q).head?.map fun d => s.now - d.gts
    s.onNet fun n => { n with
      hist := up (32 * q + 16 + delayBin delay) (up (32 * q + depthBin (queueDepth s q)) n.hist)
      histNext := (q + 1) % 65536 }

/-- TMG_HIST_SEL: both histograms of a queue are copied, and cleared where CLEAR is set. -/
def execTmgHistSel (path : Fin 5) (session : Nat) (value : Word) (s : State) : Result :=
  let (s, go) := writeGate path.val session (F.TMG_HIST_SEL_QUEUE.addr 0) value s
  if !go then .next s
  else
    let q := bitsOf value.toNat 15 0
    let s := (List.range 32).foldl (fun s i => s.setFldI F.TMG_HIST_DATA_COUNT i (s.net.hist.at (32 * q + i))) s
    let s := if bitAt value.toNat 30 then s.onNet fun n => { n with hist := n.hist.filter fun e => e.1 / 32 != q } else s
    .next (s.setFld F.TMG_HIST_SEL_DONE 1)

/-! The background media queue (R273). -/

/-- MEDIA_QUEUE_GRANT: a background I/O of `bytes` takes its tokens once the shaper holds them, and rebuild goes on. -/
def execMediaQueueGrant (bytes : Nat) (s : State) : Result :=
  let lacks := mediaLacks s + bytes * 100
  if mediaDepth s < lacks then .next s
  else .next (nextRebuild (s.onNet fun n => { n with media := ⟨lacks, s.now⟩ }))

end Sys2Proof.Machine
end

