-- ==== Sys2Proof/Machine/Telemetry.lean ====
section
/-! DEFINITION. The telemetry commands of chapter 14: TEL_SNAP_START to TEL_SAMPLER_WRITE, and CORE_CLOCK_EDGE. -/

namespace Sys2Proof.Machine

/-! Snapshots (R440, R441). -/

/-- The counters as a snapshot at GTS takes them: the ledger as it stands, and the others without the emissions of this very
GTS. -/
def snapshotCounters (s : State) : Tab Nat :=
  if s.tel.curGts = s.now then
    s.tel.cur.foldl (fun t (e : Nat × Nat) => t.upd e.1 fun n => (n + 2 ^ 64 - e.2) % 2 ^ 64) s.tel.cnt
  else s.tel.cnt

/-- T of the last snapshot (R440). -/
def snapGts (s : State) : Nat := s.fld F.TEL_SNAP_GTS_HI_GTS * 2 ^ 32 + s.fld F.TEL_SNAP_GTS_LO_GTS

/-- TEL_SNAP_START: START takes a snapshot, or is refused while one is being taken. A START in the very cycle of the one that
began it is not refused: the same snapshot serves both (R441). -/
def execTelSnapStart (path : Fin 5) (session : Nat) (value : Word) (s : State) : Result :=
  let (s, go) := writeGate path.val session (F.TEL_SNAP_CTRL_START.addr 0) value s
  if !(go && bitAt value.toNat 0) then .next s
  else if s.fld F.TEL_SNAP_STAT_BUSY = 1 then .next (if snapGts s = s.now then s else s.setFld F.TEL_SNAP_STAT_REFUSED 1)
  else
    let s := (s.setFld F.TEL_SNAP_STAT_BUSY 1).setFld F.TEL_SNAP_STAT_DONE 0
    let s := (s.setFld F.TEL_SNAP_GTS_LO_GTS (s.now % 2 ^ 32)).setFld F.TEL_SNAP_GTS_HI_GTS (s.now / 2 ^ 32)
    .next (s.onTel fun t => { t with snap := snapshotCounters s })

/-- SNAP_DONE. -/
def execSnapDone (s : State) : Result :=
  if s.fld F.TEL_SNAP_STAT_BUSY = 0 then .next s
  else
    let s := (s.setFld F.TEL_SNAP_STAT_BUSY 0).setFld F.TEL_SNAP_STAT_DONE 1
    .next (emit 0x5F0 0xF31 0 (snapGts s) s)

/-! Samplers (R442 to R446). -/

/-- SAMPLER_OVERFLOW: a sampler whose down-count has reached zero. -/
def execSamplerOverflow (sampler : Fin 16) (s : State) : Result := .next (overflow sampler.val s)

/-- SAMPLE_CAPTURE_TIMEOUT: the sample of an armed capture is written without an entry (R443). -/
def execSampleCaptureTimeout (sampler : Fin 16) (s : State) : Result :=
  if (s.tel.samplers.at sampler.val).armed then .next (takeSample sampler.val false [] s) else .next s

/-- The 64 bytes of a sample record (R444). -/
def Sample.bytes (x : Sample) : Bytes :=
  leBytes 8 x.gts ++ leBytes 8 x.value ++ leBytes 2 x.counter ++ leBytes 1 x.sampler ++ leBytes 1 x.skid ++
    leBytes 1 x.merged ++ leBytes 1 (b2n x.cmdValid) ++ leBytes 2 0 ++ padTo 32 x.entry ++ leBytes 2 x.cause ++ leBytes 6 0

/-- Word `w` of the sample snapshot; zero where the ring was empty (R445). -/
def sampleWord (s : State) (w : Nat) : Word :=
  match s.tel.sampleSnap with
  | some x => BitVec.ofNat 32 (ofLe (slice x.bytes (4 * w) 4))
  | none => 0

/-- SAMPLE_READ_SNAPSHOT: a read of word 0 snapshots the oldest record (R445). -/
def execSampleReadSnapshot (path : Fin 5) (s : State) : Result :=
  if !readLive s path.val then .next s
  else if path.val = 4 ∧ !pf0Open s then .next (answerRead 4 (F.TEL_SAMPLE_READ_DATA.addr 0) 0 s)
  else
    let s := s.onTel fun t => { t with sampleSnap := t.samples.head? }
    .next (answerRead path.val (F.TEL_SAMPLE_READ_DATA.addr 0) (sampleWord s 0) s)

/-- SAMPLE_READ_REMOVE: a read of word 15 removes the oldest record (R445). -/
def execSampleReadRemove (path : Fin 5) (s : State) : Result :=
  if !readLive s path.val then .next s
  else if path.val = 4 ∧ !pf0Open s then .next (answerRead 4 (F.TEL_SAMPLE_READ_DATA.addr 15) 0 s)
  else
    let s := answerRead path.val (F.TEL_SAMPLE_READ_DATA.addr 15) (sampleWord s 15) s
    .next (s.onTel fun t => { t with samples := t.samples.drop 1 })

/-- TEL_SAMPLER_WRITE: the down-count is loaded afresh and an armed capture discarded (R446). -/
def execTelSamplerWrite (path : Fin 5) (session : Nat) (sampler : Fin 16) (value : Word) (s : State) : Result :=
  let addr := F.TEL_SAMPLER_EN.addr sampler.val
  let (s, go) := writeGate path.val session addr value s
  if go then .next (reloadSampler sampler.val (storeWord addr value s)) else .next s

/-! The core clock edge (R434 to R439). -/

/-- GTS advances by one nanosecond at the rate in force (R24, R25): corrections of the rate gather in `frac`. -/
def advanceGts (s : State) : State :=
  let g := s.ctl.gts
  let total : Int := 1000000 + g.ppm + (g.frac : Int)
  s.onCtl fun c => { c with gts := { g with now := g.now + (total / 1000000).toNat, frac := (total % 1000000).toNat } }

/-- Does a unit command of an entry wait for a submission resource of DRV (R438)? -/
def unitWaits (s : State) (w : UnitIo) : Bool :=
  let p := portOf s w.slot
  let lba := ioLba s w.set w.row w.unit
  (p.urgentWait ++ p.normalWait).any fun o =>
    match o with
    | .driveWrite _ l _ _ => l == lba
    | .driveRead _ l _ _ => l == lba
    | _ => false

/-- The account of a live entry that takes no step in this cycle: CONTENDED where it was ready (R435), else what it waits on,
a submission resource before the drive (R438). -/
def entryAccount (s : State) (e : Entry) : Nat :=
  match e.wait with
  | .ready => 0xF03
  | .drive => if (e.unitsOut ++ e.readsOut).any (unitWaits s) then 0xF07 else 0xF08
  | w => w.account

/-- The part of CAPSULE_WAIT a waiting capsule adds to, tested in order (R437). -/
def capsuleAccount (s : State) (c : Capsule) : Nat :=
  if actHolds s || redHolds s || s.lay.full || (s.lay.throttle && c.cls != 0 && writeType c.opc) then 0xF1B
  else if s.cmd.exiting then 0xF1C
  else if (freeEntryFor s c.port c.cls).isNone then 0xF1A
  else 0xF19

/-- Charge every slot of the command table and every waiting capsule (R435 to R438). `steps` are the entries that take a step
in this cycle, at most eight. -/
def chargeSlots (steps : List Nat) (s : State) : State :=
  let live := s.cmd.table.filter fun e => e.2.live && decide (e.1 < 32768)
  let stepping := ((steps.eraseDups).filter fun i => live.any (·.1 == i)).take 8
  let others := (live.filter fun e => !stepping.contains e.1).map fun e => entryAccount s e.2
  let c0 := (live.filter fun e => inC0Range e.1).length
  let queued := s.cmd.queued.map (capsuleAccount s)
  let add := fun (k n : Nat) (s : State) => if n = 0 then s else ledger k n s
  let s := s.onCmd fun c => { c with table := c.table.map fun e =>
    (e.1, if e.2.live && decide (e.1 < 32768) then { e.2 with tally := e.2.tally + 1 } else e.2) }
  let s := add 0xF00 (16384 - c0) (add 0xF01 (16384 - (live.length - c0)) (add 0xF02 stepping.length s))
  let s := (List.range 10).foldl (fun s i => add (0xF03 + i) (others.count (0xF03 + i)) s) s
  let s := add 0xF10 live.length (add 0xF18 queued.length s)
  (List.range 4).foldl (fun s i => add (0xF19 + i) (queued.count (0xF19 + i)) s) s

/-- CORE_CLOCK_EDGE: GTS and CYCLES advance, every slot and waiting capsule is charged, TMG samples the next queue (R274,
R434), class 0 frames that wait for cells are stored where there are some (R257), and what the pacing of XPT held back leaves
(R106). -/
def execCoreClockEdge (steps : List Nat) (s : State) : Result :=
  let s := sampleQueue (chargeSlots steps (ledger 0 1 (advanceGts s)))
  .next (pumpAll (serveC0 s.net.waitC0.length s))

end Sys2Proof.Machine
end

