-- ==== Sys2Proof/Machine/Trust.lean ====
section
/-! DEFINITION. Device trust: TRU_ROTATE to ENTROPY_OK (R303, R305, R306, R310, R313). -/

namespace Sys2Proof.Machine

/-- A trust order: through the gate of TRU_ORDER, its result in TRU_ORDER_STAT (R313). -/
def trustOrder (path : Fin 5) (session : Nat) (value : Word) (run : State → State × Nat) (s : State) : State :=
  let (s, go) := writeGate path.val session (F.TRU_ORDER_OP.addr 0) value s
  if !go then s
  else
    let (s, r) := run s
    s.setFld F.TRU_ORDER_STAT_RESULT r

/-- TRU_ROTATE: the next rotation's fixity key signs every statement formed from now on; at most 64 rotations (R303). -/
def execTruRotate (path : Fin 5) (session : Nat) (value : Word) (s : State) : Result :=
  .next (trustOrder path session value (fun s =>
    if 63 ≤ s.tru.rotation then (s, 2)
    else
      let n := s.tru.rotation + 1
      let s := s.onTru fun t => { t with rotation := n, notBefore := t.notBefore.ins n s.now }
      (trustChange 1 n (s.setFld F.TRU_STAT_ROTATION n), 1)) s)

/-- TRU_ROLLBACK: FUSE_SVN rises to the running firmware's SVN, unless a slot holds a lower one (R305). -/
def execTruRollback (path : Fin 5) (session : Nat) (value : Word) (s : State) : Result :=
  .next (trustOrder path session value (fun s =>
    let new := s.fld F.TRU_STAT_FW_SVN
    if s.ctl.firmware.any fun e => e.2.valid && decide (e.2.svn < new) then (s, 5)
    else
      let new := max new s.tru.fuseSvn
      (trustChange 2 new ((s.onTru fun t => { t with fuseSvn := new }).setFld F.TRU_STAT_FUSE_SVN new), 1)) s)

/-- The count of enrolled image keys in TRU_STAT. -/
def countImageKeys (s : State) : State := s.setFld F.TRU_STAT_IMAGE_KEYS s.tru.imageKeys.length

/-- TRU_ENROL_IMAGE_KEY: the key in the mailbox, for the session that carries the order (R293, R313); not in the place of the
key that signed the active image. -/
def execTruEnrolImageKey (path : Fin 5) (session : Nat) (value : Word) (s : State) : Result :=
  .next (trustOrder path session value (fun s =>
    let i := bitsOf value.toNat 1 0
    if path.val = 4 then (s, 3)
    else if s.cip.mailboxSession ≠ session ∨ s.cip.mailbox.length ≠ 64 then (s, 4)
    else if s.tru.imageSigner = some i then (s, 6)
    else
      let s := s.onTru fun t => { t with imageKeys := t.imageKeys.ins i s.cip.mailbox }
      (trustChange 3 0 (countImageKeys s), 1)) s)

/-- TRU_REMOVE_IMAGE_KEY: not the key that signed the active image (R313). -/
def execTruRemoveImageKey (path : Fin 5) (session : Nat) (value : Word) (s : State) : Result :=
  .next (trustOrder path session value (fun s =>
    let i := bitsOf value.toNat 1 0
    if s.tru.imageSigner = some i then (s, 6)
    else (trustChange 4 0 (countImageKeys (s.onTru fun t => { t with imageKeys := t.imageKeys.del i })), 1)) s)

/-- ENTROPY_FAIL: key generation and sessions are refused, signing is deterministic (R310). -/
def execEntropyFail (test : Fin 2) (s : State) : Result :=
  .next (emit 0x5B4 0xB03 4 test.val ((s.setFld F.TRU_STAT_ENTROPY_OK 0).setFld F.TRU_STAT_DETERMINISTIC 1))

/-- ENTROPY_OK: the source is healthy again, signing is hedged (R310). -/
def execEntropyOk (s : State) : Result :=
  .next (emit 0x5B4 0xB04 1 0 ((s.setFld F.TRU_STAT_ENTROPY_OK 1).setFld F.TRU_STAT_DETERMINISTIC 0))

end Sys2Proof.Machine
end

