-- ==== Sys2Proof/Machine/Flags.lean ====
section
/-! DEFINITION. The status fields of the register tables that are computed from the state: each has its one home there, and a
read shows it (R42, R81, R124, R164, R194, R218, R247, R312, R313, R339, R404, R448, R470). -/

namespace Sys2Proof.Machine

/-- The element of an array of registers at an address. -/
def elem (base count stride addr : Nat) : Option Nat :=
  if base ≤ addr ∧ (addr - base) % stride = 0 ∧ (addr - base) / stride < count then some ((addr - base) / stride) else none

/-- Is an address one of an array's? -/
def inArr (base count stride addr : Nat) : Bool := (elem base count stride addr).isSome

/-- The low (0) or high (1) word of a 64-bit value. -/
def half64 (n i : Nat) : Nat := n / 2 ^ (32 * i) % 2 ^ 32

/-- A percentage of a whole, 0 of nothing. -/
def pct (part whole : Nat) : Nat := if whole = 0 then 0 else min 100 (part * 100 / whole)

/-- A bit map of a test over the numbers 0 to 47. -/
def map48 (p : Nat → Bool) : Nat := ((List.range 48).map fun i => if p i then 2 ^ i else 0).sum

/-- Four bytes of a 32-byte value, byte 4w in bits [7:0] (R313). -/
def digestWord (d : Digest) (w : Nat) : Nat := ofLe (slice (digestBytes d) (4 * w) 4)

/-- CTL (R404, R470). -/
def ctlView (s : State) (a w : Nat) : Nat :=
  let c := s.ctl
  match a with
  | 0x48 => b2n c.bone.held * 2 ^ 31 + c.bone.path * 2 ^ 28 + c.bone.session % 2 ^ 16
  | 0x4C => if c.bone.held then min (2 ^ 32 - 1) ((c.bone.leaseEnd - s.now) / 1000000) else 0
  | 0x54 => half64 s.now 0
  | 0x58 => half64 s.now 1
  | 0x5C => setBits (setBits w 31 31 (b2n c.gts.locked)) 30 28 c.gts.source
  | 0x68 => b2n c.running.isSome * 2 ^ 31 + s.boot.profileSel % 8 * 2 ^ 24 + (c.running.getD 0) * 2 ^ 16
  | 0x6C => setBits (setBits w 7 4 (c.sessions.countWhere fun _ x => x.port == 1)) 3 0 (c.sessions.countWhere fun _ x => x.port == 0)
  | 0x78 => min 65535 s.boot.bootMs * 2 ^ 16 + s.boot.step * 2 ^ 12 + s.boot.fwSlot * 2 ^ 8 + s.boot.recovery * 2 ^ 6 +
      s.boot.bootMode * 2 ^ 4 + s.boot.cause
  | _ =>
    match elem 0x100 8 4 a, elem 0x200 8 4 a, elem 0x240 8 4 a, elem 0x280 32 4 a with
    | some i, _, _, _ =>
      let p := c.profiles.at i
      b2n p.valid * 2 ^ 31 + b2n (c.running == some i) * 2 ^ 30 +
        b2n (c.stores.any fun j => j.kind == 1 && j.slot == i) * 2 ^ 29 +
        (if p.valid then (imgLen p.content + 65535) / 65536 * 64 else 0)
    | _, some v, _, _ =>
      let r := c.rings.at v
      setBits (setBits w 31 30 r.reader) 15 0 (if r.reader = 2 then r.session else 0)
    | _, _, some v, _ => setBits w 20 0 (c.rings.at v).recs.length
    | _, _, _, some i => (ringSnapWord s (i / 4) (i % 4)).toNat
    | _, _, _, _ => w

/-- PRT (R247): auto-negotiation on CR and KR; the registers of an absent logical port read zero (R219). -/
def prtView (a w : Nat) : Nat :=
  if inArr 0x01000100 16 4 a then setBits w 8 8 (b2n (bitsOf w 5 4 == 1 || bitsOf w 5 4 == 2)) else w

/-- Is an address that of a register of an absent logical port, in any block (R81, R219, R247, R276, R277)? -/
def ofAbsentPort (s : State) (a : Nat) : Bool :=
  let one := [0x01000200, 0x01000300, 0x01000400, 0x03000200, 0x03000300, 0x03000400, 0x04000200, 0x04000300,
    0x06000100, 0x06000200, 0x06000300, 0x06000400]
  (one.any fun base => (elem base 64 4 a).any fun i => !portExists s i) ||
    (elem 0x01000800 512 4 a).any fun i => !portExists s (i / 8)

/-- CLS (R248). -/
def clsView (s : State) (a w : Nat) : Nat :=
  match a with
  | 0x02000040 => setBits w 8 0 s.net.nodes.length
  | 0x02000044 => s.net.tcam.countWhere fun _ e => e.valid
  | _ => match elem 0x02000240 8 4 a with
    | some r => setBits w 12 0 (s.net.punt.at r).length
    | none => w

/-- XPT (R124). -/
def xptView (s : State) (a w : Nat) : Nat :=
  let x := s.xpt
  match a with
  | 0x05000044 => ctxInUse s
  | 0x0500004C => x.regions.countWhere fun _ r => r.state != 0
  | 0x05000050 => half64 x.misses 0
  | 0x05000054 => half64 x.misses 1
  | 0x0500005C => setBits w 14 0 (x.triggers.countWhere fun _ t => t.state == 1)
  | 0x05000070 => match x.invCtrl with
    | some i => setBits (setBits w 31 31 1) 15 0 (min 65535 (x.regions.at (regionIndex i)).straddle)
    | none => setBits (setBits w 31 31 0) 15 0 0
  | _ => w

/-- CMD (R81). -/
def cmdView (s : State) (a w : Nat) : Nat :=
  match a with
  | 0x06000044 => (nsInService s).length * 2 ^ 16 + hostsInUse s
  | 0x06000048 => (controllers s).length
  | 0x0600004C => boundWord s
  | 0x06000050 => b2n s.cmd.exiting * 2 ^ 8 + s.cmd.ps
  | 0x0600005C => s.cmd.act.result * 2 ^ 30 + (if s.cmd.act.step = 7 then 3 else s.cmd.act.step) * 2 ^ 27 + s.cmd.act.stopUs
  | 0x06000064 => testPercent s * 2 ^ 8 + s.cmd.test.code
  | _ => match elem 0x06000300 64 4 a with
    | some p => setBits w 8 0 (c0Outstanding s p)
    | none => w

/-- LAY_REBUILD_STAT (R164). -/
def rebuildStat (s : State) : Nat :=
  let b := s.lay.rebuild
  let slot := match b.target with
    | some (id, i, _) => slotTold s ((s.lay.sets.at id).members.getD i default).slot
    | none => 0
  b2n b.target.isSome * 2 ^ 31 + b2n (b.waiting != 0) * 2 ^ 30 + slot * 2 ^ 24 +
    (if b.target.isSome then pct (countOf b.doneRows 0xFFFFFFFF) (countOf b.doneRows 0xFFFFFFFF + rowsToRebuild s fun _ => true) else 0)

/-- LAY (R164). -/
def layView (s : State) (a w : Nat) : Nat :=
  let l := s.lay
  match a with
  | 0x07000044 => (if (List.range 16).all fun i => (l.geoms.at i).k == 0 then 0 else copiesC s) * 2 ^ 28 + (slotsInService s).length * 2 ^ 22 + shelfState s * 2 ^ 20 + (setsIn s .opened).length
  | 0x07000048 => (l.map.filter fun e => !e.removed).length
  | 0x0700004C => l.sets.countWhere fun _ r => r.state != .free
  | 0x07000050 => freeChunks s - spareReserve s
  | 0x07000054 => b2n l.full * 2 ^ 9 + b2n l.throttle * 2 ^ 8 + fillPct s
  | 0x07000060 => setBits (setBits w 31 31 (b2n l.ckpt.busy)) 15 0 (min 65535 l.ckpt.lastS)
  | 0x07000064 => half64 l.ckpt.durableJseq 0
  | 0x07000068 => half64 l.ckpt.durableJseq 1
  | 0x0700006C => rebuildStat s
  | 0x07000074 => setBits w 6 0 (pct (countOf l.scrubRows 0xFFFFFFFF) (scrubTotal s))
  | _ => match elem 0x07000100 16 4 a, elem 0x07000200 48 4 a with
    | some i, _ =>
      let g := l.geoms.at i
      if g.k = 0 then 0 else 2 ^ 31 + g.uShift * 2 ^ 16 + g.m * 2 ^ 8 + g.k
    | _, some i => (l.drives.at i).free % 2 ^ 24 * 2 ^ 8 + (l.drives.at i).state
    | _, _ => w

/-- The highest BATCH_SEQ sealed. -/
def sealedSeq (s : State) : Nat := (s.fix.sealed.map (·.seq)).foldl max 0

/-- FIX (R194). -/
def fixView (s : State) (a w : Nat) : Nat :=
  let f := s.fix
  match a with
  | 0x08000044 => b2n f.recomputing * 2 ^ 31 + b2n (decide (8 ≤ f.closed.length)) * 2 ^ 30 + f.closed.length
  | 0x08000048 => half64 (sealedSeq s) 0
  | 0x0800004C => half64 (sealedSeq s) 1
  | 0x08000050 => match f.opened.getLast? with
    | some b => min (2 ^ 32 - 1) b.all.length
    | none => 0
  | 0x0800005C => setBits w 6 0 (pct f.audited.length (liveObjects s).length)
  | _ => match elem 0x08000100 16 4 a, elem 0x08000140 16 4 a with
    | some j, _ =>
      let x := jobOf s j
      x.state * 2 ^ 28 + b2n x.target * 2 ^ 27 + min 15 x.pass * 2 ^ 16 + min 65535 x.failed
    | _, some j => min (2 ^ 32 - 1) (jobOf s j).objs
    | _, _ => w

/-- DRV (R218). -/
def drvView (s : State) (a w : Nat) : Nat :=
  let seated := map48 fun i => (s.drv.slots.at i).seated
  let ready := map48 fun i => (portOf s i).state == 5
  match a with
  | 0x09000050 => half64 seated 0
  | 0x09000054 => half64 seated 1
  | 0x09000058 => half64 ready 0
  | 0x0900005C => half64 ready 1
  | _ => match elem 0x09000100 48 4 a, elem 0x09000200 48 4 a with
    | some i, _ =>
      let p := portOf s i
      bitsOf w 7 0 + p.state * 2 ^ 28 + p.speed * 2 ^ 24 + p.width * 2 ^ 20 + b2n p.holder * 2 ^ 19 + b2n p.dual * 2 ^ 18 +
        b2n p.urgentPrio * 2 ^ 17
    | _, some i =>
      let b := s.drv.slots.at i
      b2n b.prsnt0 * 2 ^ 31 + b2n b.prsnt1 * 2 ^ 30 + b2n (b.pwrdis || b.partnerPwrdis) * 2 ^ 29 + b2n b.smbOk * 2 ^ 28 +
        b.crit % 256 * 2 ^ 16 + b.pctUsed % 256 * 2 ^ 8 + b.temp % 256
    | _, _ => w

/-- CIP (R312). -/
def cipView (s : State) (a w : Nat) : Nat :=
  match a with
  | 0x0A000050 => s.cip.slots.countWhere fun _ k => k.state == 1
  | 0x0A000054 => setBits w 15 0 s.cip.escrow.length
  | 0x0A00005C => half64 s.cip.ops 0
  | 0x0A000060 => half64 s.cip.ops 1
  | _ => w

/-- TRU (R313). -/
def truView (s : State) (a w : Nat) : Nat :=
  match a with
  | 0x0B00004C => setBits w 31 24 (min 255 (s.fix.closed.countP fun b => b.object == []))
  | 0x0B000050 => min (2 ^ 32 - 1) s.tru.bootCount
  | _ =>
    match elem 0x0B000100 32 4 a, elem 0x0B000180 4 4 a, elem 0x0B0001A0 8 4 a, elem 0x0B0001C0 8 4 a with
    | some i, _, _, _ => digestWord (s.tru.meas.getD (i / 8) 0) (i % 8)
    | _, some i, _, _ => ofLe (slice (beBytes 16 Config.serial.toNat) (4 * i) 4)
    | _, _, some i, _ => digestWord Config.identityKeyHash i
    | _, _, _, some i => digestWord (Config.sha256 (fixityPublicKey s s.tru.rotation)) i
    | _, _, _, _ => w

/-- The tags in a state (R332). -/
def tagsIn (s : State) (p : TagState → Bool) : Nat := s.hep.tags.countWhere fun _ t => p t.state

/-- HEP (R339). -/
def hepView (s : State) (a w : Nat) : Nat :=
  match a with
  | 0x0D00004C => tagsIn s (fun t => t == .quarantined || t == .held) * 2 ^ 16 + tagsIn s (· == .outstanding)
  | _ => match elem 0x0D000300 65 4 a with
    | some k =>
      let f := fnOf s k
      b2n f.bme * 2 ^ 31 + b2n f.flr * 2 ^ 30 + (if f.msix then 2 else b2n f.msi) * 2 ^ 28 +
        b2n (ctrlOf s (fnCntlid k)).cfs * 2 ^ 27 + b2n (k == 0 || f.present) * 2 ^ 26 +
        (if k == 0 || f.present then fnCntlid k else 0)
    | none => w

/-- TEL (R448). -/
def telView (s : State) (a w : Nat) : Nat :=
  match elem 0x0F010000 8192 4 a, elem 0x0F020000 8192 4 a, elem 0x0F000100 16 4 a with
  | some i, _, _ => half64 (s.tel.cnt.at (i / 2)) (i % 2)
  | _, some i, _ => half64 (s.tel.snap.at (i / 2)) (i % 2)
  | _, _, some i => (sampleWord s i).toNat
  | _, _, _ => if a = 0x0F000054 then setBits w 14 0 s.tel.samples.length else w

/-- The common header of R42 at offset `o` of block `b`. -/
def headerWord (s : State) (b o : Nat) : Nat :=
  let x := s.ctl.blocks.at b
  match o with
  | 0x00 => b * 0x1000000 + 0x0B0000
  | 0x04 => floorOf b * 2 ^ 24 + unitsOf b * 2 ^ 16 + blockSrc b
  | 0x08 => half64 x.fenced 0
  | 0x0C => half64 x.fenced 1
  | 0x10 => x.lastReason % 256 * 2 ^ 16 + x.lastUnit % 256 * 2 ^ 8 + b2n x.lastValid
  | 0x14 => min (2 ^ 32 - 1) x.unmapped
  | _ => 0

/-- Does a register stand at an address: one of the header of R42 or of a block's table (R41)? -/
def mapped (addr : Nat) : Bool :=
  decide (addr < 0x10000000) && addr % 4 == 0 && (decide (addr % 0x1000000 < 0x20) || (findReg addr).isSome)

/-- The stored word of a register with its computed fields; those of an absent logical port read zero (R219). -/
def liveWord (s : State) (addr : Nat) : Nat :=
  let w := (rawWord s.regs addr).toNat
  if addr % 0x1000000 < 0x20 then headerWord s (addr / 0x1000000) (addr % 0x1000000)
  else if ofAbsentPort s addr then 0
  else match addr / 0x1000000 with
    | 0 => ctlView s addr w
    | 1 => prtView addr w
    | 2 => clsView s addr w
    | 5 => xptView s addr w
    | 6 => cmdView s addr w
    | 7 => layView s addr w
    | 8 => fixView s addr w
    | 9 => drvView s addr w
    | 10 => cipView s addr w
    | 11 => truView s addr w
    | 13 => hepView s addr w
    | 15 => telView s addr w
    | _ => w

/-- What a read of a register shows: its live word, write-only fields zero (R9). -/
def shownWord (s : State) (addr : Nat) : Word :=
  match findReg addr with
  | some (r, _) => BitVec.ofNat 32 (wordRead r.fields (liveWord s addr))
  | none => BitVec.ofNat 32 (liveWord s addr)

end Sys2Proof.Machine
end

