-- ==== Sys2Proof/Machine/Migration.lean ====
section
/-! DEFINITION. Migration jobs: MIG_WINDOW_PLANNED to MIG_CONNECTION_ERROR_TIMEOUT (R182 to R192). What firmware chooses,
the trigger entry, where in memory a window stands and how many objects it takes, is an operand. -/

namespace Sys2Proof.Machine

/-! Passes (R192). -/

/-- Insert an object in the order of JSEQ, after those of its own JSEQ. -/
def objInsert (o : MigObj) : List MigObj → List MigObj
  | [] => [o]
  | x :: xs => if o.jseq < x.jseq then o :: x :: xs else x :: objInsert o xs

/-- The object of a live map entry. -/
def objOf (m : MapEntry) : MigObj :=
  { (default : MigObj) with
    jseq := m.jseq, extent := m.extent, kv := m.kv, key := m.key, start := m.start, length := m.length }

/-- The objects of a namespace that changed in records with a JSEQ above `low` and up to `high`, in the order of JSEQ: live map
entries, and removals as their leaves tell them. -/
def changedObjs (s : State) (nsid low high : Nat) : List MigObj :=
  let live := (s.lay.map.filter fun m =>
    m.nsid == nsid && !m.removed && decide (low < m.jseq) && decide (m.jseq ≤ high)).map objOf
  let gone := ((s.fix.sealed ++ s.fix.closed ++ s.fix.opened).flatMap Batch.all).filter fun l =>
    l.typ == 2 && l.nsid == nsid && decide (low < l.jseq) && decide (l.jseq ≤ high)
  let gone := gone.map fun l => { (default : MigObj) with
    jseq := l.jseq, kv := l.keyLen != 0, key := if l.keyLen = 0 then [] else l.key, start := ofLe l.key, length := l.length
    removed := true }
  (gone ++ live).foldl (fun os o => objInsert o os) []

/-- Start a pass over the entries changed after the previous pass's JSEQ. -/
def startPass (j : Nat) (s : State) : State :=
  let high := s.lay.jseqNext - 1
  onJob j (fun x => { x with
    todo := x.todo ++ changedObjs s x.nsid x.passJseq high, passJseq := high, counted := false }) s

/-- Everything of the pass is acknowledged. -/
def passDone (x : MigJob) : Bool := x.todo.isEmpty && x.windows.isEmpty

/-- The end of a catch-up pass is counted once (R194). -/
def countPass (j : Nat) (s : State) : State :=
  if (jobOf s j).counted then s
  else onJob j (fun x => { x with pass := min 15 (x.pass + 1), counted := true }) s

/-- What the end of a pass does to the source's job (R192). `fuel` bounds the passes that end at once because nothing has
changed. -/
def passEnd (j : Nat) : Nat → State → State
  | 0, s => s
  | fuel + 1, s =>
    let x := jobOf s j
    if x.target ∨ !passDone x then s
    else
      match x.state with
      | 2 => passEnd j fuel (startPass j (migState j 3 s))
      | 3 =>
        let s := countPass j s
        if s.fld F.FIX_MIG_LIMITS_CATCHUP_MAX < (changedObjs s x.nsid x.passJseq (s.lay.jseqNext - 1)).length then
          passEnd j fuel (startPass j s)
        else if x.ordered ∨ s.fld F.FIX_MIG_CFG_AUTO_CUTOVER = 1 then
          let s := onJob j (fun x => { x with ordered := false, cutoverMs := s.fld F.FIX_MIG_LIMITS_CUTOVER_MS }) s
          passEnd j fuel (startPass j (migAna j true (migState j 4 s)))
        else s
      | 4 => migState j 5 (sendManifest j 6 x.windowNext 0 [] none s)
      | _ => s

/-! Windows (R183 to R186). -/

/-- The first LBA a block leaf covers. -/
def Leaf.start (l : Leaf) : Nat := ofLe (l.key.take 8)

/-- Is a leaf the one to migrate an object with: it covers exactly the object? -/
def leafFits (o : MigObj) (nsid : Nat) (l : Leaf) : Bool :=
  l.nsid == nsid && (l.keyLen != 0) == o.kv &&
    (if o.removed then l.typ == 2 && l.jseq == o.jseq && (if o.kv then l.key == o.key else l.start == o.start && l.length == o.length)
     else l.typ != 2 && (if o.kv then l.extent == o.extent && l.key == o.key
       else l.extent == o.extent && l.start == o.start && l.length == o.length))

/-- Does a block leaf cover an object's range and more (R183)? A leaf names the first of its extents (R167). -/
def leafCovers (o : MigObj) (nsid : Nat) (l : Leaf) : Bool :=
  l.nsid == nsid && l.typ != 2 && l.typ != 5 && l.keyLen == 0 && !o.kv && !o.removed &&
    (l.extent == o.extent || l.extent + 1 == o.extent) && decide (l.start ≤ o.start) &&
    decide (o.start + o.length ≤ l.start + l.length)

/-- Attest an object that covers a part of its extent: the whole extent is read and checked against its leaf, and a leaf of
type 5 over the live range is filed, once (R183); an object with a leaf of its own needs none. -/
def attest (nsid : Nat) (got : List UnitIo) (s : State) (o : MigObj) : State :=
  let filed := (s.fix.sealed ++ s.fix.closed ++ s.fix.opened).any fun b => b.all.any (leafFits o nsid)
  match sealedLeaf s (leafCovers o nsid), filed with
  | some (_, _, l), false =>
    match leafSegs s l.extent (leafBytesLen l) with
    | none => s
    | some segs =>
      match plainOf s nsid segs got with
      | none => s
      | some plain =>
        let bs := 2 ^ l.lbaShift
        if Config.sha256 (plain.take (leafBytesLen l)) ≠ l.digest then s
        else addLeaf s { l with
          typ := 5, length := o.length, key := leBytes 8 o.start, extent := o.extent, gts := s.now, link := l.hash
          digest := Config.sha256 (slice plain ((o.start - l.start) * bs) (o.length * bs)) }
  | _, _ => s

/-- An object planned into a window: with its batch, leaf index and leaf, and ENV_OFFSET. -/
structure Planned where
  obj : MigObj
  batch : Batch
  index : Nat
  leaf : Leaf
  offset : Nat
deriving DecidableEq, Repr, Inhabited

/-- PLAIN_LEN of an object: that of a removal is 0 (R185). -/
def Planned.plainLen (p : Planned) : Nat := if p.obj.removed then 0 else leafBytesLen p.leaf

/-- The 256-byte entry of a PLAN (R184). -/
def planEntry (peerNsid : Nat) (p : Planned) : Bytes :=
  padTo 256 (p.leaf.bytes ++ digestBytes p.leaf.hash ++ beBytes 8 p.batch.seq ++ beBytes 8 p.index ++ beBytes 8 p.offset ++
    beBytes 4 (p.plainLen + 48) ++ beBytes 4 peerNsid ++ padTo 16 (if p.obj.kv then p.obj.key else beBytes 8 p.obj.start))

/-- Must one object wait for another: do they meet in a key or a range of which one is a removal? -/
def MigObj.meets (a b : MigObj) : Bool :=
  (a.removed || b.removed) && a.kv == b.kv &&
    (if a.kv then a.key == b.key else decide (a.start < b.start + b.length) && decide (b.start < a.start + a.length))

/-- An object to be planned, as the map has it now: one overwritten or removed since is left to the pass of what replaced it, of
one that was cut the live parts are left (R139, R192). -/
def refreshObj (s : State) (nsid : Nat) (o : MigObj) : List MigObj :=
  if o.removed then [o]
  else
    (s.lay.map.filter fun m => m.nsid == nsid && !m.removed && m.kv == o.kv && m.extent == o.extent &&
      (if o.kv then m.key == o.key else decide (o.start ≤ m.start) && decide (m.start + m.length ≤ o.start + o.length))).map
      fun m => { objOf m with jseq := o.jseq, retries := o.retries, forced := o.forced }

/-- Plan objects in order while the window has room. An object whose leaf is not sealed waits, and so does one that meets an
object before it which is held or in flight, so that the target sees both in the order of JSEQ. -/
def planObjs (s : State) (nsid limit count : Nat) : List MigObj → List MigObj → List Planned → List Planned
  | [], _, acc => acc
  | o :: os, held, acc =>
    let used := (acc.map fun p => p.plainLen + 48).sum
    if min count 60 ≤ acc.length then acc
    else
      match (if held.any o.meets then none else sealedLeaf s (leafFits o nsid)) with
      | none => planObjs s nsid limit count os (o :: held) acc
      | some (b, i, l) =>
        let p : Planned := ⟨o, b, i, l, used⟩
        if limit < used + p.plainLen + 48 then acc else planObjs s nsid limit count os held (acc ++ [p])

/-- The remote key of a landing region (R111). -/
def landingKey (r : Landing) : Nat := r.index * 256 + r.key

/-- Work requests from an index of the pool on, each naming the next; the last has LAST (R117). -/
def chained (first : Nat) (ws : List WorkReq) : List (Nat × WorkReq) :=
  ((List.range ws.length).zip ws).map fun x =>
    if x.1 + 1 = ws.length then (first + x.1, { x.2 with flags := x.2.flags + 2, next := 0xFFFFFFFF })
    else (first + x.1, { x.2 with next := first + x.1 + 1 })

/-- ARGS of 0x14 and 0x15 (R187). -/
def cipherArgs (x : MigJob) (i entry output : Nat) : Bytes :=
  leBytes 2 x.page ++ leBytes 2 x.handle ++ leBytes 2 i ++ leBytes 2 0 ++ leBytes 8 entry ++ leBytes 8 output

/-- The requests of one entry of a source chain (R186, R187). -/
def sourceEntry (s : State) (x : MigJob) (place : WindowPlace) (window i : Nat) (p : Planned) : List WorkReq :=
  let entry := place.entries + 256 * i
  let plain := place.plain + p.offset
  let env := place.envs + p.offset
  let region := x.regions.getD place.region default
  let m := (s.lay.map.find? fun m => m.nsid == x.nsid && !m.removed && objOf m == { p.obj with
    jseq := m.jseq, retries := 0, forced := false }).getD default
  let base : WorkReq := { (default : WorkReq) with localAddr := plain, length := p.plainLen }
  p.obj.sourceOps.map fun op =>
    if op = 0x10 then { base with
      opcode := 0x10, args := leBytes 4 x.nsid ++ leBytes 4 m.set ++ leBytes 2 m.firstRow ++
        leBytes 1 (b2n p.obj.forced) ++ leBytes 1 0 ++ leBytes 4 m.offset ++ leBytes 8 p.obj.extent }
    else if op = 0x12 then { base with opcode := 0x12, flags := 1, args := leBytes 8 (entry + 56) ++ leBytes 16 0 }
    else if op = 0x14 then { base with opcode := 0x14, imm := window, args := cipherArgs x i entry env }
    else { base with
      opcode := 0x01, qpn := x.qpn, localAddr := env, length := p.plainLen + 48, remoteVa := region.base + p.offset
      rkey := landingKey region }

/-- The requests of a source chain (R186): those of each entry, then the Write of the custody bundle behind the envelopes and
the GO. -/
def sourceChain (s : State) (x : MigJob) (place : WindowPlace) (window bundle : Nat) (ps : List Planned) : List WorkReq :=
  let region := x.regions.getD place.region default
  (((List.range ps.length).zip ps).flatMap fun p => sourceEntry s x place window p.1 p.2) ++
    [{ (default : WorkReq) with
        opcode := 0x01, qpn := x.qpn, localAddr := place.bundle, length := bundle, rkey := landingKey region
        remoteVa := region.base + (ps.map fun p => p.plainLen + 48).sum },
     { (default : WorkReq) with
        opcode := 0x03, qpn := x.qpn, localAddr := place.go, length := 64, imm := migTag 2 place.peerSlot.val window }]

/-- Arm a trigger entry of a window with the work requests of its chain (R121, R186). -/
def armWindow (trigger tag qpn first mbufLen mbuf : Nat) (ws : List WorkReq) (s : State) : State :=
  let s := s.onXpt fun x => { x with pool := (chained first ws).foldl (fun t p => t.put (p.1 % 2 ^ 20) p.2) x.pool }
  onTrigger trigger (fun _ => ⟨tag, qpn, 1, first, mbufLen, mbuf, s.now⟩) s

/-- Is a landing region of a job free for a window (R182, R186)? -/
def regionFree (x : MigJob) (region : Nat) : Bool :=
  decide (region < x.regions.length) && !x.windows.any fun w => w.region == region

/-- MIG_WINDOW_PLANNED: up to `count` objects whose leaves are sealed become the next window: the manifest entries, the custody
bundle and the GO message are written to HBM, the source chain is armed and the PLAN is sent. Objects that cover a part of
their extent are attested from the units read, and wait (R183, R186, R189). -/
def execMigWindowPlanned (job : Fin 16) (count : Nat) (trigger : Fin 16384) (place : WindowPlace)
    (units : List (Nat × Nat × UnitRead)) (s : State) : Result :=
  let j := job.val
  let x := jobOf s j
  if x.target ∨ !(x.state = 2 ∨ x.state = 3 ∨ x.state = 4) ∨ s.fld F.FIX_MIG_CFG_WINDOWS ≤ x.windows.length ∨
      !regionFree x place.region ∨ (s.xpt.triggers.at trigger.val).state ≠ 0 then .next s
  else
    let s := onJob j (fun x => { x with todo := x.todo.flatMap (refreshObj s x.nsid) }) s
    let todo := (jobOf s j).todo
    let s := todo.foldl (attest x.nsid (passing s units)) s
    let ps := planObjs s x.nsid (s.fld F.FIX_MIG_CFG_WINDOW_MIB * 1048576) count todo (x.windows.flatMap (·.objs)) []
    if ps = [] then .next (passEnd j 64 s)
    else
      let w := x.windowNext
      let objs := ps.map (·.obj)
      let entries := ps.flatMap (planEntry x.peerNsid)
      let bundle := bundleOf (ps.flatMap fun p => custodyOf s (p.batch, p.index, p.leaf))
      let s := hbmWrite place.go (manifestHead s j 3 w ps.length)
        (hbmWrite place.bundle bundle (hbmWrite place.entries entries s))
      let s := armWindow trigger.val (migTag 1 j w) x.qpn place.first 65536 place.mbuf
        (sourceChain s x place w bundle.length ps) s
      let s := onJob j (fun x => { x with
        todo := x.todo.filter fun o => !objs.contains o
        windows := x.windows ++ [⟨w, trigger.val, place.region, objs⟩], windowNext := w + 1 }) s
      .next (sendManifest j 1 w ps.length entries none s)

/-- Firmware takes the oldest manifest delivered on a job's connection, and posts its buffer again (R104). -/
def takeManifest (j : Nat) (s : State) : State :=
  let qpn := (jobOf s j).qpn
  if s.fix.received.any fun m => m.1 == qpn then
    onCtx qpn (fun c => { c with rqTail := (c.rqTail + 1) % 65536 })
      (s.onFix fun f => { f with received := f.received.eraseP fun m => m.1 == qpn })
  else s

/-- The object that an entry of a PLAN names. -/
def objOfEntry (e : Bytes) : MigObj :=
  let l := leafAt e 0
  { (default : MigObj) with
    jseq := l.jseq, extent := l.extent, kv := l.keyLen != 0, key := slice e 192 l.keyLen, start := ofBe (slice e 192 8)
    length := l.length, removed := l.typ == 2 }

/-- The requests of one entry of a target chain, the first of which has an index in it (R186, R187). -/
def targetEntry (x : MigJob) (place : TargetPlace) (envs i first : Nat) (e : Bytes) : List WorkReq :=
  let l := leafAt e 0
  let o := objOfEntry e
  let entry := place.mbuf + 64 + 256 * i
  let off := ofBe (slice e 176 8)
  let n := ofBe (slice e 184 4) - 48
  let region := x.regions.getD place.region default
  let base : WorkReq := { (default : WorkReq) with localAddr := place.plain + off, length := n }
  o.targetOps.map fun op =>
    if op = 0x15 then { base with
      opcode := 0x15, localAddr := region.base + off, length := n + 48, imm := 0
      args := cipherArgs x i entry (place.plain + off) }
    else if op = 0x12 then { base with opcode := 0x12, flags := 1, args := leBytes 8 (entry + 56) ++ leBytes 16 0 }
    else if op = 0x11 then { base with
      opcode := 0x11, flags := 1, length := if o.removed then (if o.kv then 0 else l.length * 2 ^ l.lbaShift) else n
      args := leBytes 4 (ofBe (slice e 188 4)) ++ leBytes 1 (if o.removed then 2 else 1) ++ leBytes 1 l.keyLen ++ leBytes 2 0 ++
        padTo 16 (if o.kv then o.key else leBytes 8 o.start) }
    else { base with
      opcode := 0x13, localAddr := region.base + envs, length := region.length - envs
      args := leBytes 8 entry ++ leBytes 4 (first + o.targetOps.idxOf 0x11) ++ leBytes 4 (place.offsets.getD i 0) ++
        leBytes 8 x.uid }

/-- The requests of a target chain (R186): those of each entry, and the notification. -/
def targetChain (x : MigJob) (place : TargetPlace) (envs : Nat) : List Bytes → Nat → Nat → List WorkReq
  | [], _, _ => [{ (default : WorkReq) with opcode := 0x3F }]
  | e :: es, i, first =>
    targetEntry x place envs i first e ++ targetChain x place envs es (i + 1) (first + (objOfEntry e).targetOps.length)

/-- MANIFEST_PLAN: the entries go into the chain's manifest buffer behind the space of a header, the target chain is armed,
and a REQUEST with the source's tag is sent (R186; notes/assumptions/19.md). -/
def execManifestPlan (job peerSlot : Fin 16) (window : Nat) (entries : List Bytes) (trigger : Fin 16384) (place : TargetPlace)
    (s : State) : Result :=
  let j := job.val
  let s := takeManifest j s
  let x := jobOf s j
  if !x.target ∨ !migBusy s j ∨ 60 < entries.length ∨ !regionFree x place.region ∨ (s.xpt.triggers.at trigger.val).state ≠ 0 then
    .next s
  else
    let envs := entries.foldl (fun n e => max n (ofBe (slice e 176 8) + ofBe (slice e 184 4))) 0
    let s := hbmWrite (place.mbuf + 64) entries.flatten s
    let s := armWindow trigger.val (migTag 2 j window) x.qpn place.first (64 + 256 * entries.length) place.mbuf
      (targetChain x place envs entries 0 0) s
    let s := onJob j (fun x => { x with
      windows := x.windows ++ [⟨window, trigger.val, place.region, entries.map objOfEntry⟩] }) s
    .next (sendManifest j 2 window 0 [] (some (migTag 1 peerSlot.val window)) s)

/-- The data of MIG_OBJ_RETRY and MIG_OBJ_FAILED (R193). -/
def migObjData (j st window : Nat) : Nat := j * 2 ^ 32 + st * 2 ^ 28 + window % 2 ^ 24

/-- An object is failed: reported, and with FAIL_STOP the job fails (R191). -/
def objFailed (j st window : Nat) (o : MigObj) (s : State) : State :=
  let s := emit 0x583 0x808 3 (migObjData j st window) s
  let s := onJob j (fun x => { x with failed := min 65535 (x.failed + 1), report := x.report ++ [o] }) s
  if s.fld F.FIX_MIG_CFG_FAIL_STOP = 1 then stopJob j 6 s else s

/-- An object goes back to be planned, in the order of JSEQ. -/
def replan (j : Nat) (o : MigObj) (s : State) : State := onJob j (fun x => { x with todo := objInsert o x.todo }) s

/-- One entry of an ACK (R191). -/
def ackEntry (j window : Nat) (s : State) (p : MigObj × Nat) : State :=
  let (o, st) := p
  let retry := fun (o : MigObj) (s : State) => replan j o (emit 0x583 0x807 1 (migObjData j st window) s)
  match st with
  | 0 => onJob j (fun x => { x with objs := x.objs + 1 }) s
  | 1 => if o.forced then objFailed j st window o (auditMismatch o.extent s) else retry { o with forced := true } s
  | 2 | 3 =>
    if o.retries < s.fld F.FIX_MIG_CFG_RETRIES then retry { o with retries := o.retries + 1 } s else objFailed j st window o s
  | 5 => stopJob j 6 (replan j o s)
  | 6 => objFailed j st window o s
  | _ => replan j o s

/-- MANIFEST_ACK: the window is over; each entry is committed, retried, replanned or failed, and the pass may end (R191,
R192). -/
def execManifestAck (job : Fin 16) (window : Nat) (statuses : List Nat) (s : State) : Result :=
  let j := job.val
  let s := takeManifest j s
  let x := jobOf s j
  match x.windows.find? fun w => w.number == window with
  | none => .next s
  | some w =>
    if x.target ∨ !migBusy s j then .next s
    else
      let s := onJob j (fun x => { x with windows := x.windows.filter fun v => v.number != window }) s
      let s := (w.objs.zip statuses).foldl (ackEntry j window) s
      .next (passEnd j 64 s)

/-- MANIFEST_VOID: the target disarms its chain and replies with an ACK of the same statuses (R186). -/
def execManifestVoid (job : Fin 16) (window : Nat) (statuses : List Nat) (s : State) : Result :=
  let j := job.val
  let s := takeManifest j s
  match (jobOf s j).windows.find? fun w => w.number == window with
  | none => .next s
  | some w =>
    if !(jobOf s j).target ∨ !migBusy s j then .next s
    else
      let s := if (s.xpt.triggers.at w.trigger).state = 1 then onTrigger w.trigger (fun _ => default) s else s
      let s := onJob j (fun x => { x with windows := x.windows.filter fun v => v.number != window }) s
      .next (sendStatuses j 4 window statuses s)

/-- MANIFEST_FINAL: the target's job is DONE and its namespace Optimized (R192). -/
def execManifestFinal (job : Fin 16) (s : State) : Result :=
  let j := job.val
  let s := takeManifest j s
  if (jobOf s j).target ∧ migBusy s j then .next (migState j 5 (migAna j false s)) else .next s

/-- Firmware registers a landing region for the connection's tenant: a FREE entry becomes VALID for remote writes (R111). -/
def registerRegion (tenant : Nat) (s : State) (r : Landing) : State :=
  if (s.xpt.regions.at r.index).state ≠ 0 then s
  else onRegion r.index (fun _ => { (default : Region) with
    base := r.base, length := r.length, key := r.key, access := 1, tenant := tenant, state := 1 }) s

/-- MIG_REGIONS_REGISTERED: SETUP becomes COPYING. The target registers the regions and its namespace is Inaccessible; the
source scans the entries up to the scan JSEQ (R111, R192). -/
def execMigRegionsRegistered (job : Fin 16) (regions : List Landing) (s : State) : Result :=
  let j := job.val
  if (jobOf s j).state ≠ 1 then .next s
  else
    let s := migState j 2 (onJob j (fun x => { x with regions := regions, passJseq := 0 }) s)
    let x := jobOf s j
    if x.target then .next (migAna j true (regions.foldl (registerRegion (ctxOf s x.qpn).tenant) s))
    else .next (passEnd j 64 (startPass j s))

/-- An order through FIX_MIG_CTRL: none to a job in IDLE, DONE, FAILED or ABORTED (R194). -/
def migOrder (path : Fin 5) (session : Nat) (value : Word) (order : Nat) (run : Nat → State → State) (s : State) : State :=
  let (s, go) := writeGate path.val session (F.FIX_MIG_CTRL_ORDER.addr 0) value s
  let j := bitsOf value.toNat 3 0
  if go && bitsOf value.toNat 31 28 == order && migBusy s j then run j s else s

/-- A cut-over order: taken when the pass in progress ends (R192). -/
def orderCutover (j : Nat) (s : State) : State := passEnd j 64 (onJob j (fun x => { x with ordered := true }) s)

/-- MIG_CUTOVER_ORDER (R192, R194). -/
def execMigCutoverOrder (path : Fin 5) (session : Nat) (value : Word) (s : State) : Result :=
  .next (migOrder path session value 1 orderCutover s)

/-- MIG_ABORT_ORDER (R192, R194). -/
def execMigAbortOrder (path : Fin 5) (session : Nat) (value : Word) (s : State) : Result :=
  .next (migOrder path session value 2 (fun j s => stopJob j 7 s) s)

/-- CUTOVER_TIMEOUT: the job returns to CATCHUP and the source is Optimized again (R192). -/
def execCutoverTimeout (job : Fin 16) (s : State) : Result :=
  let j := job.val
  if (jobOf s j).state = 4 ∧ !(jobOf s j).target then
    .next (emit 0x583 0x809 2 (j * 2 ^ 32) (migAna j false (migState j 3 s)))
  else .next s

/-- MIG_CONNECTION_ERROR_TIMEOUT: the job whose connection is in ERROR fails (R192). -/
def execMigConnectionErrorTimeout (job : Fin 16) (s : State) : Result :=
  let j := job.val
  if migBusy s j ∧ (ctxOf s (jobOf s j).qpn).state = 5 then .next (stopJob j 6 s) else .next s

end Sys2Proof.Machine
end

