-- ==== Sys2Proof/Machine/Ports.lean ====
section
/-! DEFINITION. Received frames, links, flow control, time stamps, wake filters and TCAM entries: FRAME_RECEIVED to
CLS_RULE_INVALIDATE (R219 to R248, with the admission of R256 to R263 and R268 to R269). -/

namespace Sys2Proof.Machine

/-! Admission and queueing of a stored frame. -/

/-- The marking decision of R269 on a queue whose depth with the frame is `d`: none where it is by chance, with the numerator
and denominator of the probability. -/
def markRule (e : QEntry) (d : Nat) : Bool ⊕ (Nat × Nat) :=
  if d < e.ecnMin then .inl false
  else if e.ecnMax < d then .inl true
  else .inr (e.pmax * (d - e.ecnMin), 256 * (e.ecnMax - e.ecnMin + 1))

/-- Decide at enqueue whether a transit frame is marked (R269). -/
def markFrame (q : Nat) (d : Desc) (s : State) : Bool × State :=
  let e := queueEntry s q
  if s.fld F.TMG_CFG_ECN_EN = 1 ∧ e.ecnEn then
    match markRule e (queueDepth s q + d.cells.length) with
    | .inl m => (m, s)
    | .inr (n, den) => (decide (s.freeVal.toNat % den < n), s.drawn)
  else (false, s)

/-- A frame admitted to a queue, marked or not: a mark is counted, and taken by a frame whose ECN field allows it (R226, R269). -/
def marked (q : Nat) (d : Desc) (s : State) : Desc × State :=
  let (m, s) := markFrame q d s
  let s := if m then countOnly (portSrc (queuePort s q)) 0x403 s else s
  ({ d with ecn := m && (ecnField d.frame == 1 || ecnField d.frame == 2) }, s)

/-- Put an admitted frame into a queue (R258, R269) and let its port start. -/
def enqueueFrame (q : Nat) (d : Desc) (s : State) : State :=
  let (d, s) := marked q d s
  kick (queuePort s q) (s.onNet fun n => { n with queues := n.queues.upd q (· ++ [{ d with gts := s.now }]) })

/-- The largest frame of a port (R224). -/
def maxFrame (s : State) (lport : Nat) : Nat := s.fldI F.PRT_LPORT_CFG_MAX_FRAME lport

/-- A frame forwarded to one port (R258, R261). -/
def forward (action : Nat) (yellow : Bool) (d : Desc) (s : State) : State :=
  let dest := actDest action
  let q := actQueue action dest
  if maxFrame s dest < d.len then releaseDesc d (countOnly (portSrc dest) 0x308 s)
  else if !admits s q d.cells.length yellow then releaseDesc d (countOnly (portSrc (queuePort s q)) 0x401 s)
  else enqueueFrame q d (d.cells.foldl (fun s h => giveCell 2 1 h s) s)

/-- Why a multicast copy is dropped, by the field that counts it (R263), in the order of the table. -/
def copyDrop (s : State) (action member : Nat) (yellow : Bool) (d : Desc) : Option Fld :=
  let q := actQueue action member
  let limit := s.fldI F.TMG_PORT_CFG_MAX_GATE_WAIT_US member * 1000
  if !linkIsUp s member then some F.SWC_PORT_DROP_MC_DOWN
  else if !admits s q d.cells.length yellow then some F.SWC_PORT_DROP_MC_LIMIT
  else if limit ≠ 0 then
    match gateWait s member (queueTc s q) d.len with
    | some t => if limit < t then some F.SWC_PORT_DROP_MC_GATE else none
    | none => some F.SWC_PORT_DROP_MC_GATE
  else none

/-- One copy of a multicast frame (R263). -/
def copyTo (action : Nat) (yellow : Bool) (d : Desc) (s : State) (member : Nat) : State :=
  match copyDrop s action member yellow d with
  | some f => releaseDesc d (countOnly (portSrc member) 0x30A (s.bumpI f member 1))
  | none =>
    if maxFrame s member < d.len then releaseDesc d (countOnly (portSrc member) 0x308 s)
    else enqueueFrame (actQueue action member) d s

/-- A frame of KIND 2 (R263). -/
def multicast (action : Nat) (yellow : Bool) (d : Desc) (s : State) : State :=
  let g := s.net.groups.at (actGroup action)
  let members := (List.range 64).filter fun m => bitAt g.members m && (m != d.lport || g.self_)
  if !g.valid then releaseDesc d (countOnly (portSrc d.lport) 0x401 s)
  else if members = [] then releaseDesc d s
  else members.foldl (copyTo action yellow d) (d.cells.foldl (fun s h => giveCell 2 members.length h s) s)

/-- What a frame's action does with it once it is stored (R240). -/
def actOn (index action : Nat) (dei : Bool) (d : Desc) (s : State) : State :=
  let (colour, s) := if actPolice action then police (actPolicer action) d.len dei s else (.green, s)
  if colour = .red then releaseDesc d (countOnly (portSrc d.lport) 0x402 s)
  else
    match actKind action with
    | 1 => forward action (colour == .yellow) d s
    | 2 => multicast action (colour == .yellow) d s
    | 3 => releaseDesc d ((d.cells.foldl (fun s h => giveCell 3 1 h s) s).send (.toXpt d.lport d.frame))
    | 4 => punt (actReason action) index d s
    | _ => releaseDesc d s

/-- Store a received frame whole (R250, R257, R259), then go on with it. A class 0 frame that finds no free cell waits. -/
def storeFrame (lport prio : Nat) (class0 : Bool) (f : Bytes) (go : Desc → State → State) (s : State) : State :=
  let len := f.length + 4
  let n := cellsFor len
  if !class0 ∧ freeCells s + 1 ≤ c0Floor s + n then countOnly (portSrc lport) 0x401 (squeeze s)
  else
    let counted := pfcEnabled s lport prio
    if counted ∧ !headroom s lport prio n then s.bumpI F.SWC_PFC_STAT_HDRM_DROPS lport 1
    else
      match allocChain lport 1 1 n s with
      | none =>
        if class0 then
          emit 0x531 0x306 3 (freeCells s) (s.onNet fun x => { x with waitC0 := x.waitC0 ++ [(lport, f)] })
        else countOnly (portSrc lport) 0x401 (squeeze s)
      | some (hs, s) =>
        let s := if counted then setRxCells lport prio (s.net.rxCells.at (8 * lport + prio) + n) s else s
        go ⟨f, len, hs, lport, prio, counted, s.now, false⟩ s

/-- May a frame leave by cut-through (R261), so that its head has left when its last byte shows a failure: its port is free
and nothing is queued before it? -/
def cutsThrough (s : State) (lport : Nat) (f : Bytes) (w : Walk) (action : Nat) : Bool :=
  let dest := actDest action
  let q := actQueue action dest
  s.fld F.SWC_CFG_CT_EN == 1 && actKind action == 1 && actCut action && !w.scan &&
    decide (portMbps s dest ≤ portMbps s lport) && decide (maxFrame s lport ≤ maxFrame s dest) &&
    (!listActive s dest || alwaysOpen (actTc action) (activeList s dest)) &&
    decide (max 1 (s.fld F.SWC_CFG_CT_START_CELLS) ≤ cellsFor (f.length + 4)) &&
    linkIsUp s dest && (s.net.line.at dest).isNone && framesIn s q == [] && admits s q (cellsFor (f.length + 4)) false &&
    !overdrawn (queueEntry s q) (s.net.shaper.at q) s.now && !bitAt (s.fldI F.PRT_LPORT_STAT_PAUSED dest) (queueTc s q)

/-- A frame that fails check 1 or 2 after its head has left is ended with the inverse FCS on its egress port (R262): every
stored byte is sent, at most MAX_FRAME, once the frame has passed its policer and its queue's limit (R258, R268). -/
def stompTransit (lport : Nat) (f : Bytes) (s : State) : State :=
  match parse s f with
  | .inl _ => s
  | .inr w =>
    match lookup s (lookupKey s lport f w) with
    | none => s
    | some (_, action) =>
      if cutsThrough s lport f w action then
        let dest := actDest action
        let q := actQueue action dest
        let sent := f.take (maxFrame s lport)
        let d : Desc := { (default : Desc) with frame := sent, len := sent.length + 4, lport := lport }
        let (colour, s) := if actPolice action then police (actPolicer action) d.len (bitAt (w.tag.getD 0) 12) s else (.green, s)
        if colour = .red then countOnly (portSrc lport) 0x402 s
        else if !admits s q (cellsFor d.len) (colour == .yellow) then countOnly (portSrc (queuePort s q)) 0x401 s
        else
          let (d, s) := marked q d (chargeItems q (queueNode s q) d.len s)
          stompLine dest ((s.onNet fun n => { n with line := n.line.put dest (some d) }).send (.frame dest d.sent))
      else s

/-- A receive failure counted on its port (R224). -/
def rxFail (lport event : Nat) (field : Fld) (s : State) : State :=
  countOnly (portSrc lport) event (s.bumpI field lport 1)

/-- Pauses and releases of a received PFC frame (R227): a timer of 0 releases its priority. A unit in PS4 honours none. -/
def applyPfc (lport : Nat) (timers : List (Nat × Nat)) (s : State) : State :=
  if s.cmd.ps = 4 ∨ !linkIsUp s lport then s
  else
    let named := timers.filter fun x => pfcEnabled s lport x.1
    let paused := named.foldl (fun b x => setBit b x.1 (x.2 != 0)) (s.fldI F.PRT_LPORT_STAT_PAUSED lport)
    kick lport (s.setFldI F.PRT_LPORT_STAT_PAUSED lport paused)

/-- The timers that a PFC frame names: the class enable vector at byte 16 and eight times from byte 18 (IEEE 802.1Qbb). -/
def pfcTimers (f : Bytes) : List (Nat × Nat) :=
  ((List.range 8).filter fun p => bitAt (half f 16) p).map fun p => (p, half f (18 + 2 * p))

/-- A frame that passes checks 1 and 2 and is no control frame: parsed, looked up, and checked further (R224). -/
def classifyFrame (lport : Nat) (f : Bytes) (s : State) : State :=
  match parse s f with
  | .inl reason => storeFrame lport 0 false f (punt reason 0xFFFF) s
  | .inr w =>
    let tci := w.tag.getD 0
    let prio := bitsOf tci 15 13
    if w.badIp then rxFail lport 0x108 F.PRT_LPORT_RXERR_IPCSUM s
    else
      match lookup s (lookupKey s lport f w) with
      | none => storeFrame lport prio false f (punt 0 0xFFFF) s
      | some (index, action) =>
        if actKind action = 3 ∧ !(udpSumOk f && icrcOk f) then rxFail lport 0x109 F.PRT_LPORT_RXERR_L4 s
        else storeFrame lport prio (actKind action == 3 && actTc action == 7) f (actOn index action (bitAt tci 12)) s

/-- A Sync message in the servo's domain on the port of the PTP servo makes the PTP source present (R25, R229). -/
def hearPtp (lport : Nat) (f : Bytes) (s : State) : State :=
  match ptpEvent f with
  | some (p, 0) =>
    if s.fld F.PRT_PTP_CFG_ENABLE = 1 ∧ s.fld F.PRT_PTP_CFG_LPORT = lport ∧ s.fld F.PRT_PTP_CFG_DOMAIN = byteAt f (p + 4) then
      sourcePresent 1 s
    else s
  | _ => s

/-- FRAME_RECEIVED (R224, R227, R228, R235): `frame` runs from the destination address to the last byte before the FCS, which
passes or not. -/
def execFrameReceived (lport : Fin 64) (frame : Bytes) (fcsOk : Bool) (s : State) : Result :=
  let n := lport.val
  let len := frame.length + 4
  if !linkIsUp s n then .next s
  else if s.cmd.ps = 4 then
    .next (if fcsOk then wakeFrame n frame s
      else s.onNet fun x => { x with wakeDropped := x.wakeDropped.upd (n / 4) (· + 1) })
  else if !fcsOk then .next (rxFail n 0x106 F.PRT_LPORT_RXERR_FCS (stompTransit n frame s))
  else if len < 64 ∨ maxFrame s n < len then .next (rxFail n 0x107 F.PRT_LPORT_RXERR_LENGTH (stompTransit n frame s))
  else if half frame 12 = 0x8808 ∧ half frame 14 = 0x0001 then .next (countOnly (portSrc n) 0x10A s)
  else if half frame 12 = 0x8808 ∧ half frame 14 = 0x0101 then .next (applyPfc n (pfcTimers frame) s)
  else .next (classifyFrame n frame (hearPtp n frame s))

/-! Links (R221, R222). -/

/-- LINK_UP: a port that its mode gives comes up at the mode's rate; in PS4 only a wake port's link can (R234), and none while
the unit has stood down or is fenced, its network ports off (R357). -/
def execLinkUp (lport : Fin 64) (s : State) : Result :=
  let n := lport.val
  if !portExists s n ∨ linkIsUp s n ∨ 7 ≤ s.fld F.RED_STAT_STATE ∨ (s.cmd.ps = 4 ∧ !(wakePorts (wakeWord s 0x1000040)).contains (n / 4)) then .next s
  else
    let s := (s.setFldI F.PRT_LPORT_STAT_LINK_UP n 1).setFldI F.PRT_LPORT_STAT_SPEED n (speedCode s n)
    .next (kick n (emit (portSrc n) 0x101 1 (speedCode s n) s))

/-- LINK_DOWN (R221): cause 0 signal loss or 1 fault; a frame partly received counts as an FCS failure. -/
def execLinkDown (lport : Fin 64) (cause : Fin 2) (partialFrame : Bool) (s : State) : Result :=
  let n := lport.val
  if !linkIsUp s n then .next s
  else .next (loseLink n cause.val (if partialFrame then rxFail n 0x106 F.PRT_LPORT_RXERR_FCS s else s))

/-- FEC_DEGRADED (R222). -/
def execFecDegraded (lport : Fin 64) (codewords : Nat) (s : State) : Result :=
  let n := lport.val
  if !portExists s n ∨ codewords < 16 then .next s
  else .next (emit (portSrc n) 0x103 2 (min codewords 65535) (s.setFldI F.PRT_LPORT_STAT_FEC_DEGRADED n 1))

/-- FEC_DEGRADED_CLEARED (R222). -/
def execFecDegradedCleared (lport : Fin 64) (s : State) : Result :=
  .next (s.setFldI F.PRT_LPORT_STAT_FEC_DEGRADED lport.val 0)

/-! Priority flow control (R227, R228). -/

/-- PFC_FRAME_RECEIVED: the timers it names. -/
def execPfcFrameReceived (lport : Fin 64) (timers : List (Fin 8 × Nat)) (s : State) : Result :=
  .next (applyPfc lport.val (timers.map fun x => (x.1.val, x.2)) s)

/-- PFC_PAUSE_EXPIRY: the priority may send again. -/
def execPfcPauseExpiry (lport : Fin 64) (prio : Fin 8) (s : State) : Result :=
  let n := lport.val
  .next (kick n (s.setFldI F.PRT_LPORT_STAT_PAUSED n (setBit (s.fldI F.PRT_LPORT_STAT_PAUSED n) prio.val false)))

/-- PFC_REFRESH: the frame of a priority that is held off is sent again. -/
def execPfcRefresh (lport : Fin 64) (prio : Fin 8) (s : State) : Result :=
  let n := lport.val
  if bitAt (s.fldI F.SWC_PFC_STAT_XOFF n) prio.val ∧ s.cmd.ps ≠ 4 then .next (s.send (.pfc n prio.val true (pfcFrame s n prio.val true))) else .next s

/-! Transmission and time stamps (R229 to R232, R266). -/

/-- Is a Sync message stamped as it leaves, with no entry in the FIFO (R231)? One-step operation is over Layer 2 and UDP/IPv4. -/
def oneStep (s : State) (f : Bytes) (msgType : Nat) : Bool :=
  s.fld F.PRT_PTP_CFG_ONE_STEP == 1 && !isIpv6 f && msgType == 0

/-- A two-step transmit time stamp enters its port's FIFO of 16 entries (R232). -/
def pushStamp (lport : Nat) (t : TxStamp) (s : State) : State :=
  if 16 ≤ (s.net.stamps.at lport).length then emit (portSrc lport) 0x104 2 (t.seqId % 65536) s
  else s.onNet fun n => { n with stamps := n.stamps.upd lport (· ++ [t]) }

/-- A PTP event message that the unit itself sends leaves: in one-step operation a Sync message is stamped; of every other one the
time stamp enters the FIFO, with its sequenceId, messageType and domainNumber (R229 to R232). No other frame is stamped. -/
def sendPtp (lport : Nat) (f : Bytes) (s : State) : State :=
  match ptpEvent f with
  | none => s
  | some (p, m) =>
    if oneStep s f m then s.send (.ptp lport (completeFrame false (stampSync f p s.now)))
    else pushStamp lport ⟨s.now, half f (p + 30), m, byteAt f (p + 4)⟩ (s.send (.ptp lport (completeFrame false f)))

/-- The frame on a line ends, with the FCS over its bytes as they left or with its inverse (R225, R226, R262). -/
def endLine (lport : Nat) (d : Desc) (s : State) : State :=
  let fcs := crc32 d.sent
  let s := s.send (.fcs lport (if s.net.stomp.at lport then 2 ^ 32 - 1 - fcs else fcs))
  releaseDesc d (s.onNet fun x => { x with line := x.line.put lport none, stomp := x.stomp.put lport false })

/-- FRAME_TRANSMITTED: the frame on the line ends and is done with, a PTP event message of the unit's own leaves, and the next
frame starts. -/
def execFrameTransmitted (lport : Fin 64) (ptp : Option Bytes) (s : State) : Result :=
  let n := lport.val
  let s := match s.net.line.at n with
    | some d => endLine n d s
    | none => s
  let s := match ptp with
    | some f => sendPtp n f s
    | none => s
  .next (kick n s)

/-- The words of PRT_TS_DATA, and EMPTY (R247). -/
def putStampWords (w0 w1 w2 w3 empty : Nat) (s : State) : State :=
  let words : List (Nat × Nat) := [(0x1000050, w0), (0x1000054, w1), (0x1000058, w2), (0x100005C, w3)]
  let s := { s with regs := words.foldl (fun (r : Tab Word) (x : Nat × Nat) => setRawWord r x.1 (BitVec.ofNat 32 x.2)) s.regs }
  s.setFld F.PRT_TS_CTRL_EMPTY empty

/-- PRT_TS_CTRL (R232): the oldest entry of a port's FIFO moves into PRT_TS_DATA. -/
def execPrtTsCtrl (path : Fin 5) (session : Nat) (value : Word) (s : State) : Result :=
  let (s, go) := writeGate path.val session (F.PRT_TS_CTRL_LPORT.addr 0) value s
  if !go then .next s
  else
    let lport := bitsOf value.toNat 5 0
    let s := s.setFld F.PRT_TS_CTRL_DONE 1
    match s.net.stamps.at lport with
    | [] => .next (putStampWords 0 0 0 0 1 s)
    | t :: rest =>
      .next (putStampWords (t.gts % 2 ^ 32) (t.gts / 2 ^ 32) (t.seqId % 65536 * 65536 + t.msgType % 16 * 4096 + t.domain % 256)
        (2 ^ 31 + lport) 0 (s.onNet fun n => { n with stamps := n.stamps.put lport rest }))

/-- WAKE_MATCH (R235): a frame with a good FCS received in PS4. -/
def execWakeMatch (lport : Fin 64) (frame : Bytes) (s : State) : Result :=
  if s.cmd.ps = 4 ∧ linkIsUp s lport.val then .next (wakeFrame lport.val frame s) else .next s

/-! TCAM entries (R241). -/

/-- Words `i` on of CLS_RULE_DATA as one number, the first word lowest. -/
def ruleWords (s : State) (i : Nat) : Nat → Nat
  | 0 => 0
  | n + 1 => s.fldI F.CLS_RULE_DATA_DATA i + 2 ^ 32 * ruleWords s (i + 1) n

/-- CLS_RULE_DATA with `n` words of a number from element `i` on. -/
def putRuleWords (v i : Nat) : Nat → State → State
  | 0, s => s
  | n + 1, s => putRuleWords (v / 2 ^ 32) (i + 1) n (s.setFldI F.CLS_RULE_DATA_DATA i (v % 2 ^ 32))

/-- CLS_RULE_READ: the entry is read into CLS_RULE_DATA. -/
def execClsRuleRead (path : Fin 5) (session : Nat) (value : Word) (s : State) : Result :=
  let (s, go) := writeGate path.val session (F.CLS_RULE_CTRL_OP.addr 0) value s
  if !go then .next s
  else
    let e := s.net.tcam.at (bitsOf value.toNat 15 0)
    let s := putRuleWords e.value.toNat 0 20 (putRuleWords e.mask.toNat 20 20 (putRuleWords e.action.toNat 40 2 s))
    .next (s.setFld F.CLS_RULE_STAT_VALID (b2n e.valid))

/-- A write or invalidation of a TCAM entry: refused under the image lock, else done at once with RULE_WRITTEN. -/
def changeRule (path session op : Nat) (value : Word) (e : TcamEntry → TcamEntry) (s : State) : State :=
  let i := bitsOf value.toNat 15 0
  if s.locked then refuse path session (F.CLS_RULE_CTRL_OP.addr 0) 2 (s.setFld F.CLS_RULE_STAT_REFUSED 1)
  else emit 0x522 0x202 0 (op * 65536 + i) (s.onNet fun n => { n with tcam := n.tcam.upd i e })

/-- CLS_RULE_WRITE: value, mask and action together, from CLS_RULE_DATA. -/
def execClsRuleWrite (path : Fin 5) (session : Nat) (value : Word) (s : State) : Result :=
  let (s, go) := writeGate path.val session (F.CLS_RULE_CTRL_OP.addr 0) value s
  if !go then .next s
  else
    let e : TcamEntry := ⟨true, BitVec.ofNat 640 (ruleWords s 0 20), BitVec.ofNat 640 (ruleWords s 20 20),
      BitVec.ofNat 64 (ruleWords s 40 2)⟩
    .next (changeRule path.val session 2 value (fun _ => e) s)

/-- CLS_RULE_INVALIDATE. -/
def execClsRuleInvalidate (path : Fin 5) (session : Nat) (value : Word) (s : State) : Result :=
  let (s, go) := writeGate path.val session (F.CLS_RULE_CTRL_OP.addr 0) value s
  if !go then .next s
  else .next (changeRule path.val session 3 value (fun e => { e with valid := false }) s)

end Sys2Proof.Machine
end

