-- ==== Sys2Proof/Machine/OpsReplica.lean ====
section
/-! DEFINITION. The replica (R348, R352, R367): forming an epoch record, applying one in Heel, and the objects a
resynchronisation copies. -/

namespace Sys2Proof.Machine

/-! Forming a record (R348, R349). -/

/-- The controller records of what changed since the last record. -/
def ctrlRecs (s : State) : List CtrlRec :=
  let made := (s.cmd.ctrls.filter fun e => s.red.ctrls.at e.1 != e.2).map fun e =>
    let old := s.red.ctrls.at e.1
    CtrlRec.ctrl (if !old.exists_ then 1 else if old.features != e.2.features then 3 else 2) e.1 e.2
  let gone := (s.red.ctrls.filter fun e => !(s.cmd.ctrls.at e.1).exists_).map fun e => CtrlRec.gone e.1
  let qMade := (s.cmd.queues.filter fun e => s.red.queues.at e.1 != e.2).map fun e =>
    CtrlRec.queueMade (e.1 / 256) (e.1 % 256) e.2
  let qGone := (s.red.queues.filter fun e => !(s.cmd.queues.at e.1).exists_).map fun e =>
    CtrlRec.queueGone (e.1 / 256) (e.1 % 256)
  gone ++ made ++ qGone ++ qMade

/-- A key record: the key padded to 64 bytes and wrapped under the pair key (R349, R368). -/
def keyRec (s : State) (k : KeySlot) : KeyRec :=
  ⟨k.typ, k.tenant, k.handle, k.keyGen, k.nsid, some (Config.kwWrap ((pairKeyOf s).getD []) (padTo 64 k.key))⟩

/-- Is a key stored: valid and not a session key (R287)? -/
def KeySlot.stored (k : KeySlot) : Bool := k.state == 1 && k.typ != 3

/-- The key records of what was generated, imported or destroyed since the last record. -/
def keyRecs (s : State) : List KeyRec :=
  let gone := (s.red.keys.filter fun e => e.2.stored &&
    ((s.cip.slots.at e.1).handle != e.2.handle || !(s.cip.slots.at e.1).stored)).map fun e =>
      (⟨e.2.typ, e.2.tenant, e.2.handle, e.2.keyGen, e.2.nsid, none⟩ : KeyRec)
  let made := (s.cip.slots.filter fun e => e.2.stored &&
    ((s.red.keys.at e.1).handle != e.2.handle || !(s.red.keys.at e.1).stored)).map fun e => keyRec s e.2
  gone ++ made

/-- A context without what a delta does not count as a change: its epoch and the acknowledgements held. -/
def Context.plain (c : Context) : Context := { c with epochSeq := 0, held := 0 }

/-- The contexts that changed since the last record. -/
def changedCtx (s : State) : List Nat :=
  ((s.xpt.ctx.filter fun e => e.2.plain != (s.red.ctx.at e.1).plain).map (·.1)) ++
    (s.red.ctx.filter fun e => (s.xpt.ctx.at e.1).state == 0).map (·.1)

/-- The objects as the record leaves them. -/
def snapshotObjects (s : State) : State :=
  s.onRed fun r => { r with ctrls := s.cmd.ctrls, queues := s.cmd.queues, ctx := s.xpt.ctx, keys := s.cip.slots
                            caps := [], commits := [], leaves := [] }

/-- EPOCH_SEQ of every changed context takes the epoch (R349). -/
def stampContexts (e : Nat) (s : State) : State :=
  (changedCtx s).foldl (fun s i => if (s.xpt.ctx.at i).state = 0 then s else
    s.onXpt fun x => { x with ctx := x.ctx.upd i fun c => { c with epochSeq := e % 2 ^ 32 } }) s

/-- LEASH_BACKLOG: four or more records are queued, and once more each time the count doubles (R351). -/
def sayBacklog (s : State) : State :=
  let n := s.red.backlog.length
  let s := (s.setFld F.RED_BACKLOG_QUEUED (min n 65535)).setFld F.RED_BACKLOG_MAX (min 65535 (max n (s.fld F.RED_BACKLOG_MAX)))
  if n < 4 then s.onRed fun r => { r with backlogSaid := 0 }
  else if s.red.backlogSaid = 0 ∨ 2 * s.red.backlogSaid ≤ n then
    emit 0x5E0 0xE10 2 (min n 65535) (s.onRed fun r => { r with backlogSaid := n })
  else s

/-- Form the record of an epoch and send it to every peer in HEEL or RESYNC (R348, R351). -/
def formRecord (e : Nat) (handover : Bool) (s : State) : State :=
  let s := stampContexts e s
  let rec_ : EpochRec := {
    epoch := e, handover := handover, role := role s, ctrls := ctrlRecs s, caps := s.red.caps, commits := s.red.commits
    deltas := (changedCtx s).map fun i => (i + 0x200000, s.xpt.ctx.at i), leaves := s.red.leaves, keys := keyRecs s }
  let acks := heldAcks s
  let (fresh, s) := freeBytes (24 * rec_.ctrls.length + 64 * rec_.caps.length) s
  let wire := recordWire s s.red.ctx fresh rec_
  let s := s.onXpt fun x => { x with ctx := x.ctx.map fun p => (p.1, { p.2 with held := 0 }) }
  let s := (peersInHeel s ++ joiners s).foldl (fun s r =>
    (recordFrames rec_ wire).foldl (fun s f => leashSend (linkTo s r) e f s) s) s
  let s := snapshotObjects (s.onRed fun r => { r with backlog := r.backlog ++ [⟨e, acks⟩] })
  sayBacklog s

/-! Applying a record (R352, R367). -/

/-- May an entry of a record be applied to an object: in Heel always, in RESYNC where the object has been copied? -/
def copiedObj (s : State) (kind id : Nat) : Bool := redState s == 4 || s.red.copied.contains (kind, id)

/-- Apply a controller record. -/
def applyCtrl (s : State) : CtrlRec → State
  | .ctrl _ id c => if copiedObj s 0 id then s.onCmd fun m => { m with ctrls := m.ctrls.put id c } else s
  | .gone id => if copiedObj s 0 id then s.onCmd fun m => { m with ctrls := m.ctrls.put id default } else s
  | .queueMade c q x =>
    if copiedObj s 1 (qKey c q) then s.onCmd fun m => { m with queues := m.queues.put (qKey c q) x } else s
  | .queueGone c q =>
    if copiedObj s 1 (qKey c q) then s.onCmd fun m => { m with queues := m.queues.put (qKey c q) default } else s

/-- Does a pending command match a controller, queue and command identifier? -/
def PendCmd.isFor (p : PendCmd) (cntlid sqid cid : Nat) : Bool :=
  p.cap.cntlid == cntlid && p.cap.sqid == sqid && p.cap.cid == cid

/-- Is a notice one of a pending command's messages? A notice of an earlier command with the same identifier was formed before the
capsule came (R350). -/
def PendCmd.told (p : PendCmd) (n : Notice) : Bool := p.isFor n.cntlid n.sqid n.cid && decide (p.cap.gtsIn ≤ n.gts)

/-- A capsule of a record is pending; a notice of KIND 3 or 4 that came before the record has marked it complete (R352). -/
def pendOf (s : State) (c : Capsule) : PendCmd :=
  let p : PendCmd := ⟨c, false, false⟩
  { p with done := s.red.notices.any fun n => decide (3 ≤ n.kind) && p.told n }

/-- Apply a context delta: notices of messages now acknowledged, and complete commands with none left, are done with. -/
def applyDelta (s : State) (d : Nat × Context) : State :=
  if copiedObj s 2 d.1 then
    let s := raiseHwm (s.onXpt fun x => { x with ctx := x.ctx.put (d.1 - 0x200000) d.2 })
    let open_ := fun (n : Notice) => n.qpn != d.1 || decide (psnSub (lastPsn n.psn n.packets) d.2.unaPsn < 2 ^ 23)
    let ns := s.red.notices.filter open_
    let left := fun (p : PendCmd) => !p.done || ns.any p.told
    s.onRed fun r => { r with notices := ns, pend := r.pend.filter left }
  else s

/-- Unwrap a key record into the own key store (R368): nothing where it does not open under the pair key. -/
def applyKey (s : State) (k : KeyRec) : State :=
  match k.wrapped with
  | none => match slotOf s k.tenant k.handle with | some i => freeKey i s | none => s
  | some w =>
    match Config.kwOpen ((pairKeyOf s).getD []) w, freeSlot s with
    | some key, some i =>
      let new : KeySlot := { (default : KeySlot) with
        typ := k.typ, state := 1, tenant := k.tenant, handle := k.handle, nsid := k.nsid, keyGen := k.keyGen
        seq := (s.cip.slots.at i).seq + 1, createGts := s.now, key := key.take (keyLen k.typ) }
      usedGen k.typ k.tenant k.keyGen (s.onCip fun c => { c with
        slots := c.slots.put i new
        entries := c.entries.put (entryKey k.tenant (k.handle % 64)) ⟨k.handle / 64, i + 1⟩ })
    | _, _ => s

/-- Do the own tables allow a run (R132, R134): rows of a set of the namespace not written yet, or of a new set? -/
def runAllowed (s : State) (nsid : Nat) (a : Alloc) : Bool :=
  let r := s.lay.sets.at a.set
  let g := nsGeom s nsid
  if r.state = .free then decide (a.firstRow + a.rows ≤ g.rows) && (newSetTest s g).isNone
  else r.nsid == nsid && r.state == .opened && decide (a.firstRow + a.rows ≤ g.rows) &&
    (List.range a.rows).all fun i => (r.rows.look (a.firstRow + i)).isNone

/-- The replica's sets follow a run: a new set is opened as R132 chooses its members, and its rows are taken. -/
def followRun (nsid : Nat) (s : State) (a : Alloc) : State :=
  let n := s.cmd.namespaces.at nsid
  let g := nsGeom s nsid
  let s :=
    if (s.lay.sets.at a.set).state = .free then
      let ms := ((ranking s).take (g.k + g.m)).map (memberOn s)
      onSet a.set (fun r => { (default : SetRec) with
        state := .opened, gen := r.gen + 1, geom := n.geom, nsid := nsid, members := ms }) (ms.foldl takeChunk s)
    else s
  let s := onSet a.set (fun r => { r with rowsUsed := max r.rowsUsed (a.firstRow + a.rows), lastWrite := s.now }) s
  s.onLay fun l => { l with extentNext := max l.extentNext (a.extent + 1) }

/-- A set of the replica whose rows are all used is sealed. -/
def sealFull (s : State) (id : Nat) : State :=
  if (s.lay.sets.at id).rowsUsed = (setGeom s id).rows ∧ (s.lay.sets.at id).state = .opened then
    onSet id (fun r => { r with state := .sealed, sealSent := true, sealDurable := true }) s
  else s

/-- Where the active unit's copies of a record lie in the rings, which the replica follows (R137, R158). -/
def placeCopies (blocks : Nat) : List Nat → State → State × List JCopy
  | [], s => (s, [])
  | d :: ds, s =>
    let pos := s.lay.ringPos.at d
    let pad := if ringBlocks < pos + blocks then ringBlocks - pos else 0
    let at_ := if pad = 0 then pos else 0
    let s := s.onLay fun l => { l with ringPos := l.ringPos.put d ((at_ + blocks) % ringBlocks) }
    let (s, cs) := placeCopies blocks ds s
    (s, ⟨d, true, at_, pad⟩ :: cs)

/-- A record of type 4 that another unit wrote gives a set its state, generation and members; the chunks follow (R133, R141). -/
def adoptMembers (r : JRec) (s : State) : State :=
  match r.setRec with
  | none => s
  | some (id, _, x) =>
    let old := s.lay.sets.at id
    if x.gen ≤ old.gen then s
    else
      let s := old.members.foldl releaseChunk s
      if x.state = .free then onSet id (fun _ => { (default : SetRec) with gen := x.gen }) s
      else
        x.members.foldl takeChunk (onSet id (fun q => { q with
          state := if q.state = .free then x.state else q.state, gen := x.gen, geom := x.geom, nsid := x.nsid
          rowsUsed := max q.rowsUsed x.rowsUsed, members := x.members }) s)

/-- A record of type 3 that another unit wrote: the set is sealed, with its rows used (R133, R141). -/
def adoptSeal (s : State) (a : Alloc) : State :=
  onSet a.set (fun q => { q with
    state := if q.state = .opened ∨ q.state = .sealing then .sealed else q.state, rowsUsed := max q.rowsUsed a.rows
    sealSent := true, sealDurable := true }) s

/-- Apply a record that has committed elsewhere to the own map, sets and journal. -/
def adoptRecord (r : JRec) (s : State) : State :=
  let (s, cs) := placeCopies r.blocks (copySlots s r.jseq) s
  let r := { r with committed := true, owner := none, copies := cs }
  let s := s.onLay fun l => { l with
    journal := l.journal ++ [r], jseqNext := max l.jseqNext (r.jseq + 1), map := r.entries.foldl mapApply l.map }
  match r.typ with
  | 3 => r.runs.foldl adoptSeal s
  | 4 => adoptMembers r s
  | 1 | 5 => r.sets.foldl sealFull (commitRuns r.jseq r.gts r.runs r.crcs s)
  | _ => s

/-- Apply a commit record (R352): KIND 3 drops its pending command. For the others the journal record is built from the
pending capsule and the own tables, its last four bytes are compared with RCRC, and a match is applied. The vote of R353. -/
def applyCommit (s : State) (c : CommitRec) : State × List Vote :=
  if c.kind = 3 then
    (s.onRed fun r => { r with pend := r.pend.filter fun p => !p.isFor c.cntlid c.sqid c.cid }, [])
  else if redState s = 3 ∧ !s.red.copied.contains (4, 0) then (s, [])
  else
    match s.red.pend.find? fun p => p.isFor c.cntlid c.sqid c.cid && !p.committed with
    | none => (s, if redState s = 3 then [] else [⟨c.jseq, 0, false⟩])
    | some p =>
      let ok := c.runs.all (runAllowed s p.cap.nsid)
      let t := if ok then c.runs.foldl (followRun p.cap.nsid) s else s
      let r := recordFor t p.cap c.runs c.crcs
      let r := { r with jseq := c.jseq, gts := c.gts, entries := r.entries.map fun e => { e with jseq := c.jseq } }
      let crc := recordCrc t r
      if ok ∧ crc = c.rcrc then
        let t := t.onRed fun x => { x with pend := x.pend.map fun q => if q = p then { q with committed := true } else q }
        (adoptRecord r t, [⟨c.jseq, crc, true⟩])
      else (s.onRed fun x => { x with disputed := x.disputed ++ [c.jseq] }, [⟨c.jseq, crc, false⟩])

/-- Apply the commit records of a record in order. -/
def applyCommits : List CommitRec → State → State × List Vote
  | [], s => (s, [])
  | c :: cs, s =>
    let (s, v) := applyCommit s c
    let (s, vs) := applyCommits cs s
    (s, v ++ vs)

/-- The last epoch sent or applied. -/
def lastEpoch (s : State) : Nat := s.fld F.RED_EPOCH_HI_EPOCH * 2 ^ 32 + s.fld F.RED_EPOCH_LO_EPOCH

/-- Apply a whole record (R352): the state and the votes of its ECHO. -/
def applyRecord (r : EpochRec) (s : State) : State × List Vote :=
  let s := r.ctrls.foldl applyCtrl s
  let s := s.onRed fun x => { x with pend := x.pend ++ r.caps.map (pendOf s) }
  let (s, vs) := applyCommits r.commits s
  let s := r.deltas.foldl applyDelta s
  let s := r.leaves.foldl addLeaf s
  let s := r.keys.foldl applyKey s
  (setEpoch r.epoch (mapPrune s), vs)

/-! Resynchronisation (R367). -/

/-- Every object that a resynchronisation copies, in the order of R367. -/
def bulkObjects (s : State) : List BulkObj :=
  (s.cmd.namespaces.map fun e => .ns e.1 e.2) ++ (s.lay.geoms.map fun e => .geom e.1 e.2) ++
    (s.lay.sets.map fun e => .set e.1 e.2) ++ (s.lay.drives.map fun e => .drive e.1 e.2) ++
    (s.lay.map.map fun e => .entry e) ++ ((s.xpt.ctx.filter fun e => e.2.state != 0).map fun e => .ctx e.1 e.2) ++
    (s.xpt.regions.map fun e => .region e.1 e.2) ++ (s.cmd.ctrls.map fun e => .ctrl e.1 e.2) ++
    (s.cmd.queues.map fun e => .queue e.1 e.2) ++ (s.cmd.queued.map fun c => .capsule c) ++
    ((entriesWhere s fun _ => true).map fun i => .capsule (entryOf s i).cap) ++
    ((s.fix.closed ++ s.fix.opened).flatMap fun b => b.all.map fun l => .leaf l) ++
    (s.fix.jobs.map fun e => .job e.1 e.2) ++
    ((s.cip.slots.filter fun e => e.2.stored).map fun e => .key (keyRec s e.2)) ++
    [.positions s.lay.jseqNext s.lay.extentNext s.lay.ringPos s.fix.lastSeq s.fix.prevHash s.fix.closedTo]

/-- Mark an object copied. -/
def markCopied (kind id : Nat) (s : State) : State :=
  s.onRed fun r => { r with copied := if r.copied.contains (kind, id) then r.copied else (kind, id) :: r.copied }

/-- Copy an object into the replica. -/
def copyObject (s : State) : BulkObj → State
  | .ns i n => s.onCmd fun c => { c with namespaces := c.namespaces.put i n }
  | .geom i g => s.onLay fun l => { l with geoms := l.geoms.put i g }
  | .set i r => s.onLay fun l => { l with
      sets := l.sets.put i r, ckpt := { l.ckpt with base := { l.ckpt.base with sets := l.ckpt.base.sets.put i r.recorded } } }
  | .drive i d => s.onLay fun l => { l with drives := l.drives.put i d }
  | .entry e => markCopied 4 0 (s.onLay fun l => { l with
      map := mapApply l.map e, ckpt := { l.ckpt with base := { l.ckpt.base with map := mapApply l.ckpt.base.map e } } })
  | .ctx i c => raiseHwm (markCopied 2 (i + 0x200000) (s.onXpt fun x => { x with ctx := x.ctx.put i c }))
  | .region i r => s.onXpt fun x => { x with regions := x.regions.put i r }
  | .ctrl i c => markCopied 0 i (s.onCmd fun m => { m with ctrls := m.ctrls.put i c })
  | .queue k q => markCopied 1 k (s.onCmd fun m => { m with queues := m.queues.put k q })
  | .capsule c => s.onRed fun r => { r with
      pend := if r.pend.any (·.isFor c.cntlid c.sqid c.cid) then r.pend else r.pend ++ [⟨c, false, false⟩] }
  | .leaf l => addLeaf s l
  | .job j x => s.onFix fun f => { f with jobs := f.jobs.put j x }
  | .key k => applyKey (match slotOf s k.tenant k.handle with | some i => freeKey i s | none => s) k
  | .positions j e ring q h t =>
    markCopied 4 0 ((s.onLay fun l => { l with
      jseqNext := j, extentNext := e, ringPos := ring
      ckpt := { l.ckpt with base := { l.ckpt.base with extentNext := e } } }).onFix fun f =>
      { f with lastSeq := q, prevHash := h, closedTo := t })

end Sys2Proof.Machine
end

