-- ==== Sys2Proof/Machine/Redundancy.lean ====
section
/-! DEFINITION. The redundancy commands of chapter 11: LEASH_UP to HANDOVER_DRAIN_LIMIT, and EPOCH_RECORD_SENT. -/

namespace Sys2Proof.Machine

/-- A frame that the header's tests accept runs its meaning. -/
def onFrame (h : LeashHdr) (run : State → State) (s : State) : Result :=
  let (s, ok) := leashIn h s
  .next (if ok then run s else s)

/-! Links (R343, R346). -/

/-- LEASH_UP: sequence numbers start afresh at both ends. -/
def execLeashUp (link : Fin 2) (role : Nat) (s : State) : Result :=
  let l := link.val
  if leashUp s l then .next s
  else
    let s := onLeash l (fun _ => default)
      ((s.setFldI F.RED_LINK_STAT_UP l 1).setFldI F.RED_LINK_STAT_PEER l (min role 7))
    .next (emit (0x5E1 + l) 0xE07 1 (role % 4) s)

/-- LEASH_LOCK_LOST. -/
def execLeashLockLost (link : Fin 2) (s : State) : Result := .next (leashDown link.val 1 s)

/-- LEASH_SILENCE. -/
def execLeashSilence (link : Fin 2) (s : State) : Result := .next (leashDown link.val 2 s)

/-- LEASH_RESEND_TIMEOUT: everything not acknowledged is sent again with RETX set; the sixteenth consecutive resend without
progress takes the link down. -/
def execLeashResendTimeout (link : Fin 2) (s : State) : Result :=
  let n := link.val
  let l := s.red.links.at n
  if !leashUp s n ∨ l.sent = [] then .next s
  else if 16 ≤ l.resends then .next (leashDown n 3 s)
  else
    let dst := (linkPeer s n).getD 3
    let s := (onLeash n (fun l => { l with resends := l.resends + 1 }) s).bumpI F.RED_LINK_STAT_RETX n 1
    .next (l.sent.foldl (fun s x =>
      s.send (.leash n x.1 l.rx true dst (epochNow s) x.2 (x.2.wire x.1 l.rx (role s) dst (epochNow s) true))) s)

/-- IDLE_FRAME_TIMER: the active unit's IDLE frames carry its GTS. -/
def execIdleFrameTimer (link : Fin 2) (s : State) : Result :=
  .next (leashSend link.val (epochNow s) (.idle (if groupActive s then some s.now else none)) s)

/-- IDLE_FRAME_RECEIVED: the active unit's GTS is a source of time (R25, R346). -/
def execIdleFrameReceived (h : LeashHdr) (gts : Option Nat) (s : State) : Result :=
  onFrame h (fun s =>
    match gts with
    | some g =>
      if groupActive s then s
      else
        let s := sourcePresent 3 s
        if s.ctl.gts.source = 3 then measureGts ((g : Int) - (s.now : Int)) false s else s
    | none => s) s

/-! Taking over (R362, R363). -/

/-- The contexts of NVMe connections in service. -/
def nvmeContexts (s : State) : List Nat :=
  s.xpt.ctx.keysWhere fun _ c => (c.state == 2 || c.state == 3 || c.state == 4) && !c.migration && c.sqid != 0xFFFF

/-- A copied context enters service: nothing is outstanding yet, and new messages take PSNs after its last notice, or from
UNA_PSN on (R122, R363). -/
def serveContext (s : State) (i : Nat) : State :=
  let una := (s.xpt.ctx.at i).unaPsn
  let next := (s.red.notices.filter fun n => n.qpn == i + 0x200000).foldl
    (fun m n => max m (psnSub (psnAdd n.psn n.packets) una)) 0
  s.onXpt fun x => { x with ctx := x.ctx.upd i fun c => { c with
    sends := [], kept := [], work := [], workSent := 0, resume := [], readsOut := 0, held := 0, spsn := psnAdd una next } }

/-- The station addresses that the image gives each port are written, and every address is announced (R223, R362 step 3). -/
def announce (s : State) : State :=
  let s := s.red.stations.foldl (fun s (e : Nat × Word) => { s with regs := setRawWord s.regs e.1 e.2 }) s
  s.red.addrs.foldl (fun s (e : Nat × Nat × Nat) =>
    let s := if e.2.1 = 0 then s else s.send (.gratuitousArp e.1 e.2.1 (arpFrame s e.1 e.2.1))
    if e.2.2 = 0 then s else s.send (.unsolicitedAdvert e.1 e.2.2 (advertFrame s e.1 e.2.2))) s

/-- Steps 2 to 4 of a takeover: cause 1 missed records, 2 dissent, 3 handover. A planned handover fences no unit. -/
def takeover (cause failed : Nat) (s : State) : State :=
  let s := s.onRed fun r => { r with
    probing := .none, takeoverCause := cause, failedRole := failed
    takeoverFrom := if cause = 1 then r.takeoverFrom else s.now }
  let s := boundEnter 1 (setRole 5 s)
  let s := if cause = 3 then s else setRoleBit F.RED_STAT_FENCED failed true (sendAll (.fence failed) s)
  let s := emit 0x5E0 0xE04 3 (cause * 16 + failed) s
  let s := announce s
  let s := (nvmeContexts s).foldl serveContext s
  let s := (s.xpt.ctx.keysWhere fun _ c => c.migration).foldl (fun s i => connError (i + 0x200000) 7 s) s
  startPreempt (migTakeover s)

/-- Records queued behind the vote or the quorum are tried again (R354, R355). -/
def onVotes (jseq : Nat) (s : State) : State :=
  match recOf s jseq with
  | none => s
  | some r =>
    let own := recordCrc s r
    let agree := r.votes.filter fun v => v.2 == own
    let against := r.votes.filter fun v => v.2 != own
    let dispute := fun (s : State) => standDown (emit 0x5E3 0xE0C 4 (jseq % 2 ^ 32) s)
    if !agree.isEmpty ∨ !needsVote s then
      let s := if r.durable then commitRecord jseq s else s
      if agree.isEmpty then s
      else (against.filter fun v => s.red.inQuorum.contains v.1).foldl (fun s v =>
        fencePeer 1 v.1 (emit 0x5E3 0xE09 3 (v.1 * 2 ^ 34 + jseq % 2 ^ 32) s)) s
    else
      match against with
      | [] => s
      | [_] => if s.red.inQuorum.length ≤ 1 then dispute s else s
      | a :: b :: _ =>
        if a.2 = b.2 then
          fenceSelf 1 (sendAll (.fence (role s)) (emit 0x5E3 0xE09 3 (role s * 2 ^ 34 + jseq % 2 ^ 32) s))
        else dispute s

/-- Every write that waits for a vote is tried again after the quorum has changed. -/
def retryVotes (s : State) : State :=
  ((s.lay.journal.filter fun r => !r.committed && r.durable && r.owner.isSome).map (·.jseq)).foldl (fun s j => onVotes j s) s

/-- A disputed record of the journal is corrected (R356): for each range or key it names, a record of type 5 restores the
mapping to an existing extent that the own map holds, and one of type 2 what it does not map. -/
def correctEntry (s : State) (e : MapEntry) : State :=
  let held := s.lay.map.filter fun x => x.nsid == e.nsid && x.kv == e.kv && !x.removed &&
    (if e.kv then x.key == e.key else decide (x.start < e.start + e.length) && decide (e.start < x.start + x.length))
  let kept := held.map fun x =>
    if e.kv then x
    else
      let lo := max x.start e.start
      x.cut lo (min (x.start + x.length) (e.start + e.length) - lo)
  let holes := held.foldl (fun ps x => ps.flatMap (·.minus x)) [{ e with removed := true, empty := false }]
  let rec_ := fun (typ : Nat) (es : List MapEntry) => { (default : JRec) with
    typ := typ, blocks := recBlocks es.length 0 0 0, nsid := e.nsid, entries := es, sets := (es.map (·.set)).eraseDups }
  let s := if kept = [] then s else submitRecord (rec_ 5 kept) s
  if holes = [] then s else submitRecord { rec_ 2 holes with sets := [] } s

/-- A pending command after the replay (R363). -/
def resumePending (s : State) (p : PendCmd) : State :=
  let c := p.cap
  let mine := fun (n : Notice) => p.told n
  let inv := invKey c.sgl
  if p.done ∧ !(s.red.notices.any fun n => mine n && n.kind == 2) then
    match s.red.notices.find? fun n => mine n && decide (3 ≤ n.kind) with
    | some n => sendNoticed n.qpn 0 (.response n.psn n.cid ⟨n.sct, n.sc, n.dnr⟩ n.dw0
        (if n.kind = 4 then some n.rkey else none)) n s
    | none => s
  else if p.committed ∧ !p.done then post c.cntlid c.sqid c.cid stOk 0 inv s
  else s.onCmd fun m => { m with queued := m.queued ++ [c] }

/-- A read request whose notice is left is sent again with its PSNs; its data is not wanted any more (R363). -/
def resendRead (s : State) (n : Notice) : State :=
  if n.kind = 1 ∧ !(s.cmd.queued.any fun c => c.cntlid == n.cntlid && c.sqid == n.sqid && c.cid == n.cid) then
    onCtx n.qpn (fun c => { c with readsOut := c.readsOut + 1 })
      (sendNoticed n.qpn readMark (.readRequest n.psn n.va n.rkey n.length) n s)
  else s

/-- One NAK PSN Sequence Error carrying EPSN on a connection in RTS (R362 step 6). -/
def nakContext (s : State) (i : Nat) : State :=
  let c := s.xpt.ctx.at i
  if c.state = 3 then
    (sendPacket (i + 0x200000) (.nakSequence c.epsn) s).onXpt fun x => { x with
      ctx := x.ctx.upd i fun c => { c with nakSent := true } }
  else s

/-- Pending commands in the order in which they are re-executed. -/
def pendInsert (p : PendCmd) : List PendCmd → List PendCmd
  | [] => [p]
  | q :: qs => if p.cap.gtsIn < q.cap.gtsIn then p :: q :: qs else q :: pendInsert p qs

/-- The newest checkpoint on the drives, by its GEN, its region and its CKPT_JSEQ, becomes the durable one: what the replica knows of
it is the state after its records up to that JSEQ (R143, R362). -/
def foundCkpt (c : Nat × Bool × Nat) (s : State) : State :=
  let t := tablesAt s c.2.2
  s.onLay fun l => { l with ckpt := { l.ckpt with
    gen := c.1, regionB := !c.2.1, durableGen := c.1, durableJseq := c.2.2, base := t } }

/-- The journal tail beyond the replica is applied in JSEQ order and OPEN sets are sealed; unit C is told the last epoch applied;
records that C disputed are corrected (R141, R356, R362 step 5). -/
def replayTail (tail : List JRec) (s : State) : State :=
  let key := fun i => ((driveAt s i).map (·.1)).getD (48 + i)
  let mine := ((tail.filter fun r => (recOf s r.jseq).isNone).map (foundRecord key)).foldl (fun l r => jseqInsert r l) []
  let s := (mine.filter fun r => !s.red.disputed.contains r.jseq).foldl (fun s r => adoptRecord r s) s
  let s := s.onLay fun l => { l with jseqNext := mine.foldl (fun m r => max m (r.jseq + 1)) l.jseqNext, replayEnded := true }
  let s := (setsIn s .opened).foldl (fun s id => startSeal id 4 s) s
  let s := (setsIn s .sealing).foldl (fun s id => sealIfResolved id s) s
  let s := if redMode s = 2 then sendTo 2 (.takeover (lastEpoch s)) s else s
  (mine.filter fun r => s.red.disputed.contains r.jseq).foldl (fun s r => r.entries.foldl correctEntry s) s

/-- The unit is active: the units that follow it are in HEEL, and the takeover is counted and measured, less the time spent
waiting on the drives alone (R362 step 6, R363). -/
def becomeActive (driveNs : Nat) (s : State) : State :=
  let old := s.red.failedRole
  let heel := (if redMode s = 2 then [2] else []) ++ (if s.red.takeoverCause = 3 then [old] else [])
  let s := s.onRed fun r => { r with inQuorum := heel, order := none, disputed := [] }
  let s := activeIs (some (role s)) (setRole 6 s)
  let s := countQuorum (heel.foldl (fun s r => setRoleBit F.RED_STAT_HEEL r true s) s)
  let s := s.bump F.RED_TAKEOVER_STAT_COUNT
  let s := s.setFld F.RED_TAKEOVER_STAT_LAST_US (min (2 ^ 20 - 1) ((s.now - s.red.takeoverFrom - driveNs) / 1000))
  if s.red.takeoverCause = 3 then sendTo old .handoverDone s else s

/-- Pending commands are answered or run again, the reads of notices are sent again, and each context sends its NAK (R356,
R363). -/
def resumePendings (s : State) : State :=
  let pend := s.red.pend.foldl (fun l p => pendInsert p l) []
  let s := s.onRed fun r => { r with pend := [] }
  let s := pend.foldl resumePending s
  let s := s.red.notices.foldl resendRead s
  snapshotObjects ((nvmeContexts s).foldl nakContext s)

/-- TAKEOVER_REPLAY_DONE: the journal tail beyond the replica is replayed, grants resume and pending commands are answered or
run again (R362 steps 5 and 6). `tail` are the records read, `ckpt` the newest checkpoint found (GEN, region B, CKPT_JSEQ), and
`driveNs` the time spent waiting on the drives alone. Drives that LAY has not taken up yet are handed to it (R150), and FIX takes
up the objects of the fixity store, `store` as they are read (R178). -/
def execTakeoverReplayDone (tail : List JRec) (ckpt : Option (Nat × Bool × Nat)) (store : List (Bytes × Bytes)) (driveNs : Nat)
    (s : State) : Result :=
  if redState s ≠ 5 then .next s
  else
    let s := replayTail tail s
    let s := match ckpt with | some c => foundCkpt c s | none => s
    .next (keepFloor (resumePendings (fixTakeover store (offerDrives (becomeActive driveNs s)))))

/-- TAKEOVER_DONE: every retransmitted message is acknowledged, or 1 ms has passed since step 2 (R362 step 7). -/
def execTakeoverDone (s : State) : Result :=
  if !bitAt s.cmd.boundStat 1 ∨ redState s ≠ 6 then .next s
  else
    let left := (s.red.notices.map (·.qpn)).eraseDups
    let s := s.onRed fun r => { r with notices := [] }
    let s := boundLeave 1 (left.foldl (fun s q => pump q (resumeSends q s)) s)
    .next (emit 0x5E0 0xE05 2 (s.fld F.RED_TAKEOVER_STAT_LAST_US) s)

/-! Epochs (R347 to R355). -/

/-- EPOCH_END: the record of the epoch that ends is formed and sent; every link has an IDLE frame with GTS in the epoch
(R346). A new epoch length takes effect at its boundary (R347). -/
def execEpochEnd (s : State) : Result :=
  let e := epochNow s - 1
  let s := if groupActive s then sendAll (.idle (some s.now)) s else s
  let s := if recordsRun s then formRecord e false s else s
  .next (match s.red.nextEpochUs with
    | some (us, from_) =>
      if from_ ≤ s.now then (s.setFld F.RED_MODE_EPOCH_US us).onRed fun r => { r with nextEpochUs := none } else s
    | none => s)

/-- EPOCH_RECORD_SENT: the oldest queued record has left for every peer; what it held is acknowledged (R122, R351). -/
def execEpochRecordSent (s : State) : Result :=
  match s.red.backlog with
  | [] => .next s
  | q :: rest =>
    let s := setEpoch q.epoch (sayBacklog (s.onRed fun r => { r with backlog := rest }))
    .next (sendAcks q.acks s)

/-- A peer's state and epoch as its frames tell them (R370). -/
def peerSeen (r st epoch : Nat) (s : State) : State :=
  if 3 ≤ r then s
  else (s.setFldI F.RED_PEER_STAT_STATE r st).setFldI F.RED_PEER_STAT_LAST_EPOCH r (epoch % 2 ^ 24)

/-- The replica enters HEEL at the record it has applied whole after the last BULK frame (R367). -/
def resyncEnds (s : State) : State :=
  let s := ((s.setFld F.RED_RESYNC_STAT_ACTIVE 0).setFld F.RED_RESYNC_STAT_STEP 0).onRed fun r => { r with bulkDone := false }
  keepFloor (boundLeave 2 (emit 0x5E4 0xE0E 1 (role s) (setRole 4 s)))

/-- A whole record reaches a unit in HEEL or RESYNC: it is applied, and a unit in HEEL, or one that enters it with this record,
answers with an ECHO; a vote against in a pair takes the unit out of HEEL, a HANDOVER record starts its takeover (R352, R353,
R357, R367). -/
def onRecord (r : EpochRec) (s : State) : State :=
  let (s, vs) := applyRecord r s
  if redState s = 3 then (if s.red.bulkDone then resyncEnds (sendTo r.role (.echo r.epoch vs) s) else s)
  else
    let s := sendTo r.role (.echo r.epoch vs) s
    match (if redMode s = 1 then vs.find? fun v => !v.agree else none) with
    | some v => replicaLost (emit 0x5E3 0xE09 3 (role s * 2 ^ 34 + v.jseq % 2 ^ 32) s)
    | none => if r.handover ∧ role s ≠ 2 then takeover 3 r.role s else s

/-- EPOCH_FRAME_RECEIVED: `rec_` is the record where the frame is its last fragment. Any fragment counts as the record's
header for the misses (R360). A unit in JOINING has heard its active unit (R359). -/
def execEpochFrameReceived (h : LeashHdr) (rec_ : Option EpochRec) (s : State) : Result :=
  onFrame h (fun s =>
    let s := (peerSeen h.src 6 h.epoch s).setFldI F.RED_PEER_STAT_MISSES (min h.src 2) 0
    let s := s.onRed fun r => { r with probing := .none, recordLink := h.link.val }
    if redState s = 2 then activeIs (some h.src) s
    else if redState s = 3 ∨ redState s = 4 then
      match rec_ with
      | some r => onRecord r (activeIs (some h.src) s)
      | none => s
    else s) s

/-- NOTICE_FRAME_RECEIVED: notices are kept, and a notice of KIND 3 or 4 marks its command complete (R352). -/
def execNoticeFrameReceived (h : LeashHdr) (ns : List Notice) (s : State) : Result :=
  onFrame h (fun s =>
    if redState s ≠ 4 then s
    else ns.foldl (fun s n => s.onRed fun r => { r with
      notices := r.notices ++ [n]
      pend := if n.kind < 3 then r.pend else r.pend.map fun p =>
        if p.told n then { p with done := true } else p }) s) s

/-- ECHO_RECEIVED: a joiner's first ECHO tells that it is in HEEL; its votes are applied (R354). The late ECHO of a peer that has
left HEEL or the quorum brings it back to neither (R355). -/
def execEchoReceived (h : LeashHdr) (epoch : Nat) (votes : List Vote) (s : State) : Result :=
  onFrame h (fun s =>
    if !groupActive s ∨ 3 ≤ h.src then s
    else
      let r := h.src
      let joined := s.fldI F.RED_PEER_STAT_STATE r == 3
      let against := redMode s == 1 && votes.any fun v => !v.agree
      let s := (peerSeen r 4 epoch s).setFldI F.RED_PEER_STAT_MISSES r 0
      let s := if joined then
          boundLeave 2 (emit 0x5E4 0xE0E 1 r ((s.setFld F.RED_RESYNC_STAT_ACTIVE 0).setFld F.RED_RESYNC_STAT_STEP 0))
        else s
      if against then dropPeer r s
      else if !joined && !bitAt (s.fld F.RED_STAT_HEEL) r then s
      else
        let s := setRoleBit F.RED_STAT_HEEL r true s
        let s := countQuorum (s.onRed fun x => { x with
          inQuorum := if redMode s = 2 ∧ !x.inQuorum.contains r then x.inQuorum ++ [r] else x.inQuorum })
        if redMode s = 2 then
          fixAdvance (votes.foldl (fun s v =>
            onVotes v.jseq (onRec v.jseq (fun x => { x with votes := x.votes ++ [(r, v.rcrc)] }) s)) s)
        else s) s

/-- VOTE_MISSED: at the third consecutive one the follower leaves the quorum; with none left, writes commit at journal
completion (R355). What waited for the vote is outside the bound. -/
def execVoteMissed (r : Fin 3) (s : State) : Result :=
  let r := r.val
  if !groupActive s ∨ !bitAt (s.fld F.RED_STAT_HEEL) r then .next s
  else
    let s := s.bumpI F.RED_PEER_STAT_MISSES r 1
    let s := (entriesWhere s fun e => e.wait == .vote).foldl (fun s i => onEntry i (fun e => { e with exempt := true }) s) s
    if s.fldI F.RED_PEER_STAT_MISSES r ≠ 3 then .next s
    else
      let s := dropPeer r (emit 0x5E0 0xE06 3 r s)
      let s := if redMode s = 2 ∧ s.fld F.RED_STAT_QUORUM = 1 then emit 0x5E3 0xE0B 4 0 s else s
      .next (fixAdvance (retryVotes s))

/-! Detecting a failed active unit (R360, R361). -/

/-- The third miss: the unit that may take over asks for confirmation, or takes over where nobody can be asked. -/
def suspect (s : State) : State :=
  let a := activeRole s
  let s := emit 0x5E0 0xE03 2 a (s.onRed fun r => { r with takeoverFrom := s.now })
  if redMode s = 1 then
    let other := 1 - s.red.recordLink
    if leashUp s other then leashSend other (epochNow s) (.probe a) (s.onRed fun r => { r with probing := .active })
    else takeover 1 a s
  else if role s = 2 then s
  else if leashUp s (linkTo s 2) then sendTo 2 (.probe a) (s.onRed fun r => { r with probing := .viaC })
  else takeover 1 a s

/-- EPOCH_MISS: the deadline of a record passes without its first frame. -/
def execEpochMiss (s : State) : Result :=
  if redState s ≠ 4 ∧ redState s ≠ 3 then .next s
  else
    let a := activeRole s
    let s := s.bumpI F.RED_PEER_STAT_MISSES a 1
    let n := s.fldI F.RED_PEER_STAT_MISSES a
    let s := emit 0x5E0 0xE02 0 (n % 4 * 16 + a) s
    if n ≠ 3 then .next s
    else .next (if redState s = 3 then resyncFails 1 s else suspect s)

/-- PROBE_RECEIVED: the answer carries the miss count for the unit. A unit that is asked about itself answers only while it is
active, so that its partner takes over from one that has stood down (R38, R361); in a pair the active unit then moves its records
to the link that carried the probe, and takes the other link down. -/
def execProbeReceived (h : LeashHdr) (about : Nat) (s : State) : Result :=
  onFrame h (fun s =>
    let link := h.link.val
    let s := if about = role s ∧ !groupActive s then s
      else leashSend link (epochNow s)
        (.probeReply about (s.fldI F.RED_PEER_STAT_MISSES (min about 2)) (redState s == 4)) s
    if redMode s = 1 ∧ about = role s ∧ groupActive s ∧ s.red.recordLink ≠ link then
      leashDown (1 - link) 2 (s.onRed fun r => { r with recordLink := link })
    else s) s

/-- PROBE_REPLY_RECEIVED: in a pair the active unit lives, and only its other link is down; in a trio unit C decides (R361). -/
def execProbeReplyReceived (h : LeashHdr) (about : Nat) (misses : Nat) (heel : Bool) (s : State) : Result :=
  onFrame h (fun s =>
    let p := s.red.probing
    let s' := s.onRed fun r => { r with probing := .none }
    if about ≠ activeRole s then s
    else
      match p with
      | .none => s
      | .active =>
        let s := s'.setFldI F.RED_PEER_STAT_MISSES about 0
        leashDown (1 - h.link.val) 2 (s.onRed fun r => { r with recordLink := h.link.val })
      | .viaC => if 2 ≤ misses ∨ !heel then takeover 1 about s' else enterJoining s') s

/-- PROBE_TIMEOUT: no reply confirms the failure (R361). -/
def execProbeTimeout (s : State) : Result :=
  if s.red.probing = .none ∨ redState s ≠ 4 then .next s else .next (takeover 1 (activeRole s) s)

/-- FENCE_RECEIVED: the unit named is fenced; the first follower takes over from an active unit fenced as the dissenter
(R354, R357). -/
def execFenceReceived (h : LeashHdr) (r : Nat) (s : State) : Result :=
  onFrame h (fun s =>
    if r = role s then fenceSelf 1 s
    else if 3 ≤ r then s
    else
      let s := dropPeer r (setRoleBit F.RED_STAT_FENCED r true s)
      if redState s = 4 ∧ role s ≠ 2 ∧ r = activeRole s then takeover 2 r s else s) s

/-- TAKEOVER_RECEIVED: unit C follows the new active unit where it has applied the same epochs, and resynchronises where it
has not (R363). -/
def execTakeoverReceived (h : LeashHdr) (epoch : Nat) (s : State) : Result :=
  onFrame h (fun s =>
    let s := activeIs (some h.src) (peerSeen h.src 6 epoch (setRoleBit F.RED_STAT_HEEL (min h.src 2) false s))
    if redState s = 4 ∧ epoch ≠ lastEpoch s then replicaLost (emit 0x5E4 0xE0D 1 (role s) s)
    else s.setFldI F.RED_PEER_STAT_MISSES (min h.src 2) 0) s

/-- HANDOVER_DONE_RECEIVED: the sender is active. -/
def execHandoverDoneReceived (h : LeashHdr) (s : State) : Result :=
  onFrame h (fun s =>
    if redState s = 6 then s else activeIs (some h.src) (peerSeen h.src 6 h.epoch s)) s

/-! Joining (R357, R359, R367, R368). -/

/-- Why the active unit refuses a join, as the cause of JOIN_REFUSED, or none. -/
def joinTest (s : State) (r mode epochUs : Nat) (digest : Digest) (hasKey : Bool) : Option Nat :=
  if mode ≠ redMode s then some 1
  else if digest ≠ s.boot.m2Digest ∨ epochUs ≠ s.fld F.RED_MODE_EPOCH_US then some 2
  else if !hasKey ∨ (pairKeyOf s).isNone then some 3
  else if 3 ≤ r ∨ !roleInMode s r then some 4
  else if r = role s then some 5
  else none

/-- JOIN_RECEIVED: the active unit accepts with JOIN_REPLY and sends every object, or refuses. Unit B in JOINING notes a JOIN
of unit A (R359). -/
def execJoinReceived (h : LeashHdr) (mode : Nat) (epochUs : Nat) (digest : Digest) (hasKey : Bool) (s : State) : Result :=
  onFrame h (fun s =>
    let r := h.src
    let s := peerSeen r 2 h.epoch s
    let reply := fun (f : LeashFrame) (s : State) => leashSend h.link.val (epochNow s) f s
    if !groupActive s then (if r = 0 then s.onRed fun x => { x with lastJoinA := s.now } else s)
    else
      match joinTest s r mode epochUs digest hasKey with
      | some c => emit 0x5E4 0xE12 3 c (reply (.joinReply (epochNow s) (some c)) s)
      | none =>
        let s := if recordsRun s then s else snapshotObjects s
        let s := (dropPeer r (setRoleBit F.RED_STAT_FENCED r false s)).setFldI F.RED_PEER_STAT_STATE r 3
        let s := boundEnter 2 ((s.setFld F.RED_RESYNC_STAT_ACTIVE 1).setFld F.RED_RESYNC_STAT_STEP 2)
        let s := emit 0x5E4 0xE0D 1 r (reply (.joinReply (epochNow s) none) s)
        reply (.bulk (epochNow s) (bulkObjects s)) s) s

/-- JOIN_REPLY_RECEIVED: a joining unit with the pair key and a role of its mode resynchronises; a refusal ends a
resynchronisation (R357). -/
def execJoinReplyReceived (h : LeashHdr) (epoch : Nat) (refused : Option Nat) (s : State) : Result :=
  onFrame h (fun s =>
    let s := peerSeen h.src 6 epoch s
    match refused with
    | some _ => if redState s = 3 then resyncFails 3 s else s
    | none =>
      if redState s ≠ 2 ∨ !roleInMode s (role s) then s
      else if (pairKeyOf s).isNone then emit 0x5E4 0xE12 3 3 s
      else
        let s := activeIs (some h.src) (setRole 3 (wipeObjects (clearReplica s)))
        let s := (s.setFld F.RED_RESYNC_STAT_ACTIVE 1).setFld F.RED_RESYNC_STAT_STEP 2
        let s := s.setFldI F.RED_PEER_STAT_MISSES (min h.src 2) 0
        emit 0x5E4 0xE0D 1 (role s) (boundEnter 2 (s.onRed fun r => { r with recordLink := h.link.val }))) s

/-- BULK_RECEIVED: the objects are copied (R367 steps 2 and 4). -/
def execBulkReceived (h : LeashHdr) (epoch : Nat) (percent : Nat) (last : Bool) (objs : List BulkObj) (s : State) : Result :=
  onFrame h (fun s =>
    if redState s ≠ 3 then s
    else
      let s := objs.foldl copyObject (peerSeen h.src 6 epoch s)
      let s := s.setFld F.RED_RESYNC_STAT_PERCENT (min 100 percent)
      if last then (s.setFld F.RED_RESYNC_STAT_STEP 4).onRed fun r => { r with bulkDone := true } else s) s

/-- Is this unit's leg or root port of a slot up, as a QUERY asks (R206, R209)? -/
def queryUp (s : State) (kind slot : Nat) : Bool := if kind = 1 then legPg s slot else (portOf s slot).width != 0

/-- QUERY_RECEIVED: a question is answered, an answer acted on (R206, R209). -/
def execQueryReceived (h : LeashHdr) (kind : Nat) (slot : Fin 48) (reply : Option Bool) (s : State) : Result :=
  onFrame h (fun s =>
    match reply with
    | some up => queryAnswer kind slot.val up s
    | none => leashSend h.link.val (epochNow s) (.query kind slot.val (some (queryUp s kind slot.val))) s) s

/-- JOIN_TIMER: a joining unit sends JOIN on every link. -/
def execJoinTimer (s : State) : Result :=
  if redState s = 2 ∧ roleInMode s (role s) then
    .next (sendAll (.join (redMode s) (s.fld F.RED_MODE_EPOCH_US) s.boot.m2Digest (pairKeyOf s).isSome) s)
  else .next s

/-- A unit begins to serve from the drives as after power loss (R141, R177): journal replay and leaf recomputation follow, and
leaves in no sealed batch are gone. -/
def serveFromDrives (s : State) : State :=
  (s.onLay fun l => { State.reset.lay with geoms := l.geoms, scrubRepairs := l.scrubRepairs }).onFix fun f => { f with
    opened := [], closed := [], sealed := [], storeWait := [], custodyWait := [], recomputing := false }

/-- Hosts connect afresh to a unit that becomes active without a partner (R357): what a replica left of connections, fabrics
controllers and their commands is gone. The functions of the unit's own PCIe host stay. -/
def forgetHosts (s : State) : State :=
  let own := fun (id : Nat) => decide (fnCntlid 0 ≤ id)
  let s := s.onXpt fun x => { x with ctx := [], regions := [] }
  sweepSlots (s.onCmd fun c => { c with
    ctrls := c.ctrls.filter fun e => own e.1, queues := c.queues.filter fun e => own (e.1 / 256)
    queued := c.queued.filter fun x => own x.cntlid, table := c.table.filter fun e => own e.2.cap.cntlid })

/-- JOIN_TIME_EXPIRY: unit A or B becomes active and starts from the drives (R357, R359). -/
def execJoinTimeExpiry (s : State) : Result :=
  if redState s ≠ 2 ∨ 2 ≤ role s ∨ !roleInMode s (role s) ∨ s.fld F.RED_STAT_ACTIVE_VALID = 1 then .next s
  else .next (keepFloor (startPreempt (serveFromDrives (forgetHosts (countQuorum (activeIs (some (role s)) (setRole 6 s)))))))

/-- RESERVATION_CHECK: an active unit that no frame reaches reads the reservation of the lowest drive in READY, and stands
down where it is lost (R365). -/
def execReservationCheck (held : Bool) (s : State) : Result :=
  if !groupActive s then .next s
  else
    match readyPorts s with
    | [] => .next s
    | p :: _ =>
      let s := s.send (.driveAdmin p "report reservation" 0)
      .next (if held then s else standDown s)

/-! Role orders (R366, R370). -/

/-- A role order: refused while one is in progress; `run` gives its RESULT, 0 while it goes on. -/
def roleOrder (op : Nat) (path : Fin 5) (session : Nat) (value : Word) (run : Nat → State → State × Nat) (s : State) :
    State :=
  let (s, go) := writeGate path.val session (F.RED_ROLE_ORDER_OP.addr 0) value s
  if !go ∨ bitsOf value.toNat 31 28 ≠ op then s
  else if s.fld F.RED_ORDER_STAT_BUSY = 1 then s.setFld F.RED_ORDER_STAT_REFUSED 1
  else
    let target := bitsOf value.toNat 1 0
    if !roleInMode s target then s.setFld F.RED_ORDER_STAT_RESULT 3
    else
      let (s, res) := run target s
      s.setFld F.RED_ORDER_STAT_RESULT res

/-- Would some unit still be able to be active without one: the active unit, or unit A or B in HEEL (R370)? -/
def ableWithout (s : State) (r : Nat) : Bool :=
  [0, 1].any fun x => x != r && roleInMode s x &&
    (if x = role s then redState s == 6 || redState s == 4
     else bitAt (s.fld F.RED_STAT_HEEL) x || (s.fld F.RED_STAT_ACTIVE_VALID == 1 && activeRole s == x))

/-- RED_ROLE_SWITCH: an active unit stops grants and drains toward the target in HEEL; unit C can never be active. -/
def execRedRoleSwitch (path : Fin 5) (session : Nat) (value : Word) (s : State) : Result :=
  .next (roleOrder 1 path session value (fun t s =>
    if t = 2 then (s, 4)
    else if !groupActive s ∨ !(peersInHeel s).contains t then (s, 2)
    else ((s.onRed fun r => { r with order := some t }).setFld F.RED_ORDER_STAT_BUSY 1, 0)) s)

/-- RED_ROLE_FENCE. -/
def execRedRoleFence (path : Fin 5) (session : Nat) (value : Word) (s : State) : Result :=
  .next (roleOrder 2 path session value (fun t s =>
    if !ableWithout s t then (s, 4)
    else if t = role s then (fenceSelf 2 s, 1)
    else (retryVotes (fencePeer 2 t s), 1)) s)

/-- RED_ROLE_RELEASE: this unit enters JOINING; of another one only the bit is this unit's to clear. -/
def execRedRoleRelease (path : Fin 5) (session : Nat) (value : Word) (s : State) : Result :=
  .next (roleOrder 3 path session value (fun t s =>
    if t = role s then
      if redState s = 7 ∨ redState s = 8 then (enterJoining (setRoleBit F.RED_STAT_FENCED t false s), 1) else (s, 1)
    else (setRoleBit F.RED_STAT_FENCED t false s, 1)) s)

/-- RED_ROLE_STAND_DOWN. -/
def execRedRoleStandDown (path : Fin 5) (session : Nat) (value : Word) (s : State) : Result :=
  .next (roleOrder 4 path session value (fun _ s =>
    if !ableWithout s (role s) then (s, 4) else if groupActive s then (standDown s, 1) else (s, 1)) s)

/-- HANDOVER: the drain is done; the HANDOVER record leaves and the unit enters HEEL, keeping its state. The capsules held in
queue slots are pending in the new active unit, and in this one's replica (R357, R366). -/
def execHandover (s : State) : Result :=
  match s.red.order with
  | none => .next s
  | some t =>
    if !groupActive s ∨ !(entriesWhere s fun _ => true).isEmpty then .next s
    else
      let s := setRoleBit F.RED_STAT_HEEL t false (formRecord (epochNow s) true s)
      let s := s.onRed fun r => { r with
        order := none, inQuorum := [], pend := s.cmd.queued.map fun c => ⟨c, false, false⟩, notices := [] }
      let s := sweepSlots (s.onCmd fun m => { m with queued := [] })
      let s := emit 0x5E0 0xE11 1 t (activeIs (some t) (countQuorum (setRole 4 s)))
      .next (keepFloor ((s.setFld F.RED_ORDER_STAT_BUSY 0).setFld F.RED_ORDER_STAT_RESULT 1))

/-- HANDOVER_DRAIN_LIMIT: grants resume and the order ends with RESULT 5 (R366). -/
def execHandoverDrainLimit (s : State) : Result :=
  match s.red.order with
  | none => .next s
  | some _ =>
    .next (((s.onRed fun r => { r with order := none }).setFld F.RED_ORDER_STAT_BUSY 0).setFld F.RED_ORDER_STAT_RESULT 5)

end Sys2Proof.Machine
end

