-- ==== Sys2Proof/Machine/RegAccess.lean ====
section
/-! DEFINITION. Register accesses on every path: reads with their pairs and cleared fields (R9, R11, R15), writes with staging
(R12, R16), unmapped offsets (R41), and BAR0 (R8). A write to a register that a command of its own describes is that command. -/

namespace Sys2Proof.Machine

/-- The low words of the single 64-bit pairs. -/
def pairLows : List Nat :=
  [0x54, 0x60, 0x0400007C, 0x05000050, 0x07000064, 0x08000048, 0x09000050, 0x09000058, 0x0A00005C, 0x0C00004C, 0x0C000054,
    0x0E00004C, 0x0F00004C]

/-- The low word of the pair that a register belongs to: the registers that the map gives the low and the high word of one
quantity, and the arrays whose elements are 64-bit counters or addresses. PRT_TS_DATA, SWC_MC_DATA and CLS_RULE_DATA are read as
words of an entry, and CTL_CONFLICT's as words of a record: they are no pairs (the model's choice, notes/assumptions/87.md). -/
def pairOf (addr : Nat) : Option Nat :=
  match pairLows.find? fun l => addr == l || addr == l + 4 with
  | some l => some l
  | none =>
    if addr % 0x1000000 = 8 ∨ addr % 0x1000000 = 12 ∨ (0x01000800 ≤ addr ∧ addr < 0x01001000) ∨
        (0x0C000630 ≤ addr ∧ addr < 0x0C000650) ∨ (0x0F010000 ≤ addr ∧ addr < 0x0F018000) ∨
        (0x0F020000 ≤ addr ∧ addr < 0x0F028000) then some (addr / 8 * 8)
    else none

/-- The state with a path's pair registers changed. -/
def onPath (path : Nat) (f : PathState → PathState) (s : State) : State :=
  s.onCtl fun c => { c with paths := c.paths.upd path f }

/-- An access to an unmapped offset is counted and told (R41). -/
def unmapped (path addr : Nat) (s : State) : State :=
  let b := addr / 0x1000000 % 16
  let s := onBlock b (fun x => { x with unmapped := min (2 ^ 32 - 1) (x.unmapped + 1) }) s
  emit (blockSrc b) 0x005 1 (path * 2 ^ 32 + addr % 2 ^ 24) s

/-- What a read leaves behind: RC fields are cleared (R9, R11); SWC_FREE_MIN then takes the lowest count since this read from
the next change of the free count on (R276; notes/assumptions/32.md). -/
def clearRead (addr : Nat) (s : State) : State :=
  let s := if addr = 0x03000048 then s.onNet fun m => { m with freeMinRead := true } else s
  if addr % 0x1000000 = 0x14 then onBlock (addr / 0x1000000) (fun x => { x with unmapped := 0 }) s
  else match findReg addr with
    | some (r, _) =>
      { s with regs := setRawWord s.regs addr (BitVec.ofNat 32 (wordAfterRead r.fields (rawWord s.regs addr).toNat)) }
    | none => s

/-- The special reads of a ring's word 0 and 3 (R399) and of a sample's word 0 and 15 (R445): what comes before the word is
taken, and after. -/
def beforeRead (addr : Nat) (s : State) : State :=
  match elem 0x280 8 16 addr with
  | some v => ringSnapshot v s
  | none => if addr = 0x0F000100 then s.onTel fun t => { t with sampleSnap := t.samples.head? } else s

def afterRead (addr : Nat) (s : State) : State :=
  match elem 0x28C 8 16 addr with
  | some v => ringRemove v s
  | none => if addr = 0x0F00013C then s.onTel fun t => { t with samples := t.samples.drop 1 } else s

/-- Read a register on a path: the word it returns, and the state after. -/
def readReg (path addr : Nat) (s : State) : State × Word :=
  if !mapped addr then (unmapped path addr s, 0)
  else
    let s := beforeRead addr s
    let v := match pairOf addr with
      | some l => if addr ≠ l ∧ (s.ctl.paths.at path).lastRead = some l then (s.ctl.paths.at path).snapshot else shownWord s addr
      | none => shownWord s addr
    let hi := shownWord s (addr + 4)
    let s := onPath path (fun p =>
      { p with lastRead := some addr, snapshot := if pairOf addr = some addr then hi else p.snapshot }) s
    (afterRead addr (clearRead addr s), v)

/-- DONE of a register through which an entry is read or written is cleared by each write (R276, R277, R339): a write that
starts no operation leaves it clear. -/
def clearDone (addr : Nat) (s : State) : State :=
  if addr = 0x03000054 then s.setFld F.SWC_MC_SEL_DONE 0
  else if addr = 0x04000044 then s.setFld F.TMG_Q_SEL_DONE 0
  else if addr = 0x04000060 then s.setFld F.TMG_POL_SEL_DONE 0
  else if addr = 0x04000074 then s.setFld F.TMG_GATE_SEL_DONE 0
  else if addr = 0x0D00005C then s.setFld F.HEP_PPT_SEL_DONE 0
  else s

/-- Write a register that no command of its own describes. The low word of a writable pair is staged; its high word commits
both (R16). A write to the low word of a pair that no write changes leaves the staging (the model's choice,
notes/assumptions/87.md). A write of CTL_PATH_STAT clears first: what the same write's conflict sets stays set (R10). -/
def writePlain (path session addr : Nat) (value : Word) (s : State) : State :=
  if !mapped addr then
    if !pathLive s path session then s
    else match writeRefusal s path session addr with
      | 0 => unmapped path addr s
      | code => refuse path session addr code s
  else
  let clears := isPathStat addr && pathLive s path session && writeRefusal s path session addr == 0
  let (s, go) := writeGate path session addr value (if clears then storeWord addr value s else s)
  if !go || clears then s
  else if addr % 0x1000000 = 0x10 then
    onBlock (addr / 0x1000000) (fun x => { x with lastValid := x.lastValid && value.toNat % 2 == 0 }) s
  else if addr = 0x60 ∨ addr = 0x0400007C then onPath path (fun p => { p with staged := some (addr, value) }) s
  else if addr = 0x64 ∨ addr = 0x04000080 then
    let s := match (s.ctl.paths.at path).staged with
      | some (l, w) => if l + 4 = addr then onPath path (fun p => { p with staged := none }) (storeWord l w s) else s
      | none => s
    let s := storeOrdered path addr value s
    if addr = 0x64 then onGts (fun g => { g with secondsSet := true }) s else s
  else
    let s := fansWrite addr (settleWrite addr s (clearDone addr (storeOrdered path addr value s)))
    if addr = 0x08000040 then periodChanged s
    else if addr = 0x09000040 then followL1 s
    else if addr = 0x01000044 then ptpFollows s
    else if addr = 0x0300004C ∨ (0x01000200 ≤ addr ∧ addr < 0x01000300) ∨ (0x03000200 ≤ addr ∧ addr < 0x03000300) then
      syncAllPfc s
    else s

/-- The commands of the registers of CTL, PRT, CLS, SWC, TMG and XPT that have their own, by the fields of the word. -/
def writeOwnLow (path : Fin 5) (session addr : Nat) (value : Word) (s : State) : Option Result :=
  let v := value.toNat
  let op := fun (hi lo : Nat) => bitsOf v hi lo
  match addr with
  | 0x44 => some (execCtlLockSet path session value s)
  | 0x50 => match op 1 0 with
    | 1 => some (execBoneReqAcquire path session value s)
    | 2 => some (execBoneReqRelease path session value s)
    | 3 => some (execBoneReqRenew path session value s)
    | _ => none
  | 0x01000048 => some (execPrtTsCtrl path session value s)
  | 0x02000048 => match op 31 28 with
    | 1 => some (execClsRuleRead path session value s)
    | 2 => some (execClsRuleWrite path session value s)
    | 3 => some (execClsRuleInvalidate path session value s)
    | _ => none
  | 0x03000054 => match op 29 27 with
    | 1 => some (execSwcMcRead path session value s)
    | 2 => some (execSwcMcWrite path session value s)
    | _ => none
  | 0x04000044 => match op 29 27 with
    | 1 => some (execTmgQRead path session value s)
    | 2 => some (execTmgQWrite path session value s)
    | _ => none
  | 0x04000060 => match op 29 27 with
    | 1 => some (execTmgPolRead path session value s)
    | 2 => some (execTmgPolWrite path session value s)
    | _ => none
  | 0x04000074 => match op 29 27 with
    | 1 => some (execTmgGateRead path session value s)
    | 2 => some (execTmgGateWrite path session value s)
    | _ => none
  | 0x04000084 =>
    some (if op 31 31 = 1 then execTmgGateCommit path session value s else execTmgGateStop path session value s)
  | 0x0400008C => some (execTmgHistSel path session value s)
  | 0x0500006C => some (execXptInvCtrl path session value s)
  | 0x05000078 => some (execXptCtxSel path session value s)
  | _ => none

/-- The same for CMD, LAY, FIX and DRV. -/
def writeOwnMid (path : Fin 5) (session addr : Nat) (value : Word) (s : State) : Option Result :=
  let op := fun (hi lo : Nat) => bitsOf value.toNat hi lo
  match addr with
  | 0x06000058 => match op 7 4 with
    | 1 => some (execActivateImage path session value s)
    | 2 => some (execActivateFirmware path session value s)
    | _ => none
  | 0x07000058 => if op 0 0 = 1 then some (execLayCkptCtrlStart path session value s) else none
  | 0x07000084 => some (execLayFormatOrder path session value s)
  | 0x08000068 => match op 31 28 with
    | 1 => some (execMigCutoverOrder path session value s)
    | 2 => some (execMigAbortOrder path session value s)
    | _ => none
  | 0x09000060 => match op 31 28 with
    | 1 => some (execDrvPortRetrain path session value s)
    | 2 => some (execDrvPortDisable path session value s)
    | 3 => some (execDrvPortEnable path session value s)
    | 4 => some (execDrvPortRecover path session value s)
    | _ => none
  | 0x09000064 => some (execDrvPwrdisOrder path session value s)
  | _ => none

/-- The same for CIP, TRU, PWR, HEP, RED and TEL. -/
def writeOwnHigh (path : Fin 5) (session addr : Nat) (value : Word) (s : State) : Option Result :=
  let op := fun (hi lo : Nat) => bitsOf value.toNat hi lo
  match addr with
  | 0x0A000048 => match op 31 28 with
    | 1 => some (execKeyGenerate path session value s)
    | 2 => some (execKeyImport path session value s)
    | 3 => some (execKeyExport path session value s)
    | 4 => some (execKeyDestroy path session value s)
    | 5 => some (execKeyEscrowAgain path session value s)
    | _ => none
  | 0x0B000044 => match op 31 28 with
    | 1 => some (execTruRotate path session value s)
    | 2 => some (execTruRollback path session value s)
    | 3 => some (execTruEnrolImageKey path session value s)
    | 4 => some (execTruRemoveImageKey path session value s)
    | _ => none
  | 0x0C000044 => match op 23 20 with
    | 1 => some (execPwrLegOnOrder path session value s)
    | 2 => some (execPwrLegOffOrder path session value s)
    | _ => none
  | 0x0D000054 => some (execHepPwinCommit path session value s)
  | 0x0D00005C => match op 29 28 with
    | 1 => some (execHepPptRead path session value s)
    | 2 => some (execHepPptWrite path session value s)
    | _ => none
  | 0x0E000054 => match op 31 28 with
    | 1 => some (execRedRoleSwitch path session value s)
    | 2 => some (execRedRoleFence path session value s)
    | 3 => some (execRedRoleRelease path session value s)
    | 4 => some (execRedRoleStandDown path session value s)
    | _ => none
  | 0x0F000044 => if op 0 0 = 1 then some (execTelSnapStart path session value s) else none
  | _ => none

/-- The arrays of registers with a command of their own: rings' configuration, samplers, and every block's fence order. -/
def writeOwnArray (path : Fin 5) (session addr : Nat) (value : Word) (s : State) : Option Result :=
  if addr < 0x10000000 ∧ addr % 0x1000000 = 0x18 then
    some (execPrefixFenceOrder path session (Fin.ofNat 16 (addr / 0x1000000)) (value.toNat % 256) s)
  else match elem 0x200 8 4 addr, elem 0x0F000060 16 4 addr with
    | some v, _ => some (execRingReaderBind path session (Fin.ofNat 8 v) value s)
    | _, some i => some (execTelSamplerWrite path session (Fin.ofNat 16 i) value s)
    | _, _ => none

/-- Write a register on a path. -/
def writeReg (path : Fin 5) (session addr : Nat) (value : Word) (s : State) : State :=
  match writeOwnArray path session addr value s, writeOwnLow path session addr value s, writeOwnMid path session addr value s,
      writeOwnHigh path session addr value s with
  | some r, _, _, _ => stateOf s r
  | _, some r, _, _ => stateOf s r
  | _, _, some r, _ => stateOf s r
  | _, _, _, some r => stateOf s r
  | _, _, _, _ => writePlain path.val session addr value s

/-- The status that a write met with (R390): 0, or the code of the refusal it was answered with. -/
def writeStatusOf (before after : State) : Nat :=
  match (after.out.drop before.out.length).findSome? fun o => match o with
    | .writeStatus _ _ code => some code
    | _ => none with
  | some code => code
  | none => 0

/-- A read access on a path. Before step 7 the host reads reset values, and below step 4 nothing answers (R460). -/
def readAccess (path : Fin 5) (addr : Nat) (s : State) : State :=
  if !readLive s path.val then s
  else if path.val = 4 ∧ !pf0Open s then answerRead 4 addr (resetWord addr) s
  else
    let (s, v) := readReg path.val addr s
    s.send (.regRead path.val addr v)

/-- REGISTER_WRITE (R34). -/
def execRegisterWrite (path : Fin 5) (session addr : Nat) (value : Word) (s : State) : Result :=
  .next (writeReg path session addr value s)

/-- RC_FIELD_READ (R11). -/
def execRcFieldRead (path : Fin 5) (addr : Nat) (s : State) : Result := .next (readAccess path addr s)

/-- PAIR_LOW_WORD_READ (R15). -/
def execPairLowWordRead (path : Fin 5) (addr : Nat) (s : State) : Result := .next (readAccess path addr s)

/-- PAIR_HIGH_WORD_READ (R15). -/
def execPairHighWordRead (path : Fin 5) (addr : Nat) (s : State) : Result := .next (readAccess path addr s)

/-- PAIR_LOW_WORD_WRITE (R16). -/
def execPairLowWordWrite (path : Fin 5) (session addr : Nat) (value : Word) (s : State) : Result :=
  .next (writeReg path session addr value s)

/-- PAIR_HIGH_WORD_WRITE (R16). -/
def execPairHighWordWrite (path : Fin 5) (session addr : Nat) (value : Word) (s : State) : Result :=
  .next (writeReg path session addr value s)

/-- ADDR_UNMAPPED (R41): a read or a write at an address with no register. -/
def execAddrUnmapped (path : Fin 5) (addr : Nat) (isWrite : Bool) (s : State) : Result :=
  if mapped addr then .next s
  else if isWrite then
    .next (if pathLive s path.val 0 ∨ (path.val % 2 = 0 ∧ readLive s path.val) then unmapped path.val addr s else s)
  else .next (readAccess path addr s)

/-- UNSUPPORTED_REQUEST_BAR0 (R8): an access that is not a single DW with all byte enables is not performed. -/
def execUnsupportedRequestBar0 (addr : Nat) (s : State) : Result := .next (s.send (.unsupportedRequest addr))

end Sys2Proof.Machine
end

