-- ==== Sys2Proof/Machine/Stores.lean ====
section
/-! DEFINITION. Profiles and firmware in MRAM (R378 to R381, R458), and the I3C commands (R391, R466). -/

namespace Sys2Proof.Machine

/-- A length rounded up to 64 KiB (R378). -/
def units64 (len : Nat) : Nat := (len + 65535) / 65536 * 65536

/-- The running firmware slot, if firmware runs. -/
def runningFirmware (s : State) : Option Nat := if s.boot.recovery = 2 ∨ s.boot.step ≤ 3 then none else some s.boot.fwSlot

/-- Is a slot the running profile or firmware (R380)? -/
def slotRuns (s : State) (kind slot : Nat) : Bool :=
  if kind = 1 then s.ctl.running == some slot else runningFirmware s == some slot

/-- Does a store job belong to a path and session? -/
def StoreJob.by_ (j : StoreJob) (path session : Nat) : Bool := j.path == path && j.session == session

/-- What the stores of others take of the region of a kind, and of a firmware slot. -/
def storesTake (s : State) (kind slot path session : Nat) : Nat :=
  ((s.ctl.stores.filter fun j => j.kind == kind && (kind == 1 || j.slot == slot) && !j.by_ path session).map fun j =>
    if kind = 1 then units64 j.length else j.length).sum

/-- The free space for a new content: of the profile area, or of a firmware slot's 3 MiB; the old content stays valid (R378,
R380). -/
def freeSpace (s : State) (kind slot path session : Nat) : Nat :=
  let used := if kind = 1 then ((s.ctl.profiles.filter (·.2.valid)).map fun p => units64 p.2.content.length).sum
    else if (s.ctl.firmware.at slot).valid then (s.ctl.firmware.at slot).content.length else 0
  (if kind = 1 then 0x1000000 else 0x300000) - used - storesTake s kind slot path session

/-- IMAGE_BEGIN and STORE_BEGIN (R380): the status, and the store begun. A store of the same sender is given up. -/
def storeBegin (path session kind slot length : Nat) (s : State) : State × Nat :=
  if !(kind = 1 ∧ slot < 8) ∧ !(kind = 2 ∧ slot < 2) ∨ length = 0 then (s, 8)
  else if slotRuns s kind slot ∨ s.ctl.stores.any fun j => j.kind == kind && j.slot == slot && !j.by_ path session then (s, 7)
  else if freeSpace s kind slot path session < (if kind = 1 then units64 length else length) then (s, 0x0A)
  else
    let (b, s) := freeBytes length s
    (s.onCtl fun c => { c with stores := (c.stores.filter fun j => !j.by_ path session) ++ [⟨path, session, kind, slot, length, b⟩] }, 0)

/-- Bytes put at an offset of a content. -/
def overlay (content : Bytes) (offset : Nat) (data : Bytes) : Bytes :=
  content.take offset ++ data ++ content.drop (offset + data.length)

/-- IMAGE_DATA and STORE_DATA. -/
def storeData (path session offset limit : Nat) (data : Bytes) (s : State) : State × Nat :=
  match s.ctl.stores.find? fun j => j.by_ path session with
  | none => (s, 0x0B)
  | some j =>
    if limit < data.length ∨ j.length < offset + data.length then (s, 8)
    else
      let put := fun (x : StoreJob) => if x.by_ path session then { x with content := overlay x.content offset data } else x
      (s.onCtl fun c => { c with stores := c.stores.map put }, 0)

/-- The profile slot that R459 loads at the next boot of a kind. -/
def bootSlot (s : State) (cold : Bool) : Nat := if cold then s.boot.profileSel else s.boot.lastProfile.getD s.boot.profileSel

/-- Does a commit in recovery 3 start a warm reset (R465)? -/
def restarts (s : State) (kind slot : Nat) : Bool :=
  s.boot.recovery == 3 && (kind == 2 || slot == bootSlot s (!s.boot.warm))

/-- IMAGE_COMMIT and STORE_COMMIT: the content is verified as at boot, an image also by the tests of R375, and the slot switches
to it in one word write; committed firmware becomes the preferred (R380, R458). It answers the status and the reason. -/
def storeCommit (path session : Nat) (s : State) : State × Nat × Nat :=
  match s.ctl.stores.find? fun j => j.by_ path session with
  | none => (s, 0x0B, 0)
  | some j =>
    let s := s.onCtl fun c => { c with stores := c.stores.filter fun x => !x.by_ path session }
    if slotRuns s j.kind j.slot then (s, 7, 0)
    else
      let reason := if j.kind = 1 then imageReason s (modeTested s) j.content else firmwareReason s j.content
      if reason ≠ 0 then (imageRefused reason j.kind j.slot s, 9, reason)
      else
        let x : ImageSlot := ⟨true, j.content, Config.sha256 j.content, if j.kind = 1 then 0 else Config.firmwareSvn j.content⟩
        let s := if j.kind = 1 then s.onCtl fun c => { c with profiles := c.profiles.put j.slot x }
          else (s.onCtl fun c => { c with firmware := c.firmware.put j.slot x }).onBoot fun b => { b with preferredFw := j.slot }
        let s := emit 0x005 0x00F 1 (j.kind * 16 + j.slot) s
        ((if restarts s j.kind j.slot then s.onBoot fun b => { b with restartDue := true } else s), 0, 0)

/-- The digest that a commit answers with. -/
def storedDigest (s : State) (path session : Nat) : Reply :=
  match s.ctl.stores.find? fun j => j.by_ path session with
  | some j => .digest (Config.sha256 j.content)
  | none => .none

/-- IMAGE_BEGIN. -/
def execImageBegin (r : Req) (kind slot length : Nat) (s : State) : Result :=
  .next (serve 0x30 [] true true r (fun s =>
    let (s, status) := storeBegin (pathOf r.port.val) r.session kind slot length s
    (s, status, .none)) s)

/-- IMAGE_DATA: up to 8,000 bytes. -/
def execImageData (r : Req) (offset : Nat) (data : Bytes) (s : State) : Result :=
  .next (serve 0x31 [] true true r (fun s =>
    let (s, status) := storeData (pathOf r.port.val) r.session offset 8000 data s
    (s, status, .none)) s)

/-- IMAGE_COMMIT. -/
def execImageCommit (r : Req) (s : State) : Result :=
  .next (serve 0x32 [] true true r (fun s =>
    let d := storedDigest s (pathOf r.port.val) r.session
    let (s, status, reason) := storeCommit (pathOf r.port.val) r.session s
    (s, status, if status = 0 then d else if status = 9 then .reason reason else .none)) s)

/-- PROFILE_ACTIVATE (R381): refused at once, or answered at step 5 or 3a. -/
def execProfileActivate (r : Req) (kind slot : Nat) (s : State) : Result :=
  .next (serveLater 0x33 [] true false r (fun s =>
    let (s, status, reason) := startActivation kind slot (some (r.port.val, r.session, r.seq)) s
    if status = 0 then (s, none) else (s, some (status, if status = 9 then .reason reason else .none))) s)

/-- PROFILE_ERASE: a slot that is not running is freed. -/
def execProfileErase (r : Req) (slot : Nat) (s : State) : Result :=
  .next (serve 0x34 [] true true r (fun s =>
    if 8 ≤ slot then (s, 8, .none)
    else if s.ctl.running = some slot then (s, 7, .none)
    else if !(s.ctl.profiles.at slot).valid then (s, 0x0B, .none)
    else (s.onCtl fun c => { c with profiles := c.profiles.put slot default }, 0, .none)) s)

/-- PROFILE_LIST: per slot its validity, length, image digest and NAME. -/
def execProfileList (r : Req) (s : State) : Result :=
  .next (serve 0x35 [0] false true r (fun s =>
    let row := fun (i : Nat) =>
      let p := s.ctl.profiles.at i
      if p.valid then (true, imgLen p.content, imgDigest p.content, imgName p.content) else (false, 0, 0, [])
    (s, 0, .profiles ((List.range 8).map row))) s)

/-! I3C (R391, R387, R466). `port` is 0 for MA's target and 1 for MB's. -/

/-- The path code of a target. -/
def i3cPath (port : Fin 2) : Fin 5 := if port = 0 then 1 else 3

/-- Does a target answer: from step 4, and in every recovery (R463, R467)? -/
def i3cLive (s : State) : Bool := s.boot.inReset == .none && (decide (4 ≤ s.boot.step) || s.boot.recovery != 0)

/-- I3C_READ: 1 to 16 words. -/
def execI3cRead (port : Fin 2) (addr count : Nat) (s : State) : Result :=
  let path := (i3cPath port).val
  .next (
    if !i3cLive s then s
    else if count = 0 ∨ 16 < count then s.send (.i3c path 8 [])
    else
      let read := fun (x : State × List Word) (i : Nat) =>
        let (s, v) := readReg path (addr + 4 * i) x.1
        (s, x.2 ++ [v])
      let (s, ws) := (List.range count).foldl read (s, [])
      s.send (.i3c path 0 ws))

/-- I3C_WRITE: the words go to consecutive offsets; the status is that of the first that is refused. -/
def execI3cWrite (port : Fin 2) (addr : Nat) (words : List Word) (s : State) : Result :=
  let path := i3cPath port
  .next (
    if !i3cLive s ∨ s.boot.recovery = 2 then s
    else if words.length = 0 ∨ 16 < words.length then s.send (.i3c path.val 8 [])
    else
      let write := fun (x : State × Nat) (e : Nat × Word) =>
        let t := writeReg path 0 (addr + 4 * e.1) e.2 x.1
        (t, if x.2 = 0 then writeStatusOf x.1 t else x.2)
      let (s, status) := ((List.range words.length).zip words).foldl write (s, 0)
      s.send (.i3c path.val status []))

/-- I3C_STATUS: CTL_PATH_STAT of the path. -/
def execI3cStatus (port : Fin 2) (s : State) : Result :=
  let path := (i3cPath port).val
  .next (
    if !i3cLive s then s
    else
      let (s, v) := readReg path (F.CTL_PATH_STAT_REFUSED.addr path) s
      s.send (.i3c path 0 [v]))

/-- I3C_COMMISSION: the first principal's wrap key, while COMMISSION is set and page 0 holds no type 5 key (R387). -/
def execI3cCommission (port : Fin 2) (principal : Nat) (key : Bytes) (s : State) : Result :=
  let path := (i3cPath port).val
  .next (
    if !i3cLive s ∨ s.boot.recovery = 2 then s
    else if s.fld F.CTL_CFG_COMMISSION = 0 ∨ !(keysWhere s fun k => k.typ == 5 && k.tenant == 0).isEmpty then
      s.send (.i3c path 3 [])
    else if !(s.ctl.principals.at principal).valid ∨ key.length ≠ 32 then s.send (.i3c path 8 [])
    else
      let (s, result, handle) := storeKey 5 0 0 0 0 key s
      if result ≠ 1 then s.send (.i3c path 0x0A [])
      else
        let s := s.onCtl fun c => { c with principals := c.principals.upd principal fun p => { p with wrapHandle := handle } }
        s.send (.i3c path 0 []))

/-- STORE_BEGIN: in either recovery. -/
def execStoreBegin (port : Fin 2) (kind slot length : Nat) (s : State) : Result :=
  let path := (i3cPath port).val
  .next (
    if s.boot.recovery = 0 then s
    else
      let (s, status) := storeBegin path 0 kind slot length s
      s.send (.i3c path status []))

/-- STORE_DATA: 1 to 64 words, each in its stored byte order. -/
def execStoreData (port : Fin 2) (offset : Nat) (words : List Word) (s : State) : Result :=
  let path := (i3cPath port).val
  .next (
    if s.boot.recovery = 0 then s
    else if words.length = 0 ∨ 64 < words.length then s.send (.i3c path 8 [])
    else
      let (s, status) := storeData path 0 offset 256 (words.flatMap fun w => beBytes 4 w.toNat) s
      s.send (.i3c path status []))

/-- STORE_COMMIT. -/
def execStoreCommit (port : Fin 2) (s : State) : Result :=
  let path := (i3cPath port).val
  .next (
    if s.boot.recovery = 0 then s
    else
      let (s, status, _) := storeCommit path 0 s
      s.send (.i3c path status []))

end Sys2Proof.Machine
end

