-- ==== Sys2Proof/Machine/Management.lean ====
section
/-! DEFINITION. Management opcodes over registers, keys, escrow, receipts, certificates, quotes, migration jobs and peer cells
(R388, R390). -/

namespace Sys2Proof.Machine

/-! Registers (R388, R390). -/

/-- Consecutive registers read on a path. -/
def readRegs (path addr count : Nat) (s : State) : State × List Word :=
  (List.range count).foldl (fun (x : State × List Word) (i : Nat) =>
    let (s, v) := readReg path (addr + 4 * i) x.1
    (s, x.2 ++ [v])) (s, [])

/-- REG_READ: 1 to 256 words. -/
def execRegRead (r : Req) (addr count : Nat) (s : State) : Result :=
  .next (serve 0x10 [0] false true r (fun s =>
    if count = 0 ∨ 256 < count then (s, 8, .none)
    else
      let (s, ws) := readRegs (pathOf r.port.val) addr count s
      (s, 0, .words ws)) s)

/-- The path of a management port. -/
def reqPath (r : Req) : Fin 5 := if r.port = 0 then 0 else 2

/-- Pairs written in list order on a path, with the status of each (R390). -/
def writePairs (path : Fin 5) (session : Nat) (pairs : List (Nat × Word)) (s : State) : State × List Nat :=
  pairs.foldl (fun (x : State × List Nat) (e : Nat × Word) =>
    let t := writeReg path session e.1 e.2 x.1
    (t, x.2 ++ [writeStatusOf x.1 t])) (s, [])

/-- REG_WRITE: 1 to 256 pairs; the response's status is that of the first that did not succeed (R390). -/
def execRegWrite (r : Req) (pairs : List (Nat × Word)) (s : State) : Result :=
  .next (serve 0x11 [1] false false r (fun s =>
    if pairs = [] ∨ 256 < pairs.length then (s, 8, .none)
    else
      let (s, sts) := writePairs (reqPath r) r.session pairs s
      (s, (sts.find? (· ≠ 0)).getD 0, .statuses sts)) s)

/-! The key mailbox and escrow (R293, R297). -/

/-- KEY_PUT: one blob of up to 256 bytes, for the session that carries the order. -/
def execKeyPut (r : Req) (blob : Bytes) (s : State) : Result :=
  .next (serve 0x50 [] true false r (fun s =>
    if 256 < blob.length then (s, 8, .none)
    else (s.onCip fun c => { c with mailbox := blob, mailboxSession := r.session }, 0, .none)) s)

/-- KEY_GET: the blob leaves the mailbox. -/
def execKeyGet (r : Req) (s : State) : Result :=
  .next (serve 0x51 [] true false r (fun s =>
    if s.cip.mailbox = [] ∨ s.cip.mailboxSession ≠ r.session then (s, 0x0B, .none)
    else (s.onCip fun c => { c with mailbox := [], mailboxSession := 0 }, 0, .blobs [s.cip.mailbox])) s)

/-- ESCROW_COLLECT: the oldest blobs leave the queue. -/
def execEscrowCollect (r : Req) (count : Nat) (s : State) : Result :=
  .next (serve 0x52 [3] false false r (fun s =>
    (s.onCip fun c => { c with escrow := c.escrow.drop count }, 0, .blobs (s.cip.escrow.take count))) s)

/-! Receipts and custody (R179, R189, R190). -/

/-- A receipt (R179). -/
def receiptOf (s : State) (b : Batch) (index : Nat) (l : Leaf) : Bytes :=
  let path := pathUp 33 index (b.all.map Leaf.hash)
  padTo 64 ([0x46, 0x58, 0x52, 0x43] ++ leBytes 2 1 ++ leBytes 1 path.length ++ leBytes 1 0 ++ leBytes 8 index ++
    leBytes 8 b.seq ++ leBytes 4 (30240 + 32 * path.length)) ++ l.bytes ++ path.flatMap digestBytes ++ b.object

/-- Is a leaf the one a request names? A key or an LBA names the newest leaf that describes it. -/
def leafNamed (n : LeafName) (b : Batch) (index : Nat) (l : Leaf) : Bool :=
  match n with
  | .index seq leaf => b.seq == seq && index == leaf
  | .key nsid key => l.nsid == nsid && l.keyLen == key.length && l.keyLen != 0 && l.key == key
  | .lba nsid lba => l.nsid == nsid && l.keyLen == 0 && decide (ofLe l.key ≤ lba) && decide (lba < ofLe l.key + l.length)

/-- The newest leaf that a request names, among batches. -/
def findLeaf (n : LeafName) (bs : List Batch) : Option (Batch × Nat × Leaf) :=
  bs.reverse.findSome? fun b =>
    (((List.range b.all.length).zip b.all).reverse.find? fun x => leafNamed n b x.1 x.2).map fun x => (b, x.1, x.2)

/-- The batches not sealed yet, oldest first, with the numbers that they have or will take. -/
def unsealed (s : State) : List Batch :=
  s.fix.closed ++ ((List.range s.fix.opened.length).zip s.fix.opened).map fun x => { x.2 with seq := s.fix.lastSeq + 1 + x.1 }

/-- The sealed leaf that a request names, or its status: an unsealed batch has no receipt yet (R179, R389). -/
def leafFor (s : State) (n : LeafName) : Except Nat (Batch × Nat × Leaf) :=
  match findLeaf n s.fix.sealed, findLeaf n (unsealed s) with
  | some x, _ => .ok x
  | none, some _ => .error 0x0D
  | none, none => .error 0x0B

/-- RECEIPT_GET. -/
def execReceiptGet (r : Req) (name : LeafName) (s : State) : Result :=
  .next (serve 0x60 [0] false false r (fun s =>
    match leafFor s name with
    | .ok (b, i, l) => (s, 0, .blobs [receiptOf s b i l])
    | .error status => (s, status, .none)) s)

/-- CUSTODY_EXPORT: the receipt, then each chain record with its statement triple. -/
def execCustodyExport (r : Req) (name : LeafName) (s : State) : Result :=
  .next (serve 0x61 [3] false false r (fun s =>
    match leafFor s name with
    | .ok (b, i, l) => (s, 0, .blobs (receiptOf s b i l :: (custodyChain s b.seq i l).flatMap fun x => [x.1, x.2]))
    | .error status => (s, status, .none)) s)

/-! Certificates and quotes (R300, R301, R307). -/

/-- CERT_GET: 1 the device certificate, 2 the session certificate, 3 the fixity certificate of a rotation. -/
def execCertGet (r : Req) (kind rotation : Nat) (s : State) : Result :=
  .next (serve 0x62 [0] false true r (fun s =>
    match kind with
    | 1 => (s, 0, .blobs [Config.deviceCertificate])
    | 2 => if s.tru.sessionKeyMade then (s, 0, .signed (sessionCert s)) else (s, 0x0B, .none)
    | 3 =>
      if s.ctl.shelfUuid = [] ∨ s.tru.rotation < rotation then (s, 0x0B, .none)
      else (s, 0, .signed (certBody s 3 1 rotation (s.tru.notBefore.at rotation) (fixityPublicKey s rotation)
        Config.identityKeyHash))
    | _ => (s, 8, .none)) s)

/-- TIME_STATE as R173 defines it. -/
def timeState (s : State) : Nat := s.ctl.gts.source + 128 * b2n s.ctl.gts.locked

/-- The 256-byte body of a quote (R307). -/
def quoteBody (s : State) (nonce : Bytes) : Bytes :=
  padTo 256 ([0x54, 0x57, 0x51, 0x54] ++ leBytes 4 1 ++ (padTo 32 nonce).take 32 ++ leBytes 8 s.now ++
    beBytes 16 Config.serial.toNat ++ shelf16 s ++ leBytes 1 (if s.boot.roleSel ≤ 2 then s.boot.roleSel else 0xFF) ++
    leBytes 1 (timeState s) ++ leBytes 2 0 ++ leBytes 4 s.tru.bootCount ++ s.tru.meas.flatMap digestBytes)

/-- QUOTE: the quote and the session certificate; QUOTE_ISSUED. -/
def execQuote (r : Req) (nonce : Bytes) (s : State) : Result :=
  .next (serve 0x63 [0] false true r (fun s =>
    if nonce.length ≠ 32 then (s, 1, .none)
    else if !s.tru.sessionKeyMade then (s, 0x0B, .none)
    else (emit 0x5B2 0xB08 0 0 (sign192 s), 0, .quote (quoteBody s nonce) s.tru.bootCount (hedge s) (sessionCert s))) s)

/-! Migration jobs (R182, R192). -/

/-- The lowest job slot with no job at work. -/
def freeJob (s : State) : Option Nat := seek (fun j => !migBusy s j) 16 0

/-- Does a page and handle name a migration key (R290)? -/
def migKey (s : State) (page handle : Nat) : Bool :=
  match slotOf s page handle with
  | some i => (s.cip.slots.at i).typ == 2
  | none => false

/-- MIG_JOB_CREATE: a job enters SETUP with the items of R182; its key takes the job slot (R290). -/
def execMigJobCreate (r : Req) (items : MigItems) (s : State) : Result :=
  .next (serve 0x70 [3] true false r (fun s =>
    if !isActive s then (s, 0x0E, .none)
    else if items.regions = [] ∨ 16 < items.regions.length then (s, 8, .none)
    else if !s.cmd.namespaces.any (fun n => n.1 == items.nsid) ∨ !migKey s items.page items.handle then (s, 0x0B, .none)
    else match freeJob s with
      | none => (s, 0x0A, .none)
      | some j =>
        let job : MigJob := { (default : MigJob) with
          target := items.target, uid := items.uid, nsid := items.nsid, peerNsid := items.peerNsid, qpn := items.qpn
          page := items.page, handle := items.handle, regions := items.regions }
        let s := match slotOf s items.page items.handle with
          | some i => onSlot i (fun k => { k with nsid := j, seq := k.seq + 1 }) s
          | none => s
        (migState j 1 (onJob j (fun _ => job) s), 0, .number j)) s)

/-- MIG_JOB_REPORT: the state, the counts and the objects failed. -/
def execMigJobReport (r : Req) (slot : Nat) (s : State) : Result :=
  .next (serve 0x71 [3] false false r (fun s =>
    let j := jobOf s slot
    if 16 ≤ slot then (s, 8, .none)
    else if j.state = 0 then (s, 0x0B, .none)
    else (s, 0, .job j.state j.target j.pass j.failed j.objs (j.report.map (·.extent)))) s)

/-! Peer cells (R253, R334). -/

/-- Chains of 16 cells of owner class 9, one for each 4 KiB page, or none of them. -/
def allocPages : Nat → State → Option (List Nat × State)
  | 0, s => some ([], s)
  | n + 1, s =>
    match allocChain 64 9 1 16 s with
    | none => none
    | some (hs, s) =>
      let h := hs.headD 0
      (allocPages n (s.onNet fun x => { x with peerChains := x.peerChains.put h hs })).map fun x => (h :: x.1, x.2)

/-- CELLS_ALLOC: an allocation fails while the free count is at or below the floor (R257). -/
def execCellsAlloc (r : Req) (pages : Nat) (s : State) : Result :=
  .next (serve 0x80 [1] false false r (fun s =>
    if freeCells s < 16 * pages + s.fld F.SWC_C0_FLOOR_COUNT then (s, 0x0A, .none)
    else match allocPages pages s with
      | some (hs, s) => (s, 0, .handles hs)
      | none => (s, 0x0A, .none)) s)

/-- CELLS_FREE: every handle must be one of a chain of class 9. -/
def execCellsFree (r : Req) (handles : List Nat) (s : State) : Result :=
  .next (serve 0x81 [1] false false r (fun s =>
    if handles.any fun h => (s.net.peerChains.at h).isEmpty then (s, 0x0B, .none)
    else
      (handles.foldl (fun (s : State) h =>
        let hs := s.net.peerChains.at h
        (releaseCells hs s).onNet fun x => { x with peerChains := x.peerChains.put h [] }) s, 0, .none)) s)

end Sys2Proof.Machine
end

