-- ==== Sys2Proof/Machine/Reset.lean ====
section
/-! DEFINITION. Resets: POWER_ON_RESET to SYSTEM_WATCHDOG_EXPIRY, RECOVERY_RESTART, I3C_RESTART, THERM_TRIP, and the state that
each kind of reset keeps (R451, R453 to R455, R465, R466, R484, R492). -/

namespace Sys2Proof.Machine

/-! What a reset keeps (R454). -/

/-- The time base after a reset (R25, R454): from zero after a cold one; after a warm one GTS goes on counting. -/
def gtsAfter (warm : Bool) (g : Gts) : Gts :=
  { (default : Gts) with source := 4, now := if warm then g.now else 0, ppm := if warm then g.ppm else 0
                         frac := if warm then g.frac else 0 }

/-- The fences that a warm reset keeps (R35, R454). TRU and PWR are outside its scope. -/
def blocksAfter (warm : Bool) (t : Tab BlockState) : Tab BlockState :=
  if warm then t.mapAll fun b x => if b = 0x0B ∨ b = 0x0C then x else { (default : BlockState) with fenced := x.fenced } else []

/-- A stored word after a warm reset: TRU's and PWR's registers and every RWS field are kept (R9, R454). -/
def warmWord (addr : Nat) (w : Word) : Word :=
  if addr / 0x1000000 = 0x0B ∨ addr / 0x1000000 = 0x0C then w
  else match findReg addr with
    | some (r, _) => BitVec.ofNat 32
        (r.fields.foldl (fun a f => if f.acc = .rws then setBits a f.hi f.lo (bitsOf w.toNat f.hi f.lo) else a) r.reset)
    | none => 0

/-- The register file after a reset; CTL_CLOG_COUNT is kept in MRAM, and the takeovers are counted since cold reset (R402,
R454). -/
def regsAfter (warm : Bool) (regs : Tab Word) : Tab Word :=
  let base := if warm then regs.foldl (fun (t : Tab Word) (e : Nat × Word) => setRawWord t e.1 (warmWord e.1 e.2)) [] else []
  let base := if warm then fldSet base F.RED_TAKEOVER_STAT_COUNT 0 (fldGet regs F.RED_TAKEOVER_STAT_COUNT 0) else base
  fldSet base F.CTL_CLOG_COUNT_COUNT 0 (fldGet regs F.CTL_CLOG_COUNT_COUNT 0)

/-- The control cluster after a reset: the profiles, the firmware slots, the critical event log and the shelf's identity stand
in MRAM. -/
def ctlAfter (warm : Bool) (c : Ctl) : Ctl :=
  { (default : Ctl) with
    gts := gtsAfter warm c.gts, blocks := blocksAfter warm c.blocks, clog := c.clog, profiles := c.profiles
    firmware := c.firmware, shelfUuid := c.shelfUuid }

/-- Telemetry after a reset: a warm one keeps the counters (R432). -/
def telAfter (warm : Bool) (t : Tel) : Tel :=
  if warm then { (default : Tel) with cnt := t.cnt, cur := t.cur, curGts := t.curGts } else default

/-- The boot controller after a reset. -/
def bootAfter (warm : Bool) (cause : Nat) (b : Boot) : Boot :=
  let kept := { (default : Boot) with
    inReset := if warm then .warm else .cold, step := 1, cause := cause, warm := warm, record := b.record
    preferredFw := b.preferredFw, pgood := b.pgood, sysRstHigh := b.sysRstHigh, warmRstHigh := b.warmRstHigh
    thermTrip := b.thermTrip, clocksLost := b.clocksLost, pinProfileSel := b.pinProfileSel, pinRoleSel := b.pinRoleSel
    pinBootMode := b.pinBootMode }
  if warm then { kept with
    profileSel := b.profileSel, roleSel := b.roleSel, bootMode := b.bootMode, lastProfile := b.lastProfile
    m1Digest := b.m1Digest, m2Digest := b.m2Digest }
  else kept

/-- Layout after a reset: its tables are lost, and JOURNAL_REPLAY_DONE brings in what stands on the drives (R141, R454). The
repairs of the scrub are counted since cold reset (R162). -/
def layAfter (warm : Bool) (l : Lay) : Lay :=
  { State.reset.lay with scrubRepairs := if warm then l.scrubRepairs else [] }


/-- The cipher complex after a reset: session keys are lost; a cold reset loads the other keys afresh (R282, R454). -/
def cipAfter (warm : Bool) (c : Cip) : Cip :=
  { (default : Cip) with
    slots := if warm then c.slots else c.slots.mapAll fun _ k => { k with seals := 0 }
    entries := c.entries, genTop := c.genTop }

/-- Device trust after a reset (R304, R306, R454). -/
def truAfter (warm : Bool) (t : Tru) : Tru :=
  if warm then { t with imageSigner := none }
  else { (default : Tru) with
    fuseSvn := t.fuseSvn, bootCount := t.bootCount, meas := [0, 0, 0, 0], rotation := t.rotation, notBefore := t.notBefore
    imageKeys := t.imageKeys }

/-- The drives' part after a reset: DRV takes each slot's contacts from PWR after a warm one (R206). -/
def drvAfter (warm : Bool) (d : Drv) : Drv :=
  if warm then { (default : Drv) with slots := d.slots.mapAll fun _ b =>
    { (default : DrvSlot) with prsnt0 := b.prsnt0, prsnt1 := b.prsnt1, seated := b.seated } }
  else default

/-- The whole-unit conditions after a reset: a group that kept fences leave below its floor suspends the bound as before
(R38, R61). -/
def floorAfter (s : State) : State := if belowFloor s then s.onCmd fun c => { c with boundStat := setBit 0 3 true } else s

/-- The state that a reset leaves (R454, R492). -/
def resetState (warm : Bool) (cause : Nat) (s : State) : State :=
  floorAfter { State.reset with
    ctl := ctlAfter warm s.ctl, tel := telAfter warm s.tel, boot := bootAfter warm cause s.boot, lay := layAfter warm s.lay
    cip := cipAfter warm s.cip, tru := truAfter warm s.tru, drv := drvAfter warm s.drv
    pwr := if warm then s.pwr else default, regs := regsAfter warm s.regs, out := s.out, free := s.free
    pending := s.pending }

/-- The keys of type 3 are lost, with their handles (R454). -/
def dropSessionKeys (s : State) : State := (keysWhere s fun k => k.typ == 3).foldl (fun s i => freeKey i s) s

/-- A cold reset (R454). -/
def coldReset (cause : Nat) (s : State) : State := resetState false cause (dropSessionKeys s)

/-- A warm reset: the sessions close with cause 4; a cold reset in force stays one (R403, R454, R455). -/
def warmReset (cause : Nat) (s : State) : State :=
  if s.boot.inReset = .cold then s
  else
    let s := (s.ctl.sessions.map (·.1)).foldl (fun s id => closeSession 4 id s) s
    resetState true cause (dropSessionKeys s)

/-! The commands. -/

/-- POWER_ON_RESET (R453): THERMTRIP# is released too (R484). -/
def execPowerOnReset (s : State) : Result :=
  .next (coldReset 1 (s.onBoot fun b => { b with thermTrip := false, sysRstHigh := false, pgood := 1 }))

/-- FUNDAMENTAL_RESET (R453). -/
def execFundamentalReset (s : State) : Result := .next (coldReset 2 (s.onBoot fun b => { b with sysRstHigh := false }))

/-- POWER_GOOD_LOSS (R451): `pgood` is PGOOD[3:0] as sampled. POWER_FAIL is written to the critical event log, except while
THERMTRIP# holds the unit (R484). With PGOOD[0] low the unit is in power-on reset and writes nothing. -/
def execPowerGoodLoss (pgood : Fin 16) (s : State) : Result :=
  let p := pgood.val
  if !s.boot.sysRstHigh ∨ p = 15 then .next s
  else
    let s := s.onBoot fun b => { b with pgood := p }
    if p % 2 = 0 then .next (coldReset 1 s)
    else
      let s := if s.boot.thermTrip then s else logCritical (mkRec s 0x007 4 0x016 p) s
      .next (coldReset 3 s)

/-- WARM_RESET_PIN (R453, R455). -/
def execWarmResetPin (s : State) : Result := .next (warmReset 4 (s.onBoot fun b => { b with warmRstHigh := false }))

/-- SYSTEM_WATCHDOG_EXPIRY (R453): the watchdog runs with the firmware, and is disabled in ROM recovery. -/
def execSystemWatchdogExpiry (s : State) : Result :=
  if s.boot.watchdogOn then .next (warmReset 5 s) else .next s

/-- RECOVERY_RESTART (R465). -/
def execRecoveryRestart (s : State) : Result :=
  if s.boot.restartDue ∧ s.boot.recovery = 3 then .next (warmReset 6 s) else .next s

/-- I3C_RESTART (R466): in either recovery. -/
def execI3cRestart (_port : Fin 2) (s : State) : Result :=
  if s.boot.recovery = 0 then .next s else .next (warmReset 6 s)

/-- A POWER_FAIL written within the last 20 µs gives way to THERM_TRIP, which names the cause (R484). -/
def unsayPowerFail (s : State) : State :=
  match s.ctl.clog.getLast? with
  | some r =>
    if r.event = 0x016 ∧ s.boot.inReset = .cold ∧ s.boot.cause = 3 ∧ s.now ≤ 20000 then
      (s.onCtl fun c => { c with clog := c.clog.dropLast }).setFld F.CTL_CLOG_COUNT_COUNT (s.fld F.CTL_CLOG_COUNT_COUNT - 1)
    else s
  | none => s

/-- THERM_TRIP (R484): the record goes to the critical event log, and the unit is held in reset until a power-on reset. -/
def execThermTrip (s : State) : Result :=
  if s.boot.thermTrip then .next s
  else
    let s := logCritical (mkRec s 0x5C0 4 0xC0D 0) (unsayPowerFail s)
    .next (coldReset s.boot.cause (s.onBoot fun b => { b with thermTrip := true }))

end Sys2Proof.Machine
end

