-- ==== Sys2Proof/Machine/Boot.lean ====
section
/-! DEFINITION. The boot: BOOT_START, PLL_LOCKED and BOOT_DONE (R304, R452, R455 to R464), and reference clocks (R477). -/

namespace Sys2Proof.Machine

/-! Step 1. -/

/-- May the boot begin: a reset is in force, no THERMTRIP#, and SYSCLK runs (R453, R477, R484)? -/
def mayBoot (s : State) : Bool := s.boot.inReset != .none && !s.boot.thermTrip && !s.boot.clocksLost.contains 6

/-- The boot begins at step 1: a cold one samples the straps (R452), BOOT_START is emitted. -/
def startBoot (profileSel roleSel bootMode : Nat) (warmLow : Bool) (s : State) : State :=
  let cold := s.boot.inReset == .cold
  let s := s.onBoot fun b => { b with
    inReset := .none, step := 1, warm := !cold, pgood := 15, sysRstHigh := true, warmRstHigh := !(cold && warmLow)
    releaseGts := s.now, fwSlot := b.preferredFw
    pinProfileSel := profileSel, pinRoleSel := roleSel, pinBootMode := bootMode
    profileSel := if cold then profileSel else b.profileSel, roleSel := if cold then roleSel else b.roleSel
    bootMode := if cold then bootMode else b.bootMode }
  let s := s.setFld F.RED_MODE_ROLE s.boot.roleSel
  emit 0x007 0x013 1 (s.boot.fwSlot * 256 + s.boot.bootMode * 16 + s.boot.cause) s

/-! Step 2: the self-test. -/

/-- Does the self-test test a unit: every one after a cold reset, after a warm one those not fenced, and not the legs (R457,
R461)? Root ports have no test. -/
def tested (s : State) (block : Nat) : Bool :=
  match block with
  | 0 | 3 | 7 | 10 => true
  | 12 => !s.boot.warm
  | _ => false

/-- The units that fail are fenced with reason 7. -/
def selfTest (failing : List (Nat × Nat)) (s : State) : State :=
  (failing.filter fun u => tested s u.1).foldl (fun s u => fenceAny u.1 u.2 7 s) s

/-! Step 3: entropy and firmware (R304, R310, R458). -/

/-- The health tests at the reset's release: entropy is healthy, or fails with the test that failed. -/
def entropyTest (test : Option (Fin 2)) (s : State) : State :=
  match test with
  | none => (s.setFld F.TRU_STAT_ENTROPY_OK 1).setFld F.TRU_STAT_DETERMINISTIC 0
  | some t => emit 0x5B4 0xB03 4 t.val ((s.setFld F.TRU_STAT_ENTROPY_OK 0).setFld F.TRU_STAT_DETERMINISTIC 1)

/-- Why a firmware slot does not verify, as BOOT_VERIFY_FAIL names it: 0 for none, 1 signature, 2 SVN, 4 format (R311). -/
def firmwareCause (s : State) (slot : Nat) : Nat :=
  let x := s.ctl.firmware.at slot
  if !x.valid then 4
  else if !Config.firmwareOk x.content then 1
  else if Config.firmwareSvn x.content < s.tru.fuseSvn then 2
  else 0

/-- The first of two slots that verifies; every one that does not is told (R304 step 2a). -/
def pickFirmware : List Nat → State → State × Option Nat
  | [], s => (s, none)
  | slot :: rest, s =>
    match firmwareCause s slot with
    | 0 => (s, some slot)
    | c => pickFirmware rest (emit 0x5B1 0xB02 4 (c * 16 + 1) s)

/-- A verified firmware is measured, loaded and runs: M0 takes the boot ROM after a cold reset; M1 the firmware, after a warm
one only if it is another (R304, R461). -/
def runFirmware (slot : Nat) (s : State) : State :=
  let x := s.ctl.firmware.at slot
  let d := Config.sha256 x.content
  let svn := Config.firmwareSvn x.content
  let s := if s.boot.warm then s else extend 0 Config.bootRomDigest s
  let s := if s.boot.warm ∧ s.boot.m1Digest = d then s else extend 1 d s
  let s := s.onBoot fun b => { b with fwSlot := slot, m1Digest := d, watchdogOn := true, step := 4 }
  let s := ((s.setFld F.TRU_STAT_FW_SVN svn).setFld F.TRU_STAT_FUSE_SVN s.tru.fuseSvn).setFld F.TRU_STAT_ROTATION s.tru.rotation
  emit 0x5B1 0xB01 1 (min svn 255 * 256 + 1) (countImageKeys s)

/-! Recovery (R462 to R464). -/

/-- The unit enters a recovery boot. In firmware recovery the sessions authenticate against the recovery record. -/
def enterRecovery (kind : Nat) (s : State) : State :=
  let s := s.onBoot fun b => { b with recovery := kind }
  let s := if kind = 2 ∨ !s.boot.record.valid then s
    else s.onCtl fun c => { c with
      principals := s.boot.record.principals, mgmtAddrs := s.boot.record.addrs, udpPort := s.boot.record.udpPort }
  emit 0x007 0x015 4 kind s

/-! Step 5: the key store (R290, R304). -/

/-- A store entry whose copies read as `a` and `b`: the valid copy with the higher SEQ stands, one that fails its CRC is
rewritten; with both bad the entry is lost. -/
def storeEntry (s : State) (e : Nat × Bytes × Bytes) : State :=
  let (i, a, b) := e
  if (s.cip.slots.at i).state ≠ 1 then s
  else match copyOk a, copyOk b with
    | true, true => standCopy i (if copySeq a < copySeq b then b else a) s
    | true, false => emit 0x5B3 0xB05 2 i (standCopy i a s)
    | false, true => emit 0x5B3 0xB05 2 i (standCopy i b s)
    | false, false => emit 0x5B3 0xB06 4 i (onSlot i (fun k => { k with lost := true }) s)

/-! Step 6: the profile and the session key (R304, R459). -/

/-- BOOT_VERIFY_FAIL's cause for a reason of R375: format, signature or signer; 0 where the image verifies. -/
def imageCause (reason : Nat) : Nat :=
  match reason with
  | 1 | 2 => 4
  | 3 => 1
  | 4 => 3
  | _ => 0

/-- The session attestation key is made afresh at a cold boot, and TRU_BOOT_COUNT rises (R300, R304 step 5). -/
def makeSessionKey (s : State) : State :=
  if s.boot.warm ∧ s.tru.sessionKeyMade then s
  else s.onTru fun t => { t with sessionKeyMade := true, sessionGts := s.now, bootCount := t.bootCount + 1 }

/-- The selected profile is verified and measured: the image with its reason of R375, or none where the slot is empty. -/
def verifyProfile (slot : Nat) (s : State) : State × Option (Bytes × Nat) :=
  let x := s.ctl.profiles.at slot
  if !x.valid then (s, none)
  else
    let reason := imageReason s false x.content
    match imageCause reason with
    | 0 =>
      let d := imgDigest x.content
      let s := if s.boot.warm ∧ s.boot.m2Digest = d then s else extend 2 d s
      let s := emit 0x5B1 0xB01 1 (slot * 256 + 2) (s.onBoot fun b => { b with m2Digest := d })
      (s, some (x.content, reason))
    | c => (emit 0x5B1 0xB02 4 (c * 16 + 2) s, some (x.content, reason))

/-! Steps 7 and 8. -/

/-- A root port at step 8 (R206): FENCED stays; unit C of a trio is DETACHED; after a warm reset a seated slot whose leg holds
power good goes to RESET, one without to POWERING, which in a pair asks the partner about its leg; a slot that is not seated
is EMPTY. -/
def bringUpPort (s : State) (slot : Nat) : State :=
  if fencedUnit s 9 slot then onPort slot (fun p => { p with state := 9 }) s
  else if redMode s = 2 ∧ role s = 2 then onPort slot (fun p => { p with state := 10 }) s
  else if !(s.drv.slots.at slot).seated then s
  else if s.boot.warm ∧ legPg s slot then portReset slot s
  else
    let s := onPort slot (fun p => { p with state := 1 }) s
    if s.boot.warm ∧ inGroup s then queryPartner 1 slot (onPort slot (fun p => { p with asked := 1 }) s) else s

/-- RED leaves BOOT (R357): ALONE in mode 0, else JOINING. -/
def leaveBoot (s : State) : State :=
  if redMode s = 0 ∧ roleInMode s (role s) then setRole 1 s else enterJoining s

/-- A CC.EN = 1 held until the image is applied takes effect (R460). -/
def releaseEnables (s : State) : State :=
  (s.cmd.ctrls.keysWhere fun _ c => c.fn.isSome && c.state == 1).foldl (fun s id => enable id s) s

/-- Steps 7 and 8: the image is applied, the legs are released, the ports come up, RED leaves BOOT. -/
def applyAndRelease (slot : Nat) (b : Bytes) (s : State) : State :=
  let pins := !s.boot.warm || s.boot.lastProfile.isNone
  let s := applyImage true pins slot b (s.onBoot fun x => { x with step := 7 })
  let s := releaseEnables (s.onBoot fun x => { x with step := 8 })
  let s := (List.range 48).foldl bringUpPort s
  let s := (List.range 48).foldl (fun s n => if (s.drv.slots.at n).seated then legSeated n s else s) s
  leaveBoot s

/-- The end of step 6: forced recovery, or a profile that cannot be applied, ends the boot in recovery; a boot that finds
WARM_RST# low waits (R455, R459, R462). -/
def endStep6 (profile : Option (Bytes × Nat)) (s : State) : State :=
  let slot := bootSlot s (!s.boot.warm)
  if s.boot.bootMode ≠ 0 then enterRecovery 1 s
  else match profile with
    | none => enterRecovery 3 s
    | some (b, reason) =>
      if reason ≠ 0 then enterRecovery 3 (imageRefused reason 1 slot s)
      else if !s.boot.warmRstHigh then s
      else applyAndRelease slot b s

/-- Steps 4 to 6 once firmware runs, and the end of the boot's steps. -/
def afterFirmware (copies : List (Nat × Bytes × Bytes)) (s : State) : State :=
  let s := s.onBoot fun b => { b with step := 5 }
  let s := if s.boot.warm then s else copies.foldl storeEntry s
  let s := s.onBoot fun b => { b with step := 6 }
  let (s, profile) := verifyProfile (bootSlot s (!s.boot.warm)) s
  endStep6 profile (makeSessionKey s)

/-- BOOT_START: the boot begins at step 1. Where a cold boot waits at the end of step 6 for WARM_RST# to rise, it goes on with
step 7 (R455). `warmLow` is WARM_RST# low. -/
def execBootStart (profileSel : Fin 8) (roleSel bootMode : Fin 4) (warmLow : Bool) (s : State) : Result :=
  if mayBoot s then .next (startBoot profileSel.val roleSel.val bootMode.val warmLow s)
  else if s.boot.inReset = .none ∧ s.boot.step = 6 ∧ s.boot.recovery = 0 ∧ !s.boot.warmRstHigh ∧ !warmLow then
    let slot := bootSlot s (!s.boot.warm)
    .next (applyAndRelease slot (s.ctl.profiles.at slot).content (s.onBoot fun b => { b with warmRstHigh := true }))
  else .next s

/-- PLL_LOCKED: steps 2 to 8. `failing` are the units that fail the self-test, `entropy` the health test that fails, and
`copies` the entries of the key store that do not read as they were last written (`KeySlot.bytes`), with the bytes of both copies. -/
def execPllLocked (failing : List (Nat × Nat)) (entropy : Option (Fin 2)) (copies : List (Nat × Bytes × Bytes)) (s : State) : Result :=
  if s.boot.inReset ≠ .none ∨ s.boot.step ≠ 1 then .next s
  else
    let s := selfTest failing (s.onBoot fun b => { b with step := 2 })
    let s := if s.boot.warm then s else setFans s
    let s := s.onBoot fun b => { b with step := 3 }
    let s := if s.boot.warm then s else entropyTest entropy s
    let first := s.boot.preferredFw
    .next (match pickFirmware [first, 1 - first] s with
      | (s, none) => enterRecovery 2 s
      | (s, some slot) => afterFirmware copies (runFirmware slot s))

/-! Step 9. -/

/-- Is a seated slot's port settled (R457 step 9)? -/
def portSettled (s : State) (slot : Nat) : Bool :=
  !(s.drv.slots.at slot).seated || [5, 6, 7, 9, 10].contains (portOf s slot).state

/-- BOOT_DONE: a single unit starts from the drives; CMD accepts Connects (R457). -/
def execBootDone (s : State) : Result :=
  if s.boot.step ≠ 8 ∨ !([1, 4, 6].contains (redState s)) ∨ !((List.range 48).all (portSettled s)) then .next s
  else
    let s := if redState s = 1 then serveFromDrives s else s
    let ms := (s.now - s.boot.releaseGts) / 1000000
    let s := s.onBoot fun b => { b with step := 10, bootMs := ms }
    .next (emit 0x007 0x014 1 (redState s * 2 ^ 20 + min ms (2 ^ 20 - 1)) s)

/-! Reference clocks (R477). 0 to 3 are REFCLK_NET[q], 4 REFCLK_PCIE, 5 HE_REFCLK in common-clock operation, 6 SYSCLK. -/

/-- PLL_LOSS. -/
def pllLoss (clock : Nat) (s : State) : State :=
  emit (Config.pllLossSource clock).toNat Config.pllLossEvent.toNat Config.pllLossSeverity.val (Config.pllLossData clock).toNat s

/-- The four physical ports of REFCLK_NET[q] go down, and with q = 0 the Leash and the management lanes. -/
def netClockLost (q : Nat) (s : State) : State :=
  let s := (List.range 16).foldl (fun s i => loseLink (16 * q + i) 1 s) s
  if q ≠ 0 then s
  else
    let s := leashDown 1 1 (leashDown 0 1 s)
    (s.ctl.sessions.map (·.1)).foldl (fun s id => closeSession 3 id s) s

/-- Every root port's link goes down: a port in READY retrains until the clock is back or its attempts are spent (R207). -/
def pcieClockLost (s : State) : State :=
  (List.range 48).foldl (fun s n =>
    let s := onPort n (fun p => { p with refClock := false }) s
    retrainPort n (onPort n (fun p => { p with speed := 0, width := 0 }) s)) s

/-- CLOCK_LOST. -/
def execClockLost (clock : Fin 7) (s : State) : Result :=
  let c := clock.val
  if s.boot.clocksLost.contains c then .next s
  else
    let s := s.onBoot fun b => { b with clocksLost := b.clocksLost ++ [c] }
    if c = 6 then
      if s.boot.inReset = .cold then .next s
      else .next (coldReset 3 (logCritical (mkRec s 0x007 4 0x016 15) s))
    else
      let s := pllLoss c s
      .next (if c < 4 then netClockLost c s
        else if c = 4 then pcieClockLost s
        else if s.fld F.HEP_LINK_STAT_UP = 1 then resetEndpoint 2 (dropHeLink s) else s)

/-- CLOCK_PRESENT: the lanes may train again; the reference clocks to the drives run with REFCLK_PCIE. After SYSCLK's return
the boot follows (BOOT_START). -/
def execClockPresent (clock : Fin 7) (s : State) : Result :=
  let c := clock.val
  if !s.boot.clocksLost.contains c then .next s
  else
    let s := s.onBoot fun b => { b with clocksLost := b.clocksLost.filter (· != c) }
    .next (if c = 4 then s.onDrv fun d => { d with ports := d.ports.mapAll fun _ p =>
        if 2 ≤ p.state ∧ p.state ≤ 6 then { p with refClock := true } else p }
      else s)

end Sys2Proof.Machine
end

