-- ==== Sys2Proof/Machine/IoCommands.lean ====
section
/-! DEFINITION. The I/O commands: READ to INVALID_COMMAND_OPCODE (R45, R48, R67). Each capsule goes through admission and
waits for a grant. -/

namespace Sys2Proof.Machine

/-- A command on a range of blocks. -/
def blockCapsule (h : IoHdr) (opc slba nlb : Nat) (s : State) : Capsule :=
  { capsule h opc (blockBytes s h.nsid nlb) with slba := slba, ranges := [(slba, nlb)] }

/-- A command on a key. -/
def keyCapsule (h : IoHdr) (opc xlen : Nat) (key : Bytes) : Capsule := { capsule h opc xlen with key := key }

/-- READ (R45, R59). -/
def execRead (h : IoHdr) (slba nlb : Nat) (sgl : List Sgl) (s : State) : Result :=
  .next (admitCap ((blockCapsule h 0x02 slba nlb s).withData sgl []) s)

/-- WRITE (R45, R58). -/
def execWrite (h : IoHdr) (slba nlb : Nat) (sgl : List Sgl) (inline : Bytes) (s : State) : Result :=
  .next (admitCap ((blockCapsule h 0x01 slba nlb s).withData sgl inline) s)

/-- FLUSH: nothing completed is volatile, so the grant completes it (R67). -/
def execFlush (h : IoHdr) (s : State) : Result := .next (admitCap (capsule h 0x00 0) s)

/-- COMPARE (R45). -/
def execCompare (h : IoHdr) (slba nlb : Nat) (sgl : List Sgl) (inline : Bytes) (s : State) : Result :=
  .next (admitCap ((blockCapsule h 0x05 slba nlb s).withData sgl inline) s)

/-- VERIFY: its transfer length counts the blocks addressed (R53). -/
def execVerify (h : IoHdr) (slba nlb : Nat) (s : State) : Result := .next (admitCap (blockCapsule h 0x0C slba nlb s) s)

/-- WRITE_ZEROES: a removal of the range (R142). -/
def execWriteZeroes (h : IoHdr) (slba nlb : Nat) (s : State) : Result := .next (admitCap (blockCapsule h 0x08 slba nlb s) s)

/-- DATASET_MANAGEMENT: only the deallocate attribute is accepted (R45). -/
def execDatasetManagement (h : IoHdr) (deallocate : Bool) (ranges : List (Nat × Nat)) (s : State) : Result :=
  .next (admitCap { capsule h 0x09 (blockBytes s h.nsid (ranges.map (·.2)).sum) with
    ranges := ranges, refusal := if deallocate then none else some stInvalidField } s)

/-- KV_STORE (R48). -/
def execKvStore (h : IoHdr) (key : Bytes) (len : Nat) (sgl : List Sgl) (inline : Bytes) (s : State) : Result :=
  .next (admitCap ((keyCapsule h 0x81 len key).withData sgl inline) s)

/-- KV_RETRIEVE into a buffer of `bufLen` bytes (R142). -/
def execKvRetrieve (h : IoHdr) (key : Bytes) (bufLen : Nat) (sgl : List Sgl) (s : State) : Result :=
  .next (admitCap ((keyCapsule h 0x82 bufLen key).withData sgl []) s)

/-- KV_DELETE. -/
def execKvDelete (h : IoHdr) (key : Bytes) (s : State) : Result := .next (admitCap (keyCapsule h 0x90 0 key) s)

/-- KV_EXIST. -/
def execKvExist (h : IoHdr) (key : Bytes) (s : State) : Result := .next (admitCap (keyCapsule h 0x94 0 key) s)

/-- KV_LIST from a key on (R48). -/
def execKvList (h : IoHdr) (key : Bytes) (bufLen : Nat) (sgl : List Sgl) (s : State) : Result :=
  .next (admitCap ((keyCapsule h 0x86 bufLen key).withData sgl []) s)

/-- KV_FLUSH (R67). -/
def execKvFlush (h : IoHdr) (s : State) : Result := .next (admitCap (capsule h 0x80 0) s)

end Sys2Proof.Machine
end

