-- ==== Sys2Proof/Machine/PowerStates.lean ====
section
/-! DEFINITION. Power states and self-tests: IDLE_TIMER_EXPIRY to SELFTEST_TIMEOUT (R62, R74 to R79). -/

namespace Sys2Proof.Machine

/-- The idle time of the next deeper state (R75). -/
def idleTimer (s : State) (new : Nat) : Nat :=
  match new with
  | 1 => s.fld F.CMD_IDLE_TIMER0_IDLE_US
  | 2 => s.fld F.CMD_IDLE_TIMER1_IDLE_US
  | 3 => s.fld F.CMD_IDLE_TIMER2_IDLE_US
  | _ => s.fld F.CMD_IDLE_TIMER3_IDLE_US

/-- May the unit move to a deeper state: its timer is enabled, no I/O command is queued or live, no exit is in progress, PS0
is not held by a class 0 queue (R62), no READY controller limits it, and PS4 is enabled (R75)
with an enabled filter on an enabled wake port (R234)
and no PCIe controller in READY, SHUTTING or DISABLING (R315)? -/
def mayDeepen (s : State) (new : Nat) : Bool :=
  decide (new ≤ 4) && idleTimer s new != 0 && s.cmd.table.isEmpty && s.cmd.queued.all (·.late) && !s.cmd.exiting &&
    !(s.fld F.CMD_CFG_PS0_HOLD == 1 && anyC0Queue s) &&
    decide (new ≤ pmLimit s) && (new != 4 || (s.fld F.CMD_PS_CFG_PS4_EN == 1 && wakeReady s && !(s.cmd.ctrls.any fun e => e.2.fn.isSome && [2, 3, 5].contains e.2.state)))

/-- IDLE_TIMER_EXPIRY (R75, R76): one state deeper; an exit at the same GTS is taken instead. -/
def execIdleTimerExpiry (s : State) : Result :=
  if mayDeepen s (s.cmd.ps + 1) then .next (psChange (s.cmd.ps + 1) s) else .next s

/-- The effect of an admin or Fabrics command that waited for PS0 (R77; `hold`). -/
def runHeld (s : State) : Instr → State
  | .connect conn nqn qid size cntlid cid kato => runConnect conn nqn qid size cntlid cid kato s
  | .propertyGet a offset => runPropertyGet a offset s
  | .propertySet a offset value => runPropertySet a offset value s
  | .ccEnWritten1 cntlid cid cc aqa asq acq => runCcEnWritten1 cntlid cid cc aqa asq acq s
  | .ccEnWritten0 cntlid cid cc => runCcEnWritten0 cntlid cid cc s
  | .ccShnNormalShutdown cntlid cid cc => runCcShnNormalShutdown cntlid cid cc s
  | .ccShnAbruptShutdown cntlid cid cc => runCcShnAbruptShutdown cntlid cid cc s
  | .disconnect a sqid => runDisconnect a sqid s
  | .identify a cns nsid => runIdentify a cns nsid s
  | .getLogPage a lid nsid => runGetLogPage a lid nsid s
  | .setFeatures a fid value => runSetFeatures a fid value s
  | .getFeatures a fid value => runGetFeatures a fid value s
  | .keepAlive a => runKeepAlive a s
  | .abort a sqid target others => runAbort a sqid target others s
  | .asynchronousEventRequest a => runAsynchronousEventRequest a s
  | .deviceSelfTestShort a nsid => runDeviceSelfTestShort a nsid s
  | .deviceSelfTestExtended a nsid => runDeviceSelfTestExtended a nsid s
  | .deviceSelfTestAbort a => runDeviceSelfTestAbort a s
  | .invalidCommandOpcode a _ _ => adminCommand a (postAdmin a stInvalidOpcode 0) s
  | .createIoSubmissionQueue a qid size cqid contiguous base => runCreateIoSubmissionQueue a qid size cqid contiguous base s
  | .createIoCompletionQueue a qid size vector interrupts contiguous base =>
    runCreateIoCompletionQueue a qid size vector interrupts contiguous base s
  | _ => s

/-- POWER_STATE_EXIT_DONE: PS0 is reached, and the commands that came during the exit are served in the order of arrival, the
capsules after the admin commands (R76, R77). -/
def execPowerStateExitDone (s : State) : Result :=
  if s.cmd.exiting then
    let s := psChange 0 (s.onCmd fun c => { c with exiting := false, idleFrom := s.now })
    .next (testWaiting (s.waiting.foldl runHeld { s with waiting := [] }))
  else .next s

/-- Does a test cover a unit of a block: a cipher lane, a layout lane, or the bank that was marched (R78)? -/
def TestItem.covers (unit : Nat) (block : Nat) : TestItem → Bool
  | .cipherLanes => block == 10
  | .layoutLanes => block == 7
  | .march b => block == 3 && b == unit
  | _ => false

/-- SELFTEST_DONE (R78, R79): the lanes and the bank that the test covered and found failed are fenced, with reason 1. -/
def execSelftestDone (result : Nat) (failed : List (Nat × Nat)) (s : State) : Result :=
  let items := s.cmd.test.items
  let bad := failed.filter fun u => items.any (TestItem.covers u.2 u.1)
  .next (bad.foldl (fun s u => fenceAny u.1 u.2 1 s) (endSelfTest (result % 16) s))

/-- SELFTEST_TIMEOUT: a short test stops with result 0x8 (R79). -/
def execSelftestTimeout (s : State) : Result := if s.cmd.test.code = 1 then .next (endSelfTest 8 s) else .next s

end Sys2Proof.Machine
end

