-- ==== Sys2Proof/Machine/Dispatch.lean ====
section
/-! DEFINITION. One arm per command: a direct call of the command's meaning. -/

namespace Sys2Proof.Machine

/-- The effect of a command on everything but the queue. -/
def exec (i : Instr) (s : State) : Host.Outcome State Fault Refusal :=
  match i with
  | .registerWrite path session addr value => Sys2Proof.Machine.execRegisterWrite path session addr value s
  | .rcFieldRead path addr => Sys2Proof.Machine.execRcFieldRead path addr s
  | .pairLowWordRead path addr => Sys2Proof.Machine.execPairLowWordRead path addr s
  | .pairHighWordRead path addr => Sys2Proof.Machine.execPairHighWordRead path addr s
  | .pairLowWordWrite path session addr value => Sys2Proof.Machine.execPairLowWordWrite path session addr value s
  | .pairHighWordWrite path session addr value => Sys2Proof.Machine.execPairHighWordWrite path session addr value s
  | .addrUnmapped path addr isWrite => Sys2Proof.Machine.execAddrUnmapped path addr isWrite s
  | .unsupportedRequestBar0 addr => Sys2Proof.Machine.execUnsupportedRequestBar0 addr s
  | .gtsMeasurement offset => Sys2Proof.Machine.execGtsMeasurement offset s
  | .gtsMeasurementTimeout => Sys2Proof.Machine.execGtsMeasurementTimeout s
  | .ppsInEdge => Sys2Proof.Machine.execPpsInEdge s
  | .ppsOutEdge => Sys2Proof.Machine.execPpsOutEdge s
  | .eventRecord => Sys2Proof.Machine.execEventRecord s
  | .recordRelease => Sys2Proof.Machine.execRecordRelease s
  | .unitFenced block unit reason request => Sys2Proof.Machine.execUnitFenced block unit reason request s
  | .controlCoreWatchdog core onto request => Sys2Proof.Machine.execControlCoreWatchdog core onto request s
  | .prefixFenceOrder path session block unit => Sys2Proof.Machine.execPrefixFenceOrder path session block unit s
  | .connect conn nqn qid size cntlid cid kato => Sys2Proof.Machine.execConnect conn nqn qid size cntlid cid kato s
  | .propertyGet a offset => Sys2Proof.Machine.execPropertyGet a offset s
  | .propertySet a offset value => Sys2Proof.Machine.execPropertySet a offset value s
  | .ccEnWritten1 cntlid cid cc aqa asq acq => Sys2Proof.Machine.execCcEnWritten1 cntlid cid cc aqa asq acq s
  | .ccEnWritten0 cntlid cid cc => Sys2Proof.Machine.execCcEnWritten0 cntlid cid cc s
  | .ccShnNormalShutdown cntlid cid cc => Sys2Proof.Machine.execCcShnNormalShutdown cntlid cid cc s
  | .ccShnAbruptShutdown cntlid cid cc => Sys2Proof.Machine.execCcShnAbruptShutdown cntlid cid cc s
  | .disconnect a sqid => Sys2Proof.Machine.execDisconnect a sqid s
  | .identify a cns nsid => Sys2Proof.Machine.execIdentify a cns nsid s
  | .getLogPage a lid nsid => Sys2Proof.Machine.execGetLogPage a lid nsid s
  | .setFeatures a fid value => Sys2Proof.Machine.execSetFeatures a fid value s
  | .getFeatures a fid value => Sys2Proof.Machine.execGetFeatures a fid value s
  | .keepAlive a => Sys2Proof.Machine.execKeepAlive a s
  | .abort a sqid target others => Sys2Proof.Machine.execAbort a sqid target others s
  | .asynchronousEventRequest a => Sys2Proof.Machine.execAsynchronousEventRequest a s
  | .deviceSelfTestShort a nsid => Sys2Proof.Machine.execDeviceSelfTestShort a nsid s
  | .deviceSelfTestExtended a nsid => Sys2Proof.Machine.execDeviceSelfTestExtended a nsid s
  | .deviceSelfTestAbort a => Sys2Proof.Machine.execDeviceSelfTestAbort a s
  | .read h slba nlb sgl => Sys2Proof.Machine.execRead h slba nlb sgl s
  | .write h slba nlb sgl inline => Sys2Proof.Machine.execWrite h slba nlb sgl inline s
  | .flush h => Sys2Proof.Machine.execFlush h s
  | .compare h slba nlb sgl inline => Sys2Proof.Machine.execCompare h slba nlb sgl inline s
  | .verify h slba nlb => Sys2Proof.Machine.execVerify h slba nlb s
  | .writeZeroes h slba nlb => Sys2Proof.Machine.execWriteZeroes h slba nlb s
  | .datasetManagement h deallocate ranges => Sys2Proof.Machine.execDatasetManagement h deallocate ranges s
  | .kvStore h key len sgl inline => Sys2Proof.Machine.execKvStore h key len sgl inline s
  | .kvRetrieve h key bufLen sgl => Sys2Proof.Machine.execKvRetrieve h key bufLen sgl s
  | .kvDelete h key => Sys2Proof.Machine.execKvDelete h key s
  | .kvExist h key => Sys2Proof.Machine.execKvExist h key s
  | .kvList h key bufLen sgl => Sys2Proof.Machine.execKvList h key bufLen sgl s
  | .kvFlush h => Sys2Proof.Machine.execKvFlush h s
  | .invalidCommandOpcode a sqid opc => Sys2Proof.Machine.execInvalidCommandOpcode a sqid opc s
  | .createIoSubmissionQueue a qid size cqid contiguous base => Sys2Proof.Machine.execCreateIoSubmissionQueue a qid size cqid contiguous base s
  | .createIoCompletionQueue a qid size vector interrupts contiguous base => Sys2Proof.Machine.execCreateIoCompletionQueue a qid size vector interrupts contiguous base s
  | .arbiterGrant port => Sys2Proof.Machine.execArbiterGrant port s
  | .lastDataCellStored entry => Sys2Proof.Machine.execLastDataCellStored entry s
  | .lastParityCellReady entry => Sys2Proof.Machine.execLastParityCellReady entry s
  | .unitWriteCompletion write slot result => Sys2Proof.Machine.execUnitWriteCompletion write slot result s
  | .driveReadCompletion entry set row unit header data result => Sys2Proof.Machine.execDriveReadCompletion entry set row unit header data result s
  | .journalCompletion jseq slot result => Sys2Proof.Machine.execJournalCompletion jseq slot result s
  | .rdmaWriteAcknowledged entry => Sys2Proof.Machine.execRdmaWriteAcknowledged entry s
  | .completionHandedToXpt entry => Sys2Proof.Machine.execCompletionHandedToXpt entry s
  | .drainFinished cntlid => Sys2Proof.Machine.execDrainFinished cntlid s
  | .keepAliveTimeout cntlid => Sys2Proof.Machine.execKeepAliveTimeout cntlid s
  | .activateImage path session value => Sys2Proof.Machine.execActivateImage path session value s
  | .activateFirmware path session value => Sys2Proof.Machine.execActivateFirmware path session value s
  | .actDrained => Sys2Proof.Machine.execActDrained s
  | .actDeferred => Sys2Proof.Machine.execActDeferred s
  | .actDone => Sys2Proof.Machine.execActDone s
  | .boundResumed => Sys2Proof.Machine.execBoundResumed s
  | .idleTimerExpiry => Sys2Proof.Machine.execIdleTimerExpiry s
  | .powerStateExitDone => Sys2Proof.Machine.execPowerStateExitDone s
  | .selftestDone result failed => Sys2Proof.Machine.execSelftestDone result failed s
  | .selftestTimeout => Sys2Proof.Machine.execSelftestTimeout s
  | .cmReq r => Sys2Proof.Machine.execCmReq r s
  | .cmRtu qpn => Sys2Proof.Machine.execCmRtu qpn s
  | .cmDreq qpn => Sys2Proof.Machine.execCmDreq qpn s
  | .cmDrep qpn => Sys2Proof.Machine.execCmDrep qpn s
  | .contextDrainTimeout qpn => Sys2Proof.Machine.execContextDrainTimeout qpn s
  | .contextErrorTimeout qpn => Sys2Proof.Machine.execContextErrorTimeout qpn s
  | .sendReceived p last payload => Sys2Proof.Machine.execSendReceived p last payload s
  | .sendWithImmediateReceived p imm payload => Sys2Proof.Machine.execSendWithImmediateReceived p imm payload s
  | .sendWithInvalidateReceived p key payload => Sys2Proof.Machine.execSendWithInvalidateReceived p key payload s
  | .rdmaWriteReceived p reth last data => Sys2Proof.Machine.execRdmaWriteReceived p reth last data s
  | .rdmaWriteWithImmediateReceived p reth imm data => Sys2Proof.Machine.execRdmaWriteWithImmediateReceived p reth imm data s
  | .rdmaReadRequestReceived p reth => Sys2Proof.Machine.execRdmaReadRequestReceived p reth s
  | .rdmaReadResponseReceived qpn psn ecn data => Sys2Proof.Machine.execRdmaReadResponseReceived qpn psn ecn data s
  | .acknowledgeReceived qpn psn ecn ofReads => Sys2Proof.Machine.execAcknowledgeReceived qpn psn ecn ofReads s
  | .nakPsnSequenceErrorReceived qpn psn => Sys2Proof.Machine.execNakPsnSequenceErrorReceived qpn psn s
  | .rnrNakReceived qpn psn timer => Sys2Proof.Machine.execRnrNakReceived qpn psn timer s
  | .nakRemoteAccessErrorReceived qpn psn => Sys2Proof.Machine.execNakRemoteAccessErrorReceived qpn psn s
  | .nakInvalidRequestReceived qpn psn => Sys2Proof.Machine.execNakInvalidRequestReceived qpn psn s
  | .cnpReceived qpn => Sys2Proof.Machine.execCnpReceived qpn s
  | .invalidOpcodePacket p opcode => Sys2Proof.Machine.execInvalidOpcodePacket p opcode s
  | .ackTimeout qpn => Sys2Proof.Machine.execAckTimeout qpn s
  | .rnrWaitExpiry qpn => Sys2Proof.Machine.execRnrWaitExpiry qpn s
  | .ackCoalescingTimeout qpn => Sys2Proof.Machine.execAckCoalescingTimeout qpn s
  | .contextFill ctx dirty checkOk => Sys2Proof.Machine.execContextFill ctx dirty checkOk s
  | .victimWriteBack => Sys2Proof.Machine.execVictimWriteBack s
  | .xptInvCtrl path session value => Sys2Proof.Machine.execXptInvCtrl path session value s
  | .invLimitReached region => Sys2Proof.Machine.execInvLimitReached region s
  | .xptCtxSel path session value => Sys2Proof.Machine.execXptCtxSel path session value s
  | .triggerArm entry tag qpn head mbufLen mbuf posts => Sys2Proof.Machine.execTriggerArm entry tag qpn head mbufLen mbuf posts s
  | .triggerDisarm entry => Sys2Proof.Machine.execTriggerDisarm entry s
  | .triggerReclaim entry => Sys2Proof.Machine.execTriggerReclaim entry s
  | .chainStart => Sys2Proof.Machine.execChainStart s
  | .workRequestCompletion chain wr status => Sys2Proof.Machine.execWorkRequestCompletion chain wr status s
  | .wrRdmaWrite chain => Sys2Proof.Machine.execWrRdmaWrite chain s
  | .wrRdmaWriteWithImmediate chain => Sys2Proof.Machine.execWrRdmaWriteWithImmediate chain s
  | .wrSend chain => Sys2Proof.Machine.execWrSend chain s
  | .wrRdmaRead chain => Sys2Proof.Machine.execWrRdmaRead chain s
  | .wrDriveRead chain => Sys2Proof.Machine.execWrDriveRead chain s
  | .wrDriveWrite chain => Sys2Proof.Machine.execWrDriveWrite chain s
  | .wrDigestCheck chain => Sys2Proof.Machine.execWrDigestCheck chain s
  | .wrCustodyRecord chain => Sys2Proof.Machine.execWrCustodyRecord chain s
  | .wrEnvelopeSeal chain => Sys2Proof.Machine.execWrEnvelopeSeal chain s
  | .wrEnvelopeOpen chain => Sys2Proof.Machine.execWrEnvelopeOpen chain s
  | .wrWaitUntilGts chain => Sys2Proof.Machine.execWrWaitUntilGts chain s
  | .waitGtsReached chain wr => Sys2Proof.Machine.execWaitGtsReached chain wr s
  | .wrNotify chain => Sys2Proof.Machine.execWrNotify chain s
  | .layoutSliceDone lane ok => Sys2Proof.Machine.execLayoutSliceDone lane ok s
  | .sealIdleTimeout set => Sys2Proof.Machine.execSealIdleTimeout set s
  | .setSealed set => Sys2Proof.Machine.execSetSealed set s
  | .reclaimDone set units => Sys2Proof.Machine.execReclaimDone set units s
  | .journalReplayDone regions tail headers store => Sys2Proof.Machine.execJournalReplayDone regions tail headers store s
  | .ckptInterval => Sys2Proof.Machine.execCkptInterval s
  | .layCkptCtrlStart path session value => Sys2Proof.Machine.execLayCkptCtrlStart path session value s
  | .checkpointWriteCompletion slot result => Sys2Proof.Machine.execCheckpointWriteCompletion slot result s
  | .rebuildSetDone rows => Sys2Proof.Machine.execRebuildSetDone rows s
  | .readRepair set row unit units => Sys2Proof.Machine.execReadRepair set row unit units s
  | .driveReturned slot => Sys2Proof.Machine.execDriveReturned slot s
  | .scrubRow set row units => Sys2Proof.Machine.execScrubRow set row units s
  | .layFormatOrder path session value => Sys2Proof.Machine.execLayFormatOrder path session value s
  | .batchClosed => Sys2Proof.Machine.execBatchClosed s
  | .batchSealed signMs => Sys2Proof.Machine.execBatchSealed signMs s
  | .leavesRecomputed units => Sys2Proof.Machine.execLeavesRecomputed units s
  | .fixityAuditObject extent units => Sys2Proof.Machine.execFixityAuditObject extent units s
  | .migWindowPlanned job count trigger place units => Sys2Proof.Machine.execMigWindowPlanned job count trigger place units s
  | .manifestPlan job peerSlot window entries trigger place => Sys2Proof.Machine.execManifestPlan job peerSlot window entries trigger place s
  | .manifestAck job window statuses => Sys2Proof.Machine.execManifestAck job window statuses s
  | .manifestVoid job window statuses => Sys2Proof.Machine.execManifestVoid job window statuses s
  | .manifestFinal job => Sys2Proof.Machine.execManifestFinal job s
  | .migRegionsRegistered job regions => Sys2Proof.Machine.execMigRegionsRegistered job regions s
  | .migCutoverOrder path session value => Sys2Proof.Machine.execMigCutoverOrder path session value s
  | .migAbortOrder path session value => Sys2Proof.Machine.execMigAbortOrder path session value s
  | .cutoverTimeout job => Sys2Proof.Machine.execCutoverTimeout job s
  | .migConnectionErrorTimeout job => Sys2Proof.Machine.execMigConnectionErrorTimeout job s
  | .presenceSeated slot => Sys2Proof.Machine.execPresenceSeated slot s
  | .presenceRemoval slot low0 low1 line => Sys2Proof.Machine.execPresenceRemoval slot low0 low1 line s
  | .perstReleaseTimer slot => Sys2Proof.Machine.execPerstReleaseTimer slot s
  | .driveLinkUp slot rate width corrected => Sys2Proof.Machine.execDriveLinkUp slot rate width corrected s
  | .trainingTimeout slot => Sys2Proof.Machine.execTrainingTimeout slot s
  | .driveAdminCompletion slot facts => Sys2Proof.Machine.execDriveAdminCompletion slot facts s
  | .initStepTimeout slot cfs => Sys2Proof.Machine.execInitStepTimeout slot cfs s
  | .ioCommandTimeout slot => Sys2Proof.Machine.execIoCommandTimeout slot s
  | .adminCommandTimeout slot => Sys2Proof.Machine.execAdminCommandTimeout slot s
  | .controllerFatalStatus slot => Sys2Proof.Machine.execControllerFatalStatus slot s
  | .driveLinkDown slot retrained corrected => Sys2Proof.Machine.execDriveLinkDown slot retrained corrected s
  | .dmaFault slot start len => Sys2Proof.Machine.execDmaFault slot start len s
  | .preemptCompletion slot conflict => Sys2Proof.Machine.execPreemptCompletion slot conflict s
  | .drvPortRetrain path session value => Sys2Proof.Machine.execDrvPortRetrain path session value s
  | .drvPortDisable path session value => Sys2Proof.Machine.execDrvPortDisable path session value s
  | .drvPortEnable path session value => Sys2Proof.Machine.execDrvPortEnable path session value s
  | .drvPortRecover path session value => Sys2Proof.Machine.execDrvPortRecover path session value s
  | .drvPwrdisOrder path session value => Sys2Proof.Machine.execDrvPwrdisOrder path session value s
  | .pwrdisRelease slot => Sys2Proof.Machine.execPwrdisRelease slot s
  | .legPgWaitTimeout slot => Sys2Proof.Machine.execLegPgWaitTimeout slot s
  | .smbusPoll slot reply serial => Sys2Proof.Machine.execSmbusPoll slot reply serial s
  | .frameReceived lport frame fcsOk => Sys2Proof.Machine.execFrameReceived lport frame fcsOk s
  | .linkUp lport => Sys2Proof.Machine.execLinkUp lport s
  | .linkDown lport cause partialFrame => Sys2Proof.Machine.execLinkDown lport cause partialFrame s
  | .fecDegraded lport codewords => Sys2Proof.Machine.execFecDegraded lport codewords s
  | .fecDegradedCleared lport => Sys2Proof.Machine.execFecDegradedCleared lport s
  | .pfcFrameReceived lport timers => Sys2Proof.Machine.execPfcFrameReceived lport timers s
  | .pfcPauseExpiry lport prio => Sys2Proof.Machine.execPfcPauseExpiry lport prio s
  | .pfcRefresh lport prio => Sys2Proof.Machine.execPfcRefresh lport prio s
  | .frameTransmitted lport ptp => Sys2Proof.Machine.execFrameTransmitted lport ptp s
  | .prtTsCtrl path session value => Sys2Proof.Machine.execPrtTsCtrl path session value s
  | .wakeMatch lport frame => Sys2Proof.Machine.execWakeMatch lport frame s
  | .clsRuleRead path session value => Sys2Proof.Machine.execClsRuleRead path session value s
  | .clsRuleWrite path session value => Sys2Proof.Machine.execClsRuleWrite path session value s
  | .clsRuleInvalidate path session value => Sys2Proof.Machine.execClsRuleInvalidate path session value s
  | .bloodhoundPass bank => Sys2Proof.Machine.execBloodhoundPass bank s
  | .swcMcRead path session value => Sys2Proof.Machine.execSwcMcRead path session value s
  | .swcMcWrite path session value => Sys2Proof.Machine.execSwcMcWrite path session value s
  | .tmgQRead path session value => Sys2Proof.Machine.execTmgQRead path session value s
  | .tmgQWrite path session value => Sys2Proof.Machine.execTmgQWrite path session value s
  | .tmgPolRead path session value => Sys2Proof.Machine.execTmgPolRead path session value s
  | .tmgPolWrite path session value => Sys2Proof.Machine.execTmgPolWrite path session value s
  | .tmgGateRead path session value => Sys2Proof.Machine.execTmgGateRead path session value s
  | .tmgGateWrite path session value => Sys2Proof.Machine.execTmgGateWrite path session value s
  | .tmgGateCommit path session value => Sys2Proof.Machine.execTmgGateCommit path session value s
  | .tmgGateStop path session value => Sys2Proof.Machine.execTmgGateStop path session value s
  | .gateSwitch lport => Sys2Proof.Machine.execGateSwitch lport s
  | .gateListStopped lport => Sys2Proof.Machine.execGateListStopped lport s
  | .gateEntryEnd lport => Sys2Proof.Machine.execGateEntryEnd lport s
  | .tmgHistSel path session value => Sys2Proof.Machine.execTmgHistSel path session value s
  | .mediaQueueGrant bytes => Sys2Proof.Machine.execMediaQueueGrant bytes s
  | .cipherRequest r => Sys2Proof.Machine.execCipherRequest r s
  | .cipherSegmentDone lane ok => Sys2Proof.Machine.execCipherSegmentDone lane ok s
  | .laneKnownAnswerTest lane ok => Sys2Proof.Machine.execLaneKnownAnswerTest lane ok s
  | .keyGenerate path session value => Sys2Proof.Machine.execKeyGenerate path session value s
  | .keyImport path session value => Sys2Proof.Machine.execKeyImport path session value s
  | .keyExport path session value => Sys2Proof.Machine.execKeyExport path session value s
  | .keyDestroy path session value => Sys2Proof.Machine.execKeyDestroy path session value s
  | .keyEscrowAgain path session value => Sys2Proof.Machine.execKeyEscrowAgain path session value s
  | .keyOrderDone => Sys2Proof.Machine.execKeyOrderDone s
  | .truRotate path session value => Sys2Proof.Machine.execTruRotate path session value s
  | .truRollback path session value => Sys2Proof.Machine.execTruRollback path session value s
  | .truEnrolImageKey path session value => Sys2Proof.Machine.execTruEnrolImageKey path session value s
  | .truRemoveImageKey path session value => Sys2Proof.Machine.execTruRemoveImageKey path session value s
  | .entropyFail test => Sys2Proof.Machine.execEntropyFail test s
  | .entropyOk => Sys2Proof.Machine.execEntropyOk s
  | .heLinkUp speed width flit cfg => Sys2Proof.Machine.execHeLinkUp speed width flit cfg s
  | .heLinkDown => Sys2Proof.Machine.execHeLinkDown s
  | .heFundamentalReset => Sys2Proof.Machine.execHeFundamentalReset s
  | .heHotReset => Sys2Proof.Machine.execHeHotReset s
  | .flrPf1 => Sys2Proof.Machine.execFlrPf1 s
  | .flrVf vf => Sys2Proof.Machine.execFlrVf vf s
  | .flrPf0 => Sys2Proof.Machine.execFlrPf0 s
  | .flrComplete fn cfg => Sys2Proof.Machine.execFlrComplete fn cfg s
  | .vfEnable numVfs enable cfg => Sys2Proof.Machine.execVfEnable numVfs enable cfg s
  | .bmeCleared fn => Sys2Proof.Machine.execBmeCleared fn s
  | .submissionQueueDoorbell fn qid tail => Sys2Proof.Machine.execSubmissionQueueDoorbell fn qid tail s
  | .completionQueueDoorbell fn qid head => Sys2Proof.Machine.execCompletionQueueDoorbell fn qid head s
  | .hostReadCompletion tag status byteCount data => Sys2Proof.Machine.execHostReadCompletion tag status byteCount data s
  | .cplTimeout tag => Sys2Proof.Machine.execCplTimeout tag s
  | .tagHoldExpiry tag => Sys2Proof.Machine.execTagHoldExpiry tag s
  | .msixUnmask fn vector => Sys2Proof.Machine.execMsixUnmask fn vector s
  | .peerMemoryRequest offset len write => Sys2Proof.Machine.execPeerMemoryRequest offset len write s
  | .hepPwinCommit path session value => Sys2Proof.Machine.execHepPwinCommit path session value s
  | .pwinCommit => Sys2Proof.Machine.execPwinCommit s
  | .hepPptRead path session value => Sys2Proof.Machine.execHepPptRead path session value s
  | .hepPptWrite path session value => Sys2Proof.Machine.execHepPptWrite path session value s
  | .leashUp link role => Sys2Proof.Machine.execLeashUp link role s
  | .leashLockLost link => Sys2Proof.Machine.execLeashLockLost link s
  | .leashSilence link => Sys2Proof.Machine.execLeashSilence link s
  | .leashResendTimeout link => Sys2Proof.Machine.execLeashResendTimeout link s
  | .idleFrameTimer link => Sys2Proof.Machine.execIdleFrameTimer link s
  | .idleFrameReceived h gts => Sys2Proof.Machine.execIdleFrameReceived h gts s
  | .epochEnd => Sys2Proof.Machine.execEpochEnd s
  | .epochFrameReceived h rec_ => Sys2Proof.Machine.execEpochFrameReceived h rec_ s
  | .noticeFrameReceived h ns => Sys2Proof.Machine.execNoticeFrameReceived h ns s
  | .echoReceived h epoch votes => Sys2Proof.Machine.execEchoReceived h epoch votes s
  | .voteMissed role => Sys2Proof.Machine.execVoteMissed role s
  | .epochMiss => Sys2Proof.Machine.execEpochMiss s
  | .probeReceived h about => Sys2Proof.Machine.execProbeReceived h about s
  | .probeReplyReceived h about misses heel => Sys2Proof.Machine.execProbeReplyReceived h about misses heel s
  | .probeTimeout => Sys2Proof.Machine.execProbeTimeout s
  | .takeoverReplayDone tail ckpt store driveNs => Sys2Proof.Machine.execTakeoverReplayDone tail ckpt store driveNs s
  | .takeoverDone => Sys2Proof.Machine.execTakeoverDone s
  | .fenceReceived h role => Sys2Proof.Machine.execFenceReceived h role s
  | .takeoverReceived h epoch => Sys2Proof.Machine.execTakeoverReceived h epoch s
  | .handoverDoneReceived h => Sys2Proof.Machine.execHandoverDoneReceived h s
  | .joinReceived h mode epochUs digest hasKey => Sys2Proof.Machine.execJoinReceived h mode epochUs digest hasKey s
  | .joinReplyReceived h epoch refused => Sys2Proof.Machine.execJoinReplyReceived h epoch refused s
  | .bulkReceived h epoch percent last objs => Sys2Proof.Machine.execBulkReceived h epoch percent last objs s
  | .queryReceived h kind slot reply => Sys2Proof.Machine.execQueryReceived h kind slot reply s
  | .joinTimer => Sys2Proof.Machine.execJoinTimer s
  | .joinTimeExpiry => Sys2Proof.Machine.execJoinTimeExpiry s
  | .reservationCheck held => Sys2Proof.Machine.execReservationCheck held s
  | .redRoleSwitch path session value => Sys2Proof.Machine.execRedRoleSwitch path session value s
  | .redRoleFence path session value => Sys2Proof.Machine.execRedRoleFence path session value s
  | .redRoleRelease path session value => Sys2Proof.Machine.execRedRoleRelease path session value s
  | .redRoleStandDown path session value => Sys2Proof.Machine.execRedRoleStandDown path session value s
  | .handover => Sys2Proof.Machine.execHandover s
  | .handoverDrainLimit => Sys2Proof.Machine.execHandoverDrainLimit s
  | .hello port payload sigOk => Sys2Proof.Machine.execHello port payload sigOk s
  | .ping r => Sys2Proof.Machine.execPing r s
  | .regRead r addr count => Sys2Proof.Machine.execRegRead r addr count s
  | .regWrite r pairs => Sys2Proof.Machine.execRegWrite r pairs s
  | .boneAcquire r lease => Sys2Proof.Machine.execBoneAcquire r lease s
  | .boneRelease r => Sys2Proof.Machine.execBoneRelease r s
  | .imageBegin r kind slot length => Sys2Proof.Machine.execImageBegin r kind slot length s
  | .imageData r offset data => Sys2Proof.Machine.execImageData r offset data s
  | .imageCommit r => Sys2Proof.Machine.execImageCommit r s
  | .profileActivate r kind slot => Sys2Proof.Machine.execProfileActivate r kind slot s
  | .profileErase r slot => Sys2Proof.Machine.execProfileErase r slot s
  | .profileList r => Sys2Proof.Machine.execProfileList r s
  | .eventSubscribe r ring => Sys2Proof.Machine.execEventSubscribe r ring s
  | .eventAck r ring seq => Sys2Proof.Machine.execEventAck r ring seq s
  | .eventUnsubscribe r ring => Sys2Proof.Machine.execEventUnsubscribe r ring s
  | .clogRead r first count => Sys2Proof.Machine.execClogRead r first count s
  | .keyPut r blob => Sys2Proof.Machine.execKeyPut r blob s
  | .keyGet r => Sys2Proof.Machine.execKeyGet r s
  | .escrowCollect r count => Sys2Proof.Machine.execEscrowCollect r count s
  | .receiptGet r name => Sys2Proof.Machine.execReceiptGet r name s
  | .custodyExport r name => Sys2Proof.Machine.execCustodyExport r name s
  | .certGet r kind rotation => Sys2Proof.Machine.execCertGet r kind rotation s
  | .quote r nonce => Sys2Proof.Machine.execQuote r nonce s
  | .migJobCreate r items => Sys2Proof.Machine.execMigJobCreate r items s
  | .migJobReport r slot => Sys2Proof.Machine.execMigJobReport r slot s
  | .cellsAlloc r pages => Sys2Proof.Machine.execCellsAlloc r pages s
  | .cellsFree r handles => Sys2Proof.Machine.execCellsFree r handles s
  | .sessionClose r => Sys2Proof.Machine.execSessionClose r s
  | .badOpcode r opcode => Sys2Proof.Machine.execBadOpcode r opcode s
  | .sessionIdleTimeout session => Sys2Proof.Machine.execSessionIdleTimeout session s
  | .mgmtLinkLoss port => Sys2Proof.Machine.execMgmtLinkLoss port s
  | .eventMessageResend ring seq => Sys2Proof.Machine.execEventMessageResend ring seq s
  | .i3cRead port addr count => Sys2Proof.Machine.execI3cRead port addr count s
  | .i3cWrite port addr words => Sys2Proof.Machine.execI3cWrite port addr words s
  | .i3cStatus port => Sys2Proof.Machine.execI3cStatus port s
  | .i3cCommission port principal key => Sys2Proof.Machine.execI3cCommission port principal key s
  | .storeBegin port kind slot length => Sys2Proof.Machine.execStoreBegin port kind slot length s
  | .storeData port offset words => Sys2Proof.Machine.execStoreData port offset words s
  | .storeCommit port => Sys2Proof.Machine.execStoreCommit port s
  | .i3cRestart port => Sys2Proof.Machine.execI3cRestart port s
  | .boneReqAcquire path session value => Sys2Proof.Machine.execBoneReqAcquire path session value s
  | .boneReqRelease path session value => Sys2Proof.Machine.execBoneReqRelease path session value s
  | .boneReqRenew path session value => Sys2Proof.Machine.execBoneReqRenew path session value s
  | .boneExpired => Sys2Proof.Machine.execBoneExpired s
  | .ctlLockSet path session value => Sys2Proof.Machine.execCtlLockSet path session value s
  | .ringReaderBind path session ring value => Sys2Proof.Machine.execRingReaderBind path session ring value s
  | .ringReadSnapshot path ring => Sys2Proof.Machine.execRingReadSnapshot path ring s
  | .ringReadRemove path ring => Sys2Proof.Machine.execRingReadRemove path ring s
  | .fastTrip leg => Sys2Proof.Machine.execFastTrip leg s
  | .faultTimerExpiry leg => Sys2Proof.Machine.execFaultTimerExpiry leg s
  | .modelTemperatureLimit leg => Sys2Proof.Machine.execModelTemperatureLimit leg s
  | .rampTimeLimit leg => Sys2Proof.Machine.execRampTimeLimit leg s
  | .rampComplete leg => Sys2Proof.Machine.execRampComplete leg s
  | .gateCheckFail leg => Sys2Proof.Machine.execGateCheckFail leg s
  | .drainSourceShort leg => Sys2Proof.Machine.execDrainSourceShort leg s
  | .legPg leg => Sys2Proof.Machine.execLegPg leg s
  | .legPgWithdrawn leg => Sys2Proof.Machine.execLegPgWithdrawn leg s
  | .legDischarged leg => Sys2Proof.Machine.execLegDischarged leg s
  | .legRetry leg => Sys2Proof.Machine.execLegRetry leg s
  | .retryCountClear leg => Sys2Proof.Machine.execRetryCountClear leg s
  | .pwrLegOnOrder path session value => Sys2Proof.Machine.execPwrLegOnOrder path session value s
  | .pwrLegOffOrder path session value => Sys2Proof.Machine.execPwrLegOffOrder path session value s
  | .feedFault feed cause mv => Sys2Proof.Machine.execFeedFault feed cause mv s
  | .feedOk feed => Sys2Proof.Machine.execFeedOk feed s
  | .sensorPoll readings => Sys2Proof.Machine.execSensorPoll readings s
  | .fanFail channel rpm => Sys2Proof.Machine.execFanFail channel rpm s
  | .fanRecovered channel rpm => Sys2Proof.Machine.execFanRecovered channel rpm s
  | .thermTrip => Sys2Proof.Machine.execThermTrip s
  | .telSnapStart path session value => Sys2Proof.Machine.execTelSnapStart path session value s
  | .snapDone => Sys2Proof.Machine.execSnapDone s
  | .samplerOverflow sampler => Sys2Proof.Machine.execSamplerOverflow sampler s
  | .sampleCaptureTimeout sampler => Sys2Proof.Machine.execSampleCaptureTimeout sampler s
  | .sampleReadSnapshot path => Sys2Proof.Machine.execSampleReadSnapshot path s
  | .sampleReadRemove path => Sys2Proof.Machine.execSampleReadRemove path s
  | .telSamplerWrite path session sampler value => Sys2Proof.Machine.execTelSamplerWrite path session sampler value s
  | .powerOnReset => Sys2Proof.Machine.execPowerOnReset s
  | .fundamentalReset => Sys2Proof.Machine.execFundamentalReset s
  | .powerGoodLoss pgood => Sys2Proof.Machine.execPowerGoodLoss pgood s
  | .warmResetPin => Sys2Proof.Machine.execWarmResetPin s
  | .systemWatchdogExpiry => Sys2Proof.Machine.execSystemWatchdogExpiry s
  | .bootStart profileSel roleSel bootMode warmLow => Sys2Proof.Machine.execBootStart profileSel roleSel bootMode warmLow s
  | .pllLocked failing entropy copies => Sys2Proof.Machine.execPllLocked failing entropy copies s
  | .bootDone => Sys2Proof.Machine.execBootDone s
  | .recoveryRestart => Sys2Proof.Machine.execRecoveryRestart s
  | .clockLost clock => Sys2Proof.Machine.execClockLost clock s
  | .clockPresent clock => Sys2Proof.Machine.execClockPresent clock s
  | .controlTick legs feeds tach => Sys2Proof.Machine.execControlTick legs feeds tach s
  | .coreClockEdge steps => Sys2Proof.Machine.execCoreClockEdge steps s
  | .epochRecordSent => Sys2Proof.Machine.execEpochRecordSent s
  | .interruptCoalescingTimeout fn vector => Sys2Proof.Machine.execInterruptCoalescingTimeout fn vector s
  | .mgmtNeighbourDiscovery port solicitation target => Sys2Proof.Machine.execMgmtNeighbourDiscovery port solicitation target s

end Sys2Proof.Machine
end

