-- ==== Sys2Proof/Safety.lean ====
section
/-! DEFINITION. The terms claims are stated in: which parts of the state a command may change, what only ever grows, which
event a command emits, and what completing means. -/

namespace Sys2Proof.Machine

/-- The parts of the state that a claim names: groups of fields of the subsystems in the order of `State`; `events`, the
records on their way to the router; `regs`, the register file as data, and `regCtl` to `regTel`, the words of one block's
registers; what was sent; the commands held during
an exit; the free values drawn. Three running facts stand beside them: `records`, that no record is taken
away; `clock`, that GTS stands still; `forward`, that GTS does not go back (R24); `fenced`, that no fence is lifted (R35). -/
inductive Part where
  | events
  | time | paths | fences | held | rings | clog | sessions | bone | principals | images | stores | marks | identity
  | cores
  | counters | snapshot | sampling
  | boot
  | controllers | queues | namespaces | commands | activation | powerState
  | contexts | contextCache | regions | chains | hbm
  | mapping | journal | layoutWork
  | keys | keyOrders | ciphers
  | trust
  | batches | custody | jobs | storeWrites
  | drivePorts | driveSlots
  | classifier | punts | stamps | buffer | groups | tables | traffic
  | functions | hostReads | hostQueues | peerTable | peerMem
  | leash | replicas | roles
  | legs | feeds
  | regs
  | regCtl | regPrt | regCls | regSwc | regTmg | regXpt | regCmd | regLay | regFix | regDrv | regCip | regTru
  | regPwr | regHep | regRed | regTel
  | heldCommands | out | free | records | clock | forward | fenced
deriving DecidableEq, Repr

/-- No fence is lifted. -/
def FencesStay (a b : Tab BlockState) : Prop := ∀ k u, bitAt (a.at k).fenced u = true → bitAt (b.at k).fenced u = true

/-- The words of one block's registers stand. -/
def SameBlock (b : Nat) (s t : State) : Prop := ∀ a, a / 0x1000000 % 16 = b → rawWord t.regs a = rawWord s.regs a

/-- Does a part stand in `t` as it stood in `s`? -/
def Part.Same : Part → State → State → Prop
  | .events, s, t => t.ctl.inflight = s.ctl.inflight
  | .time, s, t => t.ctl.gts = s.ctl.gts
  | .paths, s, t => t.ctl.paths = s.ctl.paths
  | .fences, s, t => t.ctl.blocks = s.ctl.blocks
  | .held, s, t => t.ctl.held = s.ctl.held
  | .rings, s, t => (t.ctl.rings, t.ctl.ringMap) = (s.ctl.rings, s.ctl.ringMap)
  | .clog, s, t => t.ctl.clog = s.ctl.clog
  | .sessions, s, t => t.ctl.sessions = s.ctl.sessions
  | .bone, s, t => t.ctl.bone = s.ctl.bone
  | .principals, s, t => t.ctl.principals = s.ctl.principals
  | .images, s, t => (t.ctl.profiles, t.ctl.firmware, t.ctl.image) = (s.ctl.profiles, s.ctl.firmware, s.ctl.image)
  | .stores, s, t => (t.ctl.stores, t.ctl.running) = (s.ctl.stores, s.ctl.running)
  | .marks, s, t => (t.ctl.conflictNext, t.ctl.marks) = (s.ctl.conflictNext, s.ctl.marks)
  | .identity, s, t =>
    (t.ctl.shelfUuid, t.ctl.udpPort, t.ctl.mgmtAddrs) =
      (s.ctl.shelfUuid, s.ctl.udpPort, s.ctl.mgmtAddrs)
  | .cores, s, t => t.ctl.coreTasks = s.ctl.coreTasks
  | .counters, s, t => (t.tel.cnt, t.tel.cur, t.tel.curGts) = (s.tel.cnt, s.tel.cur, s.tel.curGts)
  | .snapshot, s, t => t.tel.snap = s.tel.snap
  | .sampling, s, t =>
    (t.tel.samplers, t.tel.samples, t.tel.sampleSnap, t.tel.dropGts, t.tel.dropInSecond, t.tel.dropReported) =
      (s.tel.samplers, s.tel.samples, s.tel.sampleSnap, s.tel.dropGts, s.tel.dropInSecond, s.tel.dropReported)
  | .boot, s, t => t.boot = s.boot
  | .controllers, s, t => t.cmd.ctrls = s.cmd.ctrls
  | .queues, s, t => t.cmd.queues = s.cmd.queues
  | .namespaces, s, t =>
    (t.cmd.namespaces, t.cmd.hostNqns, t.cmd.classMap, t.cmd.lastCntlid, t.cmd.anaChanges) =
      (s.cmd.namespaces, s.cmd.hostNqns, s.cmd.classMap, s.cmd.lastCntlid, s.cmd.anaChanges)
  | .commands, s, t =>
    (t.cmd.queued, t.cmd.table, t.cmd.slots, t.cmd.arbiters, t.cmd.boundStat) =
      (s.cmd.queued, s.cmd.table, s.cmd.slots, s.cmd.arbiters, s.cmd.boundStat)
  | .activation, s, t => t.cmd.act = s.cmd.act
  | .powerState, s, t =>
    (t.cmd.ps, t.cmd.exiting, t.cmd.idleFrom, t.cmd.test) =
      (s.cmd.ps, s.cmd.exiting, s.cmd.idleFrom, s.cmd.test)
  | .contexts, s, t => t.xpt.ctx = s.xpt.ctx
  | .contextCache, s, t =>
    (t.xpt.cache, t.xpt.victims, t.xpt.fills, t.xpt.misses, t.xpt.invCtrl) =
      (s.xpt.cache, s.xpt.victims, s.xpt.fills, s.xpt.misses, s.xpt.invCtrl)
  | .regions, s, t => t.xpt.regions = s.xpt.regions
  | .chains, s, t =>
    (t.xpt.triggers, t.xpt.pool, t.xpt.chains, t.xpt.waiting, t.xpt.migPeers) =
      (s.xpt.triggers, s.xpt.pool, s.xpt.chains, s.xpt.waiting, s.xpt.migPeers)
  | .hbm, s, t => t.xpt.hbm = s.xpt.hbm
  | .mapping, s, t =>
    (t.lay.geoms, t.lay.sets, t.lay.drives, t.lay.map, t.lay.extentNext) =
      (s.lay.geoms, s.lay.sets, s.lay.drives, s.lay.map, s.lay.extentNext)
  | .journal, s, t =>
    (t.lay.jseqNext, t.lay.journal, t.lay.ckpt, t.lay.ringPos, t.lay.waitingJournal, t.lay.deferred,
      t.lay.replayEnded) =
      (s.lay.jseqNext, s.lay.journal, s.lay.ckpt, s.lay.ringPos, s.lay.waitingJournal, s.lay.deferred,
      s.lay.replayEnded)
  | .layoutWork, s, t =>
    (t.lay.throttle, t.lay.full, t.lay.rebuild, t.lay.lanes, t.lay.laneQueue, t.lay.repairs, t.lay.scrubStart,
      t.lay.scrubSet, t.lay.scrubRows, t.lay.scrubRepairs) =
      (s.lay.throttle, s.lay.full, s.lay.rebuild, s.lay.lanes, s.lay.laneQueue, s.lay.repairs, s.lay.scrubStart,
      s.lay.scrubSet, s.lay.scrubRows, s.lay.scrubRepairs)
  | .keys, s, t => (t.cip.slots, t.cip.entries, t.cip.genTop) = (s.cip.slots, s.cip.entries, s.cip.genTop)
  | .keyOrders, s, t =>
    (t.cip.order, t.cip.mailbox, t.cip.mailboxSession, t.cip.escrow) =
      (s.cip.order, s.cip.mailbox, s.cip.mailboxSession, s.cip.escrow)
  | .ciphers, s, t =>
    (t.cip.ops, t.cip.running, t.cip.opNext, t.cip.lanes) =
      (s.cip.ops, s.cip.running, s.cip.opNext, s.cip.lanes)
  | .trust, s, t => t.tru = s.tru
  | .batches, s, t =>
    (t.fix.opened, t.fix.closed, t.fix.sealed, t.fix.lastSeq, t.fix.prevHash, t.fix.closedTo, t.fix.periodQs,
      t.fix.nextQs, t.fix.nextFrom, t.fix.recomputing, t.fix.replayTo) =
      (s.fix.opened, s.fix.closed, s.fix.sealed, s.fix.lastSeq, s.fix.prevHash, s.fix.closedTo, s.fix.periodQs,
      s.fix.nextQs, s.fix.nextFrom, s.fix.recomputing, s.fix.replayTo)
  | .custody, s, t =>
    (t.fix.custody, t.fix.custodyWait, t.fix.audited, t.fix.suspects) =
      (s.fix.custody, s.fix.custodyWait, s.fix.audited, s.fix.suspects)
  | .jobs, s, t => (t.fix.jobs, t.fix.received) = (s.fix.jobs, s.fix.received)
  | .storeWrites, s, t => t.fix.storeWait = s.fix.storeWait
  | .drivePorts, s, t => t.drv.ports = s.drv.ports
  | .driveSlots, s, t =>
    (t.drv.slots, t.drv.stopped, t.drv.round, t.drv.preempting) =
      (s.drv.slots, s.drv.stopped, s.drv.round, s.drv.preempting)
  | .classifier, s, t => (t.net.nodes, t.net.tcam, t.net.patterns) = (s.net.nodes, s.net.tcam, s.net.patterns)
  | .punts, s, t =>
    (t.net.punt, t.net.puntBucket, t.net.puntSaid, t.net.puntLost) =
      (s.net.punt, s.net.puntBucket, s.net.puntSaid, s.net.puntLost)
  | .stamps, s, t => (t.net.stamps, t.net.wake, t.net.wakeDropped) = (s.net.stamps, s.net.wake, s.net.wakeDropped)
  | .buffer, s, t =>
    (t.net.cells, t.net.nextBank, t.net.freeMinRead, t.net.rxCells, t.net.rxHeld, t.net.squeezed, t.net.waitC0,
      t.net.peerChains) =
      (s.net.cells, s.net.nextBank, s.net.freeMinRead, s.net.rxCells, s.net.rxHeld, s.net.squeezed, s.net.waitC0,
      s.net.peerChains)
  | .groups, s, t => t.net.groups = s.net.groups
  | .tables, s, t =>
    (t.net.queueCfg, t.net.nodeCfg, t.net.policers, t.net.gateCfg) =
      (s.net.queueCfg, s.net.nodeCfg, s.net.policers, s.net.gateCfg)
  | .traffic, s, t =>
    (t.net.queues, t.net.deficit, t.net.nodeDeficit, t.net.shaper, t.net.nodeShaper, t.net.served, t.net.line,
      t.net.stomp, t.net.gates, t.net.media, t.net.hist, t.net.histNext) =
      (s.net.queues, s.net.deficit, s.net.nodeDeficit, s.net.shaper, s.net.nodeShaper, s.net.served, s.net.line,
      s.net.stomp, s.net.gates, s.net.media, s.net.hist, s.net.histNext)
  | .functions, s, t =>
    (t.hep.fns, t.hep.numVfs, t.hep.vfEnabled, t.hep.mrrs, t.hep.mps, t.hep.tag10, t.hep.cto) =
      (s.hep.fns, s.hep.numVfs, s.hep.vfEnabled, s.hep.mrrs, s.hep.mps, s.hep.tag10, s.hep.cto)
  | .hostReads, s, t =>
    (t.hep.tags, t.hep.fresh, t.hep.released, t.hep.waiting, t.hep.fetches, t.hep.fetchNext, t.hep.hosts) =
      (s.hep.tags, s.hep.fresh, s.hep.released, s.hep.waiting, s.hep.fetches, s.hep.fetchNext, s.hep.hosts)
  | .hostQueues, s, t => (t.hep.sqs, t.hep.cqs, t.hep.coalesced) = (s.hep.sqs, s.hep.cqs, s.hep.coalesced)
  | .peerTable, s, t => (t.hep.staged, t.hep.ppt) = (s.hep.staged, s.hep.ppt)
  | .peerMem, s, t => t.hep.peerMem = s.hep.peerMem
  | .leash, s, t =>
    (t.red.links, t.red.recordLink, t.red.backlog, t.red.backlogSaid, t.red.nextEpochUs) =
      (s.red.links, s.red.recordLink, s.red.backlog, s.red.backlogSaid, s.red.nextEpochUs)
  | .replicas, s, t =>
    (t.red.caps, t.red.commits, t.red.leaves, t.red.ctrls, t.red.queues, t.red.ctx, t.red.keys, t.red.inQuorum,
      t.red.pend, t.red.notices, t.red.copied, t.red.bulkDone) =
      (s.red.caps, s.red.commits, s.red.leaves, s.red.ctrls, s.red.queues, s.red.ctx, s.red.keys, s.red.inQuorum,
      s.red.pend, s.red.notices, s.red.copied, s.red.bulkDone)
  | .roles, s, t =>
    (t.red.probing, t.red.joinFrom, t.red.lastJoinA, t.red.outOfStep, t.red.takeoverFrom, t.red.takeoverCause,
      t.red.failedRole, t.red.disputed, t.red.order, t.red.stations, t.red.addrs) =
      (s.red.probing, s.red.joinFrom, s.red.lastJoinA, s.red.outOfStep, s.red.takeoverFrom, s.red.takeoverCause,
      s.red.failedRole, s.red.disputed, s.red.order, s.red.stations, s.red.addrs)
  | .legs, s, t => t.pwr.legs = s.pwr.legs
  | .feeds, s, t =>
    (t.pwr.feeds, t.pwr.sensFails, t.pwr.warned, t.pwr.critical, t.pwr.polled) =
      (s.pwr.feeds, s.pwr.sensFails, s.pwr.warned, s.pwr.critical, s.pwr.polled)
  | .regs, s, t => t.regs = s.regs
  | .regCtl, s, t => SameBlock 0 s t
  | .regPrt, s, t => SameBlock 1 s t
  | .regCls, s, t => SameBlock 2 s t
  | .regSwc, s, t => SameBlock 3 s t
  | .regTmg, s, t => SameBlock 4 s t
  | .regXpt, s, t => SameBlock 5 s t
  | .regCmd, s, t => SameBlock 6 s t
  | .regLay, s, t => SameBlock 7 s t
  | .regFix, s, t => SameBlock 8 s t
  | .regDrv, s, t => SameBlock 9 s t
  | .regCip, s, t => SameBlock 10 s t
  | .regTru, s, t => SameBlock 11 s t
  | .regPwr, s, t => SameBlock 12 s t
  | .regHep, s, t => SameBlock 13 s t
  | .regRed, s, t => SameBlock 14 s t
  | .regTel, s, t => SameBlock 15 s t
  | .heldCommands, s, t => t.waiting = s.waiting
  | .out, s, t => t.out = s.out
  | .free, s, t => t.free = s.free
  | .records, s, t => s.ctl.inflight <+: t.ctl.inflight
  | .clock, s, t => t.now = s.now
  | .forward, s, t => s.now ≤ t.now
  | .fenced, s, t => FencesStay s.ctl.blocks t.ctl.blocks

/-- The part that a register's word belongs to, by its address. -/
def regPart (addr : Nat) : Part :=
  match addr / 0x1000000 % 16 with
  | 0 => .regCtl
  | 1 => .regPrt
  | 2 => .regCls
  | 3 => .regSwc
  | 4 => .regTmg
  | 5 => .regXpt
  | 6 => .regCmd
  | 7 => .regLay
  | 8 => .regFix
  | 9 => .regDrv
  | 10 => .regCip
  | 11 => .regTru
  | 12 => .regPwr
  | 13 => .regHep
  | 14 => .regRed
  | _ => .regTel

/-- The canonical form of the addressed memories, HBM and the memory behind the peer windows: bytes strictly rising by address,
none equal to what an unlisted address reads as. -/
def Memory.wf (s : State) : Bool := s.xpt.hbm.wf && s.hep.peerMem.wf

/-- Memories, the register file and the TCAM in canonical form. -/
def Canonical (s : State) : Prop := Memory.wf s = true ∧ s.net.tcam.wf = true ∧ regsWf s.regs

/-- What holds between a state and any later one, when at most the parts of `w` change: every other part stands; what was
sent stays sent; no free value is drawn twice; the rollback count does not fall (R305); the canonical form is kept; the queue
of commands stands. -/
structure Evolves (w : List Part) (s t : State) : Prop where
  same : ∀ p, p ∉ w → p.Same s t
  out : s.out <+: t.out
  free : s.free ≤ t.free
  fuse : s.tru.fuseSvn ≤ t.tru.fuseSvn
  canon : Canonical s → Canonical t
  pending : t.pending = s.pending

/-- The parts of every register. -/
def regParts : List Part :=
  [.regs, .regCtl, .regPrt, .regCls, .regSwc, .regTmg, .regXpt, .regCmd, .regLay,
    .regFix, .regDrv, .regCip, .regTru, .regPwr, .regHep, .regRed, .regTel]

/-- What each command may change at most, of a state it is taken in. -/
def mayChange (i : Instr) : List Part :=
  match i with
  | .registerWrite _ _ _ _ =>
    [.events, .time, .paths, .fences, .rings, .sessions, .bone, .marks, .cores, .counters, .snapshot,
     .sampling, .boot, .controllers, .namespaces, .commands, .activation, .powerState, .contexts,
     .contextCache, .regions, .chains, .hbm, .mapping, .journal, .layoutWork, .keys, .keyOrders, .ciphers,
     .trust, .batches, .jobs, .storeWrites, .drivePorts, .driveSlots, .classifier, .punts, .stamps, .buffer,
     .groups, .tables, .traffic, .functions, .hostReads, .hostQueues, .peerTable, .leash, .replicas, .roles,
     .legs, .out, .free] ++ regParts
  | .rcFieldRead _ addr =>
    [.events, .paths, .fences, .rings, .sessions, .counters, .sampling, .buffer, .functions, .regs, .out,
     regPart addr]
  | .pairLowWordRead _ addr =>
    [.events, .paths, .fences, .rings, .sessions, .counters, .sampling, .buffer, .functions, .regs, .out,
     regPart addr]
  | .pairHighWordRead _ addr =>
    [.events, .paths, .fences, .rings, .sessions, .counters, .sampling, .buffer, .functions, .regs, .out,
     regPart addr]
  | .pairLowWordWrite _ _ _ _ =>
    [.events, .time, .paths, .fences, .rings, .sessions, .bone, .marks, .cores, .counters, .snapshot,
     .sampling, .boot, .controllers, .namespaces, .commands, .activation, .powerState, .contexts,
     .contextCache, .regions, .chains, .hbm, .mapping, .journal, .layoutWork, .keys, .keyOrders, .ciphers,
     .trust, .batches, .jobs, .storeWrites, .drivePorts, .driveSlots, .classifier, .punts, .stamps, .buffer,
     .groups, .tables, .traffic, .functions, .hostReads, .hostQueues, .peerTable, .leash, .replicas, .roles,
     .legs, .out, .free] ++ regParts
  | .pairHighWordWrite _ _ _ _ =>
    [.events, .time, .paths, .fences, .rings, .sessions, .bone, .marks, .cores, .counters, .snapshot,
     .sampling, .boot, .controllers, .namespaces, .commands, .activation, .powerState, .contexts,
     .contextCache, .regions, .chains, .hbm, .mapping, .journal, .layoutWork, .keys, .keyOrders, .ciphers,
     .trust, .batches, .jobs, .storeWrites, .drivePorts, .driveSlots, .classifier, .punts, .stamps, .buffer,
     .groups, .tables, .traffic, .functions, .hostReads, .hostQueues, .peerTable, .leash, .replicas, .roles,
     .legs, .out, .free] ++ regParts
  | .addrUnmapped _ addr _ =>
    [.events, .paths, .fences, .rings, .sessions, .counters, .sampling, .buffer, .functions, .regs, .out,
     regPart addr]
  | .unsupportedRequestBar0 _ => [.out]
  | .gtsMeasurement _ => [.events, .time, .counters, .sampling, .regs, .regCtl, .free, .clock]
  | .gtsMeasurementTimeout => [.events, .time, .counters, .sampling]
  | .ppsInEdge => [.events, .time, .counters, .sampling, .regs, .regCtl, .free, .clock]
  | .ppsOutEdge => [.out]
  | .eventRecord =>
    [.events, .held, .rings, .clog, .sessions, .counters, .sampling, .functions, .regs, .regCtl, .out,
     .records]
  | .recordRelease => [.held, .rings, .sessions, .counters, .sampling, .functions, .regs, .regCtl, .out]
  | .unitFenced _ _ _ _ =>
    [.events, .fences, .sessions, .bone, .cores, .counters, .sampling, .controllers, .namespaces, .commands,
     .powerState, .contexts, .hbm, .mapping, .journal, .layoutWork, .ciphers, .storeWrites, .drivePorts,
     .driveSlots, .buffer, .traffic, .functions, .hostReads, .hostQueues, .leash, .replicas, .legs, .regs,
     .regCtl, .regPrt, .regSwc, .regLay, .regPwr, .regRed, .out]
  | .controlCoreWatchdog _ _ _ =>
    [.events, .fences, .sessions, .bone, .cores, .counters, .sampling, .controllers, .namespaces, .commands,
     .contexts, .driveSlots, .functions, .hostQueues, .leash, .replicas, .regs, .regCtl, .regPrt, .regRed,
     .out]
  | .prefixFenceOrder _ _ _ _ =>
    [.events, .fences, .sessions, .marks, .cores, .counters, .sampling, .controllers, .namespaces, .commands,
     .powerState, .contexts, .hbm, .mapping, .journal, .layoutWork, .ciphers, .storeWrites, .drivePorts,
     .driveSlots, .buffer, .traffic, .functions, .hostReads, .hostQueues, .leash, .replicas, .legs, .regs,
     .regCtl, .regPrt, .regSwc, .regLay, .regPwr, .regRed, .out]
  | .connect _ _ _ _ _ _ _ =>
    [.events, .counters, .sampling, .controllers, .queues, .namespaces, .powerState, .contexts, .leash,
     .replicas, .heldCommands, .out]
  | .propertyGet _ _ => [.powerState, .contexts, .functions, .hostQueues, .leash, .replicas, .heldCommands, .out]
  | .propertySet _ _ _ =>
    [.events, .counters, .sampling, .controllers, .queues, .commands, .powerState, .contexts, .mapping,
     .journal, .layoutWork, .ciphers, .drivePorts, .buffer, .functions, .hostQueues, .leash, .replicas, .regs,
     .regSwc, .heldCommands, .out]
  | .ccEnWritten1 _ _ _ _ _ _ =>
    [.events, .counters, .sampling, .controllers, .queues, .commands, .powerState, .contexts, .mapping,
     .journal, .layoutWork, .ciphers, .drivePorts, .buffer, .functions, .hostQueues, .leash, .replicas, .regs,
     .regSwc, .heldCommands, .out]
  | .ccEnWritten0 _ _ _ =>
    [.events, .counters, .sampling, .controllers, .queues, .commands, .powerState, .contexts, .mapping,
     .journal, .layoutWork, .ciphers, .drivePorts, .buffer, .functions, .hostQueues, .leash, .replicas, .regs,
     .regSwc, .heldCommands, .out]
  | .ccShnNormalShutdown _ _ _ =>
    [.events, .counters, .sampling, .controllers, .queues, .commands, .powerState, .contexts, .mapping,
     .journal, .layoutWork, .ciphers, .drivePorts, .buffer, .functions, .hostQueues, .leash, .replicas, .regs,
     .regSwc, .heldCommands, .out]
  | .ccShnAbruptShutdown _ _ _ =>
    [.events, .counters, .sampling, .controllers, .queues, .commands, .powerState, .contexts, .mapping,
     .journal, .layoutWork, .ciphers, .drivePorts, .buffer, .functions, .hostQueues, .leash, .replicas, .regs,
     .regSwc, .heldCommands, .out]
  | .disconnect _ _ =>
    [.events, .counters, .sampling, .controllers, .queues, .commands, .powerState, .contexts, .contextCache,
     .regions, .mapping, .journal, .layoutWork, .ciphers, .drivePorts, .buffer, .functions, .hostQueues,
     .leash, .replicas, .regs, .regSwc, .heldCommands, .out]
  | .identify _ _ _ => [.powerState, .contexts, .functions, .hostQueues, .leash, .replicas, .heldCommands, .out]
  | .getLogPage _ _ _ => [.powerState, .contexts, .functions, .hostQueues, .leash, .replicas, .heldCommands, .out]
  | .setFeatures _ _ _ =>
    [.controllers, .powerState, .contexts, .functions, .hostQueues, .leash, .replicas, .heldCommands, .out]
  | .getFeatures _ _ _ => [.powerState, .contexts, .functions, .hostQueues, .leash, .replicas, .heldCommands, .out]
  | .keepAlive _ =>
    [.controllers, .powerState, .contexts, .functions, .hostQueues, .leash, .replicas, .heldCommands, .out]
  | .abort _ _ _ _ =>
    [.events, .counters, .sampling, .controllers, .commands, .powerState, .contexts, .mapping, .journal,
     .layoutWork, .ciphers, .drivePorts, .buffer, .functions, .hostQueues, .leash, .replicas, .regs, .regSwc,
     .regCmd, .heldCommands, .out]
  | .asynchronousEventRequest _ =>
    [.controllers, .powerState, .contexts, .functions, .hostQueues, .leash, .replicas, .heldCommands, .out]
  | .deviceSelfTestShort _ _ =>
    [.powerState, .contexts, .functions, .hostQueues, .leash, .replicas, .heldCommands, .out]
  | .deviceSelfTestExtended _ _ =>
    [.powerState, .contexts, .functions, .hostQueues, .leash, .replicas, .heldCommands, .out]
  | .deviceSelfTestAbort _ =>
    [.events, .counters, .sampling, .powerState, .contexts, .functions, .hostQueues, .leash, .replicas,
     .heldCommands, .out]
  | .read _ _ _ _ =>
    [.events, .counters, .sampling, .commands, .powerState, .contexts, .buffer, .functions, .hostQueues,
     .leash, .replicas, .regs, .regSwc, .regCmd, .out]
  | .write _ _ _ _ _ =>
    [.events, .counters, .sampling, .commands, .powerState, .contexts, .buffer, .functions, .hostQueues,
     .leash, .replicas, .regs, .regSwc, .regCmd, .out]
  | .flush _ =>
    [.events, .counters, .sampling, .commands, .powerState, .contexts, .buffer, .functions, .hostQueues,
     .leash, .replicas, .regs, .regSwc, .regCmd, .out]
  | .compare _ _ _ _ _ =>
    [.events, .counters, .sampling, .commands, .powerState, .contexts, .buffer, .functions, .hostQueues,
     .leash, .replicas, .regs, .regSwc, .regCmd, .out]
  | .verify _ _ _ =>
    [.events, .counters, .sampling, .commands, .powerState, .contexts, .buffer, .functions, .hostQueues,
     .leash, .replicas, .regs, .regSwc, .regCmd, .out]
  | .writeZeroes _ _ _ =>
    [.events, .counters, .sampling, .commands, .powerState, .contexts, .buffer, .functions, .hostQueues,
     .leash, .replicas, .regs, .regSwc, .regCmd, .out]
  | .datasetManagement _ _ _ =>
    [.events, .counters, .sampling, .commands, .powerState, .contexts, .buffer, .functions, .hostQueues,
     .leash, .replicas, .regs, .regSwc, .regCmd, .out]
  | .kvStore _ _ _ _ _ =>
    [.events, .counters, .sampling, .commands, .powerState, .contexts, .buffer, .functions, .hostQueues,
     .leash, .replicas, .regs, .regSwc, .regCmd, .out]
  | .kvRetrieve _ _ _ _ =>
    [.events, .counters, .sampling, .commands, .powerState, .contexts, .buffer, .functions, .hostQueues,
     .leash, .replicas, .regs, .regSwc, .regCmd, .out]
  | .kvDelete _ _ =>
    [.events, .counters, .sampling, .commands, .powerState, .contexts, .buffer, .functions, .hostQueues,
     .leash, .replicas, .regs, .regSwc, .regCmd, .out]
  | .kvExist _ _ =>
    [.events, .counters, .sampling, .commands, .powerState, .contexts, .buffer, .functions, .hostQueues,
     .leash, .replicas, .regs, .regSwc, .regCmd, .out]
  | .kvList _ _ _ _ =>
    [.events, .counters, .sampling, .commands, .powerState, .contexts, .buffer, .functions, .hostQueues,
     .leash, .replicas, .regs, .regSwc, .regCmd, .out]
  | .kvFlush _ =>
    [.events, .counters, .sampling, .commands, .powerState, .contexts, .buffer, .functions, .hostQueues,
     .leash, .replicas, .regs, .regSwc, .regCmd, .out]
  | .invalidCommandOpcode _ _ _ =>
    [.events, .counters, .sampling, .commands, .powerState, .contexts, .buffer, .functions, .hostQueues,
     .leash, .replicas, .regs, .regSwc, .regCmd, .heldCommands, .out]
  | .createIoSubmissionQueue _ _ _ _ _ _ =>
    [.queues, .powerState, .contexts, .functions, .hostQueues, .leash, .replicas, .heldCommands, .out]
  | .createIoCompletionQueue _ _ _ _ _ _ _ =>
    [.powerState, .contexts, .functions, .hostQueues, .leash, .replicas, .heldCommands, .out]
  | .arbiterGrant _ =>
    [.events, .counters, .sampling, .commands, .powerState, .contexts, .hbm, .mapping, .journal, .layoutWork,
     .ciphers, .drivePorts, .buffer, .hostReads, .leash, .replicas, .regs, .regSwc, .regLay, .regCip, .regTel,
     .out]
  | .lastDataCellStored _ =>
    [.commands, .contexts, .hbm, .layoutWork, .ciphers, .drivePorts, .leash, .replicas, .regs, .regLay, .out]
  | .lastParityCellReady _ => [.commands, .layoutWork, .ciphers, .drivePorts, .out]
  | .unitWriteCompletion _ _ _ =>
    [.events, .counters, .sampling, .controllers, .namespaces, .commands, .powerState, .contexts, .hbm,
     .mapping, .journal, .layoutWork, .ciphers, .storeWrites, .drivePorts, .driveSlots, .buffer, .functions,
     .hostQueues, .leash, .replicas, .regs, .regPrt, .regSwc, .regLay, .regRed, .out]
  | .driveReadCompletion _ _ _ _ _ _ _ =>
    [.events, .counters, .sampling, .controllers, .namespaces, .commands, .powerState, .contexts, .hbm,
     .mapping, .journal, .layoutWork, .ciphers, .storeWrites, .drivePorts, .driveSlots, .buffer, .functions,
     .hostQueues, .leash, .replicas, .regs, .regPrt, .regSwc, .regLay, .regDrv, .regRed, .out]
  | .journalCompletion _ _ _ =>
    [.events, .counters, .sampling, .controllers, .namespaces, .commands, .powerState, .contexts, .hbm,
     .mapping, .journal, .layoutWork, .ciphers, .batches, .storeWrites, .drivePorts, .driveSlots, .buffer,
     .functions, .hostQueues, .leash, .replicas, .regs, .regPrt, .regSwc, .regLay, .regFix, .regRed, .out]
  | .rdmaWriteAcknowledged _ => [.commands]
  | .completionHandedToXpt _ =>
    [.events, .counters, .sampling, .commands, .powerState, .contexts, .journal, .layoutWork, .ciphers,
     .buffer, .functions, .hostQueues, .leash, .replicas, .regs, .regSwc, .regCmd, .out]
  | .drainFinished _ =>
    [.events, .counters, .sampling, .controllers, .queues, .commands, .powerState, .contexts, .contextCache,
     .regions, .mapping, .journal, .layoutWork, .ciphers, .drivePorts, .buffer, .hostQueues, .replicas, .regs,
     .regSwc, .out]
  | .keepAliveTimeout _ =>
    [.events, .counters, .sampling, .controllers, .queues, .commands, .powerState, .contexts, .contextCache,
     .regions, .mapping, .journal, .layoutWork, .ciphers, .drivePorts, .buffer, .replicas, .regs, .regSwc,
     .out]
  | .activateImage _ _ _ =>
    [.events, .sessions, .marks, .counters, .sampling, .boot, .commands, .activation, .trust, .regs, .regCtl,
     .out]
  | .activateFirmware _ _ _ =>
    [.events, .sessions, .marks, .counters, .sampling, .boot, .commands, .activation, .trust, .regs, .regCtl,
     .out]
  | .actDrained => [.activation]
  | .actDeferred => [.events, .sessions, .counters, .sampling, .activation, .out]
  | .actDone =>
    [.events, .time, .rings, .sessions, .principals, .images, .stores, .identity, .counters, .sampling, .boot,
     .namespaces, .commands, .activation, .chains, .mapping, .keys, .keyOrders, .trust, .batches, .driveSlots,
     .classifier, .punts, .groups, .tables, .traffic, .hostReads, .leash, .replicas, .roles, .out, .free] ++ regParts
  | .boundResumed => [.events, .counters, .sampling, .commands, .activation]
  | .idleTimerExpiry =>
    [.events, .counters, .sampling, .controllers, .powerState, .drivePorts, .stamps, .regs, .regPrt, .out]
  | .powerStateExitDone =>
    [.events, .counters, .sampling, .controllers, .queues, .namespaces, .commands, .powerState, .contexts,
     .contextCache, .regions, .mapping, .journal, .layoutWork, .ciphers, .drivePorts, .stamps, .buffer,
     .functions, .hostQueues, .leash, .replicas, .regs, .regPrt, .regSwc, .regCmd, .heldCommands, .out]
  | .selftestDone _ _ =>
    [.events, .fences, .cores, .counters, .sampling, .controllers, .namespaces, .commands, .powerState,
     .contexts, .hbm, .mapping, .journal, .layoutWork, .ciphers, .storeWrites, .drivePorts, .driveSlots,
     .buffer, .traffic, .functions, .hostReads, .hostQueues, .leash, .replicas, .legs, .regs, .regPrt, .regSwc,
     .regLay, .regPwr, .regRed, .out]
  | .selftestTimeout => [.events, .counters, .sampling, .powerState]
  | .cmReq _ => [.events, .counters, .sampling, .contexts, .regs, .regXpt, .out, .free]
  | .cmRtu _ => [.contexts]
  | .cmDreq _ =>
    [.events, .counters, .sampling, .controllers, .queues, .commands, .powerState, .contexts, .contextCache,
     .regions, .chains, .mapping, .journal, .layoutWork, .ciphers, .jobs, .drivePorts, .buffer, .leash,
     .replicas, .regs, .regSwc, .out]
  | .cmDrep _ => [.contexts, .contextCache]
  | .contextDrainTimeout _ =>
    [.events, .counters, .sampling, .controllers, .queues, .commands, .powerState, .contexts, .contextCache,
     .regions, .chains, .mapping, .journal, .layoutWork, .ciphers, .jobs, .drivePorts, .buffer, .leash,
     .replicas, .regs, .regSwc, .out]
  | .contextErrorTimeout _ => [.contexts, .contextCache]
  | .sendReceived _ _ _ =>
    [.events, .counters, .sampling, .controllers, .queues, .commands, .powerState, .contexts, .contextCache,
     .regions, .chains, .mapping, .journal, .layoutWork, .ciphers, .jobs, .drivePorts, .buffer, .leash,
     .replicas, .regs, .regSwc, .out]
  | .sendWithImmediateReceived _ _ _ =>
    [.events, .counters, .sampling, .controllers, .queues, .commands, .powerState, .contexts, .contextCache,
     .regions, .chains, .hbm, .mapping, .journal, .layoutWork, .ciphers, .jobs, .drivePorts, .buffer, .leash,
     .replicas, .regs, .regSwc, .regXpt, .out]
  | .sendWithInvalidateReceived _ _ _ =>
    [.events, .counters, .sampling, .controllers, .queues, .commands, .powerState, .contexts, .contextCache,
     .regions, .chains, .mapping, .journal, .layoutWork, .ciphers, .jobs, .drivePorts, .buffer, .leash,
     .replicas, .regs, .regSwc, .regXpt, .out]
  | .rdmaWriteReceived _ _ _ _ =>
    [.events, .counters, .sampling, .controllers, .queues, .commands, .powerState, .contexts, .contextCache,
     .regions, .chains, .hbm, .mapping, .journal, .layoutWork, .ciphers, .jobs, .drivePorts, .buffer, .leash,
     .replicas, .regs, .regSwc, .out]
  | .rdmaWriteWithImmediateReceived _ _ _ _ =>
    [.events, .counters, .sampling, .controllers, .queues, .commands, .powerState, .contexts, .contextCache,
     .regions, .chains, .hbm, .mapping, .journal, .layoutWork, .ciphers, .jobs, .drivePorts, .buffer, .leash,
     .replicas, .regs, .regSwc, .out]
  | .rdmaReadRequestReceived _ _ =>
    [.events, .counters, .sampling, .controllers, .queues, .commands, .powerState, .contexts, .contextCache,
     .regions, .chains, .mapping, .journal, .layoutWork, .ciphers, .jobs, .drivePorts, .buffer, .leash,
     .replicas, .regs, .regSwc, .out]
  | .rdmaReadResponseReceived _ _ _ _ =>
    [.events, .counters, .sampling, .controllers, .queues, .commands, .powerState, .contexts, .contextCache,
     .regions, .chains, .hbm, .mapping, .journal, .layoutWork, .ciphers, .jobs, .drivePorts, .buffer, .leash,
     .replicas, .regs, .regSwc, .out]
  | .acknowledgeReceived _ _ _ _ =>
    [.events, .counters, .sampling, .controllers, .queues, .commands, .powerState, .contexts, .contextCache,
     .regions, .chains, .mapping, .journal, .layoutWork, .ciphers, .jobs, .drivePorts, .buffer, .leash,
     .replicas, .regs, .regSwc, .out]
  | .nakPsnSequenceErrorReceived _ _ =>
    [.events, .counters, .sampling, .controllers, .queues, .commands, .powerState, .contexts, .contextCache,
     .regions, .chains, .mapping, .journal, .layoutWork, .ciphers, .jobs, .drivePorts, .buffer, .leash,
     .replicas, .regs, .regSwc, .out]
  | .rnrNakReceived _ _ _ =>
    [.events, .counters, .sampling, .controllers, .queues, .commands, .powerState, .contexts, .contextCache,
     .regions, .chains, .mapping, .journal, .layoutWork, .ciphers, .jobs, .drivePorts, .buffer, .leash,
     .replicas, .regs, .regSwc, .out]
  | .nakRemoteAccessErrorReceived _ _ =>
    [.events, .counters, .sampling, .controllers, .queues, .commands, .powerState, .contexts, .contextCache,
     .regions, .chains, .mapping, .journal, .layoutWork, .ciphers, .jobs, .drivePorts, .buffer, .leash,
     .replicas, .regs, .regSwc, .out]
  | .nakInvalidRequestReceived _ _ =>
    [.events, .counters, .sampling, .controllers, .queues, .commands, .powerState, .contexts, .contextCache,
     .regions, .chains, .mapping, .journal, .layoutWork, .ciphers, .jobs, .drivePorts, .buffer, .leash,
     .replicas, .regs, .regSwc, .out]
  | .cnpReceived _ =>
    [.events, .counters, .sampling, .controllers, .queues, .commands, .powerState, .contexts, .contextCache,
     .regions, .chains, .mapping, .journal, .layoutWork, .ciphers, .jobs, .drivePorts, .buffer, .leash,
     .replicas, .regs, .regSwc, .out]
  | .invalidOpcodePacket _ _ =>
    [.events, .counters, .sampling, .controllers, .queues, .commands, .powerState, .contexts, .contextCache,
     .regions, .chains, .mapping, .journal, .layoutWork, .ciphers, .jobs, .drivePorts, .buffer, .leash,
     .replicas, .regs, .regSwc, .out]
  | .ackTimeout _ =>
    [.events, .counters, .sampling, .controllers, .queues, .commands, .powerState, .contexts, .contextCache,
     .regions, .chains, .mapping, .journal, .layoutWork, .ciphers, .jobs, .drivePorts, .buffer, .leash,
     .replicas, .regs, .regSwc, .out]
  | .rnrWaitExpiry _ => [.events, .counters, .sampling, .contexts, .out]
  | .ackCoalescingTimeout _ => [.contexts, .out]
  | .contextFill _ _ _ =>
    [.events, .counters, .sampling, .controllers, .queues, .commands, .powerState, .contexts, .contextCache,
     .regions, .chains, .mapping, .journal, .layoutWork, .ciphers, .jobs, .drivePorts, .buffer, .leash,
     .replicas, .regs, .regSwc, .regXpt, .out]
  | .victimWriteBack => [.contextCache]
  | .xptInvCtrl _ _ _ =>
    [.events, .sessions, .marks, .counters, .sampling, .contextCache, .regions, .regs, .regCtl, .regXpt, .out]
  | .invLimitReached _ =>
    [.events, .counters, .sampling, .controllers, .queues, .commands, .powerState, .contexts, .contextCache,
     .regions, .chains, .mapping, .journal, .layoutWork, .ciphers, .jobs, .drivePorts, .buffer, .leash,
     .replicas, .regs, .regSwc, .regXpt, .out]
  | .xptCtxSel _ _ _ => [.events, .sessions, .marks, .counters, .sampling, .regs, .regCtl, .regXpt, .out]
  | .triggerArm _ _ _ _ _ _ _ => [.chains]
  | .triggerDisarm _ => [.chains]
  | .triggerReclaim _ => [.chains]
  | .chainStart => [.events, .counters, .sampling, .contexts, .chains, .jobs, .leash, .replicas, .out]
  | .workRequestCompletion _ _ _ =>
    [.events, .counters, .sampling, .commands, .powerState, .contexts, .chains, .journal, .layoutWork,
     .ciphers, .jobs, .buffer, .leash, .replicas, .regs, .regSwc, .out, .free]
  | .wrRdmaWrite _ => [.events, .counters, .sampling, .contexts, .chains, .jobs, .leash, .replicas, .out]
  | .wrRdmaWriteWithImmediate _ => [.events, .counters, .sampling, .contexts, .chains, .jobs, .leash, .replicas, .out]
  | .wrSend _ => [.events, .counters, .sampling, .contexts, .chains, .jobs, .leash, .replicas, .out]
  | .wrRdmaRead _ => [.events, .counters, .sampling, .contexts, .chains, .jobs, .leash, .replicas, .out]
  | .wrDriveRead _ =>
    [.commands, .contexts, .chains, .hbm, .layoutWork, .ciphers, .drivePorts, .leash, .replicas, .regs,
     .regLay, .out]
  | .wrDriveWrite _ =>
    [.events, .counters, .sampling, .commands, .powerState, .contexts, .chains, .mapping, .journal,
     .layoutWork, .ciphers, .drivePorts, .buffer, .regs, .regSwc, .regCip, .out]
  | .wrDigestCheck _ => [.events, .counters, .sampling, .contexts, .chains, .jobs, .leash, .replicas, .out]
  | .wrCustodyRecord _ =>
    [.events, .counters, .sampling, .commands, .powerState, .contexts, .chains, .mapping, .journal,
     .layoutWork, .ciphers, .custody, .jobs, .storeWrites, .drivePorts, .buffer, .leash, .replicas, .regs,
     .regSwc, .out]
  | .wrEnvelopeSeal _ =>
    [.events, .counters, .sampling, .contexts, .chains, .hbm, .keys, .ciphers, .jobs, .leash, .replicas, .regs,
     .regCip, .out]
  | .wrEnvelopeOpen _ =>
    [.events, .counters, .sampling, .contexts, .chains, .hbm, .keys, .ciphers, .jobs, .leash, .replicas, .regs,
     .regCip, .out]
  | .wrWaitUntilGts _ => [.chains]
  | .waitGtsReached _ _ => [.events, .counters, .sampling, .contexts, .chains, .jobs, .leash, .replicas, .out]
  | .wrNotify _ => [.events, .counters, .sampling, .contexts, .chains, .jobs, .leash, .replicas, .out]
  | .layoutSliceDone _ _ =>
    [.events, .fences, .counters, .sampling, .controllers, .namespaces, .commands, .contexts, .hbm,
     .layoutWork, .ciphers, .driveSlots, .functions, .hostQueues, .leash, .replicas, .regs, .regPrt, .regLay,
     .regRed, .out]
  | .sealIdleTimeout _ =>
    [.events, .counters, .sampling, .commands, .mapping, .journal, .layoutWork, .drivePorts, .out]
  | .setSealed _ =>
    [.events, .counters, .sampling, .commands, .powerState, .contexts, .mapping, .journal, .layoutWork,
     .ciphers, .storeWrites, .drivePorts, .buffer, .regs, .regSwc, .out]
  | .reclaimDone _ _ =>
    [.events, .counters, .sampling, .commands, .powerState, .contexts, .mapping, .journal, .layoutWork,
     .ciphers, .storeWrites, .drivePorts, .buffer, .regs, .regSwc, .out]
  | .journalReplayDone _ _ _ _ =>
    [.events, .counters, .sampling, .controllers, .namespaces, .commands, .powerState, .contexts, .hbm,
     .mapping, .journal, .layoutWork, .ciphers, .batches, .custody, .storeWrites, .drivePorts, .buffer,
     .functions, .hostQueues, .leash, .replicas, .regs, .regSwc, .regLay, .out, .free]
  | .ckptInterval => [.journal, .drivePorts, .out]
  | .layCkptCtrlStart _ _ _ =>
    [.events, .sessions, .marks, .counters, .sampling, .journal, .drivePorts, .regs, .regCtl, .out]
  | .checkpointWriteCompletion _ _ =>
    [.events, .counters, .sampling, .controllers, .namespaces, .commands, .powerState, .contexts, .hbm,
     .mapping, .journal, .layoutWork, .ciphers, .storeWrites, .drivePorts, .driveSlots, .buffer, .functions,
     .hostQueues, .leash, .replicas, .regs, .regPrt, .regSwc, .regLay, .regRed, .out]
  | .rebuildSetDone _ => [.layoutWork, .drivePorts, .out]
  | .readRepair _ _ _ _ => [.events, .counters, .sampling, .mapping, .layoutWork, .drivePorts, .out]
  | .driveReturned _ =>
    [.events, .counters, .sampling, .controllers, .namespaces, .commands, .powerState, .contexts, .mapping,
     .journal, .layoutWork, .ciphers, .drivePorts, .buffer, .functions, .hostQueues, .leash, .replicas, .regs,
     .regSwc, .out]
  | .scrubRow _ _ _ => [.events, .counters, .sampling, .mapping, .layoutWork, .drivePorts, .regs, .regLay, .out]
  | .layFormatOrder _ _ _ =>
    [.events, .sessions, .marks, .counters, .sampling, .commands, .powerState, .contexts, .mapping, .journal,
     .layoutWork, .ciphers, .drivePorts, .buffer, .regs, .regCtl, .regSwc, .out, .free]
  | .batchClosed =>
    [.events, .counters, .sampling, .commands, .powerState, .contexts, .mapping, .journal, .layoutWork,
     .ciphers, .batches, .custody, .storeWrites, .drivePorts, .buffer, .regs, .regSwc, .out]
  | .batchSealed _ =>
    [.events, .counters, .sampling, .commands, .powerState, .contexts, .mapping, .journal, .layoutWork,
     .ciphers, .batches, .storeWrites, .drivePorts, .buffer, .regs, .regSwc, .regFix, .out, .free]
  | .leavesRecomputed _ =>
    [.events, .counters, .sampling, .commands, .powerState, .contexts, .mapping, .journal, .layoutWork,
     .ciphers, .batches, .storeWrites, .drivePorts, .buffer, .regs, .regSwc, .regFix, .out]
  | .fixityAuditObject _ _ =>
    [.events, .counters, .sampling, .layoutWork, .custody, .drivePorts, .regs, .regLay, .regFix, .out]
  | .migWindowPlanned _ _ _ _ _ =>
    [.events, .counters, .sampling, .controllers, .namespaces, .contexts, .chains, .hbm, .batches, .jobs,
     .functions, .hostQueues, .leash, .replicas, .out]
  | .manifestPlan _ _ _ _ _ _ => [.contexts, .chains, .hbm, .jobs, .leash, .replicas, .out]
  | .manifestAck _ _ _ =>
    [.events, .counters, .sampling, .controllers, .namespaces, .contexts, .chains, .custody, .jobs, .functions,
     .hostQueues, .leash, .replicas, .regs, .regFix, .out]
  | .manifestVoid _ _ _ => [.contexts, .chains, .jobs, .leash, .replicas, .out]
  | .manifestFinal _ =>
    [.events, .counters, .sampling, .controllers, .namespaces, .contexts, .jobs, .functions, .hostQueues,
     .leash, .replicas, .out]
  | .migRegionsRegistered _ _ =>
    [.events, .counters, .sampling, .controllers, .namespaces, .contexts, .regions, .jobs, .functions,
     .hostQueues, .leash, .replicas, .out]
  | .migCutoverOrder _ _ _ =>
    [.events, .sessions, .marks, .counters, .sampling, .controllers, .namespaces, .contexts, .jobs, .functions,
     .hostQueues, .leash, .replicas, .regs, .regCtl, .out]
  | .migAbortOrder _ _ _ =>
    [.events, .sessions, .marks, .counters, .sampling, .controllers, .namespaces, .contexts, .chains, .jobs,
     .functions, .hostQueues, .leash, .replicas, .regs, .regCtl, .out]
  | .cutoverTimeout _ =>
    [.events, .counters, .sampling, .controllers, .namespaces, .contexts, .jobs, .functions, .hostQueues,
     .leash, .replicas, .out]
  | .migConnectionErrorTimeout _ =>
    [.events, .counters, .sampling, .controllers, .namespaces, .contexts, .chains, .jobs, .functions,
     .hostQueues, .leash, .replicas, .out]
  | .presenceSeated _ =>
    [.events, .counters, .sampling, .controllers, .namespaces, .commands, .powerState, .contexts, .hbm,
     .mapping, .journal, .layoutWork, .ciphers, .storeWrites, .drivePorts, .driveSlots, .buffer, .functions,
     .hostQueues, .leash, .replicas, .legs, .regs, .regSwc, .regLay, .regPwr, .out]
  | .presenceRemoval _ _ _ _ =>
    [.events, .counters, .sampling, .controllers, .namespaces, .commands, .powerState, .contexts, .hbm,
     .mapping, .journal, .layoutWork, .ciphers, .storeWrites, .drivePorts, .driveSlots, .buffer, .functions,
     .hostQueues, .leash, .replicas, .legs, .regs, .regSwc, .regLay, .regPwr, .out]
  | .perstReleaseTimer _ => [.drivePorts, .regs, .regDrv]
  | .driveLinkUp _ _ _ _ => [.events, .counters, .sampling, .drivePorts, .regs, .regDrv, .out]
  | .trainingTimeout _ =>
    [.events, .fences, .counters, .sampling, .controllers, .namespaces, .commands, .powerState, .contexts,
     .hbm, .mapping, .journal, .layoutWork, .ciphers, .storeWrites, .drivePorts, .driveSlots, .buffer,
     .functions, .hostQueues, .leash, .replicas, .regs, .regPrt, .regSwc, .regLay, .regDrv, .regRed, .out]
  | .driveAdminCompletion _ _ =>
    [.events, .counters, .sampling, .controllers, .namespaces, .commands, .powerState, .contexts, .hbm,
     .mapping, .journal, .layoutWork, .ciphers, .storeWrites, .drivePorts, .buffer, .functions, .hostQueues,
     .leash, .replicas, .regs, .regSwc, .regLay, .out, .free]
  | .initStepTimeout _ _ =>
    [.events, .counters, .sampling, .controllers, .namespaces, .commands, .powerState, .contexts, .hbm,
     .mapping, .journal, .layoutWork, .ciphers, .storeWrites, .drivePorts, .buffer, .functions, .hostQueues,
     .leash, .replicas, .regs, .regSwc, .regLay, .regDrv, .out]
  | .ioCommandTimeout _ =>
    [.events, .counters, .sampling, .controllers, .namespaces, .commands, .powerState, .contexts, .hbm,
     .mapping, .journal, .layoutWork, .ciphers, .storeWrites, .drivePorts, .buffer, .functions, .hostQueues,
     .leash, .replicas, .regs, .regSwc, .regLay, .regDrv, .out]
  | .adminCommandTimeout _ =>
    [.events, .counters, .sampling, .controllers, .namespaces, .commands, .powerState, .contexts, .hbm,
     .mapping, .journal, .layoutWork, .ciphers, .storeWrites, .drivePorts, .buffer, .functions, .hostQueues,
     .leash, .replicas, .regs, .regSwc, .regLay, .regDrv, .out]
  | .controllerFatalStatus _ =>
    [.events, .counters, .sampling, .controllers, .namespaces, .commands, .powerState, .contexts, .hbm,
     .mapping, .journal, .layoutWork, .ciphers, .storeWrites, .drivePorts, .buffer, .functions, .hostQueues,
     .leash, .replicas, .regs, .regSwc, .regLay, .out]
  | .driveLinkDown _ _ _ =>
    [.events, .counters, .sampling, .controllers, .namespaces, .commands, .powerState, .contexts, .hbm,
     .mapping, .journal, .layoutWork, .ciphers, .storeWrites, .drivePorts, .buffer, .functions, .hostQueues,
     .leash, .replicas, .regs, .regSwc, .regLay, .regDrv, .out]
  | .dmaFault _ _ _ =>
    [.events, .counters, .sampling, .controllers, .namespaces, .commands, .powerState, .contexts, .hbm,
     .mapping, .journal, .layoutWork, .ciphers, .storeWrites, .drivePorts, .buffer, .functions, .hostQueues,
     .leash, .replicas, .regs, .regSwc, .regLay, .out]
  | .preemptCompletion _ _ => [.events, .counters, .sampling, .drivePorts, .driveSlots, .regs, .regPrt, .regRed, .out]
  | .drvPortRetrain _ _ _ =>
    [.events, .sessions, .marks, .counters, .sampling, .drivePorts, .regs, .regCtl, .regDrv, .out]
  | .drvPortDisable _ _ _ =>
    [.events, .sessions, .marks, .counters, .sampling, .controllers, .namespaces, .commands, .powerState,
     .contexts, .hbm, .mapping, .journal, .layoutWork, .ciphers, .storeWrites, .drivePorts, .buffer,
     .functions, .hostQueues, .leash, .replicas, .regs, .regCtl, .regSwc, .regLay, .out]
  | .drvPortEnable _ _ _ => [.events, .sessions, .marks, .counters, .sampling, .drivePorts, .regs, .regCtl, .out]
  | .drvPortRecover _ _ _ => [.events, .sessions, .marks, .counters, .sampling, .drivePorts, .regs, .regCtl, .out]
  | .drvPwrdisOrder _ _ _ =>
    [.events, .sessions, .marks, .counters, .sampling, .controllers, .namespaces, .commands, .powerState,
     .contexts, .hbm, .mapping, .journal, .layoutWork, .ciphers, .storeWrites, .drivePorts, .driveSlots,
     .buffer, .functions, .hostQueues, .leash, .replicas, .regs, .regCtl, .regSwc, .regLay, .out]
  | .pwrdisRelease _ => [.events, .counters, .sampling, .drivePorts, .driveSlots]
  | .legPgWaitTimeout _ => [.drivePorts, .leash, .out]
  | .smbusPoll _ _ _ => [.events, .counters, .sampling, .driveSlots, .regs, .regPwr, .out]
  | .frameReceived _ _ _ =>
    [.events, .time, .counters, .sampling, .powerState, .punts, .stamps, .buffer, .tables, .traffic, .regs,
     .regPrt, .regCls, .regSwc, .regTmg, .out, .free]
  | .linkUp _ => [.events, .counters, .sampling, .buffer, .traffic, .regs, .regPrt, .regSwc, .regTmg, .out]
  | .linkDown _ _ _ => [.events, .counters, .sampling, .regs, .regPrt]
  | .fecDegraded _ _ => [.events, .counters, .sampling, .regs, .regPrt]
  | .fecDegradedCleared _ => [.regs, .regPrt]
  | .pfcFrameReceived _ _ =>
    [.events, .counters, .sampling, .buffer, .traffic, .regs, .regPrt, .regSwc, .regTmg, .out]
  | .pfcPauseExpiry _ _ => [.events, .counters, .sampling, .buffer, .traffic, .regs, .regPrt, .regSwc, .regTmg, .out]
  | .pfcRefresh _ _ => [.out]
  | .frameTransmitted _ _ =>
    [.events, .counters, .sampling, .stamps, .buffer, .traffic, .regs, .regSwc, .regTmg, .out]
  | .prtTsCtrl _ _ _ => [.events, .sessions, .marks, .counters, .sampling, .stamps, .regs, .regCtl, .regPrt, .out]
  | .wakeMatch _ _ => [.events, .counters, .sampling, .powerState, .stamps, .regs, .regPrt]
  | .clsRuleRead _ _ _ => [.events, .sessions, .marks, .counters, .sampling, .regs, .regCtl, .regCls, .out]
  | .clsRuleWrite _ _ _ =>
    [.events, .sessions, .marks, .counters, .sampling, .classifier, .regs, .regCtl, .regCls, .out]
  | .clsRuleInvalidate _ _ _ =>
    [.events, .sessions, .marks, .counters, .sampling, .classifier, .regs, .regCtl, .regCls, .out]
  | .bloodhoundPass _ => [.events, .counters, .sampling, .buffer, .regs, .regSwc, .out]
  | .swcMcRead _ _ _ => [.events, .sessions, .marks, .counters, .sampling, .out] ++ regParts
  | .swcMcWrite _ _ _ => [.events, .sessions, .marks, .counters, .sampling, .groups, .out] ++ regParts
  | .tmgQRead _ _ _ => [.events, .sessions, .marks, .counters, .sampling, .out] ++ regParts
  | .tmgQWrite _ _ _ => [.events, .sessions, .marks, .counters, .sampling, .tables, .traffic, .out] ++ regParts
  | .tmgPolRead _ _ _ => [.events, .sessions, .marks, .counters, .sampling, .tables, .out] ++ regParts
  | .tmgPolWrite _ _ _ => [.events, .sessions, .marks, .counters, .sampling, .tables, .out] ++ regParts
  | .tmgGateRead _ _ _ => [.events, .sessions, .marks, .counters, .sampling, .out] ++ regParts
  | .tmgGateWrite _ _ _ => [.events, .sessions, .marks, .counters, .sampling, .tables, .out] ++ regParts
  | .tmgGateCommit _ _ _ =>
    [.events, .sessions, .marks, .counters, .sampling, .traffic, .regs, .regCtl, .regTmg, .out]
  | .tmgGateStop _ _ _ => [.events, .sessions, .marks, .counters, .sampling, .traffic, .regs, .regCtl, .regTmg, .out]
  | .gateSwitch _ => [.events, .counters, .sampling, .buffer, .traffic, .regs, .regSwc, .regTmg, .out]
  | .gateListStopped _ => [.events, .counters, .sampling, .buffer, .traffic, .regs, .regSwc, .regTmg, .out]
  | .gateEntryEnd _ => [.events, .counters, .sampling, .buffer, .traffic, .regs, .regSwc, .regTmg, .out]
  | .tmgHistSel _ _ _ => [.events, .sessions, .marks, .counters, .sampling, .traffic, .regs, .regCtl, .regTmg, .out]
  | .mediaQueueGrant _ => [.events, .counters, .sampling, .mapping, .layoutWork, .traffic]
  | .cipherRequest _ =>
    [.events, .counters, .sampling, .contexts, .chains, .keys, .ciphers, .jobs, .leash, .replicas, .regs,
     .regCip, .out]
  | .cipherSegmentDone _ _ =>
    [.events, .fences, .counters, .sampling, .controllers, .namespaces, .commands, .contexts, .chains, .hbm,
     .layoutWork, .ciphers, .jobs, .driveSlots, .functions, .hostQueues, .leash, .replicas, .regs, .regPrt,
     .regCip, .regRed, .out]
  | .laneKnownAnswerTest _ _ =>
    [.events, .fences, .counters, .sampling, .controllers, .namespaces, .commands, .contexts, .ciphers,
     .driveSlots, .functions, .hostQueues, .leash, .replicas, .regs, .regPrt, .regRed, .out]
  | .keyGenerate _ _ _ =>
    [.events, .sessions, .marks, .counters, .sampling, .keyOrders, .regs, .regCtl, .regCip, .out]
  | .keyImport _ _ _ => [.events, .sessions, .marks, .counters, .sampling, .keyOrders, .regs, .regCtl, .regCip, .out]
  | .keyExport _ _ _ => [.events, .sessions, .marks, .counters, .sampling, .keyOrders, .regs, .regCtl, .regCip, .out]
  | .keyDestroy _ _ _ =>
    [.events, .sessions, .marks, .counters, .sampling, .keys, .keyOrders, .trust, .regs, .regCtl, .regCip,
     .out]
  | .keyEscrowAgain _ _ _ =>
    [.events, .sessions, .marks, .counters, .sampling, .keyOrders, .regs, .regCtl, .regCip, .out]
  | .keyOrderDone => [.events, .counters, .sampling, .keys, .keyOrders, .trust, .regs, .regCip, .free]
  | .truRotate _ _ _ => [.events, .sessions, .marks, .counters, .sampling, .trust, .regs, .regCtl, .regTru, .out]
  | .truRollback _ _ _ => [.events, .sessions, .marks, .counters, .sampling, .trust, .regs, .regCtl, .regTru, .out]
  | .truEnrolImageKey _ _ _ =>
    [.events, .sessions, .marks, .counters, .sampling, .trust, .regs, .regCtl, .regTru, .out]
  | .truRemoveImageKey _ _ _ =>
    [.events, .sessions, .marks, .counters, .sampling, .trust, .regs, .regCtl, .regTru, .out]
  | .entropyFail _ => [.events, .counters, .sampling, .regs, .regTru]
  | .entropyOk => [.events, .counters, .sampling, .regs, .regTru]
  | .heLinkUp _ _ _ _ => [.events, .counters, .sampling, .controllers, .functions, .regs, .regHep]
  | .heLinkDown =>
    [.events, .paths, .bone, .counters, .sampling, .controllers, .queues, .commands, .powerState, .contexts,
     .contextCache, .regions, .mapping, .journal, .layoutWork, .ciphers, .drivePorts, .buffer, .functions,
     .hostReads, .hostQueues, .replicas, .regs, .regSwc, .regHep, .out]
  | .heFundamentalReset =>
    [.events, .paths, .bone, .counters, .sampling, .controllers, .queues, .commands, .powerState, .contexts,
     .contextCache, .regions, .mapping, .journal, .layoutWork, .ciphers, .drivePorts, .buffer, .functions,
     .hostReads, .hostQueues, .replicas, .regs, .regSwc, .regHep, .out]
  | .heHotReset =>
    [.events, .paths, .bone, .counters, .sampling, .controllers, .queues, .commands, .powerState, .contexts,
     .contextCache, .regions, .mapping, .journal, .layoutWork, .ciphers, .drivePorts, .buffer, .functions,
     .hostReads, .hostQueues, .replicas, .regs, .regSwc, .regHep, .out]
  | .flrPf1 =>
    [.events, .counters, .sampling, .controllers, .queues, .commands, .powerState, .contexts, .contextCache,
     .regions, .mapping, .journal, .layoutWork, .ciphers, .drivePorts, .buffer, .functions, .hostReads,
     .hostQueues, .replicas, .regs, .regSwc, .out]
  | .flrVf _ =>
    [.events, .counters, .sampling, .controllers, .queues, .commands, .powerState, .contexts, .contextCache,
     .regions, .mapping, .journal, .layoutWork, .ciphers, .drivePorts, .buffer, .functions, .hostReads,
     .hostQueues, .replicas, .regs, .regSwc, .out]
  | .flrPf0 => [.events, .paths, .bone, .counters, .sampling, .functions]
  | .flrComplete _ _ => [.functions]
  | .vfEnable _ _ _ =>
    [.events, .counters, .sampling, .controllers, .queues, .commands, .powerState, .contexts, .contextCache,
     .regions, .mapping, .journal, .layoutWork, .ciphers, .drivePorts, .buffer, .functions, .hostReads,
     .hostQueues, .replicas, .regs, .regSwc, .out]
  | .bmeCleared _ =>
    [.events, .counters, .sampling, .controllers, .commands, .powerState, .contexts, .mapping, .journal,
     .layoutWork, .ciphers, .drivePorts, .buffer, .functions, .hostReads, .regs, .regSwc, .out]
  | .submissionQueueDoorbell _ _ _ =>
    [.controllers, .powerState, .contexts, .functions, .hostReads, .hostQueues, .leash, .replicas, .out]
  | .completionQueueDoorbell _ _ _ => [.controllers, .contexts, .functions, .hostQueues, .leash, .replicas, .out]
  | .hostReadCompletion _ _ _ _ =>
    [.events, .counters, .sampling, .commands, .mapping, .journal, .layoutWork, .drivePorts, .hostReads, .regs,
     .regHep, .out]
  | .cplTimeout _ =>
    [.events, .counters, .sampling, .commands, .mapping, .journal, .layoutWork, .drivePorts, .hostReads, .regs,
     .regHep, .out]
  | .tagHoldExpiry _ => [.hostReads, .out]
  | .msixUnmask _ _ => [.functions, .out]
  | .peerMemoryRequest _ _ _ => [.events, .counters, .sampling, .peerMem, .regs, .regSwc, .regHep, .out]
  | .hepPwinCommit _ _ _ =>
    [.events, .sessions, .marks, .counters, .sampling, .peerTable, .regs, .regCtl, .regHep, .out]
  | .pwinCommit => [.events, .counters, .sampling, .peerTable, .regs, .regHep]
  | .hepPptRead _ _ _ => [.events, .sessions, .marks, .counters, .sampling, .regs, .regCtl, .regHep, .out]
  | .hepPptWrite _ _ _ =>
    [.events, .sessions, .marks, .counters, .sampling, .peerTable, .regs, .regCtl, .regHep, .out]
  | .leashUp _ _ => [.events, .counters, .sampling, .leash, .regs, .regRed]
  | .leashLockLost _ =>
    [.events, .counters, .sampling, .controllers, .queues, .commands, .contexts, .regions, .mapping, .journal,
     .batches, .jobs, .driveSlots, .buffer, .leash, .replicas, .roles, .regs, .regSwc, .regRed, .out]
  | .leashSilence _ =>
    [.events, .counters, .sampling, .controllers, .queues, .commands, .contexts, .regions, .mapping, .journal,
     .batches, .jobs, .driveSlots, .buffer, .leash, .replicas, .roles, .regs, .regSwc, .regRed, .out]
  | .leashResendTimeout _ =>
    [.events, .counters, .sampling, .controllers, .queues, .commands, .contexts, .regions, .mapping, .journal,
     .batches, .jobs, .driveSlots, .buffer, .leash, .replicas, .roles, .regs, .regSwc, .regRed, .out]
  | .idleFrameTimer _ => [.leash, .out]
  | .idleFrameReceived _ _ => [.events, .time, .counters, .sampling, .leash, .regs, .regCtl, .regRed, .free, .clock]
  | .epochEnd => [.events, .counters, .sampling, .contexts, .leash, .replicas, .regs, .regRed, .out, .free]
  | .epochFrameReceived _ _ =>
    [.events, .counters, .sampling, .controllers, .queues, .commands, .powerState, .contexts, .contextCache,
     .regions, .chains, .mapping, .journal, .layoutWork, .keys, .ciphers, .batches, .jobs, .drivePorts,
     .driveSlots, .buffer, .leash, .replicas, .roles, .out] ++ regParts
  | .noticeFrameReceived _ _ => [.leash, .replicas, .regs, .regRed]
  | .echoReceived _ _ _ =>
    [.events, .counters, .sampling, .controllers, .namespaces, .commands, .powerState, .contexts, .mapping,
     .journal, .layoutWork, .ciphers, .batches, .storeWrites, .drivePorts, .driveSlots, .buffer, .functions,
     .hostQueues, .leash, .replicas, .regs, .regPrt, .regSwc, .regFix, .regRed, .out]
  | .voteMissed _ =>
    [.events, .counters, .sampling, .controllers, .namespaces, .commands, .powerState, .contexts, .mapping,
     .journal, .layoutWork, .ciphers, .batches, .storeWrites, .drivePorts, .driveSlots, .buffer, .functions,
     .hostQueues, .leash, .replicas, .regs, .regPrt, .regSwc, .regFix, .regRed, .out]
  | .epochMiss =>
    [.events, .counters, .sampling, .controllers, .queues, .commands, .powerState, .contexts, .contextCache,
     .regions, .chains, .mapping, .journal, .layoutWork, .ciphers, .batches, .jobs, .drivePorts, .driveSlots,
     .buffer, .leash, .replicas, .roles, .out] ++ regParts
  | .probeReceived _ _ =>
    [.events, .counters, .sampling, .controllers, .queues, .commands, .contexts, .regions, .mapping, .journal,
     .batches, .jobs, .driveSlots, .buffer, .leash, .replicas, .roles, .regs, .regSwc, .regRed, .out]
  | .probeReplyReceived _ _ _ _ =>
    [.events, .counters, .sampling, .controllers, .queues, .commands, .powerState, .contexts, .contextCache,
     .regions, .chains, .mapping, .journal, .layoutWork, .ciphers, .batches, .jobs, .drivePorts, .driveSlots,
     .buffer, .leash, .replicas, .roles, .out] ++ regParts
  | .probeTimeout =>
    [.events, .counters, .sampling, .controllers, .queues, .commands, .powerState, .contexts, .contextCache,
     .regions, .chains, .mapping, .journal, .layoutWork, .ciphers, .jobs, .drivePorts, .driveSlots, .buffer,
     .leash, .replicas, .roles, .out] ++ regParts
  | .takeoverReplayDone _ _ _ _ =>
    [.events, .counters, .sampling, .commands, .powerState, .contexts, .mapping, .journal, .layoutWork,
     .ciphers, .batches, .custody, .storeWrites, .drivePorts, .driveSlots, .buffer, .functions, .hostQueues,
     .leash, .replicas, .roles, .regs, .regPrt, .regSwc, .regFix, .regRed, .out, .free]
  | .takeoverDone => [.events, .counters, .sampling, .commands, .contexts, .leash, .replicas, .out]
  | .fenceReceived _ _ =>
    [.events, .counters, .sampling, .controllers, .queues, .commands, .powerState, .contexts, .contextCache,
     .regions, .chains, .mapping, .journal, .layoutWork, .ciphers, .jobs, .drivePorts, .driveSlots, .buffer,
     .leash, .replicas, .roles, .out] ++ regParts
  | .takeoverReceived _ _ =>
    [.events, .counters, .sampling, .commands, .driveSlots, .leash, .replicas, .roles, .regs, .regPrt, .regRed]
  | .handoverDoneReceived _ => [.leash, .regs, .regRed]
  | .joinReceived _ _ _ _ _ =>
    [.events, .counters, .sampling, .commands, .contexts, .leash, .replicas, .roles, .regs, .regRed, .out]
  | .joinReplyReceived _ _ _ =>
    [.events, .counters, .sampling, .controllers, .queues, .commands, .contexts, .regions, .mapping, .journal,
     .batches, .jobs, .driveSlots, .buffer, .leash, .replicas, .roles, .regs, .regSwc, .regRed, .out]
  | .bulkReceived _ _ _ _ _ =>
    [.events, .counters, .sampling, .controllers, .queues, .namespaces, .contexts, .regions, .mapping,
     .journal, .keys, .batches, .jobs, .leash, .replicas, .regs, .regXpt, .regRed]
  | .queryReceived _ _ _ _ =>
    [.events, .fences, .counters, .sampling, .controllers, .namespaces, .commands, .powerState, .contexts,
     .hbm, .mapping, .journal, .layoutWork, .ciphers, .storeWrites, .drivePorts, .driveSlots, .buffer,
     .functions, .hostQueues, .leash, .replicas, .regs, .regPrt, .regSwc, .regLay, .regRed, .out]
  | .joinTimer => [.leash, .out]
  | .joinTimeExpiry =>
    [.events, .counters, .sampling, .controllers, .queues, .commands, .contexts, .regions, .mapping, .journal,
     .layoutWork, .batches, .custody, .storeWrites, .driveSlots, .buffer, .regs, .regPrt, .regSwc, .regRed,
     .out]
  | .reservationCheck _ => [.events, .counters, .sampling, .driveSlots, .regs, .regPrt, .regRed, .out]
  | .redRoleSwitch _ _ _ => [.events, .sessions, .marks, .counters, .sampling, .roles, .regs, .regCtl, .regRed, .out]
  | .redRoleFence _ _ _ =>
    [.events, .sessions, .marks, .counters, .sampling, .controllers, .namespaces, .commands, .powerState,
     .contexts, .mapping, .journal, .layoutWork, .ciphers, .batches, .drivePorts, .driveSlots, .buffer,
     .functions, .hostQueues, .leash, .replicas, .regs, .regCtl, .regPrt, .regSwc, .regRed, .out]
  | .redRoleRelease _ _ _ =>
    [.events, .sessions, .marks, .counters, .sampling, .commands, .driveSlots, .replicas, .roles, .regs,
     .regCtl, .regRed, .out]
  | .redRoleStandDown _ _ _ =>
    [.events, .sessions, .marks, .counters, .sampling, .driveSlots, .regs, .regCtl, .regPrt, .regRed, .out]
  | .handover =>
    [.events, .counters, .sampling, .commands, .contexts, .driveSlots, .buffer, .leash, .replicas, .roles,
     .regs, .regPrt, .regSwc, .regRed, .out, .free]
  | .handoverDrainLimit => [.roles, .regs, .regRed]
  | .hello _ _ _ => [.events, .sessions, .counters, .sampling, .keys, .regs, .regCtl, .regTru, .out, .free]
  | .ping _ => [.sessions, .bone, .regs, .regCtl, .out]
  | .regRead _ _ _ =>
    [.events, .paths, .fences, .rings, .sessions, .bone, .counters, .sampling, .buffer, .functions, .out] ++ regParts
  | .regWrite _ _ =>
    [.events, .time, .paths, .fences, .rings, .sessions, .bone, .marks, .cores, .counters, .snapshot,
     .sampling, .boot, .controllers, .namespaces, .commands, .activation, .powerState, .contexts,
     .contextCache, .regions, .chains, .hbm, .mapping, .journal, .layoutWork, .keys, .keyOrders, .ciphers,
     .trust, .batches, .jobs, .storeWrites, .drivePorts, .driveSlots, .classifier, .punts, .stamps, .buffer,
     .groups, .tables, .traffic, .functions, .hostReads, .hostQueues, .peerTable, .leash, .replicas, .roles,
     .legs, .out, .free] ++ regParts
  | .boneAcquire _ _ => [.events, .sessions, .bone, .counters, .sampling, .regs, .regCtl, .out]
  | .boneRelease _ => [.events, .sessions, .bone, .counters, .sampling, .regs, .regCtl, .out]
  | .imageBegin _ _ _ _ => [.sessions, .bone, .stores, .regs, .regCtl, .out, .free]
  | .imageData _ _ _ => [.sessions, .bone, .stores, .regs, .regCtl, .out]
  | .imageCommit _ => [.events, .sessions, .bone, .images, .stores, .counters, .sampling, .boot, .regs, .regCtl, .out]
  | .profileActivate _ _ _ =>
    [.events, .sessions, .bone, .counters, .sampling, .boot, .commands, .activation, .trust, .regs, .regCtl,
     .out]
  | .profileErase _ _ => [.sessions, .bone, .images, .regs, .regCtl, .out]
  | .profileList _ => [.sessions, .bone, .regs, .regCtl, .out]
  | .eventSubscribe _ _ => [.rings, .sessions, .bone, .regs, .regCtl, .out]
  | .eventAck _ _ _ => [.rings, .sessions, .bone, .counters, .sampling, .functions, .regs, .regCtl, .out]
  | .eventUnsubscribe _ _ => [.rings, .sessions, .bone, .regs, .regCtl, .out]
  | .clogRead _ _ _ => [.sessions, .bone, .regs, .regCtl, .out]
  | .keyPut _ _ => [.sessions, .bone, .keyOrders, .regs, .regCtl, .out]
  | .keyGet _ => [.sessions, .bone, .keyOrders, .regs, .regCtl, .out]
  | .escrowCollect _ _ => [.sessions, .bone, .keyOrders, .regs, .regCtl, .out]
  | .receiptGet _ _ => [.sessions, .bone, .regs, .regCtl, .out]
  | .custodyExport _ _ => [.sessions, .bone, .regs, .regCtl, .out]
  | .certGet _ _ _ => [.sessions, .bone, .regs, .regCtl, .out]
  | .quote _ _ => [.events, .sessions, .bone, .counters, .sampling, .regs, .regCtl, .regTru, .out, .free]
  | .migJobCreate _ _ => [.events, .sessions, .bone, .counters, .sampling, .keys, .jobs, .regs, .regCtl, .out]
  | .migJobReport _ _ => [.sessions, .bone, .regs, .regCtl, .out]
  | .cellsAlloc _ _ => [.sessions, .bone, .buffer, .regs, .regCtl, .regSwc, .out]
  | .cellsFree _ _ => [.sessions, .bone, .buffer, .regs, .regCtl, .regSwc, .out]
  | .sessionClose _ =>
    [.events, .rings, .sessions, .bone, .stores, .counters, .sampling, .keys, .keyOrders, .regs, .regCtl, .out]
  | .badOpcode _ _ => [.sessions, .bone, .regs, .regCtl, .out]
  | .sessionIdleTimeout _ => [.events, .rings, .sessions, .bone, .stores, .counters, .sampling, .keys, .keyOrders]
  | .mgmtLinkLoss _ => [.events, .rings, .sessions, .bone, .stores, .counters, .sampling, .keys, .keyOrders]
  | .eventMessageResend _ _ => [.rings, .sessions, .out]
  | .i3cRead _ _ _ =>
    [.events, .paths, .fences, .rings, .sessions, .counters, .sampling, .buffer, .functions, .out] ++ regParts
  | .i3cWrite _ _ _ =>
    [.events, .time, .paths, .fences, .rings, .sessions, .bone, .marks, .cores, .counters, .snapshot,
     .sampling, .boot, .controllers, .namespaces, .commands, .activation, .powerState, .contexts,
     .contextCache, .regions, .chains, .hbm, .mapping, .journal, .layoutWork, .keys, .keyOrders, .ciphers,
     .trust, .batches, .jobs, .storeWrites, .drivePorts, .driveSlots, .classifier, .punts, .stamps, .buffer,
     .groups, .tables, .traffic, .functions, .hostReads, .hostQueues, .peerTable, .leash, .replicas, .roles,
     .legs, .out, .free] ++ regParts
  | .i3cStatus _ =>
    [.events, .paths, .fences, .rings, .sessions, .counters, .sampling, .buffer, .functions, .out] ++ regParts
  | .i3cCommission _ _ _ => [.principals, .keys, .out]
  | .storeBegin _ _ _ _ => [.stores, .out, .free]
  | .storeData _ _ _ => [.stores, .out]
  | .storeCommit _ => [.events, .images, .stores, .counters, .sampling, .boot, .out]
  | .i3cRestart _ =>
    [.events, .time, .paths, .fences, .held, .rings, .clog, .sessions, .bone, .principals, .images, .stores,
     .marks, .identity, .cores, .counters, .snapshot, .sampling, .boot, .controllers, .queues, .namespaces,
     .commands, .activation, .powerState, .contexts, .contextCache, .regions, .chains, .hbm, .mapping,
     .journal, .layoutWork, .keys, .keyOrders, .ciphers, .trust, .batches, .custody, .jobs, .storeWrites,
     .drivePorts, .driveSlots, .classifier, .punts, .stamps, .buffer, .groups, .tables, .traffic, .functions,
     .hostReads, .hostQueues, .peerTable, .peerMem, .leash, .replicas, .roles, .legs, .feeds, .heldCommands,
     .out, .free, .records, .clock, .forward, .fenced] ++ regParts
  | .boneReqAcquire _ _ _ => [.events, .sessions, .bone, .marks, .counters, .sampling, .regs, .regCtl, .out]
  | .boneReqRelease _ _ _ => [.events, .sessions, .bone, .marks, .counters, .sampling, .regs, .regCtl, .out]
  | .boneReqRenew _ _ _ => [.events, .sessions, .bone, .marks, .counters, .sampling, .regs, .regCtl, .out]
  | .boneExpired => [.events, .sessions, .bone, .counters, .sampling, .out]
  | .ctlLockSet _ _ _ => [.events, .sessions, .marks, .counters, .sampling, .regs, .regCtl, .out]
  | .ringReaderBind _ _ _ _ => [.events, .rings, .sessions, .marks, .counters, .sampling, .regs, .regCtl, .out]
  | .ringReadSnapshot _ _ => [.paths, .rings, .out]
  | .ringReadRemove _ _ => [.paths, .rings, .sessions, .counters, .sampling, .functions, .out]
  | .fastTrip _ =>
    [.events, .counters, .sampling, .controllers, .namespaces, .commands, .powerState, .contexts, .hbm,
     .mapping, .journal, .layoutWork, .ciphers, .storeWrites, .drivePorts, .buffer, .functions, .hostQueues,
     .leash, .replicas, .legs, .regs, .regSwc, .regLay, .regPwr, .out]
  | .faultTimerExpiry _ =>
    [.events, .counters, .sampling, .controllers, .namespaces, .commands, .powerState, .contexts, .hbm,
     .mapping, .journal, .layoutWork, .ciphers, .storeWrites, .drivePorts, .buffer, .functions, .hostQueues,
     .leash, .replicas, .legs, .regs, .regSwc, .regLay, .regPwr, .out]
  | .modelTemperatureLimit _ =>
    [.events, .counters, .sampling, .controllers, .namespaces, .commands, .powerState, .contexts, .hbm,
     .mapping, .journal, .layoutWork, .ciphers, .storeWrites, .drivePorts, .buffer, .functions, .hostQueues,
     .leash, .replicas, .legs, .regs, .regSwc, .regLay, .regPwr, .out]
  | .rampTimeLimit _ =>
    [.events, .counters, .sampling, .controllers, .namespaces, .commands, .powerState, .contexts, .hbm,
     .mapping, .journal, .layoutWork, .ciphers, .storeWrites, .drivePorts, .buffer, .functions, .hostQueues,
     .leash, .replicas, .legs, .regs, .regSwc, .regLay, .regPwr, .out]
  | .rampComplete _ => [.regs, .regPwr]
  | .gateCheckFail _ =>
    [.events, .fences, .counters, .sampling, .controllers, .namespaces, .commands, .powerState, .contexts,
     .hbm, .mapping, .journal, .layoutWork, .ciphers, .storeWrites, .drivePorts, .driveSlots, .buffer,
     .functions, .hostQueues, .leash, .replicas, .legs, .regs, .regPrt, .regSwc, .regLay, .regPwr, .regRed,
     .out]
  | .drainSourceShort _ =>
    [.events, .fences, .counters, .sampling, .controllers, .namespaces, .commands, .powerState, .contexts,
     .hbm, .mapping, .journal, .layoutWork, .ciphers, .storeWrites, .drivePorts, .driveSlots, .buffer,
     .functions, .hostQueues, .leash, .replicas, .legs, .regs, .regPrt, .regSwc, .regLay, .regPwr, .regRed,
     .out]
  | .legPg _ => [.events, .counters, .sampling, .drivePorts, .leash, .regs, .regPwr, .out]
  | .legPgWithdrawn _ => [.events, .counters, .sampling, .regs, .regPwr]
  | .legDischarged _ => [.events, .counters, .sampling, .legs, .regs, .regPwr]
  | .legRetry _ => [.events, .counters, .sampling, .legs, .regs, .regPwr]
  | .retryCountClear _ => [.regs, .regPwr]
  | .pwrLegOnOrder _ _ _ => [.events, .sessions, .marks, .counters, .sampling, .legs, .regs, .regCtl, .regPwr, .out]
  | .pwrLegOffOrder _ _ _ => [.events, .sessions, .marks, .counters, .sampling, .legs, .regs, .regCtl, .regPwr, .out]
  | .feedFault _ _ _ => [.events, .counters, .sampling, .feeds, .regs, .regPwr]
  | .feedOk _ => [.events, .counters, .sampling, .feeds, .regs, .regPwr]
  | .sensorPoll _ => [.events, .counters, .sampling, .feeds, .regs, .regPwr, .out]
  | .fanFail _ _ => [.events, .counters, .sampling, .regs, .regPwr]
  | .fanRecovered _ _ => [.regs, .regPwr]
  | .thermTrip =>
    [.events, .time, .paths, .fences, .held, .rings, .clog, .sessions, .bone, .principals, .images, .stores,
     .marks, .identity, .cores, .counters, .snapshot, .sampling, .boot, .controllers, .queues, .namespaces,
     .commands, .activation, .powerState, .contexts, .contextCache, .regions, .chains, .hbm, .mapping,
     .journal, .layoutWork, .keys, .keyOrders, .ciphers, .trust, .batches, .custody, .jobs, .storeWrites,
     .drivePorts, .driveSlots, .classifier, .punts, .stamps, .buffer, .groups, .tables, .traffic, .functions,
     .hostReads, .hostQueues, .peerTable, .peerMem, .leash, .replicas, .roles, .legs, .feeds, .heldCommands,
     .out, .free, .records, .clock, .forward, .fenced] ++ regParts
  | .telSnapStart _ _ _ =>
    [.events, .sessions, .marks, .counters, .snapshot, .sampling, .regs, .regCtl, .regTel, .out]
  | .snapDone => [.events, .counters, .sampling, .regs, .regTel]
  | .samplerOverflow _ => [.sampling]
  | .sampleCaptureTimeout _ => [.events, .counters, .sampling, .regs, .regTel]
  | .sampleReadSnapshot _ => [.paths, .sampling, .out]
  | .sampleReadRemove _ => [.paths, .sampling, .out]
  | .telSamplerWrite _ _ _ _ => [.events, .sessions, .marks, .counters, .sampling, .regs, .regCtl, .regTel, .out]
  | .powerOnReset =>
    [.events, .time, .paths, .fences, .held, .rings, .clog, .sessions, .bone, .principals, .images, .stores,
     .marks, .identity, .cores, .counters, .snapshot, .sampling, .boot, .controllers, .queues, .namespaces,
     .commands, .activation, .powerState, .contexts, .contextCache, .regions, .chains, .hbm, .mapping,
     .journal, .layoutWork, .keys, .keyOrders, .ciphers, .trust, .batches, .custody, .jobs, .storeWrites,
     .drivePorts, .driveSlots, .classifier, .punts, .stamps, .buffer, .groups, .tables, .traffic, .functions,
     .hostReads, .hostQueues, .peerTable, .peerMem, .leash, .replicas, .roles, .legs, .feeds, .heldCommands,
     .out, .free, .records, .clock, .forward, .fenced] ++ regParts
  | .fundamentalReset =>
    [.events, .time, .paths, .fences, .held, .rings, .clog, .sessions, .bone, .principals, .images, .stores,
     .marks, .identity, .cores, .counters, .snapshot, .sampling, .boot, .controllers, .queues, .namespaces,
     .commands, .activation, .powerState, .contexts, .contextCache, .regions, .chains, .hbm, .mapping,
     .journal, .layoutWork, .keys, .keyOrders, .ciphers, .trust, .batches, .custody, .jobs, .storeWrites,
     .drivePorts, .driveSlots, .classifier, .punts, .stamps, .buffer, .groups, .tables, .traffic, .functions,
     .hostReads, .hostQueues, .peerTable, .peerMem, .leash, .replicas, .roles, .legs, .feeds, .heldCommands,
     .out, .free, .records, .clock, .forward, .fenced] ++ regParts
  | .powerGoodLoss _ =>
    [.events, .time, .paths, .fences, .held, .rings, .clog, .sessions, .bone, .principals, .images, .stores,
     .marks, .identity, .cores, .counters, .snapshot, .sampling, .boot, .controllers, .queues, .namespaces,
     .commands, .activation, .powerState, .contexts, .contextCache, .regions, .chains, .hbm, .mapping,
     .journal, .layoutWork, .keys, .keyOrders, .ciphers, .trust, .batches, .custody, .jobs, .storeWrites,
     .drivePorts, .driveSlots, .classifier, .punts, .stamps, .buffer, .groups, .tables, .traffic, .functions,
     .hostReads, .hostQueues, .peerTable, .peerMem, .leash, .replicas, .roles, .legs, .feeds, .heldCommands,
     .out, .free, .records, .clock, .forward, .fenced] ++ regParts
  | .warmResetPin =>
    [.events, .time, .paths, .fences, .held, .rings, .clog, .sessions, .bone, .principals, .images, .stores,
     .marks, .identity, .cores, .counters, .snapshot, .sampling, .boot, .controllers, .queues, .namespaces,
     .commands, .activation, .powerState, .contexts, .contextCache, .regions, .chains, .hbm, .mapping,
     .journal, .layoutWork, .keys, .keyOrders, .ciphers, .trust, .batches, .custody, .jobs, .storeWrites,
     .drivePorts, .driveSlots, .classifier, .punts, .stamps, .buffer, .groups, .tables, .traffic, .functions,
     .hostReads, .hostQueues, .peerTable, .peerMem, .leash, .replicas, .roles, .legs, .feeds, .heldCommands,
     .out, .free, .records, .clock, .forward, .fenced] ++ regParts
  | .systemWatchdogExpiry =>
    [.events, .time, .paths, .fences, .held, .rings, .clog, .sessions, .bone, .principals, .images, .stores,
     .marks, .identity, .cores, .counters, .snapshot, .sampling, .boot, .controllers, .queues, .namespaces,
     .commands, .activation, .powerState, .contexts, .contextCache, .regions, .chains, .hbm, .mapping,
     .journal, .layoutWork, .keys, .keyOrders, .ciphers, .trust, .batches, .custody, .jobs, .storeWrites,
     .drivePorts, .driveSlots, .classifier, .punts, .stamps, .buffer, .groups, .tables, .traffic, .functions,
     .hostReads, .hostQueues, .peerTable, .peerMem, .leash, .replicas, .roles, .legs, .feeds, .heldCommands,
     .out, .free, .records, .clock, .forward, .fenced] ++ regParts
  | .bootStart _ _ _ _ =>
    [.events, .time, .rings, .principals, .images, .stores, .identity, .counters, .sampling, .boot,
     .controllers, .queues, .namespaces, .commands, .chains, .mapping, .keys, .keyOrders, .trust, .batches,
     .drivePorts, .driveSlots, .classifier, .punts, .groups, .tables, .traffic, .hostReads, .hostQueues,
     .leash, .replicas, .roles, .legs, .out, .free] ++ regParts
  | .pllLocked _ _ _ =>
    [.events, .time, .fences, .rings, .principals, .images, .stores, .identity, .cores, .counters, .sampling,
     .boot, .controllers, .queues, .namespaces, .commands, .powerState, .contexts, .chains, .hbm, .mapping,
     .journal, .layoutWork, .keys, .keyOrders, .ciphers, .trust, .batches, .storeWrites, .drivePorts,
     .driveSlots, .classifier, .punts, .buffer, .groups, .tables, .traffic, .functions, .hostReads,
     .hostQueues, .leash, .replicas, .roles, .legs, .out, .free] ++ regParts
  | .bootDone =>
    [.events, .counters, .sampling, .boot, .mapping, .journal, .layoutWork, .batches, .custody, .storeWrites]
  | .recoveryRestart =>
    [.events, .time, .paths, .fences, .held, .rings, .clog, .sessions, .bone, .principals, .images, .stores,
     .marks, .identity, .cores, .counters, .snapshot, .sampling, .boot, .controllers, .queues, .namespaces,
     .commands, .activation, .powerState, .contexts, .contextCache, .regions, .chains, .hbm, .mapping,
     .journal, .layoutWork, .keys, .keyOrders, .ciphers, .trust, .batches, .custody, .jobs, .storeWrites,
     .drivePorts, .driveSlots, .classifier, .punts, .stamps, .buffer, .groups, .tables, .traffic, .functions,
     .hostReads, .hostQueues, .peerTable, .peerMem, .leash, .replicas, .roles, .legs, .feeds, .heldCommands,
     .out, .free, .records, .clock, .forward, .fenced] ++ regParts
  | .clockLost _ =>
    [.events, .time, .paths, .fences, .held, .rings, .clog, .sessions, .bone, .principals, .images, .stores,
     .marks, .identity, .cores, .counters, .snapshot, .sampling, .boot, .controllers, .queues, .namespaces,
     .commands, .activation, .powerState, .contexts, .contextCache, .regions, .chains, .hbm, .mapping,
     .journal, .layoutWork, .keys, .keyOrders, .ciphers, .trust, .batches, .custody, .jobs, .storeWrites,
     .drivePorts, .driveSlots, .classifier, .punts, .stamps, .buffer, .groups, .tables, .traffic, .functions,
     .hostReads, .hostQueues, .peerTable, .peerMem, .leash, .replicas, .roles, .legs, .feeds, .heldCommands,
     .out, .free, .records, .clock, .forward, .fenced] ++ regParts
  | .clockPresent _ => [.boot, .drivePorts]
  | .controlTick _ _ _ =>
    [.events, .counters, .sampling, .punts, .buffer, .legs, .feeds, .regs, .regSwc, .regPwr, .out]
  | .coreClockEdge _ =>
    [.time, .counters, .sampling, .commands, .contexts, .buffer, .traffic, .leash, .regs, .regSwc, .out,
     .clock]
  | .epochRecordSent => [.events, .counters, .sampling, .leash, .regs, .regRed, .out]
  | .interruptCoalescingTimeout _ _ => [.functions, .hostQueues, .out]
  | .mgmtNeighbourDiscovery _ _ _ => [.out]

/-- The commands that may begin a reset of the unit. -/
def isReset (i : Instr) : Bool :=
  match i with
  | .i3cRestart _ => true
  | .thermTrip => true
  | .powerOnReset => true
  | .fundamentalReset => true
  | .powerGoodLoss _ => true
  | .warmResetPin => true
  | .systemWatchdogExpiry => true
  | .recoveryRestart => true
  | .clockLost _ => true
  | _ => false

/-- The command completes in a state of which `p` holds. -/
def Completes (i : Instr) (s : State) (p : State → Prop) : Prop := ∃ t, exec i s = .next t ∧ p t

/-- An event record is on its way to the router: source, severity, event number and data, at the GTS of `s` (R23, R30). -/
abbrev Emitted (s t : State) (src sev ev data : Nat) : Prop := ⟨s.now, src, sev, ev, data % 2 ^ 36⟩ ∈ t.ctl.inflight

/-- May a path write a register now: the path carries accesses, and neither the rights of R386 and R391 nor the Bone of R393
refuse the write? -/
abbrev MayWrite (path : Fin 5) (session addr : Nat) (s : State) : Prop :=
  pathLive s path.val session = true ∧ writeRefusal s path.val session addr = 0

/-- Does a PCIe completion queue take a completion now: Bus Master Enable is set, no FLR is in progress, and the queue has
space (R327, R331, R333)? -/
abbrev HostRoom (s : State) (cntlid cqid : Nat) : Prop :=
  (fnOf s (cntlid - 0xFF00)).bme = true ∧ (fnOf s (cntlid - 0xFF00)).flr = false ∧
    (cqOf s (cntlid * 256 + cqid)).exists_ = true ∧ (cqOf s (cntlid * 256 + cqid)).full = false

/-- The table entries, page offsets and lengths of a request in a peer window (R335, R339). -/
def peerPieces (s : State) (w : Window) (offset len : Nat) : List (Nat × Nat × Nat) :=
  (pagePieces (len / 4096 + 2) (offset - w.start) len).map fun p => (s.hep.ppt.at (w.tableBase + p.1), p.2.1, p.2.2)

/-- The bytes of peer memory that a request in a peer window names. -/
def peerBytes (s : State) (w : Window) (offset len : Nat) : List Nat :=
  (peerPieces s w offset len).flatMap fun p => (List.range p.2.2).map fun i => 4096 * cellOf (pptHandle p.1) + p.2.1 + i

/-- Is a peer request permitted: the peer windows are enabled, the first enabled window that holds it permits its direction,
and every page it touches is valid, writable for a write, and of a chain neither stale nor lost (R334, R335, R339)? -/
abbrev PeerPermits (s : State) (w : Window) (offset len : Nat) (write : Bool) : Prop :=
  s.fld F.HEP_CFG_PEER_EN = 1 ∧
    ((List.range 32).map (windowAt s liveBase)).find? (fun w =>
      w.enabled && decide (w.start ≤ offset) && decide (offset + len ≤ w.start + w.size)) = some w ∧
    (if write then w.writeOk else w.readOk) = true ∧
    ∀ p ∈ peerPieces s w offset len, pptValid p.1 = true ∧ (write = true → pptWriteOk p.1 = true) ∧
      stale s (pptHandle p.1) = false ∧ chainLost s (pptHandle p.1) = false

/-- The completion of a command of a queue is sent, with its status and dword 0 (R45): at once, but for a PCIe queue only
where its completion queue takes it. -/
abbrev Answered (s t : State) (cntlid sqid cid : Nat) (st : Status) (dw0 : Nat) : Prop :=
  ((queueOf s cntlid sqid).pcie = true → HostRoom s cntlid (queueOf s cntlid sqid).cq) →
    .completion cntlid sqid cid st dw0 ∈ t.out

/-- The class a capsule is admitted to: its queue's, or class 1 in place of class 0 where CMD_CFG.C0_EN is 0 (R52). -/
def classIn (s : State) (c : Capsule) : Nat :=
  if (queueOf s c.cntlid c.sqid).cls = 0 ∧ s.fld F.CMD_CFG_C0_EN = 0 then 1 else (queueOf s c.cntlid c.sqid).cls

/-- A capsule as it waits for its grant (R51): with the port, class and GTS of its arrival; one that comes outside PS0 is tested
once PS0 is reached (R77). -/
def waits (s : State) (c : Capsule) : Capsule :=
  { c with
    port := (queueOf s c.cntlid c.sqid).port, cls := classIn s c, gtsIn := s.now
    noBound := s.cmd.ps != 0 || s.cmd.exiting, late := false
    untested := s.cmd.exiting || decide (1 ≤ s.cmd.ps ∧ s.cmd.ps ≤ 3)
    hold := decide (2 ≤ s.cmd.act.step ∧ s.cmd.act.step ≤ 5) }

/-- May a capsule arrive: its queue exists, the unit is not in PS4 and its controller is READY (R69, R76)? -/
abbrev MayArrive (s : State) (c : Capsule) : Prop :=
  (queueOf s c.cntlid c.sqid).exists_ = true ∧ s.cmd.ps ≠ 4 ∧ (ctrlOf s c.cntlid).state = 2

/-- Does CMD serve commands at once: the unit is in PS0 and no exit is under way (R76, R77)? -/
abbrev Awake (s : State) : Prop := s.cmd.ps = 0 ∧ s.cmd.exiting = false

/-- Is a capsule admitted: it passes the tests of its fields, and those of R53 in class 0? -/
abbrev Admits (s : State) (c : Capsule) : Prop :=
  MayArrive s c ∧ fieldTest s c = none ∧
    (classIn s c = 0 → c0Test s (queueOf s c.cntlid c.sqid).port (portMbps s (queueOf s c.cntlid c.sqid).port) c.xlen = none)

/-- Is a Leash frame taken: its link is up, its header and CRC are good, and it comes in LSEQ order (R345, R346)? -/
abbrev FrameTaken (s : State) (h : LeashHdr) : Prop :=
  leashUp s h.link.val = true ∧ h.crcOk = true ∧ h.lseq = (s.red.links.at h.link.val).rx + 1

/-- A frame leaves on a Leash link that is up, with the link's next LSEQ (R346); `d` is what else has been sent on it since
`s`. -/
abbrev LeashSent (s t : State) (link d epoch : Nat) (f : LeashFrame) : Prop :=
  .leash link ((s.red.links.at link).tx + 1 + d) (s.red.links.at link).rx false ((linkPeer s link).getD 3) epoch f
    (f.wire ((s.red.links.at link).tx + 1 + d) (s.red.links.at link).rx (role s) ((linkPeer s link).getD 3) epoch false) ∈ t.out

/-- Is a management request served: its session is open on the port, its tag is good, its SEQ is above every earlier one, its
principal has the rights, recovery serves its opcode, and a protected order comes from the holder of the Bone (R385, R386,
R393, R465)? -/
abbrev Serves (s : State) (r : Req) (rights : List Nat) (bone recovery : Bool) : Prop :=
  sessionOpen s r.session = true ∧ (s.ctl.sessions.at r.session).port = r.port.val ∧ r.tagOk = true ∧
    (s.ctl.sessions.at r.session).highSeq < r.seq ∧ rightsOk s r.session rights = true ∧
    (s.boot.recovery = 0 ∨ recovery = true) ∧ (bone = true → holdsBone s (pathOf r.port.val) r.session = true)

/-- Is an output the response of a request, whatever its bytes? -/
def Output.isReply (r : Req) (op status : Nat) (p : Reply) : Output → Bool
  | .mgmt port session seq o st q _ =>
    decide (port = r.port.val ∧ session = r.session ∧ seq = r.seq ∧ o = op ∧ st = status ∧ q = p)
  | _ => false

/-- The response of a request is sent (R385, R389). -/
abbrev Replied (t : State) (r : Req) (op status : Nat) (p : Reply) : Prop := t.out.any (Output.isReply r op status p) = true

/-- Is an output a packet on a connection, whatever frames carry it? -/
def Output.isPacket (qpn : Nat) (p : Packet) : Output → Bool
  | .packet q x _ => decide (q = qpn ∧ x = p)
  | _ => false

/-- A packet is sent on a connection (R83, R94, R95). -/
abbrev PacketSent (t : State) (qpn : Nat) (p : Packet) : Prop := t.out.any (Output.isPacket qpn p) = true

/-- Does a message posted on a connection leave at once: nothing posted before it waits, nothing is to be sent again after a
takeover, it is not paced, and the ports send (R98, R106, R234, R363)? -/
abbrev SendsNow (s : State) (qpn : Nat) : Prop :=
  (ctxOf s qpn).work = [] ∧ (ctxOf s qpn).workSent = 0 ∧ (ctxOf s qpn).resume = [] ∧ s.red.notices = [] ∧
    (s.fld F.XPT_CFG_CC_EN = 0 ∨ (ctxOf s qpn).class0 = true) ∧ s.cmd.ps ≠ 4

/-- Does a drive's port take a command at once: this unit works on the drives, no preempt of its drive runs, nothing waits before
it, and it is one NVMe command that finds its place in the rings and pages (R199, R203, R204, R212)? -/
abbrev DriveTakes (s : State) (slot : Nat) (o : Output) : Prop :=
  mayDrive s = true ∧ s.drv.preempting.contains slot = false ∧ (portOf s slot).urgentWait = [] ∧ (portOf s slot).normalWait = [] ∧
    (portOf s slot).pieces o.pages ≤ 1 ∧
    (if o.isUrgent then (portOf s slot).urgentFits o else (portOf s slot).normalFits (s.fld F.DRV_CFG_NORMAL_CAP) o) = true

/-- Is a write of no command to an LBA of a drive under way? -/
abbrev WriteUnderWay (t : State) (slot lba : Nat) : Prop := ((portOf t slot).back.any fun b => b.1 == lba) = true

/-- The objects of a job that the next window takes, as they are planned: those to do as the map has them now, after the
attestation of parts from the units read (R183, R186). -/
def planned (s : State) (job count : Nat) (units : List (Nat × Nat × UnitRead)) : List Planned :=
  let x := jobOf s job
  let s := onJob job (fun x => { x with todo := x.todo.flatMap (refreshObj s x.nsid) }) s
  let todo := (jobOf s job).todo
  let s := todo.foldl (attest x.nsid (passing s units)) s
  planObjs s x.nsid (s.fld F.FIX_MIG_CFG_WINDOW_MIB * 1048576) count todo (x.windows.flatMap (·.objs)) []

end Sys2Proof.Machine
end

