-- ==== Sys2Proof/Certificates/Slice0/Obligations.lean ====
section
/-! DEFINITION. The statements: what the commands do, rule by rule of the specification, and what holds of every command and
step. A clause names the state and the operands it holds for, and that the command then completes with what the rule gives. -/

open Sys2Proof Sys2Proof.Machine

/-- One step is the front command's effect on the state with the rest of the queue. That an empty queue idles is the model's choice (notes/assumptions/2.md). -/
def Obligations.StepTakesTheFrontCommand : Prop :=
  (∀ (c : Instr) (rest : List Instr) (s : State),
    step { s with pending := c :: rest } = exec c { s with pending := rest }) ∧
  (∀ s : State, step { s with pending := [] } = .next { s with pending := [] })

/-- State.reset: every register at its reset word (R14), CAUSE 1 (R453), journal sequence numbers from 1 (R137). That GTS free-runs from zero, that what the specification gives no reset value is zero (notes/assumptions/21.md) and that MRAM is empty (notes/assumptions/22.md) are the model's choices. -/
def Obligations.ResetLeavesTheseValues : Prop :=
  (∀ a : Nat, rawWord State.reset.regs a = resetWord a) ∧
  State.reset.now = 0 ∧ State.reset.ctl.gts.source = 4 ∧ State.reset.ctl.gts.locked = false ∧
  State.reset.boot.step = 1 ∧ State.reset.boot.cause = 1 ∧ State.reset.boot.inReset = .cold ∧
  State.reset.lay.jseqNext = 1 ∧ State.reset.ctl.clog = [] ∧ State.reset.cmd.queued = [] ∧
  State.reset.xpt.hbm = [] ∧ State.reset.out = [] ∧ State.reset.pending = [] ∧ Canonical State.reset

/-- Every command of the table has an effect in every state and on every operand; a command that cannot occur there leaves the state (notes/assumptions/7.md, the model's reading). -/
def Obligations.NoCommandStops : Prop :=
  ∀ (i : Instr) (s : State), ∃ t, exec i s = .next t

/-- The frame of every command. `mayChange` names, for each command, the parts of the state and the register blocks that it may change: every other part and every register word of the other blocks stands, what was sent stays sent, no free value is drawn twice, the rollback count does not fall, the memories keep their canonical form, and the queue of commands stands. -/
def Obligations.EveryCommandChangesOnlyItsParts : Prop :=
  ∀ (i : Instr) (s t : State), exec i s = .next t → Evolves (mayChange i) s t

/-- An invariant of every step: HBM, the memory behind the peer windows, the TCAM and the register file list their entries strictly rising and list none that reads as an unlisted one. The canonical form is the model's own (notes/assumptions/8.md). -/
def Obligations.StepsKeepTheCanonicalForm : Prop :=
  ∀ s t : State, Canonical s → step s = .next t → Canonical t

/-- R24: over every step whose command begins no reset, GTS does not go back, whatever correction, measurement or edge the command carries. -/
def Obligations.GlobalTimeNeverGoesBack : Prop :=
  ∀ s t : State, (∀ c ∈ s.pending.head?, isReset c = false) → step s = .next t → s.now ≤ t.now

/-- R35: no command but one that begins a reset lifts a fence, of any block and unit. -/
def Obligations.FencesStayUntilAReset : Prop :=
  ∀ s t : State, (∀ c ∈ s.pending.head?, isReset c = false) → step s = .next t →
    ∀ block unit : Nat, fencedUnit s block unit = true → fencedUnit t block unit = true

/-- R305, first sentence: the rollback counter can only rise, over every step of every command, resets included. -/
def Obligations.RollbackCountNeverFalls : Prop :=
  ∀ s t : State, step s = .next t → s.tru.fuseSvn ≤ t.tru.fuseSvn

/-- R402: the critical event log never holds more than 65,536 records, whatever the command. -/
def Obligations.CriticalLogStaysBounded : Prop :=
  ∀ s t : State, s.ctl.clog.length ≤ 65536 → step s = .next t → t.ctl.clog.length ≤ 65536

/-- R8: every register of the map lies on a 4-byte boundary and its fields inside 32 bits; an access through PF0 BAR0 that is not a single DW with all byte enables is completed with Unsupported Request status and changes nothing. -/
def Obligations.RegistersAreAlignedAndBar0IsStrict : Prop :=
  (∀ (addr : Nat) (r : RegRow × Nat), 
    findReg addr = some r →
    addr % 4 = 0 ∧ ∀ f ∈ r.1.fields, f.lo ≤ f.hi ∧ f.hi < 32) ∧
  (∀ (addr : Nat) (s : State), 
    Completes (.unsupportedRequestBar0 addr) s fun t =>
      t = s.send (.unsupportedRequest addr))

/-- R15: the 64-bit pairs, whose high word lies 4 above the low word, read through the path's snapshot. -/
def Obligations.PairReadsUseTheSnapshot : Prop :=
  (∀ (addr l : Nat), 
    mapped addr = true →
    pairOf addr = some l →
    addr = l ∨ addr = l + 4) ∧
  (∀ (path : Fin 5) (addr : Nat) (s : State), 
    readLive s path.val = true →
    (path.val = 4 → pf0Open s = true) →
    mapped addr = true →
    pairOf addr = some addr →
    Completes (.pairLowWordRead path addr) s fun t =>
      .regRead path.val addr (shownWord s addr) ∈ t.out ∧ (t.ctl.paths.at path.val).lastRead = some addr ∧
          (t.ctl.paths.at path.val).snapshot = shownWord s (addr + 4)) ∧
  (∀ (path : Fin 5) (addr l : Nat) (s : State), 
    readLive s path.val = true →
    (path.val = 4 → pf0Open s = true) →
    mapped addr = true →
    pairOf addr = some l →
    addr ≠ l →
    (s.ctl.paths.at path.val).lastRead = some l →
    Completes (.pairHighWordRead path addr) s fun t =>
      .regRead path.val addr (s.ctl.paths.at path.val).snapshot ∈ t.out) ∧
  (∀ (path : Fin 5) (addr l : Nat) (s : State), 
    readLive s path.val = true →
    (path.val = 4 → pf0Open s = true) →
    mapped addr = true →
    pairOf addr = some l →
    addr ≠ l →
    (s.ctl.paths.at path.val).lastRead ≠ some l →
    Completes (.pairHighWordRead path addr) s fun t =>
      .regRead path.val addr (shownWord s addr) ∈ t.out)

/-- R16, for the two writable 64-bit pairs of the map, CTL_PPS_SEC and TMG_GATE_BASE. -/
def Obligations.PairWritesAreStaged : Prop :=
  (∀ (path : Fin 5) (session addr : Nat) (value : Word) (s : State), 
    addr ∈ [0x60, 0x0400007C] →
    MayWrite path session addr s →
    Completes (.pairLowWordWrite path session addr value) s fun t =>
      (t.ctl.paths.at path.val).staged = some (addr, value) ∧ rawWord t.regs addr = rawWord s.regs addr ∧
          rawWord t.regs (addr + 4) = rawWord s.regs (addr + 4)) ∧
  (∀ (path : Fin 5) (session l : Nat) (low value : Word) (s : State), 
    l ∈ [0x60, 0x0400007C] →
    MayWrite path session (l + 4) s →
    s.locked = false →
    ∀ m ∈ s.ctl.marks, m.gts = s.now → m.addr = l + 4 → pathOrder m.path.val ≤ pathOrder path.val →
    (s.ctl.paths.at path.val).staged = some (l, low) →
    Completes (.pairHighWordWrite path session (l + 4) value) s fun t =>
      rawWord t.regs l = low ∧ rawWord t.regs (l + 4) = value ∧ (t.ctl.paths.at path.val).staged = none) ∧
  (∀ (path : Fin 5) (session l : Nat) (value : Word) (s : State), 
    l ∈ [0x60, 0x0400007C] →
    MayWrite path session (l + 4) s →
    s.locked = false →
    ∀ m ∈ s.ctl.marks, m.gts = s.now → m.addr = l + 4 → pathOrder m.path.val ≤ pathOrder path.val →
    (∀ w, (s.ctl.paths.at path.val).staged ≠ some (l, w)) →
    Completes (.pairHighWordWrite path session (l + 4) value) s fun t =>
      rawWord t.regs l = rawWord s.regs l ∧ rawWord t.regs (l + 4) = value ∧
          (t.ctl.paths.at path.val).staged = (s.ctl.paths.at path.val).staged)

/-- R31: whatever its age, a record of severity 4 that reaches the event router is written to the critical event log in the same step, before any release. -/
def Obligations.CriticalRecordsAreLogged : Prop :=
  (∀ (s : State) (r : EventRec) (rest : List EventRec), 
    s.ctl.inflight = r :: rest →
    r.severity = 4 →
    Completes (.eventRecord) s fun t =>
      r ∈ t.ctl.clog ∧ (s.now ≤ r.gts + 1000 → r ∈ t.ctl.held)) ∧
  (∀ (warm : Bool) (cause : Nat) (s : State), 
    (resetState warm cause s).ctl.clog = s.ctl.clog)

/-- R66: an Abort that is served beside eight others in progress on its controller completes with status code type 0x1 and status code 0x03, and aborts nothing. CMD serves a command in PS0; one that comes in PS1 to PS3 or during an exit waits for PS0 (R77). -/
def Obligations.NinthAbortIsRefused : Prop :=
  (∀ (a : Admin) (sqid target others : Nat) (s : State), 
    (ctrlOf s a.cntlid).ready = true →
    8 ≤ others →
    Awake s →
    Completes (.abort a sqid target others) s fun t =>
      t.cmd.queued = s.cmd.queued ∧ t.cmd.table = s.cmd.table ∧ Answered s t a.cntlid 0 a.cid ⟨0x1, 0x03, false⟩ 0) ∧
  (∀ (a : Admin) (sqid target others : Nat) (s : State), 
    1 ≤ s.cmd.ps ∧ s.cmd.ps ≤ 3 ∨ s.cmd.ps = 0 ∧ s.cmd.exiting = true →
    Completes (.abort a sqid target others) s fun t =>
      t.waiting = s.waiting ++ [.abort a sqid target others] ∧ t.cmd.exiting = true ∧ t.out = s.out)

/-- R115: an invalidation that is accepted makes XPT_INV_STATUS.BUSY 1; a write of XPT_INV_CTRL while BUSY is 1 changes nothing of the regions, connections and chains and sets XPT_INV_STATUS.REFUSED. -/
def Obligations.InvalidationsAreTakenOneAtATime : Prop :=
  (∀ (path : Fin 5) (session : Nat) (value : Word) (s : State), 
    MayWrite path session 0x0500006C s →
    s.xpt.invCtrl = none →
    regionIndex value.toNat < 65536 →
    (s.xpt.regions.at (regionIndex value.toNat)).state = 1 →
    (s.xpt.regions.at (regionIndex value.toNat)).key = value.toNat % 256 →
    (s.xpt.regions.at (regionIndex value.toNat)).users ≠ [] →
    Completes (.xptInvCtrl path session value) s fun t =>
      bitAt (shownWord t 0x05000070).toNat 31 = true) ∧
  (∀ (path : Fin 5) (session : Nat) (value : Word) (s : State), 
    MayWrite path session 0x0500006C s →
    bitAt (shownWord s 0x05000070).toNat 31 = true →
    Completes (.xptInvCtrl path session value) s fun t =>
      t.fld F.XPT_INV_STATUS_REFUSED = 1 ∧ t.xpt = s.xpt ∧
          (∀ a, 0x1000000 ≤ a → a ≠ 0x05000070 → rawWord t.regs a = rawWord s.regs a) ∧
          t.fld F.XPT_INV_STATUS_FORCED = s.fld F.XPT_INV_STATUS_FORCED)

/-- R232: the transmit time stamps of two-step operation, with their sequenceId, messageType and domainNumber, and how firmware takes them. `ptpEvent` finds the PTP event message in the bytes of a frame, `oneStep` says when R231 stamps it as it leaves. -/
def Obligations.TransmitStampsAreQueued : Prop :=
  (∀ (lport : Fin 64) (f : Bytes) (p m : Nat) (s : State), 
    ptpEvent f = some (p, m) →
    oneStep s f m = false →
    (s.net.stamps.at lport.val).length < 16 →
    Completes (.frameTransmitted lport (some f)) s fun t =>
      t.net.stamps.at lport.val = s.net.stamps.at lport.val ++ [⟨s.now, half f (p + 30), m, byteAt f (p + 4)⟩]) ∧
  (∀ (lport : Fin 64) (f : Bytes) (p m : Nat) (s : State), 
    ptpEvent f = some (p, m) →
    oneStep s f m = false →
    16 ≤ (s.net.stamps.at lport.val).length →
    Completes (.frameTransmitted lport (some f)) s fun t =>
      t.net.stamps.at lport.val = s.net.stamps.at lport.val ∧ Emitted s t (0x100 + lport.val) 2 0x104 (half f (p + 30) % 65536)) ∧
  (∀ (path : Fin 5) (session : Nat) (value : Word) (st : TxStamp) (rest : List TxStamp) (s : State), 
    MayWrite path session 0x01000048 s →
    s.net.stamps.at (bitsOf value.toNat 5 0) = st :: rest →
    Completes (.prtTsCtrl path session value) s fun t =>
      t.net.stamps.at (bitsOf value.toNat 5 0) = rest ∧ t.fld F.PRT_TS_CTRL_EMPTY = 0 ∧
      rawWord t.regs 0x01000050 = BitVec.ofNat 32 st.gts ∧ rawWord t.regs 0x01000054 = BitVec.ofNat 32 (st.gts / 2 ^ 32) ∧
      rawWord t.regs 0x01000058 =
        BitVec.ofNat 32 (st.seqId % 65536 * 65536 + st.msgType % 16 * 4096 + st.domain % 256))

/-- R418. `requestStart` is the one operation by which the on order and the seating of a drive request a start. -/
def Obligations.PendingStartsWaitForDischarge : Prop :=
  (∀ (leg cause : Nat) (s : State), 
    legState s leg = 0 →
    discharged s leg = false →
    s.fldI F.PWR_LEG_STAT_PENDING leg = 0 →
    (requestStart leg cause s).fldI F.PWR_LEG_STAT_PENDING leg = 1 ∧
          Emitted s (requestStart leg cause s) (0x300 + leg) 0 0xC06 0) ∧
  (∀ (leg cause : Nat) (s : State), 
    legState s leg = 0 →
    discharged s leg = false →
    s.fldI F.PWR_LEG_STAT_PENDING leg = 1 →
    requestStart leg cause s = s) ∧
  (∀ (leg : Fin 48) (s : State), 
    legState s leg.val = 0 →
    s.fldI F.PWR_LEG_STAT_PENDING leg.val = 1 →
    feedOn s (legFeed s leg.val) = true →
    Completes (.legDischarged leg) s fun t =>
      legState t leg.val = 1 ∧ (legOf t leg.val).gateOn = true ∧ t.fldI F.PWR_LEG_STAT_PENDING leg.val = 0) ∧
  (∀ (slot : Fin 48) (low0 low1 line : Bool) (s : State), 
    (s.drv.slots.at slot.val).seated = true →
    (low0 && low1) = false →
    Completes (.presenceRemoval slot low0 low1 line) s fun t =>
      t.fldI F.PWR_LEG_STAT_PENDING slot.val = 0) ∧
  (∀ (path : Fin 5) (session : Nat) (value : Word) (s : State), 
    MayWrite path session 0x0C000044 s →
    bitsOf value.toNat 31 24 = 0x3C ∧ bitsOf value.toNat 23 20 = 2 ∧ bitsOf value.toNat 5 0 < 48 →
    legState s (bitsOf value.toNat 5 0) ≠ 4 →
    Completes (.pwrLegOffOrder path session value) s fun t =>
      t.fldI F.PWR_LEG_STAT_PENDING (bitsOf value.toNat 5 0) = 0)

/-- Register accesses on a path that carries them: what a plain write stores and leaves, what a read returns and clears, what an access of an unmapped offset does. -/
def Obligations.RegisterAccessCompletes : Prop :=
  (∀ (path : Fin 5) (session addr : Nat) (value : Word) (s : State) (r : RegRow × Nat), 
    findReg addr = some r →
    mapped addr = true →
    0x20 ≤ addr % 0x1000000 →
    addr ∉ [0x60, 0x64, 0x0400007C, 0x04000080] →
    addr ∉ [0x03000054, 0x04000044, 0x04000060, 0x04000074, 0x0D00005C] →
    ∀ m ∈ s.ctl.marks, m.gts = s.now → m.addr ≠ addr →
    writeOwnArray path session addr value s = none →
    writeOwnLow path session addr value s = none →
    writeOwnMid path session addr value s = none →
    writeOwnHigh path session addr value s = none →
    MayWrite path session addr s →
    s.locked = false →
    Completes (.registerWrite path session addr value) s fun t =>
      rawWord t.regs addr = BitVec.ofNat 32 (crossTreat addr (wordWrite false r.1.fields value.toNat (rawWord s.regs addr).toNat))) ∧
  (∀ (path : Fin 5) (session addr : Nat) (value : Word) (s : State) (r : RegRow × Nat), 
    findReg addr = some r →
    mapped addr = true →
    0x20 ≤ addr % 0x1000000 →
    addr ∉ [0x60, 0x64, 0x0400007C, 0x04000080] →
    ∀ m ∈ s.ctl.marks, m.gts = s.now → m.addr ≠ addr →
    writeOwnArray path session addr value s = none →
    writeOwnLow path session addr value s = none →
    writeOwnMid path session addr value s = none →
    writeOwnHigh path session addr value s = none →
    addr ∉ [0x0300004C, 0x08000040, 0x04000088, 0x09000040, 0x01000044] →
    ¬(0x02000200 ≤ addr ∧ addr < 0x02000220) ∧ ¬(0x06000200 ≤ addr ∧ addr < 0x06000300) →
    fanReg addr = false →
    ¬(0x01000200 ≤ addr ∧ addr < 0x01000300) ∧ ¬(0x03000200 ≤ addr ∧ addr < 0x03000300) →
    MayWrite path session addr s →
    s.locked = false →
    Completes (.registerWrite path session addr value) s fun t =>
      Evolves [.events, .sessions, .marks, .counters, .sampling, .regs, .regCtl, regPart addr, .out] s t ∧
          ∀ a, a ≠ addr → (0x1000000 ≤ a ∨ a < 0x70) → rawWord t.regs a = rawWord s.regs a) ∧
  (∀ (path : Fin 5) (session addr : Nat) (value : Word) (s : State) (r : RegRow × Nat), 
    findReg addr = some r →
    mapped addr = true →
    0x20 ≤ addr % 0x1000000 →
    addr ∉ [0x60, 0x64, 0x0400007C, 0x04000080] →
    ∀ m ∈ s.ctl.marks, m.gts = s.now → m.addr ≠ addr →
    writeOwnArray path session addr value s = none →
    writeOwnLow path session addr value s = none →
    writeOwnMid path session addr value s = none →
    writeOwnHigh path session addr value s = none →
    MayWrite path session addr s →
    s.locked = false →
    Completes (.registerWrite path session addr value) s fun t =>
      Evolves [.events, .time, .sessions, .marks, .counters, .sampling, .commands, .batches, .drivePorts, .punts, .traffic, .regs, .regCtl,
            regPart addr, .regSwc, .out] s t ∧
          ∀ a, a ≠ addr → (0x1000000 ≤ a ∨ a < 0x70) → ¬(0x0C0007C0 ≤ a ∧ a < 0x0C0007F0) → ¬(0x03000300 ≤ a ∧ a < 0x03000400) →
            rawWord t.regs a = rawWord s.regs a) ∧
  (∀ (path : Fin 5) (session addr : Nat) (value : Word) (s : State), 
    addr ∈ [0x03000054, 0x04000044, 0x04000060, 0x04000074, 0x0D00005C] →
    writeOwnLow path session addr value s = none →
    writeOwnHigh path session addr value s = none →
    MayWrite path session addr s →
    s.locked = false →
    Completes (.registerWrite path session addr value) s fun t =>
      bitAt (rawWord t.regs addr).toNat 31 = false ∧ t.net = s.net ∧ t.hep = s.hep) ∧
  (∀ (path : Fin 5) (addr : Nat) (s : State) (r : RegRow × Nat), 
    readLive s path.val = true →
    (path.val = 4 → pf0Open s = true) →
    mapped addr = true →
    findReg addr = some r →
    pairOf addr = none →
    elem 0x280 8 16 addr = none →
    elem 0x28C 8 16 addr = none →
    addr % 0x1000000 ≠ 0x14 →
    addr ∉ [0x03000048, 0x0F000100, 0x0F00013C] →
    Completes (.rcFieldRead path addr) s fun t =>
      .regRead path.val addr (shownWord s addr) ∈ t.out ∧
          rawWord t.regs addr = BitVec.ofNat 32 (wordAfterRead r.1.fields (rawWord s.regs addr).toNat)) ∧
  (∀ (path : Fin 5) (addr : Nat) (s : State), 
    mapped addr = false →
    readLive s path.val = true →
    (path.val = 4 → pf0Open s = true) →
    Completes (.addrUnmapped path addr false) s fun t =>
      .regRead path.val addr 0 ∈ t.out ∧
          Emitted s t (blockSrc (addr / 0x1000000 % 16)) 1 0x005 (path.val * 2 ^ 32 + addr % 2 ^ 24)) ∧
  (∀ (path : Fin 5) (addr : Nat) (s : State), 
    mapped addr = false →
    path.val % 2 = 0 →
    readLive s path.val = true →
    Completes (.addrUnmapped path addr true) s fun t =>
      t.regs = s.regs ∧
          (t.ctl.blocks.at (addr / 0x1000000 % 16)).unmapped =
          min (2 ^ 32 - 1) ((s.ctl.blocks.at (addr / 0x1000000 % 16)).unmapped + 1) ∧
          Emitted s t (blockSrc (addr / 0x1000000 % 16)) 1 0x005 (path.val * 2 ^ 32 + addr % 2 ^ 24)) ∧
  (∀ (addr : Nat) (s : State), 
    Completes (.unsupportedRequestBar0 addr) s fun t =>
      t = s.send (.unsupportedRequest addr)) ∧
  (∀ (path : Fin 5) (session addr : Nat) (value : Word) (m : WriteMark) (s : State) (r : RegRow × Nat), 
    findReg addr = some r →
    mapped addr = true →
    0x1000000 ≤ addr ∧ 0x20 ≤ addr % 0x1000000 →
    addr ∉ [0x0400007C, 0x04000080] →
    addr ∉ [0x03000054, 0x04000044, 0x04000060, 0x04000074, 0x0D00005C] →
    protectedAddr addr = false →
    s.ctl.marks = [m] →
    m.gts = s.now ∧ m.addr = addr ∧ m.path ≠ path ∧ m.value ≠ value →
    writeOwnArray path session addr value s = none →
    writeOwnLow path session addr value s = none →
    writeOwnMid path session addr value s = none →
    writeOwnHigh path session addr value s = none →
    MayWrite path session addr s →
    s.locked = false →
    Completes (.registerWrite path session addr value) s fun t =>
      t.fldI F.CTL_PATH_STAT_CONFLICT path.val = 1 ∧ t.fldI F.CTL_PATH_STAT_CONFLICT m.path.val = 1 ∧
          (let w := BitVec.ofNat 32 (crossTreat addr (wordWrite false r.1.fields value.toNat (rawWord s.regs addr).toNat));
          rawWord t.regs addr = if pathOrder path.val < pathOrder m.path.val then
            BitVec.ofNat 32 (crossTreat addr (wordWrite false r.1.fields m.value.toNat w.toNat)) else w))

/-- Time: measurements, the loss of a source, PPS edges. Records: on their way to the router, held there, and released. -/
def Obligations.TimeAndRecordsComplete : Prop :=
  (∀ (offset : Int) (s : State), 
    s.ctl.gts.source ≠ 4 →
    s.ctl.gts.locked = true →
    1000 < offset.natAbs →
    Completes (.gtsMeasurement offset) s fun t =>
      t.ctl.gts.locked = false ∧ Emitted s t 0x001 2 0x002 s.ctl.gts.source) ∧
  (∀ (offset : Int) (s : State), 
    s.ctl.gts.source ≠ 4 →
    offset < 0 →
    ¬(s.ctl.gts.locked = true ∧ 1000 < offset.natAbs) →
    Completes (.gtsMeasurement offset) s fun t =>
      t.now = s.now ∧ -500 ≤ t.ctl.gts.ppm ∧ t.ctl.gts.ppm ≤ 0) ∧
  (∀ (offset : Int) (s : State), 
    0 ≤ offset →
    Completes (.gtsMeasurement offset) s fun t =>
      t.now = s.now ∨ t.now = s.now + offset.toNat) ∧
  (∀ (offset : Int) (s : State), 
    s.ctl.gts.source ≠ 4 →
    offset.natAbs < 100 →
    s.ctl.gts.locked = false →
    s.ctl.gts.good = 15 →
    Completes (.gtsMeasurement offset) s fun t =>
      t.ctl.gts.locked = true ∧ Emitted t t 0x001 1 0x001 s.ctl.gts.source) ∧
  (∀ (s : State), 
    s.ctl.gts.source ≠ 4 →
    Completes (.gtsMeasurementTimeout) s fun t =>
      t.ctl.gts.locked = false ∧
          t.ctl.gts.source = chooseSource { s.ctl.gts with present := s.ctl.gts.present.filter (· != s.ctl.gts.source) } ∧
          (s.ctl.gts.locked = true → Emitted s t 0x001 2 0x002 s.ctl.gts.source)) ∧
  (∀ (s : State), 
    s.ctl.gts.present.contains 2 = false →
    chooseSource { s.ctl.gts with present := 2 :: s.ctl.gts.present } ≠ 2 →
    Completes (.ppsInEdge) s fun t =>
      t.ctl.gts.present = 2 :: s.ctl.gts.present ∧ t.now = s.now) ∧
  (∀ (s : State), 
    s.ctl.gts.source = 2 →
    chooseSource s.ctl.gts = 2 →
    s.ctl.gts.present.contains 2 = true →
    s.ctl.gts.locked = false →
    s.now < ppsSecond s →
    Completes (.ppsInEdge) s fun t =>
      t.now = ppsSecond s ∧ t.ctl.gts.secondsSet = false) ∧
  (∀ (s : State), 
    atSecond s = true →
    Completes (.ppsOutEdge) s fun t =>
      t = s.send .ppsOut) ∧
  (∀ (s : State) (r : EventRec) (rest : List EventRec), 
    s.ctl.inflight = r :: rest →
    s.now ≤ r.gts + 1000 →
    Completes (.eventRecord) s fun t =>
      t.ctl.held = s.ctl.held ++ [r] ∧ t.ctl.inflight = rest ∧ (r.severity = 4 → r ∈ t.ctl.clog)) ∧
  (∀ (s : State) (r : EventRec) (rest : List EventRec), 
    s.ctl.inflight = r :: rest →
    r.gts + 1000 < s.now →
    4 ≤ s.boot.step →
    Completes (.eventRecord) s fun t =>
      Emitted s t 0x002 3 0x017 (min (s.now - r.gts - 1000) (2 ^ 36 - 1))) ∧
  (∀ (s : State) (r : EventRec), 
    firstHeld s.ctl.held = some r →
    4 ≤ s.boot.step →
    s.ctl.ringMap = none →
    s.fldI F.CTL_RING_CFG_MIN_SEV 0 ≤ r.severity →
    (s.ctl.rings.at 0).lost = 0 →
    (s.ctl.rings.at 0).recs.length < (s.ctl.rings.at 0).capacity →
    Completes (.recordRelease) s fun t =>
      t.ctl.held = s.ctl.held.erase r ∧
          (t.ctl.rings.at 0).recs = (s.ctl.rings.at 0).recs ++ [((s.ctl.rings.at 0).total + 1, r)])

/-- Units that fail and units that an order names (R35, R36, R43). The cause told for a slot leg is that of its latch, not the reason. -/
def Obligations.FenceCommandsComplete : Prop :=
  (∀ (block : Fin 16) (unit reason : Nat) (request : Option (Req × Nat)) (s : State), 
    unit < unitsOf block.val →
    fencedUnit s block.val unit = false →
    (block.val = 12 → legState s unit ≠ 4) →
    Completes (.unitFenced block unit reason request) s fun t =>
      fencedUnit t block.val unit = true ∧
          ∃ cause, (block.val ≠ 12 → cause = reason) ∧
          Emitted s t (blockSrc block.val) 3 0x004 (block.val * 2 ^ 32 + unit * 2 ^ 24 + cause * 2 ^ 16 + unitsLeft t block.val)) ∧
  (∀ (core onto : Fin 16) (request : Option (Req × Nat)) (s : State), 
    fencedUnit s 0 core.val = false →
    Completes (.controlCoreWatchdog core onto request) s fun t =>
      fencedUnit t 0 core.val = true ∧
          Emitted s t 0x500 3 0x004 (core.val * 2 ^ 24 + 4 * 2 ^ 16 + unitsLeft t 0)) ∧
  (∀ (core onto : Fin 16) (r : Req) (op : Nat) (s : State), 
    fencedUnit s 0 core.val = false →
    sessionOpen s r.session = true →
    (s.ctl.sessions.at r.session).port = r.port.val →
    r.tagOk = true →
    (s.ctl.sessions.at r.session).highSeq < r.seq →
    Completes (.controlCoreWatchdog core onto (some (r, op))) s fun t =>
      Replied t r op 0x0C .none) ∧
  (∀ (core : Fin 16) (reason : Nat) (r : Req) (op : Nat) (s : State), 
    fencedUnit s 0 core.val = false →
    sessionOpen s r.session = true →
    (s.ctl.sessions.at r.session).port = r.port.val →
    r.tagOk = true →
    (s.ctl.sessions.at r.session).highSeq < r.seq →
    Completes (.unitFenced 0 core.val reason (some (r, op))) s fun t =>
      fencedUnit t 0 core.val = true ∧ Replied t r op 0x0C .none) ∧
  (∀ (path : Fin 5) (session : Nat) (block : Fin 16) (unit : Nat) (s : State), 
    MayWrite path session (block.val * 0x1000000 + 0x18) s →
    unit < 256 →
    unit < unitsOf block.val →
    fencedUnit s block.val unit = false →
    floorOf block.val < unitsLeft s block.val →
    (block.val = 12 → legState s unit ≠ 4) →
    Completes (.prefixFenceOrder path session block unit) s fun t =>
      fencedUnit t block.val unit = true ∧
          Emitted s t (blockSrc block.val) 3 0x004 (block.val * 2 ^ 32 + unit * 2 ^ 24 + 8 * 2 ^ 16 + unitsLeft t block.val)) ∧
  (∀ (path : Fin 5) (session : Nat) (block : Fin 16) (unit : Nat) (s : State), 
    MayWrite path session (block.val * 0x1000000 + 0x18) s →
    unit < 256 →
    unit < unitsOf block.val →
    fencedUnit s block.val unit = false →
    unitsLeft s block.val ≤ floorOf block.val →
    Completes (.prefixFenceOrder path session block unit) s fun t =>
      fencedUnit t block.val unit = false ∧
          Emitted s t (blockSrc block.val) 2 0x006 (block.val * 2 ^ 32 + unitsLeft s block.val))

/-- The Bone through CTL_BONE_REQ and its expiry, the image lock, and the rings that PF0 reads (R394, R399, R404). -/
def Obligations.BoneRingAndLockCommandsComplete : Prop :=
  (∀ (session : Nat) (value : Word) (s : State), 
    MayWrite 4 session 0x50 s →
    s.fld F.CTL_CFG_PF0_BONE = 1 →
    s.ctl.bone.held = false →
    Completes (.boneReqAcquire 4 session value) s fun t =>
      t.ctl.bone = ⟨true, 4, 0, s.now + s.fld F.CTL_CFG_LEASE_S * 1000000000, s.fld F.CTL_CFG_LEASE_S * 1000000000⟩ ∧
      Emitted s t 0x004 1 0x008 (4 * 2 ^ 16)) ∧
  (∀ (session : Nat) (value : Word) (s : State), 
    MayWrite 4 session 0x50 s →
    holdsBone s 4 0 = true →
    Completes (.boneReqRelease 4 session value) s fun t =>
      t.ctl.bone.held = false ∧ Emitted s t 0x004 1 0x009 s.ctl.bone.data) ∧
  (∀ (session : Nat) (value : Word) (s : State), 
    MayWrite 4 session 0x50 s →
    holdsBone s 4 0 = true →
    Completes (.boneReqRenew 4 session value) s fun t =>
      t.ctl.bone = { s.ctl.bone with leaseEnd := s.now + s.ctl.bone.leaseLen }) ∧
  (∀ (s : State), 
    s.ctl.bone.held = true →
    Completes (.boneExpired) s fun t =>
      t.ctl.bone.held = false ∧ Emitted s t 0x004 2 0x00A s.ctl.bone.data ∧ t.regs = s.regs) ∧
  (∀ (path : Fin 5) (session : Nat) (value : Word) (s : State), 
    MayWrite path session 0x44 s →
    value.toNat % 2 = 1 →
    s.locked = false →
    Completes (.ctlLockSet path session value) s fun t =>
      t.locked = true) ∧
  (∀ (session : Nat) (ring : Fin 8) (value : Word) (s : State), 
    MayWrite 4 session (0x200 + 4 * ring.val) s →
    (s.ctl.rings.at ring.val).reader = 0 →
    bitsOf value.toNat 31 30 = 1 →
    Completes (.ringReaderBind 4 session ring value) s fun t =>
      (t.ctl.rings.at ring.val).reader = 1 ∧ (t.ctl.rings.at ring.val).recs = (s.ctl.rings.at ring.val).recs) ∧
  (∀ (session : Nat) (ring : Fin 8) (value : Word) (s : State), 
    MayWrite 4 session (0x200 + 4 * ring.val) s →
    (s.ctl.rings.at ring.val).reader = 1 →
    bitsOf value.toNat 31 30 = 0 →
    Completes (.ringReaderBind 4 session ring value) s fun t =>
      (t.ctl.rings.at ring.val).reader = 0 ∧ (t.ctl.rings.at ring.val).recs = (s.ctl.rings.at ring.val).recs) ∧
  (∀ (ring : Fin 8) (r : Nat × EventRec) (rest : List (Nat × EventRec)) (s : State), 
    pf0Open s = true →
    (s.ctl.rings.at ring.val).reader = 1 →
    (s.ctl.rings.at ring.val).recs = r :: rest →
    Completes (.ringReadSnapshot 4 ring) s fun t =>
      (t.ctl.rings.at ring.val).snap = some r.2 ∧
      .regRead 4 (0x280 + 16 * ring.val) (BitVec.ofNat 32 (ofLe (slice r.2.bytes 0 4))) ∈ t.out) ∧
  (∀ (ring : Fin 8) (r : EventRec) (s : State), 
    pf0Open s = true →
    (s.ctl.rings.at ring.val).reader = 1 →
    (s.ctl.rings.at ring.val).snap = some r →
    (s.ctl.rings.at ring.val).lost = 0 →
    Completes (.ringReadRemove 4 ring) s fun t =>
      (t.ctl.rings.at ring.val).recs = (s.ctl.rings.at ring.val).recs.drop 1 ∧ (t.ctl.rings.at ring.val).snap = none ∧
      .regRead 4 (0x28C + 16 * ring.val) (BitVec.ofNat 32 (ofLe (slice r.bytes 12 4))) ∈ t.out)

/-- Snapshots, samplers and the core clock edge (R434, R440 to R446). -/
def Obligations.TelemetryCommandsComplete : Prop :=
  (∀ (path : Fin 5) (session : Nat) (value : Word) (s : State), 
    MayWrite path session 0x0F000044 s →
    bitAt value.toNat 0 = true →
    s.fld F.TEL_SNAP_STAT_BUSY = 0 →
    s.now < 2 ^ 64 →
    Completes (.telSnapStart path session value) s fun t =>
      t.fld F.TEL_SNAP_STAT_BUSY = 1 ∧ t.fld F.TEL_SNAP_STAT_DONE = 0 ∧ t.fld F.TEL_SNAP_GTS_LO_GTS = s.now % 2 ^ 32 ∧
      t.fld F.TEL_SNAP_GTS_HI_GTS = s.now / 2 ^ 32) ∧
  (∀ (path : Fin 5) (session : Nat) (value : Word) (s : State), 
    MayWrite path session 0x0F000044 s →
    bitAt value.toNat 0 = true →
    s.fld F.TEL_SNAP_STAT_BUSY = 1 →
    snapGts s ≠ s.now →
    Completes (.telSnapStart path session value) s fun t =>
      t.fld F.TEL_SNAP_STAT_REFUSED = 1 ∧ t.tel.snap = s.tel.snap) ∧
  (∀ (path : Fin 5) (session : Nat) (value : Word) (s : State), 
    MayWrite path session 0x0F000044 s →
    bitAt value.toNat 0 = true →
    s.fld F.TEL_SNAP_STAT_BUSY = 1 →
    snapGts s = s.now →
    Completes (.telSnapStart path session value) s fun t =>
      t.fld F.TEL_SNAP_STAT_REFUSED = s.fld F.TEL_SNAP_STAT_REFUSED ∧ t.tel.snap = s.tel.snap) ∧
  (∀ (s : State), 
    s.fld F.TEL_SNAP_STAT_BUSY = 1 →
    Completes (.snapDone) s fun t =>
      t.fld F.TEL_SNAP_STAT_BUSY = 0 ∧ t.fld F.TEL_SNAP_STAT_DONE = 1 ∧
      Emitted s t 0x5F0 0 0xF31 (s.fld F.TEL_SNAP_GTS_HI_GTS * 2 ^ 32 + s.fld F.TEL_SNAP_GTS_LO_GTS)) ∧
  (∀ (sampler : Fin 16) (s : State), 
    (s.tel.samplers.at sampler.val).down ≤ 0 →
    s.fldI F.TEL_SAMPLER_EN sampler.val = 1 →
    (s.tel.samplers.at sampler.val).armed = false →
    Completes (.samplerOverflow sampler) s fun t =>
      (t.tel.samplers.at sampler.val).armed = true ∧
      (t.tel.samplers.at sampler.val).down = (s.tel.samplers.at sampler.val).down + s.fldI F.TEL_SAMPLER_PERIOD_PERIOD sampler.val) ∧
  (∀ (sampler : Fin 16) (s : State), 
    (s.tel.samplers.at sampler.val).down ≤ 0 →
    s.fldI F.TEL_SAMPLER_EN sampler.val = 1 →
    (s.tel.samplers.at sampler.val).armed = true →
    Completes (.samplerOverflow sampler) s fun t =>
      (t.tel.samplers.at sampler.val).merged = (s.tel.samplers.at sampler.val).merged + 1 ∧
      (t.tel.samplers.at sampler.val).down = (s.tel.samplers.at sampler.val).down + s.fldI F.TEL_SAMPLER_PERIOD_PERIOD sampler.val) ∧
  (∀ (sampler : Fin 16) (s : State), 
    (s.tel.samplers.at sampler.val).armed = true →
    s.tel.samples.length < 16384 →
    Completes (.sampleCaptureTimeout sampler) s fun t =>
      (t.tel.samplers.at sampler.val).armed = false ∧
      t.tel.samples.map (fun x => (x.gts, x.value, x.sampler, x.cmdValid)) =
        s.tel.samples.map (fun x => (x.gts, x.value, x.sampler, x.cmdValid)) ++
          [(s.now, (s.tel.samplers.at sampler.val).value, sampler.val, false)]) ∧
  (∀ (path : Fin 5) (s : State), 
    readLive s path.val = true →
    path.val = 4 → pf0Open s = true →
    Completes (.sampleReadSnapshot path) s fun t =>
      t.tel.sampleSnap = s.tel.samples.head? ∧ t.tel.samples = s.tel.samples) ∧
  (∀ (path : Fin 5) (s : State), 
    readLive s path.val = true →
    path.val = 4 → pf0Open s = true →
    Completes (.sampleReadRemove path) s fun t =>
      t.tel.samples = s.tel.samples.drop 1 ∧ .regRead path.val 0x0F00013C (sampleWord s 15) ∈ t.out) ∧
  (∀ (path : Fin 5) (session : Nat) (sampler : Fin 16) (value : Word) (s : State), 
    MayWrite path session (0x0F000060 + 4 * sampler.val) s →
    Completes (.telSamplerWrite path session sampler value) s fun t =>
      t.tel.samplers.at sampler.val = { (default : Sampler) with
        down := if t.fldI F.TEL_SAMPLER_EN sampler.val = 1 then t.fldI F.TEL_SAMPLER_PERIOD_PERIOD sampler.val else 0 }) ∧
  (∀ (steps : List Nat) (s : State), 
    s.ctl.gts.ppm = 0 →
    s.ctl.gts.frac = 0 →
    Completes (.coreClockEdge steps) s fun t =>
      t.now = s.now + 1 ∧ t.tel.cnt.at 0 = (s.tel.cnt.at 0 + 1) % 2 ^ 64 ∧
      (s.net.waitC0 = [] → t.regs = s.regs ∧ ((∀ e ∈ s.xpt.ctx, e.2.work = []) → t.out = s.out)))

/-- How a controller is created, enabled, shut down, disabled, drained and deleted (R46, R69 to R71). `connectTest` gives the status of a Connect that fails a test; the tests that the standards add to those of R46 are the model's reading (notes/assumptions/12.md). -/
def Obligations.ControllersComplete : Prop :=
  (∀ (conn : Nat) (nqn : Bytes) (size cid kato : Nat) (s : State), 
    (ctxOf s conn).carriesConnect = true →
    (ctxOf s conn).sqid = 0xFFFF →
    connectTest s nqn 0 size 0xFFFF = none →
    Awake s →
    Completes (.connect conn nqn 0 size 0xFFFF cid kato) s fun t =>
      (ctrlOf t (nextCntlid s)).exists_ = true ∧ (ctrlOf t (nextCntlid s)).state = 0 ∧
      (ctrlOf t (nextCntlid s)).host = (hostIndex s nqn).getD 0 ∧ (ctrlOf t (nextCntlid s)).kato = kato ∧
      (queueOf t (nextCntlid s) 0).exists_ = true ∧ (queueOf t (nextCntlid s) 0).size = size ∧
      .completion (nextCntlid s) 0 cid stOk (nextCntlid s) ∈ t.out) ∧
  (∀ (conn : Nat) (nqn : Bytes) (qid size cntlid cid kato : Nat) (s : State), 
    0 < qid →
    (ctxOf s conn).carriesConnect = true →
    (ctxOf s conn).sqid = 0xFFFF →
    connectTest s nqn qid size cntlid = none →
    Awake s →
    Completes (.connect conn nqn qid size cntlid cid kato) s fun t =>
      (queueOf t cntlid qid).exists_ = true ∧ (queueOf t cntlid qid).size = size ∧ (queueOf t cntlid qid).conn = conn ∧
      (queueOf t cntlid qid).cls = classOf s ((hostIndex s nqn).getD 0) qid ∧ t.cmd.ctrls = s.cmd.ctrls ∧
      .completion cntlid qid cid stOk cntlid ∈ t.out) ∧
  (∀ (conn : Nat) (nqn : Bytes) (qid size cntlid cid kato : Nat) (st : Status) (s : State), 
    (ctxOf s conn).carriesConnect = true →
    (ctxOf s conn).sqid = 0xFFFF →
    connectTest s nqn qid size cntlid = some st →
    Awake s →
    Completes (.connect conn nqn qid size cntlid cid kato) s fun t =>
      Emitted s t 0x560 1 0x60C (st.sc * 2 ^ 16 + (hostIndex s nqn).getD 0xFFF % 4096) ∧
      .completion cntlid qid cid st cntlid ∈ t.out ∧ t.cmd.ctrls = s.cmd.ctrls ∧ t.cmd.queues = s.cmd.queues) ∧
  (∀ (a : Admin) (offset v : Nat) (s : State), 
    (ctrlOf s a.cntlid).fn = none →
    property (ctrlOf s a.cntlid) offset = some v →
    Awake s →
    Completes (.propertyGet a offset) s fun t =>
      .adminData a.cntlid a.cid (leBytes 8 v) ∈ t.out ∧ Answered s t a.cntlid 0 a.cid stOk 0) ∧
  (∀ (a : Admin) (value : Nat) (s : State), 
    (ctrlOf s a.cntlid).exists_ = true →
    (ctrlOf s a.cntlid).fn = none →
    bitsOf value 15 14 = bitsOf (ctrlOf s a.cntlid).cc 15 14 →
    bitAt value 0 = bitAt (ctrlOf s a.cntlid).cc 0 →
    Awake s →
    Completes (.propertySet a 0x14 value) s fun t =>
      ctrlOf t a.cntlid = { ctrlOf s a.cntlid with cc := value % 2 ^ 32 } ∧ Answered s t a.cntlid 0 a.cid stOk 0) ∧
  (∀ (a : Admin) (offset value : Nat) (s : State), 
    (ctrlOf s a.cntlid).fn = none →
    offset ≠ 0x14 →
    Awake s →
    Completes (.propertySet a offset value) s fun t =>
      t.cmd.ctrls = s.cmd.ctrls ∧ Answered s t a.cntlid 0 a.cid stInvalidField 0) ∧
  (∀ (cntlid cid cc aqa asq acq : Nat) (s : State), 
    (ctrlOf s cntlid).exists_ = true →
    (ctrlOf s cntlid).fn = none →
    (ctrlOf s cntlid).state = 0 →
    bitAt (ctrlOf s cntlid).cc 0 = false →
    bitsOf cc 15 14 = bitsOf (ctrlOf s cntlid).cc 15 14 →
    ccValid cc = true →
    cc < 2 ^ 32 →
    Awake s →
    Completes (.ccEnWritten1 cntlid (some cid) cc aqa asq acq) s fun t =>
      (ctrlOf t cntlid).state = 2 ∧ (ctrlOf t cntlid).le = true ∧ (ctrlOf t cntlid).cc = setBits cc 0 0 1 ∧
      Answered s t cntlid 0 cid stOk 0) ∧
  (∀ (cntlid fn cc aqa asq acq : Nat) (s : State), 
    (ctrlOf s cntlid).exists_ = true →
    (ctrlOf s cntlid).fn = some fn →
    8 ≤ s.boot.step →
    (ctrlOf s cntlid).state = 0 →
    bitAt (ctrlOf s cntlid).cc 0 = false →
    bitsOf cc 15 14 = bitsOf (ctrlOf s cntlid).cc 15 14 →
    ccValid cc = true →
    cc < 2 ^ 32 →
    adminQueueOk { fnOf s fn with aqa := aqa, asq := asq, acq := acq } cc = true →
    Completes (.ccEnWritten1 cntlid none cc aqa asq acq) s fun t =>
      (ctrlOf t cntlid).state = 2 ∧ (queueOf t cntlid 0).pcie = true ∧ (queueOf t cntlid 0).size = bitsOf aqa 11 0 + 1 ∧
      (t.hep.sqs.at (cntlid * 256)).base = asq ∧ (cqOf t (cntlid * 256)).size = bitsOf aqa 27 16 + 1 ∧
      (fnOf t fn).bme = true) ∧
  (∀ (cntlid cid cc : Nat) (s : State), 
    (ctrlOf s cntlid).exists_ = true →
    (ctrlOf s cntlid).state = 2 →
    bitAt (ctrlOf s cntlid).cc 0 = true →
    bitsOf cc 15 14 = bitsOf (ctrlOf s cntlid).cc 15 14 →
    Awake s →
    Completes (.ccEnWritten0 cntlid (some cid) cc) s fun t =>
      (ctrlOf t cntlid).state = 5 ∧ (ctrlOf t cntlid).le = false ∧ Emitted s t 0x560 1 0x609 cntlid) ∧
  (∀ (cntlid cid cc : Nat) (s : State), 
    (ctrlOf s cntlid).exists_ = true →
    (ctrlOf s cntlid).state = 2 →
    bitAt cc 0 = bitAt (ctrlOf s cntlid).cc 0 →
    bitsOf (ctrlOf s cntlid).cc 15 14 = 0 →
    Awake s →
    Completes (.ccShnNormalShutdown cntlid (some cid) cc) s fun t =>
      (ctrlOf t cntlid).state = 3 ∧ (ctrlOf t cntlid).shst = 1 ∧ t.cmd.table = s.cmd.table ∧
      Emitted s t 0x560 1 0x609 (2 ^ 16 + cntlid)) ∧
  (∀ (cntlid cid cc : Nat) (s : State), 
    (ctrlOf s cntlid).exists_ = true →
    (ctrlOf s cntlid).state = 2 →
    bitAt cc 0 = bitAt (ctrlOf s cntlid).cc 0 →
    bitsOf (ctrlOf s cntlid).cc 15 14 = 0 →
    Awake s →
    Completes (.ccShnAbruptShutdown cntlid (some cid) cc) s fun t =>
      (ctrlOf t cntlid).state = 3 ∧ (ctrlOf t cntlid).shst = 1 ∧ Emitted s t 0x560 1 0x609 (2 * 2 ^ 16 + cntlid)) ∧
  (∀ (a : Admin) (s : State), 
    (ctrlOf s a.cntlid).exists_ = true →
    (ctrlOf s a.cntlid).fn = none →
    Awake s →
    Completes (.disconnect a 0) s fun t =>
      ctrlOf t a.cntlid = default ∧ Emitted s t 0x560 1 0x609 (7 * 2 ^ 16 + a.cntlid) ∧ Answered s t a.cntlid 0 a.cid stOk 0) ∧
  (∀ (a : Admin) (sqid : Nat) (s : State), 
    (ctrlOf s a.cntlid).fn = none →
    sqid ≠ 0 →
    Awake s →
    Completes (.disconnect a sqid) s fun t =>
      queueOf t a.cntlid sqid = default ∧ Answered s t a.cntlid sqid a.cid stOk 0) ∧
  (∀ (cntlid : Nat) (s : State), 
    drained s cntlid = true →
    (ctrlOf s cntlid).state = 3 →
    (ctrlOf s cntlid).ld = false →
    Completes (.drainFinished cntlid) s fun t =>
      ctrlOf t cntlid = { ctrlOf s cntlid with state := 4, shst := 2 }) ∧
  (∀ (cntlid : Nat) (s : State), 
    drained s cntlid = true →
    (ctrlOf s cntlid).state = 5 →
    (ctrlOf s cntlid).le = false →
    Completes (.drainFinished cntlid) s fun t =>
      ctrlOf t cntlid = { ctrlOf s cntlid with state := 0, shst := 0, ld := false, cfs := false } ∧ queueOf t cntlid 1 = default) ∧
  (∀ (cntlid : Nat) (s : State), 
    (ctrlOf s cntlid).exists_ = true →
    (ctrlOf s cntlid).kato ≠ 0 →
    s.cmd.ps < 3 →
    Completes (.keepAliveTimeout cntlid) s fun t =>
      ctrlOf t cntlid = default ∧ Emitted s t 0x560 1 0x609 (3 * 2 ^ 16 + cntlid))

/-- The admin commands of a controller whose CSTS.RDY reads 1 (R45 to R49, R55, R64, R71, R75, R78, R162), in PS0; an admin command that comes in PS1 to PS3 or during an exit waits (R76, R77). -/
def Obligations.AdminCommandsComplete : Prop :=
  (∀ (a : Admin) (cns nsid : Nat) (s : State), 
    (ctrlOf s a.cntlid).ready = true →
    (identifyData s a.cntlid cns nsid).isSome = true →
    Awake s →
    Completes (.identify a cns nsid) s fun t =>
      .adminData a.cntlid a.cid ((identifyData s a.cntlid cns nsid).getD []) ∈ t.out ∧ Answered s t a.cntlid 0 a.cid stOk 0) ∧
  (∀ (a : Admin) (lid nsid : Nat) (s : State), 
    (ctrlOf s a.cntlid).ready = true →
    Awake s →
    Completes (.getLogPage a lid nsid) s fun t =>
      (lid = 0x06 → .adminData a.cntlid a.cid (selfTestLog s) ∈ t.out ∧ Answered s t a.cntlid 0 a.cid stOk 0) ∧
      (lid = 0x0C → .adminData a.cntlid a.cid (anaLog s) ∈ t.out ∧ Answered s t a.cntlid 0 a.cid stOk 0) ∧
      (lid = 0xC0 → .adminData a.cntlid a.cid (shelfLog s nsid) ∈ t.out ∧ Answered s t a.cntlid 0 a.cid stOk 0) ∧
      (lid ≠ 0x06 ∧ lid ≠ 0x0C ∧ lid ≠ 0xC0 → Answered s t a.cntlid 0 a.cid stInvalidField 0)) ∧
  (∀ (a : Admin) (value : Nat) (s : State), 
    (ctrlOf s a.cntlid).ready = true →
    value < 4 →
    Awake s →
    Completes (.setFeatures a 0x02 value) s fun t =>
      (ctrlOf t a.cntlid).pm = value ∧ Answered s t a.cntlid 0 a.cid stOk 0) ∧
  (∀ (a : Admin) (value : Nat) (s : State), 
    (ctrlOf s a.cntlid).ready = true →
    4 ≤ value →
    Awake s →
    Completes (.setFeatures a 0x02 value) s fun t =>
      (ctrlOf t a.cntlid).pm = (ctrlOf s a.cntlid).pm ∧ Answered s t a.cntlid 0 a.cid stInvalidField 0) ∧
  (∀ (a : Admin) (value : Nat) (s : State), 
    (ctrlOf s a.cntlid).ready = true →
    (ctrlOf s a.cntlid).fn = none →
    Awake s →
    Completes (.setFeatures a 0x07 value) s fun t =>
      (ctrlOf t a.cntlid).queues = min (value % 65536 + 1) 128 ∧
      Answered s t a.cntlid 0 a.cid stOk (queuesDword (min (value % 65536 + 1) 128))) ∧
  (∀ (a : Admin) (fid value : Nat) (s : State), 
    (ctrlOf s a.cntlid).ready = true →
    fid = 0x01 ∨ fid = 0x0B →
    Awake s →
    Completes (.setFeatures a fid value) s fun t =>
      (ctrlOf t a.cntlid).features.at fid = value ∧ Answered s t a.cntlid 0 a.cid stOk 0) ∧
  (∀ (a : Admin) (value : Nat) (s : State), 
    (ctrlOf s a.cntlid).ready = true →
    Awake s →
    Completes (.setFeatures a 0x0F value) s fun t =>
      (ctrlOf t a.cntlid).kato = value ∧ (ctrlOf t a.cntlid).kaStart = s.now ∧ Answered s t a.cntlid 0 a.cid stOk 0) ∧
  (∀ (a : Admin) (fid value : Nat) (s : State), 
    (ctrlOf s a.cntlid).ready = true →
    fid = 0x01 ∨ fid = 0x0B →
    Awake s →
    Completes (.getFeatures a fid value) s fun t =>
      Answered s t a.cntlid 0 a.cid stOk ((ctrlOf s a.cntlid).features.at fid) ∧ t.cmd.ctrls = s.cmd.ctrls) ∧
  (∀ (a : Admin) (fid value : Nat) (s : State), 
    (ctrlOf s a.cntlid).ready = true →
    Awake s →
    Completes (.getFeatures a fid value) s fun t =>
      (fid = 0x02 → Answered s t a.cntlid 0 a.cid stOk (ctrlOf s a.cntlid).pm) ∧
      (fid = 0x0F → Answered s t a.cntlid 0 a.cid stOk (ctrlOf s a.cntlid).kato) ∧
      (fid = 0x07 → Answered s t a.cntlid 0 a.cid stOk (queuesDword (ctrlOf s a.cntlid).queues))) ∧
  (∀ (a : Admin) (s : State), 
    (ctrlOf s a.cntlid).ready = true →
    Awake s →
    Completes (.keepAlive a) s fun t =>
      ctrlOf t a.cntlid = { ctrlOf s a.cntlid with kaStart := s.now } ∧ Answered s t a.cntlid 0 a.cid stOk 0) ∧
  (∀ (a : Admin) (sqid target others : Nat) (c : Capsule) (s : State), 
    (ctrlOf s a.cntlid).ready = true →
    others < 8 →
    sqid ≠ 0 →
    (s.cmd.queued.find? fun c => c.cntlid == a.cntlid && c.sqid == sqid && c.cid == target) = some c →
    Awake s →
    Completes (.abort a sqid target others) s fun t =>
      t.cmd.queued = s.cmd.queued.filter (· != c) ∧ Answered s t a.cntlid sqid target stAborted 0 ∧
      ((queueOf s a.cntlid 0).pcie = false → .completion a.cntlid 0 a.cid stOk 0 ∈ t.out)) ∧
  (∀ (a : Admin) (sqid target others : Nat) (s : State), 
    (ctrlOf s a.cntlid).ready = true →
    others < 8 →
    sqid ≠ 0 →
    (s.cmd.queued.find? fun c => c.cntlid == a.cntlid && c.sqid == sqid && c.cid == target) = none →
    (entriesWhere s fun e => e.cap.cntlid == a.cntlid && e.cap.sqid == sqid && e.cap.cid == target) = [] →
    Awake s →
    Completes (.abort a sqid target others) s fun t =>
      t.cmd.queued = s.cmd.queued ∧ t.cmd.table = s.cmd.table ∧ Answered s t a.cntlid 0 a.cid stOk 1) ∧
  (∀ (a : Admin) (s : State), 
    (ctrlOf s a.cntlid).ready = true →
    (ctrlOf s a.cntlid).notices = [] →
    (ctrlOf s a.cntlid).aers.length < 8 →
    Awake s →
    Completes (.asynchronousEventRequest a) s fun t =>
      (ctrlOf t a.cntlid).aers = (ctrlOf s a.cntlid).aers ++ [a.cid] ∧ t.out = s.out) ∧
  (∀ (a : Admin) (nsid : Nat) (s : State), 
    (ctrlOf s a.cntlid).ready = true →
    s.cmd.test.code = 0 →
    Awake s →
    Completes (.deviceSelfTestShort a nsid) s fun t =>
      t.cmd.test.code = 1 ∧ t.cmd.test.cntlid = a.cntlid ∧ t.cmd.test.nsid = nsid ∧ t.cmd.test.items = testItems s 1 nsid ∧
      t.cmd.test.log = s.cmd.test.log ∧ Answered s t a.cntlid 0 a.cid stOk 0) ∧
  (∀ (a : Admin) (nsid : Nat) (s : State), 
    (ctrlOf s a.cntlid).ready = true →
    s.cmd.test.code = 0 →
    Awake s →
    Completes (.deviceSelfTestExtended a nsid) s fun t =>
      t.cmd.test.code = 2 ∧ t.cmd.test.cntlid = a.cntlid ∧ t.cmd.test.nsid = nsid ∧ t.cmd.test.items = testItems s 2 nsid ∧
      t.cmd.test.log = s.cmd.test.log ∧ Answered s t a.cntlid 0 a.cid stOk 0) ∧
  (∀ (a : Admin) (nsid : Nat) (s : State), 
    (ctrlOf s a.cntlid).ready = true →
    s.cmd.test.code ≠ 0 →
    Awake s →
    Completes (.deviceSelfTestShort a nsid) s fun t =>
      t.cmd.test = s.cmd.test ∧ Answered s t a.cntlid 0 a.cid stSelfTest 0) ∧
  (∀ (a : Admin) (s : State), 
    (ctrlOf s a.cntlid).ready = true →
    s.cmd.test.code ≠ 0 →
    Awake s →
    Completes (.deviceSelfTestAbort a) s fun t =>
      t.cmd.test.code = 0 ∧ t.cmd.test.log = (s.cmd.test.code, 1) :: s.cmd.test.log ∧
      Emitted s t 0x564 1 0x60B (s.cmd.test.code * 16 + 1) ∧ Answered s t a.cntlid 0 a.cid stOk 0) ∧
  (∀ (a : Admin) (opc : Nat) (s : State), 
    (ctrlOf s a.cntlid).ready = true →
    Awake s →
    Completes (.invalidCommandOpcode a 0 opc) s fun t =>
      Answered s t a.cntlid 0 a.cid stInvalidOpcode 0 ∧ t.cmd.ctrls = s.cmd.ctrls) ∧
  (∀ (a : Admin) (sqid opc : Nat) (s : State), 
    sqid ≠ 0 →
    MayArrive s (capsule ⟨a.cntlid, sqid, a.cid, 0⟩ opc 0) →
    Awake s →
    Completes (.invalidCommandOpcode a sqid opc) s fun t =>
      Answered s t a.cntlid sqid a.cid stInvalidOpcode 0 ∧ t.cmd.queued = s.cmd.queued) ∧
  (∀ (a : Admin) (cns nsid : Nat) (s : State), 
    s.cmd.ps ≠ 4 →
    s.cmd.ps ≠ 0 ∨ s.cmd.exiting = true →
    Completes (.identify a cns nsid) s fun t =>
      t.waiting = s.waiting ++ [.identify a cns nsid] ∧ t.out = s.out ∧ (1 ≤ s.cmd.ps ∧ s.cmd.ps ≤ 3 → t.cmd.exiting = true))

/-- The power states and the ends of a self-test (R75 to R79). A timeout ends a short test only: R79 gives it 2 minutes. -/
def Obligations.PowerStatesAndSelfTestsComplete : Prop :=
  (∀ (s : State), 
    mayDeepen s (s.cmd.ps + 1) = true →
    Completes (.idleTimerExpiry) s fun t =>
      t.cmd.ps = s.cmd.ps + 1 ∧ Emitted s t 0x563 0 0x608 (s.cmd.ps * 16 + (s.cmd.ps + 1)) ∧ t.cmd.table = s.cmd.table) ∧
  (∀ (s : State), 
    s.cmd.exiting = true →
    0 < s.cmd.ps →
    s.waiting = [] →
    Completes (.powerStateExitDone) s fun t =>
      t.cmd.ps = 0 ∧ t.cmd.exiting = false ∧ t.cmd.idleFrom = s.now ∧ Emitted s t 0x563 0 0x608 (s.cmd.ps * 16) ∧
      ((∀ c ∈ s.cmd.queued, c.untested = false) → t.cmd.queued = s.cmd.queued)) ∧
  (∀ (a : Admin) (s : State), 
    s.cmd.exiting = true →
    s.waiting = [.keepAlive a] →
    s.cmd.queued = [] →
    (ctrlOf s a.cntlid).ready = true →
    Completes (.powerStateExitDone) s fun t =>
      t.cmd.ps = 0 ∧ t.waiting = [] ∧ (ctrlOf t a.cntlid).kaStart = s.now ∧ Answered s t a.cntlid 0 a.cid stOk 0) ∧
  (∀ (c : Capsule) (st : Status) (s : State), 
    s.cmd.exiting = true →
    s.waiting = [] →
    s.cmd.queued = [c] →
    c.untested = true →
    c.refusal.or (fieldTest s c) = some st →
    Completes (.powerStateExitDone) s fun t =>
      t.cmd.ps = 0 ∧ t.cmd.queued = [] ∧ Answered s t c.cntlid c.sqid c.cid st 0) ∧
  (∀ (result : Nat) (failed : List (Nat × Nat)) (s : State), 
    s.cmd.test.code ≠ 0 →
    Completes (.selftestDone result failed) s fun t =>
      t.cmd.test.code = 0 ∧ t.cmd.test.log = (s.cmd.test.code, result % 16) :: s.cmd.test.log ∧
      Emitted s t 0x564 1 0x60B (s.cmd.test.code * 16 + result % 16)) ∧
  (∀ (result lane : Nat) (s : State), 
    s.cmd.test.code ≠ 0 →
    TestItem.cipherLanes ∈ s.cmd.test.items →
    lane < 64 →
    Completes (.selftestDone result [(10, lane)]) s fun t =>
      fencedUnit t 10 lane = true) ∧
  (∀ (s : State), 
    s.cmd.test.code = 1 →
    Completes (.selftestTimeout) s fun t =>
      t.cmd.test.code = 0 ∧ t.cmd.test.log = (1, 8) :: s.cmd.test.log ∧ Emitted s t 0x564 1 0x60B 24)

/-- The thirteen I/O commands of the NVM and Key Value sets (R45, R48, R51 to R53, R76, R77). `Admits` says that a capsule's queue exists, the unit is not in PS4, its controller is READY, and that it passes the tests of its fields and those of class 0; `waits` is the capsule with its port, class and submission GTS. -/
def Obligations.IoCommandsAreQueued : Prop :=
  (∀ (h : IoHdr) (slba nlb : Nat) (sgl : List Sgl) (s : State), 
    Admits s ((blockCapsule h 0x02 slba nlb s).withData sgl []) →
    Completes (.read h slba nlb sgl) s fun t =>
      t.cmd.queued = s.cmd.queued ++ [waits s ((blockCapsule h 0x02 slba nlb s).withData sgl [])] ∧ t.cmd.table = s.cmd.table) ∧
  (∀ (h : IoHdr) (slba nlb : Nat) (sgl : List Sgl) (inline : Bytes) (s : State), 
    Admits s ((blockCapsule h 0x01 slba nlb s).withData sgl inline) →
    Completes (.write h slba nlb sgl inline) s fun t =>
      t.cmd.queued = s.cmd.queued ++ [waits s ((blockCapsule h 0x01 slba nlb s).withData sgl inline)] ∧ t.cmd.table = s.cmd.table) ∧
  (∀ (h : IoHdr) (s : State), 
    Admits s (capsule h 0x00 0) →
    Completes (.flush h) s fun t =>
      t.cmd.queued = s.cmd.queued ++ [waits s (capsule h 0x00 0)] ∧ t.cmd.table = s.cmd.table) ∧
  (∀ (h : IoHdr) (slba nlb : Nat) (sgl : List Sgl) (inline : Bytes) (s : State), 
    Admits s ((blockCapsule h 0x05 slba nlb s).withData sgl inline) →
    Completes (.compare h slba nlb sgl inline) s fun t =>
      t.cmd.queued = s.cmd.queued ++ [waits s ((blockCapsule h 0x05 slba nlb s).withData sgl inline)] ∧ t.cmd.table = s.cmd.table) ∧
  (∀ (h : IoHdr) (slba nlb : Nat) (s : State), 
    Admits s (blockCapsule h 0x0C slba nlb s) →
    Completes (.verify h slba nlb) s fun t =>
      t.cmd.queued = s.cmd.queued ++ [waits s (blockCapsule h 0x0C slba nlb s)] ∧ t.cmd.table = s.cmd.table) ∧
  (∀ (h : IoHdr) (slba nlb : Nat) (s : State), 
    Admits s (blockCapsule h 0x08 slba nlb s) →
    Completes (.writeZeroes h slba nlb) s fun t =>
      t.cmd.queued = s.cmd.queued ++ [waits s (blockCapsule h 0x08 slba nlb s)] ∧ t.cmd.table = s.cmd.table) ∧
  (∀ (h : IoHdr) (ranges : List (Nat × Nat)) (s : State), 
    Admits s ({ capsule h 0x09 (blockBytes s h.nsid (ranges.map (·.2)).sum) with ranges := ranges }) →
    Completes (.datasetManagement h true ranges) s fun t =>
      t.cmd.queued = s.cmd.queued ++ [waits s ({ capsule h 0x09 (blockBytes s h.nsid (ranges.map (·.2)).sum) with ranges := ranges })] ∧ t.cmd.table = s.cmd.table) ∧
  (∀ (h : IoHdr) (key : Bytes) (len : Nat) (sgl : List Sgl) (inline : Bytes) (s : State), 
    Admits s ((keyCapsule h 0x81 len key).withData sgl inline) →
    Completes (.kvStore h key len sgl inline) s fun t =>
      t.cmd.queued = s.cmd.queued ++ [waits s ((keyCapsule h 0x81 len key).withData sgl inline)] ∧ t.cmd.table = s.cmd.table) ∧
  (∀ (h : IoHdr) (key : Bytes) (bufLen : Nat) (sgl : List Sgl) (s : State), 
    Admits s ((keyCapsule h 0x82 bufLen key).withData sgl []) →
    Completes (.kvRetrieve h key bufLen sgl) s fun t =>
      t.cmd.queued = s.cmd.queued ++ [waits s ((keyCapsule h 0x82 bufLen key).withData sgl [])] ∧ t.cmd.table = s.cmd.table) ∧
  (∀ (h : IoHdr) (key : Bytes) (s : State), 
    Admits s (keyCapsule h 0x90 0 key) →
    Completes (.kvDelete h key) s fun t =>
      t.cmd.queued = s.cmd.queued ++ [waits s (keyCapsule h 0x90 0 key)] ∧ t.cmd.table = s.cmd.table) ∧
  (∀ (h : IoHdr) (key : Bytes) (s : State), 
    Admits s (keyCapsule h 0x94 0 key) →
    Completes (.kvExist h key) s fun t =>
      t.cmd.queued = s.cmd.queued ++ [waits s (keyCapsule h 0x94 0 key)] ∧ t.cmd.table = s.cmd.table) ∧
  (∀ (h : IoHdr) (key : Bytes) (bufLen : Nat) (sgl : List Sgl) (s : State), 
    Admits s ((keyCapsule h 0x86 bufLen key).withData sgl []) →
    Completes (.kvList h key bufLen sgl) s fun t =>
      t.cmd.queued = s.cmd.queued ++ [waits s ((keyCapsule h 0x86 bufLen key).withData sgl [])] ∧ t.cmd.table = s.cmd.table) ∧
  (∀ (h : IoHdr) (s : State), 
    Admits s (capsule h 0x80 0) →
    Completes (.kvFlush h) s fun t =>
      t.cmd.queued = s.cmd.queued ++ [waits s (capsule h 0x80 0)] ∧ t.cmd.table = s.cmd.table) ∧
  (∀ (h : IoHdr) (slba nlb : Nat) (sgl : List Sgl) (s : State), 
    MayArrive s ((blockCapsule h 0x02 slba nlb s).withData sgl []) →
    1 ≤ s.cmd.ps ∧ s.cmd.ps ≤ 3 ∨ s.cmd.exiting = true →
    Completes (.read h slba nlb sgl) s fun t =>
      t.cmd.queued = s.cmd.queued ++ [waits s ((blockCapsule h 0x02 slba nlb s).withData sgl [])] ∧ t.cmd.exiting = true ∧
      (waits s ((blockCapsule h 0x02 slba nlb s).withData sgl [])).untested = true)

/-- I/O commands that fail a test (R45, R53), in PS0 with no exit under way. -/
def Obligations.IoCommandsAreRefused : Prop :=
  (∀ (h : IoHdr) (slba nlb : Nat) (sgl : List Sgl) (st : Status) (s : State), 
    MayArrive s ((blockCapsule h 0x02 slba nlb s).withData sgl []) →
    fieldTest s ((blockCapsule h 0x02 slba nlb s).withData sgl []) = some st →
    Awake s →
    Completes (.read h slba nlb sgl) s fun t =>
      Answered s t h.cntlid h.sqid h.cid st 0 ∧ t.cmd.queued = s.cmd.queued) ∧
  (∀ (h : IoHdr) (slba nlb : Nat) (sgl : List Sgl) (inline : Bytes) (st : Status) (s : State), 
    MayArrive s ((blockCapsule h 0x01 slba nlb s).withData sgl inline) →
    fieldTest s ((blockCapsule h 0x01 slba nlb s).withData sgl inline) = some st →
    Awake s →
    Completes (.write h slba nlb sgl inline) s fun t =>
      Answered s t h.cntlid h.sqid h.cid st 0 ∧ t.cmd.queued = s.cmd.queued) ∧
  (∀ (h : IoHdr) (slba nlb : Nat) (sgl : List Sgl) (st : Status) (test : Nat) (s : State), 
    MayArrive s ((blockCapsule h 0x02 slba nlb s).withData sgl []) →
    fieldTest s ((blockCapsule h 0x02 slba nlb s).withData sgl []) = none →
    (queueOf s h.cntlid h.sqid).cls = 0 →
    s.fld F.CMD_CFG_C0_EN = 1 →
    Awake s →
    c0Test s (queueOf s h.cntlid h.sqid).port (portMbps s (queueOf s h.cntlid h.sqid).port) (blockBytes s h.nsid nlb) = some (st, test) →
    Completes (.read h slba nlb sgl) s fun t =>
      Answered s t h.cntlid h.sqid h.cid st 0 ∧ t.cmd.queued = s.cmd.queued ∧
      Emitted s t 0x561 1 0x601 ((queueOf s h.cntlid h.sqid).port * 2 ^ 30 + test * 2 ^ 28 + h.cntlid)) ∧
  (∀ (h : IoHdr) (ranges : List (Nat × Nat)) (s : State), 
    MayArrive s (capsule h 0x09 0) →
    Awake s →
    Completes (.datasetManagement h false ranges) s fun t =>
      Answered s t h.cntlid h.sqid h.cid stInvalidField 0 ∧ t.cmd.queued = s.cmd.queued ∧ t.cmd.table = s.cmd.table)

/-- The events of the command pipeline (R50, R51, R54, R63, R129, R138, R146). `grantChoice` is what the arbiter of a port takes next and the entry it gets. -/
def Obligations.PipelineEventsComplete : Prop :=
  (∀ (port : Fin 65) (c : Capsule) (i : Nat) (a : Arbiter) (s : State), 
    grantChoice s port.val = some (c, i, a) →
    c.opc = 0x00 ∨ c.opc = 0x80 →
    Completes (.arbiterGrant port) s fun t =>
      entryOf t i = { grantEntry s c with state := .posting, status := stOk, wait := .egress } ∧
      t.cmd.queued = s.cmd.queued.erase c ∧ t.cmd.arbiters = s.cmd.arbiters.put port.val a) ∧
  (∀ (port : Fin 65) (c : Capsule) (i : Nat) (a : Arbiter) (s : State), 
    grantChoice s port.val = some (c, i, a) →
    Completes (.arbiterGrant port) s fun t =>
      (entryOf t i).live = true ∧ (entryOf t i).granted = s.now ∧ (entryOf t i).cap.cid = c.cid ∧
      (entryOf t i).cap.gtsIn = c.gtsIn ∧ (entryOf t i).cap.opc = c.opc ∧ t.cmd.queued = s.cmd.queued.erase c) ∧
  (∀ (i : Nat) (s : State), 
    (entryOf s i).live = true →
    (entryOf s i).state = .fetching →
    (entryOf s i).wanted ≤ (entryOf s i).data.length →
    (entryOf s i).cap.opc ≠ 0x05 →
    Completes (.lastDataCellStored i) s fun t =>
      (entryOf t i).state = .encoding ∧ (entryOf t i).data = (entryOf s i).data.take (entryOf s i).wanted ∧
      (entryOf t i).digest = Config.sha256 ((entryOf s i).data.take (entryOf s i).wanted) ∧
      (entryOf t i).hostIv = (entryOf s i).hostIv + (s.now - (entryOf s i).hostStart)) ∧
  (∀ (i : Nat) (s : State), 
    (entryOf s i).live = true →
    (entryOf s i).state = .encoding →
    Completes (.lastParityCellReady i) s fun t =>
      (entryOf t i).state = .drive ∧ (entryOf t i).wait = .drive ∧ (entryOf t i).driveStart = s.now ∧
      (entryOf t i).unitsOut = (extentsOf s (entryOf s i)).flatMap fun x => unitWrites s x.1 x.2) ∧
  (∀ (i : Nat) (slot : Fin 48) (set row unit : Nat) (w v : UnitIo) (s : State), 
    (entryOf s i).live = true →
    (entryOf s i).state = .drive →
    w ∈ (entryOf s i).unitsOut ∧ w.slot = slot.val ∧ w.set = set ∧ w.row = row ∧ w.unit = unit →
    v ∈ (entryOf s i).unitsOut ∧ v.slot ≠ slot.val →
    Completes (.unitWriteCompletion (.unit i set row unit) slot .ok) s fun t =>
      (entryOf t i).state = .drive ∧ (entryOf t i).unitsOut = (entryOf s i).unitsOut.filter fun w =>
        !(w.slot == slot.val && w.set == set && w.row == row && w.unit == unit)) ∧
  (∀ (i set row unit : Nat) (header data : Bytes) (w : UnitIo) (s : State), 
    ((entryOf s i).readsOut.find? fun w => w.set == set && w.row == row && w.unit == unit) = some w →
    unitPasses s set row ⟨unit, header, data⟩ = true →
    Completes (.driveReadCompletion i set row unit header data .ok) s fun t =>
      { w with data := data } ∈ (entryOf t i).got) ∧
  (∀ (i set row unit : Nat) (header data : Bytes) (w : UnitIo) (s : State), 
    ((entryOf s i).readsOut.find? fun w => w.set == set && w.row == row && w.unit == unit) = some w →
    unitPasses s set row ⟨unit, header, data⟩ = false →
    Completes (.driveReadCompletion i set row unit header data .ok) s fun t =>
      (set, row, unit) ∈ (entryOf t i).bad ∧
      Emitted s t 0x571 2 0x707 (((s.lay.sets.at set).members.getD unit default).slot * 2 ^ 30 + set)) ∧
  (∀ (jseq : Nat) (slot other : Fin 48) (r : JRec) (s : State), 
    recOf s jseq = some r →
    (r.copies.any fun c => c.slot == slot.val && !c.done) = true →
    (r.copies.any fun c => c.slot == other.val && !c.done) = true →
    slot ≠ other →
    Completes (.journalCompletion jseq slot .ok) s fun t =>
      recOf t jseq = some { r with copies := r.copies.map fun c => if c.slot = slot.val then { c with done := true } else c }) ∧
  (∀ (jseq : Nat) (slot : Fin 48) (r : JRec) (i : Nat) (s : State), 
    recOf s jseq = some r →
    (r.copies.any fun c => c.slot == slot.val && !c.done) = true →
    (r.copies.all fun c => c.done || c.slot == slot.val) = true →
    r.owner = some i →
    i < 32768 →
    r.committed = false →
    needsVote s = false →
    (entryOf s i).ended = false →
    s.lay.waitingJournal.contains i = false →
    Completes (.journalCompletion jseq slot .ok) s fun t =>
      (entryOf t i).state = .posting ∧ (entryOf t i).status = stOk) ∧
  (∀ (i : Nat) (s : State), 
    (entryOf s i).live = true →
    (entryOf s i).state = .returning →
    ((ctxOf s (queueOf s (entryOf s i).cap.cntlid (entryOf s i).cap.sqid).conn).sends.any fun x => x.2.2 == i + 1) = false →
    Completes (.rdmaWriteAcknowledged i) s fun t =>
      entryOf t i = { entryOf s i with state := .posting, wait := .egress }) ∧
  (∀ (i : Nat) (s : State), 
    i < 32768 →
    (entryOf s i).live = true →
    (entryOf s i).state = .posting →
    (entryOf s i).ended = false →
    Completes (.completionHandedToXpt i) s fun t =>
      entryOf t i = default ∧
      Answered s t (entryOf s i).cap.cntlid (entryOf s i).cap.sqid (entryOf s i).cap.cid (entryOf s i).status (entryOf s i).dw0) ∧
  (∀ (lba : Nat) (slot : Fin 48) (b : Nat × Nat × Bool) (s : State), 
    ((portOf s slot.val).back.find? fun b => b.1 == lba) = some b →
    s.lay.rebuild.target = none →
    Completes (.unitWriteCompletion (.other lba) slot .ok) s fun t =>
      (portOf t slot.val).back = (portOf s slot.val).back.erase b ∧ t.cmd = s.cmd)

/-- The link of the host endpoint, its resets and its functions (R314, R317, R330, R331, R333). `limited` is a link's speed or width within the limits of HEP_CFG. -/
def Obligations.HostLinkAndResetsComplete : Prop :=
  (∀ (speed width : Nat) (flit : Bool) (c : HostCfg) (s : State), 
    s.fld F.HEP_LINK_STAT_UP = 0 →
    s.boot.inReset = .none →
    s.cmd.ps ≠ 4 →
    Completes (.heLinkUp speed width flit c) s fun t =>
      t.fld F.HEP_LINK_STAT_UP = 1 ∧ t.fld F.HEP_LINK_STAT_FLIT = b2n flit ∧ (fnOf t 0).present = true ∧
      (fnOf t pf0).present = true ∧ (fnOf t 0).bme = c.bme ∧ t.hep.mrrs = c.mrrs ∧ t.hep.mps = min c.mps 512 ∧
      Emitted s t 0x5D0 1 0xD01 (limited 6 (s.fld F.HEP_CFG_SPEED_MAX) speed + limited 5 (s.fld F.HEP_CFG_WIDTH_MAX) width * 16)) ∧
  (∀ (s : State), 
    s.fld F.HEP_LINK_STAT_UP = 1 →
    Completes (.heLinkDown) s fun t =>
      t.fld F.HEP_LINK_STAT_UP = 0 ∧ t.fld F.HEP_LINK_STAT_SPEED = 0 ∧ Emitted s t 0x5D0 2 0xD02 0 ∧
      Emitted s t 0x5D0 1 0xD03 3 ∧ (fnOf t 0).bme = false) ∧
  (∀ (s : State), 
    Completes (.heFundamentalReset) s fun t =>
      t.fld F.HEP_LINK_STAT_UP = 0 ∧ t.hep.vfEnabled = false ∧ Emitted s t 0x5D0 1 0xD03 1 ∧ (fnOf t pf0).bme = false) ∧
  (∀ (s : State), 
    Completes (.heHotReset) s fun t =>
      t.fld F.HEP_LINK_STAT_UP = 0 ∧ t.hep.vfEnabled = false ∧ Emitted s t 0x5D0 1 0xD03 2 ∧ (fnOf t pf0).bme = false) ∧
  (∀ (s : State), 
    (fnOf s 0).flr = false →
    (fnOf s 0).present = true →
    Completes (.flrPf1) s fun t =>
      (fnOf t 0).flr = true ∧ (fnOf t 0).bme = false ∧ t.hep.vfEnabled = false ∧ t.hep.numVfs = 0 ∧
      Emitted s t 0x400 1 0xD03 4) ∧
  (∀ (vf : Fin 64) (s : State), 
    (fnOf s (vf.val + 1)).flr = false →
    (fnOf s (vf.val + 1)).present = true →
    Completes (.flrVf vf) s fun t =>
      (fnOf t (vf.val + 1)).flr = true ∧ (fnOf t (vf.val + 1)).bme = false ∧ fnOf t 0 = fnOf s 0 ∧
      Emitted s t (0x401 + vf.val) 1 0xD03 4) ∧
  (∀ (s : State), 
    (fnOf s pf0).flr = false →
    Completes (.flrPf0) s fun t =>
      (fnOf t pf0).flr = true ∧ (fnOf t pf0).bme = false ∧ t.ctl.paths.at 4 = default ∧ Emitted s t 0x5D0 1 0xD03 4) ∧
  (∀ (fn : Fin 66) (c : HostCfg) (s : State), 
    (fnOf s fn.val).flr = true →
    Completes (.flrComplete fn c) s fun t =>
      (fnOf t fn.val).flr = false ∧ (fnOf t fn.val).present = true ∧ (fnOf t fn.val).bme = c.bme ∧ (fnOf t fn.val).msix = c.msix) ∧
  (∀ (numVfs : Nat) (c : HostCfg) (s : State), 
    (fnOf s 0).present = true →
    s.hep.vfEnabled = false →
    Completes (.vfEnable numVfs true c) s fun t =>
      t.hep.vfEnabled = true ∧ t.hep.numVfs = min numVfs 64 ∧ Emitted s t 0x400 1 0xD0A (128 + min numVfs 64)) ∧
  (∀ (numVfs : Nat) (c : HostCfg) (s : State), 
    (fnOf s 0).present = true →
    s.hep.vfEnabled = true →
    Completes (.vfEnable numVfs false c) s fun t =>
      t.hep.vfEnabled = false ∧ t.hep.numVfs = 0 ∧ Emitted s t 0x400 1 0xD0A s.hep.numVfs) ∧
  (∀ (fn : Fin 65) (s : State), 
    (fnOf s fn.val).bme = true →
    Completes (.bmeCleared fn) s fun t =>
      (fnOf t fn.val).bme = false ∧ (ctrlOf t (0xFF00 + fn.val)).cfs = true ∧
      Emitted s t (0x400 + fn.val) 2 0xD04 (min 65535 ((entriesWhere s fun e => e.cap.cntlid == 0xFF00 + fn.val).length +
        (s.cmd.queued.filter fun c => c.cntlid == 0xFF00 + fn.val).length)))

/-- Queues of PCIe functions, doorbells, the completions of host reads, and interrupts (R318, R322 to R329, R332). -/
def Obligations.HostQueuesComplete : Prop :=
  (∀ (a : Admin) (qid size vector base : Nat) (interrupts : Bool) (k : Nat) (s : State), 
    (ctrlOf s a.cntlid).ready = true →
    (ctrlOf s a.cntlid).fn = some k →
    0 < qid ∧ qid ≤ pairsOf k →
    (cqOf s (qKey a.cntlid qid)).exists_ = false →
    2 ≤ size ∧ size ≤ 1024 →
    vector < vectorsOf k →
    Awake s →
    Completes (.createIoCompletionQueue a qid size vector interrupts true base) s fun t =>
      (cqOf t (qKey a.cntlid qid)).exists_ = true ∧ (cqOf t (qKey a.cntlid qid)).size = size ∧
      (cqOf t (qKey a.cntlid qid)).vector = vector ∧ (cqOf t (qKey a.cntlid qid)).interrupts = interrupts ∧
      (cqOf t (qKey a.cntlid qid)).base = base ∧
      Answered s t a.cntlid 0 a.cid stOk 0) ∧
  (∀ (a : Admin) (qid size vector base : Nat) (interrupts : Bool) (k : Nat) (s : State), 
    (ctrlOf s a.cntlid).ready = true →
    (ctrlOf s a.cntlid).fn = some k →
    qid = 0 ∨ pairsOf k < qid ∨ (cqOf s (qKey a.cntlid qid)).exists_ = true →
    Awake s →
    Completes (.createIoCompletionQueue a qid size vector interrupts true base) s fun t =>
      Answered s t a.cntlid 0 a.cid stInvalidQueue 0 ∧
      (cqOf t (qKey a.cntlid qid)).exists_ = (cqOf s (qKey a.cntlid qid)).exists_) ∧
  (∀ (a : Admin) (qid size vector base : Nat) (interrupts : Bool) (k : Nat) (s : State), 
    (ctrlOf s a.cntlid).ready = true →
    (ctrlOf s a.cntlid).fn = some k →
    0 < qid ∧ qid ≤ pairsOf k →
    (cqOf s (qKey a.cntlid qid)).exists_ = false →
    2 ≤ size ∧ size ≤ 1024 →
    vectorsOf k ≤ vector →
    Awake s →
    Completes (.createIoCompletionQueue a qid size vector interrupts true base) s fun t =>
      Answered s t a.cntlid 0 a.cid stInvalidVector 0) ∧
  (∀ (a : Admin) (qid size cqid base k : Nat) (s : State), 
    (ctrlOf s a.cntlid).ready = true →
    (ctrlOf s a.cntlid).fn = some k →
    0 < qid ∧ qid ≤ pairsOf k →
    (queueOf s a.cntlid qid).exists_ = false →
    cqid ≠ 0 →
    (cqOf s (qKey a.cntlid cqid)).exists_ = true →
    2 ≤ size ∧ size ≤ 1024 →
    Awake s →
    Completes (.createIoSubmissionQueue a qid size cqid true base) s fun t =>
      (queueOf t a.cntlid qid).exists_ = true ∧ (queueOf t a.cntlid qid).size = size ∧ (queueOf t a.cntlid qid).pcie = true ∧
      (queueOf t a.cntlid qid).cq = cqid ∧ (queueOf t a.cntlid qid).port = 64 ∧ 1 ≤ (queueOf t a.cntlid qid).cls ∧
      t.hep.sqs.at (qKey a.cntlid qid) = ⟨base, 0, 0⟩ ∧ Answered s t a.cntlid 0 a.cid stOk 0) ∧
  (∀ (fn : Fin 65) (qid tail : Nat) (s : State), 
    (fnOf s fn.val).present = true →
    (fnOf s fn.val).flr = false →
    (queueOf s (0xFF00 + fn.val) qid).exists_ = true →
    tail < (queueOf s (0xFF00 + fn.val) qid).size →
    Completes (.submissionQueueDoorbell fn qid tail) s fun t =>
      (t.hep.sqs.at (qKey (0xFF00 + fn.val) qid)).tail = tail ∧ (t.hep.sqs.at (qKey (0xFF00 + fn.val) qid)).fetched = tail) ∧
  (∀ (fn : Fin 65) (qid head : Nat) (s : State), 
    (fnOf s fn.val).present = true →
    (fnOf s fn.val).flr = false →
    (cqOf s (qKey (0xFF00 + fn.val) qid)).exists_ = true →
    head < (cqOf s (qKey (0xFF00 + fn.val) qid)).size →
    Completes (.completionQueueDoorbell fn qid head) s fun t =>
      (cqOf t (qKey (0xFF00 + fn.val) qid)).head = head) ∧
  (∀ (tag : Fin 1024) (byteCount : Nat) (data : Bytes) (s : State), 
    (s.hep.tags.at tag.val).state = .outstanding →
    data.length < byteCount →
    Completes (.hostReadCompletion tag .ok byteCount data) s fun t =>
      (t.hep.tags.at tag.val).state = .outstanding ∧ (t.hep.tags.at tag.val).buf =
      ((s.hep.tags.at tag.val).buf.take ((s.hep.tags.at tag.val).req.len - byteCount) ++ data ++
        (s.hep.tags.at tag.val).buf.drop ((s.hep.tags.at tag.val).req.len - byteCount + data.length)).take (s.hep.tags.at tag.val).req.len) ∧
  (∀ (tag : Fin 1024) (byteCount : Nat) (data : Bytes) (s : State), 
    (s.hep.tags.at tag.val).state = .outstanding →
    Completes (.hostReadCompletion tag .ur byteCount data) s fun t =>
      Emitted s t ((if (s.hep.tags.at tag.val).req.fn = 65 then 0x5D0 else 0x400 + (s.hep.tags.at tag.val).req.fn)) 2 0xD05 (tag.val * 65536)) ∧
  (∀ (tag : Fin 1024) (status : CplStatus) (byteCount : Nat) (data : Bytes) (s : State), 
    (s.hep.tags.at tag.val).state = .free →
    Completes (.hostReadCompletion tag status byteCount data) s fun t =>
      Emitted s t 0x5D0 1 0xD07 tag.val ∧ t.cmd = s.cmd ∧
      t.fld F.HEP_ERR_COUNT_LATE = min F.HEP_ERR_COUNT_LATE.max (s.fld F.HEP_ERR_COUNT_LATE + 1)) ∧
  (∀ (tag : Fin 1024) (s : State), 
    (s.hep.tags.at tag.val).state = .outstanding →
    Completes (.cplTimeout tag) s fun t =>
      (t.hep.tags.at tag.val).state = .held ∧
      Emitted s t ((if (s.hep.tags.at tag.val).req.fn = 65 then 0x5D0 else 0x400 + (s.hep.tags.at tag.val).req.fn)) 2 0xD06 tag.val) ∧
  (∀ (tag : Fin 1024) (s : State), 
    (s.hep.tags.at tag.val).state = .held →
    s.hep.waiting = [] →
    Completes (.tagHoldExpiry tag) s fun t =>
      t.hep.tags.at tag.val = default ∧ t.hep.released = s.hep.released ++ [tag.val]) ∧
  (∀ (fn : Fin 66) (v : Nat) (s : State), 
    v < 129 →
    (fnOf s fn.val).bme = true →
    (fnOf s fn.val).msix = true →
    (fnOf s fn.val).fnMask = false →
    bitAt (fnOf s fn.val).pba v = true →
    Completes (.msixUnmask fn (some v)) s fun t =>
      .msix fn.val v ∈ t.out ∧ bitAt (fnOf t fn.val).unmasked v = true ∧ bitAt (fnOf t fn.val).pba v = false) ∧
  (∀ (fn : Fin 65) (vector : Nat) (s : State), 
    s.hep.coalesced.at (256 * fn.val + vector) ≠ 0 →
    (fnOf s fn.val).bme = true →
    (fnOf s fn.val).msix = true →
    (fnOf s fn.val).fnMask = false →
    bitAt (fnOf s fn.val).unmasked vector = true →
    Completes (.interruptCoalescingTimeout fn vector) s fun t =>
      .msix fn.val vector ∈ t.out ∧ t.hep.coalesced.at (256 * fn.val + vector) = 0) ∧
  (∀ (i : Nat) (e : Entry) (s : State), 
    entryOf s i = e ∧ i < 32768 ∧ e.live = true ∧ e.state = .posting ∧ e.ended = false →
    (queueOf s e.cap.cntlid e.cap.sqid).pcie = true →
    (fnOf s (e.cap.cntlid - 0xFF00)).bme = true ∧ (fnOf s (e.cap.cntlid - 0xFF00)).flr = false →
    (cqOf s (e.cap.cntlid * 256 + (queueOf s e.cap.cntlid e.cap.sqid).cq)).exists_ = true →
    (cqOf s (e.cap.cntlid * 256 + (queueOf s e.cap.cntlid e.cap.sqid).cq)).full = false →
    Completes (.completionHandedToXpt i) s fun t =>
      .completion e.cap.cntlid e.cap.sqid e.cap.cid e.status e.dw0 ∈ t.out ∧
      (cqOf t (e.cap.cntlid * 256 + (queueOf s e.cap.cntlid e.cap.sqid).cq)).tail =
        (if (cqOf s (e.cap.cntlid * 256 + (queueOf s e.cap.cntlid e.cap.sqid).cq)).size ≤
            (cqOf s (e.cap.cntlid * 256 + (queueOf s e.cap.cntlid e.cap.sqid).cq)).tail + 1 then 0
          else (cqOf s (e.cap.cntlid * 256 + (queueOf s e.cap.cntlid e.cap.sqid).cq)).tail + 1))

/-- The peer windows (R334 to R337, R339). `commitRefusal` gives the reason of R336 for which a commit is refused. -/
def Obligations.PeerWindowsComplete : Prop :=
  (∀ (path : Fin 5) (session : Nat) (value : Word) (s : State), 
    MayWrite path session 0x0D000054 s →
    value.toNat ≠ 0 →
    commitRefusal s value.toNat = none →
    Completes (.hepPwinCommit path session value) s fun t =>
      t.hep.staged = some (value.toNat, (List.range 64).map fun i => (rawWord s.regs (0x0D000100 + 4 * i)).toNat) ∧
      t.fld F.HEP_PWIN_STAT_PENDING = 1) ∧
  (∀ (path : Fin 5) (session : Nat) (value : Word) (r : Nat) (s : State), 
    MayWrite path session 0x0D000054 s →
    value.toNat ≠ 0 →
    commitRefusal s value.toNat = some r →
    Completes (.hepPwinCommit path session value) s fun t =>
      t.hep.staged = s.hep.staged ∧ t.fld F.HEP_PWIN_STAT_REFUSED = 1 ∧ t.fld F.HEP_PWIN_STAT_REASON = r % 8) ∧
  (∀ (mask : Nat) (words : List Nat) (s : State), 
    s.hep.staged = some (mask, words) →
    Completes (.pwinCommit) s fun t =>
      t.hep.staged = none ∧ t.fld F.HEP_PWIN_STAT_PENDING = 0 ∧ Emitted s t 0x5D1 0 0xD08 mask) ∧
  (∀ (path : Fin 5) (session : Nat) (value : Word) (s : State), 
    MayWrite path session 0x0D00005C s →
    Completes (.hepPptWrite path session value) s fun t =>
      t.hep.ppt.at (bitsOf value.toNat 15 0) = (rawWord s.regs 0x0D000060).toNat ∧ t.fld F.HEP_PPT_SEL_DONE = 1) ∧
  (∀ (path : Fin 5) (session : Nat) (value : Word) (s : State), 
    MayWrite path session 0x0D00005C s →
    s.hep.ppt.at (bitsOf value.toNat 15 0) < 2 ^ 32 →
    Completes (.hepPptRead path session value) s fun t =>
      (rawWord t.regs 0x0D000060).toNat = s.hep.ppt.at (bitsOf value.toNat 15 0) ∧ t.fld F.HEP_PPT_SEL_DONE = 1 ∧ t.hep = s.hep) ∧
  (∀ (offset len : Nat) (write : Option Bytes) (s : State), 
    s.fld F.HEP_CFG_PEER_EN = 0 →
    Completes (.peerMemoryRequest offset len write) s fun t =>
      Emitted s t 0x5D1 1 0xD09 (offset % 2 ^ 28) ∧ t.hep = s.hep ∧ (write = none → .peerRead 1 [] ∈ t.out) ∧
      t.fld F.HEP_PWIN_STAT_FAULTS = min F.HEP_PWIN_STAT_FAULTS.max (s.fld F.HEP_PWIN_STAT_FAULTS + 1)) ∧
  (∀ (offset len : Nat) (w : Window) (s : State), 
    PeerPermits s w offset len false →
    Completes (.peerMemoryRequest offset len none) s fun t =>
      t = s.send (.peerRead 0 ((peerBytes s w offset len).map fun a => s.hep.peerMem.at a))) ∧
  (∀ (offset len : Nat) (data : Bytes) (w : Window) (s : State), 
    PeerPermits s w offset data.length true →
    Completes (.peerMemoryRequest offset len (some data)) s fun t =>
      t = s.onHep fun h => { h with peerMem := ((peerBytes s w offset data.length).zip data).foldl (fun m x => m.put x.1 x.2) h.peerMem })

/-- R72, R73, R304, R381: the activation of an image or firmware at run time. What ACT_DONE applies of an image is stated with the loader's statements. -/
def Obligations.ActivationCompletes : Prop :=
  (∀ (path : Fin 5) (session : Nat) (value : Word) (b : Bytes) (s : State), 
    MayWrite path session 0x06000058 s →
    s.cmd.act.step = 0 →
    slotContent s 2 (bitsOf value.toNat 2 0) = some b →
    Completes (.activateFirmware path session value) s fun t =>
      (firmwareReason s b = 0 → t.cmd.act.step = 3 ∧ t.cmd.act.kind = 2 ∧ t.cmd.act.staged = b ∧ t.cmd.act.stopGts = s.now ∧
        (t.cmd.queued.all fun c => c.hold) = true ∧ Emitted s t 0x562 1 0x605 (2 + bitsOf value.toNat 2 0 * 16)) ∧
      (firmwareReason s b ≠ 0 → t.cmd.act = s.cmd.act ∧
        Emitted s t 0x005 3 0x010 (firmwareReason s b * 256 + 2 * 16 + bitsOf value.toNat 2 0))) ∧
  (∀ (path : Fin 5) (session : Nat) (value : Word) (b : Bytes) (s : State), 
    MayWrite path session 0x06000058 s →
    s.cmd.act.step = 0 →
    slotContent s 1 (bitsOf value.toNat 2 0) = some b →
    Completes (.activateImage path session value) s fun t =>
      (imageReason s (modeTested s) b = 0 → t.cmd.act.step = 3 ∧ t.cmd.act.kind = 1 ∧ t.cmd.act.staged = b ∧
        t.cmd.act.stopGts = s.now ∧ bitAt t.cmd.boundStat 0 = true ∧
        (t.cmd.queued.all fun c => c.hold) = true ∧ Emitted s t 0x562 1 0x605 (1 + bitsOf value.toNat 2 0 * 16)) ∧
      (imageReason s (modeTested s) b ≠ 0 → t.cmd.act = s.cmd.act ∧
        Emitted s t 0x005 3 0x010 (imageReason s (modeTested s) b * 256 + 16 + bitsOf value.toNat 2 0))) ∧
  (∀ (path : Fin 5) (session : Nat) (value : Word) (s : State), 
    MayWrite path session 0x06000058 s →
    s.cmd.act.step ≠ 0 →
    Completes (.activateImage path session value) s fun t =>
      t.cmd.act = { s.cmd.act with result := 3 }) ∧
  (∀ (s : State), 
    s.cmd.act.step = 3 →
    tableInUse s = 0 →
    Completes (.actDrained) s fun t =>
      t.cmd.act = { s.cmd.act with step := 4 } ∧ t.out = s.out) ∧
  (∀ (s : State), 
    s.cmd.act.step = 3 →
    s.cmd.act.reply = none →
    tableInUse s ≠ 0 →
    Completes (.actDeferred) s fun t =>
      t.cmd.act.step = 7 ∧ t.cmd.act.result = 2 ∧ t.cmd.act.staged = [] ∧
      Emitted s t 0x562 2 0x607 (min (tableInUse s) 65535) ∧ t.cmd.table = s.cmd.table) ∧
  (∀ (s : State), 
    s.cmd.act.step = 4 →
    s.cmd.act.kind = 2 →
    s.cmd.act.reply = none →
    Completes (.actDone) s fun t =>
      t.cmd.act.step = 6 ∧ t.cmd.act.result = 1 ∧ t.boot.fwSlot = s.cmd.act.slot ∧
      Emitted s t 0x562 1 0x606 (min ((s.now - s.cmd.act.stopGts) / 1000) (2 ^ 17 - 1))) ∧
  (∀ (s : State), 
    s.cmd.act.step = 6 ∨ s.cmd.act.step = 7 →
    heldDone s = true →
    Completes (.boundResumed) s fun t =>
      t.cmd.act = { s.cmd.act with step := 0 } ∧ bitAt t.cmd.boundStat 0 = false)

/-- R85 to R89: connection management and the states of a context. That the lowest free context is taken, and the reason 28 of the REJ, are the model's (notes/assumptions/14.md, notes/assumptions/92.md). -/
def Obligations.ConnectionsComplete : Prop :=
  (∀ (r : CmReq) (i : Nat) (s : State), 
    reqOk s r = true →
    freeCtx s = some i →
    Completes (.cmReq r) s fun t =>
      (t.xpt.ctx.at i).state = 2 ∧ (t.xpt.ctx.at i).destQpn = r.qpn ∧ (t.xpt.ctx.at i).epsn = r.psn % 2 ^ 24 ∧
      (t.xpt.ctx.at i).spsn = s.freeVal.toNat % 2 ^ 24 ∧ (t.xpt.ctx.at i).pmtu = min r.pmtu (s.fld F.XPT_CFG_PMTU_MAX) ∧
      (t.xpt.ctx.at i).tenant = r.tenant ∧ t.free = s.free + 1 ∧
      .cmRep (0x200000 + i) (s.freeVal.toNat % 2 ^ 24) (min r.pmtu (s.fld F.XPT_CFG_PMTU_MAX))
        (min (s.fld F.XPT_CFG_INIT_DEPTH) r.resources) 16 r.hsqsize ∈ t.out) ∧
  (∀ (r : CmReq) (s : State), 
    reqOk s r = false →
    Completes (.cmReq r) s fun t =>
      t.xpt = s.xpt ∧ t.out = s.out ++ [.cmRej 28]) ∧
  (∀ (r : CmReq) (s : State), 
    Completes (.cmReq r) s fun t =>
      reqOk s r = true ∧ freeCtx s = none → t.xpt = s.xpt ∧ .cmRej 1 ∈ t.out ∧ Emitted s t 0x556 2 0x501 (ctxInUse s)) ∧
  (∀ (qpn : Nat) (s : State), 
    (ctxOf s qpn).state = 2 →
    Completes (.cmRtu qpn) s fun t =>
      ctxOf t qpn = { ctxOf s qpn with state := 3 } ∧ t.out = s.out) ∧
  (∀ (qpn : Nat) (s : State), 
    (ctxOf s qpn).state = 3 →
    (ctxOf s qpn).inFlight = true →
    Completes (.cmDreq qpn) s fun t =>
      ctxOf t qpn = { ctxOf s qpn with state := 4 } ∧ t.out = s.out) ∧
  (∀ (qpn : Nat) (s : State), 
    (ctxOf s qpn).state = 3 →
    (ctxOf s qpn).inFlight = false →
    Completes (.cmDreq qpn) s fun t =>
      ctxOf t qpn = default ∧ .cmDrep qpn ∈ t.out) ∧
  (∀ (qpn : Nat) (s : State), 
    (ctxOf s qpn).state = 5 →
    Completes (.cmDrep qpn) s fun t =>
      ctxOf t qpn = default ∧ t.out = s.out) ∧
  (∀ (qpn : Nat) (s : State), 
    (ctxOf s qpn).state = 4 →
    Completes (.contextDrainTimeout qpn) s fun t =>
      ctxOf t qpn = default ∧ .cmDrep qpn ∈ t.out) ∧
  (∀ (qpn : Nat) (s : State), 
    (ctxOf s qpn).state = 5 →
    Completes (.contextErrorTimeout qpn) s fun t =>
      ctxOf t qpn = default ∧ t.out = s.out)

/-- R84, R94, R95, R97, R100, R104, R105, R112 to R114, R118: the responder. -/
def Obligations.RequestPacketsComplete : Prop :=
  (∀ (p : Pkt) (payload : Bytes) (n : Nat) (s : State), 
    (ctxIndex p.qpn).isSome = true →
    (ctxOf s p.qpn).state = 3 →
    classify (ctxOf s p.qpn) p.psn = .expected →
    sendRoom s p.qpn false = some n →
    ((ctxOf s p.qpn).rxBuf ++ payload).length ≤ n →
    Completes (.sendReceived p false payload) s fun t =>
      (ctxOf t p.qpn).rxBuf = (ctxOf s p.qpn).rxBuf ++ payload ∧ (ctxOf t p.qpn).epsn = psnAdd (ctxOf s p.qpn).epsn 1 ∧
      (ctxOf t p.qpn).msn = (ctxOf s p.qpn).msn) ∧
  (∀ (p : Pkt) (payload : Bytes) (n : Nat) (s : State), 
    (ctxIndex p.qpn).isSome = true →
    (ctxOf s p.qpn).state = 3 →
    classify (ctxOf s p.qpn) p.psn = .expected →
    bufferFor s (ctxOf s p.qpn) = some n →
    ((ctxOf s p.qpn).rxBuf ++ payload).length ≤ n →
    Completes (.sendReceived p true payload) s fun t =>
      (ctxOf t p.qpn).rxBuf = [] ∧ (ctxOf t p.qpn).epsn = psnAdd (ctxOf s p.qpn).epsn 1 ∧
      (ctxOf t p.qpn).msn = psnAdd (ctxOf s p.qpn).msn 1 ∧
      t.fix.received = s.fix.received ++
        if (ctxOf s p.qpn).migration then [(p.qpn, (ctxOf s p.qpn).rxBuf ++ payload)] else []) ∧
  (∀ (p : Pkt) (last : Bool) (payload : Bytes) (s : State), 
    (ctxIndex p.qpn).isSome = true →
    (ctxOf s p.qpn).state = 3 →
    classify (ctxOf s p.qpn) p.psn = .duplicate →
    holdsAcks s = false →
    s.cmd.ps ≠ 4 →
    Completes (.sendReceived p last payload) s fun t =>
      Emitted s t 0x552 0 0x503 p.qpn ∧
      PacketSent t p.qpn (.ack (psnSub (ctxOf s p.qpn).epsn 1) (ctxOf s p.qpn).msn) ∧ t.xpt.hbm = s.xpt.hbm ∧
      (ctxOf t p.qpn).epsn = (ctxOf s p.qpn).epsn) ∧
  (∀ (p : Pkt) (last : Bool) (payload : Bytes) (s : State), 
    (ctxIndex p.qpn).isSome = true →
    (ctxOf s p.qpn).state = 3 →
    classify (ctxOf s p.qpn) p.psn = .ahead →
    (ctxOf s p.qpn).nakSent = false →
    s.cmd.ps ≠ 4 →
    Completes (.sendReceived p last payload) s fun t =>
      PacketSent t p.qpn (.nakSequence (ctxOf s p.qpn).epsn) ∧ (ctxOf t p.qpn).nakSent = true ∧
      (ctxOf t p.qpn).epsn = (ctxOf s p.qpn).epsn) ∧
  (∀ (p : Pkt) (last : Bool) (payload : Bytes) (s : State), 
    (ctxIndex p.qpn).isSome = true →
    (ctxOf s p.qpn).state = 3 →
    classify (ctxOf s p.qpn) p.psn = .expected →
    sendRoom s p.qpn last = none →
    s.cmd.ps ≠ 4 →
    Completes (.sendReceived p last payload) s fun t =>
      PacketSent t p.qpn (.nakRnr p.psn (s.fld F.XPT_RETRY_CFG_RNR_TIMER)) ∧ t.xpt.hbm = s.xpt.hbm ∧ (ctxOf t p.qpn).epsn = (ctxOf s p.qpn).epsn) ∧
  (∀ (p : Pkt) (imm : Nat) (payload : Bytes) (e : Nat) (s : State), 
    (ctxIndex p.qpn).isSome = true →
    (ctxOf s p.qpn).state = 3 →
    classify (ctxOf s p.qpn) p.psn = .expected →
    matching s p.qpn imm = some e →
    ((ctxOf s p.qpn).rxBuf ++ payload).length ≤ (s.xpt.triggers.at e).mbufLen →
    Completes (.sendWithImmediateReceived p imm payload) s fun t =>
      Emitted s t 0x555 0 0x508 e ∧ ((s.xpt.triggers.at e).head ≠ 0xFFFFFFFF → (t.xpt.triggers.at e).state = 2 ∧
        t.xpt.hbm = (hbmWrite (s.xpt.triggers.at e).mbuf ((ctxOf s p.qpn).rxBuf ++ payload) s).xpt.hbm)) ∧
  (∀ (p : Pkt) (imm : Nat) (payload : Bytes) (s : State), 
    (ctxIndex p.qpn).isSome = true →
    (ctxOf s p.qpn).state = 3 →
    classify (ctxOf s p.qpn) p.psn = .expected →
    matching s p.qpn imm = none →
    (ctxOf s p.qpn).trigOnly = true →
    s.cmd.ps ≠ 4 →
    Completes (.sendWithImmediateReceived p imm payload) s fun t =>
      Emitted s t 0x555 1 0x509 p.qpn ∧ PacketSent t p.qpn (.nakRnr p.psn (s.fld F.XPT_RETRY_CFG_RNR_TIMER)) ∧
      t.fld F.XPT_TRIG_STAT_MISSES = min F.XPT_TRIG_STAT_MISSES.max (s.fld F.XPT_TRIG_STAT_MISSES + 1)) ∧
  (∀ (p : Pkt) (key : Nat) (payload : Bytes) (n : Nat) (s : State), 
    (ctxIndex p.qpn).isSome = true →
    (ctxOf s p.qpn).state = 3 →
    classify (ctxOf s p.qpn) p.psn = .expected →
    regionIndex key < 65536 →
    (s.xpt.regions.at (regionIndex key)).state = 1 →
    (s.xpt.regions.at (regionIndex key)).key = key % 256 →
    bitAt (s.xpt.regions.at (regionIndex key)).access 2 = true →
    bufferFor s (ctxOf s p.qpn) = some n →
    ((ctxOf s p.qpn).rxBuf ++ payload).length ≤ n →
    Completes (.sendWithInvalidateReceived p key payload) s fun t =>
      (t.xpt.regions.at (regionIndex key)).state ≠ 1 ∧ Emitted s t 0x554 0 0x506 key) ∧
  (∀ (p : Pkt) (r : Reth) (data : Bytes) (s : State), 
    (ctxIndex p.qpn).isSome = true →
    (ctxOf s p.qpn).state = 3 →
    classify (ctxOf s p.qpn) p.psn = .expected →
    regionCheck s r.rkey r.va r.len 0 (ctxOf s p.qpn).tenant = none →
    data.length ≤ r.len →
    Completes (.rdmaWriteReceived p (some r) true data) s fun t =>
      t.xpt.hbm = (hbmWrite r.va data s).xpt.hbm ∧ (ctxOf t p.qpn).epsn = psnAdd (ctxOf s p.qpn).epsn 1 ∧
      (ctxOf t p.qpn).msn = psnAdd (ctxOf s p.qpn).msn 1 ∧ (ctxOf t p.qpn).wRegion = none) ∧
  (∀ (p : Pkt) (r : Reth) (data : Bytes) (s : State), 
    (ctxIndex p.qpn).isSome = true →
    (ctxOf s p.qpn).state = 3 →
    classify (ctxOf s p.qpn) p.psn = .expected →
    regionCheck s r.rkey r.va r.len 0 (ctxOf s p.qpn).tenant = none →
    data.length ≤ r.len →
    Completes (.rdmaWriteReceived p (some r) false data) s fun t =>
      t.xpt.hbm = (hbmWrite r.va data s).xpt.hbm ∧ (ctxOf t p.qpn).epsn = psnAdd (ctxOf s p.qpn).epsn 1 ∧
      (ctxOf t p.qpn).wRegion = some (regionIndex r.rkey) ∧ (ctxOf t p.qpn).wVa = r.va + data.length ∧
      (ctxOf t p.qpn).wLeft = r.len - data.length ∧ p.qpn ∈ (t.xpt.regions.at (regionIndex r.rkey)).users) ∧
  (∀ (p : Pkt) (r : Reth) (last : Bool) (data : Bytes) (reason : Nat) (s : State), 
    (ctxIndex p.qpn).isSome = true →
    (ctxOf s p.qpn).state = 3 →
    classify (ctxOf s p.qpn) p.psn = .expected →
    regionCheck s r.rkey r.va r.len 0 (ctxOf s p.qpn).tenant = some reason →
    s.cmd.ps ≠ 4 →
    Completes (.rdmaWriteReceived p (some r) last data) s fun t =>
      PacketSent t p.qpn (.nakAccess p.psn) ∧ Emitted s t 0x554 1 0x505 (reason * 2 ^ 32 + p.qpn) ∧
      Emitted s t 0x552 1 0x502 (4 * 2 ^ 32 + p.qpn) ∧ t.xpt.hbm = s.xpt.hbm) ∧
  (∀ (p : Pkt) (r : Reth) (imm : Nat) (data : Bytes) (n : Nat) (s : State), 
    (ctxIndex p.qpn).isSome = true →
    (ctxOf s p.qpn).state = 3 →
    classify (ctxOf s p.qpn) p.psn = .expected →
    bufferFor s (ctxOf s p.qpn) = some n →
    regionCheck s r.rkey r.va r.len 0 (ctxOf s p.qpn).tenant = none →
    data.length ≤ r.len →
    Completes (.rdmaWriteWithImmediateReceived p (some r) imm data) s fun t =>
      t.xpt.hbm = (hbmWrite r.va data s).xpt.hbm ∧ (ctxOf t p.qpn).epsn = psnAdd (ctxOf s p.qpn).epsn 1 ∧
      (ctxOf t p.qpn).msn = psnAdd (ctxOf s p.qpn).msn 1 ∧ (ctxOf t p.qpn).rqHead = ((ctxOf s p.qpn).rqHead + 1) % 65536) ∧
  (∀ (p : Pkt) (r : Reth) (s : State), 
    (ctxIndex p.qpn).isSome = true →
    (ctxOf s p.qpn).state = 3 →
    classify (ctxOf s p.qpn) p.psn = .expected →
    regionCheck s r.rkey r.va r.len 1 (ctxOf s p.qpn).tenant = none →
    (ctxOf s p.qpn).work = [] ∧ (ctxOf s p.qpn).workSent = 0 →
    s.fld F.XPT_CFG_CC_EN = 0 ∨ (ctxOf s p.qpn).class0 = true →
    s.cmd.ps ≠ 4 →
    Completes (.rdmaReadRequestReceived p r) s fun t =>
      PacketSent t p.qpn (.readResponse p.psn (hbmRead s r.va r.len)) ∧ (ctxOf t p.qpn).msn = psnAdd (ctxOf s p.qpn).msn 1 ∧
      (ctxOf t p.qpn).epsn = psnAdd (psnAdd (ctxOf s p.qpn).epsn (packetsOf (ctxOf s p.qpn).pmtu r.len - 1)) 1 ∧
      t.xpt.hbm = s.xpt.hbm) ∧
  (∀ (p : Pkt) (r : Reth) (psn n rkey va len : Nat) (s : State), 
    (ctxIndex p.qpn).isSome = true →
    (ctxOf s p.qpn).state = 3 →
    classify (ctxOf s p.qpn) p.psn = .duplicate →
    (ctxOf s p.qpn).readRing = [(psn, n, rkey, va, len)] →
    psnSub p.psn psn < n →
    regionCheck s rkey (va + psnSub p.psn psn * mtuBytes (ctxOf s p.qpn).pmtu)
    (len - psnSub p.psn psn * mtuBytes (ctxOf s p.qpn).pmtu) 1 (ctxOf s p.qpn).tenant = none →
    (ctxOf s p.qpn).work = [] ∧ (ctxOf s p.qpn).workSent = 0 →
    s.fld F.XPT_CFG_CC_EN = 0 ∨ (ctxOf s p.qpn).class0 = true →
    s.cmd.ps ≠ 4 →
    Completes (.rdmaReadRequestReceived p r) s fun t =>
      Emitted s t 0x552 0 0x503 p.qpn ∧ (ctxOf t p.qpn).epsn = (ctxOf s p.qpn).epsn ∧
      PacketSent t p.qpn (.readResponse p.psn (hbmRead s (va + psnSub p.psn psn * mtuBytes (ctxOf s p.qpn).pmtu)
        (len - psnSub p.psn psn * mtuBytes (ctxOf s p.qpn).pmtu)))) ∧
  (∀ (p : Pkt) (last : Bool) (payload : Bytes) (s : State), 
    (ctxIndex p.qpn).isSome = true →
    (ctxOf s p.qpn).accepts = false →
    s.cmd.ps ≠ 4 →
    Completes (.sendReceived p last payload) s fun t =>
      PacketSent t p.qpn (.nakInvalid p.psn) ∧ t.xpt = s.xpt) ∧
  (∀ (p : Pkt) (opcode : Nat) (s : State), 
    (ctxIndex p.qpn).isSome = true →
    (ctxOf s p.qpn).state = 3 ∨ (ctxOf s p.qpn).state = 2 →
    s.cmd.ps ≠ 4 →
    Completes (.invalidOpcodePacket p opcode) s fun t =>
      PacketSent t p.qpn (.nakInvalid p.psn) ∧ .cmDreq p.qpn ∈ t.out ∧ (ctxOf t p.qpn).state = 5 ∧
      Emitted s t 0x552 1 0x502 (5 * 2 ^ 32 + p.qpn))

/-- R90, R95, R96, R99, R107, R108, R110, R113: the requester. An acknowledgement of the peer's reads, whose PSNs are the peer's, ends the reads that straddle an invalidation (notes/assumptions/15.md). -/
def Obligations.RequesterPacketsComplete : Prop :=
  (∀ (qpn psn : Nat) (ecn : Bool) (s : State), 
    (ctxIndex qpn).isSome = true →
    ackInRange (ctxOf s qpn) psn = true →
    (ctxOf s qpn).state = 3 →
    (ctxOf s qpn).sends.any isRead = false →
    psnSub psn (ctxOf s qpn).unaPsn < 2 ^ 23 →
    Completes (.acknowledgeReceived qpn psn ecn false) s fun t =>
      (ctxOf t qpn).unaPsn = psnAdd psn 1 ∧ (ctxOf t qpn).retryLeft = s.fld F.XPT_RETRY_CFG_RETRY_CNT ∧
      (ctxOf t qpn).rnrLeft = s.fld F.XPT_RETRY_CFG_RNR_RETRY ∧ (ctxOf t qpn).rnrWait = false ∧
      (ctxOf t qpn).sends = (ctxOf s qpn).sends.filter fun m => !(ackedMessages (ctxOf s qpn) psn).contains m) ∧
  (∀ (qpn psn i : Nat) (ecn : Bool) (s : State), 
    (ctxIndex qpn).isSome = true →
    (ctxOf s qpn).state = 3 →
    (s.xpt.regions.at i).state = 2 →
    (s.xpt.regions.at i).users = [readUser qpn psn] →
    Completes (.acknowledgeReceived qpn psn ecn true) s fun t =>
      (t.xpt.regions.at i).state = 0 ∧ (t.xpt.regions.at i).users = [] ∧ (t.xpt.regions.at i).key = ((s.xpt.regions.at i).key + 1) % 256 ∧
      Emitted s t 0x554 0 0x507 (b2n (s.xpt.regions.at i).forced * 2 ^ 35 + i * 256 + (s.xpt.regions.at i).key)) ∧
  (∀ (qpn psn i : Nat) (ecn : Bool) (data : Bytes) (m : Nat × Nat × Nat) (s : State), 
    (ctxIndex qpn).isSome = true →
    (ctxOf s qpn).sends.find? isRead = some m →
    psn = (if psnSub (ctxOf s qpn).unaPsn m.1 < m.2.1 then (ctxOf s qpn).unaPsn else m.1) →
    psn = lastPsn m.1 m.2.1 →
    (ctxOf s qpn).state = 3 →
    (ctxOf s qpn).work = [] →
    m.2.2 = readMark + i + 1 ∧ i + 1 < 2 ^ 20 →
    (entryOf s i).live = true ∧ (entryOf s i).state = .fetching →
    Completes (.rdmaReadResponseReceived qpn psn ecn data) s fun t =>
      (entryOf t i).data = (entryOf s i).data ++ data ∧ (ctxOf t qpn).unaPsn = psnAdd psn 1 ∧ (ctxOf t qpn).readsOut = (ctxOf s qpn).readsOut - 1 ∧ m ∉ (ctxOf t qpn).sends) ∧
  (∀ (qpn psn : Nat) (s : State), 
    (ctxIndex qpn).isSome = true →
    (ctxOf s qpn).state = 3 →
    ackInRange (ctxOf s qpn) psn = true →
    1 < (ctxOf s qpn).retryLeft →
    s.cmd.ps ≠ 4 →
    Completes (.nakPsnSequenceErrorReceived qpn psn) s fun t =>
      (ctxOf t qpn).retryLeft = (ctxOf s qpn).retryLeft - 1 ∧ PacketSent t qpn (.resend psn) ∧
      (ctxOf t qpn).rate = if since32 (s.now % 2 ^ 32) (ctxOf s qpn).lastChange < (ctxOf s qpn).lastRtt then (ctxOf s qpn).rate
        else max ((ctxOf s qpn).rate / 2) (ctxOf s qpn).minRate) ∧
  (∀ (qpn : Nat) (s : State), 
    (ctxOf s qpn).sends ≠ [] →
    (ctxOf s qpn).rnrWait = false →
    (ctxOf s qpn).state = 3 ∨ (ctxOf s qpn).state = 4 →
    1 < (ctxOf s qpn).retryLeft →
    s.cmd.ps ≠ 4 →
    Completes (.ackTimeout qpn) s fun t =>
      (ctxOf t qpn).retryLeft = (ctxOf s qpn).retryLeft - 1 ∧ PacketSent t qpn (.resend (ctxOf s qpn).unaPsn) ∧
      (ctxOf t qpn).rate = if since32 (s.now % 2 ^ 32) (ctxOf s qpn).lastChange < (ctxOf s qpn).lastRtt then (ctxOf s qpn).rate
        else max ((ctxOf s qpn).rate / 2) (ctxOf s qpn).minRate) ∧
  (∀ (qpn : Nat) (s : State), 
    (ctxIndex qpn).isSome = true →
    (ctxOf s qpn).sends ≠ [] →
    (ctxOf s qpn).rnrWait = false →
    (ctxOf s qpn).state = 3 →
    (ctxOf s qpn).retryLeft ≤ 1 →
    Completes (.ackTimeout qpn) s fun t =>
      (ctxOf t qpn).state = 5 ∧ Emitted s t 0x552 1 0x502 (2 ^ 32 + qpn) ∧ .cmDreq qpn ∈ t.out) ∧
  (∀ (qpn psn : Nat) (timer : Fin 32) (s : State), 
    (ctxIndex qpn).isSome = true →
    (ctxOf s qpn).state = 3 →
    ackInRange (ctxOf s qpn) psn = true →
    s.fld F.XPT_RETRY_CFG_RNR_RETRY = 7 ∨ 1 < (ctxOf s qpn).rnrLeft →
    Completes (.rnrNakReceived qpn psn timer) s fun t =>
      (ctxOf t qpn).rnrWait = true ∧ (ctxOf t qpn).timerGts = s.now + rnrTime timer.val ∧ t.out = s.out) ∧
  (∀ (qpn : Nat) (s : State), 
    (ctxOf s qpn).rnrWait = true →
    s.cmd.ps ≠ 4 →
    Completes (.rnrWaitExpiry qpn) s fun t =>
      (ctxOf t qpn).rnrWait = false ∧ PacketSent t qpn (.resend (ctxOf s qpn).unaPsn)) ∧
  (∀ (qpn psn : Nat) (s : State), 
    (ctxIndex qpn).isSome = true →
    (ctxOf s qpn).state = 3 →
    Completes (.nakRemoteAccessErrorReceived qpn psn) s fun t =>
      (ctxOf t qpn).state = 5 ∧ Emitted s t 0x552 1 0x502 (3 * 2 ^ 32 + qpn) ∧ .cmDreq qpn ∈ t.out) ∧
  (∀ (qpn psn : Nat) (s : State), 
    (ctxIndex qpn).isSome = true →
    (ctxOf s qpn).state = 3 →
    Completes (.nakInvalidRequestReceived qpn psn) s fun t =>
      (ctxOf t qpn).state = 5 ∧ Emitted s t 0x552 1 0x502 (5 * 2 ^ 32 + qpn) ∧ .cmDreq qpn ∈ t.out) ∧
  (∀ (qpn : Nat) (s : State), 
    s.fld F.XPT_CFG_CC_EN = 1 →
    (ctxIndex qpn).isSome = true →
    (ctxOf s qpn).state = 3 →
    Completes (.cnpReceived qpn) s fun t =>
      (ctxOf t qpn).lastRtt = (ctxOf s qpn).baseRtt + 2 * s.fld F.XPT_CC_CFG_TARGET_NS) ∧
  (∀ (qpn : Nat) (s : State), 
    0 < (ctxOf s qpn).unackedPkts →
    holdsAcks s = false →
    s.cmd.ps ≠ 4 →
    Completes (.ackCoalescingTimeout qpn) s fun t =>
      PacketSent t qpn (.ack (psnSub (ctxOf s qpn).epsn 1) (ctxOf s qpn).msn) ∧ (ctxOf t qpn).unackedPkts = 0)

/-- R116 to R121: triggers and the chains of work requests. -/
def Obligations.TriggersAndChainsComplete : Prop :=
  (∀ (entry : Fin 16384) (tag qpn head mbufLen mbuf : Nat) (posts : List (Nat × WorkReq)) (s : State), 
    (s.xpt.triggers.at entry.val).state = 0 →
    Completes (.triggerArm entry tag qpn head mbufLen mbuf posts) s fun t =>
      t.xpt.triggers.at entry.val = ⟨tag, qpn, 1, head, min mbufLen 65536, mbuf, s.now⟩ ∧
      t.xpt.pool = posts.foldl (fun t p => t.put (p.1 % 2 ^ 20) p.2) s.xpt.pool ∧ t.xpt.chains = s.xpt.chains) ∧
  (∀ (entry : Fin 16384) (s : State), 
    (s.xpt.triggers.at entry.val).state = 1 →
    Completes (.triggerDisarm entry) s fun t =>
      t.xpt.triggers.at entry.val = default ∧ t.xpt.pool = s.xpt.pool) ∧
  (∀ (entry : Fin 16384) (s : State), 
    (s.xpt.triggers.at entry.val).state = 2 →
    Completes (.triggerDisarm entry) s fun t =>
      t = s) ∧
  (∀ (entry : Fin 16384) (s : State), 
    (s.xpt.triggers.at entry.val).state = 3 ∨ (s.xpt.triggers.at entry.val).state = 4 →
    Completes (.triggerReclaim entry) s fun t =>
      t.xpt.triggers.at entry.val = default) ∧
  (∀ (e : Nat) (rest : List Nat) (s : State), 
    s.xpt.waiting = e :: rest →
    chainsRunning s < 4096 →
    (s.xpt.triggers.at e).head ≠ 0xFFFFFFFF →
    Completes (.chainStart) s fun t =>
      t.xpt.waiting = rest ∧ t.xpt.chains.at e = ⟨true, [], some (s.xpt.triggers.at e).head, 0, none⟩) ∧
  (∀ (chain : Fin 16384) (wr : Nat) (p : Nat × Nat) (s : State), 
    (s.xpt.pool.at wr).opcode < 0x10 →
    (s.xpt.chains.at chain.val).inProgress = [(wr, p.2)] →
    (s.xpt.chains.at chain.val).running = true →
    (s.xpt.chains.at chain.val).next = none →
    (s.xpt.chains.at chain.val).failed = none →
    Completes (.workRequestCompletion chain wr 0) s fun t =>
      (t.xpt.triggers.at chain.val).state = 3 ∧ Emitted s t 0x555 0 0x50A chain.val ∧ t.xpt.chains.at chain.val = default) ∧
  (∀ (chain : Fin 16384) (wr index : Nat) (status : Fin 8) (s : State), 
    (s.xpt.pool.at wr).opcode < 0x10 →
    (s.xpt.chains.at chain.val).inProgress = [(wr, index)] →
    (s.xpt.chains.at chain.val).running = true →
    (s.xpt.chains.at chain.val).failed = none →
    status ≠ 0 →
    Completes (.workRequestCompletion chain wr status) s fun t =>
      (t.xpt.triggers.at chain.val).state = 4 ∧
      Emitted s t 0x555 2 0x50B (status.val * 2 ^ 32 + index * 2 ^ 16 + chain.val) ∧ t.xpt.chains.at chain.val = default) ∧
  (∀ (chain : Fin 16384) (i : Nat) (w : WorkReq) (s : State), 
    nextRequest s chain.val 0x01 = some (i, w) →
    (ctxOf s w.qpn).state = 3 →
    Completes (.wrRdmaWrite chain) s fun t =>
      (i, (s.xpt.chains.at chain.val).index) ∈ (t.xpt.chains.at chain.val).inProgress ∧
      (SendsNow s w.qpn → PacketSent t w.qpn (.write (ctxOf s w.qpn).spsn w.remoteVa w.rkey (hbmRead s w.localAddr w.length) none))) ∧
  (∀ (chain : Fin 16384) (i : Nat) (w : WorkReq) (s : State), 
    nextRequest s chain.val 0x02 = some (i, w) →
    (ctxOf s w.qpn).state = 3 →
    Completes (.wrRdmaWriteWithImmediate chain) s fun t =>
      (i, (s.xpt.chains.at chain.val).index) ∈ (t.xpt.chains.at chain.val).inProgress ∧
      (SendsNow s w.qpn → PacketSent t w.qpn (.write (ctxOf s w.qpn).spsn w.remoteVa w.rkey (hbmRead s w.localAddr w.length) (some w.imm)))) ∧
  (∀ (chain : Fin 16384) (i : Nat) (w : WorkReq) (s : State), 
    nextRequest s chain.val 0x03 = some (i, w) →
    (ctxOf s w.qpn).state = 3 →
    Completes (.wrSend chain) s fun t =>
      (i, (s.xpt.chains.at chain.val).index) ∈ (t.xpt.chains.at chain.val).inProgress ∧
      (SendsNow s w.qpn → PacketSent t w.qpn (.send (ctxOf s w.qpn).spsn (hbmRead s w.localAddr w.length) (some w.imm) none))) ∧
  (∀ (chain : Fin 16384) (i : Nat) (w : WorkReq) (s : State), 
    nextRequest s chain.val 0x04 = some (i, w) →
    (ctxOf s w.qpn).state = 3 →
    w.length ≠ 0 →
    (ctxOf s w.qpn).readsOut < (ctxOf s w.qpn).initDepth →
    w.length ≤ 0x100000 →
    Completes (.wrRdmaRead chain) s fun t =>
      (i, (s.xpt.chains.at chain.val).index) ∈ (t.xpt.chains.at chain.val).inProgress ∧
      (SendsNow s w.qpn → PacketSent t w.qpn (.readRequest (ctxOf s w.qpn).spsn w.remoteVa w.rkey w.length))) ∧
  (∀ (chain : Fin 16384) (i : Nat) (w : WorkReq) (s : State), 
    nextRequest s chain.val 0x20 = some (i, w) →
    Completes (.wrWaitUntilGts chain) s fun t =>
      (i, (s.xpt.chains.at chain.val).index) ∈ (t.xpt.chains.at chain.val).inProgress ∧
      t.out = s.out) ∧
  (∀ (chain : Fin 16384) (i : Nat) (w : WorkReq) (s : State), 
    nextRequest s chain.val 0x01 = some (i, w) →
    (ctxOf s w.qpn).state ≠ 3 →
    (s.xpt.chains.at chain.val).inProgress = [] →
    Completes (.wrRdmaWrite chain) s fun t =>
      (t.xpt.triggers.at chain.val).state = 4 ∧
      Emitted s t 0x555 2 0x50B (7 * 2 ^ 32 + (s.xpt.chains.at chain.val).index * 2 ^ 16 + chain.val)) ∧
  (∀ (chain : Fin 16384) (wr index : Nat) (s : State), 
    (s.xpt.pool.at wr).opcode = 0x20 →
    (s.xpt.chains.at chain.val).inProgress = [(wr, index)] →
    (s.xpt.chains.at chain.val).running = true →
    (s.xpt.chains.at chain.val).next = none →
    (s.xpt.chains.at chain.val).failed = none →
    Completes (.waitGtsReached chain wr) s fun t =>
      (t.xpt.triggers.at chain.val).state = 3 ∧ Emitted s t 0x555 0 0x50A chain.val) ∧
  (∀ (chain : Fin 16384) (i : Nat) (w : WorkReq) (s : State), 
    nextRequest s chain.val 0x3F = some (i, w) →
    Completes (.wrNotify chain) s fun t =>
      .notify chain.val w.imm ∈ t.out)

/-- R91, R93, R113, R115, R124: the context cache, invalidation by register, and the window onto a context. -/
def Obligations.ContextCacheAndInvalidationComplete : Prop :=
  (∀ (ctx : Nat) (dirty : Bool) (checkOk : Bool) (w : Nat × Bool) (s : State), 
    (s.xpt.cache.at (cacheSet ctx)).ways.find? (fun w => w.1 == ctx) = some w →
    Completes (.contextFill ctx dirty checkOk) s fun t =>
      (t.xpt.cache.at (cacheSet ctx)).ways = (ctx, w.2 || dirty) :: (s.xpt.cache.at (cacheSet ctx)).ways.filter (· != w) ∧
      t.xpt.misses = s.xpt.misses ∧ t.out = s.out) ∧
  (∀ (ctx : Nat) (dirty : Bool) (s : State), 
    (s.xpt.cache.at (cacheSet ctx)).ways.find? (fun w => w.1 == ctx) = none →
    (s.xpt.cache.at (cacheSet ctx)).ways.length < 16 →
    Completes (.contextFill ctx dirty true) s fun t =>
      (t.xpt.cache.at (cacheSet ctx)).ways = (ctx, dirty) :: (s.xpt.cache.at (cacheSet ctx)).ways ∧
      t.xpt.misses = (s.xpt.misses + 1) % 2 ^ 64 ∧ t.xpt.victims = s.xpt.victims) ∧
  (∀ (ctx : Nat) (dirty : Bool) (s : State), 
    ctx < 0x200000 →
    (s.xpt.cache.at (cacheSet ctx)).ways.find? (fun w => w.1 == ctx) = none →
    (s.xpt.ctx.at ctx).state = 3 →
    Completes (.contextFill ctx dirty false) s fun t =>
      (t.xpt.ctx.at ctx).state = 5 ∧ Emitted s t 0x552 1 0x502 (7 * 2 ^ 32 + (0x200000 + ctx)) ∧
      t.xpt.misses = (s.xpt.misses + 1) % 2 ^ 64) ∧
  (∀ (s : State), 
    s.xpt.fills = [] →
    Completes (.victimWriteBack) s fun t =>
      t.xpt.victims = s.xpt.victims.drop 1 ∧ t.xpt.cache = s.xpt.cache ∧ t.out = s.out) ∧
  (∀ (path : Fin 5) (session : Nat) (value : Word) (s : State), 
    MayWrite path session 0x0500006C s →
    s.xpt.invCtrl = none →
    regionIndex value.toNat < 65536 →
    (s.xpt.regions.at (regionIndex value.toNat)).state = 1 →
    (s.xpt.regions.at (regionIndex value.toNat)).key = value.toNat % 256 →
    (s.xpt.regions.at (regionIndex value.toNat)).users ≠ [] →
    Completes (.xptInvCtrl path session value) s fun t =>
      (t.xpt.regions.at (regionIndex value.toNat)).state = 2 ∧ (t.xpt.regions.at (regionIndex value.toNat)).applyGts = s.now ∧
      t.xpt.invCtrl = some value.toNat ∧ Emitted s t 0x554 0 0x506 value.toNat ∧ t.fld F.XPT_INV_STATUS_FORCED = 0) ∧
  (∀ (i : Nat) (s : State), 
    (s.xpt.regions.at i).state = 2 →
    (s.xpt.regions.at i).users ≠ [] →
    Completes (.invLimitReached i) s fun t =>
      (t.xpt.regions.at i).state = 0 ∧ (t.xpt.regions.at i).users = []) ∧
  (∀ (path : Fin 5) (session : Nat) (value : Word) (s : State), 
    MayWrite path session 0x05000078 s →
    (ctxIndex (value.toNat % 2 ^ 24)).isSome = true →
    Completes (.xptCtxSel path session value) s fun t =>
      t.fld F.XPT_CTX_SEL_DONE = 1 ∧ t.xpt = s.xpt ∧ ∀ i : Fin 32,
      t.fldI F.XPT_CTX_DATA_DATA i = ofLe (slice (ctxBytes s (value.toNat % 2 ^ 24) (ctxOf s (value.toNat % 2 ^ 24))) (4 * i) 4)) ∧
  (∀ (i q : Nat) (s : State), 
    (s.xpt.regions.at i).state = 2 →
    (s.xpt.regions.at i).users = [q] →
    (ctxIndex (q % 2 ^ 24)).isSome = true →
    (ctxOf s (q % 2 ^ 24)).state = 3 →
    Completes (.invLimitReached i) s fun t =>
      (ctxOf t (q % 2 ^ 24)).state = 5 ∧ Emitted s t 0x552 1 0x502 (8 * 2 ^ 32 + q % 2 ^ 24) ∧ .cmDreq (q % 2 ^ 24) ∈ t.out) ∧
  (∀ (path : Fin 5) (session : Nat) (value : Word) (s : State), 
    MayWrite path session 0x0500006C s →
    s.xpt.invCtrl.isSome = true →
    Completes (.xptInvCtrl path session value) s fun t =>
      t.fld F.XPT_INV_STATUS_REFUSED = 1 ∧ t.xpt = s.xpt)

/-- R170 to R181, R187 to R189: the fixity engine. -/
def Obligations.FixityCompletes : Prop :=
  (∀ (chain : Fin 16384) (i : Nat) (w : WorkReq) (s : State), 
    nextRequest s chain.val 0x10 = some (i, w) →
    Completes (.wrDriveRead chain) s fun t =>
      (i, (s.xpt.chains.at chain.val).index) ∈ (t.xpt.chains.at chain.val).inProgress ∧ (entryOf t (wrSlot i)).live = true ∧
      (entryOf t (wrSlot i)).cap.opc = 0x02 ∧ (entryOf t (wrSlot i)).cap.xlen = w.length ∧
      (entryOf t (wrSlot i)).cap.nsid = argLe w 40 4 ∧
      (((s.lay.sets.at (argLe w 44 4)).rows.at (argLe w 48 2)).extent ≠ argLe w 56 8 ∨ keyReady s (argLe w 40 4) = false →
        (entryOf t (wrSlot i)).state = .posting ∧ (entryOf t (wrSlot i)).status = stUnrecovered)) ∧
  (∀ (chain : Fin 16384) (i : Nat) (w : WorkReq) (us : List (Nat × Nat × Nat)) (s : State), 
    nextRequest s chain.val 0x10 = some (i, w) →
    ((s.lay.sets.at (argLe w 44 4)).rows.at (argLe w 48 2)).extent = argLe w 56 8 ∧ keyReady s (argLe w 40 4) = true →
    argLe w 50 1 % 2 = 0 →
    segUnits s [⟨false, (w.length + nsDus s (argLe w 40 4) - 1) / nsDus s (argLe w 40 4) * nsDus s (argLe w 40 4),
    argLe w 44 4, argLe w 48 2, argLe w 52 4, argLe w 56 8⟩] = us ∧ us ≠ [] →
    ∀ r ∈ rowsAmong us, rowPlan s [] r.1 r.2 (neededIn us r) = some (neededIn us r) →
    Completes (.wrDriveRead chain) s fun t =>
      (i, (s.xpt.chains.at chain.val).index) ∈ (t.xpt.chains.at chain.val).inProgress ∧ (entryOf t (wrSlot i)).live = true ∧
      (entryOf t (wrSlot i)).state = .drive ∧ (entryOf t (wrSlot i)).readsOut.map (fun x => (x.set, x.row, x.unit)) =
        (rowsAmong us).flatMap fun r => (neededIn us r).map fun u => (r.1, r.2, u)) ∧
  (∀ (chain : Fin 16384) (i : Nat) (w : WorkReq) (s : State), 
    nextRequest s chain.val 0x11 = some (i, w) →
    Completes (.wrDriveWrite chain) s fun t =>
      (i, (s.xpt.chains.at chain.val).index) ∈ (t.xpt.chains.at chain.val).inProgress ∧ (entryOf t (wrSlot i)).live = true ∧
      (entryOf t (wrSlot i)).data = hbmRead s w.localAddr w.length ∧ (entryOf t (wrSlot i)).cap.nsid = argLe w 40 4 ∧
      (entryOf t (wrSlot i)).digest = Config.sha256 (hbmRead s w.localAddr w.length)) ∧
  (∀ (chain : Fin 16384) (i : Nat) (w : WorkReq) (s : State), 
    nextRequest s chain.val 0x12 = some (i, w) →
    (s.xpt.chains.at chain.val).inProgress = [] →
    bitAt w.flags 1 = true ∨ w.next = 0xFFFFFFFF →
    Completes (.wrDigestCheck chain) s fun t =>
      (digestBytes (Config.sha256 (hbmRead s w.localAddr w.length)) = hbmRead s (argLe w 40 8) 32 →
        (t.xpt.triggers.at chain.val).state = 3 ∧ Emitted s t 0x555 0 0x50A chain.val) ∧
      (digestBytes (Config.sha256 (hbmRead s w.localAddr w.length)) ≠ hbmRead s (argLe w 40 8) 32 →
        (t.xpt.triggers.at chain.val).state = 4 ∧
        Emitted s t 0x555 2 0x50B (4 * 2 ^ 32 + (s.xpt.chains.at chain.val).index * 2 ^ 16 + chain.val))) ∧
  (∀ (chain : Fin 16384) (i : Nat) (w : WorkReq) (s : State), 
    nextRequest s chain.val 0x13 = some (i, w) →
    (s.xpt.chains.at chain.val).inProgress = [] →
    bitAt w.flags 1 = true ∨ w.next = 0xFFFFFFFF →
    Completes (.wrCustodyRecord chain) s fun t =>
      (t.fix.custody.any fun x => x.1 == [0x57] ++ leBytes 8 (argLe w 56 8) ++ leBytes 4 (chainWindow s chain.val)) = true ∧
      Emitted s t 0x555 0 0x50A chain.val) ∧
  (∀ (chain : Fin 16384) (i k : Nat) (w : WorkReq) (s : State), 
    nextRequest s chain.val 0x14 = some (i, w) →
    (s.xpt.chains.at chain.val).inProgress = [] →
    bitAt w.flags 1 = true ∨ w.next = 0xFFFFFFFF →
    (cipTest s (chainCipher w .gcmSeal (envelopeHead w.length w.imm (argLe w 44 2)) (hbmRead s (argLe w 48 8) 256) (hbmRead s w.localAddr w.length) [])).toOption = some k →
    Completes (.wrEnvelopeSeal chain) s fun t =>
      (t.cip.slots.at k).seals = (s.cip.slots.at k).seals + 1 ∧ t.cip.ops = (s.cip.ops + 1) % 2 ^ 64 ∧
      Emitted s t 0x555 0 0x50A chain.val ∧
      t.xpt.hbm = (hbmWrite (argLe w 56 8) (envelopeHead w.length w.imm (argLe w 44 2) ++
        Config.gcmText (s.cip.slots.at k).key (slice (envelopeHead w.length w.imm (argLe w 44 2)) 8 12) (hbmRead s w.localAddr w.length) ++
        Config.gcmTag (s.cip.slots.at k).key (slice (envelopeHead w.length w.imm (argLe w 44 2)) 8 12)
          (hbmRead s (argLe w 48 8) 256 ++ envelopeHead w.length w.imm (argLe w 44 2))
          (Config.gcmText (s.cip.slots.at k).key (slice (envelopeHead w.length w.imm (argLe w 44 2)) 8 12) (hbmRead s w.localAddr w.length))) s).xpt.hbm) ∧
  (∀ (chain : Fin 16384) (i : Nat) (w : WorkReq) (s : State), 
    nextRequest s chain.val 0x15 = some (i, w) →
    (s.xpt.chains.at chain.val).inProgress = [] →
    bitAt w.flags 1 = true ∨ w.next = 0xFFFFFFFF →
    w.length < 48 →
    Completes (.wrEnvelopeOpen chain) s fun t =>
      t.xpt.hbm = s.xpt.hbm ∧ t.cip = s.cip ∧ (t.xpt.triggers.at chain.val).state = 4 ∧
      Emitted s t 0x555 2 0x50B (6 * 2 ^ 32 + (s.xpt.chains.at chain.val).index * 2 ^ 16 + chain.val)) ∧
  (∀ (chain : Fin 16384) (i k : Nat) (w : WorkReq) (s : State), 
    nextRequest s chain.val 0x15 = some (i, w) →
    (s.xpt.chains.at chain.val).inProgress = [] →
    bitAt w.flags 1 = true ∨ w.next = 0xFFFFFFFF →
    48 ≤ w.length →
    (cipTest s (chainCipher w .gcmOpen ((hbmRead s w.localAddr w.length).take 32) (hbmRead s (argLe w 48 8) 256) (slice (hbmRead s w.localAddr w.length) 32 (w.length - 48)) ((hbmRead s w.localAddr w.length).drop (w.length - 16)))).toOption = some k →
    Completes (.wrEnvelopeOpen chain) s fun t =>
      ((cipResult (chainCipher w .gcmOpen ((hbmRead s w.localAddr w.length).take 32) (hbmRead s (argLe w 48 8) 256)
        (slice (hbmRead s w.localAddr w.length) 32 (w.length - 48)) ((hbmRead s w.localAddr w.length).drop (w.length - 16)))
        (s.cip.slots.at k).key).toOption.isSome = true → (t.xpt.triggers.at chain.val).state = 3 ∧ Emitted s t 0x555 0 0x50A chain.val) ∧
      ((cipResult (chainCipher w .gcmOpen ((hbmRead s w.localAddr w.length).take 32) (hbmRead s (argLe w 48 8) 256)
        (slice (hbmRead s w.localAddr w.length) 32 (w.length - 48)) ((hbmRead s w.localAddr w.length).drop (w.length - 16)))
        (s.cip.slots.at k).key).toOption = none → t.xpt.hbm = s.xpt.hbm ∧ (t.xpt.triggers.at chain.val).state = 4 ∧
          Emitted s t 0x555 2 0x50B (5 * 2 ^ 32 + (s.xpt.chains.at chain.val).index * 2 ^ 16 + chain.val))) ∧
  (∀ (b : Batch) (rest : List Batch) (s : State), 
    isActive s = true →
    s.fix.opened = b :: rest →
    s.fix.closed.length < 64 →
    Completes (.batchClosed) s fun t =>
      t.fix.opened = rest ∧ t.fix.lastSeq = s.fix.lastSeq + 1 ∧ t.fix.closed.length = s.fix.closed.length + 1 ∧
      t.fix.closedTo = b.stop ∧ t.fix.sealed = s.fix.sealed ∧
      Emitted s t 0x581 0 0x801 (b2n b.early * 2 ^ 35 + min b.all.length (2 ^ 32 - 1))) ∧
  (∀ (b : Batch) (rest : List Batch) (s : State), 
    isActive s = true →
    s.fix.opened = b :: rest →
    s.fix.closed.length = 7 →
    Completes (.batchClosed) s fun t =>
      Emitted s t 0x581 2 0x803 8) ∧
  (∀ (b : Batch) (rest : List Batch) (s : State), 
    isActive s = true →
    s.fix.opened = b :: rest →
    64 ≤ s.fix.closed.length →
    Completes (.batchClosed) s fun t =>
      t.fix.closed = s.fix.closed ∧ t.fix.lastSeq = s.fix.lastSeq ∧
      t.fix.opened.head?.map (·.stop) = some ((b.stop / periodAt s b.stop + 1) * periodAt s b.stop)) ∧
  (∀ (s : State), 
    isActive s = false →
    Completes (.batchClosed) s fun t =>
      t = s) ∧
  (∀ (signMs : Nat) (b : Batch) (s : State), 
    isActive s = true →
    s.fix.recomputing = false →
    s.fix.closed = [b] →
    b.object = [] →
    findKey s storeNsid (sealKey b.seq) = none →
    Completes (.batchSealed signMs) s fun t =>
      t.fix.closed = [{ b with seed := hedge s, object := sealedObject s { b with seed := hedge s } }] ∧ t.fix.sealed = s.fix.sealed ∧
      t.fld F.FIX_SIGN_TIME_LAST_MS = min signMs 65535) ∧
  (∀ (signMs : Nat) (b : Batch) (s : State), 
    isActive s = true →
    s.fix.recomputing = false →
    s.fix.closed = [b] →
    batchStored s b = true →
    Completes (.batchSealed signMs) s fun t =>
      t.fix.closed = [] ∧ t.fix.sealed = s.fix.sealed ++ [b] ∧ Emitted s t 0x581 0 0x802 b.seq ∧
      t.fld F.FIX_SIGN_TIME_MAX_MS = max (s.fld F.FIX_SIGN_TIME_MAX_MS) (min ((s.now - b.closedGts) / 1000000) 65535)) ∧
  (∀ (units : List (Nat × Nat × UnitRead)) (s : State), 
    s.fix.recomputing = true →
    Completes (.leavesRecomputed units) s fun t =>
      t.fix.recomputing = false ∧ Emitted s t 0x581 2 0x804
      ((writesAbove s (lastSealedJseq s) s.fix.replayTo).foldl (recompute (passing s units)) (s, 0)).2) ∧
  (∀ (extent : Nat) (units : List (Nat × Nat × UnitRead)) (l : Leaf) (segs : List Seg) (plain : Bytes) (s : State), 
    s.fld F.FIX_AUDIT_CFG_CYCLE_DAYS ≠ 0 →
    extent ∈ liveObjects s →
    leafOfExtent s extent = some l →
    leafSegs s l.extent (leafBytesLen l) = some segs →
    (passing s units).length = units.length →
    plainOf s l.nsid segs (passing s units) = some plain →
    Completes (.fixityAuditObject extent units) s fun t =>
      Config.sha256 (plain.take (leafBytesLen l)) = l.digest → t = auditAdvance extent s) ∧
  (∀ (extent : Nat) (units : List (Nat × Nat × UnitRead)) (l : Leaf) (segs : List Seg) (plain : Bytes) (s : State), 
    s.fld F.FIX_AUDIT_CFG_CYCLE_DAYS ≠ 0 →
    extent ∈ liveObjects s →
    leafOfExtent s extent = some l →
    leafSegs s l.extent (leafBytesLen l) = some segs →
    (passing s units).length = units.length →
    plainOf s l.nsid segs (passing s units) = some plain →
    segUnits s segs = [] →
    Completes (.fixityAuditObject extent units) s fun t =>
      Config.sha256 (plain.take (leafBytesLen l)) ≠ l.digest → Emitted s t 0x582 4 0x805 extent ∧ extent ∈ t.fix.suspects ∧
      t.fld F.FIX_AUDIT_STAT_MISMATCHES = min F.FIX_AUDIT_STAT_MISMATCHES.max (s.fld F.FIX_AUDIT_STAT_MISMATCHES + 1)) ∧
  (∀ (chain : Fin 16384) (wr index : Nat) (status : Fin 8) (s : State), 
    (s.xpt.pool.at wr).opcode = 0x10 →
    (entryOf s (wrSlot wr)).live = true ∧ (entryOf s (wrSlot wr)).state = .posting ∧ (entryOf s (wrSlot wr)).status = stOk →
    (s.xpt.chains.at chain.val).inProgress = [(wr, index)] →
    (s.xpt.chains.at chain.val).running = true →
    (s.xpt.chains.at chain.val).next = none →
    (s.xpt.chains.at chain.val).failed = none →
    Completes (.workRequestCompletion chain wr status) s fun t =>
      (t.xpt.triggers.at chain.val).state = 3 ∧ Emitted s t 0x555 0 0x50A chain.val ∧ (entryOf t (wrSlot wr)).live = false)

/-- R279 to R298: the cipher complex. -/
def Obligations.CipherCompletes : Prop :=
  (∀ (r : CipherReq) (i : Nat) (s : State), 
    (cipTest s r).toOption = some i →
    Completes (.cipherRequest r) s fun t =>
      t.cip.opNext = s.cip.opNext + 1 ∧ (t.cip.running.at (s.cip.opNext + 1)).req = r ∧
      (t.cip.running.at (s.cip.opNext + 1)).key = (s.cip.slots.at i).key ∧
      (t.cip.running.at (s.cip.opNext + 1)).left = segmentCount r.data.length ∧ t.out = s.out ∧
      (t.cip.slots.at i).seals = (s.cip.slots.at i).seals + if r.mode = .gcmSeal then 1 else 0) ∧
  (∀ (r : CipherReq) (s : State), 
    r.keyPage ≠ r.page →
    Completes (.cipherRequest r) s fun t =>
      .cipher r.page r.handle 1 [] [] ∈ t.out ∧ Emitted s t 0x5A2 3 0xA03 (r.page * 2 ^ 16 + r.handle % 2 ^ 16) ∧
      t.cip = s.cip ∧ t.fld F.CIP_ERR_COUNT_PAGE = min F.CIP_ERR_COUNT_PAGE.max (s.fld F.CIP_ERR_COUNT_PAGE + 1)) ∧
  (∀ (lane : Fin 64) (x : CSeg) (rest : List CSeg) (s : State), 
    s.cip.lanes.at lane.val = x :: rest →
    1 < (s.cip.running.at x.op).left →
    Completes (.cipherSegmentDone lane true) s fun t =>
      t.cip.lanes.at lane.val = rest ∧ (t.cip.running.at x.op).left = (s.cip.running.at x.op).left - 1 ∧ t.out = s.out) ∧
  (∀ (lane : Fin 64) (x : CSeg) (rest : List CSeg) (o : CipherOp) (d g : Bytes) (s : State), 
    s.cip.lanes.at lane.val = x :: rest →
    s.cip.running.at x.op = o →
    o.left = 1 ∧ o.req.mode = .gcmSeal ∧ o.entry = none →
    Completes (.cipherSegmentDone lane true) s fun t =>
      d = Config.gcmText o.key o.req.iv o.req.data ∧ g = Config.gcmTag o.key o.req.iv o.req.aad d →
      .cipher o.req.page o.req.handle 0 d g ∈ t.out ∧ t.cip.ops = (s.cip.ops + 1) % 2 ^ 64 ∧ t.cip.running.at x.op = default) ∧
  (∀ (lane : Fin 64) (s : State), 
    fencedUnit s 10 lane.val = false →
    Completes (.laneKnownAnswerTest lane false) s fun t =>
      fencedUnit t 10 lane.val = true ∧ t.out = s.out) ∧
  (∀ (lane : Fin 64) (s : State), 
    Completes (.laneKnownAnswerTest lane true) s fun t =>
      t = s) ∧
  (∀ (path : Fin 5) (session : Nat) (value : Word) (s : State), 
    MayWrite path session (F.CIP_KEY_ORDER_OP.addr 0) s →
    s.cip.order = none →
    Completes (.keyGenerate path session value) s fun t =>
      t.cip.order = some ⟨1, bitsOf value.toNat 27 24, bitsOf value.toNat 11 0, s.fld F.CIP_KEY_ARG_HANDLE,
        s.fld F.CIP_KEY_ARG_WRAP_HANDLE, if path.val = 4 then 0 else session, 0⟩ ∧ t.fld F.CIP_KEY_STAT_BUSY = 1 ∧
      t.cip.slots = s.cip.slots) ∧
  (∀ (path : Fin 5) (session : Nat) (value : Word) (s : State), 
    MayWrite path session (F.CIP_KEY_ORDER_OP.addr 0) s →
    s.cip.order = none →
    Completes (.keyImport path session value) s fun t =>
      t.cip.order = some ⟨2, bitsOf value.toNat 27 24, bitsOf value.toNat 11 0, s.fld F.CIP_KEY_ARG_HANDLE,
        s.fld F.CIP_KEY_ARG_WRAP_HANDLE, if path.val = 4 then 0 else session, 0⟩ ∧ t.fld F.CIP_KEY_STAT_BUSY = 1 ∧
      t.cip.slots = s.cip.slots) ∧
  (∀ (path : Fin 5) (session : Nat) (value : Word) (s : State), 
    MayWrite path session (F.CIP_KEY_ORDER_OP.addr 0) s →
    s.cip.order = none →
    Completes (.keyExport path session value) s fun t =>
      t.cip.order = some ⟨3, bitsOf value.toNat 27 24, bitsOf value.toNat 11 0, s.fld F.CIP_KEY_ARG_HANDLE,
        s.fld F.CIP_KEY_ARG_WRAP_HANDLE, if path.val = 4 then 0 else session, 0⟩ ∧ t.fld F.CIP_KEY_STAT_BUSY = 1 ∧
      t.cip.slots = s.cip.slots) ∧
  (∀ (path : Fin 5) (session : Nat) (value : Word) (i : Nat) (s : State), 
    MayWrite path session (F.CIP_KEY_ORDER_OP.addr 0) s →
    s.cip.order = none →
    slotOf s (bitsOf value.toNat 11 0) (s.fld F.CIP_KEY_ARG_HANDLE) = some i →
    keyInUse s (s.cip.slots.at i) = false →
    Completes (.keyDestroy path session value) s fun t =>
      (t.cip.slots.at i).state ≠ 1 ∧ (t.cip.slots.at i).key = [] ∧ (t.cip.order.map fun o => (o.op, o.result)) = some (4, 1) ∧ t.fld F.CIP_KEY_STAT_BUSY = 1) ∧
  (∀ (path : Fin 5) (session : Nat) (value : Word) (s : State), 
    MayWrite path session (F.CIP_KEY_ORDER_OP.addr 0) s →
    s.cip.order = none →
    Completes (.keyEscrowAgain path session value) s fun t =>
      t.cip.order = some ⟨5, bitsOf value.toNat 27 24, bitsOf value.toNat 11 0, s.fld F.CIP_KEY_ARG_HANDLE,
        s.fld F.CIP_KEY_ARG_WRAP_HANDLE, if path.val = 4 then 0 else session, 0⟩ ∧ t.fld F.CIP_KEY_STAT_BUSY = 1 ∧
      t.cip.slots = s.cip.slots) ∧
  (∀ (path : Fin 5) (session : Nat) (value : Word) (o : KeyOrder) (s : State), 
    MayWrite path session (F.CIP_KEY_ORDER_OP.addr 0) s →
    s.cip.order = some o →
    Completes (.keyGenerate path session value) s fun t =>
      t.cip = s.cip ∧ t.fld F.CIP_KEY_STAT_REFUSED = 1) ∧
  (∀ (o : KeyOrder) (r h : Nat) (s : State), 
    s.cip.order = some o →
    (runKeyOrder o s).2 = (r, h) →
    Completes (.keyOrderDone) s fun t =>
      t.cip.order = none ∧ t.fld F.CIP_KEY_STAT_BUSY = 0 ∧ t.fld F.CIP_KEY_STAT_RESULT = r % 16 ∧
      Emitted s t 0x5A1 1 0xA06 (o.op * 2 ^ 32 + r * 2 ^ 28 + o.page * 2 ^ 16 + h))

/-- R303, R305, R306, R310, R313: device trust. -/
def Obligations.TrustCompletes : Prop :=
  (∀ (path : Fin 5) (session : Nat) (value : Word) (s : State), 
    MayWrite path session (F.TRU_ORDER_OP.addr 0) s →
    s.tru.rotation < 63 →
    Completes (.truRotate path session value) s fun t =>
      t.tru.rotation = s.tru.rotation + 1 ∧ t.fld F.TRU_ORDER_STAT_RESULT = 1 ∧
      Emitted s t 0x5B0 1 0xB07 ((s.tru.rotation + 1) % 64 * 256 + 1) ∧ t.tru.fuseSvn = s.tru.fuseSvn) ∧
  (∀ (path : Fin 5) (session : Nat) (value : Word) (s : State), 
    MayWrite path session (F.TRU_ORDER_OP.addr 0) s →
    (s.ctl.firmware.any fun e => e.2.valid && decide (e.2.svn < s.fld F.TRU_STAT_FW_SVN)) = false →
    Completes (.truRollback path session value) s fun t =>
      t.tru.fuseSvn = max (s.fld F.TRU_STAT_FW_SVN) s.tru.fuseSvn ∧ t.fld F.TRU_ORDER_STAT_RESULT = 1 ∧
      Emitted s t 0x5B0 1 0xB07 (max (s.fld F.TRU_STAT_FW_SVN) s.tru.fuseSvn % 64 * 256 + 2)) ∧
  (∀ (path : Fin 5) (session : Nat) (value : Word) (s : State), 
    MayWrite path session (F.TRU_ORDER_OP.addr 0) s →
    (s.ctl.firmware.any fun e => e.2.valid && decide (e.2.svn < s.fld F.TRU_STAT_FW_SVN)) = true →
    Completes (.truRollback path session value) s fun t =>
      t.tru = s.tru ∧ t.fld F.TRU_ORDER_STAT_RESULT = 5) ∧
  (∀ (path : Fin 5) (session : Nat) (value : Word) (s : State), 
    MayWrite path session (F.TRU_ORDER_OP.addr 0) s →
    path ≠ 4 →
    s.cip.mailboxSession = session →
    s.cip.mailbox.length = 64 →
    s.tru.imageSigner ≠ some (bitsOf value.toNat 1 0) →
    Completes (.truEnrolImageKey path session value) s fun t =>
      t.tru.imageKeys.at (bitsOf value.toNat 1 0) = s.cip.mailbox ∧ t.fld F.TRU_ORDER_STAT_RESULT = 1 ∧
      Emitted s t 0x5B0 1 0xB07 3) ∧
  (∀ (path : Fin 5) (session : Nat) (value : Word) (s : State), 
    MayWrite path session (F.TRU_ORDER_OP.addr 0) s →
    s.tru.imageSigner ≠ some (bitsOf value.toNat 1 0) →
    Completes (.truRemoveImageKey path session value) s fun t =>
      t.tru.imageKeys.at (bitsOf value.toNat 1 0) = [] ∧ t.fld F.TRU_ORDER_STAT_RESULT = 1 ∧ Emitted s t 0x5B0 1 0xB07 4) ∧
  (∀ (path : Fin 5) (session : Nat) (value : Word) (s : State), 
    MayWrite path session (F.TRU_ORDER_OP.addr 0) s →
    s.tru.imageSigner = some (bitsOf value.toNat 1 0) →
    Completes (.truRemoveImageKey path session value) s fun t =>
      t.tru = s.tru ∧ t.fld F.TRU_ORDER_STAT_RESULT = 6) ∧
  (∀ (test : Fin 2) (s : State), 
    Completes (.entropyFail test) s fun t =>
      t.fld F.TRU_STAT_ENTROPY_OK = 0 ∧ t.fld F.TRU_STAT_DETERMINISTIC = 1 ∧ Emitted s t 0x5B4 4 0xB03 test.val) ∧
  (∀ (s : State), 
    Completes (.entropyOk) s fun t =>
      t.fld F.TRU_STAT_ENTROPY_OK = 1 ∧ t.fld F.TRU_STAT_DETERMINISTIC = 0 ∧ Emitted s t 0x5B4 1 0xB04 0)

/-- R130, R133, R141, R143, R153, R494: lanes, sets, checkpoints and the replay. -/
def Obligations.LayoutSetsComplete : Prop :=
  (∀ (lane : Fin 16) (x : Slice) (s : State), 
    s.lay.lanes.look lane.val = some x →
    s.lay.laneQueue = [] →
    x.decode = false →
    Completes (.layoutSliceDone lane true) s fun t =>
      t.lay = { s.lay with lanes := s.lay.lanes.del lane.val } ∧ t.out = s.out) ∧
  (∀ (lane : Fin 16) (x : Slice) (s : State), 
    s.lay.lanes.look lane.val = some x →
    fencedUnit s 7 lane.val = false →
    inGroup s = false →
    Completes (.layoutSliceDone lane false) s fun t =>
      fencedUnit t 7 lane.val = true ∧ (entryOf t x.entry).exempt = true ∧ t.lay.lanes.look lane.val = none) ∧
  (∀ (set : Nat) (s : State), 
    (s.lay.sets.at set).state = .opened →
    Completes (.sealIdleTimeout set) s fun t =>
      (t.lay.sets.at set).state = .sealing ∧ (t.lay.sets.at set).reason = 1 ∧ t.cmd.table = s.cmd.table) ∧
  (∀ (set : Nat) (s : State), 
    (s.lay.sets.at set).state = .sealing →
    (s.lay.sets.at set).sealDurable = true →
    headersOut s (s.lay.sets.at set) = false →
    Completes (.setSealed set) s fun t =>
      ((t.lay.sets.at set).state = .sealed ∨ (t.lay.sets.at set).state = .reclaiming) ∧
      Emitted s t 0x571 0 0x70F ((s.lay.sets.at set).reason * 2 ^ 32 + set)) ∧
  (∀ (set : Nat) (units : List (Nat × UnitRead)) (s : State), 
    (s.lay.sets.at set).state = .reclaiming →
    liveExtents s set = [] →
    liveRows s set = 0 →
    s.lay.full = false →
    mayDrive s = true →
    copiesC s ≤ (slotsInService s).length →
    (entriesWhere s fun e => e.moves.any fun x => x.1 == set) = [] →
    s.fix.storeWait = [] →
    Completes (.reclaimDone set units) s fun t =>
      (t.lay.sets.at set).state = .free ∧ (t.lay.sets.at set).members = [] ∧
      (t.lay.sets.at set).gen = (s.lay.sets.at set).gen + 1 ∧ Emitted s t 0x575 0 0x710 set) ∧
  (∀ (regions : List (Bool × Bytes)) (tail : List JRec) (headers : List (Nat × Nat × RowInfo)) (store : List (Bytes × Bytes)) (s : State), 
    s.lay.replayEnded = false →
    isActive s = true →
    Completes (.journalReplayDone regions tail headers store) s fun t =>
      t.lay.replayEnded = true ∧ t.fix.recomputing = true ∧ t.now = s.now ∧
      ((newestCkpt regions).all fun b =>
        decide (t.lay.ckpt.durableGen = leAt b.2 8 8 ∧ t.lay.ckpt.durableJseq = leAt b.2 16 8)) = true) ∧
  (∀ (s : State), 
    s.fld F.LAY_CKPT_CFG_INTERVAL_S ≠ 0 →
    s.lay.ckpt.busy = false →
    copiesC s ≤ (slotsInService s).length →
    s.lay.replayEnded = true →
    Completes (.ckptInterval) s fun t =>
      t.lay.ckpt.busy = true ∧ t.lay.ckpt.gen = s.lay.ckpt.gen + 1 ∧ t.lay.ckpt.startGts = s.now ∧
      t.lay.ckpt.jseq = ckptJseq s ∧ t.lay.ckpt.pendingSlots = (slotsInService s).take (copiesC s)) ∧
  (∀ (path : Fin 5) (session : Nat) (value : Word) (s : State), 
    MayWrite path session (F.LAY_CKPT_CTRL_START.addr 0) s →
    bitAt value.toNat 0 = true →
    s.lay.ckpt.busy = false →
    copiesC s ≤ (slotsInService s).length →
    s.lay.replayEnded = true →
    Completes (.layCkptCtrlStart path session value) s fun t =>
      t.lay.ckpt.busy = true ∧ t.lay.ckpt.gen = s.lay.ckpt.gen + 1 ∧ t.lay.ckpt.startGts = s.now) ∧
  (∀ (slot other : Fin 48) (s : State), 
    s.lay.ckpt.busy = true →
    s.lay.ckpt.pendingSlots.contains slot.val = true →
    s.lay.ckpt.pendingSlots.contains other.val = true →
    slot ≠ other →
    Completes (.checkpointWriteCompletion slot .ok) s fun t =>
      t.lay.ckpt.pendingSlots = s.lay.ckpt.pendingSlots.filter (· != slot.val) ∧ t.lay.ckpt.busy = true ∧
      t.lay.ckpt.durableGen = s.lay.ckpt.durableGen) ∧
  (∀ (slot : Fin 48) (s : State), 
    s.lay.ckpt.busy = true →
    s.lay.ckpt.pendingSlots = [slot.val] →
    (s.lay.drives.any fun e => e.2.joining) = false →
    s.lay.waitingJournal = [] →
    s.fix.storeWait = [] →
    Completes (.checkpointWriteCompletion slot .ok) s fun t =>
      t.lay.ckpt.busy = false ∧ t.lay.ckpt.durableGen = s.lay.ckpt.gen ∧ t.lay.ckpt.durableJseq = s.lay.ckpt.jseq ∧
      t.lay.ckpt.regionB = !s.lay.ckpt.regionB ∧ Emitted s t 0x574 0 0x70A (s.lay.ckpt.gen % 2 ^ 36)) ∧
  (∀ (slot : Fin 48) (s : State), 
    s.lay.ckpt.busy = true →
    s.lay.ckpt.pendingSlots.contains slot.val = true →
    (s.lay.drives.at slot.val).state = 1 →
    Completes (.checkpointWriteCompletion slot .failed) s fun t =>
      (t.lay.drives.at slot.val).state = 2 ∧ Emitted s t 0x572 3 0x701 ((setsOn s slot.val).length * 256 + slot.val))

/-- R146, R147, R150 to R152, R164: rebuild, repair, scrub and drives. -/
def Obligations.LayoutRepairsComplete : Prop :=
  (∀ (rows : List (List UnitRead)) (id n : Nat) (m : Member) (s : State), 
    s.lay.rebuild.target = some (id, n, m) →
    s.lay.rebuild.written = false →
    s.lay.full = false →
    mayDrive s = true →
    Completes (.rebuildSetDone rows) s fun t =>
      t.lay.rebuild.written = true ∧ t.lay.sets = s.lay.sets ∧ WriteUnderWay t m.slot (headerLba m.chunk) ∧
      ∀ p ∈ (List.range rows.length).zip rows, unitWritten (setGeom s id) ((s.lay.sets.at id).rows.at p.1) n = true →
        (recoverUnit s id p.1 n p.2).isSome = true → WriteUnderWay t m.slot (unitLba s m (setGeom s id).u p.1)) ∧
  (∀ (set row unit : Nat) (units : List UnitRead) (b : Bytes) (s : State), 
    s.lay.repairs.contains (set, row, unit) = true →
    (units.any fun x => x.unit == unit && unitPasses s set row x) = false →
    recoverUnit s set row unit units = some b →
    mayDrive s = true →
    Completes (.readRepair set row unit units) s fun t =>
      WriteUnderWay t ((s.lay.sets.at set).members.getD unit default).slot (ioLba s set row unit) ∧
      (DriveTakes s ((s.lay.sets.at set).members.getD unit default).slot (.driveWrite ((s.lay.sets.at set).members.getD unit default).slot (ioLba s set row unit) b false) →
        .driveWrite ((s.lay.sets.at set).members.getD unit default).slot (ioLba s set row unit) b false ∈ t.out) ∧
      t.lay.repairs = s.lay.repairs.filter (· != (set, row, unit)) ∧ t.lay.sets = s.lay.sets) ∧
  (∀ (slot : Fin 48) (s : State), 
    (s.lay.drives.at slot.val).state = 3 →
    Completes (.driveReturned slot) s fun t =>
      (t.lay.drives.at slot.val).state = 1 ∧ Emitted s t 0x572 1 0x704 ((lostOn s slot.val).length * 256 + slot.val)) ∧
  (∀ (set row : Nat) (units : List UnitRead) (s : State), 
    s.fld F.LAY_CFG_SCRUB_EN = 1 →
    (s.lay.sets.at set).state = .sealed →
    row < (s.lay.sets.at set).rowsUsed →
    mayDrive s = true →
    units.all (unitPasses s set row) = true →
    Completes (.scrubRow set row units) s fun t =>
      (t.lay.scrubRows = s.lay.scrubRows.upd (s.lay.sets.at set).nsid (· + 1) ∨ (t.lay.scrubRows = [] ∧ t.lay.scrubStart = s.now)) ∧
      t.out = s.out ∧ t.lay.scrubRepairs = s.lay.scrubRepairs) ∧
  (∀ (set row : Nat) (x : UnitRead) (units : List UnitRead) (b : Bytes) (s : State), 
    s.fld F.LAY_CFG_SCRUB_EN = 1 →
    (s.lay.sets.at set).state = .sealed →
    row < (s.lay.sets.at set).rowsUsed →
    mayDrive s = true →
    unitPasses s set row x = false ∧ units.all (unitPasses s set row) = true →
    recoverUnit s set row x.unit (x :: units) = some b →
    Completes (.scrubRow set row (x :: units)) s fun t =>
      WriteUnderWay t ((s.lay.sets.at set).members.getD x.unit default).slot (ioLba s set row x.unit) ∧
      Emitted s t 0x573 1 0x708 (((s.lay.sets.at set).members.getD x.unit default).slot * 2 ^ 30 + set) ∧
      t.lay.scrubRepairs = s.lay.scrubRepairs.upd (s.lay.sets.at set).nsid (· + 1)) ∧
  (∀ (path : Fin 5) (session : Nat) (value : Word) (slot : Nat) (s : State), 
    MayWrite path session (F.LAY_FORMAT_ORDER_CONFIRM.addr 0) s →
    bitsOf value.toNat 31 24 = 0xA5 ∧ bitsOf value.toNat 5 0 = slot ∧ slot < 48 →
    (s.lay.drives.at slot).state = 0 ∨ (s.lay.drives.at slot).state = 4 →
    isActive s = true →
    s.lay.replayEnded = true →
    served s slot = true ∧ (freeIndex s slot).isSome = true →
    2 ^ 28 ≤ (portOf s slot).lbaCount →
    Completes (.layFormatOrder path session value) s fun t =>
      (t.lay.drives.at slot).state = 1 ∧ (t.lay.drives.at slot).uuid = s.freeVal.toNat % 2 ^ 128 ∧ t.free = s.free + 1 ∧
      (t.lay.drives.at slot).lbaCount = (portOf s slot).lbaCount)

/-- R182 to R192, R194: migration jobs. -/
def Obligations.MigrationCompletes : Prop :=
  (∀ (job : Fin 16) (count : Nat) (trigger : Fin 16384) (place : WindowPlace) (units : List (Nat × Nat × UnitRead)) (s : State), 
    (jobOf s job.val).target = false →
    (jobOf s job.val).state = 2 ∨ (jobOf s job.val).state = 3 ∨ (jobOf s job.val).state = 4 →
    (jobOf s job.val).windows.length < s.fld F.FIX_MIG_CFG_WINDOWS →
    regionFree (jobOf s job.val) place.region = true →
    (s.xpt.triggers.at trigger.val).state = 0 →
    planned s job.val count units ≠ [] →
    Completes (.migWindowPlanned job count trigger place units) s fun t =>
      (jobOf t job.val).windows = (jobOf s job.val).windows ++
        [⟨(jobOf s job.val).windowNext, trigger.val, place.region, (planned s job.val count units).map (·.obj)⟩] ∧
      (jobOf t job.val).windowNext = (jobOf s job.val).windowNext + 1 ∧ (t.xpt.triggers.at trigger.val).state = 1 ∧
      (t.xpt.triggers.at trigger.val).tag = migTag 1 job.val (jobOf s job.val).windowNext ∧
      ((ctxOf s (jobOf s job.val).qpn).state = 3 → SendsNow s (jobOf s job.val).qpn →
        PacketSent t (jobOf s job.val).qpn (.send (ctxOf s (jobOf s job.val).qpn).spsn
          (manifestHead s job.val 1 (jobOf s job.val).windowNext (planned s job.val count units).length ++
            (planned s job.val count units).flatMap (planEntry (jobOf s job.val).peerNsid)) none none))) ∧
  (∀ (job peerSlot : Fin 16) (window : Nat) (entries : List Bytes) (trigger : Fin 16384) (place : TargetPlace) (s : State), 
    (jobOf s job.val).target = true →
    migBusy s job.val = true →
    entries.length ≤ 60 →
    regionFree (jobOf s job.val) place.region = true →
    (s.xpt.triggers.at trigger.val).state = 0 →
    Completes (.manifestPlan job peerSlot window entries trigger place) s fun t =>
      t.xpt.hbm = (hbmWrite (place.mbuf + 64) entries.flatten s).xpt.hbm ∧
      t.xpt.triggers.at trigger.val =
        ⟨migTag 2 job.val window, (jobOf s job.val).qpn, 1, place.first, 64 + 256 * entries.length, place.mbuf, s.now⟩ ∧
      (jobOf t job.val).windows = (jobOf s job.val).windows ++ [⟨window, trigger.val, place.region, entries.map objOfEntry⟩] ∧
      ((ctxOf s (jobOf s job.val).qpn).state = 3 → SendsNow s (jobOf s job.val).qpn →
        PacketSent t (jobOf s job.val).qpn (.send (ctxOf s (jobOf s job.val).qpn).spsn
          (manifestHead s job.val 2 window 0) (some (migTag 1 peerSlot.val window)) none))) ∧
  (∀ (job : Fin 16) (window : Nat) (w : MigWindow) (s : State), 
    (jobOf s job.val).windows.find? (fun w => w.number == window) = some w →
    (jobOf s job.val).target = false →
    migBusy s job.val = true →
    Completes (.manifestAck job window (List.replicate w.objs.length 0)) s fun t =>
      (jobOf t job.val).windows = (jobOf s job.val).windows.filter (fun v => v.number != window) ∧
      (jobOf t job.val).objs = (jobOf s job.val).objs + w.objs.length ∧ (jobOf t job.val).failed = (jobOf s job.val).failed) ∧
  (∀ (job : Fin 16) (window trigger : Nat) (o : MigObj) (s : State), 
    (jobOf s job.val).windows.find? (fun w => w.number == window) = some ⟨window, trigger, 0, [o]⟩ →
    (jobOf s job.val).target = false →
    migBusy s job.val = true →
    Completes (.manifestAck job window [6]) s fun t =>
      Emitted s t 0x583 3 0x808 (migObjData job.val 6 window) ∧
      (jobOf t job.val).failed = min 65535 ((jobOf s job.val).failed + 1) ∧
      (jobOf t job.val).report = (jobOf s job.val).report ++ [o]) ∧
  (∀ (job : Fin 16) (window : Nat) (statuses : List Nat) (w : MigWindow) (s : State), 
    (jobOf s job.val).windows.find? (fun w => w.number == window) = some w →
    (jobOf s job.val).target = true →
    migBusy s job.val = true →
    Completes (.manifestVoid job window statuses) s fun t =>
      (jobOf t job.val).windows = (jobOf s job.val).windows.filter (fun v => v.number != window) ∧
      (t.xpt.triggers.at w.trigger).state ≠ 1) ∧
  (∀ (job : Fin 16) (s : State), 
    (jobOf s job.val).target = true →
    migBusy s job.val = true →
    Completes (.manifestFinal job) s fun t =>
      (jobOf t job.val).state = 5 ∧ Emitted s t 0x583 1 0x806 (job.val * 2 ^ 32 + 5) ∧
      (t.cmd.namespaces.at (jobOf s job.val).nsid).cutover = false) ∧
  (∀ (job : Fin 16) (regions : List Landing) (s : State), 
    (jobOf s job.val).state = 1 →
    (jobOf s job.val).target = true →
    Completes (.migRegionsRegistered job regions) s fun t =>
      (jobOf t job.val).state = 2 ∧ (jobOf t job.val).regions = regions ∧ Emitted s t 0x583 1 0x806 (job.val * 2 ^ 32 + 2) ∧
      (t.cmd.namespaces.at (jobOf s job.val).nsid).cutover = true ∧
      ∀ r ∈ regions, (t.xpt.regions.at r.index).state ≠ 0) ∧
  (∀ (job : Fin 16) (regions : List Landing) (s : State), 
    (jobOf s job.val).state = 1 →
    (jobOf s job.val).target = false →
    Completes (.migRegionsRegistered job regions) s fun t =>
      (jobOf t job.val).regions = regions ∧ Emitted s t 0x583 1 0x806 (job.val * 2 ^ 32 + 2)) ∧
  (∀ (path : Fin 5) (session : Nat) (value : Word) (s : State), 
    MayWrite path session (F.FIX_MIG_CTRL_ORDER.addr 0) s →
    bitsOf value.toNat 31 28 = 1 →
    migBusy s (bitsOf value.toNat 3 0) = true →
    passDone (jobOf s (bitsOf value.toNat 3 0)) = false →
    Completes (.migCutoverOrder path session value) s fun t =>
      jobOf t (bitsOf value.toNat 3 0) = { jobOf s (bitsOf value.toNat 3 0) with ordered := true }) ∧
  (∀ (path : Fin 5) (session : Nat) (value : Word) (s : State), 
    MayWrite path session (F.FIX_MIG_CTRL_ORDER.addr 0) s →
    bitsOf value.toNat 31 28 = 2 →
    migBusy s (bitsOf value.toNat 3 0) = true →
    Completes (.migAbortOrder path session value) s fun t =>
      (jobOf t (bitsOf value.toNat 3 0)).state = 7 ∧ (jobOf t (bitsOf value.toNat 3 0)).windows = [] ∧
      Emitted s t 0x583 1 0x806 (bitsOf value.toNat 3 0 * 2 ^ 32 + 7)) ∧
  (∀ (job : Fin 16) (s : State), 
    (jobOf s job.val).state = 4 →
    (jobOf s job.val).target = false →
    Completes (.cutoverTimeout job) s fun t =>
      (jobOf t job.val).state = 3 ∧ Emitted s t 0x583 2 0x809 (job.val * 2 ^ 32) ∧
      (t.cmd.namespaces.at (jobOf s job.val).nsid).cutover = false) ∧
  (∀ (job : Fin 16) (s : State), 
    migBusy s job.val = true →
    (ctxOf s (jobOf s job.val).qpn).state = 5 →
    Completes (.migConnectionErrorTimeout job) s fun t =>
      (jobOf t job.val).state = 6 ∧ (jobOf t job.val).windows = [] ∧ Emitted s t 0x583 1 0x806 (job.val * 2 ^ 32 + 6))

/-- R195 to R201, R206, R208, R209, R214, R216: presence, bring-up and the sideband of a slot. -/
def Obligations.DriveBringUpCompletes : Prop :=
  (∀ (slot : Fin 48) (s : State), 
    (s.drv.slots.at slot.val).seated = false →
    (portOf s slot.val).state = 0 →
    pwrdisUp s slot.val = false →
    Completes (.presenceSeated slot) s fun t =>
      (t.drv.slots.at slot.val).seated = true ∧ (portOf t slot.val).state = 1 ∧ Emitted s t (0x200 + slot.val) 0 0x901 0) ∧
  (∀ (slot : Fin 48) (low0 low1 line : Bool) (s : State), 
    (low0 && low1) = false →
    (s.drv.slots.at slot.val).seated = true →
    line = (s.drv.slots.at slot.val).partnerPwrdis →
    (portOf s slot.val).state ≠ 0 ∧ (portOf s slot.val).state ≠ 9 ∧ (portOf s slot.val).state ≠ 10 →
    Completes (.presenceRemoval slot low0 low1 line) s fun t =>
      (t.drv.slots.at slot.val).seated = false ∧ (portOf t slot.val).state = 0 ∧ (portOf t slot.val).mediaTimes = [] ∧
      (t.drv.slots.at slot.val).prsnt0 = low0 ∧ (t.drv.slots.at slot.val).prsnt1 = low1 ∧
      Emitted s t (0x200 + slot.val) 1 0x903 (portOf s slot.val).state) ∧
  (∀ (slot : Fin 48) (s : State), 
    pwrdisUp s slot.val = false →
    (portOf s slot.val).state ≠ 0 ∧ (portOf s slot.val).state ≠ 9 ∧ (portOf s slot.val).state ≠ 10 →
    Completes (.presenceRemoval slot true true true) s fun t =>
      (t.drv.slots.at slot.val).partnerPwrdis = true ∧ (portOf t slot.val).state = 8 ∧ (t.drv.slots.at slot.val).seated = (s.drv.slots.at slot.val).seated) ∧
  (∀ (slot : Fin 48) (s : State), 
    (portOf s slot.val).state = 2 →
    redState s ≠ 8 →
    Completes (.perstReleaseTimer slot) s fun t =>
      portOf t slot.val = { portOf s slot.val with state := 3, perstReleased := true } ∧
      t.fldI F.DRV_PORT_STAT_RETRAINS slot.val =
        min F.DRV_PORT_STAT_RETRAINS.max (s.fldI F.DRV_PORT_STAT_RETRAINS slot.val + 1)) ∧
  (∀ (slot : Fin 48) (rate width corrected : Nat) (s : State), 
    (portOf s slot.val).state = 3 →
    Completes (.driveLinkUp slot rate width corrected) s fun t =>
      (portOf t slot.val).state = 4 ∧ (portOf t slot.val).step = 1 ∧ (portOf t slot.val).speed = min rate (speedMax s) ∧
      (portOf t slot.val).width = width ∧ .driveAdmin slot.val "read configuration" 0 ∈ t.out ∧
      t.fldI F.DRV_ERR_COUNT_CORR slot.val = min F.DRV_ERR_COUNT_CORR.max (s.fldI F.DRV_ERR_COUNT_CORR slot.val + corrected) ∧
      (min rate (speedMax s) < 6 ∨ width < 4 → Emitted s t (0x200 + slot.val) 2 0x906 (min rate (speedMax s) + width * 16))) ∧
  (∀ (slot : Fin 48) (s : State), 
    (portOf s slot.val).state = 3 →
    (portOf s slot.val).attempts < 2 →
    Completes (.trainingTimeout slot) s fun t =>
      portOf t slot.val =
      { portOf s slot.val with state := 2, perstReleased := false, attempts := (portOf s slot.val).attempts + 1 }) ∧
  (∀ (slot : Fin 48) (s : State), 
    (portOf s slot.val).state = 3 →
    2 ≤ (portOf s slot.val).attempts →
    inGroup s = false →
    Completes (.trainingTimeout slot) s fun t =>
      Emitted s t (0x200 + slot.val) 3 0x905 5 ∧ ((portOf t slot.val).state = 7 ∨ (portOf t slot.val).state = 9)) ∧
  (∀ (slot : Fin 48) (f : DriveFacts) (s : State), 
    (portOf s slot.val).state = 4 →
    (portOf s slot.val).step = 1 →
    Completes (.driveAdminCompletion slot f) s fun t =>
      portOf t slot.val = { portOf s slot.val with step := 2, mps := min 512 f.mpsCap } ∧
      .driveConfig slot.val (min 512 f.mpsCap) 4096 ∈ t.out ∧ .driveQueue slot.val 0 true 32 false false 4097 ∈ t.out ∧
      .driveQueue slot.val 0 false 32 false false 4096 ∈ t.out ∧ .driveAdmin slot.val "enable" 0 ∈ t.out) ∧
  (∀ (slot : Fin 48) (f : DriveFacts) (s : State), 
    (portOf s slot.val).state = 4 →
    (portOf s slot.val).step = 2 →
    Completes (.driveAdminCompletion slot f) s fun t =>
      portOf t slot.val = { portOf s slot.val with step := 3 } ∧
      t.out = s.out ++ [.driveAdmin slot.val "identify controller" 0] ++ [.driveAdmin slot.val "identify namespace" 1]) ∧
  (∀ (slot : Fin 48) (f : DriveFacts) (test : Nat) (s : State), 
    (portOf s slot.val).state = 4 →
    (portOf s slot.val).step = 3 →
    unsuitable s f = some test →
    Completes (.driveAdminCompletion slot f) s fun t =>
      (portOf t slot.val).state = 6 ∧ Emitted s t (0x200 + slot.val) 2 0x904 test ∧ (t.lay.drives.at slot.val).state = 0) ∧
  (∀ (slot : Fin 48) (f : DriveFacts) (s : State), 
    (portOf s slot.val).state = 4 →
    (portOf s slot.val).step = 3 →
    unsuitable s f = none →
    Completes (.driveAdminCompletion slot f) s fun t =>
      (portOf t slot.val).step = 4 ∧ (portOf t slot.val).lbaCount = f.lbaCount ∧ (portOf t slot.val).dual = f.multiPort ∧
      (portOf t slot.val).depth = min 1024 (f.mqes + 1) ∧ t.out = s.out ++ [.driveAdmin slot.val "register" (reservationKey s)]) ∧
  (∀ (slot : Fin 48) (f : DriveFacts) (s : State), 
    (portOf s slot.val).state = 4 →
    (portOf s slot.val).step = 4 →
    Completes (.driveAdminCompletion slot f) s fun t =>
      portOf t slot.val = { portOf s slot.val with step := 5 } ∧ .driveRead slot.val 0 1 false ∈ t.out ∧
      .driveRead slot.val ((portOf s slot.val).lbaCount - 256) 1 false ∈ t.out ∧
      .driveQueue slot.val 1 false (portOf s slot.val).ring (portOf s slot.val).urgentPrio false ((portOf s slot.val).ringPages 0) ∈ t.out) ∧
  (∀ (slot : Fin 48) (f : DriveFacts) (s : State), 
    (portOf s slot.val).state = 4 →
    (portOf s slot.val).step = 5 →
    isActive s = true →
    Completes (.driveAdminCompletion slot f) s fun t =>
      (portOf t slot.val).step = 6 ∧ (portOf t slot.val).superblock = (superblockOf f.superblocks).map (superblockSays s) ∧
      (f.holderKey = none → .driveAdmin slot.val "acquire" (reservationKey s) ∈ t.out) ∧
      (f.holderKey.all fun k => decide (.driveAdmin slot.val "preempt" k ∈ t.out)) = true) ∧
  (∀ (slot : Fin 48) (f : DriveFacts) (s : State), 
    (portOf s slot.val).state = 4 →
    (portOf s slot.val).step = 6 →
    Completes (.driveAdminCompletion slot f) s fun t =>
      (portOf t slot.val).state = 5 ∧ (portOf t slot.val).holder = true ∧
      Emitted s t (0x200 + slot.val) 1 0x902 ((portOf s slot.val).speed + (portOf s slot.val).width * 16)) ∧
  (∀ (slot : Fin 48) (cfs : Bool) (s : State), 
    (portOf s slot.val).state = 4 →
    Completes (.initStepTimeout slot cfs) s fun t =>
      Emitted s t (0x200 + slot.val) 3 0x905
        (if (portOf s slot.val).step = 1 then 5 else if (portOf s slot.val).step = 2 ∧ cfs then 3 else 2) ∧
      ((portOf t slot.val).state = 7 ∨ (portOf t slot.val).state = 2)) ∧
  (∀ (slot : Fin 48) (s : State), 
    inGroup s = true →
    (portOf s slot.val).state = 1 →
    legPg s slot.val = false →
    Completes (.legPgWaitTimeout slot) s fun t =>
      portOf t slot.val = { portOf s slot.val with asked := 1 }) ∧
  (∀ (slot : Fin 48) (crit pct temp : Nat) (serial : Option Nat) (s : State), 
    Completes (.smbusPoll slot (some (crit, pct, temp)) serial) s fun t =>
      (t.drv.slots.at slot.val).smbOk = true ∧ (t.drv.slots.at slot.val).naks = 0 ∧
      (t.drv.slots.at slot.val).crit = crit % 256 ∧ (t.drv.slots.at slot.val).pctUsed = pct % 256 ∧
      (t.drv.slots.at slot.val).temp = temp % 256 ∧ t.ctl = s.ctl ∧
      .smbusRead slot.val 0x6A (some (0, 8)) (s.fld F.DRV_SMB_CFG_PEC == 1) (s.fld F.DRV_SMB_CFG_FAST == 1) ∈ t.out) ∧
  (∀ (slot : Fin 48) (serial : Option Nat) (s : State), 
    (s.drv.slots.at slot.val).naks = 2 →
    Completes (.smbusPoll slot none serial) s fun t =>
      (t.drv.slots.at slot.val).smbOk = false ∧ (t.drv.slots.at slot.val).naks = 3 ∧ Emitted s t 0x591 2 0x909 slot.val)

/-- R206, R207, R210, R212, R213, R215, R218: failures in READY, preemption, and the port and PWRDIS orders. -/
def Obligations.DriveFailuresAndOrdersComplete : Prop :=
  (∀ (slot : Fin 48) (s : State), 
    served s slot.val = true →
    Completes (.ioCommandTimeout slot) s fun t =>
      Emitted s t (0x200 + slot.val) 3 0x905 1 ∧ (portOf t slot.val).state = if mayRecover s slot.val 1 then 2 else 7) ∧
  (∀ (slot : Fin 48) (s : State), 
    served s slot.val = true →
    Completes (.adminCommandTimeout slot) s fun t =>
      Emitted s t (0x200 + slot.val) 3 0x905 2 ∧ (portOf t slot.val).state = if mayRecover s slot.val 2 then 2 else 7) ∧
  (∀ (slot : Fin 48) (s : State), 
    served s slot.val = true →
    Completes (.controllerFatalStatus slot) s fun t =>
      Emitted s t (0x200 + slot.val) 3 0x905 3 ∧ (portOf t slot.val).state = if mayRecover s slot.val 3 then 2 else 7) ∧
  (∀ (slot : Fin 48) (rate width corrected : Nat) (s : State), 
    served s slot.val = true →
    Completes (.driveLinkDown slot (some (rate, width)) corrected) s fun t =>
      (portOf t slot.val).state = 5 ∧ (portOf t slot.val).speed = min rate (speedMax s) ∧ (portOf t slot.val).width = width ∧
      t.fldI F.DRV_PORT_STAT_RETRAINS slot.val =
        min F.DRV_PORT_STAT_RETRAINS.max (s.fldI F.DRV_PORT_STAT_RETRAINS slot.val + 1)) ∧
  (∀ (slot : Fin 48) (corrected : Nat) (s : State), 
    served s slot.val = true →
    Completes (.driveLinkDown slot none corrected) s fun t =>
      Emitted s t (0x200 + slot.val) 3 0x905 5 ∧ (portOf t slot.val).state = if mayRecover s slot.val 5 then 2 else 7) ∧
  (∀ (slot : Fin 48) (start len page : Nat) (s : State), 
    served s slot.val = true ∨ (portOf s slot.val).state = 4 →
    firstUnmapped (portOf s slot.val) ((start + max 1 len - 1) / 4096 + 1 - start / 4096) (start / 4096) = some page →
    Completes (.dmaFault slot start len) s fun t =>
      Emitted s t (0x200 + slot.val) 3 0x905 7 ∧
      Emitted s t (0x200 + slot.val) 3 0x907 ((if start / 4096 = page then start else page * 4096) % 2 ^ 28) ∧
      (portOf t slot.val).state = if mayRecover s slot.val 7 then 2 else 7) ∧
  (∀ (slot : Fin 48) (s : State), 
    s.drv.preempting.contains slot.val = true →
    Completes (.preemptCompletion slot false) s fun t =>
      (portOf t slot.val).holder = true ∧ (s.drv.round = 2 → t.drv.preempting = s.drv.preempting.filter (· != slot.val)) ∧
      (s.drv.preempting = [slot.val] → t.drv.round = 0 ∧ t.drv.preempting = [])) ∧
  (∀ (slot : Fin 48) (s : State), 
    s.drv.preempting.contains slot.val = true →
    s.drv.round = 1 →
    s.drv.stopped = false →
    Completes (.preemptCompletion slot true) s fun t =>
      t.drv.stopped = true ∧ Emitted s t 0x592 4 0x908 slot.val) ∧
  (∀ (path : Fin 5) (session : Nat) (value : Word) (n : Nat) (s : State), 
    MayWrite path session (F.DRV_PORT_ORDER_ORDER.addr 0) s →
    bitsOf value.toNat 31 28 = 1 ∧ bitsOf value.toNat 5 0 = n ∧ n < 48 →
    served s n = true →
    Completes (.drvPortRetrain path session value) s fun t =>
      portOf t n = { portOf s n with relinking := true, attempts := 0 }) ∧
  (∀ (path : Fin 5) (session : Nat) (value : Word) (n : Nat) (s : State), 
    MayWrite path session (F.DRV_PORT_ORDER_ORDER.addr 0) s →
    bitsOf value.toNat 31 28 = 2 ∧ bitsOf value.toNat 5 0 = n ∧ n < 48 →
    (portOf s n).state ≠ 0 ∧ (portOf s n).state ≠ 9 ∧ (portOf s n).state ≠ 10 →
    Completes (.drvPortDisable path session value) s fun t =>
      (portOf t n).state = 8 ∧ (portOf t n).perstReleased = false ∧ (portOf t n).recovering = false) ∧
  (∀ (path : Fin 5) (session : Nat) (value : Word) (n : Nat) (s : State), 
    MayWrite path session (F.DRV_PORT_ORDER_ORDER.addr 0) s →
    bitsOf value.toNat 31 28 = 3 ∧ bitsOf value.toNat 5 0 = n ∧ n < 48 →
    (portOf s n).state = 8 →
    pwrdisUp s n = false →
    Completes (.drvPortEnable path session value) s fun t =>
      (portOf t n).state = 2 ∧ (portOf t n).refClock = true ∧ (portOf t n).perstReleased = false) ∧
  (∀ (path : Fin 5) (session : Nat) (value : Word) (n : Nat) (s : State), 
    MayWrite path session (F.DRV_PORT_ORDER_ORDER.addr 0) s →
    bitsOf value.toNat 31 28 = 4 ∧ bitsOf value.toNat 5 0 = n ∧ n < 48 →
    (portOf s n).state = 7 →
    Completes (.drvPortRecover path session value) s fun t =>
      (portOf t n).state = 2 ∧ (portOf t n).recovering = true ∧ (portOf t n).returnGts = 0) ∧
  (∀ (path : Fin 5) (session : Nat) (value : Word) (n : Nat) (s : State), 
    MayWrite path session (F.DRV_PWRDIS_ORDER_CONFIRM.addr 0) s →
    bitsOf value.toNat 31 24 = 0x5A ∧ bitsOf value.toNat 5 0 = n ∧ n < 48 →
    (s.drv.slots.at n).pwrdis = false →
    Completes (.drvPwrdisOrder path session value) s fun t =>
      (t.drv.slots.at n).pwrdis = true ∧
      (t.drv.slots.at n).releaseGts = s.now + max 1000 (bitsOf value.toNat 23 8) * 1000000) ∧
  (∀ (slot : Fin 48) (s : State), 
    (s.drv.slots.at slot.val).pwrdis = true →
    Completes (.pwrdisRelease slot) s fun t =>
      (t.drv.slots.at slot.val).pwrdis = false ∧ Emitted s t 0x590 1 0x90A slot.val ∧
      ((portOf s slot.val).state = 8 → (s.drv.slots.at slot.val).partnerPwrdis = false → (portOf t slot.val).state = 2))

/-- R219, R221, R222, R224, R227, R228, R230 to R235: received frames, links, PFC, transmission, time stamps and wake filters. -/
def Obligations.FramesAndLinksComplete : Prop :=
  (∀ (lport : Fin 64) (frame : Bytes) (s : State), 
    linkIsUp s lport.val = true →
    s.cmd.ps ≠ 4 →
    Completes (.frameReceived lport frame false) s fun t =>
      t.fldI F.PRT_LPORT_RXERR_FCS lport.val =
        min F.PRT_LPORT_RXERR_FCS.max (s.fldI F.PRT_LPORT_RXERR_FCS lport.val + 1) ∧
      t.tel.cnt.at 0x106 = (s.tel.cnt.at 0x106 + 1) % 2 ^ 64 ∧ t.ctl = s.ctl) ∧
  (∀ (lport : Fin 64) (frame : Bytes) (s : State), 
    linkIsUp s lport.val = true →
    s.cmd.ps ≠ 4 →
    frame.length + 4 < 64 ∨ maxFrame s lport.val < frame.length + 4 →
    Completes (.frameReceived lport frame true) s fun t =>
      t.fldI F.PRT_LPORT_RXERR_LENGTH lport.val =
        min F.PRT_LPORT_RXERR_LENGTH.max (s.fldI F.PRT_LPORT_RXERR_LENGTH lport.val + 1) ∧
      t.tel.cnt.at 0x107 = (s.tel.cnt.at 0x107 + 1) % 2 ^ 64 ∧ t.ctl = s.ctl) ∧
  (∀ (lport : Fin 64) (frame : Bytes) (s : State), 
    linkIsUp s lport.val = true →
    s.cmd.ps ≠ 4 →
    64 ≤ frame.length + 4 ∧ frame.length + 4 ≤ maxFrame s lport.val →
    half frame 12 = 0x8808 ∧ half frame 14 = 0x0001 →
    Completes (.frameReceived lport frame true) s fun t =>
      t.tel.cnt.at 0x10A = (s.tel.cnt.at 0x10A + 1) % 2 ^ 64 ∧ t.out = s.out ∧ t.net = s.net ∧ t.regs = s.regs) ∧
  (∀ (lport : Fin 64) (frame : Bytes) (prio : Fin 8) (s : State), 
    linkIsUp s lport.val = true →
    s.cmd.ps ≠ 4 →
    64 ≤ frame.length + 4 ∧ frame.length + 4 ≤ maxFrame s lport.val →
    half frame 12 = 0x8808 ∧ half frame 14 = 0x0101 →
    bitAt (half frame 16) prio.val = true →
    pfcEnabled s lport.val prio.val = true →
    Completes (.frameReceived lport frame true) s fun t =>
      bitAt (t.fldI F.PRT_LPORT_STAT_PAUSED lport.val) prio.val = (half frame (18 + 2 * prio.val) != 0)) ∧
  (∀ (lport : Fin 64) (frame : Bytes) (w : Walk) (i a : Nat) (s : State), 
    linkIsUp s lport.val = true →
    s.cmd.ps ≠ 4 →
    64 ≤ frame.length + 4 ∧ frame.length + 4 ≤ maxFrame s lport.val →
    half frame 12 ≠ 0x8808 →
    parse s frame = .inr w →
    w.badIp = false →
    lookup s (lookupKey s lport.val frame w) = some (i, a) →
    actKind a = 3 ∧ actTc a = 7 ∧ actPolice a = false →
    udpSumOk frame = true ∧ icrcOk frame = true →
    pfcEnabled s lport.val (bitsOf (w.tag.getD 0) 15 13) = false →
    (allocChain lport.val 1 1 (cellsFor (frame.length + 4)) s).isSome = true →
    Completes (.frameReceived lport frame true) s fun t =>
      .toXpt lport.val frame ∈ t.out) ∧
  (∀ (lport : Fin 64) (frame : Bytes) (w : Walk) (i a : Nat) (s : State), 
    linkIsUp s lport.val = true →
    s.cmd.ps ≠ 4 →
    64 ≤ frame.length + 4 ∧ frame.length + 4 ≤ maxFrame s lport.val →
    half frame 12 ≠ 0x8808 →
    parse s frame = .inr w →
    w.badIp = false →
    lookup s (lookupKey s lport.val frame w) = some (i, a) →
    actKind a = 3 →
    udpSumOk frame = false ∨ icrcOk frame = false →
    Completes (.frameReceived lport frame true) s fun t =>
      t.fldI F.PRT_LPORT_RXERR_L4 lport.val =
        min F.PRT_LPORT_RXERR_L4.max (s.fldI F.PRT_LPORT_RXERR_L4 lport.val + 1) ∧ t.out = s.out ∧ t.net = s.net) ∧
  (∀ (lport : Fin 64) (frame : Bytes) (s : State), 
    linkIsUp s lport.val = true →
    s.cmd.ps = 4 →
    wakeHits s (lport.val / 4) frame = [] →
    Completes (.frameReceived lport frame true) s fun t =>
      t.net.wakeDropped.at (lport.val / 4) = s.net.wakeDropped.at (lport.val / 4) + 1 ∧ t.cmd = s.cmd ∧ t.out = s.out) ∧
  (∀ (lport : Fin 64) (s : State), 
    portExists s lport.val = true →
    linkIsUp s lport.val = false →
    s.cmd.ps ≠ 4 →
    s.fld F.RED_STAT_STATE < 7 →
    Completes (.linkUp lport) s fun t =>
      linkIsUp t lport.val = true ∧ Emitted s t (0x100 + lport.val) 1 0x101 (speedCode s lport.val)) ∧
  (∀ (lport : Fin 64) (cause : Fin 2) (part : Bool) (s : State), 
    linkIsUp s lport.val = true →
    Completes (.linkDown lport cause part) s fun t =>
      linkIsUp t lport.val = false ∧ Emitted s t (0x100 + lport.val) 2 0x102 (cause.val * 16)) ∧
  (∀ (lport : Fin 64) (codewords : Nat) (s : State), 
    portExists s lport.val = true →
    16 ≤ codewords →
    Completes (.fecDegraded lport codewords) s fun t =>
      t.fldI F.PRT_LPORT_STAT_FEC_DEGRADED lport.val = 1 ∧ Emitted s t (0x100 + lport.val) 2 0x103 (min codewords 65535)) ∧
  (∀ (lport : Fin 64) (s : State), 
    Completes (.fecDegradedCleared lport) s fun t =>
      t.fldI F.PRT_LPORT_STAT_FEC_DEGRADED lport.val = 0 ∧ linkIsUp t lport.val = linkIsUp s lport.val) ∧
  (∀ (lport : Fin 64) (timers : List (Fin 8 × Nat)) (s : State), 
    linkIsUp s lport.val = true →
    s.cmd.ps ≠ 4 →
    (timers.map (·.1)).Nodup →
    Completes (.pfcFrameReceived lport timers) s fun t =>
      ∀ x ∈ timers, pfcEnabled s lport.val x.1.val = true →
      bitAt (t.fldI F.PRT_LPORT_STAT_PAUSED lport.val) x.1.val = (x.2 != 0)) ∧
  (∀ (lport : Fin 64) (prio : Fin 8) (s : State), 
    Completes (.pfcPauseExpiry lport prio) s fun t =>
      bitAt (t.fldI F.PRT_LPORT_STAT_PAUSED lport.val) prio.val = false) ∧
  (∀ (lport : Fin 64) (prio : Fin 8) (s : State), 
    bitAt (s.fldI F.SWC_PFC_STAT_XOFF lport.val) prio.val = true →
    s.cmd.ps ≠ 4 →
    Completes (.pfcRefresh lport prio) s fun t =>
      t = s.send (.pfc lport.val prio.val true (pfcFrame s lport.val prio.val true))) ∧
  (∀ (lport : Fin 64) (s : State), 
    portQueues s lport.val = [] →
    framesIn s (8 * lport.val + 7) = [] →
    Completes (.frameTransmitted lport none) s fun t =>
      t.net.line.at lport.val = none) ∧
  (∀ (path : Fin 5) (session : Nat) (value : Word) (s : State), 
    MayWrite path session 0x01000048 s →
    s.net.stamps.at (bitsOf value.toNat 5 0) = [] →
    Completes (.prtTsCtrl path session value) s fun t =>
      t.net = s.net ∧ t.fld F.PRT_TS_CTRL_EMPTY = 1) ∧
  (∀ (lport : Fin 64) (frame : Bytes) (j : Nat) (js : List Nat) (s : State), 
    linkIsUp s lport.val = true →
    s.cmd.ps = 4 →
    s.cmd.exiting = false →
    wakeHits s (lport.val / 4) frame = j :: js →
    Completes (.wakeMatch lport frame) s fun t =>
      t.cmd = { s.cmd with exiting := true } ∧ t.net = s.net ∧
      Emitted s t (0x100 + 4 * (lport.val / 4)) 1 0x105 (lport.val / 4 * 16 + j))

/-- R241, R12: the three orders on a TCAM entry. -/
def Obligations.ClassifierEntriesComplete : Prop :=
  (∀ (path : Fin 5) (session : Nat) (value : Word) (s : State), 
    MayWrite path session 0x02000048 s →
    Completes (.clsRuleRead path session value) s fun t =>
      ruleWords t 0 20 = (s.net.tcam.at (bitsOf value.toNat 15 0)).value.toNat ∧
      ruleWords t 20 20 = (s.net.tcam.at (bitsOf value.toNat 15 0)).mask.toNat ∧
      ruleWords t 40 2 = (s.net.tcam.at (bitsOf value.toNat 15 0)).action.toNat ∧
      t.fld F.CLS_RULE_STAT_VALID = b2n (s.net.tcam.at (bitsOf value.toNat 15 0)).valid ∧ t.net = s.net) ∧
  (∀ (path : Fin 5) (session : Nat) (value : Word) (s : State), 
    MayWrite path session 0x02000048 s →
    s.locked = false →
    Completes (.clsRuleWrite path session value) s fun t =>
      t.net.tcam.at (bitsOf value.toNat 15 0) = ⟨true, BitVec.ofNat 640 (ruleWords s 0 20),
        BitVec.ofNat 640 (ruleWords s 20 20), BitVec.ofNat 64 (ruleWords s 40 2)⟩ ∧
      Emitted s t 0x522 0 0x202 (2 * 65536 + bitsOf value.toNat 15 0) ∧
      (∀ j, j ≠ bitsOf value.toNat 15 0 → t.net.tcam.at j = s.net.tcam.at j)) ∧
  (∀ (path : Fin 5) (session : Nat) (value : Word) (s : State), 
    MayWrite path session 0x02000048 s →
    s.locked = false →
    Completes (.clsRuleInvalidate path session value) s fun t =>
      t.net.tcam.at (bitsOf value.toNat 15 0) = { s.net.tcam.at (bitsOf value.toNat 15 0) with valid := false } ∧
      Emitted s t 0x522 0 0x202 (3 * 65536 + bitsOf value.toNat 15 0)) ∧
  (∀ (path : Fin 5) (session : Nat) (value : Word) (s : State), 
    MayWrite path session 0x02000048 s →
    s.locked = true →
    Completes (.clsRuleWrite path session value) s fun t =>
      t.net = s.net ∧ t.fld F.CLS_RULE_STAT_REFUSED = 1 ∧ t.fldI F.CTL_PATH_STAT_LOCKED path.val = 1 ∧
      Emitted s t 0x003 2 0x00B (path.val * 2 ^ 33 + 2 * 2 ^ 30 + 0x02000048 / 4)) ∧
  (∀ (path : Fin 5) (session : Nat) (value : Word) (s : State), 
    MayWrite path session 0x02000048 s →
    s.locked = true →
    Completes (.clsRuleInvalidate path session value) s fun t =>
      t.net = s.net ∧ t.fld F.CLS_RULE_STAT_REFUSED = 1 ∧ t.fldI F.CTL_PATH_STAT_LOCKED path.val = 1 ∧
      Emitted s t 0x003 2 0x00B (path.val * 2 ^ 33 + 2 * 2 ^ 30 + 0x02000048 / 4))

/-- R252, R254, R256, R263, R276: the Bloodhound's pass over a bank and the orders on multicast groups. -/
def Obligations.BufferAndGroupsComplete : Prop :=
  (∀ (bank : Fin 64) (a : Nat) (c : Cell) (s : State), 
    s.fld F.SWC_CFG_BH_EN = 1 →
    fencedUnit s 3 bank.val = false →
    a / 16384 = bank.val →
    s.net.cells = [(a, c)] →
    s.net.waitC0 = [] →
    c.owner ≠ 0 ∧ c.misfiled = false →
    overLimit s c = false →
    Completes (.bloodhoundPass bank) s fun t =>
      t.net.cells.at a = { c with suspect := false, lastGen := c.gen } ∧ t.ctl = s.ctl) ∧
  (∀ (bank : Fin 64) (a : Nat) (c : Cell) (s : State), 
    s.fld F.SWC_CFG_BH_EN = 1 →
    fencedUnit s 3 bank.val = false →
    a / 16384 = bank.val →
    s.net.cells = [(a, c)] →
    s.net.waitC0 = [] →
    c.owner ≠ 0 ∧ c.misfiled = false ∧ c.suspect = true ∧ c.lastGen = c.gen ∧ c.reported = false →
    overLimit s c = true →
    Completes (.bloodhoundPass bank) s fun t =>
      Emitted s t 0x532 2 0x303 (c.owner * 2 ^ 24 + (a * 16 + c.gen)) ∧
      t.fld F.SWC_BH_STAT_LEAKS = min F.SWC_BH_STAT_LEAKS.max (s.fld F.SWC_BH_STAT_LEAKS + 1) ∧
      ((s.fld F.SWC_CFG_BH_RECLAIM = 1 ∧ c.owner = 1) → (t.net.cells.at a).owner = 0 ∧ Emitted s t 0x532 2 0x304 (a * 16 + c.gen))) ∧
  (∀ (bank : Fin 64) (a : Nat) (c : Cell) (s : State), 
    s.fld F.SWC_CFG_BH_EN = 1 →
    fencedUnit s 3 bank.val = false →
    a / 16384 = bank.val →
    s.net.cells = [(a, c)] →
    s.net.waitC0 = [] →
    c.misfiled = true →
    Completes (.bloodhoundPass bank) s fun t =>
      (t.net.cells.at a).misfiled = false ∧ Emitted s t 0x532 (if c.owner = 0 then 2 else 3) (if c.owner = 0 then 0x302 else 0x301) (a * 16 + c.gen)) ∧
  (∀ (path : Fin 5) (session : Nat) (value : Word) (s : State), 
    MayWrite path session 0x03000054 s →
    Completes (.swcMcRead path session value) s fun t =>
      t.fld F.SWC_MC_DATA0_MEMBERS_LO = (s.net.groups.at (bitsOf value.toNat 11 0)).members % 2 ^ 32 ∧
      t.fld F.SWC_MC_DATA1_MEMBERS_HI = (s.net.groups.at (bitsOf value.toNat 11 0)).members / 2 ^ 32 % 2 ^ 32 ∧
      t.fld F.SWC_MC_DATA2_VALID = b2n (s.net.groups.at (bitsOf value.toNat 11 0)).valid ∧
      t.fld F.SWC_MC_SEL_DONE = 1 ∧ t.net = s.net) ∧
  (∀ (path : Fin 5) (session : Nat) (value : Word) (s : State), 
    MayWrite path session 0x03000054 s →
    s.locked = false →
    Completes (.swcMcWrite path session value) s fun t =>
      t.net.groups.at (bitsOf value.toNat 11 0) =
        ⟨s.fld F.SWC_MC_DATA1_MEMBERS_HI * 2 ^ 32 + s.fld F.SWC_MC_DATA0_MEMBERS_LO, s.fld F.SWC_MC_DATA2_VALID == 1,
          s.fld F.SWC_MC_DATA2_SELF == 1⟩ ∧ t.fld F.SWC_MC_SEL_DONE = 1) ∧
  (∀ (path : Fin 5) (session : Nat) (value : Word) (s : State), 
    MayWrite path session 0x03000054 s →
    s.locked = true →
    Completes (.swcMcWrite path session value) s fun t =>
      t.net = s.net ∧ t.fld F.SWC_MC_SEL_REFUSED = 1)

/-- R264, R267, R268, R270 to R274, R277: the orders on the tables of traffic management, and what gate lists and the media queue do. -/
def Obligations.TrafficTablesComplete : Prop :=
  (∀ (path : Fin 5) (session : Nat) (value : Word) (s : State), 
    MayWrite path session 0x04000044 s →
    bitAt value.toNat 26 = false →
    Completes (.tmgQRead path session value) s fun t =>
      t.fld F.TMG_Q_SEL_DONE = 1 ∧ rawWord t.regs 0x04000048 = BitVec.ofNat 32 (queueEntry s (bitsOf value.toNat 15 0)).d0 ∧
      rawWord t.regs 0x0400005C = BitVec.ofNat 32 (min (2 ^ 20 - 1) (queueDepth s (bitsOf value.toNat 15 0))) ∧ t.net = s.net) ∧
  (∀ (path : Fin 5) (session : Nat) (value : Word) (s : State), 
    MayWrite path session 0x04000044 s →
    s.locked = false →
    bitAt value.toNat 26 = false →
    framesIn s (bitsOf value.toNat 15 0) = [] →
    Completes (.tmgQWrite path session value) s fun t =>
      t.net.queueCfg.at (bitsOf value.toNat 15 0) = (qData s).treated ∧ t.fld F.TMG_Q_SEL_DONE = 1) ∧
  (∀ (path : Fin 5) (session : Nat) (value : Word) (s : State), 
    MayWrite path session 0x04000044 s →
    s.locked = false →
    bitAt value.toNat 26 = true →
    Completes (.tmgQWrite path session value) s fun t =>
      t.net.nodeCfg.at (bitsOf value.toNat 9 0) = (qData s).treated.nodePart ∧ t.fld F.TMG_Q_SEL_DONE = 1) ∧
  (∀ (path : Fin 5) (session : Nat) (value : Word) (s : State), 
    MayWrite path session 0x04000044 s →
    s.locked = false →
    bitAt value.toNat 26 = false →
    framesIn s (bitsOf value.toNat 15 0) ≠ [] →
    (qData s).lport ≠ (queueEntry s (bitsOf value.toNat 15 0)).lport →
    Completes (.tmgQWrite path session value) s fun t =>
      t.net = s.net ∧ t.fld F.TMG_Q_SEL_REFUSED = 1) ∧
  (∀ (path : Fin 5) (session : Nat) (value : Word) (s : State), 
    MayWrite path session 0x04000060 s →
    Completes (.tmgPolRead path session value) s fun t =>
      rawWord t.regs 0x04000070 = BitVec.ofNat 32 ((s.net.policers.at (bitsOf value.toNat 13 0)).yellow * 65536 +
        (s.net.policers.at (bitsOf value.toNat 13 0)).red) ∧
      t.net.policers.at (bitsOf value.toNat 13 0) = { s.net.policers.at (bitsOf value.toNat 13 0) with yellow := 0, red := 0 } ∧
      t.fld F.TMG_POL_SEL_DONE = 1) ∧
  (∀ (path : Fin 5) (session : Nat) (value : Word) (s : State), 
    MayWrite path session 0x04000060 s →
    s.locked = false →
    Completes (.tmgPolWrite path session value) s fun t =>
      t.net.policers.at (bitsOf value.toNat 13 0) = { (s.net.policers.at (bitsOf value.toNat 13 0)).fillNow s.now with
        d0 := (rawWord s.regs 0x04000064).toNat, d1 := (rawWord s.regs 0x04000068).toNat, d2 := (rawWord s.regs 0x0400006C).toNat }) ∧
  (∀ (path : Fin 5) (session : Nat) (value : Word) (s : State), 
    MayWrite path session 0x04000074 s →
    Completes (.tmgGateRead path session value) s fun t =>
      t.fld F.TMG_GATE_DATA_GATES = bitsOf (s.net.gateCfg.at (gateKey (bitsOf value.toNat 25 20)
        (activeBank s (bitsOf value.toNat 25 20)) (bitsOf value.toNat 9 0))) 31 24 ∧
      t.fld F.TMG_GATE_DATA_DURATION_NS = bitsOf (s.net.gateCfg.at (gateKey (bitsOf value.toNat 25 20)
        (activeBank s (bitsOf value.toNat 25 20)) (bitsOf value.toNat 9 0))) 23 0 ∧
      t.fld F.TMG_GATE_SEL_DONE = 1 ∧ t.net = s.net) ∧
  (∀ (path : Fin 5) (session : Nat) (value : Word) (s : State), 
    MayWrite path session 0x04000074 s →
    s.locked = false →
    (gatesOf s (bitsOf value.toNat 25 20)).pending = none →
    Completes (.tmgGateWrite path session value) s fun t =>
      t.net.gateCfg.at (gateKey (bitsOf value.toNat 25 20) (1 - activeBank s (bitsOf value.toNat 25 20)) (bitsOf value.toNat 9 0)) =
        s.fld F.TMG_GATE_DATA_GATES * 2 ^ 24 + s.fld F.TMG_GATE_DATA_DURATION_NS ∧ t.fld F.TMG_GATE_SEL_DONE = 1) ∧
  (∀ (path : Fin 5) (session : Nat) (value : Word) (s : State), 
    MayWrite path session 0x04000074 s →
    s.locked = false →
    (gatesOf s (bitsOf value.toNat 25 20)).pending ≠ none →
    Completes (.tmgGateWrite path session value) s fun t =>
      t.net = s.net ∧ t.fld F.TMG_GATE_SEL_REFUSED = 1) ∧
  (∀ (path : Fin 5) (session : Nat) (value : Word) (s : State), 
    MayWrite path session 0x04000084 s →
    Completes (.tmgGateCommit path session value) s fun t =>
      (gatesOf t (bitsOf value.toNat 5 0)).pending =
        some (commitTime s (bitsOf value.toNat 5 0), bitsOf value.toNat 25 16) ∧
      t.fldI F.TMG_GATE_STAT_PENDING (bitsOf value.toNat 5 0) = 1 ∧ s.now + 1000 ≤ commitTime s (bitsOf value.toNat 5 0)) ∧
  (∀ (path : Fin 5) (session : Nat) (value : Word) (s : State), 
    MayWrite path session 0x04000084 s →
    listActive s (bitsOf value.toNat 5 0) = true →
    Completes (.tmgGateStop path session value) s fun t =>
      gatesOf t (bitsOf value.toNat 5 0) = { gatesOf s (bitsOf value.toNat 5 0) with pending := none, stopping := true } ∧
      listActive t (bitsOf value.toNat 5 0) = true ∧ t.fldI F.TMG_GATE_STAT_PENDING (bitsOf value.toNat 5 0) = 0) ∧
  (∀ (lport : Fin 64) (at_ last : Nat) (s : State), 
    (gatesOf s lport.val).pending = some (at_, last) →
    Completes (.gateSwitch lport) s fun t =>
      gatesOf t lport.val = ⟨last, at_, 0, at_, none, false⟩ ∧
      Emitted s t 0x542 1 0x405 ((1 - activeBank s lport.val) * 65536 + lport.val) ∧
      (alwaysOpen 7 (gateList s lport.val (1 - activeBank s lport.val) last) = false → Emitted s t 0x542 2 0x406 lport.val)) ∧
  (∀ (lport : Fin 64) (s : State), 
    listActive s lport.val = true →
    (gatesOf s lport.val).stopping = true →
    Completes (.gateListStopped lport) s fun t =>
      (gatesOf t lport.val).stopping = false ∧ listActive t lport.val = false ∧ gateOpen t lport.val = true) ∧
  (∀ (lport : Fin 64) (s : State), 
    listActive s lport.val = true →
    Completes (.gateEntryEnd lport) s fun t =>
      gatesOf t lport.val = { gatesOf s lport.val with
        entry := if (gatesOf s lport.val).last ≤ (gatesOf s lport.val).entry then 0 else (gatesOf s lport.val).entry + 1,
        entryStart := (gatesOf s lport.val).entryStart + (gateEntry s lport.val (activeBank s lport.val) (gatesOf s lport.val).entry).2,
        cycleStart := if (gatesOf s lport.val).last ≤ (gatesOf s lport.val).entry then (gatesOf s lport.val).entryStart +
          (gateEntry s lport.val (activeBank s lport.val) (gatesOf s lport.val).entry).2 else (gatesOf s lport.val).cycleStart }) ∧
  (∀ (path : Fin 5) (session : Nat) (value : Word) (s : State), 
    MayWrite path session 0x0400008C s →
    Completes (.tmgHistSel path session value) s fun t =>
      (∀ i : Fin 32, t.fldI F.TMG_HIST_DATA_COUNT i.val = s.net.hist.at (32 * bitsOf value.toNat 15 0 + i.val) % 2 ^ 32) ∧
      t.fld F.TMG_HIST_SEL_DONE = 1 ∧
      (∀ i : Fin 32, bitAt value.toNat 30 = true → t.net.hist.at (32 * bitsOf value.toNat 15 0 + i.val) = 0)) ∧
  (∀ (bytes : Nat) (s : State), 
    mediaLacks s + bytes * 100 ≤ s.fld F.TMG_BG_CFG_BURST_MIB * 2 ^ 20 * 100 →
    Completes (.mediaQueueGrant bytes) s fun t =>
      t.net.media = ⟨mediaLacks s + bytes * 100, s.now⟩)

/-- R343, R345, R346, R347, R348, R351: links come up and go down, frames are resent, IDLE frames carry time, records leave. -/
def Obligations.LeashLinksComplete : Prop :=
  (∀ (link : Fin 2) (r : Nat) (s : State), 
    leashUp s link.val = false →
    Completes (.leashUp link r) s fun t =>
      leashUp t link.val = true ∧ t.red.links.at link.val = default ∧ Emitted s t (0x5E1 + link.val) 1 0xE07 (r % 4)) ∧
  (∀ (link : Fin 2) (s : State), 
    leashUp s link.val = true →
    Completes (.leashLockLost link) s fun t =>
      leashUp t link.val = false ∧ t.red.links.at link.val = default ∧ Emitted s t (0x5E1 + link.val) 2 0xE08 1) ∧
  (∀ (link : Fin 2) (s : State), 
    leashUp s link.val = true →
    Completes (.leashSilence link) s fun t =>
      leashUp t link.val = false ∧ t.red.links.at link.val = default ∧ Emitted s t (0x5E1 + link.val) 2 0xE08 2) ∧
  (∀ (link : Fin 2) (x : Nat × LeashFrame) (s : State), 
    leashUp s link.val = true →
    x ∈ (s.red.links.at link.val).sent →
    (s.red.links.at link.val).resends < 16 →
    Completes (.leashResendTimeout link) s fun t =>
      (∃ d w, .leash link.val x.1 (s.red.links.at link.val).rx true d (epochNow s) x.2 w ∈ t.out) ∧
      (t.red.links.at link.val).resends = (s.red.links.at link.val).resends + 1 ∧
      (t.red.links.at link.val).sent = (s.red.links.at link.val).sent) ∧
  (∀ (link : Fin 2) (s : State), 
    leashUp s link.val = true →
    (s.red.links.at link.val).sent ≠ [] →
    16 ≤ (s.red.links.at link.val).resends →
    Completes (.leashResendTimeout link) s fun t =>
      leashUp t link.val = false ∧ Emitted s t (0x5E1 + link.val) 2 0xE08 3) ∧
  (∀ (link : Fin 2) (s : State), 
    leashUp s link.val = true →
    Completes (.idleFrameTimer link) s fun t =>
      LeashSent s t link.val 0 (epochNow s) (.idle (if groupActive s then some s.now else none)) ∧
      (t.red.links.at link.val).tx = (s.red.links.at link.val).tx + 1) ∧
  (∀ (h : LeashHdr) (gts : Option Nat) (s : State), 
    FrameTaken s h →
    Completes (.idleFrameReceived h gts) s fun t =>
      (t.red.links.at h.link.val).rx = h.lseq ∧
      (t.red.links.at h.link.val).acked = max (s.red.links.at h.link.val).acked h.ack) ∧
  (∀ (h : LeashHdr) (gts : Option Nat) (s : State), 
    leashUp s h.link.val = true →
    h.crcOk = false →
    Completes (.idleFrameReceived h gts) s fun t =>
      t.red = s.red ∧ t.ctl = s.ctl ∧ t.fldI F.RED_LINK_STAT_CRC_ERR h.link.val =
      min F.RED_LINK_STAT_CRC_ERR.max (s.fldI F.RED_LINK_STAT_CRC_ERR h.link.val + 1)) ∧
  (∀ (s : State), 
    recordsRun s = true →
    Completes (.epochEnd) s fun t =>
      t.red.caps = [] ∧ t.red.commits = [] ∧ t.red.leaves = [] ∧
      t.red.backlog.map (·.epoch) = s.red.backlog.map (·.epoch) ++ [epochNow s - 1]) ∧
  (∀ (us from_ : Nat) (s : State), 
    groupActive s = false →
    s.red.nextEpochUs = some (us, from_) →
    from_ ≤ s.now →
    Completes (.epochEnd) s fun t =>
      t.fld F.RED_MODE_EPOCH_US = us % 32 ∧ t.red.nextEpochUs = none ∧ t.out = s.out) ∧
  (∀ (q : QueuedRec) (rest : List QueuedRec) (s : State), 
    s.red.backlog = q :: rest →
    s.cmd.ps ≠ 4 →
    Completes (.epochRecordSent) s fun t =>
      t.red.backlog = rest ∧ t.fld F.RED_EPOCH_LO_EPOCH = q.epoch % 2 ^ 32 ∧
      (∀ a ∈ q.acks, (ctxOf s a.1).state ≠ 0 → PacketSent t a.1 (.ack a.2.1 a.2.2)))

/-- R352 to R359, R363, R365, R367, R368: what the frames of the other units do. -/
def Obligations.ReplicaFramesComplete : Prop :=
  (∀ (h : LeashHdr) (rec_ : Option EpochRec) (s : State), 
    FrameTaken s h →
    redState s = 2 →
    Completes (.epochFrameReceived h rec_) s fun t =>
      t.fld F.RED_STAT_ACTIVE_ROLE = h.src % 4 ∧ t.fld F.RED_STAT_ACTIVE_VALID = 1 ∧ t.red.recordLink = h.link.val ∧
      t.red.probing = .none) ∧
  (∀ (h : LeashHdr) (r : EpochRec) (s : State), 
    FrameTaken s h →
    redState s = 4 →
    r.commits = [] →
    leashUp s (1 - h.link.val) = true →
    Completes (.epochFrameReceived h (some r)) s fun t =>
      ∃ link lseq ack dst e w, .leash link lseq ack false dst e (.echo r.epoch []) w ∈ t.out) ∧
  (∀ (h : LeashHdr) (ns : List Notice) (s : State), 
    FrameTaken s h →
    redState s = 4 →
    Completes (.noticeFrameReceived h ns) s fun t =>
      t.red.notices = s.red.notices ++ ns ∧
      (∀ p ∈ s.red.pend, ∀ n ∈ ns, 3 ≤ n.kind → p.told n = true → { p with done := true } ∈ t.red.pend)) ∧
  (∀ (h : LeashHdr) (epoch : Nat) (votes : List Vote) (s : State), 
    FrameTaken s h →
    groupActive s = true →
    redMode s = 1 →
    h.src < 3 →
    ∀ v ∈ votes, v.agree = true →
    s.fldI F.RED_PEER_STAT_STATE h.src = 3 ∨ bitAt (s.fld F.RED_STAT_HEEL) h.src = true →
    Completes (.echoReceived h epoch votes) s fun t =>
      bitAt (t.fld F.RED_STAT_HEEL) h.src = true ∧ t.fldI F.RED_PEER_STAT_MISSES h.src = 0 ∧
      (s.fldI F.RED_PEER_STAT_STATE h.src = 3 → Emitted s t 0x5E4 1 0xE0E h.src)) ∧
  (∀ (h : LeashHdr) (epoch : Nat) (votes : List Vote) (v : Vote) (s : State), 
    FrameTaken s h →
    groupActive s = true →
    redMode s = 1 →
    h.src < 3 →
    v ∈ votes →
    v.agree = false →
    Completes (.echoReceived h epoch votes) s fun t =>
      bitAt (t.fld F.RED_STAT_HEEL) h.src = false ∧ h.src ∉ t.red.inQuorum) ∧
  (∀ (r : Fin 3) (s : State), 
    groupActive s = true →
    bitAt (s.fld F.RED_STAT_HEEL) r.val = true →
    s.fldI F.RED_PEER_STAT_MISSES r.val = 0 →
    Completes (.voteMissed r) s fun t =>
      t.fldI F.RED_PEER_STAT_MISSES r.val = 1 ∧ t.red = s.red ∧ t.ctl = s.ctl) ∧
  (∀ (r : Fin 3) (s : State), 
    groupActive s = true →
    bitAt (s.fld F.RED_STAT_HEEL) r.val = true →
    s.fldI F.RED_PEER_STAT_MISSES r.val = 2 →
    Completes (.voteMissed r) s fun t =>
      Emitted s t 0x5E0 3 0xE06 r.val) ∧
  (∀ (h : LeashHdr) (s : State), 
    FrameTaken s h →
    redState s ≠ 8 →
    Completes (.fenceReceived h (role s)) s fun t =>
      t.drv.stopped = true ∧ Emitted s t 0x5E0 4 0xE0A (16 + role s) ∧ Emitted s t 0x5E0 1 0xE01 (redState s * 16 + 8)) ∧
  (∀ (h : LeashHdr) (epoch : Nat) (s : State), 
    FrameTaken s h →
    redState s = 4 →
    epoch = lastEpoch s →
    h.src < 3 →
    Completes (.takeoverReceived h epoch) s fun t =>
      activeRole t = h.src ∧ t.fld F.RED_STAT_ACTIVE_VALID = 1 ∧ t.fldI F.RED_PEER_STAT_MISSES h.src = 0 ∧ t.ctl = s.ctl) ∧
  (∀ (h : LeashHdr) (epoch : Nat) (s : State), 
    FrameTaken s h →
    redState s = 4 →
    epoch ≠ lastEpoch s →
    Completes (.takeoverReceived h epoch) s fun t =>
      Emitted s t 0x5E4 1 0xE0D (role s) ∧ (t.red.outOfStep.getLast? = some s.now)) ∧
  (∀ (h : LeashHdr) (s : State), 
    FrameTaken s h →
    redState s ≠ 6 →
    h.src < 3 →
    Completes (.handoverDoneReceived h) s fun t =>
      activeRole t = h.src ∧ t.fld F.RED_STAT_ACTIVE_VALID = 1 ∧ t.ctl = s.ctl) ∧
  (∀ (h : LeashHdr) (mode us c : Nat) (digest : Digest) (key : Bool) (s : State), 
    FrameTaken s h →
    groupActive s = true →
    joinTest s h.src mode us digest key = some c →
    Completes (.joinReceived h mode us digest key) s fun t =>
      LeashSent (leashIn h s).1 t h.link.val 0 (epochNow s) (.joinReply (epochNow s) (some c)) ∧ Emitted s t 0x5E4 3 0xE12 c) ∧
  (∀ (h : LeashHdr) (mode us : Nat) (digest : Digest) (key : Bool) (s : State), 
    FrameTaken s h →
    groupActive s = true →
    joinTest s h.src mode us digest key = none →
    Completes (.joinReceived h mode us digest key) s fun t =>
      Emitted s t 0x5E4 1 0xE0D h.src ∧ LeashSent (leashIn h s).1 t h.link.val 0 (epochNow s) (.joinReply (epochNow s) none) ∧
      ∃ objs, LeashSent (leashIn h s).1 t h.link.val 1 (epochNow s) (.bulk (epochNow s) objs)) ∧
  (∀ (h : LeashHdr) (epoch : Nat) (s : State), 
    FrameTaken s h →
    redState s = 2 →
    roleInMode s (role s) = true →
    pairKeyOf s ≠ none →
    Completes (.joinReplyReceived h epoch none) s fun t =>
      t.red.recordLink = h.link.val ∧ t.lay.map = [] ∧ t.cmd.ctrls = [] ∧ t.xpt.ctx = [] ∧ Emitted s t 0x5E4 1 0xE0D (role s)) ∧
  (∀ (h : LeashHdr) (epoch c : Nat) (s : State), 
    FrameTaken s h →
    redState s = 3 →
    Completes (.joinReplyReceived h epoch (some c)) s fun t =>
      Emitted s t 0x5E4 2 0xE0F 3 ∧ t.red.pend = [] ∧ t.red.copied = []) ∧
  (∀ (h : LeashHdr) (epoch percent : Nat) (objs : List BulkObj) (s : State), 
    FrameTaken s h →
    redState s = 3 →
    Completes (.bulkReceived h epoch percent true objs) s fun t =>
      t.red.bulkDone = true ∧ t.fld F.RED_RESYNC_STAT_STEP = 4) ∧
  (∀ (h : LeashHdr) (epoch percent i : Nat) (g : Geometry) (s : State), 
    FrameTaken s h →
    redState s = 3 →
    Completes (.bulkReceived h epoch percent false [.geom i g]) s fun t =>
      t.lay.geoms.at i = g ∧ t.fld F.RED_RESYNC_STAT_PERCENT = min 100 percent) ∧
  (∀ (h : LeashHdr) (kind : Nat) (slot : Fin 48) (s : State), 
    FrameTaken s h →
    Completes (.queryReceived h kind slot none) s fun t =>
      (t.red.links.at h.link.val).tx = (s.red.links.at h.link.val).tx + 1 ∧ (t.red.links.at h.link.val).rx = h.lseq ∧
      t.out.length = s.out.length + 1) ∧
  (∀ (s : State), 
    redState s = 2 →
    roleInMode s (role s) = true →
    leashUp s 0 = true →
    Completes (.joinTimer) s fun t =>
      LeashSent s t 0 0 (epochNow s) (.join (redMode s) (s.fld F.RED_MODE_EPOCH_US) s.boot.m2Digest (pairKeyOf s).isSome) ∧
      (leashUp s 1 = true → LeashSent s t 1 0 (epochNow s)
        (.join (redMode s) (s.fld F.RED_MODE_EPOCH_US) s.boot.m2Digest (pairKeyOf s).isSome))) ∧
  (∀ (s : State), 
    redState s = 2 →
    role s < 2 →
    roleInMode s (role s) = true →
    s.fld F.RED_STAT_ACTIVE_VALID = 0 →
    Completes (.joinTimeExpiry) s fun t =>
      Emitted s t 0x5E0 1 0xE01 38 ∧ activeRole t = role s ∧ t.fld F.RED_STAT_ACTIVE_VALID = 1 ∧ t.lay.replayEnded = false) ∧
  (∀ (p : Nat) (rest : List Nat) (s : State), 
    groupActive s = true →
    readyPorts s = p :: rest →
    Completes (.reservationCheck true) s fun t =>
      t = s.send (.driveAdmin p "report reservation" 0)) ∧
  (∀ (p : Nat) (rest : List Nat) (s : State), 
    groupActive s = true →
    readyPorts s = p :: rest →
    Completes (.reservationCheck false) s fun t =>
      .driveAdmin p "report reservation" 0 ∈ t.out ∧ t.drv.stopped = true ∧ Emitted s t 0x5E0 1 0xE01 103)

/-- R360 to R363, R369: misses, probes, the steps of a takeover. -/
def Obligations.TakeoverCompletes : Prop :=
  (∀ (s : State), 
    redState s = 4 →
    activeRole s < 3 →
    s.fldI F.RED_PEER_STAT_MISSES (activeRole s) ≠ 2 →
    s.fldI F.RED_PEER_STAT_MISSES (activeRole s) < 15 →
    Completes (.epochMiss) s fun t =>
      t.fldI F.RED_PEER_STAT_MISSES (activeRole s) = s.fldI F.RED_PEER_STAT_MISSES (activeRole s) + 1 ∧
      Emitted s t 0x5E0 0 0xE02 ((s.fldI F.RED_PEER_STAT_MISSES (activeRole s) + 1) % 4 * 16 + activeRole s) ∧ t.out = s.out) ∧
  (∀ (s : State), 
    redState s = 3 →
    activeRole s < 3 →
    s.fldI F.RED_PEER_STAT_MISSES (activeRole s) = 2 →
    Completes (.epochMiss) s fun t =>
      Emitted s t 0x5E4 2 0xE0F 1 ∧ Emitted s t 0x5E0 1 0xE01 50) ∧
  (∀ (s : State), 
    redState s = 4 →
    redMode s = 1 →
    activeRole s < 3 →
    s.fldI F.RED_PEER_STAT_MISSES (activeRole s) = 2 →
    s.red.recordLink = 0 →
    leashUp s 1 = true →
    Completes (.epochMiss) s fun t =>
      Emitted s t 0x5E0 2 0xE03 (activeRole s) ∧ t.red.probing = .active ∧ t.red.takeoverFrom = s.now ∧
      LeashSent s t 1 0 (epochNow s) (.probe (activeRole s))) ∧
  (∀ (s : State), 
    redState s = 4 →
    redMode s = 1 →
    activeRole s < 3 →
    s.fldI F.RED_PEER_STAT_MISSES (activeRole s) = 2 →
    s.red.recordLink = 0 →
    leashUp s 1 = false →
    Completes (.epochMiss) s fun t =>
      Emitted s t 0x5E0 2 0xE03 (activeRole s) ∧ Emitted s t 0x5E0 3 0xE04 (16 + activeRole s) ∧ Emitted s t 0x5E0 1 0xE01 69) ∧
  (∀ (h : LeashHdr) (about : Nat) (s : State), 
    FrameTaken s h →
    about < 3 →
    about ≠ role s ∨ groupActive s = true →
    Completes (.probeReceived h about) s fun t =>
      ∃ x, x ∈ t.out ∧ (∃ n a d e w, x = .leash h.link.val n a false d e (.probeReply about (s.fldI F.RED_PEER_STAT_MISSES about) (redState s == 4)) w)) ∧
  (∀ (h : LeashHdr) (s : State), 
    FrameTaken s h →
    groupActive s = false →
    Completes (.probeReceived h (role s)) s fun t =>
      t.out = s.out ∧ (t.red.links.at h.link.val).rx = h.lseq) ∧
  (∀ (h : LeashHdr) (s : State), 
    FrameTaken s h →
    redMode s = 1 →
    groupActive s = true →
    s.red.recordLink ≠ h.link.val →
    leashUp s (1 - h.link.val) = true →
    Completes (.probeReceived h (role s)) s fun t =>
      t.red.recordLink = h.link.val ∧ leashUp t (1 - h.link.val) = false ∧ Emitted s t (0x5E1 + (1 - h.link.val)) 2 0xE08 2) ∧
  (∀ (h : LeashHdr) (misses : Nat) (heel : Bool) (s : State), 
    FrameTaken s h →
    s.red.probing = .active →
    activeRole s < 3 →
    Completes (.probeReplyReceived h (activeRole s) misses heel) s fun t =>
      t.red.probing = .none ∧ t.red.recordLink = h.link.val ∧ t.fldI F.RED_PEER_STAT_MISSES (activeRole s) = 0) ∧
  (∀ (h : LeashHdr) (misses : Nat) (heel : Bool) (s : State), 
    FrameTaken s h →
    s.red.probing = .viaC →
    2 ≤ misses ∨ heel = false →
    Completes (.probeReplyReceived h (activeRole s) misses heel) s fun t =>
      t.red.probing = .none ∧ Emitted s t 0x5E0 3 0xE04 (16 + activeRole s)) ∧
  (∀ (h : LeashHdr) (misses : Nat) (s : State), 
    FrameTaken s h →
    s.red.probing = .viaC →
    misses < 2 →
    redState s = 4 →
    Completes (.probeReplyReceived h (activeRole s) misses true) s fun t =>
      t.red.probing = .none ∧ Emitted s t 0x5E0 1 0xE01 66 ∧ t.red.pend = []) ∧
  (∀ (s : State), 
    s.red.probing ≠ .none →
    redState s = 4 →
    Completes (.probeTimeout) s fun t =>
      t.red.probing = .none ∧ Emitted s t 0x5E0 3 0xE04 (16 + activeRole s) ∧ Emitted s t 0x5E0 1 0xE01 69) ∧
  (∀ (tail : List JRec) (ckpt : Option (Nat × Bool × Nat)) (store : List (Bytes × Bytes)) (driveNs : Nat) (s : State), 
    redState s = 5 →
    Completes (.takeoverReplayDone tail ckpt store driveNs) s fun t =>
      t.red.pend = [] ∧ t.red.disputed = [] ∧ t.red.order = none ∧ Emitted s t 0x5E0 1 0xE01 86) ∧
  (∀ (s : State), 
    bitAt s.cmd.boundStat 1 = true →
    redState s = 6 →
    Completes (.takeoverDone) s fun t =>
      t.red.notices = [] ∧ bitAt t.cmd.boundStat 1 = false ∧ Emitted s t 0x5E0 2 0xE05 (s.fld F.RED_TAKEOVER_STAT_LAST_US))

/-- R366, R370: the orders of RED_ROLE and the steps of a handover. -/
def Obligations.RoleOrdersComplete : Prop :=
  (∀ (path : Fin 5) (session : Nat) (value : Word) (s : State), 
    MayWrite path session 0x0E000054 s →
    bitsOf value.toNat 31 28 = 1 →
    s.fld F.RED_ORDER_STAT_BUSY = 0 →
    roleInMode s (bitsOf value.toNat 1 0) = true ∧ bitsOf value.toNat 1 0 ≠ 2 →
    groupActive s = true →
    (peersInHeel s).contains (bitsOf value.toNat 1 0) = true →
    Completes (.redRoleSwitch path session value) s fun t =>
      t.red.order = some (bitsOf value.toNat 1 0) ∧ t.fld F.RED_ORDER_STAT_BUSY = 1) ∧
  (∀ (path : Fin 5) (session : Nat) (value : Word) (s : State), 
    MayWrite path session 0x0E000054 s →
    bitsOf value.toNat 31 28 = 1 →
    s.fld F.RED_ORDER_STAT_BUSY = 0 →
    roleInMode s (bitsOf value.toNat 1 0) = true ∧ bitsOf value.toNat 1 0 ≠ 2 →
    groupActive s = false ∨ (peersInHeel s).contains (bitsOf value.toNat 1 0) = false →
    Completes (.redRoleSwitch path session value) s fun t =>
      t.red = s.red ∧ t.fld F.RED_ORDER_STAT_RESULT = 2) ∧
  (∀ (path : Fin 5) (session : Nat) (value : Word) (s : State), 
    MayWrite path session 0x0E000054 s →
    bitsOf value.toNat 31 28 = 1 →
    s.fld F.RED_ORDER_STAT_BUSY = 1 →
    Completes (.redRoleSwitch path session value) s fun t =>
      t.red = s.red ∧ t.fld F.RED_ORDER_STAT_REFUSED = 1) ∧
  (∀ (path : Fin 5) (session : Nat) (value : Word) (s : State), 
    MayWrite path session 0x0E000054 s →
    bitsOf value.toNat 31 28 = 2 →
    s.fld F.RED_ORDER_STAT_BUSY = 0 →
    roleInMode s (bitsOf value.toNat 1 0) = true →
    ableWithout s (bitsOf value.toNat 1 0) = true →
    redState s ≠ 8 →
    Completes (.redRoleFence path session value) s fun t =>
      t.fld F.RED_ORDER_STAT_RESULT = 1 ∧ Emitted s t 0x5E0 4 0xE0A (32 + bitsOf value.toNat 1 0)) ∧
  (∀ (path : Fin 5) (session : Nat) (value : Word) (s : State), 
    MayWrite path session 0x0E000054 s →
    bitsOf value.toNat 31 28 = 2 →
    s.fld F.RED_ORDER_STAT_BUSY = 0 →
    roleInMode s (bitsOf value.toNat 1 0) = true →
    ableWithout s (bitsOf value.toNat 1 0) = false →
    Completes (.redRoleFence path session value) s fun t =>
      t.red = s.red ∧ t.fld F.RED_ORDER_STAT_RESULT = 4) ∧
  (∀ (path : Fin 5) (session : Nat) (value : Word) (s : State), 
    MayWrite path session 0x0E000054 s →
    bitsOf value.toNat 31 28 = 3 →
    s.fld F.RED_ORDER_STAT_BUSY = 0 →
    bitsOf value.toNat 1 0 = role s ∧ roleInMode s (role s) = true →
    redState s = 8 →
    Completes (.redRoleRelease path session value) s fun t =>
      Emitted s t 0x5E0 1 0xE01 130 ∧ t.drv.stopped = false ∧ t.red.joinFrom = s.now ∧ t.fld F.RED_ORDER_STAT_RESULT = 1) ∧
  (∀ (path : Fin 5) (session : Nat) (value : Word) (s : State), 
    MayWrite path session 0x0E000054 s →
    bitsOf value.toNat 31 28 = 4 →
    s.fld F.RED_ORDER_STAT_BUSY = 0 →
    roleInMode s (bitsOf value.toNat 1 0) = true →
    ableWithout s (role s) = true →
    groupActive s = true →
    Completes (.redRoleStandDown path session value) s fun t =>
      Emitted s t 0x5E0 1 0xE01 103 ∧ t.drv.stopped = true ∧ t.fld F.RED_ORDER_STAT_RESULT = 1) ∧
  (∀ (r : Nat) (s : State), 
    s.red.order = some r →
    groupActive s = true →
    (entriesWhere s fun _ => true) = [] →
    Completes (.handover) s fun t =>
      t.red.order = none ∧ t.cmd.queued = [] ∧ t.red.pend = s.cmd.queued.map (fun c => ⟨c, false, false⟩) ∧
      t.fld F.RED_ORDER_STAT_BUSY = 0 ∧ t.fld F.RED_ORDER_STAT_RESULT = 1 ∧ Emitted s t 0x5E0 1 0xE11 r) ∧
  (∀ (r : Nat) (s : State), 
    s.red.order = some r →
    Completes (.handoverDrainLimit) s fun t =>
      t.red = { s.red with order := none } ∧ t.fld F.RED_ORDER_STAT_BUSY = 0 ∧ t.fld F.RED_ORDER_STAT_RESULT = 5)

/-- R383 to R389, R394, R399 to R402: handshakes, the opcodes of a session's own, and the ends of a session. -/
def Obligations.SessionsComplete : Prop :=
  (∀ (port : Fin 2) (principal : Nat) (payload : Bytes) (sigOk : Bool) (s : State), 
    mgmtLanes s = true →
    principal = ofBe (payload.take 2) →
    (s.ctl.principals.at principal).valid = false →
    Completes (.hello port payload sigOk) s fun t =>
      .handshake port.val 0 0x11 [] (helloWire 0 0x11 []) ∈ t.out ∧ Emitted s t (0x010 + port.val) 3 0x00E (principal % 256 * 2 ^ 16 + 1) ∧
      t.ctl.sessions = s.ctl.sessions) ∧
  (∀ (port : Fin 2) (principal : Nat) (payload k : Bytes) (s : State), 
    mgmtLanes s = true →
    principal = ofBe (payload.take 2) →
    (s.ctl.principals.at principal).valid = true →
    bitAt (s.ctl.principals.at principal).ports port.val = true →
    principalKey s (s.ctl.principals.at principal) = some k →
    s.ctl.sessions.countWhere (fun _ x => x.port == port.val) < 4 →
    s.fld F.TRU_STAT_ENTROPY_OK = 1 →
    freeSlot s ≠ none →
    freeHandle s 0 3 ≠ none →
    Completes (.hello port payload true) s fun t =>
      sessionOpen t (s.ctl.sessions.gap 1) = true ∧ (t.ctl.sessions.at (s.ctl.sessions.gap 1)).principal = principal ∧
      Emitted s t (0x010 + port.val) 1 0x00C (principal % 256 * 2 ^ 16 + s.ctl.sessions.gap 1)) ∧
  (∀ (r : Req) (s : State), 
    Serves s r [0] false true →
    Completes (.ping r) s fun t =>
      Replied t r 0x01 0 (.gts s.now)) ∧
  (∀ (r : Req) (lease : Nat) (s : State), 
    Serves s r [2] false true →
    s.ctl.bone.held = false →
    Completes (.boneAcquire r lease) s fun t =>
      t.ctl.bone = ⟨true, 2 * r.port.val, r.session, s.now + leaseOf s lease * 1000000000, leaseOf s lease * 1000000000⟩ ∧
      Replied t r 0x20 0 (.holder (2 * r.port.val) r.session) ∧
      Emitted s t 0x004 1 0x008 (2 * r.port.val * 2 ^ 16 + r.session % 2 ^ 16)) ∧
  (∀ (r : Req) (lease : Nat) (s : State), 
    Serves s r [2] false true →
    s.ctl.bone.held = true →
    Completes (.boneAcquire r lease) s fun t =>
      t.ctl.bone.path = s.ctl.bone.path ∧ t.ctl.bone.session = s.ctl.bone.session ∧
      Replied t r 0x20 5 (.holder s.ctl.bone.path s.ctl.bone.session)) ∧
  (∀ (r : Req) (s : State), 
    Serves s r [2] false true →
    holdsBone s (2 * r.port.val) r.session = true →
    Completes (.boneRelease r) s fun t =>
      t.ctl.bone = default ∧ Replied t r 0x21 0 .none ∧ Emitted s t 0x004 1 0x009 s.ctl.bone.data) ∧
  (∀ (r : Req) (ring : Nat) (s : State), 
    Serves s r [1] false false →
    ring < 8 →
    (s.ctl.rings.at ring).reader = 0 →
    Completes (.eventSubscribe r ring) s fun t =>
      (t.ctl.rings.at ring).reader = 2 ∧ (t.ctl.rings.at ring).session = r.session ∧
      (t.ctl.rings.at ring).recs = (s.ctl.rings.at ring).recs ∧ Replied t r 0x40 0 (.number (nextRecord (s.ctl.rings.at ring)))) ∧
  (∀ (r : Req) (ring : Nat) (s : State), 
    Serves s r [1] false false →
    ring < 8 →
    (s.ctl.rings.at ring).reader ≠ 0 →
    Completes (.eventSubscribe r ring) s fun t =>
      t.ctl.rings = s.ctl.rings ∧ Replied t r 0x40 7 .none) ∧
  (∀ (r : Req) (ring seq : Nat) (s : State), 
    Serves s r [1] false false →
    ringBound s ring r.session = true →
    Completes (.eventAck r ring seq) s fun t =>
      Replied t r 0x41 0 .none ∧ ((s.ctl.rings.at ring).lost = 0 →
        (t.ctl.rings.at ring).recs = (s.ctl.rings.at ring).recs.filter fun e => decide (seq < e.1))) ∧
  (∀ (r : Req) (ring : Nat) (s : State), 
    Serves s r [1] false false →
    ringBound s ring r.session = true →
    Completes (.eventUnsubscribe r ring) s fun t =>
      (t.ctl.rings.at ring).reader = 0 ∧ (t.ctl.rings.at ring).recs = (s.ctl.rings.at ring).recs ∧ Replied t r 0x42 0 .none) ∧
  (∀ (ring : Fin 8) (seq : Nat) (m : RingMsg) (s : State), 
    (s.ctl.rings.at ring.val).unacked.find? (fun m => m.seq == seq) = some m →
    (s.ctl.rings.at ring.val).reader = 2 →
    sessionOpen s (s.ctl.rings.at ring.val).session = true →
    Completes (.eventMessageResend ring seq) s fun t =>
      .ringMessage (s.ctl.sessions.at (s.ctl.rings.at ring.val).session).port (s.ctl.rings.at ring.val).session
        (s.ctl.sessions.at (s.ctl.rings.at ring.val).session).nextSeq ring.val m.first
        (((s.ctl.rings.at ring.val).recs.filter fun e => decide (m.first ≤ e.1) && decide (e.1 < m.first + m.count)).map (·.2))
        (mgmtWire s (s.ctl.rings.at ring.val).session 3 0 0 0 (ringPayload ring.val m.first
          (((s.ctl.rings.at ring.val).recs.filter fun e => decide (m.first ≤ e.1) && decide (e.1 < m.first + m.count)).map (·.2)))) ∈ t.out) ∧
  (∀ (r : Req) (first count : Nat) (s : State), 
    Serves s r [0] false true →
    count ≤ 500 →
    first < s.ctl.clog.length →
    Completes (.clogRead r first count) s fun t =>
      Replied t r 0x43 0 (.records ((s.ctl.clog.drop first).take count)) ∧ t.ctl.clog = s.ctl.clog) ∧
  (∀ (r : Req) (s : State), 
    Serves s r [] false true →
    Completes (.sessionClose r) s fun t =>
      sessionOpen t r.session = false ∧ Replied t r 0x90 0 .none ∧ Emitted s t (0x010 + r.port.val) 1 0x00D (2 ^ 24 + r.session)) ∧
  (∀ (r : Req) (opcode : Nat) (s : State), 
    Serves s r [] false true →
    Completes (.badOpcode r opcode) s fun t =>
      Replied t r opcode 2 .none ∧ t.ctl.rings = s.ctl.rings ∧ t.regs = s.regs) ∧
  (∀ (session : Nat) (s : State), 
    sessionOpen s session = true →
    Completes (.sessionIdleTimeout session) s fun t =>
      sessionOpen t session = false ∧
      Emitted s t (0x010 + (s.ctl.sessions.at session).port) 1 0x00D (2 * 2 ^ 24 + session) ∧
      (holdsBone s (2 * (s.ctl.sessions.at session).port) session = true → t.ctl.bone = default)) ∧
  (∀ (port : Fin 2) (id : Nat) (s : State), 
    sessionOpen s id = true →
    (s.ctl.sessions.at id).port = port.val →
    Completes (.mgmtLinkLoss port) s fun t =>
      sessionOpen t id = false ∧ Emitted s t (0x010 + port.val) 1 0x00D (3 * 2 ^ 24 + id)) ∧
  (∀ (port : Fin 2) (target : Bytes) (s : State), 
    mgmtLanes s = true →
    target.length = 16 →
    target = slice s.ctl.mgmtAddrs (12 + 16 * port.val) 16 →
    Completes (.mgmtNeighbourDiscovery port true target) s fun t =>
      t = s.send (.neighbourAdvert port.val target))

/-- R179, R182, R190, R253, R293, R297, R301, R307, R334, R388, R390: the opcodes over what other subsystems hold. -/
def Obligations.ManagementOpcodesComplete : Prop :=
  (∀ (r : Req) (addr count : Nat) (s : State), 
    Serves s r [0] false true →
    1 ≤ count ∧ count ≤ 256 →
    Completes (.regRead r addr count) s fun t =>
      ∃ ws, ws.length = count ∧ Replied t r 0x10 0 (.words ws)) ∧
  (∀ (r : Req) (addr : Nat) (value : Word) (row : RegRow × Nat) (s : State), 
    Serves s r [1] false false →
    findReg addr = some row →
    mapped addr = true →
    0x01000000 ≤ addr ∧ 0x20 ≤ addr % 0x1000000 →
    addr ∉ [0x0400007C, 0x04000080] →
    addr ∉ [0x03000054, 0x04000044, 0x04000060, 0x04000074, 0x0D00005C] →
    ∀ m ∈ s.ctl.marks, m.gts = s.now → m.addr ≠ addr →
    protectedAddr addr = false →
    writeOwnArray (reqPath r) r.session addr value s = none →
    writeOwnLow (reqPath r) r.session addr value s = none →
    writeOwnMid (reqPath r) r.session addr value s = none →
    writeOwnHigh (reqPath r) r.session addr value s = none →
    s.locked = false →
    Completes (.regWrite r [(addr, value)]) s fun t =>
      Replied t r 0x11 0 (.statuses [0]) ∧
      rawWord t.regs addr = BitVec.ofNat 32 (crossTreat addr (wordWrite false row.1.fields value.toNat (rawWord s.regs addr).toNat))) ∧
  (∀ (r : Req) (blob : Bytes) (s : State), 
    Serves s r [] true false →
    blob.length ≤ 256 →
    Completes (.keyPut r blob) s fun t =>
      t.cip = { s.cip with mailbox := blob, mailboxSession := r.session } ∧ Replied t r 0x50 0 .none) ∧
  (∀ (r : Req) (s : State), 
    Serves s r [] true false →
    s.cip.mailbox ≠ [] →
    s.cip.mailboxSession = r.session →
    Completes (.keyGet r) s fun t =>
      t.cip = { s.cip with mailbox := [], mailboxSession := 0 } ∧ Replied t r 0x51 0 (.blobs [s.cip.mailbox])) ∧
  (∀ (r : Req) (count : Nat) (s : State), 
    Serves s r [3] false false →
    Completes (.escrowCollect r count) s fun t =>
      t.cip = { s.cip with escrow := s.cip.escrow.drop count } ∧ Replied t r 0x52 0 (.blobs (s.cip.escrow.take count))) ∧
  (∀ (r : Req) (name : LeafName) (b : Batch) (i : Nat) (l : Leaf) (s : State), 
    Serves s r [0] false false →
    leafFor s name = .ok (b, i, l) →
    Completes (.receiptGet r name) s fun t =>
      Replied t r 0x60 0 (.blobs [receiptOf s b i l]) ∧ t.fix = s.fix) ∧
  (∀ (r : Req) (name : LeafName) (e : Nat) (s : State), 
    Serves s r [0] false false →
    leafFor s name = .error e →
    Completes (.receiptGet r name) s fun t =>
      Replied t r 0x60 e .none ∧ t.fix = s.fix) ∧
  (∀ (r : Req) (name : LeafName) (b : Batch) (i : Nat) (l : Leaf) (s : State), 
    Serves s r [3] false false →
    leafFor s name = .ok (b, i, l) →
    Completes (.custodyExport r name) s fun t =>
      Replied t r 0x61 0 (.blobs (receiptOf s b i l :: (custodyChain s b.seq i l).flatMap fun x => [x.1, x.2])) ∧ t.fix = s.fix) ∧
  (∀ (r : Req) (rotation : Nat) (s : State), 
    Serves s r [0] false true →
    Completes (.certGet r 1 rotation) s fun t =>
      Replied t r 0x62 0 (.blobs [Config.deviceCertificate]) ∧ t.tru = s.tru) ∧
  (∀ (r : Req) (rotation : Nat) (s : State), 
    Serves s r [0] false true →
    s.tru.sessionKeyMade = true →
    Completes (.certGet r 2 rotation) s fun t =>
      Replied t r 0x62 0 (.signed (sessionCert s)) ∧ t.tru = s.tru) ∧
  (∀ (r : Req) (nonce : Bytes) (s : State), 
    Serves s r [0] false true →
    nonce.length = 32 →
    s.tru.sessionKeyMade = true →
    Completes (.quote r nonce) s fun t =>
      Replied t r 0x63 0 (.quote (quoteBody s nonce) s.tru.bootCount (hedge s) (sessionCert s)) ∧ Emitted s t 0x5B2 0 0xB08 0) ∧
  (∀ (r : Req) (items : MigItems) (j : Nat) (s : State), 
    Serves s r [3] true false →
    isActive s = true →
    items.regions ≠ [] ∧ items.regions.length ≤ 16 →
    s.cmd.namespaces.any (fun n => n.1 == items.nsid) = true →
    migKey s items.page items.handle = true →
    freeJob s = some j →
    Completes (.migJobCreate r items) s fun t =>
      Replied t r 0x70 0 (.number j) ∧ (jobOf t j).state = 1 ∧ (jobOf t j).nsid = items.nsid ∧ (jobOf t j).uid = items.uid ∧
      Emitted s t 0x583 1 0x806 (j * 2 ^ 32 + 1)) ∧
  (∀ (r : Req) (slot : Nat) (s : State), 
    Serves s r [3] false false →
    slot < 16 →
    (jobOf s slot).state ≠ 0 →
    Completes (.migJobReport r slot) s fun t =>
      Replied t r 0x71 0 (.job (jobOf s slot).state (jobOf s slot).target (jobOf s slot).pass (jobOf s slot).failed
        (jobOf s slot).objs ((jobOf s slot).report.map (·.extent))) ∧ t.fix = s.fix) ∧
  (∀ (r : Req) (pages : Nat) (s : State), 
    Serves s r [1] false false →
    16 * pages + s.fld F.SWC_C0_FLOOR_COUNT ≤ freeCells s →
    (allocPages pages s).isSome = true →
    Completes (.cellsAlloc r pages) s fun t =>
      ∃ hs, hs.length = pages ∧ Replied t r 0x80 0 (.handles hs)) ∧
  (∀ (r : Req) (handles : List Nat) (s : State), 
    Serves s r [1] false false →
    ∀ h ∈ handles, s.net.peerChains.at h ≠ [] →
    Completes (.cellsFree r handles) s fun t =>
      Replied t r 0x81 0 .none ∧ ∀ h ∈ handles, t.net.peerChains.at h = [])

/-- R378, R380, R381, R387, R391, R466: stores by a session and over I3C, profiles, and the I3C reads and writes. -/
def Obligations.StoresAndSidePathsComplete : Prop :=
  (∀ (r : Req) (kind slot length : Nat) (s : State), 
    Serves s r [] true true →
    kind = 1 ∧ slot < 8 ∨ kind = 2 ∧ slot < 2 →
    0 < length →
    slotRuns s kind slot = false →
    (s.ctl.stores.any fun j => j.kind == kind && j.slot == slot && !j.by_ (2 * r.port.val) r.session) = false →
    (if kind = 1 then units64 length else length) ≤ freeSpace s kind slot (2 * r.port.val) r.session →
    Completes (.imageBegin r kind slot length) s fun t =>
      Replied t r 0x30 0 .none ∧ ∃ b, b.length = length ∧ ⟨2 * r.port.val, r.session, kind, slot, length, b⟩ ∈ t.ctl.stores) ∧
  (∀ (r : Req) (offset : Nat) (data : Bytes) (j : StoreJob) (s : State), 
    Serves s r [] true true →
    s.ctl.stores.find? (fun j => j.by_ (2 * r.port.val) r.session) = some j →
    data.length ≤ 8000 ∧ offset + data.length ≤ j.length →
    Completes (.imageData r offset data) s fun t =>
      Replied t r 0x31 0 .none ∧ { j with content := overlay j.content offset data } ∈ t.ctl.stores) ∧
  (∀ (r : Req) (j : StoreJob) (s : State), 
    Serves s r [] true true →
    s.ctl.stores.find? (fun j => j.by_ (2 * r.port.val) r.session) = some j →
    j.kind = 1 →
    slotRuns s 1 j.slot = false →
    Completes (.imageCommit r) s fun t =>
      j ∉ t.ctl.stores ∧
      (imageReason s (modeTested s) j.content = 0 → Replied t r 0x32 0 (.digest (Config.sha256 j.content)) ∧
        (t.ctl.profiles.at j.slot).content = j.content ∧ Emitted s t 0x005 1 0x00F (16 + j.slot)) ∧
      (imageReason s (modeTested s) j.content ≠ 0 → t.ctl.profiles = s.ctl.profiles ∧
        Replied t r 0x32 9 (.reason (imageReason s (modeTested s) j.content)))) ∧
  (∀ (r : Req) (slot : Nat) (b : Bytes) (s : State), 
    Serves s r [] true false →
    s.cmd.act.step = 0 →
    slotContent s 2 slot = some b →
    Completes (.profileActivate r 2 slot) s fun t =>
      (firmwareReason s b = 0 → t.cmd.act.step = 3 ∧ t.cmd.act.staged = b ∧ t.cmd.act.reply = some (r.port.val, r.session, r.seq)) ∧
      (firmwareReason s b ≠ 0 → t.cmd.act = s.cmd.act ∧ Replied t r 0x33 9 (.reason (firmwareReason s b)))) ∧
  (∀ (r : Req) (kind slot : Nat) (s : State), 
    Serves s r [] true false →
    s.cmd.act.step ≠ 0 →
    Completes (.profileActivate r kind slot) s fun t =>
      t.cmd.act = { s.cmd.act with result := 3 } ∧ Replied t r 0x33 7 .none) ∧
  (∀ (r : Req) (slot : Nat) (s : State), 
    Serves s r [] true true →
    slot < 8 →
    s.ctl.running ≠ some slot →
    (s.ctl.profiles.at slot).valid = true →
    Completes (.profileErase r slot) s fun t =>
      Replied t r 0x34 0 .none ∧ t.ctl.profiles.at slot = default ∧ ∀ j, j ≠ slot → t.ctl.profiles.at j = s.ctl.profiles.at j) ∧
  (∀ (r : Req) (s : State), 
    Serves s r [0] false true →
    Completes (.profileList r) s fun t =>
      Replied t r 0x35 0 (.profiles ((List.range 8).map fun i => if (s.ctl.profiles.at i).valid then
        (true, imgLen (s.ctl.profiles.at i).content, imgDigest (s.ctl.profiles.at i).content, imgName (s.ctl.profiles.at i).content)
        else (false, 0, 0, []))) ∧ t.ctl.profiles = s.ctl.profiles) ∧
  (∀ (port : Fin 2) (addr count : Nat) (s : State), 
    i3cLive s = true →
    1 ≤ count ∧ count ≤ 16 →
    Completes (.i3cRead port addr count) s fun t =>
      ∃ ws, ws.length = count ∧ .i3c (i3cPath port).val 0 ws ∈ t.out) ∧
  (∀ (port : Fin 2) (addr : Nat) (value : Word) (row : RegRow × Nat) (s : State), 
    i3cLive s = true →
    s.boot.recovery ≠ 2 →
    MayWrite (i3cPath port) 0 addr s →
    findReg addr = some row →
    mapped addr = true →
    0x01000000 ≤ addr ∧ 0x20 ≤ addr % 0x1000000 →
    addr ∉ [0x0400007C, 0x04000080] →
    addr ∉ [0x03000054, 0x04000044, 0x04000060, 0x04000074, 0x0D00005C] →
    ∀ m ∈ s.ctl.marks, m.gts = s.now → m.addr ≠ addr →
    writeOwnArray (i3cPath port) 0 addr value s = none →
    writeOwnLow (i3cPath port) 0 addr value s = none →
    writeOwnMid (i3cPath port) 0 addr value s = none →
    writeOwnHigh (i3cPath port) 0 addr value s = none →
    s.locked = false →
    Completes (.i3cWrite port addr [value]) s fun t =>
      .i3c (i3cPath port).val 0 [] ∈ t.out ∧
      rawWord t.regs addr = BitVec.ofNat 32 (crossTreat addr (wordWrite false row.1.fields value.toNat (rawWord s.regs addr).toNat))) ∧
  (∀ (port : Fin 2) (s : State), 
    i3cLive s = true →
    Completes (.i3cStatus port) s fun t =>
      .i3c (i3cPath port).val 0 [shownWord s (0x140 + 4 * (i3cPath port).val)] ∈ t.out) ∧
  (∀ (port : Fin 2) (principal : Nat) (key : Bytes) (s : State), 
    i3cLive s = true →
    s.boot.recovery ≠ 2 →
    s.fld F.CTL_CFG_COMMISSION ≠ 0 →
    keysWhere s (fun k => k.typ == 5 && k.tenant == 0) = [] →
    (s.ctl.principals.at principal).valid = true →
    key.length = 32 →
    freeSlot s ≠ none →
    freeHandle s 0 5 ≠ none →
    Completes (.i3cCommission port principal key) s fun t =>
      .i3c (i3cPath port).val 0 [] ∈ t.out ∧
      principalKey t (t.ctl.principals.at principal) = some key) ∧
  (∀ (port : Fin 2) (kind slot length : Nat) (s : State), 
    s.boot.recovery ≠ 0 →
    kind = 1 ∧ slot < 8 ∨ kind = 2 ∧ slot < 2 →
    0 < length →
    slotRuns s kind slot = false →
    (s.ctl.stores.any fun j => j.kind == kind && j.slot == slot && !j.by_ (i3cPath port).val 0) = false →
    (if kind = 1 then units64 length else length) ≤ freeSpace s kind slot (i3cPath port).val 0 →
    Completes (.storeBegin port kind slot length) s fun t =>
      .i3c (i3cPath port).val 0 [] ∈ t.out ∧
      ∃ b, b.length = length ∧ ⟨(i3cPath port).val, 0, kind, slot, length, b⟩ ∈ t.ctl.stores) ∧
  (∀ (port : Fin 2) (offset : Nat) (words : List Word) (j : StoreJob) (s : State), 
    s.boot.recovery ≠ 0 →
    1 ≤ words.length ∧ words.length ≤ 64 →
    s.ctl.stores.find? (fun j => j.by_ (i3cPath port).val 0) = some j →
    offset + 4 * words.length ≤ j.length →
    Completes (.storeData port offset words) s fun t =>
      .i3c (i3cPath port).val 0 [] ∈ t.out ∧
      { j with content := overlay j.content offset (words.flatMap fun w => beBytes 4 w.toNat) } ∈ t.ctl.stores) ∧
  (∀ (port : Fin 2) (j : StoreJob) (s : State), 
    s.boot.recovery ≠ 0 →
    s.ctl.stores.find? (fun j => j.by_ (i3cPath port).val 0) = some j →
    j.kind = 2 →
    slotRuns s 2 j.slot = false →
    Completes (.storeCommit port) s fun t =>
      j ∉ t.ctl.stores ∧
      (firmwareReason s j.content = 0 → .i3c (i3cPath port).val 0 [] ∈ t.out ∧ (t.ctl.firmware.at j.slot).content = j.content ∧
        t.boot.preferredFw = j.slot) ∧
      (firmwareReason s j.content ≠ 0 → .i3c (i3cPath port).val 9 [] ∈ t.out ∧ t.ctl.firmware = s.ctl.firmware))

/-- R451, R453 to R455, R465, R466, R484, R492: what each reset sets and keeps. -/
def Obligations.ResetsComplete : Prop :=
  (∀ (s : State), 
    Completes (.powerOnReset) s fun t =>
      t.boot.inReset = .cold ∧ t.boot.step = 1 ∧ t.boot.cause = 1 ∧ t.boot.thermTrip = false ∧ t.now = 0 ∧
      t.ctl.clog = s.ctl.clog ∧ t.ctl.profiles = s.ctl.profiles ∧ t.ctl.firmware = s.ctl.firmware ∧ t.ctl.sessions = [] ∧
      t.cmd = State.reset.cmd ∧ t.xpt = State.reset.xpt ∧ t.pwr = State.reset.pwr ∧ t.tru.fuseSvn = s.tru.fuseSvn ∧
      t.tru.rotation = s.tru.rotation ∧ t.fix = State.reset.fix ∧ t.lay = State.reset.lay) ∧
  (∀ (s : State), 
    Completes (.fundamentalReset) s fun t =>
      t.boot.inReset = .cold ∧ t.boot.cause = 2 ∧ t.boot.pgood = s.boot.pgood ∧ t.boot.sysRstHigh = false ∧ t.now = 0 ∧
      t.ctl.clog = s.ctl.clog ∧ t.tel.cnt = [] ∧ t.cmd = State.reset.cmd ∧ t.pwr = State.reset.pwr) ∧
  (∀ (pgood : Fin 16) (s : State), 
    s.boot.sysRstHigh = true →
    pgood.val % 2 = 1 ∧ pgood.val ≠ 15 →
    s.boot.thermTrip = false →
    Completes (.powerGoodLoss pgood) s fun t =>
      t.boot.inReset = .cold ∧ t.boot.cause = 3 ∧ t.boot.pgood = pgood.val ∧ t.now = 0 ∧
      t.ctl.clog = keepLast 65536 (s.ctl.clog ++ [⟨s.now, 0x007, 4, 0x016, pgood.val⟩])) ∧
  (∀ (pgood : Fin 16) (s : State), 
    s.boot.sysRstHigh = true →
    pgood.val % 2 = 0 →
    Completes (.powerGoodLoss pgood) s fun t =>
      t.boot.inReset = .cold ∧ t.boot.cause = 1 ∧ t.ctl.clog = s.ctl.clog ∧ t.now = 0) ∧
  (∀ (s : State), 
    s.boot.thermTrip = false →
    s.boot.inReset ≠ .cold ∨ s.boot.cause ≠ 3 →
    Completes (.thermTrip) s fun t =>
      t.boot.inReset = .cold ∧ t.boot.thermTrip = true ∧ t.boot.cause = s.boot.cause ∧ t.now = 0 ∧
      t.ctl.clog = keepLast 65536 (s.ctl.clog ++ [⟨s.now, 0x5C0, 4, 0xC0D, 0⟩])) ∧
  (∀ (r : EventRec) (s : State), 
    s.boot.thermTrip = false →
    s.boot.inReset = .cold ∧ s.boot.cause = 3 ∧ s.now ≤ 20000 →
    s.ctl.clog.getLast? = some r →
    r.event = 0x016 →
    Completes (.thermTrip) s fun t =>
      t.boot.thermTrip = true ∧ t.ctl.clog = keepLast 65536 (s.ctl.clog.dropLast ++ [⟨s.now, 0x5C0, 4, 0xC0D, 0⟩])) ∧
  (∀ (s : State), 
    s.boot.inReset ≠ .cold →
    belowFloor s = false →
    s.ctl.blocks.wf = true →
    Completes (.warmResetPin) s fun t =>
      t.boot.inReset = .warm ∧ t.boot.cause = 4 ∧ t.boot.warm = true ∧ t.now = s.now ∧ t.ctl.sessions = [] ∧
      t.ctl.bone = default ∧ t.ctl.clog = s.ctl.clog ∧ t.pwr = s.pwr ∧ t.tru.meas = s.tru.meas ∧
      t.tru.fuseSvn = s.tru.fuseSvn ∧ t.cmd = State.reset.cmd) ∧
  (∀ (s : State), 
    s.boot.inReset ≠ .cold →
    belowFloor s = true →
    s.ctl.blocks.wf = true →
    Completes (.warmResetPin) s fun t =>
      t.boot.inReset = .warm ∧ t.cmd = { State.reset.cmd with boundStat := 8 } ∧ belowFloor t = true) ∧
  (∀ (s : State), 
    s.boot.inReset = .cold →
    Completes (.warmResetPin) s fun t =>
      t.boot.inReset = .cold ∧ t.ctl = s.ctl ∧ t.cmd = s.cmd ∧ t.regs = s.regs) ∧
  (∀ (s : State), 
    s.boot.inReset ≠ .cold →
    s.boot.watchdogOn = true →
    Completes (.systemWatchdogExpiry) s fun t =>
      t.boot.inReset = .warm ∧ t.boot.cause = 5 ∧ t.now = s.now ∧ t.ctl.sessions = [] ∧ t.pwr = s.pwr) ∧
  (∀ (b : Nat) (s : State), 
    s.boot.inReset ≠ .cold →
    s.boot.watchdogOn = true →
    s.ctl.blocks.wf = true →
    Completes (.systemWatchdogExpiry) s fun t =>
      (t.ctl.blocks.at b).fenced = (s.ctl.blocks.at b).fenced) ∧
  (∀ (s : State), 
    s.boot.inReset ≠ .cold →
    s.boot.restartDue = true ∧ s.boot.recovery = 3 →
    Completes (.recoveryRestart) s fun t =>
      t.boot.inReset = .warm ∧ t.boot.cause = 6 ∧ t.boot.restartDue = false ∧ t.now = s.now ∧ t.ctl.profiles = s.ctl.profiles) ∧
  (∀ (port : Fin 2) (s : State), 
    s.boot.inReset ≠ .cold →
    s.boot.recovery ≠ 0 →
    Completes (.i3cRestart port) s fun t =>
      t.boot.inReset = .warm ∧ t.boot.cause = 6 ∧ t.now = s.now)

/-- R304, R452, R455 to R464, R477: the steps of a boot, and clocks lost and present. -/
def Obligations.BootCompletes : Prop :=
  (∀ (profileSel : Fin 8) (roleSel bootMode : Fin 4) (low : Bool) (s : State), 
    mayBoot s = true →
    s.boot.inReset = .cold →
    Completes (.bootStart profileSel roleSel bootMode low) s fun t =>
      t.boot.inReset = .none ∧ t.boot.step = 1 ∧ t.boot.warm = false ∧ t.boot.profileSel = profileSel.val ∧
      t.boot.roleSel = roleSel.val ∧ t.boot.bootMode = bootMode.val ∧ t.boot.releaseGts = s.now ∧
      t.fld F.RED_MODE_ROLE = roleSel.val % 4 ∧
      Emitted s t 0x007 1 0x013 (s.boot.preferredFw * 256 + bootMode.val * 16 + s.boot.cause)) ∧
  (∀ (profileSel : Fin 8) (roleSel bootMode : Fin 4) (low : Bool) (s : State), 
    mayBoot s = true →
    s.boot.inReset = .warm →
    Completes (.bootStart profileSel roleSel bootMode low) s fun t =>
      t.boot.inReset = .none ∧ t.boot.warm = true ∧ t.boot.profileSel = s.boot.profileSel ∧ t.boot.roleSel = s.boot.roleSel ∧
      t.boot.bootMode = s.boot.bootMode) ∧
  (∀ (failing : List (Nat × Nat)) (entropy : Option (Fin 2)) (copies : List (Nat × Bytes × Bytes)) (s : State), 
    s.boot.inReset = .none ∧ s.boot.step = 1 →
    s.boot.preferredFw ≤ 1 →
    (s.ctl.firmware.at 0).valid = false ∧ (s.ctl.firmware.at 1).valid = false →
    Completes (.pllLocked failing entropy copies) s fun t =>
      t.boot.recovery = 2 ∧ t.boot.step = 3 ∧ Emitted s t 0x5B1 4 0xB02 (4 * 16 + 1) ∧ Emitted s t 0x007 4 0x015 2) ∧
  (∀ (failing : List (Nat × Nat)) (entropy : Option (Fin 2)) (copies : List (Nat × Bytes × Bytes)) (s : State), 
    s.boot.inReset = .none ∧ s.boot.step = 1 →
    (s.ctl.firmware.at s.boot.preferredFw).valid = true →
    Completes (.pllLocked failing entropy copies) s fun t =>
      firmwareCause s s.boot.preferredFw = 0 → t.boot.fwSlot = s.boot.preferredFw ∧ t.boot.watchdogOn = true ∧
      6 ≤ t.boot.step ∧ t.tru.sessionKeyMade = true ∧ Emitted s t 0x5B1 1 0xB01
        (min (Config.firmwareSvn (s.ctl.firmware.at s.boot.preferredFw).content) 255 * 256 + 1)) ∧
  (∀ (s : State), 
    s.boot.step = 8 →
    [1, 4, 6].contains (redState s) = true →
    (List.range 48).all (portSettled s) = true →
    Completes (.bootDone) s fun t =>
      t.boot.step = 10 ∧ t.boot.bootMs = (s.now - s.boot.releaseGts) / 1000000 ∧
      Emitted s t 0x007 1 0x014 (redState s * 2 ^ 20 + min ((s.now - s.boot.releaseGts) / 1000000) (2 ^ 20 - 1))) ∧
  (∀ (clock : Fin 7) (s : State), 
    clock.val ≠ 6 →
    s.boot.clocksLost.contains clock.val = false →
    Completes (.clockLost clock) s fun t =>
      t.boot = { s.boot with clocksLost := s.boot.clocksLost ++ [clock.val] } ∧
      (clock.val < 4 → ∀ i : Fin 16, linkIsUp t (16 * clock.val + i.val) = false)) ∧
  (∀ (clock : Fin 7) (s : State), 
    clock.val = 6 →
    s.boot.clocksLost.contains 6 = false →
    s.boot.inReset ≠ .cold →
    Completes (.clockLost clock) s fun t =>
      t.boot.inReset = .cold ∧ t.boot.cause = 3 ∧ t.boot.clocksLost = s.boot.clocksLost ++ [6] ∧ t.now = 0) ∧
  (∀ (clock : Fin 7) (s : State), 
    s.boot.clocksLost.contains clock.val = true →
    Completes (.clockPresent clock) s fun t =>
      t.boot = { s.boot with clocksLost := s.boot.clocksLost.filter (· != clock.val) } ∧ t.ctl = s.ctl ∧
      (clock.val ≠ 4 → t.drv = s.drv))

/-- R410 to R420: the transitions of a leg, its power good, its retries and its orders. -/
def Obligations.SlotPowerCompletes : Prop :=
  (∀ (leg : Fin 48) (s : State), 
    legState s leg.val = 1 ∨ legState s leg.val = 2 →
    Completes (.fastTrip leg) s fun t =>
      (legOf t leg.val).gateOn = false ∧ (noRetry s leg.val 3 = false → legState t leg.val = 3) ∧
      Emitted s t (0x300 + leg.val) 3 0xC03 (min (s.fldI F.PWR_LEG_MEAS_I_MA leg.val) 65535 * 2 ^ 20 +
        s.fldI F.PWR_LEG_STAT_TJ_C leg.val * 256 + b2n (noRetry s leg.val 3) * 16 + 3)) ∧
  (∀ (leg : Fin 48) (s : State), 
    legState s leg.val = 1 ∨ legState s leg.val = 2 →
    Completes (.faultTimerExpiry leg) s fun t =>
      (legOf t leg.val).gateOn = false ∧ (noRetry s leg.val 1 = false → legState t leg.val = 3) ∧
      Emitted s t (0x300 + leg.val) 3 0xC03 (min (s.fldI F.PWR_LEG_MEAS_I_MA leg.val) 65535 * 2 ^ 20 +
        s.fldI F.PWR_LEG_STAT_TJ_C leg.val * 256 + b2n (noRetry s leg.val 1) * 16 + 1)) ∧
  (∀ (leg : Fin 48) (s : State), 
    legState s leg.val = 1 ∨ legState s leg.val = 2 →
    Completes (.modelTemperatureLimit leg) s fun t =>
      (legOf t leg.val).gateOn = false ∧ (noRetry s leg.val 2 = false → legState t leg.val = 3) ∧
      Emitted s t (0x300 + leg.val) 3 0xC03 (min (s.fldI F.PWR_LEG_MEAS_I_MA leg.val) 65535 * 2 ^ 20 +
        s.fldI F.PWR_LEG_STAT_TJ_C leg.val * 256 + b2n (noRetry s leg.val 2) * 16 + 2)) ∧
  (∀ (leg : Fin 48) (s : State), 
    legState s leg.val = 1 →
    Completes (.rampTimeLimit leg) s fun t =>
      (legOf t leg.val).gateOn = false ∧ (noRetry s leg.val 4 = false → legState t leg.val = 3) ∧
      Emitted s t (0x300 + leg.val) 3 0xC03 (min (s.fldI F.PWR_LEG_MEAS_I_MA leg.val) 65535 * 2 ^ 20 +
        s.fldI F.PWR_LEG_STAT_TJ_C leg.val * 256 + b2n (noRetry s leg.val 4) * 16 + 4)) ∧
  (∀ (leg : Fin 48) (s : State), 
    legState s leg.val = 1 →
    Completes (.rampComplete leg) s fun t =>
      legState t leg.val = 2 ∧ t.pwr = s.pwr ∧ t.ctl = s.ctl) ∧
  (∀ (leg : Fin 48) (s : State), 
    legState s leg.val = 2 →
    Completes (.gateCheckFail leg) s fun t =>
      (legOf t leg.val).gateOn = false ∧ fencedUnit t 12 leg.val = true ∧
      Emitted s t (0x300 + leg.val) 3 0xC03 (min (s.fldI F.PWR_LEG_MEAS_I_MA leg.val) 65535 * 2 ^ 20 +
        s.fldI F.PWR_LEG_STAT_TJ_C leg.val * 256 + 16 + 5)) ∧
  (∀ (leg : Fin 48) (s : State), 
    legState s leg.val = 0 →
    Completes (.drainSourceShort leg) s fun t =>
      fencedUnit t 12 leg.val = true ∧
      Emitted s t (0x300 + leg.val) 3 0xC03 (min (s.fldI F.PWR_LEG_MEAS_I_MA leg.val) 65535 * 2 ^ 20 +
        s.fldI F.PWR_LEG_STAT_TJ_C leg.val * 256 + 16 + 6)) ∧
  (∀ (leg : Fin 48) (s : State), 
    legState s leg.val = 2 →
    legPg s leg.val = false →
    Completes (.legPg leg) s fun t =>
      legPg t leg.val = true ∧ Emitted s t (0x300 + leg.val) 1 0xC02 1) ∧
  (∀ (leg : Fin 48) (s : State), 
    legPg s leg.val = true →
    Completes (.legPgWithdrawn leg) s fun t =>
      legPg t leg.val = false ∧ Emitted s t (0x300 + leg.val) 1 0xC02 16 ∧ t.pwr = s.pwr) ∧
  (∀ (leg : Fin 48) (s : State), 
    legState s leg.val = 0 →
    s.fldI F.PWR_LEG_STAT_PENDING leg.val = 1 →
    feedOn s (legFeed s leg.val) = true →
    Completes (.legDischarged leg) s fun t =>
      legState t leg.val = 1 ∧ (legOf t leg.val).gateOn = true ∧ t.fldI F.PWR_LEG_STAT_PENDING leg.val = 0 ∧
      Emitted s t (0x300 + leg.val) 0 0xC01 4) ∧
  (∀ (leg : Fin 48) (s : State), 
    legState s leg.val = 3 →
    noRetry s leg.val (s.fldI F.PWR_LEG_STAT_CAUSE leg.val) = false →
    feedOn s (legFeed s leg.val) = true →
    s.fldI F.PWR_LEG_STAT_TJ_C leg.val ≤ s.fldI F.PWR_MODEL3_COOL_C (s.fldI F.PWR_LEG_CFG_MODEL leg.val) →
    Completes (.legRetry leg) s fun t =>
      legState t leg.val = 1 ∧ t.fldI F.PWR_LEG_STAT_RETRIES leg.val = min 7 (s.fldI F.PWR_LEG_STAT_RETRIES leg.val + 1) ∧
      Emitted s t (0x300 + leg.val) 1 0xC04 (min 7 (s.fldI F.PWR_LEG_STAT_RETRIES leg.val + 1)) ∧
      Emitted s t (0x300 + leg.val) 0 0xC01 3) ∧
  (∀ (leg : Fin 48) (s : State), 
    legPg s leg.val = true →
    Completes (.retryCountClear leg) s fun t =>
      t.fldI F.PWR_LEG_STAT_RETRIES leg.val = 0 ∧ legState t leg.val = legState s leg.val ∧ t.ctl = s.ctl) ∧
  (∀ (path : Fin 5) (session : Nat) (value : Word) (s : State), 
    MayWrite path session 0x0C000044 s →
    bitsOf value.toNat 31 24 = 0x3C ∧ bitsOf value.toNat 23 20 = 1 ∧ bitsOf value.toNat 5 0 < 48 →
    legState s (bitsOf value.toNat 5 0) = 0 →
    (s.drv.slots.at (bitsOf value.toNat 5 0)).seated = true →
    legsReleased s = true →
    discharged s (bitsOf value.toNat 5 0) = true →
    Completes (.pwrLegOnOrder path session value) s fun t =>
      legState t (bitsOf value.toNat 5 0) = 1 ∧ (legOf t (bitsOf value.toNat 5 0)).gateOn = true ∧
      t.fld F.PWR_ORDER_STAT_RESULT = 1 ∧ t.fld F.PWR_ORDER_STAT_LEG = bitsOf value.toNat 5 0 ∧
      Emitted s t (0x300 + bitsOf value.toNat 5 0) 0 0xC01 2) ∧
  (∀ (path : Fin 5) (session : Nat) (value : Word) (s : State), 
    MayWrite path session 0x0C000044 s →
    bitsOf value.toNat 31 24 = 0x3C ∧ bitsOf value.toNat 23 20 = 1 ∧ bitsOf value.toNat 5 0 < 48 →
    legState s (bitsOf value.toNat 5 0) = 4 →
    Completes (.pwrLegOnOrder path session value) s fun t =>
      t.pwr = s.pwr ∧ legState t (bitsOf value.toNat 5 0) = 4 ∧ t.fld F.PWR_ORDER_STAT_RESULT = 2) ∧
  (∀ (path : Fin 5) (session : Nat) (value : Word) (s : State), 
    MayWrite path session 0x0C000044 s →
    bitsOf value.toNat 31 24 = 0x3C ∧ bitsOf value.toNat 23 20 = 2 ∧ bitsOf value.toNat 5 0 < 48 →
    legState s (bitsOf value.toNat 5 0) = 1 ∨ legState s (bitsOf value.toNat 5 0) = 2 →
    Completes (.pwrLegOffOrder path session value) s fun t =>
      legState t (bitsOf value.toNat 5 0) = 0 ∧ (legOf t (bitsOf value.toNat 5 0)).gateOn = false ∧
      t.fldI F.PWR_LEG_STAT_HELD_OFF (bitsOf value.toNat 5 0) = 1 ∧ t.fld F.PWR_ORDER_STAT_RESULT = 1 ∧
      Emitted s t (0x300 + bitsOf value.toNat 5 0) 1 0xC05 1)

/-- R407, R408, R411, R422 to R426: feeds, sensors, fans and the control tick. -/
def Obligations.FeedsAndFansComplete : Prop :=
  (∀ (feed : Fin 4) (cause : Fin 5) (mv : Nat) (s : State), 
    feedOn s feed.val = true →
    s.fldI F.PWR_FEED_STAT_FET_ON feed.val = 1 →
    Completes (.feedFault feed cause mv) s fun t =>
      t.fldI F.PWR_FEED_STAT_FET_ON feed.val = 0 ∧ t.fldI F.PWR_FEED_STAT_CAUSE feed.val = cause.val ∧
      (t.pwr.feeds.at feed.val).faulted = true ∧
      Emitted s t (0x340 + feed.val) 3 0xC07 (min mv 65535 * 2 ^ 20 + cause.val)) ∧
  (∀ (feed : Fin 4) (s : State), 
    feedOn s feed.val = true →
    (s.pwr.feeds.at feed.val).faulted = true →
    Completes (.feedOk feed) s fun t =>
      t.fldI F.PWR_FEED_STAT_FET_ON feed.val = 1 ∧ (t.pwr.feeds.at feed.val).faulted = false ∧
      Emitted s t (0x340 + feed.val) 1 0xC08 0) ∧
  (∀ (readings : List (Option Int)) (i : Fin 32) (x : Int) (s : State), 
    s.fldI F.PWR_SENS_CFG_EN i.val = 1 →
    readings[i.val]? = some (some x) →
    Completes (.sensorPoll readings) s fun t =>
      t.fldI F.PWR_SENS_STAT_TEMP i.val = (BitVec.ofInt 16 x).toNat ∧ t.fldI F.PWR_SENS_STAT_VALID i.val = 1 ∧
      t.fldI F.PWR_SENS_STAT_LOST i.val = 0 ∧ t.pwr.sensFails.at i.val = 0) ∧
  (∀ (readings : List (Option Int)) (i : Fin 32) (s : State), 
    s.fldI F.PWR_SENS_CFG_EN i.val = 1 →
    readings[i.val]? = some none →
    s.pwr.sensFails.at i.val = 2 →
    Completes (.sensorPoll readings) s fun t =>
      t.fldI F.PWR_SENS_STAT_LOST i.val = 1 ∧ Emitted s t 0x5C2 2 0xC0A i.val) ∧
  (∀ (channel : Fin 12) (rpm : Nat) (s : State), 
    s.fldI F.PWR_FAN_CFG_EN channel.val = 1 →
    51 ≤ s.fldI F.PWR_FAN_STAT_DUTY channel.val →
    s.fldI F.PWR_FAN_STAT_FAIL channel.val = 0 →
    Completes (.fanFail channel rpm) s fun t =>
      t.fldI F.PWR_FAN_STAT_FAIL channel.val = 1 ∧ t.fldI F.PWR_FAN_STAT_DUTY channel.val = 255 ∧
      Emitted s t 0x5C1 3 0xC09 (min rpm 65535 * 2 ^ 16 + channel.val)) ∧
  (∀ (channel : Fin 12) (rpm : Nat) (s : State), 
    Completes (.fanRecovered channel rpm) s fun t =>
      t.fldI F.PWR_FAN_STAT_FAIL channel.val = 0 ∧ t.fldI F.PWR_FAN_STAT_RPM channel.val = min rpm 65535 ∧ t.ctl = s.ctl) ∧
  (∀ (legs : List LegSample) (feeds : List FeedSample) (tach : List (Fin 12 × Nat)) (s : State), 
    Completes (.controlTick legs feeds tach) s fun t =>
      t.net.punt = []) ∧
  (∀ (x : LegSample) (s : State), 
    feedOn s (legFeed s x.leg.val) = true →
    Completes (.controlTick [x] [] []) s fun t =>
      t.fldI F.PWR_LEG_MEAS_I_MA x.leg.val = min x.i 65535 ∧ (legOf t x.leg.val).timer =
        (if s.fldI F.PWR_LEG_CFG_ILIM x.leg.val * 50 ≤ x.i then (legOf s x.leg.val).timer + 1 else (legOf s x.leg.val).timer - 1) ∧
      (∀ v, x.sense = some v → (legOf t x.leg.val).vout = v.1 ∧ (legOf t x.leg.val).gsns = v.2)) ∧
  (∀ (x : FeedSample) (s : State), 
    feedOn s x.feed.val = true →
    Completes (.controlTick [] [x] []) s fun t =>
      (t.pwr.feeds.at x.feed.val).energy =
        min (2 ^ 80 - 1) ((s.pwr.feeds.at x.feed.val).energy + x.v * x.i.toNat * 5 * 65536 / 1000000) ∧
      t.fldI F.PWR_FEED_MEAS0_V_MV x.feed.val = min x.v 65535)
end

