-- ==== Sys2Proof/Laws/Tab.lean ====
section
/-! SUPPORT. Sparse tables: a read after a write, and the canonical form kept by every operation. -/

namespace Sys2Proof.Machine

variable {α : Type}

theorem Tab.look_ins (t : Tab α) (k : Nat) (x : α) (j : Nat) :
    (t.ins k x).look j = if j = k then some x else t.look j := by
  induction t with
  | nil => simp [Tab.ins, Tab.look]
  | cons e t ih =>
    obtain ⟨a, v⟩ := e
    simp only [Tab.ins]
    split
    · simp [Tab.look]
    · split
      · subst_vars; simp only [Tab.look]; split <;> simp_all
      · simp only [Tab.look, ih]; split <;> split <;> simp_all

theorem Tab.look_del (t : Tab α) (k j : Nat) : (t.del k).look j = if j = k then none else t.look j := by
  induction t with
  | nil => simp [Tab.del, Tab.look]
  | cons e t ih =>
    obtain ⟨a, v⟩ := e
    simp only [Tab.del] at ih ⊢
    by_cases h : a = k
    · simp only [h, ne_eq, not_true, decide_false, Bool.false_eq_true, not_false_eq_true, List.filter_cons_of_neg, ih,
        Tab.look]
      split <;> simp_all
    · simp only [ne_eq, h, not_false_eq_true, decide_true, List.filter_cons_of_pos, Tab.look, ih]
      split <;> split <;> simp_all

/-- A read after a write, `d` standing for the unlisted keys. -/
@[simp] theorem Tab.getD_setD [DecidableEq α] (t : Tab α) (d : α) (k : Nat) (x : α) (j : Nat) :
    (t.setD d k x).getD d j = if j = k then x else t.getD d j := by
  unfold Tab.setD Tab.getD
  split
  · rw [Tab.look_del]; split <;> simp_all
  · rw [Tab.look_ins]; split <;> simp_all

/-- A read after a write. -/
@[simp] theorem Tab.at_put [Inhabited α] [DecidableEq α] (t : Tab α) (k : Nat) (x : α) (j : Nat) :
    (t.put k x).at j = if j = k then x else t.at j := Tab.getD_setD t default k x j

@[simp] theorem Tab.at_upd [Inhabited α] [DecidableEq α] (t : Tab α) (k : Nat) (f : α → α) (j : Nat) :
    (t.upd k f).at j = if j = k then f (t.at k) else t.at j := Tab.at_put t k _ j

/-- What is put last is kept. -/
theorem mem_keepLast {n : Nat} (h : 0 < n) (l : List α) (x : α) : x ∈ keepLast n (l ++ [x]) := by
  unfold keepLast
  split
  · cases l with
    | nil => simp at *; omega
    | cons a l => simp
  · simp

/-! The canonical form. -/

/-- Keys strictly rising. -/
def Tab.Rising (t : Tab α) : Prop := (t.map (·.1)).Pairwise (· < ·)

theorem Tab.wf_iff [Inhabited α] [DecidableEq α] (t : Tab α) :
    t.wf = true ↔ (∀ e ∈ t, e.2 ≠ default) ∧ t.Rising := by
  simp [Tab.wf, Tab.Rising]

theorem Tab.mem_ins {t : Tab α} {k : Nat} {x : α} {e : Nat × α} (h : e ∈ t.ins k x) : e = (k, x) ∨ e ∈ t := by
  induction t with
  | nil => simpa [Tab.ins] using h
  | cons d t ih =>
    obtain ⟨a, v⟩ := d
    simp only [Tab.ins] at h
    split at h
    · simpa using h
    · split at h
      · subst_vars
        rcases List.mem_cons.mp h with rfl | h
        · exact .inl rfl
        · exact .inr (List.mem_cons_of_mem _ h)
      · rcases List.mem_cons.mp h with rfl | h
        · exact .inr (List.mem_cons_self ..)
        · exact (ih h).imp id (List.mem_cons_of_mem _)

theorem Tab.Rising.ins {t : Tab α} (h : t.Rising) (k : Nat) (x : α) : (t.ins k x).Rising := by
  induction t with
  | nil => simp [Tab.ins, Tab.Rising]
  | cons d t ih =>
    obtain ⟨a, v⟩ := d
    have hp := h
    simp only [Tab.Rising, List.map_cons, List.pairwise_cons] at hp
    simp only [Tab.ins]
    split
    · rename_i hk
      simp only [Tab.Rising, List.map_cons, List.pairwise_cons]
      refine ⟨fun b hb => ?_, hp⟩
      rcases List.mem_cons.mp hb with rfl | hb
      · exact hk
      · exact Nat.lt_trans hk (hp.1 b hb)
    · split
      · exact h
      · simp only [Tab.Rising, List.map_cons, List.pairwise_cons]
        refine ⟨fun b hb => ?_, ih hp.2⟩
        obtain ⟨e, he, rfl⟩ := List.mem_map.mp hb
        rcases Tab.mem_ins he with rfl | he
        · show a < k; omega
        · exact hp.1 _ (List.mem_map_of_mem he)

theorem Tab.Rising.sublist {t u : Tab α} (h : t.Rising) (hu : u.Sublist t) : u.Rising :=
  List.Pairwise.sublist (hu.map _) h

theorem Tab.Rising.del {t : Tab α} (h : t.Rising) (k : Nat) : (t.del k).Rising := h.sublist List.filter_sublist

/-- A write keeps the canonical form. -/
theorem Tab.wf_put [Inhabited α] [DecidableEq α] {t : Tab α} (h : t.wf = true) (k : Nat) (x : α) :
    (t.put k x).wf = true := by
  rw [Tab.wf_iff] at h ⊢
  unfold Tab.put Tab.setD
  split
  · exact ⟨fun e he => h.1 e (List.mem_of_mem_filter he), h.2.del k⟩
  · refine ⟨fun e he => ?_, h.2.ins k x⟩
    rcases Tab.mem_ins he with rfl | he
    · assumption
    · exact h.1 e he

theorem Tab.wf_upd [Inhabited α] [DecidableEq α] {t : Tab α} (h : t.wf = true) (k : Nat) (f : α → α) :
    (t.upd k f).wf = true := Tab.wf_put h k _

/-- Changing every entry keeps the canonical form. -/
theorem Tab.wf_mapAll [Inhabited α] [DecidableEq α] {t : Tab α} (h : t.wf = true) (f : Nat → α → α) :
    (t.mapAll f).wf = true := by
  rw [Tab.wf_iff] at h ⊢
  refine ⟨fun e he => ?_, ?_⟩
  · simpa using (List.mem_filter.mp he).2
  · have hm : Tab.Rising (t.map fun e => (e.1, f e.1 e.2)) := by
      simpa [Tab.Rising, List.map_map, Function.comp_def] using h.2
    exact hm.sublist List.filter_sublist

/-! The register file. -/

/-- A register word after another register's word has been set. -/
@[simp] theorem rawWord_setRawWord (r : Tab Word) (a : Nat) (w : Word) (b : Nat) :
    rawWord (setRawWord r a w) b = if b = a then w else rawWord r b := by
  unfold rawWord setRawWord
  by_cases h : b = a
  · subst h; simp
  · unfold Tab.setD Tab.getD
    simp only [h, if_false]
    split
    · rw [Tab.look_del, if_neg h]
    · rw [Tab.look_ins, if_neg h]

/-- A number split at a field: above, the field and below. -/
theorem setBits_eq (n hi lo v : Nat) :
    setBits n hi lo v = n / 2 ^ (lo + (hi - lo + 1)) * 2 ^ (lo + (hi - lo + 1)) + v % 2 ^ (hi - lo + 1) * 2 ^ lo + n % 2 ^ lo := by
  unfold setBits bitsOf
  generalize hi - lo + 1 = w
  have h1 : n = 2 ^ lo * (n / 2 ^ lo) + n % 2 ^ lo := (Nat.div_add_mod n _).symm
  have h2 : n / 2 ^ lo = 2 ^ w * (n / 2 ^ lo / 2 ^ w) + n / 2 ^ lo % 2 ^ w := (Nat.div_add_mod _ _).symm
  have h3 : n / 2 ^ (lo + w) = n / 2 ^ lo / 2 ^ w := by rw [pow_add, Nat.div_div_eq_div_mul]
  rw [h3, pow_add]
  generalize n / 2 ^ lo / 2 ^ w = a at *
  generalize hb : n / 2 ^ lo % 2 ^ w = b at *
  generalize hc : n % 2 ^ lo = c at *
  have : n = a * (2 ^ lo * 2 ^ w) + b * 2 ^ lo + c := by rw [h1, h2]; ring
  omega

/-- A field reads back what was set in it. -/
theorem bitsOf_setBits (n hi lo v : Nat) : bitsOf (setBits n hi lo v) hi lo = v % 2 ^ (hi - lo + 1) := by
  rw [setBits_eq]
  unfold bitsOf
  generalize hi - lo + 1 = w
  have : n / 2 ^ (lo + w) * 2 ^ (lo + w) + v % 2 ^ w * 2 ^ lo + n % 2 ^ lo
      = n % 2 ^ lo + 2 ^ lo * (2 ^ w * (n / 2 ^ (lo + w)) + v % 2 ^ w) := by rw [pow_add]; ring
  rw [this, Nat.add_mul_div_left _ _ (Nat.two_pow_pos lo), Nat.div_eq_of_lt (Nat.mod_lt _ (Nat.two_pow_pos lo)), Nat.zero_add,
    Nat.mul_add_mod, Nat.mod_mod]

/-- A field of a 32-bit word stays inside it. -/
theorem setBits_lt {n hi lo v : Nat} (hn : n < 2 ^ 32) (h : lo ≤ hi) (hh : hi < 32) : setBits n hi lo v < 2 ^ 32 := by
  rw [setBits_eq]
  obtain ⟨w, hw⟩ : ∃ w, w = hi - lo + 1 := ⟨_, rfl⟩
  rw [← hw]
  have hsum : lo + w + (32 - (lo + w)) = 32 := by omega
  have h1 : n / 2 ^ (lo + w) < 2 ^ (32 - (lo + w)) := by
    rw [Nat.div_lt_iff_lt_mul (Nat.two_pow_pos _), ← pow_add]; convert hn using 2; omega
  have h2 : v % 2 ^ w + 1 ≤ 2 ^ w := Nat.mod_lt _ (Nat.two_pow_pos w)
  have h3 : n % 2 ^ lo < 2 ^ lo := Nat.mod_lt _ (Nat.two_pow_pos lo)
  have h4 : v % 2 ^ w * 2 ^ lo + n % 2 ^ lo < 2 ^ (lo + w) := by
    have := Nat.mul_le_mul_right (2 ^ lo) h2
    rw [pow_add]; nlinarith
  have h5 : (n / 2 ^ (lo + w) + 1) * 2 ^ (lo + w) ≤ 2 ^ 32 := by
    have := Nat.mul_le_mul_right (2 ^ (lo + w)) (Nat.succ_le_of_lt h1)
    rwa [← pow_add, Nat.add_comm (32 - (lo + w)), hsum] at this
  rw [Nat.add_mul] at h5
  omega

/-- A field reads back what the device set in it. -/
theorem fldGet_fldSet_same (r : Tab Word) (f : Fld) (i v : Nat) (h : f.lo ≤ f.hi) (hh : f.hi < 32) :
    fldGet (fldSet r f i v) f i = v % 2 ^ (f.hi - f.lo + 1) := by
  unfold fldGet fldSet
  simp only [rawWord_setRawWord, if_pos]
  rw [BitVec.toNat_ofNat, Nat.mod_eq_of_lt (setBits_lt (BitVec.isLt _) h hh), bitsOf_setBits]

/-- A field of another register stands. -/
theorem fldGet_fldSet_other (r : Tab Word) (f g : Fld) (i j v : Nat) (h : g.addr j ≠ f.addr i) :
    fldGet (fldSet r f i v) g j = fldGet r g j := by
  unfold fldGet fldSet
  rw [rawWord_setRawWord, if_neg h]

/-- Bit by bit: a field set is the value's bits inside the field and the old bits outside it. -/
theorem testBit_setBits (n hi lo v j : Nat) :
    (setBits n hi lo v).testBit j =
      if j < lo then n.testBit j else if j < lo + (hi - lo + 1) then v.testBit (j - lo) else n.testBit j := by
  rw [setBits_eq]
  generalize hi - lo + 1 = w
  have h : n / 2 ^ (lo + w) * 2 ^ (lo + w) + v % 2 ^ w * 2 ^ lo + n % 2 ^ lo =
      2 ^ lo * (2 ^ w * (n / 2 ^ (lo + w)) + v % 2 ^ w) + n % 2 ^ lo := by rw [pow_add]; ring
  rw [h, Nat.testBit_two_pow_mul_add _ (Nat.mod_lt _ (Nat.two_pow_pos _)),
    Nat.testBit_two_pow_mul_add _ (Nat.mod_lt _ (Nat.two_pow_pos _))]
  split
  · simp [Nat.testBit_mod_two_pow, *]
  · by_cases hw : j < lo + w
    · rw [if_pos (by omega), if_pos hw]
      simp [Nat.testBit_mod_two_pow, show j - lo < w by omega]
    · rw [if_neg (by omega), if_neg hw, Nat.testBit_div_two_pow]
      congr 1; omega

theorem testBit_bitsOf (n hi lo j : Nat) :
    (bitsOf n hi lo).testBit j = (decide (j < hi - lo + 1) && n.testBit (lo + j)) := by
  unfold bitsOf
  rw [Nat.testBit_mod_two_pow, Nat.testBit_div_two_pow, Nat.add_comm lo]

/-- A field outside the one that is set stands. -/
theorem bitsOf_setBits_other (n hi lo v hi' lo' : Nat) (h : lo ≤ hi) (h' : lo' ≤ hi') (hd : hi' < lo ∨ hi < lo') :
    bitsOf (setBits n hi lo v) hi' lo' = bitsOf n hi' lo' := by
  apply Nat.eq_of_testBit_eq
  intro j
  rw [testBit_bitsOf, testBit_bitsOf, testBit_setBits]
  by_cases hj : j < hi' - lo' + 1
  · congr 1
    rcases hd with hd | hd
    · rw [if_pos (by omega)]
    · rw [if_neg (by omega), if_neg (by omega)]
  · simp [hj]

theorem bitAt_eq_testBit (n i : Nat) : bitAt n i = n.testBit i := by
  rw [Nat.testBit_eq_decide_div_mod_eq]; unfold bitAt
  by_cases h : n / 2 ^ i % 2 = 1 <;> simp [h]

@[simp] theorem bitAt_setBit (n i : Nat) (b : Bool) (j : Nat) :
    bitAt (setBit n i b) j = if j = i then b else bitAt n j := by
  rw [bitAt_eq_testBit, bitAt_eq_testBit]
  unfold setBit
  rw [testBit_setBits]
  by_cases h : j = i
  · subst h; cases b <;> simp
  · rw [if_neg h]
    split
    · rfl
    · rw [if_neg (by omega)]

theorem bitAt_setBit_true {n i j : Nat} (h : bitAt n j = true) : bitAt (setBit n i true) j = true := by
  rw [bitAt_setBit]; split <;> simp_all

/-- Another field of the same register stands. -/
theorem fldGet_fldSet_disjoint (r : Tab Word) (f g : Fld) (i j v : Nat) (h : f.lo ≤ f.hi) (hh : f.hi < 32)
    (hg : g.lo ≤ g.hi) (hd : g.hi < f.lo ∨ f.hi < g.lo) : fldGet (fldSet r f i v) g j = fldGet r g j := by
  unfold fldGet fldSet
  rw [rawWord_setRawWord]
  split
  · rename_i e
    rw [e, BitVec.toNat_ofNat, Nat.mod_eq_of_lt (setBits_lt (BitVec.isLt _) h hh), bitsOf_setBits_other _ _ _ _ _ _ h hg hd]
  · rfl

/-! The canonical form of the register file. -/

theorem regsWf_set {r : Tab Word} (h : regsWf r) (a : Nat) (w : Word) : regsWf (setRawWord r a w) := by
  unfold setRawWord Tab.setD
  split
  · exact ⟨fun e he => h.1 e (List.mem_of_mem_filter he), Tab.Rising.del h.2 a⟩
  · refine ⟨fun e he => ?_, Tab.Rising.ins h.2 a w⟩
    rcases Tab.mem_ins he with rfl | he
    · assumption
    · exact h.1 e he

theorem foldl_keeps {α β : Type} {P : β → Prop} {f : β → α → β} (hf : ∀ b a, P b → P (f b a)) (l : List α) (b : β)
    (h : P b) : P (l.foldl f b) := by
  induction l generalizing b with
  | nil => exact h
  | cons a l ih => exact ih _ (hf b a h)

end Sys2Proof.Machine
end

