-- ==== Sys2Proof/Laws/Evolves.lean ====
section
/-! SUPPORT. What one update of the state does to each part: the base lemmas of `Evolves`. -/

namespace Sys2Proof.Machine

variable {w : List Part} {s0 s t : State}

/-- Every part of `a` is in `b`. -/
def Sub (a b : List Part) : Prop := ∀ p, p ∈ a → p ∈ b

theorem Sub.of {a b w : List Part} (hw : Sub b w) (h : (a.all fun p => b.contains p) = true) : Sub a w := by
  intro p hp
  have := List.all_eq_true.mp h p hp
  exact hw p (by simpa using this)

theorem Sub.rfl {a : List Part} : Sub a a := fun _ h => h

theorem Part.Same.refl (p : Part) (s : State) : p.Same s s := by
  cases p <;> first | rfl | exact fun _ _ => rfl | exact fun _ _ h => h | exact List.prefix_refl _ | exact Nat.le_refl _

theorem Part.Same.trans {p : Part} {s t u : State} (h : p.Same s t) (h' : p.Same t u) : p.Same s u := by
  cases p <;> first
    | exact Eq.trans h' h
    | exact fun a ha => (h' a ha).trans (h a ha)
    | exact fun k u hu => h' k u (h k u hu)
    | exact List.IsPrefix.trans h h'
    | exact Nat.le_trans h h'

theorem Evolves.refl : Evolves w s s :=
  ⟨fun p _ => Part.Same.refl p s, List.prefix_refl _, Nat.le_refl _, Nat.le_refl _, fun h => h, Eq.refl _⟩

theorem Evolves.trans {u : State} (h : Evolves w s t) (h' : Evolves w t u) : Evolves w s u :=
  ⟨fun p hp => (h.same p hp).trans (h'.same p hp), h.out.trans h'.out, Nat.le_trans h.free h'.free,
    Nat.le_trans h.fuse h'.fuse,
    fun hc => h'.canon (h.canon hc), h'.pending.trans h.pending⟩

theorem Evolves.mono {w' : List Part} (h : Evolves w s t) (hw : Sub w w') : Evolves w' s t :=
  ⟨fun p hp => h.same p fun hm => hp (hw p hm), h.out, h.free, h.fuse, h.canon, h.pending⟩

theorem Evolves.ite {c : Prop} [Decidable c] (ha : c → Evolves w s0 s) (hb : ¬c → Evolves w s0 t) :
    Evolves w s0 (if c then s else t) := by
  split
  · exact ha ‹_›
  · exact hb ‹_›

theorem Evolves.foldl {α : Type} {f : State → α → State} {l : List α} (h : Evolves w s0 s)
    (hf : ∀ s a, Evolves w s0 s → Evolves w s0 (f s a)) : Evolves w s0 (l.foldl f s) := by
  induction l generalizing s with
  | nil => exact h
  | cons a l ih => exact ih (hf s a h)

theorem Evolves.foldl_fst {α β : Type} {f : State × β → α → State × β} {l : List α} {x : State × β}
    (h : Evolves w s0 x.1) (hf : ∀ x a, Evolves w s0 x.1 → Evolves w s0 (f x a).1) :
    Evolves w s0 (l.foldl f x).1 := by
  induction l generalizing x with
  | nil => exact h
  | cons a l ih => exact ih (hf x a h)

theorem Evolves.foldl_snd {α β : Type} {f : β × State → α → β × State} {l : List α} {x : β × State}
    (h : Evolves w s0 x.2) (hf : ∀ x a, Evolves w s0 x.2 → Evolves w s0 (f x a).2) :
    Evolves w s0 (l.foldl f x).2 := by
  induction l generalizing x with
  | nil => exact h
  | cons a l ih => exact ih (hf x a h)

theorem Evolves.fst_of {β : Type} {x : State × β} {b : β} (h : x = (t, b)) (hx : Evolves w s0 x.1) : Evolves w s0 t := by
  rw [h] at hx; exact hx

theorem Evolves.snd_of {β : Type} {x : β × State} {b : β} (h : x = (b, t)) (hx : Evolves w s0 x.2) : Evolves w s0 t := by
  rw [h] at hx; exact hx

theorem wf_hbm {x : Xpt} (hc : s.xpt.hbm.wf = true → x.hbm.wf = true) (h : Memory.wf s = true) :
    Memory.wf { s with xpt := x } = true := by
  simp only [Memory.wf, Bool.and_eq_true] at h ⊢
  exact ⟨hc h.1, h.2⟩

theorem wf_peerMem {x : Hep} (hc : s.hep.peerMem.wf = true → x.peerMem.wf = true) (h : Memory.wf s = true) :
    Memory.wf { s with hep := x } = true := by
  simp only [Memory.wf, Bool.and_eq_true] at h ⊢
  exact ⟨h.1, hc h.2⟩

theorem FencesStay.refl (t : Tab BlockState) : FencesStay t t := fun _ _ h => h

theorem FencesStay.upd {t : Tab BlockState} {k : Nat} {f : BlockState → BlockState}
    (hf : ∀ x u, bitAt x.fenced u = true → bitAt (f x).fenced u = true) : FencesStay t (t.upd k f) := by
  intro j u h
  rw [Tab.at_upd]
  split
  · subst_vars; exact hf _ _ h
  · exact h

/-- One part's fact, where the part may change or stands. -/
theorem Evolves.orSame {p : Part} {q : Prop} (h : Sub [p] w ∨ q) (hp : p ∉ w) : q :=
  h.resolve_left fun hs => hp (hs p (List.mem_singleton.2 rfl))

/-- A part that may change is one of the list. -/
theorem Evolves.outside {P : Prop} {p : Part} {l : List Part} (hw : Sub l w) (hl : l.contains p = true) (hp : p ∉ w) : P :=
  absurd (hw p (by simpa using hl)) hp

theorem regPart_same {a : Nat} (h : (regPart a).Same s t) : rawWord t.regs a = rawWord s.regs a := by
  have hb : a / 0x1000000 % 16 < 16 := Nat.mod_lt _ (by decide)
  unfold regPart at h
  generalize hk : a / 0x1000000 % 16 = k at h hb
  interval_cases k <;> exact h a hk

theorem regPart_mem (a : Nat) : regPart a ∈ regParts := by
  unfold regPart
  split <;> decide

theorem Sub.nil : Sub [] w := fun _ h => nomatch h

theorem Sub.cons {p : Part} {l : List Part} (hp : p ∈ w) (hl : Sub l w) : Sub (p :: l) w := by
  intro q hq
  rcases List.mem_cons.1 hq with rfl | hq
  · exact hp
  · exact hl q hq

theorem Sub.any {a : Nat} (h : Sub regParts w) : regPart a ∈ w := h _ (regPart_mem a)

theorem regPart_ne_regs (a : Nat) : regPart a ≠ .regs := by
  unfold regPart
  split <;> decide

theorem regPart_congr {a b : Nat} (h : a / 0x1000000 % 16 = b / 0x1000000 % 16) : regPart a = regPart b := by
  unfold regPart; rw [h]

/-- The block of a field's register is that of its base, whatever the index. -/
theorem regPart_addr (f : Fld) (i : Nat) : regPart (f.addr i) = regPart f.base :=
  regPart_congr (by unfold Fld.addr; omega)

theorem Evolves.ctlSet (x : Ctl) (h : Evolves w s0 s)
    (hi : x.inflight = s.ctl.inflight) (hn : x.gts.now = s.ctl.gts.now)
    (h1 : Sub [.time] w ∨ x.gts = s.ctl.gts)
    (h2 : Sub [.paths] w ∨ x.paths = s.ctl.paths)
    (h3 : Sub [.fences] w ∨ x.blocks = s.ctl.blocks)
    (h4 : Sub [.held] w ∨ x.held = s.ctl.held)
    (h5 : Sub [.rings] w ∨ (x.rings, x.ringMap) = (s.ctl.rings, s.ctl.ringMap))
    (h6 : Sub [.clog] w ∨ x.clog = s.ctl.clog)
    (h7 : Sub [.sessions] w ∨ x.sessions = s.ctl.sessions)
    (h8 : Sub [.bone] w ∨ x.bone = s.ctl.bone)
    (h9 : Sub [.principals] w ∨ x.principals = s.ctl.principals)
    (h10 : Sub [.images] w ∨ (x.profiles, x.firmware, x.image) = (s.ctl.profiles, s.ctl.firmware, s.ctl.image))
    (h11 : Sub [.stores] w ∨ (x.stores, x.running) = (s.ctl.stores, s.ctl.running))
    (h12 : Sub [.marks] w ∨ (x.conflictNext, x.marks) = (s.ctl.conflictNext, s.ctl.marks))
    (h13 : Sub [.identity] w ∨ (x.shelfUuid, x.udpPort, x.mgmtAddrs) =
      (s.ctl.shelfUuid, s.ctl.udpPort, s.ctl.mgmtAddrs))
    (h14 : Sub [.cores] w ∨ x.coreTasks = s.ctl.coreTasks)
    (hb : Sub [.fenced] w ∨ FencesStay s.ctl.blocks x.blocks) :
    Evolves w s0 { s with ctl := x } := by
  refine h.trans ⟨fun p hp => ?_, List.prefix_refl _, Nat.le_refl _, Nat.le_refl _, fun h => h, rfl⟩
  cases p
  case time => exact Evolves.orSame h1 hp
  case paths => exact Evolves.orSame h2 hp
  case fences => exact Evolves.orSame h3 hp
  case held => exact Evolves.orSame h4 hp
  case rings => exact Evolves.orSame h5 hp
  case clog => exact Evolves.orSame h6 hp
  case sessions => exact Evolves.orSame h7 hp
  case bone => exact Evolves.orSame h8 hp
  case principals => exact Evolves.orSame h9 hp
  case images => exact Evolves.orSame h10 hp
  case stores => exact Evolves.orSame h11 hp
  case marks => exact Evolves.orSame h12 hp
  case identity => exact Evolves.orSame h13 hp
  case cores => exact Evolves.orSame h14 hp
  case fenced => exact Evolves.orSame hb hp
  case events => exact hi
  case records => show s.ctl.inflight <+: x.inflight; rw [hi]
  case clock => exact hn
  case forward => exact Nat.le_of_eq hn.symm
  all_goals first
    | rfl
    | exact fun _ _ => rfl
    | exact fun _ _ h => h
    | exact List.prefix_refl _
    | exact Nat.le_refl _

theorem Evolves.telSet (x : Tel) (h : Evolves w s0 s)
    (h1 : Sub [.counters] w ∨ (x.cnt, x.cur, x.curGts) = (s.tel.cnt, s.tel.cur, s.tel.curGts))
    (h2 : Sub [.snapshot] w ∨ x.snap = s.tel.snap)
    (h3 : Sub [.sampling] w ∨ (x.samplers, x.samples, x.sampleSnap, x.dropGts, x.dropInSecond, x.dropReported) =
      (s.tel.samplers, s.tel.samples, s.tel.sampleSnap, s.tel.dropGts, s.tel.dropInSecond, s.tel.dropReported)) :
    Evolves w s0 { s with tel := x } := by
  refine h.trans ⟨fun p hp => ?_, List.prefix_refl _, Nat.le_refl _, Nat.le_refl _, fun h => h, rfl⟩
  cases p
  case counters => exact Evolves.orSame h1 hp
  case snapshot => exact Evolves.orSame h2 hp
  case sampling => exact Evolves.orSame h3 hp
  all_goals first
    | rfl
    | exact fun _ _ => rfl
    | exact fun _ _ h => h
    | exact List.prefix_refl _
    | exact Nat.le_refl _

theorem Evolves.bootSet (x : Boot) (h : Evolves w s0 s)
    (h1 : Sub [.boot] w ∨ x = s.boot) :
    Evolves w s0 { s with boot := x } := by
  refine h.trans ⟨fun p hp => ?_, List.prefix_refl _, Nat.le_refl _, Nat.le_refl _, fun h => h, rfl⟩
  cases p
  case boot => exact Evolves.orSame h1 hp
  all_goals first
    | rfl
    | exact fun _ _ => rfl
    | exact fun _ _ h => h
    | exact List.prefix_refl _
    | exact Nat.le_refl _

theorem Evolves.cmdSet (x : Cmd) (h : Evolves w s0 s)
    (h1 : Sub [.controllers] w ∨ x.ctrls = s.cmd.ctrls)
    (h2 : Sub [.queues] w ∨ x.queues = s.cmd.queues)
    (h3 : Sub [.namespaces] w ∨ (x.namespaces, x.hostNqns, x.classMap, x.lastCntlid, x.anaChanges) =
      (s.cmd.namespaces, s.cmd.hostNqns, s.cmd.classMap, s.cmd.lastCntlid, s.cmd.anaChanges))
    (h4 : Sub [.commands] w ∨ (x.queued, x.table, x.slots, x.arbiters, x.boundStat) =
      (s.cmd.queued, s.cmd.table, s.cmd.slots, s.cmd.arbiters, s.cmd.boundStat))
    (h5 : Sub [.activation] w ∨ x.act = s.cmd.act)
    (h6 : Sub [.powerState] w ∨ (x.ps, x.exiting, x.idleFrom, x.test) =
      (s.cmd.ps, s.cmd.exiting, s.cmd.idleFrom, s.cmd.test)) :
    Evolves w s0 { s with cmd := x } := by
  refine h.trans ⟨fun p hp => ?_, List.prefix_refl _, Nat.le_refl _, Nat.le_refl _, fun h => h, rfl⟩
  cases p
  case controllers => exact Evolves.orSame h1 hp
  case queues => exact Evolves.orSame h2 hp
  case namespaces => exact Evolves.orSame h3 hp
  case commands => exact Evolves.orSame h4 hp
  case activation => exact Evolves.orSame h5 hp
  case powerState => exact Evolves.orSame h6 hp
  all_goals first
    | rfl
    | exact fun _ _ => rfl
    | exact fun _ _ h => h
    | exact List.prefix_refl _
    | exact Nat.le_refl _

theorem Evolves.xptSet (x : Xpt) (h : Evolves w s0 s)
    (h1 : Sub [.contexts] w ∨ x.ctx = s.xpt.ctx)
    (h2 : Sub [.contextCache] w ∨ (x.cache, x.victims, x.fills, x.misses, x.invCtrl) =
      (s.xpt.cache, s.xpt.victims, s.xpt.fills, s.xpt.misses, s.xpt.invCtrl))
    (h3 : Sub [.regions] w ∨ x.regions = s.xpt.regions)
    (h4 : Sub [.chains] w ∨ (x.triggers, x.pool, x.chains, x.waiting, x.migPeers) =
      (s.xpt.triggers, s.xpt.pool, s.xpt.chains, s.xpt.waiting, s.xpt.migPeers))
    (h5 : Sub [.hbm] w ∨ x.hbm = s.xpt.hbm)
    (hc : s.xpt.hbm.wf = true → x.hbm.wf = true) :
    Evolves w s0 { s with xpt := x } := by
  refine h.trans ⟨fun p hp => ?_, List.prefix_refl _, Nat.le_refl _, Nat.le_refl _, fun h => ⟨wf_hbm hc h.1, h.2⟩, rfl⟩
  cases p
  case contexts => exact Evolves.orSame h1 hp
  case contextCache => exact Evolves.orSame h2 hp
  case regions => exact Evolves.orSame h3 hp
  case chains => exact Evolves.orSame h4 hp
  case hbm => exact Evolves.orSame h5 hp
  all_goals first
    | rfl
    | exact fun _ _ => rfl
    | exact fun _ _ h => h
    | exact List.prefix_refl _
    | exact Nat.le_refl _

theorem Evolves.laySet (x : Lay) (h : Evolves w s0 s)
    (h1 : Sub [.mapping] w ∨ (x.geoms, x.sets, x.drives, x.map, x.extentNext) =
      (s.lay.geoms, s.lay.sets, s.lay.drives, s.lay.map, s.lay.extentNext))
    (h2 : Sub [.journal] w ∨ (x.jseqNext, x.journal, x.ckpt, x.ringPos, x.waitingJournal, x.deferred, x.replayEnded) =
      (s.lay.jseqNext, s.lay.journal, s.lay.ckpt, s.lay.ringPos, s.lay.waitingJournal, s.lay.deferred, s.lay.replayEnded))
    (h3 : Sub [.layoutWork] w ∨ (x.throttle, x.full, x.rebuild, x.lanes, x.laneQueue, x.repairs, x.scrubStart, x.scrubSet, x.scrubRows, x.scrubRepairs) =
      (s.lay.throttle, s.lay.full, s.lay.rebuild, s.lay.lanes, s.lay.laneQueue, s.lay.repairs, s.lay.scrubStart, s.lay.scrubSet, s.lay.scrubRows, s.lay.scrubRepairs)) :
    Evolves w s0 { s with lay := x } := by
  refine h.trans ⟨fun p hp => ?_, List.prefix_refl _, Nat.le_refl _, Nat.le_refl _, fun h => h, rfl⟩
  cases p
  case mapping => exact Evolves.orSame h1 hp
  case journal => exact Evolves.orSame h2 hp
  case layoutWork => exact Evolves.orSame h3 hp
  all_goals first
    | rfl
    | exact fun _ _ => rfl
    | exact fun _ _ h => h
    | exact List.prefix_refl _
    | exact Nat.le_refl _

theorem Evolves.cipSet (x : Cip) (h : Evolves w s0 s)
    (h1 : Sub [.keys] w ∨ (x.slots, x.entries, x.genTop) = (s.cip.slots, s.cip.entries, s.cip.genTop))
    (h2 : Sub [.keyOrders] w ∨ (x.order, x.mailbox, x.mailboxSession, x.escrow) =
      (s.cip.order, s.cip.mailbox, s.cip.mailboxSession, s.cip.escrow))
    (h3 : Sub [.ciphers] w ∨ (x.ops, x.running, x.opNext, x.lanes) =
      (s.cip.ops, s.cip.running, s.cip.opNext, s.cip.lanes)) :
    Evolves w s0 { s with cip := x } := by
  refine h.trans ⟨fun p hp => ?_, List.prefix_refl _, Nat.le_refl _, Nat.le_refl _, fun h => h, rfl⟩
  cases p
  case keys => exact Evolves.orSame h1 hp
  case keyOrders => exact Evolves.orSame h2 hp
  case ciphers => exact Evolves.orSame h3 hp
  all_goals first
    | rfl
    | exact fun _ _ => rfl
    | exact fun _ _ h => h
    | exact List.prefix_refl _
    | exact Nat.le_refl _

theorem Evolves.truSet (x : Tru) (h : Evolves w s0 s)
    (h1 : Sub [.trust] w ∨ x = s.tru)
    (hf : s.tru.fuseSvn ≤ x.fuseSvn) :
    Evolves w s0 { s with tru := x } := by
  refine h.trans ⟨fun p hp => ?_, List.prefix_refl _, Nat.le_refl _, hf, fun h => h, rfl⟩
  cases p
  case trust => exact Evolves.orSame h1 hp
  all_goals first
    | rfl
    | exact fun _ _ => rfl
    | exact fun _ _ h => h
    | exact List.prefix_refl _
    | exact Nat.le_refl _

theorem Evolves.fixSet (x : Fix) (h : Evolves w s0 s)
    (h1 : Sub [.batches] w ∨ (x.opened, x.closed, x.sealed, x.lastSeq, x.prevHash, x.closedTo, x.periodQs, x.nextQs, x.nextFrom, x.recomputing, x.replayTo) =
      (s.fix.opened, s.fix.closed, s.fix.sealed, s.fix.lastSeq, s.fix.prevHash, s.fix.closedTo, s.fix.periodQs, s.fix.nextQs, s.fix.nextFrom, s.fix.recomputing, s.fix.replayTo))
    (h2 : Sub [.custody] w ∨ (x.custody, x.custodyWait, x.audited, x.suspects) =
      (s.fix.custody, s.fix.custodyWait, s.fix.audited, s.fix.suspects))
    (h3 : Sub [.jobs] w ∨ (x.jobs, x.received) = (s.fix.jobs, s.fix.received))
    (h4 : Sub [.storeWrites] w ∨ x.storeWait = s.fix.storeWait) :
    Evolves w s0 { s with fix := x } := by
  refine h.trans ⟨fun p hp => ?_, List.prefix_refl _, Nat.le_refl _, Nat.le_refl _, fun h => h, rfl⟩
  cases p
  case batches => exact Evolves.orSame h1 hp
  case custody => exact Evolves.orSame h2 hp
  case jobs => exact Evolves.orSame h3 hp
  case storeWrites => exact Evolves.orSame h4 hp
  all_goals first
    | rfl
    | exact fun _ _ => rfl
    | exact fun _ _ h => h
    | exact List.prefix_refl _
    | exact Nat.le_refl _

theorem Evolves.drvSet (x : Drv) (h : Evolves w s0 s)
    (h1 : Sub [.drivePorts] w ∨ x.ports = s.drv.ports)
    (h2 : Sub [.driveSlots] w ∨ (x.slots, x.stopped, x.round, x.preempting) =
      (s.drv.slots, s.drv.stopped, s.drv.round, s.drv.preempting)) :
    Evolves w s0 { s with drv := x } := by
  refine h.trans ⟨fun p hp => ?_, List.prefix_refl _, Nat.le_refl _, Nat.le_refl _, fun h => h, rfl⟩
  cases p
  case drivePorts => exact Evolves.orSame h1 hp
  case driveSlots => exact Evolves.orSame h2 hp
  all_goals first
    | rfl
    | exact fun _ _ => rfl
    | exact fun _ _ h => h
    | exact List.prefix_refl _
    | exact Nat.le_refl _

theorem Evolves.netSet (x : Net) (h : Evolves w s0 s)
    (h1 : Sub [.classifier] w ∨ (x.nodes, x.tcam, x.patterns) = (s.net.nodes, s.net.tcam, s.net.patterns))
    (h2 : Sub [.punts] w ∨ (x.punt, x.puntBucket, x.puntSaid, x.puntLost) =
      (s.net.punt, s.net.puntBucket, s.net.puntSaid, s.net.puntLost))
    (h3 : Sub [.stamps] w ∨ (x.stamps, x.wake, x.wakeDropped) = (s.net.stamps, s.net.wake, s.net.wakeDropped))
    (h4 : Sub [.buffer] w ∨ (x.cells, x.nextBank, x.freeMinRead, x.rxCells, x.rxHeld, x.squeezed, x.waitC0, x.peerChains) =
      (s.net.cells, s.net.nextBank, s.net.freeMinRead, s.net.rxCells, s.net.rxHeld, s.net.squeezed, s.net.waitC0, s.net.peerChains))
    (h5 : Sub [.groups] w ∨ x.groups = s.net.groups)
    (h6 : Sub [.tables] w ∨ (x.queueCfg, x.nodeCfg, x.policers, x.gateCfg) =
      (s.net.queueCfg, s.net.nodeCfg, s.net.policers, s.net.gateCfg))
    (h7 : Sub [.traffic] w ∨ (x.queues, x.deficit, x.nodeDeficit, x.shaper, x.nodeShaper, x.served, x.line, x.stomp, x.gates, x.media, x.hist, x.histNext) =
      (s.net.queues, s.net.deficit, s.net.nodeDeficit, s.net.shaper, s.net.nodeShaper, s.net.served, s.net.line, s.net.stomp, s.net.gates, s.net.media, s.net.hist, s.net.histNext))
    (hc : s.net.tcam.wf = true → x.tcam.wf = true) :
    Evolves w s0 { s with net := x } := by
  refine h.trans ⟨fun p hp => ?_, List.prefix_refl _, Nat.le_refl _, Nat.le_refl _, fun h => ⟨h.1, hc h.2.1, h.2.2⟩, rfl⟩
  cases p
  case classifier => exact Evolves.orSame h1 hp
  case punts => exact Evolves.orSame h2 hp
  case stamps => exact Evolves.orSame h3 hp
  case buffer => exact Evolves.orSame h4 hp
  case groups => exact Evolves.orSame h5 hp
  case tables => exact Evolves.orSame h6 hp
  case traffic => exact Evolves.orSame h7 hp
  all_goals first
    | rfl
    | exact fun _ _ => rfl
    | exact fun _ _ h => h
    | exact List.prefix_refl _
    | exact Nat.le_refl _

theorem Evolves.hepSet (x : Hep) (h : Evolves w s0 s)
    (h1 : Sub [.functions] w ∨ (x.fns, x.numVfs, x.vfEnabled, x.mrrs, x.mps, x.tag10, x.cto) =
      (s.hep.fns, s.hep.numVfs, s.hep.vfEnabled, s.hep.mrrs, s.hep.mps, s.hep.tag10, s.hep.cto))
    (h2 : Sub [.hostReads] w ∨ (x.tags, x.fresh, x.released, x.waiting, x.fetches, x.fetchNext, x.hosts) =
      (s.hep.tags, s.hep.fresh, s.hep.released, s.hep.waiting, s.hep.fetches, s.hep.fetchNext, s.hep.hosts))
    (h3 : Sub [.hostQueues] w ∨ (x.sqs, x.cqs, x.coalesced) = (s.hep.sqs, s.hep.cqs, s.hep.coalesced))
    (h4 : Sub [.peerTable] w ∨ (x.staged, x.ppt) = (s.hep.staged, s.hep.ppt))
    (h5 : Sub [.peerMem] w ∨ x.peerMem = s.hep.peerMem)
    (hc : s.hep.peerMem.wf = true → x.peerMem.wf = true) :
    Evolves w s0 { s with hep := x } := by
  refine h.trans ⟨fun p hp => ?_, List.prefix_refl _, Nat.le_refl _, Nat.le_refl _, fun h => ⟨wf_peerMem hc h.1, h.2⟩, rfl⟩
  cases p
  case functions => exact Evolves.orSame h1 hp
  case hostReads => exact Evolves.orSame h2 hp
  case hostQueues => exact Evolves.orSame h3 hp
  case peerTable => exact Evolves.orSame h4 hp
  case peerMem => exact Evolves.orSame h5 hp
  all_goals first
    | rfl
    | exact fun _ _ => rfl
    | exact fun _ _ h => h
    | exact List.prefix_refl _
    | exact Nat.le_refl _

theorem Evolves.redSet (x : Red) (h : Evolves w s0 s)
    (h1 : Sub [.leash] w ∨ (x.links, x.recordLink, x.backlog, x.backlogSaid, x.nextEpochUs) =
      (s.red.links, s.red.recordLink, s.red.backlog, s.red.backlogSaid, s.red.nextEpochUs))
    (h2 : Sub [.replicas] w ∨ (x.caps, x.commits, x.leaves, x.ctrls, x.queues, x.ctx, x.keys, x.inQuorum, x.pend, x.notices, x.copied, x.bulkDone) =
      (s.red.caps, s.red.commits, s.red.leaves, s.red.ctrls, s.red.queues, s.red.ctx, s.red.keys, s.red.inQuorum, s.red.pend, s.red.notices, s.red.copied, s.red.bulkDone))
    (h3 : Sub [.roles] w ∨ (x.probing, x.joinFrom, x.lastJoinA, x.outOfStep, x.takeoverFrom, x.takeoverCause, x.failedRole, x.disputed, x.order, x.stations, x.addrs) =
      (s.red.probing, s.red.joinFrom, s.red.lastJoinA, s.red.outOfStep, s.red.takeoverFrom, s.red.takeoverCause, s.red.failedRole, s.red.disputed, s.red.order, s.red.stations, s.red.addrs)) :
    Evolves w s0 { s with red := x } := by
  refine h.trans ⟨fun p hp => ?_, List.prefix_refl _, Nat.le_refl _, Nat.le_refl _, fun h => h, rfl⟩
  cases p
  case leash => exact Evolves.orSame h1 hp
  case replicas => exact Evolves.orSame h2 hp
  case roles => exact Evolves.orSame h3 hp
  all_goals first
    | rfl
    | exact fun _ _ => rfl
    | exact fun _ _ h => h
    | exact List.prefix_refl _
    | exact Nat.le_refl _

theorem Evolves.pwrSet (x : Pwr) (h : Evolves w s0 s)
    (h1 : Sub [.legs] w ∨ x.legs = s.pwr.legs)
    (h2 : Sub [.feeds] w ∨ (x.feeds, x.sensFails, x.warned, x.critical, x.polled) =
      (s.pwr.feeds, s.pwr.sensFails, s.pwr.warned, s.pwr.critical, s.pwr.polled)) :
    Evolves w s0 { s with pwr := x } := by
  refine h.trans ⟨fun p hp => ?_, List.prefix_refl _, Nat.le_refl _, Nat.le_refl _, fun h => h, rfl⟩
  cases p
  case legs => exact Evolves.orSame h1 hp
  case feeds => exact Evolves.orSame h2 hp
  all_goals first
    | rfl
    | exact fun _ _ => rfl
    | exact fun _ _ h => h
    | exact List.prefix_refl _
    | exact Nat.le_refl _

/-- Records set out for the router. -/
theorem Evolves.recordsSet (l : List EventRec) (h : Evolves w s0 s) (hw : Sub [.events] w) :
    Evolves w s0 { s with ctl := { s.ctl with inflight := s.ctl.inflight ++ l } } := by
  refine h.trans ⟨fun p hp => ?_, List.prefix_refl _, Nat.le_refl _, Nat.le_refl _, fun h => h, rfl⟩
  cases p
  case events => exact Evolves.outside hw rfl hp
  case records => exact List.prefix_append _ _
  all_goals first
    | rfl
    | exact fun _ _ => rfl
    | exact fun _ _ h => h
    | exact List.prefix_refl _
    | exact Nat.le_refl _

/-- Records taken away. -/
theorem Evolves.ctlDrop (l : List EventRec) (h : Evolves w s0 s) (hw : Sub [.events, .records] w) :
    Evolves w s0 { s with ctl := { s.ctl with inflight := l } } := by
  refine h.trans ⟨fun p hp => ?_, List.prefix_refl _, Nat.le_refl _, Nat.le_refl _, fun h => h, rfl⟩
  cases p
  case events => exact Evolves.outside hw rfl hp
  case records => exact Evolves.outside hw rfl hp
  all_goals first
    | rfl
    | exact fun _ _ => rfl
    | exact fun _ _ h => h
    | exact List.prefix_refl _
    | exact Nat.le_refl _

/-- GTS set forward. -/
theorem Evolves.ctlClock (g : Gts) (h : Evolves w s0 s) (hw : Sub [.time, .clock] w) (hn : s.ctl.gts.now ≤ g.now) :
    Evolves w s0 { s with ctl := { s.ctl with gts := g } } := by
  refine h.trans ⟨fun p hp => ?_, List.prefix_refl _, Nat.le_refl _, Nat.le_refl _, fun h => h, rfl⟩
  cases p
  case time => exact Evolves.outside hw rfl hp
  case clock => exact Evolves.outside hw rfl hp
  case forward => exact hn
  all_goals first
    | rfl
    | exact fun _ _ => rfl
    | exact fun _ _ h => h
    | exact List.prefix_refl _
    | exact Nat.le_refl _

/-- Registers changed, but of the parts of the list alone. -/
theorem Evolves.regsSet (x : Tab Word) (h : Evolves w s0 s) (hw : Sub [.regs] w)
    (hx : ∀ a, regPart a ∉ w → rawWord x a = rawWord s.regs a) (hc : regsWf s.regs → regsWf x) :
    Evolves w s0 { s with regs := x } := by
  refine h.trans ⟨fun p hp => ?_, List.prefix_refl _, Nat.le_refl _, Nat.le_refl _, fun h => ⟨h.1, h.2.1, hc h.2.2⟩, rfl⟩
  cases p
  case regs => exact Evolves.outside hw rfl hp
  case regCtl => exact fun a ha => hx a (by unfold regPart; rw [ha]; exact hp)
  case regPrt => exact fun a ha => hx a (by unfold regPart; rw [ha]; exact hp)
  case regCls => exact fun a ha => hx a (by unfold regPart; rw [ha]; exact hp)
  case regSwc => exact fun a ha => hx a (by unfold regPart; rw [ha]; exact hp)
  case regTmg => exact fun a ha => hx a (by unfold regPart; rw [ha]; exact hp)
  case regXpt => exact fun a ha => hx a (by unfold regPart; rw [ha]; exact hp)
  case regCmd => exact fun a ha => hx a (by unfold regPart; rw [ha]; exact hp)
  case regLay => exact fun a ha => hx a (by unfold regPart; rw [ha]; exact hp)
  case regFix => exact fun a ha => hx a (by unfold regPart; rw [ha]; exact hp)
  case regDrv => exact fun a ha => hx a (by unfold regPart; rw [ha]; exact hp)
  case regCip => exact fun a ha => hx a (by unfold regPart; rw [ha]; exact hp)
  case regTru => exact fun a ha => hx a (by unfold regPart; rw [ha]; exact hp)
  case regPwr => exact fun a ha => hx a (by unfold regPart; rw [ha]; exact hp)
  case regHep => exact fun a ha => hx a (by unfold regPart; rw [ha]; exact hp)
  case regRed => exact fun a ha => hx a (by unfold regPart; rw [ha]; exact hp)
  case regTel => exact fun a ha => hx a (by unfold regPart; rw [ha]; exact hp)
  all_goals first
    | rfl
    | exact fun _ _ => rfl
    | exact fun _ _ h => h
    | exact List.prefix_refl _
    | exact Nat.le_refl _

/-- One register's word set. -/
theorem Evolves.regsWord (a : Nat) (v : Word) (h : Evolves w s0 s) (hw : Sub [.regs, regPart a] w) :
    Evolves w s0 { s with regs := setRawWord s.regs a v } :=
  Evolves.regsSet _ h (fun p hp => hw p (by simp at hp; simp [hp])) (fun b hb => by
    rw [rawWord_setRawWord, if_neg]
    intro e; subst e; exact hb (hw _ (by simp))) fun hc => regsWf_set hc a v

/-- Words of one block set one after another. -/
theorem rawWord_foldl_other {α : Type} {l : List α} {r : Tab Word} {f : α → Nat} {g : α → Word} {b : Nat} {q : Part}
    (hf : ∀ x, x ∈ l → regPart (f x) = q) (hb : regPart b ≠ q) :
    rawWord (l.foldl (fun r x => setRawWord r (f x) (g x)) r) b = rawWord r b := by
  induction l generalizing r with
  | nil => rfl
  | cons x l ih =>
    rw [List.foldl_cons, ih fun y hy => hf y (List.mem_cons_of_mem _ hy), rawWord_setRawWord, if_neg]
    intro e; subst e; exact hb (hf x (List.mem_cons_self ..))

/-- Words of one block, set one after another. -/
theorem Evolves.regsFold {α : Type} (l : List α) (f : α → Nat) (g : α → Word) (q : Part) (h : Evolves w s0 s)
    (hw : Sub [.regs, q] w) (hf : ∀ x, x ∈ l → regPart (f x) = q) :
    Evolves w s0 { s with regs := l.foldl (fun r x => setRawWord r (f x) (g x)) s.regs } :=
  Evolves.regsSet _ h (fun p hp => hw p (by simp at hp; simp [hp]))
    (fun _ hb => rawWord_foldl_other hf fun e => hb (e ▸ hw q (by simp)))
    fun hc => foldl_keeps (P := regsWf) (fun _ _ h => regsWf_set h _ _) _ _ hc

/-- Any registers changed. -/
theorem Evolves.regsAll (x : Tab Word) (h : Evolves w s0 s) (hw : Sub regParts w) (hc : regsWf s.regs → regsWf x) :
    Evolves w s0 { s with regs := x } :=
  Evolves.regsSet _ h (fun p hp => hw p (by simp at hp; simp [hp, regParts])) (fun a ha => absurd (hw _ (regPart_mem a)) ha) hc

/-- The commands held during an exit changed. -/
theorem Evolves.waitingSet (x : List Instr) (h : Evolves w s0 s) (hw : Sub [.heldCommands] w) :
    Evolves w s0 { s with waiting := x } := by
  refine h.trans ⟨fun p hp => ?_, List.prefix_refl _, Nat.le_refl _, Nat.le_refl _, fun h => h, rfl⟩
  cases p
  case heldCommands => exact Evolves.outside hw rfl hp
  all_goals first
    | rfl
    | exact fun _ _ => rfl
    | exact fun _ _ h => h
    | exact List.prefix_refl _
    | exact Nat.le_refl _

theorem Evolves.outSet (x : List Output) (h : Evolves w s0 s) (hw : Sub [.out] w) (ho : s.out <+: x) :
    Evolves w s0 { s with out := x } := by
  refine h.trans ⟨fun p hp => ?_, ho, Nat.le_refl _, Nat.le_refl _, fun h => h, rfl⟩
  cases p
  case out => exact Evolves.outside hw rfl hp
  all_goals first
    | rfl
    | exact fun _ _ => rfl
    | exact fun _ _ h => h
    | exact List.prefix_refl _
    | exact Nat.le_refl _

theorem Evolves.freeSet (x : Nat) (h : Evolves w s0 s) (hw : Sub [.free] w) (hn : s.free ≤ x) :
    Evolves w s0 { s with free := x } := by
  refine h.trans ⟨fun p hp => ?_, List.prefix_refl _, hn, Nat.le_refl _, fun h => h, rfl⟩
  cases p
  case free => exact Evolves.outside hw rfl hp
  all_goals first
    | rfl
    | exact fun _ _ => rfl
    | exact fun _ _ h => h
    | exact List.prefix_refl _
    | exact Nat.le_refl _

end Sys2Proof.Machine
end

