-- ==== Sys2Proof/Laws/FrameOps.lean ====
section
/-! SUPPORT. What the operations of Machine/Ops.lean change at most: one lemma each. -/

namespace Sys2Proof.Machine

set_option linter.unusedTactic false
set_option linter.unreachableTactic false
set_option linter.unusedVariables false

theorem state_setFldI_evolves {f : Fld} {i : Nat} {v : Nat} {ps : List Part} {s₀ s : State} (hE : Evolves ps s₀ s)
    (hW : Sub [.regs, regPart f.base] ps) :
    Evolves ps s₀ (State.setFldI s f i v) := by
  unfold State.setFldI fldSet
  exact Evolves.regsWord _ _ hE (by rw [regPart_addr]; exact hW)

theorem state_bumpI_evolves {f : Fld} {i : Nat} {n : Nat} {ps : List Part} {s₀ s : State} (hE : Evolves ps s₀ s)
    (hW : Sub [.regs, regPart f.base] ps) :
    Evolves ps s₀ (State.bumpI s f i n) := by
  unfold State.bumpI
  repeat' first
    | exact Sub.of hW rfl | exact hW
    | exact fun p hp => hW p (by simp only [List.mem_cons, List.not_mem_nil, or_false] at hp ⊢; tauto)
    | with_reducible first
        | exact hE | apply state_setFldI_evolves
    | dsimp only

theorem state_bump_evolves {f : Fld} {ps : List Part} {s₀ s : State} (hE : Evolves ps s₀ s)
    (hW : Sub [.regs, regPart f.base] ps) :
    Evolves ps s₀ (State.bump s f) := by
  unfold State.bump
  repeat' first
    | exact Sub.of hW rfl | exact hW
    | exact fun p hp => hW p (by simp only [List.mem_cons, List.not_mem_nil, or_false] at hp ⊢; tauto)
    | with_reducible first
        | exact hE | apply state_bumpI_evolves
    | dsimp only

theorem state_drawn_evolves  {ps : List Part} {s₀ s : State} (hE : Evolves ps s₀ s)
    (hW : Sub [.free] ps) :
    Evolves ps s₀ (State.drawn s) := by
  unfold State.drawn
  repeat' first
    | exact Sub.of hW rfl | exact Nat.le_add_right _ _
    | with_reducible first
        | exact hE
    | dsimp only
    | with_reducible first
        | apply Evolves.freeSet

theorem state_onBoot_evolves {f : Boot → Boot} {ps : List Part} {s₀ s : State} (hE : Evolves ps s₀ s)
    (h1 : Sub [.boot] ps ∨ (f s.boot) = s.boot) :
    Evolves ps s₀ (State.onBoot s f) := by
  unfold State.onBoot
  repeat' first
    | exact h1
    | with_reducible first
        | exact hE
    | dsimp only
    | with_reducible first
        | apply Evolves.bootSet

theorem state_onCip_evolves {f : Cip → Cip} {ps : List Part} {s₀ s : State} (hE : Evolves ps s₀ s)
    (h1 : Sub [.keys] ps ∨ ((f s.cip).slots, (f s.cip).entries, (f s.cip).genTop) =
      (s.cip.slots, s.cip.entries, s.cip.genTop))
    (h2 : Sub [.keyOrders] ps ∨ ((f s.cip).order, (f s.cip).mailbox, (f s.cip).mailboxSession, (f s.cip).escrow) =
      (s.cip.order, s.cip.mailbox, s.cip.mailboxSession, s.cip.escrow))
    (h3 : Sub [.ciphers] ps ∨ ((f s.cip).ops, (f s.cip).running, (f s.cip).opNext, (f s.cip).lanes) =
      (s.cip.ops, s.cip.running, s.cip.opNext, s.cip.lanes)) :
    Evolves ps s₀ (State.onCip s f) := by
  unfold State.onCip
  repeat' first
    | exact h1 | exact h2 | exact h3
    | with_reducible first
        | exact hE
    | dsimp only
    | with_reducible first
        | apply Evolves.cipSet

theorem state_onCmd_evolves {f : Cmd → Cmd} {ps : List Part} {s₀ s : State} (hE : Evolves ps s₀ s)
    (h1 : Sub [.controllers] ps ∨ (f s.cmd).ctrls = s.cmd.ctrls)
    (h2 : Sub [.queues] ps ∨ (f s.cmd).queues = s.cmd.queues)
    (h3 : Sub [.namespaces] ps ∨ ((f s.cmd).namespaces, (f s.cmd).hostNqns, (f s.cmd).classMap, (f s.cmd).lastCntlid, (f s.cmd).anaChanges) =
      (s.cmd.namespaces, s.cmd.hostNqns, s.cmd.classMap, s.cmd.lastCntlid, s.cmd.anaChanges))
    (h4 : Sub [.commands] ps ∨ ((f s.cmd).queued, (f s.cmd).table, (f s.cmd).slots, (f s.cmd).arbiters, (f s.cmd).boundStat) =
      (s.cmd.queued, s.cmd.table, s.cmd.slots, s.cmd.arbiters, s.cmd.boundStat))
    (h5 : Sub [.activation] ps ∨ (f s.cmd).act = s.cmd.act)
    (h6 : Sub [.powerState] ps ∨ ((f s.cmd).ps, (f s.cmd).exiting, (f s.cmd).idleFrom, (f s.cmd).test) =
      (s.cmd.ps, s.cmd.exiting, s.cmd.idleFrom, s.cmd.test)) :
    Evolves ps s₀ (State.onCmd s f) := by
  unfold State.onCmd
  repeat' first
    | exact h1 | exact h2 | exact h3 | exact h4 | exact h5 | exact h6
    | with_reducible first
        | exact hE
    | dsimp only
    | with_reducible first
        | apply Evolves.cmdSet

theorem state_onCtl_evolves {f : Ctl → Ctl} {ps : List Part} {s₀ s : State} (hE : Evolves ps s₀ s)
    (hi : (f s.ctl).inflight = s.ctl.inflight) (hn : (f s.ctl).gts.now = s.ctl.gts.now)
    (h1 : Sub [.time] ps ∨ (f s.ctl).gts = s.ctl.gts)
    (h2 : Sub [.paths] ps ∨ (f s.ctl).paths = s.ctl.paths)
    (h3 : Sub [.fences] ps ∨ (f s.ctl).blocks = s.ctl.blocks)
    (h4 : Sub [.held] ps ∨ (f s.ctl).held = s.ctl.held)
    (h5 : Sub [.rings] ps ∨ ((f s.ctl).rings, (f s.ctl).ringMap) = (s.ctl.rings, s.ctl.ringMap))
    (h6 : Sub [.clog] ps ∨ (f s.ctl).clog = s.ctl.clog)
    (h7 : Sub [.sessions] ps ∨ (f s.ctl).sessions = s.ctl.sessions)
    (h8 : Sub [.bone] ps ∨ (f s.ctl).bone = s.ctl.bone)
    (h9 : Sub [.principals] ps ∨ (f s.ctl).principals = s.ctl.principals)
    (h10 : Sub [.images] ps ∨ ((f s.ctl).profiles, (f s.ctl).firmware, (f s.ctl).image) =
      (s.ctl.profiles, s.ctl.firmware, s.ctl.image))
    (h11 : Sub [.stores] ps ∨ ((f s.ctl).stores, (f s.ctl).running) = (s.ctl.stores, s.ctl.running))
    (h12 : Sub [.marks] ps ∨ ((f s.ctl).conflictNext, (f s.ctl).marks) = (s.ctl.conflictNext, s.ctl.marks))
    (h13 : Sub [.identity] ps ∨ ((f s.ctl).shelfUuid, (f s.ctl).udpPort, (f s.ctl).mgmtAddrs) =
      (s.ctl.shelfUuid, s.ctl.udpPort, s.ctl.mgmtAddrs))
    (h14 : Sub [.cores] ps ∨ (f s.ctl).coreTasks = s.ctl.coreTasks)
    (hb : Sub [.fenced] ps ∨ FencesStay s.ctl.blocks (f s.ctl).blocks) :
    Evolves ps s₀ (State.onCtl s f) := by
  unfold State.onCtl
  repeat' first
    | exact h1 | exact h2 | exact h3 | exact h4 | exact h5 | exact h6 | exact h7 | exact h8 | exact h9 | exact h10
    | exact h11 | exact h12 | exact h13 | exact h14 | exact hi | exact hn | exact hb
    | with_reducible first
        | exact hE
    | dsimp only
    | with_reducible first
        | apply Evolves.ctlSet

theorem state_onFix_evolves {f : Fix → Fix} {ps : List Part} {s₀ s : State} (hE : Evolves ps s₀ s)
    (h1 : Sub [.batches] ps ∨ ((f s.fix).opened, (f s.fix).closed, (f s.fix).sealed, (f s.fix).lastSeq, (f s.fix).prevHash, (f s.fix).closedTo, (f s.fix).periodQs, (f s.fix).nextQs, (f s.fix).nextFrom, (f s.fix).recomputing, (f s.fix).replayTo) =
      (s.fix.opened, s.fix.closed, s.fix.sealed, s.fix.lastSeq, s.fix.prevHash, s.fix.closedTo, s.fix.periodQs, s.fix.nextQs, s.fix.nextFrom, s.fix.recomputing, s.fix.replayTo))
    (h2 : Sub [.custody] ps ∨ ((f s.fix).custody, (f s.fix).custodyWait, (f s.fix).audited, (f s.fix).suspects) =
      (s.fix.custody, s.fix.custodyWait, s.fix.audited, s.fix.suspects))
    (h3 : Sub [.jobs] ps ∨ ((f s.fix).jobs, (f s.fix).received) = (s.fix.jobs, s.fix.received))
    (h4 : Sub [.storeWrites] ps ∨ (f s.fix).storeWait = s.fix.storeWait) :
    Evolves ps s₀ (State.onFix s f) := by
  unfold State.onFix
  repeat' first
    | exact h1 | exact h2 | exact h3 | exact h4
    | with_reducible first
        | exact hE
    | dsimp only
    | with_reducible first
        | apply Evolves.fixSet

theorem state_onLay_evolves {f : Lay → Lay} {ps : List Part} {s₀ s : State} (hE : Evolves ps s₀ s)
    (h1 : Sub [.mapping] ps ∨ ((f s.lay).geoms, (f s.lay).sets, (f s.lay).drives, (f s.lay).map, (f s.lay).extentNext) =
      (s.lay.geoms, s.lay.sets, s.lay.drives, s.lay.map, s.lay.extentNext))
    (h2 : Sub [.journal] ps ∨ ((f s.lay).jseqNext, (f s.lay).journal, (f s.lay).ckpt, (f s.lay).ringPos, (f s.lay).waitingJournal, (f s.lay).deferred, (f s.lay).replayEnded) =
      (s.lay.jseqNext, s.lay.journal, s.lay.ckpt, s.lay.ringPos, s.lay.waitingJournal, s.lay.deferred, s.lay.replayEnded))
    (h3 : Sub [.layoutWork] ps ∨ ((f s.lay).throttle, (f s.lay).full, (f s.lay).rebuild, (f s.lay).lanes, (f s.lay).laneQueue, (f s.lay).repairs, (f s.lay).scrubStart, (f s.lay).scrubSet, (f s.lay).scrubRows, (f s.lay).scrubRepairs) =
      (s.lay.throttle, s.lay.full, s.lay.rebuild, s.lay.lanes, s.lay.laneQueue, s.lay.repairs, s.lay.scrubStart, s.lay.scrubSet, s.lay.scrubRows, s.lay.scrubRepairs)) :
    Evolves ps s₀ (State.onLay s f) := by
  unfold State.onLay
  repeat' first
    | exact h1 | exact h2 | exact h3
    | with_reducible first
        | exact hE
    | dsimp only
    | with_reducible first
        | apply Evolves.laySet

theorem state_onTel_evolves {f : Tel → Tel} {ps : List Part} {s₀ s : State} (hE : Evolves ps s₀ s)
    (h1 : Sub [.counters] ps ∨ ((f s.tel).cnt, (f s.tel).cur, (f s.tel).curGts) =
      (s.tel.cnt, s.tel.cur, s.tel.curGts))
    (h2 : Sub [.snapshot] ps ∨ (f s.tel).snap = s.tel.snap)
    (h3 : Sub [.sampling] ps ∨ ((f s.tel).samplers, (f s.tel).samples, (f s.tel).sampleSnap, (f s.tel).dropGts, (f s.tel).dropInSecond, (f s.tel).dropReported) =
      (s.tel.samplers, s.tel.samples, s.tel.sampleSnap, s.tel.dropGts, s.tel.dropInSecond, s.tel.dropReported)) :
    Evolves ps s₀ (State.onTel s f) := by
  unfold State.onTel
  repeat' first
    | exact h1 | exact h2 | exact h3
    | with_reducible first
        | exact hE
    | dsimp only
    | with_reducible first
        | apply Evolves.telSet

theorem state_onXpt_evolves {f : Xpt → Xpt} {ps : List Part} {s₀ s : State} (hE : Evolves ps s₀ s)
    (h1 : Sub [.contexts] ps ∨ (f s.xpt).ctx = s.xpt.ctx)
    (h2 : Sub [.contextCache] ps ∨ ((f s.xpt).cache, (f s.xpt).victims, (f s.xpt).fills, (f s.xpt).misses, (f s.xpt).invCtrl) =
      (s.xpt.cache, s.xpt.victims, s.xpt.fills, s.xpt.misses, s.xpt.invCtrl))
    (h3 : Sub [.regions] ps ∨ (f s.xpt).regions = s.xpt.regions)
    (h4 : Sub [.chains] ps ∨ ((f s.xpt).triggers, (f s.xpt).pool, (f s.xpt).chains, (f s.xpt).waiting, (f s.xpt).migPeers) =
      (s.xpt.triggers, s.xpt.pool, s.xpt.chains, s.xpt.waiting, s.xpt.migPeers))
    (h5 : Sub [.hbm] ps ∨ (f s.xpt).hbm = s.xpt.hbm)
    (hc : s.xpt.hbm.wf = true → (f s.xpt).hbm.wf = true) :
    Evolves ps s₀ (State.onXpt s f) := by
  unfold State.onXpt
  repeat' first
    | exact h1 | exact h2 | exact h3 | exact h4 | exact h5 | exact hc
    | with_reducible first
        | exact hE
    | dsimp only
    | with_reducible first
        | apply Evolves.xptSet

theorem state_send_evolves {o : Output} {ps : List Part} {s₀ s : State} (hE : Evolves ps s₀ s)
    (hW : Sub [.out] ps) :
    Evolves ps s₀ (State.send s o) := by
  unfold State.send
  repeat' first
    | exact Sub.of hW rfl | exact List.prefix_append _ _
    | with_reducible first
        | exact hE
    | dsimp only
    | with_reducible first
        | apply Evolves.outSet

theorem state_setFld_evolves {f : Fld} {v : Nat} {ps : List Part} {s₀ s : State} (hE : Evolves ps s₀ s)
    (hW : Sub [.regs, regPart f.base] ps) :
    Evolves ps s₀ (State.setFld s f v) := by
  unfold State.setFld
  repeat' first
    | exact Sub.of hW rfl | exact hW
    | exact fun p hp => hW p (by simp only [List.mem_cons, List.not_mem_nil, or_false] at hp ⊢; tauto)
    | with_reducible first
        | exact hE | apply state_setFldI_evolves
    | dsimp only

theorem countBy_evolves {e : Nat} {src : Nat} {n : Nat} {ps : List Part} {s₀ s : State} (hE : Evolves ps s₀ s)
    (hW : Sub [.counters, .sampling] ps) :
    Evolves ps s₀ (countBy e src n s) := by
  unfold countBy
  repeat' first
    | exact Sub.of hW rfl | exact .inl (Sub.of hW rfl) | with_reducible exact .inr rfl
    | exact .inr (FencesStay.refl _) | exact .inr (by dsimp only) | exact .inr rfl
    | with_reducible exact (fun h => h : _ = true → _) | (dsimp only; exact (fun h => h : _ = true → _))
    | exact (fun h => h : _ = true → _)
    | with_reducible first
        | exact hE | refine Evolves.ite (fun _ => ?_) (fun _ => ?_)
    | dsimp only | split
    | with_reducible first
        | apply Evolves.telSet

theorem emit_evolves {src : Nat} {ev : Nat} {sev : Nat} {data : Nat} {ps : List Part} {s₀ s : State} (hE : Evolves ps s₀ s)
    (hW : Sub [.events, .counters, .sampling] ps) :
    Evolves ps s₀ (emit src ev sev data s) := by
  unfold emit State.onCtl
  exact Evolves.recordsSet _ (countBy_evolves hE (Sub.of hW rfl)) (Sub.of hW rfl)

theorem countOnly_evolves {src : Nat} {ev : Nat} {ps : List Part} {s₀ s : State} (hE : Evolves ps s₀ s)
    (hW : Sub [.counters, .sampling] ps) :
    Evolves ps s₀ (countOnly src ev s) := by
  unfold countOnly
  repeat' first
    | exact Sub.of hW rfl
    | with_reducible first
        | exact hE | apply countBy_evolves
    | dsimp only

theorem onBlock_evolves {b : Nat} {f : BlockState → BlockState} {ps : List Part} {s₀ s : State} (hE : Evolves ps s₀ s)
    (hb : ∀ x u, bitAt x.fenced u = true → bitAt (f x).fenced u = true)
    (hW : Sub [.fences] ps) :
    Evolves ps s₀ (onBlock b f s) := by
  exact state_onCtl_evolves hE rfl rfl (.inr rfl) (.inr rfl) (.inl (Sub.of hW rfl)) (.inr rfl) (.inr rfl) (.inr rfl)
    (.inr rfl) (.inr rfl) (.inr rfl) (.inr rfl) (.inr rfl) (.inr rfl) (.inr rfl) (.inr rfl) (.inr (FencesStay.upd hb))

theorem freeBytes_evolves {n : Nat} {ps : List Part} {s₀ s : State} (hE : Evolves ps s₀ s)
    (hW : Sub [.free] ps) :
    Evolves ps s₀ (freeBytes n s).2 := by
  unfold freeBytes
  repeat' first
    | exact Sub.of hW rfl | exact Nat.le_add_right _ _
    | with_reducible first
        | exact hE
    | dsimp only
    | with_reducible first
        | apply Evolves.freeSet

end Sys2Proof.Machine
end

