-- ==== Sys2Proof/Laws/State.lean ====
section
/-! SUPPORT. The fields of the state after each update of it: one lemma per field and update, each true by definition. -/

namespace Sys2Proof.Machine

variable (s : State)

/-! State.onCtl. -/
@[simp] theorem State.onCtl_ctl (f : Ctl → Ctl) : (s.onCtl f).ctl = f s.ctl := rfl
@[simp] theorem State.onCtl_tel (f : Ctl → Ctl) : (s.onCtl f).tel = s.tel := rfl
@[simp] theorem State.onCtl_boot (f : Ctl → Ctl) : (s.onCtl f).boot = s.boot := rfl
@[simp] theorem State.onCtl_cmd (f : Ctl → Ctl) : (s.onCtl f).cmd = s.cmd := rfl
@[simp] theorem State.onCtl_xpt (f : Ctl → Ctl) : (s.onCtl f).xpt = s.xpt := rfl
@[simp] theorem State.onCtl_lay (f : Ctl → Ctl) : (s.onCtl f).lay = s.lay := rfl
@[simp] theorem State.onCtl_cip (f : Ctl → Ctl) : (s.onCtl f).cip = s.cip := rfl
@[simp] theorem State.onCtl_tru (f : Ctl → Ctl) : (s.onCtl f).tru = s.tru := rfl
@[simp] theorem State.onCtl_fix (f : Ctl → Ctl) : (s.onCtl f).fix = s.fix := rfl
@[simp] theorem State.onCtl_drv (f : Ctl → Ctl) : (s.onCtl f).drv = s.drv := rfl
@[simp] theorem State.onCtl_net (f : Ctl → Ctl) : (s.onCtl f).net = s.net := rfl
@[simp] theorem State.onCtl_hep (f : Ctl → Ctl) : (s.onCtl f).hep = s.hep := rfl
@[simp] theorem State.onCtl_red (f : Ctl → Ctl) : (s.onCtl f).red = s.red := rfl
@[simp] theorem State.onCtl_pwr (f : Ctl → Ctl) : (s.onCtl f).pwr = s.pwr := rfl
@[simp] theorem State.onCtl_regs (f : Ctl → Ctl) : (s.onCtl f).regs = s.regs := rfl
@[simp] theorem State.onCtl_out (f : Ctl → Ctl) : (s.onCtl f).out = s.out := rfl
@[simp] theorem State.onCtl_free (f : Ctl → Ctl) : (s.onCtl f).free = s.free := rfl
@[simp] theorem State.onCtl_waiting (f : Ctl → Ctl) : (s.onCtl f).waiting = s.waiting := rfl
@[simp] theorem State.onCtl_pending (f : Ctl → Ctl) : (s.onCtl f).pending = s.pending := rfl

/-! State.onTel. -/
@[simp] theorem State.onTel_ctl (f : Tel → Tel) : (s.onTel f).ctl = s.ctl := rfl
@[simp] theorem State.onTel_tel (f : Tel → Tel) : (s.onTel f).tel = f s.tel := rfl
@[simp] theorem State.onTel_boot (f : Tel → Tel) : (s.onTel f).boot = s.boot := rfl
@[simp] theorem State.onTel_cmd (f : Tel → Tel) : (s.onTel f).cmd = s.cmd := rfl
@[simp] theorem State.onTel_xpt (f : Tel → Tel) : (s.onTel f).xpt = s.xpt := rfl
@[simp] theorem State.onTel_lay (f : Tel → Tel) : (s.onTel f).lay = s.lay := rfl
@[simp] theorem State.onTel_cip (f : Tel → Tel) : (s.onTel f).cip = s.cip := rfl
@[simp] theorem State.onTel_tru (f : Tel → Tel) : (s.onTel f).tru = s.tru := rfl
@[simp] theorem State.onTel_fix (f : Tel → Tel) : (s.onTel f).fix = s.fix := rfl
@[simp] theorem State.onTel_drv (f : Tel → Tel) : (s.onTel f).drv = s.drv := rfl
@[simp] theorem State.onTel_net (f : Tel → Tel) : (s.onTel f).net = s.net := rfl
@[simp] theorem State.onTel_hep (f : Tel → Tel) : (s.onTel f).hep = s.hep := rfl
@[simp] theorem State.onTel_red (f : Tel → Tel) : (s.onTel f).red = s.red := rfl
@[simp] theorem State.onTel_pwr (f : Tel → Tel) : (s.onTel f).pwr = s.pwr := rfl
@[simp] theorem State.onTel_regs (f : Tel → Tel) : (s.onTel f).regs = s.regs := rfl
@[simp] theorem State.onTel_out (f : Tel → Tel) : (s.onTel f).out = s.out := rfl
@[simp] theorem State.onTel_free (f : Tel → Tel) : (s.onTel f).free = s.free := rfl
@[simp] theorem State.onTel_waiting (f : Tel → Tel) : (s.onTel f).waiting = s.waiting := rfl
@[simp] theorem State.onTel_pending (f : Tel → Tel) : (s.onTel f).pending = s.pending := rfl

/-! State.onBoot. -/
@[simp] theorem State.onBoot_ctl (f : Boot → Boot) : (s.onBoot f).ctl = s.ctl := rfl
@[simp] theorem State.onBoot_tel (f : Boot → Boot) : (s.onBoot f).tel = s.tel := rfl
@[simp] theorem State.onBoot_boot (f : Boot → Boot) : (s.onBoot f).boot = f s.boot := rfl
@[simp] theorem State.onBoot_cmd (f : Boot → Boot) : (s.onBoot f).cmd = s.cmd := rfl
@[simp] theorem State.onBoot_xpt (f : Boot → Boot) : (s.onBoot f).xpt = s.xpt := rfl
@[simp] theorem State.onBoot_lay (f : Boot → Boot) : (s.onBoot f).lay = s.lay := rfl
@[simp] theorem State.onBoot_cip (f : Boot → Boot) : (s.onBoot f).cip = s.cip := rfl
@[simp] theorem State.onBoot_tru (f : Boot → Boot) : (s.onBoot f).tru = s.tru := rfl
@[simp] theorem State.onBoot_fix (f : Boot → Boot) : (s.onBoot f).fix = s.fix := rfl
@[simp] theorem State.onBoot_drv (f : Boot → Boot) : (s.onBoot f).drv = s.drv := rfl
@[simp] theorem State.onBoot_net (f : Boot → Boot) : (s.onBoot f).net = s.net := rfl
@[simp] theorem State.onBoot_hep (f : Boot → Boot) : (s.onBoot f).hep = s.hep := rfl
@[simp] theorem State.onBoot_red (f : Boot → Boot) : (s.onBoot f).red = s.red := rfl
@[simp] theorem State.onBoot_pwr (f : Boot → Boot) : (s.onBoot f).pwr = s.pwr := rfl
@[simp] theorem State.onBoot_regs (f : Boot → Boot) : (s.onBoot f).regs = s.regs := rfl
@[simp] theorem State.onBoot_out (f : Boot → Boot) : (s.onBoot f).out = s.out := rfl
@[simp] theorem State.onBoot_free (f : Boot → Boot) : (s.onBoot f).free = s.free := rfl
@[simp] theorem State.onBoot_waiting (f : Boot → Boot) : (s.onBoot f).waiting = s.waiting := rfl
@[simp] theorem State.onBoot_pending (f : Boot → Boot) : (s.onBoot f).pending = s.pending := rfl

/-! State.onCmd. -/
@[simp] theorem State.onCmd_ctl (f : Cmd → Cmd) : (s.onCmd f).ctl = s.ctl := rfl
@[simp] theorem State.onCmd_tel (f : Cmd → Cmd) : (s.onCmd f).tel = s.tel := rfl
@[simp] theorem State.onCmd_boot (f : Cmd → Cmd) : (s.onCmd f).boot = s.boot := rfl
@[simp] theorem State.onCmd_cmd (f : Cmd → Cmd) : (s.onCmd f).cmd = f s.cmd := rfl
@[simp] theorem State.onCmd_xpt (f : Cmd → Cmd) : (s.onCmd f).xpt = s.xpt := rfl
@[simp] theorem State.onCmd_lay (f : Cmd → Cmd) : (s.onCmd f).lay = s.lay := rfl
@[simp] theorem State.onCmd_cip (f : Cmd → Cmd) : (s.onCmd f).cip = s.cip := rfl
@[simp] theorem State.onCmd_tru (f : Cmd → Cmd) : (s.onCmd f).tru = s.tru := rfl
@[simp] theorem State.onCmd_fix (f : Cmd → Cmd) : (s.onCmd f).fix = s.fix := rfl
@[simp] theorem State.onCmd_drv (f : Cmd → Cmd) : (s.onCmd f).drv = s.drv := rfl
@[simp] theorem State.onCmd_net (f : Cmd → Cmd) : (s.onCmd f).net = s.net := rfl
@[simp] theorem State.onCmd_hep (f : Cmd → Cmd) : (s.onCmd f).hep = s.hep := rfl
@[simp] theorem State.onCmd_red (f : Cmd → Cmd) : (s.onCmd f).red = s.red := rfl
@[simp] theorem State.onCmd_pwr (f : Cmd → Cmd) : (s.onCmd f).pwr = s.pwr := rfl
@[simp] theorem State.onCmd_regs (f : Cmd → Cmd) : (s.onCmd f).regs = s.regs := rfl
@[simp] theorem State.onCmd_out (f : Cmd → Cmd) : (s.onCmd f).out = s.out := rfl
@[simp] theorem State.onCmd_free (f : Cmd → Cmd) : (s.onCmd f).free = s.free := rfl
@[simp] theorem State.onCmd_waiting (f : Cmd → Cmd) : (s.onCmd f).waiting = s.waiting := rfl
@[simp] theorem State.onCmd_pending (f : Cmd → Cmd) : (s.onCmd f).pending = s.pending := rfl

/-! State.onXpt. -/
@[simp] theorem State.onXpt_ctl (f : Xpt → Xpt) : (s.onXpt f).ctl = s.ctl := rfl
@[simp] theorem State.onXpt_tel (f : Xpt → Xpt) : (s.onXpt f).tel = s.tel := rfl
@[simp] theorem State.onXpt_boot (f : Xpt → Xpt) : (s.onXpt f).boot = s.boot := rfl
@[simp] theorem State.onXpt_cmd (f : Xpt → Xpt) : (s.onXpt f).cmd = s.cmd := rfl
@[simp] theorem State.onXpt_xpt (f : Xpt → Xpt) : (s.onXpt f).xpt = f s.xpt := rfl
@[simp] theorem State.onXpt_lay (f : Xpt → Xpt) : (s.onXpt f).lay = s.lay := rfl
@[simp] theorem State.onXpt_cip (f : Xpt → Xpt) : (s.onXpt f).cip = s.cip := rfl
@[simp] theorem State.onXpt_tru (f : Xpt → Xpt) : (s.onXpt f).tru = s.tru := rfl
@[simp] theorem State.onXpt_fix (f : Xpt → Xpt) : (s.onXpt f).fix = s.fix := rfl
@[simp] theorem State.onXpt_drv (f : Xpt → Xpt) : (s.onXpt f).drv = s.drv := rfl
@[simp] theorem State.onXpt_net (f : Xpt → Xpt) : (s.onXpt f).net = s.net := rfl
@[simp] theorem State.onXpt_hep (f : Xpt → Xpt) : (s.onXpt f).hep = s.hep := rfl
@[simp] theorem State.onXpt_red (f : Xpt → Xpt) : (s.onXpt f).red = s.red := rfl
@[simp] theorem State.onXpt_pwr (f : Xpt → Xpt) : (s.onXpt f).pwr = s.pwr := rfl
@[simp] theorem State.onXpt_regs (f : Xpt → Xpt) : (s.onXpt f).regs = s.regs := rfl
@[simp] theorem State.onXpt_out (f : Xpt → Xpt) : (s.onXpt f).out = s.out := rfl
@[simp] theorem State.onXpt_free (f : Xpt → Xpt) : (s.onXpt f).free = s.free := rfl
@[simp] theorem State.onXpt_waiting (f : Xpt → Xpt) : (s.onXpt f).waiting = s.waiting := rfl
@[simp] theorem State.onXpt_pending (f : Xpt → Xpt) : (s.onXpt f).pending = s.pending := rfl

/-! State.onLay. -/
@[simp] theorem State.onLay_ctl (f : Lay → Lay) : (s.onLay f).ctl = s.ctl := rfl
@[simp] theorem State.onLay_tel (f : Lay → Lay) : (s.onLay f).tel = s.tel := rfl
@[simp] theorem State.onLay_boot (f : Lay → Lay) : (s.onLay f).boot = s.boot := rfl
@[simp] theorem State.onLay_cmd (f : Lay → Lay) : (s.onLay f).cmd = s.cmd := rfl
@[simp] theorem State.onLay_xpt (f : Lay → Lay) : (s.onLay f).xpt = s.xpt := rfl
@[simp] theorem State.onLay_lay (f : Lay → Lay) : (s.onLay f).lay = f s.lay := rfl
@[simp] theorem State.onLay_cip (f : Lay → Lay) : (s.onLay f).cip = s.cip := rfl
@[simp] theorem State.onLay_tru (f : Lay → Lay) : (s.onLay f).tru = s.tru := rfl
@[simp] theorem State.onLay_fix (f : Lay → Lay) : (s.onLay f).fix = s.fix := rfl
@[simp] theorem State.onLay_drv (f : Lay → Lay) : (s.onLay f).drv = s.drv := rfl
@[simp] theorem State.onLay_net (f : Lay → Lay) : (s.onLay f).net = s.net := rfl
@[simp] theorem State.onLay_hep (f : Lay → Lay) : (s.onLay f).hep = s.hep := rfl
@[simp] theorem State.onLay_red (f : Lay → Lay) : (s.onLay f).red = s.red := rfl
@[simp] theorem State.onLay_pwr (f : Lay → Lay) : (s.onLay f).pwr = s.pwr := rfl
@[simp] theorem State.onLay_regs (f : Lay → Lay) : (s.onLay f).regs = s.regs := rfl
@[simp] theorem State.onLay_out (f : Lay → Lay) : (s.onLay f).out = s.out := rfl
@[simp] theorem State.onLay_free (f : Lay → Lay) : (s.onLay f).free = s.free := rfl
@[simp] theorem State.onLay_waiting (f : Lay → Lay) : (s.onLay f).waiting = s.waiting := rfl
@[simp] theorem State.onLay_pending (f : Lay → Lay) : (s.onLay f).pending = s.pending := rfl

/-! State.onCip. -/
@[simp] theorem State.onCip_ctl (f : Cip → Cip) : (s.onCip f).ctl = s.ctl := rfl
@[simp] theorem State.onCip_tel (f : Cip → Cip) : (s.onCip f).tel = s.tel := rfl
@[simp] theorem State.onCip_boot (f : Cip → Cip) : (s.onCip f).boot = s.boot := rfl
@[simp] theorem State.onCip_cmd (f : Cip → Cip) : (s.onCip f).cmd = s.cmd := rfl
@[simp] theorem State.onCip_xpt (f : Cip → Cip) : (s.onCip f).xpt = s.xpt := rfl
@[simp] theorem State.onCip_lay (f : Cip → Cip) : (s.onCip f).lay = s.lay := rfl
@[simp] theorem State.onCip_cip (f : Cip → Cip) : (s.onCip f).cip = f s.cip := rfl
@[simp] theorem State.onCip_tru (f : Cip → Cip) : (s.onCip f).tru = s.tru := rfl
@[simp] theorem State.onCip_fix (f : Cip → Cip) : (s.onCip f).fix = s.fix := rfl
@[simp] theorem State.onCip_drv (f : Cip → Cip) : (s.onCip f).drv = s.drv := rfl
@[simp] theorem State.onCip_net (f : Cip → Cip) : (s.onCip f).net = s.net := rfl
@[simp] theorem State.onCip_hep (f : Cip → Cip) : (s.onCip f).hep = s.hep := rfl
@[simp] theorem State.onCip_red (f : Cip → Cip) : (s.onCip f).red = s.red := rfl
@[simp] theorem State.onCip_pwr (f : Cip → Cip) : (s.onCip f).pwr = s.pwr := rfl
@[simp] theorem State.onCip_regs (f : Cip → Cip) : (s.onCip f).regs = s.regs := rfl
@[simp] theorem State.onCip_out (f : Cip → Cip) : (s.onCip f).out = s.out := rfl
@[simp] theorem State.onCip_free (f : Cip → Cip) : (s.onCip f).free = s.free := rfl
@[simp] theorem State.onCip_waiting (f : Cip → Cip) : (s.onCip f).waiting = s.waiting := rfl
@[simp] theorem State.onCip_pending (f : Cip → Cip) : (s.onCip f).pending = s.pending := rfl

/-! State.onTru. -/
@[simp] theorem State.onTru_ctl (f : Tru → Tru) : (s.onTru f).ctl = s.ctl := rfl
@[simp] theorem State.onTru_tel (f : Tru → Tru) : (s.onTru f).tel = s.tel := rfl
@[simp] theorem State.onTru_boot (f : Tru → Tru) : (s.onTru f).boot = s.boot := rfl
@[simp] theorem State.onTru_cmd (f : Tru → Tru) : (s.onTru f).cmd = s.cmd := rfl
@[simp] theorem State.onTru_xpt (f : Tru → Tru) : (s.onTru f).xpt = s.xpt := rfl
@[simp] theorem State.onTru_lay (f : Tru → Tru) : (s.onTru f).lay = s.lay := rfl
@[simp] theorem State.onTru_cip (f : Tru → Tru) : (s.onTru f).cip = s.cip := rfl
@[simp] theorem State.onTru_tru (f : Tru → Tru) : (s.onTru f).tru = f s.tru := rfl
@[simp] theorem State.onTru_fix (f : Tru → Tru) : (s.onTru f).fix = s.fix := rfl
@[simp] theorem State.onTru_drv (f : Tru → Tru) : (s.onTru f).drv = s.drv := rfl
@[simp] theorem State.onTru_net (f : Tru → Tru) : (s.onTru f).net = s.net := rfl
@[simp] theorem State.onTru_hep (f : Tru → Tru) : (s.onTru f).hep = s.hep := rfl
@[simp] theorem State.onTru_red (f : Tru → Tru) : (s.onTru f).red = s.red := rfl
@[simp] theorem State.onTru_pwr (f : Tru → Tru) : (s.onTru f).pwr = s.pwr := rfl
@[simp] theorem State.onTru_regs (f : Tru → Tru) : (s.onTru f).regs = s.regs := rfl
@[simp] theorem State.onTru_out (f : Tru → Tru) : (s.onTru f).out = s.out := rfl
@[simp] theorem State.onTru_free (f : Tru → Tru) : (s.onTru f).free = s.free := rfl
@[simp] theorem State.onTru_waiting (f : Tru → Tru) : (s.onTru f).waiting = s.waiting := rfl
@[simp] theorem State.onTru_pending (f : Tru → Tru) : (s.onTru f).pending = s.pending := rfl

/-! State.onFix. -/
@[simp] theorem State.onFix_ctl (f : Fix → Fix) : (s.onFix f).ctl = s.ctl := rfl
@[simp] theorem State.onFix_tel (f : Fix → Fix) : (s.onFix f).tel = s.tel := rfl
@[simp] theorem State.onFix_boot (f : Fix → Fix) : (s.onFix f).boot = s.boot := rfl
@[simp] theorem State.onFix_cmd (f : Fix → Fix) : (s.onFix f).cmd = s.cmd := rfl
@[simp] theorem State.onFix_xpt (f : Fix → Fix) : (s.onFix f).xpt = s.xpt := rfl
@[simp] theorem State.onFix_lay (f : Fix → Fix) : (s.onFix f).lay = s.lay := rfl
@[simp] theorem State.onFix_cip (f : Fix → Fix) : (s.onFix f).cip = s.cip := rfl
@[simp] theorem State.onFix_tru (f : Fix → Fix) : (s.onFix f).tru = s.tru := rfl
@[simp] theorem State.onFix_fix (f : Fix → Fix) : (s.onFix f).fix = f s.fix := rfl
@[simp] theorem State.onFix_drv (f : Fix → Fix) : (s.onFix f).drv = s.drv := rfl
@[simp] theorem State.onFix_net (f : Fix → Fix) : (s.onFix f).net = s.net := rfl
@[simp] theorem State.onFix_hep (f : Fix → Fix) : (s.onFix f).hep = s.hep := rfl
@[simp] theorem State.onFix_red (f : Fix → Fix) : (s.onFix f).red = s.red := rfl
@[simp] theorem State.onFix_pwr (f : Fix → Fix) : (s.onFix f).pwr = s.pwr := rfl
@[simp] theorem State.onFix_regs (f : Fix → Fix) : (s.onFix f).regs = s.regs := rfl
@[simp] theorem State.onFix_out (f : Fix → Fix) : (s.onFix f).out = s.out := rfl
@[simp] theorem State.onFix_free (f : Fix → Fix) : (s.onFix f).free = s.free := rfl
@[simp] theorem State.onFix_waiting (f : Fix → Fix) : (s.onFix f).waiting = s.waiting := rfl
@[simp] theorem State.onFix_pending (f : Fix → Fix) : (s.onFix f).pending = s.pending := rfl

/-! State.onDrv. -/
@[simp] theorem State.onDrv_ctl (f : Drv → Drv) : (s.onDrv f).ctl = s.ctl := rfl
@[simp] theorem State.onDrv_tel (f : Drv → Drv) : (s.onDrv f).tel = s.tel := rfl
@[simp] theorem State.onDrv_boot (f : Drv → Drv) : (s.onDrv f).boot = s.boot := rfl
@[simp] theorem State.onDrv_cmd (f : Drv → Drv) : (s.onDrv f).cmd = s.cmd := rfl
@[simp] theorem State.onDrv_xpt (f : Drv → Drv) : (s.onDrv f).xpt = s.xpt := rfl
@[simp] theorem State.onDrv_lay (f : Drv → Drv) : (s.onDrv f).lay = s.lay := rfl
@[simp] theorem State.onDrv_cip (f : Drv → Drv) : (s.onDrv f).cip = s.cip := rfl
@[simp] theorem State.onDrv_tru (f : Drv → Drv) : (s.onDrv f).tru = s.tru := rfl
@[simp] theorem State.onDrv_fix (f : Drv → Drv) : (s.onDrv f).fix = s.fix := rfl
@[simp] theorem State.onDrv_drv (f : Drv → Drv) : (s.onDrv f).drv = f s.drv := rfl
@[simp] theorem State.onDrv_net (f : Drv → Drv) : (s.onDrv f).net = s.net := rfl
@[simp] theorem State.onDrv_hep (f : Drv → Drv) : (s.onDrv f).hep = s.hep := rfl
@[simp] theorem State.onDrv_red (f : Drv → Drv) : (s.onDrv f).red = s.red := rfl
@[simp] theorem State.onDrv_pwr (f : Drv → Drv) : (s.onDrv f).pwr = s.pwr := rfl
@[simp] theorem State.onDrv_regs (f : Drv → Drv) : (s.onDrv f).regs = s.regs := rfl
@[simp] theorem State.onDrv_out (f : Drv → Drv) : (s.onDrv f).out = s.out := rfl
@[simp] theorem State.onDrv_free (f : Drv → Drv) : (s.onDrv f).free = s.free := rfl
@[simp] theorem State.onDrv_waiting (f : Drv → Drv) : (s.onDrv f).waiting = s.waiting := rfl
@[simp] theorem State.onDrv_pending (f : Drv → Drv) : (s.onDrv f).pending = s.pending := rfl

/-! State.onNet. -/
@[simp] theorem State.onNet_ctl (f : Net → Net) : (s.onNet f).ctl = s.ctl := rfl
@[simp] theorem State.onNet_tel (f : Net → Net) : (s.onNet f).tel = s.tel := rfl
@[simp] theorem State.onNet_boot (f : Net → Net) : (s.onNet f).boot = s.boot := rfl
@[simp] theorem State.onNet_cmd (f : Net → Net) : (s.onNet f).cmd = s.cmd := rfl
@[simp] theorem State.onNet_xpt (f : Net → Net) : (s.onNet f).xpt = s.xpt := rfl
@[simp] theorem State.onNet_lay (f : Net → Net) : (s.onNet f).lay = s.lay := rfl
@[simp] theorem State.onNet_cip (f : Net → Net) : (s.onNet f).cip = s.cip := rfl
@[simp] theorem State.onNet_tru (f : Net → Net) : (s.onNet f).tru = s.tru := rfl
@[simp] theorem State.onNet_fix (f : Net → Net) : (s.onNet f).fix = s.fix := rfl
@[simp] theorem State.onNet_drv (f : Net → Net) : (s.onNet f).drv = s.drv := rfl
@[simp] theorem State.onNet_net (f : Net → Net) : (s.onNet f).net = f s.net := rfl
@[simp] theorem State.onNet_hep (f : Net → Net) : (s.onNet f).hep = s.hep := rfl
@[simp] theorem State.onNet_red (f : Net → Net) : (s.onNet f).red = s.red := rfl
@[simp] theorem State.onNet_pwr (f : Net → Net) : (s.onNet f).pwr = s.pwr := rfl
@[simp] theorem State.onNet_regs (f : Net → Net) : (s.onNet f).regs = s.regs := rfl
@[simp] theorem State.onNet_out (f : Net → Net) : (s.onNet f).out = s.out := rfl
@[simp] theorem State.onNet_free (f : Net → Net) : (s.onNet f).free = s.free := rfl
@[simp] theorem State.onNet_waiting (f : Net → Net) : (s.onNet f).waiting = s.waiting := rfl
@[simp] theorem State.onNet_pending (f : Net → Net) : (s.onNet f).pending = s.pending := rfl

/-! State.onHep. -/
@[simp] theorem State.onHep_ctl (f : Hep → Hep) : (s.onHep f).ctl = s.ctl := rfl
@[simp] theorem State.onHep_tel (f : Hep → Hep) : (s.onHep f).tel = s.tel := rfl
@[simp] theorem State.onHep_boot (f : Hep → Hep) : (s.onHep f).boot = s.boot := rfl
@[simp] theorem State.onHep_cmd (f : Hep → Hep) : (s.onHep f).cmd = s.cmd := rfl
@[simp] theorem State.onHep_xpt (f : Hep → Hep) : (s.onHep f).xpt = s.xpt := rfl
@[simp] theorem State.onHep_lay (f : Hep → Hep) : (s.onHep f).lay = s.lay := rfl
@[simp] theorem State.onHep_cip (f : Hep → Hep) : (s.onHep f).cip = s.cip := rfl
@[simp] theorem State.onHep_tru (f : Hep → Hep) : (s.onHep f).tru = s.tru := rfl
@[simp] theorem State.onHep_fix (f : Hep → Hep) : (s.onHep f).fix = s.fix := rfl
@[simp] theorem State.onHep_drv (f : Hep → Hep) : (s.onHep f).drv = s.drv := rfl
@[simp] theorem State.onHep_net (f : Hep → Hep) : (s.onHep f).net = s.net := rfl
@[simp] theorem State.onHep_hep (f : Hep → Hep) : (s.onHep f).hep = f s.hep := rfl
@[simp] theorem State.onHep_red (f : Hep → Hep) : (s.onHep f).red = s.red := rfl
@[simp] theorem State.onHep_pwr (f : Hep → Hep) : (s.onHep f).pwr = s.pwr := rfl
@[simp] theorem State.onHep_regs (f : Hep → Hep) : (s.onHep f).regs = s.regs := rfl
@[simp] theorem State.onHep_out (f : Hep → Hep) : (s.onHep f).out = s.out := rfl
@[simp] theorem State.onHep_free (f : Hep → Hep) : (s.onHep f).free = s.free := rfl
@[simp] theorem State.onHep_waiting (f : Hep → Hep) : (s.onHep f).waiting = s.waiting := rfl
@[simp] theorem State.onHep_pending (f : Hep → Hep) : (s.onHep f).pending = s.pending := rfl

/-! State.onRed. -/
@[simp] theorem State.onRed_ctl (f : Red → Red) : (s.onRed f).ctl = s.ctl := rfl
@[simp] theorem State.onRed_tel (f : Red → Red) : (s.onRed f).tel = s.tel := rfl
@[simp] theorem State.onRed_boot (f : Red → Red) : (s.onRed f).boot = s.boot := rfl
@[simp] theorem State.onRed_cmd (f : Red → Red) : (s.onRed f).cmd = s.cmd := rfl
@[simp] theorem State.onRed_xpt (f : Red → Red) : (s.onRed f).xpt = s.xpt := rfl
@[simp] theorem State.onRed_lay (f : Red → Red) : (s.onRed f).lay = s.lay := rfl
@[simp] theorem State.onRed_cip (f : Red → Red) : (s.onRed f).cip = s.cip := rfl
@[simp] theorem State.onRed_tru (f : Red → Red) : (s.onRed f).tru = s.tru := rfl
@[simp] theorem State.onRed_fix (f : Red → Red) : (s.onRed f).fix = s.fix := rfl
@[simp] theorem State.onRed_drv (f : Red → Red) : (s.onRed f).drv = s.drv := rfl
@[simp] theorem State.onRed_net (f : Red → Red) : (s.onRed f).net = s.net := rfl
@[simp] theorem State.onRed_hep (f : Red → Red) : (s.onRed f).hep = s.hep := rfl
@[simp] theorem State.onRed_red (f : Red → Red) : (s.onRed f).red = f s.red := rfl
@[simp] theorem State.onRed_pwr (f : Red → Red) : (s.onRed f).pwr = s.pwr := rfl
@[simp] theorem State.onRed_regs (f : Red → Red) : (s.onRed f).regs = s.regs := rfl
@[simp] theorem State.onRed_out (f : Red → Red) : (s.onRed f).out = s.out := rfl
@[simp] theorem State.onRed_free (f : Red → Red) : (s.onRed f).free = s.free := rfl
@[simp] theorem State.onRed_waiting (f : Red → Red) : (s.onRed f).waiting = s.waiting := rfl
@[simp] theorem State.onRed_pending (f : Red → Red) : (s.onRed f).pending = s.pending := rfl

/-! State.onPwr. -/
@[simp] theorem State.onPwr_ctl (f : Pwr → Pwr) : (s.onPwr f).ctl = s.ctl := rfl
@[simp] theorem State.onPwr_tel (f : Pwr → Pwr) : (s.onPwr f).tel = s.tel := rfl
@[simp] theorem State.onPwr_boot (f : Pwr → Pwr) : (s.onPwr f).boot = s.boot := rfl
@[simp] theorem State.onPwr_cmd (f : Pwr → Pwr) : (s.onPwr f).cmd = s.cmd := rfl
@[simp] theorem State.onPwr_xpt (f : Pwr → Pwr) : (s.onPwr f).xpt = s.xpt := rfl
@[simp] theorem State.onPwr_lay (f : Pwr → Pwr) : (s.onPwr f).lay = s.lay := rfl
@[simp] theorem State.onPwr_cip (f : Pwr → Pwr) : (s.onPwr f).cip = s.cip := rfl
@[simp] theorem State.onPwr_tru (f : Pwr → Pwr) : (s.onPwr f).tru = s.tru := rfl
@[simp] theorem State.onPwr_fix (f : Pwr → Pwr) : (s.onPwr f).fix = s.fix := rfl
@[simp] theorem State.onPwr_drv (f : Pwr → Pwr) : (s.onPwr f).drv = s.drv := rfl
@[simp] theorem State.onPwr_net (f : Pwr → Pwr) : (s.onPwr f).net = s.net := rfl
@[simp] theorem State.onPwr_hep (f : Pwr → Pwr) : (s.onPwr f).hep = s.hep := rfl
@[simp] theorem State.onPwr_red (f : Pwr → Pwr) : (s.onPwr f).red = s.red := rfl
@[simp] theorem State.onPwr_pwr (f : Pwr → Pwr) : (s.onPwr f).pwr = f s.pwr := rfl
@[simp] theorem State.onPwr_regs (f : Pwr → Pwr) : (s.onPwr f).regs = s.regs := rfl
@[simp] theorem State.onPwr_out (f : Pwr → Pwr) : (s.onPwr f).out = s.out := rfl
@[simp] theorem State.onPwr_free (f : Pwr → Pwr) : (s.onPwr f).free = s.free := rfl
@[simp] theorem State.onPwr_waiting (f : Pwr → Pwr) : (s.onPwr f).waiting = s.waiting := rfl
@[simp] theorem State.onPwr_pending (f : Pwr → Pwr) : (s.onPwr f).pending = s.pending := rfl

/-! State.send. -/
@[simp] theorem State.send_ctl (o : Output) : (s.send o).ctl = s.ctl := rfl
@[simp] theorem State.send_tel (o : Output) : (s.send o).tel = s.tel := rfl
@[simp] theorem State.send_boot (o : Output) : (s.send o).boot = s.boot := rfl
@[simp] theorem State.send_cmd (o : Output) : (s.send o).cmd = s.cmd := rfl
@[simp] theorem State.send_xpt (o : Output) : (s.send o).xpt = s.xpt := rfl
@[simp] theorem State.send_lay (o : Output) : (s.send o).lay = s.lay := rfl
@[simp] theorem State.send_cip (o : Output) : (s.send o).cip = s.cip := rfl
@[simp] theorem State.send_tru (o : Output) : (s.send o).tru = s.tru := rfl
@[simp] theorem State.send_fix (o : Output) : (s.send o).fix = s.fix := rfl
@[simp] theorem State.send_drv (o : Output) : (s.send o).drv = s.drv := rfl
@[simp] theorem State.send_net (o : Output) : (s.send o).net = s.net := rfl
@[simp] theorem State.send_hep (o : Output) : (s.send o).hep = s.hep := rfl
@[simp] theorem State.send_red (o : Output) : (s.send o).red = s.red := rfl
@[simp] theorem State.send_pwr (o : Output) : (s.send o).pwr = s.pwr := rfl
@[simp] theorem State.send_regs (o : Output) : (s.send o).regs = s.regs := rfl
@[simp] theorem State.send_out (o : Output) : (s.send o).out = s.out ++ [o] := rfl
@[simp] theorem State.send_free (o : Output) : (s.send o).free = s.free := rfl
@[simp] theorem State.send_waiting (o : Output) : (s.send o).waiting = s.waiting := rfl
@[simp] theorem State.send_pending (o : Output) : (s.send o).pending = s.pending := rfl

/-! State.drawn. -/
@[simp] theorem State.drawn_ctl : (s.drawn).ctl = s.ctl := rfl
@[simp] theorem State.drawn_tel : (s.drawn).tel = s.tel := rfl
@[simp] theorem State.drawn_boot : (s.drawn).boot = s.boot := rfl
@[simp] theorem State.drawn_cmd : (s.drawn).cmd = s.cmd := rfl
@[simp] theorem State.drawn_xpt : (s.drawn).xpt = s.xpt := rfl
@[simp] theorem State.drawn_lay : (s.drawn).lay = s.lay := rfl
@[simp] theorem State.drawn_cip : (s.drawn).cip = s.cip := rfl
@[simp] theorem State.drawn_tru : (s.drawn).tru = s.tru := rfl
@[simp] theorem State.drawn_fix : (s.drawn).fix = s.fix := rfl
@[simp] theorem State.drawn_drv : (s.drawn).drv = s.drv := rfl
@[simp] theorem State.drawn_net : (s.drawn).net = s.net := rfl
@[simp] theorem State.drawn_hep : (s.drawn).hep = s.hep := rfl
@[simp] theorem State.drawn_red : (s.drawn).red = s.red := rfl
@[simp] theorem State.drawn_pwr : (s.drawn).pwr = s.pwr := rfl
@[simp] theorem State.drawn_regs : (s.drawn).regs = s.regs := rfl
@[simp] theorem State.drawn_out : (s.drawn).out = s.out := rfl
@[simp] theorem State.drawn_free : (s.drawn).free = s.free + 1 := rfl
@[simp] theorem State.drawn_waiting : (s.drawn).waiting = s.waiting := rfl
@[simp] theorem State.drawn_pending : (s.drawn).pending = s.pending := rfl

/-! State.setFldI. -/
@[simp] theorem State.setFldI_ctl (f : Fld) (i v : Nat) : (s.setFldI f i v).ctl = s.ctl := rfl
@[simp] theorem State.setFldI_tel (f : Fld) (i v : Nat) : (s.setFldI f i v).tel = s.tel := rfl
@[simp] theorem State.setFldI_boot (f : Fld) (i v : Nat) : (s.setFldI f i v).boot = s.boot := rfl
@[simp] theorem State.setFldI_cmd (f : Fld) (i v : Nat) : (s.setFldI f i v).cmd = s.cmd := rfl
@[simp] theorem State.setFldI_xpt (f : Fld) (i v : Nat) : (s.setFldI f i v).xpt = s.xpt := rfl
@[simp] theorem State.setFldI_lay (f : Fld) (i v : Nat) : (s.setFldI f i v).lay = s.lay := rfl
@[simp] theorem State.setFldI_cip (f : Fld) (i v : Nat) : (s.setFldI f i v).cip = s.cip := rfl
@[simp] theorem State.setFldI_tru (f : Fld) (i v : Nat) : (s.setFldI f i v).tru = s.tru := rfl
@[simp] theorem State.setFldI_fix (f : Fld) (i v : Nat) : (s.setFldI f i v).fix = s.fix := rfl
@[simp] theorem State.setFldI_drv (f : Fld) (i v : Nat) : (s.setFldI f i v).drv = s.drv := rfl
@[simp] theorem State.setFldI_net (f : Fld) (i v : Nat) : (s.setFldI f i v).net = s.net := rfl
@[simp] theorem State.setFldI_hep (f : Fld) (i v : Nat) : (s.setFldI f i v).hep = s.hep := rfl
@[simp] theorem State.setFldI_red (f : Fld) (i v : Nat) : (s.setFldI f i v).red = s.red := rfl
@[simp] theorem State.setFldI_pwr (f : Fld) (i v : Nat) : (s.setFldI f i v).pwr = s.pwr := rfl
@[simp] theorem State.setFldI_regs (f : Fld) (i v : Nat) : (s.setFldI f i v).regs = fldSet s.regs f i v := rfl
@[simp] theorem State.setFldI_out (f : Fld) (i v : Nat) : (s.setFldI f i v).out = s.out := rfl
@[simp] theorem State.setFldI_free (f : Fld) (i v : Nat) : (s.setFldI f i v).free = s.free := rfl
@[simp] theorem State.setFldI_waiting (f : Fld) (i v : Nat) : (s.setFldI f i v).waiting = s.waiting := rfl
@[simp] theorem State.setFldI_pending (f : Fld) (i v : Nat) : (s.setFldI f i v).pending = s.pending := rfl

/-! State.setFld. -/
@[simp] theorem State.setFld_ctl (f : Fld) (v : Nat) : (s.setFld f v).ctl = s.ctl := rfl
@[simp] theorem State.setFld_tel (f : Fld) (v : Nat) : (s.setFld f v).tel = s.tel := rfl
@[simp] theorem State.setFld_boot (f : Fld) (v : Nat) : (s.setFld f v).boot = s.boot := rfl
@[simp] theorem State.setFld_cmd (f : Fld) (v : Nat) : (s.setFld f v).cmd = s.cmd := rfl
@[simp] theorem State.setFld_xpt (f : Fld) (v : Nat) : (s.setFld f v).xpt = s.xpt := rfl
@[simp] theorem State.setFld_lay (f : Fld) (v : Nat) : (s.setFld f v).lay = s.lay := rfl
@[simp] theorem State.setFld_cip (f : Fld) (v : Nat) : (s.setFld f v).cip = s.cip := rfl
@[simp] theorem State.setFld_tru (f : Fld) (v : Nat) : (s.setFld f v).tru = s.tru := rfl
@[simp] theorem State.setFld_fix (f : Fld) (v : Nat) : (s.setFld f v).fix = s.fix := rfl
@[simp] theorem State.setFld_drv (f : Fld) (v : Nat) : (s.setFld f v).drv = s.drv := rfl
@[simp] theorem State.setFld_net (f : Fld) (v : Nat) : (s.setFld f v).net = s.net := rfl
@[simp] theorem State.setFld_hep (f : Fld) (v : Nat) : (s.setFld f v).hep = s.hep := rfl
@[simp] theorem State.setFld_red (f : Fld) (v : Nat) : (s.setFld f v).red = s.red := rfl
@[simp] theorem State.setFld_pwr (f : Fld) (v : Nat) : (s.setFld f v).pwr = s.pwr := rfl
@[simp] theorem State.setFld_regs (f : Fld) (v : Nat) : (s.setFld f v).regs = fldSet s.regs f 0 v := rfl
@[simp] theorem State.setFld_out (f : Fld) (v : Nat) : (s.setFld f v).out = s.out := rfl
@[simp] theorem State.setFld_free (f : Fld) (v : Nat) : (s.setFld f v).free = s.free := rfl
@[simp] theorem State.setFld_waiting (f : Fld) (v : Nat) : (s.setFld f v).waiting = s.waiting := rfl
@[simp] theorem State.setFld_pending (f : Fld) (v : Nat) : (s.setFld f v).pending = s.pending := rfl

/-! State.bumpI. -/
@[simp] theorem State.bumpI_ctl (f : Fld) (i n : Nat) : (s.bumpI f i n).ctl = s.ctl := rfl
@[simp] theorem State.bumpI_tel (f : Fld) (i n : Nat) : (s.bumpI f i n).tel = s.tel := rfl
@[simp] theorem State.bumpI_boot (f : Fld) (i n : Nat) : (s.bumpI f i n).boot = s.boot := rfl
@[simp] theorem State.bumpI_cmd (f : Fld) (i n : Nat) : (s.bumpI f i n).cmd = s.cmd := rfl
@[simp] theorem State.bumpI_xpt (f : Fld) (i n : Nat) : (s.bumpI f i n).xpt = s.xpt := rfl
@[simp] theorem State.bumpI_lay (f : Fld) (i n : Nat) : (s.bumpI f i n).lay = s.lay := rfl
@[simp] theorem State.bumpI_cip (f : Fld) (i n : Nat) : (s.bumpI f i n).cip = s.cip := rfl
@[simp] theorem State.bumpI_tru (f : Fld) (i n : Nat) : (s.bumpI f i n).tru = s.tru := rfl
@[simp] theorem State.bumpI_fix (f : Fld) (i n : Nat) : (s.bumpI f i n).fix = s.fix := rfl
@[simp] theorem State.bumpI_drv (f : Fld) (i n : Nat) : (s.bumpI f i n).drv = s.drv := rfl
@[simp] theorem State.bumpI_net (f : Fld) (i n : Nat) : (s.bumpI f i n).net = s.net := rfl
@[simp] theorem State.bumpI_hep (f : Fld) (i n : Nat) : (s.bumpI f i n).hep = s.hep := rfl
@[simp] theorem State.bumpI_red (f : Fld) (i n : Nat) : (s.bumpI f i n).red = s.red := rfl
@[simp] theorem State.bumpI_pwr (f : Fld) (i n : Nat) : (s.bumpI f i n).pwr = s.pwr := rfl
@[simp] theorem State.bumpI_regs (f : Fld) (i n : Nat) : (s.bumpI f i n).regs = fldSet s.regs f i (min f.max (s.fldI f i + n)) := rfl
@[simp] theorem State.bumpI_out (f : Fld) (i n : Nat) : (s.bumpI f i n).out = s.out := rfl
@[simp] theorem State.bumpI_free (f : Fld) (i n : Nat) : (s.bumpI f i n).free = s.free := rfl
@[simp] theorem State.bumpI_waiting (f : Fld) (i n : Nat) : (s.bumpI f i n).waiting = s.waiting := rfl
@[simp] theorem State.bumpI_pending (f : Fld) (i n : Nat) : (s.bumpI f i n).pending = s.pending := rfl

/-! State.bump. -/
@[simp] theorem State.bump_ctl (f : Fld) : (s.bump f).ctl = s.ctl := rfl
@[simp] theorem State.bump_tel (f : Fld) : (s.bump f).tel = s.tel := rfl
@[simp] theorem State.bump_boot (f : Fld) : (s.bump f).boot = s.boot := rfl
@[simp] theorem State.bump_cmd (f : Fld) : (s.bump f).cmd = s.cmd := rfl
@[simp] theorem State.bump_xpt (f : Fld) : (s.bump f).xpt = s.xpt := rfl
@[simp] theorem State.bump_lay (f : Fld) : (s.bump f).lay = s.lay := rfl
@[simp] theorem State.bump_cip (f : Fld) : (s.bump f).cip = s.cip := rfl
@[simp] theorem State.bump_tru (f : Fld) : (s.bump f).tru = s.tru := rfl
@[simp] theorem State.bump_fix (f : Fld) : (s.bump f).fix = s.fix := rfl
@[simp] theorem State.bump_drv (f : Fld) : (s.bump f).drv = s.drv := rfl
@[simp] theorem State.bump_net (f : Fld) : (s.bump f).net = s.net := rfl
@[simp] theorem State.bump_hep (f : Fld) : (s.bump f).hep = s.hep := rfl
@[simp] theorem State.bump_red (f : Fld) : (s.bump f).red = s.red := rfl
@[simp] theorem State.bump_pwr (f : Fld) : (s.bump f).pwr = s.pwr := rfl
@[simp] theorem State.bump_regs (f : Fld) : (s.bump f).regs = fldSet s.regs f 0 (min f.max (s.fldI f 0 + 1)) := rfl
@[simp] theorem State.bump_out (f : Fld) : (s.bump f).out = s.out := rfl
@[simp] theorem State.bump_free (f : Fld) : (s.bump f).free = s.free := rfl
@[simp] theorem State.bump_waiting (f : Fld) : (s.bump f).waiting = s.waiting := rfl
@[simp] theorem State.bump_pending (f : Fld) : (s.bump f).pending = s.pending := rfl

/-! emit. -/
@[simp] theorem emit_ctl (src ev sev data : Nat) : (emit src ev sev data s).ctl = { s.ctl with inflight := s.ctl.inflight ++ [mkRec s src sev ev data] } := rfl
@[simp] theorem emit_tel (src ev sev data : Nat) : (emit src ev sev data s).tel = (countBy ev src 1 s).tel := rfl
@[simp] theorem emit_boot (src ev sev data : Nat) : (emit src ev sev data s).boot = s.boot := rfl
@[simp] theorem emit_cmd (src ev sev data : Nat) : (emit src ev sev data s).cmd = s.cmd := rfl
@[simp] theorem emit_xpt (src ev sev data : Nat) : (emit src ev sev data s).xpt = s.xpt := rfl
@[simp] theorem emit_lay (src ev sev data : Nat) : (emit src ev sev data s).lay = s.lay := rfl
@[simp] theorem emit_cip (src ev sev data : Nat) : (emit src ev sev data s).cip = s.cip := rfl
@[simp] theorem emit_tru (src ev sev data : Nat) : (emit src ev sev data s).tru = s.tru := rfl
@[simp] theorem emit_fix (src ev sev data : Nat) : (emit src ev sev data s).fix = s.fix := rfl
@[simp] theorem emit_drv (src ev sev data : Nat) : (emit src ev sev data s).drv = s.drv := rfl
@[simp] theorem emit_net (src ev sev data : Nat) : (emit src ev sev data s).net = s.net := rfl
@[simp] theorem emit_hep (src ev sev data : Nat) : (emit src ev sev data s).hep = s.hep := rfl
@[simp] theorem emit_red (src ev sev data : Nat) : (emit src ev sev data s).red = s.red := rfl
@[simp] theorem emit_pwr (src ev sev data : Nat) : (emit src ev sev data s).pwr = s.pwr := rfl
@[simp] theorem emit_regs (src ev sev data : Nat) : (emit src ev sev data s).regs = s.regs := rfl
@[simp] theorem emit_out (src ev sev data : Nat) : (emit src ev sev data s).out = s.out := rfl
@[simp] theorem emit_free (src ev sev data : Nat) : (emit src ev sev data s).free = s.free := rfl
@[simp] theorem emit_waiting (src ev sev data : Nat) : (emit src ev sev data s).waiting = s.waiting := rfl
@[simp] theorem emit_pending (src ev sev data : Nat) : (emit src ev sev data s).pending = s.pending := rfl

/-! countBy. -/
@[simp] theorem countBy_ctl (e src n : Nat) : (countBy e src n s).ctl = s.ctl := rfl
@[simp] theorem countBy_boot (e src n : Nat) : (countBy e src n s).boot = s.boot := rfl
@[simp] theorem countBy_cmd (e src n : Nat) : (countBy e src n s).cmd = s.cmd := rfl
@[simp] theorem countBy_xpt (e src n : Nat) : (countBy e src n s).xpt = s.xpt := rfl
@[simp] theorem countBy_lay (e src n : Nat) : (countBy e src n s).lay = s.lay := rfl
@[simp] theorem countBy_cip (e src n : Nat) : (countBy e src n s).cip = s.cip := rfl
@[simp] theorem countBy_tru (e src n : Nat) : (countBy e src n s).tru = s.tru := rfl
@[simp] theorem countBy_fix (e src n : Nat) : (countBy e src n s).fix = s.fix := rfl
@[simp] theorem countBy_drv (e src n : Nat) : (countBy e src n s).drv = s.drv := rfl
@[simp] theorem countBy_net (e src n : Nat) : (countBy e src n s).net = s.net := rfl
@[simp] theorem countBy_hep (e src n : Nat) : (countBy e src n s).hep = s.hep := rfl
@[simp] theorem countBy_red (e src n : Nat) : (countBy e src n s).red = s.red := rfl
@[simp] theorem countBy_pwr (e src n : Nat) : (countBy e src n s).pwr = s.pwr := rfl
@[simp] theorem countBy_regs (e src n : Nat) : (countBy e src n s).regs = s.regs := rfl
@[simp] theorem countBy_out (e src n : Nat) : (countBy e src n s).out = s.out := rfl
@[simp] theorem countBy_free (e src n : Nat) : (countBy e src n s).free = s.free := rfl
@[simp] theorem countBy_waiting (e src n : Nat) : (countBy e src n s).waiting = s.waiting := rfl
@[simp] theorem countBy_pending (e src n : Nat) : (countBy e src n s).pending = s.pending := rfl

/-! Global time stands through every update but one of its own. -/

@[simp] theorem State.now_send (x : Output) : (s.send x).now = s.now := rfl
@[simp] theorem State.now_drawn : s.drawn.now = s.now := rfl
@[simp] theorem State.now_setFldI (f : Fld) (i v : Nat) : (s.setFldI f i v).now = s.now := rfl
@[simp] theorem State.now_setFld (f : Fld) (v : Nat) : (s.setFld f v).now = s.now := rfl
@[simp] theorem State.now_bumpI (f : Fld) (i n : Nat) : (s.bumpI f i n).now = s.now := rfl
@[simp] theorem State.now_bump (f : Fld) : (s.bump f).now = s.now := rfl
@[simp] theorem now_emit (src ev sev data : Nat) : (emit src ev sev data s).now = s.now := rfl
@[simp] theorem now_countBy (e src n : Nat) : (countBy e src n s).now = s.now := rfl
@[simp] theorem State.now_onTel (f : Tel → Tel) : (s.onTel f).now = s.now := rfl
@[simp] theorem State.now_onBoot (f : Boot → Boot) : (s.onBoot f).now = s.now := rfl
@[simp] theorem State.now_onCmd (f : Cmd → Cmd) : (s.onCmd f).now = s.now := rfl
@[simp] theorem State.now_onXpt (f : Xpt → Xpt) : (s.onXpt f).now = s.now := rfl
@[simp] theorem State.now_onLay (f : Lay → Lay) : (s.onLay f).now = s.now := rfl
@[simp] theorem State.now_onCip (f : Cip → Cip) : (s.onCip f).now = s.now := rfl
@[simp] theorem State.now_onTru (f : Tru → Tru) : (s.onTru f).now = s.now := rfl
@[simp] theorem State.now_onFix (f : Fix → Fix) : (s.onFix f).now = s.now := rfl
@[simp] theorem State.now_onDrv (f : Drv → Drv) : (s.onDrv f).now = s.now := rfl
@[simp] theorem State.now_onNet (f : Net → Net) : (s.onNet f).now = s.now := rfl
@[simp] theorem State.now_onHep (f : Hep → Hep) : (s.onHep f).now = s.now := rfl
@[simp] theorem State.now_onRed (f : Red → Red) : (s.onRed f).now = s.now := rfl
@[simp] theorem State.now_onPwr (f : Pwr → Pwr) : (s.onPwr f).now = s.now := rfl

/-! An emission counts once (R431). -/

@[simp] theorem countBy_cnt (e src n k : Nat) :
    (countBy e src n s).tel.cnt.at k = if k = e then (s.tel.cnt.at e + n) % 2 ^ 64 else s.tel.cnt.at k := by
  simp [countBy]

end Sys2Proof.Machine
end

