-- ==== Sys2Proof/Laws/Emit.lean ====
section
/-! SUPPORT. What stays true after later operations: a record emitted stays on its way, a thing sent stays sent, a part
outside the changed ones stands. -/

namespace Sys2Proof.Machine

variable {w : List Part} {s0 s t : State}

/-- An emission's record is on its way (R30). -/
theorem emitted_emit (src ev sev data : Nat) (s : State) : Emitted s (emit src ev sev data s) src sev ev data := by
  simp [Emitted, mkRec, emit, State.onCtl, State.now, countBy]

/-- The same for an emission from a state with the GTS of an earlier one. -/
theorem emitted_emit_of (src ev sev data : Nat) (h : s.now = s0.now) :
    Emitted s0 (emit src ev sev data s) src sev ev data := by
  simp only [Emitted, mkRec, emit, State.onCtl, State.now, countBy] at h ⊢; simp [h]

theorem Evolves.now_eq (h : Evolves w s t) (hw : w.contains .clock = false) : t.now = s.now :=
  h.same .clock (by simpa using hw)

theorem Evolves.emitted_mono (h : Evolves w s t) (hw : w.contains .records = false) {src sev ev data : Nat}
    (he : Emitted s0 s src sev ev data) : Emitted s0 t src sev ev data :=
  (h.same .records (by simpa using hw)).subset he

theorem Evolves.sent (h : Evolves w s t) {o : Output} (ho : o ∈ s.out) : o ∈ t.out := h.out.subset ho

theorem sent_send (o : Output) (s : State) : o ∈ (s.send o).out := by simp [State.send]

/-- An emission reads only the GTS of its state. -/
theorem emitted_now {src sev ev data : Nat} (h : s.now = t.now) : Emitted s s0 src sev ev data ↔ Emitted t s0 src sev ev data := by
  simp [Emitted, h]

end Sys2Proof.Machine
end

