-- ==== Sys2Proof/Laws/FrameOpsPort.lean ====
section
/-! SUPPORT. What the operations of Machine/OpsPort.lean change at most: one lemma each. -/

namespace Sys2Proof.Machine

set_option linter.unusedTactic false
set_option linter.unreachableTactic false
set_option linter.unusedVariables false

theorem state_onNet_evolves {f : Net → Net} {ps : List Part} {s₀ s : State} (hE : Evolves ps s₀ s)
    (h1 : Sub [.classifier] ps ∨ ((f s.net).nodes, (f s.net).tcam, (f s.net).patterns) =
      (s.net.nodes, s.net.tcam, s.net.patterns))
    (h2 : Sub [.punts] ps ∨ ((f s.net).punt, (f s.net).puntBucket, (f s.net).puntSaid, (f s.net).puntLost) =
      (s.net.punt, s.net.puntBucket, s.net.puntSaid, s.net.puntLost))
    (h3 : Sub [.stamps] ps ∨ ((f s.net).stamps, (f s.net).wake, (f s.net).wakeDropped) =
      (s.net.stamps, s.net.wake, s.net.wakeDropped))
    (h4 : Sub [.buffer] ps ∨ ((f s.net).cells, (f s.net).nextBank, (f s.net).freeMinRead, (f s.net).rxCells, (f s.net).rxHeld, (f s.net).squeezed, (f s.net).waitC0, (f s.net).peerChains) =
      (s.net.cells, s.net.nextBank, s.net.freeMinRead, s.net.rxCells, s.net.rxHeld, s.net.squeezed, s.net.waitC0, s.net.peerChains))
    (h5 : Sub [.groups] ps ∨ (f s.net).groups = s.net.groups)
    (h6 : Sub [.tables] ps ∨ ((f s.net).queueCfg, (f s.net).nodeCfg, (f s.net).policers, (f s.net).gateCfg) =
      (s.net.queueCfg, s.net.nodeCfg, s.net.policers, s.net.gateCfg))
    (h7 : Sub [.traffic] ps ∨ ((f s.net).queues, (f s.net).deficit, (f s.net).nodeDeficit, (f s.net).shaper, (f s.net).nodeShaper, (f s.net).served, (f s.net).line, (f s.net).stomp, (f s.net).gates, (f s.net).media, (f s.net).hist, (f s.net).histNext) =
      (s.net.queues, s.net.deficit, s.net.nodeDeficit, s.net.shaper, s.net.nodeShaper, s.net.served, s.net.line, s.net.stomp, s.net.gates, s.net.media, s.net.hist, s.net.histNext))
    (hc : s.net.tcam.wf = true → (f s.net).tcam.wf = true) :
    Evolves ps s₀ (State.onNet s f) := by
  unfold State.onNet
  repeat' first
    | exact h1 | exact h2 | exact h3 | exact h4 | exact h5 | exact h6 | exact h7 | exact hc
    | with_reducible first
        | exact hE
    | dsimp only
    | with_reducible first
        | apply Evolves.netSet

theorem dropLink_evolves {lport : Nat} {ps : List Part} {s₀ s : State} (hE : Evolves ps s₀ s)
    (hW : Sub [.regs, .regPrt] ps) :
    Evolves ps s₀ (dropLink lport s) := by
  unfold dropLink
  repeat' first
    | exact Sub.of hW rfl
    | with_reducible first
        | exact hE | apply state_bumpI_evolves | apply state_setFldI_evolves
        | refine Evolves.ite (fun _ => ?_) (fun _ => ?_)
    | dsimp only | split

theorem loseLink_evolves {lport : Nat} {cause : Nat} {ps : List Part} {s₀ s : State} (hE : Evolves ps s₀ s)
    (hW : Sub [.events, .counters, .sampling, .regs, .regPrt] ps) :
    Evolves ps s₀ (loseLink lport cause s) := by
  unfold loseLink
  repeat' first
    | exact Sub.of hW rfl
    | with_reducible first
        | exact hE | apply emit_evolves | apply dropLink_evolves | refine Evolves.ite (fun _ => ?_) (fun _ => ?_)
    | dsimp only | split

theorem portOff_evolves {n : Nat} {ps : List Part} {s₀ s : State} (hE : Evolves ps s₀ s)
    (hW : Sub [.events, .counters, .sampling, .regs, .regPrt] ps) :
    Evolves ps s₀ (portOff n s) := by
  unfold portOff
  repeat' first
    | exact Sub.of hW rfl
    | with_reducible first
        | exact hE | apply dropLink_evolves | apply emit_evolves | refine Evolves.ite (fun _ => ?_) (fun _ => ?_)
        | refine Evolves.foldl ?_ ?_ | refine Evolves.foldl_fst ?_ ?_ | refine Evolves.foldl_snd ?_ ?_ | assumption
    | intro _ | dsimp only | split

theorem enterPs4_evolves  {ps : List Part} {s₀ s : State} (hE : Evolves ps s₀ s)
    (hW : Sub [.events, .counters, .sampling, .stamps, .regs, .regPrt] ps) :
    Evolves ps s₀ (enterPs4 s) := by
  unfold enterPs4
  repeat' first
    | exact Sub.of hW rfl | exact .inl (Sub.of hW rfl) | with_reducible exact .inr rfl
    | exact .inr (FencesStay.refl _) | exact .inr (by dsimp only) | exact .inr rfl
    | with_reducible exact (fun h => h : _ = true → _) | (dsimp only; exact (fun h => h : _ = true → _))
    | exact (fun h => h : _ = true → _)
    | with_reducible first
        | exact hE | apply state_onNet_evolves | apply portOff_evolves
        | refine Evolves.ite (fun _ => ?_) (fun _ => ?_) | refine Evolves.foldl ?_ ?_ | refine Evolves.foldl_fst ?_ ?_
        | refine Evolves.foldl_snd ?_ ?_ | assumption
    | intro _ | dsimp only | split

end Sys2Proof.Machine
end

