-- ==== Sys2Proof/Laws/FrameBuckets.lean ====
section
/-! SUPPORT. What the operations of Machine/Buckets.lean change at most: one lemma each. -/

namespace Sys2Proof.Machine

set_option linter.unusedTactic false
set_option linter.unreachableTactic false
set_option linter.unusedVariables false

theorem settlePunt_evolves {reason : Nat} {ps : List Part} {s₀ s : State} (hE : Evolves ps s₀ s)
    (hW : Sub [.punts] ps) :
    Evolves ps s₀ (settlePunt old reason s) := by
  unfold settlePunt
  repeat' first
    | exact Sub.of hW rfl | exact .inl (Sub.of hW rfl) | with_reducible exact .inr rfl
    | exact .inr (FencesStay.refl _) | exact .inr (by dsimp only) | exact .inr rfl
    | with_reducible exact (fun h => h : _ = true → _) | (dsimp only; exact (fun h => h : _ = true → _))
    | exact (fun h => h : _ = true → _)
    | with_reducible first
        | exact hE | apply state_onNet_evolves | refine Evolves.ite (fun _ => ?_) (fun _ => ?_)
    | dsimp only | split

theorem settleShapers_evolves  {ps : List Part} {s₀ s : State} (hE : Evolves ps s₀ s)
    (hW : Sub [.traffic] ps) :
    Evolves ps s₀ (settleShapers old s) := by
  unfold settleShapers
  repeat' first
    | exact Sub.of hW rfl | exact .inl (Sub.of hW rfl) | with_reducible exact .inr rfl
    | exact .inr (FencesStay.refl _) | exact .inr (by dsimp only) | exact .inr rfl
    | with_reducible exact (fun h => h : _ = true → _) | (dsimp only; exact (fun h => h : _ = true → _))
    | exact (fun h => h : _ = true → _)
    | with_reducible first
        | exact hE | apply state_onNet_evolves
    | dsimp only

theorem settleC0_evolves {port : Nat} {ps : List Part} {s₀ s : State} (hE : Evolves ps s₀ s)
    (hW : Sub [.commands] ps) :
    Evolves ps s₀ (settleC0 old port s) := by
  unfold settleC0
  repeat' first
    | exact Sub.of hW rfl | exact .inl (Sub.of hW rfl) | with_reducible exact .inr rfl
    | exact .inr (FencesStay.refl _) | exact .inr (by dsimp only) | exact .inr rfl
    | with_reducible exact (fun h => h : _ = true → _) | (dsimp only; exact (fun h => h : _ = true → _))
    | exact (fun h => h : _ = true → _)
    | with_reducible first
        | exact hE | apply state_onCmd_evolves | refine Evolves.ite (fun _ => ?_) (fun _ => ?_)
    | dsimp only | split

theorem settleMedia_evolves  {ps : List Part} {s₀ s : State} (hE : Evolves ps s₀ s)
    (hW : Sub [.traffic] ps) :
    Evolves ps s₀ (settleMedia old s) := by
  unfold settleMedia
  repeat' first
    | exact Sub.of hW rfl | exact .inl (Sub.of hW rfl) | with_reducible exact .inr rfl
    | exact .inr (FencesStay.refl _) | exact .inr (by dsimp only) | exact .inr rfl
    | with_reducible exact (fun h => h : _ = true → _) | (dsimp only; exact (fun h => h : _ = true → _))
    | exact (fun h => h : _ = true → _)
    | with_reducible first
        | exact hE | apply state_onNet_evolves
    | dsimp only

theorem settleAll_evolves  {ps : List Part} {s₀ s : State} (hE : Evolves ps s₀ s)
    (hW : Sub [.commands, .punts, .traffic] ps) :
    Evolves ps s₀ (settleAll old s) := by
  unfold settleAll
  repeat' first
    | exact Sub.of hW rfl
    | with_reducible first
        | exact hE | apply settlePunt_evolves | apply settleShapers_evolves | apply settleC0_evolves
        | apply settleMedia_evolves | refine Evolves.foldl ?_ ?_ | refine Evolves.foldl_fst ?_ ?_
        | refine Evolves.foldl_snd ?_ ?_ | assumption
    | intro _ | dsimp only

theorem settleWrite_evolves {addr : Nat} {ps : List Part} {s₀ s : State} (hE : Evolves ps s₀ s)
    (hW : Sub [.commands, .punts, .traffic] ps) :
    Evolves ps s₀ (settleWrite addr old s) := by
  unfold settleWrite
  repeat' first
    | exact Sub.of hW rfl
    | with_reducible first
        | exact hE | apply settlePunt_evolves | apply settleC0_evolves | apply settleMedia_evolves
        | refine Evolves.ite (fun _ => ?_) (fun _ => ?_)
    | dsimp only | split

end Sys2Proof.Machine
end

