-- ==== Sys2Proof/Laws/FrameOpsDrive.lean ====
section
/-! SUPPORT. What the operations of Machine/OpsDrive.lean change at most: one lemma each. -/

namespace Sys2Proof.Machine

set_option linter.unusedTactic false
set_option linter.unreachableTactic false
set_option linter.unusedVariables false

theorem state_onDrv_evolves {f : Drv → Drv} {ps : List Part} {s₀ s : State} (hE : Evolves ps s₀ s)
    (h1 : Sub [.drivePorts] ps ∨ (f s.drv).ports = s.drv.ports)
    (h2 : Sub [.driveSlots] ps ∨ ((f s.drv).slots, (f s.drv).stopped, (f s.drv).round, (f s.drv).preempting) =
      (s.drv.slots, s.drv.stopped, s.drv.round, s.drv.preempting)) :
    Evolves ps s₀ (State.onDrv s f) := by
  unfold State.onDrv
  repeat' first
    | exact h1 | exact h2
    | with_reducible first
        | exact hE
    | dsimp only
    | with_reducible first
        | apply Evolves.drvSet

theorem onPort_evolves {slot : Nat} {f : DrvPort → DrvPort} {ps : List Part} {s₀ s : State} (hE : Evolves ps s₀ s)
    (hW : Sub [.drivePorts] ps) :
    Evolves ps s₀ (onPort slot f s) := by
  unfold onPort
  repeat' first
    | exact Sub.of hW rfl | exact .inl (Sub.of hW rfl) | with_reducible exact .inr rfl
    | exact .inr (FencesStay.refl _) | exact .inr (by dsimp only) | exact .inr rfl
    | with_reducible exact (fun h => h : _ = true → _) | (dsimp only; exact (fun h => h : _ = true → _))
    | exact (fun h => h : _ = true → _)
    | with_reducible first
        | exact hE | apply state_onDrv_evolves
    | dsimp only

theorem enterRing_evolves {slot : Nat} {o : Output} {ps : List Part} {s₀ s : State} (hE : Evolves ps s₀ s)
    (hW : Sub [.drivePorts, .out] ps) :
    Evolves ps s₀ (enterRing slot o s) := by
  unfold enterRing
  repeat' first
    | exact Sub.of hW rfl
    | with_reducible first
        | exact hE | apply state_send_evolves | apply onPort_evolves
    | dsimp only

theorem drainWaits_evolves {slot : Nat} {x1 : Nat} {ps : List Part} {s₀ x2 : State} (hE : Evolves ps s₀ x2)
    (hW : Sub [.drivePorts, .out] ps) :
    Evolves ps s₀ (drainWaits slot x1 x2) := by
  induction x1 generalizing x2 with
  | zero => exact hE
  | succ n ih =>
    unfold drainWaits
    repeat' first
      | with_reducible exact hE
      | exact Sub.of hW rfl
      | exact .inl (Sub.of hW rfl)
      | with_reducible exact .inr rfl
      | exact .inr (by dsimp only)
      | exact .inr rfl
      | (dsimp only; exact (fun h => h : _ = true → _))
      | exact (fun h => h : _ = true → _)
      | with_reducible exact hW
      | exact List.prefix_append _ _
      | with_reducible apply ih
      | with_reducible apply enterRing_evolves
      | with_reducible apply onPort_evolves
      | with_reducible refine Evolves.ite (fun _ => ?_) (fun _ => ?_)
      | with_reducible refine Evolves.foldl ?_ ?_
      | intro _
      | dsimp only
      | split
      | with_reducible assumption

theorem drvSubmit_evolves {slot : Nat} {urgent : Bool} {o : Output} {ps : List Part} {s₀ s : State} (hE : Evolves ps s₀ s)
    (hW : Sub [.drivePorts, .out] ps) :
    Evolves ps s₀ (drvSubmit slot urgent o s) := by
  unfold drvSubmit
  repeat' first
    | exact Sub.of hW rfl
    | with_reducible first
        | exact hE | apply onPort_evolves | apply drainWaits_evolves | refine Evolves.ite (fun _ => ?_) (fun _ => ?_)
    | dsimp only | split

theorem drvWrite_evolves {slot : Nat} {urgent : Bool} {lba : Nat} {data : Bytes} {ps : List Part} {s₀ s : State} (hE : Evolves ps s₀ s)
    (hW : Sub [.drivePorts, .out] ps) :
    Evolves ps s₀ (drvWrite slot urgent lba data s) := by
  unfold drvWrite
  repeat' first
    | exact Sub.of hW rfl
    | with_reducible first
        | exact hE | apply drvSubmit_evolves | apply onPort_evolves | refine Evolves.ite (fun _ => ?_) (fun _ => ?_)
    | dsimp only | split

theorem onSlotBand_evolves {slot : Nat} {f : DrvSlot → DrvSlot} {ps : List Part} {s₀ s : State} (hE : Evolves ps s₀ s)
    (hW : Sub [.driveSlots] ps) :
    Evolves ps s₀ (onSlotBand slot f s) := by
  unfold onSlotBand
  repeat' first
    | exact Sub.of hW rfl | exact .inl (Sub.of hW rfl) | with_reducible exact .inr rfl
    | exact .inr (FencesStay.refl _) | exact .inr (by dsimp only) | exact .inr rfl
    | with_reducible exact (fun h => h : _ = true → _) | (dsimp only; exact (fun h => h : _ = true → _))
    | exact (fun h => h : _ = true → _)
    | with_reducible first
        | exact hE | apply state_onDrv_evolves
    | dsimp only

theorem drvDone_evolves {slot : Nat} {urgent : Bool} {write : Bool} {lba : Nat} {pages : Nat} {ps : List Part} {s₀ s : State} (hE : Evolves ps s₀ s)
    (hW : Sub [.drivePorts, .out] ps) :
    Evolves ps s₀ (drvDone slot urgent write lba pages s) := by
  unfold drvDone
  repeat' first
    | exact Sub.of hW rfl
    | with_reducible first
        | exact hE | apply onPort_evolves | apply drainWaits_evolves | refine Evolves.foldl ?_ ?_
        | refine Evolves.foldl_fst ?_ ?_ | refine Evolves.foldl_snd ?_ ?_ | assumption
    | intro _ | dsimp only

theorem followL1_evolves  {ps : List Part} {s₀ s : State} (hE : Evolves ps s₀ s)
    (hW : Sub [.drivePorts, .out] ps) :
    Evolves ps s₀ (followL1 s) := by
  unfold followL1
  repeat' first
    | exact Sub.of hW rfl
    | with_reducible first
        | exact hE | apply state_send_evolves | apply onPort_evolves | refine Evolves.foldl ?_ ?_
        | refine Evolves.foldl_fst ?_ ?_ | refine Evolves.foldl_snd ?_ ?_ | assumption
    | intro _ | dsimp only

theorem releaseWrites_evolves {slot : Nat} {ps : List Part} {s₀ s : State} (hE : Evolves ps s₀ s)
    (hW : Sub [.drivePorts, .out] ps) :
    Evolves ps s₀ (releaseWrites slot s) := by
  unfold releaseWrites
  repeat' first
    | exact Sub.of hW rfl
    | with_reducible first
        | exact hE | apply onPort_evolves | apply drvSubmit_evolves | refine Evolves.foldl ?_ ?_
        | refine Evolves.foldl_fst ?_ ?_ | refine Evolves.foldl_snd ?_ ?_ | assumption
    | intro _ | dsimp only

end Sys2Proof.Machine
end

