-- ==== Sys2Proof/Laws/FrameOpsHost.lean ====
section
/-! SUPPORT. What the operations of Machine/OpsHost.lean change at most: one lemma each. -/

namespace Sys2Proof.Machine

set_option linter.unusedTactic false
set_option linter.unreachableTactic false
set_option linter.unusedVariables false

theorem state_onHep_evolves {f : Hep → Hep} {ps : List Part} {s₀ s : State} (hE : Evolves ps s₀ s)
    (h1 : Sub [.functions] ps ∨ ((f s.hep).fns, (f s.hep).numVfs, (f s.hep).vfEnabled, (f s.hep).mrrs, (f s.hep).mps, (f s.hep).tag10, (f s.hep).cto) =
      (s.hep.fns, s.hep.numVfs, s.hep.vfEnabled, s.hep.mrrs, s.hep.mps, s.hep.tag10, s.hep.cto))
    (h2 : Sub [.hostReads] ps ∨ ((f s.hep).tags, (f s.hep).fresh, (f s.hep).released, (f s.hep).waiting, (f s.hep).fetches, (f s.hep).fetchNext, (f s.hep).hosts) =
      (s.hep.tags, s.hep.fresh, s.hep.released, s.hep.waiting, s.hep.fetches, s.hep.fetchNext, s.hep.hosts))
    (h3 : Sub [.hostQueues] ps ∨ ((f s.hep).sqs, (f s.hep).cqs, (f s.hep).coalesced) =
      (s.hep.sqs, s.hep.cqs, s.hep.coalesced))
    (h4 : Sub [.peerTable] ps ∨ ((f s.hep).staged, (f s.hep).ppt) = (s.hep.staged, s.hep.ppt))
    (h5 : Sub [.peerMem] ps ∨ (f s.hep).peerMem = s.hep.peerMem)
    (hc : s.hep.peerMem.wf = true → (f s.hep).peerMem.wf = true) :
    Evolves ps s₀ (State.onHep s f) := by
  unfold State.onHep
  repeat' first
    | exact h1 | exact h2 | exact h3 | exact h4 | exact h5 | exact hc
    | with_reducible first
        | exact hE
    | dsimp only
    | with_reducible first
        | apply Evolves.hepSet

theorem onCq_evolves {key : Nat} {f : CqState → CqState} {ps : List Part} {s₀ s : State} (hE : Evolves ps s₀ s)
    (hW : Sub [.hostQueues] ps) :
    Evolves ps s₀ (onCq key f s) := by
  unfold onCq
  repeat' first
    | exact Sub.of hW rfl | exact .inl (Sub.of hW rfl) | with_reducible exact .inr rfl
    | exact .inr (FencesStay.refl _) | exact .inr (by dsimp only) | exact .inr rfl
    | with_reducible exact (fun h => h : _ = true → _) | (dsimp only; exact (fun h => h : _ = true → _))
    | exact (fun h => h : _ = true → _)
    | with_reducible first
        | exact hE | apply state_onHep_evolves | apply hf | assumption
    | intro _ | dsimp only

theorem onFn_evolves {k : Nat} {f : HepFn → HepFn} {ps : List Part} {s₀ s : State} (hE : Evolves ps s₀ s)
    (hW : Sub [.functions] ps) :
    Evolves ps s₀ (onFn k f s) := by
  unfold onFn
  repeat' first
    | exact Sub.of hW rfl | exact .inl (Sub.of hW rfl) | with_reducible exact .inr rfl
    | exact .inr (FencesStay.refl _) | exact .inr (by dsimp only) | exact .inr rfl
    | with_reducible exact (fun h => h : _ = true → _) | (dsimp only; exact (fun h => h : _ = true → _))
    | exact (fun h => h : _ = true → _)
    | with_reducible first
        | exact hE | apply state_onHep_evolves
    | dsimp only

theorem raiseVector_evolves {k : Nat} {vector : Nat} {ps : List Part} {s₀ s : State} (hE : Evolves ps s₀ s)
    (hW : Sub [.functions, .out] ps) :
    Evolves ps s₀ (raiseVector k vector s) := by
  unfold raiseVector
  repeat' first
    | exact Sub.of hW rfl
    | with_reducible first
        | exact hE | apply onFn_evolves | apply state_send_evolves | refine Evolves.ite (fun _ => ?_) (fun _ => ?_)
    | dsimp only | split

theorem signalCq_evolves {key : Nat} {ps : List Part} {s₀ s : State} (hE : Evolves ps s₀ s)
    (hW : Sub [.functions, .hostQueues, .out] ps) :
    Evolves ps s₀ (signalCq key s) := by
  unfold signalCq
  repeat' first
    | exact Sub.of hW rfl | exact .inl (Sub.of hW rfl) | with_reducible exact .inr rfl
    | exact .inr (FencesStay.refl _) | exact .inr (by dsimp only) | exact .inr rfl
    | with_reducible exact (fun h => h : _ = true → _) | (dsimp only; exact (fun h => h : _ = true → _))
    | exact (fun h => h : _ = true → _)
    | with_reducible first
        | exact hE | apply state_onHep_evolves | apply raiseVector_evolves
        | refine Evolves.ite (fun _ => ?_) (fun _ => ?_)
    | dsimp only | split

theorem hostPost_evolves {cntlid : Nat} {sqid : Nat} {cid : Nat} {st : Status} {dw0 : Nat} {cqid : Nat} {ps : List Part} {s₀ s : State} (hE : Evolves ps s₀ s)
    (hW : Sub [.functions, .hostQueues, .out] ps) :
    Evolves ps s₀ (hostPost cntlid sqid cid st dw0 cqid s) := by
  unfold hostPost
  repeat' first
    | exact Sub.of hW rfl
    | with_reducible first
        | exact hE | apply onCq_evolves | apply signalCq_evolves | apply state_send_evolves
        | refine Evolves.ite (fun _ => ?_) (fun _ => ?_) | assumption
    | intro _ | dsimp only | split

end Sys2Proof.Machine
end

