-- ==== Sys2Proof/Laws/FrameOpsLay.lean ====
section
/-! SUPPORT. What the operations of Machine/OpsLay.lean change at most: one lemma each. -/

namespace Sys2Proof.Machine

set_option linter.unusedTactic false
set_option linter.unreachableTactic false
set_option linter.unusedVariables false

theorem writeCopy_evolves {r : JRec} {copy : Nat} {slot : Nat} {ps : List Part} {s₀ s : State} (hE : Evolves ps s₀ s)
    (hW : Sub [.journal, .drivePorts, .out] ps) :
    Evolves ps s₀ (writeCopy r copy slot s).1 := by
  unfold writeCopy
  repeat' first
    | exact Sub.of hW rfl | exact .inl (Sub.of hW rfl) | with_reducible exact .inr rfl
    | exact .inr (FencesStay.refl _) | exact .inr (by dsimp only) | exact .inr rfl
    | with_reducible exact (fun h => h : _ = true → _) | (dsimp only; exact (fun h => h : _ = true → _))
    | exact (fun h => h : _ = true → _)
    | with_reducible first
        | exact hE | apply drvWrite_evolves | apply drvSubmit_evolves | apply state_onLay_evolves
        | refine Evolves.ite (fun _ => ?_) (fun _ => ?_)
    | dsimp only | split

theorem writeCopies_evolves {r : JRec} {x1 : Nat} {x2 : List Nat} {ps : List Part} {s₀ x3 : State} (hE : Evolves ps s₀ x3)
    (hW : Sub [.journal, .drivePorts, .out] ps) :
    Evolves ps s₀ (writeCopies r x1 x2 x3).1 := by
  induction x2 generalizing x1 x3 with
  | nil => exact hE
  | cons a l ih =>
    unfold writeCopies
    repeat' first
      | with_reducible exact hE
      | exact Sub.of hW rfl
      | exact .inl (Sub.of hW rfl)
      | with_reducible exact .inr rfl
      | exact .inr (by dsimp only)
      | exact .inr rfl
      | (dsimp only; exact (fun h => h : _ = true → _))
      | exact (fun h => h : _ = true → _)
      | with_reducible exact hW
      | exact List.prefix_append _ _
      | with_reducible apply ih
      | with_reducible apply writeCopy_evolves
      | with_reducible refine Evolves.ite (fun _ => ?_) (fun _ => ?_)
      | with_reducible refine Evolves.foldl ?_ ?_
      | intro _
      | dsimp only
      | split
      | with_reducible assumption

theorem startCheckpoint_evolves  {ps : List Part} {s₀ s : State} (hE : Evolves ps s₀ s)
    (hW : Sub [.journal, .drivePorts, .out] ps) :
    Evolves ps s₀ (startCheckpoint s) := by
  unfold startCheckpoint
  repeat' first
    | exact Sub.of hW rfl | exact .inl (Sub.of hW rfl) | with_reducible exact .inr rfl
    | exact .inr (FencesStay.refl _) | exact .inr (by dsimp only) | exact .inr rfl
    | with_reducible exact (fun h => h : _ = true → _) | (dsimp only; exact (fun h => h : _ = true → _))
    | exact (fun h => h : _ = true → _)
    | with_reducible first
        | exact hE | apply state_onLay_evolves | apply drvSubmit_evolves
        | refine Evolves.ite (fun _ => ?_) (fun _ => ?_) | refine Evolves.foldl ?_ ?_ | refine Evolves.foldl_fst ?_ ?_
        | refine Evolves.foldl_snd ?_ ?_ | assumption
    | intro _ | dsimp only | split

theorem boundEnter_evolves {bit : Nat} {ps : List Part} {s₀ s : State} (hE : Evolves ps s₀ s)
    (hW : Sub [.events, .counters, .sampling, .commands] ps) :
    Evolves ps s₀ (boundEnter bit s) := by
  unfold boundEnter
  repeat' first
    | exact Sub.of hW rfl | exact .inl (Sub.of hW rfl) | with_reducible exact .inr rfl
    | exact .inr (FencesStay.refl _) | exact .inr (by dsimp only) | exact .inr rfl
    | with_reducible exact (fun h => h : _ = true → _) | (dsimp only; exact (fun h => h : _ = true → _))
    | exact (fun h => h : _ = true → _)
    | with_reducible first
        | exact hE | apply state_onCmd_evolves | apply emit_evolves | refine Evolves.ite (fun _ => ?_) (fun _ => ?_)
    | dsimp only | split

theorem boundLeave_evolves {bit : Nat} {ps : List Part} {s₀ s : State} (hE : Evolves ps s₀ s)
    (hW : Sub [.events, .counters, .sampling, .commands] ps) :
    Evolves ps s₀ (boundLeave bit s) := by
  unfold boundLeave
  repeat' first
    | exact Sub.of hW rfl | exact .inl (Sub.of hW rfl) | with_reducible exact .inr rfl
    | exact .inr (FencesStay.refl _) | exact .inr (by dsimp only) | exact .inr rfl
    | with_reducible exact (fun h => h : _ = true → _) | (dsimp only; exact (fun h => h : _ = true → _))
    | exact (fun h => h : _ = true → _)
    | with_reducible first
        | exact hE | apply state_onCmd_evolves | apply emit_evolves | refine Evolves.ite (fun _ => ?_) (fun _ => ?_)
    | dsimp only | split

theorem journalThresholds_evolves  {ps : List Part} {s₀ s : State} (hE : Evolves ps s₀ s)
    (hW : Sub [.events, .counters, .sampling, .commands, .layoutWork] ps) :
    Evolves ps s₀ (journalThresholds s) := by
  unfold journalThresholds
  repeat' first
    | exact Sub.of hW rfl | exact .inl (Sub.of hW rfl) | with_reducible exact .inr rfl
    | exact .inr (FencesStay.refl _) | exact .inr (by dsimp only) | exact .inr rfl
    | with_reducible exact (fun h => h : _ = true → _) | (dsimp only; exact (fun h => h : _ = true → _))
    | exact (fun h => h : _ = true → _)
    | with_reducible first
        | exact hE | apply emit_evolves | apply state_onLay_evolves | apply boundEnter_evolves
        | apply boundLeave_evolves | refine Evolves.ite (fun _ => ?_) (fun _ => ?_)
    | dsimp only | split

theorem afterJournal_evolves  {ps : List Part} {s₀ s : State} (hE : Evolves ps s₀ s)
    (hW : Sub [.events, .counters, .sampling, .commands, .journal, .layoutWork, .drivePorts, .out] ps) :
    Evolves ps s₀ (afterJournal s) := by
  unfold afterJournal
  repeat' first
    | exact Sub.of hW rfl
    | with_reducible first
        | exact hE | apply startCheckpoint_evolves | apply journalThresholds_evolves
        | refine Evolves.ite (fun _ => ?_) (fun _ => ?_)
    | dsimp only | split

theorem submitRecord_evolves {r : JRec} {ps : List Part} {s₀ s : State} (hE : Evolves ps s₀ s)
    (hW : Sub [.events, .counters, .sampling, .commands, .journal, .layoutWork, .drivePorts, .out] ps) :
    Evolves ps s₀ (submitRecord r s) := by
  unfold submitRecord
  repeat' first
    | exact Sub.of hW rfl | exact .inl (Sub.of hW rfl) | with_reducible exact .inr rfl
    | exact .inr (FencesStay.refl _) | exact .inr (by dsimp only) | exact .inr rfl
    | with_reducible exact (fun h => h : _ = true → _) | (dsimp only; exact (fun h => h : _ = true → _))
    | exact (fun h => h : _ = true → _)
    | with_reducible first
        | exact hE | apply state_onLay_evolves | apply writeCopies_evolves | apply afterJournal_evolves
        | refine Evolves.ite (fun _ => ?_) (fun _ => ?_)
    | dsimp only | split
    | with_reducible first
        | refine Evolves.fst_of (by assumption) ?_ | refine Evolves.snd_of (by assumption) ?_

theorem onSet_evolves {id : Nat} {f : SetRec → SetRec} {ps : List Part} {s₀ s : State} (hE : Evolves ps s₀ s)
    (hW : Sub [.mapping] ps) :
    Evolves ps s₀ (onSet id f s) := by
  unfold onSet
  repeat' first
    | exact Sub.of hW rfl | exact .inl (Sub.of hW rfl) | with_reducible exact .inr rfl
    | exact .inr (FencesStay.refl _) | exact .inr (by dsimp only) | exact .inr rfl
    | with_reducible exact (fun h => h : _ = true → _) | (dsimp only; exact (fun h => h : _ = true → _))
    | exact (fun h => h : _ = true → _)
    | with_reducible first
        | exact hE | apply state_onLay_evolves
    | dsimp only

theorem sealIfResolved_evolves {id : Nat} {ps : List Part} {s₀ s : State} (hE : Evolves ps s₀ s)
    (hW : Sub [.events, .counters, .sampling, .commands, .mapping, .journal, .layoutWork, .drivePorts, .out] ps) :
    Evolves ps s₀ (sealIfResolved id s) := by
  unfold sealIfResolved
  repeat' first
    | exact Sub.of hW rfl
    | with_reducible first
        | exact hE | apply drvWrite_evolves | apply submitRecord_evolves | apply onSet_evolves
        | refine Evolves.ite (fun _ => ?_) (fun _ => ?_) | refine Evolves.foldl ?_ ?_ | refine Evolves.foldl_fst ?_ ?_
        | refine Evolves.foldl_snd ?_ ?_ | assumption
    | intro _ | dsimp only | split

theorem resolveRows_evolves {id : Nat} {rows : Nat} {ps : List Part} {s₀ s : State} (hE : Evolves ps s₀ s)
    (hW : Sub [.events, .counters, .sampling, .commands, .mapping, .journal, .layoutWork, .drivePorts, .out] ps) :
    Evolves ps s₀ (resolveRows id rows s) := by
  unfold resolveRows
  repeat' first
    | exact Sub.of hW rfl
    | with_reducible first
        | exact hE | apply sealIfResolved_evolves | apply onSet_evolves
    | dsimp only

theorem releaseAllocs_evolves {as : List Alloc} {ps : List Part} {s₀ s : State} (hE : Evolves ps s₀ s)
    (hW : Sub [.events, .counters, .sampling, .commands, .mapping, .journal, .layoutWork, .drivePorts, .out] ps) :
    Evolves ps s₀ (releaseAllocs as s) := by
  unfold releaseAllocs
  repeat' first
    | exact Sub.of hW rfl
    | with_reducible first
        | exact hE | apply resolveRows_evolves | refine Evolves.foldl ?_ ?_ | refine Evolves.foldl_fst ?_ ?_
        | refine Evolves.foldl_snd ?_ ?_ | assumption
    | intro _ | dsimp only

theorem onDrive_evolves {slot : Nat} {f : Drive → Drive} {ps : List Part} {s₀ s : State} (hE : Evolves ps s₀ s)
    (hW : Sub [.mapping] ps) :
    Evolves ps s₀ (onDrive slot f s) := by
  unfold onDrive
  repeat' first
    | exact Sub.of hW rfl | exact .inl (Sub.of hW rfl) | with_reducible exact .inr rfl
    | exact .inr (FencesStay.refl _) | exact .inr (by dsimp only) | exact .inr rfl
    | with_reducible exact (fun h => h : _ = true → _) | (dsimp only; exact (fun h => h : _ = true → _))
    | exact (fun h => h : _ = true → _)
    | with_reducible first
        | exact hE | apply state_onLay_evolves
    | dsimp only

theorem releaseChunk_evolves {m : Member} {ps : List Part} {s₀ s : State} (hE : Evolves ps s₀ s)
    (hW : Sub [.mapping] ps) :
    Evolves ps s₀ (releaseChunk s m) := by
  unfold releaseChunk
  repeat' first
    | exact Sub.of hW rfl
    | with_reducible first
        | exact hE | apply onDrive_evolves
    | dsimp only

theorem takeChunk_evolves {m : Member} {ps : List Part} {s₀ s : State} (hE : Evolves ps s₀ s)
    (hW : Sub [.mapping] ps) :
    Evolves ps s₀ (takeChunk s m) := by
  unfold takeChunk
  repeat' first
    | exact Sub.of hW rfl
    | with_reducible first
        | exact hE | apply onDrive_evolves
    | dsimp only

theorem setRows_evolves {id : Nat} {rows : List (Nat × RowInfo)} {ps : List Part} {s₀ s : State} (hE : Evolves ps s₀ s)
    (hW : Sub [.mapping] ps) :
    Evolves ps s₀ (setRows id rows s) := by
  unfold setRows
  repeat' first
    | exact Sub.of hW rfl
    | with_reducible first
        | exact hE | apply onSet_evolves | refine Evolves.foldl ?_ ?_ | refine Evolves.foldl_fst ?_ ?_
        | refine Evolves.foldl_snd ?_ ?_ | assumption
    | intro _ | dsimp only

theorem startSeal_evolves {id : Nat} {reason : Nat} {ps : List Part} {s₀ s : State} (hE : Evolves ps s₀ s)
    (hW : Sub [.events, .counters, .sampling, .commands, .mapping, .journal, .layoutWork, .drivePorts, .out] ps) :
    Evolves ps s₀ (startSeal id reason s) := by
  unfold startSeal
  repeat' first
    | exact Sub.of hW rfl
    | with_reducible first
        | exact hE | apply sealIfResolved_evolves | apply onSet_evolves
        | refine Evolves.ite (fun _ => ?_) (fun _ => ?_)
    | dsimp only | split

theorem takeRows_evolves {id : Nat} {rows : Nat} {bytes : Nat} {ps : List Part} {s₀ s : State} (hE : Evolves ps s₀ s)
    (hW : Sub [.events, .counters, .sampling, .commands, .mapping, .journal, .layoutWork, .drivePorts, .out] ps) :
    Evolves ps s₀ (takeRows id rows bytes s).1 := by
  unfold takeRows
  repeat' first
    | exact Sub.of hW rfl | exact .inl (Sub.of hW rfl) | with_reducible exact .inr rfl
    | exact .inr (FencesStay.refl _) | exact .inr (by dsimp only) | exact .inr rfl
    | with_reducible exact (fun h => h : _ = true → _) | (dsimp only; exact (fun h => h : _ = true → _))
    | exact (fun h => h : _ = true → _)
    | with_reducible first
        | exact hE | apply state_onLay_evolves | apply onSet_evolves | apply startSeal_evolves
        | refine Evolves.ite (fun _ => ?_) (fun _ => ?_)
    | dsimp only | split

theorem openSet_evolves {nsid : Nat} {ps : List Part} {s₀ s : State} (hE : Evolves ps s₀ s)
    (hW : Sub [.events, .counters, .sampling, .commands, .mapping, .journal, .layoutWork, .drivePorts, .out] ps) :
    Evolves ps s₀ (openSet nsid s).1 := by
  unfold openSet
  repeat' first
    | exact Sub.of hW rfl
    | with_reducible first
        | exact hE | apply startSeal_evolves | apply takeChunk_evolves | apply onSet_evolves
        | apply submitRecord_evolves | refine Evolves.ite (fun _ => ?_) (fun _ => ?_) | refine Evolves.foldl ?_ ?_
        | refine Evolves.foldl_fst ?_ ?_ | refine Evolves.foldl_snd ?_ ?_ | assumption
    | intro _ | dsimp only | split
    | with_reducible first
        | refine Evolves.fst_of (by assumption) ?_ | refine Evolves.snd_of (by assumption) ?_

theorem allocate_evolves {x0 : Nat} {x1 : Nat} {x2 : Nat} {ps : List Part} {s₀ x3 : State} (hE : Evolves ps s₀ x3)
    (hW : Sub [.events, .counters, .sampling, .commands, .mapping, .journal, .layoutWork, .drivePorts, .out] ps) :
    ∀ t a, allocate x0 x1 x2 x3 = .ok (t, a) → Evolves ps s₀ t := by
  induction x0 generalizing x1 x2 x3 with
  | zero => intro t a ht; simp [allocate] at ht
  | succ n ih =>
    intro t a ht
    simp only [allocate] at ht
    split at ht
    · obtain ⟨rfl, rfl⟩ := Prod.mk.inj (Except.ok.inj ht)
      exact hE
    · split at ht
      · split at ht
        · cases ht
        · obtain ⟨rfl, rfl⟩ := Prod.mk.inj (Except.ok.inj ht)
          exact ih (takeRows_evolves hE (Sub.of hW rfl)) _ _ (by assumption)
      · split at ht
        · cases ht
        · exact ih (openSet_evolves hE (Sub.of hW rfl)) _ _ ht

theorem mapPrune_evolves  {ps : List Part} {s₀ s : State} (hE : Evolves ps s₀ s)
    (hW : Sub [.mapping] ps) :
    Evolves ps s₀ (mapPrune s) := by
  unfold mapPrune
  repeat' first
    | exact Sub.of hW rfl | exact .inl (Sub.of hW rfl) | with_reducible exact .inr rfl
    | exact .inr (FencesStay.refl _) | exact .inr (by dsimp only) | exact .inr rfl
    | with_reducible exact (fun h => h : _ = true → _) | (dsimp only; exact (fun h => h : _ = true → _))
    | exact (fun h => h : _ = true → _)
    | with_reducible first
        | exact hE | apply state_onLay_evolves | refine Evolves.ite (fun _ => ?_) (fun _ => ?_)
        | refine Evolves.foldl ?_ ?_ | refine Evolves.foldl_fst ?_ ?_ | refine Evolves.foldl_snd ?_ ?_ | assumption
    | intro _ | dsimp only | split

theorem retire_evolves  {ps : List Part} {s₀ s : State} (hE : Evolves ps s₀ s)
    (hW : Sub [.events, .counters, .sampling, .commands, .journal, .layoutWork] ps) :
    Evolves ps s₀ (retire s) := by
  unfold retire
  repeat' first
    | exact Sub.of hW rfl | exact .inl (Sub.of hW rfl) | with_reducible exact .inr rfl
    | exact .inr (FencesStay.refl _) | exact .inr (by dsimp only) | exact .inr rfl
    | with_reducible exact (fun h => h : _ = true → _) | (dsimp only; exact (fun h => h : _ = true → _))
    | exact (fun h => h : _ = true → _)
    | with_reducible first
        | exact hE | apply journalThresholds_evolves | apply state_onLay_evolves
    | dsimp only

end Sys2Proof.Machine
end

