-- ==== Sys2Proof/Laws/FrameOpsLeash.lean ====
section
/-! SUPPORT. What the operations of Machine/OpsLeash.lean change at most: one lemma each. -/

namespace Sys2Proof.Machine

set_option linter.unusedTactic false
set_option linter.unreachableTactic false
set_option linter.unusedVariables false

theorem state_onRed_evolves {f : Red → Red} {ps : List Part} {s₀ s : State} (hE : Evolves ps s₀ s)
    (h1 : Sub [.leash] ps ∨ ((f s.red).links, (f s.red).recordLink, (f s.red).backlog, (f s.red).backlogSaid, (f s.red).nextEpochUs) =
      (s.red.links, s.red.recordLink, s.red.backlog, s.red.backlogSaid, s.red.nextEpochUs))
    (h2 : Sub [.replicas] ps ∨ ((f s.red).caps, (f s.red).commits, (f s.red).leaves, (f s.red).ctrls, (f s.red).queues, (f s.red).ctx, (f s.red).keys, (f s.red).inQuorum, (f s.red).pend, (f s.red).notices, (f s.red).copied, (f s.red).bulkDone) =
      (s.red.caps, s.red.commits, s.red.leaves, s.red.ctrls, s.red.queues, s.red.ctx, s.red.keys, s.red.inQuorum, s.red.pend, s.red.notices, s.red.copied, s.red.bulkDone))
    (h3 : Sub [.roles] ps ∨ ((f s.red).probing, (f s.red).joinFrom, (f s.red).lastJoinA, (f s.red).outOfStep, (f s.red).takeoverFrom, (f s.red).takeoverCause, (f s.red).failedRole, (f s.red).disputed, (f s.red).order, (f s.red).stations, (f s.red).addrs) =
      (s.red.probing, s.red.joinFrom, s.red.lastJoinA, s.red.outOfStep, s.red.takeoverFrom, s.red.takeoverCause, s.red.failedRole, s.red.disputed, s.red.order, s.red.stations, s.red.addrs)) :
    Evolves ps s₀ (State.onRed s f) := by
  unfold State.onRed
  repeat' first
    | exact h1 | exact h2 | exact h3
    | with_reducible first
        | exact hE
    | dsimp only
    | with_reducible first
        | apply Evolves.redSet

theorem onLeash_evolves {link : Nat} {f : LeashLink → LeashLink} {ps : List Part} {s₀ s : State} (hE : Evolves ps s₀ s)
    (hW : Sub [.leash] ps) :
    Evolves ps s₀ (onLeash link f s) := by
  unfold onLeash
  repeat' first
    | exact Sub.of hW rfl | exact .inl (Sub.of hW rfl) | with_reducible exact .inr rfl
    | exact .inr (FencesStay.refl _) | exact .inr (by dsimp only) | exact .inr rfl
    | with_reducible exact (fun h => h : _ = true → _) | (dsimp only; exact (fun h => h : _ = true → _))
    | exact (fun h => h : _ = true → _)
    | with_reducible first
        | exact hE | apply state_onRed_evolves
    | dsimp only

theorem leashSend_evolves {link : Nat} {epoch : Nat} {f : LeashFrame} {ps : List Part} {s₀ s : State} (hE : Evolves ps s₀ s)
    (hW : Sub [.leash, .out] ps) :
    Evolves ps s₀ (leashSend link epoch f s) := by
  unfold leashSend
  repeat' first
    | exact Sub.of hW rfl
    | with_reducible first
        | exact hE | apply onLeash_evolves | apply state_send_evolves | refine Evolves.ite (fun _ => ?_) (fun _ => ?_)
    | dsimp only | split

theorem sendTo_evolves {r : Nat} {f : LeashFrame} {ps : List Part} {s₀ s : State} (hE : Evolves ps s₀ s)
    (hW : Sub [.leash, .out] ps) :
    Evolves ps s₀ (sendTo r f s) := by
  unfold sendTo
  repeat' first
    | exact Sub.of hW rfl
    | with_reducible first
        | exact hE | apply leashSend_evolves
    | dsimp only

theorem sendNotice_evolves {qpn : Nat} {packets : Nat} {tag : Nat} {p : Packet} {ps : List Part} {s₀ s : State} (hE : Evolves ps s₀ s)
    (hW : Sub [.leash, .out] ps) :
    Evolves ps s₀ (sendNotice qpn packets tag p s) := by
  unfold sendNotice
  repeat' first
    | exact Sub.of hW rfl
    | with_reducible first
        | exact hE | apply sendTo_evolves | refine Evolves.ite (fun _ => ?_) (fun _ => ?_)
        | refine Evolves.foldl ?_ ?_ | refine Evolves.foldl_fst ?_ ?_ | refine Evolves.foldl_snd ?_ ?_ | assumption
    | intro _ | dsimp only | split
    | with_reducible first
        | refine Evolves.fst_of (by assumption) ?_ | refine Evolves.snd_of (by assumption) ?_

theorem noteCommit_evolves {c : CommitRec} {ps : List Part} {s₀ s : State} (hE : Evolves ps s₀ s)
    (hW : Sub [.replicas] ps) :
    Evolves ps s₀ (noteCommit c s) := by
  unfold noteCommit
  repeat' first
    | exact Sub.of hW rfl | exact .inl (Sub.of hW rfl) | with_reducible exact .inr rfl
    | exact .inr (FencesStay.refl _) | exact .inr (by dsimp only) | exact .inr rfl
    | with_reducible exact (fun h => h : _ = true → _) | (dsimp only; exact (fun h => h : _ = true → _))
    | exact (fun h => h : _ = true → _)
    | with_reducible first
        | exact hE | apply state_onRed_evolves | refine Evolves.ite (fun _ => ?_) (fun _ => ?_)
    | dsimp only | split

theorem noteEnded_evolves {c : Capsule} {ps : List Part} {s₀ s : State} (hE : Evolves ps s₀ s)
    (hW : Sub [.replicas] ps) :
    Evolves ps s₀ (noteEnded c s) := by
  unfold noteEnded
  repeat' first
    | exact Sub.of hW rfl
    | with_reducible first
        | exact hE | apply noteCommit_evolves
    | dsimp only

theorem noteCapsule_evolves {c : Capsule} {ps : List Part} {s₀ s : State} (hE : Evolves ps s₀ s)
    (hW : Sub [.replicas] ps) :
    Evolves ps s₀ (noteCapsule c s) := by
  unfold noteCapsule
  repeat' first
    | exact Sub.of hW rfl | exact .inl (Sub.of hW rfl) | with_reducible exact .inr rfl
    | exact .inr (FencesStay.refl _) | exact .inr (by dsimp only) | exact .inr rfl
    | with_reducible exact (fun h => h : _ = true → _) | (dsimp only; exact (fun h => h : _ = true → _))
    | exact (fun h => h : _ = true → _)
    | with_reducible first
        | exact hE | apply state_onRed_evolves | refine Evolves.ite (fun _ => ?_) (fun _ => ?_)
    | dsimp only | split

theorem setRoleBit_evolves {f : Fld} {r : Nat} {b : Bool} {ps : List Part} {s₀ s : State} (hE : Evolves ps s₀ s)
    (hW : Sub [.regs, regPart f.base] ps) :
    Evolves ps s₀ (setRoleBit f r b s) := by
  unfold setRoleBit
  repeat' first
    | exact Sub.of hW rfl | exact hW
    | exact fun p hp => hW p (by simp only [List.mem_cons, List.not_mem_nil, or_false] at hp ⊢; tauto)
    | with_reducible first
        | exact hE | apply state_setFld_evolves
    | dsimp only

theorem queryPartner_evolves {kind : Nat} {slot : Nat} {ps : List Part} {s₀ s : State} (hE : Evolves ps s₀ s)
    (hW : Sub [.leash, .out] ps) :
    Evolves ps s₀ (queryPartner kind slot s) := by
  unfold queryPartner
  repeat' first
    | exact Sub.of hW rfl
    | with_reducible first
        | exact hE | apply sendTo_evolves
    | dsimp only

theorem noteLeaf_evolves {l : Leaf} {ps : List Part} {s₀ s : State} (hE : Evolves ps s₀ s)
    (hW : Sub [.replicas] ps) :
    Evolves ps s₀ (noteLeaf l s) := by
  unfold noteLeaf
  repeat' first
    | exact Sub.of hW rfl | exact .inl (Sub.of hW rfl) | with_reducible exact .inr rfl
    | exact .inr (FencesStay.refl _) | exact .inr (by dsimp only) | exact .inr rfl
    | with_reducible exact (fun h => h : _ = true → _) | (dsimp only; exact (fun h => h : _ = true → _))
    | exact (fun h => h : _ = true → _)
    | with_reducible first
        | exact hE | apply state_onRed_evolves | refine Evolves.ite (fun _ => ?_) (fun _ => ?_)
    | dsimp only | split

theorem sendAll_evolves {f : LeashFrame} {ps : List Part} {s₀ s : State} (hE : Evolves ps s₀ s)
    (hW : Sub [.leash, .out] ps) :
    Evolves ps s₀ (sendAll f s) := by
  unfold sendAll
  repeat' first
    | exact Sub.of hW rfl
    | with_reducible first
        | exact hE | apply leashSend_evolves
    | dsimp only

end Sys2Proof.Machine
end

