-- ==== Sys2Proof/Laws/FrameOpsNet.lean ====
section
/-! SUPPORT. What the operations of Machine/OpsNet.lean change at most: one lemma each. -/

namespace Sys2Proof.Machine

set_option linter.unusedTactic false
set_option linter.unreachableTactic false
set_option linter.unusedVariables false

theorem syncPfc_evolves {lport : Nat} {ps : List Part} {s₀ s : State} (hE : Evolves ps s₀ s)
    (hW : Sub [.regs, .regSwc, .out] ps) :
    Evolves ps s₀ (syncPfc lport s) := by
  unfold syncPfc
  repeat' first
    | exact Sub.of hW rfl
    | with_reducible first
        | exact hE | apply state_send_evolves | apply state_setFldI_evolves
        | refine Evolves.ite (fun _ => ?_) (fun _ => ?_) | refine Evolves.foldl ?_ ?_ | refine Evolves.foldl_fst ?_ ?_
        | refine Evolves.foldl_snd ?_ ?_ | assumption
    | intro _ | dsimp only | split

theorem syncAllPfc_evolves  {ps : List Part} {s₀ s : State} (hE : Evolves ps s₀ s)
    (hW : Sub [.regs, .regSwc, .out] ps) :
    Evolves ps s₀ (syncAllPfc s) := by
  unfold syncAllPfc
  repeat' first
    | exact Sub.of hW rfl
    | with_reducible first
        | exact hE | apply syncPfc_evolves | refine Evolves.foldl ?_ ?_ | refine Evolves.foldl_fst ?_ ?_
        | refine Evolves.foldl_snd ?_ ?_ | assumption
    | intro _ | dsimp only

theorem unsqueeze_evolves  {ps : List Part} {s₀ s : State} (hE : Evolves ps s₀ s)
    (hW : Sub [.buffer, .regs, .regSwc, .out] ps) :
    Evolves ps s₀ (unsqueeze s) := by
  unfold unsqueeze
  repeat' first
    | exact Sub.of hW rfl | exact .inl (Sub.of hW rfl) | with_reducible exact .inr rfl
    | exact .inr (FencesStay.refl _) | exact .inr (by dsimp only) | exact .inr rfl
    | with_reducible exact (fun h => h : _ = true → _) | (dsimp only; exact (fun h => h : _ = true → _))
    | exact (fun h => h : _ = true → _)
    | with_reducible first
        | exact hE | apply syncAllPfc_evolves | apply state_onNet_evolves
        | refine Evolves.ite (fun _ => ?_) (fun _ => ?_)
    | dsimp only | split

theorem setFree_evolves {n : Nat} {ps : List Part} {s₀ s : State} (hE : Evolves ps s₀ s)
    (hW : Sub [.buffer, .regs, .regSwc] ps) :
    Evolves ps s₀ (setFree n s) := by
  unfold setFree
  repeat' first
    | exact Sub.of hW rfl | exact .inl (Sub.of hW rfl) | with_reducible exact .inr rfl
    | exact .inr (FencesStay.refl _) | exact .inr (by dsimp only) | exact .inr rfl
    | with_reducible exact (fun h => h : _ = true → _) | (dsimp only; exact (fun h => h : _ = true → _))
    | exact (fun h => h : _ = true → _)
    | with_reducible first
        | exact hE | apply state_setFld_evolves | apply state_onNet_evolves
        | refine Evolves.ite (fun _ => ?_) (fun _ => ?_)
    | dsimp only | split

theorem releaseCell_evolves {h : Nat} {ps : List Part} {s₀ s : State} (hE : Evolves ps s₀ s)
    (hW : Sub [.buffer, .regs, .regSwc] ps) :
    Evolves ps s₀ (releaseCell h s) := by
  unfold releaseCell
  repeat' first
    | exact Sub.of hW rfl | exact .inl (Sub.of hW rfl) | with_reducible exact .inr rfl
    | exact .inr (FencesStay.refl _) | exact .inr (by dsimp only) | exact .inr rfl
    | with_reducible exact (fun h => h : _ = true → _) | (dsimp only; exact (fun h => h : _ = true → _))
    | exact (fun h => h : _ = true → _)
    | with_reducible first
        | exact hE | apply state_onNet_evolves | apply setFree_evolves
        | refine Evolves.ite (fun _ => ?_) (fun _ => ?_)
    | dsimp only | split

theorem releaseCells_evolves {hs : List Nat} {ps : List Part} {s₀ s : State} (hE : Evolves ps s₀ s)
    (hW : Sub [.buffer, .regs, .regSwc, .out] ps) :
    Evolves ps s₀ (releaseCells hs s) := by
  unfold releaseCells
  repeat' first
    | exact Sub.of hW rfl
    | with_reducible first
        | exact hE | apply unsqueeze_evolves | apply releaseCell_evolves
        | refine Evolves.ite (fun _ => ?_) (fun _ => ?_) | refine Evolves.foldl ?_ ?_ | refine Evolves.foldl_fst ?_ ?_
        | refine Evolves.foldl_snd ?_ ?_ | assumption
    | intro _ | dsimp only | split

theorem police_evolves {i : Nat} {len : Nat} {dei : Bool} {ps : List Part} {s₀ s : State} (hE : Evolves ps s₀ s)
    (hW : Sub [.tables] ps) :
    Evolves ps s₀ (police i len dei s).2 := by
  unfold police
  repeat' first
    | exact Sub.of hW rfl | exact .inl (Sub.of hW rfl) | with_reducible exact .inr rfl
    | exact .inr (FencesStay.refl _) | exact .inr (by dsimp only) | exact .inr rfl
    | with_reducible exact (fun h => h : _ = true → _) | (dsimp only; exact (fun h => h : _ = true → _))
    | exact (fun h => h : _ = true → _)
    | with_reducible first
        | exact hE | apply state_onNet_evolves | refine Evolves.ite (fun _ => ?_) (fun _ => ?_)
    | dsimp only | split
    | with_reducible first
        | refine Evolves.fst_of (by assumption) ?_ | refine Evolves.snd_of (by assumption) ?_

theorem setRxCells_evolves {lport : Nat} {prio : Nat} {n : Nat} {ps : List Part} {s₀ s : State} (hE : Evolves ps s₀ s)
    (hW : Sub [.buffer, .regs, .regSwc, .out] ps) :
    Evolves ps s₀ (setRxCells lport prio n s) := by
  unfold setRxCells
  repeat' first
    | exact Sub.of hW rfl | exact .inl (Sub.of hW rfl) | with_reducible exact .inr rfl
    | exact .inr (FencesStay.refl _) | exact .inr (by dsimp only) | exact .inr rfl
    | with_reducible exact (fun h => h : _ = true → _) | (dsimp only; exact (fun h => h : _ = true → _))
    | exact (fun h => h : _ = true → _)
    | with_reducible first
        | exact hE | apply syncPfc_evolves | apply state_onNet_evolves
        | refine Evolves.ite (fun _ => ?_) (fun _ => ?_)
    | dsimp only | split

theorem uncount_evolves {d : Desc} {ps : List Part} {s₀ s : State} (hE : Evolves ps s₀ s)
    (hW : Sub [.buffer, .regs, .regSwc, .out] ps) :
    Evolves ps s₀ (uncount d s) := by
  unfold uncount
  repeat' first
    | exact Sub.of hW rfl
    | with_reducible first
        | exact hE | apply setRxCells_evolves | refine Evolves.ite (fun _ => ?_) (fun _ => ?_)
    | dsimp only | split

theorem releaseDesc_evolves {d : Desc} {ps : List Part} {s₀ s : State} (hE : Evolves ps s₀ s)
    (hW : Sub [.buffer, .regs, .regSwc, .out] ps) :
    Evolves ps s₀ (releaseDesc d s) := by
  unfold releaseDesc
  repeat' first
    | exact Sub.of hW rfl
    | with_reducible first
        | exact hE | apply releaseCell_evolves | apply unsqueeze_evolves | apply uncount_evolves
        | refine Evolves.foldl ?_ ?_ | refine Evolves.foldl_fst ?_ ?_ | refine Evolves.foldl_snd ?_ ?_ | assumption
    | intro _ | dsimp only | split

theorem popQueue_evolves {q : Nat} {ps : List Part} {s₀ s : State} (hE : Evolves ps s₀ s)
    (hW : Sub [.traffic] ps) :
    Evolves ps s₀ (popQueue q s) := by
  unfold popQueue
  repeat' first
    | exact Sub.of hW rfl | exact .inl (Sub.of hW rfl) | with_reducible exact .inr rfl
    | exact .inr (FencesStay.refl _) | exact .inr (by dsimp only) | exact .inr rfl
    | with_reducible exact (fun h => h : _ = true → _) | (dsimp only; exact (fun h => h : _ = true → _))
    | exact (fun h => h : _ = true → _)
    | with_reducible first
        | exact hE | apply state_onNet_evolves | refine Evolves.ite (fun _ => ?_) (fun _ => ?_)
    | dsimp only | split

theorem startFrame_evolves {lport : Nat} {q : Nat} {ps : List Part} {s₀ s : State} (hE : Evolves ps s₀ s)
    (hW : Sub [.traffic, .out] ps) :
    Evolves ps s₀ (startFrame lport q s) := by
  unfold startFrame
  repeat' first
    | exact Sub.of hW rfl | exact .inl (Sub.of hW rfl) | with_reducible exact .inr rfl
    | exact .inr (FencesStay.refl _) | exact .inr (by dsimp only) | exact .inr rfl
    | with_reducible exact (fun h => h : _ = true → _) | (dsimp only; exact (fun h => h : _ = true → _))
    | exact (fun h => h : _ = true → _)
    | with_reducible first
        | exact hE | apply popQueue_evolves | apply state_send_evolves | apply state_onNet_evolves
    | dsimp only | split
    | with_reducible first
        | refine Evolves.fst_of (by assumption) ?_ | refine Evolves.snd_of (by assumption) ?_

theorem chargeItems_evolves {q : Nat} {node : Nat} {len : Nat} {ps : List Part} {s₀ s : State} (hE : Evolves ps s₀ s)
    (hW : Sub [.traffic] ps) :
    Evolves ps s₀ (chargeItems q node len s) := by
  unfold chargeItems
  repeat' first
    | exact Sub.of hW rfl | exact .inl (Sub.of hW rfl) | with_reducible exact .inr rfl
    | exact .inr (FencesStay.refl _) | exact .inr (by dsimp only) | exact .inr rfl
    | with_reducible exact (fun h => h : _ = true → _) | (dsimp only; exact (fun h => h : _ = true → _))
    | exact (fun h => h : _ = true → _)
    | with_reducible first
        | exact hE | apply state_onNet_evolves
    | dsimp only

theorem selectNext_evolves {lport : Nat} {ps : List Part} {s₀ s : State} (hE : Evolves ps s₀ s)
    (hW : Sub [.traffic, .out] ps) :
    Evolves ps s₀ (selectNext lport s) := by
  unfold selectNext
  repeat' first
    | exact Sub.of hW rfl | exact .inl (Sub.of hW rfl) | with_reducible exact .inr rfl
    | exact .inr (FencesStay.refl _) | exact .inr (by dsimp only) | exact .inr rfl
    | with_reducible exact (fun h => h : _ = true → _) | (dsimp only; exact (fun h => h : _ = true → _))
    | exact (fun h => h : _ = true → _)
    | with_reducible first
        | exact hE | apply startFrame_evolves | apply state_onNet_evolves | apply chargeItems_evolves
        | refine Evolves.ite (fun _ => ?_) (fun _ => ?_)
    | dsimp only | split
    | with_reducible first
        | refine Evolves.fst_of (by assumption) ?_ | refine Evolves.snd_of (by assumption) ?_

theorem handleStale_evolves {owner : Nat} {h : Nat} {ps : List Part} {s₀ s : State} (hE : Evolves ps s₀ s)
    (hW : Sub [.events, .counters, .sampling, .regs, .regSwc] ps) :
    Evolves ps s₀ (handleStale owner h s) := by
  unfold handleStale
  repeat' first
    | exact Sub.of hW rfl
    | with_reducible first
        | exact hE | apply emit_evolves | apply state_bump_evolves
    | dsimp only

theorem cleanHead_evolves {lport : Nat} {q : Nat} {x2 : Nat} {ps : List Part} {s₀ x3 : State} (hE : Evolves ps s₀ x3)
    (hW : Sub [.events, .counters, .sampling, .buffer, .traffic, .regs, .regSwc, .regTmg, .out] ps) :
    Evolves ps s₀ (cleanHead lport q x2 x3) := by
  induction x2 generalizing x3 with
  | zero => exact hE
  | succ n ih =>
    unfold cleanHead
    repeat' first
      | with_reducible exact hE
      | exact Sub.of hW rfl
      | exact .inl (Sub.of hW rfl)
      | with_reducible exact .inr rfl
      | exact .inr (by dsimp only)
      | exact .inr rfl
      | (dsimp only; exact (fun h => h : _ = true → _))
      | exact (fun h => h : _ = true → _)
      | with_reducible exact hW
      | exact List.prefix_append _ _
      | with_reducible apply ih
      | with_reducible apply handleStale_evolves
      | with_reducible apply countOnly_evolves
      | with_reducible apply releaseDesc_evolves
      | with_reducible apply popQueue_evolves
      | with_reducible apply state_bumpI_evolves
      | with_reducible refine Evolves.ite (fun _ => ?_) (fun _ => ?_)
      | with_reducible refine Evolves.foldl ?_ ?_
      | intro _
      | dsimp only
      | split
      | with_reducible assumption

theorem kick_evolves {lport : Nat} {ps : List Part} {s₀ s : State} (hE : Evolves ps s₀ s)
    (hW : Sub [.events, .counters, .sampling, .buffer, .traffic, .regs, .regSwc, .regTmg, .out] ps) :
    Evolves ps s₀ (kick lport s) := by
  unfold kick
  repeat' first
    | exact Sub.of hW rfl
    | with_reducible first
        | exact hE | apply selectNext_evolves | apply cleanHead_evolves
        | refine Evolves.ite (fun _ => ?_) (fun _ => ?_) | refine Evolves.foldl ?_ ?_ | refine Evolves.foldl_fst ?_ ?_
        | refine Evolves.foldl_snd ?_ ?_ | assumption
    | intro _ | dsimp only | split

theorem giveCell_evolves {owner : Nat} {refs : Nat} {h : Nat} {ps : List Part} {s₀ s : State} (hE : Evolves ps s₀ s)
    (hW : Sub [.buffer] ps) :
    Evolves ps s₀ (giveCell owner refs h s) := by
  unfold giveCell
  repeat' first
    | exact Sub.of hW rfl | exact .inl (Sub.of hW rfl) | with_reducible exact .inr rfl
    | exact .inr (FencesStay.refl _) | exact .inr (by dsimp only) | exact .inr rfl
    | with_reducible exact (fun h => h : _ = true → _) | (dsimp only; exact (fun h => h : _ = true → _))
    | exact (fun h => h : _ = true → _)
    | with_reducible first
        | exact hE | apply state_onNet_evolves
    | dsimp only

theorem allocCell_evolves {port : Nat} {owner : Nat} {refs : Nat} {ps : List Part} {s₀ s : State} (hE : Evolves ps s₀ s)
    (hW : Sub [.buffer, .regs, .regSwc] ps) :
    ∀ a t, allocCell port owner refs s = some (a, t) → Evolves ps s₀ t := by
  intro a t ht
  unfold allocCell at ht
  repeat' first
    | contradiction
    | (with_reducible obtain rfl := Option.some.inj ht)
    | (with_reducible obtain ⟨rfl, rfl⟩ := Prod.mk.inj (Option.some.inj ht))
    | (with_reducible obtain ⟨rfl, rfl⟩ := Prod.mk.inj (Except.ok.inj ht))
    | dsimp only at ht
    | split at ht
  all_goals
    repeat' first
      | exact Sub.of hW rfl | exact .inl (Sub.of hW rfl) | with_reducible exact .inr rfl
      | exact .inr (FencesStay.refl _) | exact .inr (by dsimp only) | exact .inr rfl
      | with_reducible exact (fun h => h : _ = true → _) | (dsimp only; exact (fun h => h : _ = true → _))
      | exact (fun h => h : _ = true → _)
      | with_reducible first
          | exact hE | apply state_onNet_evolves | apply setFree_evolves
      | dsimp only | split
      | with_reducible first
          | refine Evolves.fst_of (by assumption) ?_ | refine Evolves.snd_of (by assumption) ?_

theorem allocChain_evolves {port : Nat} {owner : Nat} {refs : Nat} {x3 : Nat} {ps : List Part} {s₀ x4 : State} (hE : Evolves ps s₀ x4)
    (hW : Sub [.buffer, .regs, .regSwc] ps) :
    ∀ a t, allocChain port owner refs x3 x4 = some (a, t) → Evolves ps s₀ t := by
  induction x3 generalizing x4 with
  | zero =>
    intro a t ht
    simp only [allocChain, Option.some.injEq, Prod.mk.injEq] at ht
    exact ht.2 ▸ hE
  | succ n ih =>
    intro a t ht
    simp only [allocChain] at ht
    split at ht
    · cases ht
    · obtain ⟨r, hr, hrt⟩ := Option.map_eq_some_iff.mp ht
      obtain ⟨-, rfl⟩ := Prod.mk.inj hrt
      exact ih (allocCell_evolves hE (Sub.of hW rfl) _ _ (by assumption)) _ _ hr

theorem holdCells_evolves {port : Nat} {owner : Nat} {n : Nat} {ps : List Part} {s₀ s : State} (hE : Evolves ps s₀ s)
    (hW : Sub [.buffer, .regs, .regSwc] ps) :
    Evolves ps s₀ (holdCells port owner n s).2 := by
  unfold holdCells
  cases h : allocChain port owner 1 n s with
  | none => exact hE
  | some r => exact allocChain_evolves hE (Sub.of hW rfl) r.1 r.2 h

theorem onGates_evolves {lport : Nat} {f : Gates → Gates} {ps : List Part} {s₀ s : State} (hE : Evolves ps s₀ s)
    (hW : Sub [.traffic] ps) :
    Evolves ps s₀ (onGates lport f s) := by
  unfold onGates
  repeat' first
    | exact Sub.of hW rfl | exact .inl (Sub.of hW rfl) | with_reducible exact .inr rfl
    | exact .inr (FencesStay.refl _) | exact .inr (by dsimp only) | exact .inr rfl
    | with_reducible exact (fun h => h : _ = true → _) | (dsimp only; exact (fun h => h : _ = true → _))
    | exact (fun h => h : _ = true → _)
    | with_reducible first
        | exact hE | apply state_onNet_evolves
    | dsimp only

theorem stompLine_evolves {lport : Nat} {ps : List Part} {s₀ s : State} (hE : Evolves ps s₀ s)
    (hW : Sub [.counters, .sampling, .traffic, .regs, .regSwc] ps) :
    Evolves ps s₀ (stompLine lport s) := by
  unfold stompLine
  repeat' first
    | exact Sub.of hW rfl | exact .inl (Sub.of hW rfl) | with_reducible exact .inr rfl
    | exact .inr (FencesStay.refl _) | exact .inr (by dsimp only) | exact .inr rfl
    | with_reducible exact (fun h => h : _ = true → _) | (dsimp only; exact (fun h => h : _ = true → _))
    | exact (fun h => h : _ = true → _)
    | with_reducible first
        | exact hE | apply countOnly_evolves | apply state_bumpI_evolves | apply state_onNet_evolves
        | refine Evolves.ite (fun _ => ?_) (fun _ => ?_)
    | dsimp only | split
    | with_reducible first
        | refine Evolves.fst_of (by assumption) ?_ | refine Evolves.snd_of (by assumption) ?_

theorem bankFenced_evolves {bank : Nat} {ps : List Part} {s₀ s : State} (hE : Evolves ps s₀ s)
    (hW : Sub [.counters, .sampling, .buffer, .traffic, .regs, .regSwc] ps) :
    Evolves ps s₀ (bankFenced bank s) := by
  unfold bankFenced
  repeat' first
    | exact Sub.of hW rfl
    | with_reducible first
        | exact hE | apply setFree_evolves | apply stompLine_evolves | refine Evolves.ite (fun _ => ?_) (fun _ => ?_)
        | refine Evolves.foldl ?_ ?_ | refine Evolves.foldl_fst ?_ ?_ | refine Evolves.foldl_snd ?_ ?_ | assumption
    | intro _ | dsimp only | split
    | with_reducible first
        | refine Evolves.fst_of (by assumption) ?_ | refine Evolves.snd_of (by assumption) ?_

theorem squeeze_evolves  {ps : List Part} {s₀ s : State} (hE : Evolves ps s₀ s)
    (hW : Sub [.buffer, .regs, .regSwc, .out] ps) :
    Evolves ps s₀ (squeeze s) := by
  unfold squeeze
  repeat' first
    | exact Sub.of hW rfl | exact .inl (Sub.of hW rfl) | with_reducible exact .inr rfl
    | exact .inr (FencesStay.refl _) | exact .inr (by dsimp only) | exact .inr rfl
    | with_reducible exact (fun h => h : _ = true → _) | (dsimp only; exact (fun h => h : _ = true → _))
    | exact (fun h => h : _ = true → _)
    | with_reducible first
        | exact hE | apply syncAllPfc_evolves | apply state_onNet_evolves
        | refine Evolves.ite (fun _ => ?_) (fun _ => ?_)
    | dsimp only | split

theorem serveC0_evolves {x0 : Nat} {ps : List Part} {s₀ x1 : State} (hE : Evolves ps s₀ x1)
    (hW : Sub [.buffer, .regs, .regSwc, .out] ps) :
    Evolves ps s₀ (serveC0 x0 x1) := by
  induction x0 generalizing x1 with
  | zero => exact hE
  | succ n ih =>
    unfold serveC0
    repeat' first
      | with_reducible exact hE
      | exact Sub.of hW rfl
      | exact .inl (Sub.of hW rfl)
      | with_reducible exact .inr rfl
      | exact .inr (by dsimp only)
      | exact .inr rfl
      | (dsimp only; exact (fun h => h : _ = true → _))
      | exact (fun h => h : _ = true → _)
      | with_reducible exact hW
      | exact List.prefix_append _ _
      | with_reducible apply ih
      | with_reducible apply state_onNet_evolves
      | with_reducible apply state_send_evolves
      | with_reducible apply giveCell_evolves
      | with_reducible apply releaseCell_evolves
      | with_reducible refine Evolves.ite (fun _ => ?_) (fun _ => ?_)
      | with_reducible refine Evolves.foldl ?_ ?_
      | with_reducible refine allocChain_evolves ?_ (Sub.of hW rfl) _ _ (by assumption)
      | intro _
      | dsimp only
      | split
      | with_reducible assumption

end Sys2Proof.Machine
end

