-- ==== Sys2Proof/Laws/FrameWire.lean ====
section
/-! SUPPORT. What the operations of Machine/Wire.lean change at most: one lemma each. -/

namespace Sys2Proof.Machine

set_option linter.unusedTactic false
set_option linter.unreachableTactic false
set_option linter.unusedVariables false

theorem sendPacket_evolves {qpn : Nat} {p : Packet} {ps : List Part} {s₀ s : State} (hE : Evolves ps s₀ s)
    (hW : Sub [.out] ps) :
    Evolves ps s₀ (sendPacket qpn p s) := by
  unfold sendPacket
  repeat' first
    | exact Sub.of hW rfl
    | with_reducible first
        | exact hE | apply state_send_evolves | refine Evolves.ite (fun _ => ?_) (fun _ => ?_)
    | dsimp only | split

end Sys2Proof.Machine
end

