-- ==== Sys2Proof/Laws/FrameOpsXpt.lean ====
section
/-! SUPPORT. What the operations of Machine/OpsXpt.lean change at most: one lemma each. -/

namespace Sys2Proof.Machine

set_option linter.unusedTactic false
set_option linter.unreachableTactic false
set_option linter.unusedVariables false

theorem onCtx_evolves {qpn : Nat} {f : Context → Context} {ps : List Part} {s₀ s : State} (hE : Evolves ps s₀ s)
    (hW : Sub [.contexts] ps) :
    Evolves ps s₀ (onCtx qpn f s) := by
  unfold onCtx
  repeat' first
    | exact Sub.of hW rfl | exact .inl (Sub.of hW rfl) | with_reducible exact .inr rfl
    | exact .inr (FencesStay.refl _) | exact .inr (by dsimp only) | exact .inr rfl
    | with_reducible exact (fun h => h : _ = true → _) | (dsimp only; exact (fun h => h : _ = true → _))
    | exact (fun h => h : _ = true → _)
    | with_reducible first
        | exact hE | apply state_onXpt_evolves
    | dsimp only

theorem chargePace_evolves {qpn : Nat} {data : Bool} {lens : List Nat} {ps : List Part} {s₀ s : State} (hE : Evolves ps s₀ s)
    (hW : Sub [.contexts] ps) :
    Evolves ps s₀ (chargePace qpn data lens s) := by
  unfold chargePace
  repeat' first
    | exact Sub.of hW rfl
    | with_reducible first
        | exact hE | apply onCtx_evolves | refine Evolves.ite (fun _ => ?_) (fun _ => ?_)
    | dsimp only | split

theorem startSample_evolves {qpn : Nat} {x : Posted} {ps : List Part} {s₀ s : State} (hE : Evolves ps s₀ s)
    (hW : Sub [.contexts] ps) :
    Evolves ps s₀ (startSample qpn x s) := by
  unfold startSample
  repeat' first
    | exact Sub.of hW rfl
    | with_reducible first
        | exact hE | apply onCtx_evolves | refine Evolves.ite (fun _ => ?_) (fun _ => ?_)
    | dsimp only | split

theorem sendPart_evolves {qpn : Nat} {n : Nat} {ps : List Part} {s₀ s : State} (hE : Evolves ps s₀ s)
    (hW : Sub [.contexts, .out] ps) :
    Evolves ps s₀ (sendPart qpn n s) := by
  unfold sendPart
  repeat' first
    | exact Sub.of hW rfl
    | with_reducible first
        | exact hE | apply chargePace_evolves | apply state_send_evolves | apply onCtx_evolves
        | apply startSample_evolves | refine Evolves.ite (fun _ => ?_) (fun _ => ?_)
    | dsimp only | split
    | with_reducible first
        | refine Evolves.fst_of (by assumption) ?_ | refine Evolves.snd_of (by assumption) ?_

theorem takePsns_evolves {qpn : Nat} {n : Nat} {tag : Nat} {p : Packet} {ps : List Part} {s₀ s : State} (hE : Evolves ps s₀ s)
    (hW : Sub [.contexts] ps) :
    Evolves ps s₀ (takePsns qpn n tag p s) := by
  unfold takePsns
  repeat' first
    | exact Sub.of hW rfl
    | with_reducible first
        | exact hE | apply onCtx_evolves | refine Evolves.ite (fun _ => ?_) (fun _ => ?_)
    | dsimp only | split

theorem beginMessage_evolves {qpn : Nat} {x : Posted} {ps : List Part} {s₀ s : State} (hE : Evolves ps s₀ s)
    (hW : Sub [.contexts, .leash, .out] ps) :
    Evolves ps s₀ (beginMessage qpn x s) := by
  unfold beginMessage
  repeat' first
    | exact Sub.of hW rfl
    | with_reducible first
        | exact hE | apply takePsns_evolves | apply sendNotice_evolves | apply onCtx_evolves
        | refine Evolves.ite (fun _ => ?_) (fun _ => ?_)
    | dsimp only | split

theorem pumpMany_evolves {x0 : Nat} {x1 : Nat} {ps : List Part} {s₀ x2 : State} (hE : Evolves ps s₀ x2)
    (hW : Sub [.contexts, .leash, .out] ps) :
    Evolves ps s₀ (pumpMany x0 x1 x2) := by
  induction x0 generalizing x2 with
  | zero => exact hE
  | succ n ih =>
    unfold pumpMany
    repeat' first
      | with_reducible exact hE
      | exact Sub.of hW rfl
      | exact .inl (Sub.of hW rfl)
      | with_reducible exact .inr rfl
      | exact .inr (by dsimp only)
      | exact .inr rfl
      | (dsimp only; exact (fun h => h : _ = true → _))
      | exact (fun h => h : _ = true → _)
      | with_reducible exact hW
      | exact List.prefix_append _ _
      | with_reducible apply ih
      | with_reducible apply sendPart_evolves
      | with_reducible apply beginMessage_evolves
      | with_reducible refine Evolves.ite (fun _ => ?_) (fun _ => ?_)
      | with_reducible refine Evolves.foldl ?_ ?_
      | intro _
      | dsimp only
      | split
      | with_reducible assumption

theorem pump_evolves {qpn : Nat} {ps : List Part} {s₀ s : State} (hE : Evolves ps s₀ s)
    (hW : Sub [.contexts, .leash, .out] ps) :
    Evolves ps s₀ (pump qpn s) := by
  unfold pump
  repeat' first
    | exact Sub.of hW rfl
    | with_reducible first
        | exact hE | apply pumpMany_evolves
    | dsimp only

theorem resumeMany_evolves {x0 : Nat} {x1 : Nat} {ps : List Part} {s₀ x2 : State} (hE : Evolves ps s₀ x2)
    (hW : Sub [.contexts, .out] ps) :
    Evolves ps s₀ (resumeMany x0 x1 x2) := by
  induction x0 generalizing x2 with
  | zero => exact hE
  | succ n ih =>
    unfold resumeMany
    repeat' first
      | with_reducible exact hE
      | exact Sub.of hW rfl
      | exact .inl (Sub.of hW rfl)
      | with_reducible exact .inr rfl
      | exact .inr (by dsimp only)
      | exact .inr rfl
      | (dsimp only; exact (fun h => h : _ = true → _))
      | exact (fun h => h : _ = true → _)
      | with_reducible exact hW
      | exact List.prefix_append _ _
      | with_reducible apply ih
      | with_reducible apply onCtx_evolves
      | with_reducible apply sendPacket_evolves
      | with_reducible refine Evolves.ite (fun _ => ?_) (fun _ => ?_)
      | with_reducible refine Evolves.foldl ?_ ?_
      | intro _
      | dsimp only
      | split
      | with_reducible assumption

theorem resumeSends_evolves {qpn : Nat} {ps : List Part} {s₀ s : State} (hE : Evolves ps s₀ s)
    (hW : Sub [.contexts, .out] ps) :
    Evolves ps s₀ (resumeSends qpn s) := by
  unfold resumeSends
  repeat' first
    | exact Sub.of hW rfl
    | with_reducible first
        | exact hE | apply resumeMany_evolves
    | dsimp only

theorem sendNoticed_evolves {qpn : Nat} {tag : Nat} {p : Packet} {n : Notice} {ps : List Part} {s₀ s : State} (hE : Evolves ps s₀ s)
    (hW : Sub [.contexts, .replicas, .out] ps) :
    Evolves ps s₀ (sendNoticed qpn tag p n s) := by
  unfold sendNoticed
  repeat' first
    | exact Sub.of hW rfl | exact .inl (Sub.of hW rfl) | with_reducible exact .inr rfl
    | exact .inr (FencesStay.refl _) | exact .inr (by dsimp only) | exact .inr rfl
    | with_reducible exact (fun h => h : _ = true → _) | (dsimp only; exact (fun h => h : _ = true → _))
    | exact (fun h => h : _ = true → _)
    | with_reducible first
        | exact hE | apply state_onRed_evolves | apply onCtx_evolves | apply resumeSends_evolves
        | refine Evolves.ite (fun _ => ?_) (fun _ => ?_)
    | dsimp only | split

theorem postWork_evolves {qpn : Nat} {x : Posted} {ps : List Part} {s₀ s : State} (hE : Evolves ps s₀ s)
    (hW : Sub [.contexts, .leash, .out] ps) :
    Evolves ps s₀ (postWork qpn x s) := by
  unfold postWork
  repeat' first
    | exact Sub.of hW rfl
    | with_reducible first
        | exact hE | apply pump_evolves | apply onCtx_evolves
    | dsimp only

theorem sendMessage_evolves {qpn : Nat} {len : Nat} {tag : Nat} {p : Packet} {ps : List Part} {s₀ s : State} (hE : Evolves ps s₀ s)
    (hW : Sub [.contexts, .leash, .replicas, .out] ps) :
    Evolves ps s₀ (sendMessage qpn len tag p s) := by
  unfold sendMessage
  repeat' first
    | exact Sub.of hW rfl
    | with_reducible first
        | exact hE | apply pump_evolves | apply sendNoticed_evolves | apply postWork_evolves
    | dsimp only | split
    | with_reducible first
        | refine Evolves.fst_of (by assumption) ?_ | refine Evolves.snd_of (by assumption) ?_

theorem sendResponse_evolves {qpn : Nat} {cid : Nat} {st : Status} {dw0 : Nat} {inv : Option Nat} {ps : List Part} {s₀ s : State} (hE : Evolves ps s₀ s)
    (hW : Sub [.contexts, .leash, .replicas, .out] ps) :
    Evolves ps s₀ (sendResponse qpn cid st dw0 inv s) := by
  unfold sendResponse
  repeat' first
    | exact Sub.of hW rfl
    | with_reducible first
        | exact hE | apply sendMessage_evolves
    | dsimp only

theorem forgetEntry_evolves {i : Nat} {answered : Bool} {ps : List Part} {s₀ s : State} (hE : Evolves ps s₀ s)
    (hW : Sub [.contexts] ps) :
    Evolves ps s₀ (forgetEntry i answered s) := by
  unfold forgetEntry
  repeat' first
    | exact Sub.of hW rfl | exact .inl (Sub.of hW rfl) | with_reducible exact .inr rfl
    | exact .inr (FencesStay.refl _) | exact .inr (by dsimp only) | exact .inr rfl
    | with_reducible exact (fun h => h : _ = true → _) | (dsimp only; exact (fun h => h : _ = true → _))
    | exact (fun h => h : _ = true → _)
    | with_reducible first
        | exact hE | apply state_onXpt_evolves
    | dsimp only

theorem sendSend_evolves {qpn : Nat} {payload : Bytes} {imm : Option Nat} {inv : Option Nat} {ps : List Part} {s₀ s : State} (hE : Evolves ps s₀ s)
    (hW : Sub [.contexts, .leash, .replicas, .out] ps) :
    Evolves ps s₀ (sendSend qpn payload imm inv s) := by
  unfold sendSend
  repeat' first
    | exact Sub.of hW rfl
    | with_reducible first
        | exact hE | apply sendMessage_evolves
    | dsimp only

theorem onRegion_evolves {i : Nat} {f : Region → Region} {ps : List Part} {s₀ s : State} (hE : Evolves ps s₀ s)
    (hW : Sub [.regions] ps) :
    Evolves ps s₀ (onRegion i f s) := by
  unfold onRegion
  repeat' first
    | exact Sub.of hW rfl | exact .inl (Sub.of hW rfl) | with_reducible exact .inr rfl
    | exact .inr (FencesStay.refl _) | exact .inr (by dsimp only) | exact .inr rfl
    | with_reducible exact (fun h => h : _ = true → _) | (dsimp only; exact (fun h => h : _ = true → _))
    | exact (fun h => h : _ = true → _)
    | with_reducible first
        | exact hE | apply state_onXpt_evolves
    | dsimp only

theorem finishInvalidation_evolves {i : Nat} {ps : List Part} {s₀ s : State} (hE : Evolves ps s₀ s)
    (hW : Sub [.events, .counters, .sampling, .contextCache, .regions] ps) :
    Evolves ps s₀ (finishInvalidation i s) := by
  unfold finishInvalidation
  repeat' first
    | exact Sub.of hW rfl | exact .inl (Sub.of hW rfl) | with_reducible exact .inr rfl
    | exact .inr (FencesStay.refl _) | exact .inr (by dsimp only) | exact .inr rfl
    | with_reducible exact (fun h => h : _ = true → _) | (dsimp only; exact (fun h => h : _ = true → _))
    | exact (fun h => h : _ = true → _)
    | with_reducible first
        | exact hE | apply onRegion_evolves | apply state_onXpt_evolves | apply emit_evolves
        | refine Evolves.ite (fun _ => ?_) (fun _ => ?_)
    | dsimp only | split

theorem endStraddle_evolves {i : Nat} {qpn : Nat} {ps : List Part} {s₀ s : State} (hE : Evolves ps s₀ s)
    (hW : Sub [.events, .counters, .sampling, .contextCache, .regions] ps) :
    Evolves ps s₀ (endStraddle i qpn s) := by
  unfold endStraddle
  repeat' first
    | exact Sub.of hW rfl
    | with_reducible first
        | exact hE | apply finishInvalidation_evolves | apply onRegion_evolves
        | refine Evolves.ite (fun _ => ?_) (fun _ => ?_)
    | dsimp only | split

theorem endStraddles_evolves {qpn : Nat} {ps : List Part} {s₀ s : State} (hE : Evolves ps s₀ s)
    (hW : Sub [.events, .counters, .sampling, .contextCache, .regions] ps) :
    Evolves ps s₀ (endStraddles qpn s) := by
  unfold endStraddles
  repeat' first
    | exact Sub.of hW rfl
    | with_reducible first
        | exact hE | apply endStraddle_evolves | refine Evolves.foldl ?_ ?_ | refine Evolves.foldl_fst ?_ ?_
        | refine Evolves.foldl_snd ?_ ?_ | assumption
    | intro _ | dsimp only

theorem freeContext_evolves {qpn : Nat} {ps : List Part} {s₀ s : State} (hE : Evolves ps s₀ s)
    (hW : Sub [.contexts, .contextCache] ps) :
    Evolves ps s₀ (freeContext qpn s) := by
  unfold freeContext
  repeat' first
    | exact Sub.of hW rfl | exact .inl (Sub.of hW rfl) | with_reducible exact .inr rfl
    | exact .inr (FencesStay.refl _) | exact .inr (by dsimp only) | exact .inr rfl
    | with_reducible exact (fun h => h : _ = true → _) | (dsimp only; exact (fun h => h : _ = true → _))
    | exact (fun h => h : _ = true → _)
    | with_reducible first
        | exact hE | apply state_onXpt_evolves
    | dsimp only

theorem drainedFree_evolves {qpn : Nat} {ps : List Part} {s₀ s : State} (hE : Evolves ps s₀ s)
    (hW : Sub [.events, .counters, .sampling, .contexts, .contextCache, .regions, .out] ps) :
    Evolves ps s₀ (drainedFree qpn s) := by
  unfold drainedFree
  repeat' first
    | exact Sub.of hW rfl
    | with_reducible first
        | exact hE | apply freeContext_evolves | apply endStraddles_evolves | apply state_send_evolves
    | dsimp only

theorem localDisconnect_evolves {qpn : Nat} {ps : List Part} {s₀ s : State} (hE : Evolves ps s₀ s)
    (hW : Sub [.events, .counters, .sampling, .contexts, .contextCache, .regions, .out] ps) :
    Evolves ps s₀ (localDisconnect qpn s) := by
  unfold localDisconnect
  repeat' first
    | exact Sub.of hW rfl
    | with_reducible first
        | exact hE | apply onCtx_evolves | apply drainedFree_evolves | refine Evolves.ite (fun _ => ?_) (fun _ => ?_)
    | dsimp only | split

theorem sayRateMin_evolves {qpn : Nat} {old : Nat} {ps : List Part} {s₀ s : State} (hE : Evolves ps s₀ s)
    (hW : Sub [.events, .counters, .sampling, .contexts] ps) :
    Evolves ps s₀ (sayRateMin qpn old s) := by
  unfold sayRateMin
  repeat' first
    | exact Sub.of hW rfl
    | with_reducible first
        | exact hE | apply emit_evolves | apply onCtx_evolves | refine Evolves.ite (fun _ => ?_) (fun _ => ?_)
    | dsimp only | split

theorem onSample_evolves {qpn : Nat} {smp : Nat} {portRate : Nat} {ps : List Part} {s₀ s : State} (hE : Evolves ps s₀ s)
    (hW : Sub [.events, .counters, .sampling, .contexts] ps) :
    Evolves ps s₀ (onSample qpn smp portRate s) := by
  unfold onSample
  repeat' first
    | exact Sub.of hW rfl
    | with_reducible first
        | exact hE | apply onCtx_evolves | apply sayRateMin_evolves | refine Evolves.ite (fun _ => ?_) (fun _ => ?_)
    | dsimp only | split

theorem hbmWrite_evolves {base : Nat} {data : Bytes} {ps : List Part} {s₀ s : State} (hE : Evolves ps s₀ s)
    (hW : Sub [.hbm] ps) :
    Evolves ps s₀ (hbmWrite base data s) := by
  unfold hbmWrite
  repeat' first
    | exact Sub.of hW rfl
    | exact fun h => foldl_keeps (P := fun t : Tab Byte => t.wf = true) (fun _ _ h => by split <;> first | exact Tab.wf_put h _ _ | exact h) _ _ h
    | exact .inl (Sub.of hW rfl) | with_reducible exact .inr rfl | exact .inr (FencesStay.refl _)
    | exact .inr (by dsimp only) | exact .inr rfl | with_reducible exact (fun h => h : _ = true → _)
    | (dsimp only; exact (fun h => h : _ = true → _)) | exact (fun h => h : _ = true → _)
    | with_reducible first
        | exact hE | apply state_onXpt_evolves | refine Evolves.ite (fun _ => ?_) (fun _ => ?_)
        | refine Evolves.foldl ?_ ?_ | refine Evolves.foldl_fst ?_ ?_ | refine Evolves.foldl_snd ?_ ?_ | assumption
    | intro _ | dsimp only | split

theorem sendWrite_evolves {qpn : Nat} {va : Nat} {rkey : Nat} {tag : Nat} {data : Bytes} {imm : Option Nat} {ps : List Part} {s₀ s : State} (hE : Evolves ps s₀ s)
    (hW : Sub [.contexts, .leash, .replicas, .out] ps) :
    Evolves ps s₀ (sendWrite qpn va rkey tag data imm s) := by
  unfold sendWrite
  repeat' first
    | exact Sub.of hW rfl
    | with_reducible first
        | exact hE | apply sendMessage_evolves
    | dsimp only

theorem raiseHwm_evolves  {ps : List Part} {s₀ s : State} (hE : Evolves ps s₀ s)
    (hW : Sub [.regs, .regXpt] ps) :
    Evolves ps s₀ (raiseHwm s) := by
  unfold raiseHwm
  repeat' first
    | exact Sub.of hW rfl
    | with_reducible first
        | exact hE | apply state_setFld_evolves | refine Evolves.ite (fun _ => ?_) (fun _ => ?_)
    | dsimp only | split

theorem sendAck_evolves {qpn : Nat} {ps : List Part} {s₀ s : State} (hE : Evolves ps s₀ s)
    (hW : Sub [.contexts, .out] ps) :
    Evolves ps s₀ (sendAck qpn s) := by
  unfold sendAck
  repeat' first
    | exact Sub.of hW rfl
    | with_reducible first
        | exact hE | apply onCtx_evolves | apply sendPacket_evolves | refine Evolves.ite (fun _ => ?_) (fun _ => ?_)
    | dsimp only | split

theorem duplicate_evolves {qpn : Nat} {ps : List Part} {s₀ s : State} (hE : Evolves ps s₀ s)
    (hW : Sub [.events, .counters, .sampling, .contexts, .out] ps) :
    Evolves ps s₀ (duplicate qpn s) := by
  unfold duplicate
  repeat' first
    | exact Sub.of hW rfl
    | with_reducible first
        | exact hE | apply sendAck_evolves | apply emit_evolves
    | dsimp only

theorem issueRead_evolves {qpn : Nat} {va : Nat} {rkey : Nat} {len : Nat} {tag : Nat} {ps : List Part} {s₀ s : State} (hE : Evolves ps s₀ s)
    (hW : Sub [.contexts, .leash, .replicas, .out] ps) :
    Evolves ps s₀ (issueRead qpn va rkey len tag s) := by
  unfold issueRead
  repeat' first
    | exact Sub.of hW rfl
    | with_reducible first
        | exact hE | apply sendMessage_evolves
    | dsimp only

theorem issueReads_evolves {x0 : Nat} {x1 : Nat} {x2 : Nat} {x3 : Nat} {x4 : Nat} {x5 : Nat} {ps : List Part} {s₀ x6 : State} (hE : Evolves ps s₀ x6)
    (hW : Sub [.contexts, .leash, .replicas, .out] ps) :
    Evolves ps s₀ (issueReads x0 x1 x2 x3 x4 x5 x6) := by
  induction x0 generalizing x1 x2 x3 x4 x5 x6 with
  | zero => exact hE
  | succ n ih =>
    unfold issueReads
    repeat' first
      | with_reducible exact hE
      | exact Sub.of hW rfl
      | exact .inl (Sub.of hW rfl)
      | with_reducible exact .inr rfl
      | exact .inr (by dsimp only)
      | exact .inr rfl
      | (dsimp only; exact (fun h => h : _ = true → _))
      | exact (fun h => h : _ = true → _)
      | with_reducible exact hW
      | exact List.prefix_append _ _
      | with_reducible apply ih
      | with_reducible apply issueRead_evolves
      | with_reducible refine Evolves.ite (fun _ => ?_) (fun _ => ?_)
      | with_reducible refine Evolves.foldl ?_ ?_
      | intro _
      | dsimp only
      | split
      | with_reducible assumption

theorem startInvalidation_evolves {i : Nat} {byCtrl : Bool} {ps : List Part} {s₀ s : State} (hE : Evolves ps s₀ s)
    (hW : Sub [.events, .counters, .sampling, .contextCache, .regions, .regs, .regXpt] ps) :
    Evolves ps s₀ (startInvalidation i byCtrl s) := by
  unfold startInvalidation
  repeat' first
    | exact Sub.of hW rfl | exact .inl (Sub.of hW rfl) | with_reducible exact .inr rfl
    | exact .inr (FencesStay.refl _) | exact .inr (by dsimp only) | exact .inr rfl
    | with_reducible exact (fun h => h : _ = true → _) | (dsimp only; exact (fun h => h : _ = true → _))
    | exact (fun h => h : _ = true → _)
    | with_reducible first
        | exact hE | apply onRegion_evolves | apply state_setFld_evolves | apply state_onXpt_evolves
        | apply finishInvalidation_evolves | apply emit_evolves | refine Evolves.ite (fun _ => ?_) (fun _ => ?_)
    | dsimp only | split

theorem outOfSequence_evolves {qpn : Nat} {ps : List Part} {s₀ s : State} (hE : Evolves ps s₀ s)
    (hW : Sub [.contexts, .out] ps) :
    Evolves ps s₀ (outOfSequence qpn s) := by
  unfold outOfSequence
  repeat' first
    | exact Sub.of hW rfl
    | with_reducible first
        | exact hE | apply onCtx_evolves | apply sendPacket_evolves | refine Evolves.ite (fun _ => ?_) (fun _ => ?_)
    | dsimp only | split

theorem received_evolves {qpn : Nat} {ackReq : Bool} {ps : List Part} {s₀ s : State} (hE : Evolves ps s₀ s)
    (hW : Sub [.contexts, .out] ps) :
    Evolves ps s₀ (received qpn ackReq s) := by
  unfold received
  repeat' first
    | exact Sub.of hW rfl
    | with_reducible first
        | exact hE | apply onCtx_evolves | apply sendAck_evolves | refine Evolves.ite (fun _ => ?_) (fun _ => ?_)
    | dsimp only | split

theorem sendReadResponse_evolves {qpn : Nat} {psn : Nat} {data : Bytes} {ps : List Part} {s₀ s : State} (hE : Evolves ps s₀ s)
    (hW : Sub [.contexts, .leash, .out] ps) :
    Evolves ps s₀ (sendReadResponse qpn psn data s) := by
  unfold sendReadResponse
  repeat' first
    | exact Sub.of hW rfl
    | with_reducible first
        | exact hE | apply postWork_evolves
    | dsimp only

theorem freeReadCredit_evolves {qpn : Nat} {ps : List Part} {s₀ s : State} (hE : Evolves ps s₀ s)
    (hW : Sub [.contexts, .leash, .out] ps) :
    Evolves ps s₀ (freeReadCredit qpn s) := by
  unfold freeReadCredit
  repeat' first
    | exact Sub.of hW rfl
    | with_reducible first
        | exact hE | apply pump_evolves | apply onCtx_evolves
    | dsimp only

theorem halveRate_evolves {qpn : Nat} {ps : List Part} {s₀ s : State} (hE : Evolves ps s₀ s)
    (hW : Sub [.events, .counters, .sampling, .contexts] ps) :
    Evolves ps s₀ (halveRate qpn s) := by
  unfold halveRate
  repeat' first
    | exact Sub.of hW rfl
    | with_reducible first
        | exact hE | apply onCtx_evolves | apply sayRateMin_evolves | refine Evolves.ite (fun _ => ?_) (fun _ => ?_)
    | dsimp only | split

theorem resendFrom_evolves {qpn : Nat} {psn : Nat} {ps : List Part} {s₀ s : State} (hE : Evolves ps s₀ s)
    (hW : Sub [.events, .counters, .sampling, .contexts, .out] ps) :
    Evolves ps s₀ (resendFrom qpn psn s) := by
  unfold resendFrom
  repeat' first
    | exact Sub.of hW rfl
    | with_reducible first
        | exact hE | apply state_send_evolves | apply chargePace_evolves | apply onCtx_evolves | apply emit_evolves
        | refine Evolves.ite (fun _ => ?_) (fun _ => ?_) | refine Evolves.foldl ?_ ?_ | refine Evolves.foldl_fst ?_ ?_
        | refine Evolves.foldl_snd ?_ ?_ | assumption
    | intro _ | dsimp only | split

theorem pumpAll_evolves  {ps : List Part} {s₀ s : State} (hE : Evolves ps s₀ s)
    (hW : Sub [.contexts, .leash, .out] ps) :
    Evolves ps s₀ (pumpAll s) := by
  unfold pumpAll
  repeat' first
    | exact Sub.of hW rfl
    | with_reducible first
        | exact hE | apply pump_evolves | refine Evolves.foldl ?_ ?_ | refine Evolves.foldl_fst ?_ ?_
        | refine Evolves.foldl_snd ?_ ?_ | assumption
    | intro _ | dsimp only

end Sys2Proof.Machine
end

