-- ==== Sys2Proof/Laws/FrameOpsCmd.lean ====
section
/-! SUPPORT. What the operations of Machine/OpsCmd.lean change at most: one lemma each. -/

namespace Sys2Proof.Machine

set_option linter.unusedTactic false
set_option linter.unreachableTactic false
set_option linter.unusedVariables false

theorem post_evolves {cntlid : Nat} {sqid : Nat} {cid : Nat} {st : Status} {dw0 : Nat} {inv : Option Nat} {ps : List Part} {s₀ s : State} (hE : Evolves ps s₀ s)
    (hW : Sub [.contexts, .functions, .hostQueues, .leash, .replicas, .out] ps) :
    Evolves ps s₀ (post cntlid sqid cid st dw0 inv s) := by
  unfold post
  repeat' first
    | exact Sub.of hW rfl
    | with_reducible first
        | exact hE | apply hostPost_evolves | apply state_send_evolves | apply sendResponse_evolves
        | refine Evolves.ite (fun _ => ?_) (fun _ => ?_)
    | dsimp only | split

theorem dispatchSlices_evolves  {ps : List Part} {s₀ s : State} (hE : Evolves ps s₀ s)
    (hW : Sub [.layoutWork] ps) :
    Evolves ps s₀ (dispatchSlices s) := by
  unfold dispatchSlices
  repeat' first
    | exact Sub.of hW rfl | exact .inl (Sub.of hW rfl) | with_reducible exact .inr rfl
    | exact .inr (FencesStay.refl _) | exact .inr (by dsimp only) | exact .inr rfl
    | with_reducible exact (fun h => h : _ = true → _) | (dsimp only; exact (fun h => h : _ = true → _))
    | exact (fun h => h : _ = true → _)
    | with_reducible first
        | exact hE | apply state_onLay_evolves | refine Evolves.foldl ?_ ?_ | refine Evolves.foldl_fst ?_ ?_
        | refine Evolves.foldl_snd ?_ ?_ | assumption
    | intro _ | dsimp only

theorem dropLanes_evolves {i : Nat} {ps : List Part} {s₀ s : State} (hE : Evolves ps s₀ s)
    (hW : Sub [.layoutWork, .ciphers] ps) :
    Evolves ps s₀ (dropLanes i s) := by
  unfold dropLanes
  repeat' first
    | exact Sub.of hW rfl | exact .inl (Sub.of hW rfl) | with_reducible exact .inr rfl
    | exact .inr (FencesStay.refl _) | exact .inr (by dsimp only) | exact .inr rfl
    | with_reducible exact (fun h => h : _ = true → _) | (dsimp only; exact (fun h => h : _ = true → _))
    | exact (fun h => h : _ = true → _)
    | with_reducible first
        | exact hE | apply dispatchSlices_evolves | apply state_onLay_evolves | apply state_onCip_evolves
        | refine Evolves.ite (fun _ => ?_) (fun _ => ?_)
    | dsimp only | split
    | with_reducible first
        | refine Evolves.fst_of (by assumption) ?_ | refine Evolves.snd_of (by assumption) ?_

theorem onEntry_evolves {i : Nat} {f : Entry → Entry} {ps : List Part} {s₀ s : State} (hE : Evolves ps s₀ s)
    (hW : Sub [.commands] ps) :
    Evolves ps s₀ (onEntry i f s) := by
  unfold onEntry
  repeat' first
    | exact Sub.of hW rfl | exact .inl (Sub.of hW rfl) | with_reducible exact .inr rfl
    | exact .inr (FencesStay.refl _) | exact .inr (by dsimp only) | exact .inr rfl
    | with_reducible exact (fun h => h : _ = true → _) | (dsimp only; exact (fun h => h : _ = true → _))
    | exact (fun h => h : _ = true → _)
    | with_reducible first
        | exact hE | apply state_onCmd_evolves
    | dsimp only

theorem ledger_evolves {counter : Nat} {n : Int} {ps : List Part} {s₀ s : State} (hE : Evolves ps s₀ s)
    (hW : Sub [.counters, .sampling] ps) :
    Evolves ps s₀ (ledger counter n s) := by
  unfold ledger
  repeat' first
    | exact Sub.of hW rfl | exact .inl (Sub.of hW rfl) | with_reducible exact .inr rfl
    | exact .inr (FencesStay.refl _) | exact .inr (by dsimp only) | exact .inr rfl
    | with_reducible exact (fun h => h : _ = true → _) | (dsimp only; exact (fun h => h : _ = true → _))
    | exact (fun h => h : _ = true → _)
    | with_reducible first
        | exact hE | refine Evolves.ite (fun _ => ?_) (fun _ => ?_)
    | dsimp only | split
    | with_reducible first
        | apply Evolves.telSet

theorem resolve_evolves {i : Nat} {r : Resolution} {ps : List Part} {s₀ s : State} (hE : Evolves ps s₀ s)
    (hW : Sub [.counters, .sampling, .commands] ps) :
    Evolves ps s₀ (resolve i r s) := by
  unfold resolve
  repeat' first
    | exact Sub.of hW rfl
    | with_reducible first
        | exact hE | apply onEntry_evolves | apply ledger_evolves | refine Evolves.ite (fun _ => ?_) (fun _ => ?_)
    | dsimp only | split

theorem sweepSlots_evolves  {ps : List Part} {s₀ s : State} (hE : Evolves ps s₀ s)
    (hW : Sub [.commands, .buffer, .regs, .regSwc, .out] ps) :
    Evolves ps s₀ (sweepSlots s) := by
  unfold sweepSlots
  repeat' first
    | exact Sub.of hW rfl | exact .inl (Sub.of hW rfl) | with_reducible exact .inr rfl
    | exact .inr (FencesStay.refl _) | exact .inr (by dsimp only) | exact .inr rfl
    | with_reducible exact (fun h => h : _ = true → _) | (dsimp only; exact (fun h => h : _ = true → _))
    | exact (fun h => h : _ = true → _)
    | with_reducible first
        | exact hE | apply releaseCells_evolves | apply state_onCmd_evolves
        | refine Evolves.ite (fun _ => ?_) (fun _ => ?_)
    | dsimp only | split

theorem freeEntry_evolves {i : Nat} {r : Resolution} {ps : List Part} {s₀ s : State} (hE : Evolves ps s₀ s)
    (hW : Sub [.counters, .sampling, .commands, .powerState, .contexts, .journal, .layoutWork, .ciphers, .buffer, .regs,
      .regSwc, .out] ps) :
    Evolves ps s₀ (freeEntry i r s) := by
  unfold freeEntry
  repeat' first
    | exact Sub.of hW rfl | exact .inl (Sub.of hW rfl) | with_reducible exact .inr rfl
    | exact .inr (FencesStay.refl _) | exact .inr (by dsimp only) | exact .inr rfl
    | with_reducible exact (fun h => h : _ = true → _) | (dsimp only; exact (fun h => h : _ = true → _))
    | exact (fun h => h : _ = true → _)
    | with_reducible first
        | exact hE | apply dropLanes_evolves | apply forgetEntry_evolves | apply resolve_evolves
        | apply state_onLay_evolves | apply sweepSlots_evolves | apply releaseCells_evolves
        | apply state_onCmd_evolves
    | dsimp only

theorem endSelfTest_evolves {result : Nat} {ps : List Part} {s₀ s : State} (hE : Evolves ps s₀ s)
    (hW : Sub [.events, .counters, .sampling, .powerState] ps) :
    Evolves ps s₀ (endSelfTest result s) := by
  unfold endSelfTest
  repeat' first
    | exact Sub.of hW rfl | exact .inl (Sub.of hW rfl) | with_reducible exact .inr rfl
    | exact .inr (FencesStay.refl _) | exact .inr (by dsimp only) | exact .inr rfl
    | with_reducible exact (fun h => h : _ = true → _) | (dsimp only; exact (fun h => h : _ = true → _))
    | exact (fun h => h : _ = true → _)
    | with_reducible first
        | exact hE | apply state_onCmd_evolves | apply emit_evolves | refine Evolves.ite (fun _ => ?_) (fun _ => ?_)
    | dsimp only | split

theorem testReset_evolves  {ps : List Part} {s₀ s : State} (hE : Evolves ps s₀ s)
    (hW : Sub [.events, .counters, .sampling, .powerState] ps) :
    Evolves ps s₀ (testReset s) := by
  unfold testReset
  repeat' first
    | exact Sub.of hW rfl
    | with_reducible first
        | exact hE | apply endSelfTest_evolves
    | dsimp only

theorem endEntry_evolves {i : Nat} {ps : List Part} {s₀ s : State} (hE : Evolves ps s₀ s)
    (hW : Sub [.events, .counters, .sampling, .commands, .powerState, .contexts, .mapping, .journal, .layoutWork,
      .ciphers, .drivePorts, .buffer, .replicas, .regs, .regSwc, .out] ps) :
    Evolves ps s₀ (endEntry i s) := by
  unfold endEntry
  repeat' first
    | exact Sub.of hW rfl
    | with_reducible first
        | exact hE | apply onEntry_evolves | apply freeEntry_evolves | apply releaseAllocs_evolves
        | apply noteEnded_evolves | refine Evolves.ite (fun _ => ?_) (fun _ => ?_)
    | dsimp only | split

theorem endCommands_evolves {cntlid : Nat} {ps : List Part} {s₀ s : State} (hE : Evolves ps s₀ s)
    (hW : Sub [.events, .counters, .sampling, .commands, .powerState, .contexts, .mapping, .journal, .layoutWork,
      .ciphers, .drivePorts, .buffer, .replicas, .regs, .regSwc, .out] ps) :
    Evolves ps s₀ (endCommands cntlid s) := by
  unfold endCommands
  repeat' first
    | exact Sub.of hW rfl | exact .inl (Sub.of hW rfl) | with_reducible exact .inr rfl
    | exact .inr (FencesStay.refl _) | exact .inr (by dsimp only) | exact .inr rfl
    | with_reducible exact (fun h => h : _ = true → _) | (dsimp only; exact (fun h => h : _ = true → _))
    | exact (fun h => h : _ = true → _)
    | with_reducible first
        | exact hE | apply noteEnded_evolves | apply state_onCmd_evolves | apply sweepSlots_evolves
        | apply endEntry_evolves | refine Evolves.foldl ?_ ?_ | refine Evolves.foldl_fst ?_ ?_
        | refine Evolves.foldl_snd ?_ ?_ | assumption
    | intro _ | dsimp only

theorem ctrlReset_evolves {cntlid : Nat} {kind : Nat} {sqid : Nat} {ps : List Part} {s₀ s : State} (hE : Evolves ps s₀ s)
    (hW : Sub [.events, .counters, .sampling] ps) :
    Evolves ps s₀ (ctrlReset cntlid kind sqid s) := by
  unfold ctrlReset
  repeat' first
    | exact Sub.of hW rfl
    | with_reducible first
        | exact hE | apply emit_evolves
    | dsimp only

theorem deleteCtrl_evolves {cntlid : Nat} {kind : Nat} {ps : List Part} {s₀ s : State} (hE : Evolves ps s₀ s)
    (hW : Sub [.events, .counters, .sampling, .controllers, .queues, .commands, .powerState, .contexts, .contextCache,
      .regions, .mapping, .journal, .layoutWork, .ciphers, .drivePorts, .buffer, .replicas, .regs, .regSwc,
      .out] ps) :
    Evolves ps s₀ (deleteCtrl cntlid kind s) := by
  unfold deleteCtrl
  repeat' first
    | exact Sub.of hW rfl | exact .inl (Sub.of hW rfl) | with_reducible exact .inr rfl
    | exact .inr (FencesStay.refl _) | exact .inr (by dsimp only) | exact .inr rfl
    | with_reducible exact (fun h => h : _ = true → _) | (dsimp only; exact (fun h => h : _ = true → _))
    | exact (fun h => h : _ = true → _)
    | with_reducible first
        | exact hE | apply testReset_evolves | apply endCommands_evolves | apply state_onCmd_evolves
        | apply localDisconnect_evolves | apply ctrlReset_evolves | refine Evolves.ite (fun _ => ?_) (fun _ => ?_)
        | refine Evolves.foldl ?_ ?_ | refine Evolves.foldl_fst ?_ ?_ | refine Evolves.foldl_snd ?_ ?_ | assumption
    | intro _ | dsimp only | split

theorem endQueueCommands_evolves {cntlid : Nat} {sqid : Nat} {ps : List Part} {s₀ s : State} (hE : Evolves ps s₀ s)
    (hW : Sub [.events, .counters, .sampling, .commands, .powerState, .contexts, .mapping, .journal, .layoutWork,
      .ciphers, .drivePorts, .buffer, .replicas, .regs, .regSwc, .out] ps) :
    Evolves ps s₀ (endQueueCommands cntlid sqid s) := by
  unfold endQueueCommands
  repeat' first
    | exact Sub.of hW rfl | exact .inl (Sub.of hW rfl) | with_reducible exact .inr rfl
    | exact .inr (FencesStay.refl _) | exact .inr (by dsimp only) | exact .inr rfl
    | with_reducible exact (fun h => h : _ = true → _) | (dsimp only; exact (fun h => h : _ = true → _))
    | exact (fun h => h : _ = true → _)
    | with_reducible first
        | exact hE | apply noteEnded_evolves | apply state_onCmd_evolves | apply sweepSlots_evolves
        | apply endEntry_evolves | refine Evolves.foldl ?_ ?_ | refine Evolves.foldl_fst ?_ ?_
        | refine Evolves.foldl_snd ?_ ?_ | assumption
    | intro _ | dsimp only

theorem onCtrl_evolves {cntlid : Nat} {f : Controller → Controller} {ps : List Part} {s₀ s : State} (hE : Evolves ps s₀ s)
    (hW : Sub [.controllers] ps) :
    Evolves ps s₀ (onCtrl cntlid f s) := by
  unfold onCtrl
  repeat' first
    | exact Sub.of hW rfl | exact .inl (Sub.of hW rfl) | with_reducible exact .inr rfl
    | exact .inr (FencesStay.refl _) | exact .inr (by dsimp only) | exact .inr rfl
    | with_reducible exact (fun h => h : _ = true → _) | (dsimp only; exact (fun h => h : _ = true → _))
    | exact (fun h => h : _ = true → _)
    | with_reducible first
        | exact hE | apply state_onCmd_evolves
    | dsimp only

theorem postAdmin_evolves {a : Admin} {st : Status} {dw0 : Nat} {ps : List Part} {s₀ s : State} (hE : Evolves ps s₀ s)
    (hW : Sub [.contexts, .functions, .hostQueues, .leash, .replicas, .out] ps) :
    Evolves ps s₀ (postAdmin a st dw0 s) := by
  unfold postAdmin
  repeat' first
    | exact Sub.of hW rfl
    | with_reducible first
        | exact hE | apply post_evolves
    | dsimp only

theorem notice_evolves {cntlid : Nat} {info : Nat} {ps : List Part} {s₀ s : State} (hE : Evolves ps s₀ s)
    (hW : Sub [.controllers, .contexts, .functions, .hostQueues, .leash, .replicas, .out] ps) :
    Evolves ps s₀ (notice cntlid info s) := by
  unfold notice
  repeat' first
    | exact Sub.of hW rfl
    | with_reducible first
        | exact hE | apply onCtrl_evolves | apply postAdmin_evolves
    | dsimp only | split
    | with_reducible first
        | refine Evolves.fst_of (by assumption) ?_ | refine Evolves.snd_of (by assumption) ?_

theorem setAna_evolves {nsid : Nat} {st : Nat} {ps : List Part} {s₀ s : State} (hE : Evolves ps s₀ s)
    (hW : Sub [.controllers, .namespaces, .contexts, .functions, .hostQueues, .leash, .replicas, .out] ps) :
    Evolves ps s₀ (setAna nsid st s) := by
  unfold setAna
  repeat' first
    | exact Sub.of hW rfl | exact .inl (Sub.of hW rfl) | with_reducible exact .inr rfl
    | exact .inr (FencesStay.refl _) | exact .inr (by dsimp only) | exact .inr rfl
    | with_reducible exact (fun h => h : _ = true → _) | (dsimp only; exact (fun h => h : _ = true → _))
    | exact (fun h => h : _ = true → _)
    | with_reducible first
        | exact hE | apply state_onCmd_evolves | apply notice_evolves | refine Evolves.ite (fun _ => ?_) (fun _ => ?_)
        | refine Evolves.foldl ?_ ?_ | refine Evolves.foldl_fst ?_ ?_ | refine Evolves.foldl_snd ?_ ?_ | assumption
    | intro _ | dsimp only | split

theorem updateAna_evolves  {ps : List Part} {s₀ s : State} (hE : Evolves ps s₀ s)
    (hW : Sub [.controllers, .namespaces, .contexts, .functions, .hostQueues, .leash, .replicas, .out] ps) :
    Evolves ps s₀ (updateAna s) := by
  unfold updateAna
  repeat' first
    | exact Sub.of hW rfl
    | with_reducible first
        | exact hE | apply setAna_evolves | refine Evolves.foldl ?_ ?_ | refine Evolves.foldl_fst ?_ ?_
        | refine Evolves.foldl_snd ?_ ?_ | assumption
    | intro _ | dsimp only

theorem startExit_evolves  {ps : List Part} {s₀ s : State} (hE : Evolves ps s₀ s)
    (hW : Sub [.powerState] ps) :
    Evolves ps s₀ (startExit s) := by
  unfold startExit
  repeat' first
    | exact Sub.of hW rfl | exact .inl (Sub.of hW rfl) | with_reducible exact .inr rfl
    | exact .inr (FencesStay.refl _) | exact .inr (by dsimp only) | exact .inr rfl
    | with_reducible exact (fun h => h : _ = true → _) | (dsimp only; exact (fun h => h : _ = true → _))
    | exact (fun h => h : _ = true → _)
    | with_reducible first
        | exact hE | apply state_onCmd_evolves | refine Evolves.ite (fun _ => ?_) (fun _ => ?_)
    | dsimp only | split

theorem c0Charge_evolves {port : Nat} {mbps : Nat} {bytes : Nat} {ps : List Part} {s₀ s : State} (hE : Evolves ps s₀ s)
    (hW : Sub [.commands] ps) :
    Evolves ps s₀ (c0Charge port mbps bytes s) := by
  unfold c0Charge
  repeat' first
    | exact Sub.of hW rfl | exact .inl (Sub.of hW rfl) | with_reducible exact .inr rfl
    | exact .inr (FencesStay.refl _) | exact .inr (by dsimp only) | exact .inr rfl
    | with_reducible exact (fun h => h : _ = true → _) | (dsimp only; exact (fun h => h : _ = true → _))
    | exact (fun h => h : _ = true → _)
    | with_reducible first
        | exact hE | apply state_onCmd_evolves
    | dsimp only

theorem queueSlices_evolves {urgent : Bool} {xs : List Slice} {ps : List Part} {s₀ s : State} (hE : Evolves ps s₀ s)
    (hW : Sub [.layoutWork] ps) :
    Evolves ps s₀ (queueSlices urgent xs s) := by
  unfold queueSlices
  repeat' first
    | exact Sub.of hW rfl | exact .inl (Sub.of hW rfl) | with_reducible exact .inr rfl
    | exact .inr (FencesStay.refl _) | exact .inr (by dsimp only) | exact .inr rfl
    | with_reducible exact (fun h => h : _ = true → _) | (dsimp only; exact (fun h => h : _ = true → _))
    | exact (fun h => h : _ = true → _)
    | with_reducible first
        | exact hE | apply state_onLay_evolves | refine Evolves.ite (fun _ => ?_) (fun _ => ?_)
    | dsimp only | split

theorem redo_evolves {i : Nat} {ps : List Part} {s₀ s : State} (hE : Evolves ps s₀ s)
    (hW : Sub [.counters, .sampling, .commands] ps) :
    Evolves ps s₀ (redo i s) := by
  unfold redo
  repeat' first
    | exact Sub.of hW rfl
    | with_reducible first
        | exact hE | apply onEntry_evolves | apply resolve_evolves
    | dsimp only

theorem deleteIoQueues_evolves {cntlid : Nat} {ps : List Part} {s₀ s : State} (hE : Evolves ps s₀ s)
    (hW : Sub [.events, .counters, .sampling, .queues, .commands, .contexts, .contextCache, .regions, .buffer,
      .hostQueues, .regs, .regSwc, .out] ps) :
    Evolves ps s₀ (deleteIoQueues cntlid s) := by
  unfold deleteIoQueues
  repeat' first
    | exact Sub.of hW rfl | exact .inl (Sub.of hW rfl) | with_reducible exact .inr rfl
    | exact .inr (FencesStay.refl _) | exact .inr (by dsimp only) | exact .inr rfl
    | with_reducible exact (fun h => h : _ = true → _) | (dsimp only; exact (fun h => h : _ = true → _))
    | exact (fun h => h : _ = true → _)
    | with_reducible first
        | exact hE | apply state_onHep_evolves | apply state_onCmd_evolves | apply localDisconnect_evolves
        | apply sweepSlots_evolves | refine Evolves.foldl ?_ ?_ | refine Evolves.foldl_fst ?_ ?_
        | refine Evolves.foldl_snd ?_ ?_ | assumption
    | intro _ | dsimp only

theorem psChange_evolves {new : Nat} {ps : List Part} {s₀ s : State} (hE : Evolves ps s₀ s)
    (hW : Sub [.events, .counters, .sampling, .controllers, .powerState, .drivePorts, .stamps, .regs, .regPrt, .out] ps) :
    Evolves ps s₀ (psChange new s) := by
  unfold psChange
  repeat' first
    | exact Sub.of hW rfl | exact .inl (Sub.of hW rfl) | with_reducible exact .inr rfl
    | exact .inr (FencesStay.refl _) | exact .inr (by dsimp only) | exact .inr rfl
    | with_reducible exact (fun h => h : _ = true → _) | (dsimp only; exact (fun h => h : _ = true → _))
    | exact (fun h => h : _ = true → _)
    | with_reducible first
        | exact hE | apply followL1_evolves | apply state_onCmd_evolves | apply enterPs4_evolves | apply emit_evolves
        | refine Evolves.ite (fun _ => ?_) (fun _ => ?_)
    | dsimp only | split

end Sys2Proof.Machine
end

