-- ==== Sys2Proof/Laws/FrameOpsCip.lean ====
section
/-! SUPPORT. What the operations of Machine/OpsCip.lean change at most: one lemma each. -/

namespace Sys2Proof.Machine

set_option linter.unusedTactic false
set_option linter.unreachableTactic false
set_option linter.unusedVariables false

theorem state_onTru_evolves {f : Tru → Tru} {ps : List Part} {s₀ s : State} (hE : Evolves ps s₀ s)
    (h1 : Sub [.trust] ps ∨ (f s.tru) = s.tru)
    (hf : s.tru.fuseSvn ≤ (f s.tru).fuseSvn) :
    Evolves ps s₀ (State.onTru s f) := by
  unfold State.onTru
  repeat' first
    | exact h1 | exact hf
    | with_reducible first
        | exact hE
    | dsimp only
    | with_reducible first
        | apply Evolves.truSet

theorem extend_evolves {i : Nat} {d : Digest} {ps : List Part} {s₀ s : State} (hE : Evolves ps s₀ s)
    (hW : Sub [.trust] ps) :
    Evolves ps s₀ (extend i d s) := by
  unfold extend
  repeat' first
    | exact Sub.of hW rfl | exact .inl (Sub.of hW rfl) | with_reducible exact .inr rfl
    | exact .inr (FencesStay.refl _) | exact .inr (by dsimp only) | exact .inr rfl
    | with_reducible exact (fun h => h : _ = true → _) | (dsimp only; exact (fun h => h : _ = true → _))
    | exact (fun h => h : _ = true → _) | exact rfl | exact Nat.le_refl _
    | with_reducible first
        | exact hE | apply state_onTru_evolves
    | dsimp only

theorem putSegment_evolves {x : CSeg} {ps : List Part} {s₀ s : State} (hE : Evolves ps s₀ s)
    (hW : Sub [.ciphers] ps) :
    Evolves ps s₀ (putSegment s x) := by
  unfold putSegment
  repeat' first
    | exact Sub.of hW rfl | exact .inl (Sub.of hW rfl) | with_reducible exact .inr rfl
    | exact .inr (FencesStay.refl _) | exact .inr (by dsimp only) | exact .inr rfl
    | with_reducible exact (fun h => h : _ = true → _) | (dsimp only; exact (fun h => h : _ = true → _))
    | exact (fun h => h : _ = true → _)
    | with_reducible first
        | exact hE | apply state_onCip_evolves | refine Evolves.ite (fun _ => ?_) (fun _ => ?_)
    | dsimp only | split
    | with_reducible first
        | refine Evolves.fst_of (by assumption) ?_ | refine Evolves.snd_of (by assumption) ?_

theorem dispatchSegs_evolves {id : Nat} {n : Nat} {urgent : Bool} {ps : List Part} {s₀ s : State} (hE : Evolves ps s₀ s)
    (hW : Sub [.ciphers] ps) :
    Evolves ps s₀ (dispatchSegs id n urgent s) := by
  unfold dispatchSegs
  repeat' first
    | exact Sub.of hW rfl | exact .inl (Sub.of hW rfl) | with_reducible exact .inr rfl
    | exact .inr (FencesStay.refl _) | exact .inr (by dsimp only) | exact .inr rfl
    | with_reducible exact (fun h => h : _ = true → _) | (dsimp only; exact (fun h => h : _ = true → _))
    | exact (fun h => h : _ = true → _)
    | with_reducible first
        | exact hE | apply state_onCip_evolves | apply putSegment_evolves | refine Evolves.foldl ?_ ?_
        | refine Evolves.foldl_fst ?_ ?_ | refine Evolves.foldl_snd ?_ ?_ | assumption
    | intro _ | dsimp only

theorem cipherEntry_evolves {i : Nat} {n : Nat} {ps : List Part} {s₀ s : State} (hE : Evolves ps s₀ s)
    (hW : Sub [.commands, .ciphers] ps) :
    Evolves ps s₀ (cipherEntry i n s) := by
  unfold cipherEntry
  repeat' first
    | exact Sub.of hW rfl | exact .inl (Sub.of hW rfl) | with_reducible exact .inr rfl
    | exact .inr (FencesStay.refl _) | exact .inr (by dsimp only) | exact .inr rfl
    | with_reducible exact (fun h => h : _ = true → _) | (dsimp only; exact (fun h => h : _ = true → _))
    | exact (fun h => h : _ = true → _)
    | with_reducible first
        | exact hE | apply state_onCip_evolves | apply dispatchSegs_evolves | apply onEntry_evolves
    | dsimp only

theorem onSlot_evolves {i : Nat} {f : KeySlot → KeySlot} {ps : List Part} {s₀ s : State} (hE : Evolves ps s₀ s)
    (hW : Sub [.keys] ps) :
    Evolves ps s₀ (onSlot i f s) := by
  unfold onSlot
  repeat' first
    | exact Sub.of hW rfl | exact .inl (Sub.of hW rfl) | with_reducible exact .inr rfl
    | exact .inr (FencesStay.refl _) | exact .inr (by dsimp only) | exact .inr rfl
    | with_reducible exact (fun h => h : _ = true → _) | (dsimp only; exact (fun h => h : _ = true → _))
    | exact (fun h => h : _ = true → _)
    | with_reducible first
        | exact hE | apply state_onCip_evolves
    | dsimp only

theorem standCopy_evolves {i : Nat} {b : Bytes} {ps : List Part} {s₀ s : State} (hE : Evolves ps s₀ s)
    (hW : Sub [.keys] ps) :
    Evolves ps s₀ (standCopy i b s) := by
  unfold standCopy
  repeat' first
    | exact Sub.of hW rfl
    | with_reducible first
        | exact hE | apply onSlot_evolves | refine Evolves.ite (fun _ => ?_) (fun _ => ?_)
    | dsimp only | split

theorem randomKey_evolves {n : Nat} {ps : List Part} {s₀ s : State} (hE : Evolves ps s₀ s)
    (hW : Sub [.free] ps) :
    Evolves ps s₀ (randomKey n s).2 := by
  unfold randomKey
  repeat' first
    | exact Sub.of hW rfl
    | with_reducible first
        | exact hE | apply state_drawn_evolves
    | dsimp only

theorem usedGen_evolves {typ : Nat} {page : Nat} {gen : Nat} {ps : List Part} {s₀ s : State} (hE : Evolves ps s₀ s)
    (hW : Sub [.keys] ps) :
    Evolves ps s₀ (usedGen typ page gen s) := by
  unfold usedGen
  repeat' first
    | exact Sub.of hW rfl | exact .inl (Sub.of hW rfl) | with_reducible exact .inr rfl
    | exact .inr (FencesStay.refl _) | exact .inr (by dsimp only) | exact .inr rfl
    | with_reducible exact (fun h => h : _ = true → _) | (dsimp only; exact (fun h => h : _ = true → _))
    | exact (fun h => h : _ = true → _)
    | with_reducible first
        | exact hE | apply state_onCip_evolves | refine Evolves.ite (fun _ => ?_) (fun _ => ?_)
    | dsimp only | split

theorem storeKey_evolves {typ : Nat} {page : Nat} {nsid : Nat} {keyGen : Nat} {oekId : Nat} {key : Bytes} {ps : List Part} {s₀ s : State} (hE : Evolves ps s₀ s)
    (hW : Sub [.keys] ps) :
    Evolves ps s₀ (storeKey typ page nsid keyGen oekId key s).1 := by
  unfold storeKey
  repeat' first
    | exact Sub.of hW rfl | exact .inl (Sub.of hW rfl) | with_reducible exact .inr rfl
    | exact .inr (FencesStay.refl _) | exact .inr (by dsimp only) | exact .inr rfl
    | with_reducible exact (fun h => h : _ = true → _) | (dsimp only; exact (fun h => h : _ = true → _))
    | exact (fun h => h : _ = true → _)
    | with_reducible first
        | exact hE | apply state_onCip_evolves | apply usedGen_evolves
    | dsimp only | split
    | with_reducible first
        | refine Evolves.fst_of (by assumption) ?_ | refine Evolves.snd_of (by assumption) ?_

theorem queueBlob_evolves {b : Bytes} {ps : List Part} {s₀ s : State} (hE : Evolves ps s₀ s)
    (hW : Sub [.keyOrders, .regs, .regCip] ps) :
    Evolves ps s₀ (queueBlob b s) := by
  unfold queueBlob
  repeat' first
    | exact Sub.of hW rfl | exact .inl (Sub.of hW rfl) | with_reducible exact .inr rfl
    | exact .inr (FencesStay.refl _) | exact .inr (by dsimp only) | exact .inr rfl
    | with_reducible exact (fun h => h : _ = true → _) | (dsimp only; exact (fun h => h : _ = true → _))
    | exact (fun h => h : _ = true → _)
    | with_reducible first
        | exact hE | apply state_onCip_evolves | apply state_bump_evolves
        | refine Evolves.ite (fun _ => ?_) (fun _ => ?_)
    | dsimp only | split

theorem escrowKeys_evolves {slots : List Nat} {ps : List Part} {s₀ s : State} (hE : Evolves ps s₀ s)
    (hW : Sub [.events, .counters, .sampling, .keyOrders, .regs, .regCip] ps) :
    Evolves ps s₀ (escrowKeys slots s) := by
  unfold escrowKeys
  repeat' first
    | exact Sub.of hW rfl
    | with_reducible first
        | exact hE | apply queueBlob_evolves | apply emit_evolves | refine Evolves.ite (fun _ => ?_) (fun _ => ?_)
        | refine Evolves.foldl ?_ ?_ | refine Evolves.foldl_fst ?_ ?_ | refine Evolves.foldl_snd ?_ ?_ | assumption
    | intro _ | dsimp only | split
    | with_reducible first
        | refine Evolves.fst_of (by assumption) ?_ | refine Evolves.snd_of (by assumption) ?_

theorem makeDataKey_evolves {nsid : Nat} {ps : List Part} {s₀ s : State} (hE : Evolves ps s₀ s)
    (hW : Sub [.events, .counters, .sampling, .namespaces, .keys, .keyOrders, .regs, .regCip, .free] ps) :
    Evolves ps s₀ (makeDataKey nsid s) := by
  unfold makeDataKey
  repeat' first
    | exact Sub.of hW rfl | exact .inl (Sub.of hW rfl) | with_reducible exact .inr rfl
    | exact .inr (FencesStay.refl _) | exact .inr (by dsimp only) | exact .inr rfl
    | with_reducible exact (fun h => h : _ = true → _) | (dsimp only; exact (fun h => h : _ = true → _))
    | exact (fun h => h : _ = true → _)
    | with_reducible first
        | exact hE | apply randomKey_evolves | apply storeKey_evolves | apply state_onCmd_evolves
        | apply escrowKeys_evolves | apply emit_evolves | refine Evolves.ite (fun _ => ?_) (fun _ => ?_)
    | dsimp only | split
    | with_reducible first
        | refine Evolves.fst_of (by assumption) ?_ | refine Evolves.snd_of (by assumption) ?_

theorem cipRefuse_evolves {code : Nat} {page : Nat} {handle : Nat} {ps : List Part} {s₀ s : State} (hE : Evolves ps s₀ s)
    (hW : Sub [.events, .counters, .sampling, .regs, .regCip] ps) :
    Evolves ps s₀ (cipRefuse code page handle s) := by
  unfold cipRefuse
  repeat' first
    | exact Sub.of hW rfl
    | with_reducible first
        | exact hE | apply state_bump_evolves | apply emit_evolves
    | dsimp only | split
    | with_reducible first
        | refine Evolves.fst_of (by assumption) ?_ | refine Evolves.snd_of (by assumption) ?_

theorem freeKey_evolves {i : Nat} {ps : List Part} {s₀ s : State} (hE : Evolves ps s₀ s)
    (hW : Sub [.keys] ps) :
    Evolves ps s₀ (freeKey i s) := by
  unfold freeKey
  repeat' first
    | exact Sub.of hW rfl | exact .inl (Sub.of hW rfl) | with_reducible exact .inr rfl
    | exact .inr (FencesStay.refl _) | exact .inr (by dsimp only) | exact .inr rfl
    | with_reducible exact (fun h => h : _ = true → _) | (dsimp only; exact (fun h => h : _ = true → _))
    | exact (fun h => h : _ = true → _)
    | with_reducible first
        | exact hE | apply state_onCip_evolves | refine Evolves.ite (fun _ => ?_) (fun _ => ?_)
    | dsimp only | split

theorem cipRun_evolves {r : CipherReq} {ps : List Part} {s₀ s : State} (hE : Evolves ps s₀ s)
    (hW : Sub [.events, .counters, .sampling, .keys, .ciphers, .regs, .regCip] ps) :
    Evolves ps s₀ (cipRun r s).1 := by
  unfold cipRun
  repeat' first
    | exact Sub.of hW rfl | exact .inl (Sub.of hW rfl) | with_reducible exact .inr rfl
    | exact .inr (FencesStay.refl _) | exact .inr (by dsimp only) | exact .inr rfl
    | with_reducible exact (fun h => h : _ = true → _) | (dsimp only; exact (fun h => h : _ = true → _))
    | exact (fun h => h : _ = true → _)
    | with_reducible first
        | exact hE | apply cipRefuse_evolves | apply onSlot_evolves | apply state_onCip_evolves
        | refine Evolves.ite (fun _ => ?_) (fun _ => ?_)
    | dsimp only | split
    | with_reducible first
        | refine Evolves.fst_of (by assumption) ?_ | refine Evolves.snd_of (by assumption) ?_

theorem trustChange_evolves {op : Nat} {arg : Nat} {ps : List Part} {s₀ s : State} (hE : Evolves ps s₀ s)
    (hW : Sub [.events, .counters, .sampling, .trust] ps) :
    Evolves ps s₀ (trustChange op arg s) := by
  unfold trustChange
  repeat' first
    | exact Sub.of hW rfl
    | with_reducible first
        | exact hE | apply emit_evolves | apply extend_evolves
    | dsimp only

theorem dispatchOp_evolves {id : Nat} {ps : List Part} {s₀ s : State} (hE : Evolves ps s₀ s)
    (hW : Sub [.ciphers] ps) :
    Evolves ps s₀ (dispatchOp id s) := by
  unfold dispatchOp
  repeat' first
    | exact Sub.of hW rfl
    | with_reducible first
        | exact hE | apply dispatchSegs_evolves
    | dsimp only

theorem restartOp_evolves {lane : List CSeg} {id : Nat} {ps : List Part} {s₀ s : State} (hE : Evolves ps s₀ s)
    (hW : Sub [.counters, .sampling, .commands, .ciphers] ps) :
    Evolves ps s₀ (restartOp lane s id) := by
  unfold restartOp
  repeat' first
    | exact Sub.of hW rfl | exact .inl (Sub.of hW rfl) | with_reducible exact .inr rfl
    | exact .inr (FencesStay.refl _) | exact .inr (by dsimp only) | exact .inr rfl
    | with_reducible exact (fun h => h : _ = true → _) | (dsimp only; exact (fun h => h : _ = true → _))
    | exact (fun h => h : _ = true → _)
    | with_reducible first
        | exact hE | apply putSegment_evolves | apply redo_evolves | apply dispatchOp_evolves
        | apply state_onCip_evolves | refine Evolves.foldl ?_ ?_ | refine Evolves.foldl_fst ?_ ?_
        | refine Evolves.foldl_snd ?_ ?_ | assumption
    | intro _ | dsimp only | split
    | with_reducible first
        | refine Evolves.fst_of (by assumption) ?_ | refine Evolves.snd_of (by assumption) ?_

theorem sign192_evolves  {ps : List Part} {s₀ s : State} (hE : Evolves ps s₀ s)
    (hW : Sub [.regs, .regTru, .free] ps) :
    Evolves ps s₀ (sign192 s) := by
  unfold sign192
  repeat' first
    | exact Sub.of hW rfl
    | with_reducible first
        | exact hE | apply state_setFld_evolves | apply state_drawn_evolves
    | dsimp only

end Sys2Proof.Machine
end

