-- ==== Sys2Proof/Laws/FrameOpsFix.lean ====
section
/-! SUPPORT. What the operations of Machine/OpsFix.lean change at most: one lemma each. -/

namespace Sys2Proof.Machine

set_option linter.unusedTactic false
set_option linter.unreachableTactic false
set_option linter.unusedVariables false

theorem onJob_evolves {j : Nat} {f : MigJob → MigJob} {ps : List Part} {s₀ s : State} (hE : Evolves ps s₀ s)
    (hW : Sub [.jobs] ps) :
    Evolves ps s₀ (onJob j f s) := by
  unfold onJob
  repeat' first
    | exact Sub.of hW rfl | exact .inl (Sub.of hW rfl) | with_reducible exact .inr rfl
    | exact .inr (FencesStay.refl _) | exact .inr (by dsimp only) | exact .inr rfl
    | with_reducible exact (fun h => h : _ = true → _) | (dsimp only; exact (fun h => h : _ = true → _))
    | exact (fun h => h : _ = true → _)
    | with_reducible first
        | exact hE | apply state_onFix_evolves
    | dsimp only

theorem sendManifest_evolves {job : Nat} {typ : Nat} {window : Nat} {n : Nat} {body : Bytes} {imm : Option Nat} {ps : List Part} {s₀ s : State} (hE : Evolves ps s₀ s)
    (hW : Sub [.contexts, .leash, .replicas, .out] ps) :
    Evolves ps s₀ (sendManifest job typ window n body imm s) := by
  unfold sendManifest
  repeat' first
    | exact Sub.of hW rfl
    | with_reducible first
        | exact hE | apply sendSend_evolves | refine Evolves.ite (fun _ => ?_) (fun _ => ?_)
    | dsimp only | split

theorem sendStatuses_evolves {job : Nat} {typ : Nat} {window : Nat} {sts : List Nat} {ps : List Part} {s₀ s : State} (hE : Evolves ps s₀ s)
    (hW : Sub [.contexts, .leash, .replicas, .out] ps) :
    Evolves ps s₀ (sendStatuses job typ window sts s) := by
  unfold sendStatuses
  repeat' first
    | exact Sub.of hW rfl
    | with_reducible first
        | exact hE | apply sendManifest_evolves
    | dsimp only

theorem windowEnded_evolves {entry : Nat} {failed : Option (Nat × Nat)} {ps : List Part} {s₀ s : State} (hE : Evolves ps s₀ s)
    (hW : Sub [.contexts, .jobs, .leash, .replicas, .out] ps) :
    Evolves ps s₀ (windowEnded entry failed s) := by
  unfold windowEnded
  repeat' first
    | exact Sub.of hW rfl
    | with_reducible first
        | exact hE | apply onJob_evolves | apply sendStatuses_evolves | refine Evolves.ite (fun _ => ?_) (fun _ => ?_)
    | dsimp only | split
    | with_reducible first
        | refine Evolves.fst_of (by assumption) ?_ | refine Evolves.snd_of (by assumption) ?_

theorem migAna_evolves {j : Nat} {closed : Bool} {ps : List Part} {s₀ s : State} (hE : Evolves ps s₀ s)
    (hW : Sub [.controllers, .namespaces, .contexts, .functions, .hostQueues, .leash, .replicas, .out] ps) :
    Evolves ps s₀ (migAna j closed s) := by
  unfold migAna
  repeat' first
    | exact Sub.of hW rfl | exact .inl (Sub.of hW rfl) | with_reducible exact .inr rfl
    | exact .inr (FencesStay.refl _) | exact .inr (by dsimp only) | exact .inr rfl
    | with_reducible exact (fun h => h : _ = true → _) | (dsimp only; exact (fun h => h : _ = true → _))
    | exact (fun h => h : _ = true → _)
    | with_reducible first
        | exact hE | apply updateAna_evolves | apply state_onCmd_evolves
    | dsimp only

theorem migState_evolves {j : Nat} {st : Nat} {ps : List Part} {s₀ s : State} (hE : Evolves ps s₀ s)
    (hW : Sub [.events, .counters, .sampling, .jobs] ps) :
    Evolves ps s₀ (migState j st s) := by
  unfold migState
  repeat' first
    | exact Sub.of hW rfl
    | with_reducible first
        | exact hE | apply emit_evolves | apply onJob_evolves
    | dsimp only

theorem voidWindows_evolves {j : Nat} {ps : List Part} {s₀ s : State} (hE : Evolves ps s₀ s)
    (hW : Sub [.chains, .jobs] ps) :
    Evolves ps s₀ (voidWindows j s) := by
  unfold voidWindows
  repeat' first
    | exact Sub.of hW rfl | exact .inl (Sub.of hW rfl) | with_reducible exact .inr rfl
    | exact .inr (FencesStay.refl _) | exact .inr (by dsimp only) | exact .inr rfl
    | with_reducible exact (fun h => h : _ = true → _) | (dsimp only; exact (fun h => h : _ = true → _))
    | exact (fun h => h : _ = true → _)
    | with_reducible first
        | exact hE | apply state_onXpt_evolves | apply onJob_evolves | refine Evolves.ite (fun _ => ?_) (fun _ => ?_)
        | refine Evolves.foldl ?_ ?_ | refine Evolves.foldl_fst ?_ ?_ | refine Evolves.foldl_snd ?_ ?_ | assumption
    | intro _ | dsimp only | split

theorem stopJob_evolves {j : Nat} {st : Nat} {ps : List Part} {s₀ s : State} (hE : Evolves ps s₀ s)
    (hW : Sub [.events, .counters, .sampling, .controllers, .namespaces, .contexts, .chains, .jobs, .functions,
      .hostQueues, .leash, .replicas, .out] ps) :
    Evolves ps s₀ (stopJob j st s) := by
  unfold stopJob
  repeat' first
    | exact Sub.of hW rfl
    | with_reducible first
        | exact hE | apply migAna_evolves | apply migState_evolves | apply voidWindows_evolves
        | refine Evolves.ite (fun _ => ?_) (fun _ => ?_)
    | dsimp only | split

theorem placeLate_evolves {l : Leaf} {ps : List Part} {s₀ s : State} (hE : Evolves ps s₀ s)
    (hW : Sub [.events, .counters, .sampling, .batches] ps) :
    Evolves ps s₀ (placeLate l s) := by
  unfold placeLate
  repeat' first
    | exact Sub.of hW rfl | exact .inl (Sub.of hW rfl) | with_reducible exact .inr rfl
    | exact .inr (FencesStay.refl _) | exact .inr (by dsimp only) | exact .inr rfl
    | with_reducible exact (fun h => h : _ = true → _) | (dsimp only; exact (fun h => h : _ = true → _))
    | exact (fun h => h : _ = true → _)
    | with_reducible first
        | exact hE | apply emit_evolves | apply state_onFix_evolves | refine Evolves.ite (fun _ => ?_) (fun _ => ?_)
    | dsimp only | split
    | with_reducible first
        | refine Evolves.fst_of (by assumption) ?_ | refine Evolves.snd_of (by assumption) ?_

theorem addLeaf_evolves {l : Leaf} {ps : List Part} {s₀ s : State} (hE : Evolves ps s₀ s)
    (hW : Sub [.events, .counters, .sampling, .batches] ps) :
    Evolves ps s₀ (addLeaf s l) := by
  unfold addLeaf
  repeat' first
    | exact Sub.of hW rfl | exact .inl (Sub.of hW rfl) | with_reducible exact .inr rfl
    | exact .inr (FencesStay.refl _) | exact .inr (by dsimp only) | exact .inr rfl
    | with_reducible exact (fun h => h : _ = true → _) | (dsimp only; exact (fun h => h : _ = true → _))
    | exact (fun h => h : _ = true → _)
    | with_reducible first
        | exact hE | apply placeLate_evolves | apply state_onFix_evolves
        | refine Evolves.ite (fun _ => ?_) (fun _ => ?_)
    | dsimp only | split

theorem periodChanged_evolves  {ps : List Part} {s₀ s : State} (hE : Evolves ps s₀ s)
    (hW : Sub [.batches] ps) :
    Evolves ps s₀ (periodChanged s) := by
  unfold periodChanged
  repeat' first
    | exact Sub.of hW rfl | exact .inl (Sub.of hW rfl) | with_reducible exact .inr rfl
    | exact .inr (FencesStay.refl _) | exact .inr (by dsimp only) | exact .inr rfl
    | with_reducible exact (fun h => h : _ = true → _) | (dsimp only; exact (fun h => h : _ = true → _))
    | exact (fun h => h : _ = true → _)
    | with_reducible first
        | exact hE | apply state_onFix_evolves | refine Evolves.ite (fun _ => ?_) (fun _ => ?_)
    | dsimp only | split

theorem fileLeaf_evolves {r : JRec} {e : Entry} {ps : List Part} {s₀ s : State} (hE : Evolves ps s₀ s)
    (hW : Sub [.events, .counters, .sampling, .batches, .replicas] ps) :
    Evolves ps s₀ (fileLeaf r e s) := by
  unfold fileLeaf
  repeat' first
    | exact Sub.of hW rfl
    | with_reducible first
        | exact hE | apply addLeaf_evolves | apply noteLeaf_evolves | refine Evolves.ite (fun _ => ?_) (fun _ => ?_)
        | refine Evolves.foldl ?_ ?_ | refine Evolves.foldl_fst ?_ ?_ | refine Evolves.foldl_snd ?_ ?_ | assumption
    | intro _ | dsimp only | split

theorem migTakeover_evolves  {ps : List Part} {s₀ s : State} (hE : Evolves ps s₀ s)
    (hW : Sub [.chains, .jobs] ps) :
    Evolves ps s₀ (migTakeover s) := by
  unfold migTakeover
  repeat' first
    | exact Sub.of hW rfl
    | with_reducible first
        | exact hE | apply voidWindows_evolves | refine Evolves.ite (fun _ => ?_) (fun _ => ?_)
        | refine Evolves.foldl ?_ ?_ | refine Evolves.foldl_fst ?_ ?_ | refine Evolves.foldl_snd ?_ ?_ | assumption
    | intro _ | dsimp only | split

end Sys2Proof.Machine
end

