-- ==== Sys2Proof/Laws/FrameOpsRed.lean ====
section
/-! SUPPORT. What the operations of Machine/OpsRed.lean change at most: one lemma each. -/

namespace Sys2Proof.Machine

set_option linter.unusedTactic false
set_option linter.unreachableTactic false
set_option linter.unusedVariables false

theorem activeIs_evolves {r : Option Nat} {ps : List Part} {s₀ s : State} (hE : Evolves ps s₀ s)
    (hW : Sub [.regs, .regRed] ps) :
    Evolves ps s₀ (activeIs r s) := by
  unfold activeIs
  repeat' first
    | exact Sub.of hW rfl
    | with_reducible first
        | exact hE | apply state_setFld_evolves
    | dsimp only

theorem clearReplica_evolves  {ps : List Part} {s₀ s : State} (hE : Evolves ps s₀ s)
    (hW : Sub [.events, .counters, .sampling, .commands, .replicas, .roles, .regs, .regRed] ps) :
    Evolves ps s₀ (clearReplica s) := by
  unfold clearReplica
  repeat' first
    | exact Sub.of hW rfl | exact .inl (Sub.of hW rfl) | with_reducible exact .inr rfl
    | exact .inr (FencesStay.refl _) | exact .inr (by dsimp only) | exact .inr rfl
    | with_reducible exact (fun h => h : _ = true → _) | (dsimp only; exact (fun h => h : _ = true → _))
    | exact (fun h => h : _ = true → _)
    | with_reducible first
        | exact hE | apply state_onRed_evolves | apply state_setFld_evolves | apply boundLeave_evolves
    | dsimp only

theorem setRole_evolves {new : Nat} {ps : List Part} {s₀ s : State} (hE : Evolves ps s₀ s)
    (hW : Sub [.events, .counters, .sampling, .regs, .regRed] ps) :
    Evolves ps s₀ (setRole new s) := by
  unfold setRole
  repeat' first
    | exact Sub.of hW rfl
    | with_reducible first
        | exact hE | apply emit_evolves | apply setRoleBit_evolves | apply state_setFld_evolves
        | refine Evolves.ite (fun _ => ?_) (fun _ => ?_)
    | dsimp only | split

theorem countQuorum_evolves  {ps : List Part} {s₀ s : State} (hE : Evolves ps s₀ s)
    (hW : Sub [.regs, .regRed] ps) :
    Evolves ps s₀ (countQuorum s) := by
  unfold countQuorum
  repeat' first
    | exact Sub.of hW rfl
    | with_reducible first
        | exact hE | apply state_setFld_evolves
    | dsimp only | split

theorem enterJoining_evolves  {ps : List Part} {s₀ s : State} (hE : Evolves ps s₀ s)
    (hW : Sub [.events, .counters, .sampling, .commands, .driveSlots, .replicas, .roles, .regs, .regRed] ps) :
    Evolves ps s₀ (enterJoining s) := by
  unfold enterJoining
  repeat' first
    | exact Sub.of hW rfl | exact .inl (Sub.of hW rfl) | with_reducible exact .inr rfl
    | exact .inr (FencesStay.refl _) | exact .inr (by dsimp only) | exact .inr rfl
    | with_reducible exact (fun h => h : _ = true → _) | (dsimp only; exact (fun h => h : _ = true → _))
    | exact (fun h => h : _ = true → _)
    | with_reducible first
        | exact hE | apply activeIs_evolves | apply clearReplica_evolves | apply setRole_evolves
        | apply state_onDrv_evolves | apply state_onRed_evolves | apply countQuorum_evolves | apply emit_evolves
        | refine Evolves.ite (fun _ => ?_) (fun _ => ?_)
    | dsimp only | split

theorem setEpoch_evolves {e : Nat} {ps : List Part} {s₀ s : State} (hE : Evolves ps s₀ s)
    (hW : Sub [.regs, .regRed] ps) :
    Evolves ps s₀ (setEpoch e s) := by
  unfold setEpoch
  repeat' first
    | exact Sub.of hW rfl
    | with_reducible first
        | exact hE | apply state_setFld_evolves
    | dsimp only

theorem portsOff_evolves  {ps : List Part} {s₀ s : State} (hE : Evolves ps s₀ s)
    (hW : Sub [.events, .counters, .sampling, .regs, .regPrt] ps) :
    Evolves ps s₀ (portsOff s) := by
  unfold portsOff
  repeat' first
    | exact Sub.of hW rfl
    | with_reducible first
        | exact hE | apply loseLink_evolves | refine Evolves.foldl ?_ ?_ | refine Evolves.foldl_fst ?_ ?_
        | refine Evolves.foldl_snd ?_ ?_ | assumption
    | intro _ | dsimp only

theorem standDown_evolves  {ps : List Part} {s₀ s : State} (hE : Evolves ps s₀ s)
    (hW : Sub [.events, .counters, .sampling, .driveSlots, .regs, .regPrt, .regRed] ps) :
    Evolves ps s₀ (standDown s) := by
  unfold standDown
  repeat' first
    | exact Sub.of hW rfl | exact .inl (Sub.of hW rfl) | with_reducible exact .inr rfl
    | exact .inr (FencesStay.refl _) | exact .inr (by dsimp only) | exact .inr rfl
    | with_reducible exact (fun h => h : _ = true → _) | (dsimp only; exact (fun h => h : _ = true → _))
    | exact (fun h => h : _ = true → _)
    | with_reducible first
        | exact hE | apply portsOff_evolves | apply countQuorum_evolves | apply setRole_evolves
        | apply state_onDrv_evolves
    | dsimp only

theorem leaveActive_evolves  {ps : List Part} {s₀ s : State} (hE : Evolves ps s₀ s)
    (hW : Sub [.events, .counters, .sampling, .driveSlots, .regs, .regPrt, .regRed] ps) :
    Evolves ps s₀ (leaveActive s) := by
  unfold leaveActive
  repeat' first
    | exact Sub.of hW rfl
    | with_reducible first
        | exact hE | apply standDown_evolves | refine Evolves.ite (fun _ => ?_) (fun _ => ?_)
    | dsimp only | split

theorem preempted_evolves {slot : Nat} {ps : List Part} {s₀ s : State} (hE : Evolves ps s₀ s)
    (hW : Sub [.events, .counters, .sampling, .driveSlots, .regs, .regPrt, .regRed] ps) :
    Evolves ps s₀ (preempted slot s) := by
  unfold preempted
  repeat' first
    | exact Sub.of hW rfl | exact .inl (Sub.of hW rfl) | with_reducible exact .inr rfl
    | exact .inr (FencesStay.refl _) | exact .inr (by dsimp only) | exact .inr rfl
    | with_reducible exact (fun h => h : _ = true → _) | (dsimp only; exact (fun h => h : _ = true → _))
    | exact (fun h => h : _ = true → _)
    | with_reducible first
        | exact hE | apply emit_evolves | apply state_onDrv_evolves | apply standDown_evolves
        | apply leaveActive_evolves | refine Evolves.ite (fun _ => ?_) (fun _ => ?_)
    | dsimp only | split

theorem sendAcks_evolves {acks : List (Nat × Nat × Nat)} {ps : List Part} {s₀ s : State} (hE : Evolves ps s₀ s)
    (hW : Sub [.out] ps) :
    Evolves ps s₀ (sendAcks acks s) := by
  unfold sendAcks
  repeat' first
    | exact Sub.of hW rfl
    | with_reducible first
        | exact hE | apply sendPacket_evolves | refine Evolves.ite (fun _ => ?_) (fun _ => ?_)
        | refine Evolves.foldl ?_ ?_ | refine Evolves.foldl_fst ?_ ?_ | refine Evolves.foldl_snd ?_ ?_ | assumption
    | intro _ | dsimp only | split

theorem releaseHeld_evolves  {ps : List Part} {s₀ s : State} (hE : Evolves ps s₀ s)
    (hW : Sub [.contexts, .leash, .regs, .regRed, .out] ps) :
    Evolves ps s₀ (releaseHeld s) := by
  unfold releaseHeld
  repeat' first
    | exact Sub.of hW rfl | exact .inl (Sub.of hW rfl) | with_reducible exact .inr rfl
    | exact .inr (FencesStay.refl _) | exact .inr (by dsimp only) | exact .inr rfl
    | with_reducible exact (fun h => h : _ = true → _) | (dsimp only; exact (fun h => h : _ = true → _))
    | exact (fun h => h : _ = true → _)
    | with_reducible first
        | exact hE | apply setEpoch_evolves | apply state_onRed_evolves | apply state_setFld_evolves
        | apply sendAcks_evolves | apply state_onXpt_evolves | refine Evolves.ite (fun _ => ?_) (fun _ => ?_)
    | dsimp only | split
    | with_reducible first
        | refine Evolves.fst_of (by assumption) ?_ | refine Evolves.snd_of (by assumption) ?_

theorem dropPeer_evolves {r : Nat} {ps : List Part} {s₀ s : State} (hE : Evolves ps s₀ s)
    (hW : Sub [.contexts, .leash, .replicas, .regs, .regRed, .out] ps) :
    Evolves ps s₀ (dropPeer r s) := by
  unfold dropPeer
  repeat' first
    | exact Sub.of hW rfl | exact .inl (Sub.of hW rfl) | with_reducible exact .inr rfl
    | exact .inr (FencesStay.refl _) | exact .inr (by dsimp only) | exact .inr rfl
    | with_reducible exact (fun h => h : _ = true → _) | (dsimp only; exact (fun h => h : _ = true → _))
    | exact (fun h => h : _ = true → _)
    | with_reducible first
        | exact hE | apply releaseHeld_evolves | apply countQuorum_evolves | apply state_onRed_evolves
        | apply setRoleBit_evolves
    | dsimp only

theorem markFenced_evolves {block : Nat} {unit : Nat} {reason : Nat} {ps : List Part} {s₀ s : State} (hE : Evolves ps s₀ s)
    (hW : Sub [.fences] ps) :
    Evolves ps s₀ (markFenced block unit reason s) := by
  unfold markFenced
  repeat' first
    | exact Sub.of hW rfl | exact fun _ _ h => bitAt_setBit_true h
    | with_reducible first
        | exact hE | apply onBlock_evolves | assumption
    | intro _ | dsimp only

theorem floorRole_evolves  {ps : List Part} {s₀ s : State} (hE : Evolves ps s₀ s)
    (hW : Sub [.events, .counters, .sampling, .driveSlots, .regs, .regPrt, .regRed] ps) :
    Evolves ps s₀ (floorRole s) := by
  unfold floorRole
  repeat' first
    | exact Sub.of hW rfl
    | with_reducible first
        | exact hE | apply standDown_evolves | refine Evolves.ite (fun _ => ?_) (fun _ => ?_)
    | dsimp only | split

theorem fenceUnit_evolves {block : Nat} {unit : Nat} {reason : Nat} {ps : List Part} {s₀ s : State} (hE : Evolves ps s₀ s)
    (hW : Sub [.events, .fences, .counters, .sampling, .controllers, .namespaces, .commands, .contexts, .driveSlots,
      .functions, .hostQueues, .leash, .replicas, .regs, .regPrt, .regRed, .out] ps) :
    Evolves ps s₀ (fenceUnit block unit reason s) := by
  unfold fenceUnit
  repeat' first
    | exact Sub.of hW rfl
    | with_reducible first
        | exact hE | apply markFenced_evolves | apply emit_evolves | apply updateAna_evolves | apply floorRole_evolves
        | apply boundEnter_evolves | refine Evolves.ite (fun _ => ?_) (fun _ => ?_)
    | dsimp only | split

theorem holdPerst_evolves  {ps : List Part} {s₀ s : State} (hE : Evolves ps s₀ s)
    (hW : Sub [.drivePorts] ps) :
    Evolves ps s₀ (holdPerst s) := by
  unfold holdPerst
  repeat' first
    | exact Sub.of hW rfl | exact .inl (Sub.of hW rfl) | with_reducible exact .inr rfl
    | exact .inr (FencesStay.refl _) | exact .inr (by dsimp only) | exact .inr rfl
    | with_reducible exact (fun h => h : _ = true → _) | (dsimp only; exact (fun h => h : _ = true → _))
    | exact (fun h => h : _ = true → _)
    | with_reducible first
        | exact hE | apply state_onDrv_evolves | refine Evolves.ite (fun _ => ?_) (fun _ => ?_)
    | dsimp only | split

theorem fenceSelf_evolves {cause : Nat} {ps : List Part} {s₀ s : State} (hE : Evolves ps s₀ s)
    (hW : Sub [.events, .counters, .sampling, .drivePorts, .driveSlots, .regs, .regPrt, .regRed] ps) :
    Evolves ps s₀ (fenceSelf cause s) := by
  unfold fenceSelf
  repeat' first
    | exact Sub.of hW rfl | exact .inl (Sub.of hW rfl) | with_reducible exact .inr rfl
    | exact .inr (FencesStay.refl _) | exact .inr (by dsimp only) | exact .inr rfl
    | with_reducible exact (fun h => h : _ = true → _) | (dsimp only; exact (fun h => h : _ = true → _))
    | exact (fun h => h : _ = true → _)
    | with_reducible first
        | exact hE | apply setRoleBit_evolves | apply emit_evolves | apply setRole_evolves | apply portsOff_evolves
        | apply holdPerst_evolves | apply countQuorum_evolves | apply state_onDrv_evolves
        | refine Evolves.ite (fun _ => ?_) (fun _ => ?_)
    | dsimp only | split

theorem fencePeer_evolves {cause : Nat} {r : Nat} {ps : List Part} {s₀ s : State} (hE : Evolves ps s₀ s)
    (hW : Sub [.events, .counters, .sampling, .contexts, .leash, .replicas, .regs, .regRed, .out] ps) :
    Evolves ps s₀ (fencePeer cause r s) := by
  unfold fencePeer
  repeat' first
    | exact Sub.of hW rfl
    | with_reducible first
        | exact hE | apply setRoleBit_evolves | apply dropPeer_evolves | apply emit_evolves | apply sendAll_evolves
    | dsimp only

theorem joinerLost_evolves {r : Nat} {ps : List Part} {s₀ s : State} (hE : Evolves ps s₀ s)
    (hW : Sub [.events, .counters, .sampling, .commands, .contexts, .leash, .regs, .regRed, .out] ps) :
    Evolves ps s₀ (joinerLost s r) := by
  unfold joinerLost
  repeat' first
    | exact Sub.of hW rfl
    | with_reducible first
        | exact hE | apply state_setFldI_evolves | apply state_setFld_evolves | apply releaseHeld_evolves
        | apply boundLeave_evolves
    | dsimp only

theorem wipeObjects_evolves  {ps : List Part} {s₀ s : State} (hE : Evolves ps s₀ s)
    (hW : Sub [.controllers, .queues, .commands, .contexts, .regions, .mapping, .journal, .batches, .jobs, .buffer,
      .regs, .regSwc, .out] ps) :
    Evolves ps s₀ (wipeObjects s) := by
  unfold wipeObjects
  repeat' first
    | exact Sub.of hW rfl | exact .inl (Sub.of hW rfl) | with_reducible exact .inr rfl
    | exact .inr (FencesStay.refl _) | exact .inr (by dsimp only) | exact .inr rfl
    | with_reducible exact (fun h => h : _ = true → _) | (dsimp only; exact (fun h => h : _ = true → _))
    | exact (fun h => h : _ = true → _)
    | with_reducible first
        | exact hE | apply sweepSlots_evolves | apply state_onCmd_evolves | apply state_onLay_evolves
        | apply state_onXpt_evolves | apply state_onFix_evolves
    | dsimp only

theorem resyncFails_evolves {cause : Nat} {ps : List Part} {s₀ s : State} (hE : Evolves ps s₀ s)
    (hW : Sub [.events, .counters, .sampling, .controllers, .queues, .commands, .contexts, .regions, .mapping, .journal,
      .batches, .jobs, .driveSlots, .buffer, .replicas, .roles, .regs, .regSwc, .regRed, .out] ps) :
    Evolves ps s₀ (resyncFails cause s) := by
  unfold resyncFails
  repeat' first
    | exact Sub.of hW rfl
    | with_reducible first
        | exact hE | apply enterJoining_evolves | apply wipeObjects_evolves | apply emit_evolves
    | dsimp only

theorem leashDown_evolves {link : Nat} {cause : Nat} {ps : List Part} {s₀ s : State} (hE : Evolves ps s₀ s)
    (hW : Sub [.events, .counters, .sampling, .controllers, .queues, .commands, .contexts, .regions, .mapping, .journal,
      .batches, .jobs, .driveSlots, .buffer, .leash, .replicas, .roles, .regs, .regSwc, .regRed, .out] ps) :
    Evolves ps s₀ (leashDown link cause s) := by
  unfold leashDown
  repeat' first
    | exact Sub.of hW rfl
    | with_reducible first
        | exact hE | apply onLeash_evolves | apply state_setFldI_evolves | apply emit_evolves
        | apply joinerLost_evolves | apply resyncFails_evolves | refine Evolves.ite (fun _ => ?_) (fun _ => ?_)
        | refine Evolves.foldl ?_ ?_ | refine Evolves.foldl_fst ?_ ?_ | refine Evolves.foldl_snd ?_ ?_ | assumption
    | intro _ | dsimp only | split

theorem leashIn_evolves {h : LeashHdr} {ps : List Part} {s₀ s : State} (hE : Evolves ps s₀ s)
    (hW : Sub [.leash, .regs, .regRed] ps) :
    Evolves ps s₀ (leashIn h s).1 := by
  unfold leashIn
  repeat' first
    | exact Sub.of hW rfl
    | with_reducible first
        | exact hE | apply state_bumpI_evolves | apply onLeash_evolves | apply state_setFldI_evolves
        | refine Evolves.ite (fun _ => ?_) (fun _ => ?_)
    | dsimp only | split

theorem keepFloor_evolves  {ps : List Part} {s₀ s : State} (hE : Evolves ps s₀ s)
    (hW : Sub [.events, .counters, .sampling, .driveSlots, .regs, .regPrt, .regRed] ps) :
    Evolves ps s₀ (keepFloor s) := by
  unfold keepFloor
  repeat' first
    | exact Sub.of hW rfl
    | with_reducible first
        | exact hE | apply floorRole_evolves | refine Evolves.ite (fun _ => ?_) (fun _ => ?_)
    | dsimp only | split

theorem replicaLost_evolves  {ps : List Part} {s₀ s : State} (hE : Evolves ps s₀ s)
    (hW : Sub [.events, .counters, .sampling, .commands, .driveSlots, .replicas, .roles, .regs, .regPrt, .regRed] ps) :
    Evolves ps s₀ (replicaLost s) := by
  unfold replicaLost
  repeat' first
    | exact Sub.of hW rfl | exact .inl (Sub.of hW rfl) | with_reducible exact .inr rfl
    | exact .inr (FencesStay.refl _) | exact .inr (by dsimp only) | exact .inr rfl
    | with_reducible exact (fun h => h : _ = true → _) | (dsimp only; exact (fun h => h : _ = true → _))
    | exact (fun h => h : _ = true → _)
    | with_reducible first
        | exact hE | apply state_onRed_evolves | apply standDown_evolves | apply enterJoining_evolves
        | refine Evolves.ite (fun _ => ?_) (fun _ => ?_)
    | dsimp only | split

end Sys2Proof.Machine
end

