-- ==== Sys2Proof/Laws/FramePipeline.lean ====
section
/-! SUPPORT. What the operations of Machine/Pipeline.lean change at most: one lemma each. -/

namespace Sys2Proof.Machine

set_option linter.unusedTactic false
set_option linter.unreachableTactic false
set_option linter.unusedVariables false

theorem measure_evolves {e : Entry} {ps : List Part} {s₀ s : State} (hE : Evolves ps s₀ s)
    (hW : Sub [.events, .counters, .sampling, .regs, .regCmd] ps) :
    Evolves ps s₀ (measure e s) := by
  unfold measure
  repeat' first
    | exact Sub.of hW rfl
    | with_reducible first
        | exact hE | apply state_setFldI_evolves | apply emit_evolves | refine Evolves.ite (fun _ => ?_) (fun _ => ?_)
    | dsimp only | split

theorem runRows_evolves {jseq : Nat} {gts : Nat} {x2 : List Alloc} {x3 : List Nat} {ps : List Part} {s₀ x4 : State} (hE : Evolves ps s₀ x4)
    (hW : Sub [.mapping] ps) :
    Evolves ps s₀ (runRows jseq gts x2 x3 x4) := by
  induction x2 generalizing x3 x4 with
  | nil => exact hE
  | cons a l ih =>
    unfold runRows
    repeat' first
      | with_reducible exact hE
      | exact Sub.of hW rfl
      | exact .inl (Sub.of hW rfl)
      | with_reducible exact .inr rfl
      | exact .inr (by dsimp only)
      | exact .inr rfl
      | (dsimp only; exact (fun h => h : _ = true → _))
      | exact (fun h => h : _ = true → _)
      | with_reducible exact hW
      | exact List.prefix_append _ _
      | with_reducible apply ih
      | with_reducible apply setRows_evolves
      | with_reducible refine Evolves.ite (fun _ => ?_) (fun _ => ?_)
      | with_reducible refine Evolves.foldl ?_ ?_
      | intro _
      | dsimp only
      | split
      | with_reducible assumption

theorem commitRuns_evolves {jseq : Nat} {gts : Nat} {as : List Alloc} {cs : List Nat} {ps : List Part} {s₀ s : State} (hE : Evolves ps s₀ s)
    (hW : Sub [.events, .counters, .sampling, .commands, .mapping, .journal, .layoutWork, .drivePorts, .out] ps) :
    Evolves ps s₀ (commitRuns jseq gts as cs s) := by
  unfold commitRuns
  repeat' first
    | exact Sub.of hW rfl
    | with_reducible first
        | exact hE | apply releaseAllocs_evolves | apply runRows_evolves
    | dsimp only

theorem toPosting_evolves {i : Nat} {st : Status} {dw0 : Nat} {ps : List Part} {s₀ s : State} (hE : Evolves ps s₀ s)
    (hW : Sub [.commands] ps) :
    Evolves ps s₀ (toPosting i st dw0 s) := by
  unfold toPosting
  repeat' first
    | exact Sub.of hW rfl
    | with_reducible first
        | exact hE | apply onEntry_evolves
    | dsimp only

theorem sendRead_evolves {urgent : Bool} {w : UnitIo} {ps : List Part} {s₀ s : State} (hE : Evolves ps s₀ s)
    (hW : Sub [.drivePorts, .out] ps) :
    Evolves ps s₀ (sendRead urgent s w) := by
  unfold sendRead
  repeat' first
    | exact Sub.of hW rfl
    | with_reducible first
        | exact hE | apply drvSubmit_evolves
    | dsimp only

theorem startReturn_evolves {i : Nat} {data : Bytes} {dw0 : Nat} {ps : List Part} {s₀ s : State} (hE : Evolves ps s₀ s)
    (hW : Sub [.commands, .contexts, .hbm, .leash, .replicas, .out] ps) :
    Evolves ps s₀ (startReturn i data dw0 s) := by
  unfold startReturn
  repeat' first
    | exact Sub.of hW rfl
    | with_reducible first
        | exact hE | apply toPosting_evolves | apply hbmWrite_evolves | apply onEntry_evolves
        | apply hepReturn_evolves | apply sendWrite_evolves | refine Evolves.ite (fun _ => ?_) (fun _ => ?_)
        | refine Evolves.foldl ?_ ?_ | refine Evolves.foldl_fst ?_ ?_ | refine Evolves.foldl_snd ?_ ?_ | assumption
    | intro _ | dsimp only | split

theorem readReturn_evolves {i : Nat} {ps : List Part} {s₀ s : State} (hE : Evolves ps s₀ s)
    (hW : Sub [.commands, .contexts, .hbm, .leash, .replicas, .out] ps) :
    Evolves ps s₀ (readReturn i s) := by
  unfold readReturn
  repeat' first
    | exact Sub.of hW rfl
    | with_reducible first
        | exact hE | apply toPosting_evolves | apply startReturn_evolves
    | dsimp only | split
    | with_reducible first
        | refine Evolves.fst_of (by assumption) ?_ | refine Evolves.snd_of (by assumption) ?_

theorem readChecked_evolves {i : Nat} {ps : List Part} {s₀ s : State} (hE : Evolves ps s₀ s)
    (hW : Sub [.commands, .contexts, .hbm, .ciphers, .leash, .replicas, .regs, .regLay, .out] ps) :
    Evolves ps s₀ (readChecked i s) := by
  unfold readChecked
  repeat' first
    | exact Sub.of hW rfl
    | with_reducible first
        | exact hE | apply state_bumpI_evolves | apply readReturn_evolves | apply cipherEntry_evolves
        | apply toPosting_evolves | refine Evolves.ite (fun _ => ?_) (fun _ => ?_)
    | dsimp only | split

theorem readDone_evolves {i : Nat} {ps : List Part} {s₀ s : State} (hE : Evolves ps s₀ s)
    (hW : Sub [.commands, .contexts, .hbm, .layoutWork, .ciphers, .leash, .replicas, .regs, .regLay, .out] ps) :
    Evolves ps s₀ (readDone i s) := by
  unfold readDone
  repeat' first
    | exact Sub.of hW rfl
    | with_reducible first
        | exact hE | apply readChecked_evolves | apply dispatchSlices_evolves | apply queueSlices_evolves
        | apply onEntry_evolves
    | dsimp only | split
    | with_reducible first
        | refine Evolves.fst_of (by assumption) ?_ | refine Evolves.snd_of (by assumption) ?_

theorem advanceRead_evolves {i : Nat} {ps : List Part} {s₀ s : State} (hE : Evolves ps s₀ s)
    (hW : Sub [.commands, .contexts, .hbm, .layoutWork, .ciphers, .drivePorts, .leash, .replicas, .regs, .regLay, .out] ps) :
    Evolves ps s₀ (advanceRead i s) := by
  unfold advanceRead
  repeat' first
    | exact Sub.of hW rfl
    | with_reducible first
        | exact hE | apply toPosting_evolves | apply sendRead_evolves | apply onEntry_evolves | apply readDone_evolves
        | refine Evolves.ite (fun _ => ?_) (fun _ => ?_) | refine Evolves.foldl ?_ ?_ | refine Evolves.foldl_fst ?_ ?_
        | refine Evolves.foldl_snd ?_ ?_ | assumption
    | intro _ | dsimp only | split

theorem dropOwn_evolves {i : Nat} {ps : List Part} {s₀ s : State} (hE : Evolves ps s₀ s)
    (hW : Sub [.events, .counters, .sampling, .commands, .powerState, .contexts, .mapping, .journal, .layoutWork,
      .ciphers, .drivePorts, .buffer, .regs, .regSwc, .out] ps) :
    Evolves ps s₀ (dropOwn i s) := by
  unfold dropOwn
  repeat' first
    | exact Sub.of hW rfl
    | with_reducible first
        | exact hE | apply freeEntry_evolves | apply releaseAllocs_evolves
    | dsimp only

theorem sendUnit_evolves {urgent : Bool} {w : UnitIo} {ps : List Part} {s₀ s : State} (hE : Evolves ps s₀ s)
    (hW : Sub [.drivePorts, .out] ps) :
    Evolves ps s₀ (sendUnit urgent s w) := by
  unfold sendUnit
  repeat' first
    | exact Sub.of hW rfl
    | with_reducible first
        | exact hE | apply drvSubmit_evolves
    | dsimp only

theorem submitUnits_evolves {i : Nat} {ps : List Part} {s₀ s : State} (hE : Evolves ps s₀ s)
    (hW : Sub [.commands, .drivePorts, .out] ps) :
    Evolves ps s₀ (submitUnits i s) := by
  unfold submitUnits
  repeat' first
    | exact Sub.of hW rfl
    | with_reducible first
        | exact hE | apply onEntry_evolves | apply sendUnit_evolves | refine Evolves.foldl ?_ ?_
        | refine Evolves.foldl_fst ?_ ?_ | refine Evolves.foldl_snd ?_ ?_ | assumption
    | intro _ | dsimp only

theorem onRec_evolves {jseq : Nat} {f : JRec → JRec} {ps : List Part} {s₀ s : State} (hE : Evolves ps s₀ s)
    (hW : Sub [.journal] ps) :
    Evolves ps s₀ (onRec jseq f s) := by
  unfold onRec
  repeat' first
    | exact Sub.of hW rfl | exact .inl (Sub.of hW rfl) | with_reducible exact .inr rfl
    | exact .inr (FencesStay.refl _) | exact .inr (by dsimp only) | exact .inr rfl
    | with_reducible exact (fun h => h : _ = true → _) | (dsimp only; exact (fun h => h : _ = true → _))
    | exact (fun h => h : _ = true → _)
    | with_reducible first
        | exact hE | apply state_onLay_evolves | refine Evolves.ite (fun _ => ?_) (fun _ => ?_)
    | dsimp only | split

theorem waitJournal_evolves {i : Nat} {ps : List Part} {s₀ s : State} (hE : Evolves ps s₀ s)
    (hW : Sub [.commands, .journal] ps) :
    Evolves ps s₀ (waitJournal i s) := by
  unfold waitJournal
  repeat' first
    | exact Sub.of hW rfl | exact .inl (Sub.of hW rfl) | with_reducible exact .inr rfl
    | exact .inr (FencesStay.refl _) | exact .inr (by dsimp only) | exact .inr rfl
    | with_reducible exact (fun h => h : _ = true → _) | (dsimp only; exact (fun h => h : _ = true → _))
    | exact (fun h => h : _ = true → _)
    | with_reducible first
        | exact hE | apply onEntry_evolves | apply state_onLay_evolves
        | refine Evolves.ite (fun _ => ?_) (fun _ => ?_)
    | dsimp only | split

theorem journalStep_evolves {i : Nat} {ps : List Part} {s₀ s : State} (hE : Evolves ps s₀ s)
    (hW : Sub [.events, .counters, .sampling, .commands, .powerState, .contexts, .mapping, .journal, .layoutWork,
      .ciphers, .drivePorts, .buffer, .regs, .regSwc, .out] ps) :
    Evolves ps s₀ (journalStep i s) := by
  unfold journalStep
  repeat' first
    | exact Sub.of hW rfl | exact .inl (Sub.of hW rfl) | with_reducible exact .inr rfl
    | exact .inr (FencesStay.refl _) | exact .inr (by dsimp only) | exact .inr rfl
    | with_reducible exact (fun h => h : _ = true → _) | (dsimp only; exact (fun h => h : _ = true → _))
    | exact (fun h => h : _ = true → _)
    | with_reducible first
        | exact hE | apply dropOwn_evolves | apply waitJournal_evolves | apply toPosting_evolves
        | apply releaseAllocs_evolves | apply onEntry_evolves | apply state_onLay_evolves | apply submitRecord_evolves
        | refine Evolves.ite (fun _ => ?_) (fun _ => ?_) | refine Evolves.foldl ?_ ?_ | refine Evolves.foldl_fst ?_ ?_
        | refine Evolves.foldl_snd ?_ ?_ | assumption
    | intro _ | dsimp only | split

theorem cipherDone_evolves {i : Nat} {ps : List Part} {s₀ s : State} (hE : Evolves ps s₀ s)
    (hW : Sub [.commands, .contexts, .hbm, .layoutWork, .leash, .replicas, .out] ps) :
    Evolves ps s₀ (cipherDone i s) := by
  unfold cipherDone
  repeat' first
    | exact Sub.of hW rfl
    | with_reducible first
        | exact hE | apply dispatchSlices_evolves | apply queueSlices_evolves | apply onEntry_evolves
        | apply readReturn_evolves | refine Evolves.ite (fun _ => ?_) (fun _ => ?_)
    | dsimp only | split

theorem releaseWaiting_evolves  {ps : List Part} {s₀ s : State} (hE : Evolves ps s₀ s)
    (hW : Sub [.events, .counters, .sampling, .commands, .powerState, .contexts, .mapping, .journal, .layoutWork,
      .ciphers, .drivePorts, .buffer, .regs, .regSwc, .out] ps) :
    Evolves ps s₀ (releaseWaiting s) := by
  unfold releaseWaiting
  repeat' first
    | exact Sub.of hW rfl
    | with_reducible first
        | exact hE | apply journalStep_evolves | refine Evolves.foldl ?_ ?_ | refine Evolves.foldl_fst ?_ ?_
        | refine Evolves.foldl_snd ?_ ?_ | assumption
    | intro _ | dsimp only

theorem noteRecord_evolves {r : JRec} {ps : List Part} {s₀ s : State} (hE : Evolves ps s₀ s)
    (hW : Sub [.replicas] ps) :
    Evolves ps s₀ (noteRecord r s) := by
  unfold noteRecord
  repeat' first
    | exact Sub.of hW rfl
    | with_reducible first
        | exact hE | apply noteCommit_evolves | refine Evolves.ite (fun _ => ?_) (fun _ => ?_)
    | dsimp only | split
    | with_reducible first
        | refine Evolves.fst_of (by assumption) ?_ | refine Evolves.snd_of (by assumption) ?_

theorem memberCommitted_evolves {r : JRec} {ps : List Part} {s₀ s : State} (hE : Evolves ps s₀ s)
    (hW : Sub [.controllers, .namespaces, .contexts, .mapping, .layoutWork, .functions, .hostQueues, .leash, .replicas,
      .out] ps) :
    Evolves ps s₀ (memberCommitted r s) := by
  unfold memberCommitted
  repeat' first
    | exact Sub.of hW rfl | exact .inl (Sub.of hW rfl) | with_reducible exact .inr rfl
    | exact .inr (FencesStay.refl _) | exact .inr (by dsimp only) | exact .inr rfl
    | with_reducible exact (fun h => h : _ = true → _) | (dsimp only; exact (fun h => h : _ = true → _))
    | exact (fun h => h : _ = true → _)
    | with_reducible first
        | exact hE | apply onSet_evolves | apply updateAna_evolves | apply state_onLay_evolves
        | refine Evolves.ite (fun _ => ?_) (fun _ => ?_)
    | dsimp only | split
    | with_reducible first
        | refine Evolves.fst_of (by assumption) ?_ | refine Evolves.snd_of (by assumption) ?_

theorem ownerCommitted_evolves {r : JRec} {ps : List Part} {s₀ s : State} (hE : Evolves ps s₀ s)
    (hW : Sub [.events, .counters, .sampling, .commands, .powerState, .contexts, .journal, .layoutWork, .ciphers,
      .batches, .buffer, .replicas, .regs, .regSwc, .out] ps) :
    Evolves ps s₀ (ownerCommitted r s) := by
  unfold ownerCommitted
  repeat' first
    | exact Sub.of hW rfl
    | with_reducible first
        | exact hE | apply freeEntry_evolves | apply fileLeaf_evolves | apply toPosting_evolves
        | refine Evolves.ite (fun _ => ?_) (fun _ => ?_)
    | dsimp only | split
    | with_reducible first
        | refine Evolves.fst_of (by assumption) ?_ | refine Evolves.snd_of (by assumption) ?_

theorem freeReclaimed_evolves {id : Nat} {ps : List Part} {s₀ s : State} (hE : Evolves ps s₀ s)
    (hW : Sub [.events, .counters, .sampling, .commands, .mapping, .journal, .layoutWork, .drivePorts, .out] ps) :
    Evolves ps s₀ (freeReclaimed id s) := by
  unfold freeReclaimed
  repeat' first
    | exact Sub.of hW rfl
    | with_reducible first
        | exact hE | apply onSet_evolves | apply submitRecord_evolves | apply releaseChunk_evolves
        | apply emit_evolves | refine Evolves.ite (fun _ => ?_) (fun _ => ?_) | refine Evolves.foldl ?_ ?_
        | refine Evolves.foldl_fst ?_ ?_ | refine Evolves.foldl_snd ?_ ?_ | assumption
    | intro _ | dsimp only | split

theorem startReclaim_evolves  {ps : List Part} {s₀ s : State} (hE : Evolves ps s₀ s)
    (hW : Sub [.mapping] ps) :
    Evolves ps s₀ (startReclaim s) := by
  unfold startReclaim
  repeat' first
    | exact Sub.of hW rfl
    | with_reducible first
        | exact hE | apply onSet_evolves | refine Evolves.ite (fun _ => ?_) (fun _ => ?_) | refine Evolves.foldl ?_ ?_
        | refine Evolves.foldl_fst ?_ ?_ | refine Evolves.foldl_snd ?_ ?_ | assumption
    | intro _ | dsimp only | split

theorem commitRecord_evolves {jseq : Nat} {ps : List Part} {s₀ s : State} (hE : Evolves ps s₀ s)
    (hW : Sub [.events, .counters, .sampling, .controllers, .namespaces, .commands, .powerState, .contexts, .mapping,
      .journal, .layoutWork, .ciphers, .batches, .drivePorts, .buffer, .functions, .hostQueues, .leash,
      .replicas, .regs, .regSwc, .out] ps) :
    Evolves ps s₀ (commitRecord jseq s) := by
  unfold commitRecord
  repeat' first
    | exact Sub.of hW rfl | exact .inl (Sub.of hW rfl) | with_reducible exact .inr rfl
    | exact .inr (FencesStay.refl _) | exact .inr (by dsimp only) | exact .inr rfl
    | with_reducible exact (fun h => h : _ = true → _) | (dsimp only; exact (fun h => h : _ = true → _))
    | exact (fun h => h : _ = true → _)
    | with_reducible first
        | exact hE | apply releaseWaiting_evolves | apply retire_evolves | apply noteRecord_evolves
        | apply onRec_evolves | apply state_onLay_evolves | apply commitRuns_evolves | apply onSet_evolves
        | apply memberCommitted_evolves | apply mapPrune_evolves | apply ownerCommitted_evolves
        | apply freeReclaimed_evolves | apply startReclaim_evolves | refine Evolves.ite (fun _ => ?_) (fun _ => ?_)
        | refine Evolves.foldl ?_ ?_ | refine Evolves.foldl_fst ?_ ?_ | refine Evolves.foldl_snd ?_ ?_ | assumption
    | intro _ | dsimp only | split
    | with_reducible first
        | refine Evolves.fst_of (by assumption) ?_ | refine Evolves.snd_of (by assumption) ?_

theorem roundEnds_evolves {i : Nat} {ps : List Part} {s₀ s : State} (hE : Evolves ps s₀ s)
    (hW : Sub [.commands] ps) :
    Evolves ps s₀ (roundEnds i s) := by
  unfold roundEnds
  repeat' first
    | exact Sub.of hW rfl
    | with_reducible first
        | exact hE | apply onEntry_evolves
    | dsimp only

theorem copiesDone_evolves {jseq : Nat} {ps : List Part} {s₀ s : State} (hE : Evolves ps s₀ s)
    (hW : Sub [.events, .counters, .sampling, .controllers, .namespaces, .commands, .powerState, .contexts, .mapping,
      .journal, .layoutWork, .ciphers, .batches, .drivePorts, .buffer, .functions, .hostQueues, .leash,
      .replicas, .regs, .regSwc, .out] ps) :
    Evolves ps s₀ (copiesDone jseq s) := by
  unfold copiesDone
  repeat' first
    | exact Sub.of hW rfl
    | with_reducible first
        | exact hE | apply roundEnds_evolves | apply onEntry_evolves | apply noteRecord_evolves
        | apply commitRecord_evolves | refine Evolves.ite (fun _ => ?_) (fun _ => ?_)
    | dsimp only | split
    | with_reducible first
        | refine Evolves.fst_of (by assumption) ?_ | refine Evolves.snd_of (by assumption) ?_

theorem releaseDeferred_evolves  {ps : List Part} {s₀ s : State} (hE : Evolves ps s₀ s)
    (hW : Sub [.events, .counters, .sampling, .commands, .powerState, .contexts, .mapping, .journal, .layoutWork,
      .ciphers, .drivePorts, .buffer, .regs, .regSwc, .out] ps) :
    Evolves ps s₀ (releaseDeferred s) := by
  unfold releaseDeferred
  repeat' first
    | exact Sub.of hW rfl | exact .inl (Sub.of hW rfl) | with_reducible exact .inr rfl
    | exact .inr (FencesStay.refl _) | exact .inr (by dsimp only) | exact .inr rfl
    | with_reducible exact (fun h => h : _ = true → _) | (dsimp only; exact (fun h => h : _ = true → _))
    | exact (fun h => h : _ = true → _)
    | with_reducible first
        | exact hE | apply releaseWaiting_evolves | apply submitRecord_evolves | apply state_onLay_evolves
        | refine Evolves.ite (fun _ => ?_) (fun _ => ?_) | refine Evolves.foldl ?_ ?_ | refine Evolves.foldl_fst ?_ ?_
        | refine Evolves.foldl_snd ?_ ?_ | assumption
    | intro _ | dsimp only | split

theorem encodeData_evolves {i : Nat} {ps : List Part} {s₀ s : State} (hE : Evolves ps s₀ s)
    (hW : Sub [.commands, .contexts, .hbm, .layoutWork, .ciphers, .leash, .replicas, .out] ps) :
    Evolves ps s₀ (encodeData i s) := by
  unfold encodeData
  repeat' first
    | exact Sub.of hW rfl
    | with_reducible first
        | exact hE | apply onEntry_evolves | apply cipherDone_evolves | apply cipherEntry_evolves
        | refine Evolves.ite (fun _ => ?_) (fun _ => ?_)
    | dsimp only | split

theorem fenceLayoutLane_evolves {lane : Nat} {reason : Nat} {ps : List Part} {s₀ s : State} (hE : Evolves ps s₀ s)
    (hW : Sub [.events, .fences, .counters, .sampling, .controllers, .namespaces, .commands, .contexts, .layoutWork,
      .driveSlots, .functions, .hostQueues, .leash, .replicas, .regs, .regPrt, .regRed, .out] ps) :
    Evolves ps s₀ (fenceLayoutLane lane reason s) := by
  unfold fenceLayoutLane
  repeat' first
    | exact Sub.of hW rfl | exact .inl (Sub.of hW rfl) | with_reducible exact .inr rfl
    | exact .inr (FencesStay.refl _) | exact .inr (by dsimp only) | exact .inr rfl
    | with_reducible exact (fun h => h : _ = true → _) | (dsimp only; exact (fun h => h : _ = true → _))
    | exact (fun h => h : _ = true → _)
    | with_reducible first
        | exact hE | apply fenceUnit_evolves | apply redo_evolves | apply state_onLay_evolves
        | apply dispatchSlices_evolves | apply queueSlices_evolves
    | dsimp only | split
    | with_reducible first
        | refine Evolves.fst_of (by assumption) ?_ | refine Evolves.snd_of (by assumption) ?_

theorem unitCheckFail_evolves {set : Nat} {row : Nat} {u : Nat} {ps : List Part} {s₀ s : State} (hE : Evolves ps s₀ s)
    (hW : Sub [.events, .counters, .sampling, .layoutWork, .regs, .regLay] ps) :
    Evolves ps s₀ (unitCheckFail set row u s) := by
  unfold unitCheckFail
  repeat' first
    | exact Sub.of hW rfl | exact .inl (Sub.of hW rfl) | with_reducible exact .inr rfl
    | exact .inr (FencesStay.refl _) | exact .inr (by dsimp only) | exact .inr rfl
    | with_reducible exact (fun h => h : _ = true → _) | (dsimp only; exact (fun h => h : _ = true → _))
    | exact (fun h => h : _ = true → _)
    | with_reducible first
        | exact hE | apply state_bump_evolves | apply emit_evolves | apply state_onLay_evolves
        | refine Evolves.ite (fun _ => ?_) (fun _ => ?_)
    | dsimp only | split

end Sys2Proof.Machine
end

