-- ==== Sys2Proof/Laws/FrameDriveLoss.lean ====
section
/-! SUPPORT. What the operations of Machine/DriveLoss.lean change at most: one lemma each. -/

namespace Sys2Proof.Machine

set_option linter.unusedTactic false
set_option linter.unreachableTactic false
set_option linter.unusedVariables false

theorem allocateOne_evolves {nsid : Nat} {bytes : Nat} {ps : List Part} {s₀ s : State} (hE : Evolves ps s₀ s)
    (hW : Sub [.events, .counters, .sampling, .commands, .mapping, .journal, .layoutWork, .drivePorts, .out] ps) :
    ∀ t a, allocateOne nsid bytes s = .ok (t, a) → Evolves ps s₀ t := by
  intro t a ht
  unfold allocateOne at ht
  repeat' first
    | contradiction
    | (with_reducible obtain rfl := Option.some.inj ht)
    | (with_reducible obtain ⟨rfl, rfl⟩ := Prod.mk.inj (Option.some.inj ht))
    | (with_reducible obtain ⟨rfl, rfl⟩ := Prod.mk.inj (Except.ok.inj ht))
    | dsimp only at ht
    | split at ht
  all_goals
    repeat' first
      | exact Sub.of hW rfl
      | with_reducible first
          | exact hE | apply takeRows_evolves | apply openSet_evolves | refine Evolves.ite (fun _ => ?_) (fun _ => ?_)
      | dsimp only | split
      | with_reducible first
          | refine Evolves.fst_of (by assumption) ?_ | refine Evolves.snd_of (by assumption) ?_

theorem allocateFor_evolves {cap : Capsule} {ps : List Part} {s₀ s : State} (hE : Evolves ps s₀ s)
    (hW : Sub [.events, .counters, .sampling, .commands, .mapping, .journal, .layoutWork, .drivePorts, .out] ps) :
    ∀ t a, allocateFor cap s = .ok (t, a) → Evolves ps s₀ t := by
  intro t a ht
  unfold allocateFor at ht
  dsimp only at ht
  split at ht
  · cases ht
  · rename_i h
    split at ht
    · cases ht
    · obtain ⟨rfl, rfl⟩ := Prod.mk.inj (Except.ok.inj ht)
      split at h
      · exact allocateOne_evolves hE (Sub.of hW rfl) _ _ h
      · exact allocate_evolves hE (Sub.of hW rfl) _ _ h

theorem dropTarget_evolves {p : Nat → Nat → Member → Bool} {ps : List Part} {s₀ s : State} (hE : Evolves ps s₀ s)
    (hW : Sub [.mapping, .layoutWork] ps) :
    Evolves ps s₀ (dropTarget p s) := by
  unfold dropTarget
  repeat' first
    | exact Sub.of hW rfl | exact .inl (Sub.of hW rfl) | with_reducible exact .inr rfl
    | exact .inr (FencesStay.refl _) | exact .inr (by dsimp only) | exact .inr rfl
    | with_reducible exact (fun h => h : _ = true → _) | (dsimp only; exact (fun h => h : _ = true → _))
    | exact (fun h => h : _ = true → _)
    | with_reducible first
        | exact hE | apply releaseChunk_evolves | apply state_onLay_evolves
        | refine Evolves.ite (fun _ => ?_) (fun _ => ?_)
    | dsimp only | split
    | with_reducible first
        | refine Evolves.fst_of (by assumption) ?_ | refine Evolves.snd_of (by assumption) ?_

theorem failOwn_evolves {i : Nat} {ps : List Part} {s₀ s : State} (hE : Evolves ps s₀ s)
    (hW : Sub [.events, .counters, .sampling, .commands, .powerState, .contexts, .mapping, .journal, .layoutWork,
      .ciphers, .storeWrites, .drivePorts, .buffer, .regs, .regSwc, .out] ps) :
    Evolves ps s₀ (failOwn i s) := by
  unfold failOwn
  repeat' first
    | exact Sub.of hW rfl | exact .inl (Sub.of hW rfl) | with_reducible exact .inr rfl
    | exact .inr (FencesStay.refl _) | exact .inr (by dsimp only) | exact .inr rfl
    | with_reducible exact (fun h => h : _ = true → _) | (dsimp only; exact (fun h => h : _ = true → _))
    | exact (fun h => h : _ = true → _)
    | with_reducible first
        | exact hE | apply dropOwn_evolves | apply state_onFix_evolves
        | refine Evolves.ite (fun _ => ?_) (fun _ => ?_)
    | dsimp only | split

theorem noSpace_evolves {i : Nat} {why : NoSpace} {ps : List Part} {s₀ s : State} (hE : Evolves ps s₀ s)
    (hW : Sub [.events, .counters, .sampling, .commands] ps) :
    Evolves ps s₀ (noSpace i why s) := by
  unfold noSpace
  repeat' first
    | exact Sub.of hW rfl
    | with_reducible first
        | exact hE | apply toPosting_evolves | apply emit_evolves
    | dsimp only | split
    | with_reducible first
        | refine Evolves.fst_of (by assumption) ?_ | refine Evolves.snd_of (by assumption) ?_

theorem rewriteRows_evolves {i : Nat} {ps : List Part} {s₀ s : State} (hE : Evolves ps s₀ s)
    (hW : Sub [.events, .counters, .sampling, .commands, .powerState, .contexts, .mapping, .journal, .layoutWork,
      .ciphers, .storeWrites, .drivePorts, .buffer, .regs, .regSwc, .out] ps) :
    Evolves ps s₀ (rewriteRows i s) := by
  unfold rewriteRows
  repeat' first
    | exact Sub.of hW rfl | exact .inl (Sub.of hW rfl) | with_reducible exact .inr rfl
    | exact .inr (FencesStay.refl _) | exact .inr (by dsimp only) | exact .inr rfl
    | with_reducible exact (fun h => h : _ = true → _) | (dsimp only; exact (fun h => h : _ = true → _))
    | exact (fun h => h : _ = true → _)
    | with_reducible first
        | exact hE | apply state_onLay_evolves | apply redo_evolves | apply releaseAllocs_evolves
        | apply onEntry_evolves | apply failOwn_evolves
        | refine allocateFor_evolves ?_ (Sub.of hW rfl) _ _ (by assumption) | apply noSpace_evolves
        | apply submitUnits_evolves | refine Evolves.ite (fun _ => ?_) (fun _ => ?_)
    | dsimp only | split
    | with_reducible first
        | refine Evolves.fst_of (by assumption) ?_ | refine Evolves.snd_of (by assumption) ?_

theorem moveCopy_evolves {jseq : Nat} {slot : Nat} {ps : List Part} {s₀ s : State} (hE : Evolves ps s₀ s)
    (hW : Sub [.events, .counters, .sampling, .commands, .powerState, .contexts, .mapping, .journal, .layoutWork,
      .ciphers, .storeWrites, .drivePorts, .buffer, .regs, .regSwc, .out] ps) :
    Evolves ps s₀ (moveCopy jseq slot s) := by
  unfold moveCopy
  repeat' first
    | exact Sub.of hW rfl | exact .inl (Sub.of hW rfl) | with_reducible exact .inr rfl
    | exact .inr (FencesStay.refl _) | exact .inr (by dsimp only) | exact .inr rfl
    | with_reducible exact (fun h => h : _ = true → _) | (dsimp only; exact (fun h => h : _ = true → _))
    | exact (fun h => h : _ = true → _)
    | with_reducible first
        | exact hE | apply writeCopy_evolves | apply onRec_evolves | apply state_onLay_evolves | apply failOwn_evolves
        | apply releaseAllocs_evolves | apply onEntry_evolves | apply freeEntry_evolves | apply toPosting_evolves
        | refine Evolves.ite (fun _ => ?_) (fun _ => ?_)
    | dsimp only | split
    | with_reducible first
        | refine Evolves.fst_of (by assumption) ?_ | refine Evolves.snd_of (by assumption) ?_

theorem copyFailed_evolves {slot : Nat} {jseq : Nat} {ps : List Part} {s₀ s : State} (hE : Evolves ps s₀ s)
    (hW : Sub [.events, .counters, .sampling, .commands, .powerState, .contexts, .mapping, .journal, .layoutWork,
      .ciphers, .storeWrites, .drivePorts, .buffer, .regs, .regSwc, .out] ps) :
    Evolves ps s₀ (copyFailed slot s jseq) := by
  unfold copyFailed
  repeat' first
    | exact Sub.of hW rfl
    | with_reducible first
        | exact hE | apply rewriteRows_evolves | apply moveCopy_evolves
        | refine Evolves.ite (fun _ => ?_) (fun _ => ?_)
    | dsimp only | split
    | with_reducible first
        | refine Evolves.fst_of (by assumption) ?_ | refine Evolves.snd_of (by assumption) ?_

theorem ckptCopyFailed_evolves {slot : Nat} {ps : List Part} {s₀ s : State} (hE : Evolves ps s₀ s)
    (hW : Sub [.events, .counters, .sampling, .journal, .drivePorts, .regs, .regLay, .out] ps) :
    Evolves ps s₀ (ckptCopyFailed slot s) := by
  unfold ckptCopyFailed
  repeat' first
    | exact Sub.of hW rfl | exact .inl (Sub.of hW rfl) | with_reducible exact .inr rfl
    | exact .inr (FencesStay.refl _) | exact .inr (by dsimp only) | exact .inr rfl
    | with_reducible exact (fun h => h : _ = true → _) | (dsimp only; exact (fun h => h : _ = true → _))
    | exact (fun h => h : _ = true → _)
    | with_reducible first
        | exact hE | apply state_onLay_evolves | apply drvSubmit_evolves | apply emit_evolves
        | apply state_setFld_evolves | refine Evolves.ite (fun _ => ?_) (fun _ => ?_)
    | dsimp only | split
    | with_reducible first
        | refine Evolves.fst_of (by assumption) ?_ | refine Evolves.snd_of (by assumption) ?_

theorem rebuildEnds_evolves  {ps : List Part} {s₀ s : State} (hE : Evolves ps s₀ s)
    (hW : Sub [.events, .counters, .sampling, .layoutWork] ps) :
    Evolves ps s₀ (rebuildEnds s) := by
  unfold rebuildEnds
  repeat' first
    | exact Sub.of hW rfl | exact .inl (Sub.of hW rfl) | with_reducible exact .inr rfl
    | exact .inr (FencesStay.refl _) | exact .inr (by dsimp only) | exact .inr rfl
    | with_reducible exact (fun h => h : _ = true → _) | (dsimp only; exact (fun h => h : _ = true → _))
    | exact (fun h => h : _ = true → _)
    | with_reducible first
        | exact hE | apply state_onLay_evolves | apply emit_evolves | refine Evolves.foldl ?_ ?_
        | refine Evolves.foldl_fst ?_ ?_ | refine Evolves.foldl_snd ?_ ?_ | assumption
    | intro _ | dsimp only

theorem nextRebuild_evolves  {ps : List Part} {s₀ s : State} (hE : Evolves ps s₀ s)
    (hW : Sub [.events, .counters, .sampling, .mapping, .layoutWork] ps) :
    Evolves ps s₀ (nextRebuild s) := by
  unfold nextRebuild
  repeat' first
    | exact Sub.of hW rfl | exact .inl (Sub.of hW rfl) | with_reducible exact .inr rfl
    | exact .inr (FencesStay.refl _) | exact .inr (by dsimp only) | exact .inr rfl
    | with_reducible exact (fun h => h : _ = true → _) | (dsimp only; exact (fun h => h : _ = true → _))
    | exact (fun h => h : _ = true → _)
    | with_reducible first
        | exact hE | apply emit_evolves | apply state_onLay_evolves | apply rebuildEnds_evolves
        | apply takeChunk_evolves | refine Evolves.ite (fun _ => ?_) (fun _ => ?_)
    | dsimp only | split
    | with_reducible first
        | refine Evolves.fst_of (by assumption) ?_ | refine Evolves.snd_of (by assumption) ?_

theorem startRebuild_evolves {slot : Nat} {ps : List Part} {s₀ s : State} (hE : Evolves ps s₀ s)
    (hW : Sub [.events, .counters, .sampling, .mapping, .layoutWork] ps) :
    Evolves ps s₀ (startRebuild slot s) := by
  unfold startRebuild
  repeat' first
    | exact Sub.of hW rfl | exact .inl (Sub.of hW rfl) | with_reducible exact .inr rfl
    | exact .inr (FencesStay.refl _) | exact .inr (by dsimp only) | exact .inr rfl
    | with_reducible exact (fun h => h : _ = true → _) | (dsimp only; exact (fun h => h : _ = true → _))
    | exact (fun h => h : _ = true → _)
    | with_reducible first
        | exact hE | apply state_onLay_evolves | apply nextRebuild_evolves | apply emit_evolves
        | refine Evolves.ite (fun _ => ?_) (fun _ => ?_)
    | dsimp only | split

theorem layDriveLost_evolves {slot : Nat} {ps : List Part} {s₀ s : State} (hE : Evolves ps s₀ s)
    (hW : Sub [.events, .counters, .sampling, .controllers, .namespaces, .commands, .powerState, .contexts, .hbm,
      .mapping, .journal, .layoutWork, .ciphers, .storeWrites, .drivePorts, .buffer, .functions, .hostQueues,
      .leash, .replicas, .regs, .regSwc, .regLay, .out] ps) :
    Evolves ps s₀ (layDriveLost slot s) := by
  unfold layDriveLost
  repeat' first
    | exact Sub.of hW rfl
    | with_reducible first
        | exact hE | apply onDrive_evolves | apply emit_evolves | apply onSet_evolves | apply startSeal_evolves
        | apply dropTarget_evolves | apply rewriteRows_evolves | apply copyFailed_evolves
        | apply ckptCopyFailed_evolves | apply advanceRead_evolves | apply onEntry_evolves
        | apply startRebuild_evolves | apply updateAna_evolves | refine Evolves.ite (fun _ => ?_) (fun _ => ?_)
        | refine Evolves.foldl ?_ ?_ | refine Evolves.foldl_fst ?_ ?_ | refine Evolves.foldl_snd ?_ ?_ | assumption
    | intro _ | dsimp only | split

theorem storeChange_evolves {x : Bytes × Option Bytes} {ps : List Part} {s₀ s : State} (hE : Evolves ps s₀ s)
    (hW : Sub [.events, .counters, .sampling, .commands, .powerState, .contexts, .mapping, .journal, .layoutWork,
      .ciphers, .drivePorts, .buffer, .regs, .regSwc, .out] ps) :
    ∀ t, storeChange x s = some t → Evolves ps s₀ t := by
  intro t ht
  unfold storeChange at ht
  repeat' first
    | contradiction
    | (with_reducible obtain rfl := Option.some.inj ht)
    | (with_reducible obtain ⟨rfl, rfl⟩ := Prod.mk.inj (Option.some.inj ht))
    | (with_reducible obtain ⟨rfl, rfl⟩ := Prod.mk.inj (Except.ok.inj ht))
    | dsimp only at ht
    | split at ht
  all_goals
    repeat' first
      | exact Sub.of hW rfl
      | with_reducible first
          | exact hE | apply journalStep_evolves | apply onEntry_evolves
          | refine allocateFor_evolves ?_ (Sub.of hW rfl) _ _ (by assumption) | apply submitUnits_evolves
          | refine Evolves.ite (fun _ => ?_) (fun _ => ?_)
      | dsimp only | split
      | with_reducible first
          | refine Evolves.fst_of (by assumption) ?_ | refine Evolves.snd_of (by assumption) ?_

theorem releaseStore_evolves  {ps : List Part} {s₀ s : State} (hE : Evolves ps s₀ s)
    (hW : Sub [.events, .counters, .sampling, .commands, .powerState, .contexts, .mapping, .journal, .layoutWork,
      .ciphers, .storeWrites, .drivePorts, .buffer, .regs, .regSwc, .out] ps) :
    Evolves ps s₀ (releaseStore s) := by
  unfold releaseStore
  refine Evolves.foldl (state_onFix_evolves hE (.inr rfl) (.inr rfl) (.inr rfl) (.inl (Sub.of hW rfl))) (fun _ _ hs => ?_)
  split
  · rename_i h
    split at h
    · cases h
    · exact storeChange_evolves hs (Sub.of hW rfl) _ h
  · exact state_onFix_evolves hs (.inr rfl) (.inr rfl) (.inr rfl) (.inl (Sub.of hW rfl))

theorem changeStore_evolves {x : Bytes × Option Bytes} {ps : List Part} {s₀ s : State} (hE : Evolves ps s₀ s)
    (hW : Sub [.events, .counters, .sampling, .commands, .powerState, .contexts, .mapping, .journal, .layoutWork,
      .ciphers, .storeWrites, .drivePorts, .buffer, .regs, .regSwc, .out] ps) :
    Evolves ps s₀ (changeStore x s) := by
  unfold changeStore
  repeat' first
    | exact Sub.of hW rfl | exact .inl (Sub.of hW rfl) | with_reducible exact .inr rfl
    | exact .inr (FencesStay.refl _) | exact .inr (by dsimp only) | exact .inr rfl
    | with_reducible exact (fun h => h : _ = true → _) | (dsimp only; exact (fun h => h : _ = true → _))
    | exact (fun h => h : _ = true → _)
    | with_reducible first
        | exact hE | apply releaseStore_evolves | apply state_onFix_evolves
        | refine Evolves.ite (fun _ => ?_) (fun _ => ?_)
    | dsimp only | split

theorem storeObject_evolves {key : Bytes} {data : Bytes} {ps : List Part} {s₀ s : State} (hE : Evolves ps s₀ s)
    (hW : Sub [.events, .counters, .sampling, .commands, .powerState, .contexts, .mapping, .journal, .layoutWork,
      .ciphers, .storeWrites, .drivePorts, .buffer, .regs, .regSwc, .out] ps) :
    Evolves ps s₀ (storeObject key data s) := by
  unfold storeObject
  repeat' first
    | exact Sub.of hW rfl
    | with_reducible first
        | exact hE | apply changeStore_evolves
    | dsimp only

theorem ckptDurable_evolves  {ps : List Part} {s₀ s : State} (hE : Evolves ps s₀ s)
    (hW : Sub [.events, .counters, .sampling, .commands, .powerState, .contexts, .mapping, .journal, .layoutWork,
      .ciphers, .storeWrites, .drivePorts, .buffer, .regs, .regSwc, .out] ps) :
    Evolves ps s₀ (ckptDurable s) := by
  unfold ckptDurable
  repeat' first
    | exact Sub.of hW rfl | exact .inl (Sub.of hW rfl) | with_reducible exact .inr rfl
    | exact .inr (FencesStay.refl _) | exact .inr (by dsimp only) | exact .inr rfl
    | with_reducible exact (fun h => h : _ = true → _) | (dsimp only; exact (fun h => h : _ = true → _))
    | exact (fun h => h : _ = true → _)
    | with_reducible first
        | exact hE | apply state_onLay_evolves | apply nextRebuild_evolves | apply releaseStore_evolves
        | apply releaseWaiting_evolves | apply retire_evolves | apply emit_evolves | apply startCheckpoint_evolves
        | refine Evolves.ite (fun _ => ?_) (fun _ => ?_)
    | dsimp only | split

theorem moveDrive_evolves {old : Nat} {new : Nat} {ps : List Part} {s₀ s : State} (hE : Evolves ps s₀ s)
    (hW : Sub [.mapping, .journal, .layoutWork] ps) :
    Evolves ps s₀ (moveDrive old new s) := by
  unfold moveDrive
  repeat' first
    | exact Sub.of hW rfl | exact .inl (Sub.of hW rfl) | with_reducible exact .inr rfl
    | exact .inr (FencesStay.refl _) | exact .inr (by dsimp only) | exact .inr rfl
    | with_reducible exact (fun h => h : _ = true → _) | (dsimp only; exact (fun h => h : _ = true → _))
    | exact (fun h => h : _ = true → _)
    | with_reducible first
        | exact hE | apply state_onLay_evolves | refine Evolves.ite (fun _ => ?_) (fun _ => ?_)
    | dsimp only | split

theorem clearSlot_evolves {slot : Nat} {ps : List Part} {s₀ s : State} (hE : Evolves ps s₀ s)
    (hW : Sub [.mapping, .journal, .layoutWork] ps) :
    Evolves ps s₀ (clearSlot slot s) := by
  unfold clearSlot
  repeat' first
    | exact Sub.of hW rfl
    | with_reducible first
        | exact hE | apply moveDrive_evolves | refine Evolves.ite (fun _ => ?_) (fun _ => ?_)
    | dsimp only | split

theorem driveReturns_evolves {slot : Nat} {ps : List Part} {s₀ s : State} (hE : Evolves ps s₀ s)
    (hW : Sub [.events, .counters, .sampling, .controllers, .namespaces, .commands, .powerState, .contexts, .mapping,
      .journal, .layoutWork, .ciphers, .drivePorts, .buffer, .functions, .hostQueues, .leash, .replicas, .regs,
      .regSwc, .out] ps) :
    Evolves ps s₀ (driveReturns slot s) := by
  unfold driveReturns
  repeat' first
    | exact Sub.of hW rfl | exact .inl (Sub.of hW rfl) | with_reducible exact .inr rfl
    | exact .inr (FencesStay.refl _) | exact .inr (by dsimp only) | exact .inr rfl
    | with_reducible exact (fun h => h : _ = true → _) | (dsimp only; exact (fun h => h : _ = true → _))
    | exact (fun h => h : _ = true → _)
    | with_reducible first
        | exact hE | apply dropTarget_evolves | apply onDrive_evolves | apply onSet_evolves
        | apply submitRecord_evolves | apply state_onLay_evolves | apply nextRebuild_evolves
        | apply releaseDeferred_evolves | apply updateAna_evolves | apply emit_evolves
        | refine Evolves.ite (fun _ => ?_) (fun _ => ?_) | refine Evolves.foldl ?_ ?_ | refine Evolves.foldl_fst ?_ ?_
        | refine Evolves.foldl_snd ?_ ?_ | assumption
    | intro _ | dsimp only | split

theorem dropObject_evolves {key : Bytes} {ps : List Part} {s₀ s : State} (hE : Evolves ps s₀ s)
    (hW : Sub [.events, .counters, .sampling, .commands, .powerState, .contexts, .mapping, .journal, .layoutWork,
      .ciphers, .storeWrites, .drivePorts, .buffer, .regs, .regSwc, .out] ps) :
    Evolves ps s₀ (dropObject s key) := by
  unfold dropObject
  repeat' first
    | exact Sub.of hW rfl
    | with_reducible first
        | exact hE | apply changeStore_evolves
    | dsimp only

theorem formatDrive_evolves {slot : Nat} {lbaCount : Nat} {ps : List Part} {s₀ s : State} (hE : Evolves ps s₀ s)
    (hW : Sub [.events, .counters, .sampling, .commands, .powerState, .contexts, .mapping, .journal, .layoutWork,
      .ciphers, .drivePorts, .buffer, .regs, .regSwc, .out, .free] ps) :
    Evolves ps s₀ (formatDrive slot lbaCount s) := by
  unfold formatDrive
  repeat' first
    | exact Sub.of hW rfl | exact .inl (Sub.of hW rfl) | with_reducible exact .inr rfl
    | exact .inr (FencesStay.refl _) | exact .inr (by dsimp only) | exact .inr rfl
    | with_reducible exact (fun h => h : _ = true → _) | (dsimp only; exact (fun h => h : _ = true → _))
    | exact (fun h => h : _ = true → _)
    | with_reducible first
        | exact hE | apply clearSlot_evolves | apply onDrive_evolves | apply state_drawn_evolves
        | apply state_onLay_evolves | apply drvWrite_evolves | apply nextRebuild_evolves
        | apply releaseDeferred_evolves | apply startCheckpoint_evolves
        | refine Evolves.ite (fun _ => ?_) (fun _ => ?_)
    | dsimp only | split
    | with_reducible first
        | refine Evolves.fst_of (by assumption) ?_ | refine Evolves.snd_of (by assumption) ?_

theorem layDriveReady_evolves {slot : Nat} {lbaCount : Nat} {sb : Option (Bool × Nat)} {ps : List Part} {s₀ s : State} (hE : Evolves ps s₀ s)
    (hW : Sub [.events, .counters, .sampling, .commands, .powerState, .contexts, .mapping, .journal, .layoutWork,
      .ciphers, .drivePorts, .buffer, .regs, .regSwc, .out, .free] ps) :
    Evolves ps s₀ (layDriveReady slot lbaCount sb s) := by
  unfold layDriveReady
  repeat' first
    | exact Sub.of hW rfl
    | with_reducible first
        | exact hE | apply onDrive_evolves | apply clearSlot_evolves | apply formatDrive_evolves
        | apply moveDrive_evolves | refine Evolves.ite (fun _ => ?_) (fun _ => ?_)
    | dsimp only | split
    | with_reducible first
        | refine Evolves.fst_of (by assumption) ?_ | refine Evolves.snd_of (by assumption) ?_

theorem offerDrives_evolves  {ps : List Part} {s₀ s : State} (hE : Evolves ps s₀ s)
    (hW : Sub [.events, .counters, .sampling, .commands, .powerState, .contexts, .mapping, .journal, .layoutWork,
      .ciphers, .drivePorts, .buffer, .regs, .regSwc, .out, .free] ps) :
    Evolves ps s₀ (offerDrives s) := by
  unfold offerDrives
  repeat' first
    | exact Sub.of hW rfl
    | with_reducible first
        | exact hE | apply layDriveReady_evolves | refine Evolves.ite (fun _ => ?_) (fun _ => ?_)
        | refine Evolves.foldl ?_ ?_ | refine Evolves.foldl_fst ?_ ?_ | refine Evolves.foldl_snd ?_ ?_ | assumption
    | intro _ | dsimp only | split

end Sys2Proof.Machine
end

