-- ==== Sys2Proof/Laws/FrameOpsDrv.lean ====
section
/-! SUPPORT. What the operations of Machine/OpsDrv.lean change at most: one lemma each. -/

namespace Sys2Proof.Machine

set_option linter.unusedTactic false
set_option linter.unreachableTactic false
set_option linter.unusedVariables false

theorem portReset_evolves {slot : Nat} {ps : List Part} {s₀ s : State} (hE : Evolves ps s₀ s)
    (hW : Sub [.drivePorts] ps) :
    Evolves ps s₀ (portReset slot s) := by
  unfold portReset
  repeat' first
    | exact Sub.of hW rfl
    | with_reducible first
        | exact hE | apply onPort_evolves
    | dsimp only

theorem portDown_evolves {slot : Nat} {new : Nat} {ps : List Part} {s₀ s : State} (hE : Evolves ps s₀ s)
    (hW : Sub [.events, .counters, .sampling, .controllers, .namespaces, .commands, .powerState, .contexts, .hbm,
      .mapping, .journal, .layoutWork, .ciphers, .storeWrites, .drivePorts, .buffer, .functions, .hostQueues,
      .leash, .replicas, .regs, .regSwc, .regLay, .out] ps) :
    Evolves ps s₀ (portDown slot new s) := by
  unfold portDown
  repeat' first
    | exact Sub.of hW rfl
    | with_reducible first
        | exact hE | apply onPort_evolves | apply layDriveLost_evolves
        | refine Evolves.ite (fun _ => ?_) (fun _ => ?_)
    | dsimp only | split

theorem portFail_evolves {slot : Nat} {cause : Nat} {recover : Bool} {ps : List Part} {s₀ s : State} (hE : Evolves ps s₀ s)
    (hW : Sub [.events, .counters, .sampling, .controllers, .namespaces, .commands, .powerState, .contexts, .hbm,
      .mapping, .journal, .layoutWork, .ciphers, .storeWrites, .drivePorts, .buffer, .functions, .hostQueues,
      .leash, .replicas, .regs, .regSwc, .regLay, .out] ps) :
    Evolves ps s₀ (portFail slot cause recover s) := by
  unfold portFail
  repeat' first
    | exact Sub.of hW rfl
    | with_reducible first
        | exact hE | apply emit_evolves | apply portDown_evolves | apply onPort_evolves | apply portReset_evolves
        | refine Evolves.ite (fun _ => ?_) (fun _ => ?_)
    | dsimp only | split

theorem driveFailed_evolves {slot : Nat} {cause : Nat} {ps : List Part} {s₀ s : State} (hE : Evolves ps s₀ s)
    (hW : Sub [.events, .counters, .sampling, .controllers, .namespaces, .commands, .powerState, .contexts, .hbm,
      .mapping, .journal, .layoutWork, .ciphers, .storeWrites, .drivePorts, .buffer, .functions, .hostQueues,
      .leash, .replicas, .regs, .regSwc, .regLay, .out] ps) :
    Evolves ps s₀ (driveFailed slot cause s) := by
  unfold driveFailed
  repeat' first
    | exact Sub.of hW rfl
    | with_reducible first
        | exact hE | apply portFail_evolves | apply layDriveLost_evolves
        | refine Evolves.ite (fun _ => ?_) (fun _ => ?_)
    | dsimp only | split

theorem driveReadFailed_evolves {slot : Nat} {ps : List Part} {s₀ s : State} (hE : Evolves ps s₀ s)
    (hW : Sub [.events, .counters, .sampling, .controllers, .namespaces, .commands, .powerState, .contexts, .hbm,
      .mapping, .journal, .layoutWork, .ciphers, .storeWrites, .drivePorts, .buffer, .functions, .hostQueues,
      .leash, .replicas, .regs, .regSwc, .regLay, .regDrv, .out] ps) :
    Evolves ps s₀ (driveReadFailed slot s) := by
  unfold driveReadFailed
  repeat' first
    | exact Sub.of hW rfl
    | with_reducible first
        | exact hE | apply state_bumpI_evolves | apply onPort_evolves | apply driveFailed_evolves
        | refine Evolves.ite (fun _ => ?_) (fun _ => ?_)
    | dsimp only | split

theorem drvLegPg_evolves {slot : Nat} {ps : List Part} {s₀ s : State} (hE : Evolves ps s₀ s)
    (hW : Sub [.drivePorts] ps) :
    Evolves ps s₀ (drvLegPg slot s) := by
  unfold drvLegPg
  repeat' first
    | exact Sub.of hW rfl
    | with_reducible first
        | exact hE | apply portReset_evolves | refine Evolves.ite (fun _ => ?_) (fun _ => ?_)
    | dsimp only | split

theorem tripAnswer_evolves {slot : Nat} {partnerPg : Bool} {ps : List Part} {s₀ s : State} (hE : Evolves ps s₀ s)
    (hW : Sub [.events, .counters, .sampling, .controllers, .namespaces, .commands, .powerState, .contexts, .hbm,
      .mapping, .journal, .layoutWork, .ciphers, .storeWrites, .drivePorts, .buffer, .functions, .hostQueues,
      .leash, .replicas, .regs, .regSwc, .regLay, .out] ps) :
    Evolves ps s₀ (tripAnswer slot partnerPg s) := by
  unfold tripAnswer
  repeat' first
    | exact Sub.of hW rfl
    | with_reducible first
        | exact hE | apply portReset_evolves | apply portFail_evolves | refine Evolves.ite (fun _ => ?_) (fun _ => ?_)
    | dsimp only | split

theorem drvLegTrip_evolves {slot : Nat} {ps : List Part} {s₀ s : State} (hE : Evolves ps s₀ s)
    (hW : Sub [.events, .counters, .sampling, .controllers, .namespaces, .commands, .powerState, .contexts, .hbm,
      .mapping, .journal, .layoutWork, .ciphers, .storeWrites, .drivePorts, .buffer, .functions, .hostQueues,
      .leash, .replicas, .regs, .regSwc, .regLay, .out] ps) :
    Evolves ps s₀ (drvLegTrip slot s) := by
  unfold drvLegTrip
  repeat' first
    | exact Sub.of hW rfl
    | with_reducible first
        | exact hE | apply queryPartner_evolves | apply onPort_evolves | apply tripAnswer_evolves
        | refine Evolves.ite (fun _ => ?_) (fun _ => ?_)
    | dsimp only | split

theorem fenceRootPort_evolves {slot : Nat} {reason : Nat} {ps : List Part} {s₀ s : State} (hE : Evolves ps s₀ s)
    (hW : Sub [.events, .fences, .counters, .sampling, .controllers, .namespaces, .commands, .powerState, .contexts,
      .hbm, .mapping, .journal, .layoutWork, .ciphers, .storeWrites, .drivePorts, .driveSlots, .buffer,
      .functions, .hostQueues, .leash, .replicas, .regs, .regPrt, .regSwc, .regLay, .regRed, .out] ps) :
    Evolves ps s₀ (fenceRootPort slot reason s) := by
  unfold fenceRootPort
  repeat' first
    | exact Sub.of hW rfl
    | with_reducible first
        | exact hE | apply portDown_evolves | apply fenceUnit_evolves | refine Evolves.ite (fun _ => ?_) (fun _ => ?_)
    | dsimp only | split

theorem preemptDrive_evolves {slot : Nat} {ps : List Part} {s₀ s : State} (hE : Evolves ps s₀ s)
    (hW : Sub [.driveSlots, .out] ps) :
    Evolves ps s₀ (preemptDrive s slot) := by
  unfold preemptDrive
  repeat' first
    | exact Sub.of hW rfl | exact .inl (Sub.of hW rfl) | with_reducible exact .inr rfl
    | exact .inr (FencesStay.refl _) | exact .inr (by dsimp only) | exact .inr rfl
    | with_reducible exact (fun h => h : _ = true → _) | (dsimp only; exact (fun h => h : _ = true → _))
    | exact (fun h => h : _ = true → _)
    | with_reducible first
        | exact hE | apply state_onDrv_evolves | apply state_send_evolves
        | refine Evolves.ite (fun _ => ?_) (fun _ => ?_)
    | dsimp only | split

theorem startPreempt_evolves  {ps : List Part} {s₀ s : State} (hE : Evolves ps s₀ s)
    (hW : Sub [.driveSlots, .out] ps) :
    Evolves ps s₀ (startPreempt s) := by
  unfold startPreempt
  repeat' first
    | exact Sub.of hW rfl | exact .inl (Sub.of hW rfl) | with_reducible exact .inr rfl
    | exact .inr (FencesStay.refl _) | exact .inr (by dsimp only) | exact .inr rfl
    | with_reducible exact (fun h => h : _ = true → _) | (dsimp only; exact (fun h => h : _ = true → _))
    | exact (fun h => h : _ = true → _)
    | with_reducible first
        | exact hE | apply state_onDrv_evolves | apply preemptDrive_evolves
    | dsimp only | split
    | with_reducible first
        | refine Evolves.fst_of (by assumption) ?_ | refine Evolves.snd_of (by assumption) ?_

theorem queryAnswer_evolves {kind : Nat} {slot : Nat} {up : Bool} {ps : List Part} {s₀ s : State} (hE : Evolves ps s₀ s)
    (hW : Sub [.events, .fences, .counters, .sampling, .controllers, .namespaces, .commands, .powerState, .contexts,
      .hbm, .mapping, .journal, .layoutWork, .ciphers, .storeWrites, .drivePorts, .driveSlots, .buffer,
      .functions, .hostQueues, .leash, .replicas, .regs, .regPrt, .regSwc, .regLay, .regRed, .out] ps) :
    Evolves ps s₀ (queryAnswer kind slot up s) := by
  unfold queryAnswer
  repeat' first
    | exact Sub.of hW rfl
    | with_reducible first
        | exact hE | apply onPort_evolves | apply tripAnswer_evolves | apply drvLegPg_evolves
        | apply fenceRootPort_evolves | apply emit_evolves | refine Evolves.ite (fun _ => ?_) (fun _ => ?_)
    | dsimp only | split

theorem reportPg_evolves {slot : Nat} {ps : List Part} {s₀ s : State} (hE : Evolves ps s₀ s)
    (hW : Sub [.leash, .out] ps) :
    Evolves ps s₀ (reportPg slot s) := by
  unfold reportPg
  repeat' first
    | exact Sub.of hW rfl
    | with_reducible first
        | exact hE | apply sendTo_evolves | refine Evolves.ite (fun _ => ?_) (fun _ => ?_)
    | dsimp only | split

end Sys2Proof.Machine
end

