-- ==== Sys2Proof/Laws/FrameOpsPwr.lean ====
section
/-! SUPPORT. What the operations of Machine/OpsPwr.lean change at most: one lemma each. -/

namespace Sys2Proof.Machine

set_option linter.unusedTactic false
set_option linter.unreachableTactic false
set_option linter.unusedVariables false

theorem state_onPwr_evolves {f : Pwr → Pwr} {ps : List Part} {s₀ s : State} (hE : Evolves ps s₀ s)
    (h1 : Sub [.legs] ps ∨ (f s.pwr).legs = s.pwr.legs)
    (h2 : Sub [.feeds] ps ∨ ((f s.pwr).feeds, (f s.pwr).sensFails, (f s.pwr).warned, (f s.pwr).critical, (f s.pwr).polled) =
      (s.pwr.feeds, s.pwr.sensFails, s.pwr.warned, s.pwr.critical, s.pwr.polled)) :
    Evolves ps s₀ (State.onPwr s f) := by
  unfold State.onPwr
  repeat' first
    | exact h1 | exact h2
    | with_reducible first
        | exact hE
    | dsimp only
    | with_reducible first
        | apply Evolves.pwrSet

theorem setMap_evolves {lo : Fld} {hi : Fld} {leg : Nat} {b : Bool} {ps : List Part} {s₀ s : State} (hE : Evolves ps s₀ s)
    (hW : Sub [.regs, regPart lo.base, regPart hi.base] ps) :
    Evolves ps s₀ (setMap lo hi leg b s) := by
  unfold setMap
  repeat' first
    | exact Sub.of hW rfl | exact hW
    | exact fun p hp => hW p (by simp only [List.mem_cons, List.not_mem_nil, or_false] at hp ⊢; tauto)
    | with_reducible first
        | exact hE | apply state_setFld_evolves | refine Evolves.ite (fun _ => ?_) (fun _ => ?_)
    | dsimp only | split

theorem legMaps_evolves {leg : Nat} {ps : List Part} {s₀ s : State} (hE : Evolves ps s₀ s)
    (hW : Sub [.regs, .regPwr] ps) :
    Evolves ps s₀ (legMaps leg s) := by
  unfold legMaps
  repeat' first
    | exact Sub.of hW rfl
    | with_reducible first
        | exact hE | apply setMap_evolves
    | dsimp only

theorem setLeg_evolves {leg : Nat} {st : Nat} {ps : List Part} {s₀ s : State} (hE : Evolves ps s₀ s)
    (hW : Sub [.regs, .regPwr] ps) :
    Evolves ps s₀ (setLeg leg st s) := by
  unfold setLeg
  repeat' first
    | exact Sub.of hW rfl
    | with_reducible first
        | exact hE | apply legMaps_evolves | apply state_setFldI_evolves
    | dsimp only

theorem onLeg_evolves {leg : Nat} {f : Leg → Leg} {ps : List Part} {s₀ s : State} (hE : Evolves ps s₀ s)
    (hW : Sub [.legs] ps) :
    Evolves ps s₀ (onLeg leg f s) := by
  unfold onLeg
  repeat' first
    | exact Sub.of hW rfl | exact .inl (Sub.of hW rfl) | with_reducible exact .inr rfl
    | exact .inr (FencesStay.refl _) | exact .inr (by dsimp only) | exact .inr rfl
    | with_reducible exact (fun h => h : _ = true → _) | (dsimp only; exact (fun h => h : _ = true → _))
    | exact (fun h => h : _ = true → _)
    | with_reducible first
        | exact hE | apply state_onPwr_evolves
    | dsimp only

theorem startLeg_evolves {leg : Nat} {cause : Nat} {ps : List Part} {s₀ s : State} (hE : Evolves ps s₀ s)
    (hW : Sub [.events, .counters, .sampling, .legs, .regs, .regPwr] ps) :
    Evolves ps s₀ (startLeg leg cause s) := by
  unfold startLeg
  repeat' first
    | exact Sub.of hW rfl
    | with_reducible first
        | exact hE | apply setLeg_evolves | apply state_setFldI_evolves | apply emit_evolves | apply onLeg_evolves
    | dsimp only

theorem requestStart_evolves {leg : Nat} {cause : Nat} {ps : List Part} {s₀ s : State} (hE : Evolves ps s₀ s)
    (hW : Sub [.events, .counters, .sampling, .legs, .regs, .regPwr] ps) :
    Evolves ps s₀ (requestStart leg cause s) := by
  unfold requestStart
  repeat' first
    | exact Sub.of hW rfl
    | with_reducible first
        | exact hE | apply startLeg_evolves | apply emit_evolves | apply state_setFldI_evolves
        | refine Evolves.ite (fun _ => ?_) (fun _ => ?_)
    | dsimp only | split

theorem legSeated_evolves {leg : Nat} {ps : List Part} {s₀ s : State} (hE : Evolves ps s₀ s)
    (hW : Sub [.events, .counters, .sampling, .legs, .regs, .regPwr] ps) :
    Evolves ps s₀ (legSeated leg s) := by
  unfold legSeated
  repeat' first
    | exact Sub.of hW rfl
    | with_reducible first
        | exact hE | apply requestStart_evolves | refine Evolves.ite (fun _ => ?_) (fun _ => ?_)
    | dsimp only | split

theorem legTrip_evolves {leg : Nat} {cause : Nat} {final : Bool} {ps : List Part} {s₀ s : State} (hE : Evolves ps s₀ s)
    (hW : Sub [.events, .counters, .sampling] ps) :
    Evolves ps s₀ (legTrip leg cause final s) := by
  unfold legTrip
  repeat' first
    | exact Sub.of hW rfl
    | with_reducible first
        | exact hE | apply emit_evolves
    | dsimp only

theorem withdrawPg_evolves {leg : Nat} {why : Nat} {ps : List Part} {s₀ s : State} (hE : Evolves ps s₀ s)
    (hW : Sub [.events, .counters, .sampling, .regs, .regPwr] ps) :
    Evolves ps s₀ (withdrawPg leg why s) := by
  unfold withdrawPg
  repeat' first
    | exact Sub.of hW rfl
    | with_reducible first
        | exact hE | apply emit_evolves | apply legMaps_evolves | apply state_setFldI_evolves
        | refine Evolves.ite (fun _ => ?_) (fun _ => ?_)
    | dsimp only | split

theorem gateOff_evolves {leg : Nat} {ps : List Part} {s₀ s : State} (hE : Evolves ps s₀ s)
    (hW : Sub [.legs] ps) :
    Evolves ps s₀ (gateOff leg s) := by
  unfold gateOff
  repeat' first
    | exact Sub.of hW rfl
    | with_reducible first
        | exact hE | apply onLeg_evolves | refine Evolves.ite (fun _ => ?_) (fun _ => ?_)
    | dsimp only | split

theorem fenceLeg_evolves {leg : Nat} {cause : Nat} {ps : List Part} {s₀ s : State} (hE : Evolves ps s₀ s)
    (hW : Sub [.events, .fences, .counters, .sampling, .controllers, .namespaces, .commands, .powerState, .contexts,
      .hbm, .mapping, .journal, .layoutWork, .ciphers, .storeWrites, .drivePorts, .driveSlots, .buffer,
      .functions, .hostQueues, .leash, .replicas, .legs, .regs, .regPrt, .regSwc, .regLay, .regPwr, .regRed,
      .out] ps) :
    Evolves ps s₀ (fenceLeg leg cause s) := by
  unfold fenceLeg
  repeat' first
    | exact Sub.of hW rfl
    | with_reducible first
        | exact hE | apply state_setFldI_evolves | apply legTrip_evolves | apply withdrawPg_evolves
        | apply setLeg_evolves | apply gateOff_evolves | apply drvLegTrip_evolves | apply fenceUnit_evolves
        | refine Evolves.ite (fun _ => ?_) (fun _ => ?_)
    | dsimp only | split
    | with_reducible first
        | refine Evolves.fst_of (by assumption) ?_ | refine Evolves.snd_of (by assumption) ?_

theorem legToOff_evolves {leg : Nat} {why : Nat} {ps : List Part} {s₀ s : State} (hE : Evolves ps s₀ s)
    (hW : Sub [.events, .counters, .sampling, .legs, .regs, .regPwr] ps) :
    Evolves ps s₀ (legToOff leg why s) := by
  unfold legToOff
  repeat' first
    | exact Sub.of hW rfl
    | with_reducible first
        | exact hE | apply emit_evolves | apply setLeg_evolves | apply gateOff_evolves
        | refine Evolves.ite (fun _ => ?_) (fun _ => ?_)
    | dsimp only | split

theorem legRemoved_evolves {leg : Nat} {ps : List Part} {s₀ s : State} (hE : Evolves ps s₀ s)
    (hW : Sub [.events, .counters, .sampling, .legs, .regs, .regPwr] ps) :
    Evolves ps s₀ (legRemoved leg s) := by
  unfold legRemoved
  repeat' first
    | exact Sub.of hW rfl
    | with_reducible first
        | exact hE | apply legToOff_evolves | apply setLeg_evolves | apply state_setFldI_evolves
        | refine Evolves.ite (fun _ => ?_) (fun _ => ?_)
    | dsimp only | split

theorem latchLeg_evolves {leg : Nat} {cause : Nat} {ps : List Part} {s₀ s : State} (hE : Evolves ps s₀ s)
    (hW : Sub [.events, .counters, .sampling, .controllers, .namespaces, .commands, .powerState, .contexts, .hbm,
      .mapping, .journal, .layoutWork, .ciphers, .storeWrites, .drivePorts, .buffer, .functions, .hostQueues,
      .leash, .replicas, .legs, .regs, .regSwc, .regLay, .regPwr, .out] ps) :
    Evolves ps s₀ (latchLeg leg cause s) := by
  unfold latchLeg
  repeat' first
    | exact Sub.of hW rfl
    | with_reducible first
        | exact hE | apply state_bumpI_evolves | apply state_setFldI_evolves | apply legTrip_evolves
        | apply withdrawPg_evolves | apply setLeg_evolves | apply gateOff_evolves | apply drvLegTrip_evolves
        | refine Evolves.ite (fun _ => ?_) (fun _ => ?_)
    | dsimp only | split

end Sys2Proof.Machine
end

