-- ==== Sys2Proof/Laws/FrameOpsTel.lean ====
section
/-! SUPPORT. What the operations of Machine/OpsTel.lean change at most: one lemma each. -/

namespace Sys2Proof.Machine

set_option linter.unusedTactic false
set_option linter.unreachableTactic false
set_option linter.unusedVariables false

theorem onSampler_evolves {i : Nat} {f : Sampler → Sampler} {ps : List Part} {s₀ s : State} (hE : Evolves ps s₀ s)
    (hW : Sub [.sampling] ps) :
    Evolves ps s₀ (onSampler i f s) := by
  unfold onSampler
  repeat' first
    | exact Sub.of hW rfl | exact .inl (Sub.of hW rfl) | with_reducible exact .inr rfl
    | exact .inr (FencesStay.refl _) | exact .inr (by dsimp only) | exact .inr rfl
    | with_reducible exact (fun h => h : _ = true → _) | (dsimp only; exact (fun h => h : _ = true → _))
    | exact (fun h => h : _ = true → _)
    | with_reducible first
        | exact hE | apply state_onTel_evolves
    | dsimp only

theorem reloadSampler_evolves {i : Nat} {ps : List Part} {s₀ s : State} (hE : Evolves ps s₀ s)
    (hW : Sub [.sampling] ps) :
    Evolves ps s₀ (reloadSampler i s) := by
  unfold reloadSampler
  repeat' first
    | exact Sub.of hW rfl
    | with_reducible first
        | exact hE | apply onSampler_evolves | refine Evolves.ite (fun _ => ?_) (fun _ => ?_)
    | dsimp only | split

theorem pushSample_evolves {x : Sample} {ps : List Part} {s₀ s : State} (hE : Evolves ps s₀ s)
    (hW : Sub [.events, .counters, .sampling, .regs, .regTel] ps) :
    Evolves ps s₀ (pushSample x s) := by
  unfold pushSample
  repeat' first
    | exact Sub.of hW rfl | exact .inl (Sub.of hW rfl) | with_reducible exact .inr rfl
    | exact .inr (FencesStay.refl _) | exact .inr (by dsimp only) | exact .inr rfl
    | with_reducible exact (fun h => h : _ = true → _) | (dsimp only; exact (fun h => h : _ = true → _))
    | exact (fun h => h : _ = true → _)
    | with_reducible first
        | exact hE | apply state_onTel_evolves | apply state_bump_evolves | apply emit_evolves
        | refine Evolves.ite (fun _ => ?_) (fun _ => ?_)
    | dsimp only | split

theorem takeSample_evolves {i : Nat} {valid : Bool} {entry : Bytes} {ps : List Part} {s₀ s : State} (hE : Evolves ps s₀ s)
    (hW : Sub [.events, .counters, .sampling, .regs, .regTel] ps) :
    Evolves ps s₀ (takeSample i valid entry s) := by
  unfold takeSample
  repeat' first
    | exact Sub.of hW rfl
    | with_reducible first
        | exact hE | apply pushSample_evolves | apply onSampler_evolves
    | dsimp only

theorem captureGrant_evolves {port : Nat} {entry : Bytes} {ps : List Part} {s₀ s : State} (hE : Evolves ps s₀ s)
    (hW : Sub [.events, .counters, .sampling, .regs, .regTel] ps) :
    Evolves ps s₀ (captureGrant port entry s) := by
  unfold captureGrant
  repeat' first
    | exact Sub.of hW rfl
    | with_reducible first
        | exact hE | apply takeSample_evolves | apply onSampler_evolves
        | refine Evolves.ite (fun _ => ?_) (fun _ => ?_) | refine Evolves.foldl ?_ ?_ | refine Evolves.foldl_fst ?_ ?_
        | refine Evolves.foldl_snd ?_ ?_ | assumption
    | intro _ | dsimp only | split

theorem overflow_evolves {i : Nat} {ps : List Part} {s₀ s : State} (hE : Evolves ps s₀ s)
    (hW : Sub [.sampling] ps) :
    Evolves ps s₀ (overflow i s) := by
  unfold overflow
  repeat' first
    | exact Sub.of hW rfl
    | with_reducible first
        | exact hE | apply onSampler_evolves | refine Evolves.ite (fun _ => ?_) (fun _ => ?_)
    | dsimp only | split

end Sys2Proof.Machine
end

