-- ==== Sys2Proof/Laws/FrameRouterOps.lean ====
section
/-! SUPPORT. What the operations of Machine/RouterOps.lean change at most: one lemma each. -/

namespace Sys2Proof.Machine

set_option linter.unusedTactic false
set_option linter.unreachableTactic false
set_option linter.unusedVariables false

theorem usedSeq_evolves {id : Nat} {ps : List Part} {s₀ s : State} (hE : Evolves ps s₀ s)
    (hW : Sub [.sessions] ps) :
    Evolves ps s₀ (usedSeq id s) := by
  unfold usedSeq
  repeat' first
    | exact Sub.of hW rfl | exact .inl (Sub.of hW rfl) | with_reducible exact .inr rfl
    | exact .inr (FencesStay.refl _) | exact .inr (by dsimp only) | exact .inr rfl
    | with_reducible exact (fun h => h : _ = true → _) | (dsimp only; exact (fun h => h : _ = true → _))
    | exact (fun h => h : _ = true → _) | exact rfl | exact Nat.le_refl _
    | with_reducible first
        | exact hE | apply state_onCtl_evolves
    | dsimp only

theorem direct_evolves {id : Nat} {rec : EventRec} {ext : Bytes} {ps : List Part} {s₀ s : State} (hE : Evolves ps s₀ s)
    (hW : Sub [.sessions, .out] ps) :
    Evolves ps s₀ (direct id rec ext s) := by
  unfold direct
  repeat' first
    | exact Sub.of hW rfl
    | with_reducible first
        | exact hE | apply usedSeq_evolves | apply state_send_evolves | refine Evolves.ite (fun _ => ?_) (fun _ => ?_)
    | dsimp only | split

theorem onRing_evolves {v : Nat} {f : Ring → Ring} {ps : List Part} {s₀ s : State} (hE : Evolves ps s₀ s)
    (hW : Sub [.rings] ps) :
    Evolves ps s₀ (onRing v f s) := by
  unfold onRing
  repeat' first
    | exact Sub.of hW rfl | exact .inl (Sub.of hW rfl) | with_reducible exact .inr rfl
    | exact .inr (FencesStay.refl _) | exact .inr (by dsimp only) | exact .inr rfl
    | with_reducible exact (fun h => h : _ = true → _) | (dsimp only; exact (fun h => h : _ = true → _))
    | exact (fun h => h : _ = true → _) | exact rfl | exact Nat.le_refl _
    | with_reducible first
        | exact hE | apply state_onCtl_evolves
    | dsimp only

theorem sendRing_evolves {v : Nat} {ps : List Part} {s₀ s : State} (hE : Evolves ps s₀ s)
    (hW : Sub [.rings, .sessions, .out] ps) :
    Evolves ps s₀ (sendRing v s) := by
  unfold sendRing
  repeat' first
    | exact Sub.of hW rfl
    | with_reducible first
        | exact hE | apply state_send_evolves | apply usedSeq_evolves | apply onRing_evolves
        | refine Evolves.ite (fun _ => ?_) (fun _ => ?_)
    | dsimp only | split

theorem ringPush_evolves {v : Nat} {rec : EventRec} {ps : List Part} {s₀ s : State} (hE : Evolves ps s₀ s)
    (hW : Sub [.rings, .sessions, .functions, .out] ps) :
    Evolves ps s₀ (ringPush v rec s) := by
  unfold ringPush
  repeat' first
    | exact Sub.of hW rfl
    | with_reducible first
        | exact hE | apply onRing_evolves | apply state_send_evolves | apply raiseVector_evolves
        | apply sendRing_evolves | refine Evolves.ite (fun _ => ?_) (fun _ => ?_)
    | dsimp only | split

theorem ringReport_evolves {v : Nat} {ps : List Part} {s₀ s : State} (hE : Evolves ps s₀ s)
    (hW : Sub [.rings, .sessions, .counters, .sampling, .functions, .out] ps) :
    Evolves ps s₀ (ringReport v s) := by
  unfold ringReport
  repeat' first
    | exact Sub.of hW rfl
    | with_reducible first
        | exact hE | apply countBy_evolves | apply ringPush_evolves | apply onRing_evolves
        | refine Evolves.ite (fun _ => ?_) (fun _ => ?_)
    | dsimp only | split

theorem ringEnter_evolves {rec : EventRec} {v : Nat} {ps : List Part} {s₀ s : State} (hE : Evolves ps s₀ s)
    (hW : Sub [.rings, .sessions, .counters, .sampling, .functions, .regs, .regCtl, .out] ps) :
    Evolves ps s₀ (ringEnter rec s v) := by
  unfold ringEnter
  repeat' first
    | exact Sub.of hW rfl
    | with_reducible first
        | exact hE | apply ringReport_evolves | apply ringPush_evolves | apply state_bumpI_evolves
        | apply onRing_evolves | refine Evolves.ite (fun _ => ?_) (fun _ => ?_)
    | dsimp only | split

theorem deliver_evolves {rec : EventRec} {ps : List Part} {s₀ s : State} (hE : Evolves ps s₀ s)
    (hW : Sub [.rings, .sessions, .counters, .sampling, .functions, .regs, .regCtl, .out] ps) :
    Evolves ps s₀ (deliver rec s) := by
  unfold deliver
  repeat' first
    | exact Sub.of hW rfl
    | with_reducible first
        | exact hE | apply ringEnter_evolves | refine Evolves.foldl ?_ ?_ | refine Evolves.foldl_fst ?_ ?_
        | refine Evolves.foldl_snd ?_ ?_ | assumption
    | intro _ | dsimp only

theorem logCritical_evolves {rec : EventRec} {ps : List Part} {s₀ s : State} (hE : Evolves ps s₀ s)
    (hW : Sub [.clog, .regs, .regCtl] ps) :
    Evolves ps s₀ (logCritical rec s) := by
  unfold logCritical
  repeat' first
    | exact Sub.of hW rfl | exact .inl (Sub.of hW rfl) | with_reducible exact .inr rfl
    | exact .inr (FencesStay.refl _) | exact .inr (by dsimp only) | exact .inr rfl
    | with_reducible exact (fun h => h : _ = true → _) | (dsimp only; exact (fun h => h : _ = true → _))
    | exact (fun h => h : _ = true → _) | exact rfl | exact Nat.le_refl _
    | with_reducible first
        | exact hE | apply state_bump_evolves | apply state_onCtl_evolves
        | refine Evolves.ite (fun _ => ?_) (fun _ => ?_)
    | dsimp only | split

end Sys2Proof.Machine
end

