-- ==== Sys2Proof/Laws/FrameTimebase.lean ====
section
/-! SUPPORT. What the operations of Machine/Timebase.lean change at most: one lemma each. -/

namespace Sys2Proof.Machine

set_option linter.unusedTactic false
set_option linter.unreachableTactic false
set_option linter.unusedVariables false

theorem onGts_evolves {f : Gts → Gts} {ps : List Part} {s₀ s : State} (hE : Evolves ps s₀ s)
    (hn : (f s.ctl.gts).now = s.ctl.gts.now)
    (hW : Sub [.time] ps) :
    Evolves ps s₀ (onGts f s) := by
  unfold onGts
  repeat' first
    | exact Sub.of hW rfl | exact .inl (Sub.of hW rfl) | with_reducible exact .inr rfl
    | exact .inr (FencesStay.refl _) | exact .inr (by dsimp only) | exact .inr rfl
    | with_reducible exact (fun h => h : _ = true → _) | (dsimp only; exact (fun h => h : _ = true → _))
    | exact (fun h => h : _ = true → _) | exact rfl | exact Nat.le_refl _ | exact hi | exact hn | exact hf
    | with_reducible first
        | exact hE | apply state_onCtl_evolves
    | dsimp only

theorem rechoose_evolves  {ps : List Part} {s₀ s : State} (hE : Evolves ps s₀ s)
    (hW : Sub [.time] ps) :
    Evolves ps s₀ (rechoose s) := by
  unfold rechoose
  repeat' first
    | exact Sub.of hW rfl | exact .inl (Sub.of hW rfl) | with_reducible exact .inr rfl
    | exact .inr (FencesStay.refl _) | exact .inr (by dsimp only) | exact .inr rfl
    | with_reducible exact (fun h => h : _ = true → _) | (dsimp only; exact (fun h => h : _ = true → _))
    | exact (fun h => h : _ = true → _) | exact rfl | exact Nat.le_refl _ | exact Nat.le_add_right _ _
    | with_reducible first
        | exact hE | apply onGts_evolves | refine Evolves.ite (fun _ => ?_) (fun _ => ?_)
    | dsimp only | split

theorem loseSource_evolves  {ps : List Part} {s₀ s : State} (hE : Evolves ps s₀ s)
    (hW : Sub [.events, .time, .counters, .sampling] ps) :
    Evolves ps s₀ (loseSource s) := by
  unfold loseSource
  repeat' first
    | exact Sub.of hW rfl | exact .inl (Sub.of hW rfl) | with_reducible exact .inr rfl
    | exact .inr (FencesStay.refl _) | exact .inr (by dsimp only) | exact .inr rfl
    | with_reducible exact (fun h => h : _ = true → _) | (dsimp only; exact (fun h => h : _ = true → _))
    | exact (fun h => h : _ = true → _) | exact rfl | exact Nat.le_refl _ | exact Nat.le_add_right _ _
    | with_reducible first
        | exact hE | apply emit_evolves | apply rechoose_evolves | apply onGts_evolves
        | refine Evolves.ite (fun _ => ?_) (fun _ => ?_)
    | dsimp only | split

theorem ptpFollows_evolves  {ps : List Part} {s₀ s : State} (hE : Evolves ps s₀ s)
    (hW : Sub [.events, .time, .counters, .sampling] ps) :
    Evolves ps s₀ (ptpFollows s) := by
  unfold ptpFollows
  repeat' first
    | exact Sub.of hW rfl | exact .inl (Sub.of hW rfl) | with_reducible exact .inr rfl
    | exact .inr (FencesStay.refl _) | exact .inr (by dsimp only) | exact .inr rfl
    | with_reducible exact (fun h => h : _ = true → _) | (dsimp only; exact (fun h => h : _ = true → _))
    | exact (fun h => h : _ = true → _) | exact rfl | exact Nat.le_refl _ | exact Nat.le_add_right _ _
    | with_reducible first
        | exact hE | apply loseSource_evolves | apply onGts_evolves | refine Evolves.ite (fun _ => ?_) (fun _ => ?_)
    | dsimp only | split

theorem slewGts_evolves {offset : Int} {ps : List Part} {s₀ s : State} (hE : Evolves ps s₀ s)
    (hW : Sub [.time, .free] ps) :
    Evolves ps s₀ (slewGts offset s) := by
  unfold slewGts
  repeat' first
    | exact Sub.of hW rfl | exact .inl (Sub.of hW rfl) | with_reducible exact .inr rfl
    | exact .inr (FencesStay.refl _) | exact .inr (by dsimp only) | exact .inr rfl
    | with_reducible exact (fun h => h : _ = true → _) | (dsimp only; exact (fun h => h : _ = true → _))
    | exact (fun h => h : _ = true → _) | exact rfl | exact Nat.le_refl _ | exact Nat.le_add_right _ _
    | with_reducible first
        | exact hE | apply state_drawn_evolves | apply onGts_evolves | refine Evolves.ite (fun _ => ?_) (fun _ => ?_)
    | dsimp only | split

theorem stepGts_evolves {ns : Nat} {ps : List Part} {s₀ s : State} (hE : Evolves ps s₀ s)
    (hW : Sub [.events, .time, .counters, .sampling, .regs, .regCtl, .clock] ps) :
    Evolves ps s₀ (stepGts ns s) := by
  unfold stepGts onGts State.onCtl
  exact emit_evolves (state_bump_evolves
    (Evolves.ctlClock _ hE (Sub.of hW rfl) (Nat.le_add_right _ _)) (Sub.of hW rfl)) (Sub.of hW rfl)

theorem correctGts_evolves {offset : Int} {align : Bool} {ps : List Part} {s₀ s : State} (hE : Evolves ps s₀ s)
    (hW : Sub [.events, .time, .counters, .sampling, .regs, .regCtl, .free, .clock] ps) :
    Evolves ps s₀ (correctGts offset align s) := by
  unfold correctGts
  repeat' first
    | exact Sub.of hW rfl
    | with_reducible first
        | exact hE | apply slewGts_evolves | apply stepGts_evolves | apply state_drawn_evolves
        | refine Evolves.ite (fun _ => ?_) (fun _ => ?_)
    | dsimp only | split

theorem measureGts_evolves {offset : Int} {align : Bool} {ps : List Part} {s₀ s : State} (hE : Evolves ps s₀ s)
    (hW : Sub [.events, .time, .counters, .sampling, .regs, .regCtl, .free, .clock] ps) :
    Evolves ps s₀ (measureGts offset align s) := by
  unfold measureGts
  repeat' first
    | exact Sub.of hW rfl | exact .inl (Sub.of hW rfl) | with_reducible exact .inr rfl
    | exact .inr (FencesStay.refl _) | exact .inr (by dsimp only) | exact .inr rfl
    | with_reducible exact (fun h => h : _ = true → _) | (dsimp only; exact (fun h => h : _ = true → _))
    | exact (fun h => h : _ = true → _) | exact rfl | exact Nat.le_refl _ | exact Nat.le_add_right _ _
    | with_reducible first
        | exact hE | apply loseSource_evolves | apply correctGts_evolves | apply onGts_evolves | apply emit_evolves
        | refine Evolves.ite (fun _ => ?_) (fun _ => ?_)
    | dsimp only | split

theorem execGtsMeasurement_evolves {offset : Int} {ps : List Part} {s₀ s : State} (hE : Evolves ps s₀ s)
    (hW : Sub [.events, .time, .counters, .sampling, .regs, .regCtl, .free, .clock] ps) :
    ∀ t, execGtsMeasurement offset s = .next t → Evolves ps s₀ t := by
  intro t ht
  unfold execGtsMeasurement at ht
  repeat' first
    | (with_reducible obtain rfl := Host.Outcome.next.inj ht)
    | split at ht
    | dsimp only at ht
  all_goals
    repeat' first
      | exact Sub.of hW rfl
      | with_reducible first
          | exact hE | apply measureGts_evolves
      | dsimp only

theorem execGtsMeasurementTimeout_evolves  {ps : List Part} {s₀ s : State} (hE : Evolves ps s₀ s)
    (hW : Sub [.events, .time, .counters, .sampling] ps) :
    ∀ t, execGtsMeasurementTimeout s = .next t → Evolves ps s₀ t := by
  intro t ht
  unfold execGtsMeasurementTimeout at ht
  repeat' first
    | (with_reducible obtain rfl := Host.Outcome.next.inj ht)
    | split at ht
    | dsimp only at ht
  all_goals
    repeat' first
      | exact Sub.of hW rfl
      | with_reducible first
          | exact hE | apply loseSource_evolves
      | dsimp only | split

theorem sourcePresent_evolves {p : Nat} {ps : List Part} {s₀ s : State} (hE : Evolves ps s₀ s)
    (hW : Sub [.time] ps) :
    Evolves ps s₀ (sourcePresent p s) := by
  unfold sourcePresent
  repeat' first
    | exact Sub.of hW rfl | exact .inl (Sub.of hW rfl) | with_reducible exact .inr rfl
    | exact .inr (FencesStay.refl _) | exact .inr (by dsimp only) | exact .inr rfl
    | with_reducible exact (fun h => h : _ = true → _) | (dsimp only; exact (fun h => h : _ = true → _))
    | exact (fun h => h : _ = true → _) | exact rfl | exact Nat.le_refl _ | exact Nat.le_add_right _ _
    | with_reducible first
        | exact hE | apply rechoose_evolves | apply onGts_evolves | refine Evolves.ite (fun _ => ?_) (fun _ => ?_)
    | dsimp only | split

theorem execPpsInEdge_evolves  {ps : List Part} {s₀ s : State} (hE : Evolves ps s₀ s)
    (hW : Sub [.events, .time, .counters, .sampling, .regs, .regCtl, .free, .clock] ps) :
    ∀ t, execPpsInEdge s = .next t → Evolves ps s₀ t := by
  intro t ht
  unfold execPpsInEdge at ht
  repeat' first
    | (with_reducible obtain rfl := Host.Outcome.next.inj ht)
    | split at ht
    | dsimp only at ht
  all_goals
    repeat' first
      | exact Sub.of hW rfl | exact .inl (Sub.of hW rfl) | with_reducible exact .inr rfl
      | exact .inr (FencesStay.refl _) | exact .inr (by dsimp only) | exact .inr rfl
      | with_reducible exact (fun h => h : _ = true → _) | (dsimp only; exact (fun h => h : _ = true → _))
      | exact (fun h => h : _ = true → _) | exact rfl | exact Nat.le_refl _ | exact Nat.le_add_right _ _
      | with_reducible first
          | exact hE | apply sourcePresent_evolves | apply onGts_evolves | apply measureGts_evolves
          | refine Evolves.ite (fun _ => ?_) (fun _ => ?_)
      | dsimp only | split

theorem execPpsOutEdge_evolves  {ps : List Part} {s₀ s : State} (hE : Evolves ps s₀ s)
    (hW : Sub [.out] ps) :
    ∀ t, execPpsOutEdge s = .next t → Evolves ps s₀ t := by
  intro t ht
  unfold execPpsOutEdge at ht
  repeat' first
    | (with_reducible obtain rfl := Host.Outcome.next.inj ht)
    | split at ht
    | dsimp only at ht
  all_goals
    repeat' first
      | exact Sub.of hW rfl
      | with_reducible first
          | exact hE | apply state_send_evolves
      | dsimp only | split

theorem execEventRecord_evolves  {ps : List Part} {s₀ s : State} (hE : Evolves ps s₀ s)
    (hW : Sub [.events, .held, .rings, .clog, .sessions, .counters, .sampling, .functions, .regs, .regCtl, .out,
      .records] ps) :
    ∀ t, execEventRecord s = .next t → Evolves ps s₀ t := by
  intro t ht
  unfold execEventRecord at ht
  split at ht
  · obtain rfl := Host.Outcome.next.inj ht
    exact hE
  · rename_i r rest _
    have hl : Evolves ps s₀ (logCritical r (s.onCtl fun c => { c with inflight := rest })) :=
      logCritical_evolves (Evolves.ctlDrop _ hE (Sub.of hW rfl)) (Sub.of hW rfl)
    dsimp only at ht
    split at ht
    · obtain rfl := Host.Outcome.next.inj ht
      exact emit_evolves (deliver_evolves hl (Sub.of hW rfl)) (Sub.of hW rfl)
    · obtain rfl := Host.Outcome.next.inj ht
      repeat' first
        | exact hl
        | exact .inl (Sub.of hW rfl)
        | exact .inr rfl
        | exact .inr (FencesStay.refl _)
        | exact rfl
        | apply state_onCtl_evolves

theorem execRecordRelease_evolves  {ps : List Part} {s₀ s : State} (hE : Evolves ps s₀ s)
    (hW : Sub [.held, .rings, .sessions, .counters, .sampling, .functions, .regs, .regCtl, .out] ps) :
    ∀ t, execRecordRelease s = .next t → Evolves ps s₀ t := by
  intro t ht
  unfold execRecordRelease at ht
  repeat' first
    | (with_reducible obtain rfl := Host.Outcome.next.inj ht)
    | split at ht
    | dsimp only at ht
  all_goals
    repeat' first
      | exact Sub.of hW rfl | exact .inl (Sub.of hW rfl) | with_reducible exact .inr rfl
      | exact .inr (FencesStay.refl _) | exact .inr (by dsimp only) | exact .inr rfl
      | with_reducible exact (fun h => h : _ = true → _) | (dsimp only; exact (fun h => h : _ = true → _))
      | exact (fun h => h : _ = true → _) | exact rfl | exact Nat.le_refl _
      | with_reducible first
          | exact hE | apply deliver_evolves | apply state_onCtl_evolves
          | refine Evolves.ite (fun _ => ?_) (fun _ => ?_)
      | dsimp only | split
      | with_reducible first
          | refine Evolves.fst_of (by assumption) ?_ | refine Evolves.snd_of (by assumption) ?_

end Sys2Proof.Machine
end

