-- ==== Sys2Proof/Laws/FrameApply.lean ====
section
/-! SUPPORT. What the operations of Machine/Apply.lean change at most: one lemma each. -/

namespace Sys2Proof.Machine

set_option linter.unusedTactic false
set_option linter.unreachableTactic false
set_option linter.unusedVariables false

theorem loadMasked_evolves {addr : Nat} {value : Nat} {mask : Nat} {ps : List Part} {s₀ s : State} (hE : Evolves ps s₀ s)
    (hW : Sub [.regs, .regCtl, .regPrt, .regCls, .regSwc, .regTmg, .regXpt, .regCmd, .regLay, .regFix, .regDrv, .regCip,
      .regTru, .regPwr, .regHep, .regRed, .regTel] ps) :
    Evolves ps s₀ (loadMasked addr value mask s) := by
  unfold loadMasked
  repeat' first
    | exact Sub.of hW rfl | exact fun h => regsWf_set h _ _
    | with_reducible first
        | exact hE | refine Evolves.ite (fun _ => ?_) (fun _ => ?_) | refine Evolves.foldl ?_ ?_
        | refine Evolves.foldl_fst ?_ ?_ | refine Evolves.foldl_snd ?_ ?_ | assumption
    | intro _ | dsimp only | split
    | with_reducible first
        | refine Evolves.fst_of (by assumption) ?_ | refine Evolves.snd_of (by assumption) ?_ | apply Evolves.regsAll

theorem loadWord_evolves {x : Nat × BitVec 32} {ps : List Part} {s₀ s : State} (hE : Evolves ps s₀ s)
    (hW : Sub [.regs, .regCtl, .regPrt, .regCls, .regSwc, .regTmg, .regXpt, .regCmd, .regLay, .regFix, .regDrv, .regCip,
      .regTru, .regPwr, .regHep, .regRed, .regTel] ps) :
    Evolves ps s₀ (loadWord s x) := by
  unfold loadWord
  repeat' first
    | exact Sub.of hW rfl
    | with_reducible first
        | exact hE | apply loadMasked_evolves
    | dsimp only

theorem loadSection_evolves {b : Bytes} {typ : Nat} {ps : List Part} {s₀ s : State} (hE : Evolves ps s₀ s)
    (hW : Sub [.regs, .regCtl, .regPrt, .regCls, .regSwc, .regTmg, .regXpt, .regCmd, .regLay, .regFix, .regDrv, .regCip,
      .regTru, .regPwr, .regHep, .regRed, .regTel] ps) :
    Evolves ps s₀ (loadSection b s typ) := by
  unfold loadSection
  repeat' first
    | exact Sub.of hW rfl
    | with_reducible first
        | exact hE | apply loadWord_evolves | refine Evolves.foldl ?_ ?_ | refine Evolves.foldl_fst ?_ ?_
        | refine Evolves.foldl_snd ?_ ?_ | assumption
    | intro _ | dsimp only

theorem loadSampler_evolves {r : Bytes} {ps : List Part} {s₀ s : State} (hE : Evolves ps s₀ s)
    (hW : Sub [.regs, .regCtl, .regPrt, .regCls, .regSwc, .regTmg, .regXpt, .regCmd, .regLay, .regFix, .regDrv, .regCip,
      .regTru, .regPwr, .regHep, .regRed, .regTel] ps) :
    Evolves ps s₀ (loadSampler s r) := by
  unfold loadSampler
  repeat' first
    | exact Sub.of hW rfl
    | with_reducible first
        | exact hE | apply loadMasked_evolves | refine Evolves.ite (fun _ => ?_) (fun _ => ?_)
    | dsimp only | split

theorem loadRegisters_evolves {b : Bytes} {ps : List Part} {s₀ s : State} (hE : Evolves ps s₀ s)
    (hW : Sub [.sampling, .regs, .regCtl, .regPrt, .regCls, .regSwc, .regTmg, .regXpt, .regCmd, .regLay, .regFix,
      .regDrv, .regCip, .regTru, .regPwr, .regHep, .regRed, .regTel] ps) :
    Evolves ps s₀ (loadRegisters b s) := by
  unfold loadRegisters
  repeat' first
    | exact Sub.of hW rfl | exact fun h => foldl_keeps (P := regsWf) (fun _ _ h => by exact regsWf_set h _ _) _ _ h
    | with_reducible first
        | exact hE | apply loadSection_evolves | apply loadMasked_evolves | apply loadSampler_evolves
        | apply reloadSampler_evolves | refine Evolves.foldl ?_ ?_ | refine Evolves.foldl_fst ?_ ?_
        | refine Evolves.foldl_snd ?_ ?_ | assumption
    | intro _ | dsimp only
    | with_reducible first
        | apply Evolves.regsAll

theorem dropChangedPorts_evolves {b : Bytes} {ps : List Part} {s₀ s : State} (hE : Evolves ps s₀ s)
    (hW : Sub [.events, .counters, .sampling, .regs, .regPrt] ps) :
    Evolves ps s₀ (dropChangedPorts b s) := by
  unfold dropChangedPorts
  repeat' first
    | exact Sub.of hW rfl
    | with_reducible first
        | exact hE | apply loseLink_evolves | refine Evolves.ite (fun _ => ?_) (fun _ => ?_)
        | refine Evolves.foldl ?_ ?_ | refine Evolves.foldl_fst ?_ ?_ | refine Evolves.foldl_snd ?_ ?_ | assumption
    | intro _ | dsimp only | split

theorem loadRings_evolves {b : Bytes} {ps : List Part} {s₀ s : State} (hE : Evolves ps s₀ s)
    (hW : Sub [.rings] ps) :
    Evolves ps s₀ (loadRings b s) := by
  unfold loadRings
  repeat' first
    | exact Sub.of hW rfl | exact .inl (Sub.of hW rfl) | with_reducible exact .inr rfl
    | exact .inr (FencesStay.refl _) | exact .inr (by dsimp only) | exact .inr rfl
    | with_reducible exact (fun h => h : _ = true → _) | (dsimp only; exact (fun h => h : _ = true → _))
    | exact (fun h => h : _ = true → _) | exact rfl | exact Nat.le_refl _
    | with_reducible first
        | exact hE | apply state_onCtl_evolves | apply onRing_evolves | refine Evolves.ite (fun _ => ?_) (fun _ => ?_)
        | refine Evolves.foldl ?_ ?_ | refine Evolves.foldl_fst ?_ ?_ | refine Evolves.foldl_snd ?_ ?_ | assumption
    | intro _ | dsimp only | split

theorem clearGateStat_evolves {n : Nat} {ps : List Part} {s₀ s : State} (hE : Evolves ps s₀ s)
    (hW : Sub [.regs, .regTmg] ps) :
    Evolves ps s₀ (clearGateStat s n) := by
  unfold clearGateStat
  repeat' first
    | exact Sub.of hW rfl
    | with_reducible first
        | exact hE | apply state_setFldI_evolves
    | dsimp only

theorem loadGates_evolves {x : Nat × List (Nat × Nat)} {ps : List Part} {s₀ s : State} (hE : Evolves ps s₀ s)
    (hW : Sub [.tables, .traffic, .regs, .regTmg] ps) :
    Evolves ps s₀ (loadGates s x) := by
  unfold loadGates
  repeat' first
    | exact Sub.of hW rfl | exact .inl (Sub.of hW rfl) | with_reducible exact .inr rfl
    | exact .inr (FencesStay.refl _) | exact .inr (by dsimp only) | exact .inr rfl
    | with_reducible exact (fun h => h : _ = true → _) | (dsimp only; exact (fun h => h : _ = true → _))
    | exact (fun h => h : _ = true → _)
    | with_reducible first
        | exact hE | apply state_onNet_evolves | apply state_setFldI_evolves | apply onGates_evolves
        | refine Evolves.ite (fun _ => ?_) (fun _ => ?_) | refine Evolves.foldl ?_ ?_ | refine Evolves.foldl_fst ?_ ?_
        | refine Evolves.foldl_snd ?_ ?_ | assumption
    | intro _ | dsimp only | split

theorem loadNetwork_evolves {b : Bytes} {ps : List Part} {s₀ s : State} (hE : Evolves ps s₀ s)
    (hW : Sub [.classifier, .groups, .tables, .traffic, .regs, .regCls, .regSwc, .regTmg, .out] ps) :
    Evolves ps s₀ (loadNetwork b s) := by
  unfold loadNetwork
  repeat' first
    | exact Sub.of hW rfl
    | exact fun _ => foldl_keeps (P := fun t : Tab TcamEntry => t.wf = true) (fun _ _ h => by exact Tab.wf_put h _ _) _ _ rfl
    | exact .inl (Sub.of hW rfl) | with_reducible exact .inr rfl | exact .inr (FencesStay.refl _)
    | exact .inr (by dsimp only) | exact .inr rfl | with_reducible exact (fun h => h : _ = true → _)
    | (dsimp only; exact (fun h => h : _ = true → _)) | exact (fun h => h : _ = true → _)
    | with_reducible first
        | exact hE | apply state_onNet_evolves | apply state_setFld_evolves | apply clearGateStat_evolves
        | apply syncAllPfc_evolves | apply loadGates_evolves | refine Evolves.foldl ?_ ?_
        | refine Evolves.foldl_fst ?_ ?_ | refine Evolves.foldl_snd ?_ ?_ | assumption
    | intro _ | dsimp only | split
    | with_reducible first
        | refine Evolves.fst_of (by assumption) ?_ | refine Evolves.snd_of (by assumption) ?_

theorem loadManagement_evolves {b : Bytes} {ps : List Part} {s₀ s : State} (hE : Evolves ps s₀ s)
    (hW : Sub [.events, .time, .principals, .identity, .counters, .sampling, .regs, .regCtl] ps) :
    Evolves ps s₀ (loadManagement b s) := by
  unfold loadManagement
  repeat' first
    | exact Sub.of hW rfl | exact .inl (Sub.of hW rfl) | with_reducible exact .inr rfl
    | exact .inr (FencesStay.refl _) | exact .inr (by dsimp only) | exact .inr rfl
    | with_reducible exact (fun h => h : _ = true → _) | (dsimp only; exact (fun h => h : _ = true → _))
    | exact (fun h => h : _ = true → _) | exact rfl | exact Nat.le_refl _ | exact Nat.le_add_right _ _
    | with_reducible first
        | exact hE | apply state_onCtl_evolves | apply rechoose_evolves | apply ptpFollows_evolves
        | apply onGts_evolves | apply state_setFld_evolves | refine Evolves.foldl ?_ ?_
        | refine Evolves.foldl_fst ?_ ?_ | refine Evolves.foldl_snd ?_ ?_ | assumption
    | intro _ | dsimp only

theorem loadShelf_evolves {b : Bytes} {ps : List Part} {s₀ s : State} (hE : Evolves ps s₀ s)
    (hW : Sub [.identity, .trust, .free] ps) :
    Evolves ps s₀ (loadShelf b s) := by
  unfold loadShelf
  repeat' first
    | exact Sub.of hW rfl | exact .inl (Sub.of hW rfl) | with_reducible exact .inr rfl
    | exact .inr (FencesStay.refl _) | exact .inr (by dsimp only) | exact .inr rfl
    | with_reducible exact (fun h => h : _ = true → _) | (dsimp only; exact (fun h => h : _ = true → _))
    | exact (fun h => h : _ = true → _) | exact rfl | exact Nat.le_refl _
    | with_reducible first
        | exact hE | apply randomKey_evolves | apply state_onCtl_evolves | apply state_onTru_evolves
        | refine Evolves.ite (fun _ => ?_) (fun _ => ?_)
    | dsimp only | split
    | with_reducible first
        | refine Evolves.fst_of (by assumption) ?_ | refine Evolves.snd_of (by assumption) ?_

theorem loadAccess_evolves {b : Bytes} {ps : List Part} {s₀ s : State} (hE : Evolves ps s₀ s)
    (hW : Sub [.namespaces, .chains, .hostReads] ps) :
    Evolves ps s₀ (loadAccess b s) := by
  unfold loadAccess
  repeat' first
    | exact Sub.of hW rfl | exact .inl (Sub.of hW rfl) | with_reducible exact .inr rfl
    | exact .inr (FencesStay.refl _) | exact .inr (by dsimp only) | exact .inr rfl
    | with_reducible exact (fun h => h : _ = true → _) | (dsimp only; exact (fun h => h : _ = true → _))
    | exact (fun h => h : _ = true → _)
    | with_reducible first
        | exact hE | apply state_onCmd_evolves | apply state_onHep_evolves | apply state_onXpt_evolves
        | refine Evolves.foldl ?_ ?_ | refine Evolves.foldl_fst ?_ ?_ | refine Evolves.foldl_snd ?_ ?_ | assumption
    | intro _ | dsimp only | split
    | with_reducible first
        | refine Evolves.fst_of (by assumption) ?_ | refine Evolves.snd_of (by assumption) ?_

theorem ensureKey_evolves {id : Nat} {ps : List Part} {s₀ s : State} (hE : Evolves ps s₀ s)
    (hW : Sub [.events, .counters, .sampling, .namespaces, .keys, .keyOrders, .regs, .regCip, .free] ps) :
    Evolves ps s₀ (ensureKey s id) := by
  unfold ensureKey
  repeat' first
    | exact Sub.of hW rfl
    | with_reducible first
        | exact hE | apply makeDataKey_evolves | refine Evolves.ite (fun _ => ?_) (fun _ => ?_)
    | dsimp only | split

theorem loadNamespaces_evolves {b : Bytes} {ps : List Part} {s₀ s : State} (hE : Evolves ps s₀ s)
    (hW : Sub [.events, .counters, .sampling, .namespaces, .mapping, .keys, .keyOrders, .regs, .regCip, .free] ps) :
    Evolves ps s₀ (loadNamespaces b s) := by
  unfold loadNamespaces
  repeat' first
    | exact Sub.of hW rfl | exact .inl (Sub.of hW rfl) | with_reducible exact .inr rfl
    | exact .inr (FencesStay.refl _) | exact .inr (by dsimp only) | exact .inr rfl
    | with_reducible exact (fun h => h : _ = true → _) | (dsimp only; exact (fun h => h : _ = true → _))
    | exact (fun h => h : _ = true → _)
    | with_reducible first
        | exact hE | apply state_onCmd_evolves | apply state_onLay_evolves | apply ensureKey_evolves
        | refine Evolves.foldl ?_ ?_ | refine Evolves.foldl_fst ?_ ?_ | refine Evolves.foldl_snd ?_ ?_ | assumption
    | intro _ | dsimp only | split
    | with_reducible first
        | refine Evolves.fst_of (by assumption) ?_ | refine Evolves.snd_of (by assumption) ?_

theorem loadEpoch_evolves {boot : Bool} {us : Nat} {ps : List Part} {s₀ s : State} (hE : Evolves ps s₀ s)
    (hW : Sub [.leash, .regs, .regRed] ps) :
    Evolves ps s₀ (loadEpoch boot us s) := by
  unfold loadEpoch
  repeat' first
    | exact Sub.of hW rfl | exact .inl (Sub.of hW rfl) | with_reducible exact .inr rfl
    | exact .inr (FencesStay.refl _) | exact .inr (by dsimp only) | exact .inr rfl
    | with_reducible exact (fun h => h : _ = true → _) | (dsimp only; exact (fun h => h : _ = true → _))
    | exact (fun h => h : _ = true → _)
    | with_reducible first
        | exact hE | apply state_setFld_evolves | apply state_onRed_evolves
        | refine Evolves.ite (fun _ => ?_) (fun _ => ?_)
    | dsimp only | split

theorem loadRed_evolves {boot : Bool} {b : Bytes} {ps : List Part} {s₀ s : State} (hE : Evolves ps s₀ s)
    (hW : Sub [.leash, .roles, .regs, .regRed] ps) :
    Evolves ps s₀ (loadRed boot b s) := by
  unfold loadRed
  repeat' first
    | exact Sub.of hW rfl | exact .inl (Sub.of hW rfl) | with_reducible exact .inr rfl
    | exact .inr (FencesStay.refl _) | exact .inr (by dsimp only) | exact .inr rfl
    | with_reducible exact (fun h => h : _ = true → _) | (dsimp only; exact (fun h => h : _ = true → _))
    | exact (fun h => h : _ = true → _)
    | with_reducible first
        | exact hE | apply state_onRed_evolves | apply loadEpoch_evolves | apply state_setFld_evolves
        | refine Evolves.foldl ?_ ?_ | refine Evolves.foldl_fst ?_ ?_ | refine Evolves.foldl_snd ?_ ?_ | assumption
    | intro _ | dsimp only | split
    | with_reducible first
        | refine Evolves.fst_of (by assumption) ?_ | refine Evolves.snd_of (by assumption) ?_

theorem recordRecovery_evolves  {ps : List Part} {s₀ s : State} (hE : Evolves ps s₀ s)
    (hW : Sub [.boot] ps) :
    Evolves ps s₀ (recordRecovery s) := by
  unfold recordRecovery
  repeat' first
    | exact Sub.of hW rfl | exact .inl (Sub.of hW rfl) | with_reducible exact .inr rfl
    | exact .inr (FencesStay.refl _) | exact .inr (by dsimp only) | exact .inr rfl
    | with_reducible exact (fun h => h : _ = true → _) | (dsimp only; exact (fun h => h : _ = true → _))
    | exact (fun h => h : _ = true → _)
    | with_reducible first
        | exact hE | apply state_onBoot_evolves
    | dsimp only

theorem applyImage_evolves {boot : Bool} {pins : Bool} {slot : Nat} {b : Bytes} {ps : List Part} {s₀ s : State} (hE : Evolves ps s₀ s)
    (hW : Sub [.events, .time, .rings, .principals, .images, .stores, .identity, .counters, .sampling, .boot,
      .namespaces, .commands, .chains, .mapping, .keys, .keyOrders, .trust, .batches, .driveSlots, .classifier,
      .punts, .groups, .tables, .traffic, .hostReads, .leash, .replicas, .roles, .regs, .regCtl, .regPrt,
      .regCls, .regSwc, .regTmg, .regXpt, .regCmd, .regLay, .regFix, .regDrv, .regCip, .regTru, .regPwr,
      .regHep, .regRed, .regTel, .out, .free] ps) :
    Evolves ps s₀ (applyImage boot pins slot b s) := by
  unfold applyImage
  repeat' first
    | exact Sub.of hW rfl | exact .inl (Sub.of hW rfl) | with_reducible exact .inr rfl
    | exact .inr (FencesStay.refl _) | exact .inr (by dsimp only) | exact .inr rfl
    | with_reducible exact (fun h => h : _ = true → _) | (dsimp only; exact (fun h => h : _ = true → _))
    | exact (fun h => h : _ = true → _) | exact rfl | exact Nat.le_refl _
    | with_reducible first
        | exact hE | apply loadRegisters_evolves | apply dropChangedPorts_evolves | apply setFans_evolves
        | apply loadRings_evolves | apply settleAll_evolves | apply loadNetwork_evolves | apply periodChanged_evolves
        | apply loadManagement_evolves | apply loadShelf_evolves | apply loadAccess_evolves
        | apply loadNamespaces_evolves | apply loadRed_evolves | apply state_onCtl_evolves | apply state_onTru_evolves
        | apply recordRecovery_evolves | apply state_onBoot_evolves | apply emit_evolves | apply enterJoining_evolves
        | refine Evolves.ite (fun _ => ?_) (fun _ => ?_)
    | dsimp only | split

end Sys2Proof.Machine
end

