-- ==== Sys2Proof/Laws/FrameOpsReg.lean ====
section
/-! SUPPORT. What the operations of Machine/OpsReg.lean change at most: one lemma each. -/

namespace Sys2Proof.Machine

set_option linter.unusedTactic false
set_option linter.unreachableTactic false
set_option linter.unusedVariables false

theorem tellConflict_evolves {path : Nat} {session : Nat} {rec_ : EventRec} {ext : Bytes} {ps : List Part} {s₀ s : State} (hE : Evolves ps s₀ s)
    (hW : Sub [.sessions, .out] ps) :
    Evolves ps s₀ (tellConflict path session rec_ ext s) := by
  unfold tellConflict
  repeat' first
    | exact Sub.of hW rfl
    | with_reducible first
        | exact hE | apply direct_evolves | refine Evolves.ite (fun _ => ?_) (fun _ => ?_)
    | dsimp only | split

theorem logConflict_evolves {m : WriteMark} {path : Nat} {session : Nat} {value : Word} {ps : List Part} {s₀ s : State} (hE : Evolves ps s₀ s)
    (hW : Sub [.events, .sessions, .marks, .counters, .sampling, .regs, .regCtl, .out] ps) :
    Evolves ps s₀ (logConflict m path session value s) := by
  unfold logConflict
  repeat' first
    | exact Sub.of hW rfl | exact .inl (Sub.of hW rfl) | with_reducible exact .inr rfl
    | exact .inr (FencesStay.refl _) | exact .inr (by dsimp only) | exact .inr rfl
    | with_reducible exact (fun h => h : _ = true → _) | (dsimp only; exact (fun h => h : _ = true → _))
    | exact (fun h => h : _ = true → _) | exact rfl | exact Nat.le_refl _
    | (intro x hx; simp only [List.mem_cons, List.not_mem_nil, or_false] at hx; rcases hx with rfl | rfl | rfl | rfl <;> first | (dsimp only; decide) | exact regPart_congr (b := 0) (by omega))
    | with_reducible first
        | exact hE | apply state_bump_evolves | apply state_onCtl_evolves | apply state_setFldI_evolves
        | apply emit_evolves | apply tellConflict_evolves | refine Evolves.foldl ?_ ?_
        | refine Evolves.foldl_fst ?_ ?_ | refine Evolves.foldl_snd ?_ ?_ | assumption
    | intro _ | dsimp only
    | with_reducible first
        | apply Evolves.regsFold _ _ _ .regCtl

theorem noteWrite_evolves {path : Nat} {session : Nat} {addr : Nat} {value : Word} {ps : List Part} {s₀ s : State} (hE : Evolves ps s₀ s)
    (hW : Sub [.events, .sessions, .marks, .counters, .sampling, .regs, .regCtl, .out] ps) :
    Evolves ps s₀ (noteWrite path session addr value s) := by
  unfold noteWrite
  repeat' first
    | exact Sub.of hW rfl | exact .inl (Sub.of hW rfl) | with_reducible exact .inr rfl
    | exact .inr (FencesStay.refl _) | exact .inr (by dsimp only) | exact .inr rfl
    | with_reducible exact (fun h => h : _ = true → _) | (dsimp only; exact (fun h => h : _ = true → _))
    | exact (fun h => h : _ = true → _) | exact rfl | exact Nat.le_refl _
    | with_reducible first
        | exact hE | apply logConflict_evolves | apply state_onCtl_evolves
        | refine Evolves.ite (fun _ => ?_) (fun _ => ?_)
    | dsimp only | split
    | with_reducible first
        | refine Evolves.fst_of (by assumption) ?_ | refine Evolves.snd_of (by assumption) ?_

theorem refuse_evolves {path : Nat} {session : Nat} {addr : Nat} {code : Nat} {ps : List Part} {s₀ s : State} (hE : Evolves ps s₀ s)
    (hW : Sub [.events, .sessions, .counters, .sampling, .regs, .regCtl, .out] ps) :
    Evolves ps s₀ (refuse path session addr code s) := by
  unfold refuse
  repeat' first
    | exact Sub.of hW rfl
    | with_reducible first
        | exact hE | apply state_bumpI_evolves | apply state_setFldI_evolves | apply emit_evolves
        | apply state_send_evolves | apply direct_evolves | refine Evolves.ite (fun _ => ?_) (fun _ => ?_)
    | dsimp only | split
    | with_reducible first
        | refine Evolves.fst_of (by assumption) ?_ | refine Evolves.snd_of (by assumption) ?_

theorem writeGate_evolves {path : Nat} {session : Nat} {addr : Nat} {value : Word} {ps : List Part} {s₀ s : State} (hE : Evolves ps s₀ s)
    (hW : Sub [.events, .sessions, .marks, .counters, .sampling, .regs, .regCtl, .out] ps) :
    Evolves ps s₀ (writeGate path session addr value s).1 := by
  unfold writeGate
  repeat' first
    | exact Sub.of hW rfl
    | with_reducible first
        | exact hE | apply noteWrite_evolves | apply refuse_evolves | refine Evolves.ite (fun _ => ?_) (fun _ => ?_)
    | dsimp only | split
    | with_reducible first
        | refine Evolves.fst_of (by assumption) ?_ | refine Evolves.snd_of (by assumption) ?_

theorem answerRead_evolves {path : Nat} {addr : Nat} {v : Word} {ps : List Part} {s₀ s : State} (hE : Evolves ps s₀ s)
    (hW : Sub [.paths, .out] ps) :
    Evolves ps s₀ (answerRead path addr v s) := by
  unfold answerRead
  repeat' first
    | exact Sub.of hW rfl | exact .inl (Sub.of hW rfl) | with_reducible exact .inr rfl
    | exact .inr (FencesStay.refl _) | exact .inr (by dsimp only) | exact .inr rfl
    | with_reducible exact (fun h => h : _ = true → _) | (dsimp only; exact (fun h => h : _ = true → _))
    | exact (fun h => h : _ = true → _) | exact rfl | exact Nat.le_refl _
    | with_reducible first
        | exact hE | apply state_send_evolves | apply state_onCtl_evolves
    | dsimp only

theorem releaseBone_evolves  {ps : List Part} {s₀ s : State} (hE : Evolves ps s₀ s)
    (hW : Sub [.events, .bone, .counters, .sampling] ps) :
    Evolves ps s₀ (releaseBone s) := by
  unfold releaseBone
  repeat' first
    | exact Sub.of hW rfl | exact .inl (Sub.of hW rfl) | with_reducible exact .inr rfl
    | exact .inr (FencesStay.refl _) | exact .inr (by dsimp only) | exact .inr rfl
    | with_reducible exact (fun h => h : _ = true → _) | (dsimp only; exact (fun h => h : _ = true → _))
    | exact (fun h => h : _ = true → _) | exact rfl | exact Nat.le_refl _
    | with_reducible first
        | exact hE | apply emit_evolves | apply state_onCtl_evolves | refine Evolves.ite (fun _ => ?_) (fun _ => ?_)
    | dsimp only | split

theorem storeWord_evolves {addr : Nat} {value : Word} {ps : List Part} {s₀ s : State} (hE : Evolves ps s₀ s)
    (hW : Sub [.regs, regPart addr] ps) :
    Evolves ps s₀ (storeWord addr value s) := by
  unfold storeWord
  repeat' first
    | exact Sub.of hW rfl | exact hW
    | (apply Sub.cons; repeat' first | exact Sub.nil | exact hW _ (by decide) | exact Sub.any (Sub.of hW rfl) | exact hW _ (by simp) | apply Sub.cons)
    | with_reducible first
        | exact hE
    | dsimp only | split
    | with_reducible first
        | refine Evolves.fst_of (by assumption) ?_ | refine Evolves.snd_of (by assumption) ?_ | apply Evolves.regsWord

theorem storeOrdered_evolves {path : Nat} {addr : Nat} {value : Word} {ps : List Part} {s₀ s : State} (hE : Evolves ps s₀ s)
    (hW : Sub [.regs, .regCtl, .regPrt, .regCls, .regSwc, .regTmg, .regXpt, .regCmd, .regLay, .regFix, .regDrv, .regCip,
      .regTru, .regPwr, .regHep, .regRed, .regTel] ps) :
    Evolves ps s₀ (storeOrdered path addr value s) := by
  unfold storeOrdered
  repeat' first
    | exact Sub.of hW rfl
    | (apply Sub.cons; repeat' first | exact Sub.nil | exact hW _ (by decide) | exact Sub.any (Sub.of hW rfl) | exact hW _ (by simp) | apply Sub.cons)
    | with_reducible first
        | exact hE | apply storeWord_evolves | refine Evolves.foldl ?_ ?_ | refine Evolves.foldl_fst ?_ ?_
        | refine Evolves.foldl_snd ?_ ?_ | assumption
    | intro _ | dsimp only

end Sys2Proof.Machine
end

