-- ==== Sys2Proof/Laws/FrameOpsMgmt.lean ====
section
/-! SUPPORT. What the operations of Machine/OpsMgmt.lean change at most: one lemma each. -/

namespace Sys2Proof.Machine

set_option linter.unusedTactic false
set_option linter.unreachableTactic false
set_option linter.unusedVariables false

theorem onSession_evolves {id : Nat} {f : Session → Session} {ps : List Part} {s₀ s : State} (hE : Evolves ps s₀ s)
    (hW : Sub [.sessions] ps) :
    Evolves ps s₀ (onSession id f s) := by
  unfold onSession
  repeat' first
    | exact Sub.of hW rfl | exact .inl (Sub.of hW rfl) | with_reducible exact .inr rfl
    | exact .inr (FencesStay.refl _) | exact .inr (by dsimp only) | exact .inr rfl
    | with_reducible exact (fun h => h : _ = true → _) | (dsimp only; exact (fun h => h : _ = true → _))
    | exact (fun h => h : _ = true → _) | exact rfl | exact Nat.le_refl _
    | with_reducible first
        | exact hE | apply state_onCtl_evolves
    | dsimp only

theorem respond_evolves {r : Req} {op : Nat} {status : Nat} {p : Reply} {ps : List Part} {s₀ s : State} (hE : Evolves ps s₀ s)
    (hW : Sub [.sessions, .out] ps) :
    Evolves ps s₀ (respond r op status p s) := by
  unfold respond
  repeat' first
    | exact Sub.of hW rfl
    | with_reducible first
        | exact hE | apply state_send_evolves | apply usedSeq_evolves | apply onSession_evolves
        | refine Evolves.ite (fun _ => ?_) (fun _ => ?_)
    | dsimp only | split

theorem releaseRing_evolves {v : Nat} {ps : List Part} {s₀ s : State} (hE : Evolves ps s₀ s)
    (hW : Sub [.rings] ps) :
    Evolves ps s₀ (releaseRing v s) := by
  unfold releaseRing
  repeat' first
    | exact Sub.of hW rfl
    | with_reducible first
        | exact hE | apply onRing_evolves
    | dsimp only

theorem closeSession_evolves {cause : Nat} {id : Nat} {ps : List Part} {s₀ s : State} (hE : Evolves ps s₀ s)
    (hW : Sub [.events, .rings, .sessions, .bone, .stores, .counters, .sampling, .keys, .keyOrders] ps) :
    Evolves ps s₀ (closeSession cause id s) := by
  unfold closeSession
  repeat' first
    | exact Sub.of hW rfl | exact .inl (Sub.of hW rfl) | with_reducible exact .inr rfl
    | exact .inr (FencesStay.refl _) | exact .inr (by dsimp only) | exact .inr rfl
    | with_reducible exact (fun h => h : _ = true → _) | (dsimp only; exact (fun h => h : _ = true → _))
    | exact (fun h => h : _ = true → _) | exact rfl | exact Nat.le_refl _
    | with_reducible first
        | exact hE | apply releaseBone_evolves | apply releaseRing_evolves | apply freeKey_evolves
        | apply state_onCip_evolves | apply state_onCtl_evolves | apply emit_evolves
        | refine Evolves.ite (fun _ => ?_) (fun _ => ?_) | refine Evolves.foldl ?_ ?_ | refine Evolves.foldl_fst ?_ ?_
        | refine Evolves.foldl_snd ?_ ?_ | assumption
    | intro _ | dsimp only | split

theorem grantBone_evolves {path : Nat} {session : Nat} {lease : Nat} {ps : List Part} {s₀ s : State} (hE : Evolves ps s₀ s)
    (hW : Sub [.events, .sessions, .bone, .counters, .sampling, .out] ps) :
    Evolves ps s₀ (grantBone path session lease s) := by
  unfold grantBone
  repeat' first
    | exact Sub.of hW rfl | exact .inl (Sub.of hW rfl) | with_reducible exact .inr rfl
    | exact .inr (FencesStay.refl _) | exact .inr (by dsimp only) | exact .inr rfl
    | with_reducible exact (fun h => h : _ = true → _) | (dsimp only; exact (fun h => h : _ = true → _))
    | exact (fun h => h : _ = true → _) | exact rfl | exact Nat.le_refl _
    | with_reducible first
        | exact hE | apply state_onCtl_evolves | apply emit_evolves | apply direct_evolves
        | refine Evolves.ite (fun _ => ?_) (fun _ => ?_)
    | dsimp only | split

theorem renewBone_evolves {path : Nat} {session : Nat} {ps : List Part} {s₀ s : State} (hE : Evolves ps s₀ s)
    (hW : Sub [.bone] ps) :
    Evolves ps s₀ (renewBone path session s) := by
  unfold renewBone
  repeat' first
    | exact Sub.of hW rfl | exact .inl (Sub.of hW rfl) | with_reducible exact .inr rfl
    | exact .inr (FencesStay.refl _) | exact .inr (by dsimp only) | exact .inr rfl
    | with_reducible exact (fun h => h : _ = true → _) | (dsimp only; exact (fun h => h : _ = true → _))
    | exact (fun h => h : _ = true → _) | exact rfl | exact Nat.le_refl _
    | with_reducible first
        | exact hE | apply state_onCtl_evolves | refine Evolves.ite (fun _ => ?_) (fun _ => ?_)
    | dsimp only | split

theorem receive_evolves {r : Req} {run : State → State} {ps : List Part} {s₀ s : State} (hE : Evolves ps s₀ s)
    (hrun : ∀ (t : State), Evolves ps s₀ t → Evolves ps s₀ (run t))
    (hW : Sub [.sessions, .bone, .regs, .regCtl, .out] ps) :
    Evolves ps s₀ (receive r run s) := by
  unfold receive
  repeat' first
    | exact Sub.of hW rfl
    | with_reducible first
        | exact hE | apply state_setFldI_evolves | apply onSession_evolves | apply renewBone_evolves
        | apply state_send_evolves | apply hrun | refine Evolves.ite (fun _ => ?_) (fun _ => ?_) | assumption
    | intro _ | dsimp only | split
    | with_reducible first
        | refine Evolves.fst_of (by assumption) ?_ | refine Evolves.snd_of (by assumption) ?_

theorem serveLater_evolves {op : Nat} {rights : List Nat} {bone : Bool} {recovery : Bool} {r : Req} {run : State → State × Option (Nat × Reply)} {ps : List Part} {s₀ s : State} (hE : Evolves ps s₀ s)
    (hrun : ∀ (t : State), Evolves ps s₀ t → Evolves ps s₀ ((run t)).1)
    (hW : Sub [.sessions, .bone, .regs, .regCtl, .out] ps) :
    Evolves ps s₀ (serveLater op rights bone recovery r run s) := by
  unfold serveLater
  repeat' first
    | exact Sub.of hW rfl
    | with_reducible first
        | exact hE | apply receive_evolves | apply respond_evolves | apply hrun
        | refine Evolves.ite (fun _ => ?_) (fun _ => ?_) | assumption
    | intro _ | dsimp only | split
    | with_reducible first
        | refine Evolves.fst_of (by assumption) ?_ | refine Evolves.snd_of (by assumption) ?_

theorem serve_evolves {op : Nat} {rights : List Nat} {bone : Bool} {recovery : Bool} {r : Req} {run : State → State × Nat × Reply} {ps : List Part} {s₀ s : State} (hE : Evolves ps s₀ s)
    (hrun : ∀ (t : State), Evolves ps s₀ t → Evolves ps s₀ ((run t)).1)
    (hW : Sub [.sessions, .bone, .regs, .regCtl, .out] ps) :
    Evolves ps s₀ (serve op rights bone recovery r run s) := by
  unfold serve
  repeat' first
    | exact Sub.of hW rfl
    | with_reducible first
        | exact hE | apply serveLater_evolves | apply hrun | assumption
    | intro _ | dsimp only | split
    | with_reducible first
        | refine Evolves.fst_of (by assumption) ?_ | refine Evolves.snd_of (by assumption) ?_

end Sys2Proof.Machine
end

