-- ==== Sys2Proof/Laws/FrameActivation.lean ====
section
/-! SUPPORT. What the operations of Machine/Activation.lean change at most: one lemma each. -/

namespace Sys2Proof.Machine

set_option linter.unusedTactic false
set_option linter.unreachableTactic false
set_option linter.unusedVariables false

theorem onAct_evolves {f : Activation → Activation} {ps : List Part} {s₀ s : State} (hE : Evolves ps s₀ s)
    (hW : Sub [.activation] ps) :
    Evolves ps s₀ (onAct f s) := by
  unfold onAct
  repeat' first
    | exact Sub.of hW rfl | exact .inl (Sub.of hW rfl) | with_reducible exact .inr rfl
    | exact .inr (FencesStay.refl _) | exact .inr (by dsimp only) | exact .inr rfl
    | with_reducible exact (fun h => h : _ = true → _) | (dsimp only; exact (fun h => h : _ = true → _))
    | exact (fun h => h : _ = true → _)
    | with_reducible first
        | exact hE | apply state_onCmd_evolves
    | dsimp only

theorem imageRefused_evolves {reason : Nat} {kind : Nat} {slot : Nat} {ps : List Part} {s₀ s : State} (hE : Evolves ps s₀ s)
    (hW : Sub [.events, .counters, .sampling] ps) :
    Evolves ps s₀ (imageRefused reason kind slot s) := by
  unfold imageRefused
  repeat' first
    | exact Sub.of hW rfl
    | with_reducible first
        | exact hE | apply emit_evolves
    | dsimp only

theorem startActivation_evolves {kind : Nat} {slot : Nat} {reply : Option (Nat × Nat × Nat)} {ps : List Part} {s₀ s : State} (hE : Evolves ps s₀ s)
    (hW : Sub [.events, .counters, .sampling, .boot, .commands, .activation, .trust] ps) :
    Evolves ps s₀ (startActivation kind slot reply s).1 := by
  unfold startActivation
  repeat' first
    | exact Sub.of hW rfl | exact .inl (Sub.of hW rfl) | with_reducible exact .inr rfl
    | exact .inr (FencesStay.refl _) | exact .inr (by dsimp only) | exact .inr rfl
    | with_reducible exact (fun h => h : _ = true → _) | (dsimp only; exact (fun h => h : _ = true → _))
    | exact (fun h => h : _ = true → _)
    | with_reducible first
        | exact hE | apply onAct_evolves | apply imageRefused_evolves | apply state_onBoot_evolves
        | apply extend_evolves | apply emit_evolves | apply state_onCmd_evolves | apply boundEnter_evolves
        | refine Evolves.ite (fun _ => ?_) (fun _ => ?_)
    | dsimp only | split
    | with_reducible first
        | refine Evolves.fst_of (by assumption) ?_ | refine Evolves.snd_of (by assumption) ?_

theorem actCtrl_evolves {kind : Nat} {path : Fin 5} {session : Nat} {value : Word} {ps : List Part} {s₀ s : State} (hE : Evolves ps s₀ s)
    (hW : Sub [.events, .sessions, .marks, .counters, .sampling, .boot, .commands, .activation, .trust, .regs, .regCtl,
      .out] ps) :
    Evolves ps s₀ (actCtrl kind path session value s) := by
  unfold actCtrl
  repeat' first
    | exact Sub.of hW rfl
    | with_reducible first
        | exact hE | apply writeGate_evolves | apply startActivation_evolves
        | refine Evolves.ite (fun _ => ?_) (fun _ => ?_)
    | dsimp only | split
    | with_reducible first
        | refine Evolves.fst_of (by assumption) ?_ | refine Evolves.snd_of (by assumption) ?_

theorem actReply_evolves {status : Nat} {ps : List Part} {s₀ s : State} (hE : Evolves ps s₀ s)
    (hW : Sub [.sessions, .activation, .out] ps) :
    Evolves ps s₀ (actReply status s) := by
  unfold actReply
  repeat' first
    | exact Sub.of hW rfl
    | with_reducible first
        | exact hE | apply onAct_evolves | apply respond_evolves
    | dsimp only | split
    | with_reducible first
        | refine Evolves.fst_of (by assumption) ?_ | refine Evolves.snd_of (by assumption) ?_

theorem execActivateImage_evolves {path : Fin 5} {session : Nat} {value : Word} {ps : List Part} {s₀ s : State} (hE : Evolves ps s₀ s)
    (hW : Sub [.events, .sessions, .marks, .counters, .sampling, .boot, .commands, .activation, .trust, .regs, .regCtl,
      .out] ps) :
    ∀ t, execActivateImage path session value s = .next t → Evolves ps s₀ t := by
  intro t ht
  unfold execActivateImage at ht
  repeat' first
    | (with_reducible obtain rfl := Host.Outcome.next.inj ht)
    | split at ht
    | dsimp only at ht
  all_goals
    repeat' first
      | exact Sub.of hW rfl
      | with_reducible first
          | exact hE | apply actCtrl_evolves
      | dsimp only

theorem execActivateFirmware_evolves {path : Fin 5} {session : Nat} {value : Word} {ps : List Part} {s₀ s : State} (hE : Evolves ps s₀ s)
    (hW : Sub [.events, .sessions, .marks, .counters, .sampling, .boot, .commands, .activation, .trust, .regs, .regCtl,
      .out] ps) :
    ∀ t, execActivateFirmware path session value s = .next t → Evolves ps s₀ t := by
  intro t ht
  unfold execActivateFirmware at ht
  repeat' first
    | (with_reducible obtain rfl := Host.Outcome.next.inj ht)
    | split at ht
    | dsimp only at ht
  all_goals
    repeat' first
      | exact Sub.of hW rfl
      | with_reducible first
          | exact hE | apply actCtrl_evolves
      | dsimp only

theorem execActDrained_evolves  {ps : List Part} {s₀ s : State} (hE : Evolves ps s₀ s)
    (hW : Sub [.activation] ps) :
    ∀ t, execActDrained s = .next t → Evolves ps s₀ t := by
  intro t ht
  unfold execActDrained at ht
  repeat' first
    | (with_reducible obtain rfl := Host.Outcome.next.inj ht)
    | split at ht
    | dsimp only at ht
  all_goals
    repeat' first
      | exact Sub.of hW rfl
      | with_reducible first
          | exact hE | apply onAct_evolves | refine Evolves.ite (fun _ => ?_) (fun _ => ?_)
      | dsimp only | split

theorem execActDeferred_evolves  {ps : List Part} {s₀ s : State} (hE : Evolves ps s₀ s)
    (hW : Sub [.events, .sessions, .counters, .sampling, .activation, .out] ps) :
    ∀ t, execActDeferred s = .next t → Evolves ps s₀ t := by
  intro t ht
  unfold execActDeferred at ht
  repeat' first
    | (with_reducible obtain rfl := Host.Outcome.next.inj ht)
    | split at ht
    | dsimp only at ht
  all_goals
    repeat' first
      | exact Sub.of hW rfl
      | with_reducible first
          | exact hE | apply onAct_evolves | apply emit_evolves | apply actReply_evolves
          | refine Evolves.ite (fun _ => ?_) (fun _ => ?_)
      | dsimp only | split

theorem execActDone_evolves  {ps : List Part} {s₀ s : State} (hE : Evolves ps s₀ s)
    (hW : Sub [.events, .time, .rings, .sessions, .principals, .images, .stores, .identity, .counters, .sampling, .boot,
      .namespaces, .commands, .activation, .chains, .mapping, .keys, .keyOrders, .trust, .batches, .driveSlots,
      .classifier, .punts, .groups, .tables, .traffic, .hostReads, .leash, .replicas, .roles, .regs, .regCtl,
      .regPrt, .regCls, .regSwc, .regTmg, .regXpt, .regCmd, .regLay, .regFix, .regDrv, .regCip, .regTru,
      .regPwr, .regHep, .regRed, .regTel, .out, .free] ps) :
    ∀ t, execActDone s = .next t → Evolves ps s₀ t := by
  intro t ht
  unfold execActDone at ht
  repeat' first
    | (with_reducible obtain rfl := Host.Outcome.next.inj ht)
    | split at ht
    | dsimp only at ht
  all_goals
    repeat' first
      | exact Sub.of hW rfl | exact .inl (Sub.of hW rfl) | with_reducible exact .inr rfl
      | exact .inr (FencesStay.refl _) | exact .inr (by dsimp only) | exact .inr rfl
      | with_reducible exact (fun h => h : _ = true → _) | (dsimp only; exact (fun h => h : _ = true → _))
      | exact (fun h => h : _ = true → _)
      | with_reducible first
          | exact hE | apply applyImage_evolves | apply state_onBoot_evolves | apply onAct_evolves
          | apply actReply_evolves | apply emit_evolves | refine Evolves.ite (fun _ => ?_) (fun _ => ?_)
      | dsimp only | split

theorem execBoundResumed_evolves  {ps : List Part} {s₀ s : State} (hE : Evolves ps s₀ s)
    (hW : Sub [.events, .counters, .sampling, .commands, .activation] ps) :
    ∀ t, execBoundResumed s = .next t → Evolves ps s₀ t := by
  intro t ht
  unfold execBoundResumed at ht
  repeat' first
    | (with_reducible obtain rfl := Host.Outcome.next.inj ht)
    | split at ht
    | dsimp only at ht
  all_goals
    repeat' first
      | exact Sub.of hW rfl
      | with_reducible first
          | exact hE | apply boundLeave_evolves | apply onAct_evolves | refine Evolves.ite (fun _ => ?_) (fun _ => ?_)
      | dsimp only | split

end Sys2Proof.Machine
end

