-- ==== Sys2Proof/Laws/FrameAdmission.lean ====
section
/-! SUPPORT. What the operations of Machine/Admission.lean change at most: one lemma each. -/

namespace Sys2Proof.Machine

set_option linter.unusedTactic false
set_option linter.unreachableTactic false
set_option linter.unusedVariables false

theorem takeSlot_evolves {c : Capsule} {ps : List Part} {s₀ s : State} (hE : Evolves ps s₀ s)
    (hW : Sub [.commands, .buffer, .regs, .regSwc] ps) :
    Evolves ps s₀ (takeSlot c s) := by
  unfold takeSlot
  repeat' first
    | exact Sub.of hW rfl | exact .inl (Sub.of hW rfl) | with_reducible exact .inr rfl
    | exact .inr (FencesStay.refl _) | exact .inr (by dsimp only) | exact .inr rfl
    | with_reducible exact (fun h => h : _ = true → _) | (dsimp only; exact (fun h => h : _ = true → _))
    | exact (fun h => h : _ = true → _)
    | with_reducible first
        | exact hE | apply holdCells_evolves | apply state_onCmd_evolves
        | refine Evolves.ite (fun _ => ?_) (fun _ => ?_)
    | dsimp only | split
    | with_reducible first
        | refine Evolves.fst_of (by assumption) ?_ | refine Evolves.snd_of (by assumption) ?_

theorem enqueueCap_evolves {c : Capsule} {ps : List Part} {s₀ s : State} (hE : Evolves ps s₀ s)
    (hW : Sub [.commands, .buffer, .regs, .regSwc] ps) :
    Evolves ps s₀ (enqueueCap c s) := by
  unfold enqueueCap
  repeat' first
    | exact Sub.of hW rfl | exact .inl (Sub.of hW rfl) | with_reducible exact .inr rfl
    | exact .inr (FencesStay.refl _) | exact .inr (by dsimp only) | exact .inr rfl
    | with_reducible exact (fun h => h : _ = true → _) | (dsimp only; exact (fun h => h : _ = true → _))
    | exact (fun h => h : _ = true → _)
    | with_reducible first
        | exact hE | apply state_onCmd_evolves | apply takeSlot_evolves
    | dsimp only

theorem completeCap_evolves {c : Capsule} {st : Status} {ps : List Part} {s₀ s : State} (hE : Evolves ps s₀ s)
    (hW : Sub [.events, .counters, .sampling, .contexts, .functions, .hostQueues, .leash, .replicas, .regs, .regCmd,
      .out] ps) :
    Evolves ps s₀ (completeCap c st s) := by
  unfold completeCap
  repeat' first
    | exact Sub.of hW rfl
    | with_reducible first
        | exact hE | apply measure_evolves | apply post_evolves
    | dsimp only

theorem refuseC0_evolves {c : Capsule} {st : Status} {test : Nat} {ps : List Part} {s₀ s : State} (hE : Evolves ps s₀ s)
    (hW : Sub [.events, .counters, .sampling, .contexts, .functions, .hostQueues, .leash, .replicas, .regs, .regCmd,
      .out] ps) :
    Evolves ps s₀ (refuseC0 c st test s) := by
  unfold refuseC0
  repeat' first
    | exact Sub.of hW rfl
    | with_reducible first
        | exact hE | apply state_bumpI_evolves | apply completeCap_evolves | apply emit_evolves
    | dsimp only

theorem testCap_evolves {c : Capsule} {ps : List Part} {s₀ s : State} (hE : Evolves ps s₀ s)
    (hW : Sub [.events, .counters, .sampling, .commands, .contexts, .buffer, .functions, .hostQueues, .leash, .replicas,
      .regs, .regSwc, .regCmd, .out] ps) :
    Evolves ps s₀ (testCap c s) := by
  unfold testCap
  repeat' first
    | exact Sub.of hW rfl
    | with_reducible first
        | exact hE | apply completeCap_evolves | apply enqueueCap_evolves | apply refuseC0_evolves
        | apply c0Charge_evolves | refine Evolves.ite (fun _ => ?_) (fun _ => ?_)
    | dsimp only | split
    | with_reducible first
        | refine Evolves.fst_of (by assumption) ?_ | refine Evolves.snd_of (by assumption) ?_

theorem admitCap_evolves {c : Capsule} {ps : List Part} {s₀ s : State} (hE : Evolves ps s₀ s)
    (hW : Sub [.events, .counters, .sampling, .commands, .powerState, .contexts, .buffer, .functions, .hostQueues,
      .leash, .replicas, .regs, .regSwc, .regCmd, .out] ps) :
    Evolves ps s₀ (admitCap c s) := by
  unfold admitCap
  repeat' first
    | exact Sub.of hW rfl
    | with_reducible first
        | exact hE | apply noteCapsule_evolves | apply startExit_evolves | apply enqueueCap_evolves
        | apply testCap_evolves | refine Evolves.ite (fun _ => ?_) (fun _ => ?_)
    | dsimp only | split

theorem fetchData_evolves {i : Nat} {ps : List Part} {s₀ s : State} (hE : Evolves ps s₀ s)
    (hW : Sub [.commands, .contexts, .hostReads, .leash, .replicas, .out] ps) :
    Evolves ps s₀ (fetchData i s) := by
  unfold fetchData
  repeat' first
    | exact Sub.of hW rfl
    | with_reducible first
        | exact hE | apply onEntry_evolves | apply hepFetch_evolves | apply issueReads_evolves
        | refine Evolves.ite (fun _ => ?_) (fun _ => ?_) | refine Evolves.foldl ?_ ?_ | refine Evolves.foldl_fst ?_ ?_
        | refine Evolves.foldl_snd ?_ ?_ | assumption
    | intro _ | dsimp only | split

theorem startWork_evolves {i : Nat} {ps : List Part} {s₀ s : State} (hE : Evolves ps s₀ s)
    (hW : Sub [.events, .counters, .sampling, .commands, .powerState, .contexts, .hbm, .mapping, .journal, .layoutWork,
      .ciphers, .drivePorts, .buffer, .hostReads, .leash, .replicas, .regs, .regSwc, .regLay, .regCip, .out] ps) :
    Evolves ps s₀ (startWork i s) := by
  unfold startWork
  repeat' first
    | exact Sub.of hW rfl
    | with_reducible first
        | exact hE | apply toPosting_evolves | apply cipRefuse_evolves
        | refine allocateFor_evolves ?_ (Sub.of hW rfl) _ _ (by assumption) | apply noSpace_evolves
        | apply onEntry_evolves | apply journalStep_evolves | apply fetchData_evolves | apply advanceRead_evolves
        | apply startReturn_evolves | refine Evolves.ite (fun _ => ?_) (fun _ => ?_)
    | dsimp only | split
    | with_reducible first
        | refine Evolves.fst_of (by assumption) ?_ | refine Evolves.snd_of (by assumption) ?_

theorem testWaiting_evolves  {ps : List Part} {s₀ s : State} (hE : Evolves ps s₀ s)
    (hW : Sub [.events, .counters, .sampling, .commands, .contexts, .buffer, .functions, .hostQueues, .leash, .replicas,
      .regs, .regSwc, .regCmd, .out] ps) :
    Evolves ps s₀ (testWaiting s) := by
  unfold testWaiting
  repeat' first
    | exact Sub.of hW rfl | exact .inl (Sub.of hW rfl) | with_reducible exact .inr rfl
    | exact .inr (FencesStay.refl _) | exact .inr (by dsimp only) | exact .inr rfl
    | with_reducible exact (fun h => h : _ = true → _) | (dsimp only; exact (fun h => h : _ = true → _))
    | exact (fun h => h : _ = true → _)
    | with_reducible first
        | exact hE | apply sweepSlots_evolves | apply testCap_evolves | apply enqueueCap_evolves
        | apply state_onCmd_evolves | refine Evolves.ite (fun _ => ?_) (fun _ => ?_) | refine Evolves.foldl ?_ ?_
        | refine Evolves.foldl_fst ?_ ?_ | refine Evolves.foldl_snd ?_ ?_ | assumption
    | intro _ | dsimp only | split

end Sys2Proof.Machine
end

