-- ==== Sys2Proof/Laws/FrameConnections.lean ====
section
/-! SUPPORT. What the operations of Machine/Connections.lean change at most: one lemma each. -/

namespace Sys2Proof.Machine

set_option linter.unusedTactic false
set_option linter.unreachableTactic false
set_option linter.unusedVariables false

theorem onChain_evolves {entry : Nat} {f : Chain → Chain} {ps : List Part} {s₀ s : State} (hE : Evolves ps s₀ s)
    (hW : Sub [.chains] ps) :
    Evolves ps s₀ (onChain entry f s) := by
  unfold onChain
  repeat' first
    | exact Sub.of hW rfl | exact .inl (Sub.of hW rfl) | with_reducible exact .inr rfl
    | exact .inr (FencesStay.refl _) | exact .inr (by dsimp only) | exact .inr rfl
    | with_reducible exact (fun h => h : _ = true → _) | (dsimp only; exact (fun h => h : _ = true → _))
    | exact (fun h => h : _ = true → _)
    | with_reducible first
        | exact hE | apply state_onXpt_evolves
    | dsimp only

theorem onTrigger_evolves {entry : Nat} {f : Trigger → Trigger} {ps : List Part} {s₀ s : State} (hE : Evolves ps s₀ s)
    (hW : Sub [.chains] ps) :
    Evolves ps s₀ (onTrigger entry f s) := by
  unfold onTrigger
  repeat' first
    | exact Sub.of hW rfl | exact .inl (Sub.of hW rfl) | with_reducible exact .inr rfl
    | exact .inr (FencesStay.refl _) | exact .inr (by dsimp only) | exact .inr rfl
    | with_reducible exact (fun h => h : _ = true → _) | (dsimp only; exact (fun h => h : _ = true → _))
    | exact (fun h => h : _ = true → _)
    | with_reducible first
        | exact hE | apply state_onXpt_evolves
    | dsimp only

theorem endChain_evolves {entry : Nat} {ps : List Part} {s₀ s : State} (hE : Evolves ps s₀ s)
    (hW : Sub [.events, .counters, .sampling, .contexts, .chains, .jobs, .leash, .replicas, .out] ps) :
    Evolves ps s₀ (endChain entry s) := by
  unfold endChain
  repeat' first
    | exact Sub.of hW rfl
    | with_reducible first
        | exact hE | apply onChain_evolves | apply onTrigger_evolves | apply windowEnded_evolves | apply emit_evolves
        | refine Evolves.ite (fun _ => ?_) (fun _ => ?_)
    | dsimp only | split
    | with_reducible first
        | refine Evolves.fst_of (by assumption) ?_ | refine Evolves.snd_of (by assumption) ?_

theorem failChain_evolves {entry : Nat} {status : Nat} {index : Nat} {ps : List Part} {s₀ s : State} (hE : Evolves ps s₀ s)
    (hW : Sub [.events, .counters, .sampling, .contexts, .chains, .jobs, .leash, .replicas, .out] ps) :
    Evolves ps s₀ (failChain entry status index s) := by
  unfold failChain
  repeat' first
    | exact Sub.of hW rfl
    | with_reducible first
        | exact hE | apply endChain_evolves | apply onChain_evolves | refine Evolves.ite (fun _ => ?_) (fun _ => ?_)
    | dsimp only | split

theorem failChainsOn_evolves {qpn : Nat} {cause : Nat} {ps : List Part} {s₀ s : State} (hE : Evolves ps s₀ s)
    (hW : Sub [.events, .counters, .sampling, .contexts, .chains, .jobs, .leash, .replicas, .out] ps) :
    Evolves ps s₀ (failChainsOn qpn cause s) := by
  unfold failChainsOn
  repeat' first
    | exact Sub.of hW rfl
    | with_reducible first
        | exact hE | apply failChain_evolves | apply onChain_evolves | refine Evolves.foldl ?_ ?_
        | refine Evolves.foldl_fst ?_ ?_ | refine Evolves.foldl_snd ?_ ?_ | assumption
    | intro _ | dsimp only

theorem dropQueue_evolves {cntlid : Nat} {sqid : Nat} {ps : List Part} {s₀ s : State} (hE : Evolves ps s₀ s)
    (hW : Sub [.events, .counters, .sampling, .queues, .commands, .powerState, .contexts, .contextCache, .regions,
      .mapping, .journal, .layoutWork, .ciphers, .drivePorts, .buffer, .replicas, .regs, .regSwc, .out] ps) :
    Evolves ps s₀ (dropQueue cntlid sqid s) := by
  unfold dropQueue
  repeat' first
    | exact Sub.of hW rfl | exact .inl (Sub.of hW rfl) | with_reducible exact .inr rfl
    | exact .inr (FencesStay.refl _) | exact .inr (by dsimp only) | exact .inr rfl
    | with_reducible exact (fun h => h : _ = true → _) | (dsimp only; exact (fun h => h : _ = true → _))
    | exact (fun h => h : _ = true → _)
    | with_reducible first
        | exact hE | apply endQueueCommands_evolves | apply localDisconnect_evolves | apply state_onCmd_evolves
    | dsimp only

theorem bindingLost_evolves {c : Context} {say : Bool} {ps : List Part} {s₀ s : State} (hE : Evolves ps s₀ s)
    (hW : Sub [.events, .counters, .sampling, .controllers, .queues, .commands, .powerState, .contexts, .contextCache,
      .regions, .mapping, .journal, .layoutWork, .ciphers, .drivePorts, .buffer, .replicas, .regs, .regSwc,
      .out] ps) :
    Evolves ps s₀ (bindingLost c say s) := by
  unfold bindingLost
  repeat' first
    | exact Sub.of hW rfl
    | with_reducible first
        | exact hE | apply deleteCtrl_evolves | apply dropQueue_evolves | apply ctrlReset_evolves
        | refine Evolves.ite (fun _ => ?_) (fun _ => ?_)
    | dsimp only | split

theorem connError_evolves {qpn : Nat} {cause : Nat} {ps : List Part} {s₀ s : State} (hE : Evolves ps s₀ s)
    (hW : Sub [.events, .counters, .sampling, .controllers, .queues, .commands, .powerState, .contexts, .contextCache,
      .regions, .chains, .mapping, .journal, .layoutWork, .ciphers, .jobs, .drivePorts, .buffer, .leash,
      .replicas, .regs, .regSwc, .out] ps) :
    Evolves ps s₀ (connError qpn cause s) := by
  unfold connError
  repeat' first
    | exact Sub.of hW rfl
    | with_reducible first
        | exact hE | apply onCtx_evolves | apply emit_evolves | apply state_send_evolves | apply failChainsOn_evolves
        | apply endStraddles_evolves | apply bindingLost_evolves | refine Evolves.ite (fun _ => ?_) (fun _ => ?_)
    | dsimp only | split

theorem endDrain_evolves {qpn : Nat} {ps : List Part} {s₀ s : State} (hE : Evolves ps s₀ s)
    (hW : Sub [.events, .counters, .sampling, .controllers, .queues, .commands, .powerState, .contexts, .contextCache,
      .regions, .chains, .mapping, .journal, .layoutWork, .ciphers, .jobs, .drivePorts, .buffer, .leash,
      .replicas, .regs, .regSwc, .out] ps) :
    Evolves ps s₀ (endDrain qpn s) := by
  unfold endDrain
  repeat' first
    | exact Sub.of hW rfl
    | with_reducible first
        | exact hE | apply drainedFree_evolves | apply failChainsOn_evolves | apply bindingLost_evolves
    | dsimp only

theorem drainCheck_evolves {qpn : Nat} {ps : List Part} {s₀ s : State} (hE : Evolves ps s₀ s)
    (hW : Sub [.events, .counters, .sampling, .controllers, .queues, .commands, .powerState, .contexts, .contextCache,
      .regions, .chains, .mapping, .journal, .layoutWork, .ciphers, .jobs, .drivePorts, .buffer, .leash,
      .replicas, .regs, .regSwc, .out] ps) :
    Evolves ps s₀ (drainCheck qpn s) := by
  unfold drainCheck
  repeat' first
    | exact Sub.of hW rfl
    | with_reducible first
        | exact hE | apply endDrain_evolves | refine Evolves.ite (fun _ => ?_) (fun _ => ?_)
    | dsimp only | split

theorem execCmReq_evolves {r : CmReq} {ps : List Part} {s₀ s : State} (hE : Evolves ps s₀ s)
    (hW : Sub [.events, .counters, .sampling, .contexts, .regs, .regXpt, .out, .free] ps) :
    ∀ t, execCmReq r s = .next t → Evolves ps s₀ t := by
  intro t ht
  unfold execCmReq at ht
  repeat' first
    | (with_reducible obtain rfl := Host.Outcome.next.inj ht)
    | split at ht
    | dsimp only at ht
  all_goals
    repeat' first
      | exact Sub.of hW rfl | exact .inl (Sub.of hW rfl) | with_reducible exact .inr rfl
      | exact .inr (FencesStay.refl _) | exact .inr (by dsimp only) | exact .inr rfl
      | with_reducible exact (fun h => h : _ = true → _) | (dsimp only; exact (fun h => h : _ = true → _))
      | exact (fun h => h : _ = true → _)
      | with_reducible first
          | exact hE | apply state_send_evolves | apply emit_evolves | apply state_onXpt_evolves
          | apply state_drawn_evolves | apply raiseHwm_evolves | refine Evolves.ite (fun _ => ?_) (fun _ => ?_)
      | dsimp only | split
      | with_reducible first
          | refine Evolves.fst_of (by assumption) ?_ | refine Evolves.snd_of (by assumption) ?_

theorem execCmRtu_evolves {qpn : Nat} {ps : List Part} {s₀ s : State} (hE : Evolves ps s₀ s)
    (hW : Sub [.contexts] ps) :
    ∀ t, execCmRtu qpn s = .next t → Evolves ps s₀ t := by
  intro t ht
  unfold execCmRtu at ht
  repeat' first
    | (with_reducible obtain rfl := Host.Outcome.next.inj ht)
    | split at ht
    | dsimp only at ht
  all_goals
    repeat' first
      | exact Sub.of hW rfl
      | with_reducible first
          | exact hE | apply onCtx_evolves | refine Evolves.ite (fun _ => ?_) (fun _ => ?_)
      | dsimp only | split

theorem execCmDreq_evolves {qpn : Nat} {ps : List Part} {s₀ s : State} (hE : Evolves ps s₀ s)
    (hW : Sub [.events, .counters, .sampling, .controllers, .queues, .commands, .powerState, .contexts, .contextCache,
      .regions, .chains, .mapping, .journal, .layoutWork, .ciphers, .jobs, .drivePorts, .buffer, .leash,
      .replicas, .regs, .regSwc, .out] ps) :
    ∀ t, execCmDreq qpn s = .next t → Evolves ps s₀ t := by
  intro t ht
  unfold execCmDreq at ht
  repeat' first
    | (with_reducible obtain rfl := Host.Outcome.next.inj ht)
    | split at ht
    | dsimp only at ht
  all_goals
    repeat' first
      | exact Sub.of hW rfl
      | with_reducible first
          | exact hE | apply drainCheck_evolves | apply onCtx_evolves | refine Evolves.ite (fun _ => ?_) (fun _ => ?_)
      | dsimp only | split

theorem execCmDrep_evolves {qpn : Nat} {ps : List Part} {s₀ s : State} (hE : Evolves ps s₀ s)
    (hW : Sub [.contexts, .contextCache] ps) :
    ∀ t, execCmDrep qpn s = .next t → Evolves ps s₀ t := by
  intro t ht
  unfold execCmDrep at ht
  repeat' first
    | (with_reducible obtain rfl := Host.Outcome.next.inj ht)
    | split at ht
    | dsimp only at ht
  all_goals
    repeat' first
      | exact Sub.of hW rfl
      | with_reducible first
          | exact hE | apply freeContext_evolves | refine Evolves.ite (fun _ => ?_) (fun _ => ?_)
      | dsimp only | split

theorem execContextDrainTimeout_evolves {qpn : Nat} {ps : List Part} {s₀ s : State} (hE : Evolves ps s₀ s)
    (hW : Sub [.events, .counters, .sampling, .controllers, .queues, .commands, .powerState, .contexts, .contextCache,
      .regions, .chains, .mapping, .journal, .layoutWork, .ciphers, .jobs, .drivePorts, .buffer, .leash,
      .replicas, .regs, .regSwc, .out] ps) :
    ∀ t, execContextDrainTimeout qpn s = .next t → Evolves ps s₀ t := by
  intro t ht
  unfold execContextDrainTimeout at ht
  repeat' first
    | (with_reducible obtain rfl := Host.Outcome.next.inj ht)
    | split at ht
    | dsimp only at ht
  all_goals
    repeat' first
      | exact Sub.of hW rfl
      | with_reducible first
          | exact hE | apply endDrain_evolves | refine Evolves.ite (fun _ => ?_) (fun _ => ?_)
      | dsimp only | split

theorem execContextErrorTimeout_evolves {qpn : Nat} {ps : List Part} {s₀ s : State} (hE : Evolves ps s₀ s)
    (hW : Sub [.contexts, .contextCache] ps) :
    ∀ t, execContextErrorTimeout qpn s = .next t → Evolves ps s₀ t := by
  intro t ht
  unfold execContextErrorTimeout at ht
  repeat' first
    | (with_reducible obtain rfl := Host.Outcome.next.inj ht)
    | split at ht
    | dsimp only at ht
  all_goals
    repeat' first
      | exact Sub.of hW rfl
      | with_reducible first
          | exact hE | apply freeContext_evolves | refine Evolves.ite (fun _ => ?_) (fun _ => ?_)
      | dsimp only | split

theorem refuseRequest_evolves {qpn : Nat} {psn : Nat} {ps : List Part} {s₀ s : State} (hE : Evolves ps s₀ s)
    (hW : Sub [.events, .counters, .sampling, .controllers, .queues, .commands, .powerState, .contexts, .contextCache,
      .regions, .chains, .mapping, .journal, .layoutWork, .ciphers, .jobs, .drivePorts, .buffer, .leash,
      .replicas, .regs, .regSwc, .out] ps) :
    Evolves ps s₀ (refuseRequest qpn psn s) := by
  unfold refuseRequest
  repeat' first
    | exact Sub.of hW rfl
    | with_reducible first
        | exact hE | apply connError_evolves | apply sendPacket_evolves
    | dsimp only

end Sys2Proof.Machine
end

