-- ==== Sys2Proof/Laws/FrameAdmin.lean ====
section
/-! SUPPORT. What the operations of Machine/Admin.lean change at most: one lemma each. -/

namespace Sys2Proof.Machine

set_option linter.unusedTactic false
set_option linter.unreachableTactic false
set_option linter.unusedVariables false

theorem abortEntry_evolves {i : Nat} {ps : List Part} {s₀ s : State} (hE : Evolves ps s₀ s)
    (hW : Sub [.events, .counters, .sampling, .commands, .powerState, .contexts, .mapping, .journal, .layoutWork,
      .ciphers, .drivePorts, .buffer, .functions, .hostQueues, .leash, .replicas, .regs, .regSwc, .regCmd,
      .out] ps) :
    Evolves ps s₀ (abortEntry i s) := by
  unfold abortEntry
  repeat' first
    | exact Sub.of hW rfl
    | with_reducible first
        | exact hE | apply post_evolves | apply freeEntry_evolves | apply releaseAllocs_evolves
        | apply noteEnded_evolves | apply measure_evolves
    | dsimp only

theorem adminCommand_evolves {a : Admin} {run : State → State} {ps : List Part} {s₀ s : State} (hE : Evolves ps s₀ s)
    (hrun : ∀ (t : State), Evolves ps s₀ t → Evolves ps s₀ (run t))
    (hW : Sub [.contexts, .functions, .hostQueues, .leash, .replicas, .out] ps) :
    Evolves ps s₀ (adminCommand a run s) := by
  unfold adminCommand
  repeat' first
    | exact Sub.of hW rfl
    | with_reducible first
        | exact hE | apply postAdmin_evolves | apply hrun | refine Evolves.ite (fun _ => ?_) (fun _ => ?_)
        | assumption
    | intro _ | dsimp only | split

theorem openAdminQueue_evolves {id : Nat} {ps : List Part} {s₀ s : State} (hE : Evolves ps s₀ s)
    (hW : Sub [.queues, .hostQueues] ps) :
    Evolves ps s₀ (openAdminQueue id s) := by
  unfold openAdminQueue
  repeat' first
    | exact Sub.of hW rfl | exact .inl (Sub.of hW rfl) | with_reducible exact .inr rfl
    | exact .inr (FencesStay.refl _) | exact .inr (by dsimp only) | exact .inr rfl
    | with_reducible exact (fun h => h : _ = true → _) | (dsimp only; exact (fun h => h : _ = true → _))
    | exact (fun h => h : _ = true → _)
    | with_reducible first
        | exact hE | apply state_onCmd_evolves | apply state_onHep_evolves
    | dsimp only | split
    | with_reducible first
        | refine Evolves.fst_of (by assumption) ?_ | refine Evolves.snd_of (by assumption) ?_

theorem enable_evolves {id : Nat} {ps : List Part} {s₀ s : State} (hE : Evolves ps s₀ s)
    (hW : Sub [.events, .counters, .sampling, .controllers, .queues, .hostQueues] ps) :
    Evolves ps s₀ (enable id s) := by
  unfold enable
  repeat' first
    | exact Sub.of hW rfl
    | with_reducible first
        | exact hE | apply openAdminQueue_evolves | apply onCtrl_evolves | apply ctrlReset_evolves
        | refine Evolves.ite (fun _ => ?_) (fun _ => ?_)
    | dsimp only | split

theorem answerConnect_evolves {conn : Nat} {cntlid : Nat} {qid : Nat} {cid : Nat} {st : Status} {ps : List Part} {s₀ s : State} (hE : Evolves ps s₀ s)
    (hW : Sub [.contexts, .leash, .replicas, .out] ps) :
    Evolves ps s₀ (answerConnect conn cntlid qid cid st s) := by
  unfold answerConnect
  repeat' first
    | exact Sub.of hW rfl
    | with_reducible first
        | exact hE | apply state_send_evolves | apply sendResponse_evolves
    | dsimp only

theorem answerSet_evolves {cntlid : Nat} {cid : Option Nat} {ps : List Part} {s₀ s : State} (hE : Evolves ps s₀ s)
    (hW : Sub [.contexts, .functions, .hostQueues, .leash, .replicas, .out] ps) :
    Evolves ps s₀ (answerSet cntlid cid s) := by
  unfold answerSet
  repeat' first
    | exact Sub.of hW rfl
    | with_reducible first
        | exact hE | apply postAdmin_evolves
    | dsimp only | split
    | with_reducible first
        | refine Evolves.fst_of (by assumption) ?_ | refine Evolves.snd_of (by assumption) ?_

theorem shnWritten_evolves {id : Nat} {shn : Nat} {ps : List Part} {s₀ s : State} (hE : Evolves ps s₀ s)
    (hW : Sub [.events, .counters, .sampling, .controllers, .commands, .powerState, .contexts, .mapping, .journal,
      .layoutWork, .ciphers, .drivePorts, .buffer, .replicas, .regs, .regSwc, .out] ps) :
    Evolves ps s₀ (shnWritten id shn s) := by
  unfold shnWritten
  repeat' first
    | exact Sub.of hW rfl
    | with_reducible first
        | exact hE | apply ctrlReset_evolves | apply testReset_evolves | apply onCtrl_evolves
        | apply endCommands_evolves | refine Evolves.ite (fun _ => ?_) (fun _ => ?_)
    | dsimp only | split

theorem enterDisabling_evolves {id : Nat} {ps : List Part} {s₀ s : State} (hE : Evolves ps s₀ s)
    (hW : Sub [.events, .counters, .sampling, .controllers, .commands, .powerState, .contexts, .mapping, .journal,
      .layoutWork, .ciphers, .drivePorts, .buffer, .replicas, .regs, .regSwc, .out] ps) :
    Evolves ps s₀ (enterDisabling id s) := by
  unfold enterDisabling
  repeat' first
    | exact Sub.of hW rfl
    | with_reducible first
        | exact hE | apply ctrlReset_evolves | apply testReset_evolves | apply endCommands_evolves
        | apply onCtrl_evolves
    | dsimp only

theorem enWritten_evolves {id : Nat} {en : Bool} {ps : List Part} {s₀ s : State} (hE : Evolves ps s₀ s)
    (hW : Sub [.events, .counters, .sampling, .controllers, .queues, .commands, .powerState, .contexts, .mapping,
      .journal, .layoutWork, .ciphers, .drivePorts, .buffer, .hostQueues, .replicas, .regs, .regSwc, .out] ps) :
    Evolves ps s₀ (enWritten id en s) := by
  unfold enWritten
  repeat' first
    | exact Sub.of hW rfl
    | with_reducible first
        | exact hE | apply onCtrl_evolves | apply enable_evolves | apply emit_evolves | apply enterDisabling_evolves
        | refine Evolves.ite (fun _ => ?_) (fun _ => ?_)
    | dsimp only | split

theorem ccWrite_evolves {id : Nat} {cc : Nat} {ps : List Part} {s₀ s : State} (hE : Evolves ps s₀ s)
    (hW : Sub [.events, .counters, .sampling, .controllers, .queues, .commands, .powerState, .contexts, .mapping,
      .journal, .layoutWork, .ciphers, .drivePorts, .buffer, .hostQueues, .replicas, .regs, .regSwc, .out] ps) :
    Evolves ps s₀ (ccWrite id cc s) := by
  unfold ccWrite
  repeat' first
    | exact Sub.of hW rfl
    | with_reducible first
        | exact hE | apply onCtrl_evolves | apply shnWritten_evolves | apply enWritten_evolves
        | refine Evolves.ite (fun _ => ?_) (fun _ => ?_)
    | dsimp only | split

theorem hold_evolves {i : Instr} {run : State → State} {ps : List Part} {s₀ s : State} (hE : Evolves ps s₀ s)
    (hrun : ∀ (t : State), Evolves ps s₀ t → Evolves ps s₀ (run t))
    (hW : Sub [.powerState, .heldCommands] ps) :
    Evolves ps s₀ (hold i run s) := by
  unfold hold
  repeat' first
    | exact Sub.of hW rfl
    | with_reducible first
        | exact hE | apply startExit_evolves | apply hrun | refine Evolves.ite (fun _ => ?_) (fun _ => ?_)
        | assumption
    | intro _ | dsimp only | split
    | with_reducible first
        | apply Evolves.waitingSet

theorem runConnect_evolves {conn : Nat} {nqn : Bytes} {qid : Nat} {size : Nat} {cntlid : Nat} {cid : Nat} {kato : Nat} {ps : List Part} {s₀ s : State} (hE : Evolves ps s₀ s)
    (hW : Sub [.events, .counters, .sampling, .controllers, .queues, .namespaces, .contexts, .leash, .replicas, .out] ps) :
    Evolves ps s₀ (runConnect conn nqn qid size cntlid cid kato s) := by
  unfold runConnect
  repeat' first
    | exact Sub.of hW rfl | exact .inl (Sub.of hW rfl) | with_reducible exact .inr rfl
    | exact .inr (FencesStay.refl _) | exact .inr (by dsimp only) | exact .inr rfl
    | with_reducible exact (fun h => h : _ = true → _) | (dsimp only; exact (fun h => h : _ = true → _))
    | exact (fun h => h : _ = true → _)
    | with_reducible first
        | exact hE | apply answerConnect_evolves | apply emit_evolves | apply state_onCmd_evolves
        | apply onCtrl_evolves | apply onCtx_evolves | refine Evolves.ite (fun _ => ?_) (fun _ => ?_)
    | dsimp only | split
    | with_reducible first
        | refine Evolves.fst_of (by assumption) ?_ | refine Evolves.snd_of (by assumption) ?_

theorem execConnect_evolves {conn : Nat} {nqn : Bytes} {qid : Nat} {size : Nat} {cntlid : Nat} {cid : Nat} {kato : Nat} {ps : List Part} {s₀ s : State} (hE : Evolves ps s₀ s)
    (hW : Sub [.events, .counters, .sampling, .controllers, .queues, .namespaces, .powerState, .contexts, .leash,
      .replicas, .heldCommands, .out] ps) :
    ∀ t, execConnect conn nqn qid size cntlid cid kato s = .next t → Evolves ps s₀ t := by
  intro t ht
  unfold execConnect at ht
  repeat' first
    | (with_reducible obtain rfl := Host.Outcome.next.inj ht)
    | split at ht
    | dsimp only at ht
  all_goals
    repeat' first
      | exact Sub.of hW rfl
      | with_reducible first
          | exact hE | apply hold_evolves | apply runConnect_evolves | assumption
      | intro _ | dsimp only

theorem runPropertyGet_evolves {a : Admin} {offset : Nat} {ps : List Part} {s₀ s : State} (hE : Evolves ps s₀ s)
    (hW : Sub [.contexts, .functions, .hostQueues, .leash, .replicas, .out] ps) :
    Evolves ps s₀ (runPropertyGet a offset s) := by
  unfold runPropertyGet
  repeat' first
    | exact Sub.of hW rfl
    | with_reducible first
        | exact hE | apply postAdmin_evolves | apply state_send_evolves
        | refine Evolves.ite (fun _ => ?_) (fun _ => ?_)
    | dsimp only | split
    | with_reducible first
        | refine Evolves.fst_of (by assumption) ?_ | refine Evolves.snd_of (by assumption) ?_

theorem execPropertyGet_evolves {a : Admin} {offset : Nat} {ps : List Part} {s₀ s : State} (hE : Evolves ps s₀ s)
    (hW : Sub [.powerState, .contexts, .functions, .hostQueues, .leash, .replicas, .heldCommands, .out] ps) :
    ∀ t, execPropertyGet a offset s = .next t → Evolves ps s₀ t := by
  intro t ht
  unfold execPropertyGet at ht
  repeat' first
    | (with_reducible obtain rfl := Host.Outcome.next.inj ht)
    | split at ht
    | dsimp only at ht
  all_goals
    repeat' first
      | exact Sub.of hW rfl
      | with_reducible first
          | exact hE | apply hold_evolves | apply runPropertyGet_evolves | assumption
      | intro _ | dsimp only

theorem runPropertySet_evolves {a : Admin} {offset : Nat} {value : Nat} {ps : List Part} {s₀ s : State} (hE : Evolves ps s₀ s)
    (hW : Sub [.events, .counters, .sampling, .controllers, .queues, .commands, .powerState, .contexts, .mapping,
      .journal, .layoutWork, .ciphers, .drivePorts, .buffer, .functions, .hostQueues, .leash, .replicas, .regs,
      .regSwc, .out] ps) :
    Evolves ps s₀ (runPropertySet a offset value s) := by
  unfold runPropertySet
  repeat' first
    | exact Sub.of hW rfl
    | with_reducible first
        | exact hE | apply postAdmin_evolves | apply ccWrite_evolves | refine Evolves.ite (fun _ => ?_) (fun _ => ?_)
    | dsimp only | split

theorem execPropertySet_evolves {a : Admin} {offset : Nat} {value : Nat} {ps : List Part} {s₀ s : State} (hE : Evolves ps s₀ s)
    (hW : Sub [.events, .counters, .sampling, .controllers, .queues, .commands, .powerState, .contexts, .mapping,
      .journal, .layoutWork, .ciphers, .drivePorts, .buffer, .functions, .hostQueues, .leash, .replicas, .regs,
      .regSwc, .heldCommands, .out] ps) :
    ∀ t, execPropertySet a offset value s = .next t → Evolves ps s₀ t := by
  intro t ht
  unfold execPropertySet at ht
  repeat' first
    | (with_reducible obtain rfl := Host.Outcome.next.inj ht)
    | split at ht
    | dsimp only at ht
  all_goals
    repeat' first
      | exact Sub.of hW rfl
      | with_reducible first
          | exact hE | apply hold_evolves | apply runPropertySet_evolves | assumption
      | intro _ | dsimp only

theorem holdSet_evolves {cid : Option Nat} {i : Instr} {run : State → State} {ps : List Part} {s₀ s : State} (hE : Evolves ps s₀ s)
    (hrun : ∀ (t : State), Evolves ps s₀ t → Evolves ps s₀ (run t))
    (hW : Sub [.powerState, .heldCommands] ps) :
    Evolves ps s₀ (holdSet cid i run s) := by
  unfold holdSet
  repeat' first
    | exact Sub.of hW rfl
    | with_reducible first
        | exact hE | apply hold_evolves | apply startExit_evolves | apply hrun
        | refine Evolves.ite (fun _ => ?_) (fun _ => ?_) | assumption
    | intro _ | dsimp only | split

theorem runCcEnWritten1_evolves {cntlid : Nat} {cid : Option Nat} {cc : Nat} {aqa : Nat} {asq : Nat} {acq : Nat} {ps : List Part} {s₀ s : State} (hE : Evolves ps s₀ s)
    (hW : Sub [.events, .counters, .sampling, .controllers, .queues, .commands, .powerState, .contexts, .mapping,
      .journal, .layoutWork, .ciphers, .drivePorts, .buffer, .functions, .hostQueues, .leash, .replicas, .regs,
      .regSwc, .out] ps) :
    Evolves ps s₀ (runCcEnWritten1 cntlid cid cc aqa asq acq s) := by
  unfold runCcEnWritten1
  repeat' first
    | exact Sub.of hW rfl
    | with_reducible first
        | exact hE | apply onFn_evolves | apply answerSet_evolves | apply ccWrite_evolves
    | dsimp only | split
    | with_reducible first
        | refine Evolves.fst_of (by assumption) ?_ | refine Evolves.snd_of (by assumption) ?_

theorem execCcEnWritten1_evolves {cntlid : Nat} {cid : Option Nat} {cc : Nat} {aqa : Nat} {asq : Nat} {acq : Nat} {ps : List Part} {s₀ s : State} (hE : Evolves ps s₀ s)
    (hW : Sub [.events, .counters, .sampling, .controllers, .queues, .commands, .powerState, .contexts, .mapping,
      .journal, .layoutWork, .ciphers, .drivePorts, .buffer, .functions, .hostQueues, .leash, .replicas, .regs,
      .regSwc, .heldCommands, .out] ps) :
    ∀ t, execCcEnWritten1 cntlid cid cc aqa asq acq s = .next t → Evolves ps s₀ t := by
  intro t ht
  unfold execCcEnWritten1 at ht
  repeat' first
    | (with_reducible obtain rfl := Host.Outcome.next.inj ht)
    | split at ht
    | dsimp only at ht
  all_goals
    repeat' first
      | exact Sub.of hW rfl
      | with_reducible first
          | exact hE | apply holdSet_evolves | apply runCcEnWritten1_evolves | assumption
      | intro _ | dsimp only

theorem runCcEnWritten0_evolves {cntlid : Nat} {cid : Option Nat} {cc : Nat} {ps : List Part} {s₀ s : State} (hE : Evolves ps s₀ s)
    (hW : Sub [.events, .counters, .sampling, .controllers, .queues, .commands, .powerState, .contexts, .mapping,
      .journal, .layoutWork, .ciphers, .drivePorts, .buffer, .functions, .hostQueues, .leash, .replicas, .regs,
      .regSwc, .out] ps) :
    Evolves ps s₀ (runCcEnWritten0 cntlid cid cc s) := by
  unfold runCcEnWritten0
  repeat' first
    | exact Sub.of hW rfl
    | with_reducible first
        | exact hE | apply answerSet_evolves | apply ccWrite_evolves
    | dsimp only

theorem execCcEnWritten0_evolves {cntlid : Nat} {cid : Option Nat} {cc : Nat} {ps : List Part} {s₀ s : State} (hE : Evolves ps s₀ s)
    (hW : Sub [.events, .counters, .sampling, .controllers, .queues, .commands, .powerState, .contexts, .mapping,
      .journal, .layoutWork, .ciphers, .drivePorts, .buffer, .functions, .hostQueues, .leash, .replicas, .regs,
      .regSwc, .heldCommands, .out] ps) :
    ∀ t, execCcEnWritten0 cntlid cid cc s = .next t → Evolves ps s₀ t := by
  intro t ht
  unfold execCcEnWritten0 at ht
  repeat' first
    | (with_reducible obtain rfl := Host.Outcome.next.inj ht)
    | split at ht
    | dsimp only at ht
  all_goals
    repeat' first
      | exact Sub.of hW rfl
      | with_reducible first
          | exact hE | apply holdSet_evolves | apply runCcEnWritten0_evolves | assumption
      | intro _ | dsimp only

theorem runCcShnNormalShutdown_evolves {cntlid : Nat} {cid : Option Nat} {cc : Nat} {ps : List Part} {s₀ s : State} (hE : Evolves ps s₀ s)
    (hW : Sub [.events, .counters, .sampling, .controllers, .queues, .commands, .powerState, .contexts, .mapping,
      .journal, .layoutWork, .ciphers, .drivePorts, .buffer, .functions, .hostQueues, .leash, .replicas, .regs,
      .regSwc, .out] ps) :
    Evolves ps s₀ (runCcShnNormalShutdown cntlid cid cc s) := by
  unfold runCcShnNormalShutdown
  repeat' first
    | exact Sub.of hW rfl
    | with_reducible first
        | exact hE | apply answerSet_evolves | apply ccWrite_evolves
    | dsimp only

theorem execCcShnNormalShutdown_evolves {cntlid : Nat} {cid : Option Nat} {cc : Nat} {ps : List Part} {s₀ s : State} (hE : Evolves ps s₀ s)
    (hW : Sub [.events, .counters, .sampling, .controllers, .queues, .commands, .powerState, .contexts, .mapping,
      .journal, .layoutWork, .ciphers, .drivePorts, .buffer, .functions, .hostQueues, .leash, .replicas, .regs,
      .regSwc, .heldCommands, .out] ps) :
    ∀ t, execCcShnNormalShutdown cntlid cid cc s = .next t → Evolves ps s₀ t := by
  intro t ht
  unfold execCcShnNormalShutdown at ht
  repeat' first
    | (with_reducible obtain rfl := Host.Outcome.next.inj ht)
    | split at ht
    | dsimp only at ht
  all_goals
    repeat' first
      | exact Sub.of hW rfl
      | with_reducible first
          | exact hE | apply holdSet_evolves | apply runCcShnNormalShutdown_evolves | assumption
      | intro _ | dsimp only

theorem runCcShnAbruptShutdown_evolves {cntlid : Nat} {cid : Option Nat} {cc : Nat} {ps : List Part} {s₀ s : State} (hE : Evolves ps s₀ s)
    (hW : Sub [.events, .counters, .sampling, .controllers, .queues, .commands, .powerState, .contexts, .mapping,
      .journal, .layoutWork, .ciphers, .drivePorts, .buffer, .functions, .hostQueues, .leash, .replicas, .regs,
      .regSwc, .out] ps) :
    Evolves ps s₀ (runCcShnAbruptShutdown cntlid cid cc s) := by
  unfold runCcShnAbruptShutdown
  repeat' first
    | exact Sub.of hW rfl
    | with_reducible first
        | exact hE | apply answerSet_evolves | apply ccWrite_evolves
    | dsimp only

theorem execCcShnAbruptShutdown_evolves {cntlid : Nat} {cid : Option Nat} {cc : Nat} {ps : List Part} {s₀ s : State} (hE : Evolves ps s₀ s)
    (hW : Sub [.events, .counters, .sampling, .controllers, .queues, .commands, .powerState, .contexts, .mapping,
      .journal, .layoutWork, .ciphers, .drivePorts, .buffer, .functions, .hostQueues, .leash, .replicas, .regs,
      .regSwc, .heldCommands, .out] ps) :
    ∀ t, execCcShnAbruptShutdown cntlid cid cc s = .next t → Evolves ps s₀ t := by
  intro t ht
  unfold execCcShnAbruptShutdown at ht
  repeat' first
    | (with_reducible obtain rfl := Host.Outcome.next.inj ht)
    | split at ht
    | dsimp only at ht
  all_goals
    repeat' first
      | exact Sub.of hW rfl
      | with_reducible first
          | exact hE | apply holdSet_evolves | apply runCcShnAbruptShutdown_evolves | assumption
      | intro _ | dsimp only

theorem runDisconnect_evolves {a : Admin} {sqid : Nat} {ps : List Part} {s₀ s : State} (hE : Evolves ps s₀ s)
    (hW : Sub [.events, .counters, .sampling, .controllers, .queues, .commands, .powerState, .contexts, .contextCache,
      .regions, .mapping, .journal, .layoutWork, .ciphers, .drivePorts, .buffer, .functions, .hostQueues,
      .leash, .replicas, .regs, .regSwc, .out] ps) :
    Evolves ps s₀ (runDisconnect a sqid s) := by
  unfold runDisconnect
  repeat' first
    | exact Sub.of hW rfl
    | with_reducible first
        | exact hE | apply post_evolves | apply deleteCtrl_evolves | apply dropQueue_evolves
        | refine Evolves.ite (fun _ => ?_) (fun _ => ?_)
    | dsimp only | split

theorem execDisconnect_evolves {a : Admin} {sqid : Nat} {ps : List Part} {s₀ s : State} (hE : Evolves ps s₀ s)
    (hW : Sub [.events, .counters, .sampling, .controllers, .queues, .commands, .powerState, .contexts, .contextCache,
      .regions, .mapping, .journal, .layoutWork, .ciphers, .drivePorts, .buffer, .functions, .hostQueues,
      .leash, .replicas, .regs, .regSwc, .heldCommands, .out] ps) :
    ∀ t, execDisconnect a sqid s = .next t → Evolves ps s₀ t := by
  intro t ht
  unfold execDisconnect at ht
  repeat' first
    | (with_reducible obtain rfl := Host.Outcome.next.inj ht)
    | split at ht
    | dsimp only at ht
  all_goals
    repeat' first
      | exact Sub.of hW rfl
      | with_reducible first
          | exact hE | apply hold_evolves | apply runDisconnect_evolves | assumption
      | intro _ | dsimp only

theorem runIdentify_evolves {a : Admin} {cns : Nat} {nsid : Nat} {ps : List Part} {s₀ s : State} (hE : Evolves ps s₀ s)
    (hW : Sub [.contexts, .functions, .hostQueues, .leash, .replicas, .out] ps) :
    Evolves ps s₀ (runIdentify a cns nsid s) := by
  unfold runIdentify
  repeat' first
    | exact Sub.of hW rfl
    | with_reducible first
        | exact hE | apply adminCommand_evolves | apply postAdmin_evolves | apply state_send_evolves | assumption
    | intro _ | dsimp only | split
    | with_reducible first
        | refine Evolves.fst_of (by assumption) ?_ | refine Evolves.snd_of (by assumption) ?_

theorem execIdentify_evolves {a : Admin} {cns : Nat} {nsid : Nat} {ps : List Part} {s₀ s : State} (hE : Evolves ps s₀ s)
    (hW : Sub [.powerState, .contexts, .functions, .hostQueues, .leash, .replicas, .heldCommands, .out] ps) :
    ∀ t, execIdentify a cns nsid s = .next t → Evolves ps s₀ t := by
  intro t ht
  unfold execIdentify at ht
  repeat' first
    | (with_reducible obtain rfl := Host.Outcome.next.inj ht)
    | split at ht
    | dsimp only at ht
  all_goals
    repeat' first
      | exact Sub.of hW rfl
      | with_reducible first
          | exact hE | apply hold_evolves | apply runIdentify_evolves | assumption
      | intro _ | dsimp only

theorem runGetLogPage_evolves {a : Admin} {lid : Nat} {nsid : Nat} {ps : List Part} {s₀ s : State} (hE : Evolves ps s₀ s)
    (hW : Sub [.contexts, .functions, .hostQueues, .leash, .replicas, .out] ps) :
    Evolves ps s₀ (runGetLogPage a lid nsid s) := by
  unfold runGetLogPage
  repeat' first
    | exact Sub.of hW rfl
    | with_reducible first
        | exact hE | apply adminCommand_evolves | apply postAdmin_evolves | apply state_send_evolves | assumption
    | intro _ | dsimp only | split
    | with_reducible first
        | refine Evolves.fst_of (by assumption) ?_ | refine Evolves.snd_of (by assumption) ?_

theorem execGetLogPage_evolves {a : Admin} {lid : Nat} {nsid : Nat} {ps : List Part} {s₀ s : State} (hE : Evolves ps s₀ s)
    (hW : Sub [.powerState, .contexts, .functions, .hostQueues, .leash, .replicas, .heldCommands, .out] ps) :
    ∀ t, execGetLogPage a lid nsid s = .next t → Evolves ps s₀ t := by
  intro t ht
  unfold execGetLogPage at ht
  repeat' first
    | (with_reducible obtain rfl := Host.Outcome.next.inj ht)
    | split at ht
    | dsimp only at ht
  all_goals
    repeat' first
      | exact Sub.of hW rfl
      | with_reducible first
          | exact hE | apply hold_evolves | apply runGetLogPage_evolves | assumption
      | intro _ | dsimp only

theorem setFeature_evolves {id : Nat} {fid : Nat} {value : Nat} {ps : List Part} {s₀ s : State} (hE : Evolves ps s₀ s)
    (hW : Sub [.controllers] ps) :
    Evolves ps s₀ (setFeature id fid value s) := by
  unfold setFeature
  repeat' first
    | exact Sub.of hW rfl
    | with_reducible first
        | exact hE | apply onCtrl_evolves
    | dsimp only

theorem runSetFeatures_evolves {a : Admin} {fid : Nat} {value : Nat} {ps : List Part} {s₀ s : State} (hE : Evolves ps s₀ s)
    (hW : Sub [.controllers, .powerState, .contexts, .functions, .hostQueues, .leash, .replicas, .out] ps) :
    Evolves ps s₀ (runSetFeatures a fid value s) := by
  unfold runSetFeatures
  repeat' first
    | exact Sub.of hW rfl
    | with_reducible first
        | exact hE | apply adminCommand_evolves | apply postAdmin_evolves | apply setFeature_evolves
        | apply onCtrl_evolves | apply startExit_evolves | refine Evolves.ite (fun _ => ?_) (fun _ => ?_) | assumption
    | intro _ | dsimp only | split
    | with_reducible first
        | refine Evolves.fst_of (by assumption) ?_ | refine Evolves.snd_of (by assumption) ?_

theorem execSetFeatures_evolves {a : Admin} {fid : Nat} {value : Nat} {ps : List Part} {s₀ s : State} (hE : Evolves ps s₀ s)
    (hW : Sub [.controllers, .powerState, .contexts, .functions, .hostQueues, .leash, .replicas, .heldCommands, .out] ps) :
    ∀ t, execSetFeatures a fid value s = .next t → Evolves ps s₀ t := by
  intro t ht
  unfold execSetFeatures at ht
  repeat' first
    | (with_reducible obtain rfl := Host.Outcome.next.inj ht)
    | split at ht
    | dsimp only at ht
  all_goals
    repeat' first
      | exact Sub.of hW rfl
      | with_reducible first
          | exact hE | apply hold_evolves | apply runSetFeatures_evolves | assumption
      | intro _ | dsimp only

theorem runGetFeatures_evolves {a : Admin} {fid : Nat} {value : Nat} {ps : List Part} {s₀ s : State} (hE : Evolves ps s₀ s)
    (hW : Sub [.contexts, .functions, .hostQueues, .leash, .replicas, .out] ps) :
    Evolves ps s₀ (runGetFeatures a fid value s) := by
  unfold runGetFeatures
  repeat' first
    | exact Sub.of hW rfl
    | with_reducible first
        | exact hE | apply adminCommand_evolves | apply postAdmin_evolves | assumption
    | intro _ | dsimp only | split
    | with_reducible first
        | refine Evolves.fst_of (by assumption) ?_ | refine Evolves.snd_of (by assumption) ?_

theorem execGetFeatures_evolves {a : Admin} {fid : Nat} {value : Nat} {ps : List Part} {s₀ s : State} (hE : Evolves ps s₀ s)
    (hW : Sub [.powerState, .contexts, .functions, .hostQueues, .leash, .replicas, .heldCommands, .out] ps) :
    ∀ t, execGetFeatures a fid value s = .next t → Evolves ps s₀ t := by
  intro t ht
  unfold execGetFeatures at ht
  repeat' first
    | (with_reducible obtain rfl := Host.Outcome.next.inj ht)
    | split at ht
    | dsimp only at ht
  all_goals
    repeat' first
      | exact Sub.of hW rfl
      | with_reducible first
          | exact hE | apply hold_evolves | apply runGetFeatures_evolves | assumption
      | intro _ | dsimp only

theorem runKeepAlive_evolves {a : Admin} {ps : List Part} {s₀ s : State} (hE : Evolves ps s₀ s)
    (hW : Sub [.controllers, .contexts, .functions, .hostQueues, .leash, .replicas, .out] ps) :
    Evolves ps s₀ (runKeepAlive a s) := by
  unfold runKeepAlive
  repeat' first
    | exact Sub.of hW rfl
    | with_reducible first
        | exact hE | apply adminCommand_evolves | apply postAdmin_evolves | apply onCtrl_evolves | assumption
    | intro _ | dsimp only

theorem execKeepAlive_evolves {a : Admin} {ps : List Part} {s₀ s : State} (hE : Evolves ps s₀ s)
    (hW : Sub [.controllers, .powerState, .contexts, .functions, .hostQueues, .leash, .replicas, .heldCommands, .out] ps) :
    ∀ t, execKeepAlive a s = .next t → Evolves ps s₀ t := by
  intro t ht
  unfold execKeepAlive at ht
  repeat' first
    | (with_reducible obtain rfl := Host.Outcome.next.inj ht)
    | split at ht
    | dsimp only at ht
  all_goals
    repeat' first
      | exact Sub.of hW rfl
      | with_reducible first
          | exact hE | apply hold_evolves | apply runKeepAlive_evolves | assumption
      | intro _ | dsimp only

theorem runAbort_evolves {a : Admin} {sqid : Nat} {target : Nat} {others : Nat} {ps : List Part} {s₀ s : State} (hE : Evolves ps s₀ s)
    (hW : Sub [.events, .counters, .sampling, .controllers, .commands, .powerState, .contexts, .mapping, .journal,
      .layoutWork, .ciphers, .drivePorts, .buffer, .functions, .hostQueues, .leash, .replicas, .regs, .regSwc,
      .regCmd, .out] ps) :
    Evolves ps s₀ (runAbort a sqid target others s) := by
  unfold runAbort
  repeat' first
    | exact Sub.of hW rfl | exact .inl (Sub.of hW rfl) | with_reducible exact .inr rfl
    | exact .inr (FencesStay.refl _) | exact .inr (by dsimp only) | exact .inr rfl
    | with_reducible exact (fun h => h : _ = true → _) | (dsimp only; exact (fun h => h : _ = true → _))
    | exact (fun h => h : _ = true → _)
    | with_reducible first
        | exact hE | apply adminCommand_evolves | apply postAdmin_evolves | apply onCtrl_evolves
        | apply state_onCmd_evolves | apply noteEnded_evolves | apply completeCap_evolves | apply sweepSlots_evolves
        | apply abortEntry_evolves | refine Evolves.ite (fun _ => ?_) (fun _ => ?_) | assumption
    | intro _ | dsimp only | split
    | with_reducible first
        | refine Evolves.fst_of (by assumption) ?_ | refine Evolves.snd_of (by assumption) ?_

theorem execAbort_evolves {a : Admin} {sqid : Nat} {target : Nat} {others : Nat} {ps : List Part} {s₀ s : State} (hE : Evolves ps s₀ s)
    (hW : Sub [.events, .counters, .sampling, .controllers, .commands, .powerState, .contexts, .mapping, .journal,
      .layoutWork, .ciphers, .drivePorts, .buffer, .functions, .hostQueues, .leash, .replicas, .regs, .regSwc,
      .regCmd, .heldCommands, .out] ps) :
    ∀ t, execAbort a sqid target others s = .next t → Evolves ps s₀ t := by
  intro t ht
  unfold execAbort at ht
  repeat' first
    | (with_reducible obtain rfl := Host.Outcome.next.inj ht)
    | split at ht
    | dsimp only at ht
  all_goals
    repeat' first
      | exact Sub.of hW rfl
      | with_reducible first
          | exact hE | apply hold_evolves | apply runAbort_evolves | assumption
      | intro _ | dsimp only

theorem runAsynchronousEventRequest_evolves {a : Admin} {ps : List Part} {s₀ s : State} (hE : Evolves ps s₀ s)
    (hW : Sub [.controllers, .contexts, .functions, .hostQueues, .leash, .replicas, .out] ps) :
    Evolves ps s₀ (runAsynchronousEventRequest a s) := by
  unfold runAsynchronousEventRequest
  repeat' first
    | exact Sub.of hW rfl
    | with_reducible first
        | exact hE | apply adminCommand_evolves | apply postAdmin_evolves | apply onCtrl_evolves
        | refine Evolves.ite (fun _ => ?_) (fun _ => ?_) | assumption
    | intro _ | dsimp only | split
    | with_reducible first
        | refine Evolves.fst_of (by assumption) ?_ | refine Evolves.snd_of (by assumption) ?_

theorem execAsynchronousEventRequest_evolves {a : Admin} {ps : List Part} {s₀ s : State} (hE : Evolves ps s₀ s)
    (hW : Sub [.controllers, .powerState, .contexts, .functions, .hostQueues, .leash, .replicas, .heldCommands, .out] ps) :
    ∀ t, execAsynchronousEventRequest a s = .next t → Evolves ps s₀ t := by
  intro t ht
  unfold execAsynchronousEventRequest at ht
  repeat' first
    | (with_reducible obtain rfl := Host.Outcome.next.inj ht)
    | split at ht
    | dsimp only at ht
  all_goals
    repeat' first
      | exact Sub.of hW rfl
      | with_reducible first
          | exact hE | apply hold_evolves | apply runAsynchronousEventRequest_evolves | assumption
      | intro _ | dsimp only

theorem startSelfTest_evolves {a : Admin} {code : Nat} {nsid : Nat} {ps : List Part} {s₀ s : State} (hE : Evolves ps s₀ s)
    (hW : Sub [.powerState, .contexts, .functions, .hostQueues, .leash, .replicas, .out] ps) :
    Evolves ps s₀ (startSelfTest a code nsid s) := by
  unfold startSelfTest
  repeat' first
    | exact Sub.of hW rfl | exact .inl (Sub.of hW rfl) | with_reducible exact .inr rfl
    | exact .inr (FencesStay.refl _) | exact .inr (by dsimp only) | exact .inr rfl
    | with_reducible exact (fun h => h : _ = true → _) | (dsimp only; exact (fun h => h : _ = true → _))
    | exact (fun h => h : _ = true → _)
    | with_reducible first
        | exact hE | apply postAdmin_evolves | apply state_onCmd_evolves
        | refine Evolves.ite (fun _ => ?_) (fun _ => ?_)
    | dsimp only | split

theorem runDeviceSelfTestShort_evolves {a : Admin} {nsid : Nat} {ps : List Part} {s₀ s : State} (hE : Evolves ps s₀ s)
    (hW : Sub [.powerState, .contexts, .functions, .hostQueues, .leash, .replicas, .out] ps) :
    Evolves ps s₀ (runDeviceSelfTestShort a nsid s) := by
  unfold runDeviceSelfTestShort
  repeat' first
    | exact Sub.of hW rfl
    | with_reducible first
        | exact hE | apply adminCommand_evolves | apply startSelfTest_evolves | assumption
    | intro _ | dsimp only

theorem execDeviceSelfTestShort_evolves {a : Admin} {nsid : Nat} {ps : List Part} {s₀ s : State} (hE : Evolves ps s₀ s)
    (hW : Sub [.powerState, .contexts, .functions, .hostQueues, .leash, .replicas, .heldCommands, .out] ps) :
    ∀ t, execDeviceSelfTestShort a nsid s = .next t → Evolves ps s₀ t := by
  intro t ht
  unfold execDeviceSelfTestShort at ht
  repeat' first
    | (with_reducible obtain rfl := Host.Outcome.next.inj ht)
    | split at ht
    | dsimp only at ht
  all_goals
    repeat' first
      | exact Sub.of hW rfl
      | with_reducible first
          | exact hE | apply hold_evolves | apply runDeviceSelfTestShort_evolves | assumption
      | intro _ | dsimp only

theorem runDeviceSelfTestExtended_evolves {a : Admin} {nsid : Nat} {ps : List Part} {s₀ s : State} (hE : Evolves ps s₀ s)
    (hW : Sub [.powerState, .contexts, .functions, .hostQueues, .leash, .replicas, .out] ps) :
    Evolves ps s₀ (runDeviceSelfTestExtended a nsid s) := by
  unfold runDeviceSelfTestExtended
  repeat' first
    | exact Sub.of hW rfl
    | with_reducible first
        | exact hE | apply adminCommand_evolves | apply startSelfTest_evolves | assumption
    | intro _ | dsimp only

theorem execDeviceSelfTestExtended_evolves {a : Admin} {nsid : Nat} {ps : List Part} {s₀ s : State} (hE : Evolves ps s₀ s)
    (hW : Sub [.powerState, .contexts, .functions, .hostQueues, .leash, .replicas, .heldCommands, .out] ps) :
    ∀ t, execDeviceSelfTestExtended a nsid s = .next t → Evolves ps s₀ t := by
  intro t ht
  unfold execDeviceSelfTestExtended at ht
  repeat' first
    | (with_reducible obtain rfl := Host.Outcome.next.inj ht)
    | split at ht
    | dsimp only at ht
  all_goals
    repeat' first
      | exact Sub.of hW rfl
      | with_reducible first
          | exact hE | apply hold_evolves | apply runDeviceSelfTestExtended_evolves | assumption
      | intro _ | dsimp only

theorem runDeviceSelfTestAbort_evolves {a : Admin} {ps : List Part} {s₀ s : State} (hE : Evolves ps s₀ s)
    (hW : Sub [.events, .counters, .sampling, .powerState, .contexts, .functions, .hostQueues, .leash, .replicas, .out] ps) :
    Evolves ps s₀ (runDeviceSelfTestAbort a s) := by
  unfold runDeviceSelfTestAbort
  repeat' first
    | exact Sub.of hW rfl
    | with_reducible first
        | exact hE | apply adminCommand_evolves | apply postAdmin_evolves | apply endSelfTest_evolves | assumption
    | intro _ | dsimp only

theorem execDeviceSelfTestAbort_evolves {a : Admin} {ps : List Part} {s₀ s : State} (hE : Evolves ps s₀ s)
    (hW : Sub [.events, .counters, .sampling, .powerState, .contexts, .functions, .hostQueues, .leash, .replicas,
      .heldCommands, .out] ps) :
    ∀ t, execDeviceSelfTestAbort a s = .next t → Evolves ps s₀ t := by
  intro t ht
  unfold execDeviceSelfTestAbort at ht
  repeat' first
    | (with_reducible obtain rfl := Host.Outcome.next.inj ht)
    | split at ht
    | dsimp only at ht
  all_goals
    repeat' first
      | exact Sub.of hW rfl
      | with_reducible first
          | exact hE | apply hold_evolves | apply runDeviceSelfTestAbort_evolves | assumption
      | intro _ | dsimp only

theorem execInvalidCommandOpcode_evolves {a : Admin} {sqid : Nat} {opc : Nat} {ps : List Part} {s₀ s : State} (hE : Evolves ps s₀ s)
    (hW : Sub [.events, .counters, .sampling, .commands, .powerState, .contexts, .buffer, .functions, .hostQueues,
      .leash, .replicas, .regs, .regSwc, .regCmd, .heldCommands, .out] ps) :
    ∀ t, execInvalidCommandOpcode a sqid opc s = .next t → Evolves ps s₀ t := by
  intro t ht
  unfold execInvalidCommandOpcode at ht
  repeat' first
    | (with_reducible obtain rfl := Host.Outcome.next.inj ht)
    | split at ht
    | dsimp only at ht
  all_goals
    repeat' first
      | exact Sub.of hW rfl
      | with_reducible first
          | exact hE | apply hold_evolves | apply adminCommand_evolves | apply postAdmin_evolves
          | apply admitCap_evolves | assumption
      | intro _ | dsimp only | split

theorem execDrainFinished_evolves {id : Nat} {ps : List Part} {s₀ s : State} (hE : Evolves ps s₀ s)
    (hW : Sub [.events, .counters, .sampling, .controllers, .queues, .commands, .powerState, .contexts, .contextCache,
      .regions, .mapping, .journal, .layoutWork, .ciphers, .drivePorts, .buffer, .hostQueues, .replicas, .regs,
      .regSwc, .out] ps) :
    ∀ t, execDrainFinished id s = .next t → Evolves ps s₀ t := by
  intro t ht
  unfold execDrainFinished at ht
  repeat' first
    | (with_reducible obtain rfl := Host.Outcome.next.inj ht)
    | split at ht
    | dsimp only at ht
  all_goals
    repeat' first
      | exact Sub.of hW rfl
      | with_reducible first
          | exact hE | apply onCtrl_evolves | apply enterDisabling_evolves | apply deleteIoQueues_evolves
          | apply enable_evolves | refine Evolves.ite (fun _ => ?_) (fun _ => ?_)
      | dsimp only | split

theorem execKeepAliveTimeout_evolves {id : Nat} {ps : List Part} {s₀ s : State} (hE : Evolves ps s₀ s)
    (hW : Sub [.events, .counters, .sampling, .controllers, .queues, .commands, .powerState, .contexts, .contextCache,
      .regions, .mapping, .journal, .layoutWork, .ciphers, .drivePorts, .buffer, .replicas, .regs, .regSwc,
      .out] ps) :
    ∀ t, execKeepAliveTimeout id s = .next t → Evolves ps s₀ t := by
  intro t ht
  unfold execKeepAliveTimeout at ht
  repeat' first
    | (with_reducible obtain rfl := Host.Outcome.next.inj ht)
    | split at ht
    | dsimp only at ht
  all_goals
    repeat' first
      | exact Sub.of hW rfl
      | with_reducible first
          | exact hE | apply deleteCtrl_evolves | refine Evolves.ite (fun _ => ?_) (fun _ => ?_)
      | dsimp only | split

end Sys2Proof.Machine
end

