-- ==== Sys2Proof/Laws/FrameBatches.lean ====
section
/-! SUPPORT. What the operations of Machine/Batches.lean change at most: one lemma each. -/

namespace Sys2Proof.Machine

set_option linter.unusedTactic false
set_option linter.unreachableTactic false
set_option linter.unusedVariables false

theorem storeCustody_evolves {key : Bytes} {data : Bytes} {ps : List Part} {s₀ s : State} (hE : Evolves ps s₀ s)
    (hW : Sub [.events, .counters, .sampling, .commands, .powerState, .contexts, .mapping, .journal, .layoutWork,
      .ciphers, .custody, .storeWrites, .drivePorts, .buffer, .regs, .regSwc, .out] ps) :
    Evolves ps s₀ (storeCustody key data s) := by
  unfold storeCustody
  repeat' first
    | exact Sub.of hW rfl | exact .inl (Sub.of hW rfl) | with_reducible exact .inr rfl
    | exact .inr (FencesStay.refl _) | exact .inr (by dsimp only) | exact .inr rfl
    | with_reducible exact (fun h => h : _ = true → _) | (dsimp only; exact (fun h => h : _ = true → _))
    | exact (fun h => h : _ = true → _)
    | with_reducible first
        | exact hE | apply storeObject_evolves | apply state_onFix_evolves
    | dsimp only

theorem placeCustody_evolves {x : Digest × Bytes} {ps : List Part} {s₀ s : State} (hE : Evolves ps s₀ s)
    (hW : Sub [.events, .counters, .sampling, .commands, .powerState, .contexts, .mapping, .journal, .layoutWork,
      .ciphers, .custody, .storeWrites, .drivePorts, .buffer, .regs, .regSwc, .out] ps) :
    Evolves ps s₀ (placeCustody s x) := by
  unfold placeCustody
  repeat' first
    | exact Sub.of hW rfl | exact .inl (Sub.of hW rfl) | with_reducible exact .inr rfl
    | exact .inr (FencesStay.refl _) | exact .inr (by dsimp only) | exact .inr rfl
    | with_reducible exact (fun h => h : _ = true → _) | (dsimp only; exact (fun h => h : _ = true → _))
    | exact (fun h => h : _ = true → _)
    | with_reducible first
        | exact hE | apply storeCustody_evolves | apply state_onFix_evolves
    | dsimp only | split
    | with_reducible first
        | refine Evolves.fst_of (by assumption) ?_ | refine Evolves.snd_of (by assumption) ?_

theorem storeChunks_evolves {seq : Nat} {lo : Nat} {hi : Nat} {ls : List Leaf} {ps : List Part} {s₀ s : State} (hE : Evolves ps s₀ s)
    (hW : Sub [.events, .counters, .sampling, .commands, .powerState, .contexts, .mapping, .journal, .layoutWork,
      .ciphers, .storeWrites, .drivePorts, .buffer, .regs, .regSwc, .out] ps) :
    Evolves ps s₀ (storeChunks seq lo hi ls s) := by
  unfold storeChunks
  repeat' first
    | exact Sub.of hW rfl
    | with_reducible first
        | exact hE | apply storeObject_evolves | refine Evolves.foldl ?_ ?_ | refine Evolves.foldl_fst ?_ ?_
        | refine Evolves.foldl_snd ?_ ?_ | assumption
    | intro _ | dsimp only

theorem closeBatch_evolves {b : Batch} {rest : List Batch} {ps : List Part} {s₀ s : State} (hE : Evolves ps s₀ s)
    (hW : Sub [.events, .counters, .sampling, .commands, .powerState, .contexts, .mapping, .journal, .layoutWork,
      .ciphers, .batches, .custody, .storeWrites, .drivePorts, .buffer, .regs, .regSwc, .out] ps) :
    Evolves ps s₀ (closeBatch b rest s) := by
  unfold closeBatch
  repeat' first
    | exact Sub.of hW rfl | exact .inl (Sub.of hW rfl) | with_reducible exact .inr rfl
    | exact .inr (FencesStay.refl _) | exact .inr (by dsimp only) | exact .inr rfl
    | with_reducible exact (fun h => h : _ = true → _) | (dsimp only; exact (fun h => h : _ = true → _))
    | exact (fun h => h : _ = true → _)
    | with_reducible first
        | exact hE | apply state_onFix_evolves | apply placeCustody_evolves | apply storeChunks_evolves
        | apply emit_evolves | refine Evolves.ite (fun _ => ?_) (fun _ => ?_) | refine Evolves.foldl ?_ ?_
        | refine Evolves.foldl_fst ?_ ?_ | refine Evolves.foldl_snd ?_ ?_ | assumption
    | intro _ | dsimp only | split

theorem extendBatch_evolves {b : Batch} {rest : List Batch} {ps : List Part} {s₀ s : State} (hE : Evolves ps s₀ s)
    (hW : Sub [.batches] ps) :
    Evolves ps s₀ (extendBatch b rest s) := by
  unfold extendBatch
  repeat' first
    | exact Sub.of hW rfl | exact .inl (Sub.of hW rfl) | with_reducible exact .inr rfl
    | exact .inr (FencesStay.refl _) | exact .inr (by dsimp only) | exact .inr rfl
    | with_reducible exact (fun h => h : _ = true → _) | (dsimp only; exact (fun h => h : _ = true → _))
    | exact (fun h => h : _ = true → _)
    | with_reducible first
        | exact hE | apply state_onFix_evolves | refine Evolves.foldl ?_ ?_ | refine Evolves.foldl_fst ?_ ?_
        | refine Evolves.foldl_snd ?_ ?_ | assumption
    | intro _ | dsimp only | split
    | with_reducible first
        | refine Evolves.fst_of (by assumption) ?_ | refine Evolves.snd_of (by assumption) ?_

theorem boundaryReached_evolves  {ps : List Part} {s₀ s : State} (hE : Evolves ps s₀ s)
    (hW : Sub [.events, .counters, .sampling, .commands, .powerState, .contexts, .mapping, .journal, .layoutWork,
      .ciphers, .batches, .custody, .storeWrites, .drivePorts, .buffer, .regs, .regSwc, .out] ps) :
    Evolves ps s₀ (boundaryReached s) := by
  unfold boundaryReached
  repeat' first
    | exact Sub.of hW rfl
    | with_reducible first
        | exact hE | apply closeBatch_evolves | apply extendBatch_evolves
        | refine Evolves.ite (fun _ => ?_) (fun _ => ?_)
    | dsimp only | split
    | with_reducible first
        | refine Evolves.fst_of (by assumption) ?_ | refine Evolves.snd_of (by assumption) ?_

theorem sealOldest_evolves  {ps : List Part} {s₀ s : State} (hE : Evolves ps s₀ s)
    (hW : Sub [.events, .counters, .sampling, .batches, .regs, .regFix] ps) :
    Evolves ps s₀ (sealOldest s) := by
  unfold sealOldest
  repeat' first
    | exact Sub.of hW rfl | exact .inl (Sub.of hW rfl) | with_reducible exact .inr rfl
    | exact .inr (FencesStay.refl _) | exact .inr (by dsimp only) | exact .inr rfl
    | with_reducible exact (fun h => h : _ = true → _) | (dsimp only; exact (fun h => h : _ = true → _))
    | exact (fun h => h : _ = true → _)
    | with_reducible first
        | exact hE | apply state_onFix_evolves | apply emit_evolves | apply state_setFld_evolves
        | refine Evolves.ite (fun _ => ?_) (fun _ => ?_)
    | dsimp only | split
    | with_reducible first
        | refine Evolves.fst_of (by assumption) ?_ | refine Evolves.snd_of (by assumption) ?_

theorem sealBatches_evolves  {ps : List Part} {s₀ s : State} (hE : Evolves ps s₀ s)
    (hW : Sub [.events, .counters, .sampling, .batches, .regs, .regFix] ps) :
    Evolves ps s₀ (sealBatches s) := by
  unfold sealBatches
  repeat' first
    | exact Sub.of hW rfl
    | with_reducible first
        | exact hE | apply sealOldest_evolves | refine Evolves.foldl ?_ ?_ | refine Evolves.foldl_fst ?_ ?_
        | refine Evolves.foldl_snd ?_ ?_ | assumption
    | intro _ | dsimp only

theorem storeFilled_evolves  {ps : List Part} {s₀ s : State} (hE : Evolves ps s₀ s)
    (hW : Sub [.events, .counters, .sampling, .commands, .powerState, .contexts, .mapping, .journal, .layoutWork,
      .ciphers, .batches, .storeWrites, .drivePorts, .buffer, .regs, .regSwc, .out] ps) :
    Evolves ps s₀ (storeFilled s) := by
  unfold storeFilled
  repeat' first
    | exact Sub.of hW rfl | exact .inl (Sub.of hW rfl) | with_reducible exact .inr rfl
    | exact .inr (FencesStay.refl _) | exact .inr (by dsimp only) | exact .inr rfl
    | with_reducible exact (fun h => h : _ = true → _) | (dsimp only; exact (fun h => h : _ = true → _))
    | exact (fun h => h : _ = true → _)
    | with_reducible first
        | exact hE | apply storeChunks_evolves | apply state_onFix_evolves
        | refine Evolves.ite (fun _ => ?_) (fun _ => ?_)
    | dsimp only | split
    | with_reducible first
        | refine Evolves.fst_of (by assumption) ?_ | refine Evolves.snd_of (by assumption) ?_

theorem fixAdvance_evolves  {ps : List Part} {s₀ s : State} (hE : Evolves ps s₀ s)
    (hW : Sub [.events, .counters, .sampling, .commands, .powerState, .contexts, .mapping, .journal, .layoutWork,
      .ciphers, .batches, .storeWrites, .drivePorts, .buffer, .regs, .regSwc, .regFix, .out] ps) :
    Evolves ps s₀ (fixAdvance s) := by
  unfold fixAdvance
  repeat' first
    | exact Sub.of hW rfl
    | with_reducible first
        | exact hE | apply sealBatches_evolves | apply storeFilled_evolves
    | dsimp only

theorem readStore_evolves {store : List (Bytes × Bytes)} {ps : List Part} {s₀ s : State} (hE : Evolves ps s₀ s)
    (hW : Sub [.batches, .custody, .storeWrites] ps) :
    Evolves ps s₀ (readStore store s) := by
  unfold readStore
  repeat' first
    | exact Sub.of hW rfl | exact .inl (Sub.of hW rfl) | with_reducible exact .inr rfl
    | exact .inr (FencesStay.refl _) | exact .inr (by dsimp only) | exact .inr rfl
    | with_reducible exact (fun h => h : _ = true → _) | (dsimp only; exact (fun h => h : _ = true → _))
    | exact (fun h => h : _ = true → _)
    | with_reducible first
        | exact hE | apply state_onFix_evolves
    | dsimp only

theorem startRecompute_evolves {store : List (Bytes × Bytes)} {ps : List Part} {s₀ s : State} (hE : Evolves ps s₀ s)
    (hW : Sub [.events, .counters, .sampling, .commands, .powerState, .contexts, .mapping, .journal, .layoutWork,
      .ciphers, .batches, .custody, .storeWrites, .drivePorts, .buffer, .regs, .regSwc, .out] ps) :
    Evolves ps s₀ (startRecompute store s) := by
  unfold startRecompute
  repeat' first
    | exact Sub.of hW rfl | exact .inl (Sub.of hW rfl) | with_reducible exact .inr rfl
    | exact .inr (FencesStay.refl _) | exact .inr (by dsimp only) | exact .inr rfl
    | with_reducible exact (fun h => h : _ = true → _) | (dsimp only; exact (fun h => h : _ = true → _))
    | exact (fun h => h : _ = true → _)
    | with_reducible first
        | exact hE | apply readStore_evolves | apply dropObject_evolves | apply state_onFix_evolves
        | refine Evolves.foldl ?_ ?_ | refine Evolves.foldl_fst ?_ ?_ | refine Evolves.foldl_snd ?_ ?_ | assumption
    | intro _ | dsimp only

theorem execBatchClosed_evolves  {ps : List Part} {s₀ s : State} (hE : Evolves ps s₀ s)
    (hW : Sub [.events, .counters, .sampling, .commands, .powerState, .contexts, .mapping, .journal, .layoutWork,
      .ciphers, .batches, .custody, .storeWrites, .drivePorts, .buffer, .regs, .regSwc, .out] ps) :
    ∀ t, execBatchClosed s = .next t → Evolves ps s₀ t := by
  intro t ht
  unfold execBatchClosed at ht
  repeat' first
    | (with_reducible obtain rfl := Host.Outcome.next.inj ht)
    | split at ht
    | dsimp only at ht
  all_goals
    repeat' first
      | exact Sub.of hW rfl
      | with_reducible first
          | exact hE | apply boundaryReached_evolves | refine Evolves.ite (fun _ => ?_) (fun _ => ?_)
      | dsimp only | split

theorem signBatch_evolves {signMs : Nat} {ps : List Part} {s₀ s : State} (hE : Evolves ps s₀ s)
    (hW : Sub [.events, .counters, .sampling, .commands, .powerState, .contexts, .mapping, .journal, .layoutWork,
      .ciphers, .batches, .storeWrites, .drivePorts, .buffer, .regs, .regSwc, .regFix, .out, .free] ps) :
    Evolves ps s₀ (signBatch signMs s) := by
  unfold signBatch
  repeat' first
    | exact Sub.of hW rfl | exact .inl (Sub.of hW rfl) | with_reducible exact .inr rfl
    | exact .inr (FencesStay.refl _) | exact .inr (by dsimp only) | exact .inr rfl
    | with_reducible exact (fun h => h : _ = true → _) | (dsimp only; exact (fun h => h : _ = true → _))
    | exact (fun h => h : _ = true → _)
    | with_reducible first
        | exact hE | apply state_onFix_evolves | apply state_drawn_evolves | apply state_setFld_evolves
        | apply storeObject_evolves | refine Evolves.ite (fun _ => ?_) (fun _ => ?_)
    | dsimp only | split
    | with_reducible first
        | refine Evolves.fst_of (by assumption) ?_ | refine Evolves.snd_of (by assumption) ?_

theorem execBatchSealed_evolves {signMs : Nat} {ps : List Part} {s₀ s : State} (hE : Evolves ps s₀ s)
    (hW : Sub [.events, .counters, .sampling, .commands, .powerState, .contexts, .mapping, .journal, .layoutWork,
      .ciphers, .batches, .storeWrites, .drivePorts, .buffer, .regs, .regSwc, .regFix, .out, .free] ps) :
    ∀ t, execBatchSealed signMs s = .next t → Evolves ps s₀ t := by
  intro t ht
  unfold execBatchSealed at ht
  repeat' first
    | (with_reducible obtain rfl := Host.Outcome.next.inj ht)
    | split at ht
    | dsimp only at ht
  all_goals
    repeat' first
      | exact Sub.of hW rfl
      | with_reducible first
          | exact hE | apply sealBatches_evolves | apply signBatch_evolves
          | refine Evolves.ite (fun _ => ?_) (fun _ => ?_)
      | dsimp only | split

theorem fixTakeover_evolves {store : List (Bytes × Bytes)} {ps : List Part} {s₀ s : State} (hE : Evolves ps s₀ s)
    (hW : Sub [.events, .counters, .sampling, .commands, .powerState, .contexts, .mapping, .journal, .layoutWork,
      .ciphers, .batches, .custody, .storeWrites, .drivePorts, .buffer, .regs, .regSwc, .regFix, .out] ps) :
    Evolves ps s₀ (fixTakeover store s) := by
  unfold fixTakeover
  repeat' first
    | exact Sub.of hW rfl
    | with_reducible first
        | exact hE | apply readStore_evolves | apply addLeaf_evolves | apply fixAdvance_evolves
        | apply boundaryReached_evolves | refine Evolves.foldl ?_ ?_ | refine Evolves.foldl_fst ?_ ?_
        | refine Evolves.foldl_snd ?_ ?_ | assumption
    | intro _ | dsimp only

end Sys2Proof.Machine
end

