-- ==== Sys2Proof/Laws/FrameBone.lean ====
section
/-! SUPPORT. What the operations of Machine/Bone.lean change at most: one lemma each. -/

namespace Sys2Proof.Machine

set_option linter.unusedTactic false
set_option linter.unreachableTactic false
set_option linter.unusedVariables false

theorem ringRemove_evolves {v : Nat} {ps : List Part} {s₀ s : State} (hE : Evolves ps s₀ s)
    (hW : Sub [.rings, .sessions, .counters, .sampling, .functions, .out] ps) :
    Evolves ps s₀ (ringRemove v s) := by
  unfold ringRemove
  repeat' first
    | exact Sub.of hW rfl
    | with_reducible first
        | exact hE | apply ringReport_evolves | apply onRing_evolves | refine Evolves.ite (fun _ => ?_) (fun _ => ?_)
    | dsimp only | split

theorem ringSnapshot_evolves {v : Nat} {ps : List Part} {s₀ s : State} (hE : Evolves ps s₀ s)
    (hW : Sub [.rings] ps) :
    Evolves ps s₀ (ringSnapshot v s) := by
  unfold ringSnapshot
  repeat' first
    | exact Sub.of hW rfl
    | with_reducible first
        | exact hE | apply onRing_evolves | refine Evolves.ite (fun _ => ?_) (fun _ => ?_)
    | dsimp only | split

theorem boneReq_evolves {path : Fin 5} {session : Nat} {value : Word} {run : State → State} {ps : List Part} {s₀ s : State} (hE : Evolves ps s₀ s)
    (hrun : ∀ (t : State), Evolves ps s₀ t → Evolves ps s₀ (run t))
    (hW : Sub [.events, .sessions, .marks, .counters, .sampling, .regs, .regCtl, .out] ps) :
    Evolves ps s₀ (boneReq path session value run s) := by
  unfold boneReq
  repeat' first
    | exact Sub.of hW rfl
    | with_reducible first
        | exact hE | apply writeGate_evolves | apply hrun | refine Evolves.ite (fun _ => ?_) (fun _ => ?_)
        | assumption
    | intro _ | dsimp only | split
    | with_reducible first
        | refine Evolves.fst_of (by assumption) ?_ | refine Evolves.snd_of (by assumption) ?_

theorem execRingReaderBind_evolves {path : Fin 5} {session : Nat} {ring : Fin 8} {value : Word} {ps : List Part} {s₀ s : State} (hE : Evolves ps s₀ s)
    (hW : Sub [.events, .rings, .sessions, .marks, .counters, .sampling, .regs, .regCtl, .out] ps) :
    ∀ t, execRingReaderBind path session ring value s = .next t → Evolves ps s₀ t := by
  intro t ht
  unfold execRingReaderBind at ht
  repeat' first
    | (with_reducible obtain rfl := Host.Outcome.next.inj ht)
    | split at ht
    | dsimp only at ht
  all_goals
    repeat' first
      | exact Sub.of hW rfl | (rw [regPart_addr]; exact Sub.of hW rfl)
      | (apply Sub.cons; repeat' first | exact Sub.nil | exact hW _ (by decide) | exact Sub.any (Sub.of hW rfl) | exact hW _ (by simp) | apply Sub.cons)
      | with_reducible first
          | exact hE | apply writeGate_evolves | apply storeWord_evolves | apply onRing_evolves
          | apply releaseRing_evolves | refine Evolves.ite (fun _ => ?_) (fun _ => ?_)
      | dsimp only | split
      | with_reducible first
          | refine Evolves.fst_of (by assumption) ?_ | refine Evolves.snd_of (by assumption) ?_

theorem execCtlLockSet_evolves {path : Fin 5} {session : Nat} {value : Word} {ps : List Part} {s₀ s : State} (hE : Evolves ps s₀ s)
    (hW : Sub [.events, .sessions, .marks, .counters, .sampling, .regs, .regCtl, .out] ps) :
    ∀ t, execCtlLockSet path session value s = .next t → Evolves ps s₀ t := by
  intro t ht
  unfold execCtlLockSet at ht
  repeat' first
    | (with_reducible obtain rfl := Host.Outcome.next.inj ht)
    | split at ht
    | dsimp only at ht
  all_goals
    repeat' first
      | exact Sub.of hW rfl | (rw [regPart_addr]; exact Sub.of hW rfl)
      | (apply Sub.cons; repeat' first | exact Sub.nil | exact hW _ (by decide) | exact Sub.any (Sub.of hW rfl) | exact hW _ (by simp) | apply Sub.cons)
      | with_reducible first
          | exact hE | apply writeGate_evolves | apply storeWord_evolves
      | dsimp only | split
      | with_reducible first
          | refine Evolves.fst_of (by assumption) ?_ | refine Evolves.snd_of (by assumption) ?_

theorem execBoneReqAcquire_evolves {path : Fin 5} {session : Nat} {value : Word} {ps : List Part} {s₀ s : State} (hE : Evolves ps s₀ s)
    (hW : Sub [.events, .sessions, .bone, .marks, .counters, .sampling, .regs, .regCtl, .out] ps) :
    ∀ t, execBoneReqAcquire path session value s = .next t → Evolves ps s₀ t := by
  intro t ht
  unfold execBoneReqAcquire at ht
  repeat' first
    | (with_reducible obtain rfl := Host.Outcome.next.inj ht)
    | split at ht
    | dsimp only at ht
  all_goals
    repeat' first
      | exact Sub.of hW rfl
      | with_reducible first
          | exact hE | apply boneReq_evolves | apply state_setFldI_evolves | apply grantBone_evolves
          | refine Evolves.ite (fun _ => ?_) (fun _ => ?_) | assumption
      | intro _ | dsimp only | split

theorem execBoneReqRelease_evolves {path : Fin 5} {session : Nat} {value : Word} {ps : List Part} {s₀ s : State} (hE : Evolves ps s₀ s)
    (hW : Sub [.events, .sessions, .bone, .marks, .counters, .sampling, .regs, .regCtl, .out] ps) :
    ∀ t, execBoneReqRelease path session value s = .next t → Evolves ps s₀ t := by
  intro t ht
  unfold execBoneReqRelease at ht
  repeat' first
    | (with_reducible obtain rfl := Host.Outcome.next.inj ht)
    | split at ht
    | dsimp only at ht
  all_goals
    repeat' first
      | exact Sub.of hW rfl
      | with_reducible first
          | exact hE | apply boneReq_evolves | apply releaseBone_evolves
          | refine Evolves.ite (fun _ => ?_) (fun _ => ?_) | assumption
      | intro _ | dsimp only | split

theorem execBoneReqRenew_evolves {path : Fin 5} {session : Nat} {value : Word} {ps : List Part} {s₀ s : State} (hE : Evolves ps s₀ s)
    (hW : Sub [.events, .sessions, .bone, .marks, .counters, .sampling, .regs, .regCtl, .out] ps) :
    ∀ t, execBoneReqRenew path session value s = .next t → Evolves ps s₀ t := by
  intro t ht
  unfold execBoneReqRenew at ht
  repeat' first
    | (with_reducible obtain rfl := Host.Outcome.next.inj ht)
    | split at ht
    | dsimp only at ht
  all_goals
    repeat' first
      | exact Sub.of hW rfl
      | with_reducible first
          | exact hE | apply boneReq_evolves | apply renewBone_evolves | assumption
      | intro _ | dsimp only

theorem stateOf_evolves {x1 : Result} {ps : List Part} {s₀ s : State} (hE : Evolves ps s₀ s)
    (hr : ∀ t, x1 = .next t → Evolves ps s₀ t)
    (hW : Sub [] ps) :
    Evolves ps s₀ (stateOf s x1) := by
  unfold stateOf
  split
  · exact hr _ rfl
  · exact hE

theorem execBoneExpired_evolves  {ps : List Part} {s₀ s : State} (hE : Evolves ps s₀ s)
    (hW : Sub [.events, .sessions, .bone, .counters, .sampling, .out] ps) :
    ∀ t, execBoneExpired s = .next t → Evolves ps s₀ t := by
  intro t ht
  unfold execBoneExpired at ht
  repeat' first
    | (with_reducible obtain rfl := Host.Outcome.next.inj ht)
    | split at ht
    | dsimp only at ht
  all_goals
    repeat' first
      | exact Sub.of hW rfl | exact .inl (Sub.of hW rfl) | with_reducible exact .inr rfl
      | exact .inr (FencesStay.refl _) | exact .inr (by dsimp only) | exact .inr rfl
      | with_reducible exact (fun h => h : _ = true → _) | (dsimp only; exact (fun h => h : _ = true → _))
      | exact (fun h => h : _ = true → _) | exact rfl | exact Nat.le_refl _
      | with_reducible first
          | exact hE | apply emit_evolves | apply state_onCtl_evolves | apply direct_evolves
          | refine Evolves.ite (fun _ => ?_) (fun _ => ?_)
      | dsimp only | split

theorem execRingReadSnapshot_evolves {path : Fin 5} {ring : Fin 8} {ps : List Part} {s₀ s : State} (hE : Evolves ps s₀ s)
    (hW : Sub [.paths, .rings, .out] ps) :
    ∀ t, execRingReadSnapshot path ring s = .next t → Evolves ps s₀ t := by
  intro t ht
  unfold execRingReadSnapshot at ht
  repeat' first
    | (with_reducible obtain rfl := Host.Outcome.next.inj ht)
    | split at ht
    | dsimp only at ht
  all_goals
    repeat' first
      | exact Sub.of hW rfl
      | with_reducible first
          | exact hE | apply answerRead_evolves | apply ringSnapshot_evolves
          | refine Evolves.ite (fun _ => ?_) (fun _ => ?_)
      | dsimp only | split

theorem execRingReadRemove_evolves {path : Fin 5} {ring : Fin 8} {ps : List Part} {s₀ s : State} (hE : Evolves ps s₀ s)
    (hW : Sub [.paths, .rings, .sessions, .counters, .sampling, .functions, .out] ps) :
    ∀ t, execRingReadRemove path ring s = .next t → Evolves ps s₀ t := by
  intro t ht
  unfold execRingReadRemove at ht
  repeat' first
    | (with_reducible obtain rfl := Host.Outcome.next.inj ht)
    | split at ht
    | dsimp only at ht
  all_goals
    repeat' first
      | exact Sub.of hW rfl
      | with_reducible first
          | exact hE | apply answerRead_evolves | apply ringRemove_evolves
          | refine Evolves.ite (fun _ => ?_) (fun _ => ?_)
      | dsimp only | split

end Sys2Proof.Machine
end

