-- ==== Sys2Proof/Laws/FrameDrives.lean ====
section
/-! SUPPORT. What the operations of Machine/Drives.lean change at most: one lemma each. -/

namespace Sys2Proof.Machine

set_option linter.unusedTactic false
set_option linter.unreachableTactic false
set_option linter.unusedVariables false

theorem disablePort_evolves {n : Nat} {ps : List Part} {s₀ s : State} (hE : Evolves ps s₀ s)
    (hW : Sub [.events, .counters, .sampling, .controllers, .namespaces, .commands, .powerState, .contexts, .hbm,
      .mapping, .journal, .layoutWork, .ciphers, .storeWrites, .drivePorts, .buffer, .functions, .hostQueues,
      .leash, .replicas, .regs, .regSwc, .regLay, .out] ps) :
    Evolves ps s₀ (disablePort n s) := by
  unfold disablePort
  repeat' first
    | exact Sub.of hW rfl
    | with_reducible first
        | exact hE | apply onPort_evolves | apply portDown_evolves | refine Evolves.ite (fun _ => ?_) (fun _ => ?_)
    | dsimp only | split

theorem assertPwrdis_evolves {n : Nat} {hold : Nat} {ps : List Part} {s₀ s : State} (hE : Evolves ps s₀ s)
    (hW : Sub [.events, .counters, .sampling, .controllers, .namespaces, .commands, .powerState, .contexts, .hbm,
      .mapping, .journal, .layoutWork, .ciphers, .storeWrites, .drivePorts, .driveSlots, .buffer, .functions,
      .hostQueues, .leash, .replicas, .regs, .regSwc, .regLay, .out] ps) :
    Evolves ps s₀ (assertPwrdis n hold s) := by
  unfold assertPwrdis
  repeat' first
    | exact Sub.of hW rfl
    | with_reducible first
        | exact hE | apply disablePort_evolves | apply onSlotBand_evolves
        | refine Evolves.ite (fun _ => ?_) (fun _ => ?_)
    | dsimp only | split

theorem countCorrectable_evolves {slot : Nat} {n : Nat} {ps : List Part} {s₀ s : State} (hE : Evolves ps s₀ s)
    (hW : Sub [.regs, .regDrv] ps) :
    Evolves ps s₀ (countCorrectable slot n s) := by
  unfold countCorrectable
  repeat' first
    | exact Sub.of hW rfl
    | with_reducible first
        | exact hE | apply state_bumpI_evolves
    | dsimp only

theorem createQueues_evolves {slot : Nat} {ps : List Part} {s₀ s : State} (hE : Evolves ps s₀ s)
    (hW : Sub [.out] ps) :
    Evolves ps s₀ (createQueues slot s) := by
  unfold createQueues
  repeat' first
    | exact Sub.of hW rfl
    | with_reducible first
        | exact hE | apply state_send_evolves | refine Evolves.ite (fun _ => ?_) (fun _ => ?_)
        | refine Evolves.foldl ?_ ?_ | refine Evolves.foldl_fst ?_ ?_ | refine Evolves.foldl_snd ?_ ?_ | assumption
    | intro _ | dsimp only | split

theorem enablePort_evolves {n : Nat} {ps : List Part} {s₀ s : State} (hE : Evolves ps s₀ s)
    (hW : Sub [.drivePorts] ps) :
    Evolves ps s₀ (enablePort n s) := by
  unfold enablePort
  repeat' first
    | exact Sub.of hW rfl
    | with_reducible first
        | exact hE | apply portReset_evolves | refine Evolves.ite (fun _ => ?_) (fun _ => ?_)
    | dsimp only | split

theorem portOrder_evolves {order : Nat} {path : Fin 5} {session : Nat} {value : Word} {run : Nat → State → State} {ps : List Part} {s₀ s : State} (hE : Evolves ps s₀ s)
    (hrun : ∀ a0 (t : State), Evolves ps s₀ t → Evolves ps s₀ (run a0 t))
    (hW : Sub [.events, .sessions, .marks, .counters, .sampling, .regs, .regCtl, .out] ps) :
    Evolves ps s₀ (portOrder order path session value run s) := by
  unfold portOrder
  repeat' first
    | exact Sub.of hW rfl
    | with_reducible first
        | exact hE | apply writeGate_evolves | apply hrun | refine Evolves.ite (fun _ => ?_) (fun _ => ?_)
        | assumption
    | intro _ | dsimp only | split
    | with_reducible first
        | refine Evolves.fst_of (by assumption) ?_ | refine Evolves.snd_of (by assumption) ?_

theorem retrainPort_evolves {n : Nat} {ps : List Part} {s₀ s : State} (hE : Evolves ps s₀ s)
    (hW : Sub [.drivePorts, .regs, .regDrv] ps) :
    Evolves ps s₀ (retrainPort n s) := by
  unfold retrainPort
  repeat' first
    | exact Sub.of hW rfl
    | with_reducible first
        | exact hE | apply state_bumpI_evolves | apply onPort_evolves | refine Evolves.ite (fun _ => ?_) (fun _ => ?_)
    | dsimp only | split

theorem execDrvPortRetrain_evolves {path : Fin 5} {session : Nat} {value : Word} {ps : List Part} {s₀ s : State} (hE : Evolves ps s₀ s)
    (hW : Sub [.events, .sessions, .marks, .counters, .sampling, .drivePorts, .regs, .regCtl, .regDrv, .out] ps) :
    ∀ t, execDrvPortRetrain path session value s = .next t → Evolves ps s₀ t := by
  intro t ht
  unfold execDrvPortRetrain at ht
  repeat' first
    | (with_reducible obtain rfl := Host.Outcome.next.inj ht)
    | split at ht
    | dsimp only at ht
  all_goals
    repeat' first
      | exact Sub.of hW rfl
      | with_reducible first
          | exact hE | apply portOrder_evolves | apply retrainPort_evolves | assumption
      | intro _ | dsimp only

theorem execDrvPortDisable_evolves {path : Fin 5} {session : Nat} {value : Word} {ps : List Part} {s₀ s : State} (hE : Evolves ps s₀ s)
    (hW : Sub [.events, .sessions, .marks, .counters, .sampling, .controllers, .namespaces, .commands, .powerState,
      .contexts, .hbm, .mapping, .journal, .layoutWork, .ciphers, .storeWrites, .drivePorts, .buffer,
      .functions, .hostQueues, .leash, .replicas, .regs, .regCtl, .regSwc, .regLay, .out] ps) :
    ∀ t, execDrvPortDisable path session value s = .next t → Evolves ps s₀ t := by
  intro t ht
  unfold execDrvPortDisable at ht
  repeat' first
    | (with_reducible obtain rfl := Host.Outcome.next.inj ht)
    | split at ht
    | dsimp only at ht
  all_goals
    repeat' first
      | exact Sub.of hW rfl
      | with_reducible first
          | exact hE | apply portOrder_evolves | apply disablePort_evolves | assumption
      | intro _ | dsimp only

theorem execDrvPortEnable_evolves {path : Fin 5} {session : Nat} {value : Word} {ps : List Part} {s₀ s : State} (hE : Evolves ps s₀ s)
    (hW : Sub [.events, .sessions, .marks, .counters, .sampling, .drivePorts, .regs, .regCtl, .out] ps) :
    ∀ t, execDrvPortEnable path session value s = .next t → Evolves ps s₀ t := by
  intro t ht
  unfold execDrvPortEnable at ht
  repeat' first
    | (with_reducible obtain rfl := Host.Outcome.next.inj ht)
    | split at ht
    | dsimp only at ht
  all_goals
    repeat' first
      | exact Sub.of hW rfl
      | with_reducible first
          | exact hE | apply portOrder_evolves | apply enablePort_evolves | assumption
      | intro _ | dsimp only

theorem recoverPort_evolves {n : Nat} {ps : List Part} {s₀ s : State} (hE : Evolves ps s₀ s)
    (hW : Sub [.drivePorts] ps) :
    Evolves ps s₀ (recoverPort n s) := by
  unfold recoverPort
  repeat' first
    | exact Sub.of hW rfl
    | with_reducible first
        | exact hE | apply portReset_evolves | apply onPort_evolves | refine Evolves.ite (fun _ => ?_) (fun _ => ?_)
    | dsimp only | split

theorem execDrvPortRecover_evolves {path : Fin 5} {session : Nat} {value : Word} {ps : List Part} {s₀ s : State} (hE : Evolves ps s₀ s)
    (hW : Sub [.events, .sessions, .marks, .counters, .sampling, .drivePorts, .regs, .regCtl, .out] ps) :
    ∀ t, execDrvPortRecover path session value s = .next t → Evolves ps s₀ t := by
  intro t ht
  unfold execDrvPortRecover at ht
  repeat' first
    | (with_reducible obtain rfl := Host.Outcome.next.inj ht)
    | split at ht
    | dsimp only at ht
  all_goals
    repeat' first
      | exact Sub.of hW rfl
      | with_reducible first
          | exact hE | apply portOrder_evolves | apply recoverPort_evolves | assumption
      | intro _ | dsimp only

theorem pwrdisOrder_evolves {path : Nat} {session : Nat} {value : Word} {ps : List Part} {s₀ s : State} (hE : Evolves ps s₀ s)
    (hW : Sub [.events, .sessions, .marks, .counters, .sampling, .controllers, .namespaces, .commands, .powerState,
      .contexts, .hbm, .mapping, .journal, .layoutWork, .ciphers, .storeWrites, .drivePorts, .driveSlots,
      .buffer, .functions, .hostQueues, .leash, .replicas, .regs, .regCtl, .regSwc, .regLay, .out] ps) :
    Evolves ps s₀ (pwrdisOrder path session value s) := by
  unfold pwrdisOrder
  repeat' first
    | exact Sub.of hW rfl
    | with_reducible first
        | exact hE | apply writeGate_evolves | apply assertPwrdis_evolves
        | refine Evolves.ite (fun _ => ?_) (fun _ => ?_)
    | dsimp only | split
    | with_reducible first
        | refine Evolves.fst_of (by assumption) ?_ | refine Evolves.snd_of (by assumption) ?_

theorem execDrvPwrdisOrder_evolves {path : Fin 5} {session : Nat} {value : Word} {ps : List Part} {s₀ s : State} (hE : Evolves ps s₀ s)
    (hW : Sub [.events, .sessions, .marks, .counters, .sampling, .controllers, .namespaces, .commands, .powerState,
      .contexts, .hbm, .mapping, .journal, .layoutWork, .ciphers, .storeWrites, .drivePorts, .driveSlots,
      .buffer, .functions, .hostQueues, .leash, .replicas, .regs, .regCtl, .regSwc, .regLay, .out] ps) :
    ∀ t, execDrvPwrdisOrder path session value s = .next t → Evolves ps s₀ t := by
  intro t ht
  unfold execDrvPwrdisOrder at ht
  repeat' first
    | (with_reducible obtain rfl := Host.Outcome.next.inj ht)
    | split at ht
    | dsimp only at ht
  all_goals
    repeat' first
      | exact Sub.of hW rfl
      | with_reducible first
          | exact hE | apply pwrdisOrder_evolves
      | dsimp only

theorem execPresenceSeated_evolves {slot : Fin 48} {ps : List Part} {s₀ s : State} (hE : Evolves ps s₀ s)
    (hW : Sub [.events, .counters, .sampling, .controllers, .namespaces, .commands, .powerState, .contexts, .hbm,
      .mapping, .journal, .layoutWork, .ciphers, .storeWrites, .drivePorts, .driveSlots, .buffer, .functions,
      .hostQueues, .leash, .replicas, .legs, .regs, .regSwc, .regLay, .regPwr, .out] ps) :
    ∀ t, execPresenceSeated slot s = .next t → Evolves ps s₀ t := by
  intro t ht
  unfold execPresenceSeated at ht
  repeat' first
    | (with_reducible obtain rfl := Host.Outcome.next.inj ht)
    | split at ht
    | dsimp only at ht
  all_goals
    repeat' first
      | exact Sub.of hW rfl
      | with_reducible first
          | exact hE | apply onSlotBand_evolves | apply emit_evolves | apply onPort_evolves | apply disablePort_evolves
          | apply legSeated_evolves | refine Evolves.ite (fun _ => ?_) (fun _ => ?_)
      | dsimp only | split

theorem partnerDrives_evolves {n : Nat} {line : Bool} {ps : List Part} {s₀ s : State} (hE : Evolves ps s₀ s)
    (hW : Sub [.events, .counters, .sampling, .controllers, .namespaces, .commands, .powerState, .contexts, .hbm,
      .mapping, .journal, .layoutWork, .ciphers, .storeWrites, .drivePorts, .driveSlots, .buffer, .functions,
      .hostQueues, .leash, .replicas, .regs, .regSwc, .regLay, .out] ps) :
    Evolves ps s₀ (partnerDrives n line s) := by
  unfold partnerDrives
  repeat' first
    | exact Sub.of hW rfl
    | with_reducible first
        | exact hE | apply onSlotBand_evolves | apply disablePort_evolves | apply portReset_evolves
        | refine Evolves.ite (fun _ => ?_) (fun _ => ?_)
    | dsimp only | split

theorem removeDrive_evolves {n : Nat} {ps : List Part} {s₀ s : State} (hE : Evolves ps s₀ s)
    (hW : Sub [.events, .counters, .sampling, .controllers, .namespaces, .commands, .powerState, .contexts, .hbm,
      .mapping, .journal, .layoutWork, .ciphers, .storeWrites, .drivePorts, .driveSlots, .buffer, .functions,
      .hostQueues, .leash, .replicas, .legs, .regs, .regSwc, .regLay, .regPwr, .out] ps) :
    Evolves ps s₀ (removeDrive n s) := by
  unfold removeDrive
  repeat' first
    | exact Sub.of hW rfl
    | with_reducible first
        | exact hE | apply onSlotBand_evolves | apply portDown_evolves | apply emit_evolves | apply onPort_evolves
        | apply legRemoved_evolves | refine Evolves.ite (fun _ => ?_) (fun _ => ?_)
    | dsimp only | split

theorem execPresenceRemoval_evolves {slot : Fin 48} {low0 : Bool} {low1 : Bool} {line : Bool} {ps : List Part} {s₀ s : State} (hE : Evolves ps s₀ s)
    (hW : Sub [.events, .counters, .sampling, .controllers, .namespaces, .commands, .powerState, .contexts, .hbm,
      .mapping, .journal, .layoutWork, .ciphers, .storeWrites, .drivePorts, .driveSlots, .buffer, .functions,
      .hostQueues, .leash, .replicas, .legs, .regs, .regSwc, .regLay, .regPwr, .out] ps) :
    ∀ t, execPresenceRemoval slot low0 low1 line s = .next t → Evolves ps s₀ t := by
  intro t ht
  unfold execPresenceRemoval at ht
  repeat' first
    | (with_reducible obtain rfl := Host.Outcome.next.inj ht)
    | split at ht
    | dsimp only at ht
  all_goals
    repeat' first
      | exact Sub.of hW rfl
      | with_reducible first
          | exact hE | apply partnerDrives_evolves | apply onSlotBand_evolves | apply removeDrive_evolves
          | refine Evolves.ite (fun _ => ?_) (fun _ => ?_)
      | dsimp only | split

theorem execPerstReleaseTimer_evolves {slot : Fin 48} {ps : List Part} {s₀ s : State} (hE : Evolves ps s₀ s)
    (hW : Sub [.drivePorts, .regs, .regDrv] ps) :
    ∀ t, execPerstReleaseTimer slot s = .next t → Evolves ps s₀ t := by
  intro t ht
  unfold execPerstReleaseTimer at ht
  repeat' first
    | (with_reducible obtain rfl := Host.Outcome.next.inj ht)
    | split at ht
    | dsimp only at ht
  all_goals
    repeat' first
      | exact Sub.of hW rfl
      | with_reducible first
          | exact hE | apply state_bumpI_evolves | apply onPort_evolves | refine Evolves.ite (fun _ => ?_) (fun _ => ?_)
      | dsimp only | split

theorem linkTrained_evolves {slot : Nat} {rate : Nat} {width : Nat} {ps : List Part} {s₀ s : State} (hE : Evolves ps s₀ s)
    (hW : Sub [.events, .counters, .sampling, .drivePorts, .out] ps) :
    Evolves ps s₀ (linkTrained slot rate width s) := by
  unfold linkTrained
  repeat' first
    | exact Sub.of hW rfl
    | with_reducible first
        | exact hE | apply onPort_evolves | apply followL1_evolves | apply emit_evolves
    | dsimp only | split

theorem execDriveLinkUp_evolves {slot : Fin 48} {rate : Nat} {width : Nat} {corrected : Nat} {ps : List Part} {s₀ s : State} (hE : Evolves ps s₀ s)
    (hW : Sub [.events, .counters, .sampling, .drivePorts, .regs, .regDrv, .out] ps) :
    ∀ t, execDriveLinkUp slot rate width corrected s = .next t → Evolves ps s₀ t := by
  intro t ht
  unfold execDriveLinkUp at ht
  repeat' first
    | (with_reducible obtain rfl := Host.Outcome.next.inj ht)
    | split at ht
    | dsimp only at ht
  all_goals
    repeat' first
      | exact Sub.of hW rfl
      | with_reducible first
          | exact hE | apply countCorrectable_evolves | apply state_send_evolves | apply linkTrained_evolves
          | apply onPort_evolves | refine Evolves.ite (fun _ => ?_) (fun _ => ?_)
      | dsimp only | split

theorem trainingFailed_evolves {slot : Nat} {ps : List Part} {s₀ s : State} (hE : Evolves ps s₀ s)
    (hW : Sub [.events, .fences, .counters, .sampling, .controllers, .namespaces, .commands, .powerState, .contexts,
      .hbm, .mapping, .journal, .layoutWork, .ciphers, .storeWrites, .drivePorts, .driveSlots, .buffer,
      .functions, .hostQueues, .leash, .replicas, .regs, .regPrt, .regSwc, .regLay, .regRed, .out] ps) :
    Evolves ps s₀ (trainingFailed slot s) := by
  unfold trainingFailed
  repeat' first
    | exact Sub.of hW rfl
    | with_reducible first
        | exact hE | apply queryPartner_evolves | apply onPort_evolves | apply portDown_evolves
        | apply portFail_evolves | apply fenceRootPort_evolves | refine Evolves.ite (fun _ => ?_) (fun _ => ?_)
    | dsimp only | split
    | with_reducible first
        | refine Evolves.fst_of (by assumption) ?_ | refine Evolves.snd_of (by assumption) ?_

theorem execTrainingTimeout_evolves {slot : Fin 48} {ps : List Part} {s₀ s : State} (hE : Evolves ps s₀ s)
    (hW : Sub [.events, .fences, .counters, .sampling, .controllers, .namespaces, .commands, .powerState, .contexts,
      .hbm, .mapping, .journal, .layoutWork, .ciphers, .storeWrites, .drivePorts, .driveSlots, .buffer,
      .functions, .hostQueues, .leash, .replicas, .regs, .regPrt, .regSwc, .regLay, .regDrv, .regRed, .out] ps) :
    ∀ t, execTrainingTimeout slot s = .next t → Evolves ps s₀ t := by
  intro t ht
  unfold execTrainingTimeout at ht
  repeat' first
    | (with_reducible obtain rfl := Host.Outcome.next.inj ht)
    | split at ht
    | dsimp only at ht
  all_goals
    repeat' first
      | exact Sub.of hW rfl
      | with_reducible first
          | exact hE | apply onPort_evolves | apply trainingFailed_evolves | apply state_bumpI_evolves
          | apply portFail_evolves | refine Evolves.ite (fun _ => ?_) (fun _ => ?_)
      | dsimp only | split

theorem portReady_evolves {slot : Nat} {ps : List Part} {s₀ s : State} (hE : Evolves ps s₀ s)
    (hW : Sub [.events, .counters, .sampling, .commands, .powerState, .contexts, .mapping, .journal, .layoutWork,
      .ciphers, .drivePorts, .buffer, .regs, .regSwc, .out, .free] ps) :
    Evolves ps s₀ (portReady slot s) := by
  unfold portReady
  repeat' first
    | exact Sub.of hW rfl
    | with_reducible first
        | exact hE | apply onPort_evolves | apply layDriveReady_evolves | apply emit_evolves
        | refine Evolves.ite (fun _ => ?_) (fun _ => ?_)
    | dsimp only | split

theorem initStep_evolves {n : Nat} {facts : DriveFacts} {ps : List Part} {s₀ s : State} (hE : Evolves ps s₀ s)
    (hW : Sub [.events, .counters, .sampling, .controllers, .namespaces, .commands, .powerState, .contexts, .hbm,
      .mapping, .journal, .layoutWork, .ciphers, .storeWrites, .drivePorts, .buffer, .functions, .hostQueues,
      .leash, .replicas, .regs, .regSwc, .regLay, .out, .free] ps) :
    Evolves ps s₀ (initStep n facts s) := by
  unfold initStep
  repeat' first
    | exact Sub.of hW rfl
    | with_reducible first
        | exact hE | apply onPort_evolves | apply state_send_evolves | apply onDrive_evolves | apply emit_evolves
        | apply portDown_evolves | apply createQueues_evolves | apply portReady_evolves
        | refine Evolves.ite (fun _ => ?_) (fun _ => ?_)
    | dsimp only | split
    | with_reducible first
        | refine Evolves.fst_of (by assumption) ?_ | refine Evolves.snd_of (by assumption) ?_

theorem execDriveAdminCompletion_evolves {slot : Fin 48} {facts : DriveFacts} {ps : List Part} {s₀ s : State} (hE : Evolves ps s₀ s)
    (hW : Sub [.events, .counters, .sampling, .controllers, .namespaces, .commands, .powerState, .contexts, .hbm,
      .mapping, .journal, .layoutWork, .ciphers, .storeWrites, .drivePorts, .buffer, .functions, .hostQueues,
      .leash, .replicas, .regs, .regSwc, .regLay, .out, .free] ps) :
    ∀ t, execDriveAdminCompletion slot facts s = .next t → Evolves ps s₀ t := by
  intro t ht
  unfold execDriveAdminCompletion at ht
  repeat' first
    | (with_reducible obtain rfl := Host.Outcome.next.inj ht)
    | split at ht
    | dsimp only at ht
  all_goals
    repeat' first
      | exact Sub.of hW rfl
      | with_reducible first
          | exact hE | apply initStep_evolves | refine Evolves.ite (fun _ => ?_) (fun _ => ?_)
      | dsimp only | split

theorem execInitStepTimeout_evolves {slot : Fin 48} {cfs : Bool} {ps : List Part} {s₀ s : State} (hE : Evolves ps s₀ s)
    (hW : Sub [.events, .counters, .sampling, .controllers, .namespaces, .commands, .powerState, .contexts, .hbm,
      .mapping, .journal, .layoutWork, .ciphers, .storeWrites, .drivePorts, .buffer, .functions, .hostQueues,
      .leash, .replicas, .regs, .regSwc, .regLay, .regDrv, .out] ps) :
    ∀ t, execInitStepTimeout slot cfs s = .next t → Evolves ps s₀ t := by
  intro t ht
  unfold execInitStepTimeout at ht
  repeat' first
    | (with_reducible obtain rfl := Host.Outcome.next.inj ht)
    | split at ht
    | dsimp only at ht
  all_goals
    repeat' first
      | exact Sub.of hW rfl
      | with_reducible first
          | exact hE | apply portFail_evolves | apply state_bumpI_evolves
          | refine Evolves.ite (fun _ => ?_) (fun _ => ?_)
      | dsimp only | split

theorem readyFails_evolves {slot : Nat} {cause : Nat} {ps : List Part} {s₀ s : State} (hE : Evolves ps s₀ s)
    (hW : Sub [.events, .counters, .sampling, .controllers, .namespaces, .commands, .powerState, .contexts, .hbm,
      .mapping, .journal, .layoutWork, .ciphers, .storeWrites, .drivePorts, .buffer, .functions, .hostQueues,
      .leash, .replicas, .regs, .regSwc, .regLay, .out] ps) :
    Evolves ps s₀ (readyFails slot cause s) := by
  unfold readyFails
  repeat' first
    | exact Sub.of hW rfl
    | with_reducible first
        | exact hE | apply portFail_evolves | refine Evolves.ite (fun _ => ?_) (fun _ => ?_)
    | dsimp only | split

theorem execIoCommandTimeout_evolves {slot : Fin 48} {ps : List Part} {s₀ s : State} (hE : Evolves ps s₀ s)
    (hW : Sub [.events, .counters, .sampling, .controllers, .namespaces, .commands, .powerState, .contexts, .hbm,
      .mapping, .journal, .layoutWork, .ciphers, .storeWrites, .drivePorts, .buffer, .functions, .hostQueues,
      .leash, .replicas, .regs, .regSwc, .regLay, .regDrv, .out] ps) :
    ∀ t, execIoCommandTimeout slot s = .next t → Evolves ps s₀ t := by
  intro t ht
  unfold execIoCommandTimeout at ht
  repeat' first
    | (with_reducible obtain rfl := Host.Outcome.next.inj ht)
    | split at ht
    | dsimp only at ht
  all_goals
    repeat' first
      | exact Sub.of hW rfl
      | with_reducible first
          | exact hE | apply readyFails_evolves | apply state_bumpI_evolves
          | refine Evolves.ite (fun _ => ?_) (fun _ => ?_)
      | dsimp only | split

theorem execAdminCommandTimeout_evolves {slot : Fin 48} {ps : List Part} {s₀ s : State} (hE : Evolves ps s₀ s)
    (hW : Sub [.events, .counters, .sampling, .controllers, .namespaces, .commands, .powerState, .contexts, .hbm,
      .mapping, .journal, .layoutWork, .ciphers, .storeWrites, .drivePorts, .buffer, .functions, .hostQueues,
      .leash, .replicas, .regs, .regSwc, .regLay, .regDrv, .out] ps) :
    ∀ t, execAdminCommandTimeout slot s = .next t → Evolves ps s₀ t := by
  intro t ht
  unfold execAdminCommandTimeout at ht
  repeat' first
    | (with_reducible obtain rfl := Host.Outcome.next.inj ht)
    | split at ht
    | dsimp only at ht
  all_goals
    repeat' first
      | exact Sub.of hW rfl
      | with_reducible first
          | exact hE | apply readyFails_evolves | apply state_bumpI_evolves
          | refine Evolves.ite (fun _ => ?_) (fun _ => ?_)
      | dsimp only | split

theorem execControllerFatalStatus_evolves {slot : Fin 48} {ps : List Part} {s₀ s : State} (hE : Evolves ps s₀ s)
    (hW : Sub [.events, .counters, .sampling, .controllers, .namespaces, .commands, .powerState, .contexts, .hbm,
      .mapping, .journal, .layoutWork, .ciphers, .storeWrites, .drivePorts, .buffer, .functions, .hostQueues,
      .leash, .replicas, .regs, .regSwc, .regLay, .out] ps) :
    ∀ t, execControllerFatalStatus slot s = .next t → Evolves ps s₀ t := by
  intro t ht
  unfold execControllerFatalStatus at ht
  repeat' first
    | (with_reducible obtain rfl := Host.Outcome.next.inj ht)
    | split at ht
    | dsimp only at ht
  all_goals
    repeat' first
      | exact Sub.of hW rfl
      | with_reducible first
          | exact hE | apply readyFails_evolves
      | dsimp only

theorem execDriveLinkDown_evolves {slot : Fin 48} {retrained : Option (Nat × Nat)} {corrected : Nat} {ps : List Part} {s₀ s : State} (hE : Evolves ps s₀ s)
    (hW : Sub [.events, .counters, .sampling, .controllers, .namespaces, .commands, .powerState, .contexts, .hbm,
      .mapping, .journal, .layoutWork, .ciphers, .storeWrites, .drivePorts, .buffer, .functions, .hostQueues,
      .leash, .replicas, .regs, .regSwc, .regLay, .regDrv, .out] ps) :
    ∀ t, execDriveLinkDown slot retrained corrected s = .next t → Evolves ps s₀ t := by
  intro t ht
  unfold execDriveLinkDown at ht
  repeat' first
    | (with_reducible obtain rfl := Host.Outcome.next.inj ht)
    | split at ht
    | dsimp only at ht
  all_goals
    repeat' first
      | exact Sub.of hW rfl
      | with_reducible first
          | exact hE | apply countCorrectable_evolves | apply linkTrained_evolves | apply state_bumpI_evolves
          | apply readyFails_evolves | refine Evolves.ite (fun _ => ?_) (fun _ => ?_)
      | dsimp only | split
      | with_reducible first
          | refine Evolves.fst_of (by assumption) ?_ | refine Evolves.snd_of (by assumption) ?_

theorem execDmaFault_evolves {slot : Fin 48} {start : Nat} {len : Nat} {ps : List Part} {s₀ s : State} (hE : Evolves ps s₀ s)
    (hW : Sub [.events, .counters, .sampling, .controllers, .namespaces, .commands, .powerState, .contexts, .hbm,
      .mapping, .journal, .layoutWork, .ciphers, .storeWrites, .drivePorts, .buffer, .functions, .hostQueues,
      .leash, .replicas, .regs, .regSwc, .regLay, .out] ps) :
    ∀ t, execDmaFault slot start len s = .next t → Evolves ps s₀ t := by
  intro t ht
  unfold execDmaFault at ht
  repeat' first
    | (with_reducible obtain rfl := Host.Outcome.next.inj ht)
    | split at ht
    | dsimp only at ht
  all_goals
    repeat' first
      | exact Sub.of hW rfl
      | with_reducible first
          | exact hE | apply portFail_evolves | apply emit_evolves | refine Evolves.ite (fun _ => ?_) (fun _ => ?_)
      | dsimp only | split
      | with_reducible first
          | refine Evolves.fst_of (by assumption) ?_ | refine Evolves.snd_of (by assumption) ?_

theorem execPreemptCompletion_evolves {slot : Fin 48} {conflict : Bool} {ps : List Part} {s₀ s : State} (hE : Evolves ps s₀ s)
    (hW : Sub [.events, .counters, .sampling, .drivePorts, .driveSlots, .regs, .regPrt, .regRed, .out] ps) :
    ∀ t, execPreemptCompletion slot conflict s = .next t → Evolves ps s₀ t := by
  intro t ht
  unfold execPreemptCompletion at ht
  repeat' first
    | (with_reducible obtain rfl := Host.Outcome.next.inj ht)
    | split at ht
    | dsimp only at ht
  all_goals
    repeat' first
      | exact Sub.of hW rfl | exact .inl (Sub.of hW rfl) | with_reducible exact .inr rfl
      | exact .inr (FencesStay.refl _) | exact .inr (by dsimp only) | exact .inr rfl
      | with_reducible exact (fun h => h : _ = true → _) | (dsimp only; exact (fun h => h : _ = true → _))
      | exact (fun h => h : _ = true → _)
      | with_reducible first
          | exact hE | apply preempted_evolves | apply state_onDrv_evolves | apply releaseWrites_evolves
          | apply onPort_evolves | apply preemptDrive_evolves | refine Evolves.ite (fun _ => ?_) (fun _ => ?_)
          | refine Evolves.foldl ?_ ?_ | refine Evolves.foldl_fst ?_ ?_ | refine Evolves.foldl_snd ?_ ?_ | assumption
      | intro _ | dsimp only | split

theorem execPwrdisRelease_evolves {slot : Fin 48} {ps : List Part} {s₀ s : State} (hE : Evolves ps s₀ s)
    (hW : Sub [.events, .counters, .sampling, .drivePorts, .driveSlots] ps) :
    ∀ t, execPwrdisRelease slot s = .next t → Evolves ps s₀ t := by
  intro t ht
  unfold execPwrdisRelease at ht
  repeat' first
    | (with_reducible obtain rfl := Host.Outcome.next.inj ht)
    | split at ht
    | dsimp only at ht
  all_goals
    repeat' first
      | exact Sub.of hW rfl
      | with_reducible first
          | exact hE | apply emit_evolves | apply onSlotBand_evolves | apply portReset_evolves
          | refine Evolves.ite (fun _ => ?_) (fun _ => ?_)
      | dsimp only | split

theorem execLegPgWaitTimeout_evolves {slot : Fin 48} {ps : List Part} {s₀ s : State} (hE : Evolves ps s₀ s)
    (hW : Sub [.drivePorts, .leash, .out] ps) :
    ∀ t, execLegPgWaitTimeout slot s = .next t → Evolves ps s₀ t := by
  intro t ht
  unfold execLegPgWaitTimeout at ht
  repeat' first
    | (with_reducible obtain rfl := Host.Outcome.next.inj ht)
    | split at ht
    | dsimp only at ht
  all_goals
    repeat' first
      | exact Sub.of hW rfl
      | with_reducible first
          | exact hE | apply queryPartner_evolves | apply onPort_evolves
          | refine Evolves.ite (fun _ => ?_) (fun _ => ?_)
      | dsimp only | split

theorem execSmbusPoll_evolves {slot : Fin 48} {reply : Option (Nat × Nat × Nat)} {serial : Option Nat} {ps : List Part} {s₀ s : State} (hE : Evolves ps s₀ s)
    (hW : Sub [.events, .counters, .sampling, .driveSlots, .regs, .regPwr, .out] ps) :
    ∀ t, execSmbusPoll slot reply serial s = .next t → Evolves ps s₀ t := by
  intro t ht
  unfold execSmbusPoll at ht
  repeat' first
    | (with_reducible obtain rfl := Host.Outcome.next.inj ht)
    | split at ht
    | dsimp only at ht
  all_goals
    repeat' first
      | exact Sub.of hW rfl
      | with_reducible first
          | exact hE | apply state_send_evolves | apply onSlotBand_evolves | apply setFans_evolves | apply emit_evolves
          | refine Evolves.ite (fun _ => ?_) (fun _ => ?_)
      | dsimp only | split
      | with_reducible first
          | refine Evolves.fst_of (by assumption) ?_ | refine Evolves.snd_of (by assumption) ?_

end Sys2Proof.Machine
end

