-- ==== Sys2Proof/Laws/FrameTransport.lean ====
section
/-! SUPPORT. What the operations of Machine/Transport.lean change at most: one lemma each. -/

namespace Sys2Proof.Machine

set_option linter.unusedTactic false
set_option linter.unreachableTactic false
set_option linter.unusedVariables false

theorem accessNak_evolves {p : Pkt} {reason : Nat} {ps : List Part} {s₀ s : State} (hE : Evolves ps s₀ s)
    (hW : Sub [.events, .counters, .sampling, .controllers, .queues, .commands, .powerState, .contexts, .contextCache,
      .regions, .chains, .mapping, .journal, .layoutWork, .ciphers, .jobs, .drivePorts, .buffer, .leash,
      .replicas, .regs, .regSwc, .out] ps) :
    Evolves ps s₀ (accessNak p reason s) := by
  unfold accessNak
  repeat' first
    | exact Sub.of hW rfl
    | with_reducible first
        | exact hE | apply connError_evolves | apply emit_evolves | apply sendPacket_evolves
    | dsimp only

theorem advanceUna_evolves {qpn : Nat} {psn : Nat} {ended : List (Nat × Nat × Nat)} {ps : List Part} {s₀ s : State} (hE : Evolves ps s₀ s)
    (hW : Sub [.contexts] ps) :
    Evolves ps s₀ (advanceUna qpn psn ended s) := by
  unfold advanceUna
  repeat' first
    | exact Sub.of hW rfl
    | with_reducible first
        | exact hE | apply onCtx_evolves | refine Evolves.ite (fun _ => ?_) (fun _ => ?_)
    | dsimp only | split

theorem endSample_evolves {qpn : Nat} {psn : Nat} {ps : List Part} {s₀ s : State} (hE : Evolves ps s₀ s)
    (hW : Sub [.events, .counters, .sampling, .contexts] ps) :
    Evolves ps s₀ (endSample qpn psn s) := by
  unfold endSample
  repeat' first
    | exact Sub.of hW rfl
    | with_reducible first
        | exact hE | apply onCtx_evolves | apply onSample_evolves | refine Evolves.ite (fun _ => ?_) (fun _ => ?_)
    | dsimp only | split

theorem acknowledge_evolves {qpn : Nat} {psn : Nat} {ps : List Part} {s₀ s : State} (hE : Evolves ps s₀ s)
    (hW : Sub [.events, .counters, .sampling, .controllers, .queues, .commands, .powerState, .contexts, .contextCache,
      .regions, .chains, .mapping, .journal, .layoutWork, .ciphers, .jobs, .drivePorts, .buffer, .leash,
      .replicas, .regs, .regSwc, .out] ps) :
    Evolves ps s₀ (acknowledge qpn psn s) := by
  unfold acknowledge
  repeat' first
    | exact Sub.of hW rfl
    | with_reducible first
        | exact hE | apply advanceUna_evolves | apply drainCheck_evolves | apply endSample_evolves
        | refine Evolves.ite (fun _ => ?_) (fun _ => ?_)
    | dsimp only | split
    | with_reducible first
        | refine Evolves.fst_of (by assumption) ?_ | refine Evolves.snd_of (by assumption) ?_

theorem onSet16_evolves {set : Nat} {f : List (Nat × Bool) → List (Nat × Bool)} {ps : List Part} {s₀ s : State} (hE : Evolves ps s₀ s)
    (hW : Sub [.contextCache] ps) :
    Evolves ps s₀ (onSet16 set f s) := by
  unfold onSet16
  repeat' first
    | exact Sub.of hW rfl | exact .inl (Sub.of hW rfl) | with_reducible exact .inr rfl
    | exact .inr (FencesStay.refl _) | exact .inr (by dsimp only) | exact .inr rfl
    | with_reducible exact (fun h => h : _ = true → _) | (dsimp only; exact (fun h => h : _ = true → _))
    | exact (fun h => h : _ = true → _)
    | with_reducible first
        | exact hE | apply state_onXpt_evolves
    | dsimp only

theorem cachePlace_evolves {ctx : Nat} {dirty : Bool} {ps : List Part} {s₀ s : State} (hE : Evolves ps s₀ s)
    (hW : Sub [.contextCache] ps) :
    Evolves ps s₀ (cachePlace ctx dirty s) := by
  unfold cachePlace
  repeat' first
    | exact Sub.of hW rfl
    | with_reducible first
        | exact hE | apply onSet16_evolves
    | dsimp only

theorem endReads_evolves {qpn : Nat} {psn : Nat} {ps : List Part} {s₀ s : State} (hE : Evolves ps s₀ s)
    (hW : Sub [.events, .counters, .sampling, .contextCache, .regions] ps) :
    Evolves ps s₀ (endReads qpn psn s) := by
  unfold endReads
  repeat' first
    | exact Sub.of hW rfl
    | with_reducible first
        | exact hE | apply endStraddle_evolves | refine Evolves.foldl ?_ ?_ | refine Evolves.foldl_fst ?_ ?_
        | refine Evolves.foldl_snd ?_ ?_ | assumption
    | intro _ | dsimp only

theorem execXptInvCtrl_evolves {path : Fin 5} {session : Nat} {value : Word} {ps : List Part} {s₀ s : State} (hE : Evolves ps s₀ s)
    (hW : Sub [.events, .sessions, .marks, .counters, .sampling, .contextCache, .regions, .regs, .regCtl, .regXpt, .out] ps) :
    ∀ t, execXptInvCtrl path session value s = .next t → Evolves ps s₀ t := by
  intro t ht
  unfold execXptInvCtrl at ht
  repeat' first
    | (with_reducible obtain rfl := Host.Outcome.next.inj ht)
    | split at ht
    | dsimp only at ht
  all_goals
    repeat' first
      | exact Sub.of hW rfl
      | with_reducible first
          | exact hE | apply writeGate_evolves | apply state_setFld_evolves | apply startInvalidation_evolves
          | refine Evolves.ite (fun _ => ?_) (fun _ => ?_)
      | dsimp only | split
      | with_reducible first
          | refine Evolves.fst_of (by assumption) ?_ | refine Evolves.snd_of (by assumption) ?_

theorem execXptCtxSel_evolves {path : Fin 5} {session : Nat} {value : Word} {ps : List Part} {s₀ s : State} (hE : Evolves ps s₀ s)
    (hW : Sub [.events, .sessions, .marks, .counters, .sampling, .regs, .regCtl, .regXpt, .out] ps) :
    ∀ t, execXptCtxSel path session value s = .next t → Evolves ps s₀ t := by
  intro t ht
  unfold execXptCtxSel at ht
  repeat' first
    | (with_reducible obtain rfl := Host.Outcome.next.inj ht)
    | split at ht
    | dsimp only at ht
  all_goals
    repeat' first
      | exact Sub.of hW rfl
      | with_reducible first
          | exact hE | apply writeGate_evolves | apply state_setFld_evolves | apply state_setFldI_evolves
          | refine Evolves.ite (fun _ => ?_) (fun _ => ?_) | refine Evolves.foldl ?_ ?_ | refine Evolves.foldl_fst ?_ ?_
          | refine Evolves.foldl_snd ?_ ?_ | assumption
      | intro _ | dsimp only | split
      | with_reducible first
          | refine Evolves.fst_of (by assumption) ?_ | refine Evolves.snd_of (by assumption) ?_

theorem onEcn_evolves {qpn : Nat} {ecn : Bool} {ps : List Part} {s₀ s : State} (hE : Evolves ps s₀ s)
    (hW : Sub [.events, .counters, .sampling, .contexts, .out] ps) :
    Evolves ps s₀ (onEcn qpn ecn s) := by
  unfold onEcn
  repeat' first
    | exact Sub.of hW rfl
    | with_reducible first
        | exact hE | apply emit_evolves | apply onCtx_evolves | apply sendPacket_evolves
        | refine Evolves.ite (fun _ => ?_) (fun _ => ?_)
    | dsimp only | split

theorem onRequest_evolves {p : Pkt} {dup : State → State} {run : State → State} {ps : List Part} {s₀ s : State} (hE : Evolves ps s₀ s)
    (hdup : ∀ (t : State), Evolves ps s₀ t → Evolves ps s₀ (dup t))
    (hrun : ∀ (t : State), Evolves ps s₀ t → Evolves ps s₀ (run t))
    (hW : Sub [.events, .counters, .sampling, .controllers, .queues, .commands, .powerState, .contexts, .contextCache,
      .regions, .chains, .mapping, .journal, .layoutWork, .ciphers, .jobs, .drivePorts, .buffer, .leash,
      .replicas, .regs, .regSwc, .out] ps) :
    Evolves ps s₀ (onRequest p dup run s) := by
  unfold onRequest
  repeat' first
    | exact Sub.of hW rfl
    | with_reducible first
        | exact hE | apply refuseRequest_evolves | apply onEcn_evolves | apply outOfSequence_evolves
        | apply drainCheck_evolves | apply onCtx_evolves | apply hdup | apply hrun
        | refine Evolves.ite (fun _ => ?_) (fun _ => ?_) | assumption
    | intro _ | dsimp only | split
    | with_reducible first
        | refine Evolves.fst_of (by assumption) ?_ | refine Evolves.snd_of (by assumption) ?_

theorem rnr_evolves {p : Pkt} {ps : List Part} {s₀ s : State} (hE : Evolves ps s₀ s)
    (hW : Sub [.out] ps) :
    Evolves ps s₀ (rnr p s) := by
  unfold rnr
  repeat' first
    | exact Sub.of hW rfl
    | with_reducible first
        | exact hE | apply sendPacket_evolves
    | dsimp only

theorem messageEnds_evolves {p : Pkt} {buffer : Bool} {ps : List Part} {s₀ s : State} (hE : Evolves ps s₀ s)
    (hW : Sub [.contexts, .out] ps) :
    Evolves ps s₀ (messageEnds p buffer s) := by
  unfold messageEnds
  repeat' first
    | exact Sub.of hW rfl
    | with_reducible first
        | exact hE | apply received_evolves | apply onCtx_evolves | refine Evolves.ite (fun _ => ?_) (fun _ => ?_)
    | dsimp only | split

theorem onSend_evolves {p : Pkt} {last : Bool} {payload : Bytes} {done : Bytes → State → State} {ps : List Part} {s₀ s : State} (hE : Evolves ps s₀ s)
    (hdone : ∀ a0 (t : State), Evolves ps s₀ t → Evolves ps s₀ (done a0 t))
    (hW : Sub [.events, .counters, .sampling, .controllers, .queues, .commands, .powerState, .contexts, .contextCache,
      .regions, .chains, .mapping, .journal, .layoutWork, .ciphers, .jobs, .drivePorts, .buffer, .leash,
      .replicas, .regs, .regSwc, .out] ps) :
    Evolves ps s₀ (onSend p last payload done s) := by
  unfold onSend
  repeat' first
    | exact Sub.of hW rfl
    | with_reducible first
        | exact hE | apply rnr_evolves | apply refuseRequest_evolves | apply messageEnds_evolves
        | apply received_evolves | apply onCtx_evolves | apply hdone | refine Evolves.ite (fun _ => ?_) (fun _ => ?_)
        | assumption
    | intro _ | dsimp only | split
    | with_reducible first
        | refine Evolves.fst_of (by assumption) ?_ | refine Evolves.snd_of (by assumption) ?_

theorem sendVisible_evolves {p : Pkt} {whole : Bytes} {ps : List Part} {s₀ s : State} (hE : Evolves ps s₀ s)
    (hW : Sub [.jobs] ps) :
    Evolves ps s₀ (sendVisible p whole s) := by
  unfold sendVisible
  repeat' first
    | exact Sub.of hW rfl | exact .inl (Sub.of hW rfl) | with_reducible exact .inr rfl
    | exact .inr (FencesStay.refl _) | exact .inr (by dsimp only) | exact .inr rfl
    | with_reducible exact (fun h => h : _ = true → _) | (dsimp only; exact (fun h => h : _ = true → _))
    | exact (fun h => h : _ = true → _)
    | with_reducible first
        | exact hE | apply state_onFix_evolves | refine Evolves.ite (fun _ => ?_) (fun _ => ?_)
    | dsimp only | split

theorem execSendReceived_evolves {p : Pkt} {last : Bool} {payload : Bytes} {ps : List Part} {s₀ s : State} (hE : Evolves ps s₀ s)
    (hW : Sub [.events, .counters, .sampling, .controllers, .queues, .commands, .powerState, .contexts, .contextCache,
      .regions, .chains, .mapping, .journal, .layoutWork, .ciphers, .jobs, .drivePorts, .buffer, .leash,
      .replicas, .regs, .regSwc, .out] ps) :
    ∀ t, execSendReceived p last payload s = .next t → Evolves ps s₀ t := by
  intro t ht
  unfold execSendReceived at ht
  repeat' first
    | (with_reducible obtain rfl := Host.Outcome.next.inj ht)
    | split at ht
    | dsimp only at ht
  all_goals
    repeat' first
      | exact Sub.of hW rfl
      | with_reducible first
          | exact hE | apply onRequest_evolves | apply duplicate_evolves | apply onSend_evolves
          | apply sendVisible_evolves | assumption
      | intro _ | dsimp only

theorem startChain_evolves {entry : Nat} {ps : List Part} {s₀ s : State} (hE : Evolves ps s₀ s)
    (hW : Sub [.events, .counters, .sampling, .contexts, .chains, .jobs, .leash, .replicas, .out] ps) :
    Evolves ps s₀ (startChain entry s) := by
  unfold startChain
  repeat' first
    | exact Sub.of hW rfl
    | with_reducible first
        | exact hE | apply endChain_evolves | apply onChain_evolves | refine Evolves.ite (fun _ => ?_) (fun _ => ?_)
    | dsimp only | split

theorem fire_evolves {entry : Nat} {payload : Bytes} {ps : List Part} {s₀ s : State} (hE : Evolves ps s₀ s)
    (hW : Sub [.events, .counters, .sampling, .contexts, .chains, .hbm, .jobs, .leash, .replicas, .out] ps) :
    Evolves ps s₀ (fire entry payload s) := by
  unfold fire
  repeat' first
    | exact Sub.of hW rfl | exact .inl (Sub.of hW rfl) | with_reducible exact .inr rfl
    | exact .inr (FencesStay.refl _) | exact .inr (by dsimp only) | exact .inr rfl
    | with_reducible exact (fun h => h : _ = true → _) | (dsimp only; exact (fun h => h : _ = true → _))
    | exact (fun h => h : _ = true → _)
    | with_reducible first
        | exact hE | apply emit_evolves | apply onTrigger_evolves | apply hbmWrite_evolves | apply startChain_evolves
        | apply state_onXpt_evolves | refine Evolves.ite (fun _ => ?_) (fun _ => ?_)
    | dsimp only | split

theorem execSendWithImmediateReceived_evolves {p : Pkt} {imm : Nat} {payload : Bytes} {ps : List Part} {s₀ s : State} (hE : Evolves ps s₀ s)
    (hW : Sub [.events, .counters, .sampling, .controllers, .queues, .commands, .powerState, .contexts, .contextCache,
      .regions, .chains, .hbm, .mapping, .journal, .layoutWork, .ciphers, .jobs, .drivePorts, .buffer, .leash,
      .replicas, .regs, .regSwc, .regXpt, .out] ps) :
    ∀ t, execSendWithImmediateReceived p imm payload s = .next t → Evolves ps s₀ t := by
  intro t ht
  unfold execSendWithImmediateReceived at ht
  repeat' first
    | (with_reducible obtain rfl := Host.Outcome.next.inj ht)
    | split at ht
    | dsimp only at ht
  all_goals
    repeat' first
      | exact Sub.of hW rfl
      | with_reducible first
          | exact hE | apply onRequest_evolves | apply duplicate_evolves | apply refuseRequest_evolves
          | apply fire_evolves | apply messageEnds_evolves | apply state_bump_evolves | apply emit_evolves
          | apply rnr_evolves | apply onSend_evolves | apply sendVisible_evolves
          | refine Evolves.ite (fun _ => ?_) (fun _ => ?_) | assumption
      | intro _ | dsimp only | split
      | with_reducible first
          | refine Evolves.fst_of (by assumption) ?_ | refine Evolves.snd_of (by assumption) ?_

theorem execSendWithInvalidateReceived_evolves {p : Pkt} {key : Nat} {payload : Bytes} {ps : List Part} {s₀ s : State} (hE : Evolves ps s₀ s)
    (hW : Sub [.events, .counters, .sampling, .controllers, .queues, .commands, .powerState, .contexts, .contextCache,
      .regions, .chains, .mapping, .journal, .layoutWork, .ciphers, .jobs, .drivePorts, .buffer, .leash,
      .replicas, .regs, .regSwc, .regXpt, .out] ps) :
    ∀ t, execSendWithInvalidateReceived p key payload s = .next t → Evolves ps s₀ t := by
  intro t ht
  unfold execSendWithInvalidateReceived at ht
  repeat' first
    | (with_reducible obtain rfl := Host.Outcome.next.inj ht)
    | split at ht
    | dsimp only at ht
  all_goals
    repeat' first
      | exact Sub.of hW rfl
      | with_reducible first
          | exact hE | apply onRequest_evolves | apply duplicate_evolves | apply accessNak_evolves
          | apply onSend_evolves | apply startInvalidation_evolves | apply sendVisible_evolves
          | refine Evolves.ite (fun _ => ?_) (fun _ => ?_) | assumption
      | intro _ | dsimp only | split

theorem openWrite_evolves {p : Pkt} {reth : Option Reth} {data : Bytes} {ps : List Part} {s₀ s : State} (hE : Evolves ps s₀ s)
    (hW : Sub [.events, .counters, .sampling, .controllers, .queues, .commands, .powerState, .contexts, .contextCache,
      .regions, .chains, .mapping, .journal, .layoutWork, .ciphers, .jobs, .drivePorts, .buffer, .leash,
      .replicas, .regs, .regSwc, .out] ps) :
    (∀ t, openWrite p reth data s = .ok t → Evolves ps s₀ t) ∧ (∀ t, openWrite p reth data s = .error t → Evolves ps s₀ t) := by
  constructor
  all_goals
    intro t ht
    unfold openWrite at ht
    repeat' first
      | contradiction
      | (with_reducible obtain rfl := Except.ok.inj ht)
      | (with_reducible obtain rfl := Except.error.inj ht)
      | dsimp only at ht
      | split at ht
    all_goals
      repeat' first
        | exact Sub.of hW rfl
        | with_reducible first
            | exact hE | apply accessNak_evolves | apply refuseRequest_evolves | apply onRegion_evolves
            | apply onCtx_evolves | refine Evolves.ite (fun _ => ?_) (fun _ => ?_)
        | dsimp only | split
        | with_reducible first
            | refine Evolves.fst_of (by assumption) ?_ | refine Evolves.snd_of (by assumption) ?_

theorem placeWrite_evolves {p : Pkt} {data : Bytes} {ps : List Part} {s₀ s : State} (hE : Evolves ps s₀ s)
    (hW : Sub [.contexts, .hbm] ps) :
    Evolves ps s₀ (placeWrite p data s) := by
  unfold placeWrite
  repeat' first
    | exact Sub.of hW rfl
    | with_reducible first
        | exact hE | apply onCtx_evolves | apply hbmWrite_evolves
    | dsimp only

theorem writeEnds_evolves {qpn : Nat} {ps : List Part} {s₀ s : State} (hE : Evolves ps s₀ s)
    (hW : Sub [.events, .counters, .sampling, .contexts, .contextCache, .regions] ps) :
    Evolves ps s₀ (writeEnds qpn s) := by
  unfold writeEnds
  repeat' first
    | exact Sub.of hW rfl
    | with_reducible first
        | exact hE | apply endStraddle_evolves | apply onCtx_evolves
    | dsimp only | split
    | with_reducible first
        | refine Evolves.fst_of (by assumption) ?_ | refine Evolves.snd_of (by assumption) ?_

theorem execRdmaWriteReceived_evolves {p : Pkt} {reth : Option Reth} {last : Bool} {data : Bytes} {ps : List Part} {s₀ s : State} (hE : Evolves ps s₀ s)
    (hW : Sub [.events, .counters, .sampling, .controllers, .queues, .commands, .powerState, .contexts, .contextCache,
      .regions, .chains, .hbm, .mapping, .journal, .layoutWork, .ciphers, .jobs, .drivePorts, .buffer, .leash,
      .replicas, .regs, .regSwc, .out] ps) :
    ∀ t, execRdmaWriteReceived p reth last data s = .next t → Evolves ps s₀ t := by
  intro t ht
  unfold execRdmaWriteReceived at ht
  repeat' first
    | (with_reducible obtain rfl := Host.Outcome.next.inj ht)
    | split at ht
    | dsimp only at ht
  all_goals
    repeat' first
      | exact Sub.of hW rfl
      | with_reducible first
          | exact hE | apply onRequest_evolves | apply duplicate_evolves
          | refine (openWrite_evolves ?_ (Sub.of hW rfl)).1 _ (by assumption)
          | refine (openWrite_evolves ?_ (Sub.of hW rfl)).2 _ (by assumption) | apply placeWrite_evolves
          | apply writeEnds_evolves | apply messageEnds_evolves | apply received_evolves
          | refine Evolves.ite (fun _ => ?_) (fun _ => ?_) | assumption
      | intro _ | dsimp only | split
      | with_reducible first
          | refine Evolves.fst_of (by assumption) ?_ | refine Evolves.snd_of (by assumption) ?_

theorem execRdmaWriteWithImmediateReceived_evolves {p : Pkt} {reth : Option Reth} {imm : Nat} {data : Bytes} {ps : List Part} {s₀ s : State} (hE : Evolves ps s₀ s)
    (hW : Sub [.events, .counters, .sampling, .controllers, .queues, .commands, .powerState, .contexts, .contextCache,
      .regions, .chains, .hbm, .mapping, .journal, .layoutWork, .ciphers, .jobs, .drivePorts, .buffer, .leash,
      .replicas, .regs, .regSwc, .out] ps) :
    ∀ t, execRdmaWriteWithImmediateReceived p reth imm data s = .next t → Evolves ps s₀ t := by
  intro t ht
  unfold execRdmaWriteWithImmediateReceived at ht
  repeat' first
    | (with_reducible obtain rfl := Host.Outcome.next.inj ht)
    | split at ht
    | dsimp only at ht
  all_goals
    repeat' first
      | exact Sub.of hW rfl
      | with_reducible first
          | exact hE | apply onRequest_evolves | apply duplicate_evolves | apply rnr_evolves
          | refine (openWrite_evolves ?_ (Sub.of hW rfl)).1 _ (by assumption)
          | refine (openWrite_evolves ?_ (Sub.of hW rfl)).2 _ (by assumption) | apply sendVisible_evolves
          | apply writeEnds_evolves | apply messageEnds_evolves | apply placeWrite_evolves
          | refine Evolves.ite (fun _ => ?_) (fun _ => ?_) | assumption
      | intro _ | dsimp only | split
      | with_reducible first
          | refine Evolves.fst_of (by assumption) ?_ | refine Evolves.snd_of (by assumption) ?_

theorem execRdmaReadRequestReceived_evolves {p : Pkt} {r : Reth} {ps : List Part} {s₀ s : State} (hE : Evolves ps s₀ s)
    (hW : Sub [.events, .counters, .sampling, .controllers, .queues, .commands, .powerState, .contexts, .contextCache,
      .regions, .chains, .mapping, .journal, .layoutWork, .ciphers, .jobs, .drivePorts, .buffer, .leash,
      .replicas, .regs, .regSwc, .out] ps) :
    ∀ t, execRdmaReadRequestReceived p r s = .next t → Evolves ps s₀ t := by
  intro t ht
  unfold execRdmaReadRequestReceived at ht
  repeat' first
    | (with_reducible obtain rfl := Host.Outcome.next.inj ht)
    | split at ht
    | dsimp only at ht
  all_goals
    repeat' first
      | exact Sub.of hW rfl
      | with_reducible first
          | exact hE | apply onRequest_evolves | apply emit_evolves | apply refuseRequest_evolves
          | apply accessNak_evolves | apply sendReadResponse_evolves | apply onRegion_evolves | apply onCtx_evolves
          | apply received_evolves | assumption
      | intro _ | dsimp only | split
      | with_reducible first
          | refine Evolves.fst_of (by assumption) ?_ | refine Evolves.snd_of (by assumption) ?_

theorem onReply_evolves {qpn : Nat} {psn : Nat} {ecn : Bool} {run : State → State} {ps : List Part} {s₀ s : State} (hE : Evolves ps s₀ s)
    (hrun : ∀ (t : State), Evolves ps s₀ t → Evolves ps s₀ (run t))
    (hW : Sub [.events, .counters, .sampling, .controllers, .queues, .commands, .powerState, .contexts, .contextCache,
      .regions, .chains, .mapping, .journal, .layoutWork, .ciphers, .jobs, .drivePorts, .buffer, .leash,
      .replicas, .regs, .regSwc, .out] ps) :
    Evolves ps s₀ (onReply qpn psn ecn run s) := by
  unfold onReply
  repeat' first
    | exact Sub.of hW rfl
    | with_reducible first
        | exact hE | apply refuseRequest_evolves | apply onEcn_evolves | apply hrun
        | refine Evolves.ite (fun _ => ?_) (fun _ => ?_) | assumption
    | intro _ | dsimp only | split

theorem placeRead_evolves {tag : Nat} {off : Nat} {data : Bytes} {ps : List Part} {s₀ s : State} (hE : Evolves ps s₀ s)
    (hW : Sub [.commands, .hbm, .buffer, .regs, .regSwc] ps) :
    Evolves ps s₀ (placeRead tag off data s) := by
  unfold placeRead
  repeat' first
    | exact Sub.of hW rfl
    | with_reducible first
        | exact hE | apply hbmWrite_evolves | apply holdCells_evolves | apply onEntry_evolves
        | refine Evolves.ite (fun _ => ?_) (fun _ => ?_)
    | dsimp only | split
    | with_reducible first
        | refine Evolves.fst_of (by assumption) ?_ | refine Evolves.snd_of (by assumption) ?_

theorem readResponse_evolves {qpn : Nat} {psn : Nat} {data : Bytes} {ps : List Part} {s₀ s : State} (hE : Evolves ps s₀ s)
    (hW : Sub [.events, .counters, .sampling, .controllers, .queues, .commands, .powerState, .contexts, .contextCache,
      .regions, .chains, .hbm, .mapping, .journal, .layoutWork, .ciphers, .jobs, .drivePorts, .buffer, .leash,
      .replicas, .regs, .regSwc, .out] ps) :
    Evolves ps s₀ (readResponse qpn psn data s) := by
  unfold readResponse
  repeat' first
    | exact Sub.of hW rfl
    | with_reducible first
        | exact hE | apply placeRead_evolves | apply endSample_evolves | apply advanceUna_evolves
        | apply drainCheck_evolves | apply freeReadCredit_evolves | refine Evolves.ite (fun _ => ?_) (fun _ => ?_)
    | dsimp only | split
    | with_reducible first
        | refine Evolves.fst_of (by assumption) ?_ | refine Evolves.snd_of (by assumption) ?_

theorem execRdmaReadResponseReceived_evolves {qpn : Nat} {psn : Nat} {ecn : Bool} {data : Bytes} {ps : List Part} {s₀ s : State} (hE : Evolves ps s₀ s)
    (hW : Sub [.events, .counters, .sampling, .controllers, .queues, .commands, .powerState, .contexts, .contextCache,
      .regions, .chains, .hbm, .mapping, .journal, .layoutWork, .ciphers, .jobs, .drivePorts, .buffer, .leash,
      .replicas, .regs, .regSwc, .out] ps) :
    ∀ t, execRdmaReadResponseReceived qpn psn ecn data s = .next t → Evolves ps s₀ t := by
  intro t ht
  unfold execRdmaReadResponseReceived at ht
  repeat' first
    | (with_reducible obtain rfl := Host.Outcome.next.inj ht)
    | split at ht
    | dsimp only at ht
  all_goals
    repeat' first
      | exact Sub.of hW rfl
      | with_reducible first
          | exact hE | apply onReply_evolves | apply readResponse_evolves | assumption
      | intro _ | dsimp only

theorem execAcknowledgeReceived_evolves {qpn : Nat} {psn : Nat} {ecn : Bool} {ofReads : Bool} {ps : List Part} {s₀ s : State} (hE : Evolves ps s₀ s)
    (hW : Sub [.events, .counters, .sampling, .controllers, .queues, .commands, .powerState, .contexts, .contextCache,
      .regions, .chains, .mapping, .journal, .layoutWork, .ciphers, .jobs, .drivePorts, .buffer, .leash,
      .replicas, .regs, .regSwc, .out] ps) :
    ∀ t, execAcknowledgeReceived qpn psn ecn ofReads s = .next t → Evolves ps s₀ t := by
  intro t ht
  unfold execAcknowledgeReceived at ht
  repeat' first
    | (with_reducible obtain rfl := Host.Outcome.next.inj ht)
    | split at ht
    | dsimp only at ht
  all_goals
    repeat' first
      | exact Sub.of hW rfl
      | with_reducible first
          | exact hE | apply onReply_evolves | apply endReads_evolves | apply acknowledge_evolves | assumption
      | intro _ | dsimp only | split

theorem retryFrom_evolves {qpn : Nat} {psn : Nat} {ps : List Part} {s₀ s : State} (hE : Evolves ps s₀ s)
    (hW : Sub [.events, .counters, .sampling, .controllers, .queues, .commands, .powerState, .contexts, .contextCache,
      .regions, .chains, .mapping, .journal, .layoutWork, .ciphers, .jobs, .drivePorts, .buffer, .leash,
      .replicas, .regs, .regSwc, .out] ps) :
    Evolves ps s₀ (retryFrom qpn psn s) := by
  unfold retryFrom
  repeat' first
    | exact Sub.of hW rfl
    | with_reducible first
        | exact hE | apply onCtx_evolves | apply connError_evolves | apply halveRate_evolves
        | apply resendFrom_evolves | refine Evolves.ite (fun _ => ?_) (fun _ => ?_)
    | dsimp only | split

theorem execNakPsnSequenceErrorReceived_evolves {qpn : Nat} {psn : Nat} {ps : List Part} {s₀ s : State} (hE : Evolves ps s₀ s)
    (hW : Sub [.events, .counters, .sampling, .controllers, .queues, .commands, .powerState, .contexts, .contextCache,
      .regions, .chains, .mapping, .journal, .layoutWork, .ciphers, .jobs, .drivePorts, .buffer, .leash,
      .replicas, .regs, .regSwc, .out] ps) :
    ∀ t, execNakPsnSequenceErrorReceived qpn psn s = .next t → Evolves ps s₀ t := by
  intro t ht
  unfold execNakPsnSequenceErrorReceived at ht
  repeat' first
    | (with_reducible obtain rfl := Host.Outcome.next.inj ht)
    | split at ht
    | dsimp only at ht
  all_goals
    repeat' first
      | exact Sub.of hW rfl
      | with_reducible first
          | exact hE | apply onReply_evolves | apply retryFrom_evolves | refine Evolves.ite (fun _ => ?_) (fun _ => ?_)
          | assumption
      | intro _ | dsimp only | split

theorem rnrNak_evolves {qpn : Nat} {psn : Nat} {timer : Nat} {ps : List Part} {s₀ s : State} (hE : Evolves ps s₀ s)
    (hW : Sub [.events, .counters, .sampling, .controllers, .queues, .commands, .powerState, .contexts, .contextCache,
      .regions, .chains, .mapping, .journal, .layoutWork, .ciphers, .jobs, .drivePorts, .buffer, .leash,
      .replicas, .regs, .regSwc, .out] ps) :
    Evolves ps s₀ (rnrNak qpn psn timer s) := by
  unfold rnrNak
  repeat' first
    | exact Sub.of hW rfl
    | with_reducible first
        | exact hE | apply connError_evolves | apply onCtx_evolves | refine Evolves.ite (fun _ => ?_) (fun _ => ?_)
    | dsimp only | split

theorem execRnrNakReceived_evolves {qpn : Nat} {psn : Nat} {timer : Fin 32} {ps : List Part} {s₀ s : State} (hE : Evolves ps s₀ s)
    (hW : Sub [.events, .counters, .sampling, .controllers, .queues, .commands, .powerState, .contexts, .contextCache,
      .regions, .chains, .mapping, .journal, .layoutWork, .ciphers, .jobs, .drivePorts, .buffer, .leash,
      .replicas, .regs, .regSwc, .out] ps) :
    ∀ t, execRnrNakReceived qpn psn timer s = .next t → Evolves ps s₀ t := by
  intro t ht
  unfold execRnrNakReceived at ht
  repeat' first
    | (with_reducible obtain rfl := Host.Outcome.next.inj ht)
    | split at ht
    | dsimp only at ht
  all_goals
    repeat' first
      | exact Sub.of hW rfl
      | with_reducible first
          | exact hE | apply onReply_evolves | apply rnrNak_evolves | assumption
      | intro _ | dsimp only

theorem execNakRemoteAccessErrorReceived_evolves {qpn : Nat} {psn : Nat} {ps : List Part} {s₀ s : State} (hE : Evolves ps s₀ s)
    (hW : Sub [.events, .counters, .sampling, .controllers, .queues, .commands, .powerState, .contexts, .contextCache,
      .regions, .chains, .mapping, .journal, .layoutWork, .ciphers, .jobs, .drivePorts, .buffer, .leash,
      .replicas, .regs, .regSwc, .out] ps) :
    ∀ t, execNakRemoteAccessErrorReceived qpn psn s = .next t → Evolves ps s₀ t := by
  intro t ht
  unfold execNakRemoteAccessErrorReceived at ht
  repeat' first
    | (with_reducible obtain rfl := Host.Outcome.next.inj ht)
    | split at ht
    | dsimp only at ht
  all_goals
    repeat' first
      | exact Sub.of hW rfl
      | with_reducible first
          | exact hE | apply onReply_evolves | apply connError_evolves | assumption
      | intro _ | dsimp only

theorem execNakInvalidRequestReceived_evolves {qpn : Nat} {psn : Nat} {ps : List Part} {s₀ s : State} (hE : Evolves ps s₀ s)
    (hW : Sub [.events, .counters, .sampling, .controllers, .queues, .commands, .powerState, .contexts, .contextCache,
      .regions, .chains, .mapping, .journal, .layoutWork, .ciphers, .jobs, .drivePorts, .buffer, .leash,
      .replicas, .regs, .regSwc, .out] ps) :
    ∀ t, execNakInvalidRequestReceived qpn psn s = .next t → Evolves ps s₀ t := by
  intro t ht
  unfold execNakInvalidRequestReceived at ht
  repeat' first
    | (with_reducible obtain rfl := Host.Outcome.next.inj ht)
    | split at ht
    | dsimp only at ht
  all_goals
    repeat' first
      | exact Sub.of hW rfl
      | with_reducible first
          | exact hE | apply onReply_evolves | apply connError_evolves | assumption
      | intro _ | dsimp only

theorem execCnpReceived_evolves {qpn : Nat} {ps : List Part} {s₀ s : State} (hE : Evolves ps s₀ s)
    (hW : Sub [.events, .counters, .sampling, .controllers, .queues, .commands, .powerState, .contexts, .contextCache,
      .regions, .chains, .mapping, .journal, .layoutWork, .ciphers, .jobs, .drivePorts, .buffer, .leash,
      .replicas, .regs, .regSwc, .out] ps) :
    ∀ t, execCnpReceived qpn s = .next t → Evolves ps s₀ t := by
  intro t ht
  unfold execCnpReceived at ht
  repeat' first
    | (with_reducible obtain rfl := Host.Outcome.next.inj ht)
    | split at ht
    | dsimp only at ht
  all_goals
    repeat' first
      | exact Sub.of hW rfl
      | with_reducible first
          | exact hE | apply onReply_evolves | apply onSample_evolves | refine Evolves.ite (fun _ => ?_) (fun _ => ?_)
          | assumption
      | intro _ | dsimp only | split

theorem execInvalidOpcodePacket_evolves {p : Pkt} {opcode : Nat} {ps : List Part} {s₀ s : State} (hE : Evolves ps s₀ s)
    (hW : Sub [.events, .counters, .sampling, .controllers, .queues, .commands, .powerState, .contexts, .contextCache,
      .regions, .chains, .mapping, .journal, .layoutWork, .ciphers, .jobs, .drivePorts, .buffer, .leash,
      .replicas, .regs, .regSwc, .out] ps) :
    ∀ t, execInvalidOpcodePacket p opcode s = .next t → Evolves ps s₀ t := by
  intro t ht
  unfold execInvalidOpcodePacket at ht
  repeat' first
    | (with_reducible obtain rfl := Host.Outcome.next.inj ht)
    | split at ht
    | dsimp only at ht
  all_goals
    repeat' first
      | exact Sub.of hW rfl
      | with_reducible first
          | exact hE | apply refuseRequest_evolves
      | dsimp only

theorem execAckTimeout_evolves {qpn : Nat} {ps : List Part} {s₀ s : State} (hE : Evolves ps s₀ s)
    (hW : Sub [.events, .counters, .sampling, .controllers, .queues, .commands, .powerState, .contexts, .contextCache,
      .regions, .chains, .mapping, .journal, .layoutWork, .ciphers, .jobs, .drivePorts, .buffer, .leash,
      .replicas, .regs, .regSwc, .out] ps) :
    ∀ t, execAckTimeout qpn s = .next t → Evolves ps s₀ t := by
  intro t ht
  unfold execAckTimeout at ht
  repeat' first
    | (with_reducible obtain rfl := Host.Outcome.next.inj ht)
    | split at ht
    | dsimp only at ht
  all_goals
    repeat' first
      | exact Sub.of hW rfl
      | with_reducible first
          | exact hE | apply retryFrom_evolves | refine Evolves.ite (fun _ => ?_) (fun _ => ?_)
      | dsimp only | split

theorem execRnrWaitExpiry_evolves {qpn : Nat} {ps : List Part} {s₀ s : State} (hE : Evolves ps s₀ s)
    (hW : Sub [.events, .counters, .sampling, .contexts, .out] ps) :
    ∀ t, execRnrWaitExpiry qpn s = .next t → Evolves ps s₀ t := by
  intro t ht
  unfold execRnrWaitExpiry at ht
  repeat' first
    | (with_reducible obtain rfl := Host.Outcome.next.inj ht)
    | split at ht
    | dsimp only at ht
  all_goals
    repeat' first
      | exact Sub.of hW rfl
      | with_reducible first
          | exact hE | apply resendFrom_evolves | apply onCtx_evolves | refine Evolves.ite (fun _ => ?_) (fun _ => ?_)
      | dsimp only | split

theorem execAckCoalescingTimeout_evolves {qpn : Nat} {ps : List Part} {s₀ s : State} (hE : Evolves ps s₀ s)
    (hW : Sub [.contexts, .out] ps) :
    ∀ t, execAckCoalescingTimeout qpn s = .next t → Evolves ps s₀ t := by
  intro t ht
  unfold execAckCoalescingTimeout at ht
  repeat' first
    | (with_reducible obtain rfl := Host.Outcome.next.inj ht)
    | split at ht
    | dsimp only at ht
  all_goals
    repeat' first
      | exact Sub.of hW rfl
      | with_reducible first
          | exact hE | apply sendAck_evolves | refine Evolves.ite (fun _ => ?_) (fun _ => ?_)
      | dsimp only | split

theorem fillWay_evolves {ctx : Nat} {dirty : Bool} {ps : List Part} {s₀ s : State} (hE : Evolves ps s₀ s)
    (hW : Sub [.contextCache] ps) :
    ∀ t, fillWay ctx dirty s = some t → Evolves ps s₀ t := by
  intro t ht
  unfold fillWay at ht
  repeat' first
    | contradiction
    | (with_reducible obtain rfl := Option.some.inj ht)
    | (with_reducible obtain ⟨rfl, rfl⟩ := Prod.mk.inj (Option.some.inj ht))
    | (with_reducible obtain ⟨rfl, rfl⟩ := Prod.mk.inj (Except.ok.inj ht))
    | dsimp only at ht
    | split at ht
  all_goals
    repeat' first
      | exact Sub.of hW rfl | exact .inl (Sub.of hW rfl) | with_reducible exact .inr rfl
      | exact .inr (FencesStay.refl _) | exact .inr (by dsimp only) | exact .inr rfl
      | with_reducible exact (fun h => h : _ = true → _) | (dsimp only; exact (fun h => h : _ = true → _))
      | exact (fun h => h : _ = true → _)
      | with_reducible first
          | exact hE | apply cachePlace_evolves | apply onSet16_evolves | apply state_onXpt_evolves
          | refine Evolves.ite (fun _ => ?_) (fun _ => ?_)
      | dsimp only | split
      | with_reducible first
          | refine Evolves.fst_of (by assumption) ?_ | refine Evolves.snd_of (by assumption) ?_

theorem execContextFill_evolves {ctx : Nat} {dirty : Bool} {checkOk : Bool} {ps : List Part} {s₀ s : State} (hE : Evolves ps s₀ s)
    (hW : Sub [.events, .counters, .sampling, .controllers, .queues, .commands, .powerState, .contexts, .contextCache,
      .regions, .chains, .mapping, .journal, .layoutWork, .ciphers, .jobs, .drivePorts, .buffer, .leash,
      .replicas, .regs, .regSwc, .regXpt, .out] ps) :
    ∀ t, execContextFill ctx dirty checkOk s = .next t → Evolves ps s₀ t := by
  intro t ht
  unfold execContextFill at ht
  repeat' first
    | (with_reducible obtain rfl := Host.Outcome.next.inj ht)
    | split at ht
    | dsimp only at ht
  all_goals
    repeat' first
      | exact Sub.of hW rfl | exact .inl (Sub.of hW rfl) | with_reducible exact .inr rfl
      | exact .inr (FencesStay.refl _) | exact .inr (by dsimp only) | exact .inr rfl
      | with_reducible exact (fun h => h : _ = true → _) | (dsimp only; exact (fun h => h : _ = true → _))
      | exact (fun h => h : _ = true → _)
      | with_reducible first
          | exact hE | apply onSet16_evolves | apply state_onXpt_evolves
          | refine fillWay_evolves ?_ (Sub.of hW rfl) _ (by assumption) | apply state_bump_evolves | apply emit_evolves
          | apply connError_evolves
      | dsimp only | split
      | with_reducible first
          | refine Evolves.fst_of (by assumption) ?_ | refine Evolves.snd_of (by assumption) ?_

theorem execVictimWriteBack_evolves  {ps : List Part} {s₀ s : State} (hE : Evolves ps s₀ s)
    (hW : Sub [.contextCache] ps) :
    ∀ t, execVictimWriteBack s = .next t → Evolves ps s₀ t := by
  intro t ht
  unfold execVictimWriteBack at ht
  repeat' first
    | (with_reducible obtain rfl := Host.Outcome.next.inj ht)
    | split at ht
    | dsimp only at ht
  all_goals
    repeat' first
      | exact Sub.of hW rfl | exact .inl (Sub.of hW rfl) | with_reducible exact .inr rfl
      | exact .inr (FencesStay.refl _) | exact .inr (by dsimp only) | exact .inr rfl
      | with_reducible exact (fun h => h : _ = true → _) | (dsimp only; exact (fun h => h : _ = true → _))
      | exact (fun h => h : _ = true → _)
      | with_reducible first
          | exact hE | apply state_onXpt_evolves | refine fillWay_evolves ?_ (Sub.of hW rfl) _ (by assumption)
      | dsimp only | split
      | with_reducible first
          | refine Evolves.fst_of (by assumption) ?_ | refine Evolves.snd_of (by assumption) ?_

theorem execInvLimitReached_evolves {region : Nat} {ps : List Part} {s₀ s : State} (hE : Evolves ps s₀ s)
    (hW : Sub [.events, .counters, .sampling, .controllers, .queues, .commands, .powerState, .contexts, .contextCache,
      .regions, .chains, .mapping, .journal, .layoutWork, .ciphers, .jobs, .drivePorts, .buffer, .leash,
      .replicas, .regs, .regSwc, .regXpt, .out] ps) :
    ∀ t, execInvLimitReached region s = .next t → Evolves ps s₀ t := by
  intro t ht
  unfold execInvLimitReached at ht
  repeat' first
    | (with_reducible obtain rfl := Host.Outcome.next.inj ht)
    | split at ht
    | dsimp only at ht
  all_goals
    repeat' first
      | exact Sub.of hW rfl
      | with_reducible first
          | exact hE | apply onRegion_evolves | apply state_setFld_evolves | apply connError_evolves
          | apply finishInvalidation_evolves | refine Evolves.ite (fun _ => ?_) (fun _ => ?_)
          | refine Evolves.foldl ?_ ?_ | refine Evolves.foldl_fst ?_ ?_ | refine Evolves.foldl_snd ?_ ?_ | assumption
      | intro _ | dsimp only | split

end Sys2Proof.Machine
end

