-- ==== Sys2Proof/Laws/FrameTriggers.lean ====
section
/-! SUPPORT. What the operations of Machine/Triggers.lean change at most: one lemma each. -/

namespace Sys2Proof.Machine

set_option linter.unusedTactic false
set_option linter.unreachableTactic false
set_option linter.unusedVariables false

theorem requestEnds_evolves {chain : Nat} {wr : Nat} {status : Nat} {ps : List Part} {s₀ s : State} (hE : Evolves ps s₀ s)
    (hW : Sub [.events, .counters, .sampling, .contexts, .chains, .jobs, .leash, .replicas, .out] ps) :
    Evolves ps s₀ (requestEnds chain wr status s) := by
  unfold requestEnds
  repeat' first
    | exact Sub.of hW rfl
    | with_reducible first
        | exact hE | apply onChain_evolves | apply endChain_evolves | apply failChain_evolves
        | refine Evolves.ite (fun _ => ?_) (fun _ => ?_)
    | dsimp only | split
    | with_reducible first
        | refine Evolves.fst_of (by assumption) ?_ | refine Evolves.snd_of (by assumption) ?_

theorem driveRequestEnds_evolves {chain : Nat} {wr : Nat} {ps : List Part} {s₀ s : State} (hE : Evolves ps s₀ s)
    (hW : Sub [.events, .counters, .sampling, .commands, .powerState, .contexts, .chains, .journal, .layoutWork,
      .ciphers, .jobs, .buffer, .leash, .replicas, .regs, .regSwc, .out, .free] ps) :
    Evolves ps s₀ (driveRequestEnds chain wr s) := by
  unfold driveRequestEnds
  repeat' first
    | exact Sub.of hW rfl
    | with_reducible first
        | exact hE | apply freeEntry_evolves | apply requestEnds_evolves | apply onJob_evolves
        | apply state_drawn_evolves | refine Evolves.ite (fun _ => ?_) (fun _ => ?_)
    | dsimp only | split

theorem execTriggerArm_evolves {entry : Fin 16384} {tag : Nat} {qpn : Nat} {head : Nat} {mbufLen : Nat} {mbuf : Nat} {posts : List (Nat × WorkReq)} {ps : List Part} {s₀ s : State} (hE : Evolves ps s₀ s)
    (hW : Sub [.chains] ps) :
    ∀ t, execTriggerArm entry tag qpn head mbufLen mbuf posts s = .next t → Evolves ps s₀ t := by
  intro t ht
  unfold execTriggerArm at ht
  repeat' first
    | (with_reducible obtain rfl := Host.Outcome.next.inj ht)
    | split at ht
    | dsimp only at ht
  all_goals
    repeat' first
      | exact Sub.of hW rfl | exact .inl (Sub.of hW rfl) | with_reducible exact .inr rfl
      | exact .inr (FencesStay.refl _) | exact .inr (by dsimp only) | exact .inr rfl
      | with_reducible exact (fun h => h : _ = true → _) | (dsimp only; exact (fun h => h : _ = true → _))
      | exact (fun h => h : _ = true → _)
      | with_reducible first
          | exact hE | apply state_onXpt_evolves | apply onTrigger_evolves
          | refine Evolves.ite (fun _ => ?_) (fun _ => ?_) | refine Evolves.foldl ?_ ?_ | refine Evolves.foldl_fst ?_ ?_
          | refine Evolves.foldl_snd ?_ ?_ | assumption
      | intro _ | dsimp only | split

theorem execTriggerDisarm_evolves {entry : Fin 16384} {ps : List Part} {s₀ s : State} (hE : Evolves ps s₀ s)
    (hW : Sub [.chains] ps) :
    ∀ t, execTriggerDisarm entry s = .next t → Evolves ps s₀ t := by
  intro t ht
  unfold execTriggerDisarm at ht
  repeat' first
    | (with_reducible obtain rfl := Host.Outcome.next.inj ht)
    | split at ht
    | dsimp only at ht
  all_goals
    repeat' first
      | exact Sub.of hW rfl
      | with_reducible first
          | exact hE | apply onTrigger_evolves | refine Evolves.ite (fun _ => ?_) (fun _ => ?_)
      | dsimp only | split

theorem execTriggerReclaim_evolves {entry : Fin 16384} {ps : List Part} {s₀ s : State} (hE : Evolves ps s₀ s)
    (hW : Sub [.chains] ps) :
    ∀ t, execTriggerReclaim entry s = .next t → Evolves ps s₀ t := by
  intro t ht
  unfold execTriggerReclaim at ht
  repeat' first
    | (with_reducible obtain rfl := Host.Outcome.next.inj ht)
    | split at ht
    | dsimp only at ht
  all_goals
    repeat' first
      | exact Sub.of hW rfl
      | with_reducible first
          | exact hE | apply onTrigger_evolves | refine Evolves.ite (fun _ => ?_) (fun _ => ?_)
      | dsimp only | split

theorem execChainStart_evolves  {ps : List Part} {s₀ s : State} (hE : Evolves ps s₀ s)
    (hW : Sub [.events, .counters, .sampling, .contexts, .chains, .jobs, .leash, .replicas, .out] ps) :
    ∀ t, execChainStart s = .next t → Evolves ps s₀ t := by
  intro t ht
  unfold execChainStart at ht
  repeat' first
    | (with_reducible obtain rfl := Host.Outcome.next.inj ht)
    | split at ht
    | dsimp only at ht
  all_goals
    repeat' first
      | exact Sub.of hW rfl | exact .inl (Sub.of hW rfl) | with_reducible exact .inr rfl
      | exact .inr (FencesStay.refl _) | exact .inr (by dsimp only) | exact .inr rfl
      | with_reducible exact (fun h => h : _ = true → _) | (dsimp only; exact (fun h => h : _ = true → _))
      | exact (fun h => h : _ = true → _)
      | with_reducible first
          | exact hE | apply startChain_evolves | apply state_onXpt_evolves
          | refine Evolves.ite (fun _ => ?_) (fun _ => ?_)
      | dsimp only | split
      | with_reducible first
          | refine Evolves.fst_of (by assumption) ?_ | refine Evolves.snd_of (by assumption) ?_

theorem execWorkRequestCompletion_evolves {chain : Fin 16384} {wr : Nat} {status : Fin 8} {ps : List Part} {s₀ s : State} (hE : Evolves ps s₀ s)
    (hW : Sub [.events, .counters, .sampling, .commands, .powerState, .contexts, .chains, .journal, .layoutWork,
      .ciphers, .jobs, .buffer, .leash, .replicas, .regs, .regSwc, .out, .free] ps) :
    ∀ t, execWorkRequestCompletion chain wr status s = .next t → Evolves ps s₀ t := by
  intro t ht
  unfold execWorkRequestCompletion at ht
  repeat' first
    | (with_reducible obtain rfl := Host.Outcome.next.inj ht)
    | split at ht
    | dsimp only at ht
  all_goals
    repeat' first
      | exact Sub.of hW rfl
      | with_reducible first
          | exact hE | apply driveRequestEnds_evolves | apply requestEnds_evolves
          | refine Evolves.ite (fun _ => ?_) (fun _ => ?_)
      | dsimp only | split

theorem requestStarted_evolves {chain : Nat} {i : Nat} {w : WorkReq} {ps : List Part} {s₀ s : State} (hE : Evolves ps s₀ s)
    (hW : Sub [.chains] ps) :
    Evolves ps s₀ (requestStarted chain i w s) := by
  unfold requestStarted
  repeat' first
    | exact Sub.of hW rfl
    | with_reducible first
        | exact hE | apply onChain_evolves | refine Evolves.ite (fun _ => ?_) (fun _ => ?_)
    | dsimp only | split

theorem startRequest_evolves {chain : Nat} {opcode : Nat} {run : Nat → WorkReq → State → State} {ps : List Part} {s₀ s : State} (hE : Evolves ps s₀ s)
    (hrun : ∀ a0 a1 (t : State), Evolves ps s₀ t → Evolves ps s₀ (run a0 a1 t))
    (hW : Sub [.chains] ps) :
    Evolves ps s₀ (startRequest chain opcode run s) := by
  unfold startRequest
  repeat' first
    | exact Sub.of hW rfl
    | with_reducible first
        | exact hE | apply requestStarted_evolves | apply hrun | assumption
    | intro _ | dsimp only | split
    | with_reducible first
        | refine Evolves.fst_of (by assumption) ?_ | refine Evolves.snd_of (by assumption) ?_

theorem onNetwork_evolves {chain : Nat} {run : Nat → WorkReq → State → State} {i : Nat} {w : WorkReq} {ps : List Part} {s₀ s : State} (hE : Evolves ps s₀ s)
    (hrun : ∀ a0 a1 (t : State), Evolves ps s₀ t → Evolves ps s₀ (run a0 a1 t))
    (hW : Sub [.events, .counters, .sampling, .contexts, .chains, .jobs, .leash, .replicas, .out] ps) :
    Evolves ps s₀ (onNetwork chain run i w s) := by
  unfold onNetwork
  repeat' first
    | exact Sub.of hW rfl
    | with_reducible first
        | exact hE | apply requestEnds_evolves | apply hrun | refine Evolves.ite (fun _ => ?_) (fun _ => ?_)
        | assumption
    | intro _ | dsimp only | split

theorem execWrRdmaWrite_evolves {chain : Fin 16384} {ps : List Part} {s₀ s : State} (hE : Evolves ps s₀ s)
    (hW : Sub [.events, .counters, .sampling, .contexts, .chains, .jobs, .leash, .replicas, .out] ps) :
    ∀ t, execWrRdmaWrite chain s = .next t → Evolves ps s₀ t := by
  intro t ht
  unfold execWrRdmaWrite at ht
  repeat' first
    | (with_reducible obtain rfl := Host.Outcome.next.inj ht)
    | split at ht
    | dsimp only at ht
  all_goals
    repeat' first
      | exact Sub.of hW rfl
      | with_reducible first
          | exact hE | apply startRequest_evolves | apply onNetwork_evolves | apply sendWrite_evolves | assumption
      | intro _ | dsimp only

theorem execWrRdmaWriteWithImmediate_evolves {chain : Fin 16384} {ps : List Part} {s₀ s : State} (hE : Evolves ps s₀ s)
    (hW : Sub [.events, .counters, .sampling, .contexts, .chains, .jobs, .leash, .replicas, .out] ps) :
    ∀ t, execWrRdmaWriteWithImmediate chain s = .next t → Evolves ps s₀ t := by
  intro t ht
  unfold execWrRdmaWriteWithImmediate at ht
  repeat' first
    | (with_reducible obtain rfl := Host.Outcome.next.inj ht)
    | split at ht
    | dsimp only at ht
  all_goals
    repeat' first
      | exact Sub.of hW rfl
      | with_reducible first
          | exact hE | apply startRequest_evolves | apply onNetwork_evolves | apply sendWrite_evolves | assumption
      | intro _ | dsimp only

theorem execWrSend_evolves {chain : Fin 16384} {ps : List Part} {s₀ s : State} (hE : Evolves ps s₀ s)
    (hW : Sub [.events, .counters, .sampling, .contexts, .chains, .jobs, .leash, .replicas, .out] ps) :
    ∀ t, execWrSend chain s = .next t → Evolves ps s₀ t := by
  intro t ht
  unfold execWrSend at ht
  repeat' first
    | (with_reducible obtain rfl := Host.Outcome.next.inj ht)
    | split at ht
    | dsimp only at ht
  all_goals
    repeat' first
      | exact Sub.of hW rfl
      | with_reducible first
          | exact hE | apply startRequest_evolves | apply onNetwork_evolves | apply sendSend_evolves | assumption
      | intro _ | dsimp only

theorem execWrRdmaRead_evolves {chain : Fin 16384} {ps : List Part} {s₀ s : State} (hE : Evolves ps s₀ s)
    (hW : Sub [.events, .counters, .sampling, .contexts, .chains, .jobs, .leash, .replicas, .out] ps) :
    ∀ t, execWrRdmaRead chain s = .next t → Evolves ps s₀ t := by
  intro t ht
  unfold execWrRdmaRead at ht
  repeat' first
    | (with_reducible obtain rfl := Host.Outcome.next.inj ht)
    | split at ht
    | dsimp only at ht
  all_goals
    repeat' first
      | exact Sub.of hW rfl
      | with_reducible first
          | exact hE | apply startRequest_evolves | apply onNetwork_evolves | apply issueReads_evolves | assumption
      | intro _ | dsimp only

theorem execWrWaitUntilGts_evolves {chain : Fin 16384} {ps : List Part} {s₀ s : State} (hE : Evolves ps s₀ s)
    (hW : Sub [.chains] ps) :
    ∀ t, execWrWaitUntilGts chain s = .next t → Evolves ps s₀ t := by
  intro t ht
  unfold execWrWaitUntilGts at ht
  repeat' first
    | (with_reducible obtain rfl := Host.Outcome.next.inj ht)
    | split at ht
    | dsimp only at ht
  all_goals
    repeat' first
      | exact Sub.of hW rfl
      | with_reducible first
          | exact hE | apply startRequest_evolves | assumption
      | intro _ | dsimp only

theorem execWaitGtsReached_evolves {chain : Fin 16384} {wr : Nat} {ps : List Part} {s₀ s : State} (hE : Evolves ps s₀ s)
    (hW : Sub [.events, .counters, .sampling, .contexts, .chains, .jobs, .leash, .replicas, .out] ps) :
    ∀ t, execWaitGtsReached chain wr s = .next t → Evolves ps s₀ t := by
  intro t ht
  unfold execWaitGtsReached at ht
  repeat' first
    | (with_reducible obtain rfl := Host.Outcome.next.inj ht)
    | split at ht
    | dsimp only at ht
  all_goals
    repeat' first
      | exact Sub.of hW rfl
      | with_reducible first
          | exact hE | apply requestEnds_evolves | refine Evolves.ite (fun _ => ?_) (fun _ => ?_)
      | dsimp only | split

theorem execWrNotify_evolves {chain : Fin 16384} {ps : List Part} {s₀ s : State} (hE : Evolves ps s₀ s)
    (hW : Sub [.events, .counters, .sampling, .contexts, .chains, .jobs, .leash, .replicas, .out] ps) :
    ∀ t, execWrNotify chain s = .next t → Evolves ps s₀ t := by
  intro t ht
  unfold execWrNotify at ht
  repeat' first
    | (with_reducible obtain rfl := Host.Outcome.next.inj ht)
    | split at ht
    | dsimp only at ht
  all_goals
    repeat' first
      | exact Sub.of hW rfl
      | with_reducible first
          | exact hE | apply startRequest_evolves | apply requestEnds_evolves | apply state_send_evolves | assumption
      | intro _ | dsimp only

end Sys2Proof.Machine
end

