-- ==== Sys2Proof/Laws/FrameCipher.lean ====
section
/-! SUPPORT. What the operations of Machine/Cipher.lean change at most: one lemma each. -/

namespace Sys2Proof.Machine

set_option linter.unusedTactic false
set_option linter.unreachableTactic false
set_option linter.unusedVariables false

theorem answerCipher_evolves {r : CipherReq} {x : Except Nat (Bytes × Bytes)} {ps : List Part} {s₀ s : State} (hE : Evolves ps s₀ s)
    (hW : Sub [.events, .counters, .sampling, .contexts, .chains, .jobs, .leash, .replicas, .regs, .regCip, .out] ps) :
    Evolves ps s₀ (answerCipher r x s) := by
  unfold answerCipher
  repeat' first
    | exact Sub.of hW rfl
    | with_reducible first
        | exact hE | apply state_send_evolves | apply requestEnds_evolves | apply cipRefuse_evolves
    | dsimp only | split
    | with_reducible first
        | refine Evolves.fst_of (by assumption) ?_ | refine Evolves.snd_of (by assumption) ?_

theorem destroyKey_evolves {o : KeyOrder} {ps : List Part} {s₀ s : State} (hE : Evolves ps s₀ s)
    (hW : Sub [.events, .counters, .sampling, .keys, .trust] ps) :
    Evolves ps s₀ (destroyKey o s).1 := by
  unfold destroyKey
  repeat' first
    | exact Sub.of hW rfl
    | with_reducible first
        | exact hE | apply freeKey_evolves | apply trustChange_evolves
        | refine Evolves.ite (fun _ => ?_) (fun _ => ?_)
    | dsimp only | split
    | with_reducible first
        | refine Evolves.fst_of (by assumption) ?_ | refine Evolves.snd_of (by assumption) ?_

theorem fenceCipherLane_evolves {lane : Nat} {reason : Nat} {ps : List Part} {s₀ s : State} (hE : Evolves ps s₀ s)
    (hW : Sub [.events, .fences, .counters, .sampling, .controllers, .namespaces, .commands, .contexts, .ciphers,
      .driveSlots, .functions, .hostQueues, .leash, .replicas, .regs, .regPrt, .regRed, .out] ps) :
    Evolves ps s₀ (fenceCipherLane lane reason s) := by
  unfold fenceCipherLane
  repeat' first
    | exact Sub.of hW rfl | exact .inl (Sub.of hW rfl) | with_reducible exact .inr rfl
    | exact .inr (FencesStay.refl _) | exact .inr (by dsimp only) | exact .inr rfl
    | with_reducible exact (fun h => h : _ = true → _) | (dsimp only; exact (fun h => h : _ = true → _))
    | exact (fun h => h : _ = true → _)
    | with_reducible first
        | exact hE | apply state_onCip_evolves | apply fenceUnit_evolves | apply restartOp_evolves
        | refine Evolves.foldl ?_ ?_ | refine Evolves.foldl_fst ?_ ?_ | refine Evolves.foldl_snd ?_ ?_ | assumption
    | intro _ | dsimp only

theorem keyOrder_evolves {op : Nat} {path : Fin 5} {session : Nat} {value : Word} {now : KeyOrder → State → State × Nat} {ps : List Part} {s₀ s : State} (hE : Evolves ps s₀ s)
    (hnow : ∀ a0 (t : State), Evolves ps s₀ t → Evolves ps s₀ ((now a0 t)).1)
    (hW : Sub [.events, .sessions, .marks, .counters, .sampling, .keyOrders, .regs, .regCtl, .regCip, .out] ps) :
    Evolves ps s₀ (keyOrder op path session value now s) := by
  unfold keyOrder
  repeat' first
    | exact Sub.of hW rfl | exact .inl (Sub.of hW rfl) | with_reducible exact .inr rfl
    | exact .inr (FencesStay.refl _) | exact .inr (by dsimp only) | exact .inr rfl
    | with_reducible exact (fun h => h : _ = true → _) | (dsimp only; exact (fun h => h : _ = true → _))
    | exact (fun h => h : _ = true → _)
    | with_reducible first
        | exact hE | apply writeGate_evolves | apply state_setFld_evolves | apply state_onCip_evolves | apply hnow
        | refine Evolves.ite (fun _ => ?_) (fun _ => ?_) | assumption
    | intro _ | dsimp only | split
    | with_reducible first
        | refine Evolves.fst_of (by assumption) ?_ | refine Evolves.snd_of (by assumption) ?_

theorem later_evolves {o : KeyOrder} {ps : List Part} {s₀ s : State} (hE : Evolves ps s₀ s)
    (hW : Sub [] ps) :
    Evolves ps s₀ (later o s).1 := by
  unfold later
  repeat' first
    | exact Sub.of hW rfl
    | with_reducible first
        | exact hE
    | dsimp only

theorem execKeyGenerate_evolves {path : Fin 5} {session : Nat} {value : Word} {ps : List Part} {s₀ s : State} (hE : Evolves ps s₀ s)
    (hW : Sub [.events, .sessions, .marks, .counters, .sampling, .keyOrders, .regs, .regCtl, .regCip, .out] ps) :
    ∀ t, execKeyGenerate path session value s = .next t → Evolves ps s₀ t := by
  intro t ht
  unfold execKeyGenerate at ht
  repeat' first
    | (with_reducible obtain rfl := Host.Outcome.next.inj ht)
    | split at ht
    | dsimp only at ht
  all_goals
    repeat' first
      | exact Sub.of hW rfl
      | with_reducible first
          | exact hE | apply keyOrder_evolves | apply later_evolves | assumption
      | intro _ | dsimp only

theorem execKeyImport_evolves {path : Fin 5} {session : Nat} {value : Word} {ps : List Part} {s₀ s : State} (hE : Evolves ps s₀ s)
    (hW : Sub [.events, .sessions, .marks, .counters, .sampling, .keyOrders, .regs, .regCtl, .regCip, .out] ps) :
    ∀ t, execKeyImport path session value s = .next t → Evolves ps s₀ t := by
  intro t ht
  unfold execKeyImport at ht
  repeat' first
    | (with_reducible obtain rfl := Host.Outcome.next.inj ht)
    | split at ht
    | dsimp only at ht
  all_goals
    repeat' first
      | exact Sub.of hW rfl
      | with_reducible first
          | exact hE | apply keyOrder_evolves | apply later_evolves | assumption
      | intro _ | dsimp only

theorem execKeyExport_evolves {path : Fin 5} {session : Nat} {value : Word} {ps : List Part} {s₀ s : State} (hE : Evolves ps s₀ s)
    (hW : Sub [.events, .sessions, .marks, .counters, .sampling, .keyOrders, .regs, .regCtl, .regCip, .out] ps) :
    ∀ t, execKeyExport path session value s = .next t → Evolves ps s₀ t := by
  intro t ht
  unfold execKeyExport at ht
  repeat' first
    | (with_reducible obtain rfl := Host.Outcome.next.inj ht)
    | split at ht
    | dsimp only at ht
  all_goals
    repeat' first
      | exact Sub.of hW rfl
      | with_reducible first
          | exact hE | apply keyOrder_evolves | apply later_evolves | assumption
      | intro _ | dsimp only

theorem execKeyDestroy_evolves {path : Fin 5} {session : Nat} {value : Word} {ps : List Part} {s₀ s : State} (hE : Evolves ps s₀ s)
    (hW : Sub [.events, .sessions, .marks, .counters, .sampling, .keys, .keyOrders, .trust, .regs, .regCtl, .regCip,
      .out] ps) :
    ∀ t, execKeyDestroy path session value s = .next t → Evolves ps s₀ t := by
  intro t ht
  unfold execKeyDestroy at ht
  repeat' first
    | (with_reducible obtain rfl := Host.Outcome.next.inj ht)
    | split at ht
    | dsimp only at ht
  all_goals
    repeat' first
      | exact Sub.of hW rfl
      | with_reducible first
          | exact hE | apply keyOrder_evolves | apply destroyKey_evolves | assumption
      | intro _ | dsimp only

theorem execKeyEscrowAgain_evolves {path : Fin 5} {session : Nat} {value : Word} {ps : List Part} {s₀ s : State} (hE : Evolves ps s₀ s)
    (hW : Sub [.events, .sessions, .marks, .counters, .sampling, .keyOrders, .regs, .regCtl, .regCip, .out] ps) :
    ∀ t, execKeyEscrowAgain path session value s = .next t → Evolves ps s₀ t := by
  intro t ht
  unfold execKeyEscrowAgain at ht
  repeat' first
    | (with_reducible obtain rfl := Host.Outcome.next.inj ht)
    | split at ht
    | dsimp only at ht
  all_goals
    repeat' first
      | exact Sub.of hW rfl
      | with_reducible first
          | exact hE | apply keyOrder_evolves | apply later_evolves | assumption
      | intro _ | dsimp only

theorem execCipherRequest_evolves {r : CipherReq} {ps : List Part} {s₀ s : State} (hE : Evolves ps s₀ s)
    (hW : Sub [.events, .counters, .sampling, .contexts, .chains, .keys, .ciphers, .jobs, .leash, .replicas, .regs,
      .regCip, .out] ps) :
    ∀ t, execCipherRequest r s = .next t → Evolves ps s₀ t := by
  intro t ht
  unfold execCipherRequest at ht
  repeat' first
    | (with_reducible obtain rfl := Host.Outcome.next.inj ht)
    | split at ht
    | dsimp only at ht
  all_goals
    repeat' first
      | exact Sub.of hW rfl | exact .inl (Sub.of hW rfl) | with_reducible exact .inr rfl
      | exact .inr (FencesStay.refl _) | exact .inr (by dsimp only) | exact .inr rfl
      | with_reducible exact (fun h => h : _ = true → _) | (dsimp only; exact (fun h => h : _ = true → _))
      | exact (fun h => h : _ = true → _)
      | with_reducible first
          | exact hE | apply answerCipher_evolves | apply onSlot_evolves | apply state_onCip_evolves
          | apply dispatchOp_evolves | refine Evolves.ite (fun _ => ?_) (fun _ => ?_)
      | dsimp only | split
      | with_reducible first
          | refine Evolves.fst_of (by assumption) ?_ | refine Evolves.snd_of (by assumption) ?_

theorem execCipherSegmentDone_evolves {lane : Fin 64} {ok : Bool} {ps : List Part} {s₀ s : State} (hE : Evolves ps s₀ s)
    (hW : Sub [.events, .fences, .counters, .sampling, .controllers, .namespaces, .commands, .contexts, .chains, .hbm,
      .layoutWork, .ciphers, .jobs, .driveSlots, .functions, .hostQueues, .leash, .replicas, .regs, .regPrt,
      .regCip, .regRed, .out] ps) :
    ∀ t, execCipherSegmentDone lane ok s = .next t → Evolves ps s₀ t := by
  intro t ht
  unfold execCipherSegmentDone at ht
  repeat' first
    | (with_reducible obtain rfl := Host.Outcome.next.inj ht)
    | split at ht
    | dsimp only at ht
  all_goals
    repeat' first
      | exact Sub.of hW rfl | exact .inl (Sub.of hW rfl) | with_reducible exact .inr rfl
      | exact .inr (FencesStay.refl _) | exact .inr (by dsimp only) | exact .inr rfl
      | with_reducible exact (fun h => h : _ = true → _) | (dsimp only; exact (fun h => h : _ = true → _))
      | exact (fun h => h : _ = true → _)
      | with_reducible first
          | exact hE | apply fenceCipherLane_evolves | apply state_onCip_evolves | apply cipherDone_evolves
          | apply answerCipher_evolves | refine Evolves.ite (fun _ => ?_) (fun _ => ?_)
      | dsimp only | split
      | with_reducible first
          | refine Evolves.fst_of (by assumption) ?_ | refine Evolves.snd_of (by assumption) ?_

theorem execLaneKnownAnswerTest_evolves {lane : Fin 64} {ok : Bool} {ps : List Part} {s₀ s : State} (hE : Evolves ps s₀ s)
    (hW : Sub [.events, .fences, .counters, .sampling, .controllers, .namespaces, .commands, .contexts, .ciphers,
      .driveSlots, .functions, .hostQueues, .leash, .replicas, .regs, .regPrt, .regRed, .out] ps) :
    ∀ t, execLaneKnownAnswerTest lane ok s = .next t → Evolves ps s₀ t := by
  intro t ht
  unfold execLaneKnownAnswerTest at ht
  repeat' first
    | (with_reducible obtain rfl := Host.Outcome.next.inj ht)
    | split at ht
    | dsimp only at ht
  all_goals
    repeat' first
      | exact Sub.of hW rfl
      | with_reducible first
          | exact hE | apply fenceCipherLane_evolves | refine Evolves.ite (fun _ => ?_) (fun _ => ?_)
      | dsimp only | split

theorem generateKey_evolves {o : KeyOrder} {ps : List Part} {s₀ s : State} (hE : Evolves ps s₀ s)
    (hW : Sub [.keys, .free] ps) :
    Evolves ps s₀ (generateKey o s).1 := by
  unfold generateKey
  repeat' first
    | exact Sub.of hW rfl
    | with_reducible first
        | exact hE | apply randomKey_evolves | apply storeKey_evolves | refine Evolves.ite (fun _ => ?_) (fun _ => ?_)
    | dsimp only | split
    | with_reducible first
        | refine Evolves.fst_of (by assumption) ?_ | refine Evolves.snd_of (by assumption) ?_

theorem importData_evolves {o : KeyOrder} {ps : List Part} {s₀ s : State} (hE : Evolves ps s₀ s)
    (hW : Sub [.keys] ps) :
    Evolves ps s₀ (importData o s).1 := by
  unfold importData
  repeat' first
    | exact Sub.of hW rfl
    | with_reducible first
        | exact hE | apply onSlot_evolves | apply storeKey_evolves | refine Evolves.ite (fun _ => ?_) (fun _ => ?_)
    | dsimp only | split
    | with_reducible first
        | refine Evolves.fst_of (by assumption) ?_ | refine Evolves.snd_of (by assumption) ?_

theorem importKey_evolves {o : KeyOrder} {ps : List Part} {s₀ s : State} (hE : Evolves ps s₀ s)
    (hW : Sub [.events, .counters, .sampling, .keys, .keyOrders, .trust, .regs, .regCip] ps) :
    Evolves ps s₀ (importKey o s).1 := by
  unfold importKey
  repeat' first
    | exact Sub.of hW rfl
    | with_reducible first
        | exact hE | apply importData_evolves | apply storeKey_evolves | apply trustChange_evolves
        | apply escrowKeys_evolves | refine Evolves.ite (fun _ => ?_) (fun _ => ?_)
    | dsimp only | split
    | with_reducible first
        | refine Evolves.fst_of (by assumption) ?_ | refine Evolves.snd_of (by assumption) ?_

theorem exportKey_evolves {o : KeyOrder} {ps : List Part} {s₀ s : State} (hE : Evolves ps s₀ s)
    (hW : Sub [.keyOrders] ps) :
    Evolves ps s₀ (exportKey o s).1 := by
  unfold exportKey
  repeat' first
    | exact Sub.of hW rfl | exact .inl (Sub.of hW rfl) | with_reducible exact .inr rfl
    | exact .inr (FencesStay.refl _) | exact .inr (by dsimp only) | exact .inr rfl
    | with_reducible exact (fun h => h : _ = true → _) | (dsimp only; exact (fun h => h : _ = true → _))
    | exact (fun h => h : _ = true → _)
    | with_reducible first
        | exact hE | apply state_onCip_evolves | refine Evolves.ite (fun _ => ?_) (fun _ => ?_)
    | dsimp only | split
    | with_reducible first
        | refine Evolves.fst_of (by assumption) ?_ | refine Evolves.snd_of (by assumption) ?_

theorem runKeyOrder_evolves {o : KeyOrder} {ps : List Part} {s₀ s : State} (hE : Evolves ps s₀ s)
    (hW : Sub [.events, .counters, .sampling, .keys, .keyOrders, .trust, .regs, .regCip, .free] ps) :
    Evolves ps s₀ (runKeyOrder o s).1 := by
  unfold runKeyOrder
  repeat' first
    | exact Sub.of hW rfl
    | with_reducible first
        | exact hE | apply generateKey_evolves | apply importKey_evolves | apply exportKey_evolves
        | apply escrowKeys_evolves
    | dsimp only | split
    | with_reducible first
        | refine Evolves.fst_of (by assumption) ?_ | refine Evolves.snd_of (by assumption) ?_

theorem execKeyOrderDone_evolves  {ps : List Part} {s₀ s : State} (hE : Evolves ps s₀ s)
    (hW : Sub [.events, .counters, .sampling, .keys, .keyOrders, .trust, .regs, .regCip, .free] ps) :
    ∀ t, execKeyOrderDone s = .next t → Evolves ps s₀ t := by
  intro t ht
  unfold execKeyOrderDone at ht
  repeat' first
    | (with_reducible obtain rfl := Host.Outcome.next.inj ht)
    | split at ht
    | dsimp only at ht
  all_goals
    repeat' first
      | exact Sub.of hW rfl | exact .inl (Sub.of hW rfl) | with_reducible exact .inr rfl
      | exact .inr (FencesStay.refl _) | exact .inr (by dsimp only) | exact .inr rfl
      | with_reducible exact (fun h => h : _ = true → _) | (dsimp only; exact (fun h => h : _ = true → _))
      | exact (fun h => h : _ = true → _)
      | with_reducible first
          | exact hE | apply runKeyOrder_evolves | apply state_onCip_evolves | apply state_setFld_evolves
          | apply emit_evolves | refine Evolves.ite (fun _ => ?_) (fun _ => ?_)
      | dsimp only | split
      | with_reducible first
          | refine Evolves.fst_of (by assumption) ?_ | refine Evolves.snd_of (by assumption) ?_

end Sys2Proof.Machine
end

