-- ==== Sys2Proof/Laws/FrameFences.lean ====
section
/-! SUPPORT. What the operations of Machine/Fences.lean change at most: one lemma each. -/

namespace Sys2Proof.Machine

set_option linter.unusedTactic false
set_option linter.unreachableTactic false
set_option linter.unusedVariables false

theorem fenceCore_evolves {core : Nat} {onto : Nat} {reason : Nat} {ps : List Part} {s₀ s : State} (hE : Evolves ps s₀ s)
    (hW : Sub [.events, .fences, .cores, .counters, .sampling, .controllers, .namespaces, .commands, .contexts,
      .driveSlots, .functions, .hostQueues, .leash, .replicas, .regs, .regPrt, .regRed, .out] ps) :
    Evolves ps s₀ (fenceCore core onto reason s) := by
  unfold fenceCore
  repeat' first
    | exact Sub.of hW rfl | exact .inl (Sub.of hW rfl) | with_reducible exact .inr rfl
    | exact .inr (FencesStay.refl _) | exact .inr (by dsimp only) | exact .inr rfl
    | with_reducible exact (fun h => h : _ = true → _) | (dsimp only; exact (fun h => h : _ = true → _))
    | exact (fun h => h : _ = true → _) | exact rfl | exact Nat.le_refl _
    | with_reducible first
        | exact hE | apply fenceUnit_evolves | apply state_onCtl_evolves
        | refine Evolves.ite (fun _ => ?_) (fun _ => ?_) | refine Evolves.foldl ?_ ?_ | refine Evolves.foldl_fst ?_ ?_
        | refine Evolves.foldl_snd ?_ ?_ | assumption
    | intro _ | dsimp only | split

theorem refetch_evolves {i : Nat} {ps : List Part} {s₀ s : State} (hE : Evolves ps s₀ s)
    (hW : Sub [.counters, .sampling, .commands, .contexts, .layoutWork, .ciphers, .buffer, .hostReads, .leash,
      .replicas, .regs, .regSwc, .out] ps) :
    Evolves ps s₀ (refetch s i) := by
  unfold refetch
  repeat' first
    | exact Sub.of hW rfl
    | with_reducible first
        | exact hE | apply redo_evolves | apply releaseCells_evolves | apply dropLanes_evolves
        | apply forgetEntry_evolves | apply fetchData_evolves | apply onEntry_evolves
    | dsimp only

theorem fenceBank_evolves {bank : Nat} {reason : Nat} {ps : List Part} {s₀ s : State} (hE : Evolves ps s₀ s)
    (hW : Sub [.events, .fences, .counters, .sampling, .controllers, .namespaces, .commands, .contexts, .layoutWork,
      .ciphers, .driveSlots, .buffer, .traffic, .functions, .hostReads, .hostQueues, .leash, .replicas, .regs,
      .regPrt, .regSwc, .regRed, .out] ps) :
    Evolves ps s₀ (fenceBank bank reason s) := by
  unfold fenceBank
  repeat' first
    | exact Sub.of hW rfl
    | with_reducible first
        | exact hE | apply bankFenced_evolves | apply fenceUnit_evolves | apply refetch_evolves
        | refine Evolves.foldl ?_ ?_ | refine Evolves.foldl_fst ?_ ?_ | refine Evolves.foldl_snd ?_ ?_ | assumption
    | intro _ | dsimp only

theorem fenceAny_evolves {block : Nat} {unit : Nat} {reason : Nat} {ps : List Part} {s₀ s : State} (hE : Evolves ps s₀ s)
    (hW : Sub [.events, .fences, .cores, .counters, .sampling, .controllers, .namespaces, .commands, .powerState,
      .contexts, .hbm, .mapping, .journal, .layoutWork, .ciphers, .storeWrites, .drivePorts, .driveSlots,
      .buffer, .traffic, .functions, .hostReads, .hostQueues, .leash, .replicas, .legs, .regs, .regPrt,
      .regSwc, .regLay, .regPwr, .regRed, .out] ps) :
    Evolves ps s₀ (fenceAny block unit reason s) := by
  unfold fenceAny
  repeat' first
    | exact Sub.of hW rfl
    | with_reducible first
        | exact hE | apply fenceCore_evolves | apply fenceBank_evolves | apply fenceLayoutLane_evolves
        | apply fenceRootPort_evolves | apply fenceCipherLane_evolves | apply fenceLeg_evolves
        | refine Evolves.ite (fun _ => ?_) (fun _ => ?_)
    | dsimp only | split
    | with_reducible first
        | refine Evolves.fst_of (by assumption) ?_ | refine Evolves.snd_of (by assumption) ?_

theorem execPrefixFenceOrder_evolves {path : Fin 5} {session : Nat} {block : Fin 16} {unit : Nat} {ps : List Part} {s₀ s : State} (hE : Evolves ps s₀ s)
    (hW : Sub [.events, .fences, .sessions, .marks, .cores, .counters, .sampling, .controllers, .namespaces, .commands,
      .powerState, .contexts, .hbm, .mapping, .journal, .layoutWork, .ciphers, .storeWrites, .drivePorts,
      .driveSlots, .buffer, .traffic, .functions, .hostReads, .hostQueues, .leash, .replicas, .legs, .regs,
      .regCtl, .regPrt, .regSwc, .regLay, .regPwr, .regRed, .out] ps) :
    ∀ t, execPrefixFenceOrder path session block unit s = .next t → Evolves ps s₀ t := by
  intro t ht
  unfold execPrefixFenceOrder at ht
  repeat' first
    | (with_reducible obtain rfl := Host.Outcome.next.inj ht)
    | split at ht
    | dsimp only at ht
  all_goals
    repeat' first
      | exact Sub.of hW rfl
      | with_reducible first
          | exact hE | apply writeGate_evolves | apply emit_evolves | apply fenceAny_evolves
          | refine Evolves.ite (fun _ => ?_) (fun _ => ?_)
      | dsimp only | split
      | with_reducible first
          | refine Evolves.fst_of (by assumption) ?_ | refine Evolves.snd_of (by assumption) ?_

theorem repeatOrder_evolves {request : Option (Req × Nat)} {ps : List Part} {s₀ s : State} (hE : Evolves ps s₀ s)
    (hW : Sub [.sessions, .bone, .regs, .regCtl, .out] ps) :
    Evolves ps s₀ (repeatOrder request s) := by
  unfold repeatOrder
  repeat' first
    | exact Sub.of hW rfl
    | with_reducible first
        | exact hE | apply receive_evolves | apply respond_evolves | assumption
    | intro _ | dsimp only | split
    | with_reducible first
        | refine Evolves.fst_of (by assumption) ?_ | refine Evolves.snd_of (by assumption) ?_

theorem execUnitFenced_evolves {block : Fin 16} {unit : Nat} {reason : Nat} {request : Option (Req × Nat)} {ps : List Part} {s₀ s : State} (hE : Evolves ps s₀ s)
    (hW : Sub [.events, .fences, .sessions, .bone, .cores, .counters, .sampling, .controllers, .namespaces, .commands,
      .powerState, .contexts, .hbm, .mapping, .journal, .layoutWork, .ciphers, .storeWrites, .drivePorts,
      .driveSlots, .buffer, .traffic, .functions, .hostReads, .hostQueues, .leash, .replicas, .legs, .regs,
      .regCtl, .regPrt, .regSwc, .regLay, .regPwr, .regRed, .out] ps) :
    ∀ t, execUnitFenced block unit reason request s = .next t → Evolves ps s₀ t := by
  intro t ht
  unfold execUnitFenced at ht
  repeat' first
    | (with_reducible obtain rfl := Host.Outcome.next.inj ht)
    | split at ht
    | dsimp only at ht
  all_goals
    repeat' first
      | exact Sub.of hW rfl
      | with_reducible first
          | exact hE | apply fenceAny_evolves | apply repeatOrder_evolves
      | dsimp only | split

theorem execControlCoreWatchdog_evolves {core : Fin 16} {onto : Fin 16} {request : Option (Req × Nat)} {ps : List Part} {s₀ s : State} (hE : Evolves ps s₀ s)
    (hW : Sub [.events, .fences, .sessions, .bone, .cores, .counters, .sampling, .controllers, .namespaces, .commands,
      .contexts, .driveSlots, .functions, .hostQueues, .leash, .replicas, .regs, .regCtl, .regPrt, .regRed,
      .out] ps) :
    ∀ t, execControlCoreWatchdog core onto request s = .next t → Evolves ps s₀ t := by
  intro t ht
  unfold execControlCoreWatchdog at ht
  repeat' first
    | (with_reducible obtain rfl := Host.Outcome.next.inj ht)
    | split at ht
    | dsimp only at ht
  all_goals
    repeat' first
      | exact Sub.of hW rfl
      | with_reducible first
          | exact hE | apply repeatOrder_evolves | apply fenceCore_evolves
          | refine Evolves.ite (fun _ => ?_) (fun _ => ?_)
      | dsimp only | split

end Sys2Proof.Machine
end

