-- ==== Sys2Proof/Laws/FrameHostEndpoint.lean ====
section
/-! SUPPORT. What the operations of Machine/HostEndpoint.lean change at most: one lemma each. -/

namespace Sys2Proof.Machine

set_option linter.unusedTactic false
set_option linter.unreachableTactic false
set_option linter.unusedVariables false

theorem bmeEndEntry_evolves {i : Nat} {ps : List Part} {s₀ s : State} (hE : Evolves ps s₀ s)
    (hW : Sub [.events, .counters, .sampling, .commands, .powerState, .contexts, .mapping, .journal, .layoutWork,
      .ciphers, .drivePorts, .buffer, .regs, .regSwc, .out] ps) :
    Evolves ps s₀ (bmeEndEntry s i) := by
  unfold bmeEndEntry
  repeat' first
    | exact Sub.of hW rfl
    | with_reducible first
        | exact hE | apply onEntry_evolves | apply freeEntry_evolves | apply releaseAllocs_evolves
        | refine Evolves.ite (fun _ => ?_) (fun _ => ?_)
    | dsimp only | split

theorem configureFn_evolves {k : Nat} {c : HostCfg} {ps : List Part} {s₀ s : State} (hE : Evolves ps s₀ s)
    (hW : Sub [.functions] ps) :
    Evolves ps s₀ (configureFn k c s) := by
  unfold configureFn
  repeat' first
    | exact Sub.of hW rfl
    | with_reducible first
        | exact hE | apply onFn_evolves
    | dsimp only

theorem configureShared_evolves {c : HostCfg} {ps : List Part} {s₀ s : State} (hE : Evolves ps s₀ s)
    (hW : Sub [.functions] ps) :
    Evolves ps s₀ (configureShared c s) := by
  unfold configureShared
  repeat' first
    | exact Sub.of hW rfl | exact .inl (Sub.of hW rfl) | with_reducible exact .inr rfl
    | exact .inr (FencesStay.refl _) | exact .inr (by dsimp only) | exact .inr rfl
    | with_reducible exact (fun h => h : _ = true → _) | (dsimp only; exact (fun h => h : _ = true → _))
    | exact (fun h => h : _ = true → _)
    | with_reducible first
        | exact hE | apply state_onHep_evolves
    | dsimp only

theorem readFails_evolves {r : HostRead} {ps : List Part} {s₀ s : State} (hE : Evolves ps s₀ s)
    (hW : Sub [.events, .counters, .sampling, .commands, .mapping, .journal, .layoutWork, .drivePorts, .hostReads, .out] ps) :
    Evolves ps s₀ (readFails r s) := by
  unfold readFails
  repeat' first
    | exact Sub.of hW rfl | exact .inl (Sub.of hW rfl) | with_reducible exact .inr rfl
    | exact .inr (FencesStay.refl _) | exact .inr (by dsimp only) | exact .inr rfl
    | with_reducible exact (fun h => h : _ = true → _) | (dsimp only; exact (fun h => h : _ = true → _))
    | exact (fun h => h : _ = true → _)
    | with_reducible first
        | exact hE | apply state_onHep_evolves | apply toPosting_evolves | apply onEntry_evolves
        | apply releaseAllocs_evolves | refine Evolves.ite (fun _ => ?_) (fun _ => ?_)
    | dsimp only | split
    | with_reducible first
        | refine Evolves.fst_of (by assumption) ?_ | refine Evolves.snd_of (by assumption) ?_

theorem onTag_evolves {t : Nat} {f : HepTag → HepTag} {ps : List Part} {s₀ s : State} (hE : Evolves ps s₀ s)
    (hW : Sub [.hostReads] ps) :
    Evolves ps s₀ (onTag t f s) := by
  unfold onTag
  repeat' first
    | exact Sub.of hW rfl | exact .inl (Sub.of hW rfl) | with_reducible exact .inr rfl
    | exact .inr (FencesStay.refl _) | exact .inr (by dsimp only) | exact .inr rfl
    | with_reducible exact (fun h => h : _ = true → _) | (dsimp only; exact (fun h => h : _ = true → _))
    | exact (fun h => h : _ = true → _)
    | with_reducible first
        | exact hE | apply state_onHep_evolves
    | dsimp only

theorem cplError_evolves {t : Nat} {code : Nat} {last : Bool} {ps : List Part} {s₀ s : State} (hE : Evolves ps s₀ s)
    (hW : Sub [.events, .counters, .sampling, .commands, .mapping, .journal, .layoutWork, .drivePorts, .hostReads,
      .regs, .regHep, .out] ps) :
    Evolves ps s₀ (cplError t code last s) := by
  unfold cplError
  repeat' first
    | exact Sub.of hW rfl
    | with_reducible first
        | exact hE | apply state_bump_evolves | apply readFails_evolves | apply emit_evolves
        | apply state_send_evolves | apply freeTag_evolves | apply onTag_evolves
        | refine Evolves.ite (fun _ => ?_) (fun _ => ?_)
    | dsimp only | split

theorem createFnCtrl_evolves {k : Nat} {ps : List Part} {s₀ s : State} (hE : Evolves ps s₀ s)
    (hW : Sub [.controllers] ps) :
    Evolves ps s₀ (createFnCtrl k s) := by
  unfold createFnCtrl
  repeat' first
    | exact Sub.of hW rfl
    | with_reducible first
        | exact hE | apply onCtrl_evolves | refine Evolves.ite (fun _ => ?_) (fun _ => ?_)
    | dsimp only | split

theorem drainCq_evolves {cntlid : Nat} {cqid : Nat} {ps : List Part} {s₀ s : State} (hE : Evolves ps s₀ s)
    (hW : Sub [.functions, .hostQueues, .out] ps) :
    Evolves ps s₀ (drainCq cntlid cqid s) := by
  unfold drainCq
  repeat' first
    | exact Sub.of hW rfl
    | with_reducible first
        | exact hE | apply hostPost_evolves | apply onCq_evolves | refine Evolves.foldl ?_ ?_
        | refine Evolves.foldl_fst ?_ ?_ | refine Evolves.foldl_snd ?_ ?_ | assumption
    | intro _ | dsimp only

theorem dropHeLink_evolves  {ps : List Part} {s₀ s : State} (hE : Evolves ps s₀ s)
    (hW : Sub [.regs, .regHep] ps) :
    Evolves ps s₀ (dropHeLink s) := by
  unfold dropHeLink
  repeat' first
    | exact Sub.of hW rfl
    | with_reducible first
        | exact hE | apply state_setFld_evolves
    | dsimp only

theorem endFnCtrl_evolves {k : Nat} {ps : List Part} {s₀ s : State} (hE : Evolves ps s₀ s)
    (hW : Sub [.events, .counters, .sampling, .controllers, .queues, .commands, .powerState, .contexts, .contextCache,
      .regions, .mapping, .journal, .layoutWork, .ciphers, .drivePorts, .buffer, .hostQueues, .replicas, .regs,
      .regSwc, .out] ps) :
    Evolves ps s₀ (endFnCtrl k s) := by
  unfold endFnCtrl
  repeat' first
    | exact Sub.of hW rfl | exact .inl (Sub.of hW rfl) | with_reducible exact .inr rfl
    | exact .inr (FencesStay.refl _) | exact .inr (by dsimp only) | exact .inr rfl
    | with_reducible exact (fun h => h : _ = true → _) | (dsimp only; exact (fun h => h : _ = true → _))
    | exact (fun h => h : _ = true → _)
    | with_reducible first
        | exact hE | apply deleteIoQueues_evolves | apply endCommands_evolves | apply testReset_evolves
        | apply state_onHep_evolves | apply state_onCmd_evolves | apply ctrlReset_evolves | apply onCtrl_evolves
        | refine Evolves.ite (fun _ => ?_) (fun _ => ?_)
    | dsimp only | split

theorem execHepPwinCommit_evolves {path : Fin 5} {session : Nat} {value : Word} {ps : List Part} {s₀ s : State} (hE : Evolves ps s₀ s)
    (hW : Sub [.events, .sessions, .marks, .counters, .sampling, .peerTable, .regs, .regCtl, .regHep, .out] ps) :
    ∀ t, execHepPwinCommit path session value s = .next t → Evolves ps s₀ t := by
  intro t ht
  unfold execHepPwinCommit at ht
  repeat' first
    | (with_reducible obtain rfl := Host.Outcome.next.inj ht)
    | split at ht
    | dsimp only at ht
  all_goals
    repeat' first
      | exact Sub.of hW rfl | exact .inl (Sub.of hW rfl) | with_reducible exact .inr rfl
      | exact .inr (FencesStay.refl _) | exact .inr (by dsimp only) | exact .inr rfl
      | with_reducible exact (fun h => h : _ = true → _) | (dsimp only; exact (fun h => h : _ = true → _))
      | exact (fun h => h : _ = true → _)
      | with_reducible first
          | exact hE | apply writeGate_evolves | apply state_setFld_evolves | apply state_onHep_evolves
          | refine Evolves.ite (fun _ => ?_) (fun _ => ?_)
      | dsimp only | split
      | with_reducible first
          | refine Evolves.fst_of (by assumption) ?_ | refine Evolves.snd_of (by assumption) ?_

theorem execHepPptRead_evolves {path : Fin 5} {session : Nat} {value : Word} {ps : List Part} {s₀ s : State} (hE : Evolves ps s₀ s)
    (hW : Sub [.events, .sessions, .marks, .counters, .sampling, .regs, .regCtl, .regHep, .out] ps) :
    ∀ t, execHepPptRead path session value s = .next t → Evolves ps s₀ t := by
  intro t ht
  unfold execHepPptRead at ht
  repeat' first
    | (with_reducible obtain rfl := Host.Outcome.next.inj ht)
    | split at ht
    | dsimp only at ht
  all_goals
    repeat' first
      | exact Sub.of hW rfl
      | with_reducible first
          | exact hE | apply writeGate_evolves | apply state_setFld_evolves
          | refine Evolves.ite (fun _ => ?_) (fun _ => ?_)
      | dsimp only | split
      | with_reducible first
          | refine Evolves.fst_of (by assumption) ?_ | refine Evolves.snd_of (by assumption) ?_ | apply Evolves.regsWord

theorem execHepPptWrite_evolves {path : Fin 5} {session : Nat} {value : Word} {ps : List Part} {s₀ s : State} (hE : Evolves ps s₀ s)
    (hW : Sub [.events, .sessions, .marks, .counters, .sampling, .peerTable, .regs, .regCtl, .regHep, .out] ps) :
    ∀ t, execHepPptWrite path session value s = .next t → Evolves ps s₀ t := by
  intro t ht
  unfold execHepPptWrite at ht
  repeat' first
    | (with_reducible obtain rfl := Host.Outcome.next.inj ht)
    | split at ht
    | dsimp only at ht
  all_goals
    repeat' first
      | exact Sub.of hW rfl | exact .inl (Sub.of hW rfl) | with_reducible exact .inr rfl
      | exact .inr (FencesStay.refl _) | exact .inr (by dsimp only) | exact .inr rfl
      | with_reducible exact (fun h => h : _ = true → _) | (dsimp only; exact (fun h => h : _ = true → _))
      | exact (fun h => h : _ = true → _)
      | with_reducible first
          | exact hE | apply writeGate_evolves | apply state_setFld_evolves | apply state_onHep_evolves
          | refine Evolves.ite (fun _ => ?_) (fun _ => ?_)
      | dsimp only | split
      | with_reducible first
          | refine Evolves.fst_of (by assumption) ?_ | refine Evolves.snd_of (by assumption) ?_

theorem runCreateIoSubmissionQueue_evolves {a : Admin} {qid : Nat} {size : Nat} {cqid : Nat} {contiguous : Bool} {base : Nat} {ps : List Part} {s₀ s : State} (hE : Evolves ps s₀ s)
    (hW : Sub [.queues, .contexts, .functions, .hostQueues, .leash, .replicas, .out] ps) :
    Evolves ps s₀ (runCreateIoSubmissionQueue a qid size cqid contiguous base s) := by
  unfold runCreateIoSubmissionQueue
  repeat' first
    | exact Sub.of hW rfl | exact .inl (Sub.of hW rfl) | with_reducible exact .inr rfl
    | exact .inr (FencesStay.refl _) | exact .inr (by dsimp only) | exact .inr rfl
    | with_reducible exact (fun h => h : _ = true → _) | (dsimp only; exact (fun h => h : _ = true → _))
    | exact (fun h => h : _ = true → _)
    | with_reducible first
        | exact hE | apply adminCommand_evolves | apply postAdmin_evolves | apply state_onCmd_evolves
        | apply state_onHep_evolves | refine Evolves.ite (fun _ => ?_) (fun _ => ?_) | assumption
    | intro _ | dsimp only | split
    | with_reducible first
        | refine Evolves.fst_of (by assumption) ?_ | refine Evolves.snd_of (by assumption) ?_

theorem execCreateIoSubmissionQueue_evolves {a : Admin} {qid : Nat} {size : Nat} {cqid : Nat} {contiguous : Bool} {base : Nat} {ps : List Part} {s₀ s : State} (hE : Evolves ps s₀ s)
    (hW : Sub [.queues, .powerState, .contexts, .functions, .hostQueues, .leash, .replicas, .heldCommands, .out] ps) :
    ∀ t, execCreateIoSubmissionQueue a qid size cqid contiguous base s = .next t → Evolves ps s₀ t := by
  intro t ht
  unfold execCreateIoSubmissionQueue at ht
  repeat' first
    | (with_reducible obtain rfl := Host.Outcome.next.inj ht)
    | split at ht
    | dsimp only at ht
  all_goals
    repeat' first
      | exact Sub.of hW rfl
      | with_reducible first
          | exact hE | apply hold_evolves | apply runCreateIoSubmissionQueue_evolves | assumption
      | intro _ | dsimp only

theorem runCreateIoCompletionQueue_evolves {a : Admin} {qid : Nat} {size : Nat} {vector : Nat} {interrupts : Bool} {contiguous : Bool} {base : Nat} {ps : List Part} {s₀ s : State} (hE : Evolves ps s₀ s)
    (hW : Sub [.contexts, .functions, .hostQueues, .leash, .replicas, .out] ps) :
    Evolves ps s₀ (runCreateIoCompletionQueue a qid size vector interrupts contiguous base s) := by
  unfold runCreateIoCompletionQueue
  repeat' first
    | exact Sub.of hW rfl
    | with_reducible first
        | exact hE | apply adminCommand_evolves | apply postAdmin_evolves | apply onCq_evolves
        | refine Evolves.ite (fun _ => ?_) (fun _ => ?_) | assumption
    | intro _ | dsimp only | split
    | with_reducible first
        | refine Evolves.fst_of (by assumption) ?_ | refine Evolves.snd_of (by assumption) ?_

theorem execCreateIoCompletionQueue_evolves {a : Admin} {qid : Nat} {size : Nat} {vector : Nat} {interrupts : Bool} {contiguous : Bool} {base : Nat} {ps : List Part} {s₀ s : State} (hE : Evolves ps s₀ s)
    (hW : Sub [.powerState, .contexts, .functions, .hostQueues, .leash, .replicas, .heldCommands, .out] ps) :
    ∀ t, execCreateIoCompletionQueue a qid size vector interrupts contiguous base s = .next t → Evolves ps s₀ t := by
  intro t ht
  unfold execCreateIoCompletionQueue at ht
  repeat' first
    | (with_reducible obtain rfl := Host.Outcome.next.inj ht)
    | split at ht
    | dsimp only at ht
  all_goals
    repeat' first
      | exact Sub.of hW rfl
      | with_reducible first
          | exact hE | apply hold_evolves | apply runCreateIoCompletionQueue_evolves | assumption
      | intro _ | dsimp only

theorem execHeLinkUp_evolves {speed : Nat} {width : Nat} {flit : Bool} {cfg : HostCfg} {ps : List Part} {s₀ s : State} (hE : Evolves ps s₀ s)
    (hW : Sub [.events, .counters, .sampling, .controllers, .functions, .regs, .regHep] ps) :
    ∀ t, execHeLinkUp speed width flit cfg s = .next t → Evolves ps s₀ t := by
  intro t ht
  unfold execHeLinkUp at ht
  repeat' first
    | (with_reducible obtain rfl := Host.Outcome.next.inj ht)
    | split at ht
    | dsimp only at ht
  all_goals
    repeat' first
      | exact Sub.of hW rfl
      | with_reducible first
          | exact hE | apply state_setFld_evolves | apply createFnCtrl_evolves | apply configureShared_evolves
          | apply configureFn_evolves | apply emit_evolves | refine Evolves.ite (fun _ => ?_) (fun _ => ?_)
      | dsimp only | split

theorem quarantine_evolves {k : Nat} {ps : List Part} {s₀ s : State} (hE : Evolves ps s₀ s)
    (hW : Sub [.hostReads] ps) :
    Evolves ps s₀ (quarantine k s) := by
  unfold quarantine
  repeat' first
    | exact Sub.of hW rfl | exact .inl (Sub.of hW rfl) | with_reducible exact .inr rfl
    | exact .inr (FencesStay.refl _) | exact .inr (by dsimp only) | exact .inr rfl
    | with_reducible exact (fun h => h : _ = true → _) | (dsimp only; exact (fun h => h : _ = true → _))
    | exact (fun h => h : _ = true → _)
    | with_reducible first
        | exact hE | apply state_onHep_evolves | refine Evolves.ite (fun _ => ?_) (fun _ => ?_)
    | dsimp only | split

theorem resetFn_evolves {flr : Bool} {k : Nat} {ps : List Part} {s₀ s : State} (hE : Evolves ps s₀ s)
    (hW : Sub [.events, .counters, .sampling, .controllers, .queues, .commands, .powerState, .contexts, .contextCache,
      .regions, .mapping, .journal, .layoutWork, .ciphers, .drivePorts, .buffer, .functions, .hostReads,
      .hostQueues, .replicas, .regs, .regSwc, .out] ps) :
    Evolves ps s₀ (resetFn flr k s) := by
  unfold resetFn
  repeat' first
    | exact Sub.of hW rfl | exact .inl (Sub.of hW rfl) | with_reducible exact .inr rfl
    | exact .inr (FencesStay.refl _) | exact .inr (by dsimp only) | exact .inr rfl
    | with_reducible exact (fun h => h : _ = true → _) | (dsimp only; exact (fun h => h : _ = true → _))
    | exact (fun h => h : _ = true → _)
    | with_reducible first
        | exact hE | apply state_onHep_evolves | apply onFn_evolves | apply quarantine_evolves
        | apply endFnCtrl_evolves | refine Evolves.ite (fun _ => ?_) (fun _ => ?_)
    | dsimp only | split

theorem removeVfs_evolves  {ps : List Part} {s₀ s : State} (hE : Evolves ps s₀ s)
    (hW : Sub [.events, .counters, .sampling, .controllers, .queues, .commands, .powerState, .contexts, .contextCache,
      .regions, .mapping, .journal, .layoutWork, .ciphers, .drivePorts, .buffer, .functions, .hostReads,
      .hostQueues, .replicas, .regs, .regSwc, .out] ps) :
    Evolves ps s₀ (removeVfs s) := by
  unfold removeVfs
  repeat' first
    | exact Sub.of hW rfl | exact .inl (Sub.of hW rfl) | with_reducible exact .inr rfl
    | exact .inr (FencesStay.refl _) | exact .inr (by dsimp only) | exact .inr rfl
    | with_reducible exact (fun h => h : _ = true → _) | (dsimp only; exact (fun h => h : _ = true → _))
    | exact (fun h => h : _ = true → _)
    | with_reducible first
        | exact hE | apply resetFn_evolves | apply state_onCmd_evolves | apply state_onHep_evolves
        | refine Evolves.ite (fun _ => ?_) (fun _ => ?_) | refine Evolves.foldl ?_ ?_ | refine Evolves.foldl_fst ?_ ?_
        | refine Evolves.foldl_snd ?_ ?_ | assumption
    | intro _ | dsimp only | split

theorem resetPf0_evolves {flr : Bool} {ps : List Part} {s₀ s : State} (hE : Evolves ps s₀ s)
    (hW : Sub [.events, .paths, .bone, .counters, .sampling, .functions] ps) :
    Evolves ps s₀ (resetPf0 flr s) := by
  unfold resetPf0
  repeat' first
    | exact Sub.of hW rfl | exact .inl (Sub.of hW rfl) | with_reducible exact .inr rfl
    | exact .inr (FencesStay.refl _) | exact .inr (by dsimp only) | exact .inr rfl
    | with_reducible exact (fun h => h : _ = true → _) | (dsimp only; exact (fun h => h : _ = true → _))
    | exact (fun h => h : _ = true → _) | exact rfl | exact Nat.le_refl _
    | with_reducible first
        | exact hE | apply state_onCtl_evolves | apply releaseBone_evolves | apply onFn_evolves
        | refine Evolves.ite (fun _ => ?_) (fun _ => ?_)
    | dsimp only | split

theorem resetEndpoint_evolves {kind : Nat} {ps : List Part} {s₀ s : State} (hE : Evolves ps s₀ s)
    (hW : Sub [.events, .paths, .bone, .counters, .sampling, .controllers, .queues, .commands, .powerState, .contexts,
      .contextCache, .regions, .mapping, .journal, .layoutWork, .ciphers, .drivePorts, .buffer, .functions,
      .hostReads, .hostQueues, .replicas, .regs, .regSwc, .out] ps) :
    Evolves ps s₀ (resetEndpoint kind s) := by
  unfold resetEndpoint
  repeat' first
    | exact Sub.of hW rfl
    | with_reducible first
        | exact hE | apply removeVfs_evolves | apply emit_evolves | apply resetPf0_evolves | apply resetFn_evolves
    | dsimp only

theorem execHeLinkDown_evolves  {ps : List Part} {s₀ s : State} (hE : Evolves ps s₀ s)
    (hW : Sub [.events, .paths, .bone, .counters, .sampling, .controllers, .queues, .commands, .powerState, .contexts,
      .contextCache, .regions, .mapping, .journal, .layoutWork, .ciphers, .drivePorts, .buffer, .functions,
      .hostReads, .hostQueues, .replicas, .regs, .regSwc, .regHep, .out] ps) :
    ∀ t, execHeLinkDown s = .next t → Evolves ps s₀ t := by
  intro t ht
  unfold execHeLinkDown at ht
  repeat' first
    | (with_reducible obtain rfl := Host.Outcome.next.inj ht)
    | split at ht
    | dsimp only at ht
  all_goals
    repeat' first
      | exact Sub.of hW rfl
      | with_reducible first
          | exact hE | apply resetEndpoint_evolves | apply emit_evolves | apply state_bump_evolves
          | apply dropHeLink_evolves | refine Evolves.ite (fun _ => ?_) (fun _ => ?_)
      | dsimp only | split

theorem execHeFundamentalReset_evolves  {ps : List Part} {s₀ s : State} (hE : Evolves ps s₀ s)
    (hW : Sub [.events, .paths, .bone, .counters, .sampling, .controllers, .queues, .commands, .powerState, .contexts,
      .contextCache, .regions, .mapping, .journal, .layoutWork, .ciphers, .drivePorts, .buffer, .functions,
      .hostReads, .hostQueues, .replicas, .regs, .regSwc, .regHep, .out] ps) :
    ∀ t, execHeFundamentalReset s = .next t → Evolves ps s₀ t := by
  intro t ht
  unfold execHeFundamentalReset at ht
  repeat' first
    | (with_reducible obtain rfl := Host.Outcome.next.inj ht)
    | split at ht
    | dsimp only at ht
  all_goals
    repeat' first
      | exact Sub.of hW rfl
      | with_reducible first
          | exact hE | apply resetEndpoint_evolves | apply dropHeLink_evolves
      | dsimp only

theorem execHeHotReset_evolves  {ps : List Part} {s₀ s : State} (hE : Evolves ps s₀ s)
    (hW : Sub [.events, .paths, .bone, .counters, .sampling, .controllers, .queues, .commands, .powerState, .contexts,
      .contextCache, .regions, .mapping, .journal, .layoutWork, .ciphers, .drivePorts, .buffer, .functions,
      .hostReads, .hostQueues, .replicas, .regs, .regSwc, .regHep, .out] ps) :
    ∀ t, execHeHotReset s = .next t → Evolves ps s₀ t := by
  intro t ht
  unfold execHeHotReset at ht
  repeat' first
    | (with_reducible obtain rfl := Host.Outcome.next.inj ht)
    | split at ht
    | dsimp only at ht
  all_goals
    repeat' first
      | exact Sub.of hW rfl
      | with_reducible first
          | exact hE | apply resetEndpoint_evolves | apply dropHeLink_evolves
      | dsimp only

theorem execFlrPf1_evolves  {ps : List Part} {s₀ s : State} (hE : Evolves ps s₀ s)
    (hW : Sub [.events, .counters, .sampling, .controllers, .queues, .commands, .powerState, .contexts, .contextCache,
      .regions, .mapping, .journal, .layoutWork, .ciphers, .drivePorts, .buffer, .functions, .hostReads,
      .hostQueues, .replicas, .regs, .regSwc, .out] ps) :
    ∀ t, execFlrPf1 s = .next t → Evolves ps s₀ t := by
  intro t ht
  unfold execFlrPf1 at ht
  repeat' first
    | (with_reducible obtain rfl := Host.Outcome.next.inj ht)
    | split at ht
    | dsimp only at ht
  all_goals
    repeat' first
      | exact Sub.of hW rfl
      | with_reducible first
          | exact hE | apply emit_evolves | apply resetFn_evolves | apply removeVfs_evolves
          | refine Evolves.ite (fun _ => ?_) (fun _ => ?_)
      | dsimp only | split

theorem execFlrVf_evolves {vf : Fin 64} {ps : List Part} {s₀ s : State} (hE : Evolves ps s₀ s)
    (hW : Sub [.events, .counters, .sampling, .controllers, .queues, .commands, .powerState, .contexts, .contextCache,
      .regions, .mapping, .journal, .layoutWork, .ciphers, .drivePorts, .buffer, .functions, .hostReads,
      .hostQueues, .replicas, .regs, .regSwc, .out] ps) :
    ∀ t, execFlrVf vf s = .next t → Evolves ps s₀ t := by
  intro t ht
  unfold execFlrVf at ht
  repeat' first
    | (with_reducible obtain rfl := Host.Outcome.next.inj ht)
    | split at ht
    | dsimp only at ht
  all_goals
    repeat' first
      | exact Sub.of hW rfl
      | with_reducible first
          | exact hE | apply emit_evolves | apply resetFn_evolves | refine Evolves.ite (fun _ => ?_) (fun _ => ?_)
      | dsimp only | split

theorem execFlrPf0_evolves  {ps : List Part} {s₀ s : State} (hE : Evolves ps s₀ s)
    (hW : Sub [.events, .paths, .bone, .counters, .sampling, .functions] ps) :
    ∀ t, execFlrPf0 s = .next t → Evolves ps s₀ t := by
  intro t ht
  unfold execFlrPf0 at ht
  repeat' first
    | (with_reducible obtain rfl := Host.Outcome.next.inj ht)
    | split at ht
    | dsimp only at ht
  all_goals
    repeat' first
      | exact Sub.of hW rfl
      | with_reducible first
          | exact hE | apply emit_evolves | apply resetPf0_evolves | refine Evolves.ite (fun _ => ?_) (fun _ => ?_)
      | dsimp only | split

theorem execFlrComplete_evolves {fn : Fin 66} {cfg : HostCfg} {ps : List Part} {s₀ s : State} (hE : Evolves ps s₀ s)
    (hW : Sub [.functions] ps) :
    ∀ t, execFlrComplete fn cfg s = .next t → Evolves ps s₀ t := by
  intro t ht
  unfold execFlrComplete at ht
  repeat' first
    | (with_reducible obtain rfl := Host.Outcome.next.inj ht)
    | split at ht
    | dsimp only at ht
  all_goals
    repeat' first
      | exact Sub.of hW rfl
      | with_reducible first
          | exact hE | apply configureFn_evolves | apply onFn_evolves | apply configureShared_evolves
          | refine Evolves.ite (fun _ => ?_) (fun _ => ?_)
      | dsimp only | split

theorem execVfEnable_evolves {numVfs : Nat} {enable : Bool} {cfg : HostCfg} {ps : List Part} {s₀ s : State} (hE : Evolves ps s₀ s)
    (hW : Sub [.events, .counters, .sampling, .controllers, .queues, .commands, .powerState, .contexts, .contextCache,
      .regions, .mapping, .journal, .layoutWork, .ciphers, .drivePorts, .buffer, .functions, .hostReads,
      .hostQueues, .replicas, .regs, .regSwc, .out] ps) :
    ∀ t, execVfEnable numVfs enable cfg s = .next t → Evolves ps s₀ t := by
  intro t ht
  unfold execVfEnable at ht
  repeat' first
    | (with_reducible obtain rfl := Host.Outcome.next.inj ht)
    | split at ht
    | dsimp only at ht
  all_goals
    repeat' first
      | exact Sub.of hW rfl | exact .inl (Sub.of hW rfl) | with_reducible exact .inr rfl
      | exact .inr (FencesStay.refl _) | exact .inr (by dsimp only) | exact .inr rfl
      | with_reducible exact (fun h => h : _ = true → _) | (dsimp only; exact (fun h => h : _ = true → _))
      | exact (fun h => h : _ = true → _)
      | with_reducible first
          | exact hE | apply createFnCtrl_evolves | apply configureFn_evolves | apply emit_evolves
          | apply state_onHep_evolves | apply removeVfs_evolves | refine Evolves.ite (fun _ => ?_) (fun _ => ?_)
          | refine Evolves.foldl ?_ ?_ | refine Evolves.foldl_fst ?_ ?_ | refine Evolves.foldl_snd ?_ ?_ | assumption
      | intro _ | dsimp only | split

theorem execBmeCleared_evolves {fn : Fin 65} {ps : List Part} {s₀ s : State} (hE : Evolves ps s₀ s)
    (hW : Sub [.events, .counters, .sampling, .controllers, .commands, .powerState, .contexts, .mapping, .journal,
      .layoutWork, .ciphers, .drivePorts, .buffer, .functions, .hostReads, .regs, .regSwc, .out] ps) :
    ∀ t, execBmeCleared fn s = .next t → Evolves ps s₀ t := by
  intro t ht
  unfold execBmeCleared at ht
  repeat' first
    | (with_reducible obtain rfl := Host.Outcome.next.inj ht)
    | split at ht
    | dsimp only at ht
  all_goals
    repeat' first
      | exact Sub.of hW rfl | exact .inl (Sub.of hW rfl) | with_reducible exact .inr rfl
      | exact .inr (FencesStay.refl _) | exact .inr (by dsimp only) | exact .inr rfl
      | with_reducible exact (fun h => h : _ = true → _) | (dsimp only; exact (fun h => h : _ = true → _))
      | exact (fun h => h : _ = true → _)
      | with_reducible first
          | exact hE | apply onFn_evolves | apply state_onHep_evolves | apply sweepSlots_evolves
          | apply bmeEndEntry_evolves | apply state_onCmd_evolves | apply onCtrl_evolves | apply emit_evolves
          | refine Evolves.ite (fun _ => ?_) (fun _ => ?_) | refine Evolves.foldl ?_ ?_ | refine Evolves.foldl_fst ?_ ?_
          | refine Evolves.foldl_snd ?_ ?_ | assumption
      | intro _ | dsimp only | split

theorem invalidDoorbell_evolves {k : Nat} {ps : List Part} {s₀ s : State} (hE : Evolves ps s₀ s)
    (hW : Sub [.controllers, .contexts, .functions, .hostQueues, .leash, .replicas, .out] ps) :
    Evolves ps s₀ (invalidDoorbell k s) := by
  unfold invalidDoorbell
  repeat' first
    | exact Sub.of hW rfl
    | with_reducible first
        | exact hE | apply notice_evolves
    | dsimp only

theorem fetchEntries_evolves {k : Nat} {key : Nat} {base : Nat} {size : Nat} {x4 : Nat} {x5 : Nat} {x6 : Nat} {ps : List Part} {s₀ x7 : State} (hE : Evolves ps s₀ x7)
    (hW : Sub [.hostReads, .out] ps) :
    Evolves ps s₀ (fetchEntries k key base size x4 x5 x6 x7) := by
  induction x4 generalizing x5 x6 x7 with
  | zero => exact hE
  | succ n ih =>
    unfold fetchEntries
    repeat' first
      | with_reducible exact hE
      | exact Sub.of hW rfl
      | exact .inl (Sub.of hW rfl)
      | with_reducible exact .inr rfl
      | exact .inr (by dsimp only)
      | exact .inr rfl
      | (dsimp only; exact (fun h => h : _ = true → _))
      | exact (fun h => h : _ = true → _)
      | with_reducible exact hW
      | exact List.prefix_append _ _
      | with_reducible apply ih
      | with_reducible apply hostReadRequest_evolves
      | with_reducible refine Evolves.ite (fun _ => ?_) (fun _ => ?_)
      | with_reducible refine Evolves.foldl ?_ ?_
      | intro _
      | dsimp only
      | split
      | with_reducible assumption

theorem execSubmissionQueueDoorbell_evolves {fn : Fin 65} {qid : Nat} {tail : Nat} {ps : List Part} {s₀ s : State} (hE : Evolves ps s₀ s)
    (hW : Sub [.controllers, .powerState, .contexts, .functions, .hostReads, .hostQueues, .leash, .replicas, .out] ps) :
    ∀ t, execSubmissionQueueDoorbell fn qid tail s = .next t → Evolves ps s₀ t := by
  intro t ht
  unfold execSubmissionQueueDoorbell at ht
  repeat' first
    | (with_reducible obtain rfl := Host.Outcome.next.inj ht)
    | split at ht
    | dsimp only at ht
  all_goals
    repeat' first
      | exact Sub.of hW rfl | exact .inl (Sub.of hW rfl) | with_reducible exact .inr rfl
      | exact .inr (FencesStay.refl _) | exact .inr (by dsimp only) | exact .inr rfl
      | with_reducible exact (fun h => h : _ = true → _) | (dsimp only; exact (fun h => h : _ = true → _))
      | exact (fun h => h : _ = true → _)
      | with_reducible first
          | exact hE | apply invalidDoorbell_evolves | apply state_onHep_evolves | apply startExit_evolves
          | apply fetchEntries_evolves | refine Evolves.ite (fun _ => ?_) (fun _ => ?_)
      | dsimp only | split

theorem execCompletionQueueDoorbell_evolves {fn : Fin 65} {qid : Nat} {head : Nat} {ps : List Part} {s₀ s : State} (hE : Evolves ps s₀ s)
    (hW : Sub [.controllers, .contexts, .functions, .hostQueues, .leash, .replicas, .out] ps) :
    ∀ t, execCompletionQueueDoorbell fn qid head s = .next t → Evolves ps s₀ t := by
  intro t ht
  unfold execCompletionQueueDoorbell at ht
  repeat' first
    | (with_reducible obtain rfl := Host.Outcome.next.inj ht)
    | split at ht
    | dsimp only at ht
  all_goals
    repeat' first
      | exact Sub.of hW rfl
      | with_reducible first
          | exact hE | apply invalidDoorbell_evolves | apply drainCq_evolves | apply onCq_evolves
          | refine Evolves.ite (fun _ => ?_) (fun _ => ?_) | assumption
      | intro _ | dsimp only | split

theorem readEnds_evolves {r : HostRead} {buf : Bytes} {ps : List Part} {s₀ s : State} (hE : Evolves ps s₀ s)
    (hW : Sub [.commands, .hostReads] ps) :
    Evolves ps s₀ (readEnds r buf s) := by
  unfold readEnds
  repeat' first
    | exact Sub.of hW rfl | exact .inl (Sub.of hW rfl) | with_reducible exact .inr rfl
    | exact .inr (FencesStay.refl _) | exact .inr (by dsimp only) | exact .inr rfl
    | with_reducible exact (fun h => h : _ = true → _) | (dsimp only; exact (fun h => h : _ = true → _))
    | exact (fun h => h : _ = true → _)
    | with_reducible first
        | exact hE | apply state_onHep_evolves | apply onEntry_evolves
        | refine Evolves.ite (fun _ => ?_) (fun _ => ?_)
    | dsimp only | split
    | with_reducible first
        | refine Evolves.fst_of (by assumption) ?_ | refine Evolves.snd_of (by assumption) ?_

theorem execHostReadCompletion_evolves {tag : Fin 1024} {status : CplStatus} {byteCount : Nat} {data : Bytes} {ps : List Part} {s₀ s : State} (hE : Evolves ps s₀ s)
    (hW : Sub [.events, .counters, .sampling, .commands, .mapping, .journal, .layoutWork, .drivePorts, .hostReads,
      .regs, .regHep, .out] ps) :
    ∀ t, execHostReadCompletion tag status byteCount data s = .next t → Evolves ps s₀ t := by
  intro t ht
  unfold execHostReadCompletion at ht
  repeat' first
    | (with_reducible obtain rfl := Host.Outcome.next.inj ht)
    | split at ht
    | dsimp only at ht
  all_goals
    repeat' first
      | exact Sub.of hW rfl
      | with_reducible first
          | exact hE | apply emit_evolves | apply state_bump_evolves | apply freeTag_evolves | apply cplError_evolves
          | apply readEnds_evolves | apply onTag_evolves | refine Evolves.ite (fun _ => ?_) (fun _ => ?_)
      | dsimp only | split
      | with_reducible first
          | refine Evolves.fst_of (by assumption) ?_ | refine Evolves.snd_of (by assumption) ?_

theorem execCplTimeout_evolves {tag : Fin 1024} {ps : List Part} {s₀ s : State} (hE : Evolves ps s₀ s)
    (hW : Sub [.events, .counters, .sampling, .commands, .mapping, .journal, .layoutWork, .drivePorts, .hostReads,
      .regs, .regHep, .out] ps) :
    ∀ t, execCplTimeout tag s = .next t → Evolves ps s₀ t := by
  intro t ht
  unfold execCplTimeout at ht
  repeat' first
    | (with_reducible obtain rfl := Host.Outcome.next.inj ht)
    | split at ht
    | dsimp only at ht
  all_goals
    repeat' first
      | exact Sub.of hW rfl
      | with_reducible first
          | exact hE | apply onTag_evolves | apply state_bump_evolves | apply readFails_evolves | apply emit_evolves
          | apply state_send_evolves
      | dsimp only | split
      | with_reducible first
          | refine Evolves.fst_of (by assumption) ?_ | refine Evolves.snd_of (by assumption) ?_

theorem execTagHoldExpiry_evolves {tag : Fin 1024} {ps : List Part} {s₀ s : State} (hE : Evolves ps s₀ s)
    (hW : Sub [.hostReads, .out] ps) :
    ∀ t, execTagHoldExpiry tag s = .next t → Evolves ps s₀ t := by
  intro t ht
  unfold execTagHoldExpiry at ht
  repeat' first
    | (with_reducible obtain rfl := Host.Outcome.next.inj ht)
    | split at ht
    | dsimp only at ht
  all_goals
    repeat' first
      | exact Sub.of hW rfl
      | with_reducible first
          | exact hE | apply freeTag_evolves | refine Evolves.ite (fun _ => ?_) (fun _ => ?_)
      | dsimp only | split

theorem sendPending_evolves {k : Nat} {ps : List Part} {s₀ s : State} (hE : Evolves ps s₀ s)
    (hW : Sub [.functions, .out] ps) :
    Evolves ps s₀ (sendPending k s) := by
  unfold sendPending
  repeat' first
    | exact Sub.of hW rfl
    | with_reducible first
        | exact hE | apply state_send_evolves | apply onFn_evolves | refine Evolves.ite (fun _ => ?_) (fun _ => ?_)
        | refine Evolves.foldl ?_ ?_ | refine Evolves.foldl_fst ?_ ?_ | refine Evolves.foldl_snd ?_ ?_ | assumption
    | intro _ | dsimp only | split

theorem execMsixUnmask_evolves {fn : Fin 66} {vector : Option Nat} {ps : List Part} {s₀ s : State} (hE : Evolves ps s₀ s)
    (hW : Sub [.functions, .out] ps) :
    ∀ t, execMsixUnmask fn vector s = .next t → Evolves ps s₀ t := by
  intro t ht
  unfold execMsixUnmask at ht
  repeat' first
    | (with_reducible obtain rfl := Host.Outcome.next.inj ht)
    | split at ht
    | dsimp only at ht
  all_goals
    repeat' first
      | exact Sub.of hW rfl
      | with_reducible first
          | exact hE | apply sendPending_evolves | apply onFn_evolves
      | dsimp only | split
      | with_reducible first
          | refine Evolves.fst_of (by assumption) ?_ | refine Evolves.snd_of (by assumption) ?_

theorem peerRefused_evolves {offset : Nat} {read : Bool} {ps : List Part} {s₀ s : State} (hE : Evolves ps s₀ s)
    (hW : Sub [.events, .counters, .sampling, .regs, .regHep, .out] ps) :
    Evolves ps s₀ (peerRefused offset read s) := by
  unfold peerRefused
  repeat' first
    | exact Sub.of hW rfl
    | with_reducible first
        | exact hE | apply emit_evolves | apply state_bump_evolves | apply state_send_evolves
        | refine Evolves.ite (fun _ => ?_) (fun _ => ?_)
    | dsimp only | split

theorem execPeerMemoryRequest_evolves {offset : Nat} {len : Nat} {write : Option Bytes} {ps : List Part} {s₀ s : State} (hE : Evolves ps s₀ s)
    (hW : Sub [.events, .counters, .sampling, .peerMem, .regs, .regSwc, .regHep, .out] ps) :
    ∀ t, execPeerMemoryRequest offset len write s = .next t → Evolves ps s₀ t := by
  intro t ht
  unfold execPeerMemoryRequest at ht
  repeat' first
    | (with_reducible obtain rfl := Host.Outcome.next.inj ht)
    | split at ht
    | dsimp only at ht
  all_goals
    repeat' first
      | exact Sub.of hW rfl
      | exact fun h => foldl_keeps (P := fun t : Tab Byte => t.wf = true) (fun _ _ h => by exact Tab.wf_put h _ _) _ _ h
      | exact .inl (Sub.of hW rfl) | with_reducible exact .inr rfl | exact .inr (FencesStay.refl _)
      | exact .inr (by dsimp only) | exact .inr rfl | with_reducible exact (fun h => h : _ = true → _)
      | (dsimp only; exact (fun h => h : _ = true → _)) | exact (fun h => h : _ = true → _)
      | with_reducible first
          | exact hE | apply peerRefused_evolves | apply handleStale_evolves | apply state_send_evolves
          | apply state_onHep_evolves | refine Evolves.ite (fun _ => ?_) (fun _ => ?_) | refine Evolves.foldl ?_ ?_
          | refine Evolves.foldl_fst ?_ ?_ | refine Evolves.foldl_snd ?_ ?_ | assumption
      | intro _ | dsimp only | split
      | with_reducible first
          | refine Evolves.fst_of (by assumption) ?_ | refine Evolves.snd_of (by assumption) ?_

theorem execPwinCommit_evolves  {ps : List Part} {s₀ s : State} (hE : Evolves ps s₀ s)
    (hW : Sub [.events, .counters, .sampling, .peerTable, .regs, .regHep] ps) :
    ∀ t, execPwinCommit s = .next t → Evolves ps s₀ t := by
  intro t ht
  unfold execPwinCommit at ht
  split at ht
  · obtain rfl := Host.Outcome.next.inj ht
    exact hE
  · obtain rfl := Host.Outcome.next.inj ht
    refine emit_evolves (state_setFld_evolves (state_onHep_evolves (Evolves.regsSet _ hE (Sub.of hW rfl) (fun a ha => ?_)
      fun hc => foldl_keeps (P := regsWf) (fun r i h => by split <;> first | exact regsWf_set h _ _ | exact h) _ _ hc)
      (.inr rfl) (.inr rfl) (.inr rfl) (.inl (Sub.of hW rfl)) (.inr rfl) fun h => h) (Sub.of hW rfl)) (Sub.of hW rfl)
    have hr : regPart a ≠ .regHep := fun e => ha (e ▸ hW _ (by decide))
    have key : ∀ (l : List Nat) (r : Tab Word) (c : Nat → Bool) (g : Nat → Word), (∀ x ∈ l, x < 64) →
        rawWord (l.foldl (fun r i => if c i = true then setRawWord r (liveBase + 4 * i) (g i) else r) r) a = rawWord r a := by
      intro l
      induction l with
      | nil => intros; rfl
      | cons x l ih =>
        intro r c g hl
        rw [List.foldl_cons, ih _ _ _ fun y hy => hl y (List.mem_cons_of_mem _ hy)]
        split
        · rw [rawWord_setRawWord, if_neg]
          rintro rfl
          have := hl x (List.mem_cons_self ..)
          exact hr (regPart_congr (b := 0x0D000000) (by unfold liveBase; omega))
        · rfl
    exact key _ _ _ _ fun x hx => List.mem_range.1 hx

theorem execInterruptCoalescingTimeout_evolves {fn : Fin 65} {vector : Nat} {ps : List Part} {s₀ s : State} (hE : Evolves ps s₀ s)
    (hW : Sub [.functions, .hostQueues, .out] ps) :
    ∀ t, execInterruptCoalescingTimeout fn vector s = .next t → Evolves ps s₀ t := by
  intro t ht
  unfold execInterruptCoalescingTimeout at ht
  repeat' first
    | (with_reducible obtain rfl := Host.Outcome.next.inj ht)
    | split at ht
    | dsimp only at ht
  all_goals
    repeat' first
      | exact Sub.of hW rfl | exact .inl (Sub.of hW rfl) | with_reducible exact .inr rfl
      | exact .inr (FencesStay.refl _) | exact .inr (by dsimp only) | exact .inr rfl
      | with_reducible exact (fun h => h : _ = true → _) | (dsimp only; exact (fun h => h : _ = true → _))
      | exact (fun h => h : _ = true → _)
      | with_reducible first
          | exact hE | apply raiseVector_evolves | apply state_onHep_evolves
          | refine Evolves.ite (fun _ => ?_) (fun _ => ?_)
      | dsimp only | split

end Sys2Proof.Machine
end

