-- ==== Sys2Proof/Laws/FrameRedundancy.lean ====
section
/-! SUPPORT. What the operations of Machine/Redundancy.lean change at most: one lemma each. -/

namespace Sys2Proof.Machine

set_option linter.unusedTactic false
set_option linter.unreachableTactic false
set_option linter.unusedVariables false

theorem announce_evolves  {ps : List Part} {s₀ s : State} (hE : Evolves ps s₀ s)
    (hW : Sub [.regs, .regCtl, .regPrt, .regCls, .regSwc, .regTmg, .regXpt, .regCmd, .regLay, .regFix, .regDrv, .regCip,
      .regTru, .regPwr, .regHep, .regRed, .regTel, .out] ps) :
    Evolves ps s₀ (announce s) := by
  unfold announce
  repeat' first
    | exact Sub.of hW rfl | exact fun h => regsWf_set h _ _
    | with_reducible first
        | exact hE | apply state_send_evolves | refine Evolves.ite (fun _ => ?_) (fun _ => ?_)
        | refine Evolves.foldl ?_ ?_ | refine Evolves.foldl_fst ?_ ?_ | refine Evolves.foldl_snd ?_ ?_ | assumption
    | intro _ | dsimp only | split
    | with_reducible first
        | apply Evolves.regsAll

theorem becomeActive_evolves {driveNs : Nat} {ps : List Part} {s₀ s : State} (hE : Evolves ps s₀ s)
    (hW : Sub [.events, .counters, .sampling, .leash, .replicas, .roles, .regs, .regRed, .out] ps) :
    Evolves ps s₀ (becomeActive driveNs s) := by
  unfold becomeActive
  repeat' first
    | exact Sub.of hW rfl | exact .inl (Sub.of hW rfl) | with_reducible exact .inr rfl
    | exact .inr (FencesStay.refl _) | exact .inr (by dsimp only) | exact .inr rfl
    | with_reducible exact (fun h => h : _ = true → _) | (dsimp only; exact (fun h => h : _ = true → _))
    | exact (fun h => h : _ = true → _)
    | with_reducible first
        | exact hE | apply state_onRed_evolves | apply activeIs_evolves | apply setRole_evolves
        | apply countQuorum_evolves | apply setRoleBit_evolves | apply state_bump_evolves | apply state_setFld_evolves
        | apply sendTo_evolves | refine Evolves.ite (fun _ => ?_) (fun _ => ?_) | refine Evolves.foldl ?_ ?_
        | refine Evolves.foldl_fst ?_ ?_ | refine Evolves.foldl_snd ?_ ?_ | assumption
    | intro _ | dsimp only | split

theorem correctEntry_evolves {e : MapEntry} {ps : List Part} {s₀ s : State} (hE : Evolves ps s₀ s)
    (hW : Sub [.events, .counters, .sampling, .commands, .journal, .layoutWork, .drivePorts, .out] ps) :
    Evolves ps s₀ (correctEntry s e) := by
  unfold correctEntry
  repeat' first
    | exact Sub.of hW rfl
    | with_reducible first
        | exact hE | apply submitRecord_evolves | refine Evolves.ite (fun _ => ?_) (fun _ => ?_)
        | refine Evolves.foldl ?_ ?_ | refine Evolves.foldl_fst ?_ ?_ | refine Evolves.foldl_snd ?_ ?_ | assumption
    | intro _ | dsimp only | split

theorem roleOrder_evolves {op : Nat} {path : Fin 5} {session : Nat} {value : Word} {run : Nat → State → State × Nat} {ps : List Part} {s₀ s : State} (hE : Evolves ps s₀ s)
    (hrun : ∀ a0 (t : State), Evolves ps s₀ t → Evolves ps s₀ ((run a0 t)).1)
    (hW : Sub [.events, .sessions, .marks, .counters, .sampling, .regs, .regCtl, .regRed, .out] ps) :
    Evolves ps s₀ (roleOrder op path session value run s) := by
  unfold roleOrder
  repeat' first
    | exact Sub.of hW rfl
    | with_reducible first
        | exact hE | apply writeGate_evolves | apply state_setFld_evolves | apply hrun
        | refine Evolves.ite (fun _ => ?_) (fun _ => ?_) | assumption
    | intro _ | dsimp only | split
    | with_reducible first
        | refine Evolves.fst_of (by assumption) ?_ | refine Evolves.snd_of (by assumption) ?_

theorem execRedRoleSwitch_evolves {path : Fin 5} {session : Nat} {value : Word} {ps : List Part} {s₀ s : State} (hE : Evolves ps s₀ s)
    (hW : Sub [.events, .sessions, .marks, .counters, .sampling, .roles, .regs, .regCtl, .regRed, .out] ps) :
    ∀ t, execRedRoleSwitch path session value s = .next t → Evolves ps s₀ t := by
  intro t ht
  unfold execRedRoleSwitch at ht
  repeat' first
    | (with_reducible obtain rfl := Host.Outcome.next.inj ht)
    | split at ht
    | dsimp only at ht
  all_goals
    repeat' first
      | exact Sub.of hW rfl | exact .inl (Sub.of hW rfl) | with_reducible exact .inr rfl
      | exact .inr (FencesStay.refl _) | exact .inr (by dsimp only) | exact .inr rfl
      | with_reducible exact (fun h => h : _ = true → _) | (dsimp only; exact (fun h => h : _ = true → _))
      | exact (fun h => h : _ = true → _)
      | with_reducible first
          | exact hE | apply roleOrder_evolves | apply state_setFld_evolves | apply state_onRed_evolves
          | refine Evolves.ite (fun _ => ?_) (fun _ => ?_) | assumption
      | intro _ | dsimp only | split

theorem onVotes_evolves {jseq : Nat} {ps : List Part} {s₀ s : State} (hE : Evolves ps s₀ s)
    (hW : Sub [.events, .counters, .sampling, .controllers, .namespaces, .commands, .powerState, .contexts, .mapping,
      .journal, .layoutWork, .ciphers, .batches, .drivePorts, .driveSlots, .buffer, .functions, .hostQueues,
      .leash, .replicas, .regs, .regPrt, .regSwc, .regRed, .out] ps) :
    Evolves ps s₀ (onVotes jseq s) := by
  unfold onVotes
  repeat' first
    | exact Sub.of hW rfl
    | with_reducible first
        | exact hE | apply standDown_evolves | apply emit_evolves | apply commitRecord_evolves
        | apply fencePeer_evolves | apply fenceSelf_evolves | apply sendAll_evolves
        | refine Evolves.ite (fun _ => ?_) (fun _ => ?_) | refine Evolves.foldl ?_ ?_ | refine Evolves.foldl_fst ?_ ?_
        | refine Evolves.foldl_snd ?_ ?_ | assumption
    | intro _ | dsimp only | split
    | with_reducible first
        | refine Evolves.fst_of (by assumption) ?_ | refine Evolves.snd_of (by assumption) ?_

theorem retryVotes_evolves  {ps : List Part} {s₀ s : State} (hE : Evolves ps s₀ s)
    (hW : Sub [.events, .counters, .sampling, .controllers, .namespaces, .commands, .powerState, .contexts, .mapping,
      .journal, .layoutWork, .ciphers, .batches, .drivePorts, .driveSlots, .buffer, .functions, .hostQueues,
      .leash, .replicas, .regs, .regPrt, .regSwc, .regRed, .out] ps) :
    Evolves ps s₀ (retryVotes s) := by
  unfold retryVotes
  repeat' first
    | exact Sub.of hW rfl
    | with_reducible first
        | exact hE | apply onVotes_evolves | refine Evolves.foldl ?_ ?_ | refine Evolves.foldl_fst ?_ ?_
        | refine Evolves.foldl_snd ?_ ?_ | assumption
    | intro _ | dsimp only

theorem execRedRoleFence_evolves {path : Fin 5} {session : Nat} {value : Word} {ps : List Part} {s₀ s : State} (hE : Evolves ps s₀ s)
    (hW : Sub [.events, .sessions, .marks, .counters, .sampling, .controllers, .namespaces, .commands, .powerState,
      .contexts, .mapping, .journal, .layoutWork, .ciphers, .batches, .drivePorts, .driveSlots, .buffer,
      .functions, .hostQueues, .leash, .replicas, .regs, .regCtl, .regPrt, .regSwc, .regRed, .out] ps) :
    ∀ t, execRedRoleFence path session value s = .next t → Evolves ps s₀ t := by
  intro t ht
  unfold execRedRoleFence at ht
  repeat' first
    | (with_reducible obtain rfl := Host.Outcome.next.inj ht)
    | split at ht
    | dsimp only at ht
  all_goals
    repeat' first
      | exact Sub.of hW rfl
      | with_reducible first
          | exact hE | apply roleOrder_evolves | apply fenceSelf_evolves | apply retryVotes_evolves
          | apply fencePeer_evolves | refine Evolves.ite (fun _ => ?_) (fun _ => ?_) | assumption
      | intro _ | dsimp only | split

theorem execRedRoleRelease_evolves {path : Fin 5} {session : Nat} {value : Word} {ps : List Part} {s₀ s : State} (hE : Evolves ps s₀ s)
    (hW : Sub [.events, .sessions, .marks, .counters, .sampling, .commands, .driveSlots, .replicas, .roles, .regs,
      .regCtl, .regRed, .out] ps) :
    ∀ t, execRedRoleRelease path session value s = .next t → Evolves ps s₀ t := by
  intro t ht
  unfold execRedRoleRelease at ht
  repeat' first
    | (with_reducible obtain rfl := Host.Outcome.next.inj ht)
    | split at ht
    | dsimp only at ht
  all_goals
    repeat' first
      | exact Sub.of hW rfl
      | with_reducible first
          | exact hE | apply roleOrder_evolves | apply enterJoining_evolves | apply setRoleBit_evolves
          | refine Evolves.ite (fun _ => ?_) (fun _ => ?_) | assumption
      | intro _ | dsimp only | split

theorem execRedRoleStandDown_evolves {path : Fin 5} {session : Nat} {value : Word} {ps : List Part} {s₀ s : State} (hE : Evolves ps s₀ s)
    (hW : Sub [.events, .sessions, .marks, .counters, .sampling, .driveSlots, .regs, .regCtl, .regPrt, .regRed, .out] ps) :
    ∀ t, execRedRoleStandDown path session value s = .next t → Evolves ps s₀ t := by
  intro t ht
  unfold execRedRoleStandDown at ht
  repeat' first
    | (with_reducible obtain rfl := Host.Outcome.next.inj ht)
    | split at ht
    | dsimp only at ht
  all_goals
    repeat' first
      | exact Sub.of hW rfl
      | with_reducible first
          | exact hE | apply roleOrder_evolves | apply standDown_evolves
          | refine Evolves.ite (fun _ => ?_) (fun _ => ?_) | assumption
      | intro _ | dsimp only | split

theorem execLeashUp_evolves {link : Fin 2} {role : Nat} {ps : List Part} {s₀ s : State} (hE : Evolves ps s₀ s)
    (hW : Sub [.events, .counters, .sampling, .leash, .regs, .regRed] ps) :
    ∀ t, execLeashUp link role s = .next t → Evolves ps s₀ t := by
  intro t ht
  unfold execLeashUp at ht
  repeat' first
    | (with_reducible obtain rfl := Host.Outcome.next.inj ht)
    | split at ht
    | dsimp only at ht
  all_goals
    repeat' first
      | exact Sub.of hW rfl
      | with_reducible first
          | exact hE | apply onLeash_evolves | apply state_setFldI_evolves | apply emit_evolves
          | refine Evolves.ite (fun _ => ?_) (fun _ => ?_)
      | dsimp only | split

theorem execLeashLockLost_evolves {link : Fin 2} {ps : List Part} {s₀ s : State} (hE : Evolves ps s₀ s)
    (hW : Sub [.events, .counters, .sampling, .controllers, .queues, .commands, .contexts, .regions, .mapping, .journal,
      .batches, .jobs, .driveSlots, .buffer, .leash, .replicas, .roles, .regs, .regSwc, .regRed, .out] ps) :
    ∀ t, execLeashLockLost link s = .next t → Evolves ps s₀ t := by
  intro t ht
  unfold execLeashLockLost at ht
  repeat' first
    | (with_reducible obtain rfl := Host.Outcome.next.inj ht)
    | split at ht
    | dsimp only at ht
  all_goals
    repeat' first
      | exact Sub.of hW rfl
      | with_reducible first
          | exact hE | apply leashDown_evolves
      | dsimp only

theorem execLeashSilence_evolves {link : Fin 2} {ps : List Part} {s₀ s : State} (hE : Evolves ps s₀ s)
    (hW : Sub [.events, .counters, .sampling, .controllers, .queues, .commands, .contexts, .regions, .mapping, .journal,
      .batches, .jobs, .driveSlots, .buffer, .leash, .replicas, .roles, .regs, .regSwc, .regRed, .out] ps) :
    ∀ t, execLeashSilence link s = .next t → Evolves ps s₀ t := by
  intro t ht
  unfold execLeashSilence at ht
  repeat' first
    | (with_reducible obtain rfl := Host.Outcome.next.inj ht)
    | split at ht
    | dsimp only at ht
  all_goals
    repeat' first
      | exact Sub.of hW rfl
      | with_reducible first
          | exact hE | apply leashDown_evolves
      | dsimp only

theorem execLeashResendTimeout_evolves {link : Fin 2} {ps : List Part} {s₀ s : State} (hE : Evolves ps s₀ s)
    (hW : Sub [.events, .counters, .sampling, .controllers, .queues, .commands, .contexts, .regions, .mapping, .journal,
      .batches, .jobs, .driveSlots, .buffer, .leash, .replicas, .roles, .regs, .regSwc, .regRed, .out] ps) :
    ∀ t, execLeashResendTimeout link s = .next t → Evolves ps s₀ t := by
  intro t ht
  unfold execLeashResendTimeout at ht
  repeat' first
    | (with_reducible obtain rfl := Host.Outcome.next.inj ht)
    | split at ht
    | dsimp only at ht
  all_goals
    repeat' first
      | exact Sub.of hW rfl
      | with_reducible first
          | exact hE | apply leashDown_evolves | apply state_bumpI_evolves | apply onLeash_evolves
          | apply state_send_evolves | refine Evolves.ite (fun _ => ?_) (fun _ => ?_) | refine Evolves.foldl ?_ ?_
          | refine Evolves.foldl_fst ?_ ?_ | refine Evolves.foldl_snd ?_ ?_ | assumption
      | intro _ | dsimp only | split

theorem execIdleFrameTimer_evolves {link : Fin 2} {ps : List Part} {s₀ s : State} (hE : Evolves ps s₀ s)
    (hW : Sub [.leash, .out] ps) :
    ∀ t, execIdleFrameTimer link s = .next t → Evolves ps s₀ t := by
  intro t ht
  unfold execIdleFrameTimer at ht
  repeat' first
    | (with_reducible obtain rfl := Host.Outcome.next.inj ht)
    | split at ht
    | dsimp only at ht
  all_goals
    repeat' first
      | exact Sub.of hW rfl
      | with_reducible first
          | exact hE | apply leashSend_evolves
      | dsimp only | split

theorem onFrame_evolves {h : LeashHdr} {run : State → State} {ps : List Part} {s₀ s : State} (hE : Evolves ps s₀ s)
    (hrun : ∀ (t : State), Evolves ps s₀ t → Evolves ps s₀ (run t))
    (hW : Sub [.leash, .regs, .regRed] ps) :
    ∀ t, onFrame h run s = .next t → Evolves ps s₀ t := by
  intro t ht
  unfold onFrame at ht
  repeat' first
    | (with_reducible obtain rfl := Host.Outcome.next.inj ht)
    | split at ht
    | dsimp only at ht
  all_goals
    repeat' first
      | exact Sub.of hW rfl
      | with_reducible first
          | exact hE | apply leashIn_evolves | apply hrun | assumption
      | intro _ | dsimp only | split
      | with_reducible first
          | refine Evolves.fst_of (by assumption) ?_ | refine Evolves.snd_of (by assumption) ?_

theorem execIdleFrameReceived_evolves {h : LeashHdr} {gts : Option Nat} {ps : List Part} {s₀ s : State} (hE : Evolves ps s₀ s)
    (hW : Sub [.events, .time, .counters, .sampling, .leash, .regs, .regCtl, .regRed, .free, .clock] ps) :
    ∀ t, execIdleFrameReceived h gts s = .next t → Evolves ps s₀ t := by
  intro t ht
  unfold execIdleFrameReceived at ht
  try (with_reducible refine onFrame_evolves ?_ ?_ (Sub.of hW rfl) _ ht <;> clear ht)
  repeat' first
    | (with_reducible obtain rfl := Host.Outcome.next.inj ht)
    | split at ht
    | dsimp only at ht
  all_goals
    repeat' first
      | exact Sub.of hW rfl
      | with_reducible first
          | exact hE | refine onFrame_evolves ?_ ?_ (Sub.of hW rfl) _ ht | apply sourcePresent_evolves
          | apply measureGts_evolves | refine Evolves.ite (fun _ => ?_) (fun _ => ?_) | assumption
      | intro _ | dsimp only | split
      | with_reducible first
          | refine Evolves.fst_of (by assumption) ?_ | refine Evolves.snd_of (by assumption) ?_

theorem execEpochEnd_evolves  {ps : List Part} {s₀ s : State} (hE : Evolves ps s₀ s)
    (hW : Sub [.events, .counters, .sampling, .contexts, .leash, .replicas, .regs, .regRed, .out, .free] ps) :
    ∀ t, execEpochEnd s = .next t → Evolves ps s₀ t := by
  intro t ht
  unfold execEpochEnd at ht
  repeat' first
    | (with_reducible obtain rfl := Host.Outcome.next.inj ht)
    | split at ht
    | dsimp only at ht
  all_goals
    repeat' first
      | exact Sub.of hW rfl | exact .inl (Sub.of hW rfl) | with_reducible exact .inr rfl
      | exact .inr (FencesStay.refl _) | exact .inr (by dsimp only) | exact .inr rfl
      | with_reducible exact (fun h => h : _ = true → _) | (dsimp only; exact (fun h => h : _ = true → _))
      | exact (fun h => h : _ = true → _)
      | with_reducible first
          | exact hE | apply sendAll_evolves | apply formRecord_evolves | apply state_onRed_evolves
          | apply state_setFld_evolves | refine Evolves.ite (fun _ => ?_) (fun _ => ?_)
      | dsimp only | split
      | with_reducible first
          | refine Evolves.fst_of (by assumption) ?_ | refine Evolves.snd_of (by assumption) ?_

theorem peerSeen_evolves {r : Nat} {st : Nat} {epoch : Nat} {ps : List Part} {s₀ s : State} (hE : Evolves ps s₀ s)
    (hW : Sub [.regs, .regRed] ps) :
    Evolves ps s₀ (peerSeen r st epoch s) := by
  unfold peerSeen
  repeat' first
    | exact Sub.of hW rfl
    | with_reducible first
        | exact hE | apply state_setFldI_evolves | refine Evolves.ite (fun _ => ?_) (fun _ => ?_)
    | dsimp only | split

theorem resyncEnds_evolves  {ps : List Part} {s₀ s : State} (hE : Evolves ps s₀ s)
    (hW : Sub [.events, .counters, .sampling, .commands, .driveSlots, .replicas, .regs, .regPrt, .regRed] ps) :
    Evolves ps s₀ (resyncEnds s) := by
  unfold resyncEnds
  repeat' first
    | exact Sub.of hW rfl | exact .inl (Sub.of hW rfl) | with_reducible exact .inr rfl
    | exact .inr (FencesStay.refl _) | exact .inr (by dsimp only) | exact .inr rfl
    | with_reducible exact (fun h => h : _ = true → _) | (dsimp only; exact (fun h => h : _ = true → _))
    | exact (fun h => h : _ = true → _)
    | with_reducible first
        | exact hE | apply state_onRed_evolves | apply state_setFld_evolves | apply keepFloor_evolves
        | apply boundLeave_evolves | apply emit_evolves | apply setRole_evolves
    | dsimp only

theorem serveContext_evolves {i : Nat} {ps : List Part} {s₀ s : State} (hE : Evolves ps s₀ s)
    (hW : Sub [.contexts] ps) :
    Evolves ps s₀ (serveContext s i) := by
  unfold serveContext
  repeat' first
    | exact Sub.of hW rfl | exact .inl (Sub.of hW rfl) | with_reducible exact .inr rfl
    | exact .inr (FencesStay.refl _) | exact .inr (by dsimp only) | exact .inr rfl
    | with_reducible exact (fun h => h : _ = true → _) | (dsimp only; exact (fun h => h : _ = true → _))
    | exact (fun h => h : _ = true → _)
    | with_reducible first
        | exact hE | apply state_onXpt_evolves | refine Evolves.foldl ?_ ?_ | refine Evolves.foldl_fst ?_ ?_
        | refine Evolves.foldl_snd ?_ ?_ | assumption
    | intro _ | dsimp only

theorem takeover_evolves {cause : Nat} {failed : Nat} {ps : List Part} {s₀ s : State} (hE : Evolves ps s₀ s)
    (hW : Sub [.events, .counters, .sampling, .controllers, .queues, .commands, .powerState, .contexts, .contextCache,
      .regions, .chains, .mapping, .journal, .layoutWork, .ciphers, .jobs, .drivePorts, .driveSlots, .buffer,
      .leash, .replicas, .roles, .regs, .regCtl, .regPrt, .regCls, .regSwc, .regTmg, .regXpt, .regCmd, .regLay,
      .regFix, .regDrv, .regCip, .regTru, .regPwr, .regHep, .regRed, .regTel, .out] ps) :
    Evolves ps s₀ (takeover cause failed s) := by
  unfold takeover
  repeat' first
    | exact Sub.of hW rfl | exact .inl (Sub.of hW rfl) | with_reducible exact .inr rfl
    | exact .inr (FencesStay.refl _) | exact .inr (by dsimp only) | exact .inr rfl
    | with_reducible exact (fun h => h : _ = true → _) | (dsimp only; exact (fun h => h : _ = true → _))
    | exact (fun h => h : _ = true → _)
    | with_reducible first
        | exact hE | apply state_onRed_evolves | apply boundEnter_evolves | apply setRole_evolves
        | apply setRoleBit_evolves | apply sendAll_evolves | apply emit_evolves | apply announce_evolves
        | apply serveContext_evolves | apply connError_evolves | apply startPreempt_evolves
        | apply migTakeover_evolves | refine Evolves.ite (fun _ => ?_) (fun _ => ?_) | refine Evolves.foldl ?_ ?_
        | refine Evolves.foldl_fst ?_ ?_ | refine Evolves.foldl_snd ?_ ?_ | assumption
    | intro _ | dsimp only | split

theorem onRecord_evolves {r : EpochRec} {ps : List Part} {s₀ s : State} (hE : Evolves ps s₀ s)
    (hW : Sub [.events, .counters, .sampling, .controllers, .queues, .commands, .powerState, .contexts, .contextCache,
      .regions, .chains, .mapping, .journal, .layoutWork, .keys, .ciphers, .batches, .jobs, .drivePorts,
      .driveSlots, .buffer, .leash, .replicas, .roles, .regs, .regCtl, .regPrt, .regCls, .regSwc, .regTmg,
      .regXpt, .regCmd, .regLay, .regFix, .regDrv, .regCip, .regTru, .regPwr, .regHep, .regRed, .regTel, .out] ps) :
    Evolves ps s₀ (onRecord r s) := by
  unfold onRecord
  repeat' first
    | exact Sub.of hW rfl
    | with_reducible first
        | exact hE | apply applyRecord_evolves | apply resyncEnds_evolves | apply sendTo_evolves
        | apply replicaLost_evolves | apply emit_evolves | apply takeover_evolves
        | refine Evolves.ite (fun _ => ?_) (fun _ => ?_)
    | dsimp only | split
    | with_reducible first
        | refine Evolves.fst_of (by assumption) ?_ | refine Evolves.snd_of (by assumption) ?_

theorem execEpochFrameReceived_evolves {h : LeashHdr} {rec_ : Option EpochRec} {ps : List Part} {s₀ s : State} (hE : Evolves ps s₀ s)
    (hW : Sub [.events, .counters, .sampling, .controllers, .queues, .commands, .powerState, .contexts, .contextCache,
      .regions, .chains, .mapping, .journal, .layoutWork, .keys, .ciphers, .batches, .jobs, .drivePorts,
      .driveSlots, .buffer, .leash, .replicas, .roles, .regs, .regCtl, .regPrt, .regCls, .regSwc, .regTmg,
      .regXpt, .regCmd, .regLay, .regFix, .regDrv, .regCip, .regTru, .regPwr, .regHep, .regRed, .regTel, .out] ps) :
    ∀ t, execEpochFrameReceived h rec_ s = .next t → Evolves ps s₀ t := by
  intro t ht
  unfold execEpochFrameReceived at ht
  try (with_reducible refine onFrame_evolves ?_ ?_ (Sub.of hW rfl) _ ht <;> clear ht)
  repeat' first
    | (with_reducible obtain rfl := Host.Outcome.next.inj ht)
    | split at ht
    | dsimp only at ht
  all_goals
    repeat' first
      | exact Sub.of hW rfl | exact .inl (Sub.of hW rfl) | with_reducible exact .inr rfl
      | exact .inr (FencesStay.refl _) | exact .inr (by dsimp only) | exact .inr rfl
      | with_reducible exact (fun h => h : _ = true → _) | (dsimp only; exact (fun h => h : _ = true → _))
      | exact (fun h => h : _ = true → _)
      | with_reducible first
          | exact hE | refine onFrame_evolves ?_ ?_ (Sub.of hW rfl) _ ht | apply state_setFldI_evolves
          | apply peerSeen_evolves | apply state_onRed_evolves | apply activeIs_evolves | apply onRecord_evolves
          | refine Evolves.ite (fun _ => ?_) (fun _ => ?_) | assumption
      | intro _ | dsimp only | split
      | with_reducible first
          | refine Evolves.fst_of (by assumption) ?_ | refine Evolves.snd_of (by assumption) ?_

theorem execNoticeFrameReceived_evolves {h : LeashHdr} {ns : List Notice} {ps : List Part} {s₀ s : State} (hE : Evolves ps s₀ s)
    (hW : Sub [.leash, .replicas, .regs, .regRed] ps) :
    ∀ t, execNoticeFrameReceived h ns s = .next t → Evolves ps s₀ t := by
  intro t ht
  unfold execNoticeFrameReceived at ht
  try (with_reducible refine onFrame_evolves ?_ ?_ (Sub.of hW rfl) _ ht <;> clear ht)
  repeat' first
    | (with_reducible obtain rfl := Host.Outcome.next.inj ht)
    | split at ht
    | dsimp only at ht
  all_goals
    repeat' first
      | exact Sub.of hW rfl | exact .inl (Sub.of hW rfl) | with_reducible exact .inr rfl
      | exact .inr (FencesStay.refl _) | exact .inr (by dsimp only) | exact .inr rfl
      | with_reducible exact (fun h => h : _ = true → _) | (dsimp only; exact (fun h => h : _ = true → _))
      | exact (fun h => h : _ = true → _)
      | with_reducible first
          | exact hE | refine onFrame_evolves ?_ ?_ (Sub.of hW rfl) _ ht | apply state_onRed_evolves
          | refine Evolves.ite (fun _ => ?_) (fun _ => ?_) | refine Evolves.foldl ?_ ?_ | refine Evolves.foldl_fst ?_ ?_
          | refine Evolves.foldl_snd ?_ ?_ | assumption
      | intro _ | dsimp only | split

theorem execEchoReceived_evolves {h : LeashHdr} {epoch : Nat} {votes : List Vote} {ps : List Part} {s₀ s : State} (hE : Evolves ps s₀ s)
    (hW : Sub [.events, .counters, .sampling, .controllers, .namespaces, .commands, .powerState, .contexts, .mapping,
      .journal, .layoutWork, .ciphers, .batches, .storeWrites, .drivePorts, .driveSlots, .buffer, .functions,
      .hostQueues, .leash, .replicas, .regs, .regPrt, .regSwc, .regFix, .regRed, .out] ps) :
    ∀ t, execEchoReceived h epoch votes s = .next t → Evolves ps s₀ t := by
  intro t ht
  unfold execEchoReceived at ht
  try (with_reducible refine onFrame_evolves ?_ ?_ (Sub.of hW rfl) _ ht <;> clear ht)
  repeat' first
    | (with_reducible obtain rfl := Host.Outcome.next.inj ht)
    | split at ht
    | dsimp only at ht
  all_goals
    repeat' first
      | exact Sub.of hW rfl | exact .inl (Sub.of hW rfl) | with_reducible exact .inr rfl
      | exact .inr (FencesStay.refl _) | exact .inr (by dsimp only) | exact .inr rfl
      | with_reducible exact (fun h => h : _ = true → _) | (dsimp only; exact (fun h => h : _ = true → _))
      | exact (fun h => h : _ = true → _)
      | with_reducible first
          | exact hE | refine onFrame_evolves ?_ ?_ (Sub.of hW rfl) _ ht | apply state_setFldI_evolves
          | apply peerSeen_evolves | apply boundLeave_evolves | apply emit_evolves | apply state_setFld_evolves
          | apply dropPeer_evolves | apply setRoleBit_evolves | apply countQuorum_evolves | apply state_onRed_evolves
          | apply fixAdvance_evolves | apply onVotes_evolves | apply onRec_evolves
          | refine Evolves.ite (fun _ => ?_) (fun _ => ?_) | refine Evolves.foldl ?_ ?_ | refine Evolves.foldl_fst ?_ ?_
          | refine Evolves.foldl_snd ?_ ?_ | assumption
      | intro _ | dsimp only | split

theorem execVoteMissed_evolves {r : Fin 3} {ps : List Part} {s₀ s : State} (hE : Evolves ps s₀ s)
    (hW : Sub [.events, .counters, .sampling, .controllers, .namespaces, .commands, .powerState, .contexts, .mapping,
      .journal, .layoutWork, .ciphers, .batches, .storeWrites, .drivePorts, .driveSlots, .buffer, .functions,
      .hostQueues, .leash, .replicas, .regs, .regPrt, .regSwc, .regFix, .regRed, .out] ps) :
    ∀ t, execVoteMissed r s = .next t → Evolves ps s₀ t := by
  intro t ht
  unfold execVoteMissed at ht
  repeat' first
    | (with_reducible obtain rfl := Host.Outcome.next.inj ht)
    | split at ht
    | dsimp only at ht
  all_goals
    repeat' first
      | exact Sub.of hW rfl
      | with_reducible first
          | exact hE | apply state_bumpI_evolves | apply onEntry_evolves | apply dropPeer_evolves | apply emit_evolves
          | apply fixAdvance_evolves | apply retryVotes_evolves | refine Evolves.ite (fun _ => ?_) (fun _ => ?_)
          | refine Evolves.foldl ?_ ?_ | refine Evolves.foldl_fst ?_ ?_ | refine Evolves.foldl_snd ?_ ?_ | assumption
      | intro _ | dsimp only | split

theorem suspect_evolves  {ps : List Part} {s₀ s : State} (hE : Evolves ps s₀ s)
    (hW : Sub [.events, .counters, .sampling, .controllers, .queues, .commands, .powerState, .contexts, .contextCache,
      .regions, .chains, .mapping, .journal, .layoutWork, .ciphers, .jobs, .drivePorts, .driveSlots, .buffer,
      .leash, .replicas, .roles, .regs, .regCtl, .regPrt, .regCls, .regSwc, .regTmg, .regXpt, .regCmd, .regLay,
      .regFix, .regDrv, .regCip, .regTru, .regPwr, .regHep, .regRed, .regTel, .out] ps) :
    Evolves ps s₀ (suspect s) := by
  unfold suspect
  repeat' first
    | exact Sub.of hW rfl | exact .inl (Sub.of hW rfl) | with_reducible exact .inr rfl
    | exact .inr (FencesStay.refl _) | exact .inr (by dsimp only) | exact .inr rfl
    | with_reducible exact (fun h => h : _ = true → _) | (dsimp only; exact (fun h => h : _ = true → _))
    | exact (fun h => h : _ = true → _)
    | with_reducible first
        | exact hE | apply emit_evolves | apply state_onRed_evolves | apply leashSend_evolves | apply takeover_evolves
        | apply sendTo_evolves | refine Evolves.ite (fun _ => ?_) (fun _ => ?_)
    | dsimp only | split

theorem execEpochMiss_evolves  {ps : List Part} {s₀ s : State} (hE : Evolves ps s₀ s)
    (hW : Sub [.events, .counters, .sampling, .controllers, .queues, .commands, .powerState, .contexts, .contextCache,
      .regions, .chains, .mapping, .journal, .layoutWork, .ciphers, .batches, .jobs, .drivePorts, .driveSlots,
      .buffer, .leash, .replicas, .roles, .regs, .regCtl, .regPrt, .regCls, .regSwc, .regTmg, .regXpt, .regCmd,
      .regLay, .regFix, .regDrv, .regCip, .regTru, .regPwr, .regHep, .regRed, .regTel, .out] ps) :
    ∀ t, execEpochMiss s = .next t → Evolves ps s₀ t := by
  intro t ht
  unfold execEpochMiss at ht
  repeat' first
    | (with_reducible obtain rfl := Host.Outcome.next.inj ht)
    | split at ht
    | dsimp only at ht
  all_goals
    repeat' first
      | exact Sub.of hW rfl
      | with_reducible first
          | exact hE | apply state_bumpI_evolves | apply emit_evolves | apply resyncFails_evolves
          | apply suspect_evolves | refine Evolves.ite (fun _ => ?_) (fun _ => ?_)
      | dsimp only | split

theorem execProbeReceived_evolves {h : LeashHdr} {about : Nat} {ps : List Part} {s₀ s : State} (hE : Evolves ps s₀ s)
    (hW : Sub [.events, .counters, .sampling, .controllers, .queues, .commands, .contexts, .regions, .mapping, .journal,
      .batches, .jobs, .driveSlots, .buffer, .leash, .replicas, .roles, .regs, .regSwc, .regRed, .out] ps) :
    ∀ t, execProbeReceived h about s = .next t → Evolves ps s₀ t := by
  intro t ht
  unfold execProbeReceived at ht
  try (with_reducible refine onFrame_evolves ?_ ?_ (Sub.of hW rfl) _ ht <;> clear ht)
  repeat' first
    | (with_reducible obtain rfl := Host.Outcome.next.inj ht)
    | split at ht
    | dsimp only at ht
  all_goals
    repeat' first
      | exact Sub.of hW rfl | exact .inl (Sub.of hW rfl) | with_reducible exact .inr rfl
      | exact .inr (FencesStay.refl _) | exact .inr (by dsimp only) | exact .inr rfl
      | with_reducible exact (fun h => h : _ = true → _) | (dsimp only; exact (fun h => h : _ = true → _))
      | exact (fun h => h : _ = true → _)
      | with_reducible first
          | exact hE | refine onFrame_evolves ?_ ?_ (Sub.of hW rfl) _ ht | apply leashSend_evolves
          | apply leashDown_evolves | apply state_onRed_evolves | refine Evolves.ite (fun _ => ?_) (fun _ => ?_)
          | assumption
      | intro _ | dsimp only | split

theorem execProbeReplyReceived_evolves {h : LeashHdr} {about : Nat} {misses : Nat} {heel : Bool} {ps : List Part} {s₀ s : State} (hE : Evolves ps s₀ s)
    (hW : Sub [.events, .counters, .sampling, .controllers, .queues, .commands, .powerState, .contexts, .contextCache,
      .regions, .chains, .mapping, .journal, .layoutWork, .ciphers, .batches, .jobs, .drivePorts, .driveSlots,
      .buffer, .leash, .replicas, .roles, .regs, .regCtl, .regPrt, .regCls, .regSwc, .regTmg, .regXpt, .regCmd,
      .regLay, .regFix, .regDrv, .regCip, .regTru, .regPwr, .regHep, .regRed, .regTel, .out] ps) :
    ∀ t, execProbeReplyReceived h about misses heel s = .next t → Evolves ps s₀ t := by
  intro t ht
  unfold execProbeReplyReceived at ht
  try (with_reducible refine onFrame_evolves ?_ ?_ (Sub.of hW rfl) _ ht <;> clear ht)
  repeat' first
    | (with_reducible obtain rfl := Host.Outcome.next.inj ht)
    | split at ht
    | dsimp only at ht
  all_goals
    repeat' first
      | exact Sub.of hW rfl | exact .inl (Sub.of hW rfl) | with_reducible exact .inr rfl
      | exact .inr (FencesStay.refl _) | exact .inr (by dsimp only) | exact .inr rfl
      | with_reducible exact (fun h => h : _ = true → _) | (dsimp only; exact (fun h => h : _ = true → _))
      | exact (fun h => h : _ = true → _)
      | with_reducible first
          | exact hE | refine onFrame_evolves ?_ ?_ (Sub.of hW rfl) _ ht | apply state_onRed_evolves
          | apply state_setFldI_evolves | apply leashDown_evolves | apply takeover_evolves | apply enterJoining_evolves
          | refine Evolves.ite (fun _ => ?_) (fun _ => ?_) | assumption
      | intro _ | dsimp only | split
      | with_reducible first
          | refine Evolves.fst_of (by assumption) ?_ | refine Evolves.snd_of (by assumption) ?_

theorem execProbeTimeout_evolves  {ps : List Part} {s₀ s : State} (hE : Evolves ps s₀ s)
    (hW : Sub [.events, .counters, .sampling, .controllers, .queues, .commands, .powerState, .contexts, .contextCache,
      .regions, .chains, .mapping, .journal, .layoutWork, .ciphers, .jobs, .drivePorts, .driveSlots, .buffer,
      .leash, .replicas, .roles, .regs, .regCtl, .regPrt, .regCls, .regSwc, .regTmg, .regXpt, .regCmd, .regLay,
      .regFix, .regDrv, .regCip, .regTru, .regPwr, .regHep, .regRed, .regTel, .out] ps) :
    ∀ t, execProbeTimeout s = .next t → Evolves ps s₀ t := by
  intro t ht
  unfold execProbeTimeout at ht
  repeat' first
    | (with_reducible obtain rfl := Host.Outcome.next.inj ht)
    | split at ht
    | dsimp only at ht
  all_goals
    repeat' first
      | exact Sub.of hW rfl
      | with_reducible first
          | exact hE | apply takeover_evolves | refine Evolves.ite (fun _ => ?_) (fun _ => ?_)
      | dsimp only | split

theorem replayTail_evolves {tail : List JRec} {ps : List Part} {s₀ s : State} (hE : Evolves ps s₀ s)
    (hW : Sub [.events, .counters, .sampling, .commands, .mapping, .journal, .layoutWork, .drivePorts, .leash, .out] ps) :
    Evolves ps s₀ (replayTail tail s) := by
  unfold replayTail
  repeat' first
    | exact Sub.of hW rfl | exact .inl (Sub.of hW rfl) | with_reducible exact .inr rfl
    | exact .inr (FencesStay.refl _) | exact .inr (by dsimp only) | exact .inr rfl
    | with_reducible exact (fun h => h : _ = true → _) | (dsimp only; exact (fun h => h : _ = true → _))
    | exact (fun h => h : _ = true → _)
    | with_reducible first
        | exact hE | apply adoptRecord_evolves | apply state_onLay_evolves | apply startSeal_evolves
        | apply sealIfResolved_evolves | apply sendTo_evolves | apply correctEntry_evolves
        | refine Evolves.ite (fun _ => ?_) (fun _ => ?_) | refine Evolves.foldl ?_ ?_ | refine Evolves.foldl_fst ?_ ?_
        | refine Evolves.foldl_snd ?_ ?_ | assumption
    | intro _ | dsimp only | split

theorem foundCkpt_evolves {c : Nat × Bool × Nat} {ps : List Part} {s₀ s : State} (hE : Evolves ps s₀ s)
    (hW : Sub [.journal] ps) :
    Evolves ps s₀ (foundCkpt c s) := by
  unfold foundCkpt
  repeat' first
    | exact Sub.of hW rfl | exact .inl (Sub.of hW rfl) | with_reducible exact .inr rfl
    | exact .inr (FencesStay.refl _) | exact .inr (by dsimp only) | exact .inr rfl
    | with_reducible exact (fun h => h : _ = true → _) | (dsimp only; exact (fun h => h : _ = true → _))
    | exact (fun h => h : _ = true → _)
    | with_reducible first
        | exact hE | apply state_onLay_evolves
    | dsimp only

theorem resumePending_evolves {p : PendCmd} {ps : List Part} {s₀ s : State} (hE : Evolves ps s₀ s)
    (hW : Sub [.commands, .contexts, .functions, .hostQueues, .leash, .replicas, .out] ps) :
    Evolves ps s₀ (resumePending s p) := by
  unfold resumePending
  repeat' first
    | exact Sub.of hW rfl | exact .inl (Sub.of hW rfl) | with_reducible exact .inr rfl
    | exact .inr (FencesStay.refl _) | exact .inr (by dsimp only) | exact .inr rfl
    | with_reducible exact (fun h => h : _ = true → _) | (dsimp only; exact (fun h => h : _ = true → _))
    | exact (fun h => h : _ = true → _)
    | with_reducible first
        | exact hE | apply sendNoticed_evolves | apply post_evolves | apply state_onCmd_evolves
        | refine Evolves.ite (fun _ => ?_) (fun _ => ?_)
    | dsimp only | split
    | with_reducible first
        | refine Evolves.fst_of (by assumption) ?_ | refine Evolves.snd_of (by assumption) ?_

theorem resendRead_evolves {n : Notice} {ps : List Part} {s₀ s : State} (hE : Evolves ps s₀ s)
    (hW : Sub [.contexts, .replicas, .out] ps) :
    Evolves ps s₀ (resendRead s n) := by
  unfold resendRead
  repeat' first
    | exact Sub.of hW rfl
    | with_reducible first
        | exact hE | apply onCtx_evolves | apply sendNoticed_evolves | refine Evolves.ite (fun _ => ?_) (fun _ => ?_)
    | dsimp only | split

theorem nakContext_evolves {i : Nat} {ps : List Part} {s₀ s : State} (hE : Evolves ps s₀ s)
    (hW : Sub [.contexts, .out] ps) :
    Evolves ps s₀ (nakContext s i) := by
  unfold nakContext
  repeat' first
    | exact Sub.of hW rfl | exact .inl (Sub.of hW rfl) | with_reducible exact .inr rfl
    | exact .inr (FencesStay.refl _) | exact .inr (by dsimp only) | exact .inr rfl
    | with_reducible exact (fun h => h : _ = true → _) | (dsimp only; exact (fun h => h : _ = true → _))
    | exact (fun h => h : _ = true → _)
    | with_reducible first
        | exact hE | apply state_onXpt_evolves | apply sendPacket_evolves
        | refine Evolves.ite (fun _ => ?_) (fun _ => ?_)
    | dsimp only | split

theorem resumePendings_evolves  {ps : List Part} {s₀ s : State} (hE : Evolves ps s₀ s)
    (hW : Sub [.commands, .contexts, .functions, .hostQueues, .leash, .replicas, .out] ps) :
    Evolves ps s₀ (resumePendings s) := by
  unfold resumePendings
  repeat' first
    | exact Sub.of hW rfl | exact .inl (Sub.of hW rfl) | with_reducible exact .inr rfl
    | exact .inr (FencesStay.refl _) | exact .inr (by dsimp only) | exact .inr rfl
    | with_reducible exact (fun h => h : _ = true → _) | (dsimp only; exact (fun h => h : _ = true → _))
    | exact (fun h => h : _ = true → _)
    | with_reducible first
        | exact hE | apply state_onRed_evolves | apply resumePending_evolves | apply resendRead_evolves
        | apply snapshotObjects_evolves | apply nakContext_evolves | refine Evolves.foldl ?_ ?_
        | refine Evolves.foldl_fst ?_ ?_ | refine Evolves.foldl_snd ?_ ?_ | assumption
    | intro _ | dsimp only

theorem execTakeoverReplayDone_evolves {tail : List JRec} {ckpt : Option (Nat × Bool × Nat)} {store : List (Bytes × Bytes)} {driveNs : Nat} {ps : List Part} {s₀ s : State} (hE : Evolves ps s₀ s)
    (hW : Sub [.events, .counters, .sampling, .commands, .powerState, .contexts, .mapping, .journal, .layoutWork,
      .ciphers, .batches, .custody, .storeWrites, .drivePorts, .driveSlots, .buffer, .functions, .hostQueues,
      .leash, .replicas, .roles, .regs, .regPrt, .regSwc, .regFix, .regRed, .out, .free] ps) :
    ∀ t, execTakeoverReplayDone tail ckpt store driveNs s = .next t → Evolves ps s₀ t := by
  intro t ht
  unfold execTakeoverReplayDone at ht
  repeat' first
    | (with_reducible obtain rfl := Host.Outcome.next.inj ht)
    | split at ht
    | dsimp only at ht
  all_goals
    repeat' first
      | exact Sub.of hW rfl
      | with_reducible first
          | exact hE | apply replayTail_evolves | apply foundCkpt_evolves | apply keepFloor_evolves
          | apply resumePendings_evolves | apply fixTakeover_evolves | apply offerDrives_evolves
          | apply becomeActive_evolves | refine Evolves.ite (fun _ => ?_) (fun _ => ?_)
      | dsimp only | split
      | with_reducible first
          | refine Evolves.fst_of (by assumption) ?_ | refine Evolves.snd_of (by assumption) ?_

theorem execTakeoverDone_evolves  {ps : List Part} {s₀ s : State} (hE : Evolves ps s₀ s)
    (hW : Sub [.events, .counters, .sampling, .commands, .contexts, .leash, .replicas, .out] ps) :
    ∀ t, execTakeoverDone s = .next t → Evolves ps s₀ t := by
  intro t ht
  unfold execTakeoverDone at ht
  repeat' first
    | (with_reducible obtain rfl := Host.Outcome.next.inj ht)
    | split at ht
    | dsimp only at ht
  all_goals
    repeat' first
      | exact Sub.of hW rfl | exact .inl (Sub.of hW rfl) | with_reducible exact .inr rfl
      | exact .inr (FencesStay.refl _) | exact .inr (by dsimp only) | exact .inr rfl
      | with_reducible exact (fun h => h : _ = true → _) | (dsimp only; exact (fun h => h : _ = true → _))
      | exact (fun h => h : _ = true → _)
      | with_reducible first
          | exact hE | apply state_onRed_evolves | apply boundLeave_evolves | apply pump_evolves
          | apply resumeSends_evolves | apply emit_evolves | refine Evolves.ite (fun _ => ?_) (fun _ => ?_)
          | refine Evolves.foldl ?_ ?_ | refine Evolves.foldl_fst ?_ ?_ | refine Evolves.foldl_snd ?_ ?_ | assumption
      | intro _ | dsimp only | split

theorem execFenceReceived_evolves {h : LeashHdr} {r : Nat} {ps : List Part} {s₀ s : State} (hE : Evolves ps s₀ s)
    (hW : Sub [.events, .counters, .sampling, .controllers, .queues, .commands, .powerState, .contexts, .contextCache,
      .regions, .chains, .mapping, .journal, .layoutWork, .ciphers, .jobs, .drivePorts, .driveSlots, .buffer,
      .leash, .replicas, .roles, .regs, .regCtl, .regPrt, .regCls, .regSwc, .regTmg, .regXpt, .regCmd, .regLay,
      .regFix, .regDrv, .regCip, .regTru, .regPwr, .regHep, .regRed, .regTel, .out] ps) :
    ∀ t, execFenceReceived h r s = .next t → Evolves ps s₀ t := by
  intro t ht
  unfold execFenceReceived at ht
  try (with_reducible refine onFrame_evolves ?_ ?_ (Sub.of hW rfl) _ ht <;> clear ht)
  repeat' first
    | (with_reducible obtain rfl := Host.Outcome.next.inj ht)
    | split at ht
    | dsimp only at ht
  all_goals
    repeat' first
      | exact Sub.of hW rfl
      | with_reducible first
          | exact hE | refine onFrame_evolves ?_ ?_ (Sub.of hW rfl) _ ht | apply fenceSelf_evolves
          | apply dropPeer_evolves | apply setRoleBit_evolves | apply takeover_evolves
          | refine Evolves.ite (fun _ => ?_) (fun _ => ?_) | assumption
      | intro _ | dsimp only | split

theorem execTakeoverReceived_evolves {h : LeashHdr} {epoch : Nat} {ps : List Part} {s₀ s : State} (hE : Evolves ps s₀ s)
    (hW : Sub [.events, .counters, .sampling, .commands, .driveSlots, .leash, .replicas, .roles, .regs, .regPrt,
      .regRed] ps) :
    ∀ t, execTakeoverReceived h epoch s = .next t → Evolves ps s₀ t := by
  intro t ht
  unfold execTakeoverReceived at ht
  try (with_reducible refine onFrame_evolves ?_ ?_ (Sub.of hW rfl) _ ht <;> clear ht)
  repeat' first
    | (with_reducible obtain rfl := Host.Outcome.next.inj ht)
    | split at ht
    | dsimp only at ht
  all_goals
    repeat' first
      | exact Sub.of hW rfl
      | with_reducible first
          | exact hE | refine onFrame_evolves ?_ ?_ (Sub.of hW rfl) _ ht | apply activeIs_evolves
          | apply peerSeen_evolves | apply setRoleBit_evolves | apply replicaLost_evolves | apply emit_evolves
          | apply state_setFldI_evolves | refine Evolves.ite (fun _ => ?_) (fun _ => ?_) | assumption
      | intro _ | dsimp only | split

theorem execHandoverDoneReceived_evolves {h : LeashHdr} {ps : List Part} {s₀ s : State} (hE : Evolves ps s₀ s)
    (hW : Sub [.leash, .regs, .regRed] ps) :
    ∀ t, execHandoverDoneReceived h s = .next t → Evolves ps s₀ t := by
  intro t ht
  unfold execHandoverDoneReceived at ht
  try (with_reducible refine onFrame_evolves ?_ ?_ (Sub.of hW rfl) _ ht <;> clear ht)
  repeat' first
    | (with_reducible obtain rfl := Host.Outcome.next.inj ht)
    | split at ht
    | dsimp only at ht
  all_goals
    repeat' first
      | exact Sub.of hW rfl
      | with_reducible first
          | exact hE | refine onFrame_evolves ?_ ?_ (Sub.of hW rfl) _ ht | apply activeIs_evolves
          | apply peerSeen_evolves | refine Evolves.ite (fun _ => ?_) (fun _ => ?_) | assumption
      | intro _ | dsimp only | split

theorem execJoinReceived_evolves {h : LeashHdr} {mode : Nat} {epochUs : Nat} {digest : Digest} {hasKey : Bool} {ps : List Part} {s₀ s : State} (hE : Evolves ps s₀ s)
    (hW : Sub [.events, .counters, .sampling, .commands, .contexts, .leash, .replicas, .roles, .regs, .regRed, .out] ps) :
    ∀ t, execJoinReceived h mode epochUs digest hasKey s = .next t → Evolves ps s₀ t := by
  intro t ht
  unfold execJoinReceived at ht
  try (with_reducible refine onFrame_evolves ?_ ?_ (Sub.of hW rfl) _ ht <;> clear ht)
  repeat' first
    | (with_reducible obtain rfl := Host.Outcome.next.inj ht)
    | split at ht
    | dsimp only at ht
  all_goals
    repeat' first
      | exact Sub.of hW rfl | exact .inl (Sub.of hW rfl) | with_reducible exact .inr rfl
      | exact .inr (FencesStay.refl _) | exact .inr (by dsimp only) | exact .inr rfl
      | with_reducible exact (fun h => h : _ = true → _) | (dsimp only; exact (fun h => h : _ = true → _))
      | exact (fun h => h : _ = true → _)
      | with_reducible first
          | exact hE | refine onFrame_evolves ?_ ?_ (Sub.of hW rfl) _ ht | apply peerSeen_evolves
          | apply leashSend_evolves | apply state_onRed_evolves | apply emit_evolves | apply snapshotObjects_evolves
          | apply state_setFldI_evolves | apply dropPeer_evolves | apply setRoleBit_evolves | apply boundEnter_evolves
          | apply state_setFld_evolves | refine Evolves.ite (fun _ => ?_) (fun _ => ?_) | assumption
      | intro _ | dsimp only | split
      | with_reducible first
          | refine Evolves.fst_of (by assumption) ?_ | refine Evolves.snd_of (by assumption) ?_

theorem execJoinReplyReceived_evolves {h : LeashHdr} {epoch : Nat} {refused : Option Nat} {ps : List Part} {s₀ s : State} (hE : Evolves ps s₀ s)
    (hW : Sub [.events, .counters, .sampling, .controllers, .queues, .commands, .contexts, .regions, .mapping, .journal,
      .batches, .jobs, .driveSlots, .buffer, .leash, .replicas, .roles, .regs, .regSwc, .regRed, .out] ps) :
    ∀ t, execJoinReplyReceived h epoch refused s = .next t → Evolves ps s₀ t := by
  intro t ht
  unfold execJoinReplyReceived at ht
  try (with_reducible refine onFrame_evolves ?_ ?_ (Sub.of hW rfl) _ ht <;> clear ht)
  repeat' first
    | (with_reducible obtain rfl := Host.Outcome.next.inj ht)
    | split at ht
    | dsimp only at ht
  all_goals
    repeat' first
      | exact Sub.of hW rfl | exact .inl (Sub.of hW rfl) | with_reducible exact .inr rfl
      | exact .inr (FencesStay.refl _) | exact .inr (by dsimp only) | exact .inr rfl
      | with_reducible exact (fun h => h : _ = true → _) | (dsimp only; exact (fun h => h : _ = true → _))
      | exact (fun h => h : _ = true → _)
      | with_reducible first
          | exact hE | refine onFrame_evolves ?_ ?_ (Sub.of hW rfl) _ ht | apply peerSeen_evolves
          | apply resyncFails_evolves | apply emit_evolves | apply activeIs_evolves | apply setRole_evolves
          | apply wipeObjects_evolves | apply clearReplica_evolves | apply state_setFld_evolves
          | apply state_setFldI_evolves | apply boundEnter_evolves | apply state_onRed_evolves
          | refine Evolves.ite (fun _ => ?_) (fun _ => ?_) | assumption
      | intro _ | dsimp only | split
      | with_reducible first
          | refine Evolves.fst_of (by assumption) ?_ | refine Evolves.snd_of (by assumption) ?_

theorem execBulkReceived_evolves {h : LeashHdr} {epoch : Nat} {percent : Nat} {last : Bool} {objs : List BulkObj} {ps : List Part} {s₀ s : State} (hE : Evolves ps s₀ s)
    (hW : Sub [.events, .counters, .sampling, .controllers, .queues, .namespaces, .contexts, .regions, .mapping,
      .journal, .keys, .batches, .jobs, .leash, .replicas, .regs, .regXpt, .regRed] ps) :
    ∀ t, execBulkReceived h epoch percent last objs s = .next t → Evolves ps s₀ t := by
  intro t ht
  unfold execBulkReceived at ht
  try (with_reducible refine onFrame_evolves ?_ ?_ (Sub.of hW rfl) _ ht <;> clear ht)
  repeat' first
    | (with_reducible obtain rfl := Host.Outcome.next.inj ht)
    | split at ht
    | dsimp only at ht
  all_goals
    repeat' first
      | exact Sub.of hW rfl | exact .inl (Sub.of hW rfl) | with_reducible exact .inr rfl
      | exact .inr (FencesStay.refl _) | exact .inr (by dsimp only) | exact .inr rfl
      | with_reducible exact (fun h => h : _ = true → _) | (dsimp only; exact (fun h => h : _ = true → _))
      | exact (fun h => h : _ = true → _)
      | with_reducible first
          | exact hE | refine onFrame_evolves ?_ ?_ (Sub.of hW rfl) _ ht | apply copyObject_evolves
          | apply peerSeen_evolves | apply state_setFld_evolves | apply state_onRed_evolves
          | refine Evolves.ite (fun _ => ?_) (fun _ => ?_) | refine Evolves.foldl ?_ ?_ | refine Evolves.foldl_fst ?_ ?_
          | refine Evolves.foldl_snd ?_ ?_ | assumption
      | intro _ | dsimp only | split

theorem execQueryReceived_evolves {h : LeashHdr} {kind : Nat} {slot : Fin 48} {reply : Option Bool} {ps : List Part} {s₀ s : State} (hE : Evolves ps s₀ s)
    (hW : Sub [.events, .fences, .counters, .sampling, .controllers, .namespaces, .commands, .powerState, .contexts,
      .hbm, .mapping, .journal, .layoutWork, .ciphers, .storeWrites, .drivePorts, .driveSlots, .buffer,
      .functions, .hostQueues, .leash, .replicas, .regs, .regPrt, .regSwc, .regLay, .regRed, .out] ps) :
    ∀ t, execQueryReceived h kind slot reply s = .next t → Evolves ps s₀ t := by
  intro t ht
  unfold execQueryReceived at ht
  try (with_reducible refine onFrame_evolves ?_ ?_ (Sub.of hW rfl) _ ht <;> clear ht)
  repeat' first
    | (with_reducible obtain rfl := Host.Outcome.next.inj ht)
    | split at ht
    | dsimp only at ht
  all_goals
    repeat' first
      | exact Sub.of hW rfl
      | with_reducible first
          | exact hE | refine onFrame_evolves ?_ ?_ (Sub.of hW rfl) _ ht | apply queryAnswer_evolves
          | apply leashSend_evolves | assumption
      | intro _ | dsimp only | split
      | with_reducible first
          | refine Evolves.fst_of (by assumption) ?_ | refine Evolves.snd_of (by assumption) ?_

theorem execJoinTimer_evolves  {ps : List Part} {s₀ s : State} (hE : Evolves ps s₀ s)
    (hW : Sub [.leash, .out] ps) :
    ∀ t, execJoinTimer s = .next t → Evolves ps s₀ t := by
  intro t ht
  unfold execJoinTimer at ht
  repeat' first
    | (with_reducible obtain rfl := Host.Outcome.next.inj ht)
    | split at ht
    | dsimp only at ht
  all_goals
    repeat' first
      | exact Sub.of hW rfl
      | with_reducible first
          | exact hE | apply sendAll_evolves | refine Evolves.ite (fun _ => ?_) (fun _ => ?_)
      | dsimp only | split

theorem serveFromDrives_evolves  {ps : List Part} {s₀ s : State} (hE : Evolves ps s₀ s)
    (hW : Sub [.mapping, .journal, .layoutWork, .batches, .custody, .storeWrites] ps) :
    Evolves ps s₀ (serveFromDrives s) := by
  unfold serveFromDrives
  repeat' first
    | exact Sub.of hW rfl | exact .inl (Sub.of hW rfl) | with_reducible exact .inr rfl
    | exact .inr (FencesStay.refl _) | exact .inr (by dsimp only) | exact .inr rfl
    | with_reducible exact (fun h => h : _ = true → _) | (dsimp only; exact (fun h => h : _ = true → _))
    | exact (fun h => h : _ = true → _)
    | with_reducible first
        | exact hE | apply state_onFix_evolves | apply state_onLay_evolves
    | dsimp only

theorem forgetHosts_evolves  {ps : List Part} {s₀ s : State} (hE : Evolves ps s₀ s)
    (hW : Sub [.controllers, .queues, .commands, .contexts, .regions, .buffer, .regs, .regSwc, .out] ps) :
    Evolves ps s₀ (forgetHosts s) := by
  unfold forgetHosts
  repeat' first
    | exact Sub.of hW rfl | exact .inl (Sub.of hW rfl) | with_reducible exact .inr rfl
    | exact .inr (FencesStay.refl _) | exact .inr (by dsimp only) | exact .inr rfl
    | with_reducible exact (fun h => h : _ = true → _) | (dsimp only; exact (fun h => h : _ = true → _))
    | exact (fun h => h : _ = true → _)
    | with_reducible first
        | exact hE | apply state_onXpt_evolves | apply sweepSlots_evolves | apply state_onCmd_evolves
    | dsimp only

theorem execJoinTimeExpiry_evolves  {ps : List Part} {s₀ s : State} (hE : Evolves ps s₀ s)
    (hW : Sub [.events, .counters, .sampling, .controllers, .queues, .commands, .contexts, .regions, .mapping, .journal,
      .layoutWork, .batches, .custody, .storeWrites, .driveSlots, .buffer, .regs, .regPrt, .regSwc, .regRed,
      .out] ps) :
    ∀ t, execJoinTimeExpiry s = .next t → Evolves ps s₀ t := by
  intro t ht
  unfold execJoinTimeExpiry at ht
  repeat' first
    | (with_reducible obtain rfl := Host.Outcome.next.inj ht)
    | split at ht
    | dsimp only at ht
  all_goals
    repeat' first
      | exact Sub.of hW rfl
      | with_reducible first
          | exact hE | apply keepFloor_evolves | apply startPreempt_evolves | apply serveFromDrives_evolves
          | apply forgetHosts_evolves | apply countQuorum_evolves | apply activeIs_evolves | apply setRole_evolves
          | refine Evolves.ite (fun _ => ?_) (fun _ => ?_)
      | dsimp only | split

theorem execReservationCheck_evolves {held : Bool} {ps : List Part} {s₀ s : State} (hE : Evolves ps s₀ s)
    (hW : Sub [.events, .counters, .sampling, .driveSlots, .regs, .regPrt, .regRed, .out] ps) :
    ∀ t, execReservationCheck held s = .next t → Evolves ps s₀ t := by
  intro t ht
  unfold execReservationCheck at ht
  repeat' first
    | (with_reducible obtain rfl := Host.Outcome.next.inj ht)
    | split at ht
    | dsimp only at ht
  all_goals
    repeat' first
      | exact Sub.of hW rfl
      | with_reducible first
          | exact hE | apply state_send_evolves | apply standDown_evolves
          | refine Evolves.ite (fun _ => ?_) (fun _ => ?_)
      | dsimp only | split
      | with_reducible first
          | refine Evolves.fst_of (by assumption) ?_ | refine Evolves.snd_of (by assumption) ?_

theorem execHandover_evolves  {ps : List Part} {s₀ s : State} (hE : Evolves ps s₀ s)
    (hW : Sub [.events, .counters, .sampling, .commands, .contexts, .driveSlots, .buffer, .leash, .replicas, .roles,
      .regs, .regPrt, .regSwc, .regRed, .out, .free] ps) :
    ∀ t, execHandover s = .next t → Evolves ps s₀ t := by
  intro t ht
  unfold execHandover at ht
  repeat' first
    | (with_reducible obtain rfl := Host.Outcome.next.inj ht)
    | split at ht
    | dsimp only at ht
  all_goals
    repeat' first
      | exact Sub.of hW rfl | exact .inl (Sub.of hW rfl) | with_reducible exact .inr rfl
      | exact .inr (FencesStay.refl _) | exact .inr (by dsimp only) | exact .inr rfl
      | with_reducible exact (fun h => h : _ = true → _) | (dsimp only; exact (fun h => h : _ = true → _))
      | exact (fun h => h : _ = true → _)
      | with_reducible first
          | exact hE | apply setRoleBit_evolves | apply formRecord_evolves | apply state_onRed_evolves
          | apply sweepSlots_evolves | apply state_onCmd_evolves | apply emit_evolves | apply activeIs_evolves
          | apply countQuorum_evolves | apply setRole_evolves | apply keepFloor_evolves | apply state_setFld_evolves
          | refine Evolves.ite (fun _ => ?_) (fun _ => ?_)
      | dsimp only | split
      | with_reducible first
          | refine Evolves.fst_of (by assumption) ?_ | refine Evolves.snd_of (by assumption) ?_

theorem execHandoverDrainLimit_evolves  {ps : List Part} {s₀ s : State} (hE : Evolves ps s₀ s)
    (hW : Sub [.roles, .regs, .regRed] ps) :
    ∀ t, execHandoverDrainLimit s = .next t → Evolves ps s₀ t := by
  intro t ht
  unfold execHandoverDrainLimit at ht
  repeat' first
    | (with_reducible obtain rfl := Host.Outcome.next.inj ht)
    | split at ht
    | dsimp only at ht
  all_goals
    repeat' first
      | exact Sub.of hW rfl | exact .inl (Sub.of hW rfl) | with_reducible exact .inr rfl
      | exact .inr (FencesStay.refl _) | exact .inr (by dsimp only) | exact .inr rfl
      | with_reducible exact (fun h => h : _ = true → _) | (dsimp only; exact (fun h => h : _ = true → _))
      | exact (fun h => h : _ = true → _)
      | with_reducible first
          | exact hE | apply state_setFld_evolves | apply state_onRed_evolves
      | dsimp only | split
      | with_reducible first
          | refine Evolves.fst_of (by assumption) ?_ | refine Evolves.snd_of (by assumption) ?_

theorem execEpochRecordSent_evolves  {ps : List Part} {s₀ s : State} (hE : Evolves ps s₀ s)
    (hW : Sub [.events, .counters, .sampling, .leash, .regs, .regRed, .out] ps) :
    ∀ t, execEpochRecordSent s = .next t → Evolves ps s₀ t := by
  intro t ht
  unfold execEpochRecordSent at ht
  repeat' first
    | (with_reducible obtain rfl := Host.Outcome.next.inj ht)
    | split at ht
    | dsimp only at ht
  all_goals
    repeat' first
      | exact Sub.of hW rfl | exact .inl (Sub.of hW rfl) | with_reducible exact .inr rfl
      | exact .inr (FencesStay.refl _) | exact .inr (by dsimp only) | exact .inr rfl
      | with_reducible exact (fun h => h : _ = true → _) | (dsimp only; exact (fun h => h : _ = true → _))
      | exact (fun h => h : _ = true → _)
      | with_reducible first
          | exact hE | apply setEpoch_evolves | apply sayBacklog_evolves | apply state_onRed_evolves
          | apply sendAcks_evolves
      | dsimp only | split
      | with_reducible first
          | refine Evolves.fst_of (by assumption) ?_ | refine Evolves.snd_of (by assumption) ?_

end Sys2Proof.Machine
end

