-- ==== Sys2Proof/Laws/FrameReset.lean ====
section
/-! SUPPORT. What the operations of Machine/Reset.lean change at most: one lemma each. -/

namespace Sys2Proof.Machine

set_option linter.unusedTactic false
set_option linter.unreachableTactic false
set_option linter.unusedVariables false

theorem floorAfter_evolves  {ps : List Part} {s₀ s : State} (hE : Evolves ps s₀ s)
    (hW : Sub [.commands] ps) :
    Evolves ps s₀ (floorAfter s) := by
  unfold floorAfter
  repeat' first
    | exact Sub.of hW rfl | exact .inl (Sub.of hW rfl) | with_reducible exact .inr rfl
    | exact .inr (FencesStay.refl _) | exact .inr (by dsimp only) | exact .inr rfl
    | with_reducible exact (fun h => h : _ = true → _) | (dsimp only; exact (fun h => h : _ = true → _))
    | exact (fun h => h : _ = true → _)
    | with_reducible first
        | exact hE | apply state_onCmd_evolves | refine Evolves.ite (fun _ => ?_) (fun _ => ?_)
    | dsimp only | split

theorem regsAfter_wf {warm : Bool} {regs : Tab Word} : regsWf (regsAfter warm regs) := by
  unfold regsAfter fldSet
  refine regsWf_set ?_ _ _
  have h0 : regsWf [] := ⟨by simp, List.Pairwise.nil⟩
  split
  · exact regsWf_set (foldl_keeps (P := regsWf) (fun _ _ h => by exact regsWf_set h _ _) _ _ h0) _ _
  · exact h0

theorem resetState_evolves {warm : Bool} {cause : Nat} {ps : List Part} {s₀ s : State} (hE : Evolves ps s₀ s)
    (hW : Sub [.events, .time, .paths, .fences, .held, .rings, .clog, .sessions, .bone, .principals, .images, .stores,
      .marks, .identity, .cores, .counters, .snapshot, .sampling, .boot, .controllers, .queues, .namespaces,
      .commands, .activation, .powerState, .contexts, .contextCache, .regions, .chains, .hbm, .mapping,
      .journal, .layoutWork, .keys, .keyOrders, .ciphers, .trust, .batches, .custody, .jobs, .storeWrites,
      .drivePorts, .driveSlots, .classifier, .punts, .stamps, .buffer, .groups, .tables, .traffic, .functions,
      .hostReads, .hostQueues, .peerTable, .peerMem, .leash, .replicas, .roles, .legs, .feeds, .regs, .regCtl,
      .regPrt, .regCls, .regSwc, .regTmg, .regXpt, .regCmd, .regLay, .regFix, .regDrv, .regCip, .regTru,
      .regPwr, .regHep, .regRed, .regTel, .heldCommands, .out, .free, .records, .clock, .forward, .fenced] ps) :
    Evolves ps s₀ (resetState warm cause s) := by
  unfold resetState
  refine floorAfter_evolves (hE.trans ⟨fun p hp => absurd (hW p (by cases p <;> decide)) hp, List.prefix_refl _, Nat.le_refl _,
    ?_, fun _ => ⟨rfl, rfl, regsAfter_wf⟩, rfl⟩) (Sub.of hW rfl)
  cases warm <;> exact Nat.le_refl _

theorem dropSessionKeys_evolves  {ps : List Part} {s₀ s : State} (hE : Evolves ps s₀ s)
    (hW : Sub [.keys] ps) :
    Evolves ps s₀ (dropSessionKeys s) := by
  unfold dropSessionKeys
  repeat' first
    | exact Sub.of hW rfl
    | with_reducible first
        | exact hE | apply freeKey_evolves | refine Evolves.foldl ?_ ?_ | refine Evolves.foldl_fst ?_ ?_
        | refine Evolves.foldl_snd ?_ ?_ | assumption
    | intro _ | dsimp only

theorem coldReset_evolves {cause : Nat} {ps : List Part} {s₀ s : State} (hE : Evolves ps s₀ s)
    (hW : Sub [.events, .time, .paths, .fences, .held, .rings, .clog, .sessions, .bone, .principals, .images, .stores,
      .marks, .identity, .cores, .counters, .snapshot, .sampling, .boot, .controllers, .queues, .namespaces,
      .commands, .activation, .powerState, .contexts, .contextCache, .regions, .chains, .hbm, .mapping,
      .journal, .layoutWork, .keys, .keyOrders, .ciphers, .trust, .batches, .custody, .jobs, .storeWrites,
      .drivePorts, .driveSlots, .classifier, .punts, .stamps, .buffer, .groups, .tables, .traffic, .functions,
      .hostReads, .hostQueues, .peerTable, .peerMem, .leash, .replicas, .roles, .legs, .feeds, .regs, .regCtl,
      .regPrt, .regCls, .regSwc, .regTmg, .regXpt, .regCmd, .regLay, .regFix, .regDrv, .regCip, .regTru,
      .regPwr, .regHep, .regRed, .regTel, .heldCommands, .out, .free, .records, .clock, .forward, .fenced] ps) :
    Evolves ps s₀ (coldReset cause s) := by
  unfold coldReset
  repeat' first
    | exact Sub.of hW rfl
    | with_reducible first
        | exact hE | apply resetState_evolves | apply dropSessionKeys_evolves
    | dsimp only

theorem warmReset_evolves {cause : Nat} {ps : List Part} {s₀ s : State} (hE : Evolves ps s₀ s)
    (hW : Sub [.events, .time, .paths, .fences, .held, .rings, .clog, .sessions, .bone, .principals, .images, .stores,
      .marks, .identity, .cores, .counters, .snapshot, .sampling, .boot, .controllers, .queues, .namespaces,
      .commands, .activation, .powerState, .contexts, .contextCache, .regions, .chains, .hbm, .mapping,
      .journal, .layoutWork, .keys, .keyOrders, .ciphers, .trust, .batches, .custody, .jobs, .storeWrites,
      .drivePorts, .driveSlots, .classifier, .punts, .stamps, .buffer, .groups, .tables, .traffic, .functions,
      .hostReads, .hostQueues, .peerTable, .peerMem, .leash, .replicas, .roles, .legs, .feeds, .regs, .regCtl,
      .regPrt, .regCls, .regSwc, .regTmg, .regXpt, .regCmd, .regLay, .regFix, .regDrv, .regCip, .regTru,
      .regPwr, .regHep, .regRed, .regTel, .heldCommands, .out, .free, .records, .clock, .forward, .fenced] ps) :
    Evolves ps s₀ (warmReset cause s) := by
  unfold warmReset
  repeat' first
    | exact Sub.of hW rfl
    | with_reducible first
        | exact hE | apply closeSession_evolves | apply resetState_evolves | apply dropSessionKeys_evolves
        | refine Evolves.ite (fun _ => ?_) (fun _ => ?_) | refine Evolves.foldl ?_ ?_ | refine Evolves.foldl_fst ?_ ?_
        | refine Evolves.foldl_snd ?_ ?_ | assumption
    | intro _ | dsimp only | split

theorem execI3cRestart_evolves {port : Fin 2} {ps : List Part} {s₀ s : State} (hE : Evolves ps s₀ s)
    (hW : Sub [.events, .time, .paths, .fences, .held, .rings, .clog, .sessions, .bone, .principals, .images, .stores,
      .marks, .identity, .cores, .counters, .snapshot, .sampling, .boot, .controllers, .queues, .namespaces,
      .commands, .activation, .powerState, .contexts, .contextCache, .regions, .chains, .hbm, .mapping,
      .journal, .layoutWork, .keys, .keyOrders, .ciphers, .trust, .batches, .custody, .jobs, .storeWrites,
      .drivePorts, .driveSlots, .classifier, .punts, .stamps, .buffer, .groups, .tables, .traffic, .functions,
      .hostReads, .hostQueues, .peerTable, .peerMem, .leash, .replicas, .roles, .legs, .feeds, .regs, .regCtl,
      .regPrt, .regCls, .regSwc, .regTmg, .regXpt, .regCmd, .regLay, .regFix, .regDrv, .regCip, .regTru,
      .regPwr, .regHep, .regRed, .regTel, .heldCommands, .out, .free, .records, .clock, .forward, .fenced] ps) :
    ∀ t, execI3cRestart port s = .next t → Evolves ps s₀ t := by
  intro t ht
  unfold execI3cRestart at ht
  repeat' first
    | (with_reducible obtain rfl := Host.Outcome.next.inj ht)
    | split at ht
    | dsimp only at ht
  all_goals
    repeat' first
      | exact Sub.of hW rfl
      | with_reducible first
          | exact hE | apply warmReset_evolves | refine Evolves.ite (fun _ => ?_) (fun _ => ?_)
      | dsimp only | split

theorem unsayPowerFail_evolves  {ps : List Part} {s₀ s : State} (hE : Evolves ps s₀ s)
    (hW : Sub [.clog, .regs, .regCtl] ps) :
    Evolves ps s₀ (unsayPowerFail s) := by
  unfold unsayPowerFail
  repeat' first
    | exact Sub.of hW rfl | exact .inl (Sub.of hW rfl) | with_reducible exact .inr rfl
    | exact .inr (FencesStay.refl _) | exact .inr (by dsimp only) | exact .inr rfl
    | with_reducible exact (fun h => h : _ = true → _) | (dsimp only; exact (fun h => h : _ = true → _))
    | exact (fun h => h : _ = true → _) | exact rfl | exact Nat.le_refl _
    | with_reducible first
        | exact hE | apply state_setFld_evolves | apply state_onCtl_evolves
        | refine Evolves.ite (fun _ => ?_) (fun _ => ?_)
    | dsimp only | split
    | with_reducible first
        | refine Evolves.fst_of (by assumption) ?_ | refine Evolves.snd_of (by assumption) ?_

theorem execThermTrip_evolves  {ps : List Part} {s₀ s : State} (hE : Evolves ps s₀ s)
    (hW : Sub [.events, .time, .paths, .fences, .held, .rings, .clog, .sessions, .bone, .principals, .images, .stores,
      .marks, .identity, .cores, .counters, .snapshot, .sampling, .boot, .controllers, .queues, .namespaces,
      .commands, .activation, .powerState, .contexts, .contextCache, .regions, .chains, .hbm, .mapping,
      .journal, .layoutWork, .keys, .keyOrders, .ciphers, .trust, .batches, .custody, .jobs, .storeWrites,
      .drivePorts, .driveSlots, .classifier, .punts, .stamps, .buffer, .groups, .tables, .traffic, .functions,
      .hostReads, .hostQueues, .peerTable, .peerMem, .leash, .replicas, .roles, .legs, .feeds, .regs, .regCtl,
      .regPrt, .regCls, .regSwc, .regTmg, .regXpt, .regCmd, .regLay, .regFix, .regDrv, .regCip, .regTru,
      .regPwr, .regHep, .regRed, .regTel, .heldCommands, .out, .free, .records, .clock, .forward, .fenced] ps) :
    ∀ t, execThermTrip s = .next t → Evolves ps s₀ t := by
  intro t ht
  unfold execThermTrip at ht
  repeat' first
    | (with_reducible obtain rfl := Host.Outcome.next.inj ht)
    | split at ht
    | dsimp only at ht
  all_goals
    repeat' first
      | exact Sub.of hW rfl | exact .inl (Sub.of hW rfl) | with_reducible exact .inr rfl
      | exact .inr (FencesStay.refl _) | exact .inr (by dsimp only) | exact .inr rfl
      | with_reducible exact (fun h => h : _ = true → _) | (dsimp only; exact (fun h => h : _ = true → _))
      | exact (fun h => h : _ = true → _)
      | with_reducible first
          | exact hE | apply logCritical_evolves | apply unsayPowerFail_evolves | apply coldReset_evolves
          | apply state_onBoot_evolves | refine Evolves.ite (fun _ => ?_) (fun _ => ?_)
      | dsimp only | split

theorem execPowerOnReset_evolves  {ps : List Part} {s₀ s : State} (hE : Evolves ps s₀ s)
    (hW : Sub [.events, .time, .paths, .fences, .held, .rings, .clog, .sessions, .bone, .principals, .images, .stores,
      .marks, .identity, .cores, .counters, .snapshot, .sampling, .boot, .controllers, .queues, .namespaces,
      .commands, .activation, .powerState, .contexts, .contextCache, .regions, .chains, .hbm, .mapping,
      .journal, .layoutWork, .keys, .keyOrders, .ciphers, .trust, .batches, .custody, .jobs, .storeWrites,
      .drivePorts, .driveSlots, .classifier, .punts, .stamps, .buffer, .groups, .tables, .traffic, .functions,
      .hostReads, .hostQueues, .peerTable, .peerMem, .leash, .replicas, .roles, .legs, .feeds, .regs, .regCtl,
      .regPrt, .regCls, .regSwc, .regTmg, .regXpt, .regCmd, .regLay, .regFix, .regDrv, .regCip, .regTru,
      .regPwr, .regHep, .regRed, .regTel, .heldCommands, .out, .free, .records, .clock, .forward, .fenced] ps) :
    ∀ t, execPowerOnReset s = .next t → Evolves ps s₀ t := by
  intro t ht
  unfold execPowerOnReset at ht
  repeat' first
    | (with_reducible obtain rfl := Host.Outcome.next.inj ht)
    | split at ht
    | dsimp only at ht
  all_goals
    repeat' first
      | exact Sub.of hW rfl | exact .inl (Sub.of hW rfl) | with_reducible exact .inr rfl
      | exact .inr (FencesStay.refl _) | exact .inr (by dsimp only) | exact .inr rfl
      | with_reducible exact (fun h => h : _ = true → _) | (dsimp only; exact (fun h => h : _ = true → _))
      | exact (fun h => h : _ = true → _)
      | with_reducible first
          | exact hE | apply coldReset_evolves | apply state_onBoot_evolves
      | dsimp only

theorem execFundamentalReset_evolves  {ps : List Part} {s₀ s : State} (hE : Evolves ps s₀ s)
    (hW : Sub [.events, .time, .paths, .fences, .held, .rings, .clog, .sessions, .bone, .principals, .images, .stores,
      .marks, .identity, .cores, .counters, .snapshot, .sampling, .boot, .controllers, .queues, .namespaces,
      .commands, .activation, .powerState, .contexts, .contextCache, .regions, .chains, .hbm, .mapping,
      .journal, .layoutWork, .keys, .keyOrders, .ciphers, .trust, .batches, .custody, .jobs, .storeWrites,
      .drivePorts, .driveSlots, .classifier, .punts, .stamps, .buffer, .groups, .tables, .traffic, .functions,
      .hostReads, .hostQueues, .peerTable, .peerMem, .leash, .replicas, .roles, .legs, .feeds, .regs, .regCtl,
      .regPrt, .regCls, .regSwc, .regTmg, .regXpt, .regCmd, .regLay, .regFix, .regDrv, .regCip, .regTru,
      .regPwr, .regHep, .regRed, .regTel, .heldCommands, .out, .free, .records, .clock, .forward, .fenced] ps) :
    ∀ t, execFundamentalReset s = .next t → Evolves ps s₀ t := by
  intro t ht
  unfold execFundamentalReset at ht
  repeat' first
    | (with_reducible obtain rfl := Host.Outcome.next.inj ht)
    | split at ht
    | dsimp only at ht
  all_goals
    repeat' first
      | exact Sub.of hW rfl | exact .inl (Sub.of hW rfl) | with_reducible exact .inr rfl
      | exact .inr (FencesStay.refl _) | exact .inr (by dsimp only) | exact .inr rfl
      | with_reducible exact (fun h => h : _ = true → _) | (dsimp only; exact (fun h => h : _ = true → _))
      | exact (fun h => h : _ = true → _)
      | with_reducible first
          | exact hE | apply coldReset_evolves | apply state_onBoot_evolves
      | dsimp only

theorem execPowerGoodLoss_evolves {pgood : Fin 16} {ps : List Part} {s₀ s : State} (hE : Evolves ps s₀ s)
    (hW : Sub [.events, .time, .paths, .fences, .held, .rings, .clog, .sessions, .bone, .principals, .images, .stores,
      .marks, .identity, .cores, .counters, .snapshot, .sampling, .boot, .controllers, .queues, .namespaces,
      .commands, .activation, .powerState, .contexts, .contextCache, .regions, .chains, .hbm, .mapping,
      .journal, .layoutWork, .keys, .keyOrders, .ciphers, .trust, .batches, .custody, .jobs, .storeWrites,
      .drivePorts, .driveSlots, .classifier, .punts, .stamps, .buffer, .groups, .tables, .traffic, .functions,
      .hostReads, .hostQueues, .peerTable, .peerMem, .leash, .replicas, .roles, .legs, .feeds, .regs, .regCtl,
      .regPrt, .regCls, .regSwc, .regTmg, .regXpt, .regCmd, .regLay, .regFix, .regDrv, .regCip, .regTru,
      .regPwr, .regHep, .regRed, .regTel, .heldCommands, .out, .free, .records, .clock, .forward, .fenced] ps) :
    ∀ t, execPowerGoodLoss pgood s = .next t → Evolves ps s₀ t := by
  intro t ht
  unfold execPowerGoodLoss at ht
  repeat' first
    | (with_reducible obtain rfl := Host.Outcome.next.inj ht)
    | split at ht
    | dsimp only at ht
  all_goals
    repeat' first
      | exact Sub.of hW rfl | exact .inl (Sub.of hW rfl) | with_reducible exact .inr rfl
      | exact .inr (FencesStay.refl _) | exact .inr (by dsimp only) | exact .inr rfl
      | with_reducible exact (fun h => h : _ = true → _) | (dsimp only; exact (fun h => h : _ = true → _))
      | exact (fun h => h : _ = true → _)
      | with_reducible first
          | exact hE | apply state_onBoot_evolves | apply coldReset_evolves | apply logCritical_evolves
          | refine Evolves.ite (fun _ => ?_) (fun _ => ?_)
      | dsimp only | split

theorem execWarmResetPin_evolves  {ps : List Part} {s₀ s : State} (hE : Evolves ps s₀ s)
    (hW : Sub [.events, .time, .paths, .fences, .held, .rings, .clog, .sessions, .bone, .principals, .images, .stores,
      .marks, .identity, .cores, .counters, .snapshot, .sampling, .boot, .controllers, .queues, .namespaces,
      .commands, .activation, .powerState, .contexts, .contextCache, .regions, .chains, .hbm, .mapping,
      .journal, .layoutWork, .keys, .keyOrders, .ciphers, .trust, .batches, .custody, .jobs, .storeWrites,
      .drivePorts, .driveSlots, .classifier, .punts, .stamps, .buffer, .groups, .tables, .traffic, .functions,
      .hostReads, .hostQueues, .peerTable, .peerMem, .leash, .replicas, .roles, .legs, .feeds, .regs, .regCtl,
      .regPrt, .regCls, .regSwc, .regTmg, .regXpt, .regCmd, .regLay, .regFix, .regDrv, .regCip, .regTru,
      .regPwr, .regHep, .regRed, .regTel, .heldCommands, .out, .free, .records, .clock, .forward, .fenced] ps) :
    ∀ t, execWarmResetPin s = .next t → Evolves ps s₀ t := by
  intro t ht
  unfold execWarmResetPin at ht
  repeat' first
    | (with_reducible obtain rfl := Host.Outcome.next.inj ht)
    | split at ht
    | dsimp only at ht
  all_goals
    repeat' first
      | exact Sub.of hW rfl | exact .inl (Sub.of hW rfl) | with_reducible exact .inr rfl
      | exact .inr (FencesStay.refl _) | exact .inr (by dsimp only) | exact .inr rfl
      | with_reducible exact (fun h => h : _ = true → _) | (dsimp only; exact (fun h => h : _ = true → _))
      | exact (fun h => h : _ = true → _)
      | with_reducible first
          | exact hE | apply warmReset_evolves | apply state_onBoot_evolves
      | dsimp only

theorem execSystemWatchdogExpiry_evolves  {ps : List Part} {s₀ s : State} (hE : Evolves ps s₀ s)
    (hW : Sub [.events, .time, .paths, .fences, .held, .rings, .clog, .sessions, .bone, .principals, .images, .stores,
      .marks, .identity, .cores, .counters, .snapshot, .sampling, .boot, .controllers, .queues, .namespaces,
      .commands, .activation, .powerState, .contexts, .contextCache, .regions, .chains, .hbm, .mapping,
      .journal, .layoutWork, .keys, .keyOrders, .ciphers, .trust, .batches, .custody, .jobs, .storeWrites,
      .drivePorts, .driveSlots, .classifier, .punts, .stamps, .buffer, .groups, .tables, .traffic, .functions,
      .hostReads, .hostQueues, .peerTable, .peerMem, .leash, .replicas, .roles, .legs, .feeds, .regs, .regCtl,
      .regPrt, .regCls, .regSwc, .regTmg, .regXpt, .regCmd, .regLay, .regFix, .regDrv, .regCip, .regTru,
      .regPwr, .regHep, .regRed, .regTel, .heldCommands, .out, .free, .records, .clock, .forward, .fenced] ps) :
    ∀ t, execSystemWatchdogExpiry s = .next t → Evolves ps s₀ t := by
  intro t ht
  unfold execSystemWatchdogExpiry at ht
  repeat' first
    | (with_reducible obtain rfl := Host.Outcome.next.inj ht)
    | split at ht
    | dsimp only at ht
  all_goals
    repeat' first
      | exact Sub.of hW rfl
      | with_reducible first
          | exact hE | apply warmReset_evolves | refine Evolves.ite (fun _ => ?_) (fun _ => ?_)
      | dsimp only | split

theorem execRecoveryRestart_evolves  {ps : List Part} {s₀ s : State} (hE : Evolves ps s₀ s)
    (hW : Sub [.events, .time, .paths, .fences, .held, .rings, .clog, .sessions, .bone, .principals, .images, .stores,
      .marks, .identity, .cores, .counters, .snapshot, .sampling, .boot, .controllers, .queues, .namespaces,
      .commands, .activation, .powerState, .contexts, .contextCache, .regions, .chains, .hbm, .mapping,
      .journal, .layoutWork, .keys, .keyOrders, .ciphers, .trust, .batches, .custody, .jobs, .storeWrites,
      .drivePorts, .driveSlots, .classifier, .punts, .stamps, .buffer, .groups, .tables, .traffic, .functions,
      .hostReads, .hostQueues, .peerTable, .peerMem, .leash, .replicas, .roles, .legs, .feeds, .regs, .regCtl,
      .regPrt, .regCls, .regSwc, .regTmg, .regXpt, .regCmd, .regLay, .regFix, .regDrv, .regCip, .regTru,
      .regPwr, .regHep, .regRed, .regTel, .heldCommands, .out, .free, .records, .clock, .forward, .fenced] ps) :
    ∀ t, execRecoveryRestart s = .next t → Evolves ps s₀ t := by
  intro t ht
  unfold execRecoveryRestart at ht
  repeat' first
    | (with_reducible obtain rfl := Host.Outcome.next.inj ht)
    | split at ht
    | dsimp only at ht
  all_goals
    repeat' first
      | exact Sub.of hW rfl
      | with_reducible first
          | exact hE | apply warmReset_evolves | refine Evolves.ite (fun _ => ?_) (fun _ => ?_)
      | dsimp only | split

end Sys2Proof.Machine
end

