-- ==== Sys2Proof/Laws/FrameTrust.lean ====
section
/-! SUPPORT. What the operations of Machine/Trust.lean change at most: one lemma each. -/

namespace Sys2Proof.Machine

set_option linter.unusedTactic false
set_option linter.unreachableTactic false
set_option linter.unusedVariables false

theorem countImageKeys_evolves  {ps : List Part} {s₀ s : State} (hE : Evolves ps s₀ s)
    (hW : Sub [.regs, .regTru] ps) :
    Evolves ps s₀ (countImageKeys s) := by
  unfold countImageKeys
  repeat' first
    | exact Sub.of hW rfl
    | with_reducible first
        | exact hE | apply state_setFld_evolves
    | dsimp only

theorem trustOrder_evolves {path : Fin 5} {session : Nat} {value : Word} {run : State → State × Nat} {ps : List Part} {s₀ s : State} (hE : Evolves ps s₀ s)
    (hrun : ∀ (t : State), Evolves ps s₀ t → Evolves ps s₀ ((run t)).1)
    (hW : Sub [.events, .sessions, .marks, .counters, .sampling, .regs, .regCtl, .regTru, .out] ps) :
    Evolves ps s₀ (trustOrder path session value run s) := by
  unfold trustOrder
  repeat' first
    | exact Sub.of hW rfl
    | with_reducible first
        | exact hE | apply writeGate_evolves | apply state_setFld_evolves | apply hrun
        | refine Evolves.ite (fun _ => ?_) (fun _ => ?_) | assumption
    | intro _ | dsimp only | split
    | with_reducible first
        | refine Evolves.fst_of (by assumption) ?_ | refine Evolves.snd_of (by assumption) ?_

theorem execTruRotate_evolves {path : Fin 5} {session : Nat} {value : Word} {ps : List Part} {s₀ s : State} (hE : Evolves ps s₀ s)
    (hW : Sub [.events, .sessions, .marks, .counters, .sampling, .trust, .regs, .regCtl, .regTru, .out] ps) :
    ∀ t, execTruRotate path session value s = .next t → Evolves ps s₀ t := by
  intro t ht
  unfold execTruRotate at ht
  repeat' first
    | (with_reducible obtain rfl := Host.Outcome.next.inj ht)
    | split at ht
    | dsimp only at ht
  all_goals
    repeat' first
      | exact Sub.of hW rfl | exact .inl (Sub.of hW rfl) | with_reducible exact .inr rfl
      | exact .inr (FencesStay.refl _) | exact .inr (by dsimp only) | exact .inr rfl
      | with_reducible exact (fun h => h : _ = true → _) | (dsimp only; exact (fun h => h : _ = true → _))
      | exact (fun h => h : _ = true → _) | exact rfl | exact Nat.le_refl _
      | with_reducible first
          | exact hE | apply trustOrder_evolves | apply state_onTru_evolves | apply trustChange_evolves
          | apply state_setFld_evolves | refine Evolves.ite (fun _ => ?_) (fun _ => ?_) | assumption
      | intro _ | dsimp only | split

theorem execTruRollback_evolves {path : Fin 5} {session : Nat} {value : Word} {ps : List Part} {s₀ s : State} (hE : Evolves ps s₀ s)
    (hW : Sub [.events, .sessions, .marks, .counters, .sampling, .trust, .regs, .regCtl, .regTru, .out] ps) :
    ∀ t, execTruRollback path session value s = .next t → Evolves ps s₀ t := by
  intro t ht
  unfold execTruRollback at ht
  repeat' first
    | (with_reducible obtain rfl := Host.Outcome.next.inj ht)
    | split at ht
    | dsimp only at ht
  all_goals
    repeat' first
      | exact Sub.of hW rfl | exact .inl (Sub.of hW rfl) | with_reducible exact .inr rfl
      | exact .inr (FencesStay.refl _) | exact .inr (by dsimp only) | exact .inr rfl
      | with_reducible exact (fun h => h : _ = true → _) | (dsimp only; exact (fun h => h : _ = true → _))
      | exact (fun h => h : _ = true → _) | exact rfl | exact Nat.le_refl _ | exact Nat.le_max_right _ _
      | with_reducible first
          | exact hE | apply trustOrder_evolves | apply trustChange_evolves | apply state_setFld_evolves
          | apply state_onTru_evolves | refine Evolves.ite (fun _ => ?_) (fun _ => ?_) | assumption
      | intro _ | dsimp only | split

theorem execTruEnrolImageKey_evolves {path : Fin 5} {session : Nat} {value : Word} {ps : List Part} {s₀ s : State} (hE : Evolves ps s₀ s)
    (hW : Sub [.events, .sessions, .marks, .counters, .sampling, .trust, .regs, .regCtl, .regTru, .out] ps) :
    ∀ t, execTruEnrolImageKey path session value s = .next t → Evolves ps s₀ t := by
  intro t ht
  unfold execTruEnrolImageKey at ht
  repeat' first
    | (with_reducible obtain rfl := Host.Outcome.next.inj ht)
    | split at ht
    | dsimp only at ht
  all_goals
    repeat' first
      | exact Sub.of hW rfl | exact .inl (Sub.of hW rfl) | with_reducible exact .inr rfl
      | exact .inr (FencesStay.refl _) | exact .inr (by dsimp only) | exact .inr rfl
      | with_reducible exact (fun h => h : _ = true → _) | (dsimp only; exact (fun h => h : _ = true → _))
      | exact (fun h => h : _ = true → _) | exact rfl | exact Nat.le_refl _
      | with_reducible first
          | exact hE | apply trustOrder_evolves | apply state_onTru_evolves | apply trustChange_evolves
          | apply countImageKeys_evolves | refine Evolves.ite (fun _ => ?_) (fun _ => ?_) | assumption
      | intro _ | dsimp only | split

theorem execTruRemoveImageKey_evolves {path : Fin 5} {session : Nat} {value : Word} {ps : List Part} {s₀ s : State} (hE : Evolves ps s₀ s)
    (hW : Sub [.events, .sessions, .marks, .counters, .sampling, .trust, .regs, .regCtl, .regTru, .out] ps) :
    ∀ t, execTruRemoveImageKey path session value s = .next t → Evolves ps s₀ t := by
  intro t ht
  unfold execTruRemoveImageKey at ht
  repeat' first
    | (with_reducible obtain rfl := Host.Outcome.next.inj ht)
    | split at ht
    | dsimp only at ht
  all_goals
    repeat' first
      | exact Sub.of hW rfl | exact .inl (Sub.of hW rfl) | with_reducible exact .inr rfl
      | exact .inr (FencesStay.refl _) | exact .inr (by dsimp only) | exact .inr rfl
      | with_reducible exact (fun h => h : _ = true → _) | (dsimp only; exact (fun h => h : _ = true → _))
      | exact (fun h => h : _ = true → _) | exact rfl | exact Nat.le_refl _
      | with_reducible first
          | exact hE | apply trustOrder_evolves | apply trustChange_evolves | apply countImageKeys_evolves
          | apply state_onTru_evolves | refine Evolves.ite (fun _ => ?_) (fun _ => ?_) | assumption
      | intro _ | dsimp only | split

theorem execEntropyFail_evolves {test : Fin 2} {ps : List Part} {s₀ s : State} (hE : Evolves ps s₀ s)
    (hW : Sub [.events, .counters, .sampling, .regs, .regTru] ps) :
    ∀ t, execEntropyFail test s = .next t → Evolves ps s₀ t := by
  intro t ht
  unfold execEntropyFail at ht
  repeat' first
    | (with_reducible obtain rfl := Host.Outcome.next.inj ht)
    | split at ht
    | dsimp only at ht
  all_goals
    repeat' first
      | exact Sub.of hW rfl
      | with_reducible first
          | exact hE | apply emit_evolves | apply state_setFld_evolves
      | dsimp only

theorem execEntropyOk_evolves  {ps : List Part} {s₀ s : State} (hE : Evolves ps s₀ s)
    (hW : Sub [.events, .counters, .sampling, .regs, .regTru] ps) :
    ∀ t, execEntropyOk s = .next t → Evolves ps s₀ t := by
  intro t ht
  unfold execEntropyOk at ht
  repeat' first
    | (with_reducible obtain rfl := Host.Outcome.next.inj ht)
    | split at ht
    | dsimp only at ht
  all_goals
    repeat' first
      | exact Sub.of hW rfl
      | with_reducible first
          | exact hE | apply emit_evolves | apply state_setFld_evolves
      | dsimp only

end Sys2Proof.Machine
end

