-- ==== Sys2Proof/Laws/FrameBoot.lean ====
section
/-! SUPPORT. What the operations of Machine/Boot.lean change at most: one lemma each. -/

namespace Sys2Proof.Machine

set_option linter.unusedTactic false
set_option linter.unreachableTactic false
set_option linter.unusedVariables false

theorem storeEntry_evolves {e : Nat × Bytes × Bytes} {ps : List Part} {s₀ s : State} (hE : Evolves ps s₀ s)
    (hW : Sub [.events, .counters, .sampling, .keys] ps) :
    Evolves ps s₀ (storeEntry s e) := by
  unfold storeEntry
  repeat' first
    | exact Sub.of hW rfl
    | with_reducible first
        | exact hE | apply standCopy_evolves | apply emit_evolves | apply onSlot_evolves
        | refine Evolves.ite (fun _ => ?_) (fun _ => ?_)
    | dsimp only | split
    | with_reducible first
        | refine Evolves.fst_of (by assumption) ?_ | refine Evolves.snd_of (by assumption) ?_

theorem verifyProfile_evolves {slot : Nat} {ps : List Part} {s₀ s : State} (hE : Evolves ps s₀ s)
    (hW : Sub [.events, .counters, .sampling, .boot, .trust] ps) :
    Evolves ps s₀ (verifyProfile slot s).1 := by
  unfold verifyProfile
  repeat' first
    | exact Sub.of hW rfl | exact .inl (Sub.of hW rfl) | with_reducible exact .inr rfl
    | exact .inr (FencesStay.refl _) | exact .inr (by dsimp only) | exact .inr rfl
    | with_reducible exact (fun h => h : _ = true → _) | (dsimp only; exact (fun h => h : _ = true → _))
    | exact (fun h => h : _ = true → _)
    | with_reducible first
        | exact hE | apply extend_evolves | apply emit_evolves | apply state_onBoot_evolves
        | refine Evolves.ite (fun _ => ?_) (fun _ => ?_)
    | dsimp only | split
    | with_reducible first
        | refine Evolves.fst_of (by assumption) ?_ | refine Evolves.snd_of (by assumption) ?_

theorem enterRecovery_evolves {kind : Nat} {ps : List Part} {s₀ s : State} (hE : Evolves ps s₀ s)
    (hW : Sub [.events, .principals, .identity, .counters, .sampling, .boot] ps) :
    Evolves ps s₀ (enterRecovery kind s) := by
  unfold enterRecovery
  repeat' first
    | exact Sub.of hW rfl | exact .inl (Sub.of hW rfl) | with_reducible exact .inr rfl
    | exact .inr (FencesStay.refl _) | exact .inr (by dsimp only) | exact .inr rfl
    | with_reducible exact (fun h => h : _ = true → _) | (dsimp only; exact (fun h => h : _ = true → _))
    | exact (fun h => h : _ = true → _) | exact rfl | exact Nat.le_refl _
    | with_reducible first
        | exact hE | apply state_onBoot_evolves | apply state_onCtl_evolves | apply emit_evolves
        | refine Evolves.ite (fun _ => ?_) (fun _ => ?_)
    | dsimp only | split

theorem releaseEnables_evolves  {ps : List Part} {s₀ s : State} (hE : Evolves ps s₀ s)
    (hW : Sub [.events, .counters, .sampling, .controllers, .queues, .hostQueues] ps) :
    Evolves ps s₀ (releaseEnables s) := by
  unfold releaseEnables
  repeat' first
    | exact Sub.of hW rfl
    | with_reducible first
        | exact hE | apply enable_evolves | refine Evolves.foldl ?_ ?_ | refine Evolves.foldl_fst ?_ ?_
        | refine Evolves.foldl_snd ?_ ?_ | assumption
    | intro _ | dsimp only

theorem bringUpPort_evolves {slot : Nat} {ps : List Part} {s₀ s : State} (hE : Evolves ps s₀ s)
    (hW : Sub [.drivePorts, .leash, .out] ps) :
    Evolves ps s₀ (bringUpPort s slot) := by
  unfold bringUpPort
  repeat' first
    | exact Sub.of hW rfl
    | with_reducible first
        | exact hE | apply onPort_evolves | apply portReset_evolves | apply queryPartner_evolves
        | refine Evolves.ite (fun _ => ?_) (fun _ => ?_)
    | dsimp only | split

theorem leaveBoot_evolves  {ps : List Part} {s₀ s : State} (hE : Evolves ps s₀ s)
    (hW : Sub [.events, .counters, .sampling, .commands, .driveSlots, .replicas, .roles, .regs, .regRed] ps) :
    Evolves ps s₀ (leaveBoot s) := by
  unfold leaveBoot
  repeat' first
    | exact Sub.of hW rfl
    | with_reducible first
        | exact hE | apply setRole_evolves | apply enterJoining_evolves
        | refine Evolves.ite (fun _ => ?_) (fun _ => ?_)
    | dsimp only | split

theorem applyAndRelease_evolves {slot : Nat} {b : Bytes} {ps : List Part} {s₀ s : State} (hE : Evolves ps s₀ s)
    (hW : Sub [.events, .time, .rings, .principals, .images, .stores, .identity, .counters, .sampling, .boot,
      .controllers, .queues, .namespaces, .commands, .chains, .mapping, .keys, .keyOrders, .trust, .batches,
      .drivePorts, .driveSlots, .classifier, .punts, .groups, .tables, .traffic, .hostReads, .hostQueues,
      .leash, .replicas, .roles, .legs, .regs, .regCtl, .regPrt, .regCls, .regSwc, .regTmg, .regXpt, .regCmd,
      .regLay, .regFix, .regDrv, .regCip, .regTru, .regPwr, .regHep, .regRed, .regTel, .out, .free] ps) :
    Evolves ps s₀ (applyAndRelease slot b s) := by
  unfold applyAndRelease
  repeat' first
    | exact Sub.of hW rfl | exact .inl (Sub.of hW rfl) | with_reducible exact .inr rfl
    | exact .inr (FencesStay.refl _) | exact .inr (by dsimp only) | exact .inr rfl
    | with_reducible exact (fun h => h : _ = true → _) | (dsimp only; exact (fun h => h : _ = true → _))
    | exact (fun h => h : _ = true → _)
    | with_reducible first
        | exact hE | apply applyImage_evolves | apply state_onBoot_evolves | apply releaseEnables_evolves
        | apply bringUpPort_evolves | apply legSeated_evolves | apply leaveBoot_evolves
        | refine Evolves.ite (fun _ => ?_) (fun _ => ?_) | refine Evolves.foldl ?_ ?_ | refine Evolves.foldl_fst ?_ ?_
        | refine Evolves.foldl_snd ?_ ?_ | assumption
    | intro _ | dsimp only | split

theorem endStep6_evolves {profile : Option (Bytes × Nat)} {ps : List Part} {s₀ s : State} (hE : Evolves ps s₀ s)
    (hW : Sub [.events, .time, .rings, .principals, .images, .stores, .identity, .counters, .sampling, .boot,
      .controllers, .queues, .namespaces, .commands, .chains, .mapping, .keys, .keyOrders, .trust, .batches,
      .drivePorts, .driveSlots, .classifier, .punts, .groups, .tables, .traffic, .hostReads, .hostQueues,
      .leash, .replicas, .roles, .legs, .regs, .regCtl, .regPrt, .regCls, .regSwc, .regTmg, .regXpt, .regCmd,
      .regLay, .regFix, .regDrv, .regCip, .regTru, .regPwr, .regHep, .regRed, .regTel, .out, .free] ps) :
    Evolves ps s₀ (endStep6 profile s) := by
  unfold endStep6
  repeat' first
    | exact Sub.of hW rfl
    | with_reducible first
        | exact hE | apply enterRecovery_evolves | apply imageRefused_evolves | apply applyAndRelease_evolves
        | refine Evolves.ite (fun _ => ?_) (fun _ => ?_)
    | dsimp only | split
    | with_reducible first
        | refine Evolves.fst_of (by assumption) ?_ | refine Evolves.snd_of (by assumption) ?_

theorem makeSessionKey_evolves  {ps : List Part} {s₀ s : State} (hE : Evolves ps s₀ s)
    (hW : Sub [.trust] ps) :
    Evolves ps s₀ (makeSessionKey s) := by
  unfold makeSessionKey
  repeat' first
    | exact Sub.of hW rfl | exact .inl (Sub.of hW rfl) | with_reducible exact .inr rfl
    | exact .inr (FencesStay.refl _) | exact .inr (by dsimp only) | exact .inr rfl
    | with_reducible exact (fun h => h : _ = true → _) | (dsimp only; exact (fun h => h : _ = true → _))
    | exact (fun h => h : _ = true → _) | exact rfl | exact Nat.le_refl _
    | with_reducible first
        | exact hE | apply state_onTru_evolves | refine Evolves.ite (fun _ => ?_) (fun _ => ?_)
    | dsimp only | split

theorem afterFirmware_evolves {copies : List (Nat × Bytes × Bytes)} {ps : List Part} {s₀ s : State} (hE : Evolves ps s₀ s)
    (hW : Sub [.events, .time, .rings, .principals, .images, .stores, .identity, .counters, .sampling, .boot,
      .controllers, .queues, .namespaces, .commands, .chains, .mapping, .keys, .keyOrders, .trust, .batches,
      .drivePorts, .driveSlots, .classifier, .punts, .groups, .tables, .traffic, .hostReads, .hostQueues,
      .leash, .replicas, .roles, .legs, .regs, .regCtl, .regPrt, .regCls, .regSwc, .regTmg, .regXpt, .regCmd,
      .regLay, .regFix, .regDrv, .regCip, .regTru, .regPwr, .regHep, .regRed, .regTel, .out, .free] ps) :
    Evolves ps s₀ (afterFirmware copies s) := by
  unfold afterFirmware
  repeat' first
    | exact Sub.of hW rfl | exact .inl (Sub.of hW rfl) | with_reducible exact .inr rfl
    | exact .inr (FencesStay.refl _) | exact .inr (by dsimp only) | exact .inr rfl
    | with_reducible exact (fun h => h : _ = true → _) | (dsimp only; exact (fun h => h : _ = true → _))
    | exact (fun h => h : _ = true → _)
    | with_reducible first
        | exact hE | apply state_onBoot_evolves | apply storeEntry_evolves | apply verifyProfile_evolves
        | apply endStep6_evolves | apply makeSessionKey_evolves | refine Evolves.ite (fun _ => ?_) (fun _ => ?_)
        | refine Evolves.foldl ?_ ?_ | refine Evolves.foldl_fst ?_ ?_ | refine Evolves.foldl_snd ?_ ?_ | assumption
    | intro _ | dsimp only | split
    | with_reducible first
        | refine Evolves.fst_of (by assumption) ?_ | refine Evolves.snd_of (by assumption) ?_

theorem entropyTest_evolves {test : Option (Fin 2)} {ps : List Part} {s₀ s : State} (hE : Evolves ps s₀ s)
    (hW : Sub [.events, .counters, .sampling, .regs, .regTru] ps) :
    Evolves ps s₀ (entropyTest test s) := by
  unfold entropyTest
  repeat' first
    | exact Sub.of hW rfl
    | with_reducible first
        | exact hE | apply state_setFld_evolves | apply emit_evolves
    | dsimp only | split
    | with_reducible first
        | refine Evolves.fst_of (by assumption) ?_ | refine Evolves.snd_of (by assumption) ?_

theorem startBoot_evolves {profileSel : Nat} {roleSel : Nat} {bootMode : Nat} {warmLow : Bool} {ps : List Part} {s₀ s : State} (hE : Evolves ps s₀ s)
    (hW : Sub [.events, .counters, .sampling, .boot, .regs, .regRed] ps) :
    Evolves ps s₀ (startBoot profileSel roleSel bootMode warmLow s) := by
  unfold startBoot
  repeat' first
    | exact Sub.of hW rfl | exact .inl (Sub.of hW rfl) | with_reducible exact .inr rfl
    | exact .inr (FencesStay.refl _) | exact .inr (by dsimp only) | exact .inr rfl
    | with_reducible exact (fun h => h : _ = true → _) | (dsimp only; exact (fun h => h : _ = true → _))
    | exact (fun h => h : _ = true → _)
    | with_reducible first
        | exact hE | apply state_onBoot_evolves | apply state_setFld_evolves | apply emit_evolves
        | refine Evolves.ite (fun _ => ?_) (fun _ => ?_)
    | dsimp only | split

theorem execBootStart_evolves {profileSel : Fin 8} {roleSel : Fin 4} {bootMode : Fin 4} {warmLow : Bool} {ps : List Part} {s₀ s : State} (hE : Evolves ps s₀ s)
    (hW : Sub [.events, .time, .rings, .principals, .images, .stores, .identity, .counters, .sampling, .boot,
      .controllers, .queues, .namespaces, .commands, .chains, .mapping, .keys, .keyOrders, .trust, .batches,
      .drivePorts, .driveSlots, .classifier, .punts, .groups, .tables, .traffic, .hostReads, .hostQueues,
      .leash, .replicas, .roles, .legs, .regs, .regCtl, .regPrt, .regCls, .regSwc, .regTmg, .regXpt, .regCmd,
      .regLay, .regFix, .regDrv, .regCip, .regTru, .regPwr, .regHep, .regRed, .regTel, .out, .free] ps) :
    ∀ t, execBootStart profileSel roleSel bootMode warmLow s = .next t → Evolves ps s₀ t := by
  intro t ht
  unfold execBootStart at ht
  repeat' first
    | (with_reducible obtain rfl := Host.Outcome.next.inj ht)
    | split at ht
    | dsimp only at ht
  all_goals
    repeat' first
      | exact Sub.of hW rfl | exact .inl (Sub.of hW rfl) | with_reducible exact .inr rfl
      | exact .inr (FencesStay.refl _) | exact .inr (by dsimp only) | exact .inr rfl
      | with_reducible exact (fun h => h : _ = true → _) | (dsimp only; exact (fun h => h : _ = true → _))
      | exact (fun h => h : _ = true → _)
      | with_reducible first
          | exact hE | apply startBoot_evolves | apply applyAndRelease_evolves | apply state_onBoot_evolves
          | refine Evolves.ite (fun _ => ?_) (fun _ => ?_)
      | dsimp only | split

theorem selfTest_evolves {failing : List (Nat × Nat)} {ps : List Part} {s₀ s : State} (hE : Evolves ps s₀ s)
    (hW : Sub [.events, .fences, .cores, .counters, .sampling, .controllers, .namespaces, .commands, .powerState,
      .contexts, .hbm, .mapping, .journal, .layoutWork, .ciphers, .storeWrites, .drivePorts, .driveSlots,
      .buffer, .traffic, .functions, .hostReads, .hostQueues, .leash, .replicas, .legs, .regs, .regPrt,
      .regSwc, .regLay, .regPwr, .regRed, .out] ps) :
    Evolves ps s₀ (selfTest failing s) := by
  unfold selfTest
  repeat' first
    | exact Sub.of hW rfl
    | with_reducible first
        | exact hE | apply fenceAny_evolves | refine Evolves.foldl ?_ ?_ | refine Evolves.foldl_fst ?_ ?_
        | refine Evolves.foldl_snd ?_ ?_ | assumption
    | intro _ | dsimp only

theorem pickFirmware_evolves {x0 : List Nat} {ps : List Part} {s₀ x1 : State} (hE : Evolves ps s₀ x1)
    (hW : Sub [.events, .counters, .sampling] ps) :
    Evolves ps s₀ (pickFirmware x0 x1).1 := by
  induction x0 generalizing x1 with
  | nil => exact hE
  | cons a l ih =>
    unfold pickFirmware
    repeat' first
      | with_reducible exact hE
      | exact Sub.of hW rfl
      | exact .inl (Sub.of hW rfl)
      | with_reducible exact .inr rfl
      | exact .inr (by dsimp only)
      | exact .inr rfl
      | (dsimp only; exact (fun h => h : _ = true → _))
      | exact (fun h => h : _ = true → _)
      | with_reducible exact hW
      | exact List.prefix_append _ _
      | with_reducible apply ih
      | with_reducible apply emit_evolves
      | with_reducible refine Evolves.ite (fun _ => ?_) (fun _ => ?_)
      | with_reducible refine Evolves.foldl ?_ ?_
      | intro _
      | dsimp only
      | split
      | with_reducible assumption

theorem runFirmware_evolves {slot : Nat} {ps : List Part} {s₀ s : State} (hE : Evolves ps s₀ s)
    (hW : Sub [.events, .counters, .sampling, .boot, .trust, .regs, .regTru] ps) :
    Evolves ps s₀ (runFirmware slot s) := by
  unfold runFirmware
  repeat' first
    | exact Sub.of hW rfl | exact .inl (Sub.of hW rfl) | with_reducible exact .inr rfl
    | exact .inr (FencesStay.refl _) | exact .inr (by dsimp only) | exact .inr rfl
    | with_reducible exact (fun h => h : _ = true → _) | (dsimp only; exact (fun h => h : _ = true → _))
    | exact (fun h => h : _ = true → _)
    | with_reducible first
        | exact hE | apply extend_evolves | apply state_onBoot_evolves | apply state_setFld_evolves
        | apply emit_evolves | apply countImageKeys_evolves | refine Evolves.ite (fun _ => ?_) (fun _ => ?_)
    | dsimp only | split

theorem execPllLocked_evolves {failing : List (Nat × Nat)} {entropy : Option (Fin 2)} {copies : List (Nat × Bytes × Bytes)} {ps : List Part} {s₀ s : State} (hE : Evolves ps s₀ s)
    (hW : Sub [.events, .time, .fences, .rings, .principals, .images, .stores, .identity, .cores, .counters, .sampling,
      .boot, .controllers, .queues, .namespaces, .commands, .powerState, .contexts, .chains, .hbm, .mapping,
      .journal, .layoutWork, .keys, .keyOrders, .ciphers, .trust, .batches, .storeWrites, .drivePorts,
      .driveSlots, .classifier, .punts, .buffer, .groups, .tables, .traffic, .functions, .hostReads,
      .hostQueues, .leash, .replicas, .roles, .legs, .regs, .regCtl, .regPrt, .regCls, .regSwc, .regTmg,
      .regXpt, .regCmd, .regLay, .regFix, .regDrv, .regCip, .regTru, .regPwr, .regHep, .regRed, .regTel, .out,
      .free] ps) :
    ∀ t, execPllLocked failing entropy copies s = .next t → Evolves ps s₀ t := by
  intro t ht
  unfold execPllLocked at ht
  repeat' first
    | (with_reducible obtain rfl := Host.Outcome.next.inj ht)
    | split at ht
    | dsimp only at ht
  all_goals
    repeat' first
      | exact Sub.of hW rfl | exact .inl (Sub.of hW rfl) | with_reducible exact .inr rfl
      | exact .inr (FencesStay.refl _) | exact .inr (by dsimp only) | exact .inr rfl
      | with_reducible exact (fun h => h : _ = true → _) | (dsimp only; exact (fun h => h : _ = true → _))
      | exact (fun h => h : _ = true → _)
      | with_reducible first
          | exact hE | apply selfTest_evolves | apply state_onBoot_evolves | apply setFans_evolves
          | apply entropyTest_evolves | apply pickFirmware_evolves | apply enterRecovery_evolves
          | apply afterFirmware_evolves | apply runFirmware_evolves | refine Evolves.ite (fun _ => ?_) (fun _ => ?_)
      | dsimp only | split
      | with_reducible first
          | refine Evolves.fst_of (by assumption) ?_ | refine Evolves.snd_of (by assumption) ?_

theorem execBootDone_evolves  {ps : List Part} {s₀ s : State} (hE : Evolves ps s₀ s)
    (hW : Sub [.events, .counters, .sampling, .boot, .mapping, .journal, .layoutWork, .batches, .custody, .storeWrites] ps) :
    ∀ t, execBootDone s = .next t → Evolves ps s₀ t := by
  intro t ht
  unfold execBootDone at ht
  repeat' first
    | (with_reducible obtain rfl := Host.Outcome.next.inj ht)
    | split at ht
    | dsimp only at ht
  all_goals
    repeat' first
      | exact Sub.of hW rfl | exact .inl (Sub.of hW rfl) | with_reducible exact .inr rfl
      | exact .inr (FencesStay.refl _) | exact .inr (by dsimp only) | exact .inr rfl
      | with_reducible exact (fun h => h : _ = true → _) | (dsimp only; exact (fun h => h : _ = true → _))
      | exact (fun h => h : _ = true → _)
      | with_reducible first
          | exact hE | apply serveFromDrives_evolves | apply state_onBoot_evolves | apply emit_evolves
          | refine Evolves.ite (fun _ => ?_) (fun _ => ?_)
      | dsimp only | split

theorem pllLoss_evolves {clock : Nat} {ps : List Part} {s₀ s : State} (hE : Evolves ps s₀ s)
    (hW : Sub [.events, .counters, .sampling] ps) :
    Evolves ps s₀ (pllLoss clock s) := by
  unfold pllLoss
  repeat' first
    | exact Sub.of hW rfl
    | with_reducible first
        | exact hE | apply emit_evolves
    | dsimp only

theorem netClockLost_evolves {q : Nat} {ps : List Part} {s₀ s : State} (hE : Evolves ps s₀ s)
    (hW : Sub [.events, .rings, .sessions, .bone, .stores, .counters, .sampling, .controllers, .queues, .commands,
      .contexts, .regions, .mapping, .journal, .keys, .keyOrders, .batches, .jobs, .driveSlots, .buffer,
      .leash, .replicas, .roles, .regs, .regPrt, .regSwc, .regRed, .out] ps) :
    Evolves ps s₀ (netClockLost q s) := by
  unfold netClockLost
  repeat' first
    | exact Sub.of hW rfl
    | with_reducible first
        | exact hE | apply loseLink_evolves | apply leashDown_evolves | apply closeSession_evolves
        | refine Evolves.ite (fun _ => ?_) (fun _ => ?_) | refine Evolves.foldl ?_ ?_ | refine Evolves.foldl_fst ?_ ?_
        | refine Evolves.foldl_snd ?_ ?_ | assumption
    | intro _ | dsimp only | split

theorem pcieClockLost_evolves  {ps : List Part} {s₀ s : State} (hE : Evolves ps s₀ s)
    (hW : Sub [.drivePorts, .regs, .regDrv] ps) :
    Evolves ps s₀ (pcieClockLost s) := by
  unfold pcieClockLost
  repeat' first
    | exact Sub.of hW rfl
    | with_reducible first
        | exact hE | apply onPort_evolves | apply retrainPort_evolves | refine Evolves.foldl ?_ ?_
        | refine Evolves.foldl_fst ?_ ?_ | refine Evolves.foldl_snd ?_ ?_ | assumption
    | intro _ | dsimp only

theorem execClockLost_evolves {clock : Fin 7} {ps : List Part} {s₀ s : State} (hE : Evolves ps s₀ s)
    (hW : Sub [.events, .time, .paths, .fences, .held, .rings, .clog, .sessions, .bone, .principals, .images, .stores,
      .marks, .identity, .cores, .counters, .snapshot, .sampling, .boot, .controllers, .queues, .namespaces,
      .commands, .activation, .powerState, .contexts, .contextCache, .regions, .chains, .hbm, .mapping,
      .journal, .layoutWork, .keys, .keyOrders, .ciphers, .trust, .batches, .custody, .jobs, .storeWrites,
      .drivePorts, .driveSlots, .classifier, .punts, .stamps, .buffer, .groups, .tables, .traffic, .functions,
      .hostReads, .hostQueues, .peerTable, .peerMem, .leash, .replicas, .roles, .legs, .feeds, .regs, .regCtl,
      .regPrt, .regCls, .regSwc, .regTmg, .regXpt, .regCmd, .regLay, .regFix, .regDrv, .regCip, .regTru,
      .regPwr, .regHep, .regRed, .regTel, .heldCommands, .out, .free, .records, .clock, .forward, .fenced] ps) :
    ∀ t, execClockLost clock s = .next t → Evolves ps s₀ t := by
  intro t ht
  unfold execClockLost at ht
  repeat' first
    | (with_reducible obtain rfl := Host.Outcome.next.inj ht)
    | split at ht
    | dsimp only at ht
  all_goals
    repeat' first
      | exact Sub.of hW rfl | exact .inl (Sub.of hW rfl) | with_reducible exact .inr rfl
      | exact .inr (FencesStay.refl _) | exact .inr (by dsimp only) | exact .inr rfl
      | with_reducible exact (fun h => h : _ = true → _) | (dsimp only; exact (fun h => h : _ = true → _))
      | exact (fun h => h : _ = true → _)
      | with_reducible first
          | exact hE | apply state_onBoot_evolves | apply coldReset_evolves | apply logCritical_evolves
          | apply pllLoss_evolves | apply netClockLost_evolves | apply pcieClockLost_evolves
          | apply resetEndpoint_evolves | apply dropHeLink_evolves | refine Evolves.ite (fun _ => ?_) (fun _ => ?_)
      | dsimp only | split

theorem execClockPresent_evolves {clock : Fin 7} {ps : List Part} {s₀ s : State} (hE : Evolves ps s₀ s)
    (hW : Sub [.boot, .drivePorts] ps) :
    ∀ t, execClockPresent clock s = .next t → Evolves ps s₀ t := by
  intro t ht
  unfold execClockPresent at ht
  repeat' first
    | (with_reducible obtain rfl := Host.Outcome.next.inj ht)
    | split at ht
    | dsimp only at ht
  all_goals
    repeat' first
      | exact Sub.of hW rfl | exact .inl (Sub.of hW rfl) | with_reducible exact .inr rfl
      | exact .inr (FencesStay.refl _) | exact .inr (by dsimp only) | exact .inr rfl
      | with_reducible exact (fun h => h : _ = true → _) | (dsimp only; exact (fun h => h : _ = true → _))
      | exact (fun h => h : _ = true → _)
      | with_reducible first
          | exact hE | apply state_onBoot_evolves | apply state_onDrv_evolves
          | refine Evolves.ite (fun _ => ?_) (fun _ => ?_)
      | dsimp only | split

end Sys2Proof.Machine
end

