-- ==== Sys2Proof/Laws/FrameGrants.lean ====
section
/-! SUPPORT. What the operations of Machine/Grants.lean change at most: one lemma each. -/

namespace Sys2Proof.Machine

set_option linter.unusedTactic false
set_option linter.unreachableTactic false
set_option linter.unusedVariables false

theorem driveWriteEnds_evolves {slot : Nat} {result : DriveResult} {ok : State → State} {ps : List Part} {s₀ s : State} (hE : Evolves ps s₀ s)
    (hok : ∀ (t : State), Evolves ps s₀ t → Evolves ps s₀ (ok t))
    (hW : Sub [.events, .counters, .sampling, .controllers, .namespaces, .commands, .powerState, .contexts, .hbm,
      .mapping, .journal, .layoutWork, .ciphers, .storeWrites, .drivePorts, .driveSlots, .buffer, .functions,
      .hostQueues, .leash, .replicas, .regs, .regPrt, .regSwc, .regLay, .regRed, .out] ps) :
    Evolves ps s₀ (driveWriteEnds slot result ok s) := by
  unfold driveWriteEnds
  repeat' first
    | exact Sub.of hW rfl
    | with_reducible first
        | exact hE | apply driveFailed_evolves | apply preempted_evolves | apply hok | assumption
    | intro _ | dsimp only | split
    | with_reducible first
        | refine Evolves.fst_of (by assumption) ?_ | refine Evolves.snd_of (by assumption) ?_

theorem rebuildRecord_evolves  {ps : List Part} {s₀ s : State} (hE : Evolves ps s₀ s)
    (hW : Sub [.events, .counters, .sampling, .commands, .journal, .layoutWork, .drivePorts, .out] ps) :
    Evolves ps s₀ (rebuildRecord s) := by
  unfold rebuildRecord
  repeat' first
    | exact Sub.of hW rfl
    | with_reducible first
        | exact hE | apply submitRecord_evolves | refine Evolves.ite (fun _ => ?_) (fun _ => ?_)
    | dsimp only | split
    | with_reducible first
        | refine Evolves.fst_of (by assumption) ?_ | refine Evolves.snd_of (by assumption) ?_

theorem backDone_evolves {slot : Nat} {lba : Nat} {result : DriveResult} {ps : List Part} {s₀ s : State} (hE : Evolves ps s₀ s)
    (hW : Sub [.events, .counters, .sampling, .controllers, .namespaces, .commands, .powerState, .contexts, .hbm,
      .mapping, .journal, .layoutWork, .ciphers, .storeWrites, .drivePorts, .driveSlots, .buffer, .functions,
      .hostQueues, .leash, .replicas, .regs, .regPrt, .regSwc, .regLay, .regRed, .out] ps) :
    Evolves ps s₀ (backDone slot lba result s) := by
  unfold backDone
  repeat' first
    | exact Sub.of hW rfl
    | with_reducible first
        | exact hE | apply drvDone_evolves | apply onPort_evolves | apply driveWriteEnds_evolves
        | apply rebuildRecord_evolves | assumption
    | intro _ | dsimp only | split
    | with_reducible first
        | refine Evolves.fst_of (by assumption) ?_ | refine Evolves.snd_of (by assumption) ?_

theorem execArbiterGrant_evolves {port : Fin 65} {ps : List Part} {s₀ s : State} (hE : Evolves ps s₀ s)
    (hW : Sub [.events, .counters, .sampling, .commands, .powerState, .contexts, .hbm, .mapping, .journal, .layoutWork,
      .ciphers, .drivePorts, .buffer, .hostReads, .leash, .replicas, .regs, .regSwc, .regLay, .regCip, .regTel,
      .out] ps) :
    ∀ t, execArbiterGrant port s = .next t → Evolves ps s₀ t := by
  intro t ht
  unfold execArbiterGrant at ht
  repeat' first
    | (with_reducible obtain rfl := Host.Outcome.next.inj ht)
    | split at ht
    | dsimp only at ht
  all_goals
    repeat' first
      | exact Sub.of hW rfl | exact .inl (Sub.of hW rfl) | with_reducible exact .inr rfl
      | exact .inr (FencesStay.refl _) | exact .inr (by dsimp only) | exact .inr rfl
      | with_reducible exact (fun h => h : _ = true → _) | (dsimp only; exact (fun h => h : _ = true → _))
      | exact (fun h => h : _ = true → _)
      | with_reducible first
          | exact hE | apply state_onCmd_evolves | apply startWork_evolves | apply captureGrant_evolves
      | dsimp only | split
      | with_reducible first
          | refine Evolves.fst_of (by assumption) ?_ | refine Evolves.snd_of (by assumption) ?_

theorem execLastDataCellStored_evolves {i : Nat} {ps : List Part} {s₀ s : State} (hE : Evolves ps s₀ s)
    (hW : Sub [.commands, .contexts, .hbm, .layoutWork, .ciphers, .drivePorts, .leash, .replicas, .regs, .regLay, .out] ps) :
    ∀ t, execLastDataCellStored i s = .next t → Evolves ps s₀ t := by
  intro t ht
  unfold execLastDataCellStored at ht
  repeat' first
    | (with_reducible obtain rfl := Host.Outcome.next.inj ht)
    | split at ht
    | dsimp only at ht
  all_goals
    repeat' first
      | exact Sub.of hW rfl
      | with_reducible first
          | exact hE | apply onEntry_evolves | apply advanceRead_evolves | apply encodeData_evolves
          | refine Evolves.ite (fun _ => ?_) (fun _ => ?_)
      | dsimp only | split

theorem execLastParityCellReady_evolves {i : Nat} {ps : List Part} {s₀ s : State} (hE : Evolves ps s₀ s)
    (hW : Sub [.commands, .layoutWork, .ciphers, .drivePorts, .out] ps) :
    ∀ t, execLastParityCellReady i s = .next t → Evolves ps s₀ t := by
  intro t ht
  unfold execLastParityCellReady at ht
  repeat' first
    | (with_reducible obtain rfl := Host.Outcome.next.inj ht)
    | split at ht
    | dsimp only at ht
  all_goals
    repeat' first
      | exact Sub.of hW rfl
      | with_reducible first
          | exact hE | apply submitUnits_evolves | apply dropLanes_evolves
          | refine Evolves.ite (fun _ => ?_) (fun _ => ?_)
      | dsimp only | split

theorem unitDone_evolves {i : Nat} {slot : Nat} {set : Nat} {row : Nat} {unit : Nat} {result : DriveResult} {ps : List Part} {s₀ s : State} (hE : Evolves ps s₀ s)
    (hW : Sub [.events, .counters, .sampling, .controllers, .namespaces, .commands, .powerState, .contexts, .hbm,
      .mapping, .journal, .layoutWork, .ciphers, .storeWrites, .drivePorts, .driveSlots, .buffer, .functions,
      .hostQueues, .leash, .replicas, .regs, .regPrt, .regSwc, .regLay, .regRed, .out] ps) :
    Evolves ps s₀ (unitDone i slot set row unit result s) := by
  unfold unitDone
  repeat' first
    | exact Sub.of hW rfl
    | with_reducible first
        | exact hE | apply drvDone_evolves | apply driveWriteEnds_evolves | apply onEntry_evolves
        | apply journalStep_evolves | apply roundEnds_evolves | refine Evolves.ite (fun _ => ?_) (fun _ => ?_)
        | assumption
    | intro _ | dsimp only | split
    | with_reducible first
        | refine Evolves.fst_of (by assumption) ?_ | refine Evolves.snd_of (by assumption) ?_

theorem execUnitWriteCompletion_evolves {write : WriteId} {slot : Fin 48} {result : DriveResult} {ps : List Part} {s₀ s : State} (hE : Evolves ps s₀ s)
    (hW : Sub [.events, .counters, .sampling, .controllers, .namespaces, .commands, .powerState, .contexts, .hbm,
      .mapping, .journal, .layoutWork, .ciphers, .storeWrites, .drivePorts, .driveSlots, .buffer, .functions,
      .hostQueues, .leash, .replicas, .regs, .regPrt, .regSwc, .regLay, .regRed, .out] ps) :
    ∀ t, execUnitWriteCompletion write slot result s = .next t → Evolves ps s₀ t := by
  intro t ht
  unfold execUnitWriteCompletion at ht
  repeat' first
    | (with_reducible obtain rfl := Host.Outcome.next.inj ht)
    | split at ht
    | dsimp only at ht
  all_goals
    repeat' first
      | exact Sub.of hW rfl
      | with_reducible first
          | exact hE | apply unitDone_evolves | apply backDone_evolves
      | dsimp only | split
      | with_reducible first
          | refine Evolves.fst_of (by assumption) ?_ | refine Evolves.snd_of (by assumption) ?_

theorem execDriveReadCompletion_evolves {i : Nat} {set : Nat} {row : Nat} {unit : Nat} {header : Bytes} {data : Bytes} {result : DriveResult} {ps : List Part} {s₀ s : State} (hE : Evolves ps s₀ s)
    (hW : Sub [.events, .counters, .sampling, .controllers, .namespaces, .commands, .powerState, .contexts, .hbm,
      .mapping, .journal, .layoutWork, .ciphers, .storeWrites, .drivePorts, .driveSlots, .buffer, .functions,
      .hostQueues, .leash, .replicas, .regs, .regPrt, .regSwc, .regLay, .regDrv, .regRed, .out] ps) :
    ∀ t, execDriveReadCompletion i set row unit header data result s = .next t → Evolves ps s₀ t := by
  intro t ht
  unfold execDriveReadCompletion at ht
  repeat' first
    | (with_reducible obtain rfl := Host.Outcome.next.inj ht)
    | split at ht
    | dsimp only at ht
  all_goals
    repeat' first
      | exact Sub.of hW rfl
      | with_reducible first
          | exact hE | apply drvDone_evolves | apply onEntry_evolves | apply roundEnds_evolves
          | apply advanceRead_evolves | apply unitCheckFail_evolves | apply driveReadFailed_evolves
          | apply preempted_evolves | refine Evolves.ite (fun _ => ?_) (fun _ => ?_)
      | dsimp only | split
      | with_reducible first
          | refine Evolves.fst_of (by assumption) ?_ | refine Evolves.snd_of (by assumption) ?_

theorem execJournalCompletion_evolves {jseq : Nat} {slot : Fin 48} {result : DriveResult} {ps : List Part} {s₀ s : State} (hE : Evolves ps s₀ s)
    (hW : Sub [.events, .counters, .sampling, .controllers, .namespaces, .commands, .powerState, .contexts, .hbm,
      .mapping, .journal, .layoutWork, .ciphers, .batches, .storeWrites, .drivePorts, .driveSlots, .buffer,
      .functions, .hostQueues, .leash, .replicas, .regs, .regPrt, .regSwc, .regLay, .regFix, .regRed, .out] ps) :
    ∀ t, execJournalCompletion jseq slot result s = .next t → Evolves ps s₀ t := by
  intro t ht
  unfold execJournalCompletion at ht
  repeat' first
    | (with_reducible obtain rfl := Host.Outcome.next.inj ht)
    | split at ht
    | dsimp only at ht
  all_goals
    repeat' first
      | exact Sub.of hW rfl
      | with_reducible first
          | exact hE | apply driveWriteEnds_evolves | apply onRec_evolves | apply fixAdvance_evolves
          | apply nextRebuild_evolves | apply releaseStore_evolves | apply copiesDone_evolves | apply drvDone_evolves
          | refine Evolves.ite (fun _ => ?_) (fun _ => ?_) | assumption
      | intro _ | dsimp only | split
      | with_reducible first
          | refine Evolves.fst_of (by assumption) ?_ | refine Evolves.snd_of (by assumption) ?_

theorem execRdmaWriteAcknowledged_evolves {i : Nat} {ps : List Part} {s₀ s : State} (hE : Evolves ps s₀ s)
    (hW : Sub [.commands] ps) :
    ∀ t, execRdmaWriteAcknowledged i s = .next t → Evolves ps s₀ t := by
  intro t ht
  unfold execRdmaWriteAcknowledged at ht
  repeat' first
    | (with_reducible obtain rfl := Host.Outcome.next.inj ht)
    | split at ht
    | dsimp only at ht
  all_goals
    repeat' first
      | exact Sub.of hW rfl
      | with_reducible first
          | exact hE | apply toPosting_evolves | refine Evolves.ite (fun _ => ?_) (fun _ => ?_)
      | dsimp only | split

theorem execCompletionHandedToXpt_evolves {i : Nat} {ps : List Part} {s₀ s : State} (hE : Evolves ps s₀ s)
    (hW : Sub [.events, .counters, .sampling, .commands, .powerState, .contexts, .journal, .layoutWork, .ciphers,
      .buffer, .functions, .hostQueues, .leash, .replicas, .regs, .regSwc, .regCmd, .out] ps) :
    ∀ t, execCompletionHandedToXpt i s = .next t → Evolves ps s₀ t := by
  intro t ht
  unfold execCompletionHandedToXpt at ht
  repeat' first
    | (with_reducible obtain rfl := Host.Outcome.next.inj ht)
    | split at ht
    | dsimp only at ht
  all_goals
    repeat' first
      | exact Sub.of hW rfl
      | with_reducible first
          | exact hE | apply freeEntry_evolves | apply post_evolves | apply measure_evolves
          | refine Evolves.ite (fun _ => ?_) (fun _ => ?_)
      | dsimp only | split

end Sys2Proof.Machine
end

