-- ==== Sys2Proof/Laws/FrameLayout.lean ====
section
/-! SUPPORT. What the operations of Machine/Layout.lean change at most: one lemma each. -/

namespace Sys2Proof.Machine

set_option linter.unusedTactic false
set_option linter.unreachableTactic false
set_option linter.unusedVariables false

theorem repaired_evolves {set : Nat} {row : Nat} {unit : Nat} {ps : List Part} {s₀ s : State} (hE : Evolves ps s₀ s)
    (hW : Sub [.layoutWork] ps) :
    Evolves ps s₀ (repaired set row unit s) := by
  unfold repaired
  repeat' first
    | exact Sub.of hW rfl | exact .inl (Sub.of hW rfl) | with_reducible exact .inr rfl
    | exact .inr (FencesStay.refl _) | exact .inr (by dsimp only) | exact .inr rfl
    | with_reducible exact (fun h => h : _ = true → _) | (dsimp only; exact (fun h => h : _ = true → _))
    | exact (fun h => h : _ = true → _)
    | with_reducible first
        | exact hE | apply state_onLay_evolves
    | dsimp only

theorem rewriteUnit_evolves {set : Nat} {row : Nat} {unit : Nat} {b : Bytes} {ps : List Part} {s₀ s : State} (hE : Evolves ps s₀ s)
    (hW : Sub [.layoutWork, .drivePorts, .out] ps) :
    Evolves ps s₀ (rewriteUnit set row unit b s) := by
  unfold rewriteUnit
  repeat' first
    | exact Sub.of hW rfl
    | with_reducible first
        | exact hE | apply drvWrite_evolves | apply repaired_evolves
    | dsimp only

theorem checkSyndrome_evolves {set : Nat} {row : Nat} {units : List UnitRead} {ps : List Part} {s₀ s : State} (hE : Evolves ps s₀ s)
    (hW : Sub [.events, .counters, .sampling, .mapping] ps) :
    Evolves ps s₀ (checkSyndrome set row units s) := by
  unfold checkSyndrome
  repeat' first
    | exact Sub.of hW rfl
    | with_reducible first
        | exact hE | apply emit_evolves | apply onSet_evolves | refine Evolves.ite (fun _ => ?_) (fun _ => ?_)
    | dsimp only | split

theorem execLayCkptCtrlStart_evolves {path : Fin 5} {session : Nat} {value : Word} {ps : List Part} {s₀ s : State} (hE : Evolves ps s₀ s)
    (hW : Sub [.events, .sessions, .marks, .counters, .sampling, .journal, .drivePorts, .regs, .regCtl, .out] ps) :
    ∀ t, execLayCkptCtrlStart path session value s = .next t → Evolves ps s₀ t := by
  intro t ht
  unfold execLayCkptCtrlStart at ht
  repeat' first
    | (with_reducible obtain rfl := Host.Outcome.next.inj ht)
    | split at ht
    | dsimp only at ht
  all_goals
    repeat' first
      | exact Sub.of hW rfl
      | with_reducible first
          | exact hE | apply writeGate_evolves | apply startCheckpoint_evolves
          | refine Evolves.ite (fun _ => ?_) (fun _ => ?_)
      | dsimp only | split
      | with_reducible first
          | refine Evolves.fst_of (by assumption) ?_ | refine Evolves.snd_of (by assumption) ?_

theorem execLayFormatOrder_evolves {path : Fin 5} {session : Nat} {value : Word} {ps : List Part} {s₀ s : State} (hE : Evolves ps s₀ s)
    (hW : Sub [.events, .sessions, .marks, .counters, .sampling, .commands, .powerState, .contexts, .mapping, .journal,
      .layoutWork, .ciphers, .drivePorts, .buffer, .regs, .regCtl, .regSwc, .out, .free] ps) :
    ∀ t, execLayFormatOrder path session value s = .next t → Evolves ps s₀ t := by
  intro t ht
  unfold execLayFormatOrder at ht
  repeat' first
    | (with_reducible obtain rfl := Host.Outcome.next.inj ht)
    | split at ht
    | dsimp only at ht
  all_goals
    repeat' first
      | exact Sub.of hW rfl
      | with_reducible first
          | exact hE | apply writeGate_evolves | apply formatDrive_evolves
          | refine Evolves.ite (fun _ => ?_) (fun _ => ?_)
      | dsimp only | split
      | with_reducible first
          | refine Evolves.fst_of (by assumption) ?_ | refine Evolves.snd_of (by assumption) ?_

theorem execLayoutSliceDone_evolves {lane : Fin 16} {ok : Bool} {ps : List Part} {s₀ s : State} (hE : Evolves ps s₀ s)
    (hW : Sub [.events, .fences, .counters, .sampling, .controllers, .namespaces, .commands, .contexts, .hbm,
      .layoutWork, .ciphers, .driveSlots, .functions, .hostQueues, .leash, .replicas, .regs, .regPrt, .regLay,
      .regRed, .out] ps) :
    ∀ t, execLayoutSliceDone lane ok s = .next t → Evolves ps s₀ t := by
  intro t ht
  unfold execLayoutSliceDone at ht
  repeat' first
    | (with_reducible obtain rfl := Host.Outcome.next.inj ht)
    | split at ht
    | dsimp only at ht
  all_goals
    repeat' first
      | exact Sub.of hW rfl | exact .inl (Sub.of hW rfl) | with_reducible exact .inr rfl
      | exact .inr (FencesStay.refl _) | exact .inr (by dsimp only) | exact .inr rfl
      | with_reducible exact (fun h => h : _ = true → _) | (dsimp only; exact (fun h => h : _ = true → _))
      | exact (fun h => h : _ = true → _)
      | with_reducible first
          | exact hE | apply fenceLayoutLane_evolves | apply dispatchSlices_evolves | apply state_onLay_evolves
          | apply readChecked_evolves | refine Evolves.ite (fun _ => ?_) (fun _ => ?_)
      | dsimp only | split
      | with_reducible first
          | refine Evolves.fst_of (by assumption) ?_ | refine Evolves.snd_of (by assumption) ?_

theorem execSealIdleTimeout_evolves {set : Nat} {ps : List Part} {s₀ s : State} (hE : Evolves ps s₀ s)
    (hW : Sub [.events, .counters, .sampling, .commands, .mapping, .journal, .layoutWork, .drivePorts, .out] ps) :
    ∀ t, execSealIdleTimeout set s = .next t → Evolves ps s₀ t := by
  intro t ht
  unfold execSealIdleTimeout at ht
  repeat' first
    | (with_reducible obtain rfl := Host.Outcome.next.inj ht)
    | split at ht
    | dsimp only at ht
  all_goals
    repeat' first
      | exact Sub.of hW rfl
      | with_reducible first
          | exact hE | apply startSeal_evolves
      | dsimp only

theorem execSetSealed_evolves {set : Nat} {ps : List Part} {s₀ s : State} (hE : Evolves ps s₀ s)
    (hW : Sub [.events, .counters, .sampling, .commands, .powerState, .contexts, .mapping, .journal, .layoutWork,
      .ciphers, .storeWrites, .drivePorts, .buffer, .regs, .regSwc, .out] ps) :
    ∀ t, execSetSealed set s = .next t → Evolves ps s₀ t := by
  intro t ht
  unfold execSetSealed at ht
  repeat' first
    | (with_reducible obtain rfl := Host.Outcome.next.inj ht)
    | split at ht
    | dsimp only at ht
  all_goals
    repeat' first
      | exact Sub.of hW rfl
      | with_reducible first
          | exact hE | apply emit_evolves | apply onSet_evolves | apply nextRebuild_evolves | apply startReclaim_evolves
          | apply releaseStore_evolves | apply releaseWaiting_evolves | apply retire_evolves
          | refine Evolves.ite (fun _ => ?_) (fun _ => ?_)
      | dsimp only | split

theorem relocate_evolves {set : Nat} {units : List (Nat × UnitRead)} {x : Nat × Nat × Nat} {ps : List Part} {s₀ s : State} (hE : Evolves ps s₀ s)
    (hW : Sub [.events, .counters, .sampling, .commands, .mapping, .journal, .layoutWork, .drivePorts, .out] ps) :
    Evolves ps s₀ (relocate set units s x) := by
  unfold relocate
  repeat' first
    | exact Sub.of hW rfl
    | with_reducible first
        | exact hE | refine allocateOne_evolves ?_ (Sub.of hW rfl) _ _ (by assumption) | apply onEntry_evolves
        | apply sendUnit_evolves | refine Evolves.ite (fun _ => ?_) (fun _ => ?_) | refine Evolves.foldl ?_ ?_
        | refine Evolves.foldl_fst ?_ ?_ | refine Evolves.foldl_snd ?_ ?_ | assumption
    | intro _ | dsimp only | split
    | with_reducible first
        | refine Evolves.fst_of (by assumption) ?_ | refine Evolves.snd_of (by assumption) ?_

theorem execReclaimDone_evolves {set : Nat} {units : List (Nat × UnitRead)} {ps : List Part} {s₀ s : State} (hE : Evolves ps s₀ s)
    (hW : Sub [.events, .counters, .sampling, .commands, .powerState, .contexts, .mapping, .journal, .layoutWork,
      .ciphers, .storeWrites, .drivePorts, .buffer, .regs, .regSwc, .out] ps) :
    ∀ t, execReclaimDone set units s = .next t → Evolves ps s₀ t := by
  intro t ht
  unfold execReclaimDone at ht
  repeat' first
    | (with_reducible obtain rfl := Host.Outcome.next.inj ht)
    | split at ht
    | dsimp only at ht
  all_goals
    repeat' first
      | exact Sub.of hW rfl
      | with_reducible first
          | exact hE | apply relocate_evolves | apply nextRebuild_evolves | apply releaseStore_evolves
          | apply freeReclaimed_evolves | refine Evolves.ite (fun _ => ?_) (fun _ => ?_) | refine Evolves.foldl ?_ ?_
          | refine Evolves.foldl_fst ?_ ?_ | refine Evolves.foldl_snd ?_ ?_ | assumption
      | intro _ | dsimp only | split

theorem settleDrives_evolves  {ps : List Part} {s₀ s : State} (hE : Evolves ps s₀ s)
    (hW : Sub [.events, .counters, .sampling, .controllers, .namespaces, .commands, .powerState, .contexts, .hbm,
      .mapping, .journal, .layoutWork, .ciphers, .storeWrites, .drivePorts, .buffer, .functions, .hostQueues,
      .leash, .replicas, .regs, .regSwc, .regLay, .out] ps) :
    Evolves ps s₀ (settleDrives s) := by
  unfold settleDrives
  repeat' first
    | exact Sub.of hW rfl
    | with_reducible first
        | exact hE | apply onDrive_evolves | apply layDriveLost_evolves
        | refine Evolves.ite (fun _ => ?_) (fun _ => ?_) | refine Evolves.foldl ?_ ?_ | refine Evolves.foldl_fst ?_ ?_
        | refine Evolves.foldl_snd ?_ ?_ | assumption
    | intro _ | dsimp only | split

theorem restored_evolves {b : Bool × Bytes} {tail : List JRec} {headers : List (Nat × Nat × RowInfo)} {ps : List Part} {s₀ s : State} (hE : Evolves ps s₀ s)
    (hW : Sub [.mapping, .journal] ps) :
    Evolves ps s₀ (restored b tail headers s) := by
  unfold restored
  repeat' first
    | exact Sub.of hW rfl | exact .inl (Sub.of hW rfl) | with_reducible exact .inr rfl
    | exact .inr (FencesStay.refl _) | exact .inr (by dsimp only) | exact .inr rfl
    | with_reducible exact (fun h => h : _ = true → _) | (dsimp only; exact (fun h => h : _ = true → _))
    | exact (fun h => h : _ = true → _)
    | with_reducible first
        | exact hE | apply state_onLay_evolves | apply setRows_evolves | apply runRows_evolves
        | refine Evolves.ite (fun _ => ?_) (fun _ => ?_) | refine Evolves.foldl ?_ ?_ | refine Evolves.foldl_fst ?_ ?_
        | refine Evolves.foldl_snd ?_ ?_ | assumption
    | intro _ | dsimp only | split

theorem execJournalReplayDone_evolves {regions : List (Bool × Bytes)} {tail : List JRec} {headers : List (Nat × Nat × RowInfo)} {store : List (Bytes × Bytes)} {ps : List Part} {s₀ s : State} (hE : Evolves ps s₀ s)
    (hW : Sub [.events, .counters, .sampling, .controllers, .namespaces, .commands, .powerState, .contexts, .hbm,
      .mapping, .journal, .layoutWork, .ciphers, .batches, .custody, .storeWrites, .drivePorts, .buffer,
      .functions, .hostQueues, .leash, .replicas, .regs, .regSwc, .regLay, .out, .free] ps) :
    ∀ t, execJournalReplayDone regions tail headers store s = .next t → Evolves ps s₀ t := by
  intro t ht
  unfold execJournalReplayDone at ht
  repeat' first
    | (with_reducible obtain rfl := Host.Outcome.next.inj ht)
    | split at ht
    | dsimp only at ht
  all_goals
    repeat' first
      | exact Sub.of hW rfl | exact .inl (Sub.of hW rfl) | with_reducible exact .inr rfl
      | exact .inr (FencesStay.refl _) | exact .inr (by dsimp only) | exact .inr rfl
      | with_reducible exact (fun h => h : _ = true → _) | (dsimp only; exact (fun h => h : _ = true → _))
      | exact (fun h => h : _ = true → _)
      | with_reducible first
          | exact hE | apply state_onLay_evolves | apply settleDrives_evolves | apply restored_evolves
          | apply sealIfResolved_evolves | apply startRecompute_evolves | apply nextRebuild_evolves
          | apply updateAna_evolves | apply retire_evolves | apply mapPrune_evolves | apply offerDrives_evolves
          | refine Evolves.ite (fun _ => ?_) (fun _ => ?_) | refine Evolves.foldl ?_ ?_ | refine Evolves.foldl_fst ?_ ?_
          | refine Evolves.foldl_snd ?_ ?_ | assumption
      | intro _ | dsimp only | split
      | with_reducible first
          | refine Evolves.fst_of (by assumption) ?_ | refine Evolves.snd_of (by assumption) ?_

theorem execCkptInterval_evolves  {ps : List Part} {s₀ s : State} (hE : Evolves ps s₀ s)
    (hW : Sub [.journal, .drivePorts, .out] ps) :
    ∀ t, execCkptInterval s = .next t → Evolves ps s₀ t := by
  intro t ht
  unfold execCkptInterval at ht
  repeat' first
    | (with_reducible obtain rfl := Host.Outcome.next.inj ht)
    | split at ht
    | dsimp only at ht
  all_goals
    repeat' first
      | exact Sub.of hW rfl
      | with_reducible first
          | exact hE | apply startCheckpoint_evolves | refine Evolves.ite (fun _ => ?_) (fun _ => ?_)
      | dsimp only | split

theorem execCheckpointWriteCompletion_evolves {slot : Fin 48} {result : DriveResult} {ps : List Part} {s₀ s : State} (hE : Evolves ps s₀ s)
    (hW : Sub [.events, .counters, .sampling, .controllers, .namespaces, .commands, .powerState, .contexts, .hbm,
      .mapping, .journal, .layoutWork, .ciphers, .storeWrites, .drivePorts, .driveSlots, .buffer, .functions,
      .hostQueues, .leash, .replicas, .regs, .regPrt, .regSwc, .regLay, .regRed, .out] ps) :
    ∀ t, execCheckpointWriteCompletion slot result s = .next t → Evolves ps s₀ t := by
  intro t ht
  unfold execCheckpointWriteCompletion at ht
  repeat' first
    | (with_reducible obtain rfl := Host.Outcome.next.inj ht)
    | split at ht
    | dsimp only at ht
  all_goals
    repeat' first
      | exact Sub.of hW rfl | exact .inl (Sub.of hW rfl) | with_reducible exact .inr rfl
      | exact .inr (FencesStay.refl _) | exact .inr (by dsimp only) | exact .inr rfl
      | with_reducible exact (fun h => h : _ = true → _) | (dsimp only; exact (fun h => h : _ = true → _))
      | exact (fun h => h : _ = true → _)
      | with_reducible first
          | exact hE | apply driveWriteEnds_evolves | apply state_onLay_evolves | apply ckptDurable_evolves
          | apply drvDone_evolves | refine Evolves.ite (fun _ => ?_) (fun _ => ?_) | assumption
      | intro _ | dsimp only | split

theorem execRebuildSetDone_evolves {rows : List (List UnitRead)} {ps : List Part} {s₀ s : State} (hE : Evolves ps s₀ s)
    (hW : Sub [.layoutWork, .drivePorts, .out] ps) :
    ∀ t, execRebuildSetDone rows s = .next t → Evolves ps s₀ t := by
  intro t ht
  unfold execRebuildSetDone at ht
  repeat' first
    | (with_reducible obtain rfl := Host.Outcome.next.inj ht)
    | split at ht
    | dsimp only at ht
  all_goals
    repeat' first
      | exact Sub.of hW rfl | exact .inl (Sub.of hW rfl) | with_reducible exact .inr rfl
      | exact .inr (FencesStay.refl _) | exact .inr (by dsimp only) | exact .inr rfl
      | with_reducible exact (fun h => h : _ = true → _) | (dsimp only; exact (fun h => h : _ = true → _))
      | exact (fun h => h : _ = true → _)
      | with_reducible first
          | exact hE | apply state_onLay_evolves | apply drvWrite_evolves
          | refine Evolves.ite (fun _ => ?_) (fun _ => ?_) | refine Evolves.foldl ?_ ?_ | refine Evolves.foldl_fst ?_ ?_
          | refine Evolves.foldl_snd ?_ ?_ | assumption
      | intro _ | dsimp only | split
      | with_reducible first
          | refine Evolves.fst_of (by assumption) ?_ | refine Evolves.snd_of (by assumption) ?_

theorem execReadRepair_evolves {set : Nat} {row : Nat} {unit : Nat} {units : List UnitRead} {ps : List Part} {s₀ s : State} (hE : Evolves ps s₀ s)
    (hW : Sub [.events, .counters, .sampling, .mapping, .layoutWork, .drivePorts, .out] ps) :
    ∀ t, execReadRepair set row unit units s = .next t → Evolves ps s₀ t := by
  intro t ht
  unfold execReadRepair at ht
  repeat' first
    | (with_reducible obtain rfl := Host.Outcome.next.inj ht)
    | split at ht
    | dsimp only at ht
  all_goals
    repeat' first
      | exact Sub.of hW rfl
      | with_reducible first
          | exact hE | apply checkSyndrome_evolves | apply repaired_evolves | apply rewriteUnit_evolves
          | refine Evolves.ite (fun _ => ?_) (fun _ => ?_)
      | dsimp only | split
      | with_reducible first
          | refine Evolves.fst_of (by assumption) ?_ | refine Evolves.snd_of (by assumption) ?_

theorem execDriveReturned_evolves {slot : Fin 48} {ps : List Part} {s₀ s : State} (hE : Evolves ps s₀ s)
    (hW : Sub [.events, .counters, .sampling, .controllers, .namespaces, .commands, .powerState, .contexts, .mapping,
      .journal, .layoutWork, .ciphers, .drivePorts, .buffer, .functions, .hostQueues, .leash, .replicas, .regs,
      .regSwc, .out] ps) :
    ∀ t, execDriveReturned slot s = .next t → Evolves ps s₀ t := by
  intro t ht
  unfold execDriveReturned at ht
  repeat' first
    | (with_reducible obtain rfl := Host.Outcome.next.inj ht)
    | split at ht
    | dsimp only at ht
  all_goals
    repeat' first
      | exact Sub.of hW rfl
      | with_reducible first
          | exact hE | apply driveReturns_evolves
      | dsimp only

theorem scrubUnit_evolves {set : Nat} {row : Nat} {units : List UnitRead} {unit : Nat} {ps : List Part} {s₀ s : State} (hE : Evolves ps s₀ s)
    (hW : Sub [.events, .counters, .sampling, .layoutWork, .drivePorts, .regs, .regLay, .out] ps) :
    Evolves ps s₀ (scrubUnit set row units s unit) := by
  unfold scrubUnit
  repeat' first
    | exact Sub.of hW rfl | exact .inl (Sub.of hW rfl) | with_reducible exact .inr rfl
    | exact .inr (FencesStay.refl _) | exact .inr (by dsimp only) | exact .inr rfl
    | with_reducible exact (fun h => h : _ = true → _) | (dsimp only; exact (fun h => h : _ = true → _))
    | exact (fun h => h : _ = true → _)
    | with_reducible first
        | exact hE | apply state_bump_evolves | apply rewriteUnit_evolves | apply state_onLay_evolves
        | apply emit_evolves
    | dsimp only | split
    | with_reducible first
        | refine Evolves.fst_of (by assumption) ?_ | refine Evolves.snd_of (by assumption) ?_

theorem scrubAdvance_evolves {set : Nat} {row : Nat} {ps : List Part} {s₀ s : State} (hE : Evolves ps s₀ s)
    (hW : Sub [.layoutWork] ps) :
    Evolves ps s₀ (scrubAdvance set row s) := by
  unfold scrubAdvance
  repeat' first
    | exact Sub.of hW rfl | exact .inl (Sub.of hW rfl) | with_reducible exact .inr rfl
    | exact .inr (FencesStay.refl _) | exact .inr (by dsimp only) | exact .inr rfl
    | with_reducible exact (fun h => h : _ = true → _) | (dsimp only; exact (fun h => h : _ = true → _))
    | exact (fun h => h : _ = true → _)
    | with_reducible first
        | exact hE | apply state_onLay_evolves | refine Evolves.ite (fun _ => ?_) (fun _ => ?_)
    | dsimp only | split

theorem execScrubRow_evolves {set : Nat} {row : Nat} {units : List UnitRead} {ps : List Part} {s₀ s : State} (hE : Evolves ps s₀ s)
    (hW : Sub [.events, .counters, .sampling, .mapping, .layoutWork, .drivePorts, .regs, .regLay, .out] ps) :
    ∀ t, execScrubRow set row units s = .next t → Evolves ps s₀ t := by
  intro t ht
  unfold execScrubRow at ht
  repeat' first
    | (with_reducible obtain rfl := Host.Outcome.next.inj ht)
    | split at ht
    | dsimp only at ht
  all_goals
    repeat' first
      | exact Sub.of hW rfl
      | with_reducible first
          | exact hE | apply checkSyndrome_evolves | apply scrubUnit_evolves | apply scrubAdvance_evolves
          | refine Evolves.ite (fun _ => ?_) (fun _ => ?_) | refine Evolves.foldl ?_ ?_ | refine Evolves.foldl_fst ?_ ?_
          | refine Evolves.foldl_snd ?_ ?_ | assumption
      | intro _ | dsimp only | split

end Sys2Proof.Machine
end

