-- ==== Sys2Proof/Laws/FrameFixity.lean ====
section
/-! SUPPORT. What the operations of Machine/Fixity.lean change at most: one lemma each. -/

namespace Sys2Proof.Machine

set_option linter.unusedTactic false
set_option linter.unreachableTactic false
set_option linter.unusedVariables false

theorem auditMismatch_evolves {extent : Nat} {ps : List Part} {s₀ s : State} (hE : Evolves ps s₀ s)
    (hW : Sub [.events, .counters, .sampling, .custody, .regs, .regFix] ps) :
    Evolves ps s₀ (auditMismatch extent s) := by
  unfold auditMismatch
  repeat' first
    | exact Sub.of hW rfl | exact .inl (Sub.of hW rfl) | with_reducible exact .inr rfl
    | exact .inr (FencesStay.refl _) | exact .inr (by dsimp only) | exact .inr rfl
    | with_reducible exact (fun h => h : _ = true → _) | (dsimp only; exact (fun h => h : _ = true → _))
    | exact (fun h => h : _ = true → _)
    | with_reducible first
        | exact hE | apply state_bump_evolves | apply emit_evolves | apply state_onFix_evolves
        | refine Evolves.ite (fun _ => ?_) (fun _ => ?_)
    | dsimp only | split
    | with_reducible first
        | refine Evolves.fst_of (by assumption) ?_ | refine Evolves.snd_of (by assumption) ?_

theorem auditAdvance_evolves {extent : Nat} {ps : List Part} {s₀ s : State} (hE : Evolves ps s₀ s)
    (hW : Sub [.custody] ps) :
    Evolves ps s₀ (auditAdvance extent s) := by
  unfold auditAdvance
  repeat' first
    | exact Sub.of hW rfl | exact .inl (Sub.of hW rfl) | with_reducible exact .inr rfl
    | exact .inr (FencesStay.refl _) | exact .inr (by dsimp only) | exact .inr rfl
    | with_reducible exact (fun h => h : _ = true → _) | (dsimp only; exact (fun h => h : _ = true → _))
    | exact (fun h => h : _ = true → _)
    | with_reducible first
        | exact hE | apply state_onFix_evolves | refine Evolves.ite (fun _ => ?_) (fun _ => ?_)
    | dsimp only | split

theorem auditDecode_evolves {extent : Nat} {l : Leaf} {segs : List Seg} {got : List UnitIo} {same : Option Bytes → Bool} {ps : List Part} {s₀ s : State} (hE : Evolves ps s₀ s)
    (hW : Sub [.events, .counters, .sampling, .layoutWork, .custody, .drivePorts, .regs, .regFix, .out] ps) :
    Evolves ps s₀ (auditDecode extent l segs got same s) := by
  unfold auditDecode
  repeat' first
    | exact Sub.of hW rfl
    | with_reducible first
        | exact hE | apply auditAdvance_evolves | apply rewriteUnit_evolves | apply auditMismatch_evolves
    | dsimp only | split
    | with_reducible first
        | refine Evolves.fst_of (by assumption) ?_ | refine Evolves.snd_of (by assumption) ?_

theorem execWrDriveRead_evolves {chain : Fin 16384} {ps : List Part} {s₀ s : State} (hE : Evolves ps s₀ s)
    (hW : Sub [.commands, .contexts, .chains, .hbm, .layoutWork, .ciphers, .drivePorts, .leash, .replicas, .regs,
      .regLay, .out] ps) :
    ∀ t, execWrDriveRead chain s = .next t → Evolves ps s₀ t := by
  intro t ht
  unfold execWrDriveRead at ht
  repeat' first
    | (with_reducible obtain rfl := Host.Outcome.next.inj ht)
    | split at ht
    | dsimp only at ht
  all_goals
    repeat' first
      | exact Sub.of hW rfl
      | with_reducible first
          | exact hE | apply startRequest_evolves | apply onEntry_evolves | apply toPosting_evolves
          | apply advanceRead_evolves | refine Evolves.ite (fun _ => ?_) (fun _ => ?_) | assumption
      | intro _ | dsimp only | split

theorem execWrDriveWrite_evolves {chain : Fin 16384} {ps : List Part} {s₀ s : State} (hE : Evolves ps s₀ s)
    (hW : Sub [.events, .counters, .sampling, .commands, .powerState, .contexts, .chains, .mapping, .journal,
      .layoutWork, .ciphers, .drivePorts, .buffer, .regs, .regSwc, .regCip, .out] ps) :
    ∀ t, execWrDriveWrite chain s = .next t → Evolves ps s₀ t := by
  intro t ht
  unfold execWrDriveWrite at ht
  repeat' first
    | (with_reducible obtain rfl := Host.Outcome.next.inj ht)
    | split at ht
    | dsimp only at ht
  all_goals
    repeat' first
      | exact Sub.of hW rfl
      | with_reducible first
          | exact hE | apply startRequest_evolves | apply onEntry_evolves | apply journalStep_evolves
          | apply toPosting_evolves | apply cipRefuse_evolves
          | refine allocateFor_evolves ?_ (Sub.of hW rfl) _ _ (by assumption) | apply noSpace_evolves
          | apply submitUnits_evolves | refine Evolves.ite (fun _ => ?_) (fun _ => ?_) | assumption
      | intro _ | dsimp only | split
      | with_reducible first
          | refine Evolves.fst_of (by assumption) ?_ | refine Evolves.snd_of (by assumption) ?_

theorem execWrDigestCheck_evolves {chain : Fin 16384} {ps : List Part} {s₀ s : State} (hE : Evolves ps s₀ s)
    (hW : Sub [.events, .counters, .sampling, .contexts, .chains, .jobs, .leash, .replicas, .out] ps) :
    ∀ t, execWrDigestCheck chain s = .next t → Evolves ps s₀ t := by
  intro t ht
  unfold execWrDigestCheck at ht
  repeat' first
    | (with_reducible obtain rfl := Host.Outcome.next.inj ht)
    | split at ht
    | dsimp only at ht
  all_goals
    repeat' first
      | exact Sub.of hW rfl
      | with_reducible first
          | exact hE | apply startRequest_evolves | apply requestEnds_evolves | assumption
      | intro _ | dsimp only | split

theorem execWrCustodyRecord_evolves {chain : Fin 16384} {ps : List Part} {s₀ s : State} (hE : Evolves ps s₀ s)
    (hW : Sub [.events, .counters, .sampling, .commands, .powerState, .contexts, .chains, .mapping, .journal,
      .layoutWork, .ciphers, .custody, .jobs, .storeWrites, .drivePorts, .buffer, .leash, .replicas, .regs,
      .regSwc, .out] ps) :
    ∀ t, execWrCustodyRecord chain s = .next t → Evolves ps s₀ t := by
  intro t ht
  unfold execWrCustodyRecord at ht
  repeat' first
    | (with_reducible obtain rfl := Host.Outcome.next.inj ht)
    | split at ht
    | dsimp only at ht
  all_goals
    repeat' first
      | exact Sub.of hW rfl
      | with_reducible first
          | exact hE | apply startRequest_evolves | apply placeCustody_evolves | apply storeCustody_evolves
          | apply requestEnds_evolves | refine Evolves.ite (fun _ => ?_) (fun _ => ?_) | assumption
      | intro _ | dsimp only | split

theorem execWrEnvelopeSeal_evolves {chain : Fin 16384} {ps : List Part} {s₀ s : State} (hE : Evolves ps s₀ s)
    (hW : Sub [.events, .counters, .sampling, .contexts, .chains, .hbm, .keys, .ciphers, .jobs, .leash, .replicas,
      .regs, .regCip, .out] ps) :
    ∀ t, execWrEnvelopeSeal chain s = .next t → Evolves ps s₀ t := by
  intro t ht
  unfold execWrEnvelopeSeal at ht
  repeat' first
    | (with_reducible obtain rfl := Host.Outcome.next.inj ht)
    | split at ht
    | dsimp only at ht
  all_goals
    repeat' first
      | exact Sub.of hW rfl
      | with_reducible first
          | exact hE | apply startRequest_evolves | apply cipRun_evolves | apply requestEnds_evolves
          | apply hbmWrite_evolves | assumption
      | intro _ | dsimp only | split
      | with_reducible first
          | refine Evolves.fst_of (by assumption) ?_ | refine Evolves.snd_of (by assumption) ?_

theorem execWrEnvelopeOpen_evolves {chain : Fin 16384} {ps : List Part} {s₀ s : State} (hE : Evolves ps s₀ s)
    (hW : Sub [.events, .counters, .sampling, .contexts, .chains, .hbm, .keys, .ciphers, .jobs, .leash, .replicas,
      .regs, .regCip, .out] ps) :
    ∀ t, execWrEnvelopeOpen chain s = .next t → Evolves ps s₀ t := by
  intro t ht
  unfold execWrEnvelopeOpen at ht
  repeat' first
    | (with_reducible obtain rfl := Host.Outcome.next.inj ht)
    | split at ht
    | dsimp only at ht
  all_goals
    repeat' first
      | exact Sub.of hW rfl
      | with_reducible first
          | exact hE | apply startRequest_evolves | apply requestEnds_evolves | apply cipRun_evolves
          | apply hbmWrite_evolves | refine Evolves.ite (fun _ => ?_) (fun _ => ?_) | assumption
      | intro _ | dsimp only | split
      | with_reducible first
          | refine Evolves.fst_of (by assumption) ?_ | refine Evolves.snd_of (by assumption) ?_

theorem execLeavesRecomputed_evolves {units : List (Nat × Nat × UnitRead)} {ps : List Part} {s₀ s : State} (hE : Evolves ps s₀ s)
    (hW : Sub [.events, .counters, .sampling, .commands, .powerState, .contexts, .mapping, .journal, .layoutWork,
      .ciphers, .batches, .storeWrites, .drivePorts, .buffer, .regs, .regSwc, .regFix, .out] ps) :
    ∀ t, execLeavesRecomputed units s = .next t → Evolves ps s₀ t := by
  intro t ht
  unfold execLeavesRecomputed at ht
  repeat' first
    | (with_reducible obtain rfl := Host.Outcome.next.inj ht)
    | split at ht
    | dsimp only at ht
  all_goals
    repeat' first
      | exact Sub.of hW rfl | exact .inl (Sub.of hW rfl) | with_reducible exact .inr rfl
      | exact .inr (FencesStay.refl _) | exact .inr (by dsimp only) | exact .inr rfl
      | with_reducible exact (fun h => h : _ = true → _) | (dsimp only; exact (fun h => h : _ = true → _))
      | exact (fun h => h : _ = true → _)
      | with_reducible first
          | exact hE | apply addLeaf_evolves | apply fixAdvance_evolves | apply emit_evolves | apply state_onFix_evolves
          | unfold recompute | refine Evolves.ite (fun _ => ?_) (fun _ => ?_) | refine Evolves.foldl ?_ ?_
          | refine Evolves.foldl_fst ?_ ?_ | refine Evolves.foldl_snd ?_ ?_ | assumption
      | intro _ | dsimp only | split
      | with_reducible first
          | refine Evolves.fst_of (by assumption) ?_ | refine Evolves.snd_of (by assumption) ?_

theorem queueFailing_evolves {units : List (Nat × Nat × UnitRead)} {ps : List Part} {s₀ s : State} (hE : Evolves ps s₀ s)
    (hW : Sub [.events, .counters, .sampling, .layoutWork, .regs, .regLay] ps) :
    Evolves ps s₀ (queueFailing units s) := by
  unfold queueFailing
  repeat' first
    | exact Sub.of hW rfl
    | with_reducible first
        | exact hE | apply unitCheckFail_evolves | refine Evolves.foldl ?_ ?_ | refine Evolves.foldl_fst ?_ ?_
        | refine Evolves.foldl_snd ?_ ?_ | assumption
    | intro _ | dsimp only

theorem execFixityAuditObject_evolves {extent : Nat} {units : List (Nat × Nat × UnitRead)} {ps : List Part} {s₀ s : State} (hE : Evolves ps s₀ s)
    (hW : Sub [.events, .counters, .sampling, .layoutWork, .custody, .drivePorts, .regs, .regLay, .regFix, .out] ps) :
    ∀ t, execFixityAuditObject extent units s = .next t → Evolves ps s₀ t := by
  intro t ht
  unfold execFixityAuditObject at ht
  repeat' first
    | (with_reducible obtain rfl := Host.Outcome.next.inj ht)
    | split at ht
    | dsimp only at ht
  all_goals
    repeat' first
      | exact Sub.of hW rfl
      | with_reducible first
          | exact hE | apply auditAdvance_evolves | apply queueFailing_evolves | apply auditDecode_evolves
          | refine Evolves.ite (fun _ => ?_) (fun _ => ?_)
      | dsimp only | split
      | with_reducible first
          | refine Evolves.fst_of (by assumption) ?_ | refine Evolves.snd_of (by assumption) ?_

end Sys2Proof.Machine
end

