-- ==== Sys2Proof/Laws/FrameIoCommands.lean ====
section
/-! SUPPORT. What the operations of Machine/IoCommands.lean change at most: one lemma each. -/

namespace Sys2Proof.Machine

set_option linter.unusedTactic false
set_option linter.unreachableTactic false
set_option linter.unusedVariables false

theorem execRead_evolves {h : IoHdr} {slba : Nat} {nlb : Nat} {sgl : List Sgl} {ps : List Part} {s₀ s : State} (hE : Evolves ps s₀ s)
    (hW : Sub [.events, .counters, .sampling, .commands, .powerState, .contexts, .buffer, .functions, .hostQueues,
      .leash, .replicas, .regs, .regSwc, .regCmd, .out] ps) :
    ∀ t, execRead h slba nlb sgl s = .next t → Evolves ps s₀ t := by
  intro t ht
  unfold execRead at ht
  repeat' first
    | (with_reducible obtain rfl := Host.Outcome.next.inj ht)
    | split at ht
    | dsimp only at ht
  all_goals
    repeat' first
      | exact Sub.of hW rfl
      | with_reducible first
          | exact hE | apply admitCap_evolves
      | dsimp only

theorem execWrite_evolves {h : IoHdr} {slba : Nat} {nlb : Nat} {sgl : List Sgl} {inline : Bytes} {ps : List Part} {s₀ s : State} (hE : Evolves ps s₀ s)
    (hW : Sub [.events, .counters, .sampling, .commands, .powerState, .contexts, .buffer, .functions, .hostQueues,
      .leash, .replicas, .regs, .regSwc, .regCmd, .out] ps) :
    ∀ t, execWrite h slba nlb sgl inline s = .next t → Evolves ps s₀ t := by
  intro t ht
  unfold execWrite at ht
  repeat' first
    | (with_reducible obtain rfl := Host.Outcome.next.inj ht)
    | split at ht
    | dsimp only at ht
  all_goals
    repeat' first
      | exact Sub.of hW rfl
      | with_reducible first
          | exact hE | apply admitCap_evolves
      | dsimp only

theorem execFlush_evolves {h : IoHdr} {ps : List Part} {s₀ s : State} (hE : Evolves ps s₀ s)
    (hW : Sub [.events, .counters, .sampling, .commands, .powerState, .contexts, .buffer, .functions, .hostQueues,
      .leash, .replicas, .regs, .regSwc, .regCmd, .out] ps) :
    ∀ t, execFlush h s = .next t → Evolves ps s₀ t := by
  intro t ht
  unfold execFlush at ht
  repeat' first
    | (with_reducible obtain rfl := Host.Outcome.next.inj ht)
    | split at ht
    | dsimp only at ht
  all_goals
    repeat' first
      | exact Sub.of hW rfl
      | with_reducible first
          | exact hE | apply admitCap_evolves
      | dsimp only

theorem execCompare_evolves {h : IoHdr} {slba : Nat} {nlb : Nat} {sgl : List Sgl} {inline : Bytes} {ps : List Part} {s₀ s : State} (hE : Evolves ps s₀ s)
    (hW : Sub [.events, .counters, .sampling, .commands, .powerState, .contexts, .buffer, .functions, .hostQueues,
      .leash, .replicas, .regs, .regSwc, .regCmd, .out] ps) :
    ∀ t, execCompare h slba nlb sgl inline s = .next t → Evolves ps s₀ t := by
  intro t ht
  unfold execCompare at ht
  repeat' first
    | (with_reducible obtain rfl := Host.Outcome.next.inj ht)
    | split at ht
    | dsimp only at ht
  all_goals
    repeat' first
      | exact Sub.of hW rfl
      | with_reducible first
          | exact hE | apply admitCap_evolves
      | dsimp only

theorem execVerify_evolves {h : IoHdr} {slba : Nat} {nlb : Nat} {ps : List Part} {s₀ s : State} (hE : Evolves ps s₀ s)
    (hW : Sub [.events, .counters, .sampling, .commands, .powerState, .contexts, .buffer, .functions, .hostQueues,
      .leash, .replicas, .regs, .regSwc, .regCmd, .out] ps) :
    ∀ t, execVerify h slba nlb s = .next t → Evolves ps s₀ t := by
  intro t ht
  unfold execVerify at ht
  repeat' first
    | (with_reducible obtain rfl := Host.Outcome.next.inj ht)
    | split at ht
    | dsimp only at ht
  all_goals
    repeat' first
      | exact Sub.of hW rfl
      | with_reducible first
          | exact hE | apply admitCap_evolves
      | dsimp only

theorem execWriteZeroes_evolves {h : IoHdr} {slba : Nat} {nlb : Nat} {ps : List Part} {s₀ s : State} (hE : Evolves ps s₀ s)
    (hW : Sub [.events, .counters, .sampling, .commands, .powerState, .contexts, .buffer, .functions, .hostQueues,
      .leash, .replicas, .regs, .regSwc, .regCmd, .out] ps) :
    ∀ t, execWriteZeroes h slba nlb s = .next t → Evolves ps s₀ t := by
  intro t ht
  unfold execWriteZeroes at ht
  repeat' first
    | (with_reducible obtain rfl := Host.Outcome.next.inj ht)
    | split at ht
    | dsimp only at ht
  all_goals
    repeat' first
      | exact Sub.of hW rfl
      | with_reducible first
          | exact hE | apply admitCap_evolves
      | dsimp only

theorem execDatasetManagement_evolves {h : IoHdr} {deallocate : Bool} {ranges : List (Nat × Nat)} {ps : List Part} {s₀ s : State} (hE : Evolves ps s₀ s)
    (hW : Sub [.events, .counters, .sampling, .commands, .powerState, .contexts, .buffer, .functions, .hostQueues,
      .leash, .replicas, .regs, .regSwc, .regCmd, .out] ps) :
    ∀ t, execDatasetManagement h deallocate ranges s = .next t → Evolves ps s₀ t := by
  intro t ht
  unfold execDatasetManagement at ht
  repeat' first
    | (with_reducible obtain rfl := Host.Outcome.next.inj ht)
    | split at ht
    | dsimp only at ht
  all_goals
    repeat' first
      | exact Sub.of hW rfl
      | with_reducible first
          | exact hE | apply admitCap_evolves | refine Evolves.ite (fun _ => ?_) (fun _ => ?_)
      | dsimp only | split

theorem execKvStore_evolves {h : IoHdr} {key : Bytes} {len : Nat} {sgl : List Sgl} {inline : Bytes} {ps : List Part} {s₀ s : State} (hE : Evolves ps s₀ s)
    (hW : Sub [.events, .counters, .sampling, .commands, .powerState, .contexts, .buffer, .functions, .hostQueues,
      .leash, .replicas, .regs, .regSwc, .regCmd, .out] ps) :
    ∀ t, execKvStore h key len sgl inline s = .next t → Evolves ps s₀ t := by
  intro t ht
  unfold execKvStore at ht
  repeat' first
    | (with_reducible obtain rfl := Host.Outcome.next.inj ht)
    | split at ht
    | dsimp only at ht
  all_goals
    repeat' first
      | exact Sub.of hW rfl
      | with_reducible first
          | exact hE | apply admitCap_evolves
      | dsimp only

theorem execKvRetrieve_evolves {h : IoHdr} {key : Bytes} {bufLen : Nat} {sgl : List Sgl} {ps : List Part} {s₀ s : State} (hE : Evolves ps s₀ s)
    (hW : Sub [.events, .counters, .sampling, .commands, .powerState, .contexts, .buffer, .functions, .hostQueues,
      .leash, .replicas, .regs, .regSwc, .regCmd, .out] ps) :
    ∀ t, execKvRetrieve h key bufLen sgl s = .next t → Evolves ps s₀ t := by
  intro t ht
  unfold execKvRetrieve at ht
  repeat' first
    | (with_reducible obtain rfl := Host.Outcome.next.inj ht)
    | split at ht
    | dsimp only at ht
  all_goals
    repeat' first
      | exact Sub.of hW rfl
      | with_reducible first
          | exact hE | apply admitCap_evolves
      | dsimp only

theorem execKvDelete_evolves {h : IoHdr} {key : Bytes} {ps : List Part} {s₀ s : State} (hE : Evolves ps s₀ s)
    (hW : Sub [.events, .counters, .sampling, .commands, .powerState, .contexts, .buffer, .functions, .hostQueues,
      .leash, .replicas, .regs, .regSwc, .regCmd, .out] ps) :
    ∀ t, execKvDelete h key s = .next t → Evolves ps s₀ t := by
  intro t ht
  unfold execKvDelete at ht
  repeat' first
    | (with_reducible obtain rfl := Host.Outcome.next.inj ht)
    | split at ht
    | dsimp only at ht
  all_goals
    repeat' first
      | exact Sub.of hW rfl
      | with_reducible first
          | exact hE | apply admitCap_evolves
      | dsimp only

theorem execKvExist_evolves {h : IoHdr} {key : Bytes} {ps : List Part} {s₀ s : State} (hE : Evolves ps s₀ s)
    (hW : Sub [.events, .counters, .sampling, .commands, .powerState, .contexts, .buffer, .functions, .hostQueues,
      .leash, .replicas, .regs, .regSwc, .regCmd, .out] ps) :
    ∀ t, execKvExist h key s = .next t → Evolves ps s₀ t := by
  intro t ht
  unfold execKvExist at ht
  repeat' first
    | (with_reducible obtain rfl := Host.Outcome.next.inj ht)
    | split at ht
    | dsimp only at ht
  all_goals
    repeat' first
      | exact Sub.of hW rfl
      | with_reducible first
          | exact hE | apply admitCap_evolves
      | dsimp only

theorem execKvList_evolves {h : IoHdr} {key : Bytes} {bufLen : Nat} {sgl : List Sgl} {ps : List Part} {s₀ s : State} (hE : Evolves ps s₀ s)
    (hW : Sub [.events, .counters, .sampling, .commands, .powerState, .contexts, .buffer, .functions, .hostQueues,
      .leash, .replicas, .regs, .regSwc, .regCmd, .out] ps) :
    ∀ t, execKvList h key bufLen sgl s = .next t → Evolves ps s₀ t := by
  intro t ht
  unfold execKvList at ht
  repeat' first
    | (with_reducible obtain rfl := Host.Outcome.next.inj ht)
    | split at ht
    | dsimp only at ht
  all_goals
    repeat' first
      | exact Sub.of hW rfl
      | with_reducible first
          | exact hE | apply admitCap_evolves
      | dsimp only

theorem execKvFlush_evolves {h : IoHdr} {ps : List Part} {s₀ s : State} (hE : Evolves ps s₀ s)
    (hW : Sub [.events, .counters, .sampling, .commands, .powerState, .contexts, .buffer, .functions, .hostQueues,
      .leash, .replicas, .regs, .regSwc, .regCmd, .out] ps) :
    ∀ t, execKvFlush h s = .next t → Evolves ps s₀ t := by
  intro t ht
  unfold execKvFlush at ht
  repeat' first
    | (with_reducible obtain rfl := Host.Outcome.next.inj ht)
    | split at ht
    | dsimp only at ht
  all_goals
    repeat' first
      | exact Sub.of hW rfl
      | with_reducible first
          | exact hE | apply admitCap_evolves
      | dsimp only

end Sys2Proof.Machine
end

