-- ==== Sys2Proof/Laws/FrameMigration.lean ====
section
/-! SUPPORT. What the operations of Machine/Migration.lean change at most: one lemma each. -/

namespace Sys2Proof.Machine

set_option linter.unusedTactic false
set_option linter.unreachableTactic false
set_option linter.unusedVariables false

theorem replan_evolves {j : Nat} {o : MigObj} {ps : List Part} {s₀ s : State} (hE : Evolves ps s₀ s)
    (hW : Sub [.jobs] ps) :
    Evolves ps s₀ (replan j o s) := by
  unfold replan
  repeat' first
    | exact Sub.of hW rfl
    | with_reducible first
        | exact hE | apply onJob_evolves
    | dsimp only

theorem objFailed_evolves {j : Nat} {st : Nat} {window : Nat} {o : MigObj} {ps : List Part} {s₀ s : State} (hE : Evolves ps s₀ s)
    (hW : Sub [.events, .counters, .sampling, .controllers, .namespaces, .contexts, .chains, .jobs, .functions,
      .hostQueues, .leash, .replicas, .out] ps) :
    Evolves ps s₀ (objFailed j st window o s) := by
  unfold objFailed
  repeat' first
    | exact Sub.of hW rfl
    | with_reducible first
        | exact hE | apply emit_evolves | apply onJob_evolves | apply stopJob_evolves
        | refine Evolves.ite (fun _ => ?_) (fun _ => ?_)
    | dsimp only | split

theorem ackEntry_evolves {j : Nat} {window : Nat} {p : MigObj × Nat} {ps : List Part} {s₀ s : State} (hE : Evolves ps s₀ s)
    (hW : Sub [.events, .counters, .sampling, .controllers, .namespaces, .contexts, .chains, .custody, .jobs,
      .functions, .hostQueues, .leash, .replicas, .regs, .regFix, .out] ps) :
    Evolves ps s₀ (ackEntry j window s p) := by
  unfold ackEntry
  repeat' first
    | exact Sub.of hW rfl
    | with_reducible first
        | exact hE | apply replan_evolves | apply emit_evolves | apply onJob_evolves | apply objFailed_evolves
        | apply auditMismatch_evolves | apply stopJob_evolves | refine Evolves.ite (fun _ => ?_) (fun _ => ?_)
    | dsimp only | split
    | with_reducible first
        | refine Evolves.fst_of (by assumption) ?_ | refine Evolves.snd_of (by assumption) ?_

theorem armWindow_evolves {trigger : Nat} {tag : Nat} {qpn : Nat} {first : Nat} {mbufLen : Nat} {mbuf : Nat} {ws : List WorkReq} {ps : List Part} {s₀ s : State} (hE : Evolves ps s₀ s)
    (hW : Sub [.chains] ps) :
    Evolves ps s₀ (armWindow trigger tag qpn first mbufLen mbuf ws s) := by
  unfold armWindow
  repeat' first
    | exact Sub.of hW rfl | exact .inl (Sub.of hW rfl) | with_reducible exact .inr rfl
    | exact .inr (FencesStay.refl _) | exact .inr (by dsimp only) | exact .inr rfl
    | with_reducible exact (fun h => h : _ = true → _) | (dsimp only; exact (fun h => h : _ = true → _))
    | exact (fun h => h : _ = true → _)
    | with_reducible first
        | exact hE | apply state_onXpt_evolves | apply onTrigger_evolves | refine Evolves.foldl ?_ ?_
        | refine Evolves.foldl_fst ?_ ?_ | refine Evolves.foldl_snd ?_ ?_ | assumption
    | intro _ | dsimp only

theorem attest_evolves {nsid : Nat} {got : List UnitIo} {o : MigObj} {ps : List Part} {s₀ s : State} (hE : Evolves ps s₀ s)
    (hW : Sub [.events, .counters, .sampling, .batches] ps) :
    Evolves ps s₀ (attest nsid got s o) := by
  unfold attest
  repeat' first
    | exact Sub.of hW rfl
    | with_reducible first
        | exact hE | apply addLeaf_evolves | refine Evolves.ite (fun _ => ?_) (fun _ => ?_)
    | dsimp only | split
    | with_reducible first
        | refine Evolves.fst_of (by assumption) ?_ | refine Evolves.snd_of (by assumption) ?_

theorem countPass_evolves {j : Nat} {ps : List Part} {s₀ s : State} (hE : Evolves ps s₀ s)
    (hW : Sub [.jobs] ps) :
    Evolves ps s₀ (countPass j s) := by
  unfold countPass
  repeat' first
    | exact Sub.of hW rfl
    | with_reducible first
        | exact hE | apply onJob_evolves | refine Evolves.ite (fun _ => ?_) (fun _ => ?_)
    | dsimp only | split

theorem migOrder_evolves {path : Fin 5} {session : Nat} {value : Word} {order : Nat} {run : Nat → State → State} {ps : List Part} {s₀ s : State} (hE : Evolves ps s₀ s)
    (hrun : ∀ a0 (t : State), Evolves ps s₀ t → Evolves ps s₀ (run a0 t))
    (hW : Sub [.events, .sessions, .marks, .counters, .sampling, .regs, .regCtl, .out] ps) :
    Evolves ps s₀ (migOrder path session value order run s) := by
  unfold migOrder
  repeat' first
    | exact Sub.of hW rfl
    | with_reducible first
        | exact hE | apply writeGate_evolves | apply hrun | refine Evolves.ite (fun _ => ?_) (fun _ => ?_)
        | assumption
    | intro _ | dsimp only | split
    | with_reducible first
        | refine Evolves.fst_of (by assumption) ?_ | refine Evolves.snd_of (by assumption) ?_

theorem startPass_evolves {j : Nat} {ps : List Part} {s₀ s : State} (hE : Evolves ps s₀ s)
    (hW : Sub [.jobs] ps) :
    Evolves ps s₀ (startPass j s) := by
  unfold startPass
  repeat' first
    | exact Sub.of hW rfl
    | with_reducible first
        | exact hE | apply onJob_evolves
    | dsimp only

theorem passEnd_evolves {j : Nat} {x1 : Nat} {ps : List Part} {s₀ x2 : State} (hE : Evolves ps s₀ x2)
    (hW : Sub [.events, .counters, .sampling, .controllers, .namespaces, .contexts, .jobs, .functions, .hostQueues,
      .leash, .replicas, .out] ps) :
    Evolves ps s₀ (passEnd j x1 x2) := by
  induction x1 generalizing x2 with
  | zero => exact hE
  | succ n ih =>
    unfold passEnd
    repeat' first
      | with_reducible exact hE
      | exact Sub.of hW rfl
      | exact .inl (Sub.of hW rfl)
      | with_reducible exact .inr rfl
      | exact .inr (by dsimp only)
      | exact .inr rfl
      | (dsimp only; exact (fun h => h : _ = true → _))
      | exact (fun h => h : _ = true → _)
      | with_reducible exact hW
      | exact List.prefix_append _ _
      | with_reducible apply ih
      | with_reducible apply startPass_evolves
      | with_reducible apply migState_evolves
      | with_reducible apply onJob_evolves
      | with_reducible apply migAna_evolves
      | with_reducible apply sendManifest_evolves
      | with_reducible apply countPass_evolves
      | with_reducible refine Evolves.ite (fun _ => ?_) (fun _ => ?_)
      | with_reducible refine Evolves.foldl ?_ ?_
      | intro _
      | dsimp only
      | split
      | with_reducible assumption

theorem orderCutover_evolves {j : Nat} {ps : List Part} {s₀ s : State} (hE : Evolves ps s₀ s)
    (hW : Sub [.events, .counters, .sampling, .controllers, .namespaces, .contexts, .jobs, .functions, .hostQueues,
      .leash, .replicas, .out] ps) :
    Evolves ps s₀ (orderCutover j s) := by
  unfold orderCutover
  repeat' first
    | exact Sub.of hW rfl
    | with_reducible first
        | exact hE | apply passEnd_evolves | apply onJob_evolves
    | dsimp only

theorem execMigCutoverOrder_evolves {path : Fin 5} {session : Nat} {value : Word} {ps : List Part} {s₀ s : State} (hE : Evolves ps s₀ s)
    (hW : Sub [.events, .sessions, .marks, .counters, .sampling, .controllers, .namespaces, .contexts, .jobs,
      .functions, .hostQueues, .leash, .replicas, .regs, .regCtl, .out] ps) :
    ∀ t, execMigCutoverOrder path session value s = .next t → Evolves ps s₀ t := by
  intro t ht
  unfold execMigCutoverOrder at ht
  repeat' first
    | (with_reducible obtain rfl := Host.Outcome.next.inj ht)
    | split at ht
    | dsimp only at ht
  all_goals
    repeat' first
      | exact Sub.of hW rfl
      | with_reducible first
          | exact hE | apply migOrder_evolves | apply orderCutover_evolves | assumption
      | intro _ | dsimp only

theorem execMigAbortOrder_evolves {path : Fin 5} {session : Nat} {value : Word} {ps : List Part} {s₀ s : State} (hE : Evolves ps s₀ s)
    (hW : Sub [.events, .sessions, .marks, .counters, .sampling, .controllers, .namespaces, .contexts, .chains, .jobs,
      .functions, .hostQueues, .leash, .replicas, .regs, .regCtl, .out] ps) :
    ∀ t, execMigAbortOrder path session value s = .next t → Evolves ps s₀ t := by
  intro t ht
  unfold execMigAbortOrder at ht
  repeat' first
    | (with_reducible obtain rfl := Host.Outcome.next.inj ht)
    | split at ht
    | dsimp only at ht
  all_goals
    repeat' first
      | exact Sub.of hW rfl
      | with_reducible first
          | exact hE | apply migOrder_evolves | apply stopJob_evolves | assumption
      | intro _ | dsimp only

theorem execMigWindowPlanned_evolves {job : Fin 16} {count : Nat} {trigger : Fin 16384} {place : WindowPlace} {units : List (Nat × Nat × UnitRead)} {ps : List Part} {s₀ s : State} (hE : Evolves ps s₀ s)
    (hW : Sub [.events, .counters, .sampling, .controllers, .namespaces, .contexts, .chains, .hbm, .batches, .jobs,
      .functions, .hostQueues, .leash, .replicas, .out] ps) :
    ∀ t, execMigWindowPlanned job count trigger place units s = .next t → Evolves ps s₀ t := by
  intro t ht
  unfold execMigWindowPlanned at ht
  repeat' first
    | (with_reducible obtain rfl := Host.Outcome.next.inj ht)
    | split at ht
    | dsimp only at ht
  all_goals
    repeat' first
      | exact Sub.of hW rfl
      | with_reducible first
          | exact hE | apply onJob_evolves | apply attest_evolves | apply passEnd_evolves | apply hbmWrite_evolves
          | apply armWindow_evolves | apply sendManifest_evolves | refine Evolves.ite (fun _ => ?_) (fun _ => ?_)
          | refine Evolves.foldl ?_ ?_ | refine Evolves.foldl_fst ?_ ?_ | refine Evolves.foldl_snd ?_ ?_ | assumption
      | intro _ | dsimp only | split

theorem takeManifest_evolves {j : Nat} {ps : List Part} {s₀ s : State} (hE : Evolves ps s₀ s)
    (hW : Sub [.contexts, .jobs] ps) :
    Evolves ps s₀ (takeManifest j s) := by
  unfold takeManifest
  repeat' first
    | exact Sub.of hW rfl | exact .inl (Sub.of hW rfl) | with_reducible exact .inr rfl
    | exact .inr (FencesStay.refl _) | exact .inr (by dsimp only) | exact .inr rfl
    | with_reducible exact (fun h => h : _ = true → _) | (dsimp only; exact (fun h => h : _ = true → _))
    | exact (fun h => h : _ = true → _)
    | with_reducible first
        | exact hE | apply onCtx_evolves | apply state_onFix_evolves | refine Evolves.ite (fun _ => ?_) (fun _ => ?_)
    | dsimp only | split

theorem execManifestPlan_evolves {job : Fin 16} {peerSlot : Fin 16} {window : Nat} {entries : List Bytes} {trigger : Fin 16384} {place : TargetPlace} {ps : List Part} {s₀ s : State} (hE : Evolves ps s₀ s)
    (hW : Sub [.contexts, .chains, .hbm, .jobs, .leash, .replicas, .out] ps) :
    ∀ t, execManifestPlan job peerSlot window entries trigger place s = .next t → Evolves ps s₀ t := by
  intro t ht
  unfold execManifestPlan at ht
  repeat' first
    | (with_reducible obtain rfl := Host.Outcome.next.inj ht)
    | split at ht
    | dsimp only at ht
  all_goals
    repeat' first
      | exact Sub.of hW rfl
      | with_reducible first
          | exact hE | apply takeManifest_evolves | apply hbmWrite_evolves | apply armWindow_evolves
          | apply onJob_evolves | apply sendManifest_evolves | refine Evolves.ite (fun _ => ?_) (fun _ => ?_)
          | refine Evolves.foldl ?_ ?_ | refine Evolves.foldl_fst ?_ ?_ | refine Evolves.foldl_snd ?_ ?_ | assumption
      | intro _ | dsimp only | split

theorem execManifestAck_evolves {job : Fin 16} {window : Nat} {statuses : List Nat} {ps : List Part} {s₀ s : State} (hE : Evolves ps s₀ s)
    (hW : Sub [.events, .counters, .sampling, .controllers, .namespaces, .contexts, .chains, .custody, .jobs,
      .functions, .hostQueues, .leash, .replicas, .regs, .regFix, .out] ps) :
    ∀ t, execManifestAck job window statuses s = .next t → Evolves ps s₀ t := by
  intro t ht
  unfold execManifestAck at ht
  repeat' first
    | (with_reducible obtain rfl := Host.Outcome.next.inj ht)
    | split at ht
    | dsimp only at ht
  all_goals
    repeat' first
      | exact Sub.of hW rfl
      | with_reducible first
          | exact hE | apply takeManifest_evolves | apply onJob_evolves | apply ackEntry_evolves | apply passEnd_evolves
          | refine Evolves.ite (fun _ => ?_) (fun _ => ?_) | refine Evolves.foldl ?_ ?_ | refine Evolves.foldl_fst ?_ ?_
          | refine Evolves.foldl_snd ?_ ?_ | assumption
      | intro _ | dsimp only | split
      | with_reducible first
          | refine Evolves.fst_of (by assumption) ?_ | refine Evolves.snd_of (by assumption) ?_

theorem execManifestVoid_evolves {job : Fin 16} {window : Nat} {statuses : List Nat} {ps : List Part} {s₀ s : State} (hE : Evolves ps s₀ s)
    (hW : Sub [.contexts, .chains, .jobs, .leash, .replicas, .out] ps) :
    ∀ t, execManifestVoid job window statuses s = .next t → Evolves ps s₀ t := by
  intro t ht
  unfold execManifestVoid at ht
  repeat' first
    | (with_reducible obtain rfl := Host.Outcome.next.inj ht)
    | split at ht
    | dsimp only at ht
  all_goals
    repeat' first
      | exact Sub.of hW rfl
      | with_reducible first
          | exact hE | apply takeManifest_evolves | apply onTrigger_evolves | apply onJob_evolves
          | apply sendStatuses_evolves | refine Evolves.ite (fun _ => ?_) (fun _ => ?_)
      | dsimp only | split
      | with_reducible first
          | refine Evolves.fst_of (by assumption) ?_ | refine Evolves.snd_of (by assumption) ?_

theorem execManifestFinal_evolves {job : Fin 16} {ps : List Part} {s₀ s : State} (hE : Evolves ps s₀ s)
    (hW : Sub [.events, .counters, .sampling, .controllers, .namespaces, .contexts, .jobs, .functions, .hostQueues,
      .leash, .replicas, .out] ps) :
    ∀ t, execManifestFinal job s = .next t → Evolves ps s₀ t := by
  intro t ht
  unfold execManifestFinal at ht
  repeat' first
    | (with_reducible obtain rfl := Host.Outcome.next.inj ht)
    | split at ht
    | dsimp only at ht
  all_goals
    repeat' first
      | exact Sub.of hW rfl
      | with_reducible first
          | exact hE | apply takeManifest_evolves | apply migState_evolves | apply migAna_evolves
          | refine Evolves.ite (fun _ => ?_) (fun _ => ?_)
      | dsimp only | split

theorem registerRegion_evolves {tenant : Nat} {r : Landing} {ps : List Part} {s₀ s : State} (hE : Evolves ps s₀ s)
    (hW : Sub [.regions] ps) :
    Evolves ps s₀ (registerRegion tenant s r) := by
  unfold registerRegion
  repeat' first
    | exact Sub.of hW rfl
    | with_reducible first
        | exact hE | apply onRegion_evolves | refine Evolves.ite (fun _ => ?_) (fun _ => ?_)
    | dsimp only | split

theorem execMigRegionsRegistered_evolves {job : Fin 16} {regions : List Landing} {ps : List Part} {s₀ s : State} (hE : Evolves ps s₀ s)
    (hW : Sub [.events, .counters, .sampling, .controllers, .namespaces, .contexts, .regions, .jobs, .functions,
      .hostQueues, .leash, .replicas, .out] ps) :
    ∀ t, execMigRegionsRegistered job regions s = .next t → Evolves ps s₀ t := by
  intro t ht
  unfold execMigRegionsRegistered at ht
  repeat' first
    | (with_reducible obtain rfl := Host.Outcome.next.inj ht)
    | split at ht
    | dsimp only at ht
  all_goals
    repeat' first
      | exact Sub.of hW rfl
      | with_reducible first
          | exact hE | apply migState_evolves | apply onJob_evolves | apply migAna_evolves
          | apply registerRegion_evolves | apply passEnd_evolves | apply startPass_evolves
          | refine Evolves.ite (fun _ => ?_) (fun _ => ?_) | refine Evolves.foldl ?_ ?_ | refine Evolves.foldl_fst ?_ ?_
          | refine Evolves.foldl_snd ?_ ?_ | assumption
      | intro _ | dsimp only | split

theorem execCutoverTimeout_evolves {job : Fin 16} {ps : List Part} {s₀ s : State} (hE : Evolves ps s₀ s)
    (hW : Sub [.events, .counters, .sampling, .controllers, .namespaces, .contexts, .jobs, .functions, .hostQueues,
      .leash, .replicas, .out] ps) :
    ∀ t, execCutoverTimeout job s = .next t → Evolves ps s₀ t := by
  intro t ht
  unfold execCutoverTimeout at ht
  repeat' first
    | (with_reducible obtain rfl := Host.Outcome.next.inj ht)
    | split at ht
    | dsimp only at ht
  all_goals
    repeat' first
      | exact Sub.of hW rfl
      | with_reducible first
          | exact hE | apply emit_evolves | apply migAna_evolves | apply migState_evolves
          | refine Evolves.ite (fun _ => ?_) (fun _ => ?_)
      | dsimp only | split

theorem execMigConnectionErrorTimeout_evolves {job : Fin 16} {ps : List Part} {s₀ s : State} (hE : Evolves ps s₀ s)
    (hW : Sub [.events, .counters, .sampling, .controllers, .namespaces, .contexts, .chains, .jobs, .functions,
      .hostQueues, .leash, .replicas, .out] ps) :
    ∀ t, execMigConnectionErrorTimeout job s = .next t → Evolves ps s₀ t := by
  intro t ht
  unfold execMigConnectionErrorTimeout at ht
  repeat' first
    | (with_reducible obtain rfl := Host.Outcome.next.inj ht)
    | split at ht
    | dsimp only at ht
  all_goals
    repeat' first
      | exact Sub.of hW rfl
      | with_reducible first
          | exact hE | apply stopJob_evolves | refine Evolves.ite (fun _ => ?_) (fun _ => ?_)
      | dsimp only | split

end Sys2Proof.Machine
end

