-- ==== Sys2Proof/Laws/FramePorts.lean ====
section
/-! SUPPORT. What the operations of Machine/Ports.lean change at most: one lemma each. -/

namespace Sys2Proof.Machine

set_option linter.unusedTactic false
set_option linter.unreachableTactic false
set_option linter.unusedVariables false

theorem markFrame_evolves {q : Nat} {d : Desc} {ps : List Part} {s₀ s : State} (hE : Evolves ps s₀ s)
    (hW : Sub [.free] ps) :
    Evolves ps s₀ (markFrame q d s).2 := by
  unfold markFrame
  repeat' first
    | exact Sub.of hW rfl
    | with_reducible first
        | exact hE | apply state_drawn_evolves | refine Evolves.ite (fun _ => ?_) (fun _ => ?_)
    | dsimp only | split
    | with_reducible first
        | refine Evolves.fst_of (by assumption) ?_ | refine Evolves.snd_of (by assumption) ?_

theorem marked_evolves {q : Nat} {d : Desc} {ps : List Part} {s₀ s : State} (hE : Evolves ps s₀ s)
    (hW : Sub [.counters, .sampling, .free] ps) :
    Evolves ps s₀ (marked q d s).2 := by
  unfold marked
  repeat' first
    | exact Sub.of hW rfl
    | with_reducible first
        | exact hE | apply markFrame_evolves | apply countOnly_evolves
        | refine Evolves.ite (fun _ => ?_) (fun _ => ?_)
    | dsimp only | split
    | with_reducible first
        | refine Evolves.fst_of (by assumption) ?_ | refine Evolves.snd_of (by assumption) ?_

theorem enqueueFrame_evolves {q : Nat} {d : Desc} {ps : List Part} {s₀ s : State} (hE : Evolves ps s₀ s)
    (hW : Sub [.events, .counters, .sampling, .buffer, .traffic, .regs, .regSwc, .regTmg, .out, .free] ps) :
    Evolves ps s₀ (enqueueFrame q d s) := by
  unfold enqueueFrame
  repeat' first
    | exact Sub.of hW rfl | exact .inl (Sub.of hW rfl) | with_reducible exact .inr rfl
    | exact .inr (FencesStay.refl _) | exact .inr (by dsimp only) | exact .inr rfl
    | with_reducible exact (fun h => h : _ = true → _) | (dsimp only; exact (fun h => h : _ = true → _))
    | exact (fun h => h : _ = true → _)
    | with_reducible first
        | exact hE | apply marked_evolves | apply kick_evolves | apply state_onNet_evolves
    | dsimp only | split
    | with_reducible first
        | refine Evolves.fst_of (by assumption) ?_ | refine Evolves.snd_of (by assumption) ?_

theorem forward_evolves {action : Nat} {yellow : Bool} {d : Desc} {ps : List Part} {s₀ s : State} (hE : Evolves ps s₀ s)
    (hW : Sub [.events, .counters, .sampling, .buffer, .traffic, .regs, .regSwc, .regTmg, .out, .free] ps) :
    Evolves ps s₀ (forward action yellow d s) := by
  unfold forward
  repeat' first
    | exact Sub.of hW rfl
    | with_reducible first
        | exact hE | apply releaseDesc_evolves | apply countOnly_evolves | apply enqueueFrame_evolves
        | apply giveCell_evolves | refine Evolves.ite (fun _ => ?_) (fun _ => ?_) | refine Evolves.foldl ?_ ?_
        | refine Evolves.foldl_fst ?_ ?_ | refine Evolves.foldl_snd ?_ ?_ | assumption
    | intro _ | dsimp only | split

theorem copyDrop_regs {s : State} {action member : Nat} {yellow : Bool} {d : Desc} {f : Fld}
    (h : copyDrop s action member yellow d = some f) : regPart f.base = .regSwc := by
  unfold copyDrop at h
  repeat' first
    | contradiction
    | (obtain rfl := Option.some.inj h; rfl)
    | dsimp only at h
    | split at h

theorem copyTo_evolves {action : Nat} {yellow : Bool} {d : Desc} {member : Nat} {ps : List Part} {s₀ s : State} (hE : Evolves ps s₀ s)
    (hW : Sub [.events, .counters, .sampling, .buffer, .traffic, .regs, .regSwc, .regTmg, .out, .free] ps) :
    Evolves ps s₀ (copyTo action yellow d s member) := by
  unfold copyTo
  repeat' first
    | exact Sub.of hW rfl | (rw [copyDrop_regs (by assumption)]; exact Sub.of hW rfl)
    | with_reducible first
        | exact hE | apply releaseDesc_evolves | apply countOnly_evolves | apply state_bumpI_evolves
        | apply enqueueFrame_evolves | refine Evolves.ite (fun _ => ?_) (fun _ => ?_)
    | dsimp only | split
    | with_reducible first
        | refine Evolves.fst_of (by assumption) ?_ | refine Evolves.snd_of (by assumption) ?_

theorem multicast_evolves {action : Nat} {yellow : Bool} {d : Desc} {ps : List Part} {s₀ s : State} (hE : Evolves ps s₀ s)
    (hW : Sub [.events, .counters, .sampling, .buffer, .traffic, .regs, .regSwc, .regTmg, .out, .free] ps) :
    Evolves ps s₀ (multicast action yellow d s) := by
  unfold multicast
  repeat' first
    | exact Sub.of hW rfl
    | with_reducible first
        | exact hE | apply releaseDesc_evolves | apply countOnly_evolves | apply copyTo_evolves
        | apply giveCell_evolves | refine Evolves.ite (fun _ => ?_) (fun _ => ?_) | refine Evolves.foldl ?_ ?_
        | refine Evolves.foldl_fst ?_ ?_ | refine Evolves.foldl_snd ?_ ?_ | assumption
    | intro _ | dsimp only | split

theorem actOn_evolves {index : Nat} {action : Nat} {dei : Bool} {d : Desc} {ps : List Part} {s₀ s : State} (hE : Evolves ps s₀ s)
    (hW : Sub [.events, .counters, .sampling, .punts, .buffer, .tables, .traffic, .regs, .regCls, .regSwc, .regTmg,
      .out, .free] ps) :
    Evolves ps s₀ (actOn index action dei d s) := by
  unfold actOn
  repeat' first
    | exact Sub.of hW rfl
    | with_reducible first
        | exact hE | apply police_evolves | apply releaseDesc_evolves | apply countOnly_evolves
        | apply forward_evolves | apply multicast_evolves | apply state_send_evolves | apply giveCell_evolves
        | apply punt_evolves | refine Evolves.ite (fun _ => ?_) (fun _ => ?_) | refine Evolves.foldl ?_ ?_
        | refine Evolves.foldl_fst ?_ ?_ | refine Evolves.foldl_snd ?_ ?_ | assumption
    | intro _ | dsimp only | split
    | with_reducible first
        | refine Evolves.fst_of (by assumption) ?_ | refine Evolves.snd_of (by assumption) ?_

theorem applyPfc_evolves {lport : Nat} {timers : List (Nat × Nat)} {ps : List Part} {s₀ s : State} (hE : Evolves ps s₀ s)
    (hW : Sub [.events, .counters, .sampling, .buffer, .traffic, .regs, .regPrt, .regSwc, .regTmg, .out] ps) :
    Evolves ps s₀ (applyPfc lport timers s) := by
  unfold applyPfc
  repeat' first
    | exact Sub.of hW rfl
    | with_reducible first
        | exact hE | apply kick_evolves | apply state_setFldI_evolves | refine Evolves.ite (fun _ => ?_) (fun _ => ?_)
        | refine Evolves.foldl ?_ ?_ | refine Evolves.foldl_fst ?_ ?_ | refine Evolves.foldl_snd ?_ ?_ | assumption
    | intro _ | dsimp only | split

theorem changeRule_evolves {path : Nat} {session : Nat} {op : Nat} {value : Word} {e : TcamEntry → TcamEntry} {ps : List Part} {s₀ s : State} (hE : Evolves ps s₀ s)
    (hW : Sub [.events, .sessions, .counters, .sampling, .classifier, .regs, .regCtl, .regCls, .out] ps) :
    Evolves ps s₀ (changeRule path session op value e s) := by
  unfold changeRule
  repeat' first
    | exact Sub.of hW rfl | exact fun h => Tab.wf_upd h _ _ | exact .inl (Sub.of hW rfl)
    | with_reducible exact .inr rfl | exact .inr (FencesStay.refl _) | exact .inr (by dsimp only) | exact .inr rfl
    | with_reducible exact (fun h => h : _ = true → _) | (dsimp only; exact (fun h => h : _ = true → _))
    | exact (fun h => h : _ = true → _)
    | with_reducible first
        | exact hE | apply refuse_evolves | apply state_setFld_evolves | apply emit_evolves
        | apply state_onNet_evolves | refine Evolves.ite (fun _ => ?_) (fun _ => ?_)
    | dsimp only | split

theorem storeFrame_evolves {lport : Nat} {prio : Nat} {class0 : Bool} {f : Bytes} {go : Desc → State → State} {ps : List Part} {s₀ s : State} (hE : Evolves ps s₀ s)
    (hgo : ∀ a0 (t : State), Evolves ps s₀ t → Evolves ps s₀ (go a0 t))
    (hW : Sub [.events, .counters, .sampling, .buffer, .regs, .regSwc, .out] ps) :
    Evolves ps s₀ (storeFrame lport prio class0 f go s) := by
  unfold storeFrame
  repeat' first
    | exact Sub.of hW rfl | exact .inl (Sub.of hW rfl) | with_reducible exact .inr rfl
    | exact .inr (FencesStay.refl _) | exact .inr (by dsimp only) | exact .inr rfl
    | with_reducible exact (fun h => h : _ = true → _) | (dsimp only; exact (fun h => h : _ = true → _))
    | exact (fun h => h : _ = true → _)
    | with_reducible first
        | exact hE | apply countOnly_evolves | apply squeeze_evolves | apply state_bumpI_evolves
        | refine allocChain_evolves ?_ (Sub.of hW rfl) _ _ (by assumption) | apply emit_evolves
        | apply state_onNet_evolves | apply setRxCells_evolves | apply hgo
        | refine Evolves.ite (fun _ => ?_) (fun _ => ?_) | assumption
    | intro _ | dsimp only | split
    | with_reducible first
        | refine Evolves.fst_of (by assumption) ?_ | refine Evolves.snd_of (by assumption) ?_

theorem rxFail_evolves {lport : Nat} {event : Nat} {field : Fld} {ps : List Part} {s₀ s : State} (hE : Evolves ps s₀ s)
    (hW : Sub [.counters, .sampling, .regs, regPart field.base] ps) :
    Evolves ps s₀ (rxFail lport event field s) := by
  unfold rxFail
  repeat' first
    | exact Sub.of hW rfl | exact hW
    | exact fun p hp => hW p (by simp only [List.mem_cons, List.not_mem_nil, or_false] at hp ⊢; tauto)
    | with_reducible first
        | exact hE | apply countOnly_evolves | apply state_bumpI_evolves
    | dsimp only

theorem classifyFrame_evolves {lport : Nat} {f : Bytes} {ps : List Part} {s₀ s : State} (hE : Evolves ps s₀ s)
    (hW : Sub [.events, .counters, .sampling, .punts, .buffer, .tables, .traffic, .regs, .regPrt, .regCls, .regSwc,
      .regTmg, .out, .free] ps) :
    Evolves ps s₀ (classifyFrame lport f s) := by
  unfold classifyFrame
  repeat' first
    | exact Sub.of hW rfl
    | with_reducible first
        | exact hE | apply storeFrame_evolves | apply punt_evolves | apply rxFail_evolves | apply actOn_evolves
        | refine Evolves.ite (fun _ => ?_) (fun _ => ?_) | assumption
    | intro _ | dsimp only | split
    | with_reducible first
        | refine Evolves.fst_of (by assumption) ?_ | refine Evolves.snd_of (by assumption) ?_

theorem endLine_evolves {lport : Nat} {d : Desc} {ps : List Part} {s₀ s : State} (hE : Evolves ps s₀ s)
    (hW : Sub [.buffer, .traffic, .regs, .regSwc, .out] ps) :
    Evolves ps s₀ (endLine lport d s) := by
  unfold endLine
  repeat' first
    | exact Sub.of hW rfl | exact .inl (Sub.of hW rfl) | with_reducible exact .inr rfl
    | exact .inr (FencesStay.refl _) | exact .inr (by dsimp only) | exact .inr rfl
    | with_reducible exact (fun h => h : _ = true → _) | (dsimp only; exact (fun h => h : _ = true → _))
    | exact (fun h => h : _ = true → _)
    | with_reducible first
        | exact hE | apply state_send_evolves | apply releaseDesc_evolves | apply state_onNet_evolves
    | dsimp only | split

theorem putStampWords_evolves {w0 : Nat} {w1 : Nat} {w2 : Nat} {w3 : Nat} {empty : Nat} {ps : List Part} {s₀ s : State} (hE : Evolves ps s₀ s)
    (hW : Sub [.regs, .regPrt] ps) :
    Evolves ps s₀ (putStampWords w0 w1 w2 w3 empty s) := by
  unfold putStampWords
  repeat' first
    | exact Sub.of hW rfl
    | (intro x hx; simp only [List.mem_cons, List.not_mem_nil, or_false] at hx; rcases hx with rfl | rfl | rfl | rfl <;> first | (dsimp only; decide) | exact regPart_congr (b := 0) (by omega))
    | with_reducible first
        | exact hE | apply state_setFld_evolves | refine Evolves.foldl ?_ ?_ | refine Evolves.foldl_fst ?_ ?_
        | refine Evolves.foldl_snd ?_ ?_ | assumption
    | intro _ | dsimp only
    | with_reducible first
        | apply Evolves.regsFold _ _ _ .regPrt

theorem execPrtTsCtrl_evolves {path : Fin 5} {session : Nat} {value : Word} {ps : List Part} {s₀ s : State} (hE : Evolves ps s₀ s)
    (hW : Sub [.events, .sessions, .marks, .counters, .sampling, .stamps, .regs, .regCtl, .regPrt, .out] ps) :
    ∀ t, execPrtTsCtrl path session value s = .next t → Evolves ps s₀ t := by
  intro t ht
  unfold execPrtTsCtrl at ht
  repeat' first
    | (with_reducible obtain rfl := Host.Outcome.next.inj ht)
    | split at ht
    | dsimp only at ht
  all_goals
    repeat' first
      | exact Sub.of hW rfl | exact .inl (Sub.of hW rfl) | with_reducible exact .inr rfl
      | exact .inr (FencesStay.refl _) | exact .inr (by dsimp only) | exact .inr rfl
      | with_reducible exact (fun h => h : _ = true → _) | (dsimp only; exact (fun h => h : _ = true → _))
      | exact (fun h => h : _ = true → _)
      | with_reducible first
          | exact hE | apply writeGate_evolves | apply state_setFld_evolves | apply putStampWords_evolves
          | apply state_onNet_evolves | refine Evolves.ite (fun _ => ?_) (fun _ => ?_)
      | dsimp only | split
      | with_reducible first
          | refine Evolves.fst_of (by assumption) ?_ | refine Evolves.snd_of (by assumption) ?_

theorem putRuleWords_evolves {v : Nat} {i : Nat} {x2 : Nat} {ps : List Part} {s₀ x3 : State} (hE : Evolves ps s₀ x3)
    (hW : Sub [.regs, .regCls] ps) :
    Evolves ps s₀ (putRuleWords v i x2 x3) := by
  induction x2 generalizing v i x3 with
  | zero => exact hE
  | succ n ih =>
    unfold putRuleWords
    repeat' first
      | with_reducible exact hE
      | exact Sub.of hW rfl
      | exact .inl (Sub.of hW rfl)
      | with_reducible exact .inr rfl
      | exact .inr (by dsimp only)
      | exact .inr rfl
      | (dsimp only; exact (fun h => h : _ = true → _))
      | exact (fun h => h : _ = true → _)
      | with_reducible exact hW
      | exact List.prefix_append _ _
      | with_reducible apply ih
      | with_reducible apply state_setFldI_evolves
      | with_reducible refine Evolves.ite (fun _ => ?_) (fun _ => ?_)
      | with_reducible refine Evolves.foldl ?_ ?_
      | intro _
      | dsimp only
      | split
      | with_reducible assumption

theorem execClsRuleRead_evolves {path : Fin 5} {session : Nat} {value : Word} {ps : List Part} {s₀ s : State} (hE : Evolves ps s₀ s)
    (hW : Sub [.events, .sessions, .marks, .counters, .sampling, .regs, .regCtl, .regCls, .out] ps) :
    ∀ t, execClsRuleRead path session value s = .next t → Evolves ps s₀ t := by
  intro t ht
  unfold execClsRuleRead at ht
  repeat' first
    | (with_reducible obtain rfl := Host.Outcome.next.inj ht)
    | split at ht
    | dsimp only at ht
  all_goals
    repeat' first
      | exact Sub.of hW rfl
      | with_reducible first
          | exact hE | apply writeGate_evolves | apply putRuleWords_evolves | apply state_setFld_evolves
          | refine Evolves.ite (fun _ => ?_) (fun _ => ?_)
      | dsimp only | split
      | with_reducible first
          | refine Evolves.fst_of (by assumption) ?_ | refine Evolves.snd_of (by assumption) ?_

theorem execClsRuleWrite_evolves {path : Fin 5} {session : Nat} {value : Word} {ps : List Part} {s₀ s : State} (hE : Evolves ps s₀ s)
    (hW : Sub [.events, .sessions, .marks, .counters, .sampling, .classifier, .regs, .regCtl, .regCls, .out] ps) :
    ∀ t, execClsRuleWrite path session value s = .next t → Evolves ps s₀ t := by
  intro t ht
  unfold execClsRuleWrite at ht
  repeat' first
    | (with_reducible obtain rfl := Host.Outcome.next.inj ht)
    | split at ht
    | dsimp only at ht
  all_goals
    repeat' first
      | exact Sub.of hW rfl
      | with_reducible first
          | exact hE | apply writeGate_evolves | apply changeRule_evolves
          | refine Evolves.ite (fun _ => ?_) (fun _ => ?_)
      | dsimp only | split
      | with_reducible first
          | refine Evolves.fst_of (by assumption) ?_ | refine Evolves.snd_of (by assumption) ?_

theorem execClsRuleInvalidate_evolves {path : Fin 5} {session : Nat} {value : Word} {ps : List Part} {s₀ s : State} (hE : Evolves ps s₀ s)
    (hW : Sub [.events, .sessions, .marks, .counters, .sampling, .classifier, .regs, .regCtl, .regCls, .out] ps) :
    ∀ t, execClsRuleInvalidate path session value s = .next t → Evolves ps s₀ t := by
  intro t ht
  unfold execClsRuleInvalidate at ht
  repeat' first
    | (with_reducible obtain rfl := Host.Outcome.next.inj ht)
    | split at ht
    | dsimp only at ht
  all_goals
    repeat' first
      | exact Sub.of hW rfl
      | with_reducible first
          | exact hE | apply writeGate_evolves | apply changeRule_evolves
          | refine Evolves.ite (fun _ => ?_) (fun _ => ?_)
      | dsimp only | split
      | with_reducible first
          | refine Evolves.fst_of (by assumption) ?_ | refine Evolves.snd_of (by assumption) ?_

theorem stompTransit_evolves {lport : Nat} {f : Bytes} {ps : List Part} {s₀ s : State} (hE : Evolves ps s₀ s)
    (hW : Sub [.counters, .sampling, .tables, .traffic, .regs, .regSwc, .out, .free] ps) :
    Evolves ps s₀ (stompTransit lport f s) := by
  unfold stompTransit
  repeat' first
    | exact Sub.of hW rfl | exact .inl (Sub.of hW rfl) | with_reducible exact .inr rfl
    | exact .inr (FencesStay.refl _) | exact .inr (by dsimp only) | exact .inr rfl
    | with_reducible exact (fun h => h : _ = true → _) | (dsimp only; exact (fun h => h : _ = true → _))
    | exact (fun h => h : _ = true → _)
    | with_reducible first
        | exact hE | apply police_evolves | apply countOnly_evolves | apply marked_evolves | apply chargeItems_evolves
        | apply stompLine_evolves | apply state_send_evolves | apply state_onNet_evolves
        | refine Evolves.ite (fun _ => ?_) (fun _ => ?_)
    | dsimp only | split
    | with_reducible first
        | refine Evolves.fst_of (by assumption) ?_ | refine Evolves.snd_of (by assumption) ?_

theorem hearPtp_evolves {lport : Nat} {f : Bytes} {ps : List Part} {s₀ s : State} (hE : Evolves ps s₀ s)
    (hW : Sub [.time] ps) :
    Evolves ps s₀ (hearPtp lport f s) := by
  unfold hearPtp
  repeat' first
    | exact Sub.of hW rfl
    | with_reducible first
        | exact hE | apply sourcePresent_evolves | refine Evolves.ite (fun _ => ?_) (fun _ => ?_)
    | dsimp only | split
    | with_reducible first
        | refine Evolves.fst_of (by assumption) ?_ | refine Evolves.snd_of (by assumption) ?_

theorem execFrameReceived_evolves {lport : Fin 64} {frame : Bytes} {fcsOk : Bool} {ps : List Part} {s₀ s : State} (hE : Evolves ps s₀ s)
    (hW : Sub [.events, .time, .counters, .sampling, .powerState, .punts, .stamps, .buffer, .tables, .traffic, .regs,
      .regPrt, .regCls, .regSwc, .regTmg, .out, .free] ps) :
    ∀ t, execFrameReceived lport frame fcsOk s = .next t → Evolves ps s₀ t := by
  intro t ht
  unfold execFrameReceived at ht
  repeat' first
    | (with_reducible obtain rfl := Host.Outcome.next.inj ht)
    | split at ht
    | dsimp only at ht
  all_goals
    repeat' first
      | exact Sub.of hW rfl | exact .inl (Sub.of hW rfl) | with_reducible exact .inr rfl
      | exact .inr (FencesStay.refl _) | exact .inr (by dsimp only) | exact .inr rfl
      | with_reducible exact (fun h => h : _ = true → _) | (dsimp only; exact (fun h => h : _ = true → _))
      | exact (fun h => h : _ = true → _)
      | with_reducible first
          | exact hE | apply wakeFrame_evolves | apply state_onNet_evolves | apply rxFail_evolves
          | apply stompTransit_evolves | apply countOnly_evolves | apply applyPfc_evolves | apply classifyFrame_evolves
          | apply hearPtp_evolves | refine Evolves.ite (fun _ => ?_) (fun _ => ?_)
      | dsimp only | split

theorem execLinkUp_evolves {lport : Fin 64} {ps : List Part} {s₀ s : State} (hE : Evolves ps s₀ s)
    (hW : Sub [.events, .counters, .sampling, .buffer, .traffic, .regs, .regPrt, .regSwc, .regTmg, .out] ps) :
    ∀ t, execLinkUp lport s = .next t → Evolves ps s₀ t := by
  intro t ht
  unfold execLinkUp at ht
  repeat' first
    | (with_reducible obtain rfl := Host.Outcome.next.inj ht)
    | split at ht
    | dsimp only at ht
  all_goals
    repeat' first
      | exact Sub.of hW rfl
      | with_reducible first
          | exact hE | apply state_setFldI_evolves | apply kick_evolves | apply emit_evolves
          | refine Evolves.ite (fun _ => ?_) (fun _ => ?_)
      | dsimp only | split

theorem execLinkDown_evolves {lport : Fin 64} {cause : Fin 2} {partialFrame : Bool} {ps : List Part} {s₀ s : State} (hE : Evolves ps s₀ s)
    (hW : Sub [.events, .counters, .sampling, .regs, .regPrt] ps) :
    ∀ t, execLinkDown lport cause partialFrame s = .next t → Evolves ps s₀ t := by
  intro t ht
  unfold execLinkDown at ht
  repeat' first
    | (with_reducible obtain rfl := Host.Outcome.next.inj ht)
    | split at ht
    | dsimp only at ht
  all_goals
    repeat' first
      | exact Sub.of hW rfl
      | with_reducible first
          | exact hE | apply loseLink_evolves | apply rxFail_evolves | refine Evolves.ite (fun _ => ?_) (fun _ => ?_)
      | dsimp only | split

theorem execFecDegraded_evolves {lport : Fin 64} {codewords : Nat} {ps : List Part} {s₀ s : State} (hE : Evolves ps s₀ s)
    (hW : Sub [.events, .counters, .sampling, .regs, .regPrt] ps) :
    ∀ t, execFecDegraded lport codewords s = .next t → Evolves ps s₀ t := by
  intro t ht
  unfold execFecDegraded at ht
  repeat' first
    | (with_reducible obtain rfl := Host.Outcome.next.inj ht)
    | split at ht
    | dsimp only at ht
  all_goals
    repeat' first
      | exact Sub.of hW rfl
      | with_reducible first
          | exact hE | apply emit_evolves | apply state_setFldI_evolves | refine Evolves.ite (fun _ => ?_) (fun _ => ?_)
      | dsimp only | split

theorem execFecDegradedCleared_evolves {lport : Fin 64} {ps : List Part} {s₀ s : State} (hE : Evolves ps s₀ s)
    (hW : Sub [.regs, .regPrt] ps) :
    ∀ t, execFecDegradedCleared lport s = .next t → Evolves ps s₀ t := by
  intro t ht
  unfold execFecDegradedCleared at ht
  repeat' first
    | (with_reducible obtain rfl := Host.Outcome.next.inj ht)
    | split at ht
    | dsimp only at ht
  all_goals
    repeat' first
      | exact Sub.of hW rfl
      | with_reducible first
          | exact hE | apply state_setFldI_evolves
      | dsimp only

theorem execPfcFrameReceived_evolves {lport : Fin 64} {timers : List (Fin 8 × Nat)} {ps : List Part} {s₀ s : State} (hE : Evolves ps s₀ s)
    (hW : Sub [.events, .counters, .sampling, .buffer, .traffic, .regs, .regPrt, .regSwc, .regTmg, .out] ps) :
    ∀ t, execPfcFrameReceived lport timers s = .next t → Evolves ps s₀ t := by
  intro t ht
  unfold execPfcFrameReceived at ht
  repeat' first
    | (with_reducible obtain rfl := Host.Outcome.next.inj ht)
    | split at ht
    | dsimp only at ht
  all_goals
    repeat' first
      | exact Sub.of hW rfl
      | with_reducible first
          | exact hE | apply applyPfc_evolves
      | dsimp only

theorem execPfcPauseExpiry_evolves {lport : Fin 64} {prio : Fin 8} {ps : List Part} {s₀ s : State} (hE : Evolves ps s₀ s)
    (hW : Sub [.events, .counters, .sampling, .buffer, .traffic, .regs, .regPrt, .regSwc, .regTmg, .out] ps) :
    ∀ t, execPfcPauseExpiry lport prio s = .next t → Evolves ps s₀ t := by
  intro t ht
  unfold execPfcPauseExpiry at ht
  repeat' first
    | (with_reducible obtain rfl := Host.Outcome.next.inj ht)
    | split at ht
    | dsimp only at ht
  all_goals
    repeat' first
      | exact Sub.of hW rfl
      | with_reducible first
          | exact hE | apply kick_evolves | apply state_setFldI_evolves
      | dsimp only

theorem execPfcRefresh_evolves {lport : Fin 64} {prio : Fin 8} {ps : List Part} {s₀ s : State} (hE : Evolves ps s₀ s)
    (hW : Sub [.out] ps) :
    ∀ t, execPfcRefresh lport prio s = .next t → Evolves ps s₀ t := by
  intro t ht
  unfold execPfcRefresh at ht
  repeat' first
    | (with_reducible obtain rfl := Host.Outcome.next.inj ht)
    | split at ht
    | dsimp only at ht
  all_goals
    repeat' first
      | exact Sub.of hW rfl
      | with_reducible first
          | exact hE | apply state_send_evolves | refine Evolves.ite (fun _ => ?_) (fun _ => ?_)
      | dsimp only | split

theorem pushStamp_evolves {lport : Nat} {t : TxStamp} {ps : List Part} {s₀ s : State} (hE : Evolves ps s₀ s)
    (hW : Sub [.events, .counters, .sampling, .stamps] ps) :
    Evolves ps s₀ (pushStamp lport t s) := by
  unfold pushStamp
  repeat' first
    | exact Sub.of hW rfl | exact .inl (Sub.of hW rfl) | with_reducible exact .inr rfl
    | exact .inr (FencesStay.refl _) | exact .inr (by dsimp only) | exact .inr rfl
    | with_reducible exact (fun h => h : _ = true → _) | (dsimp only; exact (fun h => h : _ = true → _))
    | exact (fun h => h : _ = true → _)
    | with_reducible first
        | exact hE | apply emit_evolves | apply state_onNet_evolves | refine Evolves.ite (fun _ => ?_) (fun _ => ?_)
    | dsimp only | split

theorem sendPtp_evolves {lport : Nat} {f : Bytes} {ps : List Part} {s₀ s : State} (hE : Evolves ps s₀ s)
    (hW : Sub [.events, .counters, .sampling, .stamps, .out] ps) :
    Evolves ps s₀ (sendPtp lport f s) := by
  unfold sendPtp
  repeat' first
    | exact Sub.of hW rfl
    | with_reducible first
        | exact hE | apply state_send_evolves | apply pushStamp_evolves
        | refine Evolves.ite (fun _ => ?_) (fun _ => ?_)
    | dsimp only | split
    | with_reducible first
        | refine Evolves.fst_of (by assumption) ?_ | refine Evolves.snd_of (by assumption) ?_

theorem execFrameTransmitted_evolves {lport : Fin 64} {ptp : Option Bytes} {ps : List Part} {s₀ s : State} (hE : Evolves ps s₀ s)
    (hW : Sub [.events, .counters, .sampling, .stamps, .buffer, .traffic, .regs, .regSwc, .regTmg, .out] ps) :
    ∀ t, execFrameTransmitted lport ptp s = .next t → Evolves ps s₀ t := by
  intro t ht
  unfold execFrameTransmitted at ht
  repeat' first
    | (with_reducible obtain rfl := Host.Outcome.next.inj ht)
    | split at ht
    | dsimp only at ht
  all_goals
    repeat' first
      | exact Sub.of hW rfl
      | with_reducible first
          | exact hE | apply endLine_evolves | apply sendPtp_evolves | apply kick_evolves
      | dsimp only | split
      | with_reducible first
          | refine Evolves.fst_of (by assumption) ?_ | refine Evolves.snd_of (by assumption) ?_

theorem execWakeMatch_evolves {lport : Fin 64} {frame : Bytes} {ps : List Part} {s₀ s : State} (hE : Evolves ps s₀ s)
    (hW : Sub [.events, .counters, .sampling, .powerState, .stamps, .regs, .regPrt] ps) :
    ∀ t, execWakeMatch lport frame s = .next t → Evolves ps s₀ t := by
  intro t ht
  unfold execWakeMatch at ht
  repeat' first
    | (with_reducible obtain rfl := Host.Outcome.next.inj ht)
    | split at ht
    | dsimp only at ht
  all_goals
    repeat' first
      | exact Sub.of hW rfl
      | with_reducible first
          | exact hE | apply wakeFrame_evolves | refine Evolves.ite (fun _ => ?_) (fun _ => ?_)
      | dsimp only | split

end Sys2Proof.Machine
end

