-- ==== Sys2Proof/Laws/FramePower.lean ====
section
/-! SUPPORT. What the operations of Machine/Power.lean change at most: one lemma each. -/

namespace Sys2Proof.Machine

set_option linter.unusedTactic false
set_option linter.unreachableTactic false
set_option linter.unusedVariables false

theorem askSensor_evolves {i : Nat} {ps : List Part} {s₀ s : State} (hE : Evolves ps s₀ s)
    (hW : Sub [.out] ps) :
    Evolves ps s₀ (askSensor s i) := by
  unfold askSensor
  repeat' first
    | exact Sub.of hW rfl
    | with_reducible first
        | exact hE | apply state_send_evolves | refine Evolves.ite (fun _ => ?_) (fun _ => ?_)
    | dsimp only | split

theorem dieThreshold_evolves {said : Bool} {limit : Nat} {event : Nat} {sev : Nat} {ps : List Part} {s₀ s : State} (hE : Evolves ps s₀ s)
    (hW : Sub [.events, .counters, .sampling] ps) :
    Evolves ps s₀ (dieThreshold said limit event sev s).1 := by
  unfold dieThreshold
  repeat' first
    | exact Sub.of hW rfl
    | with_reducible first
        | exact hE | apply emit_evolves | refine Evolves.ite (fun _ => ?_) (fun _ => ?_)
    | dsimp only | split

theorem dieThresholds_evolves  {ps : List Part} {s₀ s : State} (hE : Evolves ps s₀ s)
    (hW : Sub [.events, .counters, .sampling, .feeds] ps) :
    Evolves ps s₀ (dieThresholds s) := by
  unfold dieThresholds
  repeat' first
    | exact Sub.of hW rfl | exact .inl (Sub.of hW rfl) | with_reducible exact .inr rfl
    | exact .inr (FencesStay.refl _) | exact .inr (by dsimp only) | exact .inr rfl
    | with_reducible exact (fun h => h : _ = true → _) | (dsimp only; exact (fun h => h : _ = true → _))
    | exact (fun h => h : _ = true → _)
    | with_reducible first
        | exact hE | apply dieThreshold_evolves | apply state_onPwr_evolves
        | refine Evolves.ite (fun _ => ?_) (fun _ => ?_)
    | dsimp only | split
    | with_reducible first
        | refine Evolves.fst_of (by assumption) ?_ | refine Evolves.snd_of (by assumption) ?_

theorem legOrder_evolves {op : Nat} {path : Fin 5} {session : Nat} {value : Word} {run : Nat → State → State × Nat} {ps : List Part} {s₀ s : State} (hE : Evolves ps s₀ s)
    (hrun : ∀ a0 (t : State), Evolves ps s₀ t → Evolves ps s₀ ((run a0 t)).1)
    (hW : Sub [.events, .sessions, .marks, .counters, .sampling, .regs, .regCtl, .regPwr, .out] ps) :
    Evolves ps s₀ (legOrder op path session value run s) := by
  unfold legOrder
  repeat' first
    | exact Sub.of hW rfl
    | with_reducible first
        | exact hE | apply writeGate_evolves | apply state_setFld_evolves | apply hrun
        | refine Evolves.ite (fun _ => ?_) (fun _ => ?_) | assumption
    | intro _ | dsimp only | split
    | with_reducible first
        | refine Evolves.fst_of (by assumption) ?_ | refine Evolves.snd_of (by assumption) ?_

theorem execPwrLegOnOrder_evolves {path : Fin 5} {session : Nat} {value : Word} {ps : List Part} {s₀ s : State} (hE : Evolves ps s₀ s)
    (hW : Sub [.events, .sessions, .marks, .counters, .sampling, .legs, .regs, .regCtl, .regPwr, .out] ps) :
    ∀ t, execPwrLegOnOrder path session value s = .next t → Evolves ps s₀ t := by
  intro t ht
  unfold execPwrLegOnOrder at ht
  repeat' first
    | (with_reducible obtain rfl := Host.Outcome.next.inj ht)
    | split at ht
    | dsimp only at ht
  all_goals
    repeat' first
      | exact Sub.of hW rfl
      | with_reducible first
          | exact hE | apply legOrder_evolves | apply state_setFldI_evolves | apply setLeg_evolves
          | apply requestStart_evolves | refine Evolves.ite (fun _ => ?_) (fun _ => ?_) | assumption
      | intro _ | dsimp only | split

theorem execPwrLegOffOrder_evolves {path : Fin 5} {session : Nat} {value : Word} {ps : List Part} {s₀ s : State} (hE : Evolves ps s₀ s)
    (hW : Sub [.events, .sessions, .marks, .counters, .sampling, .legs, .regs, .regCtl, .regPwr, .out] ps) :
    ∀ t, execPwrLegOffOrder path session value s = .next t → Evolves ps s₀ t := by
  intro t ht
  unfold execPwrLegOffOrder at ht
  repeat' first
    | (with_reducible obtain rfl := Host.Outcome.next.inj ht)
    | split at ht
    | dsimp only at ht
  all_goals
    repeat' first
      | exact Sub.of hW rfl
      | with_reducible first
          | exact hE | apply legOrder_evolves | apply state_setFldI_evolves | apply legToOff_evolves | assumption
      | intro _ | dsimp only

theorem execFastTrip_evolves {leg : Fin 48} {ps : List Part} {s₀ s : State} (hE : Evolves ps s₀ s)
    (hW : Sub [.events, .counters, .sampling, .controllers, .namespaces, .commands, .powerState, .contexts, .hbm,
      .mapping, .journal, .layoutWork, .ciphers, .storeWrites, .drivePorts, .buffer, .functions, .hostQueues,
      .leash, .replicas, .legs, .regs, .regSwc, .regLay, .regPwr, .out] ps) :
    ∀ t, execFastTrip leg s = .next t → Evolves ps s₀ t := by
  intro t ht
  unfold execFastTrip at ht
  repeat' first
    | (with_reducible obtain rfl := Host.Outcome.next.inj ht)
    | split at ht
    | dsimp only at ht
  all_goals
    repeat' first
      | exact Sub.of hW rfl
      | with_reducible first
          | exact hE | apply latchLeg_evolves
      | dsimp only

theorem execFaultTimerExpiry_evolves {leg : Fin 48} {ps : List Part} {s₀ s : State} (hE : Evolves ps s₀ s)
    (hW : Sub [.events, .counters, .sampling, .controllers, .namespaces, .commands, .powerState, .contexts, .hbm,
      .mapping, .journal, .layoutWork, .ciphers, .storeWrites, .drivePorts, .buffer, .functions, .hostQueues,
      .leash, .replicas, .legs, .regs, .regSwc, .regLay, .regPwr, .out] ps) :
    ∀ t, execFaultTimerExpiry leg s = .next t → Evolves ps s₀ t := by
  intro t ht
  unfold execFaultTimerExpiry at ht
  repeat' first
    | (with_reducible obtain rfl := Host.Outcome.next.inj ht)
    | split at ht
    | dsimp only at ht
  all_goals
    repeat' first
      | exact Sub.of hW rfl
      | with_reducible first
          | exact hE | apply latchLeg_evolves
      | dsimp only

theorem execModelTemperatureLimit_evolves {leg : Fin 48} {ps : List Part} {s₀ s : State} (hE : Evolves ps s₀ s)
    (hW : Sub [.events, .counters, .sampling, .controllers, .namespaces, .commands, .powerState, .contexts, .hbm,
      .mapping, .journal, .layoutWork, .ciphers, .storeWrites, .drivePorts, .buffer, .functions, .hostQueues,
      .leash, .replicas, .legs, .regs, .regSwc, .regLay, .regPwr, .out] ps) :
    ∀ t, execModelTemperatureLimit leg s = .next t → Evolves ps s₀ t := by
  intro t ht
  unfold execModelTemperatureLimit at ht
  repeat' first
    | (with_reducible obtain rfl := Host.Outcome.next.inj ht)
    | split at ht
    | dsimp only at ht
  all_goals
    repeat' first
      | exact Sub.of hW rfl
      | with_reducible first
          | exact hE | apply latchLeg_evolves
      | dsimp only

theorem execRampTimeLimit_evolves {leg : Fin 48} {ps : List Part} {s₀ s : State} (hE : Evolves ps s₀ s)
    (hW : Sub [.events, .counters, .sampling, .controllers, .namespaces, .commands, .powerState, .contexts, .hbm,
      .mapping, .journal, .layoutWork, .ciphers, .storeWrites, .drivePorts, .buffer, .functions, .hostQueues,
      .leash, .replicas, .legs, .regs, .regSwc, .regLay, .regPwr, .out] ps) :
    ∀ t, execRampTimeLimit leg s = .next t → Evolves ps s₀ t := by
  intro t ht
  unfold execRampTimeLimit at ht
  repeat' first
    | (with_reducible obtain rfl := Host.Outcome.next.inj ht)
    | split at ht
    | dsimp only at ht
  all_goals
    repeat' first
      | exact Sub.of hW rfl
      | with_reducible first
          | exact hE | apply latchLeg_evolves | refine Evolves.ite (fun _ => ?_) (fun _ => ?_)
      | dsimp only | split

theorem execRampComplete_evolves {leg : Fin 48} {ps : List Part} {s₀ s : State} (hE : Evolves ps s₀ s)
    (hW : Sub [.regs, .regPwr] ps) :
    ∀ t, execRampComplete leg s = .next t → Evolves ps s₀ t := by
  intro t ht
  unfold execRampComplete at ht
  repeat' first
    | (with_reducible obtain rfl := Host.Outcome.next.inj ht)
    | split at ht
    | dsimp only at ht
  all_goals
    repeat' first
      | exact Sub.of hW rfl
      | with_reducible first
          | exact hE | apply setLeg_evolves | refine Evolves.ite (fun _ => ?_) (fun _ => ?_)
      | dsimp only | split

theorem execGateCheckFail_evolves {leg : Fin 48} {ps : List Part} {s₀ s : State} (hE : Evolves ps s₀ s)
    (hW : Sub [.events, .fences, .counters, .sampling, .controllers, .namespaces, .commands, .powerState, .contexts,
      .hbm, .mapping, .journal, .layoutWork, .ciphers, .storeWrites, .drivePorts, .driveSlots, .buffer,
      .functions, .hostQueues, .leash, .replicas, .legs, .regs, .regPrt, .regSwc, .regLay, .regPwr, .regRed,
      .out] ps) :
    ∀ t, execGateCheckFail leg s = .next t → Evolves ps s₀ t := by
  intro t ht
  unfold execGateCheckFail at ht
  repeat' first
    | (with_reducible obtain rfl := Host.Outcome.next.inj ht)
    | split at ht
    | dsimp only at ht
  all_goals
    repeat' first
      | exact Sub.of hW rfl
      | with_reducible first
          | exact hE | apply fenceLeg_evolves | refine Evolves.ite (fun _ => ?_) (fun _ => ?_)
      | dsimp only | split

theorem execDrainSourceShort_evolves {leg : Fin 48} {ps : List Part} {s₀ s : State} (hE : Evolves ps s₀ s)
    (hW : Sub [.events, .fences, .counters, .sampling, .controllers, .namespaces, .commands, .powerState, .contexts,
      .hbm, .mapping, .journal, .layoutWork, .ciphers, .storeWrites, .drivePorts, .driveSlots, .buffer,
      .functions, .hostQueues, .leash, .replicas, .legs, .regs, .regPrt, .regSwc, .regLay, .regPwr, .regRed,
      .out] ps) :
    ∀ t, execDrainSourceShort leg s = .next t → Evolves ps s₀ t := by
  intro t ht
  unfold execDrainSourceShort at ht
  repeat' first
    | (with_reducible obtain rfl := Host.Outcome.next.inj ht)
    | split at ht
    | dsimp only at ht
  all_goals
    repeat' first
      | exact Sub.of hW rfl
      | with_reducible first
          | exact hE | apply fenceLeg_evolves | refine Evolves.ite (fun _ => ?_) (fun _ => ?_)
      | dsimp only | split

theorem execLegPg_evolves {leg : Fin 48} {ps : List Part} {s₀ s : State} (hE : Evolves ps s₀ s)
    (hW : Sub [.events, .counters, .sampling, .drivePorts, .leash, .regs, .regPwr, .out] ps) :
    ∀ t, execLegPg leg s = .next t → Evolves ps s₀ t := by
  intro t ht
  unfold execLegPg at ht
  repeat' first
    | (with_reducible obtain rfl := Host.Outcome.next.inj ht)
    | split at ht
    | dsimp only at ht
  all_goals
    repeat' first
      | exact Sub.of hW rfl
      | with_reducible first
          | exact hE | apply reportPg_evolves | apply drvLegPg_evolves | apply emit_evolves | apply legMaps_evolves
          | apply state_setFldI_evolves | refine Evolves.ite (fun _ => ?_) (fun _ => ?_)
      | dsimp only | split

theorem execLegPgWithdrawn_evolves {leg : Fin 48} {ps : List Part} {s₀ s : State} (hE : Evolves ps s₀ s)
    (hW : Sub [.events, .counters, .sampling, .regs, .regPwr] ps) :
    ∀ t, execLegPgWithdrawn leg s = .next t → Evolves ps s₀ t := by
  intro t ht
  unfold execLegPgWithdrawn at ht
  repeat' first
    | (with_reducible obtain rfl := Host.Outcome.next.inj ht)
    | split at ht
    | dsimp only at ht
  all_goals
    repeat' first
      | exact Sub.of hW rfl
      | with_reducible first
          | exact hE | apply withdrawPg_evolves
      | dsimp only

theorem execLegDischarged_evolves {leg : Fin 48} {ps : List Part} {s₀ s : State} (hE : Evolves ps s₀ s)
    (hW : Sub [.events, .counters, .sampling, .legs, .regs, .regPwr] ps) :
    ∀ t, execLegDischarged leg s = .next t → Evolves ps s₀ t := by
  intro t ht
  unfold execLegDischarged at ht
  repeat' first
    | (with_reducible obtain rfl := Host.Outcome.next.inj ht)
    | split at ht
    | dsimp only at ht
  all_goals
    repeat' first
      | exact Sub.of hW rfl
      | with_reducible first
          | exact hE | apply startLeg_evolves | refine Evolves.ite (fun _ => ?_) (fun _ => ?_)
      | dsimp only | split

theorem execLegRetry_evolves {leg : Fin 48} {ps : List Part} {s₀ s : State} (hE : Evolves ps s₀ s)
    (hW : Sub [.events, .counters, .sampling, .legs, .regs, .regPwr] ps) :
    ∀ t, execLegRetry leg s = .next t → Evolves ps s₀ t := by
  intro t ht
  unfold execLegRetry at ht
  repeat' first
    | (with_reducible obtain rfl := Host.Outcome.next.inj ht)
    | split at ht
    | dsimp only at ht
  all_goals
    repeat' first
      | exact Sub.of hW rfl
      | with_reducible first
          | exact hE | apply state_bumpI_evolves | apply startLeg_evolves | apply emit_evolves
          | refine Evolves.ite (fun _ => ?_) (fun _ => ?_)
      | dsimp only | split

theorem execRetryCountClear_evolves {leg : Fin 48} {ps : List Part} {s₀ s : State} (hE : Evolves ps s₀ s)
    (hW : Sub [.regs, .regPwr] ps) :
    ∀ t, execRetryCountClear leg s = .next t → Evolves ps s₀ t := by
  intro t ht
  unfold execRetryCountClear at ht
  repeat' first
    | (with_reducible obtain rfl := Host.Outcome.next.inj ht)
    | split at ht
    | dsimp only at ht
  all_goals
    repeat' first
      | exact Sub.of hW rfl
      | with_reducible first
          | exact hE | apply state_setFldI_evolves | refine Evolves.ite (fun _ => ?_) (fun _ => ?_)
      | dsimp only | split

theorem execFeedFault_evolves {feed : Fin 4} {cause : Fin 5} {mv : Nat} {ps : List Part} {s₀ s : State} (hE : Evolves ps s₀ s)
    (hW : Sub [.events, .counters, .sampling, .feeds, .regs, .regPwr] ps) :
    ∀ t, execFeedFault feed cause mv s = .next t → Evolves ps s₀ t := by
  intro t ht
  unfold execFeedFault at ht
  repeat' first
    | (with_reducible obtain rfl := Host.Outcome.next.inj ht)
    | split at ht
    | dsimp only at ht
  all_goals
    repeat' first
      | exact Sub.of hW rfl | exact .inl (Sub.of hW rfl) | with_reducible exact .inr rfl
      | exact .inr (FencesStay.refl _) | exact .inr (by dsimp only) | exact .inr rfl
      | with_reducible exact (fun h => h : _ = true → _) | (dsimp only; exact (fun h => h : _ = true → _))
      | exact (fun h => h : _ = true → _)
      | with_reducible first
          | exact hE | apply state_setFldI_evolves | apply state_onPwr_evolves | apply emit_evolves
          | apply state_bumpI_evolves | refine Evolves.ite (fun _ => ?_) (fun _ => ?_)
      | dsimp only | split

theorem execFeedOk_evolves {feed : Fin 4} {ps : List Part} {s₀ s : State} (hE : Evolves ps s₀ s)
    (hW : Sub [.events, .counters, .sampling, .feeds, .regs, .regPwr] ps) :
    ∀ t, execFeedOk feed s = .next t → Evolves ps s₀ t := by
  intro t ht
  unfold execFeedOk at ht
  repeat' first
    | (with_reducible obtain rfl := Host.Outcome.next.inj ht)
    | split at ht
    | dsimp only at ht
  all_goals
    repeat' first
      | exact Sub.of hW rfl | exact .inl (Sub.of hW rfl) | with_reducible exact .inr rfl
      | exact .inr (FencesStay.refl _) | exact .inr (by dsimp only) | exact .inr rfl
      | with_reducible exact (fun h => h : _ = true → _) | (dsimp only; exact (fun h => h : _ = true → _))
      | exact (fun h => h : _ = true → _)
      | with_reducible first
          | exact hE | apply state_onPwr_evolves | apply emit_evolves | apply state_setFldI_evolves
          | refine Evolves.ite (fun _ => ?_) (fun _ => ?_)
      | dsimp only | split

theorem pollSensor_evolves {i : Nat} {reading : Option Int} {ps : List Part} {s₀ s : State} (hE : Evolves ps s₀ s)
    (hW : Sub [.events, .counters, .sampling, .feeds, .regs, .regPwr] ps) :
    Evolves ps s₀ (pollSensor i reading s) := by
  unfold pollSensor
  repeat' first
    | exact Sub.of hW rfl | exact .inl (Sub.of hW rfl) | with_reducible exact .inr rfl
    | exact .inr (FencesStay.refl _) | exact .inr (by dsimp only) | exact .inr rfl
    | with_reducible exact (fun h => h : _ = true → _) | (dsimp only; exact (fun h => h : _ = true → _))
    | exact (fun h => h : _ = true → _)
    | with_reducible first
        | exact hE | apply state_onPwr_evolves | apply state_setFldI_evolves | apply emit_evolves
        | refine Evolves.ite (fun _ => ?_) (fun _ => ?_)
    | dsimp only | split
    | with_reducible first
        | refine Evolves.fst_of (by assumption) ?_ | refine Evolves.snd_of (by assumption) ?_

theorem execSensorPoll_evolves {readings : List (Option Int)} {ps : List Part} {s₀ s : State} (hE : Evolves ps s₀ s)
    (hW : Sub [.events, .counters, .sampling, .feeds, .regs, .regPwr, .out] ps) :
    ∀ t, execSensorPoll readings s = .next t → Evolves ps s₀ t := by
  intro t ht
  unfold execSensorPoll at ht
  repeat' first
    | (with_reducible obtain rfl := Host.Outcome.next.inj ht)
    | split at ht
    | dsimp only at ht
  all_goals
    repeat' first
      | exact Sub.of hW rfl
      | with_reducible first
          | exact hE | apply askSensor_evolves | apply takePolled_evolves | apply pollSensor_evolves
          | apply setFans_evolves | apply dieThresholds_evolves | refine Evolves.foldl ?_ ?_
          | refine Evolves.foldl_fst ?_ ?_ | refine Evolves.foldl_snd ?_ ?_ | assumption
      | intro _ | dsimp only | split
      | with_reducible first
          | refine Evolves.fst_of (by assumption) ?_ | refine Evolves.snd_of (by assumption) ?_

theorem execFanFail_evolves {channel : Fin 12} {rpm : Nat} {ps : List Part} {s₀ s : State} (hE : Evolves ps s₀ s)
    (hW : Sub [.events, .counters, .sampling, .regs, .regPwr] ps) :
    ∀ t, execFanFail channel rpm s = .next t → Evolves ps s₀ t := by
  intro t ht
  unfold execFanFail at ht
  repeat' first
    | (with_reducible obtain rfl := Host.Outcome.next.inj ht)
    | split at ht
    | dsimp only at ht
  all_goals
    repeat' first
      | exact Sub.of hW rfl
      | with_reducible first
          | exact hE | apply state_setFldI_evolves | apply setFans_evolves | apply emit_evolves
          | refine Evolves.ite (fun _ => ?_) (fun _ => ?_)
      | dsimp only | split

theorem execFanRecovered_evolves {channel : Fin 12} {rpm : Nat} {ps : List Part} {s₀ s : State} (hE : Evolves ps s₀ s)
    (hW : Sub [.regs, .regPwr] ps) :
    ∀ t, execFanRecovered channel rpm s = .next t → Evolves ps s₀ t := by
  intro t ht
  unfold execFanRecovered at ht
  repeat' first
    | (with_reducible obtain rfl := Host.Outcome.next.inj ht)
    | split at ht
    | dsimp only at ht
  all_goals
    repeat' first
      | exact Sub.of hW rfl
      | with_reducible first
          | exact hE | apply state_setFldI_evolves | apply setFans_evolves
      | dsimp only

theorem tickFeed_evolves {x : FeedSample} {ps : List Part} {s₀ s : State} (hE : Evolves ps s₀ s)
    (hW : Sub [.feeds, .regs, .regPwr] ps) :
    Evolves ps s₀ (tickFeed s x) := by
  unfold tickFeed
  repeat' first
    | exact Sub.of hW rfl | exact .inl (Sub.of hW rfl) | with_reducible exact .inr rfl
    | exact .inr (FencesStay.refl _) | exact .inr (by dsimp only) | exact .inr rfl
    | with_reducible exact (fun h => h : _ = true → _) | (dsimp only; exact (fun h => h : _ = true → _))
    | exact (fun h => h : _ = true → _)
    | with_reducible first
        | exact hE | apply state_onPwr_evolves | apply state_setFldI_evolves
        | refine Evolves.ite (fun _ => ?_) (fun _ => ?_)
    | dsimp only | split

theorem tickLeg_evolves {x : LegSample} {ps : List Part} {s₀ s : State} (hE : Evolves ps s₀ s)
    (hW : Sub [.events, .counters, .sampling, .legs, .regs, .regPwr] ps) :
    Evolves ps s₀ (tickLeg s x) := by
  unfold tickLeg
  repeat' first
    | exact Sub.of hW rfl
    | with_reducible first
        | exact hE | apply state_setFldI_evolves | apply onLeg_evolves | apply legToOff_evolves
        | refine Evolves.ite (fun _ => ?_) (fun _ => ?_)
    | dsimp only | split
    | with_reducible first
        | refine Evolves.fst_of (by assumption) ?_ | refine Evolves.snd_of (by assumption) ?_

theorem execControlTick_evolves {legs : List LegSample} {feeds : List FeedSample} {tach : List (Fin 12 × Nat)} {ps : List Part} {s₀ s : State} (hE : Evolves ps s₀ s)
    (hW : Sub [.events, .counters, .sampling, .punts, .buffer, .legs, .feeds, .regs, .regSwc, .regPwr, .out] ps) :
    ∀ t, execControlTick legs feeds tach s = .next t → Evolves ps s₀ t := by
  intro t ht
  unfold execControlTick at ht
  repeat' first
    | (with_reducible obtain rfl := Host.Outcome.next.inj ht)
    | split at ht
    | dsimp only at ht
  all_goals
    repeat' first
      | exact Sub.of hW rfl
      | with_reducible first
          | exact hE | apply tickFeed_evolves | apply tickLeg_evolves | apply state_setFldI_evolves
          | apply takePunted_evolves | refine Evolves.foldl ?_ ?_ | refine Evolves.foldl_fst ?_ ?_
          | refine Evolves.foldl_snd ?_ ?_ | assumption
      | intro _ | dsimp only

end Sys2Proof.Machine
end

