-- ==== Sys2Proof/Laws/FrameSwitch.lean ====
section
/-! SUPPORT. What the operations of Machine/Switch.lean change at most: one lemma each. -/

namespace Sys2Proof.Machine

set_option linter.unusedTactic false
set_option linter.unreachableTactic false
set_option linter.unusedVariables false

theorem onCell_evolves {a : Nat} {f : Cell → Cell} {ps : List Part} {s₀ s : State} (hE : Evolves ps s₀ s)
    (hW : Sub [.buffer] ps) :
    Evolves ps s₀ (onCell a f s) := by
  unfold onCell
  repeat' first
    | exact Sub.of hW rfl | exact .inl (Sub.of hW rfl) | with_reducible exact .inr rfl
    | exact .inr (FencesStay.refl _) | exact .inr (by dsimp only) | exact .inr rfl
    | with_reducible exact (fun h => h : _ = true → _) | (dsimp only; exact (fun h => h : _ = true → _))
    | exact (fun h => h : _ = true → _)
    | with_reducible first
        | exact hE | apply state_onNet_evolves
    | dsimp only

theorem reportLeak_evolves {a : Nat} {c : Cell} {ps : List Part} {s₀ s : State} (hE : Evolves ps s₀ s)
    (hW : Sub [.events, .counters, .sampling, .buffer, .regs, .regSwc] ps) :
    Evolves ps s₀ (reportLeak a c s) := by
  unfold reportLeak
  repeat' first
    | exact Sub.of hW rfl
    | with_reducible first
        | exact hE | apply state_bump_evolves | apply emit_evolves | apply onCell_evolves | apply setFree_evolves
        | refine Evolves.ite (fun _ => ?_) (fun _ => ?_)
    | dsimp only | split

theorem examineCell_evolves {a : Nat} {ps : List Part} {s₀ s : State} (hE : Evolves ps s₀ s)
    (hW : Sub [.events, .counters, .sampling, .buffer, .regs, .regSwc] ps) :
    Evolves ps s₀ (examineCell s a) := by
  unfold examineCell
  repeat' first
    | exact Sub.of hW rfl
    | with_reducible first
        | exact hE | apply setFree_evolves | apply onCell_evolves | apply emit_evolves | apply state_bump_evolves
        | apply reportLeak_evolves | refine Evolves.ite (fun _ => ?_) (fun _ => ?_)
    | dsimp only | split

theorem execSwcMcRead_evolves {path : Fin 5} {session : Nat} {value : Word} {ps : List Part} {s₀ s : State} (hE : Evolves ps s₀ s)
    (hW : Sub [.events, .sessions, .marks, .counters, .sampling, .regs, .regCtl, .regPrt, .regCls, .regSwc, .regTmg,
      .regXpt, .regCmd, .regLay, .regFix, .regDrv, .regCip, .regTru, .regPwr, .regHep, .regRed, .regTel, .out] ps) :
    ∀ t, execSwcMcRead path session value s = .next t → Evolves ps s₀ t := by
  intro t ht
  unfold execSwcMcRead at ht
  repeat' first
    | (with_reducible obtain rfl := Host.Outcome.next.inj ht)
    | split at ht
    | dsimp only at ht
  all_goals
    repeat' first
      | exact Sub.of hW rfl
      | (apply Sub.cons; repeat' first | exact Sub.nil | exact hW _ (by decide) | exact Sub.any (Sub.of hW rfl) | exact hW _ (by simp) | apply Sub.cons)
      | with_reducible first
          | exact hE | apply writeGate_evolves | apply storeWord_evolves | apply state_setFld_evolves
          | refine Evolves.ite (fun _ => ?_) (fun _ => ?_)
      | dsimp only | split
      | with_reducible first
          | refine Evolves.fst_of (by assumption) ?_ | refine Evolves.snd_of (by assumption) ?_

theorem lockRefused_evolves {path : Nat} {session : Nat} {refused : Fld} {ps : List Part} {s₀ s : State} (hE : Evolves ps s₀ s)
    (hW : Sub [.events, .sessions, .counters, .sampling, .regs, .regCtl, .out, regPart refused.base] ps) :
    Evolves ps s₀ (lockRefused path session refused s) := by
  unfold lockRefused
  repeat' first
    | exact Sub.of hW rfl | exact hW
    | exact fun p hp => hW p (by simp only [List.mem_cons, List.not_mem_nil, or_false] at hp ⊢; tauto)
    | with_reducible first
        | exact hE | apply refuse_evolves | apply state_setFld_evolves
    | dsimp only

theorem execSwcMcWrite_evolves {path : Fin 5} {session : Nat} {value : Word} {ps : List Part} {s₀ s : State} (hE : Evolves ps s₀ s)
    (hW : Sub [.events, .sessions, .marks, .counters, .sampling, .groups, .regs, .regCtl, .regPrt, .regCls, .regSwc,
      .regTmg, .regXpt, .regCmd, .regLay, .regFix, .regDrv, .regCip, .regTru, .regPwr, .regHep, .regRed,
      .regTel, .out] ps) :
    ∀ t, execSwcMcWrite path session value s = .next t → Evolves ps s₀ t := by
  intro t ht
  unfold execSwcMcWrite at ht
  repeat' first
    | (with_reducible obtain rfl := Host.Outcome.next.inj ht)
    | split at ht
    | dsimp only at ht
  all_goals
    repeat' first
      | exact Sub.of hW rfl
      | (apply Sub.cons; repeat' first | exact Sub.nil | exact hW _ (by decide) | exact Sub.any (Sub.of hW rfl) | exact hW _ (by simp) | apply Sub.cons)
      | exact .inl (Sub.of hW rfl) | with_reducible exact .inr rfl | exact .inr (FencesStay.refl _)
      | exact .inr (by dsimp only) | exact .inr rfl | with_reducible exact (fun h => h : _ = true → _)
      | (dsimp only; exact (fun h => h : _ = true → _)) | exact (fun h => h : _ = true → _)
      | with_reducible first
          | exact hE | apply writeGate_evolves | apply storeWord_evolves | apply state_setFld_evolves
          | apply lockRefused_evolves | apply state_onNet_evolves | refine Evolves.ite (fun _ => ?_) (fun _ => ?_)
      | dsimp only | split
      | with_reducible first
          | refine Evolves.fst_of (by assumption) ?_ | refine Evolves.snd_of (by assumption) ?_

theorem putQData_evolves {e : QEntry} {depth : Nat} {ps : List Part} {s₀ s : State} (hE : Evolves ps s₀ s)
    (hW : Sub [.regs, .regTmg] ps) :
    Evolves ps s₀ (putQData e depth s) := by
  unfold putQData
  repeat' first
    | exact Sub.of hW rfl
    | (intro x hx; simp only [List.mem_cons, List.not_mem_nil, or_false] at hx; rcases hx with rfl | rfl | rfl | rfl | rfl | rfl <;> first | (dsimp only; decide) | exact regPart_congr (b := 0) (by omega))
    | with_reducible first
        | exact hE | refine Evolves.foldl ?_ ?_ | refine Evolves.foldl_fst ?_ ?_ | refine Evolves.foldl_snd ?_ ?_
        | assumption
    | intro _ | dsimp only
    | with_reducible first
        | apply Evolves.regsFold _ _ _ .regTmg

theorem execTmgQRead_evolves {path : Fin 5} {session : Nat} {value : Word} {ps : List Part} {s₀ s : State} (hE : Evolves ps s₀ s)
    (hW : Sub [.events, .sessions, .marks, .counters, .sampling, .regs, .regCtl, .regPrt, .regCls, .regSwc, .regTmg,
      .regXpt, .regCmd, .regLay, .regFix, .regDrv, .regCip, .regTru, .regPwr, .regHep, .regRed, .regTel, .out] ps) :
    ∀ t, execTmgQRead path session value s = .next t → Evolves ps s₀ t := by
  intro t ht
  unfold execTmgQRead at ht
  repeat' first
    | (with_reducible obtain rfl := Host.Outcome.next.inj ht)
    | split at ht
    | dsimp only at ht
  all_goals
    repeat' first
      | exact Sub.of hW rfl
      | (apply Sub.cons; repeat' first | exact Sub.nil | exact hW _ (by decide) | exact Sub.any (Sub.of hW rfl) | exact hW _ (by simp) | apply Sub.cons)
      | with_reducible first
          | exact hE | apply writeGate_evolves | apply storeWord_evolves | apply state_setFld_evolves
          | apply putQData_evolves | refine Evolves.ite (fun _ => ?_) (fun _ => ?_)
      | dsimp only | split
      | with_reducible first
          | refine Evolves.fst_of (by assumption) ?_ | refine Evolves.snd_of (by assumption) ?_

theorem execTmgQWrite_evolves {path : Fin 5} {session : Nat} {value : Word} {ps : List Part} {s₀ s : State} (hE : Evolves ps s₀ s)
    (hW : Sub [.events, .sessions, .marks, .counters, .sampling, .tables, .traffic, .regs, .regCtl, .regPrt, .regCls,
      .regSwc, .regTmg, .regXpt, .regCmd, .regLay, .regFix, .regDrv, .regCip, .regTru, .regPwr, .regHep,
      .regRed, .regTel, .out] ps) :
    ∀ t, execTmgQWrite path session value s = .next t → Evolves ps s₀ t := by
  intro t ht
  unfold execTmgQWrite at ht
  repeat' first
    | (with_reducible obtain rfl := Host.Outcome.next.inj ht)
    | split at ht
    | dsimp only at ht
  all_goals
    repeat' first
      | exact Sub.of hW rfl
      | (apply Sub.cons; repeat' first | exact Sub.nil | exact hW _ (by decide) | exact Sub.any (Sub.of hW rfl) | exact hW _ (by simp) | apply Sub.cons)
      | exact .inl (Sub.of hW rfl) | with_reducible exact .inr rfl | exact .inr (FencesStay.refl _)
      | exact .inr (by dsimp only) | exact .inr rfl | with_reducible exact (fun h => h : _ = true → _)
      | (dsimp only; exact (fun h => h : _ = true → _)) | exact (fun h => h : _ = true → _)
      | with_reducible first
          | exact hE | apply writeGate_evolves | apply storeWord_evolves | apply state_setFld_evolves
          | apply lockRefused_evolves | apply state_onNet_evolves | refine Evolves.ite (fun _ => ?_) (fun _ => ?_)
      | dsimp only | split
      | with_reducible first
          | refine Evolves.fst_of (by assumption) ?_ | refine Evolves.snd_of (by assumption) ?_

theorem execTmgPolRead_evolves {path : Fin 5} {session : Nat} {value : Word} {ps : List Part} {s₀ s : State} (hE : Evolves ps s₀ s)
    (hW : Sub [.events, .sessions, .marks, .counters, .sampling, .tables, .regs, .regCtl, .regPrt, .regCls, .regSwc,
      .regTmg, .regXpt, .regCmd, .regLay, .regFix, .regDrv, .regCip, .regTru, .regPwr, .regHep, .regRed,
      .regTel, .out] ps) :
    ∀ t, execTmgPolRead path session value s = .next t → Evolves ps s₀ t := by
  intro t ht
  unfold execTmgPolRead at ht
  repeat' first
    | (with_reducible obtain rfl := Host.Outcome.next.inj ht)
    | split at ht
    | dsimp only at ht
  all_goals
    repeat' first
      | exact Sub.of hW rfl
      | (apply Sub.cons; repeat' first | exact Sub.nil | exact hW _ (by decide) | exact Sub.any (Sub.of hW rfl) | exact hW _ (by simp) | apply Sub.cons)
      | exact .inl (Sub.of hW rfl) | with_reducible exact .inr rfl | exact .inr (FencesStay.refl _)
      | exact .inr (by dsimp only) | exact .inr rfl | with_reducible exact (fun h => h : _ = true → _)
      | (dsimp only; exact (fun h => h : _ = true → _)) | exact (fun h => h : _ = true → _)
      | (intro x hx; simp only [List.mem_cons, List.not_mem_nil, or_false] at hx; rcases hx with rfl | rfl | rfl | rfl <;> first | (dsimp only; decide) | exact regPart_congr (b := 0) (by omega))
      | with_reducible first
          | exact hE | apply writeGate_evolves | apply storeWord_evolves | apply state_setFld_evolves
          | apply state_onNet_evolves | refine Evolves.ite (fun _ => ?_) (fun _ => ?_) | refine Evolves.foldl ?_ ?_
          | refine Evolves.foldl_fst ?_ ?_ | refine Evolves.foldl_snd ?_ ?_ | assumption
      | intro _ | dsimp only | split
      | with_reducible first
          | refine Evolves.fst_of (by assumption) ?_ | refine Evolves.snd_of (by assumption) ?_
          | apply Evolves.regsFold _ _ _ .regTmg

theorem execTmgPolWrite_evolves {path : Fin 5} {session : Nat} {value : Word} {ps : List Part} {s₀ s : State} (hE : Evolves ps s₀ s)
    (hW : Sub [.events, .sessions, .marks, .counters, .sampling, .tables, .regs, .regCtl, .regPrt, .regCls, .regSwc,
      .regTmg, .regXpt, .regCmd, .regLay, .regFix, .regDrv, .regCip, .regTru, .regPwr, .regHep, .regRed,
      .regTel, .out] ps) :
    ∀ t, execTmgPolWrite path session value s = .next t → Evolves ps s₀ t := by
  intro t ht
  unfold execTmgPolWrite at ht
  repeat' first
    | (with_reducible obtain rfl := Host.Outcome.next.inj ht)
    | split at ht
    | dsimp only at ht
  all_goals
    repeat' first
      | exact Sub.of hW rfl
      | (apply Sub.cons; repeat' first | exact Sub.nil | exact hW _ (by decide) | exact Sub.any (Sub.of hW rfl) | exact hW _ (by simp) | apply Sub.cons)
      | exact .inl (Sub.of hW rfl) | with_reducible exact .inr rfl | exact .inr (FencesStay.refl _)
      | exact .inr (by dsimp only) | exact .inr rfl | with_reducible exact (fun h => h : _ = true → _)
      | (dsimp only; exact (fun h => h : _ = true → _)) | exact (fun h => h : _ = true → _)
      | with_reducible first
          | exact hE | apply writeGate_evolves | apply storeWord_evolves | apply state_setFld_evolves
          | apply lockRefused_evolves | apply state_onNet_evolves | refine Evolves.ite (fun _ => ?_) (fun _ => ?_)
      | dsimp only | split
      | with_reducible first
          | refine Evolves.fst_of (by assumption) ?_ | refine Evolves.snd_of (by assumption) ?_

theorem execTmgGateRead_evolves {path : Fin 5} {session : Nat} {value : Word} {ps : List Part} {s₀ s : State} (hE : Evolves ps s₀ s)
    (hW : Sub [.events, .sessions, .marks, .counters, .sampling, .regs, .regCtl, .regPrt, .regCls, .regSwc, .regTmg,
      .regXpt, .regCmd, .regLay, .regFix, .regDrv, .regCip, .regTru, .regPwr, .regHep, .regRed, .regTel, .out] ps) :
    ∀ t, execTmgGateRead path session value s = .next t → Evolves ps s₀ t := by
  intro t ht
  unfold execTmgGateRead at ht
  repeat' first
    | (with_reducible obtain rfl := Host.Outcome.next.inj ht)
    | split at ht
    | dsimp only at ht
  all_goals
    repeat' first
      | exact Sub.of hW rfl
      | (apply Sub.cons; repeat' first | exact Sub.nil | exact hW _ (by decide) | exact Sub.any (Sub.of hW rfl) | exact hW _ (by simp) | apply Sub.cons)
      | with_reducible first
          | exact hE | apply writeGate_evolves | apply storeWord_evolves | apply state_setFld_evolves
          | refine Evolves.ite (fun _ => ?_) (fun _ => ?_)
      | dsimp only | split
      | with_reducible first
          | refine Evolves.fst_of (by assumption) ?_ | refine Evolves.snd_of (by assumption) ?_

theorem execTmgGateWrite_evolves {path : Fin 5} {session : Nat} {value : Word} {ps : List Part} {s₀ s : State} (hE : Evolves ps s₀ s)
    (hW : Sub [.events, .sessions, .marks, .counters, .sampling, .tables, .regs, .regCtl, .regPrt, .regCls, .regSwc,
      .regTmg, .regXpt, .regCmd, .regLay, .regFix, .regDrv, .regCip, .regTru, .regPwr, .regHep, .regRed,
      .regTel, .out] ps) :
    ∀ t, execTmgGateWrite path session value s = .next t → Evolves ps s₀ t := by
  intro t ht
  unfold execTmgGateWrite at ht
  repeat' first
    | (with_reducible obtain rfl := Host.Outcome.next.inj ht)
    | split at ht
    | dsimp only at ht
  all_goals
    repeat' first
      | exact Sub.of hW rfl
      | (apply Sub.cons; repeat' first | exact Sub.nil | exact hW _ (by decide) | exact Sub.any (Sub.of hW rfl) | exact hW _ (by simp) | apply Sub.cons)
      | exact .inl (Sub.of hW rfl) | with_reducible exact .inr rfl | exact .inr (FencesStay.refl _)
      | exact .inr (by dsimp only) | exact .inr rfl | with_reducible exact (fun h => h : _ = true → _)
      | (dsimp only; exact (fun h => h : _ = true → _)) | exact (fun h => h : _ = true → _)
      | with_reducible first
          | exact hE | apply writeGate_evolves | apply storeWord_evolves | apply state_setFld_evolves
          | apply lockRefused_evolves | apply state_onNet_evolves | refine Evolves.ite (fun _ => ?_) (fun _ => ?_)
      | dsimp only | split
      | with_reducible first
          | refine Evolves.fst_of (by assumption) ?_ | refine Evolves.snd_of (by assumption) ?_

theorem execTmgGateCommit_evolves {path : Fin 5} {session : Nat} {value : Word} {ps : List Part} {s₀ s : State} (hE : Evolves ps s₀ s)
    (hW : Sub [.events, .sessions, .marks, .counters, .sampling, .traffic, .regs, .regCtl, .regTmg, .out] ps) :
    ∀ t, execTmgGateCommit path session value s = .next t → Evolves ps s₀ t := by
  intro t ht
  unfold execTmgGateCommit at ht
  repeat' first
    | (with_reducible obtain rfl := Host.Outcome.next.inj ht)
    | split at ht
    | dsimp only at ht
  all_goals
    repeat' first
      | exact Sub.of hW rfl
      | with_reducible first
          | exact hE | apply writeGate_evolves | apply state_setFldI_evolves | apply onGates_evolves
          | refine Evolves.ite (fun _ => ?_) (fun _ => ?_)
      | dsimp only | split
      | with_reducible first
          | refine Evolves.fst_of (by assumption) ?_ | refine Evolves.snd_of (by assumption) ?_

theorem execTmgGateStop_evolves {path : Fin 5} {session : Nat} {value : Word} {ps : List Part} {s₀ s : State} (hE : Evolves ps s₀ s)
    (hW : Sub [.events, .sessions, .marks, .counters, .sampling, .traffic, .regs, .regCtl, .regTmg, .out] ps) :
    ∀ t, execTmgGateStop path session value s = .next t → Evolves ps s₀ t := by
  intro t ht
  unfold execTmgGateStop at ht
  repeat' first
    | (with_reducible obtain rfl := Host.Outcome.next.inj ht)
    | split at ht
    | dsimp only at ht
  all_goals
    repeat' first
      | exact Sub.of hW rfl
      | with_reducible first
          | exact hE | apply writeGate_evolves | apply state_setFldI_evolves | apply onGates_evolves
          | refine Evolves.ite (fun _ => ?_) (fun _ => ?_)
      | dsimp only | split
      | with_reducible first
          | refine Evolves.fst_of (by assumption) ?_ | refine Evolves.snd_of (by assumption) ?_

theorem execTmgHistSel_evolves {path : Fin 5} {session : Nat} {value : Word} {ps : List Part} {s₀ s : State} (hE : Evolves ps s₀ s)
    (hW : Sub [.events, .sessions, .marks, .counters, .sampling, .traffic, .regs, .regCtl, .regTmg, .out] ps) :
    ∀ t, execTmgHistSel path session value s = .next t → Evolves ps s₀ t := by
  intro t ht
  unfold execTmgHistSel at ht
  repeat' first
    | (with_reducible obtain rfl := Host.Outcome.next.inj ht)
    | split at ht
    | dsimp only at ht
  all_goals
    repeat' first
      | exact Sub.of hW rfl | exact .inl (Sub.of hW rfl) | with_reducible exact .inr rfl
      | exact .inr (FencesStay.refl _) | exact .inr (by dsimp only) | exact .inr rfl
      | with_reducible exact (fun h => h : _ = true → _) | (dsimp only; exact (fun h => h : _ = true → _))
      | exact (fun h => h : _ = true → _)
      | with_reducible first
          | exact hE | apply writeGate_evolves | apply state_setFldI_evolves | apply state_onNet_evolves
          | apply state_setFld_evolves | refine Evolves.ite (fun _ => ?_) (fun _ => ?_) | refine Evolves.foldl ?_ ?_
          | refine Evolves.foldl_fst ?_ ?_ | refine Evolves.foldl_snd ?_ ?_ | assumption
      | intro _ | dsimp only | split
      | with_reducible first
          | refine Evolves.fst_of (by assumption) ?_ | refine Evolves.snd_of (by assumption) ?_

theorem execBloodhoundPass_evolves {bank : Fin 64} {ps : List Part} {s₀ s : State} (hE : Evolves ps s₀ s)
    (hW : Sub [.events, .counters, .sampling, .buffer, .regs, .regSwc, .out] ps) :
    ∀ t, execBloodhoundPass bank s = .next t → Evolves ps s₀ t := by
  intro t ht
  unfold execBloodhoundPass at ht
  repeat' first
    | (with_reducible obtain rfl := Host.Outcome.next.inj ht)
    | split at ht
    | dsimp only at ht
  all_goals
    repeat' first
      | exact Sub.of hW rfl
      | with_reducible first
          | exact hE | apply examineCell_evolves | apply unsqueeze_evolves
          | refine Evolves.ite (fun _ => ?_) (fun _ => ?_) | refine Evolves.foldl ?_ ?_ | refine Evolves.foldl_fst ?_ ?_
          | refine Evolves.foldl_snd ?_ ?_ | assumption
      | intro _ | dsimp only | split

theorem execGateSwitch_evolves {lport : Fin 64} {ps : List Part} {s₀ s : State} (hE : Evolves ps s₀ s)
    (hW : Sub [.events, .counters, .sampling, .buffer, .traffic, .regs, .regSwc, .regTmg, .out] ps) :
    ∀ t, execGateSwitch lport s = .next t → Evolves ps s₀ t := by
  intro t ht
  unfold execGateSwitch at ht
  repeat' first
    | (with_reducible obtain rfl := Host.Outcome.next.inj ht)
    | split at ht
    | dsimp only at ht
  all_goals
    repeat' first
      | exact Sub.of hW rfl
      | with_reducible first
          | exact hE | apply onGates_evolves | apply state_setFldI_evolves | apply emit_evolves | apply kick_evolves
      | dsimp only | split
      | with_reducible first
          | refine Evolves.fst_of (by assumption) ?_ | refine Evolves.snd_of (by assumption) ?_

theorem execGateListStopped_evolves {lport : Fin 64} {ps : List Part} {s₀ s : State} (hE : Evolves ps s₀ s)
    (hW : Sub [.events, .counters, .sampling, .buffer, .traffic, .regs, .regSwc, .regTmg, .out] ps) :
    ∀ t, execGateListStopped lport s = .next t → Evolves ps s₀ t := by
  intro t ht
  unfold execGateListStopped at ht
  repeat' first
    | (with_reducible obtain rfl := Host.Outcome.next.inj ht)
    | split at ht
    | dsimp only at ht
  all_goals
    repeat' first
      | exact Sub.of hW rfl
      | with_reducible first
          | exact hE | apply onGates_evolves | apply kick_evolves | apply state_setFldI_evolves
          | refine Evolves.ite (fun _ => ?_) (fun _ => ?_)
      | dsimp only | split

theorem execGateEntryEnd_evolves {lport : Fin 64} {ps : List Part} {s₀ s : State} (hE : Evolves ps s₀ s)
    (hW : Sub [.events, .counters, .sampling, .buffer, .traffic, .regs, .regSwc, .regTmg, .out] ps) :
    ∀ t, execGateEntryEnd lport s = .next t → Evolves ps s₀ t := by
  intro t ht
  unfold execGateEntryEnd at ht
  repeat' first
    | (with_reducible obtain rfl := Host.Outcome.next.inj ht)
    | split at ht
    | dsimp only at ht
  all_goals
    repeat' first
      | exact Sub.of hW rfl
      | with_reducible first
          | exact hE | apply kick_evolves | apply onGates_evolves | refine Evolves.ite (fun _ => ?_) (fun _ => ?_)
      | dsimp only | split

theorem execMediaQueueGrant_evolves {bytes : Nat} {ps : List Part} {s₀ s : State} (hE : Evolves ps s₀ s)
    (hW : Sub [.events, .counters, .sampling, .mapping, .layoutWork, .traffic] ps) :
    ∀ t, execMediaQueueGrant bytes s = .next t → Evolves ps s₀ t := by
  intro t ht
  unfold execMediaQueueGrant at ht
  repeat' first
    | (with_reducible obtain rfl := Host.Outcome.next.inj ht)
    | split at ht
    | dsimp only at ht
  all_goals
    repeat' first
      | exact Sub.of hW rfl | exact .inl (Sub.of hW rfl) | with_reducible exact .inr rfl
      | exact .inr (FencesStay.refl _) | exact .inr (by dsimp only) | exact .inr rfl
      | with_reducible exact (fun h => h : _ = true → _) | (dsimp only; exact (fun h => h : _ = true → _))
      | exact (fun h => h : _ = true → _)
      | with_reducible first
          | exact hE | apply nextRebuild_evolves | apply state_onNet_evolves
          | refine Evolves.ite (fun _ => ?_) (fun _ => ?_)
      | dsimp only | split

theorem sampleQueue_evolves  {ps : List Part} {s₀ s : State} (hE : Evolves ps s₀ s)
    (hW : Sub [.traffic] ps) :
    Evolves ps s₀ (sampleQueue s) := by
  unfold sampleQueue
  repeat' first
    | exact Sub.of hW rfl | exact .inl (Sub.of hW rfl) | with_reducible exact .inr rfl
    | exact .inr (FencesStay.refl _) | exact .inr (by dsimp only) | exact .inr rfl
    | with_reducible exact (fun h => h : _ = true → _) | (dsimp only; exact (fun h => h : _ = true → _))
    | exact (fun h => h : _ = true → _)
    | with_reducible first
        | exact hE | apply state_onNet_evolves | refine Evolves.ite (fun _ => ?_) (fun _ => ?_)
    | dsimp only | split

end Sys2Proof.Machine
end

