-- ==== Sys2Proof/Laws/FrameTelemetry.lean ====
section
/-! SUPPORT. What the operations of Machine/Telemetry.lean change at most: one lemma each. -/

namespace Sys2Proof.Machine

set_option linter.unusedTactic false
set_option linter.unreachableTactic false
set_option linter.unusedVariables false

theorem advanceGts_evolves  {ps : List Part} {s₀ s : State} (hE : Evolves ps s₀ s)
    (hW : Sub [.time, .clock] ps) :
    Evolves ps s₀ (advanceGts s) := by
  unfold advanceGts State.onCtl
  exact Evolves.ctlClock _ hE (Sub.of hW rfl) (Nat.le_add_right _ _)

theorem chargeSlots_evolves {steps : List Nat} {ps : List Part} {s₀ s : State} (hE : Evolves ps s₀ s)
    (hW : Sub [.counters, .sampling, .commands] ps) :
    Evolves ps s₀ (chargeSlots steps s) := by
  unfold chargeSlots
  repeat' first
    | exact Sub.of hW rfl | exact .inl (Sub.of hW rfl) | with_reducible exact .inr rfl
    | exact .inr (FencesStay.refl _) | exact .inr (by dsimp only) | exact .inr rfl
    | with_reducible exact (fun h => h : _ = true → _) | (dsimp only; exact (fun h => h : _ = true → _))
    | exact (fun h => h : _ = true → _)
    | with_reducible first
        | exact hE | apply ledger_evolves | apply state_onCmd_evolves | refine Evolves.ite (fun _ => ?_) (fun _ => ?_)
        | refine Evolves.foldl ?_ ?_ | refine Evolves.foldl_fst ?_ ?_ | refine Evolves.foldl_snd ?_ ?_ | assumption
    | intro _ | dsimp only | split

theorem execTelSamplerWrite_evolves {path : Fin 5} {session : Nat} {sampler : Fin 16} {value : Word} {ps : List Part} {s₀ s : State} (hE : Evolves ps s₀ s)
    (hW : Sub [.events, .sessions, .marks, .counters, .sampling, .regs, .regCtl, .regTel, .out] ps) :
    ∀ t, execTelSamplerWrite path session sampler value s = .next t → Evolves ps s₀ t := by
  intro t ht
  unfold execTelSamplerWrite at ht
  repeat' first
    | (with_reducible obtain rfl := Host.Outcome.next.inj ht)
    | split at ht
    | dsimp only at ht
  all_goals
    repeat' first
      | exact Sub.of hW rfl | (rw [regPart_addr]; exact Sub.of hW rfl)
      | (apply Sub.cons; repeat' first | exact Sub.nil | exact hW _ (by decide) | exact Sub.any (Sub.of hW rfl) | exact hW _ (by simp) | apply Sub.cons)
      | with_reducible first
          | exact hE | apply writeGate_evolves | apply reloadSampler_evolves | apply storeWord_evolves
          | refine Evolves.ite (fun _ => ?_) (fun _ => ?_)
      | dsimp only | split
      | with_reducible first
          | refine Evolves.fst_of (by assumption) ?_ | refine Evolves.snd_of (by assumption) ?_

theorem execTelSnapStart_evolves {path : Fin 5} {session : Nat} {value : Word} {ps : List Part} {s₀ s : State} (hE : Evolves ps s₀ s)
    (hW : Sub [.events, .sessions, .marks, .counters, .snapshot, .sampling, .regs, .regCtl, .regTel, .out] ps) :
    ∀ t, execTelSnapStart path session value s = .next t → Evolves ps s₀ t := by
  intro t ht
  unfold execTelSnapStart at ht
  repeat' first
    | (with_reducible obtain rfl := Host.Outcome.next.inj ht)
    | split at ht
    | dsimp only at ht
  all_goals
    repeat' first
      | exact Sub.of hW rfl | exact .inl (Sub.of hW rfl) | with_reducible exact .inr rfl
      | exact .inr (FencesStay.refl _) | exact .inr (by dsimp only) | exact .inr rfl
      | with_reducible exact (fun h => h : _ = true → _) | (dsimp only; exact (fun h => h : _ = true → _))
      | exact (fun h => h : _ = true → _)
      | with_reducible first
          | exact hE | apply writeGate_evolves | apply state_setFld_evolves | apply state_onTel_evolves
          | refine Evolves.ite (fun _ => ?_) (fun _ => ?_)
      | dsimp only | split
      | with_reducible first
          | refine Evolves.fst_of (by assumption) ?_ | refine Evolves.snd_of (by assumption) ?_

theorem execSnapDone_evolves  {ps : List Part} {s₀ s : State} (hE : Evolves ps s₀ s)
    (hW : Sub [.events, .counters, .sampling, .regs, .regTel] ps) :
    ∀ t, execSnapDone s = .next t → Evolves ps s₀ t := by
  intro t ht
  unfold execSnapDone at ht
  repeat' first
    | (with_reducible obtain rfl := Host.Outcome.next.inj ht)
    | split at ht
    | dsimp only at ht
  all_goals
    repeat' first
      | exact Sub.of hW rfl
      | with_reducible first
          | exact hE | apply state_setFld_evolves | apply emit_evolves | refine Evolves.ite (fun _ => ?_) (fun _ => ?_)
      | dsimp only | split

theorem execSamplerOverflow_evolves {sampler : Fin 16} {ps : List Part} {s₀ s : State} (hE : Evolves ps s₀ s)
    (hW : Sub [.sampling] ps) :
    ∀ t, execSamplerOverflow sampler s = .next t → Evolves ps s₀ t := by
  intro t ht
  unfold execSamplerOverflow at ht
  repeat' first
    | (with_reducible obtain rfl := Host.Outcome.next.inj ht)
    | split at ht
    | dsimp only at ht
  all_goals
    repeat' first
      | exact Sub.of hW rfl
      | with_reducible first
          | exact hE | apply overflow_evolves
      | dsimp only

theorem execSampleCaptureTimeout_evolves {sampler : Fin 16} {ps : List Part} {s₀ s : State} (hE : Evolves ps s₀ s)
    (hW : Sub [.events, .counters, .sampling, .regs, .regTel] ps) :
    ∀ t, execSampleCaptureTimeout sampler s = .next t → Evolves ps s₀ t := by
  intro t ht
  unfold execSampleCaptureTimeout at ht
  repeat' first
    | (with_reducible obtain rfl := Host.Outcome.next.inj ht)
    | split at ht
    | dsimp only at ht
  all_goals
    repeat' first
      | exact Sub.of hW rfl
      | with_reducible first
          | exact hE | apply takeSample_evolves | refine Evolves.ite (fun _ => ?_) (fun _ => ?_)
      | dsimp only | split

theorem execSampleReadSnapshot_evolves {path : Fin 5} {ps : List Part} {s₀ s : State} (hE : Evolves ps s₀ s)
    (hW : Sub [.paths, .sampling, .out] ps) :
    ∀ t, execSampleReadSnapshot path s = .next t → Evolves ps s₀ t := by
  intro t ht
  unfold execSampleReadSnapshot at ht
  repeat' first
    | (with_reducible obtain rfl := Host.Outcome.next.inj ht)
    | split at ht
    | dsimp only at ht
  all_goals
    repeat' first
      | exact Sub.of hW rfl | exact .inl (Sub.of hW rfl) | with_reducible exact .inr rfl
      | exact .inr (FencesStay.refl _) | exact .inr (by dsimp only) | exact .inr rfl
      | with_reducible exact (fun h => h : _ = true → _) | (dsimp only; exact (fun h => h : _ = true → _))
      | exact (fun h => h : _ = true → _)
      | with_reducible first
          | exact hE | apply answerRead_evolves | apply state_onTel_evolves
          | refine Evolves.ite (fun _ => ?_) (fun _ => ?_)
      | dsimp only | split

theorem execSampleReadRemove_evolves {path : Fin 5} {ps : List Part} {s₀ s : State} (hE : Evolves ps s₀ s)
    (hW : Sub [.paths, .sampling, .out] ps) :
    ∀ t, execSampleReadRemove path s = .next t → Evolves ps s₀ t := by
  intro t ht
  unfold execSampleReadRemove at ht
  repeat' first
    | (with_reducible obtain rfl := Host.Outcome.next.inj ht)
    | split at ht
    | dsimp only at ht
  all_goals
    repeat' first
      | exact Sub.of hW rfl | exact .inl (Sub.of hW rfl) | with_reducible exact .inr rfl
      | exact .inr (FencesStay.refl _) | exact .inr (by dsimp only) | exact .inr rfl
      | with_reducible exact (fun h => h : _ = true → _) | (dsimp only; exact (fun h => h : _ = true → _))
      | exact (fun h => h : _ = true → _)
      | with_reducible first
          | exact hE | apply answerRead_evolves | apply state_onTel_evolves
          | refine Evolves.ite (fun _ => ?_) (fun _ => ?_)
      | dsimp only | split

theorem execCoreClockEdge_evolves {steps : List Nat} {ps : List Part} {s₀ s : State} (hE : Evolves ps s₀ s)
    (hW : Sub [.time, .counters, .sampling, .commands, .contexts, .buffer, .traffic, .leash, .regs, .regSwc, .out,
      .clock] ps) :
    ∀ t, execCoreClockEdge steps s = .next t → Evolves ps s₀ t := by
  intro t ht
  unfold execCoreClockEdge at ht
  repeat' first
    | (with_reducible obtain rfl := Host.Outcome.next.inj ht)
    | split at ht
    | dsimp only at ht
  all_goals
    repeat' first
      | exact Sub.of hW rfl
      | with_reducible first
          | exact hE | apply sampleQueue_evolves | apply chargeSlots_evolves | apply ledger_evolves
          | apply advanceGts_evolves | apply pumpAll_evolves | apply serveC0_evolves
      | dsimp only

end Sys2Proof.Machine
end

