-- ==== Sys2Proof/Laws/FrameRegAccess.lean ====
section
/-! SUPPORT. What the operations of Machine/RegAccess.lean change at most: one lemma each. -/

namespace Sys2Proof.Machine

set_option linter.unusedTactic false
set_option linter.unreachableTactic false
set_option linter.unusedVariables false

theorem afterRead_evolves {addr : Nat} {ps : List Part} {s₀ s : State} (hE : Evolves ps s₀ s)
    (hW : Sub [.rings, .sessions, .counters, .sampling, .functions, .out] ps) :
    Evolves ps s₀ (afterRead addr s) := by
  unfold afterRead
  repeat' first
    | exact Sub.of hW rfl | exact .inl (Sub.of hW rfl) | with_reducible exact .inr rfl
    | exact .inr (FencesStay.refl _) | exact .inr (by dsimp only) | exact .inr rfl
    | with_reducible exact (fun h => h : _ = true → _) | (dsimp only; exact (fun h => h : _ = true → _))
    | exact (fun h => h : _ = true → _)
    | with_reducible first
        | exact hE | apply ringRemove_evolves | apply state_onTel_evolves
        | refine Evolves.ite (fun _ => ?_) (fun _ => ?_)
    | dsimp only | split
    | with_reducible first
        | refine Evolves.fst_of (by assumption) ?_ | refine Evolves.snd_of (by assumption) ?_

theorem beforeRead_evolves {addr : Nat} {ps : List Part} {s₀ s : State} (hE : Evolves ps s₀ s)
    (hW : Sub [.rings, .sampling] ps) :
    Evolves ps s₀ (beforeRead addr s) := by
  unfold beforeRead
  repeat' first
    | exact Sub.of hW rfl | exact .inl (Sub.of hW rfl) | with_reducible exact .inr rfl
    | exact .inr (FencesStay.refl _) | exact .inr (by dsimp only) | exact .inr rfl
    | with_reducible exact (fun h => h : _ = true → _) | (dsimp only; exact (fun h => h : _ = true → _))
    | exact (fun h => h : _ = true → _)
    | with_reducible first
        | exact hE | apply ringSnapshot_evolves | apply state_onTel_evolves
        | refine Evolves.ite (fun _ => ?_) (fun _ => ?_)
    | dsimp only | split
    | with_reducible first
        | refine Evolves.fst_of (by assumption) ?_ | refine Evolves.snd_of (by assumption) ?_

theorem clearDone_evolves {addr : Nat} {ps : List Part} {s₀ s : State} (hE : Evolves ps s₀ s)
    (hW : Sub [.regs, .regSwc, .regTmg, .regHep] ps) :
    Evolves ps s₀ (clearDone addr s) := by
  unfold clearDone
  repeat' first
    | exact Sub.of hW rfl
    | with_reducible first
        | exact hE | apply state_setFld_evolves | refine Evolves.ite (fun _ => ?_) (fun _ => ?_)
    | dsimp only | split

theorem clearRead_evolves {addr : Nat} {ps : List Part} {s₀ s : State} (hE : Evolves ps s₀ s)
    (hW : Sub [.fences, .buffer, .regs, regPart addr] ps) :
    Evolves ps s₀ (clearRead addr s) := by
  unfold clearRead
  repeat' first
    | exact Sub.of hW rfl | exact hW
    | (apply Sub.cons; repeat' first | exact Sub.nil | exact hW _ (by decide) | exact Sub.any (Sub.of hW rfl) | exact hW _ (by simp) | apply Sub.cons)
    | exact fun _ _ h => h | exact .inl (Sub.of hW rfl) | with_reducible exact .inr rfl
    | exact .inr (FencesStay.refl _) | exact .inr (by dsimp only) | exact .inr rfl
    | with_reducible exact (fun h => h : _ = true → _) | (dsimp only; exact (fun h => h : _ = true → _))
    | exact (fun h => h : _ = true → _)
    | with_reducible first
        | exact hE | apply state_onNet_evolves | apply onBlock_evolves
        | refine Evolves.ite (fun _ => ?_) (fun _ => ?_) | assumption
    | intro _ | dsimp only | split
    | with_reducible first
        | refine Evolves.fst_of (by assumption) ?_ | refine Evolves.snd_of (by assumption) ?_ | apply Evolves.regsWord

theorem writeOwnArray_evolves {path : Fin 5} {session : Nat} {addr : Nat} {value : Word} {ps : List Part} {s₀ s : State} (hE : Evolves ps s₀ s)
    (hW : Sub [.events, .fences, .rings, .sessions, .marks, .cores, .counters, .sampling, .controllers, .namespaces,
      .commands, .powerState, .contexts, .hbm, .mapping, .journal, .layoutWork, .ciphers, .storeWrites,
      .drivePorts, .driveSlots, .buffer, .traffic, .functions, .hostReads, .hostQueues, .leash, .replicas,
      .legs, .regs, .regCtl, .regPrt, .regSwc, .regLay, .regPwr, .regRed, .regTel, .out] ps) :
    ∀ r, writeOwnArray path session addr value s = some r → ∀ t, r = .next t → Evolves ps s₀ t := by
  intro r hr t ht
  unfold writeOwnArray at hr
  repeat' first
    | contradiction
    | (with_reducible obtain rfl := Option.some.inj hr)
    | dsimp only at hr
    | split at hr
  all_goals try split at ht
  all_goals first
    | (with_reducible refine execPrefixFenceOrder_evolves hE ?_ _ ht; exact Sub.of hW rfl)
    | (with_reducible refine execRingReaderBind_evolves hE ?_ _ ht; exact Sub.of hW rfl)
    | (with_reducible refine execTelSamplerWrite_evolves hE ?_ _ ht; exact Sub.of hW rfl)

theorem writeOwnLow_evolves {path : Fin 5} {session : Nat} {addr : Nat} {value : Word} {ps : List Part} {s₀ s : State} (hE : Evolves ps s₀ s)
    (hW : Sub [.events, .sessions, .bone, .marks, .counters, .sampling, .contextCache, .regions, .classifier, .stamps,
      .groups, .tables, .traffic, .regs, .regCtl, .regPrt, .regCls, .regSwc, .regTmg, .regXpt, .regCmd,
      .regLay, .regFix, .regDrv, .regCip, .regTru, .regPwr, .regHep, .regRed, .regTel, .out] ps) :
    ∀ r, writeOwnLow path session addr value s = some r → ∀ t, r = .next t → Evolves ps s₀ t := by
  intro r hr t ht
  unfold writeOwnLow at hr
  repeat' first
    | contradiction
    | (with_reducible obtain rfl := Option.some.inj hr)
    | dsimp only at hr
    | split at hr
  all_goals try split at ht
  all_goals first
    | (with_reducible refine execCtlLockSet_evolves hE ?_ _ ht; exact Sub.of hW rfl)
    | (with_reducible refine execBoneReqAcquire_evolves hE ?_ _ ht; exact Sub.of hW rfl)
    | (with_reducible refine execBoneReqRelease_evolves hE ?_ _ ht; exact Sub.of hW rfl)
    | (with_reducible refine execBoneReqRenew_evolves hE ?_ _ ht; exact Sub.of hW rfl)
    | (with_reducible refine execPrtTsCtrl_evolves hE ?_ _ ht; exact Sub.of hW rfl)
    | (with_reducible refine execClsRuleRead_evolves hE ?_ _ ht; exact Sub.of hW rfl)
    | (with_reducible refine execClsRuleWrite_evolves hE ?_ _ ht; exact Sub.of hW rfl)
    | (with_reducible refine execClsRuleInvalidate_evolves hE ?_ _ ht; exact Sub.of hW rfl)
    | (with_reducible refine execSwcMcRead_evolves hE ?_ _ ht; exact Sub.of hW rfl)
    | (with_reducible refine execSwcMcWrite_evolves hE ?_ _ ht; exact Sub.of hW rfl)
    | (with_reducible refine execTmgQRead_evolves hE ?_ _ ht; exact Sub.of hW rfl)
    | (with_reducible refine execTmgQWrite_evolves hE ?_ _ ht; exact Sub.of hW rfl)
    | (with_reducible refine execTmgPolRead_evolves hE ?_ _ ht; exact Sub.of hW rfl)
    | (with_reducible refine execTmgPolWrite_evolves hE ?_ _ ht; exact Sub.of hW rfl)
    | (with_reducible refine execTmgGateRead_evolves hE ?_ _ ht; exact Sub.of hW rfl)
    | (with_reducible refine execTmgGateWrite_evolves hE ?_ _ ht; exact Sub.of hW rfl)
    | (with_reducible refine execTmgGateCommit_evolves hE ?_ _ ht; exact Sub.of hW rfl)
    | (with_reducible refine execTmgGateStop_evolves hE ?_ _ ht; exact Sub.of hW rfl)
    | (with_reducible refine execTmgHistSel_evolves hE ?_ _ ht; exact Sub.of hW rfl)
    | (with_reducible refine execXptInvCtrl_evolves hE ?_ _ ht; exact Sub.of hW rfl)
    | (with_reducible refine execXptCtxSel_evolves hE ?_ _ ht; exact Sub.of hW rfl)

theorem writeOwnMid_evolves {path : Fin 5} {session : Nat} {addr : Nat} {value : Word} {ps : List Part} {s₀ s : State} (hE : Evolves ps s₀ s)
    (hW : Sub [.events, .sessions, .marks, .counters, .sampling, .boot, .controllers, .namespaces, .commands,
      .activation, .powerState, .contexts, .chains, .hbm, .mapping, .journal, .layoutWork, .ciphers, .trust,
      .jobs, .storeWrites, .drivePorts, .driveSlots, .buffer, .functions, .hostQueues, .leash, .replicas,
      .regs, .regCtl, .regSwc, .regLay, .regDrv, .out, .free] ps) :
    ∀ r, writeOwnMid path session addr value s = some r → ∀ t, r = .next t → Evolves ps s₀ t := by
  intro r hr t ht
  unfold writeOwnMid at hr
  repeat' first
    | contradiction
    | (with_reducible obtain rfl := Option.some.inj hr)
    | dsimp only at hr
    | split at hr
  all_goals try split at ht
  all_goals first
    | (with_reducible refine execActivateImage_evolves hE ?_ _ ht; exact Sub.of hW rfl)
    | (with_reducible refine execActivateFirmware_evolves hE ?_ _ ht; exact Sub.of hW rfl)
    | (with_reducible refine execLayCkptCtrlStart_evolves hE ?_ _ ht; exact Sub.of hW rfl)
    | (with_reducible refine execLayFormatOrder_evolves hE ?_ _ ht; exact Sub.of hW rfl)
    | (with_reducible refine execMigCutoverOrder_evolves hE ?_ _ ht; exact Sub.of hW rfl)
    | (with_reducible refine execMigAbortOrder_evolves hE ?_ _ ht; exact Sub.of hW rfl)
    | (with_reducible refine execDrvPortRetrain_evolves hE ?_ _ ht; exact Sub.of hW rfl)
    | (with_reducible refine execDrvPortDisable_evolves hE ?_ _ ht; exact Sub.of hW rfl)
    | (with_reducible refine execDrvPortEnable_evolves hE ?_ _ ht; exact Sub.of hW rfl)
    | (with_reducible refine execDrvPortRecover_evolves hE ?_ _ ht; exact Sub.of hW rfl)
    | (with_reducible refine execDrvPwrdisOrder_evolves hE ?_ _ ht; exact Sub.of hW rfl)

theorem writeOwnHigh_evolves {path : Fin 5} {session : Nat} {addr : Nat} {value : Word} {ps : List Part} {s₀ s : State} (hE : Evolves ps s₀ s)
    (hW : Sub [.events, .sessions, .marks, .counters, .snapshot, .sampling, .controllers, .namespaces, .commands,
      .powerState, .contexts, .mapping, .journal, .layoutWork, .keys, .keyOrders, .ciphers, .trust, .batches,
      .drivePorts, .driveSlots, .buffer, .functions, .hostQueues, .peerTable, .leash, .replicas, .roles, .legs,
      .regs, .regCtl, .regPrt, .regSwc, .regCip, .regTru, .regPwr, .regHep, .regRed, .regTel, .out] ps) :
    ∀ r, writeOwnHigh path session addr value s = some r → ∀ t, r = .next t → Evolves ps s₀ t := by
  intro r hr t ht
  unfold writeOwnHigh at hr
  repeat' first
    | contradiction
    | (with_reducible obtain rfl := Option.some.inj hr)
    | dsimp only at hr
    | split at hr
  all_goals try split at ht
  all_goals first
    | (with_reducible refine execKeyGenerate_evolves hE ?_ _ ht; exact Sub.of hW rfl)
    | (with_reducible refine execKeyImport_evolves hE ?_ _ ht; exact Sub.of hW rfl)
    | (with_reducible refine execKeyExport_evolves hE ?_ _ ht; exact Sub.of hW rfl)
    | (with_reducible refine execKeyDestroy_evolves hE ?_ _ ht; exact Sub.of hW rfl)
    | (with_reducible refine execKeyEscrowAgain_evolves hE ?_ _ ht; exact Sub.of hW rfl)
    | (with_reducible refine execTruRotate_evolves hE ?_ _ ht; exact Sub.of hW rfl)
    | (with_reducible refine execTruRollback_evolves hE ?_ _ ht; exact Sub.of hW rfl)
    | (with_reducible refine execTruEnrolImageKey_evolves hE ?_ _ ht; exact Sub.of hW rfl)
    | (with_reducible refine execTruRemoveImageKey_evolves hE ?_ _ ht; exact Sub.of hW rfl)
    | (with_reducible refine execPwrLegOnOrder_evolves hE ?_ _ ht; exact Sub.of hW rfl)
    | (with_reducible refine execPwrLegOffOrder_evolves hE ?_ _ ht; exact Sub.of hW rfl)
    | (with_reducible refine execHepPwinCommit_evolves hE ?_ _ ht; exact Sub.of hW rfl)
    | (with_reducible refine execHepPptRead_evolves hE ?_ _ ht; exact Sub.of hW rfl)
    | (with_reducible refine execHepPptWrite_evolves hE ?_ _ ht; exact Sub.of hW rfl)
    | (with_reducible refine execRedRoleSwitch_evolves hE ?_ _ ht; exact Sub.of hW rfl)
    | (with_reducible refine execRedRoleFence_evolves hE ?_ _ ht; exact Sub.of hW rfl)
    | (with_reducible refine execRedRoleRelease_evolves hE ?_ _ ht; exact Sub.of hW rfl)
    | (with_reducible refine execRedRoleStandDown_evolves hE ?_ _ ht; exact Sub.of hW rfl)
    | (with_reducible refine execTelSnapStart_evolves hE ?_ _ ht; exact Sub.of hW rfl)

theorem unmapped_evolves {path : Nat} {addr : Nat} {ps : List Part} {s₀ s : State} (hE : Evolves ps s₀ s)
    (hW : Sub [.events, .fences, .counters, .sampling] ps) :
    Evolves ps s₀ (unmapped path addr s) := by
  unfold unmapped
  repeat' first
    | exact Sub.of hW rfl | exact fun _ _ h => h
    | with_reducible first
        | exact hE | apply onBlock_evolves | apply emit_evolves | assumption
    | intro _ | dsimp only

theorem onPath_evolves {path : Nat} {f : PathState → PathState} {ps : List Part} {s₀ s : State} (hE : Evolves ps s₀ s)
    (hW : Sub [.paths] ps) :
    Evolves ps s₀ (onPath path f s) := by
  unfold onPath
  repeat' first
    | exact Sub.of hW rfl | exact .inl (Sub.of hW rfl) | with_reducible exact .inr rfl
    | exact .inr (FencesStay.refl _) | exact .inr (by dsimp only) | exact .inr rfl
    | with_reducible exact (fun h => h : _ = true → _) | (dsimp only; exact (fun h => h : _ = true → _))
    | exact (fun h => h : _ = true → _) | exact rfl | exact Nat.le_refl _
    | with_reducible first
        | exact hE | apply state_onCtl_evolves | apply hf | assumption
    | intro _ | dsimp only

theorem writePlain_evolves {path : Nat} {session : Nat} {addr : Nat} {value : Word} {ps : List Part} {s₀ s : State} (hE : Evolves ps s₀ s)
    (hW : Sub [.events, .time, .paths, .fences, .sessions, .marks, .counters, .sampling, .commands, .batches,
      .drivePorts, .punts, .traffic, .regs, .regCtl, .regPrt, .regCls, .regSwc, .regTmg, .regXpt, .regCmd,
      .regLay, .regFix, .regDrv, .regCip, .regTru, .regPwr, .regHep, .regRed, .regTel, .out] ps) :
    Evolves ps s₀ (writePlain path session addr value s) := by
  unfold writePlain
  repeat' first
    | exact Sub.of hW rfl
    | (apply Sub.cons; repeat' first | exact Sub.nil | exact hW _ (by decide) | exact Sub.any (Sub.of hW rfl) | exact hW _ (by simp) | apply Sub.cons)
    | exact fun _ _ h => h | exact .inl (Sub.of hW rfl) | with_reducible exact .inr rfl
    | exact .inr (FencesStay.refl _) | exact .inr (by dsimp only) | exact .inr rfl
    | with_reducible exact (fun h => h : _ = true → _) | (dsimp only; exact (fun h => h : _ = true → _))
    | exact (fun h => h : _ = true → _) | exact rfl | exact Nat.le_refl _ | exact Nat.le_add_right _ _
    | with_reducible first
        | exact hE | apply unmapped_evolves | apply refuse_evolves | apply writeGate_evolves | apply storeWord_evolves
        | apply onBlock_evolves | apply onPath_evolves | apply storeOrdered_evolves | apply onGts_evolves
        | apply fansWrite_evolves | apply settleWrite_evolves | apply clearDone_evolves | apply periodChanged_evolves
        | apply followL1_evolves | apply ptpFollows_evolves | apply syncAllPfc_evolves
        | refine Evolves.ite (fun _ => ?_) (fun _ => ?_) | assumption
    | intro _ | dsimp only | split
    | with_reducible first
        | refine Evolves.fst_of (by assumption) ?_ | refine Evolves.snd_of (by assumption) ?_

theorem writeReg_evolves {path : Fin 5} {session : Nat} {addr : Nat} {value : Word} {ps : List Part} {s₀ s : State} (hE : Evolves ps s₀ s)
    (hW : Sub [.events, .time, .paths, .fences, .rings, .sessions, .bone, .marks, .cores, .counters, .snapshot,
      .sampling, .boot, .controllers, .namespaces, .commands, .activation, .powerState, .contexts,
      .contextCache, .regions, .chains, .hbm, .mapping, .journal, .layoutWork, .keys, .keyOrders, .ciphers,
      .trust, .batches, .jobs, .storeWrites, .drivePorts, .driveSlots, .classifier, .punts, .stamps, .buffer,
      .groups, .tables, .traffic, .functions, .hostReads, .hostQueues, .peerTable, .leash, .replicas, .roles,
      .legs, .regs, .regCtl, .regPrt, .regCls, .regSwc, .regTmg, .regXpt, .regCmd, .regLay, .regFix, .regDrv,
      .regCip, .regTru, .regPwr, .regHep, .regRed, .regTel, .out, .free] ps) :
    Evolves ps s₀ (writeReg path session addr value s) := by
  unfold writeReg
  split
  · exact stateOf_evolves hE (fun _ h => writeOwnArray_evolves hE (Sub.of hW rfl) _ (by assumption) _ h) (Sub.of hW rfl)
  · exact stateOf_evolves hE (fun _ h => writeOwnLow_evolves hE (Sub.of hW rfl) _ (by assumption) _ h) (Sub.of hW rfl)
  · exact stateOf_evolves hE (fun _ h => writeOwnMid_evolves hE (Sub.of hW rfl) _ (by assumption) _ h) (Sub.of hW rfl)
  · exact stateOf_evolves hE (fun _ h => writeOwnHigh_evolves hE (Sub.of hW rfl) _ (by assumption) _ h) (Sub.of hW rfl)
  · exact writePlain_evolves hE (Sub.of hW rfl)

theorem execRegisterWrite_evolves {path : Fin 5} {session : Nat} {addr : Nat} {value : Word} {ps : List Part} {s₀ s : State} (hE : Evolves ps s₀ s)
    (hW : Sub [.events, .time, .paths, .fences, .rings, .sessions, .bone, .marks, .cores, .counters, .snapshot,
      .sampling, .boot, .controllers, .namespaces, .commands, .activation, .powerState, .contexts,
      .contextCache, .regions, .chains, .hbm, .mapping, .journal, .layoutWork, .keys, .keyOrders, .ciphers,
      .trust, .batches, .jobs, .storeWrites, .drivePorts, .driveSlots, .classifier, .punts, .stamps, .buffer,
      .groups, .tables, .traffic, .functions, .hostReads, .hostQueues, .peerTable, .leash, .replicas, .roles,
      .legs, .regs, .regCtl, .regPrt, .regCls, .regSwc, .regTmg, .regXpt, .regCmd, .regLay, .regFix, .regDrv,
      .regCip, .regTru, .regPwr, .regHep, .regRed, .regTel, .out, .free] ps) :
    ∀ t, execRegisterWrite path session addr value s = .next t → Evolves ps s₀ t := by
  intro t ht
  unfold execRegisterWrite at ht
  repeat' first
    | (with_reducible obtain rfl := Host.Outcome.next.inj ht)
    | split at ht
    | dsimp only at ht
  all_goals
    repeat' first
      | exact Sub.of hW rfl
      | with_reducible first
          | exact hE | apply writeReg_evolves
      | dsimp only

theorem readReg_evolves {path : Nat} {addr : Nat} {ps : List Part} {s₀ s : State} (hE : Evolves ps s₀ s)
    (hW : Sub [.events, .paths, .fences, .rings, .sessions, .counters, .sampling, .buffer, .functions, .regs, .out,
      regPart addr] ps) :
    Evolves ps s₀ (readReg path addr s).1 := by
  unfold readReg
  repeat' first
    | exact Sub.of hW rfl | exact hW
    | (apply Sub.cons; repeat' first | exact Sub.nil | exact hW _ (by decide) | exact Sub.any (Sub.of hW rfl) | exact hW _ (by simp) | apply Sub.cons)
    | with_reducible first
        | exact hE | apply unmapped_evolves | apply beforeRead_evolves | apply onPath_evolves
        | apply afterRead_evolves | apply clearRead_evolves | refine Evolves.ite (fun _ => ?_) (fun _ => ?_)
        | assumption
    | intro _ | dsimp only | split
    | with_reducible first
        | refine Evolves.fst_of (by assumption) ?_ | refine Evolves.snd_of (by assumption) ?_

theorem readAccess_evolves {path : Fin 5} {addr : Nat} {ps : List Part} {s₀ s : State} (hE : Evolves ps s₀ s)
    (hW : Sub [.events, .paths, .fences, .rings, .sessions, .counters, .sampling, .buffer, .functions, .regs, .out,
      regPart addr] ps) :
    Evolves ps s₀ (readAccess path addr s) := by
  unfold readAccess
  repeat' first
    | exact Sub.of hW rfl | exact hW
    | (apply Sub.cons; repeat' first | exact Sub.nil | exact hW _ (by decide) | exact Sub.any (Sub.of hW rfl) | exact hW _ (by simp) | apply Sub.cons)
    | with_reducible first
        | exact hE | apply answerRead_evolves | apply readReg_evolves | apply state_send_evolves
        | refine Evolves.ite (fun _ => ?_) (fun _ => ?_)
    | dsimp only | split
    | with_reducible first
        | refine Evolves.fst_of (by assumption) ?_ | refine Evolves.snd_of (by assumption) ?_

theorem execRcFieldRead_evolves {path : Fin 5} {addr : Nat} {ps : List Part} {s₀ s : State} (hE : Evolves ps s₀ s)
    (hW : Sub [.events, .paths, .fences, .rings, .sessions, .counters, .sampling, .buffer, .functions, .regs, .out,
      regPart addr] ps) :
    ∀ t, execRcFieldRead path addr s = .next t → Evolves ps s₀ t := by
  intro t ht
  unfold execRcFieldRead at ht
  repeat' first
    | (with_reducible obtain rfl := Host.Outcome.next.inj ht)
    | split at ht
    | dsimp only at ht
  all_goals
    repeat' first
      | exact Sub.of hW rfl | exact hW
      | (apply Sub.cons; repeat' first | exact Sub.nil | exact hW _ (by decide) | exact Sub.any (Sub.of hW rfl) | exact hW _ (by simp) | apply Sub.cons)
      | with_reducible first
          | exact hE | apply readAccess_evolves
      | dsimp only

theorem execPairLowWordRead_evolves {path : Fin 5} {addr : Nat} {ps : List Part} {s₀ s : State} (hE : Evolves ps s₀ s)
    (hW : Sub [.events, .paths, .fences, .rings, .sessions, .counters, .sampling, .buffer, .functions, .regs, .out,
      regPart addr] ps) :
    ∀ t, execPairLowWordRead path addr s = .next t → Evolves ps s₀ t := by
  intro t ht
  unfold execPairLowWordRead at ht
  repeat' first
    | (with_reducible obtain rfl := Host.Outcome.next.inj ht)
    | split at ht
    | dsimp only at ht
  all_goals
    repeat' first
      | exact Sub.of hW rfl | exact hW
      | (apply Sub.cons; repeat' first | exact Sub.nil | exact hW _ (by decide) | exact Sub.any (Sub.of hW rfl) | exact hW _ (by simp) | apply Sub.cons)
      | with_reducible first
          | exact hE | apply readAccess_evolves
      | dsimp only

theorem execPairHighWordRead_evolves {path : Fin 5} {addr : Nat} {ps : List Part} {s₀ s : State} (hE : Evolves ps s₀ s)
    (hW : Sub [.events, .paths, .fences, .rings, .sessions, .counters, .sampling, .buffer, .functions, .regs, .out,
      regPart addr] ps) :
    ∀ t, execPairHighWordRead path addr s = .next t → Evolves ps s₀ t := by
  intro t ht
  unfold execPairHighWordRead at ht
  repeat' first
    | (with_reducible obtain rfl := Host.Outcome.next.inj ht)
    | split at ht
    | dsimp only at ht
  all_goals
    repeat' first
      | exact Sub.of hW rfl | exact hW
      | (apply Sub.cons; repeat' first | exact Sub.nil | exact hW _ (by decide) | exact Sub.any (Sub.of hW rfl) | exact hW _ (by simp) | apply Sub.cons)
      | with_reducible first
          | exact hE | apply readAccess_evolves
      | dsimp only

theorem execPairLowWordWrite_evolves {path : Fin 5} {session : Nat} {addr : Nat} {value : Word} {ps : List Part} {s₀ s : State} (hE : Evolves ps s₀ s)
    (hW : Sub [.events, .time, .paths, .fences, .rings, .sessions, .bone, .marks, .cores, .counters, .snapshot,
      .sampling, .boot, .controllers, .namespaces, .commands, .activation, .powerState, .contexts,
      .contextCache, .regions, .chains, .hbm, .mapping, .journal, .layoutWork, .keys, .keyOrders, .ciphers,
      .trust, .batches, .jobs, .storeWrites, .drivePorts, .driveSlots, .classifier, .punts, .stamps, .buffer,
      .groups, .tables, .traffic, .functions, .hostReads, .hostQueues, .peerTable, .leash, .replicas, .roles,
      .legs, .regs, .regCtl, .regPrt, .regCls, .regSwc, .regTmg, .regXpt, .regCmd, .regLay, .regFix, .regDrv,
      .regCip, .regTru, .regPwr, .regHep, .regRed, .regTel, .out, .free] ps) :
    ∀ t, execPairLowWordWrite path session addr value s = .next t → Evolves ps s₀ t := by
  intro t ht
  unfold execPairLowWordWrite at ht
  repeat' first
    | (with_reducible obtain rfl := Host.Outcome.next.inj ht)
    | split at ht
    | dsimp only at ht
  all_goals
    repeat' first
      | exact Sub.of hW rfl
      | with_reducible first
          | exact hE | apply writeReg_evolves
      | dsimp only

theorem execPairHighWordWrite_evolves {path : Fin 5} {session : Nat} {addr : Nat} {value : Word} {ps : List Part} {s₀ s : State} (hE : Evolves ps s₀ s)
    (hW : Sub [.events, .time, .paths, .fences, .rings, .sessions, .bone, .marks, .cores, .counters, .snapshot,
      .sampling, .boot, .controllers, .namespaces, .commands, .activation, .powerState, .contexts,
      .contextCache, .regions, .chains, .hbm, .mapping, .journal, .layoutWork, .keys, .keyOrders, .ciphers,
      .trust, .batches, .jobs, .storeWrites, .drivePorts, .driveSlots, .classifier, .punts, .stamps, .buffer,
      .groups, .tables, .traffic, .functions, .hostReads, .hostQueues, .peerTable, .leash, .replicas, .roles,
      .legs, .regs, .regCtl, .regPrt, .regCls, .regSwc, .regTmg, .regXpt, .regCmd, .regLay, .regFix, .regDrv,
      .regCip, .regTru, .regPwr, .regHep, .regRed, .regTel, .out, .free] ps) :
    ∀ t, execPairHighWordWrite path session addr value s = .next t → Evolves ps s₀ t := by
  intro t ht
  unfold execPairHighWordWrite at ht
  repeat' first
    | (with_reducible obtain rfl := Host.Outcome.next.inj ht)
    | split at ht
    | dsimp only at ht
  all_goals
    repeat' first
      | exact Sub.of hW rfl
      | with_reducible first
          | exact hE | apply writeReg_evolves
      | dsimp only

theorem execAddrUnmapped_evolves {path : Fin 5} {addr : Nat} {isWrite : Bool} {ps : List Part} {s₀ s : State} (hE : Evolves ps s₀ s)
    (hW : Sub [.events, .paths, .fences, .rings, .sessions, .counters, .sampling, .buffer, .functions, .regs, .out,
      regPart addr] ps) :
    ∀ t, execAddrUnmapped path addr isWrite s = .next t → Evolves ps s₀ t := by
  intro t ht
  unfold execAddrUnmapped at ht
  repeat' first
    | (with_reducible obtain rfl := Host.Outcome.next.inj ht)
    | split at ht
    | dsimp only at ht
  all_goals
    repeat' first
      | exact Sub.of hW rfl | exact hW
      | (apply Sub.cons; repeat' first | exact Sub.nil | exact hW _ (by decide) | exact Sub.any (Sub.of hW rfl) | exact hW _ (by simp) | apply Sub.cons)
      | with_reducible first
          | exact hE | apply unmapped_evolves | apply readAccess_evolves
          | refine Evolves.ite (fun _ => ?_) (fun _ => ?_)
      | dsimp only | split

theorem execUnsupportedRequestBar0_evolves {addr : Nat} {ps : List Part} {s₀ s : State} (hE : Evolves ps s₀ s)
    (hW : Sub [.out] ps) :
    ∀ t, execUnsupportedRequestBar0 addr s = .next t → Evolves ps s₀ t := by
  intro t ht
  unfold execUnsupportedRequestBar0 at ht
  repeat' first
    | (with_reducible obtain rfl := Host.Outcome.next.inj ht)
    | split at ht
    | dsimp only at ht
  all_goals
    repeat' first
      | exact Sub.of hW rfl
      | with_reducible first
          | exact hE | apply state_send_evolves
      | dsimp only

end Sys2Proof.Machine
end

