-- ==== Sys2Proof/Laws/FrameManagement.lean ====
section
/-! SUPPORT. What the operations of Machine/Management.lean change at most: one lemma each. -/

namespace Sys2Proof.Machine

set_option linter.unusedTactic false
set_option linter.unreachableTactic false
set_option linter.unusedVariables false

theorem allocPages_evolves {x0 : Nat} {ps : List Part} {s₀ x1 : State} (hE : Evolves ps s₀ x1)
    (hW : Sub [.buffer, .regs, .regSwc] ps) :
    ∀ a t, allocPages x0 x1 = some (a, t) → Evolves ps s₀ t := by
  induction x0 generalizing x1 with
  | zero =>
    intro a t ht
    simp only [allocPages, Option.some.injEq, Prod.mk.injEq] at ht
    exact ht.2 ▸ hE
  | succ n ih =>
    intro a t ht
    simp only [allocPages] at ht
    split at ht
    · cases ht
    · obtain ⟨r, hr, hrt⟩ := Option.map_eq_some_iff.mp ht
      obtain ⟨-, rfl⟩ := Prod.mk.inj hrt
      exact ih (state_onNet_evolves (allocChain_evolves hE (Sub.of hW rfl) _ _ (by assumption)) (.inr rfl)
        (.inr rfl) (.inr rfl) (.inl (Sub.of hW rfl)) (.inr rfl) (.inr rfl) (.inr rfl) fun h => h) _ _ hr

theorem readRegs_evolves {path : Nat} {addr : Nat} {count : Nat} {ps : List Part} {s₀ s : State} (hE : Evolves ps s₀ s)
    (hW : Sub [.events, .paths, .fences, .rings, .sessions, .counters, .sampling, .buffer, .functions, .regs, .regCtl,
      .regPrt, .regCls, .regSwc, .regTmg, .regXpt, .regCmd, .regLay, .regFix, .regDrv, .regCip, .regTru,
      .regPwr, .regHep, .regRed, .regTel, .out] ps) :
    Evolves ps s₀ (readRegs path addr count s).1 := by
  unfold readRegs
  repeat' first
    | exact Sub.of hW rfl
    | (apply Sub.cons; repeat' first | exact Sub.nil | exact hW _ (by decide) | exact Sub.any (Sub.of hW rfl) | exact hW _ (by simp) | apply Sub.cons)
    | with_reducible first
        | exact hE | apply readReg_evolves | refine Evolves.foldl ?_ ?_ | refine Evolves.foldl_fst ?_ ?_
        | refine Evolves.foldl_snd ?_ ?_ | assumption
    | intro _ | dsimp only | split
    | with_reducible first
        | refine Evolves.fst_of (by assumption) ?_ | refine Evolves.snd_of (by assumption) ?_

theorem execRegRead_evolves {r : Req} {addr : Nat} {count : Nat} {ps : List Part} {s₀ s : State} (hE : Evolves ps s₀ s)
    (hW : Sub [.events, .paths, .fences, .rings, .sessions, .bone, .counters, .sampling, .buffer, .functions, .regs,
      .regCtl, .regPrt, .regCls, .regSwc, .regTmg, .regXpt, .regCmd, .regLay, .regFix, .regDrv, .regCip,
      .regTru, .regPwr, .regHep, .regRed, .regTel, .out] ps) :
    ∀ t, execRegRead r addr count s = .next t → Evolves ps s₀ t := by
  intro t ht
  unfold execRegRead at ht
  repeat' first
    | (with_reducible obtain rfl := Host.Outcome.next.inj ht)
    | split at ht
    | dsimp only at ht
  all_goals
    repeat' first
      | exact Sub.of hW rfl
      | with_reducible first
          | exact hE | apply serve_evolves | apply readRegs_evolves | refine Evolves.ite (fun _ => ?_) (fun _ => ?_)
          | assumption
      | intro _ | dsimp only | split
      | with_reducible first
          | refine Evolves.fst_of (by assumption) ?_ | refine Evolves.snd_of (by assumption) ?_

theorem writePairs_evolves {path : Fin 5} {session : Nat} {pairs : List (Nat × Word)} {ps : List Part} {s₀ s : State} (hE : Evolves ps s₀ s)
    (hW : Sub [.events, .time, .paths, .fences, .rings, .sessions, .bone, .marks, .cores, .counters, .snapshot,
      .sampling, .boot, .controllers, .namespaces, .commands, .activation, .powerState, .contexts,
      .contextCache, .regions, .chains, .hbm, .mapping, .journal, .layoutWork, .keys, .keyOrders, .ciphers,
      .trust, .batches, .jobs, .storeWrites, .drivePorts, .driveSlots, .classifier, .punts, .stamps, .buffer,
      .groups, .tables, .traffic, .functions, .hostReads, .hostQueues, .peerTable, .leash, .replicas, .roles,
      .legs, .regs, .regCtl, .regPrt, .regCls, .regSwc, .regTmg, .regXpt, .regCmd, .regLay, .regFix, .regDrv,
      .regCip, .regTru, .regPwr, .regHep, .regRed, .regTel, .out, .free] ps) :
    Evolves ps s₀ (writePairs path session pairs s).1 := by
  unfold writePairs
  repeat' first
    | exact Sub.of hW rfl
    | with_reducible first
        | exact hE | apply writeReg_evolves | refine Evolves.foldl ?_ ?_ | refine Evolves.foldl_fst ?_ ?_
        | refine Evolves.foldl_snd ?_ ?_ | assumption
    | intro _ | dsimp only

theorem execRegWrite_evolves {r : Req} {pairs : List (Nat × Word)} {ps : List Part} {s₀ s : State} (hE : Evolves ps s₀ s)
    (hW : Sub [.events, .time, .paths, .fences, .rings, .sessions, .bone, .marks, .cores, .counters, .snapshot,
      .sampling, .boot, .controllers, .namespaces, .commands, .activation, .powerState, .contexts,
      .contextCache, .regions, .chains, .hbm, .mapping, .journal, .layoutWork, .keys, .keyOrders, .ciphers,
      .trust, .batches, .jobs, .storeWrites, .drivePorts, .driveSlots, .classifier, .punts, .stamps, .buffer,
      .groups, .tables, .traffic, .functions, .hostReads, .hostQueues, .peerTable, .leash, .replicas, .roles,
      .legs, .regs, .regCtl, .regPrt, .regCls, .regSwc, .regTmg, .regXpt, .regCmd, .regLay, .regFix, .regDrv,
      .regCip, .regTru, .regPwr, .regHep, .regRed, .regTel, .out, .free] ps) :
    ∀ t, execRegWrite r pairs s = .next t → Evolves ps s₀ t := by
  intro t ht
  unfold execRegWrite at ht
  repeat' first
    | (with_reducible obtain rfl := Host.Outcome.next.inj ht)
    | split at ht
    | dsimp only at ht
  all_goals
    repeat' first
      | exact Sub.of hW rfl
      | with_reducible first
          | exact hE | apply serve_evolves | apply writePairs_evolves | refine Evolves.ite (fun _ => ?_) (fun _ => ?_)
          | assumption
      | intro _ | dsimp only | split
      | with_reducible first
          | refine Evolves.fst_of (by assumption) ?_ | refine Evolves.snd_of (by assumption) ?_

theorem execKeyPut_evolves {r : Req} {blob : Bytes} {ps : List Part} {s₀ s : State} (hE : Evolves ps s₀ s)
    (hW : Sub [.sessions, .bone, .keyOrders, .regs, .regCtl, .out] ps) :
    ∀ t, execKeyPut r blob s = .next t → Evolves ps s₀ t := by
  intro t ht
  unfold execKeyPut at ht
  repeat' first
    | (with_reducible obtain rfl := Host.Outcome.next.inj ht)
    | split at ht
    | dsimp only at ht
  all_goals
    repeat' first
      | exact Sub.of hW rfl | exact .inl (Sub.of hW rfl) | with_reducible exact .inr rfl
      | exact .inr (FencesStay.refl _) | exact .inr (by dsimp only) | exact .inr rfl
      | with_reducible exact (fun h => h : _ = true → _) | (dsimp only; exact (fun h => h : _ = true → _))
      | exact (fun h => h : _ = true → _)
      | with_reducible first
          | exact hE | apply serve_evolves | apply state_onCip_evolves | refine Evolves.ite (fun _ => ?_) (fun _ => ?_)
          | assumption
      | intro _ | dsimp only | split

theorem execKeyGet_evolves {r : Req} {ps : List Part} {s₀ s : State} (hE : Evolves ps s₀ s)
    (hW : Sub [.sessions, .bone, .keyOrders, .regs, .regCtl, .out] ps) :
    ∀ t, execKeyGet r s = .next t → Evolves ps s₀ t := by
  intro t ht
  unfold execKeyGet at ht
  repeat' first
    | (with_reducible obtain rfl := Host.Outcome.next.inj ht)
    | split at ht
    | dsimp only at ht
  all_goals
    repeat' first
      | exact Sub.of hW rfl | exact .inl (Sub.of hW rfl) | with_reducible exact .inr rfl
      | exact .inr (FencesStay.refl _) | exact .inr (by dsimp only) | exact .inr rfl
      | with_reducible exact (fun h => h : _ = true → _) | (dsimp only; exact (fun h => h : _ = true → _))
      | exact (fun h => h : _ = true → _)
      | with_reducible first
          | exact hE | apply serve_evolves | apply state_onCip_evolves | refine Evolves.ite (fun _ => ?_) (fun _ => ?_)
          | assumption
      | intro _ | dsimp only | split

theorem execEscrowCollect_evolves {r : Req} {count : Nat} {ps : List Part} {s₀ s : State} (hE : Evolves ps s₀ s)
    (hW : Sub [.sessions, .bone, .keyOrders, .regs, .regCtl, .out] ps) :
    ∀ t, execEscrowCollect r count s = .next t → Evolves ps s₀ t := by
  intro t ht
  unfold execEscrowCollect at ht
  repeat' first
    | (with_reducible obtain rfl := Host.Outcome.next.inj ht)
    | split at ht
    | dsimp only at ht
  all_goals
    repeat' first
      | exact Sub.of hW rfl | exact .inl (Sub.of hW rfl) | with_reducible exact .inr rfl
      | exact .inr (FencesStay.refl _) | exact .inr (by dsimp only) | exact .inr rfl
      | with_reducible exact (fun h => h : _ = true → _) | (dsimp only; exact (fun h => h : _ = true → _))
      | exact (fun h => h : _ = true → _)
      | with_reducible first
          | exact hE | apply serve_evolves | apply state_onCip_evolves | assumption
      | intro _ | dsimp only

theorem execReceiptGet_evolves {r : Req} {name : LeafName} {ps : List Part} {s₀ s : State} (hE : Evolves ps s₀ s)
    (hW : Sub [.sessions, .bone, .regs, .regCtl, .out] ps) :
    ∀ t, execReceiptGet r name s = .next t → Evolves ps s₀ t := by
  intro t ht
  unfold execReceiptGet at ht
  repeat' first
    | (with_reducible obtain rfl := Host.Outcome.next.inj ht)
    | split at ht
    | dsimp only at ht
  all_goals
    repeat' first
      | exact Sub.of hW rfl
      | with_reducible first
          | exact hE | apply serve_evolves | assumption
      | intro _ | dsimp only | split
      | with_reducible first
          | refine Evolves.fst_of (by assumption) ?_ | refine Evolves.snd_of (by assumption) ?_

theorem execCustodyExport_evolves {r : Req} {name : LeafName} {ps : List Part} {s₀ s : State} (hE : Evolves ps s₀ s)
    (hW : Sub [.sessions, .bone, .regs, .regCtl, .out] ps) :
    ∀ t, execCustodyExport r name s = .next t → Evolves ps s₀ t := by
  intro t ht
  unfold execCustodyExport at ht
  repeat' first
    | (with_reducible obtain rfl := Host.Outcome.next.inj ht)
    | split at ht
    | dsimp only at ht
  all_goals
    repeat' first
      | exact Sub.of hW rfl
      | with_reducible first
          | exact hE | apply serve_evolves | assumption
      | intro _ | dsimp only | split
      | with_reducible first
          | refine Evolves.fst_of (by assumption) ?_ | refine Evolves.snd_of (by assumption) ?_

theorem execCertGet_evolves {r : Req} {kind : Nat} {rotation : Nat} {ps : List Part} {s₀ s : State} (hE : Evolves ps s₀ s)
    (hW : Sub [.sessions, .bone, .regs, .regCtl, .out] ps) :
    ∀ t, execCertGet r kind rotation s = .next t → Evolves ps s₀ t := by
  intro t ht
  unfold execCertGet at ht
  repeat' first
    | (with_reducible obtain rfl := Host.Outcome.next.inj ht)
    | split at ht
    | dsimp only at ht
  all_goals
    repeat' first
      | exact Sub.of hW rfl
      | with_reducible first
          | exact hE | apply serve_evolves | refine Evolves.ite (fun _ => ?_) (fun _ => ?_) | assumption
      | intro _ | dsimp only | split
      | with_reducible first
          | refine Evolves.fst_of (by assumption) ?_ | refine Evolves.snd_of (by assumption) ?_

theorem execQuote_evolves {r : Req} {nonce : Bytes} {ps : List Part} {s₀ s : State} (hE : Evolves ps s₀ s)
    (hW : Sub [.events, .sessions, .bone, .counters, .sampling, .regs, .regCtl, .regTru, .out, .free] ps) :
    ∀ t, execQuote r nonce s = .next t → Evolves ps s₀ t := by
  intro t ht
  unfold execQuote at ht
  repeat' first
    | (with_reducible obtain rfl := Host.Outcome.next.inj ht)
    | split at ht
    | dsimp only at ht
  all_goals
    repeat' first
      | exact Sub.of hW rfl
      | with_reducible first
          | exact hE | apply serve_evolves | apply emit_evolves | apply sign192_evolves
          | refine Evolves.ite (fun _ => ?_) (fun _ => ?_) | assumption
      | intro _ | dsimp only | split

theorem execMigJobCreate_evolves {r : Req} {items : MigItems} {ps : List Part} {s₀ s : State} (hE : Evolves ps s₀ s)
    (hW : Sub [.events, .sessions, .bone, .counters, .sampling, .keys, .jobs, .regs, .regCtl, .out] ps) :
    ∀ t, execMigJobCreate r items s = .next t → Evolves ps s₀ t := by
  intro t ht
  unfold execMigJobCreate at ht
  repeat' first
    | (with_reducible obtain rfl := Host.Outcome.next.inj ht)
    | split at ht
    | dsimp only at ht
  all_goals
    repeat' first
      | exact Sub.of hW rfl
      | with_reducible first
          | exact hE | apply serve_evolves | apply onSlot_evolves | apply migState_evolves | apply onJob_evolves
          | refine Evolves.ite (fun _ => ?_) (fun _ => ?_) | assumption
      | intro _ | dsimp only | split
      | with_reducible first
          | refine Evolves.fst_of (by assumption) ?_ | refine Evolves.snd_of (by assumption) ?_

theorem execMigJobReport_evolves {r : Req} {slot : Nat} {ps : List Part} {s₀ s : State} (hE : Evolves ps s₀ s)
    (hW : Sub [.sessions, .bone, .regs, .regCtl, .out] ps) :
    ∀ t, execMigJobReport r slot s = .next t → Evolves ps s₀ t := by
  intro t ht
  unfold execMigJobReport at ht
  repeat' first
    | (with_reducible obtain rfl := Host.Outcome.next.inj ht)
    | split at ht
    | dsimp only at ht
  all_goals
    repeat' first
      | exact Sub.of hW rfl
      | with_reducible first
          | exact hE | apply serve_evolves | refine Evolves.ite (fun _ => ?_) (fun _ => ?_) | assumption
      | intro _ | dsimp only | split

theorem execCellsAlloc_evolves {r : Req} {pages : Nat} {ps : List Part} {s₀ s : State} (hE : Evolves ps s₀ s)
    (hW : Sub [.sessions, .bone, .buffer, .regs, .regCtl, .regSwc, .out] ps) :
    ∀ t, execCellsAlloc r pages s = .next t → Evolves ps s₀ t := by
  intro t ht
  unfold execCellsAlloc at ht
  repeat' first
    | (with_reducible obtain rfl := Host.Outcome.next.inj ht)
    | split at ht
    | dsimp only at ht
  all_goals
    repeat' first
      | exact Sub.of hW rfl
      | with_reducible first
          | exact hE | apply serve_evolves | refine allocPages_evolves ?_ (Sub.of hW rfl) _ _ (by assumption)
          | refine Evolves.ite (fun _ => ?_) (fun _ => ?_) | assumption
      | intro _ | dsimp only | split
      | with_reducible first
          | refine Evolves.fst_of (by assumption) ?_ | refine Evolves.snd_of (by assumption) ?_

theorem execCellsFree_evolves {r : Req} {handles : List Nat} {ps : List Part} {s₀ s : State} (hE : Evolves ps s₀ s)
    (hW : Sub [.sessions, .bone, .buffer, .regs, .regCtl, .regSwc, .out] ps) :
    ∀ t, execCellsFree r handles s = .next t → Evolves ps s₀ t := by
  intro t ht
  unfold execCellsFree at ht
  repeat' first
    | (with_reducible obtain rfl := Host.Outcome.next.inj ht)
    | split at ht
    | dsimp only at ht
  all_goals
    repeat' first
      | exact Sub.of hW rfl | exact .inl (Sub.of hW rfl) | with_reducible exact .inr rfl
      | exact .inr (FencesStay.refl _) | exact .inr (by dsimp only) | exact .inr rfl
      | with_reducible exact (fun h => h : _ = true → _) | (dsimp only; exact (fun h => h : _ = true → _))
      | exact (fun h => h : _ = true → _)
      | with_reducible first
          | exact hE | apply serve_evolves | apply state_onNet_evolves | apply releaseCells_evolves
          | refine Evolves.ite (fun _ => ?_) (fun _ => ?_) | refine Evolves.foldl ?_ ?_ | refine Evolves.foldl_fst ?_ ?_
          | refine Evolves.foldl_snd ?_ ?_ | assumption
      | intro _ | dsimp only | split

end Sys2Proof.Machine
end

