-- ==== Sys2Proof/Laws/FramePowerStates.lean ====
section
/-! SUPPORT. What the operations of Machine/PowerStates.lean change at most: one lemma each. -/

namespace Sys2Proof.Machine

set_option linter.unusedTactic false
set_option linter.unreachableTactic false
set_option linter.unusedVariables false

theorem execIdleTimerExpiry_evolves  {ps : List Part} {s₀ s : State} (hE : Evolves ps s₀ s)
    (hW : Sub [.events, .counters, .sampling, .controllers, .powerState, .drivePorts, .stamps, .regs, .regPrt, .out] ps) :
    ∀ t, execIdleTimerExpiry s = .next t → Evolves ps s₀ t := by
  intro t ht
  unfold execIdleTimerExpiry at ht
  repeat' first
    | (with_reducible obtain rfl := Host.Outcome.next.inj ht)
    | split at ht
    | dsimp only at ht
  all_goals
    repeat' first
      | exact Sub.of hW rfl
      | with_reducible first
          | exact hE | apply psChange_evolves | refine Evolves.ite (fun _ => ?_) (fun _ => ?_)
      | dsimp only | split

theorem runHeld_evolves {x1 : Instr} {ps : List Part} {s₀ s : State} (hE : Evolves ps s₀ s)
    (hW : Sub [.events, .counters, .sampling, .controllers, .queues, .namespaces, .commands, .powerState, .contexts,
      .contextCache, .regions, .mapping, .journal, .layoutWork, .ciphers, .drivePorts, .buffer, .functions,
      .hostQueues, .leash, .replicas, .regs, .regSwc, .regCmd, .out] ps) :
    Evolves ps s₀ (runHeld s x1) := by
  unfold runHeld
  split
  · exact runConnect_evolves hE (Sub.of hW rfl)
  · exact runPropertyGet_evolves hE (Sub.of hW rfl)
  · exact runPropertySet_evolves hE (Sub.of hW rfl)
  · exact runCcEnWritten1_evolves hE (Sub.of hW rfl)
  · exact runCcEnWritten0_evolves hE (Sub.of hW rfl)
  · exact runCcShnNormalShutdown_evolves hE (Sub.of hW rfl)
  · exact runCcShnAbruptShutdown_evolves hE (Sub.of hW rfl)
  · exact runDisconnect_evolves hE (Sub.of hW rfl)
  · exact runIdentify_evolves hE (Sub.of hW rfl)
  · exact runGetLogPage_evolves hE (Sub.of hW rfl)
  · exact runSetFeatures_evolves hE (Sub.of hW rfl)
  · exact runGetFeatures_evolves hE (Sub.of hW rfl)
  · exact runKeepAlive_evolves hE (Sub.of hW rfl)
  · exact runAbort_evolves hE (Sub.of hW rfl)
  · exact runAsynchronousEventRequest_evolves hE (Sub.of hW rfl)
  · exact runDeviceSelfTestShort_evolves hE (Sub.of hW rfl)
  · exact runDeviceSelfTestExtended_evolves hE (Sub.of hW rfl)
  · exact runDeviceSelfTestAbort_evolves hE (Sub.of hW rfl)
  · exact adminCommand_evolves hE (fun _ h => postAdmin_evolves h (Sub.of hW rfl)) (Sub.of hW rfl)
  · exact runCreateIoSubmissionQueue_evolves hE (Sub.of hW rfl)
  · exact runCreateIoCompletionQueue_evolves hE (Sub.of hW rfl)
  · exact hE

theorem execPowerStateExitDone_evolves  {ps : List Part} {s₀ s : State} (hE : Evolves ps s₀ s)
    (hW : Sub [.events, .counters, .sampling, .controllers, .queues, .namespaces, .commands, .powerState, .contexts,
      .contextCache, .regions, .mapping, .journal, .layoutWork, .ciphers, .drivePorts, .stamps, .buffer,
      .functions, .hostQueues, .leash, .replicas, .regs, .regPrt, .regSwc, .regCmd, .heldCommands, .out] ps) :
    ∀ t, execPowerStateExitDone s = .next t → Evolves ps s₀ t := by
  intro t ht
  unfold execPowerStateExitDone at ht
  repeat' first
    | (with_reducible obtain rfl := Host.Outcome.next.inj ht)
    | split at ht
    | dsimp only at ht
  all_goals
    repeat' first
      | exact Sub.of hW rfl | exact .inl (Sub.of hW rfl) | with_reducible exact .inr rfl
      | exact .inr (FencesStay.refl _) | exact .inr (by dsimp only) | exact .inr rfl
      | with_reducible exact (fun h => h : _ = true → _) | (dsimp only; exact (fun h => h : _ = true → _))
      | exact (fun h => h : _ = true → _)
      | with_reducible first
          | exact hE | apply psChange_evolves | apply state_onCmd_evolves | apply testWaiting_evolves
          | apply runHeld_evolves | refine Evolves.ite (fun _ => ?_) (fun _ => ?_) | refine Evolves.foldl ?_ ?_
          | refine Evolves.foldl_fst ?_ ?_ | refine Evolves.foldl_snd ?_ ?_ | assumption
      | intro _ | dsimp only | split
      | with_reducible first
          | apply Evolves.waitingSet

theorem execSelftestDone_evolves {result : Nat} {failed : List (Nat × Nat)} {ps : List Part} {s₀ s : State} (hE : Evolves ps s₀ s)
    (hW : Sub [.events, .fences, .cores, .counters, .sampling, .controllers, .namespaces, .commands, .powerState,
      .contexts, .hbm, .mapping, .journal, .layoutWork, .ciphers, .storeWrites, .drivePorts, .driveSlots,
      .buffer, .traffic, .functions, .hostReads, .hostQueues, .leash, .replicas, .legs, .regs, .regPrt,
      .regSwc, .regLay, .regPwr, .regRed, .out] ps) :
    ∀ t, execSelftestDone result failed s = .next t → Evolves ps s₀ t := by
  intro t ht
  unfold execSelftestDone at ht
  repeat' first
    | (with_reducible obtain rfl := Host.Outcome.next.inj ht)
    | split at ht
    | dsimp only at ht
  all_goals
    repeat' first
      | exact Sub.of hW rfl
      | with_reducible first
          | exact hE | apply fenceAny_evolves | apply endSelfTest_evolves | refine Evolves.foldl ?_ ?_
          | refine Evolves.foldl_fst ?_ ?_ | refine Evolves.foldl_snd ?_ ?_ | assumption
      | intro _ | dsimp only

theorem execSelftestTimeout_evolves  {ps : List Part} {s₀ s : State} (hE : Evolves ps s₀ s)
    (hW : Sub [.events, .counters, .sampling, .powerState] ps) :
    ∀ t, execSelftestTimeout s = .next t → Evolves ps s₀ t := by
  intro t ht
  unfold execSelftestTimeout at ht
  repeat' first
    | (with_reducible obtain rfl := Host.Outcome.next.inj ht)
    | split at ht
    | dsimp only at ht
  all_goals
    repeat' first
      | exact Sub.of hW rfl
      | with_reducible first
          | exact hE | apply endSelfTest_evolves | refine Evolves.ite (fun _ => ?_) (fun _ => ?_)
      | dsimp only | split

end Sys2Proof.Machine
end

