-- ==== Sys2Proof/Laws/FrameSessions.lean ====
section
/-! SUPPORT. What the operations of Machine/Sessions.lean change at most: one lemma each. -/

namespace Sys2Proof.Machine

set_option linter.unusedTactic false
set_option linter.unreachableTactic false
set_option linter.unusedVariables false

theorem authFail_evolves {port : Nat} {principal : Nat} {cause : Nat} {status : Nat} {ps : List Part} {s₀ s : State} (hE : Evolves ps s₀ s)
    (hW : Sub [.events, .counters, .sampling, .regs, .regCtl, .out] ps) :
    Evolves ps s₀ (authFail port principal cause status s) := by
  unfold authFail
  repeat' first
    | exact Sub.of hW rfl
    | with_reducible first
        | exact hE | apply state_bump_evolves | apply state_send_evolves | apply emit_evolves
    | dsimp only

theorem welcome_evolves {port : Nat} {principal : Nat} {hello : Bytes} {wrap : Bytes} {ps : List Part} {s₀ s : State} (hE : Evolves ps s₀ s)
    (hW : Sub [.events, .sessions, .counters, .sampling, .keys, .regs, .regCtl, .regTru, .out, .free] ps) :
    Evolves ps s₀ (welcome port principal hello wrap s) := by
  unfold welcome
  repeat' first
    | exact Sub.of hW rfl | exact .inl (Sub.of hW rfl) | with_reducible exact .inr rfl
    | exact .inr (FencesStay.refl _) | exact .inr (by dsimp only) | exact .inr rfl
    | with_reducible exact (fun h => h : _ = true → _) | (dsimp only; exact (fun h => h : _ = true → _))
    | exact (fun h => h : _ = true → _) | exact rfl | exact Nat.le_refl _
    | with_reducible first
        | exact hE | apply randomKey_evolves | apply storeKey_evolves | apply authFail_evolves
        | apply state_onCtl_evolves | apply emit_evolves | apply sign192_evolves | apply state_send_evolves
        | refine Evolves.ite (fun _ => ?_) (fun _ => ?_)
    | dsimp only | split
    | with_reducible first
        | refine Evolves.fst_of (by assumption) ?_ | refine Evolves.snd_of (by assumption) ?_

theorem execHello_evolves {port : Fin 2} {hello : Bytes} {sigOk : Bool} {ps : List Part} {s₀ s : State} (hE : Evolves ps s₀ s)
    (hW : Sub [.events, .sessions, .counters, .sampling, .keys, .regs, .regCtl, .regTru, .out, .free] ps) :
    ∀ t, execHello port hello sigOk s = .next t → Evolves ps s₀ t := by
  intro t ht
  unfold execHello at ht
  repeat' first
    | (with_reducible obtain rfl := Host.Outcome.next.inj ht)
    | split at ht
    | dsimp only at ht
  all_goals
    repeat' first
      | exact Sub.of hW rfl
      | with_reducible first
          | exact hE | apply authFail_evolves | apply welcome_evolves | refine Evolves.ite (fun _ => ?_) (fun _ => ?_)
      | dsimp only | split
      | with_reducible first
          | refine Evolves.fst_of (by assumption) ?_ | refine Evolves.snd_of (by assumption) ?_

theorem execPing_evolves {r : Req} {ps : List Part} {s₀ s : State} (hE : Evolves ps s₀ s)
    (hW : Sub [.sessions, .bone, .regs, .regCtl, .out] ps) :
    ∀ t, execPing r s = .next t → Evolves ps s₀ t := by
  intro t ht
  unfold execPing at ht
  repeat' first
    | (with_reducible obtain rfl := Host.Outcome.next.inj ht)
    | split at ht
    | dsimp only at ht
  all_goals
    repeat' first
      | exact Sub.of hW rfl
      | with_reducible first
          | exact hE | apply serve_evolves | assumption
      | intro _ | dsimp only

theorem execBoneAcquire_evolves {r : Req} {lease : Nat} {ps : List Part} {s₀ s : State} (hE : Evolves ps s₀ s)
    (hW : Sub [.events, .sessions, .bone, .counters, .sampling, .regs, .regCtl, .out] ps) :
    ∀ t, execBoneAcquire r lease s = .next t → Evolves ps s₀ t := by
  intro t ht
  unfold execBoneAcquire at ht
  repeat' first
    | (with_reducible obtain rfl := Host.Outcome.next.inj ht)
    | split at ht
    | dsimp only at ht
  all_goals
    repeat' first
      | exact Sub.of hW rfl
      | with_reducible first
          | exact hE | apply serve_evolves | apply grantBone_evolves | refine Evolves.ite (fun _ => ?_) (fun _ => ?_)
          | assumption
      | intro _ | dsimp only | split

theorem execBoneRelease_evolves {r : Req} {ps : List Part} {s₀ s : State} (hE : Evolves ps s₀ s)
    (hW : Sub [.events, .sessions, .bone, .counters, .sampling, .regs, .regCtl, .out] ps) :
    ∀ t, execBoneRelease r s = .next t → Evolves ps s₀ t := by
  intro t ht
  unfold execBoneRelease at ht
  repeat' first
    | (with_reducible obtain rfl := Host.Outcome.next.inj ht)
    | split at ht
    | dsimp only at ht
  all_goals
    repeat' first
      | exact Sub.of hW rfl
      | with_reducible first
          | exact hE | apply serve_evolves | apply releaseBone_evolves | refine Evolves.ite (fun _ => ?_) (fun _ => ?_)
          | assumption
      | intro _ | dsimp only | split

theorem execEventSubscribe_evolves {r : Req} {ring : Nat} {ps : List Part} {s₀ s : State} (hE : Evolves ps s₀ s)
    (hW : Sub [.rings, .sessions, .bone, .regs, .regCtl, .out] ps) :
    ∀ t, execEventSubscribe r ring s = .next t → Evolves ps s₀ t := by
  intro t ht
  unfold execEventSubscribe at ht
  repeat' first
    | (with_reducible obtain rfl := Host.Outcome.next.inj ht)
    | split at ht
    | dsimp only at ht
  all_goals
    repeat' first
      | exact Sub.of hW rfl
      | with_reducible first
          | exact hE | apply onRing_evolves | apply serve_evolves | apply sendRing_evolves
          | refine Evolves.ite (fun _ => ?_) (fun _ => ?_) | assumption
      | intro _ | dsimp only | split

theorem execEventAck_evolves {r : Req} {ring : Nat} {seq : Nat} {ps : List Part} {s₀ s : State} (hE : Evolves ps s₀ s)
    (hW : Sub [.rings, .sessions, .bone, .counters, .sampling, .functions, .regs, .regCtl, .out] ps) :
    ∀ t, execEventAck r ring seq s = .next t → Evolves ps s₀ t := by
  intro t ht
  unfold execEventAck at ht
  repeat' first
    | (with_reducible obtain rfl := Host.Outcome.next.inj ht)
    | split at ht
    | dsimp only at ht
  all_goals
    repeat' first
      | exact Sub.of hW rfl
      | with_reducible first
          | exact hE | apply serve_evolves | apply onRing_evolves | apply sendRing_evolves | apply ringReport_evolves
          | refine Evolves.ite (fun _ => ?_) (fun _ => ?_) | assumption
      | intro _ | dsimp only | split

theorem execEventUnsubscribe_evolves {r : Req} {ring : Nat} {ps : List Part} {s₀ s : State} (hE : Evolves ps s₀ s)
    (hW : Sub [.rings, .sessions, .bone, .regs, .regCtl, .out] ps) :
    ∀ t, execEventUnsubscribe r ring s = .next t → Evolves ps s₀ t := by
  intro t ht
  unfold execEventUnsubscribe at ht
  repeat' first
    | (with_reducible obtain rfl := Host.Outcome.next.inj ht)
    | split at ht
    | dsimp only at ht
  all_goals
    repeat' first
      | exact Sub.of hW rfl
      | with_reducible first
          | exact hE | apply serve_evolves | apply releaseRing_evolves | refine Evolves.ite (fun _ => ?_) (fun _ => ?_)
          | assumption
      | intro _ | dsimp only | split

theorem execClogRead_evolves {r : Req} {first : Nat} {count : Nat} {ps : List Part} {s₀ s : State} (hE : Evolves ps s₀ s)
    (hW : Sub [.sessions, .bone, .regs, .regCtl, .out] ps) :
    ∀ t, execClogRead r first count s = .next t → Evolves ps s₀ t := by
  intro t ht
  unfold execClogRead at ht
  repeat' first
    | (with_reducible obtain rfl := Host.Outcome.next.inj ht)
    | split at ht
    | dsimp only at ht
  all_goals
    repeat' first
      | exact Sub.of hW rfl
      | with_reducible first
          | exact hE | apply serve_evolves | refine Evolves.ite (fun _ => ?_) (fun _ => ?_) | assumption
      | intro _ | dsimp only | split

theorem execSessionClose_evolves {r : Req} {ps : List Part} {s₀ s : State} (hE : Evolves ps s₀ s)
    (hW : Sub [.events, .rings, .sessions, .bone, .stores, .counters, .sampling, .keys, .keyOrders, .regs, .regCtl,
      .out] ps) :
    ∀ t, execSessionClose r s = .next t → Evolves ps s₀ t := by
  intro t ht
  unfold execSessionClose at ht
  repeat' first
    | (with_reducible obtain rfl := Host.Outcome.next.inj ht)
    | split at ht
    | dsimp only at ht
  all_goals
    repeat' first
      | exact Sub.of hW rfl
      | with_reducible first
          | exact hE | apply serve_evolves | apply closeSession_evolves | assumption
      | intro _ | dsimp only | split

theorem execBadOpcode_evolves {r : Req} {opcode : Nat} {ps : List Part} {s₀ s : State} (hE : Evolves ps s₀ s)
    (hW : Sub [.sessions, .bone, .regs, .regCtl, .out] ps) :
    ∀ t, execBadOpcode r opcode s = .next t → Evolves ps s₀ t := by
  intro t ht
  unfold execBadOpcode at ht
  repeat' first
    | (with_reducible obtain rfl := Host.Outcome.next.inj ht)
    | split at ht
    | dsimp only at ht
  all_goals
    repeat' first
      | exact Sub.of hW rfl
      | with_reducible first
          | exact hE | apply receive_evolves | apply respond_evolves | assumption
      | intro _ | dsimp only

theorem execSessionIdleTimeout_evolves {session : Nat} {ps : List Part} {s₀ s : State} (hE : Evolves ps s₀ s)
    (hW : Sub [.events, .rings, .sessions, .bone, .stores, .counters, .sampling, .keys, .keyOrders] ps) :
    ∀ t, execSessionIdleTimeout session s = .next t → Evolves ps s₀ t := by
  intro t ht
  unfold execSessionIdleTimeout at ht
  repeat' first
    | (with_reducible obtain rfl := Host.Outcome.next.inj ht)
    | split at ht
    | dsimp only at ht
  all_goals
    repeat' first
      | exact Sub.of hW rfl
      | with_reducible first
          | exact hE | apply closeSession_evolves
      | dsimp only

theorem execMgmtLinkLoss_evolves {port : Fin 2} {ps : List Part} {s₀ s : State} (hE : Evolves ps s₀ s)
    (hW : Sub [.events, .rings, .sessions, .bone, .stores, .counters, .sampling, .keys, .keyOrders] ps) :
    ∀ t, execMgmtLinkLoss port s = .next t → Evolves ps s₀ t := by
  intro t ht
  unfold execMgmtLinkLoss at ht
  repeat' first
    | (with_reducible obtain rfl := Host.Outcome.next.inj ht)
    | split at ht
    | dsimp only at ht
  all_goals
    repeat' first
      | exact Sub.of hW rfl
      | with_reducible first
          | exact hE | apply closeSession_evolves | refine Evolves.foldl ?_ ?_ | refine Evolves.foldl_fst ?_ ?_
          | refine Evolves.foldl_snd ?_ ?_ | assumption
      | intro _ | dsimp only

theorem execEventMessageResend_evolves {ring : Fin 8} {seq : Nat} {ps : List Part} {s₀ s : State} (hE : Evolves ps s₀ s)
    (hW : Sub [.rings, .sessions, .out] ps) :
    ∀ t, execEventMessageResend ring seq s = .next t → Evolves ps s₀ t := by
  intro t ht
  unfold execEventMessageResend at ht
  repeat' first
    | (with_reducible obtain rfl := Host.Outcome.next.inj ht)
    | split at ht
    | dsimp only at ht
  all_goals
    repeat' first
      | exact Sub.of hW rfl
      | with_reducible first
          | exact hE | apply state_send_evolves | apply usedSeq_evolves | apply onRing_evolves
          | refine Evolves.ite (fun _ => ?_) (fun _ => ?_)
      | dsimp only | split
      | with_reducible first
          | refine Evolves.fst_of (by assumption) ?_ | refine Evolves.snd_of (by assumption) ?_

theorem execMgmtNeighbourDiscovery_evolves {port : Fin 2} {solicitation : Bool} {target : Bytes} {ps : List Part} {s₀ s : State} (hE : Evolves ps s₀ s)
    (hW : Sub [.out] ps) :
    ∀ t, execMgmtNeighbourDiscovery port solicitation target s = .next t → Evolves ps s₀ t := by
  intro t ht
  unfold execMgmtNeighbourDiscovery at ht
  repeat' first
    | (with_reducible obtain rfl := Host.Outcome.next.inj ht)
    | split at ht
    | dsimp only at ht
  all_goals
    repeat' first
      | exact Sub.of hW rfl
      | with_reducible first
          | exact hE | apply state_send_evolves | refine Evolves.ite (fun _ => ?_) (fun _ => ?_)
      | dsimp only | split

end Sys2Proof.Machine
end

