-- ==== Sys2Proof/Laws/FrameStores.lean ====
section
/-! SUPPORT. What the operations of Machine/Stores.lean change at most: one lemma each. -/

namespace Sys2Proof.Machine

set_option linter.unusedTactic false
set_option linter.unreachableTactic false
set_option linter.unusedVariables false

theorem storeBegin_evolves {path : Nat} {session : Nat} {kind : Nat} {slot : Nat} {length : Nat} {ps : List Part} {s₀ s : State} (hE : Evolves ps s₀ s)
    (hW : Sub [.stores, .free] ps) :
    Evolves ps s₀ (storeBegin path session kind slot length s).1 := by
  unfold storeBegin
  repeat' first
    | exact Sub.of hW rfl | exact .inl (Sub.of hW rfl) | with_reducible exact .inr rfl
    | exact .inr (FencesStay.refl _) | exact .inr (by dsimp only) | exact .inr rfl
    | with_reducible exact (fun h => h : _ = true → _) | (dsimp only; exact (fun h => h : _ = true → _))
    | exact (fun h => h : _ = true → _) | exact rfl | exact Nat.le_refl _
    | with_reducible first
        | exact hE | apply freeBytes_evolves | apply state_onCtl_evolves
        | refine Evolves.ite (fun _ => ?_) (fun _ => ?_)
    | dsimp only | split
    | with_reducible first
        | refine Evolves.fst_of (by assumption) ?_ | refine Evolves.snd_of (by assumption) ?_

theorem execImageBegin_evolves {r : Req} {kind : Nat} {slot : Nat} {length : Nat} {ps : List Part} {s₀ s : State} (hE : Evolves ps s₀ s)
    (hW : Sub [.sessions, .bone, .stores, .regs, .regCtl, .out, .free] ps) :
    ∀ t, execImageBegin r kind slot length s = .next t → Evolves ps s₀ t := by
  intro t ht
  unfold execImageBegin at ht
  repeat' first
    | (with_reducible obtain rfl := Host.Outcome.next.inj ht)
    | split at ht
    | dsimp only at ht
  all_goals
    repeat' first
      | exact Sub.of hW rfl
      | with_reducible first
          | exact hE | apply serve_evolves | apply storeBegin_evolves | assumption
      | intro _ | dsimp only | split
      | with_reducible first
          | refine Evolves.fst_of (by assumption) ?_ | refine Evolves.snd_of (by assumption) ?_

theorem storeData_evolves {path : Nat} {session : Nat} {offset : Nat} {limit : Nat} {data : Bytes} {ps : List Part} {s₀ s : State} (hE : Evolves ps s₀ s)
    (hW : Sub [.stores] ps) :
    Evolves ps s₀ (storeData path session offset limit data s).1 := by
  unfold storeData
  repeat' first
    | exact Sub.of hW rfl | exact .inl (Sub.of hW rfl) | with_reducible exact .inr rfl
    | exact .inr (FencesStay.refl _) | exact .inr (by dsimp only) | exact .inr rfl
    | with_reducible exact (fun h => h : _ = true → _) | (dsimp only; exact (fun h => h : _ = true → _))
    | exact (fun h => h : _ = true → _) | exact rfl | exact Nat.le_refl _
    | with_reducible first
        | exact hE | apply state_onCtl_evolves | refine Evolves.ite (fun _ => ?_) (fun _ => ?_)
    | dsimp only | split
    | with_reducible first
        | refine Evolves.fst_of (by assumption) ?_ | refine Evolves.snd_of (by assumption) ?_

theorem execImageData_evolves {r : Req} {offset : Nat} {data : Bytes} {ps : List Part} {s₀ s : State} (hE : Evolves ps s₀ s)
    (hW : Sub [.sessions, .bone, .stores, .regs, .regCtl, .out] ps) :
    ∀ t, execImageData r offset data s = .next t → Evolves ps s₀ t := by
  intro t ht
  unfold execImageData at ht
  repeat' first
    | (with_reducible obtain rfl := Host.Outcome.next.inj ht)
    | split at ht
    | dsimp only at ht
  all_goals
    repeat' first
      | exact Sub.of hW rfl
      | with_reducible first
          | exact hE | apply serve_evolves | apply storeData_evolves | assumption
      | intro _ | dsimp only | split
      | with_reducible first
          | refine Evolves.fst_of (by assumption) ?_ | refine Evolves.snd_of (by assumption) ?_

theorem storeCommit_evolves {path : Nat} {session : Nat} {ps : List Part} {s₀ s : State} (hE : Evolves ps s₀ s)
    (hW : Sub [.events, .images, .stores, .counters, .sampling, .boot] ps) :
    Evolves ps s₀ (storeCommit path session s).1 := by
  unfold storeCommit
  repeat' first
    | exact Sub.of hW rfl | exact .inl (Sub.of hW rfl) | with_reducible exact .inr rfl
    | exact .inr (FencesStay.refl _) | exact .inr (by dsimp only) | exact .inr rfl
    | with_reducible exact (fun h => h : _ = true → _) | (dsimp only; exact (fun h => h : _ = true → _))
    | exact (fun h => h : _ = true → _) | exact rfl | exact Nat.le_refl _
    | with_reducible first
        | exact hE | apply state_onCtl_evolves | apply imageRefused_evolves | apply state_onBoot_evolves
        | apply emit_evolves | refine Evolves.ite (fun _ => ?_) (fun _ => ?_)
    | dsimp only | split
    | with_reducible first
        | refine Evolves.fst_of (by assumption) ?_ | refine Evolves.snd_of (by assumption) ?_

theorem execImageCommit_evolves {r : Req} {ps : List Part} {s₀ s : State} (hE : Evolves ps s₀ s)
    (hW : Sub [.events, .sessions, .bone, .images, .stores, .counters, .sampling, .boot, .regs, .regCtl, .out] ps) :
    ∀ t, execImageCommit r s = .next t → Evolves ps s₀ t := by
  intro t ht
  unfold execImageCommit at ht
  repeat' first
    | (with_reducible obtain rfl := Host.Outcome.next.inj ht)
    | split at ht
    | dsimp only at ht
  all_goals
    repeat' first
      | exact Sub.of hW rfl
      | with_reducible first
          | exact hE | apply serve_evolves | apply storeCommit_evolves | refine Evolves.ite (fun _ => ?_) (fun _ => ?_)
          | assumption
      | intro _ | dsimp only | split
      | with_reducible first
          | refine Evolves.fst_of (by assumption) ?_ | refine Evolves.snd_of (by assumption) ?_

theorem execProfileActivate_evolves {r : Req} {kind : Nat} {slot : Nat} {ps : List Part} {s₀ s : State} (hE : Evolves ps s₀ s)
    (hW : Sub [.events, .sessions, .bone, .counters, .sampling, .boot, .commands, .activation, .trust, .regs, .regCtl,
      .out] ps) :
    ∀ t, execProfileActivate r kind slot s = .next t → Evolves ps s₀ t := by
  intro t ht
  unfold execProfileActivate at ht
  repeat' first
    | (with_reducible obtain rfl := Host.Outcome.next.inj ht)
    | split at ht
    | dsimp only at ht
  all_goals
    repeat' first
      | exact Sub.of hW rfl
      | with_reducible first
          | exact hE | apply serveLater_evolves | apply startActivation_evolves
          | refine Evolves.ite (fun _ => ?_) (fun _ => ?_) | assumption
      | intro _ | dsimp only | split
      | with_reducible first
          | refine Evolves.fst_of (by assumption) ?_ | refine Evolves.snd_of (by assumption) ?_

theorem execProfileErase_evolves {r : Req} {slot : Nat} {ps : List Part} {s₀ s : State} (hE : Evolves ps s₀ s)
    (hW : Sub [.sessions, .bone, .images, .regs, .regCtl, .out] ps) :
    ∀ t, execProfileErase r slot s = .next t → Evolves ps s₀ t := by
  intro t ht
  unfold execProfileErase at ht
  repeat' first
    | (with_reducible obtain rfl := Host.Outcome.next.inj ht)
    | split at ht
    | dsimp only at ht
  all_goals
    repeat' first
      | exact Sub.of hW rfl | exact .inl (Sub.of hW rfl) | with_reducible exact .inr rfl
      | exact .inr (FencesStay.refl _) | exact .inr (by dsimp only) | exact .inr rfl
      | with_reducible exact (fun h => h : _ = true → _) | (dsimp only; exact (fun h => h : _ = true → _))
      | exact (fun h => h : _ = true → _) | exact rfl | exact Nat.le_refl _
      | with_reducible first
          | exact hE | apply serve_evolves | apply state_onCtl_evolves | refine Evolves.ite (fun _ => ?_) (fun _ => ?_)
          | assumption
      | intro _ | dsimp only | split

theorem execProfileList_evolves {r : Req} {ps : List Part} {s₀ s : State} (hE : Evolves ps s₀ s)
    (hW : Sub [.sessions, .bone, .regs, .regCtl, .out] ps) :
    ∀ t, execProfileList r s = .next t → Evolves ps s₀ t := by
  intro t ht
  unfold execProfileList at ht
  repeat' first
    | (with_reducible obtain rfl := Host.Outcome.next.inj ht)
    | split at ht
    | dsimp only at ht
  all_goals
    repeat' first
      | exact Sub.of hW rfl
      | with_reducible first
          | exact hE | apply serve_evolves | refine Evolves.ite (fun _ => ?_) (fun _ => ?_) | assumption
      | intro _ | dsimp only | split

theorem execI3cRead_evolves {port : Fin 2} {addr : Nat} {count : Nat} {ps : List Part} {s₀ s : State} (hE : Evolves ps s₀ s)
    (hW : Sub [.events, .paths, .fences, .rings, .sessions, .counters, .sampling, .buffer, .functions, .regs, .regCtl,
      .regPrt, .regCls, .regSwc, .regTmg, .regXpt, .regCmd, .regLay, .regFix, .regDrv, .regCip, .regTru,
      .regPwr, .regHep, .regRed, .regTel, .out] ps) :
    ∀ t, execI3cRead port addr count s = .next t → Evolves ps s₀ t := by
  intro t ht
  unfold execI3cRead at ht
  repeat' first
    | (with_reducible obtain rfl := Host.Outcome.next.inj ht)
    | split at ht
    | dsimp only at ht
  all_goals
    repeat' first
      | exact Sub.of hW rfl
      | (apply Sub.cons; repeat' first | exact Sub.nil | exact hW _ (by decide) | exact Sub.any (Sub.of hW rfl) | exact hW _ (by simp) | apply Sub.cons)
      | with_reducible first
          | exact hE | apply state_send_evolves | apply readReg_evolves | refine Evolves.ite (fun _ => ?_) (fun _ => ?_)
          | refine Evolves.foldl ?_ ?_ | refine Evolves.foldl_fst ?_ ?_ | refine Evolves.foldl_snd ?_ ?_ | assumption
      | intro _ | dsimp only | split
      | with_reducible first
          | refine Evolves.fst_of (by assumption) ?_ | refine Evolves.snd_of (by assumption) ?_

theorem execI3cWrite_evolves {port : Fin 2} {addr : Nat} {words : List Word} {ps : List Part} {s₀ s : State} (hE : Evolves ps s₀ s)
    (hW : Sub [.events, .time, .paths, .fences, .rings, .sessions, .bone, .marks, .cores, .counters, .snapshot,
      .sampling, .boot, .controllers, .namespaces, .commands, .activation, .powerState, .contexts,
      .contextCache, .regions, .chains, .hbm, .mapping, .journal, .layoutWork, .keys, .keyOrders, .ciphers,
      .trust, .batches, .jobs, .storeWrites, .drivePorts, .driveSlots, .classifier, .punts, .stamps, .buffer,
      .groups, .tables, .traffic, .functions, .hostReads, .hostQueues, .peerTable, .leash, .replicas, .roles,
      .legs, .regs, .regCtl, .regPrt, .regCls, .regSwc, .regTmg, .regXpt, .regCmd, .regLay, .regFix, .regDrv,
      .regCip, .regTru, .regPwr, .regHep, .regRed, .regTel, .out, .free] ps) :
    ∀ t, execI3cWrite port addr words s = .next t → Evolves ps s₀ t := by
  intro t ht
  unfold execI3cWrite at ht
  repeat' first
    | (with_reducible obtain rfl := Host.Outcome.next.inj ht)
    | split at ht
    | dsimp only at ht
  all_goals
    repeat' first
      | exact Sub.of hW rfl
      | with_reducible first
          | exact hE | apply state_send_evolves | apply writeReg_evolves
          | refine Evolves.ite (fun _ => ?_) (fun _ => ?_) | refine Evolves.foldl ?_ ?_ | refine Evolves.foldl_fst ?_ ?_
          | refine Evolves.foldl_snd ?_ ?_ | assumption
      | intro _ | dsimp only | split
      | with_reducible first
          | refine Evolves.fst_of (by assumption) ?_ | refine Evolves.snd_of (by assumption) ?_

theorem execI3cStatus_evolves {port : Fin 2} {ps : List Part} {s₀ s : State} (hE : Evolves ps s₀ s)
    (hW : Sub [.events, .paths, .fences, .rings, .sessions, .counters, .sampling, .buffer, .functions, .regs, .regCtl,
      .regPrt, .regCls, .regSwc, .regTmg, .regXpt, .regCmd, .regLay, .regFix, .regDrv, .regCip, .regTru,
      .regPwr, .regHep, .regRed, .regTel, .out] ps) :
    ∀ t, execI3cStatus port s = .next t → Evolves ps s₀ t := by
  intro t ht
  unfold execI3cStatus at ht
  repeat' first
    | (with_reducible obtain rfl := Host.Outcome.next.inj ht)
    | split at ht
    | dsimp only at ht
  all_goals
    repeat' first
      | exact Sub.of hW rfl
      | (apply Sub.cons; repeat' first | exact Sub.nil | exact hW _ (by decide) | exact Sub.any (Sub.of hW rfl) | exact hW _ (by simp) | apply Sub.cons)
      | with_reducible first
          | exact hE | apply readReg_evolves | apply state_send_evolves | refine Evolves.ite (fun _ => ?_) (fun _ => ?_)
      | dsimp only | split
      | with_reducible first
          | refine Evolves.fst_of (by assumption) ?_ | refine Evolves.snd_of (by assumption) ?_

theorem execI3cCommission_evolves {port : Fin 2} {principal : Nat} {key : Bytes} {ps : List Part} {s₀ s : State} (hE : Evolves ps s₀ s)
    (hW : Sub [.principals, .keys, .out] ps) :
    ∀ t, execI3cCommission port principal key s = .next t → Evolves ps s₀ t := by
  intro t ht
  unfold execI3cCommission at ht
  repeat' first
    | (with_reducible obtain rfl := Host.Outcome.next.inj ht)
    | split at ht
    | dsimp only at ht
  all_goals
    repeat' first
      | exact Sub.of hW rfl | exact .inl (Sub.of hW rfl) | with_reducible exact .inr rfl
      | exact .inr (FencesStay.refl _) | exact .inr (by dsimp only) | exact .inr rfl
      | with_reducible exact (fun h => h : _ = true → _) | (dsimp only; exact (fun h => h : _ = true → _))
      | exact (fun h => h : _ = true → _) | exact rfl | exact Nat.le_refl _
      | with_reducible first
          | exact hE | apply state_send_evolves | apply storeKey_evolves | apply state_onCtl_evolves
          | refine Evolves.ite (fun _ => ?_) (fun _ => ?_)
      | dsimp only | split
      | with_reducible first
          | refine Evolves.fst_of (by assumption) ?_ | refine Evolves.snd_of (by assumption) ?_

theorem execStoreBegin_evolves {port : Fin 2} {kind : Nat} {slot : Nat} {length : Nat} {ps : List Part} {s₀ s : State} (hE : Evolves ps s₀ s)
    (hW : Sub [.stores, .out, .free] ps) :
    ∀ t, execStoreBegin port kind slot length s = .next t → Evolves ps s₀ t := by
  intro t ht
  unfold execStoreBegin at ht
  repeat' first
    | (with_reducible obtain rfl := Host.Outcome.next.inj ht)
    | split at ht
    | dsimp only at ht
  all_goals
    repeat' first
      | exact Sub.of hW rfl
      | with_reducible first
          | exact hE | apply storeBegin_evolves | apply state_send_evolves
          | refine Evolves.ite (fun _ => ?_) (fun _ => ?_)
      | dsimp only | split
      | with_reducible first
          | refine Evolves.fst_of (by assumption) ?_ | refine Evolves.snd_of (by assumption) ?_

theorem execStoreData_evolves {port : Fin 2} {offset : Nat} {words : List Word} {ps : List Part} {s₀ s : State} (hE : Evolves ps s₀ s)
    (hW : Sub [.stores, .out] ps) :
    ∀ t, execStoreData port offset words s = .next t → Evolves ps s₀ t := by
  intro t ht
  unfold execStoreData at ht
  repeat' first
    | (with_reducible obtain rfl := Host.Outcome.next.inj ht)
    | split at ht
    | dsimp only at ht
  all_goals
    repeat' first
      | exact Sub.of hW rfl
      | with_reducible first
          | exact hE | apply state_send_evolves | apply storeData_evolves
          | refine Evolves.ite (fun _ => ?_) (fun _ => ?_)
      | dsimp only | split
      | with_reducible first
          | refine Evolves.fst_of (by assumption) ?_ | refine Evolves.snd_of (by assumption) ?_

theorem execStoreCommit_evolves {port : Fin 2} {ps : List Part} {s₀ s : State} (hE : Evolves ps s₀ s)
    (hW : Sub [.events, .images, .stores, .counters, .sampling, .boot, .out] ps) :
    ∀ t, execStoreCommit port s = .next t → Evolves ps s₀ t := by
  intro t ht
  unfold execStoreCommit at ht
  repeat' first
    | (with_reducible obtain rfl := Host.Outcome.next.inj ht)
    | split at ht
    | dsimp only at ht
  all_goals
    repeat' first
      | exact Sub.of hW rfl
      | with_reducible first
          | exact hE | apply storeCommit_evolves | apply state_send_evolves
          | refine Evolves.ite (fun _ => ?_) (fun _ => ?_)
      | dsimp only | split
      | with_reducible first
          | refine Evolves.fst_of (by assumption) ?_ | refine Evolves.snd_of (by assumption) ?_

end Sys2Proof.Machine
end

