-- ==== Sys2Proof/Laws/Gate.lean ====
section
/-! SUPPORT. Register fields after a device update, and the gate that every register write passes. -/

namespace Sys2Proof.Machine

variable {s : State}

/-- A field reads back what the device set in it. -/
theorem fldI_setFldI_same (f : Fld) (i v : Nat) (h : f.lo ≤ f.hi) (hh : f.hi < 32) :
    (s.setFldI f i v).fldI f i = v % 2 ^ (f.hi - f.lo + 1) := fldGet_fldSet_same s.regs f i v h hh

theorem fld_setFld_same (f : Fld) (v : Nat) (h : f.lo ≤ f.hi) (hh : f.hi < 32) :
    (s.setFld f v).fld f = v % 2 ^ (f.hi - f.lo + 1) := fldGet_fldSet_same s.regs f 0 v h hh

/-- A field of another register stands. -/
theorem fldI_setFldI_other (f g : Fld) (i j v : Nat) (h : g.addr j ≠ f.addr i) : (s.setFldI f i v).fldI g j = s.fldI g j :=
  fldGet_fldSet_other s.regs f g i j v h

/-- A register word stands while a field of another register is set. -/
theorem rawWord_setFldI (f : Fld) (i v a : Nat) (h : a ≠ f.addr i) :
    rawWord (s.setFldI f i v).regs a = rawWord s.regs a := by
  simp [State.setFldI, fldSet, h]

/-- Registers that stand word by word: fields too. -/
theorem fldI_congr {t : State} (f : Fld) (i : Nat) (h : rawWord t.regs (f.addr i) = rawWord s.regs (f.addr i)) :
    t.fldI f i = s.fldI f i := by
  simp [State.fldI, fldGet, h]

theorem rawWord_of_same {w : List Part} {t : State} (h : Evolves w s t) (hw : w.contains .regs = false) (a : Nat) :
    rawWord t.regs a = rawWord s.regs a := by
  rw [show t.regs = s.regs from h.same .regs (by simpa using hw)]

/-- A refusal touches no register outside CTL, nor one of CTL below its path and conflict registers. -/
theorem refuse_rawWord (path session addr code : Nat) (hp : path < 5) (a : Nat) (ha : 0x1000000 ≤ a ∨ a < 0x70) :
    rawWord (refuse path session addr code s).regs a = rawWord s.regs a := by
  have key : ∀ (f : Fld), f.base = 0x140 → f.stride = 4 → a ≠ f.addr path := by
    intro f h1 h2; simp only [Fld.addr, h1, h2]; omega
  have hd : ∀ id r e (t : State), (direct id r e t).regs = t.regs := by
    intro id r e t
    exact (direct_evolves Evolves.refl Sub.rfl : Evolves _ t _).same .regs (by decide)
  unfold refuse
  split <;> (try split) <;>
    simp only [hd, emit_regs, State.send_regs, State.bumpI_regs] <;>
    simp only [fldSet, rawWord_setRawWord, State.setFldI] <;>
    rw [if_neg (key _ rfl rfl), if_neg (key _ rfl rfl)]

/-- A conflict touches no register outside CTL, nor one of CTL below its path and conflict registers. -/
theorem logConflict_rawWord (m : WriteMark) (path session : Nat) (value : Word) (hp : path < 5) (a : Nat)
    (ha : 0x1000000 ≤ a ∨ a < 0x70) : rawWord (logConflict m path session value s).regs a = rawWord s.regs a := by
  have key : ∀ i, i < 5 → a ≠ F.CTL_PATH_STAT_CONFLICT.addr i := by
    intro i hi; simp only [Fld.addr, F.CTL_PATH_STAT_CONFLICT]; omega
  have hd : ∀ id r e (t : State), (direct id r e t).regs = t.regs := by
    intro id r e t
    exact (direct_evolves Evolves.refl Sub.rfl : Evolves _ t _).same .regs (by decide)
  have ht : ∀ p id r e (t : State), (tellConflict p id r e t).regs = t.regs := by
    intro p id r e t; unfold tellConflict; split <;> simp [hd]
  unfold logConflict
  simp only [ht, emit_regs, State.setFldI_regs, State.bump_regs, State.onCtl_regs]
  simp only [fldSet, rawWord_setRawWord]
  rw [if_neg (key _ hp), if_neg (key _ m.path.isLt), if_neg (by simp only [Fld.addr, F.CTL_CONFLICT_COUNT_COUNT]; omega)]
  simp only [List.foldl_cons, List.foldl_nil, rawWord_setRawWord]
  rw [if_neg (by omega), if_neg (by omega), if_neg (by omega), if_neg (by omega)]

theorem noteWrite_rawWord (path session addr : Nat) (value : Word) (hp : path < 5) (a : Nat) (ha : 0x1000000 ≤ a ∨ a < 0x70) :
    rawWord (noteWrite path session addr value s).regs a = rawWord s.regs a := by
  unfold noteWrite
  simp only [State.onCtl_regs]
  split
  · split
    · exact logConflict_rawWord _ _ _ _ hp a ha
    · rfl
  · rfl

/-- The gate of a write touches no register outside CTL, nor one of CTL below its path and conflict registers. -/
theorem writeGate_rawWord (path session addr : Nat) (value : Word) (hp : path < 5) (a : Nat) (ha : 0x1000000 ≤ a ∨ a < 0x70) :
    rawWord (writeGate path session addr value s).1.regs a = rawWord s.regs a := by
  unfold writeGate
  split
  · rfl
  · split
    · dsimp only
      split <;> split <;> simp only [refuse_rawWord _ _ _ _ hp a ha, noteWrite_rawWord _ _ _ _ hp a ha]
    · exact refuse_rawWord _ _ _ _ hp a ha

theorem writeGate_fldI (path session addr : Nat) (value : Word) (hp : path < 5) (f : Fld) (i : Nat)
    (ha : 0x1000000 ≤ f.addr i ∨ f.addr i < 0x70) : (writeGate path session addr value s).1.fldI f i = s.fldI f i :=
  fldI_congr f i (writeGate_rawWord _ _ _ _ hp _ ha)

theorem noteWrite_locked (path session addr : Nat) (value : Word) (hp : path < 5) :
    (noteWrite path session addr value s).locked = s.locked := by
  show ((noteWrite path session addr value s).fldI F.CTL_LOCK_IMAGE_LOCK 0 == 1) = _
  rw [fldI_congr (s := s) F.CTL_LOCK_IMAGE_LOCK 0 (noteWrite_rawWord _ _ _ _ hp _ (.inr (by decide)))]
  rfl

theorem lockHit_false (h : s.locked = false) (addr : Nat) (value : Word) : lockHit s addr value = false := by
  unfold lockHit; split <;> simp [lockRefuses, h]

/-- The gate of a write that nothing stands in the way of: at most the write is noted for the conflicts of R396. -/
theorem writeGate_eq {path : Fin 5} {session addr : Nat} (value : Word) (h : MayWrite path session addr s)
    (hl : s.locked = false) : writeGate path.val session addr value s =
      (if protectedAddr addr then s else noteWrite path.val session addr value s, true) := by
  unfold writeGate
  simp only [h.1, h.2, Bool.not_true, Bool.false_eq_true, if_false]
  split
  · simp [lockHit_false hl]
  · rw [lockHit_false ((noteWrite_locked _ _ _ _ path.isLt).trans hl)]; rfl

/-- A write noted while no other has been made at this GTS. -/
theorem noteWrite_first (path session addr : Nat) (value : Word) (h : s.ctl.marks = []) :
    noteWrite path session addr value s =
      s.onCtl fun c => { c with marks := [⟨s.now, addr, Fin.ofNat 5 path, session, value⟩] } := by
  simp [noteWrite, h]

/-- A write that its path may make passes the gate. -/
theorem writeGate_performed {path : Fin 5} {session addr : Nat} (value : Word) (h : MayWrite path session addr s) :
    (writeGate path.val session addr value s).2 = true := by
  unfold writeGate
  simp [h.1, h.2]

/-! What the gate leaves of the control cluster: all but the marks of R396, the records on their way, and the sequence numbers
of sessions that are told. -/

/-- `d` is `c` but for what the gate of a write may change. -/
def GateCtl (c d : Ctl) : Prop :=
  d = { c with marks := d.marks, inflight := d.inflight, conflictNext := d.conflictNext, sessions := d.sessions }

theorem GateCtl.refl (c : Ctl) : GateCtl c c := rfl

theorem GateCtl.trans {c d e : Ctl} (h : GateCtl c d) (h' : GateCtl d e) : GateCtl c e := by
  unfold GateCtl at *; rw [h', h]

theorem direct_gate (id : Nat) (r : EventRec) (x : Bytes) (s : State) : GateCtl s.ctl (direct id r x s).ctl := by
  unfold direct; split <;> rfl

theorem emit_gate (src ev sev data : Nat) (s : State) : GateCtl s.ctl (emit src ev sev data s).ctl := rfl

theorem tellConflict_gate (p id : Nat) (r : EventRec) (x : Bytes) (s : State) : GateCtl s.ctl (tellConflict p id r x s).ctl := by
  unfold tellConflict; split
  · exact direct_gate ..
  · rfl

theorem refuse_gate (path session addr code : Nat) (s : State) : GateCtl s.ctl (refuse path session addr code s).ctl := by
  unfold refuse
  dsimp only
  split
  · refine .trans ?_ (direct_gate ..); exact rfl
  · exact rfl

theorem logConflict_gate (m : WriteMark) (path session : Nat) (value : Word) (s : State) :
    GateCtl s.ctl (logConflict m path session value s).ctl := by
  unfold logConflict
  dsimp only
  refine .trans (.trans ?_ (tellConflict_gate ..)) (tellConflict_gate ..)
  exact rfl

theorem noteWrite_gate (path session addr : Nat) (value : Word) (s : State) :
    GateCtl s.ctl (noteWrite path session addr value s).ctl := by
  unfold noteWrite
  dsimp only
  split
  · split
    · exact .trans (logConflict_gate ..) rfl
    · exact rfl
  · exact rfl

theorem writeGate_gate (path session addr : Nat) (value : Word) (s : State) :
    GateCtl s.ctl (writeGate path session addr value s).1.ctl := by
  unfold writeGate
  split
  · rfl
  · split
    · dsimp only
      split <;> split
      · exact refuse_gate ..
      · rfl
      · exact .trans (noteWrite_gate ..) (refuse_gate ..)
      · exact noteWrite_gate ..
    · exact refuse_gate ..

end Sys2Proof.Machine
end

