-- ==== Sys2Proof/WellFormed.lean ====
section
/-! DEFINITION. Well-formed commands: every operand fits the field that carries it. The meanings are total and do not need it:
a command that is not well-formed is one that no sender can form. -/

namespace Sys2Proof

/-- A number fits a field of so many bits. -/
def fits (bits n : Nat) : Bool := decide (n < 2 ^ bits)

/-- A register address: 28 bits, whole words (R40). -/
def wfAddr (addr : Nat) : Bool := fits 28 addr && decide (addr % 4 = 0)

/-- A key of the Key Value set has a length of eight bits; R48 refuses one above 16 bytes. -/
def wfKey (key : Bytes) : Bool := fits 8 key.length

/-- A wrap key (R387). -/
def wfKey32 (key : Bytes) : Bool := decide (key.length = 32)

/-- A descriptor's fields (R105). -/
def Sgl.wf (d : Sgl) : Bool := fits 64 d.va && fits 32 d.len && fits 32 d.rkey

/-- The fields of a queue entry (R50). -/
def IoHdr.wf (h : IoHdr) : Bool := fits 16 h.cntlid && fits 16 h.sqid && fits 16 h.cid && fits 32 h.nsid

/-- An admin command's fields. -/
def Admin.wf (a : Admin) : Bool := fits 16 a.cntlid && fits 16 a.cid

/-- A management request's fields (R384). -/
def Req.wf (r : Req) : Bool := fits 16 r.session && fits 63 r.seq

/-- A packet's fields (R83). -/
def Pkt.wf (p : Pkt) : Bool := fits 24 p.qpn && fits 24 p.psn

/-- The fields of an RDMA operation's first packet (R83). -/
def Reth.wf (r : Reth) : Bool := fits 64 r.va && fits 32 r.rkey && fits 32 r.len

/-- A work request's fields (R117). -/
def WorkReq.wf (w : WorkReq) : Bool :=
  fits 8 w.opcode && fits 8 w.flags && fits 24 w.qpn && fits 64 w.localAddr && fits 64 w.remoteVa && fits 32 w.rkey &&
    fits 32 w.length && fits 32 w.imm && fits 32 w.next

/-- A leaf's name (R388). -/
def LeafName.wf : LeafName → Bool
  | .index seq leaf => fits 64 seq && fits 32 leaf
  | .key nsid k => fits 32 nsid && wfKey k
  | .lba nsid n => fits 32 nsid && fits 64 n

/-- A landing region (R111). -/
def Landing.wf (r : Landing) : Bool := fits 16 r.index && fits 8 r.key && fits 64 r.base && fits 32 r.length

/-- A window's places at the source. -/
def WindowPlace.wf (p : WindowPlace) : Bool :=
  fits 20 p.first && fits 64 p.entries && fits 64 p.plain && fits 64 p.envs && fits 64 p.bundle && fits 64 p.go && fits 64 p.mbuf

/-- A window's places at the target. -/
def TargetPlace.wf (p : TargetPlace) : Bool :=
  fits 20 p.first && fits 64 p.mbuf && fits 64 p.plain && p.offsets.all (fits 32)

/-- The items of a migration job (R182). -/
def MigItems.wf (m : MigItems) : Bool :=
  fits 64 m.uid && fits 32 m.nsid && fits 32 m.peerNsid && fits 24 m.qpn && fits 12 m.page && fits 16 m.handle &&
    m.regions.all Landing.wf

/-- A drive's facts. -/
def DriveFacts.wf (f : DriveFacts) : Bool := fits 16 f.mqes && fits 64 f.lbaCount

/-- Every operand fits its field. -/
def Instr.wf (i : Instr) : Bool :=
  match i with
  | .registerWrite _ session addr _ => fits 16 session && wfAddr addr
  | .rcFieldRead _ addr => wfAddr addr
  | .pairLowWordRead _ addr => wfAddr addr
  | .pairHighWordRead _ addr => wfAddr addr
  | .pairLowWordWrite _ session addr _ => fits 16 session && wfAddr addr
  | .pairHighWordWrite _ session addr _ => fits 16 session && wfAddr addr
  | .addrUnmapped _ addr _ => wfAddr addr
  | .unsupportedRequestBar0 addr => fits 28 addr
  | .gtsMeasurement _ => true
  | .gtsMeasurementTimeout => true
  | .ppsInEdge => true
  | .ppsOutEdge => true
  | .eventRecord => true
  | .recordRelease => true
  | .unitFenced _ unit reason _ => fits 8 unit && fits 8 reason
  | .controlCoreWatchdog _ _ _ => true
  | .prefixFenceOrder _ session _ unit => fits 16 session && fits 8 unit
  | .connect conn _ qid size cntlid cid kato => fits 24 conn && fits 16 qid && fits 17 size && fits 16 cntlid && fits 16 cid && fits 32 kato
  | .propertyGet a offset => a.wf && fits 32 offset
  | .propertySet a offset value => a.wf && fits 32 offset && fits 64 value
  | .ccEnWritten1 cntlid cid cc aqa asq acq => fits 16 cntlid && cid.all (fits 16) && fits 32 cc && fits 32 aqa && fits 64 asq && fits 64 acq
  | .ccEnWritten0 cntlid cid cc => fits 16 cntlid && cid.all (fits 16) && fits 32 cc
  | .ccShnNormalShutdown cntlid cid cc => fits 16 cntlid && cid.all (fits 16) && fits 32 cc
  | .ccShnAbruptShutdown cntlid cid cc => fits 16 cntlid && cid.all (fits 16) && fits 32 cc
  | .disconnect a sqid => a.wf && fits 16 sqid
  | .identify a cns nsid => a.wf && fits 8 cns && fits 32 nsid
  | .getLogPage a lid nsid => a.wf && fits 8 lid && fits 32 nsid
  | .setFeatures a fid value => a.wf && fits 8 fid && fits 64 value
  | .getFeatures a fid value => a.wf && fits 8 fid && fits 64 value
  | .keepAlive a => a.wf
  | .abort a sqid target others => a.wf && fits 16 sqid && fits 16 target && fits 32 others
  | .asynchronousEventRequest a => a.wf
  | .deviceSelfTestShort a nsid => a.wf && fits 32 nsid
  | .deviceSelfTestExtended a nsid => a.wf && fits 32 nsid
  | .deviceSelfTestAbort a => a.wf
  | .read h slba nlb sgl => h.wf && fits 64 slba && fits 17 nlb && sgl.all Sgl.wf
  | .write h slba nlb sgl _ => h.wf && fits 64 slba && fits 17 nlb && sgl.all Sgl.wf
  | .flush h => h.wf
  | .compare h slba nlb sgl _ => h.wf && fits 64 slba && fits 17 nlb && sgl.all Sgl.wf
  | .verify h slba nlb => h.wf && fits 64 slba && fits 17 nlb
  | .writeZeroes h slba nlb => h.wf && fits 64 slba && fits 17 nlb
  | .datasetManagement h _ _ => h.wf
  | .kvStore h key len sgl _ => h.wf && wfKey key && fits 64 len && sgl.all Sgl.wf
  | .kvRetrieve h key bufLen sgl => h.wf && wfKey key && fits 32 bufLen && sgl.all Sgl.wf
  | .kvDelete h key => h.wf && wfKey key
  | .kvExist h key => h.wf && wfKey key
  | .kvList h key bufLen sgl => h.wf && wfKey key && fits 32 bufLen && sgl.all Sgl.wf
  | .kvFlush h => h.wf
  | .invalidCommandOpcode a sqid opc => a.wf && fits 16 sqid && fits 8 opc
  | .createIoSubmissionQueue a qid size cqid _ base => a.wf && fits 16 qid && fits 17 size && fits 16 cqid && fits 64 base
  | .createIoCompletionQueue a qid size vector _ _ base =>
    a.wf && fits 16 qid && fits 17 size && fits 16 vector && fits 64 base
  | .arbiterGrant _ => true
  | .lastDataCellStored entry => fits 16 entry
  | .lastParityCellReady entry => fits 16 entry
  | .unitWriteCompletion (.unit entry set row unit) _ _ => fits 32 entry && fits 32 set && fits 16 row && fits 8 unit
  | .unitWriteCompletion (.other lba) _ _ => fits 64 lba
  | .driveReadCompletion entry set row unit _ _ _ => fits 16 entry && fits 32 set && fits 16 row && fits 8 unit
  | .journalCompletion jseq _ _ => fits 64 jseq
  | .rdmaWriteAcknowledged entry => fits 16 entry
  | .completionHandedToXpt entry => fits 16 entry
  | .drainFinished cntlid => fits 16 cntlid
  | .keepAliveTimeout cntlid => fits 16 cntlid
  | .activateImage _ session _ => fits 16 session
  | .activateFirmware _ session _ => fits 16 session
  | .actDrained => true
  | .actDeferred => true
  | .actDone => true
  | .boundResumed => true
  | .idleTimerExpiry => true
  | .powerStateExitDone => true
  | .selftestDone result failed => fits 4 result && failed.all fun u => fits 8 u.1 && fits 8 u.2
  | .selftestTimeout => true
  | .cmReq _ => true
  | .cmRtu qpn => fits 24 qpn
  | .cmDreq qpn => fits 24 qpn
  | .cmDrep qpn => fits 24 qpn
  | .contextDrainTimeout qpn => fits 24 qpn
  | .contextErrorTimeout qpn => fits 24 qpn
  | .sendReceived p _ _ => p.wf
  | .sendWithImmediateReceived p imm _ => p.wf && fits 32 imm
  | .sendWithInvalidateReceived p key _ => p.wf && fits 32 key
  | .rdmaWriteReceived p _ _ _ => p.wf
  | .rdmaWriteWithImmediateReceived p _ imm _ => p.wf && fits 32 imm
  | .rdmaReadRequestReceived p reth => p.wf && reth.wf
  | .rdmaReadResponseReceived qpn psn _ _ => fits 24 qpn && fits 24 psn
  | .acknowledgeReceived qpn psn _ _ => fits 24 qpn && fits 24 psn
  | .nakPsnSequenceErrorReceived qpn psn => fits 24 qpn && fits 24 psn
  | .rnrNakReceived qpn psn _ => fits 24 qpn && fits 24 psn
  | .nakRemoteAccessErrorReceived qpn psn => fits 24 qpn && fits 24 psn
  | .nakInvalidRequestReceived qpn psn => fits 24 qpn && fits 24 psn
  | .cnpReceived qpn => fits 24 qpn
  | .invalidOpcodePacket p opcode => p.wf && fits 16 opcode
  | .ackTimeout qpn => fits 24 qpn
  | .rnrWaitExpiry qpn => fits 24 qpn
  | .ackCoalescingTimeout qpn => fits 24 qpn
  | .contextFill ctx _ _ => fits 17 ctx
  | .victimWriteBack => true
  | .xptInvCtrl _ session _ => fits 16 session
  | .invLimitReached region => fits 17 region
  | .xptCtxSel _ session _ => fits 16 session
  | .triggerArm _ tag qpn head mbufLen mbuf posts => fits 32 tag && fits 24 qpn && fits 32 head && fits 32 mbufLen && fits 64 mbuf && (posts.all fun x => fits 32 x.1 && x.2.wf)
  | .triggerDisarm _ => true
  | .triggerReclaim _ => true
  | .chainStart => true
  | .workRequestCompletion _ wr _ => fits 32 wr
  | .wrRdmaWrite _ => true
  | .wrRdmaWriteWithImmediate _ => true
  | .wrSend _ => true
  | .wrRdmaRead _ => true
  | .wrDriveRead _ => true
  | .wrDriveWrite _ => true
  | .wrDigestCheck _ => true
  | .wrCustodyRecord _ => true
  | .wrEnvelopeSeal _ => true
  | .wrEnvelopeOpen _ => true
  | .wrWaitUntilGts _ => true
  | .waitGtsReached _ wr => fits 32 wr
  | .wrNotify _ => true
  | .layoutSliceDone _ _ => true
  | .sealIdleTimeout set => fits 32 set
  | .setSealed set => fits 32 set
  | .reclaimDone set _ => fits 32 set
  | .journalReplayDone _ tail headers _ => tail.all (fun r => fits 64 r.jseq) && headers.all fun h => fits 32 h.1 && fits 16 h.2.1
  | .ckptInterval => true
  | .layCkptCtrlStart _ session _ => fits 16 session
  | .checkpointWriteCompletion _ _ => true
  | .rebuildSetDone _ => true
  | .readRepair set row unit _ => fits 32 set && fits 16 row && fits 8 unit
  | .driveReturned _ => true
  | .scrubRow set row _ => fits 32 set && fits 16 row
  | .layFormatOrder _ session _ => fits 16 session
  | .batchClosed => true
  | .batchSealed signMs => fits 32 signMs
  | .leavesRecomputed _ => true
  | .fixityAuditObject extent _ => fits 64 extent
  | .migWindowPlanned _ count _ place _ => fits 32 count && place.wf
  | .manifestPlan _ _ window entries _ place => fits 32 window && place.wf && entries.all fun e => e.length == 256
  | .manifestAck _ window statuses => fits 32 window && statuses.all (fits 8)
  | .manifestVoid _ window statuses => fits 32 window && statuses.all (fits 8)
  | .manifestFinal _ => true
  | .migRegionsRegistered _ regions => regions.all Landing.wf
  | .migCutoverOrder _ session _ => fits 16 session
  | .migAbortOrder _ session _ => fits 16 session
  | .cutoverTimeout _ => true
  | .migConnectionErrorTimeout _ => true
  | .presenceSeated _ => true
  | .presenceRemoval _ _ _ _ => true
  | .perstReleaseTimer _ => true
  | .driveLinkUp _ rate width corrected => fits 8 rate && fits 8 width && fits 32 corrected
  | .trainingTimeout _ => true
  | .driveAdminCompletion _ facts => facts.wf
  | .initStepTimeout _ _ => true
  | .ioCommandTimeout _ => true
  | .adminCommandTimeout _ => true
  | .controllerFatalStatus _ => true
  | .driveLinkDown _ _ corrected => fits 32 corrected
  | .dmaFault _ start len => fits 64 start && fits 32 len
  | .preemptCompletion _ _ => true
  | .drvPortRetrain _ session _ => fits 16 session
  | .drvPortDisable _ session _ => fits 16 session
  | .drvPortEnable _ session _ => fits 16 session
  | .drvPortRecover _ session _ => fits 16 session
  | .drvPwrdisOrder _ session _ => fits 16 session
  | .pwrdisRelease _ => true
  | .legPgWaitTimeout _ => true
  | .smbusPoll _ _ serial => serial.all (fits 64)
  | .frameReceived _ _ _ => true
  | .linkUp _ => true
  | .linkDown _ _ _ => true
  | .fecDegraded _ codewords => fits 32 codewords
  | .fecDegradedCleared _ => true
  | .pfcFrameReceived _ _ => true
  | .pfcPauseExpiry _ _ => true
  | .pfcRefresh _ _ => true
  | .frameTransmitted _ _ => true
  | .prtTsCtrl _ session _ => fits 16 session
  | .wakeMatch _ _ => true
  | .clsRuleRead _ session _ => fits 16 session
  | .clsRuleWrite _ session _ => fits 16 session
  | .clsRuleInvalidate _ session _ => fits 16 session
  | .bloodhoundPass _ => true
  | .swcMcRead _ session _ => fits 16 session
  | .swcMcWrite _ session _ => fits 16 session
  | .tmgQRead _ session _ => fits 16 session
  | .tmgQWrite _ session _ => fits 16 session
  | .tmgPolRead _ session _ => fits 16 session
  | .tmgPolWrite _ session _ => fits 16 session
  | .tmgGateRead _ session _ => fits 16 session
  | .tmgGateWrite _ session _ => fits 16 session
  | .tmgGateCommit _ session _ => fits 16 session
  | .tmgGateStop _ session _ => fits 16 session
  | .gateSwitch _ => true
  | .gateListStopped _ => true
  | .gateEntryEnd _ => true
  | .tmgHistSel _ session _ => fits 16 session
  | .mediaQueueGrant bytes => fits 32 bytes
  | .cipherRequest _ => true
  | .cipherSegmentDone _ _ => true
  | .laneKnownAnswerTest _ _ => true
  | .keyGenerate _ session _ => fits 16 session
  | .keyImport _ session _ => fits 16 session
  | .keyExport _ session _ => fits 16 session
  | .keyDestroy _ session _ => fits 16 session
  | .keyEscrowAgain _ session _ => fits 16 session
  | .keyOrderDone => true
  | .truRotate _ session _ => fits 16 session
  | .truRollback _ session _ => fits 16 session
  | .truEnrolImageKey _ session _ => fits 16 session
  | .truRemoveImageKey _ session _ => fits 16 session
  | .entropyFail _ => true
  | .entropyOk => true
  | .heLinkUp speed width _ _ => fits 8 speed && fits 8 width
  | .heLinkDown => true
  | .heFundamentalReset => true
  | .heHotReset => true
  | .flrPf1 => true
  | .flrVf _ => true
  | .flrPf0 => true
  | .flrComplete _ _ => true
  | .vfEnable numVfs _ _ => fits 16 numVfs
  | .bmeCleared _ => true
  | .submissionQueueDoorbell _ qid tail => fits 16 qid && fits 16 tail
  | .completionQueueDoorbell _ qid head => fits 16 qid && fits 32 head
  | .hostReadCompletion _ _ byteCount _ => fits 16 byteCount
  | .cplTimeout _ => true
  | .tagHoldExpiry _ => true
  | .msixUnmask _ vector => vector.all (fits 16)
  | .peerMemoryRequest offset len _ => fits 32 offset && fits 64 len
  | .hepPwinCommit _ session _ => fits 16 session
  | .pwinCommit => true
  | .hepPptRead _ session _ => fits 16 session
  | .hepPptWrite _ session _ => fits 16 session
  | .leashUp _ role => fits 8 role
  | .leashLockLost _ => true
  | .leashSilence _ => true
  | .leashResendTimeout _ => true
  | .idleFrameTimer _ => true
  | .idleFrameReceived _ gts => gts.all (fits 64)
  | .epochEnd => true
  | .epochFrameReceived _ _ => true
  | .noticeFrameReceived _ _ => true
  | .echoReceived _ epoch _ => fits 64 epoch
  | .voteMissed _ => true
  | .epochMiss => true
  | .probeReceived _ about => fits 8 about
  | .probeReplyReceived _ about misses _ => fits 8 about && fits 32 misses
  | .probeTimeout => true
  | .takeoverReplayDone _ _ _ driveNs => fits 64 driveNs
  | .takeoverDone => true
  | .fenceReceived _ role => fits 8 role
  | .takeoverReceived _ epoch => fits 64 epoch
  | .handoverDoneReceived _ => true
  | .joinReceived _ mode epochUs _ _ => fits 8 mode && fits 16 epochUs
  | .joinReplyReceived _ epoch refused => fits 64 epoch && refused.all (fits 64)
  | .bulkReceived _ epoch percent _ _ => fits 64 epoch && fits 7 percent
  | .queryReceived _ kind _ _ => fits 8 kind
  | .joinTimer => true
  | .joinTimeExpiry => true
  | .reservationCheck _ => true
  | .redRoleSwitch _ session _ => fits 16 session
  | .redRoleFence _ session _ => fits 16 session
  | .redRoleRelease _ session _ => fits 16 session
  | .redRoleStandDown _ session _ => fits 16 session
  | .handover => true
  | .handoverDrainLimit => true
  | .hello _ payload _ => payload.length == 29836
  | .ping r => r.wf
  | .regRead r addr count => r.wf && wfAddr addr && fits 32 count
  | .regWrite r pairs => r.wf && (pairs.all fun x => wfAddr x.1)
  | .boneAcquire r lease => r.wf && fits 32 lease
  | .boneRelease r => r.wf
  | .imageBegin r kind slot length => r.wf && fits 8 kind && fits 8 slot && fits 32 length
  | .imageData r offset _ => r.wf && fits 32 offset
  | .imageCommit r => r.wf
  | .profileActivate r kind slot => r.wf && fits 8 kind && fits 8 slot
  | .profileErase r slot => r.wf && fits 8 slot
  | .profileList r => r.wf
  | .eventSubscribe r ring => r.wf && fits 8 ring
  | .eventAck r ring seq => r.wf && fits 8 ring && fits 64 seq
  | .eventUnsubscribe r ring => r.wf && fits 8 ring
  | .clogRead r first count => r.wf && fits 32 first && fits 32 count
  | .keyPut r _ => r.wf
  | .keyGet r => r.wf
  | .escrowCollect r count => r.wf && fits 32 count
  | .receiptGet r name => r.wf && name.wf
  | .custodyExport r name => r.wf && name.wf
  | .certGet r kind rotation => r.wf && fits 8 kind && fits 8 rotation
  | .quote r _ => r.wf
  | .migJobCreate r items => r.wf && items.wf
  | .migJobReport r slot => r.wf && fits 8 slot
  | .cellsAlloc r pages => r.wf && fits 32 pages
  | .cellsFree r handles => r.wf && handles.all (fits 24)
  | .sessionClose r => r.wf
  | .badOpcode r opcode => r.wf && fits 16 opcode
  | .sessionIdleTimeout session => fits 16 session
  | .mgmtLinkLoss _ => true
  | .eventMessageResend _ seq => fits 64 seq
  | .i3cRead _ addr count => wfAddr addr && fits 32 count
  | .i3cWrite _ addr _ => wfAddr addr
  | .i3cStatus _ => true
  | .i3cCommission _ principal key => fits 16 principal && wfKey32 key
  | .storeBegin _ kind slot length => fits 8 kind && fits 8 slot && fits 32 length
  | .storeData _ offset _ => fits 32 offset
  | .storeCommit _ => true
  | .i3cRestart _ => true
  | .boneReqAcquire _ session _ => fits 16 session
  | .boneReqRelease _ session _ => fits 16 session
  | .boneReqRenew _ session _ => fits 16 session
  | .boneExpired => true
  | .ctlLockSet _ session _ => fits 16 session
  | .ringReaderBind _ session _ _ => fits 16 session
  | .ringReadSnapshot _ _ => true
  | .ringReadRemove _ _ => true
  | .fastTrip _ => true
  | .faultTimerExpiry _ => true
  | .modelTemperatureLimit _ => true
  | .rampTimeLimit _ => true
  | .rampComplete _ => true
  | .gateCheckFail _ => true
  | .drainSourceShort _ => true
  | .legPg _ => true
  | .legPgWithdrawn _ => true
  | .legDischarged _ => true
  | .legRetry _ => true
  | .retryCountClear _ => true
  | .pwrLegOnOrder _ session _ => fits 16 session
  | .pwrLegOffOrder _ session _ => fits 16 session
  | .feedFault _ _ mv => fits 32 mv
  | .feedOk _ => true
  | .sensorPoll _ => true
  | .fanFail _ rpm => fits 32 rpm
  | .fanRecovered _ rpm => fits 32 rpm
  | .thermTrip => true
  | .telSnapStart _ session _ => fits 16 session
  | .snapDone => true
  | .samplerOverflow _ => true
  | .sampleCaptureTimeout _ => true
  | .sampleReadSnapshot _ => true
  | .sampleReadRemove _ => true
  | .telSamplerWrite _ session _ _ => fits 16 session
  | .powerOnReset => true
  | .fundamentalReset => true
  | .powerGoodLoss _ => true
  | .warmResetPin => true
  | .systemWatchdogExpiry => true
  | .bootStart _ _ _ _ => true
  | .pllLocked _ _ _ => true
  | .bootDone => true
  | .recoveryRestart => true
  | .clockLost _ => true
  | .clockPresent _ => true
  | .controlTick _ _ _ => true
  | .coreClockEdge steps => steps.all (fits 64)
  | .epochRecordSent => true
  | .interruptCoalescingTimeout _ vector => fits 16 vector
  | .mgmtNeighbourDiscovery _ _ _ => true

end Sys2Proof
end

