-- ==== Sys2Proof/Tests/Slice0.lean ====
section
/-! SUPPORT. The model's own tests: the refusals of ill-formed commands, the specification's worked examples, and for every
statement a state and operands that meet what it assumes. -/

open Sys2Proof Sys2Proof.Machine

namespace Sys2Proof.Tests

set_option linter.unusedVariables false
set_option maxRecDepth 8000
set_option synthInstance.maxHeartbeats 2000000
set_option synthInstance.maxSize 3000

/-! Small states. -/

/-- A unit that runs: boot done, no reset in force. -/
def up : State := { State.reset with boot := { State.reset.boot with step := 10, inReset := .none, sysRstHigh := true } }
/-- The same with the Bone held by PF0. -/
def upBone : State := up.onCtl fun c => { c with bone := { (default : Bone) with held := true, path := 4, leaseEnd := 1000000000, leaseLen := 1000000000 } }
/-- GTS follows a source. -/
def following (p : Nat) (good : Nat) (locked : Bool) : State :=
  up.onCtl fun c => { c with gts := { c.gts with source := p, enabled := [1, 2, 3], present := [p], good := good, locked := locked } }
/-- Controller 1 in a state, with its admin queue and I/O queue 1. -/
def ctrl (s : State) (state cc : Nat) : State :=
  s.onCmd fun c => { c with
    ctrls := [(1, { (default : Controller) with exists_ := true, state := state, cc := cc, queues := 128, pm := 3, kato := 5000 })]
    queues := [(256, { (default : Queue) with exists_ := true, size := 32, cls := 2 }), (257, { (default : Queue) with exists_ := true, size := 64, cls := 2 })]
    hostNqns := [[7]], lastCntlid := 1 }
/-- The same with a block namespace 1 and a Key Value namespace 2. -/
def io (s : State) : State :=
  (ctrl s 2 0).onCmd fun c => { c with namespaces :=
    [(1, { (default : Namespace) with valid := true, lbaShift := 12, capacity := 1000 }), (2, { (default : Namespace) with valid := true, kv := true, lbaShift := 12 })] }
/-- A capsule of I/O queue 1 of controller 1. -/
def capOf (opc nsid : Nat) : Capsule :=
  { (default : Capsule) with cntlid := 1, sqid := 1, cid := 6, opc := opc, nsid := nsid, port := 0, cls := 2 }
/-- Entry 16384 in a state with a capsule. -/
def entry (s : State) (e : Entry) : State := s.onCmd fun c => { c with table := [(16384, e)] }
/-- A live entry. -/
def live (st : CmdState) (c : Capsule) : Entry := { (default : Entry) with live := true, state := st, cap := c }
/-- Set 0 with one row, whose unit 1 stores nothing. -/
def rowed (s : State) : State := s.onLay fun l => { l with
  sets := [(0, { (default : SetRec) with state := .opened, nsid := 1, rowsUsed := 1, rows := [(0, { (default : RowInfo) with dataUnits := 2, unitCrcs := [0, unitCrc 1 []] })] })] }
/-- The host configuration of the examples. -/
def cfg : HostCfg := ⟨true, true, false, 1, 0x1FF, false, 512, 512, true, 1, true⟩
/-- A state whose endpoint has its link up with PF1 (controller 0xFF00, READY), PF0 and an I/O queue pair 1. -/
def host (s : State) : State :=
  let s := (s.setFld F.HEP_LINK_STAT_UP 1).onHep fun h => { h with
    fns := [(0, ⟨true, false, true, true, false, 1, 0x1FF, false, 0, 0x1F001F, 0x1000, 0x2000, false⟩), (65, ⟨true, false, true, false, false, 0, 0, false, 0, 0, 0, 0, false⟩)]
    mrrs := 512, mps := 512, tag10 := true
    sqs := [(0xFF0000, ⟨0x1000, 0, 0⟩), (0xFF0001, ⟨0x8000, 0, 0⟩)]
    cqs := [(0xFF0000, ⟨true, 32, 0, true, 0, 0, 0x2000, 0, []⟩), (0xFF0001, ⟨true, 16, 1, true, 0, 0, 0x6000, 0, []⟩)] }
  s.onCmd fun c => { c with
    ctrls := [(0xFF00, { (default : Controller) with exists_ := true, fn := some 0, state := 2, cc := 0x460001, queues := 128, pm := 3 })]
    queues := [(0xFF0000, ⟨true, 32, 2, 64, 0, true, 0⟩), (0xFF0001, ⟨true, 16, 2, 64, 0, true, 1⟩)] }
/-- A tag of the endpoint with a read of a data fetch outstanding. -/
def tagged (s : State) (st : TagState) : State := s.onHep fun h => { h with
  tags := [(5, ⟨st, ⟨0, 0x4000, 8, .data 16384 1 0⟩, [0, 0, 0, 0, 0, 0, 0, 0]⟩)], fresh := 6
  fetches := [(16384, ⟨1, [0, 0, 0, 0, 0, 0, 0, 0], 1⟩)] }
/-- A connection in RTS with nothing in flight. -/
def rts : Context :=
  { (default : Context) with state := 3, pmtu := 3, cntlid := 0xFFFF, sqid := 0xFFFF, initDepth := 4, retryLeft := 7, rnrLeft := 7, rate := 100, migration := true, rqTail := 16 }
/-- A state with QPN 0x200000 in the given context. -/
def conn (s : State) (c : Context) : State := s.onXpt fun x => { x with ctx := [(0, c)] }
/-- A state with region 5, key 7, over 4,096 bytes from 0x1000. -/
def region (s : State) (state : Nat) (users : List Nat) : State :=
  s.onXpt fun x => { x with regions := [(5, { (default : Region) with base := 0x1000, length := 4096, key := 7, access := 7, state := state, users := users })] }
/-- A state with the chain of trigger 3 at work request 8, and that request. -/
def chained (s : State) (w : WorkReq) : State := s.onXpt fun x => { x with
  triggers := [(3, ⟨77, 0x200000, 2, 8, 64, 0x4000, 0⟩)], pool := [(8, w)]
  chains := [(3, ⟨true, [], some 8, 0, none⟩)] }
/-- A work request on QPN 0x200000. -/
def wreq (op : Nat) : WorkReq := { (default : WorkReq) with opcode := op, qpn := 0x200000, localAddr := 0x9000, remoteVa := 0x5000, rkey := 0x707, length := 4, imm := 6, next := 0xFFFFFFFF }
/-- The same with the request in progress. -/
def inProgress (s : State) (w : WorkReq) : State := s.onXpt fun x => { x with
  triggers := [(3, ⟨77, 0x200000, 2, 8, 64, 0x4000, 0⟩)], pool := [(8, w)]
  chains := [(3, ⟨true, [(8, 0)], none, 1, none⟩)] }
/-- A migration key of page 3 (slot 0, handle 0x40 × 1 + 2). -/
def keyed (s : State) : State := s.onCip fun c => { c with
  slots := [(0, { (default : KeySlot) with typ := 2, state := 1, tenant := 3, handle := 66, key := [1, 2] })]
  entries := [(3 * 64 + 2, ⟨1, 1⟩)] }
/-- The ARGS of a request of a chain under that key. -/
def sealReq (op : Nat) : WorkReq := { wreq op with length := 64, args := [3, 0, 66, 0, 0, 0, 0, 0, 0, 1, 0, 0, 0, 0, 0, 0, 0, 2, 0, 0, 0, 0, 0, 0] }
/-- A cipher request under that key. -/
def creq (mode : CipherMode) : CipherReq := { (default : CipherReq) with page := 3, keyPage := 3, handle := 66, mode := mode, data := [5, 6] }
/-- A namespace whose map names extent 9, with a leaf for it. -/
def leafed (s : State) : State :=
  (s.onLay fun l => { l with map := [{ (default : MapEntry) with nsid := 1, start := 0, length := 1, set := 0, extent := 9 }] }).onFix
    fun f => { f with opened := [{ (default : Batch) with stop := 1000, fresh := [{ (default : Leaf) with typ := 1, keyLen := 1, extent := 9 }] }] }
/-- Session 5 on port MA, of a principal with every right, which holds the Bone. -/
def sessioned (s : State) : State := s.onCtl fun c => { c with
  sessions := [(5, { (default : Session) with principal := 1, highSeq := 9, idleS := 100 })]
  principals := [(1, { (default : Principal) with valid := true, rights := 15, ports := 3 })]
  bone := { (default : Bone) with held := true, path := 0, session := 5, leaseEnd := 1000000000, leaseLen := 1000000000 } }
/-- Drives 0 and 1 of a shelf in service, one copy of each record. -/
def pool (s : State) : State := s.onLay fun l => { l with
  geoms := [(1, ⟨1, 1, 16⟩)]
  drives := [(0, { (default : Drive) with uuid := 5, state := 1, lbaCount := 400000000, chunkCount := 1000 }), (1, { (default : Drive) with uuid := 6, state := 1, lbaCount := 400000000, chunkCount := 1000 })] }
/-- A state with set 0 in a state. -/
def setIn (s : State) (r : SetRec) : State := s.onLay fun l => { l with sets := [(0, r)] }
/-- A set of namespace 1 with one used row. -/
def aSet (st : SetState) : SetRec := { (default : SetRec) with state := st, nsid := 1, rowsUsed := 1, reason := 2, members := [⟨0, 3, false⟩], rows := [(0, { (default : RowInfo) with dataUnits := 1, unitCrcs := [unitCrc 1 []] })] }
/-- Migration job 2. -/
def mig (s : State) (j : MigJob) : State := s.onFix fun f => { f with jobs := [(2, j)] }
/-- A source job that copies namespace 1. -/
def job (st : Nat) (target : Bool) : MigJob := { (default : MigJob) with state := st, target := target, uid := 4, nsid := 1, qpn := 0x200000 }
/-- An object to migrate, and its sealed leaf. -/
def mobj : MigObj := { (default : MigObj) with jseq := 3, extent := 9, kv := true, key := [1] , length := 8 }
/-- A closed batch with the leaf of the object of `mobj`. -/
def sealedFor (s : State) : State := s.onFix fun f => { f with sealed := [{ (default : Batch) with seq := 1, leaves := [{ (default : Leaf) with typ := 1, keyLen := 1, nsid := 1, length := 8, key := [1], extent := 9 }] }] }
/-- Root port 3 in a state. -/
def port (s : State) (p : DrvPort) : State := s.onDrv fun d => { d with ports := [(3, p)] }
/-- A root port whose drive serves. -/
def ready : DrvPort := { (default : DrvPort) with state := 5, speed := 6, width := 4, perstReleased := true, refClock := true }
/-- Facts of a drive that R200 accepts. -/
def facts : DriveFacts := ⟨256, true, 1023, true, true, 400000000, true, true, true, 131072, true, ([], []), none⟩
/-- A state whose port 0 (800G) has its link up and takes frames of up to 1,518 bytes. -/
def linked (s : State) : State := (s.setFldI F.PRT_PORT_CFG_MODE 0 0).setFldI F.PRT_LPORT_STAT_LINK_UP 0 1
/-- The same with a parse graph of one terminal node and a TCAM entry that matches every frame, with an action. -/
def classed (s : State) (action : Nat) : State := (linked s).onNet fun n => { n with
  nodes := [{ (default : ParseNode) with terminal := true }], tcam := [(0, ⟨true, 0, 0, BitVec.ofNat 64 action⟩)] }
/-- A frame of 64 bytes with its FCS, all zero. -/
def zeros : Bytes := List.replicate 60 0
/-- A PFC frame that pauses priority 2 and releases priority 3. -/
def pauseFrame : Bytes := List.replicate 12 0 ++ [0x88, 8, 1, 1, 0, 12] ++ [0, 0, 0, 0, 0, 5] ++ List.replicate 36 0
/-- A unit in PS4 with the one wake port 0 and a filter that matches every frame of zeros. -/
def asleep (s : State) : State := ((linked s).onCmd fun c => { c with ps := 4 }).onNet fun n => { n with
  wake := [(0x1000040, 0x10), (0x1005000, BitVec.ofNat 32 (crc32 (List.replicate 128 0))), (0x1005200, 1)] }
/-- A gate list active on port 0: entry 0 opens every gate for 100 ns, entry 1 none for 50 ns. -/
def gated (s : State) : State := ((linked s).setFldI F.TMG_GATE_STAT_ENABLED 0 1).onNet fun n => { n with
  gateCfg := [(0, 0xFF000064), (1, 50), (1024, 0x01000010)], gates := [(0, { (default : Gates) with last := 1 })] }
/-- A unit of a group: mode 1 pair or 2 trio, its role, its state, and both Leash links up. -/
def leash (s : State) (mode role st : Nat) : State :=
  ((((s.setFld F.RED_MODE_MODE mode).setFld F.RED_MODE_ROLE role).setFld F.RED_STAT_STATE st).setFldI F.RED_LINK_STAT_UP 0 1).setFldI
    F.RED_LINK_STAT_UP 1 1
/-- The header of the first frame on a link from a role. -/
def hdr (link : Fin 2) (src : Nat) : LeashHdr := ⟨link, 1, 0, src, 0, 9, true⟩
/-- A request of session 5 on port MA. -/
def req : Req := ⟨0, 5, 10, true⟩
/-- The same session with ring 2 bound to it, which holds two records. -/
def bound (s : State) : State := (sessioned s).onCtl fun c => { c with rings := [(2, { (default : Ring) with
  reader := 2, session := 5, total := 2, recs := [(1, default), (2, { (default : EventRec) with gts := 7 })], unacked := [⟨1, 2, 9⟩] })] }
/-- The session's state with a type 2 key (handle 66 of page 3) and namespace 1. -/
def custodial (s : State) : State := (keyed (sessioned s)).onCmd fun c => { c with namespaces := [(1, { (default : Namespace) with valid := true, lbaShift := 12, capacity := 1000 })] }
/-- A store of 8 bytes into profile slot 2 by a path and session. -/
def storing (s : State) (path session : Nat) : State := s.onCtl fun c => { c with stores := [⟨path, session, 1, 2, 8, [0, 0, 0, 0, 0, 0, 0, 0]⟩] }
/-- Recovery 3. -/
def recovering (s : State) : State := s.onBoot fun b => { b with recovery := 3 }
/-- Leg 3 in a state on an enabled feed 1. -/
def legIn (s : State) (st : Nat) : State :=
  (((s.setFldI F.PWR_LEG_STAT_STATE 3 st).setFldI F.PWR_LEG_CFG_FEED 3 1).setFldI F.PWR_FEED_CFG_EN 1 1).onPwr fun p => { p with
    legs := [(3, { (default : Leg) with gateOn := decide (1 ≤ st ∧ st ≤ 2) })] }
/-- A unit in reset. -/
def held (k : ResetKind) : State := { State.reset with boot := { State.reset.boot with inReset := k } }
/-- A Delay_Req message of 44 bytes over Layer 2, sequenceId 6. -/
def delayReq : Bytes := List.replicate 12 0 ++ [0x88, 0xF7, 1, 2, 0, 44] ++ List.replicate 26 0 ++ [0, 6] ++ List.replicate 12 0
/-- The same, of no migration. -/
def plain : Context := { rts with migration := false }
/-- Peer window 0 over the first 64 KiB, for reads and writes, of pages 0 and 1 of the table, in cells 2 and 3. -/
def windowed (s : State) : State := ({ s with regs := setRawWord s.regs liveBase 0xF0000000 }.setFld F.HEP_CFG_PEER_EN 1).onHep
  fun h => { h with ppt := [(0, 0xC0000020), (1, 0xC0000030)] }

/-- A UDP/IPv4 frame of 64 bytes whose checksum is wrong. -/
def badUdp : Bytes := List.replicate 12 0 ++ [8, 0, 0x45, 0, 0, 40, 0, 0, 0, 0, 64, 17] ++ List.replicate 14 0 ++ [0, 20, 0, 1] ++ List.replicate 18 0

/-! Ill-formed terms, one for each check. -/

theorem test_fits : fits 8 256 = false := by decide
theorem test_wfAddr : wfAddr 0x41 = false ∧ wfAddr 0x10000000 = false := by decide
theorem test_wfKey : wfKey (List.replicate 256 0) = false := by decide
theorem test_wfKey32 : wfKey32 [0] = false := by decide
theorem test_sgl : (⟨0, 2 ^ 32, 0, false⟩ : Sgl).wf = false := by decide
theorem test_ioHdr : (⟨0x10000, 1, 0, 1⟩ : IoHdr).wf = false := by decide
theorem test_admin : (⟨1, 0x10000⟩ : Admin).wf = false := by decide
theorem test_req : (⟨0, 5, 2 ^ 63, true⟩ : Req).wf = false := by decide
theorem test_pkt : ({ (default : Pkt) with psn := 2 ^ 24 } : Pkt).wf = false := by decide
theorem test_reth : ({ (default : Reth) with rkey := 2 ^ 32 } : Reth).wf = false := by decide
theorem test_workReq : ({ (default : WorkReq) with opcode := 256 } : WorkReq).wf = false := by decide
theorem test_leafName : (LeafName.index (2 ^ 64) 0).wf = false := by decide
theorem test_landing : (⟨2 ^ 16, 0, 0, 0⟩ : Landing).wf = false := by decide
theorem test_windowPlace : ({ (default : WindowPlace) with first := 2 ^ 20 } : WindowPlace).wf = false := by decide
theorem test_targetPlace : ({ (default : TargetPlace) with offsets := [2 ^ 32] } : TargetPlace).wf = false := by decide
theorem test_migItems : ({ (default : MigItems) with page := 4096 } : MigItems).wf = false := by decide
theorem test_driveFacts : ({ facts with mqes := 65536 } : DriveFacts).wf = false := by decide
theorem test_instr : (Instr.registerWrite 4 0 0x41 0).wf = false ∧ (Instr.registerWrite 4 0 0x40 0).wf = true := by decide
theorem test_noBits : decodeTableWord 32 0 = none := rfl

/-! The worked examples of the specification. -/

/-- spec/01_architecture.md, after R30: the record of buffer bank 37's fence, byte by byte. -/
theorem test_recordBytes : (⟨0x17E42A9000001F40, 0x530, 3, 4, 0x32502003F⟩ : EventRec).bytes =
    [0x40, 0x1F, 0, 0, 0x90, 0x2A, 0xE4, 0x17, 0x30, 0x35, 0x04, 0xF0, 0x03, 0x20, 0x50, 0x32] := by decide

/-- The same fence as the model emits it: block 3, unit 0x25, reason 2, 63 banks left. -/
theorem test_fenceRecord : (fenceUnit 3 37 2 up).ctl.inflight.head? = some ⟨0, 0x530, 3, 4, 0x32502003F⟩ := by decide

/-- spec/01_architecture.md, after R34: the leg's record, then MA's, then MB's. -/
theorem test_recordOrder :
    firstHeld [⟨0x17E42A9000001F40, 0x011, 0, 5, 0⟩, ⟨0x17E42A9000001F3C, 0x305, 0, 5, 0⟩, ⟨0x17E42A9000001F40, 0x010, 0, 5, 0⟩] =
      some ⟨0x17E42A9000001F3C, 0x305, 0, 5, 0⟩ ∧
    firstHeld [⟨0x17E42A9000001F40, 0x011, 0, 5, 0⟩, ⟨0x17E42A9000001F40, 0x010, 0, 5, 0⟩] =
      some ⟨0x17E42A9000001F40, 0x010, 0, 5, 0⟩ := by decide

/-- spec/03_transport.md, after R107: a sample of 12,000 ns lowers RATE from 4,000 to 3,333 units; one of 7,500 ns raises it
to 3,343. -/
theorem test_rateFalls :
    (ctxOf (onSample 0x200000 12000 4000 ((conn up { rts with rate := 4000, baseRtt := 6000 }).onCtl fun c =>
      { c with gts := { c.gts with now := 15000 } })) 0x200000).rate = 3333 := by decide
theorem test_rateRises :
    (ctxOf (onSample 0x200000 7500 4000 ((conn up { rts with rate := 3333, baseRtt := 6000 }).onCtl fun c =>
      { c with gts := { c.gts with now := 14000 } })) 0x200000).rate = 3343 := by decide

/-- spec/03_transport.md, after R115: the remote key of region 0x0412. -/
theorem test_remoteKey : regionIndex 0x0004125C = 0x0412 := by decide

/-- spec/04_layout_engine.md, the recovery example: CHUNK_COUNT and DATA_START of a drive of 7,500,000,000 blocks. -/
theorem test_chunkCount : chunkCountOf 7500000000 = 455264 ∧ dataStart 455264 = 40943616 := by decide

/-- The same example: the coefficients for m = 2, and one of the reader's products. -/
theorem test_coefficients : (List.range 4).map (coeff 2 0) = [1, 1, 1, 1] ∧
    (List.range 4).map (coeff 2 1) = [0xF5, 0x8F, 0xA6, 0x46] ∧ gmul 0xF5 0x10 = 0xEB := by decide +kernel

/-- spec/05_fixity_custody.md, after R172: the tree over five leaves promotes the fifth twice. -/
theorem test_treeRoot (h0 h1 h2 h3 h4 : Digest) :
    treeRoot [h0, h1, h2, h3, h4] = nodeHash (nodeHash (nodeHash h0 h1) (nodeHash h2 h3)) h4 := by
  simp [treeRoot, levelUp, List.range, List.range.loop]

/-! What the statements assume can be met. -/

theorem witness_EveryCommandChangesOnlyItsParts : ∃ (i : Instr) (s t : State), exec i s = .next t :=
  ⟨.ppsOutEdge, up, _, rfl⟩

theorem witness_StepsKeepTheCanonicalForm : ∃ s t : State, Canonical s ∧ step s = .next t :=
  ⟨State.reset, _, ⟨rfl, rfl, by decide⟩, rfl⟩

theorem witness_GlobalTimeNeverGoesBack :
    ∃ s t : State, (∀ c ∈ s.pending.head?, isReset c = false) ∧ step s = .next t :=
  ⟨{ up with pending := [.ppsOutEdge] }, _, by simp [isReset], rfl⟩

theorem witness_FencesStayUntilAReset :
    ∃ (s t : State) (block unit : Nat), (∀ c ∈ s.pending.head?, isReset c = false) ∧ step s = .next t ∧
      fencedUnit s block unit = true :=
  ⟨{ (up.onCtl fun c => { c with blocks := [(0, ⟨8, true, 3, 4, 0⟩)] }) with pending := [.ppsOutEdge] }, _, 0, 3,
    by simp [isReset], rfl, by decide⟩

theorem witness_RollbackCountNeverFalls : ∃ s t : State, step s = .next t :=
  ⟨{ up with pending := [.ppsOutEdge] }, _, rfl⟩

theorem witness_CriticalLogStaysBounded : ∃ s t : State, s.ctl.clog.length ≤ 65536 ∧ step s = .next t :=
  ⟨{ up with pending := [.ppsOutEdge] }, _, by decide, rfl⟩

/-- What `RegistersAreAlignedAndBar0IsStrict` assumes can be met. -/
theorem witness_RegistersAreAlignedAndBar0IsStrict :
    ∃ (addr : Nat) (r : RegRow × Nat),
    (findReg addr = some r) :=
  ⟨0x70, (findReg 0x70).getD default, by decide⟩

/-- What the clauses of `PairReadsUseTheSnapshot` assume can be met. -/
theorem witness_PairReadsUseTheSnapshot :
    (∃ (addr l : Nat),
      (mapped addr = true) ∧
      (pairOf addr = some l)) ∧
    (∃ (path : Fin 5) (addr : Nat) (s : State),
      (readLive s path.val = true) ∧
      ((path.val = 4 → pf0Open s = true)) ∧
      (mapped addr = true) ∧
      (pairOf addr = some addr)) ∧
    (∃ (path : Fin 5) (addr l : Nat) (s : State),
      (readLive s path.val = true) ∧
      ((path.val = 4 → pf0Open s = true)) ∧
      (mapped addr = true) ∧
      (pairOf addr = some l) ∧
      (addr ≠ l) ∧
      ((s.ctl.paths.at path.val).lastRead = some l)) ∧
    (∃ (path : Fin 5) (addr l : Nat) (s : State),
      (readLive s path.val = true) ∧
      ((path.val = 4 → pf0Open s = true)) ∧
      (mapped addr = true) ∧
      (pairOf addr = some l) ∧
      (addr ≠ l) ∧
      ((s.ctl.paths.at path.val).lastRead ≠ some l)) :=
  ⟨⟨0x58, 0x54, by decide⟩,
   ⟨4, 0x54, up, by decide⟩,
   ⟨4, 0x58, 0x54, up.onCtl fun c => { c with paths := [(4, ⟨some 0x54, 7, none⟩)] }, by decide⟩,
   ⟨4, 0x58, 0x54, up.onCtl fun c => { c with paths := [(4, ⟨some 0x60, 7, none⟩)] }, by decide⟩⟩

/-- What the clauses of `PairWritesAreStaged` assume can be met. -/
theorem witness_PairWritesAreStaged :
    (∃ (path : Fin 5) (session addr : Nat) (value : Word) (s : State),
      (addr ∈ [0x60, 0x0400007C]) ∧
      (MayWrite path session addr s)) ∧
    (∃ (path : Fin 5) (session l : Nat) (low value : Word) (s : State),
      (l ∈ [0x60, 0x0400007C]) ∧
      (MayWrite path session (l + 4) s) ∧
      (s.locked = false) ∧
      (∀ m ∈ s.ctl.marks, m.gts = s.now → m.addr = l + 4 → pathOrder m.path.val ≤ pathOrder path.val) ∧
      ((s.ctl.paths.at path.val).staged = some (l, low))) ∧
    (∃ (path : Fin 5) (session l : Nat) (value : Word) (s : State),
      (l ∈ [0x60, 0x0400007C]) ∧
      (MayWrite path session (l + 4) s) ∧
      (s.locked = false) ∧
      (∀ m ∈ s.ctl.marks, m.gts = s.now → m.addr = l + 4 → pathOrder m.path.val ≤ pathOrder path.val) ∧
      ((∀ w, (s.ctl.paths.at path.val).staged ≠ some (l, w)))) :=
  ⟨⟨4, 0, 0x60, 5, up, by decide⟩,
   ⟨4, 0, 0x0400007C, 9, 8, up.onCtl fun c => { c with paths := [(4, ⟨none, 0, some (0x0400007C, 9)⟩)] }, by decide⟩,
   ⟨4, 0, 0x60, 8, up.onCtl fun c => { c with paths := [(4, ⟨none, 0, some (0x0400007C, 9)⟩)] }, by refine ⟨by decide, by decide, by decide, by decide, fun w h => ?_⟩; have h2 : (some (0x0400007C, 9) : Option (Nat × Word)) = some (0x60, w) := h; simp at h2⟩⟩

/-- What `CriticalRecordsAreLogged` assumes can be met. -/
theorem witness_CriticalRecordsAreLogged :
    ∃ (s : State) (r : EventRec) (rest : List EventRec),
    (s.ctl.inflight = r :: rest) ∧
    (r.severity = 4) :=
  ⟨up.onCtl fun c => { c with inflight := [⟨0, 1, 4, 1, 0⟩] }, ⟨0, 1, 4, 1, 0⟩, [], by decide⟩

/-- What the clauses of `NinthAbortIsRefused` assume can be met. -/
theorem witness_NinthAbortIsRefused :
    (∃ (a : Admin) (sqid target others : Nat) (s : State),
      ((ctrlOf s a.cntlid).ready = true) ∧
      (8 ≤ others) ∧
      (Awake s)) ∧
    (∃ (a : Admin) (sqid target others : Nat) (s : State),
      (1 ≤ s.cmd.ps ∧ s.cmd.ps ≤ 3 ∨ s.cmd.ps = 0 ∧ s.cmd.exiting = true)) :=
  ⟨⟨⟨1, 5⟩, 1, 6, 8, ctrl up 2 0, by decide⟩,
   ⟨⟨1, 5⟩, 1, 6, 8, (ctrl up 2 0).onCmd fun c => { c with ps := 3 }, by decide⟩⟩

/-- What the clauses of `InvalidationsAreTakenOneAtATime` assume can be met. -/
theorem witness_InvalidationsAreTakenOneAtATime :
    (∃ (path : Fin 5) (session : Nat) (value : Word) (s : State),
      (MayWrite path session 0x0500006C s) ∧
      (s.xpt.invCtrl = none) ∧
      (regionIndex value.toNat < 65536) ∧
      ((s.xpt.regions.at (regionIndex value.toNat)).state = 1) ∧
      ((s.xpt.regions.at (regionIndex value.toNat)).key = value.toNat % 256) ∧
      ((s.xpt.regions.at (regionIndex value.toNat)).users ≠ [])) ∧
    (∃ (path : Fin 5) (session : Nat) (value : Word) (s : State),
      (MayWrite path session 0x0500006C s) ∧
      (bitAt (shownWord s 0x05000070).toNat 31 = true)) :=
  ⟨⟨4, 0, 0x507, region up 1 [0x200000], by decide⟩,
   ⟨4, 0, 0x507, up.onXpt fun x => { x with invCtrl := some 4 }, by decide⟩⟩

/-- What the clauses of `TransmitStampsAreQueued` assume can be met. -/
theorem witness_TransmitStampsAreQueued :
    (∃ (lport : Fin 64) (f : Bytes) (p m : Nat) (s : State),
      (ptpEvent f = some (p, m)) ∧
      (oneStep s f m = false) ∧
      ((s.net.stamps.at lport.val).length < 16)) ∧
    (∃ (lport : Fin 64) (f : Bytes) (p m : Nat) (s : State),
      (ptpEvent f = some (p, m)) ∧
      (oneStep s f m = false) ∧
      (16 ≤ (s.net.stamps.at lport.val).length)) ∧
    (∃ (path : Fin 5) (session : Nat) (value : Word) (st : TxStamp) (rest : List TxStamp) (s : State),
      (MayWrite path session 0x01000048 s) ∧
      (s.net.stamps.at (bitsOf value.toNat 5 0) = st :: rest)) :=
  ⟨⟨0, delayReq, 14, 1, linked up, by decide⟩,
   ⟨0, delayReq, 14, 1, (linked up).onNet fun n => { n with stamps := [(0, List.replicate 16 default)] }, by decide⟩,
   ⟨4, 0, 2, ⟨5, 6, 0, 0⟩, [⟨7, 8, 0, 0⟩], up.onNet fun n => { n with stamps := [(2, [⟨5, 6, 0, 0⟩, ⟨7, 8, 0, 0⟩])] }, by decide⟩⟩

/-- What the clauses of `PendingStartsWaitForDischarge` assume can be met. -/
theorem witness_PendingStartsWaitForDischarge :
    (∃ (leg cause : Nat) (s : State),
      (legState s leg = 0) ∧
      (discharged s leg = false) ∧
      (s.fldI F.PWR_LEG_STAT_PENDING leg = 0)) ∧
    (∃ (leg cause : Nat) (s : State),
      (legState s leg = 0) ∧
      (discharged s leg = false) ∧
      (s.fldI F.PWR_LEG_STAT_PENDING leg = 1)) ∧
    (∃ (leg : Fin 48) (s : State),
      (legState s leg.val = 0) ∧
      (s.fldI F.PWR_LEG_STAT_PENDING leg.val = 1) ∧
      (feedOn s (legFeed s leg.val) = true)) ∧
    (∃ (slot : Fin 48) (low0 low1 line : Bool) (s : State),
      ((s.drv.slots.at slot.val).seated = true) ∧
      ((low0 && low1) = false)) ∧
    (∃ (path : Fin 5) (session : Nat) (value : Word) (s : State),
      (MayWrite path session 0x0C000044 s) ∧
      (bitsOf value.toNat 31 24 = 0x3C ∧ bitsOf value.toNat 23 20 = 2 ∧ bitsOf value.toNat 5 0 < 48) ∧
      (legState s (bitsOf value.toNat 5 0) ≠ 4)) :=
  ⟨⟨3, 2, onLeg 3 (fun l => { l with vout := 600 }) (legIn up 0), by decide⟩,
   ⟨3, 2, onLeg 3 (fun l => { l with vout := 600 }) ((legIn up 0).setFldI F.PWR_LEG_STAT_PENDING 3 1), by decide⟩,
   ⟨3, (legIn up 0).setFldI F.PWR_LEG_STAT_PENDING 3 1, by decide⟩,
   ⟨3, true, false, false, ((legIn up 0).setFldI F.PWR_LEG_STAT_PENDING 3 1).onDrv fun d => { d with slots := [(3, { (default : DrvSlot) with seated := true })] }, by decide⟩,
   ⟨4, 0, 0x3C200003, (legIn upBone 0).setFldI F.PWR_LEG_STAT_PENDING 3 1, by decide⟩⟩

/-- What the clauses of `RegisterAccessCompletes` assume can be met. -/
theorem witness_RegisterAccessCompletes :
    (∃ (path : Fin 5) (session addr : Nat) (value : Word) (s : State) (r : RegRow × Nat),
      (findReg addr = some r) ∧
      (mapped addr = true) ∧
      (0x20 ≤ addr % 0x1000000) ∧
      (addr ∉ [0x60, 0x64, 0x0400007C, 0x04000080]) ∧
      (addr ∉ [0x03000054, 0x04000044, 0x04000060, 0x04000074, 0x0D00005C]) ∧
      (∀ m ∈ s.ctl.marks, m.gts = s.now → m.addr ≠ addr) ∧
      (writeOwnArray path session addr value s = none) ∧
      (writeOwnLow path session addr value s = none) ∧
      (writeOwnMid path session addr value s = none) ∧
      (writeOwnHigh path session addr value s = none) ∧
      (MayWrite path session addr s) ∧
      (s.locked = false)) ∧
    (∃ (path : Fin 5) (session addr : Nat) (value : Word) (s : State) (r : RegRow × Nat),
      (findReg addr = some r) ∧
      (mapped addr = true) ∧
      (0x20 ≤ addr % 0x1000000) ∧
      (addr ∉ [0x60, 0x64, 0x0400007C, 0x04000080]) ∧
      (∀ m ∈ s.ctl.marks, m.gts = s.now → m.addr ≠ addr) ∧
      (writeOwnArray path session addr value s = none) ∧
      (writeOwnLow path session addr value s = none) ∧
      (writeOwnMid path session addr value s = none) ∧
      (writeOwnHigh path session addr value s = none) ∧
      (addr ∉ [0x0300004C, 0x08000040, 0x04000088, 0x09000040, 0x01000044]) ∧
      (¬(0x02000200 ≤ addr ∧ addr < 0x02000220) ∧ ¬(0x06000200 ≤ addr ∧ addr < 0x06000300)) ∧
      (fanReg addr = false) ∧
      (¬(0x01000200 ≤ addr ∧ addr < 0x01000300) ∧ ¬(0x03000200 ≤ addr ∧ addr < 0x03000300)) ∧
      (MayWrite path session addr s) ∧
      (s.locked = false)) ∧
    (∃ (path : Fin 5) (session addr : Nat) (value : Word) (s : State) (r : RegRow × Nat),
      (findReg addr = some r) ∧
      (mapped addr = true) ∧
      (0x20 ≤ addr % 0x1000000) ∧
      (addr ∉ [0x60, 0x64, 0x0400007C, 0x04000080]) ∧
      (∀ m ∈ s.ctl.marks, m.gts = s.now → m.addr ≠ addr) ∧
      (writeOwnArray path session addr value s = none) ∧
      (writeOwnLow path session addr value s = none) ∧
      (writeOwnMid path session addr value s = none) ∧
      (writeOwnHigh path session addr value s = none) ∧
      (MayWrite path session addr s) ∧
      (s.locked = false)) ∧
    (∃ (path : Fin 5) (session addr : Nat) (value : Word) (s : State),
      (addr ∈ [0x03000054, 0x04000044, 0x04000060, 0x04000074, 0x0D00005C]) ∧
      (writeOwnLow path session addr value s = none) ∧
      (writeOwnHigh path session addr value s = none) ∧
      (MayWrite path session addr s) ∧
      (s.locked = false)) ∧
    (∃ (path : Fin 5) (addr : Nat) (s : State) (r : RegRow × Nat),
      (readLive s path.val = true) ∧
      ((path.val = 4 → pf0Open s = true)) ∧
      (mapped addr = true) ∧
      (findReg addr = some r) ∧
      (pairOf addr = none) ∧
      (elem 0x280 8 16 addr = none) ∧
      (elem 0x28C 8 16 addr = none) ∧
      (addr % 0x1000000 ≠ 0x14) ∧
      (addr ∉ [0x03000048, 0x0F000100, 0x0F00013C])) ∧
    (∃ (path : Fin 5) (addr : Nat) (s : State),
      (mapped addr = false) ∧
      (readLive s path.val = true) ∧
      ((path.val = 4 → pf0Open s = true))) ∧
    (∃ (path : Fin 5) (addr : Nat) (s : State),
      (mapped addr = false) ∧
      (path.val % 2 = 0) ∧
      (readLive s path.val = true)) ∧
    (∃ (path : Fin 5) (session addr : Nat) (value : Word) (m : WriteMark) (s : State) (r : RegRow × Nat),
      (findReg addr = some r) ∧
      (mapped addr = true) ∧
      (0x1000000 ≤ addr ∧ 0x20 ≤ addr % 0x1000000) ∧
      (addr ∉ [0x0400007C, 0x04000080]) ∧
      (addr ∉ [0x03000054, 0x04000044, 0x04000060, 0x04000074, 0x0D00005C]) ∧
      (protectedAddr addr = false) ∧
      (s.ctl.marks = [m]) ∧
      (m.gts = s.now ∧ m.addr = addr ∧ m.path ≠ path ∧ m.value ≠ value) ∧
      (writeOwnArray path session addr value s = none) ∧
      (writeOwnLow path session addr value s = none) ∧
      (writeOwnMid path session addr value s = none) ∧
      (writeOwnHigh path session addr value s = none) ∧
      (MayWrite path session addr s) ∧
      (s.locked = false)) :=
  ⟨⟨4, 0, 0x05000040, 0x12345678, up, ((findReg 0x05000040).getD default), by decide⟩,
   ⟨4, 0, 0x05000040, 0x12345678, up, ((findReg 0x05000040).getD default), by decide⟩,
   ⟨4, 0, 0x0C000040, 0x12345678, up, ((findReg 0x0C000040).getD default), by decide⟩,
   ⟨4, 0, 0x0D00005C, 0x0, up.setFld F.HEP_PPT_SEL_DONE 1, by decide⟩,
   ⟨4, 0x00000070, up, ((findReg 0x70).getD default), by decide⟩,
   ⟨4, 0x20, up, by decide⟩,
   ⟨4, 0x20, up, by decide⟩,
   ⟨0, 5, 0x05000040, 0x12345678, ⟨up.now, 0x05000040, 4, 0, 0x11⟩, (sessioned up).onCtl fun c => { c with marks := [⟨up.now, 0x05000040, 4, 0, 0x11⟩] }, ((findReg 0x05000040).getD default), by decide⟩⟩

/-- What the clauses of `TimeAndRecordsComplete` assume can be met. -/
theorem witness_TimeAndRecordsComplete :
    (∃ (offset : Int) (s : State),
      (s.ctl.gts.source ≠ 4) ∧
      (s.ctl.gts.locked = true) ∧
      (1000 < offset.natAbs)) ∧
    (∃ (offset : Int) (s : State),
      (s.ctl.gts.source ≠ 4) ∧
      (offset < 0) ∧
      (¬(s.ctl.gts.locked = true ∧ 1000 < offset.natAbs))) ∧
    (∃ (offset : Int) (s : State),
      (0 ≤ offset)) ∧
    (∃ (offset : Int) (s : State),
      (s.ctl.gts.source ≠ 4) ∧
      (offset.natAbs < 100) ∧
      (s.ctl.gts.locked = false) ∧
      (s.ctl.gts.good = 15)) ∧
    (∃ (s : State),
      (s.ctl.gts.source ≠ 4)) ∧
    (∃ (s : State),
      (s.ctl.gts.present.contains 2 = false) ∧
      (chooseSource { s.ctl.gts with present := 2 :: s.ctl.gts.present } ≠ 2)) ∧
    (∃ (s : State),
      (s.ctl.gts.source = 2) ∧
      (chooseSource s.ctl.gts = 2) ∧
      (s.ctl.gts.present.contains 2 = true) ∧
      (s.ctl.gts.locked = false) ∧
      (s.now < ppsSecond s)) ∧
    (∃ (s : State),
      (atSecond s = true)) ∧
    (∃ (s : State) (r : EventRec) (rest : List EventRec),
      (s.ctl.inflight = r :: rest) ∧
      (s.now ≤ r.gts + 1000)) ∧
    (∃ (s : State) (r : EventRec) (rest : List EventRec),
      (s.ctl.inflight = r :: rest) ∧
      (r.gts + 1000 < s.now) ∧
      (4 ≤ s.boot.step)) ∧
    (∃ (s : State) (r : EventRec),
      (firstHeld s.ctl.held = some r) ∧
      (4 ≤ s.boot.step) ∧
      (s.ctl.ringMap = none) ∧
      (s.fldI F.CTL_RING_CFG_MIN_SEV 0 ≤ r.severity) ∧
      ((s.ctl.rings.at 0).lost = 0) ∧
      ((s.ctl.rings.at 0).recs.length < (s.ctl.rings.at 0).capacity)) :=
  ⟨⟨2000, following 1 16 true, by decide⟩,
   ⟨-50, following 1 0 false, by decide⟩,
   ⟨50, following 1 0 false, by decide⟩,
   ⟨-5, following 1 15 false, by decide⟩,
   ⟨following 1 16 true, by decide⟩,
   ⟨following 1 0 false, by decide⟩,
   ⟨(following 2 0 false).onCtl fun c => { c with gts := { c.gts with now := 600000000 } }, by decide⟩,
   ⟨up, by decide⟩,
   ⟨up.onCtl fun c => { c with inflight := [⟨0, 1, 4, 1, 0⟩] }, ⟨0, 1, 4, 1, 0⟩, [], by decide⟩,
   ⟨up.onCtl fun c => { c with inflight := [⟨0, 1, 1, 1, 0⟩], gts := { c.gts with now := 5000 } }, ⟨0, 1, 1, 1, 0⟩, [], by decide⟩,
   ⟨up.onCtl fun c => { c with held := [⟨0, 1, 1, 1, 0⟩] }, ⟨0, 1, 1, 1, 0⟩, by decide⟩⟩

/-- What the clauses of `FenceCommandsComplete` assume can be met. -/
theorem witness_FenceCommandsComplete :
    (∃ (block : Fin 16) (unit reason : Nat) (request : Option (Req × Nat)) (s : State),
      (unit < unitsOf block.val) ∧
      (fencedUnit s block.val unit = false) ∧
      ((block.val = 12 → legState s unit ≠ 4))) ∧
    (∃ (core onto : Fin 16) (request : Option (Req × Nat)) (s : State),
      (fencedUnit s 0 core.val = false)) ∧
    (∃ (core onto : Fin 16) (r : Req) (op : Nat) (s : State),
      (fencedUnit s 0 core.val = false) ∧
      (sessionOpen s r.session = true) ∧
      ((s.ctl.sessions.at r.session).port = r.port.val) ∧
      (r.tagOk = true) ∧
      ((s.ctl.sessions.at r.session).highSeq < r.seq)) ∧
    (∃ (core : Fin 16) (reason : Nat) (r : Req) (op : Nat) (s : State),
      (fencedUnit s 0 core.val = false) ∧
      (sessionOpen s r.session = true) ∧
      ((s.ctl.sessions.at r.session).port = r.port.val) ∧
      (r.tagOk = true) ∧
      ((s.ctl.sessions.at r.session).highSeq < r.seq)) ∧
    (∃ (path : Fin 5) (session : Nat) (block : Fin 16) (unit : Nat) (s : State),
      (MayWrite path session (block.val * 0x1000000 + 0x18) s) ∧
      (unit < 256) ∧
      (unit < unitsOf block.val) ∧
      (fencedUnit s block.val unit = false) ∧
      (floorOf block.val < unitsLeft s block.val) ∧
      ((block.val = 12 → legState s unit ≠ 4))) ∧
    (∃ (path : Fin 5) (session : Nat) (block : Fin 16) (unit : Nat) (s : State),
      (MayWrite path session (block.val * 0x1000000 + 0x18) s) ∧
      (unit < 256) ∧
      (unit < unitsOf block.val) ∧
      (fencedUnit s block.val unit = false) ∧
      (unitsLeft s block.val ≤ floorOf block.val)) :=
  ⟨⟨3, 5, 2, none, up, by decide⟩,
   ⟨3, 4, none, up, by decide⟩,
   ⟨3, 4, req, 0x20, sessioned up, by decide⟩,
   ⟨3, 3, req, 0x20, sessioned up, by decide⟩,
   ⟨4, 0, 10, 63, upBone, by decide⟩,
   ⟨4, 0, 0, 15, upBone.onCtl fun c => { c with blocks := [(0, ⟨15, true, 3, 4, 0⟩)] }, by decide⟩⟩

/-- What the clauses of `BoneRingAndLockCommandsComplete` assume can be met. -/
theorem witness_BoneRingAndLockCommandsComplete :
    (∃ (session : Nat) (value : Word) (s : State),
      (MayWrite 4 session 0x50 s) ∧
      (s.fld F.CTL_CFG_PF0_BONE = 1) ∧
      (s.ctl.bone.held = false)) ∧
    (∃ (session : Nat) (value : Word) (s : State),
      (MayWrite 4 session 0x50 s) ∧
      (holdsBone s 4 0 = true)) ∧
    (∃ (session : Nat) (value : Word) (s : State),
      (MayWrite 4 session 0x50 s) ∧
      (holdsBone s 4 0 = true)) ∧
    (∃ (s : State),
      (s.ctl.bone.held = true)) ∧
    (∃ (path : Fin 5) (session : Nat) (value : Word) (s : State),
      (MayWrite path session 0x44 s) ∧
      (value.toNat % 2 = 1) ∧
      (s.locked = false)) ∧
    (∃ (session : Nat) (ring : Fin 8) (value : Word) (s : State),
      (MayWrite 4 session (0x200 + 4 * ring.val) s) ∧
      ((s.ctl.rings.at ring.val).reader = 0) ∧
      (bitsOf value.toNat 31 30 = 1)) ∧
    (∃ (session : Nat) (ring : Fin 8) (value : Word) (s : State),
      (MayWrite 4 session (0x200 + 4 * ring.val) s) ∧
      ((s.ctl.rings.at ring.val).reader = 1) ∧
      (bitsOf value.toNat 31 30 = 0)) ∧
    (∃ (ring : Fin 8) (r : Nat × EventRec) (rest : List (Nat × EventRec)) (s : State),
      (pf0Open s = true) ∧
      ((s.ctl.rings.at ring.val).reader = 1) ∧
      ((s.ctl.rings.at ring.val).recs = r :: rest)) ∧
    (∃ (ring : Fin 8) (r : EventRec) (s : State),
      (pf0Open s = true) ∧
      ((s.ctl.rings.at ring.val).reader = 1) ∧
      ((s.ctl.rings.at ring.val).snap = some r) ∧
      ((s.ctl.rings.at ring.val).lost = 0)) :=
  ⟨⟨0, 1, up.setFld F.CTL_CFG_PF0_BONE 1, by decide⟩,
   ⟨0, 2, upBone, by decide⟩,
   ⟨0, 3, upBone, by decide⟩,
   ⟨upBone, by decide⟩,
   ⟨4, 0, 1, upBone, by decide⟩,
   ⟨0, 2, 0x40000000, up, by decide⟩,
   ⟨0, 2, 0, up.onCtl fun c => { c with rings := [(2, { (default : Ring) with reader := 1 })] }, by decide⟩,
   ⟨1, (1, ⟨5, 1, 1, 1, 9⟩), [], up.onCtl fun c => { c with rings := [(1, { (default : Ring) with reader := 1, recs := [(1, ⟨5, 1, 1, 1, 9⟩)], total := 1 })] }, by decide⟩,
   ⟨1, ⟨5, 1, 1, 1, 9⟩, up.onCtl fun c => { c with rings := [(1, { (default : Ring) with reader := 1, recs := [(1, ⟨5, 1, 1, 1, 9⟩)], total := 1, snap := some ⟨5, 1, 1, 1, 9⟩ })] }, by decide⟩⟩

/-- What the clauses of `TelemetryCommandsComplete` assume can be met. -/
theorem witness_TelemetryCommandsComplete :
    (∃ (path : Fin 5) (session : Nat) (value : Word) (s : State),
      (MayWrite path session 0x0F000044 s) ∧
      (bitAt value.toNat 0 = true) ∧
      (s.fld F.TEL_SNAP_STAT_BUSY = 0) ∧
      (s.now < 2 ^ 64)) ∧
    (∃ (path : Fin 5) (session : Nat) (value : Word) (s : State),
      (MayWrite path session 0x0F000044 s) ∧
      (bitAt value.toNat 0 = true) ∧
      (s.fld F.TEL_SNAP_STAT_BUSY = 1) ∧
      (snapGts s ≠ s.now)) ∧
    (∃ (path : Fin 5) (session : Nat) (value : Word) (s : State),
      (MayWrite path session 0x0F000044 s) ∧
      (bitAt value.toNat 0 = true) ∧
      (s.fld F.TEL_SNAP_STAT_BUSY = 1) ∧
      (snapGts s = s.now)) ∧
    (∃ (s : State),
      (s.fld F.TEL_SNAP_STAT_BUSY = 1)) ∧
    (∃ (sampler : Fin 16) (s : State),
      ((s.tel.samplers.at sampler.val).down ≤ 0) ∧
      (s.fldI F.TEL_SAMPLER_EN sampler.val = 1) ∧
      ((s.tel.samplers.at sampler.val).armed = false)) ∧
    (∃ (sampler : Fin 16) (s : State),
      ((s.tel.samplers.at sampler.val).down ≤ 0) ∧
      (s.fldI F.TEL_SAMPLER_EN sampler.val = 1) ∧
      ((s.tel.samplers.at sampler.val).armed = true)) ∧
    (∃ (sampler : Fin 16) (s : State),
      ((s.tel.samplers.at sampler.val).armed = true) ∧
      (s.tel.samples.length < 16384)) ∧
    (∃ (path : Fin 5) (s : State),
      (readLive s path.val = true) ∧
      (path.val = 4 → pf0Open s = true)) ∧
    (∃ (path : Fin 5) (s : State),
      (readLive s path.val = true) ∧
      (path.val = 4 → pf0Open s = true)) ∧
    (∃ (path : Fin 5) (session : Nat) (sampler : Fin 16) (value : Word) (s : State),
      (MayWrite path session (0x0F000060 + 4 * sampler.val) s)) ∧
    (∃ (steps : List Nat) (s : State),
      (s.ctl.gts.ppm = 0) ∧
      (s.ctl.gts.frac = 0)) :=
  ⟨⟨4, 0, 1, up, by decide⟩,
   ⟨4, 0, 1, (up.setFld F.TEL_SNAP_STAT_BUSY 1).setFld F.TEL_SNAP_GTS_LO_GTS 7, by decide⟩,
   ⟨4, 0, 1, up.setFld F.TEL_SNAP_STAT_BUSY 1, by decide⟩,
   ⟨up.setFld F.TEL_SNAP_STAT_BUSY 1, by decide⟩,
   ⟨3, up.setFldI F.TEL_SAMPLER_EN 3 1, by decide⟩,
   ⟨3, (up.setFldI F.TEL_SAMPLER_EN 3 1).onTel fun t => { t with samplers := [(3, ⟨0, true, 0, 0, 5⟩)] }, by decide⟩,
   ⟨3, up.onTel fun t => { t with samplers := [(3, ⟨0, true, 0, 0, 5⟩)] }, by decide⟩,
   ⟨4, up, by decide⟩,
   ⟨4, up, by decide⟩,
   ⟨4, 0, 2, 0x80000001, up, by decide⟩,
   ⟨[], up, by decide⟩⟩

/-- What the clauses of `ControllersComplete` assume can be met. -/
theorem witness_ControllersComplete :
    (∃ (conn : Nat) (nqn : Bytes) (size cid kato : Nat) (s : State),
      ((ctxOf s conn).carriesConnect = true) ∧
      ((ctxOf s conn).sqid = 0xFFFF) ∧
      (connectTest s nqn 0 size 0xFFFF = none) ∧
      (Awake s)) ∧
    (∃ (conn : Nat) (nqn : Bytes) (qid size cntlid cid kato : Nat) (s : State),
      (0 < qid) ∧
      ((ctxOf s conn).carriesConnect = true) ∧
      ((ctxOf s conn).sqid = 0xFFFF) ∧
      (connectTest s nqn qid size cntlid = none) ∧
      (Awake s)) ∧
    (∃ (conn : Nat) (nqn : Bytes) (qid size cntlid cid kato : Nat) (st : Status) (s : State),
      ((ctxOf s conn).carriesConnect = true) ∧
      ((ctxOf s conn).sqid = 0xFFFF) ∧
      (connectTest s nqn qid size cntlid = some st) ∧
      (Awake s)) ∧
    (∃ (a : Admin) (offset v : Nat) (s : State),
      ((ctrlOf s a.cntlid).fn = none) ∧
      (property (ctrlOf s a.cntlid) offset = some v) ∧
      (Awake s)) ∧
    (∃ (a : Admin) (value : Nat) (s : State),
      ((ctrlOf s a.cntlid).exists_ = true) ∧
      ((ctrlOf s a.cntlid).fn = none) ∧
      (bitsOf value 15 14 = bitsOf (ctrlOf s a.cntlid).cc 15 14) ∧
      (bitAt value 0 = bitAt (ctrlOf s a.cntlid).cc 0) ∧
      (Awake s)) ∧
    (∃ (a : Admin) (offset value : Nat) (s : State),
      ((ctrlOf s a.cntlid).fn = none) ∧
      (offset ≠ 0x14) ∧
      (Awake s)) ∧
    (∃ (cntlid cid cc aqa asq acq : Nat) (s : State),
      ((ctrlOf s cntlid).exists_ = true) ∧
      ((ctrlOf s cntlid).fn = none) ∧
      ((ctrlOf s cntlid).state = 0) ∧
      (bitAt (ctrlOf s cntlid).cc 0 = false) ∧
      (bitsOf cc 15 14 = bitsOf (ctrlOf s cntlid).cc 15 14) ∧
      (ccValid cc = true) ∧
      (cc < 2 ^ 32) ∧
      (Awake s)) ∧
    (∃ (cntlid fn cc aqa asq acq : Nat) (s : State),
      ((ctrlOf s cntlid).exists_ = true) ∧
      ((ctrlOf s cntlid).fn = some fn) ∧
      (8 ≤ s.boot.step) ∧
      ((ctrlOf s cntlid).state = 0) ∧
      (bitAt (ctrlOf s cntlid).cc 0 = false) ∧
      (bitsOf cc 15 14 = bitsOf (ctrlOf s cntlid).cc 15 14) ∧
      (ccValid cc = true) ∧
      (cc < 2 ^ 32) ∧
      (adminQueueOk { fnOf s fn with aqa := aqa, asq := asq, acq := acq } cc = true)) ∧
    (∃ (cntlid cid cc : Nat) (s : State),
      ((ctrlOf s cntlid).exists_ = true) ∧
      ((ctrlOf s cntlid).state = 2) ∧
      (bitAt (ctrlOf s cntlid).cc 0 = true) ∧
      (bitsOf cc 15 14 = bitsOf (ctrlOf s cntlid).cc 15 14) ∧
      (Awake s)) ∧
    (∃ (cntlid cid cc : Nat) (s : State),
      ((ctrlOf s cntlid).exists_ = true) ∧
      ((ctrlOf s cntlid).state = 2) ∧
      (bitAt cc 0 = bitAt (ctrlOf s cntlid).cc 0) ∧
      (bitsOf (ctrlOf s cntlid).cc 15 14 = 0) ∧
      (Awake s)) ∧
    (∃ (cntlid cid cc : Nat) (s : State),
      ((ctrlOf s cntlid).exists_ = true) ∧
      ((ctrlOf s cntlid).state = 2) ∧
      (bitAt cc 0 = bitAt (ctrlOf s cntlid).cc 0) ∧
      (bitsOf (ctrlOf s cntlid).cc 15 14 = 0) ∧
      (Awake s)) ∧
    (∃ (a : Admin) (s : State),
      ((ctrlOf s a.cntlid).exists_ = true) ∧
      ((ctrlOf s a.cntlid).fn = none) ∧
      (Awake s)) ∧
    (∃ (a : Admin) (sqid : Nat) (s : State),
      ((ctrlOf s a.cntlid).fn = none) ∧
      (sqid ≠ 0) ∧
      (Awake s)) ∧
    (∃ (cntlid : Nat) (s : State),
      (drained s cntlid = true) ∧
      ((ctrlOf s cntlid).state = 3) ∧
      ((ctrlOf s cntlid).ld = false)) ∧
    (∃ (cntlid : Nat) (s : State),
      (drained s cntlid = true) ∧
      ((ctrlOf s cntlid).state = 5) ∧
      ((ctrlOf s cntlid).le = false)) ∧
    (∃ (cntlid : Nat) (s : State),
      ((ctrlOf s cntlid).exists_ = true) ∧
      ((ctrlOf s cntlid).kato ≠ 0) ∧
      (s.cmd.ps < 3)) :=
  ⟨⟨0x200000, [7], 32, 9, 100, conn (ctrl up 2 0) plain, by decide⟩,
   ⟨0x200000, [7], 3, 1024, 1, 9, 100, conn (ctrl up 2 0) plain, by decide⟩,
   ⟨0x200000, [8], 3, 1024, 1, 9, 100, stConnHost, conn (ctrl up 2 0) plain, by decide⟩,
   ⟨⟨1, 5⟩, 0x1C, 1, ctrl up 2 0, by decide⟩,
   ⟨⟨1, 5⟩, 0x460000, ctrl up 2 0, by decide⟩,
   ⟨⟨1, 5⟩, 0x1C, 0x460000, ctrl up 2 0, by decide⟩,
   ⟨1, 5, 0x460001, 0, 0, 0, ctrl up 0 0, by decide⟩,
   ⟨1, 0, 0x460001, 0x1F001F, 0x1000, 0x2000, (ctrl up 0 0).onCmd fun c => { c with ctrls := [(1, { (default : Controller) with exists_ := true, fn := some 0 })] }, by decide⟩,
   ⟨1, 5, 0x460000, ctrl up 2 0x460001, by decide⟩,
   ⟨1, 5, 0x464001, ctrl up 2 0x460001, by decide⟩,
   ⟨1, 5, 0x468001, ctrl up 2 0x460001, by decide⟩,
   ⟨⟨1, 5⟩, ctrl up 2 0, by decide⟩,
   ⟨⟨1, 5⟩, 1, ctrl up 2 0, by decide⟩,
   ⟨1, ctrl up 3 0, by decide⟩,
   ⟨1, ctrl up 5 0, by decide⟩,
   ⟨1, ctrl up 2 0, by decide⟩⟩

/-- What the clauses of `AdminCommandsComplete` assume can be met. -/
theorem witness_AdminCommandsComplete :
    (∃ (a : Admin) (cns nsid : Nat) (s : State),
      ((ctrlOf s a.cntlid).ready = true) ∧
      ((identifyData s a.cntlid cns nsid).isSome = true) ∧
      (Awake s)) ∧
    (∃ (a : Admin) (lid nsid : Nat) (s : State),
      ((ctrlOf s a.cntlid).ready = true) ∧
      (Awake s)) ∧
    (∃ (a : Admin) (value : Nat) (s : State),
      ((ctrlOf s a.cntlid).ready = true) ∧
      (value < 4) ∧
      (Awake s)) ∧
    (∃ (a : Admin) (value : Nat) (s : State),
      ((ctrlOf s a.cntlid).ready = true) ∧
      (4 ≤ value) ∧
      (Awake s)) ∧
    (∃ (a : Admin) (value : Nat) (s : State),
      ((ctrlOf s a.cntlid).ready = true) ∧
      ((ctrlOf s a.cntlid).fn = none) ∧
      (Awake s)) ∧
    (∃ (a : Admin) (fid value : Nat) (s : State),
      ((ctrlOf s a.cntlid).ready = true) ∧
      (fid = 0x01 ∨ fid = 0x0B) ∧
      (Awake s)) ∧
    (∃ (a : Admin) (value : Nat) (s : State),
      ((ctrlOf s a.cntlid).ready = true) ∧
      (Awake s)) ∧
    (∃ (a : Admin) (fid value : Nat) (s : State),
      ((ctrlOf s a.cntlid).ready = true) ∧
      (fid = 0x01 ∨ fid = 0x0B) ∧
      (Awake s)) ∧
    (∃ (a : Admin) (fid value : Nat) (s : State),
      ((ctrlOf s a.cntlid).ready = true) ∧
      (Awake s)) ∧
    (∃ (a : Admin) (s : State),
      ((ctrlOf s a.cntlid).ready = true) ∧
      (Awake s)) ∧
    (∃ (a : Admin) (sqid target others : Nat) (c : Capsule) (s : State),
      ((ctrlOf s a.cntlid).ready = true) ∧
      (others < 8) ∧
      (sqid ≠ 0) ∧
      ((s.cmd.queued.find? fun c => c.cntlid == a.cntlid && c.sqid == sqid && c.cid == target) = some c) ∧
      (Awake s)) ∧
    (∃ (a : Admin) (sqid target others : Nat) (s : State),
      ((ctrlOf s a.cntlid).ready = true) ∧
      (others < 8) ∧
      (sqid ≠ 0) ∧
      ((s.cmd.queued.find? fun c => c.cntlid == a.cntlid && c.sqid == sqid && c.cid == target) = none) ∧
      ((entriesWhere s fun e => e.cap.cntlid == a.cntlid && e.cap.sqid == sqid && e.cap.cid == target) = []) ∧
      (Awake s)) ∧
    (∃ (a : Admin) (s : State),
      ((ctrlOf s a.cntlid).ready = true) ∧
      ((ctrlOf s a.cntlid).notices = []) ∧
      ((ctrlOf s a.cntlid).aers.length < 8) ∧
      (Awake s)) ∧
    (∃ (a : Admin) (nsid : Nat) (s : State),
      ((ctrlOf s a.cntlid).ready = true) ∧
      (s.cmd.test.code = 0) ∧
      (Awake s)) ∧
    (∃ (a : Admin) (nsid : Nat) (s : State),
      ((ctrlOf s a.cntlid).ready = true) ∧
      (s.cmd.test.code = 0) ∧
      (Awake s)) ∧
    (∃ (a : Admin) (nsid : Nat) (s : State),
      ((ctrlOf s a.cntlid).ready = true) ∧
      (s.cmd.test.code ≠ 0) ∧
      (Awake s)) ∧
    (∃ (a : Admin) (s : State),
      ((ctrlOf s a.cntlid).ready = true) ∧
      (s.cmd.test.code ≠ 0) ∧
      (Awake s)) ∧
    (∃ (a : Admin) (opc : Nat) (s : State),
      ((ctrlOf s a.cntlid).ready = true) ∧
      (Awake s)) ∧
    (∃ (a : Admin) (sqid opc : Nat) (s : State),
      (sqid ≠ 0) ∧
      (MayArrive s (capsule ⟨a.cntlid, sqid, a.cid, 0⟩ opc 0)) ∧
      (Awake s)) ∧
    (∃ (a : Admin) (cns nsid : Nat) (s : State),
      (s.cmd.ps ≠ 4) ∧
      (s.cmd.ps ≠ 0 ∨ s.cmd.exiting = true)) :=
  ⟨⟨⟨1, 5⟩, 2, 0, ctrl up 2 0, by decide⟩,
   ⟨⟨1, 5⟩, 0x0C, 0, ctrl up 2 0, by decide⟩,
   ⟨⟨1, 5⟩, 3, ctrl up 2 0, by decide⟩,
   ⟨⟨1, 5⟩, 4, ctrl up 2 0, by decide⟩,
   ⟨⟨1, 5⟩, 0xFFFF, ctrl up 2 0, by decide⟩,
   ⟨⟨1, 5⟩, 0x0B, 0x800, ctrl up 2 0, by decide⟩,
   ⟨⟨1, 5⟩, 500, ctrl up 2 0, by decide⟩,
   ⟨⟨1, 5⟩, 0x0B, 0, ctrl up 2 0, by decide⟩,
   ⟨⟨1, 5⟩, 0x02, 0, ctrl up 2 0, by decide⟩,
   ⟨⟨1, 5⟩, ctrl up 2 0, by decide⟩,
   ⟨⟨1, 5⟩, 1, 6, 7, { (default : Capsule) with cntlid := 1, sqid := 1, cid := 6, opc := 2 }, (ctrl up 2 0).onCmd fun c => { c with queued := [{ (default : Capsule) with cntlid := 1, sqid := 1, cid := 6, opc := 2 }] }, by decide⟩,
   ⟨⟨1, 5⟩, 1, 6, 7, ctrl up 2 0, by decide⟩,
   ⟨⟨1, 5⟩, ctrl up 2 0, by decide⟩,
   ⟨⟨1, 5⟩, 0, ctrl up 2 0, by decide⟩,
   ⟨⟨1, 5⟩, 0, ctrl up 2 0, by decide⟩,
   ⟨⟨1, 5⟩, 0, (ctrl up 2 0).onCmd fun c => { c with test := { c.test with code := 2 } }, by decide⟩,
   ⟨⟨1, 5⟩, (ctrl up 2 0).onCmd fun c => { c with test := { c.test with code := 2 } }, by decide⟩,
   ⟨⟨1, 5⟩, 0x7F, ctrl up 2 0, by decide⟩,
   ⟨⟨1, 5⟩, 1, 0x7F, ctrl up 2 0, by decide⟩,
   ⟨⟨1, 5⟩, 2, 0, (ctrl up 2 0).onCmd fun c => { c with ps := 2 }, by decide⟩⟩

/-- What the clauses of `PowerStatesAndSelfTestsComplete` assume can be met. -/
theorem witness_PowerStatesAndSelfTestsComplete :
    (∃ (s : State),
      (mayDeepen s (s.cmd.ps + 1) = true)) ∧
    (∃ (s : State),
      (s.cmd.exiting = true) ∧
      (0 < s.cmd.ps) ∧
      (s.waiting = [])) ∧
    (∃ (a : Admin) (s : State),
      (s.cmd.exiting = true) ∧
      (s.waiting = [.keepAlive a]) ∧
      (s.cmd.queued = []) ∧
      ((ctrlOf s a.cntlid).ready = true)) ∧
    (∃ (c : Capsule) (st : Status) (s : State),
      (s.cmd.exiting = true) ∧
      (s.waiting = []) ∧
      (s.cmd.queued = [c]) ∧
      (c.untested = true) ∧
      (c.refusal.or (fieldTest s c) = some st)) ∧
    (∃ (result : Nat) (failed : List (Nat × Nat)) (s : State),
      (s.cmd.test.code ≠ 0)) ∧
    (∃ (result lane : Nat) (s : State),
      (s.cmd.test.code ≠ 0) ∧
      (TestItem.cipherLanes ∈ s.cmd.test.items) ∧
      (lane < 64)) ∧
    (∃ (s : State),
      (s.cmd.test.code = 1)) :=
  ⟨⟨ctrl (up.setFld F.CMD_IDLE_TIMER0_IDLE_US 5) 2 0, by decide⟩,
   ⟨up.onCmd fun c => { c with exiting := true, ps := 3 }, by decide⟩,
   ⟨⟨1, 5⟩, { (ctrl up 2 0).onCmd fun c => { c with exiting := true, ps := 3 } with waiting := [.keepAlive ⟨1, 5⟩] }, by decide⟩,
   ⟨{ capOf 2 9 with untested := true }, stInvalidField, (io up).onCmd fun c => { c with exiting := true, ps := 3, queued := [{ capOf 2 9 with untested := true }] }, by decide⟩,
   ⟨7, [(10, 3)], up.onCmd fun c => { c with test := { c.test with code := 2 } }, by decide⟩,
   ⟨7, 3, up.onCmd fun c => { c with test := { c.test with code := 2, items := [.cipherLanes] } }, by decide⟩,
   ⟨up.onCmd fun c => { c with test := { c.test with code := 1 } }, by decide⟩⟩

/-- What the clauses of `IoCommandsAreQueued` assume can be met. -/
theorem witness_IoCommandsAreQueued :
    (∃ (h : IoHdr) (slba nlb : Nat) (sgl : List Sgl) (s : State),
      (Admits s ((blockCapsule h 0x02 slba nlb s).withData sgl []))) ∧
    (∃ (h : IoHdr) (slba nlb : Nat) (sgl : List Sgl) (inline : Bytes) (s : State),
      (Admits s ((blockCapsule h 0x01 slba nlb s).withData sgl inline))) ∧
    (∃ (h : IoHdr) (s : State),
      (Admits s (capsule h 0x00 0))) ∧
    (∃ (h : IoHdr) (slba nlb : Nat) (sgl : List Sgl) (inline : Bytes) (s : State),
      (Admits s ((blockCapsule h 0x05 slba nlb s).withData sgl inline))) ∧
    (∃ (h : IoHdr) (slba nlb : Nat) (s : State),
      (Admits s (blockCapsule h 0x0C slba nlb s))) ∧
    (∃ (h : IoHdr) (slba nlb : Nat) (s : State),
      (Admits s (blockCapsule h 0x08 slba nlb s))) ∧
    (∃ (h : IoHdr) (ranges : List (Nat × Nat)) (s : State),
      (Admits s ({ capsule h 0x09 (blockBytes s h.nsid (ranges.map (·.2)).sum) with ranges := ranges }))) ∧
    (∃ (h : IoHdr) (key : Bytes) (len : Nat) (sgl : List Sgl) (inline : Bytes) (s : State),
      (Admits s ((keyCapsule h 0x81 len key).withData sgl inline))) ∧
    (∃ (h : IoHdr) (key : Bytes) (bufLen : Nat) (sgl : List Sgl) (s : State),
      (Admits s ((keyCapsule h 0x82 bufLen key).withData sgl []))) ∧
    (∃ (h : IoHdr) (key : Bytes) (s : State),
      (Admits s (keyCapsule h 0x90 0 key))) ∧
    (∃ (h : IoHdr) (key : Bytes) (s : State),
      (Admits s (keyCapsule h 0x94 0 key))) ∧
    (∃ (h : IoHdr) (key : Bytes) (bufLen : Nat) (sgl : List Sgl) (s : State),
      (Admits s ((keyCapsule h 0x86 bufLen key).withData sgl []))) ∧
    (∃ (h : IoHdr) (s : State),
      (Admits s (capsule h 0x80 0))) ∧
    (∃ (h : IoHdr) (slba nlb : Nat) (sgl : List Sgl) (s : State),
      (MayArrive s ((blockCapsule h 0x02 slba nlb s).withData sgl [])) ∧
      (1 ≤ s.cmd.ps ∧ s.cmd.ps ≤ 3 ∨ s.cmd.exiting = true)) :=
  ⟨⟨⟨1, 1, 7, 1⟩, 10, 2, [⟨0x1000, 8192, 5, true⟩], io up, by decide⟩,
   ⟨⟨1, 1, 7, 1⟩, 998, 2, [⟨0x1000, 8192, 5, true⟩], [], io up, by decide⟩,
   ⟨⟨1, 1, 7, 0xFFFFFFFF⟩, io up, by decide⟩,
   ⟨⟨1, 1, 7, 1⟩, 1, 2, [⟨0x1000, 8192, 5, true⟩], [], io up, by decide⟩,
   ⟨⟨1, 1, 7, 1⟩, 1, 2, io up, by decide⟩,
   ⟨⟨1, 1, 7, 1⟩, 1, 2, io up, by decide⟩,
   ⟨⟨1, 1, 7, 1⟩, [(1, 2), (100, 50)], io up, by decide⟩,
   ⟨⟨1, 1, 7, 2⟩, [1, 2], 3, [], [4, 5, 6], io up, by decide⟩,
   ⟨⟨1, 1, 7, 2⟩, [1, 2], 4096, [⟨0x1000, 8192, 5, true⟩], io up, by decide⟩,
   ⟨⟨1, 1, 7, 2⟩, [1, 2], io up, by decide⟩,
   ⟨⟨1, 1, 7, 2⟩, [1, 2], io up, by decide⟩,
   ⟨⟨1, 1, 7, 2⟩, [1, 2], 4096, [⟨0x1000, 8192, 5, true⟩], io up, by decide⟩,
   ⟨⟨1, 1, 7, 2⟩, io up, by decide⟩,
   ⟨⟨1, 1, 7, 1⟩, 999, 2, [⟨0x1000, 8192, 5, true⟩], (io up).onCmd fun c => { c with ps := 2 }, by decide⟩⟩

/-- What the clauses of `IoCommandsAreRefused` assume can be met. -/
theorem witness_IoCommandsAreRefused :
    (∃ (h : IoHdr) (slba nlb : Nat) (sgl : List Sgl) (st : Status) (s : State),
      (MayArrive s ((blockCapsule h 0x02 slba nlb s).withData sgl [])) ∧
      (fieldTest s ((blockCapsule h 0x02 slba nlb s).withData sgl []) = some st) ∧
      (Awake s)) ∧
    (∃ (h : IoHdr) (slba nlb : Nat) (sgl : List Sgl) (inline : Bytes) (st : Status) (s : State),
      (MayArrive s ((blockCapsule h 0x01 slba nlb s).withData sgl inline)) ∧
      (fieldTest s ((blockCapsule h 0x01 slba nlb s).withData sgl inline) = some st) ∧
      (Awake s)) ∧
    (∃ (h : IoHdr) (slba nlb : Nat) (sgl : List Sgl) (st : Status) (test : Nat) (s : State),
      (MayArrive s ((blockCapsule h 0x02 slba nlb s).withData sgl [])) ∧
      (fieldTest s ((blockCapsule h 0x02 slba nlb s).withData sgl []) = none) ∧
      ((queueOf s h.cntlid h.sqid).cls = 0) ∧
      (s.fld F.CMD_CFG_C0_EN = 1) ∧
      (Awake s) ∧
      (c0Test s (queueOf s h.cntlid h.sqid).port (portMbps s (queueOf s h.cntlid h.sqid).port) (blockBytes s h.nsid nlb) = some (st, test))) ∧
    (∃ (h : IoHdr) (ranges : List (Nat × Nat)) (s : State),
      (MayArrive s (capsule h 0x09 0)) ∧
      (Awake s)) :=
  ⟨⟨⟨1, 1, 7, 1⟩, 999, 2, [⟨0x1000, 8192, 5, true⟩], stInvalidField, io up, by decide⟩,
   ⟨⟨1, 1, 7, 1⟩, 1, 2, [⟨0x1000, 4096, 5, true⟩], [], stInvalidField, io up, by decide⟩,
   ⟨⟨1, 1, 7, 1⟩, 1, 33, [⟨0x1000, 0x40000, 5, true⟩], stC0Size, 0, ((io up).setFld F.CMD_CFG_C0_EN 1).onCmd fun c => { c with queues := [(257, { (default : Queue) with exists_ := true, size := 64, cls := 0, port := 3 })] }, by decide⟩,
   ⟨⟨1, 1, 7, 1⟩, [(1, 2)], io up, by decide⟩⟩

/-- What the clauses of `PipelineEventsComplete` assume can be met. -/
theorem witness_PipelineEventsComplete :
    (∃ (port : Fin 65) (c : Capsule) (i : Nat) (a : Arbiter) (s : State),
      (grantChoice s port.val = some (c, i, a)) ∧
      (c.opc = 0x00 ∨ c.opc = 0x80)) ∧
    (∃ (port : Fin 65) (c : Capsule) (i : Nat) (a : Arbiter) (s : State),
      (grantChoice s port.val = some (c, i, a))) ∧
    (∃ (i : Nat) (s : State),
      ((entryOf s i).live = true) ∧
      ((entryOf s i).state = .fetching) ∧
      ((entryOf s i).wanted ≤ (entryOf s i).data.length) ∧
      ((entryOf s i).cap.opc ≠ 0x05)) ∧
    (∃ (i : Nat) (s : State),
      ((entryOf s i).live = true) ∧
      ((entryOf s i).state = .encoding)) ∧
    (∃ (i : Nat) (slot : Fin 48) (set row unit : Nat) (w v : UnitIo) (s : State),
      ((entryOf s i).live = true) ∧
      ((entryOf s i).state = .drive) ∧
      (w ∈ (entryOf s i).unitsOut ∧ w.slot = slot.val ∧ w.set = set ∧ w.row = row ∧ w.unit = unit) ∧
      (v ∈ (entryOf s i).unitsOut ∧ v.slot ≠ slot.val)) ∧
    (∃ (i set row unit : Nat) (header data : Bytes) (w : UnitIo) (s : State),
      (((entryOf s i).readsOut.find? fun w => w.set == set && w.row == row && w.unit == unit) = some w) ∧
      (unitPasses s set row ⟨unit, header, data⟩ = true)) ∧
    (∃ (i set row unit : Nat) (header data : Bytes) (w : UnitIo) (s : State),
      (((entryOf s i).readsOut.find? fun w => w.set == set && w.row == row && w.unit == unit) = some w) ∧
      (unitPasses s set row ⟨unit, header, data⟩ = false)) ∧
    (∃ (jseq : Nat) (slot other : Fin 48) (r : JRec) (s : State),
      (recOf s jseq = some r) ∧
      ((r.copies.any fun c => c.slot == slot.val && !c.done) = true) ∧
      ((r.copies.any fun c => c.slot == other.val && !c.done) = true) ∧
      (slot ≠ other)) ∧
    (∃ (jseq : Nat) (slot : Fin 48) (r : JRec) (i : Nat) (s : State),
      (recOf s jseq = some r) ∧
      ((r.copies.any fun c => c.slot == slot.val && !c.done) = true) ∧
      ((r.copies.all fun c => c.done || c.slot == slot.val) = true) ∧
      (r.owner = some i) ∧
      (i < 32768) ∧
      (r.committed = false) ∧
      (needsVote s = false) ∧
      ((entryOf s i).ended = false) ∧
      (s.lay.waitingJournal.contains i = false)) ∧
    (∃ (i : Nat) (s : State),
      ((entryOf s i).live = true) ∧
      ((entryOf s i).state = .returning) ∧
      (((ctxOf s (queueOf s (entryOf s i).cap.cntlid (entryOf s i).cap.sqid).conn).sends.any fun x => x.2.2 == i + 1) = false)) ∧
    (∃ (i : Nat) (s : State),
      (i < 32768) ∧
      ((entryOf s i).live = true) ∧
      ((entryOf s i).state = .posting) ∧
      ((entryOf s i).ended = false)) ∧
    (∃ (lba : Nat) (slot : Fin 48) (b : Nat × Nat × Bool) (s : State),
      (((portOf s slot.val).back.find? fun b => b.1 == lba) = some b) ∧
      (s.lay.rebuild.target = none)) :=
  ⟨⟨0, capOf 0 1, 16384, ⟨[(2, 7)], [(2, 258)], [(2, 1)], 2, 3, 0, 0⟩, (io up).onCmd fun c => { c with queued := [capOf 0 1] }, by decide⟩,
   ⟨0, { capOf 1 1 with xlen := 4096 }, 16384, ⟨[(2, 7)], [(2, 258)], [(2, 1)], 2, 3, 0, 0⟩, (io up).onCmd fun c => { c with queued := [{ capOf 1 1 with xlen := 4096 }] }, by decide⟩,
   ⟨16384, entry (io up) { live .fetching (capOf 1 1) with data := [1, 2, 3], wanted := 2 }, by decide⟩,
   ⟨16384, entry (io up) (live .encoding (capOf 1 1)), by decide⟩,
   ⟨16384, 3, 0, 0, 1, ⟨3, 0, 0, 1, []⟩, ⟨4, 0, 0, 2, []⟩, entry (io up) { live .drive (capOf 1 1) with unitsOut := [⟨3, 0, 0, 1, []⟩, ⟨4, 0, 0, 2, []⟩] }, by decide⟩,
   ⟨16384, 0, 0, 1, [], [], ⟨3, 0, 0, 1, []⟩, entry (rowed (io up)) { live .drive (capOf 2 1) with readsOut := [⟨3, 0, 0, 1, []⟩, ⟨4, 0, 0, 2, []⟩] }, by decide⟩,
   ⟨16384, 0, 0, 1, [], [1, 2, 3, 4], ⟨3, 0, 0, 1, []⟩, entry (io up) { live .drive (capOf 2 1) with readsOut := [⟨3, 0, 0, 1, []⟩, ⟨4, 0, 0, 2, []⟩] }, by decide⟩,
   ⟨9, 2, 4, { (default : JRec) with jseq := 9, copies := [⟨2, false, 0, 0⟩, ⟨4, false, 0, 0⟩] }, (io up).onLay fun l => { l with journal := [{ (default : JRec) with jseq := 9, copies := [⟨2, false, 0, 0⟩, ⟨4, false, 0, 0⟩] }] }, by decide⟩,
   ⟨9, 2, { (default : JRec) with jseq := 9, copies := [⟨2, false, 0, 0⟩], owner := some 16384 }, 16384, (entry (io up) (live .journal (capOf 1 1))).onLay fun l => { l with journal := [{ (default : JRec) with jseq := 9, copies := [⟨2, false, 0, 0⟩], owner := some 16384 }] }, by decide⟩,
   ⟨16384, entry (io up) (live .returning (capOf 2 1)), by decide⟩,
   ⟨16384, entry (io up) (live .posting (capOf 2 1)), by decide⟩,
   ⟨512, 3, (512, 1, false), port up { ready with back := [(512, 1, false)] }, by decide⟩⟩

/-- What the clauses of `HostLinkAndResetsComplete` assume can be met. -/
theorem witness_HostLinkAndResetsComplete :
    (∃ (speed width : Nat) (flit : Bool) (c : HostCfg) (s : State),
      (s.fld F.HEP_LINK_STAT_UP = 0) ∧
      (s.boot.inReset = .none) ∧
      (s.cmd.ps ≠ 4)) ∧
    (∃ (s : State),
      (s.fld F.HEP_LINK_STAT_UP = 1)) ∧
    (∃ (s : State),
      ((fnOf s 0).flr = false) ∧
      ((fnOf s 0).present = true)) ∧
    (∃ (vf : Fin 64) (s : State),
      ((fnOf s (vf.val + 1)).flr = false) ∧
      ((fnOf s (vf.val + 1)).present = true)) ∧
    (∃ (s : State),
      ((fnOf s pf0).flr = false)) ∧
    (∃ (fn : Fin 66) (c : HostCfg) (s : State),
      ((fnOf s fn.val).flr = true)) ∧
    (∃ (numVfs : Nat) (c : HostCfg) (s : State),
      ((fnOf s 0).present = true) ∧
      (s.hep.vfEnabled = false)) ∧
    (∃ (numVfs : Nat) (c : HostCfg) (s : State),
      ((fnOf s 0).present = true) ∧
      (s.hep.vfEnabled = true)) ∧
    (∃ (fn : Fin 65) (s : State),
      ((fnOf s fn.val).bme = true)) :=
  ⟨⟨6, 5, true, cfg, up, by decide⟩,
   ⟨host up, by decide⟩,
   ⟨host up, by decide⟩,
   ⟨2, (host up).onHep fun h => { h with fns := [(0, ⟨true, false, true, true, false, 1, 0x1FF, false, 0, 0, 0, 0, false⟩), (3, ⟨true, false, true, false, false, 0, 0, false, 0, 0, 0, 0, false⟩)] }, by decide⟩,
   ⟨host up, by decide⟩,
   ⟨65, cfg, up.onHep fun h => { h with fns := [(65, ⟨true, true, false, false, false, 0, 0, false, 0, 0, 0, 0, false⟩)] }, by decide⟩,
   ⟨2, cfg, host up, by decide⟩,
   ⟨0, cfg, (host up).onHep fun h => { h with vfEnabled := true, numVfs := 2 }, by decide⟩,
   ⟨0, host up, by decide⟩⟩

/-- What the clauses of `HostQueuesComplete` assume can be met. -/
theorem witness_HostQueuesComplete :
    (∃ (a : Admin) (qid size vector base : Nat) (interrupts : Bool) (k : Nat) (s : State),
      ((ctrlOf s a.cntlid).ready = true) ∧
      ((ctrlOf s a.cntlid).fn = some k) ∧
      (0 < qid ∧ qid ≤ pairsOf k) ∧
      ((cqOf s (qKey a.cntlid qid)).exists_ = false) ∧
      (2 ≤ size ∧ size ≤ 1024) ∧
      (vector < vectorsOf k) ∧
      (Awake s)) ∧
    (∃ (a : Admin) (qid size vector base : Nat) (interrupts : Bool) (k : Nat) (s : State),
      ((ctrlOf s a.cntlid).ready = true) ∧
      ((ctrlOf s a.cntlid).fn = some k) ∧
      (qid = 0 ∨ pairsOf k < qid ∨ (cqOf s (qKey a.cntlid qid)).exists_ = true) ∧
      (Awake s)) ∧
    (∃ (a : Admin) (qid size vector base : Nat) (interrupts : Bool) (k : Nat) (s : State),
      ((ctrlOf s a.cntlid).ready = true) ∧
      ((ctrlOf s a.cntlid).fn = some k) ∧
      (0 < qid ∧ qid ≤ pairsOf k) ∧
      ((cqOf s (qKey a.cntlid qid)).exists_ = false) ∧
      (2 ≤ size ∧ size ≤ 1024) ∧
      (vectorsOf k ≤ vector) ∧
      (Awake s)) ∧
    (∃ (a : Admin) (qid size cqid base k : Nat) (s : State),
      ((ctrlOf s a.cntlid).ready = true) ∧
      ((ctrlOf s a.cntlid).fn = some k) ∧
      (0 < qid ∧ qid ≤ pairsOf k) ∧
      ((queueOf s a.cntlid qid).exists_ = false) ∧
      (cqid ≠ 0) ∧
      ((cqOf s (qKey a.cntlid cqid)).exists_ = true) ∧
      (2 ≤ size ∧ size ≤ 1024) ∧
      (Awake s)) ∧
    (∃ (fn : Fin 65) (qid tail : Nat) (s : State),
      ((fnOf s fn.val).present = true) ∧
      ((fnOf s fn.val).flr = false) ∧
      ((queueOf s (0xFF00 + fn.val) qid).exists_ = true) ∧
      (tail < (queueOf s (0xFF00 + fn.val) qid).size)) ∧
    (∃ (fn : Fin 65) (qid head : Nat) (s : State),
      ((fnOf s fn.val).present = true) ∧
      ((fnOf s fn.val).flr = false) ∧
      ((cqOf s (qKey (0xFF00 + fn.val) qid)).exists_ = true) ∧
      (head < (cqOf s (qKey (0xFF00 + fn.val) qid)).size)) ∧
    (∃ (tag : Fin 1024) (byteCount : Nat) (data : Bytes) (s : State),
      ((s.hep.tags.at tag.val).state = .outstanding) ∧
      (data.length < byteCount)) ∧
    (∃ (tag : Fin 1024) (byteCount : Nat) (data : Bytes) (s : State),
      ((s.hep.tags.at tag.val).state = .outstanding)) ∧
    (∃ (tag : Fin 1024) (status : CplStatus) (byteCount : Nat) (data : Bytes) (s : State),
      ((s.hep.tags.at tag.val).state = .free)) ∧
    (∃ (tag : Fin 1024) (s : State),
      ((s.hep.tags.at tag.val).state = .outstanding)) ∧
    (∃ (tag : Fin 1024) (s : State),
      ((s.hep.tags.at tag.val).state = .held) ∧
      (s.hep.waiting = [])) ∧
    (∃ (fn : Fin 66) (v : Nat) (s : State),
      (v < 129) ∧
      ((fnOf s fn.val).bme = true) ∧
      ((fnOf s fn.val).msix = true) ∧
      ((fnOf s fn.val).fnMask = false) ∧
      (bitAt (fnOf s fn.val).pba v = true)) ∧
    (∃ (fn : Fin 65) (vector : Nat) (s : State),
      (s.hep.coalesced.at (256 * fn.val + vector) ≠ 0) ∧
      ((fnOf s fn.val).bme = true) ∧
      ((fnOf s fn.val).msix = true) ∧
      ((fnOf s fn.val).fnMask = false) ∧
      (bitAt (fnOf s fn.val).unmasked vector = true)) ∧
    (∃ (i : Nat) (e : Entry) (s : State),
      (entryOf s i = e ∧ i < 32768 ∧ e.live = true ∧ e.state = .posting ∧ e.ended = false) ∧
      ((queueOf s e.cap.cntlid e.cap.sqid).pcie = true) ∧
      ((fnOf s (e.cap.cntlid - 0xFF00)).bme = true ∧ (fnOf s (e.cap.cntlid - 0xFF00)).flr = false) ∧
      ((cqOf s (e.cap.cntlid * 256 + (queueOf s e.cap.cntlid e.cap.sqid).cq)).exists_ = true) ∧
      ((cqOf s (e.cap.cntlid * 256 + (queueOf s e.cap.cntlid e.cap.sqid).cq)).full = false)) :=
  ⟨⟨⟨0xFF00, 5⟩, 128, 1024, 128, 0x5000, true, 0, host up, by decide⟩,
   ⟨⟨0xFF00, 5⟩, 129, 1024, 128, 0x5000, true, 0, host up, by decide⟩,
   ⟨⟨0xFF00, 5⟩, 3, 1024, 129, 0x5000, true, 0, host up, by decide⟩,
   ⟨⟨0xFF00, 5⟩, 2, 2, 1, 0x9000, 0, host up, by decide⟩,
   ⟨0, 1, 15, host up, by decide⟩,
   ⟨0, 1, 15, host up, by decide⟩,
   ⟨5, 8, [1, 2, 3], tagged (host up) .outstanding, by decide⟩,
   ⟨5, 8, [], tagged (host up) .outstanding, by decide⟩,
   ⟨1023, .ca, 8, [], host up, by decide⟩,
   ⟨5, tagged (host up) .outstanding, by decide⟩,
   ⟨5, tagged (host up) .held, by decide⟩,
   ⟨0, 128, (host up).onHep fun h => { h with fns := [(0, ⟨true, false, true, true, false, 1, 0, false, 2 ^ 128, 0, 0, 0, false⟩)] }, by decide⟩,
   ⟨0, 1, (host up).onHep fun h => { h with coalesced := [(1, 3)] }, by decide⟩,
   ⟨16384, live .posting { capOf 2 1 with cntlid := 0xFF00 }, entry (host up) (live .posting { capOf 2 1 with cntlid := 0xFF00 }), by decide⟩⟩

/-- What the clauses of `PeerWindowsComplete` assume can be met. -/
theorem witness_PeerWindowsComplete :
    (∃ (path : Fin 5) (session : Nat) (value : Word) (s : State),
      (MayWrite path session 0x0D000054 s) ∧
      (value.toNat ≠ 0) ∧
      (commitRefusal s value.toNat = none)) ∧
    (∃ (path : Fin 5) (session : Nat) (value : Word) (r : Nat) (s : State),
      (MayWrite path session 0x0D000054 s) ∧
      (value.toNat ≠ 0) ∧
      (commitRefusal s value.toNat = some r)) ∧
    (∃ (mask : Nat) (words : List Nat) (s : State),
      (s.hep.staged = some (mask, words))) ∧
    (∃ (path : Fin 5) (session : Nat) (value : Word) (s : State),
      (MayWrite path session 0x0D00005C s)) ∧
    (∃ (path : Fin 5) (session : Nat) (value : Word) (s : State),
      (MayWrite path session 0x0D00005C s) ∧
      (s.hep.ppt.at (bitsOf value.toNat 15 0) < 2 ^ 32)) ∧
    (∃ (offset len : Nat) (write : Option Bytes) (s : State),
      (s.fld F.HEP_CFG_PEER_EN = 0)) ∧
    (∃ (offset len : Nat) (w : Window) (s : State),
      (PeerPermits s w offset len false)) ∧
    (∃ (offset len : Nat) (data : Bytes) (w : Window) (s : State),
      (PeerPermits s w offset data.length true)) :=
  ⟨⟨4, 0, 1, up, by decide⟩,
   ⟨4, 0, 1, 1, up.onHep fun h => { h with staged := some (1, []) }, by decide⟩,
   ⟨1, [5, 6], up.onHep fun h => { h with staged := some (1, [5, 6]) }, by decide⟩,
   ⟨4, 0, 0x20000007, { up with regs := setRawWord up.regs 0x0D000060 0x80000123 }, by decide⟩,
   ⟨4, 0, 0x10000007, up.onHep fun h => { h with ppt := [(7, 0x80000123)] }, by decide⟩,
   ⟨64, 8, none, up.setFld F.HEP_CFG_PEER_EN 0, by decide⟩,
   ⟨64, 8, ⟨0xF0000000, 0⟩, windowed up, by decide⟩,
   ⟨4094, 0, [1, 2, 3], ⟨0xF0000000, 0⟩, windowed up, by decide⟩⟩

/-- What the clauses of `ActivationCompletes` assume can be met. -/
theorem witness_ActivationCompletes :
    (∃ (path : Fin 5) (session : Nat) (value : Word) (b : Bytes) (s : State),
      (MayWrite path session 0x06000058 s) ∧
      (s.cmd.act.step = 0) ∧
      (slotContent s 2 (bitsOf value.toNat 2 0) = some b)) ∧
    (∃ (path : Fin 5) (session : Nat) (value : Word) (b : Bytes) (s : State),
      (MayWrite path session 0x06000058 s) ∧
      (s.cmd.act.step = 0) ∧
      (slotContent s 1 (bitsOf value.toNat 2 0) = some b)) ∧
    (∃ (path : Fin 5) (session : Nat) (value : Word) (s : State),
      (MayWrite path session 0x06000058 s) ∧
      (s.cmd.act.step ≠ 0)) ∧
    (∃ (s : State),
      (s.cmd.act.step = 3) ∧
      (tableInUse s = 0)) ∧
    (∃ (s : State),
      (s.cmd.act.step = 3) ∧
      (s.cmd.act.reply = none) ∧
      (tableInUse s ≠ 0)) ∧
    (∃ (s : State),
      (s.cmd.act.step = 4) ∧
      (s.cmd.act.kind = 2) ∧
      (s.cmd.act.reply = none)) ∧
    (∃ (s : State),
      (s.cmd.act.step = 6 ∨ s.cmd.act.step = 7) ∧
      (heldDone s = true)) :=
  ⟨⟨4, 0, 0x21, [1], upBone.onCtl fun c => { c with firmware := [(1, ⟨true, [1], 0, 0⟩)] }, by decide⟩,
   ⟨4, 0, 0x11, [1], upBone.onCtl fun c => { c with profiles := [(1, ⟨true, [1], 0, 0⟩)] }, by decide⟩,
   ⟨4, 0, 0x11, upBone.onCmd fun c => { c with act := { c.act with step := 3 } }, by decide⟩,
   ⟨up.onCmd fun c => { c with act := { c.act with step := 3 } }, by decide⟩,
   ⟨(entry (io up) (live .drive (capOf 1 1))).onCmd fun c => { c with act := { c.act with step := 3 } }, by decide⟩,
   ⟨up.onCmd fun c => { c with act := { c.act with step := 4, kind := 2, slot := 1 } }, by decide⟩,
   ⟨up.onCmd fun c => { c with act := { c.act with step := 7 }, boundStat := 1 }, by decide⟩⟩

/-- What the clauses of `ConnectionsComplete` assume can be met. -/
theorem witness_ConnectionsComplete :
    (∃ (r : CmReq) (i : Nat) (s : State),
      (reqOk s r = true) ∧
      (freeCtx s = some i)) ∧
    (∃ (r : CmReq) (s : State),
      (reqOk s r = false)) ∧
    (∃ (qpn : Nat) (s : State),
      ((ctxOf s qpn).state = 2)) ∧
    (∃ (qpn : Nat) (s : State),
      ((ctxOf s qpn).state = 3) ∧
      ((ctxOf s qpn).inFlight = true)) ∧
    (∃ (qpn : Nat) (s : State),
      ((ctxOf s qpn).state = 3) ∧
      ((ctxOf s qpn).inFlight = false)) ∧
    (∃ (qpn : Nat) (s : State),
      ((ctxOf s qpn).state = 5)) ∧
    (∃ (qpn : Nat) (s : State),
      ((ctxOf s qpn).state = 4)) ∧
    (∃ (qpn : Nat) (s : State),
      ((ctxOf s qpn).state = 5)) :=
  ⟨⟨{ (default : CmReq) with qpn := 9, psn := 100, pmtu := 5, resources := 16 }, 1, conn up rts, by decide⟩,
   ⟨{ (default : CmReq) with migration := true }, up, by decide⟩,
   ⟨0x200000, conn up { rts with state := 2 }, by decide⟩,
   ⟨0x200000, conn up { rts with sends := [(0, 1, 0)] }, by decide⟩,
   ⟨0x200000, conn up rts, by decide⟩,
   ⟨0x200000, conn up { rts with state := 5 }, by decide⟩,
   ⟨0x200000, conn up { rts with state := 4, sends := [(0, 1, 0)] }, by decide⟩,
   ⟨0x200000, conn up { rts with state := 5 }, by decide⟩⟩

/-- What the clauses of `RequestPacketsComplete` assume can be met. -/
theorem witness_RequestPacketsComplete :
    (∃ (p : Pkt) (payload : Bytes) (n : Nat) (s : State),
      ((ctxIndex p.qpn).isSome = true) ∧
      ((ctxOf s p.qpn).state = 3) ∧
      (classify (ctxOf s p.qpn) p.psn = .expected) ∧
      (sendRoom s p.qpn false = some n) ∧
      (((ctxOf s p.qpn).rxBuf ++ payload).length ≤ n)) ∧
    (∃ (p : Pkt) (payload : Bytes) (n : Nat) (s : State),
      ((ctxIndex p.qpn).isSome = true) ∧
      ((ctxOf s p.qpn).state = 3) ∧
      (classify (ctxOf s p.qpn) p.psn = .expected) ∧
      (bufferFor s (ctxOf s p.qpn) = some n) ∧
      (((ctxOf s p.qpn).rxBuf ++ payload).length ≤ n)) ∧
    (∃ (p : Pkt) (last : Bool) (payload : Bytes) (s : State),
      ((ctxIndex p.qpn).isSome = true) ∧
      ((ctxOf s p.qpn).state = 3) ∧
      (classify (ctxOf s p.qpn) p.psn = .duplicate) ∧
      (holdsAcks s = false) ∧
      (s.cmd.ps ≠ 4)) ∧
    (∃ (p : Pkt) (last : Bool) (payload : Bytes) (s : State),
      ((ctxIndex p.qpn).isSome = true) ∧
      ((ctxOf s p.qpn).state = 3) ∧
      (classify (ctxOf s p.qpn) p.psn = .ahead) ∧
      ((ctxOf s p.qpn).nakSent = false) ∧
      (s.cmd.ps ≠ 4)) ∧
    (∃ (p : Pkt) (last : Bool) (payload : Bytes) (s : State),
      ((ctxIndex p.qpn).isSome = true) ∧
      ((ctxOf s p.qpn).state = 3) ∧
      (classify (ctxOf s p.qpn) p.psn = .expected) ∧
      (sendRoom s p.qpn last = none) ∧
      (s.cmd.ps ≠ 4)) ∧
    (∃ (p : Pkt) (imm : Nat) (payload : Bytes) (e : Nat) (s : State),
      ((ctxIndex p.qpn).isSome = true) ∧
      ((ctxOf s p.qpn).state = 3) ∧
      (classify (ctxOf s p.qpn) p.psn = .expected) ∧
      (matching s p.qpn imm = some e) ∧
      (((ctxOf s p.qpn).rxBuf ++ payload).length ≤ (s.xpt.triggers.at e).mbufLen)) ∧
    (∃ (p : Pkt) (imm : Nat) (payload : Bytes) (s : State),
      ((ctxIndex p.qpn).isSome = true) ∧
      ((ctxOf s p.qpn).state = 3) ∧
      (classify (ctxOf s p.qpn) p.psn = .expected) ∧
      (matching s p.qpn imm = none) ∧
      ((ctxOf s p.qpn).trigOnly = true) ∧
      (s.cmd.ps ≠ 4)) ∧
    (∃ (p : Pkt) (key : Nat) (payload : Bytes) (n : Nat) (s : State),
      ((ctxIndex p.qpn).isSome = true) ∧
      ((ctxOf s p.qpn).state = 3) ∧
      (classify (ctxOf s p.qpn) p.psn = .expected) ∧
      (regionIndex key < 65536) ∧
      ((s.xpt.regions.at (regionIndex key)).state = 1) ∧
      ((s.xpt.regions.at (regionIndex key)).key = key % 256) ∧
      (bitAt (s.xpt.regions.at (regionIndex key)).access 2 = true) ∧
      (bufferFor s (ctxOf s p.qpn) = some n) ∧
      (((ctxOf s p.qpn).rxBuf ++ payload).length ≤ n)) ∧
    (∃ (p : Pkt) (r : Reth) (data : Bytes) (s : State),
      ((ctxIndex p.qpn).isSome = true) ∧
      ((ctxOf s p.qpn).state = 3) ∧
      (classify (ctxOf s p.qpn) p.psn = .expected) ∧
      (regionCheck s r.rkey r.va r.len 0 (ctxOf s p.qpn).tenant = none) ∧
      (data.length ≤ r.len)) ∧
    (∃ (p : Pkt) (r : Reth) (data : Bytes) (s : State),
      ((ctxIndex p.qpn).isSome = true) ∧
      ((ctxOf s p.qpn).state = 3) ∧
      (classify (ctxOf s p.qpn) p.psn = .expected) ∧
      (regionCheck s r.rkey r.va r.len 0 (ctxOf s p.qpn).tenant = none) ∧
      (data.length ≤ r.len)) ∧
    (∃ (p : Pkt) (r : Reth) (last : Bool) (data : Bytes) (reason : Nat) (s : State),
      ((ctxIndex p.qpn).isSome = true) ∧
      ((ctxOf s p.qpn).state = 3) ∧
      (classify (ctxOf s p.qpn) p.psn = .expected) ∧
      (regionCheck s r.rkey r.va r.len 0 (ctxOf s p.qpn).tenant = some reason) ∧
      (s.cmd.ps ≠ 4)) ∧
    (∃ (p : Pkt) (r : Reth) (imm : Nat) (data : Bytes) (n : Nat) (s : State),
      ((ctxIndex p.qpn).isSome = true) ∧
      ((ctxOf s p.qpn).state = 3) ∧
      (classify (ctxOf s p.qpn) p.psn = .expected) ∧
      (bufferFor s (ctxOf s p.qpn) = some n) ∧
      (regionCheck s r.rkey r.va r.len 0 (ctxOf s p.qpn).tenant = none) ∧
      (data.length ≤ r.len)) ∧
    (∃ (p : Pkt) (r : Reth) (s : State),
      ((ctxIndex p.qpn).isSome = true) ∧
      ((ctxOf s p.qpn).state = 3) ∧
      (classify (ctxOf s p.qpn) p.psn = .expected) ∧
      (regionCheck s r.rkey r.va r.len 1 (ctxOf s p.qpn).tenant = none) ∧
      ((ctxOf s p.qpn).work = [] ∧ (ctxOf s p.qpn).workSent = 0) ∧
      (s.fld F.XPT_CFG_CC_EN = 0 ∨ (ctxOf s p.qpn).class0 = true) ∧
      (s.cmd.ps ≠ 4)) ∧
    (∃ (p : Pkt) (r : Reth) (psn n rkey va len : Nat) (s : State),
      ((ctxIndex p.qpn).isSome = true) ∧
      ((ctxOf s p.qpn).state = 3) ∧
      (classify (ctxOf s p.qpn) p.psn = .duplicate) ∧
      ((ctxOf s p.qpn).readRing = [(psn, n, rkey, va, len)]) ∧
      (psnSub p.psn psn < n) ∧
      (regionCheck s rkey (va + psnSub p.psn psn * mtuBytes (ctxOf s p.qpn).pmtu)
    (len - psnSub p.psn psn * mtuBytes (ctxOf s p.qpn).pmtu) 1 (ctxOf s p.qpn).tenant = none) ∧
      ((ctxOf s p.qpn).work = [] ∧ (ctxOf s p.qpn).workSent = 0) ∧
      (s.fld F.XPT_CFG_CC_EN = 0 ∨ (ctxOf s p.qpn).class0 = true) ∧
      (s.cmd.ps ≠ 4)) ∧
    (∃ (p : Pkt) (last : Bool) (payload : Bytes) (s : State),
      ((ctxIndex p.qpn).isSome = true) ∧
      ((ctxOf s p.qpn).accepts = false) ∧
      (s.cmd.ps ≠ 4)) ∧
    (∃ (p : Pkt) (opcode : Nat) (s : State),
      ((ctxIndex p.qpn).isSome = true) ∧
      ((ctxOf s p.qpn).state = 3 ∨ (ctxOf s p.qpn).state = 2) ∧
      (s.cmd.ps ≠ 4)) :=
  ⟨⟨⟨0x200000, 0, true, true⟩, [1, 2], 15424, conn up rts, by decide⟩,
   ⟨⟨0x200000, 0, true, false⟩, [1, 2], 15424, conn up { rts with rxBuf := [0] }, by decide⟩,
   ⟨⟨0x200000, 3, true, false⟩, true, [1, 2], conn up { rts with epsn := 4 }, by decide⟩,
   ⟨⟨0x200000, 6, true, false⟩, true, [1, 2], conn up { rts with epsn := 4 }, by decide⟩,
   ⟨⟨0x200000, 0, true, false⟩, true, [1, 2], entry (conn (io up) { plain with cntlid := 1, sqid := 3 }) (live .drive { capOf 1 1 with sqid := 3 }), by decide⟩,
   ⟨⟨0x200000, 0, true, false⟩, 77, [1, 2], 3, (conn up rts).onXpt fun x => { x with triggers := [(3, ⟨77, 0x200000, 1, 9, 64, 0x4000, 0⟩)] }, by decide⟩,
   ⟨⟨0x200000, 0, true, false⟩, 77, [1, 2], conn up { rts with trigOnly := true }, by decide⟩,
   ⟨⟨0x200000, 0, true, false⟩, 0x507, [1, 2], 15424, region (conn up rts) 1 [], by decide⟩,
   ⟨⟨0x200000, 0, true, false⟩, ⟨0x1FFE, 0x507, 2⟩, [1, 2], region (conn up rts) 1 [], by decide⟩,
   ⟨⟨0x200000, 0, true, false⟩, ⟨0x1FF0, 0x507, 16⟩, [1, 2], region (conn up rts) 1 [], by decide⟩,
   ⟨⟨0x200000, 0, true, false⟩, ⟨0x1FF0, 0x507, 17⟩, true, [1, 2], 3, region (conn up rts) 1 [], by decide⟩,
   ⟨⟨0x200000, 0, true, false⟩, ⟨0x1FFE, 0x507, 2⟩, 3, [1, 2], 15424, region (conn up rts) 1 [], by decide⟩,
   ⟨⟨0x200000, 0, true, false⟩, ⟨0x1000, 0x507, 4096⟩, region (conn up { rts with class0 := true }) 1 [], by decide⟩,
   ⟨⟨0x200000, 2, true, false⟩, ⟨0x1400, 0x507, 1024⟩, 1, 2, 0x507, 0x1000, 2048, region (conn up { rts with class0 := true, epsn := 3, readRing := [(1, 2, 0x507, 0x1000, 2048)] }) 1 [], by decide⟩,
   ⟨⟨0x200000, 0, true, false⟩, true, [1, 2], conn up { rts with state := 5 }, by decide⟩,
   ⟨⟨0x200000, 0, true, false⟩, 0x1F, conn up rts, by decide⟩⟩

/-- What the clauses of `RequesterPacketsComplete` assume can be met. -/
theorem witness_RequesterPacketsComplete :
    (∃ (qpn psn : Nat) (ecn : Bool) (s : State),
      ((ctxIndex qpn).isSome = true) ∧
      (ackInRange (ctxOf s qpn) psn = true) ∧
      ((ctxOf s qpn).state = 3) ∧
      ((ctxOf s qpn).sends.any isRead = false) ∧
      (psnSub psn (ctxOf s qpn).unaPsn < 2 ^ 23)) ∧
    (∃ (qpn psn i : Nat) (ecn : Bool) (s : State),
      ((ctxIndex qpn).isSome = true) ∧
      ((ctxOf s qpn).state = 3) ∧
      ((s.xpt.regions.at i).state = 2) ∧
      ((s.xpt.regions.at i).users = [readUser qpn psn])) ∧
    (∃ (qpn psn i : Nat) (ecn : Bool) (data : Bytes) (m : Nat × Nat × Nat) (s : State),
      ((ctxIndex qpn).isSome = true) ∧
      ((ctxOf s qpn).sends.find? isRead = some m) ∧
      (psn = (if psnSub (ctxOf s qpn).unaPsn m.1 < m.2.1 then (ctxOf s qpn).unaPsn else m.1)) ∧
      (psn = lastPsn m.1 m.2.1) ∧
      ((ctxOf s qpn).state = 3) ∧
      ((ctxOf s qpn).work = []) ∧
      (m.2.2 = readMark + i + 1 ∧ i + 1 < 2 ^ 20) ∧
      ((entryOf s i).live = true ∧ (entryOf s i).state = .fetching)) ∧
    (∃ (qpn psn : Nat) (s : State),
      ((ctxIndex qpn).isSome = true) ∧
      ((ctxOf s qpn).state = 3) ∧
      (ackInRange (ctxOf s qpn) psn = true) ∧
      (1 < (ctxOf s qpn).retryLeft) ∧
      (s.cmd.ps ≠ 4)) ∧
    (∃ (qpn : Nat) (s : State),
      ((ctxOf s qpn).sends ≠ []) ∧
      ((ctxOf s qpn).rnrWait = false) ∧
      ((ctxOf s qpn).state = 3 ∨ (ctxOf s qpn).state = 4) ∧
      (1 < (ctxOf s qpn).retryLeft) ∧
      (s.cmd.ps ≠ 4)) ∧
    (∃ (qpn : Nat) (s : State),
      ((ctxIndex qpn).isSome = true) ∧
      ((ctxOf s qpn).sends ≠ []) ∧
      ((ctxOf s qpn).rnrWait = false) ∧
      ((ctxOf s qpn).state = 3) ∧
      ((ctxOf s qpn).retryLeft ≤ 1)) ∧
    (∃ (qpn psn : Nat) (timer : Fin 32) (s : State),
      ((ctxIndex qpn).isSome = true) ∧
      ((ctxOf s qpn).state = 3) ∧
      (ackInRange (ctxOf s qpn) psn = true) ∧
      (s.fld F.XPT_RETRY_CFG_RNR_RETRY = 7 ∨ 1 < (ctxOf s qpn).rnrLeft)) ∧
    (∃ (qpn : Nat) (s : State),
      ((ctxOf s qpn).rnrWait = true) ∧
      (s.cmd.ps ≠ 4)) ∧
    (∃ (qpn psn : Nat) (s : State),
      ((ctxIndex qpn).isSome = true) ∧
      ((ctxOf s qpn).state = 3)) ∧
    (∃ (qpn psn : Nat) (s : State),
      ((ctxIndex qpn).isSome = true) ∧
      ((ctxOf s qpn).state = 3)) ∧
    (∃ (qpn : Nat) (s : State),
      (s.fld F.XPT_CFG_CC_EN = 1) ∧
      ((ctxIndex qpn).isSome = true) ∧
      ((ctxOf s qpn).state = 3)) ∧
    (∃ (qpn : Nat) (s : State),
      (0 < (ctxOf s qpn).unackedPkts) ∧
      (holdsAcks s = false) ∧
      (s.cmd.ps ≠ 4)) :=
  ⟨⟨0x200000, 1, true, conn up { rts with spsn := 3, sends := [(0, 2, 0), (2, 1, 0)] }, by decide⟩,
   ⟨0x200000, 7, 5, false, region (conn up rts) 2 [readUser 0x200000 7], by decide⟩,
   ⟨0x200000, 0, 16384, false, [1, 2], (0, 1, readMark + 16385), entry (conn (io up) { rts with spsn := 1, sends := [(0, 1, readMark + 16385)], readsOut := 1 }) (live .fetching (capOf 1 1)), by decide⟩,
   ⟨0x200000, 1, conn up { rts with spsn := 3, sends := [(0, 2, 0), (2, 1, 0)] }, by decide⟩,
   ⟨0x200000, conn up { rts with spsn := 3, sends := [(0, 2, 0), (2, 1, 0)] }, by decide⟩,
   ⟨0x200000, conn up { rts with spsn := 3, sends := [(0, 2, 0), (2, 1, 0)], retryLeft := 1 }, by decide⟩,
   ⟨0x200000, 1, 0, conn up { rts with spsn := 3, sends := [(0, 2, 0), (2, 1, 0)] }, by decide⟩,
   ⟨0x200000, conn up { rts with rnrWait := true }, by decide⟩,
   ⟨0x3FFFFF, 0, up.onXpt fun x => { x with ctx := [(0x1FFFFF, rts)] }, by decide⟩,
   ⟨0x200000, 0, conn up rts, by decide⟩,
   ⟨0x200000, (conn up rts).setFld F.XPT_CFG_CC_EN 1, by decide⟩,
   ⟨0x200000, conn up { rts with unackedPkts := 3 }, by decide⟩⟩

/-- What the clauses of `TriggersAndChainsComplete` assume can be met. -/
theorem witness_TriggersAndChainsComplete :
    (∃ (entry : Fin 16384) (tag qpn head mbufLen mbuf : Nat) (posts : List (Nat × WorkReq)) (s : State),
      ((s.xpt.triggers.at entry.val).state = 0)) ∧
    (∃ (entry : Fin 16384) (s : State),
      ((s.xpt.triggers.at entry.val).state = 1)) ∧
    (∃ (entry : Fin 16384) (s : State),
      ((s.xpt.triggers.at entry.val).state = 2)) ∧
    (∃ (entry : Fin 16384) (s : State),
      ((s.xpt.triggers.at entry.val).state = 3 ∨ (s.xpt.triggers.at entry.val).state = 4)) ∧
    (∃ (e : Nat) (rest : List Nat) (s : State),
      (s.xpt.waiting = e :: rest) ∧
      (chainsRunning s < 4096) ∧
      ((s.xpt.triggers.at e).head ≠ 0xFFFFFFFF)) ∧
    (∃ (chain : Fin 16384) (wr : Nat) (p : Nat × Nat) (s : State),
      ((s.xpt.pool.at wr).opcode < 0x10) ∧
      ((s.xpt.chains.at chain.val).inProgress = [(wr, p.2)]) ∧
      ((s.xpt.chains.at chain.val).running = true) ∧
      ((s.xpt.chains.at chain.val).next = none) ∧
      ((s.xpt.chains.at chain.val).failed = none)) ∧
    (∃ (chain : Fin 16384) (wr index : Nat) (status : Fin 8) (s : State),
      ((s.xpt.pool.at wr).opcode < 0x10) ∧
      ((s.xpt.chains.at chain.val).inProgress = [(wr, index)]) ∧
      ((s.xpt.chains.at chain.val).running = true) ∧
      ((s.xpt.chains.at chain.val).failed = none) ∧
      (status ≠ 0)) ∧
    (∃ (chain : Fin 16384) (i : Nat) (w : WorkReq) (s : State),
      (nextRequest s chain.val 0x01 = some (i, w)) ∧
      ((ctxOf s w.qpn).state = 3)) ∧
    (∃ (chain : Fin 16384) (i : Nat) (w : WorkReq) (s : State),
      (nextRequest s chain.val 0x02 = some (i, w)) ∧
      ((ctxOf s w.qpn).state = 3)) ∧
    (∃ (chain : Fin 16384) (i : Nat) (w : WorkReq) (s : State),
      (nextRequest s chain.val 0x03 = some (i, w)) ∧
      ((ctxOf s w.qpn).state = 3)) ∧
    (∃ (chain : Fin 16384) (i : Nat) (w : WorkReq) (s : State),
      (nextRequest s chain.val 0x04 = some (i, w)) ∧
      ((ctxOf s w.qpn).state = 3) ∧
      (w.length ≠ 0) ∧
      ((ctxOf s w.qpn).readsOut < (ctxOf s w.qpn).initDepth) ∧
      (w.length ≤ 0x100000)) ∧
    (∃ (chain : Fin 16384) (i : Nat) (w : WorkReq) (s : State),
      (nextRequest s chain.val 0x20 = some (i, w))) ∧
    (∃ (chain : Fin 16384) (i : Nat) (w : WorkReq) (s : State),
      (nextRequest s chain.val 0x01 = some (i, w)) ∧
      ((ctxOf s w.qpn).state ≠ 3) ∧
      ((s.xpt.chains.at chain.val).inProgress = [])) ∧
    (∃ (chain : Fin 16384) (wr index : Nat) (s : State),
      ((s.xpt.pool.at wr).opcode = 0x20) ∧
      ((s.xpt.chains.at chain.val).inProgress = [(wr, index)]) ∧
      ((s.xpt.chains.at chain.val).running = true) ∧
      ((s.xpt.chains.at chain.val).next = none) ∧
      ((s.xpt.chains.at chain.val).failed = none)) ∧
    (∃ (chain : Fin 16384) (i : Nat) (w : WorkReq) (s : State),
      (nextRequest s chain.val 0x3F = some (i, w))) :=
  ⟨⟨16383, 5, 0x200000, 0xFFFFFFFF, 70000, 0, [(8, wreq 1)], up, by decide⟩,
   ⟨3, up.onXpt fun x => { x with triggers := [(3, ⟨77, 0x200000, 1, 8, 64, 0x4000, 0⟩)] }, by decide⟩,
   ⟨3, chained up (wreq 1), by decide⟩,
   ⟨3, up.onXpt fun x => { x with triggers := [(3, ⟨77, 0x200000, 4, 8, 64, 0x4000, 0⟩)] }, by decide⟩,
   ⟨3, [4], up.onXpt fun x => { x with waiting := [3, 4], triggers := [(3, ⟨77, 0x200000, 2, 8, 64, 0x4000, 0⟩)] }, by decide⟩,
   ⟨3, 8, (0, 0), inProgress up (wreq 1), by decide⟩,
   ⟨3, 8, 0, 7, inProgress up (wreq 1), by decide⟩,
   ⟨3, 8, wreq 0x01, chained (conn up { rts with class0 := true, spsn := 5 }) (wreq 0x01), by decide⟩,
   ⟨3, 8, wreq 0x02, chained (conn up { rts with class0 := true, spsn := 5 }) (wreq 0x02), by decide⟩,
   ⟨3, 8, wreq 0x03, chained (conn up { rts with class0 := true, spsn := 5 }) (wreq 0x03), by decide⟩,
   ⟨3, 8, wreq 0x04, chained (conn up { rts with class0 := true, spsn := 5 }) (wreq 0x04), by decide⟩,
   ⟨3, 8, wreq 0x20, chained (conn up { rts with class0 := true, spsn := 5 }) (wreq 0x20), by decide⟩,
   ⟨3, 8, wreq 1, chained up (wreq 1), by decide⟩,
   ⟨3, 8, 0, inProgress up (wreq 0x20), by decide⟩,
   ⟨3, 8, wreq 0x3F, chained up (wreq 0x3F), by decide⟩⟩

/-- What the clauses of `ContextCacheAndInvalidationComplete` assume can be met. -/
theorem witness_ContextCacheAndInvalidationComplete :
    (∃ (ctx : Nat) (dirty : Bool) (checkOk : Bool) (w : Nat × Bool) (s : State),
      ((s.xpt.cache.at (cacheSet ctx)).ways.find? (fun w => w.1 == ctx) = some w)) ∧
    (∃ (ctx : Nat) (dirty : Bool) (s : State),
      ((s.xpt.cache.at (cacheSet ctx)).ways.find? (fun w => w.1 == ctx) = none) ∧
      ((s.xpt.cache.at (cacheSet ctx)).ways.length < 16)) ∧
    (∃ (ctx : Nat) (dirty : Bool) (s : State),
      (ctx < 0x200000) ∧
      ((s.xpt.cache.at (cacheSet ctx)).ways.find? (fun w => w.1 == ctx) = none) ∧
      ((s.xpt.ctx.at ctx).state = 3)) ∧
    (∃ (s : State),
      (s.xpt.fills = [])) ∧
    (∃ (path : Fin 5) (session : Nat) (value : Word) (s : State),
      (MayWrite path session 0x0500006C s) ∧
      (s.xpt.invCtrl = none) ∧
      (regionIndex value.toNat < 65536) ∧
      ((s.xpt.regions.at (regionIndex value.toNat)).state = 1) ∧
      ((s.xpt.regions.at (regionIndex value.toNat)).key = value.toNat % 256) ∧
      ((s.xpt.regions.at (regionIndex value.toNat)).users ≠ [])) ∧
    (∃ (i : Nat) (s : State),
      ((s.xpt.regions.at i).state = 2) ∧
      ((s.xpt.regions.at i).users ≠ [])) ∧
    (∃ (path : Fin 5) (session : Nat) (value : Word) (s : State),
      (MayWrite path session 0x05000078 s) ∧
      ((ctxIndex (value.toNat % 2 ^ 24)).isSome = true)) ∧
    (∃ (i q : Nat) (s : State),
      ((s.xpt.regions.at i).state = 2) ∧
      ((s.xpt.regions.at i).users = [q]) ∧
      ((ctxIndex (q % 2 ^ 24)).isSome = true) ∧
      ((ctxOf s (q % 2 ^ 24)).state = 3)) ∧
    (∃ (path : Fin 5) (session : Nat) (value : Word) (s : State),
      (MayWrite path session 0x0500006C s) ∧
      (s.xpt.invCtrl.isSome = true)) :=
  ⟨⟨0, true, false, (0, false), up.onXpt fun x => { x with cache := [(0, ⟨[(4096, true), (0, false)]⟩)] }, by decide⟩,
   ⟨1, true, up, by decide⟩,
   ⟨0, true, conn up rts, by decide⟩,
   ⟨up.onXpt fun x => { x with victims := [4, 5] }, by decide⟩,
   ⟨4, 0, 0x507, region up 1 [0x200000], by decide⟩,
   ⟨5, region (conn up rts) 2 [0x200000], by decide⟩,
   ⟨4, 0, 0x200000, conn up rts, by decide⟩,
   ⟨5, 0x200000, region (conn up rts) 2 [0x200000], by decide⟩,
   ⟨4, 0, 0x507, (region up 1 [0x200000]).onXpt fun x => { x with invCtrl := some 0x608 }, by decide⟩⟩

/-- What the clauses of `FixityCompletes` assume can be met. -/
theorem witness_FixityCompletes :
    (∃ (chain : Fin 16384) (i : Nat) (w : WorkReq) (s : State),
      (nextRequest s chain.val 0x10 = some (i, w))) ∧
    (∃ (chain : Fin 16384) (i : Nat) (w : WorkReq) (us : List (Nat × Nat × Nat)) (s : State),
      (nextRequest s chain.val 0x10 = some (i, w)) ∧
      (((s.lay.sets.at (argLe w 44 4)).rows.at (argLe w 48 2)).extent = argLe w 56 8 ∧ keyReady s (argLe w 40 4) = true) ∧
      (argLe w 50 1 % 2 = 0) ∧
      (segUnits s [⟨false, (w.length + nsDus s (argLe w 40 4) - 1) / nsDus s (argLe w 40 4) * nsDus s (argLe w 40 4),
    argLe w 44 4, argLe w 48 2, argLe w 52 4, argLe w 56 8⟩] = us ∧ us ≠ []) ∧
      (∀ r ∈ rowsAmong us, rowPlan s [] r.1 r.2 (neededIn us r) = some (neededIn us r))) ∧
    (∃ (chain : Fin 16384) (i : Nat) (w : WorkReq) (s : State),
      (nextRequest s chain.val 0x11 = some (i, w))) ∧
    (∃ (chain : Fin 16384) (i : Nat) (w : WorkReq) (s : State),
      (nextRequest s chain.val 0x12 = some (i, w)) ∧
      ((s.xpt.chains.at chain.val).inProgress = []) ∧
      (bitAt w.flags 1 = true ∨ w.next = 0xFFFFFFFF)) ∧
    (∃ (chain : Fin 16384) (i : Nat) (w : WorkReq) (s : State),
      (nextRequest s chain.val 0x13 = some (i, w)) ∧
      ((s.xpt.chains.at chain.val).inProgress = []) ∧
      (bitAt w.flags 1 = true ∨ w.next = 0xFFFFFFFF)) ∧
    (∃ (chain : Fin 16384) (i k : Nat) (w : WorkReq) (s : State),
      (nextRequest s chain.val 0x14 = some (i, w)) ∧
      ((s.xpt.chains.at chain.val).inProgress = []) ∧
      (bitAt w.flags 1 = true ∨ w.next = 0xFFFFFFFF) ∧
      ((cipTest s (chainCipher w .gcmSeal (envelopeHead w.length w.imm (argLe w 44 2)) (hbmRead s (argLe w 48 8) 256) (hbmRead s w.localAddr w.length) [])).toOption = some k)) ∧
    (∃ (chain : Fin 16384) (i : Nat) (w : WorkReq) (s : State),
      (nextRequest s chain.val 0x15 = some (i, w)) ∧
      ((s.xpt.chains.at chain.val).inProgress = []) ∧
      (bitAt w.flags 1 = true ∨ w.next = 0xFFFFFFFF) ∧
      (w.length < 48)) ∧
    (∃ (chain : Fin 16384) (i k : Nat) (w : WorkReq) (s : State),
      (nextRequest s chain.val 0x15 = some (i, w)) ∧
      ((s.xpt.chains.at chain.val).inProgress = []) ∧
      (bitAt w.flags 1 = true ∨ w.next = 0xFFFFFFFF) ∧
      (48 ≤ w.length) ∧
      ((cipTest s (chainCipher w .gcmOpen ((hbmRead s w.localAddr w.length).take 32) (hbmRead s (argLe w 48 8) 256) (slice (hbmRead s w.localAddr w.length) 32 (w.length - 48)) ((hbmRead s w.localAddr w.length).drop (w.length - 16)))).toOption = some k)) ∧
    (∃ (b : Batch) (rest : List Batch) (s : State),
      (isActive s = true) ∧
      (s.fix.opened = b :: rest) ∧
      (s.fix.closed.length < 64)) ∧
    (∃ (b : Batch) (rest : List Batch) (s : State),
      (isActive s = true) ∧
      (s.fix.opened = b :: rest) ∧
      (s.fix.closed.length = 7)) ∧
    (∃ (b : Batch) (rest : List Batch) (s : State),
      (isActive s = true) ∧
      (s.fix.opened = b :: rest) ∧
      (64 ≤ s.fix.closed.length)) ∧
    (∃ (s : State),
      (isActive s = false)) ∧
    (∃ (signMs : Nat) (b : Batch) (s : State),
      (isActive s = true) ∧
      (s.fix.recomputing = false) ∧
      (s.fix.closed = [b]) ∧
      (b.object = []) ∧
      (findKey s storeNsid (sealKey b.seq) = none)) ∧
    (∃ (signMs : Nat) (b : Batch) (s : State),
      (isActive s = true) ∧
      (s.fix.recomputing = false) ∧
      (s.fix.closed = [b]) ∧
      (batchStored s b = true)) ∧
    (∃ (units : List (Nat × Nat × UnitRead)) (s : State),
      (s.fix.recomputing = true)) ∧
    (∃ (extent : Nat) (units : List (Nat × Nat × UnitRead)) (l : Leaf) (segs : List Seg) (plain : Bytes) (s : State),
      (s.fld F.FIX_AUDIT_CFG_CYCLE_DAYS ≠ 0) ∧
      (extent ∈ liveObjects s) ∧
      (leafOfExtent s extent = some l) ∧
      (leafSegs s l.extent (leafBytesLen l) = some segs) ∧
      ((passing s units).length = units.length) ∧
      (plainOf s l.nsid segs (passing s units) = some plain)) ∧
    (∃ (extent : Nat) (units : List (Nat × Nat × UnitRead)) (l : Leaf) (segs : List Seg) (plain : Bytes) (s : State),
      (s.fld F.FIX_AUDIT_CFG_CYCLE_DAYS ≠ 0) ∧
      (extent ∈ liveObjects s) ∧
      (leafOfExtent s extent = some l) ∧
      (leafSegs s l.extent (leafBytesLen l) = some segs) ∧
      ((passing s units).length = units.length) ∧
      (plainOf s l.nsid segs (passing s units) = some plain) ∧
      (segUnits s segs = [])) ∧
    (∃ (chain : Fin 16384) (wr index : Nat) (status : Fin 8) (s : State),
      ((s.xpt.pool.at wr).opcode = 0x10) ∧
      ((entryOf s (wrSlot wr)).live = true ∧ (entryOf s (wrSlot wr)).state = .posting ∧ (entryOf s (wrSlot wr)).status = stOk) ∧
      ((s.xpt.chains.at chain.val).inProgress = [(wr, index)]) ∧
      ((s.xpt.chains.at chain.val).running = true) ∧
      ((s.xpt.chains.at chain.val).next = none) ∧
      ((s.xpt.chains.at chain.val).failed = none)) :=
  ⟨⟨3, 8, wreq 0x10, chained (io up) (wreq 0x10), by decide⟩,
   ⟨3, 8, { wreq 0x10 with args := [1] }, [(0, 0, 0)], (pool (chained (io up) { wreq 0x10 with args := [1] })).onLay fun l => { l with geoms := [(1, ⟨1, 1, 12⟩)], sets := [(0, { aSet .opened with geom := 1 })] }, by decide⟩,
   ⟨3, 8, { wreq 0x11 with args := [1] }, chained (io up) { wreq 0x11 with args := [1] }, by decide⟩,
   ⟨3, 8, wreq 0x12, chained up (wreq 0x12), by decide⟩,
   ⟨3, 8, wreq 0x13, chained up (wreq 0x13), by decide⟩,
   ⟨3, 8, 0, sealReq 0x14, chained (keyed up) (sealReq 0x14), by decide⟩,
   ⟨3, 8, { sealReq 0x15 with length := 47 }, chained (keyed up) { sealReq 0x15 with length := 47 }, by decide⟩,
   ⟨3, 8, 0, sealReq 0x15, chained (keyed up) (sealReq 0x15), by decide⟩,
   ⟨{ (default : Batch) with stop := 1000 }, [], up.onFix fun f => { f with opened := [{ (default : Batch) with stop := 1000 }] }, by decide⟩,
   ⟨{ (default : Batch) with stop := 1000 }, [], up.onFix fun f => { f with opened := [{ (default : Batch) with stop := 1000 }], closed := List.replicate 7 default }, by decide⟩,
   ⟨{ (default : Batch) with stop := 1000 }, [], up.onFix fun f => { f with opened := [{ (default : Batch) with stop := 1000 }], closed := List.replicate 64 default }, by decide⟩,
   ⟨leash up 1 1 4, by decide⟩,
   ⟨70000, { (default : Batch) with seq := 4 }, up.onFix fun f => { f with closed := [{ (default : Batch) with seq := 4 }] }, by decide⟩,
   ⟨7, { (default : Batch) with seq := 4, object := [1] }, (up.onFix fun f => { f with closed := [{ (default : Batch) with seq := 4, object := [1] }] }).onLay fun l => { l with map := [{ (default : MapEntry) with nsid := storeNsid, kv := true, key := sealKey 4 }] }, by decide⟩,
   ⟨[], up.onFix fun f => { f with recomputing := true }, by decide⟩,
   ⟨9, [], { (default : Leaf) with typ := 1, keyLen := 1, extent := 9 }, [⟨false, 0, 0, 0, 0, 9⟩], [], (leafed up).setFld F.FIX_AUDIT_CFG_CYCLE_DAYS 3, by decide⟩,
   ⟨9, [], { (default : Leaf) with typ := 1, keyLen := 1, extent := 9 }, [⟨false, 0, 0, 0, 0, 9⟩], [], (leafed up).setFld F.FIX_AUDIT_CFG_CYCLE_DAYS 3, by decide⟩,
   ⟨3, 8, 0, 0, (inProgress up (wreq 0x10)).onCmd fun c => { c with table := [(wrSlot 8, { live .posting (capOf 2 1) with status := stOk })] }, by decide⟩⟩

/-- What the clauses of `CipherCompletes` assume can be met. -/
theorem witness_CipherCompletes :
    (∃ (r : CipherReq) (i : Nat) (s : State),
      ((cipTest s r).toOption = some i)) ∧
    (∃ (r : CipherReq) (s : State),
      (r.keyPage ≠ r.page)) ∧
    (∃ (lane : Fin 64) (x : CSeg) (rest : List CSeg) (s : State),
      (s.cip.lanes.at lane.val = x :: rest) ∧
      (1 < (s.cip.running.at x.op).left)) ∧
    (∃ (lane : Fin 64) (x : CSeg) (rest : List CSeg) (o : CipherOp) (d g : Bytes) (s : State),
      (s.cip.lanes.at lane.val = x :: rest) ∧
      (s.cip.running.at x.op = o) ∧
      (o.left = 1 ∧ o.req.mode = .gcmSeal ∧ o.entry = none)) ∧
    (∃ (lane : Fin 64) (s : State),
      (fencedUnit s 10 lane.val = false)) ∧
    (∃ (path : Fin 5) (session : Nat) (value : Word) (s : State),
      (MayWrite path session (F.CIP_KEY_ORDER_OP.addr 0) s) ∧
      (s.cip.order = none)) ∧
    (∃ (path : Fin 5) (session : Nat) (value : Word) (s : State),
      (MayWrite path session (F.CIP_KEY_ORDER_OP.addr 0) s) ∧
      (s.cip.order = none)) ∧
    (∃ (path : Fin 5) (session : Nat) (value : Word) (s : State),
      (MayWrite path session (F.CIP_KEY_ORDER_OP.addr 0) s) ∧
      (s.cip.order = none)) ∧
    (∃ (path : Fin 5) (session : Nat) (value : Word) (i : Nat) (s : State),
      (MayWrite path session (F.CIP_KEY_ORDER_OP.addr 0) s) ∧
      (s.cip.order = none) ∧
      (slotOf s (bitsOf value.toNat 11 0) (s.fld F.CIP_KEY_ARG_HANDLE) = some i) ∧
      (keyInUse s (s.cip.slots.at i) = false)) ∧
    (∃ (path : Fin 5) (session : Nat) (value : Word) (s : State),
      (MayWrite path session (F.CIP_KEY_ORDER_OP.addr 0) s) ∧
      (s.cip.order = none)) ∧
    (∃ (path : Fin 5) (session : Nat) (value : Word) (o : KeyOrder) (s : State),
      (MayWrite path session (F.CIP_KEY_ORDER_OP.addr 0) s) ∧
      (s.cip.order = some o)) ∧
    (∃ (o : KeyOrder) (r h : Nat) (s : State),
      (s.cip.order = some o) ∧
      ((runKeyOrder o s).2 = (r, h))) :=
  ⟨⟨creq .gcmSeal, 0, keyed up, by decide⟩,
   ⟨{ creq .gcmSeal with keyPage := 4 }, keyed up, by decide⟩,
   ⟨5, ⟨1, 0, false⟩, [], up.onCip fun c => { c with lanes := [(5, [⟨1, 0, false⟩])], running := [(1, ⟨creq .gcmSeal, [], 2, none⟩)] }, by decide⟩,
   ⟨5, ⟨1, 0, false⟩, [], ⟨creq .gcmSeal, [], 1, none⟩, [], [], up.onCip fun c => { c with lanes := [(5, [⟨1, 0, false⟩])], running := [(1, ⟨creq .gcmSeal, [], 1, none⟩)] }, by decide⟩,
   ⟨63, up, by decide⟩,
   ⟨4, 0, 0x12000003, upBone, by decide⟩,
   ⟨4, 0, 0x22000003, upBone, by decide⟩,
   ⟨4, 0, 0x32000003, upBone, by decide⟩,
   ⟨4, 0, 0x40000003, 0, (keyed upBone).setFld F.CIP_KEY_ARG_HANDLE 66, by decide⟩,
   ⟨4, 0, 0x50000003, upBone, by decide⟩,
   ⟨4, 0, 0x12000003, default, upBone.onCip fun c => { c with order := some default }, by decide⟩,
   ⟨{ (default : KeyOrder) with op := 1, typ := 1 }, 5, 0, upBone.onCip fun c => { c with order := some { (default : KeyOrder) with op := 1, typ := 1 } }, by decide⟩⟩

/-- What the clauses of `TrustCompletes` assume can be met. -/
theorem witness_TrustCompletes :
    (∃ (path : Fin 5) (session : Nat) (value : Word) (s : State),
      (MayWrite path session (F.TRU_ORDER_OP.addr 0) s) ∧
      (s.tru.rotation < 63)) ∧
    (∃ (path : Fin 5) (session : Nat) (value : Word) (s : State),
      (MayWrite path session (F.TRU_ORDER_OP.addr 0) s) ∧
      ((s.ctl.firmware.any fun e => e.2.valid && decide (e.2.svn < s.fld F.TRU_STAT_FW_SVN)) = false)) ∧
    (∃ (path : Fin 5) (session : Nat) (value : Word) (s : State),
      (MayWrite path session (F.TRU_ORDER_OP.addr 0) s) ∧
      ((s.ctl.firmware.any fun e => e.2.valid && decide (e.2.svn < s.fld F.TRU_STAT_FW_SVN)) = true)) ∧
    (∃ (path : Fin 5) (session : Nat) (value : Word) (s : State),
      (MayWrite path session (F.TRU_ORDER_OP.addr 0) s) ∧
      (path ≠ 4) ∧
      (s.cip.mailboxSession = session) ∧
      (s.cip.mailbox.length = 64) ∧
      (s.tru.imageSigner ≠ some (bitsOf value.toNat 1 0))) ∧
    (∃ (path : Fin 5) (session : Nat) (value : Word) (s : State),
      (MayWrite path session (F.TRU_ORDER_OP.addr 0) s) ∧
      (s.tru.imageSigner ≠ some (bitsOf value.toNat 1 0))) ∧
    (∃ (path : Fin 5) (session : Nat) (value : Word) (s : State),
      (MayWrite path session (F.TRU_ORDER_OP.addr 0) s) ∧
      (s.tru.imageSigner = some (bitsOf value.toNat 1 0))) :=
  ⟨⟨4, 0, 0x10000000, upBone, by decide⟩,
   ⟨4, 0, 0x20000000, upBone.setFld F.TRU_STAT_FW_SVN 3, by decide⟩,
   ⟨4, 0, 0x20000000, (upBone.setFld F.TRU_STAT_FW_SVN 3).onCtl fun c => { c with firmware := [(0, ⟨true, [], 0, 2⟩)] }, by decide⟩,
   ⟨0, 5, 0x30000002, (sessioned up).onCip fun c => { c with mailboxSession := 5, mailbox := List.replicate 64 1 }, by decide⟩,
   ⟨4, 0, 0x40000002, upBone, by decide⟩,
   ⟨4, 0, 0x40000002, { upBone with tru := { upBone.tru with imageSigner := some 2 } }, by decide⟩⟩

/-- What the clauses of `LayoutSetsComplete` assume can be met. -/
theorem witness_LayoutSetsComplete :
    (∃ (lane : Fin 16) (x : Slice) (s : State),
      (s.lay.lanes.look lane.val = some x) ∧
      (s.lay.laneQueue = []) ∧
      (x.decode = false)) ∧
    (∃ (lane : Fin 16) (x : Slice) (s : State),
      (s.lay.lanes.look lane.val = some x) ∧
      (fencedUnit s 7 lane.val = false) ∧
      (inGroup s = false)) ∧
    (∃ (set : Nat) (s : State),
      ((s.lay.sets.at set).state = .opened)) ∧
    (∃ (set : Nat) (s : State),
      ((s.lay.sets.at set).state = .sealing) ∧
      ((s.lay.sets.at set).sealDurable = true) ∧
      (headersOut s (s.lay.sets.at set) = false)) ∧
    (∃ (set : Nat) (units : List (Nat × UnitRead)) (s : State),
      ((s.lay.sets.at set).state = .reclaiming) ∧
      (liveExtents s set = []) ∧
      (liveRows s set = 0) ∧
      (s.lay.full = false) ∧
      (mayDrive s = true) ∧
      (copiesC s ≤ (slotsInService s).length) ∧
      ((entriesWhere s fun e => e.moves.any fun x => x.1 == set) = []) ∧
      (s.fix.storeWait = [])) ∧
    (∃ (regions : List (Bool × Bytes)) (tail : List JRec) (headers : List (Nat × Nat × RowInfo)) (store : List (Bytes × Bytes)) (s : State),
      (s.lay.replayEnded = false) ∧
      (isActive s = true)) ∧
    (∃ (s : State),
      (s.fld F.LAY_CKPT_CFG_INTERVAL_S ≠ 0) ∧
      (s.lay.ckpt.busy = false) ∧
      (copiesC s ≤ (slotsInService s).length) ∧
      (s.lay.replayEnded = true)) ∧
    (∃ (path : Fin 5) (session : Nat) (value : Word) (s : State),
      (MayWrite path session (F.LAY_CKPT_CTRL_START.addr 0) s) ∧
      (bitAt value.toNat 0 = true) ∧
      (s.lay.ckpt.busy = false) ∧
      (copiesC s ≤ (slotsInService s).length) ∧
      (s.lay.replayEnded = true)) ∧
    (∃ (slot other : Fin 48) (s : State),
      (s.lay.ckpt.busy = true) ∧
      (s.lay.ckpt.pendingSlots.contains slot.val = true) ∧
      (s.lay.ckpt.pendingSlots.contains other.val = true) ∧
      (slot ≠ other)) ∧
    (∃ (slot : Fin 48) (s : State),
      (s.lay.ckpt.busy = true) ∧
      (s.lay.ckpt.pendingSlots = [slot.val]) ∧
      ((s.lay.drives.any fun e => e.2.joining) = false) ∧
      (s.lay.waitingJournal = []) ∧
      (s.fix.storeWait = [])) ∧
    (∃ (slot : Fin 48) (s : State),
      (s.lay.ckpt.busy = true) ∧
      (s.lay.ckpt.pendingSlots.contains slot.val = true) ∧
      ((s.lay.drives.at slot.val).state = 1)) :=
  ⟨⟨15, ⟨16384, 0, false⟩, up.onLay fun l => { l with lanes := [(15, ⟨16384, 0, false⟩)] }, by decide⟩,
   ⟨15, ⟨16384, 0, false⟩, (entry (io up) (live .encoding (capOf 1 1))).onLay fun l => { l with lanes := [(15, ⟨16384, 0, false⟩)] }, by decide⟩,
   ⟨0, setIn (pool (io up)) { aSet .opened with geom := 1 }, by decide⟩,
   ⟨0, setIn (pool (io up)) { aSet .sealing with geom := 1, sealDurable := true }, by decide⟩,
   ⟨0, [], setIn (pool (io up)) { aSet .reclaiming with geom := 1 }, by decide⟩,
   ⟨[], [], [], [], pool (io up), by decide⟩,
   ⟨(pool (io up)).onLay fun l => { l with replayEnded := true }, by decide⟩,
   ⟨4, 0, 1, (pool (io up)).onLay fun l => { l with replayEnded := true }, by decide⟩,
   ⟨1, 0, (pool (io up)).onLay fun l => { l with ckpt := { l.ckpt with busy := true, gen := 3, pendingSlots := [0, 1] } }, by decide⟩,
   ⟨1, (pool (io up)).onLay fun l => { l with ckpt := { l.ckpt with busy := true, gen := 3, pendingSlots := [1] } }, by decide⟩,
   ⟨1, (pool (io up)).onLay fun l => { l with ckpt := { l.ckpt with busy := true, gen := 3, pendingSlots := [1] } }, by decide⟩⟩

/-- What the clauses of `LayoutRepairsComplete` assume can be met. -/
theorem witness_LayoutRepairsComplete :
    (∃ (rows : List (List UnitRead)) (id n : Nat) (m : Member) (s : State),
      (s.lay.rebuild.target = some (id, n, m)) ∧
      (s.lay.rebuild.written = false) ∧
      (s.lay.full = false) ∧
      (mayDrive s = true)) ∧
    (∃ (set row unit : Nat) (units : List UnitRead) (b : Bytes) (s : State),
      (s.lay.repairs.contains (set, row, unit) = true) ∧
      ((units.any fun x => x.unit == unit && unitPasses s set row x) = false) ∧
      (recoverUnit s set row unit units = some b) ∧
      (mayDrive s = true)) ∧
    (∃ (slot : Fin 48) (s : State),
      ((s.lay.drives.at slot.val).state = 3)) ∧
    (∃ (set row : Nat) (units : List UnitRead) (s : State),
      (s.fld F.LAY_CFG_SCRUB_EN = 1) ∧
      ((s.lay.sets.at set).state = .sealed) ∧
      (row < (s.lay.sets.at set).rowsUsed) ∧
      (mayDrive s = true) ∧
      (units.all (unitPasses s set row) = true)) ∧
    (∃ (set row : Nat) (x : UnitRead) (units : List UnitRead) (b : Bytes) (s : State),
      (s.fld F.LAY_CFG_SCRUB_EN = 1) ∧
      ((s.lay.sets.at set).state = .sealed) ∧
      (row < (s.lay.sets.at set).rowsUsed) ∧
      (mayDrive s = true) ∧
      (unitPasses s set row x = false ∧ units.all (unitPasses s set row) = true) ∧
      (recoverUnit s set row x.unit (x :: units) = some b)) ∧
    (∃ (path : Fin 5) (session : Nat) (value : Word) (slot : Nat) (s : State),
      (MayWrite path session (F.LAY_FORMAT_ORDER_CONFIRM.addr 0) s) ∧
      (bitsOf value.toNat 31 24 = 0xA5 ∧ bitsOf value.toNat 5 0 = slot ∧ slot < 48) ∧
      ((s.lay.drives.at slot).state = 0 ∨ (s.lay.drives.at slot).state = 4) ∧
      (isActive s = true) ∧
      (s.lay.replayEnded = true) ∧
      (served s slot = true ∧ (freeIndex s slot).isSome = true) ∧
      (2 ^ 28 ≤ (portOf s slot).lbaCount)) :=
  ⟨⟨[], 0, 0, ⟨1, 7, false⟩, (setIn (pool (io up)) { aSet .opened with geom := 1, members := [⟨0, 3, true⟩, ⟨1, 3, false⟩] }).onLay fun l => { l with geoms := [(1, ⟨1, 1, 20⟩)], rebuild := { l.rebuild with target := some (0, 0, ⟨1, 7, false⟩) } }, by decide⟩,
   ⟨0, 0, 0, [⟨0, [], [1]⟩, ⟨1, [], [0]⟩], [0], (setIn (pool (io up)) { aSet .opened with geom := 1, members := [⟨0, 3, false⟩, ⟨1, 3, false⟩], rows := [(0, { (default : RowInfo) with dataUnits := 1, unitCrcs := [unitCrc 1 [0], unitCrc 1 [0]] })] }).onLay fun l => { l with geoms := [(1, ⟨1, 1, 0⟩)], repairs := [(0, 0, 0)] }, by decide⟩,
   ⟨1, (pool (io up)).onLay fun l => { l with drives := [(1, { (default : Drive) with state := 3, chunkCount := 9 })] }, by decide⟩,
   ⟨0, 0, [], setIn (pool (io up)) (aSet .sealed), by decide⟩,
   ⟨0, 0, ⟨0, [], [1]⟩, [⟨1, stripeHeader 1 1 0 1 1 0 1 false { (default : RowInfo) with dataUnits := 1, unitCrcs := [unitCrc 1 [0], unitCrc 1 [0]] }, [0]⟩], [0], (setIn (pool (io up)) { aSet .sealed with geom := 1, members := [⟨0, 3, false⟩, ⟨1, 3, false⟩], rows := [(0, { (default : RowInfo) with dataUnits := 1, unitCrcs := [unitCrc 1 [0], unitCrc 1 [0]] })] }).onLay fun l => { l with geoms := [(1, ⟨1, 1, 0⟩)] }, by decide⟩,
   ⟨4, 0, 0xA5000001, 1, (upBone.onLay fun l => { l with replayEnded := true, drives := [(1, { (default : Drive) with state := 4, lbaCount := 400000000 })] }).onDrv fun d => { d with ports := [(1, { ready with lbaCount := 400000000 })] }, by decide⟩⟩

/-- What the clauses of `MigrationCompletes` assume can be met. -/
theorem witness_MigrationCompletes :
    (∃ (job : Fin 16) (count : Nat) (trigger : Fin 16384) (place : WindowPlace) (units : List (Nat × Nat × UnitRead)) (s : State),
      ((jobOf s job.val).target = false) ∧
      ((jobOf s job.val).state = 2 ∨ (jobOf s job.val).state = 3 ∨ (jobOf s job.val).state = 4) ∧
      ((jobOf s job.val).windows.length < s.fld F.FIX_MIG_CFG_WINDOWS) ∧
      (regionFree (jobOf s job.val) place.region = true) ∧
      ((s.xpt.triggers.at trigger.val).state = 0) ∧
      (planned s job.val count units ≠ [])) ∧
    (∃ (job peerSlot : Fin 16) (window : Nat) (entries : List Bytes) (trigger : Fin 16384) (place : TargetPlace) (s : State),
      ((jobOf s job.val).target = true) ∧
      (migBusy s job.val = true) ∧
      (entries.length ≤ 60) ∧
      (regionFree (jobOf s job.val) place.region = true) ∧
      ((s.xpt.triggers.at trigger.val).state = 0)) ∧
    (∃ (job : Fin 16) (window : Nat) (w : MigWindow) (s : State),
      ((jobOf s job.val).windows.find? (fun w => w.number == window) = some w) ∧
      ((jobOf s job.val).target = false) ∧
      (migBusy s job.val = true)) ∧
    (∃ (job : Fin 16) (window trigger : Nat) (o : MigObj) (s : State),
      ((jobOf s job.val).windows.find? (fun w => w.number == window) = some ⟨window, trigger, 0, [o]⟩) ∧
      ((jobOf s job.val).target = false) ∧
      (migBusy s job.val = true)) ∧
    (∃ (job : Fin 16) (window : Nat) (statuses : List Nat) (w : MigWindow) (s : State),
      ((jobOf s job.val).windows.find? (fun w => w.number == window) = some w) ∧
      ((jobOf s job.val).target = true) ∧
      (migBusy s job.val = true)) ∧
    (∃ (job : Fin 16) (s : State),
      ((jobOf s job.val).target = true) ∧
      (migBusy s job.val = true)) ∧
    (∃ (job : Fin 16) (regions : List Landing) (s : State),
      ((jobOf s job.val).state = 1) ∧
      ((jobOf s job.val).target = true)) ∧
    (∃ (job : Fin 16) (regions : List Landing) (s : State),
      ((jobOf s job.val).state = 1) ∧
      ((jobOf s job.val).target = false)) ∧
    (∃ (path : Fin 5) (session : Nat) (value : Word) (s : State),
      (MayWrite path session (F.FIX_MIG_CTRL_ORDER.addr 0) s) ∧
      (bitsOf value.toNat 31 28 = 1) ∧
      (migBusy s (bitsOf value.toNat 3 0) = true) ∧
      (passDone (jobOf s (bitsOf value.toNat 3 0)) = false)) ∧
    (∃ (path : Fin 5) (session : Nat) (value : Word) (s : State),
      (MayWrite path session (F.FIX_MIG_CTRL_ORDER.addr 0) s) ∧
      (bitsOf value.toNat 31 28 = 2) ∧
      (migBusy s (bitsOf value.toNat 3 0) = true)) ∧
    (∃ (job : Fin 16) (s : State),
      ((jobOf s job.val).state = 4) ∧
      ((jobOf s job.val).target = false)) ∧
    (∃ (job : Fin 16) (s : State),
      (migBusy s job.val = true) ∧
      ((ctxOf s (jobOf s job.val).qpn).state = 5)) :=
  ⟨⟨2, 60, 7, default, [], (mig (sealedFor (conn (io up) { rts with class0 := true })) { job 2 false with todo := [mobj], regions := [⟨4, 7, 0, 0⟩] }).onLay fun l => { l with map := [{ (default : MapEntry) with nsid := 1, kv := true, key := [1], length := 8, extent := 9, jseq := 3 }] }, by decide⟩,
   ⟨2, 1, 5, [[1, 2]], 7, { (default : TargetPlace) with mbuf := 64 }, mig (conn (io up) { rts with class0 := true }) { job 2 true with regions := [⟨4, 7, 0, 0⟩] }, by decide⟩,
   ⟨2, 5, ⟨5, 7, 0, [mobj]⟩, mig (io up) { job 3 false with windows := [⟨5, 7, 0, [mobj]⟩] }, by decide⟩,
   ⟨2, 5, 7, mobj, mig (io up) { job 3 false with windows := [⟨5, 7, 0, [mobj]⟩] }, by decide⟩,
   ⟨2, 5, [4], ⟨5, 7, 0, [mobj]⟩, (mig (io up) { job 3 true with windows := [⟨5, 7, 0, [mobj]⟩] }).onXpt fun x => { x with triggers := [(7, ⟨1, 2, 1, 3, 4, 5, 6⟩)] }, by decide⟩,
   ⟨2, mig (io up) (job 2 true), by decide⟩,
   ⟨2, [⟨4, 7, 0x1000, 64⟩], mig (io up) (job 1 true), by decide⟩,
   ⟨2, [⟨4, 7, 0x1000, 64⟩], mig (io up) (job 1 false), by decide⟩,
   ⟨4, 0, 0x10000002, mig upBone { job 3 false with todo := [mobj] }, by decide⟩,
   ⟨4, 0, 0x20000002, mig upBone { job 4 false with windows := [⟨5, 7, 0, [mobj]⟩] }, by decide⟩,
   ⟨2, mig (io up) (job 4 false), by decide⟩,
   ⟨2, mig (conn (io up) { rts with state := 5 }) (job 3 false), by decide⟩⟩

/-- What the clauses of `DriveBringUpCompletes` assume can be met. -/
theorem witness_DriveBringUpCompletes :
    (∃ (slot : Fin 48) (s : State),
      ((s.drv.slots.at slot.val).seated = false) ∧
      ((portOf s slot.val).state = 0) ∧
      (pwrdisUp s slot.val = false)) ∧
    (∃ (slot : Fin 48) (low0 low1 line : Bool) (s : State),
      ((low0 && low1) = false) ∧
      ((s.drv.slots.at slot.val).seated = true) ∧
      (line = (s.drv.slots.at slot.val).partnerPwrdis) ∧
      ((portOf s slot.val).state ≠ 0 ∧ (portOf s slot.val).state ≠ 9 ∧ (portOf s slot.val).state ≠ 10)) ∧
    (∃ (slot : Fin 48) (s : State),
      (pwrdisUp s slot.val = false) ∧
      ((portOf s slot.val).state ≠ 0 ∧ (portOf s slot.val).state ≠ 9 ∧ (portOf s slot.val).state ≠ 10)) ∧
    (∃ (slot : Fin 48) (s : State),
      ((portOf s slot.val).state = 2) ∧
      (redState s ≠ 8)) ∧
    (∃ (slot : Fin 48) (rate width corrected : Nat) (s : State),
      ((portOf s slot.val).state = 3)) ∧
    (∃ (slot : Fin 48) (s : State),
      ((portOf s slot.val).state = 3) ∧
      ((portOf s slot.val).attempts < 2)) ∧
    (∃ (slot : Fin 48) (s : State),
      ((portOf s slot.val).state = 3) ∧
      (2 ≤ (portOf s slot.val).attempts) ∧
      (inGroup s = false)) ∧
    (∃ (slot : Fin 48) (f : DriveFacts) (s : State),
      ((portOf s slot.val).state = 4) ∧
      ((portOf s slot.val).step = 1)) ∧
    (∃ (slot : Fin 48) (f : DriveFacts) (s : State),
      ((portOf s slot.val).state = 4) ∧
      ((portOf s slot.val).step = 2)) ∧
    (∃ (slot : Fin 48) (f : DriveFacts) (test : Nat) (s : State),
      ((portOf s slot.val).state = 4) ∧
      ((portOf s slot.val).step = 3) ∧
      (unsuitable s f = some test)) ∧
    (∃ (slot : Fin 48) (f : DriveFacts) (s : State),
      ((portOf s slot.val).state = 4) ∧
      ((portOf s slot.val).step = 3) ∧
      (unsuitable s f = none)) ∧
    (∃ (slot : Fin 48) (f : DriveFacts) (s : State),
      ((portOf s slot.val).state = 4) ∧
      ((portOf s slot.val).step = 4)) ∧
    (∃ (slot : Fin 48) (f : DriveFacts) (s : State),
      ((portOf s slot.val).state = 4) ∧
      ((portOf s slot.val).step = 5) ∧
      (isActive s = true)) ∧
    (∃ (slot : Fin 48) (f : DriveFacts) (s : State),
      ((portOf s slot.val).state = 4) ∧
      ((portOf s slot.val).step = 6)) ∧
    (∃ (slot : Fin 48) (cfs : Bool) (s : State),
      ((portOf s slot.val).state = 4)) ∧
    (∃ (slot : Fin 48) (s : State),
      (inGroup s = true) ∧
      ((portOf s slot.val).state = 1) ∧
      (legPg s slot.val = false)) ∧
    (∃ (slot : Fin 48) (serial : Option Nat) (s : State),
      ((s.drv.slots.at slot.val).naks = 2)) :=
  ⟨⟨47, up, by decide⟩,
   ⟨3, true, false, false, (port up ready).onDrv fun d => { d with slots := [(3, { (default : DrvSlot) with seated := true })] }, by decide⟩,
   ⟨3, (port up ready).onDrv fun d => { d with slots := [(3, { (default : DrvSlot) with seated := true })] }, by decide⟩,
   ⟨3, port up { ready with state := 2, perstReleased := false }, by decide⟩,
   ⟨3, 5, 4, 2, port up { ready with state := 3 }, by decide⟩,
   ⟨3, port up { ready with state := 3 }, by decide⟩,
   ⟨3, port up { ready with state := 3, attempts := 2 }, by decide⟩,
   ⟨3, facts, port up { ready with state := 4, step := 1 }, by decide⟩,
   ⟨3, facts, port up { ready with state := 4, step := 2 }, by decide⟩,
   ⟨3, { facts with lbaCount := 268435455 }, 3, port up { ready with state := 4, step := 3 }, by decide⟩,
   ⟨3, facts, port up { ready with state := 4, step := 3 }, by decide⟩,
   ⟨3, facts, port up { ready with state := 4, step := 4, depth := 1024, lbaCount := 400000000 }, by decide⟩,
   ⟨3, { facts with holderKey := some 8 }, port up { ready with state := 4, step := 5 }, by decide⟩,
   ⟨3, facts, port up { ready with state := 4, step := 6 }, by decide⟩,
   ⟨3, true, port up { ready with state := 4, step := 2 }, by decide⟩,
   ⟨3, (port up { ready with state := 1 }).setFld F.RED_MODE_MODE 1, by decide⟩,
   ⟨3, none, up.onDrv fun d => { d with slots := [(3, { (default : DrvSlot) with naks := 2 })] }, by decide⟩⟩

/-- What the clauses of `DriveFailuresAndOrdersComplete` assume can be met. -/
theorem witness_DriveFailuresAndOrdersComplete :
    (∃ (slot : Fin 48) (s : State),
      (served s slot.val = true)) ∧
    (∃ (slot : Fin 48) (s : State),
      (served s slot.val = true)) ∧
    (∃ (slot : Fin 48) (s : State),
      (served s slot.val = true)) ∧
    (∃ (slot : Fin 48) (rate width corrected : Nat) (s : State),
      (served s slot.val = true)) ∧
    (∃ (slot : Fin 48) (corrected : Nat) (s : State),
      (served s slot.val = true)) ∧
    (∃ (slot : Fin 48) (start len page : Nat) (s : State),
      (served s slot.val = true ∨ (portOf s slot.val).state = 4) ∧
      (firstUnmapped (portOf s slot.val) ((start + max 1 len - 1) / 4096 + 1 - start / 4096) (start / 4096) = some page)) ∧
    (∃ (slot : Fin 48) (s : State),
      (s.drv.preempting.contains slot.val = true)) ∧
    (∃ (slot : Fin 48) (s : State),
      (s.drv.preempting.contains slot.val = true) ∧
      (s.drv.round = 1) ∧
      (s.drv.stopped = false)) ∧
    (∃ (path : Fin 5) (session : Nat) (value : Word) (n : Nat) (s : State),
      (MayWrite path session (F.DRV_PORT_ORDER_ORDER.addr 0) s) ∧
      (bitsOf value.toNat 31 28 = 1 ∧ bitsOf value.toNat 5 0 = n ∧ n < 48) ∧
      (served s n = true)) ∧
    (∃ (path : Fin 5) (session : Nat) (value : Word) (n : Nat) (s : State),
      (MayWrite path session (F.DRV_PORT_ORDER_ORDER.addr 0) s) ∧
      (bitsOf value.toNat 31 28 = 2 ∧ bitsOf value.toNat 5 0 = n ∧ n < 48) ∧
      ((portOf s n).state ≠ 0 ∧ (portOf s n).state ≠ 9 ∧ (portOf s n).state ≠ 10)) ∧
    (∃ (path : Fin 5) (session : Nat) (value : Word) (n : Nat) (s : State),
      (MayWrite path session (F.DRV_PORT_ORDER_ORDER.addr 0) s) ∧
      (bitsOf value.toNat 31 28 = 3 ∧ bitsOf value.toNat 5 0 = n ∧ n < 48) ∧
      ((portOf s n).state = 8) ∧
      (pwrdisUp s n = false)) ∧
    (∃ (path : Fin 5) (session : Nat) (value : Word) (n : Nat) (s : State),
      (MayWrite path session (F.DRV_PORT_ORDER_ORDER.addr 0) s) ∧
      (bitsOf value.toNat 31 28 = 4 ∧ bitsOf value.toNat 5 0 = n ∧ n < 48) ∧
      ((portOf s n).state = 7)) ∧
    (∃ (path : Fin 5) (session : Nat) (value : Word) (n : Nat) (s : State),
      (MayWrite path session (F.DRV_PWRDIS_ORDER_CONFIRM.addr 0) s) ∧
      (bitsOf value.toNat 31 24 = 0x5A ∧ bitsOf value.toNat 5 0 = n ∧ n < 48) ∧
      ((s.drv.slots.at n).pwrdis = false)) ∧
    (∃ (slot : Fin 48) (s : State),
      ((s.drv.slots.at slot.val).pwrdis = true)) :=
  ⟨⟨3, port up ready, by decide⟩,
   ⟨3, port up ready, by decide⟩,
   ⟨3, port up { ready with recovering := true }, by decide⟩,
   ⟨3, 6, 4, 0, port up ready, by decide⟩,
   ⟨3, 9, port up ready, by decide⟩,
   ⟨3, 0x8000001, 4096, 32768, port up ready, by decide⟩,
   ⟨3, (port up ready).onDrv fun d => { d with preempting := [3], round := 1 }, by decide⟩,
   ⟨3, (port up ready).onDrv fun d => { d with preempting := [3], round := 1 }, by decide⟩,
   ⟨4, 0, 0x10000003, 3, port upBone ready, by decide⟩,
   ⟨4, 0, 0x20000003, 3, port upBone ready, by decide⟩,
   ⟨4, 0, 0x30000003, 3, port upBone { ready with state := 8 }, by decide⟩,
   ⟨4, 0, 0x40000003, 3, port upBone { ready with state := 7 }, by decide⟩,
   ⟨4, 0, 0x5A070003, 3, port upBone ready, by decide⟩,
   ⟨3, (port up { ready with state := 8 }).onDrv fun d => { d with slots := [(3, { (default : DrvSlot) with pwrdis := true })] }, by decide⟩⟩

/-- What the clauses of `FramesAndLinksComplete` assume can be met. -/
theorem witness_FramesAndLinksComplete :
    (∃ (lport : Fin 64) (frame : Bytes) (s : State),
      (linkIsUp s lport.val = true) ∧
      (s.cmd.ps ≠ 4)) ∧
    (∃ (lport : Fin 64) (frame : Bytes) (s : State),
      (linkIsUp s lport.val = true) ∧
      (s.cmd.ps ≠ 4) ∧
      (frame.length + 4 < 64 ∨ maxFrame s lport.val < frame.length + 4)) ∧
    (∃ (lport : Fin 64) (frame : Bytes) (s : State),
      (linkIsUp s lport.val = true) ∧
      (s.cmd.ps ≠ 4) ∧
      (64 ≤ frame.length + 4 ∧ frame.length + 4 ≤ maxFrame s lport.val) ∧
      (half frame 12 = 0x8808 ∧ half frame 14 = 0x0001)) ∧
    (∃ (lport : Fin 64) (frame : Bytes) (prio : Fin 8) (s : State),
      (linkIsUp s lport.val = true) ∧
      (s.cmd.ps ≠ 4) ∧
      (64 ≤ frame.length + 4 ∧ frame.length + 4 ≤ maxFrame s lport.val) ∧
      (half frame 12 = 0x8808 ∧ half frame 14 = 0x0101) ∧
      (bitAt (half frame 16) prio.val = true) ∧
      (pfcEnabled s lport.val prio.val = true)) ∧
    (∃ (lport : Fin 64) (frame : Bytes) (w : Walk) (i a : Nat) (s : State),
      (linkIsUp s lport.val = true) ∧
      (s.cmd.ps ≠ 4) ∧
      (64 ≤ frame.length + 4 ∧ frame.length + 4 ≤ maxFrame s lport.val) ∧
      (half frame 12 ≠ 0x8808) ∧
      (parse s frame = .inr w) ∧
      (w.badIp = false) ∧
      (lookup s (lookupKey s lport.val frame w) = some (i, a)) ∧
      (actKind a = 3 ∧ actTc a = 7 ∧ actPolice a = false) ∧
      (udpSumOk frame = true ∧ icrcOk frame = true) ∧
      (pfcEnabled s lport.val (bitsOf (w.tag.getD 0) 15 13) = false) ∧
      ((allocChain lport.val 1 1 (cellsFor (frame.length + 4)) s).isSome = true)) ∧
    (∃ (lport : Fin 64) (frame : Bytes) (w : Walk) (i a : Nat) (s : State),
      (linkIsUp s lport.val = true) ∧
      (s.cmd.ps ≠ 4) ∧
      (64 ≤ frame.length + 4 ∧ frame.length + 4 ≤ maxFrame s lport.val) ∧
      (half frame 12 ≠ 0x8808) ∧
      (parse s frame = .inr w) ∧
      (w.badIp = false) ∧
      (lookup s (lookupKey s lport.val frame w) = some (i, a)) ∧
      (actKind a = 3) ∧
      (udpSumOk frame = false ∨ icrcOk frame = false)) ∧
    (∃ (lport : Fin 64) (frame : Bytes) (s : State),
      (linkIsUp s lport.val = true) ∧
      (s.cmd.ps = 4) ∧
      (wakeHits s (lport.val / 4) frame = [])) ∧
    (∃ (lport : Fin 64) (s : State),
      (portExists s lport.val = true) ∧
      (linkIsUp s lport.val = false) ∧
      (s.cmd.ps ≠ 4) ∧
      (s.fld F.RED_STAT_STATE < 7)) ∧
    (∃ (lport : Fin 64) (cause : Fin 2) (part : Bool) (s : State),
      (linkIsUp s lport.val = true)) ∧
    (∃ (lport : Fin 64) (codewords : Nat) (s : State),
      (portExists s lport.val = true) ∧
      (16 ≤ codewords)) ∧
    (∃ (lport : Fin 64) (timers : List (Fin 8 × Nat)) (s : State),
      (linkIsUp s lport.val = true) ∧
      (s.cmd.ps ≠ 4) ∧
      ((timers.map (·.1)).Nodup)) ∧
    (∃ (lport : Fin 64) (prio : Fin 8) (s : State),
      (bitAt (s.fldI F.SWC_PFC_STAT_XOFF lport.val) prio.val = true) ∧
      (s.cmd.ps ≠ 4)) ∧
    (∃ (lport : Fin 64) (s : State),
      (portQueues s lport.val = []) ∧
      (framesIn s (8 * lport.val + 7) = [])) ∧
    (∃ (path : Fin 5) (session : Nat) (value : Word) (s : State),
      (MayWrite path session 0x01000048 s) ∧
      (s.net.stamps.at (bitsOf value.toNat 5 0) = [])) ∧
    (∃ (lport : Fin 64) (frame : Bytes) (j : Nat) (js : List Nat) (s : State),
      (linkIsUp s lport.val = true) ∧
      (s.cmd.ps = 4) ∧
      (s.cmd.exiting = false) ∧
      (wakeHits s (lport.val / 4) frame = j :: js)) :=
  ⟨⟨0, zeros, linked up, by decide⟩,
   ⟨0, List.replicate 59 0, linked up, by decide⟩,
   ⟨0, List.replicate 12 0 ++ [0x88, 8, 0, 1] ++ List.replicate 44 0, linked up, by decide⟩,
   ⟨0, pauseFrame, 2, (linked up).setFldI F.PRT_LPORT_CFG_PFC_EN 0 4, by decide⟩,
   ⟨0, zeros, ⟨0, none, List.replicate 74 0, false, false⟩, 0, 3 * 2 ^ 60 + 7 * 2 ^ 39, classed up (3 * 2 ^ 60 + 7 * 2 ^ 39), by decide +kernel⟩,
   ⟨0, badUdp, ⟨0, none, List.replicate 74 0, false, false⟩, 0, 3 * 2 ^ 60, classed up (3 * 2 ^ 60), by decide +kernel⟩,
   ⟨1, [1], (asleep up).setFldI F.PRT_LPORT_STAT_LINK_UP 1 1 |>.onNet fun n => { n with wake := [] }, by decide⟩,
   ⟨0, up.setFldI F.PRT_PORT_CFG_MODE 0 0, by decide⟩,
   ⟨0, 1, true, linked up, by decide⟩,
   ⟨0, 16, linked up, by decide⟩,
   ⟨0, [(7, 9), (0, 0)], (linked up).setFldI F.PRT_LPORT_CFG_PFC_EN 0 0x81, by decide⟩,
   ⟨63, 0, up.setFldI F.SWC_PFC_STAT_XOFF 63 1, by decide⟩,
   ⟨0, (linked up).onNet fun n => { n with line := [(0, some { (default : Desc) with frame := zeros, len := 64 })] }, by decide⟩,
   ⟨4, 0, 63, up, by decide⟩,
   ⟨0, zeros, 0, [], asleep up, by decide +kernel⟩⟩

/-- What the clauses of `ClassifierEntriesComplete` assume can be met. -/
theorem witness_ClassifierEntriesComplete :
    (∃ (path : Fin 5) (session : Nat) (value : Word) (s : State),
      (MayWrite path session 0x02000048 s)) ∧
    (∃ (path : Fin 5) (session : Nat) (value : Word) (s : State),
      (MayWrite path session 0x02000048 s) ∧
      (s.locked = false)) ∧
    (∃ (path : Fin 5) (session : Nat) (value : Word) (s : State),
      (MayWrite path session 0x02000048 s) ∧
      (s.locked = false)) ∧
    (∃ (path : Fin 5) (session : Nat) (value : Word) (s : State),
      (MayWrite path session 0x02000048 s) ∧
      (s.locked = true)) ∧
    (∃ (path : Fin 5) (session : Nat) (value : Word) (s : State),
      (MayWrite path session 0x02000048 s) ∧
      (s.locked = true)) :=
  ⟨⟨4, 0, 0x1000FFFF, up.onNet fun n => { n with tcam := [(0xFFFF, ⟨true, 7, 9, 11⟩)] }, by decide⟩,
   ⟨4, 0, 0x20000005, up.setFldI F.CLS_RULE_DATA_DATA 41 5, by decide⟩,
   ⟨4, 0, 0x30000000, classed up 5, by decide +kernel⟩,
   ⟨4, 0, 0x20000000, up.setFld F.CTL_LOCK_IMAGE_LOCK 1, by decide⟩,
   ⟨4, 0, 0x30000000, up.setFld F.CTL_LOCK_IMAGE_LOCK 1, by decide⟩⟩

/-- What the clauses of `BufferAndGroupsComplete` assume can be met. -/
theorem witness_BufferAndGroupsComplete :
    (∃ (bank : Fin 64) (a : Nat) (c : Cell) (s : State),
      (s.fld F.SWC_CFG_BH_EN = 1) ∧
      (fencedUnit s 3 bank.val = false) ∧
      (a / 16384 = bank.val) ∧
      (s.net.cells = [(a, c)]) ∧
      (s.net.waitC0 = []) ∧
      (c.owner ≠ 0 ∧ c.misfiled = false) ∧
      (overLimit s c = false)) ∧
    (∃ (bank : Fin 64) (a : Nat) (c : Cell) (s : State),
      (s.fld F.SWC_CFG_BH_EN = 1) ∧
      (fencedUnit s 3 bank.val = false) ∧
      (a / 16384 = bank.val) ∧
      (s.net.cells = [(a, c)]) ∧
      (s.net.waitC0 = []) ∧
      (c.owner ≠ 0 ∧ c.misfiled = false ∧ c.suspect = true ∧ c.lastGen = c.gen ∧ c.reported = false) ∧
      (overLimit s c = true)) ∧
    (∃ (bank : Fin 64) (a : Nat) (c : Cell) (s : State),
      (s.fld F.SWC_CFG_BH_EN = 1) ∧
      (fencedUnit s 3 bank.val = false) ∧
      (a / 16384 = bank.val) ∧
      (s.net.cells = [(a, c)]) ∧
      (s.net.waitC0 = []) ∧
      (c.misfiled = true)) ∧
    (∃ (path : Fin 5) (session : Nat) (value : Word) (s : State),
      (MayWrite path session 0x03000054 s)) ∧
    (∃ (path : Fin 5) (session : Nat) (value : Word) (s : State),
      (MayWrite path session 0x03000054 s) ∧
      (s.locked = false)) ∧
    (∃ (path : Fin 5) (session : Nat) (value : Word) (s : State),
      (MayWrite path session 0x03000054 s) ∧
      (s.locked = true)) :=
  ⟨⟨1, 16384, { (default : Cell) with owner := 1, gen := 3, suspect := true }, (up.setFld F.SWC_CFG_BH_EN 1).onNet fun n => { n with cells := [(16384, { (default : Cell) with owner := 1, gen := 3, suspect := true })] }, by decide⟩,
   ⟨1, 16384, { (default : Cell) with owner := 1, gen := 3, lastGen := 3, suspect := true }, (((up.setFld F.SWC_CFG_BH_EN 1).setFld F.SWC_CFG_BH_RECLAIM 1).onCtl fun c => { c with gts := { c.gts with now := 2000000000000 } }).onNet fun n => { n with cells := [(16384, { (default : Cell) with owner := 1, gen := 3, lastGen := 3, suspect := true })] }, by decide⟩,
   ⟨0, 5, { (default : Cell) with owner := 2, misfiled := true }, (up.setFld F.SWC_CFG_BH_EN 1).onNet fun n => { n with cells := [(5, { (default : Cell) with owner := 2, misfiled := true })] }, by decide⟩,
   ⟨4, 0, 0x08000FFF, up.onNet fun n => { n with groups := [(0xFFF, ⟨2 ^ 63 + 5, true, true⟩)] }, by decide⟩,
   ⟨4, 0, 0x10000003, up.setFld F.SWC_MC_DATA2_VALID 1, by decide⟩,
   ⟨4, 0, 0x10000003, up.setFld F.CTL_LOCK_IMAGE_LOCK 1, by decide⟩⟩

/-- What the clauses of `TrafficTablesComplete` assume can be met. -/
theorem witness_TrafficTablesComplete :
    (∃ (path : Fin 5) (session : Nat) (value : Word) (s : State),
      (MayWrite path session 0x04000044 s) ∧
      (bitAt value.toNat 26 = false)) ∧
    (∃ (path : Fin 5) (session : Nat) (value : Word) (s : State),
      (MayWrite path session 0x04000044 s) ∧
      (s.locked = false) ∧
      (bitAt value.toNat 26 = false) ∧
      (framesIn s (bitsOf value.toNat 15 0) = [])) ∧
    (∃ (path : Fin 5) (session : Nat) (value : Word) (s : State),
      (MayWrite path session 0x04000044 s) ∧
      (s.locked = false) ∧
      (bitAt value.toNat 26 = true)) ∧
    (∃ (path : Fin 5) (session : Nat) (value : Word) (s : State),
      (MayWrite path session 0x04000044 s) ∧
      (s.locked = false) ∧
      (bitAt value.toNat 26 = false) ∧
      (framesIn s (bitsOf value.toNat 15 0) ≠ []) ∧
      ((qData s).lport ≠ (queueEntry s (bitsOf value.toNat 15 0)).lport)) ∧
    (∃ (path : Fin 5) (session : Nat) (value : Word) (s : State),
      (MayWrite path session 0x04000060 s)) ∧
    (∃ (path : Fin 5) (session : Nat) (value : Word) (s : State),
      (MayWrite path session 0x04000060 s) ∧
      (s.locked = false)) ∧
    (∃ (path : Fin 5) (session : Nat) (value : Word) (s : State),
      (MayWrite path session 0x04000074 s)) ∧
    (∃ (path : Fin 5) (session : Nat) (value : Word) (s : State),
      (MayWrite path session 0x04000074 s) ∧
      (s.locked = false) ∧
      ((gatesOf s (bitsOf value.toNat 25 20)).pending = none)) ∧
    (∃ (path : Fin 5) (session : Nat) (value : Word) (s : State),
      (MayWrite path session 0x04000074 s) ∧
      (s.locked = false) ∧
      ((gatesOf s (bitsOf value.toNat 25 20)).pending ≠ none)) ∧
    (∃ (path : Fin 5) (session : Nat) (value : Word) (s : State),
      (MayWrite path session 0x04000084 s)) ∧
    (∃ (path : Fin 5) (session : Nat) (value : Word) (s : State),
      (MayWrite path session 0x04000084 s) ∧
      (listActive s (bitsOf value.toNat 5 0) = true)) ∧
    (∃ (lport : Fin 64) (at_ last : Nat) (s : State),
      ((gatesOf s lport.val).pending = some (at_, last))) ∧
    (∃ (lport : Fin 64) (s : State),
      (listActive s lport.val = true) ∧
      ((gatesOf s lport.val).stopping = true)) ∧
    (∃ (lport : Fin 64) (s : State),
      (listActive s lport.val = true)) ∧
    (∃ (path : Fin 5) (session : Nat) (value : Word) (s : State),
      (MayWrite path session 0x0400008C s)) ∧
    (∃ (bytes : Nat) (s : State),
      (mediaLacks s + bytes * 100 ≤ s.fld F.TMG_BG_CFG_BURST_MIB * 2 ^ 20 * 100)) :=
  ⟨⟨4, 0, 0x0800FFFF, up.onNet fun n => { n with queueCfg := [(0xFFFF, ⟨0x80000001, 2, 3, 4, 5⟩)] }, by decide⟩,
   ⟨4, 0, 0x10000007, up.setFldI F.TMG_BG_CFG_RATE 0 5, by decide⟩,
   ⟨4, 0, 0x14000007, up, by decide⟩,
   ⟨4, 0, 0x10000200, up.onNet fun n => { n with queues := [(512, [default])], queueCfg := [(512, ⟨0xBF000000, 0, 0, 0, 0⟩)] }, by decide⟩,
   ⟨4, 0, 0x08003FFF, up.onNet fun n => { n with policers := [(0x3FFF, ⟨1, 2, 3, 4, 5, 6, 7, 8⟩)] }, by decide⟩,
   ⟨4, 0, 0x10003FFF, up.onNet fun n => { n with policers := [(0x3FFF, ⟨1, 2, 3, 4, 5, 6, 7, 8⟩)] }, by decide⟩,
   ⟨4, 0, 0x08000001, gated up, by decide⟩,
   ⟨4, 0, 0x100003FF, (gated up).setFld F.TMG_GATE_DATA_GATES 0x80, by decide⟩,
   ⟨4, 0, 0x10000001, up.onNet fun n => { n with gates := [(0, { (default : Gates) with pending := some (5, 1) })] }, by decide⟩,
   ⟨4, 0, 0x80010000, gated up, by decide⟩,
   ⟨4, 0, 0, gated up, by decide⟩,
   ⟨0, 5, 0, (gated up).onNet fun n => { n with gates := [(0, ⟨1, 0, 0, 0, some (5, 0), false⟩)] }, by decide⟩,
   ⟨0, (gated up).onNet fun n => { n with gates := [(0, ⟨1, 0, 0, 0, none, true⟩)] }, by decide⟩,
   ⟨0, (gated up).onNet fun n => { n with gates := [(0, ⟨1, 0, 1, 100, none, true⟩)] }, by decide⟩,
   ⟨4, 0, 0x40000002, up.onNet fun n => { n with hist := [(65, 9), (95, 3)] }, by decide⟩,
   ⟨1048576, up, by decide⟩⟩

/-- What the clauses of `LeashLinksComplete` assume can be met. -/
theorem witness_LeashLinksComplete :
    (∃ (link : Fin 2) (r : Nat) (s : State),
      (leashUp s link.val = false)) ∧
    (∃ (link : Fin 2) (s : State),
      (leashUp s link.val = true)) ∧
    (∃ (link : Fin 2) (s : State),
      (leashUp s link.val = true)) ∧
    (∃ (link : Fin 2) (x : Nat × LeashFrame) (s : State),
      (leashUp s link.val = true) ∧
      (x ∈ (s.red.links.at link.val).sent) ∧
      ((s.red.links.at link.val).resends < 16)) ∧
    (∃ (link : Fin 2) (s : State),
      (leashUp s link.val = true) ∧
      ((s.red.links.at link.val).sent ≠ []) ∧
      (16 ≤ (s.red.links.at link.val).resends)) ∧
    (∃ (link : Fin 2) (s : State),
      (leashUp s link.val = true)) ∧
    (∃ (h : LeashHdr) (gts : Option Nat) (s : State),
      (FrameTaken s h)) ∧
    (∃ (h : LeashHdr) (gts : Option Nat) (s : State),
      (leashUp s h.link.val = true) ∧
      (h.crcOk = false)) ∧
    (∃ (s : State),
      (recordsRun s = true)) ∧
    (∃ (us from_ : Nat) (s : State),
      (groupActive s = false) ∧
      (s.red.nextEpochUs = some (us, from_)) ∧
      (from_ ≤ s.now)) ∧
    (∃ (q : QueuedRec) (rest : List QueuedRec) (s : State),
      (s.red.backlog = q :: rest) ∧
      (s.cmd.ps ≠ 4)) :=
  ⟨⟨1, 2, up.setFld F.RED_MODE_MODE 1, by decide⟩,
   ⟨1, leash up 1 0 6, by decide⟩,
   ⟨0, leash up 1 1 3, by decide⟩,
   ⟨0, (3, .idle none), (leash up 1 0 6).onRed fun r => { r with links := [(0, ⟨3, 2, 1, 4, [(3, .idle none)]⟩)] }, by decide⟩,
   ⟨0, (leash up 1 0 6).onRed fun r => { r with links := [(0, ⟨3, 2, 1, 16, [(3, .idle none)]⟩)] }, by decide⟩,
   ⟨1, leash up 1 0 6, by decide⟩,
   ⟨hdr 1 0, some 77, leash up 1 1 4, by decide⟩,
   ⟨{ hdr 1 0 with crcOk := false }, some 77, leash up 1 1 4, by decide⟩,
   ⟨(leash up 1 0 6).setFld F.RED_STAT_HEEL 2, by decide⟩,
   ⟨4, 0, (leash up 1 1 4).onRed fun r => { r with nextEpochUs := some (4, 0) }, by decide⟩,
   ⟨⟨7, [(0x200000, 5, 6)]⟩, [], (conn up rts).onRed fun r => { r with backlog := [⟨7, [(0x200000, 5, 6)]⟩] }, by decide⟩⟩

/-- What the clauses of `ReplicaFramesComplete` assume can be met. -/
theorem witness_ReplicaFramesComplete :
    (∃ (h : LeashHdr) (rec_ : Option EpochRec) (s : State),
      (FrameTaken s h) ∧
      (redState s = 2)) ∧
    (∃ (h : LeashHdr) (r : EpochRec) (s : State),
      (FrameTaken s h) ∧
      (redState s = 4) ∧
      (r.commits = []) ∧
      (leashUp s (1 - h.link.val) = true)) ∧
    (∃ (h : LeashHdr) (ns : List Notice) (s : State),
      (FrameTaken s h) ∧
      (redState s = 4)) ∧
    (∃ (h : LeashHdr) (epoch : Nat) (votes : List Vote) (s : State),
      (FrameTaken s h) ∧
      (groupActive s = true) ∧
      (redMode s = 1) ∧
      (h.src < 3) ∧
      (∀ v ∈ votes, v.agree = true) ∧
      (s.fldI F.RED_PEER_STAT_STATE h.src = 3 ∨ bitAt (s.fld F.RED_STAT_HEEL) h.src = true)) ∧
    (∃ (h : LeashHdr) (epoch : Nat) (votes : List Vote) (v : Vote) (s : State),
      (FrameTaken s h) ∧
      (groupActive s = true) ∧
      (redMode s = 1) ∧
      (h.src < 3) ∧
      (v ∈ votes) ∧
      (v.agree = false)) ∧
    (∃ (r : Fin 3) (s : State),
      (groupActive s = true) ∧
      (bitAt (s.fld F.RED_STAT_HEEL) r.val = true) ∧
      (s.fldI F.RED_PEER_STAT_MISSES r.val = 0)) ∧
    (∃ (r : Fin 3) (s : State),
      (groupActive s = true) ∧
      (bitAt (s.fld F.RED_STAT_HEEL) r.val = true) ∧
      (s.fldI F.RED_PEER_STAT_MISSES r.val = 2)) ∧
    (∃ (h : LeashHdr) (s : State),
      (FrameTaken s h) ∧
      (redState s ≠ 8)) ∧
    (∃ (h : LeashHdr) (epoch : Nat) (s : State),
      (FrameTaken s h) ∧
      (redState s = 4) ∧
      (epoch = lastEpoch s) ∧
      (h.src < 3)) ∧
    (∃ (h : LeashHdr) (epoch : Nat) (s : State),
      (FrameTaken s h) ∧
      (redState s = 4) ∧
      (epoch ≠ lastEpoch s)) ∧
    (∃ (h : LeashHdr) (s : State),
      (FrameTaken s h) ∧
      (redState s ≠ 6) ∧
      (h.src < 3)) ∧
    (∃ (h : LeashHdr) (mode us c : Nat) (digest : Digest) (key : Bool) (s : State),
      (FrameTaken s h) ∧
      (groupActive s = true) ∧
      (joinTest s h.src mode us digest key = some c)) ∧
    (∃ (h : LeashHdr) (mode us : Nat) (digest : Digest) (key : Bool) (s : State),
      (FrameTaken s h) ∧
      (groupActive s = true) ∧
      (joinTest s h.src mode us digest key = none)) ∧
    (∃ (h : LeashHdr) (epoch : Nat) (s : State),
      (FrameTaken s h) ∧
      (redState s = 2) ∧
      (roleInMode s (role s) = true) ∧
      (pairKeyOf s ≠ none)) ∧
    (∃ (h : LeashHdr) (epoch c : Nat) (s : State),
      (FrameTaken s h) ∧
      (redState s = 3)) ∧
    (∃ (h : LeashHdr) (epoch percent : Nat) (objs : List BulkObj) (s : State),
      (FrameTaken s h) ∧
      (redState s = 3)) ∧
    (∃ (h : LeashHdr) (epoch percent i : Nat) (g : Geometry) (s : State),
      (FrameTaken s h) ∧
      (redState s = 3)) ∧
    (∃ (h : LeashHdr) (kind : Nat) (slot : Fin 48) (s : State),
      (FrameTaken s h)) ∧
    (∃ (s : State),
      (redState s = 2) ∧
      (roleInMode s (role s) = true) ∧
      (leashUp s 0 = true)) ∧
    (∃ (s : State),
      (redState s = 2) ∧
      (role s < 2) ∧
      (roleInMode s (role s) = true) ∧
      (s.fld F.RED_STAT_ACTIVE_VALID = 0)) ∧
    (∃ (p : Nat) (rest : List Nat) (s : State),
      (groupActive s = true) ∧
      (readyPorts s = p :: rest)) ∧
    (∃ (p : Nat) (rest : List Nat) (s : State),
      (groupActive s = true) ∧
      (readyPorts s = p :: rest)) :=
  ⟨⟨hdr 1 0, none, leash up 1 1 2, by decide⟩,
   ⟨hdr 1 0, { (default : EpochRec) with epoch := 9 }, leash up 1 1 4, by decide⟩,
   ⟨hdr 0 0, [{ (default : Notice) with kind := 3, cid := 6, sqid := 1, cntlid := 1 }], (leash up 1 1 4).onRed fun r => { r with pend := [⟨capOf 1 1, false, false⟩] }, by decide⟩,
   ⟨hdr 0 1, 8, [⟨1, 2, true⟩], (leash up 1 0 6).setFldI F.RED_PEER_STAT_STATE 1 3, by decide⟩,
   ⟨hdr 0 1, 8, [⟨1, 2, false⟩], ⟨1, 2, false⟩, (leash up 1 0 6).setFld F.RED_STAT_HEEL 2, by decide⟩,
   ⟨1, (leash up 2 0 6).setFld F.RED_STAT_HEEL 2, by decide⟩,
   ⟨1, ((leash up 2 0 6).setFld F.RED_STAT_HEEL 2).setFldI F.RED_PEER_STAT_MISSES 1 2, by decide⟩,
   ⟨hdr 0 0, leash up 1 1 4, by decide⟩,
   ⟨hdr 1 1, 0, leash up 2 2 4, by decide⟩,
   ⟨hdr 1 1, 5, leash up 2 2 4, by decide⟩,
   ⟨hdr 0 1, leash up 1 0 4, by decide⟩,
   ⟨hdr 0 1, 2, 0, 1, 0, true, leash up 1 0 6, by decide⟩,
   ⟨hdr 0 1, 1, (leash up 1 0 6).fld F.RED_MODE_EPOCH_US, 0, true, ((leash up 1 0 6).onCip fun c => { c with slots := [(0, { (default : KeySlot) with typ := 5, state := 1, tenant := 0, handle := 66, key := [1] })], entries := [(2, ⟨1, 1⟩)] }).setFld F.RED_PAIR_KEY_HANDLE 66, by decide⟩,
   ⟨hdr 0 0, 9, ((leash up 1 1 2).onCip fun c => { c with slots := [(0, { (default : KeySlot) with typ := 5, state := 1, tenant := 0, handle := 66, key := [1] })], entries := [(2, ⟨1, 1⟩)] }).setFld F.RED_PAIR_KEY_HANDLE 66, by decide⟩,
   ⟨hdr 0 0, 9, 1, leash up 1 1 3, by decide⟩,
   ⟨hdr 0 0, 9, 100, [.geom 1 ⟨8, 4, 4096⟩], leash up 1 1 3, by decide⟩,
   ⟨hdr 0 0, 9, 55, 1, ⟨8, 4, 4096⟩, leash up 1 1 3, by decide⟩,
   ⟨hdr 0 0, 1, 47, leash up 1 1 4, by decide⟩,
   ⟨leash up 1 1 2, by decide⟩,
   ⟨leash up 1 1 2, by decide⟩,
   ⟨3, [], leash (port up ready) 1 0 6, by decide⟩,
   ⟨3, [], leash (port up ready) 1 0 6, by decide⟩⟩

/-- What the clauses of `TakeoverCompletes` assume can be met. -/
theorem witness_TakeoverCompletes :
    (∃ (s : State),
      (redState s = 4) ∧
      (activeRole s < 3) ∧
      (s.fldI F.RED_PEER_STAT_MISSES (activeRole s) ≠ 2) ∧
      (s.fldI F.RED_PEER_STAT_MISSES (activeRole s) < 15)) ∧
    (∃ (s : State),
      (redState s = 3) ∧
      (activeRole s < 3) ∧
      (s.fldI F.RED_PEER_STAT_MISSES (activeRole s) = 2)) ∧
    (∃ (s : State),
      (redState s = 4) ∧
      (redMode s = 1) ∧
      (activeRole s < 3) ∧
      (s.fldI F.RED_PEER_STAT_MISSES (activeRole s) = 2) ∧
      (s.red.recordLink = 0) ∧
      (leashUp s 1 = true)) ∧
    (∃ (s : State),
      (redState s = 4) ∧
      (redMode s = 1) ∧
      (activeRole s < 3) ∧
      (s.fldI F.RED_PEER_STAT_MISSES (activeRole s) = 2) ∧
      (s.red.recordLink = 0) ∧
      (leashUp s 1 = false)) ∧
    (∃ (h : LeashHdr) (about : Nat) (s : State),
      (FrameTaken s h) ∧
      (about < 3) ∧
      (about ≠ role s ∨ groupActive s = true)) ∧
    (∃ (h : LeashHdr) (s : State),
      (FrameTaken s h) ∧
      (groupActive s = false)) ∧
    (∃ (h : LeashHdr) (s : State),
      (FrameTaken s h) ∧
      (redMode s = 1) ∧
      (groupActive s = true) ∧
      (s.red.recordLink ≠ h.link.val) ∧
      (leashUp s (1 - h.link.val) = true)) ∧
    (∃ (h : LeashHdr) (misses : Nat) (heel : Bool) (s : State),
      (FrameTaken s h) ∧
      (s.red.probing = .active) ∧
      (activeRole s < 3)) ∧
    (∃ (h : LeashHdr) (misses : Nat) (heel : Bool) (s : State),
      (FrameTaken s h) ∧
      (s.red.probing = .viaC) ∧
      (2 ≤ misses ∨ heel = false)) ∧
    (∃ (h : LeashHdr) (misses : Nat) (s : State),
      (FrameTaken s h) ∧
      (s.red.probing = .viaC) ∧
      (misses < 2) ∧
      (redState s = 4)) ∧
    (∃ (s : State),
      (s.red.probing ≠ .none) ∧
      (redState s = 4)) ∧
    (∃ (tail : List JRec) (ckpt : Option (Nat × Bool × Nat)) (store : List (Bytes × Bytes)) (driveNs : Nat) (s : State),
      (redState s = 5)) ∧
    (∃ (s : State),
      (bitAt s.cmd.boundStat 1 = true) ∧
      (redState s = 6)) :=
  ⟨⟨leash up 1 1 4, by decide⟩,
   ⟨(leash up 1 1 3).setFldI F.RED_PEER_STAT_MISSES 0 2, by decide⟩,
   ⟨(leash up 1 1 4).setFldI F.RED_PEER_STAT_MISSES 0 2, by decide⟩,
   ⟨((leash up 1 1 4).setFldI F.RED_PEER_STAT_MISSES 0 2).setFldI F.RED_LINK_STAT_UP 1 0, by decide⟩,
   ⟨hdr 1 1, 0, leash up 1 0 6, by decide⟩,
   ⟨hdr 1 1, leash up 1 0 4, by decide⟩,
   ⟨hdr 1 1, leash up 1 0 6, by decide⟩,
   ⟨hdr 1 0, 0, false, (leash up 1 1 4).onRed fun r => { r with probing := .active }, by decide⟩,
   ⟨hdr 1 2, 2, true, (leash up 2 1 4).onRed fun r => { r with probing := .viaC }, by decide⟩,
   ⟨hdr 1 2, 1, (leash up 2 1 4).onRed fun r => { r with probing := .viaC }, by decide⟩,
   ⟨(leash up 2 1 4).onRed fun r => { r with probing := .viaC }, by decide⟩,
   ⟨[], none, [], 0, leash up 1 1 5, by decide⟩,
   ⟨(leash up 1 1 6).onCmd fun c => { c with boundStat := 2 }, by decide⟩⟩

/-- What the clauses of `RoleOrdersComplete` assume can be met. -/
theorem witness_RoleOrdersComplete :
    (∃ (path : Fin 5) (session : Nat) (value : Word) (s : State),
      (MayWrite path session 0x0E000054 s) ∧
      (bitsOf value.toNat 31 28 = 1) ∧
      (s.fld F.RED_ORDER_STAT_BUSY = 0) ∧
      (roleInMode s (bitsOf value.toNat 1 0) = true ∧ bitsOf value.toNat 1 0 ≠ 2) ∧
      (groupActive s = true) ∧
      ((peersInHeel s).contains (bitsOf value.toNat 1 0) = true)) ∧
    (∃ (path : Fin 5) (session : Nat) (value : Word) (s : State),
      (MayWrite path session 0x0E000054 s) ∧
      (bitsOf value.toNat 31 28 = 1) ∧
      (s.fld F.RED_ORDER_STAT_BUSY = 0) ∧
      (roleInMode s (bitsOf value.toNat 1 0) = true ∧ bitsOf value.toNat 1 0 ≠ 2) ∧
      (groupActive s = false ∨ (peersInHeel s).contains (bitsOf value.toNat 1 0) = false)) ∧
    (∃ (path : Fin 5) (session : Nat) (value : Word) (s : State),
      (MayWrite path session 0x0E000054 s) ∧
      (bitsOf value.toNat 31 28 = 1) ∧
      (s.fld F.RED_ORDER_STAT_BUSY = 1)) ∧
    (∃ (path : Fin 5) (session : Nat) (value : Word) (s : State),
      (MayWrite path session 0x0E000054 s) ∧
      (bitsOf value.toNat 31 28 = 2) ∧
      (s.fld F.RED_ORDER_STAT_BUSY = 0) ∧
      (roleInMode s (bitsOf value.toNat 1 0) = true) ∧
      (ableWithout s (bitsOf value.toNat 1 0) = true) ∧
      (redState s ≠ 8)) ∧
    (∃ (path : Fin 5) (session : Nat) (value : Word) (s : State),
      (MayWrite path session 0x0E000054 s) ∧
      (bitsOf value.toNat 31 28 = 2) ∧
      (s.fld F.RED_ORDER_STAT_BUSY = 0) ∧
      (roleInMode s (bitsOf value.toNat 1 0) = true) ∧
      (ableWithout s (bitsOf value.toNat 1 0) = false)) ∧
    (∃ (path : Fin 5) (session : Nat) (value : Word) (s : State),
      (MayWrite path session 0x0E000054 s) ∧
      (bitsOf value.toNat 31 28 = 3) ∧
      (s.fld F.RED_ORDER_STAT_BUSY = 0) ∧
      (bitsOf value.toNat 1 0 = role s ∧ roleInMode s (role s) = true) ∧
      (redState s = 8)) ∧
    (∃ (path : Fin 5) (session : Nat) (value : Word) (s : State),
      (MayWrite path session 0x0E000054 s) ∧
      (bitsOf value.toNat 31 28 = 4) ∧
      (s.fld F.RED_ORDER_STAT_BUSY = 0) ∧
      (roleInMode s (bitsOf value.toNat 1 0) = true) ∧
      (ableWithout s (role s) = true) ∧
      (groupActive s = true)) ∧
    (∃ (r : Nat) (s : State),
      (s.red.order = some r) ∧
      (groupActive s = true) ∧
      ((entriesWhere s fun _ => true) = [])) ∧
    (∃ (r : Nat) (s : State),
      (s.red.order = some r)) :=
  ⟨⟨4, 0, 0x10000001, (leash upBone 1 0 6).setFld F.RED_STAT_HEEL 2, by decide⟩,
   ⟨4, 0, 0x10000001, leash upBone 1 0 6, by decide⟩,
   ⟨4, 0, 0x10000001, (leash upBone 1 0 6).setFld F.RED_ORDER_STAT_BUSY 1, by decide⟩,
   ⟨4, 0, 0x20000001, (leash upBone 1 0 6).setFld F.RED_STAT_HEEL 2, by decide⟩,
   ⟨4, 0, 0x20000000, leash upBone 1 0 6, by decide⟩,
   ⟨4, 0, 0x30000001, leash upBone 1 1 8, by decide⟩,
   ⟨4, 0, 0x40000000, (leash upBone 1 0 6).setFld F.RED_STAT_HEEL 2, by decide⟩,
   ⟨1, ((leash up 1 0 6).onRed fun r => { r with order := some 1 }).onCmd fun c => { c with queued := [capOf 1 1] }, by decide⟩,
   ⟨1, (leash up 1 0 6).onRed fun r => { r with order := some 1 }, by decide⟩⟩

/-- What the clauses of `SessionsComplete` assume can be met. -/
theorem witness_SessionsComplete :
    (∃ (port : Fin 2) (principal : Nat) (payload : Bytes) (sigOk : Bool) (s : State),
      (mgmtLanes s = true) ∧
      (principal = ofBe (payload.take 2)) ∧
      ((s.ctl.principals.at principal).valid = false)) ∧
    (∃ (port : Fin 2) (principal : Nat) (payload k : Bytes) (s : State),
      (mgmtLanes s = true) ∧
      (principal = ofBe (payload.take 2)) ∧
      ((s.ctl.principals.at principal).valid = true) ∧
      (bitAt (s.ctl.principals.at principal).ports port.val = true) ∧
      (principalKey s (s.ctl.principals.at principal) = some k) ∧
      (s.ctl.sessions.countWhere (fun _ x => x.port == port.val) < 4) ∧
      (s.fld F.TRU_STAT_ENTROPY_OK = 1) ∧
      (freeSlot s ≠ none) ∧
      (freeHandle s 0 3 ≠ none)) ∧
    (∃ (r : Req) (s : State),
      (Serves s r [0] false true)) ∧
    (∃ (r : Req) (lease : Nat) (s : State),
      (Serves s r [2] false true) ∧
      (s.ctl.bone.held = false)) ∧
    (∃ (r : Req) (lease : Nat) (s : State),
      (Serves s r [2] false true) ∧
      (s.ctl.bone.held = true)) ∧
    (∃ (r : Req) (s : State),
      (Serves s r [2] false true) ∧
      (holdsBone s (2 * r.port.val) r.session = true)) ∧
    (∃ (r : Req) (ring : Nat) (s : State),
      (Serves s r [1] false false) ∧
      (ring < 8) ∧
      ((s.ctl.rings.at ring).reader = 0)) ∧
    (∃ (r : Req) (ring : Nat) (s : State),
      (Serves s r [1] false false) ∧
      (ring < 8) ∧
      ((s.ctl.rings.at ring).reader ≠ 0)) ∧
    (∃ (r : Req) (ring seq : Nat) (s : State),
      (Serves s r [1] false false) ∧
      (ringBound s ring r.session = true)) ∧
    (∃ (r : Req) (ring : Nat) (s : State),
      (Serves s r [1] false false) ∧
      (ringBound s ring r.session = true)) ∧
    (∃ (ring : Fin 8) (seq : Nat) (m : RingMsg) (s : State),
      ((s.ctl.rings.at ring.val).unacked.find? (fun m => m.seq == seq) = some m) ∧
      ((s.ctl.rings.at ring.val).reader = 2) ∧
      (sessionOpen s (s.ctl.rings.at ring.val).session = true)) ∧
    (∃ (r : Req) (first count : Nat) (s : State),
      (Serves s r [0] false true) ∧
      (count ≤ 500) ∧
      (first < s.ctl.clog.length)) ∧
    (∃ (r : Req) (s : State),
      (Serves s r [] false true)) ∧
    (∃ (r : Req) (opcode : Nat) (s : State),
      (Serves s r [] false true)) ∧
    (∃ (session : Nat) (s : State),
      (sessionOpen s session = true)) ∧
    (∃ (port : Fin 2) (id : Nat) (s : State),
      (sessionOpen s id = true) ∧
      ((s.ctl.sessions.at id).port = port.val)) ∧
    (∃ (port : Fin 2) (target : Bytes) (s : State),
      (mgmtLanes s = true) ∧
      (target.length = 16) ∧
      (target = slice s.ctl.mgmtAddrs (12 + 16 * port.val) 16)) :=
  ⟨⟨1, 9, [0, 9], true, sessioned up, by decide⟩,
   ⟨1, 1, [0, 1], [7], (((sessioned up).setFld F.TRU_STAT_ENTROPY_OK 1).onCip fun c => { c with slots := [(0, { (default : KeySlot) with typ := 5, state := 1, tenant := 0, handle := 66, key := [7] })], entries := [(2, ⟨1, 1⟩)] }).onCtl fun c => { c with principals := [(1, { (default : Principal) with valid := true, rights := 15, ports := 3, wrapHandle := 66 })] }, by decide⟩,
   ⟨req, sessioned up, by decide⟩,
   ⟨req, 60, (sessioned up).onCtl fun c => { c with bone := default }, by decide⟩,
   ⟨req, 60, sessioned up, by decide⟩,
   ⟨req, sessioned up, by decide⟩,
   ⟨req, 7, sessioned up, by decide⟩,
   ⟨req, 2, bound up, by decide⟩,
   ⟨req, 2, 1, bound up, by decide⟩,
   ⟨req, 2, bound up, by decide⟩,
   ⟨2, 9, ⟨1, 2, 9⟩, bound up, by decide⟩,
   ⟨req, 0, 500, (sessioned up).onCtl fun c => { c with clog := [default] }, by decide⟩,
   ⟨req, sessioned up, by decide⟩,
   ⟨req, 0x77, sessioned up, by decide⟩,
   ⟨5, sessioned up, by decide⟩,
   ⟨0, 5, sessioned up, by decide⟩,
   ⟨1, List.replicate 16 3, up.onCtl fun c => { c with mgmtAddrs := List.replicate 28 0 ++ List.replicate 16 3 }, by decide⟩⟩

/-- What the clauses of `ManagementOpcodesComplete` assume can be met. -/
theorem witness_ManagementOpcodesComplete :
    (∃ (r : Req) (addr count : Nat) (s : State),
      (Serves s r [0] false true) ∧
      (1 ≤ count ∧ count ≤ 256)) ∧
    (∃ (r : Req) (addr : Nat) (value : Word) (row : RegRow × Nat) (s : State),
      (Serves s r [1] false false) ∧
      (findReg addr = some row) ∧
      (mapped addr = true) ∧
      (0x01000000 ≤ addr ∧ 0x20 ≤ addr % 0x1000000) ∧
      (addr ∉ [0x0400007C, 0x04000080]) ∧
      (addr ∉ [0x03000054, 0x04000044, 0x04000060, 0x04000074, 0x0D00005C]) ∧
      (∀ m ∈ s.ctl.marks, m.gts = s.now → m.addr ≠ addr) ∧
      (protectedAddr addr = false) ∧
      (writeOwnArray (reqPath r) r.session addr value s = none) ∧
      (writeOwnLow (reqPath r) r.session addr value s = none) ∧
      (writeOwnMid (reqPath r) r.session addr value s = none) ∧
      (writeOwnHigh (reqPath r) r.session addr value s = none) ∧
      (s.locked = false)) ∧
    (∃ (r : Req) (blob : Bytes) (s : State),
      (Serves s r [] true false) ∧
      (blob.length ≤ 256)) ∧
    (∃ (r : Req) (s : State),
      (Serves s r [] true false) ∧
      (s.cip.mailbox ≠ []) ∧
      (s.cip.mailboxSession = r.session)) ∧
    (∃ (r : Req) (count : Nat) (s : State),
      (Serves s r [3] false false)) ∧
    (∃ (r : Req) (name : LeafName) (b : Batch) (i : Nat) (l : Leaf) (s : State),
      (Serves s r [0] false false) ∧
      (leafFor s name = .ok (b, i, l))) ∧
    (∃ (r : Req) (name : LeafName) (e : Nat) (s : State),
      (Serves s r [0] false false) ∧
      (leafFor s name = .error e)) ∧
    (∃ (r : Req) (name : LeafName) (b : Batch) (i : Nat) (l : Leaf) (s : State),
      (Serves s r [3] false false) ∧
      (leafFor s name = .ok (b, i, l))) ∧
    (∃ (r : Req) (rotation : Nat) (s : State),
      (Serves s r [0] false true)) ∧
    (∃ (r : Req) (rotation : Nat) (s : State),
      (Serves s r [0] false true) ∧
      (s.tru.sessionKeyMade = true)) ∧
    (∃ (r : Req) (nonce : Bytes) (s : State),
      (Serves s r [0] false true) ∧
      (nonce.length = 32) ∧
      (s.tru.sessionKeyMade = true)) ∧
    (∃ (r : Req) (items : MigItems) (j : Nat) (s : State),
      (Serves s r [3] true false) ∧
      (isActive s = true) ∧
      (items.regions ≠ [] ∧ items.regions.length ≤ 16) ∧
      (s.cmd.namespaces.any (fun n => n.1 == items.nsid) = true) ∧
      (migKey s items.page items.handle = true) ∧
      (freeJob s = some j)) ∧
    (∃ (r : Req) (slot : Nat) (s : State),
      (Serves s r [3] false false) ∧
      (slot < 16) ∧
      ((jobOf s slot).state ≠ 0)) ∧
    (∃ (r : Req) (pages : Nat) (s : State),
      (Serves s r [1] false false) ∧
      (16 * pages + s.fld F.SWC_C0_FLOOR_COUNT ≤ freeCells s) ∧
      ((allocPages pages s).isSome = true)) ∧
    (∃ (r : Req) (handles : List Nat) (s : State),
      (Serves s r [1] false false) ∧
      (∀ h ∈ handles, s.net.peerChains.at h ≠ [])) :=
  ⟨⟨req, 0x40, 3, sessioned up, by decide⟩,
   ⟨req, 0x05000040, 0x12345678, ((findReg 0x05000040).getD default), sessioned up, by decide⟩,
   ⟨req, [1, 2], sessioned up, by decide⟩,
   ⟨req, (sessioned up).onCip fun c => { c with mailbox := [3], mailboxSession := 5 }, by decide⟩,
   ⟨req, 1, (sessioned up).onCip fun c => { c with escrow := [[3], [4]] }, by decide⟩,
   ⟨req, .index 1 0, (sealedFor up).fix.sealed.headD default, 0, (sealedFor up).fix.sealed.headD default |>.leaves.headD default, sealedFor (sessioned up), by refine ⟨by decide, ?_⟩; rfl⟩,
   ⟨req, .index 1 7, 0x0B, sealedFor (sessioned up), by refine ⟨by decide, ?_⟩; rfl⟩,
   ⟨req, .index 1 0, (sealedFor up).fix.sealed.headD default, 0, (sealedFor up).fix.sealed.headD default |>.leaves.headD default, sealedFor (sessioned up), by refine ⟨by decide, ?_⟩; rfl⟩,
   ⟨req, 0, sessioned up, by decide⟩,
   ⟨req, 0, let u := sessioned up; { u with tru := { u.tru with sessionKeyMade := true } }, by decide⟩,
   ⟨req, List.replicate 32 1, let u := sessioned up; { u with tru := { u.tru with sessionKeyMade := true } }, by decide⟩,
   ⟨req, ⟨false, 4, 1, 2, 0x200000, 3, 66, [⟨5, 6, 0x40000, 0x10000⟩]⟩, 0, custodial up, by decide⟩,
   ⟨req, 2, mig (sessioned up) (job 3 true), by decide⟩,
   ⟨req, 1, sessioned up, by decide⟩,
   ⟨req, [17], (sessioned up).onNet fun n => { n with peerChains := [(17, [17])] , cells := [(1, { (default : Cell) with owner := 9, gen := 1, refs := 1 })] }, by decide⟩⟩

/-- What the clauses of `StoresAndSidePathsComplete` assume can be met. -/
theorem witness_StoresAndSidePathsComplete :
    (∃ (r : Req) (kind slot length : Nat) (s : State),
      (Serves s r [] true true) ∧
      (kind = 1 ∧ slot < 8 ∨ kind = 2 ∧ slot < 2) ∧
      (0 < length) ∧
      (slotRuns s kind slot = false) ∧
      ((s.ctl.stores.any fun j => j.kind == kind && j.slot == slot && !j.by_ (2 * r.port.val) r.session) = false) ∧
      ((if kind = 1 then units64 length else length) ≤ freeSpace s kind slot (2 * r.port.val) r.session)) ∧
    (∃ (r : Req) (offset : Nat) (data : Bytes) (j : StoreJob) (s : State),
      (Serves s r [] true true) ∧
      (s.ctl.stores.find? (fun j => j.by_ (2 * r.port.val) r.session) = some j) ∧
      (data.length ≤ 8000 ∧ offset + data.length ≤ j.length)) ∧
    (∃ (r : Req) (j : StoreJob) (s : State),
      (Serves s r [] true true) ∧
      (s.ctl.stores.find? (fun j => j.by_ (2 * r.port.val) r.session) = some j) ∧
      (j.kind = 1) ∧
      (slotRuns s 1 j.slot = false)) ∧
    (∃ (r : Req) (slot : Nat) (b : Bytes) (s : State),
      (Serves s r [] true false) ∧
      (s.cmd.act.step = 0) ∧
      (slotContent s 2 slot = some b)) ∧
    (∃ (r : Req) (kind slot : Nat) (s : State),
      (Serves s r [] true false) ∧
      (s.cmd.act.step ≠ 0)) ∧
    (∃ (r : Req) (slot : Nat) (s : State),
      (Serves s r [] true true) ∧
      (slot < 8) ∧
      (s.ctl.running ≠ some slot) ∧
      ((s.ctl.profiles.at slot).valid = true)) ∧
    (∃ (r : Req) (s : State),
      (Serves s r [0] false true)) ∧
    (∃ (port : Fin 2) (addr count : Nat) (s : State),
      (i3cLive s = true) ∧
      (1 ≤ count ∧ count ≤ 16)) ∧
    (∃ (port : Fin 2) (addr : Nat) (value : Word) (row : RegRow × Nat) (s : State),
      (i3cLive s = true) ∧
      (s.boot.recovery ≠ 2) ∧
      (MayWrite (i3cPath port) 0 addr s) ∧
      (findReg addr = some row) ∧
      (mapped addr = true) ∧
      (0x01000000 ≤ addr ∧ 0x20 ≤ addr % 0x1000000) ∧
      (addr ∉ [0x0400007C, 0x04000080]) ∧
      (addr ∉ [0x03000054, 0x04000044, 0x04000060, 0x04000074, 0x0D00005C]) ∧
      (∀ m ∈ s.ctl.marks, m.gts = s.now → m.addr ≠ addr) ∧
      (writeOwnArray (i3cPath port) 0 addr value s = none) ∧
      (writeOwnLow (i3cPath port) 0 addr value s = none) ∧
      (writeOwnMid (i3cPath port) 0 addr value s = none) ∧
      (writeOwnHigh (i3cPath port) 0 addr value s = none) ∧
      (s.locked = false)) ∧
    (∃ (port : Fin 2) (s : State),
      (i3cLive s = true)) ∧
    (∃ (port : Fin 2) (principal : Nat) (key : Bytes) (s : State),
      (i3cLive s = true) ∧
      (s.boot.recovery ≠ 2) ∧
      (s.fld F.CTL_CFG_COMMISSION ≠ 0) ∧
      (keysWhere s (fun k => k.typ == 5 && k.tenant == 0) = []) ∧
      ((s.ctl.principals.at principal).valid = true) ∧
      (key.length = 32) ∧
      (freeSlot s ≠ none) ∧
      (freeHandle s 0 5 ≠ none)) ∧
    (∃ (port : Fin 2) (kind slot length : Nat) (s : State),
      (s.boot.recovery ≠ 0) ∧
      (kind = 1 ∧ slot < 8 ∨ kind = 2 ∧ slot < 2) ∧
      (0 < length) ∧
      (slotRuns s kind slot = false) ∧
      ((s.ctl.stores.any fun j => j.kind == kind && j.slot == slot && !j.by_ (i3cPath port).val 0) = false) ∧
      ((if kind = 1 then units64 length else length) ≤ freeSpace s kind slot (i3cPath port).val 0)) ∧
    (∃ (port : Fin 2) (offset : Nat) (words : List Word) (j : StoreJob) (s : State),
      (s.boot.recovery ≠ 0) ∧
      (1 ≤ words.length ∧ words.length ≤ 64) ∧
      (s.ctl.stores.find? (fun j => j.by_ (i3cPath port).val 0) = some j) ∧
      (offset + 4 * words.length ≤ j.length)) ∧
    (∃ (port : Fin 2) (j : StoreJob) (s : State),
      (s.boot.recovery ≠ 0) ∧
      (s.ctl.stores.find? (fun j => j.by_ (i3cPath port).val 0) = some j) ∧
      (j.kind = 2) ∧
      (slotRuns s 2 j.slot = false)) :=
  ⟨⟨req, 1, 7, 8, sessioned up, by decide⟩,
   ⟨req, 6, [9, 8], ⟨0, 5, 1, 2, 8, [0, 0, 0, 0, 0, 0, 0, 0]⟩, storing (sessioned up) 0 5, by decide⟩,
   ⟨req, ⟨0, 5, 1, 2, 8, [0, 0, 0, 0, 0, 0, 0, 0]⟩, storing (sessioned up) 0 5, by decide⟩,
   ⟨req, 1, [1], (sessioned up).onCtl fun c => { c with firmware := [(1, ⟨true, [1], 0, 0⟩)] }, by decide⟩,
   ⟨req, 1, 1, (sessioned up).onCmd fun c => { c with act := { c.act with step := 4 } }, by decide⟩,
   ⟨req, 7, (sessioned up).onCtl fun c => { c with profiles := [(7, ⟨true, [1], 0, 0⟩)] }, by decide⟩,
   ⟨req, (sessioned up).onCtl fun c => { c with profiles := [(7, ⟨true, [1], 0, 0⟩)] }, by decide⟩,
   ⟨1, 0x40, 16, up, by decide⟩,
   ⟨1, 0x05000040, 0x12345678, ((findReg 0x05000040).getD default), up.setFld F.CTL_CFG_I3C_WRITE 1, by decide⟩,
   ⟨0, up.setFldI F.CTL_PATH_STAT_LOCKED 1 1, by decide⟩,
   ⟨1, 1, List.replicate 32 5, (sessioned up).setFld F.CTL_CFG_COMMISSION 1, by decide⟩,
   ⟨1, 1, 7, 3, recovering up, by decide⟩,
   ⟨0, 4, [0x01020304], ⟨1, 0, 1, 2, 8, [0, 0, 0, 0, 0, 0, 0, 0]⟩, storing (recovering up) 1 0, by decide⟩,
   ⟨0, ⟨1, 0, 2, 1, 8, [0, 0, 0, 0, 0, 0, 0, 0]⟩, (recovering up).onCtl fun c => { c with stores := [⟨1, 0, 2, 1, 8, [0, 0, 0, 0, 0, 0, 0, 0]⟩], running := none }, by decide⟩⟩

/-- What the clauses of `ResetsComplete` assume can be met. -/
theorem witness_ResetsComplete :
    (∃ (pgood : Fin 16) (s : State),
      (s.boot.sysRstHigh = true) ∧
      (pgood.val % 2 = 1 ∧ pgood.val ≠ 15) ∧
      (s.boot.thermTrip = false)) ∧
    (∃ (pgood : Fin 16) (s : State),
      (s.boot.sysRstHigh = true) ∧
      (pgood.val % 2 = 0)) ∧
    (∃ (s : State),
      (s.boot.thermTrip = false) ∧
      (s.boot.inReset ≠ .cold ∨ s.boot.cause ≠ 3)) ∧
    (∃ (r : EventRec) (s : State),
      (s.boot.thermTrip = false) ∧
      (s.boot.inReset = .cold ∧ s.boot.cause = 3 ∧ s.now ≤ 20000) ∧
      (s.ctl.clog.getLast? = some r) ∧
      (r.event = 0x016)) ∧
    (∃ (s : State),
      (s.boot.inReset ≠ .cold) ∧
      (belowFloor s = false) ∧
      (s.ctl.blocks.wf = true)) ∧
    (∃ (s : State),
      (s.boot.inReset ≠ .cold) ∧
      (belowFloor s = true) ∧
      (s.ctl.blocks.wf = true)) ∧
    (∃ (s : State),
      (s.boot.inReset = .cold)) ∧
    (∃ (s : State),
      (s.boot.inReset ≠ .cold) ∧
      (s.boot.watchdogOn = true)) ∧
    (∃ (b : Nat) (s : State),
      (s.boot.inReset ≠ .cold) ∧
      (s.boot.watchdogOn = true) ∧
      (s.ctl.blocks.wf = true)) ∧
    (∃ (s : State),
      (s.boot.inReset ≠ .cold) ∧
      (s.boot.restartDue = true ∧ s.boot.recovery = 3)) ∧
    (∃ (port : Fin 2) (s : State),
      (s.boot.inReset ≠ .cold) ∧
      (s.boot.recovery ≠ 0)) :=
  ⟨⟨13, up, by decide⟩,
   ⟨14, up, by decide⟩,
   ⟨up, by decide⟩,
   ⟨⟨5, 0x007, 4, 0x016, 13⟩, ((held .cold).onBoot fun b => { b with cause := 3 }).onCtl fun c => { c with clog := [⟨5, 0x007, 4, 0x016, 13⟩] }, by decide⟩,
   ⟨sessioned up, by decide⟩,
   ⟨up.onCtl fun c => { c with blocks := [(7, { (default : BlockState) with fenced := 2 ^ 16 - 1 })] }, by decide⟩,
   ⟨held .cold, by decide⟩,
   ⟨up.onBoot fun b => { b with watchdogOn := true }, by decide⟩,
   ⟨7, (up.onBoot fun b => { b with watchdogOn := true }).onCtl fun c => { c with blocks := [(7, { (default : BlockState) with fenced := 5, unmapped := 3 })] }, by decide⟩,
   ⟨(recovering up).onBoot fun b => { b with restartDue := true }, by decide⟩,
   ⟨1, recovering up, by decide⟩⟩

/-- What the clauses of `BootCompletes` assume can be met. -/
theorem witness_BootCompletes :
    (∃ (profileSel : Fin 8) (roleSel bootMode : Fin 4) (low : Bool) (s : State),
      (mayBoot s = true) ∧
      (s.boot.inReset = .cold)) ∧
    (∃ (profileSel : Fin 8) (roleSel bootMode : Fin 4) (low : Bool) (s : State),
      (mayBoot s = true) ∧
      (s.boot.inReset = .warm)) ∧
    (∃ (failing : List (Nat × Nat)) (entropy : Option (Fin 2)) (copies : List (Nat × Bytes × Bytes)) (s : State),
      (s.boot.inReset = .none ∧ s.boot.step = 1) ∧
      (s.boot.preferredFw ≤ 1) ∧
      ((s.ctl.firmware.at 0).valid = false ∧ (s.ctl.firmware.at 1).valid = false)) ∧
    (∃ (failing : List (Nat × Nat)) (entropy : Option (Fin 2)) (copies : List (Nat × Bytes × Bytes)) (s : State),
      (s.boot.inReset = .none ∧ s.boot.step = 1) ∧
      ((s.ctl.firmware.at s.boot.preferredFw).valid = true)) ∧
    (∃ (s : State),
      (s.boot.step = 8) ∧
      ([1, 4, 6].contains (redState s) = true) ∧
      ((List.range 48).all (portSettled s) = true)) ∧
    (∃ (clock : Fin 7) (s : State),
      (clock.val ≠ 6) ∧
      (s.boot.clocksLost.contains clock.val = false)) ∧
    (∃ (clock : Fin 7) (s : State),
      (clock.val = 6) ∧
      (s.boot.clocksLost.contains 6 = false) ∧
      (s.boot.inReset ≠ .cold)) ∧
    (∃ (clock : Fin 7) (s : State),
      (s.boot.clocksLost.contains clock.val = true)) :=
  ⟨⟨7, 2, 0, true, State.reset, by decide⟩,
   ⟨7, 2, 0, true, held .warm, by decide⟩,
   ⟨[(7, 15)], none, [], held .none, by decide⟩,
   ⟨[], none, [], (held .none).onCtl fun c => { c with firmware := [(0, ⟨true, [1], 0, 0⟩)] }, by decide⟩,
   ⟨(up.onBoot fun b => { b with step := 8 }).setFld F.RED_STAT_STATE 1, by decide⟩,
   ⟨0, linked up, by decide⟩,
   ⟨6, up, by decide⟩,
   ⟨4, (port up ready).onBoot fun b => { b with clocksLost := [4, 6] }, by decide⟩⟩

/-- What the clauses of `SlotPowerCompletes` assume can be met. -/
theorem witness_SlotPowerCompletes :
    (∃ (leg : Fin 48) (s : State),
      (legState s leg.val = 1 ∨ legState s leg.val = 2)) ∧
    (∃ (leg : Fin 48) (s : State),
      (legState s leg.val = 1 ∨ legState s leg.val = 2)) ∧
    (∃ (leg : Fin 48) (s : State),
      (legState s leg.val = 1 ∨ legState s leg.val = 2)) ∧
    (∃ (leg : Fin 48) (s : State),
      (legState s leg.val = 1)) ∧
    (∃ (leg : Fin 48) (s : State),
      (legState s leg.val = 1)) ∧
    (∃ (leg : Fin 48) (s : State),
      (legState s leg.val = 2)) ∧
    (∃ (leg : Fin 48) (s : State),
      (legState s leg.val = 0)) ∧
    (∃ (leg : Fin 48) (s : State),
      (legState s leg.val = 2) ∧
      (legPg s leg.val = false)) ∧
    (∃ (leg : Fin 48) (s : State),
      (legPg s leg.val = true)) ∧
    (∃ (leg : Fin 48) (s : State),
      (legState s leg.val = 0) ∧
      (s.fldI F.PWR_LEG_STAT_PENDING leg.val = 1) ∧
      (feedOn s (legFeed s leg.val) = true)) ∧
    (∃ (leg : Fin 48) (s : State),
      (legState s leg.val = 3) ∧
      (noRetry s leg.val (s.fldI F.PWR_LEG_STAT_CAUSE leg.val) = false) ∧
      (feedOn s (legFeed s leg.val) = true) ∧
      (s.fldI F.PWR_LEG_STAT_TJ_C leg.val ≤ s.fldI F.PWR_MODEL3_COOL_C (s.fldI F.PWR_LEG_CFG_MODEL leg.val))) ∧
    (∃ (leg : Fin 48) (s : State),
      (legPg s leg.val = true)) ∧
    (∃ (path : Fin 5) (session : Nat) (value : Word) (s : State),
      (MayWrite path session 0x0C000044 s) ∧
      (bitsOf value.toNat 31 24 = 0x3C ∧ bitsOf value.toNat 23 20 = 1 ∧ bitsOf value.toNat 5 0 < 48) ∧
      (legState s (bitsOf value.toNat 5 0) = 0) ∧
      ((s.drv.slots.at (bitsOf value.toNat 5 0)).seated = true) ∧
      (legsReleased s = true) ∧
      (discharged s (bitsOf value.toNat 5 0) = true)) ∧
    (∃ (path : Fin 5) (session : Nat) (value : Word) (s : State),
      (MayWrite path session 0x0C000044 s) ∧
      (bitsOf value.toNat 31 24 = 0x3C ∧ bitsOf value.toNat 23 20 = 1 ∧ bitsOf value.toNat 5 0 < 48) ∧
      (legState s (bitsOf value.toNat 5 0) = 4)) ∧
    (∃ (path : Fin 5) (session : Nat) (value : Word) (s : State),
      (MayWrite path session 0x0C000044 s) ∧
      (bitsOf value.toNat 31 24 = 0x3C ∧ bitsOf value.toNat 23 20 = 2 ∧ bitsOf value.toNat 5 0 < 48) ∧
      (legState s (bitsOf value.toNat 5 0) = 1 ∨ legState s (bitsOf value.toNat 5 0) = 2)) :=
  ⟨⟨3, legIn up 2, by decide⟩,
   ⟨3, legIn up 1, by decide⟩,
   ⟨3, ((legIn up 2).setFldI F.PWR_LEG_CFG_RETRY_EN 3 1).setFldI F.PWR_LEG_CFG_RETRY_MAX 3 2, by decide⟩,
   ⟨3, legIn up 1, by decide⟩,
   ⟨3, legIn up 1, by decide⟩,
   ⟨3, legIn up 2, by decide⟩,
   ⟨3, legIn up 0, by decide⟩,
   ⟨3, legIn up 2, by decide⟩,
   ⟨3, (legIn up 2).setFldI F.PWR_LEG_STAT_PG 3 1, by decide⟩,
   ⟨3, (legIn up 0).setFldI F.PWR_LEG_STAT_PENDING 3 1, by decide⟩,
   ⟨3, (((legIn up 3).setFldI F.PWR_LEG_CFG_RETRY_EN 3 1).setFldI F.PWR_LEG_CFG_RETRY_MAX 3 2).setFldI F.PWR_LEG_STAT_CAUSE 3 1, by decide⟩,
   ⟨3, ((legIn up 2).setFldI F.PWR_LEG_STAT_PG 3 1).setFldI F.PWR_LEG_STAT_RETRIES 3 2, by decide⟩,
   ⟨4, 0, 0x3C100003, (legIn upBone 0).onDrv fun d => { d with slots := [(3, { (default : DrvSlot) with seated := true })] }, by decide⟩,
   ⟨4, 0, 0x3C100003, legIn upBone 4, by decide⟩,
   ⟨4, 0, 0x3C200003, legIn upBone 2, by decide⟩⟩

/-- What the clauses of `FeedsAndFansComplete` assume can be met. -/
theorem witness_FeedsAndFansComplete :
    (∃ (feed : Fin 4) (cause : Fin 5) (mv : Nat) (s : State),
      (feedOn s feed.val = true) ∧
      (s.fldI F.PWR_FEED_STAT_FET_ON feed.val = 1)) ∧
    (∃ (feed : Fin 4) (s : State),
      (feedOn s feed.val = true) ∧
      ((s.pwr.feeds.at feed.val).faulted = true)) ∧
    (∃ (readings : List (Option Int)) (i : Fin 32) (x : Int) (s : State),
      (s.fldI F.PWR_SENS_CFG_EN i.val = 1) ∧
      (readings[i.val]? = some (some x))) ∧
    (∃ (readings : List (Option Int)) (i : Fin 32) (s : State),
      (s.fldI F.PWR_SENS_CFG_EN i.val = 1) ∧
      (readings[i.val]? = some none) ∧
      (s.pwr.sensFails.at i.val = 2)) ∧
    (∃ (channel : Fin 12) (rpm : Nat) (s : State),
      (s.fldI F.PWR_FAN_CFG_EN channel.val = 1) ∧
      (51 ≤ s.fldI F.PWR_FAN_STAT_DUTY channel.val) ∧
      (s.fldI F.PWR_FAN_STAT_FAIL channel.val = 0)) ∧
    (∃ (x : LegSample) (s : State),
      (feedOn s (legFeed s x.leg.val) = true)) ∧
    (∃ (x : FeedSample) (s : State),
      (feedOn s x.feed.val = true)) :=
  ⟨⟨1, 4, 70000, (legIn up 0).setFldI F.PWR_FEED_STAT_FET_ON 1 1, by decide⟩,
   ⟨1, (legIn up 0).onPwr fun p => { p with feeds := [(1, ⟨5, true⟩)] }, by decide⟩,
   ⟨List.replicate 31 none ++ [some (-16)], 31, -16, up.setFldI F.PWR_SENS_CFG_EN 31 1, by decide⟩,
   ⟨[none], 0, (up.setFldI F.PWR_SENS_CFG_EN 0 1).onPwr fun p => { p with sensFails := [(0, 2)] }, by decide⟩,
   ⟨11, 3, (up.setFldI F.PWR_FAN_CFG_EN 11 1).setFldI F.PWR_FAN_STAT_DUTY 11 51, by decide⟩,
   ⟨⟨3, some (12000, 17000), 50000⟩, legIn up 2, by decide⟩,
   ⟨⟨1, 12000, 7000, 40⟩, legIn up 2, by decide⟩⟩

end Sys2Proof.Tests
end

section
/-! PROOFS. Registers lie on 4-byte boundaries with their fields inside 32 bits, and BAR0 takes no access of another
shape (R8). -/

namespace Sys2Proof.Machine

/-- A row of a register table that meets R8: its elements stand on 4-byte boundaries and its fields inside 32 bits. -/
abbrev RegRow.Aligned (r : RegRow) : Prop :=
  r.base % 4 = 0 ∧ r.stride % 4 = 0 ∧ ∀ f ∈ r.fields, f.lo ≤ f.hi ∧ f.hi < 32

/-- The register tables of the sixteen blocks (R40), row by row. -/
theorem blockRows_aligned : ∀ b < 16, ∀ r ∈ rowsOf b, r.Aligned := by decide

theorem rowsOf_of_ge {b : Nat} (h : 16 ≤ b) : rowsOf b = [] := by
  obtain ⟨k, rfl⟩ := Nat.exists_eq_add_of_le' h
  rfl

theorem rowsOf_aligned {b : Nat} {r : RegRow} (h : r ∈ rowsOf b) : r.Aligned := by
  obtain hb | hb := Nat.lt_or_ge b 16
  · exact blockRows_aligned b hb r h
  · simp [rowsOf_of_ge hb] at h

/-- What a register found is: a row of its block's table, and an element of it that stands at the address (R41). -/
theorem findReg_spec {addr i : Nat} {r : RegRow} (h : findReg addr = some (r, i)) :
    r ∈ rowsOf (addr / 0x1000000) ∧ r.base ≤ addr ∧ (addr - r.base) % r.stride = 0 ∧
      i = (addr - r.base) / r.stride ∧ i < r.count := by
  simp only [findReg, Option.map_eq_some_iff, Prod.mk.injEq] at h
  obtain ⟨r', hfind, rfl, rfl⟩ := h
  have hat := List.find?_some hfind
  simp only [Bool.and_eq_true, decide_eq_true_eq, beq_iff_eq] at hat
  obtain ⟨⟨hle, hstride⟩, hcount⟩ := hat
  exact ⟨List.mem_of_find?_eq_some hfind, hle, hstride, rfl, hcount⟩

/-- A register of the map stands on a 4-byte boundary: its row begins on one, and so does each of the row's elements. -/
theorem findReg_addr_mod {addr i : Nat} {r : RegRow} (h : findReg addr = some (r, i)) : addr % 4 = 0 := by
  obtain ⟨hrow, hle, hstride, -, -⟩ := findReg_spec h
  obtain ⟨hbase, hstep, -⟩ := rowsOf_aligned hrow
  have hoff : 4 ∣ addr - r.base := (Nat.dvd_of_mod_eq_zero hstep).trans (Nat.dvd_of_mod_eq_zero hstride)
  omega

/-- Settles O10: the registers row by row of the tables, and the command of a refused BAR0 access is one completion sent. -/
theorem registersAreAlignedAndBar0IsStrict : Obligations.RegistersAreAlignedAndBar0IsStrict := by
  refine ⟨fun addr ⟨r, i⟩ hfind => ⟨findReg_addr_mod hfind, ?_⟩, fun addr s => ⟨_, rfl, rfl⟩⟩
  obtain ⟨-, -, hfields⟩ := rowsOf_aligned (findReg_spec hfind).1
  exact hfields

end Sys2Proof.Machine
end

section
/-! PROOFS. Reads of the 64-bit pairs through a path's snapshot (R15). Which registers are pairs is the model's choice
(notes/assumptions/87.md). -/

namespace Sys2Proof.Machine

variable {s : State} {path addr l : Nat}

/-- The low word of a pair and its high word are two registers side by side. -/
theorem pairOf_eq (halign : addr % 4 = 0) (h : pairOf addr = some l) : addr = l ∨ addr = l + 4 := by
  unfold pairOf at h
  split at h
  next l' hfind =>
    obtain rfl : l' = l := Option.some.inj h
    simpa using List.find?_some hfind
  next =>
    split at h
    · obtain rfl : addr / 8 * 8 = l := Option.some.inj h
      omega
    · cases h

theorem mapped_addr_mod (h : mapped addr = true) : addr % 4 = 0 := by
  simp only [mapped, Bool.and_eq_true, beq_iff_eq] at h
  obtain ⟨⟨-, hmod⟩, -⟩ := h
  exact hmod

/-- No pair lies among the words of CTL_RING_READ or of TEL_SAMPLE_READ: those are read as records (R399, R445). -/
theorem pairOf_not_record (h : pairOf addr = some l) :
    (addr < 0x280 ∨ 0x01000000 ≤ addr) ∧ (addr < 0x0F000100 ∨ 0x0F000140 ≤ addr) := by
  unfold pairOf at h
  split at h
  next l' hfind =>
    have hmem := List.mem_of_find?_eq_some hfind
    have hat := List.find?_some hfind
    simp only [pairLows, List.mem_cons, List.not_mem_nil, or_false] at hmem
    simp only [Bool.or_eq_true, beq_iff_eq] at hat
    omega
  next =>
    split at h
    · omega
    · cases h

/-- An address outside an array's span is none of its elements'. -/
theorem elem_eq_none {base count stride : Nat} (hpos : 0 < stride) (h : addr < base ∨ base + count * stride ≤ addr) :
    elem base count stride addr = none := by
  refine if_neg fun ⟨hle, _, hlt⟩ => ?_
  have := (Nat.div_lt_iff_lt_mul hpos).1 hlt
  omega

/-- A read of a pair's word takes no record's snapshot. -/
theorem beforeRead_of_pairOf (h : pairOf addr = some l) (s : State) : beforeRead addr s = s := by
  obtain ⟨hring, hsample⟩ := pairOf_not_record h
  have hnone : elem 0x280 8 16 addr = none := elem_eq_none (by decide) (by omega)
  simp only [beforeRead, hnone]
  exact if_neg (by omega)

/-- A read of a pair's word removes no record. -/
theorem afterRead_of_pairOf (h : pairOf addr = some l) (s : State) : afterRead addr s = s := by
  obtain ⟨hring, hsample⟩ := pairOf_not_record h
  have hnone : elem 0x28C 8 16 addr = none := elem_eq_none (by decide) (by omega)
  simp only [afterRead, hnone]
  exact if_neg (by omega)

/-- What a read clears leaves the paths' pair registers. -/
theorem clearRead_paths (addr : Nat) (s : State) : (clearRead addr s).ctl.paths = s.ctl.paths := by
  have hreg : .paths ≠ regPart addr := fun h => absurd (h ▸ regPart_mem addr) (by decide)
  have hE : Evolves [.fences, .buffer, .regs, regPart addr] s (clearRead addr s) := clearRead_evolves Evolves.refl Sub.rfl
  exact hE.same .paths (by simp [hreg])

/-- The word that a read of a pair's register returns: the path's snapshot, for a high word whose low word the path read
last, and the live word otherwise. -/
def pairWord (s : State) (path addr l : Nat) : Word :=
  if addr ≠ l ∧ (s.ctl.paths.at path).lastRead = some l then (s.ctl.paths.at path).snapshot else shownWord s addr

@[simp] theorem pairWord_low : pairWord s path addr addr = shownWord s addr := if_neg fun h => h.1 rfl

theorem pairWord_snapshot (hne : addr ≠ l) (hlast : (s.ctl.paths.at path).lastRead = some l) :
    pairWord s path addr l = (s.ctl.paths.at path).snapshot := if_pos ⟨hne, hlast⟩

theorem pairWord_live (hlast : (s.ctl.paths.at path).lastRead ≠ some l) :
    pairWord s path addr l = shownWord s addr := if_neg fun h => hlast h.2

/-- A path's pair registers after it has read a register of a pair. -/
def pairPath (s : State) (addr l : Nat) (p : PathState) : PathState :=
  { p with lastRead := some addr, snapshot := if addr = l then shownWord s (addr + 4) else p.snapshot }

/-- A read of a register of a pair, as the model performs it. -/
theorem readReg_of_pairOf (hm : mapped addr = true) (hp : pairOf addr = some l) :
    readReg path addr s = (clearRead addr (onPath path (pairPath s addr l) s), pairWord s path addr l) := by
  simp only [readReg, hm, hp, beforeRead_of_pairOf hp, afterRead_of_pairOf hp, Bool.not_true, Bool.false_eq_true, if_false,
    Option.some.injEq, eq_comm (a := l)]
  rfl

/-- A path that carries reads, PF0 only while it is open, answers one with what reading the register gives. -/
theorem readAccess_of_live {path : Fin 5} (hlive : readLive s path.val = true) (hopen : path.val = 4 → pf0Open s = true) :
    readAccess path addr s =
      (readReg path.val addr s).1.send (.regRead path.val addr (readReg path.val addr s).2) := by
  simp +contextual [readAccess, hlive, hopen]

/-- What a read access to a register of a pair sends, and what it leaves in the path's pair registers. -/
theorem readAccess_pair {path : Fin 5} (hlive : readLive s path.val = true) (hopen : path.val = 4 → pf0Open s = true)
    (hm : mapped addr = true) (hp : pairOf addr = some l) :
    .regRead path.val addr (pairWord s path.val addr l) ∈ (readAccess path addr s).out ∧
      (readAccess path addr s).ctl.paths.at path.val = pairPath s addr l (s.ctl.paths.at path.val) := by
  rw [readAccess_of_live hlive hopen, readReg_of_pairOf hm hp]
  exact ⟨sent_send _ _, by simp [clearRead_paths, onPath]⟩

/-- Settles O11: both commands are a read access, and its effect on a pair is that of `readAccess_pair`. -/
theorem pairReadsUseTheSnapshot : Obligations.PairReadsUseTheSnapshot := by
  refine ⟨?place, ?low, ?snapshot, ?live⟩
  case place => exact fun addr l hm hp => pairOf_eq (mapped_addr_mod hm) hp
  case low =>
    intro path addr s hlive hopen hm hp
    obtain ⟨hsent, hpath⟩ := readAccess_pair hlive hopen hm hp
    exact ⟨_, rfl, pairWord_low ▸ hsent, by simp [hpath, pairPath], by simp [hpath, pairPath]⟩
  case snapshot =>
    intro path addr l s hlive hopen hm hp hne hlast
    exact ⟨_, rfl, pairWord_snapshot hne hlast ▸ (readAccess_pair hlive hopen hm hp).1⟩
  case live =>
    intro path addr l s hlive hopen hm hp _ hlast
    exact ⟨_, rfl, pairWord_live hlast ▸ (readAccess_pair hlive hopen hm hp).1⟩

end Sys2Proof.Machine
end

section
/-! PROOFS. A record's arrival at the event router and the critical event log (R31, R33, R492). -/

namespace Sys2Proof.Machine

variable {s : State} {r : EventRec} {rest : List EventRec}

/-- The critical event log after a record has been offered to it: only severity 4 enters (R31). -/
theorem logCritical_clog (r : EventRec) (s : State) :
    (logCritical r s).ctl.clog = if r.severity = 4 then keepLast 65536 (s.ctl.clog ++ [r]) else s.ctl.clog := by
  unfold logCritical
  split <;> rfl

@[simp] theorem logCritical_now (r : EventRec) (s : State) : (logCritical r s).now = s.now := by
  unfold logCritical
  split <;> rfl

/-- The log evicts its oldest record, so the one just written is in it. -/
theorem mem_clog_logCritical (hsev : r.severity = 4) (s : State) : r ∈ (logCritical r s).ctl.clog := by
  rw [logCritical_clog, if_pos hsev]
  exact mem_keepLast (by decide) _ _

/-- A release into the rings leaves the critical event log. -/
@[simp] theorem deliver_clog (r : EventRec) (s : State) : (deliver r s).ctl.clog = s.ctl.clog :=
  (deliver_evolves Evolves.refl Sub.rfl : Evolves _ s _).same .clog (by decide)

/-- The state in which a record stands at the router: taken from those under way, and logged if it is critical. -/
def arrived (r : EventRec) (rest : List EventRec) (s : State) : State :=
  logCritical r (s.onCtl fun c => { c with inflight := rest })

@[simp] theorem arrived_now : (arrived r rest s).now = s.now := logCritical_now r _

theorem mem_clog_arrived (hsev : r.severity = 4) : r ∈ (arrived r rest s).ctl.clog := mem_clog_logCritical hsev _

/-- The record has arrived after its hold, while the rings run: it is released at once (R33). -/
abbrev Overdue (r : EventRec) (s : State) : Prop := 1000 < s.now - r.gts ∧ ringsRun s = true

/-- The arrival of the oldest record under way, as the model performs it. -/
theorem execEventRecord_of_inflight (h : s.ctl.inflight = r :: rest) :
    execEventRecord s =
      if Overdue r (arrived r rest s) then
        .next (emit 0x002 0x017 3 (min (s.now - r.gts - 1000) (2 ^ 36 - 1)) (deliver r (arrived r rest s)))
      else .next ((arrived r rest s).onCtl fun c => { c with held := c.held ++ [r] }) := by
  unfold execEventRecord
  rw [h, ← arrived_now (r := r) (rest := rest) (s := s)]
  rfl

/-- A reset of either kind keeps the critical event log: the log stands in MRAM (R454, R492). -/
@[simp] theorem resetState_clog (warm : Bool) (cause : Nat) (s : State) :
    (resetState warm cause s).ctl.clog = s.ctl.clog :=
  (floorAfter_evolves Evolves.refl Sub.rfl : Evolves _ _ (resetState warm cause s)).same .clog (by decide)

/-- Settles O13: the record is in the log on arrival, and neither its release nor its hold takes it out. -/
theorem criticalRecordsAreLogged : Obligations.CriticalRecordsAreLogged := by
  refine ⟨fun s r rest hinflight hsev => ?_, resetState_clog⟩
  have hlogged : r ∈ (arrived r rest s).ctl.clog := mem_clog_arrived hsev
  have hexec : exec .eventRecord s = _ := execEventRecord_of_inflight hinflight
  by_cases hlate : Overdue r (arrived r rest s)
  · rw [if_pos hlate] at hexec
    have hafter : 1000 < s.now - r.gts := arrived_now ▸ hlate.1
    exact ⟨_, hexec, by simpa using hlogged, fun hsoon => by omega⟩
  · rw [if_neg hlate] at hexec
    exact ⟨_, hexec, hlogged, fun _ => List.mem_append_right _ (List.mem_singleton_self r)⟩

end Sys2Proof.Machine
end

section
/-! PROOFS. How CMD takes an admin command (R76, R77), the completion it posts (R45, R327), and the limit on concurrent
Aborts (R66). -/

namespace Sys2Proof.Machine

variable {s : State} {i : Instr} {run : State → State}

/-- An exit to PS0 is under way once the command is taken: in PS1 to PS3, and in PS0 while one ends (R76, R77). -/
abbrev Exits (s : State) : Prop := 1 ≤ s.cmd.ps ∧ s.cmd.ps ≤ 3 ∨ s.cmd.ps = 0 ∧ s.cmd.exiting = true

theorem hold_of_awake (h : Awake s) : hold i run s = run s := by
  obtain ⟨hps, hexit⟩ := h
  simp [hold, hps, hexit]

theorem hold_of_exits (h : Exits s) : hold i run s = { startExit s with waiting := s.waiting ++ [i] } := by
  unfold hold
  obtain ⟨hlow, hhigh⟩ | ⟨hps, hexit⟩ := h
  · rw [if_neg (by omega), if_neg (by omega)]
  · simp [hps, hexit]

theorem startExit_exiting (h : Exits s) : (startExit s).cmd.exiting = true := by
  unfold startExit
  split
  next => rfl
  next hrun =>
    obtain ⟨hlow, hhigh⟩ | ⟨-, hexit⟩ := h
    · simpa [hlow, hhigh] using hrun
    · exact hexit

@[simp] theorem startExit_out (s : State) : (startExit s).out = s.out :=
  (startExit_evolves Evolves.refl Sub.rfl : Evolves _ s _).same .out (by decide)

/-- What CMD does with an admin command that comes outside PS0, whatever the command: it waits unanswered, and an exit is
under way. -/
theorem hold_waits (h : Exits s) (i : Instr) (run : State → State) :
    (hold i run s).waiting = s.waiting ++ [i] ∧ (hold i run s).cmd.exiting = true ∧ (hold i run s).out = s.out := by
  rw [hold_of_exits h]
  exact ⟨rfl, startExit_exiting h, startExit_out s⟩

theorem adminCommand_of_ready {a : Admin} (h : (ctrlOf s a.cntlid).ready = true) : adminCommand a run s = run s :=
  if_pos h

/-- A PCIe completion queue that takes a completion is sent it, before it signals its interrupt (R327). -/
theorem sent_hostPost {cntlid cqid : Nat} (h : HostRoom s cntlid cqid) (sqid cid : Nat) (st : Status) (dw0 : Nat) :
    .completion cntlid sqid cid st dw0 ∈ (hostPost cntlid sqid cid st dw0 cqid s).out := by
  obtain ⟨hbme, hflr, hexists, hfull⟩ := h
  simp only [hostPost, hbme, hflr, hexists, hfull, Bool.not_true, Bool.false_eq_true, or_self, if_false]
  exact (signalCq_evolves Evolves.refl Sub.rfl).out.subset (sent_send _ _)

/-- A completion posted is sent: on a PCIe queue where its completion queue takes it, on any other always (R45). -/
theorem answered_post (cntlid sqid cid : Nat) (st : Status) (dw0 : Nat) (inv : Option Nat) (s : State) :
    Answered s (post cntlid sqid cid st dw0 inv s) cntlid sqid cid st dw0 := by
  intro hroom
  dsimp only [post]
  split
  next hpcie => exact sent_hostPost (hroom hpcie) ..
  next =>
    split
    next => exact sent_send _ _
    next => exact (sendResponse_evolves Evolves.refl Sub.rfl).out.subset (sent_send _ _)

theorem answered_postAdmin (a : Admin) (st : Status) (dw0 : Nat) (s : State) :
    Answered s (postAdmin a st dw0 s) a.cntlid 0 a.cid st dw0 :=
  answered_post a.cntlid 0 a.cid st dw0 none s

/-- Posting an admin command's completion touches no queued command and no command in the table. -/
theorem postAdmin_commands (a : Admin) (st : Status) (dw0 : Nat) (s : State) :
    (postAdmin a st dw0 s).cmd.queued = s.cmd.queued ∧ (postAdmin a st dw0 s).cmd.table = s.cmd.table := by
  have hE : Evolves _ s (postAdmin a st dw0 s) := postAdmin_evolves Evolves.refl Sub.rfl
  have hsame := hE.same .commands (by decide)
  simp only [Part.Same, Prod.mk.injEq] at hsame
  obtain ⟨hqueued, htable, -⟩ := hsame
  exact ⟨hqueued, htable⟩

/-- The effect of an Abort beside eight others on a ready controller: its completion, and nothing else (R66). -/
theorem runAbort_of_limit {a : Admin} {others : Nat} (hready : (ctrlOf s a.cntlid).ready = true) (h : 8 ≤ others)
    (sqid target : Nat) : runAbort a sqid target others s = postAdmin a stAbortLimit 0 s :=
  (adminCommand_of_ready hready).trans (if_pos h)

/-- Settles O14: awake, the Abort runs and posts its refusal; otherwise it waits, as `hold_waits` says of any command. -/
theorem ninthAbortIsRefused : Obligations.NinthAbortIsRefused := by
  refine ⟨fun a sqid target others s hready hlimit hawake => ?refused, fun a sqid target others s hexits => ?waits⟩
  case refused =>
    have hexec : exec (.abort a sqid target others) s = .next (postAdmin a stAbortLimit 0 s) :=
      congrArg Host.Outcome.next ((hold_of_awake hawake).trans (runAbort_of_limit hready hlimit sqid target))
    obtain ⟨hqueued, htable⟩ := postAdmin_commands a stAbortLimit 0 s
    exact ⟨_, hexec, hqueued, htable, answered_postAdmin a stAbortLimit 0 s⟩
  case waits => exact ⟨_, rfl, hold_waits hexits _ _⟩

end Sys2Proof.Machine
end

section
/-! PROOFS. The invalidation that XPT_INV_CTRL starts, what XPT_INV_STATUS shows of it, and the refusal of a second one
(R113, R115, R124). -/

namespace Sys2Proof.Machine

variable {s t : State} {path : Fin 5} {session i : Nat} {value : Word}

/-- The parts of the state that make up the transport. -/
abbrev xptParts : List Part := [.contexts, .contextCache, .regions, .chains, .hbm]

/-- What touches no part of the transport leaves the whole of it. -/
theorem xpt_of_evolves {w : List Part} (h : Evolves w s t) (hw : ∀ p ∈ w, p ∉ xptParts) : t.xpt = s.xpt := by
  have hsame : ∀ p ∈ xptParts, p.Same s t := fun p hp => h.same p fun hin => hw p hin hp
  have hctx := hsame .contexts (by decide)
  have hcache := hsame .contextCache (by decide)
  have hregions := hsame .regions (by decide)
  have hchains := hsame .chains (by decide)
  have hhbm := hsame .hbm (by decide)
  simp only [Part.Same, Prod.mk.injEq] at hctx hcache hregions hchains hhbm
  obtain ⟨hways, hvictims, hfills, hmisses, hinv⟩ := hcache
  obtain ⟨htriggers, hpool, htable, hwaiting, hpeers⟩ := hchains
  rw [Xpt.mk.injEq]
  exact ⟨hctx, hways, hvictims, hfills, hmisses, hregions, hinv, htriggers, hpool, htable, hwaiting, hpeers, hhbm⟩

@[simp] theorem writeGate_xpt (path session addr : Nat) (value : Word) (s : State) :
    (writeGate path session addr value s).1.xpt = s.xpt :=
  xpt_of_evolves (writeGate_evolves Evolves.refl Sub.rfl) (by decide)

/-- Another field of the register that is set stands. -/
theorem fld_setFld_disjoint (f g : Fld) (v : Nat) (h : f.lo ≤ f.hi) (hh : f.hi < 32) (hg : g.lo ≤ g.hi)
    (hd : g.hi < f.lo ∨ f.hi < g.lo) : (s.setFld f v).fld g = s.fld g :=
  fldGet_fldSet_disjoint s.regs f g 0 0 v h hh hg hd

/-! Invalidations. -/

/-- An invalidation does not end while a message straddles (R113). -/
theorem finishInvalidation_of_users (h : (s.xpt.regions.at i).users ≠ []) : finishInvalidation i s = s :=
  if_neg fun hdone => h hdone.2

/-- The invalidation of a region with users stands as the one of XPT_INV_CTRL once it has been started there. -/
theorem startInvalidation_invCtrl (h : (s.xpt.regions.at i).users ≠ []) :
    (startInvalidation i true s).xpt.invCtrl = some (i * 256 + (s.xpt.regions.at i).key) := by
  unfold startInvalidation
  rw [finishInvalidation_of_users (by simpa [onRegion] using h)]
  rfl

/-! What XPT_INV_STATUS shows. -/

/-- The register table's row of XPT_INV_STATUS. -/
def invStatusRow : RegRow :=
  ⟨"XPT_INV_STATUS", 0x05000070, 1, 4, 0x00000000,
    [F.XPT_INV_STATUS_BUSY, F.XPT_INV_STATUS_FORCED, F.XPT_INV_STATUS_REFUSED, F.XPT_INV_STATUS_STRADDLING]⟩

theorem findReg_invStatus : findReg 0x05000070 = some (invStatusRow, 0) := by decide

theorem shownWord_invStatus (s : State) :
    shownWord s 0x05000070 = BitVec.ofNat 32 (wordRead invStatusRow.fields (liveWord s 0x05000070)) := by
  unfold shownWord
  rw [findReg_invStatus]

theorem liveWord_invStatus (s : State) :
    liveWord s 0x05000070 = xptView s 0x05000070 (rawWord s.regs 0x05000070).toNat := rfl

/-- Of the fields that a read of XPT_INV_STATUS joins, BUSY alone lies at bit 31. -/
theorem testBit_wordRead_invStatus (w : Nat) : (wordRead invStatusRow.fields w).testBit 31 = w.testBit 31 := by
  show (setBits (setBits (setBits (setBits 0 31 31 (bitsOf w 31 31)) 30 30 _) 29 29 _) 15 0 _).testBit 31 = _
  rw [testBit_setBits, testBit_setBits, testBit_setBits, testBit_setBits, testBit_bitsOf]
  simp

theorem xptView_invStatus (s : State) (w : Nat) :
    xptView s 0x05000070 w = match s.xpt.invCtrl with
      | some rkey => setBits (setBits w 31 31 1) 15 0 (min 65535 (s.xpt.regions.at (regionIndex rkey)).straddle)
      | none => setBits (setBits w 31 31 0) 15 0 0 := rfl

theorem testBit_xptView_invStatus (s : State) (w : Nat) :
    (xptView s 0x05000070 w).testBit 31 = s.xpt.invCtrl.isSome := by
  rw [xptView_invStatus]
  cases s.xpt.invCtrl with
  | none => simp [testBit_setBits]
  | some rkey => simp [testBit_setBits]

/-- XPT_INV_STATUS.BUSY reads 1 just while an invalidation of XPT_INV_CTRL is under way. -/
theorem bitAt_shownWord_invStatus (s : State) : bitAt (shownWord s 0x05000070).toNat 31 = s.xpt.invCtrl.isSome := by
  rw [bitAt_eq_testBit, shownWord_invStatus, BitVec.toNat_ofNat, Nat.testBit_mod_two_pow, testBit_wordRead_invStatus,
    liveWord_invStatus, testBit_xptView_invStatus]
  rfl

/-! Writes of XPT_INV_CTRL. -/

theorem invCtrl_addr : F.XPT_INV_CTRL_RKEY.addr 0 = 0x0500006C := by decide

theorem refused_addr : F.XPT_INV_STATUS_REFUSED.addr 0 = 0x05000070 := by decide

theorem exec_xptInvCtrl (path : Fin 5) (session : Nat) (value : Word) (s : State) :
    exec (.xptInvCtrl path session value) s = execXptInvCtrl path session value s := rfl

/-- A write of a VALID region's key, while no invalidation is under way, starts the region's. -/
theorem exec_xptInvCtrl_of_valid (h : MayWrite path session 0x0500006C s) (hidle : s.xpt.invCtrl = none)
    (hindex : regionIndex value.toNat < 65536) (hstate : (s.xpt.regions.at (regionIndex value.toNat)).state = 1)
    (hkey : (s.xpt.regions.at (regionIndex value.toNat)).key = value.toNat % 256) :
    exec (.xptInvCtrl path session value) s =
      .next (startInvalidation (regionIndex value.toNat) true (writeGate path.val session 0x0500006C value s).1) := by
  simp [exec_xptInvCtrl, execXptInvCtrl, invCtrl_addr, writeGate_performed value h, hidle, hstate, hkey, hindex]

/-- A write while an invalidation is under way only sets REFUSED. -/
theorem exec_xptInvCtrl_of_busy (h : MayWrite path session 0x0500006C s) (hbusy : s.xpt.invCtrl.isSome = true) :
    exec (.xptInvCtrl path session value) s =
      .next ((writeGate path.val session 0x0500006C value s).1.setFld F.XPT_INV_STATUS_REFUSED 1) := by
  simp [exec_xptInvCtrl, execXptInvCtrl, invCtrl_addr, writeGate_performed value h, hbusy]

theorem refused_setFld : (s.setFld F.XPT_INV_STATUS_REFUSED 1).fld F.XPT_INV_STATUS_REFUSED = 1 :=
  fld_setFld_same _ _ (by decide) (by decide)

/-- No register outside CTL but XPT_INV_STATUS changes where a write is refused. -/
theorem rawWord_refused (path : Fin 5) (session addr : Nat) (value : Word) {a : Nat} (ha : 0x1000000 ≤ a)
    (hne : a ≠ 0x05000070) :
    rawWord ((writeGate path.val session addr value s).1.setFld F.XPT_INV_STATUS_REFUSED 1).regs a = rawWord s.regs a :=
  (rawWord_setFldI _ _ _ _ (refused_addr ▸ hne)).trans (writeGate_rawWord _ _ _ _ path.isLt a (.inl ha))

theorem forced_refused (path : Fin 5) (session addr : Nat) (value : Word) :
    ((writeGate path.val session addr value s).1.setFld F.XPT_INV_STATUS_REFUSED 1).fld F.XPT_INV_STATUS_FORCED =
      s.fld F.XPT_INV_STATUS_FORCED :=
  (fld_setFld_disjoint _ _ _ (by decide) (by decide) (by decide) (by decide)).trans
    (writeGate_fldI _ _ _ _ path.isLt _ _ (.inl (by decide)))

/-- Settles O15: BUSY shows whether XPT_INV_CTRL has an invalidation under way. One with users has been started and has not
ended; while one is under way, a write is its gate and one field set. -/
theorem invalidationsAreTakenOneAtATime : Obligations.InvalidationsAreTakenOneAtATime := by
  unfold Obligations.InvalidationsAreTakenOneAtATime
  refine ⟨fun path session value s hwrite hidle hindex hstate hkey husers => ?accepted,
    fun path session value s hwrite hbusy => ?refused⟩
  case accepted =>
    have hstarted := startInvalidation_invCtrl (s := (writeGate path.val session 0x0500006C value s).1)
      (i := regionIndex value.toNat) (by simpa using husers)
    exact ⟨_, exec_xptInvCtrl_of_valid hwrite hidle hindex hstate hkey,
      (bitAt_shownWord_invStatus _).trans (by rw [hstarted, Option.isSome_some])⟩
  case refused =>
    rw [bitAt_shownWord_invStatus] at hbusy
    exact ⟨_, exec_xptInvCtrl_of_busy hwrite hbusy, refused_setFld, (State.setFld_xpt ..).trans (writeGate_xpt ..),
      fun a ha hne => rawWord_refused path session _ value ha hne, forced_refused path session _ value⟩

end Sys2Proof.Machine
end

section
/-! PROOFS. The FIFO of transmit time stamps that two-step operation fills, and how PRT_TS_CTRL empties it (R232). -/

namespace Sys2Proof.Machine

variable {w : List Part} {s t : State} {f : Bytes} {lport p m : Nat} {st : TxStamp} {rest : List TxStamp}

/-! What stands while the FIFOs are not touched. -/

theorem stamps_of_evolves (h : Evolves w s t) (hw : w.contains .stamps = false) : t.net.stamps = s.net.stamps :=
  congrArg Prod.fst (h.same .stamps (by simpa using hw))

/-- A register of the ports chooses one-step operation, so the choice stands while their registers do. -/
theorem oneStep_of_evolves (h : Evolves w s t) (hw : w.contains .regPrt = false) : oneStep t f m = oneStep s f m := by
  have hword := h.same .regPrt (by simpa using hw) (F.PRT_PTP_CFG_ONE_STEP.addr 0) (by decide)
  have hfld : t.fld F.PRT_PTP_CFG_ONE_STEP = s.fld F.PRT_PTP_CFG_ONE_STEP := fldI_congr _ 0 hword
  unfold oneStep
  rw [hfld]

/-! The transmission. -/

/-- The state once the frame on a port's line, if there is one, has ended. -/
def lineEnded (lport : Nat) (s : State) : State :=
  match s.net.line.at lport with
  | some d => endLine lport d s
  | none => s

theorem lineEnded_evolves (lport : Nat) (s : State) :
    Evolves [.buffer, .traffic, .regs, .regSwc, .out] s (lineEnded lport s) := by
  unfold lineEnded
  split
  · exact endLine_evolves Evolves.refl Sub.rfl
  · exact Evolves.refl

/-- The state in which the unit's own message has gone out behind the frame on the line, its time stamp not yet entered. -/
def messageSent (lport : Nat) (f : Bytes) (s : State) : State :=
  (lineEnded lport s).send (.ptp lport (completeFrame false f))

theorem messageSent_evolves (lport : Nat) (f : Bytes) (s : State) :
    Evolves [.buffer, .traffic, .regs, .regSwc, .out] s (messageSent lport f s) :=
  state_send_evolves (lineEnded_evolves lport s) (Sub.of Sub.rfl rfl)

theorem messageSent_stamps (lport : Nat) (f : Bytes) (s : State) : (messageSent lport f s).net.stamps = s.net.stamps :=
  stamps_of_evolves (messageSent_evolves lport f s) (by decide)

theorem messageSent_now (lport : Nat) (f : Bytes) (s : State) : (messageSent lport f s).now = s.now :=
  (messageSent_evolves lport f s).now_eq (by decide)

theorem exec_frameTransmitted_own (lport : Fin 64) (f : Bytes) (s : State) :
    exec (.frameTransmitted lport (some f)) s = .next (kick lport.val (sendPtp lport.val f (lineEnded lport.val s))) := rfl

/-- In two-step operation an event message leaves unchanged, and its time stamp goes to the FIFO. -/
theorem sendPtp_of_twoStep (hptp : ptpEvent f = some (p, m)) (htwo : oneStep s f m = false) :
    sendPtp lport f s = pushStamp lport ⟨s.now, half f (p + 30), m, byteAt f (p + 4)⟩
      (s.send (.ptp lport (completeFrame false f))) := by
  simp [sendPtp, hptp, htwo]

/-- A transmission in two-step operation, as the model performs it: the end of the line takes no time and leaves the choice
of one-step operation, so the time stamp is of the state it began in. -/
theorem exec_frameTransmitted_of_twoStep (lport : Fin 64) (hptp : ptpEvent f = some (p, m)) (htwo : oneStep s f m = false) :
    exec (.frameTransmitted lport (some f)) s =
      .next (kick lport.val (pushStamp lport.val ⟨s.now, half f (p + 30), m, byteAt f (p + 4)⟩
        (messageSent lport.val f s))) := by
  have hend : oneStep (lineEnded lport.val s) f m = false :=
    (oneStep_of_evolves (lineEnded_evolves lport.val s) (by decide)).trans htwo
  have hnow : (lineEnded lport.val s).now = s.now := (lineEnded_evolves lport.val s).now_eq (by decide)
  rw [exec_frameTransmitted_own, sendPtp_of_twoStep hptp hend, hnow]
  rfl

theorem pushStamp_of_room (h : (s.net.stamps.at lport).length < 16) :
    pushStamp lport st s = s.onNet fun n => { n with stamps := n.stamps.upd lport (· ++ [st]) } :=
  if_neg (Nat.not_le.mpr h)

theorem pushStamp_of_full (h : 16 ≤ (s.net.stamps.at lport).length) :
    pushStamp lport st s = emit (0x100 + lport) 0x104 2 (st.seqId % 65536) s :=
  if_pos h

theorem kick_stamps (lport : Nat) (s : State) : (kick lport s).net.stamps = s.net.stamps :=
  stamps_of_evolves (kick_evolves Evolves.refl Sub.rfl) (by decide)

/-- The next frame's start takes no record from the router. -/
theorem emitted_kick {s₀ : State} {src ev sev data : Nat} (h : Emitted s₀ s src ev sev data) (lport : Nat) :
    Emitted s₀ (kick lport s) src ev sev data :=
  (kick_evolves Evolves.refl Sub.rfl : Evolves _ s (kick lport s)).emitted_mono (by decide) h

/-! The words of PRT_TS_DATA. -/

theorem putStampWords_stamps (w0 w1 w2 w3 empty : Nat) (s : State) :
    (putStampWords w0 w1 w2 w3 empty s).net.stamps = s.net.stamps :=
  stamps_of_evolves (putStampWords_evolves Evolves.refl Sub.rfl) (by decide)

/-- EMPTY is one bit wide. -/
theorem empty_putStampWords (w0 w1 w2 w3 empty : Nat) (s : State) :
    (putStampWords w0 w1 w2 w3 empty s).fld F.PRT_TS_CTRL_EMPTY = empty % 2 :=
  fld_setFld_same _ _ (by decide) (by decide)

/-- The words that hold an entry, the low word of its time stamp first. -/
theorem rawWord_putStampWords (w0 w1 w2 w3 empty : Nat) (s : State) :
    rawWord (putStampWords w0 w1 w2 w3 empty s).regs 0x01000050 = BitVec.ofNat 32 w0 ∧
      rawWord (putStampWords w0 w1 w2 w3 empty s).regs 0x01000054 = BitVec.ofNat 32 w1 ∧
      rawWord (putStampWords w0 w1 w2 w3 empty s).regs 0x01000058 = BitVec.ofNat 32 w2 := by
  have hctrl : F.PRT_TS_CTRL_EMPTY.addr 0 = 0x01000048 := by decide
  simp [putStampWords, fldSet, hctrl]

/-! Writes of PRT_TS_CTRL. -/

@[simp] theorem writeGate_stamps (path session addr : Nat) (value : Word) (s : State) :
    (writeGate path session addr value s).1.net.stamps = s.net.stamps :=
  stamps_of_evolves (writeGate_evolves Evolves.refl Sub.rfl) (by decide)

theorem tsCtrl_addr : F.PRT_TS_CTRL_LPORT.addr 0 = 0x01000048 := by decide

theorem exec_prtTsCtrl (path : Fin 5) (session : Nat) (value : Word) (s : State) :
    exec (.prtTsCtrl path session value) s = execPrtTsCtrl path session value s := rfl

/-- The state with a port's FIFO left holding `rest`. -/
def leaveStamps (lport : Nat) (rest : List TxStamp) (s : State) : State :=
  s.onNet fun n => { n with stamps := n.stamps.put lport rest }

theorem leaveStamps_at (lport : Nat) (rest : List TxStamp) (s : State) :
    (leaveStamps lport rest s).net.stamps.at lport = rest := by
  simp [leaveStamps]

/-- A write of PRT_TS_CTRL for a port with entries takes the oldest: the gate, DONE, the FIFO without it, and its words. -/
theorem exec_prtTsCtrl_of_cons {path : Fin 5} {session : Nat} {value : Word} (hwrite : MayWrite path session 0x01000048 s)
    (hfifo : s.net.stamps.at (bitsOf value.toNat 5 0) = st :: rest) :
    exec (.prtTsCtrl path session value) s =
      .next (putStampWords (st.gts % 2 ^ 32) (st.gts / 2 ^ 32)
        (st.seqId % 65536 * 65536 + st.msgType % 16 * 4096 + st.domain % 256) (2 ^ 31 + bitsOf value.toNat 5 0) 0
        (leaveStamps (bitsOf value.toNat 5 0) rest
          ((writeGate path.val session 0x01000048 value s).1.setFld F.PRT_TS_CTRL_DONE 1))) := by
  have hgated : ((writeGate path.val session 0x01000048 value s).1.setFld F.PRT_TS_CTRL_DONE 1).net.stamps.at
      (bitsOf value.toNat 5 0) = st :: rest := by
    rw [State.setFld_net, writeGate_stamps, hfifo]
  rw [exec_prtTsCtrl]
  unfold execPrtTsCtrl leaveStamps
  simp only [tsCtrl_addr, writeGate_performed value hwrite, hgated, Bool.not_true, Bool.false_eq_true, if_false]

/-- Settles O16: a two-step transmission is the push of its time stamp between an end of the line and a start of the next
frame that both leave the FIFOs; a write of PRT_TS_CTRL is its gate, the removal of the oldest entry, and its words. -/
theorem transmitStampsAreQueued : Obligations.TransmitStampsAreQueued := by
  unfold Obligations.TransmitStampsAreQueued
  refine ⟨fun lport f p m s hptp htwo hroom => ?entered, fun lport f p m s hptp htwo hfull => ?discarded,
    fun path session value st rest s hwrite hfifo => ?taken⟩
  case entered =>
    refine ⟨_, exec_frameTransmitted_of_twoStep lport hptp htwo, ?_⟩
    rw [pushStamp_of_room (by rwa [messageSent_stamps])]
    simp [kick_stamps, messageSent_stamps]
  case discarded =>
    refine ⟨_, exec_frameTransmitted_of_twoStep lport hptp htwo, ?_⟩
    rw [pushStamp_of_full (by rwa [messageSent_stamps])]
    have hsaid := emitted_emit_of (0x100 + lport.val) 0x104 2 (half f (p + 30) % 65536) (messageSent_now lport.val f s)
    exact ⟨by simp [kick_stamps, messageSent_stamps], emitted_kick hsaid lport.val⟩
  case taken =>
    have hgts : BitVec.ofNat 32 (st.gts % 2 ^ 32) = BitVec.ofNat 32 st.gts := BitVec.eq_of_toNat_eq (by simp)
    refine ⟨_, exec_prtTsCtrl_of_cons hwrite hfifo, ?_⟩
    obtain ⟨hlow, hhigh, hids⟩ := rawWord_putStampWords _ _ _ _ _ _
    rw [putStampWords_stamps, empty_putStampWords, leaveStamps_at]
    exact ⟨rfl, rfl, hlow.trans hgts, hhigh, hids⟩

end Sys2Proof.Machine
end

section
/-! PROOFS. A start request of a leg that is not discharged, the start it waits for, and what clears PENDING (R410, R418,
R420). -/

namespace Sys2Proof.Machine

variable {s : State} {f : Fld} {leg : Nat}

/-! Fields beside the one that is set. -/

/-- A field of other bits stands, whatever the registers of the two. -/
theorem fldI_setFldI_disjoint (f g : Fld) (i j v : Nat) (h : f.lo ≤ f.hi) (hh : f.hi < 32) (hg : g.lo ≤ g.hi)
    (hd : g.hi < f.lo ∨ f.hi < g.lo) : (s.setFldI f i v).fldI g j = s.fldI g j :=
  fldGet_fldSet_disjoint s.regs f g i j v h hh hg hd

theorem fldI_emit (src ev sev data : Nat) (f : Fld) (i : Nat) (s : State) : (emit src ev sev data s).fldI f i = s.fldI f i :=
  rfl

theorem fldI_setMap {lo hi : Fld} {j : Nat} (hlo : f.addr j ≠ lo.addr 0) (hhi : f.addr j ≠ hi.addr 0) (leg : Nat) (b : Bool)
    (s : State) : (setMap lo hi leg b s).fldI f j = s.fldI f j := by
  unfold setMap
  split
  · exact fldI_setFldI_other lo f 0 j _ hlo
  · exact fldI_setFldI_other hi f 0 j _ hhi

/-! The status register of a leg. -/

/-- A field of PWR_LEG_STAT. -/
abbrev Fld.OfLegStat (f : Fld) : Prop := f.base = 0x0C000300 ∧ f.stride = 4

theorem legStat_addr (hf : f.OfLegStat) (hleg : leg < 48) : f.addr leg = 0x0C000300 + 4 * leg := by
  obtain ⟨hbase, hstride⟩ := hf
  simp only [Fld.addr, hbase, hstride]
  omega

/-- A leg's status is apart from the single registers of slot power, which lie below it. -/
theorem legStat_addr_ne (hf : f.OfLegStat) (hleg : leg < 48) {g : Fld} (hg : g.addr 0 < 0x0C000300) :
    f.addr leg ≠ g.addr 0 := by
  rw [legStat_addr hf hleg]
  omega

theorem fldI_legMaps (hf : f.OfLegStat) (hleg : leg < 48) (s : State) : (legMaps leg s).fldI f leg = s.fldI f leg :=
  (fldI_setMap (legStat_addr_ne hf hleg (by decide)) (legStat_addr_ne hf hleg (by decide)) leg _ _).trans
    (fldI_setMap (legStat_addr_ne hf hleg (by decide)) (legStat_addr_ne hf hleg (by decide)) leg _ s)

theorem legState_setLeg (hleg : leg < 48) (st : Nat) (s : State) : legState (setLeg leg st s) leg = st % 16 :=
  (fldI_legMaps (by decide) hleg _).trans (fldI_setFldI_same F.PWR_LEG_STAT_STATE leg st (by decide) (by decide))

theorem pending_setLeg (hleg : leg < 48) (st : Nat) (s : State) :
    (setLeg leg st s).fldI F.PWR_LEG_STAT_PENDING leg = s.fldI F.PWR_LEG_STAT_PENDING leg :=
  (fldI_legMaps (by decide) hleg _).trans
    (fldI_setFldI_disjoint _ _ _ _ _ (by decide) (by decide) (by decide) (by decide))

/-- PENDING is one bit wide. -/
theorem pending_setFldI (leg v : Nat) (s : State) :
    (s.setFldI F.PWR_LEG_STAT_PENDING leg v).fldI F.PWR_LEG_STAT_PENDING leg = v % 2 :=
  fldI_setFldI_same F.PWR_LEG_STAT_PENDING leg v (by decide) (by decide)

theorem pending_setFldI_heldOff (leg v : Nat) (s : State) :
    (s.setFldI F.PWR_LEG_STAT_HELD_OFF leg v).fldI F.PWR_LEG_STAT_PENDING leg = s.fldI F.PWR_LEG_STAT_PENDING leg :=
  fldI_setFldI_disjoint _ _ _ _ _ (by decide) (by decide) (by decide) (by decide)

theorem pending_setFldI_retries (leg v : Nat) (s : State) :
    (s.setFldI F.PWR_LEG_STAT_RETRIES leg v).fldI F.PWR_LEG_STAT_PENDING leg = s.fldI F.PWR_LEG_STAT_PENDING leg :=
  fldI_setFldI_disjoint _ _ _ _ _ (by decide) (by decide) (by decide) (by decide)

/-! Start requests. -/

theorem requestStart_of_charged (hoff : legState s leg = 0) (hcharged : discharged s leg = false)
    (hfirst : s.fldI F.PWR_LEG_STAT_PENDING leg = 0) (cause : Nat) :
    requestStart leg cause s = emit (0x300 + leg) 0xC06 0 0 (s.setFldI F.PWR_LEG_STAT_PENDING leg 1) := by
  simp [requestStart, legSrc, hoff, hcharged, hfirst]

theorem requestStart_of_pending (hoff : legState s leg = 0) (hcharged : discharged s leg = false)
    (hpending : s.fldI F.PWR_LEG_STAT_PENDING leg = 1) (cause : Nat) : requestStart leg cause s = s := by
  simp [requestStart, hoff, hcharged, hpending]

/-! The start. -/

theorem legState_startLeg (hleg : leg < 48) (cause : Nat) (s : State) : legState (startLeg leg cause s) leg = 1 :=
  legState_setLeg hleg 1 _

theorem gateOn_startLeg (leg cause : Nat) (s : State) : (legOf (startLeg leg cause s) leg).gateOn = true := by
  simp [startLeg, legOf, onLeg]

theorem pending_startLeg (hleg : leg < 48) (cause : Nat) (s : State) :
    (startLeg leg cause s).fldI F.PWR_LEG_STAT_PENDING leg = 0 :=
  (pending_setLeg hleg 1 _).trans (pending_setFldI leg 0 s)

theorem exec_legDischarged_of_pending {leg : Fin 48} (hoff : legState s leg.val = 0)
    (hpending : s.fldI F.PWR_LEG_STAT_PENDING leg.val = 1) (hfeed : feedOn s (legFeed s leg.val) = true) :
    exec (.legDischarged leg) s = .next (startLeg leg.val 4 s) :=
  if_pos ⟨hoff, hpending, hfeed⟩

/-! Removal. -/

theorem pending_legRemoved (leg : Nat) (s : State) : (legRemoved leg s).fldI F.PWR_LEG_STAT_PENDING leg = 0 := by
  unfold legRemoved
  rw [pending_setFldI_retries, pending_setFldI_heldOff, pending_setFldI]

/-- The leg's part of a drive's removal comes last. -/
theorem pending_removeDrive (n : Nat) (s : State) : (removeDrive n s).fldI F.PWR_LEG_STAT_PENDING n = 0 :=
  pending_legRemoved n _

theorem disablePort_slots (n : Nat) (s : State) : (disablePort n s).drv.slots = s.drv.slots :=
  congrArg Prod.fst
    ((disablePort_evolves Evolves.refl Sub.rfl : Evolves _ s (disablePort n s)).same .driveSlots (by decide))

/-- The partner's PWRDIS output unseats no drive. -/
theorem partnerDrives_seated (n : Nat) (line : Bool) (s : State) :
    ((partnerDrives n line s).drv.slots.at n).seated = (s.drv.slots.at n).seated := by
  unfold partnerDrives
  dsimp only
  split
  · simp [disablePort_slots, onSlotBand]
  · split <;> simp [portReset, onPort, onSlotBand]

/-- A contact of a seated slot that reads high is the drive's removal, after the slot's lines have been taken over. -/
theorem exec_presenceRemoval_of_seated {slot : Fin 48} {low0 low1 : Bool} (hseated : (s.drv.slots.at slot.val).seated = true)
    (hhigh : (low0 && low1) = false) (line : Bool) :
    exec (.presenceRemoval slot low0 low1 line) s = .next (removeDrive slot.val (partnerDrives slot.val line
      (onSlotBand slot.val (fun b => { b with prsnt0 := low0, prsnt1 := low1 }) s))) := by
  refine if_neg ?_
  rw [partnerDrives_seated]
  simp [onSlotBand, hseated, hhigh]

/-! Orders. -/

theorem legOrder_addr : F.PWR_LEG_ORDER_OP.addr 0 = 0x0C000044 := by decide

/-- A word that gives PWR_LEG_ORDER an order: the confirmation byte, its OP and a leg that is there (R420). -/
abbrev LegOrdered (op : Nat) (value : Word) : Prop :=
  bitsOf value.toNat 31 24 = 0x3C ∧ bitsOf value.toNat 23 20 = op ∧ bitsOf value.toNat 5 0 < 48

/-- An order's outcome in PWR_ORDER_STAT: its RESULT and the leg's number. -/
def reported (n res : Nat) (s : State) : State := (s.setFld F.PWR_ORDER_STAT_RESULT res).setFld F.PWR_ORDER_STAT_LEG n

theorem pending_reported (hleg : leg < 48) (n res : Nat) (s : State) :
    (reported n res s).fldI F.PWR_LEG_STAT_PENDING leg = s.fldI F.PWR_LEG_STAT_PENDING leg :=
  (fldI_setFldI_other _ _ 0 leg n (legStat_addr_ne (by decide) hleg (by decide))).trans
    (fldI_setFldI_other _ _ 0 leg res (legStat_addr_ne (by decide) hleg (by decide)))

/-- An order written by a path that may write it has its effect on a leg that is not fenced, after the gate of the write and
before its outcome is reported. -/
theorem legOrder_of_confirmed {path : Fin 5} {session op : Nat} {value : Word} {run : Nat → State → State × Nat}
    (hwrite : MayWrite path session 0x0C000044 s) (hvalue : LegOrdered op value)
    (hfence : legState s (bitsOf value.toNat 5 0) ≠ 4) :
    legOrder op path session value run s =
      reported (bitsOf value.toNat 5 0) (run (bitsOf value.toNat 5 0) (writeGate path.val session 0x0C000044 value s).1).2
        (run (bitsOf value.toNat 5 0) (writeGate path.val session 0x0C000044 value s).1).1 := by
  obtain ⟨hconfirm, hop, hleg⟩ := hvalue
  have hgated : legState (writeGate path.val session 0x0C000044 value s).1 (bitsOf value.toNat 5 0) ≠ 4 := by
    have haddr := legStat_addr (f := F.PWR_LEG_STAT_STATE) (by decide) hleg
    rwa [legState, writeGate_fldI _ _ _ _ path.isLt _ _ (.inl (by omega))]
  simp [legOrder, reported, legOrder_addr, writeGate_performed value hwrite, hconfirm, hop, hleg, hgated]

/-- The effect of an off order on a leg that is not fenced (R420). -/
def turnedOff (n : Nat) (s : State) : State :=
  ((legToOff n 1 s).setFldI F.PWR_LEG_STAT_PENDING n 0).setFldI F.PWR_LEG_STAT_HELD_OFF n 1

theorem pending_turnedOff (n : Nat) (s : State) : (turnedOff n s).fldI F.PWR_LEG_STAT_PENDING n = 0 :=
  (pending_setFldI_heldOff n 1 _).trans (pending_setFldI n 0 _)

theorem exec_pwrLegOffOrder_of_confirmed {path : Fin 5} {session : Nat} {value : Word}
    (hwrite : MayWrite path session 0x0C000044 s) (hvalue : LegOrdered 2 value)
    (hfence : legState s (bitsOf value.toNat 5 0) ≠ 4) :
    exec (.pwrLegOffOrder path session value) s =
      .next (reported (bitsOf value.toNat 5 0) 1
        (turnedOff (bitsOf value.toNat 5 0) (writeGate path.val session 0x0C000044 value s).1)) :=
  congrArg Host.Outcome.next
    (legOrder_of_confirmed (run := fun n s => (turnedOff n s, 1)) hwrite hvalue hfence)

/-- Settles O17: a request before discharge sets PENDING or does nothing; the start and the removal clear PENDING as they set
the leg's status; an off order clears it before it reports its RESULT in another register. -/
theorem pendingStartsWaitForDischarge : Obligations.PendingStartsWaitForDischarge := by
  unfold Obligations.PendingStartsWaitForDischarge
  refine ⟨fun leg cause s hoff hcharged hfirst => ?latched,
    fun leg cause s hoff hcharged hpending => requestStart_of_pending hoff hcharged hpending cause,
    fun leg s hoff hpending hfeed => ?started, fun slot low0 low1 line s hseated hhigh => ?removed,
    fun path session value s hwrite hvalue hfence => ?ordered⟩
  case latched =>
    rw [requestStart_of_charged hoff hcharged hfirst]
    exact ⟨(fldI_emit ..).trans (pending_setFldI leg 1 s), emitted_emit_of (0x300 + leg) 0xC06 0 0 (State.now_setFldI ..)⟩
  case started =>
    exact ⟨_, exec_legDischarged_of_pending hoff hpending hfeed, legState_startLeg leg.isLt 4 s,
      gateOn_startLeg leg.val 4 s, pending_startLeg leg.isLt 4 s⟩
  case removed => exact ⟨_, exec_presenceRemoval_of_seated hseated hhigh line, pending_removeDrive slot.val _⟩
  case ordered =>
    have ⟨_, _, hleg⟩ := hvalue
    exact ⟨_, exec_pwrLegOffOrder_of_confirmed hwrite hvalue hfence,
      (pending_reported hleg _ _ _).trans (pending_turnedOff _ _)⟩

end Sys2Proof.Machine
end

section
/-! PROOFS. What every command and every step keeps: no command stops, each changes only its parts, and the invariants that
follow: the canonical form, global time (R24), fences (R35), the rollback count (R305) and the bound of the critical event
log (R402). -/

namespace Sys2Proof.Machine

variable {s t : State}

/-- Every command answers a next state. The commands of the first case are one update of the state each; the meanings of the
others branch, and every branch ends in a next state. -/
theorem exec_next (i : Instr) (s : State) : ∃ t, exec i s = .next t := by
  cases i
  case
      registerWrite | rcFieldRead | pairLowWordRead | pairHighWordRead | pairLowWordWrite | pairHighWordWrite |
      unsupportedRequestBar0 | gtsMeasurement | gtsMeasurementTimeout | ppsOutEdge | unitFenced | connect |
      propertyGet | propertySet | ccEnWritten1 | ccEnWritten0 | ccShnNormalShutdown | ccShnAbruptShutdown |
      disconnect | identify | getLogPage | setFeatures | getFeatures | keepAlive | abort |
      asynchronousEventRequest | deviceSelfTestShort | deviceSelfTestExtended | deviceSelfTestAbort | read |
      write | flush | compare | verify | writeZeroes | datasetManagement | kvStore | kvRetrieve | kvDelete |
      kvExist | kvList | kvFlush | invalidCommandOpcode | createIoSubmissionQueue | createIoCompletionQueue |
      activateImage | activateFirmware | selftestDone | sendReceived | sendWithImmediateReceived |
      sendWithInvalidateReceived | rdmaWriteReceived | rdmaWriteWithImmediateReceived | rdmaReadRequestReceived
      | rdmaReadResponseReceived | acknowledgeReceived | nakPsnSequenceErrorReceived | rnrNakReceived |
      nakRemoteAccessErrorReceived | nakInvalidRequestReceived | cnpReceived | invalidOpcodePacket | wrRdmaWrite
      | wrRdmaWriteWithImmediate | wrSend | wrRdmaRead | wrDriveRead | wrDriveWrite | wrDigestCheck |
      wrCustodyRecord | wrEnvelopeSeal | wrEnvelopeOpen | wrWaitUntilGts | wrNotify | sealIdleTimeout |
      driveReturned | migCutoverOrder | migAbortOrder | controllerFatalStatus | drvPortRetrain | drvPortDisable
      | drvPortEnable | drvPortRecover | drvPwrdisOrder | fecDegradedCleared | pfcFrameReceived | pfcPauseExpiry
      | frameTransmitted | keyGenerate | keyImport | keyExport | keyDestroy | keyEscrowAgain | truRotate |
      truRollback | truEnrolImageKey | truRemoveImageKey | entropyFail | entropyOk | heFundamentalReset |
      heHotReset | leashLockLost | leashSilence | idleFrameTimer | idleFrameReceived | epochEnd |
      epochFrameReceived | noticeFrameReceived | echoReceived | probeReceived | probeReplyReceived |
      fenceReceived | takeoverReceived | handoverDoneReceived | joinReceived | joinReplyReceived | bulkReceived
      | queryReceived | redRoleSwitch | redRoleFence | redRoleRelease | redRoleStandDown | hello | ping |
      regRead | regWrite | boneAcquire | boneRelease | imageBegin | imageData | imageCommit | profileActivate |
      profileErase | profileList | eventSubscribe | eventAck | eventUnsubscribe | clogRead | keyPut | keyGet |
      escrowCollect | receiptGet | custodyExport | certGet | quote | migJobCreate | migJobReport | cellsAlloc |
      cellsFree | sessionClose | badOpcode | sessionIdleTimeout | mgmtLinkLoss | i3cRead | i3cWrite | i3cStatus
      | i3cCommission | storeBegin | storeData | storeCommit | boneReqAcquire | boneReqRelease | boneReqRenew |
      ctlLockSet | fastTrip | faultTimerExpiry | modelTemperatureLimit | legPgWithdrawn | pwrLegOnOrder |
      pwrLegOffOrder | sensorPoll | fanRecovered | samplerOverflow | powerOnReset | fundamentalReset |
      warmResetPin | controlTick | coreClockEdge =>
    exact ⟨_, rfl⟩
  all_goals
    dsimp only [exec,
      execAddrUnmapped, execPpsInEdge, execEventRecord, execRecordRelease, execControlCoreWatchdog,
      execPrefixFenceOrder, execArbiterGrant, execLastDataCellStored, execLastParityCellReady,
      execUnitWriteCompletion, execDriveReadCompletion, execJournalCompletion, execRdmaWriteAcknowledged,
      execCompletionHandedToXpt, execDrainFinished, execKeepAliveTimeout, execActDrained, execActDeferred,
      execActDone, execBoundResumed, execIdleTimerExpiry, execPowerStateExitDone, execSelftestTimeout,
      execCmReq, execCmRtu, execCmDreq, execCmDrep, execContextDrainTimeout, execContextErrorTimeout,
      execAckTimeout, execRnrWaitExpiry, execAckCoalescingTimeout, execContextFill, execVictimWriteBack,
      execXptInvCtrl, execInvLimitReached, execXptCtxSel, execTriggerArm, execTriggerDisarm, execTriggerReclaim,
      execChainStart, execWorkRequestCompletion, execWaitGtsReached, execLayoutSliceDone, execSetSealed,
      execReclaimDone, execJournalReplayDone, execCkptInterval, execLayCkptCtrlStart,
      execCheckpointWriteCompletion, execRebuildSetDone, execReadRepair, execScrubRow, execLayFormatOrder,
      execBatchClosed, execBatchSealed, execLeavesRecomputed, execFixityAuditObject, execMigWindowPlanned,
      execManifestPlan, execManifestAck, execManifestVoid, execManifestFinal, execMigRegionsRegistered,
      execCutoverTimeout, execMigConnectionErrorTimeout, execPresenceSeated, execPresenceRemoval,
      execPerstReleaseTimer, execDriveLinkUp, execTrainingTimeout, execDriveAdminCompletion,
      execInitStepTimeout, execIoCommandTimeout, execAdminCommandTimeout, execDriveLinkDown, execDmaFault,
      execPreemptCompletion, execPwrdisRelease, execLegPgWaitTimeout, execSmbusPoll, execFrameReceived,
      execLinkUp, execLinkDown, execFecDegraded, execPfcRefresh, execPrtTsCtrl, execWakeMatch, execClsRuleRead,
      execClsRuleWrite, execClsRuleInvalidate, execBloodhoundPass, execSwcMcRead, execSwcMcWrite, execTmgQRead,
      execTmgQWrite, execTmgPolRead, execTmgPolWrite, execTmgGateRead, execTmgGateWrite, execTmgGateCommit,
      execTmgGateStop, execGateSwitch, execGateListStopped, execGateEntryEnd, execTmgHistSel,
      execMediaQueueGrant, execCipherRequest, execCipherSegmentDone, execLaneKnownAnswerTest, execKeyOrderDone,
      execHeLinkUp, execHeLinkDown, execFlrPf1, execFlrVf, execFlrPf0, execFlrComplete, execVfEnable,
      execBmeCleared, execSubmissionQueueDoorbell, execCompletionQueueDoorbell, execHostReadCompletion,
      execCplTimeout, execTagHoldExpiry, execMsixUnmask, execPeerMemoryRequest, execHepPwinCommit,
      execPwinCommit, execHepPptRead, execHepPptWrite, execLeashUp, execLeashResendTimeout, execVoteMissed,
      execEpochMiss, execProbeTimeout, execTakeoverReplayDone, execTakeoverDone, execJoinTimer,
      execJoinTimeExpiry, execReservationCheck, execHandover, execHandoverDrainLimit, execEventMessageResend,
      execI3cRestart, execBoneExpired, execRingReaderBind, execRingReadSnapshot, execRingReadRemove,
      execRampTimeLimit, execRampComplete, execGateCheckFail, execDrainSourceShort, execLegPg,
      execLegDischarged, execLegRetry, execRetryCountClear, execFeedFault, execFeedOk, execFanFail,
      execThermTrip, execTelSnapStart, execSnapDone, execSampleCaptureTimeout, execSampleReadSnapshot,
      execSampleReadRemove, execTelSamplerWrite, execPowerGoodLoss, execSystemWatchdogExpiry, execBootStart,
      execPllLocked, execBootDone, execRecoveryRestart, execClockLost, execClockPresent, execEpochRecordSent,
      execInterruptCoalescingTimeout, execMgmtNeighbourDiscovery]
    repeat' split
    all_goals exact ⟨_, rfl⟩

/-- Settles O3: by cases on the command, and on the branches of its meaning. -/
theorem noCommandStops : Obligations.NoCommandStops := exec_next

/-- A command changes at most its parts: the frame of each command's meaning. -/
theorem exec_evolves {i : Instr} {s t : State} (h : exec i s = .next t) : Evolves (mayChange i) s t := by
  cases i
  case registerWrite => exact execRegisterWrite_evolves .refl (Sub.of .rfl rfl) t h
  case rcFieldRead => exact execRcFieldRead_evolves .refl Sub.rfl t h
  case pairLowWordRead => exact execPairLowWordRead_evolves .refl Sub.rfl t h
  case pairHighWordRead => exact execPairHighWordRead_evolves .refl Sub.rfl t h
  case pairLowWordWrite => exact execPairLowWordWrite_evolves .refl (Sub.of .rfl rfl) t h
  case pairHighWordWrite => exact execPairHighWordWrite_evolves .refl (Sub.of .rfl rfl) t h
  case addrUnmapped => exact execAddrUnmapped_evolves .refl Sub.rfl t h
  case unsupportedRequestBar0 => exact execUnsupportedRequestBar0_evolves .refl Sub.rfl t h
  case gtsMeasurement => exact execGtsMeasurement_evolves .refl Sub.rfl t h
  case gtsMeasurementTimeout => exact execGtsMeasurementTimeout_evolves .refl Sub.rfl t h
  case ppsInEdge => exact execPpsInEdge_evolves .refl Sub.rfl t h
  case ppsOutEdge => exact execPpsOutEdge_evolves .refl Sub.rfl t h
  case eventRecord => exact execEventRecord_evolves .refl Sub.rfl t h
  case recordRelease => exact execRecordRelease_evolves .refl Sub.rfl t h
  case unitFenced => exact execUnitFenced_evolves .refl Sub.rfl t h
  case controlCoreWatchdog => exact execControlCoreWatchdog_evolves .refl Sub.rfl t h
  case prefixFenceOrder => exact execPrefixFenceOrder_evolves .refl Sub.rfl t h
  case connect => exact execConnect_evolves .refl Sub.rfl t h
  case propertyGet => exact execPropertyGet_evolves .refl Sub.rfl t h
  case propertySet => exact execPropertySet_evolves .refl Sub.rfl t h
  case ccEnWritten1 => exact execCcEnWritten1_evolves .refl Sub.rfl t h
  case ccEnWritten0 => exact execCcEnWritten0_evolves .refl Sub.rfl t h
  case ccShnNormalShutdown => exact execCcShnNormalShutdown_evolves .refl Sub.rfl t h
  case ccShnAbruptShutdown => exact execCcShnAbruptShutdown_evolves .refl Sub.rfl t h
  case disconnect => exact execDisconnect_evolves .refl Sub.rfl t h
  case identify => exact execIdentify_evolves .refl Sub.rfl t h
  case getLogPage => exact execGetLogPage_evolves .refl Sub.rfl t h
  case setFeatures => exact execSetFeatures_evolves .refl Sub.rfl t h
  case getFeatures => exact execGetFeatures_evolves .refl Sub.rfl t h
  case keepAlive => exact execKeepAlive_evolves .refl Sub.rfl t h
  case abort => exact execAbort_evolves .refl Sub.rfl t h
  case asynchronousEventRequest => exact execAsynchronousEventRequest_evolves .refl Sub.rfl t h
  case deviceSelfTestShort => exact execDeviceSelfTestShort_evolves .refl Sub.rfl t h
  case deviceSelfTestExtended => exact execDeviceSelfTestExtended_evolves .refl Sub.rfl t h
  case deviceSelfTestAbort => exact execDeviceSelfTestAbort_evolves .refl Sub.rfl t h
  case read => exact execRead_evolves .refl Sub.rfl t h
  case write => exact execWrite_evolves .refl Sub.rfl t h
  case flush => exact execFlush_evolves .refl Sub.rfl t h
  case compare => exact execCompare_evolves .refl Sub.rfl t h
  case verify => exact execVerify_evolves .refl Sub.rfl t h
  case writeZeroes => exact execWriteZeroes_evolves .refl Sub.rfl t h
  case datasetManagement => exact execDatasetManagement_evolves .refl Sub.rfl t h
  case kvStore => exact execKvStore_evolves .refl Sub.rfl t h
  case kvRetrieve => exact execKvRetrieve_evolves .refl Sub.rfl t h
  case kvDelete => exact execKvDelete_evolves .refl Sub.rfl t h
  case kvExist => exact execKvExist_evolves .refl Sub.rfl t h
  case kvList => exact execKvList_evolves .refl Sub.rfl t h
  case kvFlush => exact execKvFlush_evolves .refl Sub.rfl t h
  case invalidCommandOpcode => exact execInvalidCommandOpcode_evolves .refl Sub.rfl t h
  case createIoSubmissionQueue => exact execCreateIoSubmissionQueue_evolves .refl Sub.rfl t h
  case createIoCompletionQueue => exact execCreateIoCompletionQueue_evolves .refl Sub.rfl t h
  case arbiterGrant => exact execArbiterGrant_evolves .refl Sub.rfl t h
  case lastDataCellStored => exact execLastDataCellStored_evolves .refl Sub.rfl t h
  case lastParityCellReady => exact execLastParityCellReady_evolves .refl Sub.rfl t h
  case unitWriteCompletion => exact execUnitWriteCompletion_evolves .refl Sub.rfl t h
  case driveReadCompletion => exact execDriveReadCompletion_evolves .refl Sub.rfl t h
  case journalCompletion => exact execJournalCompletion_evolves .refl Sub.rfl t h
  case rdmaWriteAcknowledged => exact execRdmaWriteAcknowledged_evolves .refl Sub.rfl t h
  case completionHandedToXpt => exact execCompletionHandedToXpt_evolves .refl Sub.rfl t h
  case drainFinished => exact execDrainFinished_evolves .refl Sub.rfl t h
  case keepAliveTimeout => exact execKeepAliveTimeout_evolves .refl Sub.rfl t h
  case activateImage => exact execActivateImage_evolves .refl Sub.rfl t h
  case activateFirmware => exact execActivateFirmware_evolves .refl Sub.rfl t h
  case actDrained => exact execActDrained_evolves .refl Sub.rfl t h
  case actDeferred => exact execActDeferred_evolves .refl Sub.rfl t h
  case actDone => exact execActDone_evolves .refl (Sub.of .rfl rfl) t h
  case boundResumed => exact execBoundResumed_evolves .refl Sub.rfl t h
  case idleTimerExpiry => exact execIdleTimerExpiry_evolves .refl Sub.rfl t h
  case powerStateExitDone => exact execPowerStateExitDone_evolves .refl Sub.rfl t h
  case selftestDone => exact execSelftestDone_evolves .refl Sub.rfl t h
  case selftestTimeout => exact execSelftestTimeout_evolves .refl Sub.rfl t h
  case cmReq => exact execCmReq_evolves .refl Sub.rfl t h
  case cmRtu => exact execCmRtu_evolves .refl Sub.rfl t h
  case cmDreq => exact execCmDreq_evolves .refl Sub.rfl t h
  case cmDrep => exact execCmDrep_evolves .refl Sub.rfl t h
  case contextDrainTimeout => exact execContextDrainTimeout_evolves .refl Sub.rfl t h
  case contextErrorTimeout => exact execContextErrorTimeout_evolves .refl Sub.rfl t h
  case sendReceived => exact execSendReceived_evolves .refl Sub.rfl t h
  case sendWithImmediateReceived => exact execSendWithImmediateReceived_evolves .refl Sub.rfl t h
  case sendWithInvalidateReceived => exact execSendWithInvalidateReceived_evolves .refl Sub.rfl t h
  case rdmaWriteReceived => exact execRdmaWriteReceived_evolves .refl Sub.rfl t h
  case rdmaWriteWithImmediateReceived => exact execRdmaWriteWithImmediateReceived_evolves .refl Sub.rfl t h
  case rdmaReadRequestReceived => exact execRdmaReadRequestReceived_evolves .refl Sub.rfl t h
  case rdmaReadResponseReceived => exact execRdmaReadResponseReceived_evolves .refl Sub.rfl t h
  case acknowledgeReceived => exact execAcknowledgeReceived_evolves .refl Sub.rfl t h
  case nakPsnSequenceErrorReceived => exact execNakPsnSequenceErrorReceived_evolves .refl Sub.rfl t h
  case rnrNakReceived => exact execRnrNakReceived_evolves .refl Sub.rfl t h
  case nakRemoteAccessErrorReceived => exact execNakRemoteAccessErrorReceived_evolves .refl Sub.rfl t h
  case nakInvalidRequestReceived => exact execNakInvalidRequestReceived_evolves .refl Sub.rfl t h
  case cnpReceived => exact execCnpReceived_evolves .refl Sub.rfl t h
  case invalidOpcodePacket _ opcode => exact execInvalidOpcodePacket_evolves (opcode := opcode) .refl Sub.rfl t h
  case ackTimeout => exact execAckTimeout_evolves .refl Sub.rfl t h
  case rnrWaitExpiry => exact execRnrWaitExpiry_evolves .refl Sub.rfl t h
  case ackCoalescingTimeout => exact execAckCoalescingTimeout_evolves .refl Sub.rfl t h
  case contextFill => exact execContextFill_evolves .refl Sub.rfl t h
  case victimWriteBack => exact execVictimWriteBack_evolves .refl Sub.rfl t h
  case xptInvCtrl => exact execXptInvCtrl_evolves .refl Sub.rfl t h
  case invLimitReached => exact execInvLimitReached_evolves .refl Sub.rfl t h
  case xptCtxSel => exact execXptCtxSel_evolves .refl Sub.rfl t h
  case triggerArm => exact execTriggerArm_evolves .refl Sub.rfl t h
  case triggerDisarm => exact execTriggerDisarm_evolves .refl Sub.rfl t h
  case triggerReclaim => exact execTriggerReclaim_evolves .refl Sub.rfl t h
  case chainStart => exact execChainStart_evolves .refl Sub.rfl t h
  case workRequestCompletion => exact execWorkRequestCompletion_evolves .refl Sub.rfl t h
  case wrRdmaWrite => exact execWrRdmaWrite_evolves .refl Sub.rfl t h
  case wrRdmaWriteWithImmediate => exact execWrRdmaWriteWithImmediate_evolves .refl Sub.rfl t h
  case wrSend => exact execWrSend_evolves .refl Sub.rfl t h
  case wrRdmaRead => exact execWrRdmaRead_evolves .refl Sub.rfl t h
  case wrDriveRead => exact execWrDriveRead_evolves .refl Sub.rfl t h
  case wrDriveWrite => exact execWrDriveWrite_evolves .refl Sub.rfl t h
  case wrDigestCheck => exact execWrDigestCheck_evolves .refl Sub.rfl t h
  case wrCustodyRecord => exact execWrCustodyRecord_evolves .refl Sub.rfl t h
  case wrEnvelopeSeal => exact execWrEnvelopeSeal_evolves .refl Sub.rfl t h
  case wrEnvelopeOpen => exact execWrEnvelopeOpen_evolves .refl Sub.rfl t h
  case wrWaitUntilGts => exact execWrWaitUntilGts_evolves .refl Sub.rfl t h
  case waitGtsReached => exact execWaitGtsReached_evolves .refl Sub.rfl t h
  case wrNotify => exact execWrNotify_evolves .refl Sub.rfl t h
  case layoutSliceDone => exact execLayoutSliceDone_evolves .refl Sub.rfl t h
  case sealIdleTimeout => exact execSealIdleTimeout_evolves .refl Sub.rfl t h
  case setSealed => exact execSetSealed_evolves .refl Sub.rfl t h
  case reclaimDone => exact execReclaimDone_evolves .refl Sub.rfl t h
  case journalReplayDone => exact execJournalReplayDone_evolves .refl Sub.rfl t h
  case ckptInterval => exact execCkptInterval_evolves .refl Sub.rfl t h
  case layCkptCtrlStart => exact execLayCkptCtrlStart_evolves .refl Sub.rfl t h
  case checkpointWriteCompletion => exact execCheckpointWriteCompletion_evolves .refl Sub.rfl t h
  case rebuildSetDone => exact execRebuildSetDone_evolves .refl Sub.rfl t h
  case readRepair => exact execReadRepair_evolves .refl Sub.rfl t h
  case driveReturned => exact execDriveReturned_evolves .refl Sub.rfl t h
  case scrubRow => exact execScrubRow_evolves .refl Sub.rfl t h
  case layFormatOrder => exact execLayFormatOrder_evolves .refl Sub.rfl t h
  case batchClosed => exact execBatchClosed_evolves .refl Sub.rfl t h
  case batchSealed => exact execBatchSealed_evolves .refl Sub.rfl t h
  case leavesRecomputed => exact execLeavesRecomputed_evolves .refl Sub.rfl t h
  case fixityAuditObject => exact execFixityAuditObject_evolves .refl Sub.rfl t h
  case migWindowPlanned => exact execMigWindowPlanned_evolves .refl Sub.rfl t h
  case manifestPlan => exact execManifestPlan_evolves .refl Sub.rfl t h
  case manifestAck => exact execManifestAck_evolves .refl Sub.rfl t h
  case manifestVoid => exact execManifestVoid_evolves .refl Sub.rfl t h
  case manifestFinal => exact execManifestFinal_evolves .refl Sub.rfl t h
  case migRegionsRegistered => exact execMigRegionsRegistered_evolves .refl Sub.rfl t h
  case migCutoverOrder => exact execMigCutoverOrder_evolves .refl Sub.rfl t h
  case migAbortOrder => exact execMigAbortOrder_evolves .refl Sub.rfl t h
  case cutoverTimeout => exact execCutoverTimeout_evolves .refl Sub.rfl t h
  case migConnectionErrorTimeout => exact execMigConnectionErrorTimeout_evolves .refl Sub.rfl t h
  case presenceSeated => exact execPresenceSeated_evolves .refl Sub.rfl t h
  case presenceRemoval => exact execPresenceRemoval_evolves .refl Sub.rfl t h
  case perstReleaseTimer => exact execPerstReleaseTimer_evolves .refl Sub.rfl t h
  case driveLinkUp => exact execDriveLinkUp_evolves .refl Sub.rfl t h
  case trainingTimeout => exact execTrainingTimeout_evolves .refl Sub.rfl t h
  case driveAdminCompletion => exact execDriveAdminCompletion_evolves .refl Sub.rfl t h
  case initStepTimeout => exact execInitStepTimeout_evolves .refl Sub.rfl t h
  case ioCommandTimeout => exact execIoCommandTimeout_evolves .refl Sub.rfl t h
  case adminCommandTimeout => exact execAdminCommandTimeout_evolves .refl Sub.rfl t h
  case controllerFatalStatus => exact execControllerFatalStatus_evolves .refl Sub.rfl t h
  case driveLinkDown => exact execDriveLinkDown_evolves .refl Sub.rfl t h
  case dmaFault => exact execDmaFault_evolves .refl Sub.rfl t h
  case preemptCompletion => exact execPreemptCompletion_evolves .refl Sub.rfl t h
  case drvPortRetrain => exact execDrvPortRetrain_evolves .refl Sub.rfl t h
  case drvPortDisable => exact execDrvPortDisable_evolves .refl Sub.rfl t h
  case drvPortEnable => exact execDrvPortEnable_evolves .refl Sub.rfl t h
  case drvPortRecover => exact execDrvPortRecover_evolves .refl Sub.rfl t h
  case drvPwrdisOrder => exact execDrvPwrdisOrder_evolves .refl Sub.rfl t h
  case pwrdisRelease => exact execPwrdisRelease_evolves .refl Sub.rfl t h
  case legPgWaitTimeout => exact execLegPgWaitTimeout_evolves .refl Sub.rfl t h
  case smbusPoll => exact execSmbusPoll_evolves .refl Sub.rfl t h
  case frameReceived => exact execFrameReceived_evolves .refl Sub.rfl t h
  case linkUp => exact execLinkUp_evolves .refl Sub.rfl t h
  case linkDown => exact execLinkDown_evolves .refl Sub.rfl t h
  case fecDegraded => exact execFecDegraded_evolves .refl Sub.rfl t h
  case fecDegradedCleared => exact execFecDegradedCleared_evolves .refl Sub.rfl t h
  case pfcFrameReceived => exact execPfcFrameReceived_evolves .refl Sub.rfl t h
  case pfcPauseExpiry => exact execPfcPauseExpiry_evolves .refl Sub.rfl t h
  case pfcRefresh => exact execPfcRefresh_evolves .refl Sub.rfl t h
  case frameTransmitted => exact execFrameTransmitted_evolves .refl Sub.rfl t h
  case prtTsCtrl => exact execPrtTsCtrl_evolves .refl Sub.rfl t h
  case wakeMatch => exact execWakeMatch_evolves .refl Sub.rfl t h
  case clsRuleRead => exact execClsRuleRead_evolves .refl Sub.rfl t h
  case clsRuleWrite => exact execClsRuleWrite_evolves .refl Sub.rfl t h
  case clsRuleInvalidate => exact execClsRuleInvalidate_evolves .refl Sub.rfl t h
  case bloodhoundPass => exact execBloodhoundPass_evolves .refl Sub.rfl t h
  case swcMcRead => exact execSwcMcRead_evolves .refl (Sub.of .rfl rfl) t h
  case swcMcWrite => exact execSwcMcWrite_evolves .refl (Sub.of .rfl rfl) t h
  case tmgQRead => exact execTmgQRead_evolves .refl (Sub.of .rfl rfl) t h
  case tmgQWrite => exact execTmgQWrite_evolves .refl (Sub.of .rfl rfl) t h
  case tmgPolRead => exact execTmgPolRead_evolves .refl (Sub.of .rfl rfl) t h
  case tmgPolWrite => exact execTmgPolWrite_evolves .refl (Sub.of .rfl rfl) t h
  case tmgGateRead => exact execTmgGateRead_evolves .refl (Sub.of .rfl rfl) t h
  case tmgGateWrite => exact execTmgGateWrite_evolves .refl (Sub.of .rfl rfl) t h
  case tmgGateCommit => exact execTmgGateCommit_evolves .refl Sub.rfl t h
  case tmgGateStop => exact execTmgGateStop_evolves .refl Sub.rfl t h
  case gateSwitch => exact execGateSwitch_evolves .refl Sub.rfl t h
  case gateListStopped => exact execGateListStopped_evolves .refl Sub.rfl t h
  case gateEntryEnd => exact execGateEntryEnd_evolves .refl Sub.rfl t h
  case tmgHistSel => exact execTmgHistSel_evolves .refl Sub.rfl t h
  case mediaQueueGrant => exact execMediaQueueGrant_evolves .refl Sub.rfl t h
  case cipherRequest => exact execCipherRequest_evolves .refl Sub.rfl t h
  case cipherSegmentDone => exact execCipherSegmentDone_evolves .refl Sub.rfl t h
  case laneKnownAnswerTest => exact execLaneKnownAnswerTest_evolves .refl Sub.rfl t h
  case keyGenerate => exact execKeyGenerate_evolves .refl Sub.rfl t h
  case keyImport => exact execKeyImport_evolves .refl Sub.rfl t h
  case keyExport => exact execKeyExport_evolves .refl Sub.rfl t h
  case keyDestroy => exact execKeyDestroy_evolves .refl Sub.rfl t h
  case keyEscrowAgain => exact execKeyEscrowAgain_evolves .refl Sub.rfl t h
  case keyOrderDone => exact execKeyOrderDone_evolves .refl Sub.rfl t h
  case truRotate => exact execTruRotate_evolves .refl Sub.rfl t h
  case truRollback => exact execTruRollback_evolves .refl Sub.rfl t h
  case truEnrolImageKey => exact execTruEnrolImageKey_evolves .refl Sub.rfl t h
  case truRemoveImageKey => exact execTruRemoveImageKey_evolves .refl Sub.rfl t h
  case entropyFail => exact execEntropyFail_evolves .refl Sub.rfl t h
  case entropyOk => exact execEntropyOk_evolves .refl Sub.rfl t h
  case heLinkUp => exact execHeLinkUp_evolves .refl Sub.rfl t h
  case heLinkDown => exact execHeLinkDown_evolves .refl Sub.rfl t h
  case heFundamentalReset => exact execHeFundamentalReset_evolves .refl Sub.rfl t h
  case heHotReset => exact execHeHotReset_evolves .refl Sub.rfl t h
  case flrPf1 => exact execFlrPf1_evolves .refl Sub.rfl t h
  case flrVf => exact execFlrVf_evolves .refl Sub.rfl t h
  case flrPf0 => exact execFlrPf0_evolves .refl Sub.rfl t h
  case flrComplete => exact execFlrComplete_evolves .refl Sub.rfl t h
  case vfEnable => exact execVfEnable_evolves .refl Sub.rfl t h
  case bmeCleared => exact execBmeCleared_evolves .refl Sub.rfl t h
  case submissionQueueDoorbell => exact execSubmissionQueueDoorbell_evolves .refl Sub.rfl t h
  case completionQueueDoorbell => exact execCompletionQueueDoorbell_evolves .refl Sub.rfl t h
  case hostReadCompletion => exact execHostReadCompletion_evolves .refl Sub.rfl t h
  case cplTimeout => exact execCplTimeout_evolves .refl Sub.rfl t h
  case tagHoldExpiry => exact execTagHoldExpiry_evolves .refl Sub.rfl t h
  case msixUnmask => exact execMsixUnmask_evolves .refl Sub.rfl t h
  case peerMemoryRequest => exact execPeerMemoryRequest_evolves .refl Sub.rfl t h
  case hepPwinCommit => exact execHepPwinCommit_evolves .refl Sub.rfl t h
  case pwinCommit => exact execPwinCommit_evolves .refl Sub.rfl t h
  case hepPptRead => exact execHepPptRead_evolves .refl Sub.rfl t h
  case hepPptWrite => exact execHepPptWrite_evolves .refl Sub.rfl t h
  case leashUp => exact execLeashUp_evolves .refl Sub.rfl t h
  case leashLockLost => exact execLeashLockLost_evolves .refl Sub.rfl t h
  case leashSilence => exact execLeashSilence_evolves .refl Sub.rfl t h
  case leashResendTimeout => exact execLeashResendTimeout_evolves .refl Sub.rfl t h
  case idleFrameTimer => exact execIdleFrameTimer_evolves .refl Sub.rfl t h
  case idleFrameReceived => exact execIdleFrameReceived_evolves .refl Sub.rfl t h
  case epochEnd => exact execEpochEnd_evolves .refl Sub.rfl t h
  case epochFrameReceived => exact execEpochFrameReceived_evolves .refl (Sub.of .rfl rfl) t h
  case noticeFrameReceived => exact execNoticeFrameReceived_evolves .refl Sub.rfl t h
  case echoReceived => exact execEchoReceived_evolves .refl Sub.rfl t h
  case voteMissed => exact execVoteMissed_evolves .refl Sub.rfl t h
  case epochMiss => exact execEpochMiss_evolves .refl (Sub.of .rfl rfl) t h
  case probeReceived => exact execProbeReceived_evolves .refl Sub.rfl t h
  case probeReplyReceived => exact execProbeReplyReceived_evolves .refl (Sub.of .rfl rfl) t h
  case probeTimeout => exact execProbeTimeout_evolves .refl (Sub.of .rfl rfl) t h
  case takeoverReplayDone => exact execTakeoverReplayDone_evolves .refl Sub.rfl t h
  case takeoverDone => exact execTakeoverDone_evolves .refl Sub.rfl t h
  case fenceReceived => exact execFenceReceived_evolves .refl (Sub.of .rfl rfl) t h
  case takeoverReceived => exact execTakeoverReceived_evolves .refl Sub.rfl t h
  case handoverDoneReceived => exact execHandoverDoneReceived_evolves .refl Sub.rfl t h
  case joinReceived => exact execJoinReceived_evolves .refl Sub.rfl t h
  case joinReplyReceived => exact execJoinReplyReceived_evolves .refl Sub.rfl t h
  case bulkReceived => exact execBulkReceived_evolves .refl Sub.rfl t h
  case queryReceived => exact execQueryReceived_evolves .refl Sub.rfl t h
  case joinTimer => exact execJoinTimer_evolves .refl Sub.rfl t h
  case joinTimeExpiry => exact execJoinTimeExpiry_evolves .refl Sub.rfl t h
  case reservationCheck => exact execReservationCheck_evolves .refl Sub.rfl t h
  case redRoleSwitch => exact execRedRoleSwitch_evolves .refl Sub.rfl t h
  case redRoleFence => exact execRedRoleFence_evolves .refl Sub.rfl t h
  case redRoleRelease => exact execRedRoleRelease_evolves .refl Sub.rfl t h
  case redRoleStandDown => exact execRedRoleStandDown_evolves .refl Sub.rfl t h
  case handover => exact execHandover_evolves .refl Sub.rfl t h
  case handoverDrainLimit => exact execHandoverDrainLimit_evolves .refl Sub.rfl t h
  case hello => exact execHello_evolves .refl Sub.rfl t h
  case ping => exact execPing_evolves .refl Sub.rfl t h
  case regRead => exact execRegRead_evolves .refl (Sub.of .rfl rfl) t h
  case regWrite => exact execRegWrite_evolves .refl (Sub.of .rfl rfl) t h
  case boneAcquire => exact execBoneAcquire_evolves .refl Sub.rfl t h
  case boneRelease => exact execBoneRelease_evolves .refl Sub.rfl t h
  case imageBegin => exact execImageBegin_evolves .refl Sub.rfl t h
  case imageData => exact execImageData_evolves .refl Sub.rfl t h
  case imageCommit => exact execImageCommit_evolves .refl Sub.rfl t h
  case profileActivate => exact execProfileActivate_evolves .refl Sub.rfl t h
  case profileErase => exact execProfileErase_evolves .refl Sub.rfl t h
  case profileList => exact execProfileList_evolves .refl Sub.rfl t h
  case eventSubscribe => exact execEventSubscribe_evolves .refl Sub.rfl t h
  case eventAck => exact execEventAck_evolves .refl Sub.rfl t h
  case eventUnsubscribe => exact execEventUnsubscribe_evolves .refl Sub.rfl t h
  case clogRead => exact execClogRead_evolves .refl Sub.rfl t h
  case keyPut => exact execKeyPut_evolves .refl Sub.rfl t h
  case keyGet => exact execKeyGet_evolves .refl Sub.rfl t h
  case escrowCollect => exact execEscrowCollect_evolves .refl Sub.rfl t h
  case receiptGet => exact execReceiptGet_evolves .refl Sub.rfl t h
  case custodyExport => exact execCustodyExport_evolves .refl Sub.rfl t h
  case certGet => exact execCertGet_evolves .refl Sub.rfl t h
  case quote => exact execQuote_evolves .refl Sub.rfl t h
  case migJobCreate => exact execMigJobCreate_evolves .refl Sub.rfl t h
  case migJobReport => exact execMigJobReport_evolves .refl Sub.rfl t h
  case cellsAlloc => exact execCellsAlloc_evolves .refl Sub.rfl t h
  case cellsFree => exact execCellsFree_evolves .refl Sub.rfl t h
  case sessionClose => exact execSessionClose_evolves .refl Sub.rfl t h
  case badOpcode => exact execBadOpcode_evolves .refl Sub.rfl t h
  case sessionIdleTimeout => exact execSessionIdleTimeout_evolves .refl Sub.rfl t h
  case mgmtLinkLoss => exact execMgmtLinkLoss_evolves .refl Sub.rfl t h
  case eventMessageResend => exact execEventMessageResend_evolves .refl Sub.rfl t h
  case i3cRead => exact execI3cRead_evolves .refl (Sub.of .rfl rfl) t h
  case i3cWrite => exact execI3cWrite_evolves .refl (Sub.of .rfl rfl) t h
  case i3cStatus => exact execI3cStatus_evolves .refl (Sub.of .rfl rfl) t h
  case i3cCommission => exact execI3cCommission_evolves .refl Sub.rfl t h
  case storeBegin => exact execStoreBegin_evolves .refl Sub.rfl t h
  case storeData => exact execStoreData_evolves .refl Sub.rfl t h
  case storeCommit => exact execStoreCommit_evolves .refl Sub.rfl t h
  case i3cRestart port => exact execI3cRestart_evolves (port := port) .refl (Sub.of .rfl rfl) t h
  case boneReqAcquire => exact execBoneReqAcquire_evolves .refl Sub.rfl t h
  case boneReqRelease => exact execBoneReqRelease_evolves .refl Sub.rfl t h
  case boneReqRenew => exact execBoneReqRenew_evolves .refl Sub.rfl t h
  case boneExpired => exact execBoneExpired_evolves .refl Sub.rfl t h
  case ctlLockSet => exact execCtlLockSet_evolves .refl Sub.rfl t h
  case ringReaderBind => exact execRingReaderBind_evolves .refl Sub.rfl t h
  case ringReadSnapshot => exact execRingReadSnapshot_evolves .refl Sub.rfl t h
  case ringReadRemove => exact execRingReadRemove_evolves .refl Sub.rfl t h
  case fastTrip => exact execFastTrip_evolves .refl Sub.rfl t h
  case faultTimerExpiry => exact execFaultTimerExpiry_evolves .refl Sub.rfl t h
  case modelTemperatureLimit => exact execModelTemperatureLimit_evolves .refl Sub.rfl t h
  case rampTimeLimit => exact execRampTimeLimit_evolves .refl Sub.rfl t h
  case rampComplete => exact execRampComplete_evolves .refl Sub.rfl t h
  case gateCheckFail => exact execGateCheckFail_evolves .refl Sub.rfl t h
  case drainSourceShort => exact execDrainSourceShort_evolves .refl Sub.rfl t h
  case legPg => exact execLegPg_evolves .refl Sub.rfl t h
  case legPgWithdrawn => exact execLegPgWithdrawn_evolves .refl Sub.rfl t h
  case legDischarged => exact execLegDischarged_evolves .refl Sub.rfl t h
  case legRetry => exact execLegRetry_evolves .refl Sub.rfl t h
  case retryCountClear => exact execRetryCountClear_evolves .refl Sub.rfl t h
  case pwrLegOnOrder => exact execPwrLegOnOrder_evolves .refl Sub.rfl t h
  case pwrLegOffOrder => exact execPwrLegOffOrder_evolves .refl Sub.rfl t h
  case feedFault => exact execFeedFault_evolves .refl Sub.rfl t h
  case feedOk => exact execFeedOk_evolves .refl Sub.rfl t h
  case sensorPoll => exact execSensorPoll_evolves .refl Sub.rfl t h
  case fanFail => exact execFanFail_evolves .refl Sub.rfl t h
  case fanRecovered => exact execFanRecovered_evolves .refl Sub.rfl t h
  case thermTrip => exact execThermTrip_evolves .refl (Sub.of .rfl rfl) t h
  case telSnapStart => exact execTelSnapStart_evolves .refl Sub.rfl t h
  case snapDone => exact execSnapDone_evolves .refl Sub.rfl t h
  case samplerOverflow => exact execSamplerOverflow_evolves .refl Sub.rfl t h
  case sampleCaptureTimeout => exact execSampleCaptureTimeout_evolves .refl Sub.rfl t h
  case sampleReadSnapshot => exact execSampleReadSnapshot_evolves .refl Sub.rfl t h
  case sampleReadRemove => exact execSampleReadRemove_evolves .refl Sub.rfl t h
  case telSamplerWrite => exact execTelSamplerWrite_evolves .refl Sub.rfl t h
  case powerOnReset => exact execPowerOnReset_evolves .refl (Sub.of .rfl rfl) t h
  case fundamentalReset => exact execFundamentalReset_evolves .refl (Sub.of .rfl rfl) t h
  case powerGoodLoss => exact execPowerGoodLoss_evolves .refl (Sub.of .rfl rfl) t h
  case warmResetPin => exact execWarmResetPin_evolves .refl (Sub.of .rfl rfl) t h
  case systemWatchdogExpiry => exact execSystemWatchdogExpiry_evolves .refl (Sub.of .rfl rfl) t h
  case bootStart => exact execBootStart_evolves .refl (Sub.of .rfl rfl) t h
  case pllLocked => exact execPllLocked_evolves .refl (Sub.of .rfl rfl) t h
  case bootDone => exact execBootDone_evolves .refl Sub.rfl t h
  case recoveryRestart => exact execRecoveryRestart_evolves .refl (Sub.of .rfl rfl) t h
  case clockLost => exact execClockLost_evolves .refl (Sub.of .rfl rfl) t h
  case clockPresent => exact execClockPresent_evolves .refl Sub.rfl t h
  case controlTick => exact execControlTick_evolves .refl Sub.rfl t h
  case coreClockEdge => exact execCoreClockEdge_evolves .refl Sub.rfl t h
  case epochRecordSent => exact execEpochRecordSent_evolves .refl Sub.rfl t h
  case interruptCoalescingTimeout => exact execInterruptCoalescingTimeout_evolves .refl Sub.rfl t h
  case mgmtNeighbourDiscovery => exact execMgmtNeighbourDiscovery_evolves .refl Sub.rfl t h

/-- Settles O4: the frames of the commands. -/
theorem everyCommandChangesOnlyItsParts : Obligations.EveryCommandChangesOnlyItsParts := fun _ _ _ => exec_evolves

/-! Steps. -/

/-- A step idles on an empty queue, or runs the front command on the state with the queue's rest. -/
theorem step_cases (h : step s = .next t) :
    s.pending = [] ∧ t = s ∨ ∃ i rest, s.pending = i :: rest ∧ exec i { s with pending := rest } = .next t := by
  unfold step at h
  split at h
  next hqueue => exact .inl ⟨hqueue, (Host.Outcome.next.inj h).symm⟩
  next i rest hqueue => exact .inr ⟨i, rest, hqueue, h⟩

/-- Settles O1: the two cases of the queue. -/
theorem stepTakesTheFrontCommand : Obligations.StepTakesTheFrontCommand := ⟨fun _ _ _ => rfl, fun _ => rfl⟩

/-- A step whose front command begins no reset is an idle step, or the effect of a command that begins none. -/
theorem step_cases_of_noReset (hreset : ∀ c ∈ s.pending.head?, isReset c = false) (h : step s = .next t) :
    t = s ∨ ∃ i rest, isReset i = false ∧ exec i { s with pending := rest } = .next t := by
  obtain ⟨-, hidle⟩ | ⟨i, rest, hqueue, hexec⟩ := step_cases h
  · exact .inl hidle
  · exact .inr ⟨i, rest, hreset i (by simp [hqueue]), hexec⟩

/-- Settles O5: a command keeps the canonical form, which does not read the queue. -/
theorem stepsKeepTheCanonicalForm : Obligations.StepsKeepTheCanonicalForm := by
  intro s t hcanon hstep
  obtain ⟨-, rfl⟩ | ⟨i, rest, -, hexec⟩ := step_cases hstep
  · exact hcanon
  · exact (exec_evolves hexec).canon hcanon

/-- Settles O8: no command lowers the count. -/
theorem rollbackCountNeverFalls : Obligations.RollbackCountNeverFalls := by
  intro s t hstep
  obtain ⟨-, rfl⟩ | ⟨i, rest, -, hexec⟩ := step_cases hstep
  · exact Nat.le_refl _
  · exact (exec_evolves hexec).fuse

/-- The part of a register's word is none of the running facts. -/
theorem regPart_ne {p : Part} (h : p ∉ regParts) (addr : Nat) : p ≠ regPart addr := fun he => h (he ▸ regPart_mem addr)

/-- Of the commands that begin no reset none sets GTS back or lifts a fence, and only EVENT_RECORD writes the critical event
log. -/
theorem mayChange_of_noReset {i : Instr} (h : isReset i = false) :
    .forward ∉ mayChange i ∧ .fenced ∉ mayChange i ∧ (.clog ∈ mayChange i → i = .eventRecord) := by
  cases i
  case rcFieldRead | pairLowWordRead | pairHighWordRead | addrUnmapped =>
    have hne := fun p hp addr => regPart_ne (p := p) hp addr
    unfold mayChange
    simp [hne .forward (by decide), hne .fenced (by decide), hne .clog (by decide)]
  case i3cRestart | thermTrip | powerOnReset | fundamentalReset | powerGoodLoss | warmResetPin | systemWatchdogExpiry |
      recoveryRestart | clockLost => cases h
  case eventRecord => exact ⟨of_decide_eq_true rfl, of_decide_eq_true rfl, fun _ => rfl⟩
  all_goals exact ⟨of_decide_eq_true rfl, of_decide_eq_true rfl, fun hmem => absurd hmem (of_decide_eq_true rfl)⟩

/-- Settles O6: a command that begins no reset leaves GTS or sets it forward. -/
theorem globalTimeNeverGoesBack : Obligations.GlobalTimeNeverGoesBack := by
  intro s t hreset hstep
  obtain rfl | ⟨i, rest, hi, hexec⟩ := step_cases_of_noReset hreset hstep
  · exact Nat.le_refl _
  · exact (exec_evolves hexec).same .forward (mayChange_of_noReset hi).1

/-- Settles O7: a command that begins no reset lifts no fence. -/
theorem fencesStayUntilAReset : Obligations.FencesStayUntilAReset := by
  intro s t hreset hstep
  obtain rfl | ⟨i, rest, hi, hexec⟩ := step_cases_of_noReset hreset hstep
  · exact fun _ _ h => h
  · exact (exec_evolves hexec).same .fenced (mayChange_of_noReset hi).2.1

/-! The critical event log. -/

/-- The critical event log is within its 65,536 records (R402). -/
abbrev LogBounded (s : State) : Prop := s.ctl.clog.length ≤ 65536

theorem clog_of_evolves {w : List Part} (h : Evolves w s t) (hw : .clog ∉ w) : t.ctl.clog = s.ctl.clog := h.same .clog hw

theorem length_keepLast_le {α : Type} {n : Nat} {l : List α} (h : l.length ≤ n) (x : α) :
    (keepLast n (l ++ [x])).length ≤ n := by
  unfold keepLast
  split <;> simp_all

theorem logBounded_logCritical (h : LogBounded s) (r : EventRec) : LogBounded (logCritical r s) := by
  unfold LogBounded
  rw [logCritical_clog]
  split
  · exact length_keepLast_le h r
  · exact h

theorem coldReset_clog (cause : Nat) (s : State) : (coldReset cause s).ctl.clog = s.ctl.clog :=
  (resetState_clog ..).trans
    (clog_of_evolves (dropSessionKeys_evolves Evolves.refl Sub.rfl : Evolves _ s _) (by decide))

/-- A fold of updates that leave the log leaves it. -/
theorem foldl_clog {α : Type} {f : State → α → State} (hf : ∀ s a, (f s a).ctl.clog = s.ctl.clog) (l : List α) (s : State) :
    (l.foldl f s).ctl.clog = s.ctl.clog := by
  induction l generalizing s with
  | nil => rfl
  | cons a l ih => rw [List.foldl_cons, ih, hf]

theorem closeSession_clog (cause id : Nat) (s : State) : (closeSession cause id s).ctl.clog = s.ctl.clog :=
  clog_of_evolves (closeSession_evolves Evolves.refl Sub.rfl : Evolves _ s _) (by decide)

theorem warmReset_clog (cause : Nat) (s : State) : (warmReset cause s).ctl.clog = s.ctl.clog := by
  unfold warmReset
  split
  · rfl
  · rw [resetState_clog, clog_of_evolves (dropSessionKeys_evolves Evolves.refl Sub.rfl : Evolves _ _ _) (by decide),
      foldl_clog fun s id => closeSession_clog 4 id s]

/-- A reset writes at most one record to the log, and may take its POWER_FAIL back before (R451, R484). -/
theorem logBounded_unsayPowerFail (h : LogBounded s) : LogBounded (unsayPowerFail s) := by
  unfold unsayPowerFail LogBounded
  split
  · split
    · simp only [State.setFld_ctl, State.onCtl_ctl, List.length_dropLast]
      omega
    · exact h
  · exact h

/-- The loss of a reference clock other than SYSCLK writes no record to the log. -/
theorem clockEffect_clog (c : Nat) (s : State) :
    (if c < 4 then netClockLost c s else if c = 4 then pcieClockLost s
      else if s.fld F.HEP_LINK_STAT_UP = 1 then resetEndpoint 2 (dropHeLink s) else s).ctl.clog = s.ctl.clog := by
  split
  · exact clog_of_evolves (netClockLost_evolves Evolves.refl Sub.rfl : Evolves _ s _) (by decide)
  split
  · exact clog_of_evolves (pcieClockLost_evolves Evolves.refl Sub.rfl : Evolves _ s _) (by decide)
  split
  · rw [clog_of_evolves (resetEndpoint_evolves Evolves.refl Sub.rfl : Evolves _ _ (resetEndpoint 2 (dropHeLink s))) (by decide)]
    exact clog_of_evolves (dropHeLink_evolves Evolves.refl Sub.rfl : Evolves _ s _) (by decide)
  · rfl

theorem logBounded_coldReset (h : LogBounded s) (cause : Nat) : LogBounded (coldReset cause s) := by
  rwa [LogBounded, coldReset_clog]

theorem logBounded_warmReset (h : LogBounded s) (cause : Nat) : LogBounded (warmReset cause s) := by
  rwa [LogBounded, warmReset_clog]

theorem logBounded_powerGoodLoss {pgood : Fin 16} (hs : LogBounded s) (h : execPowerGoodLoss pgood s = .next t) :
    LogBounded t := by
  unfold execPowerGoodLoss at h
  dsimp only at h
  split at h
  · obtain rfl := Host.Outcome.next.inj h
    exact hs
  split at h
  · obtain rfl := Host.Outcome.next.inj h
    exact logBounded_coldReset (by exact hs) 1
  · obtain rfl := Host.Outcome.next.inj h
    refine logBounded_coldReset ?_ 3
    split
    · exact hs
    · exact logBounded_logCritical (by exact hs) _

theorem logBounded_thermTrip (hs : LogBounded s) (h : execThermTrip s = .next t) : LogBounded t := by
  unfold execThermTrip at h
  split at h
  · obtain rfl := Host.Outcome.next.inj h
    exact hs
  · obtain rfl := Host.Outcome.next.inj h
    exact logBounded_coldReset (by exact logBounded_logCritical (logBounded_unsayPowerFail hs) _) _

theorem logBounded_clockLost {clock : Fin 7} (hs : LogBounded s) (h : execClockLost clock s = .next t) : LogBounded t := by
  unfold execClockLost at h
  dsimp only at h
  split at h
  · obtain rfl := Host.Outcome.next.inj h
    exact hs
  split at h
  · split at h
    · obtain rfl := Host.Outcome.next.inj h
      exact hs
    · obtain rfl := Host.Outcome.next.inj h
      exact logBounded_coldReset (logBounded_logCritical (by exact hs) _) 3
  · obtain rfl := Host.Outcome.next.inj h
    rwa [LogBounded, clockEffect_clog]

/-- A warm reset under a condition, and nothing where it does not hold. -/
theorem logBounded_warmReset_ite {c : Prop} [Decidable c] {cause : Nat} (hs : LogBounded s)
    (h : (if c then .next (warmReset cause s) else .next s : Host.Outcome State Fault Refusal) = .next t) : LogBounded t := by
  split at h
  · obtain rfl := Host.Outcome.next.inj h
    exact logBounded_warmReset hs cause
  · obtain rfl := Host.Outcome.next.inj h
    exact hs

/-- A command that may begin a reset keeps the bound of the log. -/
theorem logBounded_of_reset {i : Instr} (hreset : isReset i = true) (hs : LogBounded s) (h : exec i s = .next t) :
    LogBounded t := by
  cases i
  case powerOnReset =>
    obtain rfl := Host.Outcome.next.inj h
    exact logBounded_coldReset (by exact hs) 1
  case fundamentalReset =>
    obtain rfl := Host.Outcome.next.inj h
    exact logBounded_coldReset (by exact hs) 2
  case warmResetPin =>
    obtain rfl := Host.Outcome.next.inj h
    exact logBounded_warmReset (by exact hs) 4
  case powerGoodLoss => exact logBounded_powerGoodLoss hs h
  case thermTrip => exact logBounded_thermTrip hs h
  case clockLost => exact logBounded_clockLost hs h
  case systemWatchdogExpiry => exact logBounded_warmReset_ite hs h
  case recoveryRestart => exact logBounded_warmReset_ite hs h
  case i3cRestart => exact logBounded_warmReset_ite hs ((ite_not ..).trans h)
  all_goals cases hreset

/-- EVENT_RECORD logs at most the record that reaches the router (R31). -/
theorem logBounded_eventRecord (hs : LogBounded s) (h : execEventRecord s = .next t) : LogBounded t := by
  cases hinflight : s.ctl.inflight with
  | nil =>
    unfold execEventRecord at h
    rw [hinflight] at h
    obtain rfl := Host.Outcome.next.inj h
    exact hs
  | cons r rest =>
    have harrived : LogBounded (arrived r rest s) := logBounded_logCritical (by exact hs) r
    rw [execEventRecord_of_inflight hinflight] at h
    split at h
    · obtain rfl := Host.Outcome.next.inj h
      rwa [LogBounded, emit_ctl, deliver_clog]
    · obtain rfl := Host.Outcome.next.inj h
      exact harrived

theorem exec_logBounded {i : Instr} (hs : LogBounded s) (h : exec i s = .next t) : LogBounded t := by
  cases hreset : isReset i with
  | true => exact logBounded_of_reset hreset hs h
  | false =>
    by_cases hclog : .clog ∈ mayChange i
    · obtain rfl := (mayChange_of_noReset hreset).2.2 hclog
      exact logBounded_eventRecord hs h
    · rwa [LogBounded, clog_of_evolves (exec_evolves h) hclog]

/-- Settles O9: the log changes only in EVENT_RECORD and in resets, and drops its oldest record for one past the bound. -/
theorem criticalLogStaysBounded : Obligations.CriticalLogStaysBounded := by
  intro s t hs hstep
  obtain ⟨-, rfl⟩ | ⟨i, rest, -, hexec⟩ := step_cases hstep
  · exact hs
  · exact exec_logBounded (by exact hs) hexec

/-! The reset state. -/

/-- The register file lists no register at reset, so that every word is its reset word (R14). -/
theorem rawWord_reset (a : Nat) : rawWord State.reset.regs a = resetWord a := rfl

/-- Nothing is listed in the tables at reset, so that they are in canonical form. -/
theorem canonical_reset : Canonical State.reset := ⟨by decide, by decide, by decide⟩

/-- Settles O2: the fields of the reset state. -/
theorem resetLeavesTheseValues : Obligations.ResetLeavesTheseValues :=
  ⟨rawWord_reset, rfl, rfl, rfl, rfl, rfl, rfl, rfl, rfl, rfl, rfl, rfl, rfl, canonical_reset⟩

end Sys2Proof.Machine
end

section
/-! PROOFS. The time base and the event router (R24 to R27, R31 to R33). -/

namespace Sys2Proof.Machine

variable {s : State} {offset : Int}

/-- A command completes with what holds of its effect. -/
theorem Completes.of_exec {i : Instr} {t : State} {p : State → Prop} (h : exec i s = .next t) (hp : p t) : Completes i s p :=
  ⟨t, h, hp⟩

/-! What the operations of the time base do to GTS. -/

@[simp] theorem onGts_gts (f : Gts → Gts) (s : State) : (onGts f s).ctl.gts = f s.ctl.gts := rfl
@[simp] theorem onGts_inflight (f : Gts → Gts) (s : State) : (onGts f s).ctl.inflight = s.ctl.inflight := rfl

theorem now_eq_gts (s : State) : s.now = s.ctl.gts.now := rfl

/-- What the choice of a source leaves of the time base: the time, and the lock where it is open. -/
theorem rechoose_gts (s : State) : (rechoose s).ctl.gts =
    if chooseSource s.ctl.gts = s.ctl.gts.source then s.ctl.gts
    else { s.ctl.gts with source := chooseSource s.ctl.gts, locked := false, good := 0 } := rfl

@[simp] theorem rechoose_now (s : State) : (rechoose s).now = s.now := by
  simp only [now_eq_gts, rechoose_gts]
  split <;> rfl

@[simp] theorem rechoose_inflight (s : State) : (rechoose s).ctl.inflight = s.ctl.inflight := rfl

@[simp] theorem rechoose_present (s : State) : (rechoose s).ctl.gts.present = s.ctl.gts.present := by
  rw [rechoose_gts]
  split <;> rfl

theorem rechoose_source (s : State) : (rechoose s).ctl.gts.source = chooseSource s.ctl.gts := by
  rw [rechoose_gts]
  split
  next h => exact h.symm
  next => rfl

theorem rechoose_unlocked (h : s.ctl.gts.locked = false) : (rechoose s).ctl.gts.locked = false := by
  rw [rechoose_gts]
  split
  · exact h
  · rfl

/-- A lost source is no longer among those present. -/
theorem loseSource_unlocked (s : State) : (loseSource s).ctl.gts.locked = false := rechoose_unlocked rfl

theorem loseSource_source (s : State) : (loseSource s).ctl.gts.source =
    chooseSource { s.ctl.gts with present := s.ctl.gts.present.filter (· != s.ctl.gts.source) } := by
  unfold loseSource
  dsimp only
  rw [rechoose_source]
  split <;> rfl

theorem loseSource_now (s : State) : (loseSource s).now = s.now := by
  unfold loseSource
  dsimp only
  rw [rechoose_now]
  split <;> rfl

/-- GTS_UNLOCKED of a source lost while GTS is locked to it (R26). -/
theorem emitted_loseSource (h : s.ctl.gts.locked = true) : Emitted s (loseSource s) 0x001 2 0x002 s.ctl.gts.source := by
  unfold loseSource
  dsimp only
  rw [if_pos h]
  exact emitted_emit 0x001 0x002 2 _ s

/-! Corrections (R24). -/

@[simp] theorem slewGts_now (offset : Int) (s : State) : (slewGts offset s).now = s.now := rfl
@[simp] theorem stepGts_now (ns : Nat) (s : State) : (stepGts ns s).now = s.now + ns := rfl

/-- A correction leaves the lock, the source and the count of good measurements. -/
theorem correctGts_lock (offset : Int) (align : Bool) (s : State) :
    (correctGts offset align s).ctl.gts.locked = s.ctl.gts.locked ∧
      (correctGts offset align s).ctl.gts.source = s.ctl.gts.source ∧
      (correctGts offset align s).ctl.gts.good = s.ctl.gts.good := by
  unfold correctGts
  split
  · exact ⟨rfl, rfl, rfl⟩
  split
  · exact ⟨rfl, rfl, rfl⟩
  split <;> exact ⟨rfl, rfl, rfl⟩

theorem correctGts_backward (h : offset < 0) (align : Bool) (s : State) : correctGts offset align s = slewGts offset s := by
  rw [correctGts, if_neg (by omega), if_pos h]

/-- A correction that is not backward leaves the time or steps it. -/
theorem correctGts_forward (h : 0 ≤ offset) (align : Bool) (s : State) :
    (correctGts offset align s).now = s.now ∨ (correctGts offset align s).now = s.now + offset.toNat := by
  unfold correctGts
  split
  · exact .inl rfl
  split
  · omega
  split
  · exact .inr rfl
  · exact .inl rfl

theorem correctGts_aligned (h : 0 < offset) (s : State) : (correctGts offset true s).now = s.now + offset.toNat := by
  rw [correctGts, if_neg (by omega), if_neg (by omega)]
  rfl

theorem slewGts_ppm (h : offset < 0) (s : State) :
    -500 ≤ (slewGts offset s).ctl.gts.ppm ∧ (slewGts offset s).ctl.gts.ppm ≤ 0 := by
  have hppm : (slewGts offset s).ctl.gts.ppm = -((s.freeVal.toNat % 501 : Nat) : Int) := if_pos h
  omega

/-! One measurement (R26). -/

/-- A measurement that keeps its source: its correction, and then at most the count of good measurements, the lock and its
event. -/
theorem measureGts_kept (align : Bool) (hsource : s.ctl.gts.source ≠ 4)
    (hlock : ¬(s.ctl.gts.locked = true ∧ 1000 < offset.natAbs)) :
    (measureGts offset align s).now = (correctGts offset align s).now ∧
      (measureGts offset align s).ctl.gts.ppm = (correctGts offset align s).ctl.gts.ppm := by
  unfold measureGts
  rw [if_neg hsource, if_neg hlock]
  dsimp only
  split
  · split <;> exact ⟨rfl, rfl⟩
  · exact ⟨rfl, rfl⟩

/-- The sixteenth good measurement locks GTS. -/
theorem measureGts_locks (align : Bool) (hsource : s.ctl.gts.source ≠ 4) (hgood : offset.natAbs < 100)
    (hlock : s.ctl.gts.locked = false) (hcount : s.ctl.gts.good = 15) :
    measureGts offset align s = emit 0x001 0x001 1 s.ctl.gts.source (onGts (fun g => { g with locked := true })
      (onGts (fun g => { g with good := g.good + 1 }) (correctGts offset align s))) := by
  simp [measureGts, hsource, hgood, hlock, hcount]

theorem exec_gtsMeasurement (offset : Int) (s : State) : exec (.gtsMeasurement offset) s = .next (measureGts offset false s) :=
  rfl

theorem exec_gtsMeasurementTimeout (h : s.ctl.gts.source ≠ 4) : exec .gtsMeasurementTimeout s = .next (loseSource s) :=
  congrArg Host.Outcome.next (if_neg h)

/-! The PPS input (R25). -/

theorem sourcePresent_gts (h : s.ctl.gts.present.contains 2 = true) (hsource : chooseSource s.ctl.gts = s.ctl.gts.source) :
    sourcePresent 2 s = s := by
  have hctl : (sourcePresent 2 s).ctl.gts = s.ctl.gts := by
    unfold sourcePresent
    rw [rechoose_gts, onGts_gts, if_pos h, if_pos hsource]
  change { s with ctl := { s.ctl with gts := (sourcePresent 2 s).ctl.gts } } = s
  rw [hctl]

theorem exec_ppsInEdge_of_source (h : (sourcePresent 2 s).ctl.gts.source = 2) :
    exec .ppsInEdge s = .next (onGts (fun g => { g with secondsSet := false })
      (measureGts ((ppsSecond (sourcePresent 2 s) : Int) - ((sourcePresent 2 s).now : Int)) true (sourcePresent 2 s))) :=
  if_pos h

theorem exec_ppsInEdge_of_other (h : (sourcePresent 2 s).ctl.gts.source ≠ 2) :
    exec .ppsInEdge s = .next (sourcePresent 2 s) := if_neg h

/-! Rings. -/

theorem rings_of_evolves {t : State} {w : List Part} (h : Evolves w s t) (hw : .rings ∉ w) : t.ctl.rings = s.ctl.rings :=
  congrArg Prod.fst (h.same .rings hw)

/-- Sending what a ring's reader has not had leaves the ring's records. -/
theorem sendRing_recs (v w : Nat) (s : State) : ((sendRing v s).ctl.rings.at w).recs = (s.ctl.rings.at w).recs := by
  unfold sendRing
  dsimp only
  split
  · simp only [usedSeq, onRing, State.onCtl, State.send, Tab.at_upd]
    split <;> simp_all
  · rfl

/-- A push appends its record with the ring's next number. -/
theorem ringPush_recs (v : Nat) (r : EventRec) (s : State) :
    ((ringPush v r s).ctl.rings.at v).recs = (s.ctl.rings.at v).recs ++ [((s.ctl.rings.at v).total + 1, r)] := by
  unfold ringPush
  dsimp only
  rw [sendRing_recs]
  split
  · rw [rings_of_evolves (raiseVector_evolves Evolves.refl Sub.rfl : Evolves _ _ (raiseVector _ _ _)) (by decide)]
    split <;> split <;> simp [onRing]
  · split <;> split <;> simp [onRing]

/-- A ring that has lost nothing and has room takes the record. -/
theorem ringEnter_of_room {v : Nat} (hlost : (s.ctl.rings.at v).lost = 0)
    (hroom : (s.ctl.rings.at v).recs.length < (s.ctl.rings.at v).capacity) (r : EventRec) :
    ringEnter r s v = ringPush v r s := by
  have hreport : ringReport v s = s := if_neg fun h => h.1 hlost
  simp [ringEnter, hreport, hroom]

/-- Without an EVENTS section a record enters ring 0 alone, where it takes its severity (R397). -/
theorem deliver_of_unmapped {r : EventRec} (hmap : s.ctl.ringMap = none) (hsev : s.fldI F.CTL_RING_CFG_MIN_SEV 0 ≤ r.severity) :
    deliver r s = ringEnter r s 0 := by
  have hrings : (List.range 8).filter (fun v =>
      ringMapped s r.event v && decide (s.fldI F.CTL_RING_CFG_MIN_SEV v ≤ r.severity)) = [0] := by
    simp [ringMapped, hmap, List.range, List.range.loop, hsev]
  rw [deliver, hrings]
  rfl

theorem exec_recordRelease_of_held {r : EventRec} (h : firstHeld s.ctl.held = some r) (hstep : 4 ≤ s.boot.step) :
    exec .recordRelease s = .next (deliver r (s.onCtl fun c => { c with held := c.held.erase r })) := by
  change execRecordRelease s = _
  simp [execRecordRelease, h, ringsRun, hstep]

theorem ringPush_held (v : Nat) (r : EventRec) (s : State) : (ringPush v r s).ctl.held = s.ctl.held :=
  (ringPush_evolves Evolves.refl Sub.rfl : Evolves _ s _).same .held (by decide)

/-- Settles O19: a measurement is the loss of its source, or its correction with the count of good ones; an edge of PPS is the
choice of a source, and a measurement where PPS is chosen; a record is logged and held, delivered late, or released into the
ring that takes it. -/
theorem timeAndRecordsComplete : Obligations.TimeAndRecordsComplete := by
  unfold Obligations.TimeAndRecordsComplete
  refine ⟨fun offset s hsource hlocked hfar => ?unlocked, fun offset s hsource hback hkept => ?slewed,
    fun offset s hforward => ?forward, fun offset s hsource hgood hopen hcount => ?locked, fun s hsource => ?timeout,
    fun s habsent hother => ?present, fun s hsource hchosen hpresent hopen hahead => ?aligned, fun s hsecond => ?second,
    fun s r rest hinflight hsoon => ?held, fun s r rest hinflight hlate hstep => ?late,
    fun s r hheld hstep hmap hsev hlost hroom => ?released⟩
  case unlocked =>
    have heq : measureGts offset false s = loseSource s := by rw [measureGts, if_neg hsource, if_pos ⟨hlocked, hfar⟩]
    refine .of_exec (exec_gtsMeasurement offset s) ?_
    rw [heq]
    exact ⟨loseSource_unlocked s, emitted_loseSource hlocked⟩
  case slewed =>
    obtain ⟨hnow, hppm⟩ := measureGts_kept false hsource hkept
    rw [correctGts_backward hback] at hnow hppm
    refine .of_exec (exec_gtsMeasurement offset s) ⟨hnow, ?_⟩
    rw [hppm]
    exact slewGts_ppm hback s
  case forward =>
    refine .of_exec (exec_gtsMeasurement offset s) ?_
    by_cases hsource : s.ctl.gts.source = 4
    · exact .inl (by rw [measureGts, if_pos hsource])
    · by_cases hlost : s.ctl.gts.locked = true ∧ 1000 < offset.natAbs
      · exact .inl (by rw [measureGts, if_neg hsource, if_pos hlost, loseSource_now])
      · rw [(measureGts_kept false hsource hlost).1]
        exact correctGts_forward hforward false s
  case locked =>
    refine .of_exec (exec_gtsMeasurement offset s) ?_
    rw [measureGts_locks false hsource hgood hopen hcount]
    exact ⟨rfl, emitted_emit_of 0x001 0x001 1 _ rfl⟩
  case timeout =>
    exact ⟨_, exec_gtsMeasurementTimeout hsource, loseSource_unlocked s, loseSource_source s, emitted_loseSource⟩
  case present =>
    have hgts : (onGts (fun g => if g.present.contains 2 then g else { g with present := 2 :: g.present }) s).ctl.gts =
        { s.ctl.gts with present := 2 :: s.ctl.gts.present } := by
      rw [onGts_gts, if_neg (by rw [habsent]; decide)]
    have hsource : (sourcePresent 2 s).ctl.gts.source ≠ 2 := by
      rwa [sourcePresent, rechoose_source, hgts]
    refine .of_exec (exec_ppsInEdge_of_other hsource) ?_
    rw [sourcePresent, rechoose_present, rechoose_now, now_eq_gts, hgts]
    exact ⟨rfl, rfl⟩
  case aligned =>
    have hstands : sourcePresent 2 s = s := sourcePresent_gts hpresent (hchosen.trans hsource.symm)
    refine ⟨_, exec_ppsInEdge_of_source (by rw [hstands, hsource]), ?_, rfl⟩
    rw [hstands]
    change (measureGts _ true s).now = _
    rw [(measureGts_kept true (by omega) (by simp [hopen])).1, correctGts_aligned (by omega)]
    omega
  case second => exact ⟨_, congrArg Host.Outcome.next (if_pos hsecond), rfl⟩
  case held =>
    have hexec : exec .eventRecord s = _ := execEventRecord_of_inflight hinflight
    rw [if_neg fun h => by have := arrived_now (r := r) (rest := rest) (s := s) ▸ h.1; omega] at hexec
    have hparts : (arrived r rest s).ctl.held = s.ctl.held ∧ (arrived r rest s).ctl.inflight = rest := by
      unfold arrived logCritical
      split <;> exact ⟨rfl, rfl⟩
    exact ⟨_, hexec, congrArg (· ++ [r]) hparts.1, hparts.2, fun hsev => mem_clog_arrived hsev⟩
  case late =>
    have hexec : exec .eventRecord s = _ := execEventRecord_of_inflight hinflight
    have hruns : ringsRun (arrived r rest s) = true := by
      have hboot : (arrived r rest s).boot = s.boot := by
        unfold arrived logCritical
        split <;> rfl
      simpa [ringsRun, hboot] using hstep
    rw [if_pos ⟨by rw [arrived_now]; omega, hruns⟩] at hexec
    refine ⟨_, hexec, emitted_emit_of 0x002 0x017 3 _ ?_⟩
    exact ((deliver_evolves Evolves.refl Sub.rfl : Evolves _ (arrived r rest s) _).now_eq (by decide)).trans arrived_now
  case released =>
    refine .of_exec (exec_recordRelease_of_held hheld hstep) ?_
    rw [deliver_of_unmapped (by exact hmap) (by exact hsev), ringEnter_of_room (by exact hlost) (by exact hroom)]
    exact ⟨ringPush_held 0 r _, ringPush_recs 0 r _⟩

end Sys2Proof.Machine
end

section
/-! PROOFS. Requests of the management protocol: a new request of an open session reaches its service, and a response is
sent (R385). -/

namespace Sys2Proof.Machine

variable {s t : State} {w : List Part} {r : Req}

/-- A register field of a block whose words stand. -/
theorem Evolves.fldI_eq (h : Evolves w s t) (f : Fld) (i : Nat) (hw : regPart f.base ∉ w) : t.fldI f i = s.fldI f i := by
  refine fldI_congr f i (regPart_same (h.same _ ?_))
  rwa [regPart_addr]

theorem Evolves.fld_eq (h : Evolves w s t) (f : Fld) (hw : regPart f.base ∉ w) : t.fld f = s.fld f := h.fldI_eq f 0 hw

/-- A request that is served: its session is open on its port, its tag is good, and its SEQ is new (R385). -/
structure Heard (s : State) (r : Req) : Prop where
  isOpen : sessionOpen s r.session = true
  port : (s.ctl.sessions.at r.session).port = r.port.val
  tag : r.tagOk = true
  seq : (s.ctl.sessions.at r.session).highSeq < r.seq

theorem Heard.of_sessions (h : Heard s r) (hs : t.ctl.sessions = s.ctl.sessions) : Heard t r := by
  obtain ⟨hopen, hport, htag, hseq⟩ := h
  exact ⟨by rwa [sessionOpen, hs], by rwa [hs], htag, by rwa [hs]⟩

theorem sessions_of_evolves (h : Evolves w s t) (hw : .sessions ∉ w) : t.ctl.sessions = s.ctl.sessions := h.same .sessions hw

/-- The session of a served request: its idle time runs anew, the Bone's lease is renewed, and the SEQ is the highest yet. -/
def heard (r : Req) (s : State) : State :=
  onSession r.session (fun x => { x with highSeq := r.seq })
    (renewBone (pathOf r.port.val) r.session
      (onSession r.session (fun x => { x with lastMsg := s.now, idleS := s.fld F.CTL_CFG_IDLE_S }) s))

theorem receive_of_heard (h : Heard s r) (run : State → State) : receive r run s = run (heard r s) := by
  obtain ⟨hopen, hport, htag, hseq⟩ := h
  simp [receive, hopen, hport, htag, hseq, heard]

/-- A listed entry that is not the default stays listed. -/
theorem Tab.look_upd_isSome {α : Type} [Inhabited α] [DecidableEq α] {t : Tab α} {k : Nat} {f : α → α}
    (h : f (t.at k) ≠ default) : ((t.upd k f).look k).isSome = true := by
  simp [Tab.upd, Tab.put, Tab.setD, h, Tab.look_ins]

theorem sessionOpen_onSession {id : Nat} {f : Session → Session} (h : f (s.ctl.sessions.at id) ≠ default) :
    sessionOpen (onSession id f s) id = true :=
  Tab.look_upd_isSome h

/-- The SEQ of a served request is not 0, so its session stays listed. -/
theorem sessionOpen_heard (h : Heard s r) : sessionOpen (heard r s) r.session = true := by
  refine sessionOpen_onSession fun hdefault => ?_
  have hseq : r.seq = 0 := congrArg Session.highSeq hdefault
  have := h.seq
  omega

theorem replied_respond (h : sessionOpen s r.session = true) (op st : Nat) (p : Reply) :
    Replied (respond r op st p s) r op st p := by
  simp [Replied, respond, h, usedSeq, onSession, State.send, Output.isReply]

/-- A response sent stays sent. -/
theorem Evolves.replied {op st : Nat} {p : Reply} (h : Evolves w s t) (hr : Replied s r op st p) : Replied t r op st p := by
  obtain ⟨o, ho, hreply⟩ := List.any_eq_true.1 hr
  exact List.any_eq_true.2 ⟨o, h.sent ho, hreply⟩

end Sys2Proof.Machine
end

section
/-! PROOFS. Fences of units: the fence itself, and what a group does with it (R35, R36, R43). -/

namespace Sys2Proof.Machine

variable {s t u : State} {w : List Part} {block unit cause : Nat}

theorem blocks_of_evolves (h : Evolves w s t) (hw : .fences ∉ w) : t.ctl.blocks = s.ctl.blocks := h.same .fences hw

theorem unitsLeft_congr (h : t.ctl.blocks = s.ctl.blocks) (block : Nat) : unitsLeft t block = unitsLeft s block := by
  simp [unitsLeft, fencedUnit, h]

/-- A unit stands fenced, and its event tells the cause and the units left (R35). -/
structure FenceTold (s t : State) (block unit cause : Nat) : Prop where
  isFenced : fencedUnit t block unit = true
  told : Emitted s t (blockSrc block) 3 0x004 (block * 2 ^ 32 + unit * 2 ^ 24 + cause * 2 ^ 16 + unitsLeft t block)

/-- What follows a fence keeps it, where it touches neither fences nor records. -/
theorem FenceTold.mono (h : FenceTold s t block unit cause) (hE : Evolves w t u) (hf : .fences ∉ w)
    (hr : w.contains .records = false) : FenceTold s u block unit cause := by
  have hblocks := blocks_of_evolves hE hf
  refine ⟨by rw [fencedUnit, hblocks]; exact h.isFenced, ?_⟩
  rw [unitsLeft_congr hblocks]
  exact hE.emitted_mono hr h.told

/-- The event is of the GTS at which the command is taken. -/
theorem FenceTold.of_now (h : FenceTold s t block unit cause) (hn : s.now = u.now) : FenceTold u t block unit cause :=
  ⟨h.isFenced, (emitted_now hn).1 h.told⟩

theorem fencedUnit_markFenced (block unit reason : Nat) (s : State) : fencedUnit (markFenced block unit reason s) block unit = true := by
  simp [fencedUnit, markFenced, onBlock]

/-- A fence of a unit that its group has and that is not fenced. -/
theorem fenceTold_fenceUnit (hunit : unit < unitsOf block) (hfree : fencedUnit s block unit = false) (reason : Nat) :
    FenceTold s (fenceUnit block unit reason s) block unit reason := by
  have hmark : FenceTold s (emit (blockSrc block) 0x004 3 (block * 2 ^ 32 + unit * 2 ^ 24 + reason * 2 ^ 16 +
      unitsLeft (markFenced block unit reason s) block) (markFenced block unit reason s)) block unit reason :=
    ⟨fencedUnit_markFenced block unit reason s, emitted_emit_of (blockSrc block) 0x004 3 _ rfl⟩
  unfold fenceUnit
  rw [if_neg (by simp [hfree, hunit])]
  dsimp only
  split
  · exact FenceTold.mono (FenceTold.mono (FenceTold.mono (FenceTold.mono hmark
        (emit_evolves Evolves.refl Sub.rfl) (by decide) (by decide))
      (boundEnter_evolves Evolves.refl Sub.rfl) (by decide) (by decide))
      (floorRole_evolves Evolves.refl Sub.rfl) (by decide) (by decide))
      (updateAna_evolves Evolves.refl Sub.rfl) (by decide) (by decide)
  · exact hmark

theorem fenceTold_fenceCore {core : Nat} (hunit : core < 16) (hfree : fencedUnit s 0 core = false) (onto reason : Nat) :
    FenceTold s (fenceCore core onto reason s) 0 core reason := by
  refine foldl_keeps (P := (FenceTold s · 0 core reason)) (fun t i h => ?_) _ _ (fenceTold_fenceUnit hunit hfree reason)
  split
  · exact ⟨h.isFenced, h.told⟩
  · exact h

theorem fenceTold_fenceBank (hunit : unit < 64) (hfree : fencedUnit s 3 unit = false) (reason : Nat) :
    FenceTold s (fenceBank unit reason s) 3 unit reason := by
  refine foldl_keeps (P := (FenceTold s · 3 unit reason)) (fun t i h => ?_) _ _ ?_
  · exact h.mono (refetch_evolves Evolves.refl Sub.rfl : Evolves _ t (refetch t i)) (by decide) (by decide)
  · exact (fenceTold_fenceUnit hunit hfree reason).mono
      (bankFenced_evolves Evolves.refl Sub.rfl : Evolves _ _ (bankFenced unit _)) (by decide) (by decide)

theorem fenceTold_fenceLayoutLane (hunit : unit < 16) (hfree : fencedUnit s 7 unit = false) (reason : Nat) :
    FenceTold s (fenceLayoutLane unit reason s) 7 unit reason := by
  have hfence := fenceTold_fenceUnit (block := 7) hunit hfree reason
  unfold fenceLayoutLane
  dsimp only
  split
  · exact hfence
  · refine FenceTold.mono (FenceTold.mono (FenceTold.mono (t := (fenceUnit 7 unit reason s).onLay _)
        ⟨hfence.isFenced, hfence.told⟩ (redo_evolves Evolves.refl Sub.rfl) (by decide) (by decide))
      (queueSlices_evolves Evolves.refl Sub.rfl) (by decide) (by decide))
      (dispatchSlices_evolves Evolves.refl Sub.rfl) (by decide) (by decide)

theorem fenceTold_fenceRootPort (hunit : unit < 48) (hfree : fencedUnit s 9 unit = false) (reason : Nat) :
    FenceTold s (fenceRootPort unit reason s) 9 unit reason := by
  rw [fenceRootPort, if_neg (by simp [hfree])]
  exact (fenceTold_fenceUnit hunit hfree reason).mono
    (portDown_evolves Evolves.refl Sub.rfl : Evolves _ _ (portDown unit 9 _)) (by decide) (by decide)

theorem fenceTold_fenceCipherLane (hunit : unit < 64) (hfree : fencedUnit s 10 unit = false) (reason : Nat) :
    FenceTold s (fenceCipherLane unit reason s) 10 unit reason := by
  have hfence := fenceTold_fenceUnit (block := 10) hunit hfree reason
  refine foldl_keeps (P := (FenceTold s · 10 unit reason)) (fun t i h => ?_) _ _ ⟨hfence.isFenced, hfence.told⟩
  exact h.mono (restartOp_evolves Evolves.refl Sub.rfl : Evolves _ t _) (by decide) (by decide)

/-- The cause of a leg's fence as its event tells it: 8 for an order, 7 for the boot self-test, 6 for its latch. -/
def legFenceReason (cause : Nat) : Nat := match cause with | 0 => 8 | 7 => 7 | _ => 6

theorem fenceTold_fenceLeg (hunit : unit < 48) (hfree : fencedUnit s 12 unit = false) (hstate : legState s unit ≠ 4) (cause : Nat) :
    FenceTold s (fenceLeg unit cause s) 12 unit (legFenceReason cause) := by
  unfold fenceLeg
  simp only [if_neg hstate]
  generalize hbefore : legTrip unit cause true _ = t
  have hE : Evolves [.legs, .regs, .regPwr, .events, .counters, .sampling] s t := by
    subst hbefore
    refine legTrip_evolves (withdrawPg_evolves (setLeg_evolves (gateOff_evolves (state_setFldI_evolves
      (state_setFldI_evolves Evolves.refl ?_) ?_) ?_) ?_) ?_) ?_ <;> exact Sub.of Sub.rfl rfl
  have hfree' : fencedUnit t 12 unit = false := by rwa [fencedUnit, blocks_of_evolves hE (by decide)]
  have hfence := fenceTold_fenceUnit (block := 12) hunit hfree' (legFenceReason cause)
  exact (hfence.mono (drvLegTrip_evolves Evolves.refl Sub.rfl) (by decide) (by decide)).of_now (hE.now_eq (by decide))

/-- A unit of any group is fenced; the cause told is the reason, but for a slot leg. -/
theorem fenceTold_fenceAny (hunit : unit < unitsOf block) (hfree : fencedUnit s block unit = false)
    (hleg : block = 12 → legState s unit ≠ 4) (reason : Nat) :
    FenceTold s (fenceAny block unit reason s) block unit
      (if block = 12 then legFenceReason (match reason with | 8 => 0 | 7 => 7 | _ => 5) else reason) := by
  unfold fenceAny
  rw [if_neg (by simp [hfree, hunit])]
  unfold unitsOf at hunit
  split at hunit
  · exact fenceTold_fenceCore hunit hfree unit reason
  · exact fenceTold_fenceBank hunit hfree reason
  · exact fenceTold_fenceLayoutLane hunit hfree reason
  · exact fenceTold_fenceRootPort hunit hfree reason
  · exact fenceTold_fenceCipherLane hunit hfree reason
  · exact fenceTold_fenceLeg hunit hfree (hleg rfl) _
  · omega

/-! Orders of a fenced core. -/

theorem fenceTold_repeatOrder (h : FenceTold s t block unit cause) (request : Option (Req × Nat)) :
    FenceTold s (repeatOrder request t) block unit cause :=
  h.mono (repeatOrder_evolves Evolves.refl Sub.rfl) (by decide) (by decide)

/-- A management order in progress on a core that is fenced is answered REPEAT (R36). -/
theorem replied_repeatOrder {r : Req} (h : Heard s r) (op : Nat) : Replied (repeatOrder (some (r, op)) s) r op 0x0C .none := by
  have heq : repeatOrder (some (r, op)) s = respond r op 0x0C .none (heard r s) := receive_of_heard h _
  rw [heq]
  exact replied_respond (sessionOpen_heard h) op 0x0C .none

theorem fenceCore_sessions (core onto reason : Nat) (s : State) : (fenceCore core onto reason s).ctl.sessions = s.ctl.sessions :=
  sessions_of_evolves (fenceCore_evolves Evolves.refl Sub.rfl) (by decide)

theorem exec_controlCoreWatchdog_of_free {core : Fin 16} (h : fencedUnit s 0 core.val = false) (onto : Fin 16)
    (request : Option (Req × Nat)) :
    exec (.controlCoreWatchdog core onto request) s = .next (repeatOrder request (fenceCore core.val onto.val 4 s)) :=
  if_neg (by simp [h])

theorem exec_unitFenced_of_free {block : Fin 16} (hunit : unit < unitsOf block.val) (h : fencedUnit s block.val unit = false)
    (reason : Nat) (request : Option (Req × Nat)) :
    exec (.unitFenced block unit reason request) s =
      .next (if block.val = 0 then repeatOrder request (fenceAny block.val unit reason s) else fenceAny block.val unit reason s) := by
  change execUnitFenced block unit reason request s = _
  simp [execUnitFenced, h, hunit]

theorem fenceAny_core {core : Nat} (hunit : core < 16) (h : fencedUnit s 0 core = false) (reason : Nat) :
    fenceAny 0 core reason s = fenceCore core core reason s :=
  if_neg (by simp [h, unitsOf, hunit])

/-! Fence orders (R43). -/

/-- The write of PREFIX_FENCE, as its gate leaves the state. -/
def fenceGated (path : Fin 5) (session block unit : Nat) (s : State) : State :=
  (writeGate path.val session (block * 0x1000000 + 0x18) (BitVec.ofNat 32 unit) s).1

theorem fenceGated_evolves (path : Fin 5) (session block unit : Nat) (s : State) :
    Evolves [.events, .sessions, .marks, .counters, .sampling, .regs, .regCtl, .out] s (fenceGated path session block unit s) :=
  writeGate_evolves Evolves.refl Sub.rfl

theorem fenceGated_blocks (path : Fin 5) (session block unit : Nat) (s : State) :
    (fenceGated path session block unit s).ctl.blocks = s.ctl.blocks :=
  blocks_of_evolves (fenceGated_evolves path session block unit s) (by decide)

theorem exec_prefixFenceOrder_of_mayWrite {path : Fin 5} {session : Nat} {block : Fin 16}
    (hwrite : MayWrite path session (block.val * 0x1000000 + 0x18) s) (hsmall : unit < 256) (hunit : unit < unitsOf block.val)
    (hfree : fencedUnit s block.val unit = false) :
    exec (.prefixFenceOrder path session block unit) s =
      if unitsLeft s block.val < floorOf block.val + 1 then
        .next (emit (blockSrc block.val) 0x006 2 (block.val * 2 ^ 32 + unitsLeft s block.val)
          (fenceGated path session block.val unit s))
      else .next (fenceAny block.val unit 8 (fenceGated path session block.val unit s)) := by
  have hblocks := fenceGated_blocks path session block.val unit s
  have hgated : fencedUnit (fenceGated path session block.val unit s) block.val unit = false := by rwa [fencedUnit, hblocks]
  change execPrefixFenceOrder path session block unit s = _
  unfold execPrefixFenceOrder
  unfold fenceGated at hgated hblocks ⊢
  simp only [Nat.mod_eq_of_lt hsmall, writeGate_performed _ hwrite, hgated, unitsLeft_congr hblocks]
  simp [hunit]

/-- Settles O20: a failed unit, a watchdog and an order each end in the fence of the unit's group; what follows the fence touches
neither the fences nor the event, and no session. -/
theorem fenceCommandsComplete : Obligations.FenceCommandsComplete := by
  unfold Obligations.FenceCommandsComplete
  refine ⟨fun block unit reason request s hunit hfree hleg => ?failed, fun core onto request s hfree => ?watchdog,
    fun core onto r op s hfree hopen hport htag hseq => ?repeated, fun core reason r op s hfree hopen hport htag hseq => ?failedCore,
    fun path session block unit s hwrite hsmall hunit hfree hfloor hleg => ?ordered,
    fun path session block unit s hwrite hsmall hunit hfree hfloor => ?floor⟩
  case failed =>
    have hfence := fenceTold_fenceAny hunit hfree hleg reason
    have hrepeat := fenceTold_repeatOrder hfence request
    refine .of_exec (exec_unitFenced_of_free hunit hfree reason request) ?_
    split
    · exact ⟨hrepeat.isFenced, _, fun hblock => if_neg hblock, hrepeat.told⟩
    · exact ⟨hfence.isFenced, _, fun hblock => if_neg hblock, hfence.told⟩
  case watchdog =>
    have hfence := fenceTold_repeatOrder (fenceTold_fenceCore core.isLt hfree onto.val 4) request
    exact .of_exec (exec_controlCoreWatchdog_of_free hfree onto request) ⟨hfence.isFenced, by simpa [blockSrc] using hfence.told⟩
  case repeated =>
    exact .of_exec (exec_controlCoreWatchdog_of_free hfree onto _)
      (replied_repeatOrder (Heard.of_sessions ⟨hopen, hport, htag, hseq⟩ (fenceCore_sessions ..)) op)
  case failedCore =>
    refine .of_exec (exec_unitFenced_of_free (block := 0) core.isLt hfree reason _) ?_
    have heq : fenceAny (0 : Fin 16).val core.val reason s = fenceCore core.val core.val reason s := fenceAny_core core.isLt hfree reason
    rw [if_pos (by rfl), heq]
    exact ⟨(fenceTold_repeatOrder (fenceTold_fenceCore core.isLt hfree core.val reason) _).isFenced,
      replied_repeatOrder (Heard.of_sessions ⟨hopen, hport, htag, hseq⟩ (fenceCore_sessions ..)) op⟩
  case ordered =>
    have hE := fenceGated_evolves path session block.val unit s
    have hfree' : fencedUnit (fenceGated path session block.val unit s) block.val unit = false := by
      rwa [fencedUnit, fenceGated_blocks]
    have hfence := (fenceTold_fenceAny hunit hfree' (fun hb => by
      rw [legState, hE.fldI_eq _ _ (by decide)]
      exact hleg hb) 8).of_now (hE.now_eq (by decide))
    refine .of_exec ((exec_prefixFenceOrder_of_mayWrite hwrite hsmall hunit hfree).trans (if_neg (by omega))) ⟨hfence.isFenced, ?_⟩
    simpa [legFenceReason] using hfence.told
  case floor =>
    have hE := fenceGated_evolves path session block.val unit s
    refine .of_exec ((exec_prefixFenceOrder_of_mayWrite hwrite hsmall hunit hfree).trans (if_pos (by omega))) ⟨?_, ?_⟩
    · rw [fencedUnit, emit_ctl]
      exact (congrArg (fun b : Tab BlockState => bitAt (b.at block.val).fenced unit) (fenceGated_blocks ..)).trans hfree
    · exact emitted_emit_of (blockSrc block.val) 0x006 2 _ (hE.now_eq (by decide))

end Sys2Proof.Machine
end

section
/-! PROOFS. The Bone through CTL_BONE_REQ and its expiry, the image lock, and the rings that PF0 reads (R394, R399, R404). -/

namespace Sys2Proof.Machine

variable {s : State}

/-! The gate of a write leaves the Bone and the rings, and the registers that a request of the Bone reads. -/

@[simp] theorem writeGate_bone (path session addr : Nat) (value : Word) (s : State) :
    (writeGate path session addr value s).1.ctl.bone = s.ctl.bone :=
  (writeGate_evolves Evolves.refl Sub.rfl : Evolves _ s _).same .bone (by decide)

@[simp] theorem writeGate_rings (path session addr : Nat) (value : Word) (s : State) :
    (writeGate path session addr value s).1.ctl.rings = s.ctl.rings :=
  rings_of_evolves (writeGate_evolves Evolves.refl Sub.rfl) (by decide)

@[simp] theorem writeGate_now (path session addr : Nat) (value : Word) (s : State) :
    (writeGate path session addr value s).1.now = s.now :=
  (writeGate_evolves Evolves.refl Sub.rfl : Evolves _ s _).now_eq (by decide)

/-- A register of CTL below its path and conflict registers. -/
theorem writeGate_fld_low (path : Fin 5) (session addr : Nat) (value : Word) {f : Fld} (h : f.addr 0 < 0x70) (s : State) :
    (writeGate path.val session addr value s).1.fld f = s.fld f :=
  writeGate_fldI _ _ _ _ path.isLt f 0 (.inr h)

/-- A request of the Bone that PF0 may write runs after the gate of its write (R404). -/
theorem boneReq_of_pf0 {session : Nat} (h : MayWrite 4 session 0x50 s) (value : Word) (run : State → State) :
    boneReq 4 session value run s = run (writeGate 4 session 0x50 value s).1 := by
  have haddr : F.CTL_BONE_REQ_OP.addr 0 = 0x50 := by decide
  have hgo : (writeGate (4 : Fin 5).val session 0x50 value s).2 = true := writeGate_performed value h
  unfold boneReq
  simp only [haddr]
  rw [if_pos ⟨hgo, rfl⟩]
  rfl

/-- The data of a Bone event names PF0 by its path (R404). -/
theorem boneData_pf0 (leaseEnd leaseLen : Nat) : Bone.data ⟨true, 4, 0, leaseEnd, leaseLen⟩ = 4 * 2 ^ 16 := by
  rw [Bone.data, Nat.zero_mod, Nat.add_zero]

theorem grantBone_pf0 (lease : Nat) (s : State) :
    grantBone 4 0 lease s = emit 0x004 0x008 1 (4 * 2 ^ 16)
      (s.onCtl fun c => { c with bone := ⟨true, 4, 0, s.now + lease * 1000000000, lease * 1000000000⟩ }) := by
  rw [← boneData_pf0 (s.now + lease * 1000000000) (lease * 1000000000)]
  rfl

theorem releaseBone_of_held (h : s.ctl.bone.held = true) :
    releaseBone s = emit 0x004 0x009 1 s.ctl.bone.data (s.onCtl fun c => { c with bone := default }) := if_pos h

theorem held_of_holdsBone {path session : Nat} (h : holdsBone s path session = true) : s.ctl.bone.held = true := by
  simp only [holdsBone, Bool.and_eq_true] at h
  exact h.1.1

/-- What holds the Bone does not turn on the gate of a write. -/
theorem holdsBone_writeGate (p n path session addr : Nat) (value : Word) (s : State) :
    holdsBone (writeGate path session addr value s).1 p n = holdsBone s p n := by
  rw [holdsBone, writeGate_bone]
  rfl

/-- The holder's session is told of the end of its lease, which changes no register. -/
theorem exec_boneExpired_of_held (h : s.ctl.bone.held = true) : ∃ t, exec .boneExpired s = .next t ∧
    Evolves [.sessions, .out] (emit 0x004 0x00A 2 s.ctl.bone.data (s.onCtl fun c => { c with bone := default })) t := by
  have hexec : exec .boneExpired s = .next _ := if_neg (by simp [h])
  refine ⟨_, hexec, ?_⟩
  split
  · exact .refl
  · exact direct_evolves .refl Sub.rfl

/-! The image lock. -/

/-- The write of CTL_LOCK is that of its one field, which a write only sets (R9). -/
theorem storeWord_ctlLock (value : Word) (s : State) :
    storeWord 0x44 value s = s.setFld F.CTL_LOCK_IMAGE_LOCK (s.fld F.CTL_LOCK_IMAGE_LOCK ||| bitsOf value.toNat 0 0) := rfl

theorem locked_storeWord_ctlLock {value : Word} (h : value.toNat % 2 = 1) (s : State) : (storeWord 0x44 value s).locked = true := by
  have hset : bitsOf value.toNat 0 0 = 1 := by simpa [bitsOf] using h
  rw [storeWord_ctlLock, hset, State.locked, fld_setFld_same _ _ (by decide) (by decide)]
  simp [F.CTL_LOCK_IMAGE_LOCK]

/-! The rings of PF0. -/

theorem ringCfg_addr {v : Nat} (h : v < 8) : F.CTL_RING_CFG_READER.addr v = 0x200 + 4 * v := by
  simp only [Fld.addr, F.CTL_RING_CFG_READER]
  omega

theorem ringRead_addr {i : Nat} (h : i < 32) : F.CTL_RING_READ_DATA.addr i = 0x280 + 4 * i := by
  simp only [Fld.addr, F.CTL_RING_READ_DATA]
  omega

@[simp] theorem storeWord_ctl (addr : Nat) (value : Word) (s : State) : (storeWord addr value s).ctl = s.ctl := by
  unfold storeWord
  split <;> rfl

/-- A write of a ring's configuration that PF0 may make: its plain effect, and then that of READER. -/
theorem exec_ringReaderBind_of_mayWrite {session : Nat} {ring : Fin 8} (h : MayWrite 4 session (0x200 + 4 * ring.val) s)
    (value : Word) : ∃ u, u.ctl.rings = s.ctl.rings ∧
      exec (.ringReaderBind 4 session ring value) s = .next
        (if bitsOf value.toNat 31 30 = 1 ∧ (s.ctl.rings.at ring.val).reader = 0 then onRing ring.val (fun r => { r with reader := 1 }) u
        else if bitsOf value.toNat 31 30 = 0 ∧ (s.ctl.rings.at ring.val).reader = 1 then releaseRing ring.val u
        else u) := by
  refine ⟨storeWord (0x200 + 4 * ring.val) value (writeGate 4 session (0x200 + 4 * ring.val) value s).1, by simp, ?_⟩
  have hgo : (writeGate (4 : Fin 5).val session (0x200 + 4 * ring.val) value s).2 = true := writeGate_performed value h
  change execRingReaderBind 4 session ring value s = _
  unfold execRingReaderBind
  simp only [ringCfg_addr ring.isLt, hgo, storeWord_ctl, writeGate_rings]
  rfl

theorem readLive_of_pf0Open (h : pf0Open s = true) : readLive s (4 : Fin 5).val = true := by
  simp only [pf0Open, Bool.and_eq_true, decide_eq_true_eq] at h
  exact decide_eq_true (by omega)

theorem exec_ringReadSnapshot_of_open {ring : Fin 8} (h : pf0Open s = true) (hreader : (s.ctl.rings.at ring.val).reader = 1) :
    exec (.ringReadSnapshot 4 ring) s = .next (answerRead 4 (0x280 + 16 * ring.val)
      (ringSnapWord (onRing ring.val (fun r => { r with snap := r.recs.head?.map (·.2) }) s) ring.val 0)
      (onRing ring.val (fun r => { r with snap := r.recs.head?.map (·.2) }) s)) := by
  change execRingReadSnapshot 4 ring s = _
  unfold execRingReadSnapshot
  rw [ringRead_addr (by omega)]
  simp only [readLive_of_pf0Open h, h, ringSnapshot, hreader]
  simp [← Nat.mul_assoc]

theorem exec_ringReadRemove_of_open {ring : Fin 8} {r : EventRec} (h : pf0Open s = true)
    (hreader : (s.ctl.rings.at ring.val).reader = 1) (hsnap : (s.ctl.rings.at ring.val).snap = some r)
    (hlost : (s.ctl.rings.at ring.val).lost = 0) :
    exec (.ringReadRemove 4 ring) s = .next (answerRead 4 (0x28C + 16 * ring.val) (ringSnapWord s ring.val 3)
      (onRing ring.val (fun r => { r with recs := r.recs.drop 1, snap := none }) s)) := by
  have hreport : ringReport ring.val (onRing ring.val (fun r => { r with recs := r.recs.drop 1, snap := none }) s) =
      onRing ring.val (fun r => { r with recs := r.recs.drop 1, snap := none }) s :=
    if_neg fun hne => hne.1 (by simp [onRing, hlost])
  have haddr : F.CTL_RING_READ_DATA.addr (4 * ring.val + 3) = 0x28C + 16 * ring.val := by rw [ringRead_addr (by omega)]; omega
  change execRingReadRemove 4 ring s = _
  unfold execRingReadRemove
  simp only [haddr, readLive_of_pf0Open h, h, ringRemove, hreader, hsnap, hreport]
  simp

/-- Settles O21: a request of the Bone is its gate and the change of the Bone with its event; a write of a ring's configuration
is its gate, its stored word and the change of the reader; a read of a ring is the change of its snapshot and the word sent. -/
theorem boneRingAndLockCommandsComplete : Obligations.BoneRingAndLockCommandsComplete := by
  unfold Obligations.BoneRingAndLockCommandsComplete
  refine ⟨fun session value s hwrite hcfg hfree => ?acquired, fun session value s hwrite hholds => ?released,
    fun session value s hwrite hholds => ?renewed, fun s hheld => ?expired, fun path session value s hwrite hset hopen => ?locked,
    fun session ring value s hwrite hfree hvalue => ?bound, fun session ring value s hwrite hreader hvalue => ?unbound,
    fun ring r rest s hopen hreader hrecs => ?snapshot, fun ring r s hopen hreader hsnap hlost => ?removed⟩
  case acquired =>
    have hlease : (writeGate 4 session 0x50 value s).1.fld F.CTL_CFG_LEASE_S = s.fld F.CTL_CFG_LEASE_S :=
      writeGate_fld_low 4 session 0x50 value (by decide) s
    have hpf0 : (writeGate 4 session 0x50 value s).1.fld F.CTL_CFG_PF0_BONE = s.fld F.CTL_CFG_PF0_BONE :=
      writeGate_fld_low 4 session 0x50 value (by decide) s
    refine .of_exec (congrArg Host.Outcome.next (boneReq_of_pf0 hwrite value _)) ?_
    rw [if_neg (by omega), writeGate_bone, if_neg (by simp [hfree]), leaseOf, if_pos rfl, grantBone_pf0, hlease, writeGate_now]
    exact ⟨rfl, emitted_emit_of 0x004 0x008 1 _ (writeGate_now ..)⟩
  case released =>
    refine .of_exec (congrArg Host.Outcome.next (boneReq_of_pf0 hwrite value _)) ?_
    rw [holdsBone_writeGate, if_pos hholds, releaseBone_of_held (by rw [writeGate_bone]; exact held_of_holdsBone hholds),
      writeGate_bone]
    exact ⟨rfl, emitted_emit_of 0x004 0x009 1 _ (writeGate_now ..)⟩
  case renewed =>
    refine .of_exec (congrArg Host.Outcome.next (boneReq_of_pf0 hwrite value _)) ?_
    rw [renewBone, holdsBone_writeGate, if_pos hholds]
    simp
  case expired =>
    obtain ⟨t, hexec, hE⟩ := exec_boneExpired_of_held hheld
    refine .of_exec hexec ⟨?_, hE.emitted_mono (by decide) (emitted_emit_of 0x004 0x00A 2 _ rfl), hE.same .regs (by decide)⟩
    have hbone : t.ctl.bone = default := hE.same .bone (by decide)
    rw [hbone]
    rfl
  case locked =>
    have haddr : F.CTL_LOCK_IMAGE_LOCK.addr 0 = 0x44 := by decide
    refine .of_exec (t := storeWord 0x44 value s) ?_ (locked_storeWord_ctlLock hset s)
    change execCtlLockSet path session value s = _
    unfold execCtlLockSet
    rw [haddr, writeGate_eq value hwrite hopen]
    rfl
  case bound =>
    obtain ⟨u, hrings, hexec⟩ := exec_ringReaderBind_of_mayWrite hwrite value
    rw [if_pos ⟨hvalue, hfree⟩] at hexec
    exact .of_exec hexec (by simp [onRing, hrings])
  case unbound =>
    obtain ⟨u, hrings, hexec⟩ := exec_ringReaderBind_of_mayWrite hwrite value
    rw [if_neg (by omega), if_pos ⟨hvalue, hreader⟩] at hexec
    exact .of_exec hexec (by simp [releaseRing, onRing, hrings])
  case snapshot =>
    have hsnap : ((onRing ring.val (fun r => { r with snap := r.recs.head?.map (·.2) }) s).ctl.rings.at ring.val).snap =
        some r.2 := by simp [onRing, hrecs]
    refine .of_exec (exec_ringReadSnapshot_of_open hopen hreader) ⟨hsnap, ?_⟩
    rw [ringSnapWord, hsnap]
    exact sent_send _ _
  case removed =>
    refine .of_exec (exec_ringReadRemove_of_open hopen hreader hsnap hlost) ⟨by simp [answerRead, onRing, State.send],
      by simp [answerRead, onRing, State.send], ?_⟩
    rw [ringSnapWord, hsnap]
    exact sent_send _ _

end Sys2Proof.Machine
end

section
/-! PROOFS. Controllers and queues: Connect, properties, the writes of CC, Disconnect, the end of a drain and of a Keep Alive
time (R46, R69 to R71). -/

namespace Sys2Proof.Machine

variable {s t u : State} {w : List Part} {cntlid sqid cid cc : Nat}

/-! Parts that stand. -/

theorem ctrls_of_evolves (h : Evolves w s t) (hw : .controllers ∉ w) : t.cmd.ctrls = s.cmd.ctrls := h.same .controllers hw

theorem queues_of_evolves (h : Evolves w s t) (hw : .queues ∉ w) : t.cmd.queues = s.cmd.queues := h.same .queues hw

theorem ctrlOf_of_evolves (h : Evolves w s t) (hw : .controllers ∉ w) (id : Nat) : ctrlOf t id = ctrlOf s id :=
  congrArg (·.at id) (ctrls_of_evolves h hw)

theorem queueOf_of_evolves (h : Evolves w s t) (hw : .queues ∉ w) (cntlid sqid : Nat) : queueOf t cntlid sqid = queueOf s cntlid sqid :=
  congrArg (·.at (qKey cntlid sqid)) (queues_of_evolves h hw)

theorem table_of_evolves (h : Evolves w s t) (hw : .commands ∉ w) : t.cmd.table = s.cmd.table := by
  have hsame := h.same .commands hw
  simp only [Part.Same, Prod.mk.injEq] at hsame
  exact hsame.2.1

/-- What is sent after a completion leaves it sent. -/
theorem Evolves.answered {st : Status} {dw0 : Nat} (h : Evolves w t u) (ha : Answered s t cntlid sqid cid st dw0) :
    Answered s u cntlid sqid cid st dw0 := fun hroom => h.sent (ha hroom)

/-- A completion posted after updates that touch neither the queue nor the host endpoint. -/
theorem answered_of_stands {st : Status} {dw0 : Nat} (h : Answered u t cntlid sqid cid st dw0)
    (hq : queueOf u cntlid sqid = queueOf s cntlid sqid) (hh : u.hep = s.hep) : Answered s t cntlid sqid cid st dw0 := by
  unfold Answered HostRoom cqOf fnOf at h ⊢
  rwa [hq, hh] at h

/-! A controller's fields after an update of it. -/

@[simp] theorem ctrlOf_onCtrl_same (id : Nat) (f : Controller → Controller) (s : State) : ctrlOf (onCtrl id f s) id = f (ctrlOf s id) := by
  simp [ctrlOf, onCtrl]

@[simp] theorem queueOf_onCtrl (id : Nat) (f : Controller → Controller) (s : State) (cntlid sqid : Nat) :
    queueOf (onCtrl id f s) cntlid sqid = queueOf s cntlid sqid := rfl

@[simp] theorem onCtrl_hep (id : Nat) (f : Controller → Controller) (s : State) : (onCtrl id f s).hep = s.hep := rfl
@[simp] theorem onCtrl_boot (id : Nat) (f : Controller → Controller) (s : State) : (onCtrl id f s).boot = s.boot := rfl
@[simp] theorem fnOf_onCtrl (id : Nat) (f : Controller → Controller) (s : State) (k : Nat) : fnOf (onCtrl id f s) k = fnOf s k := rfl
@[simp] theorem onCtrl_now (id : Nat) (f : Controller → Controller) (s : State) : (onCtrl id f s).now = s.now := rfl
@[simp] theorem onCtrl_table (id : Nat) (f : Controller → Controller) (s : State) : (onCtrl id f s).cmd.table = s.cmd.table := rfl

theorem post_evolves_refl (cntlid sqid cid : Nat) (st : Status) (dw0 : Nat) (inv : Option Nat) (s : State) :
    Evolves [.contexts, .functions, .hostQueues, .leash, .replicas, .out] s (post cntlid sqid cid st dw0 inv s) :=
  post_evolves .refl Sub.rfl

theorem postAdmin_evolves_refl (a : Admin) (st : Status) (dw0 : Nat) (s : State) :
    Evolves [.contexts, .functions, .hostQueues, .leash, .replicas, .out] s (postAdmin a st dw0 s) :=
  postAdmin_evolves .refl Sub.rfl

theorem answerSet_evolves_refl (cntlid : Nat) (cid : Option Nat) (s : State) :
    Evolves [.contexts, .functions, .hostQueues, .leash, .replicas, .out] s (answerSet cntlid cid s) :=
  answerSet_evolves .refl Sub.rfl

/-! Connect (R46). -/

/-- A Connect on a connection that may carry one and carries no queue is tested. -/
theorem runConnect_of_carries {conn qid size kato : Nat} {nqn : Bytes} (h : (ctxOf s conn).carriesConnect = true)
    (hfree : (ctxOf s conn).sqid = 0xFFFF) :
    runConnect conn nqn qid size cntlid cid kato s =
      match connectTest s nqn qid size cntlid with
      | some st =>
        answerConnect conn cntlid qid cid st
          (emit 0x560 0x60C 1 (st.sc * 2 ^ 16 + (hostIndex s nqn).getD 0xFFF % 4096) s)
      | none =>
        let h := (hostIndex s nqn).getD 0
        let id := if qid = 0 then nextCntlid s else cntlid
        let cls := if qid = 0 then 2 else classOf s h qid
        let s' := if qid = 0 then (onCtrl id (fun _ => { (default : Controller) with
          exists_ := true, host := h, kato := kato, kaStart := s.now, queues := 128, pm := 3 }) s).onCmd
            fun c => { c with lastCntlid := id } else s
        answerConnect conn id qid cid stOk (onCtx conn (fun c => { c with
          cntlid := id, sqid := qid, class0 := decide (qid ≠ 0 ∧ cls = 0) }) (s'.onCmd fun c => { c with
            queues := c.queues.put (qKey id qid) { (default : Queue) with
              exists_ := true, size := size, cls := cls, port := (ctxOf s conn).lport, conn := conn } })) := by
  unfold runConnect
  rw [h, if_pos hfree]
  cases connectTest s nqn qid size cntlid <;> rfl

theorem exec_connect_of_awake (h : Awake s) (conn : Nat) (nqn : Bytes) (qid size cntlid cid kato : Nat) :
    exec (.connect conn nqn qid size cntlid cid kato) s = .next (runConnect conn nqn qid size cntlid cid kato s) :=
  congrArg Host.Outcome.next (hold_of_awake h)

theorem sent_answerConnect (conn cntlid qid cid : Nat) (st : Status) (s : State) :
    .completion cntlid qid cid st cntlid ∈ (answerConnect conn cntlid qid cid st s).out :=
  (sendResponse_evolves .refl Sub.rfl : Evolves _ _ (sendResponse conn cid st cntlid none _)).sent (sent_send _ s)

theorem answerConnect_evolves_refl (conn cntlid qid cid : Nat) (st : Status) (s : State) :
    Evolves [.contexts, .leash, .replicas, .out] s (answerConnect conn cntlid qid cid st s) :=
  answerConnect_evolves .refl Sub.rfl

@[simp] theorem onCtx_cmd (qpn : Nat) (f : Context → Context) (s : State) : (onCtx qpn f s).cmd = s.cmd := rfl

/-! Writes of CC (R69). -/

/-- The other fields of CC are stored first. -/
def ccStored (id cc : Nat) (s : State) : State := onCtrl id (fun c => { c with cc := cc % 2 ^ 32 }) s

theorem ctrlOf_ccStored (id cc : Nat) (s : State) : ctrlOf (ccStored id cc s) id = { ctrlOf s id with cc := cc % 2 ^ 32 } :=
  ctrlOf_onCtrl_same ..

/-- A write of CC that changes neither SHN nor EN. -/
theorem ccWrite_of_other (hexists : (ctrlOf s cntlid).exists_ = true) (hshn : bitsOf cc 15 14 = bitsOf (ctrlOf s cntlid).cc 15 14)
    (hen : bitAt cc 0 = bitAt (ctrlOf s cntlid).cc 0) : ccWrite cntlid cc s = ccStored cntlid cc s := by
  simp [ccWrite, hexists, hshn, hen, ccStored]

/-- A write of CC that changes EN alone. -/
theorem ccWrite_of_en (hexists : (ctrlOf s cntlid).exists_ = true) (hshn : bitsOf cc 15 14 = bitsOf (ctrlOf s cntlid).cc 15 14)
    (hen : bitAt cc 0 ≠ bitAt (ctrlOf s cntlid).cc 0) :
    ccWrite cntlid cc s = enWritten cntlid (bitAt cc 0) (ccStored cntlid cc s) := by
  simp [ccWrite, hexists, hshn, hen, ccStored]

/-- A write of CC that changes SHN alone. -/
theorem ccWrite_of_shn (hexists : (ctrlOf s cntlid).exists_ = true) (hshn : bitsOf cc 15 14 ≠ bitsOf (ctrlOf s cntlid).cc 15 14)
    (hen : bitAt cc 0 = bitAt (ctrlOf s cntlid).cc 0) :
    ccWrite cntlid cc s = shnWritten cntlid (bitsOf cc 15 14) (ccStored cntlid cc s) := by
  simp [ccWrite, hexists, hshn, hen, ccStored]

/-- Bits of CC above EN stand while EN is written. -/
theorem bitsOf_setEn (cc v hi lo : Nat) (hlo : 0 < lo) (h : lo ≤ hi) : bitsOf (setBits cc 0 0 v) hi lo = bitsOf cc hi lo :=
  bitsOf_setBits_other cc 0 0 v hi lo (Nat.le_refl 0) h (.inr hlo)

theorem bitAt_eq_bitsOf (n i : Nat) : bitAt n i = (bitsOf n i i == 1) := by
  simp [bitAt, bitsOf]

theorem bitAt_setEn (cc v : Nat) : bitAt (setBits cc 0 0 v) 0 = (v % 2 == 1) := by
  rw [bitAt_eq_bitsOf, bitsOf_setBits, Nat.sub_self, Nat.zero_add, Nat.pow_one]

theorem bitAt_setShn (cc v : Nat) : bitAt (setBits cc 15 14 v) 0 = bitAt cc 0 := by
  rw [bitAt_eq_bitsOf, bitAt_eq_bitsOf, bitsOf_setBits_other cc 15 14 v 0 0 (by decide) (by decide) (.inl (by decide))]

theorem ccValid_setEn (cc v : Nat) : ccValid (setBits cc 0 0 v) = ccValid cc := by
  simp [ccValid, bitsOf_setEn]

theorem adminQueueOk_setEn (f : HepFn) (cc v : Nat) : adminQueueOk f (setBits cc 0 0 v) = adminQueueOk f cc := by
  simp [adminQueueOk, bitsOf_setEn]

theorem ctrlOf_ccStored_setEn (hcc : cc < 2 ^ 32) (id v : Nat) (s : State) :
    ctrlOf (ccStored id (setBits cc 0 0 v) s) id = { ctrlOf s id with cc := setBits cc 0 0 v } := by
  rw [ctrlOf_ccStored, Nat.mod_eq_of_lt (setBits_lt hcc (by decide) (by decide))]

/-- EN set in DISABLED with a valid CC: a Fabrics controller is READY at once. -/
theorem enWritten_of_fabrics (hstate : (ctrlOf s cntlid).state = 0) (hfn : (ctrlOf s cntlid).fn = none)
    (hvalid : ccValid (ctrlOf s cntlid).cc = true) :
    enWritten cntlid true s = onCtrl cntlid (fun c => { c with state := 2, kaStart := s.now })
      (onCtrl cntlid (fun c => { c with state := 1 }) (onCtrl cntlid (fun c => { c with le := true }) s)) := by
  simp [enWritten, enable, openAdminQueue, ccOk, hstate, hfn, hvalid]

/-- EN set in DISABLED with a valid CC and good admin queues: the controller of a PCIe function is READY with its admin queues
(R319). -/
theorem enWritten_of_pcie {fn : Nat} (hstate : (ctrlOf s cntlid).state = 0) (hfn : (ctrlOf s cntlid).fn = some fn)
    (hvalid : ccValid (ctrlOf s cntlid).cc = true) (hqueues : adminQueueOk (fnOf s fn) (ctrlOf s cntlid).cc = true)
    (hboot : 8 ≤ s.boot.step) :
    ∃ u, enWritten cntlid true s = openAdminQueue cntlid u ∧
      ctrlOf u cntlid = { ctrlOf s cntlid with le := true, state := 2, kaStart := s.now } ∧ ∀ k, fnOf u k = fnOf s k := by
  refine ⟨onCtrl cntlid (fun c => { c with state := 2, kaStart := s.now })
    (onCtrl cntlid (fun c => { c with state := 1 }) (onCtrl cntlid (fun c => { c with le := true }) s)), ?_, by simp, fun _ => rfl⟩
  simp [enWritten, enable, ccOk, hstate, hfn, hvalid, hqueues, show ¬ s.boot.step < 8 by omega]

/-- EN cleared in READY: DISABLING, with the commands and a self-test ended and CTRL_RESET of kind 0. -/
theorem enWritten_of_ready (hstate : (ctrlOf s cntlid).state = 2) :
    enWritten cntlid false s = enterDisabling cntlid (onCtrl cntlid (fun c => { c with le := false }) s) := by
  simp [enWritten, hstate]

theorem emitted_ctrlReset (cntlid kind : Nat) (h : s.now = t.now) :
    Emitted t (ctrlReset cntlid kind 0 s) 0x560 1 0x609 (kind * 2 ^ 16 + cntlid) := by
  have hdata : kind * 2 ^ 16 + cntlid = 0 * 2 ^ 24 + kind * 2 ^ 16 + cntlid := by rw [Nat.zero_mul, Nat.zero_add]
  rw [hdata]
  exact emitted_emit_of 0x560 0x609 1 _ h

/-- A controller that enters DISABLING: its state alone changes, and CTRL_RESET tells of it. -/
theorem enterDisabling_ready (cntlid : Nat) (s : State) :
    ctrlOf (enterDisabling cntlid s) cntlid = { ctrlOf s cntlid with state := 5 } ∧
      Emitted s (enterDisabling cntlid s) 0x560 1 0x609 (0 * 2 ^ 16 + cntlid) := by
  have hend : Evolves _ (onCtrl cntlid (fun c => { c with state := 5 }) s) (endCommands cntlid _) := endCommands_evolves .refl Sub.rfl
  have htest : Evolves _ _ (testReset (endCommands cntlid (onCtrl cntlid (fun c => { c with state := 5 }) s))) :=
    testReset_evolves .refl Sub.rfl
  refine ⟨?_, emitted_ctrlReset cntlid 0 ?_⟩
  · exact (ctrlOf_of_evolves htest (by decide) cntlid).trans
      ((ctrlOf_of_evolves hend (by decide) cntlid).trans (ctrlOf_onCtrl_same ..))
  · exact (htest.now_eq (by decide)).trans (hend.now_eq (by decide))

/-- A normal shutdown of a controller in READY leaves the command table (R69). -/
theorem shnWritten_normal (hstate : (ctrlOf s cntlid).state = 2) :
    ctrlOf (shnWritten cntlid 1 s) cntlid = { ctrlOf s cntlid with state := 3, shst := 1 } ∧
      (shnWritten cntlid 1 s).cmd.table = s.cmd.table ∧
      Emitted s (shnWritten cntlid 1 s) 0x560 1 0x609 (1 * 2 ^ 16 + cntlid) := by
  have htest : Evolves _ (onCtrl cntlid (fun c => { c with state := 3, shst := 1 }) s) (testReset _) := testReset_evolves .refl Sub.rfl
  have htable := table_of_evolves htest (by decide)
  rw [shnWritten, if_neg (by simp [hstate]), if_pos rfl]
  exact ⟨(ctrlOf_of_evolves htest (by decide) cntlid).trans (ctrlOf_onCtrl_same ..), htable,
    emitted_ctrlReset cntlid 1 (htest.now_eq (by decide))⟩

/-- An abrupt one ends the commands too. -/
theorem shnWritten_abrupt (hstate : (ctrlOf s cntlid).state = 2) :
    ctrlOf (shnWritten cntlid 2 s) cntlid = { ctrlOf s cntlid with state := 3, shst := 1 } ∧
      Emitted s (shnWritten cntlid 2 s) 0x560 1 0x609 (2 * 2 ^ 16 + cntlid) := by
  have hend : Evolves _ (onCtrl cntlid (fun c => { c with state := 3, shst := 1 }) s) (endCommands cntlid _) :=
    endCommands_evolves .refl Sub.rfl
  have htest : Evolves _ _ (testReset (endCommands cntlid (onCtrl cntlid (fun c => { c with state := 3, shst := 1 }) s))) :=
    testReset_evolves .refl Sub.rfl
  rw [shnWritten, if_neg (by simp [hstate]), if_neg (by decide), if_pos rfl]
  refine ⟨(ctrlOf_of_evolves htest (by decide) cntlid).trans
    ((ctrlOf_of_evolves hend (by decide) cntlid).trans (ctrlOf_onCtrl_same ..)), emitted_ctrlReset cntlid 2 ?_⟩
  exact (htest.now_eq (by decide)).trans (hend.now_eq (by decide))

theorem holdSet_of_awake (h : Awake s) (cid : Nat) (i : Instr) (run : State → State) : holdSet (some cid) i run s = run s :=
  hold_of_awake h

theorem exec_ccEnWritten1_fabrics (h : Awake s) (hfn : (ctrlOf s cntlid).fn = none) (cid cc aqa asq acq : Nat) :
    exec (.ccEnWritten1 cntlid (some cid) cc aqa asq acq) s =
      .next (postAdmin ⟨cntlid, cid⟩ stOk 0 (ccWrite cntlid (setBits cc 0 0 1) s)) := by
  refine congrArg Host.Outcome.next ((holdSet_of_awake h cid _ _).trans ?_)
  rw [runCcEnWritten1, hfn]
  rfl

theorem exec_ccEnWritten1_pcie {fn : Nat} (hfn : (ctrlOf s cntlid).fn = some fn) (cc aqa asq acq : Nat) :
    exec (.ccEnWritten1 cntlid none cc aqa asq acq) s =
      .next (ccWrite cntlid (setBits cc 0 0 1)
        (onFn fn (fun f => { f with aqa := aqa, asq := asq, acq := acq, bme := true }) (startExit s))) := by
  have hctrl : (ctrlOf (startExit s) cntlid).fn = some fn := by
    rwa [ctrlOf_of_evolves (startExit_evolves .refl Sub.rfl : Evolves _ s _) (by decide)]
  refine congrArg Host.Outcome.next (show runCcEnWritten1 cntlid none cc aqa asq acq (startExit s) = _ from ?_)
  rw [runCcEnWritten1, hctrl]
  rfl

theorem exec_ccEnWritten0_of_awake (h : Awake s) (cntlid cid cc : Nat) :
    exec (.ccEnWritten0 cntlid (some cid) cc) s = .next (postAdmin ⟨cntlid, cid⟩ stOk 0 (ccWrite cntlid (setBits cc 0 0 0) s)) :=
  congrArg Host.Outcome.next (holdSet_of_awake h cid _ _)

theorem exec_ccShnNormalShutdown_of_awake (h : Awake s) (cntlid cid cc : Nat) :
    exec (.ccShnNormalShutdown cntlid (some cid) cc) s =
      .next (postAdmin ⟨cntlid, cid⟩ stOk 0 (ccWrite cntlid (setBits cc 15 14 1) s)) :=
  congrArg Host.Outcome.next (holdSet_of_awake h cid _ _)

theorem exec_ccShnAbruptShutdown_of_awake (h : Awake s) (cntlid cid cc : Nat) :
    exec (.ccShnAbruptShutdown cntlid (some cid) cc) s =
      .next (postAdmin ⟨cntlid, cid⟩ stOk 0 (ccWrite cntlid (setBits cc 15 14 2) s)) :=
  congrArg Host.Outcome.next (holdSet_of_awake h cid _ _)

/-- A PCIe controller in READY has its admin queues, as AQA, ASQ and ACQ give them (R319). -/
theorem openAdminQueue_of_fn {k : Nat} (hfn : (ctrlOf s cntlid).fn = some k) :
    ctrlOf (openAdminQueue cntlid s) cntlid = ctrlOf s cntlid ∧ (queueOf (openAdminQueue cntlid s) cntlid 0).pcie = true ∧
      (queueOf (openAdminQueue cntlid s) cntlid 0).size = bitsOf (fnOf s k).aqa 11 0 + 1 ∧
      ((openAdminQueue cntlid s).hep.sqs.at (cntlid * 256)).base = (fnOf s k).asq ∧
      (cqOf (openAdminQueue cntlid s) (cntlid * 256)).size = bitsOf (fnOf s k).aqa 27 16 + 1 ∧
      fnOf (openAdminQueue cntlid s) k = fnOf s k := by
  unfold openAdminQueue
  rw [hfn]
  simp [ctrlOf, queueOf, cqOf, fnOf, qKey]

/-- What EN set in DISABLED leaves of a PCIe function's controller, its admin queues and its function. -/
theorem enabled_pcie {fn aqa asq acq : Nat} (hexists : (ctrlOf s cntlid).exists_ = true) (hfn : (ctrlOf s cntlid).fn = some fn)
    (hboot : 8 ≤ s.boot.step) (hstate : (ctrlOf s cntlid).state = 0) (hen : bitAt (ctrlOf s cntlid).cc 0 = false)
    (hshn : bitsOf cc 15 14 = bitsOf (ctrlOf s cntlid).cc 15 14) (hvalid : ccValid cc = true) (hcc : cc < 2 ^ 32)
    (hqueues : adminQueueOk { fnOf s fn with aqa := aqa, asq := asq, acq := acq } cc = true) :
    let t := ccWrite cntlid (setBits cc 0 0 1) (onFn fn (fun f => { f with aqa := aqa, asq := asq, acq := acq, bme := true }) s)
    (ctrlOf t cntlid).state = 2 ∧ (queueOf t cntlid 0).pcie = true ∧ (queueOf t cntlid 0).size = bitsOf aqa 11 0 + 1 ∧
      (t.hep.sqs.at (cntlid * 256)).base = asq ∧ (cqOf t (cntlid * 256)).size = bitsOf aqa 27 16 + 1 ∧ (fnOf t fn).bme = true := by
  have hset : bitAt (setBits cc 0 0 1) 0 = true := bitAt_setEn cc 1
  have hstored := ctrlOf_ccStored_setEn hcc cntlid 1 (onFn fn (fun f => { f with aqa := aqa, asq := asq, acq := acq, bme := true }) s)
  have hctrl : ∀ f, ctrlOf (onFn fn f s) cntlid = ctrlOf s cntlid := fun _ => rfl
  rw [hctrl] at hstored
  have hfnOf : ∀ f cc, fnOf (ccStored cntlid cc (onFn fn f s)) fn = f (fnOf s fn) := fun f cc => by simp [ccStored, fnOf, onFn]
  dsimp only
  rw [ccWrite_of_en (s := onFn fn _ s) hexists (by rwa [bitsOf_setEn _ _ _ _ (by decide) (by decide)])
    (by rw [hset, hctrl, hen]; decide), hset]
  obtain ⟨u, heq, hready, hfns⟩ := enWritten_of_pcie (fn := fn) (by rwa [hstored]) (by rwa [hstored])
    (by rwa [hstored, ccValid_setEn]) (by rw [hstored, hfnOf, adminQueueOk_setEn]; exact hqueues) (by exact hboot)
  obtain ⟨hsame, hpcie, hsize, hbase, hcq, hfunction⟩ := openAdminQueue_of_fn (k := fn) (by rwa [hready, hstored])
  rw [heq, hsame, hready, hpcie, hsize, hbase, hcq, hfunction, hfns, hfnOf]
  exact ⟨rfl, rfl, rfl, rfl, rfl, rfl⟩

/-! Ends of controllers and queues (R69, R70). -/

/-- A controller that is deleted: no controller of that number is left, and CTRL_RESET tells how. -/
theorem deleteCtrl_of_exists (h : (ctrlOf s cntlid).exists_ = true) (kind : Nat) :
    ctrlOf (deleteCtrl cntlid kind s) cntlid = default ∧
      Emitted s (deleteCtrl cntlid kind s) 0x560 1 0x609 (kind * 2 ^ 16 + cntlid) := by
  have hend : Evolves _ s (endCommands cntlid s) := endCommands_evolves .refl Sub.rfl
  have htest : Evolves _ _ (testReset (endCommands cntlid s)) := testReset_evolves .refl Sub.rfl
  unfold deleteCtrl
  simp only [h, Bool.not_true, Bool.false_eq_true, if_false]
  refine foldl_keeps (P := fun t => ctrlOf t cntlid = default ∧ Emitted s t 0x560 1 0x609 (kind * 2 ^ 16 + cntlid))
    (fun t q hq => ?_) _ _ ⟨?_, emitted_ctrlReset cntlid kind ?_⟩
  · have hE : Evolves _ t (localDisconnect q t) := localDisconnect_evolves .refl Sub.rfl
    exact ⟨(ctrlOf_of_evolves hE (by decide) cntlid).trans hq.1, hE.emitted_mono (by decide) hq.2⟩
  · simp [ctrlOf, ctrlReset]
  · exact (htest.now_eq (by decide)).trans (hend.now_eq (by decide))

theorem queueOf_dropQueue (cntlid sqid : Nat) (s : State) : queueOf (dropQueue cntlid sqid s) cntlid sqid = default := by
  unfold dropQueue
  dsimp only
  rw [queueOf_of_evolves (localDisconnect_evolves .refl Sub.rfl : Evolves _ _ (localDisconnect _ _)) (by decide)]
  simp [queueOf]

theorem exec_disconnect_of_fabrics {a : Admin} (h : Awake s) (hfn : (ctrlOf s a.cntlid).fn = none) (sqid : Nat) :
    exec (.disconnect a sqid) s = .next (if sqid = 0 then deleteCtrl a.cntlid 7 (post a.cntlid sqid a.cid stOk 0 none s)
      else dropQueue a.cntlid sqid (post a.cntlid sqid a.cid stOk 0 none s)) := by
  refine congrArg Host.Outcome.next ((hold_of_awake h).trans ?_)
  simp [runDisconnect, hfn]

/-! The end of a drain (R69). -/

/-- An entry that a filter refuses is not listed. -/
theorem Tab.at_filter_of_false {α : Type} [Inhabited α] {p : Nat × α → Bool} {k : Nat} (h : ∀ x, p (k, x) = false) (t : Tab α) :
    Tab.at (t.filter p) k = default := by
  have hlook : ∀ t : Tab α, Tab.look (t.filter p) k = none := by
    intro t
    induction t with
    | nil => rfl
    | cons e t ih =>
      obtain ⟨j, x⟩ := e
      by_cases hp : p (j, x) = true
      · have hne : k ≠ j := by
          rintro rfl
          simp [h x] at hp
        simp [hp, Tab.look, hne, ih]
      · simp [hp, ih]
  simp [Tab.at, Tab.getD, hlook]

/-- The I/O queues of a controller are gone, and no controller changes. -/
theorem deleteIoQueues_parts (cntlid : Nat) (s : State) :
    ctrlOf (deleteIoQueues cntlid s) cntlid = ctrlOf s cntlid ∧ queueOf (deleteIoQueues cntlid s) cntlid 1 = default := by
  unfold deleteIoQueues
  dsimp only
  refine foldl_keeps (P := fun t => ctrlOf t cntlid = ctrlOf s cntlid ∧ queueOf t cntlid 1 = default) (fun t q hq => ?_) _ _ ?_
  · have hE : Evolves _ t (localDisconnect q t) := localDisconnect_evolves .refl Sub.rfl
    exact ⟨(ctrlOf_of_evolves hE (by decide) cntlid).trans hq.1, (queueOf_of_evolves hE (by decide) cntlid 1).trans hq.2⟩
  · have hE : ∀ u, Evolves _ u (sweepSlots u) := fun u => sweepSlots_evolves .refl Sub.rfl
    refine ⟨ctrlOf_of_evolves (hE _) (by decide) cntlid, (queueOf_of_evolves (hE _) (by decide) cntlid 1).trans ?_⟩
    exact Tab.at_filter_of_false (by simp [qKey]; omega) _

/-- The controller that an admin Connect makes (R46). -/
def newController (h kato now : Nat) : Controller :=
  { (default : Controller) with exists_ := true, host := h, kato := kato, kaStart := now, queues := 128, pm := 3 }

/-- An admin Connect that passes its tests. -/
theorem runConnect_admin {conn size kato : Nat} {nqn : Bytes} (h : (ctxOf s conn).carriesConnect = true)
    (hfree : (ctxOf s conn).sqid = 0xFFFF) (htest : connectTest s nqn 0 size 0xFFFF = none) :
    ctrlOf (runConnect conn nqn 0 size 0xFFFF cid kato s) (nextCntlid s) = newController ((hostIndex s nqn).getD 0) kato s.now ∧
      (queueOf (runConnect conn nqn 0 size 0xFFFF cid kato s) (nextCntlid s) 0).exists_ = true ∧
      (queueOf (runConnect conn nqn 0 size 0xFFFF cid kato s) (nextCntlid s) 0).size = size ∧
      .completion (nextCntlid s) 0 cid stOk (nextCntlid s) ∈ (runConnect conn nqn 0 size 0xFFFF cid kato s).out := by
  rw [runConnect_of_carries h hfree, htest]
  dsimp only
  rw [if_pos rfl, if_pos rfl, if_pos rfl]
  have hE := answerConnect_evolves_refl conn (nextCntlid s) 0 cid stOk
  rw [ctrlOf_of_evolves (hE _) (by decide), queueOf_of_evolves (hE _) (by decide)]
  exact ⟨by simp [ctrlOf, onCtrl, newController], by simp [queueOf], by simp [queueOf], sent_answerConnect ..⟩

/-- An I/O Connect that passes its tests. -/
theorem runConnect_io {conn qid size kato : Nat} {nqn : Bytes} (hqid : qid ≠ 0) (h : (ctxOf s conn).carriesConnect = true)
    (hfree : (ctxOf s conn).sqid = 0xFFFF) (htest : connectTest s nqn qid size cntlid = none) :
    queueOf (runConnect conn nqn qid size cntlid cid kato s) cntlid qid = { (default : Queue) with
        exists_ := true, size := size, cls := classOf s ((hostIndex s nqn).getD 0) qid, port := (ctxOf s conn).lport, conn := conn } ∧
      (runConnect conn nqn qid size cntlid cid kato s).cmd.ctrls = s.cmd.ctrls ∧
      .completion cntlid qid cid stOk cntlid ∈ (runConnect conn nqn qid size cntlid cid kato s).out := by
  rw [runConnect_of_carries h hfree, htest]
  dsimp only
  simp only [if_neg hqid]
  have hE := answerConnect_evolves_refl conn cntlid qid cid stOk
  rw [ctrls_of_evolves (hE _) (by decide), queueOf_of_evolves (hE _) (by decide)]
  exact ⟨by simp [queueOf], rfl, sent_answerConnect ..⟩

/-- A Connect that fails a test (R46). -/
theorem runConnect_refused {conn qid size kato : Nat} {nqn : Bytes} {st : Status} (h : (ctxOf s conn).carriesConnect = true)
    (hfree : (ctxOf s conn).sqid = 0xFFFF) (htest : connectTest s nqn qid size cntlid = some st) :
    runConnect conn nqn qid size cntlid cid kato s = answerConnect conn cntlid qid cid st
      (emit 0x560 0x60C 1 (st.sc * 2 ^ 16 + (hostIndex s nqn).getD 0xFFF % 4096) s) := by
  rw [runConnect_of_carries h hfree, htest]

/-- Settles O23: awake, each command runs at once. A Connect is its test and the controller and queue it makes; a write of CC
stores its fields and then applies the change of SHN or EN; an end of a controller or queue is its removal from the tables, and what
follows touches neither the tables nor the event. -/
theorem controllersComplete : Obligations.ControllersComplete := by
  unfold Obligations.ControllersComplete
  refine ⟨fun conn nqn size cid kato s hcarries hfree htest hawake => ?connectAdmin,
    fun conn nqn qid size cntlid cid kato s hqid hcarries hfree htest hawake => ?connectIo,
    fun conn nqn qid size cntlid cid kato st s hcarries hfree htest hawake => ?connectRefused,
    fun a offset v s hfn hprop hawake => ?propertyGet, fun a value s hexists hfn hshn hen hawake => ?propertySetCc,
    fun a offset value s hfn hoffset hawake => ?propertySetOther,
    fun cntlid cid cc aqa asq acq s hexists hfn hstate hen hshn hvalid hcc hawake => ?enableFabrics,
    fun cntlid fn cc aqa asq acq s hexists hfn hboot hstate hen hshn hvalid hcc hqueues => ?enablePcie,
    fun cntlid cid cc s hexists hstate hen hshn hawake => ?disable,
    fun cntlid cid cc s hexists hstate hen hshn hawake => ?normal,
    fun cntlid cid cc s hexists hstate hen hshn hawake => ?abrupt,
    fun a s hexists hfn hawake => ?disconnectAdmin, fun a sqid s hfn hsqid hawake => ?disconnectIo,
    fun cntlid s hdrained hstate hld => ?shutDown, fun cntlid s hdrained hstate hle => ?disabled,
    fun cntlid s hexists hkato hps => ?keepAlive⟩
  case connectAdmin =>
    obtain ⟨hctrl, hexists, hsize, hsent⟩ := runConnect_admin (cid := cid) (kato := kato) hcarries hfree htest
    refine .of_exec (exec_connect_of_awake hawake ..) ?_
    rw [hctrl]
    exact ⟨rfl, rfl, rfl, rfl, hexists, hsize, hsent⟩
  case connectIo =>
    obtain ⟨hqueue, hctrls, hsent⟩ := runConnect_io (cid := cid) (kato := kato) (show qid ≠ 0 by omega) hcarries hfree htest
    refine .of_exec (exec_connect_of_awake hawake ..) ?_
    rw [hqueue]
    exact ⟨rfl, rfl, rfl, rfl, hctrls, hsent⟩
  case connectRefused =>
    have hE := answerConnect_evolves_refl conn cntlid qid cid st
    refine .of_exec (exec_connect_of_awake hawake ..) ?_
    rw [runConnect_refused hcarries hfree htest]
    have hsaid := emitted_emit 0x560 0x60C 1 (st.sc * 2 ^ 16 + (hostIndex s nqn).getD 0xFFF % 4096) s
    refine ⟨(hE _).emitted_mono (by decide) hsaid, sent_answerConnect .., ?_, ?_⟩
    · rw [ctrls_of_evolves (hE _) (by decide), emit_cmd]
    · rw [queues_of_evolves (hE _) (by decide), emit_cmd]
  case propertyGet =>
    refine .of_exec (t := postAdmin a stOk 0 (s.send (.adminData a.cntlid a.cid (leBytes 8 v)))) ?_ ?_
    · refine congrArg Host.Outcome.next ((hold_of_awake hawake).trans ?_)
      simp [runPropertyGet, hfn, hprop]
    · exact ⟨(postAdmin_evolves_refl ..).sent (sent_send _ s), answered_of_stands (answered_postAdmin a stOk 0 _) rfl rfl⟩
  case propertySetCc =>
    refine .of_exec (t := postAdmin a stOk 0 (ccStored a.cntlid value s)) ?_ ?_
    · refine congrArg Host.Outcome.next ((hold_of_awake hawake).trans ?_)
      simp [runPropertySet, hfn, ccWrite_of_other hexists hshn hen]
    · exact ⟨(ctrlOf_of_evolves (postAdmin_evolves_refl ..) (by decide) _).trans (ctrlOf_onCtrl_same ..),
        answered_of_stands (answered_postAdmin a stOk 0 _) rfl rfl⟩
  case propertySetOther =>
    refine .of_exec (t := postAdmin a stInvalidField 0 s) ?_ ?_
    · refine congrArg Host.Outcome.next ((hold_of_awake hawake).trans ?_)
      simp [runPropertySet, hfn, hoffset]
    · exact ⟨ctrls_of_evolves (postAdmin_evolves_refl ..) (by decide), answered_postAdmin a stInvalidField 0 s⟩
  case enableFabrics =>
    have hset : bitAt (setBits cc 0 0 1) 0 = true := bitAt_setEn cc 1
    have hstored := ctrlOf_ccStored_setEn hcc cntlid 1 s
    refine .of_exec (exec_ccEnWritten1_fabrics hawake hfn cid cc aqa asq acq) ?_
    rw [ccWrite_of_en hexists (by rwa [bitsOf_setEn _ _ _ _ (by decide) (by decide)]) (by rw [hset, hen]; decide), hset,
      enWritten_of_fabrics (by rwa [hstored]) (by rwa [hstored]) (by rwa [hstored, ccValid_setEn]),
      ctrlOf_of_evolves (postAdmin_evolves_refl ..) (by decide)]
    simp only [ctrlOf_onCtrl_same, hstored]
    exact ⟨trivial, trivial, trivial, answered_of_stands (answered_postAdmin ⟨cntlid, cid⟩ stOk 0 _) rfl rfl⟩
  case enablePcie =>
    refine .of_exec (exec_ccEnWritten1_pcie hfn cc aqa asq acq) ?_
    have hstart : Evolves _ s (startExit s) := startExit_evolves .refl Sub.rfl
    have hctrl := ctrlOf_of_evolves hstart (by decide) cntlid
    have hhep : (startExit s).hep = s.hep := by unfold startExit; split <;> rfl
    have hboot' : (startExit s).boot = s.boot := hstart.same .boot (by decide)
    generalize startExit s = u at hctrl hhep hboot' ⊢
    rw [← hctrl] at hexists hfn hstate hen hshn
    obtain ⟨hready, hpcie, hsize, hbase, hcq, hbme⟩ := enabled_pcie (cc := cc) (aqa := aqa) (asq := asq) (acq := acq) hexists hfn
      (by rwa [hboot']) hstate hen hshn hvalid hcc (by rwa [fnOf, hhep])
    exact ⟨hready, hpcie, hsize, hbase, hcq, hbme⟩
  case disable =>
    have hset : bitAt (setBits cc 0 0 0) 0 = false := bitAt_setEn cc 0
    have hpost := postAdmin_evolves_refl ⟨cntlid, cid⟩ stOk 0
    refine .of_exec (exec_ccEnWritten0_of_awake hawake cntlid cid cc) ?_
    rw [ccWrite_of_en hexists (by rwa [bitsOf_setEn _ _ _ _ (by decide) (by decide)]) (by rw [hset, hen]; decide), hset,
      enWritten_of_ready (by simpa [ccStored] using hstate)]
    obtain ⟨hctrl, hsaid⟩ := enterDisabling_ready cntlid (onCtrl cntlid (fun c => { c with le := false })
      (ccStored cntlid (setBits cc 0 0 0) s))
    rw [Nat.zero_mul, Nat.zero_add] at hsaid
    refine ⟨?_, ?_, (hpost _).emitted_mono (by decide) hsaid⟩ <;>
      rw [ctrlOf_of_evolves (hpost _) (by decide), hctrl]
    simp
  case normal =>
    have hpost := postAdmin_evolves_refl ⟨cntlid, cid⟩ stOk 0
    have hset : bitsOf (setBits cc 15 14 1) 15 14 = 1 := bitsOf_setBits ..
    obtain ⟨hctrl, htable, hsaid⟩ := shnWritten_normal (s := ccStored cntlid (setBits cc 15 14 1) s) (by rwa [ctrlOf_ccStored])
    rw [Nat.one_mul] at hsaid
    refine .of_exec (exec_ccShnNormalShutdown_of_awake hawake cntlid cid cc) ?_
    rw [ccWrite_of_shn hexists (by omega) (by rw [bitAt_setShn, hen]), hset, ctrlOf_of_evolves (hpost _) (by decide), hctrl,
      table_of_evolves (hpost _) (by decide), htable]
    exact ⟨rfl, rfl, rfl, (hpost _).emitted_mono (by decide) hsaid⟩
  case abrupt =>
    have hpost := postAdmin_evolves_refl ⟨cntlid, cid⟩ stOk 0
    have hset : bitsOf (setBits cc 15 14 2) 15 14 = 2 := bitsOf_setBits ..
    obtain ⟨hctrl, hsaid⟩ := shnWritten_abrupt (s := ccStored cntlid (setBits cc 15 14 2) s) (by rwa [ctrlOf_ccStored])
    refine .of_exec (exec_ccShnAbruptShutdown_of_awake hawake cntlid cid cc) ?_
    rw [ccWrite_of_shn hexists (by omega) (by rw [bitAt_setShn, hen]), hset, ctrlOf_of_evolves (hpost _) (by decide), hctrl]
    exact ⟨rfl, rfl, (hpost _).emitted_mono (by decide) hsaid⟩
  case disconnectAdmin =>
    have hpost := post_evolves_refl a.cntlid 0 a.cid stOk 0 none s
    refine .of_exec (exec_disconnect_of_fabrics hawake hfn 0) ?_
    rw [if_pos rfl]
    obtain ⟨hgone, hsaid⟩ := deleteCtrl_of_exists (by rwa [ctrlOf_of_evolves hpost (by decide)]) 7
    refine ⟨hgone, (emitted_now (hpost.now_eq (by decide))).1 hsaid, ?_⟩
    exact (deleteCtrl_evolves .refl Sub.rfl : Evolves _ _ (deleteCtrl a.cntlid 7 _)).answered (answered_post a.cntlid 0 a.cid stOk 0 none s)
  case disconnectIo =>
    refine .of_exec (exec_disconnect_of_fabrics hawake hfn sqid) ?_
    rw [if_neg hsqid]
    exact ⟨queueOf_dropQueue .., (dropQueue_evolves .refl Sub.rfl : Evolves _ _ (dropQueue a.cntlid sqid _)).answered
      (answered_post a.cntlid sqid a.cid stOk 0 none s)⟩
  case shutDown =>
    refine .of_exec (t := onCtrl cntlid (fun c => { c with state := 4, shst := 2 }) s) ?_ (ctrlOf_onCtrl_same ..)
    change execDrainFinished cntlid s = _
    simp [execDrainFinished, hdrained, hstate, hld]
  case disabled =>
    obtain ⟨hctrl, hqueue⟩ := deleteIoQueues_parts cntlid
      (onCtrl cntlid (fun c => { c with ld := false, shst := 0, state := 0, cfs := false }) s)
    refine .of_exec (t := deleteIoQueues cntlid _) ?_ ⟨hctrl.trans (ctrlOf_onCtrl_same ..), hqueue⟩
    change execDrainFinished cntlid s = _
    simp [execDrainFinished, hdrained, hstate, hle]
  case keepAlive => exact .of_exec (if_neg (by omega)) (deleteCtrl_of_exists hexists 3)

end Sys2Proof.Machine
end

section
/-! PROOFS. Admin commands: Identify, log pages, features, Abort, Asynchronous Event Request, self-tests and opcodes that are not
accepted (R45 to R49, R55, R64 to R66, R71, R75, R78). -/

namespace Sys2Proof.Machine

variable {s t u : State} {w : List Part} {a : Admin} {cntlid sqid cid : Nat}

/-- An awake CMD runs an admin command of a ready controller at once. -/
theorem Completes.admin {i j : Instr} {run : State → State} {p : State → Prop} (hawake : Awake s)
    (hready : (ctrlOf s a.cntlid).ready = true) (hexec : exec i s = .next (hold j (adminCommand a run) s)) (hp : p (run s)) :
    Completes i s p :=
  ⟨run s, by rw [hexec, hold_of_awake hawake, adminCommand_of_ready hready], hp⟩

/-- A completion posted once updates outside the queues and the host endpoint are made. -/
theorem Evolves.answered_before {st : Status} {dw0 : Nat} (h : Evolves w s u) (hq : .queues ∉ w) (hf : .functions ∉ w)
    (hh : .hostQueues ∉ w) (ha : Answered u t cntlid sqid cid st dw0) : Answered s t cntlid sqid cid st dw0 := by
  have hfns := h.same .functions hf
  have hqueues := h.same .hostQueues hh
  simp only [Part.Same, Prod.mk.injEq] at hfns hqueues
  unfold Answered HostRoom cqOf fnOf at ha ⊢
  rw [queueOf_of_evolves h hq] at ha
  simpa [hfns, hqueues] using ha

theorem ctrlOf_postAdmin (a b : Admin) (st : Status) (dw0 : Nat) (s : State) :
    ctrlOf (postAdmin a st dw0 s) b.cntlid = ctrlOf s b.cntlid :=
  ctrlOf_of_evolves (postAdmin_evolves_refl a st dw0 s) (by decide) _

theorem ctrlOf_postAdmin_onCtrl (a : Admin) (st : Status) (dw0 : Nat) (f : Controller → Controller) (s : State) :
    ctrlOf (postAdmin a st dw0 (onCtrl a.cntlid f s)) a.cntlid = f (ctrlOf s a.cntlid) := by
  rw [ctrlOf_postAdmin, ctrlOf_onCtrl_same]

theorem answered_postAdmin_onCtrl (a : Admin) (st : Status) (dw0 id : Nat) (f : Controller → Controller) (s : State) :
    Answered s (postAdmin a st dw0 (onCtrl id f s)) a.cntlid 0 a.cid st dw0 :=
  answered_of_stands (answered_postAdmin a st dw0 (onCtrl id f s)) rfl rfl

/-- Data sent and then a completion: both are sent. -/
theorem adminData_answered (a : Admin) (d : Bytes) (s : State) :
    .adminData a.cntlid a.cid d ∈ (postAdmin a stOk 0 (s.send (.adminData a.cntlid a.cid d))).out ∧
      Answered s (postAdmin a stOk 0 (s.send (.adminData a.cntlid a.cid d))) a.cntlid 0 a.cid stOk 0 :=
  ⟨(postAdmin_evolves_refl a stOk 0 _).sent (sent_send _ s), answered_of_stands (answered_postAdmin a stOk 0 _) rfl rfl⟩

theorem sent_postAdmin_of_fabrics (hpcie : (queueOf s a.cntlid 0).pcie = false) (st : Status) (dw0 : Nat) :
    .completion a.cntlid 0 a.cid st dw0 ∈ (postAdmin a st dw0 s).out :=
  answered_postAdmin a st dw0 s fun h => absurd (hpcie.symm.trans h) (by decide)

/-! Abort of a capsule that waits (R65). -/

/-- What an Abort does before it posts its own completion: the waiting capsule is out of the queue, its slot free, its completion
posted. -/
def capsuleAborted (c : Capsule) (s : State) : State :=
  completeCap c stAborted (sweepSlots ((noteEnded c s).onCmd fun m => { m with queued := m.queued.filter (· != c) }))

theorem noteEnded_evolves_refl (c : Capsule) (s : State) : Evolves [.replicas] s (noteEnded c s) := noteEnded_evolves .refl Sub.rfl

theorem sweepSlots_evolves_refl (s : State) : Evolves [.commands, .buffer, .regs, .regSwc, .out] s (sweepSlots s) :=
  sweepSlots_evolves .refl Sub.rfl

theorem queued_of_evolves (h : Evolves w s t) (hw : .commands ∉ w) : t.cmd.queued = s.cmd.queued := by
  have hsame := h.same .commands hw
  simp only [Part.Same, Prod.mk.injEq] at hsame
  exact hsame.1

theorem queued_releaseCells (hs : List Nat) (s : State) : (releaseCells hs s).cmd.queued = s.cmd.queued :=
  queued_of_evolves (releaseCells_evolves .refl Sub.rfl) (by decide)

theorem queued_sweepSlots (s : State) : (sweepSlots s).cmd.queued = s.cmd.queued := by
  unfold sweepSlots
  split
  next => rfl
  next => exact queued_releaseCells _ _

theorem completeCap_evolves_refl (c : Capsule) (st : Status) (s : State) :
    Evolves [.events, .counters, .sampling, .contexts, .functions, .hostQueues, .leash, .replicas, .regs, .regCmd, .out] s
      (completeCap c st s) := completeCap_evolves .refl Sub.rfl

theorem answered_completeCap (c : Capsule) (st : Status) (s : State) :
    Answered s (completeCap c st s) c.cntlid c.sqid c.cid st 0 :=
  (measure_evolves .refl Sub.rfl).answered (answered_post c.cntlid c.sqid c.cid st 0 (invKey c.sgl) s)

theorem queued_capsuleAborted (c : Capsule) (s : State) :
    (capsuleAborted c s).cmd.queued = s.cmd.queued.filter (· != c) := by
  rw [capsuleAborted, queued_of_evolves (completeCap_evolves_refl ..) (by decide), queued_sweepSlots]
  exact congrArg (List.filter (· != c)) (queued_of_evolves (noteEnded_evolves_refl c s) (by decide))

theorem queueOf_capsuleAborted (c : Capsule) (s : State) (cntlid sqid : Nat) :
    queueOf (capsuleAborted c s) cntlid sqid = queueOf s cntlid sqid := by
  rw [capsuleAborted, queueOf_of_evolves (completeCap_evolves_refl ..) (by decide),
    queueOf_of_evolves (sweepSlots_evolves_refl _) (by decide)]
  exact queueOf_of_evolves (noteEnded_evolves_refl c s) (by decide) _ _

theorem answered_capsuleAborted (c : Capsule) (s : State) : Answered s (capsuleAborted c s) c.cntlid c.sqid c.cid stAborted 0 := by
  refine (noteEnded_evolves_refl c s).answered_before (by decide) (by decide) (by decide) ?_
  refine answered_of_stands (u := (noteEnded c s).onCmd fun m => { m with queued := m.queued.filter (· != c) }) ?_ rfl rfl
  exact (sweepSlots_evolves_refl _).answered_before (by decide) (by decide) (by decide) (answered_completeCap c stAborted _)

/-- A capsule that an Abort finds is the one the Abort names. -/
theorem names_of_find {l : List Capsule} {c : Capsule} {target : Nat}
    (h : (l.find? fun c => c.cntlid == cntlid && c.sqid == sqid && c.cid == target) = some c) :
    c.cntlid = cntlid ∧ c.sqid = sqid ∧ c.cid = target := by
  simpa [and_assoc] using List.find?_some h

/-! Self-tests and opcodes. -/

theorem endSelfTest_of_running (h : s.cmd.test.code ≠ 0) (result : Nat) :
    (endSelfTest result s).cmd.test.code = 0 ∧ (endSelfTest result s).cmd.test.log = (s.cmd.test.code, result) :: s.cmd.test.log ∧
      Emitted s (endSelfTest result s) 0x564 1 0x60B (s.cmd.test.code * 16 + result) := by
  unfold endSelfTest
  simp only [if_neg h]
  exact ⟨rfl, rfl, emitted_emit_of _ _ _ _ rfl⟩

theorem test_of_evolves (h : Evolves w s t) (hw : .powerState ∉ w) : t.cmd.test = s.cmd.test := by
  have hsame := h.same .powerState hw
  simp only [Part.Same, Prod.mk.injEq] at hsame
  simp only [hsame]

/-- A self-test that no other test stands in the way of starts with its code, controller, namespace and items (R78). -/
theorem startSelfTest_of_idle (h : s.cmd.test.code = 0) (a : Admin) (code nsid : Nat) :
    (startSelfTest a code nsid s).cmd.test.code = code ∧ (startSelfTest a code nsid s).cmd.test.cntlid = a.cntlid ∧
      (startSelfTest a code nsid s).cmd.test.nsid = nsid ∧
      (startSelfTest a code nsid s).cmd.test.items = testItems s code nsid ∧
      (startSelfTest a code nsid s).cmd.test.log = s.cmd.test.log ∧
      Answered s (startSelfTest a code nsid s) a.cntlid 0 a.cid stOk 0 := by
  simp only [startSelfTest, if_neg (not_not_intro h), test_of_evolves (postAdmin_evolves_refl a stOk 0 _) (by decide)]
  exact ⟨rfl, rfl, rfl, rfl, rfl, answered_of_stands (answered_postAdmin a stOk 0 _) rfl rfl⟩

/-! A capsule that arrives (R45, R52, R53, R76, R77). -/

theorem noteCapsule_evolves_refl (c : Capsule) (s : State) : Evolves [.replicas] s (noteCapsule c s) := noteCapsule_evolves .refl Sub.rfl

theorem cmd_noteCapsule (c : Capsule) (s : State) : (noteCapsule c s).cmd = s.cmd := by
  unfold noteCapsule; split <;> rfl

/-- The tests of a capsule do not read the replica record. -/
theorem fieldTest_noteCapsule (c d : Capsule) (s : State) : fieldTest (noteCapsule c s) d = fieldTest s d := by
  unfold noteCapsule; split <;> rfl

theorem c0Test_noteCapsule (c : Capsule) (port mbps xlen : Nat) (s : State) :
    c0Test (noteCapsule c s) port mbps xlen = c0Test s port mbps xlen := by
  unfold noteCapsule; split <;> rfl

theorem portMbps_noteCapsule (c : Capsule) (port : Nat) (s : State) : portMbps (noteCapsule c s) port = portMbps s port := by
  unfold noteCapsule; split <;> rfl

/-- A capsule's tests do not read what its arrival stamps on it. -/
theorem fieldTest_waits (s : State) (c : Capsule) : fieldTest s (waits s c) = fieldTest s c := rfl

/-- Is a capsule tested only once PS0 is reached (R77)? -/
abbrev Sleeps (s : State) : Prop := s.cmd.exiting = true ∨ 1 ≤ s.cmd.ps ∧ s.cmd.ps ≤ 3

theorem untested_waits (c : Capsule) : (waits s c).untested = true ↔ Sleeps s := by simp [waits]

theorem startExit_of_sleeps (h : Sleeps s) : (startExit s).cmd.exiting = true := by
  unfold startExit
  split
  next => rfl
  next hrun =>
    obtain hexit | ⟨hlow, hhigh⟩ := h
    · exact hexit
    · simpa [hlow, hhigh] using hrun

theorem startExit_of_wakes (h : ¬ Sleeps s) : startExit s = s := by
  rw [not_or] at h
  exact if_neg fun hrun => h.2 ⟨hrun.1, hrun.2.1⟩

/-- A capsule that comes outside PS0 joins the queue as it arrived. -/
theorem admitCap_of_sleeps {c : Capsule} (h : MayArrive s c) (hsleeps : Sleeps s) :
    admitCap c s = enqueueCap (waits s c) (noteCapsule { waits s c with untested := c.untested } (startExit s)) := by
  obtain ⟨hexists, hps, hready⟩ := h
  have huntested := (untested_waits c).2 hsleeps
  have hexit (d : Capsule) : (noteCapsule d (startExit s)).cmd.exiting = true := by
    rw [cmd_noteCapsule, startExit_of_sleeps hsleeps]
  simp only [admitCap, hexists, hps, hready, hexit, Bool.not_true, Bool.false_eq_true, bne_self_eq_false, or_self, if_false, if_true]
  congr 1
  simp [waits, classIn, hsleeps]

/-- A capsule that comes in PS0 is tested at once. -/
theorem admitCap_of_wakes {c : Capsule} (h : MayArrive s c) (hwakes : ¬ Sleeps s) (hnew : c.untested = false) :
    admitCap c s = testCap (waits s c) (noteCapsule (waits s c) s) := by
  obtain ⟨hexists, hps, hready⟩ := h
  have hexit : s.cmd.exiting = false := by simpa using fun h => hwakes (.inl h)
  have hwaits : waits s c = { c with
      port := (queueOf s c.cntlid c.sqid).port, cls := classIn s c, gtsIn := s.now, late := false
      noBound := s.cmd.ps != 0 || s.cmd.exiting, hold := decide (2 ≤ s.cmd.act.step ∧ s.cmd.act.step ≤ 5) } := by
    rw [waits, show (s.cmd.exiting || decide (1 ≤ s.cmd.ps ∧ s.cmd.ps ≤ 3)) = c.untested by
      rw [hexit, hnew, decide_eq_false fun h => hwakes (.inr h), Bool.or_false]]
  simp only [admitCap, hexists, hps, hready, startExit_of_wakes hwakes, cmd_noteCapsule, hexit, hwaits, Bool.not_true,
    Bool.false_eq_true, bne_self_eq_false, or_self, if_false]
  rfl

theorem Awake.wakes (h : Awake s) : ¬ Sleeps s := by
  obtain ⟨hps, hexit⟩ := h
  simp [hps, hexit]

/-- A capsule whose opcode, attributes or fields are refused is completed at once, and never queued. -/
theorem admitCap_refused {c : Capsule} {st : Status} (h : MayArrive s c) (hawake : Awake s)
    (hst : c.refusal.or (fieldTest s c) = some st) (hnew : c.untested = false) :
    Answered s (admitCap c s) c.cntlid c.sqid c.cid st 0 ∧ (admitCap c s).cmd.queued = s.cmd.queued ∧
      (admitCap c s).cmd.table = s.cmd.table := by
  have htest : (waits s c).refusal.or (fieldTest (noteCapsule (waits s c) s) (waits s c)) = some st := by
    rw [fieldTest_noteCapsule]; exact hst
  have hE := noteCapsule_evolves_refl (waits s c) s
  have hpost := completeCap_evolves_refl (waits s c) st (noteCapsule (waits s c) s)
  have hsent := answered_completeCap (waits s c) st (noteCapsule (waits s c) s)
  rw [admitCap_of_wakes h hawake.wakes hnew, testCap, htest]
  exact ⟨hE.answered_before (by decide) (by decide) (by decide) hsent,
    (queued_of_evolves hpost (by decide)).trans (queued_of_evolves hE (by decide)),
    (table_of_evolves hpost (by decide)).trans (table_of_evolves hE (by decide))⟩

/-- Outside PS0 an admin command waits, unanswered. -/
theorem hold_of_not_awake (hps : s.cmd.ps ≠ 4) (h : s.cmd.ps ≠ 0 ∨ s.cmd.exiting = true) (i : Instr) (run : State → State) :
    hold i run s = { startExit s with waiting := s.waiting ++ [i] } := by
  unfold hold
  rw [if_neg hps, if_neg]
  obtain h | h := h <;> simp [h]

/-- A granted count of queues (R46). -/
theorem grantedQueues_fabrics {c : Controller} (h : c.fn = none) (value : Nat) :
    grantedQueues (pairLimit c) value = min (value % 65536 + 1) 128 := by
  simp only [grantedQueues, pairLimit, h, bitsOf]
  norm_num

/-- Settles O24: awake and on a ready controller each command is its effect on the state, and the completion it posts. -/
theorem adminCommandsComplete : Obligations.AdminCommandsComplete := by
  unfold Obligations.AdminCommandsComplete
  refine ⟨fun a cns nsid s hready hdata hawake => .admin hawake hready rfl ?identify,
    fun a lid nsid s hready hawake => .admin hawake hready rfl ?logPage,
    fun a value s hready hlow hawake => .admin hawake hready rfl ?power,
    fun a value s hready hhigh hawake => .admin hawake hready rfl ?powerRefused,
    fun a value s hready hfn hawake => .admin hawake hready rfl ?queues,
    fun a fid value s hready hfid hawake => .admin hawake hready rfl ?stored,
    fun a value s hready hawake => .admin hawake hready rfl ?keepAliveTime,
    fun a fid value s hready hfid hawake => .admin hawake hready rfl ?returned,
    fun a fid value s hready hawake => .admin hawake hready rfl ?fields,
    fun a s hready hawake => .admin hawake hready rfl ?keepAlive,
    fun a sqid target others c s hready hothers hsqid hfind hawake => .admin hawake hready rfl ?abort,
    fun a sqid target others s hready hothers hsqid hfind hentries hawake => .admin hawake hready rfl ?abortNone,
    fun a s hready hnotices haers hawake => .admin hawake hready rfl ?event,
    fun a nsid s hready hcode hawake => .admin hawake hready rfl ?short,
    fun a nsid s hready hcode hawake => .admin hawake hready rfl ?extended,
    fun a nsid s hready hcode hawake => .admin hawake hready rfl ?running,
    fun a s hready hcode hawake => .admin hawake hready rfl ?testAbort,
    fun a opc s hready hawake => ?opcode,
    fun a sqid opc s hsqid harrive hawake => ?ioOpcode,
    fun a cns nsid s hps hexits => ?waits⟩
  case identify =>
    obtain ⟨d, hd⟩ := Option.isSome_iff_exists.1 hdata
    simpa only [hd, Option.getD_some] using adminData_answered a d s
  case logPage =>
    refine ⟨?_, ?_, ?_, fun ⟨hself, hana, hshelf⟩ => ?_⟩
    · rintro rfl; exact adminData_answered a _ s
    · rintro rfl; exact adminData_answered a _ s
    · rintro rfl; exact adminData_answered a _ s
    · split
      next => exact absurd rfl hself
      next => exact absurd rfl hana
      next => exact absurd rfl hshelf
      next => exact answered_postAdmin a stInvalidField 0 s
  case power =>
    have hsame : ¬ value < (onCtrl a.cntlid (fun c => { c with pm := value }) s).cmd.ps := by
      rw [show (onCtrl a.cntlid (fun c => { c with pm := value }) s).cmd.ps = 0 from hawake.1]; exact Nat.not_lt_zero _
    simp only [if_neg (Nat.not_le.2 hlow), if_neg hsame]
    exact ⟨by rw [ctrlOf_postAdmin_onCtrl], answered_postAdmin_onCtrl a stOk 0 _ _ s⟩
  case powerRefused =>
    simp only [if_pos hhigh]
    exact ⟨by rw [ctrlOf_postAdmin], answered_postAdmin a stInvalidField 0 s⟩
  case queues =>
    simp only [grantedQueues_fabrics hfn]
    exact ⟨by rw [ctrlOf_postAdmin_onCtrl], answered_postAdmin_onCtrl a stOk _ _ _ s⟩
  case stored =>
    obtain rfl | rfl := hfid
    all_goals exact ⟨by simp [ctrlOf_postAdmin, setFeature], answered_postAdmin_onCtrl a stOk 0 _ _ s⟩
  case keepAliveTime =>
    have hstored := ctrlOf_postAdmin_onCtrl a stOk 0 (fun c => { c with kato := value, kaStart := s.now }) s
    exact ⟨congrArg Controller.kato hstored, congrArg Controller.kaStart hstored, answered_postAdmin_onCtrl a stOk 0 _ _ s⟩
  case returned =>
    obtain rfl | rfl := hfid
    all_goals exact ⟨answered_postAdmin a stOk _ s, ctrls_of_evolves (postAdmin_evolves_refl a stOk _ s) (by decide)⟩
  case fields =>
    refine ⟨?_, ?_, ?_⟩
    all_goals rintro rfl; exact answered_postAdmin a stOk _ s
  case keepAlive =>
    exact ⟨by rw [ctrlOf_postAdmin_onCtrl], answered_postAdmin_onCtrl a stOk 0 _ _ s⟩
  case abort =>
    obtain ⟨hcntlid, hsqid', hcid⟩ := names_of_find hfind
    have hpost := postAdmin_evolves_refl a stOk 0 (capsuleAborted c s)
    simp only [if_neg (Nat.not_le.2 hothers), if_neg hsqid, hfind]
    refine ⟨(queued_of_evolves hpost (by decide)).trans (queued_capsuleAborted c s),
      hpost.answered (hcntlid ▸ hsqid' ▸ hcid ▸ answered_capsuleAborted c s), fun hpcie => ?_⟩
    exact sent_postAdmin_of_fabrics ((congrArg (·.pcie) (queueOf_capsuleAborted c s a.cntlid 0)).trans hpcie) stOk 0
  case abortNone =>
    simp only [if_neg (Nat.not_le.2 hothers), if_neg hsqid, hfind, hentries]
    obtain ⟨hqueued, htable⟩ := postAdmin_commands a stOk 1 s
    exact ⟨hqueued, htable, answered_postAdmin a stOk 1 s⟩
  case event =>
    simp only [hnotices, if_neg (Nat.not_le.2 haers)]
    exact ⟨by rw [ctrlOf_onCtrl_same], rfl⟩
  case short => exact startSelfTest_of_idle hcode a 1 nsid
  case extended => exact startSelfTest_of_idle hcode a 2 nsid
  case running =>
    simp only [startSelfTest, if_pos hcode]
    exact ⟨test_of_evolves (postAdmin_evolves_refl a stSelfTest 0 s) (by decide), answered_postAdmin a stSelfTest 0 s⟩
  case testAbort =>
    have hpost := postAdmin_evolves_refl a stOk 0 (endSelfTest 1 s)
    have hend : Evolves [.events, .counters, .sampling, .powerState] s (endSelfTest 1 s) := endSelfTest_evolves .refl Sub.rfl
    obtain ⟨hidle, hlog, htold⟩ := endSelfTest_of_running hcode 1
    exact ⟨by rw [test_of_evolves hpost (by decide), hidle], by rw [test_of_evolves hpost (by decide), hlog],
      hpost.emitted_mono (by decide) htold,
      hend.answered_before (by decide) (by decide) (by decide) (answered_postAdmin a stOk 0 _)⟩
  case opcode =>
    exact .admin hawake hready rfl ⟨answered_postAdmin a stInvalidOpcode 0 s,
      ctrls_of_evolves (postAdmin_evolves_refl a stInvalidOpcode 0 s) (by decide)⟩
  case ioOpcode =>
    obtain ⟨hanswered, hqueued, -⟩ := admitCap_refused
      (c := { capsule ⟨a.cntlid, sqid, a.cid, 0⟩ opc 0 with refusal := some stInvalidOpcode }) harrive hawake rfl rfl
    exact .of_exec (congrArg Host.Outcome.next (if_neg hsqid)) ⟨hanswered, hqueued⟩
  case waits =>
    exact .of_exec (congrArg Host.Outcome.next (hold_of_not_awake hps hexits (.identify a cns nsid) _))
      ⟨rfl, startExit_out s, fun hlow => startExit_exiting (.inl hlow)⟩

end Sys2Proof.Machine
end

section
/-! PROOFS. I/O commands as they arrive: queued where they are admitted, completed at once where a test refuses them (R45, R48,
R51 to R53, R77). -/

namespace Sys2Proof.Machine

variable {s : State} {c : Capsule}

theorem holdCells_evolves_refl (port owner n : Nat) (s : State) : Evolves [.buffer, .regs, .regSwc] s (holdCells port owner n s).2 :=
  holdCells_evolves .refl Sub.rfl

/-- Taking a slot leaves the waiting capsules and the command table. -/
theorem takeSlot_commands (c : Capsule) (s : State) :
    (takeSlot c s).cmd.queued = s.cmd.queued ∧ (takeSlot c s).cmd.table = s.cmd.table := by
  unfold takeSlot
  split
  next => exact ⟨rfl, rfl⟩
  next =>
    have hE := holdCells_evolves_refl c.port 4 (cellsFor (64 + c.inline.length)) s
    have hqueued := queued_of_evolves hE (by decide)
    have htable := table_of_evolves hE (by decide)
    exact ⟨hqueued, htable⟩

/-- A capsule that joins those that wait comes last of them. -/
theorem enqueueCap_commands (c : Capsule) (s : State) :
    (enqueueCap c s).cmd.queued = s.cmd.queued ++ [c] ∧ (enqueueCap c s).cmd.table = s.cmd.table := by
  obtain ⟨hqueued, htable⟩ := takeSlot_commands c s
  exact ⟨congrArg (· ++ [c]) hqueued, htable⟩

/-- A capsule that passes its tests in PS0 waits for its grant; one of class 0 pays for it first. -/
theorem testCap_admitted (hrefusal : c.refusal = none) (hfields : fieldTest s c = none)
    (hc0 : c.cls = 0 → c0Test s c.port (portMbps s c.port) c.xlen = none) :
    (testCap c s).cmd.queued = s.cmd.queued ++ [c] ∧ (testCap c s).cmd.table = s.cmd.table := by
  simp only [testCap, hrefusal, hfields, Option.or_none]
  split
  next => exact enqueueCap_commands c s
  next hcls =>
    simp only [hc0 (not_not.1 hcls)]
    exact enqueueCap_commands c (c0Charge ..)

theorem startExit_commands (s : State) :
    (startExit s).cmd.queued = s.cmd.queued ∧ (startExit s).cmd.table = s.cmd.table := by
  unfold startExit; split <;> exact ⟨rfl, rfl⟩

/-- An admitted capsule waits for its grant, tested or not. -/
theorem admitCap_admitted (h : Admits s c) (hrefusal : c.refusal = none) (hnew : c.untested = false) :
    (admitCap c s).cmd.queued = s.cmd.queued ++ [waits s c] ∧ (admitCap c s).cmd.table = s.cmd.table := by
  obtain ⟨harrives, hfields, hc0⟩ := h
  by_cases hsleeps : Sleeps s
  · rw [admitCap_of_sleeps harrives hsleeps]
    obtain ⟨hqueued, htable⟩ := enqueueCap_commands (waits s c) (noteCapsule { waits s c with untested := c.untested } (startExit s))
    obtain ⟨hstart, hstart'⟩ := startExit_commands s
    exact ⟨by rw [hqueued, cmd_noteCapsule, hstart], by rw [htable, cmd_noteCapsule, hstart']⟩
  · rw [admitCap_of_wakes harrives hsleeps hnew, ← cmd_noteCapsule (waits s c) s]
    refine testCap_admitted hrefusal ?_ fun hcls => ?_
    · rw [fieldTest_noteCapsule]; exact hfields
    · rw [c0Test_noteCapsule, portMbps_noteCapsule]; exact hc0 hcls

theorem exiting_of_evolves {w : List Part} {t : State} (h : Evolves w s t) (hw : .powerState ∉ w) : t.cmd.exiting = s.cmd.exiting := by
  have hsame := h.same .powerState hw
  simp only [Part.Same, Prod.mk.injEq] at hsame
  simp only [hsame]

/-- Settles O26: each command is its capsule admitted; a capsule that comes outside PS0 waits untested. -/
theorem ioCommandsAreQueued : Obligations.IoCommandsAreQueued := by
  unfold Obligations.IoCommandsAreQueued
  refine ⟨fun h slba nlb sgl s hadmits => .of_exec rfl (admitCap_admitted hadmits rfl rfl),
    fun h slba nlb sgl inline s hadmits => .of_exec rfl (admitCap_admitted hadmits rfl rfl),
    fun h s hadmits => .of_exec rfl (admitCap_admitted hadmits rfl rfl),
    fun h slba nlb sgl inline s hadmits => .of_exec rfl (admitCap_admitted hadmits rfl rfl),
    fun h slba nlb s hadmits => .of_exec rfl (admitCap_admitted hadmits rfl rfl),
    fun h slba nlb s hadmits => .of_exec rfl (admitCap_admitted hadmits rfl rfl),
    fun h ranges s hadmits => .of_exec rfl (admitCap_admitted hadmits rfl rfl),
    fun h key len sgl inline s hadmits => .of_exec rfl (admitCap_admitted hadmits rfl rfl),
    fun h key bufLen sgl s hadmits => .of_exec rfl (admitCap_admitted hadmits rfl rfl),
    fun h key s hadmits => .of_exec rfl (admitCap_admitted hadmits rfl rfl),
    fun h key s hadmits => .of_exec rfl (admitCap_admitted hadmits rfl rfl),
    fun h key bufLen sgl s hadmits => .of_exec rfl (admitCap_admitted hadmits rfl rfl),
    fun h s hadmits => .of_exec rfl (admitCap_admitted hadmits rfl rfl),
    fun h slba nlb sgl s harrives hps => .of_exec rfl ?_⟩
  have hsleeps : Sleeps s := hps.symm
  rw [admitCap_of_sleeps harrives hsleeps]
  refine ⟨?queued, ?exiting, (untested_waits _).2 hsleeps⟩
  case queued => rw [(enqueueCap_commands ..).1, cmd_noteCapsule, (startExit_commands s).1]
  case exiting =>
    rw [exiting_of_evolves (enqueueCap_evolves .refl Sub.rfl) (by decide), cmd_noteCapsule, startExit_of_sleeps hsleeps]

theorem refuseC0_evolves_refl (c : Capsule) (st : Status) (test : Nat) (s : State) :
    Evolves [.events, .counters, .sampling, .contexts, .functions, .hostQueues, .leash, .replicas, .regs, .regCmd, .out] s
      (refuseC0 c st test s) := refuseC0_evolves .refl Sub.rfl

/-- What class 0 refuses is told with its port, test and controller, and completed. -/
theorem refuseC0_told (c : Capsule) (st : Status) (test : Nat) (s : State) :
    Answered s (refuseC0 c st test s) c.cntlid c.sqid c.cid st 0 ∧
      Emitted s (refuseC0 c st test s) 0x561 1 0x601 (c.port * 2 ^ 30 + test * 2 ^ 28 + c.cntlid) := by
  refine ⟨answered_of_stands (answered_completeCap c st _) rfl rfl, ?_⟩
  exact (completeCap_evolves_refl c st _).emitted_mono (by decide) (emitted_emit_of _ _ _ _ rfl)

/-- A class 0 capsule whose fields pass and that a test of R53 refuses. -/
theorem admitCap_c0Refused {st : Status} {test : Nat} (harrives : MayArrive s c) (hawake : Awake s) (hfields : fieldTest s c = none)
    (hcls : classIn s c = 0)
    (hc0 : c0Test s (queueOf s c.cntlid c.sqid).port (portMbps s (queueOf s c.cntlid c.sqid).port) c.xlen = some (st, test))
    (hrefusal : c.refusal = none) (hnew : c.untested = false) :
    Answered s (admitCap c s) c.cntlid c.sqid c.cid st 0 ∧ (admitCap c s).cmd.queued = s.cmd.queued ∧
      Emitted s (admitCap c s) 0x561 1 0x601 ((queueOf s c.cntlid c.sqid).port * 2 ^ 30 + test * 2 ^ 28 + c.cntlid) := by
  have hnote := noteCapsule_evolves_refl (waits s c) s
  have hrefused : admitCap c s = refuseC0 (waits s c) st test (noteCapsule (waits s c) s) := by
    have hfields' : (waits s c).refusal.or (fieldTest (noteCapsule (waits s c) s) (waits s c)) = none := by
      rw [fieldTest_noteCapsule]; exact Option.or_eq_none_iff.2 ⟨hrefusal, hfields⟩
    have hc0' : c0Test (noteCapsule (waits s c) s) (waits s c).port (portMbps (noteCapsule (waits s c) s) (waits s c).port)
        (waits s c).xlen = some (st, test) := by
      rw [c0Test_noteCapsule, portMbps_noteCapsule]; exact hc0
    rw [admitCap_of_wakes harrives hawake.wakes hnew, testCap, hfields']
    simp only [if_neg (not_not_intro (show (waits s c).cls = 0 from hcls)), hc0']
  obtain ⟨hanswered, htold⟩ := refuseC0_told (waits s c) st test (noteCapsule (waits s c) s)
  have hE := refuseC0_evolves_refl (waits s c) st test (noteCapsule (waits s c) s)
  rw [hrefused]
  refine ⟨hnote.answered_before (by decide) (by decide) (by decide) hanswered, ?_, ?_⟩
  · rw [queued_of_evolves hE (by decide), queued_of_evolves hnote (by decide)]
  · unfold Emitted at htold ⊢
    rw [hnote.now_eq (by decide)] at htold
    exact htold

/-- Settles O27: the tests of a capsule that refuse it complete it at once. -/
theorem ioCommandsAreRefused : Obligations.IoCommandsAreRefused := by
  unfold Obligations.IoCommandsAreRefused
  refine ⟨fun h slba nlb sgl st s harrives htest hawake => ?read, fun h slba nlb sgl inline st s harrives htest hawake => ?write,
    fun h slba nlb sgl st test s harrives hfields hcls hen hawake hc0 => ?class0, fun h ranges s harrives hawake => ?attributes⟩
  case read =>
    obtain ⟨hanswered, hqueued, -⟩ := admitCap_refused harrives hawake htest rfl
    exact .of_exec rfl ⟨hanswered, hqueued⟩
  case write =>
    obtain ⟨hanswered, hqueued, -⟩ := admitCap_refused harrives hawake htest rfl
    exact .of_exec rfl ⟨hanswered, hqueued⟩
  case class0 =>
    refine .of_exec rfl (admitCap_c0Refused harrives hawake hfields ?_ hc0 rfl rfl)
    exact (if_neg fun hoff => absurd (hen.symm.trans hoff.2) (by decide)).trans hcls
  case attributes =>
    have hrefused := admitCap_refused (st := stInvalidField)
      (c := { capsule h 0x09 (blockBytes s h.nsid (ranges.map (·.2)).sum) with
        ranges := ranges, refusal := if false then none else some stInvalidField }) harrives hawake rfl rfl
    exact ⟨_, rfl, hrefused⟩

end Sys2Proof.Machine
end

section
/-! PROOFS. Power states and the ends of self-tests (R75 to R79). -/

namespace Sys2Proof.Machine

variable {s t u : State} {w : List Part}

/-- Where a table lists a key, and the changed value is no default, `mapAll` changes what the key reads as. -/
theorem Tab.at_mapAll {α : Type} [Inhabited α] [DecidableEq α] {f : Nat → α → α} {k : Nat} {t : Tab α} (hlisted : t.at k ≠ default)
    (hkept : f k (t.at k) ≠ default) : (t.mapAll f).at k = f k (t.at k) := by
  induction t with
  | nil => exact absurd rfl hlisted
  | cons e t ih =>
    obtain ⟨j, x⟩ := e
    by_cases hj : k = j
    · subst hj
      have hx : Tab.at ((k, x) :: t) k = x := by simp [Tab.at, Tab.getD, Tab.look]
      rw [hx] at hkept ⊢
      simp [Tab.mapAll, Tab.at, Tab.getD, Tab.look, hkept]
    · have hx : Tab.at ((j, x) :: t) k = Tab.at t k := by simp [Tab.at, Tab.getD, Tab.look, hj]
      rw [hx] at hlisted hkept ⊢
      rw [← ih hlisted hkept]
      by_cases hd : f j x = default
      · simp [Tab.mapAll, hd]
      · simp [Tab.mapAll, Tab.at, Tab.getD, Tab.look, hd, hj]

theorem powerState_of_evolves (h : Evolves w s t) (hw : .powerState ∉ w) :
    t.cmd.ps = s.cmd.ps ∧ t.cmd.exiting = s.cmd.exiting ∧ t.cmd.idleFrom = s.cmd.idleFrom ∧ t.cmd.test = s.cmd.test := by
  have hsame := h.same .powerState hw
  simp only [Part.Same, Prod.mk.injEq] at hsame
  simp only [hsame, and_self]

/-- What a new power state powers and switches off. -/
def psPowered (new : Nat) (s : State) : State :=
  let u := followL1 (s.onCmd fun c => { c with ps := new })
  if new = 4 ∧ s.cmd.ps ≠ 4 then enterPs4 u else u

/-- What a change of power state does before it is told. -/
def psSettled (new : Nat) (s : State) : State :=
  if 3 ≤ s.cmd.ps ∧ new ≤ 2 then
    (psPowered new s).onCmd fun c => { c with ctrls := c.ctrls.mapAll fun _ x => { x with kaStart := (psPowered new s).now } }
  else psPowered new s

theorem psChange_eq (new : Nat) (s : State) : psChange new s =
    if s.cmd.ps = new then psSettled new s else emit 0x563 0x608 0 (s.cmd.ps * 16 + new) (psSettled new s) := rfl

theorem psPowered_evolves (new : Nat) (s : State) :
    Evolves [.events, .counters, .sampling, .drivePorts, .stamps, .regs, .regPrt, .out]
      (s.onCmd fun c => { c with ps := new }) (psPowered new s) := by
  have hfollow : Evolves [.events, .counters, .sampling, .drivePorts, .stamps, .regs, .regPrt, .out]
      (s.onCmd fun c => { c with ps := new }) (followL1 (s.onCmd fun c => { c with ps := new })) :=
    followL1_evolves .refl (Sub.of Sub.rfl rfl)
  exact .ite (fun _ => enterPs4_evolves hfollow (Sub.of Sub.rfl rfl)) fun _ => hfollow

/-- Beside the state itself, a change of power state touches what it powers, and the Keep Alive times. -/
theorem psSettled_evolves (new : Nat) (s : State) :
    Evolves [.events, .counters, .sampling, .controllers, .drivePorts, .stamps, .regs, .regPrt, .out]
      (s.onCmd fun c => { c with ps := new }) (psSettled new s) := by
  have hpowered := (psPowered_evolves new s).mono
    (w' := [.events, .counters, .sampling, .controllers, .drivePorts, .stamps, .regs, .regPrt, .out]) (Sub.of Sub.rfl rfl)
  exact .ite (fun _ => state_onCmd_evolves hpowered (.inl (Sub.of Sub.rfl rfl)) (.inr rfl) (.inr rfl) (.inr rfl) (.inr rfl) (.inr rfl))
    fun _ => hpowered

theorem psChange_evolves_after (new : Nat) (s : State) :
    Evolves [.events, .counters, .sampling, .controllers, .drivePorts, .stamps, .regs, .regPrt, .out]
      (s.onCmd fun c => { c with ps := new }) (psChange new s) := by
  rw [psChange_eq]
  exact .ite (fun _ => psSettled_evolves new s) fun _ => emit_evolves (psSettled_evolves new s) (Sub.of Sub.rfl rfl)

/-- A change of power state sets the state and leaves the exit, the idle timer's start and the self-test. -/
theorem psChange_powerState (new : Nat) (s : State) : (psChange new s).cmd.ps = new ∧
    (psChange new s).cmd.exiting = s.cmd.exiting ∧ (psChange new s).cmd.idleFrom = s.cmd.idleFrom ∧
    (psChange new s).cmd.test = s.cmd.test :=
  powerState_of_evolves (psChange_evolves_after new s) (by decide)

theorem psChange_told {new : Nat} (h : s.cmd.ps ≠ new) : Emitted s (psChange new s) 0x563 0 0x608 (s.cmd.ps * 16 + new) := by
  rw [psChange_eq, if_neg h]
  exact emitted_emit_of _ _ _ _ ((psSettled_evolves new s).now_eq (by decide))

/-- A controller is ready after a change of power state where it was before: only its Keep Alive time may start anew. -/
theorem ctrlOf_psChange {cntlid : Nat} (h : (ctrlOf s cntlid).ready = true) (new : Nat) :
    (ctrlOf (psChange new s) cntlid).ready = true := by
  have hctrls : (psChange new s).cmd.ctrls = (psSettled new s).cmd.ctrls := by
    rw [psChange_eq]
    split
    next => rfl
    next => exact ctrls_of_evolves (emit_evolves .refl Sub.rfl) (by decide)
  have hpowered : (psPowered new s).cmd.ctrls = s.cmd.ctrls := (psPowered_evolves new s).same .controllers (by decide)
  unfold ctrlOf at h ⊢
  rw [hctrls]
  unfold psSettled
  split
  next =>
    have hne : s.cmd.ctrls.at cntlid ≠ default := fun hd => absurd (hd ▸ h) (by decide)
    have hne' : { s.cmd.ctrls.at cntlid with kaStart := (psPowered new s).now } ≠ default := fun hd => by
      have hstate : (s.cmd.ctrls.at cntlid).state = 0 := congrArg Controller.state hd
      simp [Controller.ready, hstate] at h
    rw [show ∀ (x : State) (f : Cmd → Cmd), (x.onCmd f).cmd.ctrls = (f x.cmd).ctrls from fun _ _ => rfl, hpowered, Tab.at_mapAll hne hne']
    exact h
  next => rw [hpowered]; exact h

theorem waiting_of_evolves (h : Evolves w s t) (hw : .heldCommands ∉ w) : t.waiting = s.waiting := h.same .heldCommands hw

theorem runKeepAlive_of_ready {a : Admin} (h : (ctrlOf s a.cntlid).ready = true) :
    runKeepAlive a s = postAdmin a stOk 0 (onCtrl a.cntlid (fun c => { c with kaStart := s.now }) s) := adminCommand_of_ready h

/-! The end of an exit (R77). -/

/-- PS0 reached, before the commands that waited are taken. -/
def exitEnded (s : State) : State :=
  { psChange 0 (s.onCmd fun c => { c with exiting := false, idleFrom := s.now }) with waiting := [] }

theorem exec_powerStateExitDone (h : s.cmd.exiting = true) :
    exec .powerStateExitDone s = .next (testWaiting (s.waiting.foldl runHeld (exitEnded s))) := by
  have hE : Evolves _ _ (psChange 0 (s.onCmd fun c => { c with exiting := false, idleFrom := s.now })) := psChange_evolves .refl Sub.rfl
  have hwaiting := hE.same .heldCommands (by decide)
  change execPowerStateExitDone s = _
  unfold execPowerStateExitDone
  rw [if_pos h]
  exact congrArg (fun l => Host.Outcome.next (testWaiting (List.foldl runHeld (exitEnded s) l))) hwaiting

theorem exitEnded_evolves (s : State) :
    Evolves [.events, .counters, .sampling, .controllers, .powerState, .drivePorts, .stamps, .regs, .regPrt, .heldCommands, .out] s
      (exitEnded s) :=
  .waitingSet [] (psChange_evolves (state_onCmd_evolves .refl (.inr rfl) (.inr rfl) (.inr rfl) (.inr rfl) (.inr rfl)
    (.inl (Sub.of Sub.rfl rfl))) (Sub.of Sub.rfl rfl)) (Sub.of Sub.rfl rfl)

theorem exitEnded_powerState (s : State) :
    (exitEnded s).cmd.ps = 0 ∧ (exitEnded s).cmd.exiting = false ∧ (exitEnded s).cmd.idleFrom = s.now := by
  obtain ⟨hps, hexit, hidle, -⟩ := psChange_powerState 0 (s.onCmd fun c => { c with exiting := false, idleFrom := s.now })
  exact ⟨hps, hexit, hidle⟩

theorem exitEnded_told (h : 0 < s.cmd.ps) : Emitted s (exitEnded s) 0x563 0 0x608 (s.cmd.ps * 16) :=
  psChange_told (s := s.onCmd fun c => { c with exiting := false, idleFrom := s.now }) (new := 0) h.ne'

theorem testWaiting_evolves_refl (s : State) : Evolves [.events, .counters, .sampling, .commands, .contexts, .buffer, .functions,
    .hostQueues, .leash, .replicas, .regs, .regSwc, .regCmd, .out] s (testWaiting s) := testWaiting_evolves .refl Sub.rfl

/-- The capsules that were tested before wait on, in their order. -/
theorem queued_testWaiting (h : ∀ c ∈ s.cmd.queued, c.untested = false) : (testWaiting s).cmd.queued = s.cmd.queued := by
  have hfold (l : List Capsule) : ∀ u : State, (∀ c ∈ l, c.untested = false) →
      (l.foldl (fun s c => if c.untested then testCap { c with untested := false } s else enqueueCap c s) u).cmd.queued =
        u.cmd.queued ++ l := by
    induction l with
    | nil => intro u _; simp
    | cons c l ih =>
      intro u hl
      obtain ⟨hc, hrest⟩ := List.forall_mem_cons.1 hl
      rw [List.foldl_cons, ih _ hrest, hc, if_neg Bool.false_ne_true, (enqueueCap_commands c u).1, List.append_assoc,
        List.singleton_append]
  rw [testWaiting, queued_sweepSlots]
  exact hfold s.cmd.queued _ h

/-- A capsule's tests read the namespaces and its queue. -/
theorem fieldTest_congr (hn : t.cmd.namespaces = s.cmd.namespaces) (hq : t.cmd.queues = s.cmd.queues) (c : Capsule) :
    fieldTest t c = fieldTest s c := by
  unfold fieldTest queueOf
  rw [hn, hq]

theorem namespaces_of_evolves (h : Evolves w s t) (hw : .namespaces ∉ w) : t.cmd.namespaces = s.cmd.namespaces := by
  have hsame := h.same .namespaces hw
  simp only [Part.Same, Prod.mk.injEq] at hsame
  exact hsame.1

/-- A capsule that came alone during the exit and fails a test is completed, and no capsule waits. -/
theorem testWaiting_refused {c : Capsule} {st : Status} (hqueued : s.cmd.queued = [c]) (huntested : c.untested = true)
    (hst : c.refusal.or (fieldTest s c) = some st) :
    (testWaiting s).cmd.queued = [] ∧ Answered s (testWaiting s) c.cntlid c.sqid c.cid st 0 := by
  have hrun : testWaiting s = sweepSlots (completeCap { c with untested := false } st (s.onCmd fun m => { m with queued := [] })) := by
    have htest : c.refusal.or (fieldTest (s.onCmd fun m => { m with queued := [] }) { c with untested := false }) = some st := hst
    simp only [testWaiting, hqueued, List.foldl_cons, List.foldl_nil, huntested, if_true, testCap, htest]
  rw [hrun]
  refine ⟨?_, (sweepSlots_evolves_refl _).answered (answered_of_stands (answered_completeCap { c with untested := false } st _) rfl rfl)⟩
  rw [queued_sweepSlots]
  exact (queued_of_evolves (completeCap_evolves_refl ..) (by decide)).trans rfl

/-! The end of a self-test (R78). -/

theorem endSelfTest_evolves_refl (result : Nat) (s : State) : Evolves [.events, .counters, .sampling, .powerState] s (endSelfTest result s) :=
  endSelfTest_evolves .refl Sub.rfl

/-- What fencing a cipher lane, a layout lane or a buffer bank may change. -/
def laneFenceParts : List Part := [.events, .fences, .counters, .sampling, .controllers, .namespaces, .commands, .contexts, .layoutWork,
  .ciphers, .driveSlots, .buffer, .traffic, .functions, .hostReads, .hostQueues, .leash, .replicas, .regs, .regPrt, .regSwc, .regRed, .out]

/-- A unit that a test covers is a cipher lane, a layout lane or a buffer bank. -/
theorem fenceAny_covered {item : TestItem} {unit block : Nat} (h : item.covers unit block = true) (reason : Nat)
    (hE : Evolves laneFenceParts s t) : Evolves laneFenceParts s (fenceAny block unit reason t) := by
  have hblock : block = 10 ∨ block = 7 ∨ block = 3 := by
    cases item <;> simp_all [TestItem.covers]
  unfold fenceAny
  refine .ite (fun _ => hE) fun _ => ?_
  obtain rfl | rfl | rfl := hblock
  · exact fenceCipherLane_evolves hE (Sub.of Sub.rfl rfl)
  · exact fenceLayoutLane_evolves hE (Sub.of Sub.rfl rfl)
  · exact fenceBank_evolves hE (Sub.of Sub.rfl rfl)

/-- The units that a test found failed. -/
def failedUnits (failed : List (Nat × Nat)) (items : List TestItem) : List (Nat × Nat) :=
  failed.filter fun u => items.any (TestItem.covers u.2 u.1)

theorem fenceFailed_evolves (failed : List (Nat × Nat)) (items : List TestItem) (s : State) :
    Evolves laneFenceParts s ((failedUnits failed items).foldl (fun s u => fenceAny u.1 u.2 1 s) s) := by
  refine List.foldlRecOn _ _ .refl fun t hE u hu => ?_
  obtain ⟨item, -, hcovers⟩ := List.any_eq_true.1 (List.mem_filter.1 hu).2
  exact fenceAny_covered hcovers 1 hE

theorem exec_selftestDone (result : Nat) (failed : List (Nat × Nat)) (s : State) : exec (.selftestDone result failed) s =
    .next ((failedUnits failed s.cmd.test.items).foldl (fun s u => fenceAny u.1 u.2 1 s) (endSelfTest (result % 16) s)) := rfl

/-- The end of a test that found a cipher lane failed. -/
theorem exec_selftestDone_lane {lane : Nat} (hitem : TestItem.cipherLanes ∈ s.cmd.test.items) (result : Nat) :
    exec (.selftestDone result [(10, lane)]) s = .next (fenceAny 10 lane 1 (endSelfTest (result % 16) s)) := by
  have hfailed : failedUnits [(10, lane)] s.cmd.test.items = [(10, lane)] :=
    List.filter_eq_self.2 fun u hu => by
      obtain rfl := List.mem_singleton.1 hu
      exact List.any_eq_true.2 ⟨.cipherLanes, hitem, rfl⟩
  rw [exec_selftestDone, hfailed]
  rfl

theorem fencedUnit_fenceAny_lane {lane : Nat} (hlane : lane < 64) (s : State) : fencedUnit (fenceAny 10 lane 1 s) 10 lane = true := by
  by_cases hfree : fencedUnit s 10 lane = true
  · have hstands : fenceAny 10 lane 1 s = s := if_pos (.inl hfree)
    rwa [hstands]
  · exact (fenceTold_fenceAny hlane (by simpa using hfree) (fun h => absurd h (by decide)) 1).isFenced

/-- Settles O25: the change of power state with the capsules that waited for it, and the end of a test with its fences. -/
theorem powerStatesAndSelfTestsComplete : Obligations.PowerStatesAndSelfTestsComplete := by
  unfold Obligations.PowerStatesAndSelfTestsComplete
  refine ⟨fun s hdeepen => ?idle, fun s hexit hps hwaiting => ?exit, fun a s hexit hwaiting hqueued hready => ?keepAlive,
    fun c st s hexit hwaiting hqueued huntested hst => ?refused, fun result failed s hcode => ?done,
    fun result lane s hcode hitem hlane => ?lane, fun s hcode => ?timeout⟩
  case idle =>
    have hE := (psChange_evolves .refl Sub.rfl : Evolves _ s (psChange (s.cmd.ps + 1) s))
    exact .of_exec (if_pos hdeepen) ⟨(psChange_powerState _ s).1, psChange_told (Nat.lt_succ_self _).ne, table_of_evolves hE (by decide)⟩
  case exit =>
    have hE := exitEnded_evolves s
    have htest := testWaiting_evolves_refl (exitEnded s)
    obtain ⟨hps', hexit', hidle', -⟩ := powerState_of_evolves htest (by decide)
    obtain ⟨hpsEnded, hexitEnded, hidleEnded⟩ := exitEnded_powerState s
    refine .of_exec (exec_powerStateExitDone hexit) ?_
    rw [hwaiting, List.foldl_nil]
    refine ⟨hps'.trans hpsEnded, hexit'.trans hexitEnded, hidle'.trans hidleEnded, htest.emitted_mono (by decide) (exitEnded_told hps),
      fun hall => ?_⟩
    have hqueued := queued_of_evolves hE (by decide)
    exact (queued_testWaiting (hqueued.symm ▸ hall)).trans hqueued
  case keepAlive =>
    have hE := exitEnded_evolves s
    have hpost := postAdmin_evolves_refl a stOk 0 (onCtrl a.cntlid (fun c => { c with kaStart := (exitEnded s).now }) (exitEnded s))
    have hready' : (ctrlOf (exitEnded s) a.cntlid).ready = true :=
      ctrlOf_psChange (s := s.onCmd fun c => { c with exiting := false, idleFrom := s.now }) hready 0
    have hrun : s.waiting.foldl runHeld (exitEnded s) =
        postAdmin a stOk 0 (onCtrl a.cntlid (fun c => { c with kaStart := (exitEnded s).now }) (exitEnded s)) := by
      rw [hwaiting]
      exact runKeepAlive_of_ready hready'
    refine .of_exec (exec_powerStateExitDone hexit) ?_
    rw [hrun]
    have htest := testWaiting_evolves_refl
      (postAdmin a stOk 0 (onCtrl a.cntlid (fun c => { c with kaStart := (exitEnded s).now }) (exitEnded s)))
    refine ⟨?_, ?_, ?_, ?_⟩
    · exact (powerState_of_evolves htest (by decide)).1.trans ((powerState_of_evolves hpost (by decide)).1.trans (exitEnded_powerState s).1)
    · exact (waiting_of_evolves htest (by decide)).trans (waiting_of_evolves hpost (by decide))
    · rw [ctrlOf_of_evolves htest (by decide), ctrlOf_postAdmin_onCtrl]
      exact hE.now_eq (by decide)
    · exact htest.answered (hE.answered_before (by decide) (by decide) (by decide) (answered_postAdmin_onCtrl a stOk 0 _ _ _))
  case refused =>
    have hE := exitEnded_evolves s
    have hq := queued_of_evolves hE (by decide)
    have hfields := fieldTest_congr (namespaces_of_evolves hE (by decide)) (queues_of_evolves hE (by decide)) c
    obtain ⟨hempty, hanswered⟩ := testWaiting_refused (hq.trans hqueued) huntested (hfields.symm ▸ hst)
    obtain ⟨hps', -⟩ := powerState_of_evolves (testWaiting_evolves_refl (exitEnded s)) (by decide)
    refine .of_exec (exec_powerStateExitDone hexit) ?_
    rw [hwaiting, List.foldl_nil]
    exact ⟨hps'.trans (exitEnded_powerState s).1, hempty, hE.answered_before (by decide) (by decide) (by decide) hanswered⟩
  case done =>
    obtain ⟨hidle, hlog, htold⟩ := endSelfTest_of_running hcode (result % 16)
    have hfenced := fenceFailed_evolves failed s.cmd.test.items (endSelfTest (result % 16) s)
    have htest := test_of_evolves hfenced (by decide)
    refine .of_exec (exec_selftestDone result failed s) ⟨?_, ?_, hfenced.emitted_mono (by decide) htold⟩
    · rw [htest, hidle]
    · rw [htest, hlog]
  case lane => exact .of_exec (exec_selftestDone_lane hitem result) (fencedUnit_fenceAny_lane hlane _)
  case timeout =>
    obtain ⟨hidle, hlog, htold⟩ := endSelfTest_of_running (s := s) (by omega) 8
    rw [hcode] at hlog htold
    exact .of_exec (if_pos hcode) ⟨hidle, hlog, htold⟩

end Sys2Proof.Machine
end

section
/-! PROOFS. A reset of the host endpoint passes over a function that is not present, its Bus Master Enable included (R330). -/

namespace Sys2Proof.Machine

variable {s : State}

theorem resetFn_of_absent {k : Nat} (h : (fnOf s k).present = false) (flr : Bool) : resetFn flr k s = s :=
  if_pos (by rw [h]; rfl)

/-- Where there are no VFs and no controllers, their removal leaves PF1 as it is. -/
theorem fnOf_removeVfs_of_none (hfns : ∀ k, (fnOf s (k + 1)).present = false) (hctrls : ∀ id, (ctrlOf s id).exists_ = false) :
    fnOf (removeVfs s) 0 = fnOf s 0 := by
  have hnone : (List.range 64).foldl (fun s i =>
      let s := resetFn false (i + 1) s
      if (ctrlOf s (fnCntlid (i + 1))).exists_ then
        (s.onCmd fun c => { c with ctrls := c.ctrls.put (fnCntlid (i + 1)) default }) else s) s = s :=
    foldl_keeps (P := (· = s)) (fun t i ht => by
      subst ht
      simp only [resetFn_of_absent (hfns i), hctrls, Bool.false_eq_true, if_false]) _ s rfl
  have hlook (t : Tab HepFn) : Tab.look (t.filter fun e => e.1 == 0 || e.1 == pf0) 0 = Tab.look t 0 := by
    induction t with
    | nil => rfl
    | cons e t ih =>
      obtain ⟨k, x⟩ := e
      by_cases hk : k = 0
      · simp [hk, Tab.look]
      · by_cases hp : k = pf0 <;> simp [hk, hp, Tab.look, Ne.symm hk, ih]
  unfold removeVfs
  rw [hnone]
  simp only [fnOf, Tab.at, Tab.getD, State.onHep, hlook]

/-- A link that is up, and beside it a PF1 that is not present and yet masters the bus. -/
def upWithoutPf1 : State :=
  (State.reset.setFld F.HEP_LINK_STAT_UP 1).onHep fun h => { h with fns := [(0, { (default : HepFn) with bme := true })] }

theorem fnOf_upWithoutPf1 (k : Nat) : fnOf upWithoutPf1 k = if k = 0 then { (default : HepFn) with bme := true } else default := by
  by_cases hk : k = 0 <;> simp [fnOf, upWithoutPf1, State.onHep, Tab.at, Tab.getD, Tab.look, hk]

theorem up_upWithoutPf1 : upWithoutPf1.fld F.HEP_LINK_STAT_UP = 1 :=
  (fld_setFld_same (s := State.reset) F.HEP_LINK_STAT_UP 1 (by decide) (by decide)).trans (by norm_num [F.HEP_LINK_STAT_UP])

theorem fnOf_of_evolves {w : List Part} {t : State} (h : Evolves w s t) (hw : .functions ∉ w) (k : Nat) : fnOf t k = fnOf s k := by
  have hsame := h.same .functions hw
  simp only [Part.Same, Prod.mk.injEq] at hsame
  simp only [fnOf, hsame]

/-- The link as it goes down, before its reset (R330). -/
def linkDropped (s : State) : State := emit 0x5D0 0xD02 2 0 ((dropHeLink s).bump F.HEP_LINK_STAT_DOWNS)

theorem linkDropped_evolves (s : State) : Evolves [.events, .counters, .sampling, .regs, .regHep] s (linkDropped s) :=
  emit_evolves (state_bump_evolves (dropHeLink_evolves .refl (Sub.of Sub.rfl rfl)) (Sub.of Sub.rfl rfl)) (Sub.of Sub.rfl rfl)

theorem exec_heLinkDown_of_up (h : s.fld F.HEP_LINK_STAT_UP = 1) : exec .heLinkDown s = .next (resetEndpoint 3 (linkDropped s)) := by
  change execHeLinkDown s = _
  unfold execHeLinkDown
  rw [h]
  rfl

/-- A reset of an endpoint whose only function there is a trace of is PF1, not present: PF1 keeps what it had. -/
theorem fnOf_resetEndpoint_of_absent (hfns : ∀ k, (fnOf s k).present = false) (hctrls : ∀ id, (ctrlOf s id).exists_ = false)
    (kind : Nat) : fnOf (resetEndpoint kind s) 0 = fnOf s 0 := by
  have hvfs : fnOf (removeVfs s) 0 = fnOf s 0 := fnOf_removeVfs_of_none (fun k => hfns (k + 1)) hctrls
  have hpf1 : resetFn false 0 (removeVfs s) = removeVfs s := resetFn_of_absent (by rw [hvfs, hfns]) false
  have hbone (u : State) : fnOf (resetPf0 false u) 0 = fnOf u 0 := by
    have hrelease (v : State) : fnOf (if v.ctl.bone.path = 4 then releaseBone v else v) 0 = fnOf v 0 := by
      split
      next => exact fnOf_of_evolves (releaseBone_evolves .refl Sub.rfl) (by decide) 0
      next => rfl
    unfold resetPf0
    simp only [fnOf, onFn, State.onHep, Tab.at_upd]
    exact hrelease (u.onCtl fun c => { c with paths := c.paths.put 4 default })
  unfold resetEndpoint
  rw [fnOf_of_evolves (emit_evolves .refl Sub.rfl) (by decide), hbone, hpf1, hvfs]

/-- Refutes O29: its second clause supposes of PF1 only that the link is up. A reset passes over a PF1 that is not present, so one
that is not present and yet masters the bus still does so after HE_LINK_DOWN. -/
theorem not_hostLinkAndResetsComplete : ¬ Obligations.HostLinkAndResetsComplete := by
  unfold Obligations.HostLinkAndResetsComplete
  rintro ⟨-, hdown, -⟩
  obtain ⟨t, hexec, -, -, -, -, hbme⟩ := hdown upWithoutPf1 up_upWithoutPf1
  have hE := linkDropped_evolves upWithoutPf1
  have hrun : exec .heLinkDown upWithoutPf1 = .next (resetEndpoint 3 (linkDropped upWithoutPf1)) :=
    exec_heLinkDown_of_up up_upWithoutPf1
  obtain rfl : resetEndpoint 3 (linkDropped upWithoutPf1) = t := Host.Outcome.next.inj (hrun.symm.trans hexec)
  have hfns (k : Nat) : (fnOf (linkDropped upWithoutPf1) k).present = false := by
    rw [fnOf_of_evolves hE (by decide), fnOf_upWithoutPf1]
    split <;> rfl
  have hctrls (id : Nat) : (ctrlOf (linkDropped upWithoutPf1) id).exists_ = false := by
    rw [ctrlOf_of_evolves hE (by decide)]; rfl
  rw [fnOf_resetEndpoint_of_absent hfns hctrls, fnOf_of_evolves hE (by decide), fnOf_upWithoutPf1] at hbme
  exact absurd hbme (by decide)

end Sys2Proof.Machine
end

section
/-! PROOFS. PCIe queues, doorbells, host reads and interrupts (R318, R322 to R329, R332). -/

namespace Sys2Proof.Machine

variable {s t u : State} {w : List Part} {a : Admin}

/-! Completion queues: a completion written moves the tail and no more. -/

/-- A completion queue as it was, but for its tail, its passes and the completions that wait. -/
def CqState.Advances (c d : CqState) : Prop :=
  ∃ tail passes waiting, d = { c with tail := tail, passes := passes, waiting := waiting }

theorem CqState.Advances.refl (c : CqState) : c.Advances c := ⟨_, _, _, rfl⟩

theorem CqState.Advances.trans {c d e : CqState} (h : c.Advances d) (h' : d.Advances e) : c.Advances e := by
  obtain ⟨tail, passes, waiting, rfl⟩ := h
  obtain ⟨tail', passes', waiting', rfl⟩ := h'
  exact ⟨tail', passes', waiting', rfl⟩

theorem cqOf_of_evolves (h : Evolves w s t) (hw : .hostQueues ∉ w) (key : Nat) : cqOf t key = cqOf s key := by
  have hsame := h.same .hostQueues hw
  simp only [Part.Same, Prod.mk.injEq] at hsame
  simp only [cqOf, hsame]

theorem sqs_of_evolves (h : Evolves w s t) (hw : .hostQueues ∉ w) : t.hep.sqs = s.hep.sqs := by
  have hsame := h.same .hostQueues hw
  simp only [Part.Same, Prod.mk.injEq] at hsame
  exact hsame.1

theorem raiseVector_evolves_refl (k vector : Nat) (s : State) : Evolves [.functions, .out] s (raiseVector k vector s) :=
  raiseVector_evolves .refl Sub.rfl

/-- The signal of a completion queue leaves every queue as it is. -/
theorem signalCq_queues (key : Nat) (s : State) : (signalCq key s).hep.cqs = s.hep.cqs ∧ (signalCq key s).hep.sqs = s.hep.sqs := by
  have hraise (k vector : Nat) (u : State) : (raiseVector k vector u).hep.cqs = u.hep.cqs ∧ (raiseVector k vector u).hep.sqs = u.hep.sqs := by
    have hsame := (raiseVector_evolves_refl k vector u).same .hostQueues (by decide)
    simp only [Part.Same, Prod.mk.injEq] at hsame
    exact ⟨hsame.2.1, hsame.1⟩
  unfold signalCq
  dsimp only
  split
  next => exact ⟨rfl, rfl⟩
  next =>
    split
    next => exact ⟨rfl, rfl⟩
    next => exact hraise ..

/-- A queue that a completion enters: its tail moves on, back to 0 past the last entry (R322). -/
theorem cqOf_hostPost_of_room {cntlid cqid : Nat} (h : HostRoom s cntlid cqid) (sqid cid : Nat) (st : Status) (dw0 : Nat) :
    (cqOf (hostPost cntlid sqid cid st dw0 cqid s) (cntlid * 256 + cqid)).tail =
      if (cqOf s (cntlid * 256 + cqid)).size ≤ (cqOf s (cntlid * 256 + cqid)).tail + 1 then 0
      else (cqOf s (cntlid * 256 + cqid)).tail + 1 := by
  obtain ⟨hbme, hflr, hexists, hfull⟩ := h
  simp only [hostPost, hbme, hflr, hexists, hfull, Bool.not_true, Bool.false_eq_true, or_self, if_false]
  rw [cqOf, (signalCq_queues _ _).1]
  by_cases hwraps : (cqOf s (cntlid * 256 + cqid)).size ≤ (cqOf s (cntlid * 256 + cqid)).tail + 1
  · simp only [onCq, State.onHep, State.send, Tab.at_upd, if_true, decide_eq_true hwraps, if_pos hwraps]
  · simp only [onCq, State.onHep, State.send, Tab.at_upd, if_true, decide_eq_false hwraps, if_neg hwraps, Bool.false_eq_true, if_false]
    rfl

theorem hostPost_queues (cntlid sqid cid : Nat) (st : Status) (dw0 cqid key : Nat) (s : State) :
    (cqOf s key).Advances (cqOf (hostPost cntlid sqid cid st dw0 cqid s) key) ∧
      (hostPost cntlid sqid cid st dw0 cqid s).hep.sqs = s.hep.sqs := by
  have hon (f : CqState → CqState) (hf : ∀ c : CqState, c.Advances (f c)) (k : Nat) (u : State) : (cqOf u key).Advances (cqOf (onCq k f u) key) := by
    simp only [cqOf, onCq, State.onHep, Tab.at_upd]
    split
    next hk => exact hk ▸ hf _
    next => exact .refl _
  unfold hostPost
  dsimp only
  split
  next => exact ⟨.refl _, rfl⟩
  next =>
    split
    next => exact ⟨hon _ (fun c => ⟨_, _, _, rfl⟩) _ s, rfl⟩
    next =>
      refine ⟨?_, (signalCq_queues _ _).2⟩
      rw [cqOf, cqOf, (signalCq_queues _ _).1]
      exact hon _ (fun c => ⟨_, _, _, rfl⟩) _ ((s.send _).send _)

theorem post_queues (cntlid sqid cid : Nat) (st : Status) (dw0 : Nat) (inv : Option Nat) (key : Nat) (s : State) :
    (cqOf s key).Advances (cqOf (post cntlid sqid cid st dw0 inv s) key) ∧ (post cntlid sqid cid st dw0 inv s).hep.sqs = s.hep.sqs := by
  unfold post
  dsimp only
  split
  next => exact hostPost_queues ..
  next =>
    split
    next => exact ⟨.refl _, rfl⟩
    next =>
      have hE : Evolves _ (s.send (.completion cntlid sqid cid st dw0))
        (sendResponse (queueOf s cntlid sqid).conn cid st dw0 inv (s.send (.completion cntlid sqid cid st dw0))) :=
        sendResponse_evolves .refl Sub.rfl
      have hcq := cqOf_of_evolves hE (by decide) key
      have hsq := sqs_of_evolves hE (by decide)
      rw [hcq]
      exact ⟨.refl _, hsq⟩

theorem postAdmin_queues (a : Admin) (st : Status) (dw0 key : Nat) (s : State) :
    (cqOf s key).Advances (cqOf (postAdmin a st dw0 s) key) ∧ (postAdmin a st dw0 s).hep.sqs = s.hep.sqs :=
  post_queues ..

/-! Queues created (R318). -/

theorem runCreateIoCompletionQueue_of_free {a : Admin} {qid size vector k : Nat} (hfn : (ctrlOf s a.cntlid).fn = some k)
    (hready : (ctrlOf s a.cntlid).ready = true)
    (hqid : 0 < qid ∧ qid ≤ pairsOf k) (hfree : (cqOf s (qKey a.cntlid qid)).exists_ = false) (hsize : 2 ≤ size ∧ size ≤ 1024)
    (hvector : vector < vectorsOf k) (interrupts : Bool) (base : Nat) :
    runCreateIoCompletionQueue a qid size vector interrupts true base s =
      postAdmin a stOk 0 (onCq (qKey a.cntlid qid) (fun _ => { (default : CqState) with
        exists_ := true, size := size, vector := vector, interrupts := interrupts, base := base }) s) := by
  refine (adminCommand_of_ready hready).trans ?_
  simp only [hfn]
  rw [if_neg (by simp [hfree]; omega), if_neg (by omega), if_neg (by omega), if_neg (by simp)]

/-- Creating the completion queue of a number leaves every other of the controller as it is. -/
theorem hostRoom_onCq {cntlid cqid qid : Nat} (f : CqState → CqState) (hfree : (cqOf s (qKey cntlid qid)).exists_ = false)
    (h : HostRoom s cntlid cqid) : HostRoom (onCq (qKey cntlid qid) f s) cntlid cqid := by
  have hne : cntlid * 256 + cqid ≠ qKey cntlid qid := fun he => by
    obtain ⟨-, -, hexists, -⟩ := h
    rw [he, hfree] at hexists
    exact absurd hexists (by decide)
  have hcq : cqOf (onCq (qKey cntlid qid) f s) (cntlid * 256 + cqid) = cqOf s (cntlid * 256 + cqid) := by
    simp [cqOf, onCq, State.onHep, hne]
  unfold HostRoom
  rw [hcq]
  exact h

theorem createSubmissionQueue_of_free {a : Admin} {qid size cqid k : Nat} (hfn : (ctrlOf s a.cntlid).fn = some k)
    (hready : (ctrlOf s a.cntlid).ready = true) (hqid : 0 < qid ∧ qid ≤ pairsOf k) (hfree : (queueOf s a.cntlid qid).exists_ = false)
    (hcqid : cqid ≠ 0) (hcq : (cqOf s (qKey a.cntlid cqid)).exists_ = true) (hsize : 2 ≤ size ∧ size ≤ 1024) (base : Nat) :
    ∃ t q, runCreateIoSubmissionQueue a qid size cqid true base s = postAdmin a stOk 0 t ∧
      q.exists_ = true ∧ q.size = size ∧ q.pcie = true ∧ q.cq = cqid ∧ q.port = 64 ∧ 1 ≤ q.cls ∧
      t = (s.onCmd fun m => { m with queues := m.queues.put (qKey a.cntlid qid) q }).onHep fun h => { h with
        sqs := h.sqs.put (qKey a.cntlid qid) ⟨base, 0, 0⟩ } := by
  refine ⟨_, { (default : Queue) with
    exists_ := true, size := size, cls := max 1 (classOf s (ctrlOf s a.cntlid).host qid), port := 64, pcie := true, cq := cqid },
    ?_, rfl, rfl, rfl, rfl, rfl, le_max_left _ _, rfl⟩
  refine (adminCommand_of_ready hready).trans ?_
  simp only [hfn]
  rw [if_neg (by simp [hfree]; omega), if_neg (by simp [hcqid, hcq]), if_neg (by omega), if_neg (by simp)]

/-! Reads of host memory (R324 to R326, R332). -/

theorem tags_of_evolves (h : Evolves w s t) (hw : .hostReads ∉ w) : t.hep.tags = s.hep.tags := by
  have hsame := h.same .hostReads hw
  simp only [Part.Same, Prod.mk.injEq] at hsame
  exact hsame.1

theorem freeTag_evolves_refl (t : Nat) (s : State) : Evolves [.hostReads, .out] s (freeTag t s) := freeTag_evolves .refl Sub.rfl

theorem freeTag_of_idle (h : s.hep.waiting = []) (t : Nat) :
    freeTag t s = s.onHep fun h => { h with tags := h.tags.put t default, released := h.released ++ [t] } := by
  simp only [freeTag, State.onHep, h]

theorem readFails_evolves_refl (r : HostRead) (s : State) : Evolves [.events, .counters, .sampling, .commands, .mapping, .journal,
    .layoutWork, .drivePorts, .hostReads, .out] s (readFails r s) := readFails_evolves .refl Sub.rfl

/-! Interrupts (R328, R329). -/

/-- A pending message sent. -/
def messageUnmasked (k : Nat) (s : State) (v : Nat) : State :=
  (onFn k (fun f => { f with pba := setBit f.pba v false }) s).send (.msix k v)

theorem fnOf_messageUnmasked (k v : Nat) (s : State) :
    fnOf (messageUnmasked k s v) k = { fnOf s k with pba := setBit (fnOf s k).pba v false } := by
  simp [messageUnmasked, fnOf, onFn, State.onHep, State.send]

/-- Pending messages sent one after the other: each is sent and pends no more, and no other begins to pend. -/
theorem messagesUnmasked (k : Nat) (l : List Nat) : ∀ s : State,
    (fnOf (l.foldl (messageUnmasked k) s) k).unmasked = (fnOf s k).unmasked ∧
    (∀ o ∈ s.out, o ∈ (l.foldl (messageUnmasked k) s).out) ∧
    (∀ v, bitAt (fnOf s k).pba v = false → bitAt (fnOf (l.foldl (messageUnmasked k) s) k).pba v = false) ∧
    ∀ v ∈ l, .msix k v ∈ (l.foldl (messageUnmasked k) s).out ∧ bitAt (fnOf (l.foldl (messageUnmasked k) s) k).pba v = false := by
  induction l with
  | nil => exact fun s => ⟨rfl, fun _ h => h, fun _ h => h, fun v hv => absurd hv List.not_mem_nil⟩
  | cons x l ih =>
    intro s
    obtain ⟨hunmasked, hout, hstays, hsent⟩ := ih (messageUnmasked k s x)
    rw [fnOf_messageUnmasked] at hunmasked hstays
    have hkept : ∀ o ∈ s.out, o ∈ (messageUnmasked k s x).out := fun o ho => List.mem_append_left _ ho
    have hcleared : bitAt (setBit (fnOf s k).pba x false) x = false := by simp
    refine ⟨hunmasked, fun o ho => hout o (hkept o ho), fun v hv => hstays v (by simp [hv]), fun v hv => ?_⟩
    obtain rfl | hv := List.mem_cons.1 hv
    · exact ⟨hout _ (sent_send _ _), hstays v hcleared⟩
    · exact hsent v hv

theorem sendPending_eq {k : Nat} (hbme : (fnOf s k).bme = true) (hmsix : (fnOf s k).msix = true) (hmask : (fnOf s k).fnMask = false) :
    sendPending k s = ((List.range 129).filter fun v => bitAt (fnOf s k).pba v && bitAt (fnOf s k).unmasked v).foldl (messageUnmasked k) s := by
  simp only [sendPending, hbme, hmsix, hmask, Bool.not_true, Bool.false_eq_true, or_self, if_false]
  rfl

theorem raiseVector_of_unmasked {k vector : Nat} (hbme : (fnOf s k).bme = true) (hmsix : (fnOf s k).msix = true)
    (hmask : (fnOf s k).fnMask = false) (hvector : bitAt (fnOf s k).unmasked vector = true) :
    raiseVector k vector s = s.send (.msix k vector) := by
  simp [raiseVector, hbme, hmsix, hmask, hvector]

/-- An error is told with its tag and its code (R325). -/
theorem cplError_told (t code : Nat) (last : Bool) (s : State) :
    Emitted s (cplError t code last s) (fnSrc (s.hep.tags.at t).req.fn) 2 0xD05 (t * 65536 + code) := by
  have htold : Emitted s (emit (fnSrc (s.hep.tags.at t).req.fn) 0xD05 2 (t * 65536 + code)
      ((s.bump (if code = 2 then F.HEP_ERR_COUNT_POISONED else F.HEP_ERR_COUNT_UR_CA)).send (.aer (s.hep.tags.at t).req.fn code)))
      (fnSrc (s.hep.tags.at t).req.fn) 2 0xD05 (t * 65536 + code) := emitted_emit_of _ _ _ _ rfl
  have hfails := (readFails_evolves_refl (s.hep.tags.at t).req _).emitted_mono (by decide) htold
  unfold cplError
  dsimp only
  split
  next => exact (freeTag_evolves_refl t _).emitted_mono (by decide) hfails
  next => exact hfails

/-! The commands. -/

theorem exec_submissionQueueDoorbell {fn : Fin 65} {qid tail : Nat} (hpresent : (fnOf s fn.val).present = true)
    (hflr : (fnOf s fn.val).flr = false) (hexists : (queueOf s (0xFF00 + fn.val) qid).exists_ = true)
    (htail : tail < (queueOf s (0xFF00 + fn.val) qid).size) :
    exec (.submissionQueueDoorbell fn qid tail) s = .next (fetchEntries fn.val (qKey (0xFF00 + fn.val) qid)
      (s.hep.sqs.at (qKey (0xFF00 + fn.val) qid)).base (queueOf s (0xFF00 + fn.val) qid).size 1024
      (s.hep.sqs.at (qKey (0xFF00 + fn.val) qid)).fetched
      ((tail + (queueOf s (0xFF00 + fn.val) qid).size - (s.hep.sqs.at (qKey (0xFF00 + fn.val) qid)).fetched) %
        (queueOf s (0xFF00 + fn.val) qid).size)
      ((startExit s).onHep fun h => { h with
        sqs := h.sqs.put (qKey (0xFF00 + fn.val) qid) { s.hep.sqs.at (qKey (0xFF00 + fn.val) qid) with tail := tail, fetched := tail } })) := by
  change execSubmissionQueueDoorbell fn qid tail s = _
  unfold execSubmissionQueueDoorbell fnCntlid
  simp only [hpresent, hflr, hexists, Nat.not_le.2 htail, Bool.not_true, Bool.false_eq_true, or_self, if_false]

theorem exec_completionQueueDoorbell {fn : Fin 65} {qid head : Nat} (hpresent : (fnOf s fn.val).present = true)
    (hflr : (fnOf s fn.val).flr = false) (hexists : (cqOf s (qKey (0xFF00 + fn.val) qid)).exists_ = true)
    (hhead : head < (cqOf s (qKey (0xFF00 + fn.val) qid)).size) :
    exec (.completionQueueDoorbell fn qid head) s =
      .next (drainCq (0xFF00 + fn.val) qid (onCq (qKey (0xFF00 + fn.val) qid) (fun c => { c with head := head }) s)) := by
  change execCompletionQueueDoorbell fn qid head s = _
  unfold execCompletionQueueDoorbell fnCntlid
  simp only [hpresent, hflr, hexists, Nat.not_le.2 hhead, Bool.not_true, Bool.false_eq_true, or_self, if_false]

/-- The completions that waited for space leave the queue's head where it is. -/
theorem drainCq_advances (cntlid cqid : Nat) (s : State) :
    (cqOf s (qKey cntlid cqid)).Advances (cqOf (drainCq cntlid cqid s) (qKey cntlid cqid)) := by
  unfold drainCq
  refine foldl_keeps (P := fun u => (cqOf s (qKey cntlid cqid)).Advances (cqOf u (qKey cntlid cqid)))
    (fun u x hu => hu.trans (hostPost_queues ..).1) _ _ ?_
  exact ⟨(cqOf s (qKey cntlid cqid)).tail, (cqOf s (qKey cntlid cqid)).passes, [], by simp [cqOf, onCq, State.onHep]⟩

theorem exec_hostReadCompletion_piece {tag : Fin 1024} {byteCount : Nat} {data : Bytes}
    (h : (s.hep.tags.at tag.val).state = .outstanding) (hlen : data.length < byteCount) :
    exec (.hostReadCompletion tag .ok byteCount data) s = .next (onTag tag.val (fun x => { x with
      buf := ((s.hep.tags.at tag.val).buf.take ((s.hep.tags.at tag.val).req.len - byteCount) ++ data ++
        (s.hep.tags.at tag.val).buf.drop ((s.hep.tags.at tag.val).req.len - byteCount + data.length)).take (s.hep.tags.at tag.val).req.len })
      s) := by
  change execHostReadCompletion tag .ok byteCount data s = _
  unfold execHostReadCompletion
  simp only [h, decide_eq_false (Nat.not_le.2 hlen), Bool.false_eq_true, if_false]

theorem exec_hostReadCompletion_unsupported {tag : Fin 1024} {byteCount : Nat} {data : Bytes}
    (h : (s.hep.tags.at tag.val).state = .outstanding) :
    exec (.hostReadCompletion tag .ur byteCount data) s = .next (cplError tag.val 0 true s) := by
  change execHostReadCompletion tag .ur byteCount data s = _
  unfold execHostReadCompletion
  simp only [h]

theorem exec_hostReadCompletion_late {tag : Fin 1024} {status : CplStatus} {byteCount : Nat} {data : Bytes}
    (h : (s.hep.tags.at tag.val).state = .free) :
    exec (.hostReadCompletion tag status byteCount data) s = .next (emit 0x5D0 0xD07 1 tag.val (s.bump F.HEP_ERR_COUNT_LATE)) := by
  change execHostReadCompletion tag status byteCount data s = _
  unfold execHostReadCompletion
  simp only [h]

theorem exec_cplTimeout {tag : Fin 1024} (h : (s.hep.tags.at tag.val).state = .outstanding) :
    exec (.cplTimeout tag) s = .next (onTag tag.val (fun x => { x with state := .held })
      ((readFails (s.hep.tags.at tag.val).req (emit (fnSrc (s.hep.tags.at tag.val).req.fn) 0xD06 2 tag.val
        (s.send (.aer (s.hep.tags.at tag.val).req.fn 3)))).bump F.HEP_ERR_COUNT_TIMEOUTS)) := by
  change execCplTimeout tag s = _
  unfold execCplTimeout
  simp only [h]

/-- A counter counts one more, up to the most it holds. -/
theorem fld_bump_same (f : Fld) (h : f.lo ≤ f.hi) (hh : f.hi < 32) : (s.bump f).fld f = min f.max (s.fld f + 1) := by
  refine (fldI_setFldI_same f 0 _ h hh).trans (Nat.mod_eq_of_lt ?_)
  have hmax : f.max < 2 ^ (f.hi - f.lo + 1) := Nat.sub_lt (Nat.two_pow_pos _) Nat.one_pos
  exact lt_of_le_of_lt (min_le_left _ _) hmax

theorem exec_completionHandedToXpt {i : Nat} (hi : i < 32768) (hlive : (entryOf s i).live = true)
    (hstate : (entryOf s i).state = .posting) (hended : (entryOf s i).ended = false) :
    exec (.completionHandedToXpt i) s = .next (freeEntry i .done (measure (entryOf s i)
      (post (entryOf s i).cap.cntlid (entryOf s i).cap.sqid (entryOf s i).cap.cid (entryOf s i).status (entryOf s i).dw0
        (invKey (entryOf s i).cap.sgl) s))) := by
  change execCompletionHandedToXpt i s = _
  unfold execCompletionHandedToXpt
  simp only [hlive, hstate, hended, decide_eq_true hi, beq_self_eq_true, Bool.and_self, Bool.not_true, Bool.false_eq_true, if_false]

theorem post_of_pcie {cntlid sqid : Nat} (h : (queueOf s cntlid sqid).pcie = true) (cid : Nat) (st : Status) (dw0 : Nat)
    (inv : Option Nat) : post cntlid sqid cid st dw0 inv s = hostPost cntlid sqid cid st dw0 (queueOf s cntlid sqid).cq s :=
  if_pos h

/-- Settles O30: each command is the queue, tag or message it changes, and what is posted after it leaves that as it is. -/
theorem hostQueuesComplete : Obligations.HostQueuesComplete := by
  unfold Obligations.HostQueuesComplete
  refine ⟨fun a qid size vector base interrupts k s hready hfn hqid hfree hsize hvector hawake => ?completionQueue,
    fun a qid size vector base interrupts k s hready hfn hqid hawake => ?badNumber,
    fun a qid size vector base interrupts k s hready hfn hqid hfree hsize hvector hawake => ?badVector,
    fun a qid size cqid base k s hready hfn hqid hfree hcqid hcq hsize hawake => ?submissionQueue,
    fun fn qid tail s hpresent hflr hexists htail => ?tail,
    fun fn qid head s hpresent hflr hexists hhead => ?head,
    fun tag byteCount data s htag hlen => ?piece,
    fun tag byteCount data s htag => ?unsupported,
    fun tag status byteCount data s htag => ?late,
    fun tag s htag => ?timeout,
    fun tag s htag hwaiting => ?hold,
    fun fn v s hv hbme hmsix hmask hpending => ?unmask,
    fun fn vector s hheld hbme hmsix hmask hvector => ?coalescing,
    fun i e s hentry hpcie hfn hexists hfull => ?handed⟩
  case completionQueue =>
    refine .of_exec (congrArg Host.Outcome.next ((hold_of_awake hawake).trans
      (runCreateIoCompletionQueue_of_free hfn hready hqid hfree hsize hvector interrupts base))) ?_
    obtain ⟨⟨tail, passes, waiting, hcq⟩, -⟩ := postAdmin_queues a stOk 0 (qKey a.cntlid qid)
      (onCq (qKey a.cntlid qid) (fun _ => { (default : CqState) with
        exists_ := true, size := size, vector := vector, interrupts := interrupts, base := base }) s)
    rw [show cqOf (onCq (qKey a.cntlid qid) (fun _ => { (default : CqState) with
        exists_ := true, size := size, vector := vector, interrupts := interrupts, base := base }) s) (qKey a.cntlid qid) =
        { (default : CqState) with exists_ := true, size := size, vector := vector, interrupts := interrupts, base := base } by
      simp [cqOf, onCq, State.onHep]] at hcq
    rw [hcq]
    exact ⟨rfl, rfl, rfl, rfl, rfl, fun hroom => answered_postAdmin a stOk 0 _ fun hpcie => hostRoom_onCq _ hfree (hroom hpcie)⟩
  case badNumber =>
    have hrun : runCreateIoCompletionQueue a qid size vector interrupts true base s = postAdmin a stInvalidQueue 0 s := by
      refine (adminCommand_of_ready hready).trans ?_
      simp only [hfn]
      rw [if_pos (by simpa [or_assoc] using hqid)]
    refine .of_exec (congrArg Host.Outcome.next ((hold_of_awake hawake).trans hrun)) ⟨answered_postAdmin a stInvalidQueue 0 s, ?_⟩
    obtain ⟨⟨tail, passes, waiting, hcq⟩, -⟩ := postAdmin_queues a stInvalidQueue 0 (qKey a.cntlid qid) s
    rw [hcq]
  case badVector =>
    have hrun : runCreateIoCompletionQueue a qid size vector interrupts true base s = postAdmin a stInvalidVector 0 s := by
      refine (adminCommand_of_ready hready).trans ?_
      simp only [hfn]
      rw [if_neg (by simp [hfree]; omega), if_neg (by omega), if_pos hvector]
    exact .of_exec (congrArg Host.Outcome.next ((hold_of_awake hawake).trans hrun)) (answered_postAdmin a stInvalidVector 0 s)
  case submissionQueue =>
    obtain ⟨t, q, hrun, hexists, hqsize, hpcie, hqcq, hport, hcls, rfl⟩ :=
      createSubmissionQueue_of_free hfn hready hqid hfree hcqid hcq hsize base
    refine .of_exec (congrArg Host.Outcome.next ((hold_of_awake hawake).trans hrun)) ?_
    have hqueue : queueOf (postAdmin a stOk 0 ((s.onCmd fun m => { m with queues := m.queues.put (qKey a.cntlid qid) q }).onHep
        fun h => { h with sqs := h.sqs.put (qKey a.cntlid qid) ⟨base, 0, 0⟩ })) a.cntlid qid = q := by
      rw [queueOf_of_evolves (postAdmin_evolves_refl a stOk 0 _) (by decide)]
      simp [queueOf, State.onCmd, State.onHep]
    have hadmin : queueOf ((s.onCmd fun m => { m with queues := m.queues.put (qKey a.cntlid qid) q }).onHep
        fun h => { h with sqs := h.sqs.put (qKey a.cntlid qid) ⟨base, 0, 0⟩ }) a.cntlid 0 = queueOf s a.cntlid 0 := by
      have hne : qKey a.cntlid 0 ≠ qKey a.cntlid qid := by unfold qKey; omega
      simp [queueOf, State.onCmd, State.onHep, hne]
    have hanswered := answered_postAdmin a stOk 0 ((s.onCmd fun m => { m with queues := m.queues.put (qKey a.cntlid qid) q }).onHep
        fun h => { h with sqs := h.sqs.put (qKey a.cntlid qid) ⟨base, 0, 0⟩ })
    unfold Answered at hanswered
    rw [hadmin] at hanswered
    rw [hqueue, (postAdmin_queues a stOk 0 0 _).2]
    exact ⟨hexists, hqsize, hpcie, hqcq, hport, hcls, by simp [State.onHep], hanswered⟩
  case tail =>
    refine .of_exec (exec_submissionQueueDoorbell hpresent hflr hexists htail) ?_
    rw [sqs_of_evolves (fetchEntries_evolves .refl Sub.rfl) (by decide)]
    simp [State.onHep]
  case head =>
    refine .of_exec (exec_completionQueueDoorbell hpresent hflr hexists hhead) ?_
    obtain ⟨tail, passes, waiting, hcq⟩ := drainCq_advances (0xFF00 + fn.val) qid
      (onCq (qKey (0xFF00 + fn.val) qid) (fun c => { c with head := head }) s)
    rw [hcq]
    simp [cqOf, onCq, State.onHep]
  case piece =>
    refine .of_exec (exec_hostReadCompletion_piece htag hlen) ?_
    simp [onTag, State.onHep, htag]
  case unsupported =>
    exact .of_exec (exec_hostReadCompletion_unsupported htag) (Nat.add_zero (tag.val * 65536) ▸ cplError_told tag.val 0 true s)
  case late =>
    refine .of_exec (exec_hostReadCompletion_late htag) ⟨emitted_emit_of _ _ _ _ rfl, rfl, ?_⟩
    exact fld_bump_same F.HEP_ERR_COUNT_LATE (by decide) (by decide)
  case timeout =>
    refine .of_exec (exec_cplTimeout htag) ⟨by simp [onTag, State.onHep], ?_⟩
    have htold := emitted_emit (fnSrc (s.hep.tags.at tag.val).req.fn) 0xD06 2 tag.val (s.send (.aer (s.hep.tags.at tag.val).req.fn 3))
    exact (readFails_evolves_refl (s.hep.tags.at tag.val).req _).emitted_mono (by decide) htold
  case hold =>
    refine .of_exec (congrArg Host.Outcome.next (freeTag_of_idle hwaiting tag.val) |> (if_pos htag).trans) ?_
    simp [State.onHep]
  case unmask =>
    have hfn : fnOf (onFn fn.val (fun f => { f with unmasked := setBit f.unmasked v true }) s) fn.val =
        { fnOf s fn.val with unmasked := setBit (fnOf s fn.val).unmasked v true } := by simp [fnOf, onFn, State.onHep]
    obtain ⟨hunmasked, -, -, hsent⟩ := messagesUnmasked fn.val
      ((List.range 129).filter fun x => bitAt (fnOf s fn.val).pba x && bitAt (setBit (fnOf s fn.val).unmasked v true) x)
      (onFn fn.val (fun f => { f with unmasked := setBit f.unmasked v true }) s)
    have hlisted : v ∈ (List.range 129).filter fun x => bitAt (fnOf s fn.val).pba x && bitAt (setBit (fnOf s fn.val).unmasked v true) x := by
      simp [hv, hpending]
    obtain ⟨hmsg, hcleared⟩ := hsent v hlisted
    refine .of_exec (congrArg Host.Outcome.next (sendPending_eq (by rw [hfn]; exact hbme) (by rw [hfn]; exact hmsix)
      (by rw [hfn]; exact hmask))) ?_
    rw [hfn]
    exact ⟨hmsg, by rw [hunmasked, hfn]; simp, hcleared⟩
  case coalescing =>
    refine .of_exec ((if_neg hheld).trans (congrArg Host.Outcome.next (raiseVector_of_unmasked hbme hmsix hmask hvector))) ?_
    exact ⟨sent_send _ _, by simp [State.onHep, State.send]⟩
  case handed =>
    obtain ⟨rfl, hi, hlive, hstate, hended⟩ := hentry
    obtain ⟨hbme, hflr⟩ := hfn
    have hroom : HostRoom s (entryOf s i).cap.cntlid (queueOf s (entryOf s i).cap.cntlid (entryOf s i).cap.sqid).cq :=
      ⟨hbme, hflr, hexists, hfull⟩
    refine .of_exec (exec_completionHandedToXpt hi hlive hstate hended) ?_
    rw [post_of_pcie hpcie]
    have hrest (u : State) : Evolves [.events, .counters, .sampling, .commands, .powerState, .contexts, .journal, .layoutWork, .ciphers,
        .buffer, .regs, .regSwc, .regCmd, .out] u (freeEntry i .done (measure (entryOf s i) u)) :=
      freeEntry_evolves (measure_evolves .refl (Sub.of Sub.rfl rfl)) (Sub.of Sub.rfl rfl)
    refine ⟨(hrest _).sent (sent_hostPost hroom ..), ?_⟩
    rw [cqOf_of_evolves (hrest _) (by decide)]
    exact cqOf_hostPost_of_room hroom ..

end Sys2Proof.Machine
end

section
/-! PROOFS. Peer windows: commits, their boundary, the page table and peer requests (R334 to R337). -/

namespace Sys2Proof.Machine

variable {s t : State}

/-! What the gate of a write leaves of HEP. -/

theorem hep_writeGate (path session addr : Nat) (value : Word) (s : State) : (writeGate path session addr value s).1.hep = s.hep := by
  have hE : Evolves [.events, .sessions, .marks, .counters, .sampling, .regs, .regCtl, .out] s (writeGate path session addr value s).1 :=
    writeGate_evolves .refl Sub.rfl
  have hfns := hE.same .functions (by decide)
  have hreads := hE.same .hostReads (by decide)
  have hqueues := hE.same .hostQueues (by decide)
  have htable := hE.same .peerTable (by decide)
  have hmem := hE.same .peerMem (by decide)
  simp only [Part.Same, Prod.mk.injEq] at hfns hreads hqueues htable hmem
  cases hx : (writeGate path session addr value s).1.hep
  cases hy : s.hep
  simp_all

theorem windowAt_congr {base : Nat} (hregs : ∀ a, 0x1000000 ≤ a → rawWord t.regs a = rawWord s.regs a) (hbase : 0x1000000 ≤ base)
    (w : Nat) : windowAt t base w = windowAt s base w := by
  unfold windowAt
  rw [hregs _ (by omega), hregs _ (by omega)]

/-- A commit is judged by the window words and by what is staged. -/
theorem commitRefusal_congr (hregs : ∀ a, 0x1000000 ≤ a → rawWord t.regs a = rawWord s.regs a)
    (hstaged : t.hep.staged = s.hep.staged) (mask : Nat) : commitRefusal t mask = commitRefusal s mask := by
  have hnew : (fun w => windowAt t (if bitAt mask w then shadowBase else liveBase) w) =
      fun w => windowAt s (if bitAt mask w then shadowBase else liveBase) w := by
    funext w
    refine windowAt_congr hregs ?_ w
    split
    · exact Nat.le_of_ble_eq_true rfl
    · exact Nat.le_of_ble_eq_true rfl
  unfold commitRefusal
  rw [hstaged, hnew]

/-- The state after the gate of a write to a window register. -/
abbrev gated (path : Fin 5) (session addr : Nat) (value : Word) (s : State) : State := (writeGate path.val session addr value s).1

theorem rawWord_gated (path : Fin 5) (session addr : Nat) (value : Word) (s : State) {a : Nat} (ha : 0x1000000 ≤ a) :
    rawWord (gated path session addr value s).regs a = rawWord s.regs a :=
  writeGate_rawWord _ _ _ _ path.isLt a (.inl ha)

theorem commitRefusal_gated (path : Fin 5) (session addr : Nat) (value : Word) (mask : Nat) (s : State) :
    commitRefusal (gated path session addr value s) mask = commitRefusal s mask :=
  commitRefusal_congr (fun _ ha => rawWord_gated path session addr value s ha)
    (congrArg Hep.staged (hep_writeGate path.val session addr value s)) mask

theorem fld_setFld_one (f : Fld) (h : f.lo ≤ f.hi) (hh : f.hi < 32) : (s.setFld f 1).fld f = 1 :=
  (fld_setFld_same f 1 h hh).trans (Nat.mod_eq_of_lt (Nat.one_lt_two_pow (Nat.succ_ne_zero _)))

theorem fld_setFld_zero (f : Fld) (h : f.lo ≤ f.hi) (hh : f.hi < 32) : (s.setFld f 0).fld f = 0 :=
  (fld_setFld_same f 0 h hh).trans (Nat.zero_mod _)

/-! The commands. -/

theorem exec_hepPwinCommit_staged {path : Fin 5} {session : Nat} {value : Word} (h : MayWrite path session 0x0D000054 s)
    (hmask : value.toNat ≠ 0) (hjudged : commitRefusal s value.toNat = none) : exec (.hepPwinCommit path session value) s =
      .next (((gated path session 0x0D000054 value s).onHep fun h => { h with staged := some (value.toNat,
        (List.range 64).map fun i => (rawWord s.regs (0x0D000100 + 4 * i)).toNat) }).setFld F.HEP_PWIN_STAT_PENDING 1) := by
  have hgo : (writeGate path.val session 0x0D000054 value s).2 = true := writeGate_performed value h
  have hwords : ((List.range 64).map fun i => (rawWord (gated path session 0x0D000054 value s).regs (shadowBase + 4 * i)).toNat) =
      (List.range 64).map fun i => (rawWord s.regs (0x0D000100 + 4 * i)).toNat :=
    List.map_congr_left fun i _ => congrArg BitVec.toNat (rawWord_gated path session _ value s (Nat.le_trans (Nat.le_of_ble_eq_true rfl) (Nat.le_add_right _ _)))
  rw [← commitRefusal_gated path session 0x0D000054 value] at hjudged
  rw [← hwords]
  change execHepPwinCommit path session value s = _
  unfold execHepPwinCommit
  rw [show F.HEP_PWIN_COMMIT_MASK.addr 0 = 0x0D000054 from rfl]
  simp only [hgo, hmask, hjudged, Bool.not_true, Bool.false_eq_true, or_self, if_false]

theorem exec_hepPwinCommit_refused {path : Fin 5} {session r : Nat} {value : Word} (h : MayWrite path session 0x0D000054 s)
    (hmask : value.toNat ≠ 0) (hjudged : commitRefusal s value.toNat = some r) : exec (.hepPwinCommit path session value) s =
      .next (((gated path session 0x0D000054 value s).setFld F.HEP_PWIN_STAT_REFUSED 1).setFld F.HEP_PWIN_STAT_REASON r) := by
  have hgo : (writeGate path.val session 0x0D000054 value s).2 = true := writeGate_performed value h
  rw [← commitRefusal_gated path session 0x0D000054 value] at hjudged
  change execHepPwinCommit path session value s = _
  unfold execHepPwinCommit
  rw [show F.HEP_PWIN_COMMIT_MASK.addr 0 = 0x0D000054 from rfl]
  simp only [hgo, hmask, hjudged, Bool.not_true, Bool.false_eq_true, or_self, if_false]

theorem exec_hepPptWrite {path : Fin 5} {session : Nat} {value : Word} (h : MayWrite path session 0x0D00005C s) :
    exec (.hepPptWrite path session value) s = .next (((gated path session 0x0D00005C value s).onHep fun h => { h with
      ppt := h.ppt.put (bitsOf value.toNat 15 0) (rawWord s.regs 0x0D000060).toNat }).setFld F.HEP_PPT_SEL_DONE 1) := by
  have hgo : (writeGate path.val session 0x0D00005C value s).2 = true := writeGate_performed value h
  rw [← rawWord_gated path session 0x0D00005C value s (Nat.le_of_ble_eq_true rfl)]
  change execHepPptWrite path session value s = _
  unfold execHepPptWrite
  rw [show F.HEP_PPT_SEL_OP.addr 0 = 0x0D00005C from rfl]
  simp only [hgo, Bool.not_true, Bool.false_eq_true, if_false]

theorem exec_hepPptRead {path : Fin 5} {session : Nat} {value : Word} (h : MayWrite path session 0x0D00005C s) :
    exec (.hepPptRead path session value) s = .next (State.setFld { gated path session 0x0D00005C value s with
      regs := setRawWord (gated path session 0x0D00005C value s).regs 0x0D000060
        (BitVec.ofNat 32 (s.hep.ppt.at (bitsOf value.toNat 15 0))) } F.HEP_PPT_SEL_DONE 1) := by
  have hgo : (writeGate path.val session 0x0D00005C value s).2 = true := writeGate_performed value h
  rw [← hep_writeGate path.val session 0x0D00005C value]
  change execHepPptRead path session value s = _
  unfold execHepPptRead
  rw [show F.HEP_PPT_SEL_OP.addr 0 = 0x0D00005C from rfl]
  simp only [hgo, Bool.not_true, Bool.false_eq_true, if_false]

theorem exec_pwinCommit {mask : Nat} {words : List Nat} (h : s.hep.staged = some (mask, words)) :
    ∃ u : State, u.hep = s.hep ∧ u.now = s.now ∧ exec .pwinCommit s = .next (emit 0x5D1 0xD08 0 mask
      ((u.onHep fun h => { h with staged := none }).setFld F.HEP_PWIN_STAT_PENDING 0)) := by
  refine ⟨{ s with regs := (List.range 64).foldl (fun (r : Tab Word) (i : Nat) =>
      if bitAt mask (i / 2) then setRawWord r (liveBase + 4 * i) (BitVec.ofNat 32 (words.getD i 0)) else r) s.regs }, rfl, rfl, ?_⟩
  change execPwinCommit s = _
  unfold execPwinCommit
  rw [h]

/-- While peer access is off, every request is refused (R335). -/
theorem exec_peerMemoryRequest_off (h : s.fld F.HEP_CFG_PEER_EN = 0) (offset len : Nat) (write : Option Bytes) :
    exec (.peerMemoryRequest offset len write) s = .next (peerRefused offset write.isNone s) := by
  change execPeerMemoryRequest offset len write s = _
  unfold execPeerMemoryRequest
  dsimp only
  split
  next => rfl
  next => rw [if_pos (.inl h)]

/-- The entries of the pieces of a request that is permitted: valid, open to it, and their pages hold their data. -/
theorem PeerPermits.entry {w : Window} {offset len : Nat} {write : Bool} (h : PeerPermits s w offset len write)
    {p : Nat × Nat × Nat} (hp : p ∈ pagePieces (len / 4096 + 2) (offset - w.start) len) :
    pptValid (s.hep.ppt.at (w.tableBase + p.1)) = true ∧
      (write = true → pptWriteOk (s.hep.ppt.at (w.tableBase + p.1)) = true) ∧
      stale s (pptHandle (s.hep.ppt.at (w.tableBase + p.1))) = false ∧
      chainLost s (pptHandle (s.hep.ppt.at (w.tableBase + p.1))) = false := by
  obtain ⟨-, -, -, hpieces⟩ := h
  exact hpieces _ (List.mem_map_of_mem hp)

theorem PeerPermits.passes {w : Window} {offset len : Nat} {write : Bool} (h : PeerPermits s w offset len write) :
    ((pagePieces (len / 4096 + 2) (offset - w.start) len).any fun p =>
      !pptValid (s.hep.ppt.at (w.tableBase + p.1)) || (write && !pptWriteOk (s.hep.ppt.at (w.tableBase + p.1)))) = false := by
  refine List.any_eq_false.2 fun p hp => ?_
  obtain ⟨hvalid, hwrite, -, -⟩ := h.entry hp
  cases write with
  | false => simp [hvalid]
  | true => simp [hvalid, hwrite rfl]

theorem PeerPermits.found {w : Window} {offset len : Nat} {write : Bool} (h : PeerPermits s w offset len write) :
    ((pagePieces (len / 4096 + 2) (offset - w.start) len).find? fun p =>
      stale s (pptHandle (s.hep.ppt.at (w.tableBase + p.1))) || chainLost s (pptHandle (s.hep.ppt.at (w.tableBase + p.1)))) = none := by
  refine List.find?_eq_none.2 fun p hp => ?_
  obtain ⟨-, -, hstale, hlost⟩ := h.entry hp
  simp [hstale, hlost]

theorem peerBytes_eq (s : State) (w : Window) (offset len : Nat) : peerBytes s w offset len =
    (pagePieces (len / 4096 + 2) (offset - w.start) len).flatMap fun p =>
      (List.range p.2.2).map fun i => 4096 * cellOf (pptHandle (s.hep.ppt.at (w.tableBase + p.1))) + p.2.1 + i :=
  List.flatMap_map ..

theorem exec_peerMemoryRequest_read {w : Window} {offset len : Nat} (h : PeerPermits s w offset len false) :
    exec (.peerMemoryRequest offset len none) s =
      .next (s.send (.peerRead 0 ((peerBytes s w offset len).map fun a => s.hep.peerMem.at a))) := by
  obtain ⟨hen, hwindow, hok, -⟩ := id h
  have hpass := h.passes
  simp only [Bool.false_and, Bool.or_false] at hpass
  have hok' : w.readOk = true := hok
  change execPeerMemoryRequest offset len none s = _
  unfold execPeerMemoryRequest
  simp only [hwindow, hen, hok', Option.isNone_none, Bool.not_true, Bool.false_and, Bool.or_false, Nat.one_ne_zero, Bool.false_eq_true,
    and_false, false_and, or_self, hpass, h.found, if_false, peerBytes_eq]

theorem exec_peerMemoryRequest_write {w : Window} {offset : Nat} {data : Bytes} (h : PeerPermits s w offset data.length true) (len : Nat) :
    exec (.peerMemoryRequest offset len (some data)) s = .next (s.onHep fun h => { h with
      peerMem := ((peerBytes s w offset data.length).zip data).foldl (fun m x => m.put x.1 x.2) h.peerMem }) := by
  obtain ⟨hen, hwindow, hok, -⟩ := id h
  have hpass := h.passes
  simp only [Bool.true_and] at hpass
  have hok' : w.writeOk = true := hok
  change execPeerMemoryRequest offset len (some data) s = _
  unfold execPeerMemoryRequest
  simp only [hwindow, hen, hok', Option.isNone_some, Bool.not_true, Bool.not_false, Bool.true_and, Nat.one_ne_zero, Bool.false_eq_true,
    and_false, false_and, or_self, hpass, h.found, if_false, peerBytes_eq]

/-- Settles O31: the gate of the write leaves HEP and its registers, and each command is one change of them. -/
theorem peerWindowsComplete : Obligations.PeerWindowsComplete := by
  unfold Obligations.PeerWindowsComplete
  refine ⟨fun path session value s hwrite hmask hjudged => ?staged, fun path session value r s hwrite hmask hjudged => ?refused,
    fun mask words s hstaged => ?boundary, fun path session value s hwrite => ?entryWrite,
    fun path session value s hwrite hsmall => ?entryRead, fun offset len write s hoff => ?off,
    fun offset len w s hpermits => ⟨_, exec_peerMemoryRequest_read hpermits, rfl⟩,
    fun offset len data w s hpermits => ⟨_, exec_peerMemoryRequest_write hpermits len, rfl⟩⟩
  case staged =>
    refine .of_exec (exec_hepPwinCommit_staged hwrite hmask hjudged) ⟨rfl, ?_⟩
    exact fld_setFld_one F.HEP_PWIN_STAT_PENDING (by decide) (by decide)
  case refused =>
    have hreason := fld_setFld_same (s := (gated path session 0x0D000054 value s).setFld F.HEP_PWIN_STAT_REFUSED 1)
      F.HEP_PWIN_STAT_REASON r (by decide) (by decide)
    have hrefused := fld_setFld_disjoint (s := (gated path session 0x0D000054 value s).setFld F.HEP_PWIN_STAT_REFUSED 1)
      F.HEP_PWIN_STAT_REASON F.HEP_PWIN_STAT_REFUSED r (by decide) (by decide) (by decide) (by decide)
    refine .of_exec (exec_hepPwinCommit_refused hwrite hmask hjudged)
      ⟨by rw [State.setFld_hep, State.setFld_hep, hep_writeGate], hrefused.trans ?_, hreason.trans ?_⟩
    · exact fld_setFld_one F.HEP_PWIN_STAT_REFUSED (by decide) (by decide)
    · norm_num [F.HEP_PWIN_STAT_REASON]
  case boundary =>
    obtain ⟨u, -, hnow, hexec⟩ := exec_pwinCommit hstaged
    refine .of_exec hexec ⟨rfl, ?_, emitted_emit_of _ _ _ _ hnow⟩
    exact fld_setFld_zero F.HEP_PWIN_STAT_PENDING (by decide) (by decide)
  case entryWrite =>
    refine .of_exec (exec_hepPptWrite hwrite) ⟨by simp [State.onHep, State.setFld, State.setFldI], ?_⟩
    exact fld_setFld_one F.HEP_PPT_SEL_DONE (by decide) (by decide)
  case entryRead =>
    refine .of_exec (exec_hepPptRead hwrite) ⟨?_, ?_, by rw [State.setFld_hep]; exact hep_writeGate ..⟩
    · rw [State.setFld, rawWord_setFldI _ _ _ _ (by decide)]
      simp only [rawWord_setRawWord, if_true, BitVec.toNat_ofNat]
      exact Nat.mod_eq_of_lt hsmall
    · exact fld_setFld_one F.HEP_PPT_SEL_DONE (by decide) (by decide)
  case off =>
    have htold : Emitted s (emit 0x5D1 0xD09 1 (offset % 2 ^ 28) (s.bump F.HEP_PWIN_STAT_FAULTS)) 0x5D1 1 0xD09 (offset % 2 ^ 28) :=
      emitted_emit_of _ _ _ _ rfl
    have hcount := fld_bump_same (s := s) F.HEP_PWIN_STAT_FAULTS (by decide) (by decide)
    refine .of_exec (exec_peerMemoryRequest_off hoff offset len write) ?_
    cases write with
    | none => exact ⟨htold, rfl, fun _ => sent_send _ _, hcount⟩
    | some d => exact ⟨htold, rfl, fun h => absurd h (by simp), hcount⟩

end Sys2Proof.Machine
end

section
/-! PROOFS. Activation of an image or firmware (R72, R73, R304, R381). -/

namespace Sys2Proof.Machine

variable {s t : State}

/-! What the gate of a write leaves: what an activation judges a content by. -/

theorem writeGate_evolves_refl (path session addr : Nat) (value : Word) (s : State) :
    Evolves [.events, .sessions, .marks, .counters, .sampling, .regs, .regCtl, .out] s (writeGate path session addr value s).1 :=
  writeGate_evolves .refl Sub.rfl

theorem cmd_of_evolves {w : List Part} (h : Evolves w s t)
    (hw : ∀ p ∈ w, p ∉ [Part.controllers, .queues, .namespaces, .commands, .activation, .powerState]) : t.cmd = s.cmd := by
  have hctrls := h.same .controllers fun hin => hw _ hin (by decide)
  have hqueues := h.same .queues fun hin => hw _ hin (by decide)
  have hnamespaces := h.same .namespaces fun hin => hw _ hin (by decide)
  have hcommands := h.same .commands fun hin => hw _ hin (by decide)
  have hact := h.same .activation fun hin => hw _ hin (by decide)
  have hpower := h.same .powerState fun hin => hw _ hin (by decide)
  simp only [Part.Same, Prod.mk.injEq] at hctrls hqueues hnamespaces hcommands hact hpower
  cases hx : t.cmd
  cases hy : s.cmd
  simp_all

theorem lay_of_evolves {w : List Part} (h : Evolves w s t) (hw : ∀ p ∈ w, p ∉ [Part.mapping, .journal, .layoutWork]) : t.lay = s.lay := by
  have hmapping := h.same .mapping fun hin => hw _ hin (by decide)
  have hjournal := h.same .journal fun hin => hw _ hin (by decide)
  have hwork := h.same .layoutWork fun hin => hw _ hin (by decide)
  simp only [Part.Same, Prod.mk.injEq] at hmapping hjournal hwork
  cases hx : t.lay
  cases hy : s.lay
  simp_all

theorem cmd_writeGate (path session addr : Nat) (value : Word) (s : State) : (writeGate path session addr value s).1.cmd = s.cmd :=
  cmd_of_evolves (writeGate_evolves_refl ..) (by decide)

theorem lay_writeGate (path session addr : Nat) (value : Word) (s : State) : (writeGate path session addr value s).1.lay = s.lay :=
  lay_of_evolves (writeGate_evolves_refl ..) (by decide)

theorem ctl_writeGate (path session addr : Nat) (value : Word) (s : State) :
    (writeGate path session addr value s).1.ctl.profiles = s.ctl.profiles ∧
      (writeGate path session addr value s).1.ctl.firmware = s.ctl.firmware ∧
      (writeGate path session addr value s).1.ctl.shelfUuid = s.ctl.shelfUuid ∧
      (writeGate path session addr value s).1.ctl.running = s.ctl.running := by
  have hE := writeGate_evolves_refl path session addr value s
  have himages := hE.same .images (by decide)
  have hstores := hE.same .stores (by decide)
  have hidentity := hE.same .identity (by decide)
  simp only [Part.Same, Prod.mk.injEq] at himages hstores hidentity
  exact ⟨himages.1, himages.2.1, hidentity.1, hstores.2⟩

theorem namespacesOk_congr (hcmd : t.cmd = s.cmd) (hlay : t.lay = s.lay) (b : Bytes) : namespacesOk t b = namespacesOk s b := by
  have hgeom (i : Nat) : keepsGeom t b i = keepsGeom s b i := by unfold keepsGeom; rw [hlay]
  have hkeeps (id : Nat) (n : Namespace) : keeps t b id n = keeps s b id n := by
    unfold keeps
    split
    next => rfl
    next => rw [hgeom]
  unfold namespacesOk nsWithEntries
  rw [hcmd, hlay, hgeom]
  simp only [hkeeps]

/-- What a content is judged by: keys, mode, roles, the shelf, the namespaces and the map. -/
theorem imageReason_congr (htru : t.tru = s.tru) (hboot : t.boot = s.boot) (hcmd : t.cmd = s.cmd) (hlay : t.lay = s.lay)
    (hshelf : t.ctl.shelfUuid = s.ctl.shelfUuid) (hmode : redMode t = redMode s) (modeTest : Bool) (b : Bytes) :
    imageReason t modeTest b = imageReason s modeTest b := by
  have hsigner : signerOk t b = signerOk s b := by unfold signerOk; rw [htru]
  unfold imageReason
  rw [hsigner, namespacesOk_congr hcmd hlay, hboot, hshelf, hmode]

/-- The order of an activation as it reaches its content, the gate behind it. -/
structure ContentStands (s t : State) : Prop where
  now : t.now = s.now
  act : t.cmd.act = s.cmd.act
  slot : ∀ kind n, slotContent t kind n = slotContent s kind n
  image : ∀ b, imageReason t (modeTested t) b = imageReason s (modeTested s) b
  firmware : ∀ b, firmwareReason t b = firmwareReason s b

theorem contentStands_gated (path : Fin 5) (session addr : Nat) (value : Word) (s : State) :
    ContentStands s (gated path session addr value s) := by
  have hE := writeGate_evolves_refl path.val session addr value s
  obtain ⟨hprofiles, hfirmware, hshelf, hrunning⟩ := ctl_writeGate path.val session addr value s
  have hcmd := cmd_writeGate path.val session addr value s
  have hboot : (gated path session addr value s).boot = s.boot := hE.same .boot (by decide)
  have htru : (gated path session addr value s).tru = s.tru := hE.same .trust (by decide)
  have hmode : redMode (gated path session addr value s) = redMode s := hE.fld_eq F.RED_MODE_MODE (by decide)
  have htested : modeTested (gated path session addr value s) = modeTested s := by
    unfold modeTested; rw [hrunning, hboot]
  exact
    { now := hE.now_eq (by decide)
      act := congrArg Cmd.act hcmd
      slot := fun kind n => by unfold slotContent; rw [hprofiles, hfirmware]
      image := fun b => by
        rw [htested]
        exact imageReason_congr htru hboot hcmd (lay_writeGate path.val session addr value s) hshelf hmode (modeTested s) b
      firmware := fun b => by unfold firmwareReason; rw [htru] }

/-! The fetch stop of an activation (R72 steps 1 and 2). -/

theorem boundEnter_evolves_refl (bit : Nat) (s : State) : Evolves [.events, .counters, .sampling, .commands] s (boundEnter bit s) :=
  boundEnter_evolves .refl Sub.rfl

theorem bitAt_boundEnter (bit : Nat) (s : State) : bitAt (boundEnter bit s).cmd.boundStat bit = true := by
  unfold boundEnter
  split
  next h => exact h
  next => simp

/-- An activation accepted: grants stop and the capsules in their slots are held. -/
def fetchStopped (kind slot : Nat) (reply : Option (Nat × Nat × Nat)) (b : Bytes) (s : State) : State :=
  let u := (boundEnter 0 (emit 0x562 0x605 1 (kind + slot % 8 * 16) s)).onCmd fun m => { m with
    queued := m.queued.map fun c => { c with hold := true } }
  onAct (fun a => { a with step := 3, kind := kind, slot := slot, stopGts := u.now, reply := reply, staged := b }) u

theorem act_fetchStopped (kind slot : Nat) (reply : Option (Nat × Nat × Nat)) (b : Bytes) (s : State) :
    (fetchStopped kind slot reply b s).cmd.act.step = 3 ∧ (fetchStopped kind slot reply b s).cmd.act.kind = kind ∧
      (fetchStopped kind slot reply b s).cmd.act.staged = b ∧ (fetchStopped kind slot reply b s).cmd.act.stopGts = s.now :=
  ⟨rfl, rfl, rfl, (boundEnter_evolves_refl 0 (emit 0x562 0x605 1 (kind + slot % 8 * 16) s)).now_eq (by decide)⟩

theorem queued_fetchStopped (kind slot : Nat) (reply : Option (Nat × Nat × Nat)) (b : Bytes) (s : State) :
    ((fetchStopped kind slot reply b s).cmd.queued.all fun c => c.hold) = true := by
  simp [fetchStopped, onAct, State.onCmd]

theorem boundStat_fetchStopped (kind slot : Nat) (reply : Option (Nat × Nat × Nat)) (b : Bytes) (s : State) :
    bitAt (fetchStopped kind slot reply b s).cmd.boundStat 0 = true := bitAt_boundEnter 0 (emit 0x562 0x605 1 (kind + slot % 8 * 16) s)

theorem emitted_fetchStopped (kind slot : Nat) (reply : Option (Nat × Nat × Nat)) (b : Bytes) (s : State) :
    Emitted s (fetchStopped kind slot reply b s) 0x562 1 0x605 (kind + slot % 8 * 16) :=
  (boundEnter_evolves_refl 0 _).emitted_mono (by decide) (emitted_emit 0x562 0x605 1 (kind + slot % 8 * 16) s)

/-- The content of a valid slot that is accepted. -/
theorem startActivation_accepted {kind slot : Nat} {b : Bytes} (hkind : kind = 1 ∨ kind = 2) (hstep : s.cmd.act.step = 0)
    (hslot : slotContent s kind slot = some b)
    (hreason : (if kind = 1 then imageReason s (modeTested s) b else firmwareReason s b) = 0) (reply : Option (Nat × Nat × Nat)) :
    ∃ u : State, u.now = s.now ∧ (startActivation kind slot reply s).1 = fetchStopped kind slot reply b u := by
  refine ⟨if kind = 1 then (extend 2 (imgDigest b) s).onBoot fun x => { x with m2Digest := imgDigest b } else s, ?_, ?_⟩
  · split <;> rfl
  · unfold startActivation
    rw [if_neg (not_not_intro hstep), if_neg (by omega), hslot]
    simp only [hreason, not_true, ne_eq, if_false]
    rfl

theorem startActivation_refused {kind slot : Nat} {b : Bytes} (hkind : kind = 1 ∨ kind = 2) (hstep : s.cmd.act.step = 0)
    (hslot : slotContent s kind slot = some b)
    (hreason : (if kind = 1 then imageReason s (modeTested s) b else firmwareReason s b) ≠ 0) (reply : Option (Nat × Nat × Nat)) :
    (startActivation kind slot reply s).1 =
      imageRefused (if kind = 1 then imageReason s (modeTested s) b else firmwareReason s b) kind slot s := by
  unfold startActivation
  rw [if_neg (not_not_intro hstep), if_neg (by omega), hslot]
  simp only [if_pos hreason]

theorem actCtrl_of_mayWrite {path : Fin 5} {session : Nat} {value : Word} (h : MayWrite path session 0x06000058 s) (kind : Nat) :
    actCtrl kind path session value s =
      (startActivation kind (bitsOf value.toNat 2 0) none (gated path session 0x06000058 value s)).1 := by
  have hgo : (writeGate path.val session 0x06000058 value s).2 = true := writeGate_performed value h
  unfold actCtrl
  rw [show F.CMD_ACT_CTRL_KIND.addr 0 = 0x06000058 from rfl]
  simp only [hgo, if_true]

theorem slot_lt (value : Word) : bitsOf value.toNat 2 0 % 8 = bitsOf value.toNat 2 0 :=
  Nat.mod_eq_of_lt (Nat.mod_lt _ (by norm_num))

/-- An activation order of a valid slot, whatever its kind. -/
theorem actCtrl_judged {path : Fin 5} {session kind : Nat} {value : Word} {b : Bytes} (hwrite : MayWrite path session 0x06000058 s)
    (hkind : kind = 1 ∨ kind = 2) (hstep : s.cmd.act.step = 0) (hslot : slotContent s kind (bitsOf value.toNat 2 0) = some b)
    (reason : Nat) (hreason : reason = if kind = 1 then imageReason s (modeTested s) b else firmwareReason s b) :
    (reason = 0 → ∃ u : State, u.now = s.now ∧ actCtrl kind path session value s = fetchStopped kind (bitsOf value.toNat 2 0) none b u) ∧
      (reason ≠ 0 → (actCtrl kind path session value s).cmd.act = s.cmd.act ∧
        Emitted s (actCtrl kind path session value s) 0x005 3 0x010 (reason * 256 + kind * 16 + bitsOf value.toNat 2 0)) := by
  obtain ⟨hnow, hact, hslots, himage, hfirmware⟩ := contentStands_gated path session 0x06000058 value s
  rw [actCtrl_of_mayWrite hwrite]
  have hreason' : (if kind = 1 then imageReason (gated path session 0x06000058 value s) (modeTested (gated path session 0x06000058 value s)) b
      else firmwareReason (gated path session 0x06000058 value s) b) = reason := by rw [himage, hfirmware, hreason]
  have hslot' := (hslots kind (bitsOf value.toNat 2 0)).trans hslot
  have hstep' : (gated path session 0x06000058 value s).cmd.act.step = 0 := by rw [hact]; exact hstep
  refine ⟨fun hok => ?_, fun hbad => ?_⟩
  · obtain ⟨u, hu, hrun⟩ := startActivation_accepted hkind hstep' hslot' (hreason'.trans hok) none
    exact ⟨u, hu.trans hnow, hrun⟩
  · rw [startActivation_refused hkind hstep' hslot' (by rw [hreason']; exact hbad), hreason', imageRefused, slot_lt]
    exact ⟨hact, emitted_emit_of _ _ _ _ hnow⟩

/-- What an order that is accepted leaves, in the words of the claim. -/
theorem fetchStopped_told {kind : Nat} {value : Word} {u : State} (hu : u.now = s.now) (b : Bytes) :
    Emitted s (fetchStopped kind (bitsOf value.toNat 2 0) none b u) 0x562 1 0x605 (kind + bitsOf value.toNat 2 0 * 16) := by
  have htold := emitted_fetchStopped kind (bitsOf value.toNat 2 0) none b u
  rw [slot_lt] at htold
  exact (emitted_now hu).1 htold

theorem actReply_of_none (h : s.cmd.act.reply = none) (status : Nat) : actReply status s = s := by
  unfold actReply
  rw [h]

theorem boundLeave_evolves_refl (bit : Nat) (s : State) : Evolves [.events, .counters, .sampling, .commands] s (boundLeave bit s) :=
  boundLeave_evolves .refl Sub.rfl

theorem bitAt_boundLeave (bit : Nat) (s : State) : bitAt (boundLeave bit s).cmd.boundStat bit = false := by
  have hcleared (u : State) : bitAt ((if u.cmd.boundStat = 0 then emit 0x560 0x603 1 0 u else u).cmd.boundStat) bit =
      bitAt u.cmd.boundStat bit := by split <;> rfl
  unfold boundLeave
  split
  next h => simpa using h
  next => exact (hcleared _).trans (by simp)

/-- Settles O32: the order judges its content behind the gate, and each later step is one change of the activation. -/
theorem activationCompletes : Obligations.ActivationCompletes := by
  unfold Obligations.ActivationCompletes
  refine ⟨fun path session value b s hwrite hstep hslot => ?firmware, fun path session value b s hwrite hstep hslot => ?image,
    fun path session value s hwrite hstep => ?busy, fun s hstep hempty => ?drained, fun s hstep hreply hused => ?deferred,
    fun s hstep hkind hreply => ?done, fun s hstep hdone => ?resumed⟩
  case firmware =>
    obtain ⟨haccepted, hrefused⟩ := actCtrl_judged hwrite (.inr rfl) hstep hslot (firmwareReason s b) rfl
    refine ⟨_, rfl, fun hok => ?_, fun hbad => hrefused hbad⟩
    obtain ⟨u, hu, hrun⟩ := haccepted hok
    rw [hrun]
    obtain ⟨hthree, hkind, hstaged, hstop⟩ := act_fetchStopped 2 (bitsOf value.toNat 2 0) none b u
    exact ⟨hthree, hkind, hstaged, hstop.trans hu, queued_fetchStopped .., fetchStopped_told hu b⟩
  case image =>
    obtain ⟨haccepted, hrefused⟩ := actCtrl_judged hwrite (.inl rfl) hstep hslot (imageReason s (modeTested s) b) rfl
    refine ⟨_, rfl, fun hok => ?_, fun hbad => ?_⟩
    · obtain ⟨u, hu, hrun⟩ := haccepted hok
      rw [hrun]
      obtain ⟨hthree, hkind, hstaged, hstop⟩ := act_fetchStopped 1 (bitsOf value.toNat 2 0) none b u
      exact ⟨hthree, hkind, hstaged, hstop.trans hu, boundStat_fetchStopped .., queued_fetchStopped .., fetchStopped_told hu b⟩
    · have htold := hrefused hbad
      rw [Nat.one_mul] at htold
      exact htold
  case busy =>
    obtain ⟨-, hact, -⟩ := contentStands_gated path session 0x06000058 value s
    refine ⟨_, congrArg Host.Outcome.next (actCtrl_of_mayWrite hwrite 1), ?_⟩
    unfold startActivation
    rw [if_pos (by rw [hact]; exact hstep)]
    exact congrArg (fun a : Activation => { a with result := 3 }) hact
  case drained => exact .of_exec (if_pos ⟨hstep, hempty⟩) ⟨rfl, rfl⟩
  case deferred =>
    refine .of_exec (t := emit 0x562 0x607 2 (min (tableInUse s) 65535) (onAct (fun a => { a with
      step := 7, result := 2, stopUs := min ((s.now - s.cmd.act.stopGts) / 1000) (2 ^ 17 - 1), staged := [] }) s)) ?_
      ⟨rfl, rfl, rfl, emitted_emit_of _ _ _ _ rfl, rfl⟩
    exact (if_pos ⟨hstep, hused⟩).trans (congrArg Host.Outcome.next (actReply_of_none (by exact hreply) 0x0F))
  case done =>
    refine .of_exec (t := emit 0x562 0x606 1 (min ((s.now - s.cmd.act.stopGts) / 1000) (2 ^ 17 - 1)) (onAct (fun a => { a with
      step := 6, result := 1, stopUs := min ((s.now - s.cmd.act.stopGts) / 1000) (2 ^ 17 - 1), staged := [] })
      (s.onBoot fun x => { x with fwSlot := s.cmd.act.slot }))) ?_ ⟨rfl, rfl, rfl, emitted_emit_of _ _ _ _ rfl⟩
    change execActDone s = _
    unfold execActDone
    simp only [hstep, hkind, ne_eq, not_true, if_false, show ¬ (2 = 1) by decide]
    exact congrArg Host.Outcome.next (actReply_of_none (by exact hreply) 0)
  case resumed =>
    have hE := boundLeave_evolves_refl 0 (onAct (fun a => { a with step := 0 }) s)
    exact .of_exec (if_pos ⟨hstep, hdone⟩) ⟨hE.same .activation (by decide), bitAt_boundLeave 0 _⟩

end Sys2Proof.Machine
end

section
/-! PROOFS. Connection management: a context from its REQ to its release (R85 to R89). -/

namespace Sys2Proof.Machine

variable {s : State} {qpn i : Nat}

@[simp] theorem ctxOf_onCtx (qpn : Nat) (f : Context → Context) (s : State) : ctxOf (onCtx qpn f s) qpn = f (ctxOf s qpn) := by
  simp [ctxOf, onCtx, State.onXpt]

theorem ctxOf_freeContext (qpn : Nat) (s : State) : ctxOf (freeContext qpn s) qpn = default := by
  simp [ctxOf, freeContext, State.onXpt]

/-- The end of DRAIN leaves the context FREE, its DREP sent. -/
theorem endDrain_parts (qpn : Nat) (s : State) : ctxOf (endDrain qpn s) qpn = default ∧ .cmDrep qpn ∈ (endDrain qpn s).out := by
  refine ⟨ctxOf_freeContext .., ?_⟩
  have hstraddles (u : State) : Evolves _ u (endStraddles qpn u) := endStraddles_evolves .refl Sub.rfl
  have hfree (u : State) : Evolves _ u (freeContext qpn u) := freeContext_evolves .refl Sub.rfl
  exact (hfree _).sent ((hstraddles _).sent (sent_send _ _))

theorem raiseHwm_xpt (s : State) : (raiseHwm s).xpt = s.xpt ∧ (raiseHwm s).free = s.free := by
  unfold raiseHwm
  split <;> exact ⟨rfl, rfl⟩

/-- The context that an accepted REQ sets up (R85 to R88). -/
def acceptedCtx (s : State) (r : CmReq) : Context := { (default : Context) with
  state := 2, destQpn := r.qpn, pmtu := min r.pmtu (s.fld F.XPT_CFG_PMTU_MAX), remoteIp := r.remoteIp, remoteMac := r.remoteMac
  vlan := r.vlan, lport := r.lport, dscp := r.dscp, sport := r.sport, tenant := r.tenant, cntlid := 0xFFFF, sqid := 0xFFFF
  initDepth := min (s.fld F.XPT_CFG_INIT_DEPTH) r.resources, spsn := s.freeVal.toNat % 2 ^ 24, unaPsn := s.freeVal.toNat % 2 ^ 24
  epsn := r.psn % 2 ^ 24, retryLeft := s.fld F.XPT_RETRY_CFG_RETRY_CNT, rnrLeft := s.fld F.XPT_RETRY_CFG_RNR_RETRY
  rate := portMbps s r.lport / 100, minRate := minRate s, migration := r.migration, rqTail := if r.migration then migBuffers else 0 }

theorem exec_cmReq_accepted {r : CmReq} (hok : reqOk s r = true) (hfree : freeCtx s = some i) : exec (.cmReq r) s =
    .next ((raiseHwm (s.drawn.onXpt fun x => { x with ctx := x.ctx.put i (acceptedCtx s r) })).send
      (.cmRep (0x200000 + i) (s.freeVal.toNat % 2 ^ 24) (min r.pmtu (s.fld F.XPT_CFG_PMTU_MAX))
        (min (s.fld F.XPT_CFG_INIT_DEPTH) r.resources) 16 r.hsqsize)) := by
  change execCmReq r s = _
  unfold execCmReq
  simp only [hok, hfree, Bool.not_true, Bool.false_eq_true, if_false]
  rfl

theorem exec_cmReq_refused {r : CmReq} (hok : reqOk s r = false) : exec (.cmReq r) s = .next (s.send (.cmRej 28)) := by
  change execCmReq r s = _
  unfold execCmReq
  simp only [hok, Bool.not_false, if_true]

theorem exec_cmReq_full {r : CmReq} (hok : reqOk s r = true) (hfree : freeCtx s = none) :
    exec (.cmReq r) s = .next (emit 0x556 0x501 2 (ctxInUse s) (s.send (.cmRej 1))) := by
  change execCmReq r s = _
  unfold execCmReq
  simp only [hok, hfree, Bool.not_true, Bool.false_eq_true, if_false]

theorem drainCheck_of_draining (h : (ctxOf s qpn).state = 4) :
    drainCheck qpn s = if (ctxOf s qpn).inFlight then s else endDrain qpn s := by
  unfold drainCheck
  simp only [h, true_and]
  cases (ctxOf s qpn).inFlight <;> rfl

theorem exec_cmDreq (h : (ctxOf s qpn).state = 3) : exec (.cmDreq qpn) s =
    .next (if (ctxOf s qpn).inFlight then onCtx qpn (fun c => { c with state := 4 }) s
      else endDrain qpn (onCtx qpn (fun c => { c with state := 4 }) s)) := by
  have hflight : (ctxOf (onCtx qpn (fun c => { c with state := 4 }) s) qpn).inFlight = (ctxOf s qpn).inFlight := by
    rw [ctxOf_onCtx]; rfl
  have hdrain := drainCheck_of_draining (s := onCtx qpn (fun c => { c with state := 4 }) s) (qpn := qpn) (by rw [ctxOf_onCtx])
  rw [hflight] at hdrain
  exact (if_pos h).trans (congrArg Host.Outcome.next hdrain)

/-- Settles O33: a REQ by its three answers, and the later commands by the one change of the context that each is. -/
theorem connectionsComplete : Obligations.ConnectionsComplete := by
  unfold Obligations.ConnectionsComplete
  refine ⟨fun r i s hok hfree => ?accepted, fun r s hok => .of_exec (exec_cmReq_refused hok) ⟨rfl, rfl⟩, fun r s => ?full,
    fun qpn s hstate => .of_exec (if_pos hstate) ⟨ctxOf_onCtx .., rfl⟩,
    fun qpn s hstate hflight => .of_exec (exec_cmDreq hstate) ?draining,
    fun qpn s hstate hflight => .of_exec (exec_cmDreq hstate) ?released,
    fun qpn s hstate => .of_exec (if_pos hstate) ⟨ctxOf_freeContext .., rfl⟩,
    fun qpn s hstate => .of_exec (if_pos hstate) (endDrain_parts qpn s),
    fun qpn s hstate => .of_exec (if_pos hstate) ⟨ctxOf_freeContext .., rfl⟩⟩
  case accepted =>
    obtain ⟨hxpt, hdrawn⟩ := raiseHwm_xpt (s.drawn.onXpt fun x => { x with ctx := x.ctx.put i (acceptedCtx s r) })
    have hctx : ((raiseHwm (s.drawn.onXpt fun x => { x with ctx := x.ctx.put i (acceptedCtx s r) })).xpt.ctx.at i) = acceptedCtx s r := by
      rw [hxpt]; simp [State.onXpt]
    refine .of_exec (exec_cmReq_accepted hok hfree) ?_
    simp only [State.send]
    rw [hctx, hdrawn]
    exact ⟨rfl, rfl, rfl, rfl, rfl, rfl, rfl, by simp⟩
  case full =>
    by_cases hfull : reqOk s r = true ∧ freeCtx s = none
    · exact .of_exec (exec_cmReq_full hfull.1 hfull.2) fun _ => ⟨rfl, sent_send _ _, emitted_emit_of _ _ _ _ rfl⟩
    · obtain ⟨t, hexec⟩ := exec_next (.cmReq r) s
      exact ⟨t, hexec, fun h => absurd h hfull⟩
  case draining =>
    rw [if_pos hflight]
    exact ⟨ctxOf_onCtx .., rfl⟩
  case released =>
    rw [hflight]
    exact endDrain_parts qpn _

end Sys2Proof.Machine
end

section
/-! PROOFS. O39: a cipher lane fenced at the floor of its group. -/

namespace Sys2Proof.Machine

/-- A unit of a pair with the sixteen lanes above its floor fenced already, a namespace in ANA state 0, and a controller that
takes ANA notices and has an Asynchronous Event Request outstanding. -/
def lanesAtFloor : State :=
  ((State.reset.setFld F.RED_MODE_MODE 1).onCtl fun c => { c with
    blocks := c.blocks.upd 10 fun b => { b with fenced := 2 ^ 16 - 1 } }).onCmd fun c => { c with
      namespaces := [(1, { (default : Namespace) with valid := true })]
      ctrls := [(1, { (default : Controller) with exists_ := true, state := 2, features := [(0x0B, 2 ^ 11)], aers := [5] })] }

theorem unfenced_lanesAtFloor : fencedUnit lanesAtFloor 10 20 = false := by decide +kernel

/-- The fence of one more lane takes the group below its floor (R43), so the namespace changes its ANA state and the notice of
that is the completion of the outstanding request. -/
theorem out_fenceCipherLane_lanesAtFloor :
    (fenceCipherLane 20 1 lanesAtFloor).out = [.completion 1 0 5 stOk anaNotice] := by decide +kernel

/-- Refutes O39: its fifth clause says that a lane which fails its known answer test sends nothing. Where the fence takes the
lanes below their floor, the controllers are told of the new ANA state. -/
theorem not_cipherCompletes : ¬ Obligations.CipherCompletes := by
  unfold Obligations.CipherCompletes
  rintro ⟨-, -, -, -, htest, -⟩
  obtain ⟨t, hexec, -, hout⟩ := htest 20 lanesAtFloor unfenced_lanesAtFloor
  obtain rfl : fenceCipherLane 20 1 lanesAtFloor = t := Host.Outcome.next.inj hexec
  rw [out_fenceCipherLane_lanesAtFloor] at hout
  exact absurd hout (by decide)

end Sys2Proof.Machine
end

section
/-! PROOFS. O40: trust orders and the entropy source (R303, R305, R306, R310, R313). -/

namespace Sys2Proof.Machine

variable {s t : State}

/-! What the gate of a write leaves of the trust block, the mailbox and the fields. -/

theorem tru_gated (path : Fin 5) (session addr : Nat) (value : Word) (s : State) : (gated path session addr value s).tru = s.tru :=
  (writeGate_evolves_refl path.val session addr value s).same .trust (by decide)

theorem fld_gated (path : Fin 5) (session addr : Nat) (value : Word) (s : State) {f : Fld} (ha : 0x1000000 ≤ f.addr 0) :
    (gated path session addr value s).fld f = s.fld f := writeGate_fldI _ _ _ _ path.isLt f 0 (.inl ha)

theorem mailbox_gated (path : Fin 5) (session addr : Nat) (value : Word) (s : State) :
    (gated path session addr value s).cip.mailbox = s.cip.mailbox ∧
      (gated path session addr value s).cip.mailboxSession = s.cip.mailboxSession := by
  have hsame := (writeGate_evolves_refl path.val session addr value s).same .keyOrders (by decide)
  simp only [Part.Same, Prod.mk.injEq] at hsame
  exact ⟨hsame.2.1, hsame.2.2.1⟩

/-- The state in which a trust order runs. -/
abbrev orderedTrust (path : Fin 5) (session : Nat) (value : Word) (s : State) : State :=
  gated path session (F.TRU_ORDER_OP.addr 0) value s

/-- An order that its path may give runs, and its result is told. -/
theorem trustOrder_of_mayWrite {path : Fin 5} {session : Nat} {value : Word} (h : MayWrite path session (F.TRU_ORDER_OP.addr 0) s)
    {run : State → State × Nat} {u : State} {r : Nat} (hrun : run (orderedTrust path session value s) = (u, r)) :
    trustOrder path session value run s = u.setFld F.TRU_ORDER_STAT_RESULT r := by
  have hgo : (writeGate path.val session (F.TRU_ORDER_OP.addr 0) value s).2 = true := writeGate_performed value h
  unfold trustOrder
  simp only [hgo, hrun, Bool.not_true, Bool.false_eq_true, if_false]

theorem result_trustOrder {r : Nat} (h : r < 16) (u : State) : (u.setFld F.TRU_ORDER_STAT_RESULT r).fld F.TRU_ORDER_STAT_RESULT = r :=
  (fld_setFld_same F.TRU_ORDER_STAT_RESULT r (by decide) (by decide)).trans (Nat.mod_eq_of_lt h)

/-- A change of TRU that is made, recorded and answered. -/
abbrev changed (op arg r : Nat) (s : State) : State := (trustChange op arg s).setFld F.TRU_ORDER_STAT_RESULT r

theorem emitted_changed {u : State} (h : u.now = s.now) (op arg r : Nat) :
    Emitted s (changed op arg r u) 0x5B0 1 0xB07 (arg % 64 * 256 + op) := by
  have hnow : (extend 3 (Config.sha256 (Config.trustRecord op arg u.now)) u).now = s.now := h
  have hemit := emitted_emit_of 0x5B0 0xB07 1 (arg % 64 * 256 + op) hnow
  exact hemit

theorem changed_rotation (op arg r : Nat) (s : State) : (changed op arg r s).tru.rotation = s.tru.rotation := rfl

theorem changed_fuseSvn (op arg r : Nat) (s : State) : (changed op arg r s).tru.fuseSvn = s.tru.fuseSvn := rfl

theorem changed_imageKeys (op arg r : Nat) (s : State) : (changed op arg r s).tru.imageKeys = s.tru.imageKeys := rfl

theorem Tab.at_ins_same {α : Type} [Inhabited α] (t : Tab α) (k : Nat) (x : α) : (t.ins k x).at k = x := by
  simp [Tab.at, Tab.getD, Tab.look_ins]

theorem Tab.at_del_same {α : Type} [Inhabited α] (t : Tab α) (k : Nat) : (t.del k).at k = default := by
  simp [Tab.at, Tab.getD, Tab.look_del]

/-! The orders. -/

variable {path : Fin 5} {session : Nat} {value : Word}

/-- The next rotation is in force. -/
def rotated (s : State) : State :=
  (s.onTru fun t => { t with rotation := s.tru.rotation + 1, notBefore := t.notBefore.ins (s.tru.rotation + 1) s.now }).setFld
    F.TRU_STAT_ROTATION (s.tru.rotation + 1)

theorem fuseSvn_rotated (s : State) : (rotated s).tru.fuseSvn = s.tru.fuseSvn := rfl

theorem exec_truRotate (h : MayWrite path session (F.TRU_ORDER_OP.addr 0) s) (hroom : s.tru.rotation < 63) :
    exec (.truRotate path session value) s = .next (changed 1 (s.tru.rotation + 1) 1
      (rotated (orderedTrust path session value s))) := by
  refine congrArg Host.Outcome.next (trustOrder_of_mayWrite h ?_)
  have hroom' : ¬ 63 ≤ s.tru.rotation := by omega
  simp only [rotated, tru_gated, hroom', if_false]

/-- FUSE_SVN at the running firmware's SVN, or where it was. -/
def rolledForward (s : State) : State :=
  (s.onTru fun t => { t with fuseSvn := max (s.fld F.TRU_STAT_FW_SVN) s.tru.fuseSvn }).setFld F.TRU_STAT_FUSE_SVN
    (max (s.fld F.TRU_STAT_FW_SVN) s.tru.fuseSvn)

theorem exec_truRollback_raises (h : MayWrite path session (F.TRU_ORDER_OP.addr 0) s)
    (hslots : (s.ctl.firmware.any fun e => e.2.valid && decide (e.2.svn < s.fld F.TRU_STAT_FW_SVN)) = false) :
    exec (.truRollback path session value) s = .next (changed 2
      (max (s.fld F.TRU_STAT_FW_SVN) s.tru.fuseSvn) 1 (rolledForward (orderedTrust path session value s))) := by
  refine congrArg Host.Outcome.next (trustOrder_of_mayWrite h ?_)
  obtain ⟨-, hfirmware, -, -⟩ := ctl_writeGate path.val session (F.TRU_ORDER_OP.addr 0) value s
  have hsvn := fld_gated path session (F.TRU_ORDER_OP.addr 0) value s (f := F.TRU_STAT_FW_SVN) (by decide)
  simp only [rolledForward, hfirmware, hsvn, hslots, tru_gated, Bool.false_eq_true, if_false]

theorem exec_truRollback_refused (h : MayWrite path session (F.TRU_ORDER_OP.addr 0) s)
    (hslots : (s.ctl.firmware.any fun e => e.2.valid && decide (e.2.svn < s.fld F.TRU_STAT_FW_SVN)) = true) :
    exec (.truRollback path session value) s = .next ((orderedTrust path session value s).setFld F.TRU_ORDER_STAT_RESULT 5) := by
  refine congrArg Host.Outcome.next (trustOrder_of_mayWrite h ?_)
  obtain ⟨-, hfirmware, -, -⟩ := ctl_writeGate path.val session (F.TRU_ORDER_OP.addr 0) value s
  have hsvn := fld_gated path session (F.TRU_ORDER_OP.addr 0) value s (f := F.TRU_STAT_FW_SVN) (by decide)
  simp only [hfirmware, hsvn, hslots, if_true]

theorem exec_truEnrolImageKey (h : MayWrite path session (F.TRU_ORDER_OP.addr 0) s) (hpath : path ≠ 4)
    (hsession : s.cip.mailboxSession = session) (hlength : s.cip.mailbox.length = 64)
    (hsigner : s.tru.imageSigner ≠ some (bitsOf value.toNat 1 0)) :
    exec (.truEnrolImageKey path session value) s = .next (changed 3 0 1 (countImageKeys
      ((orderedTrust path session value s).onTru fun t => { t with
        imageKeys := t.imageKeys.ins (bitsOf value.toNat 1 0) s.cip.mailbox }))) := by
  refine congrArg Host.Outcome.next (trustOrder_of_mayWrite h ?_)
  obtain ⟨hmailbox, howner⟩ := mailbox_gated path session (F.TRU_ORDER_OP.addr 0) value s
  have hpath' : ¬ path.val = 4 := fun hp => hpath (Fin.ext hp)
  simp only [hpath', hmailbox, howner, hsession, hlength, tru_gated, hsigner, ne_eq, not_true_eq_false, or_self, if_false]

theorem exec_truRemoveImageKey (h : MayWrite path session (F.TRU_ORDER_OP.addr 0) s)
    (hsigner : s.tru.imageSigner ≠ some (bitsOf value.toNat 1 0)) :
    exec (.truRemoveImageKey path session value) s = .next (changed 4 0 1 (countImageKeys
      ((orderedTrust path session value s).onTru fun t => { t with
        imageKeys := t.imageKeys.del (bitsOf value.toNat 1 0) }))) := by
  refine congrArg Host.Outcome.next (trustOrder_of_mayWrite h ?_)
  simp only [tru_gated, hsigner, if_false]

theorem exec_truRemoveImageKey_signer (h : MayWrite path session (F.TRU_ORDER_OP.addr 0) s)
    (hsigner : s.tru.imageSigner = some (bitsOf value.toNat 1 0)) :
    exec (.truRemoveImageKey path session value) s =
      .next ((orderedTrust path session value s).setFld F.TRU_ORDER_STAT_RESULT 6) := by
  refine congrArg Host.Outcome.next (trustOrder_of_mayWrite h ?_)
  simp only [tru_gated, hsigner, if_true]

theorem fld_emit (src ev sev data : Nat) (f : Fld) (s : State) : (emit src ev sev data s).fld f = s.fld f := fldI_emit ..

/-- The two bits of the entropy source's health. -/
def entropySays (ok det : Nat) (s : State) : State := (s.setFld F.TRU_STAT_ENTROPY_OK ok).setFld F.TRU_STAT_DETERMINISTIC det

theorem fld_entropySays {ok det : Nat} (hok : ok < 2) (hdet : det < 2) (s : State) :
    (entropySays ok det s).fld F.TRU_STAT_ENTROPY_OK = ok ∧ (entropySays ok det s).fld F.TRU_STAT_DETERMINISTIC = det :=
  ⟨(fld_setFld_disjoint _ _ _ (by decide) (by decide) (by decide) (by decide)).trans
      ((fld_setFld_same _ _ (by decide) (by decide)).trans (Nat.mod_eq_of_lt hok)),
    (fld_setFld_same _ _ (by decide) (by decide)).trans (Nat.mod_eq_of_lt hdet)⟩

theorem exec_entropyFail (test : Fin 2) (s : State) :
    exec (.entropyFail test) s = .next (emit 0x5B4 0xB03 4 test.val (entropySays 0 1 s)) := rfl

theorem exec_entropyOk (s : State) : exec .entropyOk s = .next (emit 0x5B4 0xB04 1 0 (entropySays 1 0 s)) := rfl

theorem now_entropySays (ok det : Nat) (s : State) : (entropySays ok det s).now = s.now :=
  (State.now_setFld ..).trans (State.now_setFld ..)

/-- Settles O40: an order that its path may give is its run and its result; each run is a change of TRU and the record of it. -/
theorem trustCompletes : Obligations.TrustCompletes := by
  unfold Obligations.TrustCompletes
  refine ⟨fun path session value s h hroom => ?rotate, fun path session value s h hslots => ?rollback,
    fun path session value s h hslots => ?rollbackRefused, fun path session value s h hpath hsession hlength hsigner => ?enrol,
    fun path session value s h hsigner => ?remove, fun path session value s h hsigner => ?signer,
    fun test s => ?fail, fun s => ?healthy⟩
  case rotate =>
    have hnow : (rotated (orderedTrust path session value s)).now = s.now := writeGate_now ..
    have hrotation : (rotated (orderedTrust path session value s)).tru.rotation = s.tru.rotation + 1 :=
      congrArg (fun t : Tru => t.rotation + 1) (tru_gated path session (F.TRU_ORDER_OP.addr 0) value s)
    refine ⟨_, exec_truRotate h hroom, ?_, result_trustOrder (by decide) _, ?_, ?_⟩
    · rw [changed_rotation, hrotation]
    · exact emitted_changed hnow 1 (s.tru.rotation + 1) 1
    · rw [changed_fuseSvn, fuseSvn_rotated]
      exact congrArg Tru.fuseSvn (tru_gated path session (F.TRU_ORDER_OP.addr 0) value s)
  case rollback =>
    have hnow : (rolledForward (orderedTrust path session value s)).now = s.now := writeGate_now ..
    have hfuse : (rolledForward (orderedTrust path session value s)).tru.fuseSvn = max (s.fld F.TRU_STAT_FW_SVN) s.tru.fuseSvn :=
      congrArg₂ max (fld_gated path session (F.TRU_ORDER_OP.addr 0) value s (f := F.TRU_STAT_FW_SVN) (by decide))
        (congrArg Tru.fuseSvn (tru_gated path session (F.TRU_ORDER_OP.addr 0) value s))
    refine ⟨_, exec_truRollback_raises h hslots, ?_, result_trustOrder (by decide) _, ?_⟩
    · rw [changed_fuseSvn, hfuse]
    · exact emitted_changed hnow 2 (max (s.fld F.TRU_STAT_FW_SVN) s.tru.fuseSvn) 1
  case rollbackRefused =>
    have htru := tru_gated path session (F.TRU_ORDER_OP.addr 0) value s
    exact ⟨_, exec_truRollback_refused h hslots, (State.setFld_tru ..).trans htru, result_trustOrder (by decide) _⟩
  case enrol =>
    have hnow : (orderedTrust path session value s).now = s.now := writeGate_now ..
    refine ⟨_, exec_truEnrolImageKey h hpath hsession hlength hsigner, ?_, result_trustOrder (by decide) _, ?_⟩
    · rw [changed_imageKeys]
      exact Tab.at_ins_same _ _ _
    · exact emitted_changed (by exact hnow) 3 0 1
  case remove =>
    have hnow : (orderedTrust path session value s).now = s.now := writeGate_now ..
    refine ⟨_, exec_truRemoveImageKey h hsigner, ?_, result_trustOrder (by decide) _, ?_⟩
    · rw [changed_imageKeys]
      exact Tab.at_del_same _ _
    · exact emitted_changed (by exact hnow) 4 0 1
  case signer =>
    have htru := tru_gated path session (F.TRU_ORDER_OP.addr 0) value s
    exact ⟨_, exec_truRemoveImageKey_signer h hsigner, (State.setFld_tru ..).trans htru, result_trustOrder (by decide) _⟩
  case fail =>
    obtain ⟨hok, hdet⟩ := fld_entropySays (by decide : 0 < 2) (by decide : 1 < 2) s
    refine ⟨_, exec_entropyFail test s, ?_, ?_, emitted_emit_of _ _ _ _ (now_entropySays 0 1 s)⟩
    · exact (fld_emit ..).trans hok
    · exact (fld_emit ..).trans hdet
  case healthy =>
    obtain ⟨hok, hdet⟩ := fld_entropySays (by decide : 1 < 2) (by decide : 0 < 2) s
    refine ⟨_, exec_entropyOk s, ?_, ?_, emitted_emit_of _ _ _ _ (now_entropySays 1 0 s)⟩
    · exact (fld_emit ..).trans hok
    · exact (fld_emit ..).trans hdet

end Sys2Proof.Machine
end

section
/-! PROOFS. O36: triggers and chains (R116 to R121), with what a message does that may leave at once (R98, R106). -/

namespace Sys2Proof.Machine

variable {s t u : State} {w : List Part} {qpn len tag : Nat} {p : Packet}

/-! A message that may leave at once. -/

theorem packetSent_mono (h : Evolves w s t) (hp : PacketSent s qpn p) : PacketSent t qpn p := by
  obtain ⟨o, ho, hq⟩ := List.any_eq_true.1 hp
  exact List.any_eq_true.2 ⟨o, h.out.subset ho, hq⟩

theorem packetSent_send (frames : List Bytes) (s : State) : PacketSent (s.send (.packet qpn p frames)) qpn p :=
  List.any_eq_true.2 ⟨.packet qpn p frames, by simp [State.send], by simp [Output.isPacket]⟩

theorem ctxOf_of_evolves (h : Evolves w s t) (hw : .contexts ∉ w) (q : Nat) : ctxOf t q = ctxOf s q :=
  congrArg (fun c : Tab Context => c.at (q - 0x200000)) (h.same .contexts hw)

theorem payloadLens_ne_nil (code len : Nat) : payloadLens code len ≠ [] := by
  have h : 1 ≤ packetsOf code len := Nat.le_max_left _ _
  simp only [payloadLens, ne_eq, List.map_eq_nil_iff, List.range_eq_nil]
  omega

/-- Is a message one that its connection has a credit for? -/
def Credited (s : State) (qpn : Nat) (p : Packet) : Prop :=
  Posted.isRead ⟨p, 0, 0, true, true⟩ = false ∨ (ctxOf s qpn).readsOut < (ctxOf s qpn).initDepth

/-- The state with a message posted on a connection that has nothing posted. -/
abbrev posted (qpn : Nat) (x : Posted) (s : State) : State := onCtx qpn (fun c => { c with work := c.work ++ [x] }) s

theorem work_posted (h : SendsNow s qpn) (x : Posted) : ctxOf (posted qpn x s) qpn = { ctxOf s qpn with work := [x] } := by
  obtain ⟨hwork, -⟩ := h
  rw [ctxOf_onCtx, hwork, List.nil_append]

theorem mayLeave_posted (h : SendsNow s qpn) (hcredit : Credited s qpn p) :
    mayLeave (posted qpn ⟨p, len, tag, true, true⟩ s) qpn ⟨p, len, tag, true, true⟩ ≠ 0 := by
  have hctx := work_posted h ⟨p, len, tag, true, true⟩
  obtain ⟨-, hsent, hresume, hnotices, hpace, -⟩ := h
  have hresuming : resuming (posted qpn ⟨p, len, tag, true, true⟩ s) qpn = false := by
    have hnone : (posted qpn ⟨p, len, tag, true, true⟩ s).red.notices = [] := hnotices
    simp [resuming, hctx, hresume, hnone]
  have hfree : isPaced (posted qpn ⟨p, len, tag, true, true⟩ s) (ctxOf s qpn) true = false := by
    have hfld : (posted qpn ⟨p, len, tag, true, true⟩ s).fld F.XPT_CFG_CC_EN = s.fld F.XPT_CFG_CC_EN := rfl
    unfold isPaced
    rw [hfld]
    rcases hpace with hen | hclass
    · rw [hen]; simp
    · rw [hclass]; rfl
  have hsome : (payloadLens (ctxOf s qpn).pmtu len).length ≠ 0 := fun hnil =>
    payloadLens_ne_nil _ _ (List.eq_nil_of_length_eq_zero hnil)
  unfold mayLeave
  simp only [hctx, hresuming, hsent, Bool.and_false, Bool.false_eq_true, if_false, List.drop_zero]
  split
  next hread =>
    rw [if_pos (hcredit.resolve_left fun hno => Bool.false_ne_true (hno.symm.trans hread))]
    exact hsome
  next => exact fun hz => hsome ((if_neg fun hp => Bool.false_ne_true (hfree.symm.trans hp)).symm.trans hz)

theorem sendMessage_of_no_notice (h : s.red.notices = []) :
    sendMessage qpn len tag p s = postWork qpn ⟨p, len, tag, true, true⟩ s := by
  unfold sendMessage
  simp only [h, List.find?_nil]

/-- A message that begins stands first, with the connection's next PSN. -/
theorem ctxOf_beginMessage (h : SendsNow s qpn) (x : Posted) (hown : x.own = true) :
    (ctxOf (beginMessage qpn x (posted qpn x s)) qpn).work = [{ x with packet := x.packet.withPsn (ctxOf s qpn).spsn }] ∧
      (ctxOf (beginMessage qpn x (posted qpn x s)) qpn).workSent = 0 := by
  have hctx := work_posted h x
  obtain ⟨-, hsent, -⟩ := h
  have hnoticed (n tag : Nat) (p : Packet) : ctxOf (sendNotice qpn n tag p (posted qpn x s)) qpn = { ctxOf s qpn with work := [x] } :=
    (ctxOf_of_evolves (sendNotice_evolves .refl Sub.rfl) (by decide) qpn).trans hctx
  unfold beginMessage
  simp only [hown, Bool.not_true, Bool.false_eq_true, if_false, ctxOf_onCtx, takePsns, hnoticed, hctx, List.tail_cons, hsent,
    and_self]

theorem packetSent_sendPart {n : Nat} {x : Posted} (hps : s.cmd.ps ≠ 4) (hwork : (ctxOf s qpn).work = [x])
    (hsent : (ctxOf s qpn).workSent = 0) : PacketSent (sendPart qpn n s) qpn x.packet := by
  have hout := packetSent_send (qpn := qpn) (p := x.packet) ((x.packet.frames s qpn).take n) s
  unfold sendPart
  simp only [hwork, hsent, if_true, hps, if_false]
  split
  next =>
    exact packetSent_mono (onCtx_evolves (chargePace_evolves .refl (Sub.of Sub.rfl rfl)) Sub.rfl) hout
  next =>
    exact packetSent_mono (startSample_evolves (onCtx_evolves (chargePace_evolves .refl (Sub.of Sub.rfl rfl)) (Sub.of Sub.rfl rfl))
      Sub.rfl) hout

/-- On a connection that may send at once, a message leaves with the connection's next PSN (R98). -/
theorem packetSent_sendMessage (h : SendsNow s qpn) (hcredit : Credited s qpn p) :
    PacketSent (sendMessage qpn len tag p s) qpn (p.withPsn (ctxOf s qpn).spsn) := by
  have hmay := mayLeave_posted (len := len) (tag := tag) h hcredit
  have hctx := work_posted h ⟨p, len, tag, true, true⟩
  obtain ⟨hwork, hsent⟩ := ctxOf_beginMessage h ⟨p, len, tag, true, true⟩ rfl
  obtain ⟨-, hnone, -, hnotices, -, hps⟩ := h
  have hlen : ((ctxOf (posted qpn ⟨p, len, tag, true, true⟩ s) qpn).work.length + 1) = 1 + 1 := by rw [hctx]; rfl
  have hpower : (beginMessage qpn ⟨p, len, tag, true, true⟩ (posted qpn ⟨p, len, tag, true, true⟩ s)).cmd.ps ≠ 4 := by
    have hsame := (beginMessage_evolves .refl Sub.rfl : Evolves _ (posted qpn ⟨p, len, tag, true, true⟩ s)
      (beginMessage qpn ⟨p, len, tag, true, true⟩ (posted qpn ⟨p, len, tag, true, true⟩ s))).same .powerState (by decide)
    simp only [Part.Same, Prod.mk.injEq] at hsame
    rw [hsame.1]
    exact hps
  have hstep : sendMessage qpn len tag p s = pumpMany 1 qpn (sendPart qpn
      (mayLeave (posted qpn ⟨p, len, tag, true, true⟩ s) qpn ⟨p, len, tag, true, true⟩)
      (beginMessage qpn ⟨p, len, tag, true, true⟩ (posted qpn ⟨p, len, tag, true, true⟩ s))) := by
    rw [sendMessage_of_no_notice hnotices]
    unfold postWork pump
    rw [hlen, pumpMany]
    simp only [hctx, hmay, hnone, if_false, if_true]
  rw [hstep]
  exact packetSent_mono (pumpMany_evolves .refl Sub.rfl) (packetSent_sendPart hpower hwork hsent)

/-! The requests of a chain. -/

variable {chain i : Nat} {r : WorkReq}

theorem chainOf_onChain (e : Nat) (f : Chain → Chain) (s : State) : (onChain e f s).xpt.chains.at e = f (s.xpt.chains.at e) := by
  simp [onChain, State.onXpt]

theorem chains_of_evolves (h : Evolves w s t) (hw : .chains ∉ w) :
    t.xpt.chains = s.xpt.chains ∧ t.xpt.triggers = s.xpt.triggers ∧ t.xpt.pool = s.xpt.pool := by
  have hsame := h.same .chains hw
  simp only [Part.Same, Prod.mk.injEq] at hsame
  obtain ⟨htriggers, hpool, hchains, -⟩ := hsame
  exact ⟨hchains, htriggers, hpool⟩

theorem startRequest_of_next {op : Nat} (h : nextRequest s chain op = some (i, r)) (run : Nat → WorkReq → State → State) :
    startRequest chain op run s = run i r (requestStarted chain i r s) := by
  unfold startRequest
  rw [h]

theorem inProgress_requestStarted (chain i : Nat) (r : WorkReq) (s : State) :
    ((requestStarted chain i r s).xpt.chains.at chain).inProgress =
      (s.xpt.chains.at chain).inProgress ++ [(i, (s.xpt.chains.at chain).index)] := by
  rw [requestStarted, chainOf_onChain]

theorem mem_inProgress_requestStarted (chain i : Nat) (r : WorkReq) (s : State) :
    (i, (s.xpt.chains.at chain).index) ∈ ((requestStarted chain i r s).xpt.chains.at chain).inProgress := by
  simp [inProgress_requestStarted]

theorem ctxOf_requestStarted (chain i : Nat) (r : WorkReq) (s : State) (q : Nat) :
    ctxOf (requestStarted chain i r s) q = ctxOf s q := rfl

theorem onNetwork_of_rts (h : (ctxOf s r.qpn).state = 3) (run : Nat → WorkReq → State → State) :
    onNetwork chain run i r s = run i r s := if_pos h

theorem onNetwork_of_other (h : (ctxOf s r.qpn).state ≠ 3) (run : Nat → WorkReq → State → State) :
    onNetwork chain run i r s = requestEnds chain i 7 s := if_neg h

/-- A network request of a chain on a connection in RTS is in progress whatever its message does. -/
theorem network_inProgress {op : Nat} {run : Nat → WorkReq → State → State} (h : nextRequest s chain op = some (i, r))
    (hrts : (ctxOf s r.qpn).state = 3) (hE : ∀ u, Evolves [.contexts, .leash, .replicas, .out] u (run i r u)) :
    startRequest chain op (onNetwork chain run) s = run i r (requestStarted chain i r s) ∧
      (i, (s.xpt.chains.at chain).index) ∈ ((startRequest chain op (onNetwork chain run) s).xpt.chains.at chain).inProgress := by
  have hrun : startRequest chain op (onNetwork chain run) s = run i r (requestStarted chain i r s) := by
    rw [startRequest_of_next h]
    exact onNetwork_of_rts (s := requestStarted chain i r s) hrts run
  refine ⟨hrun, ?_⟩
  obtain ⟨hchains, -, -⟩ := chains_of_evolves (hE (requestStarted chain i r s)) (by decide)
  rw [hrun, hchains]
  exact mem_inProgress_requestStarted chain i r s

/-! The ends of requests and of chains. -/

/-- The last request in progress ends well and the chain has no next one: it is DONE (R120). -/
theorem requestEnds_done {wr index : Nat} (hin : (s.xpt.chains.at chain).inProgress = [(wr, index)])
    (hrun : (s.xpt.chains.at chain).running = true) (hnext : (s.xpt.chains.at chain).next = none)
    (hfailed : (s.xpt.chains.at chain).failed = none) :
    ((requestEnds chain wr 0 s).xpt.triggers.at chain).state = 3 ∧ Emitted s (requestEnds chain wr 0 s) 0x555 0 0x50A chain ∧
      (requestEnds chain wr 0 s).xpt.chains.at chain = default := by
  let u := onChain chain (fun c => { c with inProgress := c.inProgress.filter (· != (wr, index)) }) s
  have hc : u.xpt.chains.at chain = { s.xpt.chains.at chain with inProgress := [] } := by
    rw [chainOf_onChain, hin]; simp
  let v := onChain chain (fun _ => default) (onTrigger chain (fun t => { t with state := 3 }) u)
  have hend : requestEnds chain wr 0 s = windowEnded chain none (emit 0x555 0x50A 0 chain v) := by
    have hfind : ([(wr, index)] : List (Nat × Nat)).find? (fun p => p.1 == wr) = some (wr, index) := by simp
    unfold requestEnds
    simp only [hin, hfind, if_true]
    change endChain chain u = _
    unfold endChain
    simp only [hc, hrun, hnext, hfailed, List.isEmpty_nil, Bool.and_self, Bool.not_true, Bool.false_eq_true, if_false]
    rfl
  have hE : Evolves _ (emit 0x555 0x50A 0 chain v) (windowEnded chain none (emit 0x555 0x50A 0 chain v)) :=
    windowEnded_evolves .refl Sub.rfl
  obtain ⟨hchains, htriggers, -⟩ := chains_of_evolves hE (by decide)
  rw [hend, htriggers, hchains]
  refine ⟨?_, hE.emitted_mono (by decide) (emitted_emit_of 0x555 0x50A 0 chain rfl), ?_⟩
  · simp [v, emit, countBy, onChain, onTrigger, State.onXpt, State.onCtl]
  · exact chainOf_onChain chain (fun _ => default) _

/-- A chain that has failed and has nothing in progress is FAILED (R120). -/
theorem failChain_failed {status index : Nat} (hin : (s.xpt.chains.at chain).inProgress = [])
    (hrun : (s.xpt.chains.at chain).running = true) (hfailed : (s.xpt.chains.at chain).failed = none) :
    ((failChain chain status index s).xpt.triggers.at chain).state = 4 ∧
      Emitted s (failChain chain status index s) 0x555 2 0x50B (status * 2 ^ 32 + index * 2 ^ 16 + chain) ∧
      (failChain chain status index s).xpt.chains.at chain = default := by
  let u := onChain chain (fun c => { c with
    next := none, failed := if c.failed.isNone then some (status, index) else c.failed }) s
  have hc : u.xpt.chains.at chain = { s.xpt.chains.at chain with next := none, failed := some (status, index) } := by
    rw [chainOf_onChain, hfailed]; rfl
  let v := onChain chain (fun _ => default) (onTrigger chain (fun t => { t with state := 4 }) u)
  have hend : failChain chain status index s =
      windowEnded chain (some (status, index)) (emit 0x555 0x50B 2 (status * 2 ^ 32 + index * 2 ^ 16 + chain) v) := by
    change endChain chain u = _
    unfold endChain
    simp only [hc, hrun, hin, List.isEmpty_nil, Bool.and_self, Bool.not_true, Bool.false_eq_true, if_false]
    rfl
  have hE : Evolves _ (emit 0x555 0x50B 2 (status * 2 ^ 32 + index * 2 ^ 16 + chain) v)
      (windowEnded chain (some (status, index)) (emit 0x555 0x50B 2 (status * 2 ^ 32 + index * 2 ^ 16 + chain) v)) :=
    windowEnded_evolves .refl Sub.rfl
  obtain ⟨hchains, htriggers, -⟩ := chains_of_evolves hE (by decide)
  have hnow : v.now = s.now := rfl
  rw [hend, htriggers, hchains]
  refine ⟨?_, hE.emitted_mono (by decide) (emitted_emit_of _ _ _ _ hnow), ?_⟩
  · simp [v, emit, countBy, onChain, onTrigger, State.onXpt, State.onCtl]
  · exact chainOf_onChain chain (fun _ => default) _

/-- The only request in progress ends badly: the chain is FAILED (R120). -/
theorem requestEnds_failed {wr index status : Nat} (hin : (s.xpt.chains.at chain).inProgress = [(wr, index)])
    (hrun : (s.xpt.chains.at chain).running = true) (hfailed : (s.xpt.chains.at chain).failed = none) (hstatus : status ≠ 0) :
    ((requestEnds chain wr status s).xpt.triggers.at chain).state = 4 ∧
      Emitted s (requestEnds chain wr status s) 0x555 2 0x50B (status * 2 ^ 32 + index * 2 ^ 16 + chain) ∧
      (requestEnds chain wr status s).xpt.chains.at chain = default := by
  let u := onChain chain (fun c => { c with inProgress := c.inProgress.filter (· != (wr, index)) }) s
  have hc : u.xpt.chains.at chain = { s.xpt.chains.at chain with inProgress := [] } := by
    rw [chainOf_onChain, hin]; simp
  have hend : requestEnds chain wr status s = failChain chain status index u := by
    have hfind : ([(wr, index)] : List (Nat × Nat)).find? (fun p => p.1 == wr) = some (wr, index) := by simp
    unfold requestEnds
    simp only [hin, hfind, hstatus, if_false]
    rfl
  rw [hend]
  exact failChain_failed (by rw [hc]) (by rw [hc]; exact hrun) (by rw [hc]; exact hfailed)

theorem nextRequest_some {op : Nat} (h : nextRequest s chain op = some (i, r)) :
    (s.xpt.chains.at chain).running = true ∧ (s.xpt.chains.at chain).failed = none := by
  unfold nextRequest at h
  dsimp only at h
  split at h
  next => exact absurd h (by simp)
  next =>
    split at h
    next => exact absurd h (by simp)
    next hno =>
      simp only [Bool.not_eq_true', not_or, Bool.not_eq_false, Option.not_isSome_iff_eq_none] at hno
      obtain ⟨hrun, hfailed, -⟩ := hno
      exact ⟨hrun, hfailed⟩

theorem issueReads_one {len : Nat} (hsome : len ≠ 0) (hone : len ≤ 0x100000) (qpn va rkey tag : Nat) (s : State) :
    ∃ n, issueReads (len / 0x100000 + 1) qpn va rkey len tag s =
      issueReads n qpn (va + 0x100000) rkey 0 tag (issueRead qpn va rkey len tag s) := by
  refine ⟨len / 0x100000, ?_⟩
  rw [issueReads, if_neg hsome, Nat.min_eq_left hone, Nat.sub_self]

/-- Settles O36: a request that starts is in progress and its message is posted, a request that ends ends its chain where none is
left, and the rest are steps of one table. -/
theorem triggersAndChainsComplete : Obligations.TriggersAndChainsComplete := by
  unfold Obligations.TriggersAndChainsComplete
  refine ⟨fun entry tag qpn head mbufLen mbuf posts s h => ?arm, fun entry s h => ?disarm, fun entry s h => ?running,
    fun entry s h => ?reclaim, fun e rest s hwaiting hroom hhead => ?start,
    fun chain wr p s hop hin hrun hnext hfailed => ?done, fun chain wr index status s hop hin hrun hfailed hstatus => ?fails,
    fun chain i r s h hrts => ?write, fun chain i r s h hrts => ?writeImm, fun chain i r s h hrts => ?send,
    fun chain i r s h hrts hlen hcredit hone => ?read, fun chain i r s h => ?wait, fun chain i r s h hother hin => ?notRts,
    fun chain wr index s hop hin hrun hnext hfailed => ?reached, fun chain i r s h => ?notify⟩
  case arm =>
    have hexec : exec (.triggerArm entry tag qpn head mbufLen mbuf posts) s = .next (onTrigger entry.val
        (fun _ => ⟨tag, qpn, 1, head, min mbufLen 65536, mbuf, s.now⟩)
        (s.onXpt fun x => { x with pool := posts.foldl (fun t p => t.put (p.1 % 2 ^ 20) p.2) x.pool })) := if_neg (not_not.2 h)
    exact ⟨_, hexec, by simp [onTrigger, State.onXpt], rfl, rfl⟩
  case disarm =>
    have hexec : exec (.triggerDisarm entry) s = .next (onTrigger entry.val (fun _ => default) s) := if_pos h
    exact ⟨_, hexec, by simp [onTrigger, State.onXpt], rfl⟩
  case running =>
    have hexec : exec (.triggerDisarm entry) s = .next s := if_neg (by rw [h]; decide)
    exact ⟨_, hexec, rfl⟩
  case reclaim =>
    have hexec : exec (.triggerReclaim entry) s = .next (onTrigger entry.val (fun _ => default) s) := if_pos h
    exact ⟨_, hexec, by simp [onTrigger, State.onXpt]⟩
  case start =>
    let u := onChain e (fun _ => { (default : Chain) with running := true, next := some (s.xpt.triggers.at e).head })
      (s.onXpt fun x => { x with waiting := rest })
    have hc : u.xpt.chains.at e = ⟨true, [], some (s.xpt.triggers.at e).head, 0, none⟩ := chainOf_onChain e _ _
    have hexec : exec .chainStart s = .next u := by
      change execChainStart s = _
      unfold execChainStart startChain
      simp only [hwaiting, hroom, if_true]
      have hhead' : ((s.onXpt fun x => { x with waiting := rest }).xpt.triggers.at e).head ≠ 0xFFFFFFFF := hhead
      rw [if_neg hhead']
      change Host.Outcome.next (endChain e u) = _
      unfold endChain
      simp [hc]
    exact ⟨_, hexec, rfl, hc⟩
  case done =>
    have hexec : exec (.workRequestCompletion chain wr 0) s = .next (requestEnds chain.val wr 0 s) := if_neg (by omega)
    exact ⟨_, hexec, requestEnds_done hin hrun hnext hfailed⟩
  case fails =>
    have hexec : exec (.workRequestCompletion chain wr status) s = .next (requestEnds chain.val wr status.val s) := if_neg (by omega)
    exact ⟨_, hexec, requestEnds_failed hin hrun hfailed fun h0 => hstatus (Fin.ext h0)⟩
  case write =>
    obtain ⟨hrun, hin⟩ := network_inProgress
      (run := fun i w s => sendWrite w.qpn w.remoteVa w.rkey (wrTag i) (hbmRead s w.localAddr w.length) none s) h hrts
      fun u => sendWrite_evolves .refl Sub.rfl
    refine ⟨_, rfl, hin, fun hnow => ?_⟩
    rw [hrun]
    exact packetSent_sendMessage (p := .write 0 r.remoteVa r.rkey (hbmRead s r.localAddr r.length) none) (by exact hnow) (.inl rfl)
  case writeImm =>
    obtain ⟨hrun, hin⟩ := network_inProgress
      (run := fun i w s => sendWrite w.qpn w.remoteVa w.rkey (wrTag i) (hbmRead s w.localAddr w.length) (some w.imm) s) h hrts
      fun u => sendWrite_evolves .refl Sub.rfl
    refine ⟨_, rfl, hin, fun hnow => ?_⟩
    rw [hrun]
    exact packetSent_sendMessage (p := .write 0 r.remoteVa r.rkey (hbmRead s r.localAddr r.length) (some r.imm)) (by exact hnow)
      (.inl rfl)
  case send =>
    obtain ⟨hrun, hin⟩ := network_inProgress
      (run := fun _ w s => sendSend w.qpn (hbmRead s w.localAddr w.length) (some w.imm) none s) h hrts
      fun u => sendSend_evolves .refl Sub.rfl
    refine ⟨_, rfl, hin, fun hnow => ?_⟩
    rw [hrun]
    exact packetSent_sendMessage (p := .send 0 (hbmRead s r.localAddr r.length) (some r.imm) none) (by exact hnow) (.inl rfl)
  case read =>
    obtain ⟨hrun, hin⟩ := network_inProgress
      (run := fun i w s => issueReads (w.length / 0x100000 + 1) w.qpn w.remoteVa w.rkey w.length (wrTag i) s) h hrts
      fun u => issueReads_evolves .refl Sub.rfl
    refine ⟨_, rfl, hin, fun hnow => ?_⟩
    rw [hrun]
    obtain ⟨n, hone'⟩ := issueReads_one hlen hone r.qpn r.remoteVa r.rkey (wrTag i) (requestStarted chain.val i r s)
    rw [hone']
    exact packetSent_mono (issueReads_evolves .refl Sub.rfl)
      (packetSent_sendMessage (p := .readRequest 0 r.remoteVa r.rkey r.length) (by exact hnow) (.inr hcredit))
  case wait =>
    have hexec : exec (.wrWaitUntilGts chain) s = .next (requestStarted chain.val i r s) :=
      congrArg Host.Outcome.next (startRequest_of_next h _)
    exact ⟨_, hexec, mem_inProgress_requestStarted chain.val i r s, rfl⟩
  case notRts =>
    obtain ⟨hrun, hfailed⟩ := nextRequest_some h
    have hexec : exec (.wrRdmaWrite chain) s = .next (requestEnds chain.val i 7 (requestStarted chain.val i r s)) :=
      congrArg Host.Outcome.next ((startRequest_of_next h _).trans (onNetwork_of_other (by exact hother) _))
    have hstarted : (requestStarted chain.val i r s).xpt.chains.at chain.val = { s.xpt.chains.at chain.val with
        inProgress := [(i, (s.xpt.chains.at chain.val).index)], index := (s.xpt.chains.at chain.val).index + 1
        next := ((requestStarted chain.val i r s).xpt.chains.at chain.val).next } := by
      rw [requestStarted, chainOf_onChain, hin]; rfl
    obtain ⟨hstate, htold, -⟩ := requestEnds_failed (s := requestStarted chain.val i r s) (chain := chain.val) (wr := i)
      (index := (s.xpt.chains.at chain.val).index) (status := 7) (by rw [hstarted]) (by rw [hstarted]; exact hrun)
      (by rw [hstarted]; exact hfailed) (by decide)
    exact ⟨_, hexec, hstate, htold⟩
  case reached =>
    have hexec : exec (.waitGtsReached chain wr) s = .next (requestEnds chain.val wr 0 s) := if_pos hop
    obtain ⟨hstate, htold, -⟩ := requestEnds_done hin hrun hnext hfailed
    exact ⟨_, hexec, hstate, htold⟩
  case notify =>
    have hexec : exec (.wrNotify chain) s = .next (requestEnds chain.val i 0
        ((requestStarted chain.val i r s).send (.notify chain.val r.imm))) := congrArg Host.Outcome.next (startRequest_of_next h _)
    have hE : Evolves _ ((requestStarted chain.val i r s).send (.notify chain.val r.imm)) (requestEnds chain.val i 0
        ((requestStarted chain.val i r s).send (.notify chain.val r.imm))) := requestEnds_evolves .refl Sub.rfl
    exact ⟨_, hexec, hE.sent (by simp [State.send])⟩

end Sys2Proof.Machine
end

section
/-! PROOFS. The feeds, the sensors, the fans and the control tick (R408, R422 to R426): what a fold over the channels leaves
of one channel, and the samples of a leg and of a feed at a tick. -/

namespace Sys2Proof.Machine

variable {s t u : State}

/-! A fold over distinct elements meets one of them once. -/

/-- What holds until the element `i` is met, what its step makes of it, and what the later steps keep. -/
theorem foldl_meets {σ ι : Type} {f : σ → ι → σ} {P Q : σ → Prop} {i : ι} (l : List ι) (hl : l.Nodup) (hi : i ∈ l) (b : σ)
    (hb : P b) (hbefore : ∀ u, ∀ j ∈ l, j ≠ i → P u → P (f u j)) (hmeet : ∀ u, P u → Q (f u i))
    (hafter : ∀ u, ∀ j ∈ l, j ≠ i → Q u → Q (f u j)) : Q (l.foldl f b) := by
  induction l generalizing b with
  | nil => simp at hi
  | cons a l ih =>
    obtain ⟨hal, hl⟩ := List.nodup_cons.mp hl
    by_cases ha : a = i
    · subst ha
      refine List.foldlRecOn (motive := Q) l f (hmeet b hb) fun u hu j hj => ?_
      exact hafter u j (List.mem_cons_of_mem _ hj) (fun h => hal (h ▸ hj)) hu
    · have hi : i ∈ l := (List.mem_cons.mp hi).resolve_left fun h => ha h.symm
      exact ih hl hi (f b a) (hbefore b a List.mem_cons_self ha hb)
        (fun u j hj => hbefore u j (List.mem_cons_of_mem _ hj)) fun u j hj => hafter u j (List.mem_cons_of_mem _ hj)

/-! Fans (R425). -/

/-- Setting a channel's duty leaves the fields of the other registers. -/
theorem fldI_setFan (g : Fld) (j c : Nat) (h : g.addr j ≠ F.PWR_FAN_STAT_DUTY.addr c) : (setFan s c).fldI g j = s.fldI g j :=
  (fldI_setFldI_other F.PWR_FAN_STAT_FORCED g c j _ h).trans (fldI_setFldI_other F.PWR_FAN_STAT_DUTY g c j _ h)

/-- It leaves the other fields of the fans' status. -/
theorem fldI_setFan_beside (g : Fld) (j c : Nat) (hg : g.lo ≤ g.hi) (hduty : g.hi < 16 ∨ 30 < g.lo) :
    (setFan s c).fldI g j = s.fldI g j :=
  (fldI_setFldI_disjoint F.PWR_FAN_STAT_FORCED g c j _ (by decide) (by decide) hg
    (hduty.imp (fun h => lt_trans h (by decide)) id)).trans
    (fldI_setFldI_disjoint F.PWR_FAN_STAT_DUTY g c j _ (by decide) (by decide) hg (hduty.imp id (lt_trans (by decide))))

theorem fldI_setFans_beside (g : Fld) (j : Nat) (hg : g.lo ≤ g.hi) (hduty : g.hi < 16 ∨ 30 < g.lo) :
    (setFans s).fldI g j = s.fldI g j :=
  foldl_keeps (P := fun u : State => u.fldI g j = s.fldI g j) (fun _ c h => (fldI_setFan_beside g j c hg hduty).trans h) _ _ rfl

theorem fldI_setFans (g : Fld) (j : Nat) (h : ∀ c < 12, g.addr j ≠ F.PWR_FAN_STAT_DUTY.addr c) :
    (setFans s).fldI g j = s.fldI g j :=
  List.foldlRecOn (motive := fun u : State => u.fldI g j = s.fldI g j) _ _ rfl fun _ hu c hc =>
    (fldI_setFan g j c (h c (List.mem_range.mp hc))).trans hu

/-- A failed fan forces the channels of its zone. -/
theorem zoneForced_of_fail {c : Nat} (hc : c < 12) (hfail : s.fldI F.PWR_FAN_STAT_FAIL c = 1) :
    zoneForced s (s.fldI F.PWR_FAN_CFG_ZONE c) = true := by
  simp only [zoneForced, Bool.or_eq_true, List.any_eq_true, List.mem_range]
  exact Or.inr ⟨c, hc, by simp [hfail]⟩

/-- The duty of a failed channel is full. -/
theorem duty_setFan_of_fail {c : Nat} (hc : c < 12) (hfail : s.fldI F.PWR_FAN_STAT_FAIL c = 1) :
    (setFan s c).fldI F.PWR_FAN_STAT_DUTY c = 255 := by
  have hforced := zoneForced_of_fail hc hfail
  refine (fldI_setFldI_disjoint F.PWR_FAN_STAT_FORCED F.PWR_FAN_STAT_DUTY c c _ (by decide) (by decide) (by decide)
    (by decide)).trans ?_
  rw [if_pos (Or.inr hforced)]
  exact fldI_setFldI_same F.PWR_FAN_STAT_DUTY c 255 (by decide) (by decide)

theorem duty_setFans_of_fail {c : Nat} (hc : c < 12) (hfail : s.fldI F.PWR_FAN_STAT_FAIL c = 1) :
    (setFans s).fldI F.PWR_FAN_STAT_DUTY c = 255 := by
  refine foldl_meets (P := fun u : State => u.fldI F.PWR_FAN_STAT_FAIL c = 1)
    (Q := fun u : State => u.fldI F.PWR_FAN_STAT_DUTY c = 255) (List.range 12) List.nodup_range
    (List.mem_range.mpr hc) s hfail (fun u j _ _ hu => ?_) (fun u hu => duty_setFan_of_fail hc hu) fun u j hj hne hu => ?_
  · exact (fldI_setFan_beside F.PWR_FAN_STAT_FAIL c j (by decide) (by decide)).trans hu
  · refine (fldI_setFan F.PWR_FAN_STAT_DUTY c j ?_).trans hu
    have := List.mem_range.mp hj
    simp only [Fld.addr, F.PWR_FAN_STAT_DUTY]; omega

theorem fanFail_fails (channel : Fin 12) (rpm : Nat) (hen : s.fldI F.PWR_FAN_CFG_EN channel.val = 1)
    (hduty : 51 ≤ s.fldI F.PWR_FAN_STAT_DUTY channel.val) (hfail : s.fldI F.PWR_FAN_STAT_FAIL channel.val = 0) :
    exec (.fanFail channel rpm) s = .next (setFans (emit 0x5C1 0xC09 3 (min rpm 65535 * 2 ^ 16 + channel.val)
      ((s.setFldI F.PWR_FAN_STAT_RPM channel.val (min rpm 65535)).setFldI F.PWR_FAN_STAT_FAIL channel.val 1))) := by
  change execFanFail channel rpm s = _
  unfold execFanFail
  refine if_neg ?_
  have hen' := (fldI_setFldI_other (s := s) F.PWR_FAN_STAT_RPM F.PWR_FAN_CFG_EN channel.val channel.val (min rpm 65535)
    (by simp only [Fld.addr, F.PWR_FAN_STAT_RPM, F.PWR_FAN_CFG_EN]; omega)).trans hen
  have hduty' := fldI_setFldI_disjoint (s := s) F.PWR_FAN_STAT_RPM F.PWR_FAN_STAT_DUTY channel.val channel.val (min rpm 65535)
    (by decide) (by decide) (by decide) (by decide)
  have hfail' := (fldI_setFldI_disjoint (s := s) F.PWR_FAN_STAT_RPM F.PWR_FAN_STAT_FAIL channel.val channel.val
    (min rpm 65535) (by decide) (by decide) (by decide) (by decide)).trans hfail
  simp only [hen', hduty', hfail']
  omega

/-! Feeds (R422). -/

/-- A feed whose FET a fault has turned off. -/
def feedFaulted (f cause : Nat) (s : State) : State :=
  (((s.setFldI F.PWR_FEED_STAT_FET_ON f 0).setFldI F.PWR_FEED_STAT_CAUSE f cause).onPwr fun p =>
    { p with feeds := p.feeds.upd f fun x => { x with faulted := true } }).bumpI F.PWR_FEED_STAT_FAULTS f 1

theorem feedFault_turnsOff (feed : Fin 4) (cause : Fin 5) (mv : Nat) (hon : feedOn s feed.val = true)
    (hfet : s.fldI F.PWR_FEED_STAT_FET_ON feed.val = 1) :
    exec (.feedFault feed cause mv) s = .next (emit (0x340 + feed.val) 0xC07 3 (min mv 65535 * 2 ^ 20 + cause.val)
      (feedFaulted feed.val cause.val s)) := by
  change execFeedFault feed cause mv s = _
  unfold execFeedFault
  exact if_neg (by simp [hon, hfet])

theorem feedOk_turnsOn (feed : Fin 4) (hon : feedOn s feed.val = true) (hfaulted : (s.pwr.feeds.at feed.val).faulted = true) :
    exec (.feedOk feed) s = .next (emit (0x340 + feed.val) 0xC08 1 0
      ((s.onPwr fun p => { p with feeds := p.feeds.upd feed.val fun x => { x with faulted := false } }).setFldI
        F.PWR_FEED_STAT_FET_ON feed.val 1)) := by
  change execFeedOk feed s = _
  unfold execFeedOk
  exact if_neg (by simp [hon, hfaulted])

/-- What a fault makes of the FET and its cause: the count of faults stands in other bits. -/
theorem fldI_feedFault (g : Fld) (f n : Nat) (hg : g.lo ≤ g.hi) (hfaults : 15 < g.lo) (u : State) :
    (u.bumpI F.PWR_FEED_STAT_FAULTS f n).fldI g f = u.fldI g f :=
  fldI_setFldI_disjoint F.PWR_FEED_STAT_FAULTS g f f _ (by decide) (by decide) hg (Or.inr hfaults)

theorem fldI_onPwr (h : Pwr → Pwr) (g : Fld) (j : Nat) : (s.onPwr h).fldI g j = s.fldI g j := rfl

theorem fetOn_feedFaulted (f cause : Nat) : (feedFaulted f cause s).fldI F.PWR_FEED_STAT_FET_ON f = 0 := by
  unfold feedFaulted
  rw [fldI_feedFault _ _ _ (by decide) (by decide), fldI_onPwr,
    fldI_setFldI_disjoint F.PWR_FEED_STAT_CAUSE F.PWR_FEED_STAT_FET_ON _ _ _ (by decide) (by decide) (by decide) (by decide)]
  exact fldI_setFldI_same F.PWR_FEED_STAT_FET_ON f 0 (by decide) (by decide)

theorem fldI_cause_feedFaulted (f cause : Nat) : (feedFaulted f cause s).fldI F.PWR_FEED_STAT_CAUSE f =
    ((s.setFldI F.PWR_FEED_STAT_FET_ON f 0).setFldI F.PWR_FEED_STAT_CAUSE f cause).fldI F.PWR_FEED_STAT_CAUSE f := by
  unfold feedFaulted
  rw [fldI_feedFault _ _ _ (by decide) (by decide), fldI_onPwr]

theorem cause_set (f : Nat) {cause : Nat} (hcause : cause < 8) :
    (s.setFldI F.PWR_FEED_STAT_CAUSE f cause).fldI F.PWR_FEED_STAT_CAUSE f = cause := by
  rw [fldI_setFldI_same F.PWR_FEED_STAT_CAUSE f cause (by decide) (by decide)]
  exact Nat.mod_eq_of_lt hcause

theorem cause_feedFaulted (f : Nat) {cause : Nat} (hcause : cause < 8) :
    (feedFaulted f cause s).fldI F.PWR_FEED_STAT_CAUSE f = cause := by
  rw [fldI_cause_feedFaulted, cause_set f hcause]

theorem faulted_onPwr (f : Nat) (b : Bool) :
    ((s.onPwr fun p => { p with feeds := p.feeds.upd f fun x => { x with faulted := b } }).pwr.feeds.at f).faulted = b := by
  simp [State.onPwr]

theorem faulted_feedFaulted (f cause : Nat) : ((feedFaulted f cause s).pwr.feeds.at f).faulted = true := by
  unfold feedFaulted
  rw [State.bumpI_pwr, faulted_onPwr]

theorem now_feedFaulted (f cause : Nat) : (feedFaulted f cause s).now = s.now := by
  unfold feedFaulted
  rw [State.now_bumpI, State.now_onPwr, State.now_setFldI, State.now_setFldI]

/-! Sensors (R424). -/

/-- What a poll of sensor `i` begins with: its enable as the poll took it, its failed reads and the time. -/
def SensorStands (s : State) (i : Nat) (u : State) : Prop :=
  sensEn u i = true ∧ u.pwr.sensFails.at i = s.pwr.sensFails.at i ∧ u.now = s.now

/-- The words that a poll takes: the one named is that of the registers. -/
theorem rawWord_foldl_setRawWord (regs : Tab Word) (addrs : List Nat) (t : Tab Word) (a : Nat) (ha : a ∈ addrs) :
    rawWord (addrs.foldl (fun t b => setRawWord t b (rawWord regs b)) t) a = rawWord regs a := by
  induction addrs generalizing t with
  | nil => simp at ha
  | cons b l ih =>
    by_cases hl : a ∈ l
    · exact ih _ hl
    · have hab : a = b := (List.mem_cons.mp ha).resolve_right hl
      subst hab
      refine List.foldlRecOn (motive := fun t => rawWord t a = rawWord regs a) l _ (by simp) fun t ht b hb => ?_
      rw [rawWord_setRawWord, if_neg (fun h => hl (by simpa [h] using hb))]
      exact ht

theorem sensEn_takePolled {i : Nat} (hi : i < 32) (hen : s.fldI F.PWR_SENS_CFG_EN i = 1) : sensEn (takePolled s) i = true := by
  have hword := rawWord_foldl_setRawWord s.regs (((List.range 24).map fun i => F.PWR_FAN_CURVE0_T0.addr 0 + 4 * i) ++
    (List.range 32).map fun i => F.PWR_SENS_CFG_EN.addr i) s.pwr.polled (F.PWR_SENS_CFG_EN.addr i)
    (List.mem_append_right _ (List.mem_map_of_mem (List.mem_range.mpr hi)))
  have : polledFld (takePolled s) F.PWR_SENS_CFG_EN i = s.fldI F.PWR_SENS_CFG_EN i := by
    simp only [polledFld, fldGet, State.fldI, takePolled, State.onPwr]
    rw [hword]
  simp [sensEn, this, hen]

theorem askSensor_pwr (j : Nat) : (askSensor s j).pwr = s.pwr ∧ (askSensor s j).now = s.now := by
  unfold askSensor
  split <;> exact ⟨rfl, rfl⟩

theorem sensorStands_asked {i : Nat} (hi : i < 32) (hen : s.fldI F.PWR_SENS_CFG_EN i = 1) :
    SensorStands s i ((List.range 32).foldl askSensor (takePolled s)) := by
  obtain ⟨hpwr, hnow⟩ := foldl_keeps (P := fun u : State => u.pwr = (takePolled s).pwr ∧ u.now = s.now)
    (fun u j hu => ⟨(askSensor_pwr j).1.trans hu.1, (askSensor_pwr j).2.trans hu.2⟩) (List.range 32) (takePolled s) ⟨rfl, rfl⟩
  have hsens := sensEn_takePolled hi hen
  refine ⟨?_, by rw [hpwr]; rfl, hnow⟩
  simpa only [sensEn, polledFld, hpwr] using hsens

/-- What a poll of sensor `j` leaves of the block's own state: the count of its failed reads may change. -/
theorem pollSensor_pwr (j : Nat) (r : Option Int) :
    (pollSensor j r u).pwr = u.pwr ∨ ∃ n, (pollSensor j r u).pwr = { u.pwr with sensFails := u.pwr.sensFails.put j n } := by
  unfold pollSensor
  split
  · exact .inl rfl
  · split
    · exact .inr ⟨0, rfl⟩
    · refine .inr ⟨u.pwr.sensFails.at j + 1, ?_⟩
      dsimp only
      split <;> rfl

theorem pollSensor_polled (j : Nat) (r : Option Int) : (pollSensor j r u).pwr.polled = u.pwr.polled := by
  obtain h | ⟨n, h⟩ := pollSensor_pwr (u := u) j r <;> rw [h]

theorem pollSensor_now (j : Nat) (r : Option Int) : (pollSensor j r u).now = u.now :=
  (pollSensor_evolves .refl Sub.rfl : Evolves _ u (pollSensor j r u)).now_eq (by decide)

theorem sensFails_pollSensor {i j : Nat} (h : j ≠ i) (r : Option Int) :
    (pollSensor j r u).pwr.sensFails.at i = u.pwr.sensFails.at i := by
  obtain h' | ⟨n, h'⟩ := pollSensor_pwr (u := u) j r <;> rw [h']
  simp [Tab.at_put, Ne.symm h]

theorem SensorStands.poll {i j : Nat} (h : SensorStands s i u) (hj : j ≠ i) (r : Option Int) :
    SensorStands s i (pollSensor j r u) := by
  obtain ⟨hen, hfails, hnow⟩ := h
  refine ⟨?_, (sensFails_pollSensor hj r).trans hfails, (pollSensor_now j r).trans hnow⟩
  simpa only [sensEn, polledFld, pollSensor_polled] using hen

/-- The poll of one sensor leaves the fields of the other sensors' status. -/
theorem fldI_pollSensor (g : Fld) (i j : Nat) (h : g.addr i ≠ F.PWR_SENS_STAT_VALID.addr j) (r : Option Int) :
    (pollSensor j r u).fldI g i = u.fldI g i := by
  unfold pollSensor
  split
  · rfl
  · split
    · exact (fldI_setFldI_other F.PWR_SENS_STAT_TEMP g j i _ h).trans
        ((fldI_setFldI_other F.PWR_SENS_STAT_LOST g j i _ h).trans (fldI_setFldI_other F.PWR_SENS_STAT_VALID g j i _ h))
    · dsimp only
      split
      · exact (fldI_emit 0x5C2 0xC0A 2 j g i _).trans (fldI_setFldI_other F.PWR_SENS_STAT_LOST g j i _ h)
      · rfl

/-- What a good reading of sensor `i` leaves. -/
def SensorRead (i : Nat) (x : Int) (u : State) : Prop :=
  u.fldI F.PWR_SENS_STAT_TEMP i = (BitVec.ofInt 16 x).toNat ∧ u.fldI F.PWR_SENS_STAT_VALID i = 1 ∧
    u.fldI F.PWR_SENS_STAT_LOST i = 0 ∧ u.pwr.sensFails.at i = 0

/-- What the third failed read in a row of sensor `i` leaves. -/
def SensorLost (s : State) (i : Nat) (u : State) : Prop :=
  u.fldI F.PWR_SENS_STAT_LOST i = 1 ∧ Emitted s u 0x5C2 2 0xC0A i

theorem sensorRead_pollSensor {i : Nat} (x : Int) (h : SensorStands s i u) : SensorRead i x (pollSensor i (some x) u) := by
  unfold pollSensor
  rw [if_neg (by simp [h.1])]
  refine ⟨(fldI_setFldI_same F.PWR_SENS_STAT_TEMP i _ (by decide) (by decide)).trans (Nat.mod_eq_of_lt (BitVec.isLt _)), ?_, ?_, ?_⟩
  · exact (fldI_setFldI_disjoint F.PWR_SENS_STAT_TEMP F.PWR_SENS_STAT_VALID i i _ (by decide) (by decide) (by decide)
      (by decide)).trans ((fldI_setFldI_disjoint F.PWR_SENS_STAT_LOST F.PWR_SENS_STAT_VALID i i _ (by decide) (by decide)
      (by decide) (by decide)).trans (fldI_setFldI_same F.PWR_SENS_STAT_VALID i 1 (by decide) (by decide)))
  · exact (fldI_setFldI_disjoint F.PWR_SENS_STAT_TEMP F.PWR_SENS_STAT_LOST i i _ (by decide) (by decide) (by decide)
      (by decide)).trans (fldI_setFldI_same F.PWR_SENS_STAT_LOST i 0 (by decide) (by decide))
  · simp [State.onPwr]

theorem sensorLost_pollSensor {i : Nat} (hfails : s.pwr.sensFails.at i = 2) (h : SensorStands s i u) :
    SensorLost s i (pollSensor i none u) := by
  obtain ⟨hen, hf, hnow⟩ := h
  unfold pollSensor
  rw [if_neg (by simp [hen])]
  simp only [hf, hfails, if_true, Nat.reduceAdd]
  exact ⟨(fldI_emit 0x5C2 0xC0A 2 i _ i _).trans (fldI_setFldI_same F.PWR_SENS_STAT_LOST i 1 (by decide) (by decide)),
    emitted_emit_of 0x5C2 0xC0A 2 i ((State.now_setFldI ..).trans hnow)⟩

theorem SensorRead.poll {i j : Nat} {x : Int} (h : SensorRead i x u) (hi : i < 32) (hj : j < 32) (hne : j ≠ i) (r : Option Int) :
    SensorRead i x (pollSensor j r u) := by
  have haddr : F.PWR_SENS_STAT_VALID.addr i ≠ F.PWR_SENS_STAT_VALID.addr j := by
    simp only [Fld.addr, F.PWR_SENS_STAT_VALID]; omega
  obtain ⟨ht, hv, hl, hf⟩ := h
  exact ⟨(fldI_pollSensor F.PWR_SENS_STAT_TEMP i j haddr r).trans ht,
    (fldI_pollSensor F.PWR_SENS_STAT_VALID i j haddr r).trans hv,
    (fldI_pollSensor F.PWR_SENS_STAT_LOST i j haddr r).trans hl, (sensFails_pollSensor hne r).trans hf⟩

theorem SensorLost.poll {i j : Nat} (h : SensorLost s i u) (hi : i < 32) (hj : j < 32) (hne : j ≠ i) (r : Option Int) :
    SensorLost s i (pollSensor j r u) := by
  have haddr : F.PWR_SENS_STAT_LOST.addr i ≠ F.PWR_SENS_STAT_VALID.addr j := by
    simp only [Fld.addr, F.PWR_SENS_STAT_VALID, F.PWR_SENS_STAT_LOST]; omega
  refine ⟨(fldI_pollSensor F.PWR_SENS_STAT_LOST i j haddr r).trans h.1, ?_⟩
  exact (pollSensor_evolves .refl Sub.rfl : Evolves _ u (pollSensor j r u)).emitted_mono (by decide) h.2

/-- Every sensor's poll, in order. -/
def pollSensors (readings : List (Option Int)) (s : State) : State :=
  (List.range 32).foldl (fun s i => match readings[i]? with | some r => pollSensor i r s | none => s)
    ((List.range 32).foldl askSensor (takePolled s))

theorem exec_sensorPoll (readings : List (Option Int)) :
    exec (.sensorPoll readings) s = .next (setFans (dieThresholds (pollSensors readings s))) := rfl

/-- What the polls before and after sensor `i` keep, and its own poll makes. -/
theorem pollSensors_meets {readings : List (Option Int)} {i : Nat} {r : Option Int} {Q : State → Prop} (hi : i < 32)
    (hen : s.fldI F.PWR_SENS_CFG_EN i = 1) (hr : readings[i]? = some r)
    (hmeet : ∀ u, SensorStands s i u → Q (pollSensor i r u))
    (hafter : ∀ u r, ∀ j < 32, j ≠ i → Q u → Q (pollSensor j r u)) : Q (pollSensors readings s) := by
  refine foldl_meets (P := SensorStands s i) (List.range 32) List.nodup_range (List.mem_range.mpr hi) _
    (sensorStands_asked hi hen) (fun u j _ hj hu => ?_) (fun u hu => ?_) fun u j hj hne hu => ?_
  · split
    · exact hu.poll hj _
    · exact hu
  · simp only [hr]; exact hmeet u hu
  · split
    · exact hafter u _ j (List.mem_range.mp hj) hne hu
    · exact hu

theorem setFan_pwr (c : Nat) : (setFan s c).pwr = s.pwr :=
  (State.setFldI_pwr ..).trans (State.setFldI_pwr ..)

theorem setFans_pwr : (setFans s).pwr = s.pwr :=
  foldl_keeps (P := fun u : State => u.pwr = s.pwr) (fun _ c h => (setFan_pwr c).trans h) _ _ rfl

theorem setFan_ctl (c : Nat) : (setFan s c).ctl = s.ctl :=
  (State.setFldI_ctl ..).trans (State.setFldI_ctl ..)

theorem setFans_ctl : (setFans s).ctl = s.ctl :=
  foldl_keeps (P := fun u : State => u.ctl = s.ctl) (fun _ c h => (setFan_ctl c).trans h) _ _ rfl

theorem dieThreshold_leaves (said : Bool) (limit event sev : Nat) :
    (dieThreshold said limit event sev s).1.regs = s.regs ∧ (dieThreshold said limit event sev s).1.pwr = s.pwr := by
  unfold dieThreshold
  dsimp only
  split
  · dsimp only
    split <;> exact ⟨rfl, rfl⟩
  · exact ⟨rfl, rfl⟩

/-- The thresholds of the die's temperature leave registers and counts. -/
theorem dieThresholds_leaves : (dieThresholds s).regs = s.regs ∧ (dieThresholds s).pwr.sensFails = s.pwr.sensFails := by
  unfold dieThresholds
  split
  · exact ⟨rfl, rfl⟩
  · have hw := dieThreshold_leaves (s := s) s.pwr.warned 100 0xC0B 2
    have hc := dieThreshold_leaves (s := (dieThreshold s.pwr.warned 100 0xC0B 2 s).1)
      (dieThreshold s.pwr.warned 100 0xC0B 2 s).1.pwr.critical 105 0xC0C 4
    exact ⟨hc.1.trans hw.1, (congrArg Pwr.sensFails hc.2).trans (congrArg Pwr.sensFails hw.2)⟩

theorem fldI_setFans_dieThresholds (g : Fld) (i : Nat) (h : ∀ c < 12, g.addr i ≠ F.PWR_FAN_STAT_DUTY.addr c) (u : State) :
    (setFans (dieThresholds u)).fldI g i = u.fldI g i :=
  (fldI_setFans g i h).trans (congrArg (fldGet · g i) dieThresholds_leaves.1)

theorem sensFails_setFans_dieThresholds (i : Nat) (u : State) :
    (setFans (dieThresholds u)).pwr.sensFails.at i = u.pwr.sensFails.at i := by
  rw [setFans_pwr, dieThresholds_leaves.2]

theorem emitted_setFans_dieThresholds {src sev ev data : Nat} (h : Emitted s u src sev ev data) :
    Emitted s (setFans (dieThresholds u)) src sev ev data :=
  (setFans_evolves .refl Sub.rfl : Evolves _ (dieThresholds u) (setFans (dieThresholds u))).emitted_mono (by decide)
    ((dieThresholds_evolves .refl Sub.rfl : Evolves _ u (dieThresholds u)).emitted_mono (by decide) h)

theorem sensStat_ne_fanStat {i : Nat} (hi : i < 32) (c : Nat) (hc : c < 12) :
    F.PWR_SENS_STAT_VALID.addr i ≠ F.PWR_FAN_STAT_DUTY.addr c := by
  simp only [Fld.addr, F.PWR_SENS_STAT_VALID, F.PWR_FAN_STAT_DUTY]; omega

/-! The control tick (R408). -/

theorem releaseDesc_punt (d : Desc) : (releaseDesc d s).net.punt = s.net.punt := by
  have h : Evolves _ s (releaseDesc d s) := releaseDesc_evolves .refl Sub.rfl
  have hpunts := h.same .punts (by decide)
  simp only [Part.Same, Prod.mk.injEq] at hpunts
  exact hpunts.1

/-- Firmware takes every frame. -/
theorem takePunted_punt : (takePunted s).net.punt = [] :=
  foldl_keeps (P := fun u : State => u.net.punt = []) (f := fun s (x : Nat × Punted) => releaseDesc x.2.desc
    (s.send (.punted x.2.desc.lport x.1 x.2.index x.2.desc.gts x.2.desc.frame))) (fun _ _ h => (releaseDesc_punt _).trans h) _ _ rfl

/-- The samples of a leg: the voltages where the control loop has read them, and the current. -/
def legSampled (x : LegSample) (s : State) : State :=
  (match x.sense with
    | some (v, g) => (onLeg x.leg.val (fun l => { l with vout := v, gsns := g }) s).setFldI F.PWR_LEG_MEAS_VOUT_MV x.leg.val (min v 65535)
    | none => s).setFldI F.PWR_LEG_MEAS_I_MA x.leg.val (min x.i 65535)

/-- LIMITING, the fault timer and the qualification count. -/
def legTimed (x : LegSample) (s : State) : State :=
  let n := x.leg.val
  let limiting := decide (s.fldI F.PWR_LEG_CFG_ILIM n * 50 ≤ x.i)
  let s := s.setFldI F.PWR_LEG_STAT_LIMITING n (b2n limiting)
  let s := onLeg n (fun l => { l with timer := if limiting then l.timer + 1 else l.timer - 1 }) s
  let s := s.setFldI F.PWR_LEG_STAT_TIMER_RUN n (b2n ((legOf s n).timer != 0))
  onLeg n (fun l => { l with qual := if inWindow s n && l.timer == 0 then l.qual + 1 else 0 }) s

/-- The thermal model of a leg. -/
def legModelled (x : LegSample) (s : State) : State :=
  let n := x.leg.val
  let set := s.fldI F.PWR_LEG_CFG_MODEL n
  let vin := if feedOn s (legFeed s n) then s.fldI F.PWR_FEED_MEAS0_V_MV (legFeed s n) else 0
  let p : Int := if (legOf s n).gateOn then ((vin : Int) - ((legOf s n).vout : Int)) * (x.i : Int) else 0
  let s := onLeg n (fun l => { l with
    z0 := pole l.z0 p (s.fldI F.PWR_MODEL0_R_MCW set) (s.fldI F.PWR_MODEL0_TAU_US set)
    z1 := pole l.z1 p (s.fldI F.PWR_MODEL1_R_MCW set) (s.fldI F.PWR_MODEL1_TAU_US set)
    z2 := pole l.z2 p (s.fldI F.PWR_MODEL2_R_MCW set) (s.fldI F.PWR_MODEL2_TAU_US set) }) s
  let tj := ambient s set + (legOf s n).z0 + (legOf s n).z1 + (legOf s n).z2
  s.setFldI F.PWR_LEG_STAT_TJ_C n (min 255 (tj / 256).toNat)

/-- A leg after the samples, the timer and the model of a tick. -/
def legTicked (x : LegSample) (s : State) : State := legModelled x (legTimed x (legSampled x s))

theorem tickLeg_eq (x : LegSample) : tickLeg s x =
    if feedOn (legTicked x s) (legFeed (legTicked x s) x.leg.val) then legTicked x s
    else legToOff x.leg.val 3 (legTicked x s) := rfl

theorem legOf_onLeg (n : Nat) (f : Leg → Leg) : legOf (onLeg n f s) n = f (legOf s n) := by
  simp [legOf, onLeg, State.onPwr]

theorem legOf_setFldI (f : Fld) (i v n : Nat) : legOf (s.setFldI f i v) n = legOf s n :=
  congrArg (fun p : Pwr => p.legs.at n) (State.setFldI_pwr ..)

theorem fldI_onLeg (n : Nat) (f : Leg → Leg) (g : Fld) (j : Nat) : (onLeg n f s).fldI g j = s.fldI g j := rfl

theorem fldI_legSampled (x : LegSample) (g : Fld) (j : Nat) (h : g.addr j ≠ F.PWR_LEG_MEAS_I_MA.addr x.leg.val) :
    (legSampled x s).fldI g j = s.fldI g j := by
  unfold legSampled
  refine (fldI_setFldI_other F.PWR_LEG_MEAS_I_MA g x.leg.val j _ h).trans ?_
  split
  · exact (fldI_setFldI_other F.PWR_LEG_MEAS_VOUT_MV g x.leg.val j _ h).trans (fldI_onLeg ..)
  · rfl

theorem fldI_legTimed (x : LegSample) (g : Fld) (j : Nat) (h : g.addr j ≠ F.PWR_LEG_STAT_TJ_C.addr x.leg.val) :
    (legTimed x s).fldI g j = s.fldI g j :=
  (fldI_onLeg ..).trans ((fldI_setFldI_other F.PWR_LEG_STAT_TIMER_RUN g x.leg.val j _ h).trans
    ((fldI_onLeg ..).trans (fldI_setFldI_other F.PWR_LEG_STAT_LIMITING g x.leg.val j _ h)))

theorem fldI_legModelled (x : LegSample) (g : Fld) (j : Nat) (h : g.addr j ≠ F.PWR_LEG_STAT_TJ_C.addr x.leg.val) :
    (legModelled x s).fldI g j = s.fldI g j :=
  (fldI_setFldI_other F.PWR_LEG_STAT_TJ_C g x.leg.val j _ h).trans (fldI_onLeg ..)

theorem fldI_legTicked (x : LegSample) (g : Fld) (j : Nat) (hstat : g.addr j ≠ F.PWR_LEG_STAT_TJ_C.addr x.leg.val)
    (hmeas : g.addr j ≠ F.PWR_LEG_MEAS_I_MA.addr x.leg.val) : (legTicked x s).fldI g j = s.fldI g j :=
  (fldI_legModelled x g j hstat).trans ((fldI_legTimed x g j hstat).trans (fldI_legSampled x g j hmeas))

theorem legCfg_legSampled (x : LegSample) :
    (legSampled x s).fldI F.PWR_LEG_CFG_ILIM x.leg.val = s.fldI F.PWR_LEG_CFG_ILIM x.leg.val := by
  refine fldI_legSampled x _ _ ?_
  simp only [Fld.addr, F.PWR_LEG_CFG_ILIM, F.PWR_LEG_MEAS_I_MA]; omega

/-- A tick leaves a leg on its feed, and the feed enabled. -/
theorem feedOn_legTicked (x : LegSample) (h : feedOn s (legFeed s x.leg.val) = true) :
    feedOn (legTicked x s) (legFeed (legTicked x s) x.leg.val) = true := by
  have hfeed : legFeed (legTicked x s) x.leg.val = legFeed s x.leg.val := by
    refine fldI_legTicked x F.PWR_LEG_CFG_FEED _ ?_ ?_ <;>
      simp only [Fld.addr, F.PWR_LEG_CFG_FEED, F.PWR_LEG_STAT_TJ_C, F.PWR_LEG_MEAS_I_MA] <;> omega
  have hlt : legFeed s x.leg.val < 4 := Nat.mod_lt _ (by decide)
  have hen : (legTicked x s).fldI F.PWR_FEED_CFG_EN (legFeed s x.leg.val) = s.fldI F.PWR_FEED_CFG_EN (legFeed s x.leg.val) := by
    refine fldI_legTicked x F.PWR_FEED_CFG_EN _ ?_ ?_ <;>
      simp only [Fld.addr, F.PWR_FEED_CFG_EN, F.PWR_LEG_STAT_TJ_C, F.PWR_LEG_MEAS_I_MA] <;> omega
  rw [hfeed, feedOn, hen]
  exact h

theorem tickLeg_of_feedOn (x : LegSample) (h : feedOn s (legFeed s x.leg.val) = true) : tickLeg s x = legTicked x s :=
  (tickLeg_eq x).trans (if_pos (feedOn_legTicked x h))

theorem current_legTicked (x : LegSample) : (legTicked x s).fldI F.PWR_LEG_MEAS_I_MA x.leg.val = min x.i 65535 := by
  have haddr : F.PWR_LEG_MEAS_I_MA.addr x.leg.val ≠ F.PWR_LEG_STAT_TJ_C.addr x.leg.val := by
    simp only [Fld.addr, F.PWR_LEG_MEAS_I_MA, F.PWR_LEG_STAT_TJ_C]; omega
  refine (fldI_legModelled x _ _ haddr).trans ((fldI_legTimed x _ _ haddr).trans ?_)
  refine (fldI_setFldI_same F.PWR_LEG_MEAS_I_MA x.leg.val (min x.i 65535) (by decide) (by decide)).trans ?_
  exact Nat.mod_eq_of_lt (lt_of_le_of_lt (min_le_right _ _) (by decide))

/-- The timer and the voltages of a leg are those its model finds. -/
theorem leg_legModelled (x : LegSample) :
    (legOf (legModelled x s) x.leg.val).timer = (legOf s x.leg.val).timer ∧
      (legOf (legModelled x s) x.leg.val).vout = (legOf s x.leg.val).vout ∧
      (legOf (legModelled x s) x.leg.val).gsns = (legOf s x.leg.val).gsns := by
  unfold legModelled
  simp only [legOf_setFldI, legOf_onLeg, and_self]

theorem leg_legTimed (x : LegSample) :
    (legOf (legTimed x s) x.leg.val).timer =
        (if s.fldI F.PWR_LEG_CFG_ILIM x.leg.val * 50 ≤ x.i then (legOf s x.leg.val).timer + 1 else (legOf s x.leg.val).timer - 1) ∧
      (legOf (legTimed x s) x.leg.val).vout = (legOf s x.leg.val).vout ∧
      (legOf (legTimed x s) x.leg.val).gsns = (legOf s x.leg.val).gsns := by
  unfold legTimed
  simp only [legOf_setFldI, legOf_onLeg, decide_eq_true_eq, and_self]

theorem leg_legSampled (x : LegSample) :
    (legOf (legSampled x s) x.leg.val).timer = (legOf s x.leg.val).timer ∧
      ∀ v, x.sense = some v → (legOf (legSampled x s) x.leg.val).vout = v.1 ∧ (legOf (legSampled x s) x.leg.val).gsns = v.2 := by
  unfold legSampled
  cases hx : x.sense with
  | none => exact ⟨congrArg Leg.timer (legOf_setFldI ..), fun v hv => nomatch hv⟩
  | some v => simp [legOf_setFldI, legOf_onLeg]

/-- What a tick finds of a leg. -/
theorem leg_legTicked (x : LegSample) :
    (legOf (legTicked x s) x.leg.val).timer =
        (if s.fldI F.PWR_LEG_CFG_ILIM x.leg.val * 50 ≤ x.i then (legOf s x.leg.val).timer + 1 else (legOf s x.leg.val).timer - 1) ∧
      ∀ v, x.sense = some v → (legOf (legTicked x s) x.leg.val).vout = v.1 ∧ (legOf (legTicked x s) x.leg.val).gsns = v.2 := by
  obtain ⟨ht, hv⟩ := leg_legSampled (s := s) x
  obtain ⟨ht', hv', hg'⟩ := leg_legTimed (s := legSampled x s) x
  obtain ⟨ht'', hv'', hg''⟩ := leg_legModelled (s := legTimed x (legSampled x s)) x
  refine ⟨ht''.trans (ht'.trans (by rw [legCfg_legSampled, ht])), fun v hx => ?_⟩
  exact ⟨hv''.trans (hv'.trans (hv v hx).1), hg''.trans (hg'.trans (hv v hx).2)⟩

theorem exec_controlTick (legs : List LegSample) (feeds : List FeedSample) (tach : List (Fin 12 × Nat)) :
    exec (.controlTick legs feeds tach) s = .next (takePunted
      (tach.foldl (fun s (x : Fin 12 × Nat) => s.setFldI F.PWR_FAN_STAT_RPM x.1.val (min x.2 65535))
        (legs.foldl tickLeg (feeds.foldl tickFeed s)))) := rfl

/-- A tick of one leg: firmware then takes the frames, which leave slot power alone. -/
theorem exec_controlTick_leg (x : LegSample) (h : feedOn s (legFeed s x.leg.val) = true) :
    exec (.controlTick [x] [] []) s = .next (takePunted (legTicked x s)) :=
  by rw [exec_controlTick, List.foldl_nil, List.foldl_nil, List.foldl_cons, List.foldl_nil, tickLeg_of_feedOn x h]

theorem legOf_takePunted (n : Nat) : legOf (takePunted s) n = legOf s n := by
  have h : Evolves _ s (takePunted s) := takePunted_evolves .refl Sub.rfl
  have hlegs := h.same .legs (by decide)
  simp only [Part.Same] at hlegs
  simp only [legOf, hlegs]

theorem fldI_takePunted (f : Fld) (i : Nat) (hf : regPart f.base = .regPwr) : (takePunted s).fldI f i = s.fldI f i :=
  (takePunted_evolves .refl Sub.rfl : Evolves _ s (takePunted s)).fldI_eq f i (by rw [hf]; decide)

/-- An enabled feed at a tick: what it draws is added to its energy, and its readings are stored. -/
def feedTicked (x : FeedSample) (s : State) : State :=
  let f := x.feed.val
  let i := x.i.toNat
  let add := x.v * i * 5 * 65536 / 1000000
  let s := s.onPwr fun p => { p with feeds := p.feeds.upd f fun y => { y with energy := min (2 ^ 80 - 1) (y.energy + add) } }
  let uj := (s.pwr.feeds.at f).energy / 65536
  let s := (s.setFldI F.PWR_FEED_ENERGY_ENERGY (2 * f) (uj % 2 ^ 32)).setFldI F.PWR_FEED_ENERGY_ENERGY (2 * f + 1) (uj / 2 ^ 32)
  let s := (s.setFldI F.PWR_FEED_MEAS0_V_MV f (min x.v 65535)).setFldI F.PWR_FEED_MEAS0_I_10MA f (min (i / 10) 65535)
  (s.setFldI F.PWR_FEED_MEAS1_P_100MW f (min (x.v * i / 100000) 65535)).setFldI F.PWR_FEED_MEAS1_T_C f (min x.t 255)

theorem tickFeed_of_feedOn (x : FeedSample) (h : feedOn s x.feed.val = true) :
    tickFeed s x = if ((feedTicked x s).pwr.feeds.at x.feed.val).faulted ∨ !feedGood (feedTicked x s) x then feedTicked x s
      else (feedTicked x s).setFldI F.PWR_FEED_STAT_FET_ON x.feed.val 1 := by
  unfold tickFeed
  exact if_neg (by simp [h])

theorem energy_feedTicked (x : FeedSample) : ((feedTicked x s).pwr.feeds.at x.feed.val).energy =
    min (2 ^ 80 - 1) ((s.pwr.feeds.at x.feed.val).energy + x.v * x.i.toNat * 5 * 65536 / 1000000) := by
  unfold feedTicked
  simp only [State.setFldI_pwr, State.onPwr, Tab.at_upd, if_true]

theorem volts_feedTicked (x : FeedSample) : (feedTicked x s).fldI F.PWR_FEED_MEAS0_V_MV x.feed.val = min x.v 65535 := by
  have haddr : F.PWR_FEED_MEAS0_V_MV.addr x.feed.val ≠ F.PWR_FEED_MEAS1_P_100MW.addr x.feed.val := by
    simp only [Fld.addr, F.PWR_FEED_MEAS0_V_MV, F.PWR_FEED_MEAS1_P_100MW]; omega
  refine (fldI_setFldI_other F.PWR_FEED_MEAS1_T_C _ _ _ _ haddr).trans
    ((fldI_setFldI_other F.PWR_FEED_MEAS1_P_100MW _ _ _ _ haddr).trans
    ((fldI_setFldI_disjoint F.PWR_FEED_MEAS0_I_10MA _ _ _ _ (by decide) (by decide) (by decide) (by decide)).trans ?_))
  refine (fldI_setFldI_same F.PWR_FEED_MEAS0_V_MV x.feed.val (min x.v 65535) (by decide) (by decide)).trans ?_
  exact Nat.mod_eq_of_lt (lt_of_le_of_lt (min_le_right _ _) (by decide))

/-- The energy and the voltage of an enabled feed after its tick. -/
theorem feed_tickFeed (x : FeedSample) (h : feedOn s x.feed.val = true) :
    ((tickFeed s x).pwr.feeds.at x.feed.val).energy =
        min (2 ^ 80 - 1) ((s.pwr.feeds.at x.feed.val).energy + x.v * x.i.toNat * 5 * 65536 / 1000000) ∧
      (tickFeed s x).fldI F.PWR_FEED_MEAS0_V_MV x.feed.val = min x.v 65535 := by
  rw [tickFeed_of_feedOn x h]
  split
  · exact ⟨energy_feedTicked x, volts_feedTicked x⟩
  · refine ⟨(congrArg (fun p : Pwr => (p.feeds.at x.feed.val).energy) (State.setFldI_pwr ..)).trans (energy_feedTicked x), ?_⟩
    refine (fldI_setFldI_other F.PWR_FEED_STAT_FET_ON _ _ _ _ ?_).trans (volts_feedTicked x)
    simp only [Fld.addr, F.PWR_FEED_MEAS0_V_MV, F.PWR_FEED_STAT_FET_ON]; omega

theorem exec_controlTick_feed (x : FeedSample) : exec (.controlTick [] [x] []) s = .next (takePunted (tickFeed s x)) := by
  rw [exec_controlTick, List.foldl_nil, List.foldl_nil, List.foldl_cons, List.foldl_nil]

theorem feeds_takePunted : (takePunted s).pwr.feeds = s.pwr.feeds := by
  have h : Evolves _ s (takePunted s) := takePunted_evolves .refl Sub.rfl
  have hfeeds := h.same .feeds (by decide)
  simp only [Part.Same, Prod.mk.injEq] at hfeeds
  exact hfeeds.1

/-- Settles O60: a fan's failure forces its zone, a poll meets each sensor once, and what a tick samples stands while firmware
takes the punted frames. -/
theorem feedsAndFansComplete : Obligations.FeedsAndFansComplete := by
  unfold Obligations.FeedsAndFansComplete
  refine ⟨fun feed cause mv s hon hfet₀ => ?fault, fun feed s hon hfaulted => ?ok, fun readings i x s hen hr => ?read,
    fun readings i s hen hr hfails => ?lost, fun channel rpm s hen hduty hfail => ?fail, fun channel rpm s => ?recovered,
    fun legs feeds tach s => ?tick, fun x s hon => ?leg, fun x s hon => ?feed⟩
  case fault =>
    exact ⟨_, feedFault_turnsOff feed cause mv hon hfet₀, (fldI_emit ..).trans (fetOn_feedFaulted ..),
      (fldI_emit ..).trans (cause_feedFaulted _ (lt_trans cause.isLt (by decide))), faulted_feedFaulted ..,
      emitted_emit_of _ _ _ _ (now_feedFaulted ..)⟩
  case ok =>
    refine ⟨_, feedOk_turnsOn feed hon hfaulted, ?_, ?_, emitted_emit_of _ _ _ _ (State.now_setFldI ..)⟩
    · exact (fldI_emit ..).trans (fldI_setFldI_same F.PWR_FEED_STAT_FET_ON feed.val 1 (by decide) (by decide))
    · simp [State.onPwr, emit, State.onCtl]
  case read =>
    have hread : SensorRead i.val x (pollSensors readings s) := pollSensors_meets i.isLt hen hr
      (fun u hu => sensorRead_pollSensor x hu) fun u r j hj hne hu => hu.poll i.isLt hj hne r
    obtain ⟨htemp, hvalid, hlost, hfails⟩ := hread
    have hne := sensStat_ne_fanStat i.isLt
    exact ⟨_, exec_sensorPoll readings, (fldI_setFans_dieThresholds F.PWR_SENS_STAT_TEMP _ hne _).trans htemp,
      (fldI_setFans_dieThresholds _ _ hne _).trans hvalid,
      (fldI_setFans_dieThresholds F.PWR_SENS_STAT_LOST _ hne _).trans hlost,
      (sensFails_setFans_dieThresholds ..).trans hfails⟩
  case lost =>
    have hlost : SensorLost s i.val (pollSensors readings s) := pollSensors_meets i.isLt hen hr
      (fun u hu => sensorLost_pollSensor hfails hu) fun u r j hj hne hu => hu.poll i.isLt hj hne r
    exact ⟨_, exec_sensorPoll readings, (fldI_setFans_dieThresholds F.PWR_SENS_STAT_LOST _ (sensStat_ne_fanStat i.isLt) _).trans hlost.1,
      emitted_setFans_dieThresholds hlost.2⟩
  case fail =>
    refine ⟨_, fanFail_fails channel rpm hen hduty hfail, ?_, ?_, ?_⟩
    · exact (fldI_setFans_beside _ _ (by decide) (by decide)).trans
        ((fldI_emit ..).trans (fldI_setFldI_same F.PWR_FAN_STAT_FAIL channel.val 1 (by decide) (by decide)))
    · exact duty_setFans_of_fail channel.isLt
        ((fldI_emit ..).trans (fldI_setFldI_same F.PWR_FAN_STAT_FAIL channel.val 1 (by decide) (by decide)))
    · have hset (u : State) : Evolves _ u (setFans u) := setFans_evolves .refl Sub.rfl
      exact (hset _).emitted_mono (by decide)
        (emitted_emit_of _ _ _ _ ((State.now_setFldI ..).trans (State.now_setFldI ..)))
  case recovered =>
    refine ⟨setFans ((s.setFldI F.PWR_FAN_STAT_RPM channel.val (min rpm 65535)).setFldI F.PWR_FAN_STAT_FAIL channel.val 0), rfl,
      ?_, ?_, ?_⟩
    · exact (fldI_setFans_beside _ _ (by decide) (by decide)).trans
        (fldI_setFldI_same F.PWR_FAN_STAT_FAIL channel.val 0 (by decide) (by decide))
    · refine (fldI_setFans_beside _ _ (by decide) (by decide)).trans
        ((fldI_setFldI_disjoint F.PWR_FAN_STAT_FAIL F.PWR_FAN_STAT_RPM _ _ _ (by decide) (by decide) (by decide)
        (by decide)).trans ?_)
      exact (fldI_setFldI_same F.PWR_FAN_STAT_RPM channel.val (min rpm 65535) (by decide) (by decide)).trans
        (Nat.mod_eq_of_lt (lt_of_le_of_lt (min_le_right _ _) (by decide)))
    · exact setFans_ctl.trans ((State.setFldI_ctl ..).trans (State.setFldI_ctl ..))
  case tick => exact ⟨_, rfl, takePunted_punt⟩
  case leg =>
    obtain ⟨htimer, hsense⟩ := leg_legTicked (s := s) x
    refine ⟨_, exec_controlTick_leg x hon, (fldI_takePunted _ _ rfl).trans (current_legTicked x), ?_, ?_⟩
    · rw [legOf_takePunted]; exact htimer
    · rw [legOf_takePunted]; exact hsense
  case feed =>
    obtain ⟨henergy, hvolts⟩ := feed_tickFeed x hon
    refine ⟨_, exec_controlTick_feed x, ?_, (fldI_takePunted _ _ rfl).trans hvolts⟩
    rw [feeds_takePunted]; exact henergy

end Sys2Proof.Machine
end

section
/-! PROOFS. Migration (R181 to R194): what the operations on a job leave of it, the end of a pass, and the manifests that
leave on the job's connection. -/

namespace Sys2Proof.Machine

variable {s t u : State} {w : List Part}

/-! Jobs. -/

theorem jobOf_of_evolves (h : Evolves w s t) (hw : .jobs ∉ w) (j : Nat) : jobOf t j = jobOf s j := by
  have hjobs := h.same .jobs hw
  simp only [Part.Same, Prod.mk.injEq] at hjobs
  exact congrArg (fun jobs : Tab MigJob => jobs.at j) hjobs.1

@[simp] theorem jobOf_onJob (j : Nat) (f : MigJob → MigJob) : jobOf (onJob j f s) j = f (jobOf s j) := by
  simp [jobOf, onJob, State.onFix]

theorem jobOf_migState (j st : Nat) : jobOf (migState j st s) j = { jobOf s j with state := st } :=
  jobOf_onJob j (fun x => { x with state := st })

theorem emitted_migState (j st : Nat) (h : u.now = s.now) : Emitted s (migState j st u) 0x583 1 0x806 (j * 2 ^ 32 + st) :=
  emitted_emit_of _ _ _ _ h

theorem jobOf_migAna (j : Nat) (b : Bool) (i : Nat) : jobOf (migAna j b s) i = jobOf s i :=
  jobOf_of_evolves (migAna_evolves .refl Sub.rfl) (by decide) i

theorem jobOf_sendManifest (j typ n m : Nat) (body : Bytes) (imm : Option Nat) (i : Nat) :
    jobOf (sendManifest j typ n m body imm s) i = jobOf s i :=
  jobOf_of_evolves (sendManifest_evolves .refl Sub.rfl) (by decide) i

theorem jobOf_takeManifest (j i : Nat) : jobOf (takeManifest j s) i = jobOf s i := by
  unfold takeManifest
  dsimp only
  split <;> rfl

/-- Taking a manifest posts its buffer again, and changes nothing else of the job's connection. -/
theorem ctxOf_takeManifest (j : Nat) : ∃ r, ctxOf (takeManifest j s) (jobOf s j).qpn = { ctxOf s (jobOf s j).qpn with rqTail := r } := by
  unfold takeManifest
  dsimp only
  split
  · exact ⟨_, ctxOf_onCtx ..⟩
  · exact ⟨_, rfl⟩

theorem migBusy_iff (j : Nat) : migBusy s j = true ↔ 1 ≤ (jobOf s j).state ∧ (jobOf s j).state ≤ 4 := by
  simp only [migBusy, decide_eq_true_eq]

theorem migBusy_congr {j : Nat} (h : jobOf t j = jobOf s j) : migBusy t j = migBusy s j := by
  simp only [migBusy, h]

/-! The end of a pass (R192). -/

/-- What the end of a pass leaves of a job: its windows, its counts, its report and its regions. -/
def PassKeeps (x y : MigJob) : Prop :=
  y.windows = x.windows ∧ y.objs = x.objs ∧ y.failed = x.failed ∧ y.report = x.report ∧ y.regions = x.regions

theorem PassKeeps.refl (x : MigJob) : PassKeeps x x := ⟨rfl, rfl, rfl, rfl, rfl⟩

theorem PassKeeps.trans {x y z : MigJob} (h : PassKeeps x y) (h' : PassKeeps y z) : PassKeeps x z := by
  obtain ⟨hw, ho, hf, hr, hg⟩ := h
  obtain ⟨hw', ho', hf', hr', hg'⟩ := h'
  exact ⟨hw'.trans hw, ho'.trans ho, hf'.trans hf, hr'.trans hr, hg'.trans hg⟩

theorem passKeeps_migState (j st : Nat) : PassKeeps (jobOf s j) (jobOf (migState j st s) j) := by
  rw [jobOf_migState]; exact .refl _

theorem passKeeps_startPass (j : Nat) : PassKeeps (jobOf s j) (jobOf (startPass j s) j) := by
  unfold startPass
  rw [jobOf_onJob]; exact .refl _

theorem passKeeps_countPass (j : Nat) : PassKeeps (jobOf s j) (jobOf (countPass j s) j) := by
  unfold countPass
  split
  · exact .refl _
  · rw [jobOf_onJob]; exact .refl _

theorem passKeeps_migAna (j : Nat) (b : Bool) : PassKeeps (jobOf s j) (jobOf (migAna j b s) j) := by
  rw [jobOf_migAna]; exact .refl _

theorem passKeeps_sendManifest (j typ n m : Nat) (body : Bytes) (imm : Option Nat) :
    PassKeeps (jobOf s j) (jobOf (sendManifest j typ n m body imm s) j) := by
  rw [jobOf_sendManifest]; exact .refl _

theorem passKeeps_passEnd (j fuel : Nat) (s : State) : PassKeeps (jobOf s j) (jobOf (passEnd j fuel s) j) := by
  induction fuel generalizing s with
  | zero => exact .refl _
  | succ fuel ih =>
    unfold passEnd
    dsimp only
    split
    · exact .refl _
    · split
      · exact ((passKeeps_migState j 3).trans (passKeeps_startPass j)).trans (ih _)
      · split
        · exact ((passKeeps_countPass j).trans (passKeeps_startPass j)).trans (ih _)
        · split
          · refine (passKeeps_countPass j).trans (PassKeeps.trans ?_ (ih _))
            refine PassKeeps.trans ?_ (((passKeeps_migState j 4).trans (passKeeps_migAna j true)).trans (passKeeps_startPass j))
            rw [jobOf_onJob]; exact .refl _
          · exact passKeeps_countPass j
      · exact (passKeeps_sendManifest ..).trans (passKeeps_migState j 5)
      · exact .refl _

theorem passEnd_of_unfinished {j : Nat} (fuel : Nat) (h : passDone (jobOf s j) = false) : passEnd j fuel s = s := by
  cases fuel with
  | zero => rfl
  | succ fuel =>
    unfold passEnd
    exact if_pos (Or.inr (by simp [h]))

/-! A job's namespace (R49). -/

theorem cutover_setAna (n st nsid : Nat) : ((setAna n st s).cmd.namespaces.at nsid).cutover = (s.cmd.namespaces.at nsid).cutover := by
  unfold setAna
  dsimp only
  split
  · rfl
  · refine foldl_keeps (P := fun u : State => (u.cmd.namespaces.at nsid).cutover = (s.cmd.namespaces.at nsid).cutover)
      (fun u c hu => ?_) _ _ ?_
    · rw [namespaces_of_evolves (notice_evolves .refl Sub.rfl : Evolves _ u (notice c anaNotice u)) (by decide)]; exact hu
    · simp only [State.onCmd, Tab.at_upd]
      split
      · subst_vars; rfl
      · rfl

theorem cutover_migAna (j : Nat) (b : Bool) : ((migAna j b s).cmd.namespaces.at (jobOf s j).nsid).cutover = b := by
  unfold migAna updateAna
  exact foldl_keeps (P := fun u : State => (u.cmd.namespaces.at (jobOf s j).nsid).cutover = b)
    (fun u n hu => (cutover_setAna ..).trans hu) _ _ (by simp [State.onCmd])

/-! A job that is stopped (R192). -/

theorem jobOf_voidWindows (j : Nat) : jobOf (voidWindows j s) j =
    { jobOf s j with windows := [], todo := (jobOf s j).windows.flatMap (·.objs) ++ (jobOf s j).todo } :=
  jobOf_onJob j _

/-- A busy job that is stopped: where it stood in its cut-over, its namespace is Optimized first. -/
theorem stopJob_of_busy {j : Nat} (st : Nat) (h : migBusy s j = true) :
    ∃ u, Evolves [.controllers, .namespaces, .contexts, .functions, .hostQueues, .leash, .replicas, .out] s u ∧
      stopJob j st s = migState j st (voidWindows j u) := by
  obtain ⟨hlo, hhi⟩ := (migBusy_iff j).mp h
  unfold stopJob
  rw [if_neg (by omega)]
  dsimp only
  split
  · exact ⟨_, migAna_evolves .refl Sub.rfl, rfl⟩
  · exact ⟨s, .refl, rfl⟩

theorem now_voidWindows (j : Nat) : (voidWindows j s).now = s.now := rfl

theorem jobOf_stopJob {j : Nat} (st : Nat) (h : migBusy s j = true) : jobOf (stopJob j st s) j =
    { jobOf s j with state := st, windows := [], todo := (jobOf s j).windows.flatMap (·.objs) ++ (jobOf s j).todo } := by
  obtain ⟨u, hu, heq⟩ := stopJob_of_busy st h
  rw [heq, jobOf_migState, jobOf_voidWindows, jobOf_of_evolves hu (by decide)]

theorem emitted_stopJob {j : Nat} (st : Nat) (h : migBusy s j = true) :
    Emitted s (stopJob j st s) 0x583 1 0x806 (j * 2 ^ 32 + st) := by
  obtain ⟨u, hu, heq⟩ := stopJob_of_busy st h
  rw [heq]
  exact emitted_migState j st ((now_voidWindows j).trans (hu.now_eq (by decide)))

/-- What stopping a job leaves of it: its counts and its report. -/
theorem stopJob_keeps {j : Nat} (st : Nat) (s : State) : (jobOf (stopJob j st s) j).failed = (jobOf s j).failed ∧
    (jobOf (stopJob j st s) j).report = (jobOf s j).report := by
  unfold stopJob
  dsimp only
  split
  · exact ⟨rfl, rfl⟩
  · rw [jobOf_migState, jobOf_voidWindows]
    split
    · simp only [jobOf_migAna, and_self]
    · exact ⟨rfl, rfl⟩

/-! Manifests (R184). -/

/-- A manifest leaves at once on a connection in RTS that may send. -/
theorem packetSent_sendManifest (j typ n m : Nat) (body : Bytes) (imm : Option Nat)
    (hstate : (ctxOf s (jobOf s j).qpn).state = 3) (h : SendsNow s (jobOf s j).qpn) :
    PacketSent (sendManifest j typ n m body imm s) (jobOf s j).qpn
      (.send (ctxOf s (jobOf s j).qpn).spsn (manifestHead s j typ n m ++ body) imm none) := by
  unfold sendManifest
  dsimp only
  rw [if_pos hstate]
  exact packetSent_sendMessage (p := .send 0 (manifestHead s j typ n m ++ body) imm none) h (Or.inl rfl)

/-- The head of a manifest names the shelf, the job and the time. -/
theorem manifestHead_congr (j typ n m : Nat) (hshelf : t.ctl.shelfUuid = s.ctl.shelfUuid) (huid : (jobOf t j).uid = (jobOf s j).uid)
    (hnow : t.now = s.now) : manifestHead t j typ n m = manifestHead s j typ n m := by
  simp only [manifestHead, shelf16, hshelf, huid, hnow]

theorem sendsNow_congr {q : Nat} (h : SendsNow s q) {r : Nat} (hctx : ctxOf t q = { ctxOf s q with rqTail := r })
    (hnotices : t.red.notices = s.red.notices) (hcc : t.fld F.XPT_CFG_CC_EN = s.fld F.XPT_CFG_CC_EN)
    (hps : t.cmd.ps = s.cmd.ps) : SendsNow t q := by
  unfold SendsNow
  rw [hctx, hnotices, hcc, hps]
  exact h

/-- A manifest leaves as the state would send it that stood before other work of the job. -/
theorem packetSent_sendManifest_of {j : Nat} (typ n m : Nat) (body : Bytes) (imm : Option Nat) {r : Nat}
    (hctx : ctxOf u (jobOf s j).qpn = { ctxOf s (jobOf s j).qpn with rqTail := r })
    (hframe : u.red.notices = s.red.notices ∧ u.fld F.XPT_CFG_CC_EN = s.fld F.XPT_CFG_CC_EN ∧ u.cmd.ps = s.cmd.ps ∧
      u.ctl.shelfUuid = s.ctl.shelfUuid ∧ u.now = s.now)
    (hqpn : (jobOf u j).qpn = (jobOf s j).qpn) (huid : (jobOf u j).uid = (jobOf s j).uid)
    (hstate : (ctxOf s (jobOf s j).qpn).state = 3) (h : SendsNow s (jobOf s j).qpn) :
    PacketSent (sendManifest j typ n m body imm u) (jobOf s j).qpn
      (.send (ctxOf s (jobOf s j).qpn).spsn (manifestHead s j typ n m ++ body) imm none) := by
  obtain ⟨hnotices, hcc, hps, hshelf, hnow⟩ := hframe
  have hsent := packetSent_sendManifest (s := u) j typ n m body imm (by rw [hqpn, hctx]; exact hstate)
    (by rw [hqpn]; exact sendsNow_congr h hctx hnotices hcc hps)
  rw [hqpn, hctx, manifestHead_congr j typ n m hshelf huid hnow] at hsent
  exact hsent

/-- What a manifest's sender reads of the state apart from the job and its connection. -/
theorem sender_of_evolves (h : Evolves w s t) (hrep : .replicas ∉ w) (hreg : regPart F.XPT_CFG_CC_EN.base ∉ w)
    (hps : .powerState ∉ w) (hid : .identity ∉ w) (hclock : w.contains .clock = false) :
    t.red.notices = s.red.notices ∧ t.fld F.XPT_CFG_CC_EN = s.fld F.XPT_CFG_CC_EN ∧ t.cmd.ps = s.cmd.ps ∧
      t.ctl.shelfUuid = s.ctl.shelfUuid ∧ t.now = s.now := by
  have hr := h.same .replicas hrep
  have hp := h.same .powerState hps
  have hi := h.same .identity hid
  simp only [Part.Same, Prod.mk.injEq] at hr hp hi
  obtain ⟨-, -, -, -, -, -, -, -, -, hnotices, -⟩ := hr
  exact ⟨hnotices, h.fldI_eq F.XPT_CFG_CC_EN 0 hreg, hp.1, hi.1, h.now_eq hclock⟩

/-! Windows (R183, R186). -/

/-- The state in which a window's objects are planned: the objects are refreshed and those that cover a part attested. -/
def windowAttested (j : Nat) (units : List (Nat × Nat × UnitRead)) (s : State) : State :=
  let x := jobOf s j
  let s := onJob j (fun x => { x with todo := x.todo.flatMap (refreshObj s x.nsid) }) s
  (jobOf s j).todo.foldl (attest x.nsid (passing s units)) s

/-- The state in which a planned window stands in HBM and in its trigger entry. -/
def windowArmed (j trigger : Nat) (place : WindowPlace) (x : MigJob) (ps : List Planned) (s : State) : State :=
  let entries := ps.flatMap (planEntry x.peerNsid)
  let bundle := bundleOf (ps.flatMap fun p => custodyOf s (p.batch, p.index, p.leaf))
  let s := hbmWrite place.go (manifestHead s j 3 x.windowNext ps.length)
    (hbmWrite place.bundle bundle (hbmWrite place.entries entries s))
  armWindow trigger (migTag 1 j x.windowNext) x.qpn place.first 65536 place.mbuf
    (sourceChain s x place x.windowNext bundle.length ps) s

/-- A planned window joins its job. -/
def windowTaken (j trigger : Nat) (place : WindowPlace) (x : MigJob) (ps : List Planned) (s : State) : State :=
  onJob j (fun y => { y with
    todo := y.todo.filter fun o => !(ps.map (·.obj)).contains o
    windows := y.windows ++ [⟨x.windowNext, trigger, place.region, ps.map (·.obj)⟩], windowNext := x.windowNext + 1 }) s

/-- A planned window before its PLAN is sent. -/
def windowReady (j trigger count : Nat) (place : WindowPlace) (units : List (Nat × Nat × UnitRead)) (s : State) : State :=
  windowTaken j trigger place (jobOf s j) (planned s j count units)
    (windowArmed j trigger place (jobOf s j) (planned s j count units) (windowAttested j units s))

theorem migWindowPlanned_sends (job : Fin 16) (count : Nat) (trigger : Fin 16384) (place : WindowPlace)
    (units : List (Nat × Nat × UnitRead)) (htarget : (jobOf s job.val).target = false)
    (hstate : (jobOf s job.val).state = 2 ∨ (jobOf s job.val).state = 3 ∨ (jobOf s job.val).state = 4)
    (hroom : (jobOf s job.val).windows.length < s.fld F.FIX_MIG_CFG_WINDOWS)
    (hfree : regionFree (jobOf s job.val) place.region = true) (hempty : (s.xpt.triggers.at trigger.val).state = 0)
    (hplanned : planned s job.val count units ≠ []) :
    exec (.migWindowPlanned job count trigger place units) s = .next (sendManifest job.val 1 (jobOf s job.val).windowNext
      (planned s job.val count units).length ((planned s job.val count units).flatMap (planEntry (jobOf s job.val).peerNsid)) none
      (windowReady job.val trigger.val count place units s)) := by
  change execMigWindowPlanned job count trigger place units s = _
  unfold execMigWindowPlanned
  rw [if_neg (by simp only [htarget, hfree, hempty, Bool.not_true, Bool.false_eq_true, false_or, ne_eq, not_true_eq_false, or_false,
    not_or, not_le, Bool.not_eq_true', decide_eq_false_iff_not]; exact ⟨by omega, hroom⟩)]
  exact if_neg hplanned

theorem windowAttested_evolves (j : Nat) (units : List (Nat × Nat × UnitRead)) :
    Evolves [.events, .counters, .sampling, .batches, .jobs] s (windowAttested j units s) :=
  foldl_keeps (P := fun u : State => Evolves [.events, .counters, .sampling, .batches, .jobs] s u)
    (fun _ _ hu => attest_evolves hu (Sub.of Sub.rfl rfl)) _ _ (onJob_evolves .refl (Sub.of Sub.rfl rfl))

theorem jobOf_attest (j : Nat) (nsid : Nat) (got : List UnitIo) (o : MigObj) : jobOf (attest nsid got s o) j = jobOf s j :=
  jobOf_of_evolves (attest_evolves .refl Sub.rfl) (by decide) j

/-- Planning leaves what the job tells of its windows, its connection and its peer. -/
theorem jobOf_windowAttested (j : Nat) (units : List (Nat × Nat × UnitRead)) :
    ∃ todo, jobOf (windowAttested j units s) j = { jobOf s j with todo := todo } := by
  refine foldl_keeps (P := fun u : State => ∃ todo, jobOf u j = { jobOf s j with todo := todo })
    (fun u o hu => ?_) _ _ ⟨_, jobOf_onJob ..⟩
  rw [jobOf_attest]; exact hu

theorem windowArmed_evolves (j trigger : Nat) (place : WindowPlace) (x : MigJob) (ps : List Planned) :
    Evolves [.chains, .hbm] s (windowArmed j trigger place x ps s) :=
  armWindow_evolves (hbmWrite_evolves (hbmWrite_evolves (hbmWrite_evolves .refl (Sub.of Sub.rfl rfl)) (Sub.of Sub.rfl rfl))
    (Sub.of Sub.rfl rfl)) (Sub.of Sub.rfl rfl)

theorem windowReady_evolves (j trigger count : Nat) (place : WindowPlace) (units : List (Nat × Nat × UnitRead)) :
    Evolves [.events, .counters, .sampling, .chains, .hbm, .batches, .jobs] s (windowReady j trigger count place units s) :=
  onJob_evolves (((windowAttested_evolves j units).mono (Sub.of Sub.rfl rfl)).trans
    ((windowArmed_evolves j trigger place _ _).mono (Sub.of Sub.rfl rfl))) (Sub.of Sub.rfl rfl)

/-- The job with its planned window. -/
theorem jobOf_windowReady (j trigger count : Nat) (place : WindowPlace) (units : List (Nat × Nat × UnitRead)) :
    ∃ todo, jobOf (windowReady j trigger count place units s) j = { jobOf s j with
      todo := todo, windowNext := (jobOf s j).windowNext + 1
      windows := (jobOf s j).windows ++
        [⟨(jobOf s j).windowNext, trigger, place.region, (planned s j count units).map (·.obj)⟩] } := by
  obtain ⟨todo, htodo⟩ := jobOf_windowAttested (s := s) j units
  refine ⟨todo.filter fun o => !((planned s j count units).map (·.obj)).contains o, (jobOf_onJob j _).trans ?_⟩
  rw [jobOf_of_evolves (windowArmed_evolves j trigger place (jobOf s j) (planned s j count units)) (by decide), htodo]

theorem trigger_armWindow (trigger tag qpn first len mbuf : Nat) (ws : List WorkReq) :
    (armWindow trigger tag qpn first len mbuf ws s).xpt.triggers.at trigger = ⟨tag, qpn, 1, first, len, mbuf, s.now⟩ := by
  simp [armWindow, onTrigger, State.onXpt]
  rfl

/-- The trigger entry of a planned window is ARMED, with the window's tag. -/
theorem trigger_windowReady (j trigger count : Nat) (place : WindowPlace) (units : List (Nat × Nat × UnitRead)) :
    ((windowReady j trigger count place units s).xpt.triggers.at trigger).state = 1 ∧
      ((windowReady j trigger count place units s).xpt.triggers.at trigger).tag = migTag 1 j (jobOf s j).windowNext := by
  have htaken (u : State) (ps : List Planned) : Evolves [.jobs] u (windowTaken j trigger place (jobOf s j) ps u) :=
    onJob_evolves .refl (Sub.of Sub.rfl rfl)
  unfold windowReady windowArmed
  dsimp only
  rw [(chains_of_evolves (htaken _ _) (by decide)).2.1, trigger_armWindow]
  exact ⟨rfl, rfl⟩

theorem triggers_sendManifest (j typ n m : Nat) (body : Bytes) (imm : Option Nat) :
    (sendManifest j typ n m body imm s).xpt.triggers = s.xpt.triggers :=
  (chains_of_evolves (sendManifest_evolves .refl Sub.rfl : Evolves _ s (sendManifest j typ n m body imm s)) (by decide)).2.1

/-! The target's side (R186). -/

/-- The state in which a PLAN's window stands in the chain's buffer and in its trigger entry. -/
def planReady (j trigger window : Nat) (entries : List Bytes) (place : TargetPlace) (x : MigJob) (s : State) : State :=
  let envs := entries.foldl (fun n e => max n (ofBe (slice e 176 8) + ofBe (slice e 184 4))) 0
  onJob j (fun x => { x with windows := x.windows ++ [⟨window, trigger, place.region, entries.map objOfEntry⟩] })
    (armWindow trigger (migTag 2 j window) x.qpn place.first (64 + 256 * entries.length) place.mbuf
      (targetChain x place envs entries 0 0) (hbmWrite (place.mbuf + 64) entries.flatten s))

theorem planReady_evolves (j trigger window : Nat) (entries : List Bytes) (place : TargetPlace) (x : MigJob) :
    Evolves [.chains, .hbm, .jobs] s (planReady j trigger window entries place x s) :=
  onJob_evolves (armWindow_evolves (hbmWrite_evolves .refl (Sub.of Sub.rfl rfl)) (Sub.of Sub.rfl rfl)) (Sub.of Sub.rfl rfl)

theorem takeManifest_parts (j : Nat) : Evolves [.contexts, .jobs] s (takeManifest j s) := takeManifest_evolves .refl Sub.rfl

theorem triggers_takeManifest (j : Nat) : (takeManifest j s).xpt.triggers = s.xpt.triggers :=
  (chains_of_evolves (takeManifest_parts j) (by decide)).2.1

theorem manifestPlan_sends (job peerSlot : Fin 16) (window : Nat) (entries : List Bytes) (trigger : Fin 16384) (place : TargetPlace)
    (htarget : (jobOf s job.val).target = true) (hbusy : migBusy s job.val = true) (hlen : entries.length ≤ 60)
    (hfree : regionFree (jobOf s job.val) place.region = true) (hempty : (s.xpt.triggers.at trigger.val).state = 0) :
    exec (.manifestPlan job peerSlot window entries trigger place) s = .next (sendManifest job.val 2 window 0 []
      (some (migTag 1 peerSlot.val window))
      (planReady job.val trigger.val window entries place (jobOf s job.val) (takeManifest job.val s))) := by
  change execManifestPlan job peerSlot window entries trigger place s = _
  unfold execManifestPlan
  dsimp only
  rw [jobOf_takeManifest, triggers_takeManifest, migBusy_congr (jobOf_takeManifest job.val job.val)]
  exact if_neg (by simp [htarget, hbusy, hfree, hempty, hlen])

theorem hbm_hbmWrite_congr (base : Nat) (data : Bytes) (h : t.xpt.hbm = s.xpt.hbm) :
    (hbmWrite base data t).xpt.hbm = (hbmWrite base data s).xpt.hbm := by
  simp only [hbmWrite, State.onXpt, h]

theorem trigger_planReady (j trigger window : Nat) (entries : List Bytes) (place : TargetPlace) (x : MigJob) :
    (planReady j trigger window entries place x s).xpt.triggers.at trigger =
      ⟨migTag 2 j window, x.qpn, 1, place.first, 64 + 256 * entries.length, place.mbuf, s.now⟩ :=
  trigger_armWindow (s := hbmWrite (place.mbuf + 64) entries.flatten s) ..

theorem hbm_planReady (j trigger window : Nat) (entries : List Bytes) (place : TargetPlace) (x : MigJob) :
    (planReady j trigger window entries place x s).xpt.hbm = (hbmWrite (place.mbuf + 64) entries.flatten s).xpt.hbm := by
  have h : Evolves [.chains, .jobs] (hbmWrite (place.mbuf + 64) entries.flatten s)
      (planReady j trigger window entries place x s) :=
    onJob_evolves (armWindow_evolves .refl (Sub.of Sub.rfl rfl)) (Sub.of Sub.rfl rfl)
  exact h.same .hbm (by decide)

theorem hbm_sendManifest (j typ n m : Nat) (body : Bytes) (imm : Option Nat) :
    (sendManifest j typ n m body imm s).xpt.hbm = s.xpt.hbm :=
  (sendManifest_evolves .refl Sub.rfl : Evolves _ s (sendManifest j typ n m body imm s)).same .hbm (by decide)

theorem jobOf_planReady (j trigger window : Nat) (entries : List Bytes) (place : TargetPlace) (x : MigJob) :
    jobOf (planReady j trigger window entries place x s) j = { jobOf s j with
      windows := (jobOf s j).windows ++ [⟨window, trigger, place.region, entries.map objOfEntry⟩] } := by
  have harmed (envs : Nat) : Evolves [.chains, .hbm] s (armWindow trigger (migTag 2 j window) x.qpn place.first
      (64 + 256 * entries.length) place.mbuf (targetChain x place envs entries 0 0)
      (hbmWrite (place.mbuf + 64) entries.flatten s)) :=
    armWindow_evolves (hbmWrite_evolves .refl (Sub.of Sub.rfl rfl)) (Sub.of Sub.rfl rfl)
  unfold planReady
  dsimp only
  rw [jobOf_onJob, jobOf_of_evolves (harmed _) (by decide)]

/-! Acknowledged and void windows (R186, R191). -/

/-- A window is over. -/
def windowOver (j window : Nat) (s : State) : State :=
  onJob j (fun x => { x with windows := x.windows.filter fun v => v.number != window }) s

theorem manifestAck_ends {job : Fin 16} {window : Nat} {v : MigWindow} (statuses : List Nat)
    (hfind : (jobOf s job.val).windows.find? (fun w => w.number == window) = some v)
    (htarget : (jobOf s job.val).target = false) (hbusy : migBusy s job.val = true) :
    exec (.manifestAck job window statuses) s = .next (passEnd job.val 64
      ((v.objs.zip statuses).foldl (ackEntry job.val window) (windowOver job.val window (takeManifest job.val s)))) := by
  change execManifestAck job window statuses s = _
  unfold execManifestAck
  dsimp only
  rw [jobOf_takeManifest, hfind]
  dsimp only
  rw [migBusy_congr (jobOf_takeManifest job.val job.val)]
  exact if_neg (by simp [htarget, hbusy])

/-- A committed object counts. -/
theorem jobOf_ackEntry_committed (j window : Nat) (o : MigObj) :
    jobOf (ackEntry j window s (o, 0)) j = { jobOf s j with objs := (jobOf s j).objs + 1 } := jobOf_onJob j _

theorem jobOf_ackEntries_committed (j window : Nat) (objs : List MigObj) :
    jobOf ((objs.zip (List.replicate objs.length 0)).foldl (ackEntry j window) s) j =
      { jobOf s j with objs := (jobOf s j).objs + objs.length } := by
  induction objs generalizing s with
  | nil => rfl
  | cons o objs ih =>
    rw [List.length_cons, List.replicate_succ, List.zip_cons_cons, List.foldl_cons, ih, jobOf_ackEntry_committed]
    simp only [Nat.add_assoc, Nat.add_comm 1]

/-- An object that fails is told, counted and reported, whether or not the job then fails (R191). -/
theorem objFailed_tells (j st window : Nat) (o : MigObj) :
    Emitted s (objFailed j st window o s) 0x583 3 0x808 (migObjData j st window) ∧
      (jobOf (objFailed j st window o s) j).failed = min 65535 ((jobOf s j).failed + 1) ∧
      (jobOf (objFailed j st window o s) j).report = (jobOf s j).report ++ [o] := by
  have hjob : jobOf (onJob j (fun x => { x with failed := min 65535 (x.failed + 1), report := x.report ++ [o] })
      (emit 0x583 0x808 3 (migObjData j st window) s)) j =
      { jobOf s j with failed := min 65535 ((jobOf s j).failed + 1), report := (jobOf s j).report ++ [o] } := jobOf_onJob j _
  have hsaid : Emitted s (onJob j (fun x => { x with failed := min 65535 (x.failed + 1), report := x.report ++ [o] })
      (emit 0x583 0x808 3 (migObjData j st window) s)) 0x583 3 0x808 (migObjData j st window) := emitted_emit _ _ _ _ _
  unfold objFailed
  dsimp only
  split
  · have hstop (u : State) : Evolves _ u (stopJob j 6 u) := stopJob_evolves .refl Sub.rfl
    obtain ⟨hfailed, hreport⟩ := stopJob_keeps (j := j) 6
      (onJob j (fun x => { x with failed := min 65535 (x.failed + 1), report := x.report ++ [o] })
        (emit 0x583 0x808 3 (migObjData j st window) s))
    refine ⟨(hstop _).emitted_mono (by decide) hsaid, ?_, ?_⟩
    · rw [hfailed, hjob]
    · rw [hreport, hjob]
  · refine ⟨hsaid, ?_, ?_⟩ <;> rw [hjob]

theorem emitted_passEnd {src sev ev data : Nat} (j fuel : Nat) (h : Emitted s u src sev ev data) :
    Emitted s (passEnd j fuel u) src sev ev data :=
  (passEnd_evolves .refl Sub.rfl : Evolves _ u (passEnd j fuel u)).emitted_mono (by decide) h

/-- The trigger entry of a void window is disarmed. -/
def windowDisarmed (entry : Nat) (s : State) : State :=
  if (s.xpt.triggers.at entry).state = 1 then onTrigger entry (fun _ => default) s else s

theorem jobOf_windowDisarmed (entry j : Nat) : jobOf (windowDisarmed entry s) j = jobOf s j := by
  unfold windowDisarmed
  split <;> rfl

theorem trigger_windowDisarmed (entry : Nat) : ((windowDisarmed entry s).xpt.triggers.at entry).state ≠ 1 := by
  unfold windowDisarmed
  split
  · simp [onTrigger, State.onXpt]
    decide
  · assumption

theorem manifestVoid_replies {job : Fin 16} {window : Nat} {v : MigWindow} (statuses : List Nat)
    (hfind : (jobOf s job.val).windows.find? (fun w => w.number == window) = some v)
    (htarget : (jobOf s job.val).target = true) (hbusy : migBusy s job.val = true) :
    exec (.manifestVoid job window statuses) s = .next (sendStatuses job.val 4 window statuses
      (windowOver job.val window (windowDisarmed v.trigger (takeManifest job.val s)))) := by
  change execManifestVoid job window statuses s = _
  unfold execManifestVoid
  dsimp only
  rw [jobOf_takeManifest, hfind]
  dsimp only
  rw [migBusy_congr (jobOf_takeManifest job.val job.val)]
  exact if_neg (by simp [htarget, hbusy])

theorem manifestFinal_ends {job : Fin 16} (htarget : (jobOf s job.val).target = true) (hbusy : migBusy s job.val = true) :
    exec (.manifestFinal job) s = .next (migState job.val 5 (migAna job.val false (takeManifest job.val s))) := by
  change execManifestFinal job s = _
  unfold execManifestFinal
  dsimp only
  rw [jobOf_takeManifest, migBusy_congr (jobOf_takeManifest job.val job.val)]
  exact if_pos ⟨htarget, hbusy⟩

theorem namespaces_migState (j st : Nat) : (migState j st s).cmd.namespaces = s.cmd.namespaces :=
  namespaces_of_evolves (migState_evolves .refl Sub.rfl : Evolves _ s (migState j st s)) (by decide)

/-! Registered regions (R111, R192). -/

/-- A job whose regions stand copies. -/
def jobCopies (j : Nat) (regions : List Landing) (s : State) : State :=
  migState j 2 (onJob j (fun x => { x with regions := regions, passJseq := 0 }) s)

theorem jobOf_jobCopies (j : Nat) (regions : List Landing) :
    jobOf (jobCopies j regions s) j = { jobOf s j with state := 2, regions := regions, passJseq := 0 } := by
  unfold jobCopies
  rw [jobOf_migState, jobOf_onJob]

theorem emitted_jobCopies (j : Nat) (regions : List Landing) :
    Emitted s (jobCopies j regions s) 0x583 1 0x806 (j * 2 ^ 32 + 2) := emitted_migState j 2 rfl

theorem migRegionsRegistered_copies {job : Fin 16} (regions : List Landing) (hstate : (jobOf s job.val).state = 1) :
    exec (.migRegionsRegistered job regions) s =
      if (jobOf s job.val).target then .next (migAna job.val true (regions.foldl
        (registerRegion (ctxOf (jobCopies job.val regions s) (jobOf s job.val).qpn).tenant) (jobCopies job.val regions s)))
      else .next (passEnd job.val 64 (startPass job.val (jobCopies job.val regions s))) := by
  change execMigRegionsRegistered job regions s = _
  unfold execMigRegionsRegistered
  rw [if_neg (by simp [hstate])]
  dsimp only
  rw [show jobOf (migState job.val 2 (onJob job.val (fun x => { x with regions := regions, passJseq := 0 }) s)) job.val = _ from
    jobOf_jobCopies job.val regions]
  rfl

theorem region_registerRegion (tenant : Nat) (r : Landing) :
    ((registerRegion tenant s r).xpt.regions.at r.index).state ≠ 0 := by
  unfold registerRegion
  split
  · assumption
  · simp [onRegion, State.onXpt]

theorem region_registerRegion_stays (tenant i : Nat) (r : Landing) (h : (s.xpt.regions.at i).state ≠ 0) :
    ((registerRegion tenant s r).xpt.regions.at i).state ≠ 0 := by
  unfold registerRegion
  split
  · exact h
  · simp only [onRegion, State.onXpt, Tab.at_upd]
    split
    · exact Nat.one_ne_zero
    · exact h

/-- Every region named stands once all are registered. -/
theorem region_registerRegions (tenant : Nat) (regions : List Landing) {r : Landing} (hr : r ∈ regions) :
    ((regions.foldl (registerRegion tenant) s).xpt.regions.at r.index).state ≠ 0 := by
  induction regions generalizing s with
  | nil => simp at hr
  | cons x regions ih =>
    rw [List.foldl_cons]
    obtain rfl | hr := List.mem_cons.mp hr
    · exact foldl_keeps (P := fun u : State => (u.xpt.regions.at r.index).state ≠ 0)
        (fun u x hu => region_registerRegion_stays tenant r.index x hu) _ _ (region_registerRegion tenant r)
    · exact ih hr

theorem registerRegions_evolves (tenant : Nat) (regions : List Landing) :
    Evolves [.regions] s (regions.foldl (registerRegion tenant) s) :=
  foldl_keeps (P := fun u : State => Evolves [.regions] s u) (fun _ _ hu => registerRegion_evolves hu (Sub.of Sub.rfl rfl))
    _ _ .refl

/-! Orders (R192, R194). -/

theorem jobOf_gated (path : Fin 5) (session addr : Nat) (value : Word) (j : Nat) :
    jobOf (gated path session addr value s) j = jobOf s j :=
  jobOf_of_evolves (writeGate_evolves_refl path.val session addr value s) (by decide) j

theorem migOrder_of_mayWrite {path : Fin 5} {session : Nat} {value : Word} {order : Nat} (run : Nat → State → State)
    (hwrite : MayWrite path session (F.FIX_MIG_CTRL_ORDER.addr 0) s) (horder : bitsOf value.toNat 31 28 = order)
    (hbusy : migBusy s (bitsOf value.toNat 3 0) = true) :
    migOrder path session value order run s =
      run (bitsOf value.toNat 3 0) (gated path session (F.FIX_MIG_CTRL_ORDER.addr 0) value s) := by
  have hgo : (writeGate path.val session (F.FIX_MIG_CTRL_ORDER.addr 0) value s).2 = true := writeGate_performed value hwrite
  have hb : migBusy (gated path session (F.FIX_MIG_CTRL_ORDER.addr 0) value s) (bitsOf value.toNat 3 0) = true :=
    (migBusy_congr (jobOf_gated ..)).trans hbusy
  unfold migOrder
  simp only [hgo, horder, beq_self_eq_true, Bool.true_and]
  exact if_pos hb

theorem orderCutover_of_unfinished {j : Nat} (h : passDone (jobOf s j) = false) :
    orderCutover j s = onJob j (fun x => { x with ordered := true }) s := by
  unfold orderCutover
  exact passEnd_of_unfinished 64 (by rw [jobOf_onJob]; exact h)

theorem cutoverTimeout_returns {job : Fin 16} (hstate : (jobOf s job.val).state = 4) (htarget : (jobOf s job.val).target = false) :
    exec (.cutoverTimeout job) s =
      .next (emit 0x583 0x809 2 (job.val * 2 ^ 32) (migAna job.val false (migState job.val 3 s))) := by
  change execCutoverTimeout job s = _
  unfold execCutoverTimeout
  exact if_pos ⟨hstate, by simp [htarget]⟩

theorem migConnectionErrorTimeout_stops {job : Fin 16} (hbusy : migBusy s job.val = true)
    (herror : (ctxOf s (jobOf s job.val).qpn).state = 5) :
    exec (.migConnectionErrorTimeout job) s = .next (stopJob job.val 6 s) := by
  change execMigConnectionErrorTimeout job s = _
  unfold execMigConnectionErrorTimeout
  exact if_pos ⟨hbusy, herror⟩

/-- Settles O43: the end of a pass keeps what the acknowledgements have made of the job, and a manifest leaves as the job's
connection stood. -/
theorem migrationCompletes : Obligations.MigrationCompletes := by
  unfold Obligations.MigrationCompletes
  refine ⟨fun job count trigger place units s htarget hstate hroom hfree hempty hplanned => ?planned,
    fun job peerSlot window entries trigger place s htarget hbusy hlen hfree hempty => ?plan,
    fun job window v s hfind htarget hbusy => ?ack, fun job window trigger o s hfind htarget hbusy => ?failed,
    fun job window statuses v s hfind htarget hbusy => ?void, fun job s htarget hbusy => ?final,
    fun job regions s hstate htarget => ?target, fun job regions s hstate htarget => ?source,
    fun path session value s hwrite horder hbusy hdone => ?cutover, fun path session value s hwrite horder hbusy => ?abort,
    fun job s hstate htarget => ?timeout, fun job s hbusy herror => ?error⟩
  case planned =>
    obtain ⟨todo, hjob⟩ := jobOf_windowReady (s := s) job.val trigger.val count place units
    have hready := windowReady_evolves (s := s) job.val trigger.val count place units
    obtain ⟨harmed, htag⟩ := trigger_windowReady (s := s) job.val trigger.val count place units
    refine ⟨_, migWindowPlanned_sends job count trigger place units htarget hstate hroom hfree hempty hplanned, ?_, ?_, ?_, ?_, ?_⟩
    · rw [jobOf_sendManifest, hjob]
    · rw [jobOf_sendManifest, hjob]
    · rw [triggers_sendManifest]; exact harmed
    · rw [triggers_sendManifest]; exact htag
    · intro hrts hsends
      exact packetSent_sendManifest_of 1 _ _ _ none (r := (ctxOf s (jobOf s job.val).qpn).rqTail)
        (ctxOf_of_evolves hready (by decide) _)
        (sender_of_evolves hready (by decide) (by decide) (by decide) (by decide) (by decide)) (by rw [hjob]) (by rw [hjob]) hrts hsends
  case plan =>
    obtain ⟨r, hctx⟩ := ctxOf_takeManifest (s := s) job.val
    have hready := planReady_evolves (s := takeManifest job.val s) job.val trigger.val window entries place (jobOf s job.val)
    have hjob := (jobOf_planReady (s := takeManifest job.val s) job.val trigger.val window entries place (jobOf s job.val)).trans
      (by rw [jobOf_takeManifest])
    have htake := takeManifest_parts (s := s) job.val
    have hall : Evolves [.contexts, .chains, .hbm, .jobs] s _ :=
      (htake.mono (Sub.of Sub.rfl rfl)).trans (hready.mono (Sub.of Sub.rfl rfl))
    refine ⟨_, manifestPlan_sends job peerSlot window entries trigger place htarget hbusy hlen hfree hempty, ?_, ?_, ?_, ?_⟩
    · rw [hbm_sendManifest, hbm_planReady]
      exact hbm_hbmWrite_congr _ _ (htake.same .hbm (by decide))
    · rw [triggers_sendManifest, trigger_planReady, htake.now_eq (by decide)]
    · rw [jobOf_sendManifest, hjob]
    · intro hrts hsends
      rw [← List.append_nil (manifestHead s job.val 2 window 0)]
      exact packetSent_sendManifest_of 2 window 0 [] _ (r := r)
        ((ctxOf_of_evolves hready (by decide) _).trans hctx)
        (sender_of_evolves hall (by decide) (by decide) (by decide) (by decide) (by decide)) (by rw [hjob]) (by rw [hjob]) hrts hsends
  case ack =>
    obtain ⟨hwindows, hobjs, hfailed, -⟩ := passKeeps_passEnd job.val 64
      ((v.objs.zip (List.replicate v.objs.length 0)).foldl (ackEntry job.val window)
        (windowOver job.val window (takeManifest job.val s)))
    have hjob : jobOf (windowOver job.val window (takeManifest job.val s)) job.val = { jobOf s job.val with
        windows := (jobOf s job.val).windows.filter fun v => v.number != window } :=
      (jobOf_onJob ..).trans (by rw [jobOf_takeManifest])
    rw [jobOf_ackEntries_committed, hjob] at hwindows hobjs hfailed
    exact ⟨_, manifestAck_ends _ hfind htarget hbusy, hwindows, hobjs, hfailed⟩
  case failed =>
    have hjob : jobOf (windowOver job.val window (takeManifest job.val s)) job.val = { jobOf s job.val with
        windows := (jobOf s job.val).windows.filter fun v => v.number != window } :=
      (jobOf_onJob ..).trans (by rw [jobOf_takeManifest])
    have hnow : (windowOver job.val window (takeManifest job.val s)).now = s.now :=
      (takeManifest_parts (s := s) job.val).now_eq (by decide)
    obtain ⟨hsaid, hfailed, hreport⟩ := objFailed_tells (s := windowOver job.val window (takeManifest job.val s)) job.val 6 window o
    obtain ⟨-, -, hfailed', hreport', -⟩ := passKeeps_passEnd job.val 64
      (objFailed job.val 6 window o (windowOver job.val window (takeManifest job.val s)))
    rw [hjob] at hfailed hreport
    exact ⟨_, manifestAck_ends _ hfind htarget hbusy, emitted_passEnd _ _ ((emitted_now hnow).1 hsaid), hfailed'.trans hfailed,
      hreport'.trans hreport⟩
  case void =>
    refine ⟨_, manifestVoid_replies statuses hfind htarget hbusy, ?_, ?_⟩
    · exact (jobOf_sendManifest ..).symm ▸ (congrArg MigJob.windows (jobOf_onJob ..)).trans
        (by rw [jobOf_windowDisarmed, jobOf_takeManifest])
    · unfold sendStatuses
      rw [triggers_sendManifest]
      exact trigger_windowDisarmed (s := takeManifest job.val s) v.trigger
  case final =>
    refine ⟨_, manifestFinal_ends htarget hbusy, ?_, ?_, ?_⟩
    · rw [jobOf_migState]
    · exact emitted_migState _ _ (((migAna_evolves .refl Sub.rfl : Evolves _ (takeManifest job.val s) _).now_eq (by decide)).trans
        ((takeManifest_parts (s := s) job.val).now_eq (by decide)))
    · rw [namespaces_migState, ← jobOf_takeManifest (s := s) job.val job.val]
      exact cutover_migAna job.val false
  case target =>
    have hregs (tenant : Nat) := registerRegions_evolves (s := jobCopies job.val regions s) tenant regions
    have hana (u : State) : Evolves _ u (migAna job.val true u) := migAna_evolves .refl Sub.rfl
    refine ⟨_, (migRegionsRegistered_copies regions hstate).trans (if_pos htarget), ?_, ?_, ?_, ?_, fun r hr => ?_⟩
    · rw [jobOf_migAna, jobOf_of_evolves (hregs _) (by decide), jobOf_jobCopies]
    · rw [jobOf_migAna, jobOf_of_evolves (hregs _) (by decide), jobOf_jobCopies]
    · exact (hana _).emitted_mono (by decide) ((hregs _).emitted_mono (by decide) (emitted_jobCopies job.val regions))
    · have hnsid : (jobOf s job.val).nsid = (jobOf (regions.foldl
          (registerRegion (ctxOf (jobCopies job.val regions s) (jobOf s job.val).qpn).tenant) (jobCopies job.val regions s)) job.val).nsid := by
        rw [jobOf_of_evolves (hregs _) (by decide), jobOf_jobCopies]
      rw [hnsid]
      exact cutover_migAna job.val true
    · have hsame := (hana (regions.foldl (registerRegion (ctxOf (jobCopies job.val regions s) (jobOf s job.val).qpn).tenant)
        (jobCopies job.val regions s))).same .regions (by decide)
      simp only [Part.Same] at hsame
      rw [hsame]
      exact region_registerRegions _ regions hr
  case source =>
    obtain ⟨-, -, -, -, hregions⟩ := (passKeeps_startPass (s := jobCopies job.val regions s) job.val).trans
      (passKeeps_passEnd job.val 64 _)
    refine ⟨_, (migRegionsRegistered_copies regions hstate).trans (if_neg (by simp [htarget])), ?_, ?_⟩
    · rw [hregions, jobOf_jobCopies]
    · exact emitted_passEnd _ _ (emitted_jobCopies job.val regions)
  case cutover =>
    refine ⟨_, congrArg Host.Outcome.next (migOrder_of_mayWrite orderCutover hwrite horder hbusy), ?_⟩
    rw [orderCutover_of_unfinished (by rw [jobOf_gated]; exact hdone)]
    exact (jobOf_onJob ..).trans (by rw [jobOf_gated])
  case abort =>
    have hb := (migBusy_congr (jobOf_gated (s := s) path session (F.FIX_MIG_CTRL_ORDER.addr 0) value (bitsOf value.toNat 3 0))).trans hbusy
    have hnow := (writeGate_evolves_refl path.val session (F.FIX_MIG_CTRL_ORDER.addr 0) value s).now_eq (by decide)
    refine ⟨_, congrArg Host.Outcome.next (migOrder_of_mayWrite (fun j s => stopJob j 7 s) hwrite horder hbusy), ?_, ?_, ?_⟩
    · rw [jobOf_stopJob 7 hb]
    · rw [jobOf_stopJob 7 hb]
    · exact (emitted_now hnow).1 (emitted_stopJob 7 hb)
  case timeout =>
    have hana (u : State) : Evolves _ u (migAna job.val false u) := migAna_evolves .refl Sub.rfl
    have hmig (u : State) : Evolves _ u (migState job.val 3 u) := migState_evolves .refl Sub.rfl
    refine ⟨_, cutoverTimeout_returns hstate htarget, ?_, ?_, ?_⟩
    · refine (congrArg MigJob.state (jobOf_migAna (s := migState job.val 3 s) job.val false job.val)).trans ?_
      rw [jobOf_migState]
    · exact emitted_emit_of _ _ _ _ (((hana _).now_eq (by decide)).trans ((hmig s).now_eq (by decide)))
    · rw [emit_cmd, show (jobOf s job.val).nsid = (jobOf (migState job.val 3 s) job.val).nsid by rw [jobOf_migState]]
      exact cutover_migAna job.val false
  case error =>
    refine ⟨_, migConnectionErrorTimeout_stops hbusy herror, ?_, ?_, emitted_stopJob 6 hbusy⟩
    · rw [jobOf_stopJob 6 hbusy]
    · rw [jobOf_stopJob 6 hbusy]

end Sys2Proof.Machine
end

section
/-! PROOFS. Resets (R453 to R455, R484, R492): what a cold and a warm reset leave, and the fences that a warm one keeps. -/

namespace Sys2Proof.Machine

variable {s t : State} {w : List Part}

/-! A table changed entry by entry. -/

theorem Tab.at_of_not_listed {α : Type} [Inhabited α] {t : Tab α} {k : Nat} (h : ∀ e ∈ t, e.1 ≠ k) : t.at k = default := by
  induction t with
  | nil => rfl
  | cons e t ih =>
    obtain ⟨j, x⟩ := e
    have hj : ¬k = j := fun heq => h (j, x) List.mem_cons_self heq.symm
    have hrest : Tab.at t k = default := ih fun e he => h e (List.mem_cons_of_mem _ he)
    simpa only [Tab.at, Tab.getD, Tab.look, if_neg hj] using hrest

theorem Tab.at_cons_same {α : Type} [Inhabited α] (k : Nat) (x : α) (t : Tab α) : Tab.at ((k, x) :: t) k = x := by
  simp [Tab.at, Tab.getD, Tab.look]

theorem Tab.at_cons_other {α : Type} [Inhabited α] {j k : Nat} (h : k ≠ j) (x : α) (t : Tab α) :
    Tab.at ((j, x) :: t) k = t.at k := by
  simp [Tab.at, Tab.getD, Tab.look, h]

theorem Tab.mapAll_cons {α : Type} [Inhabited α] [DecidableEq α] (f : Nat → α → α) (j : Nat) (x : α) (t : Tab α) :
    Tab.mapAll ((j, x) :: t) f = if f j x ≠ default then (j, f j x) :: Tab.mapAll t f else Tab.mapAll t f := by
  unfold Tab.mapAll
  rw [List.map_cons, List.filter_cons]
  simp only [decide_eq_true_eq]

/-- In canonical form, a change of every entry reads as the change of what was read. -/
theorem Tab.at_mapAll_of_wf {α : Type} [Inhabited α] [DecidableEq α] {t : Tab α} (hwf : t.wf = true) (f : Nat → α → α) (k : Nat)
    (hf : f k default = default) : (t.mapAll f).at k = f k (t.at k) := by
  have hrising : t.Rising := ((Tab.wf_iff t).mp hwf).2
  clear hwf
  induction t with
  | nil => exact hf.symm
  | cons e t ih =>
    obtain ⟨j, x⟩ := e
    have hparts := hrising
    simp only [Tab.Rising, List.map_cons, List.pairwise_cons] at hparts
    obtain ⟨hlow, hrest⟩ := hparts
    rw [Tab.mapAll_cons]
    by_cases hk : k = j
    · subst hk
      rw [Tab.at_cons_same]
      split
      · exact Tab.at_cons_same ..
      · have hnot : ∀ e ∈ Tab.mapAll t f, e.1 ≠ k := by
          intro e he
          obtain ⟨d, hd, rfl⟩ := List.mem_map.mp (List.mem_of_mem_filter he)
          exact (Nat.ne_of_lt (hlow _ (List.mem_map_of_mem hd))).symm
        rw [Tab.at_of_not_listed hnot]
        exact (not_not.mp ‹¬f k x ≠ default›).symm
    · rw [Tab.at_cons_other hk]
      split
      · rw [Tab.at_cons_other hk]; exact ih hrest
      · exact ih hrest

/-! Fences (R35, R38, R454). -/

/-- Whether a group is below its floor depends on the fences alone. -/
theorem belowFloor_congr (h : ∀ b, (t.ctl.blocks.at b).fenced = (s.ctl.blocks.at b).fenced) : belowFloor t = belowFloor s := by
  have hleft (b : Nat) : unitsLeft t b = unitsLeft s b := by
    simp only [unitsLeft, fencedUnit, h]
  have hbelow (b : Nat) : groupBelow t b = groupBelow s b := by
    unfold groupBelow
    rw [hleft]
  simp only [belowFloor, List.any_cons, List.any_nil, hbelow]

theorem fenced_blocksAfter {blocks : Tab BlockState} (hwf : blocks.wf = true) (b : Nat) :
    ((blocksAfter true blocks).at b).fenced = (blocks.at b).fenced := by
  unfold blocksAfter
  rw [if_pos rfl, Tab.at_mapAll_of_wf hwf _ b (by split <;> rfl)]
  split <;> rfl

/-! What a reset leaves (R454). -/

/-- The state that a reset leaves before a group below its floor suspends the bound. -/
def resetBase (warm : Bool) (cause : Nat) (s : State) : State :=
  { State.reset with
    ctl := ctlAfter warm s.ctl, tel := telAfter warm s.tel, boot := bootAfter warm cause s.boot, lay := layAfter warm s.lay
    cip := cipAfter warm s.cip, tru := truAfter warm s.tru, drv := drvAfter warm s.drv
    pwr := if warm then s.pwr else default, regs := regsAfter warm s.regs, out := s.out, free := s.free
    pending := s.pending }

theorem resetState_eq (warm : Bool) (cause : Nat) : resetState warm cause s = floorAfter (resetBase warm cause s) := rfl

/-- With no fence no group is below its floor. -/
theorem belowFloor_of_none (h : s.ctl.blocks = []) : belowFloor s = false := by
  have hnone (b u : Nat) : fencedUnit s b u = false := by
    have hzero : (Tab.at ([] : Tab BlockState) b).fenced = 0 := rfl
    simp [fencedUnit, h, hzero, bitAt]
  have hleft (b : Nat) : unitsLeft s b = unitsOf b := by
    simp [unitsLeft, hnone]
  have hbelow (b : Nat) : groupBelow s b = decide (unitsOf b < floorOf b) := by
    unfold groupBelow
    rw [hleft]
  simp only [belowFloor, List.any_cons, List.any_nil, hbelow]
  decide

theorem resetState_cold (cause : Nat) : resetState false cause s = resetBase false cause s := by
  have h : belowFloor (resetBase false cause s) = false := belowFloor_of_none rfl
  rw [resetState_eq, floorAfter, if_neg (by simp [h])]

theorem dropSessionKeys_parts : Evolves [.keys] s (dropSessionKeys s) := dropSessionKeys_evolves .refl Sub.rfl

/-- A cold reset of a state leaves what it leaves of the state without its session keys. -/
theorem coldReset_eq (cause : Nat) : coldReset cause s = resetBase false cause (dropSessionKeys s) := resetState_cold cause

/-- What a cold reset leaves. -/
theorem coldReset_leaves (cause : Nat) : (coldReset cause s).boot = bootAfter false cause s.boot ∧ (coldReset cause s).now = 0 ∧
    (coldReset cause s).ctl.clog = s.ctl.clog ∧ (coldReset cause s).ctl.profiles = s.ctl.profiles ∧
    (coldReset cause s).ctl.firmware = s.ctl.firmware ∧ (coldReset cause s).ctl.sessions = [] ∧
    (coldReset cause s).tru.fuseSvn = s.tru.fuseSvn ∧ (coldReset cause s).tru.rotation = s.tru.rotation := by
  have hkeys := dropSessionKeys_parts (s := s)
  have hboot := hkeys.same .boot (by decide)
  have hclog := hkeys.same .clog (by decide)
  have himages := hkeys.same .images (by decide)
  have htrust := hkeys.same .trust (by decide)
  simp only [Part.Same, Prod.mk.injEq] at hboot hclog himages htrust
  rw [coldReset_eq]
  refine ⟨congrArg (bootAfter false cause) hboot, rfl, hclog, himages.1, himages.2.1, rfl, ?_, ?_⟩
  · have hsvn : (dropSessionKeys s).tru.fuseSvn = s.tru.fuseSvn := by rw [htrust]
    exact hsvn
  · have hrotation : (dropSessionKeys s).tru.rotation = s.tru.rotation := by rw [htrust]
    exact hrotation

/-- A cold reset leaves the other parts as at power on. -/
theorem coldReset_clears (cause : Nat) : (coldReset cause s).cmd = State.reset.cmd ∧ (coldReset cause s).xpt = State.reset.xpt ∧
    (coldReset cause s).pwr = State.reset.pwr ∧ (coldReset cause s).fix = State.reset.fix ∧
    (coldReset cause s).lay = State.reset.lay ∧ (coldReset cause s).tel.cnt = [] := by
  rw [coldReset_eq]
  exact ⟨rfl, rfl, rfl, rfl, rfl, rfl⟩

/-! Warm resets (R455). -/

/-- The state whose sessions are closed and whose session keys are gone. -/
def sessionsEnded (s : State) : State :=
  dropSessionKeys ((s.ctl.sessions.map (·.1)).foldl (fun s id => closeSession 4 id s) s)

theorem sessionsEnded_parts : Evolves [.events, .rings, .sessions, .bone, .stores, .counters, .sampling, .keys, .keyOrders] s
    (sessionsEnded s) :=
  dropSessionKeys_evolves (foldl_keeps (P := fun u : State => Evolves [.events, .rings, .sessions, .bone, .stores, .counters,
    .sampling, .keys, .keyOrders] s u) (fun _ _ hu => closeSession_evolves hu (Sub.of Sub.rfl rfl)) _ _ .refl)
    (Sub.of Sub.rfl rfl)

theorem warmReset_eq (cause : Nat) (h : s.boot.inReset ≠ .cold) :
    warmReset cause s = floorAfter (resetBase true cause (sessionsEnded s)) := if_neg h

theorem floorAfter_leaves (s : State) : (floorAfter s).ctl = s.ctl ∧ (floorAfter s).boot = s.boot ∧ (floorAfter s).pwr = s.pwr ∧
    (floorAfter s).tru = s.tru := by
  unfold floorAfter
  split <;> exact ⟨rfl, rfl, rfl, rfl⟩

/-- What a warm reset leaves. -/
theorem warmReset_leaves (cause : Nat) (h : s.boot.inReset ≠ .cold) :
    (warmReset cause s).boot = bootAfter true cause s.boot ∧ (warmReset cause s).now = s.now ∧
      (warmReset cause s).ctl.sessions = [] ∧ (warmReset cause s).ctl.bone = default ∧
      (warmReset cause s).ctl.clog = s.ctl.clog ∧ (warmReset cause s).ctl.profiles = s.ctl.profiles ∧
      (warmReset cause s).pwr = s.pwr ∧ (warmReset cause s).tru.meas = s.tru.meas ∧
      (warmReset cause s).tru.fuseSvn = s.tru.fuseSvn ∧
      (warmReset cause s).ctl.blocks = blocksAfter true s.ctl.blocks := by
  have hended := sessionsEnded_parts (s := s)
  have hboot := hended.same .boot (by decide)
  have hclog := hended.same .clog (by decide)
  have himages := hended.same .images (by decide)
  have htrust := hended.same .trust (by decide)
  have hlegs := hended.same .legs (by decide)
  have hfeeds := hended.same .feeds (by decide)
  have hblocks := hended.same .fences (by decide)
  have hnow := hended.now_eq (by decide)
  simp only [Part.Same, Prod.mk.injEq] at hboot hclog himages htrust hlegs hfeeds hblocks
  obtain ⟨hctl, hb, hp, ht⟩ := floorAfter_leaves (resetBase true cause (sessionsEnded s))
  have hpwr : (sessionsEnded s).pwr = s.pwr := by
    cases hx : (sessionsEnded s).pwr; cases hy : s.pwr; simp_all
  rw [warmReset_eq cause h, hb, hp, ht, State.now, hctl]
  refine ⟨congrArg (bootAfter true cause) hboot, hnow, rfl, rfl, hclog, himages.1, hpwr, ?_, ?_, ?_⟩
  · have hmeas : (sessionsEnded s).tru.meas = s.tru.meas := by rw [htrust]
    exact hmeas
  · have hsvn : (sessionsEnded s).tru.fuseSvn = s.tru.fuseSvn := by rw [htrust]
    exact hsvn
  · exact congrArg (blocksAfter true) hblocks

/-- The fences after a warm reset are those before it, in every block. -/
theorem fenced_warmReset (cause : Nat) (h : s.boot.inReset ≠ .cold) (hwf : s.ctl.blocks.wf = true) (b : Nat) :
    ((warmReset cause s).ctl.blocks.at b).fenced = (s.ctl.blocks.at b).fenced := by
  obtain ⟨-, -, -, -, -, -, -, -, -, hblocks⟩ := warmReset_leaves cause h
  rw [hblocks, fenced_blocksAfter hwf]

theorem belowFloor_warmReset (cause : Nat) (h : s.boot.inReset ≠ .cold) (hwf : s.ctl.blocks.wf = true) :
    belowFloor (warmReset cause s) = belowFloor s := belowFloor_congr (fenced_warmReset cause h hwf)

/-- What a warm reset leaves of CMD: nothing but the suspension of a group below its floor. -/
theorem cmd_warmReset (cause : Nat) (h : s.boot.inReset ≠ .cold) (hwf : s.ctl.blocks.wf = true) :
    (warmReset cause s).cmd = if belowFloor s then { State.reset.cmd with boundStat := 8 } else State.reset.cmd := by
  have hbase : belowFloor (resetBase true cause (sessionsEnded s)) = belowFloor s := by
    refine belowFloor_congr fun b => ?_
    have hblocks := sessionsEnded_parts.same (s := s) .fences (by decide)
    simp only [Part.Same] at hblocks
    exact (congrArg (fun t : Tab BlockState => ((blocksAfter true t).at b).fenced) hblocks).trans (fenced_blocksAfter hwf b)
  rw [warmReset_eq cause h, floorAfter, hbase]
  split <;> rfl

/-! The critical event log across the resets that write to it (R451, R484). -/

theorem boot_logCritical (r : EventRec) : (logCritical r s).boot = s.boot :=
  (logCritical_evolves .refl Sub.rfl : Evolves _ s (logCritical r s)).same .boot (by decide)

/-- The state in which the loss of a supply is logged. -/
def powerFailed (p : Nat) (s : State) : State :=
  logCritical ⟨s.now, 0x007, 4, 0x016, p % 2 ^ 36⟩ (s.onBoot fun b => { b with pgood := p })

theorem powerGoodLoss_logs (pgood : Fin 16) (hhigh : s.boot.sysRstHigh = true) (hodd : pgood.val % 2 = 1) (hloss : pgood.val ≠ 15)
    (htherm : s.boot.thermTrip = false) : exec (.powerGoodLoss pgood) s = .next (coldReset 3 (powerFailed pgood.val s)) := by
  change execPowerGoodLoss pgood s = _
  unfold execPowerGoodLoss
  dsimp only
  rw [if_neg (by simp [hhigh, hloss]), if_neg (by omega), if_neg (by simp [State.onBoot, htherm])]
  rfl

theorem powerGoodLoss_powersOn (pgood : Fin 16) (hhigh : s.boot.sysRstHigh = true) (heven : pgood.val % 2 = 0) :
    exec (.powerGoodLoss pgood) s = .next (coldReset 1 (s.onBoot fun b => { b with pgood := pgood.val })) := by
  change execPowerGoodLoss pgood s = _
  unfold execPowerGoodLoss
  dsimp only
  rw [if_neg (by simp only [hhigh, Bool.not_true, Bool.false_eq_true, false_or]; omega), if_pos heven]

/-- The state in which a thermal trip is logged. -/
def tripLogged (s : State) : State := logCritical (mkRec s 0x5C0 4 0xC0D 0) (unsayPowerFail s)

theorem thermTrip_resets (h : s.boot.thermTrip = false) :
    exec .thermTrip s = .next (coldReset (tripLogged s).boot.cause ((tripLogged s).onBoot fun b => { b with thermTrip := true })) := by
  change execThermTrip s = _
  unfold execThermTrip
  exact if_neg (by simp [h])

theorem boot_tripLogged : (tripLogged s).boot = s.boot :=
  (boot_logCritical _).trans
    ((unsayPowerFail_evolves .refl Sub.rfl : Evolves _ s (unsayPowerFail s)).same .boot (by decide))

theorem clog_tripLogged : (tripLogged s).ctl.clog = keepLast 65536 ((unsayPowerFail s).ctl.clog ++ [⟨s.now, 0x5C0, 4, 0xC0D, 0⟩]) :=
  (logCritical_clog _ _).trans (if_pos rfl)

theorem unsayPowerFail_of_not_failed (h : s.boot.inReset ≠ .cold ∨ s.boot.cause ≠ 3) : unsayPowerFail s = s := by
  unfold unsayPowerFail
  split
  · exact if_neg fun ⟨_, hcold, hcause, _⟩ => h.elim (· hcold) (· hcause)
  · rfl

theorem clog_unsayPowerFail {r : EventRec} (hcold : s.boot.inReset = .cold) (hcause : s.boot.cause = 3) (hnow : s.now ≤ 20000)
    (hlast : s.ctl.clog.getLast? = some r) (hevent : r.event = 0x016) : (unsayPowerFail s).ctl.clog = s.ctl.clog.dropLast := by
  unfold unsayPowerFail
  rw [hlast]
  dsimp only
  rw [if_pos ⟨hevent, hcold, hcause, hnow⟩]
  exact congrArg Ctl.clog (State.setFld_ctl ..)

/-- Settles O57: the state kept is that before the reset without its sessions, and the fences decide the floor as before. -/
theorem resetsComplete : Obligations.ResetsComplete := by
  unfold Obligations.ResetsComplete
  refine ⟨fun s => ?powerOn, fun s => ?fundamental, fun pgood s hhigh hpgood htherm => ?loss, fun pgood s hhigh heven => ?loss0,
    fun s htherm hnot => ?therm, fun r s htherm hfail hlast hevent => ?unsaid, fun s hwarm hfloor hwf => ?pin,
    fun s hwarm hfloor hwf => ?floor, fun s hcold => ?cold, fun s hwarm hdog => ?dog, fun b s hwarm hdog hwf => ?fences,
    fun s hwarm hdue => ?recovery, fun port s hwarm hrec => ?i3c⟩
  case powerOn =>
    obtain ⟨hboot, hnow, hclog, hprofiles, hfirmware, hsessions, hsvn, hrotation⟩ :=
      coldReset_leaves (s := s.onBoot fun b => { b with thermTrip := false, sysRstHigh := false, pgood := 1 }) 1
    obtain ⟨hcmd, hxpt, hpwr, hfix, hlay, -⟩ :=
      coldReset_clears (s := s.onBoot fun b => { b with thermTrip := false, sysRstHigh := false, pgood := 1 }) 1
    refine ⟨_, rfl, ?_, ?_, ?_, ?_, hnow, hclog, hprofiles, hfirmware, hsessions, hcmd, hxpt, hpwr, hsvn, hrotation, hfix, hlay⟩ <;>
      exact hboot ▸ rfl
  case fundamental =>
    obtain ⟨hboot, hnow, hclog, -⟩ := coldReset_leaves (s := s.onBoot fun b => { b with sysRstHigh := false }) 2
    obtain ⟨hcmd, -, hpwr, -, -, hcnt⟩ := coldReset_clears (s := s.onBoot fun b => { b with sysRstHigh := false }) 2
    refine ⟨_, rfl, ?_, ?_, ?_, ?_, hnow, hclog, hcnt, hcmd, hpwr⟩ <;> exact hboot ▸ rfl
  case loss =>
    obtain ⟨hboot, hnow, hclog, -⟩ := coldReset_leaves (s := powerFailed pgood.val s) 3
    have hpowerFailed : (powerFailed pgood.val s).boot = { s.boot with pgood := pgood.val } := boot_logCritical _
    have hlogged : (powerFailed pgood.val s).ctl.clog = keepLast 65536 (s.ctl.clog ++ [⟨s.now, 0x007, 4, 0x016, pgood.val⟩]) := by
      refine (logCritical_clog _ _).trans ((if_pos rfl).trans ?_)
      rw [Nat.mod_eq_of_lt (lt_trans pgood.isLt (by decide))]
      rfl
    refine ⟨_, powerGoodLoss_logs pgood hhigh hpgood.1 hpgood.2 htherm, ?_, ?_, ?_, hnow, hclog.trans hlogged⟩
    all_goals (rw [hboot, hpowerFailed]; rfl)
  case loss0 =>
    obtain ⟨hboot, hnow, hclog, -⟩ := coldReset_leaves (s := s.onBoot fun b => { b with pgood := pgood.val }) 1
    refine ⟨_, powerGoodLoss_powersOn pgood hhigh heven, ?_, ?_, hclog, hnow⟩ <;> rw [hboot] <;> rfl
  case therm =>
    obtain ⟨hboot, hnow, hclog, -⟩ :=
      coldReset_leaves (s := (tripLogged s).onBoot fun b => { b with thermTrip := true }) (tripLogged s).boot.cause
    refine ⟨_, thermTrip_resets htherm, ?_, ?_, ?_, hnow, ?_⟩
    · rw [hboot]; rfl
    · rw [hboot]; rfl
    · have hcause : (tripLogged s).boot.cause = s.boot.cause := by rw [boot_tripLogged]
      rw [hboot]; exact hcause
    · exact hclog.trans (clog_tripLogged.trans (by rw [unsayPowerFail_of_not_failed hnot]))
  case unsaid =>
    obtain ⟨hcold, hcause, hnow⟩ := hfail
    obtain ⟨hboot, -, hclog, -⟩ :=
      coldReset_leaves (s := (tripLogged s).onBoot fun b => { b with thermTrip := true }) (tripLogged s).boot.cause
    refine ⟨_, thermTrip_resets htherm, ?_, ?_⟩
    · rw [hboot]; rfl
    · exact hclog.trans (clog_tripLogged.trans (by rw [clog_unsayPowerFail hcold hcause hnow hlast hevent]))
  case pin =>
    obtain ⟨hboot, hnow, hsessions, hbone, hclog, -, hpwr, hmeas, hsvn, -⟩ :=
      warmReset_leaves (s := s.onBoot fun b => { b with warmRstHigh := false }) 4 hwarm
    have hcmd := cmd_warmReset (s := s.onBoot fun b => { b with warmRstHigh := false }) 4 hwarm hwf
    refine ⟨_, rfl, ?_, ?_, ?_, hnow, hsessions, hbone, hclog, hpwr, hmeas, hsvn, ?_⟩
    · rw [hboot]; rfl
    · rw [hboot]; rfl
    · rw [hboot]; rfl
    · exact hcmd.trans (if_neg (by simp [show belowFloor (s.onBoot fun b => { b with warmRstHigh := false }) = false from hfloor]))
  case floor =>
    obtain ⟨hboot, -⟩ := warmReset_leaves (s := s.onBoot fun b => { b with warmRstHigh := false }) 4 hwarm
    have hcmd := cmd_warmReset (s := s.onBoot fun b => { b with warmRstHigh := false }) 4 hwarm hwf
    refine ⟨_, rfl, ?_, hcmd.trans (if_pos hfloor), ?_⟩
    · rw [hboot]; rfl
    · exact (belowFloor_warmReset (s := s.onBoot fun b => { b with warmRstHigh := false }) 4 hwarm hwf).trans hfloor
  case cold =>
    have hpin : exec .warmResetPin s = .next (s.onBoot fun b => { b with warmRstHigh := false }) :=
      congrArg Host.Outcome.next (if_pos hcold)
    exact ⟨_, hpin, hcold, rfl, rfl, rfl⟩
  case dog =>
    obtain ⟨hboot, hnow, hsessions, -, -, -, hpwr, -⟩ := warmReset_leaves 5 hwarm
    refine ⟨_, if_pos hdog, ?_, ?_, hnow, hsessions, hpwr⟩ <;> rw [hboot] <;> rfl
  case fences => exact ⟨_, if_pos hdog, fenced_warmReset 5 hwarm hwf b⟩
  case recovery =>
    obtain ⟨hboot, hnow, -, -, -, hprofiles, -⟩ := warmReset_leaves 6 hwarm
    refine ⟨_, if_pos hdue, ?_, ?_, ?_, hnow, hprofiles⟩ <;> rw [hboot] <;> rfl
  case i3c =>
    obtain ⟨hboot, hnow, -⟩ := warmReset_leaves 6 hwarm
    refine ⟨_, if_neg hrec, ?_, ?_, hnow⟩ <;> rw [hboot] <;> rfl

end Sys2Proof.Machine
end

section
/-! PROOFS. TCAM entries (R241): the words of CLS_RULE_DATA as numbers, and the orders on an entry; with the gate of a write
and its refusal under the image lock, as the orders of the ports, the switch and the traffic manager meet them. -/

namespace Sys2Proof.Machine

variable {s t : State} {path : Fin 5} {session : Nat} {value : Word} {w : List Part}

/-! The gate of a write (R9, R396). -/

/-- The parts of the state that make up the ports, the classifier, the switch and the traffic manager. -/
abbrev netParts : List Part := [.classifier, .punts, .stamps, .buffer, .groups, .tables, .traffic]

theorem net_of_evolves (h : Evolves w s t) (hw : ∀ p ∈ w, p ∉ netParts) : t.net = s.net := by
  have hsame : ∀ p ∈ netParts, p.Same s t := fun p hp => h.same p fun hin => hw p hin hp
  have hclassifier := hsame .classifier (by decide)
  have hpunts := hsame .punts (by decide)
  have hstamps := hsame .stamps (by decide)
  have hbuffer := hsame .buffer (by decide)
  have hgroups := hsame .groups (by decide)
  have htables := hsame .tables (by decide)
  have htraffic := hsame .traffic (by decide)
  simp only [Part.Same, Prod.mk.injEq] at hclassifier hpunts hstamps hbuffer hgroups htables htraffic
  cases hx : t.net
  cases hy : s.net
  simp_all

theorem net_gated (path : Fin 5) (session addr : Nat) (value : Word) : (gated path session addr value s).net = s.net :=
  net_of_evolves (writeGate_evolves_refl path.val session addr value s) (by decide)

theorem now_gated (path : Fin 5) (session addr : Nat) (value : Word) : (gated path session addr value s).now = s.now :=
  writeGate_now ..

theorem fldI_gated (path : Fin 5) (session addr : Nat) (value : Word) (f : Fld) (i : Nat) (hf : 0x1000000 ≤ f.addr i) :
    (gated path session addr value s).fldI f i = s.fldI f i := writeGate_fldI _ _ _ _ path.isLt f i (.inl hf)

theorem locked_gated (path : Fin 5) (session addr : Nat) (value : Word) : (gated path session addr value s).locked = s.locked := by
  have hlock : (gated path session addr value s).fldI F.CTL_LOCK_IMAGE_LOCK 0 = s.fldI F.CTL_LOCK_IMAGE_LOCK 0 :=
    writeGate_fldI _ _ _ _ path.isLt F.CTL_LOCK_IMAGE_LOCK 0 (.inr (by decide))
  exact congrArg (· == 1) hlock

/-! A refusal under the image lock (R9, R12). -/

theorem fldI_send (o : Output) (f : Fld) (i : Nat) : (s.send o).fldI f i = s.fldI f i := rfl

/-- The state in which a refusal under the lock has been noted, before a manager's session is told. -/
theorem refuse_lock_told (path session addr : Nat) : ∃ u, Emitted s u 0x003 2 0x00B (path * 2 ^ 33 + 2 * 2 ^ 30 + addr / 4 % 2 ^ 26) ∧
    u.fldI F.CTL_PATH_STAT_LOCKED path = 1 ∧ Evolves [.sessions, .out] u (refuse path session addr 2 s) := by
  have hdirect (u : State) (r : EventRec) : Evolves [.sessions, .out] u (direct session r [] u) := direct_evolves .refl Sub.rfl
  refine ⟨emit 0x003 0x00B 2 (path * 2 ^ 33 + 2 * 2 ^ 30 + addr / 4 % 2 ^ 26)
    (((s.setFldI F.CTL_PATH_STAT_LOCKED path 1).bumpI F.CTL_PATH_STAT_REFUSED path 1).send (.writeStatus path addr 6)), ?_, ?_, ?_⟩
  · refine emitted_emit_of _ _ _ _ ?_
    exact (State.now_send ..).trans ((State.now_bumpI ..).trans (State.now_setFldI ..))
  · refine (fldI_emit ..).trans ?_
    refine (fldI_send ..).trans ?_
    exact (fldI_setFldI_disjoint F.CTL_PATH_STAT_REFUSED F.CTL_PATH_STAT_LOCKED path path _ (by decide) (by decide) (by decide)
      (by decide)).trans (fldI_setFldI_same F.CTL_PATH_STAT_LOCKED path 1 (by decide) (by decide))
  · unfold refuse
    dsimp only
    split
    · exact hdirect _ _
    · exact .refl

theorem emitted_refuse_lock (path session addr : Nat) (h : t.now = s.now) :
    Emitted s (refuse path session addr 2 t) 0x003 2 0x00B (path * 2 ^ 33 + 2 * 2 ^ 30 + addr / 4 % 2 ^ 26) := by
  obtain ⟨u, hsaid, -, htold⟩ := refuse_lock_told (s := t) path session addr
  exact (emitted_now h).1 (htold.emitted_mono (by decide) hsaid)

theorem lockedBit_refuse (path session addr : Nat) : (refuse path session addr 2 s).fldI F.CTL_PATH_STAT_LOCKED path = 1 := by
  obtain ⟨u, -, hbit, htold⟩ := refuse_lock_told (s := s) path session addr
  exact (htold.fldI_eq F.CTL_PATH_STAT_LOCKED path (by decide)).trans hbit

theorem net_refuse (path session addr code : Nat) : (refuse path session addr code s).net = s.net :=
  net_of_evolves (refuse_evolves .refl Sub.rfl) (by decide)

theorem fld_refuse (path : Fin 5) (session addr code : Nat) {f : Fld} (hf : 0x1000000 ≤ f.addr 0) :
    (refuse path.val session addr code s).fld f = s.fld f :=
  fldI_congr f 0 (refuse_rawWord _ _ _ _ path.isLt _ (.inl hf))

/-! The words of CLS_RULE_DATA. -/

theorem ruleWords_congr (n i : Nat) (h : ∀ j, i ≤ j → j < i + n → t.fldI F.CLS_RULE_DATA_DATA j = s.fldI F.CLS_RULE_DATA_DATA j) :
    ruleWords t i n = ruleWords s i n := by
  induction n generalizing i with
  | zero => rfl
  | succ n ih =>
    unfold ruleWords
    rw [h i le_rfl (by omega), ih (i + 1) fun j hlo hhi => h j (by omega) (by omega)]

theorem ruleData_addr_ne {i j : Nat} (hi : i < 42) (hj : j < 42) (h : j ≠ i) :
    F.CLS_RULE_DATA_DATA.addr j ≠ F.CLS_RULE_DATA_DATA.addr i := by
  simp only [Fld.addr, F.CLS_RULE_DATA_DATA]; omega

theorem fldI_putRuleWords_beside (n i v : Nat) {j : Nat} (hn : i + n ≤ 42) (hj : j < 42) (h : j < i ∨ i + n ≤ j) (s : State) :
    (putRuleWords v i n s).fldI F.CLS_RULE_DATA_DATA j = s.fldI F.CLS_RULE_DATA_DATA j := by
  induction n generalizing i v s with
  | zero => rfl
  | succ n ih =>
    unfold putRuleWords
    rw [ih (i + 1) _ (by omega) (by omega)]
    exact fldI_setFldI_other _ _ _ _ _ (ruleData_addr_ne (by omega) hj (by omega))

/-- The words put are the number's. -/
theorem ruleWords_putRuleWords (n i v : Nat) (hn : i + n ≤ 42) (s : State) :
    ruleWords (putRuleWords v i n s) i n = v % 2 ^ (32 * n) := by
  induction n generalizing i v s with
  | zero => exact (Nat.mod_one v).symm
  | succ n ih =>
    unfold ruleWords putRuleWords
    rw [ih (i + 1) _ (by omega), fldI_putRuleWords_beside n (i + 1) _ (by omega) (by omega) (by omega),
      fldI_setFldI_same F.CLS_RULE_DATA_DATA i _ (by decide) (by decide)]
    have hword : v % 2 ^ 32 % 2 ^ (F.CLS_RULE_DATA_DATA.hi - F.CLS_RULE_DATA_DATA.lo + 1) = v % 2 ^ 32 := Nat.mod_mod _ _
    rw [hword, Nat.mul_succ, Nat.add_comm (32 * n) 32, Nat.pow_add, Nat.mod_mul]

theorem ruleWords_putRuleWords_beside (n i m k v : Nat) (hn : i + n ≤ 42) (hm : k + m ≤ 42) (h : k + m ≤ i ∨ i + n ≤ k) :
    ruleWords (putRuleWords v i n s) k m = ruleWords s k m :=
  ruleWords_congr m k fun j hlo hhi => fldI_putRuleWords_beside n i v hn (by omega) (by omega) s

theorem putRuleWords_net (v i n : Nat) (s : State) : (putRuleWords v i n s).net = s.net := by
  induction n generalizing v i s with
  | zero => rfl
  | succ n ih => exact (ih _ _ _).trans (State.setFldI_net ..)

theorem ruleWords_setValid (k m x : Nat) (hm : k + m ≤ 42) :
    ruleWords (s.setFld F.CLS_RULE_STAT_VALID x) k m = ruleWords s k m :=
  ruleWords_congr m k fun j _ hj => fldI_setFldI_other F.CLS_RULE_STAT_VALID F.CLS_RULE_DATA_DATA 0 j x
    (by simp only [Fld.addr, F.CLS_RULE_DATA_DATA, F.CLS_RULE_STAT_VALID]; omega)

theorem ruleWords_gated (addr k m : Nat) :
    ruleWords (gated path session addr value s) k m = ruleWords s k m :=
  ruleWords_congr m k fun j _ hj => fldI_gated path session addr value F.CLS_RULE_DATA_DATA j
    (by simp only [Fld.addr, F.CLS_RULE_DATA_DATA]; omega)

/-! The orders. -/

/-- An entry's value, mask and action in CLS_RULE_DATA. -/
def ruleShown (e : TcamEntry) (s : State) : State :=
  putRuleWords e.value.toNat 0 20 (putRuleWords e.mask.toNat 20 20 (putRuleWords e.action.toNat 40 2 s))

theorem toNat_lt_of_width {n m : Nat} (x : BitVec n) (h : n = m) : x.toNat < 2 ^ m := h ▸ x.isLt

theorem ruleShown_words (e : TcamEntry) : ruleWords (ruleShown e s) 0 20 = e.value.toNat ∧
    ruleWords (ruleShown e s) 20 20 = e.mask.toNat ∧ ruleWords (ruleShown e s) 40 2 = e.action.toNat := by
  unfold ruleShown
  refine ⟨?_, ?_, ?_⟩
  · rw [ruleWords_putRuleWords 20 0 _ (by decide)]
    exact Nat.mod_eq_of_lt (toNat_lt_of_width e.value rfl)
  · rw [ruleWords_putRuleWords_beside 20 0 20 20 _ (by decide) (by decide) (by decide), ruleWords_putRuleWords 20 20 _ (by decide)]
    exact Nat.mod_eq_of_lt (toNat_lt_of_width e.mask rfl)
  · rw [ruleWords_putRuleWords_beside 20 0 2 40 _ (by decide) (by decide) (by decide),
      ruleWords_putRuleWords_beside 20 20 2 40 _ (by decide) (by decide) (by decide), ruleWords_putRuleWords 2 40 _ (by decide)]
    exact Nat.mod_eq_of_lt e.action.isLt

theorem ruleShown_net (e : TcamEntry) : (ruleShown e s).net = s.net := by
  unfold ruleShown
  rw [putRuleWords_net, putRuleWords_net, putRuleWords_net]

/-- The state after the gate of a write to CLS_RULE_CTRL. -/
abbrev ruleGated (path : Fin 5) (session : Nat) (value : Word) (s : State) : State := gated path session 0x02000048 value s

theorem ruleGate_go (h : MayWrite path session 0x02000048 s) :
    (writeGate path.val session (F.CLS_RULE_CTRL_OP.addr 0) value s).2 = true := writeGate_performed value h

theorem exec_clsRuleRead (h : MayWrite path session 0x02000048 s) : exec (.clsRuleRead path session value) s =
    .next ((ruleShown (s.net.tcam.at (bitsOf value.toNat 15 0)) (ruleGated path session value s)).setFld F.CLS_RULE_STAT_VALID
      (b2n (s.net.tcam.at (bitsOf value.toNat 15 0)).valid)) := by
  change execClsRuleRead path session value s = _
  unfold execClsRuleRead
  simp only [ruleGate_go h, Bool.not_true, Bool.false_eq_true, if_false]
  rw [← net_gated (s := s) path session 0x02000048 value]
  rfl

theorem exec_clsRuleWrite (h : MayWrite path session 0x02000048 s) : exec (.clsRuleWrite path session value) s =
    .next (changeRule path.val session 2 value (fun _ => ⟨true, BitVec.ofNat 640 (ruleWords s 0 20),
      BitVec.ofNat 640 (ruleWords s 20 20), BitVec.ofNat 64 (ruleWords s 40 2)⟩) (ruleGated path session value s)) := by
  rw [← ruleWords_gated (path := path) (session := session) (value := value) 0x02000048 0 20,
    ← ruleWords_gated (path := path) (session := session) (value := value) 0x02000048 20 20,
    ← ruleWords_gated (path := path) (session := session) (value := value) 0x02000048 40 2]
  change execClsRuleWrite path session value s = _
  unfold execClsRuleWrite
  simp only [ruleGate_go h, Bool.not_true, Bool.false_eq_true, if_false]
  rfl

theorem exec_clsRuleInvalidate (h : MayWrite path session 0x02000048 s) : exec (.clsRuleInvalidate path session value) s =
    .next (changeRule path.val session 3 value (fun e => { e with valid := false }) (ruleGated path session value s)) := by
  change execClsRuleInvalidate path session value s = _
  unfold execClsRuleInvalidate
  simp only [ruleGate_go h, Bool.not_true, Bool.false_eq_true, if_false]
  rfl

/-- A change of an entry that the image lock does not hold off: it is made at once, and told. -/
theorem changeRule_unlocked (op : Nat) (e : TcamEntry → TcamEntry) (hlock : s.locked = false) :
    Emitted s (changeRule path.val session op value e (ruleGated path session value s)) 0x522 0 0x202
        (op * 65536 + bitsOf value.toNat 15 0) ∧
      (changeRule path.val session op value e (ruleGated path session value s)).net.tcam =
        s.net.tcam.upd (bitsOf value.toNat 15 0) e := by
  unfold changeRule
  rw [if_neg (by rw [locked_gated, hlock]; exact Bool.false_ne_true)]
  refine ⟨emitted_emit_of _ _ _ _ (now_gated ..), ?_⟩
  exact congrArg (fun n : Net => n.tcam.upd (bitsOf value.toNat 15 0) e) (net_gated path session 0x02000048 value)

/-- A change of an entry under the image lock: refused. -/
theorem changeRule_locked (op : Nat) (e : TcamEntry → TcamEntry) (hlock : s.locked = true) :
    changeRule path.val session op value e (ruleGated path session value s) =
      refuse path.val session 0x02000048 2 ((ruleGated path session value s).setFld F.CLS_RULE_STAT_REFUSED 1) := by
  unfold changeRule
  rw [if_pos (by rw [locked_gated, hlock])]
  rfl

/-- What such a refusal leaves. -/
theorem ruleRefused (path : Fin 5) (session : Nat) (value : Word) (s : State) :
    (refuse path.val session 0x02000048 2 ((ruleGated path session value s).setFld F.CLS_RULE_STAT_REFUSED 1)).net = s.net ∧
    (refuse path.val session 0x02000048 2 ((ruleGated path session value s).setFld F.CLS_RULE_STAT_REFUSED 1)).fld
      F.CLS_RULE_STAT_REFUSED = 1 ∧
    (refuse path.val session 0x02000048 2 ((ruleGated path session value s).setFld F.CLS_RULE_STAT_REFUSED 1)).fldI
      F.CTL_PATH_STAT_LOCKED path.val = 1 ∧
    Emitted s (refuse path.val session 0x02000048 2 ((ruleGated path session value s).setFld F.CLS_RULE_STAT_REFUSED 1))
      0x003 2 0x00B (path.val * 2 ^ 33 + 2 * 2 ^ 30 + 0x02000048 / 4) := by
  refine ⟨?_, ?_, lockedBit_refuse .., ?_⟩
  · rw [net_refuse, State.setFld_net, net_gated]
  · rw [fld_refuse path session _ 2 (f := F.CLS_RULE_STAT_REFUSED) (by decide)]
    exact fld_setFld_one _ (by decide) (by decide)
  · exact emitted_refuse_lock path.val session 0x02000048 ((State.now_setFld ..).trans (now_gated ..))

/-- Settles O47: the words put in CLS_RULE_DATA read back as the numbers put, and the gate leaves entries and words. -/
theorem classifierEntriesComplete : Obligations.ClassifierEntriesComplete := by
  unfold Obligations.ClassifierEntriesComplete
  refine ⟨fun path session value s hwrite => ?read, fun path session value s hwrite hlock => ?write,
    fun path session value s hwrite hlock => ?invalidate, fun path session value s hwrite hlock => ?writeLocked,
    fun path session value s hwrite hlock => ?invalidateLocked⟩
  case read =>
    obtain ⟨hvalue, hmask, haction⟩ :=
      ruleShown_words (s := ruleGated path session value s) (s.net.tcam.at (bitsOf value.toNat 15 0))
    refine ⟨_, exec_clsRuleRead hwrite, ?_, ?_, ?_, ?_, ?_⟩
    · rw [ruleWords_setValid 0 20 _ (by decide)]; exact hvalue
    · rw [ruleWords_setValid 20 20 _ (by decide)]; exact hmask
    · rw [ruleWords_setValid 40 2 _ (by decide)]; exact haction
    · cases (s.net.tcam.at (bitsOf value.toNat 15 0)).valid
      · exact fld_setFld_zero _ (by decide) (by decide)
      · exact fld_setFld_one _ (by decide) (by decide)
    · rw [State.setFld_net, ruleShown_net, net_gated]
  case write =>
    obtain ⟨hsaid, htcam⟩ := changeRule_unlocked (path := path) (session := session) (value := value) 2
      (fun _ => ⟨true, BitVec.ofNat 640 (ruleWords s 0 20), BitVec.ofNat 640 (ruleWords s 20 20), BitVec.ofNat 64 (ruleWords s 40 2)⟩)
      hlock
    refine ⟨_, exec_clsRuleWrite hwrite, ?_, hsaid, fun j hj => ?_⟩
    · rw [htcam, Tab.at_upd, if_pos rfl]
    · rw [htcam, Tab.at_upd, if_neg hj]
  case invalidate =>
    obtain ⟨hsaid, htcam⟩ := changeRule_unlocked (path := path) (session := session) (value := value) 3
      (fun e => { e with valid := false }) hlock
    refine ⟨_, exec_clsRuleInvalidate hwrite, ?_, hsaid⟩
    rw [htcam, Tab.at_upd, if_pos rfl]
  case writeLocked =>
    exact ⟨_, (exec_clsRuleWrite hwrite).trans (congrArg Host.Outcome.next (changeRule_locked 2 _ hlock)),
      ruleRefused path session value s⟩
  case invalidateLocked =>
    exact ⟨_, (exec_clsRuleInvalidate hwrite).trans (congrArg Host.Outcome.next (changeRule_locked 3 _ hlock)),
      ruleRefused path session value s⟩

end Sys2Proof.Machine
end

section
/-! PROOFS. The Bloodhound and the multicast groups (R256, R263): a pass over a buffer of one cell, and the orders on a group;
with the writes of a SEL register, as the tables of the traffic manager have them too. -/

namespace Sys2Proof.Machine

variable {s t : State} {path : Fin 5} {session : Nat} {value : Word}

/-! The write of a SEL register (R263, R267). -/

theorem fld_setFld_other (f g : Fld) (v : Nat) (h : g.addr 0 ≠ f.addr 0) : (s.setFld f v).fld g = s.fld g :=
  fldI_setFldI_other f g 0 0 v h

theorem fldI_onNet (h : Net → Net) (f : Fld) (i : Nat) : (s.onNet h).fldI f i = s.fldI f i := rfl

theorem storeWord_net (addr : Nat) (value : Word) : (storeWord addr value s).net = s.net := by
  unfold storeWord
  split <;> rfl

theorem storeWord_now (addr : Nat) (value : Word) : (storeWord addr value s).now = s.now :=
  congrArg (fun c : Ctl => c.gts.now) (storeWord_ctl addr value s)

theorem rawWord_storeWord (addr : Nat) (value : Word) {a : Nat} (h : a ≠ addr) :
    rawWord (storeWord addr value s).regs a = rawWord s.regs a := by
  unfold storeWord
  split
  · rw [rawWord_setRawWord, if_neg h]
  · rfl

/-- The state after the gate and the plain effect of a write. -/
def gateStored (path : Fin 5) (session addr : Nat) (value : Word) (s : State) : State :=
  storeWord addr value (gated path session addr value s)

theorem net_gateStored (addr : Nat) : (gateStored path session addr value s).net = s.net := (storeWord_net ..).trans (net_gated ..)

theorem now_gateStored (addr : Nat) : (gateStored path session addr value s).now = s.now := (storeWord_now ..).trans (now_gated ..)

theorem rawWord_gateStored {addr a : Nat} (hne : a ≠ addr) (ha : 0x1000000 ≤ a) :
    rawWord (gateStored path session addr value s).regs a = rawWord s.regs a :=
  (rawWord_storeWord _ _ hne).trans (writeGate_rawWord _ _ _ _ path.isLt a (.inl ha))

theorem fldI_gateStored {addr : Nat} (f : Fld) (i : Nat) (hne : f.addr i ≠ addr) (hf : 0x1000000 ≤ f.addr i) :
    (gateStored path session addr value s).fldI f i = s.fldI f i := fldI_congr f i (rawWord_gateStored hne hf)

theorem locked_gateStored {addr : Nat} (hne : 0x44 ≠ addr) : (gateStored path session addr value s).locked = s.locked := by
  refine Eq.trans ?_ (locked_gated path session addr value)
  exact congrArg (· == 1) (fldI_congr F.CTL_LOCK_IMAGE_LOCK 0 (rawWord_storeWord addr value hne))

theorem locked_setFld (f : Fld) (v : Nat) (h : 0x44 ≠ f.addr 0) : (s.setFld f v).locked = s.locked :=
  congrArg (· == 1) (fldI_setFldI_other f F.CTL_LOCK_IMAGE_LOCK 0 0 v h)

/-- What a refusal of such a write leaves. -/
theorem lockRefused_leaves (f : Fld) (hf : 0x1000000 ≤ f.addr 0) (hlo : f.lo ≤ f.hi) (hhi : f.hi < 32) :
    (lockRefused path.val session f s).net = s.net ∧ (lockRefused path.val session f s).fld f = 1 :=
  ⟨(net_refuse ..).trans (State.setFld_net ..), (fld_refuse path session _ 2 hf).trans (fld_setFld_one f hlo hhi)⟩

/-! The free cells and the pauses that follow them (R257, R259). -/

/-- What the pauses of the priorities leave: all but XOFF and what is sent. -/
def PausesOnly (s t : State) : Prop :=
  t.ctl = s.ctl ∧ t.net.cells = s.net.cells ∧ ∀ f i, f.addr i < 0x03000300 → t.fldI f i = s.fldI f i

theorem PausesOnly.refl (s : State) : PausesOnly s s := ⟨rfl, rfl, fun _ _ _ => rfl⟩

theorem PausesOnly.trans {u : State} (h : PausesOnly s t) (h' : PausesOnly t u) : PausesOnly s u := by
  obtain ⟨hc, hn, hf⟩ := h
  obtain ⟨hc', hn', hf'⟩ := h'
  exact ⟨hc'.trans hc, hn'.trans hn, fun f i hi => (hf' f i hi).trans (hf f i hi)⟩

theorem pausesOnly_syncPfc (lport : Nat) (hl : lport < 64) (s : State) : PausesOnly s (syncPfc lport s) := by
  unfold syncPfc
  dsimp only
  split
  · exact .refl s
  · refine foldl_keeps (P := PausesOnly s) (fun u p hu => ?_) _ _ ?_
    · split
      · exact hu
      · exact hu.trans ⟨rfl, rfl, fun _ _ _ => rfl⟩
    · refine ⟨State.setFldI_ctl .., congrArg Net.cells (State.setFldI_net ..), fun f i hi => fldI_setFldI_other _ _ _ _ _ ?_⟩
      have hx : F.SWC_PFC_STAT_XOFF.addr lport = 0x03000300 + 4 * lport := by
        simp only [Fld.addr, F.SWC_PFC_STAT_XOFF]; omega
      omega

theorem pausesOnly_unsqueeze (s : State) : PausesOnly s (unsqueeze s) := by
  unfold unsqueeze syncAllPfc
  split
  · refine List.foldlRecOn (motive := PausesOnly s) _ _ ⟨rfl, rfl, fun _ _ _ => rfl⟩ fun u hu l hl => ?_
    exact hu.trans (pausesOnly_syncPfc l (List.mem_range.mp hl) u)
  · exact .refl s

theorem PausesOnly.now (h : PausesOnly s t) : t.now = s.now := congrArg (fun c : Ctl => c.gts.now) h.1

theorem PausesOnly.emitted {u : State} (h : PausesOnly s t) {src sev ev data : Nat} (he : Emitted u s src sev ev data) :
    Emitted u t src sev ev data := by
  have hin : t.ctl.inflight = s.ctl.inflight := by rw [h.1]
  unfold Emitted at he ⊢
  rwa [hin]

/-- The count of free cells is set: clocks, records, cells and the other registers stand. -/
theorem setFree_leaves (n : Nat) : (setFree n s).ctl = s.ctl ∧ (setFree n s).net.cells = s.net.cells ∧
    ∀ f : Fld, f.addr 0 ≠ 0x03000044 → f.addr 0 ≠ 0x03000048 → (setFree n s).fld f = s.fld f := by
  unfold setFree
  refine ⟨rfl, rfl, fun f hfree hmin => ?_⟩
  exact (fldI_setFldI_other F.SWC_FREE_MIN_COUNT f 0 0 _ hmin).trans (fldI_setFldI_other F.SWC_FREE_CELLS_COUNT f 0 0 _ hfree)

theorem now_setFree (n : Nat) : (setFree n s).now = s.now := congrArg (fun c : Ctl => c.gts.now) (setFree_leaves n).1

/-! A pass over a buffer of one cell (R256). -/

theorem cell_onCell (a : Nat) (f : Cell → Cell) : (onCell a f s).net.cells.at a = f (s.net.cells.at a) := by
  simp [onCell, State.onNet]

theorem cells_emit (src ev sev data : Nat) : (emit src ev sev data s).net.cells = s.net.cells := rfl

theorem exec_bloodhoundPass {bank : Fin 64} {a : Nat} {c : Cell} (hen : s.fld F.SWC_CFG_BH_EN = 1)
    (hfence : fencedUnit s 3 bank.val = false) (hbank : a / 16384 = bank.val) (hcells : s.net.cells = [(a, c)]) :
    exec (.bloodhoundPass bank) s = .next (unsqueeze (examineCell s a)) := by
  change execBloodhoundPass bank s = _
  unfold execBloodhoundPass
  rw [if_neg (by simp [hen, hfence]), hcells]
  simp [hbank]

theorem cellAt_of_only {a : Nat} {c : Cell} (hcells : s.net.cells = [(a, c)]) : s.net.cells.at a = c := by
  rw [hcells]; exact Tab.at_cons_same ..

theorem examineCell_within {a : Nat} {c : Cell} (hc : s.net.cells.at a = c) (howner : c.owner ≠ 0) (hfiled : c.misfiled = false)
    (hlimit : overLimit s c = false) :
    examineCell s a = onCell a (fun c => { c with suspect := false, lastGen := c.gen }) s := by
  unfold examineCell
  simp only [hc, hfiled, howner, hlimit, Bool.false_eq_true, false_and, if_false]

theorem examineCell_leak {a : Nat} {c : Cell} (hc : s.net.cells.at a = c) (howner : c.owner ≠ 0) (hfiled : c.misfiled = false)
    (hsuspect : c.suspect = true) (hgen : c.lastGen = c.gen) (hlimit : overLimit s c = true) :
    examineCell s a = reportLeak a c (onCell a (fun c => { c with suspect := true, lastGen := c.gen }) s) := by
  unfold examineCell
  simp only [hc, hfiled, howner, hlimit, hsuspect, hgen, Bool.false_eq_true, false_and, if_false, beq_self_eq_true, Bool.and_self,
    if_true]

/-- The state in which a leak has been told and counted. -/
def leakTold (a : Nat) (c : Cell) (s : State) : State :=
  (emit 0x532 0x303 2 (c.owner * 2 ^ 24 + (a * 16 + c.gen)) (onCell a (fun c => { c with reported := true }) s)).bump
    F.SWC_BH_STAT_LEAKS

/-- The state in which a leaked cell has been freed. -/
def leakFreed (a : Nat) (c : Cell) (s : State) : State :=
  emit 0x532 0x304 2 (a * 16 + c.gen)
    (setFree (freeCells s + 1) (onCell a (fun c => { c with owner := 0, refs := 0, age := 0, suspect := false, freed := s.now + 1 }) s))

theorem reportLeak_of_new {a : Nat} {c : Cell} (h : c.reported = false) : reportLeak a c s =
    if (leakTold a c s).fld F.SWC_CFG_BH_RECLAIM = 1 ∧ c.owner = 1 then leakFreed a c (leakTold a c s) else leakTold a c s := by
  unfold reportLeak
  simp only [h, Bool.false_eq_true, if_false]
  rfl

theorem now_onCell (a : Nat) (f : Cell → Cell) : (onCell a f s).now = s.now := rfl

theorem now_leakTold (a : Nat) (c : Cell) : (leakTold a c s).now = s.now := rfl

theorem emitted_leakTold (a : Nat) (c : Cell) :
    Emitted s (leakTold a c s) 0x532 2 0x303 (c.owner * 2 ^ 24 + (a * 16 + c.gen)) := by
  have h := emitted_emit_of (s0 := s) 0x532 0x303 2 (c.owner * 2 ^ 24 + (a * 16 + c.gen))
    (s := onCell a (fun c => { c with reported := true }) s) (now_onCell ..)
  unfold leakTold
  unfold Emitted at h ⊢
  rwa [State.bump_ctl]

theorem fld_leakTold_other (a : Nat) (c : Cell) (f : Fld) (h : f.addr 0 ≠ 0x03000050) : (leakTold a c s).fld f = s.fld f :=
  fldI_setFldI_other F.SWC_BH_STAT_LEAKS f 0 0 _ h

theorem leaks_leakTold (a : Nat) (c : Cell) :
    (leakTold a c s).fld F.SWC_BH_STAT_LEAKS = min F.SWC_BH_STAT_LEAKS.max (s.fld F.SWC_BH_STAT_LEAKS + 1) :=
  fld_bump_same F.SWC_BH_STAT_LEAKS (by decide) (by decide)

theorem emitted_leakFreed (a : Nat) (c : Cell) : Emitted s (leakFreed a c s) 0x532 2 0x304 (a * 16 + c.gen) :=
  emitted_emit_of _ _ _ _ ((now_setFree _).trans (now_onCell ..))

theorem leakFreed_keeps (a : Nat) (c : Cell) : Evolves [.events, .counters, .sampling, .buffer, .regs, .regSwc] s (leakFreed a c s) :=
  emit_evolves (setFree_evolves (onCell_evolves .refl (Sub.of Sub.rfl rfl)) (Sub.of Sub.rfl rfl)) (Sub.of Sub.rfl rfl)

theorem leaks_leakFreed (a : Nat) (c : Cell) : (leakFreed a c s).fld F.SWC_BH_STAT_LEAKS = s.fld F.SWC_BH_STAT_LEAKS := by
  obtain ⟨-, -, hregs⟩ := setFree_leaves (s := onCell a (fun c => { c with
    owner := 0, refs := 0, age := 0, suspect := false, freed := s.now + 1 }) s) (freeCells s + 1)
  exact (fldI_emit ..).trans ((hregs F.SWC_BH_STAT_LEAKS (by decide) (by decide)).trans rfl)

theorem owner_leakFreed (a : Nat) (c : Cell) : ((leakFreed a c s).net.cells.at a).owner = 0 := by
  unfold leakFreed
  rw [cells_emit, (setFree_leaves _).2.1, cell_onCell]

/-- A leak not yet reported is told and counted, and where cells are reclaimed one of class 1 is freed. -/
theorem reportLeak_tells {a : Nat} {c : Cell} (h : c.reported = false) :
    Emitted s (reportLeak a c s) 0x532 2 0x303 (c.owner * 2 ^ 24 + (a * 16 + c.gen)) ∧
      (reportLeak a c s).fld F.SWC_BH_STAT_LEAKS = min F.SWC_BH_STAT_LEAKS.max (s.fld F.SWC_BH_STAT_LEAKS + 1) ∧
      (s.fld F.SWC_CFG_BH_RECLAIM = 1 ∧ c.owner = 1 →
        ((reportLeak a c s).net.cells.at a).owner = 0 ∧ Emitted s (reportLeak a c s) 0x532 2 0x304 (a * 16 + c.gen)) := by
  have hreclaim : (leakTold a c s).fld F.SWC_CFG_BH_RECLAIM = s.fld F.SWC_CFG_BH_RECLAIM :=
    fld_leakTold_other a c _ (by decide)
  rw [reportLeak_of_new h, hreclaim]
  split
  · exact ⟨(leakFreed_keeps a c).emitted_mono (by decide) (emitted_leakTold a c), (leaks_leakFreed a c).trans (leaks_leakTold a c),
      fun _ => ⟨owner_leakFreed a c, (emitted_now (now_leakTold a c)).1 (emitted_leakFreed a c)⟩⟩
  · exact ⟨emitted_leakTold a c, leaks_leakTold a c, fun hfree => absurd hfree ‹_›⟩

/-- A cell whose free list and owner disagree: the disagreement ends and is told, by its owner. -/
theorem examineCell_misfiled {a : Nat} {c : Cell} (hc : s.net.cells.at a = c) (hfiled : c.misfiled = true) :
    ((examineCell s a).net.cells.at a).misfiled = false ∧ Emitted s (examineCell s a) 0x532 (if c.owner = 0 then 2 else 3)
      (if c.owner = 0 then 0x302 else 0x301) (a * 16 + c.gen) := by
  unfold examineCell
  by_cases howner : c.owner = 0
  · simp only [hc, hfiled, howner, ne_eq, not_true_eq_false, and_false, if_false, if_true]
    refine ⟨?_, emitted_emit_of _ _ _ _ ?_⟩
    · rw [cells_emit, State.bump_net, (setFree_leaves _).2.1, cell_onCell]
    · exact (State.now_bump ..).trans ((now_setFree _).trans (now_onCell ..))
  · simp only [hc, hfiled, howner, ne_eq, not_false_eq_true, and_self, if_false, if_true]
    refine ⟨?_, emitted_emit_of _ _ _ _ ?_⟩
    · rw [cells_emit, State.bump_net, (setFree_leaves _).2.1, cell_onCell]
    · exact (State.now_bump ..).trans ((now_setFree _).trans (now_onCell ..))

/-! Multicast groups (R263). -/

/-- The state after the gate and the plain effect of a write to SWC_MC_SEL. -/
abbrev mcStored (path : Fin 5) (session : Nat) (value : Word) (s : State) : State := gateStored path session 0x03000054 value s

theorem mcGate_go (h : MayWrite path session 0x03000054 s) :
    (writeGate path.val session (F.SWC_MC_SEL_OP.addr 0) value s).2 = true := writeGate_performed value h

/-- A group in SWC_MC_DATA. -/
def mcShown (g : McGroup) (s : State) : State :=
  ((((s.setFld F.SWC_MC_DATA0_MEMBERS_LO (g.members % 2 ^ 32)).setFld F.SWC_MC_DATA1_MEMBERS_HI (g.members / 2 ^ 32)).setFld
    F.SWC_MC_DATA2_VALID (b2n g.valid)).setFld F.SWC_MC_DATA2_SELF (b2n g.self_)).setFld F.SWC_MC_SEL_DONE 1

theorem exec_swcMcRead (h : MayWrite path session 0x03000054 s) : exec (.swcMcRead path session value) s =
    .next (mcShown (s.net.groups.at (bitsOf value.toNat 11 0)) (mcStored path session value s)) := by
  change execSwcMcRead path session value s = _
  unfold execSwcMcRead
  simp only [mcGate_go h, Bool.not_true, Bool.false_eq_true, if_false]
  rw [← net_gateStored (s := s) (path := path) (session := session) (value := value) 0x03000054]
  rfl

theorem mcShown_members_lo (g : McGroup) : (mcShown g s).fld F.SWC_MC_DATA0_MEMBERS_LO = g.members % 2 ^ 32 := by
  unfold mcShown
  rw [fld_setFld_other _ _ _ (by decide), fld_setFld_other _ _ _ (by decide), fld_setFld_other _ _ _ (by decide),
    fld_setFld_other _ _ _ (by decide), fld_setFld_same _ _ (by decide) (by decide)]
  exact Nat.mod_mod _ _

theorem mcShown_members_hi (g : McGroup) : (mcShown g s).fld F.SWC_MC_DATA1_MEMBERS_HI = g.members / 2 ^ 32 % 2 ^ 32 := by
  unfold mcShown
  rw [fld_setFld_other _ _ _ (by decide), fld_setFld_other _ _ _ (by decide), fld_setFld_other _ _ _ (by decide)]
  exact fld_setFld_same _ _ (by decide) (by decide)

theorem mcShown_valid (g : McGroup) : (mcShown g s).fld F.SWC_MC_DATA2_VALID = b2n g.valid := by
  unfold mcShown
  rw [fld_setFld_other _ _ _ (by decide), fld_setFld_disjoint _ _ _ (by decide) (by decide) (by decide) (by decide),
    fld_setFld_same _ _ (by decide) (by decide)]
  cases g.valid <;> rfl

theorem mcShown_net (g : McGroup) : (mcShown g s).net = s.net := by
  unfold mcShown
  rw [State.setFld_net, State.setFld_net, State.setFld_net, State.setFld_net, State.setFld_net]

/-- A write of a group: refused under the image lock, else the bitmap and the flags together. -/
theorem exec_swcMcWrite (h : MayWrite path session 0x03000054 s) : exec (.swcMcWrite path session value) s =
    if s.locked then .next (lockRefused path.val session F.SWC_MC_SEL_REFUSED ((mcStored path session value s).setFld
      F.SWC_MC_SEL_DONE 1))
    else .next (((mcStored path session value s).setFld F.SWC_MC_SEL_DONE 1).onNet fun n => { n with
      groups := n.groups.put (bitsOf value.toNat 11 0)
        ⟨s.fld F.SWC_MC_DATA1_MEMBERS_HI * 2 ^ 32 + s.fld F.SWC_MC_DATA0_MEMBERS_LO, s.fld F.SWC_MC_DATA2_VALID == 1,
          s.fld F.SWC_MC_DATA2_SELF == 1⟩ }) := by
  have hfld (f : Fld) (hne : f.addr 0 ≠ 0x03000054) (hf : 0x1000000 ≤ f.addr 0) :
      ((mcStored path session value s).setFld F.SWC_MC_SEL_DONE 1).fld f = s.fld f :=
    (fldI_setFldI_other F.SWC_MC_SEL_DONE f 0 0 1 hne).trans (fldI_gateStored f 0 hne hf)
  have hlock : ((mcStored path session value s).setFld F.SWC_MC_SEL_DONE 1).locked = s.locked :=
    (locked_setFld _ _ (by decide)).trans (locked_gateStored (by decide))
  rw [← hlock, ← hfld F.SWC_MC_DATA1_MEMBERS_HI (by decide) (by decide), ← hfld F.SWC_MC_DATA0_MEMBERS_LO (by decide) (by decide),
    ← hfld F.SWC_MC_DATA2_VALID (by decide) (by decide), ← hfld F.SWC_MC_DATA2_SELF (by decide) (by decide)]
  change execSwcMcWrite path session value s = _
  unfold execSwcMcWrite
  simp only [mcGate_go h, Bool.not_true, Bool.false_eq_true, if_false]
  rfl

theorem groups_onNet (k : Nat) (g : McGroup) :
    (s.onNet fun n => { n with groups := n.groups.put k g }).net.groups.at k = g := by simp [State.onNet]

/-- Settles O48: a pass meets the buffer's only cell once, and the pauses that follow it change no cell and no record. -/
theorem bufferAndGroupsComplete : Obligations.BufferAndGroupsComplete := by
  unfold Obligations.BufferAndGroupsComplete
  refine ⟨fun bank a c s hen hfence hbank hcells _ hcell hlimit => ?within,
    fun bank a c s hen hfence hbank hcells _ hcell hlimit => ?leak,
    fun bank a c s hen hfence hbank hcells _ hfiled => ?misfiled, fun path session value s hwrite => ?read,
    fun path session value s hwrite hlock => ?write, fun path session value s hwrite hlock => ?locked⟩
  case within =>
    obtain ⟨hctl, hnet, -⟩ := pausesOnly_unsqueeze (examineCell s a)
    have hc := cellAt_of_only hcells
    rw [examineCell_within hc hcell.1 hcell.2 hlimit] at hctl hnet
    refine ⟨_, (exec_bloodhoundPass hen hfence hbank hcells).trans
      (by rw [examineCell_within hc hcell.1 hcell.2 hlimit]), ?_, hctl⟩
    rw [hnet, cell_onCell, hc]
  case leak =>
    obtain ⟨howner, hfiled, hsuspect, hgen, hreported⟩ := hcell
    have hpauses := pausesOnly_unsqueeze (examineCell s a)
    have hexamined := examineCell_leak (cellAt_of_only hcells) howner hfiled hsuspect hgen hlimit
    obtain ⟨hsaid, hleaks, hfree⟩ := reportLeak_tells (a := a)
      (s := onCell a (fun c => { c with suspect := true, lastGen := c.gen }) s) hreported
    rw [← hexamined] at hsaid hleaks hfree
    refine ⟨_, exec_bloodhoundPass hen hfence hbank hcells, hpauses.emitted hsaid,
      (hpauses.2.2 F.SWC_BH_STAT_LEAKS 0 (by decide)).trans hleaks, fun h => ?_⟩
    obtain ⟨howner', hfreed⟩ := hfree h
    exact ⟨by rw [hpauses.2.1]; exact howner', hpauses.emitted hfreed⟩
  case misfiled =>
    have hpauses := pausesOnly_unsqueeze (examineCell s a)
    obtain ⟨hended, hsaid⟩ := examineCell_misfiled (cellAt_of_only hcells) hfiled
    exact ⟨_, exec_bloodhoundPass hen hfence hbank hcells, by rw [hpauses.2.1]; exact hended, hpauses.emitted hsaid⟩
  case read =>
    exact ⟨_, exec_swcMcRead hwrite, mcShown_members_lo _, mcShown_members_hi _, mcShown_valid _,
      fld_setFld_one _ (by decide) (by decide), (mcShown_net _).trans (net_gateStored _)⟩
  case write =>
    refine ⟨_, (exec_swcMcWrite hwrite).trans (if_neg (by simp [hlock])), ?_, ?_⟩
    · exact groups_onNet ..
    · exact (fldI_onNet ..).trans (fld_setFld_one F.SWC_MC_SEL_DONE (by decide) (by decide))
  case locked =>
    obtain ⟨hnet, hrefused⟩ := lockRefused_leaves (path := path) (session := session)
      (s := (mcStored path session value s).setFld F.SWC_MC_SEL_DONE 1) F.SWC_MC_SEL_REFUSED (by decide) (by decide) (by decide)
    exact ⟨_, (exec_swcMcWrite hwrite).trans (if_pos hlock), hnet.trans ((State.setFld_net ..).trans (net_gateStored _)), hrefused⟩

end Sys2Proof.Machine
end

section
/-! PROOFS. The tables of the traffic manager (R264 to R277): the orders on queues, nodes, policers, gate lists and histograms,
and what the gate lists do at their times. -/

namespace Sys2Proof.Machine

variable {s t u : State} {path : Fin 5} {session : Nat} {value : Word} {w : List Part}

/-! Entry numbers. -/

theorem bitsOf_zero_mod (n hi k : Nat) (h : k ≤ hi) : bitsOf n hi 0 % 2 ^ (k + 1) = bitsOf n k 0 := by
  simp only [bitsOf, Nat.sub_zero]
  exact Nat.mod_mod_of_dvd _ (Nat.pow_dvd_pow 2 (by omega))

/-! Queue and node entries (R264, R267). -/

/-- The state after the gate and the plain effect of a write to TMG_Q_SEL, with DONE set. -/
def qSelected (path : Fin 5) (session : Nat) (value : Word) (s : State) : State :=
  (gateStored path session 0x04000044 value s).setFld F.TMG_Q_SEL_DONE 1

theorem net_qSelected : (qSelected path session value s).net = s.net := (State.setFld_net ..).trans (net_gateStored _)

theorem now_qSelected : (qSelected path session value s).now = s.now := (State.now_setFld ..).trans (now_gateStored _)

theorem locked_qSelected : (qSelected path session value s).locked = s.locked :=
  (locked_setFld _ _ (by decide)).trans (locked_gateStored (by decide))

theorem done_qSelected : (qSelected path session value s).fld F.TMG_Q_SEL_DONE = 1 := fld_setFld_one _ (by decide) (by decide)

theorem rawWord_qSelected {a : Nat} (hne : a ≠ 0x04000044) (ha : 0x1000000 ≤ a) :
    rawWord (qSelected path session value s).regs a = rawWord s.regs a :=
  (rawWord_setFldI F.TMG_Q_SEL_DONE 0 1 a hne).trans (rawWord_gateStored hne ha)

theorem qData_qSelected : qData (qSelected path session value s) = qData s := by
  unfold qData
  dsimp only
  rw [rawWord_qSelected (by decide) (by decide), rawWord_qSelected (by decide) (by decide), rawWord_qSelected (by decide) (by decide),
    rawWord_qSelected (by decide) (by decide), rawWord_qSelected (by decide) (by decide)]

theorem qSel_go (h : MayWrite path session 0x04000044 s) :
    (writeGate path.val session (F.TMG_Q_SEL_OP.addr 0) value s).2 = true := writeGate_performed value h

theorem qSelected_eq : (storeWord (F.TMG_Q_SEL_OP.addr 0) value (writeGate path.val session (F.TMG_Q_SEL_OP.addr 0) value s).1).setFld
    F.TMG_Q_SEL_DONE 1 = qSelected path session value s := rfl

theorem framesIn_congr (h : t.net = s.net) (q : Nat) : framesIn t q = framesIn s q := by simp only [framesIn, h]

theorem queueEntry_congr (h : t.net = s.net) (q : Nat) : queueEntry t q = queueEntry s q := by simp only [queueEntry, h]

theorem queueDepth_congr (h : t.net = s.net) (q : Nat) : queueDepth t q = queueDepth s q := by
  simp only [queueDepth, framesIn_congr h]

theorem exec_tmgQRead (h : MayWrite path session 0x04000044 s) (hqueue : bitAt value.toNat 26 = false) :
    exec (.tmgQRead path session value) s = .next (putQData (queueEntry s (bitsOf value.toNat 15 0))
      (min (2 ^ 20 - 1) (queueDepth s (bitsOf value.toNat 15 0))) (qSelected path session value s)) := by
  rw [← queueEntry_congr (net_qSelected (s := s) (path := path) (session := session) (value := value)),
    ← queueDepth_congr (net_qSelected (s := s) (path := path) (session := session) (value := value)),
    ← bitsOf_zero_mod value.toNat 25 15 (by decide)]
  change execTmgQRead path session value s = _
  unfold execTmgQRead
  simp only [qSel_go h, hqueue, Bool.not_true, Bool.false_eq_true, if_false]
  rfl

theorem rawWord_putQData (e : QEntry) (depth : Nat) :
    rawWord (putQData e depth s).regs 0x04000048 = BitVec.ofNat 32 e.d0 ∧
      rawWord (putQData e depth s).regs 0x0400005C = BitVec.ofNat 32 depth ∧
      rawWord (putQData e depth s).regs 0x04000044 = rawWord s.regs 0x04000044 := by
  unfold putQData
  simp only [List.foldl_cons, List.foldl_nil, rawWord_setRawWord]
  exact ⟨rfl, rfl, rfl⟩

theorem net_putQData (e : QEntry) (depth : Nat) : (putQData e depth s).net = s.net := rfl

/-- A write of an entry, as its branches go. -/
theorem exec_tmgQWrite (h : MayWrite path session 0x04000044 s) (hlock : s.locked = false) :
    exec (.tmgQWrite path session value) s =
      if bitAt value.toNat 26 then .next ((qSelected path session value s).onNet fun n => { n with
        nodeCfg := n.nodeCfg.put (bitsOf value.toNat 9 0) (qData s).treated.nodePart
        nodeShaper := n.nodeShaper.upd (bitsOf value.toNat 9 0) (settleShaper (n.nodeCfg.at (bitsOf value.toNat 9 0))
          (qData s).treated.nodePart s.now) })
      else if framesIn s (bitsOf value.toNat 15 0) ≠ [] ∧
          ((qData s).treated.lport ≠ (queueEntry s (bitsOf value.toNat 15 0)).lport ∨
            (qData s).treated.node ≠ (queueEntry s (bitsOf value.toNat 15 0)).node) then
        .next ((qSelected path session value s).setFld F.TMG_Q_SEL_REFUSED 1)
      else .next ((qSelected path session value s).onNet fun n => { n with
        queueCfg := n.queueCfg.put (bitsOf value.toNat 15 0) (qData s).treated
        shaper := n.shaper.upd (bitsOf value.toNat 15 0) (settleShaper (queueEntry s (bitsOf value.toNat 15 0))
          (qData s).treated s.now) }) := by
  have hnet := net_qSelected (s := s) (path := path) (session := session) (value := value)
  have hunlocked := (locked_qSelected (s := s) (path := path) (session := session) (value := value)).trans hlock
  rw [← framesIn_congr hnet, ← queueEntry_congr hnet, ← qData_qSelected (path := path) (session := session) (value := value),
    ← bitsOf_zero_mod value.toNat 25 15 (by decide), ← bitsOf_zero_mod value.toNat 25 9 (by decide),
    ← now_qSelected (s := s) (path := path) (session := session) (value := value)]
  change execTmgQWrite path session value s = _
  unfold execTmgQWrite
  simp only [qSel_go h, Bool.not_true, Bool.false_eq_true, if_false]
  rw [qSelected_eq, if_neg (Bool.eq_false_iff.mp hunlocked)]
  rfl

/-! Policers (R268). -/

/-- The state after the gate and the plain effect of a write to TMG_POL_SEL. -/
abbrev polStored (path : Fin 5) (session : Nat) (value : Word) (s : State) : State := gateStored path session 0x04000060 value s

theorem polSel_go (h : MayWrite path session 0x04000060 s) :
    (writeGate path.val session (F.TMG_POL_SEL_OP.addr 0) value s).2 = true := writeGate_performed value h

/-- The words of an entry in TMG_POL_DATA. -/
def polShown (p : Policer) (s : State) : State :=
  let words : List (Nat × Nat) := [(0, p.d0), (1, p.d1), (2, p.d2), (3, p.yellow * 65536 + p.red)]
  let regs := words.foldl (fun (r : Tab Word) (x : Nat × Nat) => setRawWord r (0x04000064 + 4 * x.1) (BitVec.ofNat 32 x.2)) s.regs
  { s with regs := regs }

/-- The counts of a policer start again. -/
def polCleared (i : Nat) (s : State) : State :=
  s.onNet fun n => { n with policers := n.policers.upd i fun p => { p with yellow := 0, red := 0 } }

theorem exec_tmgPolRead (h : MayWrite path session 0x04000060 s) : exec (.tmgPolRead path session value) s =
    .next ((polCleared (bitsOf value.toNat 13 0) (polShown (s.net.policers.at (bitsOf value.toNat 13 0))
      (polStored path session value s))).setFld F.TMG_POL_SEL_DONE 1) := by
  rw [← net_gateStored (s := s) (path := path) (session := session) (value := value) 0x04000060]
  change execTmgPolRead path session value s = _
  unfold execTmgPolRead
  simp only [polSel_go h, Bool.not_true, Bool.false_eq_true, if_false]
  rfl

theorem net_polShown (p : Policer) : (polShown p s).net = s.net := rfl

theorem rawWord_polShown (p : Policer) :
    rawWord (polShown p s).regs 0x04000070 = BitVec.ofNat 32 (p.yellow * 65536 + p.red) := by
  unfold polShown
  simp only [List.foldl_cons, List.foldl_nil, rawWord_setRawWord]
  rfl

theorem policer_polCleared (i : Nat) :
    (polCleared i s).net.policers.at i = { s.net.policers.at i with yellow := 0, red := 0 } := by
  simp [polCleared, State.onNet]

/-- The state in which a policer's entry is written. -/
def polWritten (i d0 d1 d2 : Nat) (s : State) : State :=
  s.onNet fun n => { n with policers := n.policers.upd i fun p => { p.fillNow s.now with d0 := d0, d1 := d1, d2 := d2 } }

theorem exec_tmgPolWrite (h : MayWrite path session 0x04000060 s) (hlock : s.locked = false) :
    exec (.tmgPolWrite path session value) s = .next (polWritten (bitsOf value.toNat 13 0) (rawWord s.regs 0x04000064).toNat
      (rawWord s.regs 0x04000068).toNat (rawWord s.regs 0x0400006C).toNat
      ((polStored path session value s).setFld F.TMG_POL_SEL_DONE 1)) := by
  have hunlocked : ((polStored path session value s).setFld F.TMG_POL_SEL_DONE 1).locked = false :=
    ((locked_setFld _ _ (by decide)).trans (locked_gateStored (by decide))).trans hlock
  have hword (a : Nat) (hne : a ≠ 0x04000060) (ha : 0x1000000 ≤ a) :
      rawWord ((polStored path session value s).setFld F.TMG_POL_SEL_DONE 1).regs a = rawWord s.regs a :=
    (rawWord_setFldI F.TMG_POL_SEL_DONE 0 1 a hne).trans (rawWord_gateStored hne ha)
  rw [← hword 0x04000064 (by decide) (by decide), ← hword 0x04000068 (by decide) (by decide),
    ← hword 0x0400006C (by decide) (by decide)]
  change execTmgPolWrite path session value s = _
  unfold execTmgPolWrite
  simp only [polSel_go h, Bool.not_true, Bool.false_eq_true, if_false]
  rw [show (storeWord (F.TMG_POL_SEL_OP.addr 0) value (writeGate path.val session (F.TMG_POL_SEL_OP.addr 0) value s).1).setFld
    F.TMG_POL_SEL_DONE 1 = (polStored path session value s).setFld F.TMG_POL_SEL_DONE 1 from rfl,
    if_neg (Bool.eq_false_iff.mp hunlocked)]
  rfl

theorem policer_polWritten (i d0 d1 d2 : Nat) : (polWritten i d0 d1 d2 s).net.policers.at i =
    { (s.net.policers.at i).fillNow s.now with d0 := d0, d1 := d1, d2 := d2 } := by
  simp [polWritten, State.onNet]

/-! Gate entries (R270, R271). -/

/-- The state after the gate and the plain effect of a write to TMG_GATE_SEL. -/
abbrev gateSelStored (path : Fin 5) (session : Nat) (value : Word) (s : State) : State := gateStored path session 0x04000074 value s

theorem gateSel_go (h : MayWrite path session 0x04000074 s) :
    (writeGate path.val session (F.TMG_GATE_SEL_OP.addr 0) value s).2 = true := writeGate_performed value h

theorem gateStat_addr (i : Nat) : F.TMG_GATE_STAT_BANK.addr i = 0x04000000 + (0x300 + 4 * i) % 0x1000000 := by
  simp only [Fld.addr, F.TMG_GATE_STAT_BANK]; omega

theorem activeBank_gateSelStored {lport : Nat} (hl : lport < 64) :
    activeBank (gateSelStored path session value s) lport = activeBank s lport := by
  have haddr := gateStat_addr lport
  exact fldI_gateStored F.TMG_GATE_STAT_BANK lport (by omega) (by omega)

/-- An entry in TMG_GATE_DATA. -/
def gateShown (w : Nat) (s : State) : State :=
  ((s.setFld F.TMG_GATE_DATA_GATES (bitsOf w 31 24)).setFld F.TMG_GATE_DATA_DURATION_NS (bitsOf w 23 0)).setFld
    F.TMG_GATE_SEL_DONE 1

theorem bitsOf_lport_lt (value : Word) : bitsOf value.toNat 25 20 < 64 := Nat.mod_lt _ (by decide)

theorem exec_tmgGateRead (h : MayWrite path session 0x04000074 s) : exec (.tmgGateRead path session value) s =
    .next (gateShown (s.net.gateCfg.at (gateKey (bitsOf value.toNat 25 20) (activeBank s (bitsOf value.toNat 25 20))
      (bitsOf value.toNat 9 0))) (gateSelStored path session value s)) := by
  rw [← net_gateStored (s := s) (path := path) (session := session) (value := value) 0x04000074,
    ← activeBank_gateSelStored (path := path) (session := session) (value := value) (bitsOf_lport_lt value)]
  change execTmgGateRead path session value s = _
  unfold execTmgGateRead
  simp only [gateSel_go h, Bool.not_true, Bool.false_eq_true, if_false]
  rfl

theorem gateShown_fields (w : Nat) : (gateShown w s).fld F.TMG_GATE_DATA_GATES = bitsOf w 31 24 ∧
    (gateShown w s).fld F.TMG_GATE_DATA_DURATION_NS = bitsOf w 23 0 ∧ (gateShown w s).fld F.TMG_GATE_SEL_DONE = 1 ∧
    (gateShown w s).net = s.net := by
  unfold gateShown
  refine ⟨?_, ?_, fld_setFld_one _ (by decide) (by decide), ?_⟩
  · rw [fld_setFld_other _ _ _ (by decide), fld_setFld_disjoint _ _ _ (by decide) (by decide) (by decide) (by decide),
      fld_setFld_same _ _ (by decide) (by decide)]
    exact Nat.mod_mod _ _
  · rw [fld_setFld_other _ _ _ (by decide), fld_setFld_same _ _ (by decide) (by decide)]
    exact Nat.mod_mod _ _
  · rw [State.setFld_net, State.setFld_net, State.setFld_net]

/-- The state with DONE set after a write to TMG_GATE_SEL. -/
abbrev gateSelected (path : Fin 5) (session : Nat) (value : Word) (s : State) : State :=
  (gateSelStored path session value s).setFld F.TMG_GATE_SEL_DONE 1

theorem net_gateSelected : (gateSelected path session value s).net = s.net := (State.setFld_net ..).trans (net_gateStored _)

theorem exec_tmgGateWrite (h : MayWrite path session 0x04000074 s) (hlock : s.locked = false) :
    exec (.tmgGateWrite path session value) s =
      if (gatesOf s (bitsOf value.toNat 25 20)).pending.isSome then
        .next ((gateSelected path session value s).setFld F.TMG_GATE_SEL_REFUSED 1)
      else .next ((gateSelected path session value s).onNet fun n => { n with
        gateCfg := n.gateCfg.put (gateKey (bitsOf value.toNat 25 20) (1 - activeBank s (bitsOf value.toNat 25 20))
          (bitsOf value.toNat 9 0)) (s.fld F.TMG_GATE_DATA_GATES * 2 ^ 24 + s.fld F.TMG_GATE_DATA_DURATION_NS) }) := by
  have hunlocked : (gateSelected path session value s).locked = false :=
    ((locked_setFld _ _ (by decide)).trans (locked_gateStored (by decide))).trans hlock
  have hfld (f : Fld) (hne : f.addr 0 ≠ 0x04000074) (hf : 0x1000000 ≤ f.addr 0) :
      (gateSelected path session value s).fld f = s.fld f :=
    (fld_setFld_other F.TMG_GATE_SEL_DONE f 1 hne).trans (fldI_gateStored f 0 hne hf)
  have hbank : activeBank (gateSelected path session value s) (bitsOf value.toNat 25 20) = activeBank s (bitsOf value.toNat 25 20) := by
    refine Eq.trans ?_ (activeBank_gateSelStored (path := path) (session := session) (value := value) (bitsOf_lport_lt value))
    have haddr := gateStat_addr (bitsOf value.toNat 25 20)
    have hlt := bitsOf_lport_lt value
    exact fldI_setFldI_other F.TMG_GATE_SEL_DONE F.TMG_GATE_STAT_BANK 0 _ 1 (by
      rw [haddr]; simp only [Fld.addr, F.TMG_GATE_SEL_DONE]; omega)
  have hgates : gatesOf (gateSelected path session value s) (bitsOf value.toNat 25 20) = gatesOf s (bitsOf value.toNat 25 20) := by
    simp only [gatesOf, net_gateSelected]
  rw [← hgates, ← hbank, ← hfld F.TMG_GATE_DATA_GATES (by decide) (by decide),
    ← hfld F.TMG_GATE_DATA_DURATION_NS (by decide) (by decide)]
  change execTmgGateWrite path session value s = _
  unfold execTmgGateWrite
  simp only [gateSel_go h, Bool.not_true, Bool.false_eq_true, if_false]
  rw [show (storeWord (F.TMG_GATE_SEL_OP.addr 0) value (writeGate path.val session (F.TMG_GATE_SEL_OP.addr 0) value s).1).setFld
    F.TMG_GATE_SEL_DONE 1 = gateSelected path session value s from rfl, if_neg (Bool.eq_false_iff.mp hunlocked)]

/-! The time of a commit (R271). -/

theorem cycleTime_pos (lport bank last : Nat) : 1 ≤ cycleTime (gateList s lport bank last) := by
  unfold cycleTime gateList
  rw [List.range_succ_eq_map, List.map_cons, List.map_cons, List.sum_cons]
  have hfirst : 1 ≤ (gateEntry s lport bank 0).2 := le_max_left _ _
  omega

/-- A cycle's end is not before the time it is asked for. -/
theorem le_cycleEnd (start t : Nat) {len : Nat} (hlen : 1 ≤ len) : t ≤ cycleEnd start len t := by
  unfold cycleEnd
  split
  · assumption
  · have hceil : t - start ≤ (t - start + len - 1) / len * len := by
      have hmod := Nat.div_add_mod (t - start + len - 1) len
      have hlt := Nat.mod_lt (t - start + len - 1) (show 0 < len by omega)
      rw [Nat.mul_comm] at hmod
      omega
    omega

/-- A commit takes effect at least 1 µs later. -/
theorem le_commitTime (lport : Nat) : s.now + 1000 ≤ commitTime s lport := by
  unfold commitTime
  dsimp only
  split
  · exact le_trans (le_max_right _ _) (le_cycleEnd _ _ (cycleTime_pos ..))
  · exact le_max_right _ _

theorem gateList_congr (h : t.net = s.net) (lport bank last : Nat) : gateList t lport bank last = gateList s lport bank last := by
  have hentry : gateEntry t = gateEntry s := by
    funext lport bank i
    simp only [gateEntry, h]
  simp only [gateList, hentry]

theorem commitTime_congr {lport : Nat} (hnet : t.net = s.net) (hnow : t.now = s.now)
    (hregs : ∀ f i, 0x1000000 ≤ Fld.addr f i → t.fldI f i = s.fldI f i) : commitTime t lport = commitTime s lport := by
  have hbase (f : Fld) (hf : 0x1000000 ≤ f.addr 0) : t.fld f = s.fld f := hregs f 0 hf
  have hstat : 0x1000000 ≤ F.TMG_GATE_STAT_BANK.addr lport := by rw [gateStat_addr]; omega
  have hactive : listActive t lport = listActive s lport := congrArg (· == 1) (hregs F.TMG_GATE_STAT_ENABLED lport hstat)
  have hbank : activeBank t lport = activeBank s lport := hregs F.TMG_GATE_STAT_BANK lport hstat
  have hgates : gatesOf t lport = gatesOf s lport := by simp only [gatesOf, hnet]
  unfold commitTime
  simp only [activeList, hbase F.TMG_GATE_BASE_HI_BASE (by decide), hbase F.TMG_GATE_BASE_LO_BASE (by decide), hnow, hactive, hbank,
    hgates, gateList_congr hnet]

/-- The state after the gate of a write to TMG_GATE_COMMIT. -/
abbrev commitGated (path : Fin 5) (session : Nat) (value : Word) (s : State) : State := gated path session 0x04000084 value s

theorem commit_go (h : MayWrite path session 0x04000084 s) :
    (writeGate path.val session (F.TMG_GATE_COMMIT_LPORT.addr 0) value s).2 = true := writeGate_performed value h

theorem commitTime_commitGated (lport : Nat) : commitTime (commitGated path session value s) lport = commitTime s lport :=
  commitTime_congr (net_gated ..) (now_gated ..) fun f i hf => fldI_gated path session 0x04000084 value f i hf

theorem listActive_commitGated (lport : Nat) : listActive (commitGated path session value s) lport = listActive s lport :=
  congrArg (· == 1) (fldI_gated path session 0x04000084 value F.TMG_GATE_STAT_ENABLED lport (by
    simp only [Fld.addr, F.TMG_GATE_STAT_ENABLED]; omega))

theorem exec_tmgGateCommit (h : MayWrite path session 0x04000084 s) : exec (.tmgGateCommit path session value) s =
    .next ((onGates (bitsOf value.toNat 5 0) (fun g => { g with
      pending := some (commitTime s (bitsOf value.toNat 5 0), bitsOf value.toNat 25 16), stopping := false })
      (commitGated path session value s)).setFldI F.TMG_GATE_STAT_PENDING (bitsOf value.toNat 5 0) 1) := by
  rw [← commitTime_commitGated (path := path) (session := session) (value := value)]
  change execTmgGateCommit path session value s = _
  unfold execTmgGateCommit
  simp only [commit_go h, Bool.not_true, Bool.false_eq_true, if_false]
  rfl

theorem exec_tmgGateStop (h : MayWrite path session 0x04000084 s) : exec (.tmgGateStop path session value) s =
    .next ((onGates (bitsOf value.toNat 5 0) (fun g => { g with
      pending := none, stopping := listActive s (bitsOf value.toNat 5 0) })
      (commitGated path session value s)).setFldI F.TMG_GATE_STAT_PENDING (bitsOf value.toNat 5 0) 0) := by
  rw [← listActive_commitGated (path := path) (session := session) (value := value)]
  change execTmgGateStop path session value s = _
  unfold execTmgGateStop
  simp only [commit_go h, Bool.not_true, Bool.false_eq_true, if_false]
  rfl

theorem gatesOf_onGates (lport : Nat) (f : Gates → Gates) : gatesOf (onGates lport f s) lport = f (gatesOf s lport) := by
  simp [gatesOf, onGates, State.onNet]

theorem gatesOf_setFldI (f : Fld) (i v lport : Nat) : gatesOf (s.setFldI f i v) lport = gatesOf s lport :=
  congrArg (fun n : Net => n.gates.at lport) (State.setFldI_net ..)

theorem gatesOf_commitGated (lport : Nat) : gatesOf (commitGated path session value s) lport = gatesOf s lport := by
  simp only [gatesOf, net_gated]

/-! A port that takes its next frame leaves the gates (R265, R270). -/

/-- The gates stand, and so does what GATE_STAT shows of them. -/
def GatesStand (s t : State) : Prop :=
  t.net.gates = s.net.gates ∧ ∀ f i, regPart (Fld.base f) = .regTmg → f.lo ≤ f.hi → 15 < f.lo → t.fldI f i = s.fldI f i

theorem GatesStand.refl (s : State) : GatesStand s s := ⟨rfl, fun _ _ _ _ _ => rfl⟩

theorem GatesStand.trans (h : GatesStand s t) (h' : GatesStand t u) : GatesStand s u := by
  obtain ⟨hg, hf⟩ := h
  obtain ⟨hg', hf'⟩ := h'
  exact ⟨hg'.trans hg, fun f i hb hlo h15 => (hf' f i hb hlo h15).trans (hf f i hb hlo h15)⟩

theorem gatesStand_of_evolves (h : Evolves w s t) (htraffic : .traffic ∉ w) (hregs : .regTmg ∉ w) : GatesStand s t := by
  have hsame := h.same .traffic htraffic
  simp only [Part.Same, Prod.mk.injEq] at hsame
  obtain ⟨-, -, -, -, -, -, -, -, hgates, -⟩ := hsame
  exact ⟨hgates, fun f i hb _ _ => h.fldI_eq f i (by rw [hb]; exact hregs)⟩

theorem gatesStand_releaseDesc (d : Desc) : GatesStand s (releaseDesc d s) :=
  gatesStand_of_evolves (releaseDesc_evolves .refl Sub.rfl) (by decide) (by decide)

theorem gatesStand_popQueue (q : Nat) : GatesStand s (popQueue q s) := ⟨rfl, fun _ _ _ _ _ => rfl⟩

theorem gatesStand_countOnly (src ev : Nat) : GatesStand s (countOnly src ev s) :=
  gatesStand_of_evolves (countOnly_evolves .refl Sub.rfl) (by decide) (by decide)

theorem gatesStand_cleanHead (lport q fuel : Nat) (s : State) : GatesStand s (cleanHead lport q fuel s) := by
  induction fuel generalizing s with
  | zero => exact .refl s
  | succ fuel ih =>
    unfold cleanHead
    split
    · exact .refl s
    · split
      · dsimp only
        refine GatesStand.trans ?_ (((gatesStand_popQueue q).trans (gatesStand_releaseDesc _)).trans (ih _))
        split
        · exact gatesStand_of_evolves (handleStale_evolves .refl Sub.rfl) (by decide) (by decide)
        · exact gatesStand_countOnly _ _
      · split
        · dsimp only
          refine GatesStand.trans ?_ (((gatesStand_countOnly _ _).trans (gatesStand_popQueue q)).trans
            ((gatesStand_releaseDesc _).trans (ih _)))
          exact ⟨congrArg Net.gates (State.bumpI_net ..), fun f i _ hlo h15 =>
            fldI_setFldI_disjoint F.TMG_GATE_STAT_OVERSIZE f lport i _ (by decide) (by decide) hlo (Or.inr h15)⟩
        · exact .refl s

theorem gatesStand_startFrame (h : GatesStand s u) (lport q : Nat) : GatesStand s (startFrame lport q u) := by
  unfold startFrame
  split
  · exact h
  · exact h.trans ⟨rfl, fun _ _ _ _ _ => rfl⟩

theorem gatesStand_onNet (h : GatesStand s u) (f : Net → Net) (hf : (f u.net).gates = u.net.gates) :
    GatesStand s (u.onNet f) := h.trans ⟨hf, fun _ _ _ _ _ => rfl⟩

theorem gatesStand_selectNext (lport : Nat) : GatesStand s (selectNext lport s) := by
  unfold selectNext
  dsimp only
  split
  · exact gatesStand_startFrame (.refl s) ..
  · split
    · exact .refl s
    · split
      · exact .refl s
      · split
        · exact gatesStand_startFrame (gatesStand_onNet (gatesStand_onNet (.refl s) _ rfl) _ rfl) ..
        · exact gatesStand_onNet (gatesStand_startFrame (gatesStand_onNet (gatesStand_onNet (.refl s) _ rfl) _ rfl) ..) _ rfl

theorem gatesStand_kick (lport : Nat) (s : State) : GatesStand s (kick lport s) := by
  unfold kick
  split
  · exact .refl s
  · refine GatesStand.trans ?_ (gatesStand_selectNext lport)
    exact foldl_keeps (P := GatesStand s) (fun u q hu => hu.trans (gatesStand_cleanHead ..)) _ _ (.refl s)

theorem gatesOf_kick (lport n : Nat) : gatesOf (kick lport s) n = gatesOf s n := by
  simp only [gatesOf, (gatesStand_kick lport s).1]

/-! The gate lists at their times (R270 to R272). -/

/-- A pending list is active, and told. -/
def gateSwitched (n at_ last : Nat) (s : State) : State :=
  emit 0x542 0x405 1 ((1 - activeBank s n) * 65536 + n)
    ((((onGates n (fun _ => ⟨last, at_, 0, at_, none, false⟩) s).setFldI F.TMG_GATE_STAT_BANK n (1 - activeBank s n)).setFldI
      F.TMG_GATE_STAT_ENABLED n 1).setFldI F.TMG_GATE_STAT_PENDING n 0)

theorem exec_gateSwitch {lport : Fin 64} {at_ last : Nat} (hpending : (gatesOf s lport.val).pending = some (at_, last)) :
    exec (.gateSwitch lport) s = .next (kick lport.val
      (if !alwaysOpen 7 (gateList (gateSwitched lport.val at_ last s) lport.val (1 - activeBank s lport.val) last) then
        emit 0x542 0x406 2 lport.val ((gateSwitched lport.val at_ last s).setFldI F.TMG_GATE_STAT_C0_CLOSED lport.val
          (b2n (!alwaysOpen 7 (gateList (gateSwitched lport.val at_ last s) lport.val (1 - activeBank s lport.val) last))))
      else (gateSwitched lport.val at_ last s).setFldI F.TMG_GATE_STAT_C0_CLOSED lport.val
        (b2n (!alwaysOpen 7 (gateList (gateSwitched lport.val at_ last s) lport.val (1 - activeBank s lport.val) last))))) := by
  change execGateSwitch lport s = _
  unfold execGateSwitch
  dsimp only
  rw [hpending]
  rfl

theorem gatesOf_emit (src ev sev data n : Nat) : gatesOf (emit src ev sev data s) n = gatesOf s n := rfl

theorem gatesOf_gateSwitched (n at_ last : Nat) : gatesOf (gateSwitched n at_ last s) n = ⟨last, at_, 0, at_, none, false⟩ := by
  unfold gateSwitched
  rw [gatesOf_emit, gatesOf_setFldI, gatesOf_setFldI, gatesOf_setFldI, gatesOf_onGates]

theorem now_onGates (n : Nat) (f : Gates → Gates) : (onGates n f s).now = s.now := rfl

theorem emitted_gateSwitched (n at_ last : Nat) :
    Emitted s (gateSwitched n at_ last s) 0x542 1 0x405 ((1 - activeBank s n) * 65536 + n) :=
  emitted_emit_of _ _ _ _ ((State.now_setFldI ..).trans ((State.now_setFldI ..).trans ((State.now_setFldI ..).trans (now_onGates ..))))

theorem now_emit_eq (src ev sev data : Nat) : (emit src ev sev data s).now = s.now := rfl

theorem now_gateSwitched (n at_ last : Nat) : (gateSwitched n at_ last s).now = s.now :=
  (now_emit_eq ..).trans ((State.now_setFldI ..).trans ((State.now_setFldI ..).trans ((State.now_setFldI ..).trans (now_onGates ..))))

theorem emitted_setFldI {src sev ev data : Nat} (h : Emitted s u src sev ev data) (f : Fld) (i v : Nat) :
    Emitted s (u.setFldI f i v) src sev ev data := by
  unfold Emitted at h ⊢
  rwa [State.setFldI_ctl]

theorem emitted_emit_mono {src sev ev data : Nat} (h : Emitted s u src sev ev data) (src' ev' sev' data' : Nat) :
    Emitted s (emit src' ev' sev' data' u) src sev ev data :=
  (emit_evolves .refl Sub.rfl : Evolves _ u (emit src' ev' sev' data' u)).emitted_mono (by decide) h

theorem gateCfg_gateSwitched (n at_ last : Nat) : (gateSwitched n at_ last s).net.gateCfg = s.net.gateCfg := by
  unfold gateSwitched
  rw [emit_net, State.setFldI_net, State.setFldI_net, State.setFldI_net]
  rfl

theorem gateList_of_gateCfg (h : t.net.gateCfg = s.net.gateCfg) (lport bank last : Nat) :
    gateList t lport bank last = gateList s lport bank last := by
  have hentry : gateEntry t = gateEntry s := by
    funext lport bank i
    simp only [gateEntry, h]
  simp only [gateList, hentry]

theorem exec_gateListStopped {lport : Fin 64} (hactive : listActive s lport.val = true)
    (hstopping : (gatesOf s lport.val).stopping = true) : exec (.gateListStopped lport) s = .next (kick lport.val
      (((onGates lport.val (fun g => { g with stopping := false }) s).setFldI F.TMG_GATE_STAT_ENABLED lport.val 0).setFldI
        F.TMG_GATE_STAT_C0_CLOSED lport.val 0)) := by
  change execGateListStopped lport s = _
  unfold execGateListStopped
  exact if_pos ⟨hactive, hstopping⟩

theorem exec_gateEntryEnd {lport : Fin 64} (hactive : listActive s lport.val = true) : exec (.gateEntryEnd lport) s =
    .next (kick lport.val (onGates lport.val (fun g => { g with
      entry := if decide ((gatesOf s lport.val).last ≤ (gatesOf s lport.val).entry) then 0 else g.entry + 1
      entryStart := (gatesOf s lport.val).entryStart +
        (gateEntry s lport.val (activeBank s lport.val) (gatesOf s lport.val).entry).2
      cycleStart := if decide ((gatesOf s lport.val).last ≤ (gatesOf s lport.val).entry) then (gatesOf s lport.val).entryStart +
        (gateEntry s lport.val (activeBank s lport.val) (gatesOf s lport.val).entry).2 else g.cycleStart }) s)) := by
  change execGateEntryEnd lport s = _
  unfold execGateEntryEnd
  exact if_neg (by simp [hactive])

/-! Histograms (R274). -/

theorem hist_go (h : MayWrite path session 0x0400008C s) :
    (writeGate path.val session (F.TMG_HIST_SEL_QUEUE.addr 0) value s).2 = true := writeGate_performed value h

/-- The bins of a queue in TMG_HIST_DATA. -/
def histShown (q : Nat) (s : State) : State :=
  (List.range 32).foldl (fun s i => s.setFldI F.TMG_HIST_DATA_COUNT i (s.net.hist.at (32 * q + i))) s

/-- The bins of a queue are cleared where that is asked. -/
def histCleared (clear : Bool) (q : Nat) (s : State) : State :=
  if clear then s.onNet fun n => { n with hist := n.hist.filter fun e => e.1 / 32 != q } else s

theorem exec_tmgHistSel (h : MayWrite path session 0x0400008C s) : exec (.tmgHistSel path session value) s =
    .next ((histCleared (bitAt value.toNat 30) (bitsOf value.toNat 15 0) (histShown (bitsOf value.toNat 15 0)
      (gated path session 0x0400008C value s))).setFld F.TMG_HIST_SEL_DONE 1) := by
  change execTmgHistSel path session value s = _
  unfold execTmgHistSel
  simp only [hist_go h, Bool.not_true, Bool.false_eq_true, if_false]
  rfl

theorem histData_addr (i : Nat) (hi : i < 32) : F.TMG_HIST_DATA_COUNT.addr i = 0x04000100 + 4 * i := by
  simp only [Fld.addr, F.TMG_HIST_DATA_COUNT]; omega

theorem histShown_bin (q : Nat) {i : Nat} (hi : i < 32) :
    (histShown q s).fldI F.TMG_HIST_DATA_COUNT i = s.net.hist.at (32 * q + i) % 2 ^ 32 := by
  unfold histShown
  refine foldl_meets (P := fun u : State => u.net = s.net)
    (Q := fun u : State => u.fldI F.TMG_HIST_DATA_COUNT i = s.net.hist.at (32 * q + i) % 2 ^ 32) (List.range 32) List.nodup_range
    (List.mem_range.mpr hi) s rfl (fun u j _ _ hu => (State.setFldI_net ..).trans hu) (fun u hu => ?_) fun u j hj hne hu => ?_
  · exact (fldI_setFldI_same F.TMG_HIST_DATA_COUNT i _ (by decide) (by decide)).trans (by rw [hu]; rfl)
  · have hj := List.mem_range.mp hj
    exact (fldI_setFldI_other _ _ _ _ _ (by rw [histData_addr i hi, histData_addr j hj]; omega)).trans hu

theorem fldI_histCleared (clear : Bool) (q : Nat) (f : Fld) (i : Nat) : (histCleared clear q s).fldI f i = s.fldI f i := by
  unfold histCleared
  split <;> rfl

theorem hist_histCleared (q : Nat) {i : Nat} (hi : i < 32) : (histCleared true q s).net.hist.at (32 * q + i) = 0 := by
  unfold histCleared
  rw [if_pos rfl]
  exact Tab.at_filter_of_false (fun x => by simp [show (32 * q + i) / 32 = q by omega]) _

/-! The background media queue (R273). -/

theorem exec_mediaQueueGrant {bytes : Nat} (h : mediaLacks s + bytes * 100 ≤ s.fld F.TMG_BG_CFG_BURST_MIB * 2 ^ 20 * 100) :
    exec (.mediaQueueGrant bytes) s =
      .next (nextRebuild (s.onNet fun n => { n with media := ⟨mediaLacks s + bytes * 100, s.now⟩ })) := by
  change execMediaQueueGrant bytes s = _
  unfold execMediaQueueGrant
  exact if_neg (Nat.not_lt.mpr h)

theorem media_nextRebuild : (nextRebuild s).net.media = s.net.media :=
  congrArg Net.media (net_of_evolves (nextRebuild_evolves .refl Sub.rfl : Evolves _ s (nextRebuild s)) (by decide))

theorem queueCfg_onNet (q : Nat) (e : QEntry) (f : Net → Tab Bucket) :
    (s.onNet fun n => { n with queueCfg := n.queueCfg.put q e, shaper := f n }).net.queueCfg.at q = e := by
  simp [State.onNet]

theorem nodeCfg_onNet (k : Nat) (e : QEntry) (f : Net → Tab Bucket) :
    (s.onNet fun n => { n with nodeCfg := n.nodeCfg.put k e, nodeShaper := f n }).net.nodeCfg.at k = e := by
  simp [State.onNet]

theorem gateCfg_onNet (k w : Nat) : (s.onNet fun n => { n with gateCfg := n.gateCfg.put k w }).net.gateCfg.at k = w := by
  simp [State.onNet]

/-- Settles O49: the gate of a write leaves the tables, a commit's time is at least 1 µs away for a cycle is never empty, and a
port that takes its next frame leaves the gates. -/
theorem trafficTablesComplete : Obligations.TrafficTablesComplete := by
  unfold Obligations.TrafficTablesComplete
  refine ⟨fun path session value s hwrite hqueue => ?qRead, fun path session value s hwrite hlock hqueue hempty => ?qWrite,
    fun path session value s hwrite hlock hnode => ?nodeWrite,
    fun path session value s hwrite hlock hqueue hframes hport => ?qRefused, fun path session value s hwrite => ?polRead,
    fun path session value s hwrite hlock => ?polWrite, fun path session value s hwrite => ?gateRead,
    fun path session value s hwrite hlock hnone => ?gateWrite, fun path session value s hwrite hlock hsome => ?gateRefused,
    fun path session value s hwrite => ?commit, fun path session value s hwrite hactive => ?stop,
    fun lport at_ last s hpending => ?switch, fun lport s hactive hstopping => ?stopped, fun lport s hactive => ?entryEnd,
    fun path session value s hwrite => ?hist, fun bytes s htokens => ?media⟩
  case qRead =>
    obtain ⟨hfirst, hdepth, hsel⟩ := rawWord_putQData (s := qSelected path session value s) (queueEntry s (bitsOf value.toNat 15 0))
      (min (2 ^ 20 - 1) (queueDepth s (bitsOf value.toNat 15 0)))
    exact ⟨_, exec_tmgQRead hwrite hqueue, (fldI_congr F.TMG_Q_SEL_DONE 0 hsel).trans done_qSelected, hfirst, hdepth,
      (net_putQData ..).trans net_qSelected⟩
  case qWrite =>
    refine ⟨_, (exec_tmgQWrite hwrite hlock).trans ((if_neg (by simp [hqueue])).trans (if_neg fun h => h.1 hempty)), ?_, ?_⟩
    · exact queueCfg_onNet ..
    · exact (fldI_onNet ..).trans done_qSelected
  case nodeWrite =>
    refine ⟨_, (exec_tmgQWrite hwrite hlock).trans (if_pos hnode), ?_, ?_⟩
    · exact nodeCfg_onNet ..
    · exact (fldI_onNet ..).trans done_qSelected
  case qRefused =>
    exact ⟨_, (exec_tmgQWrite hwrite hlock).trans ((if_neg (by simp [hqueue])).trans (if_pos ⟨hframes, Or.inl hport⟩)),
      (State.setFld_net ..).trans net_qSelected, fld_setFld_one F.TMG_Q_SEL_REFUSED (by decide) (by decide)⟩
  case polRead =>
    refine ⟨_, exec_tmgPolRead hwrite, ?_, ?_, fld_setFld_one _ (by decide) (by decide)⟩
    · exact (rawWord_setFldI F.TMG_POL_SEL_DONE 0 1 _ (by decide)).trans (rawWord_polShown ..)
    · exact (congrArg (fun n : Net => n.policers.at _) (State.setFld_net ..)).trans ((policer_polCleared ..).trans
        (by rw [net_polShown, net_gateStored]))
  case polWrite =>
    refine ⟨_, exec_tmgPolWrite hwrite hlock, ?_⟩
    refine (policer_polWritten ..).trans ?_
    rw [State.setFld_net, net_gateStored, State.now_setFld, now_gateStored]
  case gateRead =>
    obtain ⟨hgates, hduration, hdone, hnet⟩ := gateShown_fields (s := gateSelStored path session value s)
      (s.net.gateCfg.at (gateKey (bitsOf value.toNat 25 20) (activeBank s (bitsOf value.toNat 25 20)) (bitsOf value.toNat 9 0)))
    exact ⟨_, exec_tmgGateRead hwrite, hgates, hduration, hdone, hnet.trans (net_gateStored _)⟩
  case gateWrite =>
    refine ⟨_, (exec_tmgGateWrite hwrite hlock).trans (if_neg (by simp [hnone])), ?_, ?_⟩
    · exact gateCfg_onNet ..
    · exact (fldI_onNet ..).trans (fld_setFld_one F.TMG_GATE_SEL_DONE (by decide) (by decide))
  case gateRefused =>
    exact ⟨_, (exec_tmgGateWrite hwrite hlock).trans (if_pos (Option.isSome_iff_ne_none.mpr hsome)),
      (State.setFld_net ..).trans net_gateSelected, fld_setFld_one F.TMG_GATE_SEL_REFUSED (by decide) (by decide)⟩
  case commit =>
    refine ⟨_, exec_tmgGateCommit hwrite, ?_, ?_, le_commitTime _⟩
    · rw [gatesOf_setFldI, gatesOf_onGates]
    · exact fldI_setFldI_same F.TMG_GATE_STAT_PENDING _ 1 (by decide) (by decide)
  case stop =>
    refine ⟨_, exec_tmgGateStop hwrite, ?_, ?_, ?_⟩
    · rw [gatesOf_setFldI, gatesOf_onGates, gatesOf_commitGated, hactive]
    · refine Eq.trans (congrArg (· == 1) ?_) ((listActive_commitGated (path := path) (session := session) (value := value) _).trans hactive)
      exact fldI_setFldI_disjoint F.TMG_GATE_STAT_PENDING F.TMG_GATE_STAT_ENABLED _ _ _ (by decide) (by decide) (by decide) (by decide)
    · exact fldI_setFldI_same F.TMG_GATE_STAT_PENDING _ 0 (by decide) (by decide)
  case switch =>
    refine ⟨_, exec_gateSwitch hpending, ?_, ?_, fun hclosed => ?_⟩
    · rw [gatesOf_kick]
      split
      · rw [gatesOf_emit, gatesOf_setFldI, gatesOf_gateSwitched]
      · rw [gatesOf_setFldI, gatesOf_gateSwitched]
    · refine emitted_kick ?_ _
      split
      · exact emitted_emit_mono (emitted_setFldI (emitted_gateSwitched ..) ..) ..
      · exact emitted_setFldI (emitted_gateSwitched ..) ..
    · refine emitted_kick ?_ _
      rw [gateList_of_gateCfg (gateCfg_gateSwitched ..), hclosed]
      exact emitted_emit_of _ _ _ _ ((State.now_setFldI ..).trans (now_gateSwitched ..))
  case stopped =>
    obtain ⟨-, hstat⟩ := gatesStand_kick lport.val (((onGates lport.val (fun g => { g with stopping := false }) s).setFldI
      F.TMG_GATE_STAT_ENABLED lport.val 0).setFldI F.TMG_GATE_STAT_C0_CLOSED lport.val 0)
    refine ⟨_, exec_gateListStopped hactive hstopping, ?_, ?_, ?_⟩
    · rw [gatesOf_kick, gatesOf_setFldI, gatesOf_setFldI, gatesOf_onGates]
    · have henabled := (hstat F.TMG_GATE_STAT_ENABLED lport.val rfl (by decide) (by decide)).trans
        ((fldI_setFldI_disjoint F.TMG_GATE_STAT_C0_CLOSED F.TMG_GATE_STAT_ENABLED _ _ _ (by decide) (by decide) (by decide)
          (by decide)).trans (fldI_setFldI_same F.TMG_GATE_STAT_ENABLED lport.val 0 (by decide) (by decide)))
      exact beq_eq_false_iff_ne.mpr fun h => absurd (henabled.symm.trans h) (by decide)
    · have hopen := (hstat F.TMG_GATE_STAT_C0_CLOSED lport.val rfl (by decide) (by decide)).trans
        (fldI_setFldI_same F.TMG_GATE_STAT_C0_CLOSED lport.val 0 (by decide) (by decide))
      exact beq_iff_eq.mpr hopen
  case entryEnd =>
    refine ⟨_, exec_gateEntryEnd hactive, ?_⟩
    refine (gatesOf_kick ..).trans ((gatesOf_onGates ..).trans ?_)
    simp only [decide_eq_true_eq]
  case hist =>
    refine ⟨_, exec_tmgHistSel hwrite, fun i => ?_, fld_setFld_one _ (by decide) (by decide), fun i hclear => ?_⟩
    · refine (fldI_setFldI_other F.TMG_HIST_SEL_DONE F.TMG_HIST_DATA_COUNT 0 i.val 1 (by
        rw [histData_addr i.val i.isLt]; simp only [Fld.addr, F.TMG_HIST_SEL_DONE]; omega)).trans ((fldI_histCleared ..).trans ((histShown_bin _ i.isLt).trans ?_))
      rw [net_gated]
    · rw [State.setFld_net, hclear]
      exact hist_histCleared _ i.isLt
  case media => exact ⟨_, exec_mediaQueueGrant htokens, media_nextRebuild⟩

end Sys2Proof.Machine
end

section
/-! PROOFS. The role orders and a planned handover (R366, R370): the gate of an order, what a change of role keeps, and what a
group below its floor changes. -/

namespace Sys2Proof.Machine

variable {s t u : State} {path : Fin 5} {session : Nat} {value : Word} {w : List Part}

/-! What the redundancy block's orders read. -/

theorem red_of_evolves (h : Evolves w s t) (hleash : .leash ∉ w) (hreplicas : .replicas ∉ w) (hroles : .roles ∉ w) : t.red = s.red := by
  have hl := h.same .leash hleash
  have hr := h.same .replicas hreplicas
  have ho := h.same .roles hroles
  simp only [Part.Same, Prod.mk.injEq] at hl hr ho
  cases hx : t.red
  cases hy : s.red
  simp_all

theorem red_gated (path : Fin 5) (session addr : Nat) (value : Word) : (gated path session addr value s).red = s.red :=
  red_of_evolves (writeGate_evolves_refl path.val session addr value s) (by decide) (by decide) (by decide)

/-- Every field outside CTL stands. -/
def FieldsStand (s t : State) : Prop := ∀ f : Fld, 0x1000000 ≤ f.addr 0 → t.fld f = s.fld f

theorem fieldsStand_gated (path : Fin 5) (session addr : Nat) (value : Word) : FieldsStand s (gated path session addr value s) :=
  fun _ hf => fld_gated path session addr value s hf

theorem FieldsStand.groupActive (h : FieldsStand s t) : groupActive t = groupActive s := by
  simp only [Machine.groupActive, inGroup, redMode, redState, h F.RED_MODE_MODE (by decide), h F.RED_STAT_STATE (by decide)]

theorem FieldsStand.redState (h : FieldsStand s t) : redState t = redState s := h F.RED_STAT_STATE (by decide)

theorem FieldsStand.role (h : FieldsStand s t) : role t = role s := h F.RED_MODE_ROLE (by decide)

theorem FieldsStand.roleInMode (h : FieldsStand s t) (r : Nat) : roleInMode t r = roleInMode s r := by
  unfold Machine.roleInMode
  rw [show redMode t = redMode s from h F.RED_MODE_MODE (by decide)]

theorem FieldsStand.peersInHeel (h : FieldsStand s t) : peersInHeel t = peersInHeel s := by
  simp only [Machine.peersInHeel, Machine.role, h F.RED_MODE_ROLE (by decide), h F.RED_STAT_HEEL (by decide)]

theorem FieldsStand.ableWithout (h : FieldsStand s t) (r : Nat) : ableWithout t r = ableWithout s r := by
  simp only [Machine.ableWithout, h.roleInMode, h.role, h.redState, activeRole, h F.RED_STAT_HEEL (by decide),
    h F.RED_STAT_ACTIVE_VALID (by decide), h F.RED_STAT_ACTIVE_ROLE (by decide)]

/-! The gate of an order. -/

/-- The state after the gate of a write to RED_ROLE_ORDER. -/
abbrev roleGated (path : Fin 5) (session : Nat) (value : Word) (s : State) : State := gated path session 0x0E000054 value s

theorem roleGate_go (h : MayWrite path session 0x0E000054 s) :
    (writeGate path.val session (F.RED_ROLE_ORDER_OP.addr 0) value s).2 = true := writeGate_performed value h

/-- An order that is taken runs, and its RESULT stands. -/
theorem roleOrder_runs {op : Nat} (run : Nat → State → State × Nat) (h : MayWrite path session 0x0E000054 s)
    (hop : bitsOf value.toNat 31 28 = op) (hidle : s.fld F.RED_ORDER_STAT_BUSY = 0)
    (hmode : roleInMode s (bitsOf value.toNat 1 0) = true) {r : Nat}
    (hrun : run (bitsOf value.toNat 1 0) (roleGated path session value s) = (u, r)) :
    roleOrder op path session value run s = u.setFld F.RED_ORDER_STAT_RESULT r := by
  have hfields := fieldsStand_gated (s := s) path session 0x0E000054 value
  have hbusy : (roleGated path session value s).fld F.RED_ORDER_STAT_BUSY ≠ 1 := by
    rw [hfields F.RED_ORDER_STAT_BUSY (by decide), hidle]; decide
  have hmode' : (!roleInMode (roleGated path session value s) (bitsOf value.toNat 1 0)) ≠ true := by
    rw [hfields.roleInMode, hmode]; decide
  unfold roleOrder
  simp only [roleGate_go h, hop, Bool.not_true, Bool.false_eq_true, ne_eq, not_true_eq_false, or_self, if_false]
  refine (if_neg hbusy).trans ((if_neg hmode').trans ?_)
  rw [show run (bitsOf value.toNat 1 0) (writeGate path.val session (F.RED_ROLE_ORDER_OP.addr 0) value s).1 = (u, r) from hrun]

theorem roleOrder_refused {op : Nat} (run : Nat → State → State × Nat) (h : MayWrite path session 0x0E000054 s)
    (hop : bitsOf value.toNat 31 28 = op) (hbusy : s.fld F.RED_ORDER_STAT_BUSY = 1) :
    roleOrder op path session value run s = (roleGated path session value s).setFld F.RED_ORDER_STAT_REFUSED 1 := by
  have hbusy' : (roleGated path session value s).fld F.RED_ORDER_STAT_BUSY = 1 :=
    (fieldsStand_gated (s := s) path session 0x0E000054 value F.RED_ORDER_STAT_BUSY (by decide)).trans hbusy
  unfold roleOrder
  simp only [roleGate_go h, hop, Bool.not_true, Bool.false_eq_true, ne_eq, not_true_eq_false, or_self, if_false]
  exact if_pos hbusy'

theorem result_roleOrder {r : Nat} (h : r < 16) : (u.setFld F.RED_ORDER_STAT_RESULT r).fld F.RED_ORDER_STAT_RESULT = r :=
  (fld_setFld_same F.RED_ORDER_STAT_RESULT r (by decide) (by decide)).trans (Nat.mod_eq_of_lt h)

theorem busy_roleOrder (r : Nat) : (u.setFld F.RED_ORDER_STAT_RESULT r).fld F.RED_ORDER_STAT_BUSY = u.fld F.RED_ORDER_STAT_BUSY :=
  fld_setFld_disjoint _ _ _ (by decide) (by decide) (by decide) (by decide)

theorem emitted_setFld {src sev ev data : Nat} (h : Emitted s u src sev ev data) (f : Fld) (v : Nat) :
    Emitted s (u.setFld f v) src sev ev data := emitted_setFldI h f 0 v

/-! Changes of role (R355). -/

theorem fld_setRoleBit_other (f g : Fld) (r : Nat) (b : Bool) (h : g.addr 0 ≠ f.addr 0) :
    (setRoleBit f r b s).fld g = s.fld g := fld_setFld_other f g _ h

theorem redState_setRoleBit (f : Fld) (r : Nat) (b : Bool) (hlo : f.lo ≤ f.hi) (hhi : f.hi < 28) :
    redState (setRoleBit f r b s) = redState s :=
  fld_setFld_disjoint f F.RED_STAT_STATE _ hlo (by omega) (by decide) (Or.inr hhi)

theorem fld_setRole_other (new : Nat) (g : Fld) (h : g.addr 0 ≠ 0x0E000048) : (setRole new s).fld g = s.fld g := by
  unfold setRole
  dsimp only
  split
  · rfl
  · exact (fldI_emit ..).trans ((fld_setRoleBit_other F.RED_STAT_HEEL g _ _ h).trans (fld_setFld_other F.RED_STAT_STATE g _ h))

theorem now_setRole (new : Nat) : (setRole new s).now = s.now :=
  (setRole_evolves .refl Sub.rfl : Evolves _ s (setRole new s)).now_eq (by decide)

theorem emitted_setRole {old : Nat} (new : Nat) (hold : redState u = old) (hne : old ≠ new) (hnow : u.now = s.now) :
    Emitted s (setRole new u) 0x5E0 1 0xE01 (old * 16 + new) := by
  unfold setRole
  dsimp only
  rw [hold, if_neg hne]
  exact emitted_emit_of _ _ _ _ ((State.now_setFld ..).trans ((State.now_setFld ..).trans hnow))

theorem fld_countQuorum_other (g : Fld) (h : g.addr 0 ≠ 0x0E000048) : (countQuorum s).fld g = s.fld g :=
  fld_setFld_other F.RED_STAT_QUORUM g _ h

theorem fld_activeIs_other (r : Option Nat) (g : Fld) (h : g.addr 0 ≠ 0x0E000048) : (activeIs r s).fld g = s.fld g :=
  (fld_setFld_other F.RED_STAT_ACTIVE_VALID g _ h).trans (fld_setFld_other F.RED_STAT_ACTIVE_ROLE g _ h)

/-! A unit that stands down (R365). -/

/-- The drives are stopped. -/
def drivesStopped (b : Bool) (s : State) : State := s.onDrv fun d => { d with stopped := b }

theorem standDown_eq : standDown s = portsOff (countQuorum (setRole 7 (drivesStopped true s))) := rfl

theorem fld_standDown (g : Fld) (h : g.addr 0 = 0x0E000058) (hbase : regPart g.base = .regRed) :
    (standDown s).fld g = s.fld g := by
  have hports (v : State) : (portsOff v).fld g = v.fld g :=
    (portsOff_evolves .refl Sub.rfl : Evolves _ v (portsOff v)).fldI_eq g 0 (by rw [hbase]; decide)
  rw [standDown_eq, hports, fld_countQuorum_other g (by rw [h]; decide), fld_setRole_other 7 g (by rw [h]; decide)]
  rfl

theorem fld_keepFloor (g : Fld) (h : g.addr 0 = 0x0E000058) (hbase : regPart g.base = .regRed) :
    (keepFloor s).fld g = s.fld g := by
  unfold keepFloor floorRole
  split
  · split
    · exact fld_standDown g h hbase
    · rfl
  · rfl

theorem standDown_stops (hstate : redState s = 6) :
    Emitted s (standDown s) 0x5E0 1 0xE01 103 ∧ (standDown s).drv.stopped = true := by
  have hports (v : State) : Evolves _ v (portsOff v) := portsOff_evolves .refl Sub.rfl
  have hcount (v : State) : Evolves _ v (countQuorum v) := countQuorum_evolves .refl Sub.rfl
  have hset (v : State) : Evolves _ v (setRole 7 v) := setRole_evolves .refl Sub.rfl
  have hslots := ((((hset (drivesStopped true s)).mono (Sub.of Sub.rfl rfl)).trans
    ((hcount (setRole 7 (drivesStopped true s))).mono (Sub.of Sub.rfl rfl))).trans
    ((hports _).mono (Sub.of Sub.rfl rfl)) : Evolves [.events, .counters, .sampling, .regs, .regPrt, .regRed] _ _).same .driveSlots
      (by decide)
  simp only [Part.Same, Prod.mk.injEq] at hslots
  rw [standDown_eq]
  refine ⟨?_, hslots.2.1⟩
  exact (hports _).emitted_mono (by decide) ((hcount _).emitted_mono (by decide)
    (emitted_setRole (u := drivesStopped true s) 7 hstate (by decide) rfl))

/-! A unit that joins (R355, R366). -/

/-- A unit in JOINING forgets who was active and what it copied. -/
def joiningReplica (s : State) : State := activeIs none (clearReplica (setRole 2 (drivesStopped false s)))

/-- A unit in JOINING waits from now on. -/
def joiningFrom (s : State) : State := s.onRed fun r => { r with joinFrom := s.now, probing := .none, order := none }

theorem enterJoining_eq : enterJoining s =
    if roleInMode (countQuorum (joiningFrom (joiningReplica s))) (role (countQuorum (joiningFrom (joiningReplica s)))) then
      countQuorum (joiningFrom (joiningReplica s))
    else emit 0x5E4 0xE12 3 4 (countQuorum (joiningFrom (joiningReplica s))) := rfl

theorem joiningReplica_evolves : Evolves [.events, .counters, .sampling, .commands, .replicas, .roles, .regs, .regRed]
    (setRole 2 (drivesStopped false s)) (joiningReplica s) :=
  activeIs_evolves (clearReplica_evolves .refl (Sub.of Sub.rfl rfl)) (Sub.of Sub.rfl rfl)

theorem joiningReplica_leaves {old : Nat} (hold : redState s = old) (hne : old ≠ 2) :
    Emitted s (joiningReplica s) 0x5E0 1 0xE01 (old * 16 + 2) ∧ (joiningReplica s).drv.stopped = false ∧
      (joiningReplica s).now = s.now := by
  have hset : Evolves _ (drivesStopped false s) (setRole 2 (drivesStopped false s)) := setRole_evolves .refl Sub.rfl
  have hreplica := joiningReplica_evolves (s := s)
  have hslots := (hset.mono (Sub.of Sub.rfl rfl) : Evolves [.events, .counters, .sampling, .regs, .regRed] _ _).same .driveSlots
    (by decide)
  have hslots' := hreplica.same .driveSlots (by decide)
  simp only [Part.Same, Prod.mk.injEq] at hslots hslots'
  exact ⟨hreplica.emitted_mono (by decide) (emitted_setRole (s := s) (u := drivesStopped false s) 2 hold hne rfl),
    hslots'.2.1.trans hslots.2.1, (hreplica.now_eq (by decide)).trans (hset.now_eq (by decide))⟩

theorem enterJoining_evolves_from :
    Evolves [.events, .counters, .sampling, .regs, .regRed] (joiningFrom (joiningReplica s)) (enterJoining s) := by
  have hcount (v : State) : Evolves _ v (countQuorum v) := countQuorum_evolves .refl Sub.rfl
  rw [enterJoining_eq]
  split
  · exact (hcount _).mono (Sub.of Sub.rfl rfl)
  · exact emit_evolves ((hcount _).mono (Sub.of Sub.rfl rfl)) (Sub.of Sub.rfl rfl)

theorem joiningFrom_leaves : (joiningFrom s).drv = s.drv ∧ (joiningFrom s).red.joinFrom = s.now ∧
    (joiningFrom s).ctl = s.ctl ∧ (joiningFrom s).now = s.now := ⟨rfl, rfl, rfl, rfl⟩

/-- What entering JOINING does: the change of role is told, the drives are free, and the join begins now. -/
theorem enterJoining_leaves {old : Nat} (hold : redState s = old) (hne : old ≠ 2) :
    Emitted s (enterJoining s) 0x5E0 1 0xE01 (old * 16 + 2) ∧ (enterJoining s).drv.stopped = false ∧
      (enterJoining s).red.joinFrom = s.now := by
  obtain ⟨hsaid, hdrives, hnow⟩ := joiningReplica_leaves hold hne
  obtain ⟨hdrv, hjoin, hctl, _⟩ := joiningFrom_leaves (s := joiningReplica s)
  have hend := enterJoining_evolves_from (s := s)
  have hslots := hend.same .driveSlots (by decide)
  have hroles := hend.same .roles (by decide)
  simp only [Part.Same, Prod.mk.injEq] at hslots hroles
  refine ⟨hend.emitted_mono (by decide) ?_, hslots.2.1.trans ((congrArg Drv.stopped hdrv).trans hdrives),
    hroles.2.1.trans (hjoin.trans hnow)⟩
  unfold Emitted at hsaid ⊢
  rw [hctl]
  exact hsaid

/-! The orders. -/

/-- What a switch order does (R366). -/
def switchRun (r : Nat) (s : State) : State × Nat :=
  if r = 2 then (s, 4)
  else if !groupActive s ∨ !(peersInHeel s).contains r then (s, 2)
  else ((s.onRed fun x => { x with order := some r }).setFld F.RED_ORDER_STAT_BUSY 1, 0)

theorem exec_redRoleSwitch : exec (.redRoleSwitch path session value) s = .next (roleOrder 1 path session value switchRun s) := rfl

theorem switchRun_taken {r : Nat} (hr : r ≠ 2) (hactive : groupActive s = true) (hheel : (peersInHeel s).contains r = true) :
    switchRun r s = ((s.onRed fun x => { x with order := some r }).setFld F.RED_ORDER_STAT_BUSY 1, 0) := by
  unfold switchRun
  rw [hactive, hheel, if_neg hr, if_neg (by decide)]

theorem switchRun_unable {r : Nat} (hr : r ≠ 2) (h : groupActive s = false ∨ (peersInHeel s).contains r = false) :
    switchRun r s = (s, 2) := by
  unfold switchRun
  rw [if_neg hr, if_pos (h.imp (fun h => by rw [h]; rfl) fun h => by rw [h]; rfl)]

theorem exec_redRoleFence : exec (.redRoleFence path session value) s = .next (roleOrder 2 path session value (fun t s =>
    if !ableWithout s t then (s, 4)
    else if t = role s then (fenceSelf 2 s, 1)
    else (retryVotes (fencePeer 2 t s), 1)) s) := rfl

theorem exec_redRoleRelease : exec (.redRoleRelease path session value) s = .next (roleOrder 3 path session value (fun t s =>
    if t = role s then
      if redState s = 7 ∨ redState s = 8 then (enterJoining (setRoleBit F.RED_STAT_FENCED t false s), 1) else (s, 1)
    else (setRoleBit F.RED_STAT_FENCED t false s, 1)) s) := rfl

theorem exec_redRoleStandDown : exec (.redRoleStandDown path session value) s = .next (roleOrder 4 path session value (fun _ s =>
    if !ableWithout s (role s) then (s, 4) else if groupActive s then (standDown s, 1) else (s, 1)) s) := rfl

theorem emitted_fenceSelf (r : Nat) (hr : role s = r) (hstate : redState s ≠ 8) :
    Emitted s (fenceSelf 2 s) 0x5E0 4 0xE0A (32 + r) := by
  have hports (v : State) : Evolves _ v (portsOff v) := portsOff_evolves .refl Sub.rfl
  have hperst (v : State) : Evolves _ v (holdPerst v) := holdPerst_evolves .refl Sub.rfl
  have hcount (v : State) : Evolves _ v (countQuorum v) := countQuorum_evolves .refl Sub.rfl
  unfold fenceSelf
  rw [if_neg hstate]
  dsimp only
  have hrole : role (setRoleBit F.RED_STAT_FENCED (role s) true s) = r :=
    (fld_setRoleBit_other F.RED_STAT_FENCED F.RED_MODE_ROLE _ _ (by decide)).trans hr
  rw [hrole]
  refine (hports _).emitted_mono (by decide) ((hperst _).emitted_mono (by decide) ((hcount _).emitted_mono (by decide) ?_))
  exact emitted_emit_of 0x5E0 0xE0A 4 (32 + r) ((now_setRole _).trans (State.now_setFld ..))

theorem emitted_fencePeer (r : Nat) : Emitted s (retryVotes (fencePeer 2 r s)) 0x5E0 4 0xE0A (32 + r) := by
  have hvotes (v : State) : Evolves _ v (retryVotes v) := retryVotes_evolves .refl Sub.rfl
  have hsend (v : State) : Evolves _ v (sendAll (.fence r) v) := sendAll_evolves .refl Sub.rfl
  have hdrop : Evolves _ s (dropPeer r s) := dropPeer_evolves .refl Sub.rfl
  refine (hvotes _).emitted_mono (by decide) ?_
  exact emitted_emit_of 0x5E0 0xE0A 4 (32 + r) (((hsend _).now_eq (by decide)).trans ((State.now_setFld ..).trans
    (hdrop.now_eq (by decide))))

/-! The handover (R357, R366). -/

/-- The last record of the epoch has formed, and unit `r` is no longer in HEEL. -/
def lastRecord (r : Nat) (s : State) : State := setRoleBit F.RED_STAT_HEEL r false (formRecord (epochNow s) true s)

/-- The capsules held are pending, and no order is under way. -/
def capsulesPending (s : State) : State :=
  (s.onRed fun x => { x with
    order := none, inQuorum := [], pend := s.cmd.queued.map fun c => ⟨c, false, false⟩, notices := [] }).onCmd
      fun m => { m with queued := [] }

/-- The unit has left its active state: the record has gone, and the capsules held are pending. -/
def handedOver (r : Nat) (s : State) : State := sweepSlots (capsulesPending (lastRecord r s))

/-- The new active unit is told, and the order ends. -/
def handoverTold (r : Nat) (s : State) : State := emit 0x5E0 0xE11 1 r (activeIs (some r) (countQuorum (setRole 4 s)))

theorem exec_handover {r : Nat} (horder : s.red.order = some r) (hactive : groupActive s = true)
    (hdrained : (entriesWhere s fun _ => true) = []) : exec .handover s =
      .next (keepFloor (((handoverTold r (handedOver r s)).setFld F.RED_ORDER_STAT_BUSY 0).setFld F.RED_ORDER_STAT_RESULT 1)) := by
  change execHandover s = _
  unfold execHandover
  rw [horder]
  dsimp only
  rw [if_neg (by simp [hactive, hdrained])]
  rfl

theorem lastRecord_leaves (r : Nat) : (lastRecord r s).cmd.queued = s.cmd.queued ∧ (lastRecord r s).now = s.now := by
  have hrecord : Evolves _ s (formRecord (epochNow s) true s) := formRecord_evolves .refl Sub.rfl
  exact ⟨(congrArg Cmd.queued (State.setFld_cmd ..)).trans (queued_of_evolves hrecord (by decide)),
    (State.now_setFld ..).trans (hrecord.now_eq (by decide))⟩

theorem capsulesPending_leaves : (capsulesPending s).red.order = none ∧ (capsulesPending s).cmd.queued = [] ∧
    (capsulesPending s).red.pend = s.cmd.queued.map (fun c => ⟨c, false, false⟩) ∧ (capsulesPending s).now = s.now :=
  ⟨rfl, rfl, rfl, rfl⟩

theorem handedOver_leaves (r : Nat) : (handedOver r s).red.order = none ∧ (handedOver r s).cmd.queued = [] ∧
    (handedOver r s).red.pend = s.cmd.queued.map (fun c => ⟨c, false, false⟩) ∧ (handedOver r s).now = s.now := by
  obtain ⟨hqueued, hnow⟩ := lastRecord_leaves (s := s) r
  have hsweep (v : State) : Evolves _ v (sweepSlots v) := sweepSlots_evolves .refl Sub.rfl
  have hred (v : State) : (sweepSlots v).red = v.red := red_of_evolves (hsweep v) (by decide) (by decide) (by decide)
  obtain ⟨horder, hempty, hpend, hnow'⟩ := capsulesPending_leaves (s := lastRecord r s)
  unfold handedOver
  rw [hred, queued_sweepSlots, (hsweep _).now_eq (by decide), horder, hempty, hpend, hnow', hqueued, hnow]
  exact ⟨rfl, rfl, rfl, rfl⟩

theorem handoverTold_evolves (r : Nat) : Evolves [.events, .counters, .sampling, .regs, .regRed] s (handoverTold r s) :=
  emit_evolves (activeIs_evolves (countQuorum_evolves (setRole_evolves .refl (Sub.of Sub.rfl rfl)) (Sub.of Sub.rfl rfl))
    (Sub.of Sub.rfl rfl)) (Sub.of Sub.rfl rfl)

theorem emitted_handoverTold (r : Nat) (h : u.now = s.now) : Emitted s (handoverTold r u) 0x5E0 1 0xE11 r := by
  have hrest : Evolves [.events, .counters, .sampling, .regs, .regRed] u (activeIs (some r) (countQuorum (setRole 4 u))) :=
    activeIs_evolves (countQuorum_evolves (setRole_evolves .refl (Sub.of Sub.rfl rfl)) (Sub.of Sub.rfl rfl)) (Sub.of Sub.rfl rfl)
  exact emitted_emit_of 0x5E0 0xE11 1 r ((hrest.now_eq (by decide)).trans h)

theorem exec_handoverDrainLimit {r : Nat} (horder : s.red.order = some r) : exec .handoverDrainLimit s =
    .next (((s.onRed fun x => { x with order := none }).setFld F.RED_ORDER_STAT_BUSY 0).setFld F.RED_ORDER_STAT_RESULT 5) := by
  change execHandoverDrainLimit s = _
  unfold execHandoverDrainLimit
  rw [horder]

/-- Settles O53: the gate leaves what an order reads, and neither a change of role nor a floor kept touches the order's status. -/
theorem roleOrdersComplete : Obligations.RoleOrdersComplete := by
  unfold Obligations.RoleOrdersComplete
  refine ⟨fun path session value s hwrite hop hidle hmode hactive hheel => ?switch,
    fun path session value s hwrite hop hidle hmode hunable => ?unable, fun path session value s hwrite hop hbusy => ?refused,
    fun path session value s hwrite hop hidle hmode hable hstate => ?fence,
    fun path session value s hwrite hop hidle hmode hable => ?unfenced,
    fun path session value s hwrite hop hidle hmode hstate => ?release,
    fun path session value s hwrite hop hidle hmode hable hactive => ?standDown,
    fun r s horder hactive hdrained => ?handover, fun r s horder => ?limit⟩
  case switch =>
    have hfields := fieldsStand_gated (s := s) path session 0x0E000054 value
    refine ⟨_, exec_redRoleSwitch.trans (congrArg Host.Outcome.next (roleOrder_runs _ hwrite hop hidle hmode.1
      (switchRun_taken hmode.2 (hfields.groupActive.trans hactive) (by rw [hfields.peersInHeel]; exact hheel)))), ?_, ?_⟩
    · rw [State.setFld_red, State.setFld_red]; rfl
    · exact (busy_roleOrder 0).trans (fld_setFld_one _ (by decide) (by decide))
  case unable =>
    have hfields := fieldsStand_gated (s := s) path session 0x0E000054 value
    refine ⟨_, exec_redRoleSwitch.trans (congrArg Host.Outcome.next (roleOrder_runs _ hwrite hop hidle hmode.1
      (switchRun_unable hmode.2 (by rw [hfields.groupActive, hfields.peersInHeel]; exact hunable)))), ?_, result_roleOrder (by decide)⟩
    rw [State.setFld_red, red_gated]
  case refused =>
    refine ⟨_, exec_redRoleSwitch.trans (congrArg Host.Outcome.next (roleOrder_refused _ hwrite hop hbusy)), ?_,
      fld_setFld_one _ (by decide) (by decide)⟩
    rw [State.setFld_red, red_gated]
  case fence =>
    have hfields := fieldsStand_gated (s := s) path session 0x0E000054 value
    have hgo : ¬(!ableWithout (roleGated path session value s) (bitsOf value.toNat 1 0)) = true := by
      rw [hfields.ableWithout, hable]; decide
    by_cases hself : bitsOf value.toNat 1 0 = role (roleGated path session value s)
    · refine ⟨_, exec_redRoleFence.trans (congrArg Host.Outcome.next
        (roleOrder_runs _ hwrite hop hidle hmode ((if_neg hgo).trans (if_pos hself)))), result_roleOrder (by decide), ?_⟩
      exact emitted_setFld ((emitted_now (now_gated ..)).1 (emitted_fenceSelf _ hself.symm (by rw [hfields.redState]; exact hstate))) _ _
    · refine ⟨_, exec_redRoleFence.trans (congrArg Host.Outcome.next
        (roleOrder_runs _ hwrite hop hidle hmode ((if_neg hgo).trans (if_neg hself)))), result_roleOrder (by decide), ?_⟩
      exact emitted_setFld ((emitted_now (now_gated ..)).1 (emitted_fencePeer _)) _ _
  case unfenced =>
    have hfields := fieldsStand_gated (s := s) path session 0x0E000054 value
    refine ⟨_, exec_redRoleFence.trans (congrArg Host.Outcome.next
      (roleOrder_runs _ hwrite hop hidle hmode (if_pos (by rw [hfields.ableWithout, hable]; rfl)))), ?_, result_roleOrder (by decide)⟩
    rw [State.setFld_red, red_gated]
  case release =>
    have hfields := fieldsStand_gated (s := s) path session 0x0E000054 value
    have hrole : bitsOf value.toNat 1 0 = role (roleGated path session value s) := by rw [hfields.role]; exact hmode.1
    have hfenced : redState (roleGated path session value s) = 8 := by rw [hfields.redState]; exact hstate
    obtain ⟨hsaid, hdrives, hjoin⟩ := enterJoining_leaves (old := 8)
      (s := setRoleBit F.RED_STAT_FENCED (bitsOf value.toNat 1 0) false (roleGated path session value s))
      ((redState_setRoleBit _ _ _ (by decide) (by decide)).trans hfenced) (by decide)
    have hnow : (setRoleBit F.RED_STAT_FENCED (bitsOf value.toNat 1 0) false (roleGated path session value s)).now = s.now :=
      (State.now_setFld ..).trans (now_gated ..)
    refine ⟨_, exec_redRoleRelease.trans (congrArg Host.Outcome.next (roleOrder_runs _ hwrite hop hidle
      (by rw [hmode.1]; exact hmode.2) ((if_pos hrole).trans (if_pos (Or.inr hfenced))))), ?_, ?_, ?_, result_roleOrder (by decide)⟩
    · exact emitted_setFld ((emitted_now hnow).1 hsaid) _ _
    · rw [State.setFld_drv]; exact hdrives
    · rw [State.setFld_red]; exact hjoin.trans hnow
  case standDown =>
    have hfields := fieldsStand_gated (s := s) path session 0x0E000054 value
    have hgo : ¬(!ableWithout (roleGated path session value s) (role (roleGated path session value s))) = true := by
      rw [hfields.ableWithout, hfields.role, hable]; decide
    have hactive' : groupActive (roleGated path session value s) = true := by rw [hfields.groupActive]; exact hactive
    have hstate : redState (roleGated path session value s) = 6 := by
      simp only [groupActive, Bool.and_eq_true, beq_iff_eq] at hactive'
      exact hactive'.2
    obtain ⟨hsaid, hdrives⟩ := standDown_stops hstate
    refine ⟨_, exec_redRoleStandDown.trans (congrArg Host.Outcome.next
      (roleOrder_runs _ hwrite hop hidle hmode ((if_neg hgo).trans (if_pos hactive')))), ?_, ?_, result_roleOrder (by decide)⟩
    · exact emitted_setFld ((emitted_now (now_gated ..)).1 hsaid) _ _
    · rw [State.setFld_drv]; exact hdrives
  case handover =>
    obtain ⟨hnone, hqueued, hpend, hnow⟩ := handedOver_leaves (s := s) r
    have htold := handoverTold_evolves (s := handedOver r s) r
    have hred := red_of_evolves htold (by decide) (by decide) (by decide)
    have hfloor (v : State) : Evolves _ v (keepFloor v) := keepFloor_evolves .refl Sub.rfl
    have hred' (v : State) : (keepFloor v).red = v.red := red_of_evolves (hfloor v) (by decide) (by decide) (by decide)
    refine ⟨_, exec_handover horder hactive hdrained, ?_, ?_, ?_, ?_, ?_, ?_⟩
    · rw [hred', State.setFld_red, State.setFld_red, hred, hnone]
    · rw [queued_of_evolves (hfloor _) (by decide), State.setFld_cmd, State.setFld_cmd, queued_of_evolves htold (by decide), hqueued]
    · rw [hred', State.setFld_red, State.setFld_red, hred, hpend]
    · rw [fld_keepFloor _ (by decide) rfl, busy_roleOrder]
      exact fld_setFld_zero _ (by decide) (by decide)
    · rw [fld_keepFloor _ (by decide) rfl]
      exact result_roleOrder (by decide)
    · exact (hfloor _).emitted_mono (by decide) (emitted_setFld (emitted_setFld (emitted_handoverTold r hnow) _ _) _ _)
  case limit =>
    refine ⟨_, exec_handoverDrainLimit horder, ?_, ?_, result_roleOrder (by decide)⟩
    · rw [State.setFld_red, State.setFld_red]; rfl
    · exact (busy_roleOrder 5).trans (fld_setFld_zero _ (by decide) (by decide))

end Sys2Proof.Machine
end

section
/-! PROOFS. The Leash links and the records they carry (R349 to R352, R370): what stands of the links when a unit loses one,
what a resend sends, and what the record of an epoch takes. -/

namespace Sys2Proof.Machine

variable {s t u : State} {w : List Part} {link : Fin 2}

/-! What stands of the links. -/

/-- The links stand, and so does which of them are up. -/
structure LinksStand (s t : State) : Prop where
  links : t.red.links = s.red.links
  up : ∀ l : Fin 2, t.fldI F.RED_LINK_STAT_UP l.val = s.fldI F.RED_LINK_STAT_UP l.val

theorem LinksStand.refl (s : State) : LinksStand s s := ⟨rfl, fun _ => rfl⟩

theorem LinksStand.trans (h : LinksStand s t) (h' : LinksStand t u) : LinksStand s u :=
  ⟨h'.links.trans h.links, fun l => (h'.up l).trans (h.up l)⟩

theorem LinksStand.leashUp (h : LinksStand s t) (l : Fin 2) : leashUp t l.val = leashUp s l.val := by
  unfold Machine.leashUp
  rw [h.up l]

theorem links_onLeash (l : Nat) (f : LeashLink → LeashLink) : (onLeash l f s).red.links.at l = f (s.red.links.at l) :=
  (Tab.at_upd ..).trans (if_pos rfl)

theorem fldI_onLeash (l : Nat) (f : LeashLink → LeashLink) (g : Fld) (i : Nat) : (onLeash l f s).fldI g i = s.fldI g i := rfl

theorem now_onLeash (l : Nat) (f : LeashLink → LeashLink) : (onLeash l f s).now = s.now := rfl

theorem leash_of_evolves (h : Evolves w s t) (hw : .leash ∉ w) : t.red.links = s.red.links ∧ t.red.recordLink = s.red.recordLink ∧
    t.red.backlog = s.red.backlog ∧ t.red.backlogSaid = s.red.backlogSaid ∧ t.red.nextEpochUs = s.red.nextEpochUs := by
  simpa only [Part.Same, Prod.mk.injEq] using h.same .leash hw

theorem LinksStand.of_evolves (h : Evolves w s t) (hleash : .leash ∉ w) (hregs : .regRed ∉ w) : LinksStand s t :=
  ⟨(leash_of_evolves h hleash).1, fun _ => h.fldI_eq _ _ hregs⟩

theorem linksStand_setFldI (f : Fld) (i v : Nat) (h : ∀ l : Fin 2, F.RED_LINK_STAT_UP.addr l.val ≠ f.addr i) :
    LinksStand s (s.setFldI f i v) := ⟨rfl, fun l => fldI_setFldI_other f F.RED_LINK_STAT_UP i l.val v (h l)⟩

theorem linksStand_setFld (f : Fld) (v : Nat) (h : ∀ l : Fin 2, F.RED_LINK_STAT_UP.addr l.val ≠ f.addr 0) :
    LinksStand s (s.setFld f v) := linksStand_setFldI f 0 v h

theorem linksStand_onRed (f : Red → Red) (h : (f s.red).links = s.red.links) : LinksStand s (s.onRed f) := ⟨h, fun _ => rfl⟩

theorem linksStand_setRoleBit (f : Fld) (r : Nat) (b : Bool) (h : ∀ l : Fin 2, F.RED_LINK_STAT_UP.addr l.val ≠ f.addr 0) :
    LinksStand s (setRoleBit f r b s) := linksStand_setFld f _ h

theorem linksStand_setRole (new : Nat) : LinksStand s (setRole new s) := by
  unfold setRole
  dsimp only
  split
  · exact .refl s
  · exact ((linksStand_setFld F.RED_STAT_STATE new (by decide)).trans (linksStand_setRoleBit F.RED_STAT_HEEL _ _ (by decide))).trans
      (.of_evolves (emit_evolves .refl Sub.rfl) (by decide) (by decide))

theorem linksStand_boundLeave (bit : Nat) : LinksStand s (boundLeave bit s) :=
  .of_evolves (boundLeave_evolves .refl Sub.rfl) (by decide) (by decide)

theorem linksStand_resyncStat (f : Fld) (v : Nat) (h : f.addr 0 = 0x0E000060) : LinksStand s (s.setFld f v) :=
  linksStand_setFld f v (by rw [h]; decide)

theorem linksStand_clearReplica : LinksStand s (clearReplica s) :=
  ((linksStand_onRed (s := s) (fun r => { r with pend := [], notices := [], copied := [], bulkDone := false, disputed := [] }) rfl).trans
    ((linksStand_resyncStat F.RED_RESYNC_STAT_ACTIVE 0 rfl).trans ((linksStand_resyncStat F.RED_RESYNC_STAT_STEP 0 rfl).trans
      (linksStand_resyncStat F.RED_RESYNC_STAT_PERCENT 0 rfl)))).trans (linksStand_boundLeave 2)

theorem linksStand_activeIs (r : Option Nat) : LinksStand s (activeIs r s) :=
  (linksStand_setFld F.RED_STAT_ACTIVE_ROLE _ (by decide)).trans (linksStand_setFld F.RED_STAT_ACTIVE_VALID _ (by decide))

theorem linksStand_countQuorum : LinksStand s (countQuorum s) := linksStand_setFld F.RED_STAT_QUORUM _ (by decide)

theorem linksStand_enterJoining : LinksStand s (enterJoining s) := by
  have hdrives : LinksStand s (drivesStopped false s) := ⟨rfl, fun _ => rfl⟩
  have hreplica : LinksStand s (joiningReplica s) :=
    (hdrives.trans (linksStand_setRole 2)).trans (linksStand_clearReplica.trans (linksStand_activeIs none))
  have hcount : LinksStand s (countQuorum (joiningFrom (joiningReplica s))) :=
    hreplica.trans ((linksStand_onRed _ rfl).trans linksStand_countQuorum)
  rw [enterJoining_eq]
  split
  · exact hcount
  · exact hcount.trans (.of_evolves (emit_evolves .refl Sub.rfl) (by decide) (by decide))

theorem linksStand_resyncFails (cause : Nat) : LinksStand s (resyncFails cause s) :=
  (LinksStand.of_evolves (emit_evolves .refl Sub.rfl) (by decide) (by decide)).trans
    ((LinksStand.of_evolves (wipeObjects_evolves .refl Sub.rfl) (by decide) (by decide)).trans linksStand_enterJoining)

theorem linksStand_setEpoch (e : Nat) : LinksStand s (setEpoch e s) :=
  (linksStand_setFld F.RED_EPOCH_LO_EPOCH _ (by decide)).trans (linksStand_setFld F.RED_EPOCH_HI_EPOCH _ (by decide))

theorem linksStand_sendAcks (acks : List (Nat × Nat × Nat)) : LinksStand s (sendAcks acks s) :=
  .of_evolves (sendAcks_evolves .refl Sub.rfl) (by decide) (by decide)

theorem linksStand_releaseHeld : LinksStand s (releaseHeld s) := by
  unfold releaseHeld
  dsimp only
  split
  · exact .refl s
  · refine LinksStand.trans ?_ (linksStand_sendAcks _)
    refine LinksStand.trans (t := match s.red.backlog.getLast? with | some q => setEpoch q.epoch s | none => s) ?_ ?_
    · split
      · exact linksStand_setEpoch _
      · exact .refl s
    · exact (linksStand_setFld F.RED_BACKLOG_QUEUED 0 (by decide)).trans ⟨rfl, fun _ => rfl⟩

theorem linksStand_joinerLost (r : Fin 3) : LinksStand s (joinerLost s r.val) :=
  (((linksStand_resyncStat F.RED_RESYNC_STAT_ACTIVE 0 rfl).trans (linksStand_resyncStat F.RED_RESYNC_STAT_STEP 0 rfl)).trans
    (linksStand_setFldI F.RED_PEER_STAT_STATE r.val 0 (by revert r; decide))).trans
    ((linksStand_boundLeave 2).trans linksStand_releaseHeld)

/-! A link that goes down (R350). -/

/-- The link is down, with fresh sequence numbers. -/
def leashDropped (link : Nat) (s : State) : State :=
  onLeash link (fun _ => default) ((s.setFldI F.RED_LINK_STAT_UP link 0).setFldI F.RED_LINK_STAT_PEER link 7)

/-- The link is down and told. -/
def linkDownTold (link cause : Nat) (s : State) : State := emit (0x5E1 + link) 0xE08 2 cause (leashDropped link s)

/-- The units that join on the link are lost to the active unit. -/
def joinersLost (link : Nat) (s : State) : State :=
  if groupActive s then ((joiners s).filter fun r => linkTo s r == link).foldl joinerLost s else s

theorem leashDown_eq {link cause : Nat} (h : leashUp s link = true) : leashDown link cause s =
    if redState (joinersLost link (linkDownTold link cause s)) = 3 ∧
      linkTo (joinersLost link (linkDownTold link cause s)) (activeRole (joinersLost link (linkDownTold link cause s))) = link then
      resyncFails 2 (joinersLost link (linkDownTold link cause s)) else joinersLost link (linkDownTold link cause s) := by
  unfold leashDown
  exact if_neg (by rw [h]; decide)

theorem linksStand_joinersLost (link : Nat) : LinksStand s (joinersLost link s) := by
  unfold joinersLost
  split
  · refine List.foldlRecOn (motive := LinksStand s) _ _ (.refl s) fun u hu r hr => ?_
    have hlt : r < 3 := by
      simp only [joiners, List.mem_filter, List.mem_range] at hr
      exact hr.1.1
    exact hu.trans (linksStand_joinerLost ⟨r, hlt⟩)
  · exact .refl s

theorem joinersLost_evolves (link : Nat) :
    Evolves [.events, .counters, .sampling, .commands, .contexts, .leash, .regs, .regRed, .out] s (joinersLost link s) := by
  unfold joinersLost
  split
  · exact foldl_keeps (fun u r hu => joinerLost_evolves hu (Sub.of Sub.rfl rfl)) _ _ .refl
  · exact .refl

theorem leashDropped_leaves (link : Nat) : (leashDropped link s).red.links.at link = default ∧ (leashDropped link s).now = s.now :=
  ⟨links_onLeash .., (now_onLeash ..).trans ((State.now_setFldI ..).trans (State.now_setFldI ..))⟩

theorem leashUp_leashDropped (link : Nat) : leashUp (leashDropped link s) link = false := by
  unfold leashUp leashDropped
  have hup : (onLeash link (fun _ => default) ((s.setFldI F.RED_LINK_STAT_UP link 0).setFldI F.RED_LINK_STAT_PEER link 7)).fldI
      F.RED_LINK_STAT_UP link = 0 :=
    (fldI_onLeash ..).trans ((fldI_setFldI_disjoint F.RED_LINK_STAT_PEER F.RED_LINK_STAT_UP link link 7 (by decide) (by decide)
      (by decide) (by decide)).trans (fldI_setFldI_same F.RED_LINK_STAT_UP link 0 (by decide) (by decide)))
  rw [hup]
  rfl

theorem linksStand_linkTold (link cause : Nat) : LinksStand (leashDropped link s) (linkDownTold link cause s) :=
  .of_evolves (emit_evolves .refl Sub.rfl) (by decide) (by decide)

theorem leashDown_leaves (cause : Nat) (h : leashUp s link.val = true) :
    leashUp (leashDown link.val cause s) link.val = false ∧ (leashDown link.val cause s).red.links.at link.val = default ∧
      Emitted s (leashDown link.val cause s) (0x5E1 + link.val) 2 0xE08 cause := by
  have hlost := (linksStand_linkTold (s := s) link.val cause).trans (linksStand_joinersLost link.val)
  have hfails (v : State) : Evolves _ v (resyncFails 2 v) := resyncFails_evolves .refl Sub.rfl
  have hsaid : Emitted s (joinersLost link.val (linkDownTold link.val cause s)) (0x5E1 + link.val) 2 0xE08 cause :=
    (joinersLost_evolves link.val).emitted_mono (by decide) (emitted_emit_of _ _ _ _ (leashDropped_leaves link.val).2)
  have hdown := leashUp_leashDropped (s := s) link.val
  have hdefault := (leashDropped_leaves (s := s) link.val).1
  rw [leashDown_eq h]
  split
  · have hstand := hlost.trans (linksStand_resyncFails 2)
    exact ⟨(hstand.leashUp link).trans hdown, (congrArg (·.at link.val) hstand.links).trans hdefault,
      (hfails _).emitted_mono (by decide) hsaid⟩
  · exact ⟨(hlost.leashUp link).trans hdown, (congrArg (·.at link.val) hlost.links).trans hdefault, hsaid⟩

/-! A link that comes up, and what is sent on one (R349). -/

/-- The link is up, with fresh sequence numbers. -/
def leashRaised (l v : Nat) (s : State) : State :=
  onLeash l (fun _ => default) ((s.setFldI F.RED_LINK_STAT_UP l 1).setFldI F.RED_LINK_STAT_PEER l v)

theorem exec_leashUp {r : Nat} (h : leashUp s link.val = false) : exec (.leashUp link r) s =
    .next (emit (0x5E1 + link.val) 0xE07 1 (r % 4) (leashRaised link.val (min r 7) s)) := by
  change execLeashUp link r s = _
  unfold execLeashUp
  exact if_neg (by rw [h]; decide)

theorem leashUp_leashRaised (l v : Nat) : leashUp (leashRaised l v s) l = true := by
  have hup : (leashRaised l v s).fldI F.RED_LINK_STAT_UP l = 1 :=
    (fldI_onLeash ..).trans ((fldI_setFldI_disjoint F.RED_LINK_STAT_PEER F.RED_LINK_STAT_UP l l v (by decide) (by decide)
      (by decide) (by decide)).trans (fldI_setFldI_same F.RED_LINK_STAT_UP l 1 (by decide) (by decide)))
  unfold leashUp
  rw [hup]
  rfl

theorem leashRaised_leaves (l v : Nat) : (leashRaised l v s).red.links.at l = default ∧ (leashRaised l v s).now = s.now :=
  ⟨links_onLeash .., (now_onLeash ..).trans ((State.now_setFldI ..).trans (State.now_setFldI ..))⟩

theorem leashUp_emit (src ev sev data l : Nat) : leashUp (emit src ev sev data s) l = leashUp s l := rfl

theorem links_emit (src ev sev data : Nat) : (emit src ev sev data s).red.links = s.red.links := rfl

/-- The frame leaves with the next sequence number of its link. -/
theorem leashSend_sends {l epoch : Nat} (f : LeashFrame) (h : leashUp s l = true) :
    LeashSent s (leashSend l epoch f s) l 0 epoch f ∧ ((leashSend l epoch f s).red.links.at l).tx = (s.red.links.at l).tx + 1 := by
  unfold leashSend
  rw [if_pos h]
  refine ⟨?_, ?_⟩
  · exact List.mem_append_right _ (List.mem_singleton.2 rfl)
  · dsimp only
    rw [State.send_red, links_onLeash]

/-! A resend (R350). -/

/-- A frame leaves again. -/
def resendFrame (l dst rx : Nat) (s : State) (x : Nat × LeashFrame) : State :=
  s.send (.leash l x.1 rx true dst (epochNow s) x.2 (x.2.wire x.1 rx (role s) dst (epochNow s) true))

theorem out_resendFrames {l dst rx : Nat} (xs : List (Nat × LeashFrame)) {x : Nat × LeashFrame} (hx : x ∈ xs) (s : State) :
    ∃ w, .leash l x.1 rx true dst (epochNow s) x.2 w ∈ (xs.foldl (resendFrame l dst rx) s).out := by
  induction xs generalizing s with
  | nil => simp at hx
  | cons y ys ih =>
    rcases List.mem_cons.1 hx with rfl | hx
    · have hrest : Evolves [.out] (resendFrame l dst rx s x) (ys.foldl (resendFrame l dst rx) (resendFrame l dst rx s x)) :=
        foldl_keeps (fun u y hu => state_send_evolves hu Sub.rfl) _ _ .refl
      exact ⟨_, hrest.out.subset (List.mem_append_right _ (List.mem_singleton.2 rfl))⟩
    · exact ih hx (resendFrame l dst rx s y)

theorem red_resendFrames {l dst rx : Nat} (xs : List (Nat × LeashFrame)) (s : State) :
    (xs.foldl (resendFrame l dst rx) s).red = s.red :=
  foldl_keeps (P := fun u : State => u.red = s.red) (f := resendFrame l dst rx) (fun _ _ h => h) xs s rfl

/-- One more resend of the link is counted. -/
def resendCounted (l : Nat) (s : State) : State :=
  (onLeash l (fun x => { x with resends := x.resends + 1 }) s).bumpI F.RED_LINK_STAT_RETX l 1

theorem exec_leashResendTimeout (h : leashUp s link.val = true) (hsent : (s.red.links.at link.val).sent ≠ []) :
    exec (.leashResendTimeout link) s =
      if 16 ≤ (s.red.links.at link.val).resends then .next (leashDown link.val 3 s)
      else .next ((s.red.links.at link.val).sent.foldl
        (resendFrame link.val ((linkPeer s link.val).getD 3) (s.red.links.at link.val).rx) (resendCounted link.val s)) := by
  change execLeashResendTimeout link s = _
  unfold execLeashResendTimeout
  dsimp only
  rw [if_neg (by rw [h]; simpa using hsent)]
  rfl

theorem epochNow_resendCounted : epochNow (resendCounted link.val s) = epochNow s := by
  have hus : (resendCounted link.val s).fld F.RED_MODE_EPOCH_US = s.fld F.RED_MODE_EPOCH_US :=
    fldI_setFldI_other F.RED_LINK_STAT_RETX F.RED_MODE_EPOCH_US link.val 0 _ (by revert link; decide)
  have hnow : (resendCounted link.val s).now = s.now := State.now_setFldI ..
  simp only [epochNow, epochNs, hus, hnow]

theorem links_resendCounted (l : Nat) : (resendCounted l s).red.links.at l =
    { s.red.links.at l with resends := (s.red.links.at l).resends + 1 } := links_onLeash ..

/-! A frame that is taken (R350). -/

/-- The link after it took a frame. -/
def linkTook (h : LeashHdr) (l : LeashLink) : LeashLink :=
  { l with
    rx := h.lseq, resends := if l.acked < h.ack then 0 else l.resends, acked := max l.acked h.ack
    sent := l.sent.filter fun x => decide (max l.acked h.ack < x.1) }

theorem leashIn_taken {h : LeashHdr} (ht : FrameTaken s h) : leashIn h s =
    ((onLeash h.link.val (linkTook h) s).setFldI F.RED_LINK_STAT_PEER h.link.val (min h.src 7), true) := by
  obtain ⟨hup, hcrc, hlseq⟩ := ht
  unfold leashIn
  simp only [hup, hcrc, hlseq, Bool.not_true, Bool.false_eq_true, if_false, ne_eq, not_true_eq_false]
  unfold linkTook
  rw [hlseq]

theorem onFrame_taken {h : LeashHdr} (run : State → State) (ht : FrameTaken s h) : onFrame h run s =
    .next (run ((onLeash h.link.val (linkTook h) s).setFldI F.RED_LINK_STAT_PEER h.link.val (min h.src 7))) := by
  unfold onFrame
  rw [leashIn_taken ht]
  rfl

theorem links_leashTaken (h : LeashHdr) (v : Nat) :
    ((onLeash h.link.val (linkTook h) s).setFldI F.RED_LINK_STAT_PEER h.link.val v).red.links.at h.link.val =
      linkTook h (s.red.links.at h.link.val) := links_onLeash ..

/-- What an IDLE frame tells of the time. -/
def idleHeard (gts : Option Nat) (s : State) : State :=
  match gts with
  | some g =>
    if groupActive s then s
    else
      let s := sourcePresent 3 s
      if s.ctl.gts.source = 3 then measureGts ((g : Int) - (s.now : Int)) false s else s
  | none => s

theorem exec_idleFrameReceived (h : LeashHdr) (gts : Option Nat) : exec (.idleFrameReceived h gts) s = onFrame h (idleHeard gts) s :=
  rfl

theorem links_idleHeard (gts : Option Nat) : (idleHeard gts s).red.links = s.red.links := by
  have hpresent (v : State) : Evolves _ v (sourcePresent 3 v) := sourcePresent_evolves .refl Sub.rfl
  have hmeasure (o : Int) (v : State) : Evolves _ v (measureGts o false v) := measureGts_evolves .refl Sub.rfl
  unfold idleHeard
  split
  · dsimp only
    split
    · rfl
    · split
      · exact (leash_of_evolves (hmeasure _ _) (by decide)).1.trans (leash_of_evolves (hpresent s) (by decide)).1
      · exact (leash_of_evolves (hpresent s) (by decide)).1
  · rfl

theorem fldI_bumpI_same (f : Fld) (i : Nat) (h : f.lo ≤ f.hi) (hh : f.hi < 32) :
    (s.bumpI f i 1).fldI f i = min f.max (s.fldI f i + 1) := by
  refine (fldI_setFldI_same f i _ h hh).trans (Nat.mod_eq_of_lt ?_)
  exact lt_of_le_of_lt (min_le_left _ _) (Nat.sub_lt (Nat.two_pow_pos _) Nat.one_pos)

/-- A frame whose check fails is counted and drops. -/
theorem onFrame_badCheck {h : LeashHdr} (run : State → State) (hup : leashUp s h.link.val = true) (hcrc : h.crcOk = false) :
    onFrame h run s = .next (s.bumpI F.RED_LINK_STAT_CRC_ERR h.link.val 1) := by
  unfold onFrame leashIn
  simp only [hup, hcrc, Bool.not_true, Bool.not_false, Bool.false_eq_true, if_false, if_true]

/-! The end of an epoch (R351). -/

theorem groupActive_sendAll (f : LeashFrame) : groupActive (sendAll f s) = groupActive s := by
  have h : Evolves _ s (sendAll f s) := sendAll_evolves .refl Sub.rfl
  have hmode : (sendAll f s).fld F.RED_MODE_MODE = s.fld F.RED_MODE_MODE := h.fldI_eq F.RED_MODE_MODE 0 (by decide)
  have hstate : (sendAll f s).fld F.RED_STAT_STATE = s.fld F.RED_STAT_STATE := h.fldI_eq F.RED_STAT_STATE 0 (by decide)
  simp only [groupActive, inGroup, redMode, redState, hmode, hstate]

theorem recordsRun_sendAll (f : LeashFrame) : recordsRun (sendAll f s) = recordsRun s := by
  have h : Evolves _ s (sendAll f s) := sendAll_evolves .refl Sub.rfl
  have hrole : role (sendAll f s) = role s := h.fldI_eq F.RED_MODE_ROLE 0 (by decide)
  have hheel : (sendAll f s).fld F.RED_STAT_HEEL = s.fld F.RED_STAT_HEEL := h.fldI_eq F.RED_STAT_HEEL 0 (by decide)
  have hpeer (r : Nat) : (sendAll f s).fldI F.RED_PEER_STAT_STATE r = s.fldI F.RED_PEER_STAT_STATE r := h.fldI_eq _ r (by decide)
  simp only [recordsRun, groupActive_sendAll, peersInHeel, joiners, hrole, hheel, hpeer]

/-- The idle frames of an active unit at the end of an epoch. -/
def epochTold (s : State) : State := if groupActive s then sendAll (.idle (some s.now)) s else s

/-- The record of an epoch, where records run. -/
def recordTaken (e : Nat) (s : State) : State := if recordsRun s then formRecord e false s else s

/-- A new epoch length, where its time has come. -/
def epochLengthTaken (s : State) : State :=
  match s.red.nextEpochUs with
  | some (us, from_) =>
    if from_ ≤ s.now then (s.setFld F.RED_MODE_EPOCH_US us).onRed fun r => { r with nextEpochUs := none } else s
  | none => s

theorem exec_epochEnd : exec .epochEnd s = .next (epochLengthTaken (recordTaken (epochNow s - 1) (epochTold s))) := rfl

/-- What the replica collects, with the records queued, stands. -/
theorem epochLengthTaken_leaves : (epochLengthTaken s).red.caps = s.red.caps ∧ (epochLengthTaken s).red.commits = s.red.commits ∧
    (epochLengthTaken s).red.leaves = s.red.leaves ∧ (epochLengthTaken s).red.backlog = s.red.backlog := by
  unfold epochLengthTaken
  split
  · split
    · exact ⟨rfl, rfl, rfl, rfl⟩
    · exact ⟨rfl, rfl, rfl, rfl⟩
  · exact ⟨rfl, rfl, rfl, rfl⟩

theorem backlog_leashSend (l e : Nat) (f : LeashFrame) : (leashSend l e f s).red.backlog = s.red.backlog := by
  unfold leashSend
  split
  · rfl
  · rfl

theorem backlog_epochTold : (epochTold s).red.backlog = s.red.backlog := by
  unfold epochTold sendAll
  split
  · rw [backlog_leashSend, backlog_leashSend]
  · rfl

theorem sayBacklog_leaves : (sayBacklog s).red.caps = s.red.caps ∧ (sayBacklog s).red.commits = s.red.commits ∧
    (sayBacklog s).red.leaves = s.red.leaves ∧ (sayBacklog s).red.backlog = s.red.backlog := by
  unfold sayBacklog
  dsimp only
  split
  · exact ⟨rfl, rfl, rfl, rfl⟩
  · split
    · exact ⟨rfl, rfl, rfl, rfl⟩
    · exact ⟨rfl, rfl, rfl, rfl⟩

/-- The record joins those queued, and what it took is empty. -/
def recordQueued (e : Nat) (acks : List (Nat × Nat × Nat)) (s : State) : State :=
  sayBacklog (snapshotObjects (s.onRed fun r => { r with backlog := r.backlog ++ [⟨e, acks⟩] }))

theorem recordQueued_leaves (e : Nat) (acks : List (Nat × Nat × Nat)) : (recordQueued e acks s).red.caps = [] ∧
    (recordQueued e acks s).red.commits = [] ∧ (recordQueued e acks s).red.leaves = [] ∧
    (recordQueued e acks s).red.backlog = s.red.backlog ++ [⟨e, acks⟩] := by
  unfold recordQueued
  obtain ⟨hcaps, hcommits, hleaves, hbacklog⟩ :=
    sayBacklog_leaves (s := snapshotObjects (s.onRed fun r => { r with backlog := r.backlog ++ [⟨e, acks⟩] }))
  exact ⟨hcaps, hcommits, hleaves, hbacklog⟩

/-- The frames of a record leave for the units that take it. -/
def recordSent (e : Nat) (frames : List LeashFrame) (s : State) : State :=
  (peersInHeel s ++ joiners s).foldl (fun s r => frames.foldl (fun s f => leashSend (linkTo s r) e f s) s) s

theorem backlog_recordSent (e : Nat) (frames : List LeashFrame) : (recordSent e frames s).red.backlog = s.red.backlog :=
  foldl_keeps (P := fun u : State => u.red.backlog = s.red.backlog)
    (fun u _ hu => foldl_keeps (P := fun v : State => v.red.backlog = s.red.backlog)
      (fun _ _ hv => (backlog_leashSend ..).trans hv) _ u hu) _ s rfl

theorem formRecord_eq (e : Nat) : ∃ acks frames u, formRecord e false s = recordQueued e acks (recordSent e frames u) ∧
    u.red.backlog = s.red.backlog := by
  have hstamp : Evolves _ s (stampContexts e s) := stampContexts_evolves .refl Sub.rfl
  exact ⟨_, _, _, rfl, (leash_of_evolves hstamp (by decide)).2.2.1⟩

theorem formRecord_leaves (e : Nat) : (formRecord e false s).red.caps = [] ∧ (formRecord e false s).red.commits = [] ∧
    (formRecord e false s).red.leaves = [] ∧
    (formRecord e false s).red.backlog.map (·.epoch) = s.red.backlog.map (·.epoch) ++ [e] := by
  obtain ⟨acks, frames, u, heq, hu⟩ := formRecord_eq (s := s) e
  obtain ⟨hcaps, hcommits, hleaves, hbacklog⟩ := recordQueued_leaves (s := recordSent e frames u) e acks
  rw [heq, hbacklog, backlog_recordSent, hu]
  exact ⟨hcaps, hcommits, hleaves, by rw [List.map_append]; rfl⟩

theorem recordsRun_epochTold : recordsRun (epochTold s) = recordsRun s := by
  unfold epochTold
  split
  · exact recordsRun_sendAll _
  · rfl

/-! A record that has left (R351, R370). -/

theorem exec_epochRecordSent {q : QueuedRec} {rest : List QueuedRec} (h : s.red.backlog = q :: rest) : exec .epochRecordSent s =
    .next (sendAcks q.acks (setEpoch q.epoch (sayBacklog (s.onRed fun r => { r with backlog := rest })))) := by
  change execEpochRecordSent s = _
  unfold execEpochRecordSent
  rw [h]

/-- Every acknowledgement whose context exists leaves. -/
theorem packetSent_sendAcks (acks : List (Nat × Nat × Nat)) (hps : s.cmd.ps ≠ 4) :
    ∀ a ∈ acks, (ctxOf s a.1).state ≠ 0 → PacketSent (sendAcks acks s) a.1 (.ack a.2.1 a.2.2) := by
  induction acks generalizing s with
  | nil => simp
  | cons b bs ih =>
    intro a ha hstate
    have hstep : Evolves [.out] s
        (if (s.xpt.ctx.at (b.1 - 0x200000)).state = 0 then s else sendPacket b.1 (.ack b.2.1 b.2.2) s) :=
      .ite (fun _ => .refl) fun _ => sendPacket_evolves .refl Sub.rfl
    rcases List.mem_cons.1 ha with rfl | ha
    · have hsent : PacketSent (if (s.xpt.ctx.at (a.1 - 0x200000)).state = 0 then s else sendPacket a.1 (.ack a.2.1 a.2.2) s) a.1
          (.ack a.2.1 a.2.2) := by
        rw [if_neg (show ¬(s.xpt.ctx.at (a.1 - 0x200000)).state = 0 from hstate)]
        unfold sendPacket
        rw [if_neg hps]
        exact packetSent_send _ _
      exact packetSent_mono (sendAcks_evolves (acks := bs) .refl Sub.rfl) hsent
    · exact ih (by rw [(powerState_of_evolves hstep (by decide)).1]; exact hps) a ha
        (by rw [ctxOf_of_evolves hstep (by decide)]; exact hstate)

/-- Settles O50: a unit that loses a link changes no link further, a frame leaves with its link's next sequence number, and a
record takes what the epoch collected. -/
theorem leashLinksComplete : Obligations.LeashLinksComplete := by
  unfold Obligations.LeashLinksComplete
  refine ⟨fun link r s hdown => ?up, fun link s hup => ?lockLost, fun link s hup => ?silence,
    fun link x s hup hx hresends => ?resend, fun link s hup hsent hresends => ?sixteenth, fun link s hup => ?idleTimer,
    fun h gts s htaken => ?idleTaken, fun h gts s hup hcrc => ?badCheck, fun s hruns => ?record,
    fun us from_ s hgroup hnext hfrom => ?epochLength, fun q rest s hbacklog hps => ?recordLeft⟩
  case up =>
    obtain ⟨hdefault, hnow⟩ := leashRaised_leaves (s := s) link.val (min r 7)
    exact ⟨_, exec_leashUp hdown, (leashUp_emit ..).trans (leashUp_leashRaised ..),
      (congrArg (·.at link.val) (links_emit ..)).trans hdefault, emitted_emit_of _ _ _ _ hnow⟩
  case lockLost => exact ⟨_, rfl, leashDown_leaves 1 hup⟩
  case silence => exact ⟨_, rfl, leashDown_leaves 2 hup⟩
  case resend =>
    refine ⟨_, (exec_leashResendTimeout hup (List.ne_nil_of_mem hx)).trans (if_neg (by omega)), ?_, ?_, ?_⟩
    · obtain ⟨w, hw⟩ := out_resendFrames (l := link.val) (dst := (linkPeer s link.val).getD 3) (rx := (s.red.links.at link.val).rx)
        _ hx (resendCounted link.val s)
      rw [epochNow_resendCounted] at hw
      exact ⟨_, w, hw⟩
    · rw [red_resendFrames, links_resendCounted]
    · rw [red_resendFrames, links_resendCounted]
  case sixteenth =>
    obtain ⟨hdown, _, hsaid⟩ := leashDown_leaves 3 hup
    exact ⟨_, (exec_leashResendTimeout hup hsent).trans (if_pos hresends), hdown, hsaid⟩
  case idleTimer => exact ⟨_, rfl, leashSend_sends _ hup⟩
  case idleTaken =>
    refine ⟨_, (exec_idleFrameReceived h gts).trans (onFrame_taken _ htaken), ?_, ?_⟩
    · rw [links_idleHeard, links_leashTaken]; rfl
    · rw [links_idleHeard, links_leashTaken]; rfl
  case badCheck =>
    exact ⟨_, (exec_idleFrameReceived h gts).trans (onFrame_badCheck _ hup hcrc), rfl, rfl,
      fldI_bumpI_same _ _ (by decide) (by decide)⟩
  case record =>
    obtain ⟨hcaps, hcommits, hleaves, hbacklog⟩ := formRecord_leaves (s := epochTold s) (epochNow s - 1)
    obtain ⟨hcaps', hcommits', hleaves', hbacklog'⟩ := epochLengthTaken_leaves (s := formRecord (epochNow s - 1) false (epochTold s))
    have htaken : recordTaken (epochNow s - 1) (epochTold s) = formRecord (epochNow s - 1) false (epochTold s) :=
      if_pos (recordsRun_epochTold.trans hruns)
    refine ⟨_, exec_epochEnd.trans (congrArg (fun u => Host.Outcome.next (epochLengthTaken u)) htaken), hcaps'.trans hcaps,
      hcommits'.trans hcommits, hleaves'.trans hleaves, ?_⟩
    rw [hbacklog', hbacklog, backlog_epochTold]
  case epochLength =>
    have htold : recordTaken (epochNow s - 1) (epochTold s) = s := by
      have hrun : recordsRun s = false := by simp only [recordsRun, hgroup, Bool.false_and]
      have hs : epochTold s = s := by unfold epochTold; rw [hgroup]; rfl
      unfold recordTaken
      rw [hs, hrun]
      rfl
    have hlength : epochLengthTaken s = (s.setFld F.RED_MODE_EPOCH_US us).onRed fun r => { r with nextEpochUs := none } := by
      unfold epochLengthTaken
      rw [hnext]
      exact if_pos hfrom
    refine ⟨_, exec_epochEnd.trans (congrArg Host.Outcome.next ((congrArg epochLengthTaken htold).trans hlength)), ?_, rfl, rfl⟩
    exact fld_setFld_same F.RED_MODE_EPOCH_US us (by decide) (by decide)
  case recordLeft =>
    have hsay (v : State) : Evolves _ v (sayBacklog v) := sayBacklog_evolves .refl Sub.rfl
    have hset (v : State) : Evolves _ v (setEpoch q.epoch v) := setEpoch_evolves .refl Sub.rfl
    have hacks (v : State) : Evolves _ v (sendAcks q.acks v) := sendAcks_evolves .refl Sub.rfl
    refine ⟨_, exec_epochRecordSent hbacklog, ?_, ?_, fun a ha hstate => ?_⟩
    · rw [(leash_of_evolves (hacks _) (by decide)).2.2.1, (leash_of_evolves (hset _) (by decide)).2.2.1]
      exact sayBacklog_leaves.2.2.2
    · have hlo (v : State) : (setEpoch q.epoch v).fld F.RED_EPOCH_LO_EPOCH = q.epoch % 2 ^ 32 :=
        (fld_setFld_other F.RED_EPOCH_HI_EPOCH F.RED_EPOCH_LO_EPOCH _ (by decide)).trans
          ((fld_setFld_same F.RED_EPOCH_LO_EPOCH _ (by decide) (by decide)).trans (Nat.mod_mod _ _))
      exact ((hacks _).fldI_eq F.RED_EPOCH_LO_EPOCH 0 (by decide)).trans (hlo _)
    · refine packetSent_sendAcks q.acks ?_ a ha ?_
      · rw [(powerState_of_evolves (hset _) (by decide)).1, (powerState_of_evolves (hsay _) (by decide)).1]; exact hps
      · rw [ctxOf_of_evolves (hset _) (by decide), ctxOf_of_evolves (hsay _) (by decide)]; exact hstate

end Sys2Proof.Machine
end

section
/-! PROOFS. The management sessions (R383 to R388, R394, R399 to R402): what a request that is served reads, what keeps a session
open, and how one closes. -/

namespace Sys2Proof.Machine

variable {s t u : State} {w : List Part} {r : Req}

/-! A request that is served (R385, R388). -/

theorem Serves.heard {rights : List Nat} {bone recovery : Bool} (h : Serves s r rights bone recovery) : Heard s r := by
  obtain ⟨hopen, hport, htag, hseq, _⟩ := h
  exact ⟨hopen, hport, htag, hseq⟩

theorem renewBone_leaves (path session : Nat) : (renewBone path session s).ctl.bone.held = s.ctl.bone.held ∧
    (renewBone path session s).ctl.bone.path = s.ctl.bone.path ∧
    (renewBone path session s).ctl.bone.session = s.ctl.bone.session := by
  unfold renewBone
  split
  · exact ⟨rfl, rfl, rfl⟩
  · exact ⟨rfl, rfl, rfl⟩

theorem heard_evolves (r : Req) (s : State) : Evolves [.sessions, .bone] s (heard r s) :=
  onSession_evolves (renewBone_evolves (onSession_evolves .refl (Sub.of Sub.rfl rfl)) (Sub.of Sub.rfl rfl)) (Sub.of Sub.rfl rfl)

theorem bone_heard : (heard r s).ctl.bone.held = s.ctl.bone.held ∧ (heard r s).ctl.bone.path = s.ctl.bone.path ∧
    (heard r s).ctl.bone.session = s.ctl.bone.session :=
  renewBone_leaves (s := onSession r.session (fun x => { x with lastMsg := s.now, idleS := s.fld F.CTL_CFG_IDLE_S }) s) _ _

theorem holdsBone_heard (path session : Nat) : holdsBone (heard r s) path session = holdsBone s path session := by
  obtain ⟨hheld, hpath, hsession⟩ := bone_heard (s := s) (r := r)
  simp only [holdsBone, hheld, hpath, hsession]

theorem sessionAt_onSession (id j : Nat) (f : Session → Session) : (onSession id f s).ctl.sessions.at j =
    if j = id then f (s.ctl.sessions.at id) else s.ctl.sessions.at j := Tab.at_upd ..

theorem session_heard : ((heard r s).ctl.sessions.at r.session).principal = (s.ctl.sessions.at r.session).principal ∧
    ((heard r s).ctl.sessions.at r.session).port = (s.ctl.sessions.at r.session).port := by
  have hsame (path session : Nat) (u : State) : (renewBone path session u).ctl.sessions = u.ctl.sessions :=
    sessions_of_evolves (renewBone_evolves .refl Sub.rfl : Evolves _ u (renewBone path session u)) (by decide)
  unfold heard
  rw [sessionAt_onSession, if_pos rfl, hsame, sessionAt_onSession, if_pos rfl]
  exact ⟨rfl, rfl⟩

theorem rightsOk_heard (rights : List Nat) : rightsOk (heard r s) r.session rights = rightsOk s r.session rights := by
  have hprincipals : (heard r s).ctl.principals = s.ctl.principals := (heard_evolves r s).same .principals (by decide)
  unfold rightsOk
  refine congrArg rights.all (funext fun right => ?_)
  unfold hasRight
  rw [hprincipals, session_heard.1]

/-- A request that is served is answered with what it ran to. -/
theorem serve_of_serves {rights : List Nat} {bone recovery : Bool} (op : Nat) (run : State → State × Nat × Reply)
    (h : Serves s r rights bone recovery) {st : Nat} {p : Reply} (hrun : run (heard r s) = (u, st, p)) :
    serve op rights bone recovery r run s = respond r op st p u := by
  have hboot : (heard r s).boot = s.boot := (heard_evolves r s).same .boot (by decide)
  obtain ⟨_, _, _, _, hrights, hrecovery, hbone⟩ := id h
  unfold serve serveLater
  rw [receive_of_heard h.heard, if_neg (by rw [hboot]; rintro ⟨hr, hn⟩; rcases hrecovery with h | h <;> simp_all),
    if_neg (by rw [rightsOk_heard, hrights]; decide),
    if_neg (by rw [holdsBone_heard]; rintro ⟨hb, hn⟩; rw [hbone hb] at hn; exact absurd hn (by decide))]
  dsimp only
  rw [hrun]

theorem respond_evolves_refl (op st : Nat) (p : Reply) (s : State) : Evolves [.sessions, .out] s (respond r op st p s) :=
  respond_evolves .refl Sub.rfl

theorem rings_of_evolves' (h : Evolves w s t) (hw : .rings ∉ w) : t.ctl.rings = s.ctl.rings := by
  have hsame := h.same .rings hw
  simp only [Part.Same, Prod.mk.injEq] at hsame
  exact hsame.1

theorem rings_respond (op st : Nat) (p : Reply) : (respond r op st p s).ctl.rings = s.ctl.rings :=
  rings_of_evolves' (respond_evolves_refl op st p s) (by decide)

theorem rings_heard : (heard r s).ctl.rings = s.ctl.rings := rings_of_evolves' (heard_evolves r s) (by decide)

theorem bone_respond (op st : Nat) (p : Reply) : (respond r op st p s).ctl.bone = s.ctl.bone :=
  (respond_evolves_refl op st p s).same .bone (by decide)

/-! What keeps a session open. -/

theorem sessionOpen_of_sessions (h : t.ctl.sessions = s.ctl.sessions) (id : Nat) : sessionOpen t id = sessionOpen s id := by
  rw [sessionOpen, h, sessionOpen]

theorem sessionOpen_of_evolves (h : Evolves w s t) (hw : .sessions ∉ w) (id : Nat) : sessionOpen t id = sessionOpen s id :=
  sessionOpen_of_sessions (sessions_of_evolves h hw) id

/-- A session stays open over a change of an entry that does not become the default. -/
theorem sessionOpen_onSession_of_open {id j : Nat} {f : Session → Session} (hf : f (s.ctl.sessions.at j) ≠ default)
    (h : sessionOpen s id = true) : sessionOpen (onSession j f s) id = true := by
  unfold sessionOpen at h ⊢
  simp only [onSession, State.onCtl, Tab.upd, Tab.put, Tab.setD, hf, if_false, Tab.look_ins]
  split
  · rfl
  · exact h

theorem sessionOpen_usedSeq {id : Nat} (j : Nat) (h : sessionOpen s id = true) : sessionOpen (usedSeq j s) id = true :=
  sessionOpen_onSession_of_open (fun hd => absurd (congrArg Session.sendSeq hd) (Nat.succ_ne_zero _)) h

theorem sessionOpen_direct {id : Nat} (j : Nat) (rec : EventRec) (ext : Bytes) (h : sessionOpen s id = true) :
    sessionOpen (direct j rec ext s) id = true := by
  unfold direct
  split
  · exact sessionOpen_usedSeq j h
  · exact h

theorem sessionOpen_sendRing {id : Nat} (v : Nat) (h : sessionOpen s id = true) : sessionOpen (sendRing v s) id = true := by
  unfold sendRing
  dsimp only
  split
  · exact sessionOpen_usedSeq _ h
  · exact h

theorem sessionOpen_ringPush {id : Nat} (v : Nat) (rec : EventRec) (h : sessionOpen s id = true) :
    sessionOpen (ringPush v rec s) id = true := by
  have hraise (k n : Nat) (u : State) : sessionOpen (raiseVector k n u) id = sessionOpen u id :=
    sessionOpen_of_evolves (raiseVector_evolves .refl Sub.rfl : Evolves _ u (raiseVector k n u)) (by decide) id
  unfold ringPush
  dsimp only
  refine sessionOpen_sendRing v ?_
  have hsend (c : Prop) [Decidable c] (o : Output) (u : State) (hu : sessionOpen u id = true) :
      sessionOpen (if c then u.send o else u) id = true := by
    split
    · exact hu
    · exact hu
  split
  · exact (hraise _ _ _).trans (hsend _ _ _ (hsend _ _ _ h))
  · exact hsend _ _ _ (hsend _ _ _ h)

theorem sessionOpen_ringReport {id : Nat} (v : Nat) (h : sessionOpen s id = true) : sessionOpen (ringReport v s) id = true := by
  unfold ringReport
  dsimp only
  split
  · exact sessionOpen_ringPush v _ h
  · exact h

/-! What stands of a ring. -/

theorem ringAt_onRing (v j : Nat) (f : Ring → Ring) : (onRing v f s).ctl.rings.at j =
    if j = v then f (s.ctl.rings.at v) else s.ctl.rings.at j := Tab.at_upd ..

theorem ringAt_onRing_same (v : Nat) (f : Ring → Ring) : (onRing v f s).ctl.rings.at v = f (s.ctl.rings.at v) :=
  (ringAt_onRing v v f).trans (if_pos rfl)

/-- The reader of a ring and its records stand. -/
structure RingStands (v : Nat) (s t : State) : Prop where
  reader : (t.ctl.rings.at v).reader = (s.ctl.rings.at v).reader
  session : (t.ctl.rings.at v).session = (s.ctl.rings.at v).session
  recs : (t.ctl.rings.at v).recs = (s.ctl.rings.at v).recs

theorem RingStands.of_rings (h : t.ctl.rings = s.ctl.rings) (v : Nat) : RingStands v s t := by
  constructor <;> rw [h]

theorem RingStands.trans {v : Nat} (h : RingStands v s t) (h' : RingStands v t u) : RingStands v s u :=
  ⟨h'.reader.trans h.reader, h'.session.trans h.session, h'.recs.trans h.recs⟩

theorem rings_usedSeq (id : Nat) : (usedSeq id s).ctl.rings = s.ctl.rings := rfl

theorem ringStands_onRing (v : Nat) (f : Ring → Ring) (hreader : (f (s.ctl.rings.at v)).reader = (s.ctl.rings.at v).reader)
    (hsession : (f (s.ctl.rings.at v)).session = (s.ctl.rings.at v).session)
    (hrecs : (f (s.ctl.rings.at v)).recs = (s.ctl.rings.at v).recs) : RingStands v s (onRing v f s) := by
  constructor <;> rw [ringAt_onRing_same] <;> assumption

theorem ringStands_sendRing (v : Nat) : RingStands v s (sendRing v s) := by
  unfold sendRing
  dsimp only
  split
  · have hsend (o : Output) : RingStands v s (s.send o) := ⟨rfl, rfl, rfl⟩
    refine (hsend _).trans ((ringStands_onRing v _ ?_ ?_ ?_).trans (.of_rings (rings_usedSeq _) v))
    · rfl
    · rfl
    · rfl
  · exact .of_rings rfl v

theorem ringReport_of_none_lost {v : Nat} (h : (s.ctl.rings.at v).lost = 0) : ringReport v s = s := by
  unfold ringReport
  exact if_neg fun hl => hl.1 h

theorem ringBound_congr {v : Nat} (h : RingStands v s t) (id : Nat) : ringBound t v id = ringBound s v id := by
  unfold ringBound
  rw [h.reader, h.session]

/-! A session that closes (R400, R402). -/

/-- The Bone that a session holds is free. -/
def boneFreed (id : Nat) (s : State) : State :=
  if holdsBone s (pathOf (s.ctl.sessions.at id).port) id then releaseBone s else s

/-- Its rings are free, its key is gone, and so is the mailbox it filled. -/
def keysFreed (id : Nat) (x : Session) (s : State) : State :=
  let s := (ringsOf s id).foldl (fun s v => releaseRing v s) s
  let s := freeKey x.keySlot s
  if s.cip.mailboxSession = id then s.onCip fun c => { c with mailbox := [], mailboxSession := 0 } else s

/-- The session is gone. -/
def sessionGone (id : Nat) (x : Session) (s : State) : State :=
  s.onCtl fun c => { c with
    sessions := c.sessions.del id
    stores := c.stores.filter fun j => !(j.path == pathOf x.port && j.session == id) }

theorem closeSession_eq {id : Nat} (cause : Nat) (h : sessionOpen s id = true) : closeSession cause id s =
    emit (0x010 + (s.ctl.sessions.at id).port) 0x00D 1 (cause * 2 ^ 24 + id) (sessionGone id (s.ctl.sessions.at id)
      (keysFreed id (s.ctl.sessions.at id) (boneFreed id s))) := by
  unfold closeSession
  exact if_neg (by rw [h]; decide)

theorem boneFreed_evolves (id : Nat) : Evolves [.events, .bone, .counters, .sampling] s (boneFreed id s) :=
  .ite (fun _ => releaseBone_evolves .refl Sub.rfl) fun _ => .refl

theorem keysFreed_evolves (id : Nat) (x : Session) : Evolves [.rings, .keys, .keyOrders] s (keysFreed id x s) := by
  have hrings : Evolves [.rings, .keys, .keyOrders] s ((ringsOf s id).foldl (fun s v => releaseRing v s) s) :=
    foldl_keeps (fun u v hu => releaseRing_evolves hu (Sub.of Sub.rfl rfl)) _ _ .refl
  have hkey : Evolves [.rings, .keys, .keyOrders] s (freeKey x.keySlot ((ringsOf s id).foldl (fun s v => releaseRing v s) s)) :=
    freeKey_evolves hrings (Sub.of Sub.rfl rfl)
  unfold keysFreed
  refine .ite (fun _ => hkey.trans ?_) fun _ => hkey
  exact state_onCip_evolves .refl (.inr rfl) (.inl (Sub.of Sub.rfl rfl)) (.inr rfl)

/-- What a session that closes leaves: it is gone, the others stand, and its end is told. -/
theorem closeSession_leaves {id : Nat} (cause : Nat) (h : sessionOpen s id = true) :
    (closeSession cause id s).ctl.sessions = s.ctl.sessions.del id ∧
      Emitted s (closeSession cause id s) (0x010 + (s.ctl.sessions.at id).port) 1 0x00D (cause * 2 ^ 24 + id) ∧
      (holdsBone s (2 * (s.ctl.sessions.at id).port) id = true → (closeSession cause id s).ctl.bone = default) := by
  have hbone := boneFreed_evolves (s := s) id
  have hkeys := keysFreed_evolves (s := boneFreed id s) id (s.ctl.sessions.at id)
  rw [closeSession_eq cause h]
  refine ⟨?_, emitted_emit_of _ _ _ _ ((hkeys.now_eq (by decide)).trans (hbone.now_eq (by decide))), fun hholds => ?_⟩
  · exact congrArg (Tab.del · id) ((sessions_of_evolves hkeys (by decide)).trans (sessions_of_evolves hbone (by decide)))
  · have hfree : (boneFreed id s).ctl.bone = default := by
      have hheld : s.ctl.bone.held = true := by
        simp only [holdsBone, Bool.and_eq_true] at hholds
        exact hholds.1.1
      unfold boneFreed releaseBone
      rw [if_pos (show holdsBone s (pathOf (s.ctl.sessions.at id).port) id = true from hholds), if_pos hheld]
      rfl
    have hstands : (keysFreed id (s.ctl.sessions.at id) (boneFreed id s)).ctl.bone = (boneFreed id s).ctl.bone :=
      hkeys.same .bone (by decide)
    exact hstands.trans hfree

theorem sessionOpen_closeSession_same (cause id : Nat) : sessionOpen (closeSession cause id s) id = false := by
  cases h : sessionOpen s id with
  | true => rw [sessionOpen, (closeSession_leaves cause h).1, Tab.look_del, if_pos rfl]; rfl
  | false =>
    have hs : closeSession cause id s = s := by
      unfold closeSession
      exact if_pos (by rw [h]; rfl)
    rw [hs, h]

theorem look_closeSession_other {id j : Nat} (cause : Nat) (h : j ≠ id) :
    (closeSession cause id s).ctl.sessions.look j = s.ctl.sessions.look j := by
  cases ho : sessionOpen s id with
  | true => rw [(closeSession_leaves cause ho).1, Tab.look_del, if_neg h]
  | false =>
    have hs : closeSession cause id s = s := by
      unfold closeSession
      exact if_pos (by rw [ho]; rfl)
    rw [hs]

theorem closeSession_evolves_refl (cause id : Nat) (s : State) :
    Evolves [.events, .rings, .sessions, .bone, .stores, .counters, .sampling, .keys, .keyOrders] s (closeSession cause id s) :=
  closeSession_evolves .refl Sub.rfl

/-- Once closed, a session stays closed while others close. -/
theorem sessionClosed_closeAll {id : Nat} (cause : Nat) (l : List Nat) (h : sessionOpen s id = false) :
    sessionOpen (l.foldl (fun s id => closeSession cause id s) s) id = false := by
  refine foldl_keeps (P := fun u => sessionOpen u id = false) (f := fun s id => closeSession cause id s) (fun u j hu => ?_) l s h
  by_cases hj : id = j
  · exact hj ▸ sessionOpen_closeSession_same cause id
  · rw [sessionOpen, look_closeSession_other cause hj]; exact hu

/-- Every session of the list closes and is told with its port. -/
theorem closeAll_leaves {id : Nat} (cause : Nat) (l : List Nat) (hid : id ∈ l) (s : State) (hopen : sessionOpen s id = true) :
    sessionOpen (l.foldl (fun s id => closeSession cause id s) s) id = false ∧
      Emitted s (l.foldl (fun s id => closeSession cause id s) s) (0x010 + (s.ctl.sessions.at id).port) 1 0x00D
        (cause * 2 ^ 24 + id) := by
  induction l generalizing s with
  | nil => simp at hid
  | cons j l ih =>
    rw [List.foldl_cons]
    by_cases hj : id = j
    · subst hj
      have hrest : Evolves _ (closeSession cause id s) (l.foldl (fun s id => closeSession cause id s) (closeSession cause id s)) :=
        foldl_keeps (P := fun u => Evolves _ (closeSession cause id s) u) (f := fun s id => closeSession cause id s)
          (fun u v hu => hu.trans (closeSession_evolves_refl cause v u)) l _ .refl
      exact ⟨sessionClosed_closeAll cause l (sessionOpen_closeSession_same cause id),
        hrest.emitted_mono (by decide) (closeSession_leaves cause hopen).2.1⟩
    · have hlook := look_closeSession_other (s := s) (id := j) cause hj
      have hat : (closeSession cause j s).ctl.sessions.at id = s.ctl.sessions.at id := by
        simp only [Tab.at, Tab.getD, hlook]
      obtain ⟨hclosed, hsaid⟩ := ih ((List.mem_cons.1 hid).resolve_left hj) (closeSession cause j s)
        (by rw [sessionOpen, hlook]; exact hopen)
      rw [hat] at hsaid
      exact ⟨hclosed, (emitted_now ((closeSession_evolves_refl cause j s).now_eq (by decide))).1 hsaid⟩

/-! A handshake (R386). -/

theorem authFail_leaves (port principal cause status : Nat) :
    .handshake port 0 status [] (helloWire 0 status []) ∈ (authFail port principal cause status s).out ∧
      Emitted s (authFail port principal cause status s) (0x010 + port) 3 0x00E (principal % 256 * 2 ^ 16 + cause) ∧
      (authFail port principal cause status s).ctl.sessions = s.ctl.sessions := by
  refine ⟨List.mem_append_right _ (List.mem_singleton.2 rfl), ?_, rfl⟩
  exact emitted_emit_of _ _ _ _ (State.now_setFldI s F.CTL_SESSIONS_AUTH_FAILS 0 _)

theorem sub_randomKey (n : Nat) : (randomKey n s).2.cip = s.cip ∧ (randomKey n s).2.ctl = s.ctl ∧ (randomKey n s).2.now = s.now :=
  ⟨rfl, rfl, rfl⟩

/-- The key that is stored, and the handle that names it. -/
theorem slotOf_storeKey {typ page nsid keyGen oekId i h : Nat} {key : Bytes} (hi : freeSlot s = some i)
    (hh : freeHandle s page typ = some h) (hlt : h < 64) (htyp : typ ≠ 1) : ∃ handle u, storeKey typ page nsid keyGen oekId key s = (u, 1, handle) ∧
      slotOf u page handle = some i ∧ u.ctl = s.ctl ∧ u.now = s.now := by
  refine ⟨_, _, by unfold storeKey; rw [hi, hh], ?_, ?_, ?_⟩
  · have hmod : handleOf (handleEntry s page h).gen h % 64 = h := by unfold handleOf; omega
    have hdiv : handleOf (handleEntry s page h).gen h / 64 = (handleEntry s page h).gen % 1024 := by unfold handleOf; omega
    unfold usedGen
    rw [if_neg htyp]
    unfold slotOf
    dsimp only
    rw [hmod, hdiv]
    simp [handleEntry, State.onCip]
  · unfold usedGen; rw [if_neg htyp]; rfl
  · unfold usedGen; rw [if_neg htyp]; rfl

theorem freeHandle_lt {page typ h : Nat} (hh : freeHandle s page typ = some h) : h < 64 := by
  unfold freeHandle at hh
  split at hh
  · split at hh
    · simp only [Option.some.injEq] at hh; omega
    · simp at hh
  · have := List.mem_of_find?_eq_some hh
    simp only [List.mem_range] at this
    omega

/-- The session that a handshake opens. -/
def welcomed (port principal id slot : Nat) (s : State) : State :=
  s.onCtl fun c => { c with sessions := c.sessions.ins id ⟨port, principal, 0, [], 0, s.now, s.fld F.CTL_CFG_IDLE_S, slot⟩ }

theorem welcomed_leaves (port principal id slot : Nat) : sessionOpen (welcomed port principal id slot s) id = true ∧
    ((welcomed port principal id slot s).ctl.sessions.at id).principal = principal := by
  have hlook : (welcomed port principal id slot s).ctl.sessions.look id =
      some ⟨port, principal, 0, [], 0, s.now, s.fld F.CTL_CFG_IDLE_S, slot⟩ := (Tab.look_ins ..).trans (if_pos rfl)
  constructor
  · rw [sessionOpen, hlook]; rfl
  · simp only [Tab.at, Tab.getD, hlook, Option.getD_some]

theorem sign192_evolves_refl (s : State) : Evolves [.regs, .regTru, .free] s (sign192 s) := sign192_evolves .refl Sub.rfl

theorem welcome_eq {port principal : Nat} {hello wrap : Bytes} {handle slot : Nat}
    (hstore : storeKey 3 0 0 0 0 (randomKey 32 s).1 (randomKey 32 (randomKey 32 s).2).2 = (u, 1, handle))
    (hslot : slotOf u 0 handle = some slot) : ∃ bytes wire, welcome port principal hello wrap s =
      (emit (0x010 + port) 0x00C 1 (principal % 256 * 2 ^ 16 + u.ctl.sessions.gap 1)
        (sign192 (welcomed port principal (u.ctl.sessions.gap 1) slot u))).send
          (.handshake port (u.ctl.sessions.gap 1) 0 bytes wire) := by
  unfold welcome
  dsimp only
  rw [hstore]
  dsimp only
  rw [hslot]
  exact ⟨_, _, rfl⟩

/-- A principal that is not valid is refused (R386). -/
theorem exec_hello_unknown {port : Fin 2} {payload : Bytes} {sigOk : Bool} (hlanes : mgmtLanes s = true)
    (hvalid : (s.ctl.principals.at (ofBe (payload.take 2))).valid = false) :
    exec (.hello port payload sigOk) s = .next (authFail port.val (ofBe (payload.take 2)) 1 0x11 s) := by
  change execHello port payload sigOk s = _
  unfold execHello
  dsimp only
  rw [if_neg (by rw [hlanes]; decide), if_pos (by rw [hvalid]; decide)]

/-- A handshake that passes every test (R386). -/
theorem exec_hello_valid {port : Fin 2} {payload k : Bytes} (hlanes : mgmtLanes s = true)
    (hvalid : (s.ctl.principals.at (ofBe (payload.take 2))).valid = true)
    (hport : bitAt (s.ctl.principals.at (ofBe (payload.take 2))).ports port.val = true)
    (hkey : principalKey s (s.ctl.principals.at (ofBe (payload.take 2))) = some k)
    (hroom : s.ctl.sessions.countWhere (fun _ x => x.port == port.val) < 4) (hentropy : s.fld F.TRU_STAT_ENTROPY_OK = 1) :
    exec (.hello port payload true) s = .next (welcome port.val (ofBe (payload.take 2)) payload k s) := by
  change execHello port payload true s = _
  unfold execHello
  dsimp only
  rw [if_neg (by rw [hlanes]; decide), if_neg (by rw [hvalid]; decide), if_neg (by rw [hport]; decide), if_neg (by decide), hkey]
  dsimp only
  rw [if_neg (by omega), if_neg (by omega)]

/-! The Bone's opcodes (R394). -/

theorem bone_direct (id : Nat) (rec : EventRec) (ext : Bytes) : (direct id rec ext s).ctl.bone = s.ctl.bone :=
  (direct_evolves .refl Sub.rfl : Evolves _ s (direct id rec ext s)).same .bone (by decide)

theorem grantBone_leaves (path session lease id : Nat) : (grantBone path session lease s).ctl.bone =
      ⟨true, path, session, s.now + lease * 1000000000, lease * 1000000000⟩ ∧
    Emitted s (grantBone path session lease s) 0x004 1 0x008 (path * 2 ^ 16 + session % 2 ^ 16) ∧
    (sessionOpen s id = true → sessionOpen (grantBone path session lease s) id = true) := by
  have hdirect (rec : EventRec) (u : State) : Evolves _ u (direct session rec [] u) := direct_evolves .refl Sub.rfl
  unfold grantBone
  dsimp only
  split
  · exact ⟨rfl, emitted_emit_of _ _ _ _ rfl, fun h => h⟩
  · refine ⟨bone_direct _ _ _, (hdirect _ _).emitted_mono (by decide) (emitted_emit_of _ _ _ _ rfl), fun h => ?_⟩
    exact sessionOpen_direct _ _ _ h

/-- The reply and what a response leaves. -/
theorem replied_served {rights : List Nat} {bone recovery : Bool} {op st : Nat} {p : Reply} {run : State → State × Nat × Reply}
    (h : Serves s r rights bone recovery) (hrun : run (heard r s) = (u, st, p)) (hopen : sessionOpen u r.session = true) :
    Replied (serve op rights bone recovery r run s) r op st p := by
  rw [serve_of_serves op run h hrun]
  exact replied_respond hopen op st p

theorem now_heard : (heard r s).now = s.now := (heard_evolves r s).now_eq (by decide)

theorem leaseOf_heard (lease : Nat) : leaseOf (heard r s) lease = leaseOf s lease := by
  unfold leaseOf
  rw [(heard_evolves r s).fld_eq F.CTL_CFG_LEASE_S (by decide)]

/-! The streams of rings (R387, R399). -/

/-- A ring without a reader is bound. -/
def ringTaken (ring session : Nat) (s : State) : State :=
  onRing ring (fun x => { x with reader := 2, session := session, unacked := [] }) s

/-- What a subscription does. -/
def subscribeRun (ring : Nat) (r : Req) (s : State) : State × Nat × Reply :=
  if 8 ≤ ring then (s, 8, Reply.none)
  else if (s.ctl.rings.at ring).reader ≠ 0 then (s, 7, .none)
  else (ringTaken ring r.session s, 0, .number (nextRecord (s.ctl.rings.at ring)))

theorem exec_eventSubscribe (r : Req) (ring : Nat) : exec (.eventSubscribe r ring) s =
    .next (if !ringBound s ring r.session ∧ ringBound (serve 0x40 [1] false false r (subscribeRun ring r) s) ring r.session then
      sendRing ring (serve 0x40 [1] false false r (subscribeRun ring r) s)
    else serve 0x40 [1] false false r (subscribeRun ring r) s) := rfl

theorem subscribeRun_free {ring : Nat} (hlt : ring < 8) (hfree : (s.ctl.rings.at ring).reader = 0) :
    subscribeRun ring r s = (ringTaken ring r.session s, 0, .number (nextRecord (s.ctl.rings.at ring))) := by
  unfold subscribeRun
  rw [if_neg (by omega), if_neg (not_not.2 hfree)]

theorem subscribeRun_bound {ring : Nat} (hlt : ring < 8) (hbound : (s.ctl.rings.at ring).reader ≠ 0) :
    subscribeRun ring r s = (s, 7, .none) := by
  unfold subscribeRun
  rw [if_neg (by omega), if_pos hbound]

theorem ringTaken_leaves (ring session : Nat) : ((ringTaken ring session s).ctl.rings.at ring).reader = 2 ∧
    ((ringTaken ring session s).ctl.rings.at ring).session = session ∧
    ((ringTaken ring session s).ctl.rings.at ring).recs = (s.ctl.rings.at ring).recs := by
  unfold ringTaken
  rw [ringAt_onRing_same]
  exact ⟨rfl, rfl, rfl⟩

theorem sessionOpen_onRing (v id : Nat) (f : Ring → Ring) : sessionOpen (onRing v f s) id = sessionOpen s id := rfl

theorem ringStands_respond (v op st : Nat) (p : Reply) : RingStands v s (respond r op st p s) := .of_rings (rings_respond ..) v

theorem sendRing_evolves_refl (v : Nat) (s : State) : Evolves [.rings, .sessions, .out] s (sendRing v s) := sendRing_evolves .refl Sub.rfl

/-- What an acknowledgement takes out of a ring. -/
def ringAcked (ring seq : Nat) (s : State) : State :=
  onRing ring (fun x =>
    { x with recs := x.recs.filter (fun e => decide (seq < e.1)), unacked := x.unacked.filterMap (trimMsg seq) }) s

/-- What an acknowledgement does. -/
def ackRun (ring seq : Nat) (r : Req) (s : State) : State × Nat × Reply :=
  if 8 ≤ ring then (s, 8, .none)
  else if !ringBound s ring r.session then (s, 0x0B, .none)
  else (sendRing ring (ringReport ring (ringAcked ring seq s)), 0, .none)

theorem exec_eventAck (r : Req) (ring seq : Nat) :
    exec (.eventAck r ring seq) s = .next (serve 0x41 [1] false false r (ackRun ring seq r) s) := rfl

theorem ringBound_lt {v id : Nat} (h : ringBound s v id = true) : v < 8 := by
  simp only [ringBound, Bool.and_eq_true, decide_eq_true_eq] at h
  exact h.1.1

theorem ackRun_bound {ring : Nat} (seq : Nat) (h : ringBound s ring r.session = true) : ackRun ring seq r s =
    (sendRing ring (ringReport ring (ringAcked ring seq s)), 0, .none) := by
  have hlt := ringBound_lt h
  unfold ackRun
  rw [if_neg (by omega), if_neg (by rw [h]; decide)]

theorem ringAcked_leaves (ring seq : Nat) :
    ((ringAcked ring seq s).ctl.rings.at ring).recs = (s.ctl.rings.at ring).recs.filter (fun e => decide (seq < e.1)) ∧
    ((ringAcked ring seq s).ctl.rings.at ring).lost = (s.ctl.rings.at ring).lost := by
  unfold ringAcked
  rw [ringAt_onRing_same]
  exact ⟨rfl, rfl⟩

/-- What the end of a subscription does. -/
def unsubscribeRun (ring : Nat) (r : Req) (s : State) : State × Nat × Reply :=
  if 8 ≤ ring then (s, 8, .none)
  else if !ringBound s ring r.session then (s, 0x0B, .none)
  else (releaseRing ring s, 0, .none)

theorem exec_eventUnsubscribe (r : Req) (ring : Nat) :
    exec (.eventUnsubscribe r ring) s = .next (serve 0x42 [1] false false r (unsubscribeRun ring r) s) := rfl

theorem unsubscribeRun_bound {ring : Nat} (h : ringBound s ring r.session = true) : unsubscribeRun ring r s =
    (releaseRing ring s, 0, .none) := by
  have hlt := ringBound_lt h
  unfold unsubscribeRun
  rw [if_neg (by omega), if_neg (by rw [h]; decide)]

theorem releaseRing_leaves (v : Nat) : ((releaseRing v s).ctl.rings.at v).reader = 0 ∧
    ((releaseRing v s).ctl.rings.at v).recs = (s.ctl.rings.at v).recs := by
  unfold releaseRing
  rw [ringAt_onRing_same]
  exact ⟨rfl, rfl⟩

theorem ringBound_heard (v : Nat) (id : Nat) : ringBound (heard r s) v id = ringBound s v id :=
  ringBound_congr (.of_rings rings_heard v) id

/-! The rest of the opcodes. -/

theorem exec_ping (r : Req) : exec (.ping r) s = .next (serve 0x01 [0] false true r (fun s => (s, 0, .gts s.now)) s) := rfl

/-- What an acquisition of the Bone does. -/
def acquireRun (lease : Nat) (r : Req) (s : State) : State × Nat × Reply :=
  if s.ctl.bone.held then (s, 5, boneHolder s)
  else (grantBone (pathOf r.port.val) r.session (leaseOf s lease) s, 0,
    boneHolder (grantBone (pathOf r.port.val) r.session (leaseOf s lease) s))

theorem exec_boneAcquire (r : Req) (lease : Nat) :
    exec (.boneAcquire r lease) s = .next (serve 0x20 [2] false true r (acquireRun lease r) s) := rfl

/-- What a release of the Bone does. -/
def releaseRun (r : Req) (s : State) : State × Nat × Reply :=
  if holdsBone s (pathOf r.port.val) r.session then (releaseBone s, 0, .none) else (s, 4, .none)

theorem exec_boneRelease (r : Req) : exec (.boneRelease r) s = .next (serve 0x21 [2] false true r (releaseRun r) s) := rfl

theorem releaseBone_leaves (hheld : s.ctl.bone.held = true) : (releaseBone s).ctl.bone = default ∧
    Emitted s (releaseBone s) 0x004 1 0x009 s.ctl.bone.data ∧ (releaseBone s).ctl.sessions = s.ctl.sessions := by
  unfold releaseBone
  rw [if_pos hheld]
  exact ⟨rfl, emitted_emit_of _ _ _ _ rfl, rfl⟩

/-- What a read of the critical event log does. -/
def clogRun (first count : Nat) (s : State) : State × Nat × Reply :=
  if 500 < count then (s, 8, .none)
  else if s.ctl.clog.length ≤ first then (s, 0x0B, .none)
  else (s, 0, .records ((s.ctl.clog.drop first).take count))

theorem exec_clogRead (r : Req) (first count : Nat) :
    exec (.clogRead r first count) s = .next (serve 0x43 [0] false true r (clogRun first count) s) := rfl

theorem clog_heard : (heard r s).ctl.clog = s.ctl.clog := (heard_evolves r s).same .clog (by decide)

theorem exec_sessionClose_served (h : Heard s r) : exec (.sessionClose r) s =
    .next (closeSession 1 r.session (serve 0x90 [] false true r (fun s => (s, 0, .none)) s)) := by
  obtain ⟨hopen, hport, htag, hseq⟩ := h
  change execSessionClose r s = _
  unfold execSessionClose
  dsimp only
  rw [if_pos (by simp [hopen, hport, htag, hseq])]

/-- A message of a ring is counted under its new sequence number. -/
def messageRenumbered (seq next : Nat) (x : Ring) : Ring :=
  { x with unacked := x.unacked.map fun y => if y.seq = seq then { y with seq := next } else y }

theorem exec_eventMessageResend {ring : Fin 8} {seq : Nat} {m : RingMsg}
    (hm : (s.ctl.rings.at ring.val).unacked.find? (fun m => m.seq == seq) = some m) (hreader : (s.ctl.rings.at ring.val).reader = 2)
    (hopen : sessionOpen s (s.ctl.rings.at ring.val).session = true) : exec (.eventMessageResend ring seq) s =
      .next (usedSeq (s.ctl.rings.at ring.val).session (onRing ring.val
        (messageRenumbered seq (s.ctl.sessions.at (s.ctl.rings.at ring.val).session).nextSeq) (s.send
        (.ringMessage (s.ctl.sessions.at (s.ctl.rings.at ring.val).session).port (s.ctl.rings.at ring.val).session
        (s.ctl.sessions.at (s.ctl.rings.at ring.val).session).nextSeq ring.val m.first
        (((s.ctl.rings.at ring.val).recs.filter fun e => decide (m.first ≤ e.1) && decide (e.1 < m.first + m.count)).map (·.2))
        (mgmtWire s (s.ctl.rings.at ring.val).session 3 0 0 0 (ringPayload ring.val m.first
          (((s.ctl.rings.at ring.val).recs.filter fun e =>
            decide (m.first ≤ e.1) && decide (e.1 < m.first + m.count)).map (·.2)))))))) := by
  change execEventMessageResend ring seq s = _
  unfold execEventMessageResend
  dsimp only
  rw [hm]
  dsimp only
  rw [if_neg (by rw [hreader, hopen]; decide)]
  rfl

theorem sessionOpen_respond (op st : Nat) (p : Reply) (h : sessionOpen s r.session = true) :
    sessionOpen (respond r op st p s) r.session = true := by
  unfold respond
  rw [if_pos h]
  exact sessionOpen_onSession fun hd => absurd (congrArg Session.sendSeq hd) (Nat.succ_ne_zero _)

/-- The port of a session whose answer leaves stands. -/
theorem sessionPort_respond (op st : Nat) (p : Reply) :
    ((respond r op st p s).ctl.sessions.at r.session).port = (s.ctl.sessions.at r.session).port := by
  unfold respond
  split
  · unfold usedSeq
    refine (congrArg Session.port (sessionAt_onSession r.session r.session (fun x => { x with sendSeq := x.sendSeq + 1 }))).trans ?_
    rw [if_pos rfl, sessionAt_onSession, if_pos rfl]
    rfl
  · rfl

theorem Tab.mem_of_look {α : Type} {t : Tab α} {k : Nat} {x : α} (h : t.look k = some x) : (k, x) ∈ t := by
  induction t with
  | nil => simp [Tab.look] at h
  | cons e t ih =>
    obtain ⟨j, v⟩ := e
    simp only [Tab.look] at h
    split at h
    · next hk => simp only [Option.some.injEq] at h; subst hk; subst h; exact List.mem_cons_self
    · exact List.mem_cons_of_mem _ (ih h)

theorem mem_keysWhere_of_open {id : Nat} {p : Nat → Session → Bool} (hopen : sessionOpen s id = true)
    (hp : p id (s.ctl.sessions.at id) = true) : id ∈ s.ctl.sessions.keysWhere p := by
  obtain ⟨x, hx⟩ := Option.isSome_iff_exists.1 hopen
  have hat : s.ctl.sessions.at id = x := by simp only [Tab.at, Tab.getD, hx, Option.getD_some]
  rw [hat] at hp
  exact List.mem_map.2 ⟨(id, x), List.mem_filter.2 ⟨Tab.mem_of_look hx, hp⟩, rfl⟩

/-- Settles O54: a request that is served reads what stood before it, a ring's stream keeps its reader and records, and each
session that closes is told with its port. -/
theorem sessionsComplete : Obligations.SessionsComplete := by
  unfold Obligations.SessionsComplete
  refine ⟨fun port principal payload sigOk s hlanes hprincipal hvalid => ?unknown,
    fun port principal payload k s hlanes hprincipal hvalid hport hkey hroom hentropy hslot hhandle => ?welcome,
    fun r s hserves => ?ping, fun r lease s hserves hfree => ?acquire, fun r lease s hserves hheld => ?held,
    fun r s hserves hholds => ?release, fun r ring s hserves hlt hfree => ?subscribe, fun r ring s hserves hlt hbound => ?bound,
    fun r ring seq s hserves hbound => ?ack, fun r ring s hserves hbound => ?unsubscribe,
    fun ring seq m s hm hreader hopen => ?resend, fun r first count s hserves hcount hfirst => ?clog, fun r s hserves => ?close,
    fun r opcode s hserves => ?badOpcode, fun session s hopen => ?idle, fun port id s hopen hport => ?linkLoss,
    fun port target s hlanes hlength htarget => ?neighbour⟩
  case unknown =>
    subst hprincipal
    exact ⟨_, exec_hello_unknown hlanes hvalid, authFail_leaves ..⟩
  case welcome =>
    subst hprincipal
    obtain ⟨i, hi⟩ := Option.ne_none_iff_exists'.1 hslot
    obtain ⟨h, hh⟩ := Option.ne_none_iff_exists'.1 hhandle
    obtain ⟨handle, u, hstore, hslotOf, hctl, hnow⟩ := slotOf_storeKey (s := (randomKey 32 (randomKey 32 s).2).2) (nsid := 0)
      (keyGen := 0) (oekId := 0) (key := (randomKey 32 s).1) hi hh (freeHandle_lt hh) (by decide : (3 : Nat) ≠ 1)
    obtain ⟨bytes, wire, heq⟩ := welcome_eq (port := port.val) (principal := ofBe (payload.take 2)) (hello := payload) (wrap := k)
      hstore hslotOf
    have hsign := sign192_evolves_refl (welcomed port.val (ofBe (payload.take 2)) (u.ctl.sessions.gap 1) i u)
    obtain ⟨hopened, hprincipal⟩ := welcomed_leaves (s := u) port.val (ofBe (payload.take 2)) (u.ctl.sessions.gap 1) i
    have hgap : u.ctl.sessions.gap 1 = s.ctl.sessions.gap 1 := by rw [hctl]; rfl
    rw [hgap] at heq hsign hopened hprincipal
    refine ⟨_, (exec_hello_valid hlanes hvalid hport hkey hroom hentropy).trans (congrArg Host.Outcome.next heq), ?_, ?_, ?_⟩
    · exact (sessionOpen_of_evolves hsign (by decide) _).trans hopened
    · have hsessions := sessions_of_evolves hsign (by decide)
      exact (congrArg (fun x : Tab Session => (x.at (s.ctl.sessions.gap 1)).principal) hsessions).trans hprincipal
    · exact emitted_emit_of _ _ _ _ ((hsign.now_eq (by decide)).trans hnow)
  case ping =>
    refine ⟨_, exec_ping r, replied_served hserves ?_ (sessionOpen_heard hserves.heard)⟩
    rw [now_heard]
  case acquire =>
    have hnot : (heard r s).ctl.bone.held = false := bone_heard.1.trans hfree
    obtain ⟨hbone, hsaid, hopens⟩ := grantBone_leaves (s := heard r s) (pathOf r.port.val) r.session (leaseOf (heard r s) lease)
      r.session
    have hrun : acquireRun lease r (heard r s) = (grantBone (pathOf r.port.val) r.session (leaseOf (heard r s) lease) (heard r s), 0,
        .holder (2 * r.port.val) r.session) := by
      unfold acquireRun
      rw [if_neg (by rw [hnot]; decide), boneHolder, hbone]
      rfl
    refine ⟨_, exec_boneAcquire r lease, ?_, replied_served hserves hrun (hopens (sessionOpen_heard hserves.heard)), ?_⟩
    · rw [serve_of_serves _ _ hserves hrun, bone_respond, hbone, now_heard, leaseOf_heard]
      rfl
    · rw [serve_of_serves _ _ hserves hrun]
      exact (respond_evolves_refl ..).emitted_mono (by decide) ((emitted_now now_heard).1 hsaid)
  case held =>
    obtain ⟨hheld', hpath, hsession⟩ := bone_heard (s := s) (r := r)
    have hrun : acquireRun lease r (heard r s) = (heard r s, 5, .holder s.ctl.bone.path s.ctl.bone.session) := by
      unfold acquireRun
      rw [if_pos (hheld'.trans hheld), boneHolder, hpath, hsession]
    refine ⟨_, exec_boneAcquire r lease, ?_, ?_, replied_served hserves hrun (sessionOpen_heard hserves.heard)⟩
    · rw [serve_of_serves _ _ hserves hrun, bone_respond, hpath]
    · rw [serve_of_serves _ _ hserves hrun, bone_respond, hsession]
  case release =>
    obtain ⟨hheld', hpath, hsession⟩ := bone_heard (s := s) (r := r)
    have hheld : s.ctl.bone.held = true := by
      simp only [holdsBone, Bool.and_eq_true] at hholds
      exact hholds.1.1
    have hrun : releaseRun r (heard r s) = (releaseBone (heard r s), 0, .none) :=
      if_pos ((holdsBone_heard (pathOf r.port.val) r.session).trans hholds)
    obtain ⟨hbone, hsaid, hsessions⟩ := releaseBone_leaves (hheld'.trans hheld)
    refine ⟨_, exec_boneRelease r, ?_,
      replied_served hserves hrun ((sessionOpen_of_sessions hsessions _).trans (sessionOpen_heard hserves.heard)), ?_⟩
    · rw [serve_of_serves _ _ hserves hrun, bone_respond, hbone]
    · have hdata : (heard r s).ctl.bone.data = s.ctl.bone.data := by unfold Bone.data; rw [hpath, hsession]
      rw [serve_of_serves _ _ hserves hrun]
      rw [hdata] at hsaid
      exact (respond_evolves_refl ..).emitted_mono (by decide) ((emitted_now now_heard).1 hsaid)
  case subscribe =>
    have hrings : (heard r s).ctl.rings = s.ctl.rings := rings_heard
    have hrun := subscribeRun_free (s := heard r s) (r := r) hlt (by rw [hrings]; exact hfree)
    rw [hrings] at hrun
    have hreplied := replied_served (op := 0x40) hserves hrun (sessionOpen_heard hserves.heard)
    obtain ⟨hreader, hsession, hrecs⟩ := ringTaken_leaves (s := heard r s) ring r.session
    rw [hrings] at hrecs
    have hstands := ringStands_respond (s := ringTaken ring r.session (heard r s)) (r := r) ring 0x40 0
      (.number (nextRecord (s.ctl.rings.at ring)))
    rw [← serve_of_serves 0x40 (subscribeRun ring r) hserves hrun] at hstands
    refine ⟨_, exec_eventSubscribe r ring, ?_⟩
    dsimp only
    split
    · have hsent := hstands.trans (ringStands_sendRing ring)
      exact ⟨hsent.reader.trans hreader, hsent.session.trans hsession, hsent.recs.trans hrecs,
        (sendRing_evolves_refl ..).replied hreplied⟩
    · exact ⟨hstands.reader.trans hreader, hstands.session.trans hsession, hstands.recs.trans hrecs, hreplied⟩
  case bound =>
    have hrings : (heard r s).ctl.rings = s.ctl.rings := rings_heard
    have hrun := subscribeRun_bound (s := heard r s) (r := r) hlt (by rw [hrings]; exact hbound)
    have hstands : (serve 0x40 [1] false false r (subscribeRun ring r) s).ctl.rings = s.ctl.rings := by
      rw [serve_of_serves _ _ hserves hrun, rings_respond, hrings]
    refine ⟨_, (exec_eventSubscribe r ring).trans (congrArg Host.Outcome.next (if_neg ?_)), hstands,
      replied_served hserves hrun (sessionOpen_heard hserves.heard)⟩
    rw [ringBound_congr (.of_rings hstands ring)]
    rintro ⟨hnot, hyes⟩
    rw [hyes] at hnot
    exact absurd hnot (by decide)
  case ack =>
    have hrun := ackRun_bound (s := heard r s) seq ((ringBound_heard ring r.session).trans hbound)
    refine ⟨_, exec_eventAck r ring seq, replied_served hserves hrun ?_, fun hlost => ?_⟩
    · exact sessionOpen_sendRing ring (sessionOpen_ringReport ring (sessionOpen_heard hserves.heard))
    · obtain ⟨hrecs, hlost'⟩ := ringAcked_leaves (s := heard r s) ring seq
      rw [rings_heard] at hrecs hlost'
      rw [serve_of_serves _ _ hserves hrun, rings_respond, (ringStands_sendRing ring).recs,
        ringReport_of_none_lost (hlost'.trans hlost), hrecs]
  case unsubscribe =>
    have hrun := unsubscribeRun_bound (s := heard r s) ((ringBound_heard ring r.session).trans hbound)
    obtain ⟨hreader, hrecs⟩ := releaseRing_leaves (s := heard r s) ring
    refine ⟨_, exec_eventUnsubscribe r ring, ?_, ?_, replied_served hserves hrun (sessionOpen_heard hserves.heard)⟩
    · rw [serve_of_serves _ _ hserves hrun, rings_respond, hreader]
    · rw [serve_of_serves _ _ hserves hrun, rings_respond, hrecs, rings_heard]
  case resend =>
    exact ⟨_, exec_eventMessageResend hm hreader hopen, List.mem_append_right _ (List.mem_singleton.2 rfl)⟩
  case clog =>
    have hrun : clogRun first count (heard r s) = (heard r s, 0, .records ((s.ctl.clog.drop first).take count)) := by
      unfold clogRun
      rw [clog_heard, if_neg (by omega), if_neg (by omega)]
    refine ⟨_, exec_clogRead r first count, replied_served hserves hrun (sessionOpen_heard hserves.heard), ?_⟩
    rw [serve_of_serves _ _ hserves hrun]
    have hstands (u : State) (op st : Nat) (p : Reply) : (respond r op st p u).ctl.clog = u.ctl.clog :=
      (respond_evolves_refl op st p u).same .clog (by decide)
    exact (hstands ..).trans clog_heard
  case close =>
    have hserved := serve_of_serves 0x90 (fun s => (s, 0, .none)) hserves (u := heard r s) rfl
    have hreplied := replied_served (op := 0x90) (run := fun s => (s, 0, .none)) hserves (u := heard r s) rfl
      (sessionOpen_heard hserves.heard)
    have hopen : sessionOpen (respond r 0x90 0 .none (heard r s)) r.session = true :=
      sessionOpen_respond _ _ _ (sessionOpen_heard hserves.heard)
    obtain ⟨_, hsaid, _⟩ := closeSession_leaves 1 hopen
    rw [sessionPort_respond, session_heard.2, hserves.2.1] at hsaid
    refine ⟨_, exec_sessionClose_served hserves.heard, sessionOpen_closeSession_same _ _,
      (closeSession_evolves_refl ..).replied hreplied, ?_⟩
    rw [hserved]
    exact (emitted_now (((respond_evolves_refl ..).now_eq (by decide)).trans now_heard)).1 hsaid
  case badOpcode =>
    have hreceived : exec (.badOpcode r opcode) s = .next (respond r opcode 2 .none (heard r s)) :=
      congrArg Host.Outcome.next (receive_of_heard hserves.heard _)
    refine ⟨_, hreceived, replied_respond (sessionOpen_heard hserves.heard) _ _ _, ?_, ?_⟩
    · rw [rings_respond, rings_heard]
    · have hresponded (u : State) : (respond r opcode 2 .none u).regs = u.regs :=
        (respond_evolves_refl opcode 2 .none u).same .regs (by decide)
      exact (hresponded _).trans ((heard_evolves r s).same .regs (by decide))
  case idle =>
    obtain ⟨_, hsaid, hbone⟩ := closeSession_leaves 2 hopen
    exact ⟨_, rfl, sessionOpen_closeSession_same _ _, hsaid, hbone⟩
  case linkLoss =>
    have hid : id ∈ s.ctl.sessions.keysWhere fun _ x => x.port == port.val :=
      mem_keysWhere_of_open hopen (by rw [hport]; exact beq_self_eq_true _)
    obtain ⟨hclosed, hsaid⟩ := closeAll_leaves 3 _ hid s hopen
    rw [hport] at hsaid
    exact ⟨_, rfl, hclosed, hsaid⟩
  case neighbour =>
    refine ⟨_, ?_, rfl⟩
    change execMgmtNeighbourDiscovery port true target s = _
    unfold execMgmtNeighbourDiscovery
    rw [if_pos (by simp [hlanes, hlength, ← htarget])]

end Sys2Proof.Machine
end

section
/-! PROOFS. The boot and the reference clocks (R304, R452, R455 to R464, R477): what a firmware that runs keeps to the end of the
boot, and what the loss of a clock does to links. -/

namespace Sys2Proof.Machine

variable {s t u : State} {w : List Part} {slot : Nat}

/-! The boot keeps what it set. -/

/-- The slot's firmware runs under the watchdog. -/
structure FirmwareRuns (slot : Nat) (s : State) : Prop where
  fwSlot : s.boot.fwSlot = slot
  watchdog : s.boot.watchdogOn = true

/-- The slot's firmware runs, the session key is made, and the boot is past step 6. -/
structure KeyMade (slot : Nat) (s : State) : Prop extends FirmwareRuns slot s where
  step : 6 ≤ s.boot.step
  key : s.tru.sessionKeyMade = true

theorem boot_of_evolves (h : Evolves w s t) (hw : .boot ∉ w) : t.boot = s.boot := h.same .boot hw

theorem tru_of_evolves (h : Evolves w s t) (hw : .trust ∉ w) : t.tru = s.tru := h.same .trust hw

theorem FirmwareRuns.of_boot (h : FirmwareRuns slot s) (hb : t.boot = s.boot) : FirmwareRuns slot t :=
  ⟨by rw [hb]; exact h.fwSlot, by rw [hb]; exact h.watchdog⟩

theorem KeyMade.of_parts (h : KeyMade slot s) (hb : t.boot = s.boot) (ht : t.tru.sessionKeyMade = s.tru.sessionKeyMade) :
    KeyMade slot t := ⟨h.toFirmwareRuns.of_boot hb, by rw [hb]; exact h.step, ht.trans h.key⟩

theorem KeyMade.of_evolves (h : KeyMade slot s) (he : Evolves w s t) (hboot : .boot ∉ w) (htrust : .trust ∉ w) : KeyMade slot t :=
  h.of_parts (boot_of_evolves he hboot) (by rw [tru_of_evolves he htrust])

theorem KeyMade.onBoot (h : KeyMade slot s) (f : Boot → Boot) (hfw : (f s.boot).fwSlot = s.boot.fwSlot)
    (hwatchdog : (f s.boot).watchdogOn = s.boot.watchdogOn) (hstep : 6 ≤ (f s.boot).step) : KeyMade slot (s.onBoot f) :=
  ⟨⟨hfw.trans h.fwSlot, hwatchdog.trans h.watchdog⟩, hstep, h.key⟩

theorem loadShelf_leaves (b : Bytes) : (loadShelf b s).boot = s.boot ∧ (loadShelf b s).tru.sessionKeyMade = s.tru.sessionKeyMade := by
  unfold loadShelf
  dsimp only
  split
  · exact ⟨rfl, rfl⟩
  · split
    · exact ⟨rfl, rfl⟩
    · split
      · exact ⟨rfl, rfl⟩
      · exact ⟨rfl, rfl⟩

/-- The registers and tables of an image up to its shelf. -/
def imageLoaded (old : State) (b : Bytes) (s : State) : State :=
  setFans (loadRings b (settleAll old (loadNetwork b (periodChanged (loadRegisters b (dropChangedPorts b s))))))

/-- The rest of an image's tables. -/
def imageAccess (boot : Bool) (b : Bytes) (s : State) : State :=
  loadRed boot b (loadAccess b (loadNamespaces b (loadManagement b s)))

theorem imageLoaded_evolves (old : State) (b : Bytes) : Evolves
    [.events, .rings, .counters, .sampling, .commands, .batches, .classifier, .punts, .groups, .tables, .traffic, .regs, .regCtl,
      .regPrt, .regCls, .regSwc, .regTmg, .regXpt, .regCmd, .regLay, .regFix, .regDrv, .regCip, .regTru, .regPwr, .regHep, .regRed,
      .regTel, .out] s (imageLoaded old b s) :=
  setFans_evolves (loadRings_evolves (settleAll_evolves (loadNetwork_evolves (periodChanged_evolves (loadRegisters_evolves
    (dropChangedPorts_evolves .refl (Sub.of Sub.rfl rfl)) (Sub.of Sub.rfl rfl)) (Sub.of Sub.rfl rfl)) (Sub.of Sub.rfl rfl))
    (Sub.of Sub.rfl rfl)) (Sub.of Sub.rfl rfl)) (Sub.of Sub.rfl rfl)

theorem imageAccess_evolves (boot : Bool) (b : Bytes) : Evolves
    [.events, .time, .principals, .identity, .counters, .sampling, .namespaces, .chains, .mapping, .keys, .keyOrders, .hostReads,
      .leash, .roles, .regs, .regCtl, .regCip, .regRed, .free] s (imageAccess boot b s) :=
  loadRed_evolves (loadAccess_evolves (loadNamespaces_evolves (loadManagement_evolves .refl (Sub.of Sub.rfl rfl))
    (Sub.of Sub.rfl rfl)) (Sub.of Sub.rfl rfl)) (Sub.of Sub.rfl rfl)

/-- An image that is applied is noted. -/
def imageNoted (slot : Nat) (b : Bytes) (s : State) : State :=
  let s := s.onCtl fun c => { c with image := b, running := some slot }
  let signer := (s.tru.imageKeys.find? fun k => digestBytes (Config.sha256 k.2) == imgSigner b).map (·.1)
  let s := s.onTru fun t => { t with imageSigner := signer }
  recordRecovery (s.onBoot fun x => { x with lastProfile := some slot })

theorem applyImage_eq (boot pins : Bool) (slot : Nat) (b : Bytes) : applyImage boot pins slot b s =
    if !boot ∧ redState (emit 0x005 0x011 1 (b2n pins * 8 + slot)
        (imageNoted slot b (imageAccess boot b (loadShelf b (imageLoaded s b s))))) = 4 then
      enterJoining (emit 0x005 0x011 1 (b2n pins * 8 + slot)
        (imageNoted slot b (imageAccess boot b (loadShelf b (imageLoaded s b s)))))
    else emit 0x005 0x011 1 (b2n pins * 8 + slot) (imageNoted slot b (imageAccess boot b (loadShelf b (imageLoaded s b s)))) := rfl

theorem keyMade_imageNoted (n : Nat) (b : Bytes) (h : KeyMade slot s) : KeyMade slot (imageNoted n b s) :=
  ⟨⟨h.fwSlot, h.watchdog⟩, h.step, h.key⟩

theorem keyMade_applyImage (boot pins : Bool) (n : Nat) (b : Bytes) (h : KeyMade slot s) :
    KeyMade slot (applyImage boot pins n b s) := by
  have hloaded : KeyMade slot (imageLoaded s b s) := h.of_evolves (imageLoaded_evolves s b) (by decide) (by decide)
  have hshelf := hloaded.of_parts (loadShelf_leaves b).1 (loadShelf_leaves b).2
  have hnoted := keyMade_imageNoted n b (hshelf.of_evolves (imageAccess_evolves boot b) (by decide) (by decide))
  have hemit : KeyMade slot (emit 0x005 0x011 1 (b2n pins * 8 + n)
      (imageNoted n b (imageAccess boot b (loadShelf b (imageLoaded s b s))))) :=
    hnoted.of_evolves (emit_evolves .refl Sub.rfl) (by decide) (by decide)
  rw [applyImage_eq]
  split
  · exact hemit.of_evolves (enterJoining_evolves .refl Sub.rfl) (by decide) (by decide)
  · exact hemit

/-- The ports and legs come up, and RED leaves BOOT. -/
def portsReleased (s : State) : State :=
  let s := (List.range 48).foldl bringUpPort s
  let s := (List.range 48).foldl (fun s n => if (s.drv.slots.at n).seated then legSeated n s else s) s
  leaveBoot s

theorem portsReleased_evolves : Evolves
    [.events, .counters, .sampling, .commands, .drivePorts, .driveSlots, .leash, .replicas, .roles, .legs, .regs, .regPwr, .regRed,
      .out] s (portsReleased s) := by
  refine leaveBoot_evolves ?_ (Sub.of Sub.rfl rfl)
  refine foldl_keeps (fun u n hu => .ite (fun _ => legSeated_evolves hu (Sub.of Sub.rfl rfl)) fun _ => hu) _ _ ?_
  exact foldl_keeps (fun u n hu => bringUpPort_evolves hu (Sub.of Sub.rfl rfl)) _ _ .refl

theorem keyMade_applyAndRelease (n : Nat) (b : Bytes) (h : KeyMade slot s) : KeyMade slot (applyAndRelease n b s) := by
  have himage := keyMade_applyImage true (!s.boot.warm || s.boot.lastProfile.isNone) n b
    (h.onBoot (fun x => { x with step := 7 }) rfl rfl (show 6 ≤ 7 by decide))
  have hstep := himage.onBoot (fun x => { x with step := 8 }) rfl rfl (show 6 ≤ 8 by decide)
  exact (hstep.of_evolves (releaseEnables_evolves .refl Sub.rfl) (by decide) (by decide)).of_evolves portsReleased_evolves
    (by decide) (by decide)

/-- A recovery begins: the sessions authenticate against the recovery record. -/
theorem enterRecovery_leaves (kind : Nat) : (enterRecovery kind s).boot = { s.boot with recovery := kind } ∧
    (enterRecovery kind s).tru = s.tru ∧ (enterRecovery kind s).now = s.now ∧
    Emitted s (enterRecovery kind s) 0x007 4 0x015 kind := by
  unfold enterRecovery
  dsimp only
  split
  · exact ⟨rfl, rfl, rfl, emitted_emit_of _ _ _ _ rfl⟩
  · exact ⟨rfl, rfl, rfl, emitted_emit_of _ _ _ _ rfl⟩

theorem keyMade_enterRecovery (kind : Nat) (h : KeyMade slot s) : KeyMade slot (enterRecovery kind s) := by
  obtain ⟨hboot, htru, _⟩ := enterRecovery_leaves (s := s) kind
  exact ⟨⟨by rw [hboot]; exact h.fwSlot, by rw [hboot]; exact h.watchdog⟩, by rw [hboot]; exact h.step, by rw [htru]; exact h.key⟩

theorem keyMade_endStep6 (profile : Option (Bytes × Nat)) (h : KeyMade slot s) : KeyMade slot (endStep6 profile s) := by
  unfold endStep6
  dsimp only
  split
  · exact keyMade_enterRecovery 1 h
  · split
    · exact keyMade_enterRecovery 3 h
    · split
      · exact keyMade_enterRecovery 3 (h.of_evolves (imageRefused_evolves .refl Sub.rfl) (by decide) (by decide))
      · split
        · exact h
        · exact keyMade_applyAndRelease _ _ h

theorem keyMade_makeSessionKey (h : FirmwareRuns slot s) (hstep : 6 ≤ s.boot.step) : KeyMade slot (makeSessionKey s) := by
  unfold makeSessionKey
  split
  · next hmade => exact ⟨h, hstep, hmade.2⟩
  · exact ⟨⟨h.fwSlot, h.watchdog⟩, hstep, rfl⟩

/-- The verification of a profile touches the boot's digest alone. -/
theorem verifyProfile_leaves (n : Nat) : (verifyProfile n s).1.boot.fwSlot = s.boot.fwSlot ∧
    (verifyProfile n s).1.boot.watchdogOn = s.boot.watchdogOn ∧ (verifyProfile n s).1.boot.step = s.boot.step := by
  have hextend (d : Digest) (u : State) : (extend 2 d u).boot = u.boot := rfl
  unfold verifyProfile
  dsimp only
  split
  · exact ⟨rfl, rfl, rfl⟩
  · split
    · split
      · exact ⟨rfl, rfl, rfl⟩
      · exact ⟨rfl, rfl, rfl⟩
    · exact ⟨rfl, rfl, rfl⟩

/-- The key store is read. -/
def storeRead (copies : List (Nat × Bytes × Bytes)) (s : State) : State := if s.boot.warm then s else copies.foldl storeEntry s

theorem storeRead_evolves (copies : List (Nat × Bytes × Bytes)) : Evolves [.events, .counters, .sampling, .keys] s (storeRead copies s) :=
  .ite (fun _ => .refl) fun _ => foldl_keeps (fun _ _ hu => storeEntry_evolves hu Sub.rfl) _ _ .refl

theorem afterFirmware_eq (copies : List (Nat × Bytes × Bytes)) : ∃ n profile, afterFirmware copies s = endStep6 profile (makeSessionKey
    (verifyProfile n ((storeRead copies (s.onBoot fun b => { b with step := 5 })).onBoot fun b => { b with step := 6 })).1) :=
  ⟨_, _, rfl⟩

theorem keyMade_afterFirmware (copies : List (Nat × Bytes × Bytes)) (h : FirmwareRuns slot s) : KeyMade slot (afterFirmware copies s) := by
  obtain ⟨n, profile, heq⟩ := afterFirmware_eq (s := s) copies
  have hread := boot_of_evolves (storeRead_evolves (s := s.onBoot fun b => { b with step := 5 }) copies) (by decide)
  obtain ⟨hfw, hwatchdog, hstep⟩ := verifyProfile_leaves n
    (s := (storeRead copies (s.onBoot fun b => { b with step := 5 })).onBoot fun b => { b with step := 6 })
  have hruns : FirmwareRuns slot (storeRead copies (s.onBoot fun b => { b with step := 5 })) :=
    ⟨(congrArg Boot.fwSlot hread).trans h.fwSlot, (congrArg Boot.watchdogOn hread).trans h.watchdog⟩
  rw [heq]
  exact keyMade_endStep6 _ (keyMade_makeSessionKey ⟨hfw.trans hruns.fwSlot, hwatchdog.trans hruns.watchdog⟩ (hstep.ge))

/-! Step 3 (R304). -/

theorem countImageKeys_boot : (countImageKeys s).boot = s.boot ∧ (countImageKeys s).now = s.now := ⟨rfl, State.now_setFld ..⟩

/-- M0 and M1 take what runs. -/
def measured (slot : Nat) (s : State) : State :=
  let d := Config.sha256 (s.ctl.firmware.at slot).content
  let s := if s.boot.warm then s else extend 0 Config.bootRomDigest s
  if s.boot.warm ∧ s.boot.m1Digest = d then s else extend 1 d s

/-- The firmware is loaded and noted. -/
def firmwareNoted (slot : Nat) (d : Digest) (svn : Nat) (s : State) : State :=
  let s := s.onBoot fun b => { b with fwSlot := slot, m1Digest := d, watchdogOn := true, step := 4 }
  countImageKeys (((s.setFld F.TRU_STAT_FW_SVN svn).setFld F.TRU_STAT_FUSE_SVN s.tru.fuseSvn).setFld F.TRU_STAT_ROTATION
    s.tru.rotation)

theorem runFirmware_eq (slot : Nat) : runFirmware slot s = emit 0x5B1 0xB01 1
    (min (Config.firmwareSvn (s.ctl.firmware.at slot).content) 255 * 256 + 1)
    (firmwareNoted slot (Config.sha256 (s.ctl.firmware.at slot).content) (Config.firmwareSvn (s.ctl.firmware.at slot).content)
      (measured slot s)) := rfl

theorem now_measured (slot : Nat) : (measured slot s).now = s.now := by
  unfold measured
  dsimp only
  split <;> split <;> rfl

theorem firmwareNoted_leaves (slot : Nat) (d : Digest) (svn : Nat) : (firmwareNoted slot d svn s).boot.fwSlot = slot ∧
    (firmwareNoted slot d svn s).boot.watchdogOn = true ∧ (firmwareNoted slot d svn s).now = s.now :=
  ⟨rfl, rfl, countImageKeys_boot.2.trans ((State.now_setFld ..).trans ((State.now_setFld ..).trans (State.now_setFld ..)))⟩

theorem runFirmware_runs (slot : Nat) : FirmwareRuns slot (runFirmware slot s) ∧ Emitted s (runFirmware slot s) 0x5B1 1 0xB01
    (min (Config.firmwareSvn (s.ctl.firmware.at slot).content) 255 * 256 + 1) := by
  rw [runFirmware_eq]
  obtain ⟨hfw, hwatchdog, hnow⟩ := firmwareNoted_leaves (s := measured slot s) slot
    (Config.sha256 (s.ctl.firmware.at slot).content) (Config.firmwareSvn (s.ctl.firmware.at slot).content)
  exact ⟨⟨hfw, hwatchdog⟩, emitted_emit_of _ _ _ _ (hnow.trans (now_measured slot))⟩

/-- A cold boot sets the fans. -/
def fansTested (s : State) : State := if s.boot.warm then s else setFans s

/-- A cold boot tests the entropy source. -/
def entropyTested (entropy : Option (Fin 2)) (s : State) : State := if s.boot.warm then s else entropyTest entropy s

/-- The units are tested, and the fans, where the boot is a cold one, and the entropy source. -/
def unitsTested (failing : List (Nat × Nat)) (entropy : Option (Fin 2)) (s : State) : State :=
  entropyTested entropy ((fansTested (selfTest failing (s.onBoot fun b => { b with step := 2 }))).onBoot fun b => { b with step := 3 })

theorem exec_pllLocked {failing : List (Nat × Nat)} {entropy : Option (Fin 2)} {copies : List (Nat × Bytes × Bytes)}
    (h : s.boot.inReset = .none ∧ s.boot.step = 1) : exec (.pllLocked failing entropy copies) s =
      .next (match pickFirmware [(unitsTested failing entropy s).boot.preferredFw, 1 - (unitsTested failing entropy s).boot.preferredFw]
          (unitsTested failing entropy s) with
        | (s, none) => enterRecovery 2 s
        | (s, some slot) => afterFirmware copies (runFirmware slot s)) := by
  change execPllLocked failing entropy copies s = _
  unfold execPllLocked
  rw [if_neg (by rw [h.1, h.2]; simp)]
  rfl

/-- What the tests of the boot leave: the firmware slots, device trust, the time and all of the boot but its step. -/
structure TestsLeave (s t : State) : Prop where
  firmware : t.ctl.firmware = s.ctl.firmware
  tru : t.tru = s.tru
  now : t.now = s.now
  boot : ∃ n, t.boot = { s.boot with step := n }

theorem TestsLeave.trans (h : TestsLeave s t) (h' : TestsLeave t u) : TestsLeave s u := by
  obtain ⟨n, hn⟩ := h.boot
  obtain ⟨m, hm⟩ := h'.boot
  exact ⟨h'.firmware.trans h.firmware, h'.tru.trans h.tru, h'.now.trans h.now, m, by rw [hm, hn]⟩

theorem TestsLeave.of_evolves (h : Evolves w s t) (himages : .images ∉ w) (htrust : .trust ∉ w) (htime : .clock ∉ w)
    (hboot : .boot ∉ w) : TestsLeave s t := by
  have hsame := h.same .images himages
  simp only [Part.Same, Prod.mk.injEq] at hsame
  exact ⟨hsame.2.1, tru_of_evolves h htrust, h.now_eq (by simpa using htime), s.boot.step, boot_of_evolves h hboot⟩

theorem testsLeave_step (n : Nat) : TestsLeave s (s.onBoot fun b => { b with step := n }) := ⟨rfl, rfl, rfl, n, rfl⟩

theorem testsLeave_unitsTested (failing : List (Nat × Nat)) (entropy : Option (Fin 2)) : TestsLeave s (unitsTested failing entropy s) ∧
    (unitsTested failing entropy s).boot.step = 3 := by
  have hself (u : State) : TestsLeave u (selfTest failing u) :=
    .of_evolves (selfTest_evolves .refl Sub.rfl : Evolves _ u (selfTest failing u)) (by decide) (by decide) (by decide) (by decide)
  have hfans (u : State) : Evolves [.regs, .regPwr] u (fansTested u) := .ite (fun _ => .refl) fun _ => setFans_evolves .refl Sub.rfl
  have hentropy (u : State) : Evolves [.events, .counters, .sampling, .regs, .regTru] u (entropyTested entropy u) :=
    .ite (fun _ => .refl) fun _ => entropyTest_evolves .refl Sub.rfl
  refine ⟨((((testsLeave_step 2).trans (hself _)).trans (.of_evolves (hfans _) (by decide) (by decide) (by decide)
    (by decide))).trans (testsLeave_step 3)).trans (.of_evolves (hentropy _) (by decide) (by decide) (by decide) (by decide)), ?_⟩
  exact congrArg Boot.step (boot_of_evolves (hentropy _) (by decide))

theorem firmwareCause_congr (h : TestsLeave s t) (slot : Nat) : firmwareCause t slot = firmwareCause s slot := by
  unfold firmwareCause
  rw [h.firmware, h.tru]

theorem pickFirmware_first {slot : Nat} {rest : List Nat} (h : firmwareCause s slot = 0) :
    pickFirmware (slot :: rest) s = (s, some slot) := by
  unfold pickFirmware
  rw [h]
  rfl

/-- A slot that does not verify is told. -/
theorem pickFirmware_next {slot c : Nat} {rest : List Nat} (h : firmwareCause s slot = c) (hc : c ≠ 0) :
    pickFirmware (slot :: rest) s = pickFirmware rest (emit 0x5B1 0xB02 4 (c * 16 + 1) s) := by
  rw [pickFirmware]
  split
  · next h0 => exact absurd (h.symm.trans h0) hc
  · rw [h]

theorem firmwareCause_invalid (h : (s.ctl.firmware.at slot).valid = false) : firmwareCause s slot = 4 := by
  unfold firmwareCause
  dsimp only
  rw [if_pos (by rw [h]; rfl)]

theorem firmwareCause_emit (src ev sev data slot : Nat) : firmwareCause (emit src ev sev data s) slot = firmwareCause s slot := rfl

/-! The start and the end of the boot (R452, R455). -/

/-- The boot is at step 1, and a cold one has sampled the straps. -/
def bootBegun (profileSel roleSel bootMode : Nat) (warmLow : Bool) (s : State) : State :=
  s.onBoot fun b => { b with
    inReset := .none, step := 1, warm := !(s.boot.inReset == .cold), pgood := 15, sysRstHigh := true
    warmRstHigh := !((s.boot.inReset == .cold) && warmLow), releaseGts := s.now, fwSlot := b.preferredFw
    pinProfileSel := profileSel, pinRoleSel := roleSel, pinBootMode := bootMode
    profileSel := if s.boot.inReset == .cold then profileSel else b.profileSel
    roleSel := if s.boot.inReset == .cold then roleSel else b.roleSel
    bootMode := if s.boot.inReset == .cold then bootMode else b.bootMode }

theorem startBoot_eq (profileSel roleSel bootMode : Nat) (low : Bool) : startBoot profileSel roleSel bootMode low s =
    emit 0x007 0x013 1 ((bootBegun profileSel roleSel bootMode low s).boot.fwSlot * 256 +
        (bootBegun profileSel roleSel bootMode low s).boot.bootMode * 16 + (bootBegun profileSel roleSel bootMode low s).boot.cause)
      ((bootBegun profileSel roleSel bootMode low s).setFld F.RED_MODE_ROLE
        (bootBegun profileSel roleSel bootMode low s).boot.roleSel) := rfl

theorem exec_bootStart {profileSel : Fin 8} {roleSel bootMode : Fin 4} {low : Bool} (h : mayBoot s = true) :
    exec (.bootStart profileSel roleSel bootMode low) s = .next (startBoot profileSel.val roleSel.val bootMode.val low s) := by
  change execBootStart profileSel roleSel bootMode low s = _
  unfold execBootStart
  rw [if_pos h]

theorem boot_emit (src ev sev data : Nat) : (emit src ev sev data s).boot = s.boot := rfl

theorem boot_startBoot (profileSel roleSel bootMode : Nat) (low : Bool) :
    (startBoot profileSel roleSel bootMode low s).boot = (bootBegun profileSel roleSel bootMode low s).boot := by
  rw [startBoot_eq, boot_emit, State.setFld_boot]

theorem bootBegun_cold {profileSel roleSel bootMode : Nat} {low : Bool} (h : s.boot.inReset = .cold) :
    (bootBegun profileSel roleSel bootMode low s).boot.inReset = .none ∧
      (bootBegun profileSel roleSel bootMode low s).boot.step = 1 ∧ (bootBegun profileSel roleSel bootMode low s).boot.warm = false ∧
      (bootBegun profileSel roleSel bootMode low s).boot.profileSel = profileSel ∧
      (bootBegun profileSel roleSel bootMode low s).boot.roleSel = roleSel ∧
      (bootBegun profileSel roleSel bootMode low s).boot.bootMode = bootMode := by
  simp [bootBegun, h]

theorem bootBegun_warm {profileSel roleSel bootMode : Nat} {low : Bool} (h : s.boot.inReset = .warm) :
    (bootBegun profileSel roleSel bootMode low s).boot.inReset = .none ∧
      (bootBegun profileSel roleSel bootMode low s).boot.warm = true ∧
      (bootBegun profileSel roleSel bootMode low s).boot.profileSel = s.boot.profileSel ∧
      (bootBegun profileSel roleSel bootMode low s).boot.roleSel = s.boot.roleSel ∧
      (bootBegun profileSel roleSel bootMode low s).boot.bootMode = s.boot.bootMode := by
  simp [bootBegun, h]

theorem role_startBoot (profileSel roleSel bootMode : Nat) (low : Bool) : (startBoot profileSel roleSel bootMode low s).fld
    F.RED_MODE_ROLE = (bootBegun profileSel roleSel bootMode low s).boot.roleSel % 4 := by
  rw [startBoot_eq, fld_emit]
  exact fld_setFld_same F.RED_MODE_ROLE _ (by decide) (by decide)

/-- A unit that serves takes its drives' contents. -/
def bootServed (s : State) : State := if redState s = 1 then serveFromDrives s else s

theorem bootServed_evolves : Evolves [.mapping, .journal, .layoutWork, .batches, .custody, .storeWrites] s (bootServed s) := .ite (fun _ => serveFromDrives_evolves .refl Sub.rfl) fun _ => .refl

/-- The boot is done. -/
def bootEnded (ms : Nat) (s : State) : State := s.onBoot fun b => { b with step := 10, bootMs := ms }

theorem exec_bootDone (hstep : s.boot.step = 8) (hstate : [1, 4, 6].contains (redState s) = true)
    (hsettled : (List.range 48).all (portSettled s) = true) : exec .bootDone s =
      .next (emit 0x007 0x014 1 (redState (bootEnded (((bootServed s).now - (bootServed s).boot.releaseGts) / 1000000) (bootServed s)) *
          2 ^ 20 + min (((bootServed s).now - (bootServed s).boot.releaseGts) / 1000000) (2 ^ 20 - 1))
        (bootEnded (((bootServed s).now - (bootServed s).boot.releaseGts) / 1000000) (bootServed s))) := by
  change execBootDone s = _
  unfold execBootDone
  rw [if_neg (by rw [hstep, hstate, hsettled]; simp)]
  rfl

/-- The clock is present again. -/
def clockBack (c : Nat) (s : State) : State := s.onBoot fun b => { b with clocksLost := b.clocksLost.filter (· != c) }

/-- The root ports that serve have their clock again. -/
def portsClocked (s : State) : State :=
  s.onDrv fun d => { d with ports := d.ports.mapAll fun _ p => if 2 ≤ p.state ∧ p.state ≤ 6 then { p with refClock := true } else p }

theorem exec_clockPresent {clock : Fin 7} (h : s.boot.clocksLost.contains clock.val = true) : exec (.clockPresent clock) s =
    .next (if clock.val = 4 then portsClocked (clockBack clock.val s) else clockBack clock.val s) := by
  change execClockPresent clock s = _
  unfold execClockPresent
  dsimp only
  rw [if_neg (by rw [h]; decide)]
  rfl

/-! Links whose clock is lost (R477). -/

theorem fldI_of_addr_eq {f : Fld} {i j : Nat} (h : f.addr i = f.addr j) : s.fldI f i = s.fldI f j := by
  simp only [State.fldI, fldGet, h]

theorem linkIsUp_of_evolves (h : Evolves w s t) (hw : .regPrt ∉ w) (l : Nat) : linkIsUp t l = linkIsUp s l := by
  unfold linkIsUp
  rw [h.fldI_eq F.PRT_LPORT_STAT_LINK_UP l hw]

/-- Every link that is down stays down. -/
def DownStays (s t : State) : Prop := ∀ l, linkIsUp s l = false → linkIsUp t l = false

theorem downStays_setFldI (f : Fld) (i v : Nat) (h : f.lo ≤ f.hi) (hh : f.hi < 31) : DownStays s (s.setFldI f i v) := by
  intro l hl
  unfold linkIsUp at hl ⊢
  rw [fldI_setFldI_disjoint f F.PRT_LPORT_STAT_LINK_UP i l v h (by omega) (by decide) (Or.inr hh)]
  exact hl

theorem fldI_linkCleared (i l : Nat) : (s.setFldI F.PRT_LPORT_STAT_LINK_UP i 0).fldI F.PRT_LPORT_STAT_LINK_UP l =
    if F.PRT_LPORT_STAT_LINK_UP.addr l = F.PRT_LPORT_STAT_LINK_UP.addr i then 0 else s.fldI F.PRT_LPORT_STAT_LINK_UP l := by
  split
  · next h => exact (fldI_of_addr_eq h).trans (fldI_setFldI_same F.PRT_LPORT_STAT_LINK_UP i 0 (by decide) (by decide))
  · next h => exact fldI_setFldI_other _ _ _ _ _ h

theorem downStays_linkCleared (i : Nat) : DownStays s (s.setFldI F.PRT_LPORT_STAT_LINK_UP i 0) := by
  intro l hl
  unfold linkIsUp at hl ⊢
  rw [fldI_linkCleared]
  split
  · rfl
  · exact hl

theorem linkIsUp_linkCleared (i : Nat) : linkIsUp (s.setFldI F.PRT_LPORT_STAT_LINK_UP i 0) i = false := by
  unfold linkIsUp
  rw [fldI_linkCleared, if_pos rfl]
  rfl

/-- The rest of what a link that goes down clears. -/
def linkRest (l : Nat) (s : State) : State :=
  ((s.setFldI F.PRT_LPORT_STAT_SPEED l 0).setFldI F.PRT_LPORT_STAT_PAUSED l 0).bumpI F.PRT_LPORT_STAT_LINK_DOWNS l 1

theorem downStays_linkRest (l : Nat) : DownStays s (linkRest l s) := fun j hj =>
  downStays_setFldI F.PRT_LPORT_STAT_LINK_DOWNS l _ (by decide) (by decide) j
    (downStays_setFldI F.PRT_LPORT_STAT_PAUSED l 0 (by decide) (by decide) j
      (downStays_setFldI F.PRT_LPORT_STAT_SPEED l 0 (by decide) (by decide) j hj))

theorem dropLink_eq {l : Nat} (h : linkIsUp s l = true) : dropLink l s = linkRest l (s.setFldI F.PRT_LPORT_STAT_LINK_UP l 0) :=
  if_pos h

theorem linkIsUp_emit (src ev sev data l : Nat) : linkIsUp (emit src ev sev data s) l = linkIsUp s l := rfl

theorem downStays_loseLink (l cause : Nat) : DownStays s (loseLink l cause s) := by
  intro j hj
  unfold loseLink
  split
  · next hup => rw [linkIsUp_emit, dropLink_eq hup]; exact downStays_linkRest l j (downStays_linkCleared l j hj)
  · exact hj

theorem linkIsUp_loseLink (l cause : Nat) : linkIsUp (loseLink l cause s) l = false := by
  unfold loseLink
  split
  · next hup => rw [linkIsUp_emit, dropLink_eq hup]; exact downStays_linkRest l l (linkIsUp_linkCleared l)
  · next hup => simpa using hup

/-- Every link of the list is down. -/
theorem linkIsUp_loseLinks (q cause : Nat) (l : List Nat) : ∀ i ∈ l, ∀ s : State,
    linkIsUp (l.foldl (fun s i => loseLink (16 * q + i) cause s) s) (16 * q + i) = false := by
  induction l with
  | nil => simp
  | cons a l ih =>
    intro i hi s
    rcases List.mem_cons.1 hi with rfl | hi
    · exact foldl_keeps (P := fun u => linkIsUp u (16 * q + i) = false) (f := fun s j => loseLink (16 * q + j) cause s)
        (fun u j hu => downStays_loseLink _ _ _ hu) l _ (linkIsUp_loseLink _ _)
    · exact ih i hi _

theorem linkIsUp_netClockLost (q : Nat) (i : Fin 16) : linkIsUp (netClockLost q s) (16 * q + i.val) = false := by
  have hlinks := linkIsUp_loseLinks q 1 (List.range 16) i.val (List.mem_range.2 i.isLt) s
  unfold netClockLost
  dsimp only
  split
  · exact hlinks
  · have hleash (l : Nat) (u : State) : Evolves _ u (leashDown l 1 u) := leashDown_evolves .refl Sub.rfl
    refine foldl_keeps (P := fun u => linkIsUp u (16 * q + i.val) = false) (f := fun s id => closeSession 3 id s) (fun u id hu => ?_) _ _ ?_
    · rw [linkIsUp_of_evolves (closeSession_evolves_refl 3 id u) (by decide)]; exact hu
    · rw [linkIsUp_of_evolves (hleash 1 _) (by decide), linkIsUp_of_evolves (hleash 0 _) (by decide)]; exact hlinks

/-- The clock is noted as lost. -/
def clockNoted (c : Nat) (s : State) : State := s.onBoot fun b => { b with clocksLost := b.clocksLost ++ [c] }

/-- What the loss of a clock other than SYSCLK does. -/
def clockEffect (c : Nat) (s : State) : State :=
  if c < 4 then netClockLost c s
  else if c = 4 then pcieClockLost s
  else if s.fld F.HEP_LINK_STAT_UP = 1 then resetEndpoint 2 (dropHeLink s) else s

theorem exec_clockLost {clock : Fin 7} (hc : clock.val ≠ 6) (hlost : s.boot.clocksLost.contains clock.val = false) :
    exec (.clockLost clock) s = .next (clockEffect clock.val (pllLoss clock.val (clockNoted clock.val s))) := by
  change execClockLost clock s = _
  unfold execClockLost
  dsimp only
  rw [if_neg (by rw [hlost]; decide), if_neg hc]
  rfl

theorem boot_clockEffect (c : Nat) : (clockEffect c s).boot = s.boot := by
  unfold clockEffect
  split
  · exact boot_of_evolves (netClockLost_evolves .refl Sub.rfl : Evolves _ s (netClockLost c s)) (by decide)
  · split
    · exact boot_of_evolves (pcieClockLost_evolves .refl Sub.rfl : Evolves _ s (pcieClockLost s)) (by decide)
    · split
      · have hreset (u : State) : Evolves _ u (resetEndpoint 2 u) := resetEndpoint_evolves .refl Sub.rfl
        exact (boot_of_evolves (hreset _) (by decide)).trans
          (boot_of_evolves (dropHeLink_evolves .refl Sub.rfl : Evolves _ s (dropHeLink s)) (by decide))
      · rfl

/-- The state in which the loss of SYSCLK is logged. -/
def sysclkLogged (s : State) : State := logCritical (mkRec (clockNoted 6 s) 0x007 4 0x016 15) (clockNoted 6 s)

theorem exec_sysclkLost {clock : Fin 7} (hc : clock.val = 6) (hlost : s.boot.clocksLost.contains 6 = false)
    (hreset : s.boot.inReset ≠ .cold) : exec (.clockLost clock) s = .next (coldReset 3 (sysclkLogged s)) := by
  change execClockLost clock s = _
  unfold execClockLost
  dsimp only
  rw [hc, if_neg (by rw [hlost]; decide), if_pos rfl]
  exact if_neg hreset

/-- Settles O58: what firmware set stands to the end of the boot, each failed slot is told, and a clock that is lost takes its
links down. -/
theorem bootCompletes : Obligations.BootCompletes := by
  unfold Obligations.BootCompletes
  refine ⟨fun profileSel roleSel bootMode low s hboot hcold => ?cold, fun profileSel roleSel bootMode low s hboot hwarm => ?warm,
    fun failing entropy copies s hstep hpreferred hinvalid => ?rom, fun failing entropy copies s hstep hvalid => ?firmware,
    fun s hstep hstate hsettled => ?done, fun clock s hc hlost => ?lost, fun clock s hc hlost hreset => ?sysclk,
    fun clock s hlost => ?present⟩
  case lost =>
    refine ⟨_, exec_clockLost hc hlost, ?_, fun hnet i => ?_⟩
    · exact (boot_clockEffect _).trans rfl
    · unfold clockEffect
      rw [if_pos hnet]
      exact linkIsUp_netClockLost _ i
  case sysclk =>
    obtain ⟨hboot, hnow, _⟩ := coldReset_leaves (s := sysclkLogged s) 3
    have hlogged : (sysclkLogged s).boot = (clockNoted 6 s).boot := boot_logCritical _
    refine ⟨_, exec_sysclkLost hc hlost hreset, ?_, ?_, ?_, hnow⟩
    · rw [hboot]; rfl
    · rw [hboot]; rfl
    · rw [hboot, hlogged]; rfl
  case cold =>
    obtain ⟨hin, hstep, hwarm, hprofile, hrole, hmode⟩ := bootBegun_cold (profileSel := profileSel.val) (roleSel := roleSel.val)
      (bootMode := bootMode.val) (low := low) hcold
    have hb := boot_startBoot (s := s) profileSel.val roleSel.val bootMode.val low
    refine ⟨_, exec_bootStart hboot, by rw [hb]; exact hin, by rw [hb]; exact hstep, by rw [hb]; exact hwarm,
      by rw [hb]; exact hprofile, by rw [hb]; exact hrole, by rw [hb]; exact hmode, by rw [hb]; rfl, ?_, ?_⟩
    · rw [role_startBoot, hrole]
    · rw [startBoot_eq, hmode]
      exact emitted_emit_of _ _ _ _ (State.now_setFld ..)
  case warm =>
    have hb := boot_startBoot (s := s) profileSel.val roleSel.val bootMode.val low
    refine ⟨_, exec_bootStart hboot, ?_⟩
    dsimp only
    rw [hb]
    exact bootBegun_warm hwarm
  case rom =>
    obtain ⟨htests, hthree⟩ := testsLeave_unitsTested (s := s) failing entropy
    obtain ⟨n, hb⟩ := htests.boot
    have hcause (k : Nat) (hk : k ≤ 1) : firmwareCause (unitsTested failing entropy s) k = 4 := by
      rw [firmwareCause_congr htests]
      refine firmwareCause_invalid ?_
      interval_cases k
      · exact hinvalid.1
      · exact hinvalid.2
    have hpref : (unitsTested failing entropy s).boot.preferredFw = s.boot.preferredFw := by rw [hb]
    have hpick : pickFirmware [(unitsTested failing entropy s).boot.preferredFw, 1 - (unitsTested failing entropy s).boot.preferredFw]
        (unitsTested failing entropy s) =
        (emit 0x5B1 0xB02 4 (4 * 16 + 1) (emit 0x5B1 0xB02 4 (4 * 16 + 1) (unitsTested failing entropy s)), none) := by
      rw [hpref, pickFirmware_next (hcause _ hpreferred) (by decide),
        pickFirmware_next ((firmwareCause_emit ..).trans (hcause _ (by omega))) (by decide)]
      rfl
    obtain ⟨hboot, _, hnow, hsaid⟩ := enterRecovery_leaves
      (s := emit 0x5B1 0xB02 4 (4 * 16 + 1) (emit 0x5B1 0xB02 4 (4 * 16 + 1) (unitsTested failing entropy s))) 2
    have hrecover (u : State) : Evolves _ u (enterRecovery 2 u) := enterRecovery_evolves .refl Sub.rfl
    refine ⟨_, (exec_pllLocked hstep).trans (by rw [hpick]), ?_, ?_, ?_, ?_⟩
    · rw [hboot]
    · rw [hboot]; exact hthree
    · exact (hrecover _).emitted_mono (by decide) (emitted_emit_of _ _ _ _ htests.now)
    · exact (emitted_now htests.now).1 hsaid
  case firmware =>
    obtain ⟨htests, _⟩ := testsLeave_unitsTested (s := s) failing entropy
    obtain ⟨n, hb⟩ := htests.boot
    have hpref : (unitsTested failing entropy s).boot.preferredFw = s.boot.preferredFw := by rw [hb]
    obtain ⟨t, ht⟩ := exec_next (.pllLocked failing entropy copies) s
    refine ⟨t, ht, fun hcause => ?_⟩
    have hpick := pickFirmware_first (s := unitsTested failing entropy s) (rest := [1 - s.boot.preferredFw])
      ((firmwareCause_congr htests _).trans hcause)
    have heq := exec_pllLocked (failing := failing) (entropy := entropy) (copies := copies) hstep
    rw [hpref, hpick, ht] at heq
    obtain rfl := Host.Outcome.next.inj heq
    obtain ⟨hruns, hsaid⟩ := runFirmware_runs (s := unitsTested failing entropy s) s.boot.preferredFw
    rw [htests.firmware] at hsaid
    obtain ⟨⟨hfw, hwatchdog⟩, hsix, hkey⟩ := keyMade_afterFirmware copies hruns
    have hafter (u : State) : Evolves _ u (afterFirmware copies u) := afterFirmware_evolves .refl Sub.rfl
    exact ⟨hfw, hwatchdog, hsix, hkey, (hafter _).emitted_mono (by decide) ((emitted_now htests.now).1 hsaid)⟩
  case done =>
    have hserved := bootServed_evolves (s := s)
    have hb := boot_of_evolves hserved (by decide)
    have hnow := hserved.now_eq (by decide)
    have hred (n : Nat) : redState (bootEnded n (bootServed s)) = redState s := hserved.fldI_eq F.RED_STAT_STATE 0 (by decide)
    refine ⟨_, exec_bootDone hstep hstate hsettled, rfl, ?_, ?_⟩
    · rw [hnow, hb]; rfl
    · rw [hred, hnow, hb]
      exact emitted_emit_of _ _ _ _ hnow
  case present =>
    refine ⟨_, exec_clockPresent hlost, ?_, ?_, fun hc => ?_⟩
    · split <;> rfl
    · split <;> rfl
    · rw [if_neg hc]
      rfl

end Sys2Proof.Machine
end

section
/-! PROOFS. Frames, links, PFC, time stamps and wake frames (R224 to R235): what a received frame counts and sends, what the
selection of the next frame leaves, and a PFC frame's pauses. -/

namespace Sys2Proof.Machine

variable {s t u : State} {w : List Part} {lport : Fin 64} {path : Fin 5} {session : Nat} {value : Word}

/-! Counters (R224, R407). -/

theorem count_countOnly (src ev e : Nat) : (countOnly src ev s).tel.cnt.at e =
    if e = ev then (s.tel.cnt.at ev + 1) % 2 ^ 64 else s.tel.cnt.at e := Tab.at_put ..

/-- A receive failure: its field and its counter go up by one, and the control cluster stands. -/
theorem rxFail_leaves (l e : Nat) (f : Fld) (hlo : f.lo ≤ f.hi) (hhi : f.hi < 32) :
    (rxFail l e f s).fldI f l = min f.max (s.fldI f l + 1) ∧ (rxFail l e f s).tel.cnt.at e = (s.tel.cnt.at e + 1) % 2 ^ 64 ∧
      (rxFail l e f s).ctl = s.ctl ∧ (rxFail l e f s).out = s.out ∧ (rxFail l e f s).net = s.net :=
  ⟨fldI_bumpI_same f l hlo hhi, (count_countOnly ..).trans (if_pos rfl), rfl, rfl, rfl⟩

/-! A frame that fails its check while it passes through (R262). -/

/-- The parts of the control cluster. -/
abbrev ctlParts : List Part := [.events, .time, .paths, .fences, .held, .rings, .clog, .sessions, .bone, .principals, .images,
  .stores, .marks, .identity, .cores]

theorem ctl_of_evolves (h : Evolves w s t) (hw : ∀ p ∈ w, p ∉ ctlParts) : t.ctl = s.ctl := by
  have hsame : ∀ p ∈ ctlParts, p.Same s t := fun p hp => h.same p fun hin => hw p hin hp
  have hevents := hsame .events (by decide)
  have htime := hsame .time (by decide)
  have hpaths := hsame .paths (by decide)
  have hfences := hsame .fences (by decide)
  have hheld := hsame .held (by decide)
  have hrings := hsame .rings (by decide)
  have hclog := hsame .clog (by decide)
  have hsessions := hsame .sessions (by decide)
  have hbone := hsame .bone (by decide)
  have hprincipals := hsame .principals (by decide)
  have himages := hsame .images (by decide)
  have hstores := hsame .stores (by decide)
  have hmarks := hsame .marks (by decide)
  have hidentity := hsame .identity (by decide)
  have hcores := hsame .cores (by decide)
  simp only [Part.Same, Prod.mk.injEq] at hevents htime hpaths hfences hheld hrings hclog hsessions hbone
  simp only [Part.Same, Prod.mk.injEq] at hprincipals himages hstores hmarks hidentity hcores
  cases hx : t.ctl
  cases hy : s.ctl
  simp_all

/-- The events that a frame's passage through the switch counts. -/
def transitEvents : List Nat := [0x401, 0x402, 0x403, 0x307]

/-- A counter of another event stands. -/
theorem count_countOnly_other {src ev e : Nat} (hev : ev ∈ transitEvents) (he : e ∉ transitEvents) :
    (countOnly src ev s).tel.cnt.at e = s.tel.cnt.at e :=
  (count_countOnly ..).trans (if_neg fun h => he (by rw [h]; exact hev))

theorem count_marked {e q : Nat} (d : Desc) (he : e ∉ transitEvents) : (marked q d s).2.tel.cnt.at e = s.tel.cnt.at e := by
  have hmark : (markFrame q d s).2.tel = s.tel := by
    unfold markFrame
    dsimp only
    split
    · split <;> rfl
    · rfl
  unfold marked
  dsimp only
  split
  · exact (count_countOnly_other (by decide) he).trans (congrArg (fun x : Tel => x.cnt.at e) hmark)
  · exact congrArg (fun x : Tel => x.cnt.at e) hmark

theorem count_stompLine {e : Nat} (l : Nat) (he : e ∉ transitEvents) : (stompLine l s).tel.cnt.at e = s.tel.cnt.at e := by
  unfold stompLine
  split
  · rfl
  · split
    · rfl
    · exact (count_countOnly_other (by decide) he).trans rfl

/-- What the passage of a frame does once it is policed. -/
def stompOn (l dest q : Nat) (d : Desc) (colour : Colour) (s : State) : State :=
  if colour = .red then countOnly (portSrc l) 0x402 s
  else if !admits s q (cellsFor d.len) (colour == .yellow) then countOnly (portSrc (queuePort s q)) 0x401 s
  else
    let (d, s) := marked q d (chargeItems q (queueNode s q) d.len s)
    stompLine dest ((s.onNet fun n => { n with line := n.line.put dest (some d) }).send (.frame dest d.sent))

theorem count_stompOn {e : Nat} (l dest q : Nat) (d : Desc) (colour : Colour) (he : e ∉ transitEvents) :
    (stompOn l dest q d colour s).tel.cnt.at e = s.tel.cnt.at e := by
  unfold stompOn
  split
  · exact count_countOnly_other (by decide) he
  · split
    · exact count_countOnly_other (by decide) he
    · exact (count_stompLine _ he).trans (count_marked d he)

theorem tel_police (i len : Nat) (dei : Bool) : (police i len dei s).2.tel = s.tel := by
  unfold police
  dsimp only
  split <;> rfl

/-- The descriptor of a frame in transit. -/
def transitDesc (l : Nat) (f : Bytes) (s : State) : Desc :=
  { (default : Desc) with frame := f.take (maxFrame s l), len := (f.take (maxFrame s l)).length + 4, lport := l }

/-- A frame in transit leaves the state, or is policed and goes on. -/
theorem stompTransit_cases (l : Nat) (f : Bytes) : stompTransit l f s = s ∨ ∃ dest q d colour v, v.tel = s.tel ∧
    stompTransit l f s = stompOn l dest q d colour v := by
  unfold stompTransit
  split
  · exact .inl rfl
  · next x _ =>
    split
    · exact .inl rfl
    · next a _ =>
      split
      · have htel (c : Prop) [Decidable c] (i len : Nat) (dei : Bool) :
            (if c then police i len dei s else (.green, s)).2.tel = s.tel := by
          split
          · exact tel_police ..
          · rfl
        exact .inr ⟨actDest a, actQueue a (actDest a), transitDesc l f s, _, _, htel (actPolice a = true) (actPolicer a)
          (transitDesc l f s).len (bitAt (x.tag.getD 0) 12), rfl⟩
      · exact .inl rfl

/-- A frame that is stomped counts no receive failure. -/
theorem count_stompTransit {e : Nat} (l : Nat) (f : Bytes) (he : e ∉ transitEvents) :
    (stompTransit l f s).tel.cnt.at e = s.tel.cnt.at e := by
  rcases stompTransit_cases (s := s) l f with h | ⟨dest, q, d, colour, v, htel, h⟩
  · rw [h]
  · rw [h, count_stompOn _ _ _ _ _ he, htel]

theorem stompTransit_evolves_refl (l : Nat) (f : Bytes) (s : State) :
    Evolves [.counters, .sampling, .tables, .traffic, .regs, .regSwc, .out, .free] s (stompTransit l f s) :=
  stompTransit_evolves .refl Sub.rfl

/-- What a receive failure of a frame in transit leaves (R224). -/
theorem rxFail_stompTransit (l e : Nat) (frame : Bytes) (f : Fld) (hlo : f.lo ≤ f.hi) (hhi : f.hi < 32)
    (hbase : regPart f.base = .regPrt) (he : e ∉ transitEvents) :
    (rxFail l e f (stompTransit l frame s)).fldI f l = min f.max (s.fldI f l + 1) ∧
      (rxFail l e f (stompTransit l frame s)).tel.cnt.at e = (s.tel.cnt.at e + 1) % 2 ^ 64 ∧
      (rxFail l e f (stompTransit l frame s)).ctl = s.ctl := by
  obtain ⟨hfld, hcount, hctl, _⟩ := rxFail_leaves (s := stompTransit l frame s) l e f hlo hhi
  have hstomp := stompTransit_evolves_refl l frame s
  rw [hstomp.fldI_eq f l (by rw [hbase]; decide)] at hfld
  rw [count_stompTransit l frame he] at hcount
  exact ⟨hfld, hcount, hctl.trans (ctl_of_evolves hstomp (by decide))⟩

/-! The command. -/

theorem exec_frameReceived {frame : Bytes} (fcsOk : Bool) (hup : linkIsUp s lport.val = true) :
    exec (.frameReceived lport frame fcsOk) s =
      if s.cmd.ps = 4 then .next (if fcsOk then wakeFrame lport.val frame s
        else s.onNet fun x => { x with wakeDropped := x.wakeDropped.upd (lport.val / 4) (· + 1) })
      else if !fcsOk then .next (rxFail lport.val 0x106 F.PRT_LPORT_RXERR_FCS (stompTransit lport.val frame s))
      else if frame.length + 4 < 64 ∨ maxFrame s lport.val < frame.length + 4 then
        .next (rxFail lport.val 0x107 F.PRT_LPORT_RXERR_LENGTH (stompTransit lport.val frame s))
      else if half frame 12 = 0x8808 ∧ half frame 14 = 0x0001 then .next (countOnly (portSrc lport.val) 0x10A s)
      else if half frame 12 = 0x8808 ∧ half frame 14 = 0x0101 then .next (applyPfc lport.val (pfcTimers frame) s)
      else .next (classifyFrame lport.val frame (hearPtp lport.val frame s)) := by
  change execFrameReceived lport frame fcsOk s = _
  unfold execFrameReceived
  exact if_neg (by rw [hup]; decide)

/-- A frame of a right length outside PS4. -/
theorem exec_goodFrame {frame : Bytes} (hup : linkIsUp s lport.val = true) (hps : s.cmd.ps ≠ 4)
    (hlen : 64 ≤ frame.length + 4 ∧ frame.length + 4 ≤ maxFrame s lport.val) : exec (.frameReceived lport frame true) s =
      if half frame 12 = 0x8808 ∧ half frame 14 = 0x0001 then .next (countOnly (portSrc lport.val) 0x10A s)
      else if half frame 12 = 0x8808 ∧ half frame 14 = 0x0101 then .next (applyPfc lport.val (pfcTimers frame) s)
      else .next (classifyFrame lport.val frame (hearPtp lport.val frame s)) := by
  rw [exec_frameReceived true hup, if_neg hps, if_neg (by decide), if_neg (by omega)]

theorem exec_dataFrame {frame : Bytes} (hup : linkIsUp s lport.val = true) (hps : s.cmd.ps ≠ 4)
    (hlen : 64 ≤ frame.length + 4 ∧ frame.length + 4 ≤ maxFrame s lport.val) (htype : half frame 12 ≠ 0x8808) :
    exec (.frameReceived lport frame true) s = .next (classifyFrame lport.val frame (hearPtp lport.val frame s)) := by
  rw [exec_goodFrame hup hps hlen, if_neg fun h => htype h.1, if_neg fun h => htype h.1]

/-! Pauses (R227). -/

theorem kick_evolves_refl (l : Nat) (s : State) :
    Evolves [.events, .counters, .sampling, .buffer, .traffic, .regs, .regSwc, .regTmg, .out] s (kick l s) := kick_evolves .refl Sub.rfl

/-- The pauses that a list of timers leaves. -/
def pausesOf (l : List (Nat × Nat)) (b : Nat) : Nat := l.foldl (fun b x => setBit b x.1 (x.2 != 0)) b

theorem bitAt_pausesOf_other (l : List (Nat × Nat)) (b p : Nat) (h : p ∉ l.map (·.1)) : bitAt (pausesOf l b) p = bitAt b p := by
  induction l generalizing b with
  | nil => rfl
  | cons x l ih =>
    simp only [List.map_cons, List.mem_cons, not_or] at h
    exact (ih _ h.2).trans ((bitAt_setBit ..).trans (if_neg h.1))

theorem bitAt_pausesOf {l : List (Nat × Nat)} (hl : (l.map (·.1)).Nodup) {x : Nat × Nat} (hx : x ∈ l) (b : Nat) :
    bitAt (pausesOf l b) x.1 = (x.2 != 0) := by
  induction l generalizing b with
  | nil => simp at hx
  | cons y l ih =>
    simp only [List.map_cons, List.nodup_cons] at hl
    rcases List.mem_cons.1 hx with rfl | hx
    · exact (bitAt_pausesOf_other l _ _ hl.1).trans ((bitAt_setBit ..).trans (if_pos rfl))
    · exact ih hl.2 hx _

theorem bitAt_mod_256 (n : Nat) {p : Nat} (hp : p < 8) : bitAt (n % 256) p = bitAt n p := by
  rw [bitAt_eq_testBit, bitAt_eq_testBit, show (256 : Nat) = 2 ^ 8 from rfl, Nat.testBit_mod_two_pow, decide_eq_true hp, Bool.true_and]

theorem paused_kick (l n p : Nat) (hp : p < 8) :
    bitAt ((kick l (s.setFldI F.PRT_LPORT_STAT_PAUSED l n)).fldI F.PRT_LPORT_STAT_PAUSED l) p = bitAt n p := by
  rw [(kick_evolves_refl _ _).fldI_eq F.PRT_LPORT_STAT_PAUSED l (by decide),
    fldI_setFldI_same F.PRT_LPORT_STAT_PAUSED l n (by decide) (by decide)]
  exact bitAt_mod_256 n hp

/-- Every enabled priority that a PFC frame names is paused exactly where its timer is not zero. -/
theorem paused_applyPfc {timers : List (Nat × Nat)} (hup : linkIsUp s lport.val = true) (hps : s.cmd.ps ≠ 4)
    (hnodup : (timers.map (·.1)).Nodup) {x : Nat × Nat} (hx : x ∈ timers) (hen : pfcEnabled s lport.val x.1 = true) (hlt : x.1 < 8) :
    bitAt ((applyPfc lport.val timers s).fldI F.PRT_LPORT_STAT_PAUSED lport.val) x.1 = (x.2 != 0) := by
  have hnamed : applyPfc lport.val timers s = kick lport.val (s.setFldI F.PRT_LPORT_STAT_PAUSED lport.val
      (pausesOf (timers.filter fun x => pfcEnabled s lport.val x.1) (s.fldI F.PRT_LPORT_STAT_PAUSED lport.val))) := by
    unfold applyPfc
    exact if_neg (by rw [hup]; simp [hps])
  rw [hnamed, paused_kick _ _ _ hlt]
  exact bitAt_pausesOf (hnodup.sublist (List.filter_sublist.map _)) (List.mem_filter.2 ⟨hx, hen⟩) _

theorem nodup_pfcTimers (f : Bytes) : ((pfcTimers f).map (·.1)).Nodup := by
  have hids : (pfcTimers f).map (·.1) = (List.range 8).filter fun p => bitAt (half f 16) p := by
    unfold pfcTimers
    rw [List.map_map]
    exact List.map_id _
  rw [hids]
  exact List.nodup_range.filter _

/-! A frame that is handed on (R224, R250). -/

/-- Two states that agree on what a frame's way through the switch reads. -/
structure SameSwitch (s u : State) : Prop where
  net : u.net = s.net
  regs : u.regs = s.regs
  now : u.now = s.now
  blocks : u.ctl.blocks = s.ctl.blocks

theorem hearPtp_evolves_refl (l : Nat) (f : Bytes) (s : State) : Evolves [.time] s (hearPtp l f s) := hearPtp_evolves .refl Sub.rfl

theorem sameSwitch_hearPtp (l : Nat) (f : Bytes) : SameSwitch s (hearPtp l f s) := by
  have h := hearPtp_evolves_refl l f s
  exact ⟨net_of_evolves h (by decide), h.same .regs (by decide), h.now_eq (by decide), h.same .fences (by decide)⟩

theorem SameSwitch.fldI (h : SameSwitch s u) (f : Fld) (i : Nat) : u.fldI f i = s.fldI f i := by
  simp only [State.fldI, h.regs]

theorem SameSwitch.fld (h : SameSwitch s u) (f : Fld) : u.fld f = s.fld f := h.fldI f 0

theorem SameSwitch.setFld (h : SameSwitch s u) (f : Fld) (v : Nat) : SameSwitch (s.setFld f v) (u.setFld f v) := by
  refine ⟨?_, ?_, ?_, h.blocks⟩
  · rw [State.setFld_net, State.setFld_net, h.net]
  · simp only [State.setFld, State.setFldI, h.regs]
  · rw [State.now_setFld, State.now_setFld, h.now]

theorem SameSwitch.onNet (h : SameSwitch s u) (f : Net → Net) : SameSwitch (s.onNet f) (u.onNet f) :=
  ⟨congrArg f h.net, h.regs, h.now, h.blocks⟩

theorem SameSwitch.setFree (h : SameSwitch s u) (n : Nat) : SameSwitch (setFree n s) (setFree n u) := by
  have hlow : (if u.net.freeMinRead then freeCells u else u.fld F.SWC_FREE_MIN_COUNT) =
      (if s.net.freeMinRead then freeCells s else s.fld F.SWC_FREE_MIN_COUNT) := by
    simp only [h.net, freeCells, h.fld]
  unfold Machine.setFree
  dsimp only
  rw [hlow]
  exact ((h.setFld _ _).setFld _ _).onNet _

/-- A cell is allocated. -/
def cellTaken (port owner refs a : Nat) (s : State) : State :=
  s.onNet fun n => { n with
    nextBank := n.nextBank.put port ((a / 16384 + 1) % 64)
    cells := n.cells.upd a fun c => { c with
      owner := owner, gen := ((s.net.cells.at a).gen + 1) % 16, refs := refs, age := s.now / 2 ^ 21 % 2 ^ 17, misfiled := false
      reported := false } }

theorem SameSwitch.cellTaken (h : SameSwitch s u) (port owner refs a : Nat) :
    SameSwitch (cellTaken port owner refs a s) (cellTaken port owner refs a u) := by
  refine ⟨?_, h.regs, h.now, h.blocks⟩
  simp only [Machine.cellTaken, State.onNet_net, h.net, h.now]

/-- The first free cell of the banks, from the port's next one on. -/
def cellFound (port : Nat) (s : State) : Option Nat :=
  ((List.range 64).map fun i => (s.net.nextBank.at port + i) % 64).findSome? (freeIn s)

theorem allocCell_eq (port owner refs : Nat) : allocCell port owner refs s = (cellFound port s).map fun a =>
    (a * 16 + ((s.net.cells.at a).gen + 1) % 16, setFree (freeCells (cellTaken port owner refs a s) - 1) (cellTaken port owner refs a s)) := by
  unfold allocCell cellFound
  dsimp only
  split
  · next h => rw [h]; rfl
  · next h => rw [h]; rfl

theorem SameSwitch.cellFound (h : SameSwitch s u) (port : Nat) : cellFound port u = cellFound port s := by
  have hfree : freeIn u = freeIn s := by
    funext bank
    unfold freeIn fencedUnit
    rw [h.blocks, h.now, h.net]
  simp only [Machine.cellFound, hfree, h.net]

/-- An allocation that finds its cells in one state finds them in the other. -/
theorem SameSwitch.allocChain (port owner refs n : Nat) (h : SameSwitch s u)
    (hs : (allocChain port owner refs n s).isSome = true) : (allocChain port owner refs n u).isSome = true := by
  induction n generalizing s u with
  | zero => rfl
  | succ n ih =>
    unfold Machine.allocChain at hs ⊢
    rw [allocCell_eq] at hs ⊢
    rw [h.cellFound port]
    cases hf : Machine.cellFound port s with
    | none => rw [hf] at hs; simp at hs
    | some a =>
      rw [hf] at hs
      simp only [Option.map_some, Option.isSome_map] at hs ⊢
      refine ih ?_ hs
      have htaken := h.cellTaken port owner refs a
      have hfree : freeCells (Machine.cellTaken port owner refs a u) = freeCells (Machine.cellTaken port owner refs a s) := htaken.fld _
      rw [hfree]
      exact htaken.setFree _

theorem SameSwitch.parse (h : SameSwitch s u) (f : Bytes) : parse u f = parse s f := by
  simp only [Machine.parse, h.net, h.fld]

theorem SameSwitch.lookup (h : SameSwitch s u) (l : Nat) (f : Bytes) (x : Walk) :
    lookup u (lookupKey u l f x) = lookup s (lookupKey s l f x) := by
  simp only [Machine.lookup, lookupKey, isLocal, stationIs, scent, h.net, h.fldI]

/-- An action of kind 3 that polices nothing hands the frame to XPT. -/
theorem actOn_toXpt {i a : Nat} {dei : Bool} {d : Desc} (hkind : actKind a = 3) (hpolice : actPolice a = false) :
    .toXpt d.lport d.frame ∈ (actOn i a dei d s).out := by
  have hrelease (v : State) : Evolves [.buffer, .regs, .regSwc, .out] v (releaseDesc d v) := releaseDesc_evolves .refl Sub.rfl
  unfold actOn
  rw [hpolice, if_neg (by decide)]
  dsimp only
  rw [if_neg (by decide), hkind]
  exact (hrelease _).sent (List.mem_append_right _ (List.mem_singleton.2 rfl))

/-- A class 0 frame for XPT whose cells are free is handed on (R250, R257). -/
theorem storeFrame_toXpt {l prio i a : Nat} {dei : Bool} {f : Bytes} (hkind : actKind a = 3) (hpolice : actPolice a = false)
    (hpfc : pfcEnabled s l prio = false) (hcells : (allocChain l 1 1 (cellsFor (f.length + 4)) s).isSome = true) :
    .toXpt l f ∈ (storeFrame l prio true f (actOn i a dei) s).out := by
  obtain ⟨⟨hs, v⟩, hchain⟩ := Option.isSome_iff_exists.1 hcells
  unfold storeFrame
  dsimp only
  rw [if_neg (by simp), if_neg (by rw [hpfc]; simp), hchain]
  exact actOn_toXpt hkind hpolice

/-! The selection of the next frame (R265). -/

theorem pick_nil (key : Nat) (entry : Nat → QEntry) (len : Nat → Nat) (d : Tab Nat) : (pick s key entry len [] d).1 = none := rfl

/-- A port with nothing queued selects nothing. -/
theorem selectNext_empty {l : Nat} (hqueues : portQueues s l = []) (hc0 : framesIn s (8 * l + 7) = []) : selectNext l s = s := by
  have hnodes : eligibleNodes s l = [] := by
    unfold eligibleNodes
    refine List.filter_eq_nil_iff.2 fun n hn => ?_
    obtain ⟨i, hi, rfl⟩ := List.mem_map.1 hn
    have hdiv : (16 * l + i) / 16 = l := by
      have := List.mem_range.1 hi
      omega
    simp [nodeQueues, hdiv, hqueues]
  unfold selectNext
  dsimp only
  rw [if_neg (by simp [queueEligible, hc0]), hnodes]
  rfl

theorem kick_empty {l : Nat} (hqueues : portQueues s l = []) (hc0 : framesIn s (8 * l + 7) = []) : kick l s = s := by
  unfold kick
  split
  · rfl
  · rw [hqueues, List.nil_append, List.foldl_cons, List.foldl_nil, hc0]
    exact selectNext_empty hqueues hc0

theorem exec_frameTransmitted : exec (.frameTransmitted lport none) s = .next (kick lport.val (lineEnded lport.val s)) := rfl

/-- The line is free, its frame's FCS sent. -/
def lineFreed (n : Nat) (d : Desc) (s : State) : State :=
  (s.send (.fcs n (if s.net.stomp.at n then 2 ^ 32 - 1 - crc32 d.sent else crc32 d.sent))).onNet fun x =>
    { x with line := x.line.put n none, stomp := x.stomp.put n false }

theorem lineEnded_leaves (n : Nat) : (lineEnded n s).net.line.at n = none ∧ (lineEnded n s).net.queues = s.net.queues ∧
    (lineEnded n s).net.queueCfg = s.net.queueCfg := by
  unfold lineEnded
  split
  · next d hd =>
    have hrelease := releaseDesc_evolves (d := d) (.refl (s := lineFreed n d s)) Sub.rfl
    have htraffic := hrelease.same .traffic (by decide)
    have htables := hrelease.same .tables (by decide)
    simp only [Part.Same, Prod.mk.injEq] at htraffic htables
    obtain ⟨hqueues, _, _, _, _, _, hline, _⟩ := htraffic
    have hfreed : (lineFreed n d s).net.line.at n = none :=
      (Tab.at_put s.net.line n none n).trans (if_pos rfl)
    exact ⟨(congrArg (fun x : Tab (Option Desc) => x.at n) hline).trans hfreed, hqueues, htables.1⟩
  · next hn => exact ⟨hn, rfl, rfl⟩

theorem portQueues_congr (hqueues : t.net.queues = s.net.queues) (hcfg : t.net.queueCfg = s.net.queueCfg) (l : Nat) :
    portQueues t l = portQueues s l := by
  have hport (q : Nat) : queuePort t q = queuePort s q := by
    unfold queuePort
    rw [show queueEntry t q = queueEntry s q from congrArg (fun x : Tab QEntry => x.at q) hcfg]
  unfold portQueues
  rw [hqueues]
  simp only [hport]

/-! Links, wake frames and time stamps (R222, R229, R235). -/

/-- The link is up with its speed. -/
def linkRaised (n : Nat) (s : State) : State :=
  (s.setFldI F.PRT_LPORT_STAT_LINK_UP n 1).setFldI F.PRT_LPORT_STAT_SPEED n (speedCode s n)

theorem speedCode_setFldI (f : Fld) (i v l : Nat) (h : F.PRT_PORT_CFG_MODE.addr (l / 4) ≠ f.addr i) :
    speedCode (s.setFldI f i v) l = speedCode s l := by
  have hmode : modeOf (s.setFldI f i v) l = modeOf s l := fldI_setFldI_other _ _ _ _ _ h
  unfold speedCode
  rw [hmode]

theorem mode_addr_ne (l : Fin 64) : F.PRT_PORT_CFG_MODE.addr (l.val / 4) ≠ F.PRT_LPORT_STAT_LINK_UP.addr l.val := by
  revert l
  decide

theorem exec_linkUp (hport : portExists s lport.val = true) (hdown : linkIsUp s lport.val = false) (hps : s.cmd.ps ≠ 4)
    (hred : s.fld F.RED_STAT_STATE < 7) : exec (.linkUp lport) s =
      .next (kick lport.val (emit (portSrc lport.val) 0x101 1 (speedCode s lport.val) (linkRaised lport.val s))) := by
  have hspeed := speedCode_setFldI (s := s) F.PRT_LPORT_STAT_LINK_UP lport.val 1 lport.val (mode_addr_ne lport)
  have hspeed' (v : Nat) := speedCode_setFldI (s := s.setFldI F.PRT_LPORT_STAT_LINK_UP lport.val 1) F.PRT_LPORT_STAT_SPEED lport.val v
    lport.val (mode_addr_ne lport)
  change execLinkUp lport s = _
  unfold execLinkUp
  dsimp only
  rw [if_neg (by rw [hport, hdown]; simp [hps]; exact hred), hspeed', hspeed]
  rfl

theorem rxErr_addr_ne (l : Fin 64) : F.PRT_LPORT_STAT_LINK_UP.addr l.val ≠ F.PRT_LPORT_RXERR_FCS.addr l.val := by
  revert l
  decide

theorem linkIsUp_linkRaised (n : Nat) : linkIsUp (linkRaised n s) n = true := by
  have hup : (linkRaised n s).fldI F.PRT_LPORT_STAT_LINK_UP n = 1 :=
    (fldI_setFldI_disjoint F.PRT_LPORT_STAT_SPEED F.PRT_LPORT_STAT_LINK_UP n n _ (by decide) (by decide) (by decide) (by decide)).trans
      (fldI_setFldI_same F.PRT_LPORT_STAT_LINK_UP n 1 (by decide) (by decide))
  unfold linkIsUp
  rw [hup]
  rfl

theorem now_linkRaised (n : Nat) : (linkRaised n s).now = s.now := (State.now_setFldI ..).trans (State.now_setFldI ..)

/-- A link that goes down tells its cause. -/
theorem emitted_loseLink {l : Nat} (cause : Nat) (hup : linkIsUp u l = true) (hnow : u.now = s.now) :
    Emitted s (loseLink l cause u) (0x100 + l) 2 0x102 (cause * 16) := by
  unfold loseLink
  rw [if_pos hup, dropLink_eq hup]
  exact emitted_emit_of _ _ _ _ ((State.now_setFldI ..).trans ((State.now_setFldI ..).trans ((State.now_setFldI ..).trans
    ((State.now_setFldI ..).trans hnow))))

theorem linkIsUp_rxFail (l e : Nat) (f : Fld) (j : Nat) (h : F.PRT_LPORT_STAT_LINK_UP.addr j ≠ f.addr l) :
    linkIsUp (rxFail l e f s) j = linkIsUp s j := by
  have hfld : (rxFail l e f s).fldI F.PRT_LPORT_STAT_LINK_UP j = s.fldI F.PRT_LPORT_STAT_LINK_UP j :=
    fldI_setFldI_other f F.PRT_LPORT_STAT_LINK_UP l j _ h
  unfold linkIsUp
  rw [hfld]

theorem now_rxFail (l e : Nat) (f : Fld) : (rxFail l e f s).now = s.now :=
  State.now_setFldI s f l (min f.max (s.fldI f l + 1))

theorem exec_fecDegraded {n : Nat} (hport : portExists s lport.val = true) (hmany : 16 ≤ n) : exec (.fecDegraded lport n) s =
    .next (emit (portSrc lport.val) 0x103 2 (min n 65535) (s.setFldI F.PRT_LPORT_STAT_FEC_DEGRADED lport.val 1)) := by
  change execFecDegraded lport n s = _
  unfold execFecDegraded
  exact if_neg (by rw [hport]; simp; omega)

theorem exec_wakeMatch (hps : s.cmd.ps = 4) (hup : linkIsUp s lport.val = true) (frame : Bytes) :
    exec (.wakeMatch lport frame) s = .next (wakeFrame lport.val frame s) := if_pos ⟨hps, hup⟩

theorem exec_linkDown (cause : Fin 2) (part : Bool) (hup : linkIsUp s lport.val = true) : exec (.linkDown lport cause part) s =
    .next (loseLink lport.val cause.val (if part then rxFail lport.val 0x106 F.PRT_LPORT_RXERR_FCS s else s)) := by
  change execLinkDown lport cause part s = _
  unfold execLinkDown
  exact if_neg (by rw [hup]; decide)

theorem wakeFrame_none {l : Nat} {frame : Bytes} (h : wakeHits s (l / 4) frame = []) : wakeFrame l frame s =
    s.onNet fun x => { x with wakeDropped := x.wakeDropped.upd (l / 4) (· + 1) } := by
  unfold wakeFrame
  dsimp only
  rw [h]

/-- The wake filters that a frame meets are noted. -/
def wakeNoted (n : Nat) (js : List Nat) (s : State) : State :=
  s.setFldI F.PRT_WAKE_EN_MATCHED n (s.fldI F.PRT_WAKE_EN_MATCHED n ||| (js.map (2 ^ ·)).sum)

theorem wakeNoted_parts (n : Nat) (js : List Nat) : (wakeNoted n js s).cmd = s.cmd ∧ (wakeNoted n js s).net = s.net :=
  ⟨State.setFldI_cmd .., State.setFldI_net ..⟩

theorem now_wakeNoted (n : Nat) (js : List Nat) : (wakeNoted n js s).now = s.now := State.now_setFldI ..

/-- The exit to PS0 begins. -/
def exitBegun (s : State) : State := s.onCmd fun c => { c with exiting := true }

theorem wakeFrame_some {l j : Nat} {js : List Nat} {frame : Bytes} (h : wakeHits s (l / 4) frame = j :: js)
    (hexit : s.cmd.exiting = false) : wakeFrame l frame s =
      emit (portSrc (4 * (l / 4))) 0x105 1 (l / 4 * 16 + j) (exitBegun (wakeNoted (l / 4) (j :: js) s)) := by
  unfold wakeFrame
  dsimp only
  rw [h]
  dsimp only
  exact if_neg (by rw [State.setFldI_cmd, hexit]; decide)

theorem exec_prtTsCtrl_of_nil (h : MayWrite path session 0x01000048 s) (hnone : s.net.stamps.at (bitsOf value.toNat 5 0) = []) :
    exec (.prtTsCtrl path session value) s =
      .next (putStampWords 0 0 0 0 1 ((gated path session 0x01000048 value s).setFld F.PRT_TS_CTRL_DONE 1)) := by
  have hgo : (writeGate path.val session (F.PRT_TS_CTRL_LPORT.addr 0) value s).2 = true := writeGate_performed value h
  have hstamps : ((gated path session 0x01000048 value s).setFld F.PRT_TS_CTRL_DONE 1).net.stamps.at (bitsOf value.toNat 5 0) = [] := by
    rw [State.setFld_net, net_gated, hnone]
  change execPrtTsCtrl path session value s = _
  unfold execPrtTsCtrl
  simp only [hgo, Bool.not_true, Bool.false_eq_true, if_false]
  rw [show (((writeGate path.val session (F.PRT_TS_CTRL_LPORT.addr 0) value s).1.setFld F.PRT_TS_CTRL_DONE 1).net.stamps.at
    (bitsOf value.toNat 5 0)) = [] from hstamps]
  rfl

theorem putStampWords_leaves (w0 w1 w2 w3 e : Nat) : (putStampWords w0 w1 w2 w3 e s).net = s.net ∧
    (putStampWords w0 w1 w2 w3 e s).fld F.PRT_TS_CTRL_EMPTY = e % 2 := by
  unfold putStampWords
  exact ⟨State.setFld_net .., fld_setFld_same F.PRT_TS_CTRL_EMPTY e (by decide) (by decide)⟩

/-- Settles O46: a frame's way reads what its time stamp leaves, a kick leaves the ports' registers, and what a port has nothing to
send keeps its line free. -/
theorem framesAndLinksComplete : Obligations.FramesAndLinksComplete := by
  unfold Obligations.FramesAndLinksComplete
  refine ⟨fun lport frame s hup hps => ?fcs, fun lport frame s hup hps hlen => ?length, fun lport frame s hup hps hlen htype => ?pause,
    fun lport frame prio s hup hps hlen htype hnamed hen => ?pfc,
    fun lport frame w i a s hup hps hlen htype hparse hip hlook hact hsums hpfc hcells => ?handed,
    fun lport frame w i a s hup hps hlen htype hparse hip hlook hkind hsums => ?badSum,
    fun lport frame s hup hps hhits => ?asleep, fun lport s hport hdown hps hred => ?up, fun lport cause part s hup => ?down,
    fun lport codewords s hport hmany => ?fec, fun lport s => ?fecCleared, fun lport timers s hup hps hnodup => ?timers,
    fun lport prio s => ?expiry, fun lport prio s hxoff hps => ?refresh, fun lport s hqueues hc0 => ?transmitted,
    fun path session value s hwrite hnone => ?stamp, fun lport frame j js s hup hps hexit hhits => ?wake⟩
  case fcs =>
    exact ⟨_, (exec_frameReceived false hup).trans ((if_neg hps).trans (if_pos rfl)),
      rxFail_stompTransit _ _ _ _ (by decide) (by decide) rfl (by decide)⟩
  case length =>
    exact ⟨_, (exec_frameReceived true hup).trans ((if_neg hps).trans ((if_neg (by decide)).trans (if_pos hlen))),
      rxFail_stompTransit _ _ _ _ (by decide) (by decide) rfl (by decide)⟩
  case pause =>
    exact ⟨_, (exec_goodFrame hup hps hlen).trans (if_pos htype), (count_countOnly ..).trans (if_pos rfl), rfl, rfl, rfl⟩
  case pfc =>
    refine ⟨_, (exec_goodFrame hup hps hlen).trans ((if_neg (by rw [htype.2]; simp)).trans (if_pos (by exact htype))), ?_⟩
    have hmem : (prio.val, half frame (18 + 2 * prio.val)) ∈ pfcTimers frame :=
      List.mem_map.2 ⟨prio.val, List.mem_filter.2 ⟨List.mem_range.2 prio.isLt, hnamed⟩, rfl⟩
    exact paused_applyPfc hup hps (nodup_pfcTimers frame) hmem hen prio.isLt
  case handed =>
    have hsame := sameSwitch_hearPtp (s := s) lport.val frame
    have hclass : classifyFrame lport.val frame (hearPtp lport.val frame s) = storeFrame lport.val (bitsOf (w.tag.getD 0) 15 13) true
        frame (actOn i a (bitAt (w.tag.getD 0) 12)) (hearPtp lport.val frame s) := by
      unfold classifyFrame
      rw [hsame.parse, hparse]
      dsimp only
      rw [hip, hsame.lookup, hlook]
      dsimp only
      rw [if_neg (by decide), if_neg (by rw [hsums.1, hsums.2]; simp), hact.1, hact.2.1]
      rfl
    refine ⟨_, (exec_dataFrame hup hps hlen htype).trans (congrArg Host.Outcome.next hclass), ?_⟩
    exact storeFrame_toXpt hact.1 hact.2.2 (by unfold pfcEnabled; rw [hsame.fldI]; exact hpfc) (hsame.allocChain _ _ _ _ hcells)
  case badSum =>
    have hsame := sameSwitch_hearPtp (s := s) lport.val frame
    have hclass : classifyFrame lport.val frame (hearPtp lport.val frame s) =
        rxFail lport.val 0x109 F.PRT_LPORT_RXERR_L4 (hearPtp lport.val frame s) := by
      unfold classifyFrame
      rw [hsame.parse, hparse]
      dsimp only
      rw [hip, hsame.lookup, hlook]
      dsimp only
      rw [if_neg (by decide), if_pos ⟨hkind, by rcases hsums with h | h <;> rw [h] <;> simp⟩]
    obtain ⟨hfld, _, _, hout, hnet⟩ := rxFail_leaves (s := hearPtp lport.val frame s) lport.val 0x109 F.PRT_LPORT_RXERR_L4
      (by decide) (by decide)
    rw [hsame.fldI] at hfld
    refine ⟨_, (exec_dataFrame hup hps hlen htype).trans (congrArg Host.Outcome.next hclass), hfld, ?_, hnet.trans hsame.net⟩
    have hheard : (hearPtp lport.val frame s).out = s.out := by
      unfold hearPtp
      split
      · split <;> rfl
      · rfl
    exact hout.trans hheard
  case asleep =>
    refine ⟨_, (exec_frameReceived true hup).trans ((if_pos hps).trans (congrArg Host.Outcome.next ((if_pos rfl).trans
      (wakeFrame_none hhits)))), ?_, rfl, rfl⟩
    exact (Tab.at_upd s.net.wakeDropped (lport.val / 4) (· + 1) (lport.val / 4)).trans (if_pos rfl)
  case up =>
    have hkick := kick_evolves_refl lport.val (emit (portSrc lport.val) 0x101 1 (speedCode s lport.val) (linkRaised lport.val s))
    refine ⟨_, exec_linkUp hport hdown hps hred, ?_, hkick.emitted_mono (by decide) (emitted_emit_of _ _ _ _ (now_linkRaised _))⟩
    rw [linkIsUp_of_evolves hkick (by decide), linkIsUp_emit]
    exact linkIsUp_linkRaised _
  case down =>
    refine ⟨_, exec_linkDown cause part hup, linkIsUp_loseLink .., ?_⟩
    cases part with
    | true =>
      refine emitted_loseLink _ ?_ (now_rxFail ..)
      exact (linkIsUp_rxFail _ _ F.PRT_LPORT_RXERR_FCS _ (rxErr_addr_ne lport)).trans hup
    | false => exact emitted_loseLink _ hup rfl
  case fec =>
    refine ⟨_, exec_fecDegraded hport hmany, ?_, emitted_emit_of _ _ _ _ (State.now_setFldI ..)⟩
    rw [fldI_emit]
    exact fldI_setFldI_same F.PRT_LPORT_STAT_FEC_DEGRADED lport.val 1 (by decide) (by decide)
  case fecCleared =>
    refine ⟨_, rfl, fldI_setFldI_same F.PRT_LPORT_STAT_FEC_DEGRADED lport.val 0 (by decide) (by decide), ?_⟩
    unfold linkIsUp
    rw [fldI_setFldI_disjoint F.PRT_LPORT_STAT_FEC_DEGRADED F.PRT_LPORT_STAT_LINK_UP _ _ _ (by decide) (by decide) (by decide) (by decide)]
  case timers =>
    refine ⟨_, rfl, fun x hx hen => ?_⟩
    have hids : ((timers.map fun x => (x.1.val, x.2)).map (·.1)).Nodup := by
      have hval : (timers.map fun x => (x.1.val, x.2)).map (·.1) = (timers.map (·.1)).map Fin.val := by
        simp only [List.map_map]; rfl
      rw [hval]
      exact hnodup.map Fin.val_injective
    exact paused_applyPfc hup hps hids (List.mem_map.2 ⟨x, hx, rfl⟩) hen x.1.isLt
  case expiry =>
    refine ⟨_, rfl, (paused_kick _ _ _ prio.isLt).trans ((bitAt_setBit ..).trans (if_pos rfl))⟩
  case refresh =>
    refine ⟨_, ?_, rfl⟩
    change execPfcRefresh lport prio s = _
    unfold execPfcRefresh
    exact if_pos ⟨hxoff, hps⟩
  case transmitted =>
    obtain ⟨hline, hqueue, hcfg⟩ := lineEnded_leaves (s := s) lport.val
    have hq : portQueues (lineEnded lport.val s) lport.val = [] := (portQueues_congr hqueue hcfg _).trans hqueues
    have hf : framesIn (lineEnded lport.val s) (8 * lport.val + 7) = [] := (congrArg (fun x : Tab (List Desc) => x.at (8 * lport.val + 7)) hqueue).trans hc0
    exact ⟨_, exec_frameTransmitted.trans (congrArg Host.Outcome.next (kick_empty hq hf)), hline⟩
  case stamp =>
    obtain ⟨hnet, hempty⟩ := putStampWords_leaves (s := (gated path session 0x01000048 value s).setFld F.PRT_TS_CTRL_DONE 1) 0 0 0 0 1
    exact ⟨_, exec_prtTsCtrl_of_nil hwrite hnone, hnet.trans ((State.setFld_net ..).trans (net_gated ..)), hempty⟩
  case wake =>
    refine ⟨_, (exec_wakeMatch hps hup frame).trans (congrArg Host.Outcome.next (wakeFrame_some hhits hexit)), ?_, ?_,
      emitted_emit_of _ _ _ _ (now_wakeNoted (s := s) (lport.val / 4) (j :: js))⟩
    · exact congrArg (fun c : Cmd => { c with exiting := true }) (wakeNoted_parts (s := s) (lport.val / 4) (j :: js)).1
    · exact (wakeNoted_parts (s := s) (lport.val / 4) (j :: js)).2

end Sys2Proof.Machine
end

section
/-! PROOFS. A failed active unit and the takeover (R360 to R362): what a lost link leaves of the record link and the misses, and
what the steps of a takeover keep. -/

namespace Sys2Proof.Machine

variable {s t u : State} {w : List Part}

/-! What stands of the record link and the misses. -/

/-- The link of the records stands, and so do the misses of every unit. -/
structure MissesStand (s t : State) : Prop where
  link : t.red.recordLink = s.red.recordLink
  misses : ∀ r : Fin 3, t.fldI F.RED_PEER_STAT_MISSES r.val = s.fldI F.RED_PEER_STAT_MISSES r.val

theorem MissesStand.refl (s : State) : MissesStand s s := ⟨rfl, fun _ => rfl⟩

theorem MissesStand.trans (h : MissesStand s t) (h' : MissesStand t u) : MissesStand s u :=
  ⟨h'.link.trans h.link, fun r => (h'.misses r).trans (h.misses r)⟩

theorem MissesStand.of_evolves (h : Evolves w s t) (hleash : .leash ∉ w) (hregs : .regRed ∉ w) : MissesStand s t :=
  ⟨(leash_of_evolves h hleash).2.1, fun _ => h.fldI_eq _ _ hregs⟩

theorem missesStand_setFldI (f : Fld) (i v : Nat) (h : ∀ r : Fin 3, F.RED_PEER_STAT_MISSES.addr r.val ≠ f.addr i) :
    MissesStand s (s.setFldI f i v) := ⟨congrArg Red.recordLink (State.setFldI_red ..), fun r => fldI_setFldI_other f F.RED_PEER_STAT_MISSES i r.val v (h r)⟩

theorem missesStand_setFld (f : Fld) (v : Nat) (h : ∀ r : Fin 3, F.RED_PEER_STAT_MISSES.addr r.val ≠ f.addr 0) :
    MissesStand s (s.setFld f v) := missesStand_setFldI f 0 v h

theorem missesStand_peerState (r v : Nat) : MissesStand s (s.setFldI F.RED_PEER_STAT_STATE r v) :=
  ⟨congrArg Red.recordLink (State.setFldI_red ..), fun j => fldI_setFldI_disjoint F.RED_PEER_STAT_STATE F.RED_PEER_STAT_MISSES r j.val v (by decide) (by decide) (by decide)
    (by decide)⟩

theorem missesStand_onRed (f : Red → Red) (h : (f s.red).recordLink = s.red.recordLink) : MissesStand s (s.onRed f) :=
  ⟨h, fun _ => rfl⟩

theorem missesStand_onLeash (l : Nat) (f : LeashLink → LeashLink) : MissesStand s (onLeash l f s) := missesStand_onRed _ rfl

theorem missesStand_emit (src ev sev data : Nat) : MissesStand s (emit src ev sev data s) :=
  .of_evolves (emit_evolves .refl Sub.rfl) (by decide) (by decide)

theorem missesStand_setRole (new : Nat) : MissesStand s (setRole new s) := by
  unfold setRole
  dsimp only
  split
  · exact .refl s
  · exact ((missesStand_setFld F.RED_STAT_STATE new (by decide)).trans (missesStand_setFld F.RED_STAT_HEEL _ (by decide))).trans
      (missesStand_emit ..)

theorem missesStand_resyncStat (f : Fld) (v : Nat) (h : f.addr 0 = 0x0E000060) : MissesStand s (s.setFld f v) :=
  missesStand_setFld f v (by rw [h]; decide)

theorem missesStand_boundLeave (bit : Nat) : MissesStand s (boundLeave bit s) :=
  .of_evolves (boundLeave_evolves .refl Sub.rfl) (by decide) (by decide)

theorem missesStand_clearReplica : MissesStand s (clearReplica s) :=
  ((missesStand_onRed (s := s) (fun r => { r with pend := [], notices := [], copied := [], bulkDone := false, disputed := [] }) rfl).trans
    ((missesStand_resyncStat F.RED_RESYNC_STAT_ACTIVE 0 rfl).trans ((missesStand_resyncStat F.RED_RESYNC_STAT_STEP 0 rfl).trans
      (missesStand_resyncStat F.RED_RESYNC_STAT_PERCENT 0 rfl)))).trans (missesStand_boundLeave 2)

theorem missesStand_activeIs (r : Option Nat) : MissesStand s (activeIs r s) :=
  (missesStand_setFld F.RED_STAT_ACTIVE_ROLE _ (by decide)).trans (missesStand_setFld F.RED_STAT_ACTIVE_VALID _ (by decide))

theorem missesStand_enterJoining : MissesStand s (enterJoining s) := by
  have hdrives : MissesStand s (drivesStopped false s) := ⟨rfl, fun _ => rfl⟩
  have hreplica : MissesStand s (joiningReplica s) :=
    (hdrives.trans (missesStand_setRole 2)).trans (missesStand_clearReplica.trans (missesStand_activeIs none))
  have hcount : MissesStand s (countQuorum (joiningFrom (joiningReplica s))) :=
    hreplica.trans ((missesStand_onRed _ rfl).trans (missesStand_setFld F.RED_STAT_QUORUM _ (by decide)))
  rw [enterJoining_eq]
  split
  · exact hcount
  · exact hcount.trans (missesStand_emit ..)

theorem missesStand_resyncFails (cause : Nat) : MissesStand s (resyncFails cause s) :=
  (missesStand_emit ..).trans
    ((MissesStand.of_evolves (wipeObjects_evolves .refl Sub.rfl) (by decide) (by decide)).trans missesStand_enterJoining)

theorem missesStand_setEpoch (e : Nat) : MissesStand s (setEpoch e s) :=
  (missesStand_setFld F.RED_EPOCH_LO_EPOCH _ (by decide)).trans (missesStand_setFld F.RED_EPOCH_HI_EPOCH _ (by decide))

theorem missesStand_releaseHeld : MissesStand s (releaseHeld s) := by
  unfold releaseHeld
  dsimp only
  split
  · exact .refl s
  · refine MissesStand.trans ?_ (.of_evolves (sendAcks_evolves .refl Sub.rfl) (by decide) (by decide))
    refine MissesStand.trans (t := match s.red.backlog.getLast? with | some q => setEpoch q.epoch s | none => s) ?_ ?_
    · split
      · exact missesStand_setEpoch _
      · exact .refl s
    · exact (missesStand_setFld F.RED_BACKLOG_QUEUED 0 (by decide)).trans ⟨rfl, fun _ => rfl⟩

theorem missesStand_joinerLost (r : Nat) : MissesStand s (joinerLost s r) :=
  (((missesStand_resyncStat F.RED_RESYNC_STAT_ACTIVE 0 rfl).trans (missesStand_resyncStat F.RED_RESYNC_STAT_STEP 0 rfl)).trans
    (missesStand_peerState r 0)).trans ((missesStand_boundLeave 2).trans missesStand_releaseHeld)

theorem missesStand_joinersLost (link : Nat) : MissesStand s (joinersLost link s) := by
  unfold joinersLost
  split
  · exact foldl_keeps (P := MissesStand s) (fun _ r hu => hu.trans (missesStand_joinerLost r)) _ _ (.refl s)
  · exact .refl s

theorem missesStand_linkStat (f : Fld) (l : Fin 2) (v : Nat) (h : ∀ r : Fin 3, F.RED_PEER_STAT_MISSES.addr r.val ≠ f.addr l.val) :
    MissesStand s (s.setFldI f l.val v) := missesStand_setFldI f l.val v h

theorem missesStand_leashDropped (l : Fin 2) : MissesStand s (leashDropped l.val s) :=
  ((missesStand_linkStat F.RED_LINK_STAT_UP l 0 (by revert l; decide)).trans
    (missesStand_linkStat F.RED_LINK_STAT_PEER l 7 (by revert l; decide))).trans (missesStand_onLeash ..)

theorem leashDown_of_down {l cause : Nat} (h : leashUp s l = false) : leashDown l cause s = s := by
  unfold leashDown
  exact if_pos (by rw [h]; rfl)

theorem missesStand_leashDown (l : Fin 2) (cause : Nat) : MissesStand s (leashDown l.val cause s) := by
  cases h : leashUp s l.val with
  | false => rw [leashDown_of_down h]; exact .refl s
  | true =>
    have hlost : MissesStand s (joinersLost l.val (linkDownTold l.val cause s)) :=
      ((missesStand_leashDropped l).trans (missesStand_emit ..)).trans (missesStand_joinersLost _)
    rw [leashDown_eq h]
    split
    · exact hlost.trans (missesStand_resyncFails 2)
    · exact hlost

/-! Probing that has ended. -/

theorem roles_of_evolves (h : Evolves w s t) (hw : .roles ∉ w) : t.red.probing = s.red.probing ∧ t.red.joinFrom = s.red.joinFrom ∧
    t.red.takeoverFrom = s.red.takeoverFrom ∧ t.red.disputed = s.red.disputed ∧ t.red.order = s.red.order := by
  have hsame := h.same .roles hw
  simp only [Part.Same, Prod.mk.injEq] at hsame
  obtain ⟨hprobing, hjoin, _, _, hfrom, _, _, hdisputed, horder, _⟩ := hsame
  exact ⟨hprobing, hjoin, hfrom, hdisputed, horder⟩

theorem pend_of_evolves (h : Evolves w s t) (hw : .replicas ∉ w) : t.red.pend = s.red.pend ∧ t.red.notices = s.red.notices := by
  have hsame := h.same .replicas hw
  simp only [Part.Same, Prod.mk.injEq] at hsame
  obtain ⟨_, _, _, _, _, _, _, _, hpend, hnotices, _⟩ := hsame
  exact ⟨hpend, hnotices⟩

theorem pend_clearReplica : (clearReplica s).red.pend = [] := by
  have hbound (v : State) : Evolves _ v (boundLeave 2 v) := boundLeave_evolves .refl Sub.rfl
  unfold clearReplica
  dsimp only
  rw [(pend_of_evolves (hbound _) (by decide)).1, State.setFld_red, State.setFld_red, State.setFld_red]
  rfl

theorem pend_joiningReplica : (joiningReplica s).red.pend = [] := by
  have hactive (v : State) : Evolves _ v (activeIs none v) := activeIs_evolves .refl Sub.rfl
  unfold joiningReplica
  rw [(pend_of_evolves (hactive _) (by decide)).1, pend_clearReplica]

theorem joiningFrom_clears : (joiningFrom s).red.probing = .none ∧ (joiningFrom s).red.pend = s.red.pend := ⟨rfl, rfl⟩

/-- A unit that enters JOINING probes nobody, and no command is pending. -/
theorem enterJoining_clears : (enterJoining s).red.probing = .none ∧ (enterJoining s).red.pend = [] := by
  have hend := enterJoining_evolves_from (s := s)
  obtain ⟨hprobing, hpend⟩ := joiningFrom_clears (s := joiningReplica s)
  exact ⟨(roles_of_evolves hend (by decide)).1.trans hprobing,
    (pend_of_evolves hend (by decide)).1.trans (hpend.trans pend_joiningReplica)⟩

theorem probing_linkDownTold (l cause : Nat) : (linkDownTold l cause s).red.probing = s.red.probing := by
  have hemit (v : State) : Evolves _ v (emit (0x5E1 + l) 0xE08 2 cause v) := emit_evolves .refl Sub.rfl
  unfold linkDownTold
  rw [(roles_of_evolves (hemit _) (by decide)).1]
  unfold leashDropped onLeash
  rw [State.onRed_red, State.setFldI_red, State.setFldI_red]

theorem probing_resyncFails (cause : Nat) : (resyncFails cause s).red.probing = .none := enterJoining_clears.1

theorem probing_leashDown {l cause : Nat} (h : s.red.probing = .none) : (leashDown l cause s).red.probing = .none := by
  cases hup : leashUp s l with
  | false => rw [leashDown_of_down hup]; exact h
  | true =>
    have hlost : (joinersLost l (linkDownTold l cause s)).red.probing = .none :=
      (roles_of_evolves (joinersLost_evolves l) (by decide)).1.trans ((probing_linkDownTold l cause).trans h)
    rw [leashDown_eq hup]
    split
    · exact probing_resyncFails 2
    · exact hlost

/-! What tells a unit's mode and role. -/

/-- RED_MODE and RED_STAT stand, and so does GTS. -/
structure RoleStands (s t : State) : Prop where
  fld : ∀ f : Fld, f.addr 0 = 0x0E000040 ∨ f.addr 0 = 0x0E000048 → t.fld f = s.fld f
  now : t.now = s.now

theorem RoleStands.trans (h : RoleStands s t) (h' : RoleStands t u) : RoleStands s u :=
  ⟨fun f hf => (h'.fld f hf).trans (h.fld f hf), h'.now.trans h.now⟩

theorem roleStands_setFldI (f : Fld) (i v : Nat) (h : 0x0E000040 ≠ f.addr i ∧ 0x0E000048 ≠ f.addr i) : RoleStands s (s.setFldI f i v) :=
  ⟨fun g hg => fldI_setFldI_other f g i 0 v (by rcases hg with h' | h' <;> rw [h'] <;> [exact h.1; exact h.2]), State.now_setFldI ..⟩

theorem roleStands_onRed (f : Red → Red) : RoleStands s (s.onRed f) := ⟨fun _ _ => rfl, rfl⟩

theorem roleStands_emit (src ev sev data : Nat) : RoleStands s (emit src ev sev data s) := ⟨fun _ _ => rfl, rfl⟩

theorem RoleStands.redMode (h : RoleStands s t) : redMode t = redMode s := h.fld F.RED_MODE_MODE (.inl (by decide))

theorem RoleStands.role (h : RoleStands s t) : role t = role s := h.fld F.RED_MODE_ROLE (.inl (by decide))

theorem RoleStands.redState (h : RoleStands s t) : redState t = redState s := h.fld F.RED_STAT_STATE (.inr (by decide))

theorem RoleStands.activeRole (h : RoleStands s t) : activeRole t = activeRole s := h.fld F.RED_STAT_ACTIVE_ROLE (.inr (by decide))

theorem RoleStands.groupActive (h : RoleStands s t) : groupActive t = groupActive s := by
  simp only [Machine.groupActive, inGroup, h.redMode, h.redState]

theorem RoleStands.linkPeer (h : RoleStands s t) (l : Nat) : linkPeer t l = linkPeer s l := by
  unfold Machine.linkPeer
  rw [h.redMode, h.role]

theorem RoleStands.epochNow (h : RoleStands s t) : epochNow t = epochNow s := by
  simp only [Machine.epochNow, epochNs, h.now, h.fld F.RED_MODE_EPOCH_US (.inl (by decide))]

/-- What is sent on a link that stands, in a state that tells the same. -/
theorem LeashSent.of_roleStands {l d e : Nat} {f : LeashFrame} (h : RoleStands s t) (hlinks : t.red.links = s.red.links)
    (hs : LeashSent t u l d e f) : LeashSent s u l d e f := by
  unfold LeashSent at hs ⊢
  rw [hlinks, h.linkPeer, h.role] at hs
  exact hs

/-! A frame that is taken. -/

/-- The state in which a frame is taken. -/
abbrev frameTook (h : LeashHdr) (s : State) : State :=
  (onLeash h.link.val (linkTook h) s).setFldI F.RED_LINK_STAT_PEER h.link.val (min h.src 7)

theorem linkStat_addr (l : Fin 2) : 0x0E000040 ≠ F.RED_LINK_STAT_PEER.addr l.val ∧ 0x0E000048 ≠ F.RED_LINK_STAT_PEER.addr l.val := by
  revert l
  decide

theorem roleStands_frameTook (h : LeashHdr) : RoleStands s (frameTook h s) :=
  (roleStands_onRed (s := s) fun r => { r with links := r.links.upd h.link.val (linkTook h) }).trans
    (roleStands_setFldI F.RED_LINK_STAT_PEER h.link.val _ (linkStat_addr h.link))

theorem missesStand_frameTook (h : LeashHdr) : MissesStand s (frameTook h s) :=
  (missesStand_onLeash ..).trans (missesStand_linkStat F.RED_LINK_STAT_PEER h.link _ (by generalize h.link = l; revert l; decide))

theorem probing_frameTook (h : LeashHdr) : (frameTook h s).red.probing = s.red.probing :=
  (congrArg Red.probing (State.setFldI_red ..)).trans rfl

theorem leashUp_frameTook (h : LeashHdr) (l : Nat) : leashUp (frameTook h s) l = leashUp s l := by
  have hup : (frameTook h s).fldI F.RED_LINK_STAT_UP l = s.fldI F.RED_LINK_STAT_UP l :=
    (fldI_setFldI_disjoint F.RED_LINK_STAT_PEER F.RED_LINK_STAT_UP _ l _ (by decide) (by decide) (by decide) (by decide)).trans
      (fldI_onLeash ..)
  unfold leashUp
  rw [hup]

theorem out_frameTook (h : LeashHdr) : (frameTook h s).out = s.out := State.setFldI_out ..

/-! A missed record (R360). -/

/-- The miss is counted and told. -/
def missTold (a : Nat) (s : State) : State :=
  emit 0x5E0 0xE02 0 ((s.bumpI F.RED_PEER_STAT_MISSES a 1).fldI F.RED_PEER_STAT_MISSES a % 4 * 16 + a)
    (s.bumpI F.RED_PEER_STAT_MISSES a 1)

theorem exec_epochMiss (h : redState s = 4 ∨ redState s = 3) : exec .epochMiss s =
    if (s.bumpI F.RED_PEER_STAT_MISSES (activeRole s) 1).fldI F.RED_PEER_STAT_MISSES (activeRole s) ≠ 3 then
      .next (missTold (activeRole s) s)
    else .next (if redState (missTold (activeRole s) s) = 3 then resyncFails 1 (missTold (activeRole s) s)
      else suspect (missTold (activeRole s) s)) := by
  change execEpochMiss s = _
  unfold execEpochMiss
  exact if_neg (by rcases h with h | h <;> rw [h] <;> decide)

theorem misses_bumped {a : Nat} (h : s.fldI F.RED_PEER_STAT_MISSES a < 15) :
    (s.bumpI F.RED_PEER_STAT_MISSES a 1).fldI F.RED_PEER_STAT_MISSES a = s.fldI F.RED_PEER_STAT_MISSES a + 1 := by
  rw [fldI_bumpI_same F.RED_PEER_STAT_MISSES a (by decide) (by decide), show F.RED_PEER_STAT_MISSES.max = 15 from by decide]
  omega

theorem peerStat_addr (a : Fin 3) : 0x0E000040 ≠ F.RED_PEER_STAT_MISSES.addr a.val ∧ 0x0E000048 ≠ F.RED_PEER_STAT_MISSES.addr a.val := by
  revert a
  decide

theorem up_peerStat_addr (a : Fin 3) (l : Fin 2) : F.RED_LINK_STAT_UP.addr l.val ≠ F.RED_PEER_STAT_MISSES.addr a.val := by
  revert a l
  decide

theorem roleStands_missTold {a : Nat} (ha : a < 3) : RoleStands s (missTold a s) :=
  (roleStands_setFldI F.RED_PEER_STAT_MISSES a _ (peerStat_addr ⟨a, ha⟩)).trans (roleStands_emit ..)

theorem linksStand_missTold {a : Nat} (ha : a < 3) : LinksStand s (missTold a s) :=
  (linksStand_setFldI F.RED_PEER_STAT_MISSES a _ fun l => up_peerStat_addr ⟨a, ha⟩ l).trans
    (.of_evolves (emit_evolves .refl Sub.rfl) (by decide) (by decide))

theorem red_emit (src ev sev data : Nat) : (emit src ev sev data s).red = s.red := rfl

theorem red_missTold (a : Nat) : (missTold a s).red = s.red := (red_emit ..).trans (State.setFldI_red ..)

theorem out_emit (src ev sev data : Nat) : (emit src ev sev data s).out = s.out := rfl

theorem out_missTold (a : Nat) : (missTold a s).out = s.out := (out_emit ..).trans (State.setFldI_out ..)

/-! A takeover (R361, R362). -/

/-- The takeover is noted, the role changed, and the unit outside its bound. -/
def takeoverNoted (cause failed : Nat) (s : State) : State :=
  boundEnter 1 (setRole 5 (s.onRed fun r => { r with
    probing := .none, takeoverCause := cause, failedRole := failed
    takeoverFrom := if cause = 1 then r.takeoverFrom else s.now }))

/-- The failed unit is fenced, unless the takeover is planned, and told. -/
def takeoverTold (cause failed : Nat) (s : State) : State :=
  emit 0x5E0 0xE04 3 (cause * 16 + failed) (if cause = 3 then s else setRoleBit F.RED_STAT_FENCED failed true (sendAll (.fence failed) s))

/-- The contexts of the unit serve. -/
def contextsServed (s : State) : State := (nvmeContexts s).foldl serveContext s

/-- The contexts of migrations end. -/
def migrationsEnded (s : State) : State :=
  (s.xpt.ctx.keysWhere fun _ c => c.migration).foldl (fun s i => connError (i + 0x200000) 7 s) s

/-- The addresses are announced, the contexts serve, and the drives are preempted. -/
def takeoverServed (s : State) : State := startPreempt (migTakeover (migrationsEnded (contextsServed (announce s))))

theorem takeover_eq (cause failed : Nat) : takeover cause failed s = takeoverServed (takeoverTold cause failed (takeoverNoted cause failed s)) :=
  rfl

theorem contextsServed_evolves : Evolves [.contexts] s (contextsServed s) := by
  unfold contextsServed
  refine List.foldlRecOn (motive := fun u => Evolves [.contexts] s u) _ _ .refl fun u hu i _ => ?_
  exact serveContext_evolves hu Sub.rfl

theorem migrationsEnded_evolves : Evolves
    [.events, .counters, .sampling, .controllers, .queues, .commands, .powerState, .contexts, .contextCache, .regions, .chains,
      .mapping, .journal, .layoutWork, .ciphers, .jobs, .drivePorts, .buffer, .leash, .replicas, .regs, .regSwc, .out] s
    (migrationsEnded s) := by
  unfold migrationsEnded
  refine List.foldlRecOn (motive := fun u => Evolves _ s u) _ _ .refl fun u hu i _ => ?_
  exact connError_evolves hu Sub.rfl

/-- Serving keeps who is probed, and what was told. -/
theorem takeoverServed_leaves : (takeoverServed s).red.probing = s.red.probing ∧
    ∀ {v : State} {src sev ev data : Nat}, Emitted v s src sev ev data → Emitted v (takeoverServed s) src sev ev data := by
  have hannounce : Evolves _ s (announce s) := announce_evolves .refl Sub.rfl
  have hmig (v : State) : Evolves _ v (migTakeover v) := migTakeover_evolves .refl Sub.rfl
  have hpreempt (v : State) : Evolves _ v (startPreempt v) := startPreempt_evolves .refl Sub.rfl
  unfold takeoverServed
  constructor
  · exact (roles_of_evolves (hpreempt _) (by decide)).1.trans ((roles_of_evolves (hmig _) (by decide)).1.trans
      ((roles_of_evolves migrationsEnded_evolves (by decide)).1.trans ((roles_of_evolves contextsServed_evolves (by decide)).1.trans
        (roles_of_evolves hannounce (by decide)).1)))
  · exact fun he => (hpreempt _).emitted_mono (by decide) ((hmig _).emitted_mono (by decide)
      (migrationsEnded_evolves.emitted_mono (by decide) (contextsServed_evolves.emitted_mono (by decide)
        (hannounce.emitted_mono (by decide) he))))

theorem takeoverTold_evolves (cause failed : Nat) :
    Evolves [.events, .counters, .sampling, .leash, .regs, .regRed, .out] s (takeoverTold cause failed s) := by
  refine emit_evolves (.ite (fun _ => .refl) fun _ => ?_) (Sub.of Sub.rfl rfl)
  exact state_setFldI_evolves (sendAll_evolves .refl (Sub.of Sub.rfl rfl)) (Sub.of Sub.rfl rfl)

theorem takeoverNoted_leaves (cause failed : Nat) :
    (takeoverNoted cause failed s).red.probing = .none ∧ (takeoverNoted cause failed s).now = s.now := by
  have hbound (v : State) : Evolves _ v (boundEnter 1 v) := boundEnter_evolves .refl Sub.rfl
  have hrole (v : State) : Evolves _ v (setRole 5 v) := setRole_evolves .refl Sub.rfl
  exact ⟨(roles_of_evolves (hbound _) (by decide)).1.trans (roles_of_evolves (hrole _) (by decide)).1,
    ((hbound _).now_eq (by decide)).trans ((hrole _).now_eq (by decide))⟩

theorem takeoverTold_leaves (cause failed : Nat) (hnow : s.now = u.now) :
    (takeoverTold cause failed s).red.probing = s.red.probing ∧
      Emitted u (takeoverTold cause failed s) 0x5E0 3 0xE04 (cause * 16 + failed) := by
  have htold := takeoverTold_evolves (s := s) cause failed
  refine ⟨(roles_of_evolves htold (by decide)).1, emitted_emit_of _ _ _ _ ?_⟩
  split
  · exact hnow
  · have hsend (v : State) : Evolves _ v (sendAll (.fence failed) v) := sendAll_evolves .refl Sub.rfl
    exact (State.now_setFld ..).trans (((hsend _).now_eq (by decide)).trans hnow)

/-- A takeover ends the probing and tells the failed unit. -/
theorem takeover_tells (cause failed : Nat) : (takeover cause failed s).red.probing = .none ∧
    Emitted s (takeover cause failed s) 0x5E0 3 0xE04 (cause * 16 + failed) := by
  obtain ⟨hprobing, hnow⟩ := takeoverNoted_leaves (s := s) cause failed
  obtain ⟨hprobing', htold⟩ := takeoverTold_leaves (s := takeoverNoted cause failed s) (u := s) cause failed hnow
  obtain ⟨hprobing'', hmono⟩ := takeoverServed_leaves (s := takeoverTold cause failed (takeoverNoted cause failed s))
  rw [takeover_eq]
  exact ⟨hprobing''.trans (hprobing'.trans hprobing), hmono htold⟩

/-- A takeover tells the change of role. -/
theorem takeover_tellsRole {old : Nat} (cause failed : Nat) (hold : redState s = old) (hne : old ≠ 5) :
    Emitted s (takeover cause failed s) 0x5E0 1 0xE01 (old * 16 + 5) := by
  have hbound (v : State) : Evolves _ v (boundEnter 1 v) := boundEnter_evolves .refl Sub.rfl
  have hnoted : Emitted s (takeoverNoted cause failed s) 0x5E0 1 0xE01 (old * 16 + 5) :=
    (hbound _).emitted_mono (by decide) (emitted_setRole 5 hold hne rfl)
  obtain ⟨_, hmono⟩ := takeoverServed_leaves (s := takeoverTold cause failed (takeoverNoted cause failed s))
  rw [takeover_eq]
  exact hmono ((takeoverTold_evolves cause failed).emitted_mono (by decide) hnoted)

/-! The unit that may take over (R361). -/

/-- The failure is suspected. -/
def suspected (s : State) : State :=
  emit 0x5E0 0xE03 2 (activeRole s) (s.onRed fun r => { r with takeoverFrom := s.now })

/-- The active unit is asked for. -/
def probed (s : State) : State := s.onRed fun r => { r with probing := .active }

theorem links_probed (s : State) : (probed (suspected s)).red.links = s.red.links := rfl

theorem suspect_pair (hmode : redMode s = 1) : suspect s =
    if leashUp (suspected s) (1 - (suspected s).red.recordLink) then
      leashSend (1 - (suspected s).red.recordLink) (epochNow (suspected s)) (.probe (activeRole s)) (probed (suspected s))
    else takeover 1 (activeRole s) (suspected s) := by
  have hmode' : redMode (suspected s) = 1 := hmode
  unfold suspect
  exact if_pos hmode'

theorem suspected_tells {a : Nat} (h : activeRole s = a) : Emitted s (suspected s) 0x5E0 2 0xE03 a := by
  subst h
  exact emitted_emit_of _ _ _ _ rfl

theorem suspected_leaves : RoleStands s (suspected s) ∧ LinksStand s (suspected s) ∧
    (suspected s).red.recordLink = s.red.recordLink ∧ (suspected s).red.takeoverFrom = s.now :=
  ⟨(roleStands_onRed _).trans (roleStands_emit ..), ⟨rfl, fun _ => rfl⟩, rfl, rfl⟩

/-- In a pair the unit asks on its other link. -/
theorem suspect_asks {a : Nat} (ha : activeRole s = a) (hmode : redMode s = 1) (hlink : s.red.recordLink = 0) (hup : leashUp s 1 = true) :
    suspect s = leashSend 1 (epochNow (suspected s)) (.probe a) (probed (suspected s)) := by
  obtain ⟨_, hlinks, hrecord, _⟩ := suspected_leaves (s := s)
  rw [suspect_pair hmode, hrecord, hlink, ← ha]
  exact if_pos ((hlinks.leashUp 1).trans hup)

/-- The active unit that is asked for is told, and the PROBE is sent. -/
theorem suspect_asks_tells {a : Nat} (ha : activeRole s = a) (hmode : redMode s = 1) (hlink : s.red.recordLink = 0)
    (hup : leashUp s 1 = true) : Emitted s (suspect s) 0x5E0 2 0xE03 a ∧ (suspect s).red.probing = .active ∧
      (suspect s).red.takeoverFrom = s.now ∧ LeashSent s (suspect s) 1 0 (epochNow s) (.probe a) := by
  obtain ⟨hroles, hlinks, _, hfrom⟩ := suspected_leaves (s := s)
  have hprobed : RoleStands s (probed (suspected s)) := hroles.trans (roleStands_onRed _)
  have hup' : leashUp (probed (suspected s)) 1 = true := (hlinks.leashUp 1).trans hup
  have hsend (l e : Nat) (f : LeashFrame) (v : State) : Evolves _ v (leashSend l e f v) := leashSend_evolves .refl Sub.rfl
  rw [suspect_asks ha hmode hlink hup, hroles.epochNow]
  exact ⟨(hsend ..).emitted_mono (by decide) (suspected_tells ha), (roles_of_evolves (hsend ..) (by decide)).1,
    (roles_of_evolves (hsend ..) (by decide)).2.2.1.trans hfrom,
    LeashSent.of_roleStands hprobed (links_probed s) (leashSend_sends _ hup').1⟩

/-- Where the other link is down too, the unit takes over. -/
theorem suspect_alone {a : Nat} (ha : activeRole s = a) (hmode : redMode s = 1) (hlink : s.red.recordLink = 0)
    (hdown : leashUp s 1 = false) : suspect s = takeover 1 a (suspected s) := by
  obtain ⟨_, hlinks, hrecord, _⟩ := suspected_leaves (s := s)
  have hdown' : leashUp (suspected s) 1 = false := (hlinks.leashUp 1).trans hdown
  rw [suspect_pair hmode, hrecord, hlink, ← ha]
  exact if_neg (Bool.eq_false_iff.1 hdown')

/-- The third miss of a unit in HEEL makes it suspect the active unit. -/
theorem exec_thirdMiss (hstate : redState s = 4) (ha : activeRole s < 3) (htwo : s.fldI F.RED_PEER_STAT_MISSES (activeRole s) = 2) :
    exec .epochMiss s = .next (suspect (missTold (activeRole s) s)) := by
  have hbumped := misses_bumped (s := s) (a := activeRole s) (by omega)
  have hred := (roleStands_missTold (s := s) ha).redState.trans hstate
  rw [exec_epochMiss (.inl hstate), if_neg (by rw [hbumped, htwo]; decide), if_neg (by rw [hred]; decide)]

/-- A resynchronisation that fails is told with its cause, and the unit joins again. -/
theorem resyncFails_tells (cause : Nat) {old : Nat} (hold : redState u = old) (hne : old ≠ 2) (hnow : u.now = s.now) :
    Emitted s (resyncFails cause u) 0x5E4 2 0xE0F cause ∧ Emitted s (resyncFails cause u) 0x5E0 1 0xE01 (old * 16 + 2) := by
  have hwipe (v : State) : Evolves _ v (wipeObjects v) := wipeObjects_evolves .refl Sub.rfl
  have hjoin (v : State) : Evolves _ v (enterJoining v) := enterJoining_evolves .refl Sub.rfl
  have hstate : redState (wipeObjects (emit 0x5E4 0xE0F 2 cause u)) = old :=
    ((hwipe _).fldI_eq F.RED_STAT_STATE 0 (by decide)).trans hold
  have htime : (wipeObjects (emit 0x5E4 0xE0F 2 cause u)).now = s.now := ((hwipe _).now_eq (by decide)).trans hnow
  exact ⟨(hjoin _).emitted_mono (by decide) ((hwipe _).emitted_mono (by decide) (emitted_emit_of _ _ _ _ hnow)),
    (emitted_now htime).1 (enterJoining_leaves hstate hne).1⟩

/-! Probes (R361). -/

/-- The answer to a probe. -/
def probeAnswered (h : LeashHdr) (about : Nat) (s : State) : State :=
  if about = role s ∧ !groupActive s then s
  else leashSend h.link.val (epochNow s)
    (.probeReply about (s.fldI F.RED_PEER_STAT_MISSES (min about 2)) (redState s == 4)) s

/-- The active unit of a pair moves its records to the link of the probe. -/
def recordsMoved (h : LeashHdr) (about : Nat) (s : State) : State :=
  if redMode s = 1 ∧ about = role s ∧ groupActive s ∧ s.red.recordLink ≠ h.link.val then
    leashDown (1 - h.link.val) 2 (s.onRed fun r => { r with recordLink := h.link.val })
  else s

theorem exec_probeReceived (h : LeashHdr) (about : Nat) : exec (.probeReceived h about) s =
    onFrame h (fun s => recordsMoved h about (probeAnswered h about s)) s := rfl

theorem leashSend_stands (l e : Nat) (f : LeashFrame) : RoleStands s (leashSend l e f s) ∧
    (leashSend l e f s).red.recordLink = s.red.recordLink ∧ ∀ j, leashUp (leashSend l e f s) j = leashUp s j := by
  unfold leashSend
  split
  · exact ⟨⟨fun _ _ => rfl, rfl⟩, rfl, fun _ => rfl⟩
  · exact ⟨⟨fun _ _ => rfl, rfl⟩, rfl, fun _ => rfl⟩

theorem probeAnswered_stands (h : LeashHdr) (about : Nat) : RoleStands s (probeAnswered h about s) ∧
    (probeAnswered h about s).red.recordLink = s.red.recordLink ∧ ∀ j, leashUp (probeAnswered h about s) j = leashUp s j := by
  unfold probeAnswered
  split
  · exact ⟨⟨fun _ _ => rfl, rfl⟩, rfl, fun _ => rfl⟩
  · exact leashSend_stands ..

/-- The other of the two links. -/
abbrev otherLink (l : Fin 2) : Fin 2 := ⟨1 - l.val, by omega⟩

/-- Records that move take the link of the probe, and the other goes down. -/
theorem recordsMoved_moves {h : LeashHdr} {about : Nat} (hmode : redMode s = 1) (habout : about = role s) (hactive : groupActive s = true)
    (hlink : s.red.recordLink ≠ h.link.val) (hup : leashUp s (1 - h.link.val) = true) :
    (recordsMoved h about s).red.recordLink = h.link.val ∧ leashUp (recordsMoved h about s) (1 - h.link.val) = false ∧
      Emitted s (recordsMoved h about s) (0x5E1 + (1 - h.link.val)) 2 0xE08 2 := by
  obtain ⟨hdown, _, htold⟩ := leashDown_leaves (s := s.onRed fun r => { r with recordLink := h.link.val }) (link := otherLink h.link) 2 hup
  unfold recordsMoved
  rw [if_pos ⟨hmode, habout, hactive, hlink⟩]
  exact ⟨(missesStand_leashDown (s := s.onRed fun r => { r with recordLink := h.link.val }) (otherLink h.link) 2).link, hdown, htold⟩

theorem recordsMoved_evolves (h : LeashHdr) (about : Nat) : Evolves
    [.events, .counters, .sampling, .controllers, .queues, .commands, .contexts, .regions, .mapping, .journal, .batches, .jobs,
      .driveSlots, .buffer, .leash, .replicas, .roles, .regs, .regSwc, .regRed, .out] s (recordsMoved h about s) :=
  .ite (fun _ => leashDown_evolves (state_onRed_evolves .refl (.inl (Sub.of Sub.rfl rfl)) (.inr rfl) (.inr rfl)) Sub.rfl) fun _ => .refl

/-- What a reply to a probe does. -/
def replyHeard (h : LeashHdr) (about misses : Nat) (heel : Bool) (s : State) : State :=
  if about ≠ activeRole s then s
  else
    match s.red.probing with
    | .none => s
    | .active =>
      leashDown (1 - h.link.val) 2 (((s.onRed fun r => { r with probing := .none }).setFldI F.RED_PEER_STAT_MISSES about 0).onRed
        fun r => { r with recordLink := h.link.val })
    | .viaC =>
      if 2 ≤ misses ∨ !heel then takeover 1 about (s.onRed fun r => { r with probing := .none })
      else enterJoining (s.onRed fun r => { r with probing := .none })

/-- The active unit has answered on the link. -/
def answerTook (link about : Nat) (s : State) : State :=
  ((s.onRed fun r => { r with probing := .none }).setFldI F.RED_PEER_STAT_MISSES about 0).onRed fun r => { r with recordLink := link }

theorem answerTook_leaves (link about : Nat) : (answerTook link about s).red.probing = .none ∧
    (answerTook link about s).red.recordLink = link ∧ (answerTook link about s).fldI F.RED_PEER_STAT_MISSES about = 0 :=
  ⟨congrArg Red.probing (State.setFldI_red (s.onRed fun r => { r with probing := .none }) F.RED_PEER_STAT_MISSES about 0), rfl,
    (fldI_setFldI_same (s := s.onRed fun r => { r with probing := .none }) F.RED_PEER_STAT_MISSES about 0 (by decide) (by decide)).trans
      (by decide)⟩

theorem replyHeard_active {h : LeashHdr} {about misses : Nat} {heel : Bool} (ha : about = activeRole s) (hp : s.red.probing = .active) :
    replyHeard h about misses heel s = leashDown (otherLink h.link).val 2 (answerTook h.link.val about s) := by
  unfold replyHeard
  rw [if_neg (not_not.2 ha), hp]
  rfl

theorem replyHeard_viaC {h : LeashHdr} {about misses : Nat} {heel : Bool} (ha : about = activeRole s) (hp : s.red.probing = .viaC) :
    replyHeard h about misses heel s = if 2 ≤ misses ∨ !heel then takeover 1 about (s.onRed fun r => { r with probing := .none })
      else enterJoining (s.onRed fun r => { r with probing := .none }) := by
  unfold replyHeard
  rw [if_neg (not_not.2 ha), hp]

theorem exec_probeReplyReceived (h : LeashHdr) (about misses : Nat) (heel : Bool) : exec (.probeReplyReceived h about misses heel) s =
    onFrame h (replyHeard h about misses heel) s := rfl

/-! The pending commands of a takeover (R362). -/

theorem pend_sendNoticed (qpn tag : Nat) (p : Packet) (n : Notice) : (sendNoticed qpn tag p n s).red.pend = s.red.pend := by
  have hresume (v : State) : Evolves _ v (resumeSends qpn v) := resumeSends_evolves .refl Sub.rfl
  unfold sendNoticed
  exact (pend_of_evolves (hresume _) (by decide)).1

theorem pend_postWork (qpn : Nat) (x : Posted) : (postWork qpn x s).red.pend = s.red.pend :=
  (pend_of_evolves (postWork_evolves .refl Sub.rfl : Evolves _ s (postWork qpn x s)) (by decide)).1

theorem pend_sendMessage (qpn len tag : Nat) (p : Packet) : (sendMessage qpn len tag p s).red.pend = s.red.pend := by
  have hpump (v : State) : Evolves _ v (pump qpn v) := pump_evolves .refl Sub.rfl
  unfold sendMessage
  dsimp only
  split
  · exact (pend_of_evolves (hpump _) (by decide)).1.trans (pend_sendNoticed ..)
  · exact pend_postWork ..

theorem pend_post (cntlid sqid cid : Nat) (st : Status) (dw0 : Nat) (inv : Option Nat) :
    (post cntlid sqid cid st dw0 inv s).red.pend = s.red.pend := by
  have hhost (cq : Nat) : Evolves _ s (hostPost cntlid sqid cid st dw0 cq s) := hostPost_evolves .refl Sub.rfl
  unfold post
  dsimp only
  split
  · exact (pend_of_evolves (hhost _) (by decide)).1
  · split
    · rfl
    · exact pend_sendMessage ..

theorem pend_resumePending (p : PendCmd) : (resumePending s p).red.pend = s.red.pend := by
  unfold resumePending
  dsimp only
  split
  · split
    · exact pend_sendNoticed ..
    · rfl
  · split
    · exact pend_post ..
    · rfl

theorem pend_resendRead (n : Notice) : (resendRead s n).red.pend = s.red.pend := by
  unfold resendRead
  split
  · exact pend_sendNoticed ..
  · rfl

theorem pend_nakContext (i : Nat) : (nakContext s i).red.pend = s.red.pend :=
  (pend_of_evolves (nakContext_evolves .refl Sub.rfl : Evolves _ s (nakContext s i)) (by decide)).1

theorem pend_resumePendings : (resumePendings s).red.pend = [] := by
  have hfold {α : Type} {f : State → α → State} (hf : ∀ u x, (f u x).red.pend = u.red.pend) (l : List α) (v : State)
      (hv : v.red.pend = []) : (l.foldl f v).red.pend = [] :=
    foldl_keeps (P := fun u : State => u.red.pend = []) (fun u x hu => (hf u x).trans hu) l v hv
  unfold resumePendings
  dsimp only
  exact hfold (fun _ _ => pend_nakContext _) _ _ (hfold (fun _ _ => pend_resendRead _) _ _
    (hfold (fun _ _ => pend_resumePending _) _ _ rfl))

/-- The unit's heel and quorum begin anew, with no order and nothing disputed. -/
def quorumBegun (heel : List Nat) (s : State) : State := s.onRed fun r => { r with inQuorum := heel, order := none, disputed := [] }

/-- The registers tell the unit that serves and its heel. -/
def heelTold (heel : List Nat) (s : State) : State :=
  countQuorum (heel.foldl (fun s r => setRoleBit F.RED_STAT_HEEL r true s) (activeIs (some (role s)) s))

/-- The takeover is counted, and the time it took is told. -/
def timeTold (driveNs : Nat) (s : State) : State :=
  s.setFld F.RED_TAKEOVER_STAT_LAST_US (min (2 ^ 20 - 1) ((s.now - s.red.takeoverFrom - driveNs) / 1000))

/-- The registers tell the unit that serves, its heel and the time taken, and a planned handover is answered. -/
def activeTold (heel : List Nat) (old driveNs : Nat) (s : State) : State :=
  let s := timeTold driveNs ((heelTold heel s).bump F.RED_TAKEOVER_STAT_COUNT)
  if s.red.takeoverCause = 3 then sendTo old .handoverDone s else s

/-- The units in HEEL after a takeover. -/
def takeoverHeel (s : State) : List Nat :=
  (if redMode s = 2 then [2] else []) ++ (if s.red.takeoverCause = 3 then [s.red.failedRole] else [])

theorem role_quorumBegun (heel : List Nat) (n : Nat) : role (setRole n (quorumBegun heel s)) = role s :=
  fld_setRole_other n F.RED_MODE_ROLE (by decide)

theorem becomeActive_eq (driveNs : Nat) : becomeActive driveNs s =
    activeTold (takeoverHeel s) s.red.failedRole driveNs (setRole 6 (quorumBegun (takeoverHeel s) s)) := by
  have hrole : role (setRole 6 (quorumBegun (takeoverHeel s) s)) = role (quorumBegun (takeoverHeel s) s) :=
    fld_setRole_other 6 F.RED_MODE_ROLE (by decide)
  unfold activeTold heelTold
  rw [hrole]
  rfl

theorem heelTold_evolves (heel : List Nat) : Evolves [.leash, .regs, .regRed, .out] s (heelTold heel s) :=
  countQuorum_evolves (List.foldlRecOn (motive := fun u => Evolves _ s u) _ _ (activeIs_evolves .refl (Sub.of Sub.rfl rfl))
    fun _ hu _ _ => setRoleBit_evolves hu (Sub.of Sub.rfl rfl)) (Sub.of Sub.rfl rfl)

theorem activeTold_evolves (heel : List Nat) (old driveNs : Nat) :
    Evolves [.leash, .regs, .regRed, .out] s (activeTold heel old driveNs s) := by
  have htime (v : State) : Evolves [.leash, .regs, .regRed, .out] v (timeTold driveNs v) :=
    state_setFld_evolves .refl (Sub.of Sub.rfl rfl)
  have hcount : Evolves [.leash, .regs, .regRed, .out] s ((heelTold heel s).bump F.RED_TAKEOVER_STAT_COUNT) :=
    state_bump_evolves (heelTold_evolves heel) (Sub.of Sub.rfl rfl)
  exact .ite (fun _ => sendTo_evolves (hcount.trans (htime _)) (Sub.of Sub.rfl rfl)) fun _ => hcount.trans (htime _)

theorem becomeActive_leaves {old : Nat} (driveNs : Nat) (hold : redState s = old) (hne : old ≠ 6) :
    (becomeActive driveNs s).red.disputed = [] ∧ (becomeActive driveNs s).red.order = none ∧
      Emitted s (becomeActive driveNs s) 0x5E0 1 0xE01 (old * 16 + 6) := by
  have hset : Evolves _ (quorumBegun (takeoverHeel s) s) (setRole 6 (quorumBegun (takeoverHeel s) s)) := setRole_evolves .refl Sub.rfl
  have htold := activeTold_evolves (s := setRole 6 (quorumBegun (takeoverHeel s) s)) (takeoverHeel s) s.red.failedRole driveNs
  obtain ⟨_, _, _, hdisputed, horder⟩ := roles_of_evolves htold (by decide)
  obtain ⟨_, _, _, hdisputed', horder'⟩ := roles_of_evolves hset (by decide)
  rw [becomeActive_eq]
  exact ⟨hdisputed.trans (hdisputed'.trans rfl), horder.trans (horder'.trans rfl),
    htold.emitted_mono (by decide) (emitted_setRole (u := quorumBegun (takeoverHeel s) s) 6 hold hne rfl)⟩

/-- The journal is replayed. -/
def journalReplayed (tail : List JRec) (ckpt : Option (Nat × Bool × Nat)) (s : State) : State :=
  match ckpt with
  | some c => foundCkpt c (replayTail tail s)
  | none => replayTail tail s

theorem exec_takeoverReplayDone {tail : List JRec} {ckpt : Option (Nat × Bool × Nat)} {store : List (Bytes × Bytes)} {driveNs : Nat}
    (h : redState s = 5) : exec (.takeoverReplayDone tail ckpt store driveNs) s = .next (keepFloor (resumePendings
      (fixTakeover store (offerDrives (becomeActive driveNs (journalReplayed tail ckpt s)))))) := by
  change execTakeoverReplayDone tail ckpt store driveNs s = _
  unfold execTakeoverReplayDone
  exact if_neg (not_not.2 h)

theorem journalReplayed_evolves (tail : List JRec) (ckpt : Option (Nat × Bool × Nat)) : Evolves
    [.events, .counters, .sampling, .commands, .mapping, .journal, .layoutWork, .drivePorts, .leash, .out] s
    (journalReplayed tail ckpt s) := by
  have hreplay : Evolves [.events, .counters, .sampling, .commands, .mapping, .journal, .layoutWork, .drivePorts, .leash, .out] s
      (replayTail tail s) := replayTail_evolves .refl Sub.rfl
  unfold journalReplayed
  split
  · exact foundCkpt_evolves hreplay (Sub.of Sub.rfl rfl)
  · exact hreplay

theorem exec_takeoverDone (hbound : bitAt s.cmd.boundStat 1 = true) (hstate : redState s = 6) : ∃ u,
    Evolves [.contexts, .leash, .out] (s.onRed fun r => { r with notices := [] }) u ∧
      exec .takeoverDone s = .next (emit 0x5E0 0xE05 2 ((boundLeave 1 u).fld F.RED_TAKEOVER_STAT_LAST_US) (boundLeave 1 u)) := by
  refine ⟨((s.red.notices.map (·.qpn)).eraseDups).foldl (fun s q => pump q (resumeSends q s))
    (s.onRed fun r => { r with notices := [] }), ?_, ?_⟩
  · exact List.foldlRecOn (motive := fun u => Evolves _ _ u) _ _ .refl
      fun u hu q _ => pump_evolves (resumeSends_evolves hu (Sub.of Sub.rfl rfl)) Sub.rfl
  · change execTakeoverDone s = _
    unfold execTakeoverDone
    exact if_neg (by rw [hbound, hstate]; decide)

theorem bound_boundLeave (bit : Nat) : bitAt (boundLeave bit s).cmd.boundStat bit = false := by
  unfold boundLeave
  split
  · next h => simpa using h
  · dsimp only
    have hcleared : bitAt (setBit s.cmd.boundStat bit false) bit = false := (bitAt_setBit ..).trans (if_pos rfl)
    split
    · exact hcleared
    · exact hcleared

/-- Settles O52: a miss and a probe leave what tells the unit's role, a lost link leaves the misses and the record link, and the
replay leaves nothing pending. -/
theorem takeoverCompletes : Obligations.TakeoverCompletes := by
  unfold Obligations.TakeoverCompletes
  refine ⟨fun s hstate ha hne hlt => ?missed, fun s hstate ha htwo => ?joiner, fun s hstate hmode ha htwo hlink hup => ?asked,
    fun s hstate hmode ha htwo hlink hdown => ?alone, fun h about s ht hlt hanswer => ?answered, fun h s ht hactive => ?unanswered,
    fun h s ht hmode hactive hlink hup => ?moved, fun h misses heel s ht hprobing ha => ?reply,
    fun h misses heel s ht hprobing hfailed => ?confirmed, fun h misses s ht hprobing hfew hstate => ?cutOff,
    fun s hprobing hstate => ?timeout, fun tail ckpt store driveNs s hstate => ?replayed, fun s hbound hstate => ?done⟩
  case missed =>
    have hbumped := misses_bumped hlt
    refine ⟨_, (exec_epochMiss (.inl hstate)).trans (if_pos (by rw [hbumped]; omega)), ?_, ?_, ?_⟩
    · exact ((missesStand_emit ..).misses ⟨activeRole s, ha⟩).trans hbumped
    · rw [← hbumped]
      exact emitted_emit_of _ _ _ _ (State.now_setFldI ..)
    · exact out_missTold (activeRole s)
  case joiner =>
    have hbumped := misses_bumped (s := s) (a := activeRole s) (by omega)
    have hstands := roleStands_missTold (s := s) ha
    have hred : redState (missTold (activeRole s) s) = 3 := hstands.redState.trans hstate
    refine ⟨_, (exec_epochMiss (.inr hstate)).trans ((if_neg (by rw [hbumped, htwo]; decide)).trans
      (congrArg Host.Outcome.next (if_pos hred))), ?_⟩
    exact resyncFails_tells 1 hred (by decide) hstands.now
  case asked =>
    have hstands := roleStands_missTold (s := s) ha
    have hred := red_missTold (s := s) (activeRole s)
    obtain ⟨hsaid, hprobing, hfrom, hsent⟩ := suspect_asks_tells (s := missTold (activeRole s) s) hstands.activeRole
      (hstands.redMode.trans hmode) ((congrArg Red.recordLink hred).trans hlink) (((linksStand_missTold ha).leashUp 1).trans hup)
    rw [hstands.epochNow] at hsent
    exact ⟨_, exec_thirdMiss hstate ha htwo, (emitted_now hstands.now).1 hsaid, hprobing, hfrom.trans hstands.now,
      hsent.of_roleStands hstands (congrArg Red.links hred)⟩
  case alone =>
    have hstands := roleStands_missTold (s := s) ha
    have hroles := (suspected_leaves (s := missTold (activeRole s) s)).1
    have hdown' : leashUp (missTold (activeRole s) s) 1 = false := ((linksStand_missTold ha).leashUp 1).trans hdown
    have htake (c f : Nat) (v : State) : Evolves _ v (takeover c f v) := takeover_evolves .refl Sub.rfl
    refine ⟨_, (exec_thirdMiss hstate ha htwo).trans (congrArg Host.Outcome.next (suspect_alone hstands.activeRole (hstands.redMode.trans hmode)
      ((congrArg Red.recordLink (red_missTold _)).trans hlink) hdown')), ?_, ?_, ?_⟩
    · exact (htake ..).emitted_mono (by decide) ((emitted_now hstands.now).1 (suspected_tells hstands.activeRole))
    · exact (emitted_now (hstands.trans hroles).now).1 (takeover_tells ..).2
    · exact (emitted_now (hstands.trans hroles).now).1
        (takeover_tellsRole _ _ ((hstands.trans hroles).redState.trans hstate) (by decide))
  case answered =>
    have htook := roleStands_frameTook (s := s) h
    have hup : leashUp (frameTook h s) h.link.val = true := (leashUp_frameTook ..).trans ht.1
    have hne : ¬(about = role (frameTook h s) ∧ (!groupActive (frameTook h s)) = true) := by
      rw [htook.role, htook.groupActive]
      rintro ⟨habout, hoff⟩
      rcases hanswer with h' | h'
      · exact h' habout
      · rw [h'] at hoff; cases hoff
    have hmisses : (frameTook h s).fldI F.RED_PEER_STAT_MISSES (min about 2) = s.fldI F.RED_PEER_STAT_MISSES about := by
      rw [Nat.min_eq_left (by omega)]
      exact (missesStand_frameTook h).misses ⟨about, hlt⟩
    have hsent := (leashSend_sends (epoch := epochNow (frameTook h s)) (.probeReply about
      (s.fldI F.RED_PEER_STAT_MISSES about) (redState s == 4)) hup).1
    have hsaid : probeAnswered h about (frameTook h s) = leashSend h.link.val (epochNow (frameTook h s))
        (.probeReply about (s.fldI F.RED_PEER_STAT_MISSES about) (redState s == 4)) (frameTook h s) := by
      unfold probeAnswered
      rw [if_neg hne, hmisses, htook.redState]
    rw [← hsaid] at hsent
    exact ⟨_, (exec_probeReceived h about).trans (onFrame_taken _ ht), _, (recordsMoved_evolves h about).sent hsent, _, _, _, _, _, rfl⟩
  case unanswered =>
    have htook := roleStands_frameTook (s := s) h
    have hoff : groupActive (frameTook h s) = false := htook.groupActive.trans hactive
    have hsilent : probeAnswered h (role s) (frameTook h s) = frameTook h s := if_pos ⟨htook.role.symm, by rw [hoff]; rfl⟩
    have hstill : recordsMoved h (role s) (frameTook h s) = frameTook h s := if_neg (by rw [hoff]; simp)
    refine ⟨frameTook h s, ?_, out_frameTook h, (congrArg LeashLink.rx (links_leashTaken h _)).trans rfl⟩
    rw [exec_probeReceived, onFrame_taken _ ht, hsilent, hstill]
  case moved =>
    have htook := roleStands_frameTook (s := s) h
    obtain ⟨hstands, hrecord, hleash⟩ := probeAnswered_stands (s := frameTook h s) h (role s)
    have hall := htook.trans hstands
    obtain ⟨hmoved, hdown, htold⟩ := recordsMoved_moves (h := h) (s := probeAnswered h (role s) (frameTook h s)) (hall.redMode.trans hmode)
      hall.role.symm (hall.groupActive.trans hactive)
      (by rw [hrecord, (missesStand_frameTook (s := s) h).link]; exact hlink)
      ((hleash _).trans ((leashUp_frameTook ..).trans hup))
    exact ⟨_, (exec_probeReceived ..).trans (onFrame_taken _ ht), hmoved, hdown, (emitted_now hall.now).1 htold⟩
  case reply =>
    have htook := roleStands_frameTook (s := s) h
    obtain ⟨hnone, hlink, hzero⟩ := answerTook_leaves (s := frameTook h s) h.link.val (activeRole s)
    have hstands := missesStand_leashDown (s := answerTook h.link.val (activeRole s) (frameTook h s)) (otherLink h.link) 2
    refine ⟨_, (exec_probeReplyReceived ..).trans ((onFrame_taken _ ht).trans (congrArg Host.Outcome.next
      (replyHeard_active htook.activeRole.symm ((probing_frameTook h).trans hprobing)))), probing_leashDown hnone,
      hstands.link.trans hlink, (hstands.misses ⟨activeRole s, ha⟩).trans hzero⟩
  case confirmed =>
    have htook := roleStands_frameTook (s := s) h
    have hfail : (2 ≤ misses ∨ (!heel) = true) := hfailed.imp_right fun hf => by rw [hf]; rfl
    obtain ⟨hnone, htold⟩ := takeover_tells (s := (frameTook h s).onRed fun r => { r with probing := .none }) 1 (activeRole s)
    refine ⟨_, (exec_probeReplyReceived ..).trans ((onFrame_taken _ ht).trans (congrArg Host.Outcome.next
      ((replyHeard_viaC htook.activeRole.symm ((probing_frameTook h).trans hprobing)).trans (if_pos hfail)))), hnone,
      (emitted_now htook.now).1 htold⟩
  case cutOff =>
    have htook := roleStands_frameTook (s := s) h
    obtain ⟨hnone, hpend⟩ := enterJoining_clears (s := (frameTook h s).onRed fun r => { r with probing := .none })
    refine ⟨_, (exec_probeReplyReceived ..).trans ((onFrame_taken _ ht).trans (congrArg Host.Outcome.next
      ((replyHeard_viaC htook.activeRole.symm ((probing_frameTook h).trans hprobing)).trans (if_neg (by simp; omega))))), hnone, ?_, hpend⟩
    exact (emitted_now htook.now).1 (enterJoining_leaves (s := (frameTook h s).onRed fun r => { r with probing := .none })
      (htook.redState.trans hstate) (by decide)).1
  case timeout =>
    obtain ⟨hnone, htold⟩ := takeover_tells (s := s) 1 (activeRole s)
    refine ⟨_, ?_, hnone, htold, takeover_tellsRole 1 (activeRole s) hstate (by decide)⟩
    change execProbeTimeout s = _
    unfold execProbeTimeout
    exact if_neg (by rw [hstate]; simpa using hprobing)
  case replayed =>
    have hreplay := journalReplayed_evolves (s := s) tail ckpt
    obtain ⟨hdisputed, horder, hrole⟩ := becomeActive_leaves (s := journalReplayed tail ckpt s) (old := 5) driveNs
      ((hreplay.fldI_eq F.RED_STAT_STATE 0 (by decide)).trans hstate) (by decide)
    have hoffer (v : State) : Evolves _ v (offerDrives v) := offerDrives_evolves .refl Sub.rfl
    have hfix (v : State) : Evolves _ v (fixTakeover store v) := fixTakeover_evolves .refl Sub.rfl
    have hresume (v : State) : Evolves _ v (resumePendings v) := resumePendings_evolves .refl Sub.rfl
    have hfloor (v : State) : Evolves _ v (keepFloor v) := keepFloor_evolves .refl Sub.rfl
    obtain ⟨_, _, _, hd1, ho1⟩ := roles_of_evolves (hoffer (becomeActive driveNs (journalReplayed tail ckpt s))) (by decide)
    obtain ⟨_, _, _, hd2, ho2⟩ := roles_of_evolves (hfix (offerDrives (becomeActive driveNs (journalReplayed tail ckpt s)))) (by decide)
    obtain ⟨_, _, _, hd3, ho3⟩ := roles_of_evolves (hresume (fixTakeover store (offerDrives (becomeActive driveNs
      (journalReplayed tail ckpt s))))) (by decide)
    obtain ⟨_, _, _, hd4, ho4⟩ := roles_of_evolves (hfloor (resumePendings (fixTakeover store (offerDrives (becomeActive driveNs
      (journalReplayed tail ckpt s)))))) (by decide)
    refine ⟨_, exec_takeoverReplayDone hstate, ?_, hd4.trans (hd3.trans (hd2.trans (hd1.trans hdisputed))),
      ho4.trans (ho3.trans (ho2.trans (ho1.trans horder))), ?_⟩
    · exact (pend_of_evolves (hfloor _) (by decide)).1.trans pend_resumePendings
    · exact (hfloor _).emitted_mono (by decide) ((hresume _).emitted_mono (by decide) ((hfix _).emitted_mono (by decide)
        ((hoffer _).emitted_mono (by decide) ((emitted_now (hreplay.now_eq (by decide))).1 hrole))))
  case done =>
    obtain ⟨u, hsent, hexec⟩ := exec_takeoverDone hbound hstate
    have hleave (v : State) : Evolves _ v (boundLeave 1 v) := boundLeave_evolves .refl Sub.rfl
    have htime : (boundLeave 1 u).fld F.RED_TAKEOVER_STAT_LAST_US = s.fld F.RED_TAKEOVER_STAT_LAST_US :=
      ((hleave u).fldI_eq F.RED_TAKEOVER_STAT_LAST_US 0 (by decide)).trans (hsent.fldI_eq F.RED_TAKEOVER_STAT_LAST_US 0 (by decide))
    refine ⟨_, hexec, ?_, bound_boundLeave 1, ?_⟩
    · exact (pend_of_evolves (hleave u) (by decide)).2.trans ((pend_of_evolves hsent (by decide)).2.trans rfl)
    · rw [htime]
      exact emitted_emit_of _ _ _ _ (((hleave u).now_eq (by decide)).trans (hsent.now_eq (by decide)))

end Sys2Proof.Machine
end

section
/-! PROOFS. What sending leaves of a context, and what an ERROR does (R83, R96 to R98). -/

namespace Sys2Proof.Machine

variable {s t u : State} {w : List Part} {qpn : Nat}

/-! What sending a message leaves of every context. -/

/-- A context without what posting, sending and resending a message change. -/
def Context.steady (c : Context) : Context := { c with
  sends := [], work := [], workSent := 0, kept := [], resume := [], timerGts := 0, spsn := 0, sqTail := 0, readsOut := 0, paceUsed := 0,
  paceGts := 0, sampleOn := false, sampleGts := 0, samplePsn := 0 }

/-- Every context stands, but for what sending changes. -/
structure CtxSteady (s t : State) : Prop where
  steady : ∀ q, (ctxOf t q).steady = (ctxOf s q).steady

theorem CtxSteady.refl (s : State) : CtxSteady s s := ⟨fun _ => rfl⟩

theorem CtxSteady.trans (h : CtxSteady s t) (h' : CtxSteady t u) : CtxSteady s u := ⟨fun q => (h'.steady q).trans (h.steady q)⟩

theorem CtxSteady.of_ctx (h : t.xpt.ctx = s.xpt.ctx) : CtxSteady s t := ⟨fun q => by unfold ctxOf; rw [h]⟩

theorem CtxSteady.of_evolves (h : Evolves w s t) (hw : .contexts ∉ w) : CtxSteady s t := .of_ctx (h.same .contexts hw)

theorem ctxOf_onCtx_ite (qpn q : Nat) (f : Context → Context) (s : State) :
    ctxOf (onCtx qpn f s) q = if q - 0x200000 = qpn - 0x200000 then f (ctxOf s qpn) else ctxOf s q :=
  Tab.at_upd ..

theorem ctxSteady_onCtx (qpn : Nat) (f : Context → Context) (h : ∀ c, (f c).steady = c.steady) : CtxSteady s (onCtx qpn f s) := by
  refine ⟨fun q => ?_⟩
  rw [ctxOf_onCtx_ite]
  split
  next hq => rw [h, show ctxOf s q = ctxOf s qpn from by unfold ctxOf; rw [hq]]
  next => rfl

theorem ctxSteady_takePsns (qpn n tag : Nat) (p : Packet) : CtxSteady s (takePsns qpn n tag p s) :=
  ctxSteady_onCtx qpn _ fun _ => rfl

theorem ctxSteady_beginMessage (qpn : Nat) (x : Posted) : CtxSteady s (beginMessage qpn x s) := by
  have hnotice (n tag : Nat) (p : Packet) : CtxSteady s (sendNotice qpn n tag p s) :=
    .of_evolves (sendNotice_evolves .refl Sub.rfl) (by decide)
  unfold beginMessage
  split
  · exact .refl s
  · exact ((hnotice ..).trans (ctxSteady_takePsns ..)).trans (ctxSteady_onCtx qpn _ fun _ => by rfl)

theorem ctxSteady_chargePace (qpn : Nat) (data : Bool) (lens : List Nat) : CtxSteady s (chargePace qpn data lens s) := by
  unfold chargePace
  dsimp only
  split
  · exact ctxSteady_onCtx qpn _ fun _ => rfl
  · exact .refl s

theorem ctxSteady_startSample (qpn : Nat) (x : Posted) : CtxSteady s (startSample qpn x s) := by
  unfold startSample
  split
  · exact .refl s
  · exact ctxSteady_onCtx qpn _ fun c => by split <;> rfl

theorem ctxSteady_unlessPowered (out : Output) : CtxSteady s (if s.cmd.ps = 4 then s else s.send out) := by
  split
  · exact .refl s
  · exact .of_ctx rfl

theorem ctxSteady_sendPart (qpn n : Nat) : CtxSteady s (sendPart qpn n s) := by
  unfold sendPart
  dsimp only
  split
  · exact .refl s
  · have hcharge (out : Output) (data : Bool) (lens : List Nat) :
        CtxSteady s (chargePace qpn data lens (if s.cmd.ps = 4 then s else s.send out)) :=
      (ctxSteady_unlessPowered out).trans (ctxSteady_chargePace ..)
    split
    · exact (hcharge ..).trans (ctxSteady_onCtx qpn _ fun _ => by rfl)
    · exact ((hcharge ..).trans (ctxSteady_onCtx qpn _ fun _ => by rfl)).trans (ctxSteady_startSample ..)

theorem ctxSteady_pumpMany (qpn fuel : Nat) : ∀ s : State, CtxSteady s (pumpMany fuel qpn s) := by
  induction fuel with
  | zero => exact fun s => .refl s
  | succ fuel ih =>
    intro s
    rw [pumpMany]
    dsimp only
    split
    · exact .refl s
    · next x _ _ =>
      split
      · exact .refl s
      · refine CtxSteady.trans ?_ (ih _)
        refine CtxSteady.trans ?_ (ctxSteady_sendPart ..)
        split
        · exact ctxSteady_beginMessage qpn x
        · exact .refl s

theorem ctxSteady_pump (qpn : Nat) : CtxSteady s (pump qpn s) := ctxSteady_pumpMany qpn _ s

theorem ctxSteady_postWork (qpn : Nat) (x : Posted) : CtxSteady s (postWork qpn x s) :=
  (ctxSteady_onCtx qpn _ fun _ => by rfl).trans (ctxSteady_pump qpn)

theorem ctxSteady_resumeMany (qpn fuel : Nat) : ∀ s : State, CtxSteady s (resumeMany fuel qpn s) := by
  induction fuel with
  | zero => exact fun s => .refl s
  | succ fuel ih =>
    intro s
    rw [resumeMany]
    dsimp only
    split
    · exact .refl s
    · next m _ =>
      have hready : CtxSteady s (onCtx qpn (fun c => { c with resume := c.resume.filter (· != m.1) }) s) :=
        ctxSteady_onCtx qpn _ fun _ => by rfl
      split
      · exact .refl s
      · refine CtxSteady.trans ?_ (ih _)
        split
        · exact hready.trans (.of_evolves (sendPacket_evolves .refl Sub.rfl) (by decide))
        · exact hready

theorem ctxSteady_resumeSends (qpn : Nat) : CtxSteady s (resumeSends qpn s) := ctxSteady_resumeMany qpn _ s

theorem ctxSteady_sendNoticed (qpn tag : Nat) (p : Packet) (n : Notice) : CtxSteady s (sendNoticed qpn tag p n s) := by
  unfold sendNoticed
  refine CtxSteady.trans ?_ (ctxSteady_resumeSends qpn)
  exact CtxSteady.trans (t := s.onRed fun r => { r with notices := r.notices.filter (· != n) }) (.of_ctx rfl)
    (ctxSteady_onCtx qpn _ fun _ => by rfl)

theorem ctxSteady_sendMessage (qpn len tag : Nat) (p : Packet) : CtxSteady s (sendMessage qpn len tag p s) := by
  unfold sendMessage
  dsimp only
  split
  · exact (ctxSteady_sendNoticed ..).trans (ctxSteady_pump qpn)
  · exact ctxSteady_postWork ..

theorem ctxSteady_sendManifest (job typ window n : Nat) (body : Bytes) (imm : Option Nat) :
    CtxSteady s (sendManifest job typ window n body imm s) := by
  unfold sendManifest
  dsimp only
  split
  · exact ctxSteady_sendMessage ..
  · exact .refl s

theorem ctxSteady_windowEnded (entry : Nat) (failed : Option (Nat × Nat)) : CtxSteady s (windowEnded entry failed s) := by
  have honJob (j : Nat) (f : MigJob → MigJob) (v : State) : CtxSteady v (onJob j f v) := .of_ctx rfl
  unfold windowEnded
  dsimp only
  split
  · exact .refl s
  · split
    · exact .refl s
    · split
      · exact (ctxSteady_sendManifest ..).trans (honJob ..)
      · split
        · split
          · exact ctxSteady_sendManifest ..
          · exact .refl s
        · exact .refl s

theorem ctxSteady_endChain (entry : Nat) : CtxSteady s (endChain entry s) := by
  have hchain (f : Trigger → Trigger) (v : State) : CtxSteady v (onChain entry (fun _ => default) (onTrigger entry f v)) := .of_ctx rfl
  have hemit (src ev sev data : Nat) (v : State) : CtxSteady v (emit src ev sev data v) := .of_ctx rfl
  unfold endChain
  dsimp only
  split
  · exact .refl s
  · split
    · exact ((hchain ..).trans (hemit ..)).trans (ctxSteady_windowEnded ..)
    · exact ((hchain ..).trans (hemit ..)).trans (ctxSteady_windowEnded ..)
    · exact .refl s

theorem ctxSteady_failChain (entry status index : Nat) : CtxSteady s (failChain entry status index s) :=
  CtxSteady.trans (t := onChain entry (fun c => { c with
    next := none, failed := if c.failed.isNone then some (status, index) else c.failed }) s) (.of_ctx rfl) (ctxSteady_endChain entry)

theorem ctxSteady_failChainsOn (qpn cause : Nat) : CtxSteady s (failChainsOn qpn cause s) := by
  unfold failChainsOn
  refine foldl_keeps (P := CtxSteady s) (fun v e hv => hv.trans ?_) _ _ (.refl s)
  exact CtxSteady.trans (t := onChain e (fun c => { c with inProgress := c.inProgress.filter fun p =>
    !((v.xpt.chains.at e).inProgress.filter fun p => (v.xpt.pool.at p.1).qpn == qpn && decide ((v.xpt.pool.at p.1).opcode ≤ 4)).contains p })
      v) (.of_ctx rfl) (ctxSteady_failChain ..)

/-! A connection in ERROR (R83). -/

/-- A connection that is in ERROR stays in it. -/
structure ErrorStays (qpn : Nat) (s t : State) : Prop where
  stays : (ctxOf s qpn).state = 5 → (ctxOf t qpn).state = 5

theorem ErrorStays.trans (h : ErrorStays qpn s t) (h' : ErrorStays qpn t u) : ErrorStays qpn s u := ⟨fun h5 => h'.stays (h.stays h5)⟩

theorem CtxSteady.state (h : CtxSteady s t) (q : Nat) : (ctxOf t q).state = (ctxOf s q).state :=
  (congrArg Context.state (h.steady q) :)

theorem CtxSteady.errorStays (h : CtxSteady s t) : ErrorStays qpn s t := ⟨fun h5 => (h.state qpn).trans h5⟩

theorem errorStays_localDisconnect (q : Nat) : ErrorStays qpn s (localDisconnect q s) := by
  refine ⟨fun h5 => ?_⟩
  unfold localDisconnect
  dsimp only
  split
  · exact h5
  · next hq =>
    have hthree : (ctxOf s q).state = 3 := by simp only [not_or, not_not] at hq; exact hq.2
    have hother : qpn - 0x200000 ≠ q - 0x200000 := fun he => by
      have hsame : ctxOf s qpn = ctxOf s q := by unfold ctxOf; rw [he]
      rw [hsame, hthree] at h5
      exact absurd h5 (by decide)
    split
    · rw [ctxOf_onCtx_ite, if_neg hother]
      exact h5
    · have hends : ctxOf (endStraddles q (s.send (.cmDrep q))) qpn = ctxOf s qpn :=
        ctxOf_of_evolves (endStraddles_evolves (state_send_evolves .refl (Sub.of Sub.rfl rfl)) (Sub.of Sub.rfl rfl) :
          Evolves [.events, .counters, .sampling, .contextCache, .regions, .out] s _) (by decide) qpn
      unfold drainedFree freeContext
      rw [show ∀ v : State, ctxOf (v.onXpt fun x => { x with
        ctx := x.ctx.put (q - 0x200000) default
        cache := x.cache.mapAll fun _ w => { w with ways := w.ways.filter fun e => e.1 != q - 0x200000 } }) qpn =
          (v.xpt.ctx.put (q - 0x200000) default).at (qpn - 0x200000) from fun _ => rfl, Tab.at_put, if_neg hother]
      exact (congrArg Context.state hends).trans h5

theorem errorStays_forgetEntry (i : Nat) (answered : Bool) : ErrorStays qpn s (forgetEntry i answered s) := by
  refine ⟨fun h5 => ?_⟩
  have hlisted : s.xpt.ctx.at (qpn - 0x200000) ≠ default := fun hd => by
    unfold ctxOf at h5
    rw [hd] at h5
    exact absurd h5 (by decide)
  have hkept : (s.xpt.ctx.at (qpn - 0x200000)).forget i answered ≠ default := fun hd =>
    absurd ((congrArg Context.state hd).symm.trans h5) (by decide)
  exact (congrArg Context.state (Tab.at_mapAll (f := fun _ (c : Context) => c.forget i answered) hlisted hkept)).trans h5

theorem errorStays_of_evolves (h : Evolves w s t) (hw : .contexts ∉ w) : ErrorStays qpn s t := (CtxSteady.of_evolves h hw).errorStays

theorem errorStays_freeEntry (i : Nat) (r : Resolution) : ErrorStays qpn s (freeEntry i r s) := by
  have hresolve (v : State) : Evolves _ v (resolve i r v) := resolve_evolves .refl Sub.rfl
  have hlanes (v : State) : Evolves _ v (dropLanes i v) := dropLanes_evolves .refl Sub.rfl
  have hcells (hs : List Nat) (v : State) : Evolves _ v (releaseCells hs v) := releaseCells_evolves .refl Sub.rfl
  have hsweep (v : State) : Evolves _ v (sweepSlots v) := sweepSlots_evolves .refl Sub.rfl
  have hlay (f : Lay → Lay) (v : State) : ErrorStays qpn v (v.onLay f) := ⟨fun h5 => h5⟩
  have hcmd (f : Cmd → Cmd) (v : State) : ErrorStays qpn v (v.onCmd f) := ⟨fun h5 => h5⟩
  unfold freeEntry
  dsimp only
  exact ((((((errorStays_of_evolves (hresolve _) (by decide)).trans (errorStays_forgetEntry ..)).trans
    (errorStays_of_evolves (hlanes _) (by decide))).trans (hlay ..)).trans (hcmd ..)).trans
      (errorStays_of_evolves (hcells ..) (by decide))).trans (errorStays_of_evolves (hsweep _) (by decide))

theorem errorStays_endEntry (i : Nat) : ErrorStays qpn s (endEntry i s) := by
  have hnoted (c : Capsule) (v : State) : Evolves _ v (noteEnded c v) := noteEnded_evolves .refl Sub.rfl
  have hallocs (l : List Alloc) (v : State) : Evolves _ v (releaseAllocs l v) := releaseAllocs_evolves .refl Sub.rfl
  unfold endEntry
  dsimp only
  split
  · exact ⟨fun h5 => h5⟩
  · split
    · exact ⟨fun h5 => h5⟩
    · split
      · exact errorStays_freeEntry ..
      · exact ((errorStays_of_evolves (hnoted ..) (by decide)).trans (errorStays_of_evolves (hallocs ..) (by decide))).trans
          (errorStays_freeEntry ..)

theorem errorStays_foldl {α : Type} {f : State → α → State} (h : ∀ v x, ErrorStays qpn v (f v x)) (l : List α) :
    ErrorStays qpn s (l.foldl f s) :=
  foldl_keeps (P := ErrorStays qpn s) (fun v x hv => hv.trans (h v x)) l s ⟨fun h5 => h5⟩

theorem errorStays_noteEnded (c : Capsule) : ErrorStays qpn s (noteEnded c s) :=
  errorStays_of_evolves (noteEnded_evolves .refl Sub.rfl) (by decide)

theorem errorStays_sweepSlots : ErrorStays qpn s (sweepSlots s) :=
  errorStays_of_evolves (sweepSlots_evolves .refl Sub.rfl) (by decide)

theorem errorStays_onCmd (f : Cmd → Cmd) : ErrorStays qpn s (s.onCmd f) := ⟨fun h5 => h5⟩

theorem errorStays_endCommands (cntlid : Nat) : ErrorStays qpn s (endCommands cntlid s) :=
  (((errorStays_foldl (fun _ _ => errorStays_noteEnded _) _).trans (errorStays_onCmd _)).trans
    (errorStays_foldl (fun _ i => errorStays_endEntry i) _)).trans errorStays_sweepSlots

theorem errorStays_endQueueCommands (cntlid sqid : Nat) : ErrorStays qpn s (endQueueCommands cntlid sqid s) :=
  (((errorStays_foldl (fun _ _ => errorStays_noteEnded _) _).trans (errorStays_onCmd _)).trans
    (errorStays_foldl (fun _ i => errorStays_endEntry i) _)).trans errorStays_sweepSlots

theorem errorStays_deleteCtrl (cntlid kind : Nat) : ErrorStays qpn s (deleteCtrl cntlid kind s) := by
  have htest (v : State) : Evolves _ v (testReset v) := testReset_evolves .refl Sub.rfl
  have hreset (v : State) : ErrorStays qpn v (ctrlReset cntlid kind 0 v) := ⟨fun h5 => h5⟩
  unfold deleteCtrl
  split
  · exact ⟨fun h5 => h5⟩
  · exact ((((errorStays_endCommands cntlid).trans (errorStays_of_evolves (htest _) (by decide))).trans (errorStays_onCmd _)).trans
      (hreset _)).trans (errorStays_foldl (fun _ q => errorStays_localDisconnect q) _)

theorem errorStays_bindingLost (c : Context) (say : Bool) : ErrorStays qpn s (bindingLost c say s) := by
  have hdrop : ErrorStays qpn s (dropQueue c.cntlid c.sqid s) :=
    ((errorStays_endQueueCommands ..).trans (errorStays_onCmd _)).trans (errorStays_localDisconnect _)
  unfold bindingLost
  split
  · exact ⟨fun h5 => h5⟩
  · split
    · exact errorStays_deleteCtrl ..
    · split
      · exact ⟨fun h5 => h5⟩
      · dsimp only
        split
        · exact hdrop.trans ⟨fun h5 => h5⟩
        · exact hdrop

/-- The state in which a connection is first in ERROR, told and its peer asked to end it. -/
def errorTold (qpn cause : Nat) (s : State) : State :=
  emit 0x552 0x502 1 (cause * 2 ^ 32 + qpn) ((onCtx qpn (fun c => { c with
    state := 5, sends := [], kept := [], work := [], workSent := 0, resume := [], readsOut := 0, timerGts := 0, rnrWait := false, sampleOn := false
    wRegion := none, wRkey := 0, wVa := 0, wLeft := 0, rxBuf := [], held := 0, unackedPkts := 0 }) s).send (.cmDreq qpn))

theorem connError_eq {cause : Nat} (hindex : (ctxIndex qpn).isSome = true) (h : (ctxOf s qpn).state = 3 ∨ (ctxOf s qpn).state = 2) :
    connError qpn cause s = failChainsOn qpn cause (endStraddles qpn (bindingLost (ctxOf s qpn) true (errorTold qpn cause s))) := by
  unfold connError
  refine if_neg ?_
  rw [← Option.not_isSome, hindex]
  rcases h with h' | h' <;> simp [h']

/-- An error puts a connection in RTR or RTS in ERROR, tells the cause, and asks the peer to end the connection. -/
theorem connError_leaves {cause : Nat} (hindex : (ctxIndex qpn).isSome = true) (h : (ctxOf s qpn).state = 3 ∨ (ctxOf s qpn).state = 2) :
    (ctxOf (connError qpn cause s) qpn).state = 5 ∧ Emitted s (connError qpn cause s) 0x552 1 0x502 (cause * 2 ^ 32 + qpn) ∧
      .cmDreq qpn ∈ (connError qpn cause s).out := by
  have hbinding (c : Context) (v : State) : Evolves _ v (bindingLost c true v) := bindingLost_evolves .refl Sub.rfl
  have hends (v : State) : Evolves _ v (endStraddles qpn v) := endStraddles_evolves .refl Sub.rfl
  have hchains (v : State) : Evolves _ v (failChainsOn qpn cause v) := failChainsOn_evolves .refl Sub.rfl
  have hfive : (ctxOf (errorTold qpn cause s) qpn).state = 5 := congrArg Context.state ((ctxOf_onCtx_ite ..).trans (if_pos rfl))
  rw [connError_eq hindex h]
  refine ⟨(((errorStays_bindingLost _ true).trans (errorStays_of_evolves (hends _) (by decide))).trans
    (ctxSteady_failChainsOn qpn cause).errorStays).stays hfive, ?_, ?_⟩
  · exact (hchains _).emitted_mono (by decide) ((hends _).emitted_mono (by decide) ((hbinding _ _).emitted_mono (by decide)
      (emitted_emit_of _ _ _ _ rfl)))
  · exact (hchains _).sent ((hends _).sent ((hbinding _ _).sent (List.mem_append_right _ (List.mem_singleton.2 rfl))))

end Sys2Proof.Machine
end

section
/-! PROOFS. O34: requests received (R83, R90 to R95). -/

namespace Sys2Proof.Machine

variable {s t u : State} {w : List Part} {qpn : Nat} {p : Pkt}

/-! A request that is received in sequence. -/

theorem ctxOf_onEcn (qpn : Nat) (ecn : Bool) : ∃ sent gts, ctxOf (onEcn qpn ecn s) qpn = { ctxOf s qpn with cnpSent := sent, cnpGts := gts } := by
  have hsent : ctxOf (sendPacket qpn .cnp s) qpn = ctxOf s qpn :=
    ctxOf_of_evolves (sendPacket_evolves .refl Sub.rfl : Evolves _ s (sendPacket qpn .cnp s)) (by decide) qpn
  have hctx (src ev sev data : Nat) (v : State) : ctxOf (emit src ev sev data v) qpn = ctxOf v qpn := rfl
  unfold onEcn
  dsimp only
  split
  · exact ⟨true, s.now, by rw [hctx, ctxOf_onCtx_ite, if_pos rfl, hsent]⟩
  · exact ⟨_, _, rfl⟩

/-- The state in which a request in sequence is run. -/
def requestTook (p : Pkt) (s : State) : State := onCtx p.qpn (fun c => { c with nakSent := false }) (onEcn p.qpn p.ecn s)

theorem ctxOf_requestTook (p : Pkt) (s : State) : ∃ sent gts,
    ctxOf (requestTook p s) p.qpn = { ctxOf s p.qpn with nakSent := false, cnpSent := sent, cnpGts := gts } := by
  obtain ⟨sent, gts, hctx⟩ := ctxOf_onEcn (s := s) p.qpn p.ecn
  exact ⟨sent, gts, by unfold requestTook; rw [ctxOf_onCtx_ite, if_pos rfl, hctx]⟩

theorem requestTook_evolves (p : Pkt) (s : State) : Evolves [.events, .counters, .sampling, .contexts, .out] s (requestTook p s) :=
  onCtx_evolves (onEcn_evolves .refl Sub.rfl) (Sub.of Sub.rfl rfl)

theorem Context.accepts_of_rts {c : Context} (h : c.state = 3) : c.accepts = true := by
  unfold Context.accepts
  rw [h]
  decide

theorem drainCheck_of_not_draining (h : (ctxOf s qpn).state ≠ 4) : drainCheck qpn s = s := by
  unfold drainCheck
  exact if_neg fun hd => h hd.1

/-- A request in sequence on a connection in RTS is run, and a connection in DRAIN is looked at. -/
theorem onRequest_expected {dup run : State → State} (hindex : (ctxIndex p.qpn).isSome = true) (hstate : (ctxOf s p.qpn).state = 3)
    (hpsn : classify (ctxOf s p.qpn) p.psn = .expected) : onRequest p dup run s = drainCheck p.qpn (run (requestTook p s)) := by
  unfold onRequest
  simp only [← Option.not_isSome, hindex, Context.accepts_of_rts hstate, hpsn, Bool.not_true, Bool.false_eq_true, if_false]
  rfl

theorem onRequest_duplicate {dup run : State → State} (hindex : (ctxIndex p.qpn).isSome = true) (hstate : (ctxOf s p.qpn).state = 3)
    (hpsn : classify (ctxOf s p.qpn) p.psn = .duplicate) : onRequest p dup run s = dup (onEcn p.qpn p.ecn s) := by
  unfold onRequest
  simp only [← Option.not_isSome, hindex, Context.accepts_of_rts hstate, hpsn, Bool.not_true, Bool.false_eq_true, if_false]

theorem onRequest_ahead {dup run : State → State} (hindex : (ctxIndex p.qpn).isSome = true) (hstate : (ctxOf s p.qpn).state = 3)
    (hpsn : classify (ctxOf s p.qpn) p.psn = .ahead) : onRequest p dup run s = outOfSequence p.qpn (onEcn p.qpn p.ecn s) := by
  unfold onRequest
  simp only [← Option.not_isSome, hindex, Context.accepts_of_rts hstate, hpsn, Bool.not_true, Bool.false_eq_true, if_false]

theorem onRequest_refused {dup run : State → State} (hindex : (ctxIndex p.qpn).isSome = true) (h : (ctxOf s p.qpn).accepts = false) :
    onRequest p dup run s = refuseRequest p.qpn p.psn s := by
  unfold onRequest
  simp only [← Option.not_isSome, hindex, h, Bool.not_true, Bool.not_false, Bool.false_eq_true, if_false, if_true]

/-! Room for a message (R91). -/

theorem bufferFor_congr {c d : Context} (hqueued : t.cmd.queued = s.cmd.queued) (htable : t.cmd.table = s.cmd.table)
    (hqueues : t.cmd.queues = s.cmd.queues) (hid : d.cntlid = c.cntlid ∧ d.sqid = c.sqid)
    (hrq : d.rqHead = c.rqHead ∧ d.rqTail = c.rqTail ∧ d.migration = c.migration) : bufferFor t d = bufferFor s c := by
  obtain ⟨hcntlid, hsqid⟩ := hid
  obtain ⟨hhead, htail, hmigration⟩ := hrq
  unfold bufferFor rqTailOf freeSlots queueOf entriesWhere
  simp only [hqueued, htable, hqueues, hcntlid, hsqid, hhead, htail, hmigration]

theorem bufferFor_requestTook (p : Pkt) (s : State) :
    bufferFor (requestTook p s) (ctxOf (requestTook p s) p.qpn) = bufferFor s (ctxOf s p.qpn) := by
  obtain ⟨_, _, hctx⟩ := ctxOf_requestTook p s
  have hcommands := (requestTook_evolves p s).same .commands (by decide)
  simp only [Part.Same, Prod.mk.injEq] at hcommands
  obtain ⟨hqueued, htable, _⟩ := hcommands
  rw [hctx]
  exact bufferFor_congr hqueued htable ((requestTook_evolves p s).same .queues (by decide)) ⟨rfl, rfl⟩ ⟨rfl, rfl, rfl⟩

theorem sendRoom_requestTook (p : Pkt) (s : State) (last : Bool) : sendRoom (requestTook p s) p.qpn last = sendRoom s p.qpn last := by
  have hchains := (requestTook_evolves p s).same .chains (by decide)
  simp only [Part.Same, Prod.mk.injEq] at hchains
  unfold sendRoom
  rw [bufferFor_requestTook, hchains.1]

/-! An acknowledgement, and a packet that is received (R90, R92). -/

theorem hbm_of_evolves (h : Evolves w s t) (hw : .hbm ∉ w) : t.xpt.hbm = s.xpt.hbm := h.same .hbm hw

theorem ctxOf_sendAck (qpn : Nat) : ∃ held, ctxOf (sendAck qpn s) qpn = { ctxOf s qpn with unackedPkts := 0, held := held } := by
  have hsent (q : Packet) : ctxOf (sendPacket qpn q s) qpn = ctxOf s qpn :=
    ctxOf_of_evolves (sendPacket_evolves .refl Sub.rfl : Evolves _ s (sendPacket qpn q s)) (by decide) qpn
  unfold sendAck
  dsimp only
  split
  · exact ⟨_, by rw [ctxOf_onCtx_ite, if_pos rfl]⟩
  · exact ⟨_, by rw [ctxOf_onCtx_ite, if_pos rfl, hsent]⟩

theorem packetSent_sendPacket (q : Packet) (hps : s.cmd.ps ≠ 4) : PacketSent (sendPacket qpn q s) qpn q := by
  unfold sendPacket
  rw [if_neg hps]
  exact packetSent_send ..

theorem packetSent_sendAck (hholds : holdsAcks s = false) (hps : s.cmd.ps ≠ 4) :
    PacketSent (sendAck qpn s) qpn (.ack (psnSub (ctxOf s qpn).epsn 1) (ctxOf s qpn).msn) := by
  unfold sendAck
  rw [if_neg (by rw [hholds]; decide)]
  exact packetSent_sendPacket (qpn := qpn) _ hps

theorem holdsAcks_of_evolves (h : Evolves w s t) (hr : .regRed ∉ w) : holdsAcks t = holdsAcks s := by
  have hfld (f : Fld) (i : Nat) (hb : regPart f.base = .regRed) : t.fldI f i = s.fldI f i := h.fldI_eq f i (hb ▸ hr)
  have hrole : role t = role s := hfld F.RED_MODE_ROLE 0 rfl
  have hmode : redMode t = redMode s := hfld F.RED_MODE_MODE 0 rfl
  have hstate : redState t = redState s := hfld F.RED_STAT_STATE 0 rfl
  have hheel : t.fld F.RED_STAT_HEEL = s.fld F.RED_STAT_HEEL := hfld F.RED_STAT_HEEL 0 rfl
  have hpeers (r : Nat) : t.fldI F.RED_PEER_STAT_STATE r = s.fldI F.RED_PEER_STAT_STATE r := hfld F.RED_PEER_STAT_STATE r rfl
  simp only [holdsAcks, recordsRun, groupActive, inGroup, peersInHeel, joiners, hrole, hmode, hstate, hheel, hpeers]

/-- A duplicate is told and acknowledged, and nothing is placed. -/
theorem duplicate_leaves (hholds : holdsAcks s = false) (hps : s.cmd.ps ≠ 4) : Emitted s (duplicate qpn s) 0x552 0 0x503 qpn ∧
    PacketSent (duplicate qpn s) qpn (.ack (psnSub (ctxOf s qpn).epsn 1) (ctxOf s qpn).msn) ∧
    (duplicate qpn s).xpt.hbm = s.xpt.hbm ∧ (ctxOf (duplicate qpn s) qpn).epsn = (ctxOf s qpn).epsn := by
  have hack (v : State) : Evolves _ v (sendAck qpn v) := sendAck_evolves .refl Sub.rfl
  have htold : Evolves _ s (emit 0x552 0x503 0 qpn s) := emit_evolves .refl Sub.rfl
  obtain ⟨_, hctx⟩ := ctxOf_sendAck (qpn := qpn) (s := emit 0x552 0x503 0 qpn s)
  unfold duplicate
  refine ⟨(hack _).emitted_mono (by decide) (emitted_emit_of _ _ _ _ rfl), packetSent_sendAck (qpn := qpn) hholds hps,
    (hbm_of_evolves (hack _) (by decide)).trans (hbm_of_evolves htold (by decide)), ?_⟩
  rw [hctx]
  rfl

/-- A packet received advances the PSN expected, and leaves what the connection gathers. -/
theorem ctxOf_received (qpn : Nat) (ackReq : Bool) : ∃ pkts held, ctxOf (received qpn ackReq s) qpn =
    { ctxOf s qpn with
      epsn := psnAdd (ctxOf s qpn).epsn 1, nakSent := false, unackedPkts := pkts, held := held
      state := if (ctxOf s qpn).state = 2 then 3 else (ctxOf s qpn).state } := by
  unfold received
  dsimp only
  split
  · obtain ⟨held, hctx⟩ := ctxOf_sendAck (qpn := qpn) (s := onCtx qpn (fun c => { c with
      epsn := psnAdd c.epsn 1, nakSent := false, unackedPkts := c.unackedPkts + 1
      state := if c.state = 2 then 3 else c.state }) s)
    exact ⟨_, held, by rw [hctx, ctxOf_onCtx_ite, if_pos rfl]⟩
  · exact ⟨_, _, by rw [ctxOf_onCtx_ite, if_pos rfl]⟩

/-- The end of a message advances the MSN, and takes a buffer where one is used. -/
theorem ctxOf_messageEnds (p : Pkt) (buffer : Bool) : ∃ pkts held, ctxOf (messageEnds p buffer s) p.qpn =
    { ctxOf s p.qpn with
      epsn := psnAdd (ctxOf s p.qpn).epsn 1, nakSent := false, unackedPkts := pkts, held := held
      state := if (ctxOf s p.qpn).state = 2 then 3 else (ctxOf s p.qpn).state
      msn := psnAdd (ctxOf s p.qpn).msn 1, rxBuf := []
      rqHead := if buffer then ((ctxOf s p.qpn).rqHead + 1) % 65536 else (ctxOf s p.qpn).rqHead } := by
  obtain ⟨pkts, held, hctx⟩ := ctxOf_received (qpn := p.qpn) p.ackReq (s := onCtx p.qpn (fun c => { c with
    msn := psnAdd c.msn 1, rxBuf := []
    rqHead := if buffer then (c.rqHead + 1) % 65536 else c.rqHead }) s)
  exact ⟨pkts, held, by unfold messageEnds; rw [hctx, ctxOf_onCtx_ite, if_pos rfl]⟩

/-! The end of a request on a connection in RTS. -/

theorem drainCheck_of_rts (h : (ctxOf s qpn).state = 3) : drainCheck qpn s = s :=
  drainCheck_of_not_draining (by rw [h]; decide)

theorem state_requestTook (p : Pkt) (s : State) : (ctxOf (requestTook p s) p.qpn).state = (ctxOf s p.qpn).state := by
  obtain ⟨_, _, hctx⟩ := ctxOf_requestTook p s
  rw [hctx]

theorem state_messageEnds {buffer : Bool} (h : (ctxOf s p.qpn).state = 3) : (ctxOf (messageEnds p buffer s) p.qpn).state = 3 := by
  obtain ⟨_, _, hctx⟩ := ctxOf_messageEnds (s := s) p buffer
  rw [hctx, h]
  rfl

/-! Sends (R91, R95). -/

theorem onSend_gathers {payload buf : Bytes} {n : Nat} (done : Bytes → State → State) (hroom : sendRoom s p.qpn false = some n)
    (hbuf : (ctxOf s p.qpn).rxBuf = buf) (hfits : (buf ++ payload).length ≤ n) : onSend p false payload done s =
      received p.qpn p.ackReq (onCtx p.qpn (fun c => { c with rxBuf := buf ++ payload }) s) := by
  subst hbuf
  unfold onSend
  simp only [hroom, Nat.not_lt.2 hfits, if_false, Bool.false_eq_true]

theorem onSend_ends {payload buf : Bytes} {n : Nat} (done : Bytes → State → State) (hroom : sendRoom s p.qpn true = some n)
    (hbuf : (ctxOf s p.qpn).rxBuf = buf) (hfits : (buf ++ payload).length ≤ n) : onSend p true payload done s =
      done (buf ++ payload) (messageEnds p true s) := by
  subst hbuf
  unfold onSend
  simp only [hroom, Nat.not_lt.2 hfits, if_false, if_true]

theorem onSend_noRoom {last : Bool} {payload : Bytes} (done : Bytes → State → State) (hroom : sendRoom s p.qpn last = none) :
    onSend p last payload done s = rnr p s := by
  unfold onSend
  simp only [hroom]

theorem sendRoom_last (s : State) (qpn : Nat) : sendRoom s qpn true = bufferFor s (ctxOf s qpn) := by
  unfold sendRoom
  exact if_pos (.inl rfl)

theorem rxBuf_requestTook (p : Pkt) (s : State) : (ctxOf (requestTook p s) p.qpn).rxBuf = (ctxOf s p.qpn).rxBuf := by
  obtain ⟨_, _, hctx⟩ := ctxOf_requestTook p s
  rw [hctx]

theorem ctxOf_sendVisible (whole : Bytes) (q : Nat) : ctxOf (sendVisible p whole s) q = ctxOf s q := by
  unfold sendVisible
  split <;> rfl

theorem received_sendVisible (whole : Bytes) : (sendVisible p whole s).fix.received =
    s.fix.received ++ if (ctxOf s p.qpn).migration then [(p.qpn, whole)] else [] := by
  unfold sendVisible
  split
  · rfl
  · exact (List.append_nil _).symm

theorem received_of_evolves (h : Evolves w s t) (hw : .jobs ∉ w) : t.fix.received = s.fix.received := by
  have hsame := h.same .jobs hw
  simp only [Part.Same, Prod.mk.injEq] at hsame
  exact hsame.2

/-- A receiver-not-ready NAK is sent, and the connection stands. -/
theorem rnr_leaves (hps : s.cmd.ps ≠ 4) : PacketSent (rnr p s) p.qpn (.nakRnr p.psn (s.fld F.XPT_RETRY_CFG_RNR_TIMER)) ∧
    ctxOf (rnr p s) p.qpn = ctxOf s p.qpn := by
  have hsent (q : Packet) (v : State) : Evolves _ v (sendPacket p.qpn q v) := sendPacket_evolves .refl Sub.rfl
  exact ⟨packetSent_sendPacket _ hps, ctxOf_of_evolves (hsent _ _) (by decide) _⟩

theorem ps_requestTook (p : Pkt) (s : State) : (requestTook p s).cmd.ps = s.cmd.ps :=
  (powerState_of_evolves (requestTook_evolves p s) (by decide)).1

theorem now_requestTook (p : Pkt) (s : State) : (requestTook p s).now = s.now := (requestTook_evolves p s).now_eq (by decide)

theorem hbm_requestTook (p : Pkt) (s : State) : (requestTook p s).xpt.hbm = s.xpt.hbm := (requestTook_evolves p s).same .hbm (by decide)

theorem regions_of_evolves (h : Evolves w s t) (hw : .regions ∉ w) : t.xpt.regions = s.xpt.regions := h.same .regions hw

theorem regions_requestTook (p : Pkt) (s : State) : (requestTook p s).xpt.regions = s.xpt.regions :=
  (requestTook_evolves p s).same .regions (by decide)

/-! A Send with Immediate (R116 to R118). -/

theorem matching_requestTook (imm : Nat) : matching (requestTook p s) p.qpn imm = matching s p.qpn imm ∧
    (requestTook p s).xpt.triggers = s.xpt.triggers := by
  have hchains := (requestTook_evolves p s).same .chains (by decide)
  simp only [Part.Same, Prod.mk.injEq] at hchains
  unfold matching
  rw [hchains.1]
  exact ⟨rfl, rfl⟩

/-- The trigger has its message, and is told. -/
def triggerFired (e : Nat) (whole : Bytes) (s : State) : State :=
  emit 0x555 0x508 0 e (onTrigger e (fun t => { t with state := 2 }) (hbmWrite (s.xpt.triggers.at e).mbuf whole s))

theorem trigger_triggerFired (e : Nat) (whole : Bytes) :
    (triggerFired e whole s).xpt.triggers.at e = { s.xpt.triggers.at e with state := 2 } := by
  rw [show (triggerFired e whole s).xpt.triggers = s.xpt.triggers.upd e fun t => { t with state := 2 } from rfl, Tab.at_upd, if_pos rfl]

/-- A chain of at least one request waits or runs: nothing else has changed. -/
theorem fire_waits {e : Nat} (whole : Bytes) (hhead : (s.xpt.triggers.at e).head ≠ 0xFFFFFFFF) :
    (fire e whole s).xpt.triggers = (triggerFired e whole s).xpt.triggers ∧ (fire e whole s).xpt.hbm = (triggerFired e whole s).xpt.hbm ∧
      ∀ q, ctxOf (fire e whole s) q = ctxOf s q := by
  have hfired : ((triggerFired e whole s).xpt.triggers.at e).head ≠ 0xFFFFFFFF := by rw [trigger_triggerFired]; exact hhead
  have hstart : startChain e (triggerFired e whole s) = onChain e (fun _ => { (default : Chain) with
      running := true, next := some ((triggerFired e whole s).xpt.triggers.at e).head }) (triggerFired e whole s) := by
    have hchain := chainOf_onChain e (fun _ => { (default : Chain) with
      running := true, next := some ((triggerFired e whole s).xpt.triggers.at e).head }) (triggerFired e whole s)
    unfold startChain
    dsimp only
    rw [if_neg hfired]
    unfold endChain
    rw [hchain]
    rfl
  unfold fire
  dsimp only
  split
  · exact ⟨(congrArg (fun v : State => v.xpt.triggers) hstart).trans rfl, (congrArg (fun v : State => v.xpt.hbm) hstart).trans rfl,
      fun q => (congrArg (fun v : State => ctxOf v q) hstart).trans rfl⟩
  · exact ⟨rfl, rfl, fun _ => rfl⟩

/-- The trigger that fires is told. -/
theorem fire_tells (e : Nat) (whole : Bytes) : Emitted s (fire e whole s) 0x555 0 0x508 e := by
  have htold : Emitted s (triggerFired e whole s) 0x555 0 0x508 e := emitted_emit_of _ _ _ _ rfl
  have hstart (v : State) : Evolves _ v (startChain e v) := startChain_evolves .refl Sub.rfl
  unfold fire
  dsimp only
  split
  · exact (hstart _).emitted_mono (by decide) htold
  · exact htold

/-- A Send with Immediate that fires nothing is told and counted. -/
def immMissed (qpn : Nat) (s : State) : State := (emit 0x555 0x509 1 qpn s).bump F.XPT_TRIG_STAT_MISSES

theorem immMissed_leaves (qpn : Nat) : ctxOf (immMissed qpn s) p.qpn = ctxOf s p.qpn ∧ (immMissed qpn s).cmd.ps = s.cmd.ps ∧
    (immMissed qpn s).fld F.XPT_RETRY_CFG_RNR_TIMER = s.fld F.XPT_RETRY_CFG_RNR_TIMER ∧
    (immMissed qpn s).fld F.XPT_TRIG_STAT_MISSES = min F.XPT_TRIG_STAT_MISSES.max (s.fld F.XPT_TRIG_STAT_MISSES + 1) ∧
    Emitted s (immMissed qpn s) 0x555 1 0x509 qpn :=
  ⟨rfl, rfl, fldI_setFldI_other (s := emit 0x555 0x509 1 qpn s) F.XPT_TRIG_STAT_MISSES F.XPT_RETRY_CFG_RNR_TIMER 0 0 _ (by decide),
    fld_bump_same (s := emit 0x555 0x509 1 qpn s) F.XPT_TRIG_STAT_MISSES (by decide) (by decide), emitted_emit_of _ _ _ _ rfl⟩

/-- What a Send with Immediate in sequence does. -/
def sendImmRun (p : Pkt) (imm : Nat) (payload : Bytes) (s : State) : State :=
  match matching s p.qpn imm with
  | some e =>
    if (s.xpt.triggers.at e).mbufLen < ((ctxOf s p.qpn).rxBuf ++ payload).length then refuseRequest p.qpn p.psn s
    else fire e ((ctxOf s p.qpn).rxBuf ++ payload) (messageEnds p false s)
  | none =>
    if (ctxOf s p.qpn).trigOnly then rnr p (immMissed p.qpn s)
    else onSend p true payload (sendVisible p) (immMissed p.qpn s)

theorem exec_sendImm (p : Pkt) (imm : Nat) (payload : Bytes) (s : State) : exec (.sendWithImmediateReceived p imm payload) s =
    .next (onRequest p (duplicate p.qpn) (sendImmRun p imm payload) s) := rfl

theorem sendImm_fires {imm e : Nat} {payload buf : Bytes} (hmatch : matching s p.qpn imm = some e)
    (hbuf : (ctxOf s p.qpn).rxBuf = buf) (hfits : (buf ++ payload).length ≤ (s.xpt.triggers.at e).mbufLen) :
    sendImmRun p imm payload s = fire e (buf ++ payload) (messageEnds p false s) := by
  subst hbuf
  unfold sendImmRun
  simp only [hmatch, Nat.not_lt.2 hfits, if_false]

theorem sendImm_misses {imm : Nat} {payload : Bytes} (hmatch : matching s p.qpn imm = none) (htrig : (ctxOf s p.qpn).trigOnly = true) :
    sendImmRun p imm payload s = rnr p (immMissed p.qpn s) := by
  unfold sendImmRun
  simp only [hmatch, htrig, if_true]

/-! An RDMA Write (R93). -/

/-- The connection has the region of the Write, and the region its user. -/
def writeOpened (qpn : Nat) (r : Reth) (s : State) : State :=
  onRegion (regionIndex r.rkey) (fun x => { x with users := qpn :: x.users })
    (onCtx qpn (fun c => { c with wRegion := some (regionIndex r.rkey), wRkey := r.rkey, wVa := r.va, wLeft := r.len }) s)

theorem regionCheck_congr (h : t.xpt.regions = s.xpt.regions) (rkey va len bit tenant : Nat) :
    regionCheck t rkey va len bit tenant = regionCheck s rkey va len bit tenant := by
  unfold regionCheck
  rw [h]

theorem regionCheck_requestTook (p : Pkt) (s : State) (rkey va len bit : Nat) :
    regionCheck (requestTook p s) rkey va len bit (ctxOf (requestTook p s) p.qpn).tenant =
      regionCheck s rkey va len bit (ctxOf s p.qpn).tenant := by
  obtain ⟨_, _, hctx⟩ := ctxOf_requestTook p s
  rw [regionCheck_congr (regions_requestTook p s), hctx]

theorem openWrite_opens {r : Reth} {data : Bytes} (hcheck : regionCheck s r.rkey r.va r.len 0 (ctxOf s p.qpn).tenant = none)
    (hlen : data.length ≤ r.len) : openWrite p (some r) data s = .ok (writeOpened p.qpn r s) := by
  unfold openWrite
  simp only [hcheck, Nat.not_lt.2 hlen, if_false]
  rfl

theorem openWrite_refuses {r : Reth} {data : Bytes} {reason : Nat}
    (hcheck : regionCheck s r.rkey r.va r.len 0 (ctxOf s p.qpn).tenant = some reason) :
    openWrite p (some r) data s = .error (accessNak p reason s) := by
  unfold openWrite
  simp only [hcheck]

theorem ctxOf_writeOpened (qpn : Nat) (r : Reth) : ctxOf (writeOpened qpn r s) qpn =
    { ctxOf s qpn with wRegion := some (regionIndex r.rkey), wRkey := r.rkey, wVa := r.va, wLeft := r.len } :=
  (ctxOf_onCtx_ite qpn qpn (fun c => { c with wRegion := some (regionIndex r.rkey), wRkey := r.rkey, wVa := r.va, wLeft := r.len }) s).trans
    (if_pos rfl)

/-- The bytes of a Write that is opened are placed at its address. -/
theorem placeWrite_opened (r : Reth) (data : Bytes) :
    (placeWrite p data (writeOpened p.qpn r s)).xpt.hbm = (hbmWrite r.va data s).xpt.hbm ∧
    ctxOf (placeWrite p data (writeOpened p.qpn r s)) p.qpn = { ctxOf s p.qpn with
      wRegion := some (regionIndex r.rkey), wRkey := r.rkey, wVa := r.va + data.length, wLeft := r.len - data.length } ∧
    p.qpn ∈ ((placeWrite p data (writeOpened p.qpn r s)).xpt.regions.at (regionIndex r.rkey)).users := by
  have hctx := ctxOf_writeOpened (s := s) p.qpn r
  have hplace (va : Nat) (v : State) : ctxOf (hbmWrite va data v) p.qpn = ctxOf v p.qpn := rfl
  unfold placeWrite
  dsimp only
  refine ⟨?_, ?_, ?_⟩
  · rw [hctx]
    exact hbm_hbmWrite_congr _ _ rfl
  · rw [ctxOf_onCtx_ite, if_pos rfl, hplace, hctx]
  · rw [show ∀ (f : Context → Context) (va : Nat), (onCtx p.qpn f (hbmWrite va data (writeOpened p.qpn r s))).xpt.regions =
      s.xpt.regions.upd (regionIndex r.rkey) fun x => { x with users := p.qpn :: x.users } from fun _ _ => rfl, Tab.at_upd, if_pos rfl]
    exact List.mem_cons_self ..

/-- The end of a Write forgets its region, and leaves the rest of the connection and the memory. -/
theorem writeEnds_ends {i : Nat} (h : (ctxOf s qpn).wRegion = some i) :
    ctxOf (writeEnds qpn s) qpn = { ctxOf s qpn with wRegion := none, wRkey := 0, wVa := 0, wLeft := 0 } ∧
      (writeEnds qpn s).xpt.hbm = s.xpt.hbm := by
  have hend (v : State) : Evolves _ v (endStraddle i qpn v) := endStraddle_evolves .refl Sub.rfl
  unfold writeEnds
  simp only [h]
  refine ⟨?_, (hend _).same .hbm (by decide)⟩
  rw [ctxOf_of_evolves (hend _) (by decide), ctxOf_onCtx_ite, if_pos rfl]

/-- A Write of one packet to a connection in RTS is placed, and its message ends. -/
theorem write_ends {r : Reth} {data : Bytes} (buffer : Bool) (hstate : (ctxOf s p.qpn).state = 3) :
    let t := writeEnds p.qpn (messageEnds p buffer (placeWrite p data (writeOpened p.qpn r s)))
    t.xpt.hbm = (hbmWrite r.va data s).xpt.hbm ∧ (ctxOf t p.qpn).state = 3 ∧ (ctxOf t p.qpn).epsn = psnAdd (ctxOf s p.qpn).epsn 1 ∧
      (ctxOf t p.qpn).msn = psnAdd (ctxOf s p.qpn).msn 1 ∧ (ctxOf t p.qpn).wRegion = none ∧
      (ctxOf t p.qpn).rqHead = if buffer then ((ctxOf s p.qpn).rqHead + 1) % 65536 else (ctxOf s p.qpn).rqHead := by
  obtain ⟨hhbm, hctx, _⟩ := placeWrite_opened (s := s) (p := p) r data
  obtain ⟨_, _, hend⟩ := ctxOf_messageEnds (s := placeWrite p data (writeOpened p.qpn r s)) p buffer
  have hmessage (v : State) : Evolves _ v (messageEnds p buffer v) := messageEnds_evolves .refl Sub.rfl
  rw [hctx, hstate] at hend
  obtain ⟨hctx', hhbm'⟩ := writeEnds_ends (congrArg Context.wRegion hend)
  dsimp only
  rw [hctx', hhbm', hend]
  exact ⟨(hbm_of_evolves (hmessage _) (by decide)).trans hhbm, rfl, rfl, rfl, rfl, rfl⟩

/-- What an RDMA Write in sequence does. -/
def writeRun (p : Pkt) (reth : Option Reth) (last : Bool) (data : Bytes) (s : State) : State :=
  match openWrite p reth data s with
  | .error t => t
  | .ok s => if last then writeEnds p.qpn (messageEnds p false (placeWrite p data s)) else received p.qpn p.ackReq (placeWrite p data s)

theorem exec_rdmaWrite (p : Pkt) (reth : Option Reth) (last : Bool) (data : Bytes) (s : State) :
    exec (.rdmaWriteReceived p reth last data) s = .next (onRequest p (duplicate p.qpn) (writeRun p reth last data) s) := rfl

/-- What an RDMA Write with Immediate in sequence does. -/
def writeImmRun (p : Pkt) (reth : Option Reth) (imm : Nat) (data : Bytes) (s : State) : State :=
  if (bufferFor s (ctxOf s p.qpn)).isNone then rnr p s
  else
    match openWrite p reth data s with
    | .error t => t
    | .ok s => sendVisible p (leBytes 4 imm) (writeEnds p.qpn (messageEnds p true (placeWrite p data s)))

theorem exec_rdmaWriteImm (p : Pkt) (reth : Option Reth) (imm : Nat) (data : Bytes) (s : State) :
    exec (.rdmaWriteWithImmediateReceived p reth imm data) s =
      .next (onRequest p (duplicate p.qpn) (writeImmRun p reth imm data) s) := rfl

section
variable {r : Reth} {data : Bytes}

theorem writeRun_last (hcheck : regionCheck s r.rkey r.va r.len 0 (ctxOf s p.qpn).tenant = none) (hlen : data.length ≤ r.len) :
    writeRun p (some r) true data s = writeEnds p.qpn (messageEnds p false (placeWrite p data (writeOpened p.qpn r s))) := by
  unfold writeRun
  rw [openWrite_opens hcheck hlen]
  rfl

theorem writeRun_more (hcheck : regionCheck s r.rkey r.va r.len 0 (ctxOf s p.qpn).tenant = none) (hlen : data.length ≤ r.len) :
    writeRun p (some r) false data s = received p.qpn p.ackReq (placeWrite p data (writeOpened p.qpn r s)) := by
  unfold writeRun
  rw [openWrite_opens hcheck hlen]
  rfl

theorem writeRun_refused {reason : Nat} {last : Bool} (hcheck : regionCheck s r.rkey r.va r.len 0 (ctxOf s p.qpn).tenant = some reason) :
    writeRun p (some r) last data s = accessNak p reason s := by
  unfold writeRun
  rw [openWrite_refuses hcheck]

theorem writeImm_runs {n : Nat} (imm : Nat) (hroom : bufferFor s (ctxOf s p.qpn) = some n)
    (hcheck : regionCheck s r.rkey r.va r.len 0 (ctxOf s p.qpn).tenant = none) (hlen : data.length ≤ r.len) :
    writeImmRun p (some r) imm data s = sendVisible p (leBytes 4 imm) (writeEnds p.qpn (messageEnds p true (placeWrite p data
      (writeOpened p.qpn r s)))) := by
  unfold writeImmRun
  rw [hroom, openWrite_opens hcheck hlen]
  rfl

end

/-! A refusal that ends the connection (R83, R94). -/

/-- An access that is refused is answered and told, and the connection is in ERROR. -/
theorem accessNak_leaves (reason : Nat) (hindex : (ctxIndex p.qpn).isSome = true) (hstate : (ctxOf s p.qpn).state = 3)
    (hps : s.cmd.ps ≠ 4) : PacketSent (accessNak p reason s) p.qpn (.nakAccess p.psn) ∧
      Emitted s (accessNak p reason s) 0x554 1 0x505 (reason * 2 ^ 32 + p.qpn) ∧
      Emitted s (accessNak p reason s) 0x552 1 0x502 (4 * 2 ^ 32 + p.qpn) ∧ (accessNak p reason s).xpt.hbm = s.xpt.hbm := by
  have hsend : Evolves _ s (sendPacket p.qpn (.nakAccess p.psn) s) := sendPacket_evolves .refl Sub.rfl
  have hnow := hsend.now_eq (by decide)
  have hctx := ctxOf_of_evolves hsend (by decide) p.qpn
  have herror (v : State) : Evolves _ v (connError p.qpn 4 v) := connError_evolves .refl Sub.rfl
  have htold (v : State) : Evolves _ v (emit 0x554 0x505 1 (reason * 2 ^ 32 + p.qpn) v) := emit_evolves .refl Sub.rfl
  obtain ⟨_, hsaid, _⟩ := connError_leaves (cause := 4)
    (s := emit 0x554 0x505 1 (reason * 2 ^ 32 + p.qpn) (sendPacket p.qpn (.nakAccess p.psn) s)) hindex
    (.inl ((congrArg Context.state hctx).trans hstate))
  unfold accessNak
  exact ⟨packetSent_mono (herror _) (packetSent_mono (htold _) (packetSent_sendPacket _ hps)),
    (herror _).emitted_mono (by decide) (emitted_emit_of _ _ _ _ hnow), (emitted_now hnow).1 hsaid,
    (hbm_of_evolves (herror _) (by decide)).trans ((hbm_of_evolves (htold _) (by decide)).trans (hbm_of_evolves hsend (by decide)))⟩

/-! A Read (R93). -/

theorem CtxSteady.epsn (h : CtxSteady s t) (q : Nat) : (ctxOf t q).epsn = (ctxOf s q).epsn :=
  (congrArg Context.epsn (h.steady q) :)

theorem CtxSteady.msn (h : CtxSteady s t) (q : Nat) : (ctxOf t q).msn = (ctxOf s q).msn :=
  (congrArg Context.msn (h.steady q) :)

/-- The answer to a Read leaves at once where nothing is posted before it and it is not paced. -/
theorem packetSent_sendReadResponse {psn : Nat} {data : Bytes} (hwork : (ctxOf s qpn).work = [] ∧ (ctxOf s qpn).workSent = 0)
    (hpace : s.fld F.XPT_CFG_CC_EN = 0 ∨ (ctxOf s qpn).class0 = true) (hps : s.cmd.ps ≠ 4) :
    PacketSent (sendReadResponse qpn psn data s) qpn (.readResponse psn data) := by
  obtain ⟨hnone, hsent⟩ := hwork
  have hctx : ctxOf (posted qpn ⟨.readResponse psn data, data.length, 0, true, false⟩ s) qpn =
      { ctxOf s qpn with work := [⟨.readResponse psn data, data.length, 0, true, false⟩] } := by
    rw [ctxOf_onCtx, hnone, List.nil_append]
  have hfree : isPaced (posted qpn ⟨.readResponse psn data, data.length, 0, true, false⟩ s) (ctxOf s qpn) true = false := by
    have hfld : (posted qpn ⟨.readResponse psn data, data.length, 0, true, false⟩ s).fld F.XPT_CFG_CC_EN = s.fld F.XPT_CFG_CC_EN := rfl
    unfold isPaced
    rw [hfld]
    rcases hpace with hen | hclass
    · rw [hen]; simp
    · rw [hclass]; rfl
  have hmay : mayLeave (posted qpn ⟨.readResponse psn data, data.length, 0, true, false⟩ s) qpn
      ⟨.readResponse psn data, data.length, 0, true, false⟩ ≠ 0 := by
    have hsome : (payloadLens (ctxOf s qpn).pmtu data.length).length ≠ 0 := fun hnil =>
      payloadLens_ne_nil _ _ (List.eq_nil_of_length_eq_zero hnil)
    unfold mayLeave
    simp only [hctx, hsent, Bool.false_and, Bool.false_eq_true, if_false, List.drop_zero]
    exact fun hz => hsome ((if_neg fun hp => Bool.false_ne_true (hfree.symm.trans hp)).symm.trans hz)
  have hstep : sendReadResponse qpn psn data s = pumpMany 1 qpn (sendPart qpn
      (mayLeave (posted qpn ⟨.readResponse psn data, data.length, 0, true, false⟩ s) qpn
        ⟨.readResponse psn data, data.length, 0, true, false⟩)
      (posted qpn ⟨.readResponse psn data, data.length, 0, true, false⟩ s)) := by
    have hlen : (ctxOf (posted qpn ⟨.readResponse psn data, data.length, 0, true, false⟩ s) qpn).work.length + 1 = 1 + 1 := by
      rw [hctx]; rfl
    unfold sendReadResponse postWork pump
    rw [hlen, pumpMany]
    simp only [hctx, hmay, hsent, if_false, if_true]
    rfl
  rw [hstep]
  exact packetSent_mono (pumpMany_evolves .refl Sub.rfl) (packetSent_sendPart
    (x := ⟨.readResponse psn data, data.length, 0, true, false⟩) hps (by rw [hctx]) (by rw [hctx]; exact hsent))

theorem hbmRead_congr (h : t.xpt.hbm = s.xpt.hbm) (base len : Nat) : hbmRead t base len = hbmRead s base len := by
  unfold hbmRead hbmAt
  rw [h]

/-- A region whose invalidation is done. -/
def Region.invalidated (r : Region) : Region :=
  { r with state := 0, key := (r.key + 1) % 256, straddle := 0, byCtrl := false, forced := false }

theorem regionOf_onRegion (i : Nat) (f : Region → Region) (s : State) : (onRegion i f s).xpt.regions.at i = f (s.xpt.regions.at i) := by
  rw [show (onRegion i f s).xpt.regions = s.xpt.regions.upd i f from rfl, Tab.at_upd, if_pos rfl]

/-- An invalidation of a region that nobody uses is done, and told. -/
theorem finishInvalidation_done {i : Nat} (h : (s.xpt.regions.at i).state = 2) (husers : (s.xpt.regions.at i).users = []) :
    (finishInvalidation i s).xpt.regions.at i = (s.xpt.regions.at i).invalidated ∧
      Emitted s (finishInvalidation i s) 0x554 0 0x507
        (b2n (s.xpt.regions.at i).forced * 2 ^ 35 + i * 256 + (s.xpt.regions.at i).key) := by
  have hregion : (onRegion i Region.invalidated s).xpt.regions.at i = (s.xpt.regions.at i).invalidated := regionOf_onRegion ..
  have hemit (src ev sev data : Nat) (v : State) : (emit src ev sev data v).xpt = v.xpt := rfl
  unfold finishInvalidation
  dsimp only
  rw [if_pos ⟨h, husers⟩]
  refine ⟨?_, emitted_emit_of _ _ _ _ ?_⟩
  · rw [hemit]
    split
    · exact hregion
    · exact hregion
  · split <;> rfl

theorem finishInvalidation_waits {i : Nat} (h : (s.xpt.regions.at i).users ≠ []) : finishInvalidation i s = s := by
  unfold finishInvalidation
  exact if_neg fun hd => h hd.2

/-- What an invalidation under way leaves is never a VALID region. -/
theorem region_finishInvalidation {i : Nat} (h : (s.xpt.regions.at i).state = 2) :
    ((finishInvalidation i s).xpt.regions.at i).state ≠ 1 := by
  by_cases husers : (s.xpt.regions.at i).users = []
  · rw [(finishInvalidation_done h husers).1]
    exact Nat.zero_ne_one
  · rw [finishInvalidation_waits husers, h]
    decide

/-- An invalidation by a packet is told, and leaves the region not VALID and the contexts as they were. -/
theorem startInvalidation_leaves (i : Nat) : ((startInvalidation i false s).xpt.regions.at i).state ≠ 1 ∧
    Emitted s (startInvalidation i false s) 0x554 0 0x506 (i * 256 + (s.xpt.regions.at i).key) ∧
      ∀ q, ctxOf (startInvalidation i false s) q = ctxOf s q := by
  have hfinish (v : State) : Evolves _ v (finishInvalidation i v) := finishInvalidation_evolves .refl Sub.rfl
  have hstart : Evolves _ s (startInvalidation i false s) := startInvalidation_evolves .refl Sub.rfl
  have htwo (f : Region → Region) (data : Nat) (h : (f (s.xpt.regions.at i)).state = 2) :
      ((emit 0x554 0x506 0 data (onRegion i f s)).xpt.regions.at i).state = 2 := (congrArg Region.state (regionOf_onRegion i f s)).trans h
  refine ⟨?_, ?_, ctxOf_of_evolves hstart (by decide)⟩
  · exact region_finishInvalidation (htwo (fun r => { r with
      state := 2, applyGts := s.now, straddle := (s.xpt.regions.at i).users.length, byCtrl := false }) _ rfl)
  · exact (hfinish _).emitted_mono (by decide) (emitted_emit_of _ _ _ _ rfl)

/-- What a Send with Invalidate in sequence does. -/
def sendInvalidateRun (p : Pkt) (key : Nat) (payload : Bytes) (s : State) : State :=
  let r := s.xpt.regions.at (regionIndex key)
  if 65536 ≤ regionIndex key ∨ r.state ≠ 1 ∨ r.key ≠ key % 256 then accessNak p (if r.state = 2 then 2 else 1) s
  else if !bitAt r.access 2 then accessNak p 4 s
  else onSend p true payload (fun whole s => startInvalidation (regionIndex key) false (sendVisible p whole s)) s

theorem exec_sendInvalidate (p : Pkt) (key : Nat) (payload : Bytes) (s : State) : exec (.sendWithInvalidateReceived p key payload) s =
    .next (onRequest p (duplicate p.qpn) (sendInvalidateRun p key payload) s) := rfl

theorem sendInvalidate_ends {key n : Nat} {payload buf : Bytes} (hkey : regionIndex key < 65536)
    (hregion : (s.xpt.regions.at (regionIndex key)).state = 1 ∧ (s.xpt.regions.at (regionIndex key)).key = key % 256 ∧
      bitAt (s.xpt.regions.at (regionIndex key)).access 2 = true)
    (hroom : sendRoom s p.qpn true = some n) (hbuf : (ctxOf s p.qpn).rxBuf = buf) (hfits : (buf ++ payload).length ≤ n) :
    sendInvalidateRun p key payload s =
      startInvalidation (regionIndex key) false (sendVisible p (buf ++ payload) (messageEnds p true s)) := by
  obtain ⟨hvalid, hkeyed, haccess⟩ := hregion
  unfold sendInvalidateRun
  simp only [hvalid, hkeyed, haccess, Nat.not_le.2 hkey, ne_eq, not_true_eq_false, or_self, Bool.not_true, Bool.false_eq_true, if_false]
  exact onSend_ends _ hroom hbuf hfits

/-- What a Read Request in sequence does. -/
def readRun (p : Pkt) (r : Reth) (s : State) : State :=
  match regionCheck s r.rkey r.va r.len 1 (ctxOf s p.qpn).tenant with
  | some reason => accessNak p reason s
  | none =>
    let n := readPackets s p.qpn r.len
    let s := sendReadResponse p.qpn p.psn (hbmRead s r.va r.len) s
    let s := onRegion (regionIndex r.rkey) (fun x => { x with users := readUser p.qpn (lastPsn p.psn n) :: x.users }) s
    let s := onCtx p.qpn (fun c => { c with
      readRing := keepLast 16 (c.readRing ++ [(p.psn, n, r.rkey, r.va, r.len)])
      epsn := psnAdd c.epsn (n - 1), msn := psnAdd c.msn 1 }) s
    received p.qpn p.ackReq s

/-- A Read that the connection still holds is answered from where it asks. -/
def readFrom (p : Pkt) (s : State) : State :=
  let c := ctxOf s p.qpn
  match c.readRing.find? fun e => decide (psnSub p.psn e.1 < e.2.1) with
  | none => refuseRequest p.qpn p.psn s
  | some e =>
    let skip := psnSub p.psn e.1 * mtuBytes c.pmtu
    let len := e.2.2.2.2 - skip
    match regionCheck s e.2.2.1 (e.2.2.2.1 + skip) len 1 c.tenant with
    | some reason => accessNak p reason s
    | none => sendReadResponse p.qpn p.psn (hbmRead s (e.2.2.2.1 + skip) len) s

/-- The region has the Read for a user, the connection's ring the Read, and its message ends. -/
def readNoted (p : Pkt) (r : Reth) (n : Nat) (s : State) : State :=
  onCtx p.qpn (fun c => { c with
    readRing := keepLast 16 (c.readRing ++ [(p.psn, n, r.rkey, r.va, r.len)])
    epsn := psnAdd c.epsn (n - 1), msn := psnAdd c.msn 1 })
    (onRegion (regionIndex r.rkey) (fun x => { x with users := readUser p.qpn (lastPsn p.psn n) :: x.users }) s)

theorem ctxOf_readNoted (p : Pkt) (r : Reth) (n : Nat) (s : State) : ctxOf (readNoted p r n s) p.qpn = { ctxOf s p.qpn with
    readRing := keepLast 16 ((ctxOf s p.qpn).readRing ++ [(p.psn, n, r.rkey, r.va, r.len)])
    epsn := psnAdd (ctxOf s p.qpn).epsn (n - 1), msn := psnAdd (ctxOf s p.qpn).msn 1 } := by
  unfold readNoted
  rw [ctxOf_onCtx_ite, if_pos rfl]
  rfl

/-- What a duplicate of a Read Request does. -/
def readAgain (p : Pkt) (s : State) : State := readFrom p (emit 0x552 0x503 0 p.qpn s)

theorem exec_rdmaReadRequest (p : Pkt) (r : Reth) (s : State) : exec (.rdmaReadRequestReceived p r) s =
    .next (onRequest p (readAgain p) (readRun p r) s) := rfl

/-- A Read that passes its check is answered, and its message ends. -/
theorem readRun_answers {r : Reth} (hcheck : regionCheck s r.rkey r.va r.len 1 (ctxOf s p.qpn).tenant = none)
    (hstate : (ctxOf s p.qpn).state = 3) (hwork : (ctxOf s p.qpn).work = [] ∧ (ctxOf s p.qpn).workSent = 0)
    (hpace : s.fld F.XPT_CFG_CC_EN = 0 ∨ (ctxOf s p.qpn).class0 = true) (hps : s.cmd.ps ≠ 4) :
    PacketSent (readRun p r s) p.qpn (.readResponse p.psn (hbmRead s r.va r.len)) ∧ (ctxOf (readRun p r s) p.qpn).state = 3 ∧
      (ctxOf (readRun p r s) p.qpn).msn = psnAdd (ctxOf s p.qpn).msn 1 ∧
      (ctxOf (readRun p r s) p.qpn).epsn = psnAdd (psnAdd (ctxOf s p.qpn).epsn (packetsOf (ctxOf s p.qpn).pmtu r.len - 1)) 1 ∧
      (readRun p r s).xpt.hbm = s.xpt.hbm := by
  have hsteady : CtxSteady s (sendReadResponse p.qpn p.psn (hbmRead s r.va r.len) s) := ctxSteady_postWork ..
  have hsent := packetSent_sendReadResponse (psn := p.psn) (data := hbmRead s r.va r.len) hwork hpace hps
  have hread : Evolves _ s (sendReadResponse p.qpn p.psn (hbmRead s r.va r.len) s) := sendReadResponse_evolves .refl Sub.rfl
  have hrec (v : State) : Evolves _ v (received p.qpn p.ackReq v) := received_evolves .refl Sub.rfl
  have hhbm := hbm_of_evolves hread (by decide)
  have hrun : readRun p r s = received p.qpn p.ackReq (readNoted p r (readPackets s p.qpn r.len)
      (sendReadResponse p.qpn p.psn (hbmRead s r.va r.len) s)) := by
    unfold readRun
    simp only [hcheck]
    rfl
  obtain ⟨_, _, hctx⟩ := ctxOf_received (qpn := p.qpn) p.ackReq (s := readNoted p r (readPackets s p.qpn r.len)
    (sendReadResponse p.qpn p.psn (hbmRead s r.va r.len) s))
  generalize sendReadResponse p.qpn p.psn (hbmRead s r.va r.len) s = v at *
  rw [ctxOf_readNoted] at hctx
  have hepsn : (ctxOf v p.qpn).epsn = (ctxOf s p.qpn).epsn := hsteady.epsn p.qpn
  have hmsn : (ctxOf v p.qpn).msn = (ctxOf s p.qpn).msn := hsteady.msn p.qpn
  have hrts : (ctxOf v p.qpn).state = 3 := (hsteady.state p.qpn).trans hstate
  rw [hrun, hctx]
  refine ⟨packetSent_mono (hrec _) hsent, ?_, ?_, ?_, (hbm_of_evolves (hrec _) (by decide)).trans hhbm⟩
  · dsimp only
    rw [hrts]
    rfl
  · exact congrArg (psnAdd · 1) hmsn
  · dsimp only
    rw [hepsn]
    rfl

theorem readFrom_finds {psn n rkey va len : Nat} (hring : (ctxOf s p.qpn).readRing = [(psn, n, rkey, va, len)])
    (hin : psnSub p.psn psn < n)
    (hcheck : regionCheck s rkey (va + psnSub p.psn psn * mtuBytes (ctxOf s p.qpn).pmtu)
      (len - psnSub p.psn psn * mtuBytes (ctxOf s p.qpn).pmtu) 1 (ctxOf s p.qpn).tenant = none) :
    readFrom p s = sendReadResponse p.qpn p.psn (hbmRead s (va + psnSub p.psn psn * mtuBytes (ctxOf s p.qpn).pmtu)
      (len - psnSub p.psn psn * mtuBytes (ctxOf s p.qpn).pmtu)) s := by
  have hfind : (ctxOf s p.qpn).readRing.find? (fun e => decide (psnSub p.psn e.1 < e.2.1)) = some (psn, n, rkey, va, len) := by
    rw [hring]
    exact List.find?_cons_of_pos (decide_eq_true hin)
  unfold readFrom
  dsimp only
  rw [hfind]
  dsimp only
  rw [hcheck]

/-- A duplicate of the last Read is answered from where it asks. -/
theorem readAgain_answers {psn n rkey va len : Nat} (hring : (ctxOf s p.qpn).readRing = [(psn, n, rkey, va, len)])
    (hin : psnSub p.psn psn < n)
    (hcheck : regionCheck s rkey (va + psnSub p.psn psn * mtuBytes (ctxOf s p.qpn).pmtu)
      (len - psnSub p.psn psn * mtuBytes (ctxOf s p.qpn).pmtu) 1 (ctxOf s p.qpn).tenant = none)
    (hwork : (ctxOf s p.qpn).work = [] ∧ (ctxOf s p.qpn).workSent = 0)
    (hpace : s.fld F.XPT_CFG_CC_EN = 0 ∨ (ctxOf s p.qpn).class0 = true) (hps : s.cmd.ps ≠ 4) :
    Emitted s (readAgain p s) 0x552 0 0x503 p.qpn ∧ (ctxOf (readAgain p s) p.qpn).epsn = (ctxOf s p.qpn).epsn ∧
      PacketSent (readAgain p s) p.qpn (.readResponse p.psn (hbmRead s (va + psnSub p.psn psn * mtuBytes (ctxOf s p.qpn).pmtu)
        (len - psnSub p.psn psn * mtuBytes (ctxOf s p.qpn).pmtu))) := by
  have htold : Evolves _ s (emit 0x552 0x503 0 p.qpn s) := emit_evolves .refl Sub.rfl
  have hctx := ctxOf_of_evolves htold (by decide) p.qpn
  have hregions := regions_of_evolves htold (by decide)
  have hbytes := hbm_of_evolves htold (by decide)
  have hpower := (powerState_of_evolves htold (by decide)).1
  have hpaced := htold.fld_eq F.XPT_CFG_CC_EN (by decide)
  have hsaid : Emitted s (emit 0x552 0x503 0 p.qpn s) 0x552 0 0x503 p.qpn := emitted_emit_of _ _ _ _ rfl
  unfold readAgain
  generalize emit 0x552 0x503 0 p.qpn s = u at *
  have hread (data : Bytes) : Evolves _ u (sendReadResponse p.qpn p.psn data u) := sendReadResponse_evolves .refl Sub.rfl
  have hsteady (data : Bytes) : CtxSteady u (sendReadResponse p.qpn p.psn data u) := ctxSteady_postWork ..
  rw [← hctx, ← regionCheck_congr hregions] at hcheck
  rw [readFrom_finds (hctx ▸ hring) hin hcheck, hctx, hbmRead_congr hbytes]
  exact ⟨(hread _).emitted_mono (by decide) hsaid, ((hsteady _).epsn p.qpn).trans (congrArg Context.epsn hctx),
    packetSent_sendReadResponse (hctx ▸ hwork) (hpaced ▸ hctx ▸ hpace) (hpower ▸ hps)⟩

/-- A refusal to a connection whose state accepts nothing is a NAK alone. -/
theorem refuseRequest_of_off (psn : Nat) (h : (ctxOf s qpn).accepts = false) :
    refuseRequest qpn psn s = sendPacket qpn (.nakInvalid psn) s := by
  have hsend : Evolves _ s (sendPacket qpn (.nakInvalid psn) s) := sendPacket_evolves .refl Sub.rfl
  have hctx := ctxOf_of_evolves hsend (by decide) qpn
  have hoff : ¬((ctxOf s qpn).state = 2 ∨ (ctxOf s qpn).state = 3 ∨ (ctxOf s qpn).state = 4) := by
    unfold Context.accepts at h
    simpa [not_or, and_assoc] using h
  unfold refuseRequest connError
  dsimp only
  rw [hctx]
  refine if_pos (.inr ?_)
  simp only [not_or] at hoff
  simp [hoff]

/-- Settles O34: each refusal is an ERROR or a NAK, and what runs in sequence leaves the connection in RTS. -/
theorem requestPacketsComplete : Obligations.RequestPacketsComplete := by
  unfold Obligations.RequestPacketsComplete
  refine ⟨fun p payload n s hindex hstate hpsn hroom hfits => ?gathered, fun p payload n s hindex hstate hpsn hroom hfits => ?ended,
    fun p last payload s hindex hstate hpsn hholds hps => ?duplicate, fun p last payload s hindex hstate hpsn hnak hps => ?ahead,
    fun p last payload s hindex hstate hpsn hroom hps => ?noRoom, fun p imm payload e s hindex hstate hpsn hmatch hfits => ?fired,
    fun p imm payload s hindex hstate hpsn hmatch htrig hps => ?missed,
    fun p key payload n s hindex hstate hpsn hkey hvalid hkeyed haccess hroom hfits => ?invalidated,
    fun p r data s hindex hstate hpsn hcheck hlen => ?written, fun p r data s hindex hstate hpsn hcheck hlen => ?begun,
    fun p r last data reason s hindex hstate hpsn hcheck hps => ?denied,
    fun p r imm data n s hindex hstate hpsn hroom hcheck hlen => ?writtenImm,
    fun p r s hindex hstate hpsn hcheck hwork hpace hps => ?read,
    fun p r psn n rkey va len s hindex hstate hpsn hring hin hcheck hwork hpace hps => ?readAgain,
    fun p last payload s hindex hoff hps => ?refused, fun p opcode s hindex hstate hps => ?unknown⟩
  case gathered =>
    have hroom' := (sendRoom_requestTook p s false).trans hroom
    obtain ⟨_, _, htook⟩ := ctxOf_requestTook p s
    obtain ⟨_, _, hctx⟩ := ctxOf_received (qpn := p.qpn) p.ackReq
      (s := onCtx p.qpn (fun c => { c with rxBuf := (ctxOf s p.qpn).rxBuf ++ payload }) (requestTook p s))
    rw [ctxOf_onCtx_ite, if_pos rfl, htook, hstate] at hctx
    refine ⟨_, congrArg Host.Outcome.next ((onRequest_expected hindex hstate hpsn).trans ((congrArg (drainCheck p.qpn)
      (onSend_gathers _ hroom' (rxBuf_requestTook p s) hfits)).trans (drainCheck_of_rts (by rw [hctx]; rfl)))), ?_⟩
    dsimp only
    rw [hctx]
    exact ⟨rfl, rfl, rfl⟩
  case ended =>
    have hroom' := (sendRoom_requestTook p s true).trans ((sendRoom_last s p.qpn).trans hroom)
    obtain ⟨_, _, htook⟩ := ctxOf_requestTook p s
    obtain ⟨_, _, hctx⟩ := ctxOf_messageEnds (s := requestTook p s) p true
    have hends : Evolves _ (requestTook p s) (messageEnds p true (requestTook p s)) := messageEnds_evolves .refl Sub.rfl
    rw [htook, hstate] at hctx
    refine ⟨_, congrArg Host.Outcome.next ((onRequest_expected hindex hstate hpsn).trans ((congrArg (drainCheck p.qpn)
      (onSend_ends _ hroom' (rxBuf_requestTook p s) hfits)).trans (drainCheck_of_rts (by rw [ctxOf_sendVisible, hctx]; rfl)))), ?_⟩
    dsimp only
    rw [ctxOf_sendVisible, received_sendVisible, hctx, received_of_evolves hends (by decide),
      received_of_evolves (requestTook_evolves p s) (by decide)]
    exact ⟨rfl, rfl, rfl, rfl⟩
  case duplicate =>
    have hecn : Evolves _ s (onEcn p.qpn p.ecn s) := onEcn_evolves .refl Sub.rfl
    obtain ⟨_, _, htook⟩ := ctxOf_onEcn (s := s) p.qpn p.ecn
    obtain ⟨htold, hsent, hhbm, hepsn⟩ := duplicate_leaves (qpn := p.qpn) (s := onEcn p.qpn p.ecn s)
      ((holdsAcks_of_evolves hecn (by decide)).trans hholds) (by rw [(powerState_of_evolves hecn (by decide)).1]; exact hps)
    rw [htook] at hsent hepsn
    exact ⟨_, congrArg Host.Outcome.next (onRequest_duplicate hindex hstate hpsn), (emitted_now (hecn.now_eq (by decide))).1 htold, hsent,
      hhbm.trans (hbm_of_evolves hecn (by decide)), hepsn⟩
  case ahead =>
    obtain ⟨_, _, htook⟩ := ctxOf_onEcn (s := s) p.qpn p.ecn
    have hecn : Evolves _ s (onEcn p.qpn p.ecn s) := onEcn_evolves .refl Sub.rfl
    have hps' : (onEcn p.qpn p.ecn s).cmd.ps ≠ 4 := by rw [(powerState_of_evolves hecn (by decide)).1]; exact hps
    have hsend (q : Packet) (v : State) : Evolves _ v (sendPacket p.qpn q v) := sendPacket_evolves .refl Sub.rfl
    have hexec : outOfSequence p.qpn (onEcn p.qpn p.ecn s) = onCtx p.qpn (fun c => { c with nakSent := true })
        (sendPacket p.qpn (.nakSequence (ctxOf s p.qpn).epsn) (onEcn p.qpn p.ecn s)) := by
      unfold outOfSequence
      dsimp only
      rw [htook]
      exact if_neg (by rw [hnak]; decide)
    refine ⟨_, congrArg Host.Outcome.next ((onRequest_ahead hindex hstate hpsn).trans hexec), ?_, ?_, ?_⟩
    · exact packetSent_sendPacket (qpn := p.qpn) _ hps'
    · rw [ctxOf_onCtx_ite, if_pos rfl]
    · rw [ctxOf_onCtx_ite, if_pos rfl, ctxOf_of_evolves (hsend _ _) (by decide), htook]
  case noRoom =>
    have hroom' := (sendRoom_requestTook p s last).trans hroom
    obtain ⟨_, _, htook⟩ := ctxOf_requestTook p s
    have hevolves := requestTook_evolves p s
    obtain ⟨hsent, hctx⟩ := rnr_leaves (p := p) (s := requestTook p s) (by rw [ps_requestTook]; exact hps)
    have hrnr (v : State) : Evolves _ v (rnr p v) := rnr_evolves .refl Sub.rfl
    rw [htook] at hctx
    refine ⟨_, congrArg Host.Outcome.next ((onRequest_expected hindex hstate hpsn).trans ((congrArg (drainCheck p.qpn)
      (onSend_noRoom _ hroom')).trans (drainCheck_of_rts ((congrArg Context.state hctx).trans hstate)))), ?_, ?_, ?_⟩
    · rw [hevolves.fld_eq F.XPT_RETRY_CFG_RNR_TIMER (by decide)] at hsent
      exact hsent
    · exact (hbm_of_evolves (hrnr _) (by decide)).trans (hbm_requestTook p s)
    · rw [hctx]
  case fired =>
    obtain ⟨hmatched, htriggers⟩ := matching_requestTook (p := p) (s := s) imm
    have hends : Evolves _ (requestTook p s) (messageEnds p false (requestTook p s)) := messageEnds_evolves .refl Sub.rfl
    have hchains := hends.same .chains (by decide)
    simp only [Part.Same, Prod.mk.injEq] at hchains
    have hfire (whole : Bytes) (v : State) : Evolves _ v (fire e whole v) := fire_evolves .refl Sub.rfl
    have hdrain (v : State) : Evolves _ v (drainCheck p.qpn v) := drainCheck_evolves .refl Sub.rfl
    have hsame : (messageEnds p false (requestTook p s)).xpt.triggers = s.xpt.triggers := hchains.1.trans htriggers
    have hnow := (hends.now_eq (by decide)).trans (now_requestTook p s)
    have hrts := state_messageEnds (p := p) (buffer := false) ((state_requestTook p s).trans hstate)
    have hbytes := (hbm_of_evolves hends (by decide)).trans (hbm_requestTook p s)
    refine ⟨_, congrArg Host.Outcome.next ((onRequest_expected hindex hstate hpsn).trans (congrArg (drainCheck p.qpn)
      (sendImm_fires (hmatched.trans hmatch) (rxBuf_requestTook p s) (by rw [htriggers]; exact hfits)))), ?_, fun hhead => ?_⟩
    · exact (hdrain _).emitted_mono (by decide) ((emitted_now hnow).1 (fire_tells e _))
    · obtain ⟨htrigger, hhbm, hctx⟩ := fire_waits (s := messageEnds p false (requestTook p s)) (e := e)
        ((ctxOf s p.qpn).rxBuf ++ payload) (by rw [hsame]; exact hhead)
      have hrts' : (ctxOf (fire e ((ctxOf s p.qpn).rxBuf ++ payload) (messageEnds p false (requestTook p s))) p.qpn).state = 3 := by
        rw [hctx]
        exact hrts
      rw [drainCheck_of_rts hrts', htrigger, trigger_triggerFired, hhbm]
      refine ⟨rfl, ?_⟩
      rw [← hsame]
      exact hbm_hbmWrite_congr _ _ hbytes
  case missed =>
    obtain ⟨hmatched, _⟩ := matching_requestTook (p := p) (s := s) imm
    obtain ⟨_, _, htook⟩ := ctxOf_requestTook p s
    have hevolves := requestTook_evolves p s
    obtain ⟨hctx, hps', htimer, hcount, htold⟩ := immMissed_leaves (s := requestTook p s) p.qpn
    obtain ⟨hsent, hrnr⟩ := rnr_leaves (p := p) (s := immMissed p.qpn (requestTook p s)) (by rw [hps', ps_requestTook]; exact hps)
    have hnak (v : State) : Evolves _ v (rnr p v) := rnr_evolves .refl Sub.rfl
    rw [htimer, hevolves.fld_eq F.XPT_RETRY_CFG_RNR_TIMER (by decide)] at hsent
    refine ⟨_, congrArg Host.Outcome.next ((onRequest_expected hindex hstate hpsn).trans ((congrArg (drainCheck p.qpn)
      (sendImm_misses (payload := payload) (hmatched.trans hmatch) (by rw [htook]; exact htrig))).trans
        (drainCheck_of_rts (by rw [hrnr, hctx, htook]; exact hstate)))), ?_, hsent, ?_⟩
    · exact (hnak _).emitted_mono (by decide) ((emitted_now (now_requestTook p s)).1 htold)
    · rw [(hnak _).fld_eq F.XPT_TRIG_STAT_MISSES (by decide), hcount, hevolves.fld_eq F.XPT_TRIG_STAT_MISSES (by decide)]
  case invalidated =>
    have hroom' := (sendRoom_requestTook p s true).trans ((sendRoom_last s p.qpn).trans hroom)
    have hends : Evolves _ (requestTook p s) (messageEnds p true (requestTook p s)) := messageEnds_evolves .refl Sub.rfl
    have hvisible (whole : Bytes) (v : State) : Evolves _ v (sendVisible p whole v) := sendVisible_evolves .refl Sub.rfl
    have hregions : (sendVisible p ((ctxOf s p.qpn).rxBuf ++ payload) (messageEnds p true (requestTook p s))).xpt.regions = s.xpt.regions :=
      (regions_of_evolves (hvisible ..) (by decide)).trans ((regions_of_evolves hends (by decide)).trans (regions_requestTook p s))
    have hnow := ((hvisible ((ctxOf s p.qpn).rxBuf ++ payload) _).now_eq (by decide)).trans
      ((hends.now_eq (by decide)).trans (now_requestTook p s))
    obtain ⟨hstate', htold, hctx⟩ := startInvalidation_leaves (s := sendVisible p ((ctxOf s p.qpn).rxBuf ++ payload)
      (messageEnds p true (requestTook p s))) (regionIndex key)
    rw [hregions, hkeyed, show regionIndex key * 256 + key % 256 = key from Nat.div_add_mod' key 256] at htold
    have hrts : (ctxOf (sendVisible p ((ctxOf s p.qpn).rxBuf ++ payload) (messageEnds p true (requestTook p s))) p.qpn).state = 3 := by
      rw [ctxOf_sendVisible]
      exact state_messageEnds ((state_requestTook p s).trans hstate)
    refine ⟨_, congrArg Host.Outcome.next ((onRequest_expected hindex hstate hpsn).trans ((congrArg (drainCheck p.qpn)
      (sendInvalidate_ends hkey (by rw [regions_requestTook]; exact ⟨hvalid, hkeyed, haccess⟩) hroom' (rxBuf_requestTook p s) hfits)).trans
        (drainCheck_of_rts (by rw [hctx]; exact hrts)))), hstate', (emitted_now hnow).1 htold⟩
  case written =>
    have hcheck' := (regionCheck_requestTook p s r.rkey r.va r.len 0).trans hcheck
    obtain ⟨_, _, htook⟩ := ctxOf_requestTook p s
    obtain ⟨hhbm, hrts, hepsn, hmsn, hregion, _⟩ := write_ends (s := requestTook p s) (p := p) (r := r) (data := data) false
      ((state_requestTook p s).trans hstate)
    refine ⟨_, congrArg Host.Outcome.next ((onRequest_expected hindex hstate hpsn).trans ((congrArg (drainCheck p.qpn)
      (writeRun_last hcheck' hlen)).trans (drainCheck_of_rts hrts))), hhbm.trans (hbm_hbmWrite_congr _ _ (hbm_requestTook p s)),
      hepsn.trans (by rw [htook]), hmsn.trans (by rw [htook]), hregion⟩
  case begun =>
    have hcheck' := (regionCheck_requestTook p s r.rkey r.va r.len 0).trans hcheck
    obtain ⟨_, _, htook⟩ := ctxOf_requestTook p s
    obtain ⟨hhbm, hctx, husers⟩ := placeWrite_opened (s := requestTook p s) (p := p) r data
    obtain ⟨_, _, hreceived⟩ := ctxOf_received (qpn := p.qpn) p.ackReq (s := placeWrite p data (writeOpened p.qpn r (requestTook p s)))
    have hrec (v : State) : Evolves _ v (received p.qpn p.ackReq v) := received_evolves .refl Sub.rfl
    rw [hctx, htook, hstate] at hreceived
    refine ⟨_, congrArg Host.Outcome.next ((onRequest_expected hindex hstate hpsn).trans ((congrArg (drainCheck p.qpn)
      (writeRun_more hcheck' hlen)).trans (drainCheck_of_rts (by rw [hreceived]; rfl)))), ?_⟩
    dsimp only
    rw [hreceived]
    refine ⟨?_, rfl, rfl, rfl, rfl, ?_⟩
    · exact (hbm_of_evolves (hrec _) (by decide)).trans (hhbm.trans (hbm_hbmWrite_congr _ _ (hbm_requestTook p s)))
    · rw [(hrec _).same .regions (by decide)]
      exact husers
  case denied =>
    have hcheck' := (regionCheck_requestTook p s r.rkey r.va r.len 0).trans hcheck
    have hdrain (v : State) : Evolves _ v (drainCheck p.qpn v) := drainCheck_evolves .refl Sub.rfl
    obtain ⟨hsent, hrefused, herror, hhbm⟩ := accessNak_leaves (s := requestTook p s) reason hindex ((state_requestTook p s).trans hstate)
      (by rw [ps_requestTook]; exact hps)
    refine ⟨_, congrArg Host.Outcome.next ((onRequest_expected hindex hstate hpsn).trans (congrArg (drainCheck p.qpn)
      (writeRun_refused hcheck'))), packetSent_mono (hdrain _) hsent, ?_, ?_, ?_⟩
    · exact (hdrain _).emitted_mono (by decide) ((emitted_now (now_requestTook p s)).1 hrefused)
    · exact (hdrain _).emitted_mono (by decide) ((emitted_now (now_requestTook p s)).1 herror)
    · exact (hbm_of_evolves (hdrain _) (by decide)).trans (hhbm.trans (hbm_requestTook p s))
  case writtenImm =>
    have hcheck' := (regionCheck_requestTook p s r.rkey r.va r.len 0).trans hcheck
    obtain ⟨_, _, htook⟩ := ctxOf_requestTook p s
    obtain ⟨hhbm, hrts, hepsn, hmsn, _, hhead⟩ := write_ends (s := requestTook p s) (p := p) (r := r) (data := data) true
      ((state_requestTook p s).trans hstate)
    have hvisible (v : State) : Evolves _ v (sendVisible p (leBytes 4 imm) v) := sendVisible_evolves .refl Sub.rfl
    refine ⟨_, congrArg Host.Outcome.next ((onRequest_expected hindex hstate hpsn).trans ((congrArg (drainCheck p.qpn)
      (writeImm_runs imm ((bufferFor_requestTook p s).trans hroom) hcheck' hlen)).trans
        (drainCheck_of_rts (by rw [ctxOf_sendVisible]; exact hrts)))), ?_⟩
    dsimp only
    rw [ctxOf_sendVisible]
    exact ⟨(hbm_of_evolves (hvisible _) (by decide)).trans (hhbm.trans (hbm_hbmWrite_congr _ _ (hbm_requestTook p s))),
      hepsn.trans (by rw [htook]), hmsn.trans (by rw [htook]), hhead.trans (by rw [htook]; rfl)⟩
  case read =>
    have hcheck' := (regionCheck_requestTook p s r.rkey r.va r.len 1).trans hcheck
    have hevolves := requestTook_evolves p s
    obtain ⟨_, _, htook⟩ := ctxOf_requestTook p s
    have hps' : (requestTook p s).cmd.ps ≠ 4 := by rw [ps_requestTook]; exact hps
    have hpace' : (requestTook p s).fld F.XPT_CFG_CC_EN = 0 ∨ (ctxOf (requestTook p s) p.qpn).class0 = true := by
      rw [hevolves.fld_eq F.XPT_CFG_CC_EN (by decide), htook]
      exact hpace
    obtain ⟨hsent, hrts, hmsn, hepsn, hhbm⟩ := readRun_answers (p := p) (r := r) (s := requestTook p s) hcheck'
      ((state_requestTook p s).trans hstate) (by rw [htook]; exact hwork) hpace' hps'
    rw [htook] at hmsn hepsn
    rw [hbmRead_congr (hbm_requestTook p s)] at hsent
    refine ⟨_, congrArg Host.Outcome.next ((onRequest_expected hindex hstate hpsn).trans (drainCheck_of_rts hrts)), hsent, hmsn, hepsn,
      hhbm.trans (hbm_requestTook p s)⟩
  case readAgain =>
    have hecn : Evolves _ s (onEcn p.qpn p.ecn s) := onEcn_evolves .refl Sub.rfl
    obtain ⟨_, _, htook⟩ := ctxOf_onEcn (s := s) p.qpn p.ecn
    have hpace' : (onEcn p.qpn p.ecn s).fld F.XPT_CFG_CC_EN = 0 ∨ (ctxOf (onEcn p.qpn p.ecn s) p.qpn).class0 = true := by
      rw [hecn.fld_eq F.XPT_CFG_CC_EN (by decide), htook]
      exact hpace
    obtain ⟨htold, hepsn, hsent⟩ := readAgain_answers (p := p) (s := onEcn p.qpn p.ecn s) (psn := psn) (n := n) (rkey := rkey)
      (va := va) (len := len) (by rw [htook]; exact hring) hin
      (by rw [htook, regionCheck_congr (hecn.same .regions (by decide))]; exact hcheck) (by rw [htook]; exact hwork) hpace'
      (by rw [(powerState_of_evolves hecn (by decide)).1]; exact hps)
    rw [htook, hbmRead_congr (hbm_of_evolves hecn (by decide))] at hsent
    rw [htook] at hepsn
    exact ⟨_, congrArg Host.Outcome.next (onRequest_duplicate hindex hstate hpsn), (emitted_now (hecn.now_eq (by decide))).1 htold,
      hepsn, hsent⟩
  case refused =>
    have hsend (q : Packet) : Evolves _ s (sendPacket p.qpn q s) := sendPacket_evolves .refl Sub.rfl
    refine ⟨_, congrArg Host.Outcome.next ((onRequest_refused hindex hoff).trans (refuseRequest_of_off p.psn hoff)),
      packetSent_sendPacket (qpn := p.qpn) _ hps, xpt_of_evolves (hsend _) (by decide)⟩
  case unknown =>
    have hsend : Evolves _ s (sendPacket p.qpn (.nakInvalid p.psn) s) := sendPacket_evolves .refl Sub.rfl
    have herror (v : State) : Evolves _ v (connError p.qpn 5 v) := connError_evolves .refl Sub.rfl
    obtain ⟨hfive, htold, hasked⟩ := connError_leaves (cause := 5) (s := sendPacket p.qpn (.nakInvalid p.psn) s) hindex
      (by rw [ctxOf_of_evolves hsend (by decide)]; exact hstate)
    exact ⟨refuseRequest p.qpn p.psn s, rfl, packetSent_mono (herror _) (packetSent_sendPacket _ hps), hasked, hfive,
      (emitted_now (hsend.now_eq (by decide))).1 htold⟩

end Sys2Proof.Machine
end

section
/-! PROOFS. O35: replies to requests, and the timers of the requester (R96, R97, R100 to R104, R122 to R125). -/

namespace Sys2Proof.Machine

variable {s t u : State} {w : List Part} {qpn psn : Nat}

/-! A reply to a connection in RTS. -/

theorem onReply_runs {ecn : Bool} (run : State → State) (hindex : (ctxIndex qpn).isSome = true) (hstate : (ctxOf s qpn).state = 3) :
    onReply qpn psn ecn run s = run (onEcn qpn ecn s) := by
  unfold onReply
  simp only [← Option.not_isSome, hindex, Context.accepts_of_rts hstate, Bool.not_true, Bool.false_eq_true, if_false]

theorem onEcn_unmarked (qpn : Nat) (s : State) : onEcn qpn false s = s := by
  unfold onEcn
  exact if_neg fun h => Bool.false_ne_true h.1

theorem Context.noted (c : Context) (sent : Bool) (gts psn : Nat) :
    let d := { c with cnpSent := sent, cnpGts := gts }
    ackInRange d psn = ackInRange c psn ∧ d.sends = c.sends ∧ d.unaPsn = c.unaPsn ∧ d.state = c.state ∧
      ackedMessages d psn = ackedMessages c psn := ⟨rfl, rfl, rfl, rfl, rfl⟩

/-- The mark of congestion leaves what is to be acknowledged. -/
theorem onEcn_leaves (qpn psn : Nat) (ecn : Bool) : ackInRange (ctxOf (onEcn qpn ecn s) qpn) psn = ackInRange (ctxOf s qpn) psn ∧
    (ctxOf (onEcn qpn ecn s) qpn).sends = (ctxOf s qpn).sends ∧ (ctxOf (onEcn qpn ecn s) qpn).unaPsn = (ctxOf s qpn).unaPsn ∧
    (ctxOf (onEcn qpn ecn s) qpn).state = (ctxOf s qpn).state ∧
    ackedMessages (ctxOf (onEcn qpn ecn s) qpn) psn = ackedMessages (ctxOf s qpn) psn := by
  obtain ⟨sent, gts, hctx⟩ := ctxOf_onEcn (s := s) qpn ecn
  rw [hctx]
  exact Context.noted _ sent gts psn

/-! What a sample leaves (R123 to R125). -/

/-- A context without what a sample changes. -/
def Context.unsampled (c : Context) : Context := { c with
  sampleOn := false, minRate := 0, paceUsed := 0, paceGts := 0, baseStart := 0, baseRtt := 0, lastRtt := 0, lastChange := 0, rate := 0,
  minRateSaid := false, minRateGts := 0 }

theorem ctxOf_upd (qpn : Nat) (f : Context → Context) (s : State) : ctxOf (onCtx qpn f s) qpn = f (ctxOf s qpn) :=
  (ctxOf_onCtx_ite qpn qpn f s).trans (if_pos rfl)

theorem ctxOf_sayRateMin (qpn old : Nat) : ∃ said gts, ctxOf (sayRateMin qpn old s) qpn =
    { ctxOf s qpn with minRateSaid := said, minRateGts := gts } := by
  have hctx (src ev sev data : Nat) (v : State) : ctxOf (emit src ev sev data v) qpn = ctxOf v qpn := rfl
  unfold sayRateMin
  dsimp only
  split
  · exact ⟨_, _, by rw [hctx, ctxOf_onCtx_ite, if_pos rfl]⟩
  · exact ⟨_, _, rfl⟩

/-- The context with the sample for its last round trip and its base. -/
def Context.based (c : Context) (s : State) (smp : Nat) : Context :=
  let c := { c with minRate := Machine.minRate s, paceUsed := paceLack s c, paceGts := s.now }
  let c := if s.fld F.XPT_CC_LIMITS_BASE_WIN_MS * 1000000 ≤ since32 (s.now % 2 ^ 32) c.baseStart ∨ c.baseRtt = 0 then
    { c with baseStart := s.now % 2 ^ 32, baseRtt := smp } else c
  { c with baseRtt := min c.baseRtt smp, lastRtt := smp }

/-- The context with the rate that follows from the sample. -/
def Context.rated (c : Context) (s : State) (smp portRate : Nat) : Context :=
  if since32 (s.now % 2 ^ 32) c.lastChange < smp then c
  else
    let c := { c with lastChange := s.now % 2 ^ 32 }
    if smp ≤ c.baseRtt + s.fld F.XPT_CC_CFG_TARGET_NS then { c with rate := min (c.rate + s.fld F.XPT_CC_CFG_AI_STEP) portRate }
    else
      let excess := smp - c.baseRtt - s.fld F.XPT_CC_CFG_TARGET_NS
      { c with rate := max (c.rate * (256 * smp - s.fld F.XPT_CC_CFG_BETA * excess) / (256 * smp)) c.minRate }

/-- A context with a sample of its round trip. -/
def Context.sampled (c : Context) (s : State) (smp portRate : Nat) : Context := (c.based s smp).rated s smp portRate

theorem onSample_eq (qpn smp portRate : Nat) : onSample qpn smp portRate s =
    sayRateMin qpn (ctxOf s qpn).rate (onCtx qpn (fun c => c.sampled s smp portRate) s) := rfl

theorem Context.based_leaves (c : Context) (smp : Nat) : (c.based s smp).lastRtt = smp ∧ (c.based s smp).unsampled = c.unsampled := by
  unfold Context.based
  dsimp only
  split
  · exact ⟨rfl, rfl⟩
  · exact ⟨rfl, rfl⟩

theorem Context.rated_leaves (c : Context) (smp portRate : Nat) : (c.rated s smp portRate).lastRtt = c.lastRtt ∧
    (c.rated s smp portRate).unsampled = c.unsampled := by
  unfold Context.rated
  dsimp only
  split
  · exact ⟨rfl, rfl⟩
  · split
    · exact ⟨rfl, rfl⟩
    · exact ⟨rfl, rfl⟩

theorem Context.lastRtt_said (c : Context) (said : Bool) (gts : Nat) :
    { c with minRateSaid := said, minRateGts := gts }.lastRtt = c.lastRtt := rfl

theorem Context.unsampled_said (c : Context) (said : Bool) (gts : Nat) :
    { c with minRateSaid := said, minRateGts := gts }.unsampled = c.unsampled := rfl

theorem Context.sampled_leaves (c : Context) (smp portRate : Nat) : (c.sampled s smp portRate).lastRtt = smp ∧
    (c.sampled s smp portRate).unsampled = c.unsampled := by
  obtain ⟨hlast, hbased⟩ := c.based_leaves (s := s) smp
  obtain ⟨hlast', hrated⟩ := (c.based s smp).rated_leaves (s := s) smp portRate
  exact ⟨hlast'.trans hlast, hrated.trans hbased⟩

/-- A sample becomes the last round trip, and changes nothing but the pace. -/
theorem ctxOf_onSample (qpn smp portRate : Nat) : (ctxOf (onSample qpn smp portRate s) qpn).lastRtt = smp ∧
    (ctxOf (onSample qpn smp portRate s) qpn).unsampled = (ctxOf s qpn).unsampled := by
  obtain ⟨hlast, hstands⟩ := (ctxOf s qpn).sampled_leaves (s := s) smp portRate
  have hctx := ctxOf_upd qpn (fun c => c.sampled s smp portRate) s
  obtain ⟨_, _, hsaid⟩ := ctxOf_sayRateMin (qpn := qpn) (s := onCtx qpn (fun c => c.sampled s smp portRate) s) (ctxOf s qpn).rate
  rw [hctx] at hsaid
  rw [onSample_eq, hsaid]
  exact ⟨(Context.lastRtt_said _ _ _).trans hlast, (Context.unsampled_said _ _ _).trans hstands⟩

theorem unsampled_endSample (qpn psn : Nat) : (ctxOf (endSample qpn psn s) qpn).unsampled = (ctxOf s qpn).unsampled := by
  have hoff : (ctxOf (onCtx qpn (fun c => { c with sampleOn := false }) s) qpn).unsampled = (ctxOf s qpn).unsampled := by
    rw [ctxOf_upd]
    rfl
  unfold endSample
  dsimp only
  split
  · split
    · exact (ctxOf_onSample ..).2.trans hoff
    · exact hoff
  · rfl

/-! An acknowledgement (R97, R101). -/

/-- A context with what is acknowledged forgotten. -/
def Context.advanced (c : Context) (s : State) (psn : Nat) (ended : List (Nat × Nat × Nat)) : Context :=
  let left := c.sends.filter fun m => !ended.contains m
  { c with
    sends := left, kept := c.kept.filter fun e => left.any fun m => m.1 == e.1, unaPsn := psnAdd psn 1, sqHead := (c.sqHead + ended.length) % 65536, rnrWait := false
    retryLeft := s.fld F.XPT_RETRY_CFG_RETRY_CNT, rnrLeft := s.fld F.XPT_RETRY_CFG_RNR_RETRY
    timerGts := if left.isEmpty then 0 else s.now + ackTimeout s }

theorem ctxOf_advanceUna (qpn psn : Nat) (ended : List (Nat × Nat × Nat)) :
    ctxOf (advanceUna qpn psn ended s) qpn = (ctxOf s qpn).advanced s psn ended := ctxOf_upd qpn (fun c => c.advanced s psn ended) s

/-- What a context is made by what is acknowledged, whatever the sample. -/
structure Context.Acked (c d : Context) (s : State) (psn : Nat) (ended : List (Nat × Nat × Nat)) : Prop where
  una : d.unaPsn = psnAdd psn 1
  retry : d.retryLeft = s.fld F.XPT_RETRY_CFG_RETRY_CNT
  rnr : d.rnrLeft = s.fld F.XPT_RETRY_CFG_RNR_RETRY
  wait : d.rnrWait = false
  sends : d.sends = c.sends.filter fun m => !ended.contains m
  state : d.state = c.state
  reads : d.readsOut = c.readsOut
  work : d.work = c.work

theorem Context.Acked.of_unsampled {c d : Context} {ended : List (Nat × Nat × Nat)}
    (h : d.unsampled = (c.advanced s psn ended).unsampled) : c.Acked d s psn ended :=
  ⟨(congrArg Context.unaPsn h :), (congrArg Context.retryLeft h :), (congrArg Context.rnrLeft h :), (congrArg Context.rnrWait h :),
    (congrArg Context.sends h :), (congrArg Context.state h :), (congrArg Context.readsOut h :), (congrArg Context.work h :)⟩

theorem acked_endSample (qpn psn upTo : Nat) (ended : List (Nat × Nat × Nat)) :
    (ctxOf s qpn).Acked (ctxOf (endSample qpn upTo (advanceUna qpn psn ended s)) qpn) s psn ended :=
  .of_unsampled ((unsampled_endSample ..).trans (congrArg Context.unsampled (ctxOf_advanceUna ..)))

theorem exec_acknowledge (qpn psn : Nat) (ecn : Bool) (s : State) : exec (.acknowledgeReceived qpn psn ecn false) s =
    .next (onReply qpn psn ecn (acknowledge qpn psn) s) := rfl

/-- An acknowledgement of messages none of which is a Read ends them. -/
theorem acknowledge_eq (hrange : ackInRange (ctxOf s qpn) psn = true) (hreads : (ctxOf s qpn).sends.any isRead = false)
    (hnew : psnSub psn (ctxOf s qpn).unaPsn < 2 ^ 23) : acknowledge qpn psn s =
      drainCheck qpn (endSample qpn psn (advanceUna qpn psn (ackedMessages (ctxOf s qpn) psn) s)) := by
  have hblocked : ((ctxOf s qpn).sends.any fun m => isRead m && decide (psnSub m.1 (ctxOf s qpn).unaPsn ≤ psnSub psn (ctxOf s qpn).unaPsn))
      = false := by
    rw [List.any_eq_false] at hreads ⊢
    exact fun m hm hb => hreads m hm (Bool.and_eq_true _ _ ▸ hb).1
  unfold acknowledge
  simp only [hrange, hblocked, hnew, Bool.not_true, Bool.false_eq_true, if_false, if_true]

/-! Reads acknowledged, and the regions that straddle (R89). -/

/-- Is a region invalidated, as it was in another state, and told? -/
structure StraddleEnded (s t : State) (i : Nat) : Prop where
  region : t.xpt.regions.at i = { (s.xpt.regions.at i).invalidated with users := [] }
  told : Emitted s t 0x554 0 0x507 (b2n (s.xpt.regions.at i).forced * 2 ^ 35 + i * 256 + (s.xpt.regions.at i).key)

theorem regionOf_endStraddle_other {i j : Nat} (h : j ≠ i) (user : Nat) :
    (endStraddle i user s).xpt.regions.at j = s.xpt.regions.at j := by
  have hother (f : Region → Region) (v : State) : (onRegion i f v).xpt.regions.at j = v.xpt.regions.at j := by
    rw [show (onRegion i f v).xpt.regions = v.xpt.regions.upd i f from rfl, Tab.at_upd, if_neg h]
  have hemit (src ev sev data : Nat) (v : State) : (emit src ev sev data v).xpt = v.xpt := rfl
  have hxpt (f : Option Nat) (v : State) : (v.onXpt fun x => { x with invCtrl := f }).xpt.regions = v.xpt.regions := rfl
  unfold endStraddle finishInvalidation
  dsimp only
  split
  · rw [hemit]
    split
    · rw [hxpt, hother, hother]
    · rw [hother, hother]
  · exact hother ..

/-- The last user of an INVALIDATING region ends the invalidation. -/
theorem endStraddle_ends {i user : Nat} (hstate : (s.xpt.regions.at i).state = 2) (husers : (s.xpt.regions.at i).users = [user]) :
    StraddleEnded s (endStraddle i user s) i := by
  have hregion := regionOf_onRegion i (fun r => { r with
    users := r.users.erase user, straddle := if r.state = 2 then (r.users.erase user).length else 0 }) s
  have hnone : (s.xpt.regions.at i).users.erase user = [] := by rw [husers, List.erase_cons_head]
  obtain ⟨hdone, htold⟩ := finishInvalidation_done (i := i) (s := onRegion i (fun r => { r with
    users := r.users.erase user, straddle := if r.state = 2 then (r.users.erase user).length else 0 }) s)
    ((congrArg Region.state hregion).trans hstate) ((congrArg Region.users hregion).trans hnone)
  rw [hregion] at hdone htold
  rw [hnone] at hdone
  exact ⟨hdone, htold⟩

/-- The users of a region whose Reads are acknowledged no longer use it. -/
def readsEnded (ended : Nat → Bool) (s : State) (k : Nat) : State :=
  ((s.xpt.regions.at k).users.filter ended).foldl (fun s u => endStraddle k u s) s

theorem readsEnded_evolves (ended : Nat → Bool) (k : Nat) :
    Evolves [.events, .counters, .sampling, .contextCache, .regions] s (readsEnded ended s k) :=
  List.foldlRecOn (motive := fun u => Evolves _ s u) _ _ .refl fun _ hu _ _ => endStraddle_evolves hu (Sub.of Sub.rfl rfl)

theorem regionOf_readsEnded_other (ended : Nat → Bool) {i k : Nat} (h : i ≠ k) :
    (readsEnded ended s k).xpt.regions.at i = s.xpt.regions.at i :=
  foldl_keeps (P := fun u : State => u.xpt.regions.at i = s.xpt.regions.at i)
    (fun _ user hu => (regionOf_endStraddle_other h user).trans hu) _ s rfl

theorem StraddleEnded.mono {i : Nat} (h : StraddleEnded s t i) (he : Evolves w t u) (hw : w.contains .records = false)
    (hregion : u.xpt.regions.at i = t.xpt.regions.at i) : StraddleEnded s u i :=
  ⟨hregion.trans h.region, he.emitted_mono hw h.told⟩

section
variable {i user : Nat} {ended : Nat → Bool}

/-- The region whose last user has ended stays as it is. -/
theorem StraddleEnded.readsEnded (h : StraddleEnded s t i) (k : Nat) : StraddleEnded s (readsEnded ended t k) i := by
  refine h.mono (readsEnded_evolves ended k) (by decide) ?_
  by_cases hk : i = k
  · subst hk
    have hnone : (t.xpt.regions.at i).users.filter ended = [] := by rw [h.region]; rfl
    unfold Machine.readsEnded
    rw [hnone]
    rfl
  · exact regionOf_readsEnded_other ended hk

theorem readsEnded_ends (hstate : (s.xpt.regions.at i).state = 2) (husers : (s.xpt.regions.at i).users = [user])
    (hended : ended user = true) : StraddleEnded s (readsEnded ended s i) i := by
  have hone : (s.xpt.regions.at i).users.filter ended = [user] := by rw [husers, List.filter_cons_of_pos hended, List.filter_nil]
  unfold readsEnded
  rw [hone]
  exact endStraddle_ends hstate husers

/-- Among regions one of which has a user that has ended, that one's invalidation ends. -/
theorem readsEnded_foldl (hstate : (s.xpt.regions.at i).state = 2) (husers : (s.xpt.regions.at i).users = [user])
    (hended : ended user = true) (l : List Nat) (hin : i ∈ l) : StraddleEnded s (l.foldl (readsEnded ended) s) i := by
  have hstays (l : List Nat) (u : State) (h : StraddleEnded s u i) : StraddleEnded s (l.foldl (readsEnded ended) u) i :=
    foldl_keeps (P := fun u => StraddleEnded s u i) (fun _ k hu => hu.readsEnded k) l u h
  have hgo : ∀ (l : List Nat) (u : State), i ∈ l → u.xpt.regions.at i = s.xpt.regions.at i → u.now = s.now →
      StraddleEnded s (l.foldl (readsEnded ended) u) i := by
    intro l
    induction l with
    | nil => exact fun _ hin => absurd hin List.not_mem_nil
    | cons k l ih =>
      intro u hin hregion hnow
      by_cases hk : i = k
      · subst hk
        obtain ⟨hdone, htold⟩ := readsEnded_ends (s := u) (i := i) (by rw [hregion]; exact hstate) (by rw [hregion]; exact husers) hended
        rw [hregion] at hdone htold
        exact hstays l _ ⟨hdone, (emitted_now hnow).1 htold⟩
      · refine ih _ ((List.mem_cons.1 hin).resolve_left hk) ((regionOf_readsEnded_other ended hk).trans hregion) ?_
        exact ((readsEnded_evolves ended k).now_eq (by decide)).trans hnow
  exact hgo l s hin rfl rfl

end

theorem mem_keysWhere_regions {i : Nat} {p : Nat → Region → Bool} (hlisted : s.xpt.regions.at i ≠ default)
    (hp : p i (s.xpt.regions.at i) = true) : i ∈ s.xpt.regions.keysWhere p := by
  cases hlook : s.xpt.regions.look i with
  | none => exact absurd (by simp [Tab.at, Tab.getD, hlook]) hlisted
  | some x =>
    have hat : s.xpt.regions.at i = x := by simp only [Tab.at, Tab.getD, hlook, Option.getD_some]
    rw [hat] at hp
    exact List.mem_map.2 ⟨(i, x), List.mem_filter.2 ⟨Tab.mem_of_look hlook, hp⟩, rfl⟩

/-- Is a use of a region a Read of the connection that is acknowledged? -/
def readAcked (qpn psn user : Nat) : Bool :=
  user % 2 ^ 24 == qpn && decide (2 ^ 24 ≤ user) && decide (psnSub psn (user / 2 ^ 24 - 1) < 2 ^ 23)

theorem endReads_eq (qpn psn : Nat) : endReads qpn psn s =
    (s.xpt.regions.keysWhere fun _ r => r.users.any (readAcked qpn psn)).foldl (readsEnded (readAcked qpn psn)) s := rfl

theorem readAcked_readUser (hqpn : qpn < 2 ^ 24) (psn : Nat) : readAcked qpn psn (readUser qpn psn) = true := by
  have hmod : readUser qpn psn % 2 ^ 24 = qpn := by unfold readUser; omega
  have hdiv : readUser qpn psn / 2 ^ 24 - 1 = psn := by unfold readUser; omega
  have hself : psnSub psn psn = 0 := by unfold psnSub; omega
  have hlarge : 2 ^ 24 ≤ readUser qpn psn := by unfold readUser; omega
  unfold readAcked
  rw [hmod, hdiv, hself]
  simp only [beq_self_eq_true, hlarge, decide_true, Bool.and_self, Bool.true_and, decide_eq_true_eq]
  decide

/-- The acknowledgement of a Read whose region has no other user ends the region's invalidation. -/
theorem endReads_ends {i : Nat} (hqpn : qpn < 2 ^ 24) (hstate : (s.xpt.regions.at i).state = 2)
    (husers : (s.xpt.regions.at i).users = [readUser qpn psn]) : StraddleEnded s (endReads qpn psn s) i := by
  have hlisted : s.xpt.regions.at i ≠ default := fun hd => by rw [hd] at hstate; exact absurd hstate (by decide)
  rw [endReads_eq]
  refine readsEnded_foldl hstate husers (readAcked_readUser hqpn psn) _ (mem_keysWhere_regions hlisted ?_)
  rw [husers, List.any_cons, readAcked_readUser hqpn, Bool.true_or]

/-! The response of a Read (R97). -/

theorem entryOf_of_evolves (h : Evolves w s t) (hw : .commands ∉ w) (i : Nat) : entryOf t i = entryOf s i := by
  unfold entryOf
  rw [table_of_evolves h hw]

theorem entryOf_onEntry (i : Nat) (f : Entry → Entry) (s : State) : entryOf (onEntry i f s) i = f (entryOf s i) := by
  unfold entryOf
  rw [show (onEntry i f s).cmd.table = s.cmd.table.upd i f from rfl, Tab.at_upd, if_pos rfl]

theorem placeRead_places {i : Nat} (data : Bytes) (off : Nat) (hi : i + 1 < 2 ^ 20) (hlive : (entryOf s i).live = true)
    (hstate : (entryOf s i).state = .fetching) : (entryOf (placeRead (i + 1) off data s) i).data = (entryOf s i).data ++ data := by
  have hhold (port owner n : Nat) : Evolves _ s (holdCells port owner n s).2 := holdCells_evolves .refl Sub.rfl
  have hentry (port owner n : Nat) : entryOf (holdCells port owner n s).2 i = entryOf s i := by
    unfold entryOf
    rw [table_of_evolves (hhold port owner n) (by decide)]
  unfold placeRead
  rw [if_neg (Nat.not_le.2 hi), if_neg (Nat.succ_ne_zero i), Nat.add_sub_cancel, if_pos ⟨hlive, hstate⟩]
  dsimp only
  rw [entryOf_onEntry]
  exact congrArg (· ++ data) (congrArg Entry.data (hentry ..))

/-- The state in which the last response of a Read has been placed and is acknowledged. -/
def readTaken (qpn psn : Nat) (m : Nat × Nat × Nat) (data : Bytes) (s : State) : State :=
  endSample qpn psn (advanceUna qpn psn (((ctxOf s qpn).sends.takeWhile fun x => !isRead x) ++ [m])
    (placeRead (m.2.2 - readMark) (psnSub psn m.1 * mtuBytes (ctxOf s qpn).pmtu) data s))

theorem readResponse_last {m : Nat × Nat × Nat} {data : Bytes} (hfind : (ctxOf s qpn).sends.find? isRead = some m)
    (hpsn : psn = if psnSub (ctxOf s qpn).unaPsn m.1 < m.2.1 then (ctxOf s qpn).unaPsn else m.1) (hlast : psn = lastPsn m.1 m.2.1) :
    readResponse qpn psn data s = drainCheck qpn (freeReadCredit qpn (readTaken qpn psn m data s)) := by
  unfold readResponse
  simp only [hfind]
  rw [if_neg (not_not.2 hpsn), if_pos hlast, if_pos hlast]
  rfl

theorem not_mem_filter_ended {m : Nat × Nat × Nat} (l before : List (Nat × Nat × Nat)) :
    m ∉ l.filter fun x => !(before ++ [m]).contains x := by
  intro hin
  have hnot := (List.mem_filter.1 hin).2
  rw [List.contains_iff_mem.2 (List.mem_append_right _ (List.mem_singleton_self m))] at hnot
  cases hnot

/-- What the last response of a Read leaves: its bytes in its command's data, and the Read ended. -/
theorem readTaken_leaves {i : Nat} {m : Nat × Nat × Nat} (data : Bytes) (htag : m.2.2 = readMark + i + 1) (hi : i + 1 < 2 ^ 20)
    (hlive : (entryOf s i).live = true) (hstate : (entryOf s i).state = .fetching) :
    (entryOf (readTaken qpn psn m data s) i).data = (entryOf s i).data ++ data ∧
      (ctxOf (readTaken qpn psn m data s) qpn).unaPsn = psnAdd psn 1 ∧
      (ctxOf (readTaken qpn psn m data s) qpn).readsOut = (ctxOf s qpn).readsOut ∧
      m ∉ (ctxOf (readTaken qpn psn m data s) qpn).sends ∧ (ctxOf (readTaken qpn psn m data s) qpn).state = (ctxOf s qpn).state ∧
      (ctxOf (readTaken qpn psn m data s) qpn).work = (ctxOf s qpn).work := by
  have hplace (tag off : Nat) : Evolves _ s (placeRead tag off data s) := placeRead_evolves .refl Sub.rfl
  have hctx (tag off : Nat) : ctxOf (placeRead tag off data s) qpn = ctxOf s qpn := ctxOf_of_evolves (hplace tag off) (by decide) qpn
  have huna (before : List (Nat × Nat × Nat)) (v : State) : Evolves _ v (advanceUna qpn psn before v) := advanceUna_evolves .refl Sub.rfl
  have hsample (v : State) : Evolves _ v (endSample qpn psn v) := endSample_evolves .refl Sub.rfl
  have htag' : m.2.2 - readMark = i + 1 := by rw [htag]; omega
  obtain ⟨hpsn, _, _, _, hsends, hrts, hreads, hwork⟩ := acked_endSample
    (s := placeRead (m.2.2 - readMark) (psnSub psn m.1 * mtuBytes (ctxOf s qpn).pmtu) data s) qpn psn psn
    (((ctxOf s qpn).sends.takeWhile fun x => !isRead x) ++ [m])
  rw [hctx] at hsends hrts hreads hwork
  have hdata := placeRead_places (s := s) data (psnSub psn m.1 * mtuBytes (ctxOf s qpn).pmtu) hi hlive hstate
  unfold readTaken
  refine ⟨?_, hpsn, hreads, ?_, hrts, hwork⟩
  · rw [← htag'] at hdata
    rw [← hdata]
    rw [entryOf_of_evolves (hsample _) (by decide), entryOf_of_evolves (huna _ _) (by decide)]
  · rw [hsends]
    exact not_mem_filter_ended _ _

/-- A read credit that is freed while nothing is posted lets nothing leave. -/
theorem freeReadCredit_of_idle (h : (ctxOf s qpn).work = []) :
    freeReadCredit qpn s = onCtx qpn (fun c => { c with readsOut := c.readsOut - 1 }) s := by
  have hidle : (ctxOf (onCtx qpn (fun c => { c with readsOut := c.readsOut - 1 }) s) qpn).work = [] := by rw [ctxOf_upd]; exact h
  unfold freeReadCredit pump
  rw [hidle, List.length_nil, pumpMany]
  dsimp only
  rw [hidle]

theorem Context.credit_freed (c : Context) : { c with readsOut := c.readsOut - 1 }.unaPsn = c.unaPsn ∧
    { c with readsOut := c.readsOut - 1 }.readsOut = c.readsOut - 1 ∧ { c with readsOut := c.readsOut - 1 }.sends = c.sends ∧
    { c with readsOut := c.readsOut - 1 }.state = c.state := ⟨rfl, rfl, rfl, rfl⟩

theorem freeReadCredit_leaves (h : (ctxOf s qpn).work = []) : (ctxOf (freeReadCredit qpn s) qpn).unaPsn = (ctxOf s qpn).unaPsn ∧
    (ctxOf (freeReadCredit qpn s) qpn).readsOut = (ctxOf s qpn).readsOut - 1 ∧
    (ctxOf (freeReadCredit qpn s) qpn).sends = (ctxOf s qpn).sends ∧ (ctxOf (freeReadCredit qpn s) qpn).state = (ctxOf s qpn).state := by
  rw [freeReadCredit_of_idle h, ctxOf_upd]
  exact Context.credit_freed _

/-! Retries (R97, R100, R124). -/

theorem ctxSteady_resendFrom (qpn psn : Nat) : CtxSteady s (resendFrom qpn psn s) := by
  have hsay (v : State) : CtxSteady v (emit 0x552 0x504 2 qpn v) := .of_ctx rfl
  unfold resendFrom
  refine foldl_keeps (P := CtxSteady s) (fun v _ hv => hv.trans (hsay v)) _ _ ?_
  exact ((ctxSteady_unlessPowered _).trans (ctxSteady_chargePace ..)).trans (ctxSteady_onCtx qpn _ fun _ => by rfl)

theorem packetSent_resendFrom (hps : s.cmd.ps ≠ 4) : PacketSent (resendFrom qpn psn s) qpn (.resend psn) := by
  have hcharge (lens : List Nat) (v : State) : Evolves _ v (chargePace qpn true lens v) := chargePace_evolves .refl Sub.rfl
  unfold resendFrom
  refine foldl_keeps (P := fun v => PacketSent v qpn (.resend psn)) (fun v _ hv =>
    packetSent_mono (emit_evolves .refl Sub.rfl : Evolves _ v (emit 0x552 0x504 2 qpn v)) hv) _ _ ?_
  rw [if_neg hps]
  exact packetSent_mono (onCtx_evolves (hcharge _ _) (Sub.of Sub.rfl rfl)) (packetSent_send ..)

/-- A context with its rate halved, unless it was changed within the last round trip. -/
def Context.halved (c : Context) (s : State) : Context :=
  if since32 (s.now % 2 ^ 32) c.lastChange < c.lastRtt then c
  else { c with
    lastChange := s.now % 2 ^ 32, rate := max (c.rate / 2) c.minRate, paceUsed := paceLack s c, paceGts := s.now }

theorem halveRate_eq (qpn : Nat) : halveRate qpn s = sayRateMin qpn (ctxOf s qpn).rate (onCtx qpn (fun c => c.halved s) s) := rfl

theorem Context.halved_leaves (c : Context) : (c.halved s).retryLeft = c.retryLeft ∧ (c.halved s).rate =
    if since32 (s.now % 2 ^ 32) c.lastChange < c.lastRtt then c.rate else max (c.rate / 2) c.minRate := by
  unfold Context.halved
  split
  · exact ⟨rfl, rfl⟩
  · exact ⟨rfl, rfl⟩

theorem Context.rate_said (c : Context) (said : Bool) (gts : Nat) :
    { c with minRateSaid := said, minRateGts := gts }.retryLeft = c.retryLeft ∧
      { c with minRateSaid := said, minRateGts := gts }.rate = c.rate := ⟨rfl, rfl⟩

/-- The rate is halved at most once in a round trip. -/
theorem ctxOf_halveRate (qpn : Nat) : (ctxOf (halveRate qpn s) qpn).retryLeft = (ctxOf s qpn).retryLeft ∧
    (ctxOf (halveRate qpn s) qpn).rate =
      if since32 (s.now % 2 ^ 32) (ctxOf s qpn).lastChange < (ctxOf s qpn).lastRtt then (ctxOf s qpn).rate
      else max ((ctxOf s qpn).rate / 2) (ctxOf s qpn).minRate := by
  obtain ⟨hretry, hrate⟩ := (ctxOf s qpn).halved_leaves (s := s)
  have hctx := ctxOf_upd qpn (fun c => c.halved s) s
  obtain ⟨said, gts, hsaid⟩ := ctxOf_sayRateMin (qpn := qpn) (s := onCtx qpn (fun c => c.halved s) s) (ctxOf s qpn).rate
  rw [hctx] at hsaid
  obtain ⟨hretry', hrate'⟩ := ((ctxOf s qpn).halved s).rate_said said gts
  rw [halveRate_eq, hsaid]
  exact ⟨hretry'.trans hretry, hrate'.trans hrate⟩

theorem CtxSteady.rnrWait (h : CtxSteady s t) (q : Nat) : (ctxOf t q).rnrWait = (ctxOf s q).rnrWait :=
  (congrArg Context.rnrWait (h.steady q) :)

theorem exec_ackTimeout (hsends : (ctxOf s qpn).sends ≠ []) (hwait : (ctxOf s qpn).rnrWait = false)
    (hstate : (ctxOf s qpn).state = 3 ∨ (ctxOf s qpn).state = 4) : exec (.ackTimeout qpn) s = .next (retryFrom qpn (ctxOf s qpn).unaPsn s) := by
  change execAckTimeout qpn s = _
  unfold execAckTimeout
  refine if_neg ?_
  rw [hwait]
  rcases hstate with h | h <;> simp [h, hsends]

/-- What a steady context has for its rate and its retries. -/
theorem Context.pace_of_steady {c d : Context} (h : d.steady = c.steady) :
    d.retryLeft = c.retryLeft ∧ d.rate = c.rate ∧ d.lastChange = c.lastChange ∧ d.lastRtt = c.lastRtt ∧ d.minRate = c.minRate :=
  ⟨(congrArg Context.retryLeft h :), (congrArg Context.rate h :), (congrArg Context.lastChange h :), (congrArg Context.lastRtt h :),
    (congrArg Context.minRate h :)⟩

/-- A retry is used. -/
def retryUsed (qpn : Nat) (s : State) : State := onCtx qpn (fun c => { c with retryLeft := c.retryLeft - 1 }) s

theorem retryFrom_eq (hleft : 1 < (ctxOf s qpn).retryLeft) :
    retryFrom qpn psn s = halveRate qpn (resendFrom qpn psn (retryUsed qpn s)) := by
  unfold retryFrom
  exact if_neg (Nat.not_le.2 hleft)

/-- A retry that is left is used, the packets leave again, and the rate is halved. -/
theorem retryFrom_leaves (hleft : 1 < (ctxOf s qpn).retryLeft) (hps : s.cmd.ps ≠ 4) :
    (ctxOf (retryFrom qpn psn s) qpn).retryLeft = (ctxOf s qpn).retryLeft - 1 ∧ PacketSent (retryFrom qpn psn s) qpn (.resend psn) ∧
    (ctxOf (retryFrom qpn psn s) qpn).rate =
      if since32 (s.now % 2 ^ 32) (ctxOf s qpn).lastChange < (ctxOf s qpn).lastRtt then (ctxOf s qpn).rate
      else max ((ctxOf s qpn).rate / 2) (ctxOf s qpn).minRate := by
  have hused : ctxOf (retryUsed qpn s) qpn = { ctxOf s qpn with retryLeft := (ctxOf s qpn).retryLeft - 1 } := ctxOf_upd ..
  have hresend (v : State) : Evolves _ v (resendFrom qpn psn v) := resendFrom_evolves .refl Sub.rfl
  have hhalve (v : State) : Evolves _ v (halveRate qpn v) := halveRate_evolves .refl Sub.rfl
  have hnow : (resendFrom qpn psn (retryUsed qpn s)).now = s.now := (hresend _).now_eq (by decide)
  obtain ⟨hretry, hrate, hchange, hrtt, hmin⟩ := Context.pace_of_steady ((ctxSteady_resendFrom (s := retryUsed qpn s) qpn psn).steady qpn)
  obtain ⟨hretry', hrate'⟩ := ctxOf_halveRate (s := resendFrom qpn psn (retryUsed qpn s)) qpn
  have hsent : PacketSent (resendFrom qpn psn (retryUsed qpn s)) qpn (.resend psn) := packetSent_resendFrom (qpn := qpn) hps
  rw [hrate, hchange, hrtt, hmin, hnow, hused] at hrate'
  rw [hretry, hused] at hretry'
  rw [retryFrom_eq hleft]
  exact ⟨hretry', packetSent_mono (hhalve _) hsent, hrate'⟩

theorem lt_of_ctxIndex (h : (ctxIndex qpn).isSome = true) : qpn < 2 ^ 24 := by
  unfold ctxIndex at h
  split at h
  · next hin => exact lt_trans hin.2 (by decide)
  · cases h

/-- Settles O35: a reply in RTS acts on the connection, and a sample, a retry and an ERROR leave the rest of it. -/
theorem requesterPacketsComplete : Obligations.RequesterPacketsComplete := by
  unfold Obligations.RequesterPacketsComplete
  refine ⟨fun qpn psn ecn s hindex hrange hstate hreads hnew => ?acked, fun qpn psn i ecn s hindex hstate hregion husers => ?readsAcked,
    fun qpn psn i ecn data m s hindex hfind hpsn hlast hstate hwork htag hentry => ?readEnds,
    fun qpn psn s hindex hstate hrange hleft hps => ?nakked, fun qpn s hsends hwait hstate hleft hps => ?timedOut,
    fun qpn s hindex hsends hwait hstate hleft => ?exhausted, fun qpn psn timer s hindex hstate hrange hleft => ?notReady,
    fun qpn s hwait hps => ?waited, fun qpn psn s hindex hstate => ?accessError, fun qpn psn s hindex hstate => ?invalidRequest,
    fun qpn s hen hindex hstate => ?congested, fun qpn s hpkts hholds hps => ?coalesced⟩
  case acked =>
    have hecn : Evolves _ s (onEcn qpn ecn s) := onEcn_evolves .refl Sub.rfl
    obtain ⟨hrange', hsends', huna', hstate', hacked'⟩ := onEcn_leaves (s := s) qpn psn ecn
    have hack := acknowledge_eq (s := onEcn qpn ecn s) (hrange'.trans hrange) (by rw [hsends']; exact hreads) (by rw [huna']; exact hnew)
    obtain ⟨huna, hretry, hrnr, hwait, hleft, hrts, _⟩ := acked_endSample (s := onEcn qpn ecn s) qpn psn psn
      (ackedMessages (ctxOf (onEcn qpn ecn s) qpn) psn)
    exact ⟨_, (exec_acknowledge qpn psn ecn s).trans (congrArg Host.Outcome.next ((onReply_runs _ hindex hstate).trans
      (hack.trans (drainCheck_of_rts (hrts.trans (hstate'.trans hstate)))))), huna, hretry.trans (hecn.fld_eq F.XPT_RETRY_CFG_RETRY_CNT (by decide)),
      hrnr.trans (hecn.fld_eq F.XPT_RETRY_CFG_RNR_RETRY (by decide)), hwait, hleft.trans (by rw [hsends', hacked'])⟩
  case readsAcked =>
    have hecn : Evolves _ s (onEcn qpn ecn s) := onEcn_evolves .refl Sub.rfl
    have hregions := regions_of_evolves hecn (by decide)
    obtain ⟨hdone, htold⟩ := endReads_ends (s := onEcn qpn ecn s) (qpn := qpn) (psn := psn) (i := i) (lt_of_ctxIndex hindex)
      (by rw [hregions]; exact hregion) (by rw [hregions]; exact husers)
    rw [hregions] at hdone htold
    refine ⟨_, congrArg Host.Outcome.next (onReply_runs _ hindex hstate), ?_, ?_, ?_, (emitted_now (hecn.now_eq (by decide))).1 htold⟩
    · exact congrArg Region.state hdone
    · exact congrArg Region.users hdone
    · exact congrArg Region.key hdone
  case readEnds =>
    obtain ⟨htag, hi⟩ := htag
    obtain ⟨hlive, hfetching⟩ := hentry
    have hecn : Evolves _ s (onEcn qpn ecn s) := onEcn_evolves .refl Sub.rfl
    obtain ⟨_, _, hctx⟩ := ctxOf_onEcn (s := s) qpn ecn
    have hstands := entryOf_of_evolves hecn (by decide) i
    have hrun := readResponse_last (s := onEcn qpn ecn s) (qpn := qpn) (psn := psn) (data := data) (m := m) (by rw [hctx]; exact hfind)
      (by rw [hctx]; exact hpsn) hlast
    obtain ⟨hdata, huna, hcredit, hsends, hrts, hidle⟩ := readTaken_leaves (s := onEcn qpn ecn s) (qpn := qpn) (psn := psn) (m := m)
      data htag hi (by rw [hstands]; exact hlive) (by rw [hstands]; exact hfetching)
    rw [hstands] at hdata
    rw [hctx] at hcredit hrts hidle
    have hfree (v : State) : Evolves _ v (freeReadCredit qpn v) := freeReadCredit_evolves .refl Sub.rfl
    obtain ⟨huna', hcredit', hsends', hrts'⟩ := freeReadCredit_leaves (hidle.trans hwork)
    refine ⟨_, congrArg Host.Outcome.next ((onReply_runs _ hindex hstate).trans (hrun.trans
      (drainCheck_of_rts (hrts'.trans (hrts.trans hstate))))), ?_, huna'.trans huna, hcredit'.trans (congrArg (· - 1) hcredit), ?_⟩
    · exact (congrArg Entry.data (entryOf_of_evolves (hfree _) (by decide) i)).trans hdata
    · rw [hsends']
      exact hsends
  case nakked =>
    have hrun : onReply qpn psn false (fun s => if ackInRange (ctxOf s qpn) psn then retryFrom qpn psn s else s) s = retryFrom qpn psn s := by
      rw [onReply_runs _ hindex hstate, onEcn_unmarked]
      exact if_pos hrange
    exact ⟨_, congrArg Host.Outcome.next hrun, retryFrom_leaves hleft hps⟩
  case timedOut =>
    exact ⟨_, exec_ackTimeout hsends hwait hstate, retryFrom_leaves hleft hps⟩
  case exhausted =>
    obtain ⟨hfive, htold, hasked⟩ := connError_leaves (cause := 1) (s := retryUsed qpn s) hindex
      (.inl ((congrArg Context.state (ctxOf_upd ..)).trans hstate))
    rw [one_mul] at htold
    exact ⟨_, (exec_ackTimeout hsends hwait (.inl hstate)).trans (congrArg Host.Outcome.next (if_pos hleft)), hfive, htold, hasked⟩
  case notReady =>
    have hrun : rnrNak qpn psn timer.val s = onCtx qpn (fun c => { c with
        rnrLeft := if s.fld F.XPT_RETRY_CFG_RNR_RETRY = 7 then c.rnrLeft else c.rnrLeft - 1
        rnrWait := true, timerGts := s.now + rnrTime timer.val }) s := by
      unfold rnrNak
      dsimp only
      rw [if_neg (by rw [hrange]; decide)]
      exact if_neg fun h => h.1 (hleft.resolve_right (Nat.not_lt.2 h.2))
    refine ⟨_, congrArg Host.Outcome.next ((onReply_runs _ hindex hstate).trans ((congrArg _ (onEcn_unmarked qpn s)).trans hrun)), ?_, ?_, rfl⟩
    · rw [ctxOf_upd]
    · rw [ctxOf_upd]
  case waited =>
    have hsteady := ctxSteady_resendFrom (s := onCtx qpn (fun c => { c with rnrWait := false }) s) qpn (ctxOf s qpn).unaPsn
    refine ⟨_, if_pos hwait, (hsteady.rnrWait qpn).trans ?_, packetSent_resendFrom hps⟩
    rw [ctxOf_upd]
  case accessError =>
    exact ⟨_, congrArg Host.Outcome.next ((onReply_runs _ hindex hstate).trans (congrArg _ (onEcn_unmarked qpn s))),
      connError_leaves hindex (.inl hstate)⟩
  case invalidRequest =>
    exact ⟨_, congrArg Host.Outcome.next ((onReply_runs _ hindex hstate).trans (congrArg _ (onEcn_unmarked qpn s))),
      connError_leaves hindex (.inl hstate)⟩
  case congested =>
    refine ⟨_, congrArg Host.Outcome.next ((onReply_runs _ hindex hstate).trans ((congrArg _ (onEcn_unmarked qpn s)).trans (if_pos hen))), ?_⟩
    exact (ctxOf_onSample ..).1
  case coalesced =>
    obtain ⟨_, hctx⟩ := ctxOf_sendAck (s := s) (qpn := qpn)
    refine ⟨_, if_pos hpkts, packetSent_sendAck hholds hps, ?_⟩
    rw [hctx]

end Sys2Proof.Machine
end

section
/-! PROOFS. O37: the context cache, the invalidation registers and the context window (R88 to R93). -/

namespace Sys2Proof.Machine

variable {s t u : State} {w : List Part} {path : Fin 5} {session : Nat} {value : Word}

/-! What an ERROR leaves of the cache and the regions. -/

/-- The misses counted stand, and a region that is INVALIDATING or FREE is so still. -/
structure RegionsFall (s t : State) : Prop where
  misses : t.xpt.misses = s.xpt.misses
  falls : ∀ i, (s.xpt.regions.at i).state = 2 ∨ (s.xpt.regions.at i).state = 0 →
    (t.xpt.regions.at i).state = 2 ∨ (t.xpt.regions.at i).state = 0

theorem RegionsFall.refl (s : State) : RegionsFall s s := ⟨rfl, fun _ h => h⟩

theorem RegionsFall.trans (h : RegionsFall s t) (h' : RegionsFall t u) : RegionsFall s u :=
  ⟨h'.misses.trans h.misses, fun i hi => h'.falls i (h.falls i hi)⟩

theorem RegionsFall.of_same (hmisses : t.xpt.misses = s.xpt.misses) (hregions : t.xpt.regions = s.xpt.regions) : RegionsFall s t :=
  ⟨hmisses, fun i hi => by rw [hregions]; exact hi⟩

theorem RegionsFall.of_evolves (h : Evolves w s t) (hcache : .contextCache ∉ w) (hregions : .regions ∉ w) : RegionsFall s t := by
  have hsame := h.same .contextCache hcache
  simp only [Part.Same, Prod.mk.injEq] at hsame
  obtain ⟨_, _, _, hmisses, _⟩ := hsame
  exact .of_same hmisses (regions_of_evolves h hregions)

theorem regionsFall_onRegion (i : Nat) (f : Region → Region) (h : (f (s.xpt.regions.at i)).state = (s.xpt.regions.at i).state ∨
    (f (s.xpt.regions.at i)).state = 0) : RegionsFall s (onRegion i f s) := by
  refine ⟨rfl, fun j hj => ?_⟩
  rw [show (onRegion i f s).xpt.regions = s.xpt.regions.upd i f from rfl, Tab.at_upd]
  split
  next hij =>
    subst hij
    exact h.elim (fun hs => hs ▸ hj) .inr
  next => exact hj

theorem regionsFall_finishInvalidation (i : Nat) : RegionsFall s (finishInvalidation i s) := by
  have hemit (src ev sev data : Nat) (v : State) : RegionsFall v (emit src ev sev data v) := .of_same rfl rfl
  have hdone : RegionsFall s (onRegion i Region.invalidated s) := regionsFall_onRegion i _ (.inr rfl)
  unfold finishInvalidation
  dsimp only
  split
  · refine RegionsFall.trans ?_ (hemit ..)
    split
    · exact hdone.trans (.of_same rfl rfl)
    · exact hdone
  · exact .refl s

theorem regionsFall_endStraddle (i qpn : Nat) : RegionsFall s (endStraddle i qpn s) :=
  (regionsFall_onRegion i (fun r => { r with
    users := r.users.erase qpn, straddle := if r.state = 2 then (r.users.erase qpn).length else 0 }) (.inl rfl)).trans
    (regionsFall_finishInvalidation i)

theorem regionsFall_foldl {α : Type} {f : State → α → State} (h : ∀ v x, RegionsFall v (f v x)) (l : List α) : RegionsFall s (l.foldl f s) :=
  foldl_keeps (P := RegionsFall s) (fun v x hv => hv.trans (h v x)) l s (.refl s)

theorem regionsFall_endStraddles (qpn : Nat) : RegionsFall s (endStraddles qpn s) :=
  regionsFall_foldl (fun _ i => regionsFall_foldl (fun _ user => regionsFall_endStraddle i user) _) _

theorem regionsFall_localDisconnect (qpn : Nat) : RegionsFall s (localDisconnect qpn s) := by
  have hfree (v : State) : RegionsFall v (freeContext qpn v) := .of_same rfl rfl
  have hsend : RegionsFall s (s.send (.cmDrep qpn)) := .of_same rfl rfl
  unfold localDisconnect
  dsimp only
  split
  · exact .refl s
  · split
    · exact .of_same rfl rfl
    · exact (hsend.trans (regionsFall_endStraddles qpn)).trans (hfree _)

theorem regionsFall_deleteCtrl (cntlid kind : Nat) : RegionsFall s (deleteCtrl cntlid kind s) := by
  have hends : Evolves _ s (endCommands cntlid s) := endCommands_evolves .refl Sub.rfl
  have htest (v : State) : Evolves _ v (testReset v) := testReset_evolves .refl Sub.rfl
  have hreset (v : State) : Evolves _ v (ctrlReset cntlid kind 0 v) := ctrlReset_evolves .refl Sub.rfl
  have hcmd (f : Cmd → Cmd) (v : State) : RegionsFall v (v.onCmd f) := .of_same rfl rfl
  unfold deleteCtrl
  split
  · exact .refl s
  · exact ((((RegionsFall.of_evolves hends (by decide) (by decide)).trans (.of_evolves (htest _) (by decide) (by decide))).trans
      (hcmd ..)).trans (.of_evolves (hreset _) (by decide) (by decide))).trans
        (regionsFall_foldl (fun _ q => regionsFall_localDisconnect q) _)

theorem regionsFall_bindingLost (c : Context) (say : Bool) : RegionsFall s (bindingLost c say s) := by
  have hends : Evolves _ s (endQueueCommands c.cntlid c.sqid s) := endQueueCommands_evolves .refl Sub.rfl
  have hreset (v : State) : Evolves _ v (ctrlReset c.cntlid 6 c.sqid v) := ctrlReset_evolves .refl Sub.rfl
  have hcmd (f : Cmd → Cmd) (v : State) : RegionsFall v (v.onCmd f) := .of_same rfl rfl
  have hdrop : RegionsFall s (dropQueue c.cntlid c.sqid s) :=
    ((RegionsFall.of_evolves hends (by decide) (by decide)).trans (hcmd ..)).trans (regionsFall_localDisconnect _)
  unfold bindingLost
  split
  · exact .refl s
  · split
    · exact regionsFall_deleteCtrl ..
    · split
      · exact .refl s
      · dsimp only
        split
        · exact hdrop.trans (.of_evolves (hreset _) (by decide) (by decide))
        · exact hdrop

theorem regionsFall_connError (qpn cause : Nat) : RegionsFall s (connError qpn cause s) := by
  have hchains (v : State) : Evolves _ v (failChainsOn qpn cause v) := failChainsOn_evolves .refl Sub.rfl
  have htold : RegionsFall s (errorTold qpn cause s) := .of_same rfl rfl
  unfold connError
  dsimp only
  split
  · exact .refl s
  · exact ((htold.trans (regionsFall_bindingLost ..)).trans (regionsFall_endStraddles qpn)).trans
      (.of_evolves (hchains _) (by decide) (by decide))

/-! The cache (R88). -/

theorem ways_onSet16 (set : Nat) (f : List (Nat × Bool) → List (Nat × Bool)) (s : State) :
    ((onSet16 set f s).xpt.cache.at set).ways = f (s.xpt.cache.at set).ways := by
  rw [show (onSet16 set f s).xpt.cache = s.xpt.cache.upd set fun w => { w with ways := f w.ways } from rfl, Tab.at_upd, if_pos rfl]

theorem exec_contextFill_hit {ctx : Nat} {dirty checkOk : Bool} {way : Nat × Bool}
    (h : (s.xpt.cache.at (cacheSet ctx)).ways.find? (fun w => w.1 == ctx) = some way) : exec (.contextFill ctx dirty checkOk) s =
      .next (onSet16 (cacheSet ctx) (fun ws => (ctx, way.2 || dirty) :: ws.filter (· != way)) s) := by
  change execContextFill ctx dirty checkOk s = _
  unfold execContextFill
  dsimp only
  rw [h]

/-- The miss is counted. -/
def missCounted (s : State) : State := s.onXpt fun x => { x with misses := (x.misses + 1) % 2 ^ 64 }

/-- The context is placed, or waits for a victim to be written back. -/
def fillPlaced (ctx : Nat) (dirty : Bool) (s : State) : State :=
  match fillWay ctx dirty s with
  | some t => t
  | none =>
    (emit 0x551 0x50E 0 (cacheSet ctx) (s.onXpt fun x => { x with fills := x.fills ++ [(ctx, dirty)] })).bump F.XPT_CACHE_STALL_STALLS

theorem exec_contextFill_miss {ctx : Nat} {dirty checkOk : Bool}
    (h : (s.xpt.cache.at (cacheSet ctx)).ways.find? (fun w => w.1 == ctx) = none) : exec (.contextFill ctx dirty checkOk) s =
      .next (if checkOk then fillPlaced ctx dirty (missCounted s) else connError (0x200000 + ctx) 7 (fillPlaced ctx dirty (missCounted s))) := by
  change execContextFill ctx dirty checkOk s = _
  unfold execContextFill
  dsimp only
  rw [h]
  rfl

theorem fillPlaced_room {ctx : Nat} {dirty : Bool} (h : (s.xpt.cache.at (cacheSet ctx)).ways.length < 16) :
    fillPlaced ctx dirty s = cachePlace ctx dirty s := by
  unfold fillPlaced fillWay
  simp only [h, if_true]

/-- A fill leaves the misses, the contexts and the time. -/
theorem fillPlaced_leaves (ctx : Nat) (dirty : Bool) : (fillPlaced ctx dirty s).xpt.misses = s.xpt.misses ∧
    (fillPlaced ctx dirty s).xpt.ctx = s.xpt.ctx ∧ (fillPlaced ctx dirty s).now = s.now := by
  unfold fillPlaced fillWay
  dsimp only
  split
  next t ht =>
    split at ht
    · obtain rfl := Option.some.inj ht
      exact ⟨rfl, rfl, rfl⟩
    · split at ht
      · cases ht
      · obtain rfl := Option.some.inj ht
        split
        · exact ⟨rfl, rfl, rfl⟩
        · exact ⟨rfl, rfl, rfl⟩
  next => exact ⟨rfl, rfl, rfl⟩

theorem exec_victimWriteBack (h : s.xpt.fills = []) :
    exec .victimWriteBack s = .next (s.onXpt fun x => { x with victims := x.victims.drop 1 }) := by
  have hfills : (s.onXpt fun x => { x with victims := x.victims.drop 1 }).xpt.fills = [] := h
  change execVictimWriteBack s = _
  unfold execVictimWriteBack
  dsimp only
  rw [hfills]

/-! Invalidation by register (R89, R90). -/

theorem xpt_gated (path : Fin 5) (session addr : Nat) (value : Word) : (gated path session addr value s).xpt = s.xpt :=
  xpt_of_evolves (writeGate_evolves_refl ..) (by decide)

/-- The region is INVALIDATING, by register, and told. -/
def invStarted (i : Nat) (s : State) : State :=
  let r := s.xpt.regions.at i
  emit 0x554 0x506 0 (i * 256 + r.key)
    (((onRegion i (fun r => { r with state := 2, applyGts := s.now, straddle := (s.xpt.regions.at i).users.length, byCtrl := true }) s).onXpt
      fun x => { x with invCtrl := some (i * 256 + r.key) }).setFld F.XPT_INV_STATUS_FORCED 0)

theorem startInvalidation_byCtrl (i : Nat) : startInvalidation i true s = finishInvalidation i (invStarted i s) := rfl

theorem exec_xptInvCtrl_starts (h : MayWrite path session 0x0500006C s) (hidle : s.xpt.invCtrl = none)
    (hkey : regionIndex value.toNat < 65536) (hvalid : (s.xpt.regions.at (regionIndex value.toNat)).state = 1)
    (hkeyed : (s.xpt.regions.at (regionIndex value.toNat)).key = value.toNat % 256) : exec (.xptInvCtrl path session value) s =
      .next (startInvalidation (regionIndex value.toNat) true (gated path session 0x0500006C value s)) := by
  have hgo : (writeGate path.val session (F.XPT_INV_CTRL_RKEY.addr 0) value s).2 = true := writeGate_performed value h
  have hxpt : (writeGate path.val session (F.XPT_INV_CTRL_RKEY.addr 0) value s).1.xpt = s.xpt := xpt_gated ..
  change execXptInvCtrl path session value s = _
  unfold execXptInvCtrl
  simp only [hgo, hxpt, hidle, hvalid, hkeyed, Nat.not_le.2 hkey, Bool.not_true, Bool.false_eq_true, Option.isSome_none, ne_eq,
    not_true_eq_false, or_self, if_false]
  rfl

theorem exec_xptInvCtrl_busy (h : MayWrite path session 0x0500006C s) (hbusy : s.xpt.invCtrl.isSome = true) :
    exec (.xptInvCtrl path session value) s = .next ((gated path session 0x0500006C value s).setFld F.XPT_INV_STATUS_REFUSED 1) := by
  have hgo : (writeGate path.val session (F.XPT_INV_CTRL_RKEY.addr 0) value s).2 = true := writeGate_performed value h
  have hxpt : (writeGate path.val session (F.XPT_INV_CTRL_RKEY.addr 0) value s).1.xpt = s.xpt := xpt_gated ..
  change execXptInvCtrl path session value s = _
  unfold execXptInvCtrl
  simp only [hgo, hxpt, hbusy, Bool.not_true, Bool.false_eq_true, if_false, if_true]
  rfl

theorem xpt_emit (src ev sev data : Nat) : (emit src ev sev data s).xpt = s.xpt := rfl

theorem invStarted_leaves (i : Nat) : (invStarted i s).xpt.regions.at i = { s.xpt.regions.at i with
    state := 2, applyGts := s.now, straddle := (s.xpt.regions.at i).users.length, byCtrl := true } ∧
    (invStarted i s).xpt.invCtrl = some (i * 256 + (s.xpt.regions.at i).key) ∧ (invStarted i s).fld F.XPT_INV_STATUS_FORCED = 0 ∧
    Emitted s (invStarted i s) 0x554 0 0x506 (i * 256 + (s.xpt.regions.at i).key) := by
  unfold invStarted
  dsimp only
  rw [xpt_emit, State.setFld_xpt, fld_emit, fld_setFld_zero F.XPT_INV_STATUS_FORCED (by decide) (by decide)]
  refine ⟨regionOf_onRegion i (fun r => { r with
    state := 2, applyGts := s.now, straddle := (s.xpt.regions.at i).users.length, byCtrl := true }) s, rfl, rfl, emitted_emit_of _ _ _ _ ?_⟩
  exact (State.now_setFld ..).trans rfl

/-! The limit of an invalidation (R89). -/

/-- The region is forced, and XPT_INV_STATUS tells it where a register began it. -/
def invForced (i : Nat) (s : State) : State :=
  let s' := onRegion i (fun r => { r with forced := true }) s
  if (s.xpt.regions.at i).byCtrl then s'.setFld F.XPT_INV_STATUS_FORCED 1 else s'

/-- The connections that straddle are in ERROR. -/
def straddlersEnded (i : Nat) (s : State) : State :=
  (((s.xpt.regions.at i).users.map (· % 2 ^ 24)).eraseDups).foldl (fun s q => connError q 8 s) (invForced i s)

theorem exec_invLimitReached {i : Nat} (hstate : (s.xpt.regions.at i).state = 2) (husers : (s.xpt.regions.at i).users ≠ []) :
    exec (.invLimitReached i) s = .next (finishInvalidation i (onRegion i (fun r => { r with users := [] }) (straddlersEnded i s))) := by
  change execInvLimitReached i s = _
  unfold execInvLimitReached
  exact if_neg fun h => h.elim (fun hs => hs hstate) husers

theorem invForced_evolves (i : Nat) : Evolves [.regions, .regs, .regXpt] s (invForced i s) := by
  have hregion : Evolves [.regions, .regs, .regXpt] s (onRegion i (fun r => { r with forced := true }) s) :=
    onRegion_evolves .refl (Sub.of Sub.rfl rfl)
  exact .ite (fun _ => state_setFld_evolves hregion (Sub.of Sub.rfl rfl)) fun _ => hregion

theorem regionsFall_invForced (i : Nat) : RegionsFall s (invForced i s) := by
  have hregion : RegionsFall s (onRegion i (fun r => { r with forced := true }) s) := regionsFall_onRegion i _ (.inl rfl)
  unfold invForced
  dsimp only
  split
  · exact hregion.trans (.of_same (congrArg Xpt.misses (State.setFld_xpt ..)) (congrArg Xpt.regions (State.setFld_xpt ..)))
  · exact hregion

/-- A region that nobody uses and that is INVALIDATING or FREE is FREE in the end. -/
theorem finishInvalidation_frees {i : Nat} (h : (s.xpt.regions.at i).state = 2 ∨ (s.xpt.regions.at i).state = 0)
    (husers : (s.xpt.regions.at i).users = []) :
    ((finishInvalidation i s).xpt.regions.at i).state = 0 ∧ ((finishInvalidation i s).xpt.regions.at i).users = [] := by
  rcases h with h | h
  · rw [(finishInvalidation_done h husers).1]
    exact ⟨rfl, husers⟩
  · have hfree : finishInvalidation i s = s := by
      unfold finishInvalidation
      exact if_neg fun hd => by rw [h] at hd; exact absurd hd.1 (by decide)
    rw [hfree]
    exact ⟨h, husers⟩

/-! The context window (R92). -/

theorem ofLe_lt (bs : Bytes) : ofLe bs < 256 ^ bs.length := by
  induction bs with
  | nil => decide
  | cons b bs ih =>
    have hb : b.toNat < 256 := b.isLt
    rw [ofLe, List.length_cons, pow_succ]
    omega

theorem ctxBytes_congr (h : t.cmd = s.cmd) (qpn : Nat) (c : Context) : ctxBytes t qpn c = ctxBytes s qpn c := by
  have hrq : rqTailOf t c = rqTailOf s c := by
    unfold rqTailOf freeSlots queueOf entriesWhere
    rw [h]
  unfold ctxBytes
  rw [hrq]

/-- The bytes of a context in XPT_CTX_DATA. -/
def ctxShown (b : Bytes) (s : State) : State :=
  (List.range 32).foldl (fun s i => s.setFldI F.XPT_CTX_DATA_DATA i (ofLe (slice b (4 * i) 4))) s

/-- The connection is in XPT_CTX_SEL, and the copy is done. -/
def ctxSelected (qpn : Nat) (s : State) : State := (s.setFld F.XPT_CTX_SEL_QPN qpn).setFld F.XPT_CTX_SEL_DONE 1

theorem exec_xptCtxSel (h : MayWrite path session 0x05000078 s) (hindex : (ctxIndex (value.toNat % 2 ^ 24)).isSome = true) :
    exec (.xptCtxSel path session value) s = .next (ctxShown (ctxBytes s (value.toNat % 2 ^ 24) (ctxOf s (value.toNat % 2 ^ 24)))
      (ctxSelected (value.toNat % 2 ^ 24) (gated path session 0x05000078 value s))) := by
  have hgo : (writeGate path.val session (F.XPT_CTX_SEL_QPN.addr 0) value s).2 = true := writeGate_performed value h
  have hbytes : ctxBytes (writeGate path.val session (F.XPT_CTX_SEL_QPN.addr 0) value s).1 (value.toNat % 2 ^ 24)
      (ctxOf (writeGate path.val session (F.XPT_CTX_SEL_QPN.addr 0) value s).1 (value.toNat % 2 ^ 24)) =
        ctxBytes s (value.toNat % 2 ^ 24) (ctxOf s (value.toNat % 2 ^ 24)) := by
    rw [ctxBytes_congr (cmd_writeGate ..), ctxOf_of_evolves (writeGate_evolves_refl ..) (by decide)]
  change execXptCtxSel path session value s = _
  unfold execXptCtxSel
  simp only [hgo, hindex, hbytes, Bool.not_true, Bool.false_eq_true, if_false, if_true]
  rfl

theorem ctxData_addr (i : Nat) (hi : i < 32) : F.XPT_CTX_DATA_DATA.addr i = F.XPT_CTX_DATA_DATA.addr 0 + 4 * i := by
  simp only [Fld.addr, F.XPT_CTX_DATA_DATA]; omega

theorem ctxShown_word (b : Bytes) {i : Nat} (hi : i < 32) :
    (ctxShown b s).fldI F.XPT_CTX_DATA_DATA i = ofLe (slice b (4 * i) 4) := by
  have hlt : ofLe (slice b (4 * i) 4) < 2 ^ 32 := by
    refine lt_of_lt_of_le (ofLe_lt _) ?_
    have hlen : (slice b (4 * i) 4).length ≤ 4 := List.length_take_le ..
    calc 256 ^ (slice b (4 * i) 4).length ≤ 256 ^ 4 := Nat.pow_le_pow_right (by decide) hlen
      _ = 2 ^ 32 := by decide
  refine foldl_meets (P := fun _ : State => True) (Q := fun u : State => u.fldI F.XPT_CTX_DATA_DATA i = ofLe (slice b (4 * i) 4))
    (List.range 32) List.nodup_range (List.mem_range.mpr hi) s trivial (fun _ _ _ _ _ => trivial) (fun u _ => ?_) fun u j hj hne hu => ?_
  · exact (fldI_setFldI_same F.XPT_CTX_DATA_DATA i _ (by decide) (by decide)).trans (Nat.mod_eq_of_lt hlt)
  · have hj := List.mem_range.mp hj
    exact (fldI_setFldI_other _ _ _ _ _ (by rw [ctxData_addr i hi, ctxData_addr j hj]; omega)).trans hu

/-- The window's words leave everything else. -/
theorem ctxShown_leaves (b : Bytes) : (ctxShown b s).xpt = s.xpt ∧
    (ctxShown b s).fld F.XPT_CTX_SEL_DONE = s.fld F.XPT_CTX_SEL_DONE := by
  have hother (j : Nat) (hj : j < 32) : F.XPT_CTX_DATA_DATA.addr j ≠ F.XPT_CTX_SEL_DONE.addr 0 := by
    rw [ctxData_addr j hj]
    simp only [Fld.addr, F.XPT_CTX_DATA_DATA, F.XPT_CTX_SEL_DONE]
    omega
  refine List.foldlRecOn (motive := fun u : State => u.xpt = s.xpt ∧ u.fld F.XPT_CTX_SEL_DONE = s.fld F.XPT_CTX_SEL_DONE) _ _ ⟨rfl, rfl⟩
    fun u hu j hj => ?_
  exact ⟨(State.setFldI_xpt ..).trans hu.1,
    (fldI_setFldI_other F.XPT_CTX_DATA_DATA F.XPT_CTX_SEL_DONE j 0 _ (Ne.symm (hother j (List.mem_range.1 hj)))).trans hu.2⟩

/-- Settles O37: an ERROR leaves the misses and never makes a region VALID, and the window's words are the context's bytes. -/
theorem contextCacheAndInvalidationComplete : Obligations.ContextCacheAndInvalidationComplete := by
  unfold Obligations.ContextCacheAndInvalidationComplete
  refine ⟨fun ctx dirty checkOk way s hway => ?hit, fun ctx dirty s hway hroom => ?miss, fun ctx dirty s hlt hway hstate => ?failed,
    fun s hfills => ?writtenBack, fun path session value s hwrite hidle hkey hvalid hkeyed husers => ?invalidating,
    fun i s hstate husers => ?forced, fun path session value s hwrite hindex => ?window,
    fun i q s hstate husers hindex hrts => ?ended, fun path session value s hwrite hbusy => ?refused⟩
  case hit => exact ⟨_, exec_contextFill_hit hway, ways_onSet16 .., rfl, rfl⟩
  case miss =>
    refine ⟨_, (exec_contextFill_miss hway).trans (congrArg Host.Outcome.next ((if_pos rfl).trans (fillPlaced_room hroom))), ?_, rfl, rfl⟩
    exact ways_onSet16 ..
  case failed =>
    obtain ⟨hmisses, hctx, hnow⟩ := fillPlaced_leaves (s := missCounted s) ctx dirty
    have hindex : (ctxIndex (0x200000 + ctx)).isSome = true := by
      unfold ctxIndex
      rw [if_pos (by omega)]
      rfl
    have hsame : ctxOf (fillPlaced ctx dirty (missCounted s)) (0x200000 + ctx) = s.xpt.ctx.at ctx := by
      unfold ctxOf
      rw [hctx, Nat.add_sub_cancel_left]
      rfl
    obtain ⟨hfive, htold, _⟩ := connError_leaves (cause := 7) (s := fillPlaced ctx dirty (missCounted s)) hindex
      (by rw [hsame]; exact .inl hstate)
    unfold ctxOf at hfive
    rw [Nat.add_sub_cancel_left] at hfive
    exact ⟨_, (exec_contextFill_miss hway).trans (congrArg Host.Outcome.next (if_neg (by decide))), hfive, (emitted_now hnow).1 htold,
      (regionsFall_connError _ 7).misses.trans hmisses⟩
  case writtenBack => exact ⟨_, exec_victimWriteBack hfills, rfl, rfl, rfl⟩
  case invalidating =>
    obtain ⟨hregion, hctrl, hforced, htold⟩ := invStarted_leaves (s := gated path session 0x0500006C value s) (regionIndex value.toNat)
    rw [xpt_gated] at hregion hctrl htold
    rw [hkeyed, show regionIndex value.toNat * 256 + value.toNat % 256 = value.toNat from Nat.div_add_mod' value.toNat 256] at hctrl htold
    have hwaits := finishInvalidation_waits (s := invStarted (regionIndex value.toNat) (gated path session 0x0500006C value s))
      (i := regionIndex value.toNat) (by rw [hregion]; exact husers)
    refine ⟨_, (exec_xptInvCtrl_starts hwrite hidle hkey hvalid hkeyed).trans (congrArg Host.Outcome.next
      ((startInvalidation_byCtrl _).trans hwaits)), ?_, ?_, hctrl, (emitted_now (now_gated ..)).1 htold, hforced⟩
    · rw [hregion]
    · rw [hregion]
      exact now_gated ..
  case forced =>
    have herrors : RegionsFall (invForced i s) (straddlersEnded i s) := regionsFall_foldl (fun _ q => regionsFall_connError q 8) _
    have hregion := regionOf_onRegion i (fun r => { r with users := [] }) (straddlersEnded i s)
    refine ⟨_, exec_invLimitReached hstate husers, finishInvalidation_frees ?_ (congrArg Region.users hregion)⟩
    rw [hregion]
    exact ((regionsFall_invForced i).trans herrors).falls i (.inl hstate)
  case window =>
    obtain ⟨hxpt, hdone⟩ := ctxShown_leaves (s := ctxSelected (value.toNat % 2 ^ 24) (gated path session 0x05000078 value s))
      (ctxBytes s (value.toNat % 2 ^ 24) (ctxOf s (value.toNat % 2 ^ 24)))
    refine ⟨_, exec_xptCtxSel hwrite hindex, hdone.trans ?_, hxpt.trans ?_, fun i => ctxShown_word _ i.isLt⟩
    · exact fld_setFld_one F.XPT_CTX_SEL_DONE (by decide) (by decide)
    · exact (State.setFld_xpt ..).trans ((State.setFld_xpt ..).trans (xpt_gated ..))
  case ended =>
    have hforced := invForced_evolves (s := s) i
    have hone : straddlersEnded i s = connError (q % 2 ^ 24) 8 (invForced i s) := by
      unfold straddlersEnded
      rw [husers]
      rfl
    obtain ⟨hfive, htold, hasked⟩ := connError_leaves (cause := 8) (s := invForced i s) hindex
      (by rw [ctxOf_of_evolves hforced (by decide)]; exact .inl hrts)
    have hfinish (v : State) : Evolves [.events, .counters, .sampling, .contextCache, .regions] v
        (finishInvalidation i (onRegion i (fun r => { r with users := [] }) v)) :=
      finishInvalidation_evolves (onRegion_evolves .refl (Sub.of Sub.rfl rfl)) (Sub.of Sub.rfl rfl)
    rw [← hone] at hfive htold hasked
    refine ⟨_, exec_invLimitReached hstate (by rw [husers]; exact List.cons_ne_nil _ _), ?_, ?_, (hfinish _).sent hasked⟩
    · exact (congrArg Context.state (ctxOf_of_evolves (hfinish _) (by decide) _)).trans hfive
    · exact (hfinish _).emitted_mono (by decide) ((emitted_now (hforced.now_eq (by decide))).1 htold)
  case refused =>
    refine ⟨_, exec_xptInvCtrl_busy hwrite hbusy, fld_setFld_one F.XPT_INV_STATUS_REFUSED (by decide) (by decide), ?_⟩
    exact (State.setFld_xpt ..).trans (xpt_gated ..)

end Sys2Proof.Machine
end

section
/-! PROOFS. What the layout engine's writes leave of the drive ports and of the drives (R150 to R153, R203). -/

namespace Sys2Proof.Machine

variable {s t u : State} {w : List Part}

/-- A port without the commands it has in hand. -/
def DrvPort.steady (p : DrvPort) : DrvPort := { p with
  urgentOut := 0, urgentPages := 0, normalOut := 0, normalPages := 0, urgentWait := [], normalWait := [], heldWrites := [], inRing := [],
  back := [] }

/-- A drive without the chunks it has in use. -/
def Drive.steady (d : Drive) : Drive := { d with used := [] }

/-- What the last durable checkpoint holds, and whether the replay has ended (R143, R145). -/
def Lay.durable (l : Lay) : Nat × Nat × Bool := (l.ckpt.durableGen, l.ckpt.durableJseq, l.replayEnded)

/-- Every port stands but for its commands in hand, every drive but for its chunks in use, and the durable checkpoint. -/
structure DisksStand (s t : State) : Prop where
  ports : ∀ n, (portOf t n).steady = (portOf s n).steady
  drives : ∀ n, (t.lay.drives.at n).steady = (s.lay.drives.at n).steady
  durable : t.lay.durable = s.lay.durable

theorem DisksStand.refl (s : State) : DisksStand s s := ⟨fun _ => rfl, fun _ => rfl, rfl⟩

theorem DisksStand.trans (h : DisksStand s t) (h' : DisksStand t u) : DisksStand s u :=
  ⟨fun n => (h'.ports n).trans (h.ports n), fun n => (h'.drives n).trans (h.drives n), h'.durable.trans h.durable⟩

theorem DisksStand.of_same (hports : t.drv.ports = s.drv.ports) (hdrives : t.lay.drives = s.lay.drives)
    (hdurable : t.lay.durable = s.lay.durable) : DisksStand s t :=
  ⟨fun n => by unfold portOf; rw [hports], fun n => by rw [hdrives], hdurable⟩

theorem drives_of_evolves (h : Evolves w s t) (hw : .mapping ∉ w) : t.lay.drives = s.lay.drives := by
  have hsame := h.same .mapping hw
  simp only [Part.Same, Prod.mk.injEq] at hsame
  obtain ⟨_, _, hdrives, _⟩ := hsame
  exact hdrives

theorem durable_of_evolves (h : Evolves w s t) (hw : .journal ∉ w) : t.lay.durable = s.lay.durable := by
  have hsame := h.same .journal hw
  simp only [Part.Same, Prod.mk.injEq] at hsame
  obtain ⟨_, _, hckpt, _, _, _, hreplay⟩ := hsame
  unfold Lay.durable
  rw [hckpt, hreplay]

theorem DisksStand.of_evolves (h : Evolves w s t) (hports : .drivePorts ∉ w) (hmapping : .mapping ∉ w) (hjournal : .journal ∉ w) :
    DisksStand s t := .of_same (h.same .drivePorts hports) (drives_of_evolves h hmapping) (durable_of_evolves h hjournal)

theorem disksStand_foldl {α : Type} {f : State → α → State} (h : ∀ v x, DisksStand v (f v x)) (l : List α) : DisksStand s (l.foldl f s) :=
  foldl_keeps (P := DisksStand s) (fun v x hv => hv.trans (h v x)) l s (.refl s)

theorem portOf_onPort (n m : Nat) (f : DrvPort → DrvPort) (s : State) :
    portOf (onPort n f s) m = if m = n then f (portOf s n) else portOf s m := Tab.at_upd ..

theorem disksStand_onPort (n : Nat) (f : DrvPort → DrvPort) (h : ∀ p, (f p).steady = p.steady) : DisksStand s (onPort n f s) := by
  refine ⟨fun m => ?_, fun _ => rfl, rfl⟩
  rw [portOf_onPort]
  split
  next hm => rw [h, hm]
  next => rfl

theorem disksStand_onDrive (n : Nat) (f : Drive → Drive) (h : ∀ d, (f d).steady = d.steady) : DisksStand s (onDrive n f s) := by
  refine ⟨fun _ => rfl, fun m => ?_, rfl⟩
  rw [show (onDrive n f s).lay.drives = s.lay.drives.upd n f from rfl, Tab.at_upd]
  split
  next hm => rw [h, hm]
  next => rfl

theorem disksStand_onLay (f : Lay → Lay) (h : (f s.lay).drives = s.lay.drives)
    (hdurable : (f s.lay).durable = s.lay.durable) : DisksStand s (s.onLay f) := .of_same rfl h hdurable

theorem disksStand_onSet (id : Nat) (f : SetRec → SetRec) : DisksStand s (onSet id f s) := .of_same rfl rfl rfl

theorem disksStand_onEntry (i : Nat) (f : Entry → Entry) : DisksStand s (onEntry i f s) := .of_same rfl rfl rfl

theorem disksStand_send (o : Output) : DisksStand s (s.send o) := .of_same rfl rfl rfl

theorem disksStand_emit (src ev sev data : Nat) : DisksStand s (emit src ev sev data s) := .of_same rfl rfl rfl

/-! The commands of a drive. -/

theorem DrvPort.steady_enter (p : DrvPort) (o : Output) : (p.enter o).steady = p.steady := by
  unfold DrvPort.enter
  split <;> rfl

theorem disksStand_enterRing (slot : Nat) (o : Output) : DisksStand s (enterRing slot o s) :=
  (disksStand_onPort slot (·.enter o) fun p => p.steady_enter o).trans (disksStand_send o)

theorem disksStand_drainWaits (slot fuel : Nat) : ∀ s : State, DisksStand s (drainWaits slot fuel s) := by
  induction fuel with
  | zero => exact fun s => .refl s
  | succ fuel ih =>
    intro s
    have hurgent (os : List Output) : DisksStand s (onPort slot (fun p => { p with urgentWait := os }) s) :=
      disksStand_onPort slot _ fun _ => by rfl
    have hnormal (os : List Output) : DisksStand s (onPort slot (fun p => { p with normalWait := os }) s) :=
      disksStand_onPort slot _ fun _ => by rfl
    rw [drainWaits]
    split
    · exact .refl s
    · split
      · split
        · exact ((hurgent _).trans (disksStand_enterRing ..)).trans (ih _)
        · exact .refl s
      · split
        · split
          · exact ((hnormal _).trans (disksStand_enterRing ..)).trans (ih _)
          · exact .refl s
        · exact .refl s

theorem disksStand_drvSubmit (slot : Nat) (urgent : Bool) (o : Output) : DisksStand s (drvSubmit slot urgent o s) := by
  unfold drvSubmit
  split
  · exact .refl s
  · split
    · exact disksStand_onPort slot _ fun _ => by rfl
    · refine DisksStand.trans ?_ (disksStand_drainWaits ..)
      exact disksStand_onPort slot _ fun _ => by split <;> rfl

theorem disksStand_drvWrite (slot : Nat) (urgent : Bool) (lba : Nat) (data : Bytes) : DisksStand s (drvWrite slot urgent lba data s) := by
  unfold drvWrite
  split
  · exact .refl s
  · exact (disksStand_onPort slot (fun p => { p with back := p.back ++ [(lba, (data.length + 4095) / 4096, urgent)] }) fun _ => by rfl).trans
      (disksStand_drvSubmit ..)

theorem disksStand_sendRead (urgent : Bool) (x : UnitIo) : DisksStand s (sendRead urgent s x) := disksStand_drvSubmit ..

theorem disksStand_sendUnit (urgent : Bool) (x : UnitIo) : DisksStand s (sendUnit urgent s x) := disksStand_drvSubmit ..

/-! Records and checkpoints. -/

theorem disksStand_writeCopy (r : JRec) (copy slot : Nat) : DisksStand s (writeCopy r copy slot s).1 := by
  unfold writeCopy
  dsimp only
  refine DisksStand.trans ?_ (disksStand_onLay _ rfl rfl)
  refine DisksStand.trans ?_ (disksStand_drvSubmit ..)
  generalize (if ringBlocks < s.lay.ringPos.at slot + r.blocks then ringBlocks - s.lay.ringPos.at slot else 0) = pad
  split
  · exact .refl s
  · exact disksStand_drvWrite ..

theorem disksStand_writeCopies (r : JRec) (l : List Nat) : ∀ (i : Nat) (s : State), DisksStand s (writeCopies r i l s).1 := by
  induction l with
  | nil => exact fun _ s => .refl s
  | cons d ds ih => exact fun i s => (disksStand_writeCopy r i d).trans (ih (i + 1) _)

/-- A checkpoint that is being written. -/
def Checkpoint.started (c : Checkpoint) (s : State) : Checkpoint := { c with
  busy := true, gen := c.gen + 1, jseq := ckptJseq s, startGts := s.now, pendingSlots := (slotsInService s).take (copiesC s), doneSlots := []
  image := ckptBytes s (c.gen + 1) (ckptJseq s) s.now (tablesAt s (ckptJseq s)), next := tablesAt s (ckptJseq s)
  forDrives := s.lay.drives.keysWhere fun _ d => d.joining }

/-- A checkpoint has begun. -/
def ckptStarted (s : State) : State := s.onLay fun l => { l with ckpt := l.ckpt.started s }

theorem startCheckpoint_eq : startCheckpoint s =
    if s.lay.ckpt.busy ∨ ((slotsInService s).take (copiesC s)).length < copiesC s ∨ !s.lay.replayEnded then s
    else ((slotsInService s).take (copiesC s)).foldl (fun u d => drvSubmit d false (.driveWrite d (regionLba s.lay.ckpt.regionB)
      (s.lay.ckpt.started s).image false) u) (ckptStarted s) := rfl

theorem disksStand_startCheckpoint : DisksStand s (startCheckpoint s) := by
  have hstarted : DisksStand s (ckptStarted s) := .of_same rfl rfl rfl
  rw [startCheckpoint_eq]
  split
  · exact .refl s
  · exact hstarted.trans (disksStand_foldl (fun _ _ => disksStand_drvSubmit ..) _)

theorem disksStand_afterJournal : DisksStand s (afterJournal s) := by
  have hthresholds (v : State) : Evolves _ v (journalThresholds v) := journalThresholds_evolves .refl Sub.rfl
  unfold afterJournal
  dsimp only
  refine DisksStand.trans ?_ (.of_evolves (hthresholds _) (by decide) (by decide) (by decide))
  split
  · exact disksStand_startCheckpoint
  · exact .refl s

theorem disksStand_submitRecord (r : JRec) : DisksStand s (submitRecord r s) := by
  unfold submitRecord
  split
  · exact disksStand_onLay _ rfl rfl
  · dsimp only
    exact (((disksStand_onLay _ rfl rfl).trans (disksStand_writeCopies ..)).trans (disksStand_onLay _ rfl rfl)).trans disksStand_afterJournal

theorem disksStand_ckptCopyFailed (slot : Nat) : DisksStand s (ckptCopyFailed slot s) := by
  have htold (v : State) : DisksStand v (v.setFld F.LAY_CKPT_STAT_FAILED 1) :=
    .of_evolves (state_setFld_evolves .refl Sub.rfl) (by decide) (by decide) (by decide)
  unfold ckptCopyFailed
  dsimp only
  split
  · exact .refl s
  · split
    · exact (disksStand_onLay _ rfl rfl).trans (disksStand_drvSubmit ..)
    · refine DisksStand.trans ?_ (disksStand_emit ..)
      refine DisksStand.trans ?_ (htold _)
      exact .of_same rfl rfl rfl

/-! Sets and what they hold. -/

theorem disksStand_sealIfResolved (id : Nat) : DisksStand s (sealIfResolved id s) := by
  unfold sealIfResolved
  dsimp only
  split
  · refine DisksStand.trans ?_ (disksStand_submitRecord _)
    refine DisksStand.trans (disksStand_foldl (fun v x => ?_) _) (disksStand_onSet ..)
    split
    · exact .refl v
    · exact disksStand_drvWrite ..
  · exact .refl s

theorem disksStand_resolveRows (id rows : Nat) : DisksStand s (resolveRows id rows s) :=
  (disksStand_onSet ..).trans (disksStand_sealIfResolved id)

theorem disksStand_releaseAllocs (l : List Alloc) : DisksStand s (releaseAllocs l s) :=
  disksStand_foldl (fun _ a => disksStand_resolveRows a.set a.rows) l

/-- An entry has left the table and the list of those that wait for the journal. -/
def entryGone (i : Nat) (s : State) : State :=
  (s.onLay fun l => { l with waitingJournal := l.waitingJournal.filter (· != i) }).onCmd fun c => { c with
    table := c.table.put i default, idleFrom := s.now }

theorem freeEntry_eq (i : Nat) (r : Resolution) (s : State) : freeEntry i r s =
    sweepSlots (releaseCells (entryOf (dropLanes i (forgetEntry i (r == .done) (resolve i r s))) i).cells
      (entryGone i (dropLanes i (forgetEntry i (r == .done) (resolve i r s))))) := rfl

theorem disksStand_freeEntry (i : Nat) (r : Resolution) : DisksStand s (freeEntry i r s) := by
  have hresolve (v : State) : Evolves _ v (resolve i r v) := resolve_evolves .refl Sub.rfl
  have hforget (v : State) : Evolves _ v (forgetEntry i (r == .done) v) := forgetEntry_evolves .refl Sub.rfl
  have hlanes (v : State) : Evolves _ v (dropLanes i v) := dropLanes_evolves .refl Sub.rfl
  have hcells (l : List Nat) (v : State) : Evolves _ v (releaseCells l v) := releaseCells_evolves .refl Sub.rfl
  have hslots (v : State) : Evolves _ v (sweepSlots v) := sweepSlots_evolves .refl Sub.rfl
  have hgone (v : State) : DisksStand v (entryGone i v) := .of_same rfl rfl rfl
  rw [freeEntry_eq]
  refine DisksStand.trans ?_ (.of_evolves (hslots _) (by decide) (by decide) (by decide))
  refine DisksStand.trans ?_ (.of_evolves (hcells _ _) (by decide) (by decide) (by decide))
  refine DisksStand.trans ?_ (hgone _)
  refine DisksStand.trans ?_ (.of_evolves (hlanes _) (by decide) (by decide) (by decide))
  refine DisksStand.trans ?_ (.of_evolves (hforget _) (by decide) (by decide) (by decide))
  exact .of_evolves (hresolve _) (by decide) (by decide) (by decide)

theorem disksStand_toPosting (i : Nat) (st : Status) (dw0 : Nat) : DisksStand s (toPosting i st dw0 s) := disksStand_onEntry ..

theorem disksStand_dropOwn (i : Nat) : DisksStand s (dropOwn i s) := (disksStand_releaseAllocs _).trans (disksStand_freeEntry ..)

theorem disksStand_failOwn (i : Nat) : DisksStand s (failOwn i s) := by
  have hfix (f : Fix → Fix) (v : State) : DisksStand v (v.onFix f) := .of_same rfl rfl rfl
  unfold failOwn
  dsimp only
  split
  · exact disksStand_dropOwn i
  · exact (disksStand_dropOwn i).trans (hfix ..)

theorem disksStand_onRec (jseq : Nat) (f : JRec → JRec) : DisksStand s (onRec jseq f s) := .of_same rfl rfl rfl

theorem disksStand_moveCopy (jseq slot : Nat) : DisksStand s (moveCopy jseq slot s) := by
  have hjournal (f : List JRec → List JRec) (v : State) : DisksStand v (v.onLay fun l => { l with journal := f l.journal }) := .of_same rfl rfl rfl
  have hdeferred (f : Lay → List JRec) (v : State) : DisksStand v (v.onLay fun l => { l with deferred := f l }) := .of_same rfl rfl rfl
  unfold moveCopy
  dsimp only
  split
  · exact .refl s
  · split
    · exact (disksStand_writeCopy ..).trans (disksStand_onRec ..)
    · split
      · split
        · exact (hjournal ..).trans (disksStand_failOwn _)
        · split
          · exact (((hjournal ..).trans (disksStand_onEntry ..)).trans (disksStand_releaseAllocs _)).trans (disksStand_freeEntry ..)
          · exact (((hjournal ..).trans (disksStand_onEntry ..)).trans (disksStand_releaseAllocs _)).trans (disksStand_toPosting ..)
      · split
        · exact disksStand_onRec ..
        · refine DisksStand.trans ?_ (hdeferred ..)
          exact hjournal ..

theorem disksStand_startSeal (id reason : Nat) : DisksStand s (startSeal id reason s) := by
  unfold startSeal
  split
  · exact (disksStand_onSet ..).trans (disksStand_sealIfResolved id)
  · exact .refl s

theorem disksStand_takeChunk (s : State) (m : Member) : DisksStand s (takeChunk s m) := disksStand_onDrive m.slot _ fun _ => by rfl

theorem disksStand_releaseChunk (s : State) (m : Member) : DisksStand s (releaseChunk s m) := disksStand_onDrive m.slot _ fun _ => by rfl

theorem disksStand_takeRows (id rows bytes : Nat) : DisksStand s (takeRows id rows bytes s).1 := by
  have hextent (v : State) : DisksStand v (v.onLay fun l => { l with extentNext := l.extentNext + 1 }) := .of_same rfl rfl rfl
  unfold takeRows
  dsimp only
  split
  · exact ((hextent _).trans (disksStand_onSet ..)).trans (disksStand_startSeal ..)
  · exact (hextent _).trans (disksStand_onSet ..)

theorem disksStand_openSet (nsid : Nat) : DisksStand s (openSet nsid s).1 := by
  have hfull : DisksStand s (if 1024 ≤ (setsIn s .opened).length then
      (match oldestOpen s with | some id => startSeal id 2 s | none => s) else s) := by
    split
    · split
      · exact disksStand_startSeal ..
      · exact .refl s
    · exact .refl s
  unfold openSet
  dsimp only
  refine DisksStand.trans ?_ (disksStand_submitRecord _)
  refine DisksStand.trans ?_ (disksStand_onSet ..)
  refine DisksStand.trans ?_ (disksStand_foldl disksStand_takeChunk _)
  exact hfull

theorem disksStand_allocate (nsid fuel : Nat) : ∀ (bytes : Nat) (s : State) (r : State × List Alloc),
    allocate fuel nsid bytes s = .ok r → DisksStand s r.1 := by
  induction fuel with
  | zero => exact fun _ _ _ h => by rw [allocate] at h; cases h
  | succ fuel ih =>
    intro bytes s r h
    rw [allocate] at h
    dsimp only at h
    split at h
    · cases h; exact .refl s
    · split at h
      · split at h
        · cases h
        · next v as hrest =>
          have hlater := ih _ _ _ hrest
          cases h
          exact (disksStand_takeRows ..).trans hlater
      · split at h
        · cases h
        · exact (disksStand_openSet nsid).trans (ih _ _ _ h)

theorem disksStand_allocateOne (nsid bytes : Nat) {r : State × List Alloc} (h : allocateOne nsid bytes s = .ok r) : DisksStand s r.1 := by
  unfold allocateOne at h
  dsimp only at h
  split at h
  · cases h; exact .refl s
  · split at h
    · cases h
      exact disksStand_takeRows _ _ bytes
    · split at h
      · cases h
      · have hopened := disksStand_openSet (s := s) nsid
        generalize openSet nsid s = o at h hopened
        obtain ⟨v, id⟩ := o
        rw [← Except.ok.inj h]
        exact hopened.trans (disksStand_takeRows _ _ bytes)

theorem disksStand_allocateFor (cap : Capsule) {r : State × List Alloc} (h : allocateFor cap s = .ok r) : DisksStand s r.1 := by
  unfold allocateFor at h
  dsimp only at h
  split at h
  · cases h
  · next t as hr =>
    split at h
    · cases h
    · rw [← Except.ok.inj h]
      split at hr
      · exact disksStand_allocateOne _ _ hr
      · exact disksStand_allocate _ 4096 _ _ _ hr

theorem disksStand_submitUnits (i : Nat) : DisksStand s (submitUnits i s) := by
  unfold submitUnits
  exact (disksStand_onEntry ..).trans (disksStand_foldl (fun _ _ => disksStand_sendUnit ..) _)

theorem disksStand_rewriteRows (i : Nat) : DisksStand s (rewriteRows i s) := by
  have hredo (v : State) : Evolves _ v (redo i v) := redo_evolves .refl Sub.rfl
  have hspace (why : NoSpace) (v : State) : Evolves _ v (noSpace i why v) := noSpace_evolves .refl Sub.rfl
  have hjournal (f : List JRec → List JRec) (v : State) : DisksStand v (v.onLay fun l => { l with journal := f l.journal }) := .of_same rfl rfl rfl
  have hrest {v : State} (h : DisksStand s v) (b : Bool) (cap : Capsule) : DisksStand s (match allocateFor cap v with
      | .error why => if ownFrom ≤ i then failOwn i v else noSpace i why v
      | .ok (v, as) => if b then submitUnits i (onEntry i (fun e => { e with allocs := as }) v)
        else onEntry i (fun e => { e with allocs := as }) v) := by
    refine h.trans ?_
    split
    · split
      · exact disksStand_failOwn i
      · exact .of_evolves (hspace _ _) (by decide) (by decide) (by decide)
    · next v' as hok =>
      have hallocated := (disksStand_allocateFor cap hok).trans (disksStand_onEntry i fun e => { e with allocs := as })
      split
      · exact hallocated.trans (disksStand_submitUnits i)
      · exact hallocated
  unfold rewriteRows
  dsimp only
  split
  · exact ((((hjournal ..).trans (disksStand_onEntry ..)).trans (disksStand_releaseAllocs _)).trans
      (.of_evolves (hredo _) (by decide) (by decide) (by decide))).trans (disksStand_failOwn i)
  · exact hrest ((((hjournal ..).trans (disksStand_onEntry ..)).trans (disksStand_releaseAllocs _)).trans
      (.of_evolves (hredo _) (by decide) (by decide) (by decide))) _ _

theorem disksStand_copyFailed (slot jseq : Nat) : DisksStand s (copyFailed slot s jseq) := by
  unfold copyFailed
  split
  · exact .refl s
  · split
    · split
      · exact disksStand_rewriteRows _
      · exact disksStand_moveCopy ..
    · exact disksStand_moveCopy ..

/-! Rebuilds and reads. -/

theorem disksStand_dropTarget (p : Nat → Nat → Member → Bool) : DisksStand s (dropTarget p s) := by
  unfold dropTarget
  split
  · split
    · refine DisksStand.trans ?_ (disksStand_releaseChunk _ _)
      exact .of_same rfl rfl rfl
    · exact .refl s
  · exact .refl s

theorem disksStand_nextRebuild : DisksStand s (nextRebuild s) := by
  have hends (v : State) : Evolves _ v (rebuildEnds v) := rebuildEnds_evolves .refl Sub.rfl
  have hrebuild (f : Lay → Rebuild) (v : State) : DisksStand v (v.onLay fun l => { l with rebuild := f l }) := .of_same rfl rfl rfl
  have hsaid (n : Nat) : DisksStand s (if s.lay.rebuild.waiting < n then emit 0x572 0x705 3 (n * 256) s else s) := by
    split
    · exact disksStand_emit ..
    · exact .refl s
  unfold nextRebuild
  dsimp only
  split
  · exact .refl s
  · split
    · exact ((hsaid _).trans (hrebuild ..)).trans (.of_evolves (hends _) (by decide) (by decide) (by decide))
    · split
      · exact (((hsaid _).trans (hrebuild ..)).trans (hrebuild ..)).trans (disksStand_takeChunk ..)
      · exact (hsaid _).trans (hrebuild ..)

theorem disksStand_startRebuild (slot : Nat) : DisksStand s (startRebuild slot s) := by
  have hrebuild (f : Lay → Rebuild) (v : State) : DisksStand v (v.onLay fun l => { l with rebuild := f l }) := .of_same rfl rfl rfl
  unfold startRebuild
  dsimp only
  split
  · exact .refl s
  · exact ((hrebuild ..).trans (disksStand_emit ..)).trans disksStand_nextRebuild

theorem disksStand_readDone (h : DisksStand s t) (i : Nat) : DisksStand s (if (entryOf t i).readsOut.isEmpty then readDone i t else t) := by
  have hdone : Evolves _ t (readDone i t) := readDone_evolves .refl Sub.rfl
  split
  · exact h.trans (.of_evolves hdone (by decide) (by decide) (by decide))
  · exact h

theorem disksStand_advanceRead (i : Nat) : DisksStand s (advanceRead i s) := by
  have hsent (urgent : Bool) (l : List UnitIo) : DisksStand s (l.foldl (sendRead urgent) s) :=
    disksStand_foldl (fun _ x => disksStand_sendRead urgent x) l
  unfold advanceRead
  dsimp only
  split
  · exact disksStand_toPosting ..
  · refine disksStand_readDone ?_ i
    exact DisksStand.trans (hsent ..) (disksStand_onEntry ..)

/-! Journal steps. -/

theorem disksStand_journalStep (i : Nat) : DisksStand s (journalStep i s) := by
  have hwait : DisksStand s (waitJournal i s) := .of_same rfl rfl rfl
  have hlist (f : List Nat → List Nat) (v : State) : DisksStand v (v.onLay fun l => { l with waitingJournal := f l.waitingJournal }) :=
    .of_same rfl rfl rfl
  unfold journalStep
  dsimp only
  split
  · exact disksStand_dropOwn i
  · split
    · split
      · exact hwait
      · exact ((disksStand_onEntry ..).trans (disksStand_releaseAllocs _)).trans (disksStand_toPosting ..)
    · split
      · exact hwait
      · exact (((hlist ..).trans (disksStand_onEntry ..)).trans (disksStand_submitRecord _)).trans
          (disksStand_foldl (fun _ r => disksStand_submitRecord r) _)

theorem disksStand_releaseWaiting : DisksStand s (releaseWaiting s) := disksStand_foldl (fun _ i => disksStand_journalStep i) _

theorem disksStand_releaseDeferred : DisksStand s (releaseDeferred s) := by
  have hlist (v : State) : DisksStand v (v.onLay fun l => { l with deferred := [] }) := .of_same rfl rfl rfl
  unfold releaseDeferred
  dsimp only
  split
  · exact .refl s
  · exact ((hlist s).trans (disksStand_foldl (fun _ r => disksStand_submitRecord r) _)).trans disksStand_releaseWaiting

/-! A drive lost and a drive ready. -/

/-- Every port stands but for its commands in hand, and so does the durable checkpoint. -/
structure PortsStand (s t : State) : Prop where
  ports : ∀ n, (portOf t n).steady = (portOf s n).steady
  durable : t.lay.durable = s.lay.durable

theorem DisksStand.portsStand (h : DisksStand s t) : PortsStand s t := ⟨h.ports, h.durable⟩

theorem PortsStand.refl (s : State) : PortsStand s s := ⟨fun _ => rfl, rfl⟩

theorem PortsStand.trans (h : PortsStand s t) (h' : PortsStand t u) : PortsStand s u :=
  ⟨fun n => (h'.ports n).trans (h.ports n), h'.durable.trans h.durable⟩

theorem PortsStand.of_same (h : t.drv.ports = s.drv.ports) (hdurable : t.lay.durable = s.lay.durable) : PortsStand s t :=
  ⟨fun n => by unfold portOf; rw [h], hdurable⟩

theorem portsStand_layDriveLost (slot : Nat) : PortsStand s (layDriveLost slot s) := by
  have hana (v : State) : Evolves _ v (updateAna v) := updateAna_evolves .refl Sub.rfl
  unfold layDriveLost
  extract_lets d sets before s1 s2 s3 s4 s5 hit hit' s6 js s7 s8 readers s9 gone s10
  split
  · exact .of_same rfl rfl
  split
  · exact .refl s
  have h2 : PortsStand s s2 := .of_same rfl rfl
  have h3 : DisksStand s2 s3 := disksStand_foldl (fun _ _ => disksStand_onSet ..) _
  have h4 : DisksStand s3 s4 := disksStand_foldl (fun _ _ => disksStand_startSeal ..) _
  have h5 : DisksStand s4 s5 := disksStand_dropTarget _
  have h6 : DisksStand s5 s6 := disksStand_foldl (fun _ i => disksStand_rewriteRows i) _
  have h7 : DisksStand s6 s7 := disksStand_foldl (fun _ j => disksStand_copyFailed slot j) _
  have h8 : DisksStand s7 s8 := disksStand_ckptCopyFailed slot
  have h9 : DisksStand s8 s9 := disksStand_foldl (fun _ i => (disksStand_onEntry ..).trans (disksStand_advanceRead i)) _
  have h10 : DisksStand s9 s10 := disksStand_foldl (fun _ _ => disksStand_emit ..) _
  have h11 : DisksStand s10 (updateAna s10) := .of_evolves (hana s10) (by decide) (by decide) (by decide)
  clear_value s2 s3 s4 s5 s6 s7 s8 s9 s10
  exact h2.trans ((((((((h3.trans h4).trans h5).trans h6).trans h7).trans h8).trans h9).trans h10).trans
    (h11.trans (disksStand_startRebuild slot))).portsStand

theorem portsStand_moveDrive (old new : Nat) : PortsStand s (moveDrive old new s) := by
  unfold moveDrive
  split
  · exact .refl s
  · exact .of_same rfl rfl

theorem portsStand_clearSlot (slot : Nat) : PortsStand s (clearSlot slot s) := by
  unfold clearSlot
  split
  · exact portsStand_moveDrive ..
  · exact .refl s

theorem portsStand_formatDrive (slot lbaCount : Nat) : PortsStand s (formatDrive slot lbaCount s) := by
  unfold formatDrive
  split
  · exact .refl s
  split
  · exact .refl s
  extract_lets s1 blank d s2 s3 s4 s5
  have h1 : PortsStand s s1 := portsStand_clearSlot slot
  have h3 : PortsStand s1 s3 := .of_same rfl rfl
  have h4 : DisksStand s3 s4 := disksStand_drvWrite ..
  have h5 : DisksStand s4 s5 := disksStand_drvWrite ..
  clear_value s3 s4 s5
  exact (h1.trans h3).trans ((h4.trans h5).trans
    ((disksStand_startCheckpoint.trans disksStand_releaseDeferred).trans disksStand_nextRebuild)).portsStand

theorem portsStand_layDriveReady (slot lbaCount : Nat) (sb : Option (Bool × Nat)) : PortsStand s (layDriveReady slot lbaCount sb s) := by
  have hdrive (f : Drive → Drive) (v : State) : PortsStand v (onDrive slot f v) := .of_same rfl rfl
  have hrefused (f : Drive → Drive) : PortsStand s (onDrive slot f (clearSlot slot s)) := (portsStand_clearSlot slot).trans (hdrive ..)
  unfold layDriveReady
  dsimp only
  split
  · exact .refl s
  · split
    · split
      · exact portsStand_formatDrive ..
      · exact hrefused _
    · exact hrefused _
    · split
      · exact hrefused _
      · next old _ =>
        have hmoved : PortsStand s (if old = slot then s else moveDrive old slot (clearSlot slot s)) := by
          split
          · exact .refl s
          · exact (portsStand_clearSlot slot).trans (portsStand_moveDrive ..)
        generalize (if old = slot then s else moveDrive old slot (clearSlot slot s)) = v at hmoved ⊢
        split
        · exact hmoved
        · exact hmoved.trans (hdrive ..)

theorem portsStand_releaseWrites (slot : Nat) : PortsStand s (releaseWrites slot s) := by
  have hcleared : DisksStand s (onPort slot (fun p => { p with heldWrites := [] }) s) := disksStand_onPort slot _ fun _ => by rfl
  exact (hcleared.trans (disksStand_foldl (fun _ _ => disksStand_drvSubmit ..) _)).portsStand

/-! Ports that go down. -/

/-- A port that has gone down. -/
def DrvPort.down (new : Nat) (p : DrvPort) : DrvPort := { p with
  state := new, speed := 0, width := 0, holder := false, step := 0, attempts := 0, relinking := false, asked := 0
  perstReleased := false, urgentOut := 0, urgentPages := 0, normalOut := 0, normalPages := 0
  urgentWait := [], normalWait := [], heldWrites := [], inRing := [], back := [], mps := 0, l1 := false }

theorem portDown_eq (slot new : Nat) (s : State) :
    portDown slot new s = if served s slot then layDriveLost slot (onPort slot (·.down new) s) else onPort slot (·.down new) s := rfl

theorem portOf_onPort_same (n : Nat) (f : DrvPort → DrvPort) (s : State) : portOf (onPort n f s) n = f (portOf s n) := by
  rw [portOf_onPort, if_pos rfl]

theorem steady_portDown (slot new : Nat) (s : State) : (portOf (portDown slot new s) slot).steady = ((portOf s slot).down new).steady := by
  rw [portDown_eq]
  split
  · rw [(portsStand_layDriveLost slot).ports, portOf_onPort_same]
  · rw [portOf_onPort_same]

theorem portDown_unserved {slot new : Nat} (h : served s slot = false) : portDown slot new s = onPort slot (·.down new) s := by
  rw [portDown_eq, h]; rfl

end Sys2Proof.Machine
end

section
/-! PROOFS. Presence, training and the bring-up of a drive (chapter 6). -/

namespace Sys2Proof.Machine

variable {s t u : State} {w : List Part}

theorem portOf_of_evolves (h : Evolves w s t) (hw : .drivePorts ∉ w) (n : Nat) : portOf t n = portOf s n := by
  have hports : t.drv.ports = s.drv.ports := h.same .drivePorts hw
  unfold portOf
  rw [hports]

theorem slots_of_evolves (h : Evolves w s t) (hw : .driveSlots ∉ w) : t.drv.slots = s.drv.slots := by
  have hsame := h.same .driveSlots hw
  simp only [Part.Same, Prod.mk.injEq] at hsame
  exact hsame.1

theorem slotOf_onSlotBand_same (n : Nat) (f : DrvSlot → DrvSlot) (s : State) :
    (onSlotBand n f s).drv.slots.at n = f (s.drv.slots.at n) := (Tab.at_upd ..).trans (if_pos rfl)

theorem portOf_onSlotBand (m n : Nat) (f : DrvSlot → DrvSlot) (s : State) : portOf (onSlotBand n f s) m = portOf s m := rfl

theorem slots_onPort (n : Nat) (f : DrvPort → DrvPort) (s : State) : (onPort n f s).drv.slots = s.drv.slots := rfl

theorem portOf_emit (src ev sev data m : Nat) (s : State) : portOf (emit src ev sev data s) m = portOf s m :=
  portOf_of_evolves (emit_evolves .refl Sub.rfl) (by decide) m

theorem served_of_portOf {n : Nat} (h : portOf t n = portOf s n) : served t n = served s n := by unfold served; rw [h]

theorem fldI_bumpI (f : Fld) (i n : Nat) (h : f.lo ≤ f.hi) (hh : f.hi < 32) :
    (s.bumpI f i n).fldI f i = min f.max (s.fldI f i + n) := by
  refine (fldI_setFldI_same f i _ h hh).trans (Nat.mod_eq_of_lt ?_)
  exact lt_of_le_of_lt (min_le_left _ _) (Nat.sub_lt (Nat.two_pow_pos _) Nat.one_pos)

/-! Ports that go down or fail. -/

theorem state_portDown (slot new : Nat) (s : State) : (portOf (portDown slot new s) slot).state = new :=
  congrArg DrvPort.state (steady_portDown slot new s)

/-- A port that has failed. -/
def DrvPort.failed (again : Bool) (cause : Nat) (p : DrvPort) : DrvPort := { p with
  recovering := again, trip8 := cause == 8, refClock := if cause = 8 then false else p.refClock }

theorem portFail_eq (slot cause : Nat) (recover : Bool) (s : State) : portFail slot cause recover s =
    if recover && mayRecover s slot cause then
      portReset slot (onPort slot (·.failed (recover && mayRecover s slot cause) cause) (portDown slot 7 (emit (drvSrc slot) 0x905 3 cause s)))
    else onPort slot (·.failed (recover && mayRecover s slot cause) cause) (portDown slot 7 (emit (drvSrc slot) 0x905 3 cause s)) := rfl

theorem state_portReset (slot : Nat) (s : State) : (portOf (portReset slot s) slot).state = 2 :=
  congrArg DrvPort.state (portOf_onPort_same ..)

theorem portFail_leaves (slot cause : Nat) (recover : Bool) (s : State) :
    Emitted s (portFail slot cause recover s) (0x200 + slot) 3 0x905 cause ∧
    (portOf (portFail slot cause recover s) slot).state = if recover && mayRecover s slot cause then 2 else 7 := by
  have hdown' (v : State) : Evolves _ v (portDown slot 7 v) := portDown_evolves .refl Sub.rfl
  have htold : Emitted s (portDown slot 7 (emit (drvSrc slot) 0x905 3 cause s)) (0x200 + slot) 3 0x905 cause :=
    (hdown' _).emitted_mono (by decide) (emitted_emit (0x200 + slot) 0x905 3 cause s)
  have hdown := state_portDown slot 7 (emit (drvSrc slot) 0x905 3 cause s)
  rw [portFail_eq]
  generalize portDown slot 7 (emit (drvSrc slot) 0x905 3 cause s) = v at htold hdown ⊢
  split
  · exact ⟨htold, state_portReset ..⟩
  · exact ⟨htold, (congrArg DrvPort.state (portOf_onPort_same ..)).trans hdown⟩

theorem disablePort_leaves {n : Nat} (h : (portOf s n).state ≠ 0 ∧ (portOf s n).state ≠ 9 ∧ (portOf s n).state ≠ 10) :
    (portOf (disablePort n s) n).state = 8 ∧ (portOf (disablePort n s) n).perstReleased = false ∧
    (portOf (disablePort n s) n).recovering = false := by
  have hdown := steady_portDown n 8 s
  unfold disablePort
  dsimp only
  rw [if_neg (by simp [h]), portOf_onPort_same]
  generalize portOf (portDown n 8 s) n = p at hdown ⊢
  exact ⟨congrArg DrvPort.state hdown, congrArg DrvPort.perstReleased hdown, rfl⟩

theorem fenceRootPort_leaves {slot reason : Nat} (h : (portOf s slot).state = 7) :
    (portOf (fenceRootPort slot reason s) slot).state = 7 ∨ (portOf (fenceRootPort slot reason s) slot).state = 9 := by
  unfold fenceRootPort
  split
  · exact .inl h
  · exact .inr (state_portDown ..)

theorem trainingFailed_leaves {slot : Nat} (halone : inGroup s = false) :
    Emitted s (trainingFailed slot s) (0x200 + slot) 3 0x905 5 ∧
    ((portOf (trainingFailed slot s) slot).state = 7 ∨ (portOf (trainingFailed slot s) slot).state = 9) := by
  obtain ⟨htold, hstate⟩ := portFail_leaves slot 5 false s
  rw [Bool.false_and, if_neg Bool.false_ne_true] at hstate
  have hfence (v : State) : Evolves _ v (fenceRootPort slot 5 v) := fenceRootPort_evolves .refl Sub.rfl
  unfold trainingFailed
  dsimp only
  rw [halone, if_neg Bool.false_ne_true]
  generalize portFail slot 5 false s = v at htold hstate ⊢
  split
  · split
    · exact ⟨(hfence v).emitted_mono (by decide) htold, fenceRootPort_leaves hstate⟩
    · exact ⟨htold, .inl hstate⟩
  · exact ⟨htold, .inl ((congrArg DrvPort.state (portOf_onPort_same ..)).trans hstate)⟩

/-! Presence. -/

theorem presenceSeated_runs {slot : Fin 48} (h : (s.drv.slots.at slot.val).seated = false) (hstate : (portOf s slot.val).state = 0)
    (hup : pwrdisUp s slot.val = false) : exec (.presenceSeated slot) s = .next (legSeated slot.val (emit (drvSrc slot.val) 0x901 0 0
      (onPort slot.val (fun p => { p with state := 1 })
        (onSlotBand slot.val (fun b => { b with prsnt0 := true, prsnt1 := true, seated := true, fru := false }) s)))) := by
  change execPresenceSeated slot s = _
  have hempty : (portOf (onSlotBand slot.val (fun b => { b with prsnt0 := true, prsnt1 := true, seated := true, fru := false }) s)
      slot.val).state = 0 := hstate
  have hband := slotOf_onSlotBand_same slot.val (fun b => { b with prsnt0 := true, prsnt1 := true, seated := true, fru := false }) s
  generalize hv : onSlotBand slot.val (fun b => { b with prsnt0 := true, prsnt1 := true, seated := true, fru := false }) s = v at hempty hband
  have hslots : pwrdisUp (emit (drvSrc slot.val) 0x901 0 0 (onPort slot.val (fun p => { p with state := 1 }) v)) slot.val = false := by
    have hsame := slots_of_evolves (emit_evolves .refl Sub.rfl : Evolves _ (onPort slot.val (fun p => { p with state := 1 }) v)
      (emit (drvSrc slot.val) 0x901 0 0 (onPort slot.val (fun p => { p with state := 1 }) v))) (by decide)
    unfold pwrdisUp at hup ⊢
    rw [hsame, show (onPort slot.val (fun p => { p with state := 1 }) v).drv.slots = v.drv.slots from rfl, hband]
    exact hup
  unfold execPresenceSeated
  dsimp only
  rw [if_neg (by simp [h]), hv, if_pos hempty, hslots]
  rfl

/-- A band that hears its partner's PWRDIS line. -/
def DrvSlot.wired (line : Bool) (b : DrvSlot) : DrvSlot := { b with partnerPwrdis := if b.pwrdis then b.partnerPwrdis else line }

theorem partnerDrives_eq (n : Nat) (line : Bool) (s : State) : partnerDrives n line s =
    if pwrdisUp (onSlotBand n (·.wired line) s) n && !pwrdisUp s n then disablePort n (onSlotBand n (·.wired line) s)
    else if pwrdisUp s n && !pwrdisUp (onSlotBand n (·.wired line) s) n && (portOf s n).state == 8 then
      portReset n (onSlotBand n (·.wired line) s)
    else onSlotBand n (·.wired line) s := rfl

theorem pwrdisUp_wired (n : Nat) (line : Bool) (s : State) :
    pwrdisUp (onSlotBand n (·.wired line) s) n = ((s.drv.slots.at n).pwrdis || if (s.drv.slots.at n).pwrdis then (s.drv.slots.at n).partnerPwrdis else line) := by
  unfold pwrdisUp
  rw [slotOf_onSlotBand_same]
  rfl

/-- A line that stands as it was heard leaves the port. -/
theorem partnerDrives_unchanged {n : Nat} {line : Bool} (h : line = (s.drv.slots.at n).partnerPwrdis) :
    partnerDrives n line s = onSlotBand n (·.wired line) s := by
  have hup : pwrdisUp (onSlotBand n (·.wired line) s) n = pwrdisUp s n := by
    rw [pwrdisUp_wired, h]
    unfold pwrdisUp
    simp
  rw [partnerDrives_eq, hup]
  cases pwrdisUp s n <;> rfl

theorem partnerDrives_raised {n : Nat} (h : pwrdisUp s n = false) :
    partnerDrives n true s = disablePort n (onSlotBand n (·.wired true) s) := by
  rw [partnerDrives_eq, pwrdisUp_wired, h]
  cases hown : (s.drv.slots.at n).pwrdis
  · rfl
  · simp [pwrdisUp, hown] at h

/-- A port that goes down and whose history ends. -/
def portForgotten (n new : Nat) (s : State) : State :=
  onPort n (fun p => { p with recovering := false, returnGts := 0, trip8 := false }) (portDown n new s)

/-- A port's list of media errors is empty. -/
def DrvPort.mediaCleared (p : DrvPort) : DrvPort := { p with mediaTimes := [] }

/-- A band without its drive. -/
def DrvSlot.unseated (b : DrvSlot) : DrvSlot := { b with seated := false, serial := none }

theorem removeDrive_eq {n : Nat} (h : (portOf s n).state ≠ 0 ∧ (portOf s n).state ≠ 9 ∧ (portOf s n).state ≠ 10) :
    removeDrive n s = legRemoved n (onPort n (·.mediaCleared)
      (portForgotten n 0 (emit (drvSrc n) 0x903 1 (portOf s n).state (onSlotBand n (·.unseated) s)))) :=
  congrArg (fun v => legRemoved n (onPort n (·.mediaCleared) v)) (if_neg (by rw [portOf_onSlotBand]; simp [h]))

theorem portForgotten_leaves (n new : Nat) (s : State) : (portOf (portForgotten n new s) n).state = new :=
  (congrArg DrvPort.state (portOf_onPort_same ..)).trans (state_portDown n new s)

/-- A drive's departure seen from its port. -/
theorem removeDrive_leaves {n : Nat} (h : (portOf s n).state ≠ 0 ∧ (portOf s n).state ≠ 9 ∧ (portOf s n).state ≠ 10) :
    (removeDrive n s).drv.slots.at n = (s.drv.slots.at n).unseated ∧
    (portOf (removeDrive n s) n).state = 0 ∧ (portOf (removeDrive n s) n).mediaTimes = [] ∧
    Emitted s (removeDrive n s) (0x200 + n) 1 0x903 (portOf s n).state := by
  have hdown (v : State) : Evolves _ v (portDown n 0 v) := portDown_evolves .refl Sub.rfl
  have hleg (v : State) : Evolves _ v (legRemoved n v) := legRemoved_evolves .refl Sub.rfl
  have hemit (v : State) : Evolves _ v (emit (drvSrc n) 0x903 1 (portOf s n).state v) := emit_evolves .refl Sub.rfl
  have htold : Emitted s (emit (drvSrc n) 0x903 1 (portOf s n).state (onSlotBand n (·.unseated) s)) (0x200 + n) 1 0x903 (portOf s n).state :=
    emitted_emit (0x200 + n) 0x903 1 (portOf s n).state (onSlotBand n (·.unseated) s)
  have hslots : (emit (drvSrc n) 0x903 1 (portOf s n).state (onSlotBand n (·.unseated) s)).drv.slots.at n = (s.drv.slots.at n).unseated := by
    rw [slots_of_evolves (hemit _) (by decide), slotOf_onSlotBand_same]
  rw [removeDrive_eq h]
  generalize emit (drvSrc n) 0x903 1 (portOf s n).state (onSlotBand n (·.unseated) s) = v at htold hslots ⊢
  have htold' : Emitted s (portForgotten n 0 v) (0x200 + n) 1 0x903 (portOf s n).state := (hdown v).emitted_mono (by decide) htold
  have hslots' : (portForgotten n 0 v).drv.slots.at n = (s.drv.slots.at n).unseated :=
    (congrArg (Tab.at · n) (slots_of_evolves (hdown v) (by decide))).trans hslots
  have hstate := portForgotten_leaves n 0 v
  generalize portForgotten n 0 v = u at htold' hslots' hstate ⊢
  refine ⟨?_, ?_, ?_, (hleg _).emitted_mono (by decide) htold'⟩
  · rw [slots_of_evolves (hleg _) (by decide)]
    exact hslots'
  · rw [portOf_of_evolves (hleg _) (by decide), portOf_onPort_same]
    exact hstate
  · rw [portOf_of_evolves (hleg _) (by decide), portOf_onPort_same]
    rfl

/-- A band that hears its presence lines. -/
def DrvSlot.sensed (low0 low1 : Bool) (b : DrvSlot) : DrvSlot := { b with prsnt0 := low0, prsnt1 := low1 }

theorem DrvSlot.partnerPwrdis_wired (line : Bool) (b : DrvSlot) :
    (b.wired line).partnerPwrdis = if b.pwrdis then b.partnerPwrdis else line := rfl

theorem DrvSlot.pwrdis_sensed (low0 low1 : Bool) (b : DrvSlot) : (b.sensed low0 low1).pwrdis = b.pwrdis := rfl

theorem DrvSlot.seated_heard (low0 low1 line : Bool) (b : DrvSlot) : ((b.sensed low0 low1).wired line).seated = b.seated := rfl

theorem presenceRemoval_runs {slot : Fin 48} {low0 low1 line : Bool} (h : (low0 && low1) = false)
    (hseated : (s.drv.slots.at slot.val).seated = true) (hline : line = (s.drv.slots.at slot.val).partnerPwrdis) :
    exec (.presenceRemoval slot low0 low1 line) s = .next (removeDrive slot.val
      (onSlotBand slot.val (·.wired line) (onSlotBand slot.val (·.sensed low0 low1) s))) := by
  have hsensed : (onSlotBand slot.val (·.sensed low0 low1) s).drv.slots.at slot.val = (s.drv.slots.at slot.val).sensed low0 low1 :=
    slotOf_onSlotBand_same ..
  have hidle : partnerDrives slot.val line (onSlotBand slot.val (·.sensed low0 low1) s) =
      onSlotBand slot.val (·.wired line) (onSlotBand slot.val (·.sensed low0 low1) s) :=
    partnerDrives_unchanged (hline.trans (congrArg DrvSlot.partnerPwrdis hsensed).symm)
  have hstill : ((onSlotBand slot.val (·.wired line) (onSlotBand slot.val (·.sensed low0 low1) s)).drv.slots.at slot.val).seated = true := by
    rw [slotOf_onSlotBand_same, hsensed]
    exact hseated
  change (if (low0 && low1) || !((partnerDrives slot.val line (onSlotBand slot.val (·.sensed low0 low1) s)).drv.slots.at slot.val).seated then
    (Host.Outcome.next (partnerDrives slot.val line (onSlotBand slot.val (·.sensed low0 low1) s)) : Result)
    else .next (removeDrive slot.val (partnerDrives slot.val line (onSlotBand slot.val (·.sensed low0 low1) s)))) = _
  rw [hidle, h, hstill]
  rfl

theorem presenceRemoval_raised {slot : Fin 48} (h : pwrdisUp s slot.val = false) :
    exec (.presenceRemoval slot true true true) s = .next (disablePort slot.val
      (onSlotBand slot.val (·.wired true) (onSlotBand slot.val (·.sensed true true) s))) := by
  have hup : pwrdisUp (onSlotBand slot.val (·.sensed true true) s) slot.val = false := by
    unfold pwrdisUp at h ⊢
    rw [slotOf_onSlotBand_same]
    exact h
  exact congrArg Host.Outcome.next (partnerDrives_raised hup)

/-! Training. -/

theorem portOf_send (o : Output) (m : Nat) (s : State) : portOf (s.send o) m = portOf s m := rfl

theorem out_onPort (n : Nat) (f : DrvPort → DrvPort) (s : State) : (onPort n f s).out = s.out := rfl

theorem out_send (o : Output) (s : State) : (s.send o).out = s.out ++ [o] := rfl

theorem isActive_onPort (n : Nat) (f : DrvPort → DrvPort) (s : State) : isActive (onPort n f s) = isActive s := rfl

theorem isActive_send (o : Output) (s : State) : isActive (s.send o) = isActive s := rfl

/-- A port without its ASPM state. -/
def DrvPort.noL1 (p : DrvPort) : DrvPort := { p with l1 := false }

theorem noL1_followL1 (n : Nat) (s : State) : (portOf (followL1 s) n).noL1 = (portOf s n).noL1 := by
  unfold followL1
  dsimp only
  refine foldl_keeps (P := fun v => (portOf v n).noL1 = (portOf s n).noL1) (fun v k hv => ?_) _ s rfl
  rw [portOf_send, portOf_onPort]
  split
  next hn => exact hn ▸ hv
  next => exact hv

/-- A port whose link has trained. -/
def DrvPort.trained (rate width : Nat) (p : DrvPort) : DrvPort := { p with speed := rate, width := width, attempts := 0, relinking := false }

theorem linkTrained_eq (n rate width : Nat) (s : State) : linkTrained n rate width s =
    followL1 (if min rate (speedMax s) < 6 ∨ width < 4 then
      emit (drvSrc n) 0x906 2 (min rate (speedMax s) + width * 16) (onPort n (·.trained (min rate (speedMax s)) width) s)
    else onPort n (·.trained (min rate (speedMax s)) width) s) := rfl

theorem linkTrained_leaves (n rate width : Nat) (s : State) :
    (portOf (linkTrained n rate width s) n).noL1 = ((portOf s n).trained (min rate (speedMax s)) width).noL1 ∧
    (min rate (speedMax s) < 6 ∨ width < 4 →
      Emitted s (linkTrained n rate width s) (0x200 + n) 2 0x906 (min rate (speedMax s) + width * 16)) := by
  have hfollow (v : State) : Evolves _ v (followL1 v) := followL1_evolves .refl Sub.rfl
  rw [linkTrained_eq, noL1_followL1]
  split
  next h =>
    exact ⟨by rw [portOf_emit, portOf_onPort_same], fun _ => (hfollow _).emitted_mono (by decide) (emitted_emit (0x200 + n) 0x906 2 _ _)⟩
  next h => exact ⟨by rw [portOf_onPort_same], fun h' => absurd h' h⟩

theorem speedMax_countCorrectable {n : Nat} (hn : n < 48) (k : Nat) (s : State) : speedMax (countCorrectable n k s) = speedMax s :=
  fldI_setFldI_other _ _ _ _ _ (by simp only [Fld.addr, F.DRV_CFG_SPEED_MAX, F.DRV_ERR_COUNT_CORR]; omega)

/-- A port that waits for its drive's configuration. -/
def DrvPort.linked (p : DrvPort) : DrvPort := { p with state := 4, step := 1 }

theorem DrvPort.linked_of_noL1 {p q : DrvPort} {r w : Nat} (h : q.noL1 = (p.linked.trained r w).noL1) :
    q.state = 4 ∧ q.step = 1 ∧ q.speed = r ∧ q.width = w :=
  ⟨congrArg DrvPort.state h, congrArg DrvPort.step h, congrArg DrvPort.speed h, congrArg DrvPort.width h⟩

theorem driveOf_onDrive_same (n : Nat) (f : Drive → Drive) (s : State) : (onDrive n f s).lay.drives.at n = f (s.lay.drives.at n) :=
  (Tab.at_upd ..).trans (if_pos rfl)

theorem driveLinkUp_runs {slot : Fin 48} {rate width corrected : Nat} (h : (portOf s slot.val).state = 3) :
    exec (.driveLinkUp slot rate width corrected) s = .next ((linkTrained slot.val rate width
      (onPort slot.val (·.linked) (countCorrectable slot.val corrected s))).send
        (.driveAdmin slot.val "read configuration" 0)) := if_pos h

theorem trainingTimeout_again {slot : Fin 48} (h : (portOf s slot.val).state = 3) (htries : (portOf s slot.val).attempts < 2) :
    exec (.trainingTimeout slot) s = .next (onPort slot.val (fun p => { p with state := 2, perstReleased := false, attempts := p.attempts + 1 }) s) :=
  (if_pos h).trans (if_pos htries)

theorem trainingTimeout_last {slot : Fin 48} (h : (portOf s slot.val).state = 3) (htries : 2 ≤ (portOf s slot.val).attempts) :
    exec (.trainingTimeout slot) s = .next (trainingFailed slot.val s) :=
  (if_pos h).trans (if_neg (Nat.not_lt.mpr htries))

/-! The steps of R208. -/

theorem driveAdminCompletion_runs {slot : Fin 48} {f : DriveFacts} (h : (portOf s slot.val).state = 4) :
    exec (.driveAdminCompletion slot f) s = .next (initStep slot.val f s) := if_neg (by rw [h]; decide)

variable {n : Nat} {f : DriveFacts}

theorem initStep_one (h : (portOf s n).step = 1) : initStep n f s = onPort n (fun p => { p with step := 2 })
    (((((onPort n (fun p => { p with mps := min 512 f.mpsCap }) s).send (.driveConfig n (min 512 f.mpsCap) 4096)).send
      (.driveQueue n 0 true 32 false false 4097)).send (.driveQueue n 0 false 32 false false 4096)).send (.driveAdmin n "enable" 0)) := by
  unfold initStep
  dsimp only
  rw [h]
  rfl

theorem initStep_two (h : (portOf s n).step = 2) : initStep n f s = onPort n (fun p => { p with step := 3 })
    ((s.send (.driveAdmin n "identify controller" 0)).send (.driveAdmin n "identify namespace" 1)) := by
  unfold initStep
  dsimp only
  rw [h]
  rfl

theorem initStep_unsuited {test : Nat} (h : (portOf s n).step = 3) (hbad : unsuitable s f = some test) :
    initStep n f s = onDrive n (fun d => { d with state := 0 }) (emit (drvSrc n) 0x904 2 test (portDown n 6 s)) := by
  unfold initStep
  dsimp only
  rw [h]
  simp only [hbad]

/-- A port that knows its drive. -/
def DrvPort.informed (f : DriveFacts) (p : DrvPort) : DrvPort := { p with
  dual := f.multiPort, urgentPrio := f.urgentPrio, depth := min 1024 (f.mqes + 1), mdts := f.mdts, lbaCount := f.lbaCount }

theorem initStep_three (h : (portOf s n).step = 3) (hgood : unsuitable s f = none) :
    initStep n f s = onPort n (fun p => { p with step := 4 }) ((onPort n (·.informed f) s).send (.driveAdmin n "register" (reservationKey s))) := by
  unfold initStep
  dsimp only
  rw [h]
  simp only [hgood]
  rfl

theorem initStep_four (h : (portOf s n).step = 4) : initStep n f s = onPort n (fun p => { p with step := 5 })
    (((createQueues n s).send (.driveRead n 0 1 false)).send (.driveRead n ((portOf s n).lbaCount - 256) 1 false)) := by
  unfold initStep
  dsimp only
  rw [h]
  rfl

/-- A port that has read its superblocks. -/
def DrvPort.superblockRead (s : State) (f : DriveFacts) (p : DrvPort) : DrvPort := { p with
  superblock := (superblockOf f.superblocks).map (superblockSays s) }

/-- The superblocks are read, and a namespace without 4 KiB blocks and without a superblock is formatted. -/
def superblocksRead (n : Nat) (f : DriveFacts) (s : State) : State :=
  if !f.formatted4k ∧ (superblockOf f.superblocks).isNone then (onPort n (·.superblockRead s f) s).send (.driveAdmin n "format" 4096)
  else onPort n (·.superblockRead s f) s

theorem portOf_superblocksRead (n : Nat) (f : DriveFacts) (s : State) : portOf (superblocksRead n f s) n = (portOf s n).superblockRead s f := by
  unfold superblocksRead
  split
  · exact portOf_onPort_same ..
  · exact portOf_onPort_same ..

theorem reservationKey_superblocksRead (n : Nat) (f : DriveFacts) (s : State) : reservationKey (superblocksRead n f s) = reservationKey s := by
  unfold superblocksRead
  split <;> rfl

theorem isActive_superblocksRead (n : Nat) (f : DriveFacts) (s : State) : isActive (superblocksRead n f s) = isActive s := by
  unfold superblocksRead
  split
  · rw [isActive_send, isActive_onPort]
  · rw [isActive_onPort]

theorem initStep_five (h : (portOf s n).step = 5) : initStep n f s =
    if !isActive (superblocksRead n f s) then portReady n (superblocksRead n f s)
    else match f.holderKey with
      | some k => onPort n (fun p => { p with step := 6 }) ((superblocksRead n f s).send (.driveAdmin n "preempt" k))
      | none => onPort n (fun p => { p with step := 6 })
        ((superblocksRead n f s).send (.driveAdmin n "acquire" (reservationKey (superblocksRead n f s)))) := by
  unfold initStep
  dsimp only
  rw [h]
  rfl

theorem initStep_six (h : (portOf s n).step = 6) : initStep n f s = portReady n (onPort n (fun p => { p with holder := true }) s) := by
  unfold initStep
  dsimp only
  rw [h]
  rfl

theorem createQueues_sends (n : Nat) (s : State) :
    .driveQueue n 1 false (portOf s n).ring (portOf s n).urgentPrio false ((portOf s n).ringPages 0) ∈ (createQueues n s).out := by
  unfold createQueues
  dsimp only
  rw [show List.range 10 = 0 :: List.range' 1 9 from rfl, List.foldl_cons]
  refine foldl_keeps (P := fun v : State => _ ∈ v.out) (fun v i hv => List.mem_append_left _ (List.mem_append_left _ hv)) _ _ ?_
  exact sent_send (.driveQueue n 1 false (portOf s n).ring (portOf s n).urgentPrio false ((portOf s n).ringPages 0)) _

/-- A port that is ready. -/
def DrvPort.ready (now : Nat) (p : DrvPort) : DrvPort := { p with
  state := 5, step := 0, recovering := false, returnGts := if p.recovering then now else p.returnGts }

theorem portReady_eq (n : Nat) (s : State) : portReady n s = layDriveReady n (portOf s n).lbaCount (portOf s n).superblock
    (emit (drvSrc n) 0x902 1 ((portOf s n).speed + (portOf s n).width * 16) (onPort n (·.ready s.now) s)) := rfl

theorem portReady_leaves (n : Nat) (s : State) : (portOf (portReady n s) n).steady = ((portOf s n).ready s.now).steady ∧
    Emitted s (portReady n s) (0x200 + n) 1 0x902 ((portOf s n).speed + (portOf s n).width * 16) := by
  have hlay (lbas : Nat) (sb : Option (Bool × Nat)) (v : State) : Evolves _ v (layDriveReady n lbas sb v) := layDriveReady_evolves .refl Sub.rfl
  rw [portReady_eq]
  refine ⟨?_, (hlay ..).emitted_mono (by decide) (emitted_emit (0x200 + n) 0x902 1 _ _)⟩
  rw [(portsStand_layDriveReady ..).ports, portOf_emit, portOf_onPort_same]

theorem initStepTimeout_runs {slot : Fin 48} {cfs : Bool} (h : (portOf s slot.val).state = 4) :
    exec (.initStepTimeout slot cfs) s = .next (portFail slot.val
      (if (portOf s slot.val).step = 1 then 5 else if (portOf s slot.val).step = 2 ∧ cfs then 3 else 2) true
      (if 3 ≤ (portOf s slot.val).step then s.bumpI F.DRV_ERR_COUNT_TIMEOUTS slot.val 1 else s)) := if_neg (by rw [h]; decide)

theorem legPgWaitTimeout_runs {slot : Fin 48} (hgroup : inGroup s = true) (hstate : (portOf s slot.val).state = 1)
    (hpg : legPg s slot.val = false) :
    exec (.legPgWaitTimeout slot) s = .next (queryPartner 1 slot.val (onPort slot.val (fun p => { p with asked := 1 }) s)) :=
  if_pos ⟨hgroup, hstate, by rw [hpg]; rfl⟩

/-! The sideband. -/

/-- A band whose FRU data has been read. -/
def DrvSlot.identified (serial : Option Nat) (b : DrvSlot) : DrvSlot := { b with fru := true, serial := serial }

/-- A band whose drive has answered a poll. -/
def DrvSlot.polled (crit pct temp : Nat) (b : DrvSlot) : DrvSlot := { b with
  smbOk := true, naks := 0, crit := crit % 256, pctUsed := pct % 256, temp := temp % 256 }

/-- A band whose drive has not answered a poll. -/
def DrvSlot.nakked (b : DrvSlot) : DrvSlot := { b with naks := b.naks + 1 }

/-- A band that has lost its sideband. -/
def DrvSlot.silent (b : DrvSlot) : DrvSlot := { b with smbOk := false }

/-- The reads of a poll have gone out. -/
def smbAsked (n : Nat) (serial : Option Nat) (s : State) : State :=
  (if (s.drv.slots.at n).fru then s
    else (onSlotBand n (·.identified serial) s).send (.smbusRead n 0x53 none (s.fld F.DRV_SMB_CFG_PEC == 1) (s.fld F.DRV_SMB_CFG_FAST == 1))).send
    (.smbusRead n 0x6A (some (0, 8)) (s.fld F.DRV_SMB_CFG_PEC == 1) (s.fld F.DRV_SMB_CFG_FAST == 1))

theorem sent_smbAsked (n : Nat) (serial : Option Nat) (s : State) :
    .smbusRead n 0x6A (some (0, 8)) (s.fld F.DRV_SMB_CFG_PEC == 1) (s.fld F.DRV_SMB_CFG_FAST == 1) ∈ (smbAsked n serial s).out := sent_send ..

theorem ctl_smbAsked (n : Nat) (serial : Option Nat) (s : State) : (smbAsked n serial s).ctl = s.ctl := by
  unfold smbAsked
  split <;> rfl

theorem now_smbAsked (n : Nat) (serial : Option Nat) (s : State) : (smbAsked n serial s).now = s.now := by
  unfold smbAsked
  split <;> rfl

theorem naks_smbAsked (n : Nat) (serial : Option Nat) (s : State) : ((smbAsked n serial s).drv.slots.at n).naks = (s.drv.slots.at n).naks := by
  have hidentified : ((onSlotBand n (·.identified serial) s).drv.slots.at n).naks = (s.drv.slots.at n).naks := by
    rw [slotOf_onSlotBand_same]
    rfl
  unfold smbAsked
  split
  · rfl
  · exact hidentified

theorem smbusPoll_answered (slot : Fin 48) (crit pct temp : Nat) (serial : Option Nat) (s : State) :
    exec (.smbusPoll slot (some (crit, pct, temp)) serial) s =
      .next (setFans (onSlotBand slot.val (·.polled crit pct temp) (smbAsked slot.val serial s))) := rfl

theorem smbusPoll_nakked (slot : Fin 48) (serial : Option Nat) (s : State) : exec (.smbusPoll slot none serial) s =
    if ((onSlotBand slot.val (·.nakked) (smbAsked slot.val serial s)).drv.slots.at slot.val).naks = 3 then
      .next (setFans (emit 0x591 0x909 2 slot.val (onSlotBand slot.val (·.silent) (onSlotBand slot.val (·.nakked) (smbAsked slot.val serial s)))))
    else .next (onSlotBand slot.val (·.nakked) (smbAsked slot.val serial s)) := rfl

theorem smbusPoll_lost {slot : Fin 48} {serial : Option Nat} (h : (s.drv.slots.at slot.val).naks = 2) : exec (.smbusPoll slot none serial) s =
    .next (setFans (emit 0x591 0x909 2 slot.val (onSlotBand slot.val (·.silent) (onSlotBand slot.val (·.nakked) (smbAsked slot.val serial s))))) := by
  refine (smbusPoll_nakked slot serial s).trans (if_pos ?_)
  rw [slotOf_onSlotBand_same]
  exact congrArg (· + 1) ((naks_smbAsked slot.val serial s).trans h)

/-- Settles O44: the steps of R208 one by one; a port that fails before it is READY serves no drive, so going down changes nothing
else of it. -/
theorem driveBringUpCompletes : Obligations.DriveBringUpCompletes := by
  unfold Obligations.DriveBringUpCompletes
  refine ⟨fun slot s hseated hstate hup => ?seated, fun slot low0 low1 line s hlow hseated hline hstate => ?removal,
    fun slot s hup hstate => ?partner, fun slot s hstate hred => ?perst, fun slot rate width corrected s hstate => ?linkUp,
    fun slot s hstate htries => ?again, fun slot s hstate htries halone => ?failed, fun slot f s hstate hstep => ?one,
    fun slot f s hstate hstep => ?two, fun slot f test s hstate hstep hbad => ?unsuited, fun slot f s hstate hstep hgood => ?three,
    fun slot f s hstate hstep => ?four, fun slot f s hstate hstep hactive => ?five, fun slot f s hstate hstep => ?six,
    fun slot cfs s hstate => ?timeout, fun slot s hgroup hstate hpg => ?ask, fun slot crit pct temp serial s => ?poll,
    fun slot serial s hnaks => ?nak⟩
  case seated =>
    refine .of_exec (presenceSeated_runs hseated hstate hup) ?_
    have hleg (v : State) : Evolves _ v (legSeated slot.val v) := legSeated_evolves .refl Sub.rfl
    have hemit (v : State) : Evolves _ v (emit (drvSrc slot.val) 0x901 0 0 v) := emit_evolves .refl Sub.rfl
    refine ⟨?_, ?_, (hleg _).emitted_mono (by decide) (emitted_emit (0x200 + slot.val) 0x901 0 0 _)⟩
    · rw [slots_of_evolves (hleg _) (by decide), slots_of_evolves (hemit _) (by decide), slots_onPort, slotOf_onSlotBand_same]
    · rw [portOf_of_evolves (hleg _) (by decide), portOf_of_evolves (hemit _) (by decide), portOf_onPort_same]
  case removal =>
    refine .of_exec (presenceRemoval_runs hlow hseated hline) ?_
    obtain ⟨hslot, hport, hmedia, htold⟩ := removeDrive_leaves (n := slot.val)
      (s := onSlotBand slot.val (·.wired line) (onSlotBand slot.val (·.sensed low0 low1) s)) hstate
    rw [slotOf_onSlotBand_same, slotOf_onSlotBand_same] at hslot
    exact ⟨congrArg DrvSlot.seated hslot, hport, hmedia, congrArg DrvSlot.prsnt0 hslot, congrArg DrvSlot.prsnt1 hslot, htold⟩
  case partner =>
    refine .of_exec (presenceRemoval_raised hup) ?_
    have hdisable (v : State) : Evolves _ v (disablePort slot.val v) := disablePort_evolves .refl Sub.rfl
    have hheard : (onSlotBand slot.val (·.wired true) (onSlotBand slot.val (·.sensed true true) s)).drv.slots.at slot.val
        = ((s.drv.slots.at slot.val).sensed true true).wired true := by
      rw [slotOf_onSlotBand_same, slotOf_onSlotBand_same]
    have hport : portOf (onSlotBand slot.val (·.wired true) (onSlotBand slot.val (·.sensed true true) s)) slot.val = portOf s slot.val := by
      rw [portOf_onSlotBand, portOf_onSlotBand]
    generalize onSlotBand slot.val (·.wired true) (onSlotBand slot.val (·.sensed true true) s) = v at hheard hport ⊢
    rw [← hport] at hstate
    have hslot := (congrArg (Tab.at · slot.val) (slots_of_evolves (hdisable v) (by decide))).trans hheard
    have hown : (s.drv.slots.at slot.val).pwrdis = false := by
      unfold pwrdisUp at hup
      exact (Bool.or_eq_false_iff.mp hup).1
    refine ⟨?_, (disablePort_leaves hstate).1, ?_⟩
    · rw [hslot, DrvSlot.partnerPwrdis_wired, DrvSlot.pwrdis_sensed, hown, if_neg Bool.false_ne_true]
    · rw [hslot, DrvSlot.seated_heard]
  case perst =>
    refine .of_exec (if_neg (not_or.mpr ⟨not_not.mpr hstate, hred⟩)) ⟨?_, ?_⟩
    · exact (portOf_of_evolves (state_bumpI_evolves .refl Sub.rfl : Evolves _ _ (State.bumpI _ F.DRV_PORT_STAT_RETRAINS slot.val 1))
        (by decide) _).trans (portOf_onPort_same ..)
    · exact fldI_bumpI F.DRV_PORT_STAT_RETRAINS slot.val 1 (by decide) (by decide)
  case linkUp =>
    refine .of_exec (driveLinkUp_runs hstate) ?_
    have htrained (v : State) : Evolves _ v (linkTrained slot.val rate width v) := linkTrained_evolves .refl Sub.rfl
    have hcount : Evolves _ s (countCorrectable slot.val corrected s) := countCorrectable_evolves .refl Sub.rfl
    have hspeed := speedMax_countCorrectable slot.isLt corrected s
    have hcorr : (countCorrectable slot.val corrected s).fldI F.DRV_ERR_COUNT_CORR slot.val =
        min F.DRV_ERR_COUNT_CORR.max (s.fldI F.DRV_ERR_COUNT_CORR slot.val + corrected) :=
      fldI_bumpI F.DRV_ERR_COUNT_CORR slot.val corrected (by decide) (by decide)
    have hnow := hcount.now_eq (by decide)
    generalize countCorrectable slot.val corrected s = v at hspeed hcorr hnow ⊢
    obtain ⟨hport, hslow⟩ := linkTrained_leaves slot.val rate width (onPort slot.val (·.linked) v)
    rw [portOf_onPort_same, show speedMax (onPort slot.val (·.linked) v) = speedMax v from rfl, hspeed] at hport
    rw [show speedMax (onPort slot.val (·.linked) v) = speedMax v from rfl, hspeed] at hslow
    have hkept := (htrained (onPort slot.val (·.linked) v)).fldI_eq F.DRV_ERR_COUNT_CORR slot.val (by decide)
    generalize linkTrained slot.val rate width (onPort slot.val (·.linked) v) = u at hport hslow hkept ⊢
    rw [portOf_send]
    obtain ⟨hstate, hstep, hspeed, hwidth⟩ := DrvPort.linked_of_noL1 hport
    exact ⟨hstate, hstep, hspeed, hwidth, sent_send .., hkept.trans hcorr, fun h => (emitted_now hnow).1 (hslow h)⟩
  case again => exact .of_exec (trainingTimeout_again hstate htries) (portOf_onPort_same ..)
  case failed => exact .of_exec (trainingTimeout_last hstate htries) (trainingFailed_leaves halone)
  case one =>
    refine .of_exec ((driveAdminCompletion_runs hstate).trans (congrArg Host.Outcome.next (initStep_one hstep))) ?_
    dsimp only
    rw [portOf_onPort_same, portOf_send, portOf_send, portOf_send, portOf_send, portOf_onPort_same, out_onPort, out_send, out_send, out_send,
      out_send]
    exact ⟨rfl, by simp, by simp, by simp, by simp⟩
  case two =>
    refine .of_exec ((driveAdminCompletion_runs hstate).trans (congrArg Host.Outcome.next (initStep_two hstep))) ?_
    dsimp only
    rw [portOf_onPort_same, portOf_send, portOf_send, out_onPort, out_send, out_send]
    exact ⟨rfl, rfl⟩
  case unsuited =>
    refine .of_exec ((driveAdminCompletion_runs hstate).trans (congrArg Host.Outcome.next (initStep_unsuited hstep hbad))) ?_
    have hdown : Evolves _ s (portDown slot.val 6 s) := portDown_evolves .refl Sub.rfl
    have hnow := hdown.now_eq (by decide)
    have hport := state_portDown slot.val 6 s
    generalize portDown slot.val 6 s = v at hnow hport ⊢
    refine ⟨?_, (emitted_now hnow).1 (emitted_emit (0x200 + slot.val) 0x904 2 test v), ?_⟩
    · exact (congrArg DrvPort.state (portOf_emit (0x200 + slot.val) 0x904 2 test slot.val v)).trans hport
    · rw [driveOf_onDrive_same]
  case three =>
    refine .of_exec ((driveAdminCompletion_runs hstate).trans (congrArg Host.Outcome.next (initStep_three hstep hgood))) ?_
    rw [portOf_onPort_same, portOf_send, portOf_onPort_same, out_onPort, out_send, out_onPort]
    exact ⟨rfl, rfl, rfl, rfl, rfl⟩
  case four =>
    refine .of_exec ((driveAdminCompletion_runs hstate).trans (congrArg Host.Outcome.next (initStep_four hstep))) ?_
    have hqueues : Evolves _ s (createQueues slot.val s) := createQueues_evolves .refl Sub.rfl
    dsimp only
    rw [portOf_onPort_same, portOf_send, portOf_send, portOf_of_evolves hqueues (by decide), out_onPort, out_send, out_send]
    exact ⟨rfl, by simp, by simp, List.mem_append_left _ (List.mem_append_left _ (createQueues_sends slot.val s))⟩
  case five =>
    have hact : isActive (superblocksRead slot.val f s) = true := (isActive_superblocksRead ..).trans hactive
    have hruns := (driveAdminCompletion_runs hstate).trans (congrArg Host.Outcome.next (initStep_five (f := f) hstep))
    rw [hact, Bool.not_true, if_neg Bool.false_ne_true] at hruns
    cases hholder : f.holderKey with
    | none =>
      simp only [hholder] at hruns
      refine .of_exec hruns ?_
      rw [portOf_onPort_same, portOf_send, portOf_superblocksRead, reservationKey_superblocksRead, out_onPort]
      exact ⟨rfl, rfl, fun _ => sent_send .., rfl⟩
    | some k =>
      simp only [hholder] at hruns
      refine .of_exec hruns ?_
      rw [portOf_onPort_same, portOf_send, portOf_superblocksRead, out_onPort]
      exact ⟨rfl, rfl, fun h => absurd h (by simp), decide_eq_true (sent_send ..)⟩
  case six =>
    refine .of_exec ((driveAdminCompletion_runs hstate).trans (congrArg Host.Outcome.next (initStep_six hstep))) ?_
    obtain ⟨hport, htold⟩ := portReady_leaves slot.val (onPort slot.val (fun p => { p with holder := true }) s)
    rw [portOf_onPort_same] at hport htold
    exact ⟨congrArg DrvPort.state hport, congrArg DrvPort.holder hport, htold⟩
  case timeout =>
    refine .of_exec (initStepTimeout_runs hstate) ?_
    have hcount : Evolves _ s (s.bumpI F.DRV_ERR_COUNT_TIMEOUTS slot.val 1) := state_bumpI_evolves .refl Sub.rfl
    have hnow : (if 3 ≤ (portOf s slot.val).step then s.bumpI F.DRV_ERR_COUNT_TIMEOUTS slot.val 1 else s).now = s.now := by
      split
      · exact hcount.now_eq (by decide)
      · rfl
    generalize (if 3 ≤ (portOf s slot.val).step then s.bumpI F.DRV_ERR_COUNT_TIMEOUTS slot.val 1 else s) = v at hnow ⊢
    obtain ⟨htold, hfailed⟩ := portFail_leaves slot.val
      (if (portOf s slot.val).step = 1 then 5 else if (portOf s slot.val).step = 2 ∧ cfs then 3 else 2) true v
    exact ⟨(emitted_now hnow).1 htold, (Bool.eq_false_or_eq_true _).elim (fun h => .inr (hfailed.trans (if_pos h)))
      fun h => .inl (hfailed.trans (if_neg (by rw [h]; exact Bool.false_ne_true)))⟩
  case ask =>
    refine .of_exec (legPgWaitTimeout_runs hgroup hstate hpg) ?_
    have hquery (v : State) : Evolves _ v (queryPartner 1 slot.val v) := queryPartner_evolves .refl Sub.rfl
    rw [portOf_of_evolves (hquery _) (by decide), portOf_onPort_same]
  case poll =>
    refine .of_exec (smbusPoll_answered ..) ?_
    have hfans (v : State) : Evolves _ v (setFans v) := setFans_evolves .refl Sub.rfl
    have hslots := slots_of_evolves (hfans (onSlotBand slot.val (·.polled crit pct temp) (smbAsked slot.val serial s))) (by decide)
    rw [hslots, slotOf_onSlotBand_same, ctl_of_evolves (hfans _) (by decide)]
    exact ⟨rfl, rfl, rfl, rfl, rfl, ctl_smbAsked .., (hfans _).sent (sent_smbAsked slot.val serial s)⟩
  case nak =>
    refine .of_exec (smbusPoll_lost hnaks) ?_
    have hfans (v : State) : Evolves _ v (setFans v) := setFans_evolves .refl Sub.rfl
    have hemit (v : State) : Evolves _ v (emit 0x591 0x909 2 slot.val v) := emit_evolves .refl Sub.rfl
    have hnow : (onSlotBand slot.val (·.silent) (onSlotBand slot.val (·.nakked) (smbAsked slot.val serial s))).now = s.now :=
      now_smbAsked slot.val serial s
    have hslot : (onSlotBand slot.val (·.silent) (onSlotBand slot.val (·.nakked) (smbAsked slot.val serial s))).drv.slots.at slot.val =
        ((smbAsked slot.val serial s).drv.slots.at slot.val).nakked.silent := by rw [slotOf_onSlotBand_same, slotOf_onSlotBand_same]
    generalize onSlotBand slot.val (·.silent) (onSlotBand slot.val (·.nakked) (smbAsked slot.val serial s)) = v at hnow hslot ⊢
    rw [slots_of_evolves (hfans _) (by decide), slots_of_evolves (hemit _) (by decide), hslot]
    refine ⟨rfl, ?_, (hfans _).emitted_mono (by decide) ((emitted_now hnow).1 (emitted_emit 0x591 0x909 2 slot.val v))⟩
    exact congrArg (· + 1) ((naks_smbAsked slot.val serial s).trans hnaks)

end Sys2Proof.Machine
end

section
/-! PROOFS. Failures of a serving drive and the orders to a port (chapter 6). -/

namespace Sys2Proof.Machine

variable {s t u : State} {w : List Part} {n : Nat}

theorem mayRecover_congr {slot cause : Nat} (hport : portOf t slot = portOf s slot)
    (hwindow : t.fld F.DRV_ERR_CFG_RECOVER_WIN_S = s.fld F.DRV_ERR_CFG_RECOVER_WIN_S) (hnow : t.now = s.now) :
    mayRecover t slot cause = mayRecover s slot cause := by
  unfold mayRecover
  rw [hport, hwindow, hnow]

/-- A counter of a port stands for a state of the same time, ports and window of recovery. -/
structure Counted (s t : State) : Prop where
  ports : t.drv = s.drv
  window : t.fld F.DRV_ERR_CFG_RECOVER_WIN_S = s.fld F.DRV_ERR_CFG_RECOVER_WIN_S
  now : t.now = s.now

theorem Counted.refl (s : State) : Counted s s := ⟨rfl, rfl, rfl⟩

theorem Counted.trans (h : Counted s t) (h' : Counted t u) : Counted s u :=
  ⟨h'.ports.trans h.ports, h'.window.trans h.window, h'.now.trans h.now⟩

theorem counted_bumpI (f : Fld) (i k : Nat) (h : F.DRV_ERR_CFG_RECOVER_WIN_S.addr 0 ≠ f.addr i) : Counted s (s.bumpI f i k) :=
  ⟨State.bumpI_drv .., fldI_setFldI_other _ _ _ _ _ h, State.now_bumpI ..⟩

theorem Counted.portOf (h : Counted s t) (m : Nat) : Machine.portOf t m = Machine.portOf s m := by
  unfold Machine.portOf
  rw [h.ports]

theorem Counted.served (h : Counted s t) (m : Nat) : Machine.served t m = Machine.served s m := served_of_portOf (h.portOf m)

/-- A serving drive that fails, whatever was counted before. -/
theorem readyFails_leaves {slot cause : Nat} (hserved : served s slot = true) (h : Counted s t) :
    Emitted s (readyFails slot cause t) (0x200 + slot) 3 0x905 cause ∧
    (portOf (readyFails slot cause t) slot).state = if mayRecover s slot cause then 2 else 7 := by
  obtain ⟨htold, hstate⟩ := portFail_leaves slot cause true t
  unfold readyFails
  rw [if_pos ((h.served slot).trans hserved)]
  refine ⟨(emitted_now h.now).1 htold, ?_⟩
  rw [hstate, Bool.true_and, mayRecover_congr (h.portOf slot) h.window h.now]

theorem drvCount_addr (f : Fld) (hf : f = F.DRV_ERR_COUNT_TIMEOUTS ∨ f = F.DRV_ERR_COUNT_CORR ∨ f = F.DRV_PORT_STAT_RETRAINS) {i : Nat}
    (hi : i < 48) : F.DRV_ERR_CFG_RECOVER_WIN_S.addr 0 ≠ f.addr i := by
  obtain rfl | rfl | rfl := hf <;>
    simp only [Fld.addr, F.DRV_ERR_CFG_RECOVER_WIN_S, F.DRV_ERR_COUNT_TIMEOUTS, F.DRV_ERR_COUNT_CORR, F.DRV_PORT_STAT_RETRAINS] <;> omega

theorem counted_timeouts {i : Nat} (hi : i < 48) (k : Nat) (s : State) : Counted s (s.bumpI F.DRV_ERR_COUNT_TIMEOUTS i k) :=
  counted_bumpI _ i k (drvCount_addr _ (.inl rfl) hi)

theorem counted_correctable {i : Nat} (hi : i < 48) (k : Nat) (s : State) : Counted s (countCorrectable i k s) :=
  counted_bumpI _ i k (drvCount_addr _ (.inr (.inl rfl)) hi)

theorem counted_retrains {i : Nat} (hi : i < 48) (k : Nat) (s : State) : Counted s (s.bumpI F.DRV_PORT_STAT_RETRAINS i k) :=
  counted_bumpI _ i k (drvCount_addr _ (.inr (.inr rfl)) hi)

theorem retrains_countCorrectable {i : Nat} (hi : i < 48) (k : Nat) (s : State) :
    (countCorrectable i k s).fldI F.DRV_PORT_STAT_RETRAINS i = s.fldI F.DRV_PORT_STAT_RETRAINS i :=
  fldI_setFldI_other _ _ _ _ _ (by simp only [Fld.addr, F.DRV_PORT_STAT_RETRAINS, F.DRV_ERR_COUNT_CORR]; omega)

theorem speedMax_bumpRetrains {i : Nat} (hi : i < 48) (k : Nat) (s : State) :
    speedMax (s.bumpI F.DRV_PORT_STAT_RETRAINS i k) = speedMax s :=
  fldI_setFldI_other _ _ _ _ _ (by simp only [Fld.addr, F.DRV_CFG_SPEED_MAX, F.DRV_PORT_STAT_RETRAINS]; omega)

/-! The link of a serving drive. -/

theorem driveLinkDown_retrained {slot : Fin 48} {rate width corrected : Nat} (h : served (countCorrectable slot.val corrected s) slot.val = true) :
    exec (.driveLinkDown slot (some (rate, width)) corrected) s = .next (linkTrained slot.val rate width
      ((countCorrectable slot.val corrected s).bumpI F.DRV_PORT_STAT_RETRAINS slot.val 1)) :=
  if_neg (by rw [h]; decide)

theorem driveLinkDown_lost {slot : Fin 48} {corrected : Nat} (h : served (countCorrectable slot.val corrected s) slot.val = true) :
    exec (.driveLinkDown slot none corrected) s = .next (readyFails slot.val 5
      ((countCorrectable slot.val corrected s).bumpI F.DRV_PORT_STAT_RETRAINS slot.val 3)) :=
  if_neg (by rw [h]; decide)

theorem DrvPort.trained_of_noL1 {p q : DrvPort} {r w : Nat} (h : q.noL1 = (p.trained r w).noL1) :
    q.state = p.state ∧ q.speed = r ∧ q.width = w :=
  ⟨(congrArg DrvPort.state h : q.noL1.state = (p.trained r w).noL1.state), congrArg DrvPort.speed h, congrArg DrvPort.width h⟩

/-! DMA faults. -/

theorem dmaFault_runs {slot : Fin 48} {start len page : Nat} (hstate : served s slot.val = true ∨ (portOf s slot.val).state = 4)
    (h : firstUnmapped (portOf s slot.val) ((start + max 1 len - 1) / 4096 + 1 - start / 4096) (start / 4096) = some page) :
    exec (.dmaFault slot start len) s = .next (portFail slot.val 7 true
      (emit (drvSrc slot.val) 0x907 3 ((if start / 4096 = page then start else page * 4096) % 2 ^ 28) s)) := by
  have hruns : (served s slot.val || (portOf s slot.val).state == 4) = true := by
    rw [Bool.or_eq_true, beq_iff_eq]
    exact hstate
  change execDmaFault slot start len s = _
  unfold execDmaFault
  dsimp only
  rw [h]
  exact if_neg (by rw [hruns]; decide)

/-! Preempts. -/

/-- The preempt of a slot has completed. -/
def preemptTaken (n : Nat) (s : State) : State := s.onDrv fun d => { d with
  preempting := s.drv.preempting.filter (· != n), round := if s.drv.preempting.filter (· != n) = [] then 0 else 2 }

/-- A port that holds its drive's reservation. -/
def DrvPort.held (p : DrvPort) : DrvPort := { p with holder := true }

theorem preemptCompletion_clean {slot : Fin 48} (h : s.drv.preempting.contains slot.val = true) :
    exec (.preemptCompletion slot false) s = .next (if s.drv.round == 1 then
      (s.drv.preempting.filter (· != slot.val)).foldl preemptDrive (releaseWrites slot.val (onPort slot.val (·.held) (preemptTaken slot.val s)))
      else releaseWrites slot.val (onPort slot.val (·.held) (preemptTaken slot.val s))) :=
  (if_neg (by rw [h]; decide)).trans (if_neg (by simp))

theorem preemptCompletion_conflict {slot : Fin 48} (h : s.drv.preempting.contains slot.val = true) (hround : s.drv.round = 1) :
    exec (.preemptCompletion slot true) s = .next (preempted slot.val s) :=
  (if_neg (by rw [h]; decide)).trans (if_pos ⟨rfl, hround⟩)

theorem releaseWrites_taken (n : Nat) (s : State) :
    (portOf (releaseWrites n (onPort n (·.held) s)) n).holder = true ∧
    (releaseWrites n (onPort n (·.held) s)).drv.round = s.drv.round ∧
    (releaseWrites n (onPort n (·.held) s)).drv.preempting = s.drv.preempting := by
  have hreleased : Evolves _ (onPort n (·.held) s) (releaseWrites n (onPort n (·.held) s)) := releaseWrites_evolves .refl Sub.rfl
  have hslots := hreleased.same .driveSlots (by decide)
  simp only [Part.Same, Prod.mk.injEq] at hslots
  obtain ⟨_, _, hround, hpreempting⟩ := hslots
  have hport := (portsStand_releaseWrites (s := onPort n (·.held) s) n).ports n
  rw [portOf_onPort_same] at hport
  exact ⟨congrArg DrvPort.holder hport, hround, hpreempting⟩

theorem portOf_preemptDrives (l : List Nat) (m : Nat) : ∀ s : State, portOf (l.foldl preemptDrive s) m = portOf s m :=
  fun s => foldl_keeps (P := fun v => portOf v m = portOf s m) (fun v k hv => show portOf (preemptDrive v k) m = _ from hv) l s rfl

theorem stopped_standDown (s : State) : (standDown s).drv.stopped = true := by
  have hports (v : State) : Evolves _ v (portsOff v) := portsOff_evolves .refl Sub.rfl
  have hcount (v : State) : Evolves _ v (countQuorum v) := countQuorum_evolves .refl Sub.rfl
  have hset (v : State) : Evolves _ v (setRole 7 v) := setRole_evolves .refl Sub.rfl
  have hslots {v u : State} {w : List Part} (h : Evolves w v u) (hw : .driveSlots ∉ w) : u.drv.stopped = v.drv.stopped := by
    have hsame := h.same .driveSlots hw
    simp only [Part.Same, Prod.mk.injEq] at hsame
    exact hsame.2.1
  rw [standDown_eq, hslots (hports _) (by decide), hslots (hcount _) (by decide), hslots (hset _) (by decide)]
  rfl

theorem preempted_leaves {slot : Nat} (h : s.drv.stopped = false) :
    (preempted slot s).drv.stopped = true ∧ Emitted s (preempted slot s) 0x592 4 0x908 slot := by
  have hdown (v : State) : Evolves _ v (standDown v) := standDown_evolves .refl Sub.rfl
  have hemit (v : State) : Evolves _ v (emit 0x592 0x908 4 slot v) := emit_evolves .refl Sub.rfl
  have htold : Emitted s (emit 0x592 0x908 4 slot (drivesStopped true s)) 0x592 4 0x908 slot := emitted_emit 0x592 0x908 4 slot _
  have hstopped : (emit 0x592 0x908 4 slot (drivesStopped true s)).drv.stopped = true := by
    have hsame := (hemit (drivesStopped true s)).same .driveSlots (by decide)
    simp only [Part.Same, Prod.mk.injEq] at hsame
    exact hsame.2.1
  have heq : preempted slot s = if redState (emit 0x592 0x908 4 slot (drivesStopped true s)) = 5 then
      standDown (emit 0x592 0x908 4 slot (drivesStopped true s)) else leaveActive (emit 0x592 0x908 4 slot (drivesStopped true s)) :=
    if_neg (by rw [h]; decide)
  rw [heq]
  generalize emit 0x592 0x908 4 slot (drivesStopped true s) = v at htold hstopped ⊢
  have hstood : (standDown v).drv.stopped = true ∧ Emitted s (standDown v) 0x592 4 0x908 slot :=
    ⟨stopped_standDown v, (hdown v).emitted_mono (by decide) htold⟩
  split
  · exact hstood
  · unfold leaveActive
    split
    · exact hstood
    · exact ⟨hstopped, htold⟩

/-! Orders. -/

theorem portOrder_runs {order n : Nat} {path : Fin 5} {session : Nat} {value : Word} (run : Nat → State → State)
    (hwrite : MayWrite path session (F.DRV_PORT_ORDER_ORDER.addr 0) s)
    (horder : bitsOf value.toNat 31 28 = order ∧ bitsOf value.toNat 5 0 = n ∧ n < 48) (hstate : (portOf s n).state ≠ 9) :
    portOrder order path session value run s = run n (writeGate path.val session (F.DRV_PORT_ORDER_ORDER.addr 0) value s).1 := by
  obtain ⟨hop, hslot, hlt⟩ := horder
  have hgo := writeGate_performed value hwrite
  have hport := portOf_of_evolves (writeGate_evolves_refl path.val session (F.DRV_PORT_ORDER_ORDER.addr 0) value s) (by decide) n
  unfold portOrder
  dsimp only
  rw [hgo, hop, hslot, hport]
  exact if_pos (by simp [hlt, hstate])

theorem served_eq {n : Nat} : served s n = true ↔ (portOf s n).state = 5 := by
  unfold served
  exact beq_iff_eq

theorem pwrdisOrder_runs {n : Nat} {path : Fin 5} {session : Nat} {value : Word}
    (hwrite : MayWrite path session (F.DRV_PWRDIS_ORDER_CONFIRM.addr 0) s)
    (horder : bitsOf value.toNat 31 24 = 0x5A ∧ bitsOf value.toNat 5 0 = n ∧ n < 48) :
    exec (.drvPwrdisOrder path session value) s = .next (assertPwrdis n (bitsOf value.toNat 23 8)
      (writeGate path.val session (F.DRV_PWRDIS_ORDER_CONFIRM.addr 0) value s).1) := by
  obtain ⟨hop, hslot, hlt⟩ := horder
  have hgo := writeGate_performed value hwrite
  change Host.Outcome.next (pwrdisOrder path.val session value s) = _
  unfold pwrdisOrder
  dsimp only
  rw [hgo, hop, hslot]
  exact congrArg Host.Outcome.next (if_pos (by simp [hlt]))

/-- A band whose PWRDIS line is up until a time. -/
def DrvSlot.asserted (end_ : Nat) (b : DrvSlot) : DrvSlot := { b with
  pwrdis := true, releaseGts := if b.pwrdis then max b.releaseGts end_ else end_ }

theorem assertPwrdis_eq (n hold : Nat) (s : State) :
    assertPwrdis n hold s = disablePort n (onSlotBand n (·.asserted (s.now + max 1000 hold * 1000000)) s) := rfl

theorem DrvSlot.asserted_of_low {b : DrvSlot} {e : Nat} (h : b.pwrdis = false) : (b.asserted e).pwrdis = true ∧ (b.asserted e).releaseGts = e :=
  ⟨rfl, if_neg (by rw [h]; exact Bool.false_ne_true)⟩

theorem assertPwrdis_leaves {n hold : Nat} (h : (s.drv.slots.at n).pwrdis = false) :
    ((assertPwrdis n hold s).drv.slots.at n).pwrdis = true ∧
    ((assertPwrdis n hold s).drv.slots.at n).releaseGts = s.now + max 1000 hold * 1000000 := by
  have hdisable (v : State) : Evolves _ v (disablePort n v) := disablePort_evolves .refl Sub.rfl
  rw [assertPwrdis_eq, slots_of_evolves (hdisable _) (by decide), slotOf_onSlotBand_same]
  exact DrvSlot.asserted_of_low h

/-- A band whose PWRDIS line has been released. -/
def DrvSlot.released (b : DrvSlot) : DrvSlot := { b with pwrdis := false, releaseGts := 0 }

/-- A slot's PWRDIS line has been released. -/
def pwrdisDown (n : Nat) (s : State) : State := emit 0x590 0x90A 1 n (onSlotBand n (·.released) s)

theorem slotOf_pwrdisDown (n : Nat) (s : State) : (pwrdisDown n s).drv.slots.at n = (s.drv.slots.at n).released := by
  unfold pwrdisDown
  rw [slots_of_evolves (emit_evolves .refl Sub.rfl) (by decide), slotOf_onSlotBand_same]

theorem portOf_pwrdisDown (n m : Nat) (s : State) : portOf (pwrdisDown n s) m = portOf s m := by
  unfold pwrdisDown
  rw [portOf_emit, portOf_onSlotBand]

theorem pwrdisRelease_runs {slot : Fin 48} (h : (s.drv.slots.at slot.val).pwrdis = true) : exec (.pwrdisRelease slot) s =
    .next (if (portOf (pwrdisDown slot.val s) slot.val).state = 8 ∧ !pwrdisUp (pwrdisDown slot.val s) slot.val then
      portReset slot.val (pwrdisDown slot.val s) else pwrdisDown slot.val s) := if_neg (by rw [h]; decide)

/-- Settles O45: a failure tells its cause and leaves the port as the recovery rule of R210 says, whatever the layout loses with it. -/
theorem driveFailuresAndOrdersComplete : Obligations.DriveFailuresAndOrdersComplete := by
  unfold Obligations.DriveFailuresAndOrdersComplete
  refine ⟨fun slot s h => ?io, fun slot s h => ?admin, fun slot s h => ?fatal, fun slot rate width corrected s h => ?retrained,
    fun slot corrected s h => ?lost, fun slot start len page s hstate h => ?dma, fun slot s h => ?clean,
    fun slot s h hround hstopped => ?conflict, fun path session value n s hwrite horder h => ?retrain,
    fun path session value n s hwrite horder h => ?disable, fun path session value n s hwrite horder h hup => ?enable,
    fun path session value n s hwrite horder h => ?recover, fun path session value n s hwrite horder h => ?pwrdis,
    fun slot s h => ?release⟩
  case io =>
    refine .of_exec (if_pos h) ?_
    exact readyFails_leaves h (counted_timeouts slot.isLt 1 s)
  case admin =>
    refine .of_exec (if_pos h) ?_
    exact readyFails_leaves h (counted_timeouts slot.isLt 1 s)
  case fatal => exact .of_exec rfl (readyFails_leaves h (.refl s))
  case retrained =>
    have hcounted := counted_correctable slot.isLt corrected s
    refine .of_exec (driveLinkDown_retrained ((hcounted.served _).trans h)) ?_
    have htrained (v : State) : Evolves _ v (linkTrained slot.val rate width v) := linkTrained_evolves .refl Sub.rfl
    have hspeed := speedMax_countCorrectable slot.isLt corrected s
    have hretrains := retrains_countCorrectable slot.isLt corrected s
    generalize countCorrectable slot.val corrected s = v at hcounted hspeed hretrains ⊢
    have hbumped := (hcounted.trans (counted_retrains slot.isLt 1 v)).portOf slot.val
    have hspeed' := (speedMax_bumpRetrains slot.isLt 1 v).trans hspeed
    have hcount : (v.bumpI F.DRV_PORT_STAT_RETRAINS slot.val 1).fldI F.DRV_PORT_STAT_RETRAINS slot.val =
        min F.DRV_PORT_STAT_RETRAINS.max (s.fldI F.DRV_PORT_STAT_RETRAINS slot.val + 1) := by
      rw [fldI_bumpI _ _ _ (by decide) (by decide), hretrains]
    generalize v.bumpI F.DRV_PORT_STAT_RETRAINS slot.val 1 = u at hbumped hspeed' hcount ⊢
    obtain ⟨hport, _⟩ := linkTrained_leaves slot.val rate width u
    rw [hbumped, hspeed'] at hport
    obtain ⟨hstate, hspeed, hwidth⟩ := DrvPort.trained_of_noL1 hport
    exact ⟨hstate.trans (served_eq.1 h), hspeed, hwidth, ((htrained u).fldI_eq F.DRV_PORT_STAT_RETRAINS slot.val (by decide)).trans hcount⟩
  case lost =>
    have hcounted := counted_correctable slot.isLt corrected s
    exact .of_exec (driveLinkDown_lost ((hcounted.served _).trans h))
      (readyFails_leaves h (hcounted.trans (counted_retrains slot.isLt 3 _)))
  case dma =>
    refine .of_exec (dmaFault_runs hstate h) ?_
    have hfail (v : State) : Evolves _ v (portFail slot.val 7 true v) := portFail_evolves .refl Sub.rfl
    have hemit (v : State) (data : Nat) : Evolves _ v (emit (drvSrc slot.val) 0x907 3 data v) := emit_evolves .refl Sub.rfl
    obtain ⟨htold, hfailed⟩ := portFail_leaves slot.val 7 true
      (emit (drvSrc slot.val) 0x907 3 ((if start / 4096 = page then start else page * 4096) % 2 ^ 28) s)
    have hnow := (hemit s ((if start / 4096 = page then start else page * 4096) % 2 ^ 28)).now_eq (by decide)
    refine ⟨(emitted_now hnow).1 htold, ?_, ?_⟩
    · exact (hfail _).emitted_mono (by decide) (emitted_emit (0x200 + slot.val) 0x907 3 _ s)
    · rw [hfailed, Bool.true_and, mayRecover_congr (portOf_emit ..) ((hemit _ _).fld_eq F.DRV_ERR_CFG_RECOVER_WIN_S (by decide)) hnow]
  case clean =>
    refine .of_exec (preemptCompletion_clean h) ?_
    obtain ⟨hholder, hround, hpreempting⟩ := releaseWrites_taken slot.val (preemptTaken slot.val s)
    have hround' : (preemptTaken slot.val s).drv.round = if s.drv.preempting.filter (· != slot.val) = [] then 0 else 2 := rfl
    have hpreempting' : (preemptTaken slot.val s).drv.preempting = s.drv.preempting.filter (· != slot.val) := rfl
    rw [hround'] at hround
    rw [hpreempting'] at hpreempting
    generalize releaseWrites slot.val (onPort slot.val (·.held) (preemptTaken slot.val s)) = v at hholder hround hpreempting ⊢
    refine ⟨?_, fun hsecond => ?_, fun hlast => ?_⟩
    · split
      · rw [portOf_preemptDrives]
        exact hholder
      · exact hholder
    · rw [hsecond]
      exact hpreempting
    · have hnone : s.drv.preempting.filter (· != slot.val) = [] := by rw [hlast]; simp
      rw [hnone] at hround hpreempting ⊢
      rw [List.foldl_nil, ite_self]
      exact ⟨hround, hpreempting⟩
  case conflict => exact .of_exec (preemptCompletion_conflict h hround) (preempted_leaves hstopped)
  case retrain =>
    refine .of_exec (congrArg Host.Outcome.next (portOrder_runs retrainPort hwrite horder (by rw [served_eq.1 h]; decide))) ?_
    have hport := portOf_of_evolves (writeGate_evolves_refl path.val session (F.DRV_PORT_ORDER_ORDER.addr 0) value s) (by decide) n
    generalize (writeGate path.val session (F.DRV_PORT_ORDER_ORDER.addr 0) value s).1 = v at hport ⊢
    rw [retrainPort, if_pos ((served_of_portOf hport).trans h),
      portOf_of_evolves (state_bumpI_evolves .refl Sub.rfl : Evolves _ _ (State.bumpI _ F.DRV_PORT_STAT_RETRAINS n 1)) (by decide),
      portOf_onPort_same, hport]
  case disable =>
    refine .of_exec (congrArg Host.Outcome.next (portOrder_runs disablePort hwrite horder h.2.1)) ?_
    have hport := portOf_of_evolves (writeGate_evolves_refl path.val session (F.DRV_PORT_ORDER_ORDER.addr 0) value s) (by decide) n
    exact disablePort_leaves (by rw [hport]; exact h)
  case enable =>
    refine .of_exec (congrArg Host.Outcome.next (portOrder_runs enablePort hwrite horder (by rw [h]; decide))) ?_
    have hgate := writeGate_evolves_refl path.val session (F.DRV_PORT_ORDER_ORDER.addr 0) value s
    have hport := portOf_of_evolves hgate (by decide) n
    have hslots := slots_of_evolves hgate (by decide)
    generalize (writeGate path.val session (F.DRV_PORT_ORDER_ORDER.addr 0) value s).1 = v at hport hslots ⊢
    have hdown : pwrdisUp v n = false := by
      unfold pwrdisUp at hup ⊢
      rw [hslots]
      exact hup
    rw [enablePort, if_pos ⟨(congrArg DrvPort.state hport).trans h, by rw [hdown]; rfl⟩, portReset, portOf_onPort_same]
    exact ⟨rfl, rfl, rfl⟩
  case recover =>
    refine .of_exec (congrArg Host.Outcome.next (portOrder_runs recoverPort hwrite horder (by rw [h]; decide))) ?_
    have hport := portOf_of_evolves (writeGate_evolves_refl path.val session (F.DRV_PORT_ORDER_ORDER.addr 0) value s) (by decide) n
    generalize (writeGate path.val session (F.DRV_PORT_ORDER_ORDER.addr 0) value s).1 = v at hport ⊢
    rw [recoverPort, if_pos ((congrArg DrvPort.state hport).trans h), portReset, portOf_onPort_same, portOf_onPort_same]
    exact ⟨rfl, rfl, rfl⟩
  case pwrdis =>
    refine .of_exec (pwrdisOrder_runs hwrite horder) ?_
    have hgate := writeGate_evolves_refl path.val session (F.DRV_PWRDIS_ORDER_CONFIRM.addr 0) value s
    have hslots := slots_of_evolves hgate (by decide)
    have hnow := hgate.now_eq (by decide)
    generalize (writeGate path.val session (F.DRV_PWRDIS_ORDER_CONFIRM.addr 0) value s).1 = v at hslots hnow ⊢
    rw [← hnow]
    exact assertPwrdis_leaves (by rw [hslots]; exact h)
  case release =>
    refine .of_exec (pwrdisRelease_runs h) ?_
    have hslot := slotOf_pwrdisDown slot.val s
    have hport := portOf_pwrdisDown slot.val slot.val s
    have htold : Emitted s (pwrdisDown slot.val s) 0x590 1 0x90A slot.val := emitted_emit 0x590 0x90A 1 slot.val (onSlotBand slot.val (·.released) s)
    generalize pwrdisDown slot.val s = v at hslot hport htold ⊢
    have hlow : (v.drv.slots.at slot.val).pwrdis = false := by rw [hslot]; rfl
    split
    next => exact ⟨hlow, htold, fun _ _ => state_portReset ..⟩
    next hstays =>
      refine ⟨hlow, htold, fun hstate hpartner => absurd ⟨(congrArg DrvPort.state hport).trans hstate, ?_⟩ hstays⟩
      unfold pwrdisUp
      rw [hlow, hslot, show (s.drv.slots.at slot.val).released.partnerPwrdis = (s.drv.slots.at slot.val).partnerPwrdis from rfl, hpartner]
      rfl

end Sys2Proof.Machine
end

section
/-! PROOFS. Rebuild, read repair, scrub, return and format of drives (R143 to R160). -/

namespace Sys2Proof.Machine

variable {s t u : State} {w : List Part}

/-! The writes under way of a port. -/

/-- The writes under way that belong to no command stand at every port. -/
structure BackStands (s t : State) : Prop where
  back : ∀ n, (portOf t n).back = (portOf s n).back

theorem BackStands.refl (s : State) : BackStands s s := ⟨fun _ => rfl⟩

theorem BackStands.trans (h : BackStands s t) (h' : BackStands t u) : BackStands s u := ⟨fun n => (h'.back n).trans (h.back n)⟩

theorem BackStands.of_evolves (h : Evolves w s t) (hw : .drivePorts ∉ w) : BackStands s t :=
  ⟨fun n => congrArg DrvPort.back (portOf_of_evolves h hw n)⟩

theorem backStands_onPort (n : Nat) (f : DrvPort → DrvPort) (h : ∀ p, (f p).back = p.back) : BackStands s (onPort n f s) := by
  refine ⟨fun m => ?_⟩
  rw [portOf_onPort]
  split
  next hm => rw [h, hm]
  next => rfl

theorem DrvPort.back_enter (p : DrvPort) (o : Output) : (p.enter o).back = p.back := by
  unfold DrvPort.enter
  split <;> rfl

theorem backStands_enterRing (slot : Nat) (o : Output) : BackStands s (enterRing slot o s) :=
  ⟨(backStands_onPort slot (·.enter o) fun p => p.back_enter o).back⟩

theorem backStands_drainWaits (slot fuel : Nat) : ∀ s : State, BackStands s (drainWaits slot fuel s) := by
  induction fuel with
  | zero => exact fun s => .refl s
  | succ fuel ih =>
    intro s
    have hurgent (os : List Output) : BackStands s (onPort slot (fun p => { p with urgentWait := os }) s) :=
      backStands_onPort slot _ fun _ => by rfl
    have hnormal (os : List Output) : BackStands s (onPort slot (fun p => { p with normalWait := os }) s) :=
      backStands_onPort slot _ fun _ => by rfl
    rw [drainWaits]
    split
    · exact .refl s
    · split
      · split
        · exact ((hurgent _).trans (backStands_enterRing ..)).trans (ih _)
        · exact .refl s
      · split
        · split
          · exact ((hnormal _).trans (backStands_enterRing ..)).trans (ih _)
          · exact .refl s
        · exact .refl s

theorem backStands_drvSubmit (slot : Nat) (urgent : Bool) (o : Output) : BackStands s (drvSubmit slot urgent o s) := by
  unfold drvSubmit
  split
  · exact .refl s
  · split
    · exact backStands_onPort slot _ fun _ => by rfl
    · refine BackStands.trans ?_ (backStands_drainWaits ..)
      exact backStands_onPort slot _ fun _ => by split <;> rfl

/-- A port with one more write under way. -/
def DrvPort.writing (lba blocks : Nat) (urgent : Bool) (p : DrvPort) : DrvPort := { p with back := p.back ++ [(lba, blocks, urgent)] }

theorem drvWrite_eq (slot : Nat) (urgent : Bool) (lba : Nat) (data : Bytes) (s : State) (h : mayDrive s = true) :
    drvWrite slot urgent lba data s = drvSubmit slot urgent (.driveWrite slot lba data urgent)
      (onPort slot (·.writing lba ((data.length + 4095) / 4096) urgent) s) := if_neg (by rw [h]; decide)

theorem drvWrite_underWay {slot : Nat} {urgent : Bool} {lba : Nat} {data : Bytes} (h : mayDrive s = true) :
    WriteUnderWay (drvWrite slot urgent lba data s) slot lba := by
  unfold WriteUnderWay
  rw [drvWrite_eq _ _ _ _ _ h, (backStands_drvSubmit ..).back, portOf_onPort_same]
  simp [DrvPort.writing]

theorem writeUnderWay_drvWrite {slot lba : Nat} (h : WriteUnderWay s slot lba) (slot' : Nat) (urgent : Bool) (lba' : Nat) (data : Bytes) :
    WriteUnderWay (drvWrite slot' urgent lba' data s) slot lba := by
  unfold WriteUnderWay at h ⊢
  by_cases hmay : mayDrive s = true
  · rw [drvWrite_eq _ _ _ _ _ hmay, (backStands_drvSubmit ..).back, portOf_onPort]
    split
    next hslot =>
      subst hslot
      simp only [DrvPort.writing, List.any_append, Bool.or_eq_true]
      exact .inl h
    next => exact h
  · rw [drvWrite, if_pos (by simp [hmay])]
    exact h

theorem drvWrite_step (slot : Nat) (urgent : Bool) (lba : Nat) (data : Bytes) (s : State) :
    Evolves [.drivePorts, .out] s (drvWrite slot urgent lba data s) := drvWrite_evolves .refl Sub.rfl

theorem mayDrive_of_evolves (h : Evolves w s t) (hslots : .driveSlots ∉ w) (hred : .regRed ∉ w) : mayDrive t = mayDrive s := by
  have hsame := h.same .driveSlots hslots
  simp only [Part.Same, Prod.mk.injEq] at hsame
  unfold mayDrive isActive inGroup redMode redState
  rw [hsame.2.1, h.fld_eq F.RED_MODE_MODE hred, h.fld_eq F.RED_STAT_STATE hred]

/-! A write that the drive takes at once (R198). -/

/-- A port with one more command waiting. -/
def DrvPort.queued (o : Output) (urgent : Bool) (p : DrvPort) : DrvPort :=
  if urgent then { p with urgentWait := p.urgentWait ++ p.split o } else { p with normalWait := p.normalWait ++ p.split o }

theorem drvSubmit_eq {slot : Nat} {urgent : Bool} {o : Output} (h : mayDrive s = true) (hfree : s.drv.preempting.contains slot = false) :
    drvSubmit slot urgent o s = drainWaits slot (portOf (onPort slot (·.queued o urgent) s) slot).waits (onPort slot (·.queued o urgent) s) :=
  (if_neg (by rw [h]; decide)).trans (if_neg (by rw [hfree]; simp))

theorem DrvPort.queued_alone {p : DrvPort} {o : Output} (hnormal : p.normalWait = []) (hone : p.pieces o.pages ≤ 1) :
    p.queued o false = { p with normalWait := [o] } := by
  have hsplit : p.split o = [o] := if_pos hone
  unfold DrvPort.queued
  rw [hnormal, hsplit]
  rfl

theorem drainWaits_one {slot : Nat} {o : Output} (hstopped : s.drv.stopped = false) (hurgent : (portOf s slot).urgentWait = [])
    (hnormal : (portOf s slot).normalWait = [o]) (hfits : (portOf s slot).normalFits (s.fld F.DRV_CFG_NORMAL_CAP) o = true) :
    drainWaits slot 1 s = enterRing slot o (onPort slot (fun p => { p with normalWait := [] }) s) := by
  rw [drainWaits]
  rw [if_neg (by rw [hstopped]; exact Bool.false_ne_true), if_neg (by rw [hurgent]; simp)]
  simp only [hnormal, hfits, if_true, drainWaits]

theorem DrvPort.normalFits_writing (p : DrvPort) (lba blocks cap : Nat) (o o' : Output) :
    ({ p.writing lba blocks false with normalWait := [o] } : DrvPort).normalFits cap o' = p.normalFits cap o' := rfl

theorem drvWrite_sends {slot lba : Nat} {data : Bytes} (h : DriveTakes s slot (.driveWrite slot lba data false)) :
    .driveWrite slot lba data false ∈ (drvWrite slot false lba data s).out := by
  obtain ⟨hmay, hfree, hurgent, hnormal, hone, hfits⟩ := h
  have hstopped : s.drv.stopped = false := by
    unfold mayDrive at hmay
    simp only [Bool.and_eq_true, Bool.not_eq_true'] at hmay
    exact hmay.1
  rw [drvWrite_eq _ _ _ _ _ hmay, drvSubmit_eq (s := onPort slot _ s) hmay hfree]
  have hport : portOf (onPort slot (·.queued (.driveWrite slot lba data false) false)
      (onPort slot (·.writing lba ((data.length + 4095) / 4096) false) s)) slot =
      { (portOf s slot).writing lba ((data.length + 4095) / 4096) false with normalWait := [.driveWrite slot lba data false] } := by
    rw [portOf_onPort_same, portOf_onPort_same]
    exact DrvPort.queued_alone hnormal hone
  have hdrained := drainWaits_one (slot := slot) (o := .driveWrite slot lba data false)
    (s := onPort slot (·.queued (.driveWrite slot lba data false) false) (onPort slot (·.writing lba ((data.length + 4095) / 4096) false) s))
    hstopped (by rw [hport]; exact hurgent) (by rw [hport]) (by rw [hport, DrvPort.normalFits_writing]; exact hfits)
  have hwaits : (portOf (onPort slot (·.queued (.driveWrite slot lba data false) false)
      (onPort slot (·.writing lba ((data.length + 4095) / 4096) false) s)) slot).waits = 1 := by
    rw [hport]
    exact congrArg (List.length · + 1) hurgent
  rw [hwaits, hdrained]
  exact sent_send ..

/-! The layout decides by its tables. -/

theorem lay_drvWrite (slot : Nat) (urgent : Bool) (lba : Nat) (data : Bytes) (s : State) : (drvWrite slot urgent lba data s).lay = s.lay :=
  lay_of_evolves (drvWrite_step ..) (by decide)

theorem mayDrive_drvWrite (slot : Nat) (urgent : Bool) (lba : Nat) (data : Bytes) (s : State) :
    mayDrive (drvWrite slot urgent lba data s) = mayDrive s := mayDrive_of_evolves (drvWrite_step ..) (by decide) (by decide)

theorem setGeom_congr (hsets : t.lay.sets = s.lay.sets) (hgeoms : t.lay.geoms = s.lay.geoms) (id : Nat) : setGeom t id = setGeom s id := by
  unfold setGeom
  rw [hsets, hgeoms]

theorem unitPasses_congr (hsets : t.lay.sets = s.lay.sets) (hgeoms : t.lay.geoms = s.lay.geoms) (set row : Nat) :
    unitPasses t set row = unitPasses s set row := by
  funext x
  unfold unitPasses
  rw [setGeom_congr hsets hgeoms, hsets]

theorem recoverUnit_congr (hsets : t.lay.sets = s.lay.sets) (hgeoms : t.lay.geoms = s.lay.geoms) (set row unit : Nat) (units : List UnitRead) :
    recoverUnit t set row unit units = recoverUnit s set row unit units := by
  unfold recoverUnit knownUnits rowHolds
  rw [setGeom_congr hsets hgeoms, unitPasses_congr hsets hgeoms, hsets]

theorem unitLba_congr (h : t.lay.drives = s.lay.drives) (m : Member) (k row : Nat) : unitLba t m k row = unitLba s m k row := by
  unfold unitLba
  rw [h]

/-! A rebuilt set (R151). -/

/-- The set being rebuilt has been written. -/
def rebuildWritten (s : State) : State := s.onLay fun l => { l with rebuild := { l.rebuild with written := true } }

/-- A row's lost unit is written to the replacement's chunk. -/
def rowRebuilt (id n : Nat) (m : Member) (g : Geometry) (r : SetRec) (s : State) (p : Nat × List UnitRead) : State :=
  if !unitWritten g (r.rows.at p.1) n then s
  else match recoverUnit s id p.1 n p.2 with
    | some b => drvWrite m.slot false (unitLba s m g.u p.1) b s
    | none => s

/-- The headers of a rebuilt set's unit. -/
def rebuiltHeader (id n : Nat) (s t : State) : Bytes :=
  (List.range (setGeom s id).rows).flatMap fun row => stripeHeader (setGeom s id).k (setGeom s id).m id (s.lay.sets.at id).geom
    (s.lay.sets.at id).nsid row n (t.cmd.namespaces.at (s.lay.sets.at id).nsid).cipher ((s.lay.sets.at id).rows.at row)

/-- The rows that were read have been rebuilt. -/
def rowsRebuilt (rows : List (List UnitRead)) (id n : Nat) (m : Member) (s : State) : State :=
  ((List.range rows.length).zip rows).foldl (rowRebuilt id n m (setGeom s id) (s.lay.sets.at id)) (rebuildWritten s)

theorem rebuildSetDone_runs {rows : List (List UnitRead)} {id n : Nat} {m : Member} (htarget : s.lay.rebuild.target = some (id, n, m))
    (hwritten : s.lay.rebuild.written = false) (hfull : s.lay.full = false) : exec (.rebuildSetDone rows) s = .next
      (drvWrite m.slot false (headerLba m.chunk) (rebuiltHeader id n s (rowsRebuilt rows id n m s)) (rowsRebuilt rows id n m s)) := by
  have hgo : ¬(s.lay.full = true ∨ s.lay.rebuild.written = true) := by rw [hwritten, hfull]; simp
  change execRebuildSetDone rows s = _
  unfold execRebuildSetDone
  rw [htarget]
  dsimp only
  rw [if_neg hgo]
  rfl

theorem lay_rowRebuilt (id n : Nat) (m : Member) (g : Geometry) (r : SetRec) (s : State) (p : Nat × List UnitRead) :
    (rowRebuilt id n m g r s p).lay = s.lay ∧ mayDrive (rowRebuilt id n m g r s p) = mayDrive s := by
  unfold rowRebuilt
  split
  · exact ⟨rfl, rfl⟩
  · split
    · exact ⟨lay_drvWrite .., mayDrive_drvWrite ..⟩
    · exact ⟨rfl, rfl⟩

theorem lay_rowsRebuilt (id n : Nat) (m : Member) (g : Geometry) (r : SetRec) (l : List (Nat × List UnitRead)) (s : State) :
    (l.foldl (rowRebuilt id n m g r) s).lay = s.lay ∧ mayDrive (l.foldl (rowRebuilt id n m g r) s) = mayDrive s :=
  foldl_keeps (P := fun v => v.lay = s.lay ∧ mayDrive v = mayDrive s) (fun v p hv =>
    ⟨(lay_rowRebuilt id n m g r v p).1.trans hv.1, (lay_rowRebuilt id n m g r v p).2.trans hv.2⟩) l s ⟨rfl, rfl⟩

theorem writeUnderWay_rowRebuilt {slot lba : Nat} (h : WriteUnderWay s slot lba) (id n : Nat) (m : Member) (g : Geometry) (r : SetRec)
    (p : Nat × List UnitRead) : WriteUnderWay (rowRebuilt id n m g r s p) slot lba := by
  unfold rowRebuilt
  split
  · exact h
  · split
    · exact writeUnderWay_drvWrite h ..
    · exact h

theorem rowRebuilt_writes {id n : Nat} {m : Member} {g : Geometry} {r : SetRec} {p : Nat × List UnitRead} (hmay : mayDrive s = true)
    (hwritten : unitWritten g (r.rows.at p.1) n = true) (hrecovered : (recoverUnit s id p.1 n p.2).isSome = true) :
    WriteUnderWay (rowRebuilt id n m g r s p) m.slot (unitLba s m g.u p.1) := by
  obtain ⟨b, hb⟩ := Option.isSome_iff_exists.mp hrecovered
  rw [rowRebuilt, hwritten, Bool.not_true, if_neg Bool.false_ne_true, hb]
  exact drvWrite_underWay hmay

theorem rowsRebuilt_write {id n : Nat} {m : Member} {g : Geometry} {r : SetRec} (l : List (Nat × List UnitRead)) :
    ∀ s : State, mayDrive s = true → ∀ p ∈ l, unitWritten g (r.rows.at p.1) n = true → (recoverUnit s id p.1 n p.2).isSome = true →
      WriteUnderWay (l.foldl (rowRebuilt id n m g r) s) m.slot (unitLba s m g.u p.1) := by
  induction l with
  | nil => exact fun _ _ p hp => nomatch hp
  | cons q l ih =>
    intro s hmay p hp hwritten hrecovered
    rw [List.foldl_cons]
    obtain ⟨hlay, hmay'⟩ := lay_rowRebuilt id n m g r s q
    rcases List.mem_cons.mp hp with rfl | hp
    · exact foldl_keeps (P := fun v => WriteUnderWay v m.slot (unitLba s m g.u p.1))
        (fun v q hv => writeUnderWay_rowRebuilt hv id n m g r q) l _ (rowRebuilt_writes hmay hwritten hrecovered)
    · have hrest := ih (rowRebuilt id n m g r s q) (hmay'.trans hmay) p hp hwritten
        (by rw [recoverUnit_congr (congrArg Lay.sets hlay) (congrArg Lay.geoms hlay)]; exact hrecovered)
      rwa [unitLba_congr (congrArg Lay.drives hlay)] at hrest

/-! Read repair and scrub (R158, R159). -/

theorem readRepair_runs {set row unit : Nat} {units : List UnitRead} {b : Bytes} (hqueued : s.lay.repairs.contains (set, row, unit) = true)
    (hbad : (units.any fun x => x.unit == unit && unitPasses s set row x) = false) (hrecovered : recoverUnit s set row unit units = some b) :
    exec (.readRepair set row unit units) s = .next (rewriteUnit set row unit b s) := by
  change execReadRepair set row unit units s = _
  unfold execReadRepair
  rw [hqueued, hbad, hrecovered]
  rfl

theorem rewriteUnit_leaves {set row unit : Nat} {b : Bytes} (hmay : mayDrive s = true) :
    WriteUnderWay (rewriteUnit set row unit b s) ((s.lay.sets.at set).members.getD unit default).slot (ioLba s set row unit) ∧
    (rewriteUnit set row unit b s).lay = (repaired set row unit s).lay := by
  unfold rewriteUnit
  exact ⟨drvWrite_underWay (s := repaired set row unit s) hmay, lay_drvWrite ..⟩

theorem scrubRow_runs {set row : Nat} {units : List UnitRead} (hon : s.fld F.LAY_CFG_SCRUB_EN = 1) (hsealed : (s.lay.sets.at set).state = .sealed)
    (hrow : row < (s.lay.sets.at set).rowsUsed) (hmay : mayDrive s = true) :
    exec (.scrubRow set row units) s = .next (scrubAdvance set row
      (if ((units.filter fun x => !unitPasses s set row x).map (·.unit)).isEmpty then checkSyndrome set row units s
        else ((units.filter fun x => !unitPasses s set row x).map (·.unit)).foldl (scrubUnit set row units) s)) :=
  if_neg (by rw [hon, hsealed, hmay]; simp [hrow])

/-- A scrub has passed a row. -/
def rowScrubbed (set row : Nat) (s : State) : State := s.onLay fun l => { l with
  scrubSet := if row + 1 < (s.lay.sets.at set).rowsUsed then some set else none
  scrubRows := l.scrubRows.upd (s.lay.sets.at set).nsid (· + 1) }

/-- A scrub begins again. -/
def scrubRestarted (s : State) : State := s.onLay fun l => { l with scrubRows := [], scrubStart := s.now }

theorem scrubAdvance_eq (set row : Nat) (s : State) : scrubAdvance set row s =
    if scrubTotal (rowScrubbed set row s) ≤ countOf (rowScrubbed set row s).lay.scrubRows 0xFFFFFFFF then scrubRestarted (rowScrubbed set row s)
    else rowScrubbed set row s := rfl

theorem scrubAdvance_leaves (set row : Nat) (s : State) :
    ((scrubAdvance set row s).lay.scrubRows = s.lay.scrubRows.upd (s.lay.sets.at set).nsid (· + 1) ∨
      ((scrubAdvance set row s).lay.scrubRows = [] ∧ (scrubAdvance set row s).lay.scrubStart = s.now)) ∧
    (scrubAdvance set row s).out = s.out ∧ (scrubAdvance set row s).lay.scrubRepairs = s.lay.scrubRepairs := by
  rw [scrubAdvance_eq]
  split
  · exact ⟨.inr ⟨rfl, rfl⟩, rfl, rfl⟩
  · exact ⟨.inl rfl, rfl, rfl⟩

theorem setOf_onSet (id m : Nat) (f : SetRec → SetRec) (s : State) :
    (onSet id f s).lay.sets.at m = if m = id then f (s.lay.sets.at id) else s.lay.sets.at m := Tab.at_upd ..

theorem nsid_checkSyndrome (set row : Nat) (units : List UnitRead) (s : State) :
    ((checkSyndrome set row units s).lay.sets.at set).nsid = (s.lay.sets.at set).nsid := by
  have hlay (data : Nat) (v : State) : (emit 0x573 0x709 3 data v).lay = v.lay := lay_of_evolves (emit_evolves .refl Sub.rfl) (by decide)
  unfold checkSyndrome
  split
  · rw [hlay, setOf_onSet, if_pos rfl]
  · rfl

/-- A unit's repair is counted and told. -/
def repairTold (set unit : Nat) (r : SetRec) (s : State) : State :=
  emit 0x573 0x708 1 ((r.members.getD unit default).slot * 2 ^ 30 + set) ((s.bump F.LAY_SCRUB_STAT_REPAIRS).onLay fun l => { l with
    scrubRepairs := l.scrubRepairs.upd r.nsid (· + 1) })

theorem scrubUnit_eq {set row unit : Nat} {units : List UnitRead} {b : Bytes} (h : recoverUnit s set row unit units = some b) :
    scrubUnit set row units s unit = repairTold set unit (s.lay.sets.at set) (rewriteUnit set row unit b s) := by
  unfold scrubUnit
  rw [h]
  rfl

theorem repairTold_leaves (set unit : Nat) (r : SetRec) (s : State) :
    Emitted s (repairTold set unit r s) 0x573 1 0x708 ((r.members.getD unit default).slot * 2 ^ 30 + set) ∧
    (∀ n, portOf (repairTold set unit r s) n = portOf s n) ∧
    (repairTold set unit r s).lay.scrubRepairs = s.lay.scrubRepairs.upd r.nsid (· + 1) := by
  have hemit (data : Nat) (v : State) : Evolves _ v (emit 0x573 0x708 1 data v) := emit_evolves .refl Sub.rfl
  have hbump : Evolves _ s (s.bump F.LAY_SCRUB_STAT_REPAIRS) := state_bump_evolves .refl Sub.rfl
  have hports := fun n => portOf_of_evolves hbump (by decide) n
  have hnow := hbump.now_eq (by decide)
  have hlay := lay_of_evolves hbump (by decide)
  unfold repairTold
  generalize s.bump F.LAY_SCRUB_STAT_REPAIRS = v at hports hnow hlay ⊢
  refine ⟨?_, fun n => (portOf_emit ..).trans (hports n), ?_⟩
  · exact (emitted_now hnow).1 (emitted_emit (s := v.onLay fun l => { l with scrubRepairs := l.scrubRepairs.upd r.nsid (· + 1) }) 0x573 0x708 1
      ((r.members.getD unit default).slot * 2 ^ 30 + set))
  · rw [lay_of_evolves (hemit _ _) (by decide), ← hlay]
    rfl

theorem portOf_scrubAdvance (set row : Nat) (s : State) (n : Nat) : portOf (scrubAdvance set row s) n = portOf s n :=
  portOf_of_evolves (scrubAdvance_evolves .refl Sub.rfl) (by decide) n

/-! A drive that returns (R153). -/

/-- A set that has its unit on a slot again. -/
def setReturned (slot : Nat) (flying : Option Nat) (s : State) (id : Nat) : State :=
  submitRecord (setRecord 4 id (onSet id (fun r => { r with
    gen := r.gen + (if flying = some id then 2 else 1)
    members := r.members.map fun m => if m.slot = slot then { m with lost := false } else m }) s))
    (onSet id (fun r => { r with
      gen := r.gen + (if flying = some id then 2 else 1)
      members := r.members.map fun m => if m.slot = slot then { m with lost := false } else m }) s)

theorem disksStand_setReturned (slot : Nat) (flying : Option Nat) (id : Nat) : DisksStand s (setReturned slot flying s id) :=
  (disksStand_onSet ..).trans (disksStand_submitRecord _)

/-- A drive is in service again. -/
def Drive.returned (d : Drive) : Drive := { d with state := 1 }

/-- The sets of a slot are whole again, and the drive takes the chunks they hold. -/
def setsReturned (slot : Nat) (back : List Nat) (flying : Option Nat) (s : State) : State :=
  (onDrive slot (fun d => { d with used := chunksHeld (back.foldl (setReturned slot flying) s) slot }) (back.foldl (setReturned slot flying) s)).onLay
    fun l => { l with rebuild := { l.rebuild with
      started := l.rebuild.started.filter (· != slot), doneBy := l.rebuild.doneBy.put slot 0 } }

theorem disksStand_setsReturned (slot : Nat) (back : List Nat) (flying : Option Nat) : DisksStand s (setsReturned slot back flying s) := by
  have hback : DisksStand s (back.foldl (setReturned slot flying) s) := disksStand_foldl (fun _ _ => disksStand_setReturned ..) _
  unfold setsReturned
  generalize back.foldl (setReturned slot flying) s = v at hback ⊢
  have htaken : DisksStand v (onDrive slot (fun d => { d with used := chunksHeld v slot }) v) := disksStand_onDrive slot _ fun _ => by rfl
  have hrebuild (u : State) : DisksStand u (u.onLay fun l => { l with rebuild := { l.rebuild with
    started := l.rebuild.started.filter (· != slot), doneBy := l.rebuild.doneBy.put slot 0 } }) := .of_same rfl rfl rfl
  exact (hback.trans htaken).trans (hrebuild _)

/-- What follows a drive's return. -/
def driveTold (slot n : Nat) (s : State) : State := nextRebuild (releaseDeferred (updateAna (emit 0x572 0x704 1 (n * 256 + slot) s)))

/-- A drive is in service again, and the set being rebuilt for it is dropped. -/
def driveBack (slot : Nat) (s : State) : State :=
  onDrive slot (·.returned) (dropTarget (fun id n _ => ((s.lay.sets.at id).members.getD n default).slot == slot) s)

theorem driveBack_leaves (slot : Nat) (s : State) : ((driveBack slot s).lay.drives.at slot).state = 1 ∧ (driveBack slot s).now = s.now := by
  have hdrop (p : Nat → Nat → Member → Bool) : Evolves _ s (dropTarget p s) := dropTarget_evolves .refl Sub.rfl
  have hnow := (hdrop fun id n _ => ((s.lay.sets.at id).members.getD n default).slot == slot).now_eq (by decide)
  unfold driveBack
  generalize dropTarget _ s = v at hnow ⊢
  rw [driveOf_onDrive_same]
  exact ⟨rfl, hnow⟩

theorem driveReturns_eq {slot : Nat} (h : (s.lay.drives.at slot).state = 3) : driveReturns slot s =
    driveTold slot (lostOn s slot).length (setsReturned slot (lostOn s slot)
      (s.lay.rebuild.target.bind fun x => if s.lay.rebuild.written then some x.1 else none)
      (driveBack slot s)) :=
  if_neg (not_not.mpr h)

theorem now_setReturned (slot : Nat) (flying : Option Nat) (s : State) (id : Nat) : (setReturned slot flying s id).now = s.now := by
  have hsubmit (r : JRec) (v : State) : Evolves _ v (submitRecord r v) := submitRecord_evolves .refl Sub.rfl
  unfold setReturned
  rw [(hsubmit _ _).now_eq (by decide)]
  rfl

theorem now_setsReturned (slot : Nat) (back : List Nat) (flying : Option Nat) (s : State) : (setsReturned slot back flying s).now = s.now := by
  have hback : (back.foldl (setReturned slot flying) s).now = s.now :=
    foldl_keeps (P := fun u => u.now = s.now) (fun u id hu => (now_setReturned slot flying u id).trans hu) back s rfl
  unfold setsReturned
  generalize back.foldl (setReturned slot flying) s = v at hback ⊢
  exact hback

theorem driveTold_leaves (slot n : Nat) (s : State) :
    DisksStand s (driveTold slot n s) ∧ Emitted s (driveTold slot n s) 0x572 1 0x704 (n * 256 + slot) := by
  have hana (v : State) : Evolves _ v (updateAna v) := updateAna_evolves .refl Sub.rfl
  have hdeferred (v : State) : Evolves _ v (releaseDeferred v) := releaseDeferred_evolves .refl Sub.rfl
  have hnext (v : State) : Evolves _ v (nextRebuild v) := nextRebuild_evolves .refl Sub.rfl
  have htold := emitted_emit (s := s) 0x572 0x704 1 (n * 256 + slot)
  have hstands : DisksStand s (emit 0x572 0x704 1 (n * 256 + slot) s) := disksStand_emit ..
  unfold driveTold
  generalize emit 0x572 0x704 1 (n * 256 + slot) s = v at htold hstands ⊢
  refine ⟨((hstands.trans (.of_evolves (hana v) (by decide) (by decide) (by decide))).trans disksStand_releaseDeferred).trans disksStand_nextRebuild, ?_⟩
  exact (hnext _).emitted_mono (by decide) ((hdeferred _).emitted_mono (by decide) ((hana v).emitted_mono (by decide) htold))

theorem DisksStand.driveState (h : DisksStand s t) (n : Nat) : (t.lay.drives.at n).state = (s.lay.drives.at n).state := by
  have hsteady := h.drives n
  generalize t.lay.drives.at n = d at hsteady ⊢
  generalize s.lay.drives.at n = d' at hsteady ⊢
  exact (congrArg Drive.state hsteady : d.steady.state = d'.steady.state)

theorem setsReturned_told {slot : Nat} (back : List Nat) (flying : Option Nat) (hstate : (t.lay.drives.at slot).state = 1) (hnow : t.now = s.now) :
    ((driveTold slot back.length (setsReturned slot back flying t)).lay.drives.at slot).state = 1 ∧
    Emitted s (driveTold slot back.length (setsReturned slot back flying t)) 0x572 1 0x704 (back.length * 256 + slot) := by
  have hstands := disksStand_setsReturned (s := t) slot back flying
  have hnow' := (now_setsReturned slot back flying t).trans hnow
  generalize setsReturned slot back flying t = u at hstands hnow' ⊢
  obtain ⟨htold, hemitted⟩ := driveTold_leaves slot back.length u
  exact ⟨((hstands.trans htold).driveState slot).trans hstate, (emitted_now hnow').1 hemitted⟩

theorem driveReturns_leaves {slot : Nat} (h : (s.lay.drives.at slot).state = 3) :
    ((driveReturns slot s).lay.drives.at slot).state = 1 ∧
    Emitted s (driveReturns slot s) 0x572 1 0x704 ((lostOn s slot).length * 256 + slot) := by
  obtain ⟨hstate, hnow⟩ := driveBack_leaves slot s
  rw [driveReturns_eq h]
  exact setsReturned_told _ _ hstate hnow

/-! A drive that is formatted (R160). -/

theorem free_of_evolves (h : Evolves w s t) (hw : .free ∉ w) : t.free = s.free := h.same .free hw

/-- The drive that a format makes of a slot's (R160). -/
def Drive.formatted (i lbas : Nat) (s : State) : Drive := { (default : Drive) with
  index := i, uuid := s.freeVal.toNat % 2 ^ 128, state := 1, lbaCount := lbas, chunkCount := chunkCountOf lbas, joining := true, sbGen := 1 }

/-- The slot has its new drive, with an empty ring. -/
def driveFormatted (slot i lbas : Nat) (s : State) : State :=
  (onDrive slot (fun _ => Drive.formatted i lbas s) s.drawn).onLay fun l => { l with ringPos := l.ringPos.put slot 0 }

/-- Both superblocks of a new drive are being written, and what waits for a drive goes on. -/
def formatFollows (slot lbas : Nat) (d : Drive) (s : State) : State :=
  nextRebuild (releaseDeferred (startCheckpoint (drvWrite slot false (lbas - 256) (superblock (drvWrite slot false 0 (superblock s slot d) s) slot d)
    (drvWrite slot false 0 (superblock s slot d) s))))

theorem formatDrive_eq {slot i lbas : Nat} (h : freeIndex s slot = some i) (hsize : 2 ^ 28 ≤ lbas) :
    formatDrive slot lbas s = formatFollows slot lbas (Drive.formatted i lbas (clearSlot slot s)) (driveFormatted slot i lbas (clearSlot slot s)) := by
  have hlarge : ¬ lbas * 4096 < 2 ^ 40 := by omega
  unfold formatDrive
  rw [h]
  dsimp only
  rw [if_neg hlarge]
  rfl

theorem formatFollows_leaves (slot lbas : Nat) (d : Drive) (s : State) :
    DisksStand s (formatFollows slot lbas d s) ∧ (formatFollows slot lbas d s).free = s.free := by
  have hwrite (urgent : Bool) (lba : Nat) (b : Bytes) (v : State) : DisksStand v (drvWrite slot urgent lba b v) := disksStand_drvWrite ..
  have hckpt (v : State) : Evolves _ v (startCheckpoint v) := startCheckpoint_evolves .refl Sub.rfl
  have hdeferred (v : State) : Evolves _ v (releaseDeferred v) := releaseDeferred_evolves .refl Sub.rfl
  have hnext (v : State) : Evolves _ v (nextRebuild v) := nextRebuild_evolves .refl Sub.rfl
  unfold formatFollows
  refine ⟨((((hwrite ..).trans (hwrite ..)).trans disksStand_startCheckpoint).trans disksStand_releaseDeferred).trans disksStand_nextRebuild, ?_⟩
  rw [free_of_evolves (hnext _) (by decide), free_of_evolves (hdeferred _) (by decide), free_of_evolves (hckpt _) (by decide),
    free_of_evolves (drvWrite_step ..) (by decide), free_of_evolves (drvWrite_step ..) (by decide)]

theorem formatDrive_leaves {slot i lbas : Nat} (h : freeIndex s slot = some i) (hsize : 2 ^ 28 ≤ lbas) :
    ((formatDrive slot lbas s).lay.drives.at slot).state = 1 ∧
    ((formatDrive slot lbas s).lay.drives.at slot).uuid = s.freeVal.toNat % 2 ^ 128 ∧ (formatDrive slot lbas s).free = s.free + 1 ∧
    ((formatDrive slot lbas s).lay.drives.at slot).lbaCount = lbas := by
  have hclear : Evolves _ s (clearSlot slot s) := clearSlot_evolves .refl Sub.rfl
  have hfree := free_of_evolves hclear (by decide)
  rw [formatDrive_eq h hsize]
  generalize clearSlot slot s = v at hfree ⊢
  have hdrive : (driveFormatted slot i lbas v).lay.drives.at slot = Drive.formatted i lbas v := driveOf_onDrive_same slot (fun _ => Drive.formatted i lbas v) v.drawn
  have hdrawn : (driveFormatted slot i lbas v).free = v.free + 1 := rfl
  have huuid : (Drive.formatted i lbas v).uuid = s.freeVal.toNat % 2 ^ 128 := by
    unfold State.freeVal
    rw [← hfree]
    rfl
  obtain ⟨hstands, hkept⟩ := formatFollows_leaves slot lbas (Drive.formatted i lbas v) (driveFormatted slot i lbas v)
  generalize formatFollows slot lbas (Drive.formatted i lbas v) (driveFormatted slot i lbas v) = u at hstands hkept ⊢
  have hsteady := hstands.drives slot
  rw [hdrive] at hsteady
  refine ⟨congrArg Drive.state hsteady, (congrArg Drive.uuid hsteady).trans huuid, ?_, congrArg Drive.lbaCount hsteady⟩
  rw [hkept, hdrawn, hfree]

theorem layFormatOrder_runs {path : Fin 5} {session slot : Nat} {value : Word} (hwrite : MayWrite path session (F.LAY_FORMAT_ORDER_CONFIRM.addr 0) s)
    (horder : bitsOf value.toNat 31 24 = 0xA5 ∧ bitsOf value.toNat 5 0 = slot ∧ slot < 48)
    (hstate : (s.lay.drives.at slot).state = 0 ∨ (s.lay.drives.at slot).state = 4) (hactive : isActive s = true)
    (hreplayed : s.lay.replayEnded = true) (hserved : served s slot = true) :
    exec (.layFormatOrder path session value) s = .next (formatDrive slot (portOf s slot).lbaCount
      (writeGate path.val session (F.LAY_FORMAT_ORDER_CONFIRM.addr 0) value s).1) := by
  obtain ⟨hconfirm, hslot, hlt⟩ := horder
  have hgo := writeGate_performed value hwrite
  have hgate := writeGate_evolves_refl path.val session (F.LAY_FORMAT_ORDER_CONFIRM.addr 0) value s
  have hlay := lay_of_evolves hgate (by decide)
  have hport := portOf_of_evolves hgate (by decide) slot
  have hact : isActive (writeGate path.val session (F.LAY_FORMAT_ORDER_CONFIRM.addr 0) value s).1 = isActive s := by
    unfold isActive inGroup redMode redState
    rw [hgate.fld_eq F.RED_MODE_MODE (by decide), hgate.fld_eq F.RED_STAT_STATE (by decide)]
  change execLayFormatOrder path session value s = _
  unfold execLayFormatOrder
  dsimp only
  rw [hgo, hslot, hlay, hconfirm, hact, hactive, hreplayed, served_of_portOf hport, hserved, hport]
  exact if_pos (by simp [hlt, hstate])

/-- Settles O42: a write to a drive leaves the layout's tables, so each row is recovered as the first one was, and a write under way
stays so. -/
theorem layoutRepairsComplete : Obligations.LayoutRepairsComplete := by
  unfold Obligations.LayoutRepairsComplete
  refine ⟨fun rows id n m s htarget hwritten hfull hmay => ?rebuild, fun set row unit units b s hqueued hbad hrecovered hmay => ?repair,
    fun slot s h => ?returned, fun set row units s hon hsealed hrow hmay hgood => ?scrubbed,
    fun set row x units b s hon hsealed hrow hmay hunits hrecovered => ?found,
    fun path session value slot s hwrite horder hstate hactive hreplayed hdrive hsize => ?format⟩
  case rebuild =>
    refine .of_exec (rebuildSetDone_runs htarget hwritten hfull) ?_
    have hrows := rowsRebuilt_write (id := id) (n := n) (m := m) (g := setGeom s id) (r := s.lay.sets.at id)
      ((List.range rows.length).zip rows) (rebuildWritten s) hmay
    obtain ⟨hlay, hmay'⟩ := lay_rowsRebuilt id n m (setGeom s id) (s.lay.sets.at id) ((List.range rows.length).zip rows) (rebuildWritten s)
    change ∀ p ∈ _, _ → _ → WriteUnderWay (rowsRebuilt rows id n m s) _ _ at hrows
    change (rowsRebuilt rows id n m s).lay = _ at hlay
    change mayDrive (rowsRebuilt rows id n m s) = _ at hmay'
    generalize rowsRebuilt rows id n m s = v at hrows hlay hmay' ⊢
    refine ⟨?_, ?_, drvWrite_underWay (hmay'.trans hmay), fun p hp hwritten hrecovered => ?_⟩
    · rw [lay_drvWrite, hlay]
      rfl
    · rw [lay_drvWrite, hlay]
      rfl
    · exact writeUnderWay_drvWrite (hrows p hp hwritten (by rwa [recoverUnit_congr rfl rfl])) ..
  case repair =>
    refine .of_exec (readRepair_runs hqueued hbad hrecovered) ?_
    obtain ⟨hwrite, hlay⟩ := rewriteUnit_leaves (set := set) (row := row) (unit := unit) (b := b) hmay
    refine ⟨hwrite, fun htakes => drvWrite_sends (s := repaired set row unit s) htakes, ?_, ?_⟩
    · rw [hlay]
      rfl
    · rw [hlay]
      rfl
  case returned => exact .of_exec rfl (driveReturns_leaves h)
  case scrubbed =>
    refine .of_exec (scrubRow_runs hon hsealed hrow hmay) ?_
    have hnone : (units.filter fun x => !unitPasses s set row x).map (·.unit) = [] := by
      rw [List.map_eq_nil_iff, List.filter_eq_nil_iff]
      intro x hx
      simp [List.all_eq_true.mp hgood x hx]
    rw [hnone, List.isEmpty_nil, if_pos rfl]
    have hcheck : Evolves _ s (checkSyndrome set row units s) := checkSyndrome_evolves .refl Sub.rfl
    have hwork := hcheck.same .layoutWork (by decide)
    simp only [Part.Same, Prod.mk.injEq] at hwork
    obtain ⟨_, _, _, _, _, _, _, _, hscrubRows, hscrubRepairs⟩ := hwork
    obtain ⟨hrows, hout, hrepairs⟩ := scrubAdvance_leaves set row (checkSyndrome set row units s)
    rw [hscrubRows, nsid_checkSyndrome, hcheck.now_eq (by decide)] at hrows
    exact ⟨hrows, hout.trans (hcheck.same .out (by decide)), hrepairs.trans hscrubRepairs⟩
  case found =>
    obtain ⟨hbad, hrest⟩ := hunits
    have hruns := scrubRow_runs (units := x :: units) hon hsealed hrow hmay
    have hone : ((x :: units).filter fun x => !unitPasses s set row x).map (·.unit) = [x.unit] := by
      rw [List.filter_cons, hbad]
      have hnone : (units.filter fun x => !unitPasses s set row x) = [] :=
        List.filter_eq_nil_iff.mpr fun y hy => by simp [List.all_eq_true.mp hrest y hy]
      simp [hnone]
    rw [hone, List.isEmpty_cons, if_neg Bool.false_ne_true, List.foldl_cons, List.foldl_nil, scrubUnit_eq hrecovered] at hruns
    refine .of_exec hruns ?_
    obtain ⟨hwrite, hlay⟩ := rewriteUnit_leaves (set := set) (row := row) (unit := x.unit) (b := b) hmay
    have hnow : (rewriteUnit set row x.unit b s).now = s.now := (rewriteUnit_evolves .refl Sub.rfl : Evolves _ s (rewriteUnit set row x.unit b s)).now_eq (by decide)
    generalize rewriteUnit set row x.unit b s = v at hwrite hlay hnow ⊢
    obtain ⟨htold, hports, hrepairs⟩ := repairTold_leaves set x.unit (s.lay.sets.at set) v
    have hadvance : Evolves _ (repairTold set x.unit (s.lay.sets.at set) v) (scrubAdvance set row (repairTold set x.unit (s.lay.sets.at set) v)) :=
      scrubAdvance_evolves .refl Sub.rfl
    refine ⟨?_, hadvance.emitted_mono (by decide) ((emitted_now hnow).1 htold), ?_⟩
    · unfold WriteUnderWay at hwrite ⊢
      rw [portOf_scrubAdvance, hports]
      exact hwrite
    · rw [(scrubAdvance_leaves ..).2.2, hrepairs, hlay]
      rfl
  case format =>
    obtain ⟨hserved, hfree⟩ := hdrive
    obtain ⟨i, hi⟩ := Option.isSome_iff_exists.mp hfree
    refine .of_exec (layFormatOrder_runs hwrite horder hstate hactive hreplayed hserved) ?_
    have hgate := writeGate_evolves_refl path.val session (F.LAY_FORMAT_ORDER_CONFIRM.addr 0) value s
    have hlay := lay_of_evolves hgate (by decide)
    have hdrawn := free_of_evolves hgate (by decide)
    generalize (writeGate path.val session (F.LAY_FORMAT_ORDER_CONFIRM.addr 0) value s).1 = v at hlay hdrawn ⊢
    have hi' : freeIndex v slot = some i := by
      unfold freeIndex driveAt at hi ⊢
      rwa [hlay]
    obtain ⟨hone, huuid, hfree, hlbas⟩ := formatDrive_leaves hi' hsize
    exact ⟨hone, huuid.trans (by unfold State.freeVal; rw [hdrawn]), by rw [hfree, hdrawn], hlbas⟩

end Sys2Proof.Machine
end

section
/-! PROOFS. O41: layout lanes, sets, checkpoints and replay (R139 to R149). -/

namespace Sys2Proof.Machine

/-- A state out of canonical form: its table of sets lists set 0 twice, first SEALING with a durable seal record, then FREE. One drive is
in service, and a batch chunk waits for room in the store. -/
def setListedTwice : State := { (default : State) with
  lay := { (default : Lay) with
    sets := [(0, { (default : SetRec) with state := .sealing, sealDurable := true }), (0, { (default : SetRec) with gen := 1 })]
    drives := [(0, { (default : Drive) with state := 1 })] }
  cmd := { (default : Cmd) with namespaces := [(storeNsid, { (default : Namespace) with kv := true })] }
  fix := { (default : Fix) with storeWait := [([], some [0])] } }

/-- The search for a free set finds the number of a set that reads SEALING. -/
theorem freeSetId_setListedTwice : freeSetId setListedTwice = 0 ∧ (setListedTwice.lay.sets.at 0).state = .sealing := by decide

/-- Where set 0 stands after a command, if the command answers a state. -/
def setAfter (i : Instr) (s : State) : Option SetState :=
  match exec i s with
  | .next t => some (t.lay.sets.at 0).state
  | _ => none

/-- The chunk that waited opens set 0 over the seal. -/
theorem setSealed_setListedTwice : setAfter (.setSealed 0) setListedTwice = some .opened := by decide +kernel

theorem setAfter_eq {i : Instr} {s t : State} (h : exec i s = .next t) : setAfter i s = some (t.lay.sets.at 0).state := by
  unfold setAfter
  rw [h]

/-- Refutes O41: its fourth clause says that a set whose seal is complete ends SEALED or RECLAIMING in every state. Once the set is SEALED
the store changes that waited are tried again, and one may open a set; where the table of sets lists a number twice (canonical form rules
that out, and the clause does not suppose it), the free number it takes may be the sealed set's. -/
theorem not_layoutSetsComplete : ¬ Obligations.LayoutSetsComplete := by
  unfold Obligations.LayoutSetsComplete
  rintro ⟨-, -, -, hseal, -⟩
  obtain ⟨t, hexec, hstate, -⟩ := hseal 0 setListedTwice (by decide) (by decide) (by decide)
  have hopened : (t.lay.sets.at 0).state = .opened :=
    Option.some.inj ((setAfter_eq hexec).symm.trans setSealed_setListedTwice)
  rw [hopened] at hstate
  exact absurd hstate (by decide)

end Sys2Proof.Machine
end

section
/-! PROOFS. What the layout's writes and the journal leave of the command table (R52 to R58, R140). -/

namespace Sys2Proof.Machine

variable {s t u : State} {w : List Part}

/-- The command table, the queue of commands and the list of those that wait for the journal stand. -/
structure TableStands (s t : State) : Prop where
  table : t.cmd.table = s.cmd.table
  queued : t.cmd.queued = s.cmd.queued
  waiting : t.lay.waitingJournal = s.lay.waitingJournal

theorem TableStands.refl (s : State) : TableStands s s := ⟨rfl, rfl, rfl⟩

theorem TableStands.trans (h : TableStands s t) (h' : TableStands t u) : TableStands s u :=
  ⟨h'.table.trans h.table, h'.queued.trans h.queued, h'.waiting.trans h.waiting⟩

theorem waitingJournal_of_evolves (h : Evolves w s t) (hw : .journal ∉ w) : t.lay.waitingJournal = s.lay.waitingJournal := by
  have hsame := h.same .journal hw
  simp only [Part.Same, Prod.mk.injEq] at hsame
  obtain ⟨_, _, _, _, hwaiting, _, _⟩ := hsame
  exact hwaiting

theorem TableStands.of_evolves (h : Evolves w s t) (hcommands : .commands ∉ w) (hjournal : .journal ∉ w) : TableStands s t :=
  ⟨table_of_evolves h hcommands, queued_of_evolves h hcommands, waitingJournal_of_evolves h hjournal⟩

theorem TableStands.of_same (hcmd : t.cmd = s.cmd) (hwaiting : t.lay.waitingJournal = s.lay.waitingJournal) : TableStands s t :=
  ⟨congrArg Cmd.table hcmd, congrArg Cmd.queued hcmd, hwaiting⟩

theorem tableStands_foldl {α : Type} {f : State → α → State} (h : ∀ v x, TableStands v (f v x)) (l : List α) : TableStands s (l.foldl f s) :=
  foldl_keeps (P := TableStands s) (fun v x hv => hv.trans (h v x)) l s (.refl s)

theorem tableStands_emit (src ev sev data : Nat) (s : State) : TableStands s (emit src ev sev data s) := .of_same rfl rfl

theorem tableStands_onSet (id : Nat) (f : SetRec → SetRec) (s : State) : TableStands s (onSet id f s) := .of_same rfl rfl

theorem tableStands_onDrive (n : Nat) (f : Drive → Drive) (s : State) : TableStands s (onDrive n f s) := .of_same rfl rfl

theorem tableStands_onLay (f : Lay → Lay) (s : State) (h : (f s.lay).waitingJournal = s.lay.waitingJournal) :
    TableStands s (s.onLay f) := .of_same rfl h

theorem tableStands_drvSubmit (slot : Nat) (urgent : Bool) (o : Output) (s : State) : TableStands s (drvSubmit slot urgent o s) :=
  .of_evolves (drvSubmit_evolves .refl Sub.rfl) (by decide) (by decide)

theorem tableStands_drvWrite (slot : Nat) (urgent : Bool) (lba : Nat) (data : Bytes) (s : State) :
    TableStands s (drvWrite slot urgent lba data s) := .of_evolves (drvWrite_step ..) (by decide) (by decide)

theorem tableStands_boundEnter (bit : Nat) (s : State) : TableStands s (boundEnter bit s) := by
  have hbound (v : State) : TableStands v (v.onCmd fun c => { c with boundStat := setBit c.boundStat bit true }) := ⟨rfl, rfl, rfl⟩
  unfold boundEnter
  split
  · exact .refl s
  · exact (hbound s).trans (tableStands_emit ..)

theorem tableStands_boundLeave (bit : Nat) (s : State) : TableStands s (boundLeave bit s) := by
  have hbound (v : State) : TableStands v (v.onCmd fun c => { c with boundStat := setBit c.boundStat bit false }) := ⟨rfl, rfl, rfl⟩
  unfold boundLeave
  dsimp only
  split
  · exact .refl s
  · split
    · exact (hbound s).trans (tableStands_emit ..)
    · exact hbound s

/-- The throttle follows the fullest ring. -/
def throttled (s : State) : State :=
  if !s.lay.throttle ∧ 75 * ringBlocks ≤ fullestRing s * 100 then
    emit 0x571 0x70C 2 (fillPct s) (s.onLay fun l => { l with throttle := true })
  else if s.lay.throttle ∧ fullestRing s * 100 < 70 * ringBlocks then s.onLay fun l => { l with throttle := false }
  else s

theorem journalThresholds_eq (s : State) : journalThresholds s =
    if !(throttled s).lay.full ∧ 15 * ringBlocks ≤ fullestRing s * 16 then
      boundEnter 5 (emit 0x571 0x70D 3 (fillPct (throttled s)) ((throttled s).onLay fun l => { l with full := true }))
    else if (throttled s).lay.full ∧ fullestRing s * 8 < 7 * ringBlocks then boundLeave 5 ((throttled s).onLay fun l => { l with full := false })
    else throttled s := rfl

theorem tableStands_journalThresholds (s : State) : TableStands s (journalThresholds s) := by
  have hthrottle (b : Bool) (v : State) : TableStands v (v.onLay fun l => { l with throttle := b }) := .of_same rfl rfl
  have hfull (b : Bool) (v : State) : TableStands v (v.onLay fun l => { l with full := b }) := .of_same rfl rfl
  have hthrottled : TableStands s (throttled s) := by
    unfold throttled
    split
    · exact (hthrottle true s).trans (tableStands_emit ..)
    · split
      · exact hthrottle false s
      · exact .refl s
  rw [journalThresholds_eq]
  generalize throttled s = v at hthrottled ⊢
  split
  · exact ((hthrottled.trans (hfull true v)).trans (tableStands_emit ..)).trans (tableStands_boundEnter ..)
  · split
    · exact (hthrottled.trans (hfull false v)).trans (tableStands_boundLeave ..)
    · exact hthrottled

theorem tableStands_writeCopy (r : JRec) (copy slot : Nat) (s : State) : TableStands s (writeCopy r copy slot s).1 := by
  unfold writeCopy
  dsimp only
  refine TableStands.trans ?_ (tableStands_onLay _ _ rfl)
  refine TableStands.trans ?_ (tableStands_drvSubmit ..)
  generalize (if ringBlocks < s.lay.ringPos.at slot + r.blocks then ringBlocks - s.lay.ringPos.at slot else 0) = pad
  split
  · exact .refl s
  · exact tableStands_drvWrite ..

theorem tableStands_writeCopies (r : JRec) (l : List Nat) : ∀ (i : Nat) (s : State), TableStands s (writeCopies r i l s).1 := by
  induction l with
  | nil => exact fun _ s => .refl s
  | cons d ds ih => exact fun i s => (tableStands_writeCopy r i d s).trans (ih (i + 1) _)

theorem tableStands_startCheckpoint (s : State) : TableStands s (startCheckpoint s) := by
  have hstarted : TableStands s (ckptStarted s) := .of_same rfl rfl
  rw [startCheckpoint_eq]
  split
  · exact .refl s
  · exact hstarted.trans (tableStands_foldl (fun _ _ => tableStands_drvSubmit ..) _)

theorem tableStands_afterJournal (s : State) : TableStands s (afterJournal s) := by
  unfold afterJournal
  dsimp only
  refine TableStands.trans ?_ (tableStands_journalThresholds _)
  split
  · exact tableStands_startCheckpoint s
  · exact .refl s

theorem tableStands_submitRecord (r : JRec) (s : State) : TableStands s (submitRecord r s) := by
  unfold submitRecord
  split
  · exact tableStands_onLay _ _ rfl
  · dsimp only
    refine TableStands.trans ?_ (tableStands_afterJournal _)
    refine TableStands.trans ?_ (tableStands_onLay _ _ rfl)
    refine TableStands.trans ?_ (tableStands_writeCopies ..)
    exact tableStands_onLay _ _ rfl

theorem tableStands_sealIfResolved (id : Nat) (s : State) : TableStands s (sealIfResolved id s) := by
  unfold sealIfResolved
  dsimp only
  split
  · refine TableStands.trans ?_ (tableStands_submitRecord ..)
    refine TableStands.trans (tableStands_foldl (fun v x => ?_) _) (tableStands_onSet ..)
    split
    · exact .refl v
    · exact tableStands_drvWrite ..
  · exact .refl s

theorem tableStands_resolveRows (id rows : Nat) (s : State) : TableStands s (resolveRows id rows s) :=
  (tableStands_onSet ..).trans (tableStands_sealIfResolved ..)

theorem tableStands_releaseAllocs (l : List Alloc) (s : State) : TableStands s (releaseAllocs l s) :=
  tableStands_foldl (fun v a => tableStands_resolveRows a.set a.rows v) l

theorem tableStands_startSeal (id reason : Nat) (s : State) : TableStands s (startSeal id reason s) := by
  unfold startSeal
  split
  · exact (tableStands_onSet ..).trans (tableStands_sealIfResolved ..)
  · exact .refl s

theorem tableStands_takeChunk (s : State) (m : Member) : TableStands s (takeChunk s m) := tableStands_onDrive ..

theorem tableStands_releaseChunk (s : State) (m : Member) : TableStands s (releaseChunk s m) := tableStands_onDrive ..

theorem tableStands_takeRows (id rows bytes : Nat) (s : State) : TableStands s (takeRows id rows bytes s).1 := by
  have hextent (v : State) : TableStands v (v.onLay fun l => { l with extentNext := l.extentNext + 1 }) := .of_same rfl rfl
  unfold takeRows
  dsimp only
  split
  · exact ((hextent _).trans (tableStands_onSet ..)).trans (tableStands_startSeal ..)
  · exact (hextent _).trans (tableStands_onSet ..)

theorem tableStands_openSet (nsid : Nat) (s : State) : TableStands s (openSet nsid s).1 := by
  have hfull : TableStands s (if 1024 ≤ (setsIn s .opened).length then
      (match oldestOpen s with | some id => startSeal id 2 s | none => s) else s) := by
    split
    · split
      · exact tableStands_startSeal ..
      · exact .refl s
    · exact .refl s
  unfold openSet
  dsimp only
  refine TableStands.trans ?_ (tableStands_submitRecord ..)
  refine TableStands.trans ?_ (tableStands_onSet ..)
  refine TableStands.trans ?_ (tableStands_foldl tableStands_takeChunk _)
  exact hfull

theorem tableStands_allocate (nsid fuel : Nat) : ∀ (bytes : Nat) (s : State) (r : State × List Alloc),
    allocate fuel nsid bytes s = .ok r → TableStands s r.1 := by
  induction fuel with
  | zero => exact fun _ _ _ h => by rw [allocate] at h; cases h
  | succ fuel ih =>
    intro bytes s r h
    rw [allocate] at h
    dsimp only at h
    split at h
    · cases h; exact .refl s
    · split at h
      · split at h
        · cases h
        · next v as hrest =>
          have hlater := ih _ _ _ hrest
          cases h
          exact (tableStands_takeRows ..).trans hlater
      · split at h
        · cases h
        · exact (tableStands_openSet nsid s).trans (ih _ _ _ h)

theorem tableStands_allocateOne (nsid bytes : Nat) {r : State × List Alloc} (h : allocateOne nsid bytes s = .ok r) : TableStands s r.1 := by
  unfold allocateOne at h
  dsimp only at h
  split at h
  · cases h; exact .refl s
  · split at h
    · cases h
      exact tableStands_takeRows _ _ bytes s
    · split at h
      · cases h
      · have hopened := tableStands_openSet nsid s
        generalize openSet nsid s = o at h hopened
        obtain ⟨v, id⟩ := o
        rw [← Except.ok.inj h]
        exact hopened.trans (tableStands_takeRows _ _ bytes _)

theorem tableStands_allocateFor (cap : Capsule) {r : State × List Alloc} (h : allocateFor cap s = .ok r) : TableStands s r.1 := by
  unfold allocateFor at h
  dsimp only at h
  split at h
  · cases h
  · next t as hr =>
    split at h
    · cases h
    · rw [← Except.ok.inj h]
      split at hr
      · exact tableStands_allocateOne _ _ hr
      · exact tableStands_allocate _ 4096 _ _ _ hr

theorem tableStands_retire (s : State) : TableStands s (retire s) := (tableStands_onLay _ _ rfl).trans (tableStands_journalThresholds _)

theorem tableStands_freeReclaimed (id : Nat) (s : State) : TableStands s (freeReclaimed id s) := by
  unfold freeReclaimed
  dsimp only
  split
  · exact .refl s
  · refine TableStands.trans ?_ (tableStands_emit ..)
    refine TableStands.trans ?_ (tableStands_foldl tableStands_releaseChunk _)
    refine TableStands.trans ?_ (tableStands_onSet ..)
    refine TableStands.trans ?_ (tableStands_submitRecord ..)
    exact tableStands_onSet ..

theorem tableStands_commitRuns (jseq gts : Nat) (l : List Alloc) (crcs : List Nat) (s : State) : TableStands s (commitRuns jseq gts l crcs s) := by
  have hruns : Evolves _ s (runRows jseq gts l crcs s) := runRows_evolves .refl Sub.rfl
  unfold commitRuns
  exact (TableStands.of_evolves hruns (by decide) (by decide)).trans (tableStands_releaseAllocs ..)

/-! One entry of the table. -/

/-- An entry of the table and the queue of commands stand, and the entry does not begin to wait for the journal. -/
structure EntryStands (i : Nat) (s t : State) : Prop where
  entry : entryOf t i = entryOf s i
  queued : t.cmd.queued = s.cmd.queued
  waiting : i ∉ s.lay.waitingJournal → i ∉ t.lay.waitingJournal

variable {i j : Nat}

theorem EntryStands.refl (i : Nat) (s : State) : EntryStands i s s := ⟨rfl, rfl, id⟩

theorem EntryStands.trans (h : EntryStands i s t) (h' : EntryStands i t u) : EntryStands i s u :=
  ⟨h'.entry.trans h.entry, h'.queued.trans h.queued, fun hi => h'.waiting (h.waiting hi)⟩

theorem TableStands.entryStands (h : TableStands s t) (i : Nat) : EntryStands i s t :=
  ⟨by unfold entryOf; rw [h.table], h.queued, fun hi => by rwa [h.waiting]⟩

theorem entryStands_foldl {α : Type} {f : State → α → State} (h : ∀ v x, EntryStands i v (f v x)) (l : List α) : EntryStands i s (l.foldl f s) :=
  foldl_keeps (P := EntryStands i s) (fun v x hv => hv.trans (h v x)) l s (.refl i s)

theorem entryOf_onEntry_other (h : i ≠ j) (f : Entry → Entry) (s : State) : entryOf (onEntry j f s) i = entryOf s i :=
  (Tab.at_upd ..).trans (if_neg h)

theorem entryStands_onEntry (h : i ≠ j) (f : Entry → Entry) (s : State) : EntryStands i s (onEntry j f s) :=
  ⟨entryOf_onEntry_other h f s, rfl, id⟩

theorem entryStands_toPosting (h : i ≠ j) (st : Status) (dw0 : Nat) (s : State) : EntryStands i s (toPosting j st dw0 s) := entryStands_onEntry h ..

theorem entryStands_waitJournal (h : i ≠ j) (s : State) : EntryStands i s (waitJournal j s) := by
  refine ⟨entryOf_onEntry_other h _ _, rfl, fun hi => ?_⟩
  change i ∉ if s.lay.waitingJournal.contains j then s.lay.waitingJournal else s.lay.waitingJournal ++ [j]
  split
  · exact hi
  · simp [hi, h]

theorem entryStands_entryGone (h : i ≠ j) (s : State) : EntryStands i s (entryGone j s) := by
  refine ⟨(Tab.at_put s.cmd.table j default i).trans (if_neg h), rfl, fun hi hin => hi (List.mem_filter.mp hin).1⟩

theorem entryStands_sweepSlots (i : Nat) (s : State) : EntryStands i s (sweepSlots s) := by
  have hcells (l : List Nat) (v : State) : Evolves _ v (releaseCells l v) := releaseCells_evolves .refl Sub.rfl
  have hslots (f : List CapSlot → List CapSlot) (v : State) : TableStands v (v.onCmd fun c => { c with slots := f c.slots }) := ⟨rfl, rfl, rfl⟩
  unfold sweepSlots
  dsimp only
  split
  · exact .refl i s
  · exact ((hslots _ s).trans (.of_evolves (hcells _ _) (by decide) (by decide))).entryStands i

theorem entryStands_resolve (h : i ≠ j) (r : Resolution) (s : State) : EntryStands i s (resolve j r s) := by
  have hledger (n : Nat) (k : Int) (v : State) : Evolves _ v (ledger n k v) := ledger_evolves .refl Sub.rfl
  have hstands (n : Nat) (k : Int) (v : State) : TableStands v (ledger n k v) := .of_evolves (hledger n k v) (by decide) (by decide)
  unfold resolve
  dsimp only
  split
  · exact entryStands_onEntry h ..
  · exact (entryStands_onEntry h ..).trans (((hstands ..).trans (hstands ..)).entryStands i)

theorem entryStands_freeEntry (h : i ≠ j) (r : Resolution) (s : State) : EntryStands i s (freeEntry j r s) := by
  have hforget (v : State) : Evolves _ v (forgetEntry j (r == .done) v) := forgetEntry_evolves .refl Sub.rfl
  have hlanes (v : State) : Evolves _ v (dropLanes j v) := dropLanes_evolves .refl Sub.rfl
  have hcells (l : List Nat) (v : State) : Evolves _ v (releaseCells l v) := releaseCells_evolves .refl Sub.rfl
  rw [freeEntry_eq]
  refine EntryStands.trans ?_ (entryStands_sweepSlots ..)
  refine EntryStands.trans ?_ (TableStands.entryStands (.of_evolves (hcells _ _) (by decide) (by decide)) i)
  refine EntryStands.trans ?_ (entryStands_entryGone h _)
  refine EntryStands.trans ?_ (TableStands.entryStands (.of_evolves (hlanes _) (by decide) (by decide)) i)
  refine EntryStands.trans ?_ (TableStands.entryStands (.of_evolves (hforget _) (by decide) (by decide)) i)
  exact entryStands_resolve h ..

theorem entryStands_dropOwn (h : i ≠ j) (s : State) : EntryStands i s (dropOwn j s) :=
  ((tableStands_releaseAllocs ..).entryStands i).trans (entryStands_freeEntry h ..)

theorem entryStands_journalStep (h : i ≠ j) (s : State) : EntryStands i s (journalStep j s) := by
  have hlist (v : State) : EntryStands i v (v.onLay fun l => { l with waitingJournal := l.waitingJournal.filter (· != j) }) :=
    ⟨rfl, rfl, fun hi hin => hi (List.mem_filter.mp hin).1⟩
  unfold journalStep
  dsimp only
  split
  · exact entryStands_dropOwn h s
  · split
    · split
      · exact entryStands_waitJournal h s
      · exact ((entryStands_onEntry h ..).trans ((tableStands_releaseAllocs ..).entryStands i)).trans (entryStands_toPosting h ..)
    · split
      · exact entryStands_waitJournal h s
      · refine EntryStands.trans ?_ ((tableStands_foldl (fun v r => tableStands_submitRecord r v) _).entryStands i)
        refine EntryStands.trans ?_ ((tableStands_submitRecord ..).entryStands i)
        refine EntryStands.trans ?_ (entryStands_onEntry h ..)
        exact hlist s

theorem entryStands_releaseWaiting (h : i ∉ s.lay.waitingJournal) : EntryStands i s (releaseWaiting s) := by
  unfold releaseWaiting
  generalize hl : s.lay.waitingJournal = l at h
  clear hl
  induction l generalizing s with
  | nil => exact .refl i s
  | cons j l ih =>
    rw [List.mem_cons, not_or] at h
    exact (entryStands_journalStep h.1 s).trans (ih h.2)

theorem entryStands_submitUnits (h : i ≠ j) (s : State) : EntryStands i s (submitUnits j s) := by
  have hunit (urgent : Bool) (x : UnitIo) (v : State) : TableStands v (sendUnit urgent v x) :=
    .of_evolves (sendUnit_evolves .refl Sub.rfl) (by decide) (by decide)
  unfold submitUnits
  dsimp only
  exact (entryStands_onEntry h ..).trans ((tableStands_foldl (fun v x => hunit _ x v) _).entryStands i)

theorem le_gap {α : Type} (l : Tab α) : ∀ k, k ≤ l.gap k := by
  induction l with
  | nil => exact fun k => le_refl k
  | cons p l ih =>
    intro k
    rw [Tab.gap]
    split
    · exact ih k
    · split
      · exact (Nat.le_succ k).trans (ih (k + 1))
      · exact le_refl k

theorem entryStands_storeChange (hi : i < ownFrom) (x : Bytes × Option Bytes) (h : storeChange x s = some t) : EntryStands i s t := by
  have hne : i ≠ s.cmd.table.gap ownFrom := Nat.ne_of_lt (lt_of_lt_of_le hi (le_gap ..))
  unfold storeChange at h
  dsimp only at h
  split at h
  · rw [← Option.some.inj h]
    exact (entryStands_onEntry hne ..).trans (entryStands_journalStep hne _)
  · split at h
    · cases h
    · next v as hok =>
      rw [← Option.some.inj h]
      exact (((tableStands_allocateFor _ hok).entryStands i).trans (entryStands_onEntry hne ..)).trans (entryStands_submitUnits hne _)

theorem entryStands_releaseStore (hi : i < ownFrom) (s : State) : EntryStands i s (releaseStore s) := by
  have hfix (f : Fix → Fix) (v : State) : TableStands v (v.onFix f) := ⟨rfl, rfl, rfl⟩
  unfold releaseStore
  refine ((hfix _ s).entryStands i).trans (entryStands_foldl (fun v x => ?_) _)
  split
  · next u hchange =>
    split at hchange
    · cases hchange
    · exact entryStands_storeChange hi x hchange
  · exact (hfix _ v).entryStands i

theorem entryStands_changeStore (hi : i < ownFrom) (x : Bytes × Option Bytes) (s : State) : EntryStands i s (changeStore x s) := by
  have hfix (f : Fix → Fix) (v : State) : TableStands v (v.onFix f) := ⟨rfl, rfl, rfl⟩
  unfold changeStore
  split
  · exact .refl i s
  · exact ((hfix _ s).entryStands i).trans (entryStands_releaseStore hi _)

theorem entryStands_storeChunks (hi : i < ownFrom) (seq lo hi' : Nat) (ls : List Leaf) (s : State) :
    EntryStands i s (storeChunks seq lo hi' ls s) :=
  entryStands_foldl (fun _ _ => entryStands_changeStore hi ..) _

theorem entryStands_storeFilled (hi : i < ownFrom) (s : State) : EntryStands i s (storeFilled s) := by
  have hfix (f : Fix → Fix) (v : State) : TableStands v (v.onFix f) := ⟨rfl, rfl, rfl⟩
  unfold storeFilled
  split
  · exact .refl i s
  · dsimp only
    split
    · exact .refl i s
    · exact ((hfix _ s).entryStands i).trans (entryStands_storeChunks hi ..)

theorem entryStands_fixAdvance (hi : i < ownFrom) (s : State) : EntryStands i s (fixAdvance s) := by
  have hseal (v : State) : Evolves _ v (sealBatches v) := sealBatches_evolves .refl Sub.rfl
  exact (entryStands_storeFilled hi s).trans (TableStands.entryStands (.of_evolves (hseal _) (by decide) (by decide)) i)

end Sys2Proof.Machine
end

section
/-! PROOFS. The stages of an I/O command (R52 to R59, R124, R140). -/

namespace Sys2Proof.Machine

variable {s t u : State} {w : List Part} {i : Nat}

/-! What the work on an entry leaves of it. -/

/-- What tells an entry's command, what it moves, and what its reads have brought. -/
def Entry.kept (e : Entry) : Bool × Nat × Nat × Nat × Nat × Option (Nat × Nat) × List UnitIo × List (Nat × Nat × Nat) :=
  (e.live, e.granted, e.cap.cid, e.cap.gtsIn, e.cap.opc, e.moves, e.got, e.bad)

/-- The work on an entry leaves what tells its command, and the queue of commands. -/
structure WorkKept (i : Nat) (s t : State) : Prop where
  entry : (entryOf t i).kept = (entryOf s i).kept
  queued : t.cmd.queued = s.cmd.queued

theorem WorkKept.refl (i : Nat) (s : State) : WorkKept i s s := ⟨rfl, rfl⟩

theorem WorkKept.trans (h : WorkKept i s t) (h' : WorkKept i t u) : WorkKept i s u := ⟨h'.entry.trans h.entry, h'.queued.trans h.queued⟩

theorem TableStands.workKept (h : TableStands s t) (i : Nat) : WorkKept i s t :=
  ⟨congrArg Entry.kept (h.entryStands i).entry, h.queued⟩

theorem WorkKept.of_evolves (h : Evolves w s t) (hw : .commands ∉ w) (i : Nat) : WorkKept i s t :=
  ⟨congrArg Entry.kept (entryOf_of_evolves h hw i), queued_of_evolves h hw⟩

theorem workKept_onEntry (i : Nat) (f : Entry → Entry) (s : State) (h : (f (entryOf s i)).kept = (entryOf s i).kept) :
    WorkKept i s (onEntry i f s) := ⟨by rw [entryOf_onEntry, h], rfl⟩

theorem workKept_work (i : Nat) (f : Entry → Entry) (s : State) (h : ∀ e, (f e).kept = e.kept) : WorkKept i s (onEntry i f s) :=
  workKept_onEntry i f s (h _)

theorem workKept_toPosting (i : Nat) (st : Status) (dw0 : Nat) (s : State) : WorkKept i s (toPosting i st dw0 s) :=
  workKept_onEntry i _ s rfl

theorem WorkKept.moves (h : WorkKept i s t) (hmoves : (entryOf s i).moves = none) : (entryOf t i).moves = none := by
  have hentry := h.entry
  simp only [Entry.kept, Prod.mk.injEq] at hentry
  obtain ⟨_, _, _, _, _, hkept, _, _⟩ := hentry
  exact hkept.trans hmoves

theorem workKept_noSpace (i : Nat) (why : NoSpace) (s : State) : WorkKept i s (noSpace i why s) := by
  have htold (data : Nat) (v : State) : WorkKept i v (emit 0x571 0x70E 3 data v) := (tableStands_emit ..).workKept i
  unfold noSpace
  dsimp only
  split
  · exact workKept_toPosting ..
  · exact (htold ..).trans (workKept_toPosting ..)
  · exact (htold ..).trans (workKept_toPosting ..)
  · exact (htold ..).trans (workKept_toPosting ..)

theorem workKept_fetchData (i : Nat) (s : State) : WorkKept i s (fetchData i s) := by
  have hhost (v : State) : Evolves _ v (hepFetch i v) := hepFetch_evolves .refl Sub.rfl
  have hread (n qpn va rkey len tag : Nat) (v : State) : Evolves _ v (issueReads n qpn va rkey len tag v) := issueReads_evolves .refl Sub.rfl
  unfold fetchData
  dsimp only
  split
  · exact workKept_onEntry i _ s rfl
  · split
    · exact (workKept_onEntry i _ s rfl).trans (.of_evolves (hhost _) (by decide) i)
    · refine foldl_keeps (P := WorkKept i s) (fun v d hv => hv.trans (.of_evolves (hread ..) (by decide) i)) _ _ ?_
      exact workKept_onEntry i _ s rfl

theorem workKept_startReturn (i : Nat) (data : Bytes) (dw0 : Nat) (s : State) : WorkKept i s (startReturn i data dw0 s) := by
  have hhbm (base : Nat) (b : Bytes) (v : State) : Evolves _ v (hbmWrite base b v) := hbmWrite_evolves .refl Sub.rfl
  have hhost (b : Bytes) (v : State) : Evolves _ v (hepReturn i b v) := hepReturn_evolves .refl Sub.rfl
  have hwrite (qpn va rkey tag : Nat) (b : Bytes) (imm : Option Nat) (v : State) : Evolves _ v (sendWrite qpn va rkey tag b imm v) :=
    sendWrite_evolves .refl Sub.rfl
  unfold startReturn
  dsimp only
  split
  · exact (WorkKept.of_evolves (hhbm ..) (by decide) i).trans (workKept_toPosting ..)
  · have hreturning (v : State) : WorkKept i v (onEntry i (fun e => { e with
        state := .returning, dw0 := dw0, status := stOk, wait := .egress, outGts := v.now }) v) := workKept_onEntry i _ v rfl
    split
    · exact ((hreturning s).trans (.of_evolves (hhost ..) (by decide) i)).trans (workKept_toPosting ..)
    · have hsent (l : List Sgl) (q : Nat) (b : Bytes) (p : Nat × State) (hp : WorkKept i s p.2) : WorkKept i s (l.foldl (fun (p : Nat × State) d =>
          (p.1 + d.len, if (slice b p.1 d.len).isEmpty then p.2 else sendWrite q d.va d.rkey (i + 1) (slice b p.1 d.len) none p.2)) p).2 := by
        refine foldl_keeps (P := fun p : Nat × State => WorkKept i s p.2) (fun p d hp => ?_) l p hp
        dsimp only
        split
        · exact hp
        · exact hp.trans (.of_evolves (hwrite ..) (by decide) i)
      split
      · exact hsent _ _ _ _ (hreturning s)
      · exact (hsent _ _ _ _ (hreturning s)).trans (workKept_toPosting ..)

theorem workKept_readReturn (i : Nat) (s : State) : WorkKept i s (readReturn i s) := by
  unfold readReturn
  dsimp only
  split
  · exact workKept_toPosting ..
  · exact workKept_toPosting ..
  · exact workKept_startReturn ..
  · exact workKept_startReturn ..

theorem workKept_cipherEntry (i n : Nat) (s : State) : WorkKept i s (cipherEntry i n s) := by
  have hcip (f : Cip → Cip) (v : State) : TableStands v (v.onCip f) := ⟨rfl, rfl, rfl⟩
  have hsegs (id n : Nat) (urgent : Bool) (v : State) : Evolves _ v (dispatchSegs id n urgent v) := dispatchSegs_evolves .refl Sub.rfl
  unfold cipherEntry
  dsimp only
  exact (((hcip ..).workKept i).trans (workKept_onEntry i _ _ rfl)).trans (.of_evolves (hsegs ..) (by decide) i)

theorem workKept_readChecked (i : Nat) (s : State) : WorkKept i s (readChecked i s) := by
  have hbump (n : Nat) : Evolves _ s (s.bumpI F.LAY_DECODE_COUNT_COUNT 0 n) := state_bumpI_evolves .refl Sub.rfl
  unfold readChecked
  dsimp only
  have hcounted (n : Nat) : WorkKept i s (s.bumpI F.LAY_DECODE_COUNT_COUNT 0 n) := .of_evolves (hbump n) (by decide) i
  split
  · split
    · exact (hcounted _).trans (workKept_readReturn ..)
    · exact (hcounted _).trans (workKept_cipherEntry ..)
  · exact (hcounted _).trans (workKept_toPosting ..)

theorem workKept_queued (i : Nat) (urgent : Bool) (xs : List Slice) (s : State) :
    WorkKept i s (dispatchSlices (queueSlices urgent xs (onEntry i (fun e => { e with wait := .layout }) s))) := by
  have hqueue (v : State) : Evolves _ v (queueSlices urgent xs v) := queueSlices_evolves .refl Sub.rfl
  have hdispatch (v : State) : Evolves _ v (dispatchSlices v) := dispatchSlices_evolves .refl Sub.rfl
  exact ((workKept_onEntry i _ s rfl).trans (.of_evolves (hqueue _) (by decide) i)).trans (.of_evolves (hdispatch _) (by decide) i)

theorem workKept_readDone (i : Nat) (s : State) : WorkKept i s (readDone i s) := by
  unfold readDone
  split
  · exact workKept_readChecked ..
  · exact workKept_queued ..

theorem workKept_readDoneIf (h : WorkKept i s t) : WorkKept i s (if (entryOf t i).readsOut.isEmpty then readDone i t else t) := by
  split
  · exact h.trans (workKept_readDone i t)
  · exact h

theorem workKept_advanceRead (i : Nat) (s : State) : WorkKept i s (advanceRead i s) := by
  have hread (urgent : Bool) (v : State) (x : UnitIo) : Evolves _ v (sendRead urgent v x) := sendRead_evolves .refl Sub.rfl
  have hsent (urgent : Bool) (l : List UnitIo) : WorkKept i s (l.foldl (sendRead urgent) s) :=
    (tableStands_foldl (fun v x => .of_evolves (hread urgent v x) (by decide) (by decide)) l).workKept i
  unfold advanceRead
  dsimp only
  split
  · exact workKept_toPosting ..
  · refine workKept_readDoneIf ?_
    refine WorkKept.trans ?_ (workKept_work i _ _ fun _ => by rfl)
    exact hsent ..

theorem workKept_waitJournal (i : Nat) (s : State) : WorkKept i s (waitJournal i s) := by
  have hlist (f : List Nat → List Nat) (v : State) : WorkKept i v (v.onLay fun l => { l with waitingJournal := f l.waitingJournal }) := ⟨rfl, rfl⟩
  exact (hlist (fun l => if l.contains i then l else l ++ [i]) s).trans (workKept_onEntry i _ _ rfl)

theorem workKept_journalStep (h : (entryOf s i).moves = none) : WorkKept i s (journalStep i s) := by
  have hlist (v : State) : WorkKept i v (v.onLay fun l => { l with waitingJournal := l.waitingJournal.filter (· != i) }) := ⟨rfl, rfl⟩
  unfold journalStep
  dsimp only
  split
  next hmoves => simp [h] at hmoves
  next =>
    split
    · split
      · exact workKept_waitJournal ..
      · exact ((workKept_onEntry i _ s rfl).trans ((tableStands_releaseAllocs ..).workKept i)).trans (workKept_toPosting ..)
    · split
      · exact workKept_waitJournal ..
      · refine WorkKept.trans ?_ ((tableStands_foldl (fun v r => tableStands_submitRecord r v) _).workKept i)
        refine WorkKept.trans ?_ ((tableStands_submitRecord ..).workKept i)
        refine WorkKept.trans ?_ (workKept_onEntry i _ _ rfl)
        exact hlist s

theorem workKept_allocated {c : Capsule} {v : State} {as : List Alloc} (h : (entryOf s i).moves = none) (hok : allocateFor c s = .ok (v, as)) :
    WorkKept i s (if c.xlen = 0 then journalStep i (onEntry i (fun e => { e with digest := Config.sha256 [] })
      (onEntry i (fun e => { e with allocs := as }) v)) else fetchData i (onEntry i (fun e => { e with allocs := as }) v)) := by
  have halloc : WorkKept i s (onEntry i (fun e => { e with allocs := as }) v) :=
    ((tableStands_allocateFor c hok).workKept i).trans (workKept_work i _ v fun _ => by rfl)
  generalize onEntry i (fun e => { e with allocs := as }) v = u at halloc ⊢
  have hdigest : WorkKept i u (onEntry i (fun e => { e with digest := Config.sha256 [] }) u) := workKept_work i _ u fun _ => by rfl
  split
  · exact (halloc.trans hdigest).trans (workKept_journalStep ((halloc.trans hdigest).moves h))
  · exact halloc.trans (workKept_fetchData ..)

theorem workKept_startWork (h : (entryOf s i).moves = none) : WorkKept i s (startWork i s) := by
  have hrefuse (code page handle : Nat) (v : State) : Evolves _ v (cipRefuse code page handle v) := cipRefuse_evolves .refl Sub.rfl
  have hsegs (l : List Seg) : WorkKept i s (onEntry i (fun e => { e with segs := l }) s) := workKept_work i _ s fun _ => by rfl
  unfold startWork
  dsimp only
  split
  · exact (WorkKept.of_evolves (hrefuse ..) (by decide) i).trans (workKept_toPosting ..)
  · split
    · split
      · exact workKept_noSpace ..
      · next hok => exact workKept_allocated h hok
    · split
      · exact workKept_noSpace ..
      · next hok => exact workKept_allocated h hok
    · split
      · exact workKept_noSpace ..
      · exact workKept_journalStep h
    · split
      · exact workKept_noSpace ..
      · exact workKept_journalStep h
    · split
      · exact workKept_toPosting ..
      · exact workKept_journalStep h
    · exact (hsegs _).trans (workKept_advanceRead ..)
    · exact (hsegs _).trans (workKept_advanceRead ..)
    · exact (hsegs _).trans (workKept_fetchData ..)
    · split
      · exact workKept_toPosting ..
      · exact (workKept_onEntry i _ s rfl).trans (workKept_advanceRead ..)
    · exact workKept_toPosting ..
    · exact workKept_startReturn ..
    · exact workKept_toPosting ..

/-! Grants (R52, R53). -/

/-- The table and the queue once a command has been granted. -/
def grantTaken (port i : Nat) (c : Capsule) (a : Arbiter) (s : State) : State := s.onCmd fun m => { m with
  queued := m.queued.erase c, arbiters := m.arbiters.put port a, table := m.table.put i (grantEntry s c) }

/-- The chosen command has left the queue for its entry. -/
def granted (port i : Nat) (c : Capsule) (a : Arbiter) (s : State) : State :=
  captureGrant port (grantEntry s c).bytes (grantTaken port i c a s)

theorem arbiterGrant_runs {port : Fin 65} {c : Capsule} {i : Nat} {a : Arbiter} (h : grantChoice s port.val = some (c, i, a)) :
    exec (.arbiterGrant port) s = .next (startWork i (granted port.val i c a s)) := by
  change execArbiterGrant port s = _
  unfold execArbiterGrant
  rw [h]
  rfl

theorem grantTaken_leaves (port i : Nat) (c : Capsule) (a : Arbiter) (s : State) : entryOf (grantTaken port i c a s) i = grantEntry s c ∧
    (grantTaken port i c a s).cmd.queued = s.cmd.queued.erase c ∧ (grantTaken port i c a s).cmd.arbiters = s.cmd.arbiters.put port a :=
  ⟨(Tab.at_put s.cmd.table i (grantEntry s c) i).trans (if_pos rfl), rfl, rfl⟩

theorem granted_leaves (port i : Nat) (c : Capsule) (a : Arbiter) (s : State) : entryOf (granted port i c a s) i = grantEntry s c ∧
    (granted port i c a s).cmd.queued = s.cmd.queued.erase c ∧ (granted port i c a s).cmd.arbiters = s.cmd.arbiters.put port a := by
  have hcapture (v : State) : Evolves _ v (captureGrant port (grantEntry s c).bytes v) := captureGrant_evolves .refl Sub.rfl
  obtain ⟨hentry, hqueued, harbiters⟩ := grantTaken_leaves port i c a s
  unfold granted
  generalize grantTaken port i c a s = v at hentry hqueued harbiters ⊢
  have hsame := (hcapture v).same .commands (by decide)
  simp only [Part.Same, Prod.mk.injEq] at hsame
  obtain ⟨hqueued', _, _, harbiters', _⟩ := hsame
  rw [entryOf_of_evolves (hcapture v) (by decide), hqueued', harbiters']
  exact ⟨hentry, hqueued, harbiters⟩

theorem startWork_flush (h : (entryOf s i).cap.opc = 0x00 ∨ (entryOf s i).cap.opc = 0x80) : startWork i s = toPosting i stOk 0 s := by
  have hstays : ¬(movesData (entryOf s i).cap.opc ∧ (entryOf s i).cap.opc ≠ 0x86 ∧ !keyReady s (entryOf s i).cap.nsid) := by
    rintro ⟨hmoves, -⟩
    obtain h | h := h <;> rw [h] at hmoves <;> exact absurd hmoves (by decide)
  unfold startWork
  dsimp only
  rw [if_neg hstays]
  obtain h | h := h
  · rw [h]
    rfl
  · rw [h]
    rfl

/-! Ends of a stage. -/

theorem lastDataCellStored_runs {i : Nat} (hlive : (entryOf s i).live = true) (hstate : (entryOf s i).state = .fetching)
    (hall : (entryOf s i).wanted ≤ (entryOf s i).data.length) (hopc : (entryOf s i).cap.opc ≠ 0x05) :
    exec (.lastDataCellStored i) s = .next (encodeData i (onEntry i (fun e => { e with
      data := (entryOf s i).data.take (entryOf s i).wanted, hostIv := e.hostIv + (s.now - e.hostStart) }) s)) :=
  (if_neg (by rw [hlive, hstate]; simp [hall])).trans (if_neg hopc)

theorem encodeData_leaves (i : Nat) (s : State) : ∃ wait, entryOf (encodeData i s) i =
    { entryOf s i with state := .encoding, digest := Config.sha256 (entryOf s i).data, wait := wait } := by
  have hcip (f : Cip → Cip) (v : State) : TableStands v (v.onCip f) := ⟨rfl, rfl, rfl⟩
  have hsegs (id n : Nat) (urgent : Bool) (v : State) : Evolves _ v (dispatchSegs id n urgent v) := dispatchSegs_evolves .refl Sub.rfl
  have hqueue (urgent : Bool) (xs : List Slice) (v : State) : Evolves _ v (queueSlices urgent xs v) := queueSlices_evolves .refl Sub.rfl
  have hdispatch (v : State) : Evolves _ v (dispatchSlices v) := dispatchSlices_evolves .refl Sub.rfl
  have hencoding : entryOf (onEntry i (fun e => { e with state := .encoding, digest := Config.sha256 e.data }) s) i =
      { entryOf s i with state := .encoding, digest := Config.sha256 (entryOf s i).data } := entryOf_onEntry ..
  unfold encodeData
  dsimp only
  generalize onEntry i (fun e => { e with state := .encoding, digest := Config.sha256 e.data }) s = v at hencoding ⊢
  split
  · refine ⟨.layout, ?_⟩
    unfold cipherDone
    dsimp only
    rw [if_pos (by rw [hencoding]), entryOf_of_evolves (hdispatch _) (by decide), entryOf_of_evolves (hqueue ..) (by decide), entryOf_onEntry,
      hencoding]
  · refine ⟨.cipher, ?_⟩
    unfold cipherEntry
    dsimp only
    rw [entryOf_of_evolves (hsegs ..) (by decide), entryOf_onEntry, ((hcip _ v).entryStands i).entry, hencoding]

theorem lastParityCellReady_runs {i : Nat} (hlive : (entryOf s i).live = true) (hstate : (entryOf s i).state = .encoding) :
    exec (.lastParityCellReady i) s = .next (submitUnits i (dropLanes i s)) := if_neg (by rw [hlive, hstate]; decide)

theorem completionHandedToXpt_runs {i : Nat} (hi : i < 32768) (hlive : (entryOf s i).live = true) (hstate : (entryOf s i).state = .posting)
    (hended : (entryOf s i).ended = false) : exec (.completionHandedToXpt i) s = .next (freeEntry i .done (measure (entryOf s i)
      (post (entryOf s i).cap.cntlid (entryOf s i).cap.sqid (entryOf s i).cap.cid (entryOf s i).status (entryOf s i).dw0
        (invKey (entryOf s i).cap.sgl) s))) :=
  (if_neg (by rw [hlive, hstate]; simp [hi])).trans (if_neg (by rw [hended]; exact Bool.false_ne_true))

theorem entryOf_freeEntry (i : Nat) (r : Resolution) (s : State) : entryOf (freeEntry i r s) i = default := by
  have hcells (l : List Nat) (v : State) : Evolves _ v (releaseCells l v) := releaseCells_evolves .refl Sub.rfl
  have hgone (v : State) : entryOf (entryGone i v) i = default := (Tab.at_put v.cmd.table i default i).trans (if_pos rfl)
  rw [freeEntry_eq, (entryStands_sweepSlots ..).entry, entryOf_of_evolves (hcells _ _) (by decide), hgone]

theorem rdmaWriteAcknowledged_runs {i : Nat} (hlive : (entryOf s i).live = true) (hstate : (entryOf s i).state = .returning)
    (hdone : ((ctxOf s (queueOf s (entryOf s i).cap.cntlid (entryOf s i).cap.sqid).conn).sends.any fun x => x.2.2 == i + 1) = false) :
    exec (.rdmaWriteAcknowledged i) s = .next (toPosting i (entryOf s i).status (entryOf s i).dw0 s) :=
  if_pos (by rw [hlive, hstate, hdone]; rfl)

/-! The units of an entry. -/

/-- A unit write has left an entry. -/
def unitTaken (slot set row unit : Nat) (e : Entry) : Entry := { e with
  unitsOut := e.unitsOut.filter fun w => !(w.slot == slot && w.set == set && w.row == row && w.unit == unit) }

/-- The drive's end of a unit write, and the entry's. -/
def unitLanded (i slot set row unit : Nat) (w : UnitIo) (s : State) : State :=
  onEntry i (unitTaken slot set row unit) (drvDone slot (entryOf s i).urgent true (ioLba s set row unit) ((w.data.length + 4095) / 4096) s)

theorem drvDone_step (slot : Nat) (urgent write : Bool) (lba pages : Nat) (s : State) :
    Evolves [.drivePorts, .out] s (drvDone slot urgent write lba pages s) := drvDone_evolves .refl Sub.rfl

theorem entryOf_unitLanded (i slot set row unit : Nat) (w : UnitIo) (s : State) :
    entryOf (unitLanded i slot set row unit w s) i = unitTaken slot set row unit (entryOf s i) := by
  unfold unitLanded
  rw [entryOf_onEntry, entryOf_of_evolves (drvDone_step ..) (by decide)]

theorem unitDone_runs {slot set row unit : Nat} {w : UnitIo} (hlive : (entryOf s i).live = true) (hstate : (entryOf s i).state = .drive)
    (hfind : (entryOf s i).unitsOut.find? (fun w => w.slot == slot && w.set == set && w.row == row && w.unit == unit) = some w)
    (hmore : (unitTaken slot set row unit (entryOf s i)).unitsOut.isEmpty = false) :
    unitDone i slot set row unit .ok s = unitLanded i slot set row unit w s := by
  have hgo : ¬ (!((entryOf s i).live && (entryOf s i).state == .drive)) = true := by rw [hlive, hstate]; decide
  have hleft : ¬ (entryOf (unitLanded i slot set row unit w s) i).unitsOut.isEmpty = true := by
    rw [entryOf_unitLanded, hmore]
    exact Bool.false_ne_true
  unfold unitDone
  dsimp only
  rw [hfind]
  dsimp only
  rw [if_neg hgo]
  exact if_neg hleft

/-! Reads from the drives (R55). -/

/-- A unit read has left an entry, and the last of a round ends the round. -/
def unitRead (i set row unit : Nat) (w : UnitIo) (s : State) : State :=
  let v := onEntry i (fun e => { e with readsOut := e.readsOut.filter fun w => !(w.set == set && w.row == row && w.unit == unit) })
    (drvDone w.slot (entryOf s i).urgent false (ioLba s set row unit) ((setGeom s set).u / 4096) s)
  if (entryOf v i).readsOut.isEmpty then roundEnds i v else v

theorem workKept_unitRead (i set row unit : Nat) (w : UnitIo) (s : State) : WorkKept i s (unitRead i set row unit w s) := by
  have htaken (f : List UnitIo → List UnitIo) (v : State) : WorkKept i v (onEntry i (fun e => { e with readsOut := f e.readsOut }) v) :=
    workKept_work i _ v fun _ => by rfl
  have hdone (slot : Nat) (urgent : Bool) (lba pages : Nat) : WorkKept i s (drvDone slot urgent false lba pages s) :=
    .of_evolves (drvDone_step ..) (by decide) i
  have hround (v : State) : WorkKept i v (roundEnds i v) := workKept_work i _ v fun _ => by rfl
  unfold unitRead
  dsimp only
  split
  · exact ((hdone ..).trans (htaken ..)).trans (hround _)
  · exact (hdone ..).trans (htaken ..)

/-- A unit that passed its check joins what an entry has read. -/
def Entry.gotUnit (x : UnitIo) (e : Entry) : Entry := { e with got := e.got ++ [x] }

/-- A unit is marked bad. -/
def Entry.badUnit (x : Nat × Nat × Nat) (e : Entry) : Entry := { e with bad := x :: e.bad }

theorem driveReadCompletion_good {set row unit : Nat} {header data : Bytes} {w : UnitIo}
    (hread : (entryOf s i).readsOut.find? (fun w => w.set == set && w.row == row && w.unit == unit) = some w)
    (hgood : unitPasses (unitRead i set row unit w s) set row ⟨unit, header, data⟩ = true) :
    exec (.driveReadCompletion i set row unit header data .ok) s =
      .next (advanceRead i (onEntry i (·.gotUnit { w with data := data }) (unitRead i set row unit w s))) := by
  change execDriveReadCompletion i set row unit header data .ok s = _
  unfold execDriveReadCompletion
  dsimp only
  rw [hread]
  exact if_pos hgood

theorem driveReadCompletion_bad {set row unit : Nat} {header data : Bytes} {w : UnitIo}
    (hread : (entryOf s i).readsOut.find? (fun w => w.set == set && w.row == row && w.unit == unit) = some w)
    (hbad : unitPasses (unitRead i set row unit w s) set row ⟨unit, header, data⟩ = false) :
    exec (.driveReadCompletion i set row unit header data .ok) s =
      .next (advanceRead i (onEntry i (·.badUnit (set, row, unit)) (unitCheckFail set row unit (unitRead i set row unit w s)))) := by
  change execDriveReadCompletion i set row unit header data .ok s = _
  unfold execDriveReadCompletion
  dsimp only
  rw [hread]
  exact if_neg (Bool.eq_false_iff.mp hbad)

theorem lay_onEntry (i : Nat) (f : Entry → Entry) (s : State) : (onEntry i f s).lay = s.lay := rfl

theorem lay_unitRead (i set row unit : Nat) (w : UnitIo) (s : State) : (unitRead i set row unit w s).lay = s.lay := by
  have hdone (slot : Nat) (urgent : Bool) (lba pages : Nat) : (drvDone slot urgent false lba pages s).lay = s.lay :=
    lay_of_evolves (drvDone_step ..) (by decide)
  unfold unitRead roundEnds
  dsimp only
  split
  · rw [lay_onEntry, lay_onEntry, hdone]
  · rw [lay_onEntry, hdone]

theorem WorkKept.reads (h : WorkKept i s t) : (entryOf t i).got = (entryOf s i).got ∧ (entryOf t i).bad = (entryOf s i).bad := by
  have hentry := h.entry
  simp only [Entry.kept, Prod.mk.injEq] at hentry
  obtain ⟨_, _, _, _, _, _, hgot, hbad⟩ := hentry
  exact ⟨hgot, hbad⟩

/-! The last parity cell (R57). -/

theorem sealExtent_congr (hns : t.cmd.namespaces = s.cmd.namespaces) (hslots : t.cip.slots = s.cip.slots) : sealExtent t = sealExtent s := by
  funext nsid extent data
  unfold sealExtent nsKey nsKeySlot nsDus keysWhere
  rw [hns, hslots]

theorem extentsOf_congr (hns : t.cmd.namespaces = s.cmd.namespaces) (hslots : t.cip.slots = s.cip.slots) (e : Entry) :
    extentsOf t e = extentsOf s e := by
  unfold extentsOf
  rw [sealExtent_congr hns hslots]

theorem unitWrites_congr (hsets : t.lay.sets = s.lay.sets) (hgeoms : t.lay.geoms = s.lay.geoms) : unitWrites t = unitWrites s := by
  funext a ext
  unfold unitWrites setGeom
  rw [hsets, hgeoms]

theorem unitsOf_dropLanes (i : Nat) (s : State) (e : Entry) :
    ((extentsOf (dropLanes i s) e).flatMap fun x => unitWrites (dropLanes i s) x.1 x.2) =
      (extentsOf s e).flatMap fun x => unitWrites s x.1 x.2 := by
  have hlanes : Evolves _ s (dropLanes i s) := dropLanes_evolves .refl Sub.rfl
  have hnamespaces := hlanes.same .namespaces (by decide)
  have hkeys := hlanes.same .keys (by decide)
  have hmapping := hlanes.same .mapping (by decide)
  simp only [Part.Same, Prod.mk.injEq] at hnamespaces hkeys hmapping
  obtain ⟨hns, _⟩ := hnamespaces
  obtain ⟨hslots, _⟩ := hkeys
  obtain ⟨hgeoms, hsets, _⟩ := hmapping
  rw [extentsOf_congr hns hslots, unitWrites_congr hsets hgeoms]

/-- An entry whose units have been sent. -/
def Entry.sent (units : List UnitIo) (crcs : List (List (List Nat))) (now : Nat) (e : Entry) : Entry := { e with
  state := .drive, wait := .drive, unitsOut := units, driveStart := now, crcs := crcs }

theorem entryOf_submitUnits (i : Nat) (s : State) : ∃ crcs, entryOf (submitUnits i s) i = (entryOf s i).sent
    ((extentsOf s (entryOf s i)).flatMap fun x => unitWrites s x.1 x.2) crcs s.now := by
  have hunit (urgent : Bool) (v : State) (x : UnitIo) : TableStands v (sendUnit urgent v x) :=
    .of_evolves (sendUnit_evolves .refl Sub.rfl) (by decide) (by decide)
  unfold submitUnits
  dsimp only
  rw [((tableStands_foldl (hunit _) _).entryStands i).entry, entryOf_onEntry]
  exact ⟨_, rfl⟩

/-! Copies of a record (R59). -/

/-- A copy of a record is stored. -/
def JRec.copyStored (slot : Nat) (r : JRec) : JRec := { r with
  copies := r.copies.map fun c => if c.slot = slot then { c with done := true } else c }

theorem recOf_onRec (jseq : Nat) (f : JRec → JRec) (h : ∀ r, (f r).jseq = r.jseq) (s : State) :
    recOf (onRec jseq f s) jseq = (recOf s jseq).map f := by
  have hkey : ((fun r : JRec => r.jseq == jseq) ∘ fun r => if r.jseq = jseq then f r else r) = fun r => r.jseq == jseq := by
    funext r
    rw [Function.comp]
    split
    · rw [h]
    · rfl
  change ((s.lay.journal.map fun r => if r.jseq = jseq then f r else r).find? fun r => r.jseq == jseq) = _
  rw [List.find?_map, hkey]
  refine Option.map_congr fun r hr => ?_
  exact if_pos (by simpa using List.find?_some hr)

/-- The drive's end of a copy's write, and the record's. -/
def copyLanded (jseq slot : Nat) (r : JRec) (c : JCopy) (s : State) : State :=
  onRec jseq (·.copyStored slot) (drvDone slot (r.urgent s) true (256 + c.pos) r.blocks s)

theorem recOf_copyLanded {jseq slot : Nat} {r : JRec} {c : JCopy} (h : recOf s jseq = some r) :
    recOf (copyLanded jseq slot r c s) jseq = some (r.copyStored slot) := by
  have hdone : recOf (drvDone slot (r.urgent s) true (256 + c.pos) r.blocks s) jseq = some r := by
    unfold recOf at h ⊢
    rw [lay_of_evolves (drvDone_step ..) (by decide), h]
  unfold copyLanded
  rw [recOf_onRec _ _ (fun _ => by rfl), hdone]
  rfl

theorem journalCompletion_runs {jseq : Nat} {slot : Fin 48} {r : JRec} (h : recOf s jseq = some r)
    (hslot : (r.copies.any fun c => c.slot == slot.val && !c.done) = true) : ∃ c, exec (.journalCompletion jseq slot .ok) s = .next
      (if (r.copyStored slot.val).durable then
        fixAdvance (nextRebuild (releaseStore (copiesDone jseq (copyLanded jseq slot.val r c s))))
      else copyLanded jseq slot.val r c s) := by
  obtain ⟨c, hc⟩ := Option.isSome_iff_exists.mp (List.find?_isSome.mpr (List.any_eq_true.mp hslot))
  refine ⟨c, ?_⟩
  change execJournalCompletion jseq slot .ok s = _
  unfold execJournalCompletion
  rw [h]
  dsimp only
  rw [hc]
  refine congrArg Host.Outcome.next ?_
  change (if (recOf (copyLanded jseq slot.val r c s) jseq).any (·.durable) = true then _ else _) = _
  rw [recOf_copyLanded h]
  rfl

theorem copyStored_open {slot other : Nat} {r : JRec} (hother : (r.copies.any fun c => c.slot == other && !c.done) = true)
    (hne : slot ≠ other) : (r.copyStored slot).durable = false := by
  obtain ⟨d, hd, hopen⟩ := List.any_eq_true.mp hother
  obtain ⟨hslot, hdone⟩ : d.slot = other ∧ d.done = false := by simpa using hopen
  refine Bool.and_eq_false_iff.mpr (.inr (List.all_eq_false.mpr ⟨d, List.mem_map.mpr ⟨d, hd, ?_⟩, ?_⟩))
  · exact if_neg fun h => hne (h.symm.trans hslot)
  · rw [hdone]
    exact Bool.false_ne_true

theorem copyStored_durable {slot : Nat} {r : JRec} (hslot : (r.copies.any fun c => c.slot == slot && !c.done) = true)
    (hall : (r.copies.all fun c => c.done || c.slot == slot) = true) : (r.copyStored slot).durable = true := by
  have hsome : r.copies ≠ [] := fun h => by simp [h] at hslot
  refine Bool.and_eq_true_iff.mpr ⟨by simpa [JRec.copyStored] using hsome, List.all_eq_true.mpr fun d hd => ?_⟩
  obtain ⟨c, hc, rfl⟩ := List.mem_map.mp hd
  split
  · rfl
  next hother => simpa [hother] using List.all_eq_true.mp hall c hc

/-! A unit read's check, and what tells that it failed. -/

theorem unitPasses_of_lay (h : t.lay = s.lay) : unitPasses t = unitPasses s := by
  funext set row x
  unfold unitPasses setGeom
  rw [h]

theorem now_unitRead (i set row unit : Nat) (w : UnitIo) (s : State) : (unitRead i set row unit w s).now = s.now := by
  have hdone (slot : Nat) (urgent : Bool) (lba pages : Nat) : (drvDone slot urgent false lba pages s).now = s.now :=
    (drvDone_step ..).now_eq (by decide)
  have hentry (f : Entry → Entry) (v : State) : (onEntry i f v).now = v.now := rfl
  unfold unitRead roundEnds
  dsimp only
  split
  · rw [hentry, hentry, hdone]
  · rw [hentry, hdone]

theorem emitted_unitCheckFail (set row unit : Nat) (h : s.now = u.now) : Emitted u (unitCheckFail set row unit s) 0x571 2 0x707
    (((s.lay.sets.at set).members.getD unit default).slot * 2 ^ 30 + set) := by
  have hbump (v : State) : (v.bump F.LAY_CHECK_FAIL_COUNT).ctl = v.ctl := State.bump_ctl ..
  have htold := emitted_emit_of (s0 := u) 0x571 0x707 2 (((s.lay.sets.at set).members.getD unit default).slot * 2 ^ 30 + set) h
  unfold unitCheckFail
  unfold Emitted at htold ⊢
  rw [State.onLay_ctl, hbump]
  exact htold

/-! A drive's writes that belong to no command (R140). -/

theorem DrvPort.back_leave (urgent write : Bool) (p : DrvPort) (lba : Nat) : (p.leave urgent write lba).back = p.back := by
  unfold DrvPort.leave
  dsimp only
  split <;> rfl

theorem backStands_drvDone (slot : Nat) (urgent write : Bool) (lba pages : Nat) (s : State) :
    BackStands s (drvDone slot urgent write lba pages s) := by
  refine BackStands.trans ?_ (backStands_drainWaits ..)
  exact backStands_onPort slot _ fun p => foldl_keeps (P := fun q : DrvPort => q.back = p.back)
    (fun q x hq => (q.back_leave urgent write x).trans hq) _ p rfl

/-- A write that belongs to no command has left its port. -/
def backTaken (slot lba : Nat) (b : Nat × Nat × Bool) (s : State) : State :=
  drvDone slot b.2.2 true lba b.2.1 (onPort slot (fun p => { p with back := p.back.erase b }) s)

theorem backTaken_leaves (slot lba : Nat) (b : Nat × Nat × Bool) (s : State) :
    (portOf (backTaken slot lba b s) slot).back = (portOf s slot).back.erase b ∧ (backTaken slot lba b s).cmd = s.cmd ∧
      (backTaken slot lba b s).lay = s.lay := by
  have hport : (portOf (onPort slot (fun p => { p with back := p.back.erase b }) s) slot).back = (portOf s slot).back.erase b := by
    rw [portOf_onPort, if_pos rfl]
  have honPort (f : DrvPort → DrvPort) : (onPort slot f s).cmd = s.cmd ∧ (onPort slot f s).lay = s.lay := ⟨rfl, rfl⟩
  obtain ⟨hcmd, hlay⟩ := honPort fun p => { p with back := p.back.erase b }
  unfold backTaken
  rw [(backStands_drvDone ..).back, hport, cmd_of_evolves (drvDone_step ..) (by decide), lay_of_evolves (drvDone_step ..) (by decide)]
  exact ⟨rfl, hcmd, hlay⟩

theorem backDone_runs {slot lba : Nat} {b : Nat × Nat × Bool} (hback : ((portOf s slot).back.find? fun b => b.1 == lba) = some b)
    (htarget : s.lay.rebuild.target = none) : backDone slot lba .ok s = backTaken slot lba b s := by
  obtain ⟨-, -, hlay⟩ := backTaken_leaves slot lba b s
  unfold backDone
  rw [hback]
  change rebuildRecord (backTaken slot lba b s) = _
  unfold rebuildRecord
  rw [hlay, htarget]

/-! The commit of a record (R59). -/

/-- A record that is committed is noted once, and its entries join the map. -/
def recordMapped (jseq : Nat) (r : JRec) (s : State) : State :=
  let voted : Bool := match r.owner with | some i => (entryOf s i).wait == .vote | none => false
  let s := if voted then s else noteRecord r s
  let s := onRec jseq (fun r => { r with committed := true }) s
  s.onLay fun l => { l with map := r.entries.foldl mapApply l.map }

/-- A record that is committed has its runs resolved, its seals durable, and its new member taken. -/
def recordRun (jseq : Nat) (r : JRec) (s : State) : State :=
  let s := if r.typ = 1 ∨ r.typ = 5 then commitRuns jseq s.now r.runs r.crcs s else s
  let s := if r.typ = 3 then r.sets.foldl (fun s id => onSet id (fun x => { x with sealDurable := true }) s) s else s
  if r.typ = 4 then memberCommitted r s else s

/-- The owner of a record ends, and a set that the owner's object left may be free. -/
def ownerEnded (r : JRec) (s : State) : State :=
  match r.owner.bind fun i => (entryOf s i).moves with
  | some (id, _) => freeReclaimed id (mapPrune (ownerCommitted r s))
  | none => mapPrune (ownerCommitted r s)

theorem commitRecord_eq {jseq : Nat} {r : JRec} (h : recOf s jseq = some r) (hnew : r.committed = false) : commitRecord jseq s =
    releaseWaiting (retire (startReclaim (ownerEnded r (recordRun jseq r (recordMapped jseq r s))))) := by
  unfold commitRecord
  rw [h]
  dsimp only
  rw [if_neg (by rw [hnew]; exact Bool.false_ne_true)]
  rfl

theorem tableStands_recordMapped (jseq : Nat) (r : JRec) (s : State) : TableStands s (recordMapped jseq r s) := by
  have hnote : Evolves _ s (noteRecord r s) := noteRecord_evolves .refl Sub.rfl
  have hmap (v : State) : TableStands v ((onRec jseq (fun r => { r with committed := true }) v).onLay fun l =>
      { l with map := r.entries.foldl mapApply l.map }) := .of_same rfl rfl
  have hnoted (voted : Bool) : TableStands s (if voted then s else noteRecord r s) := by
    split
    · exact .refl s
    · exact .of_evolves hnote (by decide) (by decide)
  unfold recordMapped
  dsimp only
  exact (hnoted _).trans (hmap _)

theorem tableStands_recordRun (jseq : Nat) (r : JRec) (s : State) : TableStands s (recordRun jseq r s) := by
  have hmember (v : State) : Evolves _ v (memberCommitted r v) := memberCommitted_evolves .refl Sub.rfl
  have hruns : TableStands s (if r.typ = 1 ∨ r.typ = 5 then commitRuns jseq s.now r.runs r.crcs s else s) := by
    split
    · exact tableStands_commitRuns ..
    · exact .refl s
  have hseals (v : State) : TableStands v
      (if r.typ = 3 then r.sets.foldl (fun s id => onSet id (fun x => { x with sealDurable := true }) s) v else v) := by
    split
    · exact tableStands_foldl (fun v id => tableStands_onSet id _ v) r.sets
    · exact .refl v
  unfold recordRun
  dsimp only
  split
  · exact (hruns.trans (hseals _)).trans (.of_evolves (hmember _) (by decide) (by decide))
  · exact hruns.trans (hseals _)

/-- The commit of the owner's record moves the owner on with success. -/
structure Committed (i : Nat) (t : State) : Prop where
  state : (entryOf t i).state = .posting
  status : (entryOf t i).status = stOk
  waiting : i ∉ t.lay.waitingJournal

theorem Committed.stands (h : Committed i s) (hstands : EntryStands i s t) : Committed i t :=
  ⟨by rw [hstands.entry, h.state], by rw [hstands.entry, h.status], hstands.waiting h.waiting⟩

theorem committed_toPosting (dw0 : Nat) (h : i ∉ s.lay.waitingJournal) : Committed i (toPosting i stOk dw0 s) := by
  have hentry : entryOf (toPosting i stOk dw0 s) i = { entryOf s i with state := .posting, status := stOk, dw0 := dw0, wait := .egress } :=
    entryOf_onEntry ..
  exact ⟨by rw [hentry], by rw [hentry], h⟩

theorem committed_ownerCommitted {r : JRec} (howner : r.owner = some i) (hi : i < ownFrom) (hended : (entryOf s i).ended = false)
    (hwait : i ∉ s.lay.waitingJournal) : Committed i (ownerCommitted r s) := by
  have hfile : Evolves _ s (fileLeaf r (entryOf s i) s) := fileLeaf_evolves .refl Sub.rfl
  unfold ownerCommitted
  rw [howner]
  dsimp only
  rw [if_neg (Nat.not_le.mpr hi), if_neg (by rw [hended]; exact Bool.false_ne_true)]
  refine committed_toPosting _ ?_
  rwa [waitingJournal_of_evolves hfile (by decide)]

theorem committed_ownerEnded {r : JRec} (howner : r.owner = some i) (hi : i < ownFrom) (hended : (entryOf s i).ended = false)
    (hwait : i ∉ s.lay.waitingJournal) : Committed i (ownerEnded r s) := by
  have hprune (v : State) : Evolves _ v (mapPrune v) := mapPrune_evolves .refl Sub.rfl
  have hpruned := (committed_ownerCommitted howner hi hended hwait).stands
    ((TableStands.of_evolves (hprune _) (by decide) (by decide)).entryStands i)
  unfold ownerEnded
  split
  · exact hpruned.stands ((tableStands_freeReclaimed ..).entryStands i)
  · exact hpruned

theorem committed_commitRecord {jseq : Nat} {r : JRec} (h : recOf s jseq = some r) (hnew : r.committed = false) (howner : r.owner = some i)
    (hi : i < ownFrom) (hended : (entryOf s i).ended = false) (hwait : i ∉ s.lay.waitingJournal) : Committed i (commitRecord jseq s) := by
  have hreclaim (v : State) : Evolves _ v (startReclaim v) := startReclaim_evolves .refl Sub.rfl
  have hrun := ((tableStands_recordMapped jseq r s).trans (tableStands_recordRun jseq r _)).entryStands i
  have howned := committed_ownerEnded howner hi (by rw [hrun.entry, hended]) (hrun.waiting hwait)
  have hretired := (howned.stands ((TableStands.of_evolves (hreclaim _) (by decide) (by decide)).entryStands i)).stands
    ((tableStands_retire _).entryStands i)
  rw [commitRecord_eq h hnew]
  exact hretired.stands (entryStands_releaseWaiting hretired.waiting)

theorem needsVote_of_evolves (h : Evolves w s t) (hw : .regRed ∉ w) : needsVote t = needsVote s := by
  unfold needsVote redMode redState
  rw [h.fld_eq F.RED_MODE_MODE hw, h.fld_eq F.RED_STAT_STATE hw, h.fld_eq F.RED_STAT_QUORUM hw]

theorem committed_copiesDone {jseq slot : Nat} {r : JRec} {c : JCopy} (hrec : recOf s jseq = some r) (hnew : r.committed = false)
    (howner : r.owner = some i) (hi : i < ownFrom) (hvote : needsVote s = false) (hended : (entryOf s i).ended = false)
    (hwait : i ∉ s.lay.waitingJournal) : Committed i (copiesDone jseq (copyLanded jseq slot r c s)) := by
  have hrec' := recOf_copyLanded (slot := slot) (c := c) hrec
  have hlanded (v : State) : (roundEnds i (onRec jseq (·.copyStored slot) v)).lay.waitingJournal = v.lay.waitingJournal ∧
      (entryOf (roundEnds i (onRec jseq (·.copyStored slot) v)) i).ended = (entryOf v i).ended ∧
      needsVote (roundEnds i (onRec jseq (·.copyStored slot) v)) = needsVote v ∧
      recOf (roundEnds i (onRec jseq (·.copyStored slot) v)) jseq = recOf (onRec jseq (·.copyStored slot) v) jseq := by
    refine ⟨rfl, ?_, rfl, rfl⟩
    rw [roundEnds, entryOf_onEntry]
    rfl
  have hdone := drvDone_step slot (r.urgent s) true (256 + c.pos) r.blocks s
  unfold copyLanded at hrec' ⊢
  generalize drvDone slot (r.urgent s) true (256 + c.pos) r.blocks s = v at hdone hrec' ⊢
  obtain ⟨hwaiting, hentry, hvotes, hsame⟩ := hlanded v
  unfold copiesDone
  rw [hrec']
  dsimp only
  rw [show (r.copyStored slot).owner = some i from howner]
  dsimp only
  rw [hvotes, needsVote_of_evolves hdone (by decide), hvote, Bool.false_and, if_neg Bool.false_ne_true]
  refine committed_commitRecord (hsame.trans hrec') hnew howner hi ?_ ?_
  · rw [hentry, entryOf_of_evolves hdone (by decide), hended]
  · rwa [hwaiting, waitingJournal_of_evolves hdone (by decide)]

/-- Settles O28: the work that follows a grant or a read leaves what tells the command, and what follows the commit of a record leaves
its owner as the commit left it. -/
theorem pipelineEventsComplete : Obligations.PipelineEventsComplete := by
  unfold Obligations.PipelineEventsComplete
  refine ⟨fun port c i a s h hopc => ?flush, fun port c i a s h => ?grant, fun i s hlive hstate hall hopc => ?stored,
    fun i s hlive hstate => ?parity, fun i slot set row unit w v s hlive hstate hw hv => ?unit,
    fun i set row unit header data w s hread hgood => ?good, fun i set row unit header data w s hread hbad => ?bad,
    fun jseq slot other r s hrec hslot hother hne => ?copy, fun jseq slot r i s hrec hslot hall howner hi hnew hvote hended hwait => ?commit,
    fun i s hlive hstate hdone => ?acknowledged, fun i s hi hlive hstate hended => ?handed, fun lba slot b s hback htarget => ?other⟩
  case flush =>
    obtain ⟨hentry, hqueued, harbiters⟩ := granted_leaves port.val i c a s
    have hruns := arbiterGrant_runs h
    generalize granted port.val i c a s = v at hentry hqueued harbiters hruns
    rw [startWork_flush (by rw [hentry]; exact hopc)] at hruns
    refine .of_exec hruns ⟨?_, hqueued, harbiters⟩
    rw [toPosting, entryOf_onEntry, hentry]
    rfl
  case grant =>
    obtain ⟨hentry, hqueued, -⟩ := granted_leaves port.val i c a s
    have hruns := arbiterGrant_runs h
    generalize granted port.val i c a s = v at hentry hqueued hruns
    have hkept : WorkKept i v (startWork i v) := workKept_startWork (by rw [hentry]; rfl)
    have hwork := hkept.entry
    rw [hentry] at hwork
    simp only [Entry.kept, Prod.mk.injEq] at hwork
    obtain ⟨hlive, hgranted, hcid, hgts, hopc, -⟩ := hwork
    exact .of_exec hruns ⟨hlive, hgranted, hcid, hgts, hopc, hkept.queued.trans hqueued⟩
  case stored =>
    refine .of_exec (lastDataCellStored_runs hlive hstate hall hopc) ?_
    obtain ⟨wait, hentry⟩ := encodeData_leaves i (onEntry i (fun e => { e with
      data := (entryOf s i).data.take (entryOf s i).wanted, hostIv := e.hostIv + (s.now - e.hostStart) }) s)
    rw [hentry, entryOf_onEntry]
    exact ⟨rfl, rfl, rfl, rfl⟩
  case parity =>
    refine .of_exec (lastParityCellReady_runs hlive hstate) ?_
    have hlanes : Evolves _ s (dropLanes i s) := dropLanes_evolves .refl Sub.rfl
    obtain ⟨crcs, hentry⟩ := entryOf_submitUnits i (dropLanes i s)
    rw [hentry, entryOf_of_evolves hlanes (by decide), unitsOf_dropLanes, hlanes.now_eq (by decide)]
    exact ⟨rfl, rfl, rfl, rfl⟩
  case unit =>
    obtain ⟨hw, hslot, hset, hrow, hunit⟩ := hw
    obtain ⟨hv, hother⟩ := hv
    have hfound : ((entryOf s i).unitsOut.find? fun w => w.slot == slot.val && w.set == set && w.row == row && w.unit == unit).isSome :=
      List.find?_isSome.mpr ⟨w, hw, by simp [hslot, hset, hrow, hunit]⟩
    obtain ⟨w', hw'⟩ := Option.isSome_iff_exists.mp hfound
    have hleft : v ∈ (unitTaken slot.val set row unit (entryOf s i)).unitsOut :=
      List.mem_filter.mpr ⟨hv, by simp [hother]⟩
    have hmore : (unitTaken slot.val set row unit (entryOf s i)).unitsOut.isEmpty = false :=
      List.isEmpty_eq_false_iff_exists_mem.mpr ⟨v, hleft⟩
    refine .of_exec (congrArg Host.Outcome.next (unitDone_runs hlive hstate hw' hmore)) ?_
    rw [entryOf_unitLanded]
    exact ⟨hstate, rfl⟩
  case acknowledged =>
    refine .of_exec (rdmaWriteAcknowledged_runs hlive hstate hdone) ?_
    rw [toPosting, entryOf_onEntry]
  case copy =>
    obtain ⟨c, hruns⟩ := journalCompletion_runs hrec hslot
    rw [copyStored_open hother (Fin.val_ne_of_ne hne)] at hruns
    exact .of_exec hruns (recOf_copyLanded hrec)
  case good =>
    have hpasses : unitPasses (unitRead i set row unit w s) set row ⟨unit, header, data⟩ = true := by
      rw [unitPasses_of_lay (lay_unitRead ..)]
      exact hgood
    refine .of_exec (driveReadCompletion_good hread hpasses) ?_
    rw [(workKept_advanceRead i _).reads.1, entryOf_onEntry]
    exact List.mem_append_right _ (List.mem_singleton.mpr rfl)
  case bad =>
    have hfails : unitPasses (unitRead i set row unit w s) set row ⟨unit, header, data⟩ = false := by
      rw [unitPasses_of_lay (lay_unitRead ..)]
      exact hbad
    have htold := emitted_unitCheckFail set row unit (now_unitRead i set row unit w s)
    rw [lay_unitRead] at htold
    refine .of_exec (driveReadCompletion_bad hread hfails) ⟨?_, ?_⟩
    · rw [(workKept_advanceRead i _).reads.2, entryOf_onEntry]
      exact List.mem_cons_self
    · have hrest (v : State) : Evolves _ v (advanceRead i v) := advanceRead_evolves .refl Sub.rfl
      exact (hrest _).emitted_mono (by decide) htold
  case handed =>
    have hmeasure (v : State) : Evolves _ v (measure (entryOf s i) v) := measure_evolves .refl Sub.rfl
    have hfree (v : State) : Evolves _ v (freeEntry i .done v) := freeEntry_evolves .refl Sub.rfl
    exact .of_exec (completionHandedToXpt_runs hi hlive hstate hended)
      ⟨entryOf_freeEntry .., (hfree _).answered ((hmeasure _).answered (answered_post _ _ _ _ _ _ _))⟩
  case other =>
    obtain ⟨hleft, hcmd, -⟩ := backTaken_leaves slot.val lba b s
    exact .of_exec (congrArg Host.Outcome.next (backDone_runs hback htarget)) ⟨hleft, hcmd⟩
  case commit =>
    obtain ⟨c, hruns⟩ := journalCompletion_runs hrec hslot
    have hnext (v : State) : Evolves _ v (nextRebuild v) := nextRebuild_evolves .refl Sub.rfl
    have hown : i < ownFrom := lt_of_lt_of_le hi (by decide)
    have hcommitted := committed_copiesDone (slot := slot.val) (c := c) hrec hnew howner hown hvote hended (by simpa using hwait)
    have hstored := (hcommitted.stands (entryStands_releaseStore hown _)).stands
      ((TableStands.of_evolves (hnext _) (by decide) (by decide)).entryStands i)
    have hend := hstored.stands (entryStands_fixAdvance hown _)
    rw [if_pos (copyStored_durable hslot hall)] at hruns
    exact .of_exec hruns ⟨hend.state, hend.status⟩

end Sys2Proof.Machine
end
